-- ==== Sys2Proof/Word.lean ====
section
/-! DEFINITION. The plain data of the model: bytes, fabric time as a number, and sparse tables keyed by number. -/

namespace Sys2Proof

/-- A byte. -/
abbrev Byte := BitVec 8

/-- Fabric time in sixteenths of a nanosecond (R35), as a number: FT is treated as never wrapping. -/
abbrev FT := Nat

/-- A table of entries by number, in one canonical form: numbers rising, and no entry equal to the
value that an unlisted number reads as. -/
abbrev Table (α : Type) := List (Nat × α)

/-- Bytes by address, in the same form; an unlisted address reads 0. -/
abbrev Memory := List (Nat × BitVec 8)

end Sys2Proof
end

