-- ==== Sys2Proof/Syntax.lean ====
section
/-! DEFINITION. The commands of the block: one constructor of `Instr` per row of the opcode table, and the data they carry. -/

namespace Sys2Proof

/-- An EFP frame as it stands between two links (R64 to R66): the header fields of Table 03-5 and the payload.
HCRC and the trailer are rebuilt at each link and are not held. -/
structure Frame where
  /-- OPCODE (Table 03-8) -/
  opcode : BitVec 8 := 0
  /-- DST_UNIT -/
  dst : BitVec 16 := 0
  /-- SRC_UNIT -/
  src : BitVec 16 := 0
  /-- VC -/
  vc : BitVec 3 := 0
  /-- TENANT -/
  tenant : BitVec 10 := 0
  /-- EPOCH -/
  epoch : BitVec 4 := 0
  /-- HOPS -/
  hops : BitVec 4 := 0
  /-- COLOUR -/
  colour : BitVec 2 := 0
  /-- ADDRESS -/
  addr : BitVec 56 := 0
  /-- LENGTH in units of 64 bytes -/
  length : BitVec 7 := 0
  /-- TAG -/
  tag : BitVec 13 := 0
  /-- STATUS -/
  status : BitVec 6 := 0
  /-- FLAGS (Table 03-6) -/
  flags : BitVec 8 := 0
  /-- HANDLE -/
  handle : BitVec 24 := 0
  /-- Payload, a multiple of 64 bytes -/
  payload : List Byte := []
  deriving DecidableEq, Repr

/-- A link control word (Table 03-2); its reserved bits are 0. -/
structure Lcw where
  /-- TYPE: 0 NORMAL, 1 NAK, 2 INIT -/
  typ : BitVec 4 := 0
  /-- ACK_V -/
  ackV : Bool := false
  /-- ACK_SEQ -/
  ackSeq : BitVec 12 := 0
  /-- CREDIT, VC0 first; a VC not listed reads 0 -/
  credits : List (BitVec 16) := []
  /-- LCRC -/
  lcrc : BitVec 16 := 0
  deriving DecidableEq, Repr

/-- A LINKCTL block of the ADK link (Table 17-2); its reserved bits are 0. -/
structure LinkCtl where
  evCredit : BitVec 16
  reset : Bool
  init : Bool
  nak : Bool
  ackV : Bool
  ackSeq : BitVec 12
  /-- LCRC -/
  lcrc : BitVec 16
  deriving DecidableEq, Repr

/-- What an access or a scrub read finds wrong in the stored codeword of a line (R349, R351, R356). -/
structure EccHit where
  /-- What the codeword holds: 0 a data line by line number, 1 a directory entry by line number, 2 the tag-table line of
  a block, 3 an extent-table entry, 4 a tier-page-map entry, 5 a lease-table copy, 6 a scratchpad or cluster-memory line
  or an accumulator (R356), 7 a data-cache or instruction-buffer line -/
  what : BitVec 3
  /-- Which one; for kind 6 the scratchpad line core x 2^14 + line, 2^24 + cluster x 2^18 + line, or
  2^26 + core x 8 + tile; for kind 7 core + 1,024 x line number -/
  index : Nat
  /-- Symbols in error: 1 or 2 corrected, 3 or 4 uncorrectable, more perhaps miscorrected (R349) -/
  symbols : BitVec 7
  /-- A second copy of the entry is uncorrectable too (R357); for a tag-table line, line 0 of the place is (R189) -/
  bothCopies : Bool := false
  /-- No copy at any home or port die survives (R357) -/
  noCopy : Bool := false
  deriving DecidableEq, Repr

/-- One measurement of a margin scan (R360, R419): the item and its value; no value where an optical read failed three times. -/
structure Measure where
  kind : BitVec 3
  index : BitVec 16
  value : Option (BitVec 16)
  deriving DecidableEq, Repr

/-- What training and enumeration find on a bridge port (Table 07-3, R157). -/
structure CxlDevice where
  /-- The device is a Type 3 memory device, attached with no switch between -/
  type3 : Bool := true
  direct : Bool := true
  /-- It is one logical device, of static capacity -/
  single : Bool := true
  static : Bool := true
  /-- The link has trained to this many lanes, at this rate in GT/s, in 256-byte flit mode -/
  lanes : BitVec 5 := 16
  rate : BitVec 8 := 64
  flit256 : Bool := true
  /-- It speaks CXL.io and CXL.mem, and has an HDM-H decoder with interleave ways 1 -/
  ioMem : Bool := true
  hdmH : Bool := true
  /-- Serial number -/
  serial : BitVec 64
  /-- Capacity in bytes -/
  capacity : Nat
  deriving DecidableEq, Repr

/-- What a boot step found (R12, R15, R344, R341); only the fields of the step that ends are used. -/
structure BootReport where
  /-- The step succeeded -/
  ok : Bool := true
  /-- Step 2: firmware banks whose package verifies -/
  bank0 : Bool := true
  bank1 : Bool := false
  /-- Step 3: the seal loop is open, and MAKER_JMP is fitted, at their debounced sample -/
  sealOpen : Bool := false
  jumper : Bool := false
  /-- Step 4: a router failed training -/
  routerFailed : Bool := false
  /-- Step 4: clusters that failed, bit 4 x LC + cluster -/
  clusters : BitVec 128 := 0
  deriving DecidableEq, Repr

/-- A reading of the sensors (R424). -/
structure Reading where
  /-- Input voltage, 10 mV units -/
  vin : BitVec 16
  /-- Input current, 0.1 A units -/
  iin : BitVec 16
  /-- Coolant outlet and inlet, degrees C, two's complement -/
  tOut : BitVec 8
  tIn : BitVec 8
  /-- Flow, 0.25 L/min units, saturated at 0xFF -/
  flow : BitVec 8
  deriving DecidableEq, Repr

/-- The fields of a thread instruction other than its opcode (Table 09-13). -/
structure Ins where
  xd : BitVec 5 := 0
  xa : BitVec 5 := 0
  xb : BitVec 5 := 0
  fn : BitVec 11 := 0
  imm : BitVec 32 := 0
  deriving DecidableEq, Repr

/-- The commands: one per row of the opcode table, with its operands. -/
inductive Instr where
  /-- REGISTER_WRITE, R4 -/
  | registerWrite (tag : BitVec 16) (addr : BitVec 48) (value held : BitVec 64)
  /-- RC_READ, R6 -/
  | rcRead (tag : BitVec 16) (incs : BitVec 32)
  /-- HEARTBEAT_SEND, R24 -/
  | heartbeatSend
  /-- HEARTBEAT_RECEIVE, R24 -/
  | heartbeatReceive
  /-- HEARTBEAT_REPLY_RECEIVE, R24 -/
  | heartbeatReplyReceive
  /-- HEARTBEAT_TIMEOUT_SD0, R24 -/
  | heartbeatTimeoutSd0
  /-- HEARTBEAT_TIMEOUT_SD1, R24 -/
  | heartbeatTimeoutSd1
  /-- TRELLIS_HOP, R20 -/
  | trellisHop (site : BitVec 6) (yx : Bool) (vc : BitVec 3) (replays : BitVec 4)
  /-- TRELLIS_RETRAIN_TIMEOUT, R358 -/
  | trellisRetrainTimeout (edge : BitVec 8)
  /-- FT_DISTRIBUTE, R36 -/
  | ftDistribute
  /-- RT_CODE_FRAME, R39 -/
  | rtCodeFrame (sync : BitVec 16) (markFt : BitVec 64) (flags : BitVec 8) (crc : BitVec 16)
  /-- RT_MARK_EDGE, R39 -/
  | rtMarkEdge (frac : BitVec 6)
  /-- MARK_WINDOW_EXPIRY, R39 -/
  | markWindowExpiry
  /-- RT_CODE_ABSENT_TIMEOUT, R39 -/
  | rtCodeAbsentTimeout
  /-- RT_REF_LOSS, R40 -/
  | rtRefLoss (since : BitVec 64)
  /-- HOLDOVER_EXPIRY, R40 -/
  | holdoverExpiry
  /-- FT_STALL_END, R44 -/
  | ftStallEnd
  /-- TIM_CTRL_WRITE, R49 -/
  | timCtrlWrite (tag : BitVec 16) (value : BitVec 64)
  /-- GATE_CYCLE_START, R283 -/
  | gateCycleStart (port : BitVec 8)
  /-- GATE_ENTRY_ADVANCE, R283 -/
  | gateEntryAdvance (port : BitVec 8)
  /-- COLLECTIVE_ABORT_DEADLINE, R249 -/
  | collectiveAbortDeadline (id : BitVec 12)
  /-- LEASE_EXPIRY, R143 -/
  | leaseExpiry (index : BitVec 12)
  /-- SCRUB_WINDOW, R352 -/
  | scrubWindow (hits : List EccHit)
  /-- HEAT_DECAY, R161 -/
  | heatDecay
  /-- SELF_TEST_SLOT, R362 -/
  | selfTestSlot
  /-- SELF_TEST_COMPLETE, R362 -/
  | selfTestComplete (cluster : BitVec 7) (mismatch : Bool)
  /-- MARGIN_SCAN, R360 -/
  | marginScan (items : List Measure) (held : BitVec 32)
  /-- BELVEDERE_SAMPLE, R296 -/
  | belvedereSample (port : BitVec 8) (queue : BitVec 4)
  /-- SIGNAL_PRESENT, R79 -/
  | signalPresent (port : BitVec 8)
  /-- LOSS_OF_SIGNAL, R79 -/
  | lossOfSignal (port : BitVec 8) (lock : Bool)
  /-- TRAINING_COMPLETE, R79 -/
  | trainingComplete (port : BitVec 8)
  /-- TRAINING_ATTEMPT_TIMEOUT, R56 -/
  | trainingAttemptTimeout (port : BitVec 8)
  /-- LCW_NORMAL, R54 -/
  | lcwNormal (port : BitVec 8) (word : Lcw)
  /-- LCW_NAK, R56 -/
  | lcwNak (port : BitVec 8) (word : Lcw)
  /-- LCW_INIT, R63 -/
  | lcwInit (port : BitVec 8) (word : Lcw)
  /-- LCW_SEND_TIMER, R55 -/
  | lcwSendTimer (port : BitVec 8)
  /-- REPLAY_TIMEOUT, R56 -/
  | replayTimeout (port : BitVec 8)
  /-- FRAME_LINK_REJECT, R55 -/
  | frameLinkReject (port : BitVec 8) (frame : Frame) (lseq : BitVec 12) (crc : BitVec 32) (fec : Bool)
  /-- HCRC_DISCARD, R69 -/
  | hcrcDiscard (port : BitVec 8) (frame : Frame) (hcrc : BitVec 16)
  /-- BUNDLE_SKEW_TIMEOUT, R53 -/
  | bundleSkewTimeout (port : BitVec 8)
  /-- HELLO, R81 -/
  | hello (port : BitVec 8) (frame : Frame)
  /-- HELLO_PERIOD_TIMER, R81 -/
  | helloPeriodTimer (port : BitVec 8)
  /-- HELLO_SILENCE_TIMEOUT, R81 -/
  | helloSilenceTimeout (port : BitVec 8)
  /-- PRT_PEER_RETRAIN, R79 -/
  | prtPeerRetrain (tag : BitVec 16) (port : BitVec 8)
  /-- PRT_PEER_ACK, R83 -/
  | prtPeerAck (tag : BitVec 16) (port : BitVec 8)
  /-- EGRESS_FRAME_START, R281 -/
  | egressFrameStart (port : BitVec 8)
  /-- LD, R94 -/
  | ld (port : BitVec 8) (frame : Frame) (hits : List EccHit)
  /-- LD_PEEK, R117 -/
  | ldPeek (port : BitVec 8) (frame : Frame)
  /-- ST, R95 -/
  | st (port : BitVec 8) (frame : Frame) (hits : List EccHit)
  /-- ST_PUSH, R117 -/
  | stPush (port : BitVec 8) (frame : Frame)
  /-- ST_MASK, R94 -/
  | stMask (port : BitVec 8) (frame : Frame)
  /-- FENCE, R96 -/
  | fence (port : BitVec 8) (frame : Frame)
  /-- SB_RD, R93 -/
  | sbRd (port : BitVec 8) (frame : Frame)
  /-- SB_WR, R93 -/
  | sbWr (port : BitVec 8) (frame : Frame)
  /-- RSP_DATA, R89 -/
  | rspData (port : BitVec 8) (frame : Frame)
  /-- RSP_CMP, R89 -/
  | rspCmp (port : BitVec 8) (frame : Frame)
  /-- SB_DATA, R155 -/
  | sbData (port : BitVec 8) (frame : Frame)
  /-- AT_ADD, R73 -/
  | atAdd (port : BitVec 8) (frame : Frame)
  /-- AT_MIN, R73 -/
  | atMin (port : BitVec 8) (frame : Frame)
  /-- AT_MAX, R73 -/
  | atMax (port : BitVec 8) (frame : Frame)
  /-- AT_CAS, R73 -/
  | atCas (port : BitVec 8) (frame : Frame)
  /-- AP_ADD, R73 -/
  | apAdd (port : BitVec 8) (frame : Frame)
  /-- AP_MIN, R73 -/
  | apMin (port : BitVec 8) (frame : Frame)
  /-- AP_MAX, R73 -/
  | apMax (port : BitVec 8) (frame : Frame)
  /-- AP_CAS, R73 -/
  | apCas (port : BitVec 8) (frame : Frame)
  /-- C_RD_S, R116 -/
  | cRdS (port : BitVec 8) (frame : Frame)
  /-- C_RD_O, R116 -/
  | cRdO (port : BitVec 8) (frame : Frame)
  /-- C_UPG, R116 -/
  | cUpg (port : BitVec 8) (frame : Frame)
  /-- C_WB, R116 -/
  | cWb (port : BitVec 8) (frame : Frame)
  /-- C_EVICT, R116 -/
  | cEvict (port : BitVec 8) (frame : Frame)
  /-- SNP_INV, R29 -/
  | snpInv (port : BitVec 8) (frame : Frame)
  /-- SNP_SHR, R29 -/
  | snpShr (port : BitVec 8) (frame : Frame)
  /-- SNP_BINV, R29 -/
  | snpBinv (port : BitVec 8) (frame : Frame)
  /-- C_DATA, R29 -/
  | cData (port : BitVec 8) (frame : Frame)
  /-- C_GNT, R29 -/
  | cGnt (port : BitVec 8) (frame : Frame)
  /-- SNP_ACK, R116 -/
  | snpAck (port : BitVec 8) (frame : Frame)
  /-- SNP_DATA, R116 -/
  | snpData (port : BitVec 8) (frame : Frame)
  /-- LEASE_RENEW, R142 -/
  | leaseRenew (port : BitVec 8) (frame : Frame)
  /-- EPOCH_NOTE, R316 -/
  | epochNote (port : BitVec 8) (frame : Frame)
  /-- FAULT_REC, R87 -/
  | faultRec (port : BitVec 8) (frame : Frame)
  /-- DOM_NOTE, R125 -/
  | domNote (port : BitVec 8) (frame : Frame)
  /-- COLL_OPEN, R234 -/
  | collOpen (port : BitVec 8) (frame : Frame)
  /-- COLL_CONTRIB, R241 -/
  | collContrib (port : BitVec 8) (frame : Frame)
  /-- COLL_RESULT, R248 -/
  | collResult (port : BitVec 8) (frame : Frame)
  /-- COLL_GRANT, R240 -/
  | collGrant (port : BitVec 8) (frame : Frame)
  /-- COLL_DONE, R243 -/
  | collDone (port : BitVec 8) (frame : Frame)
  /-- ABORT, R252 -/
  | abort (port : BitVec 8) (frame : Frame)
  /-- ATN_DECODE, R263 -/
  | atnDecode (port : BitVec 8) (frame : Frame)
  /-- ATN_BIND, R258 -/
  | atnBind (port : BitVec 8) (frame : Frame)
  /-- ATN_RELEASE, R256 -/
  | atnRelease (port : BitVec 8) (frame : Frame)
  /-- ATN_RESULT, R271 -/
  | atnResult (port : BitVec 8) (frame : Frame)
  /-- ATN_SUB, R267 -/
  | atnSub (port : BitVec 8) (frame : Frame)
  /-- ATN_PART, R267 -/
  | atnPart (port : BitVec 8) (frame : Frame)
  /-- STORE_RELEASE, R95 -/
  | storeRelease (n : Nat)
  /-- FENCE_COMPLETE, R96 -/
  | fenceComplete (n : Nat)
  /-- IMPLICIT_FENCE_RELEASE, R100 -/
  | implicitFenceRelease (n : Nat)
  /-- TARGET_LIMIT_EXPIRY, R85 -/
  | targetLimitExpiry (port : BitVec 8)
  /-- REQUEST_TIMER_EXPIRY, R88 -/
  | requestTimerExpiry (n : Nat)
  /-- BACKSTOP_TIMER_EXPIRY, R88 -/
  | backstopTimerExpiry (n : Nat)
  /-- SNOOP_TIMER_EXPIRY, R121 -/
  | snoopTimerExpiry (line : BitVec 50) (agent : BitVec 8)
  /-- CINCH_EXPIRY, R120 -/
  | cinchExpiry (line : BitVec 50) (agent : BitVec 8)
  /-- FLUSH_WINDOW_END, R123 -/
  | flushWindowEnd (dom : BitVec 6)
  /-- COH_DOM_ENABLE, R109 -/
  | cohDomEnable (tag : BitVec 16) (dom : BitVec 6) (value : BitVec 64)
  /-- COH_DOM_DISABLE, R109 -/
  | cohDomDisable (tag : BitVec 16) (dom : BitVec 6) (value : BitVec 64)
  /-- COH_DOM_DOWN, R122 -/
  | cohDomDown (tag : BitVec 16) (dom : BitVec 6)
  /-- COH_DOM_REFORM, R109 -/
  | cohDomReform (tag : BitVec 16) (dom : BitVec 6)
  /-- COH_MEMBER_WRITE, R109 -/
  | cohMemberWrite (tag : BitVec 16) (dom : BitVec 6) (j : BitVec 6) (value : BitVec 64)
  /-- EXT_ASSIGN, R134 -/
  | extAssign (tag : BitVec 16) (index : BitVec 21)
  /-- EXT_SETATTR, R134 -/
  | extSetattr (tag : BitVec 16) (index : BitVec 21)
  /-- EXT_REVOKE, R137 -/
  | extRevoke (tag : BitVec 16) (index : BitVec 21)
  /-- EXT_RELEASE, R134 -/
  | extRelease (tag : BitVec 16) (index : BitVec 21)
  /-- EXT_SCRUB, R337 -/
  | extScrub (tag : BitVec 16) (index : BitVec 21)
  /-- EXTENT_SCRUB_COMPLETE, R337 -/
  | extentScrubComplete (index : BitVec 21)
  /-- EXTENT_DRAINED, R137 -/
  | extentDrained (index : BitVec 21)
  /-- DRAIN_LIMIT_EXPIRY, R139 -/
  | drainLimitExpiry (index : BitVec 21)
  /-- LSE_CREATE, R140 -/
  | lseCreate (tag : BitVec 16)
  /-- LSE_DELETE, R140 -/
  | lseDelete (tag : BitVec 16)
  /-- LSE_HANDOFF, R140 -/
  | lseHandoff (tag : BitVec 16) (unit : BitVec 16)
  /-- LSE_EXPIRE, R143 -/
  | lseExpire (tag : BitVec 16)
  /-- ADM_ADMIT, R145 -/
  | admAdmit (tag : BitVec 16)
  /-- ADM_RESIZE, R147 -/
  | admResize (tag : BitVec 16)
  /-- ADM_RELEASE, R147 -/
  | admRelease (tag : BitVec 16)
  /-- BITMAP_RETRY_TIMER, R332 -/
  | bitmapRetryTimer (port : BitVec 8)
  /-- BRIDGE_LINK_ACTIVE, R157 -/
  | bridgeLinkActive (b : BitVec 4) (dev : CxlDevice)
  /-- BRIDGE_LINK_DOWN, R158 -/
  | bridgeLinkDown (b : BitVec 4)
  /-- CXL_COMPLETION, R157 -/
  | cxlCompletion (b : BitVec 4) (tag : BitVec 13) (data : List Byte) (poison : BitVec 32)
  /-- CXL_COMPLETION_TIMEOUT, R157 -/
  | cxlCompletionTimeout (b : BitVec 4) (tag : BitVec 13)
  /-- CXL_MEDIA_EVENT, R157 -/
  | cxlMediaEvent (b : BitVec 4) (lines : List (BitVec 46))
  /-- TRAY_RETIRE, R158 -/
  | trayRetire (tag : BitVec 16)
  /-- TRAY_EVACUATE, R158 -/
  | trayEvacuate (tag : BitVec 16)
  /-- EVACUATE_COMPLETE, R158 -/
  | evacuateComplete (tray : BitVec 9)
  /-- TRAY_SANITIZE, R156 -/
  | traySanitize (tag : BitVec 16)
  /-- TP_SETPIN, R164 -/
  | tpSetpin (tag : BitVec 16) (pin : BitVec 2)
  /-- TP_RELOCATE, R158 -/
  | tpRelocate (tag : BitVec 16)
  /-- MOVE_START, R166 -/
  | moveStart (page : BitVec 30)
  /-- MOVE_COMPLETE, R166 -/
  | moveComplete (page : BitVec 30)
  /-- PAVILION_WARM, R162 -/
  | pavilionWarm (pv : BitVec 6)
  /-- WALK_READ_COMPLETE, R171 -/
  | walkReadComplete (walk : Nat)
  /-- KV_RESTORE, R172 -/
  | kvRestore (n : Nat)
  /-- RESTORE_ROOM_TIMEOUT, R274 -/
  | restoreRoomTimeout (n : Nat)
  /-- MAKE_ROOM, R275 -/
  | makeRoom
  /-- TRN_INV_GO, R175 -/
  | trnInvGo (tag : BitVec 16)
  /-- INVALIDATION_COMPLETE, R175 -/
  | invalidationComplete
  /-- PTW_READ, R176 -/
  | ptwRead (tag : BitVec 16)
  /-- PTW_WRITE, R176 -/
  | ptwWrite (tag : BitVec 16) (value : BitVec 64)
  /-- PTW_ACCESS_COMPLETE, R176 -/
  | ptwAccessComplete
  /-- NOP, R216 -/
  | nop (core : BitVec 10) (tid : BitVec 6) (ins : Ins)
  /-- ALU, R216 -/
  | alu (core : BitVec 10) (tid : BitVec 6) (ins : Ins)
  /-- ALUI, R216 -/
  | alui (core : BitVec 10) (tid : BitVec 6) (ins : Ins)
  /-- MOVI, R216 -/
  | movi (core : BitVec 10) (tid : BitVec 6) (ins : Ins)
  /-- MOVHI, R216 -/
  | movhi (core : BitVec 10) (tid : BitVec 6) (ins : Ins)
  /-- BR, R216 -/
  | br (core : BitVec 10) (tid : BitVec 6) (ins : Ins)
  /-- JAL, R216 -/
  | jal (core : BitVec 10) (tid : BitVec 6) (ins : Ins)
  /-- GETS, R205 -/
  | gets (core : BitVec 10) (tid : BitVec 6) (ins : Ins)
  /-- LDL, R202 -/
  | ldl (core : BitVec 10) (tid : BitVec 6) (ins : Ins)
  /-- STL, R202 -/
  | stl (core : BitVec 10) (tid : BitVec 6) (ins : Ins)
  /-- ATL, R202 -/
  | atl (core : BitVec 10) (tid : BitVec 6) (ins : Ins)
  /-- COPYL, R216 -/
  | copyl (core : BitVec 10) (tid : BitVec 6) (ins : Ins)
  /-- MXE_ISSUE, R217 -/
  | mxeIssue (core : BitVec 10) (tid : BitVec 6) (ins : Ins)
  /-- VE_ISSUE, R212 -/
  | veIssue (core : BitVec 10) (tid : BitVec 6) (ins : Ins)
  /-- GFE_ISSUE, R217 -/
  | gfeIssue (core : BitVec 10) (tid : BitVec 6) (ins : Ins)
  /-- PLDX, R203 -/
  | pldx (core : BitVec 10) (tid : BitVec 6) (ins : Ins)
  /-- PSTX, R203 -/
  | pstx (core : BitVec 10) (tid : BitVec 6) (ins : Ins)
  /-- PLD, R206 -/
  | pld (core : BitVec 10) (tid : BitVec 6) (ins : Ins)
  /-- PST, R206 -/
  | pst (core : BitVec 10) (tid : BitVec 6) (ins : Ins)
  /-- PATM, R216 -/
  | patm (core : BitVec 10) (tid : BitVec 6) (ins : Ins)
  /-- CORE_FENCE, R219 -/
  | coreFence (core : BitVec 10) (tid : BitVec 6) (ins : Ins)
  /-- ACQUIRE, R104 -/
  | acquire (core : BitVec 10) (tid : BitVec 6) (ins : Ins)
  /-- SEND, R220 -/
  | send (core : BitVec 10) (tid : BitVec 6) (ins : Ins)
  /-- BAR, R222 -/
  | bar (core : BitVec 10) (tid : BitVec 6) (ins : Ins)
  /-- WAITL, R222 -/
  | waitl (core : BitVec 10) (tid : BitVec 6) (ins : Ins)
  /-- WAITL_TIMEOUT, R222 -/
  | waitlTimeout (core : BitVec 10) (tid : BitVec 6)
  /-- WAITE, R216 -/
  | waite (core : BitVec 10) (tid : BitVec 6) (ins : Ins)
  /-- WAITM, R216 -/
  | waitm (core : BitVec 10) (tid : BitVec 6) (ins : Ins)
  /-- THREAD_HALT, R216 -/
  | threadHalt (core : BitVec 10) (tid : BitVec 6) (ins : Ins)
  /-- TPREF, R216 -/
  | tpref (core : BitVec 10) (tid : BitVec 6) (ins : Ins)
  /-- TINV, R216 -/
  | tinv (core : BitVec 10) (tid : BitVec 6) (ins : Ins)
  /-- ILLEGAL_INSTRUCTION, R216 -/
  | illegalInstruction (core : BitVec 10) (tid : BitVec 6) (word : BitVec 64)
  /-- CORE_POOL_COMPLETION, R205 -/
  | corePoolCompletion (core : BitVec 10) (tid : BitVec 6) (n : Nat)
  /-- MXE_MMA, R207 -/
  | mxeMma (core : BitVec 10)
  /-- MXE_ZERO, R210 -/
  | mxeZero (core : BitVec 10)
  /-- MXE_STORE, R210 -/
  | mxeStore (core : BitVec 10)
  /-- MXE_LOAD, R210 -/
  | mxeLoad (core : BitVec 10)
  /-- VE_ADD, R212 -/
  | veAdd (core : BitVec 10) (ve : Bool)
  /-- VE_SUB, R212 -/
  | veSub (core : BitVec 10) (ve : Bool)
  /-- VE_MUL, R212 -/
  | veMul (core : BitVec 10) (ve : Bool)
  /-- VE_FMA, R212 -/
  | veFma (core : BitVec 10) (ve : Bool)
  /-- VE_MAX, R212 -/
  | veMax (core : BitVec 10) (ve : Bool)
  /-- VE_MIN, R212 -/
  | veMin (core : BitVec 10) (ve : Bool)
  /-- VE_CVT, R212 -/
  | veCvt (core : BitVec 10) (ve : Bool)
  /-- VE_EXP2, R212 -/
  | veExp2 (core : BitVec 10) (ve : Bool)
  /-- VE_LOG2, R212 -/
  | veLog2 (core : BitVec 10) (ve : Bool)
  /-- VE_RCP, R212 -/
  | veRcp (core : BitVec 10) (ve : Bool)
  /-- VE_RSQRT, R212 -/
  | veRsqrt (core : BitVec 10) (ve : Bool)
  /-- VE_RSUM, R212 -/
  | veRsum (core : BitVec 10) (ve : Bool)
  /-- VE_RMAX, R212 -/
  | veRmax (core : BitVec 10) (ve : Bool)
  /-- GFE_GATHER, R213 -/
  | gfeGather (core : BitVec 10)
  /-- GFE_SCATTER, R213 -/
  | gfeScatter (core : BitVec 10)
  /-- GFE_FILTER, R213 -/
  | gfeFilter (core : BitVec 10)
  /-- GFE_TOPK, R213 -/
  | gfeTopk (core : BitVec 10)
  /-- ENGINE_INVALID_DESCRIPTOR, R218 -/
  | engineInvalidDescriptor (core : BitVec 10) (engine : BitVec 2)
  /-- ENGINE_COMMAND_COMPLETE, R217 -/
  | engineCommandComplete (core : BitVec 10) (engine : BitVec 2)
  /-- SHADOW_COMPARE, R225 -/
  | shadowCompare (core : BitVec 10) (engine : BitVec 2) (differ : Bool)
  /-- MAJORITY_VOTE, R226 -/
  | majorityVote (core : BitVec 10) (engine : BitVec 2) (vote : BitVec 2)
  /-- CLV_BIND_ENABLE, R230 -/
  | clvBindEnable (tag : BitVec 16) (value : BitVec 64)
  /-- CLV_BIND_DISABLE, R230 -/
  | clvBindDisable (tag : BitVec 16) (value : BitVec 64)
  /-- CLV_CMD_ABORT, R250 -/
  | clvCmdAbort (tag : BitVec 16)
  /-- CLV_GRP_MEMBER_WRITE, R228 -/
  | clvGrpMemberWrite (tag : BitVec 16) (j : BitVec 7) (value : BitVec 64)
  /-- HELD_OPEN_RETRY, R234 -/
  | heldOpenRetry (n : Nat)
  /-- CHUNK_SLOTS_FREED, R242 -/
  | chunkSlotsFreed (id : BitVec 12) (who : Nat) (chunk : Nat)
  /-- COLLECTIVE_COMMIT, R243 -/
  | collectiveCommit (id : BitVec 12)
  /-- ABORT_COMPLETE, R251 -/
  | abortComplete (id : BitVec 12)
  /-- ATN_CMD_RELEASE, R256 -/
  | atnCmdRelease (tag : BitVec 16) (handle : BitVec 18)
  /-- HANDLE_FREED, R256 -/
  | handleFreed (handle : BitVec 18)
  /-- SPLIT_COMPLETE, R268 -/
  | splitComplete (decode : Nat) (split : Nat)
  /-- KV_PROBE_COMPLETE, R272 -/
  | kvProbeComplete (walk : Nat)
  /-- DECODE_COMPLETE, R271 -/
  | decodeComplete (decode : Nat)
  /-- GATE_COMMIT, R284 -/
  | gateCommit (tag : BitVec 16) (port : BitVec 8) (value : BitVec 64)
  /-- QUE_SHAPE_WRITE, R288 -/
  | queShapeWrite (tag : BitVec 16) (port : BitVec 8) (queue : BitVec 4) (value : BitVec 64)
  /-- PRT_PSHAPE_WRITE, R288 -/
  | prtPshapeWrite (tag : BitVec 16) (port : BitVec 8) (value : BitVec 64)
  /-- PRT_BRD_WRITE, R291 -/
  | prtBrdWrite (tag : BitVec 16) (port : BitVec 8) (burst : Bool) (value : BitVec 64)
  /-- RATE_LOOP_INCREASE, R294 -/
  | rateLoopIncrease (port : BitVec 8)
  /-- BELVEDERE_CLEAR, R296 -/
  | belvedereClear (tag : BitVec 16) (port : BitVec 8) (queue : BitVec 4) (value : BitVec 64)
  /-- BELVEDERE_SNAP, R297 -/
  | belvedereSnap (tag : BitVec 16) (port : BitVec 8) (queue : BitVec 4) (value : BitVec 64)
  /-- IMGWR, R398 -/
  | imgwr (tag : BitVec 16) (addr : BitVec 48) (words : List (BitVec 64))
  /-- CMPO_VALIDATE, R307 -/
  | cmpoValidate (tag : BitVec 16)
  /-- IMAGE_VALIDATION_DONE, R307 -/
  | imageValidationDone
  /-- CMPO_LOAD, R309 -/
  | cmpoLoad (tag : BitVec 16)
  /-- LOAD_COMPLETE, R376 -/
  | loadComplete
  /-- CMPO_APPLY, R311 -/
  | cmpoApply (tag : BitVec 16)
  /-- APPLY_PREPARED, R312 -/
  | applyPrepared
  /-- EPOCH_FLIP, R312 -/
  | epochFlip
  /-- SECTOR_HANDOVER, R314 -/
  | sectorHandover (block : BitVec 45)
  /-- WINDOW_CLOSE, R312 -/
  | windowClose
  /-- CMPO_DISCARD, R306 -/
  | cmpoDiscard (tag : BitVec 16)
  /-- HANDOFF_TIMER_EXPIRY, R322 -/
  | handoffTimerExpiry (index : BitVec 10)
  /-- TC_ACTIVATE, R326 -/
  | tcActivate (tag : BitVec 16)
  /-- TC_RETIRE, R334 -/
  | tcRetire (tag : BitVec 16)
  /-- TEARDOWN_SCRUB_START, R334 -/
  | teardownScrubStart (tc : BitVec 10)
  /-- TEARDOWN_COMPLETE, R334 -/
  | teardownComplete (tc : BitVec 10)
  /-- TENANT_FREE, R338 -/
  | tenantFree (tc : BitVec 10)
  /-- TC_SETKEY, R346 -/
  | tcSetkey (tag : BitVec 16)
  /-- SEC_PKEY_DATA_WRITE, R346 -/
  | secPkeyDataWrite (tag : BitVec 16) (value : BitVec 64)
  /-- INST_REQ, R340 -/
  | instReq (tag : BitVec 16)
  /-- INST_END, R340 -/
  | instEnd (tag : BitVec 16)
  /-- INSTALLER_WINDOW_EXPIRY, R340 -/
  | installerWindowExpiry
  /-- PRES_BTN_ASSERT, R340 -/
  | presBtnAssert (since : BitVec 64)
  /-- PRES_BTN_RELEASE, R340 -/
  | presBtnRelease (since : BitVec 64)
  /-- SEAL_LOOP_OPEN, R341 -/
  | sealLoopOpen (since : BitVec 64)
  /-- DEBUG_READ, R343 -/
  | debugRead (tag : BitVec 16)
  /-- DEBUG_READ_COMPLETE, R343 -/
  | debugReadComplete
  /-- FW_VERIFY, R345 -/
  | fwVerify (tag : BitVec 16)
  /-- FW_VERIFY_DONE, R345 -/
  | fwVerifyDone
  /-- FW_COMMIT, R345 -/
  | fwCommit (tag : BitVec 16)
  /-- FW_COMMIT_DONE, R345 -/
  | fwCommitDone (ok : Bool)
  /-- FW_RAISE_MIN, R345 -/
  | fwRaiseMin (tag : BitVec 16)
  /-- ATT_REPORT, R347 -/
  | attReport (tag : BitVec 16)
  /-- ATT_IDKEY, R347 -/
  | attIdkey (tag : BitVec 16)
  /-- THERMAL_SAMPLE, R361 -/
  | thermalSample (site : BitVec 6) (temp : BitVec 8) (vdd : BitVec 16)
  /-- THERMAL_ESCALATE, R361 -/
  | thermalEscalate (site : BitVec 6)
  /-- THERMAL_LEVEL_DECAY, R361 -/
  | thermalLevelDecay (site : BitVec 6)
  /-- AUDIT_SAMPLE, R368 -/
  | auditSample (disagree : List (BitVec 4 × BitVec 24))
  /-- LOG_UNFENCE, R369 -/
  | logUnfence (tag : BitVec 16)
  /-- LOG_CLEAR, R364 -/
  | logClear (tag : BitVec 16)
  /-- RECOVERY_STEP_DONE, R371 -/
  | recoveryStepDone
  /-- MOD_SERVICE, R378 -/
  | modService (tag : BitVec 16)
  /-- MOD_DRAIN, R382 -/
  | modDrain (tag : BitVec 16)
  /-- DRAIN_STEP_COMPLETE, R382 -/
  | drainStepComplete
  /-- MOD_RECOVER, R373 -/
  | modRecover (tag : BitVec 16)
  /-- MOD_WARM, R380 -/
  | modWarm (tag : BitVec 16)
  /-- BOOT_STEP_COMPLETE, R375 -/
  | bootStepComplete (report : BootReport)
  /-- TEST_STEP_COMPLETE, R376 -/
  | testStepComplete (ok : Bool)
  /-- ATTN_BTN_PRESS, R417 -/
  | attnBtnPress (since : BitVec 64)
  /-- PRESENT_1_ASSERT, R384 -/
  | present1Assert
  /-- PRECHARGE_COMPLETE, R384 -/
  | prechargeComplete
  /-- PRESENT_2_STABLE, R384 -/
  | present2Stable
  /-- POWER_GOOD, R385 -/
  | powerGood
  /-- PRESENT_DEASSERT, R385 -/
  | presentDeassert (second : Bool)
  /-- INPUT_UNDERVOLTAGE, R385 -/
  | inputUndervoltage (since : BitVec 64)
  /-- INPUT_OVERCURRENT, R420 -/
  | inputOvercurrent
  /-- POWER_REMOVED, R373 -/
  | powerRemoved
  /-- ADK_RD, R394 -/
  | adkRd (tag : BitVec 16) (addr : BitVec 48) (len : BitVec 16)
  /-- LOGRD, R394 -/
  | logrd (tag : BitVec 16) (addr : BitVec 48) (len : BitVec 16)
  /-- ADK_FRAME_REJECT, R389 -/
  | adkFrameReject (btype : BitVec 8) (words : List (BitVec 64)) (low crc : BitVec 32)
  /-- ADK_LINKCTL, R391 -/
  | adkLinkctl (word : LinkCtl)
  /-- ADK_LINKCTL_TIMER, R391 -/
  | adkLinkctlTimer
  /-- ADK_REPLAY_TIMEOUT, R392 -/
  | adkReplayTimeout
  /-- ADK_TRAINING_COMPLETE, R392 -/
  | adkTrainingComplete
  /-- ADK_TRAINING_TIMEOUT, R392 -/
  | adkTrainingTimeout
  /-- EVENT_SEND, R402 -/
  | eventSend
  /-- SPARE_PROGRAM, R410 -/
  | spareProgram (tag : BitVec 16)
  /-- MAKER_MODE_WRITE, R410 -/
  | makerModeWrite (tag : BitVec 16) (value : BitVec 64)
  /-- POWER_CAP_CHECK, R409 -/
  | powerCapCheck (avgW : BitVec 16)
  /-- SENSOR_SAMPLE, R424 -/
  | sensorSample (reading : Reading)
  /-- COPYL_COMPLETE, R216 -/
  | copylComplete (core : BitVec 10) (tid : BitVec 6)
  /-- TRELLIS_EDGE_RETRAIN_DONE, R358 -/
  | trellisEdgeRetrainDone (edge : BitVec 8)
  /-- MAKER_JMP_CHANGE, R341 -/
  | makerJmpChange (fitted : Bool) (since : BitVec 64)
  /-- SEAL_LOOP_CLOSE, R341 -/
  | sealLoopClose (since : BitVec 64)
  /-- ADK_LINK_LOSS, R393 -/
  | adkLinkLoss
  deriving DecidableEq, Repr

end Sys2Proof
end

