-- ==== Sys2Proof/Config.lean ====
section
/-! DEFINITION. What the spec leaves open and the model leaves free: constants with no body, so that nothing can be proved
of their values. -/

namespace Sys2Proof

/-- The n-th free value of 64 bits (log 10). -/
opaque Config.freeWord : Nat → BitVec 64

/-- FP32 approximation error of EXP2, LOG2, RCP and RSQRT: operation, operand; the result lies the returned number of
units in the last place from the correctly rounded one, taken modulo 5 less 2 (R212, log 11). -/
opaque Config.ulpError : Nat → BitVec 32 → Nat

/-- FP32 result of EXP2, LOG2, RCP or RSQRT, by operation and operand, where the spec states none: a logarithm of 0, a
reciprocal of 0, a root of a negative number, and operands that are infinities or NaN (R212, log 11). -/
opaque Config.corner : Nat → BitVec 32 → BitVec 32

/-- Result of a scalar shift by 64 or more, by operation, value and amount (R216, log 24). -/
opaque Config.wideShift : Nat → BitVec 64 → BitVec 64 → BitVec 64

/-- E8M0 scale of an MX block whose largest magnitude is 0 or an infinity, by format and that magnitude's FP32 encoding, and
the elements of a block that holds a NaN, by format and index (R215, log 19). -/
opaque Config.mxScale : Nat → Nat → BitVec 8
opaque Config.nanElem : Nat → Nat → Nat

/-- ML-DSA-44 verification: public key, message, signature (R307, R345, log 12). -/
opaque Config.verifies : List Byte → List Byte → List Byte → Bool

/-- ML-DSA-44 signature by the identity key: 2,420 bytes in order, by message and position (R347, log 12). -/
opaque Config.signByte : List Byte → Nat → Byte

/-- A byte of the identity public key, and of the key that signs images and firmware (R307, R345, R347, log 12). -/
opaque Config.identityByte : Nat → Byte
opaque Config.makerByte : Nat → Byte

/-- A byte of the fused root key hash, against which a firmware package's public key is checked (R344, log 12). -/
opaque Config.rootHashByte : Nat → Byte

/-- Byte i of a line after XTS encryption and after XTS decryption: key slot, FPA of the line, the line (R328, log 12). -/
opaque Config.seal : Nat → Nat → List Byte → Nat → Byte
opaque Config.unseal : Nat → Nat → List Byte → Nat → Byte

/-- Byte i, from 0 to 15, of the AES-256 key stream of a 128-bit counter block under a lot key (R330, log 12). -/
opaque Config.lotStream : BitVec 4 → BitVec 128 → Nat → Byte

/-- Set of a T0 plot group in which the sector of a block may lie (R151, log 13). -/
opaque Config.setOf : Nat → Nat → Nat
/-- Set of a translation cache in which a leaf lies, from its tenant and TVA (R174): the spec gives no index function. -/
opaque Config.tlbSet : Nat → Nat → Nat
/-- TVA of a line of a COHERENT extent that the home has learnt from no request (R107): the FM maps it, and the spec does not say how
the home knows it (log 111). -/
opaque Config.cohTva : Nat → BitVec 56

/-- TOKENS of a rank behind a child module, by collective ID, generation and rank (R236, R248): the child sends the descriptor of its
first COLL.OPEN only, and the spec does not say how its parent knows the others (log 71). -/
opaque Config.tokensBehind : Nat → Nat → Nat → Nat

/-- Stack that holds a line, directory entry or tag line, within its memory hub (modulo 4), or an extent-table or tier-page-map
entry (modulo 32), by kind of codeword and index (R356, log 28). -/
opaque Config.stackOf : Nat → Nat → Nat

/-- Frames that a trellis router holds for one route plane and virtual channel, less one (R19, R20, log 16). -/
opaque Config.trellisSpare : Nat

/-- Unit ID that the module takes from a composition, and the tenants that its image allows the endpoint of a port, by digest of
the composition; no section of an image holds them (R68, R77, log 27). -/
opaque Config.moduleUnit : BitVec 256 → BitVec 16
opaque Config.endpointTenants : BitVec 256 → Nat → List (BitVec 10)

end Sys2Proof
end

