-- ==== Sys2Proof/Machine/State.lean ====
section
/-! DEFINITION. The state of the block as plain data: every register, queue, table and pin that the spec gives it, and
the state just after reset. Each field's docstring gives its name, width, rule and reset value. -/

namespace Sys2Proof.Machine

/-! ### Frames on their way out of the module -/

/-- A frame in an egress FIFO, with what its producer supplied (R194, R242, R279). -/
structure QFrame where
  /-- The frame; header and payload; R64; reset none -/
  frame : Frame := {}
  /-- FT of entry into the queue; 64 bits; R296; reset none -/
  since : FT := 0
  /-- Number of its entry into the queue; the model's own; R281; reset none -/
  order : Nat := 0
  /-- Element type supplied by the producing unit ; 4 bits; R186; reset none -/
  elem : Option (BitVec 4) := none
  /-- It answers a request with FLAGS.CMPR 1; 1 bit; R194; reset none -/
  cbfAsked : Bool := false
  /-- Chunk of a collective whose result it carries: collective ID, generation, contributor, chunk; R242; reset none -/
  chunk : Option (Nat × Nat × Nat × Nat) := none
  /-- Sent after its generation entered ABORTING, so exempt from gates; 1 bit; R281; reset none -/
  exempt : Bool := false
  /-- It completes a store-class request; 1 bit; R97; reset none -/
  stores : Bool := false
  deriving DecidableEq, Repr

/-! ### Steward heartbeat and the trellis (chapter 01) -/

/-- Heartbeats between the steward dies (R24). Times are sixteenths of a nanosecond of FT. -/
structure Heartbeat where
  /-- FT of SD1's last heartbeat sent; 64 bits; R24; reset 0 (DESIGN CHOICE, log 7) -/
  sentAt : FT := 0
  /-- FT stamp of a heartbeat on its way to SD0; 64 bits; R24; reset none (DESIGN CHOICE, log 7) -/
  inFlight : Option FT := none
  /-- SD0's reply on its way to SD1; 1 bit; R24; reset 0 (DESIGN CHOICE, log 7) -/
  replying : Bool := false
  /-- FT at which SD0 last received a heartbeat (start of its silence count); 64 bits; R24; reset 0 (DESIGN CHOICE, log 7) -/
  sd0Heard : FT := 0
  /-- FT at which SD1 last received a reply (start of its silence count); 64 bits; R24; reset 0 (DESIGN CHOICE, log 7) -/
  sd1Heard : FT := 0
  /-- SD0 itself has failed, so the ADK link is lost until power is removed; 1 bit; R381; reset 0 -/
  sd0Dead : Bool := false
  deriving DecidableEq, Repr

/-- One frame waiting in a trellis router (R19, R20). -/
structure Transit where
  /-- Site of the router that holds the frame; 6 bits; R19; reset none -/
  site : Nat
  /-- Destination port die's site; 6 bits; R19; reset none -/
  dest : Nat
  /-- Route plane: true for YX, false for XY; 1 bit; R19; reset none -/
  yx : Bool
  /-- Rim port at which the frame will be queued; 8 bits; R29; reset none -/
  port : Nat
  /-- Egress queue it is bound for, when a collective's gate fixes it (R249); 4 bits; R279; reset none -/
  queue : Option Nat := none
  /-- The frame and what its producer supplied; R64; reset none -/
  item : QFrame
  deriving DecidableEq, Repr

/-- A trellis edge that is retraining (R358). -/
structure EdgeTrain where
  /-- FT at which the retraining began; 64 bits; R358; reset none -/
  since : FT
  deriving DecidableEq, Repr

/-- The package: spare map, absent dies and the trellis (chapter 01). -/
structure Package where
  /-- Spare-map slots programmed in the SD0 fuse array, slot 0 first, each 32 entries of 6 bits and a CRC-16; 4 slots; R11, R12; reset slot 0 in ascending order with CD15 and CD26 spare (DESIGN CHOICE, log 6) -/
  spareSlots : List (List (BitVec 6) × BitVec 16) := []
  /-- Physical die of LC0 to LC31 in the map in use; 32 x 6 bits; R12; reset empty until boot selects a slot (DESIGN CHOICE, log 7) -/
  lcMap : List (BitVec 6) := []
  /-- LC dies marked absent; 32 bits; R15; reset 0 -/
  absent : BitVec 32 := 0
  /-- Frames waiting in trellis routers, oldest first; unbounded; R20; reset empty -/
  transit : List Transit := []
  /-- Edges retraining: key 2 x site for the edge to the next column, 2 x site + 1 for the edge to the next row; R358; reset none -/
  retraining : List (Nat × EdgeTrain) := []
  deriving DecidableEq, Repr

/-! ### Fabric time (chapter 02) -/

/-- FT states of Table 02-2. -/
inductive FtState where
  | unset | locked | holdover | lost
  deriving DecidableEq, Repr

/-- SD1's fabric time unit and its TIM_ registers (R35 to R49). -/
structure Tim where
  /-- TIM_FT; 64 bits (sixteenths of a nanosecond); R49; reset 0 -/
  ft : FT := 0
  /-- TIM_STATUS.STATE; 3 bits; R49; reset 0b000 -/
  state : FtState := .unset
  /-- TIM_STATUS.MARK_RUN; 8 bits; R49; reset 0 -/
  markRun : BitVec 8 := 0
  /-- TIM_STATUS.MISS_RUN; 8 bits; R49; reset 0 -/
  missRun : BitVec 8 := 0
  /-- TIM_STATUS.STEPPED; 1 bit; R49; reset 0 -/
  stepped : Bool := false
  /-- TIM_STATUS.CODE_ERR; 1 bit; R49; reset 0 -/
  codeErr : Bool := false
  /-- TIM_MARK_ERR; 64 bits; R49; reset 0 -/
  markErr : BitVec 64 := 0
  /-- Errors of the consecutive marks that now agree outside LOCKED, the oldest first, from which the third is judged; 64 bits
  each; R40; reset none -/
  errs : List Int := []
  /-- FT at which the stay in HOLDOVER or LOST began, from which TIM_HOLD.HOLD_MS is read; 64 bits; R49; reset 0 -/
  holdFrom : FT := 0
  /-- TIM_CTRL.STEPBACK_MAX_US; 8 bits; R49; reset 0x10 -/
  stepbackUs : BitVec 8 := 0x10
  /-- TIM_CTRL.HOLD_MAX_S; 8 bits; R49; reset 0x3C -/
  holdMaxS : BitVec 8 := 0x3C
  /-- TIM_CTRL.MARK_WIN; 4 bits; R49; reset 0x1 -/
  markWin : BitVec 4 := 0x1
  /-- TIM_STEP_AMT; 64 bits; R49; reset 0 -/
  stepAmt : BitVec 64 := 0
  /-- TIM_STEP_AT; 64 bits; R49; reset 0 -/
  stepAt : BitVec 64 := 0
  /-- TIM_LATE_FIRED; 32 bits; R49; reset 0 -/
  lateFired : BitVec 32 := 0
  /-- MARK_FT of the valid RT_CODE frame whose window is open, and the FT of its last bit; 2 x 64 bits; R39; reset none -/
  window : Option (FT × FT) := none
  /-- FT of the last RT_CODE frame received; 64 bits; R39; reset 0 (DESIGN CHOICE, log 7) -/
  lastFrame : FT := 0
  /-- Missing marks counted for the present absence of frames; R39; reset 0 (DESIGN CHOICE, log 7) -/
  absentRun : Nat := 0
  /-- Rate-word correction that is being spread over the millisecond, in sixteenths; R41; reset 0 (DESIGN CHOICE, log 7) -/
  slew : Int := 0
  /-- Slots of 4 ns of the present millisecond in which the correction has been spread; R41; reset 0 -/
  slewSlot : Nat := 0
  /-- Rack time still to pass in a stall, in sixteenths, plus 1; 0 when no stall; R44; reset 0 -/
  stall : Nat := 0
  /-- FT at which the counters stand in a stall; 64 bits; R44; reset 0 (DESIGN CHOICE, log 7) -/
  stallAt : FT := 0
  /-- Error that a stall removes, in sixteenths; R44; reset 0 (DESIGN CHOICE, log 7) -/
  stallAmt : Nat := 0
  /-- Corrections of FT made, so that a sampler knows whether one has fallen since its last sample; R296; reset 0 -/
  corrections : Nat := 0
  /-- Die-local FT less SD1's FT, by site, in sixteenths; R36; reset 0 (DESIGN CHOICE, log 2) -/
  dieOff : Table (BitVec 8) := []
  /-- Value that the local counter of a die has reached, below which it does not fall, by site; 64 bits; R37; reset 0 -/
  dieFloor : Table FT := []
  /-- Rate word held by a die, by site: the correction of the present millisecond, in sixteenths; R36; reset 0 (DESIGN CHOICE,
  log 2) -/
  dieRate : Table Int := []
  /-- A periodic class whose event was due in the slot in which its register was written, by class code; R48; reset 0 -/
  owed : Table Bool := []
  /-- FT of the last distribution; 64 bits; R36; reset 0 (DESIGN CHOICE, log 7) -/
  distAt : FT := 0
  /-- FT of the last scrub window fired; 64 bits; R47; reset 0 (DESIGN CHOICE, log 3) -/
  lastScrub : FT := 0
  /-- FT of the last heat decay fired; 64 bits; R47; reset 0 (DESIGN CHOICE, log 3) -/
  lastHeat : FT := 0
  /-- FT of the last self-test slot fired; 64 bits; R47; reset 0 (DESIGN CHOICE, log 3) -/
  lastSelf : FT := 0
  /-- FT of the last margin scan fired; 64 bits; R47; reset 0 (DESIGN CHOICE, log 3) -/
  lastMargin : FT := 0
  deriving DecidableEq, Repr

/-! ### Rim ports: link layer and peers (chapter 03) -/

/-- Port link states of Table 03-12. -/
inductive LinkState where
  | down | training | init | hello | opened | fenced
  deriving DecidableEq, Repr

/-- The link and protocol part of one port or bundle (R50 to R91). -/
structure Link where
  /-- PRT_CFG.CLASS; 2 bits; R91; reset 0b11 -/
  cls : BitVec 2 := 0b11
  /-- Port number less PRT_CFG.BUNDLE_BASE; 3 bits; R91; reset 0 (BUNDLE_BASE reads the own port number) -/
  bundleOff : BitVec 3 := 0
  /-- PRT_CFG.BUNDLE_SIZE; 2 bits; R91; reset 0b00 -/
  bundleSize : BitVec 2 := 0
  /-- PRT_CFG.HELLO_US; 16 bits; R91; reset 0x0064 -/
  helloUs : BitVec 16 := 0x0064
  /-- PRT_CFG.HOP_MAX; 4 bits; R91; reset 0x4 -/
  hopMax : BitVec 4 := 0x4
  /-- PRT_LINK.STATE; 3 bits; R91; reset 0b000 -/
  state : LinkState := .down
  /-- PRT_LINK.DOWN_CAUSE; 8 bits; R91; reset 0x00 -/
  downCause : BitVec 8 := 0
  /-- PRT_LINK.RETRAINS; 32 bits; R91; reset 0 -/
  retrains : BitVec 32 := 0
  /-- PRT_LINK.MEMBERS_UP; 8 bits; R91; reset 0x00 -/
  membersUp : BitVec 8 := 0
  /-- PRT_PEER_ID; 64 bits; R91; reset 0 -/
  peerId : BitVec 64 := 0
  /-- A PEER_ID has been recorded since power-up; 1 bit; R83; reset 0 -/
  peerKnown : Bool := false
  /-- PEER_ID of the most recent HELLO; 64 bits; R83; reset 0 (DESIGN CHOICE, log 7) -/
  lastId : BitVec 64 := 0
  /-- PRT_PEER.PEER_CHG; 1 bit; R91; reset 0 -/
  peerChg : Bool := false
  /-- PRT_PEER.PEER_CLASS; 2 bits; R91; reset 0b00 -/
  peerClass : BitVec 2 := 0
  /-- PRT_PEER.PEER_MEMBER; 8 bits; R91; reset 0x00 -/
  peerMember : BitVec 8 := 0
  /-- PRT_PEER.PEER_UNIT; 16 bits; R91; reset 0x0000 -/
  peerUnit : BitVec 16 := 0
  /-- PRT_PEER_CRED0 and PRT_PEER_CRED1, by VC; 8 x 16 bits; R91; reset 0 -/
  peerCred : Table (BitVec 16) := []
  /-- The peer's HELLO_US known in this pass through HELLO; 16 bits; R81; reset none -/
  peerHelloUs : Option (BitVec 16) := none
  /-- A HELLO has been sent in this pass; 1 bit; R81; reset 0 -/
  helloSent : Bool := false
  /-- FT of the last HELLO sent; 64 bits; R81; reset 0 (DESIGN CHOICE, log 7) -/
  helloTxAt : FT := 0
  /-- FT from which HELLO silence counts; 64 bits; R81; reset 0 (DESIGN CHOICE, log 7) -/
  helloRxAt : FT := 0
  /-- Signal present on the lanes; 1 bit; R79; reset 0 (DESIGN CHOICE, log 7) -/
  signal : Bool := false
  /-- FT at which the training attempt began; 64 bits; R56; reset 0 (DESIGN CHOICE, log 7) -/
  trainAt : FT := 0
  /-- FT at which the port last left OPEN; 64 bits; R85; reset 0 (DESIGN CHOICE, log 7) -/
  outAt : FT := 0
  /-- The target behind the port is dead under R85; 1 bit; R85; reset 0 -/
  dead : Bool := false
  /-- LSEQ of the next frame to send; 12 bits; R55; reset 0 -/
  txSeq : BitVec 12 := 0
  /-- Replay buffer, oldest first; at most 2,047 frames and 256 KiB; R55; reset empty -/
  replay : List (BitVec 12 × Frame) := []
  /-- FT of the last advance of ACK_SEQ, or of the first unacknowledged frame; 64 bits; R56; reset 0 (DESIGN CHOICE, log 7) -/
  ackAt : FT := 0
  /-- Consecutive replays without an advance; R56; reset 0 -/
  replays : Nat := 0
  /-- LSEQ next expected from the peer; 12 bits; R55; reset 0 -/
  rxSeq : BitVec 12 := 0
  /-- A frame has been received in order since power-up (ACK_V); 1 bit; R57; reset 0 -/
  rxAny : Bool := false
  /-- A NAK has been sent and frames are discarded until rxSeq arrives; 1 bit; R55; reset 0 -/
  nakSent : Bool := false
  /-- FT of the oldest accepted frame not yet acknowledged by an LCW; 64 bits; R55; reset none -/
  owedAck : Option FT := none
  /-- Credits spent towards the peer since INIT, by VC; 16 bits each; R61; reset 0 -/
  credSpent : Table (BitVec 16) := []
  /-- Last cumulative credits freed by the peer, by VC; 16 bits each; R54; reset 0 -/
  credBack : Table (BitVec 16) := []
  /-- Cumulative credits freed to the peer since INIT, by VC; 16 bits each; R54; reset 0 -/
  credFreed : Table (BitVec 16) := []
  /-- Credits the peer has used since INIT, by VC; 16 bits each; R61; reset 0 -/
  credUsed : Table (BitVec 16) := []
  /-- Last link control word sent; 256 bits; R54; reset all zero (DESIGN CHOICE, log 7) -/
  lcwOut : Lcw := {}
  /-- Tenants that the endpoint may name: one alone is written by the port, of several the field must be one; up to 16 x 10 bits; R68; reset empty (DESIGN CHOICE, log 27) -/
  tenantSet : List (BitVec 10) := []
  /-- Millisecond of FT of the last HCRC log entry; R69; reset none -/
  hcrcMs : Option Nat := none
  /-- SENT_FT of the first HELLO sent, and of the first received, since INIT; 64 bits each; R330; reset none -/
  nonceTx : Option FT := none
  nonceRx : Option FT := none
  /-- Frames sent, and frames received, on VC0 to VC5 and VC7 since INIT; R330; reset 0 -/
  sentNum : Nat := 0
  gotNum : Nat := 0
  /-- FT of the last consumer failures of frames of an S port, newest first; at most 4; R359; reset none -/
  lotFails : List FT := []
  /-- State of the port's own lanes as a member of a bundle; R53; reset DOWN -/
  solo : LinkState := .down
  /-- A HELLO has been sent on those lanes while the member retrains alone; 1 bit; R81; reset 0 -/
  soloSent : Bool := false
  /-- FT of that HELLO, and FT from which HELLO silence on the lanes counts; 64 bits each; R81; reset 0 (DESIGN CHOICE, log 7) -/
  soloTxAt : FT := 0
  soloRxAt : FT := 0
  /-- HELLO frames waiting to leave on those lanes; R81; reset empty -/
  soloOut : List Frame := []
  /-- Credits that the frames to be replayed after INIT cost, by VC; 16 bits each; R57; reset 0 -/
  preSpent : Table (BitVec 16) := []
  /-- The link has been trained, so that its next training is a retrain; 1 bit; R91; reset 0 -/
  again : Bool := false
  /-- Tag last drawn from the port's own pool; 13 bits; R77; reset 0 (DESIGN CHOICE, log 7) -/
  nextTag : BitVec 13 := 0
  /-- PRT_CNT_CRC; 64 bits; R91; reset 0 -/
  cntCrc : BitVec 64 := 0
  /-- PRT_CNT_REPLAY; 64 bits; R91; reset 0 -/
  cntReplay : BitVec 64 := 0
  /-- PRT_CNT_DISCARD; 64 bits; R91; reset 0 -/
  cntDiscard : BitVec 64 := 0
  /-- PRT_CNT_LATE; 64 bits; R91; reset 0 -/
  cntLate : BitVec 64 := 0
  /-- PRT_CNT_TDEAD; 64 bits; R91; reset 0 -/
  cntTdead : BitVec 64 := 0
  /-- PRT_CNT_SAT.SAT; 5 bits; R91; reset 0 -/
  sat : BitVec 5 := 0
  deriving DecidableEq, Repr

/-! ### Where a pool completion of a thread goes (chapter 09) -/

/-- The destination of a pool request that a thread, or its GFE, has issued (R203 to R206, R213, R216, R220). -/
inductive ThreadSink where
  /-- PLDX: destination register, byte offset in the line, whether it may allocate (LD and not LD.PEEK), and the core's
  count of ACQUIREs at issue -/
  | reg (xd off : Nat) (alloc : Bool) (acq : Nat)
  /-- PSTX: line, byte offset and bytes, for the line that a hit updates -/
  | word (line off : Nat) (bytes : List Byte)
  /-- A part of a PLD: local destination, lines, and the address of its first tag byte under FN[7] -/
  | bulk (dst lines : Nat) (tags : Option Nat)
  /-- A part of a PST, or a posted atomic -/
  | posted
  /-- A fetching atomic of 4 or 8 bytes -/
  | atom (xd width : Nat)
  /-- A fetching 128-bit CAS: local address -/
  | atomWide (addr : Nat)
  /-- A part of a GFE GATHER row under POOL: local destination and bytes -/
  | gather (dst bytes : Nat)
  /-- A part of a GFE SCATTER row under POOL -/
  | scatter
  /-- ATN.DECODE: local address of the result -/
  | decode (addr : Nat)
  /-- COLL.OPEN: local address of the member area -/
  | opened (area : Nat)
  /-- COLL.CONTRIB or ABORT: complete once accepted -/
  | accepted
  deriving DecidableEq, Repr

/-! ### Requests, ordering and held work (chapters 03 and 04) -/

/-- Who issued a request, so where its completion goes (R92, R77). -/
inductive Origin where
  /-- A frame accepted on a rim port -/
  | port (p : Nat)
  /-- An instruction of a core thread; the destination of its data -/
  | thread (core tid : Nat) (sink : ThreadSink)
  /-- A page-table read of a walk -/
  | walk (id : Nat)
  /-- The AT.CAS on the leaf of a dropped page, for the store that restores it (R172) -/
  | leaf (n : Nat)
  /-- TRN_PTW_DATA, read or write, with its ADK tag -/
  | ptw (tag : BitVec 16) (write : Bool)
  /-- A SEC_DBG read with its ADK tag -/
  | debug (tag : BitVec 16)
  /-- A RES_POOL write of a collective, by a core of its cluster (R244) -/
  | coll (id core : Nat)
  /-- An access of a decode (R266): 0 an output write, 2 x line + 1 a KV load, 2 x line + 2 a query load, by TVA line; and the
  core that asked for the decode -/
  | attn (decode what : Nat) (core : Option Nat)
  deriving DecidableEq, Repr

/-- Where a request stands. -/
inductive Stage where
  /-- Waiting for a walk of its translation unit -/
  | walking (walk : Nat)
  /-- A store waiting in the home's staging buffer (R95) -/
  | staged
  /-- Accepted at the home, waiting for an earlier same-destination store (R95) -/
  | ordered
  /-- Waiting for a block fill (R151) -/
  | filling
  /-- A load waiting for the release of a store staged on one of its lines (R95) -/
  | behind
  /-- Waiting for a single line written at its slot (R152) -/
  | lineIo
  /-- A coherence request waiting for a directory entry (R118, R119) -/
  | room
  /-- Waiting for snoop answers, or behind a request that does (R115) -/
  | snooping
  /-- Waiting for a restore of its tier page (R172) -/
  | restoring
  /-- Forwarded to a rim port and waiting for the answer -/
  | remote (port : Nat)
  /-- Waiting at a new home for a block (R314) -/
  | pulling
  deriving DecidableEq, Repr

/-- The record an ingress module holds for a request until its first completion (R89). -/
structure Req where
  /-- Arrival number: the order in which ingress accepted the requests (R92) -/
  n : Nat
  /-- Issuer -/
  origin : Origin
  /-- Header and payload as rewritten at ingress (R68) -/
  frame : Frame
  /-- Where it stands -/
  stage : Stage
  /-- FPA after translation -/
  fpa : BitVec 56 := 0
  /-- Counted in flight at the home of this extent (R136) -/
  counted : Option Nat := none
  /-- Also counted at an old home (R136) -/
  fwd : Bool := false
  /-- FT of the timer of R88 at the module that leads to the target -/
  timer : FT := 0
  /-- FT of the ingress backstop of R88 -/
  backstop : FT := 0
  /-- Switch stages towards the destination -/
  stages : Nat := 0
  /-- Lines whose owner has answered the request's snoop, bit i for line i (R116, R117) -/
  answered : BitVec 64 := 0
  /-- Lines read at their slots for an access without allocation (R152) -/
  got : Table (List Byte) := []
  /-- Lines that owners returned with SNP.DATA (R116, R117) -/
  given : Table (List Byte) := []
  /-- Poison met while it was performed (R353) -/
  poison : Bool := false
  /-- FT of acceptance -/
  at_ : FT := 0
  /-- The store restores a dropped page: address of the leaf entry (R172) -/
  leaf : Option Nat := none
  /-- What the AT.CAS on that leaf has answered: its status and the entry that it found (R172) -/
  cas : Option (BitVec 6 × Nat) := none
  /-- ADDRESS as the request arrived (R87, R205) -/
  tva : BitVec 56 := 0
  /-- log2 of the page of the leaf that translated it; none for an FPA or before its translation (R175) -/
  page : Option Nat := none
  /-- Lines of a store performed so far, lowest first (R95) -/
  done : Nat := 0
  /-- First status other than OK that a slot gave to a line of a store (R93) -/
  ioSt : BitVec 6 := 0
  /-- What a fetching atomic returns once its line is written (R99) -/
  back : List Byte := []
  deriving DecidableEq, Repr

/-- A FENCE, or a thread's FENCE, waiting for the stores before it (R96, R219). -/
structure FenceRec where
  /-- Arrival number -/
  n : Nat
  /-- Issuer -/
  origin : Origin
  /-- The FENCE frame -/
  frame : Frame
  deriving DecidableEq, Repr

/-- An ATN.DECODE or COLL.OPEN held by the implicit fence (R100), or a COLL.OPEN held until ABORTED (R234). -/
structure HeldOpen where
  /-- Arrival number -/
  n : Nat
  /-- Issuer -/
  origin : Origin
  /-- The frame -/
  frame : Frame
  /-- Waits for ABORTED and not for stores -/
  forAbort : Bool := false
  deriving DecidableEq, Repr

/-- The requests of the module (R89, R92). -/
structure Traffic4 where
  /-- Arrival number of the next request -/
  nextN : Nat := 0
  /-- Request records, oldest first; R89; reset empty -/
  reqs : List Req := []
  /-- Fences in progress; R96; reset empty -/
  fences : List FenceRec := []
  /-- Held attention and collective requests; R100; reset empty -/
  held : List HeldOpen := []
  deriving DecidableEq, Repr

/-! ### Coherent domains (chapter 05) -/

/-- Domain states of Table 05-1. -/
inductive DomState where
  | off | up | flush | down
  deriving DecidableEq, Repr

/-- One coherent domain and its COH_ page (R107 to R126). -/
structure Domain where
  /-- COH_DOM_CFG.TENANT; 10 bits; R126; reset 0x000 -/
  tenant : BitVec 10 := 0
  /-- COH_DOM_CFG.FLUSH_MS; 8 bits; R126; reset 0x05 -/
  flushMs : BitVec 8 := 0x05
  /-- COH_DOM_CFG.CINCH; 7 bits; R126; reset 0x04 -/
  cinch : BitVec 7 := 0x04
  /-- COH_DOM_CFG.E_GRANT; 1 bit; R126; reset 1 -/
  eGrant : Bool := true
  /-- COH_DOM_CFG.ENABLE; 1 bit; R126; reset 0 -/
  enable : Bool := false
  /-- COH_DOM_STATE.GEN; 8 bits; R126; reset 0x00 -/
  gen : BitVec 8 := 0
  /-- COH_DOM_STATE.DEAD_AGENT; 8 bits; R126; reset 0x00 -/
  deadAgent : BitVec 8 := 0
  /-- COH_DOM_STATE.CAUSE; 4 bits; R126; reset 0x0 -/
  cause : BitVec 4 := 0
  /-- COH_DOM_STATE.STATE; 3 bits; R126; reset 0b000 -/
  state : DomState := .off
  /-- COH_DOM_DOWN_FT; 64 bits; R126; reset 0 -/
  downFt : FT := 0
  /-- End of the flush window; 64 bits; R123; reset 0 -/
  windowEnd : FT := 0
  /-- Members to which the DOM.NOTE with PHASE 0x01 was sent, bit per agent; 256 bits; R123; reset 0 -/
  told : BitVec 256 := 0
  /-- COH_MEMBER entries assigned, by agent index; 256 x 16 bits; R126; reset unassigned (reads 0xFFFF) -/
  members : Table (BitVec 16) := []
  /-- COH_CNT_SNOOP; 64 bits; R126; reset 0 -/
  cntSnoop : BitVec 64 := 0
  /-- COH_CNT_CINCH; 64 bits; R126; reset 0 -/
  cntCinch : BitVec 64 := 0
  /-- COH_CNT_BINV; 64 bits; R126; reset 0 -/
  cntBinv : BitVec 64 := 0
  /-- COH_CNT_POISON; 64 bits; R126; reset 0 -/
  cntPoison : BitVec 64 := 0
  /-- COH_CNT_SAT.SAT; 4 bits; R126; reset 0 -/
  sat : BitVec 4 := 0
  deriving DecidableEq, Repr

/-- Directory state of a line (Table 05-3). -/
inductive DirState where
  | i | s | o
  deriving DecidableEq, Repr

/-- Directory entry of a line (Table 05-3); the TAG is the entry's key. -/
structure DirEntry where
  /-- DOM; 6 bits; R113; reset 0 -/
  dom : BitVec 6 := 0
  /-- STATE; 2 bits; R113; reset 0b00 (I) -/
  state : DirState := .i
  /-- MODE; 1 bit; R113; reset 0 -/
  coarse : Bool := false
  /-- COUNT; 3 bits; R113; reset 0 -/
  count : BitVec 3 := 0
  /-- SHARERS; 32 bits; R113; reset 0 -/
  sharers : BitVec 32 := 0
  /-- GRANT_T; 33 bits; R113; reset 0 -/
  grantT : BitVec 33 := 0
  /-- TVA of the coherent mapping, with which snoops of the line are sent; none where the request that took the entry named an FPA
  (log 111); 56 bits; R107; reset none -/
  tva : Option (BitVec 56) := none
  /-- COH_DOM_CFG.CINCH at the last grant; 7 bits; R120; reset 0 (DESIGN CHOICE, log 7) -/
  cinch : BitVec 7 := 0
  /-- Agents removed from a coarse entry under R122, bit per agent; Table 05-3 has no field for them (log 119); 256 bits; reset 0 -/
  without : BitVec 256 := 0
  deriving DecidableEq, Repr

/-- Why a snoop is sent. -/
inductive SnoopFor where
  | req (n : Nat)
  | victim (n : Nat)
  | revoke (ext : Nat)
  /-- A page-table entry in the line is about to be written (R105, R172, R173) -/
  | entry
  | cancelled
  deriving DecidableEq, Repr

/-- A snoop waiting to be sent or answered (R115 to R121). -/
structure Snoop where
  /-- Line number (FPA[55:6]); R115; reset none -/
  line : Nat
  /-- Domain; R115; reset none -/
  dom : Nat
  /-- Agent index; R115; reset none -/
  agent : Nat
  /-- Opcode sent: SNP.INV, SNP.SHR or SNP.BINV; R116; reset none -/
  op : BitVec 8
  /-- What waits for the answer; R115; reset none -/
  why : SnoopFor
  /-- TAG of the snoop; R111; reset none -/
  tag : BitVec 13
  /-- FT until which the cinch holds it; none once sent; R120; reset none -/
  heldTo : Option FT
  /-- FT of the snoop timer; R121; reset none -/
  timer : FT
  deriving DecidableEq, Repr

/-- The directory and the snoops of the module's home slices. -/
structure Coherence where
  /-- Domains DOM0 to DOM63; R107; reset every page as Tables 05-10 to 05-13 -/
  doms : Table Domain := []
  /-- Directory entries by line; 128 bits each; R113; reset every entry I -/
  dir : Table DirEntry := []
  /-- Snoops held or outstanding, oldest first; R115; reset empty -/
  snoops : List Snoop := []
  /-- Tag of the next snoop; 13 bits; R111; reset 0 (DESIGN CHOICE, log 7) -/
  nextTag : BitVec 13 := 0
  deriving DecidableEq, Repr

/-! ### Extents, leases and admission (chapter 06) -/

/-- Extent states of Table 06-5. -/
inductive ExtState where
  | absent | free | active | revoking | drained | scrubbing
  deriving DecidableEq, Repr

/-- One extent-table entry (Table 06-2) and what the homes keep for the extent. -/
structure Extent where
  /-- TENANT; 10 bits; R130; reset 0 -/
  tenant : BitVec 10 := 0
  /-- PV; 6 bits; R130; reset 0 -/
  pv : BitVec 6 := 0
  /-- DOM; 6 bits; R130; reset 0 -/
  dom : BitVec 6 := 0
  /-- ATTR (1 COHERENT); 1 bit; R130; reset 0 -/
  coherent : Bool := false
  /-- SHARE; 2 bits; R130; reset 0 -/
  share : BitVec 2 := 0
  /-- KV; 1 bit; R130; reset 0 -/
  kv : Bool := false
  /-- KV_T2; 1 bit; R130; reset 0 -/
  kvT2 : Bool := false
  /-- WRITTEN; 1 bit; R130; reset 0 -/
  written : Bool := false
  /-- LAST_VALID; 1 bit; R130; reset 0 -/
  lastValid : Bool := false
  /-- LAST_TENANT; 10 bits; R130; reset 0 -/
  lastTenant : BitVec 10 := 0
  /-- ADM; 10 bits; R130; reset 0 -/
  adm : BitVec 10 := 0
  /-- STATE; 3 bits; R130; reset 0b000 -/
  state : ExtState := .absent
  /-- OWNER; 16 bits; R130; reset 0xFFFF -/
  owner : BitVec 16 := 0xFFFF
  /-- CHANGE_NS; 48 bits; R130; reset 0 -/
  changeNs : BitVec 48 := 0
  /-- First trigger of the revocation in progress (Table 06-6); 4 bits; R135; reset 0 -/
  trigger : BitVec 4 := 0
  /-- FT of the drain limit; 64 bits; R139; reset 0 -/
  drainAt : FT := 0
  /-- A lease expiry of the OWNER arrived before DRAINED; 1 bit; R139; reset 0 -/
  reclaim : Bool := false
  /-- Tier pages still to be overwritten by the scrub; R337; reset empty -/
  scrubLeft : List Nat := []
  /-- FT by which every copy of the entry shows REVOKING or SCRUBBING; 64 bits; R137, R148; reset 0 -/
  shownAt : FT := 0
  deriving DecidableEq, Repr

/-- The extent table and the EXT_CMD registers (R130, R148). -/
structure Extents where
  /-- Extent-table entries by index; 2,097,152 x 128 bits; R130; reset every entry ABSENT -/
  tab : Table Extent := []
  /-- Number of backed extents (indices below it have left ABSENT); R154; reset 0 -/
  backed : Nat := 0
  /-- EXT_CMD_ARG.OWNER; 16 bits; R148; reset 0xFFFF -/
  argOwner : BitVec 16 := 0xFFFF
  /-- EXT_CMD_ARG.TENANT; 10 bits; R148; reset 0x000 -/
  argTenant : BitVec 10 := 0
  /-- EXT_CMD_ARG.PV; 6 bits; R148; reset 0x00 -/
  argPv : BitVec 6 := 0
  /-- EXT_CMD_ARG.DOM; 6 bits; R148; reset 0x00 -/
  argDom : BitVec 6 := 0
  /-- EXT_CMD_ARG.ATTR; 1 bit; R148; reset 0 -/
  argAttr : Bool := false
  /-- EXT_CMD_ARG.SHARE; 2 bits; R148; reset 0b00 -/
  argShare : BitVec 2 := 0
  /-- EXT_CMD_ARG.KV; 1 bit; R148; reset 0 -/
  argKv : Bool := false
  /-- EXT_CMD_ARG.KV_T2; 1 bit; R148; reset 0 -/
  argKvT2 : Bool := false
  /-- EXT_CMD_ARG.TIER; 1 bit; R148; reset 0 -/
  argTier : Bool := false
  /-- EXT_CMD_ARG.ADM; 10 bits; R148; reset 0x000 -/
  argAdm : BitVec 10 := 0
  /-- EXT_CMD_STATUS.CMD_SEQ; 32 bits; R148; reset 0 -/
  cmdSeq : BitVec 32 := 0
  /-- EXT_CMD_STATUS.RESULT; 6 bits; R148; reset 0x00 -/
  result : BitVec 6 := 0
  /-- EXT_CMD_STATUS.STATE; 3 bits; R148; reset 0b000 -/
  cmdState : ExtState := .absent
  /-- Extent of the last REVOKE or SCRUB, for EXT_CMD_STATUS.BUSY; 21 bits; R148; reset none -/
  cmdExt : Option (BitVec 21) := none
  /-- The ASSIGN whose write is outstanding waits for its make_room procedure; 1 bit; R148, R275; reset 0 -/
  waiting : Bool := false
  /-- EXT_SEL.INDEX; 21 bits; R148; reset 0 -/
  sel : BitVec 21 := 0
  /-- EXT_CNT_REVOKED; 64 bits; R148; reset 0 -/
  cntRevoked : BitVec 64 := 0
  /-- EXT_CNT_STRAG; 64 bits; R148; reset 0 -/
  cntStrag : BitVec 64 := 0
  /-- EXT_CNT_SAT.SAT; 2 bits; R148; reset 0 -/
  sat : BitVec 2 := 0
  deriving DecidableEq, Repr

/-- Lease states of Table 06-8. -/
inductive LeaseState where
  | empty | unarmed | armed | frozen | expired | handed
  deriving DecidableEq, Repr

/-- One lease-table entry (Table 06-20). -/
structure Lease where
  /-- LSE_ENTRY.UNIT; 16 bits; R148; reset 0xFFFF -/
  unit : BitVec 16 := 0xFFFF
  /-- LSE_ENTRY.PERIOD_MS; 16 bits; R148; reset 0x0000 -/
  periodMs : BitVec 16 := 0
  /-- LSE_ENTRY.STATE; 3 bits; R148; reset 0b000 -/
  state : LeaseState := .empty
  /-- LSE_ENTRY.RSEQ; 16 bits; R148; reset 0x0000 -/
  rseq : BitVec 16 := 0
  /-- LSE_EXPIRY; 64 bits; R148; reset 0 -/
  expiry : FT := 0
  /-- HANDOFF_UNIT of the HANDOFF command; 16 bits; R148; reset 0 -/
  handoff : BitVec 16 := 0
  deriving DecidableEq, Repr

/-- The lease table on SD1 and the LSE_ registers (R140 to R148). -/
structure Leases where
  /-- Lease entries; 4,096; R140; reset every entry EMPTY -/
  tab : Table Lease := []
  /-- LSE_BOUNDS.DEFAULT_MS; 16 bits; R148; reset 0x07D0 -/
  defaultMs : BitVec 16 := 0x07D0
  /-- LSE_BOUNDS.PERIOD_MAX_MS; 16 bits; R148; reset 0xEA60 -/
  maxMs : BitVec 16 := 0xEA60
  /-- LSE_BOUNDS.PERIOD_MIN_MS; 16 bits; R148; reset 0x000A -/
  minMs : BitVec 16 := 0x000A
  /-- LSE_SEL.INDEX; 12 bits; R148; reset 0x000 -/
  sel : BitVec 12 := 0
  /-- LSE_CNT_RENEW; 64 bits; R148; reset 0 -/
  cntRenew : BitVec 64 := 0
  /-- LSE_CNT_EXPIRE; 64 bits; R148; reset 0 -/
  cntExpire : BitVec 64 := 0
  /-- LSE_CNT_REJECT; 64 bits; R148; reset 0 -/
  cntReject : BitVec 64 := 0
  /-- LSE_CNT_SAT.SAT; 3 bits; R148; reset 0 -/
  sat : BitVec 3 := 0
  deriving DecidableEq, Repr

/-- Amounts of the seven resources of Table 06-11. -/
structure Amounts where
  /-- T0 plots; 14 bits; R145; reset 0 -/
  plots : Nat := 0
  /-- T1 capacity in extents; 17 bits; R145; reset 0 -/
  t1 : Nat := 0
  /-- T2 capacity in extents; 21 bits; R145; reset 0 -/
  t2 : Nat := 0
  /-- Cores; 11 bits; R145; reset 0 -/
  cores : Nat := 0
  /-- Collective slots; 13 bits; R145; reset 0 -/
  coll : Nat := 0
  /-- Sequence handles; 19 bits; R145; reset 0 -/
  seq : Nat := 0
  /-- Port bandwidth in 1/64; 7 bits; R145; reset 0 -/
  bw : Nat := 0
  deriving DecidableEq, Repr

/-- One admission record of the gatehouse (R145). -/
structure AdmRecord where
  /-- EXT_ADM_ID.PARENT_V; 1 bit; R148; reset 0 -/
  parentV : Bool := false
  /-- EXT_ADM_ID.PARENT; 10 bits; R148; reset 0x000 -/
  parent : BitVec 10 := 0
  /-- EXT_ADM_ID.PV; 6 bits; R148; reset 0x00 -/
  pv : BitVec 6 := 0
  /-- EXT_ADM_ID.TENANT; 10 bits; R148; reset 0x000 -/
  tenant : BitVec 10 := 0
  /-- EXT_ADM_REQ_MEM and EXT_ADM_REQ_CMP; 7 fields; R148; reset 0 -/
  req : Amounts := {}
  /-- Reservation held; 7 fields; R145; reset 0 -/
  resv : Amounts := {}
  /-- EXT_ADM_STATUS.ADMITTED; 1 bit; R148; reset 0 -/
  admitted : Bool := false
  deriving DecidableEq, Repr

/-- The gatehouse (R145 to R148). -/
structure Gatehouse where
  /-- Admission records; 1,024; R145; reset every record empty -/
  recs : Table AdmRecord := []
  /-- EXT_ADM_SEL.RECORD; 10 bits; R148; reset 0x000 -/
  sel : BitVec 10 := 0
  /-- EXT_ADM_STATUS.RESULT; 6 bits; R148; reset 0x00 -/
  result : BitVec 6 := 0
  /-- EXT_ADM_STATUS.FAIL; 4 bits; R148; reset 0x0 -/
  fail : BitVec 4 := 0
  deriving DecidableEq, Repr

/-! ### T0, trays, migration and translation (chapter 07) -/

/-- A T0 sector: one aligned 2 KiB block held at its home (R151, R178). -/
structure Sector where
  /-- Valid bit per line; 32 bits; R151; reset 0 -/
  valid : BitVec 32 := 0
  /-- Dirty bit per line; 32 bits; R151; reset 0 -/
  dirty : BitVec 32 := 0
  /-- Tag byte of its place; 8 bits; R178; reset 0x10 (raw) (DESIGN CHOICE, log 7) -/
  tag : BitVec 8 := 0x10
  /-- Compression bit in the ECC metadata of its stored lines; 1 bit; R189; reset 0 -/
  comp : Bool := false
  /-- Way of its set, which with the set names its location: plot of the group and block position; 4 bits; R150, R179; reset 0 -/
  way : Nat := 0
  /-- Order of last use, for the least recently used choice; R151; reset 0 -/
  used : Nat := 0
  /-- Plot group that holds it: 0 common plots, PV + 1 the plots of that pavilion; R150; reset 0 -/
  group : Nat := 0
  /-- Home slice that holds it; 7 bits; R150; reset 0 -/
  slice : Nat := 0
  deriving DecidableEq, Repr

/-- Tray states of Table 07-4. -/
inductive TrayState where
  | absent | online | unreachable | retired
  deriving DecidableEq, Repr

/-- One tray: on T port p for key p, on bridge port b for key 0x100 + b (R153 to R158). -/
structure Tray where
  /-- TRN_TRAY_INFO.STATE; 2 bits; R177; reset 0b00 -/
  state : TrayState := .absent
  /-- TRN_TRAY_INFO.TIER; 2 bits; R177; reset 0b00 -/
  tier : BitVec 2 := 0
  /-- TRN_TRAY_INFO.SLOTS; 30 bits; R177; reset 0 -/
  slots : Nat := 0
  /-- Slots never yet allocated begin here; R160; reset 0 -/
  next : Nat := 0
  /-- Slots released and overwritten, free again; R160; reset empty -/
  freed : List Nat := []
  /-- PEER_ID of the CX1 tray or serial number of the CXL device; 64 bits; R154, R157; reset 0 -/
  ident : BitVec 64 := 0
  /-- EVACUATE in progress; 1 bit; R158; reset 0 -/
  evacuating : Bool := false
  /-- CX1 discovery: the descriptor has been read and is valid; 1 bit; R154; reset 0 -/
  descOk : Bool := false
  /-- Capacity in slots read from the descriptor; R154; reset 0 -/
  descSlots : Nat := 0
  /-- Tier read from the descriptor; 2 bits; R154; reset 0b00 -/
  descTier : BitVec 2 := 0
  /-- A retired-bitmap write awaits a repeat: FT of the next one; R332; reset none -/
  retryAt : Option FT := none
  /-- CXL: bridge link active; 1 bit; R157; reset 0 -/
  linkUp : Bool := false
  deriving DecidableEq, Repr

/-- Tier-page map entry (Table 07-6). -/
structure TierPage where
  /-- SLOT; 30 bits; R159; reset 0 -/
  slot : BitVec 30 := 0
  /-- TRAY; 9 bits; R159; reset 0 -/
  tray : BitVec 9 := 0
  /-- HEAT; 8 bits; R159; reset 0 -/
  heat : BitVec 8 := 0
  /-- PIN; 2 bits; R159; reset 0b00 -/
  pin : BitVec 2 := 0
  /-- MOVING; 1 bit; R159; reset 0 -/
  moving : Bool := false
  /-- FRESH; 1 bit; R159; reset 0 -/
  fresh : Bool := false
  /-- RES; 2 bits; R159; reset 0b00 -/
  res : BitVec 2 := 0
  /-- Tier of the slot that a LOST page had; 2 bits; R158; reset 0b00 -/
  lostTier : BitVec 2 := 0
  /-- Reason of the hold last logged (R165); 4 bits; R165; reset 0 -/
  heldWhy : BitVec 4 := 0
  /-- SETPIN waiting for the end of a move; 2 bits; R164; reset none -/
  pinNext : Option (BitVec 2) := none
  deriving DecidableEq, Repr

/-- A tier-page move in progress or queued (R166). -/
structure Move where
  /-- Tier page (FPA[50:21]); 30 bits; R166; reset none -/
  page : Nat
  /-- Tier wanted: 1 T1, 2 T2; 2 bits; R163; reset none -/
  want : BitVec 2
  /-- Directed (R158, R164) and not heat-driven; 1 bit; R163; reset none -/
  directed : Bool
  /-- Demotion of make_room (R275): dropped instead when it aborts; tenant and TVA of its 2 MiB chunk; R275; reset none -/
  forRoom : Option (BitVec 10 × Nat) := none
  /-- Starts only after the move of this page; R163; reset none -/
  after : Option Nat := none
  /-- Started: destination tray and slot; R166; reset none -/
  dst : Option (Nat × Nat) := none
  /-- Blocks copied so far; 11 bits; R166; reset 0 -/
  copied : Nat := 0
  /-- A line of the block being copied has been written to both slots, so that it is copied again (R152); 1 bit; R166; reset 0 -/
  again : Bool := false
  deriving DecidableEq, Repr

/-- What a request that the CX64 itself sends to a tray is for (R155, R157, R160). -/
inductive TrayOp where
  /-- Fill of a block from its slot -/
  | fill (block : Nat)
  /-- One line read for an access without allocation by request n -/
  | readLine (n : Nat) (line : Nat)
  /-- Write-back of lines of a block, one bit a line -/
  | writeBack (block : Nat) (lines : BitVec 32)
  /-- One line written for an access without allocation by request n -/
  | writeLine (n : Nat) (line : Nat)
  /-- Descriptor read -/
  | descriptor
  /-- Retired-bitmap write, unit i of 16 -/
  | bitmap (i : Nat)
  /-- Zeroes over block i of the slot of a FRESH page before its first write-back -/
  | zero (page : Nat) (slot : Nat) (i : Nat)
  /-- Poisoned lines over block i of a released slot -/
  | wipe (slot : Nat) (i : Nat)
  /-- Scrub overwrite of block i of a page of an extent -/
  | scrub (page : Nat) (i : Nat)
  /-- Copy read of block i of a moving page -/
  | copyRead (page : Nat) (i : Nat)
  /-- Copy write of block i of a moving page -/
  | copyWrite (page : Nat) (i : Nat)
  /-- A read whose line has been written since: its answer is of no use (R94) -/
  | stale
  deriving DecidableEq, Repr

/-- A request outstanding on a T port or bridge port (R77, R78, R157). -/
structure TrayReq where
  /-- Tray, as Table 07-6; 9 bits; R155; reset none -/
  tray : Nat
  /-- TAG drawn from the port's pool; 13 bits; R77; reset none -/
  tag : BitVec 13
  /-- Purpose -/
  op : TrayOp
  /-- FT of its timer (R88), or of CTO_MS on a bridge port (R157) -/
  timer : FT
  /-- The frame still to be sent: it waits for a free tag (R77, R78); none once sent -/
  held : Option Frame := none
  /-- On a bridge port: device address, lines, and whether they are MemWr with data and poison, one bit a line (R156, R157) -/
  addr : Nat := 0
  lines : Nat := 0
  write : Bool := false
  data : List Byte := []
  poison : BitVec 32 := 0
  deriving DecidableEq, Repr

/-- Whether a pavilion is warm (R162). -/
structure Warmth where
  /-- FT of power-up or of the pavilion's creation; 64 bits; R162; reset 0 -/
  since : FT := 0
  /-- Requests performed at homes for its extents; 32 bits; R162; reset 0 -/
  count : Nat := 0
  /-- Warm; 1 bit; R162; reset 0 -/
  warm : Bool := false
  deriving DecidableEq, Repr

/-- T0, the trays, the tier-page map and the migration engine (R149 to R167). -/
structure Tiers where
  /-- Plain bytes of the lines valid in T0, by FPA; R94, R151; reset nothing listed (a byte reads 0) -/
  mem : Memory := []
  /-- Lines poisoned in T0, by line number; R353; reset none -/
  poison : Table Bool := []
  /-- T0 sectors by block number (FPA[55:11]); R151; reset none valid -/
  sectors : Table Sector := []
  /-- Use order of the next sector access; R151; reset 0 -/
  clock : Nat := 0
  /-- Trays; 272; R153; reset every tray ABSENT -/
  trays : Table Tray := []
  /-- Tier-page map by TPAGE_ID; 64 bits each; R159; reset every entry zero (RES NONE) -/
  pages : Table TierPage := []
  /-- Moves queued and in progress, in order; R163, R166; reset empty -/
  moves : List Move := []
  /-- Requests outstanding on trays; R78; reset empty -/
  reqs : List TrayReq := []
  /-- Released slots being overwritten, as tray x 2^30 + slot, with the tenant of the extent that had them; R155, R160; reset empty -/
  wiping : List (Nat × BitVec 10) := []
  /-- FRESH pages being zeroed before a first write-back; R160; reset empty -/
  zeroing : List Nat := []
  /-- Pavilion warmth; 64; R162; reset cold -/
  warm : Table Warmth := []
  /-- TRN_MIG_CFG.DECAY_MS; 16 bits; R177; reset 0x0064 -/
  decayMs : BitVec 16 := 0x0064
  /-- TRN_MIG_CFG.PROMOTE_TH; 8 bits; R177; reset 0x20 -/
  promoteTh : BitVec 8 := 0x20
  /-- TRN_MIG_CFG.DEMOTE_TH; 8 bits; R177; reset 0x02 -/
  demoteTh : BitVec 8 := 0x02
  /-- TRN_MIG_CFG.MAX_MOVES; 16 bits; R177; reset 0x0040 -/
  maxMoves : BitVec 16 := 0x0040
  /-- TRN_MIG_CFG.T1_LOW_PCT; 8 bits; R177; reset 0x05 -/
  t1LowPct : BitVec 8 := 0x05
  /-- TRN_MIG_CFG.ENABLE; 1 bit; R177; reset 1 -/
  migOn : Bool := true
  /-- TRN_MIG_WARM.WARM_MS; 16 bits; R177; reset 0x00FA -/
  warmMs : BitVec 16 := 0x00FA
  /-- TRN_MIG_WARM.WARM_LOG2; 5 bits; R177; reset 0x14 -/
  warmLog2 : BitVec 5 := 0x14
  /-- TRN_TP_SEL.TPAGE_ID; 30 bits; R177; reset 0 -/
  tpSel : BitVec 30 := 0
  /-- TRN_TRAY_SEL.TRAY; 9 bits; R177; reset 0x000 -/
  traySel : BitVec 9 := 0
  /-- TRN_BR_CFG.CTO_MS; 8 bits; R177; reset 0x01 -/
  ctoMs : BitVec 8 := 0x01
  /-- TRN_BR_CFG.T2_SEL; 16 bits; R177; reset 0x0000 -/
  t2Sel : BitVec 16 := 0
  /-- Pages whose demotion for make_room aborted and which are dropped next, with tenant and TVA of the chunk; R275; reset empty -/
  dropNext : List (Nat × BitVec 10 × Nat) := []
  /-- make_room procedures in turn: record, tier, pages needed, demotion allowed; R275; reset empty -/
  makeRoom : List (Nat × BitVec 2 × Nat × Bool) := []
  deriving DecidableEq, Repr

/-- Root of a tenant's page tables (Table 07-11). -/
structure Root where
  /-- TRN_ROOT.ROOT; 40 bits; R177; reset 0 -/
  root : BitVec 40 := 0
  /-- TRN_ROOT.VALID; 1 bit; R177; reset 0 -/
  valid : Bool := false
  deriving DecidableEq, Repr

/-- A leaf held in a translation cache (R174). -/
structure TlbEntry where
  /-- Tenant; 10 bits; R174; reset none -/
  tenant : BitVec 10
  /-- TVA of the page; 56 bits; R174; reset none -/
  tva : Nat
  /-- log2 of the page size: 14, 21 or 30; R168; reset none -/
  size : Nat
  /-- FPA of the page; 56 bits; R174; reset none -/
  fpa : Nat
  /-- W; 1 bit; R169; reset none -/
  w : Bool
  deriving DecidableEq, Repr

/-- A TABLE entry held in a walk cache (R174). -/
structure WalkEntry where
  /-- Tenant; 10 bits; R174; reset none -/
  tenant : BitVec 10
  /-- Level of the table the entry was read in: 3, 2 or 1; R168; reset none -/
  level : Nat
  /-- TVA bits above the next level; R168; reset none -/
  key : Nat
  /-- FPA of the next-level table; R169; reset none -/
  table : Nat
  deriving DecidableEq, Repr

/-- A page-table walk in progress (R168 to R174). -/
structure Walk where
  /-- Identifier -/
  id : Nat
  /-- Translation unit: 0 to 15 port die, 16 to 47 compute die LC0 to LC31; R174; reset none -/
  unit : Nat
  /-- Core whose cache is filled too; R174; reset none -/
  core : Option Nat
  /-- Tenant; 10 bits; R174; reset none -/
  tenant : BitVec 10
  /-- TVA; 56 bits; R168; reset none -/
  tva : Nat
  /-- Level of the entry being read, 3 to 0; R168; reset none -/
  level : Nat
  /-- FPA of the table being read; R170; reset none -/
  table : Nat
  /-- Answer to the read of its entry: status and line; R170; reset none -/
  got : Option (BitVec 6 × List Byte) := none
  /-- A probe walk of a decode (R272), or a TPREF: no request waits on it -/
  probe : Option (Nat × Nat) := none
  /-- It has a walk slot: its reads have begun; 1 bit; R174; reset none -/
  begun : Bool := false
  deriving DecidableEq, Repr

/-- Address translation and the TRN_ registers (R168 to R177). -/
structure Xlate where
  /-- TRN_ROOT by tenant; 1,024; R177; reset invalid -/
  roots : Table Root := []
  /-- Leaf caches: key 0 to 15 port dies, 16 to 47 compute dies, 64 + k core k; R174; reset empty -/
  tlb : Table (List TlbEntry) := []
  /-- Walk caches: key 0 to 15 port dies, 16 to 47 compute dies; R174; reset empty -/
  walkCache : Table (List WalkEntry) := []
  /-- Walks in progress; R174; reset empty -/
  walks : List Walk := []
  /-- Identifier of the next walk; R174; reset 0 -/
  nextWalk : Nat := 0
  /-- TRN_ROOT_SEL.TENANT; 10 bits; R177; reset 0x000 -/
  rootSel : BitVec 10 := 0
  /-- TRN_INV_BASE.BASE; 42 bits; R177; reset 0 -/
  invBase : BitVec 42 := 0
  /-- TRN_INV_ARG.PAGES; 32 bits; R177; reset 0 -/
  invPages : BitVec 32 := 0
  /-- TRN_INV_ARG.ALL; 1 bit; R177; reset 0 -/
  invAll : Bool := false
  /-- TRN_INV_ARG.TENANT; 10 bits; R177; reset 0x000 -/
  invTenant : BitVec 10 := 0
  /-- TRN_INV_STATUS.INV_SEQ; 32 bits; R177; reset 0 -/
  invSeq : BitVec 32 := 0
  /-- TRN_INV_STATUS.BUSY; 1 bit; R177; reset 0 -/
  invBusy : Bool := false
  /-- Request records that were translated with a removed entry; R175; reset empty -/
  invWaits : List Nat := []
  /-- TRN_PTW_ADDR.ADDR; 53 bits; R177; reset 0 -/
  ptwAddr : BitVec 53 := 0
  /-- TRN_PTW_DATA; 64 bits; R177; reset 0 -/
  ptwData : BitVec 64 := 0
  /-- TRN_CMD_RESULT.RESULT; 6 bits; R177; reset 0x00 -/
  cmdResult : BitVec 6 := 0
  /-- A TRN_PTW_DATA access that has finished at the home and not yet answered: ADK tag, write, code, data; R176; reset none -/
  ptwDone : Option (BitVec 16 × Bool × BitVec 6 × BitVec 64) := none
  /-- Millisecond of FT of the last walk-fault log entry, by tenant; R171; reset none -/
  faultMs : Table Nat := []
  /-- TRN_CNT_WALK; 64 bits; R177; reset 0 -/
  cntWalk : BitVec 64 := 0
  /-- TRN_CNT_FAULT; 64 bits; R177; reset 0 -/
  cntFault : BitVec 64 := 0
  /-- TRN_CNT_PROMOTE; 64 bits; R177; reset 0 -/
  cntPromote : BitVec 64 := 0
  /-- TRN_CNT_DEMOTE; 64 bits; R177; reset 0 -/
  cntDemote : BitVec 64 := 0
  /-- TRN_CNT_HELD; 64 bits; R177; reset 0 -/
  cntHeld : BitVec 64 := 0
  /-- TRN_CNT_RESTORE; 64 bits; R177; reset 0 -/
  cntRestore : BitVec 64 := 0
  /-- TRN_CNT_SAT.SAT; 6 bits; R177; reset 0 -/
  sat : BitVec 6 := 0
  deriving DecidableEq, Repr

/-! ### Block compression (chapter 08) -/

/-- CMP_PV_CFG of a pavilion (Table 08-11). -/
structure CmpPv where
  /-- CMP_PV_CFG.ELEM; 4 bits; R197; reset 0x1 -/
  elem : BitVec 4 := 0x1
  /-- CMP_PV_CFG.ENABLE; 1 bit; R197; reset 0 -/
  enable : Bool := false
  deriving DecidableEq, Repr

/-- CMP_PORT_CFG of a port (Table 08-12). -/
structure CmpPort where
  /-- CMP_PORT_CFG.EGR_VC; 8 bits; R197; reset 0x00 -/
  egrVc : BitVec 8 := 0
  /-- CMP_PORT_CFG.PEER_CBF; 1 bit; R197; reset 0 -/
  peerCbf : Bool := false
  /-- CMP_PORT_CFG.ING_EN; 1 bit; R197; reset 0 -/
  ingEn : Bool := false
  deriving DecidableEq, Repr

/-- The CMP_ registers (R197). -/
structure Cmp where
  /-- CMP_PV_CFG by pavilion; 64; R197; reset as Table 08-11 -/
  pvs : Table CmpPv := []
  /-- CMP_PORT_CFG by port; 256; R197; reset as Table 08-12 -/
  ports : Table CmpPort := []
  /-- CMP_PV_SEL.PV; 6 bits; R197; reset 0x00 -/
  pvSel : BitVec 6 := 0
  /-- CMP_PORT_SEL.PORT; 8 bits; R197; reset 0x00 -/
  portSel : BitVec 8 := 0
  /-- CMP_CNT_BLK; 64 bits; R197; reset 0 -/
  cntBlk : BitVec 64 := 0
  /-- CMP_CNT_RAW; 64 bits; R197; reset 0 -/
  cntRaw : BitVec 64 := 0
  /-- CMP_CNT_SAVED; 64 bits; R197; reset 0 -/
  cntSaved : BitVec 64 := 0
  /-- CMP_CNT_BAD; 64 bits; R197; reset 0 -/
  cntBad : BitVec 64 := 0
  /-- CMP_CNT_REBUILD; 64 bits; R197; reset 0 -/
  cntRebuild : BitVec 64 := 0
  /-- CMP_CNT_SAT.SAT; 5 bits; R197; reset 0 -/
  sat : BitVec 5 := 0
  deriving DecidableEq, Repr

/-! ### Compute cores and their engines (chapter 09) -/

/-- Thread states of Table 09-1. -/
inductive ThreadState where
  | idle | ready | waitDep | waitMem | waitEng | waitSync | faulted
  deriving DecidableEq, Repr

/-- What a waiting thread waits for. -/
inductive Wait where
  | none
  /-- FENCE: every store-class request numbered below n, and the engine commands issued before it (R219) -/
  | fence (n : Nat)
  /-- WAITM, WAITE and HALT -/
  | mcnt (limit : Nat) | ecnt (limit : Nat) | halt
  /-- COPYL in progress: source, destination, bytes -/
  | copy (src dst len : Nat)
  /-- BAR n -/
  | bar (n : Nat)
  /-- WAITL: address, old word, destination register, FT of the limit -/
  | word (addr : Nat) (old : BitVec 64) (xd : Nat) (limit : Option FT)
  /-- WAIT_DEP: the registers that the next instruction reads and that are pending (R199) -/
  | regs (mask : BitVec 32)
  deriving DecidableEq, Repr

/-- One hardware thread context (R198). -/
structure Thread where
  /-- X1 to X31 by number (X0 reads 0); 31 x 64 bits; R198; reset 0 (DESIGN CHOICE, log 8) -/
  x : Table (BitVec 64) := []
  /-- Registers whose value is pending; 32 bits; R199; reset 0 -/
  pend : BitVec 32 := 0
  /-- Program counter; 64 bits; R198; reset 0 (DESIGN CHOICE, log 8) -/
  pc : BitVec 64 := 0
  /-- State; 3 bits; R198; reset 0b000 -/
  state : ThreadState := .idle
  /-- What it waits for; R198; reset nothing -/
  wait : Wait := .none
  /-- STATUS code; 6 bits; R205; reset 0 (DESIGN CHOICE, log 8) -/
  statusCode : BitVec 6 := 0
  /-- STATUS TVA; 56 bits; R205; reset 0 (DESIGN CHOICE, log 8) -/
  statusTva : BitVec 56 := 0
  /-- MCNT; 7 bits; R200; reset 0 -/
  mcnt : Nat := 0
  /-- ECNT; 5 bits; R200; reset 0 -/
  ecnt : Nat := 0
  /-- Being stopped: results of its requests are discarded (R224, R311); 1 bit; R224; reset 0 -/
  discard : Bool := false
  deriving DecidableEq, Repr

/-- An accumulator tile: 16 rows of 32 elements, row-major (R207). -/
structure Tile where
  /-- INT32 and not FP32; 1 bit; R208; reset 0 (DESIGN CHOICE, log 8) -/
  int : Bool := false
  /-- Elements by row x 32 + column; 512 x 32 bits; R207; reset 0 (DESIGN CHOICE, log 8) -/
  elems : Table (BitVec 32) := []
  deriving DecidableEq, Repr

/-- What an engine command writes: local bytes and at most one tile. -/
structure EngOut where
  /-- Local writes, in order -/
  writes : List (Nat × List Byte) := []
  /-- Tile written -/
  tile : Option (Nat × Tile) := none
  deriving DecidableEq, Repr

/-- How far an engine command has come (R217, R225, R226). -/
inductive EngPhase where
  | queued | running | compared | voting | finished
  deriving DecidableEq, Repr

/-- One command in an engine's queue (R217). -/
structure EngCmd where
  /-- Issuing thread; 6 bits; R217; reset none -/
  tid : Nat
  /-- Local address of the descriptor; 32 bits; R210; reset none -/
  desc : Nat
  /-- Phase -/
  phase : EngPhase := .queued
  /-- Sampled for a shadow engine; 1 bit; R225; reset none -/
  sampled : Bool := false
  /-- Result withheld until its comparison; R225; reset none -/
  out : EngOut := {}
  /-- PC of the instruction that issued it; 64 bits; R224; reset none -/
  pc : BitVec 64 := 0
  /-- Pool row requests outstanding (GFE POOL 1); R213; reset 0 -/
  rowsLeft : Nat := 0
  /-- Pool row requests still to be issued, in order, as frame and local destination with bytes; R213; reset empty -/
  rowsTodo : List (Frame × ThreadSink) := []
  deriving DecidableEq, Repr

/-- One engine: 0 MXE, 1 VE0, 2 VE1, 3 GFE. -/
structure Engine where
  /-- Queue of at most 32 commands, oldest first; R217; reset empty -/
  queue : List EngCmd := []
  /-- Commands started, for sampling; 24 bits; R225; reset 0 (DESIGN CHOICE, log 8) -/
  started : Nat := 0
  /-- Suspect count; 8 bits; R363; reset 0 -/
  suspect : Nat := 0
  /-- A self-test pattern is running; 1 bit; R362; reset 0 -/
  testing : Bool := false
  deriving DecidableEq, Repr

/-- A pool completion that has reached its core (R205). -/
structure ThreadComp where
  /-- Arrival number of the request; R205; reset none -/
  n : Nat
  /-- Thread; 6 bits; R205; reset none -/
  tid : Nat
  /-- Where its data goes; R205; reset none -/
  sink : ThreadSink
  /-- Completion, with the TVA of the request in its ADDRESS; R205; reset none -/
  frame : Frame
  /-- FPA line number, where the request was translated; R203; reset none -/
  line : Option Nat := none
  /-- Marked allocatable by the home; 1 bit; R203; reset 0 -/
  alloc : Bool := false
  /-- The request was store-class; 1 bit; R96, R97; reset 0 -/
  stores : Bool := false
  /-- Bytes that a plain store of whole lines has stored from `line` on, for cached copies of its lines; R104; reset empty -/
  bytes : List Byte := []
  deriving DecidableEq, Repr

/-- One core (R198 to R227). -/
structure Core where
  /-- Thread contexts; 64; R198; reset every thread IDLE -/
  threads : Table Thread := []
  /-- Thread that issued last; 6 bits; R199; reset 0 (DESIGN CHOICE, log 8) -/
  lastTid : Nat := 0
  /-- Data-cache lines, most recently filled first: FPA line number and 64 bytes; at most 1,024; R203; reset empty -/
  dcache : List (Nat × List Byte) := []
  /-- Number of ACQUIREs, so that older fills do not allocate; R104; reset 0 -/
  acquires : Nat := 0
  /-- Accumulator tiles ACC0 to ACC7; 8; R207; reset 0 (DESIGN CHOICE, log 8) -/
  tiles : Table Tile := []
  /-- Engines MXE, VE0, VE1, GFE; 4; R16; reset idle -/
  engines : Table Engine := []
  /-- Pool completions that have reached the core and are not yet delivered, in order of arrival; R205; reset empty -/
  comps : List ThreadComp := []
  /-- Tenants of which the core, as a SERVICE core, has run a split, a generation or a decode since its last scrub; R336; reset none -/
  ran : List (BitVec 10) := []
  /-- CMPO_CORE_CFG.PV_UNIT; 16 bits; R227; reset 0xFFFF -/
  pvUnit : BitVec 16 := 0xFFFF
  /-- CMPO_CORE_CFG.TENANT; 10 bits; R227; reset 0x000 -/
  tenant : BitVec 10 := 0
  /-- CMPO_CORE_CFG.QUAR; 4 bits; R227; reset 0x0 -/
  quar : BitVec 4 := 0
  /-- CMPO_CORE_CFG.KIND; 2 bits; R227; reset 0b00 -/
  kind : BitVec 2 := 0
  /-- CMPO_CORE_FAULT.VALID; 1 bit; R227; reset 0 -/
  faultV : Bool := false
  /-- CMPO_CORE_FAULT.PC; 25 bits; R227; reset 0 -/
  faultPc : BitVec 25 := 0
  /-- CMPO_CORE_FAULT.CAUSE; 8 bits; R227; reset 0x00 -/
  faultCause : BitVec 8 := 0
  /-- CMPO_CORE_FAULT.TID; 6 bits; R227; reset 0 -/
  faultTid : BitVec 6 := 0
  deriving DecidableEq, Repr

/-- The compute dies: cores, local memories and barriers (chapter 09). -/
structure Compute where
  /-- Cores K0000 to K1023; 1,024; R16; reset as Core -/
  cores : Table Core := []
  /-- Scratchpads, byte core x 2^20 + offset; 1,024 x 1 MiB; R201; reset 0 (DESIGN CHOICE, log 9) -/
  spad : Memory := []
  /-- Cluster memories, byte cluster x 2^24 + offset; 128 x 16 MiB; R201; reset 0 (DESIGN CHOICE, log 9) -/
  cmem : Memory := []
  /-- Barrier counts, keyed cluster x 16 + n; R222, R304; reset 0 -/
  barNeed : Table Nat := []
  /-- Threads that have arrived, keyed cluster x 16 + n, as core x 64 + TID; R222; reset empty -/
  barHere : Table (List Nat) := []
  deriving DecidableEq, Repr

/-! ### Collectives (chapter 10) -/

/-- One member entry of a group (Table 10-12). -/
structure Member where
  /-- DEAD; 1 bit; R254; reset 0 -/
  dead : Bool := false
  /-- DEAD was set by a lease expiry; 1 bit; R234; reset 0 -/
  byLease : Bool := false
  /-- CORE_V; 1 bit; R254; reset 0 -/
  coreV : Bool := false
  /-- CORE; 10 bits; R254; reset 0x000 -/
  core : BitVec 10 := 0
  /-- UNIT; 16 bits; R254; reset 0xFFFF -/
  unit : BitVec 16 := 0xFFFF
  deriving DecidableEq, Repr

/-- One group record (R228). -/
structure Group where
  /-- CLV_GRP_CFG.TENANT; 10 bits; R254; reset 0x000 -/
  tenant : BitVec 10 := 0
  /-- CLV_GRP_CFG.MEMBERS; 9 bits; R254; reset 0x000 -/
  size : BitVec 9 := 0
  /-- CLV_GRP_MEMBER entries by rank; 256; R254; reset unassigned -/
  members : Table Member := []
  deriving DecidableEq, Repr

/-- Collective ID states of Table 10-1. -/
inductive CollState where
  | unbound | idle | opened | committing | aborting | aborted
  deriving DecidableEq, Repr

/-- One contributor of a generation: a member by rank, or child module c as 256 + c (R248). -/
structure Contributor where
  /-- Rank, or 256 + child number -/
  who : Nat
  /-- Issuer of its COLL.OPEN -/
  origin : Origin
  /-- Arrival number of its COLL.OPEN -/
  n : Nat
  /-- Its COLL.OPEN -/
  frame : Frame
  /-- TOKENS of its descriptor -/
  tokens : Nat := 0
  /-- Bytes it must contribute -/
  total : Nat := 0
  /-- GRANT_END last granted -/
  granted : Nat := 0
  /-- A child module has reported ready (R243) -/
  ready : Bool := false
  deriving DecidableEq, Repr

/-- Route state of a DISPATCH kept for its COMBINE (R236): for each row, source rank, token, k, expert and row number. -/
structure Route where
  src : Nat
  token : Nat
  k : Nat
  expert : Nat
  row : Nat
  deriving DecidableEq, Repr

/-- One collective ID: binding, state and generation (R229, R230). -/
structure Coll where
  /-- CLV_BIND.ENABLE; 1 bit; R254; reset 0 -/
  enable : Bool := false
  /-- CLV_BIND.ROLE; 2 bits; R254; reset 0b00 -/
  role : BitVec 2 := 0
  /-- CLV_BIND.CHILD_V; 8 bits; R254; reset 0x00 -/
  childV : BitVec 8 := 0
  /-- CLV_BIND.PARENT_PORT; 8 bits; R254; reset 0x00 -/
  parentPort : BitVec 8 := 0
  /-- CLV_BIND.GATE_Q; 4 bits; R254; reset 0x0 -/
  gateQ : BitVec 4 := 0
  /-- CLV_BIND.SLOTS; 11 bits; R254; reset 0x000 -/
  slots : BitVec 11 := 0
  /-- CLV_BIND.SLOT_MEM; 1 bit; R254; reset 0 -/
  slotMem : Bool := false
  /-- CLV_BIND.CLUSTER; 7 bits; R254; reset 0x00 -/
  cluster : BitVec 7 := 0
  /-- CLV_BIND.ADM; 10 bits; R254; reset 0x000 -/
  adm : BitVec 10 := 0
  /-- CLV_BIND.GROUP; 10 bits; R254; reset 0x000 -/
  group : BitVec 10 := 0
  /-- CLV_BIND_CHILD ports; 8 x 8 bits; R254; reset 0x00 -/
  childPort : Table (BitVec 8) := []
  /-- CLV_STATE.STATE; 3 bits; R254; reset 0b000 -/
  state : CollState := .unbound
  /-- CLV_STATE.GEN; 12 bits; R254; reset 0xFFF -/
  gen : BitVec 12 := 0xFFF
  /-- CLV_STATE.CAUSE; 4 bits; R254; reset 0x0 -/
  cause : BitVec 4 := 0
  /-- CLV_STATE.CLOSED; 19 bits; R254; reset 0 -/
  closed : Nat := 0
  /-- Descriptor of the generation (Table 10-2); 64 bytes; R233; reset empty -/
  desc : List Byte := []
  /-- Contributors joined, whose number CLV_STATE.OPENED reads; R254; reset none -/
  parts : List Contributor := []
  /-- Reduction accumulators by element; 64 bits each; R245; reset 0 -/
  acc : Table (BitVec 64) := []
  /-- Elements that have received a first contribution; R245; reset none -/
  accHas : Table Bool := []
  /-- Staged contribution bytes, who x 2^34 + offset; R239; reset nothing listed -/
  data : Memory := []
  /-- Units of 64 bytes received, as who x 2^28 + offset / 64; R241; reset none -/
  got : Table Bool := []
  /-- Chunks closed, as who x 2^18 + chunk (who 0 for shared chunks); R242; reset none -/
  done : Table Bool := []
  /-- Closed chunks of one member whose results have been sent, each to receivers that have joined; R242; reset none -/
  out : Table Bool := []
  /-- TAG of its own COLL.OPEN to the parent; 13 bits; R77, R248; reset 0 -/
  upTag : BitVec 13 := 0
  /-- Chunks closed whose result frames have not all left their ports; R242; reset none -/
  unfreed : List Nat := []
  /-- Route tables have arrived and count units are sent; 1 bit; R236; reset 0 -/
  routed : Bool := false
  /-- Route state, and the TOKENS of each source; R236; reset none -/
  route : List Route := []
  /-- TOKENS by rank of the DISPATCH whose route state is held; R236; reset none -/
  routeTok : Table Nat := []
  /-- K of that DISPATCH; R236; reset 0 -/
  routeK : Nat := 0
  /-- Generation of the held route state; 12 bits; R236; reset none -/
  routeGen : Option (BitVec 12) := none
  /-- Records selected so far by a filter; R238; reset none -/
  records : List (List Byte) := []
  /-- Records already sent, and chunks whose records have been selected; R238; reset 0 -/
  recSent : Nat := 0
  recChunk : Nat := 0
  /-- Bytes of its own contribution sent to the parent; R248; reset 0 -/
  upSent : Nat := 0
  /-- Result bytes passed on from the parent, and expected where a count unit tells them, by rank; R248; reset 0 -/
  resGot : Table Nat := []
  resWant : Table Nat := []
  /-- RES_POOL writes outstanding; R244; reset 0 -/
  poolLeft : Nat := 0
  /-- The RES_POOL stores have been issued; 1 bit; R244; reset 0 -/
  poolDone : Bool := false
  /-- GRANT_END and TOTAL granted by the parent; 2 x 64 bits; R248; reset 0 -/
  upGrant : Nat := 0
  /-- Ready has been reported to the parent; 1 bit; R243; reset 0 -/
  readyUp : Bool := false
  /-- FT of the class 0x1 abort deadline; 64 bits; R249; reset none -/
  deadline : Option FT := none
  deriving DecidableEq, Repr

/-- The collective unit and the CLV_ registers (R228 to R254). -/
structure Collectives where
  /-- Group records; 1,024; R228; reset empty -/
  groups : Table Group := []
  /-- Collective IDs; 4,096; R230; reset UNBOUND -/
  ids : Table Coll := []
  /-- CLV_GRP_SEL.GROUP; 10 bits; R254; reset 0x000 -/
  grpSel : BitVec 10 := 0
  /-- CLV_BIND_SEL.ID; 12 bits; R254; reset 0x000 -/
  bindSel : BitVec 12 := 0
  /-- CLV_CNT_DONE; 64 bits; R254; reset 0 -/
  cntDone : BitVec 64 := 0
  /-- CLV_CNT_ABORT; 64 bits; R254; reset 0 -/
  cntAbort : BitVec 64 := 0
  /-- CLV_CNT_STALE; 64 bits; R254; reset 0 -/
  cntStale : BitVec 64 := 0
  /-- CLV_CNT_PROTO; 64 bits; R254; reset 0 -/
  cntProto : BitVec 64 := 0
  /-- CLV_CNT_SAT.SAT; 4 bits; R254; reset 0 -/
  sat : BitVec 4 := 0
  deriving DecidableEq, Repr

/-! ### Attention (chapter 11) -/

/-- Sequence handle states of Table 11-1. -/
inductive HandleState where
  | free | bound | releasing
  deriving DecidableEq, Repr

/-- Sequence record of a handle (R258, Tables 11-12 and 11-13). -/
structure Handle where
  /-- ATN_SEQ_GEO.STATE; 2 bits; R277; reset 0b00 -/
  state : HandleState := .free
  /-- ATN_SEQ_GEO.FMT; 4 bits; R277; reset 0x0 -/
  fmt : BitVec 4 := 0
  /-- ATN_SEQ_GEO.D; 9 bits; R277; reset 0 -/
  d : Nat := 0
  /-- ATN_SEQ_GEO.L; 11 bits; R277; reset 0 -/
  l : Nat := 0
  /-- ATN_SEQ_GEO.H; 8 bits; R277; reset 0x00 -/
  h : Nat := 0
  /-- ATN_SEQ_TOK.MAX_TOK; 22 bits; R277; reset 0 -/
  maxTok : Nat := 0
  /-- ATN_SEQ_TOK.LEN; 22 bits; R277; reset 0 -/
  len : Nat := 0
  /-- ATN_SEQ_TOK.TENANT; 10 bits; R277; reset 0x000 -/
  tenant : BitVec 10 := 0
  /-- ATN_SEQ_TOK.PV; 6 bits; R277; reset 0x00 -/
  pv : BitVec 6 := 0
  /-- ATN_SEQ_WIN.KEEP; 21 bits; R277; reset 0 -/
  keep : Nat := 0
  /-- ATN_SEQ_WIN.WIN; 21 bits; R277; reset 0 -/
  win : Nat := 0
  /-- ATN_SEQ_WIN.SINK; 21 bits; R277; reset 0 -/
  sink : Nat := 0
  /-- ATN_SEQ_BASE.BASE; 56 bits, a multiple of 2 MiB; R277; reset 0 -/
  base : Nat := 0
  /-- ATN_SEQ_BASE.INFLIGHT; 16 bits; R277; reset 0x0000 -/
  inflight : Nat := 0
  /-- ATN_SEQ_SEG0 to SEG3 as FIRST_TOK and UNIT, used entries; 4 x 38 bits; R277; reset none (UNIT reads 0xFFFF) -/
  segs : List (Nat × BitVec 16) := []
  /-- ATN_SEQ_LAST; 64 bits; R277; reset 0 -/
  lastFt : FT := 0
  /-- Admission record charged; 10 bits; R256; reset 0 -/
  adm : BitVec 10 := 0
  deriving DecidableEq, Repr

/-- ATN_PV_CFG of a pavilion (Table 11-11). -/
structure AtnPv where
  /-- ENABLE; 1 bit; R277; reset 0 -/
  enable : Bool := false
  /-- ADM; 10 bits; R277; reset 0x000 -/
  adm : BitVec 10 := 0
  /-- HBLK_FIRST; 7 bits; R277; reset 0x00 -/
  first : BitVec 7 := 0
  /-- HBLK_N; 8 bits; R277; reset 0x00 -/
  n : BitVec 8 := 0
  /-- SPLIT_MIN; 16 bits; R277; reset 0x0400 -/
  splitMin : BitVec 16 := 0x0400
  /-- MAX_SPLITS; 8 bits; R277; reset 0x80 -/
  maxSplits : BitVec 8 := 0x80
  /-- PROTECT; 1 bit; R277; reset 1 -/
  protect : Bool := true
  deriving DecidableEq, Repr

/-- The (m, l, o) of every query row of a split or of a merge (R268, R269). -/
structure Partial where
  m : List (BitVec 32)
  l : List (BitVec 32)
  /-- Rows one after the other, D elements each -/
  o : List (BitVec 32)
  deriving DecidableEq, Repr

/-- One split of a decode on this module, or a part served by another (R265, R267). -/
structure Split where
  /-- Positions of its tokens in the module's list: first and one past the last -/
  lo : Nat
  hi : Nat
  /-- Partial, once finished -/
  result : Option Partial := none
  /-- Finished, with or without a partial -/
  finished : Bool := false
  deriving DecidableEq, Repr

/-- An ATN.SUB sent to another module (R267). -/
structure SubReq where
  /-- Unit ID of the serving module -/
  unit : BitVec 16
  /-- Port on which it was sent -/
  port : Nat
  /-- TAG -/
  tag : BitVec 13
  /-- First token it covers -/
  firstTok : Nat
  /-- FT of its timer (R88) -/
  timer : FT
  /-- Bytes of the partial received, by offset -/
  bytes : Memory := []
  /-- Answered -/
  finished : Bool := false
  /-- The ATN.SUB frame while it waits for a free tag (R78) -/
  held : Option Frame := none
  deriving DecidableEq, Repr

/-- A decode in progress, or an ATN.SUB being served (R263, R267). -/
structure Decode where
  /-- Arrival number of the request -/
  id : Nat
  /-- Issuer -/
  origin : Origin
  /-- The ATN.DECODE or ATN.SUB frame -/
  frame : Frame
  /-- Sequence handle -/
  handle : Nat
  /-- Served for another module -/
  isSub : Bool
  /-- Geometry: FMT, D, H, T_P, G / 128, BASE -/
  fmt : Nat
  d : Nat
  h : Nat
  tp : Nat
  gb : Nat
  base : Nat
  /-- Attended intervals served by this module: first token and count -/
  toks : List (Nat × Nat)
  /-- Local splits in ascending order -/
  splits : List Split
  /-- Parts served elsewhere -/
  subs : List SubReq := []
  /-- Status so far -/
  status : BitVec 6 := 0
  /-- Lines read by requests of this decode, by TVA line -/
  got : Table (List Byte) := []
  /-- Lines asked for and not yet answered, by TVA line -/
  asked : Table Bool := []
  /-- Pages met as NO_TRANSLATION and being probed, by page TVA -/
  probing : List Nat := []
  /-- Pages found DROPPED, by page TVA -/
  dropped : List Nat := []
  /-- Pages found translated by no leaf -/
  broken : List Nat := []
  /-- Spans reported by other modules: first token and count -/
  spans : List (Nat × Nat) := []
  /-- OUT_POOL writes: issued, and outstanding -/
  outSent : Bool := false
  outLeft : Nat := 0
  /-- Status with which it ends once those writes are performed (R101, R271) -/
  ended : Option (BitVec 6) := none
  deriving DecidableEq, Repr

/-- The attention unit and the ATN_ registers (R255 to R277). -/
structure Attention where
  /-- Sequence records by handle; 262,144; R255; reset FREE -/
  handles : Table Handle := []
  /-- ATN_PV_CFG by pavilion; 64; R277; reset as Table 11-11 -/
  pvs : Table AtnPv := []
  /-- Decodes in progress; R263; reset empty -/
  decodes : List Decode := []
  /-- ATN_PV_SEL.PV; 6 bits; R277; reset 0x00 -/
  pvSel : BitVec 6 := 0
  /-- ATN_CMD_RES.RESULT; 6 bits; R277; reset 0x00 -/
  cmdRes : BitVec 6 := 0
  /-- ATN_SEQ_SEL.HANDLE; 18 bits; R277; reset 0 -/
  seqSel : BitVec 18 := 0
  /-- Millisecond of FT of the last make_room event, by record; R275; reset none -/
  roomMs : Table Nat := []
  /-- ATN_CNT_DECODE; 64 bits; R277; reset 0 -/
  cntDecode : BitVec 64 := 0
  /-- ATN_CNT_KVDROP; 64 bits; R277; reset 0 -/
  cntKvdrop : BitVec 64 := 0
  /-- ATN_CNT_PGDROP; 64 bits; R277; reset 0 -/
  cntPgdrop : BitVec 64 := 0
  /-- ATN_CNT_PGDEMOTE; 64 bits; R277; reset 0 -/
  cntPgdemote : BitVec 64 := 0
  /-- ATN_CNT_SUB; 64 bits; R277; reset 0 -/
  cntSub : BitVec 64 := 0
  /-- ATN_CNT_SAT.SAT; 5 bits; R277; reset 0 -/
  sat : BitVec 5 := 0
  deriving DecidableEq, Repr

/-! ### Queues, gates, shapers and policers (chapter 12) -/

/-- A token bucket shaper (R288). Tokens are 1/65,536 of a byte. -/
structure Shaper where
  /-- EN; 1 bit; R298; reset 0 -/
  en : Bool := false
  /-- RST_MODE; 1 bit; R298; reset 0 -/
  rstZero : Bool := false
  /-- BURST; 19 bits; R298; reset 0x0_0041 -/
  burst : BitVec 19 := 0x41
  /-- RATE_MBPS; 20 bits; R298; reset 0xC_F850 -/
  rate : BitVec 20 := 0xCF850
  /-- Tokens; bytes with 16 fractional bits; R288; reset 64 x BURST -/
  tokens : Nat := 64 * 0x41 * 65536
  /-- FT at which the tokens were last brought up to date; 64 bits; R288; reset 0 -/
  since : FT := 0
  deriving DecidableEq, Repr

/-- What a belvedere has recorded (R296). -/
structure BelData where
  /-- SAMPLES; 32 bits; R298; reset 0 -/
  samples : BitVec 32 := 0
  /-- FLAGS; 4 bits; R298; reset 0x8 -/
  flags : BitVec 4 := 0x8
  /-- DMAX; 32 bits; R298; reset 0 -/
  dmax : BitVec 32 := 0
  /-- DMIN; 32 bits; R298; reset all-ones -/
  dmin : BitVec 32 := 0xFFFFFFFF
  /-- SMAX; 32 bits; R298; reset 0 -/
  smax : BitVec 32 := 0
  /-- SMIN; 32 bits; R298; reset all-ones -/
  smin : BitVec 32 := 0xFFFFFFFF
  /-- Depth bins; 16 x 32 bits; R298; reset 0 -/
  dhist : Table (BitVec 32) := []
  /-- Sojourn bins; 16 x 32 bits; R298; reset 0 -/
  shist : Table (BitVec 32) := []
  deriving DecidableEq, Repr

/-- One egress queue (R279 to R298). -/
structure Queue where
  /-- FIFOs by VC, oldest first; R280; reset empty -/
  fifos : Table (List QFrame) := []
  /-- Frames that have entered; the model's own; R281; reset 0 -/
  entered : Nat := 0
  /-- QUE_CFG.QUANTUM; 12 bits; R298; reset 0x041 -/
  quantum : BitVec 12 := 0x041
  /-- QUE_CFG.EW; 4 bits; R298; reset 0x4 -/
  ew : BitVec 4 := 0x4
  /-- QUE_CFG.THR_R; 12 bits; R298; reset 0x040 -/
  thrR : BitVec 12 := 0x040
  /-- QUE_CFG.THR_Y; 12 bits; R298; reset 0x080 -/
  thrY : BitVec 12 := 0x080
  /-- QUE_CFG.THR_G; 12 bits; R298; reset 0x100 -/
  thrG : BitVec 12 := 0x100
  /-- QUE_CFG.CE_EN; 1 bit; R298; reset 1 -/
  ceEn : Bool := true
  /-- QUE_SHAPE; R298; reset as PRT_PSHAPE -/
  shape : Shaper := {}
  /-- Deficit counter in bytes; R282; reset 0 -/
  deficit : Nat := 0
  /-- AVG in bytes; R293; reset 0 -/
  avg : Nat := 0
  /-- QUE_BEL_CFG.PERIOD_US; 20 bits; R298; reset 0x0_0064 -/
  belUs : BitVec 20 := 0x64
  /-- FT of the last sample fired; 64 bits; R296; reset 0 (DESIGN CHOICE, log 3) -/
  belAt : FT := 0
  /-- A sample was due in the slot in which PERIOD_US was written; R48; reset 0 -/
  belOwed : Bool := false
  /-- Corrections of FT made when the last sample was taken; R296; reset 0 -/
  belSeen : Nat := 0
  /-- The belvedere; R296; reset COLD -/
  bel : BelData := {}
  /-- Its read copy; R297; reset COLD -/
  belCopy : BelData := {}
  /-- QUE_CNT_TX; 64 bits; R298; reset 0 -/
  cntTx : BitVec 64 := 0
  /-- QUE_CNT_BYTES; 64 bits; R298; reset 0 -/
  cntBytes : BitVec 64 := 0
  /-- QUE_CNT_CE; 64 bits; R298; reset 0 -/
  cntCe : BitVec 64 := 0
  /-- QUE_CNT_OVERRUN; 64 bits; R298; reset 0 -/
  cntOver : BitVec 64 := 0
  /-- QUE_CNT_SAT.SAT; 4 bits; R298; reset 0 -/
  sat : BitVec 4 := 0
  deriving DecidableEq, Repr

/-- One entry of a gate list (R283). -/
structure GateEntry where
  /-- GATES; 16 bits; R298; reset 0x0000 -/
  gates : BitVec 16 := 0
  /-- DUR; 28 bits; R298; reset 0x000_0000 -/
  dur : BitVec 28 := 0
  deriving DecidableEq, Repr

/-- The gate lists of a port (R283 to R287). -/
structure Gate where
  /-- Entries, keyed 256 x LIST + INDEX; 2 x 256; R298; reset 0 -/
  entries : Table GateEntry := []
  /-- PRT_GATE_CTRL.GATES; 16 bits; R298; reset 0xFFFF -/
  gates : BitVec 16 := 0xFFFF
  /-- PRT_GATE_CTRL.ACT_LAST; 8 bits; R298; reset 0x00 -/
  actLast : BitVec 8 := 0
  /-- PRT_GATE_CTRL.PEND_LAST; 8 bits; R298; reset 0x00 -/
  pendLast : BitVec 8 := 0
  /-- PRT_GATE_CTRL.PEND_NONE; 1 bit; R298; reset 0 -/
  pendNone : Bool := false
  /-- PRT_GATE_CTRL.RUN; 1 bit; R298; reset 0 -/
  run : Bool := false
  /-- A list is installed as active; 1 bit; R283; reset 0 -/
  installed : Bool := false
  /-- PRT_GATE_CTRL.ACTIVE; 1 bit; R298; reset 0 -/
  active : Bool := false
  /-- PRT_GATE_CTRL.PENDING; 1 bit; R298; reset 0 -/
  pending : Bool := false
  /-- BASE_FT of the active list; 64 bits; R283; reset 0 -/
  actBase : FT := 0
  /-- PRT_GATE_BASE.BASE_FT; 64 bits; R298; reset 0 -/
  base : FT := 0
  /-- PRT_GATE_CHG.CHANGE_FT; 64 bits; R298; reset 0 -/
  change : FT := 0
  /-- PRT_GCL_SEL.LIST; 1 bit; R298; reset 0 -/
  selList : Bool := false
  /-- PRT_GCL_SEL.INDEX; 8 bits; R298; reset 0x00 -/
  selIndex : BitVec 8 := 0
  /-- Entry of the active list in effect; 8 bits; R283; reset 0 -/
  cur : Nat := 0
  /-- FT at which the entry in effect ends; 64 bits; R283; reset 0 -/
  curEnd : FT := 0
  /-- FT of the last cycle start fired; 64 bits; R283; reset 0 (DESIGN CHOICE, log 3) -/
  lastStart : FT := 0
  /-- FT of the commit that awaits activation; 64 bits; R284; reset 0 (DESIGN CHOICE, log 7) -/
  commitAt : FT := 0
  deriving DecidableEq, Repr

/-- A share meter (R289). -/
structure Meter where
  /-- PRT_SHR.VALID; 1 bit; R298; reset 0 -/
  valid : Bool := false
  /-- PRT_SHR.ADM; 10 bits; R298; reset 0x000 -/
  adm : BitVec 10 := 0
  /-- PRT_SHR.BW; 7 bits; R298; reset 0x00 -/
  bw : BitVec 7 := 0
  /-- Tokens; bytes with 16 fractional bits; R289; reset 0 -/
  tokens : Nat := 0
  /-- FT at which the tokens were last brought up to date; 64 bits; R289; reset 0 -/
  since : FT := 0
  deriving DecidableEq, Repr

/-- What one member link carries (R278, R286, R361). -/
structure Lane where
  /-- Queue of the last frame that was started from one; 4 bits; R286; reset none -/
  queue : Option Nat := none
  /-- The last frame as it stands on the link, its payload under the lot key, with its LSEQ; R66, R330; reset none -/
  wire : Option (BitVec 12 × Frame) := none
  /-- FT at which the last bit of the last frame leaves; 64 bits; R278; reset 0 -/
  ends : FT := 0
  /-- FT from which the link can start the next frame; 64 bits; R361; reset 0 -/
  free : FT := 0
  deriving DecidableEq, Repr

/-- The traffic-control part of one port or bundle. -/
structure Traffic where
  /-- PRT_QMAP entries; 64 x 4 bits; R298; reset 0x0 -/
  qmap : Table (BitVec 4) := []
  /-- PRT_PSHAPE; R298; reset as Table 12-6 -/
  shape : Shaper := {}
  /-- PRT_BRIDLE.EN; 1 bit; R298; reset 0 -/
  brdEn : Bool := false
  /-- PRT_BRIDLE.SEL; 2 bits; R298; reset 0b00 -/
  brdMode : BitVec 2 := 0
  /-- PRT_BRIDLE.BASE; 9 bits; R298; reset 0x000 -/
  brdBase : BitVec 9 := 0
  /-- Gate lists; R283; reset as Table 12-7 -/
  gate : Gate := {}
  /-- PRT_RLOOP.MAX_MBPS; 20 bits; R298; reset 0xC_F850 -/
  rlMax : BitVec 20 := 0xCF850
  /-- PRT_RLOOP.MIN_MBPS; 20 bits; R298; reset 0x0_2710 -/
  rlMin : BitVec 20 := 0x2710
  /-- PRT_RLOOP.MD_LOG2; 4 bits; R298; reset 0x3 -/
  rlMd : BitVec 4 := 0x3
  /-- PRT_RLOOP.AI_MBPS; 12 bits; R298; reset 0x3E8 -/
  rlAi : BitVec 12 := 0x3E8
  /-- PRT_RLOOP.AI_US; 8 bits; R298; reset 0x08 -/
  rlUs : BitVec 8 := 0x08
  /-- PRT_RLOOP_STAT.HELD; 1 bit; R298; reset 0 -/
  rlHeld : Bool := false
  /-- PRT_RLOOP_STAT.RATE; 20 bits; R298; reset 0xC_F850 -/
  rlRate : BitVec 20 := 0xCF850
  /-- FT of the last decrease, or of the last increase; 64 bits; R294; reset 0 (DESIGN CHOICE, log 7) -/
  rlDecAt : FT := 0
  /-- FT from which the next AI_US without CE_ECHO counts; 64 bits; R294; reset 0 (DESIGN CHOICE, log 7) -/
  rlIncAt : FT := 0
  /-- Tokens of the origin rate shaper; bytes with 16 fractional bits; R294; reset 4,160 bytes (DESIGN CHOICE, log 7) -/
  rlTokens : Nat := 4160 * 65536
  /-- FT of those tokens; 64 bits; R294; reset 0 (DESIGN CHOICE, log 7) -/
  rlSince : FT := 0
  /-- PRT_SHR_SEL.METER; 6 bits; R298; reset 0x00 -/
  shrSel : BitVec 6 := 0
  /-- Share meters; 64; R289; reset unbound -/
  meters : Table Meter := []
  /-- PRT_BRD_SEL.BRIDLE (first port of a die); 9 bits; R298; reset 0x000 -/
  brdSel : BitVec 9 := 0
  /-- Queues Q0 to Q15; 16; R279; reset as Table 12-10 -/
  queues : Table Queue := []
  /-- VC6 frames waiting to be sent ahead of every queue; R280; reset empty -/
  vc6 : List Frame := []
  /-- What the members of the port or bundle carry, by member; 8; R278; reset idle (DESIGN CHOICE, log 7) -/
  lanes : Table Lane := []
  /-- Queue at which the deficit round robin stands; 4 bits; R282; reset 3 -/
  drr : Nat := 3
  /-- The visit of that queue has already received its quantum; 1 bit; R282; reset 0 -/
  drrIn : Bool := false
  deriving DecidableEq, Repr

/-- One rim port or bundle: link, peer and traffic control. -/
structure Port where
  link : Link := {}
  tc : Traffic := {}
  deriving DecidableEq, Repr

/-- One bridle of a port die (R290, R291). -/
structure Bridle where
  /-- CIR_MBPS; 20 bits; R298; reset 0xC_F850 -/
  cir : BitVec 20 := 0xCF850
  /-- PIR_MBPS; 20 bits; R298; reset 0xC_F850 -/
  pir : BitVec 20 := 0xCF850
  /-- RED_DROP; 1 bit; R298; reset 0 -/
  redDrop : Bool := false
  /-- AWARE; 1 bit; R298; reset 0 -/
  aware : Bool := false
  /-- PBS; 32 bits; R298; reset 0x0001_0000 -/
  pbs : BitVec 32 := 0x00010000
  /-- CBS; 32 bits; R298; reset 0x0001_0000 -/
  cbs : BitVec 32 := 0x00010000
  /-- Tc; bytes with 16 fractional bits; R291; reset full -/
  tc : Nat := 0x00010000 * 65536
  /-- Tp; bytes with 16 fractional bits; R291; reset full -/
  tp : Nat := 0x00010000 * 65536
  /-- FT at which the buckets were last brought up to date; 64 bits; R291; reset 0 -/
  since : FT := 0
  /-- PRT_BRD_CNT_G; 64 bits; R298; reset 0 -/
  cntG : BitVec 64 := 0
  /-- PRT_BRD_CNT_Y; 64 bits; R298; reset 0 -/
  cntY : BitVec 64 := 0
  /-- PRT_BRD_CNT_R; 64 bits; R298; reset 0 -/
  cntR : BitVec 64 := 0
  /-- PRT_BRD_CNT_DROP; 64 bits; R298; reset 0 -/
  cntDrop : BitVec 64 := 0
  /-- PRT_BRD_CNT_SAT.SAT; 4 bits; R298; reset 0 -/
  sat : BitVec 4 := 0
  deriving DecidableEq, Repr

/-! ### Composition (chapter 13) -/

/-- One section of a composition (Table 13-3). -/
structure Section where
  /-- TYPE; 16 bits; R300; reset none -/
  ty : Nat
  /-- INSTANCE; 16 bits; R300; reset none -/
  inst : Nat
  /-- LENGTH in bytes; R300; reset none -/
  len : Nat
  /-- Content by byte offset; R301; reset none -/
  cells : Memory
  deriving DecidableEq, Repr

/-- Staging states (R306). -/
inductive StageState where
  | empty | loading | staged | valid
  deriving DecidableEq, Repr

/-- Recomposition states (Table 13-13). -/
inductive ApplyState where
  | idle | preparing | window
  deriving DecidableEq, Repr

/-- One handoff registration (Table 13-15). -/
structure Hof where
  /-- CMPO_HOF_ADDR.FPA; 50 bits; R324; reset 0 -/
  line : BitVec 50 := 0
  /-- CMPO_HOF_CFG.EN; 1 bit; R324; reset 0 -/
  en : Bool := false
  /-- CMPO_HOF_CFG.LIMIT_MS; 16 bits; R324; reset 0x0064 -/
  limitMs : BitVec 16 := 0x0064
  /-- FT at which the armed timer expires (ARMED reads 1); 64 bits; R324; reset none -/
  timer : Option FT := none
  deriving DecidableEq, Repr

/-- The composition, the staging area and the module's CMPO_ registers (R299 to R324, R427). -/
structure Composition where
  /-- Sections of the running composition; R301; reset none -/
  run : List Section := []
  /-- Sections of the old composition while a window is open; R312; reset none -/
  old : List Section := []
  /-- Sections a prepared delta will produce; R312; reset none -/
  shadow : List Section := []
  /-- Module number (byte 7 of the header of the image applied); 5 bits; R299; reset 0 (DESIGN CHOICE, log 7) -/
  module : BitVec 5 := 0
  /-- CMPO_IMG_STATUS.STAGE; 2 bits; R324; reset 0b00 -/
  stage : StageState := .empty
  /-- CMPO_IMG_STATUS.ERR; 5 bits; R324; reset 0x00 -/
  err : BitVec 5 := 0
  /-- CMPO_IMG_STATUS.ERR_SECT; 14 bits; R324; reset 0 -/
  errSect : BitVec 14 := 0
  /-- Staged image bytes, from which CMPO_IMG_STATUS.KIND (byte 6) and BUILD_ID (bytes 24 to 27) and CMPO_STAGE_DIGEST (bytes
  32 to 63) are read; up to 256 MiB; R306, R324; reset nothing listed -/
  staged : Memory := []
  /-- 8-byte words of the staging area written at least once; R398; reset none -/
  imgWritten : Table Bool := []
  /-- A VALIDATE is in progress; 1 bit; R307; reset 0 -/
  validating : Bool := false
  /-- A LOAD is in progress; 1 bit; R306; reset 0 -/
  loading : Bool := false
  /-- CMPO_COMP_DIGEST; 256 bits; R324; reset 0 -/
  digest : BitVec 256 := 0
  /-- CMPO_STATUS.EVAC as the list of blocks still to be evacuated; 24 bits; R324; reset 0 -/
  evac : List Nat := []
  /-- CMPO_STATUS.LAST_US; 16 bits; R324; reset 0 -/
  lastUs : BitVec 16 := 0
  /-- CMPO_STATUS.OLD_EPOCH; 4 bits; R324; reset 0x0 -/
  oldEpoch : BitVec 4 := 0
  /-- CMPO_STATUS.EPOCH; 4 bits; R324; reset 0x0 -/
  epoch : BitVec 4 := 0
  /-- CMPO_STATUS.STATE; 2 bits; R324; reset 0b00 -/
  state : ApplyState := .idle
  /-- The open window follows an EPOCH.NOTE and changes no table; 1 bit; R316; reset 0 -/
  byNote : Bool := false
  /-- CMPO_WIN_END.WINDOW_END; 64 bits; R324; reset 0 -/
  winEnd : FT := 0
  /-- FLIP_FT, once fixed; 64 bits; R312; reset none -/
  flipAt : Option FT := none
  /-- FT of the APPLY write; 64 bits; R319; reset 0 -/
  applyAt : FT := 0
  /-- CMPO_CFG.WINDOW_US; 16 bits; R324; reset 0x07D0 -/
  windowUs : BitVec 16 := 0x07D0
  /-- CMPO_HOF_SEL.INDEX; 10 bits; R324; reset 0x000 -/
  hofSel : BitVec 10 := 0
  /-- Handoff registrations; 1,024; R324; reset disabled -/
  hofs : Table Hof := []
  /-- CMPO_CNT_APPLY; 64 bits; R324; reset 0 -/
  cntApply : BitVec 64 := 0
  /-- CMPO_CNT_FWD; 64 bits; R324; reset 0 -/
  cntFwd : BitVec 64 := 0
  /-- CMPO_CNT_RETRY; 64 bits; R324; reset 0 -/
  cntRetry : BitVec 64 := 0
  /-- CMPO_CNT_ROLLBACK; 64 bits; R324; reset 0 -/
  cntRollback : BitVec 64 := 0
  /-- CMPO_CNT_SAT.SAT; 4 bits; R324; reset 0 -/
  sat : BitVec 4 := 0
  deriving DecidableEq, Repr

/-! ### Tenants, keys and roles (chapter 14) -/

/-- Tenant context states of Table 14-1. -/
inductive TenantState where
  | free | active | stopping | retired
  deriving DecidableEq, Repr

/-- One tenant context (R326). -/
structure Tenant where
  /-- SEC_TC.STATE; 2 bits; R348; reset 0b00 -/
  state : TenantState := .free
  /-- SEC_TC.TD_STEP; 4 bits; R348; reset 0x0 -/
  tdStep : BitVec 4 := 0
  /-- Program key; 1,312 bytes (SEC_TC.PKEY_V reads whether it is set); R346; reset none -/
  pkey : Option (List Byte) := none
  /-- SEC_TC_DBG; 64 bits; R348; reset 0 -/
  dbg : BitVec 64 := 0
  deriving DecidableEq, Repr

/-- States of the firmware staging area (Table 14-11). -/
inductive FwStage where
  | empty | loading | staged | verified
  deriving DecidableEq, Repr

/-- A firmware bank: its package, and whether the SD0 ROM found it valid. -/
structure FwBank where
  /-- SVN of the package; 7 bits; R344; reset 0 (DESIGN CHOICE, log 6) -/
  svn : Nat := 0
  /-- The package is valid; 1 bit; R344; reset 1 for bank 0 and 0 for bank 1 (DESIGN CHOICE, log 6) -/
  ok : Bool := false
  /-- SD0_DIG, SD1_DIG and SVC_DIG; 3 x 256 bits; R344; reset 0 (DESIGN CHOICE, log 6) -/
  digs : List Byte := []
  deriving DecidableEq, Repr

/-- Roles, tenants, firmware, attestation and debug: the SEC_ registers (R325 to R348). -/
structure Security where
  /-- Tenant contexts; 1,024; R326; reset FREE -/
  tenants : Table Tenant := []
  /-- FT at which the installer window closes (INST and INST_MS read from it); 64 bits; R340; reset none (INST 0) -/
  instEnd : Option FT := none
  /-- SEC_ROLE.PRES; 1 bit; R348; reset 0 -/
  pres : Bool := false
  /-- SEC_ROLE.JMP; 1 bit; R348; reset 0 -/
  jmp : Bool := false
  /-- SEC_ROLE.SEAL_OPEN; 1 bit; R348; reset 0 -/
  sealOpen : Bool := false
  /-- SEC_ROLE.SEAL_FUSE; 1 bit; R348; reset 0 (DESIGN CHOICE, log 6) -/
  sealFuse : Bool := false
  /-- SEC_ROLE.MAKER; 1 bit; R348; reset 0 -/
  maker : Bool := false
  /-- SEC_TC_SEL.TC; 10 bits; R348; reset 0x000 -/
  tcSel : BitVec 10 := 0
  /-- SEC_TC.RESULT; 6 bits; R348; reset 0x00 -/
  tcResult : BitVec 6 := 0
  /-- Words written through SEC_PKEY_DATA, by index; 164 x 64 bits; R346; reset 0 -/
  pkeyBuf : Table (BitVec 64) := []
  /-- SEC_PKEY_PTR.WORD; 8 bits; R348; reset 0x00 -/
  pkeyPtr : BitVec 8 := 0
  /-- SEC_LOT_SEL.PORT; 8 bits; R348; reset 0x00 -/
  lotSel : BitVec 8 := 0
  /-- SEC_LOT.IDX by port; 256 x 4 bits; R348; reset 0x0 -/
  lotIdx : Table (BitVec 4) := []
  /-- Firmware banks 0 and 1; 2; R344; reset as FwBank -/
  banks : Table FwBank := []
  /-- SEC_FW_STATUS.BANK; 1 bit; R348; reset 0 (DESIGN CHOICE, log 6) -/
  bank : Bool := false
  /-- SEC_FW_STATUS.SVN_MIN; 8 bits; R348; reset 0 (DESIGN CHOICE, log 6) -/
  svnMin : BitVec 8 := 0
  /-- SEC_FW_STATUS.RESULT; 6 bits; R348; reset 0x00 -/
  fwResult : BitVec 6 := 0
  /-- SEC_FW_STATUS.ERR; 2 bits; R348; reset 0b00 -/
  fwErr : BitVec 2 := 0
  /-- SEC_FW_STATUS.STAGE; 2 bits; R348; reset 0b00 -/
  fwStage : FwStage := .empty
  /-- Staged firmware bytes; up to 64 MiB; R398; reset nothing listed -/
  fwBytes : Memory := []
  /-- 8-byte words of the staging area written at least once; R398; reset none -/
  fwWritten : Table Bool := []
  /-- A VERIFY, or a COMMIT, is in progress; 2 bits; R345; reset 0 -/
  fwVerifying : Bool := false
  fwCommitting : Bool := false
  /-- SEC_ATT_NONCE0 to 3; 4 x 64 bits; R348; reset 0 -/
  nonce : Table (BitVec 64) := []
  /-- SEC_ATT_STATUS.LEN; 12 bits; R348; reset 0x000 -/
  attLen : BitVec 12 := 0
  /-- SEC_ATT_STATUS.READY; 1 bit; R348; reset 0 -/
  attReady : Bool := false
  /-- SEC_ATT_WIN; 3,072 bytes; R348; reset 0 -/
  attWin : Memory := []
  /-- SEC_DBG_ADDR.FPA; 50 bits; R348; reset 0 -/
  dbgAddr : BitVec 50 := 0
  /-- SEC_DBG_RES.RESULT; 6 bits; R348; reset 0x00 -/
  dbgRes : BitVec 6 := 0
  /-- SEC_DBG_LINE0 to 7; 64 bytes; R348; reset 0 -/
  dbgLine : List Byte := []
  /-- A debug read that has finished at the home: its ADK tag, code and line; R343; reset none -/
  dbgDone : Option (BitVec 16 × BitVec 6 × List Byte) := none
  /-- SEC_CNT_DBG; 64 bits; R348; reset 0 -/
  cntDbg : BitVec 64 := 0
  /-- SEC_CNT_ROLE_DENY; 64 bits; R348; reset 0 -/
  cntDeny : BitVec 64 := 0
  /-- SEC_CNT_RETIRED; 64 bits; R348; reset 0 -/
  cntRetired : BitVec 64 := 0
  /-- SEC_CNT_TAG_MIS; 64 bits; R348; reset 0 -/
  cntTagMis : BitVec 64 := 0
  /-- SEC_CNT_SAT.SAT; 4 bits; R348; reset 0 -/
  sat : BitVec 4 := 0
  deriving DecidableEq, Repr

/-! ### Errors, margins and the trouble log (chapter 15) -/

/-- A trouble-log entry (Table 15-9). -/
structure LogEntry where
  ft : BitVec 64
  src : BitVec 16
  cls : BitVec 8
  detail : BitVec 8
  flags : BitVec 8
  repeats : BitVec 8
  temp : BitVec 8
  /-- PARAM bytes 16 to 31, from bit 0 -/
  param : BitVec 128
  deriving DecidableEq, Repr

/-- A measured margin item (Table 15-15). -/
structure Margin where
  /-- LOG_MGN_VAL.LAST; 16 bits; R372; reset 0 -/
  last : BitVec 16 := 0
  /-- LOG_MGN_VAL.WORST; 16 bits; R372; reset 0 -/
  worst : BitVec 16 := 0
  /-- LOG_MGN_VAL.STATE; 2 bits; R372; reset 0b00 -/
  state : BitVec 2 := 0
  /-- Measured since power-up, so that WORST holds a measurement; 1 bit; R372; reset 0 -/
  seen : Bool := false
  deriving DecidableEq, Repr

/-- A die's sensors and thermal level (Table 15-16, R361). -/
structure Die where
  /-- LOG_DIE.TEMP; 8 bits; R372; reset 0x00 -/
  temp : BitVec 8 := 0
  /-- LOG_DIE.MAXTEMP; 8 bits; R372; reset 0x00 -/
  maxTemp : BitVec 8 := 0
  /-- LOG_DIE.VDD_MV; 16 bits; R372; reset 0 -/
  vdd : BitVec 16 := 0
  /-- LOG_DIE.LEVEL; 2 bits; R372; reset 0b00 -/
  level : BitVec 2 := 0
  /-- A warning of WARN_C has been given and the die has not since fallen below it; 1 bit; R361; reset 0 -/
  warned : Bool := false
  /-- FT of entry into level 1; 64 bits; R361; reset 0 -/
  levelAt : FT := 0
  /-- FT of the last sample at or above THROTTLE_C - 5; 64 bits; R361; reset 0 -/
  hotAt : FT := 0
  /-- FT of its last sample; 64 bits; R361; reset 0 (DESIGN CHOICE, log 7) -/
  sampledAt : FT := 0
  /-- Consecutive samples at or above 105 degrees C; 2 bits; R361; reset 0 -/
  hotRun : Nat := 0
  deriving DecidableEq, Repr

/-- The trouble log, margins, self-test, audit and recovery: the LOG_ registers (R349 to R372). -/
structure Log where
  /-- Entries held with their sequence numbers, oldest first; 16,384 x 32 bytes; R364; reset empty -/
  entries : List (Nat × LogEntry) := []
  /-- LOG_STATUS.WR_SEQ; 32 bits; R372; reset 0 -/
  wrSeq : BitVec 32 := 0
  /-- LOG_SEL.SEQ; 32 bits; R372; reset 0 -/
  sel : BitVec 32 := 0
  /-- LOG_MGN_CFG.SCAN_MS; 16 bits; R372; reset 0x03E8 -/
  scanMs : BitVec 16 := 0x03E8
  /-- LOG_MGN_CFG.HYST_PCT; 8 bits; R372; reset 0x0A -/
  hystPct : BitVec 8 := 0x0A
  /-- LOG_MGN_CFG.PATROL_H; 8 bits; R372; reset 0x18 -/
  patrolH : BitVec 8 := 0x18
  /-- LOG_MGN_CFG.THROTTLE_C; 8 bits; R372; reset 0x64 -/
  throttleC : BitVec 8 := 0x64
  /-- LOG_MGN_CFG.WARN_C; 8 bits; R372; reset 0x5F -/
  warnC : BitVec 8 := 0x5F
  /-- LOG_MGN_CFG.CE_TH; 16 bits; R372; reset 0x0100 -/
  ceTh : BitVec 16 := 0x0100
  /-- LOG_MTH_SEL.KIND; 3 bits; R372; reset 0b000 -/
  mthSel : BitVec 3 := 0
  /-- LOG_MTH written away from Table 15-4, by KIND as WARN and FAIL; 5 x 32 bits; R372; reset Table 15-4 -/
  mth : Table (BitVec 16 × BitVec 16) := []
  /-- LOG_MGN_ITEM.KIND; 3 bits; R372; reset 0b000 -/
  itemKind : BitVec 3 := 0
  /-- LOG_MGN_ITEM.INDEX; 16 bits; R372; reset 0x0000 -/
  itemIdx : BitVec 16 := 0
  /-- Margin items, keyed 65,536 x KIND + INDEX; R360; reset NORMAL -/
  margins : Table Margin := []
  /-- LOG_STEST.STEST_MS; 16 bits; R372; reset 0x0064 -/
  stestMs : BitVec 16 := 0x0064
  /-- LOG_STEST.QUAR_TH; 4 bits; R372; reset 0x3 -/
  quarTh : BitVec 4 := 0x3
  /-- LOG_STEST.PAT_EN; 7 bits; R372; reset 0x7F -/
  patEn : BitVec 7 := 0x7F
  /-- LOG_STEST.EN; 1 bit; R372; reset 1 -/
  stestEn : Bool := true
  /-- Next engine of each cluster's rotation (core x 4 + engine); 5 bits each; R362; reset 0 -/
  rotation : Table Nat := []
  /-- Next pattern of each cluster; 3 bits each; R362; reset 0 (DESIGN CHOICE, log 7) -/
  pattern : Table Nat := []
  /-- Places of each cluster's rotation still to be tested in this slot, the engine under test first; R362; reset empty -/
  testing : Table (List Nat) := []
  /-- Places of each cluster's rotation that were skipped, to be tested first at the next slot; R362; reset empty -/
  skipped : Table (List Nat) := []
  /-- Slots of a requested pass still to run, by compute die site; R360, R362; reset 0 -/
  passLeft : Table Nat := []
  /-- LOG_SUSP_SEL.CORE; 10 bits; R372; reset 0x000 -/
  suspSel : BitVec 10 := 0
  /-- LOG_DIE_SEL.SITE; 6 bits; R372; reset 0x00 -/
  dieSel : BitVec 6 := 0
  /-- Dies by site; 64; R361; reset level 0 -/
  dies : Table Die := []
  /-- LOG_AUDIT.PERIOD_US; 32 bits; R372; reset 0x0000_03E8 -/
  auditUs : BitVec 32 := 0x3E8
  /-- FT of the last audit sample; 64 bits; R368; reset 0 (DESIGN CHOICE, log 7) -/
  lastAudit : FT := 0
  /-- Consecutive samples in disagreement, keyed 2^24 x KIND + INDEX; R368; reset 0 -/
  disagree : Table Nat := []
  /-- Fenced units, keyed 2^24 x KIND + INDEX; R369; reset none -/
  fenced : Table Bool := []
  /-- LOG_FENCE_SEL.KIND; 4 bits; R372; reset 0x0 -/
  fenceKind : BitVec 4 := 0
  /-- LOG_FENCE_SEL.INDEX; 24 bits; R372; reset 0 -/
  fenceIdx : BitVec 24 := 0
  /-- LOG_RCV.RUNS; 16 bits; R372; reset 0x0000 -/
  rcvRuns : BitVec 16 := 0
  /-- LOG_RCV.CAUSE; 8 bits; R372; reset 0x00 -/
  rcvCause : BitVec 8 := 0
  /-- LOG_RCV.STEP; 4 bits; R372; reset 0x0 -/
  rcvStep : BitVec 4 := 0
  /-- Local memory regions whose failure led to RECOVERY, as base and length in scratchpad (0) or cluster (1) space, or as a tile of the accumulators (2); R371; reset empty -/
  badLocal : List (Nat × Nat × Nat) := []
  /-- Extents with no surviving entry; R371; reset empty -/
  badExt : List Nat := []
  /-- Corrections of each stack in the present second: its start and count; R356; reset 0 -/
  ceRun : Table (FT × Nat) := []
  /-- FT of the last sensor sample; 64 bits; R424; reset 0 (DESIGN CHOICE, log 7) -/
  lastSensor : FT := 0
  /-- GLB_U_ERR of units, by SRC: the last entry's sequence number, class and FT, and ERR_V; R407; reset 0 -/
  unitErr : Table (BitVec 32 × BitVec 8 × BitVec 64 × Bool) := []
  /-- LOG_CNT_CE; 64 bits; R372; reset 0 -/
  cntCe : BitVec 64 := 0
  /-- LOG_CNT_UE; 64 bits; R372; reset 0 -/
  cntUe : BitVec 64 := 0
  /-- LOG_CNT_POISON; 64 bits; R372; reset 0 -/
  cntPoison : BitVec 64 := 0
  /-- LOG_CNT_OVERWR; 64 bits; R372; reset 0 -/
  cntOverwr : BitVec 64 := 0
  /-- LOG_CNT_SAT.SAT; 4 bits; R372; reset 0 -/
  sat : BitVec 4 := 0
  deriving DecidableEq, Repr

/-! ### Device states and the module's pins (chapters 16 and 18) -/

/-- Device states of Table 16-1. -/
inductive ModState where
  | off | boot | test | service | recovery | drain | halt
  deriving DecidableEq, Repr

/-- MOD_ registers, the hot-swap controller and the sensors (R373 to R388, R411 to R424). -/
structure Module where
  /-- MOD_STATE.STATE; 3 bits; R388; reset 0b001 -/
  state : ModState := .boot
  /-- MOD_STATE.PREV; 3 bits; R388; reset 0b000 -/
  prev : ModState := .off
  /-- MOD_STATE.PRES1; 1 bit; R388; reset 1 -/
  pres1 : Bool := true
  /-- MOD_STATE.PRES2; 1 bit; R388; reset 1 -/
  pres2 : Bool := true
  /-- MOD_STATE.ATTN_REQ; 1 bit; R388; reset 0 -/
  attnReq : Bool := false
  /-- MOD_STATE.BOOT_READY; 1 bit; R388; reset 0 -/
  bootReady : Bool := false
  /-- MOD_STATE.TEST_DONE; 1 bit; R388; reset 0 -/
  testDone : Bool := false
  /-- MOD_STATE.READY_TO_REMOVE, driven on the READY_TO_REMOVE pin too; 1 bit; R388, R417; reset 0 -/
  ready : Bool := false
  /-- MOD_STATE.BOOT_STEP; 4 bits; R388; reset 0x0 -/
  bootStep : BitVec 4 := 0
  /-- MOD_STATE.CAUSE; 8 bits; R388; reset 0x00 -/
  cause : BitVec 8 := 0
  /-- MOD_STATE.RESULT; 6 bits; R388; reset 0x00 -/
  result : BitVec 6 := 0
  /-- MOD_STATE_FT.CHANGE_FT; 64 bits; R388; reset 0 -/
  changeFt : BitVec 64 := 0
  /-- MOD_DRAIN.LOST_SECT; 31 bits; R388; reset 0 -/
  lostSect : Nat := 0
  /-- The boot or TEST step running has failed once (R375, R370); 1 bit; R375; reset 0 -/
  stepFailed : Bool := false
  /-- Work of TEST completed: bit 0 self-test pass, bit 1 margin scan and audit; 2 bits; R376; reset 0 -/
  testWork : BitVec 2 := 0
  /-- Last DRAIN step completed (Table 16-5); 3 bits; R382; reset 0 -/
  drainStep : Nat := 0
  /-- Main input path closed; 1 bit; R384; reset 1 (DESIGN CHOICE, log 5) -/
  mainPath : Bool := true
  /-- Pre-charge complete; 1 bit; R384; reset 1 (DESIGN CHOICE, log 5) -/
  precharged : Bool := true
  /-- Power-good; 1 bit; R385; reset 1 (DESIGN CHOICE, log 5) -/
  powerGood : Bool := true
  /-- PERSTN_B00 to PERSTN_B15 asserted; 16 bits; R416; reset all-ones -/
  perst : BitVec 16 := 0xFFFF
  /-- FT at which each link-reset pulse of PERSTN ends; R416; reset none -/
  perstTo : Table Nat := []
  /-- Bridge reference clock running; 1 bit; R416; reset 1 -/
  refClk : Bool := true
  /-- OPT_RSTN released; 1 bit; R417; reset 0 -/
  optRstn : Bool := false
  /-- FT at which a pulse of OPT_RSTN ends; 64 bits; R419; reset 0 (DESIGN CHOICE, log 7) -/
  optPulse : FT := 0
  /-- MOD_SENSE.VIN; 16 bits; R424; reset 0x0000 -/
  vin : BitVec 16 := 0
  /-- MOD_SENSE.IIN; 16 bits; R424; reset 0x0000 -/
  iin : BitVec 16 := 0
  /-- MOD_SENSE.T_OUT; 8 bits; R424; reset 0x00 -/
  tOut : BitVec 8 := 0
  /-- MOD_SENSE.T_IN; 8 bits; R424; reset 0x00 -/
  tIn : BitVec 8 := 0
  /-- MOD_SENSE.FLOW; 8 bits; R424; reset 0x00 -/
  flow : BitVec 8 := 0
  /-- MOD_SENSE bits FLOW_LOW, VIN_HIGH, TIN_HIGH and TIN_LOW; 4 bits; R424; reset 0 -/
  senseBits : BitVec 4 := 0
  deriving DecidableEq, Repr

/-! ### Management link, events and global registers (chapter 17) -/

/-- ADK link states (R392). -/
inductive AdkState where
  | down | training | init | up
  deriving DecidableEq, Repr

/-- A request or response frame of the ADK link (Table 17-1). -/
structure AdkFrame where
  ty : BitVec 8
  status : BitVec 6
  tag : BitVec 16
  addr : BitVec 48
  /-- ESEQ_LO -/
  eseqLo : BitVec 16 := 0
  /-- LEN, in words -/
  len : Nat := 0
  words : List (BitVec 64)
  /-- Of a request, what the CX64 sets or counts in the cycle in which it is performed: increments of an RC field, RW1C bits (R6) -/
  cycle : BitVec 64 := 0
  /-- Of a request, that it breaks a form of R394 -/
  bad : Bool := false
  deriving DecidableEq, Repr

/-- An event record (Table 17-5). -/
structure Event where
  ft : BitVec 64
  src : BitVec 16
  code : BitVec 8
  detail : BitVec 8
  flags : BitVec 8
  logSeq : BitVec 32
  eseq : BitVec 32
  param : BitVec 64
  deriving DecidableEq, Repr

/-- The ADK link endpoint on SD0 (R389 to R397). -/
structure Adk where
  /-- GLB_ADK_STATUS.STATE; 2 bits; R408; reset 0b00 -/
  state : AdkState := .down
  /-- GLB_ADK_STATUS.RETRAINS; 32 bits; R408; reset 0 -/
  retrains : BitVec 32 := 0
  /-- FT at which the training attempt began; 64 bits; R392; reset 0 (DESIGN CHOICE, log 7) -/
  trainAt : FT := 0
  /-- SEQ of the next frame sent; 12 bits; R390; reset 0 -/
  txSeq : BitVec 12 := 0
  /-- Frames sent and not acknowledged, oldest first; at most 64; R392; reset empty -/
  unacked : List (BitVec 12 × AdkFrame) := []
  /-- Frames waiting for room among the 64, oldest first; R392; reset empty -/
  outq : List AdkFrame := []
  /-- FT of the last advance of ACK_SEQ; 64 bits; R392; reset 0 (DESIGN CHOICE, log 7) -/
  ackAt : FT := 0
  /-- Replays without progress; R392; reset 0 -/
  replays : Nat := 0
  /-- SEQ next expected from the adapter; 12 bits; R390; reset 0 -/
  rxSeq : BitVec 12 := 0
  /-- A frame has been received good and in order since power-up (ACK_V); 1 bit; R391; reset 0 -/
  rxAny : Bool := false
  /-- FT of the oldest frame received and not yet acknowledged by a LINKCTL; R391; reset none -/
  owedAck : Option FT := none
  /-- A frame after ACK_SEQ failed (NAK owed); 1 bit; R391; reset 0 -/
  nak : Bool := false
  /-- Last LINKCTL sent; 64 bits; R391; reset 0 (DESIGN CHOICE, log 7) -/
  linkctlOut : BitVec 64 := 0
  /-- Event credit limit advertised by the adapter, modulo 65,536; 16 bits; R402; reset 0 -/
  evInit : BitVec 16 := 0
  /-- Cumulative EV_CREDIT since INIT; 16 bits; R402; reset 0 -/
  evCredit : BitVec 16 := 0
  /-- Records sent since the last INIT; 16 bits; R402; reset 0 -/
  evSent : BitVec 16 := 0
  /-- Last request performed on each TAG and its response; 32; R397; reset none -/
  kept : List (Nat × AdkFrame × AdkFrame) := []
  /-- Tags not yet used since an INIT with RESET; 32 bits; R397; reset 0 -/
  fresh : BitVec 32 := 0
  /-- Requests received and not yet answered (GLB_ADK_STATUS.OUTSTANDING), by TAG; R408; reset none -/
  outstanding : List AdkFrame := []
  /-- Of the requests received and not yet answered, those that wait behind the one that is being performed; R395; reset 0 -/
  behind : Nat := 0
  /-- GLB_ADK_CNT_CRC; 64 bits; R408; reset 0 -/
  cntCrc : BitVec 64 := 0
  /-- GLB_ADK_CNT_REPLAY; 64 bits; R408; reset 0 -/
  cntReplay : BitVec 64 := 0
  /-- GLB_ADK_CNT_SAT.SAT; 3 bits; R408; reset 0 -/
  sat : BitVec 3 := 0
  deriving DecidableEq, Repr

/-- The event queue (R401 to R404). -/
structure Events where
  /-- Event queue records, oldest first; at most 4,096 x 32 bytes; R401; reset empty -/
  queue : List Event := []
  /-- Records at the head already sent in EVT frames not yet acknowledged; 13 bits; R402; reset 0 -/
  sent : Nat := 0
  /-- GLB_EVQ_STATUS.ESEQ_NEXT; 32 bits; R408; reset 0 -/
  eseqNext : BitVec 32 := 0
  /-- GLB_EVQ_MASK0 to 3; 256 bits; R408; reset 0 -/
  mask : BitVec 256 := 0
  /-- Events discarded since the last record of code 0x7F; 32 bits; R403; reset 0 -/
  lost : Nat := 0
  /-- GLB_EVQ_CNT_LOST; 64 bits; R408; reset 0 -/
  cntLost : BitVec 64 := 0
  deriving DecidableEq, Repr

/-- The GLB_ registers (R407 to R410, R227). -/
structure Global where
  /-- GLB_ID.DEVICE_ID; 64 bits; R408; reset 0x0000_0000_0000_0001 (DESIGN CHOICE, log 6) -/
  deviceId : BitVec 64 := 1
  /-- GLB_VERSION.STEP; 8 bits; R408; reset 0x00 (DESIGN CHOICE, log 6) -/
  stepping : BitVec 8 := 0
  /-- GLB_LOCATION RACK, SHELF, SLOT and ASSET; 64 bits; R408; reset 0 (DESIGN CHOICE, log 6) -/
  location : BitVec 64 := 0
  /-- GLB_PWR_CAP.AVG_W; 16 bits; R408; reset 0 -/
  avgW : BitVec 16 := 0
  /-- GLB_PWR_CAP.CAPPED; 2 bits; R408; reset 0b00 -/
  capped : BitVec 2 := 0
  /-- GLB_PWR_CAP.CAP_W; 16 bits; R408; reset 0x2648 (never set) -/
  capW : BitVec 16 := 0x2648
  /-- FT of the last change of CAPPED; 64 bits; R409; reset 0 -/
  capAt : FT := 0
  /-- FT since which AVG_W has stayed below 95 % of CAP_W; R409; reset none -/
  coolFrom : Option FT := none
  /-- GLB_TIMEOUTS.TGT_LIMIT_US; 16 bits; R408; reset 0x00FA -/
  tgtUs : BitVec 16 := 0x00FA
  /-- GLB_MODULE.UNIT_ID; 16 bits; R408; reset 0xFFFF -/
  unitId : BitVec 16 := 0xFFFF
  /-- GLB_SHADOW.RATE_LOG2; 5 bits; R227; reset 0x10 -/
  rateLog2 : BitVec 5 := 0x10
  /-- GLB_SHADOW GFE_EN, VE_EN and MXE_EN; 3 bits; R227; reset 0b111 -/
  shadowEn : BitVec 3 := 0b111
  /-- GLB_SHADOW.SAT; 2 bits; R227; reset 0b00 -/
  shadowSat : BitVec 2 := 0
  /-- GLB_SHADOW_CMP; 64 bits; R227; reset 0 -/
  shadowCmp : BitVec 64 := 0
  /-- GLB_SHADOW_MIS; 64 bits; R227; reset 0 -/
  shadowMis : BitVec 64 := 0
  /-- GLB_SPARE_MAP0 to 3; 32 x 6 bits; R410; reset the map in use -/
  spareMap : Table (BitVec 6) := []
  /-- GLB_SPARE_STATUS.RESULT; 6 bits; R410; reset 0x00 -/
  spareRes : BitVec 6 := 0
  /-- GLB_SPARE_STATUS.IN_USE; 2 bits; R410; reset 0 (DESIGN CHOICE, log 6) -/
  spareUse : BitVec 2 := 0
  /-- GLB_MAKER_MODE.TARGET; 8 bits; R410; reset 0x00 -/
  makerTgt : BitVec 8 := 0
  /-- GLB_MAKER_MODE.MODE; 8 bits; R410; reset 0x00 -/
  makerMode : BitVec 8 := 0
  /-- GLB_MAKER_DIAG.ERRORS; 32 bits; R410; reset 0 -/
  makerErrs : BitVec 32 := 0
  /-- GLB_MAKER_DIAG.LOCKED; 1 bit; R410; reset 0 -/
  makerLock : Bool := false
  deriving DecidableEq, Repr

/-! ### The machine -/

/-- The whole state of the block. -/
structure State where
  /-- Commands waiting, first in first out (the model's own field) -/
  pending : List Instr := []
  /-- Count of free values drawn (the model's own field, not the spec's); reset 0 (DESIGN CHOICE, log 10) -/
  free : Nat := 0
  hb : Heartbeat := {}
  pkg : Package := {}
  tim : Tim := {}
  /-- Rim ports P000 to P255; 256; R8; reset as Port -/
  ports : Table Port := []
  /-- Bridles, keyed 512 x port die + bridle; 16 x 512; R290; reset as Bridle -/
  bridles : Table Bridle := []
  req : Traffic4 := {}
  coh : Coherence := {}
  ext : Extents := {}
  lse : Leases := {}
  adm : Gatehouse := {}
  tier : Tiers := {}
  xl : Xlate := {}
  cmp : Cmp := {}
  cpu : Compute := {}
  clv : Collectives := {}
  atn : Attention := {}
  comp : Composition := {}
  sec : Security := {}
  log : Log := {}
  mod : Module := {}
  adk : Adk := {}
  evq : Events := {}
  glb : Global := {}
  deriving DecidableEq, Repr

/-- Why the machine would stop. No command of this block stops it: every rule of the spec that turns an input away says
what happens instead, so this type has no constructor. -/
inductive Fault where
  deriving DecidableEq, Repr

/-- Why a command has no meaning. -/
inductive Refusal where
  /-- The command is not modelled yet; raised by `exec` alone, before any effect, so it is safe -/
  | notModelled (mnemonic : String)
  deriving DecidableEq, Repr

/-- Spare-map slot 0 as programmed at manufacturing test: ascending order with CD15 and CD26 the spares (log 6). -/
def fusedMap : List (BitVec 6) :=
  [0, 1, 2, 3, 4, 5, 6, 7, 8, 9, 10, 11, 12, 13, 14,
   16, 17, 18, 19, 20, 21, 22, 23, 24, 25,
   27, 28, 29, 30, 31, 32, 33]

/-- The machine just after power-good: BOOT, no step completed (R375, R385, log 5). -/
def State.reset : State :=
  { pkg := { spareSlots := [(fusedMap, 0xaba1)], lcMap := [] }
    sec := { banks := [(0, { ok := true })] } }

end Sys2Proof.Machine
end

