-- ==== Sys2Proof/Machine/Ops.lean ====
section
/-! DEFINITION. The operations that the meanings share: sparse tables, bytes and checks, time, the trouble log, events and
the counters that stick. -/

namespace Sys2Proof

/-- The entry under `k`, or `d`. -/
def Table.read {α : Type} (d : α) : Table α → Nat → α
  | [], _ => d
  | (j, v) :: t, k => if k = j then v else Table.read d t k

/-- The table without an entry under `k`. -/
def Table.erase {α : Type} (t : Table α) (k : Nat) : Table α := t.filter (fun e => e.1 != k)

/-- The table with the entry `(k, v)` in its place. -/
def Table.put {α : Type} : Table α → Nat → α → Table α
  | [], k, v => [(k, v)]
  | (j, w) :: t, k, v =>
    if k < j then (k, v) :: (j, w) :: t
    else if k = j then (k, v) :: t
    else (j, w) :: Table.put t k v

/-- The table with `v` under `k`, in canonical form. -/
def Table.write {α : Type} [DecidableEq α] (d : α) (t : Table α) (k : Nat) (v : α) : Table α :=
  if v = d then t.erase k else t.put k v

/-- The table with a function applied to every listed entry. -/
def Table.mapAll {α : Type} [DecidableEq α] (d : α) (f : Nat → α → α) (t : Table α) : Table α :=
  t.foldr (fun e acc => Table.write d acc e.1 (f e.1 e.2)) []

/-- `a` put in its place in a list in order, ahead of what equals it. -/
def insertBy {α : Type} (le : α → α → Bool) (a : α) : List α → List α
  | [] => [a]
  | b :: l => if le a b then a :: b :: l else b :: insertBy le a l

/-- A list in order; equal elements keep their order. -/
def sortBy {α : Type} (le : α → α → Bool) : List α → List α
  | [] => []
  | a :: l => insertBy le a (sortBy le l)

/-- The whole part of the square root of a number below 4^n. -/
def sqrtBits : Nat → Nat → Nat
  | 0, _ => 0
  | n + 1, v =>
    let r := 2 * sqrtBits n (v / 4)
    if (r + 1) * (r + 1) ≤ v then r + 1 else r

/-- The canonical form: numbers rising, no default listed. -/
def Table.wf {α : Type} [DecidableEq α] (d : α) : Table α → Bool
  | [] => true
  | [(_, v)] => !decide (v = d)
  | (j, v) :: (k, w) :: t => !decide (v = d) && decide (j < k) && Table.wf d ((k, w) :: t)

/-- One byte of a memory. -/
def Memory.byte (m : Memory) (a : Nat) : Byte := Table.read (0 : Byte) m a

/-- The memory with one byte written. -/
def Memory.put (m : Memory) (a : Nat) (b : Byte) : Memory := Table.write (0 : Byte) m a b

/-- `n` bytes from `a`. -/
def Memory.bytes (m : Memory) (a n : Nat) : List Byte := (List.range n).map (fun i => m.byte (a + i))

/-- The memory with bytes written from `a`. -/
def Memory.write (m : Memory) (a : Nat) : List Byte → Memory
  | [] => m
  | b :: bs => Memory.write (m.put a b) (a + 1) bs

/-- The canonical form of a memory. -/
def Memory.wf (m : Memory) : Bool := Table.wf (0 : Byte) m

/-- The little-endian value of bytes (R2). -/
def leNat : List Byte → Nat
  | [] => 0
  | b :: bs => b.toNat + 256 * leNat bs

/-- `n` little-endian bytes of a value (R2). -/
def leBytes : Nat → Nat → List Byte
  | 0, _ => []
  | n + 1, v => BitVec.ofNat 8 v :: leBytes n (v / 256)

/-- Bytes `i` to `i + n - 1` of a list as a little-endian value; bytes past its end are 0. -/
def field (bs : List Byte) (i n : Nat) : Nat := leNat (bs.drop i |>.take n)

/-- Bit `i` of a number. -/
def bit (v i : Nat) : Bool := v.testBit i

/-- Bits `hi` to `lo` of a number. -/
def bits (v hi lo : Nat) : Nat := v / 2 ^ lo % 2 ^ (hi - lo + 1)

/-- A truth value as a number. -/
def b2n (b : Bool) : Nat := if b then 1 else 0

/-- The two's complement value of `n` bits. -/
def sint (n v : Nat) : Int := if 2 * v < 2 ^ n then v else (v : Int) - 2 ^ n

/-- An integer modulo 2^n. -/
def wrap (n : Nat) (i : Int) : Nat := (i % (2 : Int) ^ n).toNat

/-- `n` copies of a byte. -/
def fill (n : Nat) (b : Byte) : List Byte := List.replicate n b

/-- The list with its element `i` replaced. -/
def setAt {α : Type} (l : List α) (i : Nat) (v : α) : List α := l.set i v

/-- `xs` with `ys` written over it from position `i`. -/
def splice (xs : List Byte) (i : Nat) (ys : List Byte) : List Byte :=
  xs.take i ++ ys ++ xs.drop (i + ys.length)

/-- The list cut into pieces of `n`. -/
def chunks {α : Type} (n : Nat) : Nat → List α → List (List α)
  | 0, _ => []
  | k + 1, xs => xs.take n :: chunks n k (xs.drop n)

/-- One step of a CRC-16 with polynomial 0x1021, most significant bit first. -/
def crc16Bits : Nat → Nat → Nat
  | 0, c => c
  | k + 1, c => crc16Bits k (if 32768 ≤ c then (2 * c % 65536) ^^^ 0x1021 else 2 * c)

/-- CRC-16 of bytes: polynomial 0x1021, initial value 0xFFFF (R12, R38, R54). -/
def crc16 (bs : List Byte) : Nat :=
  bs.foldl (fun c b => crc16Bits 8 (c ^^^ (b.toNat * 256))) 0xFFFF

/-- Eight steps of the reflected CRC-32C. -/
def crc32cBits : Nat → Nat → Nat
  | 0, c => c
  | k + 1, c => crc32cBits k (if c % 2 = 1 then (c / 2) ^^^ 0x82F63B78 else c / 2)

/-- CRC-32C of bytes (R66). -/
def crc32c (bs : List Byte) : Nat :=
  (bs.foldl (fun c b => crc32cBits 8 (c ^^^ b.toNat)) 0xFFFFFFFF) ^^^ 0xFFFFFFFF

/-- FLAGS bits (Table 03-6). -/
def flCmpr : BitVec 8 := 0x80
def flCe : BitVec 8 := 0x40
def flCeEcho : BitVec 8 := 0x20
def flFwd : BitVec 8 := 0x10
def flPhys : BitVec 8 := 0x08
/-- A flag is set. -/
def Frame.has (f : Frame) (m : BitVec 8) : Bool := f.flags &&& m != 0
/-- SUB of FLAGS. -/
def Frame.sub (f : Frame) : Nat := f.flags.toNat % 8
/-- Set a flag. -/
def Frame.set (f : Frame) (m : BitVec 8) : Frame := { f with flags := f.flags ||| m }
/-- Clear a flag. -/
def Frame.clear (f : Frame) (m : BitVec 8) : Frame := { f with flags := f.flags &&& ~~~m }

/-- Header of a frame as 32 bytes, with its HCRC (Table 03-5). -/
def Frame.header (f : Frame) : List Byte :=
  let v := f.dst.toNat + f.src.toNat * 2 ^ 16 + f.opcode.toNat * 2 ^ 32 + f.vc.toNat * 2 ^ 40 + f.tenant.toNat * 2 ^ 43 + f.epoch.toNat * 2 ^ 53
    + f.hops.toNat * 2 ^ 57 + f.colour.toNat * 2 ^ 61 + f.addr.toNat * 2 ^ 64 + f.length.toNat * 2 ^ 120 + f.tag.toNat * 2 ^ 128
    + f.status.toNat * 2 ^ 141 + f.flags.toNat * 2 ^ 147 + f.handle.toNat * 2 ^ 155
  let b := leBytes 30 v
  b ++ leBytes 2 (crc16 b)

/-- The HCRC of a frame (Table 03-5). -/
def Frame.hcrc (f : Frame) : BitVec 16 := BitVec.ofNat 16 (leNat (f.header.drop 30))

/-- The trailer of a frame sent with a link sequence number, as 8 bytes: LSEQ, and the CRC-32C over the header, the payload and
bits [31:0] of the trailer (R66). -/
def Frame.trailer (f : Frame) (lseq : BitVec 12) : List Byte :=
  let low := leBytes 4 lseq.toNat
  low ++ leBytes 4 (crc32c (f.header ++ f.payload ++ low))

/-- The CRC-32C of the trailer. -/
def Frame.linkCrc (f : Frame) (lseq : BitVec 12) : BitVec 32 := BitVec.ofNat 32 (leNat ((f.trailer lseq).drop 4))

/-- Bits [239:0] of a link control word, as 30 bytes (Table 03-2). -/
def Lcw.low (w : Lcw) : List Byte :=
  leBytes 4 (w.typ.toNat + w.ackSeq.toNat * 2 ^ 4 + (if w.ackV then 2 ^ 16 else 0))
    ++ (List.range 8).flatMap (fun v => leBytes 2 (w.credits.getD v 0).toNat) ++ List.replicate 10 0

/-- The word with the LCRC that R54 gives it. -/
def Lcw.sealed (w : Lcw) : Lcw := { w with lcrc := BitVec.ofNat 16 (crc16 w.low) }

/-- A link control word whose LCRC fails is discarded (R54). -/
def Lcw.good (w : Lcw) : Bool := w.lcrc.toNat == crc16 w.low

/-- Bits [47:0] of a LINKCTL block (Table 17-2). -/
def LinkCtl.low (w : LinkCtl) : Nat :=
  let bit := fun (b : Bool) (n : Nat) => if b then 2 ^ n else 0
  0xC3 + w.ackSeq.toNat * 2 ^ 8 + bit w.ackV 20 + bit w.nak 21 + bit w.init 22 + bit w.reset 23 + w.evCredit.toNat * 2 ^ 24

/-- The LCRC of the low 48 bits of a LINKCTL, highest bit first (R391, log 118). -/
def ctlCrc (low : Nat) : Nat := crc16 (leBytes 6 low).reverse

/-- A LINKCTL whose LCRC fails is discarded (R391). -/
def LinkCtl.good (w : LinkCtl) : Bool := w.lcrc.toNat == ctlCrc w.low

/-- The device and its link are what Table 07-3 supports. -/
def CxlDevice.ok (d : CxlDevice) : Bool :=
  d.type3 && d.direct && d.single && d.static && d.lanes == 16 && d.rate == 64 && d.flit256 && d.ioMem && d.hdmH

namespace Machine

/-! ### Time -/

/-- One nanosecond, microsecond, millisecond and second of FT in sixteenths (R35). -/
def nsT : Nat := 16
def usT : Nat := 16 * 1000
def msT : Nat := 16 * 1000000
def secT : Nat := 16 * 1000000000

/-- FT at SD1. -/
def State.now (s : State) : FT := s.tim.ft

/-- The local counter of the die at a site: SD1's with the die's offset, never below the value that it has reached (R36, R37). -/
def State.dieFt (s : State) (x : Nat) : FT :=
  max (Table.read 0 s.tim.dieFloor x) ((s.tim.ft : Int) + (Table.read (0 : BitVec 8) s.tim.dieOff x).toInt).toNat

/-- A level that has been stable since FT `since` counts after a debounce (R3, R340, R341, R428). -/
def State.stable (s : State) (since : BitVec 64) (wait : Nat) : Bool := decide (since.toNat + wait ≤ s.now)

/-- The debounce of PRES_BTN, ATTN_BTN, the seal loop and MAKER_JMP: 20 ms (R340, R341, R417). -/
def debounceT : Nat := 20 * msT

/-- A grid point of a period lies after `last` and not after `t` (R45, R47, log 3). -/
def gridDue (period last t : Nat) : Bool := decide (0 < period) && decide (last / period < t / period)

/-! ### Dies and sources -/

/-- Site of port die k (R9). -/
def pdSite (k : Nat) : Nat := if k < 8 then 8 * k else 8 * (k - 8) + 7
/-- Site of memory hub m. -/
def mdSite (m : Nat) : Nat := if m < 4 then 2 + m else 58 + (m - 4)
/-- Site of bridge die k. -/
def bdSite (k : Nat) : Nat := [1, 6, 57, 62].getD k 1
/-- Site of physical compute die n. -/
def cdSite (n : Nat) : Nat :=
  if n < 6 then 9 + n else if n < 12 then 11 + n else if n < 14 then 13 + n else if n < 17 then 14 + n
  else if n < 20 then 16 + n else if n < 22 then 17 + n else if n < 28 then 19 + n else 21 + n
/-- Sites of the steward dies. -/
def sd0Site : Nat := 27
def sd1Site : Nat := 36
/-- Every site that holds a compute die. -/
def isCdSite (x : Nat) : Bool := (List.range 34).any (fun n => cdSite n == x)
/-- Physical die of LCn in the spare map in use (R12); 0x3F before boot step 3. -/
def State.lcPhys (s : State) (lc : Nat) : Nat := (s.pkg.lcMap.getD lc 0x3F).toNat
/-- Site of LCn. -/
def State.lcSite (s : State) (lc : Nat) : Nat := cdSite (s.lcPhys lc)
/-- LC at a compute site, if it is active. -/
def State.siteLc (s : State) (x : Nat) : Option Nat := (List.range 32).find? (fun lc => s.lcSite lc == x && s.lcPhys lc != 0x3F)
/-- Site of the port die of port p. -/
def portSite (p : Nat) : Nat := pdSite (p / 16)
/-- LC of core k, and its cluster among the 128 (R8). -/
def lcOf (k : Nat) : Nat := k / 32
def clusterOf (k : Nat) : Nat := k / 8

/-- SRC codes of Table 15-10. -/
def src (ty idx : Nat) : BitVec 16 := BitVec.ofNat 16 (ty * 4096 + idx % 4096)
def srcModule : BitVec 16 := 0
def srcLC (i : Nat) : BitVec 16 := src 1 i
def srcSD (i : Nat) : BitVec 16 := src 5 i
def srcK (i : Nat) : BitVec 16 := src 6 i
def srcHS (i : Nat) : BitVec 16 := src 7 i
def srcST (i : Nat) : BitVec 16 := src 8 i
def srcP (i : Nat) : BitVec 16 := src 9 i
def srcB (i : Nat) : BitVec 16 := src 10 i
def srcTC (i : Nat) : BitVec 16 := src 12 i
def srcPV (i : Nat) : BitVec 16 := src 13 i
def srcDom (i : Nat) : BitVec 16 := src 14 i

/-- Site of the die that holds a source, if one does (Table 15-9 TEMP). -/
def State.srcSite (s : State) (x : BitVec 16) : Option Nat :=
  let i := x.toNat % 4096
  match x.toNat / 4096 with
  | 1 => some (s.lcSite i)
  | 2 => some (pdSite i)
  | 3 => some (mdSite i)
  | 4 => some (bdSite i)
  | 5 => some (if i = 0 then sd0Site else sd1Site)
  | 6 => some (s.lcSite (lcOf i))
  | 7 => some (mdSite (i / 16))
  | 8 => some (mdSite (i / 4))
  | 9 => some (portSite i)
  | 10 => some (bdSite (i / 4))
  | 11 => some (portSite (i / 4))
  | 15 => some (cdSite i)
  | _ => none

/-! ### Events (R401 to R404) -/

/-- FLAGS of a log entry or event: FT UNSET and FT LOST. -/
def State.ftFlags (s : State) : BitVec 8 :=
  match s.tim.state with
  | .unset => 1
  | .lost => 2
  | _ => 0

/-- The record that a new event makes. -/
def State.mkEvent (s : State) (code detail : Nat) (sr : BitVec 16) (param logSeq : Nat) : Event :=
  { ft := BitVec.ofNat 64 s.now, src := sr, code := BitVec.ofNat 8 code, detail := BitVec.ofNat 8 detail,
    flags := s.ftFlags, logSeq := BitVec.ofNat 32 logSeq, eseq := s.evq.eseqNext, param := BitVec.ofNat 64 param }

/-- A full queue discards an event: its ESEQ is consumed and the loss counted (R403). When the count sticks, the event
that reports it is discarded with it (R367). -/
def State.loseEvent (s : State) : State :=
  let c := s.evq.cntLost
  let hit := decide (c.toNat + 1 = 2 ^ 64 - 1)
  let n := if hit then 2 else 1
  { s with
    evq := { s.evq with eseqNext := s.evq.eseqNext + BitVec.ofNat 32 n, lost := s.evq.lost + n,
                        cntLost := if c = BitVec.allOnes 64 then c else c + 1 }
    adk := { s.adk with sat := if hit || c = BitVec.allOnes 64 then s.adk.sat ||| 4 else s.adk.sat } }

/-- When room has returned after losses, one record of code 0x7F comes first (R403). -/
def State.noteLost (s : State) : State :=
  if s.evq.lost = 0 ∨ 4096 ≤ s.evq.queue.length then s
  else
    { s with evq := { s.evq with
        queue := s.evq.queue ++ [s.mkEvent 0x7F 0 (srcSD 0) s.evq.lost 0xFFFFFFFF]
        eseqNext := s.evq.eseqNext + 1, lost := 0 } }

/-- Raise an event to the FM (R401 to R404). -/
def State.event (s : State) (code detail : Nat) (sr : BitVec 16) (param : Nat := 0)
    (logSeq : Nat := 0xFFFFFFFF) : State :=
  if s.evq.mask.getLsbD (code % 256) then s
  else
    let s := s.noteLost
    if 4096 ≤ s.evq.queue.length then s.loseEvent
    else
      { s with evq := { s.evq with
          queue := s.evq.queue ++ [s.mkEvent code detail sr param logSeq]
          eseqNext := s.evq.eseqNext + 1 } }

/-! ### Counters that stick (R367) -/

/-- A statistics counter after `n` more: its value, whether it is stuck, and whether it has just stuck. -/
def bump (c : BitVec 64) (n : Nat := 1) : BitVec 64 × Bool × Bool :=
  if c.toNat + n < 2 ^ 64 - 1 then (c + BitVec.ofNat 64 n, false, false)
  else if n = 0 then (c, false, false)
  else (BitVec.allOnes 64, true, decide (c ≠ BitVec.allOnes 64))

/-- A SAT field with bit `i` set where the counter is stuck. -/
def satSet {w : Nat} (sat : BitVec w) (i : Nat) (stuck : Bool) : BitVec w :=
  if stuck then sat ||| (1 <<< i) else sat

/-- The event of a counter that has just stuck (code 0x58). -/
def State.satEvent (s : State) (just : Bool) (i : Nat) (sr : BitVec 16) (addr : Nat) : State :=
  if just then s.event 0x58 i sr addr else s

/-- Management address of a page offset (Table 17-7). -/
def maddr (ty inst page off : Nat) : Nat := ty * 2 ^ 40 + inst * 2 ^ 16 + page * 2 ^ 12 + off

/-- LOG_CNT_CE, UE, POISON and OVERWR by number. -/
def State.countLog (s : State) (i : Nat) : State :=
  let l := s.log
  let c := match i with | 0 => l.cntCe | 1 => l.cntUe | 2 => l.cntPoison | _ => l.cntOverwr
  let b := bump c
  let l := { l with sat := satSet l.sat i b.2.1 }
  let l := match i with
    | 0 => { l with cntCe := b.1 } | 1 => { l with cntUe := b.1 } | 2 => { l with cntPoison := b.1 }
    | _ => { l with cntOverwr := b.1 }
  { s with log := l }.satEvent b.2.2 i (srcSD 0) (maddr 1 0 2 0x0E0)

/-! ### The trouble log (R364 to R366) -/

/-- Junction temperature that an entry of a source carries. -/
def State.srcTemp (s : State) (sr : BitVec 16) : BitVec 8 :=
  match s.srcSite sr with
  | some x => (Table.read {} s.log.dies x).temp
  | none => 0x80

/-- Classes that R366 never merges. -/
def neverMerged (cls : Nat) : Bool := [0x0E, 0x0F, 0x10, 0x12, 0x13, 0x15, 0x18].contains cls

/-- The entry into which a new one of this source, class and detail merges. -/
def State.mergeInto (s : State) (cls detail : Nat) (sr : BitVec 16) : Option Nat :=
  if neverMerged cls then none
  else (s.log.entries.reverse.find? (fun e =>
    e.2.src == sr && e.2.cls.toNat == cls && e.2.detail.toNat == detail && decide (s.now ≤ e.2.ft.toNat + msT)
      && decide (e.2.ft.toNat ≤ s.now))).map (·.1)

/-- Append an entry, overwriting the oldest of 16,384 (R364), and note it for its unit (R407). -/
def State.appendLog (s : State) (cls detail : Nat) (sr : BitVec 16) (param : Nat) : State :=
  let e : LogEntry :=
    { ft := BitVec.ofNat 64 s.now, src := sr, cls := BitVec.ofNat 8 cls, detail := BitVec.ofNat 8 detail,
      flags := s.ftFlags, repeats := 0, temp := s.srcTemp sr, param := BitVec.ofNat 128 param }
  let full := decide (16384 ≤ s.log.entries.length)
  let es := (if full then s.log.entries.drop 1 else s.log.entries) ++ [(s.log.wrSeq.toNat, e)]
  let s := { s with log := { s.log with
      entries := es, wrSeq := s.log.wrSeq + 1
      unitErr := Table.write (0, 0, 0, false) s.log.unitErr sr.toNat
        (s.log.wrSeq, BitVec.ofNat 8 cls, BitVec.ofNat 64 s.now, true) } }
  if full then s.countLog 3 else s

/-- Raise REPEAT of an entry (R366). -/
def State.repeatLog (s : State) (seq : Nat) : State :=
  { s with log := { s.log with entries := s.log.entries.map (fun e =>
      if e.1 = seq then (e.1, { e.2 with repeats := if e.2.repeats = 0xFF then 0xFF else e.2.repeats + 1 }) else e) } }

/-- Write a trouble-log entry; `mirror` raises the event of its class too, unless it merges (R366, R404). -/
def State.logE (s : State) (cls detail : Nat) (sr : BitVec 16) (param : Nat := 0) (mirror : Bool := false) : State :=
  match s.mergeInto cls detail sr with
  | some q => s.repeatLog q
  | none =>
    let q := s.log.wrSeq.toNat
    let s := s.appendLog cls detail sr param
    if mirror then s.event cls detail sr (param % 2 ^ 64) q else s

/-- Write an entry and raise an event of a code from 0x40 for the same happening (R366). -/
def State.logWith (s : State) (cls detail : Nat) (sr : BitVec 16) (param : Nat)
    (code edetail eparam : Nat) : State :=
  let q := (s.mergeInto cls detail sr).getD s.log.wrSeq.toNat
  (s.logE cls detail sr param).event code edetail sr eparam q

/-! ### The counters of the other blocks (R367) -/

/-- A GLB counter event source is SD0. -/
def State.countSec (s : State) (i : Nat) : State :=
  let l := s.sec
  let c := match i with | 0 => l.cntDbg | 1 => l.cntDeny | 2 => l.cntRetired | _ => l.cntTagMis
  let b := bump c
  let l := { l with sat := satSet l.sat i b.2.1 }
  let l := match i with
    | 0 => { l with cntDbg := b.1 } | 1 => { l with cntDeny := b.1 } | 2 => { l with cntRetired := b.1 }
    | _ => { l with cntTagMis := b.1 }
  { s with sec := l }.satEvent b.2.2 i (srcSD 0) (maddr 1 0 1 0x220)

/-- EXT_CNT_REVOKED and EXT_CNT_STRAG. -/
def State.countExt (s : State) (i : Nat) (n : Nat := 1) : State :=
  let l := s.ext
  let b := bump (if i = 0 then l.cntRevoked else l.cntStrag) n
  let l := { l with sat := satSet l.sat i b.2.1 }
  let l := if i = 0 then { l with cntRevoked := b.1 } else { l with cntStrag := b.1 }
  { s with ext := l }.satEvent b.2.2 i srcModule (maddr 0 0 2 0x050)

/-- LSE_CNT_RENEW, EXPIRE and REJECT. -/
def State.countLse (s : State) (i : Nat) : State :=
  let l := s.lse
  let b := bump (match i with | 0 => l.cntRenew | 1 => l.cntExpire | _ => l.cntReject)
  let l := { l with sat := satSet l.sat i b.2.1 }
  let l := match i with
    | 0 => { l with cntRenew := b.1 } | 1 => { l with cntExpire := b.1 } | _ => { l with cntReject := b.1 }
  { s with lse := l }.satEvent b.2.2 i (srcSD 1) (maddr 2 0 2 0x058)

/-- TRN_CNT_WALK, FAULT, PROMOTE, DEMOTE, HELD and RESTORE. -/
def State.countTrn (s : State) (i : Nat) : State :=
  let l := s.xl
  let b := bump (match i with
    | 0 => l.cntWalk | 1 => l.cntFault | 2 => l.cntPromote | 3 => l.cntDemote | 4 => l.cntHeld | _ => l.cntRestore)
  let l := { l with sat := satSet l.sat i b.2.1 }
  let l := match i with
    | 0 => { l with cntWalk := b.1 } | 1 => { l with cntFault := b.1 } | 2 => { l with cntPromote := b.1 }
    | 3 => { l with cntDemote := b.1 } | 4 => { l with cntHeld := b.1 } | _ => { l with cntRestore := b.1 }
  { s with xl := l }.satEvent b.2.2 i srcModule (maddr 0 0 3 0x0F0)

/-- CMP_CNT_BLK, RAW, SAVED, BAD and REBUILD. -/
def State.countCmp (s : State) (i : Nat) (n : Nat := 1) : State :=
  let l := s.cmp
  let b := bump (match i with
    | 0 => l.cntBlk | 1 => l.cntRaw | 2 => l.cntSaved | 3 => l.cntBad | _ => l.cntRebuild) n
  let l := { l with sat := satSet l.sat i b.2.1 }
  let l := match i with
    | 0 => { l with cntBlk := b.1 } | 1 => { l with cntRaw := b.1 } | 2 => { l with cntSaved := b.1 }
    | 3 => { l with cntBad := b.1 } | _ => { l with cntRebuild := b.1 }
  { s with cmp := l }.satEvent b.2.2 i srcModule (maddr 0 0 4 0x068)

/-- CLV_CNT_DONE, ABORT, STALE and PROTO. -/
def State.countClv (s : State) (i : Nat) : State :=
  let l := s.clv
  let b := bump (match i with | 0 => l.cntDone | 1 => l.cntAbort | 2 => l.cntStale | _ => l.cntProto)
  let l := { l with sat := satSet l.sat i b.2.1 }
  let l := match i with
    | 0 => { l with cntDone := b.1 } | 1 => { l with cntAbort := b.1 } | 2 => { l with cntStale := b.1 }
    | _ => { l with cntProto := b.1 }
  { s with clv := l }.satEvent b.2.2 i srcModule (maddr 0 0 5 0x060)

/-- ATN_CNT_DECODE, KVDROP, PGDROP, PGDEMOTE and SUB. -/
def State.countAtn (s : State) (i : Nat) (n : Nat := 1) : State :=
  let l := s.atn
  let b := bump (match i with
    | 0 => l.cntDecode | 1 => l.cntKvdrop | 2 => l.cntPgdrop | 3 => l.cntPgdemote | _ => l.cntSub) n
  let l := { l with sat := satSet l.sat i b.2.1 }
  let l := match i with
    | 0 => { l with cntDecode := b.1 } | 1 => { l with cntKvdrop := b.1 } | 2 => { l with cntPgdrop := b.1 }
    | 3 => { l with cntPgdemote := b.1 } | _ => { l with cntSub := b.1 }
  { s with atn := l }.satEvent b.2.2 i srcModule (maddr 0 0 6 0x0E8)

/-- CMPO_CNT_APPLY, FWD, RETRY and ROLLBACK. -/
def State.countCmpo (s : State) (i : Nat) : State :=
  let l := s.comp
  let b := bump (match i with | 0 => l.cntApply | 1 => l.cntFwd | 2 => l.cntRetry | _ => l.cntRollback)
  let l := { l with sat := satSet l.sat i b.2.1 }
  let l := match i with
    | 0 => { l with cntApply := b.1 } | 1 => { l with cntFwd := b.1 } | 2 => { l with cntRetry := b.1 }
    | _ => { l with cntRollback := b.1 }
  { s with comp := l }.satEvent b.2.2 i srcModule (maddr 0 0 7 0x160)

/-- GLB_ADK_CNT_CRC and GLB_ADK_CNT_REPLAY. -/
def State.countAdk (s : State) (i : Nat) : State :=
  let l := s.adk
  let b := bump (if i = 0 then l.cntCrc else l.cntReplay)
  let l := { l with sat := satSet l.sat i b.2.1 }
  let l := if i = 0 then { l with cntCrc := b.1 } else { l with cntReplay := b.1 }
  { s with adk := l }.satEvent b.2.2 i (srcSD 0) (maddr 0 0 1 0x0E0)

/-- GLB_SHADOW_CMP and GLB_SHADOW_MIS. -/
def State.countShadow (s : State) (i : Nat) : State :=
  let l := s.glb
  let b := bump (if i = 0 then l.shadowCmp else l.shadowMis)
  let l := { l with shadowSat := satSet l.shadowSat i b.2.1 }
  let l := if i = 0 then { l with shadowCmp := b.1 } else { l with shadowMis := b.1 }
  { s with glb := l }.satEvent b.2.2 i srcModule (maddr 0 0 1 0x040)

/-! ### Ports, cores, domains, extents: the entries of the tables -/

/-- Port or bundle member p. -/
def State.port (s : State) (p : Nat) : Port := Table.read {} s.ports p

/-- Write port p. -/
def State.setPort (s : State) (p : Nat) (v : Port) : State := { s with ports := Table.write {} s.ports p v }

/-- Change the link part of port p. -/
def State.onLink (s : State) (p : Nat) (f : Link → Link) : State :=
  let q := s.port p
  s.setPort p { q with link := f q.link }

/-- Change the traffic-control part of port p. -/
def State.onTc (s : State) (p : Nat) (f : Traffic → Traffic) : State :=
  let q := s.port p
  s.setPort p { q with tc := f q.tc }

/-- Link part of port p. -/
def State.link (s : State) (p : Nat) : Link := (s.port p).link

/-- First member of the bundle of port p, or p (R52). -/
def State.base (s : State) (p : Nat) : Nat := p - (s.link p).bundleOff.toNat

/-- Members of the bundle of port p (R52). -/
def State.members (s : State) (p : Nat) : List Nat :=
  let b := s.base p
  (List.range (2 ^ (s.link b).bundleSize.toNat)).map (b + ·)

/-- Count a PRT_CNT_ register of port p: 0 CRC, 1 REPLAY, 2 DISCARD, 3 LATE, 4 TDEAD. -/
def State.countPrt (s : State) (p i : Nat) (n : Nat := 1) : State :=
  let l := s.link p
  let b := bump (match i with
    | 0 => l.cntCrc | 1 => l.cntReplay | 2 => l.cntDiscard | 3 => l.cntLate | _ => l.cntTdead) n
  let l := { l with sat := satSet l.sat i b.2.1 }
  let l := match i with
    | 0 => { l with cntCrc := b.1 } | 1 => { l with cntReplay := b.1 } | 2 => { l with cntDiscard := b.1 }
    | 3 => { l with cntLate := b.1 } | _ => { l with cntTdead := b.1 }
  (s.onLink p (fun _ => l)).satEvent b.2.2 i (srcP p) (maddr 3 p 1 0x068)

/-- Queue q of port p. -/
def State.queue (s : State) (p q : Nat) : Queue := Table.read {} (s.port p).tc.queues q

/-- Change queue q of port p. -/
def State.onQueue (s : State) (p q : Nat) (f : Queue → Queue) : State :=
  s.onTc p (fun t => { t with queues := Table.write {} t.queues q (f (Table.read {} t.queues q)) })

/-- Count a QUE_CNT_ register: 0 TX, 1 BYTES, 2 CE, 3 OVERRUN. -/
def State.countQue (s : State) (p q i : Nat) (n : Nat := 1) : State :=
  let l := s.queue p q
  let b := bump (match i with | 0 => l.cntTx | 1 => l.cntBytes | 2 => l.cntCe | _ => l.cntOver) n
  let l := { l with sat := satSet l.sat i b.2.1 }
  let l := match i with
    | 0 => { l with cntTx := b.1 } | 1 => { l with cntBytes := b.1 } | 2 => { l with cntCe := b.1 }
    | _ => { l with cntOver := b.1 }
  (s.onQueue p q (fun _ => l)).satEvent b.2.2 i (srcP p) (maddr 3 p 2 (0x100 * q + 0xE0))

/-- Core k, and its change. -/
def State.core (s : State) (k : Nat) : Core := Table.read {} s.cpu.cores k
def State.setCore (s : State) (k : Nat) (v : Core) : State :=
  { s with cpu := { s.cpu with cores := Table.write {} s.cpu.cores k v } }
def State.onCore (s : State) (k : Nat) (f : Core → Core) : State := s.setCore k (f (s.core k))

/-- Thread t of core k, and its change. -/
def State.thread (s : State) (k t : Nat) : Thread := Table.read {} (s.core k).threads t
def State.setThread (s : State) (k t : Nat) (v : Thread) : State :=
  s.onCore k (fun c => { c with threads := Table.write {} c.threads t v })
def State.onThread (s : State) (k t : Nat) (f : Thread → Thread) : State := s.setThread k t (f (s.thread k t))

/-- Engine e of core k, and its change. -/
def State.engine (s : State) (k e : Nat) : Engine := Table.read {} (s.core k).engines e
def State.onEngine (s : State) (k e : Nat) (f : Engine → Engine) : State :=
  s.onCore k (fun c => { c with engines := Table.write {} c.engines e (f (Table.read {} c.engines e)) })

/-- Domain d, and its change. -/
def State.dom (s : State) (d : Nat) : Domain := Table.read {} s.coh.doms d
def State.onDom (s : State) (d : Nat) (f : Domain → Domain) : State :=
  { s with coh := { s.coh with doms := Table.write {} s.coh.doms d (f (s.dom d)) } }

/-- Count a COH_CNT_ register: 0 SNOOP, 1 CINCH, 2 BINV, 3 POISON. -/
def State.countCoh (s : State) (d i : Nat) : State :=
  let l := s.dom d
  let b := bump (match i with | 0 => l.cntSnoop | 1 => l.cntCinch | 2 => l.cntBinv | _ => l.cntPoison)
  let l := { l with sat := satSet l.sat i b.2.1 }
  let l := match i with
    | 0 => { l with cntSnoop := b.1 } | 1 => { l with cntCinch := b.1 } | 2 => { l with cntBinv := b.1 }
    | _ => { l with cntPoison := b.1 }
  (s.onDom d (fun _ => l)).satEvent b.2.2 i (srcDom d) (maddr 4 d 1 0x320)

/-- Extent e, and its change. -/
def State.extent (s : State) (e : Nat) : Extent := Table.read {} s.ext.tab e
def State.setExtent (s : State) (e : Nat) (v : Extent) : State :=
  { s with ext := { s.ext with tab := Table.write {} s.ext.tab e v } }
def State.onExtent (s : State) (e : Nat) (f : Extent → Extent) : State := s.setExtent e (f (s.extent e))

/-- Tier page p and tray t, and their changes. -/
def State.page (s : State) (p : Nat) : TierPage := Table.read {} s.tier.pages p
/-- Cores run work of a tenant as SERVICE cores (Table 14-4). -/
def State.serving (s : State) (ks : List Nat) (t : BitVec 10) : State :=
  ks.foldl (fun (s : State) k => s.onCore k (fun c => if c.ran.contains t then c else { c with ran := t :: c.ran })) s
def State.setPage (s : State) (p : Nat) (v : TierPage) : State :=
  { s with tier := { s.tier with pages := Table.write {} s.tier.pages p v } }
def State.onPage (s : State) (p : Nat) (f : TierPage → TierPage) : State := s.setPage p (f (s.page p))
def State.tray (s : State) (t : Nat) : Tray := Table.read {} s.tier.trays t
def State.setTray (s : State) (t : Nat) (v : Tray) : State :=
  { s with tier := { s.tier with trays := Table.write {} s.tier.trays t v } }
def State.onTray (s : State) (t : Nat) (f : Tray → Tray) : State := s.setTray t (f (s.tray t))

/-- Sector of block b, and its change. -/
def State.sector (s : State) (b : Nat) : Sector := Table.read {} s.tier.sectors b
def State.setSector (s : State) (b : Nat) (v : Sector) : State :=
  { s with tier := { s.tier with sectors := Table.write {} s.tier.sectors b v } }

/-- Collective ID i, group g, handle h, tenant t, and their changes. -/
def State.coll (s : State) (i : Nat) : Coll := Table.read {} s.clv.ids i
def State.setColl (s : State) (i : Nat) (v : Coll) : State :=
  { s with clv := { s.clv with ids := Table.write {} s.clv.ids i v } }
def State.onColl (s : State) (i : Nat) (f : Coll → Coll) : State := s.setColl i (f (s.coll i))
def State.group (s : State) (g : Nat) : Group := Table.read {} s.clv.groups g
def State.onGroup (s : State) (g : Nat) (f : Group → Group) : State :=
  { s with clv := { s.clv with groups := Table.write {} s.clv.groups g (f (s.group g)) } }
def State.handle (s : State) (h : Nat) : Handle := Table.read {} s.atn.handles h
def State.onHandle (s : State) (h : Nat) (f : Handle → Handle) : State :=
  { s with atn := { s.atn with handles := Table.write {} s.atn.handles h (f (s.handle h)) } }
def State.tenant (s : State) (t : Nat) : Tenant := Table.read {} s.sec.tenants t
def State.onTenant (s : State) (t : Nat) (f : Tenant → Tenant) : State :=
  { s with sec := { s.sec with tenants := Table.write {} s.sec.tenants t (f (s.tenant t)) } }
def State.lease (s : State) (i : Nat) : Lease := Table.read {} s.lse.tab i
def State.onLease (s : State) (i : Nat) (f : Lease → Lease) : State :=
  { s with lse := { s.lse with tab := Table.write {} s.lse.tab i (f (s.lease i)) } }
def State.admRec (s : State) (i : Nat) : AdmRecord := Table.read {} s.adm.recs i
def State.onAdm (s : State) (i : Nat) (f : AdmRecord → AdmRecord) : State :=
  { s with adm := { s.adm with recs := Table.write {} s.adm.recs i (f (s.admRec i)) } }
def State.die (s : State) (x : Nat) : Die := Table.read {} s.log.dies x
def State.onDie (s : State) (x : Nat) (f : Die → Die) : State :=
  { s with log := { s.log with dies := Table.write {} s.log.dies x (f (s.die x)) } }
def State.bridle (s : State) (k : Nat) : Bridle := Table.read {} s.bridles k
def State.onBridle (s : State) (k : Nat) (f : Bridle → Bridle) : State :=
  { s with bridles := Table.write {} s.bridles k (f (s.bridle k)) }

/-- Draw the number of a free value (log 10). -/
def State.draw (s : State) : State × Nat := ({ s with free := s.free + 1 }, s.free)

/-- Completion codes of Table 03-10. -/
def stOk : BitVec 6 := 0
def stPoison : BitVec 6 := 1
def stDead : BitVec 6 := 2
def stRevoked : BitVec 6 := 3
def stNoTrans : BitVec 6 := 4
def stKvDropped : BitVec 6 := 5
def stRetry : BitVec 6 := 6
def stDomDown : BitVec 6 := 7
def stRetired : BitVec 6 := 8
def stDenied : BitVec 6 := 9
def stAborted : BitVec 6 := 10
def stMalformed : BitVec 6 := 11

/-- Rank of a code (Table 03-10): the lowest rank wins; OK ranks last. -/
def stRank (c : BitVec 6) : Nat :=
  match c.toNat with
  | 11 => 1 | 9 => 2 | 8 => 3 | 6 => 4 | 4 => 5 | 3 => 6 | 7 => 7 | 10 => 8 | 5 => 9 | 2 => 10 | 1 => 11 | _ => 12

/-- The code of lower rank (R74). -/
def stMin (a b : BitVec 6) : BitVec 6 := if stRank b < stRank a then b else a

end Machine

end Sys2Proof
end

