-- ==== Sys2Proof/Machine/Fp.lean ====
section
/-! DEFINITION. Floating point: exact values, rounding and the formats of Table 09-5 (chapter 09), and the atomics of R73. -/

namespace Sys2Proof.Machine

/-- An exact value: NaN, an infinity, or plus or minus m x 2^e. -/
inductive Num where
  | nan
  | inf (neg : Bool)
  | fin (neg : Bool) (m : Nat) (e : Int)
  deriving DecidableEq, Repr

/-- Which special values a format has: infinities and NaN, one NaN only, or none. -/
inductive Specials where
  | ieee | oneNan | noSpecials
  deriving DecidableEq, Repr

/-- A binary format. -/
structure Fmt where
  eb : Nat
  mb : Nat
  bias : Nat
  sp : Specials
  deriving DecidableEq, Repr

/-- Width in bits. -/
def Fmt.w (f : Fmt) : Nat := 1 + f.eb + f.mb

def fp32 : Fmt := ⟨8, 23, 127, .ieee⟩
def bf16 : Fmt := ⟨8, 7, 127, .ieee⟩
def fp16 : Fmt := ⟨5, 10, 15, .ieee⟩
def e4m3 : Fmt := ⟨4, 3, 7, .oneNan⟩
def e5m2 : Fmt := ⟨5, 2, 15, .ieee⟩
def e2m3 : Fmt := ⟨2, 3, 1, .noSpecials⟩
def e3m2 : Fmt := ⟨3, 2, 3, .noSpecials⟩
def e2m1 : Fmt := ⟨2, 1, 1, .noSpecials⟩

/-- The value of an encoding. -/
def decodeFp (f : Fmt) (x : Nat) : Num :=
  let neg := bit x (f.eb + f.mb)
  let ex := x / 2 ^ f.mb % 2 ^ f.eb
  let mant := x % 2 ^ f.mb
  let top := decide (ex = 2 ^ f.eb - 1)
  if f.sp = .ieee ∧ top = true then (if mant = 0 then .inf neg else .nan)
  else if f.sp = .oneNan ∧ top = true ∧ mant = 2 ^ f.mb - 1 then .nan
  else if ex = 0 then .fin neg mant (1 - (f.bias : Int) - f.mb)
  else .fin neg (2 ^ f.mb + mant) ((ex : Int) - f.bias - f.mb)

/-- How a result rounds: to nearest even, or stochastically from a seed and an index (R214). -/
inductive Rounding where
  | nearest
  | stochastic (seed index : Nat)
  deriving DecidableEq, Repr

/-- The mixing function of R214. -/
def mix (x : Nat) : Nat :=
  let x := (x + 0x9E3779B97F4A7C15) % 2 ^ 64
  let x := ((x ^^^ (x >>> 30)) * 0xBF58476D1CE4E5B9) % 2 ^ 64
  let x := ((x ^^^ (x >>> 27)) * 0x94D049BB133111EB) % 2 ^ 64
  x ^^^ (x >>> 31)

/-- m / 2^k rounded. -/
def roundShift (r : Rounding) (m k : Nat) : Nat :=
  let t := m / 2 ^ k
  let rem := m % 2 ^ k
  match r with
  | .nearest => if 2 ^ k < 2 * rem ∨ (2 ^ k = 2 * rem ∧ t % 2 = 1) then t + 1 else t
  | .stochastic seed i =>
    let d := 65536 * rem / 2 ^ k
    if 65536 ≤ d + mix ((seed * 2 ^ 32) ||| i) % 65536 then t + 1 else t

/-- Magnitude bits of m x 2^e in a format, without the sign; past the largest finite encoding they overflow. -/
def magBits (f : Fmt) (r : Rounding) (m : Nat) (e : Int) : Nat :=
  if m = 0 then 0
  else
    let q0 : Int := 1 - (f.bias : Int) - f.mb
    let q := max q0 (e + (Nat.log2 m : Nat) - f.mb)
    let mm := if q ≤ e then m * 2 ^ (e - q).toNat else roundShift r m (q - e).toNat
    (q - q0).toNat * 2 ^ f.mb + mm

/-- Largest finite magnitude. -/
def Fmt.maxBits (f : Fmt) : Nat :=
  match f.sp with
  | .ieee => (2 ^ f.eb - 1) * 2 ^ f.mb - 1
  | .oneNan => 2 ^ (f.eb + f.mb) - 2
  | .noSpecials => 2 ^ (f.eb + f.mb) - 1

/-- The quiet NaN of a format (Table 09-12). -/
def Fmt.nanBits (f : Fmt) : Nat :=
  match f.sp with
  | .ieee => (2 ^ f.eb - 1) * 2 ^ f.mb + 2 ^ (f.mb - 1)
  | .oneNan => 2 ^ (f.eb + f.mb) - 1
  | .noSpecials => 2 ^ (f.eb + f.mb) - 1

/-- The encoding of a value (R214, R215): `sat` makes an overflow the largest finite value. -/
def encodeFp (f : Fmt) (r : Rounding) (sat : Bool) (x : Num) : Nat :=
  let sgn := fun (neg : Bool) => if neg then 2 ^ (f.eb + f.mb) else 0
  let ovf := if sat || f.sp != .ieee then f.maxBits else (2 ^ f.eb - 1) * 2 ^ f.mb
  match x with
  | .nan => f.nanBits
  | .inf neg => sgn neg + ovf
  | .fin neg m e =>
    let b := magBits f r m e
    sgn neg + (if f.maxBits < b then ovf else b)

/-- The signed integer m x 2^(e - q) for q ≤ e. -/
def scaled (neg : Bool) (m : Nat) (e q : Int) : Int :=
  let v : Int := (m * 2 ^ (e - q).toNat : Nat)
  if neg then -v else v

/-- Exact sum. -/
def addNum (a b : Num) : Num :=
  match a, b with
  | .nan, _ => .nan
  | _, .nan => .nan
  | .inf n, .inf k => if n = k then .inf n else .nan
  | .inf n, _ => .inf n
  | _, .inf n => .inf n
  | .fin na ma ea, .fin nb mb eb =>
    let q := min ea eb
    let v := scaled na ma ea q + scaled nb mb eb q
    if v = 0 then .fin (na && nb) 0 q else .fin (decide (v < 0)) v.natAbs q

/-- Opposite. -/
def negNum : Num → Num
  | .nan => .nan
  | .inf n => .inf (!n)
  | .fin n m e => .fin (!n) m e

/-- Exact product. -/
def mulNum (a b : Num) : Num :=
  match a, b with
  | .nan, _ => .nan
  | _, .nan => .nan
  | .inf n, .inf k => .inf (n != k)
  | .inf n, .fin k m _ => if m = 0 then .nan else .inf (n != k)
  | .fin k m _, .inf n => if m = 0 then .nan else .inf (n != k)
  | .fin na ma ea, .fin nb mb eb => .fin (na != nb) (ma * mb) (ea + eb)

/-- Strict order of values that are no NaN, with -0 below +0. -/
def ltNum (a b : Num) : Bool :=
  match a, b with
  | .inf n, .inf k => n && !k
  | .inf n, _ => n
  | _, .inf k => !k
  | .fin na ma ea, .fin nb mb eb =>
    let q := min ea eb
    let x := scaled na ma ea q
    let y := scaled nb mb eb q
    if x = y then decide (x = 0) && na && !nb else decide (x < y)
  | _, _ => false

/-- minimumNumber and maximumNumber of IEEE 754-2019 (R73). -/
def minNum (a b : Num) : Num :=
  match a, b with
  | .nan, _ => b
  | _, .nan => a
  | _, _ => if ltNum b a then b else a
def maxNum (a b : Num) : Num :=
  match a, b with
  | .nan, _ => b
  | _, .nan => a
  | _, _ => if ltNum a b then b else a

/-- FP32 operations on encodings, rounding to nearest even. -/
def f32 (x : Nat) : Num := decodeFp fp32 x
def enc32 (x : Num) : Nat := encodeFp fp32 .nearest false x
def add32 (a b : Nat) : Nat := enc32 (addNum (f32 a) (f32 b))
def mul32 (a b : Nat) : Nat := enc32 (mulNum (f32 a) (f32 b))
def min32 (a b : Nat) : Nat := enc32 (minNum (f32 a) (f32 b))
def max32 (a b : Nat) : Nat := enc32 (maxNum (f32 a) (f32 b))

/-- The value that an atomic writes (R73): operation 0 ADD, 1 MIN, 2 MAX, 3 CAS; operand type of Table 09-3; stored value,
operand or compare value, and swap value. -/
def atomicNew (op sub old x swap : Nat) : Nat :=
  let w := 8 * (if sub = 5 then 16 else if sub = 1 ∨ sub = 3 then 8 else 4)
  let signed := sub < 2
  let lt := fun (a b : Nat) => if signed then decide (sint w a < sint w b) else decide (a < b)
  match op with
  | 0 => if sub = 4 then add32 old x else (old + x) % 2 ^ w
  | 1 => if sub = 4 then min32 old x else if lt x old then x else old
  | 2 => if sub = 4 then max32 old x else if lt old x then x else old
  | _ => if old = x then swap else old

end Sys2Proof.Machine
end

