-- ==== Sys2Proof/Machine/Compose.lean ====
section
/-! DEFINITION. What the sections of a composition say (chapter 13): routes, unit IDs, pavilions, interleaves, ports, cores
and programs, read from the section bytes on demand. -/

namespace Sys2Proof.Machine

/-- The section of a type and instance (R300). -/
def sect (c : List Section) (ty inst : Nat) : Option Section :=
  c.find? (fun x => x.ty == ty && x.inst == inst)

/-- `n` bytes at an offset of a section as a number; 0 where there is no such section. -/
def sectNat (c : List Section) (ty inst off n : Nat) : Nat :=
  match sect c ty inst with
  | some x => leNat (x.cells.bytes off n)
  | none => 0

/-- Bit `b` of a section. -/
def sectBit (c : List Section) (ty inst b : Nat) : Bool := bit (sectNat c ty inst (b / 8) 1) (b % 8)

/-- The tables by which a request of an epoch routes (R313). -/
def State.tables (s : State) (epoch : BitVec 4) : List Section :=
  if s.comp.state = .window ∧ s.comp.byNote = false ∧ epoch = s.comp.oldEpoch ∧ epoch ≠ s.comp.epoch then s.comp.old
  else s.comp.run

/-- The epoch is live (R84, R313, R315). -/
def State.epochLive (s : State) (e : BitVec 4) : Bool :=
  e == s.comp.epoch || ((s.comp.state == .window || s.comp.byNote) && e == s.comp.oldEpoch)

/-- KIND of a unit-table record (Table 13-4). -/
inductive UnitKind where
  | invalid
  | pavilion (pv : Nat)
  | port (p : Nat)
  | away (p : Nat) (stages : Nat)
  deriving DecidableEq, Repr

/-- What a unit ID names (R27, R302). -/
def unitOf (c : List Section) (u : BitVec 16) : UnitKind :=
  let r := sectNat c 4 0 (2 * u.toNat) 2
  match r / 2 ^ 14 with
  | 1 => .pavilion (r % 64)
  | 2 => .port (r % 256)
  | 3 => .away (r % 256) (r / 256 % 16)
  | _ => .invalid

/-- Switch stages to a unit (R88, R302). -/
def stagesTo (c : List Section) (u : BitVec 16) : Nat :=
  match unitOf c u with | .away _ n => n | _ => 0

/-- The route from one site to another is YX (R19). -/
def routeYx (c : List Section) (a b : Nat) : Bool := sectBit c 2 0 (64 * a + b)

/-- S port towards a module (R128). -/
def moduleRoute (c : List Section) (m : Nat) : Option Nat :=
  let r := sectNat c 3 0 (2 * m) 2
  if 2 ^ 15 ≤ r then some (r % 256) else none

/-- A pavilion is defined. -/
def pvDefined (c : List Section) (pv : Nat) : Bool := (sect c 5 pv).isSome
/-- Unit ID of a pavilion. -/
def pvUnit (c : List Section) (pv : Nat) : BitVec 16 :=
  if pvDefined c pv then BitVec.ofNat 16 (sectNat c 5 pv 0 2) else 0xFFFF
/-- Parent of a pavilion. -/
def pvParent (c : List Section) (pv : Nat) : Option Nat :=
  let b := sectNat c 5 pv 2 1
  if pvDefined c pv && b != 0xFF then some b else none
/-- Direct members of a pavilion (Table 13-3). -/
def pvHasPort (c : List Section) (pv p : Nat) : Bool := sectBit c 5 pv (8 * 16 + p)
def pvHasCore (c : List Section) (pv k : Nat) : Bool := sectBit c 5 pv (8 * 48 + k)
def pvHasPlot (c : List Section) (pv n : Nat) : Bool := sectBit c 5 pv (8 * 176 + n)
def pvHasShare (c : List Section) (pv n : Nat) : Bool := sectBit c 5 pv (8 * 1200 + n)

/-- `pv` and its ancestors, nearest first. -/
def ancestors (c : List Section) : Nat → Nat → List Nat
  | 0, _ => []
  | k + 1, pv => pv :: (match pvParent c pv with | some q => ancestors c k q | none => [])

/-- `pv` lies in the subtree of `top` (R33). -/
def inSubtree (c : List Section) (top pv : Nat) : Bool := (ancestors c 64 pv).contains top

/-- Pavilions of the subtree of `top`. -/
def subtree (c : List Section) (top : Nat) : List Nat := (List.range 64).filter (fun pv => pvDefined c pv && inSubtree c top pv)

/-- Pavilion of which a core is a direct member (R301). -/
def corePv (c : List Section) (k : Nat) : Option Nat :=
  (List.range 64).find? (fun pv => pvDefined c pv && pvHasCore c pv k)
/-- Pavilion of which a port is a direct member. -/
def portPv (c : List Section) (p : Nat) : Option Nat :=
  (List.range 64).find? (fun pv => pvDefined c pv && pvHasPort c pv p)
/-- A port is in the subtree of a pavilion. -/
def portUnder (c : List Section) (top p : Nat) : Bool := (subtree c top).any (fun pv => pvHasPort c pv p)
/-- A core is in the subtree of a pavilion. -/
def coreUnder (c : List Section) (top k : Nat) : Bool := (subtree c top).any (fun pv => pvHasCore c pv k)

/-- Records of an INTERLEAVE section. -/
def interleave (c : List Section) (pv : Nat) : List Nat :=
  match sect c 6 pv with
  | some x => (List.range (x.len / 2)).map (fun i => leNat (x.cells.bytes (2 * i) 2) % 2048)
  | none => []

/-- The INTERLEAVE section that homes the extents of a pavilion: its own or the nearest ancestor's (R303). -/
def homeTable (c : List Section) (pv : Nat) : List Nat :=
  ((ancestors c 64 pv).find? (fun q => (sect c 6 q).isSome)).elim [] (interleave c)

/-- The share, 16 x slice + share, that homes a block (FPA / 2,048) of a pavilion's extent (R303). -/
def homeShare (c : List Section) (pv block : Nat) : Option Nat :=
  let t := homeTable c pv
  if t.isEmpty then none else t[block % 2 ^ 40 % t.length]?

/-- The home slice of a block. -/
def homeSlice (c : List Section) (pv block : Nat) : Option Nat := (homeShare c pv block).map (· / 16)

/-- The pavilion whose INTERLEAVE section homes extents of `pv`. -/
def homingPv (c : List Section) (pv : Nat) : Option Nat := (ancestors c 64 pv).find? (fun q => (sect c 6 q).isSome)

/-- Class and bundle size of a port (Table 13-3). -/
def portClass (c : List Section) (p : Nat) : Nat := if (sect c 7 p).isSome then sectNat c 7 p 0 1 % 4 else 3
def portBundle (c : List Section) (p : Nat) : Nat := if (sect c 7 p).isSome then sectNat c 7 p 1 1 else 1
/-- Queue of an index of a port's queue map. -/
def portQueue (c : List Section) (p i : Nat) : Nat :=
  let b := sectNat c 7 p (8 + i / 2) 1
  if i % 2 = 0 then b % 16 else b / 16
/-- Traffic class of a tenant. -/
def tclsOf (c : List Section) (t : BitVec 10) : Nat := sectNat c 8 0 t.toNat 1 % 8

/-- KIND and tenant of a core's record. -/
def coreKind (c : List Section) (k : Nat) : Nat := sectNat c 10 0 (4 * k) 1 % 4
def coreTenant (c : List Section) (k : Nat) : Nat := sectNat c 10 0 (4 * k + 1) 2 % 1024

/-- A plot holds reduction slots. -/
def slotPlot (c : List Section) (n : Nat) : Bool := sectBit c 12 0 n

/-- Every core of a cluster is of kind SERVICE (R305). -/
def serviceCluster (c : List Section) (cl : Nat) : Bool := (List.range 8).all (fun j => coreKind c (8 * cl + j) == 2)

/-! ### PROGRAM sections (Table 13-5) -/

/-- PROGRAM sections in order of instance. -/
def programs (c : List Section) : List Section := c.filter (fun x => x.ty == 11)

def progNat (x : Section) (off n : Nat) : Nat := leNat (x.cells.bytes off n)
def progCores (x : Section) : List Nat := (List.range (progNat x 0 2)).map (fun i => progNat x (96 + 2 * i) 2)
/-- Offset of the thread records, of the text and of the data. -/
def progThreadsAt (x : Section) : Nat := 96 + (2 * progNat x 0 2 + 7) / 8 * 8
def progTextAt (x : Section) : Nat := progThreadsAt x + 264 * progNat x 2 2
def progTextAddr (x : Section) : Nat := progNat x 4 4
def progTextLen (x : Section) : Nat := progNat x 8 4
def progDataAddr (x : Section) : Nat := progNat x 12 4
def progDataLen (x : Section) : Nat := progNat x 16 4
def progDataAt (x : Section) : Nat := progTextAt x + (progTextLen x + 7) / 8 * 8
/-- Offset of the signature. -/
def progSigAt (x : Section) : Nat := progDataAt x + (progDataLen x + 7) / 8 * 8
/-- Barrier count n. -/
def progBar (x : Section) (n : Nat) : Nat := progNat x (32 + 2 * n) 2

/-- A thread record: core, TID, entry PC and X1 to X31. -/
structure ProgThread where
  core : Nat
  tid : Nat
  pc : Nat
  regs : List Nat
  deriving DecidableEq, Repr

/-- Thread records of a section. -/
def progThreads (x : Section) : List ProgThread :=
  (List.range (progNat x 2 2)).map (fun i =>
    let o := progThreadsAt x + 264 * i
    { core := (progCores x).getD (progNat x o 2) 0, tid := progNat x (o + 2) 1 % 64, pc := progNat x (o + 4) 4,
      regs := (List.range 31).map (fun r => progNat x (o + 8 + 8 * r) 8) })

/-- The section that names a core and thread. -/
def progOf (c : List Section) (k t : Nat) : Option Section :=
  (programs c).find? (fun x => (progThreads x).any (fun r => r.core == k && r.tid == t))

/-- A local address lies in program text of the cluster of core k (Table 09-4). -/
def inText (c : List Section) (k a n : Nat) : Bool :=
  (programs c).any (fun x => (progCores x).any (fun j => clusterOf j == clusterOf k)
    && decide (a < progTextAddr x + progTextLen x) && decide (progTextAddr x < a + n))

/-! ### Pavilion of a core and of the module (R77, R204) -/

/-- The module number, and whether an FPA is homed here (R127). -/
def State.moduleNo (s : State) : Nat := s.comp.module.toNat
def fpaModule (a : Nat) : Nat := a / 2 ^ 51
def fpaExtent (a : Nat) : Nat := a / 2 ^ 30 % 2 ^ 21
/-- Tier page of an FPA (TPAGE_ID: FPA[50:21]). -/
def fpaPage (a : Nat) : Nat := a / 2 ^ 21 % 2 ^ 30
def fpaBlock (a : Nat) : Nat := a / 2048
def fpaLine (a : Nat) : Nat := a / 64

end Sys2Proof.Machine
end

