-- ==== Sys2Proof/Machine/Traffic.lean ====
section
/-! DEFINITION. Egress: queues, gates, shapers, meters and congestion marks (chapter 12), and the trellis that carries a
frame to its port die (chapter 01). -/

namespace Sys2Proof.Machine

/-! ### Frame sizes (R278) -/

/-- Wire size of a frame of `n` payload bytes. -/
def wireBytes (n : Nat) : Nat := 41 + 64 * ((n + 63) / 64)
/-- Wire size of a frame. -/
def wireSize (f : Frame) : Nat := wireBytes f.payload.length
/-- Credits that a frame costs (R61). -/
def creditCost (f : Frame) : Nat := 1 + (f.payload.length + 63) / 64

/-! ### Token buckets (R288, R289, R291) -/

/-- Tokens gained in `dt` at a rate in Mb/s, in 1/65,536 of a byte: Mb/s is bits per microsecond (log 14). -/
def gain (mbps dt : Nat) : Nat := mbps * dt * 64 / 125

/-- A bucket brought up to date. -/
def refill (cap mbps tokens since now : Nat) : Nat := min cap (tokens + gain mbps (now - since))

/-- A shaper brought up to date. -/
def Shaper.at_ (x : Shaper) (now : FT) : Shaper :=
  { x with tokens := refill (64 * x.burst.toNat * 65536) x.rate.toNat x.tokens x.since now, since := max x.since now }
/-- An enabled shaper holds `b` bytes of tokens. -/
def Shaper.holds (x : Shaper) (now : FT) (b : Nat) : Bool := !x.en || decide (b * 65536 ≤ (x.at_ now).tokens)
/-- A shaper charged `b` bytes. -/
def Shaper.charge (x : Shaper) (now : FT) (b : Nat) : Shaper :=
  let y := x.at_ now
  if x.en then { y with tokens := y.tokens - b * 65536 } else y
/-- The tokens after a write or at power-up (R288). -/
def Shaper.fresh (x : Shaper) (now : FT) : Shaper :=
  { x with tokens := if x.rstZero then 0 else 64 * x.burst.toNat * 65536, since := now }

/-- Meter rate: BW x 13,281.25 Mb/s, as quarter-Mb/s (R289). -/
def Meter.at_ (x : Meter) (now : FT) : Meter :=
  { x with tokens := min (65536 * 65536) (x.tokens + gain (x.bw.toNat * 53125) (now - x.since) / 4), since := max x.since now }

/-! ### The lot key (R330) -/

/-- Counter block of the 16 bytes `j` of the payload of frame number `num`; `up` says that the sender's PEER_ID is the greater. -/
def lotBlock (nonce : FT) (up : Bool) (num j : Nat) : BitVec 128 :=
  BitVec.ofNat 64 nonce ++ BitVec.ofNat 1 (b2n up) ++ BitVec.ofNat 55 num ++ BitVec.ofNat 8 j

/-- A payload under a lot key in counter mode, or back in the plain. -/
def lotCrypt (key : BitVec 4) (nonce : FT) (up : Bool) (num : Nat) (bs : List Byte) : List Byte :=
  bs.mapIdx (fun i x => x ^^^ Config.lotStream key (lotBlock nonce up num (i / 16)) (i % 16))

/-- The link nonce: of the first HELLO since INIT of the CX64 on a T port, of the side with the greater PEER_ID on an S port. -/
def State.linkNonce (s : State) (b : Nat) : FT :=
  let l := s.link b
  (if l.cls = 1 ∨ l.lastId.toNat < s.glb.deviceId.toNat then l.nonceTx else l.nonceRx).getD 0

/-- Frame number `num` of the port (`out`), or of its peer, with the payload under the lot key of the port, or taken from under it:
on S and T ports, on every virtual channel but VC6. -/
def State.lotFrame (s : State) (b : Nat) (out : Bool) (num : Nat) (f : Frame) : Frame :=
  let l := s.link b
  if f.vc = 6 ∨ (l.cls ≠ 1 ∧ l.cls ≠ 2) then f
  else
    let up := if out then decide (l.lastId.toNat < s.glb.deviceId.toNat) else decide (s.glb.deviceId.toNat < l.lastId.toNat)
    { f with payload := lotCrypt (Table.read 0 s.sec.lotIdx b) (s.linkNonce b) up num f.payload }

/-! ### Queues (R279, R280, R293) -/

/-- FIFO of a virtual channel. -/
def Queue.fifo (q : Queue) (vc : Nat) : List QFrame := Table.read [] q.fifos vc
/-- Bytes in a queue. -/
def Queue.depth (q : Queue) : Nat :=
  (q.fifos.map (fun e => (e.2.map (fun x => wireSize x.frame)).sum)).sum
/-- Every frame of a queue. -/
def Queue.all (q : Queue) : List QFrame := q.fifos.flatMap (·.2)
/-- A queue holds nothing. -/
def Queue.isEmpty (q : Queue) : Bool := q.all.isEmpty

/-- Queue that a frame enters on a port (R279). -/
def State.queueOf (s : State) (p : Nat) (override : Option Nat) (f : Frame) : Nat :=
  match override with
  | some q => q
  | none => (Table.read 0 (s.port p).tc.qmap (8 * f.vc.toNat + tclsOf s.comp.run f.tenant)).toNat

/-- Marking threshold of a colour, in KiB. -/
def Queue.threshold (q : Queue) (colour : BitVec 2) : Nat :=
  match colour.toNat with | 0 => q.thrG.toNat | 1 => q.thrY.toNat | _ => q.thrR.toNat

/-- The estimate after a frame has entered (R293), rounded towards minus infinity (log 15). -/
def Queue.avgAfter (q : Queue) (depth : Nat) : Nat :=
  ((q.avg : Int) + ((depth : Int) - q.avg) / (2 ^ q.ew.toNat : Nat)).toNat

/-- Put a frame in its queue on port `p`, updating the estimate and marking congestion (R279, R280, R293). -/
def State.enqueue (s : State) (p : Nat) (override : Option Nat) (x : QFrame) : State :=
  if x.frame.vc = 6 then s.onTc p (fun t => { t with vc6 := t.vc6 ++ [x.frame] })
  else
    let qi := s.queueOf p override x.frame
    let q := s.queue p qi
    let avg := q.avgAfter (q.depth + wireSize x.frame)
    let thr := q.threshold x.frame.colour
    let mark := q.ceEn && thr != 0 && decide (1024 * thr ≤ avg)
    let x := { x with since := s.now, order := q.entered, frame := if mark then x.frame.set flCe else x.frame }
    let vc := x.frame.vc.toNat
    let s := s.onQueue p qi (fun q =>
      { q with avg := avg, entered := q.entered + 1, fifos := Table.write [] q.fifos vc (q.fifo vc ++ [x]) })
    if mark then s.countQue p qi 2 else s

/-- Send a frame from a die towards a port: over the trellis when the port lies on another die (R19, R20). -/
def State.sendFrom (s : State) (site p : Nat) (override : Option Nat) (x : QFrame) : State :=
  let b := s.base p
  let d := portSite b
  if site = d then s.enqueue b override x
  else
    { s with pkg := { s.pkg with transit := s.pkg.transit ++
        [{ site := site, dest := d, yx := routeYx s.comp.run site d, port := b, queue := override, item := x }] } }

/-! ### The trellis (R18 to R20, R358) -/

/-- The next router of a dimension-ordered route: along the row first for XY, along the column first for YX. -/
def nextSite (yx : Bool) (a d : Nat) : Nat :=
  let ra := a / 8; let ca := a % 8; let rd := d / 8; let cd := d % 8
  let alongRow := if ca < cd then a + 1 else a - 1
  let alongCol := if ra < rd then a + 8 else a - 8
  if yx then (if ra != rd then alongCol else if ca != cd then alongRow else a)
  else (if ca != cd then alongRow else if ra != rd then alongCol else a)

/-- Key of the edge between two adjacent sites. -/
def edgeKey (a b : Nat) : Nat := if a + 1 = b ∨ b + 1 = a then 2 * min a b else 2 * min a b + 1

/-- Credits taken at a router for a route plane and virtual channel (R19). -/
def State.trellisUsed (s : State) (site : Nat) (yx : Bool) (vc : BitVec 3) : Nat :=
  (s.pkg.transit.filter (fun t => t.site == site && t.yx == yx && t.item.frame.vc == vc)).length

/-- The position of the oldest frame that waits at a router on a plane and channel. -/
def State.trellisHead (s : State) (site : Nat) (yx : Bool) (vc : BitVec 3) : Option Nat :=
  s.pkg.transit.findIdx? (fun t => t.site == site && t.yx == yx && t.item.frame.vc == vc)

/-! ### Gates (R283 to R287) -/

/-- Entries of a list up to its last. -/
def Gate.list (g : Gate) (active : Bool) : List GateEntry :=
  let l := if active then g.active else !g.active
  let last := (if active then g.actLast else g.pendLast).toNat
  (List.range (last + 1)).map (fun i => Table.read {} g.entries (256 * b2n l + i))
/-- Cycle of a list in sixteenths of a nanosecond. -/
def cycleOf (l : List GateEntry) : Nat := (l.map (fun e => e.dur.toNat * 64)).sum
/-- The entry at an offset within the cycle, with the time left in it. -/
def entryAt : List GateEntry → Nat → Nat → Option (Nat × Nat)
  | [], _, _ => none
  | e :: t, i, o => let d := e.dur.toNat * 64
                    if o < d then some (i, d - o) else entryAt t (i + 1) (o - d)
/-- Time for which the gate of queue `q` stays open over consecutive entries of `l`. -/
def openRun (q : Nat) : List GateEntry → Nat
  | [] => 0
  | e :: t => if e.gates.getLsbD q then e.dur.toNat * 64 + openRun q t else 0

/-- Time until the gate of `q` next closes, from `now`; none where it is closed. A gate that never closes gives the length
of a cycle twice over. -/
def Gate.openFor (g : Gate) (q : Nat) (now : FT) : Option Nat :=
  let l := g.list true
  let c := cycleOf l
  if c = 0 then some 0
  else
    let o := (((now : Int) - g.actBase) % c).toNat
    match entryAt l 0 o with
    | none => none
    | some (i, left) =>
      if ((l.getD i {}).gates.getLsbD q) then some (left + openRun q (l.drop (i + 1) ++ l)) else none

/-- Guard band of a queue in units of 4 ns (R285, Table 12-2): 12 where a virtual channel with payloads of 64 units, or a
collective, uses it, else 3. -/
def State.guardOf (s : State) (p q : Nat) : Nat :=
  let big := (List.range 64).any (fun i =>
    (Table.read 0 (s.port p).tc.qmap i).toNat == q && [2, 3, 4, 5, 7].contains (i / 8))
  let coll := s.clv.ids.any (fun e => e.2.enable && e.2.gateQ.toNat == q)
  if big || coll then 12 else 3

/-- A gate admits a frame of `b` bytes that starts now, by the counter of the port's die (R283, R286). -/
def State.gateAdmits (s : State) (p q b : Nat) : Bool :=
  let g := (s.port p).tc.gate
  if !g.run then true
  else if 1 < s.tim.stall then false
  else match g.openFor q (s.dieFt (portSite p)) with
    | none => false
    | some c => decide (b * 8 * 16 + 8 * 16 * 850 ≤ c * 850)

/-! ### Meters (R289) -/

/-- The meter that a tenant's frames on a port are charged to: of the record on the deepest pavilion, then the lowest record. -/
def State.meterOf (s : State) (p : Nat) (t : BitVec 10) : Option Nat :=
  let ms := (s.port p).tc.meters.filter (fun e => e.2.valid && (s.admRec e.2.adm.toNat).tenant == t)
  let depth := fun (m : Meter) => (ancestors s.comp.run 64 (s.admRec m.adm.toNat).pv.toNat).length
  (ms.foldl (fun best e =>
    match best with
    | none => some e
    | some b => if depth b.2 < depth e.2 ∨ (depth b.2 = depth e.2 ∧ e.2.adm.toNat < b.2.adm.toNat) then some e else some b)
    none).map (·.1)

/-- The meter of a frame holds `b` bytes. -/
def State.meterHolds (s : State) (p : Nat) (t : BitVec 10) (b : Nat) : Bool :=
  match s.meterOf p t with
  | none => true
  | some i => decide (b * 65536 ≤ ((Table.read {} (s.port p).tc.meters i).at_ s.now).tokens)

/-- Charge the meter of a frame. -/
def State.chargeMeter (s : State) (p : Nat) (t : BitVec 10) (b : Nat) : State :=
  match s.meterOf p t with
  | none => s
  | some i => s.onTc p (fun x =>
      let m := (Table.read {} x.meters i).at_ s.now
      { x with meters := Table.write {} x.meters i { m with tokens := m.tokens - b * 65536 } })

/-! ### Selection (R281, R282) -/

/-- Credits that a port holds at its peer on a virtual channel (R61). -/
def Link.creditsAt (l : Link) (vc : Nat) : Nat :=
  let spent := (Table.read 0 l.credSpent vc).toNat
  let back := (Table.read 0 l.credBack vc).toNat
  (Table.read 0 l.peerCred vc).toNat - (spent + 65536 - back) % 65536

/-- The frame is never held by a gate (R281). -/
def gateExempt (x : QFrame) : Bool := x.frame.opcode == 0x7A || x.frame.opcode == 0x7F || x.exempt

/-- Payload units with which a frame leaves a port, before any compression: a CBF payload that the port expands (R194) has 32 for
each of its blocks. -/
def State.outUnits (s : State) (p : Nat) (x : QFrame) : Nat :=
  if x.frame.has flCmpr && ((s.link p).cls == 1 || (!x.cbfAsked && !(Table.read {} s.cmp.ports p).peerCbf)) && !x.frame.payload.isEmpty
  then 32 * field x.frame.payload 0 1
  else (x.frame.payload.length + 63) / 64
/-- Wire size with which it leaves. -/
def State.outSize (s : State) (p : Nat) (x : QFrame) : Nat := 41 + 64 * s.outUnits p x

/-- The frame is a request that the CX64 itself originates on a T or S port, so the origin rate loop bears on it (R294). -/
def State.ownRequest (s : State) (p : Nat) (f : Frame) : Bool :=
  ((s.link p).cls == 1 || (s.link p).cls == 2) && f.src == s.glb.unitId && f.status == 0
    && ((decide (0x10 ≤ f.opcode.toNat) && decide (f.opcode.toNat ≤ 0x16)) || (decide (0x20 ≤ f.opcode.toNat) && decide (f.opcode.toNat ≤ 0x2B))
      || f.opcode == 0x90 || f.opcode == 0x82)
/-- Tokens of the origin rate shaper now: burst 4,160 bytes (R294). -/
def Traffic.rateTokens (t : Traffic) (now : FT) : Nat := refill (4160 * 65536) t.rlRate.toNat t.rlTokens t.rlSince now

/-- A FIFO head may be sent now (R281, R294). -/
def State.headEligible (s : State) (p qi : Nat) (x : QFrame) : Bool :=
  let b := s.outSize p x
  decide (1 + s.outUnits p x ≤ (s.link p).creditsAt x.frame.vc.toNat)
    && (!s.ownRequest p x.frame || decide (b * 65536 ≤ (s.port p).tc.rateTokens s.now))
    && s.meterHolds p x.frame.tenant b
    && (gateExempt x || s.gateAdmits p qi b)
    && (s.queue p qi).shape.holds s.now b

/-- The eligible head of a queue that entered first. -/
def State.offered (s : State) (p qi : Nat) : Option QFrame :=
  let heads := (s.queue p qi).fifos.filterMap (fun e => e.2.head?)
  (heads.filter (s.headEligible p qi)).foldl (fun best x =>
    match best with
    | none => some x
    | some b => if x.order < b.order then some x else some b) none

/-- The visit of the deficit round robin, at most `k` moves (R282): the queue chosen, with the robin's fields after it. -/
def State.robin (s : State) (p : Nat) : Nat → Traffic → Option (Nat × Traffic)
  | 0, _ => none
  | k + 1, t =>
    let qi := t.drr
    let q := Table.read {} t.queues qi
    let next := if qi = 15 then 3 else qi + 1
    let put := fun (d : Nat) => Table.write {} t.queues qi { q with deficit := d }
    match s.offered p qi with
    | none =>
      s.robin p k { t with drr := next, drrIn := false, queues := if q.isEmpty then put 0 else t.queues }
    | some x =>
      let d := if t.drrIn then q.deficit else q.deficit + 64 * q.quantum.toNat
      if s.outSize p x ≤ d then
        some (qi, { t with drrIn := true, queues := put (d - s.outSize p x) })
      else s.robin p k { t with drr := next, drrIn := false, queues := put d }

/-- The queue that sends next, with the robin's fields (R281). -/
def State.selectQueue (s : State) (p : Nat) : Option (Nat × Traffic) :=
  let t := (s.port p).tc
  match [0, 1, 2].find? (fun qi => (s.offered p qi).isSome) with
  | some qi => some (qi, t)
  | none =>
    if (List.range 13).any (fun i => (s.offered p (3 + i)).isSome) then s.robin p 1000 t else none

end Sys2Proof.Machine
end

