-- ==== Sys2Proof/Machine/Cbf.lean ====
section
/-! DEFINITION. The compressed block format CBF (chapter 08): expansion, compression, payloads and the form of a frame at
egress. -/

namespace Sys2Proof.Machine

/-- An element type (Table 08-2): FP scheme, element width in bytes, exponent and mantissa bits. -/
structure ElemInfo where
  fp : Bool
  w : Nat
  e : Nat := 0
  m : Nat := 0
  deriving DecidableEq, Repr

/-- Elements in a block. -/
def ElemInfo.n (t : ElemInfo) : Nat := 2048 / t.w
/-- Mantissa planes. -/
def ElemInfo.p (t : ElemInfo) : Nat := (t.m + 7) / 8

/-- Table 08-2. -/
def elemInfo (x : Nat) : Option ElemInfo :=
  match x with
  | 0 => some { fp := true, w := 4, e := 8, m := 23 }
  | 1 => some { fp := true, w := 2, e := 8, m := 7 }
  | 2 => some { fp := true, w := 2, e := 5, m := 10 }
  | 3 => some { fp := true, w := 1, e := 4, m := 3 }
  | 4 => some { fp := true, w := 1, e := 5, m := 2 }
  | 8 => some { fp := false, w := 1 }
  | 9 => some { fp := false, w := 2 }
  | 10 => some { fp := false, w := 4 }
  | 11 => some { fp := false, w := 8 }
  | _ => none

/-- `w` bits of a byte stream, as a number, from bit `i`. -/
def bitsAt (v i w : Nat) : Nat := v / 2 ^ i % 2 ^ w

/-- SECT of a tag byte that is valid (R178). -/
def tagSect (tag : Byte) : Option Nat := if tag.toNat ≤ 0x10 then some tag.toNat else none

/-- Exponents of the elements and the bytes that the escapes take (R184, expand). -/
def fpExponents (v dictAt codeAt escAt : Nat) : Nat → Nat → Nat → List Nat → List Nat × Nat
  | 0, _, j, acc => (acc.reverse, j)
  | k + 1, i, j, acc =>
    let c := bitsAt v (8 * codeAt + 3 * i) 3
    if c = 7 then fpExponents v dictAt codeAt escAt k (i + 1) (j + 1) (bitsAt v (8 * (escAt + j)) 8 :: acc)
    else fpExponents v dictAt codeAt escAt k (i + 1) j (bitsAt v (8 * (dictAt + c)) 8 :: acc)

/-- The groups of one mantissa plane: for each group its 8 bytes, and the byte after the plane. -/
def fpPlane (v maskAt : Nat) : Nat → Nat → Nat → List Nat → List Nat × Nat
  | 0, _, p, acc => (acc.reverse, p)
  | k + 1, g, p, acc =>
    if bitsAt v (8 * maskAt + g) 1 = 1 then
      fpPlane v maskAt k (g + 1) (p + 8)
        (((List.range 8).map (fun i => bitsAt v (8 * (p + i)) 8)).reverse ++ acc)
    else fpPlane v maskAt k (g + 1) p (List.replicate 8 0 ++ acc)

/-- The planes in turn: left-aligned mantissas and the byte after the last stream. -/
def fpPlanes (v n : Nat) : Nat → Nat → List Nat → List Nat × Nat
  | 0, p, acc => (acc, p)
  | k + 1, p, acc =>
    let r := fpPlane v p (n / 8) 0 (p + n / 64) []
    fpPlanes v n k r.2 (List.zipWith (fun a b => a * 256 + b) acc r.1)

/-- The groups of the INT scheme: elements in reverse order and the bit after the last group. -/
def intGroups (v w widthsAt : Nat) : Nat → Nat → Nat → Nat → List Nat → List Nat × Nat
  | 0, _, q, _, acc => (acc, q)
  | k + 1, g, q, prev, acc =>
    let b := bitsAt v (8 * (widthsAt + g)) 8
    let r := (List.range 64).foldl (fun (st : Nat × List Nat) i =>
      let z := bitsAt v (q + b * i) b
      let d := if z % 2 = 1 then 2 ^ (8 * w) - 1 - z / 2 else z / 2
      let x := (st.1 + d) % 2 ^ (8 * w)
      (x, x :: st.2)) (prev, acc)
    intGroups v w widthsAt k (g + 1) (q + 64 * b) r.1 r.2

/-- The reference decode of one block (R184); none where the block is invalid. -/
def expandBlock (sect : Nat) (src : List Byte) : Option (List Byte) :=
  if sect = 0 then some (fill 2048 0)
  else if sect = 0x10 then some (src.take 2048)
  else
    let v := leNat (src.take (128 * sect))
    let fmt := bitsAt v 0 8
    let el := bitsAt v 8 8
    let escN := bitsAt v 16 16
    let hf := bitsAt v 32 8
    let ok0 := decide (bitsAt v 40 8 = sect) && decide (bitsAt v 48 16 = 0) && decide (el < 16)
    match elemInfo el with
    | none => none
    | some t =>
      if !ok0 then none
      else if fmt = 1 ∧ t.fp = true then
        if 2 ≤ hf then none
        else
          let signZero := hf % 2 == 1
          let signAt := 15
          let codeAt := if signZero then 15 else 15 + t.n / 8
          let escAt := codeAt + 3 * t.n / 8
          let ex := fpExponents v 8 codeAt escAt t.n 0 0 []
          let escOk := (List.range ex.2).all (fun j => decide (bitsAt v (8 * (escAt + j)) 8 < 2 ^ t.e))
          let pl := fpPlanes v t.n t.p (escAt + ex.2) (List.replicate t.n 0)
          if ex.2 = escN ∧ escOk = true ∧ pl.2 ≤ 128 * sect ∧ v / 2 ^ (8 * pl.2) = 0 then
            let out := (List.zip ex.1 pl.1).zipIdx.map (fun x =>
              let sg := if signZero then 0 else bitsAt v (8 * signAt + x.2) 1
              ((sg <<< (t.e + t.m)) ||| (x.1.1 <<< t.m) ||| (x.1.2 >>> (8 * t.p - t.m))) % 2 ^ (8 * t.w))
            some (out.flatMap (leBytes t.w))
          else none
      else if fmt = 2 ∧ t.fp = false then
        if hf ≠ 0 ∨ escN ≠ 0 then none
        else
          let ng := t.n / 64
          let wOk := (List.range ng).all (fun g => decide (bitsAt v (8 * (8 + g)) 8 ≤ 8 * t.w))
          let r := intGroups v t.w 8 ng 0 (8 * (8 + ng)) 0 []
          if wOk = true ∧ r.2 / 8 ≤ 128 * sect ∧ v / 2 ^ r.2 = 0 then some (r.1.reverse.flatMap (leBytes t.w)) else none
      else none

/-- Bit fields (value, width) packed from bit 0 upwards. -/
def packBits (l : List (Nat × Nat)) : Nat := (l.foldr (fun x acc => x.1 % 2 ^ x.2 + acc * 2 ^ x.2) 0)

/-- The exponents that occur, most frequent first, ties by the smaller value (R185). -/
def exponentRank (e : Nat) (xs : List Nat) : List Nat :=
  let counts := ((List.range (2 ^ e)).map (fun v => (v, xs.count v))).filter (fun c => c.2 != 0)
  let ins := fun (l : List (Nat × Nat)) (c : Nat × Nat) =>
    l.takeWhile (fun d => decide (c.2 ≤ d.2)) ++ c :: l.dropWhile (fun d => decide (c.2 ≤ d.2))
  (counts.foldl ins []).map (·.1)

/-- The stream bytes of the FP scheme after the header (R182, R185), with ESC_N and SIGN_ZERO. -/
def fpBody (t : ElemInfo) (xs : List Nat) : List Byte × Nat × Bool :=
  let exps := xs.map (fun x => x / 2 ^ t.m % 2 ^ t.e)
  let rank := (exponentRank t.e exps).take 7
  let dict := rank ++ List.replicate (7 - rank.length) (rank.getLastD 0)
  let code := fun e => (rank.findIdx? (· == e)).getD 7
  let codes := exps.map code
  let esc := (exps.zip codes).filterMap (fun p => if p.2 = 7 then some p.1 else none)
  let signs := xs.map (fun x => x / 2 ^ (t.e + t.m) % 2)
  let signZero := signs.all (· == 0)
  let vs := xs.map (fun x => x % 2 ^ t.m * 2 ^ (8 * t.p - t.m))
  let plane := fun k =>
    let bs := vs.map (fun v => v / 2 ^ (8 * (t.p - 1 - k)) % 256)
    let gs := chunks 8 (t.n / 8) bs
    let mask := gs.map (fun g => (b2n (g.any (· != 0)), 1))
    leBytes (t.n / 64) (packBits mask) ++
      (gs.filter (fun g => g.any (· != 0))).flatten.map (BitVec.ofNat 8)
  (dict.map (BitVec.ofNat 8)
    ++ (if signZero then [] else leBytes (t.n / 8) (packBits (signs.map (fun b => (b, 1)))))
    ++ leBytes (3 * t.n / 8) (packBits (codes.map (fun c => (c, 3))))
    ++ esc.map (BitVec.ofNat 8)
    ++ (List.range t.p).flatMap plane, esc.length, signZero)

/-- The zigzag values of the INT scheme (R183). -/
def zigzags (w : Nat) (xs : List Nat) : List Nat :=
  (xs.foldl (fun (st : Nat × List Nat) x =>
    let d := (x + 2 ^ (8 * w) - st.1) % 2 ^ (8 * w)
    let z := if 2 ^ (8 * w - 1) ≤ d then 2 ^ (8 * w) - 1 - 2 * d % 2 ^ (8 * w) else 2 * d
    (x, z :: st.2)) (0, [])).2.reverse

/-- Smallest width that holds a number. -/
def widthOf (z : Nat) : Nat := if z = 0 then 0 else Nat.log2 z + 1

/-- The stream bytes of the INT scheme (R183, R185). -/
def intBody (t : ElemInfo) (xs : List Nat) : List Byte :=
  let gs := chunks 64 (t.n / 64) (zigzags t.w xs)
  let ws := gs.map (fun g => g.foldl (fun a z => max a (widthOf z)) 0)
  ws.map (BitVec.ofNat 8) ++
    (List.zip gs ws).flatMap (fun gw => leBytes (8 * gw.2) (packBits (gw.1.map (fun z => (z, gw.2)))))

/-- The CX64's compressor (R185): SECT and the stored sectors. A raw block gives 0x10 and its bytes. -/
def compressBlock (elem : Nat) (blk : List Byte) : Nat × List Byte :=
  if blk.all (· == 0) then (0, [])
  else match elemInfo elem with
    | none => (0x10, blk)
    | some t =>
      let xs := (chunks t.w t.n blk).map leNat
      let (fmt, body, escN, sz) :=
        if t.fp then (let r := fpBody t xs; (1, r.1, r.2.1, r.2.2)) else (2, intBody t xs, 0, false)
      let total := 8 + body.length
      let sectN := (total + 127) / 128
      if 15 < sectN then (0x10, blk)
      else
        let hdr : List Byte := [BitVec.ofNat 8 fmt, BitVec.ofNat 8 elem] ++ leBytes 2 escN ++
          [BitVec.ofNat 8 (b2n sz), BitVec.ofNat 8 sectN, 0, 0]
        let out := hdr ++ body
        (sectN, out ++ fill (128 * sectN - out.length) 0)

/-! ### Payloads (R192, R195) -/

/-- Sectors that a SECT takes in a payload, in bytes. -/
def sectBytes (sectN : Nat) : Nat := 128 * sectN

/-- A CBF payload of one or two blocks. -/
def cbfPayload (bs : List (Nat × List Byte)) : List Byte :=
  let dir : List Byte := [BitVec.ofNat 8 bs.length, BitVec.ofNat 8 (bs.getD 0 (0, [])).1, BitVec.ofNat 8 (bs.getD 1 (0, [])).1]
  dir ++ fill 61 0 ++ bs.flatMap (·.2)

/-- The blocks of a CBF payload as SECT and sectors, where its directory and LENGTH meet R192. -/
def parsePayload (pl : List Byte) : Option (List (Nat × List Byte)) :=
  let nb := field pl 0 1
  let t0 := field pl 1 1
  let t1 := field pl 2 1
  let sum := t0 + (if nb = 2 then t1 else 0)
  let len := 1 + 2 * sum
  if (nb = 1 ∧ t1 = 0 ∨ nb = 2) ∧ t0 ≤ 0x10 ∧ t1 ≤ 0x10 ∧ field pl 3 61 = 0 ∧ len ≤ 64 ∧ pl.length = 64 * len then
    let d := pl.drop 64
    some ((t0, d.take (sectBytes t0)) :: (if nb = 2 then [(t1, (d.drop (sectBytes t0)).take (sectBytes t1))] else []))
  else none

/-- The plain bytes of a valid CBF payload; none where it is invalid (R195). -/
def expandPayload (pl : List Byte) : Option (List Byte) :=
  match parsePayload pl with
  | none => none
  | some bs => bs.foldl (fun acc b =>
      match acc, expandBlock b.1 b.2 with
      | some a, some x => some (a ++ x)
      | _, _ => none) (some [])

/-- Count a compression that a home or a port has attempted (Table 08-13). -/
def State.countBlock (s : State) (sectN : Nat) : State :=
  if sectN = 0x10 then s.countCmp 1 else (s.countCmp 0).countCmp 2 (16 - sectN)

/-! ### The form of a frame at egress (R194) -/

/-- Settings of a port (Table 08-12). -/
def State.cmpPort (s : State) (p : Nat) : CmpPort := Table.read {} s.cmp.ports p

/-- Opcodes of Table 08-7. -/
def cbfOpcode (op : BitVec 8) : Bool := [0x10, 0x16, 0x12, 0x90, 0x18, 0x91, 0x70, 0x71].contains op.toNat
/-- Those of them whose payload is CBF. -/
def cbfCarries (op : BitVec 8) : Bool := [0x12, 0x90, 0x18, 0x91, 0x70, 0x71].contains op.toNat

/-- A frame with its payload expanded; unchanged where the payload is invalid. -/
def plainForm (f : Frame) : Frame :=
  match expandPayload f.payload with
  | some b => { f.clear flCmpr with payload := b, length := BitVec.ofNat 7 (b.length / 64) }
  | none => f

/-- A frame may carry CBF data: an answer only where its request carried FLAGS.CMPR (Table 08-7, log 112). -/
def QFrame.cbfMay (x : QFrame) : Bool := cbfCarries x.frame.opcode && (x.cbfAsked || !(x.frame.opcode == 0x18 || x.frame.opcode == 0x91))

/-- The form in which a port sends a frame, with the state after its counts (R194). -/
def State.egressForm (s : State) (p : Nat) (x : QFrame) : State × Frame :=
  let c := s.cmpPort p
  let f := x.frame
  if f.has flCmpr && cbfCarries f.opcode then
    if (s.link p).cls != 1 && (x.cbfAsked || c.peerCbf) then (s, f) else (s, plainForm f)
  else
    match x.elem with
    | none => (s, f)
    | some el =>
      if c.peerCbf && (s.link p).cls != 1 && c.egrVc.getLsbD f.vc.toNat && x.cbfMay
          && (f.payload.length == 2048 || f.payload.length == 4096) then
        let bs := (chunks 2048 (f.payload.length / 2048) f.payload).map (compressBlock el.toNat)
        let s := bs.foldl (fun s b => s.countBlock b.1) s
        let pl := cbfPayload bs
        if pl.length ≤ 4096 ∧ pl.length + 64 ≤ f.payload.length then
          (s, { f.set flCmpr with payload := pl, length := BitVec.ofNat 7 (pl.length / 64) })
        else (s, f)
      else (s, f)

end Sys2Proof.Machine
end

