-- ==== Sys2Proof/Machine/Device.lean ====
section
/-! DEFINITION. Device states and fences, and the record of a state change (chapters 15 and 16). -/

namespace Sys2Proof.Machine

/-- Encoding of a device state (Table 16-1). -/
def ModState.code : ModState → Nat
  | .off => 0 | .boot => 1 | .test => 2 | .service => 3 | .recovery => 4 | .drain => 5 | .halt => 6

/-- Power is on and the device is outside HALT, so its datapaths work. -/
def State.alive (s : State) : Bool := s.mod.state != .off && s.mod.state != .halt

/-- A unit is fenced: kind and index of Table 15-12 (R369). -/
def State.isFenced (s : State) (kind idx : Nat) : Bool := Table.read false s.log.fenced (2 ^ 24 * kind + idx)

/-- A state change, with its log entry and event (R373, R404): code 0x40 or 0x41, and byte 0 of PARAM. Maker modes end with
TEST (R410). -/
def State.changeState (s : State) (n : ModState) (code trig : Nat) : State :=
  if s.mod.state = n then s
  else
    let old := s.mod.state
    let s := { s with mod := { s.mod with state := n, prev := old, changeFt := BitVec.ofNat 64 s.now }
                      glb := { s.glb with makerMode := if old == ModState.test then 0 else s.glb.makerMode } }
    s.logWith code (n.code + 8 * old.code) srcModule trig code (n.code + 8 * old.code) trig

end Sys2Proof.Machine
end

