-- ==== Sys2Proof/Machine/Frames.lean ====
section
/-! DEFINITION. Opcodes, completions and the routes by which frames leave (chapters 03 and 04), and the extent checks of
chapter 06. -/

namespace Sys2Proof.Machine

/-! ### Opcodes (Table 03-8) -/

/-- LD, LD.PEEK and SB.RD. -/
def isLoad (op : BitVec 8) : Bool := [0x10, 0x11, 0x16].contains op.toNat
/-- Fetching and posted atomics. -/
def isFetch (op : BitVec 8) : Bool := 0x20 ≤ op.toNat && op.toNat ≤ 0x23
def isPosted (op : BitVec 8) : Bool := 0x28 ≤ op.toNat && op.toNat ≤ 0x2B
def isAtomic (op : BitVec 8) : Bool := isFetch op || isPosted op
/-- ST, ST.PUSH, ST.MASK and SB.WR. -/
def isWrite (op : BitVec 8) : Bool := [0x12, 0x13, 0x14, 0x90].contains op.toNat
/-- Store-class requests (R92). -/
def storeClass (op : BitVec 8) : Bool := [0x12, 0x13, 0x14].contains op.toNat || isAtomic op
/-- Requests on VC0. -/
def isCoherence (op : BitVec 8) : Bool := 0x40 ≤ op.toNat && op.toNat ≤ 0x44
/-- Requests that the sender must have write permission for (R132). -/
def writes (op : BitVec 8) : Bool := isWrite op || isAtomic op || [0x41, 0x42, 0x43].contains op.toNat
/-- Memory requests, which carry a pool address. -/
def isMemory (op : BitVec 8) : Bool := isLoad op || isWrite op || isAtomic op || isCoherence op
/-- Frames that receive a completion (Table 03-8). -/
def isRequest (op : BitVec 8) : Bool :=
  isMemory op || op == 0x15 || [0x61, 0x78, 0x80, 0x82].contains op.toNat

/-- The virtual channel of an opcode (Table 03-8); none where the table does not list it. -/
def opcodeVc (op : BitVec 8) : Option (BitVec 3) :=
  let o := op.toNat
  if (0x10 ≤ o ∧ o ≤ 0x16) || isAtomic op then some 2
  else if o = 0x18 ∨ o = 0x19 then some 3
  else if isCoherence op then some 0
  else if (0x50 ≤ o ∧ o ≤ 0x52) ∨ (0x58 ≤ o ∧ o ≤ 0x5B) then some 1
  else if 0x60 ≤ o ∧ o ≤ 0x65 then some 6
  else if o = 0x70 ∨ o = 0x71 ∨ o = 0x81 ∨ o = 0x83 then some 4
  else if (0x78 ≤ o ∧ o ≤ 0x7A) ∨ o = 0x7F ∨ o = 0x80 ∨ o = 0x82 then some 5
  else if o = 0x90 ∨ o = 0x91 then some 7
  else none

/-- Payload units of an opcode at a LENGTH (Table 03-8). -/
def opcodeUnits (op : BitVec 8) (len : Nat) : Nat :=
  let o := op.toNat
  if [0x12, 0x13, 0x18, 0x70, 0x71, 0x80, 0x81, 0x82, 0x83, 0x90, 0x91].contains o then len
  else if o = 0x14 then 2
  else if isAtomic op || [0x43, 0x58, 0x5B, 0x60, 0x61, 0x62, 0x63, 0x64, 0x65, 0x78, 0x79].contains o then 1
  else 0

/-- Port classes that carry an opcode (Table 03-8): 0 A, 1 T, 2 S. -/
def carries (cls : Nat) (op : BitVec 8) : Bool :=
  let o := op.toNat
  match cls with
  | 0 => (opcodeVc op).isSome && o != 0x82 && o != 0x83
  | 1 => [0x10, 0x12, 0x14, 0x16, 0x18, 0x19, 0x60, 0x90, 0x91].contains o
  | 2 => (opcodeVc op).isSome && o != 0x61 && o != 0x62
  | _ => false

/-- The operand type of an atomic is valid (Table 03-9). -/
def atomicTypeOk (op : BitVec 8) (sub : Nat) : Bool :=
  match op.toNat % 4 with
  | 0 => [0, 1, 4].contains sub
  | 3 => [0, 1, 5].contains sub
  | _ => [0, 1, 2, 3, 4].contains sub

/-- Operand size of an atomic in bytes. -/
def atomicSize (sub : Nat) : Nat := if sub = 5 then 16 else if sub % 2 = 1 ∧ sub < 4 then 8 else 4

/-- Blocks that a CBF payload names (Table 08-8). -/
def cbfBlocks (pl : List Byte) : Nat := if field pl 0 1 = 2 then 2 else 1

/-- Whether LENGTH, payload, address and HANDLE meet R67, R71, R72, R191 and R255; VC and class are checked apart. -/
def wellShaped (f : Frame) : Bool :=
  let o := f.opcode.toNat
  let len := f.length.toNat
  let a := f.addr.toNat
  let lenOk :=
    if isLoad f.opcode then decide (1 ≤ len) && decide (len ≤ 64)
    else if [0x12, 0x13, 0x90].contains o then decide (1 ≤ len) && decide (len ≤ 64)
    else if isCoherence f.opcode then decide (len = 1)
    else if [0x18, 0x70, 0x71, 0x80, 0x81, 0x82, 0x83, 0x91].contains o then decide (len ≤ 64)
    else decide (len = opcodeUnits f.opcode len)
  let span := if o = 0x14 then 1
    else if [0x12, 0x90].contains o && f.has flCmpr then 32 * cbfBlocks f.payload else len
  let addrOk :=
    if isAtomic f.opcode then decide (a % atomicSize f.sub = 0)
    else if isMemory f.opcode then decide (a % 64 = 0) && decide (a % 16384 + 64 * span ≤ 16384)
    else true
  let subOk := !isAtomic f.opcode || atomicTypeOk f.opcode f.sub
  let cbfOk := !f.has flCmpr || (cbfOpcode f.opcode &&
    (if [0x10, 0x16].contains o then (decide (len = 32) || decide (len = 64)) && decide (a % 2048 = 0)
     else if [0x12, 0x90].contains o then decide (a % 2048 = 0) else true))
  let handleOk := !(decide (0x80 ≤ o) && decide (o ≤ 0x83)) || decide (f.handle.toNat < 2 ^ 18)
  lenOk && addrOk && subOk && cbfOk && handleOk && f.payload.length == 64 * opcodeUnits f.opcode len

/-! ### Sources and destinations -/

/-- Lines of a request: numbers of the lines it touches. -/
def Req.lines (r : Req) : List Nat :=
  let n := if r.frame.has flCmpr && isWrite r.frame.opcode then 32 * field r.frame.payload 0 1
           else if isLoad r.frame.opcode || [0x12, 0x13, 0x90].contains r.frame.opcode.toNat then r.frame.length.toNat else 1
  (List.range n).map (fun i => fpaLine r.fpa.toNat + i)

/-- Blocks of a request. -/
def Req.blocks (r : Req) : List Nat := (r.lines.map (· / 32)).dedup
/-- Its lines that are still to be performed, lowest first (R95). -/
def Req.left (r : Req) : List Nat := r.lines.drop r.done

/-- Site of a core's die. -/
def State.coreSite (s : State) (k : Nat) : Nat := s.lcSite (lcOf k)

/-- The pavilion that a destination unit names, in the tables of an epoch. -/
def dstPavilion (c : List Section) (u : BitVec 16) : Option Nat :=
  match unitOf c u with
  | .pavilion pv => if pvDefined c pv then some pv else none
  | _ => none

/-- The source of a request for the rules of chapter 04 (R92). -/
def Origin.source (o : Origin) (f : Frame) : Nat :=
  match o with
  | .thread c t _ => 2 ^ 20 + 64 * c + t
  | .coll id _ => 2 ^ 24 + id
  | .attn d _ _ => 2 ^ 25 + d
  | .leaf n => 2 ^ 26 + n
  | _ => f.src.toNat

/-- The frame that a port sends back for a request, with the header of R74. -/
def answer (f : Frame) (op : BitVec 8) (vc : BitVec 3) (st : BitVec 6) (pl : List Byte) : Frame :=
  { opcode := op, dst := f.src, src := f.dst, vc := vc, tenant := f.tenant, epoch := f.epoch, addr := 0,
    length := BitVec.ofNat 7 (pl.length / 64), tag := f.tag, status := st,
    flags := if f.has flCe then flCeEcho else 0, handle := 0, payload := pl }

/-- The completion of a request: opcode and virtual channel of Table 03-8, and the data of R75. -/
def completion (f : Frame) (st : BitVec 6) (data : List Byte) : Frame :=
  let o := f.opcode.toNat
  let ones := fill (64 * (if isFetch f.opcode then 1 else f.length.toNat)) 0xFF
  if o = 0x10 ∨ o = 0x11 then answer f 0x18 3 st (if st = stOk then data else ones)
  else if isFetch f.opcode then answer f 0x18 3 st (if st = stOk then data else ones)
  else if o = 0x16 then answer f 0x91 7 st (if st = stOk then data else ones)
  else if o = 0x40 ∨ o = 0x41 then answer f 0x58 1 st (if st = stOk then data else fill 64 0xFF)
  else if isCoherence f.opcode then answer f 0x59 1 st []
  else if o = 0x78 then { answer f 0x7A 5 st [] with handle := f.handle }
  else if o = 0x80 then { answer f 0x81 4 st (if data.isEmpty then f.payload.headD 0 :: fill 63 0 else data) with handle := f.handle }
  else if o = 0x82 then { answer f 0x83 4 st (if data.isEmpty then 4 :: fill 63 0 else data) with handle := f.handle }
  else if o = 0x61 then answer f 0x62 6 st (fill 64 0)
  else answer f 0x19 3 st []

/-- Count a completion with TARGET_DEAD that a port sends (Table 03-21). -/
def State.countDead (s : State) (p : Nat) (st : BitVec 6) : State :=
  if st = stDead then s.countPrt (s.base p) 4 else s

/-- A frame that arrived on an S port has met an outcome of R359: the fourth within a millisecond of FT makes the port lot-key
suspect, with one entry and event of class 0x11. -/
def State.lotFail (s : State) (p : Nat) : State :=
  let b := s.base p
  if (s.link b).cls ≠ 2 ∨ s.isFenced 7 b then s
  else
    let l := (s.now :: (s.link b).lotFails.filter (fun t => decide (s.now < t + msT))).take 4
    let s := s.onLink b (fun x => { x with lotFails := l })
    if l.length < 4 then s
    else ({ s with log := { s.log with fenced := Table.write false s.log.fenced (2 ^ 24 * 7 + b) true } }).logE 0x11 7 (srcP b) b true

/-- A request that arrived on a port completes with a status: MALFORMED counts towards R359. -/
def State.lotStatus (s : State) (p : Nat) (st : BitVec 6) : State := if st = stMalformed then s.lotFail p else s

/-- The tag of an access that a POLICY record makes: no request of the adapter waits for its answer (log 40). -/
def policyTag : BitVec 16 := 0xFFFF

/-- Deliver a completion to its requester: out of its port, or to its core (R29, R205). -/
def State.emitOut (s : State) (n : Nat) (o : Origin) (x : QFrame) : State :=
  match o with
  | .port p => ((s.countDead p x.frame.status).lotStatus p x.frame.status).enqueue (s.base p) none x
  | .thread c t sink => s.onCore c (fun k => { k with comps := k.comps ++ [{ n := n, tid := t, sink := sink, frame := x.frame }] })
  | .ptw tag w =>
    if tag = policyTag then { s with xl := { s.xl with cmdResult := x.frame.status } }
    else { s with xl := { s.xl with ptwDone := some (tag, w, x.frame.status, BitVec.ofNat 64 (field x.frame.payload (8 * (s.xl.ptwAddr.toNat % 8)) 8)) } }
  | .walk id => { s with xl := { s.xl with walks := s.xl.walks.map (fun w =>
      if w.id = id then { w with got := some (x.frame.status, x.frame.payload.take 64) } else w) } }
  | .debug tag =>
    if tag = policyTag then
      { s with sec := { s.sec with dbgRes := x.frame.status, dbgLine := if x.frame.status = stOk then x.frame.payload.take 64 else fill 64 0xFF } }
    else { s with sec := { s.sec with dbgDone := some (tag, x.frame.status, x.frame.payload.take 64) } }
  | .leaf k => { s with req := { s.req with reqs := s.req.reqs.map (fun (r : Req) =>
      if r.n = k then { r with cas := some (x.frame.status, field x.frame.payload 0 8) } else r) } }
  | _ => s

/-- A link state in which VC6 frames flow (Table 03-12). -/
def LinkState.flows : LinkState → Bool
  | .hello | .opened | .fenced => true
  | _ => false

/-- A notice on VC6 to a unit: out of the port that leads to it, in every state that carries VC6. -/
def State.notice (s : State) (u : BitVec 16) (f : Frame) : State :=
  match unitOf s.comp.run u with
  | .port p => if (s.link (s.base p)).state.flows = true then s.sendFrom (portSite p) p none { frame := f } else s
  | .away p _ => if (s.link (s.base p)).state.flows = true then s.sendFrom (portSite p) p none { frame := f } else s
  | _ => s

/-- Unit ID under which this module sends (R77). -/
def State.selfUnit (s : State) : BitVec 16 := s.glb.unitId

/-- A FAULT.REC (Table 03-15). -/
def State.faultRec (s : State) (unit : BitVec 16) (tag : BitVec 13) (reason target stages addr : Nat) : Frame :=
  { opcode := 0x64, dst := unit, src := s.selfUnit, vc := 6, length := 1, epoch := s.comp.epoch,
    payload := leBytes 2 tag.toNat ++ [0x02, BitVec.ofNat 8 reason] ++ leBytes 2 target ++ [BitVec.ofNat 8 stages, 0] ++
      leBytes 7 addr ++ [0] ++ leBytes 8 s.now ++ fill 40 0 }

/-- Target limit in force (R86). -/
def State.targetLimit (s : State) : Nat := s.glb.tgtUs.toNat * usT

/-- Timer of the module that leads to the target, and the ingress backstop (R88). -/
def State.targetTimer (s : State) (hops : Nat) : Nat := s.now + max (2 * usT) (s.targetLimit - 6400 - 11200 * hops)
def State.backstopTimer (s : State) (n : Nat) : Nat := s.now + s.targetLimit + 11200 * n - 6400

/-! ### Extent checks (R132, R133) -/

/-- Who asks, for Table 06-3. -/
inductive Asker where
  | unit (u : BitVec 16)
  | core (k : Nat)
  deriving DecidableEq, Repr

/-- Asker of a request. -/
def Origin.asker (o : Origin) (f : Frame) : Asker :=
  match o with
  | .thread c _ _ => .core c
  | .coll _ c => .core c
  | .attn _ _ (some c) => .core c
  | _ => .unit f.src

/-- Table 06-3 permits the access. -/
def sharePermits (c : List Section) (e : Extent) (who : Asker) (write : Bool) : Bool :=
  match who with
  | .core k => coreUnder c e.pv.toNat k
  | .unit u =>
    if e.owner != 0xFFFF && u == e.owner then true
    else match e.share.toNat with
      | 1 => true
      | 2 => !write
      | _ => false

/-- The tenant is STOPPING or retired (R133). -/
def State.tenantGone (s : State) (t : BitVec 10) : Bool :=
  (s.tenant t.toNat).state == .stopping || (s.tenant t.toNat).state == .retired

/-- Status of the extent checks of Table 06-4 for a request at an FPA, by rank (R74); OK when all pass. -/
def State.extCheck (s : State) (c : List Section) (f : Frame) (who : Asker) (fpa : Nat) : BitVec 6 :=
  let e := s.extent (fpaExtent fpa)
  let inTree := match dstPavilion c f.dst with
    | some top => inSubtree c top e.pv.toNat
    | none => false
  if s.tenantGone f.tenant then stRetired
  else if e.state != .active || !inTree || e.tenant != f.tenant || !sharePermits c e who (writes f.opcode) then stRevoked
  else if e.coherent then
    match (s.dom e.dom.toNat).state with
    | .up => stOk
    | .flush => if f.opcode = 0x43 ∨ f.opcode = 0x44 then stOk else stDomDown
    | _ => stDomDown
  else stOk

end Sys2Proof.Machine
end

