-- ==== Sys2Proof/Machine/Local.lean ====
section
/-! DEFINITION. The local memory of the cores: scratchpads and cluster memory (chapter 09). -/

namespace Sys2Proof.Machine

/-- Place of a local address of core k (Table 09-4): true for cluster memory, and the byte's index in it. -/
def localAt (k a : Nat) : Option (Bool × Nat) :=
  if a < 2 ^ 20 then some (false, k * 2 ^ 20 + a)
  else if 0x01000000 ≤ a ∧ a < 0x01FC0000 then some (true, clusterOf k * 2 ^ 24 + (a - 0x01000000))
  else if 0x04000000 ≤ a ∧ a < 0x04800000 then some (false, clusterOf k * 8 * 2 ^ 20 + (a - 0x04000000))
  else none

/-- End of the region that holds an address. -/
def localEnd (a : Nat) : Nat := if a < 2 ^ 20 then 2 ^ 20 else if a < 0x01FC0000 then 0x01FC0000 else 0x04800000

/-- An access of `n` bytes of core k lies in one open region (R201, R305). -/
def localOk (c : List Section) (k a n : Nat) (write : Bool) : Bool :=
  n == 0 ||
  (match localAt k a with
   | none => false
   | some (cl, _) =>
     decide (a + n ≤ localEnd a) && !(cl && (serviceCluster c (clusterOf k) || (write && inText c k a n))))

/-- Read local bytes. -/
def State.localBytes (s : State) (k a n : Nat) : List Byte :=
  match localAt k a with
  | some (true, i) => s.cpu.cmem.bytes i n
  | some (false, i) => s.cpu.spad.bytes i n
  | none => fill n 0

/-- A little-endian local value. -/
def State.localNat (s : State) (k a n : Nat) : Nat := leNat (s.localBytes k a n)

/-- Write a register; X0 stays 0 (R198). -/
def Thread.put (t : Thread) (r : Nat) (v : BitVec 64) : Thread :=
  if r = 0 then t else { t with x := Table.write 0 t.x r v }

/-- A thread in WAITL whose word has changed goes on, with 1 in its register (R222). -/
def State.wakeWord (s : State) (k : Nat) (t : Thread) : Thread :=
  match t.wait with
  | .word a old xd _ =>
    if t.state == .waitSync && BitVec.ofNat 64 (s.localNat k a 8) != old then { t with state := .ready, wait := .none }.put xd 1 else t
  | _ => t

/-- The threads of a cluster that wait for a word look at it again (R222). -/
def State.wakeWords (s : State) (cl : Nat) : State :=
  (List.range 8).foldl (fun (s : State) j =>
    let k := 8 * cl + j
    if (s.core k).threads.any (fun e => match e.2.wait with | .word _ _ _ _ => true | _ => false) then
      s.onCore k (fun (c : Core) => { c with threads := Table.mapAll {} (fun _ t => s.wakeWord k t) c.threads })
    else s) s

/-- Write local bytes; the threads of the cluster that wait for a word see it. -/
def State.localWrite (s : State) (k a : Nat) (bs : List Byte) : State :=
  match localAt k a with
  | some (true, i) => ({ s with cpu := { s.cpu with cmem := s.cpu.cmem.write i bs } } : State).wakeWords (clusterOf k)
  | some (false, i) => ({ s with cpu := { s.cpu with spad := s.cpu.spad.write i bs } } : State).wakeWords (clusterOf k)
  | none => s

end Sys2Proof.Machine
end

