-- ==== Sys2Proof/Machine/Abort.lean ====
section
/-! DEFINITION. The abort of a collective generation (R250 to R252), and the delivery of every completion. -/

namespace Sys2Proof

/-- Collective ID and generation of a HANDLE (Table 03-5). -/
def Frame.collId (f : Frame) : Nat := f.handle.toNat % 4096
def Frame.collGen (f : Frame) : Nat := f.handle.toNat / 4096

end Sys2Proof

namespace Sys2Proof.Machine

/-! ### Collective IDs and frames -/

/-- HANDLE of an ID and generation. -/
def collHandle (id : Nat) (gen : BitVec 12) : BitVec 24 := BitVec.ofNat 24 (id + 4096 * gen.toNat)

/-- Group of a collective. -/
def State.collGroup (s : State) (id : Nat) : Group := s.group (s.coll id).group.toNat
/-- Unit ID of the pavilion of its admission record, to which modules of a tree send (R229). -/
def State.collUnit (s : State) (id : Nat) : BitVec 16 := pvUnit s.comp.run (s.admRec (s.coll id).adm.toNat).pv.toNat
/-- Site of the owning cluster's die. -/
def State.collSite (s : State) (id : Nat) : Nat := s.lcSite ((s.coll id).cluster.toNat / 4)

/-- Child modules of a binding: number and S port. -/
def Coll.children (c : Coll) : List (Nat × Nat) :=
  if c.role = 1 ∨ c.role = 2 then
    ((List.range 8).filter (fun i => c.childV.getLsbD i)).map (fun i => (i, (Table.read 0 c.childPort i).toNat))
  else []
/-- The module has a parent. -/
def Coll.hasParent (c : Coll) : Bool := c.role == 2 || c.role == 3
/-- A generation is in progress and has not committed. -/
def Coll.live (c : Coll) : Bool := c.state == .opened || c.state == .committing
/-- GATED of its descriptor, and the egress queue that gated frames leave on (R249). -/
def Coll.gated (c : Coll) : Bool := bit (field c.desc 4 1) 3
def Coll.queue (c : Coll) : Option Nat := if c.gated then some c.gateQ.toNat else none

/-- A frame that a module sends to the next one of a tree. -/
def State.treeFrame (s : State) (id : Nat) (op : BitVec 8) (vc : BitVec 3) (st : BitVec 6) (addr : Nat) (pl : List Byte) : Frame :=
  { opcode := op, dst := s.collUnit id, src := s.selfUnit, vc := vc, tenant := (s.collGroup id).tenant, epoch := s.comp.epoch,
    addr := BitVec.ofNat 56 addr, length := BitVec.ofNat 7 (pl.length / 64), status := st,
    handle := collHandle id (s.coll id).gen, payload := pl }

/-- The COLL.DONE that answers a COLL.OPEN with a status and, when aborted, a cause (R243, R251). -/
def doneFrame (f : Frame) (st : BitVec 6) (cause : Nat) : Frame :=
  { completion f st [] with addr := BitVec.ofNat 56 cause }

/-- Send an answer to the issuer of a COLL.OPEN: out of its port, or to its core. -/
def State.toIssuer (s : State) (site n : Nat) (o : Origin) (q : Option Nat) (x : QFrame) : State :=
  match o with
  | .port p => (s.lotStatus p x.frame.status).sendFrom site p q x
  | o => s.emitOut n o x

/-- Send an answer to a contributor. -/
def State.toPart (s : State) (id : Nat) (c : Contributor) (q : Option Nat) (x : QFrame) : State :=
  s.toIssuer (s.collSite id) c.n c.origin q x

/-- Remove the COLL.RESULT frames of a generation that have not started (R251 step 4). -/
def State.dropResults (s : State) (h : BitVec 24) : State :=
  let keep := fun (x : QFrame) => !(x.frame.opcode == 0x71 && x.frame.handle == h)
  { s with
    pkg := { s.pkg with transit := s.pkg.transit.filter (fun (t : Transit) => keep t.item) }
    ports := Table.mapAll {} (fun _ p => { p with tc := { p.tc with
      queues := Table.mapAll {} (fun _ q => { q with fifos := Table.mapAll [] (fun _ l => l.filter keep) q.fifos }) p.tc.queues } }) s.ports }

/-- Abort the generation at this module (R251, steps 1 to 5). -/
def State.abortHere (s : State) (id cause : Nat) : State :=
  let c := s.coll id
  if !c.live then s
  else
    let g := s.collGroup id
    let s := s.onColl id (fun c => { c with state := .aborting, cause := BitVec.ofNat 4 cause, deadline := none, unfreed := [] })
    let s := s.dropResults (collHandle id c.gen)
    let s := c.children.foldl (fun s x =>
      s.sendFrom (s.collSite id) x.2 none { frame := s.treeFrame id 0x7F 5 stAborted cause [], exempt := true }) s
    let locals := c.parts.filter (fun p => decide (p.who < 256) && !(Table.read {} g.members p.who).dead)
    let s := locals.foldl (fun s p => s.toPart id p none { frame := doneFrame p.frame stAborted cause, exempt := true }) s
    (s.countClv 1).logWith 0x4F cause srcModule (id + c.gen.toNat * 2 ^ 16) 0x4F cause (id + c.gen.toNat * 2 ^ 16)

/-- A trigger of Table 10-8: a root or single module aborts; another sends it up (R250). -/
def State.collTrigger (s : State) (id cause : Nat) : State :=
  let c := s.coll id
  if !c.live then s
  else if c.hasParent then
    s.sendFrom (s.collSite id) c.parentPort.toNat none { frame := s.treeFrame id 0x7F 5 stAborted cause [], exempt := true }
  else s.abortHere id cause

/-! ### Answers to the module's own pool accesses -/

/-- A RES_POOL write has completed (R244). -/
def State.poolAnswer (s : State) (id : Nat) (st : BitVec 6) : State :=
  let s := s.onColl id (fun c => { c with poolLeft := c.poolLeft - 1 })
  if st = stOk then s else s.collTrigger id 0xF

/-- TVA of the KV page that holds a TVA. -/
def kvPageOf (a : Nat) : Nat := a / 16384 * 16384

/-- An access of a decode has completed (R271, R272). A KV page met as NO_TRANSLATION is probed: its walk stands ready, and
KV_PROBE_COMPLETE takes its steps. -/
def State.attnAnswer (s : State) (id what : Nat) (st : BitVec 6) (data : List Byte) : State :=
  match s.atn.decodes.find? (fun d => d.id == id) with
  | none => s
  | some d =>
    let put := fun (s : State) (d : Decode) =>
      ({ s with atn := { s.atn with decodes := s.atn.decodes.map (fun (x : Decode) => if x.id = d.id then d else x) } } : State)
    if what = 0 then put s { d with outLeft := d.outLeft - 1, status := stMin d.status st }
    else
      let line := (what - 1) / 2
      let n := data.length / 64
      let lines := (List.range n).map (fun i => (line + i, (data.drop (64 * i)).take 64))
      let d := { d with asked := lines.foldl (fun t x => Table.write false t x.1 false) d.asked
                        got := lines.foldl (fun t x => Table.write [] t x.1 x.2) d.got }
      let page := kvPageOf (64 * line)
      if st = stOk then put s d
      else if st = stNoTrans ∧ what % 2 = 1 then
        if d.probing.contains page || d.dropped.contains page || d.broken.contains page then put s d
        else
          let w : Walk := { id := s.xl.nextWalk, unit := 16 + d.handle / 2048 / 4, core := none, tenant := d.frame.tenant, tva := page,
                            level := 3, table := (Table.read {} s.xl.roots d.frame.tenant.toNat).root.toNat * 65536,
                            probe := some (d.id, page) }
          put { s with xl := { s.xl with walks := s.xl.walks ++ [w], nextWalk := s.xl.nextWalk + 1 } } { d with probing := d.probing ++ [page] }
      else put s { d with status := stMin d.status st }

/-- Deliver a completion to whoever issued the request. -/
def State.emit (s : State) (n : Nat) (o : Origin) (x : QFrame) : State :=
  match o with
  | .coll id _ => s.poolAnswer id x.frame.status
  | .attn d what _ => s.attnAnswer d what x.frame.status x.frame.payload
  | _ => s.emitOut n o x

end Sys2Proof.Machine
end

