-- ==== Sys2Proof/Machine/Schedule.lean ====
section
/-! DEFINITION. The scheduled-event engine: which classes are due, and which comes first in a slot (R45 to R48). -/

namespace Sys2Proof.Machine

/-- Cycle of the active list of a port. -/
def Gate.cycle (g : Gate) : Nat := cycleOf (g.list true)

/-- A point of the grid `base + n × cycle`, n from 0, lies after `last` and not after `t`. -/
def pointDue (base cycle last t : Nat) : Bool :=
  decide (0 < cycle) && decide (base ≤ t) && (decide (last < base) || decide ((last - base) / cycle < (t - base) / cycle))

/-- The last grid point of `base + n × cycle` that is not after `now`. -/
def lastPoint (base cycle now : Nat) : Nat := base + (now - base) / cycle * cycle

/-- Slot of 4 ns of an FT. -/
def slotOf (t : FT) : Nat := t / 64

/-- Gate lists run in LOCKED and HOLDOVER (Table 02-3). -/
def State.gatesRun (s : State) : Bool := s.alive && (s.tim.state == .locked || s.tim.state == .holdover)

/-- Periods of the periodic classes 0x3 to 0x6: patrol, decay, self-test and margin scan; 0 where the class does not run. -/
def State.periodOf (s : State) : Nat → Nat
  | 3 => 3600 * s.log.patrolH.toNat * secT
  | 4 => s.tier.decayMs.toNat * msT
  | 5 => if s.log.stestEn || !s.log.passLeft.isEmpty then s.log.stestMs.toNat * msT else 0
  | 6 => s.log.scanMs.toNat * msT
  | _ => 0

/-- FT of the last firing of a periodic class. -/
def State.lastOf (s : State) : Nat → FT
  | 3 => s.tim.lastScrub
  | 4 => s.tim.lastHeat
  | 5 => s.tim.lastSelf
  | _ => s.tim.lastMargin

/-- A write of the register of a periodic class in the slot in which the class was due left that firing owed (R48). -/
def State.owes (s : State) (k : Nat) : Bool := Table.read false s.tim.owed k

/-- A periodic class is due. -/
def State.periodDue (s : State) (k : Nat) : Bool := s.owes k || gridDue (s.periodOf k) (s.lastOf k) s.now

/-- The grid point at which a due periodic class was scheduled. -/
def State.periodAt (s : State) (k : Nat) : FT := if s.owes k then s.now else s.now / s.periodOf k * s.periodOf k

/-- An event of class `k` of Table 02-4 is due, and its scheduled FT lies in slot `n`. -/
def State.classDue (s : State) (n : Nat) : Nat → Bool
  | 0 => s.gatesRun && s.ports.any (fun e =>
      let g := e.2.tc.gate
      g.installed && pointDue g.actBase g.cycle g.lastStart s.now && slotOf (lastPoint g.actBase g.cycle s.now) == n)
  | 1 => s.alive && s.clv.ids.any (fun e => e.2.live && (match e.2.deadline with | some d => decide (d ≤ s.now) && slotOf d == n | none => false))
  | 2 => s.alive && s.lse.tab.any (fun e => e.2.state == .armed && decide (e.2.expiry ≤ s.now) && slotOf e.2.expiry == n)
  | k => s.alive && s.periodDue k && slotOf (s.periodAt k) == n

/-- No class of a lower priority number is due in the slot of `t`: an event of class `k` scheduled at `t` may fire (R47). -/
def State.inTurn (s : State) (k : Nat) (t : FT) : Bool := (List.range k).all (fun j => !s.classDue (slotOf t) j)

/-- A periodic class has fired: nothing is owed to it. -/
def State.paid (s : State) (k : Nat) : State := { s with tim := { s.tim with owed := Table.write false s.tim.owed k false } }

/-- A write of a register that sets the period of class `k` lands: what was due before the write is still fired, and the next event is the
first of the new grid after this slot (R48). -/
def State.owing (s : State) (k : Nat) : State :=
  let s := if s.alive && s.periodDue k then { s with tim := { s.tim with owed := Table.write false s.tim.owed k true } } else s
  let n := s.now
  { s with tim := match k with
      | 3 => { s.tim with lastScrub := n }
      | 4 => { s.tim with lastHeat := n }
      | 5 => { s.tim with lastSelf := n }
      | _ => { s.tim with lastMargin := n } }

end Sys2Proof.Machine
end

