-- ==== Sys2Proof/Machine/Home.lean ====
section
/-! DEFINITION. The home slices: T0 sectors, fills and write-backs, poison, and the tray requests behind them (chapters 07,
08 and 15). -/

namespace Sys2Proof.Machine

/-! ### Lines and blocks in T0 -/

/-- A line of T0 is valid (R151). -/
def State.lineValid (s : State) (line : Nat) : Bool := (s.sector (line / 32)).valid.getLsbD (line % 32)
/-- A line is poisoned at its home (R353). -/
def State.linePoison (s : State) (line : Nat) : Bool := Table.read false s.tier.poison line
/-- Plain bytes of a block, read from its place: lines 0 to 2 x SECT - 1 while it is in CBF form (R179, R186). -/
def State.blockPlain (s : State) (b : Nat) : List Byte :=
  let tag := (s.sector b).tag.toNat
  if tag = 0x10 then s.tier.mem.bytes (2048 * b) 2048
  else (expandBlock tag (s.tier.mem.bytes (2048 * b) (sectBytes tag))).getD (fill 2048 0)
/-- Bytes of a line in T0; all-ones when poisoned (R353). -/
def State.lineBytes (s : State) (line : Nat) : List Byte :=
  if s.linePoison line then fill 64 0xFF
  else if (s.sector (line / 32)).tag = 0x10 then s.tier.mem.bytes (64 * line) 64
  else (s.blockPlain (line / 32)).drop (64 * (line % 32)) |>.take 64

/-- Tier page of a block. -/
def pageOfBlock (b : Nat) : Nat := fpaPage (2048 * b)
/-- Extent entry of a block. -/
def State.blockExtent (s : State) (b : Nat) : Extent := s.extent (fpaExtent (2048 * b))
/-- Home slice of a block, in the tables in force. -/
def State.sliceOf (s : State) (b : Nat) : Nat := (homeSlice s.comp.run (s.blockExtent b).pv.toNat b).getD 0

/-- A plot holds lines of no pavilion and no reserved area (R149, R150). -/
def commonPlot (c : List Section) (n : Nat) : Bool :=
  3 ≤ n % 256 && !slotPlot c n && !(List.range 64).any (fun pv => pvDefined c pv && pvHasPlot c pv n)

/-- Plot group that a slice's memory hub uses for an extent of a pavilion (R150): PV + 1, or 0 for the common plots. -/
def plotGroup (c : List Section) (pv hub : Nat) : Option Nat :=
  match (ancestors c 64 pv).find? (fun q => (List.range 1024).any (fun i => pvHasPlot c q (1024 * hub + i))) with
  | some q => some (q + 1)
  | none => if (List.range 1024).any (fun i => commonPlot c (1024 * hub + i)) then some 0 else none

/-- Plot group of a block. -/
def State.groupOf (s : State) (b : Nat) : Option Nat :=
  plotGroup s.comp.run (s.blockExtent b).pv.toNat (s.sliceOf b / 16)

/-- Tray and slot of a page are readable now. -/
def State.trayUp (s : State) (t : Nat) : Bool := (s.tray t).state == .online

/-- A sector may be evicted (R151): nothing staged or snooped on its lines, and its dirty lines have a slot to go to. -/
def State.evictable (s : State) (b : Nat) : Bool :=
  let pg := s.page (pageOfBlock b)
  let busy := s.coh.snoops.any (fun x => x.line / 32 == b) ||
    s.req.reqs.any (fun r => (r.stage == .staged || r.stage == .ordered || r.stage == .snooping || r.stage == .lineIo)
      && r.left.any (fun l => l / 32 == b))
  !busy && ((s.sector b).dirty == 0 || (!pg.moving && pg.res != 3 && pg.res != 0 && s.trayUp pg.tray.toNat))

/-- Plots of a group on a hub. -/
def groupPlots (c : List Section) (group hub : Nat) : Nat :=
  ((List.range 1024).filter (fun i => if group = 0 then commonPlot c (1024 * hub + i) else pvHasPlot c (group - 1) (1024 * hub + i))).length

/-- Set in which a block lies, of the sets of 16 sectors that the plots of 256 MiB of its group hold on its hub (R149, R150). -/
def State.setOf (s : State) (hub group b : Nat) : Nat :=
  Config.setOf (1024 * hub + group) b % (8192 * groupPlots s.comp.run group hub)

/-- Blocks held in the set in which a block of a hub and group lies (R150, R151). -/
def State.setBlocks (s : State) (hub group b : Nat) : List Nat :=
  (s.tier.sectors.filter (fun e => e.2.slice / 16 == hub && e.2.group == group && s.setOf hub group e.1 == s.setOf hub group b)).map (·.1)

/-- The lowest way of a block's set that no sector holds: its place, once it is allocated (R150, R179). -/
def State.freeWay (s : State) (hub group b : Nat) : Nat :=
  let used := ((s.setBlocks hub group b).filter (· != b)).map (fun x => (s.sector x).way)
  ((List.range 16).find? (fun w => !used.contains w)).getD 0

/-- Location of a block of T0 among the plots of its group on its hub: plot 2^17 x, block position below (R149, R179). -/
def State.placeOf (s : State) (b : Nat) : Nat :=
  let x := s.sector b
  16 * s.setOf (x.slice / 16) x.group b + x.way

/-- The sector to evict so that a block can be placed: none where a way is free. The outer none says that the block
cannot be placed (R151, R152). -/
def State.victim (s : State) (b : Nat) : Option (Option Nat) :=
  if (s.sector b).valid != 0 then some none
  else match s.groupOf b with
    | none => none
    | some g =>
      let bs := s.setBlocks (s.sliceOf b / 16) g b
      if bs.length < 16 then some none
      else
        match (bs.filter s.evictable).foldl (fun (best : Option Nat) x =>
            match best with
            | none => some x
            | some y => if (s.sector x).used < (s.sector y).used then some x else some y) none with
        | some v => some (some v)
        | none => none

/-! ### Tray frames (R155) -/

/-- XTS of a line under the key slot of a tenant (R328). -/
def sealLine (t fpa : Nat) (bs : List Byte) : List Byte := (List.range 64).map (Config.seal t fpa bs)
def unsealLine (t fpa : Nat) (bs : List Byte) : List Byte := (List.range 64).map (Config.unseal t fpa bs)

/-- Unit ID of the tray on a T port: the lowest that the unit table maps to it (R154). -/
def trayUnitId (c : List Section) (p : Nat) : Option (BitVec 16) :=
  ((List.range 65536).find? (fun u => unitOf c (BitVec.ofNat 16 u) == .port p)).map (BitVec.ofNat 16)

/-- A tag names one of the module's own outstanding requests on a T or S port or bundle (R77). -/
def State.tagBusy (s : State) (b : Nat) (tag : BitVec 13) : Bool :=
  s.tier.reqs.any (fun r => decide (r.tray < 256) && s.base r.tray == b && r.tag == tag && r.held.isNone)
    || s.req.reqs.any (fun r => r.stage == .remote b && r.frame.tag == tag && (match r.origin with | .port _ => false | _ => true))
    || s.atn.decodes.any (fun d => d.subs.any (fun x => s.base x.port == b && x.tag == tag && !x.finished && x.held.isNone))
    || s.clv.ids.any (fun e => e.2.hasParent && (e.2.live || e.2.state == .aborting) && s.base e.2.parentPort.toNat == b && e.2.upTag == tag)

/-- The first tag of `n` from `tag` on that `busy` does not name. -/
def freeTagFrom (busy : BitVec 13 → Bool) : Nat → BitVec 13 → Option (BitVec 13)
  | 0, _ => none
  | n + 1, tag => if busy tag then freeTagFrom busy n (tag + 1) else some tag

/-- The tag that the module's next own request on a port draws: none while 8,192 are outstanding (R77, R78). -/
def State.freeTag (s : State) (b : Nat) : Option (BitVec 13) := freeTagFrom (s.tagBusy b) 8192 (s.link b).nextTag

/-- Tag for the next transaction on a bridge port: one that no outstanding transaction has. -/
def State.bridgeTag (s : State) (t : Nat) : BitVec 13 :=
  (freeTagFrom (fun g => s.tier.reqs.any (fun r => r.tray == t && r.tag == g)) 8192 0).getD 0

/-- Site from which a request to a tray starts: the memory hub of a block's slice. -/
def State.hubSite (s : State) (b : Nat) : Nat := mdSite (s.sliceOf b / 16)

/-- Send the frame of a request to a tray under a tag. -/
def State.trayFrame (s : State) (t b : Nat) (tag : BitVec 13) (f : Frame) : State :=
  (s.onLink (s.base t) (fun l => { l with nextTag := tag + 1 })).sendFrom (s.hubSite b) t none { frame := { f with tag := tag } }

/-- Send a request to a tray: its record, and on a T port its frame (R155), which waits while no tag is free (R78). On a bridge port
the record holds the MemRd or MemWr of its lines (R157). -/
def State.sendTray (s : State) (t b : Nat) (op : TrayOp) (tenant : BitVec 10) (opcode : BitVec 8) (addr : Nat)
    (len : Nat) (st : BitVec 6) (pl : List Byte) : State :=
  let put := fun (q : TrayReq) => ({ s with tier := { s.tier with reqs := s.tier.reqs ++ [q] } } : State)
  if t < 256 then
    let f : Frame :=
      { opcode := opcode, dst := (trayUnitId s.comp.run t).getD 0xFFFF, src := s.selfUnit,
        vc := (opcodeVc opcode).getD 2, tenant := tenant, epoch := s.comp.epoch, addr := BitVec.ofNat 56 addr,
        length := BitVec.ofNat 7 len, status := st, flags := flPhys, payload := pl }
    match s.freeTag (s.base t) with
    | some tag => (put { tray := t, tag := tag, op := op, timer := s.targetTimer 0 }).trayFrame t b tag f
    | none => put { tray := t, tag := 0, op := op, timer := s.targetTimer 0, held := some f, addr := b }
  else put { tray := t, tag := s.bridgeTag t, op := op, timer := s.now + s.tier.ctoMs.toNat * msT, addr := addr, lines := len,
             write := isWrite opcode, data := pl, poison := if isWrite opcode && st == stPoison then BitVec.allOnes 32 else 0 }

/-- A held request is a line for a FRESH page, which waits for the zeroes of the page. -/
def State.waitsZero (s : State) (q : TrayReq) : Bool :=
  match q.op with | .writeBack b _ => q.held.isSome && (s.page (pageOfBlock b)).fresh | _ => false

/-- Send a held request as it was meant. -/
def State.sendHeld (s : State) (q : TrayReq) : State :=
  match q.held with
  | some f => ({ s with tier := { s.tier with reqs := s.tier.reqs.erase q } } : State).sendTray q.tray q.addr q.op f.tenant f.opcode
      f.addr.toNat f.length.toNat f.status f.payload
  | none => s

/-- The oldest request that waits for a tag on a port is sent when one is free (R78). -/
def State.trayHeld (s : State) (p : Nat) : State :=
  match s.tier.reqs.find? (fun r => r.held.isSome && decide (r.tray < 256) && s.base r.tray == s.base p && !s.waitsZero r), s.freeTag (s.base p) with
  | some q, some tag => match q.held with
    | some f =>
      (({ s with tier := { s.tier with reqs := s.tier.reqs.erase q ++ [{ q with tag := tag, held := none, addr := 0, timer := s.targetTimer 0 }] } }
        : State)).trayFrame q.tray q.addr tag f
    | none => s
  | _, _ => s

/-- Site of the coordinating cluster of a handle: its cluster is LC x 4 + cluster = h[17:11] (R255). -/
def State.handleSite (s : State) (h : Nat) : Nat := s.lcSite (h / 8192 % 32)

/-- Send an ATN.SUB under a tag. -/
def State.subFrame (s : State) (p handle : Nat) (tag : BitVec 13) (f : Frame) : State :=
  (s.onLink (s.base p) (fun l => { l with nextTag := tag + 1 })).sendFrom (s.handleSite handle) p none { frame := { f with tag := tag } }

/-- The oldest ATN.SUB that waits for a tag on a port is sent when one is free (R78). -/
def State.subHeld (s : State) (p : Nat) : State :=
  match s.atn.decodes.findSome? (fun d => (d.subs.findIdx? (fun y => y.held.isSome && !y.finished && s.base y.port == s.base p)).map (fun i => (d, i))),
      s.freeTag (s.base p) with
  | some (d, i), some tag => match d.subs[i]? with
    | some y => match y.held with
      | some f =>
        ({ s with atn := { s.atn with decodes := s.atn.decodes.map (fun (x : Decode) =>
            if x.id = d.id then { x with subs := setAt x.subs i { y with tag := tag, held := none, timer := s.targetTimer 0 } } else x) } }
          : State).subFrame y.port d.handle tag f
      | none => s
    | none => s
  | _, _ => s

/-- A tag of the module's own requests on a port has come free: the oldest of its requests that waits for one is sent. -/
def State.tagFree (s : State) (p : Nat) : State := (s.trayHeld p).subHeld p

/-- Tray address of a slot: CX1 slots begin at 2 MiB, CXL slots at 0 (R155, R157). -/
def slotAddr (t slot : Nat) : Nat := (if t < 256 then slot + 1 else slot) * 2 ^ 21

/-- Tray address of a block of a page's slot. -/
def State.blockAddr (s : State) (b : Nat) : Nat :=
  let pg := s.page (pageOfBlock b)
  slotAddr pg.tray.toNat pg.slot.toNat + 2048 * (b % 1024)

/-- An operation on a block is outstanding. -/
def State.trayBusy (s : State) (op : TrayOp) : Bool := s.tier.reqs.any (fun r => r.op == op)

/-- A write to the slot of a block is outstanding, so that a read of it would not see its last value (R94). -/
def State.slotBusy (s : State) (b : Nat) : Bool :=
  s.tier.reqs.any (fun r => match r.op with | .writeBack x _ => x == b | .writeLine _ l => l / 32 == b | _ => false)

/-- Start the fill of a block, unless one, or a write to its slot, is outstanding (R94, R151, R155). -/
def State.startFill (s : State) (b : Nat) : State :=
  if s.trayBusy (.fill b) || s.slotBusy b then s
  else s.sendTray (s.page (pageOfBlock b)).tray.toNat b (.fill b) (s.blockExtent b).tenant 0x16 (s.blockAddr b) 32 stOk []

/-- Read one line from its slot for a request that does not allocate (R94, R152). -/
def State.readSlotLine (s : State) (n line : Nat) : State :=
  let b := line / 32
  if s.trayBusy (.readLine n line) || s.slotBusy b then s
  else
    s.sendTray (s.page (pageOfBlock b)).tray.toNat b (.readLine n line) (s.blockExtent b).tenant 0x10
      (s.blockAddr b + 64 * (line % 32)) 1 stOk []

/-- Lines of a block are written to its slot: what is being read of them there is out of date, and is read again (R94). -/
def State.staleReads (s : State) (b : Nat) : State :=
  { s with tier := { s.tier with reqs := s.tier.reqs.map (fun (q : TrayReq) => match q.op with
      | .fill x => if x = b then { q with op := .stale } else q
      | .readLine _ l => if l / 32 = b then { q with op := .stale } else q
      | _ => q) } }

/-- A line changes: what requests have read of it at its slot is out of date (R94). -/
def State.forget (s : State) (line : Nat) : State :=
  { s with
    req := { s.req with reqs := s.req.reqs.map (fun (r : Req) => { r with
      got := r.got.filter (fun e => e.1 != line), poison := r.poison && !(writes r.frame.opcode && r.lines == [line]) }) }
    tier := { s.tier with reqs := s.tier.reqs.map (fun (q : TrayReq) => match q.op with
      | .readLine _ l => if l = line then { q with op := .stale } else q
      | _ => q) } }

/-- Write one line to a slot (R152), poisoned lines with STATUS 0x01 (R355). -/
def State.writeSlotLine (s : State) (op : TrayOp) (tray slot line : Nat) (bs : List Byte) (bad : Bool) : State :=
  let b := line / 32
  let t := (s.blockExtent b).tenant
  s.sendTray tray b op t 0x12 (slotAddr tray slot + 2048 * (b % 1024) + 64 * (line % 32)) 1
    (if bad then stPoison else stOk) (if bad then fill 64 0xFF else sealLine t.toNat (64 * line) bs)

/-- Write one line to the slot of its page, and while the page moves to both slots (R152); a block under copy is copied again. -/
def State.writeThrough (s : State) (op : TrayOp) (line : Nat) (bs : List Byte) : State :=
  let b := line / 32
  let pg := s.page (pageOfBlock b)
  let s := (s.staleReads b).forget line
  let s := { s with tier := { s.tier with poison := Table.write false s.tier.poison line false } }
  let s := s.writeSlotLine op pg.tray.toNat pg.slot.toNat line bs false
  match s.tier.moves.find? (fun m => m.page == pageOfBlock b) with
  | some m => match m.dst with
    | some d =>
      let s := s.writeSlotLine op d.1 d.2 line bs false
      { s with tier := { s.tier with moves := s.tier.moves.map (fun (x : Move) =>
          if x.page = pageOfBlock b ∧ x.copied = b % 1024 then { x with again := true } else x) } }
    | none => s
  | none => s

/-- A line for the slot of a FRESH page waits for the zeroes (R160). -/
def State.holdLine (s : State) (op : TrayOp) (line : Nat) (bs : List Byte) : State :=
  let b := line / 32
  let pg := s.page (pageOfBlock b)
  let t := (s.blockExtent b).tenant
  let f : Frame := { opcode := 0x12, tenant := t, addr := BitVec.ofNat 56 (s.blockAddr b + 64 * (line % 32)), length := 1,
                     payload := sealLine t.toNat (64 * line) bs }
  let s := s.forget line
  { s with tier := { s.tier with reqs := s.tier.reqs ++ [{ tray := pg.tray.toNat, tag := 0, op := op, timer := s.targetTimer 0, held := some f, addr := b }] } }

/-- Key of a slot of a tray. -/
def slotKey (t slot : Nat) : Nat := t * 2 ^ 30 + slot

/-- Key of the slot of a page. -/
def State.pageSlot (s : State) (page : Nat) : Nat := slotKey (s.page page).tray.toNat (s.page page).slot.toNat

/-- Zero over a FRESH page must precede its first write-back (R160): block by block, of the slot that the page has now. -/
def State.zeroBlock (s : State) (page i : Nat) : State :=
  let pg := s.page page
  let b := page * 1024 + i
  let t := (s.blockExtent b).tenant
  s.sendTray pg.tray.toNat b (.zero page (s.pageSlot page) i) t 0x90 (slotAddr pg.tray.toNat pg.slot.toNat + 2048 * i) 32 stOk
    ((List.range 32).flatMap (fun j => sealLine t.toNat (2048 * b + 64 * j) (fill 64 0)))

/-- The zeroing of a page ends without its effect: its slot is released, or moves away (R160, R166). -/
def State.stopZero (s : State) (page : Nat) : State :=
  { s with tier := { s.tier with zeroing := s.tier.zeroing.filter (· != page) } }

/-- Lines of a block as bytes and poison. -/
def State.blockLines (s : State) (b : Nat) : List (List Byte × Bool) :=
  (List.range 32).map (fun i => (s.lineBytes (32 * b + i), s.linePoison (32 * b + i)))

/-- Write a block back to its slot (R151): one SB.WR, or 32 STs when a line is poisoned (R355) or not valid here. -/
def State.writeBack (s : State) (b : Nat) : State :=
  let s := s.staleReads b
  let pg := s.page (pageOfBlock b)
  let ls := s.blockLines b
  let t := (s.blockExtent b).tenant
  let whole := (s.sector b).valid == BitVec.allOnes 32 && ls.all (fun l => !l.2)
  if whole then
    s.sendTray pg.tray.toNat b (.writeBack b (s.sector b).dirty) t 0x90 (s.blockAddr b) 32 stOk
      ((List.range 32).flatMap (fun i => sealLine t.toNat (2048 * b + 64 * i) (ls.getD i ([], false)).1))
  else
    ((List.range 32).filter (fun i => (s.sector b).dirty.getLsbD i)).foldl
      (fun s i => s.writeSlotLine (.writeBack b (1 <<< i)) pg.tray.toNat pg.slot.toNat (32 * b + i) (ls.getD i ([], false)).1 (ls.getD i ([], false)).2) s

/-- A FRESH page is written with zeroes before its first write-back (R160): true when the write-back may go now. -/
def State.readyForWriteBack (s : State) (b : Nat) : Bool := !(s.page (pageOfBlock b)).fresh

/-- Start zeroing a FRESH page. -/
def State.startZero (s : State) (page : Nat) : State :=
  if s.tier.zeroing.contains page || (s.page page).moving then s
  else ({ s with tier := { s.tier with zeroing := s.tier.zeroing ++ [page] } }).zeroBlock page 0

/-- Lines of a block are gone on the way to their slot (log 61): a load must not find their older value there, so they are poisoned
unless T0 holds them. -/
def State.lostLines (s : State) (b : Nat) (mask : BitVec 32) : State :=
  ((List.range 32).filter (fun i => mask.getLsbD i && !s.lineValid (32 * b + i) && !s.linePoison (32 * b + i))).foldl
    (fun (s : State) i =>
      let s := (s.logE 0x02 0 (srcHS (s.sliceOf b)) (64 * (32 * b + i)) true).countLog 2
      { s with tier := { s.tier with poison := Table.write false s.tier.poison (32 * b + i) true } }) s

/-- Remove a sector and its bytes; its poison goes with it. -/
def State.dropSector (s : State) (b : Nat) : State :=
  { s with tier := { s.tier with
      sectors := Table.write {} s.tier.sectors b {}
      mem := s.tier.mem.filter (fun e => e.1 / 2048 != b)
      poison := s.tier.poison.filter (fun e => e.1 / 32 != b) } }

/-- Make a way for a block; false where the block cannot be placed now. A dirty victim of a FRESH page waits for its
zeroes, so it is no way yet. -/
def State.makeWay (s : State) (b : Nat) : State × Bool :=
  match s.victim b with
  | none => (s, false)
  | some none => (s, true)
  | some (some v) =>
    if (s.sector v).dirty == 0 then (s.dropSector v, true)
    else if s.readyForWriteBack v then ((s.writeBack v).dropSector v, true)
    else (s.startZero (pageOfBlock v), false)

/-! ### Placing and writing lines -/

/-- CMP_PV_CFG of a block's pavilion (R186). -/
def State.blockCmp (s : State) (b : Nat) : CmpPv := Table.read {} s.cmp.pvs (s.blockExtent b).pv.toNat

/-- The form in which a whole plain block enters T0 (R187), with its counts. -/
def State.formBlock (s : State) (b : Nat) (bs : List Byte) (poisoned : Bool) : State × Byte × List Byte :=
  let c := s.blockCmp b
  if c.enable && !poisoned then
    let r := compressBlock c.elem.toNat bs
    (s.countBlock r.1, BitVec.ofNat 8 r.1, if r.1 = 0x10 then [] else r.2)
  else (s, 0x10, [])

/-- Touch a sector: it becomes the most recently used (R151). -/
def State.touch (s : State) (b : Nat) : State :=
  { (s.setSector b { s.sector b with used := s.tier.clock + 1 }) with
    tier := { (s.setSector b { s.sector b with used := s.tier.clock + 1 }).tier with clock := s.tier.clock + 1 } }

/-- Place lines in T0: `ls` gives, by line of the block, bytes and poison. Lines already valid are kept unless `ow`. -/
def State.placeLines (s : State) (b : Nat) (ls : List (Nat × List Byte × Bool)) (ow dirty : Bool) : State :=
  let sec := s.sector b
  let ls := ls.filter (fun l => ow || !sec.valid.getLsbD l.1)
  let mask := ls.foldl (fun (m : BitVec 32) l => m ||| (1 <<< l.1)) 0
  let sec := if sec.valid = 0 then
      (let g := (s.groupOf b).getD 0
       { sec with group := g, slice := s.sliceOf b, way := s.freeWay (s.sliceOf b / 16) g b })
    else sec
  let sec := { sec with valid := sec.valid ||| mask, dirty := if dirty then sec.dirty ||| mask else sec.dirty }
  let s := s.setSector b sec
  ls.foldl (fun s l => { s with tier := { s.tier with
    mem := s.tier.mem.write (2048 * b + 64 * l.1) (if l.2.2 then fill 64 0 else l.2.1)
    poison := if l.2.2 then Table.write false s.tier.poison (32 * b + l.1) true
              else if ow then Table.write false s.tier.poison (32 * b + l.1) false else s.tier.poison } }) s

/-- A block is stored in a form: its sectors at the start of its place with the compression bit 1, for a zero block the marker of
R189, or raw. -/
def State.setForm (s : State) (b : Nat) (tag : Byte) (cbf : List Byte) : State :=
  if tag = 0x10 then
    if (s.sector b).tag = 0x10 then s
    else
      let plain := s.blockPlain b
      let s := s.setSector b { s.sector b with tag := 0x10, comp := false }
      { s with tier := { s.tier with mem := s.tier.mem.write (2048 * b) plain } }
  else
    let s := s.setSector b { s.sector b with tag := tag, comp := true }
    { s with tier := { s.tier with mem := s.tier.mem.write (2048 * b) (if tag = 0 then fill 64 0 else cbf) } }

/-- A write changes a block: it is expanded, and its extent is WRITTEN (R187, R130). -/
def State.expanded (s : State) (b : Nat) : State :=
  (s.setForm b 0x10 []).onExtent (fpaExtent (2048 * b)) (fun e => { e with written := true })

/-- Line number is served with a slot only through T0 that already holds it: the page is LOST (R158). -/
def State.lostBlock (s : State) (b : Nat) : Bool := (s.page (pageOfBlock b)).res == 3

/-- A page has no slot. -/
def State.bareBlock (s : State) (b : Nat) : Bool := (s.page (pageOfBlock b)).res == 0

/-- Count a poison that a home creates (R353). -/
def State.notePoison (s : State) (line : Nat) (detail : Nat) : State :=
  (s.logE 0x02 detail (srcHS (s.sliceOf (line / 32))) (64 * line) true).countLog 2

/-- Poison a line at its home (R353). -/
def State.poisonLine (s : State) (line : Nat) : State :=
  let b := line / 32
  let s := s.notePoison line 0
  let s := s.forget line
  if s.lineValid line then
    (s.setForm b 0x10 []).placeLines b [(line % 32, fill 64 0xFF, true)] true true
  else { s with tier := { s.tier with poison := Table.write false s.tier.poison line true } }

/-- Whether a line has a value at its home now, besides what a request has gathered. -/
inductive Avail where
  /-- The line's value can be read -/
  | ready
  /-- A fill, or a read of the line, has been started or goes on -/
  | waits
  /-- The line is lost: a load completes with POISON (R158) -/
  | lost
  deriving DecidableEq, Repr

/-- The lines of a block that has arrived enter T0, or wait with the requests that asked for them (R151, R152). -/
def State.fillBlock (s : State) (b : Nat) (ls : List (List Byte × Bool)) (heat : Bool) : State × Bool :=
  let r := s.makeWay b
  let s := r.1
  let s := if heat then s.onPage (pageOfBlock b) (fun p => { p with heat := if p.heat = 0xFF then p.heat else p.heat + 1 }) else s
  if r.2 then
    let was := (s.sector b).valid
    -- the lines lost on their way to the slot stay poisoned, and are written back so (log 61)
    let lost := (List.range 32).filter (fun i => s.linePoison (32 * b + i) && !was.getLsbD i)
    let s := s.placeLines b (ls.zipIdx.map (fun l => (l.2, l.1.1, l.1.2 || s.linePoison (32 * b + l.2)))) false false
    let s := s.setSector b { s.sector b with dirty := lost.foldl (fun (m : BitVec 32) i => m ||| (1 <<< i)) (s.sector b).dirty }
    let bad := (List.range 32).any (fun i => s.linePoison (32 * b + i))
    if was = BitVec.allOnes 32 then (s.touch b, true)
    else
      let f := s.formBlock b (s.blockPlain b) bad
      ((f.1.setForm b f.2.1 f.2.2).touch b, true)
  else (s, false)

/-- Bring a line within reach of a request: hit, zeroes of a FRESH page, a fill, or a read without allocation (R151, R152,
R158, R160). -/
def State.seek (s : State) (n line : Nat) : State × Avail :=
  let b := line / 32
  let pg := s.page (pageOfBlock b)
  if s.lineValid line then (s.touch b, .ready)
  else if pg.res = 3 ∨ pg.res = 0 then (s, .lost)
  else if pg.fresh && s.slotBusy b then (s, .waits)
  else if pg.fresh then
    -- a FRESH page reads as zeroes, whether its block finds a place or not (R160)
    ((s.fillBlock b (List.replicate 32 (fill 64 0, false)) false).1, .ready)
  else if !s.trayUp pg.tray.toNat then (s, .waits)
  else match s.victim b with
    | some _ => (s.startFill b, .waits)
    | none => (s.readSlotLine n line, .waits)

end Sys2Proof.Machine
end

