-- ==== Sys2Proof/Machine/Snoop.lean ====
section
/-! DEFINITION. The directory and the snoops of the home slices (chapter 05). -/

namespace Sys2Proof.Machine

/-- Directory entry of a line. -/
def State.dirEntry (s : State) (line : Nat) : DirEntry := Table.read {} s.coh.dir line
/-- Write a directory entry. -/
def State.setDir (s : State) (line : Nat) (e : DirEntry) : State :=
  { s with coh := { s.coh with dir := Table.write {} s.coh.dir line e } }

/-- Agents of the domain that hold a line, or may hold it in coarse mode (R113, R114). -/
def State.holders (s : State) (e : DirEntry) : List Nat :=
  match e.state with
  | .i => []
  | .o => [e.sharers.toNat % 256]
  | .s =>
    if e.coarse then
      (List.range 256).filter (fun a => e.sharers.getLsbD (a / 8) && !e.without.getLsbD a &&
        Table.read (0xFFFF : BitVec 16) (s.dom e.dom.toNat).members a != 0xFFFF)
    else (List.range e.count.toNat).map (fun i => e.sharers.toNat / 2 ^ (8 * i) % 256)

/-- Pack agent indices into SHARERS (Table 05-3). -/
def packSharers (l : List Nat) : BitVec 32 :=
  BitVec.ofNat 32 (l.zipIdx.foldl (fun v x => v + x.1 * 2 ^ (8 * x.2)) 0)

/-- GRANT_T of a grant made now. -/
def State.grantT (s : State) : BitVec 33 := BitVec.ofNat 33 (s.now / 16)
/-- Modular age of a grant in nanoseconds (R113). -/
def State.grantAge (s : State) (e : DirEntry) : Nat := (s.now / 16 + 2 ^ 33 - e.grantT.toNat) % 2 ^ 33

/-- A line is within the cinch of its last grant: the cinch time that held when the grant was sent (R120). -/
def State.cinched (s : State) (e : DirEntry) : Bool := decide (s.grantAge e < 250 * e.cinch.toNat)

/-- The entry after a grant of S to an agent (R114). -/
def State.addSharer (s : State) (e : DirEntry) (dom : Nat) (a : Nat) (tva : Option (BitVec 56)) : DirEntry :=
  let e0 : DirEntry := { e with dom := BitVec.ofNat 6 dom, state := .s, grantT := s.grantT, tva := tva, cinch := (s.dom dom).cinch }
  match e.state with
  | .s =>
    if e.coarse then { e0 with sharers := e.sharers ||| (1 <<< (a / 8)), without := e.without &&& ~~~((1 : BitVec 256) <<< a) }
    else
      let hs := s.holders e
      if hs.contains a then e0
      else if hs.length < 4 then { e0 with count := BitVec.ofNat 3 (hs.length + 1), sharers := packSharers (hs ++ [a]) }
      else { e0 with coarse := true, count := 0,
                     sharers := (a :: hs).foldl (fun (m : BitVec 32) x => m ||| (1 <<< (x / 8))) 0, without := 0 }
  | _ => { e0 with coarse := false, count := 1, sharers := packSharers [a], without := 0 }

/-- The entry after a grant of E or M. -/
def State.owned (s : State) (dom a : Nat) (tva : Option (BitVec 56)) : DirEntry :=
  { dom := BitVec.ofNat 6 dom, state := .o, coarse := false, count := 0, sharers := BitVec.ofNat 32 a, grantT := s.grantT, tva := tva
    cinch := (s.dom dom).cinch }

/-- An agent leaves an entry (R114, R116): exact entries drop it, coarse ones stay, an owner frees the entry. -/
def State.dropHolder (s : State) (line a : Nat) : State :=
  let e := s.dirEntry line
  match e.state with
  | .o => if e.sharers.toNat % 256 = a then s.setDir line {} else s
  | .s =>
    if e.coarse then s
    else
      let hs := (s.holders e).filter (· != a)
      if hs.isEmpty then s.setDir line {}
      else s.setDir line { e with count := BitVec.ofNat 3 hs.length, sharers := packSharers hs }
  | .i => s

/-- An agent that is dead leaves an entry, a coarse one too (R122). -/
def State.removeAgent (s : State) (line a : Nat) : State :=
  let e := s.dirEntry line
  if e.state = .s ∧ e.coarse = true then s.setDir line { e with without := e.without ||| ((1 : BitVec 256) <<< a) } else s.dropHolder line a

/-- Agent index of a unit in a domain (R108). -/
def State.agentOf (s : State) (d : Nat) (u : BitVec 16) : Option Nat :=
  ((s.dom d).members.find? (fun e => e.2 == u)).map (·.1)
/-- Unit of an agent. -/
def State.agentUnit (s : State) (d a : Nat) : BitVec 16 := Table.read 0xFFFF (s.dom d).members a

/-- A snoop of the line is held or unanswered. -/
def State.lineSnooped (s : State) (line : Nat) : Bool := s.coh.snoops.any (fun x => x.line == line && x.why != .cancelled)

/-- The line waits on snoop answers, its own or those of the victim that makes room for its entry, so its later requests wait
(R115). -/
def State.lineBusy (s : State) (line : Nat) : Bool :=
  s.lineSnooped line || s.req.reqs.any (fun r => r.stage == .room && fpaLine r.fpa.toNat == line)

/-- TVA with which the snoops of a line are sent: that of its entry, or that of another live entry of its extent (R107). -/
def State.lineTva (s : State) (line : Nat) : BitVec 56 :=
  match (s.dirEntry line).tva with
  | some t => t
  | none => match s.coh.dir.find? (fun e => fpaExtent (64 * e.1) == fpaExtent (64 * line) && e.2.tva.isSome) with
    | some e => e.2.tva.getD 0 + BitVec.ofNat 56 (64 * line) - BitVec.ofNat 56 (64 * e.1)
    | none => Config.cohTva line

/-- Send a snoop to its agent (R107, R121). -/
def State.fireSnoop (s : State) (x : Snoop) : State :=
  let u := s.agentUnit x.dom x.agent
  let f : Frame :=
    { opcode := x.op, dst := u, src := s.selfUnit, vc := 1, tenant := (s.dom x.dom).tenant, epoch := s.comp.epoch,
      addr := s.lineTva x.line, tag := x.tag }
  let s := s.countCoh x.dom 0
  match unitOf s.comp.run u with
  | .port p => s.sendFrom (s.hubSite (x.line / 32)) p none { frame := f }
  | .away p _ => s.sendFrom (s.hubSite (x.line / 32)) p none { frame := f }
  | _ => s

/-- Snoop an agent for a line, now or when its cinch ends (R120). -/
def State.snoop (s : State) (line a : Nat) (op : BitVec 8) (why : SnoopFor) : State :=
  let e := s.dirEntry line
  let d := e.dom.toNat
  let hold := op != 0x52 && s.cinched e
  let stages := stagesTo s.comp.run (s.agentUnit d a)
  let x : Snoop :=
    { line := line, dom := d, agent := a, op := op, why := why, tag := s.coh.nextTag,
      heldTo := if hold then some (s.now + 16 * (250 * e.cinch.toNat - s.grantAge e)) else none,
      timer := s.now + s.targetLimit + 11200 * stages }
  let s := { s with coh := { s.coh with snoops := s.coh.snoops ++ [x], nextTag := s.coh.nextTag + 1 } }
  if hold then s.countCoh d 1 else s.fireSnoop x

/-- Write a line that an agent has returned, at its home (R116): in T0, or to its slot where T0 has no place, after the zeroes of a
FRESH page (R160). -/
def State.homeWrite (s : State) (line : Nat) (bs : List Byte) : State :=
  let b := line / 32
  let r := if s.lineValid line then (s, true) else s.makeWay b
  if r.2 then ((((r.1.forget line).expanded b).placeLines b [(line % 32, bs, false)] true true).touch b)
  else
    let pg := r.1.page (pageOfBlock b)
    let s := r.1.onExtent (fpaExtent (2048 * b)) (fun e => { e with written := true })
    if pg.res = 0 ∨ pg.res = 3 then r.1
    else if pg.fresh then (s.startZero (pageOfBlock b)).holdLine (.writeBack b (1 <<< (line % 32))) line bs
    else s.writeThrough (.writeBack b (1 <<< (line % 32))) line bs

/-- Poison the lines of a domain that an agent owns, and remove the agent from every entry (R122, R123). -/
def State.killAgent (s : State) (d a : Nat) : State :=
  let mine := s.coh.dir.filter (fun e => e.2.dom.toNat == d)
  let s := (mine.filter (fun e => e.2.state == .o && e.2.sharers.toNat % 256 == a)).foldl
    (fun s e => (s.poisonLine e.1).countCoh d 3) s
  mine.foldl (fun s e => s.removeAgent e.1 a) s

/-- A DOM.NOTE to one agent (Table 05-9). -/
def State.domNote (s : State) (d a phase cause : Nat) (winEnd : Nat) : State :=
  let u := s.agentUnit d a
  s.notice u
    { opcode := 0x65, dst := u, src := s.selfUnit, vc := 6, tenant := (s.dom d).tenant, epoch := s.comp.epoch, length := 1,
      payload := [BitVec.ofNat 8 d, BitVec.ofNat 8 phase, BitVec.ofNat 8 cause, (s.dom d).gen, BitVec.ofNat 8 a, 0, 0, 0] ++
        leBytes 8 winEnd ++ fill 48 0 }

/-- A DOM.NOTE to every member that `keep` accepts. -/
def State.domNotes (s : State) (d phase cause winEnd : Nat) (keep : Nat → Bool) : State :=
  ((s.dom d).members.filter (fun e => keep e.1)).foldl (fun s e => s.domNote d e.1 phase cause winEnd) s

/-- Encoding of a domain state (Table 05-1). -/
def DomState.code : DomState → Nat
  | .off => 0 | .up => 1 | .flush => 2 | .down => 3

/-- The event of a domain state change (code 0x4E). -/
def State.domEvent (s : State) (d : Nat) : State :=
  let x := s.dom d
  s.event 0x4E (x.state.code + 16 * x.cause.toNat) (srcDom d) (x.gen.toNat + 256 * x.deadAgent.toNat)

/-- Set index and slice of a line's directory entry (R113). -/
def State.dirSet (s : State) (line : Nat) : Nat × Nat :=
  let b := line / 32
  let n := max 1 (homeTable s.comp.run (s.blockExtent b).pv.toNat).length
  (s.sliceOf b, (32 * (b % 2 ^ 40 / n) + line % 32) % 2 ^ 19)

/-- Home-slice share charged for a line's entry (R119). -/
def State.dirShare (s : State) (line : Nat) : Option Nat :=
  homeShare s.comp.run (s.blockExtent (line / 32)).pv.toNat (line / 32)

/-- The entry of the largest modular age among candidates. -/
def State.oldest (s : State) (l : List (Nat × DirEntry)) : Option Nat :=
  (l.foldl (fun (best : Option (Nat × DirEntry)) e =>
    match best with
    | none => some e
    | some b => if s.grantAge b.2 < s.grantAge e.2 then some e else some b) none).map (·.1)

/-- What a line must do before it may take an entry: nothing, free a victim, or wait (R118, R119). -/
inductive Room where
  | ok
  | victim (line : Nat)
  | waits
  deriving DecidableEq, Repr

/-- Room for an entry of a line. -/
def State.dirRoom (s : State) (line : Nat) : Room :=
  let free := fun (e : Nat × DirEntry) => !s.lineBusy e.1 && !s.cinched e.2
  let share := s.coh.dir.filter (fun e => s.dirShare e.1 == s.dirShare line)
  let set := s.coh.dir.filter (fun e => s.dirSet e.1 == s.dirSet line)
  if 393216 ≤ share.length then
    match s.oldest (share.filter free) with | some v => .victim v | none => .waits
  else if 12 ≤ set.length then
    match s.oldest (set.filter free) with | some v => .victim v | none => .waits
  else .ok

/-- Back-invalidate an entry: SNP.BINV to every holder (R118, R138). -/
def State.backInvalidate (s : State) (line : Nat) (why : SnoopFor) : State :=
  let e := s.dirEntry line
  let hs := s.holders e
  let s := match why with | .victim _ => s.countCoh e.dom.toNat 2 | _ => s
  if hs.isEmpty then s.setDir line {} else hs.foldl (fun s a => s.snoop line a 0x52 why) s

end Sys2Proof.Machine
end

