-- ==== Sys2Proof/Machine/Request.lean ====
section
/-! DEFINITION. Requests at their homes: completion, loads, stores, atomics and coherence requests (chapters 03 to 05, 07
and 08). -/

namespace Sys2Proof.Machine

/-! ### Records -/

/-- The record of a request. -/
def State.findReq (s : State) (n : Nat) : Option Req := s.req.reqs.find? (fun r => r.n == n)
/-- Replace a record. -/
def State.putReq (s : State) (r : Req) : State :=
  { s with req := { s.req with reqs := s.req.reqs.map (fun x => if x.n = r.n then r else x) } }
/-- Remove a record. -/
def State.dropReq (s : State) (n : Nat) : State :=
  { s with req := { s.req with reqs := s.req.reqs.filter (fun x => x.n != n) } }
/-- Add a record at the end, with the next arrival number. -/
def State.addReq (s : State) (r : Req) : State :=
  { s with req := { s.req with reqs := s.req.reqs ++ [r], nextN := s.req.nextN + 1 } }
/-- Move a request to a stage. -/
def State.stageReq (s : State) (r : Req) (g : Stage) : State := s.putReq { r with stage := g }

/-- In-flight requests of an extent, back-invalidations included (R136, R138). -/
def State.inFlight (s : State) (e : Nat) : Nat :=
  (s.req.reqs.filter (fun r => r.counted == some e)).length
    + (s.coh.snoops.filter (fun x => x.why == .revoke e)).length

/-- A failed store-class status after which later stores of the source fail too (R97). -/
def failsLater (st : BitVec 6) : Bool := [stMalformed, stDenied, stRetired, stRetry, stNoTrans, stRevoked, stDomDown].contains st

/-- Bytes that a store of whole lines stores: ST, ST.PUSH and SB.WR of a core or its engine (R104). -/
def storedBytes (f : Frame) : List Byte :=
  if [0x12, 0x13, 0x90].contains f.opcode.toNat then
    if f.has flCmpr then (((parsePayload f.payload).getD []).map (fun b => (expandBlock b.1 b.2).getD [])).flatten else f.payload
  else []

/-- Complete a request with a frame (R74, R89), which shows the address that the request named. A load of an OPEN extent that a home of this module answers is marked
allocatable for the core's data cache (R203). -/
def State.finishWith (s : State) (r : Req) (x : QFrame) : State :=
  let s := s.dropReq r.n
  match r.origin with
  | .thread k t sink =>
    let here := match r.stage with | .remote _ => false | _ => true
    let c : ThreadComp := { n := r.n, tid := t, sink := sink, frame := { x.frame with addr := r.tva }
                            stores := storeClass r.frame.opcode
                            bytes := storedBytes r.frame
                            line := if isMemory r.frame.opcode then some (fpaLine r.fpa.toNat) else none
                            alloc := here && x.frame.status == stOk && r.frame.opcode == 0x10 && !(s.extent (fpaExtent r.fpa.toNat)).coherent }
    s.onCore k (fun (y : Core) => { y with comps := y.comps ++ [c] })
  | _ => s.emit r.n r.origin x

/-- The element type that the home of a request supplies to egress (R186). -/
def State.reqElem (s : State) (r : Req) : Option (BitVec 4) :=
  if isLoad r.frame.opcode then some (s.blockCmp (fpaBlock r.fpa.toNat)).elem else none

/-- Complete one request with a status and data. -/
def State.finishOne (s : State) (r : Req) (st : BitVec 6) (data : List Byte := []) : State :=
  s.finishWith r { frame := completion r.frame st data, elem := if st = stOk then s.reqElem r else none,
                   cbfAsked := isLoad r.frame.opcode && r.frame.has flCmpr, stores := storeClass r.frame.opcode }

/-- Stores of the same source and destination that a failed store takes with it (R97). -/
def State.laterStores (s : State) (r : Req) : List Req :=
  s.req.reqs.filter (fun x => decide (r.n < x.n) && storeClass x.frame.opcode
    && x.origin.source x.frame == r.origin.source r.frame && x.frame.dst == r.frame.dst
    && (match x.stage with | .lineIo => false | .remote _ => false | _ => true))

/-- Complete a request; a failed store takes the later stores of its source with it (R97). -/
def State.finish (s : State) (r : Req) (st : BitVec 6) (data : List Byte := []) : State :=
  let later := if storeClass r.frame.opcode && failsLater st then s.laterStores r else []
  later.foldl (fun s x => s.finishOne x st) (s.finishOne r st data)

/-- Complete a request with the frame that its target has sent; a failed store takes the later stores of its source with it. -/
def State.finishFrame (s : State) (r : Req) (f : Frame) : State :=
  let later := if storeClass r.frame.opcode && failsLater f.status then s.laterStores r else []
  later.foldl (fun s x => s.finishOne x f.status)
    (s.finishWith r { frame := f, cbfAsked := r.frame.has flCmpr, stores := storeClass r.frame.opcode })

/-- Tray operations that only these finished requests asked for end: their answers will come late (R89, R139). -/
def State.cutTray (s : State) (rs : List Req) : State :=
  let mine := fun (n : Nat) => rs.any (fun r => r.n == n)
  { s with tier := { s.tier with reqs := s.tier.reqs.filter (fun (q : TrayReq) => match q.op with
      | .fill b => !(rs.any (fun r => r.blocks.contains b)) || s.req.reqs.any (fun r => r.blocks.contains b)
      | .readLine n _ => !mine n
      | .writeLine n _ => !mine n
      | _ => true) } }

/-- Status of a failed store-class request of the same source and destination whose completion has not left its ingress port, or
not reached its thread: the later request completes with it too (R97). -/
def State.failedBefore (s : State) (r : Req) : Option (BitVec 6) :=
  if !storeClass r.frame.opcode then none
  else match r.origin with
    | .port p => (((s.port (s.base p)).tc.queues.flatMap (fun (q : Nat × Queue) => q.2.all)).find? (fun (x : QFrame) =>
        x.stores && failsLater x.frame.status && x.frame.dst == r.frame.src && x.frame.src == r.frame.dst)).map (fun (x : QFrame) => x.frame.status)
    | .thread k t _ => ((s.core k).comps.find? (fun (c : ThreadComp) =>
        c.tid == t && failsLater c.frame.status && c.frame.src == r.frame.dst && c.stores)).map (fun (c : ThreadComp) => c.frame.status)
    | _ => none

/-- Earlier store-class requests of the same source and destination that are not complete (R95). -/
def State.earlierStore (s : State) (r : Req) : Bool :=
  s.req.reqs.any (fun x => decide (x.n < r.n) && storeClass x.frame.opcode
    && x.origin.source x.frame == r.origin.source r.frame && x.frame.dst == r.frame.dst)

/-- Count a performed request for the warmth of its pavilion (R162). -/
def State.countWarm (s : State) (fpa : Nat) : State :=
  let pv := (s.extent (fpaExtent fpa)).pv.toNat
  let w := Table.read {} s.tier.warm pv
  { s with tier := { s.tier with warm := Table.write {} s.tier.warm pv { w with count := w.count + 1 } } }

/-! ### Waiting for a block's new home (R314) -/

/-- A block's sector still lies at an old home. -/
def State.awayBlock (s : State) (b : Nat) : Bool := s.comp.evac.contains b

/-- A request passed the extent check of its old home before the last flip, so it is performed there (R314). -/
def State.beforeFlip (s : State) (r : Req) : Bool :=
  r.counted.isSome && !r.fwd && r.frame.epoch == s.comp.oldEpoch && r.frame.epoch != s.comp.epoch

/-! ### Loads (R94, R117, R193) -/

/-- A line's value for a request: its owner's where the owner gave it (R116, R117), that of T0 where the line is valid there, or
what has been read at its slot (R94, R152). -/
def State.valueFor (s : State) (r : Req) (line : Nat) : List Byte × Bool :=
  match r.given.find? (fun e => e.1 == line) with
  | some e => (e.2, false)
  | none =>
    if s.lineValid line then (s.lineBytes line, s.linePoison line)
    else match r.got.find? (fun e => e.1 == line) with
      | some e => (e.2, s.linePoison line)
      | none => (s.lineBytes line, s.linePoison line || s.lostBlock (line / 32) || s.bareBlock (line / 32))

/-- A request has the line's value already. -/
def Req.hasLine (r : Req) (line : Nat) : Bool := (r.given ++ r.got).any (fun e => e.1 == line)

/-- Bring every line of a request within reach: the state, whether all are ready, and whether one is lost. -/
def State.seekAll (s : State) (r : Req) (lines : List Nat) : State × Bool × Bool :=
  lines.foldl (fun acc line =>
    if r.hasLine line then acc
    else
      let x := acc.1.seek r.n line
      (x.1, acc.2.1 && x.2 != .waits, acc.2.2 || x.2 == .lost)) (s, true, false)

/-- The data of a load, in CBF form when it asks for it and may have it (R193). -/
def State.loadFrame (s : State) (r : Req) : State × Frame :=
  let vs := r.lines.map (s.valueFor r)
  let bad := r.poison || vs.any (·.2)
  let plain := vs.flatMap (·.1)
  if bad then (s, completion r.frame stPoison [])
  else if r.frame.has flCmpr then
    let bs := (chunks 2048 (plain.length / 2048) plain).zipIdx.map (fun x =>
      let b := fpaBlock r.fpa.toNat + x.2
      let tag := (s.sector b).tag
      if tag != 0x10 && !r.given.any (fun e => e.1 / 32 == b) then (tag.toNat, s.tier.mem.bytes (2048 * b) (sectBytes tag.toNat), false)
      else ((let c := compressBlock (s.blockCmp b).elem.toNat x.1; (c.1, c.2, true)) : Nat × List Byte × Bool))
    let s := (bs.filter (·.2.2)).foldl (fun (s : State) x => s.countBlock x.1) s
    let pl := cbfPayload (bs.map (fun x => (x.1, x.2.1)))
    if pl.length ≤ 4096 then
      (s, (completion r.frame stOk pl).set flCmpr)
    else (s, completion r.frame stOk plain)
  else (s, completion r.frame stOk plain)

/-- Snoop the owner of each line that a load or store of a non-caching agent touches (R117): true when none is waited for.
`inv` selects SNP.INV of every holder, else SNP.SHR of an owner. -/
def State.snoopLines (s : State) (r : Req) (inv : Bool) : State × Bool :=
  if !(s.extent (fpaExtent r.fpa.toNat)).coherent then (s, true)
  else
    (r.left.zipIdx).foldl (fun acc li =>
      let s := acc.1
      let line := li.1
      if s.lineBusy line then (s, false)
      else
        let e := s.dirEntry line
        if inv then
          let hs := s.holders e
          if hs.isEmpty then (if e.state = .i then (s, acc.2) else (s.setDir line {}, acc.2))
          else (hs.foldl (fun s a => s.snoop line a 0x50 (.req r.n)) s, false)
        else if e.state = .o && !r.answered.getLsbD li.2 then
          (s.snoop line (e.sharers.toNat % 256) 0x51 (.req r.n), false)
        else (s, acc.2)) (s, true)

/-- A store is staged on a line of a request, or has only part of its lines performed (R95). -/
def State.stagedOn (s : State) (r : Req) : Bool :=
  s.req.reqs.any (fun x => (x.stage == .staged || x.stage == .lineIo) && x.left.any (fun l => r.lines.contains l))

/-- Perform a load when every line can be read (R93, R94); it waits for a store staged on a line of it (R95). -/
def State.serveLoad (s : State) (r : Req) : State :=
  let a := s.snoopLines r false
  if !a.2 then a.1.stageReq r .snooping
  else if s.stagedOn r then a.1.stageReq r .behind
  else
    let k := a.1.seekAll r r.lines
    if k.2.1 then
      let x := k.1.loadFrame r
      (x.1.finishWith r { frame := x.2, elem := if x.2.status = stOk then x.1.reqElem r else none, cbfAsked := r.frame.has flCmpr }).countWarm r.fpa.toNat
    else k.1.stageReq r .filling

/-! ### Stores and atomics (R94, R95, R99) -/

/-- The handoff registration of a line (R320). -/
def State.hofAt (s : State) (line : Nat) : Option Nat :=
  (s.comp.hofs.find? (fun e => e.2.en && e.2.line.toNat == line)).map (·.1)

/-- A store-class request that a handoff line refuses (R320). -/
def State.hofRefuses (s : State) (r : Req) : Bool :=
  storeClass r.frame.opcode && r.lines.any (fun l => (s.hofAt l).isSome)
    && !(isAtomic r.frame.opcode && r.frame.opcode.toNat % 4 == 3 && r.frame.sub == 5 && r.fpa.toNat % 64 == 0)

/-- The timer of a handoff line after a write of its record (R322). -/
def State.hofWritten (s : State) (line : Nat) (old new : List Byte) : State :=
  match s.hofAt line with
  | none => s
  | some i =>
    let o := field old 4 1
    let n := field new 4 1
    let h := Table.read {} s.comp.hofs i
    let h := if n = 2 ∧ o ≠ 2 then { h with timer := some (s.now + h.limitMs.toNat * msT) }
             else if n ≠ 2 then { h with timer := none } else h
    { s with comp := { s.comp with hofs := Table.write {} s.comp.hofs i h } }

/-- Bytes that a store writes in one of its lines: mask bit and byte (R70). -/
def storeBytes (f : Frame) (plain : List Byte) (i : Nat) : List (Bool × Byte) :=
  if f.opcode = 0x14 then
    let m := field f.payload 64 8
    (f.payload.take 64).zipIdx.map (fun x => (m.testBit x.2, x.1))
  else (plain.drop (64 * i) |>.take 64).map (fun b => (true, b))

/-- A line with selected bytes written over it. -/
def mergeLine (old : List Byte) (w : List (Bool × Byte)) : List Byte :=
  (old.zip w).map (fun x => if x.2.1 then x.2.2 else x.1)

/-- The bytes that a line of a store or atomic holds afterwards, and the value that a fetching atomic returns. -/
def newLine (r : Req) (plain : List Byte) (i : Nat) (old : List Byte) : List Byte × List Byte :=
  let f := r.frame
  if isAtomic f.opcode then
    let o := r.fpa.toNat % 64
    let n := atomicSize f.sub
    let was := field old o n
    let v := atomicNew (f.opcode.toNat % 4) f.sub was (field f.payload 0 n) (field f.payload 16 n)
    (splice old o (leBytes n v), (old.drop o |>.take n) ++ fill (64 - n) 0)
  else (mergeLine old (storeBytes f plain i), [])

/-- A line is written whole, so that its old value does not matter (R354). -/
def writesWhole (f : Frame) : Bool :=
  if isAtomic f.opcode then false else if f.opcode = 0x14 then decide (field f.payload 64 8 = 2 ^ 64 - 1) else true

/-- A request still writes all 32 lines of a block (R151). -/
def Req.fillsBlock (r : Req) (b : Nat) : Bool :=
  (r.frame.opcode == 0x12 || r.frame.opcode == 0x13 || r.frame.opcode == 0x90) && (r.left.filter (fun l => l / 32 == b)).length == 32

/-- Plain bytes of a store. -/
def storePlain (f : Frame) : List Byte := if f.has flCmpr then (expandPayload f.payload).getD [] else f.payload

/-- Where a line of a store stands. -/
inductive Spot where
  | inT0 | direct | waits | lost
  deriving DecidableEq, Repr

/-- Prepare a line of a store: in T0, written straight to its slot, waiting, or lost (R151, R152). A block that is written whole
waits for a fill of it that is under way (R187). -/
def State.spot (s : State) (r : Req) (line : Nat) : State × Spot :=
  let b := line / 32
  let pg := s.page (pageOfBlock b)
  if s.lineValid line then (s, .inT0)
  else if pg.res = 3 ∨ pg.res = 0 then (s, .lost)
  else if (s.victim b).isSome then
    if r.fillsBlock b then
      if s.trayBusy (.fill b) || s.slotBusy b then (s, .waits)
      else (let w := s.makeWay b; (w.1, if w.2 then .inT0 else .waits))
    else (let x := s.seek r.n line; (x.1, if x.1.lineValid line then .inT0 else .waits))
  else if !s.trayUp pg.tray.toNat || s.slotBusy b then (s, .waits)
  else if pg.fresh then (s.startZero (pageOfBlock b), .waits)
  else if writesWhole r.frame || r.hasLine line then (s, .direct)
  else (s.readSlotLine r.n line, .waits)

/-- Prepare every line of a store that is not yet performed. -/
def State.spots (s : State) (r : Req) : State × List Spot :=
  r.left.foldl (fun acc l => let x := acc.1.spot r l; (x.1, acc.2 ++ [x.2])) (s, [])

/-- A block has been written whole in T0: its form (R187). -/
def State.wholeForm (s : State) (r : Req) (b : Nat) : State :=
  if r.frame.opcode = 0x13 then s
  else if r.frame.has flCmpr then
    let i := b - fpaBlock r.fpa.toNat
    match (parsePayload r.frame.payload).bind (fun bs => bs[i]?) with
    | some x => s.setForm b (BitVec.ofNat 8 x.1) (if x.1 = 0x10 then [] else x.2)
    | none => s
  else
    let f := s.formBlock b (s.blockPlain b) false
    f.1.setForm b f.2.1 f.2.2

/-- How far a store has come: lines performed, those of the present block written in T0 in a row, what a fetching atomic returns, and
where it stopped. -/
structure StoreRun where
  done : Nat
  row : Nat := 0
  back : List Byte := []
  stop : Option Spot := none
  deriving DecidableEq, Repr

/-- Perform the next line of a store, unless one before it has stopped it (R94, R95): in T0, or by a write to its slot, which the
lines after it wait for. -/
def State.storeLine (s : State) (r : Req) (plain : List Byte) (x : StoreRun) (line : Nat) : State × StoreRun :=
  if x.stop.isSome then (s, x)
  else
    let b := line / 32
    let p := s.spot { r with done := x.done } line
    let old := (p.1.valueFor r line).1
    let new := newLine r plain x.done old
    match p.2 with
    | .inT0 =>
      let s := ((((p.1.forget line).expanded b).placeLines b [(line % 32, new.1, false)] true true).touch b).hofWritten line old new.1
      let n := if line % 32 = 0 then 1 else x.row + 1
      let whole := line % 32 == 31 && n == 32
      (if whole then s.wholeForm r b else s, { x with done := x.done + 1, row := n, back := new.2 })
    | .direct =>
      let s := p.1.onExtent (fpaExtent (2048 * b)) (fun e => { e with written := true })
      ((s.writeThrough (.writeLine r.n line) line new.1).hofWritten line old new.1,
        { x with done := x.done + 1, row := 0, back := new.2, stop := some .direct })
    | sp => (p.1, { x with stop := some sp })

/-- Perform a store or atomic from its first line that is not yet performed on (R93 to R95, R354). -/
def State.doStore (s : State) (r : Req) (hold : Stage) : State :=
  let plain := storePlain r.frame
  let bad := !writesWhole r.frame && (r.poison || (r.left.map (s.valueFor r)).any (·.2))
  if bad then s.finish r stPoison
  else
    let x := r.left.foldl (fun (acc : State × StoreRun) l => acc.1.storeLine r plain acc.2 l) (s, { done := r.done, back := r.back })
    let s := x.1
    match s.findReq r.n with
    | none => s
    | some q =>
      let q := { q with done := x.2.done, back := x.2.back }
      match x.2.stop with
      | some .direct => s.putReq { q with stage := .lineIo }
      | some .lost => s.finish q stDead
      | some _ => s.putReq { q with stage := hold }
      | none => (s.countWarm r.fpa.toNat).finish q stOk q.back

/-- Try to perform a store or atomic (R95, R117, R152). -/
def State.tryStore (s : State) (r : Req) (hold : Stage) : State :=
  if s.hofRefuses r && r.done == 0 then s.finish r stDenied
  else
    let a := s.snoopLines r true
    if !a.2 then a.1.stageReq r hold
    else
      let p := a.1.spots r
      if p.2.contains .lost then p.1.finish r stDead
      else if p.2.contains .waits && p.2.head? != some .direct then p.1.stageReq r hold
      else p.1.doStore r hold

/-- The stage in which a store waits at its home: staged until its release, an atomic behind the stores before it, an SB.WR for its
lines alone (R95). -/
def Req.hold (r : Req) : Stage :=
  if r.frame.opcode = 0x90 then .filling else if isAtomic r.frame.opcode then .ordered else .staged

/-! ### Coherence requests (R116) -/

/-- C.DATA or C.GNT with the state granted. -/
def grant (f : Frame) (op : BitVec 8) (st : BitVec 6) (sub : BitVec 8) (data : List Byte) : Frame :=
  let a := answer f op 1 st data
  { a with flags := a.flags ||| sub }

/-- Grant a line with its data, or refuse it for poison (R116, R354). -/
def State.grantLine (s : State) (r : Req) (sub : Nat) (e : DirEntry) (val : List Byte × Bool) : State :=
  if val.2 then s.finishWith r { frame := grant r.frame 0x58 stPoison 0 (fill 64 0xFF) }
  else ((s.setDir (fpaLine r.fpa.toNat) e).finishWith r
    { frame := grant r.frame 0x58 stOk (BitVec.ofNat 8 sub) val.1 }).countWarm r.fpa.toNat

/-- Free room for the entry of a line, if it has none: true when the line may take one (R118, R119). -/
def State.takeRoom (s : State) (r : Req) (line : Nat) : State × Bool :=
  if (s.dirEntry line).state != .i then (s, true)
  else if s.coh.snoops.any (fun x => x.why == .victim r.n) then (s, false)
  else match s.dirRoom line with
    | .ok => (s, true)
    | .waits => (s, false)
    | .victim v => (s.backInvalidate v (.victim r.n), false)

/-- Serve a coherence request at its home (R115, R116). -/
def State.serveCoh (s : State) (r : Req) : State :=
  let line := fpaLine r.fpa.toNat
  let ext := s.extent (fpaExtent r.fpa.toNat)
  let d := ext.dom.toNat
  let me := (s.agentOf d r.frame.src).getD 0
  if s.lineSnooped line || s.req.reqs.any (fun x => x.n != r.n && x.stage == .room && fpaLine x.fpa.toNat == line) then
    s.stageReq r .snooping
  else
    let e0 := s.dirEntry line
    let tva := if r.frame.has flPhys then e0.tva else some r.frame.addr
    let op := r.frame.opcode.toNat
    let own := e0.state = .o && e0.sharers.toNat % 256 == me
    let listed := e0.state = .s && !e0.coarse && (s.holders e0).contains me
    if op = 0x43 then
      let s := if own then (s.homeWrite line r.frame.payload).setDir line {} else s
      (s.finishWith r { frame := grant r.frame 0x59 stOk 0 [] }).countWarm r.fpa.toNat
    else if op = 0x44 then
      let s := if own then s.setDir line {} else if listed then s.dropHolder line me else s
      (s.finishWith r { frame := grant r.frame 0x59 stOk 0 [] }).countWarm r.fpa.toNat
    else
      let s := if own && (op == 0x40 || op == 0x41) then s.setDir line {} else s
      let e := s.dirEntry line
      let hs := (s.holders e).filter (· != me)
      let want := if op = 0x40 then (if e.state = .o then hs else []) else hs
      if !want.isEmpty then
        (want.foldl (fun s a => s.snoop line a 0x50 (.req r.n)) s).stageReq r .snooping
      else
        let room := s.takeRoom r line
        if !room.2 then room.1.stageReq r .room
        else if op = 0x42 && listed then
          if room.1.linePoison line then room.1.finishWith r { frame := grant r.frame 0x59 stPoison 0 [] }
          else ((room.1.setDir line (s.owned d me tva)).finishWith r { frame := grant r.frame 0x59 stOk 0 [] }).countWarm r.fpa.toNat
        else
          let k := room.1.seekAll r [line]
          if !k.2.1 then k.1.stageReq r .filling
          else
            let val := k.1.valueFor r line
            if op = 0x40 then
              let readOnly := !sharePermits s.comp.run ext (r.origin.asker r.frame) true
              let e := k.1.dirEntry line
              if e.state = .i && (k.1.dom d).eGrant && !readOnly && r.answered == 0 then
                k.1.grantLine r 1 (k.1.owned d me tva) val
              else k.1.grantLine r 0 (k.1.addSharer e d me tva) val
            else k.1.grantLine r (if r.given.any (fun e => e.1 == line) then 2 else 1) (k.1.owned d me tva) val

/-! ### Serving -/

/-- Serve a request at its home, as far as it can go now. -/
def State.serve (s : State) (n : Nat) : State :=
  match s.findReq n with
  | none => s
  | some r =>
    if r.blocks.any s.awayBlock && !s.beforeFlip r then s.stageReq r .pulling
    else if isLoad r.frame.opcode then s.serveLoad r
    else if isCoherence r.frame.opcode then s.serveCoh r
    else if r.frame.opcode = 0x90 then s.tryStore r r.hold
    else if isAtomic r.frame.opcode then
      if s.earlierStore r then s.stageReq r .ordered else s.tryStore r r.hold
    else
      -- a store stays staged until its release (R95); its snoops and fills start at once
      let a := s.snoopLines r true
      (if a.2 then (a.1.spots r).1 else a.1).stageReq r .staged

/-- Serve again every waiting request that `p` accepts, in arrival order. -/
def State.wake (s : State) (p : Req → Bool) : State :=
  (s.req.reqs.filter p).foldl (fun s r => s.serve r.n) s

/-- Loads go on whose lines have no staged store left (R95), and coherence requests for which an entry may be free (R118). -/
def State.wakeStaged (s : State) : State := s.wake (fun r => (r.stage == .behind && !s.stagedOn r) || r.stage == .room)

/-- A stage in which a request waits for a line or block. -/
def Stage.waiting : Stage → Bool
  | .filling | .snooping | .pulling => true
  | _ => false

/-- Wake the requests that wait on a block, or on a line. -/
def State.wakeBlock (s : State) (b : Nat) : State := s.wake (fun r => r.stage.waiting && r.blocks.contains b)
def State.wakeLine (s : State) (line : Nat) : State := s.wake (fun r => r.stage.waiting && r.lines.contains line)

end Sys2Proof.Machine
end

