-- ==== Sys2Proof/Machine/Tray.lean ====
section
/-! DEFINITION. Trays: discovery, slots, tier-page moves and the answers to the module's own tray requests (chapter 07). -/

namespace Sys2Proof.Machine

/-! ### Slots (R160) -/

/-- Free slots of a tray. -/
def Tray.freeSlots (t : Tray) : Nat := t.slots - t.next + t.freed.length
/-- Slots installed in a tier, and free ones on trays that are ONLINE. -/
def State.tierSlots (s : State) (tier : Nat) : Nat :=
  ((s.tier.trays.filter (fun e => e.2.tier.toNat == tier && (e.2.state == .online || e.2.state == .unreachable))).map (·.2.slots)).sum
def State.tierFree (s : State) (tier : Nat) : Nat :=
  ((s.tier.trays.filter (fun e => e.2.tier.toNat == tier && e.2.state == .online && !e.2.evacuating && !s.isFenced 5 e.1)).map (·.2.freeSlots)).sum

/-- The ONLINE tray of a tier with the most free slots, lowest number first among equals (R160, log 17). -/
def State.bestTray (s : State) (tier : Nat) : Option Nat :=
  let ts := s.tier.trays.filter (fun e => e.2.tier.toNat == tier && e.2.state == .online && !e.2.evacuating && !s.isFenced 5 e.1
    && decide (0 < e.2.freeSlots))
  (ts.foldl (fun (best : Option (Nat × Tray)) e =>
    match best with
    | none => some e
    | some b => if b.2.freeSlots < e.2.freeSlots then some e else some b) none).map (·.1)

/-- Take a slot of a tray: one that was released before one never used. -/
def State.takeSlot (s : State) (t : Nat) : State × Nat :=
  let x := s.tray t
  match x.freed with
  | f :: fs => (s.setTray t { x with freed := fs }, f)
  | [] => (s.setTray t { x with next := x.next + 1 }, x.next)

/-- Allocate a slot of a tier. -/
def State.allocSlot (s : State) (tier : Nat) : Option (State × Nat × Nat) :=
  match s.bestTray tier with
  | none => none
  | some t => let r := s.takeSlot t; some (r.1, t, r.2)

/-- Overwrite block i of a released slot with poisoned lines, under the tenant of the extent that had it (R155, R160). -/
def State.wipeBlock (s : State) (tenant : BitVec 10) (t slot i : Nat) : State :=
  s.sendTray t 0 (.wipe (slotKey t slot) i) tenant 0x90 (slotAddr t slot + 2048 * i) 32 stPoison (fill 2048 0xFF)

/-- Release a slot of a page: it is overwritten before it is free again, and its zeroing ends (R160). -/
def State.releaseSlot (s : State) (page t slot : Nat) (overwritten : Bool) : State :=
  let s := s.stopZero page
  if overwritten then s.onTray t (fun x => { x with freed := x.freed ++ [slot] })
  else
    let tn := (s.extent (page / 512)).tenant
    let s := { s with tier := { s.tier with wiping := s.tier.wiping ++ [(slotKey t slot, tn)] } }
    if s.trayUp t then s.wipeBlock tn t slot 0 else s

/-- A newly allocated slot for a page: FRESH, HEAT 0 (R160, R161). -/
def State.giveSlot (s : State) (page tier : Nat) : Option State :=
  match s.allocSlot tier with
  | none => none
  | some (s, t, sl) => some (s.onPage page (fun p => { p with
      slot := BitVec.ofNat 30 sl, tray := BitVec.ofNat 9 t, heat := 0, fresh := true, moving := false, res := BitVec.ofNat 2 tier }))

/-! ### Tray states (R154, R158) -/

/-- Encoding of a tray state (Table 07-4). -/
def TrayState.code : TrayState → Nat
  | .absent => 0 | .online => 1 | .unreachable => 2 | .retired => 3

/-- A tray changes state, with its event (code 0x50). -/
def State.trayTo (s : State) (t : Nat) (n : TrayState) : State :=
  if (s.tray t).state = n then s
  else (s.onTray t (fun x => { x with state := n })).event 0x50 n.code srcModule (t + 2 ^ 32 * s.ext.backed)

/-- The timers of the handoff lines of an extent that is not ACTIVE stop (R322). -/
def State.hofStop (s : State) (e : Nat) : State :=
  { s with comp := { s.comp with hofs := Table.mapAll {} (fun _ (h : Hof) =>
      if fpaExtent (64 * h.line.toNat) = e then { h with timer := none } else h) s.comp.hofs } }

/-- Change STATE of an extent, with CHANGE_NS (R130). -/
def State.extTo (s : State) (e : Nat) (n : ExtState) (f : Extent → Extent := id) : State :=
  let s := if n = .active then s else s.hofStop e
  s.onExtent e (fun x => f { x with state := n, changeNs := BitVec.ofNat 48 (s.now / 16) })

/-- Back extents in ascending order until their number equals the slots (R154). -/
def State.backExtents (s : State) : State :=
  let want := (s.tierSlots 1 + s.tierSlots 2) / 512
  if want ≤ s.ext.backed then s
  else
    let s1 := (List.range (want - s.ext.backed)).foldl
      (fun (x : State) i => x.extTo (s.ext.backed + i) .free (fun e => { e with lastValid := false })) s
    let s1 := { s1 with ext := { s1.ext with backed := want } }
    s1.event 0x50 0x10 srcModule (2 ^ 32 * want)

/-- Free slots of a tier left below the limit of R153. -/
def tierLimit (tier : Nat) : Nat := if tier = 1 then 33554432 else 536870912

/-- A tray is discovered: it is ONLINE with its slots, as far as the tier limit allows (R153, R154). -/
def State.discovered (s : State) (t tier slots : Nat) (ident : BitVec 64) : State :=
  let room := tierLimit tier - s.tierSlots tier
  let use := min room slots
  let s := if use < slots then s.event 0x51 tier srcModule t else s
  let s := (s.onTray t (fun x => { x with tier := BitVec.ofNat 2 tier, slots := use, next := 0, freed := [], ident := ident,
                                          evacuating := false, retryAt := none })).trayTo t .online
  s.backExtents

/-- Extent of a tier page. -/
def State.pageExtent (s : State) (page : Nat) : Extent := s.extent (page / 512)

/-- Overwrite block i of a page under scrub with poisoned lines (R337). -/
def State.scrubBlock (s : State) (page i : Nat) : State :=
  let p := s.page page
  s.sendTray p.tray.toNat (1024 * page) (.scrub page i) (s.pageExtent page).tenant 0x90
    (slotAddr p.tray.toNat p.slot.toNat + 2048 * i) 32 stPoison (fill 2048 0xFF)

/-- Work that waits for a tray starts again when the tray is ONLINE, unless what was sent before is still to be answered (R332):
overwrites, zeroes, scrubs and the requests of its pages. -/
def State.trayBack (s : State) (t : Nat) : State :=
  let out := fun (s : State) (p : TrayOp → Bool) => s.tier.reqs.any (fun r => p r.op)
  let s := (s.tier.wiping.filter (fun k => k.1 / 2 ^ 30 == t)).foldl (fun s k =>
    if out s (fun o => match o with | .wipe x _ => x == k.1 | _ => false) then s else s.wipeBlock k.2 t (k.1 % 2 ^ 30) 0) s
  let s := (s.tier.zeroing.filter (fun p => (s.page p).tray.toNat == t)).foldl (fun s p =>
    if out s (fun o => match o with | .zero x _ _ => x == p | _ => false) then s else s.zeroBlock p 0) s
  let s := ((s.ext.tab.flatMap (fun e => e.2.scrubLeft)).filter (fun p => (s.page p).tray.toNat == t)).foldl (fun s p =>
    if out s (fun o => match o with | .scrub x _ => x == p | _ => false) then s else s.scrubBlock p 0) s
  s.wake (fun r => r.stage.waiting && (s.page (fpaPage r.fpa.toNat)).tray.toNat == t)

/-- The retired bitmap of R332: bit n set when TCn is STOPPING or RETIRED. -/
def State.retiredBitmap (s : State) : List Byte :=
  (List.range 128).map (fun i => BitVec.ofNat 8 ((List.range 8).foldl
    (fun v j => v + (if s.tenantGone (BitVec.ofNat 10 (8 * i + j)) then 2 ^ j else 0)) 0))

/-- Write the retired bitmap to a CX1 tray (R332). -/
def State.writeBitmap (s : State) (t : Nat) : State :=
  let s := s.onTray t (fun x => { x with retryAt := none })
  if s.trayBusy (.bitmap t) then s
  else s.sendTray t 0 (.bitmap t) 0 0x12 0x1000 2 stOk s.retiredBitmap

/-- Read the tray descriptor (R154). -/
def State.readDescriptor (s : State) (t : Nat) : State :=
  if s.trayBusy .descriptor && (s.tier.reqs.any (fun r => r.op == .descriptor && r.tray == t)) then s
  else s.sendTray t 0 .descriptor 0 0x16 0 1 stOk []

/-- A T port has reached OPEN: its tray returns, or is discovered unless the identity belongs to an UNREACHABLE tray of another port
(R154, R158, R332). -/
def State.trayPortOpen (s : State) (p : Nat) (peer : BitVec 64) : State :=
  let x := s.tray p
  if x.state = .unreachable ∧ x.ident = peer then s.writeBitmap p
  else if s.tier.trays.any (fun e => decide (e.1 < 256) && e.2.state == .unreachable && e.2.ident == peer) then s
  else match trayUnitId s.comp.run p with
    | none => s.event 0x50 0 (srcP p) p
    | some _ => (s.onTray p (fun y => { y with ident := peer, descOk := false })).readDescriptor p

/-- A page becomes LOST (R158). -/
def State.losePage (s : State) (p : Nat) : State := s.onPage p (fun x => { x with res := 3, lostTier := if x.res = 3 then x.lostTier else x.res, moving := false, fresh := false })

/-- A move of a page to its pinned tier follows where the page lies in the other one (R164). -/
def State.pinMove (s : State) (page : Nat) : State :=
  let p := s.page page
  if (p.pin = 1 ∨ p.pin = 2) ∧ (p.res = 1 ∨ p.res = 2) ∧ p.pin ≠ p.res ∧ s.tier.moves.any (fun m => m.page == page) = false then
    { s with tier := { s.tier with moves := s.tier.moves ++ [{ page := page, want := p.pin, directed := true }] } }
  else s

/-- End a move without its effect: the page keeps its source, and the destination slot is released (R167). A demotion of
make_room is followed by a drop (R275), and a SETPIN that waited takes effect (R164). -/
def State.abortMove (s : State) (page : Nat) : State :=
  match s.tier.moves.find? (fun m => m.page == page) with
  | none => s
  | some m =>
    let s := match m.forRoom, m.dst with
      | some c, some _ => { s with tier := { s.tier with dropNext := s.tier.dropNext ++ [(page, c)] } }
      | _, _ => s
    let s := { s with tier := { s.tier with
      moves := s.tier.moves.filter (fun x => x.page != page)
      reqs := s.tier.reqs.filter (fun r => match r.op with
        | .copyRead p _ => p != page
        | .copyWrite p _ => p != page
        | _ => true) } }
    match m.dst with
    | none => s
    | some (t, sl) =>
      let lost := (s.tray (s.page page).tray.toNat).state == .retired
      let s := s.onPage page (fun x => { x with
        moving := false, res := if lost then 3 else x.res, lostTier := if lost && x.res != 3 then x.res else x.lostTier
        fresh := x.fresh && !lost, pin := x.pinNext.getD x.pin, pinNext := none })
      (s.releaseSlot page t sl false).pinMove page

/-- A tray leaves ONLINE: the moves of its slots end (R167). -/
def State.trayLeaves (s : State) (t : Nat) : State :=
  (s.tier.moves.filter (fun m => m.dst.isSome && ((s.page m.page).tray.toNat == t || (m.dst.map (·.1)) == some t))).foldl
    (fun s m => s.abortMove m.page) s

/-- Writes on their way to a tray that will not answer them are lost (log 61). -/
def State.lostWrites (s : State) (t : Nat) : State :=
  (s.tier.reqs.filter (fun r => r.tray == t)).foldl (fun (s : State) r => match r.op with
    | .writeBack b m => s.lostLines b m
    | .writeLine _ l => s.lostLines (l / 32) ((1 : BitVec 32) <<< (l % 32))
    | _ => s) s

/-- A tray becomes UNREACHABLE (R158). What has been sent to a CX1 tray is replayed and answered if it returns (R332); the link of a
CXL device is reset. -/
def State.trayGone (s : State) (t : Nat) : State :=
  let s := if (s.tray t).state = .online then (s.trayTo t .unreachable).trayLeaves t else s
  if t < 256 then s
  else
    let s := s.lostWrites t
    { s with tier := { s.tier with reqs := s.tier.reqs.filter (fun r => r.tray != t) } }

/-- A tray becomes RETIRED: its pages are LOST (R158). -/
def State.trayRetired (s : State) (t : Nat) : State :=
  let was := (s.tray t).state
  if was = .absent ∨ was = .retired then s
  else
    let s := (s.trayTo t .retired).trayLeaves t
    let s := { s with tier := { s.tier with
      pages := Table.mapAll {} (fun _ p => if p.tray.toNat = t ∧ (p.res = 1 ∨ p.res = 2) then { p with res := 3, lostTier := p.res, moving := false, fresh := false } else p) s.tier.pages
      wiping := s.tier.wiping.filter (fun k => k.1 / 2 ^ 30 != t)
      zeroing := s.tier.zeroing.filter (fun p => (s.page p).tray.toNat != t)
      reqs := s.tier.reqs.filter (fun r => r.tray != t) } }
    let s := s.onTray t (fun x => { x with slots := 0, next := 0, freed := [], evacuating := false })
    let s := (s.logE 0x0A 0 srcModule t true)
    s.wake (fun r => r.stage.waiting && (s.page (fpaPage r.fpa.toNat)).tray.toNat == t)

/-! ### Moves (R163 to R167) -/

/-- Record that an extent's pages are charged to, and pages of a record that reside in a tier (R145). -/
def State.recPages (s : State) (rec tier : Nat) : Nat :=
  (s.tier.pages.filter (fun e => e.2.res.toNat == tier
    && (let x := s.extent (e.1 / 512); x.state == .active && x.adm.toNat == rec))).length
/-- Pages of a record that moves queued or in progress bring into a tier: they count as used there, so that moves decided together
stay within the reservation (R146, R163). -/
def State.movesInto (s : State) (rec tier : Nat) : Nat :=
  (s.tier.moves.filter (fun m => m.want.toNat == tier && (s.page m.page).res != m.want
    && (let x := s.extent (m.page / 512); x.state == .active && x.adm.toNat == rec))).length
/-- Reservation of a record in a tier, in pages. -/
def State.recResv (s : State) (rec tier : Nat) : Nat :=
  512 * (let r := (s.admRec rec).resv; if tier = 1 then r.t1 else r.t2)

/-- Log a held page, once for each reason (R165). -/
def State.holdPage (s : State) (page reason : Nat) : State :=
  let p := s.page page
  if p.heldWhy.toNat = reason then s.countTrn 4
  else ((s.setPage page { p with heldWhy := BitVec.ofNat 4 reason }).logE 0x14 reason srcModule page true).countTrn 4

/-- Queue a move. -/
def State.queueMove (s : State) (m : Move) : State :=
  if s.tier.moves.any (fun x => x.page == m.page) then s
  else { s with tier := { s.tier with moves := s.tier.moves ++ [m] } }

/-- A pavilion is cold (R162). -/
def State.coldPv (s : State) (pv : Nat) : Bool := !(Table.read {} s.tier.warm pv).warm

/-- Evaluate one page at a heat-decay event (R163). -/
def State.decidePage (s : State) (page : Nat) : State :=
  let p := s.page page
  let x := s.pageExtent page
  let pct := 100 * s.tierFree 1 / max 1 (s.tierSlots 1)
  let want :=
    if p.moving || s.coldPv x.pv.toNat || x.state != .active || s.mod.state != .service || !s.tier.migOn then 0
    else if p.res = 2 ∧ s.tier.promoteTh ≤ p.heat then 1
    else if p.res = 1 ∧ p.heat ≤ s.tier.demoteTh ∧ pct < s.tier.t1LowPct.toNat then 2
    else 0
  if want = 0 then s
  else if p.pin ≠ 0 then s.holdPage page 1
  else if s.recResv x.adm.toNat want < s.recPages x.adm.toNat want + s.movesInto x.adm.toNat want + 1 then s.holdPage page 2
  else if want = 1 ∧ s.tierFree 1 = 0 then
    let cands := s.tier.pages.filter (fun e => e.2.res == 1 && e.2.pin == 0 && !e.2.moving && e.2.heat ≤ s.tier.demoteTh
      && (s.pageExtent e.1).adm == x.adm && (s.pageExtent e.1).state == .active)
    match (cands.foldl (fun (b : Option (Nat × TierPage)) e =>
        match b with | none => some e | some y => if e.2.heat < y.2.heat then some e else some y) none) with
    | some q => (s.queueMove { page := q.1, want := 2, directed := false }).queueMove { page := page, want := 1, directed := false, after := some q.1 }
    | none => s.holdPage page 3
  else if !s.trayUp p.tray.toNat then s.holdPage page 4
  else s.queueMove { page := page, want := BitVec.ofNat 2 want, directed := false }

/-- Moves in progress. -/
def State.movesRunning (s : State) : Nat := (s.tier.moves.filter (fun m => m.dst.isSome)).length

/-- Copy block i of a moving page from its source (R166). -/
def State.copyBlock (s : State) (page i : Nat) : State :=
  let p := s.page page
  s.sendTray p.tray.toNat (1024 * page + i) (.copyRead page i) (s.pageExtent page).tenant 0x16
    (slotAddr p.tray.toNat p.slot.toNat + 2048 * i) 32 stOk []

/-- Write block i of a LOST page to its new slot: the lines valid in T0, and poisoned lines in place of every other (R158). -/
def State.relocBlock (s : State) (page i : Nat) : State :=
  match (s.tier.moves.find? (fun m => m.page == page)).bind (·.dst) with
  | none => s
  | some (t, sl) =>
    let b := 1024 * page + i
    let tn := (s.pageExtent page).tenant
    let a := slotAddr t sl + 2048 * i
    let keep := fun (j : Nat) => s.lineValid (32 * b + j) && !s.linePoison (32 * b + j)
    if (List.range 32).any keep then
      (List.range 32).foldl (fun s j => s.sendTray t b (.copyWrite page (2 ^ 20 + 32 * i + j)) tn 0x12 (a + 64 * j) 1
        (if keep j then stOk else stPoison)
        (if keep j then sealLine tn.toNat (2048 * b + 64 * j) (s.lineBytes (32 * b + j)) else fill 64 0xFF)) s
    else s.sendTray t b (.copyWrite page i) tn 0x90 a 32 stPoison (fill 2048 0xFF)

/-- Start a queued move: the destination slot, with HEAT 0, and MOVING. A FRESH page is not copied: zeroing of its source ends, and the
destination stays FRESH (R161, R166). -/
def State.beginMove (s : State) (m : Move) : State :=
  let p := s.page m.page
  -- a move within a tier goes to another tray (R158)
  let s0 := if p.res = m.want then s.onTray p.tray.toNat (fun x => { x with evacuating := true }) else s
  match s0.allocSlot m.want.toNat with
  | none => s
  | some (s1, t, sl) =>
    let s1 : State := if p.res = m.want then s1.onTray p.tray.toNat (fun x => { x with evacuating := (s.tray p.tray.toNat).evacuating }) else s1
    let s1 := { s1 with tier := { s1.tier with moves := s1.tier.moves.map (fun (x : Move) =>
      if x.page = m.page then { x with dst := some (t, sl), copied := if p.fresh then 1024 else 0 } else x) } }
    let s1 := (s1.onPage m.page (fun x => { x with moving := true, heat := 0 })).stopZero m.page
    if p.fresh then s1 else s1.copyBlock m.page 0

/-- Finish a move: the page resides at its destination, and its source slot is released (R166, R164). -/
def State.endMove (s : State) (m : Move) (t sl : Nat) : State :=
  let p := s.page m.page
  let s := { s with tier := { s.tier with moves := (s.tier.moves.filter (fun x => x.page != m.page)) } }
  let s := if p.res = 2 ∧ m.want = 1 then s.countTrn 2 else if p.res = 1 ∧ m.want = 2 then s.countTrn 3 else s
  let pin := p.pinNext.getD p.pin
  let s := s.setPage m.page { p with res := m.want, tray := BitVec.ofNat 9 t, slot := BitVec.ofNat 30 sl, moving := false,
                                     heldWhy := 0, pin := pin, pinNext := none }
  let s := if p.res = 3 then s else s.releaseSlot m.page p.tray.toNat p.slot.toNat false
  s.pinMove m.page

/-! ### Answers of trays (R155, R157, R355) -/

/-- The page of a block operation has no more of its operations outstanding. -/
def State.pageQuiet (s : State) (page : Nat) : Bool :=
  !s.tier.reqs.any (fun r => match r.op with
    | .copyRead p _ => p == page
    | .copyWrite p _ => p == page
    | _ => false)

/-- The arrival number that marks a line read again after a poisoned fill (R355). -/
def refillMark : Nat := 2 ^ 60

/-- Line j of a payload. -/
def lineAt (pl : List Byte) (j : Nat) : List Byte := pl.drop (64 * j) |>.take 64

/-- The lines of a fill after decryption and the tag check (R328): bytes and poison. -/
def State.openLines (s : State) (b : Nat) (first n : Nat) (tenant : BitVec 10) (bad : BitVec 32) (pl : List Byte) :
    State × List (List Byte × Bool) :=
  let t := (s.blockExtent b).tenant
  let mis := tenant != t
  let s := if mis then (List.range n).foldl (fun s j => (s.countSec 3).notePoison (32 * b + first + j) 1) s else s
  (s, (List.range n).map (fun j =>
    let p := mis || bad.getLsbD j
    (if p then fill 64 0xFF else unsealLine t.toNat (2048 * b + 64 * (first + j)) (lineAt pl j), p)))

/-- Lines of a block go to the requests that wait for them, without a place in T0 (R152). -/
def State.giveLines (s : State) (b : Nat) (ls : List (Nat × List Byte × Bool)) : State :=
  { s with req := { s.req with reqs := s.req.reqs.map (fun r =>
      if r.blocks.contains b && r.stage != .lineIo then
        { r with got := ls.foldl (fun g l => if r.lines.contains (32 * b + l.1) ∧ l.2.2 = false then
              Table.write [] g (32 * b + l.1) l.2.1 else g) r.got
                 poison := r.poison || ls.any (fun l => r.lines.contains (32 * b + l.1) && l.2.2) }
      else r) } }

/-- A block has been filled from its slot: it is placed, or given to the requests that wait for it (R151, R152). -/
def State.fillDone (s : State) (b : Nat) (ls : List (List Byte × Bool)) : State :=
  let f := s.fillBlock b ls true
  let s := if f.2 then f.1 else f.1.giveLines b (ls.zipIdx.map (fun l => (l.2, l.1)))
  s.wakeBlock b

/-- A line of a block that is read again after a poisoned fill (R355): the last of them ends the fill, which counts in HEAT (R161). -/
def State.refillLine (s : State) (line : Nat) (v : List Byte × Bool) : State :=
  let b := line / 32
  let w := if (s.sector b).valid != 0 then (s, true) else s.makeWay b
  let s := if w.2 then (w.1.placeLines b [(line % 32, v.1, v.2)] false false).touch b else w.1.giveLines b [(line % 32, v)]
  if s.tier.reqs.any (fun r => match r.op with | .readLine k l => k == refillMark && l / 32 == b | _ => false) then s
  else (s.onPage (pageOfBlock b) (fun p => { p with heat := if p.heat = 0xFF then p.heat else p.heat + 1 })).wakeBlock b

/-- One line of a store is written at its slot: the next goes, or the request completes with the first failure of its lines (R93,
R95). -/
def State.lineWritten (s : State) (n line : Nat) (st : BitVec 6) : State :=
  match s.findReq n with
  | none => s
  | some r =>
    let r := { r with ioSt := if r.ioSt = stOk then st else r.ioSt }
    let s := s.putReq r
    let s := if s.tier.reqs.any (fun q => match q.op with | .writeLine k _ => k == n | _ => false) then s
      else if r.ioSt ≠ stOk then s.finish r r.ioSt
      else if r.done < r.lines.length then s.tryStore r r.hold
      else (s.countWarm r.fpa.toNat).finish r stOk r.back
    s.wakeBlock (line / 32)

/-- What an answer of a tray does: a status, a tenant and data (R154, R155, R160, R166, R355). -/
def State.trayDone (s : State) (q : TrayReq) (st : BitVec 6) (tenant : BitVec 10) (bad : BitVec 32) (pl : List Byte) : State :=
  match q.op with
  | .fill b =>
    if st = stPoison then
      (List.range 32).foldl (fun s i => s.sendTray q.tray b (.readLine refillMark (32 * b + i)) (s.blockExtent b).tenant 0x10
        (s.blockAddr b + 64 * i) 1 stOk []) s
    else if st = stOk then (let o := s.openLines b 0 32 tenant bad pl; o.1.fillDone b o.2)
    else s
  | .readLine n line =>
    let b := line / 32
    if st ≠ stOk ∧ st ≠ stPoison then s
    else
      let o := s.openLines b (line % 32) 1 tenant (if st = stPoison then 1 else bad) pl
      let v := o.2.headD (fill 64 0xFF, true)
      if n = refillMark then o.1.refillLine line v
      else match o.1.findReq n with
        | none => o.1
        | some r =>
          let r := if v.2 then { r with poison := true, got := Table.write [] r.got line v.1 }
                   else { r with got := Table.write [] r.got line v.1 }
          ((o.1.putReq r).serve n).wakeBlock b
  | .writeBack b m =>
    let s := if st = stOk ∨ s.tenantGone (s.blockExtent b).tenant = true then s else s.lostLines b m
    if s.slotBusy b then s else s.wakeBlock b
  | .writeLine n line => s.lineWritten n line st
  | .descriptor =>
    let t := q.tray
    let med := field pl 0 1
    let cap := field pl 4 4
    if st = stOk ∧ (med = 1 ∨ med = 2) ∧ field pl 1 1 = 1 ∧ cap ≠ 0 ∧ field pl 8 8 = (s.tray t).ident.toNat then
      (s.onTray t (fun x => { x with descOk := true, descSlots := 512 * cap, descTier := BitVec.ofNat 2 med })).writeBitmap t
    else s.event 0x50 0 (srcP t) t
  | .bitmap t =>
    let x := s.tray t
    if st = stOk then
      match x.state with
      | .unreachable => (s.trayTo t .online).trayBack t
      | .online => s
      | _ => if x.descOk then s.discovered t x.descTier.toNat x.descSlots x.ident else s
    else
      let s := s.onTray t (fun y => { y with retryAt := some (s.now + msT) })
      if x.state = .online then s.trayGone t else s
  | .zero page key i =>
    if st ≠ stOk ∨ s.tier.zeroing.contains page = false ∨ s.pageSlot page ≠ key then s
    else if i + 1 < 1024 then s.zeroBlock page (i + 1)
    else
      let s := (s.stopZero page).onPage page (fun p => { p with fresh := false })
      let s := (s.tier.reqs.filter (fun r => r.held.isSome && pageOfBlock r.addr == page && (match r.op with | .writeBack _ _ => true | _ => false))).foldl
        (fun s r => s.sendHeld r) s
      s.wake (fun r => r.stage.waiting)
  | .wipe key i =>
    match s.tier.wiping.find? (fun k => k.1 == key) with
    | none => s
    | some k =>
      if st ≠ stOk then s
      else if i + 1 < 1024 then s.wipeBlock k.2 (key / 2 ^ 30) (key % 2 ^ 30) (i + 1)
      else
        ({ s with tier := { s.tier with wiping := s.tier.wiping.filter (fun x => x.1 != key) } } : State).onTray (key / 2 ^ 30)
          (fun x => { x with freed := x.freed ++ [key % 2 ^ 30] })
  | .scrub page i =>
    if st ≠ stOk then s
    else if i + 1 < 1024 then s.scrubBlock page (i + 1)
    else s.onExtent (page / 512) (fun e => { e with scrubLeft := e.scrubLeft.filter (· != page) })
  | .stale => s
  | .copyRead page i =>
    match (s.tier.moves.find? (fun m => m.page == page)).bind (·.dst) with
    | none => s
    | some (t, sl) =>
      let tn := (s.pageExtent page).tenant
      if 2 ^ 20 ≤ i then
        let k := i - 2 ^ 20
        s.sendTray t (1024 * page) (.copyWrite page i) tn 0x12 (slotAddr t sl + 64 * k) 1 (if st = stOk then stOk else stPoison) pl
      else if st = stOk then
        if bad = 0 then s.sendTray t (1024 * page + i) (.copyWrite page i) tn 0x90 (slotAddr t sl + 2048 * i) 32 stOk pl
        else (List.range 32).foldl (fun s j => s.sendTray t (1024 * page + i) (.copyWrite page (2 ^ 20 + 32 * i + j)) tn 0x12
          (slotAddr t sl + 2048 * i + 64 * j) 1 (if bad.getLsbD j then stPoison else stOk) (lineAt pl j)) s
      else
        (List.range 32).foldl (fun s j => s.sendTray q.tray (1024 * page + i) (.copyRead page (2 ^ 20 + 32 * i + j)) tn 0x10
          (slotAddr q.tray (s.page page).slot.toNat + 2048 * i + 64 * j) 1 stOk []) s
  | .copyWrite page _ =>
    if !s.pageQuiet page then s
    else match s.tier.moves.find? (fun m => m.page == page) with
      | none => s
      | some m =>
        let s := { s with tier := { s.tier with moves := s.tier.moves.map (fun x =>
          if x.page = page then { x with copied := if x.again then x.copied else x.copied + 1, again := false } else x) } }
        if m.again then (if (s.page page).res = 3 then s.relocBlock page m.copied else s.copyBlock page m.copied)
        else if 1024 ≤ m.copied + 1 then s
        else if (s.page page).res = 3 then s.relocBlock page (m.copied + 1)
        else s.copyBlock page (m.copied + 1)

/-- A tray has answered one of the module's requests, whose tag is free again (R77, R78). -/
def State.trayAnswer (s : State) (q : TrayReq) (st : BitVec 6) (tenant : BitVec 10) (bad : BitVec 32) (pl : List Byte) : State :=
  let s := { s with tier := { s.tier with reqs := s.tier.reqs.erase q } }
  (s.trayDone q st tenant bad pl).tagFree q.tray

/-- The module's request outstanding on a tray under a tag. -/
def State.trayReqOf (s : State) (t : Nat) (tag : BitVec 13) : Option TrayReq :=
  s.tier.reqs.find? (fun r => r.tray == t && r.tag == tag && r.held.isNone)

end Sys2Proof.Machine
end

