-- ==== Sys2Proof/Machine/Access.lean ====
section
/-! DEFINITION. From an accepted request to its home: translation, walks and routing (chapters 03, 06 and 07). -/

namespace Sys2Proof.Machine

/-! ### Translation caches (R174) -/

/-- Capacity of a leaf cache by key, and of the walk cache of a unit (Table 07-10). -/
def tlbSize (key : Nat) : Nat := if key < 16 then 16384 else if key < 64 then 4096 else 128
def walkCacheSize (key : Nat) : Nat := if key < 16 then 1024 else 512
/-- Walks that a unit performs at once. -/
def walkSlots (unit : Nat) : Nat := if unit < 16 then 64 else 32

/-- The leaf that a cache holds for an address. -/
def State.tlbFind (s : State) (key : Nat) (tenant : BitVec 10) (tva : Nat) : Option TlbEntry :=
  (Table.read [] s.xl.tlb key).find? (fun e => e.tenant == tenant && e.tva / 2 ^ e.size == tva / 2 ^ e.size)

/-- The elements of a list but for those that `p` accepts beyond the first `n` of them. -/
def keepFirst {α : Type} (p : α → Bool) : Nat → List α → List α
  | _, [] => []
  | 0, x :: xs => if p x then keepFirst p 0 xs else x :: keepFirst p 0 xs
  | n + 1, x :: xs => if p x then x :: keepFirst p n xs else x :: keepFirst p (n + 1) xs

/-- Set of a leaf in the cache of a key: one set in a core, eight ways to a set elsewhere (Table 07-10). -/
def tlbSetOf (key : Nat) (e : TlbEntry) : Nat := if 64 ≤ key then 0 else Config.tlbSet e.tenant.toNat e.tva % (tlbSize key / 8)
/-- Ways of a set. -/
def tlbWays (key : Nat) : Nat := if 64 ≤ key then 128 else 8

/-- Put a leaf into a cache, most recent first; the oldest of its set beyond the ways goes (log 18). -/
def State.tlbPut (s : State) (key : Nat) (e : TlbEntry) : State :=
  let l := e :: (Table.read [] s.xl.tlb key).filter (fun x => !(x.tenant == e.tenant && x.tva == e.tva && x.size == e.size))
  let l := keepFirst (fun x => tlbSetOf key x == tlbSetOf key e) (tlbWays key) l
  { s with xl := { s.xl with tlb := Table.write [] s.xl.tlb key l } }

/-- Put a TABLE entry into a unit's walk cache. -/
def State.walkPut (s : State) (unit : Nat) (e : WalkEntry) : State :=
  let l := e :: (Table.read [] s.xl.walkCache unit).filter (fun x => !(x.tenant == e.tenant && x.level == e.level && x.key == e.key))
  { s with xl := { s.xl with walkCache := Table.write [] s.xl.walkCache unit (l.take (walkCacheSize unit)) } }

/-! ### The levels of a walk (Table 07-7) -/

/-- Lowest TVA bit that a level indexes, its entries, and the alignment of its table. -/
def levelShift (l : Nat) : Nat := match l with | 3 => 43 | 2 => 30 | 1 => 21 | _ => 14
def levelEntries (l : Nat) : Nat := match l with | 3 => 8192 | 2 => 8192 | 1 => 512 | _ => 128
def tableAlign (l : Nat) : Nat := 8 * levelEntries l
/-- FPA of the entry of a walk. -/
def Walk.entryAddr (w : Walk) : Nat := w.table + 8 * (w.tva / 2 ^ levelShift w.level % levelEntries w.level)

/-- Where a walk begins: the deepest table that the walk cache knows, else the root. -/
def State.walkStart (s : State) (unit : Nat) (tenant : BitVec 10) (tva : Nat) : Option (Nat × Nat) :=
  let r := Table.read {} s.xl.roots tenant.toNat
  let known := fun (l : Nat) => (Table.read [] s.xl.walkCache unit).find? (fun e =>
    e.tenant == tenant && e.level == l && e.key == tva / 2 ^ levelShift l)
  if !r.valid then none
  else match known 1 with
    | some e => some (0, e.table)
    | none => match known 2 with
      | some e => some (1, e.table)
      | none => match known 3 with
        | some e => some (2, e.table)
        | none => some (3, r.root.toNat * 65536)

/-- What a walk finds (Table 07-9). -/
inductive WalkEnd where
  | page (fpa size : Nat) (w : Bool)
  | dropped (leaf fpa : Nat) (w : Bool)
  | next (level table : Nat)
  | fault
  | fail (st : BitVec 6)
  deriving DecidableEq, Repr

/-- Judge an entry read at a level (Tables 07-7 to 07-9). -/
def judgeEntry (w : Walk) (e : Nat) : WalkEnd :=
  let ty := e % 4
  let addr := e / 1024 % 2 ^ 46 * 1024
  let wr := bit e 2
  let res := bits e 9 3 != 0 || bits e 63 56 != 0
  let size := levelShift w.level
  if ty = 0 then (if res then .fault else .fail stNoTrans)
  else if res then .fault
  else if ty = 1 then
    if w.level = 0 || wr || addr % tableAlign (w.level - 1) != 0 then .fault else .next (w.level - 1) addr
  else if ty = 2 then
    if w.level = 3 || addr % 2 ^ size != 0 then .fault else .page addr size wr
  else if w.level != 0 || addr % 2 ^ 14 != 0 then .fault else .dropped w.entryAddr addr wr

/-- One log entry and one event per tenant and millisecond for walk faults (R171). -/
def State.walkFault (s : State) (tenant : BitVec 10) (tva : Nat) : State :=
  let s := s.countTrn 1
  let ms := s.now / msT + 1
  if Table.read 0 s.xl.faultMs tenant.toNat = ms then s
  else ({ s with xl := { s.xl with faultMs := Table.write 0 s.xl.faultMs tenant.toNat ms } }).logE 0x0B 0 (srcTC tenant.toNat) tva true

/-! ### Requests on their way -/

/-- Tables by which a request routes (R313). -/
def State.tablesOf (s : State) (r : Req) : List Section := s.tables r.frame.epoch

/-- Send a request out of a port and wait for its answer; a dead target answers at once (R77, R85, R95). It waits while stores before it
are not performed, and one of the module's own while no tag is free (R78). A T port takes no request for CBF data (R194). -/
def State.sendOn (s : State) (r : Req) (p : Nat) (phys : Bool) : State :=
  let b := s.base p
  if (s.link b).dead then s.finish r stDead
  else if isWrite r.frame.opcode && r.frame.has flCmpr && !(Table.read {} s.cmp.ports b).peerCbf then s.finish r stDenied
  else
    let own := match r.origin with | .port _ => false | _ => true
    let f := if phys then { r.frame.set flPhys with addr := r.fpa } else r.frame
    let f := if (s.link b).cls = 1 then f.clear flCmpr else f
    if storeClass f.opcode && s.earlierStore r then s.putReq { r with stage := .ordered }
    else match (if own then s.freeTag b else some f.tag) with
      | none => s.putReq { r with stage := .ordered }
      | some tag =>
        let f := if own then { f with src := s.selfUnit, tag := tag } else f
        let s := if own then s.onLink b (fun l => { l with nextTag := tag + 1 }) else s
        let site := match r.origin with
          | .port q => portSite q
          | .thread c _ _ => s.coreSite c
          | _ => sd0Site
        (s.putReq { r with frame := f, stage := .remote b }).sendFrom site p none { frame := f }

/-- The tray that must act before a line of a request can be performed at its home (R85, R151, R152, R160). -/
def State.lineTray (s : State) (r : Req) (line : Nat) : Option Nat :=
  let b := line / 32
  let pg := s.page (pageOfBlock b)
  let way := (s.victim b).isSome
  let w := writes r.frame.opcode
  if s.lineValid line || (pg.res != 1 && pg.res != 2) || (way && (pg.fresh || r.fillsBlock b)) || (!w && (pg.fresh || r.hasLine line)) then none
  else some pg.tray.toNat

/-- The trays that a request at its home waits on. -/
def State.trays (s : State) (r : Req) : List Nat :=
  if r.counted.isNone then []
  else match r.stage with
    | .lineIo => ((r.lines.drop (r.done - 1)).take 1).map (fun l => (s.page (pageOfBlock (l / 32))).tray.toNat)
    | .filling | .pulling | .staged | .ordered | .snooping | .behind => r.left.filterMap (s.lineTray r)
    | _ => []

/-- A request waits on a tray to bring or take one of its lines. -/
def State.needsTray (s : State) (r : Req) (t : Nat) : Bool := (s.trays r).contains t

/-- A tray that a request needs lies behind a dead port (R85). -/
def State.deadTray (s : State) (r : Req) : Bool := (s.trays r).any (fun t => decide (t < 256) && (s.link (s.base t)).dead)

/-- The checks of chapter 05 on a coherence request at its home (R107, R108). -/
def State.cohRefuses (s : State) (r : Req) (e : Extent) : Bool :=
  let d := e.dom.toNat
  -- the one mapping of the extent, as the live entries of its lines show it (log 111)
  let other := fun (x : Nat × DirEntry) => fpaExtent (64 * x.1) == fpaExtent r.fpa.toNat && (match x.2.tva with
    | some t => t + (BitVec.ofNat 56 (64 * fpaLine r.fpa.toNat) - BitVec.ofNat 56 (64 * x.1)) != r.frame.addr
    | none => false)
  !e.coherent || (s.agentOf d r.frame.src).isNone || r.frame.tenant != (s.dom d).tenant
    || (!r.frame.has flPhys && s.coh.dir.any other)

/-- A request completes without effect: TENANT_RETIRED and RETRY_EPOCH come before any other status but MALFORMED and DENIED
(R74). -/
def State.turnBack (s : State) (r : Req) (st : BitVec 6) : State :=
  if s.tenantGone r.frame.tenant then s.finish r stRetired
  else if !s.epochLive r.frame.epoch then (s.countCmpo 2).finish r stRetry
  else s.finish r st

/-- Route a request whose FPA is known: to another module, or through the checks to its home (R128, R133, R313 to R315). -/
def State.route (s : State) (n : Nat) : State :=
  match s.findReq n with
  | none => s
  | some r =>
    let c := s.tablesOf r
    let a := r.fpa.toNat
    if fpaModule a ≠ s.moduleNo then
      match moduleRoute c (fpaModule a) with
      | some p => s.sendOn r p true
      | none => s.finish r stDenied
    else
      let st := s.extCheck c r.frame (r.origin.asker r.frame) a
      let e := s.extent (fpaExtent a)
      if (isCoherence r.frame.opcode && s.cohRefuses r e) || (e.coherent && r.frame.opcode == 0x90) || s.hofRefuses r then
        s.finish r stDenied
      else if st ≠ stOk || !s.epochLive r.frame.epoch then
        (if st = stRevoked ∧ s.tenantGone r.frame.tenant = false ∧ s.epochLive r.frame.epoch = true then s.countExt 0 else s).turnBack r st
      else if (s.page (fpaPage a)).res = 0 ∧ r.frame.has flPhys = true ∧ isWrite r.frame.opcode = true ∧ e.kv = true then
        -- a store that another module sends as a restore (R172, log 120)
        s.putReq { r with counted := some (fpaExtent a), stage := .restoring }
      else
        let moved := s.comp.state == .window && !s.comp.byNote && r.frame.epoch == s.comp.oldEpoch &&
          homeSlice s.comp.old e.pv.toNat (fpaBlock a) != homeSlice s.comp.run e.pv.toNat (fpaBlock a)
        let r := { r with counted := some (fpaExtent a), fwd := moved, frame := if moved then r.frame.set flFwd else r.frame }
        let s := (if moved then s.countCmpo 1 else s).putReq r
        let s := s.serve n
        match s.findReq n with
        | some q => if s.deadTray q then s.finish q stDead else s
        | none => s

/-- A request goes on with the leaf that its translation found (Table 07-9). -/
def State.proceed (s : State) (n : Nat) (x : WalkEnd) : State :=
  match s.findReq n with
  | none => s
  | some r =>
    let a := r.frame.addr.toNat
    -- a core's request carries the epoch current at its translation (R204)
    let r := { r with frame := match r.origin with | .port _ => r.frame | _ => { r.frame with epoch := s.comp.epoch } }
    match x with
    | .page fpa size w =>
      if !w && writes r.frame.opcode then s.finish r stDenied
      else (s.putReq { r with fpa := BitVec.ofNat 56 (fpa + a % 2 ^ size), page := some size }).route n
    | .dropped leaf fpa w =>
      if !w && writes r.frame.opcode then s.finish r stDenied
      else if w && isWrite r.frame.opcode && !s.tenantGone r.frame.tenant && s.epochLive r.frame.epoch then
        let q := { r with fpa := BitVec.ofNat 56 (fpa + a % 2 ^ 14), stage := .restoring, leaf := some leaf, page := some 14 }
        if fpaModule fpa ≠ s.moduleNo then (s.putReq q).route n
        else if (s.extent (fpaExtent fpa)).kv then s.putReq q
        else s.turnBack r stNoTrans
      else s.turnBack r stNoTrans
    | .fail st => s.turnBack r st
    | _ => s.turnBack r stNoTrans

/-- Read the next entry of a walk with a load at its home (R170); a table read that fails its checks is a walk fault. -/
def State.readEntry (s : State) (w : Walk) : State :=
  let w := { w with begun := true }
  let a := w.entryAddr
  let e := s.extent (fpaExtent a)
  let here := fpaModule a == s.moduleNo
  if here && (e.state != .active || e.tenant != w.tenant) then
    { s with xl := { s.xl with walks := s.xl.walks.map (fun (x : Walk) => if x.id = w.id then { w with got := some (stNoTrans, []) } else x) } }
  else
    let f : Frame := { opcode := 0x10, src := s.selfUnit, dst := pvUnit s.comp.run e.pv.toNat, vc := 2, tenant := w.tenant,
                       epoch := s.comp.epoch, addr := BitVec.ofNat 56 (a / 64 * 64), length := 1, flags := flPhys }
    let n := s.req.nextN
    let r : Req := { n := n, origin := .walk w.id, frame := f, stage := .filling, fpa := BitVec.ofNat 56 (a / 64 * 64),
                     counted := if here then some (fpaExtent a) else none,
                     timer := s.targetTimer 0, backstop := s.targetTimer 0, at_ := s.now, tva := BitVec.ofNat 56 (a / 64 * 64) }
    let s := ({ s with xl := { s.xl with walks := s.xl.walks.map (fun (x : Walk) => if x.id = w.id then w else x) } }).addReq r
    if here then s.serve n else s.route n

/-- The walk of a unit, tenant and 16 KiB page that is in progress. -/
def State.walkFor (s : State) (unit : Nat) (tenant : BitVec 10) (tva : Nat) : Option Walk :=
  s.xl.walks.find? (fun w => w.unit == unit && w.tenant == tenant && w.tva / 2 ^ 14 == tva / 2 ^ 14 && w.probe.isNone)

/-- A walk holds one of its unit's walk slots (R174). -/
def State.walkRuns (s : State) (w : Walk) : Bool :=
  (((s.xl.walks.filter (fun x => x.unit == w.unit)).take (walkSlots w.unit)).map (·.id)).contains w.id

/-- Start a walk, unless one for the page is in progress; the walk's identifier, or none where the root is not valid. A miss that finds
every walk slot busy waits for one (R174). -/
def State.startWalk (s : State) (unit : Nat) (core : Option Nat) (tenant : BitVec 10) (tva : Nat) (probe : Option (Nat × Nat)) :
    State × Option Nat :=
  match (if probe.isNone then s.walkFor unit tenant tva else none) with
  | some w => (s, some w.id)
  | none =>
    match s.walkStart unit tenant tva with
    | none => (s, none)
    | some (level, table) =>
      let w : Walk := { id := s.xl.nextWalk, unit := unit, core := core, tenant := tenant, tva := tva, level := level,
                        table := table, probe := probe }
      let s := s.countTrn 0
      let s := { s with xl := { s.xl with walks := s.xl.walks ++ [w], nextWalk := s.xl.nextWalk + 1 } }
      (if s.walkRuns w then s.readEntry w else s, some w.id)

/-- Walks of a unit that have now a slot begin, from where the walk caches of the moment let them. -/
def State.beginWalks (s : State) (unit : Nat) : State :=
  (s.xl.walks.filter (fun w => w.unit == unit && !w.begun && s.walkRuns w)).foldl (fun (s : State) w =>
    match s.walkStart unit w.tenant w.tva with
    | some (level, table) => s.readEntry { w with level := level, table := table }
    | none => { s with xl := { s.xl with walks := s.xl.walks.map (fun (x : Walk) =>
        if x.id = w.id then { x with begun := true, got := some (stNoTrans, []) } else x) } }) s

/-- Translate a request that names a TVA: a cache hit, or a walk (R168, R174). -/
def State.translate (s : State) (n : Nat) (unit : Nat) (core : Option Nat) : State :=
  match s.findReq n with
  | none => s
  | some r =>
    let a := r.frame.addr.toNat
    let t := r.frame.tenant
    let hit := match core with
      | some k => (s.tlbFind (64 + k) t a).or (s.tlbFind unit t a)
      | none => s.tlbFind unit t a
    match hit with
    | some e => s.proceed n (.page e.fpa e.size e.w)
    | none =>
      let w := s.startWalk unit core t a none
      match w.2 with
      | some id => match w.1.findReq n with
        | some r => w.1.putReq { r with stage := .walking id }
        | none => w.1
      | none => s.proceed n (.fail stNoTrans)

/-- The result of a walk reaches the requests that wait for it. -/
def State.endWalk (s : State) (w : Walk) (x : WalkEnd) : State :=
  let ns := (s.req.reqs.filter (fun r => r.stage == .walking w.id)).map (·.n)
  let s := { s with xl := { s.xl with walks := s.xl.walks.filter (fun y => y.id != w.id) } }
  let s := match x with
    | .page fpa size wr =>
      let e : TlbEntry := { tenant := w.tenant, tva := w.tva / 2 ^ size * 2 ^ size, size := size, fpa := fpa, w := wr }
      let s := s.tlbPut w.unit e
      match w.core with | some k => s.tlbPut (64 + k) e | none => s
    | .fault => s.walkFault w.tenant w.tva
    | _ => s
  -- a DROPPED leaf found for a decode is noted with it (R272)
  let s := match w.probe with
    | some (id, page) => { s with atn := { s.atn with decodes := s.atn.decodes.map (fun (d : Decode) =>
        if d.id = id then { d with
          probing := d.probing.filter (· != page)
          dropped := (match x with | .dropped _ _ _ => d.dropped ++ [page] | _ => d.dropped)
          broken := (match x with | .dropped _ _ _ => d.broken | _ => d.broken ++ [page]) } else d) } }
    | none => s
  ((ns.foldl (fun (s : State) n => s.proceed n x) s).beginWalks w.unit).wakeStaged

/-- The read of a walk's entry has been answered: the walk goes a level down or ends (R168 to R171). -/
def State.walkRead (s : State) (w : Walk) (st : BitVec 6) (bs : List Byte) : State :=
  if !(Table.read ({} : Root) s.xl.roots w.tenant.toNat).valid then s.endWalk w (.fail stNoTrans)
  else if st = stDead then s.endWalk w (.fail stDead)
  else if st ≠ stOk then s.endWalk w .fault
  else
    match judgeEntry w (field bs (w.entryAddr % 64) 8) with
    | .next level table =>
      let s := s.walkPut w.unit { tenant := w.tenant, level := w.level, key := w.tva / 2 ^ levelShift w.level, table := table }
      s.readEntry { w with level := level, table := table, got := none }
    | x => s.endWalk w x

/-! ### Accepting a request -/

/-- A request is accepted: its record with the timers of R88, then its route by destination and address (R29, R89, R97). -/
def State.take (s : State) (o : Origin) (f : Frame) (unit : Nat) (core : Option Nat) (hops : Nat) : State :=
  let n := s.req.nextN
  let c := s.tables f.epoch
  let st := stagesTo c f.dst
  let r : Req := { n := n, origin := o, frame := f, stage := .filling, tva := f.addr, timer := s.targetTimer hops,
                   backstop := if st = 0 then s.targetTimer hops else s.backstopTimer st, stages := st, at_ := s.now }
  let s := s.addReq r
  match s.failedBefore r with
  | some bad => s.finishOne r bad
  | none =>
  match unitOf c f.dst with
  | .pavilion _ =>
    if f.has flPhys then (s.putReq { r with fpa := f.addr }).route n else s.translate n unit core
  | .port p => s.sendOn r p false
  | .away p _ => s.sendOn r p false
  | .invalid => s.finish r stDenied

/-- A request is accepted; stores that fail with it release the loads behind them. -/
def State.accept (s : State) (o : Origin) (f : Frame) (unit : Nat) (core : Option Nat) (hops : Nat) : State :=
  (s.take o f unit core hops).wakeStaged

/-- A walk's read has been answered, in the command WALK_READ_COMPLETE (R168 to R171). -/
def execWalkReadComplete (walk : Nat) (s : State) : Host.Outcome State Fault Refusal :=
  .next (match s.xl.walks.find? (fun w => w.id == walk) with
    | none => s
    | some w => match w.got with
      | none => s
      | some g => if s.alive && s.walkRuns w then s.walkRead w g.1 g.2 else s)

end Sys2Proof.Machine
end

