-- ==== Sys2Proof/Machine/Convert.lean ====
section
/-! DEFINITION. The number formats of Table 09-5 and the conversions between them (chapter 09), shared by the engines, the
collectives and attention. -/

namespace Sys2Proof.Machine

/-- What a format code names. -/
inductive ElemKind where
  | fp (f : Fmt)
  | mx (f : Fmt)
  | int (w : Nat)
  deriving DecidableEq, Repr

/-- Table 09-5; none for a reserved code. -/
def elemKind (code : Nat) : Option ElemKind :=
  match code with
  | 0 => some (.fp fp32) | 1 => some (.fp bf16) | 2 => some (.fp fp16) | 3 => some (.fp e4m3) | 4 => some (.fp e5m2)
  | 5 => some (.mx e4m3) | 6 => some (.mx e5m2) | 7 => some (.mx e2m3) | 8 => some (.mx e3m2) | 9 => some (.mx e2m1)
  | 10 => some (.int 8) | 11 => some (.int 32) | _ => none

/-- Width of an element in bits. -/
def elemBits (code : Nat) : Nat :=
  match elemKind code with
  | some (.fp f) => f.w | some (.mx f) => f.w | some (.int w) => w | none => 0

def isMx (code : Nat) : Bool := 5 ≤ code && code ≤ 9
def isIntFmt (code : Nat) : Bool := code == 10 || code == 11
/-- An FP8 or MX format, to which stochastic rounding applies (R214). -/
def takesSr (code : Nat) : Bool := 3 ≤ code && code ≤ 9

/-- Bytes of `n` elements stored densely. -/
def packedBytes (code n : Nat) : Nat := (n * elemBits code + 7) / 8

/-- `n` elements read from dense storage, element 0 in the lowest bits (R209). -/
def unpackEls (code : Nat) (bs : List Byte) (n : Nat) : List Nat :=
  let v := leNat bs
  (List.range n).map (fun i => v / 2 ^ (elemBits code * i) % 2 ^ elemBits code)

/-- Elements stored densely. -/
def packEls (code : Nat) (xs : List Nat) : List Byte :=
  leBytes (packedBytes code xs.length) (xs.foldr (fun x acc => x % 2 ^ elemBits code + 2 ^ elemBits code * acc) 0)

/-- An integer as a value. -/
def intNum (i : Int) : Num := .fin (decide (i < 0)) i.natAbs 0

/-- The value of an element, before any scale. -/
def elemValue (code x : Nat) : Num :=
  match elemKind code with
  | some (.fp f) => decodeFp f x
  | some (.mx f) => decodeFp f x
  | some (.int w) => intNum (sint w x)
  | none => .nan

/-- A value under an E8M0 scale; 0xFF makes it NaN (R209). -/
def scaleNum (s : Nat) (x : Num) : Num :=
  if s = 0xFF then .nan
  else match x with
    | .fin n m e => .fin n m (e + s - 127)
    | y => y

/-- The values of `n` elements, under one scale for each 32 of them in an MX format. -/
def elemValues (code : Nat) (bs : List Byte) (n : Nat) (scales : List Byte) : List Num :=
  let xs := (unpackEls code bs n).map (elemValue code)
  if isMx code then xs.zipIdx.map (fun x => scaleNum (scales.getD (x.2 / 32) 0).toNat x.1) else xs

/-- A finite value rounded to an integer, to nearest even. -/
def roundInt (neg : Bool) (m : Nat) (e : Int) : Int :=
  let v : Nat := if 0 ≤ e then m * 2 ^ e.toNat else roundShift .nearest m (-e).toNat
  if neg then -(v : Int) else v

/-- An integer brought into the range of `w` bits (Table 09-12). -/
def clampInt (w : Nat) (i : Int) : Int := max (-(2 : Int) ^ (w - 1)) (min ((2 : Int) ^ (w - 1) - 1) i)

/-- Conversion to an integer format (Table 09-12). -/
def encodeInt (w : Nat) (x : Num) : Nat :=
  match x with
  | .nan => 0
  | .inf neg => wrap w (if neg then -(2 : Int) ^ (w - 1) else (2 : Int) ^ (w - 1) - 1)
  | .fin neg m e => wrap w (clampInt w (roundInt neg m e))

/-- How result element `i` rounds, under the seed of stochastic rounding where it is set (R214). -/
def roundingFor (code : Nat) (seed : Option Nat) (i : Nat) : Rounding :=
  match seed with
  | some sd => if takesSr code then .stochastic sd i else .nearest
  | none => .nearest

/-- Conversion to a format without scales (R214, R215): SAT bears on FP8 E5M2 alone. -/
def encodeEl (code : Nat) (seed : Option Nat) (sat : Bool) (i : Nat) (x : Num) : Nat :=
  match elemKind code with
  | some (.fp f) => encodeFp f (roundingFor code seed i) (sat && code == 4) x
  | some (.int w) => encodeInt w x
  | _ => 0

/-- Largest exponent of an element format of MX. -/
def Fmt.emax (f : Fmt) : Int := ((f.maxBits / 2 ^ f.mb : Nat) : Int) - f.bias

/-- Exponent of the leading bit of a value. -/
def topExp : Num → Option Int
  | .fin _ m e => if m = 0 then none else some (e + Nat.log2 m)
  | _ => none

/-- A block of an MX result: its scale and its elements (Table 09-12). -/
def mxBlock (code : Nat) (f : Fmt) (seed : Option Nat) (i0 : Nat) (xs : List Num) : BitVec 8 × List Nat :=
  let idx := xs.zipIdx
  if xs.contains .nan then (0xFF, idx.map (fun x => Config.nanElem code (i0 + x.2)))
  else
    let hasInf := xs.any (fun x => match x with | .inf _ => true | _ => false)
    let tops := xs.filterMap topExp
    let sc : BitVec 8 :=
      if hasInf then Config.mxScale code 0x7F800000
      else match tops with
        | [] => Config.mxScale code 0
        | t :: ts => BitVec.ofNat 8 (max 0 (min 254 (ts.foldl max t - f.emax + 127))).toNat
    (sc, idx.map (fun x =>
      let y := match x.1 with | .fin n m e => .fin n m (e - (sc.toNat : Int) + 127) | z => z
      encodeFp f (roundingFor code seed (i0 + x.2)) true y))

/-- Conversion of a run of results whose first has index `i0`: packed elements, and one scale for each 32 (R214, R215). -/
def convertAll (code : Nat) (seed : Option Nat) (sat : Bool) (i0 : Nat) (xs : List Num) : List Byte × List Byte :=
  match elemKind code with
  | some (.mx f) =>
    let bs := (chunks 32 ((xs.length + 31) / 32) xs).zipIdx.map (fun x => mxBlock code f seed (i0 + 32 * x.2) x.1)
    (packEls code (bs.flatMap (·.2)), bs.map (·.1))
  | _ => (packEls code (xs.zipIdx.map (fun x => encodeEl code seed sat (i0 + x.2) x.1)), [])

/-- Comparison of two values by CMP of Table 09-11; NaN satisfies none. -/
def cmpHolds (cmp : Nat) (x lo hi : Num) : Bool :=
  let lt := ltNum
  if x = .nan ∨ lo = .nan then false
  else match cmp with
    | 0 => !lt x lo && !lt lo x
    | 1 => lt x lo || lt lo x
    | 2 => lt x lo
    | 3 => !lt lo x
    | 4 => lt lo x
    | 5 => !lt x lo
    | 6 => !lt x lo && hi != .nan && !lt hi x
    | _ => false

/-- The largest `k` of candidates (value, order key, payload), in descending value order, ties to the lower key; NaN is never
selected (R213, R238). -/
def topK {α : Type} (k : Nat) (xs : List (Num × Nat × α)) : List (Num × Nat × α) :=
  (sortBy (fun a b => ltNum b.1 a.1 || (!ltNum a.1 b.1 && decide (a.2.1 ≤ b.2.1))) (xs.filter (fun x => x.1 != .nan))).take k

/-- A fused multiply-add in FP32: one rounding to nearest even. -/
def fma32 (a b c : Num) : Num := decodeFp fp32 (enc32 (addNum (mulNum a b) c))

/-- A value rounded to FP32. -/
def to32 (x : Num) : Num := decodeFp fp32 (enc32 x)

end Sys2Proof.Machine
end

