-- ==== Sys2Proof/Machine/Approx.lean ====
section
/-! DEFINITION. EXP2, LOG2, RCP and RSQRT with their free error, and the order of a vector reduction (R212). -/

namespace Sys2Proof.Machine

/-- Signed order of FP32 encodings that are no NaN: the number of units in the last place from zero. -/
def ulpsOf (x : Nat) : Int := if 2 ^ 31 ≤ x then -((x - 2 ^ 31 : Nat) : Int) else x

/-- The encoding so many units from zero, kept finite or infinite. -/
def ofUlps (i : Int) : Nat :=
  if i < 0 then 2 ^ 31 + min 0x7F800000 i.natAbs else min 0x7F800000 i.natAbs

/-- A correctly rounded result moved by its free error of at most 2 units (R212, log 11); an infinity stays. -/
def withError (op x y : Nat) : Nat :=
  if y % 2 ^ 31 = 0x7F800000 then y
  else ofUlps (ulpsOf y + ((Config.ulpError op (BitVec.ofNat 32 x) % 5 : Nat) : Int) - 2)

/-- 2^(2^-i), i = 1 to n, in fixed point with 160 fraction bits, from 2^(2^-(i-1)). -/
def rootsOfTwo : Nat → Nat → List Nat
  | 0, _ => []
  | n + 1, v => let r := sqrtBits 200 (v * 2 ^ 160); r :: rootsOfTwo n r

/-- 2^(f / 2^n) for f below 2^n, in fixed point with 160 fraction bits. -/
def fracExp2 (n f : Nat) : Nat :=
  ((rootsOfTwo n (2 ^ 161)).zipIdx.foldl (fun acc x => if bit f (n - 1 - x.2) then acc * x.1 / 2 ^ 160 else acc) (2 ^ 160))

/-- 2^x for a finite value, before rounding. -/
def exactExp2 (neg : Bool) (m : Nat) (e : Int) : Num :=
  let v := scaled neg m (max e (-149)) (-149)
  let v := if e < -149 then 0 else v
  let whole := v / (2 : Int) ^ 149
  let frac := (v % (2 : Int) ^ 149).toNat
  if 200 < whole then .inf false
  else if whole < -400 then .fin false 0 0
  else .fin false (2 * fracExp2 149 frac + 1) (whole - 161)

/-- Bits of log2 of y / 2^256, for y from 2^256 up to 2^257, most significant first, by repeated squaring. -/
def logBits : Nat → Nat → Nat → Nat
  | 0, _, acc => acc
  | n + 1, y, acc =>
    let z := y * y / 2 ^ 256
    if 2 ^ 257 ≤ z then logBits n (z / 2) (2 * acc + 1) else logBits n z (2 * acc)

/-- log2 of a positive value, before rounding. -/
def exactLog2 (m : Nat) (e : Int) : Num :=
  let k := Nat.log2 m
  let f := logBits 100 (m * 2 ^ (256 - k)) 0
  let v : Int := (e + k) * (2 : Int) ^ 100 + f
  .fin (decide (v < 0)) v.natAbs (-100)

/-- 1 / (m x 2^e), with a sticky bit. -/
def exactRcp (neg : Bool) (m : Nat) (e : Int) : Num :=
  .fin neg (2 * (2 ^ 200 / m) + (if 2 ^ 200 % m = 0 then 0 else 1)) (-201 - e)

/-- 1 / sqrt(m x 2^e), with a sticky bit. -/
def exactRsqrt (m : Nat) (e : Int) : Num :=
  let m := if e % 2 = 0 then m else 2 * m
  let e := if e % 2 = 0 then e else e - 1
  let q := 2 ^ 200 / m
  let r := sqrtBits 128 q
  .fin false (2 * r + (if 2 ^ 200 % m = 0 ∧ r * r = q then 0 else 1)) (-101 - e / 2)

/-- FP32 result of operation 8 EXP2, 9 LOG2, 10 RCP or 11 RSQRT on an FP32 encoding: within 2 units of the correctly rounded
value, and free where the spec states no value (R212, log 11); 2 to the power minus infinity is 0 (R268). -/
def approx (op x : Nat) : Nat :=
  let free := (Config.corner op (BitVec.ofNat 32 x)).toNat
  match f32 x, op with
  | .fin n m e, 8 => withError op x (enc32 (exactExp2 n m e))
  | .fin n m e, 9 => if n || m = 0 then free else withError op x (enc32 (exactLog2 m e))
  | .fin n m e, 10 => if m = 0 then free else withError op x (enc32 (exactRcp n m e))
  | .fin n m e, 11 => if n || m = 0 then free else withError op x (enc32 (exactRsqrt m e))
  | .inf true, 8 => 0
  | _, _ => free

/-- Every 64th element from `l` on. -/
def laneOf {α : Type} (xs : List α) (l : Nat) : List α := (xs.zipIdx.filter (fun x => x.2 % 64 == l)).map (·.1)

/-- Pairwise combination of neighbours; an element without a partner stays. -/
def pairUp (f : Nat → Nat → Nat) : List (Option Nat) → List (Option Nat)
  | some a :: some b :: t => some (f a b) :: pairUp f t
  | some a :: none :: t => some a :: pairUp f t
  | none :: b :: t => b :: pairUp f t
  | l => l

/-- A reduction in the order of R212: by lanes in index order, then the 64 lanes pairwise; lanes without elements give nothing. -/
def reduce64 (f : Nat → Nat → Nat) (xs : List Nat) : Nat :=
  let lanes := (List.range 64).map (fun l => match laneOf xs l with | [] => none | a :: t => some (t.foldl f a))
  ((pairUp f (pairUp f (pairUp f (pairUp f (pairUp f (pairUp f lanes)))))).headD none).getD 0

/-- RSUM and RMAX of FP32 encodings. -/
def rsum (xs : List Nat) : Nat := reduce64 add32 xs
def rmax (xs : List Nat) : Nat := reduce64 max32 xs

/-- A dot product added to `acc` by the MXE: one rounding for each multiply-accumulate, in ascending k (R214). -/
def dotAcc (acc : Nat) (xs ys : List Num) : Nat :=
  (xs.zip ys).foldl (fun a x => enc32 (addNum (f32 a) (mulNum x.1 x.2))) acc

end Sys2Proof.Machine
end

