-- ==== Sys2Proof/Machine/Mgmt.lean ====
section
/-! DEFINITION. The ADK link: its frames, responses and link layer, and the roles that a request needs (chapters 14 and 17). -/

namespace Sys2Proof.Machine

/-! ### Roles (R339 to R342) -/

/-- Roles of Table 14-6. -/
inductive Role where
  | operator | installer | maker
  deriving DecidableEq, Repr

/-- The installer window is open (R340). -/
def State.windowOpen (s : State) : Bool := match s.sec.instEnd with | some e => decide (s.now < e) | none => false

/-- A role is held (R339 to R341). -/
def State.holdsRole (s : State) : Role → Bool
  | .operator => true
  | .installer => s.windowOpen && s.sec.pres
  | .maker => s.sec.maker

/-- The log entry and count of a write made without its role (R342). -/
def State.denyRole (s : State) (r : Role) (addr : Nat) : State :=
  let reason := match r with | .maker => 3 | _ => if s.windowOpen then 2 else 1
  (s.countSec 1).logE 0x18 (match r with | .maker => 2 | _ => 1) srcModule (addr + reason * 2 ^ 48)

/-! ### Sending (R390, R392, R397) -/

/-- Frames that wait go out while fewer than 64 are unacknowledged (R392). -/
def State.adkFlush (s : State) : State :=
  let n := min s.adk.outq.length (64 - s.adk.unacked.length)
  let go := (s.adk.outq.take n).zipIdx.map (fun x => (s.adk.txSeq + BitVec.ofNat 12 x.2, x.1))
  { s with adk := { s.adk with
      unacked := s.adk.unacked ++ go, outq := s.adk.outq.drop n, txSeq := s.adk.txSeq + BitVec.ofNat 12 n
      ackAt := if s.adk.unacked.isEmpty then s.now else s.adk.ackAt } }

/-- Queue a frame for the adapter and send what may go. -/
def State.adkSend (s : State) (f : AdkFrame) : State :=
  ({ s with adk := { s.adk with outq := s.adk.outq ++ [f] } }).adkFlush

/-- Answer a request that has been performed, and keep it with its response (R394, R396, R397). -/
def State.adkReply (s : State) (q : AdkFrame) (st : BitVec 6) (addr : BitVec 48) (words : List (BitVec 64)) : State :=
  let r : AdkFrame := { ty := q.ty ||| 0x80, status := st, tag := q.tag, addr := addr,
                        eseqLo := s.evq.eseqNext.setWidth 16, len := words.length, words := words }
  ({ s with adk := { s.adk with kept := s.adk.kept.filter (fun (e : Nat × AdkFrame × AdkFrame) => e.1 != q.tag.toNat) ++ [(q.tag.toNat, q, r)] } }).adkSend r

/-- Data of a failed read (R394). -/
def failWords (q : AdkFrame) : List (BitVec 64) := if q.ty = 1 then List.replicate q.len (BitVec.allOnes 64) else []
/-- Answer a request that fails. -/
def State.adkFail (s : State) (q : AdkFrame) (st : BitVec 6) : State := s.adkReply q st q.addr (failWords q)

/-! ### Performing (R394 to R397) -/

/-- Management address of MOD_CMD. -/
def modCmdAddr : Nat := maddr 1 0 3 0x008

/-- SD0 serves the request in the present state: before boot step 6 and in HALT only the MOD_ and LOG_ pages, LOGRD and
MOD_CMD.WARM (R375, R381). -/
def State.adkServes (s : State) (q : AdkFrame) : Bool :=
  let limited := s.mod.state == .halt || (s.mod.state == .boot && decide (s.mod.bootStep.toNat < 6))
  let page := q.addr.toNat / 4096
  !limited || q.ty == 4 || (q.ty == 1 && (page == maddr 1 0 2 0 / 4096 || page == maddr 1 0 3 0 / 4096))
    || (q.ty == 2 && q.addr.toNat == modCmdAddr && (q.words.headD 0).toNat % 8 == 4)

/-- The tag of a request has been used since the last INIT with RESET (R397). -/
def State.adkUse (s : State) (q : AdkFrame) : State :=
  { s with adk := { s.adk with fresh := s.adk.fresh &&& ~~~((1 : BitVec 32) <<< q.tag.toNat) } }

/-- Answer a request that breaks a form: a WRR with MALFORMED (R394). -/
def State.adkMalformed (s : State) (q : AdkFrame) : State :=
  (s.adkUse q).adkSend
    { ty := 0x82, status := stMalformed, tag := q.tag, addr := q.addr, eseqLo := s.evq.eseqNext.setWidth 16, words := [] }

/-- Perform a request, unless it repeats the last one of its tag after a reset of the link, which gets the kept response
again (R397). -/
def State.adkPerform (s : State) (q : AdkFrame) (body : State → State) : State :=
  let first := s.adk.fresh.getLsbD q.tag.toNat
  let s := s.adkUse q
  match s.adk.kept.find? (fun (e : Nat × AdkFrame × AdkFrame) => e.1 == q.tag.toNat) with
  | some k =>
    if first && { k.2.1 with cycle := q.cycle } == q then s.adkSend k.2.2
    else if s.adkServes q then body s else s.adkFail q stDenied
  | none => if s.adkServes q then body s else s.adkFail q stDenied

/-- The link has received a frame good and in order (R391). -/
def State.adkTake (s : State) : State :=
  { s with adk := { s.adk with rxSeq := s.adk.rxSeq + 1, rxAny := true, nak := false,
                               owedAck := some (s.adk.owedAck.getD s.now) } }

/-- A request arrives: malformed ones are answered so; while an access is still in progress later ones wait, and all are answered in
their order (R394, R395). -/
def State.adkRequest (s : State) (q : AdkFrame) (ok : Bool) (body : State → State) : State :=
  if s.adk.state ≠ .up then s
  else
    let s := s.adkTake
    let bad := !ok || decide (32 ≤ q.tag.toNat)
    if !s.adk.outstanding.isEmpty then { s with adk := { s.adk with outstanding := s.adk.outstanding ++ [{ q with bad := bad }] } }
    else if bad then s.adkMalformed q
    else s.adkPerform q body

/-- A WR frame. -/
def wrFrame (tag : BitVec 16) (addr : Nat) (value : BitVec 64) : AdkFrame :=
  { ty := 2, status := 0, tag := tag, addr := BitVec.ofNat 48 addr, len := 1, words := [value] }

/-- Perform a write: judge its role, then its effect, then answer (R342, R395, R396). -/
def State.wrBody (q : AdkFrame) (role : Role) (f : State → State × BitVec 6) (s : State) : State :=
  if s.holdsRole role then (f s).1.adkReply q (f s).2 q.addr []
  else (s.denyRole role q.addr.toNat).adkReply q stDenied q.addr []

/-- A WR of a value to a register whose write does `f`. -/
def State.adkWr (s : State) (tag : BitVec 16) (addr : Nat) (value : BitVec 64) (role : Role) (f : State → State × BitVec 6) : State :=
  let q := wrFrame tag addr value
  s.adkRequest q true (State.wrBody q role f)

/-! ### The link layer (R389 to R393, R402) -/

/-- The words of an event record (Table 17-5). -/
def Event.words (e : Event) : List (BitVec 64) :=
  [e.ft,
   BitVec.ofNat 64 (e.src.toNat + e.code.toNat * 2 ^ 16 + e.detail.toNat * 2 ^ 24 + e.flags.toNat * 2 ^ 32),
   BitVec.ofNat 64 (e.logSeq.toNat + e.eseq.toNat * 2 ^ 32),
   e.param]

/-- Event records that a frame carries. -/
def AdkFrame.records (f : AdkFrame) : Nat := if f.ty = 0x90 then f.words.length / 4 else 0

/-- Acknowledge the frames up to ACK_SEQ: their event records leave the queue (R392, R402). -/
def State.adkAck (s : State) (seq : BitVec 12) : State :=
  match s.adk.unacked.findIdx? (fun e => e.1 == seq) with
  | none => s
  | some i =>
    let n := ((s.adk.unacked.take (i + 1)).map (fun e => e.2.records)).sum
    let s := { s with
      adk := { s.adk with unacked := s.adk.unacked.drop (i + 1), ackAt := s.now, replays := 0 }
      evq := { s.evq with queue := s.evq.queue.drop n, sent := s.evq.sent - n } }
    s.noteLost.adkFlush

/-- The link retrains (R392). -/
def State.adkRetrain (s : State) : State :=
  { s with adk := { s.adk with state := .training, retrains := s.adk.retrains + 1, trainAt := s.now, replays := 0 } }

/-- Replay the frames that no ACK_SEQ covers; after 8 replays without progress the link retrains (R392). -/
def State.adkReplay (s : State) : State :=
  if 8 ≤ s.adk.replays then s.adkRetrain
  else ({ s with adk := { s.adk with replays := s.adk.replays + 1, ackAt := s.now } }).countAdk 1

/-- Bytes of words in order. -/
def wordBytes (ws : List (BitVec 64)) : List Byte := ws.flatMap (fun w => leBytes 8 w.toNat)

/-- The CRC-32C of the trailer of a frame: over its header and payload words and bits [31:0] of the trailer (R390). -/
def adkCrc (words : List (BitVec 64)) (low : BitVec 32) : BitVec 32 :=
  BitVec.ofNat 32 (crc32c (wordBytes words ++ leBytes 4 low.toNat))

/-- A control block with a BTYPE that R389 does not list is discarded and counted, and so is a frame with a bad CRC-32C, for which a NAK
is owed (R389 to R391). `words` are the header and payload words of the frame that an SOF begins, `low` and `crc` its trailer. What is
neither is no such block or frame. -/
def execAdkFrameReject (btype : BitVec 8) (words : List (BitVec 64)) (low crc : BitVec 32) (s : State) : Host.Outcome State Fault Refusal :=
  .next (
    let frame := btype == 0xA5 && crc != adkCrc words low
    let block := !([0x1E, 0xA5, 0x5A, 0xC3] : List (BitVec 8)).contains btype
    if (s.adk.state = .up ∨ s.adk.state = .init) ∧ (frame || block) = true then
      ({ s with adk := { s.adk with nak := s.adk.nak || frame } }).countAdk 0
    else s)

/-- A peer in INIT: its event credit, and the replay or restart that its RESET asks for (R392, R402). -/
def State.adkInit (s : State) (w : LinkCtl) : State :=
  let s := if w.reset then
      { s with adk := { s.adk with unacked := [], txSeq := 0, rxSeq := 0, rxAny := false, fresh := BitVec.allOnes 32, owedAck := none },
               evq := { s.evq with sent := 0 } }
    else if w.ackV then s.adkAck w.ackSeq else s
  ({ s with adk := { s.adk with state := .up, evInit := w.evCredit, evCredit := 0, nak := false, replays := 0, ackAt := s.now,
                                evSent := BitVec.ofNat 16 ((s.adk.unacked.map (fun (e : BitVec 12 × AdkFrame) => e.2.records)).sum) } }).adkFlush

/-- A LINKCTL block (R391, R392, R402): one whose LCRC fails is discarded. -/
def execAdkLinkctl (word : LinkCtl) (s : State) : Host.Outcome State Fault Refusal :=
  .next (
    if !word.good || s.adk.state == .down || s.adk.state == .training then s
    else if word.init then s.adkInit word
    else if s.adk.state = .init then s
    else
      let s := { s with adk := { s.adk with evCredit := word.evCredit } }
      let s := if word.ackV then s.adkAck word.ackSeq else s
      if word.nak then s.adkReplay else s)

/-- The LINKCTL that SD0 sends now (Table 17-2). -/
def State.linkctlWord (s : State) : BitVec 64 :=
  let init := s.adk.state == .init
  let low := 0xC3 + (s.adk.rxSeq - 1).toNat * 2 ^ 8 + b2n s.adk.rxAny * 2 ^ 20 + b2n s.adk.nak * 2 ^ 21 + b2n init * 2 ^ 22
    + b2n (init && s.adk.unacked.isEmpty && s.adk.txSeq == 0 && !s.adk.rxAny) * 2 ^ 23
  BitVec.ofNat 64 (low + ctlCrc low * 2 ^ 48)

/-- A LINKCTL is sent while a received frame is unacknowledged, or in INIT (R391, R392). -/
def execAdkLinkctlTimer (s : State) : Host.Outcome State Fault Refusal :=
  .next (
    if s.adk.state = .init ∨ (s.adk.state = .up ∧ (s.adk.owedAck.isSome ∨ s.adk.nak = true)) then
      { s with adk := { s.adk with linkctlOut := s.linkctlWord, owedAck := none } }
    else s)

/-- ACK_SEQ has not advanced for 10 µs (R392). -/
def execAdkReplayTimeout (s : State) : Host.Outcome State Fault Refusal :=
  .next (if s.adk.state = .up ∧ s.adk.unacked ≠ [] ∧ s.adk.ackAt + 10 * usT ≤ s.now then s.adkReplay else s)

/-- Training ends and the link enters INIT (R392); its lanes first train at boot step 2 (Table 16-2). -/
def execAdkTrainingComplete (s : State) : Host.Outcome State Fault Refusal :=
  .next (
    if (s.adk.state = .down ∨ s.adk.state = .training) ∧ s.mod.state ≠ .off ∧ s.hb.sd0Dead = false
        ∧ (s.mod.state ≠ .boot ∨ 1 ≤ s.mod.bootStep.toNat) then
      { s with adk := { s.adk with state := .init } }
    else s)

/-- A training attempt has lasted 10 ms: another begins (R392). -/
def execAdkTrainingTimeout (s : State) : Host.Outcome State Fault Refusal :=
  .next (if s.adk.state = .training ∧ s.adk.trainAt + 10 * msT ≤ s.now then
    { s with adk := { s.adk with trainAt := s.now } } else s)

/-- The link is lost; the device changes nothing else (R393). -/
def execAdkLinkLoss (s : State) : Host.Outcome State Fault Refusal :=
  .next { s with adk := { s.adk with state := .down } }

/-- Up to 16 waiting event records go out in one EVT frame, as far as the event credit allows (R402). -/
def execEventSend (s : State) : Host.Outcome State Fault Refusal :=
  .next (
    let credit := (s.adk.evInit + s.adk.evCredit - s.adk.evSent).toNat
    let n := min (min 16 credit) (s.evq.queue.length - s.evq.sent)
    if s.adk.state ≠ .up ∨ n = 0 ∨ s.adk.outq ≠ [] ∨ 64 ≤ s.adk.unacked.length then s
    else
      let es := (s.evq.queue.drop s.evq.sent).take n
      ({ s with adk := { s.adk with evSent := s.adk.evSent + BitVec.ofNat 16 n }
                evq := { s.evq with sent := s.evq.sent + n } }).adkSend
        { ty := 0x90, status := 0, tag := 0, addr := 0, len := 4 * n, words := es.flatMap Event.words })

end Sys2Proof.Machine
end

