-- ==== Sys2Proof/Machine/Room.lean ====
section
/-! DEFINITION. Translations removed, KV tier pages dropped, room made for a record and dropped pages restored (chapters 07
and 11). -/

namespace Sys2Proof.Machine

/-! ### Removing translations (R173, R175) -/

/-- Two address ranges overlap. -/
def overlaps (lo hi a b : Nat) : Bool := decide (a < hi) && decide (lo < b)

/-- Requests that were translated with a leaf that overlaps a scope and are not complete (R175). -/
def State.translatedIn (s : State) (t : Option (BitVec 10)) (lo hi : Nat) : List Nat :=
  (s.req.reqs.filter (fun r =>
    (t.isNone || t == some r.frame.tenant) && (match r.page with
      | some n => overlaps lo hi (r.tva.toNat / 2 ^ n * 2 ^ n) ((r.tva.toNat / 2 ^ n + 1) * 2 ^ n)
      | none => false))).map (·.n)

/-- A walk starts again from the tenant's root, its read dropped (R175). -/
def State.restartWalk (s : State) (w : Walk) : State :=
  let s := { s with req := { s.req with reqs := s.req.reqs.filter (fun (r : Req) => r.origin != Origin.walk w.id) } }
  let root := Table.read ({} : Root) s.xl.roots w.tenant.toNat
  if root.valid then s.readEntry { w with level := 3, table := root.root.toNat * 65536, got := none }
  else s.endWalk w (.fail stNoTrans)

/-- Remove every cached translation that overlaps a scope, and start again every walk that may have read an entry which overlaps it: the
entries of its path cover at most what one L3 entry does (R175). -/
def State.purge (s : State) (t : Option (BitVec 10)) (lo hi : Nat) : State :=
  let mine := fun (x : BitVec 10) => t.isNone || t == some x
  let s := { s with xl := { s.xl with
    tlb := Table.mapAll [] (fun _ l => l.filter (fun (e : TlbEntry) => !(mine e.tenant && overlaps lo hi e.tva (e.tva + 2 ^ e.size)))) s.xl.tlb
    walkCache := Table.mapAll [] (fun _ l => l.filter (fun (e : WalkEntry) =>
      !(mine e.tenant && overlaps lo hi (e.key * 2 ^ levelShift e.level) ((e.key + 1) * 2 ^ levelShift e.level)))) s.xl.walkCache } }
  (s.xl.walks.filter (fun (w : Walk) => w.begun && mine w.tenant &&
      overlaps lo hi (w.tva / 2 ^ levelShift 3 * 2 ^ levelShift 3) ((w.tva / 2 ^ levelShift 3 + 1) * 2 ^ levelShift 3))).foldl
    (fun s w => s.restartWalk w) s

/-! ### Reading page tables in place -/

/-- What must happen before an entry can be read or written in place: a block is filled, or the holders of a line give it up. -/
inductive Need where
  | fill (block : Nat)
  | snoop (line : Nat)
  deriving DecidableEq, Repr

/-- Start what is needed: a fill, or SNP.INV to the holders of a line (R105, R151). -/
def State.meet (s : State) (x : Need) : State :=
  match x with
  | .fill b => s.startFill b
  | .snoop line =>
    if s.lineBusy line then s
    else match s.holders (s.dirEntry line) with
      | [] => s.setDir line {}
      | hs => hs.foldl (fun (s : State) a => s.snoop line a 0x50 .entry) s

/-- An 8-byte entry at its home, or what must happen first: an agent that owns its line gives it up, and with `change` every holder does
(R105, R170, R173). -/
def State.peek8 (s : State) (a : Nat) (change : Bool) : Except Need Nat :=
  let line := fpaLine a
  let st := (s.dirEntry line).state
  if (s.extent (fpaExtent a)).coherent && (st == .o || (change && st != .i) || s.lineBusy line) then .error (.snoop line)
  else if s.lineValid line then .ok (field (s.lineBytes line) (a % 64) 8)
  else
    let pg := s.page (pageOfBlock (line / 32))
    if pg.fresh || pg.res == 0 || pg.res == 3 then .ok 0 else .error (.fill (line / 32))

/-- Write an 8-byte entry in place. -/
def State.poke8 (s : State) (a v : Nat) : State :=
  let line := fpaLine a
  (((s.forget line).expanded (line / 32)).placeLines (line / 32) [(line % 32, splice (s.lineBytes line) (a % 64) (leBytes 8 v), false)] true true)

/-- The L0 table of a 2 MiB chunk of a tenant's virtual space, if the walk to it is whole and on this module. -/
def State.chunkTable (s : State) (t : BitVec 10) (tva : Nat) : Except Need (Option Nat) :=
  let root := Table.read ({} : Root) s.xl.roots t.toNat
  let down := fun (table level : Nat) =>
    if fpaModule table ≠ s.moduleNo then (Except.ok none : Except Need (Option Nat))
    else match s.peek8 (table + 8 * (tva / 2 ^ levelShift level % levelEntries level)) false with
      | .error b => .error b
      | .ok e => if e % 4 = 1 then .ok (some (e / 1024 % 2 ^ 46 * 1024)) else .ok none
  if !root.valid then .ok none
  else match down (root.root.toNat * 65536) 3 with
    | .error b => .error b
    | .ok none => .ok none
    | .ok (some t2) => match down t2 2 with
      | .error b => .error b
      | .ok none => .ok none
      | .ok (some t1) => down t1 1

/-- The PAGE leaves of a chunk as entry addresses and values. -/
def State.chunkLeaves (s : State) (table : Nat) : Except Need (List (Nat × Nat)) :=
  (List.range 128).foldl (fun acc i =>
    match acc with
    | .error b => .error b
    | .ok l => match s.peek8 (table + 8 * i) true with
      | .error b => .error b
      | .ok e => if e % 4 = 2 then .ok (l ++ [(table + 8 * i, e)]) else .ok l) (.ok [])

/-! ### Dropping a page (R173) -/

/-- Discard the T0 sectors of a tier page without writing them back. -/
def State.dropPageSectors (s : State) (page : Nat) : State :=
  { s with tier := { s.tier with
      sectors := s.tier.sectors.filter (fun (e : Nat × Sector) => e.1 / 1024 != page)
      mem := s.tier.mem.filter (fun (e : Nat × Byte) => e.1 / 2 ^ 21 != page)
      poison := s.tier.poison.filter (fun (e : Nat × Bool) => e.1 / 32768 != page) } }

/-- A page loses its slot (R173 step 5): RES 0b00, and the slot is released. Its pin stays. -/
def State.bareReleased (s : State) (page : Nat) : State :=
  let p := s.page page
  let s := s.setPage page { p with res := 0, moving := false, fresh := false }
  if p.res = 1 ∨ p.res = 2 then s.releaseSlot page p.tray.toNat p.slot.toNat false else s

/-- A request has been translated to a page and is not complete. -/
def State.pageBusy (s : State) (page : Nat) : Bool :=
  s.req.reqs.any (fun r => fpaPage r.fpa.toNat == page && isMemory r.frame.opcode
    && (match r.stage with | .walking _ => false | .restoring => false | .remote _ => false | _ => true))

/-- Drop a tier page that a chunk maps through the leaves given (R173). -/
def State.dropPage (s : State) (page : Nat) (t : BitVec 10) (tva : Nat) (leaves : List (Nat × Nat)) : State :=
  let s := s.abortMove page
  let s := { s with tier := { s.tier with dropNext := s.tier.dropNext.filter (fun (x : Nat × BitVec 10 × Nat) => x.1 != page) } }
  let s := leaves.foldl (fun s l => s.poke8 l.1 (l.2 + 1)) s
  let s := s.purge (some t) tva (tva + 2 ^ 21)
  (s.dropPageSectors page).bareReleased page

/-! ### Geometry of a sequence (R259, R260) -/

/-- Bytes per token in half a page; 0 for a reserved format. -/
def kvBytes (fmt d : Nat) : Nat :=
  match fmt with
  | 1 => 2 * d | 3 => d | 4 => d | 5 => d + d / 32 | 6 => d + d / 32
  | 7 => 3 * d / 4 + d / 32 | 8 => 3 * d / 4 + d / 32 | 9 => d / 2 + d / 32 | _ => 0

/-- T_P (Table 11-3). -/
def tokPage (fmt d : Nat) : Nat := if kvBytes fmt d = 0 then 0 else 2 ^ Nat.log2 (8192 / kvBytes fmt d)
/-- G ÷ 128. -/
def geoGb (l h : Nat) : Nat := (l * h + 127) / 128
/-- Token blocks of a sequence. -/
def Handle.blocks (x : Handle) : Nat := (x.maxTok + tokPage x.fmt.toNat x.d - 1) / max 1 (tokPage x.fmt.toNat x.d)

/-! ### make_room (R274, R275) -/

/-- A free T2 slot, and room in the record's T2 reservation, counting the demotions under way. -/
def State.t2Room (s : State) (rec : Nat) : Bool :=
  let n := (s.tier.moves.filter (fun m => m.want == 2 && (s.pageExtent m.page).adm.toNat == rec)).length
  decide (n < s.tierFree 2) && decide (s.recPages rec 2 + n < s.recResv rec 2)

/-- A run of make_room: the state, pages freed, and what must happen before it can go on. -/
structure RoomRun where
  s : State
  freed : Nat := 0
  missing : Option Need := none

/-- One chunk of a victim block. -/
def RoomRun.chunk (x : RoomRun) (rec tier : Nat) (demote : Bool) (h : Handle) (c : Nat) : RoomRun :=
  let s := x.s
  let tva := h.base + c * 2 ^ 21
  match s.chunkTable h.tenant tva with
  | .error b => { x with missing := some b }
  | .ok none => x
  | .ok (some table) =>
    match s.chunkLeaves table with
    | .error b => { x with missing := some b }
    | .ok [] => x
    | .ok (l :: ls) =>
      let page := fpaPage (l.2 / 1024 % 2 ^ 46 * 1024)
      let p := s.page page
      let e := s.pageExtent page
      if p.res.toNat = tier ∧ e.adm.toNat = rec ∧ e.kv = true ∧ s.pageBusy page = false then
        if demote && tier == 1 && e.kvT2 && !p.moving && s.t2Room rec then
          { x with s := (s.queueMove { page := page, want := 2, directed := true, forRoom := some (h.tenant, tva) }).countAtn 3, freed := x.freed + 1 }
        else { x with s := (s.dropPage page h.tenant tva (l :: ls)).countAtn 2, freed := x.freed + 1 }
      else x

/-- One token block of a handle, unless it is protected or the need is met. -/
def RoomRun.block (x : RoomRun) (rec tier need : Nat) (demote : Bool) (h : Handle) (b : Nat) : RoomRun :=
  let tp := tokPage h.fmt.toNat h.d
  let gb := geoGb h.l h.h
  let protect := (Table.read {} x.s.atn.pvs h.pv.toNat).protect
  if need ≤ x.freed ∨ x.missing.isSome = true then x
  else if protect ∧ (b * tp < h.sink ∨ h.len < (b + 1) * tp + h.keep) then x
  else (List.range gb).foldl (fun x j => x.chunk rec tier demote h (b * gb + j)) x

/-- Bound handles of a record, by LAST_FT and then by number. -/
def State.roomHandles (s : State) (rec : Nat) : List Handle :=
  ((s.atn.handles.filter (fun e => e.2.state == .bound && e.2.adm.toNat == rec)).mergeSort
    (fun a b => decide (a.2.lastFt < b.2.lastFt) || (a.2.lastFt == b.2.lastFt && decide (a.1 ≤ b.1)))).map (·.2)

/-- make_room for a record (R275). -/
def State.roomRun (s : State) (rec tier need : Nat) (demote : Bool) : RoomRun :=
  (s.roomHandles rec).foldl (fun x h => (List.range h.blocks).foldl (fun x b => x.block rec tier need demote h b) x) { s := s }

/-- The entry of a procedure that dropped or demoted, and its event, at most one for a record in a millisecond (R275). -/
def State.roomLog (s : State) (rec tier pages : Nat) : State :=
  if pages = 0 then s
  else
    let ms := s.now / msT + 1
    let par := rec + pages * 2 ^ 32
    if Table.read 0 s.atn.roomMs rec = ms then s.logE 0x54 tier srcModule par
    else ({ s with atn := { s.atn with roomMs := Table.write 0 s.atn.roomMs rec ms } }).logWith 0x54 tier srcModule par 0x54 tier par

/-- Requests that wait for a restore charged to a record. -/
def State.restoreWaiters (s : State) (rec : Nat) : List Req :=
  s.req.reqs.filter (fun r => r.stage == .restoring && (s.extent (fpaExtent r.fpa.toNat)).adm.toNat == rec)

/-- The first page whose demotion aborted is dropped, once its tables can be read and no request uses it (R275). -/
def State.dropAborted (s : State) : State :=
  match s.tier.dropNext with
  | [] => s
  | (page, t, tva) :: rest =>
    let gone : State := { s with tier := { s.tier with dropNext := rest } }
    match s.chunkTable t tva with
    | .error b => s.meet b
    | .ok none => gone
    | .ok (some table) => match s.chunkLeaves table with
      | .error b => s.meet b
      | .ok ls =>
        if (s.page page).res.toNat ≠ 1 ∨ !(ls.any (fun l => fpaPage (l.2 / 1024 % 2 ^ 46 * 1024) == page)) then gone
        else if s.pageBusy page then s
        else (s.dropPage page t tva ls).countAtn 2

/-- The next make_room procedure runs; its table lines are brought home first (R275). When one for a restore cannot make the room, the
stores that wait for it complete with DENIED (R172). The second value tells of one for an ASSIGN whether it has made the room. -/
def State.makeRoomStep (s : State) : State × Option Bool :=
  if !s.tier.dropNext.isEmpty then (s.dropAborted, none)
  else match s.tier.makeRoom with
    | [] => (s, none)
    | (rec, tier, need, demote) :: rest =>
      let x := s.roomRun rec tier.toNat need demote
      match x.missing with
      | some b => (s.meet b, none)
      | none =>
        let s := ({ x.s with tier := { x.s.tier with makeRoom := rest } }).roomLog rec tier.toNat x.freed
        let ok := decide (need ≤ x.freed)
        if !demote then (s, some ok)
        else if ok then (s, none)
        else ((s.restoreWaiters rec).foldl (fun s r => s.finish r stDenied) s, none)

/-! ### Restoring a page (R172) -/

/-- A T1 slot and reservation are available for one more page of a record. -/
def State.restoreRoom (s : State) (rec : Nat) : Bool :=
  decide (0 < s.tierFree 1) && decide (s.recPages rec 1 + s.movesInto rec 1 < s.recResv rec 1)

/-- The AT.CAS that changes the leaf of a dropped page to PAGE, at the home of the entry (R172 step 3): from the DROPPED entry of the page,
with its ADDR and W 1. The checks on it are those of a table read (R170). -/
def State.leafCas (s : State) (r : Req) (leaf : Nat) : State :=
  let old := r.fpa.toNat / 2 ^ 14 * 2 ^ 14 + 7
  let e := s.extent (fpaExtent leaf)
  let here := fpaModule leaf == s.moduleNo
  let n := s.req.nextN
  let f : Frame := { opcode := 0x23, src := s.selfUnit, dst := pvUnit s.comp.run e.pv.toNat, vc := 2, tenant := r.frame.tenant,
                     epoch := s.comp.epoch, addr := BitVec.ofNat 56 leaf, length := 1, flags := flPhys ||| 1,
                     payload := leBytes 8 old ++ fill 8 0 ++ leBytes 8 (old - 1) ++ fill 40 0 }
  let q : Req := { n := n, origin := .leaf r.n, frame := f, stage := .filling, fpa := BitVec.ofNat 56 leaf, tva := BitVec.ofNat 56 leaf,
                   counted := if here then some (fpaExtent leaf) else none,
                   timer := s.targetTimer 0, backstop := s.targetTimer 0, at_ := s.now }
  if here && (e.state != .active || e.tenant != r.frame.tenant) then s.putReq { r with cas := some (stNoTrans, 0) }
  else if here then (s.addReq q).serve n else (s.addReq q).route n

/-- The leaf becomes PAGE again and the store is performed (R172 steps 3 and 4): the CAS is sent once, and its answer decides. A page of
another module has taken its store already (log 120). -/
def State.restoreLeaf (s : State) (r : Req) (leaf : Nat) : State :=
  match r.cas with
  | some (st, old) =>
    if st ≠ stOk ∨ old % 4 < 2 ∨ old / 1024 ≠ r.fpa.toNat / 2 ^ 14 * 16 then s.finish r (if st = stDead then stDead else stNoTrans)
    else
      let s := s.countTrn 5
      if fpaModule r.fpa.toNat ≠ s.moduleNo then s.finish r stOk
      else (s.putReq { r with leaf := none, stage := .filling }).route r.n
  | none => if s.req.reqs.any (fun x => x.origin == .leaf r.n) then s else s.leafCas r leaf

/-- Room for one page of a record in T1 is asked for, once. -/
def State.askRoom (s : State) (rec : Nat) : State :=
  if s.tier.makeRoom.any (fun x => x.1 == rec && x.2.1 == 1) then s
  else { s with tier := { s.tier with makeRoom := s.tier.makeRoom ++ [(rec, 1, 1, true)] } }

/-- A waiting store restores its dropped page, once there is room for it (R172). -/
def execKvRestore (n : Nat) (s : State) : Host.Outcome State Fault Refusal :=
  .next (match s.findReq n with
    | none => s
    | some r =>
      if r.stage ≠ .restoring ∨ s.alive = false then s
      else
        let page := fpaPage r.fpa.toNat
        let e := s.extent (fpaExtent r.fpa.toNat)
        let go := fun (s : State) => match r.leaf with
          | some leaf => s.restoreLeaf r leaf
          | none => s.serve n
        if fpaModule r.fpa.toNat ≠ s.moduleNo then go s.wakeStaged
        else
          let st := s.extCheck (s.tablesOf r) r.frame (r.origin.asker r.frame) r.fpa.toNat
          if st ≠ stOk then (s.finish r st).wakeStaged
          else if (s.page page).res ≠ 0 then (go s).wakeStaged
          else if s.restoreRoom e.adm.toNat then
            match s.giveSlot page 1 with
            | some s => (go s).wakeStaged
            | none => s
          else s.askRoom e.adm.toNat)

/-- A store has waited for room for the target limit: DENIED, while the work of making room goes on (Table 11-8). -/
def execRestoreRoomTimeout (n : Nat) (s : State) : Host.Outcome State Fault Refusal :=
  .next (match s.findReq n with
    | none => s
    | some r => if r.stage = .restoring ∧ r.at_ + s.targetLimit ≤ s.now then (s.finish r stDenied).wakeStaged else s)

end Sys2Proof.Machine
end

