-- ==== Sys2Proof/Machine/Domain.lean ====
section
/-! DEFINITION. Coherent domains: their states, failures, snoop timers and the COH_ commands (chapter 05). -/

namespace Sys2Proof.Machine

/-- Serve a request again, if it waits for a line or a block. -/
def State.rouse (s : State) (n : Nat) : State :=
  match s.findReq n with | some r => if r.stage.waiting then s.serve n else s | none => s

/-- The snoops of a line have all been answered: what waited goes on. -/
def State.settled (s : State) (x : Snoop) : State :=
  if s.lineBusy x.line then s
  else
    let s := s.wakeLine x.line
    match x.why with | .victim n => s.rouse n | _ => s

/-- Remove snoops and serve again what waits on their lines. -/
def State.dropSnoops (s : State) (p : Snoop → Bool) : State :=
  let gone := s.coh.snoops.filter p
  let s := { s with coh := { s.coh with snoops := s.coh.snoops.filter (fun x => !p x) } }
  gone.foldl (fun s x => s.settled x) s

/-- Requests at their homes for a domain's lines that have not been performed. -/
def State.domWaiters (s : State) (d : Nat) : List Req :=
  s.req.reqs.filter (fun r => r.counted.isSome
    && (match r.stage with | .lineIo => false | .remote _ => false | _ => true)
    && (let e := s.extent (fpaExtent r.fpa.toNat); e.coherent && e.dom.toNat == d)
    && r.frame.opcode != 0x43 && r.frame.opcode != 0x44)

/-- C.WB and C.EVICT that wait in the queue of a line of a domain are served (R123). -/
def State.domReturns (s : State) (d : Nat) : State :=
  s.wake (fun r => r.stage == .snooping && (r.frame.opcode == 0x43 || r.frame.opcode == 0x44)
    && (let e := s.extent (fpaExtent r.fpa.toNat); e.coherent && e.dom.toNat == d))

/-- An UP domain goes down (R123, steps 1 to 3). -/
def State.domainDown (s : State) (d cause : Nat) (agent : Option Nat) : State :=
  let x := s.dom d
  let wEnd := s.now + x.flushMs.toNat * msT
  let s := (s.onDom d (fun x =>
    { x with state := .flush, cause := BitVec.ofNat 4 cause, downFt := s.now, windowEnd := wEnd,
             deadAgent := (match agent with | some a => BitVec.ofNat 8 a | none => x.deadAgent),
             told := x.members.foldl (fun (m : BitVec 256) e => if agent = some e.1 then m else m ||| (1 <<< e.1)) 0 })).domEvent d
  let sent := s.coh.snoops.filter (fun (y : Snoop) => y.dom != d || y.heldTo.isNone)
  let s := { s with coh := { s.coh with snoops := sent.map (fun (y : Snoop) => if y.dom = d then { y with why := .cancelled } else y) } }
  let s := (s.domWaiters d).foldl (fun s r => match s.findReq r.n with | some r => s.finish r stDomDown | none => s) s
  let s := match agent with | some a => s.killAgent d a | none => s
  ((s.domReturns d).domNotes d 1 cause wEnd (fun a => agent != some a)).wakeStaged

/-- A trigger of Table 05-7 (R122): cause and the agent that it makes dead. In DRAIN, which the table does not list, the column of BOOT,
TEST and RECOVERY holds (log 122). -/
def State.domTrigger (s : State) (d cause : Nat) (agent : Option Nat) : State :=
  match (s.dom d).state with
  | .up =>
    if s.mod.state = .service ∨ cause = 1 ∨ cause = 4 then s.domainDown d cause agent
    else match agent with
      | some a =>
        let s := s.onDom d (fun x => { x with cause := BitVec.ofNat 4 cause, deadAgent := BitVec.ofNat 8 a })
        ((s.killAgent d a).dropSnoops (fun y => y.dom == d && y.agent == a)).wakeStaged.domEvent d
      | none => s
  | .flush =>
    let s := s.logE 0x4E cause (srcDom d) 0
    match agent with | some a => s.killAgent d a | none => s
  | .down => s.logE 0x4E cause (srcDom d) 0
  | .off => s

/-- A caching agent's port is dead: its domains are told (R122, cause 0x3). -/
def State.unitDomains (s : State) (u : BitVec 16) : State :=
  (s.coh.doms.filter (fun e => e.2.members.any (fun m => m.2 == u))).foldl
    (fun s e => match s.agentOf e.1 u with | some a => s.domTrigger e.1 3 (some a) | none => s) s

/-- The domain becomes UP: GEN rises and every member is told (R109). -/
def State.domainUp (s : State) (d : Nat) : State :=
  let s := (s.onDom d (fun x => { x with state := .up, enable := true, gen := x.gen + 1 })).domEvent d
  s.domNotes d 3 0 0 (fun _ => true)

/-- A snoop's timer expires: the agent is unresponsive (R121, R122). -/
def execSnoopTimerExpiry (line : BitVec 50) (agent : BitVec 8) (s : State) : Host.Outcome State Fault Refusal :=
  .next (match s.coh.snoops.find? (fun x => x.line == line.toNat && x.agent == agent.toNat && x.heldTo.isNone && x.why != .cancelled) with
    | none => s
    | some x => if s.alive = true ∧ x.timer ≤ s.now then s.domTrigger x.dom 2 (some x.agent) else s)

/-- A cinch ends: the snoop that it held is sent (R120), and requests that waited for its entry may take it (R118). -/
def execCinchExpiry (line : BitVec 50) (agent : BitVec 8) (s : State) : Host.Outcome State Fault Refusal :=
  .next (match s.coh.snoops.find? (fun x => x.line == line.toNat && x.agent == agent.toNat && x.heldTo.isSome) with
    | none => if s.alive then s.wakeStaged else s
    | some x =>
      if s.alive = false ∨ s.now < x.heldTo.getD 0 then s
      else
        let y : Snoop := { x with heldTo := none, timer := s.now + s.targetLimit + 11200 * stagesTo s.comp.run (s.agentUnit x.dom x.agent) }
        ({ s with coh := { s.coh with snoops := s.coh.snoops.map (fun z => if z = x then y else z) } }).fireSnoop y)

/-- The flush window ends: owned lines are poisoned, every entry is I, the domain is DOWN (R123, steps 5 and 6). -/
def execFlushWindowEnd (dom : BitVec 6) (s : State) : Host.Outcome State Fault Refusal :=
  .next (
    let d := dom.toNat
    let x := s.dom d
    if x.state ≠ .flush ∨ s.alive = false ∨ s.now < x.windowEnd then s
    else
      let owned := s.coh.dir.filter (fun e => e.2.dom.toNat == d && e.2.state == .o)
      let s := owned.foldl (fun s e => (s.poisonLine e.1).countCoh d 3) s
      let s := { s with coh := { s.coh with
        dir := s.coh.dir.filter (fun (e : Nat × DirEntry) => e.2.dom.toNat != d)
        snoops := s.coh.snoops.filter (fun (y : Snoop) => y.dom != d) } }
      let s := s.onDom d (fun x => { x with state := .down })
      ((s.domNotes d 2 x.cause.toNat 0 (fun a => x.told.getLsbD a)).domEvent d).wakeStaged)

/-! ### COH_ registers (R126) -/

/-- Address of a register of a domain's COH_ page. -/
def cohAddr (d off : Nat) : Nat := maddr 4 d 1 off

/-- A write of COH_DOM_CFG. One that carries ENABLE 0 while the domain is OFF leaves ENABLE as it is, so it is accepted (log 121); one that
carries the tenant held is no write of TENANT (log 67). -/
def State.cohCfg (s : State) (d : Nat) (v : BitVec 64) : State × BitVec 6 :=
  let n := v.toNat
  let x := s.dom d
  let tenant := BitVec.ofNat 10 (bits n 41 32)
  let flush := bits n 31 24
  let cinch := bits n 22 16
  let en := bit n 0
  if flush = 0 ∨ 100 < flush ∨ cinch = 0 ∨ 64 < cinch then (s, stDenied)
  else if x.state ≠ .off ∧ tenant ≠ x.tenant then (s, stDenied)
  else if tenant ≠ x.tenant ∧ (s.tenant tenant.toNat).state ≠ .active then (s, stDenied)
  else if en = false ∧ x.enable = true ∧ x.state ≠ .down then (s, stDenied)
  else
    let s := s.onDom d (fun x => { x with tenant := tenant, flushMs := BitVec.ofNat 8 flush, cinch := BitVec.ofNat 7 cinch, eGrant := bit n 1 })
    if x.state = .off ∧ en = true then (s.domainUp d, stOk)
    else if x.state = .down ∧ en = false then ((s.onDom d (fun x => { x with state := .off, enable := false })).domEvent d, stOk)
    else (s, stOk)

/-- A write of COH_DOM_CMD: a command that does not fit the state has no effect, and DOWN in FLUSH or DOWN is logged (R122). -/
def State.cohCmd (s : State) (d : Nat) (v : BitVec 64) : State × BitVec 6 :=
  let s := if v.getLsbD 1 then s.domTrigger d 4 none else s
  if v.getLsbD 0 && (s.dom d).state == .down then (s.domainUp d, stOk) else (s, stOk)

/-- A write of COH_MEMBERj. -/
def State.cohMembers (s : State) (d j : Nat) (v : BitVec 64) : State × BitVec 6 :=
  let x := s.dom d
  let old := fun k => Table.read (0xFFFF : BitVec 16) x.members (4 * j + k)
  let new := fun k => BitVec.ofNat 16 (v.toNat / 2 ^ (16 * k))
  let table := (List.range 4).foldl (fun t k => Table.write 0xFFFF t (4 * j + k) (new k)) x.members
  let changes := (List.range 4).any (fun k => old k != 0xFFFF && new k != old k)
  if (changes && (x.state == .up || x.state == .flush)) || !decide ((table.map (·.2)).Nodup) then (s, stDenied)
  else
    let s := s.onDom d (fun x => { x with members := table })
    if x.state = .up then
      (((List.range 4).filter (fun k => old k == 0xFFFF && new k != 0xFFFF)).foldl (fun s k => s.domNote d (4 * j + k) 3 0 0) s, stOk)
    else (s, stOk)

/-- COH_DOM_CFG with ENABLE 1 (R109). -/
def execCohDomEnable (tag : BitVec 16) (dom : BitVec 6) (value : BitVec 64) (s : State) : Host.Outcome State Fault Refusal :=
  .next (s.adkWr tag (cohAddr dom.toNat 0) (value ||| 1) .operator (fun s => s.cohCfg dom.toNat (value ||| 1)))

/-- COH_DOM_CFG with ENABLE 0 (R109). -/
def execCohDomDisable (tag : BitVec 16) (dom : BitVec 6) (value : BitVec 64) (s : State) : Host.Outcome State Fault Refusal :=
  .next (s.adkWr tag (cohAddr dom.toNat 0) (value &&& ~~~1#64) .operator (fun s => s.cohCfg dom.toNat (value &&& ~~~1#64)))

/-- COH_DOM_CMD.DOWN (R122). -/
def execCohDomDown (tag : BitVec 16) (dom : BitVec 6) (s : State) : Host.Outcome State Fault Refusal :=
  .next (s.adkWr tag (cohAddr dom.toNat 0x10) 2 .operator (fun s => s.cohCmd dom.toNat 2))

/-- COH_DOM_CMD.REFORM (R109). -/
def execCohDomReform (tag : BitVec 16) (dom : BitVec 6) (s : State) : Host.Outcome State Fault Refusal :=
  .next (s.adkWr tag (cohAddr dom.toNat 0x10) 1 .operator (fun s => s.cohCmd dom.toNat 1))

/-- A write of member entries 4j to 4j + 3 (R109, R126). -/
def execCohMemberWrite (tag : BitVec 16) (dom j : BitVec 6) (value : BitVec 64) (s : State) : Host.Outcome State Fault Refusal :=
  .next (s.adkWr tag (cohAddr dom.toNat (0x100 + 8 * j.toNat)) value .operator (fun s => s.cohMembers dom.toNat j.toNat value))

end Sys2Proof.Machine
end

