-- ==== Sys2Proof/Machine/Collect.lean ====
section
/-! DEFINITION. The operations of a collective generation: descriptors, chunks, windows, accumulation and results
(chapter 10). -/

namespace Sys2Proof.Machine

/-- Bytes rounded up to whole units. -/
def pad64 (n : Nat) : Nat := (n + 63) / 64 * 64
/-- Bytes padded with zeros to whole units. -/
def padBytes (bs : List Byte) : List Byte := bs ++ fill (pad64 bs.length - bs.length) 0

/-! ### Descriptors (R231, R232, Table 10-4) -/

/-- The collective descriptor (Table 10-2). -/
structure Desc where
  op : Nat
  red : Nat
  dtype : Nat
  out : Nat
  flags : Nat
  root : Nat
  k : Nat
  count : Nat
  row : Nat
  tokens : Nat
  cmp : Nat
  link : Nat
  lo : Nat
  hi : Nat
  seed : Nat
  deadline : Nat
  tva : Nat
  deriving DecidableEq, Repr

/-- Read a descriptor. -/
def Desc.of (b : List Byte) : Desc :=
  { op := field b 0 1, red := field b 1 1, dtype := field b 2 1, out := field b 3 1, flags := field b 4 1, root := field b 5 1,
    k := field b 6 2, count := field b 8 4, row := field b 12 4, tokens := field b 16 4, cmp := field b 20 1, link := field b 21 3,
    lo := field b 24 4, hi := field b 28 4, seed := field b 32 4, deadline := field b 40 8, tva := field b 48 8 }

def Desc.sat (d : Desc) : Bool := bit d.flags 0
def Desc.sr (d : Desc) : Bool := bit d.flags 1
def Desc.timed (d : Desc) : Bool := bit d.flags 2
def Desc.isGated (d : Desc) : Bool := bit d.flags 3
def Desc.cbfIn (d : Desc) : Bool := bit d.flags 4
def Desc.cbfOut (d : Desc) : Bool := bit d.flags 5
def Desc.resPool (d : Desc) : Bool := bit d.flags 6
def Desc.allRes (d : Desc) : Bool := bit d.flags 7
/-- E of Table 10-4. -/
def Desc.e (d : Desc) : Nat := elemBits d.dtype / 8
def Desc.reducing (d : Desc) : Bool := 1 ≤ d.op && d.op ≤ 3
def Desc.filter (d : Desc) : Bool := d.op == 0x20 || d.op == 0x21
/-- DISPATCH or COMBINE. -/
def Desc.rows (d : Desc) : Bool := d.op == 0x10 || d.op == 0x11
/-- A chunk covers the same offsets of every member (R239). -/
def Desc.shared (d : Desc) : Bool := d.reducing || d.filter
/-- Width of an accumulator: FP32, or 64 bits for an integer (R245). -/
def Desc.accW (d : Desc) : Nat := if isIntFmt d.dtype then 8 else 4
/-- Elements of a chunk of 64 KiB. -/
def Desc.chunkElems (d : Desc) : Nat := 65536 / max 1 d.e
/-- Result bytes of `m` reduced elements of one chunk (R235). -/
def Desc.chunkOut (d : Desc) (m : Nat) : Nat := pad64 (packedBytes d.out m + (if isMx d.out then m / 32 else 0))
/-- Result bytes of `m` reduced elements. -/
def Desc.redOut (d : Desc) (m : Nat) : Nat :=
  m / max 1 d.chunkElems * d.chunkOut d.chunkElems + d.chunkOut (m % max 1 d.chunkElems)
/-- ROUTE_BYTES, WEIGHT_BYTES and CNT_BYTES (R236, R237). -/
def Desc.routeBytes (d : Desc) (tok : Nat) : Nat := pad64 (2 * d.k * tok)
def Desc.weightBytes (d : Desc) (tok : Nat) : Nat := pad64 (4 * d.k * tok)
def cntBytes (n : Nat) : Nat := pad64 (4 * n)
/-- Bytes of a COMBINE result row; an MX row carries its scales and fills whole units. -/
def Desc.rowOut (d : Desc) : Nat :=
  let m := d.row / max 1 d.e
  if isMx d.out then pad64 (packedBytes d.out m + m / 32) else packedBytes d.out m

/-- Bytes that rank `r` contributes (Table 10-4), with its tokens and the rows that it received as an expert. -/
def Desc.contrib (d : Desc) (n r tok rows : Nat) : Nat :=
  match d.op with
  | 5 => if r = d.root then d.count * d.e else 0
  | 6 => n * d.count * d.e
  | 0x10 => d.routeBytes tok + tok * d.row
  | 0x11 => d.weightBytes tok + rows * d.row
  | _ => d.count * d.e

/-- Ranks that receive results (Table 10-4, R238). -/
def Desc.receives (d : Desc) (r : Nat) : Bool :=
  if d.resPool then false
  else match d.op with
    | 3 => r == d.root
    | 5 => r != d.root
    | 0x20 | 0x21 => d.allRes || r == d.root
    | _ => true

/-- Result bytes of a rank that receives results; for FILTER_PRED the most that it can receive. -/
def Desc.result (d : Desc) (n tok rows : Nat) : Nat :=
  match d.op with
  | 1 => d.redOut d.count
  | 2 => d.redOut (d.count / max 1 n)
  | 3 => d.redOut d.count
  | 4 => n * d.count * d.e
  | 5 => d.count * d.e
  | 6 => n * d.count * d.e
  | 0x10 => cntBytes n + rows * d.row
  | 0x11 => pad64 (tok * d.rowOut)
  | 0x20 => 64 + 16 * n * d.count
  | _ => 16 * d.k + 64

/-- A descriptor is valid for a group of `n` (R232), for a contributor that received at most `rows` expert rows in the linked
DISPATCH. The rows that a DISPATCH itself will deliver are not known when it opens (log 123). -/
def descOk (n rows : Nat) (b : List Byte) : Bool :=
  let d := Desc.of b
  let opOk := [1, 2, 3, 4, 5, 6, 0x10, 0x11, 0x20, 0x21].contains d.op
  let redOk := if d.reducing then decide (d.red ≤ 3) else d.red == 0
  let typeOk := [0, 1, 2, 3, 4, 10, 11].contains d.dtype && decide (d.out ≤ 11)
    && (if d.op == 4 || d.op == 5 || d.op == 6 || d.op == 0x10 then d.out == d.dtype else true)
    && (if d.filter then [0, 1, 10, 11].contains d.dtype else true)
    && isIntFmt d.dtype == isIntFmt d.out
    && !(d.sat && !isIntFmt d.out) && !(d.sr && !takesSr d.out)
    && (d.op != 0x20 || decide (d.cmp ≤ 6))
  let zeros := field b 36 4 == 0 && field b 56 8 == 0
  let countOk := d.count * d.e % 64 == 0 && (d.rows || d.count != 0)
    && (!isMx d.out || d.count % 32 == 0) && (d.op != 2 || d.count % n == 0)
    && !(d.op == 2 && isMx d.out && d.count / n % d.chunkElems != 0)
  let kOk := if d.rows then decide (1 ≤ d.k) && decide (d.k ≤ 8)
             else if d.op == 0x21 then decide (1 ≤ d.k) && decide (d.k ≤ 1024) else d.k == 0
  let rowOk := if d.rows then d.row % 64 == 0 && decide (64 ≤ d.row) && decide (d.row ≤ 65536) else d.row == 0
  let sizeOk := decide (d.contrib n d.root d.tokens rows ≤ 2 ^ 34) && decide (d.result n d.tokens 0 ≤ 2 ^ 34)
  opOk && redOk && typeOk && zeros && countOk && decide (d.root < n) && kOk && rowOk
    && !(d.resPool && !([1, 3, 4, 5].contains d.op)) && sizeOk

/-- The bytes of a descriptor that every member's must share (R233). -/
def descKey (b : List Byte) : List Byte := b.take 16 ++ (b.drop 20 |>.take 28) ++ b.drop 56

/-! ### Contributors (R228, R239, R248) -/

def Coll.d (c : Coll) : Desc := Desc.of c.desc
/-- N. -/
def State.collN (s : State) (id : Nat) : Nat := (s.collGroup id).size.toNat
def State.memberOf (s : State) (id r : Nat) : Member := Table.read {} (s.collGroup id).members r

/-- Ranks whose unit lies behind an S port. -/
def State.ranksBehind (s : State) (id p : Nat) : List Nat :=
  (List.range (s.collN id)).filter (fun r =>
    match unitOf s.comp.run (s.memberOf id r).unit with
    | .away q _ => s.base q == s.base p
    | _ => false)

/-- Ranks that take part on this module itself. -/
def State.localRanks (s : State) (id : Nat) : List Nat :=
  if (s.coll id).role = 0 then List.range (s.collN id)
  else (List.range (s.collN id)).filter (fun r =>
    match unitOf s.comp.run (s.memberOf id r).unit with
    | .port _ => true
    | .pavilion _ => true
    | _ => false)

/-- Ranks of a contributor: a member's own, or those behind a child module. -/
def State.ranksOf (s : State) (id who : Nat) : List Nat :=
  if who < 256 then [who]
  else match (s.coll id).children.find? (fun x => 256 + x.1 == who) with
    | some x => s.ranksBehind id x.2
    | none => []

/-- Contributors of a generation on this module. -/
def State.contributors (s : State) (id : Nat) : List Nat :=
  s.localRanks id ++ (s.coll id).children.map (fun x => 256 + x.1)
/-- Ranks on this module and behind its children, ascending. -/
def State.ranksHere (s : State) (id : Nat) : List Nat :=
  (List.range (s.collN id)).filter (fun r => (s.contributors id).any (fun w => (s.ranksOf id w).contains r))

/-- The contribution record of a contributor. -/
def Coll.part (c : Coll) (who : Nat) : Option Contributor := c.parts.find? (fun p => p.who == who)
/-- Every contributor has joined. -/
def State.allJoined (s : State) (id : Nat) : Bool := (s.contributors id).all (fun w => ((s.coll id).part w).isSome)

/-- TOKENS of a rank: of its own descriptor; behind a child module, of the descriptor that the child sent where the rank is its only
one, of the DISPATCH that a COMBINE names, or a free value (log 71). -/
def State.tokensOf (s : State) (id r : Nat) : Nat :=
  let c := s.coll id
  match c.part r with
  | some p => p.tokens
  | none => match c.parts.find? (fun p => decide (256 ≤ p.who) && (s.ranksOf id p.who).contains r) with
    | some p =>
      if (s.ranksOf id p.who).length = 1 then p.tokens
      else if c.d.op = 0x11 then Table.read 0 (s.coll (c.d.link % 4096)).routeTok r
      else if c.d.op = 0x10 then Config.tokensBehind id c.gen.toNat r
      else 0
    | none => 0

/-- Rows that a rank received in a DISPATCH: from its route state, or from the count units passed on. -/
def State.rowsTo (s : State) (disp n row r : Nat) : Nat :=
  let c := s.coll disp
  if c.hasParent then (Table.read 0 c.resWant r - cntBytes n) / max 1 row else (c.route.filter (fun x => x.expert == r)).length

/-- The DISPATCH of a COMBINE's LINK. -/
def Desc.linkId (d : Desc) : Nat := d.link % 4096
/-- Its route state is held (R237). -/
def State.linkHeld (s : State) (id : Nat) (d : Desc) : Bool :=
  d.linkId != id && (s.coll d.linkId).routeGen == some (BitVec.ofNat 12 (d.link / 4096))

/-- The most expert rows that a rank of a contributor received in the DISPATCH of a COMBINE. -/
def State.linkRows (s : State) (id who : Nat) (d : Desc) : Nat :=
  if d.op = 0x11 then ((s.ranksOf id who).map (s.rowsTo d.linkId (s.collN id) d.row)).foldl max 0 else 0

/-- Bytes that a rank contributes. -/
def State.rankTotal (s : State) (id r : Nat) : Nat :=
  let d := (s.coll id).d
  d.contrib (s.collN id) r (s.tokensOf id r) (if d.op = 0x11 then s.rowsTo d.linkId (s.collN id) d.row r else 0)

/-- Runs of bytes, as rank, offset and length, in the order in which a module sends the contributions of its ranks to its parent
(log 20): chunk by chunk for a filter, route tables first for a DISPATCH, else rank by rank. -/
def State.segs (s : State) (id : Nat) (ranks : List Nat) : List (Nat × Nat × Nat) :=
  let d := (s.coll id).d
  let t := d.count * d.e
  if d.filter then
    (List.range ((t + 65535) / 65536)).flatMap (fun k => ranks.map (fun r => (r, 65536 * k, min 65536 (t - 65536 * k))))
  else if d.op = 0x10 then
    ranks.map (fun r => (r, 0, d.routeBytes (s.tokensOf id r)))
      ++ ranks.map (fun r => let b := d.routeBytes (s.tokensOf id r); (r, b, s.rankTotal id r - b))
  else ranks.map (fun r => (r, 0, s.rankTotal id r))

/-- The run that holds an offset: rank, offset in its contribution, and bytes left in the run. -/
def segAt : List (Nat × Nat × Nat) → Nat → Option (Nat × Nat × Nat)
  | [], _ => none
  | (r, o, n) :: t, x => if x < n then some (r, o + x, n - x) else segAt t (x - n)

/-- Bytes that a contributor contributes. -/
def State.whoTotal (s : State) (id who : Nat) : Nat :=
  let d := (s.coll id).d
  if who < 256 then s.rankTotal id who
  else if d.reducing then d.count * d.accW
  else ((s.ranksOf id who).map (s.rankTotal id)).sum

/-! ### Windows and grants (R239, R240) -/

/-- Units of 64 KiB per open chunk (Table 10-5). -/
def Desc.units (d : Desc) : Nat :=
  let red := match d.dtype with | 0 => 1 | 3 => 4 | 4 => 4 | 10 => 8 | _ => 2
  if d.reducing then red
  else match d.op with | 0x11 => 1 + red | 0x20 => 2 | _ => 1

/-- Slot units of the route state that an ID holds (R236). -/
def Coll.routeUnits (c : Coll) : Nat :=
  if c.routeGen.isSome then (8 * c.routeK * (c.routeTok.map (·.2)).sum + 65535) / 65536 else 0

/-- W. -/
def State.window (s : State) (id : Nat) : Nat :=
  let c := s.coll id
  let d := c.d
  let slots := c.slots.toNat - c.routeUnits - (if d.op = 0x21 then 1 else 0)
  let w := slots / d.units
  if d.shared then w else w / max 1 (if d.op = 5 then 1 else (s.contributors id).length)

/-- Key of a chunk: 0 for the contributor of a shared chunk. -/
def chunkKey (who k : Nat) : Nat := who * 2 ^ 18 + k

/-- Chunks of a contributor whose slots are free again. -/
def Coll.freedChunks (c : Coll) (who : Nat) : List Nat :=
  (c.done.filter (fun e => e.1 / 2 ^ 18 == who && !c.unfreed.contains e.1)).map (fun e => e.1 % 2 ^ 18)

/-- Bytes of a rank that have gone to the parent in a run of the contribution sent up. -/
def sentOf (r : Nat) : List (Nat × Nat × Nat) → Nat → Nat
  | [], _ => 0
  | (q, _, n) :: t, x => (if q = r then min n x else 0) + sentOf r t (x - n)

/-- Bytes of a rank whose slots are free again: chunk by chunk, or, in a module with a parent, as they were sent up. -/
def State.freedBytes (s : State) (id r : Nat) : Nat :=
  let c := s.coll id
  if c.hasParent then sentOf r (s.segs id (s.ranksHere id)) c.upSent
  else ((c.freedChunks r).map (fun k => min 65536 (s.rankTotal id r - 65536 * k))).sum

/-- GRANT_END of a contributor now. -/
def State.grantEnd (s : State) (id who : Nat) : Nat :=
  let c := s.coll id
  let d := c.d
  let t := s.whoTotal id who
  let w := s.window id
  let ranks := s.ranksOf id who
  if d.shared then
    let freed := if c.hasParent && d.filter then c.upSent / (65536 * max 1 (s.ranksHere id).length) else (c.freedChunks 0).length
    let g := w + freed
    min t (if who < 256 then 65536 * g else if d.reducing then g * d.chunkElems * d.accW else 65536 * g * ranks.length)
  else
    let e := 65536 * w + (ranks.map (s.freedBytes id)).sum
    let cap := if d.op = 0x10 && !c.routed then (ranks.map (fun r => d.routeBytes (s.tokensOf id r))).sum else t
    min t (min cap e)

/-- The frame that carries a payload of a generation to a contributor. -/
def State.partFrame (s : State) (id : Nat) (p : Contributor) (op : BitVec 8) (vc : BitVec 3) (addr : Nat) (pl : List Byte) : Frame :=
  { opcode := op, dst := p.frame.src, src := p.frame.dst, vc := vc, tenant := p.frame.tenant, epoch := s.comp.epoch,
    addr := BitVec.ofNat 56 addr, length := BitVec.ofNat 7 (pl.length / 64), tag := p.frame.tag,
    handle := collHandle id (s.coll id).gen, payload := pl }

/-- Member area of a core member (R221). -/
def Contributor.area (p : Contributor) : Option (Nat × Nat) :=
  match p.origin with | .thread k _ (.opened a) => some (k, a) | _ => none

/-- Send a COLL.GRANT, or write it into a core's member area (R221, R240). -/
def State.sendGrant (s : State) (id : Nat) (p : Contributor) (e : Nat) : State :=
  let t := s.whoTotal id p.who
  let s := s.onColl id (fun c => { c with parts := c.parts.map (fun (q : Contributor) =>
    if q.who = p.who then { q with granted := e, total := t } else q) })
  match p.area with
  | some (k, a) =>
    let s := s.localWrite k (a + 0x28) (leBytes 8 e ++ leBytes 8 t)
    s.localWrite k (a + 0x38) (leBytes 8 (s.localNat k (a + 0x38) 8 + 1))
  | none =>
    let pl := leBytes 2 (if p.who < 256 then p.who else 0xFFFF) ++ leBytes 2 (s.collN id) ++ fill 4 0 ++ leBytes 8 e ++ leBytes 8 t ++ fill 40 0
    s.toPart id p (s.coll id).queue { frame := s.partFrame id p 0x79 5 0 pl }

/-- Advance every grant that may advance. -/
def State.advanceGrants (s : State) (id : Nat) : State :=
  (s.coll id).parts.foldl (fun s p =>
    let e := s.grantEnd id p.who
    if p.granted < e then s.sendGrant id p e else s) s

/-! ### Results (R242, R246) -/

/-- CBF element type of a format (R247). -/
def cbfElem (fmt : Nat) : Option (BitVec 4) :=
  match fmt with
  | 0 => some 0 | 1 => some 1 | 2 => some 2 | 3 => some 3 | 4 => some 4 | 10 => some 8 | 11 => some 10
  | x => if isMx x then some 8 else none

/-- Result bytes to one contributor, at a result offset, with the chunk that they come from. -/
def State.resultTo (s : State) (id : Nat) (p : Contributor) (dst : Option (BitVec 16)) (off : Nat) (pl : List Byte) (who k : Nat) : State :=
  let c := s.coll id
  match p.area with
  | some (core, a) => s.localWrite core (a + 0x40 + off) pl
  | none =>
    let f := s.partFrame id p 0x71 4 off pl
    s.toPart id p c.queue { frame := { f with dst := dst.getD f.dst }, elem := if c.d.cbfOut then cbfElem c.d.out else none,
                            chunk := some (id, c.gen.toNat, who, k) }

/-- COLL.RESULT frames to ranks: one copy to a child module when all ranks receive the same, else one to each rank's unit. -/
def State.sendResult (s : State) (id : Nat) (ranks : List Nat) (multi : Bool) (off : Nat) (bs : List Byte) (who k : Nat) : State :=
  if bs.isEmpty then s
  else
    let ps := (chunks 4096 ((bs.length + 4095) / 4096) bs).zipIdx.map (fun x => (off + 4096 * x.2, padBytes x.1))
    (s.coll id).parts.foldl (fun s p =>
      let mine := (s.ranksOf id p.who).filter ranks.contains
      if mine.isEmpty then s
      else if p.who < 256 || multi then ps.foldl (fun s x => s.resultTo id p none x.1 x.2 who k) s
      else mine.foldl (fun s r => ps.foldl (fun s x => s.resultTo id p (some (s.memberOf id r).unit) x.1 x.2 who k) s) s) s

/-- x / n rounded to nearest even in FP32 (R245). -/
def divN (x : Num) (n : Nat) : Num :=
  match x with
  | .fin neg m e =>
    let q := m * 2 ^ 64 / n
    to32 (.fin neg (2 * q + b2n (m * 2 ^ 64 % n != 0)) (e - 65))
  | y => y

/-- An integer result in `w` bits: saturated under SAT, else wrapped (R246). -/
def intOut (sat : Bool) (w : Nat) (v : Int) : Nat := wrap w (if sat then clampInt w v else v)

/-- The accumulated value of an element, divided for AVG. -/
def accInt (c : Coll) (n i : Nat) : Int :=
  let v := (Table.read 0 c.acc i).toInt
  if c.d.red = 3 then v.tdiv n else v
def accNum (c : Coll) (n i : Nat) : Num :=
  let v := decodeFp fp32 (Table.read 0 c.acc i).toNat
  if c.d.red = 3 then divN v n else v

/-- Reduced elements lo to hi - 1 in OUT (R246). -/
def redRange (c : Coll) (n lo hi : Nat) : List Byte :=
  let d := c.d
  let idx := (List.range (hi - lo)).map (lo + ·)
  if isIntFmt d.out then idx.flatMap (fun i => leBytes (elemBits d.out / 8) (intOut d.sat (elemBits d.out) (accInt c n i)))
  else
    let r := convertAll d.out (if d.sr then some d.seed else none) false lo (idx.map (accNum c n))
    r.1 ++ r.2

/-- Chunks of a reducing operation that hold elements lo to hi - 1 have all closed. -/
def redDone (c : Coll) (lo hi : Nat) : Bool :=
  (List.range ((hi - 1) / c.d.chunkElems + 1 - lo / c.d.chunkElems)).all (fun j =>
    Table.read false c.done (chunkKey 0 (lo / c.d.chunkElems + j)))

/-- Results of a closed chunk of a REDUCE_SCATTER to one rank: the units whose elements have all closed. -/
def State.scatterTo (s : State) (id r k : Nat) : State :=
  let c := s.coll id
  let d := c.d
  let n := s.collN id
  let a := r * (d.count / n)
  let b := a + d.count / n
  let lo := max a (k * d.chunkElems)
  let hi := min b (min d.count ((k + 1) * d.chunkElems))
  if hi ≤ lo then s
  else if isMx d.out then s.sendResult id [r] false ((k - a / d.chunkElems) * d.chunkOut d.chunkElems) (redRange c n lo hi) 0 k
  else
    let per := 64 / (elemBits d.out / 8)
    let us := ((List.range ((hi - 1 - a) / per + 1 - (lo - a) / per)).map ((lo - a) / per + ·)).filter (fun u =>
      redDone c (a + u * per) (min b (a + (u + 1) * per)))
    match us.head?, us.getLast? with
    | some u0, some u1 => s.sendResult id [r] false (64 * u0) (redRange c n (a + u0 * per) (min b (a + (u1 + 1) * per))) 0 k
    | _, _ => s

/-- Staged contribution bytes of a rank. -/
def Coll.staged (c : Coll) (r off n : Nat) : List Byte := c.data.bytes (r * 2 ^ 34 + off) n

/-- Bytes of a rank's chunk. -/
def State.chunkBytes (s : State) (id r k : Nat) : List Byte :=
  (s.coll id).staged r (65536 * k) (min 65536 (s.rankTotal id r - 65536 * k))

/-- The pieces of a chunk of ALL_TO_ALL or DISPATCH rows: the runs that meet no boundary of `size` counted from `base`. -/
def piecesOf (base size : Nat) : Nat → Nat → Nat → List (Nat × Nat)
  | 0, _, _ => []
  | f + 1, o, e => if e ≤ o then [] else
      let stop := min e (base + ((o - base) / size + 1) * size)
      (o, stop - o) :: piecesOf base size f stop e

/-- Results of a closed chunk of an operation whose chunks belong to one member (R235, R236). -/
def State.memberChunk (s : State) (id r k : Nat) : State :=
  let c := s.coll id
  let d := c.d
  let n := s.collN id
  let all := (List.range n).filter d.receives
  let o := 65536 * k
  let e := min (o + 65536) (s.rankTotal id r)
  match d.op with
  | 4 => s.sendResult id all true (r * d.count * d.e + o) (s.chunkBytes id r k) r k
  | 5 => s.sendResult id all true o (s.chunkBytes id r k) r k
  | 6 =>
    let b := d.count * d.e
    (piecesOf 0 b 65536 o e).foldl (fun s x =>
      s.sendResult id [x.1 / b] false (r * b + x.1 % b) (c.staged r x.1 x.2) r k) s
  | 0x10 =>
    let rb := d.routeBytes (s.tokensOf id r)
    (piecesOf rb d.row 65536 (max o rb) e).foldl (fun s x =>
      let t := (x.1 - rb) / d.row
      (c.route.filter (fun y => y.src == r && y.token == t)).foldl (fun s y =>
        s.sendResult id [y.expert] false (cntBytes n + y.row * d.row + (x.1 - rb) % d.row) (c.staged r x.1 x.2) r k) s) s
  | _ => s

/-! ### Delivery of bytes -/

/-- Units of a contributor's bytes lo to hi - 1 have all arrived. -/
def Coll.arrived (c : Coll) (who lo hi : Nat) : Bool :=
  (List.range ((hi + 63) / 64 - lo / 64)).all (fun u => Table.read false c.got (who * 2 ^ 28 + lo / 64 + u))

/-- A chunk has been delivered, so that it may close (R239). -/
def State.delivered (s : State) (id who k : Nat) : Bool :=
  let c := s.coll id
  let d := c.d
  if d.shared then
    let ws := if d.reducing then s.contributors id else s.ranksHere id
    ws.all (fun w =>
      if w < 256 then c.arrived w (65536 * k) (min (65536 * (k + 1)) (s.rankTotal id w))
      else c.arrived w (k * d.chunkElems * d.accW) (min ((k + 1) * d.chunkElems) d.count * d.accW))
  else c.arrived who (65536 * k) (min (65536 * (k + 1)) (s.rankTotal id who))

/-- Every chunk of the generation at a root or single module: contributor and number. -/
def State.allChunks (s : State) (id : Nat) : List (Nat × Nat) :=
  let d := (s.coll id).d
  if d.shared then (List.range ((d.count * d.e + 65535) / 65536)).map (fun k => (0, k))
  else (s.ranksHere id).flatMap (fun r => (List.range ((s.rankTotal id r + 65535) / 65536)).map (fun k => (r, k)))

/-- Add one element to its accumulator (R245). -/
def accAdd (c : Coll) (i : Nat) (v : BitVec 64) : Coll :=
  let old := Table.read 0 c.acc i
  let new : BitVec 64 :=
    if !Table.read false c.accHas i then v
    else if isIntFmt c.d.dtype then
      match c.d.red with
      | 1 => if v.toInt < old.toInt then v else old
      | 2 => if old.toInt < v.toInt then v else old
      | _ => old + v
    else BitVec.ofNat 64 (match c.d.red with
      | 1 => min32 old.toNat v.toNat
      | 2 => max32 old.toNat v.toNat
      | _ => add32 old.toNat v.toNat)
  { c with acc := Table.write 0 c.acc i new, accHas := Table.write false c.accHas i true }

/-- Accumulator contents of an element of a contribution, converted exactly (R245). -/
def accIn (dtype x : Nat) : BitVec 64 :=
  if isIntFmt dtype then BitVec.ofInt 64 (sint (elemBits dtype) x) else BitVec.ofNat 64 (enc32 (elemValue dtype x))

/-- Accept plain contribution bytes of a contributor: into the accumulators, or staged under their rank (R239, R245, R248). -/
def State.absorb (s : State) (id who off : Nat) (bs : List Byte) : State :=
  let c := s.coll id
  let d := c.d
  let mark := fun (c : Coll) (w o n : Nat) => { c with got := (List.range (n / 64)).foldl (fun (t : Table Bool) u =>
    Table.write false t (w * 2 ^ 28 + o / 64 + u) true) c.got }
  if d.reducing then
    let w := if who < 256 then d.e else d.accW
    let vs := (chunks w (bs.length / w) bs).map leNat
    let c := vs.zipIdx.foldl (fun c x => accAdd c (off / w + x.2) (if who < 256 then accIn d.dtype x.1 else BitVec.ofNat 64 x.1)) c
    s.setColl id (mark c who off bs.length)
  else if who < 256 then
    s.setColl id (mark { c with data := c.data.write (who * 2 ^ 34 + off) bs } who off bs.length)
  else
    let sg := s.segs id (s.ranksOf id who)
    (chunks 64 (bs.length / 64) bs).zipIdx.foldl (fun s x =>
      match segAt sg (off + 64 * x.2) with
      | none => s
      | some (r, o, _) => s.onColl id (fun c => mark { c with data := c.data.write (r * 2 ^ 34 + o) x.1 } r o 64)) s

end Sys2Proof.Machine
end

