-- ==== Sys2Proof/Machine/Collectives.lean ====
section
/-! DEFINITION. The life of a collective generation: opening, contribution, commit and abort, and the CLV_ commands
(chapter 10). -/

namespace Sys2Proof.Machine

/-! ### DISPATCH routes and COMBINE rows (R236, R237) -/

/-- Entry (t, k) of a route table. -/
def routeEntry (c : Coll) (r kk t k : Nat) : Nat := leNat (c.staged r (2 * (t * kk + k)) 2)

/-- When every route table has arrived: number the rows, send the count units, keep the route state (R236). -/
def State.routeRows (s : State) (id : Nat) : State :=
  let c := s.coll id
  let d := c.d
  let n := s.collN id
  let ranks := List.range n
  if d.op ≠ 0x10 ∨ c.routed = true ∨ s.allJoined id = false
      ∨ (ranks.all (fun r => c.arrived r 0 (d.routeBytes (s.tokensOf id r)))) = false then s
  else
    let es := ranks.flatMap (fun r => (List.range (s.tokensOf id r)).flatMap (fun t => (List.range d.k).map (fun k =>
      (r, t, k, routeEntry c r d.k t k))))
    if es.any (fun e => e.2.2.2 != 0xFFFF && decide (n ≤ e.2.2.2)) then (s.countClv 3).collTrigger id 6
    else
      let sumTok := (ranks.map (s.tokensOf id)).sum
      let units := (8 * d.k * sumTok + 65535) / 65536
      if c.slots.toNat < units + d.units then s.collTrigger id 5
      else
        let route := ranks.flatMap (fun x => ((es.filter (fun e => e.2.2.2 == x)).zipIdx).map (fun e =>
          ({ src := e.1.1, token := e.1.2.1, k := e.1.2.2.1, expert := x, row := e.2 } : Route)))
        let s := s.onColl id (fun c => { c with routed := true, route := route, routeK := d.k, routeGen := some c.gen,
                                                routeTok := ranks.map (fun r => (r, s.tokensOf id r)) })
        ranks.foldl (fun s x =>
          let counts := ranks.map (fun r => (route.filter (fun y => y.expert == x && y.src == r)).length)
          s.sendResult id [x] false 0 (padBytes (counts.flatMap (leBytes 4))) 255 (2 ^ 18 - 1)) s

/-- Rows that token `t` of rank `r` needs: k, expert and row number. -/
def State.tokenRows (s : State) (id r t : Nat) : List Route :=
  (s.coll (s.coll id).d.linkId).route.filter (fun y => y.src == r && y.token == t)

/-- Where the expert output row of a route entry lies in its expert's contribution. -/
def State.rowAt (s : State) (id : Nat) (y : Route) : Nat :=
  let d := (s.coll id).d
  d.weightBytes (s.tokensOf id y.expert) + y.row * d.row

/-- Everything that a token of a COMBINE needs has arrived. -/
def State.tokenReady (s : State) (id r t : Nat) : Bool :=
  let c := s.coll id
  let d := c.d
  c.arrived r (4 * t * d.k / 64 * 64) (4 * (t + 1) * d.k)
    && (s.tokenRows id r t).all (fun y => c.arrived y.expert (s.rowAt id y) (s.rowAt id y + d.row))

/-- The combined row of a token, in OUT (R237, R246). -/
def State.combineRow (s : State) (id r t : Nat) : List Byte :=
  let c := s.coll id
  let d := c.d
  let m := d.row / d.e
  let ys := (sortBy (fun a b => decide (a.k ≤ b.k)) (s.tokenRows id r t)).map (fun y =>
    (decodeFp fp32 (leNat (c.staged r (4 * (t * d.k + y.k)) 4)), elemValues d.dtype (c.staged y.expert (s.rowAt id y) d.row) m []))
  let sums := (List.range m).map (fun i => ys.foldl (fun acc y => fma32 y.1 (y.2.getD i .nan) acc) (.fin false 0 0))
  if isIntFmt d.out then
    sums.flatMap (fun x => leBytes (elemBits d.out / 8) (match x with
      | .fin neg a e => intOut d.sat (elemBits d.out) (roundInt neg a e)
      | y => encodeInt (elemBits d.out) y))
  else
    let o := convertAll d.out (if d.sr then some d.seed else none) false (t * m) sums
    let bs := o.1 ++ o.2
    bs ++ fill (d.rowOut - bs.length) 0

/-- Tokens whose rows share whole result units. -/
def Desc.tokGroup (d : Desc) : Nat := 64 / Nat.gcd (max 1 d.rowOut) 64

/-- Send the rows of every group of tokens that has become ready (R237, R239). -/
def State.combineReady (s : State) (id : Nat) : State :=
  let d := (s.coll id).d
  let g := d.tokGroup
  (s.ranksHere id).foldl (fun s r =>
    let tok := s.tokensOf id r
    (List.range ((tok + g - 1) / g)).foldl (fun s j =>
      let ts := (List.range g).map (j * g + ·) |>.filter (· < tok)
      if Table.read false (s.coll id).accHas (r * 2 ^ 32 + j) || !ts.all (s.tokenReady id r) then s
      else
        let s := s.onColl id (fun c => { c with accHas := Table.write false c.accHas (r * 2 ^ 32 + j) true })
        s.sendResult id [r] false (j * g * d.rowOut) (padBytes (ts.flatMap (s.combineRow id r))) r j) s) s

/-! ### Filters (R238) -/

/-- A record. -/
def filterRecord (i r x : Nat) : List Byte := leBytes 4 i ++ leBytes 2 r ++ [0, 0] ++ leBytes 8 x

/-- Elements of a rank's chunk, with their indices. -/
def State.chunkElems (s : State) (id r k : Nat) : List (Nat × Nat) :=
  let d := (s.coll id).d
  (((chunks d.e 65536 (s.chunkBytes id r k)).takeWhile (· ≠ [])).map leNat).zipIdx.map (fun x => (k * d.chunkElems + x.2, x.1))

/-- Select the records of the next chunk of a FILTER_PRED, and send the units that are full, or all after the last chunk. -/
def State.filterChunk (s : State) (id k : Nat) : State :=
  let c := s.coll id
  let d := c.d
  let recs := (s.ranksHere id).flatMap (fun r => ((s.chunkElems id r k).filter (fun x =>
    cmpHolds d.cmp (elemValue d.dtype x.2) (elemValue d.dtype d.lo) (elemValue d.dtype d.hi))).map (fun x => filterRecord x.1 r x.2))
  let last := decide (65536 * (k + 1) ≥ d.count * d.e)
  let all := c.records ++ recs
  let upto := if last then all.length else all.length / 4 * 4
  let out := (List.range (s.collN id)).filter d.receives
  let s := s.onColl id (fun c => { c with records := all, recSent := upto, recChunk := k + 1 })
  let s := s.sendResult id out true (64 + 16 * c.recSent) (padBytes ((all.take upto).drop c.recSent).flatten) 0 k
  if last then s.sendResult id out true 0 (leBytes 8 all.length ++ fill 56 0) 0 k else s

/-- The chunks of a FILTER_PRED in ascending order, as far as they have closed. -/
def State.filterReady (s : State) (id : Nat) : State :=
  (s.allChunks id).foldl (fun s x =>
    if (s.coll id).recChunk = x.2 && Table.read false (s.coll id).done (chunkKey 0 x.2) then s.filterChunk id x.2 else s) s

/-- The K records of a FILTER_TOPK, once its last chunk has closed. -/
def State.topkReady (s : State) (id : Nat) : State :=
  let d := (s.coll id).d
  let ks := (s.allChunks id).map (·.2)
  if (s.coll id).recChunk ≠ 0 ∨ (ks.all (fun k => Table.read false (s.coll id).done (chunkKey 0 k))) = false then s
  else
    let xs := (s.ranksHere id).flatMap (fun r => ks.flatMap (fun k => (s.chunkElems id r k).map (fun x =>
      (elemValue d.dtype x.2, r * 2 ^ 40 + x.1, filterRecord x.1 r x.2))))
    let best := topK d.k xs
    let out := (List.range (s.collN id)).filter d.receives
    let k := ks.getLast?.getD 0
    let s := s.onColl id (fun c => { c with recChunk := 1 })
    let s := s.sendResult id out true 0 (padBytes ((best.flatMap (·.2.2)) ++ fill (16 * (d.k - best.length)) 0)) 0 k
    s.sendResult id out true (16 * d.k) (leBytes 4 best.length ++ fill 60 0) 0 k

/-! ### Closing chunks (R239, R242, R244) -/

/-- A chunk of a DISPATCH lies within its member's route table, so it has no results. -/
def State.routeOnly (s : State) (id who k : Nat) : Bool :=
  let d := (s.coll id).d
  d.op == 0x10 && decide (65536 * (k + 1) ≤ d.routeBytes (s.tokensOf id who))

/-- A chunk closes: the results of a chunk that all members share go out. -/
def State.closeChunk (s : State) (id who k : Nat) : State :=
  let c := s.coll id
  let d := c.d
  let n := s.collN id
  let slotless := d.resPool || s.routeOnly id who k
  let s := s.onColl id (fun c => { c with done := Table.write false c.done (chunkKey who k) true, closed := c.closed + 1,
                                          unfreed := if slotless then c.unfreed else c.unfreed ++ [chunkKey who k] })
  if d.resPool || !d.shared then s
  else if d.op = 2 then (List.range n).foldl (fun s r => s.scatterTo id r k) s
  else if d.reducing then
    s.sendResult id ((List.range n).filter d.receives) true (k * d.chunkOut d.chunkElems)
      (redRange (s.coll id) n (k * d.chunkElems) (min d.count ((k + 1) * d.chunkElems))) 0 k
  else s

/-- The results of closed chunks of one member go out once every receiver has joined, since each carries the TAG of its receiver's
COLL.OPEN, and for a DISPATCH once the count units have been sent (R236, R242). -/
def State.sendClosed (s : State) (id : Nat) : State :=
  let d := (s.coll id).d
  if d.shared || d.resPool || d.op == 0x11 || (s.coll id).state != .opened || !s.allJoined id || (d.op == 0x10 && !(s.coll id).routed) then s
  else (s.allChunks id).foldl (fun s x =>
    let key := chunkKey x.1 x.2
    if !Table.read false (s.coll id).done key || Table.read false (s.coll id).out key then s
    else (s.onColl id (fun c => { c with out := Table.write false c.out key true })).memberChunk id x.1 x.2) s

/-- The shared result under RES_POOL, as offset and bytes. -/
def State.poolResult (s : State) (id : Nat) : List (Nat × List Byte) :=
  let c := s.coll id
  let d := c.d
  let n := s.collN id
  if d.reducing then
    (s.allChunks id).map (fun x => (x.2 * d.chunkOut d.chunkElems,
      padBytes (redRange c n (x.2 * d.chunkElems) (min d.count ((x.2 + 1) * d.chunkElems)))))
  else if d.op = 4 then (List.range n).map (fun r => (r * d.count * d.e, c.staged r 0 (d.count * d.e)))
  else [(0, c.staged d.root 0 (d.count * d.e))]

/-- RES_TVA of the root's descriptor. -/
def State.resTva (s : State) (id : Nat) : Nat :=
  let c := s.coll id
  match c.parts.find? (fun p => (s.ranksOf id p.who).contains c.d.root) with
  | some p => (Desc.of p.frame.payload).tva
  | none => c.d.tva

/-- Issue the pool writes of the result as ST requests of a core of the owning cluster, with the tenant of that core (R204, R244). -/
def State.poolWrites (s : State) (id : Nat) : State :=
  let c := s.coll id
  let core := 8 * c.cluster.toNat
  let base := s.resTva id
  let parts := (s.poolResult id).flatMap (fun x =>
    (piecesOf 0 4096 (2 * x.2.length / 4096 + 2) (base + x.1) (base + x.1 + x.2.length)).map (fun y =>
      (y.1, (x.2.drop (y.1 - base - x.1)).take y.2)))
  let s := s.onColl id (fun c => { c with poolDone := true, poolLeft := parts.length })
  parts.foldl (fun s x =>
    let f : Frame := { opcode := 0x12, dst := (match corePv s.comp.run core with | some pv => pvUnit s.comp.run pv | none => 0xFFFF),
                       src := s.selfUnit, vc := 2, tenant := BitVec.ofNat 10 (coreTenant s.comp.run core), epoch := s.comp.epoch,
                       addr := BitVec.ofNat 56 x.1, length := BitVec.ofNat 7 (x.2.length / 64), payload := x.2 }
    if x.1 % 64 ≠ 0 then s.poolAnswer id stMalformed
    else s.accept (.coll id core) f (16 + c.cluster.toNat / 4) none 0) s

/-- A root or single module closes what can close, and reaches COMMITTING when all is closed (R230, R239). -/
def State.rootProgress (s : State) (id : Nat) : State :=
  let s := (s.allChunks id).foldl (fun s x =>
    if !(s.coll id).live || Table.read false (s.coll id).done (chunkKey x.1 x.2) || !s.delivered id x.1 x.2 then s
    else s.closeChunk id x.1 x.2) s
  let s := (s.routeRows id).sendClosed id
  let d := (s.coll id).d
  let s := if d.op = 0x20 then s.filterReady id else if d.op = 0x21 then s.topkReady id else if d.op = 0x11 then s.combineReady id else s
  let all := s.allJoined id && (d.op != 0x10 || (s.coll id).routed)
    && (s.allChunks id).all (fun x => Table.read false (s.coll id).done (chunkKey x.1 x.2))
  if (s.coll id).state = .opened ∧ all = true then
    let s := s.onColl id (fun c => { c with state := .committing })
    if d.resPool then s.poolWrites id else s
  else s.advanceGrants id

/-! ### Modules with a parent (R248) -/

/-- Send contribution bytes to the parent. -/
def State.sendUp (s : State) (id off : Nat) (bs : List Byte) : State :=
  s.sendFrom (s.collSite id) (s.coll id).parentPort.toNat (s.coll id).queue { frame := s.treeFrame id 0x70 4 stOk off bs }

/-- The partial of a chunk, in the accumulator type. -/
def partialBytes (c : Coll) (k : Nat) : List Byte :=
  let d := c.d
  (List.range (min d.chunkElems (d.count - k * d.chunkElems))).flatMap (fun i =>
    leBytes d.accW (Table.read 0 c.acc (k * d.chunkElems + i)).toNat)

/-- Partials of the chunks that every contributor has delivered, within the parent's grant. -/
def State.partialsUp (s : State) (id : Nat) : State :=
  (s.allChunks id).foldl (fun s x =>
    let c := s.coll id
    let d := c.d
    let bs := partialBytes c x.2
    let off := x.2 * d.chunkElems * d.accW
    if Table.read false c.done (chunkKey 0 x.2) || !s.delivered id 0 x.2 || decide (c.upGrant < off + bs.length) then s
    else
      let s := s.onColl id (fun c => { c with done := Table.write false c.done (chunkKey 0 x.2) true, closed := c.closed + 1,
                                              upSent := c.upSent + bs.length })
      ((chunks 4096 ((bs.length + 4095) / 4096) bs).zipIdx).foldl (fun s y => s.sendUp id (off + 4096 * y.2) y.1) s) s

/-- Contribution bytes forwarded in order, a frame at a time, within the parent's grant. -/
def State.forwardUp (s : State) (id : Nat) : Nat → State
  | 0 => s
  | n + 1 =>
    let c := s.coll id
    match segAt (s.segs id (s.ranksHere id)) c.upSent with
    | none => s
    | some (r, o, left) =>
      let room := min (min left (c.upGrant - c.upSent)) (min (4096 - c.upSent % 4096) (65536 - o % 65536))
      if room = 0 || !c.arrived r o (o + room) then s
      else
        let s := s.sendUp id c.upSent (c.staged r o room)
        (s.onColl id (fun c => { c with upSent := c.upSent + room })).forwardUp id n

/-- Bytes that this module contributes to its parent. -/
def State.upTotal (s : State) (id : Nat) : Nat :=
  let d := (s.coll id).d
  if d.reducing then d.count * d.accW else ((s.ranksHere id).map (s.rankTotal id)).sum

/-- A module with a parent sends up what it may, and reaches COMMITTING when all has gone. -/
def State.childProgress (s : State) (id : Nat) : State :=
  let d := (s.coll id).d
  let s := if d.reducing then s.partialsUp id else s.forwardUp id (s.upTotal id / 64 + 1)
  if (s.coll id).state = .opened ∧ s.allJoined id = true ∧ (s.coll id).upSent = s.upTotal id then
    s.onColl id (fun c => { c with state := .committing })
  else s.advanceGrants id

/-- Carry a generation on as far as it can go. -/
def State.collProgress (s : State) (id : Nat) : State :=
  let c := s.coll id
  if c.state ≠ .opened then s
  else if c.hasParent then s.childProgress id else s.rootProgress id

/-! ### Opening (R230 to R234) -/

/-- The contributor that a frame comes from: a member by its unit or core, else a child module by its port. -/
def State.collWho (s : State) (id : Nat) (o : Origin) (f : Frame) : Option Nat :=
  let g := s.collGroup id
  let ranks := List.range g.size.toNat
  match o with
  | .thread k _ _ => ranks.find? (fun r => let m := Table.read {} g.members r; m.coreV && m.core.toNat == k)
  | .port p =>
    match ranks.find? (fun r => let m := Table.read {} g.members r; !m.coreV && m.unit != 0xFFFF && m.unit == f.src) with
    | some r => some r
    | none => ((s.coll id).children.find? (fun x => s.base x.2 == s.base p)).map (fun x => 256 + x.1)
  | _ => none

/-- Collective slots that a record's generations occupy (R230). -/
def State.collUse (s : State) (rec : Nat) : Nat :=
  (s.clv.ids.filter (fun e => e.2.adm.toNat == rec && (e.2.state == .opened || e.2.state == .committing || e.2.state == .aborting))).length

/-- A member port of a group has a gate list (R249). -/
def State.groupGated (s : State) (id : Nat) : Bool :=
  (List.range (s.collN id)).any (fun r => match unitOf s.comp.run (s.memberOf id r).unit with
    | .port p => (s.port (s.base p)).tc.gate.installed
    | .away p _ => (s.port (s.base p)).tc.gate.installed
    | _ => false)

/-- A contributor joins: its record, the comparison of its descriptor and its first grant (R233, R240). -/
def State.collJoin (s : State) (n id who : Nat) (o : Origin) (f : Frame) : State :=
  let c := s.coll id
  let p : Contributor := { who := who, origin := o, n := n, frame := f, tokens := (Desc.of f.payload).tokens }
  let s := s.onColl id (fun c => { c with parts := c.parts ++ [p] })
  if descKey f.payload ≠ descKey c.desc then s.collTrigger id 3
  else (s.sendGrant id p (s.grantEnd id who)).collProgress id

/-- The state of an ID in which a generation begins: route state that it held is dropped (R236). -/
def Coll.begun (c : Coll) (gen : BitVec 12) (desc : List Byte) : Coll :=
  { c with state := .opened, gen := gen, closed := 0, desc := desc, parts := [], acc := [], accHas := [], data := [], got := [],
           done := [], unfreed := [], routed := false, records := [], recSent := 0, recChunk := 0, upSent := 0, resGot := [],
           resWant := [], poolLeft := 0, poolDone := false, upGrant := 0, readyUp := false, deadline := none, out := [],
           route := [], routeTok := [], routeK := 0, routeGen := none }

/-- A new generation starts (R234, R248, R249). A module with a parent sends its own COLL.OPEN under a tag that no other of its
requests on that port holds (R77). -/
def State.collStart (s : State) (n id who : Nat) (o : Origin) (f : Frame) : State :=
  let d := Desc.of f.payload
  let gen := BitVec.ofNat 12 f.collGen
  let s := s.onColl id (fun c => c.begun gen f.payload)
  let c := s.coll id
  let s := s.serving ((List.range 8).map (8 * c.cluster.toNat + ·)) (s.collGroup id).tenant
  let s := if c.hasParent then
      let tag := (s.freeTag (s.base c.parentPort.toNat)).getD 0
      let x := s.treeFrame id 0x78 5 stOk 0 f.payload
      let s := (s.onColl id (fun c => { c with upTag := tag })).onLink (s.base c.parentPort.toNat) (fun l => { l with nextTag := tag + 1 })
      s.sendFrom (s.collSite id) c.parentPort.toNat none { frame := { x with tag := tag } }
    else s
  let s := if d.timed && !c.hasParent then s.onColl id (fun c => { c with deadline := some d.deadline }) else s
  let s := s.collJoin n id who o f
  let ms := (List.range (s.collN id)).map (s.memberOf id)
  if ms.any (fun m => m.dead) then s.collTrigger id (if ms.any (fun m => m.dead && m.byLease) then 2 else 1)
  else if d.timed && !c.hasParent && decide (d.deadline ≤ s.now) then s.collTrigger id 7
  else s

/-- A cluster has an engine, among those numbered, that is not quarantined (R363). -/
def State.clusterHas (s : State) (cl : Nat) (es : List Nat) : Bool :=
  (List.range 8).any (fun j => es.any (fun e => !(s.core (8 * cl + j)).quar.getLsbD e))

/-- The owning cluster has the engines that an operation needs: a VE for reductions and rows, the GFE for filters. -/
def State.collEngines (s : State) (id : Nat) (d : Desc) : Bool :=
  let cl := (s.coll id).cluster.toNat
  (!(d.reducing || d.op == 0x11) || s.clusterHas cl [1, 2]) && (!d.filter || s.clusterHas cl [3])

/-- A COLL.OPEN reaches the owning cluster: the first row of Table 10-3 that applies (R234, R237, R249). One that starts a generation
while its module has no free tag towards the parent is held until it has one (R78). -/
def State.collOpen (s : State) (n : Nat) (o : Origin) (f : Frame) : State :=
  let id := f.collId
  let c := s.coll id
  let h := f.collGen
  let d := Desc.of f.payload
  let fail := fun (st : BitVec 6) (cause : Nat) => s.toIssuer (s.collSite id) n o none { frame := doneFrame f st cause }
  let ahead := (h + 4096 - c.gen.toNat) % 4096
  let newer := decide (1 ≤ ahead) && decide (ahead ≤ 2047)
  let inTree := match dstPavilion (s.tables f.epoch) f.dst with
    | some top => inSubtree s.comp.run top (s.admRec c.adm.toNat).pv.toNat
    | none => false
  match (if c.state = .unbound then none else s.collWho id o f) with
  | none => fail stDenied 0
  | some who =>
    if f.tenant ≠ (s.collGroup id).tenant ∨ s.mod.state ≠ .service ∨ inTree = false then fail stDenied 0
    else if !descOk (s.collN id) (s.linkRows id who d) f.payload then fail stMalformed 0
    else if (c.live && (c.part who).isSome) || s.req.held.any (fun x => x.forAbort && x.frame.collId == id && s.collWho id x.origin x.frame == some who) then
      fail stDenied 0
    else if (d.timed || d.isGated) && (s.tim.state == .unset || s.tim.state == .lost) then fail stAborted 8
    else if d.isGated && !s.groupGated id then fail stDenied 0
    else if !s.collEngines id d then fail stDenied 0
    else if d.op = 0x11 && (!s.linkHeld id d || (s.coll d.linkId).group != c.group
        || (decide (who < 256) && Table.read 0 (s.coll d.linkId).routeTok who != d.tokens)) then fail stDenied 0
    else if h = c.gen.toNat then
      if c.state = .opened then s.collJoin n id who o f
      else fail stAborted (if c.state = .aborting ∨ c.state = .aborted then c.cause.toNat else 0)
    else if !newer then fail stAborted 0
    else
      let hold := fun (s : State) =>
        ({ s with req := { s.req with held := s.req.held ++ [{ n := n, origin := o, frame := f, forAbort := true }] } } : State)
      match c.state with
      | .opened => hold (s.collTrigger id 0xE)
      | .committing => hold (s.collTrigger id 0xE)
      | .aborting => hold s
      | _ =>
        if c.hasParent && (s.freeTag (s.base c.parentPort.toNat)).isNone then hold s else
        let probe := s.setColl id (c.begun (BitVec.ofNat 12 h) f.payload)
        if (s.collUse c.adm.toNat < (s.admRec c.adm.toNat).resv.coll) && decide (1 ≤ probe.window id) then s.collStart n id who o f
        else fail stDenied 0

/-! ### Contributions (R241, R247) -/

/-- Every block of a CBF payload has the element type of the generation. -/
def cbfTyped (el : BitVec 4) (pl : List Byte) : Bool :=
  match parsePayload pl with
  | none => false
  | some bs => bs.all (fun b => b.1 == 0 || b.1 == 16 || field b.2 1 1 == el.toNat)

/-- The plain bytes of a contribution; none where its CBF form is not allowed or not valid. -/
def contribPlain (d : Desc) (f : Frame) : Option (List Byte) :=
  if f.has flCmpr then
    match (if isMx d.dtype then none else cbfElem d.dtype) with
    | some el => if d.cbfIn && f.addr.toNat % 2048 == 0 && cbfTyped el f.payload then expandPayload f.payload else none
    | none => none
  else some f.payload

/-- A frame that names a pavilion reaches the collectives of that pavilion's subtree only (R33). -/
def State.collReached (s : State) (id : Nat) (f : Frame) : Bool :=
  match unitOf (s.tables f.epoch) f.dst with
  | .pavilion pv => inSubtree s.comp.run pv (s.admRec (s.coll id).adm.toNat).pv.toNat
  | _ => true

/-- A COLL.CONTRIB reaches the owning cluster (R241). -/
def State.collContrib (s : State) (o : Origin) (f : Frame) : State :=
  let id := f.collId
  let c := s.coll id
  if c.state ≠ .opened ∨ f.collGen ≠ c.gen.toNat then s.countClv 2
  else match (if s.collReached id f then s.collWho id o f else none) with
    | none => s.countClv 3
    | some who =>
      let bad := (s.countClv 3).collTrigger id 6
      match c.part who, contribPlain c.d f with
      | some p, some bs =>
        let off := f.addr.toNat
        let n := bs.length
        let seen := if who < 256 || c.d.reducing then (List.range (n / 64)).any (fun u => Table.read false c.got (who * 2 ^ 28 + off / 64 + u))
          else (List.range (n / 64)).any (fun u => match segAt (s.segs id (s.ranksOf id who)) (off + 64 * u) with
            | some (r, x, _) => Table.read false c.got (r * 2 ^ 28 + x / 64) | none => true)
        if n = 0 ∨ off % 64 ≠ 0 ∨ off / 65536 ≠ (off + n - 1) / 65536 ∨ min p.granted p.total < off + n ∨ seen = true then bad
        else (s.absorb id who off bs).collProgress id
      | _, _ => bad

/-! ### Results and grants from a parent -/

/-- The frame comes from the parent of a live generation that it names. -/
def State.fromParent (s : State) (p : Nat) (f : Frame) : Bool :=
  let c := s.coll f.collId
  c.hasParent && c.live && c.gen.toNat == f.collGen && s.base c.parentPort.toNat == s.base p

/-- Result bytes that a rank will receive in all, once they are known. -/
def State.resultWant (s : State) (id r : Nat) : Option Nat :=
  let c := s.coll id
  let d := c.d
  if !d.receives r then some 0
  else match d.op with
    | 0x10 | 0x20 => (c.resWant.find? (fun e => e.1 == r)).map (·.2)
    | _ => some (pad64 (d.result (s.collN id) (s.tokensOf id r) 0))

/-- A module with a parent has passed on the count units of all its ranks: it holds what a linked COMBINE asks of the DISPATCH, the
TOKENS and the rows of each rank (R237, R248). The routes themselves stay at the root. -/
def State.keepLink (s : State) (id : Nat) : State :=
  let c := s.coll id
  let here := s.ranksHere id
  if c.d.op = 0x10 ∧ c.routeGen = none ∧ (here.all (fun r => (c.resWant.find? (fun e => e.1 == r)).isSome)) = true then
    s.onColl id (fun c => { c with routeGen := some c.gen, routeTok := here.map (fun r => (r, s.tokensOf id r)) })
  else s

/-- A COLL.RESULT from the parent is passed to local members and children (R248). -/
def State.passResult (s : State) (f : Frame) : State :=
  let id := f.collId
  let c := s.coll id
  let d := c.d
  let n := s.collN id
  let here := s.ranksHere id
  let named := here.filter (fun r => let m := s.memberOf id r; m.unit == f.dst && (d.op == 2 || d.op == 6 || d.rows))
  let to_ := if named.isEmpty then here.filter d.receives else named
  let plain := if f.has flCmpr then (expandPayload f.payload).getD [] else f.payload
  let s := s.onColl id (fun c => { c with
    resGot := to_.foldl (fun t r => Table.write 0 t r (Table.read 0 t r + plain.length)) c.resGot
    resWant := if f.addr ≠ 0 then c.resWant
      else if d.op = 0x10 then to_.foldl (fun t r => Table.write 0 t r (cntBytes n + d.row * ((List.range n).map (fun i => field plain (4 * i) 4)).sum)) c.resWant
      else if d.op = 0x20 then to_.foldl (fun t r => Table.write 0 t r (64 + pad64 (16 * field plain 0 8))) c.resWant
      else c.resWant })
  let s := s.keepLink id
  s.sendResult id to_ named.isEmpty f.addr.toNat plain 255 0

/-! ### Commit (R243) -/

/-- A COLL.RESULT frame of a generation has not been acknowledged on its link. -/
def State.resultsOut (s : State) (h : BitVec 24) : Bool :=
  let is := fun (f : Frame) => f.opcode == 0x71 && f.handle == h
  s.pkg.transit.any (fun t => is t.item.frame)
    || s.ports.any (fun e => e.2.tc.queues.any (fun q => q.2.all.any (fun x => is x.frame)) || e.2.link.replay.any (fun x => is x.2))

/-- The module is ready for its generation. -/
def State.collReady (s : State) (id : Nat) : Bool :=
  let c := s.coll id
  c.state == .committing && c.poolLeft == 0 && (!c.d.resPool || c.hasParent || c.poolDone) && !s.resultsOut (collHandle id c.gen)
    && c.children.all (fun x => match c.part (256 + x.1) with | some p => p.ready | none => false)
    && (!c.hasParent || (s.ranksHere id).all (fun r => match s.resultWant id r with
        | some w => decide (w ≤ Table.read 0 c.resGot r) | none => false))

/-- Route state is no longer needed. -/
def Coll.noRoute (c : Coll) : Coll := { c with route := [], routeTok := [], routeK := 0, routeGen := none }
/-- A COMBINE ends: the route state of the generation that it names goes, where it is held still (R236). -/
def State.linkDone (s : State) (id : Nat) : State :=
  let d := (s.coll id).d
  if d.op = 0x11 ∧ s.linkHeld id d = true then s.onColl d.linkId Coll.noRoute else s

/-- The generation commits at this module: COLL.DONE with OK to its children and members (R243). -/
def State.collCommit (s : State) (id : Nat) : State :=
  let c := s.coll id
  let s := s.onColl id (fun c => { c with state := .idle, deadline := none, unfreed := [], acc := [], accHas := [], data := [], got := [] })
  let s := s.linkDone id
  let s := c.parts.foldl (fun s p => s.toPart id p none { frame := doneFrame p.frame stOk 0, exempt := true }) s
  s.countClv 0

/-- A module that is ready commits, or reports to its parent once (R243). -/
def execCollectiveCommit (id : BitVec 12) (s : State) : Host.Outcome State Fault Refusal :=
  .next (
    let c := s.coll id.toNat
    if s.alive = false ∨ s.collReady id.toNat = false then s
    else if c.hasParent then
      if c.readyUp then s
      else (s.onColl id.toNat (fun c => { c with readyUp := true })).sendFrom (s.collSite id.toNat) c.parentPort.toNat none
        { frame := s.treeFrame id.toNat 0x7A 5 stOk 0 [], exempt := true }
    else s.collCommit id.toNat)

/-- A COLL.DONE from a child or the parent of a tree (R243, R248). -/
def State.collDoneFrom (s : State) (p : Nat) (f : Frame) : State :=
  let id := f.collId
  let c := s.coll id
  if !c.live || c.gen.toNat != f.collGen then s.countClv 2
  else if s.fromParent p f then
    if f.status = stOk then s.collCommit id else s.abortHere id (f.addr.toNat % 16)
  else match c.children.find? (fun x => s.base x.2 == s.base p) with
    | some x => if f.status = stOk then
        s.onColl id (fun c => { c with parts := c.parts.map (fun (q : Contributor) => if q.who = 256 + x.1 then { q with ready := true } else q) })
      else s.collTrigger id (f.addr.toNat % 16)
    | none => s

/-! ### Aborts (R250 to R252) -/

/-- An ABORT reaches the owning cluster (R250, R252). -/
def State.collAbortFrame (s : State) (o : Origin) (f : Frame) : State :=
  let id := f.collId
  let c := s.coll id
  if !c.live || c.gen.toNat != f.collGen || !s.collReached id f then s
  else match o with
    | .port p =>
      if c.hasParent && s.base c.parentPort.toNat == s.base p then s.abortHere id (f.addr.toNat % 16)
      else match s.collWho id o f with
        | none => s
        | some who => s.collTrigger id (if who < 256 then 4 else f.addr.toNat % 16)
    | _ => if (s.collWho id o f).isSome then s.collTrigger id 4 else s

/-- Every live generation that `p` accepts meets a trigger. -/
def State.collTriggers (s : State) (cause : Nat) (p : Nat → Coll → Bool) : State :=
  (s.clv.ids.filter (fun e => e.2.live && p e.1 e.2)).foldl (fun s e => s.collTrigger e.1 cause) s

/-- A member unit dies: its entries are DEAD and its generations abort (R228, R250). An entry that a lease expiry made dead stays so
until the FM writes it, whatever its port does. -/
def State.memberDead (s : State) (u : BitVec 16) (lease : Bool) : State :=
  let hit := fun (m : Member) => !m.coreV && m.unit == u && u != 0xFFFF
  let gs := (s.clv.groups.filter (fun e => e.2.members.any (fun m => hit m.2))).map (·.1)
  let s := gs.foldl (fun s g => s.onGroup g (fun x => { x with members := Table.mapAll {} (fun _ m =>
    if hit m then { m with dead := true, byLease := lease || (m.dead && m.byLease) } else m) x.members })) s
  s.collTriggers (if lease then 2 else 1) (fun _ c => gs.contains c.group.toNat)

/-- A unit's port is OPEN again: entries dead under R85 are alive (R228). -/
def State.memberBack (s : State) (u : BitVec 16) : State :=
  { s with clv := { s.clv with groups := Table.mapAll {} (fun _ g => { g with members := Table.mapAll {} (fun _ m =>
    if m.coreV = false ∧ m.unit = u ∧ m.dead = true ∧ m.byLease = false then { m with dead := false } else m) g.members }) s.clv.groups } }

/-- An S port is dead under R85: generations with a child or the parent behind it abort (R250). The spec names no cause for a dead
parent, so that cause is a free value. -/
def State.treePortDead (s : State) (p : Nat) : State :=
  let s := s.collTriggers 0xA (fun _ c => c.children.any (fun x => s.base x.2 == s.base p))
  let ups := (s.clv.ids.filter (fun e => e.2.live && e.2.hasParent && s.base e.2.parentPort.toNat == s.base p)).map (·.1)
  ups.foldl (fun s id => let r := s.draw; r.1.abortHere id ((Config.freeWord r.2).toNat % 16)) s

/-- Deadline and gated generations end when FT is LOST (Table 02-3). -/
def State.collLost (s : State) : State := s.collTriggers 8 (fun _ c => c.d.timed || c.d.isGated)

/-- The deadline of a generation passes (R249). -/
def State.collDeadline (s : State) (id : Nat) : State :=
  match (s.coll id).deadline with
  | some d => if s.alive && (s.coll id).live && decide (d ≤ s.now) then s.abortHere id 7 else s
  | none => s

/-- COLLECTIVE_ABORT_DEADLINE (R249). -/
def execCollectiveAbortDeadline (id : BitVec 12) (s : State) : Host.Outcome State Fault Refusal :=
  .next (match (s.coll id.toNat).deadline with
    | some d => if s.inTurn 1 d then s.collDeadline id.toNat else s
    | none => s)

/-- The pool writes of an aborted generation are done: its slots are free, the state is ABORTED (R251 step 6). -/
def execAbortComplete (id : BitVec 12) (s : State) : Host.Outcome State Fault Refusal :=
  .next (
    let c := s.coll id.toNat
    if s.alive && c.state == .aborting && c.poolLeft == 0 then
      (s.linkDone id.toNat).onColl id.toNat (fun c => { (if c.d.op = 0x10 then c.noRoute else c) with
        state := .aborted, acc := [], accHas := [], data := [], got := [], done := [], records := [] })
    else s)

/-- A COLL.OPEN held until ABORTED is handled again (R234). -/
def execHeldOpenRetry (n : Nat) (s : State) : Host.Outcome State Fault Refusal :=
  .next (match s.req.held.find? (fun x => x.n == n && x.forAbort) with
    | none => s
    | some x =>
      let st := (s.coll x.frame.collId).state
      if s.alive = false ∨ st = .opened ∨ st = .committing ∨ st = .aborting then s
      else ({ s with req := { s.req with held := s.req.held.filter (fun y => y.n != n) } }).collOpen x.n x.origin x.frame)

/-- Tokens whose rows or weights lie in a chunk of a COMBINE, as rank and group of tokens. -/
def State.chunkTokens (s : State) (id who k : Nat) : List (Nat × Nat) :=
  let d := (s.coll id).d
  let lo := 65536 * k
  let hi := 65536 * (k + 1)
  let own := (List.range (s.tokensOf id who)).filter (fun t => decide (4 * t * d.k < hi) && decide (lo < 4 * (t + 1) * d.k))
  let rows := (s.coll d.linkId).route.filter (fun y => y.expert == who && decide (s.rowAt id y < hi) && decide (lo < s.rowAt id y + d.row))
  own.map (fun t => (who, t / d.tokGroup)) ++ rows.map (fun y => (y.src, y.token / d.tokGroup))

/-- A frame of a chunk's results is still in the module. -/
def State.chunkOut (s : State) (lab : Nat × Nat × Nat × Nat) : Bool :=
  s.pkg.transit.any (fun t => t.item.chunk == some lab)
    || s.ports.any (fun e => e.2.tc.queues.any (fun q => q.2.all.any (fun x => x.chunk == some lab)))

/-- Every result frame of a chunk has left its port: its slot units are free and the grants advance (R242). -/
def execChunkSlotsFreed (id : BitVec 12) (who chunk : Nat) (s : State) : Host.Outcome State Fault Refusal :=
  .next (
    let i := id.toNat
    let c := s.coll i
    let key := chunkKey who chunk
    let labels := if c.d.op = 0x11 then s.chunkTokens i who chunk else [(who, chunk)]
    let sent := c.d.op != 0x11 || labels.all (fun x => Table.read false c.accHas (x.1 * 2 ^ 32 + x.2))
    let passed := if c.d.shared then c.d.op != 0x20 || decide (chunk < c.recChunk) else c.d.op == 0x11 || Table.read false c.out key
    if s.alive = false ∨ c.live = false ∨ c.unfreed.contains key = false ∨ sent = false ∨ passed = false
        ∨ labels.any (fun x => s.chunkOut (i, c.gen.toNat, x.1, x.2)) = true then s
    else (s.onColl i (fun c => { c with unfreed := c.unfreed.filter (· != key) })).collProgress i)

/-! ### CLV_ registers (R254) -/

/-- Address of a CLV_ register. -/
def clvAddr (off : Nat) : Nat := maddr 0 0 5 off

/-- LOCK of a group. -/
def State.groupLocked (s : State) (g : Nat) : Bool :=
  s.clv.ids.any (fun e => e.2.group.toNat == g && (e.2.state == .opened || e.2.state == .committing || e.2.state == .aborting))

/-- Slot units that the image gives to a place of slots (R254, R305). -/
def State.slotRegion (s : State) (mem : Bool) (cluster : Nat) : Nat :=
  if mem then 4096 * ((List.range 8192).filter (slotPlot s.comp.run)).length
  else if serviceCluster s.comp.run cluster then 188 else 0

/-- A write of CLV_BIND (R230, R254). -/
def State.clvBind (s : State) (v : BitVec 64) : State × BitVec 6 :=
  let id := s.clv.bindSel.toNat
  let c := s.coll id
  let n := v.toNat
  let en := bit n 63
  let role := bits n 62 61
  let childV := bits n 60 53
  let parent := bits n 52 45
  let slots := bits n 40 30
  let mem := bit n 29
  let cluster := bits n 28 22
  let adm := bits n 19 10
  let group := bits n 9 0
  let g := s.group group
  let roleOk := (role != 2 && role != 3 || (s.link (s.base parent)).cls == 2) && (role != 1 && role != 2 || childV != 0)
  if c.state = .opened ∨ c.state = .committing ∨ c.state = .aborting then (s, stDenied)
  else if slots = 0 ∨ s.slotRegion mem cluster < slots then (s, stDenied)
  else if en && (!serviceCluster s.comp.run cluster || g.tenant != (s.admRec adm).tenant || g.size == 0 || !roleOk) then (s, stDenied)
  else
    let c := { c with enable := en, role := BitVec.ofNat 2 role, childV := BitVec.ofNat 8 childV, parentPort := BitVec.ofNat 8 parent,
                      gateQ := BitVec.ofNat 4 (bits n 44 41), slots := BitVec.ofNat 11 slots, slotMem := mem,
                      cluster := BitVec.ofNat 7 cluster, adm := BitVec.ofNat 10 adm, group := BitVec.ofNat 10 group }
    let c := if en then (if c.state = .unbound then { c with state := .idle, gen := 0xFFF } else c)
             else { c.noRoute with state := .unbound }
    (s.setColl id c, stOk)

/-- A write of CLV_CMD. -/
def State.clvCmd (s : State) (v : BitVec 64) : State × BitVec 6 :=
  if v.getLsbD 0 then (s.collTrigger s.clv.bindSel.toNat 9, stOk) else (s, stOk)

/-- Entries 2j and 2j + 1 that a word gives. -/
def memberWord (v : BitVec 64) (k : Nat) : Member :=
  let w := v.toNat / 2 ^ (32 * k) % 2 ^ 32
  { coreV := bit w 30, core := BitVec.ofNat 10 (bits w 25 16), unit := BitVec.ofNat 16 (bits w 15 0) }

/-- One unit ID, or one core, stands in two entries of a table. -/
def memberClash (t : Table Member) : Bool :=
  let ms := (t.map (·.2)).filter (fun m => m.unit != 0xFFFF)
  !decide (((ms.filter (fun m => !m.coreV)).map (·.unit)).Nodup) || !decide (((ms.filter (fun m => m.coreV)).map (·.core)).Nodup)

/-- A write of CLV_GRP_MEMBERj. -/
def State.clvMember (s : State) (j : Nat) (v : BitVec 64) : State × BitVec 6 :=
  let g := s.clv.grpSel.toNat
  let t := Table.write {} (Table.write {} (s.group g).members (2 * j) (memberWord v 0)) (2 * j + 1) (memberWord v 1)
  if s.groupLocked g || memberClash t then (s, stDenied)
  else (s.onGroup g (fun x => { x with members := t }), stOk)

/-- A write of CLV_GRP_CFG. -/
def State.clvGroup (s : State) (v : BitVec 64) : State × BitVec 6 :=
  let g := s.clv.grpSel.toNat
  let n := bits v.toNat 8 0
  if s.groupLocked g || n == 0 || decide (256 < n) then (s, stDenied)
  else (s.onGroup g (fun x => { x with tenant := BitVec.ofNat 10 (bits v.toNat 41 32), size := BitVec.ofNat 9 n }), stOk)

/-- CLV_BIND with ENABLE 1 (R230). -/
def execClvBindEnable (tag : BitVec 16) (value : BitVec 64) (s : State) : Host.Outcome State Fault Refusal :=
  let v := value ||| (1 : BitVec 64) <<< 63
  .next (s.adkWr tag (clvAddr 0x018) v .operator (fun s => s.clvBind v))

/-- CLV_BIND with ENABLE 0 (R230). -/
def execClvBindDisable (tag : BitVec 16) (value : BitVec 64) (s : State) : Host.Outcome State Fault Refusal :=
  let v := value &&& ~~~((1 : BitVec 64) <<< 63)
  .next (s.adkWr tag (clvAddr 0x018) v .operator (fun s => s.clvBind v))

/-- CLV_CMD.ABORT (R250). -/
def execClvCmdAbort (tag : BitVec 16) (s : State) : Host.Outcome State Fault Refusal :=
  .next (s.adkWr tag (clvAddr 0x030) 1 .operator (fun s => s.clvCmd 1))

/-- A group member write (R228, R254). -/
def execClvGrpMemberWrite (tag : BitVec 16) (j : BitVec 7) (value : BitVec 64) (s : State) : Host.Outcome State Fault Refusal :=
  .next (s.adkWr tag (clvAddr (0x100 + 8 * j.toNat)) value .operator (fun s => s.clvMember j.toNat value))

end Sys2Proof.Machine
end

