-- ==== Sys2Proof/Machine/Attention.lean ====
section
/-! DEFINITION. Attention decode over the pooled KV cache (chapter 11): handles, decodes, splits, merges and results. -/

namespace Sys2Proof.Machine

/-! ### Handles (R255, R256) -/

/-- The enabled pavilion whose run holds a handle (R255). -/
def State.handlePv (s : State) (h : Nat) : Option Nat :=
  (List.range 64).find? (fun pv =>
    let x : AtnPv := Table.read {} s.atn.pvs pv
    x.enable && decide (x.first.toNat ≤ h / 2048) && decide (h / 2048 < x.first.toNat + x.n.toNat))

/-- Settings of the pavilion that serves a handle. -/
def State.handleCfg (s : State) (h : Nat) : AtnPv := Table.read {} s.atn.pvs ((s.handlePv h).getD 0)

/-- A handle is BOUND or RELEASING, so it holds one sequence handle of its record (R256). -/
def Handle.held (x : Handle) : Bool := x.state == .bound || x.state == .releasing

/-- Sequence handles that a record holds. -/
def State.seqUse (s : State) (rec : Nat) : Nat :=
  (s.atn.handles.filter (fun e => e.2.held && e.2.adm.toNat == rec)).length

/-- The handle lies in the subtree of a destination unit (R133, R255). -/
def State.handleUnder (s : State) (f : Frame) (h : Nat) : Bool :=
  match dstPavilion (s.tables f.epoch) f.dst, s.handlePv h with
  | some top, some pv => inSubtree s.comp.run top pv
  | _, _ => false

/-! ### Result frames (Table 11-7) -/

/-- The header unit of ATN.RESULT and of ATN.PART. -/
def attnHeader (req : Byte) (splits spans : Nat) (more : Bool) (gb tp range : Nat) : List Byte :=
  req :: BitVec.ofNat 8 (min splits 0xFF) :: leBytes 2 spans ++ [if more then 1 else 0, 0] ++ leBytes 2 gb ++ leBytes 1 tp ++
    fill 7 0 ++ leBytes 8 range ++ fill 40 0

/-- The coordinating cluster of a handle has an MXE and a VE that are not quarantined (R363). -/
def State.handleEngines (s : State) (h : Nat) : Bool := s.clusterHas (h / 2048) [0] && s.clusterHas (h / 2048) [1, 2]

/-- Send an ATN.RESULT from the coordinating cluster. -/
def State.attnResult (s : State) (n : Nat) (o : Origin) (f : Frame) (st : BitVec 6) (pl : List Byte) : State :=
  s.toIssuer (s.handleSite f.handle.toNat) n o none { frame := completion f st pl }

/-! ### BIND and RELEASE (R257, R258) -/

/-- Segment entries of a BIND: FIRST_TOK, UNIT and the reserved bytes. -/
def bindSegs (b : List Byte) : List (Nat × Nat × Nat) :=
  (List.range 4).map (fun k => (field b (32 + 8 * k) 4, field b (36 + 8 * k) 2, field b (38 + 8 * k) 2))

/-- Used entries come first and ascend in FIRST_TOK. -/
def segsAscend : List (Nat × Nat × Nat) → Bool
  | a :: b :: t => (decide (b.2.1 = 0xFFFF) || (a.2.1 != 0xFFFF && decide (a.1 < b.1))) && segsAscend (b :: t)
  | _ => true

/-- The payload of a BIND meets Table 11-2. -/
def bindOk (b : List Byte) : Bool :=
  let fmt := field b 1 1
  let d := field b 2 2
  let l := field b 4 2
  let h := field b 6 2
  let maxTok := field b 8 4
  let segs := bindSegs b
  let base := field b 24 8
  let tp := tokPage fmt d
  [0x40, 0x60, 0x80, 0xC0, 0x100].contains d && kvBytes fmt d != 0 && decide (1 ≤ l) && decide (l ≤ 1024)
    && decide (1 ≤ h) && decide (h ≤ 128) && decide (1 ≤ maxTok) && decide (maxTok ≤ 2 ^ 21)
    && decide (field b 12 4 < 2 ^ 21) && decide (field b 16 4 < 2 ^ 21) && decide (field b 20 4 < 2 ^ 21)
    && base % 2 ^ 21 == 0
    && segs.all (fun x => x.2.2 == 0)
    && (segs.headD (0, 0xFFFF, 0)).1 == 0 && (segs.headD (0, 0xFFFF, 0)).2.1 != 0xFFFF && segsAscend segs
    && decide (base + (maxTok + tp - 1) / max 1 tp * geoGb l h * 2 ^ 21 ≤ 2 ^ 56)

/-- The record that a BIND makes (R258). -/
def bindRecord (b : List Byte) (tenant : BitVec 10) (pv : Nat) (adm : BitVec 10) (now : FT) : Handle :=
  { state := .bound, fmt := BitVec.ofNat 4 (field b 1 1), d := field b 2 2, l := field b 4 2, h := field b 6 2,
    maxTok := field b 8 4, len := 0, tenant := tenant, pv := BitVec.ofNat 6 pv, keep := field b 20 4, win := field b 16 4,
    sink := field b 12 4, base := field b 24 8, inflight := 0,
    segs := ((bindSegs b).filter (fun x => x.2.1 != 0xFFFF)).map (fun x => (x.1, BitVec.ofNat 16 x.2.1)),
    lastFt := now, adm := adm }

/-- A BIND at its coordinating cluster (R258). -/
def State.attnBind (s : State) (n : Nat) (o : Origin) (f : Frame) : State :=
  let h := f.handle.toNat
  let b := f.payload
  if 2 ^ 18 ≤ h ∨ f.length ≠ 1 ∨ bindOk b = false then s.attnResult n o f stMalformed []
  else if s.mod.state ≠ .service ∨ s.handleUnder f h = false ∨ (s.handle h).state ≠ .free
      ∨ (s.admRec (s.handleCfg h).adm.toNat).resv.seq ≤ s.seqUse (s.handleCfg h).adm.toNat then s.attnResult n o f stDenied []
  else if s.tenantGone f.tenant then s.attnResult n o f stRetired []
  else
    let x := bindRecord b f.tenant ((s.handlePv h).getD 0) (s.handleCfg h).adm s.now
    (s.onHandle h (fun _ => x)).attnResult n o f stOk
      (attnHeader 2 0 0 false (geoGb x.l x.h) (tokPage x.fmt.toNat x.d) (x.blocks * geoGb x.l x.h * 2 ^ 21))

/-- A RELEASE at its coordinating cluster (R256, R258). -/
def State.attnRelease (s : State) (n : Nat) (o : Origin) (f : Frame) : State :=
  let h := f.handle.toNat
  if 2 ^ 18 ≤ h ∨ f.length ≠ 1 ∨ f.payload ≠ 3 :: fill 63 0 then s.attnResult n o f stMalformed []
  else if s.mod.state ≠ .service ∨ s.handleUnder f h = false ∨ (s.handle h).state = .free
      ∨ (s.handle h).tenant ≠ f.tenant then s.attnResult n o f stDenied []
  else if s.tenantGone f.tenant then s.attnResult n o f stRetired []
  else (s.onHandle h (fun x => { x with state := .releasing })).attnResult n o f stOk (attnHeader 3 0 0 false 0 0 0)

/-! ### What a decode asks for (Tables 11-4 and 11-5) -/

/-- The request unit of a DECODE or an ATN.SUB. -/
structure Ask where
  layer : Nat
  kvh0 : Nat
  hg : Nat
  qpk : Nat
  scale : Nat
  qFp16 : Bool
  qPool : Bool
  qTva : Nat
  outFp32 : Bool
  outPool : Bool
  outTva : Nat
  src : BitVec 16
  deriving DecidableEq, Repr

/-- The scale of a request: 0 selects 1 / sqrt(D) (Table 11-4). -/
def resolveScale (d x : Nat) : Nat := if x = 0 then enc32 (exactRsqrt d 0) else x

/-- The request of a decode. -/
def Decode.ask (x : Decode) : Ask :=
  let b := x.frame.payload
  let fl := field b 1 1
  if x.isSub then
    { layer := field b 4 2, kvh0 := field b 6 1, hg := field b 7 1, qpk := field b 8 1, scale := field b 12 4, qFp16 := bit fl 1,
      qPool := bit fl 2, qTva := field b 40 8, outFp32 := false, outPool := false, outTva := 0,
      src := BitVec.ofNat 16 (field b 50 2) }
  else
    { layer := field b 2 2, kvh0 := field b 4 1, hg := field b 5 1, qpk := field b 6 1, scale := resolveScale x.d (field b 12 4),
      qFp16 := bit fl 1, qPool := bit fl 2, qTva := field b 16 8, outFp32 := bit fl 0, outPool := bit fl 3, outTva := field b 24 8,
      src := x.frame.src }

/-- Query rows. -/
def Ask.rows (a : Ask) : Nat := a.hg * a.qpk

/-- Bytes of the output before padding: R rows and R log-sum-exps (R262). -/
def outBytes (rows d : Nat) (f32 : Bool) : Nat := rows * d * (if f32 then 4 else 2) + 4 * rows

/-- A DECODE meets Table 11-4 by itself (R263 case 1), with head dimension D of the record where the handle has one. -/
def decodeOk (f : Frame) (d? : Option Nat) : Bool :=
  let b := f.payload
  let fl := field b 1 1
  let rows := field b 5 1 * field b 6 1
  let qPool := bit fl 2
  let outPool := bit fl 3
  decide (fl < 16) && field b 7 1 == 0 && leNat (b.drop 32 |>.take 32) == 0
    && decide (1 ≤ field b 5 1) && decide (1 ≤ field b 6 1) && decide (field b 6 1 ≤ 32)
    && decide (1 ≤ field b 8 4) && decide (field b 8 4 ≤ 2 ^ 21)
    && (!qPool || (field b 16 8 % 64 == 0 && decide (field b 16 8 < 2 ^ 56)))
    && (!outPool || (field b 24 8 % 64 == 0 && decide (field b 24 8 < 2 ^ 56)))
    && (match d? with
      | none => true
      | some d => f.length.toNat == (if qPool then 1 else 1 + (2 * rows * d + 63) / 64)
        && (outPool || decide (outBytes rows d (bit fl 0) ≤ 63 * 64)))

/-! ### Tokens and splits (R264, R265) -/

/-- Attended tokens, as first token and count (R264). -/
def attended (ctx win sink : Nat) : List (Nat × Nat) :=
  if win = 0 ∨ ctx ≤ win ∨ ctx - win ≤ sink then [(0, ctx)]
  else (if sink = 0 then [] else [(0, sink)]) ++ [(ctx - win, win)]

/-- The part of an interval from `lo` up to `hi`. -/
def clip (lo hi : Nat) (x : Nat × Nat) : List (Nat × Nat) :=
  let a := max lo x.1
  let b := min hi (x.1 + x.2)
  if a < b then [(a, b - a)] else []

/-- The intervals that each segment serves, with its unit (R265). -/
def segParts (toks : List (Nat × Nat)) (maxTok : Nat) : List (Nat × BitVec 16) → List (BitVec 16 × List (Nat × Nat))
  | [] => []
  | [(a, u)] => [(u, toks.flatMap (clip a maxTok))]
  | (a, u) :: (b, v) :: t => (u, toks.flatMap (clip a b)) :: segParts toks maxTok ((b, v) :: t)

/-- Tokens in a list of intervals. -/
def tokCount (l : List (Nat × Nat)) : Nat := l.foldl (fun n x => n + x.2) 0

/-- The token at a position of a list. -/
def tokAt : List (Nat × Nat) → Nat → Nat
  | [], _ => 0
  | (a, n) :: t, i => if i < n then a + i else tokAt t (i - n)

/-- The splits of n tokens (R265). -/
def planSplits (n splitMin maxSplits tp : Nat) : List Split :=
  if n = 0 ∨ tp = 0 then []
  else
    let s0 := min ((n + splitMin - 1) / max 1 splitMin) (max 1 maxSplits)
    let q := (n + s0 * tp - 1) / (s0 * tp) * tp
    (List.range ((n + q - 1) / q)).map (fun i => { lo := i * q, hi := min ((i + 1) * q) n })

/-- Tokens of a split. -/
def Decode.splitToks (x : Decode) (y : Split) : List Nat := (List.range (y.hi - y.lo)).map (fun i => tokAt x.toks (y.lo + i))

/-! ### Pages (R259, R260) -/

/-- TVA of the KV page of a token block and KV head. -/
def Decode.page (x : Decode) (block head : Nat) : Nat :=
  x.base + (block * x.gb * 128 + x.ask.layer * x.h + head) * 16384

/-- KV heads of the group. -/
def Decode.heads (x : Decode) : List Nat := (List.range x.ask.hg).map (x.ask.kvh0 + ·)

/-- KV pages of a split. -/
def Decode.splitPages (x : Decode) (y : Split) : List Nat :=
  let blocks := ((x.splitToks y).map (· / x.tp)).dedup
  blocks.flatMap (fun b => x.heads.map (x.page b))

/-- A run of lines as loads of at most 64 lines that cross no 16 KiB page: line address and count. -/
def lineRuns : Nat → Nat → Nat → List (Nat × Nat)
  | 0, _, _ => []
  | k + 1, a, n =>
    if n = 0 then []
    else
      let m := min (min 64 n) (256 - a / 64 % 256)
      (a, m) :: lineRuns k (a + 64 * m) (n - m)

/-- Loads of the used part of both halves of a page (R259). -/
def Decode.pageLoads (x : Decode) (page : Nat) : List (Nat × Nat) :=
  let n := (kvBytes x.fmt x.d * x.tp + 63) / 64
  lineRuns 4 page n ++ lineRuns 4 (page + 8192) n

/-- Core that asked for a decode. -/
def Origin.core? : Origin → Option Nat
  | .thread c _ _ => some c
  | _ => none

/-- The frame of a pool access of a decode (R266). -/
def State.attnFrame (s : State) (x : Decode) (op : BitVec 8) (a len : Nat) (pl : List Byte) : Frame :=
  { opcode := op, dst := pvUnit s.comp.run ((s.handlePv x.handle).getD 64), src := x.ask.src, vc := 2, tenant := x.frame.tenant,
    epoch := s.comp.epoch, addr := BitVec.ofNat 56 a, length := BitVec.ofNat 7 len, payload := pl }

/-- Issue one access of a decode. -/
def State.attnIssue (s : State) (x : Decode) (what : Nat) (f : Frame) : State :=
  s.accept (.attn x.id what x.origin.core?) f (16 + x.handle / 2048 / 4) none 0

/-- Put a decode back. -/
def State.putDecode (s : State) (x : Decode) : State :=
  { s with atn := { s.atn with decodes := s.atn.decodes.map (fun (y : Decode) => if y.id = x.id then x else y) } }

/-- Start a decode: its record, then its loads in ascending order (R265, R266). -/
def State.attnStart (s : State) (x : Decode) : State :=
  let a := x.ask
  let kv := (x.splits.flatMap x.splitPages).dedup.flatMap x.pageLoads
  let q := if a.qPool then lineRuns 600 a.qTva ((2 * a.rows * x.d + 63) / 64) else []
  let lines := fun (l : List (Nat × Nat)) => l.flatMap (fun y => (List.range y.2).map (y.1 / 64 + ·))
  let x := { x with asked := (lines kv ++ lines q).foldl (fun t l => Table.write false t l true) [] }
  let s := { s with atn := { s.atn with decodes := s.atn.decodes ++ [x] } }
  let s := match s.handlePv x.handle with
    | some pv => s.serving ((s.cpu.cores.filter (fun e => e.2.kind == 2 && coreUnder s.comp.run pv e.1)).map (·.1)) x.frame.tenant
    | none => s
  let s := q.foldl (fun s y => s.attnIssue x (2 * (y.1 / 64) + 2) (s.attnFrame x 0x10 y.1 y.2 [])) s
  kv.foldl (fun s y => s.attnIssue x (2 * (y.1 / 64) + 1) (s.attnFrame x 0x10 y.1 y.2 [])) s

/-! ### A decode starts (R263) -/

/-- A segment unit names this module: its own unit ID, or one of its pavilions (R258, log 22). -/
def State.unitHere (s : State) (u : BitVec 16) : Bool :=
  u == s.selfUnit || (match unitOf s.comp.run u with | .pavilion _ => true | _ => false)

/-- S port towards a segment unit on another module. -/
def State.unitAway (s : State) (u : BitVec 16) : Option Nat := match unitOf s.comp.run u with | .away p _ => some p | _ => none

/-- Insert a run into ascending runs, joining neighbours. -/
def addRun (x : Nat × Nat) : List (Nat × Nat) → List (Nat × Nat)
  | [] => [x]
  | y :: t =>
    if x.1 + x.2 < y.1 then x :: y :: t
    else if y.1 + y.2 < x.1 then y :: addRun x t
    else addRun (min x.1 y.1, max (x.1 + x.2) (y.1 + y.2) - min x.1 y.1) t

/-- Intervals by unit: those of one unit together, neighbours joined, two to a request. -/
def byUnit (parts : List (BitVec 16 × List (Nat × Nat))) : List (BitVec 16 × List (Nat × Nat)) :=
  (parts.map (·.1)).dedup.flatMap (fun u =>
    let l := ((parts.filter (fun x => x.1 == u)).flatMap (·.2)).foldl (fun l y => addRun y l) []
    ((chunks 2 ((l.length + 1) / 2) l).map (fun y => (u, y))))

/-- Payload of an ATN.SUB (Table 11-5). -/
def subPayload (x : Decode) (a : Ask) (y : List (Nat × Nat)) : List Byte :=
  let i := y.getD 0 (0, 0)
  let j := y.getD 1 (0, 0)
  leBytes 1 x.fmt ++ leBytes 1 (2 * b2n a.qFp16 + 4 * b2n a.qPool) ++ leBytes 2 x.d ++ leBytes 2 a.layer ++ leBytes 1 a.kvh0 ++
    leBytes 1 a.hg ++ leBytes 1 a.qpk ++ leBytes 1 x.tp ++ leBytes 2 x.gb ++ leBytes 4 a.scale ++ leBytes 8 x.base ++
    leBytes 4 i.1 ++ leBytes 4 i.2 ++ leBytes 4 j.1 ++ leBytes 4 j.2 ++ leBytes 8 a.qTva ++ leBytes 2 x.h ++
    leBytes 2 a.src.toNat ++ fill 12 0 ++ (if a.qPool then [] else x.frame.payload.drop 64)

/-- Send one ATN.SUB of a decode (R267), with a tag of its port's own pool (R77); it waits while none is free (R78). -/
def State.sendSub (s : State) (id : Nat) (u : BitVec 16) (y : List (Nat × Nat)) : State :=
  match s.atn.decodes.find? (fun x => x.id == id), s.unitAway u with
  | some x, some p =>
    let b := s.base p
    let first := (y.getD 0 (0, 0)).1
    if (s.link b).dead then
      s.putDecode { x with status := stMin x.status stDead }
    else
      let pl := subPayload x x.ask y
      let f : Frame := { opcode := 0x82, dst := u, src := s.selfUnit, vc := 5, tenant := x.frame.tenant, epoch := s.comp.epoch,
                         length := BitVec.ofNat 7 (pl.length / 64), handle := x.frame.handle, payload := pl }
      let sub : SubReq := { unit := u, port := b, tag := 0, firstTok := first, timer := s.targetTimer 0 }
      match s.freeTag b with
      | some tag => ((s.putDecode { x with subs := x.subs ++ [{ sub with tag := tag }] }).countAtn 4).subFrame p x.handle tag f
      | none => (s.putDecode { x with subs := x.subs ++ [{ sub with held := some f }] }).countAtn 4
  | _, _ => s

/-- A DECODE at its coordinating cluster (R263). -/
def State.attnDecode (s : State) (n : Nat) (o : Origin) (f : Frame) : State :=
  let h := f.handle.toNat
  let r := s.handle h
  let b := f.payload
  let ctx := field b 8 4
  if 2 ^ 18 ≤ h ∨ decodeOk f (if r.state = .free then none else some r.d) = false then s.attnResult n o f stMalformed []
  else if s.mod.state ≠ .service ∨ r.state ≠ .bound ∨ f.tenant ≠ r.tenant ∨ s.handleUnder f h = false
      ∨ r.l ≤ field b 2 2 ∨ r.h < field b 4 1 + field b 5 1 ∨ r.maxTok < ctx
      ∨ s.handleEngines h = false then s.attnResult n o f stDenied []
  else if s.tenantGone f.tenant then s.attnResult n o f stRetired []
  else
    let parts := (segParts (attended ctx r.win r.sink) r.maxTok r.segs).filter (fun x => !x.2.isEmpty)
    if parts.any (fun x => !s.unitHere x.1 && (s.unitAway x.1).isNone) then s.attnResult n o f stDenied []
    else
      let mine := (parts.filter (fun x => s.unitHere x.1)).flatMap (·.2)
      let cfg := s.handleCfg h
      let tp := tokPage r.fmt.toNat r.d
      let x : Decode :=
        { id := n, origin := o, frame := f, handle := h, isSub := false, fmt := r.fmt.toNat, d := r.d, h := r.h, tp := tp,
          gb := geoGb r.l r.h, base := r.base, toks := mine,
          splits := planSplits (tokCount mine) cfg.splitMin.toNat cfg.maxSplits.toNat tp }
      let s := s.onHandle h (fun r => { r with len := max r.len ctx, lastFt := s.now, inflight := r.inflight + 1 })
      let s := s.attnStart x
      (byUnit (parts.filter (fun x => !s.unitHere x.1))).foldl (fun s y => s.sendSub n y.1 y.2) s

/-- An attention request that has passed its implicit fence reaches its cluster: byte 0 selects it (R257, R262). -/
def State.attnRequest (s : State) (n : Nat) (o : Origin) (f : Frame) : State :=
  match (f.payload.headD 0).toNat with
  | 1 => s.attnDecode n o f
  | 2 => s.attnBind n o f
  | 3 => s.attnRelease n o f
  | _ => s.attnResult n o f stMalformed []

/-- The request unit of an ATN.SUB meets Table 11-5. -/
def subOk (f : Frame) : Bool :=
  let b := f.payload
  let d := field b 2 2
  let fl := field b 1 1
  let rows := field b 7 1 * field b 8 1
  [0x40, 0x60, 0x80, 0xC0, 0x100].contains d && kvBytes (field b 0 1) d != 0 && decide (fl % 2 = 0 ∧ fl < 8)
    && decide (1 ≤ rows) && decide (field b 8 1 ≤ 32) && field b 9 1 == tokPage (field b 0 1) d && field b 12 4 != 0
    && leNat (b.drop 52 |>.take 12) == 0 && f.length.toNat == (if bit fl 2 then 1 else 1 + (2 * rows * d + 63) / 64)

/-- An ATN.SUB at the serving module, which the segment entry names by its own unit ID or by one of its pavilions (R267, log 22). -/
def State.attnSub (s : State) (n : Nat) (o : Origin) (f : Frame) : State :=
  let h := f.handle.toNat
  let b := f.payload
  if 2 ^ 18 ≤ h ∨ subOk f = false then s.attnResult n o f stMalformed []
  else if s.mod.state ≠ .service ∨ s.handlePv h = none ∨ (f.dst != s.selfUnit && !s.handleUnder f h) = true
      ∨ serviceCluster s.comp.run (h / 2048) = false ∨ s.handleEngines h = false then s.attnResult n o f stDenied []
  else if s.tenantGone f.tenant then s.attnResult n o f stRetired []
  else
    let toks := [(field b 24 4, field b 28 4), (field b 32 4, field b 36 4)].filter (fun x => x.2 != 0)
    let cfg := s.handleCfg h
    let tp := field b 9 1
    s.attnStart
      { id := n, origin := o, frame := f, handle := h, isSub := true, fmt := field b 0 1, d := field b 2 2, h := field b 48 2,
        tp := tp, gb := field b 10 2, base := field b 16 8, toks := toks,
        splits := planSplits (tokCount toks) cfg.splitMin.toNat cfg.maxSplits.toNat tp }

/-! ### Numerics (R268, R269) -/

/-- `n` bytes of what a decode has read, from a TVA. -/
def Decode.bytes (x : Decode) (a n : Nat) : List Byte :=
  let l0 := a / 64
  let ls := (List.range ((a + n + 63) / 64 - l0)).flatMap (fun i => Table.read [] x.got (l0 + i))
  (ls.drop (a % 64)).take n

/-- Elements and MX scales of a token in half 0 (K) or 1 (V) of a page (R259). -/
def Decode.kvRow (x : Decode) (head half t : Nat) : List Num × List Byte :=
  let page := x.page (t / x.tp) head + 8192 * half
  let row := t % x.tp
  let eb := x.d * elemBits x.fmt / 8
  let els := (unpackEls x.fmt (x.bytes (page + row * eb) eb) x.d).map (elemValue x.fmt)
  (els, if isMx x.fmt then x.bytes (page + x.tp * eb + row * (x.d / 32)) (x.d / 32) else [])

/-- Values under one scale for each 32. -/
def scaleAll (els : List Num) (scales : List Byte) : List Num :=
  if scales.isEmpty then els else els.zipIdx.map (fun y => scaleNum (scales.getD (y.2 / 32) 0).toNat y.1)

/-- Values converted to a format and read back. -/
def convertBack (code : Nat) (xs : List Num) : List Num :=
  let c := convertAll code none false 0 xs
  elemValues code c.1 xs.length c.2

/-- The Q and P operand format (Table 11-3). -/
def operandFmt (fmt : Nat) (qFp16 : Bool) : Nat := if fmt = 1 then (if qFp16 then 2 else 1) else if fmt ≤ 4 then 3 else 5

/-- Query row r as read. -/
def Decode.qRow (x : Decode) (r : Nat) : List Num :=
  let a := x.ask
  let bs := if a.qPool then x.bytes (a.qTva + r * 2 * x.d) (2 * x.d) else (x.frame.payload.drop (64 + r * 2 * x.d)).take (2 * x.d)
  let code := if a.qFp16 then 2 else 1
  (unpackEls code bs x.d).map (elemValue code)

/-- log2 of sigma of a row under FP8 (R268); free where the row holds an infinity or a NaN (log 11). -/
def sigmaExp (q : List Num) : Int :=
  if q.any (fun v => match v with | .fin _ _ _ => false | _ => true) then
    ((Config.corner 0 (BitVec.ofNat 32 (enc32 (q.headD .nan)))).toNat % 256 : Nat) - 127
  else match q.filterMap topExp with
    | [] => 0
    | t :: ts => ts.foldl max t - 8

/-- A query row in its operand format, and log2 of sigma. -/
def Decode.qOp (x : Decode) (r : Nat) : List Num × Int :=
  let q := x.qRow r
  if x.fmt = 1 then (q, 0)
  else if x.fmt ≤ 4 then
    let e := sigmaExp q
    (convertBack 3 (q.map (fun v => match v with | .fin n m k => .fin n m (k - e) | y => y)), e)
  else (convertBack 5 q, 0)

/-- Minus infinity in FP32. -/
def negInf : Nat := 0xFF800000

/-- The running (m, l, o) of one query row. -/
structure Acc where
  m : Nat := negInf
  l : Nat := 0
  o : List Nat
  deriving DecidableEq, Repr

/-- One tile of at most 32 tokens for one row (R268). -/
def Decode.tile (x : Decode) (head : Nat) (q : List Num) (c : Nat) (acc : Acc) (ts : List Nat) : Acc :=
  let sc := ts.map (fun t => let k := x.kvRow head 0 t; mul32 c (dotAcc 0 q (scaleAll k.1 k.2)))
  let mt := rmax (sc ++ List.replicate (32 - ts.length) negInf)
  if mt = negInf then acc
  else
    let mn := max32 acc.m mt
    let minus := fun (y : Nat) => approx 8 (enc32 (addNum (f32 y) (negNum (f32 mn))))
    let a := if acc.m = negInf then 0 else minus acc.m
    let p := sc.map minus ++ List.replicate (32 - ts.length) 0
    let v := ts.map (x.kvRow head 1)
    let pf := operandFmt x.fmt x.ask.qFp16
    { m := mn
      l := enc32 (addNum (mulNum (f32 acc.l) (f32 a)) (f32 (rsum p)))
      o := acc.o.zipIdx.map (fun y =>
        let vs := fun (i : Nat) => match v[i]? with | some w => if w.2.isEmpty then 127 else (w.2.getD (y.2 / 32) 0).toNat | none => 127
        let pop := convertBack pf (p.zipIdx.map (fun z => to32 (scaleNum (vs z.2) (f32 z.1))))
        dotAcc (mul32 y.1 a) pop (v.map (fun w => w.1.getD y.2 (.fin false 0 0)))) }

/-- The partial of a split (R268). -/
def Decode.splitPartial (x : Decode) (y : Split) : Partial :=
  let a := x.ask
  let toks := x.splitToks y
  let rows := (List.range a.rows).map (fun r =>
    let (q, e) := x.qOp r
    let c := enc32 (mulNum (mulNum (f32 a.scale) (f32 0x3FB8AA3B)) (.fin false 1 e))
    (chunks 32 ((toks.length + 31) / 32) toks).foldl (x.tile (a.kvh0 + r / a.qpk) q c) { o := List.replicate x.d 0 })
  { m := rows.map (fun z => BitVec.ofNat 32 z.m), l := rows.map (fun z => BitVec.ofNat 32 z.l),
    o := rows.flatMap (fun z => z.o.map (BitVec.ofNat 32)) }

/-- The stitch merge of one row (R269). -/
def mergeAcc (x y : Acc) : Acc :=
  if y.m = negInf then x
  else if x.m = negInf then y
  else
    let mn := max32 x.m y.m
    let w := fun (v : Nat) => approx 8 (enc32 (addNum (f32 v) (negNum (f32 mn))))
    let a := w x.m
    let b := w y.m
    let f := fun (u v : Nat) => enc32 (addNum (mulNum (f32 v) (f32 b)) (f32 (mul32 u a)))
    { m := mn, l := f x.l y.l, o := (x.o.zip y.o).map (fun z => f z.1 z.2) }

/-- Rows of a partial. -/
def Partial.rows (p : Partial) (d : Nat) : List Acc :=
  (p.m.zip p.l).zipIdx.map (fun z => { m := z.1.1.toNat, l := z.1.2.toNat, o := ((p.o.drop (z.2 * d)).take d).map (·.toNat) })

/-- The partial that covers nothing. -/
def emptyRows (rows d : Nat) : List Acc := List.replicate rows { o := List.replicate d 0 }

/-- Partials folded from left to right (R269). -/
def mergeAll (rows d : Nat) (ps : List (List Acc)) : List Acc :=
  match ps with
  | [] => emptyRows rows d
  | p :: ps => ps.foldl (fun a b => (a.zip b).map (fun z => mergeAcc z.1 z.2)) p

/-- Output bytes of a decode (R262, R269). -/
def finalOut (f32out : Bool) (rows : List Acc) : List Byte :=
  let el := fun (r : Acc) (v : Nat) => if r.m = negInf then Num.fin false 0 0 else f32 (mul32 v (approx 10 r.l))
  let code := if f32out then 0 else 1
  let o := rows.flatMap (fun r => packEls code (r.o.map (fun v => encodeEl code none false 0 (el r v))))
  let lse := rows.flatMap (fun r => leBytes 4 (if r.m = negInf then negInf
    else enc32 (mulNum (f32 0x3F317218) (addNum (f32 r.m) (f32 (approx 9 r.l))))))
  padBytes (o ++ lse)

/-- Bytes of a partial after the header of an ATN.PART (Table 11-7). -/
def partialOut (rows : List Acc) : List Byte :=
  padBytes (rows.flatMap (fun r => leBytes 4 r.m) ++ rows.flatMap (fun r => leBytes 4 r.l)) ++
    rows.flatMap (fun r => r.o.flatMap (leBytes 4))

/-- The partial that an ATN.PART has brought. -/
def partialIn (bytes : Memory) (rows d : Nat) : List Acc :=
  let at_ := fun (i : Nat) => leNat (bytes.bytes i 4)
  let o0 := 64 + pad64 (8 * rows)
  (List.range rows).map (fun r =>
    { m := at_ (64 + 4 * r), l := at_ (64 + 4 * (rows + r)), o := (List.range d).map (fun i => at_ (o0 + 4 * (r * d + i))) })

/-! ### Dropped spans (R273) -/

/-- Runs of attended tokens on this module whose page is dropped. -/
def Decode.localSpans (x : Decode) : List (Nat × Nat) :=
  let blocks := (x.dropped.map (fun p => (p - x.base) / 16384 / (max 1 x.gb * 128))).dedup
  (blocks.flatMap (fun b => x.toks.flatMap (clip (b * x.tp) ((b + 1) * x.tp)))).foldl (fun l y => addRun y l) []

/-- Every span of a decode. -/
def Decode.allSpans (x : Decode) : List (Nat × Nat) := x.spans.foldl (fun l y => addRun y l) x.localSpans

/-- Bytes of spans. -/
def spanBytes (l : List (Nat × Nat)) : List Byte := padBytes (l.flatMap (fun y => leBytes 4 y.1 ++ leBytes 4 y.2))

/-! ### Completion (R271 to R273) -/

/-- The status of a decode: the one of lowest rank of everything that it met (R271). -/
def Decode.final (x : Decode) : BitVec 6 :=
  let st := if x.broken.isEmpty then x.status else stMin x.status stNoTrans
  if x.dropped.isEmpty then st else stMin st stKvDropped

/-- Splits computed, those of other modules included. -/
def Decode.splitCount (x : Decode) : Nat :=
  x.subs.foldl (fun n y => n + (y.bytes.byte 1).toNat) x.splits.length

/-- Everything that a decode waits for has come. -/
def Decode.settled (x : Decode) : Bool := x.splits.all (·.finished) && x.subs.all (·.finished) && x.probing.isEmpty

/-- Partials of a decode in ascending order of the first token that each covers. -/
def Decode.partials (x : Decode) : List (List Acc) :=
  let mine := x.splits.map (fun y => (tokAt x.toks y.lo, (y.result.map (fun p => p.rows x.d)).getD (emptyRows x.ask.rows x.d)))
  let others := x.subs.map (fun y => (y.firstTok, partialIn y.bytes x.ask.rows x.d))
  let all := mine ++ others
  (sortBy (fun a b => decide (a.1 ≤ b.1)) all).map (·.2)

/-- A decode ends and leaves the handle (R271). -/
def State.endDecode (s : State) (x : Decode) : State :=
  let s := { s with atn := { s.atn with decodes := s.atn.decodes.filter (fun y => y.id != x.id) } }
  if x.isSub then s else s.onHandle x.handle (fun h => { h with inflight := h.inflight - 1 })

/-- Send the frames of an ATN.PART: what stands at offset 64 and on, then the header unit (R267). -/
def State.sendPart (s : State) (x : Decode) (st : BitVec 6) (hdr body : List Byte) : State :=
  let site := s.handleSite x.handle
  let fr := fun (off : Nat) (pl : List Byte) => { completion x.frame st pl with addr := BitVec.ofNat 56 off }
  let cs := (chunks 4096 ((body.length + 4095) / 4096) body).zipIdx
  let s := cs.foldl (fun s y => s.toIssuer site x.id x.origin none { frame := fr (64 + 4096 * y.2) y.1 }) s
  s.toIssuer site x.id x.origin none { frame := fr 0 hdr }

/-- The result of a decode goes out with a status (R271, R273). -/
def State.finishDecode (s : State) (x : Decode) (st : BitVec 6) (out : List Byte) : State :=
  let spans := if st = stKvDropped then x.allSpans else []
  let s := if x.isSub then s
    else let s := s.countAtn 0; if st = stKvDropped then s.countAtn 1 else s
  let s := s.endDecode x
  if x.isSub then
    s.sendPart x st (attnHeader 4 x.splits.length spans.length false 0 0 0) (if st = stOk then out else spanBytes spans)
  else
    let sp := spans.take 504
    s.attnResult x.id x.origin x.frame st
      (attnHeader 1 x.splitCount sp.length (decide (504 < spans.length)) 0 0 0 ++
        (if st = stOk then (if x.ask.outPool then [] else out) else spanBytes sp))

/-- A split finishes its tiles (R268), once every load of its pages has been answered. -/
def execSplitComplete (decode : Nat) (split : Nat) (s : State) : Host.Outcome State Fault Refusal :=
  .next (match s.atn.decodes.find? (fun x => x.id == decode) with
    | none => s
    | some x => match x.splits[split]? with
      | none => s
      | some y =>
        let a := x.ask
        let lines := ((x.splitPages y).flatMap x.pageLoads ++ (if a.qPool then lineRuns 600 a.qTva ((2 * a.rows * x.d + 63) / 64) else [])).flatMap
          (fun z => (List.range z.2).map (z.1 / 64 + ·))
        if y.finished || !s.alive || lines.any (fun l => Table.read false x.asked l) || !x.probing.isEmpty then s
        else
          let r := if x.final = stOk then some (x.splitPartial y) else none
          s.putDecode { x with splits := setAt x.splits split { y with finished := true, result := r } })

/-- All partials of a decode are there: they are merged, the output is written to the pool under OUT_POOL, and the result is
sent (R269, R271). -/
def execDecodeComplete (decode : Nat) (s : State) : Host.Outcome State Fault Refusal :=
  .next (match s.atn.decodes.find? (fun x => x.id == decode) with
    | none => s
    | some x =>
      if !s.alive || !x.settled || x.outLeft != 0 then s
      else if let some st := x.ended then s.finishDecode x st []
      else
        let a := x.ask
        let st := x.final
        let rows := mergeAll a.rows x.d x.partials
        if st ≠ stOk then s.finishDecode x st []
        else if x.isSub then s.finishDecode x st (partialOut rows)
        else if a.outPool && !x.outSent then
          let out := finalOut a.outFp32 rows
          let runs := lineRuns 2000 a.outTva (out.length / 64)
          let x := { x with outSent := true, outLeft := runs.length }
          (runs.foldl (fun (p : State × List Byte) y =>
            (p.1.attnIssue x 0 (p.1.attnFrame x 0x12 y.1 y.2 (p.2.take (64 * y.2))), p.2.drop (64 * y.2))) (s.putDecode x, out)).1
        else s.finishDecode x st (finalOut a.outFp32 rows))

/-- A probe walk takes its next step, or gives its result to its decode (R272). -/
def execKvProbeComplete (walk : Nat) (s : State) : Host.Outcome State Fault Refusal :=
  .next (match s.xl.walks.find? (fun w => w.id == walk) with
    | none => s
    | some w =>
      if w.probe.isNone || !s.alive || !s.walkRuns w then s
      else match w.got with
        | some g => s.walkRead w g.1 g.2
        | none =>
          if s.req.reqs.any (fun r => r.origin == .walk w.id) then s
          else if (Table.read ({} : Root) s.xl.roots w.tenant.toNat).valid then (s.countTrn 0).readEntry w
          else s.endWalk w (.fail stNoTrans))

/-! ### ATN.PART (R267) -/

/-- The open ATN.SUB that an ATN.PART answers. -/
def State.subOf (s : State) (p : Nat) (tag : BitVec 13) : Option (Decode × Nat) :=
  s.atn.decodes.findSome? (fun x => (x.subs.findIdx? (fun y => y.port == s.base p && y.tag == tag && !y.finished && y.held.isNone)).map (fun i => (x, i)))

/-- An ATN.PART arrives: its bytes enter the reserved room, and its header unit completes the ATN.SUB. -/
def State.attnPart (s : State) (x : Decode) (i : Nat) (f : Frame) : State :=
  match x.subs[i]? with
  | none => s
  | some y =>
    let off := f.addr.toNat
    let y := { y with bytes := y.bytes.write off f.payload }
    if off ≠ 0 then s.putDecode { x with subs := setAt x.subs i y }
    else State.tagFree (p := y.port) <|
      let spans := if f.status = stKvDropped then
        (List.range (field f.payload 2 2)).map (fun k => (leNat (y.bytes.bytes (64 + 8 * k) 4), leNat (y.bytes.bytes (68 + 8 * k) 4))) else []
      s.putDecode { x with subs := setAt x.subs i { y with finished := true }, status := stMin x.status f.status,
                           spans := x.spans ++ spans }

/-- An open ATN.SUB ends with TARGET_DEAD (R267). -/
def State.subDead (s : State) (p : Nat → SubReq → Bool) : State :=
  { s with atn := { s.atn with decodes := s.atn.decodes.map (fun (x : Decode) =>
      if x.subs.any (fun y => !y.finished && p x.id y) then
        { x with status := stMin x.status stDead,
                 subs := x.subs.map (fun (y : SubReq) => if !y.finished && p x.id y then { y with finished := true } else y) }
      else x) } }

/-! ### Conditions that end decodes (Table 11-6) -/

/-- Decodes that `p` accepts end with a status: at once, or, where OUT_POOL writes are out, when those are performed (R101). -/
def State.endDecodes (s : State) (st : BitVec 6) (p : Decode → Bool) : State :=
  (s.atn.decodes.filter (fun x => p x && x.ended.isNone)).foldl (fun s x =>
    if x.outLeft = 0 then s.finishDecode x st [] else s.putDecode { x with ended := some st }) s

/-- Bound handles that `p` accepts go to RELEASING. -/
def State.releaseHandles (s : State) (p : Nat → Handle → Bool) : State :=
  { s with atn := { s.atn with handles := Table.mapAll {} (fun h x =>
      if x.state = .bound && p h x then { x with state := .releasing } else x) s.atn.handles } }

/-- The device leaves SERVICE. -/
def State.attnLeave (s : State) : State := (s.endDecodes stAborted (fun _ => true)).releaseHandles (fun _ _ => true)

/-- A tenant enters STOPPING. -/
def State.attnStopping (s : State) (t : Nat) : State :=
  (s.endDecodes stRetired (fun x => x.frame.tenant.toNat == t)).releaseHandles (fun _ x => x.tenant.toNat == t)

/-- A RELEASING handle without decodes is FREE again (R256). -/
def execHandleFreed (handle : BitVec 18) (s : State) : Host.Outcome State Fault Refusal :=
  .next (
    let x := s.handle handle.toNat
    if x.state = .releasing && x.inflight == 0 then s.onHandle handle.toNat (fun _ => {}) else s)

/-! ### Registers (R277) -/

/-- Address of an ATN_ register. -/
def atnAddr (off : Nat) : Nat := maddr 0 0 6 off

/-- A write of ATN_CMD: its result appears in ATN_CMD_RES before the write completes. -/
def State.atnCmd (s : State) (v : BitVec 64) : State × BitVec 6 :=
  let h := bits v.toNat 17 0
  let st := if bits v.toNat 19 18 = 1 ∧ (s.handle h).state ≠ .free then stOk else stDenied
  let s := { s with atn := { s.atn with cmdRes := st } }
  (if st = stOk then s.onHandle h (fun x => { x with state := .releasing }) else s, st)

/-- ATN_CMD RELEASE (R256). -/
def execAtnCmdRelease (tag : BitVec 16) (handle : BitVec 18) (s : State) : Host.Outcome State Fault Refusal :=
  let v := BitVec.ofNat 64 (2 ^ 18 + handle.toNat)
  .next (s.adkWr tag (atnAddr 0x010) v .operator (fun s => s.atnCmd v))

/-- The settings that a word of ATN_PV_CFG gives (Table 11-11). -/
def AtnPv.ofNat (n : Nat) : AtnPv :=
  { enable := bit n 63, adm := BitVec.ofNat 10 (bits n 62 53), first := BitVec.ofNat 7 (bits n 52 46),
    n := BitVec.ofNat 8 (bits n 45 38), splitMin := BitVec.ofNat 16 (bits n 31 16), maxSplits := BitVec.ofNat 8 (bits n 15 8),
    protect := bit n 0 }

/-- A write of ATN_PV_CFG (R255, R277). -/
def State.atnPvCfg (s : State) (v : BitVec 64) : State × BitVec 6 :=
  let pv := s.atn.pvSel.toNat
  let old : AtnPv := Table.read {} s.atn.pvs pv
  let x := AtnPv.ofNat v.toNat
  let runOf := fun (x : AtnPv) => (x.first.toNat, x.first.toNat + x.n.toNat)
  let range := decide (1 ≤ x.n.toNat) && decide (x.first.toNat + x.n.toNat ≤ 0x80) && decide (0x80 ≤ x.splitMin.toNat)
    && decide (x.splitMin.toNat ≤ 0x8000) && x.maxSplits != 0
  let clash := (List.range 64).any (fun q => q != pv && (Table.read ({} : AtnPv) s.atn.pvs q).enable &&
    overlaps (runOf x).1 (runOf x).2 (runOf (Table.read {} s.atn.pvs q)).1 (runOf (Table.read {} s.atn.pvs q)).2)
  let cls := (List.range x.n.toNat).map (x.first.toNat + ·)
  let bad := clash || cls.any (fun c => !serviceCluster s.comp.run c || (List.range 8).any (fun j => !coreUnder s.comp.run pv (8 * c + j)))
  let busy := s.atn.handles.any (fun e => e.2.held && decide ((runOf old).1 ≤ e.1 / 2048) && decide (e.1 / 2048 < (runOf old).2))
  let moves := x.enable != old.enable || x.adm != old.adm || x.first != old.first || x.n != old.n
  if !range || (x.enable && bad) || (busy && moves) then (s, stDenied)
  else ({ s with atn := { s.atn with pvs := Table.write {} s.atn.pvs pv x } }, stOk)

end Sys2Proof.Machine
end

