-- ==== Sys2Proof/Machine/Pool.lean ====
section
/-! DEFINITION. Extents, leases and the gatehouse (chapter 06), and the scrub of an extent (chapter 14). -/

namespace Sys2Proof.Machine

/-! ### Revocation (R135 to R139) -/

/-- Every directory entry of an extent, as line and entry. -/
def State.extentDir (s : State) (e : Nat) : List (Nat × DirEntry) :=
  s.coh.dir.filter (fun x => fpaExtent (64 * x.1) == e && fpaModule (64 * x.1) == s.moduleNo)

/-- An extent becomes FREE and keeps its slots (Table 06-5). -/
def State.freeExtent (s : State) (e : Nat) : State :=
  s.extTo e .free (fun x => { x with owner := 0xFFFF, lastTenant := x.tenant, lastValid := true, reclaim := false })

/-- Time that the copies of an extent's entry take to show its state: a free value of at most 4 µs (R137, log 44). -/
def spreadTime (n : Nat) : FT := (Config.freeWord n).toNat % (4 * usT + 1)

/-- A trigger of Table 06-6 meets an extent: the home checks show REVOKING at once, and every copy by `shownAt` (R137). -/
def State.revoke (s : State) (e trig : Nat) : State :=
  let x := s.extent e
  let lease := trig == 2 || trig == 3
  match x.state with
  | .active =>
    let d := s.draw
    let s := d.1.extTo e .revoking (fun x => { x with trigger := BitVec.ofNat 4 trig, drainAt := s.now + s.targetLimit, reclaim := lease,
                                                      shownAt := s.now + spreadTime d.2 })
    if x.coherent then (s.extentDir e).foldl (fun s y => s.backInvalidate y.1 (.revoke e)) s else s
  | .revoking => if lease then s.onExtent e (fun x => { x with reclaim := true }) else s
  | .drained => if lease then s.freeExtent e else s
  | _ => s

/-- A trigger meets every extent that `p` accepts. -/
def State.revokeAll (s : State) (trig : Nat) (p : Extent → Bool) : State :=
  ((s.ext.tab.filter (fun e => p e.2)).map (·.1)).foldl (fun s e => s.revoke e trig) s

/-- An extent becomes DRAINED, with its event, and is reclaimed after a lease expiry (R137, R139). -/
def State.drained (s : State) (e strag : Nat) : State :=
  let x := s.extent e
  let par := e + strag * 2 ^ 32
  let s := (s.extTo e .drained).logWith 0x4C x.trigger.toNat srcModule par 0x4C x.trigger.toNat par
  if x.reclaim then s.freeExtent e else s

/-- Every copy shows REVOKING, and the in-flight counts of the extent are zero (R137). -/
def execExtentDrained (index : BitVec 21) (s : State) : Host.Outcome State Fault Refusal :=
  .next (
    let e := index.toNat
    if s.alive && (s.extent e).state == .revoking && decide ((s.extent e).shownAt ≤ s.now) && s.inFlight e == 0 then s.drained e 0 else s)

/-- A store whose last line is on its way to its slot has been performed (R139); one that has still a line to perform has not (log 125). -/
def Req.performed (r : Req) : Bool := r.stage == .lineIo && r.left.isEmpty && writes r.frame.opcode

/-- The drain limit of a REVOKING extent is reached: its stragglers are completed, owned lines are poisoned, and it is DRAINED
(R139). DESIGN CHOICE (log 126): an entry in S whose back-invalidation is unanswered stays listed, and its snoop is dropped. -/
def execDrainLimitExpiry (index : BitVec 21) (s : State) : Host.Outcome State Fault Refusal :=
  .next (
    let e := index.toNat
    let x := s.extent e
    if !s.alive || x.state != .revoking || decide (s.now < x.drainAt) then s
    else
      let rs := s.req.reqs.filter (fun r => r.counted == some e)
      let s := rs.foldl (fun (s : State) r => match s.findReq r.n with
        | none => s
        | some r => if r.performed then s.finish r stOk r.back else s.finish r stRevoked) s
      let s := (rs.foldl (fun (s : State) _ => s.countExt 1) s).cutTray rs
      let s := ((s.extentDir e).filter (fun y => y.2.state == .o)).foldl (fun s y => (s.poisonLine y.1).setDir y.1 {}) s
      let s := { s with coh := { s.coh with snoops := s.coh.snoops.filter (fun (y : Snoop) =>
        !(fpaExtent (64 * y.line) == e && fpaModule (64 * y.line) == s.moduleNo)) } }
      (s.drained e rs.length).wakeStaged)

/-! ### Scrub (R337) -/

/-- Listed tier pages of an extent. -/
def State.extentPages (s : State) (e : Nat) : List (Nat × TierPage) := s.tier.pages.filter (fun p => p.1 / 512 == e)

/-- A SCRUB starts: T0 sectors go, moves end, and the slots of pages that are not FRESH are overwritten (R337). -/
def State.startScrub (s : State) (e : Nat) : State :=
  let ps := (s.extentPages e).map (·.1)
  let s := ps.foldl (fun s p => (s.dropPageSectors p).abortMove p) s
  let todo := (s.extentPages e).filter (fun p => !p.2.fresh && (p.2.res == 1 || p.2.res == 2))
  let d := s.draw
  let s := d.1.extTo e .scrubbing (fun x => { x with scrubLeft := todo.map (·.1), shownAt := s.now + spreadTime d.2 })
  todo.foldl (fun s p => if s.trayUp p.2.tray.toNat then s.scrubBlock p.1 0 else s) s

/-- Every slot of a SCRUBBING extent is overwritten: the slots are released and the extent is FREE (R160, R337). -/
def execExtentScrubComplete (index : BitVec 21) (s : State) : Host.Outcome State Fault Refusal :=
  .next (
    let e := index.toNat
    let x := s.extent e
    let left := x.scrubLeft.filter (fun p => (s.page p).res == 1 || (s.page p).res == 2)
    if !s.alive || x.state != .scrubbing || !left.isEmpty then s
    else
      let s := (s.extentPages e).foldl (fun s p =>
        let s := s.setPage p.1 {}
        if p.2.res = 1 ∨ p.2.res = 2 then s.releaseSlot p.1 p.2.tray.toNat p.2.slot.toNat true else s) s
      s.extTo e .free (fun x => { x with owner := 0xFFFF, lastValid := false, written := false, scrubLeft := [] }))

/-! ### EXT_CMD (R131, R134, R148) -/

/-- Address of an EXT_ register. -/
def extAddr (off : Nat) : Nat := maddr 0 0 2 off

/-- An OWNER that an ASSIGN or SETATTR may name (R131). -/
def State.ownerOk (s : State) (u : BitVec 16) : Bool :=
  u == 0xFFFF || (match unitOf s.comp.run u with | .port p => (s.link (s.base p)).cls == 0 | _ => false)

/-- Pages by which a record would exceed its reservation in a tier, moves under way counted, if `need` more resided there (R146). -/
def State.shortOf (s : State) (rec tier need : Nat) : Nat :=
  if need = 0 then 0 else s.recPages rec tier + s.movesInto rec tier + need - s.recResv rec tier

/-- The extent becomes ACTIVE: its slots are allocated unless it keeps them (R130, R134, R160). -/
def State.extGive (s : State) (e tier : Nat) (keeps : Bool) : State :=
  let a := s.ext
  let s := if keeps then s else (List.range 512).foldl (fun s i => (s.giveSlot (512 * e + i) tier).getD s) s
  s.extTo e .active (fun x => { x with
    tenant := a.argTenant, pv := a.argPv, dom := a.argDom, coherent := a.argAttr, share := a.argShare, kv := a.argKv,
    kvT2 := a.argKvT2, lastTenant := a.argTenant, adm := a.argAdm, owner := a.argOwner, reclaim := false })

/-- An ASSIGN (R130, R131, R134, R145, R160, R303, R327), with its status; no status says that it waits for room. A KV extent beyond
its record's reservation in the tier that TIER names has room made, by dropping alone (R146, R274): in the same row where every table
line that the procedure reads is at hand and no other procedure of the record is under way, else when the procedure has run (R275).
`again` says that it has run. -/
def State.extAssign (s : State) (e : Nat) (again : Bool) : State × Option (BitVec 6) :=
  let x := s.extent e
  let a := s.ext
  let ar := a.argAdm.toNat
  let adm := s.admRec ar
  let keeps := x.state == .drained || x.lastValid
  let stateOk := (x.state == .free && (!x.lastValid || x.lastTenant == a.argTenant)) || (x.state == .drained && x.tenant == a.argTenant)
  let tier := if a.argTier then 2 else 1
  let ps := s.extentPages e
  let n := fun (t : Nat) => if keeps then (ps.filter (fun p => p.2.res.toNat == t)).length else if t = tier then 512 else 0
  let short := s.shortOf ar tier (n tier)
  if !stateOk || a.argShare == 3 || !s.ownerOk a.argOwner || (s.tenant a.argTenant.toNat).state != .active
      || !adm.admitted || adm.tenant != a.argTenant || (homingPv s.comp.run a.argPv.toNat).isNone || s.isFenced 2 e
      || (!keeps && decide (s.tierFree tier < 512)) || s.shortOf ar (3 - tier) (n (3 - tier)) != 0 then (s, some stDenied)
  else if short = 0 then (s.extGive e tier keeps, some stOk)
  else if !a.argKv || again || decide (512 < short) then (s, some stDenied)
  else
    let x := if s.tier.makeRoom.any (fun y => y.1 == ar) then { s := s, missing := some (.fill 0) } else s.roomRun ar tier short false
    match x.missing with
    | none =>
      let s := x.s.roomLog ar tier x.freed
      if short ≤ x.freed then (s.extGive e tier keeps, some stOk) else (s, some stDenied)
    | some _ => ({ s with ext := { s.ext with waiting := true }
                          tier := { s.tier with makeRoom := s.tier.makeRoom ++ [(ar, BitVec.ofNat 2 tier, short, false)] } }, none)

/-- A SETATTR of OWNER, SHARE, KV and KV_T2 (R134). -/
def State.extSetattr (s : State) (e : Nat) : State × BitVec 6 :=
  let a := s.ext
  if (s.extent e).state != .active || a.argShare == 3 || !s.ownerOk a.argOwner || s.isFenced 2 e then (s, stDenied)
  else (s.onExtent e (fun x => { x with owner := a.argOwner, share := a.argShare, kv := a.argKv, kvT2 := a.argKvT2 }), stOk)

/-- A REVOKE by the FM (R134, R135). -/
def State.extRevoke (s : State) (e : Nat) : State × BitVec 6 :=
  match (s.extent e).state with
  | .active => (s.revoke e 1, stOk)
  | .revoking => (s, stOk)
  | .drained => (s, stOk)
  | _ => (s, stDenied)

/-- A RELEASE (R134). -/
def State.extRelease (s : State) (e : Nat) : State × BitVec 6 :=
  if (s.extent e).state = .drained then (s.freeExtent e, stOk) else (s, stDenied)

/-- A SCRUB (R134, R337). -/
def State.extScrub (s : State) (e : Nat) : State × BitVec 6 :=
  let x := s.extent e
  if x.state = .scrubbing then (s, stOk)
  else if x.state = .drained ∨ (x.state = .free ∧ x.lastValid = true) then (s.startScrub e, stOk)
  else (s, stDenied)

/-- EXT_CMD_STATUS.BUSY: the last REVOKE or SCRUB is still being applied to the homes and port dies (R148). -/
def State.extBusy (s : State) : Bool :=
  match s.ext.cmdExt with
  | some e => let x := s.extent e.toNat; (x.state == .revoking || x.state == .scrubbing) && decide (s.now < x.shownAt)
  | none => false

/-- The result of a command appears in EXT_CMD_STATUS (R148). -/
def State.extResult (s : State) (e : Nat) (st : BitVec 6) : State :=
  { s with ext := { s.ext with cmdSeq := s.ext.cmdSeq + 1, result := st, cmdState := (s.extent e).state } }

/-- One command of EXT_CMD, with its status; none says that it is an ASSIGN that waits for room. While BUSY is 1 no command is performed. -/
def State.extTry (s : State) (v : BitVec 64) : State × Option (BitVec 6) :=
  let e := bits v.toNat 24 4
  let mark := fun (x : State × BitVec 6) =>
    let t := x.1
    ((if (t.extent e).shownAt = (s.extent e).shownAt then t else { t with ext := { t.ext with cmdExt := some (BitVec.ofNat 21 e) } }), some x.2)
  if s.extBusy then (s, some stDenied)
  else
    let r := match bits v.toNat 3 0 with
      | 1 => s.extAssign e false
      | 2 => mark (s.extSetattr e)
      | 3 => mark (s.extRevoke e)
      | 4 => mark (s.extRelease e)
      | 5 => mark (s.extScrub e)
      | _ => (s, some stDenied)
    match r.2 with
    | some st => (r.1.extResult e st, some st)
    | none => (r.1, none)

/-- A write of EXT_CMD by a POLICY record, which waits for nothing: an ASSIGN that would wait for room is refused (log 31). -/
def State.extCmd (s : State) (v : BitVec 64) : State × BitVec 6 :=
  match s.extTry v with
  | (t, some st) => (t, st)
  | (_, none) => (s.extResult (bits v.toNat 24 4) stDenied, stDenied)

/-- Perform a WR of EXT_CMD: it is answered when its command has been performed (R148). -/
def State.extBody (q : AdkFrame) (v : BitVec 64) (s : State) : State :=
  match s.extTry v with
  | (t, some st) => t.adkReply q st q.addr []
  | (t, none) => { t with adk := { t.adk with outstanding := q :: t.adk.outstanding } }

/-- An EXT_CMD write of an operation on an index. -/
def State.extCmdWr (s : State) (tag : BitVec 16) (index : BitVec 21) (op : Nat) : State :=
  let v := BitVec.ofNat 64 (16 * index.toNat + op)
  let q := wrFrame tag (extAddr 0x008) v
  s.adkRequest q true (State.extBody q v)

/-- EXT_CMD ASSIGN. -/
def execExtAssign (tag : BitVec 16) (index : BitVec 21) (s : State) : Host.Outcome State Fault Refusal := .next (s.extCmdWr tag index 1)
/-- EXT_CMD SETATTR. -/
def execExtSetattr (tag : BitVec 16) (index : BitVec 21) (s : State) : Host.Outcome State Fault Refusal := .next (s.extCmdWr tag index 2)
/-- EXT_CMD REVOKE. -/
def execExtRevoke (tag : BitVec 16) (index : BitVec 21) (s : State) : Host.Outcome State Fault Refusal := .next (s.extCmdWr tag index 3)
/-- EXT_CMD RELEASE. -/
def execExtRelease (tag : BitVec 16) (index : BitVec 21) (s : State) : Host.Outcome State Fault Refusal := .next (s.extCmdWr tag index 4)
/-- EXT_CMD SCRUB. -/
def execExtScrub (tag : BitVec 16) (index : BitVec 21) (s : State) : Host.Outcome State Fault Refusal := .next (s.extCmdWr tag index 5)

/-! ### Leases (R140 to R144) -/

/-- Address of an LSE_ register. -/
def lseAddr (off : Nat) : Nat := maddr 2 0 2 off

/-- Encoding of a lease state (Table 06-8). -/
def LeaseState.code : LeaseState → Nat
  | .empty => 0 | .unarmed => 1 | .armed => 2 | .frozen => 3 | .expired => 4 | .handed => 5

/-- FT of an expiry one period from now. -/
def State.leaseEnd (s : State) (l : Lease) : FT := s.now + l.periodMs.toNat * msT

/-- A lease expires in SERVICE with trigger 0x2 or 0x3 (R143). -/
def State.expireLease (s : State) (i trig : Nat) : State :=
  let u := (s.lease i).unit
  let s := (s.onLease i (fun l => { l with state := .expired, expiry := 0 })).countLse 1
  let s := s.revokeAll trig (fun x => x.owner == u && (x.state == .active || x.state == .revoking || x.state == .drained))
  (s.memberDead u true).logWith 0x4D trig srcModule u.toNat 0x4D trig u.toNat

/-- The armed lease entry of a unit. -/
def State.leaseOf (s : State) (u : BitVec 16) : Option (Nat × Lease) :=
  s.lse.tab.find? (fun e => e.2.unit == u && e.2.state != .empty)

/-- An ARMED lease whose expiry FT has reached expires (R143). -/
def State.leaseEnds (s : State) (i : Nat) : State :=
  if (s.lease i).state = .armed ∧ (s.lease i).expiry ≤ s.now then s.expireLease i 2 else s

/-- A LEASE.RENEW of a unit that comes in this slot still waits: it is applied before the expiry (R48). -/
def State.renewalWaits (s : State) (u : BitVec 16) : Bool :=
  s.pending.any (fun c => match c with | .leaseRenew _ f => field f.payload 0 2 == u.toNat | _ => false)

/-- FT reaches the expiry of an ARMED lease (R143), in the turn of its class (R47). -/
def execLeaseExpiry (index : BitVec 12) (s : State) : Host.Outcome State Fault Refusal :=
  .next (
    let l := s.lease index.toNat
    if s.alive && s.inTurn 2 l.expiry && !(slotOf l.expiry == slotOf s.now && s.renewalWaits l.unit) then s.leaseEnds index.toNat else s)

/-- Leases are armed on entry to SERVICE (Table 06-8). -/
def State.armLeases (s : State) : State :=
  { s with lse := { s.lse with tab := Table.mapAll {} (fun _ l =>
      if l.state = .unarmed then { l with state := .armed, expiry := s.leaseEnd l } else l) s.lse.tab } }

/-- FT is LOST: armed leases freeze (R43). -/
def State.freezeLeases (s : State) : State :=
  { s with lse := { s.lse with tab := Table.mapAll {} (fun _ l =>
      if l.state = .armed then { l with state := .frozen } else l) s.lse.tab } }

/-- FT is LOCKED again: frozen leases are armed for a period from the corrected FT (R43). -/
def State.thawLeases (s : State) : State :=
  { s with lse := { s.lse with tab := Table.mapAll {} (fun _ l =>
      if l.state = .frozen then { l with state := .armed, expiry := s.leaseEnd l } else l) s.lse.tab } }

/-- A CREATE (R140, R141, R369). -/
def State.lseCreate (s : State) : State × BitVec 6 :=
  let i := s.lse.sel.toNat
  let l := s.lease i
  let p := if l.periodMs = 0 then s.lse.defaultMs else l.periodMs
  let fencedPort := match unitOf s.comp.run l.unit with | .port q => s.isFenced 1 q | _ => false
  if l.state != .empty || l.unit == 0xFFFF || decide (p.toNat < s.lse.minMs.toNat) || decide (s.lse.maxMs.toNat < p.toNat)
      || fencedPort || s.isFenced 6 i then (s, stDenied)
  else
    let l := { l with periodMs := p }
    let l := if s.mod.state = .service then
        { l with state := (if s.tim.state = .lost then .frozen else .armed), expiry := s.leaseEnd l }
      else { l with state := .unarmed, expiry := 0 }
    (s.onLease i (fun _ => l), stOk)

/-- A DELETE (R140). -/
def State.lseDelete (s : State) : State × BitVec 6 :=
  let i := s.lse.sel.toNat
  let l := s.lease i
  let owns := s.ext.tab.any (fun e => e.2.owner == l.unit && (e.2.state == .active || e.2.state == .revoking))
  if (l.state != .expired && l.state != .handed) || owns then (s, stDenied) else (s.onLease i (fun _ => {}), stOk)

/-- A HANDOFF (R140). -/
def State.lseHandoff (s : State) (u : BitVec 16) : State × BitVec 6 :=
  let i := s.lse.sel.toNat
  let l := s.lease i
  if l.state != .armed && l.state != .frozen then (s, stDenied)
  else (s.onLease i (fun l => { l with state := .handed, expiry := 0, handoff := u }), stOk)

/-- An EXPIRE (R140, R143). -/
def State.lseExpire (s : State) : State × BitVec 6 :=
  let i := s.lse.sel.toNat
  if (s.lease i).state != .armed && (s.lease i).state != .frozen then (s, stDenied) else (s.expireLease i 2, stOk)

/-- A write of LSE_CMD. -/
def State.lseCmd (s : State) (v : BitVec 64) : State × BitVec 6 :=
  let s := s.leaseEnds s.lse.sel.toNat
  match bits v.toNat 2 0 with
  | 1 => s.lseCreate
  | 2 => s.lseDelete
  | 3 => s.lseHandoff (BitVec.ofNat 16 (bits v.toNat 31 16))
  | 4 => s.lseExpire
  | _ => (s, stDenied)

/-- An LSE_CMD write of an operation. -/
def State.lseCmdWr (s : State) (tag : BitVec 16) (n : Nat) : State :=
  let v := BitVec.ofNat 64 n
  s.adkWr tag (lseAddr 0x020) v .operator (fun s => s.lseCmd v)

/-- LSE_CMD CREATE. -/
def execLseCreate (tag : BitVec 16) (s : State) : Host.Outcome State Fault Refusal := .next (s.lseCmdWr tag 1)
/-- LSE_CMD DELETE. -/
def execLseDelete (tag : BitVec 16) (s : State) : Host.Outcome State Fault Refusal := .next (s.lseCmdWr tag 2)
/-- LSE_CMD HANDOFF. -/
def execLseHandoff (tag : BitVec 16) (unit : BitVec 16) (s : State) : Host.Outcome State Fault Refusal :=
  .next (s.lseCmdWr tag (unit.toNat * 2 ^ 16 + 3))
/-- LSE_CMD EXPIRE. -/
def execLseExpire (tag : BitVec 16) (s : State) : Host.Outcome State Fault Refusal := .next (s.lseCmdWr tag 4)

/-- A write of LSE_ENTRY: PERIOD_MS and UNIT are writable only in EMPTY, and UNIT is unique in the table. -/
def State.lseEntry (s : State) (v : BitVec 64) : State × BitVec 6 :=
  let i := s.lse.sel.toNat
  let u := BitVec.ofNat 16 (bits v.toNat 15 0)
  if (s.lease i).state != .empty || (u != 0xFFFF && s.lse.tab.any (fun e => e.1 != i && e.2.unit == u)) then (s, stDenied)
  else (s.onLease i (fun l => { l with unit := u, periodMs := BitVec.ofNat 16 (bits v.toNat 31 16) }), stOk)

/-- A write of LSE_BOUNDS. -/
def State.lseBounds (s : State) (v : BitVec 64) : State × BitVec 6 :=
  let lo := bits v.toNat 15 0
  let hi := bits v.toNat 31 16
  let df := bits v.toNat 47 32
  if lo < 0x000A ∨ hi < lo ∨ 0xEA60 < hi ∨ df < lo ∨ hi < df then (s, stDenied)
  else ({ s with lse := { s.lse with minMs := BitVec.ofNat 16 lo, maxMs := BitVec.ofNat 16 hi, defaultMs := BitVec.ofNat 16 df } }, stOk)

/-- RESULT of a renewal (Table 06-10). -/
def LeaseState.renewal : LeaseState → Nat
  | .empty => 3 | .armed => 0 | .unarmed => 1 | .frozen => 2 | .expired => 4 | .handed => 5

/-- A LEASE.RENEW accepted on a port reaches SD1 and is answered with one LEASE.ACK (R141, R142). DESIGN CHOICE (log 128): with RESULT
0x03 PERIOD_MS is 0, for an EMPTY entry whose fields have been written too. -/
def State.leaseRenew (s : State) (p : Nat) (f : Frame) : State :=
  let b := f.payload
  let u := BitVec.ofNat 16 (field b 0 2)
  let s := match s.leaseOf u with | some x => if slotOf x.2.expiry < slotOf s.now then s.leaseEnds x.1 else s | none => s
  let e := s.leaseOf u
  let l : Lease := match e with | some x => x.2 | none => {}
  let res := l.state.renewal
  let l := if res = 0 then { l with expiry := s.leaseEnd l } else l
  let l := if res ≤ 2 then { l with rseq := BitVec.ofNat 16 (field b 2 2) } else l
  let s := match e with
    | some x => if res ≤ 2 then (s.onLease x.1 (fun _ => l)).countLse 0 else s
    | none => s
  let pl := leBytes 2 u.toNat ++ leBytes 2 (field b 2 2) ++ leBytes 1 res ++ leBytes 1 l.state.code ++
    leBytes 2 (if res = 5 then l.handoff.toNat else 0) ++ leBytes 8 (if res = 0 then l.expiry else 0) ++
    leBytes 2 (match e with | some _ => l.periodMs.toNat | none => 0) ++ fill 6 0 ++ leBytes 8 (field b 8 8) ++ fill 32 0
  s.sendFrom sd1Site p none { frame := answer f 0x62 6 stOk pl }

/-! ### The gatehouse (R145 to R147) -/

/-- Records that hold a reservation. -/
def State.admitted (s : State) : List (Nat × AdmRecord) := s.adm.recs.filter (fun e => e.2.admitted)

/-- The record of a tenant that is charged for a member of its pavilions: the one of the deepest pavilion, then the lowest number
(R147). -/
def State.chargedTo (s : State) (tenant : BitVec 10) (holds : Nat → Bool) : Option Nat :=
  let c := s.comp.run
  let ok := s.admitted.filter (fun e => e.2.tenant == tenant && (subtree c e.2.pv.toNat).any holds)
  let depth := fun (r : AdmRecord) => (ancestors c 64 r.pv.toNat).length
  (ok.foldl (fun (best : Option (Nat × AdmRecord)) e =>
    match best with
    | none => some e
    | some b => if depth b.2 < depth e.2 then some e else some b) none).map (·.1)

/-- Plots, and cores, charged to a record. -/
def State.plotUse (s : State) (r : Nat) : Nat :=
  ((List.range 8192).filter (fun n => s.chargedTo (s.admRec r).tenant (fun pv => pvHasPlot s.comp.run pv n) == some r)).length
def State.coreUse (s : State) (r : Nat) : Nat :=
  ((List.range 1024).filter (fun k => s.chargedTo (s.admRec r).tenant (fun pv => pvHasCore s.comp.run pv k) == some r)).length

/-- Sums of amounts, field by field. -/
def Amounts.add (a b : Amounts) : Amounts :=
  { plots := a.plots + b.plots, t1 := a.t1 + b.t1, t2 := a.t2 + b.t2, cores := a.cores + b.cores, coll := a.coll + b.coll,
    seq := a.seq + b.seq, bw := a.bw + b.bw }

/-- Job records of a tenant record. -/
def State.jobsOf (s : State) (r : Nat) : List (Nat × AdmRecord) :=
  s.admitted.filter (fun e => e.2.parentV && e.2.parent.toNat == r)

/-- What is charged to a record directly. -/
def State.directUse (s : State) (r : Nat) : Amounts :=
  { plots := s.plotUse r, t1 := (s.recPages r 1 + 511) / 512, t2 := (s.recPages r 2 + 511) / 512, cores := s.coreUse r,
    coll := s.collUse r, seq := s.seqUse r, bw := 0 }

/-- Reservations of the job records of a record. -/
def State.jobSum (s : State) (r : Nat) : Amounts := (s.jobsOf r).foldl (fun a e => a.add e.2.resv) {}

/-- Use of a record (R147). -/
def State.recUse (s : State) (r : Nat) : Amounts := (s.directUse r).add { s.jobSum r with bw := 0 }

/-- Device totals (Table 06-11). -/
def State.deviceTotal (s : State) : Amounts :=
  { plots := 8192 - 96 - ((List.range 8192).filter (slotPlot s.comp.run)).length, t1 := s.tierSlots 1 / 512, t2 := s.tierSlots 2 / 512,
    cores := 1024 - 32 * ((List.range 32).filter (fun i => s.pkg.absent.getLsbD i)).length, coll := 4096, seq := 262144, bw := 64 }

/-- Reservations of tenant records other than `r`. -/
def State.tenantSum (s : State) (r : Nat) : Amounts :=
  (s.admitted.filter (fun e => !e.2.parentV && e.1 != r)).foldl (fun a e => a.add e.2.resv) {}

/-- Ports of a record's pavilion subtree. -/
def State.recPorts (s : State) (pv : Nat) : List Nat := (List.range 256).filter (portUnder s.comp.run pv)

/-- Bandwidth that other records of the same level hold on a port. -/
def State.bwOn (s : State) (r : Nat) (parent : Option Nat) (p : Nat) : Nat :=
  ((s.admitted.filter (fun (e : Nat × AdmRecord) =>
    let up := if e.2.parentV then some e.2.parent.toNat else none
    e.1 != r && up == parent && portUnder s.comp.run e.2.pv.toNat p)).map (fun e => e.2.resv.bw)).sum

/-- Share of a port that a parent, or the device, offers. -/
def State.bwCap (s : State) (parent : Option Nat) (p : Nat) : Nat :=
  match parent with
  | none => 64
  | some q => if portUnder s.comp.run (s.admRec q).pv.toNat p then (s.admRec q).resv.bw else 0

/-- The first resource, in table order, that a request of a record does not fit; 0 when all fit (R145, R369). -/
def State.admFail (s : State) (r : Nat) (x : AdmRecord) : Nat :=
  let parent := if x.parentV then some x.parent.toNat else none
  let q := x.req
  let have_ := match parent with | none => s.deviceTotal | some p => (s.admRec p).resv
  let used := match parent with
    | none => s.tenantSum r
    | some p => (s.directUse p).add (((s.jobsOf p).filter (fun (e : Nat × AdmRecord) => e.1 != r)).foldl (fun (a : Amounts) (e : Nat × AdmRecord) => a.add e.2.resv) {})
  let c := s.comp.run
  let pvs := subtree c x.pv.toNat
  let fencedIdx := fun (kind : Nat) => (s.log.fenced.filter (fun e => e.1 / 2 ^ 24 == kind)).map (·.1 % 2 ^ 24)
  let plotF := (fencedIdx 4).any (fun n => pvs.any (fun pv => pvHasPlot c pv n))
  let coreF := (fencedIdx 3).any (fun k => pvs.any (fun pv => pvHasCore c pv k))
  let ports := s.recPorts x.pv.toNat
  if have_.plots < used.plots + q.plots || plotF then 1
  else if have_.t1 < used.t1 + q.t1 then 2
  else if have_.t2 < used.t2 + q.t2 then 3
  else if have_.cores < used.cores + q.cores || coreF then 4
  else if have_.coll < used.coll + q.coll then 5
  else if have_.seq < used.seq + q.seq then 6
  else if ports.any (fun p => decide (s.bwCap parent p < s.bwOn r parent p + q.bw) || s.isFenced 1 p) then 7
  else 0

/-- Some amount of a request lies below a use. -/
def Amounts.below (q u : Amounts) : Bool :=
  decide (q.plots < u.plots) || decide (q.t1 < u.t1) || decide (q.t2 < u.t2) || decide (q.cores < u.cores) || decide (q.coll < u.coll)
    || decide (q.seq < u.seq)

/-- A port without the meters of a record. -/
def Traffic.unbind (x : Traffic) (r : Nat) : Traffic :=
  { x with meters := x.meters.filter (fun e => !(e.2.valid && e.2.adm.toNat == r)) }

/-- Unbind every meter of a record (R289). -/
def State.unbindMeters (s : State) (r : Nat) : State :=
  { s with ports := Table.mapAll {} (fun _ x => { link := x.link, tc := x.tc.unbind r }) s.ports }

/-- Bind one full meter of a tenant record on each port of its subtree (R289). -/
def State.bindMeters (s : State) (r : Nat) : State :=
  let x := s.admRec r
  let s := s.unbindMeters r
  if x.parentV || !x.admitted || x.resv.bw == 0 then s
  else (s.recPorts x.pv.toNat).foldl (fun s p =>
    let free := (List.range 64).find? (fun i => !(Table.read ({} : Meter) (s.port p).tc.meters i).valid)
    match free with
    | none => s
    | some i =>
      let m : Meter := { valid := true, adm := BitVec.ofNat 10 r, bw := BitVec.ofNat 7 x.resv.bw, tokens := 65536 * 65536, since := s.now }
      s.onTc p (fun t => { t with meters := Table.write {} t.meters i m })) s

/-- A job record's parent is a tenant record of the same tenant that holds a reservation. -/
def State.parentOk (s : State) (x : AdmRecord) : Bool :=
  !x.parentV || ((s.admRec x.parent.toNat).admitted && !(s.admRec x.parent.toNat).parentV && (s.admRec x.parent.toNat).tenant == x.tenant)

/-- The FAIL code of an admission command on a record (Table 06-19). DESIGN CHOICE (log 129): of several codes that apply the spec orders the
resources only; here 0xA comes first, then 0xB, 0x8, the resources in table order, and 0x9. -/
def State.admCode (s : State) (op r : Nat) : Nat :=
  let x := s.admRec r
  match op with
  | 1 => if x.admitted then 0xA else if (s.tenant x.tenant.toNat).state != .active then 0xB
         else if !s.parentOk x then 8 else s.admFail r x
  | 2 => if !x.admitted then 0xA else if !s.parentOk x then 8
         else if s.admFail r x != 0 then s.admFail r x else if x.req.below (s.recUse r) then 9 else 0
  | _ => if !x.admitted then 0xA else if !decide (s.recUse r = ({} : Amounts)) || !(s.jobsOf r).isEmpty then 9 else 0

/-- A write of EXT_ADM_CMD (R145, R147, R148). -/
def State.admCmd (s : State) (v : BitVec 64) : State × BitVec 6 :=
  let r := s.adm.sel.toNat
  let op := bits v.toNat 1 0
  let fail := if op = 0 then 0 else s.admCode op r
  let ok := decide (op ≠ 0) && decide (fail = 0)
  let st := if ok then stOk else stDenied
  let s := { s with adm := { s.adm with result := st, fail := BitVec.ofNat 4 fail } }
  if !ok then (s, st)
  else if op = 3 then ((s.onAdm r (fun x => { x with admitted := false, resv := {} })).unbindMeters r, st)
  else ((s.onAdm r (fun x => { x with admitted := true, resv := x.req })).bindMeters r, st)

/-- An EXT_ADM_CMD write of an operation. -/
def State.admCmdWr (s : State) (tag : BitVec 16) (op : Nat) : State :=
  let v := BitVec.ofNat 64 op
  s.adkWr tag (extAddr 0x110) v .operator (fun s => s.admCmd v)

/-- EXT_ADM_CMD ADMIT. -/
def execAdmAdmit (tag : BitVec 16) (s : State) : Host.Outcome State Fault Refusal := .next (s.admCmdWr tag 1)
/-- EXT_ADM_CMD RESIZE. -/
def execAdmResize (tag : BitVec 16) (s : State) : Host.Outcome State Fault Refusal := .next (s.admCmdWr tag 2)
/-- EXT_ADM_CMD RELEASE. -/
def execAdmRelease (tag : BitVec 16) (s : State) : Host.Outcome State Fault Refusal := .next (s.admCmdWr tag 3)

end Sys2Proof.Machine
end

