-- ==== Sys2Proof/Machine/Tiers.lean ====
section
/-! DEFINITION. Migration, tray and tier-page commands, CXL devices, invalidation and page-table access: the TRN_ page
(chapter 07). -/

namespace Sys2Proof.Machine

/-- Management address of a TRN_ register (Table 17-8). -/
def trnAddr (off : Nat) : Nat := maddr 0 0 3 off

/-- Set TRN_CMD_RESULT (R177). -/
def State.trnResult (s : State) (st : BitVec 6) : State := { s with xl := { s.xl with cmdResult := st } }
/-- The end of a TRN_ command: its code appears in TRN_CMD_RESULT and in the answer (R177). -/
def State.trnDone (s : State) (st : BitVec 6) : State × BitVec 6 := (s.trnResult st, st)

/-! ### Heat and moves (R161 to R167) -/

/-- A grid point of the heat decay (R47, R161). -/
def State.heatDue (s : State) : Bool := s.periodDue 4 && s.inTurn 4 (s.periodAt 4)

/-- Discard the heat-driven moves that have not started (R163). -/
def State.dropQueued (s : State) : State :=
  { s with tier := { s.tier with moves := s.tier.moves.filter (fun (m : Move) => m.directed || m.dst.isSome) } }

/-- Halve every HEAT (R161). -/
def State.halveHeat (s : State) : State :=
  { s with tier := { s.tier with pages := Table.mapAll {} (fun _ (p : TierPage) => { p with heat := p.heat >>> 1 }) s.tier.pages } }

/-- A heat-decay event (class 0x4): queued moves are decided again, then HEAT is halved (R161, R163). -/
def execHeatDecay (s : State) : Host.Outcome State Fault Refusal :=
  .next (if s.alive && s.heatDue then
      let s : State := { (s.paid 4) with tim := { (s.paid 4).tim with lastHeat := s.now } }
      let s := s.dropQueued
      ((s.tier.pages.map (·.1)).foldl (fun s p => s.decidePage p) s).halveHeat
    else s)

/-- Rank of a move by kind: directed, promotion, demotion (R163). -/
def Move.rank (m : Move) : Nat := if m.directed then 0 else if m.want = 1 then 1 else 2

/-- One queued move starts before another (R163): directed moves first, then promotions by falling heat, then demotions by
rising heat. -/
def State.moveBefore (s : State) (a b : Move) : Bool :=
  let h := fun (m : Move) => (s.page m.page).heat.toNat
  decide (a.rank < b.rank) || (a.rank == b.rank &&
    (if a.rank = 1 then decide (h b < h a) else if a.rank = 2 then decide (h a < h b) else false))

/-- Free slots that a move may take: within a tier it goes to another tray (R158). -/
def State.moveRoom (s : State) (m : Move) : Bool :=
  let p := s.page m.page
  let own := if p.res = m.want ∧ (s.tray p.tray.toNat).state = .online ∧ (s.tray p.tray.toNat).evacuating = false
    ∧ s.isFenced 5 p.tray.toNat = false then (s.tray p.tray.toNat).freeSlots else 0
  decide (own < s.tierFree m.want.toNat)

/-- Moves in progress that bring pages of a record into a tier. -/
def State.movesRunningInto (s : State) (ar tier : Nat) : Nat :=
  (s.tier.moves.filter (fun (m : Move) => m.dst.isSome && m.want.toNat == tier && (s.page m.page).res != m.want
    && (s.pageExtent m.page).adm.toNat == ar)).length

/-- A queued move can start now (R162 to R164, R166, R167): a heat-driven one while its page is not pinned and its record's reservation
holds one page more (R146). -/
def State.movable (s : State) (m : Move) : Bool :=
  let p := s.page m.page
  let e := s.pageExtent m.page
  m.dst.isNone && !p.moving && (p.res == 1 || p.res == 2) && s.trayUp p.tray.toNat && s.moveRoom m
    && (match m.after with | none => true | some q => !s.tier.moves.any (fun (x : Move) => x.page == q))
    && (m.directed || (s.mod.state == .service && s.tier.migOn && e.state == .active && !s.coldPv e.pv.toNat && p.pin == 0
      && decide (s.recPages e.adm.toNat m.want.toNat + s.movesRunningInto e.adm.toNat m.want.toNat + 1 ≤ s.recResv e.adm.toNat m.want.toNat)))

/-- The move of a page starts, in the order of R163, while fewer than MAX_MOVES are in progress. -/
def execMoveStart (page : BitVec 30) (s : State) : Host.Outcome State Fault Refusal :=
  .next (match s.tier.moves.find? (fun (m : Move) => m.page == page.toNat) with
    | none => s
    | some m =>
      if s.alive && s.movable m && decide (s.movesRunning < s.tier.maxMoves.toNat)
          && !s.tier.moves.any (fun (x : Move) => s.movable x && s.moveBefore x m) then s.beginMove m
      else s)

/-- A page that has arrived on a tray under evacuation moves on (R158). -/
def State.moveOn (s : State) (page : Nat) : State :=
  let p := s.page page
  if (s.tray p.tray.toNat).evacuating then s.queueMove { page := page, want := p.res, directed := true } else s

/-- The copy of a page has ended: it resides at its destination, and held write-backs go there (R166 steps 4 and 5, R164). -/
def execMoveComplete (page : BitVec 30) (s : State) : Host.Outcome State Fault Refusal :=
  .next (match s.tier.moves.find? (fun (m : Move) => m.page == page.toNat) with
    | none => s
    | some m => match m.dst with
      | none => s
      | some (t, sl) =>
        if s.alive && decide (1024 ≤ m.copied) && s.pageQuiet m.page then
          ((s.endMove m t sl).moveOn m.page).wake (fun r => r.stage.waiting && fpaPage r.fpa.toNat == m.page)
        else s)

/-- A pavilion becomes warm (R162). -/
def execPavilionWarm (pv : BitVec 6) (s : State) : Host.Outcome State Fault Refusal :=
  .next (
    let w := Table.read {} s.tier.warm pv.toNat
    if decide (2 ^ s.tier.warmLog2.toNat ≤ w.count) || decide (w.since + s.tier.warmMs.toNat * msT ≤ s.now) then
      { s with tier := { s.tier with warm := Table.write {} s.tier.warm pv.toNat { w with warm := true } } }
    else s)

/-! ### Tier-page commands (R158, R164) -/

/-- A move to a page's pinned tier would exceed the record's reservation there, or finds no free slot (R164). -/
def State.pinRefused (s : State) (page tier : Nat) : Bool :=
  let e := s.pageExtent page
  s.tierFree tier == 0
    || (e.state == .active && decide (s.recResv e.adm.toNat tier < s.recPages e.adm.toNat tier + s.movesInto e.adm.toNat tier + 1))

/-- Queued moves of a page that would take it to another tier by heat or by an earlier pin. -/
def State.dropTierMoves (s : State) (page : Nat) : State :=
  { s with tier := { s.tier with moves := s.tier.moves.filter (fun (m : Move) =>
      !(m.page == page && m.dst.isNone && m.forRoom.isNone && m.want != (s.page page).res)) } }

/-- SETPIN (R164): it takes the place of an earlier pin and of a queued heat-driven move. A page of an extent that is not backed has no
entry: DENIED (log 23). -/
def State.setPin (s : State) (page : Nat) (pin : BitVec 2) : State × BitVec 6 :=
  let p := s.page page
  let t := s.dropTierMoves page
  if (s.pageExtent page).state = .absent then s.trnDone stDenied
  else if p.moving then (s.onPage page (fun p => { p with pinNext := some pin })).trnDone stOk
  else if (pin = 1 ∨ pin = 2) ∧ (p.res = 1 ∨ p.res = 2) ∧ p.res ≠ pin then
    if t.pinRefused page pin.toNat then s.trnDone stDenied
    else
      let t := { t with tier := { t.tier with moves := t.tier.moves.filter (fun (m : Move) => m.page != page) } }
      ((t.onPage page (fun p => { p with pin := pin })).queueMove { page := page, want := pin, directed := true }).trnDone stOk
  else (t.onPage page (fun p => { p with pin := pin })).trnDone stOk

/-- RELOCATE of a LOST page: a slot in the tier that the retired tray served, with HEAT 0, written block by block (R158, R161). -/
def State.relocate (s : State) (page : Nat) : State × BitVec 6 :=
  let p := s.page page
  let tier := p.lostTier
  if p.res ≠ 3 ∨ s.tier.moves.any (fun (m : Move) => m.page == page) = true then s.trnDone stDenied
  else match s.allocSlot tier.toNat with
    | none => s.trnDone stDenied
    | some (s, t, sl) =>
      let m : Move := { page := page, want := tier, directed := true, dst := some (t, sl) }
      ((({ s with tier := { s.tier with moves := s.tier.moves ++ [m] } } : State).onPage page (fun x => { x with heat := 0 })).relocBlock page 0).trnDone stOk

/-- A write of TRN_TP_CMD (Table 07-15). -/
def State.tpCmd (s : State) (v : BitVec 64) : State × BitVec 6 :=
  match bits v.toNat 3 0 with
  | 1 => s.setPin s.tier.tpSel.toNat (BitVec.ofNat 2 (bits v.toNat 5 4))
  | 2 => s.relocate s.tier.tpSel.toNat
  | _ => s.trnDone stDenied

/-- TRN_TP_CMD SETPIN. -/
def execTpSetpin (tag : BitVec 16) (pin : BitVec 2) (s : State) : Host.Outcome State Fault Refusal :=
  .next (s.adkWr tag (trnAddr 0x068) (BitVec.ofNat 64 (1 + 16 * pin.toNat)) .operator
    (fun s => s.tpCmd (BitVec.ofNat 64 (1 + 16 * pin.toNat))))

/-- TRN_TP_CMD RELOCATE. -/
def execTpRelocate (tag : BitVec 16) (s : State) : Host.Outcome State Fault Refusal :=
  .next (s.adkWr tag (trnAddr 0x068) 2 .operator (fun s => s.tpCmd 2))

/-! ### Tray commands (R156, R158) -/

/-- Pages with a slot on a tray. -/
def State.pagesOn (s : State) (t : Nat) : List Nat :=
  (s.tier.pages.filter (fun e => e.2.tray.toNat == t && (e.2.res == 1 || e.2.res == 2))).map (·.1)

/-- EVACUATE: every page of the tray is queued to another ONLINE tray of its tier (R158). -/
def State.evacuate (s : State) (t : Nat) : State × BitVec 6 :=
  let x := s.tray t
  let marked := s.onTray t (fun x => { x with evacuating := true })
  let ps := s.pagesOn t
  if x.state ≠ .online ∨ marked.tierFree x.tier.toNat < ps.length then s.trnDone stDenied
  else
    let run := (s.tier.moves.filter (fun (m : Move) => m.dst.isSome)).map (·.page)
    let go := ps.filter (fun p => !run.contains p)
    let m := marked.tier.moves.filter (fun (m : Move) => !go.contains m.page)
    let s : State := { marked with tier := { marked.tier with moves := m } }
    (go.foldl (fun s p => s.queueMove { page := p, want := (s.page p).res, directed := true }) s).trnDone stOk

/-- RETIRE (Table 07-4): a tray that is ONLINE or UNREACHABLE. -/
def State.retireTray (s : State) (t : Nat) : State × BitVec 6 :=
  if (s.tray t).state = .online ∨ (s.tray t).state = .unreachable then (s.trayRetired t).trnDone stOk else s.trnDone stDenied

/-- SANITIZE is issued to a RETIRED CXL tray that no LOST page names (Table 07-16). -/
def State.sanitizeTray (s : State) (t : Nat) : State × BitVec 6 :=
  let lost := s.tier.pages.any (fun e => e.2.tray.toNat == t && e.2.res == 3)
  s.trnDone (if 256 ≤ t ∧ t < 272 ∧ (s.tray t).state = .retired ∧ lost = false then stOk else stDenied)

/-- A write of TRN_TRAY_CMD (Table 07-16). -/
def State.trayCmd (s : State) (v : BitVec 64) : State × BitVec 6 :=
  let t := s.tier.traySel.toNat
  match bits v.toNat 3 0 with
  | 1 => s.evacuate t
  | 2 => s.retireTray t
  | 3 => s.sanitizeTray t
  | _ => s.trnDone stDenied

/-- A TRN_TRAY_CMD write. -/
def State.trayCmdWr (s : State) (tag : BitVec 16) (v : BitVec 64) : State :=
  s.adkWr tag (trnAddr 0x080) v .operator (fun s => s.trayCmd v)

/-- TRN_TRAY_CMD RETIRE. -/
def execTrayRetire (tag : BitVec 16) (s : State) : Host.Outcome State Fault Refusal := .next (s.trayCmdWr tag 2)
/-- TRN_TRAY_CMD EVACUATE. -/
def execTrayEvacuate (tag : BitVec 16) (s : State) : Host.Outcome State Fault Refusal := .next (s.trayCmdWr tag 1)
/-- TRN_TRAY_CMD SANITIZE. -/
def execTraySanitize (tag : BitVec 16) (s : State) : Host.Outcome State Fault Refusal := .next (s.trayCmdWr tag 3)

/-- Every page has left an evacuated tray, and none is on its way to it: RETIRED, with no page LOST (R158). -/
def execEvacuateComplete (tray : BitVec 9) (s : State) : Host.Outcome State Fault Refusal :=
  .next (
    let t := tray.toNat
    if (s.tray t).evacuating && (s.tray t).state == .online && (s.pagesOn t).isEmpty
        && !s.tier.moves.any (fun (m : Move) => (m.dst.map (·.1)) == some t) then s.trayRetired t
    else s)

/-- A failed retired-bitmap write is repeated every millisecond while the port stays OPEN (R154, R332). -/
def execBitmapRetryTimer (port : BitVec 8) (s : State) : Host.Outcome State Fault Refusal :=
  .next (match (s.tray port.toNat).retryAt with
    | some at_ =>
      if s.alive && decide (at_ ≤ s.now) && (s.link (s.base port.toNat)).state == .opened then s.writeBitmap port.toNat else s
    | none => s)

/-! ### CXL devices (R156, R157) -/

/-- A bridge link has become active (R156 to R158): a device outside Table 07-3 is left down, with an event; a known one
returns; another is discovered in the tier of its T2_SEL bit. -/
def State.bridgeUp (s : State) (b : Nat) (dev : CxlDevice) : State :=
  let t := 256 + b
  if !dev.ok then (s.onTray t (fun x => { x with linkUp := false })).event 0x50 (s.tray t).state.code (srcB b) t
  else
    let s := s.onTray t (fun x => { x with linkUp := true })
    let x := s.tray t
    let fresh := fun (s : State) =>
      s.discovered t (if s.tier.t2Sel.getLsbD b then 2 else 1) (512 * (dev.capacity / 2 ^ 30)) dev.serial
    match x.state with
    | .unreachable => if x.ident = dev.serial then (s.trayTo t .online).trayBack t else fresh (s.trayRetired t)
    | .online => s
    | _ => fresh s

/-- A bridge link becomes active. -/
def execBridgeLinkActive (b : BitVec 4) (dev : CxlDevice) (s : State) : Host.Outcome State Fault Refusal :=
  .next (if s.alive && s.mod.perst.getLsbD b.toNat == false then s.bridgeUp b.toNat dev else s)

/-- A bridge link goes down: its tray becomes UNREACHABLE (R158). -/
def execBridgeLinkDown (b : BitVec 4) (s : State) : Host.Outcome State Fault Refusal :=
  .next ((s.onTray (256 + b.toNat) (fun x => { x with linkUp := false })).trayGone (256 + b.toNat))

/-- Tenant of the lines that a tray operation carries: that of the extent, or 0. -/
def State.trayOpTenant (s : State) : TrayOp → BitVec 10
  | .fill b => (s.blockExtent b).tenant
  | .readLine _ line => (s.blockExtent (line / 32)).tenant
  | _ => 0

/-- A CXL transaction completes: lines of a fill with their poison, or the end of a write (R157). -/
def execCxlCompletion (b : BitVec 4) (tag : BitVec 13) (data : List Byte) (poison : BitVec 32) (s : State) :
    Host.Outcome State Fault Refusal :=
  .next (match s.trayReqOf (256 + b.toNat) tag with
    | none => s
    | some q => if s.alive then s.trayAnswer q stOk (s.trayOpTenant q.op) poison data else s)

/-- CTO_MS expires: the port logs it and resets its link, and the tray becomes UNREACHABLE (R157, R416). -/
def execCxlCompletionTimeout (b : BitVec 4) (tag : BitVec 13) (s : State) : Host.Outcome State Fault Refusal :=
  .next (match s.trayReqOf (256 + b.toNat) tag with
    | none => s
    | some q =>
      if s.alive && decide (q.timer ≤ s.now) then
        let s := s.logE 0x08 0 (srcB b.toNat) q.tag.toNat true
        let s : State := { s with mod := { s.mod with
          perst := s.mod.perst ||| ((1 : BitVec 16) <<< b.toNat), perstTo := Table.write 0 s.mod.perstTo b.toNat (s.now + 100 * msT) } }
        (s.onTray (256 + b.toNat) (fun x => { x with linkUp := false })).trayGone (256 + b.toNat)
      else s)

/-- A line of a CXL device with a media event: the entry names its tier page, and the line is poisoned if it is in T0 (R157).
A line of a slot that no page holds names none. -/
def State.mediaLine (s : State) (b : Nat) (line : Nat) : State :=
  match s.tier.pages.find? (fun e => e.2.tray.toNat == 256 + b && (e.2.res == 1 || e.2.res == 2) && e.2.slot.toNat == line / 32768) with
  | none => s
  | some e =>
    let s := s.logE 0x0A 0 (srcB b) e.1 true
    let l := 32768 * e.1 + line % 32768
    if s.lineValid l then s.poisonLine l else s

/-- A CXL device signals an event, and the bridge die reads its media records (R157). -/
def execCxlMediaEvent (b : BitVec 4) (lines : List (BitVec 46)) (s : State) : Host.Outcome State Fault Refusal :=
  .next (if s.alive && (s.tray (256 + b.toNat)).linkUp then lines.foldl (fun s l => s.mediaLine b.toNat l.toNat) s else s)

/-! ### Invalidation (R175) -/

/-- Writing 1 to TRN_INV_CMD.GO: the scope leaves every cache, and the requests translated with it are awaited. -/
def State.invGo (s : State) (v : BitVec 64) : State × BitVec 6 :=
  if v.getLsbD 0 = false then (s, stOk)
  else if s.xl.invBusy then (s, stDenied)
  else
    let t := if s.xl.invAll then none else some s.xl.invTenant
    let whole := s.xl.invAll || s.xl.invPages == 0
    let lo := if whole then 0 else s.xl.invBase.toNat * 16384
    let hi := if whole then 2 ^ 56 else lo + s.xl.invPages.toNat * 16384
    let w := s.translatedIn t lo hi
    ({ s with xl := { s.xl with invBusy := true, invWaits := w } }.purge t lo hi, stOk)

/-- TRN_INV_CMD.GO. -/
def execTrnInvGo (tag : BitVec 16) (s : State) : Host.Outcome State Fault Refusal :=
  .next (s.adkWr tag (trnAddr 0x020) 1 .operator (fun s => s.invGo 1))

/-- Every request translated with a removed entry is performed or complete: BUSY clears (R175). -/
def execInvalidationComplete (s : State) : Host.Outcome State Fault Refusal :=
  .next (if s.xl.invBusy && s.xl.invWaits.all (fun n => (s.findReq n).isNone) then
      { s with xl := { s.xl with invBusy := false, invWaits := [], invSeq := s.xl.invSeq + 1 } }
    else s)

/-! ### Page-table access (R176) -/

/-- Tenant context that holds an extent, or held it last (R343). -/
def Extent.holder (e : Extent) : Option (BitVec 10) :=
  if e.state = .active ∨ e.state = .revoking ∨ e.state = .drained then some e.tenant
  else if e.lastValid then some e.lastTenant else none

/-- A debug access is logged and counted before it is performed (R343): by SEC_DBG, or by TRN_PTW_DATA to a line that a
tenant holds or held. -/
def State.debugNote (s : State) (sec : Bool) (a : Nat) (write : Bool) : State :=
  let h := (s.extent (fpaExtent a)).holder
  if !sec && h.isNone then s
  else
    let sr := match h with | some t => srcTC t.toNat | none => srcModule
    let s := s.logE 0x15 (if write then 2 else 1) sr (a / 64 * 64 + 2 ^ 64 * (if sec then 1 else 2)) false
    let s := s.countSec 0
    match h with
    | some t => s.onTenant t.toNat (fun x => { x with dbg := x.dbg + 1 })
    | none => s

/-- A home access that bypasses translation and the extent checks: DENIED at once at another module's address or in an ABSENT
extent, else a request of a non-caching agent at its home (R176, R343). True when it waits for its answer. -/
def State.homeAccess (s : State) (o : Origin) (a : Nat) (write : Option Nat) : State × Bool :=
  let e := s.extent (fpaExtent a)
  if fpaModule a ≠ s.moduleNo ∨ e.state = .absent then (s, false)
  else
    let sec := match o with | .debug _ => true | _ => false
    let s := s.debugNote sec a write.isSome
    let line := a / 64 * 64
    let off := a % 64
    let f : Frame := match write with
      | none => { opcode := if sec && e.coherent then 0x11 else 0x10, dst := s.selfUnit, src := s.selfUnit, vc := 0, tenant := e.tenant, epoch := s.comp.epoch,
                  addr := BitVec.ofNat 56 line, length := 1, tag := 0, status := stOk, flags := flPhys, payload := [] }
      | some v => { opcode := 0x14, dst := s.selfUnit, src := s.selfUnit, vc := 0, tenant := e.tenant, epoch := s.comp.epoch,
                    addr := BitVec.ofNat 56 line, length := 1, tag := 0, status := stOk, flags := flPhys,
                    payload := splice (fill 64 0) off (leBytes 8 v) ++ leBytes 8 (255 * 2 ^ off) }
    let n := s.req.nextN
    let t := s.targetTimer 0
    let r : Req := { n := n, origin := o, frame := f, stage := .filling, fpa := BitVec.ofNat 56 line, tva := BitVec.ofNat 56 line, timer := t, backstop := t, at_ := s.now }
    let s := (s.addReq r).serve n
    match s.findReq n with
    | some q => if q.stage.waiting && s.deadTray q then (s.finish q stDead, true) else (s, true)
    | none => (s, true)

/-- Start a TRN_PTW_DATA access; later requests of the adapter wait for it (R176, R395, R396). -/
def State.ptwStart (s : State) (q : AdkFrame) (write : Option (BitVec 64)) : State :=
  let a := 8 * s.xl.ptwAddr.toNat
  let r := s.homeAccess (.ptw q.tag write.isSome) a (write.map (·.toNat))
  if r.2 then { r.1 with adk := { r.1.adk with outstanding := q :: r.1.adk.outstanding } }
  else (s.trnResult stDenied).adkFail q stDenied

/-- A read of TRN_PTW_DATA. -/
def execPtwRead (tag : BitVec 16) (s : State) : Host.Outcome State Fault Refusal :=
  let q : AdkFrame := { ty := 0x01, status := 0, tag := tag, addr := BitVec.ofNat 48 (trnAddr 0x038), len := 1, words := [] }
  .next (s.adkRequest q true (fun s => s.ptwStart q none))

/-- A write of TRN_PTW_DATA. -/
def execPtwWrite (tag : BitVec 16) (value : BitVec 64) (s : State) : Host.Outcome State Fault Refusal :=
  let q := wrFrame tag (trnAddr 0x038) value
  .next (s.adkRequest q true (fun s => s.ptwStart q (some value)))

/-! ### Registers of the TRN_ page with limits (R177) -/

/-- A write of TRN_ROOT. -/
def State.trnRoot (s : State) (v : BitVec 64) : State × BitVec 6 :=
  let r : Root := { root := BitVec.ofNat 40 (bits v.toNat 55 16), valid := v.getLsbD 0 }
  ({ s with xl := { s.xl with roots := Table.write {} s.xl.roots s.xl.rootSel.toNat r } }, stOk)

/-- A write of TRN_MIG_CFG: DENIED outside a field's range. -/
def State.trnMigCfg (s : State) (v : BitVec 64) : State × BitVec 6 :=
  let decay := bits v.toNat 63 48
  let pro := bits v.toNat 47 40
  let dem := bits v.toNat 39 32
  let mv := bits v.toNat 31 16
  let low := bits v.toNat 15 8
  if decay < 1 ∨ 0x2710 < decay ∨ pro < 1 ∨ pro ≤ dem ∨ mv < 1 ∨ 0x400 < mv ∨ 0x32 < low then (s, stDenied)
  else
    let s := if decay = s.tier.decayMs.toNat then s else s.owing 4
    ({ s with tier := { s.tier with decayMs := BitVec.ofNat 16 decay, promoteTh := BitVec.ofNat 8 pro, demoteTh := BitVec.ofNat 8 dem,
                                       maxMoves := BitVec.ofNat 16 mv, t1LowPct := BitVec.ofNat 8 low, migOn := v.getLsbD 0 } }, stOk)

/-- A write of TRN_MIG_WARM: DENIED outside a field's range. -/
def State.trnMigWarm (s : State) (v : BitVec 64) : State × BitVec 6 :=
  let ms := bits v.toNat 47 32
  let lg := bits v.toNat 4 0
  if 0x2710 < ms ∨ lg < 0x10 then (s, stDenied)
  else ({ s with tier := { s.tier with warmMs := BitVec.ofNat 16 ms, warmLog2 := BitVec.ofNat 5 lg } }, stOk)

/-- A write of TRN_BR_CFG: DENIED outside a field's range, or for a change of the bit of a bridge tray that is not ABSENT. -/
def State.trnBrCfg (s : State) (v : BitVec 64) : State × BitVec 6 :=
  let cto := bits v.toNat 31 24
  let sel : BitVec 16 := BitVec.ofNat 16 (bits v.toNat 15 0)
  let held := (List.range 16).any (fun b => (sel ^^^ s.tier.t2Sel).getLsbD b && (s.tray (256 + b)).state != .absent)
  if cto < 1 ∨ 0x32 < cto ∨ held = true then (s, stDenied)
  else ({ s with tier := { s.tier with ctoMs := BitVec.ofNat 8 cto, t2Sel := sel } }, stOk)

end Sys2Proof.Machine
end

