-- ==== Sys2Proof/Machine/Threads.lean ====
section
/-! DEFINITION. Core threads: scalar, local and pool instructions, translation hints, synchronisation and the completions of
pool requests (chapter 09). Each instruction row carries the instruction that the thread fetches (log 25). -/

namespace Sys2Proof.Machine

/-! ### Registers, faults and issue (R198 to R200, R224) -/

/-- A register; X0 reads 0 (R198). -/
def Thread.get (t : Thread) (r : Nat) : BitVec 64 := if r = 0 then 0 else Table.read 0 t.x r
/-- IMM, sign-extended (Table 09-13). -/
def immOf (i : Ins) : BitVec 64 := i.imm.signExtend 64

/-- A thread, and an engine, that has stopped. -/
def Thread.stopped (t : Thread) : Thread :=
  { t with state := .idle, wait := .none, pend := 0, mcnt := 0, ecnt := 0, discard := false }
def Engine.stopped (e : Engine) : Engine := { e with queue := [], testing := false }

/-- The die of a core is active and not absent (R14, R15), so the core can run. -/
def State.coreUp (s : State) (k : Nat) : Bool := s.alive && !s.pkg.absent.getLsbD (lcOf k)

/-- A thread faults (R224): it stops, its outstanding results are discarded, the first fault of the core is recorded, and the
entry and event name core, TID, PC and cause. -/
def State.faultThread (s : State) (k t cause : Nat) (pc : BitVec 64) : State :=
  let s := s.onThread k t (fun (x : Thread) => { x with state := .faulted, wait := .none, discard := true })
  let s := s.onCore k (fun (c : Core) => if c.faultV then c else
    { c with faultV := true, faultPc := pc.setWidth 25, faultCause := BitVec.ofNat 8 cause, faultTid := BitVec.ofNat 6 t })
  let param := k + t * 2 ^ 16 + (pc.toNat % 2 ^ 32) * 2 ^ 32
  s.logWith 0x59 cause (srcK k) param 0x59 cause param

/-- The program counter of a thread lies in the text of its section (Table 09-15). -/
def State.inSection (s : State) (k t : Nat) : Bool :=
  match progOf s.comp.run k t with
  | none => false
  | some x =>
    let pc := (s.thread k t).pc.toNat
    decide (pc % 8 = 0) && decide (progTextAddr x ≤ pc) && decide (pc + 8 ≤ progTextAddr x + progTextLen x)

/-- Pool requests of a core that have not completed (Table 03-11). -/
def State.coreReqs (s : State) (k : Nat) : Nat := ((s.core k).threads.map (fun (e : Nat × Thread) => e.2.mcnt)).sum

/-- Mask of the registers of a list. -/
def readMask (reads : List Nat) : BitVec 32 :=
  reads.foldl (fun m r => if r = 0 then m else m ||| ((1 : BitVec 32) <<< r)) 0

/-- Issue an instruction of a thread (R199, R200): a READY thread whose program counter is in its text, whose source registers are
not pending, and for which `need` more pool requests fit, has its program counter advanced and `body` performed. -/
def State.issue (s : State) (k t : Nat) (reads : List Nat) (need : Nat) (body : State → State) : Host.Outcome State Fault Refusal :=
  let th := s.thread k t
  .next (
    if !s.coreUp k || th.state != .ready || th.discard then s
    else if !s.inSection k t then s.faultThread k t 8 th.pc
    else if reads.any (fun r => r != 0 && th.pend.getLsbD r) then
      s.onThread k t (fun (x : Thread) => { x with state := .waitDep, wait := .regs (readMask reads &&& x.pend) })
    else if need ≠ 0 ∧ (64 < th.mcnt + need ∨ 1024 < s.coreReqs k + need) then s.onThread k t (fun (x : Thread) => { x with state := .waitMem })
    else body ((s.onThread k t (fun (x : Thread) => { x with pc := x.pc + 8 })).onCore k (fun (c : Core) => { c with lastTid := t })))

/-- Write a register of a thread. -/
def State.putReg (s : State) (k t r : Nat) (v : BitVec 64) : State := s.onThread k t (fun (x : Thread) => x.put r v)
/-- Set a thread's STATUS, when it is clear (R205). -/
def State.setStatus (s : State) (k t : Nat) (st : BitVec 6) (tva : BitVec 56) : State :=
  s.onThread k t (fun (x : Thread) => if x.statusCode = 0 then { x with statusCode := st, statusTva := tva } else x)
/-- Stop a thread to wait. -/
def State.park (s : State) (k t : Nat) (g : ThreadState) (w : Wait) : State :=
  s.onThread k t (fun (x : Thread) => { x with state := g, wait := w })
/-- A fault of the instruction being issued, at its own program counter. -/
def State.faultHere (s : State) (k t cause : Nat) : State := s.faultThread k t cause ((s.thread k t).pc - 8)

/-! ### Scalar instructions (Table 09-14) -/

/-- ALU function of FN[3:0]; the spec states no result for a shift by 64 or more (log 24). -/
def aluOp (fn : Nat) (a b : BitVec 64) : BitVec 64 :=
  let shift := fun (v : Nat → BitVec 64) => if b.toNat < 64 then v b.toNat else Config.wideShift fn a b
  match fn with
  | 0 => a + b
  | 1 => a - b
  | 2 => a &&& b
  | 3 => a ||| b
  | 4 => a ^^^ b
  | 5 => shift (fun n => a <<< n)
  | 6 => shift (fun n => a >>> n)
  | 7 => shift (fun n => a.sshiftRight n)
  | 8 => a * b
  | 9 => BitVec.ofNat 64 (a.toNat * b.toNat / 2 ^ 64)
  | 10 => if a.slt b then a else b
  | 11 => if a.slt b then b else a
  | 12 => if a.ult b then a else b
  | 13 => if a.ult b then b else a
  | 14 => if a.slt b then 1 else 0
  | _ => if a.ult b then 1 else 0

/-- NOP. -/
def execNop (core : BitVec 10) (tid : BitVec 6) (_ins : Ins) (s : State) : Host.Outcome State Fault Refusal :=
  s.issue core.toNat tid.toNat [] 0 id

/-- ALU. -/
def execAlu (core : BitVec 10) (tid : BitVec 6) (ins : Ins) (s : State) : Host.Outcome State Fault Refusal :=
  s.issue core.toNat tid.toNat [ins.xa.toNat, ins.xb.toNat] 0 (fun s =>
    let t := s.thread core.toNat tid.toNat
    s.putReg core.toNat tid.toNat ins.xd.toNat (aluOp (bits ins.fn.toNat 3 0) (t.get ins.xa.toNat) (t.get ins.xb.toNat)))

/-- ALUI. -/
def execAlui (core : BitVec 10) (tid : BitVec 6) (ins : Ins) (s : State) : Host.Outcome State Fault Refusal :=
  s.issue core.toNat tid.toNat [ins.xa.toNat] 0 (fun s =>
    s.putReg core.toNat tid.toNat ins.xd.toNat
      (aluOp (bits ins.fn.toNat 3 0) ((s.thread core.toNat tid.toNat).get ins.xa.toNat) (immOf ins)))

/-- MOVI. -/
def execMovi (core : BitVec 10) (tid : BitVec 6) (ins : Ins) (s : State) : Host.Outcome State Fault Refusal :=
  s.issue core.toNat tid.toNat [] 0 (fun s => s.putReg core.toNat tid.toNat ins.xd.toNat (immOf ins))

/-- MOVHI: the low half of XD stays, so XD is read. -/
def execMovhi (core : BitVec 10) (tid : BitVec 6) (ins : Ins) (s : State) : Host.Outcome State Fault Refusal :=
  s.issue core.toNat tid.toNat [ins.xd.toNat] 0 (fun s =>
    let old := (s.thread core.toNat tid.toNat).get ins.xd.toNat
    s.putReg core.toNat tid.toNat ins.xd.toNat (ins.imm ++ old.setWidth 32))

/-- Condition of a branch, FN[2:0]. -/
def brTaken (c : Nat) (a b : BitVec 64) : Bool :=
  match c with
  | 0 => a == b
  | 1 => a != b
  | 2 => a.slt b
  | 3 => !a.slt b
  | 4 => a.ult b
  | 5 => !a.ult b
  | _ => true

/-- BR: the target is PC + 8 x IMM; condition 0b111 is illegal. -/
def execBr (core : BitVec 10) (tid : BitVec 6) (ins : Ins) (s : State) : Host.Outcome State Fault Refusal :=
  let c := bits ins.fn.toNat 2 0
  s.issue core.toNat tid.toNat (if c < 6 then [ins.xa.toNat, ins.xb.toNat] else []) 0 (fun s =>
    let t := s.thread core.toNat tid.toNat
    if c = 7 then s.faultHere core.toNat tid.toNat 1
    else if brTaken c (t.get ins.xa.toNat) (t.get ins.xb.toNat) then
      s.onThread core.toNat tid.toNat (fun (x : Thread) => { x with pc := x.pc - 8 + 8 * immOf ins })
    else s)

/-- JAL: XD receives PC + 8, and PC becomes XA + IMM. -/
def execJal (core : BitVec 10) (tid : BitVec 6) (ins : Ins) (s : State) : Host.Outcome State Fault Refusal :=
  s.issue core.toNat tid.toNat [ins.xa.toNat] 0 (fun s =>
    let t := s.thread core.toNat tid.toNat
    (s.putReg core.toNat tid.toNat ins.xd.toNat t.pc).onThread core.toNat tid.toNat
      (fun (x : Thread) => { x with pc := t.get ins.xa.toNat + immOf ins }))

/-- GETS: a special value; reading STATUS clears it (R205). -/
def execGets (core : BitVec 10) (tid : BitVec 6) (ins : Ins) (s : State) : Host.Outcome State Fault Refusal :=
  let sel := bits ins.imm.toNat 3 0
  s.issue core.toNat tid.toNat [] 0 (fun s =>
    let t := s.thread core.toNat tid.toNat
    let c := s.core core.toNat
    let v : Nat := match sel with
      | 0 => tid.toNat
      | 1 => core.toNat
      | 2 => lcOf core.toNat
      | 3 => s.now / 16
      | 4 => c.tenant.toNat
      | 5 => c.pvUnit.toNat
      | 6 => t.statusCode.toNat + t.statusTva.toNat * 256
      | 7 => t.mcnt
      | 8 => t.ecnt
      | _ => 0
    let s := if sel = 6 then s.onThread core.toNat tid.toNat (fun (x : Thread) => { x with statusCode := 0, statusTva := 0 }) else s
    s.putReg core.toNat tid.toNat ins.xd.toNat (BitVec.ofNat 64 v))

/-- OP of an instruction word, and its other fields (Table 09-13). -/
def insOp (w : BitVec 64) : Nat := bits w.toNat 63 58
def insOf (w : BitVec 64) : Ins :=
  { xd := w.extractLsb' 53 5, xa := w.extractLsb' 48 5, xb := w.extractLsb' 43 5, fn := w.extractLsb' 32 11, imm := w.extractLsb' 0 32 }

/-- Bits of FN to which an opcode of Table 09-14 gives a meaning; none for an opcode that the table does not list. -/
def fnUsed : Nat → Option Nat
  | 0x00 | 0x03 | 0x04 | 0x06 | 0x07 | 0x13 | 0x18 | 0x1A | 0x21 | 0x25 | 0x26 | 0x27 | 0x30 | 0x32 | 0x33 | 0x35 | 0x38 => some 0
  | 0x01 | 0x02 | 0x12 => some 0xF
  | 0x05 => some 7
  | 0x10 | 0x11 | 0x19 => some 3
  | 0x20 | 0x39 => some 1
  | 0x22 => some 0xFF
  | 0x23 => some 0x3FF
  | 0x24 => some 0x3F
  | 0x31 => some 0x7FF
  | _ => none

/-- A word is an illegal instruction (R216): its opcode is not listed, a bit of FN without a meaning is set (log 113), or its function
is one that Table 09-14 gives no operation. -/
def illegalWord (w : BitVec 64) : Bool :=
  let i := insOf w
  let f := i.fn.toNat
  match fnUsed (insOp w) with
  | none => true
  | some m => (f &&& (2047 - m) != 0)
    || (insOp w == 0x05 && f % 8 == 7) || (insOp w == 0x12 && decide (4 < f % 8)) || (insOp w == 0x19 && f % 4 == 3)
    || (insOp w == 0x23 && bits f 8 7 == 3)

/-- An opcode that Table 09-14 does not list, or a reserved field that is not zero: fault 0x01 (R216). A word that is a legal
instruction is no such row. -/
def execIllegalInstruction (core : BitVec 10) (tid : BitVec 6) (word : BitVec 64) (s : State) : Host.Outcome State Fault Refusal :=
  s.issue core.toNat tid.toNat [] 0 (fun t => if illegalWord word then t.faultHere core.toNat tid.toNat 1 else s)

/-! ### Local instructions (R201, R202) -/

/-- XA + IMM. -/
def State.eaOf (s : State) (k t : Nat) (i : Ins) : Nat := ((s.thread k t).get i.xa.toNat + immOf i).toNat

/-- Fault cause of a local access: 2 outside the open regions, 3 misaligned to its size, else 0. -/
def State.localFault (s : State) (k a n : Nat) (write aligned : Bool) : Nat :=
  if !localOk s.comp.run k a n write then 2 else if aligned && a % max 1 n != 0 then 3 else 0

/-- LDL. -/
def execLdl (core : BitVec 10) (tid : BitVec 6) (ins : Ins) (s : State) : Host.Outcome State Fault Refusal :=
  s.issue core.toNat tid.toNat [ins.xa.toNat] 0 (fun s =>
    let a := s.eaOf core.toNat tid.toNat ins
    let n := 2 ^ bits ins.fn.toNat 1 0
    let c := s.localFault core.toNat a n false true
    if c ≠ 0 then s.faultHere core.toNat tid.toNat c
    else s.putReg core.toNat tid.toNat ins.xd.toNat (BitVec.ofNat 64 (s.localNat core.toNat a n)))

/-- STL. -/
def execStl (core : BitVec 10) (tid : BitVec 6) (ins : Ins) (s : State) : Host.Outcome State Fault Refusal :=
  s.issue core.toNat tid.toNat [ins.xa.toNat, ins.xb.toNat] 0 (fun s =>
    let a := s.eaOf core.toNat tid.toNat ins
    let n := 2 ^ bits ins.fn.toNat 1 0
    let c := s.localFault core.toNat a n true true
    if c ≠ 0 then s.faultHere core.toNat tid.toNat c
    else s.localWrite core.toNat a (leBytes n ((s.thread core.toNat tid.toNat).get ins.xb.toNat).toNat))

/-- New value of a local atomic on `w` bits: ADD, MIN, MAX, SWAP and CAS by FN[2:0]. MIN and MAX compare signed integers
(log 26). -/
def atlNew (op w old x cmp : Nat) : Nat :=
  match op with
  | 0 => (old + x) % 2 ^ w
  | 1 => if sint w x < sint w old then x % 2 ^ w else old
  | 2 => if sint w old < sint w x then x % 2 ^ w else old
  | 3 => x % 2 ^ w
  | _ => if old = cmp % 2 ^ w then x % 2 ^ w else old

/-- ATL: an atomic on 8 bytes, or 4 under FN[3]; XD receives the old value. Functions above 4 are illegal. -/
def execAtl (core : BitVec 10) (tid : BitVec 6) (ins : Ins) (s : State) : Host.Outcome State Fault Refusal :=
  let op := bits ins.fn.toNat 2 0
  s.issue core.toNat tid.toNat ([ins.xa.toNat, ins.xb.toNat] ++ (if op = 4 then [ins.xd.toNat] else [])) 0 (fun s =>
    let a := s.eaOf core.toNat tid.toNat ins
    let n := if ins.fn.getLsbD 3 then 4 else 8
    let c := s.localFault core.toNat a n true true
    let t := s.thread core.toNat tid.toNat
    if 4 < op then s.faultHere core.toNat tid.toNat 1
    else if c ≠ 0 then s.faultHere core.toNat tid.toNat c
    else
      let old := s.localNat core.toNat a n
      (s.localWrite core.toNat a (leBytes n (atlNew op (8 * n) old (t.get ins.xb.toNat).toNat (t.get ins.xd.toNat).toNat))).putReg
        core.toNat tid.toNat ins.xd.toNat (BitVec.ofNat 64 old))

/-- COPYL: the thread waits in WAIT_MEM until the copy has ended. -/
def execCopyl (core : BitVec 10) (tid : BitVec 6) (ins : Ins) (s : State) : Host.Outcome State Fault Refusal :=
  s.issue core.toNat tid.toNat [ins.xa.toNat, ins.xb.toNat, ins.xd.toNat] 0 (fun s =>
    let t := s.thread core.toNat tid.toNat
    let a := s.eaOf core.toNat tid.toNat ins
    let n := (t.get ins.xb.toNat).toNat
    let d := (t.get ins.xd.toNat).toNat
    if !localOk s.comp.run core.toNat a n false || !localOk s.comp.run core.toNat d n true then s.faultHere core.toNat tid.toNat 2
    else s.park core.toNat tid.toNat .waitMem (.copy a d n))

/-- The copy of a COPYL ends. -/
def execCopylComplete (core : BitVec 10) (tid : BitVec 6) (s : State) : Host.Outcome State Fault Refusal :=
  .next (match (s.thread core.toNat tid.toNat).wait with
    | .copy a d n =>
      if s.coreUp core.toNat then
        (s.localWrite core.toNat d (s.localBytes core.toNat a n)).park core.toNat tid.toNat .ready .none
      else s
    | _ => s)

/-! ### Pool requests (R204 to R206) -/

/-- A pool request of a thread (R204): its tenant, pavilion and epoch are those of the core. -/
def State.coreFrame (s : State) (k : Nat) (op : BitVec 8) (tva len : Nat) (pl : List Byte) (flags : BitVec 8 := 0) : Frame :=
  { opcode := op, dst := (s.core k).pvUnit, src := (s.core k).pvUnit, vc := (opcodeVc op).getD 2, tenant := (s.core k).tenant,
    epoch := s.comp.epoch, addr := BitVec.ofNat 56 tva, length := BitVec.ofNat 7 len, flags := flags, payload := pl }

/-- Send a pool request of a thread; one whose shape breaks R67 or R72 completes at once with MALFORMED. -/
def State.coreSend (s : State) (k t : Nat) (sink : ThreadSink) (f : Frame) : State :=
  let s := s.onThread k t (fun (x : Thread) => { x with mcnt := x.mcnt + 1 })
  if wellShaped f then s.accept (.thread k t sink) f (16 + lcOf k) (some k) 0
  else
    let n := s.req.nextN
    let c : ThreadComp := { n := n, tid := t, sink := sink, frame := { completion f stMalformed [] with addr := f.addr } }
    ({ s with req := { s.req with nextN := n + 1 } } : State).onCore k (fun (y : Core) => { y with comps := y.comps ++ [c] })

/-- FPA of a TVA that the core's own translation cache holds. -/
def State.coreFpa (s : State) (k tva : Nat) : Option Nat :=
  (s.tlbFind (64 + k) (s.core k).tenant tva).map (fun e => e.fpa + tva % 2 ^ e.size)

/-- The cached line that a load hits (R203): its address is translated by the core's translation cache and the data cache holds
its line. -/
def State.cacheHit (s : State) (k tva : Nat) : Option (List Byte) :=
  (s.coreFpa k tva).bind (fun a => ((s.core k).dcache.find? (fun e => e.1 == a / 64)).map (·.2))

/-- PLDX: 8 bytes of one line as LD, or LD.PEEK under FN[0]; XD is pending until the completion. Bytes that cross a line cannot be
named by one request: MALFORMED at once (log 26). -/
def execPldx (core : BitVec 10) (tid : BitVec 6) (ins : Ins) (s : State) : Host.Outcome State Fault Refusal :=
  let k := core.toNat
  let t := tid.toNat
  let a := s.eaOf k t ins % 2 ^ 56
  let peek := ins.fn.getLsbD 0
  let sends := decide (a % 64 ≤ 56) && (peek || (s.cacheHit k a).isNone)
  s.issue k t [ins.xa.toNat] (b2n sends) (fun s =>
    if 56 < a % 64 then (s.putReg k t ins.xd.toNat (BitVec.allOnes 64)).setStatus k t stMalformed (BitVec.ofNat 56 a)
    else match (if peek then none else s.cacheHit k a) with
      | some bs => s.putReg k t ins.xd.toNat (BitVec.ofNat 64 (field bs (a % 64) 8))
      | none =>
        let s := if ins.xd = 0 then s else s.onThread k t (fun (x : Thread) => { x with pend := x.pend ||| ((1 : BitVec 32) <<< ins.xd.toNat) })
        s.coreSend k t (.reg ins.xd.toNat (a % 64) (!peek) (s.core k).acquires)
          (s.coreFrame k (if peek then 0x11 else 0x10) (a / 64 * 64) 1 []))

/-- PSTX: 8 bytes of one line as ST.MASK. -/
def execPstx (core : BitVec 10) (tid : BitVec 6) (ins : Ins) (s : State) : Host.Outcome State Fault Refusal :=
  s.issue core.toNat tid.toNat [ins.xa.toNat, ins.xb.toNat] 1 (fun s =>
    let k := core.toNat
    let t := tid.toNat
    let a := s.eaOf k t ins % 2 ^ 56
    let v := leBytes 8 ((s.thread k t).get ins.xb.toNat).toNat
    if 56 < a % 64 then s.setStatus k t stMalformed (BitVec.ofNat 56 a)
    else s.coreSend k t (.word (a / 64) (a % 64) v)
      (s.coreFrame k 0x14 (a / 64 * 64) 2 (splice (fill 64 0) (a % 64) v ++ leBytes 8 (255 * 2 ^ (a % 64)) ++ fill 56 0)))

/-- The requests of a run of lines at a TVA: divided at 16 KiB boundaries, and a part above 64 lines after its first 64 (R206). -/
def poolParts (tva n : Nat) : List (Nat × Nat) :=
  let first := min n ((16384 - tva % 16384) / 64)
  let cut := fun (a m : Nat) => if m = 0 then [] else if m ≤ 64 then [(a, m)] else [(a, 64), (a + 4096, m - 64)]
  cut tva first ++ cut (tva + 64 * first) (n - first)

/-- PLD (R206). -/
def execPld (core : BitVec 10) (tid : BitVec 6) (ins : Ins) (s : State) : Host.Outcome State Fault Refusal :=
  let k := core.toNat
  let t := tid.toNat
  let n := bits ins.fn.toNat 6 0 + 1
  let tva := s.eaOf k t ins % 2 ^ 56
  let parts := poolParts tva n
  let bulk := ins.fn.getLsbD 7
  s.issue k t ([ins.xa.toNat, ins.xd.toNat] ++ (if bulk then [ins.xb.toNat] else [])) (if tva % 64 = 0 then parts.length else 0) (fun s =>
    let th := s.thread k t
    let d := (th.get ins.xd.toNat).toNat
    let tg := (th.get ins.xb.toNat).toNat
    let cbf := bulk && decide (n % 32 = 0) && decide (tva % 2048 = 0)
    if tva % 64 ≠ 0 then s.setStatus k t stMalformed (BitVec.ofNat 56 tva)
    else if !localOk s.comp.run k d (64 * n) true || (cbf && !localOk s.comp.run k tg (n / 32) true) then s.faultHere k t 2
    else parts.foldl (fun s p =>
      let off := p.1 - tva
      s.coreSend k t (.bulk (d + off) p.2 (if cbf then some (tg + off / 2048) else none))
        (s.coreFrame k 0x10 p.1 p.2 [] (if cbf then flCmpr else 0))) s)

/-- Opcode of a PST by FN[8:7]. -/
def pstOp (x : Nat) : BitVec 8 := match x with | 0 => 0x12 | 1 => 0x13 | _ => 0x90

/-- The payload of a PST under FN[9] may be sent at a TVA (R206). -/
def pstCbfOk (tva : Nat) (pl : List Byte) : Bool :=
  match parsePayload pl with
  | none => false
  | some bs => decide (tva % 2048 = 0) && decide (tva / 16384 = (tva + 2048 * bs.length - 1) / 16384)

/-- PST (R206). -/
def execPst (core : BitVec 10) (tid : BitVec 6) (ins : Ins) (s : State) : Host.Outcome State Fault Refusal :=
  let k := core.toNat
  let t := tid.toNat
  let n := bits ins.fn.toNat 6 0 + 1
  let tva := s.eaOf k t ins % 2 ^ 56
  let cbf := ins.fn.getLsbD 9
  let parts := if cbf then [(tva, n)] else poolParts tva n
  let kind := bits ins.fn.toNat 8 7
  s.issue k t [ins.xa.toNat, ins.xd.toNat] (if tva % 64 = 0 ∧ kind < 3 then parts.length else 0) (fun s =>
    let d := ((s.thread k t).get ins.xd.toNat).toNat
    let pl := s.localBytes k d (64 * n)
    if kind = 3 then s.faultHere k t 1
    else if tva % 64 ≠ 0 then s.setStatus k t stMalformed (BitVec.ofNat 56 tva)
    else if !localOk s.comp.run k d (64 * n) false then s.faultHere k t 2
    else if cbf && (64 < n || !pstCbfOk tva pl) then s.setStatus k t stMalformed (BitVec.ofNat 56 tva)
    else parts.foldl (fun s p =>
      s.coreSend k t .posted
        (s.coreFrame k (pstOp kind) p.1 p.2 ((pl.drop (p.1 - tva)).take (64 * p.2)) (if cbf then flCmpr else 0))) s)

/-- PATM: an atomic at a TVA; operand types outside Table 03-9 are illegal. A 128-bit CAS takes its values from local memory. -/
def execPatm (core : BitVec 10) (tid : BitVec 6) (ins : Ins) (s : State) : Host.Outcome State Fault Refusal :=
  let k := core.toNat
  let t := tid.toNat
  let op := bits ins.fn.toNat 1 0
  let sub := bits ins.fn.toNat 4 2
  let posted := ins.fn.getLsbD 5
  let code : BitVec 8 := BitVec.ofNat 8 ((if posted then 0x28 else 0x20) + op)
  let wide := decide (sub = 5)
  s.issue k t ([ins.xa.toNat] ++ (if wide then [ins.xd.toNat] else [ins.xb.toNat] ++ (if op = 3 then [ins.xd.toNat] else []))) 1 (fun s =>
    let th := s.thread k t
    let tva := s.eaOf k t ins % 2 ^ 56
    let d := (th.get ins.xd.toNat).toNat
    let xb := (th.get ins.xb.toNat).toNat
    let n := atomicSize sub
    let pl := if wide then s.localBytes k d 32
      else if op = 3 then leBytes n d ++ fill (16 - n) 0 ++ leBytes n xb ++ fill (16 - n) 0 else leBytes n xb ++ fill (32 - n) 0
    if !atomicTypeOk code sub then s.faultHere k t 1
    else if wide && !localOk s.comp.run k d 32 (!posted) then s.faultHere k t 2
    else
      let sink : ThreadSink := if posted then .posted else if wide then .atomWide d else .atom ins.xd.toNat n
      let s := if posted || wide || ins.xd == 0 then s
        else s.onThread k t (fun (x : Thread) => { x with pend := x.pend ||| ((1 : BitVec 32) <<< ins.xd.toNat) })
      s.coreSend k t sink { s.coreFrame k code tva 1 (pl ++ fill 32 0) with flags := BitVec.ofNat 8 sub })

/-! ### Waiting (R199, R200, R219, R222) -/

/-- A thread has a store-class request below `n` outstanding, or an engine command issued before, whose store-class requests are
outstanding or may still be issued (R219). While a thread waits at its FENCE it issues no command, so all of its commands are covered. -/
def State.storesOut (s : State) (k t n : Nat) : Bool :=
  s.req.reqs.any (fun r => decide (r.n < n) && storeClass r.frame.opcode && (match r.origin with | .thread c d _ => c == k && d == t | _ => false))
    || (s.core k).comps.any (fun (c : ThreadComp) => (decide (c.n < n) || c.sink == .scatter) && c.tid == t && c.stores)
    || s.req.reqs.any (fun r => r.origin == .thread k t .scatter)
    || (s.engine k 3).queue.any (fun (e : EngCmd) => e.tid == t && (e.phase == .queued || e.rowsTodo.any (fun r => storeClass r.1.opcode)))

/-- Let a thread go on when what it waits for has come about; one that is being stopped becomes IDLE once its issued requests have
completed (R374). -/
def State.settleThread (s : State) (k t : Nat) : State :=
  let th := s.thread k t
  let go := s.park k t .ready .none
  if th.discard ∧ th.state ≠ .faulted then (if th.mcnt = 0 ∧ th.ecnt = 0 then s.onThread k t (fun (x : Thread) => x.stopped) else s)
  else match th.state with
  | .waitDep => (match th.wait with
    | .regs m => if m &&& th.pend = 0 then go else s
    | _ => go)
  | .waitMem | .waitEng =>
    (match th.wait with
     | .none => go
     | .fence n => if s.storesOut k t n then s else go
     | .mcnt l => if th.mcnt ≤ l then go else s
     | .ecnt l => if th.ecnt ≤ l then go else s
     | .halt => if th.mcnt = 0 ∧ th.ecnt = 0 then s.park k t .idle .none else s
     | _ => s)
  | _ => s

/-- FENCE (R219). -/
def execCoreFence (core : BitVec 10) (tid : BitVec 6) (_ins : Ins) (s : State) : Host.Outcome State Fault Refusal :=
  s.issue core.toNat tid.toNat [] 0 (fun s =>
    (s.park core.toNat tid.toNat .waitMem (.fence s.req.nextN)).settleThread core.toNat tid.toNat)

/-- ACQUIRE: every line of the data cache is invalid (R104). -/
def execAcquire (core : BitVec 10) (tid : BitVec 6) (_ins : Ins) (s : State) : Host.Outcome State Fault Refusal :=
  s.issue core.toNat tid.toNat [] 0 (fun s =>
    s.onCore core.toNat (fun (c : Core) => { c with dcache := [], acquires := c.acquires + 1 }))

/-- WAITE. -/
def execWaite (core : BitVec 10) (tid : BitVec 6) (ins : Ins) (s : State) : Host.Outcome State Fault Refusal :=
  s.issue core.toNat tid.toNat [] 0 (fun s =>
    (s.park core.toNat tid.toNat .waitEng (.ecnt (bits ins.imm.toNat 4 0))).settleThread core.toNat tid.toNat)

/-- WAITM. -/
def execWaitm (core : BitVec 10) (tid : BitVec 6) (ins : Ins) (s : State) : Host.Outcome State Fault Refusal :=
  s.issue core.toNat tid.toNat [] 0 (fun s =>
    (s.park core.toNat tid.toNat .waitMem (.mcnt (bits ins.imm.toNat 6 0))).settleThread core.toNat tid.toNat)

/-- HALT: IDLE once MCNT and ECNT are 0. -/
def execThreadHalt (core : BitVec 10) (tid : BitVec 6) (_ins : Ins) (s : State) : Host.Outcome State Fault Refusal :=
  s.issue core.toNat tid.toNat [] 0 (fun s =>
    (s.park core.toNat tid.toNat (if (s.thread core.toNat tid.toNat).mcnt = 0 then .waitEng else .waitMem) .halt).settleThread core.toNat tid.toNat)

/-- BAR n: the last of the threads that the image assigns to the barrier releases them all (R222). -/
def execBar (core : BitVec 10) (tid : BitVec 6) (ins : Ins) (s : State) : Host.Outcome State Fault Refusal :=
  let key := clusterOf core.toNat * 16 + bits ins.imm.toNat 3 0
  s.issue core.toNat tid.toNat [] 0 (fun s =>
    let here := Table.read [] s.cpu.barHere key ++ [64 * core.toNat + tid.toNat]
    if here.length < Table.read 0 s.cpu.barNeed key then
      ({ s with cpu := { s.cpu with barHere := Table.write [] s.cpu.barHere key here } } : State).park core.toNat tid.toNat .waitSync
        (.bar (bits ins.imm.toNat 3 0))
    else
      -- a thread that has faulted since it arrived stays FAULTED (R224)
      here.foldl (fun s x => if (s.thread (x / 64) (x % 64)).state = .faulted then s else s.park (x / 64) (x % 64) .ready .none)
        { s with cpu := { s.cpu with barHere := Table.write [] s.cpu.barHere key [] } })

/-- WAITL: until the word differs from XB, or FN µs of FT have passed (R222). -/
def execWaitl (core : BitVec 10) (tid : BitVec 6) (ins : Ins) (s : State) : Host.Outcome State Fault Refusal :=
  s.issue core.toNat tid.toNat [ins.xa.toNat, ins.xb.toNat] 0 (fun s =>
    let k := core.toNat
    let t := tid.toNat
    let a := s.eaOf k t ins
    let c := s.localFault k a 8 false true
    if c ≠ 0 then s.faultHere k t c
    else
      let old := (s.thread k t).get ins.xb.toNat
      if BitVec.ofNat 64 (s.localNat k a 8) ≠ old then s.putReg k t ins.xd.toNat 1
      else s.park k t .waitSync (.word a old ins.xd.toNat (if ins.fn = 0 then none else some (s.now + ins.fn.toNat * usT))))

/-- The limit of a WAITL has passed: XD receives 0, unless the word differs, which gives 1 (R222). -/
def execWaitlTimeout (core : BitVec 10) (tid : BitVec 6) (s : State) : Host.Outcome State Fault Refusal :=
  .next (match (s.thread core.toNat tid.toNat).wait with
    | .word a old xd (some l) =>
      if s.coreUp core.toNat && decide (l ≤ s.now) then
        (s.park core.toNat tid.toNat .ready .none).putReg core.toNat tid.toNat xd
          (if BitVec.ofNat 64 (s.localNat core.toNat a 8) ≠ old then 1 else 0)
      else s
    | _ => s)

/-! ### Translation hints -/

/-- TPREF: the core translation cache is filled, from the die's unit or by a walk. -/
def execTpref (core : BitVec 10) (tid : BitVec 6) (ins : Ins) (s : State) : Host.Outcome State Fault Refusal :=
  s.issue core.toNat tid.toNat [ins.xa.toNat] 0 (fun s =>
    let k := core.toNat
    let tva := s.eaOf k tid.toNat ins % 2 ^ 56
    let tn := (s.core k).tenant
    match s.tlbFind (64 + k) tn tva, s.tlbFind (16 + lcOf k) tn tva with
    | some _, _ => s
    | none, some e => s.tlbPut (64 + k) e
    | none, none => (s.startWalk (16 + lcOf k) (some k) tn tva none).1)

/-- TINV: one entry, or every entry under FN[0], leaves the core translation cache. -/
def execTinv (core : BitVec 10) (tid : BitVec 6) (ins : Ins) (s : State) : Host.Outcome State Fault Refusal :=
  let all := ins.fn.getLsbD 0
  s.issue core.toNat tid.toNat (if all then [] else [ins.xa.toNat]) 0 (fun s =>
    let k := core.toNat
    let tva := s.eaOf k tid.toNat ins % 2 ^ 56
    let keep := (Table.read [] s.xl.tlb (64 + k)).filter (fun (e : TlbEntry) => !(all || (decide (e.tva ≤ tva) && decide (tva < e.tva + 2 ^ e.size))))
    { s with xl := { s.xl with tlb := Table.write [] s.xl.tlb (64 + k) keep } })

/-! ### Pool completions (R203, R205, R221) -/

/-- A store's completion updates the cached copies of its lines (R104). -/
def Core.cacheStored (c : Core) (line : Nat) (bs : List Byte) : Core :=
  { c with dcache := c.dcache.map (fun e =>
      if line ≤ e.1 ∧ 64 * (e.1 - line) < bs.length then (e.1, (bs.drop (64 * (e.1 - line))).take 64) else e) }

/-- Put a line into the data cache: 1,024 lines, the oldest fill of its set goes (log 18). -/
def Core.cachePut (c : Core) (line : Nat) (bs : List Byte) : Core :=
  let others := c.dcache.filter (fun e => e.1 != line)
  let mine := others.filter (fun e => e.1 % 256 == line % 256)
  let keep := match mine[3]? with | some v => others.filter (fun e => e.1 != v.1) | none => others
  { c with dcache := (line, bs) :: keep }

/-- The data of a PLD part in local memory: sectors and tags of a CBF form under FN[7], else plain (R206). -/
def State.bulkIn (s : State) (k dst lines : Nat) (tags : Option Nat) (f : Frame) : State :=
  let plainTags := fun (s : State) => match tags with
    | some a => s.localWrite k a (fill ((lines + 31) / 32) 0x10)
    | none => s
  if f.status = stOk && f.has flCmpr then
    match parsePayload f.payload with
    | none => s
    | some bs => bs.zipIdx.foldl (fun s b =>
      let s := s.localWrite k (dst + 2048 * b.2) b.1.2
      match tags with
      | some a => s.localWrite k (a + b.2) [BitVec.ofNat 8 b.1.1]
      | none => s) s
  else plainTags (s.localWrite k dst ((f.payload ++ fill (64 * lines) 0xFF).take (64 * lines)))

/-- The effect of a completion on its thread's registers and local memory (R203, R205, R221). -/
def State.deliver (s : State) (k t : Nat) (c : ThreadComp) : State :=
  let f := c.frame
  let ok := f.status == stOk
  match c.sink with
  | .reg xd off al acq =>
    let s := s.putReg k t xd (if ok then BitVec.ofNat 64 (field f.payload off 8) else BitVec.allOnes 64)
    (match c.line with
     | some l => if al && c.alloc && ok && acq == (s.core k).acquires then s.onCore k (fun (y : Core) => y.cachePut l f.payload) else s
     | none => s)
  | .word _ off bs =>
    (match c.line with
     | some l => if ok then s.onCore k (fun (y : Core) => { y with dcache := y.dcache.map (fun e => if e.1 = l then (e.1, splice e.2 off bs) else e) }) else s
     | none => s)
  | .bulk d n tags => s.bulkIn k d n tags f
  | .atom xd w => s.putReg k t xd (if ok then BitVec.ofNat 64 (field f.payload 0 w) else BitVec.allOnes 64)
  | .atomWide a => s.localWrite k a (f.payload.take 16)
  | .gather d n => s.localWrite k d ((f.payload ++ fill n 0xFF).take n)
  | .decode a => s.localWrite k a (f.header ++ f.payload)
  | .opened a => (s.localWrite k a f.header).localWrite k (a + 0x20) (leBytes 8 1)
  | .posted | .scatter =>
    (match c.line with
     | some l => if ok && !c.bytes.isEmpty then s.onCore k (fun (y : Core) => y.cacheStored l c.bytes) else s
     | none => s)
  | .accepted => s

/-- A register that a sink fills is no longer pending. -/
def Thread.unpend (x : Thread) : ThreadSink → Thread
  | .reg xd _ _ _ => { x with pend := x.pend &&& ~~~((1 : BitVec 32) <<< xd) }
  | .atom xd _ => { x with pend := x.pend &&& ~~~((1 : BitVec 32) <<< xd) }
  | _ => x

/-- Issue the pool rows of the running GFE command that the limits admit (R200, R213). -/
def State.pumpRows (s : State) (k : Nat) : Nat → State
  | 0 => s
  | fuel + 1 =>
    match (s.engine k 3).queue with
    | [] => s
    | c :: cs =>
      let th := s.thread k c.tid
      match c.rowsTodo with
      | [] => s
      | r :: rs =>
        if c.phase == .running && decide (th.mcnt < 64) && decide (c.rowsLeft < 256) && decide (s.coreReqs k < 1024) then
          let s := s.onEngine k 3 (fun (e : Engine) => { e with queue := { c with rowsTodo := rs, rowsLeft := c.rowsLeft + 1 } :: cs })
          (s.coreSend k c.tid r.2 r.1).pumpRows k fuel
        else s

/-- A pool row request of the running GFE command has completed. -/
def State.rowDone (s : State) (k : Nat) : ThreadSink → State
  | .gather _ _ | .scatter => s.onEngine k 3 (fun (e : Engine) => match e.queue with
      | c :: cs => { e with queue := { c with rowsLeft := c.rowsLeft - 1 } :: cs }
      | [] => e)
  | _ => s

/-- Threads that the core's limit of 1,024 pool requests has stopped look again (R200). -/
def State.settleCore (s : State) (k : Nat) : State :=
  ((s.core k).threads.filter (fun e => e.2.state == .waitMem && e.2.wait == .none)).foldl (fun s e => s.settleThread k e.1) s

/-- A pool completion reaches its thread: its data is written, a status other than OK recorded, and MCNT falls (R205). The results of
a faulted or stopped thread are discarded (R224). -/
def execCorePoolCompletion (core : BitVec 10) (tid : BitVec 6) (n : Nat) (s : State) : Host.Outcome State Fault Refusal :=
  .next (
    let k := core.toNat
    let t := tid.toNat
    match (s.core k).comps.find? (fun (c : ThreadComp) => c.n == n && c.tid == t) with
    | none => s
    | some c =>
      if !s.coreUp k then s
      else
        let s := s.onCore k (fun (y : Core) => { y with comps := y.comps.filter (fun (x : ThreadComp) => !(x.n == n && x.tid == t)) })
        let gone := (s.thread k t).discard
        let s := if gone then s else s.deliver k t c
        let s := if gone || c.frame.status == stOk then s else s.setStatus k t c.frame.status c.frame.addr
        let s := s.onThread k t (fun (x : Thread) => { x.unpend c.sink with mcnt := x.mcnt - 1 })
        (((s.rowDone k c.sink).pumpRows k 256).settleThread k t).settleCore k)

end Sys2Proof.Machine
end

