-- ==== Sys2Proof/Machine/Engines.lean ====
section
/-! DEFINITION. The engines of a core: descriptors, the results of their commands, completion, shadow sampling and quarantine
(chapters 09 and 15). Engines are numbered 0 MXE, 1 VE0, 2 VE1 and 3 GFE. -/

namespace Sys2Proof.Machine

/-! ### Suspicion and quarantine (R363) -/

/-- PARAM of a mismatch entry (Table 15-7); the compute clock runs at 940 MHz (R17). -/
def State.mismatchParam (s : State) (k e op outcome other : Nat) : Nat :=
  let d := s.die (s.coreSite k)
  k + e * 2 ^ 16 + op % 256 * 2 ^ 24 + d.vdd.toNat * 2 ^ 32 + d.level.toNat * 2 ^ 48 + (s.engine k e).suspect * 2 ^ 56 + outcome * 2 ^ 64
    + other * 2 ^ 72 + 940 * 2 ^ 96

/-- An engine's suspect count rises; at QUAR_TH the engine is quarantined (R363). -/
def State.suspectEngine (s : State) (cls k e op outcome other : Nat) : State :=
  let s := s.onEngine k e (fun (x : Engine) => { x with suspect := min 15 (x.suspect + 1) })
  let s := s.logE cls 0 (srcK k) (s.mismatchParam k e op outcome other)
  if s.log.quarTh.toNat ≤ (s.engine k e).suspect ∧ (s.core k).quar.getLsbD e = false then
    (s.onCore k (fun (c : Core) => { c with quar := c.quar ||| ((1 : BitVec 4) <<< e) })).logE 0x10 0 (srcK k) (k + e * 2 ^ 16) true
  else s

/-- Core of the same index in the cluster `d` further on, in the same die (R225). -/
def peerCore (k d : Nat) : Nat := k / 32 * 32 + (k / 8 % 4 + d) % 4 * 8 + k % 8

/-- Cores whose engine may execute a sampled command again, in order: not quarantined (R363). -/
def State.shadowCores (s : State) (k e : Nat) : List Nat :=
  ((List.range 3).map (fun d => peerCore k (d + 1))).filter (fun j => !(s.core j).quar.getLsbD e)

/-- A copy of a sampled command waits at the head of this engine's queue for its comparison, ahead of the commands queued here: the
head command of an engine of the same kind and core index in another cluster of the die has it as its shadow (R225). -/
def State.copyWaits (s : State) (j e : Nat) : Bool :=
  ((List.range 3).map (fun d => peerCore j (d + 1))).any (fun k =>
    (match (s.engine k e).queue with | c :: _ => c.phase == .running && c.sampled | [] => false) && (s.shadowCores k e).head? == some j)

/-- A command that writes its own result runs on an engine: a copy waits behind it (R225). -/
def State.runsOwn (s : State) (j e : Nat) : Bool :=
  match (s.engine j e).queue with | c :: _ => c.phase == .running && !c.sampled | [] => false

/-! ### Issue (R217) -/

/-- Queue a command; a full queue stops the thread in WAIT_ENG, and the instruction issues again (R200, R217). -/
def State.engineIssue (s : State) (k t e desc : Nat) : State :=
  let th := s.thread k t
  if 32 ≤ (s.engine k e).queue.length ∨ 16 ≤ th.ecnt then
    s.onThread k t (fun (x : Thread) => { x with pc := x.pc - 8, state := .waitEng, wait := .none })
  else
    let c : EngCmd := { tid := t, desc := desc, pc := th.pc - 8 }
    (s.onEngine k e (fun (x : Engine) => { x with queue := x.queue ++ [c] })).onThread k t (fun (x : Thread) => { x with ecnt := x.ecnt + 1 })

/-- The MXE instruction. -/
def execMxeIssue (core : BitVec 10) (tid : BitVec 6) (ins : Ins) (s : State) : Host.Outcome State Fault Refusal :=
  s.issue core.toNat tid.toNat [ins.xa.toNat] 0 (fun s =>
    s.engineIssue core.toNat tid.toNat 0 (s.eaOf core.toNat tid.toNat ins))

/-- The VE that "any VE" names: the one with fewer commands, VE0 at a tie, and never a quarantined one beside a sound one
(R212, R363). -/
def State.anyVe (s : State) (k : Nat) : Nat :=
  let q := (s.core k).quar
  if q.getLsbD 1 && !q.getLsbD 2 then 2
  else if q.getLsbD 2 && !q.getLsbD 1 then 1
  else if (s.engine k 2).queue.length < (s.engine k 1).queue.length then 2 else 1

/-- The VE instruction: VE0, VE1, or any by FN[1:0]; 0b11 is illegal. -/
def execVeIssue (core : BitVec 10) (tid : BitVec 6) (ins : Ins) (s : State) : Host.Outcome State Fault Refusal :=
  let f := bits ins.fn.toNat 1 0
  s.issue core.toNat tid.toNat [ins.xa.toNat] 0 (fun s =>
    if f = 3 then s.faultHere core.toNat tid.toNat 1
    else s.engineIssue core.toNat tid.toNat (if f = 2 then s.anyVe core.toNat else f + 1) (s.eaOf core.toNat tid.toNat ins))

/-- The GFE instruction. -/
def execGfeIssue (core : BitVec 10) (tid : BitVec 6) (ins : Ins) (s : State) : Host.Outcome State Fault Refusal :=
  s.issue core.toNat tid.toNat [ins.xa.toNat] 0 (fun s =>
    s.engineIssue core.toNat tid.toNat 3 (s.eaOf core.toNat tid.toNat ins))

/-! ### Operands -/

/-- The result of reading a command: a fault cause, or what it writes. -/
abbrev Verdict := Except Nat EngOut

/-- An array of `n` bytes at a local address, plain or in CBF form with tags at `tags` (R211). Cause 2 for an address outside the open
regions, 4 for an invalid block. -/
def State.operand (s : State) (k a n : Nat) (tags : Option Nat) : Except Nat (List Byte) :=
  match tags with
  | none => if localOk s.comp.run k a n false then .ok (s.localBytes k a n) else .error 2
  | some t =>
    let blocks := (n + 2047) / 2048
    if !localOk s.comp.run k a (2048 * blocks) false || !localOk s.comp.run k t blocks false then .error 2
    else
      ((List.range blocks).foldl (fun (acc : Except Nat (List (List Byte))) i =>
        match acc with
        | .error c => .error c
        | .ok l =>
          match (tagSect ((s.localBytes k (t + i) 1).headD 0)).bind (fun n => expandBlock n (s.localBytes k (a + 2048 * i) 2048)) with
          | none => .error 4
          | some b => .ok (b :: l)) (.ok [])).map (fun l => (l.reverse.flatten).take n)

/-- The values of an array in a format, with its scales where it is an MX format. -/
def State.values (s : State) (k fmt a n scales : Nat) (tags : Option Nat) : Except Nat (List Num) :=
  match s.operand k a (packedBytes fmt n) tags with
  | .error c => .error c
  | .ok bs =>
    if isMx fmt then
      match s.operand k scales (n / 32) none with
      | .error c => .error c
      | .ok sc => .ok (elemValues fmt bs n sc)
    else .ok (elemValues fmt bs n [])

/-- Every write of a result lies in an open region. -/
def State.writable (s : State) (k : Nat) (w : List (Nat × List Byte)) : Bool :=
  w.all (fun x => localOk s.comp.run k x.1 x.2.length true)

/-- A verdict whose writes are checked. -/
def State.checked (s : State) (k : Nat) (w : List (Nat × List Byte)) : Verdict :=
  if s.writable k w then .ok { writes := w } else .error 2

/-- Every byte of a list is zero. -/
def allZero (bs : List Byte) : Bool := bs.all (· == 0)

/-! ### MXE (R207 to R211) -/

/-- kd of a format (Table 09-5); 0 where the MXE does not take it. -/
def kdOf (fmt : Nat) : Nat := match fmt with
  | 1 | 2 => 1
  | 3 | 4 | 5 | 6 | 7 | 8 | 0xA => 2
  | 9 => 4
  | _ => 0
/-- Class of an MXE operand format: 0 integer, 1 MX, 2 other floating point. -/
def mxeClass (fmt : Nat) : Nat := if fmt = 0xA then 0 else if isMx fmt then 1 else 2

/-- Tile `i` of a core. -/
def State.tile (s : State) (k i : Nat) : Tile := Table.read {} (s.core k).tiles i

/-- MMA: ACC += A x B, A and B in k-major order (R207, R208). -/
def State.mxeMma (s : State) (k : Nat) (b : List Byte) : Verdict :=
  let fa := field b 2 1
  let fb := field b 3 1
  let kk := field b 4 2
  let fl := field b 6 1
  let t := s.tile k (field b 1 1)
  if kdOf fa = 0 ∨ kdOf fa ≠ kdOf fb ∨ mxeClass fa ≠ mxeClass fb ∨ kk = 0 ∨ 0x8000 < kk ∨ t.int ≠ decide (fa = 0xA)
      ∨ kk % (if isMx fa then 32 else kdOf fa) ≠ 0 then .error 4
  else
    -- A has 16 rows and B 32 columns; an MX scale covers 32 steps of k of one row or column
    let load := fun (fmt a w sa : Nat) (tags : Option Nat) =>
      match s.operand k a (packedBytes fmt (w * kk)) tags with
      | .error c => (.error c : Except Nat (List (List Num)))
      | .ok bs =>
        match (if isMx fmt then s.operand k sa (w * (kk / 32)) none else .ok []) with
        | .error c => .error c
        | .ok sc =>
          let xs := ((unpackEls fmt bs (w * kk)).map (elemValue fmt)).zipIdx.map (fun (x : Num × Nat) =>
            if isMx fmt then scaleNum (sc.getD (x.2 / w / 32 * w + x.2 % w) 0).toNat x.1 else x.1)
          .ok ((List.range w).map (fun j => (xs.zipIdx.filter (fun (x : Num × Nat) => x.2 % w == j)).map (fun (x : Num × Nat) => x.1)))
    match load fa (field b 8 4) 16 (field b 16 4) (if fl.testBit 0 then some (field b 24 4) else none),
          load fb (field b 12 4) 32 (field b 20 4) (if fl.testBit 1 then some (field b 28 4) else none) with
    | .error c, _ => .error c
    | _, .error c => .error c
    | .ok as, .ok bs =>
      let int := fun (x : Num) => match x with | .fin n m e => (if n then -1 else 1) * ((m : Int) * 2 ^ e.toNat) | _ => 0
      let el := fun (r c : Nat) =>
        let old := (Table.read 0 t.elems (32 * r + c)).toNat
        let xs := as.getD r []
        let ys := bs.getD c []
        if t.int then wrap 32 (sint 32 old + ((xs.zip ys).map (fun (p : Num × Num) => int p.1 * int p.2)).sum) else dotAcc old xs ys
      let es := (List.range 512).foldl (fun m i => Table.write 0 m i (BitVec.ofNat 32 (el (i / 32) (i % 32)))) ([] : Table (BitVec 32))
      .ok { tile := some (field b 1 1, { int := t.int, elems := es }) }

/-- ZERO: the tile is zeroed and its element type set. -/
def mxeZero (b : List Byte) : Verdict :=
  match field b 2 1 with
  | 0 => .ok { tile := some (field b 1 1, {}) }
  | 0xA | 0xB => .ok { tile := some (field b 1 1, { int := true }) }
  | _ => .error 4

/-- STORE: the tile in OUT_FMT, row by row, with one scale for each row of an MX format at SA_ADDR. -/
def State.mxeStore (s : State) (k : Nat) (b : List Byte) : Verdict :=
  let fmt := field b 7 1
  let fl := field b 6 1
  let t := s.tile k (field b 1 1)
  let stride := field b 36 2
  if elemKind fmt = none ∨ stride % 64 ≠ 0 then .error 4
  else
    let v := fun (i : Nat) => let x := (Table.read 0 t.elems i).toNat; if t.int then intNum (sint 32 x) else f32 x
    let rows := (List.range 16).map (fun r =>
      (r, convertAll fmt (if fl.testBit 2 then some (field b 40 4) else none) (fl.testBit 3) (32 * r) ((List.range 32).map (fun c => v (32 * r + c)))))
    s.checked k (rows.map (fun r => (field b 32 4 + r.1 * stride, r.2.1)) ++
      (if isMx fmt then [(field b 16 4, rows.flatMap (fun r => r.2.2))] else []))

/-- LOAD: a tile of 32-bit elements from local memory; FMT_A gives its element type as for ZERO (log 26). -/
def State.mxeLoad (s : State) (k : Nat) (b : List Byte) : Verdict :=
  let stride := field b 36 2
  let fmt := field b 2 1
  if stride % 64 ≠ 0 ∨ ¬(fmt = 0 ∨ fmt = 0xA ∨ fmt = 0xB) then .error 4
  else if !(List.range 16).all (fun r => localOk s.comp.run k (field b 32 4 + r * stride) 128 false) then .error 2
  else
    let es := (List.range 512).foldl (fun m i =>
      Table.write 0 m i (BitVec.ofNat 32 (s.localNat k (field b 32 4 + i / 32 * stride + 4 * (i % 32)) 4))) ([] : Table (BitVec 32))
    .ok { tile := some (field b 1 1, { int := decide (fmt ≠ 0), elems := es }) }

/-- What an MXE command does, by its OP. -/
def State.mxeVerdict (s : State) (k : Nat) (b : List Byte) : Verdict :=
  if 8 ≤ field b 1 1 ∨ 16 ≤ field b 6 1 ∨ allZero (b.drop 44) = false ∨ field b 38 2 ≠ 0 then .error 4
  else match field b 0 1 with
    | 1 => s.mxeMma k b
    | 2 => mxeZero b
    | 3 => s.mxeStore k b
    | 4 => s.mxeLoad k b
    | _ => .error 4

/-! ### VE (R212) -/

/-- Elements of a result as FP32 values, one operation with each rounding to nearest even. -/
def veElem (op : Nat) (a b d : Num) : Num :=
  match op with
  | 1 => to32 (addNum a b)
  | 2 => to32 (addNum a (negNum b))
  | 3 => to32 (mulNum a b)
  | 4 => fma32 a b d
  | 5 => to32 (maxNum a b)
  | 6 => to32 (minNum a b)
  | 7 => a
  | _ => f32 (approx op (enc32 a))

/-- Operations that read b, and the one that reads its destination. -/
def veTakesB (op : Nat) : Bool := decide (1 ≤ op) && decide (op ≤ 6)

/-- What a VE command does. -/
def State.veVerdict (s : State) (k : Nat) (b : List Byte) : Verdict :=
  let op := field b 0 1
  let fi := field b 1 1
  let fo := field b 2 1
  let fl := field b 3 1
  let n := field b 4 4
  let dst := field b 16 4
  let sc := field b 32 4
  if op < 1 ∨ 0xD < op ∨ elemKind fi = none ∨ elemKind fo = none ∨ 16 ≤ fl ∨ n < 1 ∨ 0x1000000 < n
      ∨ ((isMx fi || isMx fo) = true ∧ n % 32 ≠ 0) ∨ allZero (b.drop 36) = false then .error 4
  else
    match s.values k fi (field b 8 4) n sc (if fl.testBit 3 then some (field b 28 4) else none),
          (if veTakesB op && !fl.testBit 2 then s.values k fi (field b 12 4) n sc none else .ok (List.replicate n (f32 (field b 20 4)))),
          (if op = 4 then s.values k fo dst n sc none else .ok (List.replicate n (.fin false 0 0))) with
    | .error c, _, _ => .error c
    | _, .error c, _ => .error c
    | _, _, .error c => .error c
    | .ok as, .ok bs, .ok ds =>
      if op = 0xC then s.checked k [(dst, leBytes 4 (rsum (as.map enc32)))]
      else if op = 0xD then s.checked k [(dst, leBytes 4 (rmax (as.map enc32)))]
      else
        let rs := ((as.map to32).zip ((bs.map to32).zip (ds.map to32))).map (fun x => veElem op x.1 x.2.1 x.2.2)
        let c := convertAll fo (if fl.testBit 0 then some (field b 24 4) else none) (fl.testBit 1) 0 rs
        s.checked k ([(dst, c.1)] ++ (if isMx fo then [(sc, c.2)] else []))

/-! ### GFE (R213) -/

/-- Formats of FILTER and TOPK. -/
def gfeFmtOk (fmt : Nat) : Bool := fmt == 0 || fmt == 1 || fmt == 0xA || fmt == 0xB

/-- Rows of a GATHER or SCATTER: index in the command and the index read. -/
def State.gfeRows (s : State) (k src n : Nat) : List (Nat × Nat) :=
  (List.range n).map (fun i => (i, s.localNat k (src + 4 * i) 4))

/-- GATHER and SCATTER in local memory. For a SCATTER, Table 09-11 puts the indices at SRC and Table 09-10 the rows at SRC as well:
both are read there (log 26). -/
def State.gfeLocal (s : State) (k : Nat) (b : List Byte) (scatter : Bool) : Verdict :=
  let n := field b 4 4
  let src := field b 8 4
  let dst := field b 12 4
  let base := field b 16 8
  let rb := field b 24 4
  let idx := src
  if !localOk s.comp.run k idx (4 * n) false then .error 2
  else
    let rows := s.gfeRows k idx n
    let moves := rows.map (fun r => if scatter then (src + r.1 * rb, base + r.2 * rb) else (base + r.2 * rb, dst + r.1 * rb))
    if !moves.all (fun m => localOk s.comp.run k m.1 rb false) then .error 2
    else s.checked k (moves.map (fun m => (m.2, s.localBytes k m.1 rb)))

/-- FILTER. -/
def State.gfeFilter (s : State) (k : Nat) (b : List Byte) : Verdict :=
  let fmt := field b 3 1
  let n := field b 4 4
  if !gfeFmtOk fmt ∨ 6 < field b 2 1 then .error 4
  else match s.operand k (field b 8 4) (packedBytes fmt n) none with
    | .error c => .error c
    | .ok bs =>
      let w := elemBits fmt
      let lo := elemValue fmt (field b 28 4 % 2 ^ w)
      let hi := elemValue fmt (field b 32 4 % 2 ^ w)
      let keep := ((elemValues fmt bs n []).zipIdx.filter (fun x => cmpHolds (field b 2 1) x.1 lo hi)).map (·.2)
      s.checked k [(field b 12 4, keep.flatMap (fun i => leBytes 4 i)), (field b 36 4, leBytes 4 keep.length)]

/-- TOPK: indices at DST, values at DST + 4 x K. -/
def State.gfeTopk (s : State) (k : Nat) (b : List Byte) : Verdict :=
  let fmt := field b 3 1
  let n := field b 4 4
  let kk := field b 24 4
  if !gfeFmtOk fmt ∨ kk < 1 ∨ 1024 < kk then .error 4
  else match s.operand k (field b 8 4) (packedBytes fmt n) none with
    | .error c => .error c
    | .ok bs =>
      let xs := unpackEls fmt bs n
      let best := topK kk (xs.zipIdx.map (fun x => (elemValue fmt x.1, x.2, x.1)))
      s.checked k [(field b 12 4, best.flatMap (fun y => leBytes 4 y.2.1)), (field b 12 4 + 4 * kk, packEls fmt (best.map (fun y => y.2.2)))]

/-- Pool rows of a GATHER or SCATTER, as requests of up to 64 units split at 16 KiB boundaries (R213). -/
def State.gfePool (s : State) (k : Nat) (b : List Byte) (scatter : Bool) : Except Nat (List (Frame × ThreadSink)) :=
  let n := field b 4 4
  let src := field b 8 4
  let dst := field b 12 4
  let base := field b 16 8
  let rb := field b 24 4
  let idx := src
  let here := if scatter then src else dst
  if rb = 0 ∨ rb % 64 ≠ 0 then .error 4
  else if !localOk s.comp.run k idx (4 * n) false || !localOk s.comp.run k here (n * rb) (!scatter) then .error 2
  else .ok ((s.gfeRows k idx n).flatMap (fun r =>
    let a := (base + r.2 * rb) % 2 ^ 56
    (poolParts a (rb / 64)).map (fun p =>
      let l := here + r.1 * rb + (p.1 - a)
      if scatter then (s.coreFrame k 0x12 p.1 p.2 (s.localBytes k l (64 * p.2)), ThreadSink.scatter)
      else (s.coreFrame k 0x10 p.1 p.2 [], ThreadSink.gather l (64 * p.2)))))

/-- Fields of a GFE descriptor that every operation must meet. -/
def gfeShape (b : List Byte) : Bool :=
  decide (field b 1 1 < 2) && decide (1 ≤ field b 4 4) && decide (field b 4 4 ≤ 0x1000000) && allZero (b.drop 40)
    && (decide (3 ≤ field b 0 1) || (decide (field b 24 4 % 4 = 0) && decide (field b 24 4 ≠ 0)))

/-- A GFE command accesses the pool: its rows are pool requests. -/
def gfePooled (b : List Byte) : Bool := (field b 1 1 == 1) && decide (field b 0 1 < 3)

/-- What a GFE command without pool rows does. -/
def State.gfeVerdict (s : State) (k : Nat) (b : List Byte) : Verdict :=
  if !gfeShape b then .error 4
  else match field b 0 1 with
    | 1 => if gfePooled b then (s.gfePool k b false).map (fun _ => {}) else s.gfeLocal k b false
    | 2 => if gfePooled b then (s.gfePool k b true).map (fun _ => {}) else s.gfeLocal k b true
    | 3 => s.gfeFilter k b
    | 4 => s.gfeTopk k b
    | _ => .error 4

/-! ### Start (R217, R218, R225) -/

/-- The verdict of the command at an engine's head: cause 5 for a quarantined engine, 2 for a descriptor outside the open regions. -/
def State.verdict (s : State) (k e desc : Nat) : Verdict :=
  if (s.core k).quar.getLsbD e then .error 5
  else if !localOk s.comp.run k desc 64 false then .error 2
  else
    let b := s.localBytes k desc 64
    match e with
    | 0 => s.mxeVerdict k b
    | 3 => s.gfeVerdict k b
    | _ => s.veVerdict k b

/-- A command is sampled: one in every 2^RATE_LOG2 of its engine, where its class is enabled and a shadow is there (R225, R363). -/
def State.samples (s : State) (k e : Nat) (b : List Byte) : Bool :=
  let cls := if e = 0 then 0 else if e = 3 then 2 else 1
  s.glb.shadowEn.getLsbD cls && decide (((s.engine k e).started + 1) % 2 ^ s.glb.rateLog2.toNat = 0)
    && !(s.shadowCores k e).isEmpty && !(e == 3 && gfePooled b)

/-- The command at the head of an engine starts, when it is a command of operation `op` that can run: it reads its descriptor and its
operands now. A copy that a shadow comparison has placed ahead of it runs first (R225). -/
def State.engineStart (s : State) (k e op : Nat) : State :=
  match (s.engine k e).queue with
  | [] => s
  | c :: cs =>
    let b := s.localBytes k c.desc 64
    if !s.coreUp k || c.phase != .queued || (s.engine k e).testing || s.copyWaits k e || !localOk s.comp.run k c.desc 64 false || field b 0 1 != op then s
    else match s.verdict k e c.desc with
      | .error _ => s
      | .ok o =>
        let rows := if e = 3 ∧ gfePooled b = true then (match s.gfePool k b (field b 0 1 == 2) with | .ok r => r | .error _ => []) else []
        let smp := s.samples k e b
        let s := s.onEngine k e (fun (x : Engine) => { x with
          started := (x.started + 1) % 2 ^ 24
          queue := { c with phase := .running, sampled := smp, out := o, rowsTodo := rows } :: cs })
        ((if rows.isEmpty then s else s.pumpRows k 256).settleThread k c.tid)

/-- A start row. -/
def State.startRow (s : State) (core : BitVec 10) (e op : Nat) : Host.Outcome State Fault Refusal :=
  .next (s.engineStart core.toNat e op)

/-- MXE MMA. -/
def execMxeMma (core : BitVec 10) (s : State) : Host.Outcome State Fault Refusal := s.startRow core 0 1
/-- MXE ZERO. -/
def execMxeZero (core : BitVec 10) (s : State) : Host.Outcome State Fault Refusal := s.startRow core 0 2
/-- MXE STORE. -/
def execMxeStore (core : BitVec 10) (s : State) : Host.Outcome State Fault Refusal := s.startRow core 0 3
/-- MXE LOAD. -/
def execMxeLoad (core : BitVec 10) (s : State) : Host.Outcome State Fault Refusal := s.startRow core 0 4

/-- Engine number of a VE. -/
def veNo (ve : Bool) : Nat := if ve then 2 else 1

/-- VE ADD. -/
def execVeAdd (core : BitVec 10) (ve : Bool) (s : State) : Host.Outcome State Fault Refusal := s.startRow core (veNo ve) 1
/-- VE SUB. -/
def execVeSub (core : BitVec 10) (ve : Bool) (s : State) : Host.Outcome State Fault Refusal := s.startRow core (veNo ve) 2
/-- VE MUL. -/
def execVeMul (core : BitVec 10) (ve : Bool) (s : State) : Host.Outcome State Fault Refusal := s.startRow core (veNo ve) 3
/-- VE FMA. -/
def execVeFma (core : BitVec 10) (ve : Bool) (s : State) : Host.Outcome State Fault Refusal := s.startRow core (veNo ve) 4
/-- VE MAX. -/
def execVeMax (core : BitVec 10) (ve : Bool) (s : State) : Host.Outcome State Fault Refusal := s.startRow core (veNo ve) 5
/-- VE MIN. -/
def execVeMin (core : BitVec 10) (ve : Bool) (s : State) : Host.Outcome State Fault Refusal := s.startRow core (veNo ve) 6
/-- VE CVT. -/
def execVeCvt (core : BitVec 10) (ve : Bool) (s : State) : Host.Outcome State Fault Refusal := s.startRow core (veNo ve) 7
/-- VE EXP2. -/
def execVeExp2 (core : BitVec 10) (ve : Bool) (s : State) : Host.Outcome State Fault Refusal := s.startRow core (veNo ve) 8
/-- VE LOG2. -/
def execVeLog2 (core : BitVec 10) (ve : Bool) (s : State) : Host.Outcome State Fault Refusal := s.startRow core (veNo ve) 9
/-- VE RCP. -/
def execVeRcp (core : BitVec 10) (ve : Bool) (s : State) : Host.Outcome State Fault Refusal := s.startRow core (veNo ve) 10
/-- VE RSQRT. -/
def execVeRsqrt (core : BitVec 10) (ve : Bool) (s : State) : Host.Outcome State Fault Refusal := s.startRow core (veNo ve) 11
/-- VE RSUM. -/
def execVeRsum (core : BitVec 10) (ve : Bool) (s : State) : Host.Outcome State Fault Refusal := s.startRow core (veNo ve) 12
/-- VE RMAX. -/
def execVeRmax (core : BitVec 10) (ve : Bool) (s : State) : Host.Outcome State Fault Refusal := s.startRow core (veNo ve) 13

/-- GFE GATHER. -/
def execGfeGather (core : BitVec 10) (s : State) : Host.Outcome State Fault Refusal := s.startRow core 3 1
/-- GFE SCATTER. -/
def execGfeScatter (core : BitVec 10) (s : State) : Host.Outcome State Fault Refusal := s.startRow core 3 2
/-- GFE FILTER. -/
def execGfeFilter (core : BitVec 10) (s : State) : Host.Outcome State Fault Refusal := s.startRow core 3 3
/-- GFE TOPK. -/
def execGfeTopk (core : BitVec 10) (s : State) : Host.Outcome State Fault Refusal := s.startRow core 3 4

/-! ### End (R217, R218, R225, R226) -/

/-- The head command leaves an engine's queue, and its thread's ECNT falls. -/
def State.engineRetire (s : State) (k e t : Nat) : State :=
  let s := s.onEngine k e (fun (x : Engine) => { x with queue := x.queue.tail })
  (s.onThread k t (fun (x : Thread) => { x with ecnt := x.ecnt - 1 })).settleThread k t

/-- Threads stopped at a full queue of a core look again. -/
def State.settleEngines (s : State) (k : Nat) : State :=
  ((s.core k).threads.filter (fun e => e.2.state == .waitEng && e.2.wait == .none)).foldl (fun s e => s.settleThread k e.1) s

/-- A command that cannot run: its thread faults when it starts, and nothing is written (R218). -/
def execEngineInvalidDescriptor (core : BitVec 10) (engine : BitVec 2) (s : State) : Host.Outcome State Fault Refusal :=
  .next (
    let k := core.toNat
    let e := engine.toNat
    match (s.engine k e).queue with
    | [] => s
    | c :: _ =>
      if !s.coreUp k || c.phase != .queued || (s.engine k e).testing then s
      else match s.verdict k e c.desc with
        | .ok _ => s
        | .error cause => (((s.engineRetire k e c.tid).settleEngines k).faultThread k c.tid cause c.pc))

/-- Write what a command writes. -/
def State.applyOut (s : State) (k : Nat) (o : EngOut) : State :=
  let s := o.writes.foldl (fun s w => s.localWrite k w.1 w.2) s
  match o.tile with
  | none => s
  | some (i, t) => s.onCore k (fun (c : Core) => { c with tiles := Table.write {} c.tiles i t })

/-- A command that has finished, and, when sampled, has been compared or voted on, writes its results, and ECNT falls (R217, R226). -/
def execEngineCommandComplete (core : BitVec 10) (engine : BitVec 2) (s : State) : Host.Outcome State Fault Refusal :=
  .next (
    let k := core.toNat
    let e := engine.toNat
    match (s.engine k e).queue with
    | [] => s
    | c :: _ =>
      let done := (c.phase == .running && !c.sampled) || c.phase == .compared
      if s.coreUp k && done && c.rowsLeft == 0 && c.rowsTodo.isEmpty then
        ((s.applyOut k c.out).engineRetire k e c.tid).settleEngines k
      else s)

/-- Set the phase of an engine's head command. -/
def State.headPhase (s : State) (k e : Nat) (p : EngPhase) : State :=
  s.onEngine k e (fun (x : Engine) => match x.queue with
    | c :: cs => { x with queue := { c with phase := p } :: cs }
    | [] => x)

/-- Thread fault 0x07: no majority, nothing written (R226). -/
def State.noMajority (s : State) (k e : Nat) (c : EngCmd) : State :=
  (((s.engineRetire k e c.tid).settleEngines k).faultThread k c.tid 7 c.pc)

/-- OP and format of a descriptor in a mismatch entry (Table 15-7). -/
def State.opFmt (s : State) (k : Nat) (e : Nat) (c : EngCmd) : Nat :=
  let b := s.localBytes k c.desc 64
  field b 0 1 + 16 * (if e = 0 then field b 2 1 else if e = 3 then field b 3 1 else field b 1 1)

/-- The primary's and the shadow's results of a sampled command are compared (R225): equal ones let it complete, others call for a
third execution, without which all are taken to differ (R363). -/
def execShadowCompare (core : BitVec 10) (engine : BitVec 2) (differ : Bool) (s : State) : Host.Outcome State Fault Refusal :=
  .next (
    let k := core.toNat
    let e := engine.toNat
    match (s.engine k e).queue with
    | [] => s
    | c :: _ =>
      if !s.coreUp k || c.phase != .running || !c.sampled || (s.shadowCores k e).any (fun j => (s.shadowCores k e).head? == some j && s.runsOwn j e) then s
      else
        let s := s.countShadow 0
        if !differ then s.headPhase k e .compared
        else
          let s := s.countShadow 1
          match s.shadowCores k e with
          | _ :: _ :: _ => s.headPhase k e .voting
          | peers =>
            let a := peers.headD 0xFFFF
            ((k :: peers).foldl (fun s j => s.suspectEngine 0x0E j e (s.opFmt k e c) 2 (if j = k then a else k)) s).noMajority k e c)

/-- The third execution decides (R226), and is the other engine of the entries (Table 15-8, log 141): 0 the primary agrees with it, 1 the shadow does, 2 and 3 none do. -/
def execMajorityVote (core : BitVec 10) (engine : BitVec 2) (vote : BitVec 2) (s : State) : Host.Outcome State Fault Refusal :=
  .next (
    let k := core.toNat
    let e := engine.toNat
    match (s.engine k e).queue, s.shadowCores k e with
    | c :: _, a :: b :: _ =>
      if !s.coreUp k || c.phase != .voting then s
      else
        let op := s.opFmt k e c
        if vote = 0 then (s.suspectEngine 0x0E a e op 1 b).headPhase k e .compared
        else if vote = 1 then (s.suspectEngine 0x0E k e op 1 b).headPhase k e .compared
        else ([k, a, b].foldl (fun s j => s.suspectEngine 0x0E j e op 2 (if j = b then k else b)) s).noMajority k e c
    | c :: _, _ => if s.coreUp k && c.phase == .voting then s.noMajority k e c else s
    | _, _ => s)

end Sys2Proof.Machine
end

