-- ==== Sys2Proof/Machine/Lifecycle.lean ====
section
/-! DEFINITION. Leaving SERVICE, HALT and RECOVERY, and the package rows: the steward heartbeat and the trellis (chapters 01, 15
and 16). -/

namespace Sys2Proof.Machine

/-! ### Leaving SERVICE (R374) -/

/-- Accesses of the ADK link that wait, for what is dropped or behind it, are answered with DENIED (log 127). -/
def State.adkAbandon (s : State) : State :=
  s.adk.outstanding.foldl (fun (s : State) q => if q.bad then s.adkMalformed q else s.adkFail q stDenied)
    { s with adk := { s.adk with outstanding := [] }, ext := { s.ext with waiting := false } }

/-- Everything in flight is gone (R381, R385): requests, walks, snoops, tray requests and decodes. Frames on the trellis
stay there: its routers run on (R14). -/
def State.dropWork (s : State) : State :=
  let s := s.adkAbandon
  { s with
    req := { s.req with reqs := [], fences := [], held := [] }
    coh := { s.coh with snoops := [] }
    tier := { s.tier with reqs := [], makeRoom := [] }
    xl := { s.xl with walks := [], invBusy := false, invWaits := [], ptwDone := none }
    atn := { s.atn with decodes := [] } }

/-- Every thread and engine stops (R381). -/
def State.stopCores (s : State) : State :=
  { s with cpu := { s.cpu with
      cores := Table.mapAll {} (fun _ c => { c with
        threads := Table.mapAll {} (fun _ t => t.stopped) c.threads
        engines := Table.mapAll {} (fun _ e => e.stopped) c.engines
        comps := [] }) s.cpu.cores
      barHere := [] } }

/-- Every rim and bridge port stops and powers its lanes down (R381). -/
def State.portsOff (s : State) : State :=
  { s with
    ports := Table.mapAll {} (fun _ p => { p with
      link := { p.link with state := .down, membersUp := 0, signal := false, helloSent := false, peerHelloUs := none, solo := .down,
                            soloSent := false, soloOut := [],
                            outAt := if p.link.state = .opened then s.now else p.link.outAt }
      tc := { p.tc with vc6 := [], lanes := [], queues := Table.mapAll {} (fun _ q => { q with fifos := [] }) p.tc.queues } }) s.ports
    tier := { s.tier with trays := Table.mapAll {} (fun _ t => { t with linkUp := false }) s.tier.trays } }

/-- Leases return to UNARMED when SERVICE is left (R374). -/
def State.unarmLeases (s : State) : State :=
  { s with lse := { s.lse with tab := Table.mapAll {} (fun _ l =>
      if l.state = .armed ∨ l.state = .frozen then { l with state := .unarmed } else l) s.lse.tab } }

/-- SRC of the die at a site (Table 15-10); a spare compute die has no code of its own. -/
def State.dieSrc (s : State) (x : Nat) : BitVec 16 :=
  if x = sd0Site then srcSD 0 else if x = sd1Site then srcSD 1
  else match (List.range 16).find? (fun k => pdSite k == x) with
    | some k => src 2 k
    | none => match (List.range 8).find? (fun k => mdSite k == x) with
      | some k => src 3 k
      | none => match (List.range 4).find? (fun k => bdSite k == x) with
        | some k => src 4 k
        | none => match s.siteLc x with
          | some k => srcLC k
          | none => srcModule

/-- Threads that `p` accepts stop: at once, or once their issued requests have completed (R374). A faulted thread stays so. -/
def State.stopThreads (s : State) (p : Nat → Nat → Bool) : State :=
  { s with cpu := { s.cpu with
      cores := Table.mapAll {} (fun k (c : Core) => { c with
        threads := Table.mapAll {} (fun t (x : Thread) =>
          if x.state = .idle ∨ x.state = .faulted ∨ p k t = false then x
          else if x.mcnt = 0 ∧ x.ecnt = 0 then x.stopped else { x with discard := true }) c.threads }) s.cpu.cores
      barHere := Table.mapAll [] (fun _ l => l.filter (fun x => !p (x / 64) (x % 64))) s.cpu.barHere } }

/-- A delta that has not flipped is abandoned: the composition stays, and the staging area stays VALID (R311). -/
def State.abandonDelta (s : State) : State :=
  if s.comp.state = .preparing then { s with comp := { s.comp with state := if s.comp.byNote then .window else .idle, shadow := [], flipAt := none } } else s

/-- What every exit from SERVICE does, in the slot of the state change (R311, R374). -/
def State.leaveService (s : State) : State :=
  (((s.unarmLeases.collTriggers 0xD (fun _ _ => true)).attnLeave).stopThreads (fun k _ => (s.core k).kind == 1)).abandonDelta

/-- Enter HALT for a class of Table 15-3 (R373, R374, R381). -/
def State.enterHalt (s : State) (cls : Nat) : State :=
  if s.mod.state = .off ∨ s.mod.state = .halt then s
  else
    let was := s.mod.state
    let s := s.changeState .halt 0x41 cls
    let s := if was = .service then s.leaveService else s
    let s := ((s.portsOff).stopCores).dropWork
    { s with mod := { s.mod with cause := BitVec.ofNat 8 cls, refClk := false, perst := 0xFFFF, optRstn := false } }

/-! ### RECOVERY (R370, R371) -/

/-- Step 1 of recovery begins, with its entry of class 0x17 (Table 15-13). -/
def State.recoveryStart (s : State) : State :=
  ({ s with log := { s.log with rcvStep := 1 } }).logE 0x17 1 srcModule 0 false

/-- Enter RECOVERY from SERVICE or DRAIN: by a class of Table 15-3, or by MOD_CMD with cause 0x40 (R370, R371, R388). -/
def State.enterRecovery (s : State) (cause : Nat) : State :=
  let was := s.mod.state
  let s := s.changeState .recovery (if cause = 0x40 then 0x40 else 0x41) (if cause = 0x40 then 0 else cause)
  let s := if was = .service then s.leaveService else s
  let s := { s with mod := { s.mod with cause := BitVec.ofNat 8 cause, drainStep := 0 }, log := { s.log with rcvCause := BitVec.ofNat 8 cause } }
  s.recoveryStart

/-- A fault of R370: RECOVERY from SERVICE or DRAIN, a restart in RECOVERY, and elsewhere a repeat of the boot or TEST step that
runs, or HALT where it recurs (R370, R371). -/
def State.recoveryFault (s : State) (cls : Nat) : State :=
  match s.mod.state with
  | .service => s.enterRecovery cls
  | .drain => if s.mod.ready then s else s.enterRecovery cls
  | .recovery =>
    ({ s with log := { s.log with rcvRuns := if s.log.rcvRuns = 0xFFFF then 0xFFFF else s.log.rcvRuns + 1 } }).recoveryStart
  | .boot | .test => if s.mod.stepFailed then s.enterHalt cls else { s with mod := { s.mod with stepFailed := true } }
  | _ => s

/-! ### The steward heartbeat (R24) -/

/-- The heartbeat runs from boot step 4 on (Table 16-2). -/
def State.beating (s : State) : Bool := s.alive && (decide (4 ≤ s.mod.bootStep.toNat) || s.mod.state != .boot)

/-- SD1 sends its stamped heartbeat every microsecond (R24). -/
def execHeartbeatSend (s : State) : Host.Outcome State Fault Refusal :=
  .next (if s.beating && decide (s.hb.sentAt + usT ≤ s.now) then
    { s with hb := { s.hb with sentAt := s.now, inFlight := some s.now } } else s)

/-- SD0 receives the heartbeat and replies (R24). -/
def execHeartbeatReceive (s : State) : Host.Outcome State Fault Refusal :=
  .next (if s.beating && s.hb.inFlight.isSome then
    { s with hb := { s.hb with inFlight := none, replying := true, sd0Heard := s.dieFt sd0Site } } else s)

/-- SD1 receives the reply (R24). -/
def execHeartbeatReplyReceive (s : State) : Host.Outcome State Fault Refusal :=
  .next (if s.beating && s.hb.replying then
    { s with hb := { s.hb with replying := false, sd1Heard := s.now } } else s)

/-- SD0 hears no heartbeat for 20 µs: it logs the failure of SD1, raises an event and halts the device (R24). -/
def execHeartbeatTimeoutSd0 (s : State) : Host.Outcome State Fault Refusal :=
  .next (if s.beating && decide (s.hb.sd0Heard + 20 * usT ≤ s.dieFt sd0Site) then
    (s.logE 0x12 0 (srcSD 1) 0 true).enterHalt 0x12 else s)

/-- SD1 hears no reply for 20 µs: it halts the device with no event, and the ADK link is lost with SD0 (R24). -/
def execHeartbeatTimeoutSd1 (s : State) : Host.Outcome State Fault Refusal :=
  .next (if s.beating && decide (s.hb.sd1Heard + 20 * usT ≤ s.now) then
    let h := s.enterHalt 0x12
    { h with log := s.log, evq := s.evq, adk := { s.adk with state := .down }, hb := { s.hb with sd0Dead := true } } else s)

/-! ### The trellis (R19, R20, R358) -/

/-- Frames that a router holds for a route plane and virtual channel. -/
def trellisDepth : Nat := Config.trellisSpare + 1

/-- The oldest frame waiting at a router on a route plane and virtual channel is sent to the next router, when that one
holds a credit, or from the last router to its port; `replays` header flits failed first, and 8 of them retrain the edge instead
(R20, R358). Routers run whenever the device is outside OFF (R14). -/
def execTrellisHop (site : BitVec 6) (yx : Bool) (vc : BitVec 3) (replays : BitVec 4) (s : State) :
    Host.Outcome State Fault Refusal :=
  .next (
    match s.trellisHead site.toNat yx vc with
    | none => s
    | some i => match s.pkg.transit[i]? with
      | none => s
      | some t =>
        let nx := nextSite t.yx t.site t.dest
        let key := edgeKey t.site nx
        if s.mod.state == .off then s
        else if t.site = t.dest then
          { s with pkg := { s.pkg with transit := s.pkg.transit.eraseIdx i } }.enqueue t.port t.queue t.item
        else if s.pkg.retraining.any (fun e => e.1 == key) then s
        else if 8 ≤ replays.toNat then
          let s := s.logE 0x07 0 (s.dieSrc t.site) nx true
          { s with pkg := { s.pkg with retraining := s.pkg.retraining ++ [(key, ⟨s.now⟩)] } }
        else if s.trellisUsed nx t.yx vc < trellisDepth then
          { s with pkg := { s.pkg with transit := s.pkg.transit.eraseIdx i ++ [{ t with site := nx }] } }
        else s)

/-- An edge has not retrained within 10 µs: HALT (R358). -/
def execTrellisRetrainTimeout (edge : BitVec 8) (s : State) : Host.Outcome State Fault Refusal :=
  .next (match s.pkg.retraining.find? (fun e => e.1 == edge.toNat) with
    | some e => if e.2.since + 10 * usT ≤ s.now then s.enterHalt 0x07 else s
    | none => s)

/-- An edge has retrained: its frames move again (R358). -/
def execTrellisEdgeRetrainDone (edge : BitVec 8) (s : State) : Host.Outcome State Fault Refusal :=
  .next { s with pkg := { s.pkg with retraining := s.pkg.retraining.filter (fun e => e.1 != edge.toNat) } }

end Sys2Proof.Machine
end

