-- ==== Sys2Proof/Machine/Links.lean ====
section
/-! DEFINITION. The link layer and the peers of the rim ports, the dead targets, and the frames that leave (chapters 03 and 12). -/

namespace Sys2Proof.Machine

/-! ### Ports and bundles (R51 to R53, R79) -/

/-- Rim ports run in this device state (Tables 16-1, 16-3 and 16-5). -/
def State.portsRun (s : State) : Bool :=
  match s.mod.state with
  | .test | .service | .recovery => true
  | .drain => !s.mod.ready
  | _ => false

/-- The lanes of a port are under a maker mode (R410). -/
def State.makerHolds (s : State) (p : Nat) : Bool := s.glb.makerMode != 0 && s.glb.makerTgt.toNat == p

/-- The image gives the port, or its bundle, a class, ports run, and no maker mode holds the lanes. -/
def State.enabledPort (s : State) (p : Nat) : Bool := s.portsRun && (s.link (s.base p)).cls != 3 && !s.makerHolds p

/-- The port belongs to a bundle. -/
def State.bundled (s : State) (p : Nat) : Bool := (s.link (s.base p)).bundleSize != 0

/-- The port carries frames of its link: it is unbundled, or in its bundle (R53). -/
def State.isMember (s : State) (p : Nat) : Bool :=
  !s.bundled p || (s.link (s.base p)).membersUp.getLsbD (s.link p).bundleOff.toNat

/-- Credits that a port of a class advertises on a virtual channel (Table 03-4). -/
def advertised (cls : BitVec 2) (vc : Nat) : Nat :=
  if cls = 1 then (match vc with | 2 | 3 => 1536 | 6 => 256 | 7 => 4864 | _ => 0)
  else match vc with | 0 | 1 => 512 | 2 | 3 | 4 => 1536 | 5 | 6 => 256 | _ => 2048

/-- Credits that a port or bundle advertises (R62). -/
def State.advertises (s : State) (b vc : Nat) : Nat := advertised (s.link b).cls vc * (s.members b).length

/-- A unit lies behind a port or bundle. -/
def State.behind (s : State) (b : Nat) (u : BitVec 16) : Bool :=
  match unitOf s.comp.run u with
  | .port p => s.base p == b
  | .away p _ => s.base p == b
  | _ => false

/-- Units behind a port that are members of a collective group, of a domain, or hold a lease. -/
def State.groupUnits (s : State) (b : Nat) : List (BitVec 16) :=
  ((s.clv.groups.flatMap (fun (g : Nat × Group) => (g.2.members.filter (fun m => !m.2.coreV)).map (fun m => m.2.unit))).filter (s.behind b)).dedup
def State.domUnits (s : State) (b : Nat) : List (BitVec 16) :=
  ((s.coh.doms.flatMap (fun (d : Nat × Domain) => d.2.members.map (·.2))).filter (s.behind b)).dedup

/-! ### Link control words (R54, R55, R57) -/

/-- The link control word that a port sends, of a type: 0 NORMAL, 1 NAK, 2 INIT, with its LCRC (Table 03-2). -/
def State.lcwOf (s : State) (b : Nat) (typ : BitVec 4) : Lcw :=
  let l := s.link b
  ({ typ := typ, ackV := l.rxAny, ackSeq := l.rxSeq - 1,
     credits := (List.range 8).map (fun v =>
      if typ = 2 then BitVec.ofNat 16 (s.advertises b v) else Table.read 0 l.credFreed v) } : Lcw).sealed

/-- Send a link control word: it acknowledges everything accepted. -/
def State.sendLcw (s : State) (b : Nat) (typ : BitVec 4) : State :=
  let w := s.lcwOf b typ
  s.onLink b (fun l => { l with lcwOut := w, owedAck := none })

/-- A link after an acknowledgement (R55, R56). -/
def Link.acked (l : Link) (w : Lcw) (now : FT) : Link :=
  if !w.ackV then l
  else match l.replay.findIdx? (fun e => e.1 == w.ackSeq) with
    | some i => { l with replay := l.replay.drop (i + 1), ackAt := now, replays := 0 }
    | none => l

/-- Credits that the frames of the replay buffer cost, by virtual channel (R57, R61). -/
def Link.replayCost (l : Link) (vc : Nat) : Nat :=
  ((l.replay.filter (fun e => e.2.vc.toNat == vc)).map (fun e => creditCost e.2)).sum

/-- A table of credits by virtual channel. -/
def creditTable (f : Nat → Nat) : Table (BitVec 16) :=
  (List.range 8).foldl (fun (t : Table (BitVec 16)) v => Table.write 0 t v (BitVec.ofNat 16 (f v))) []

/-- The credits of a link control word. -/
def lcwTable (w : Lcw) : Table (BitVec 16) := creditTable (fun v => (w.credits.getD v 0).toNat)

/-! ### HELLO (R80, R81) -/

/-- The HELLO of a port (Table 03-13). -/
def State.helloFrame (s : State) (b : Nat) : Frame :=
  let l := s.link b
  { opcode := 0x60, dst := 0xFFFF, src := s.selfUnit, vc := 6, epoch := s.comp.epoch, length := 1,
    payload := leBytes 2 s.glb.unitId.toNat ++ [0x40, BitVec.ofNat 8 l.cls.toNat] ++ leBytes 2 b
      ++ [BitVec.ofNat 8 (2 ^ l.bundleSize.toNat), BitVec.ofNat 8 s.comp.epoch.toNat] ++ leBytes 8 s.glb.deviceId.toNat
      ++ leBytes 2 l.helloUs.toNat ++ fill 6 0 ++ leBytes 8 s.now ++ fill 32 0 }

/-- Send a HELLO, ahead of every queue (R280). -/
def State.sendHello (s : State) (b : Nat) : State :=
  (s.onTc b (fun t => { t with vc6 := t.vc6 ++ [s.helloFrame b] })).onLink b (fun l => { l with
    helloSent := true, helloTxAt := s.now, nonceTx := some (l.nonceTx.getD s.now) })

/-! ### Dead targets (R85 to R88) -/

/-- A request waits on the target behind a port. -/
def State.waitsOn (s : State) (b : Nat) (r : Req) : Bool :=
  match r.stage with
  | .remote p => p == b
  | _ => (s.link b).cls == 1 && s.needsTray r b

/-- Unit ID that names the target behind a port to a requester (Table 03-15). -/
def State.targetUnit (s : State) (b : Nat) (r : Req) : BitVec 16 :=
  match (s.link b).cls.toNat with
  | 0 => r.frame.dst
  | 1 => (trayUnitId s.comp.run b).getD 0xFFFF
  | _ => (s.link b).peerUnit

/-- Switch stages between a request's requester and the module of its target. -/
def State.stagesOf (s : State) (b : Nat) (r : Req) : Nat :=
  r.frame.hops.toNat +
    (if r.stages != 0 then r.stages else if (s.link b).cls == 2 then stagesTo s.comp.run (s.link b).peerUnit else 0)

/-- A target behind a port, or behind the bridge port b - 256, is dead for the requests `rs` that wait on it, first to last: one FAULT.REC to each requester, one event, and
TARGET_DEAD to each (R87). -/
def State.targetDeath (s : State) (b why : Nat) (target : BitVec 16) (stages : Nat) (rs : List Req) : State :=
  let asked := rs.filter (fun r => match r.origin with | .port _ => true | _ => false)
  let units := (asked.map (fun r => r.frame.src)).dedup
  let s := units.foldl (fun (s : State) u =>
    match asked.find? (fun r => r.frame.src == u) with
    | some r => s.notice u (s.faultRec u r.frame.tag why target.toNat (s.stagesOf b r) r.tva.toNat)
    | none => s) s
  let s := s.event 0x49 why (if b < 256 then srcP b else srcB (b - 256)) (target.toNat + stages * 2 ^ 16)
  -- an answer that comes later finds no request (R89), and a tag that was theirs is free
  let s := (rs.foldl (fun (s : State) r => if (s.findReq r.n).isSome then s.finish r stDead else s) s).cutTray rs
  (if b < 256 then s.tagFree b else s).wakeStaged

/-- The target behind a port dies with a reason of Table 03-15 (R85): once for each death. -/
def State.deadTarget (s : State) (b why : Nat) : State :=
  if (s.link b).dead then s
  else
    let cls := (s.link b).cls
    let rs := s.req.reqs.filter (s.waitsOn b)
    let target := match rs with
      | r :: _ => s.targetUnit b r
      | [] => if cls = 1 then (trayUnitId s.comp.run b).getD 0xFFFF else (s.link b).peerUnit
    let stages := match rs with | r :: _ => s.stagesOf b r | [] => 0
    let s := s.onLink b (fun l => { l with dead := true })
    let s := s.targetDeath b why target stages rs
    let s := if cls = 1 then s.trayGone b
      else if cls = 0 then (s.groupUnits b).foldl (fun (s : State) u => s.memberDead u false) s
      else (s.treePortDead b).subDead (fun _ y => s.base y.port == b)
    if cls = 1 then s else (s.domUnits b).foldl (fun (s : State) u => s.unitDomains u) s

/-! ### Down, training and FENCED (R79, R82, R83) -/

/-- A port or bundle goes to DOWN with a cause; one that was past TRAINING raises event 0x46 (R79). -/
def State.portDown (s : State) (b : Nat) (cause : BitVec 8) : State :=
  let was := (s.link b).state
  if was = .down then s
  else
    let s := s.onLink b (fun l => { l with
      state := .down, downCause := cause, membersUp := 0, helloSent := false, peerHelloUs := none,
      nakSent := false, owedAck := none, outAt := if was = .opened then s.now else l.outAt })
    let s := (s.members b).foldl (fun (s : State) m => s.onLink m (fun l => { l with
      solo := .down, soloSent := false, soloOut := [], downCause := cause })) s
    let s := s.onTc b (fun t => { t with vc6 := t.vc6.filter (fun f => f.opcode != 0x60), lanes := [] })
    let s := if was = .training then s else s.logWith 0x08 cause.toNat (srcP b) 0xFF 0x46 cause.toNat 0xFF
    let s := if (s.link b).cls = 1 ∧ was = .opened then s.trayGone b else s
    if cause = 5 then s.deadTarget b 2 else s

/-- A port's lanes enter TRAINING when signal is present and the port is enabled; a link that was trained before retrains. -/
def State.train (s : State) (p : Nat) : State :=
  let b := s.base p
  let l := s.link p
  let idle := if s.bundled p then l.solo == .down else l.state == .down
  if !s.enabledPort p || !l.signal || !idle then s
  else
    let s := s.onLink p (fun l => { l with
      trainAt := s.now, retrains := if l.again then l.retrains + 1 else l.retrains, again := false,
      solo := if s.bundled p then .training else l.solo })
    if (s.link b).state = .down then s.onLink b (fun l => { l with state := .training }) else s

/-- A port or bundle goes to DOWN and retrains at once where it can (R56, R61, R79). -/
def State.relink (s : State) (b : Nat) (cause : BitVec 8) : State :=
  (s.members b).foldl (fun (s : State) m => s.train m) (s.portDown b cause)

/-- A member leaves its bundle, which goes down with its last member (R53). -/
def State.memberRemove (s : State) (p : Nat) (cause : BitVec 8) : State :=
  let b := s.base p
  let off := (s.link p).bundleOff.toNat
  let was := (s.link b).membersUp.getLsbD off
  let s := s.onLink p (fun l => { l with
    solo := .down, soloSent := false, soloOut := [], downCause := if p = b then l.downCause else cause })
  let s := s.onLink b (fun l => { l with membersUp := l.membersUp &&& ~~~((1 : BitVec 8) <<< off) })
  if (s.link b).membersUp != 0 then (if was then s.logWith 0x08 cause.toNat (srcP b) off 0x46 cause.toNat off else s)
  else if (s.members b).all (fun m => (s.link m).solo == .down) || was then s.portDown b cause
  else s

/-- A peer of the wrong kind: FENCED until the port goes down (R82). -/
def State.classFence (s : State) (b member bundle : Nat) : State :=
  ((s.onLink b (fun l => { l with state := .fenced, downCause := 6 })).event 0x48 6 (srcP b) (member + 256 * bundle)).deadTarget b 5

/-- Every frame queued to a port is discarded (R83). -/
def State.cutQueues (s : State) (b : Nat) : State :=
  let s := s.onTc b (fun (t : Traffic) =>
    { t with vc6 := [], queues := Table.mapAll {} (fun _ (q : Queue) => { q with fifos := [], deficit := 0 }) t.queues })
  { s with pkg := { s.pkg with transit := s.pkg.transit.filter (fun (t : Transit) => s.base t.port != b) } }

/-- The endpoint on the old peer is lost in SERVICE: the leases of its units expire with trigger 0x3 (R83, R143), and the extents that
its units own without such a lease are revoked with that trigger too (Table 06-6). -/
def State.leasesLost (s : State) (b : Nat) : State :=
  if s.mod.state = .service then
    let s := (s.lse.tab.filter (fun (e : Nat × Lease) => (e.2.state == .armed || e.2.state == .frozen) && s.behind b e.2.unit)).foldl
      (fun (s : State) (e : Nat × Lease) => s.expireLease e.1 3) s
    s.revokeAll 3 (fun x => x.owner != 0xFFFF && s.behind b x.owner && x.state == .active)
  else s

/-- Another peer answers (R83): FENCED, what was queued to the old one is gone, and what waited on it is dead. What was to be replayed
is never sent, so it costs no credit (R57). The numbering of frames goes on: the spec does not say whether LSEQ starts anew with
another peer (log 132). -/
def State.peerChange (s : State) (b : Nat) : State :=
  let s := s.onLink b (fun (l : Link) => { l with
    state := .fenced, downCause := 7, peerChg := true, replay := [], replays := 0,
    credSpent := creditTable (fun v => (Table.read 0 l.credSpent v - Table.read 0 l.preSpent v).toNat), preSpent := [],
    outAt := if l.state = .opened then s.now else l.outAt })
  let s := ((s.event 0x47 7 (srcP b) (s.link b).lastId.toNat).cutQueues b).deadTarget b 3
  match (s.link b).cls.toNat with
  | 0 => s.leasesLost b
  | 1 => s.trayRetired b
  | _ => s

/-- A port opens (R57, R81, R83, R359): what the peer has not acknowledged is replayed, and its target lives. -/
def State.portOpen (s : State) (b : Nat) : State :=
  let again := !(s.link b).preSpent.isEmpty
  let s := s.onLink b (fun l => { l with
    state := .opened, dead := false, ackAt := s.now, replays := 0, preSpent := [],
    peerId := if l.peerKnown then l.peerId else l.lastId, peerKnown := true })
  let s := { s with log := { s.log with fenced := Table.write false s.log.fenced (2 ^ 24 * 7 + b) false } }
  let s := if again then s.countPrt b 1 else s
  match (s.link b).cls.toNat with
  | 0 => (s.groupUnits b).foldl (fun (s : State) u => s.memberBack u) s
  | 1 => s.trayPortOpen b (s.link b).peerId
  | _ => s

/-! ### What the link layer does with a frame (R55, R61, R79) -/

/-- Credits of a virtual channel that the peer may have spent: what it has used since INIT, less what the last link control word
gave back (R54, R61). -/
def Link.outstanding (l : Link) (v : Nat) : Nat :=
  (Table.read 0 l.credUsed v - (if l.lcwOut.typ = 2 then 0 else l.lcwOut.credits.getD v 0)).toNat

/-- A frame that arrived good and in order on a port costs its credits and is acknowledged later; the answer says whether the
link accepted it. One beyond the credits advertised and given back is discarded, and the port retrains (R61). -/
def State.linkAccept (s : State) (p : Nat) (vc : BitVec 3) (cost : Nat) : State × Bool :=
  let b := s.base p
  let l := s.link b
  let v := vc.toNat
  if !s.alive || l.cls == 3 || !l.state.flows || !s.isMember p then (s, false)
  else if s.advertises b v < l.outstanding v + cost then (s.relink b 3, false)
  else
    let add := fun (t : Table (BitVec 16)) => Table.write 0 t v (Table.read 0 t v + BitVec.ofNat 16 cost)
    (s.onLink b (fun l => { l with
      rxSeq := l.rxSeq + 1, rxAny := true, nakSent := false, owedAck := some (l.owedAck.getD s.now),
      credUsed := add l.credUsed, credFreed := add l.credFreed, gotNum := if vc = 6 then l.gotNum else l.gotNum + 1 }), true)

/-- MEMBER values that a port class accepts (R82). -/
def memberOk (cls : BitVec 2) (m : Nat) : Bool :=
  match cls.toNat with | 0 => m == 2 || m == 0x80 | 1 => m == 1 | 2 => m == 0x40 | _ => false

/-- A HELLO that the link has accepted (R81 to R83). -/
def State.onHello (s : State) (b : Nat) (f : Frame) : State :=
  let pl := f.payload
  let l := s.link b
  let id := BitVec.ofNat 64 (field pl 8 8)
  let member := field pl 2 1
  let bundle := field pl 6 1
  let s := s.onLink b (fun l => { l with
    peerUnit := BitVec.ofNat 16 (field pl 0 2), peerMember := BitVec.ofNat 8 member, peerClass := BitVec.ofNat 2 (field pl 3 1),
    lastId := id, peerHelloUs := some (BitVec.ofNat 16 (field pl 16 2)), helloRxAt := s.now
    nonceRx := some (l.nonceRx.getD (field pl 24 8)) })
  match l.state with
  | .hello =>
    if !memberOk l.cls member || bundle != 2 ^ l.bundleSize.toNat then s.classFence b member bundle
    else if l.peerKnown && id != l.peerId then s.peerChange b
    else if l.helloSent then s.portOpen b
    else s
  | .opened => if id != l.peerId then s.peerChange b else s
  | _ => s

/-- A HELLO on the lanes of a member that has retrained alone: with the bundle's peer, and a kind of peer that R82 allows, it rejoins
(R53); another kind fences those lanes. -/
def State.helloAlone (s : State) (p : Nat) (f : Frame) : State :=
  let b := s.base p
  let member := field f.payload 2 1
  let bundle := field f.payload 6 1
  if (s.link p).solo != .hello then (if (s.link p).solo = .fenced then s.onLink p (fun l => { l with soloRxAt := s.now }) else s)
  else
    let s := s.onLink p (fun l => { l with soloRxAt := s.now })
    if !memberOk (s.link b).cls member || bundle != 2 ^ (s.link b).bundleSize.toNat then
      (s.onLink p (fun l => { l with solo := .fenced, downCause := 6 })).event 0x48 6 (srcP p) (member + 256 * bundle)
    else if (s.link b).state.flows ∧ (s.link p).soloSent = true ∧ field f.payload 8 8 = (s.link b).peerId.toNat then
      (s.onLink p (fun l => { l with solo := .opened })).onLink b (fun l => { l with
        membersUp := l.membersUp ||| ((1 : BitVec 8) <<< (s.link p).bundleOff.toNat) })
    else s

/-- Lanes of a bundle member that retrains alone carry VC6: they have been through INIT (R79). -/
def State.aloneFlows (s : State) (p : Nat) : Bool := s.bundled p && !s.isMember p && (s.link p).solo.flows

/-- A HELLO goes out on the lanes of a member that retrains alone (R53, R81). -/
def State.soloHello (s : State) (p : Nat) : State :=
  s.onLink p (fun l => { l with soloSent := true, soloTxAt := s.now, soloOut := l.soloOut ++ [s.helloFrame (s.base p)] })

/-- A received HELLO (R81 to R83); one that R71 finds malformed is discarded and counted. -/
def execHello (port : BitVec 8) (frame : Frame) (s : State) : Host.Outcome State Fault Refusal :=
  .next (
    let p := port.toNat
    let b := s.base p
    let shaped := frame.opcode == 0x60 && frame.vc == 6 && wellShaped frame
    if s.alive && s.bundled p && !s.isMember p then (if shaped then s.helloAlone p frame else s)
    else
      let a := s.linkAccept p frame.vc (creditCost frame)
      if !a.2 then a.1 else if shaped then a.1.onHello b frame else a.1.countPrt b 2)

/-- A HELLO falls due (R81), on a port or on the lanes of a member that retrains alone. -/
def execHelloPeriodTimer (port : BitVec 8) (s : State) : Host.Outcome State Fault Refusal :=
  .next (
    let b := s.base port.toNat
    let l := s.link b
    let m := s.link port.toNat
    if s.alive && s.aloneFlows port.toNat then
      (if m.soloTxAt + l.helloUs.toNat * usT ≤ s.now then s.soloHello port.toNat else s)
    else if s.alive && l.state.flows && decide (l.helloTxAt + l.helloUs.toNat * usT ≤ s.now) then s.sendHello b else s)

/-- No HELLO has arrived for three of the peer's periods, or of the port's own while it knows none (R81): DOWN with cause 0x05,
and a retrain. A member that retrains alone counts its own silence. -/
def execHelloSilenceTimeout (port : BitVec 8) (s : State) : Host.Outcome State Fault Refusal :=
  .next (
    let b := s.base port.toNat
    let l := s.link b
    let us := (l.peerHelloUs.getD l.helloUs).toNat
    if s.alive && s.aloneFlows port.toNat then
      (if (s.link port.toNat).soloRxAt + 3 * us * usT ≤ s.now then (s.memberRemove port.toNat 5).train port.toNat else s)
    else if s.alive && l.state.flows && decide (l.helloRxAt + 3 * us * usT ≤ s.now) then s.relink b 5 else s)

/-! ### Signal and training (R53, R56, R57) -/

/-- Signal appears on a port's lanes. -/
def execSignalPresent (port : BitVec 8) (s : State) : Host.Outcome State Fault Refusal :=
  .next (if s.alive then (s.onLink port.toNat (fun l => { l with signal := true })).train port.toNat else s)

/-- Signal is lost: DOWN with cause 0x01, or one member fewer. Where only codeword lock is lost on a lane, the port, or the member,
retrains at once (R50); Table 03-19 has no code of its own for that, and the model records 0x01 (log 131). -/
def execLossOfSignal (port : BitVec 8) (lock : Bool) (s : State) : Host.Outcome State Fault Refusal :=
  .next (
    let p := port.toNat
    if !s.alive then s
    else if lock then
      if s.bundled p then (if (s.link p).solo = .down then s else (s.memberRemove p 1).train p)
      else if (s.link p).state = .down then s else s.relink p 1
    else
      let s := s.onLink p (fun l => { l with signal := false })
      if s.bundled p then (if (s.link p).solo = .down then s else s.memberRemove p 1) else s.portDown p 1)

/-- A link enters INIT: its credits count from the INIT advertisement, and it sends its INIT word (R57, R62). -/
def State.enterInit (s : State) (b : Nat) : State :=
  (s.onLink b (fun l => { l with
    state := .init, again := true, credBack := [], credFreed := [], credUsed := [], credSpent := [], preSpent := [] })).sendLcw b 2

/-- PCS and FEC are aligned: INIT. The members of a bundle that align before its HELLO belong to it at once. A member that retrains
alone sends its INIT word from its own link fields: the spec does not say which ACK_SEQ and credits it carries (log 133). -/
def execTrainingComplete (port : BitVec 8) (s : State) : Host.Outcome State Fault Refusal :=
  .next (
    let p := port.toNat
    let b := s.base p
    if !s.alive then s
    else if s.bundled p then
      if (s.link p).solo ≠ .training then s
      else
        let s := s.onLink p (fun l => { l with solo := .init, again := true })
        let s := if (s.link b).state = .training then s.enterInit b else s
        if (s.link b).state = .init then
          s.onLink b (fun l => { l with membersUp := l.membersUp ||| ((1 : BitVec 8) <<< (s.link p).bundleOff.toNat) })
        else s.sendLcw p 2
    else if (s.link p).state = .training then s.enterInit p else s)

/-- A training attempt has lasted 100 ms: another begins (R56). Table 03-19 has no code for that move to DOWN, and DOWN_CAUSE keeps the
cause that stands there (log 134). -/
def execTrainingAttemptTimeout (port : BitVec 8) (s : State) : Host.Outcome State Fault Refusal :=
  .next (
    let p := port.toNat
    let b := s.base p
    let l := s.link p
    let busy := if s.bundled p then l.solo == .training else l.state == .training
    if s.alive && busy && decide (l.trainAt + 100 * msT ≤ s.now) then
      let s := if s.bundled p then s.onLink p (fun l => { l with solo := .down }) else s
      let s := if (s.link b).state = .training ∧ (!s.bundled p || (s.members b).all (fun m => (s.link m).solo != .training)) = true then
        s.onLink b (fun l => { l with state := .down }) else s
      s.train p
    else s)

/-- A word advertises what R63 asks of a peer of the class. -/
def creditsEnough (cls : BitVec 2) (w : Lcw) : Bool :=
  (if cls = 1 then [2, 3, 6, 7] else List.range 8).all (fun v => decide ((if v = 6 then 2 else 65) ≤ (w.credits.getD v 0).toNat))

/-- An INIT link control word (R54, R57, R63): with enough credits the port enters HELLO. -/
def execLcwInit (port : BitVec 8) (word : Lcw) (s : State) : Host.Outcome State Fault Refusal :=
  .next (
    let p := port.toNat
    let b := s.base p
    if !s.alive || !word.good || word.typ != 2 then s
    else if s.bundled p && !s.isMember p then
      if (s.link p).solo = .init ∧ creditsEnough (s.link b).cls word then
        (s.onLink p (fun l => { l with solo := .hello, soloRxAt := s.now })).soloHello p
      else s
    else if (s.link b).state ≠ .init then s
    else
      let s := s.onLink b (fun l => { l with peerCred := lcwTable word })
      if !creditsEnough (s.link b).cls word then s.event 0x48 3 (srcP b) 0
      else
        let s := s.onLink b (fun l =>
          let l := l.acked word s.now
          { l with state := .hello, helloRxAt := s.now, helloSent := false, peerHelloUs := none,
                   credSpent := creditTable l.replayCost, preSpent := creditTable l.replayCost, nonceTx := none, nonceRx := none,
                   sentNum := (l.replay.filter (fun e => e.2.vc != 6)).length, gotNum := 0 })
        s.sendHello b)

/-- Acknowledgements and credits of a NORMAL or NAK word (R54, R55). -/
def State.onLcw (s : State) (b : Nat) (w : Lcw) : State :=
  s.onLink b (fun l => { l.acked w s.now with credBack := lcwTable w })

/-- A NORMAL link control word (R54). -/
def execLcwNormal (port : BitVec 8) (word : Lcw) (s : State) : Host.Outcome State Fault Refusal :=
  .next (
    let b := s.base port.toNat
    if s.alive && word.good && word.typ == 0 && (s.link b).state.flows && s.isMember port.toNat then s.onLcw b word else s)

/-- Replay the frames that are not acknowledged; after 8 replays without an advance the port retrains instead (R56). -/
def State.replayFrames (s : State) (b : Nat) : State :=
  let l := s.link b
  if l.replay.isEmpty then s
  else if 8 ≤ l.replays then s.relink b 2
  else (s.countPrt b 1).onLink b (fun l => { l with replays := l.replays + 1, ackAt := s.now })

/-- A NAK: the sender replays from the frame after ACK_SEQ (R56). -/
def execLcwNak (port : BitVec 8) (word : Lcw) (s : State) : Host.Outcome State Fault Refusal :=
  .next (
    let b := s.base port.toNat
    if s.alive && word.good && word.typ == 1 && (s.link b).state.flows && s.isMember port.toNat then (s.onLcw b word).replayFrames b else s)

/-- ACK_SEQ has not advanced for 2 µs (R56). -/
def execReplayTimeout (port : BitVec 8) (s : State) : Host.Outcome State Fault Refusal :=
  .next (
    let b := s.base port.toNat
    let l := s.link b
    if s.alive && l.state.flows && !l.replay.isEmpty && decide (l.ackAt + 2 * usT ≤ s.now) then s.replayFrames b else s)

/-- A NORMAL word is sent at least every 200 ns while an accepted frame is unacknowledged (R55). -/
def execLcwSendTimer (port : BitVec 8) (s : State) : Host.Outcome State Fault Refusal :=
  .next (
    let b := s.base port.toNat
    match (s.link b).owedAck with
    | some t => if s.alive && (s.link b).state.flows && decide (t + 200 * nsT ≤ s.now) then s.sendLcw b 0 else s
    | none => s)

/-- A frame fails FEC or CRC-32C, or is out of sequence: it is discarded, and one NAK is sent (R55, R66). A frame that fails neither and
carries the LSEQ expected is no such frame. In a bundle PRT_CNT_CRC counts at the member, and PRT_CNT_DISCARD at the first member
(log 135). -/
def execFrameLinkReject (port : BitVec 8) (frame : Frame) (lseq : BitVec 12) (crc : BitVec 32) (fec : Bool) (s : State) :
    Host.Outcome State Fault Refusal :=
  .next (
    let p := port.toNat
    let b := s.base p
    let coding := fec || crc != frame.linkCrc lseq
    if (!coding && lseq == (s.link b).rxSeq) || !s.alive || !(s.link b).state.flows || !s.isMember p then s
    else
      let s := if coding then s.countPrt p 0 else s
      if (s.link b).nakSent then s else (s.onLink b (fun l => { l with nakSent := true })).sendLcw b 1)

/-- A frame with a good CRC-32C and a bad HCRC is discarded and counted, with one entry and event in a millisecond (R69). -/
def execHcrcDiscard (port : BitVec 8) (frame : Frame) (hcrc : BitVec 16) (s : State) : Host.Outcome State Fault Refusal :=
  .next (
    let b := s.base port.toNat
    let a := if hcrc = frame.hcrc then (s, false) else s.linkAccept port.toNat frame.vc (creditCost frame)
    if !a.2 then a.1
    else
      let s := a.1.countPrt b 2
      if (s.link b).hcrcMs = some (s.now / msT) then s
      else (s.onLink b (fun l => { l with hcrcMs := some (s.now / msT) })).logE 0x09 0 (srcP b) 0 true)

/-- A bundle member is more than 150 ns behind: it is removed and retrains alone (R53). -/
def execBundleSkewTimeout (port : BitVec 8) (s : State) : Host.Outcome State Fault Refusal :=
  .next (
    let p := port.toNat
    if s.alive && s.bundled p && s.isMember p && (s.link (s.base p)).state.flows then (s.memberRemove p 0).train p else s)

/-! ### PRT_PEER and PRT_CFG (R91) -/

/-- Management address of a register of a port's PRT_ page. -/
def prtAddr (p off : Nat) : Nat := maddr 3 p 1 off

/-- A write of PRT_PEER (Table 03-20): RETRAIN wins over PEER_ACK. -/
def State.prtPeer (s : State) (p : Nat) (v : BitVec 64) : State × BitVec 6 :=
  let s := if v.getLsbD 32 then s.onLink p (fun l => { l with peerChg := false }) else s
  if s.base p ≠ p then (s, stOk)
  else if v.getLsbD 34 then (s.relink p 4, stOk)
  else if v.getLsbD 33 ∧ (s.link p).state = .fenced ∧ (s.link p).downCause = 7 then
    ((s.onLink p (fun l => { l with peerId := l.lastId })).portOpen p, stOk)
  else (s, stOk)

/-- A write of PRT_CFG: DENIED outside a field's range. -/
def State.prtCfg (s : State) (p : Nat) (v : BitVec 64) : State × BitVec 6 :=
  let us := bits v.toNat 47 32
  let hop := bits v.toNat 27 24
  if us < 0xA ∨ 0x2710 < us ∨ hop < 1 ∨ 0xE < hop then (s, stDenied)
  else (s.onLink p (fun l => { l with helloUs := BitVec.ofNat 16 us, hopMax := BitVec.ofNat 4 hop }), stOk)

/-- PRT_PEER.RETRAIN (R79). -/
def execPrtPeerRetrain (tag : BitVec 16) (port : BitVec 8) (s : State) : Host.Outcome State Fault Refusal :=
  .next (s.adkWr tag (prtAddr port.toNat 0x18) (1 <<< 34) .operator (fun s => s.prtPeer port.toNat (1 <<< 34)))

/-- PRT_PEER.PEER_ACK (R83). -/
def execPrtPeerAck (tag : BitVec 16) (port : BitVec 8) (s : State) : Host.Outcome State Fault Refusal :=
  .next (s.adkWr tag (prtAddr port.toNat 0x18) (1 <<< 33) .operator (fun s => s.prtPeer port.toNat (1 <<< 33)))

/-! ### Timers of targets and requests (R85, R88) -/

/-- A port has been out of OPEN for the target limit (R85): its target is dead with REASON 0x01. The limit is the one in TGT_LIMIT_US at
that moment: the spec does not say whether a write applies to a port already out of OPEN (log 136). -/
def execTargetLimitExpiry (port : BitVec 8) (s : State) : Host.Outcome State Fault Refusal :=
  .next (
    let b := s.base port.toNat
    let l := s.link b
    if s.enabledPort b && l.state != .opened && !l.dead && decide (l.outAt + s.targetLimit ≤ s.now) then s.deadTarget b 1 else s)

/-- Requests that wait on the same target as `r`: behind one port, and there the same unit. -/
def State.sameTarget (s : State) (r : Req) : List Req :=
  match r.stage with
  | .remote p => s.req.reqs.filter (fun x => x.stage == .remote p && x.frame.dst == r.frame.dst)
  | _ =>
    match (s.trays r).head? with
    | some t => s.req.reqs.filter (fun x => s.needsTray x t)
    | none => [r]

/-- The port behind which the target of a request lies, from 256 on a bridge port; where it waits on nothing behind a port, the one
that it came from. -/
def State.targetPort (s : State) (r : Req) : Nat :=
  match r.stage with
  | .remote p => p
  | _ => match (s.trays r).head? with
    | some t => t
    | none => match r.origin with | .port p => s.base p | _ => 0

/-- A target has not answered a request within its timer: dead for every request that waits on it, with REASON 0x04 (R85, R88). -/
def State.unanswered (s : State) (r : Req) : State :=
  let b := s.targetPort r
  let target := if s.needsTray r b then (trayUnitId s.comp.run b).getD 0xFFFF else r.frame.dst
  s.targetDeath b 4 target (s.stagesOf b r) (s.sameTarget r)

/-- A request's timer at the module whose port leads to its target applies: not to one that another module's port leads to, nor
to a store that waits for room (Table 11-8). -/
def Req.timed (r : Req) : Bool :=
  match r.stage with
  | .restoring => false
  | .remote _ => r.stages == 0
  | _ => true

/-- Work of the module itself, which no request waits for. -/
def TrayOp.isOwn : TrayOp → Bool
  | .writeBack _ _ | .zero _ _ _ | .wipe _ _ | .scrub _ _ | .copyRead _ _ | .copyWrite _ _ | .stale => true
  | _ => false

/-- The timer of a request to a tray has ended, and its record stays. -/
def State.untimed (s : State) (q : TrayReq) : State :=
  { s with tier := { s.tier with reqs := s.tier.reqs.map (fun (x : TrayReq) => if x = q then { x with timer := 2 ^ 64 } else x) } }

/-- The timer of R88 at the module that leads to the target expires. From 2^40 on, `n` names the module's own requests: 2^40 +
8,192 x tray + tag on a tray, and from 2^41 on 65,536 x decode + index of an ATN.SUB. -/
def execRequestTimerExpiry (n : Nat) (s : State) : Host.Outcome State Fault Refusal :=
  .next (
    if !s.alive then s
    else if n < 2 ^ 40 then
      match s.findReq n with
      | some r => if r.timed && decide (r.timer ≤ s.now) then s.unanswered r else s
      | none => s
    else if n < 2 ^ 41 then
      let t := (n - 2 ^ 40) / 8192
      match s.trayReqOf t (BitVec.ofNat 13 (n % 8192)) with
      | some q =>
        if t < 256 ∧ q.timer ≤ s.now then
          let rs := s.req.reqs.filter (fun x => s.needsTray x t)
          let s := s.targetDeath t 4 ((trayUnitId s.comp.run t).getD 0xFFFF) 0 rs
          -- work of the module itself keeps its record: the tray may still answer it
          if q.op.isOwn then s.untimed q else s.trayAnswer q stDead 0 0 []
        else s
      | none => s
    else
      let d := (n - 2 ^ 41) / 65536
      let i := n % 65536
      match s.atn.decodes.find? (fun x => x.id == d) with
      | some x => match x.subs[i]? with
        | some y => if y.held = none ∧ y.timer ≤ s.now then s.subDead (fun k z => k == d && z.tag == y.tag && z.port == y.port) else s
        | none => s
      | none => s)

/-- The backstop of R88 at the ingress module expires. -/
def execBackstopTimerExpiry (n : Nat) (s : State) : Host.Outcome State Fault Refusal :=
  .next (match s.findReq n with
    | some r => if s.alive && r.stage != .restoring && decide (r.backstop ≤ s.now) then s.unanswered r else s
    | none => s)

/-! ### The origin rate loop (R294, R295) -/

/-- The rate loop of a port has arrived at a bound: HELD, and one entry (R295). -/
def State.rateHeld (s : State) (b : Nat) : State :=
  (s.onTc b (fun t => { t with rlHeld := true })).logE 0x14 0x10 (srcP b) 0 true

/-- A completion with CE_ECHO answers one of the module's own requests: RATE falls, at most once per AI_US, and holds at
MIN_MBPS with one entry as it arrives there. -/
def State.rateDecrease (s : State) (b : Nat) : State :=
  let t := (s.port b).tc
  let s := s.onTc b (fun t => { t with rlIncAt := s.now })
  if s.now < t.rlDecAt + t.rlUs.toNat * usT then s
  else
    let r := t.rlRate.toNat - t.rlRate.toNat / 2 ^ t.rlMd.toNat
    let r := max r t.rlMin.toNat
    let s := s.onTc b (fun t => { t with
      rlTokens := t.rateTokens s.now, rlSince := s.now, rlRate := BitVec.ofNat 20 r, rlDecAt := s.now })
    if r = t.rlMin.toNat ∧ t.rlRate ≠ t.rlMin then s.rateHeld b else s

/-! ### A frame leaves (R58, R61, R278 to R282, R288, R289) -/

/-- The replay buffer has room for a frame (R55). -/
def Link.replayRoom (l : Link) (f : Frame) : Bool :=
  decide (l.replay.length < 2047) && decide ((l.replay.map (fun e => wireSize e.2 - 1)).sum + (wireSize f - 1) ≤ 262144)

/-- Time for which a frame of `n` bytes occupies its link, rounded up to a sixteenth of a nanosecond (R278, log 138). -/
def wireT (n : Nat) : Nat := (n * 128 + 849) / 850

/-- Link times that a frame takes at a thermal level of the port die: its ports send at half, or a quarter, of their rate (R361). -/
def thermalT (level : Nat) : Nat := match level with | 0 => 1 | 1 => 2 | _ => 4

/-- What the lanes of a port carry. -/
def State.lane (s : State) (p : Nat) : Lane := Table.read {} (s.port (s.base p)).tc.lanes (s.link p).bundleOff.toNat

/-- The lanes of a port can start a frame now (R278, R281). -/
def State.laneFree (s : State) (p : Nat) : Bool := decide ((s.lane p).free ≤ s.dieFt (portSite p))

/-- A frame, as it stands on the link, starts on the lanes of a port (R278, R361). -/
def State.laneTake (s : State) (p : Nat) (queue : Option Nat) (seq : BitVec 12) (f : Frame) : State :=
  let now := s.dieFt (portSite p)
  let t := wireT (wireSize f)
  let y : Lane := { queue := queue, wire := some (seq, f), ends := now + t, free := now + t * thermalT (s.die (portSite p)).level.toNat }
  s.onTc (s.base p) (fun x => { x with lanes := Table.write {} x.lanes (s.link p).bundleOff.toNat y })

/-- A frame goes onto the lanes of port `p`: its number, its place in the replay buffer, its credits, and its payload under the lot
key; an S port counts the stage. -/
def State.transmit (s : State) (p : Nat) (queue : Option Nat) (f : Frame) : State :=
  let b := s.base p
  let l := s.link b
  let f := if l.cls = 2 then { f with hops := if f.hops = 15 then 15 else f.hops + 1 } else f
  let v := f.vc.toNat
  let s := s.laneTake p queue l.txSeq (s.lotFrame b true l.sentNum f)
  s.onLink b (fun l => { l with
    txSeq := l.txSeq + 1, replay := l.replay ++ [(l.txSeq, f)], ackAt := if l.replay.isEmpty then s.now else l.ackAt,
    sentNum := if f.vc = 6 then l.sentNum else l.sentNum + 1
    credSpent := Table.write 0 l.credSpent v (Table.read 0 l.credSpent v + BitVec.ofNat 16 (creditCost f)) })

/-- The selected queue head leaves when the port shaper holds its bytes; every shaper and meter that was checked is charged
(R281). -/
def State.egressQueue (s : State) (b p : Nat) : State :=
  match s.selectQueue b with
  | none => s
  | some (qi, t) =>
    match s.offered b qi with
    | none => s
    | some x =>
      let size := s.outSize b x
      if !t.shape.holds s.now size || !(s.link b).replayRoom { x.frame with payload := fill (64 * s.outUnits b x) 0 } then s
      else
        let own := s.ownRequest b x.frame
        let s := s.onTc b (fun _ => { t with
          shape := t.shape.charge s.now size
          rlTokens := if own then t.rateTokens s.now - size * 65536 else t.rlTokens
          rlSince := if own then s.now else t.rlSince })
        let s := s.onQueue b qi (fun q =>
          let q := { q with fifos := Table.write [] q.fifos x.frame.vc.toNat ((q.fifo x.frame.vc.toNat).drop 1),
                            shape := q.shape.charge s.now size }
          if 3 ≤ qi ∧ q.isEmpty then { q with deficit := 0 } else q)
        let s := s.chargeMeter b x.frame.tenant size
        let e := s.egressForm b x
        let s := (e.1.transmit p (some qi) e.2).countQue b qi 0
        s.countQue b qi 1 (wireSize e.2)

/-- The lanes of a port can start a frame: those of a member that retrains alone
carry its own HELLO frames only; else VC6 ahead of every queue, then the scheduler's choice on an OPEN port (R280 to R282). -/
def execEgressFrameStart (port : BitVec 8) (s : State) : Host.Outcome State Fault Refusal :=
  .next (
    let b := s.base port.toNat
    let l := s.link b
    let p := port.toNat
    if !s.alive || !s.laneFree p then s
    else if s.aloneFlows p then
      match (s.link p).soloOut with
      | [] => s
      | f :: rest => (s.laneTake p none (s.link p).txSeq f).onLink p (fun l => { l with soloOut := rest, txSeq := l.txSeq + 1 })
    else if !l.state.flows || !s.isMember p then s
    else
      let queues := if l.state = .opened then s.egressQueue b p else s
      match (s.port b).tc.vc6 with
      | f :: rest =>
        if creditCost f ≤ l.creditsAt 6 ∧ l.replayRoom f then
          (s.onTc b (fun t => { t with vc6 := rest })).transmit p none f
        else queues
      | [] => queues)

end Sys2Proof.Machine
end

