-- ==== Sys2Proof/Machine/Errors.lean ====
section
/-! DEFINITION. What a codeword found in error does to the machine (chapter 15, R349 to R357). -/

namespace Sys2Proof.Machine

/-! ### Codewords (R349, R350) -/

/-- Product in GF(2^8) with field polynomial 0x11D. -/
def gfMul (a b : Nat) : Nat :=
  (List.range 8).foldr (fun i r =>
    let r := if 128 ≤ r then (2 * r) ^^^ 0x11D else 2 * r
    if b.testBit i then r ^^^ a else r) 0

/-- Powers of the generator root. -/
def gfPow : Nat → Nat
  | 0 => 1
  | n + 1 => gfMul 2 (gfPow n)

/-- Coefficients of the generator polynomial with roots α^0 to α^(n - 1), the highest power first and the leading 1 left out. -/
def rsGen : Nat → List Nat
  | 0 => []
  | n + 1 =>
    let g := 1 :: rsGen n
    (List.zipWith (· ^^^ ·) (g.drop 1 ++ [0]) (g.map (gfMul (gfPow n))))

/-- The six check symbols of 66 symbols, of which symbol 0 has the highest power (log 140). -/
def rsChecks (msg : List Nat) : List Nat :=
  let g := rsGen 6
  msg.foldl (fun (r : List Nat) m =>
    let fb := m ^^^ r.headD 0
    List.zipWith (· ^^^ ·) (r.drop 1 ++ [0]) (g.map (gfMul fb))) (List.replicate 6 0)

/-- Syndrome i of a word of symbols: 0 for each of the six roots where the word is a codeword. -/
def rsSyndrome (w : List Nat) (i : Nat) : Nat := w.foldl (fun acc c => gfMul acc (gfPow i) ^^^ c) 0

/-- Metadata symbols 64 and 65 of a line at its home (Table 15-1). -/
def State.lineMeta (s : State) (line : Nat) : List Nat :=
  let key := (s.extent (fpaExtent (64 * line))).tenant.toNat
  [key % 256, key / 256 + 4 * b2n (s.sector (line / 32)).comp + 8 * b2n (s.linePoison line) + 16 * b2n ((s.dirEntry line).state != .i)]

/-- The codeword in which T0 holds a line: its bytes as stored, the metadata and the check symbols. -/
def State.codeword (s : State) (line : Nat) : List Nat :=
  let data := if s.linePoison line then List.replicate 64 0xFF else (s.tier.mem.bytes (64 * line) 64).map (·.toNat)
  let w := data ++ s.lineMeta line
  w ++ rsChecks w

/-! ### Errors (R351 to R357) -/

/-- Stack that holds a codeword of a kind, where a stack holds it (R356, log 28): data lines, directory entries and tag lines lie in
a stack of their home slice's memory hub. -/
def State.hitStack (s : State) (h : EccHit) : Option Nat :=
  let k := Config.stackOf h.what.toNat h.index
  match h.what.toNat with
  | 0 | 1 => some (s.sliceOf (h.index / 32) / 16 * 4 + k % 4)
  | 2 => some (s.sliceOf h.index / 16 * 4 + k % 4)
  | 3 | 4 | 5 => some (k % 32)
  | _ => none

/-- A correction falls in the window of one second of FT that an earlier one of its stack opened (R351). -/
def State.ceOpen (s : State) (k : Nat) : Bool :=
  let w := Table.read (0, 0) s.log.ceRun k
  decide (s.now < w.1 + secT) && w.2 != 0

/-- Corrections of a stack in its window, this one counted. -/
def State.ceCount (s : State) (k : Nat) : Nat := if s.ceOpen k then (Table.read (0, 0) s.log.ceRun k).2 + 1 else 1

/-- FT at which that window began. -/
def State.ceFrom (s : State) (k : Nat) : Nat := if s.ceOpen k then (Table.read (0, 0) s.log.ceRun k).1 else s.now

/-- A correction is noted in the window of its stack. -/
def State.ceNote (s : State) (k : Nat) : State :=
  { s with log := { s.log with ceRun := Table.write (0, 0) s.log.ceRun k (s.ceFrom k, s.ceCount k) } }

/-- One or two symbols were corrected (R351, R356): counted, with one entry and event when the corrections of a stack pass CE_TH
within a second of FT. -/
def State.corrected (s : State) (h : EccHit) : State :=
  let s := s.countLog 0
  match s.hitStack h with
  | none => s
  | some k =>
    let n := s.ceCount k
    if n = s.log.ceTh.toNat + 1 then (s.ceNote k).logE 0x01 0 (srcST k) n true else s.ceNote k

/-- The tag that line 0 of a place gives under its compression bit (R189): none where its header is invalid. -/
def headerTag (line0 : List Byte) : Option (BitVec 8) :=
  let v := leNat line0
  let fmt := bitsAt v 0 8
  let sect := bitsAt v 40 8
  if fmt = 0 then (if v = 0 then some 0 else none)
  else match elemInfo (bitsAt v 8 8) with
    | none => none
    | some t =>
      if (fmt = 1 ∧ t.fp = true ∧ bitsAt v 32 8 < 2 ∨ fmt = 2 ∧ t.fp = false ∧ bitsAt v 32 8 = 0 ∧ bitsAt v 16 16 = 0)
          ∧ bitsAt v 8 8 < 16 ∧ 1 ≤ sect ∧ sect ≤ 15 ∧ bitsAt v 48 16 = 0 then some (BitVec.ofNat 8 sect)
      else none

/-- Blocks whose tags lie in the tag-table line of a block's place: 64 places that follow one another (R179). -/
def State.tagLine (s : State) (block : Nat) : List Nat :=
  let x := s.sector block
  if x.valid = 0 then []
  else (s.tier.sectors.filter (fun e => e.2.valid != 0 && e.2.slice / 16 == x.slice / 16 && e.2.group == x.group
    && s.placeOf e.1 / 64 == s.placeOf block / 64)).map (·.1)

/-- The 64 tags of a tag-table line are rebuilt from line 0 of each place (R189): a place whose line 0 is uncorrectable, or whose header is
invalid, has every line poisoned. -/
def State.tagsRebuilt (s : State) (block : Nat) (lost : Bool) : State :=
  let s := (s.tagLine block).foldl (fun (s : State) b =>
    let x := s.sector b
    let tag := if (lost && b == block) || (s.linePoison (32 * b) && s.lineValid (32 * b)) then none
      else if x.comp then headerTag (s.tier.mem.bytes (2048 * b) 64) else some 0x10
    match tag with
    | some t => s.setSector b { x with tag := t }
    | none => (List.range 32).foldl (fun (s : State) i => if s.linePoison (32 * b + i) then s else s.poisonLine (32 * b + i)) s) s
  s.countCmp 4 64

/-- Local memory of an EccHit of kind 6: space, base and length (R356). -/
def hitRegion (i : Nat) : Nat × Nat × Nat :=
  if i < 2 ^ 24 then (0, 64 * i, 64) else if i < 2 ^ 26 then (1, 64 * (i - 2 ^ 24), 64) else (2, i - 2 ^ 26, 1)

/-- Logical compute die of local memory. -/
def regionLc (r : Nat × Nat × Nat) : Nat :=
  if r.1 = 0 then r.2.1 / 2 ^ 20 / 32 else if r.1 = 1 then r.2.1 / 2 ^ 24 / 4 else r.2.1 / 8 / 32

/-- A codeword is uncorrectable (Table 15-3, R357). -/
def State.uncorrectable (s : State) (h : EccHit) : State :=
  let s := s.countLog 1
  let i := h.index
  match h.what.toNat with
  | 0 => s.poisonLine i
  | 1 => (s.logE 0x03 0 (srcHS (s.sliceOf (i / 32))) (64 * i) true).domTrigger (s.dirEntry i).dom.toNat 1 none
  | 2 => (s.logE 0x04 0 (srcHS (s.sliceOf i)) (2048 * i) true).tagsRebuilt i h.bothCopies
  | 3 =>
    let s := s.logE 0x05 1 srcModule i true
    if h.bothCopies && h.noCopy then
      ({ s with log := { s.log with badExt := s.log.badExt ++ [i] } }).recoveryFault 0x05
    else s
  | 4 =>
    let s := s.logE 0x05 2 srcModule i true
    if h.bothCopies then s.losePage i else s
  | 5 => s.logE 0x05 3 srcModule i true
  | 6 =>
    let r := hitRegion i
    let s := s.logE 0x06 0 (srcLC (regionLc r)) i true
    ({ s with log := { s.log with badLocal := s.log.badLocal ++ [r] } }).recoveryFault 0x06
  | _ =>
    let k := i % 1024
    let s := s.logE 0x06 1 (srcK k) (64 * (i / 1024)) true
    s.onCore k (fun (c : Core) => { c with dcache := c.dcache.filter (fun x => x.1 != i / 1024) })

/-- A codeword with five or more symbols in error has been taken for one with fewer (R349): the decoder counts a correction, and a line that
T0 holds takes a free value. Other codewords are left as they are (log 140). -/
def State.miscorrected (s : State) (h : EccHit) : State :=
  let s := s.corrected h
  if h.what = 0 ∧ s.lineValid h.index = true then
    let n := s.free
    let s := { s with free := n + 8 }
    (s.forget h.index).placeLines (h.index / 32) [(h.index % 32, (List.range 8).flatMap (fun i => leBytes 8 (Config.freeWord (n + i)).toNat), false)] true
      false
  else s

/-- What an access or a scrub read has found (R349): one or two symbols in error are corrected, three or four are reported, and more may
be miscorrected, which a free value decides. -/
def State.applyHit (s : State) (h : EccHit) : State :=
  if h.symbols = 0 then s
  else if h.symbols.toNat ≤ 2 then s.corrected h
  else if h.symbols.toNat ≤ 4 then s.uncorrectable h
  else
    let r := s.draw
    if (Config.freeWord r.2).getLsbD 0 then r.1.miscorrected h else r.1.uncorrectable h

/-- Everything that it has found, in order. -/
def State.applyHits (s : State) (hs : List EccHit) : State := hs.foldl (fun (s : State) h => s.applyHit h) s

end Sys2Proof.Machine
end

