-- ==== Sys2Proof/Machine/Ingress.lean ====
section
/-! DEFINITION. What a port makes of a frame that has arrived (chapters 01, 03, 08, 12 and 14), and the requests that the ingress
module tracks itself: fences, and attention and collective requests behind their implicit fence (chapter 04). -/

namespace Sys2Proof.Machine

/-! ### Bridles (R290 to R292) -/

/-- Count PRT_BRD_CNT_G, Y, R or DROP of a bridle. -/
def State.countBrd (s : State) (k i : Nat) : State :=
  let l := s.bridle k
  let b := bump (match i with | 0 => l.cntG | 1 => l.cntY | 2 => l.cntR | _ => l.cntDrop)
  let l := { l with sat := satSet l.sat i b.2.1 }
  let l := match i with
    | 0 => { l with cntG := b.1 } | 1 => { l with cntY := b.1 } | 2 => { l with cntR := b.1 } | _ => { l with cntDrop := b.1 }
  let p := 16 * (k / 512)
  (s.onBridle k (fun _ => l)).satEvent b.2.2 i (srcP p) (maddr 3 p 1 0x1C0)

/-- The bridle that polices a frame on a port: none where the port polices nothing. -/
def State.bridleOf (s : State) (b : Nat) (f : Frame) : Option Nat :=
  let t := (s.port b).tc
  if !t.brdEn || f.vc == 6 then none
  else
    let cls := tclsOf s.comp.run f.tenant
    let off := match t.brdMode.toNat with | 0 => 0 | 1 => f.vc.toNat | 2 => cls | _ => 8 * cls + f.vc.toNat
    some (512 * (b / 16) + (t.brdBase.toNat + off) % 512)

/-- The colour that a bridle gives a frame of `n` bytes, with the bridle after it (R291): 0 green, 1 yellow, 2 red. -/
def Bridle.mark (x : Bridle) (aware : Bool) (colour n : Nat) (now : FT) : Bridle × Nat :=
  let x := { x with tc := refill (65536 * x.cbs.toNat) x.cir.toNat x.tc x.since now
                    tp := refill (65536 * x.pbs.toNat) x.pir.toNat x.tp x.since now, since := now }
  let b := 65536 * n
  if (aware && decide (2 ≤ colour)) || decide (x.tp < b) then (x, 2)
  else if (aware && colour == 1) || decide (x.tc < b) then ({ x with tp := x.tp - b }, 1)
  else ({ x with tp := x.tp - b, tc := x.tc - b }, 0)

/-- Colour a frame at its port (R290, R291). -/
def State.police (s : State) (b : Nat) (f : Frame) : State × Frame :=
  if f.vc = 6 then (s, f)
  else match s.bridleOf b f with
    | none => (s, { f with colour := 0 })
    | some k =>
      let x := s.bridle k
      let m := x.mark (x.aware && (s.link b).cls == 2) f.colour.toNat (wireSize f) s.now
      ((s.onBridle k (fun _ => m.1)).countBrd k m.2, { f with colour := BitVec.ofNat 2 m.2 })

/-! ### The checks on an arriving frame (R28, R65 to R72, R77, R195, R292, R359) -/

/-- What the port makes of a frame: it is gone, it is completed at once with a status, or it goes on. -/
inductive Entry where
  | drop
  | fail (st : BitVec 6)
  | pass (f : Frame)
  deriving DecidableEq, Repr

/-- A frame that the port turns away: a request completes with a status, another frame is discarded. -/
def turnAway (f : Frame) (st : BitVec 6) : Entry := if isRequest f.opcode then .fail st else .drop

/-- The shape that R71 asks of a frame on a port of a class. A LEASE.RENEW names its own sender (R142). -/
def shapeOk (cls : Nat) (f : Frame) : Bool :=
  opcodeVc f.opcode == some f.vc && carries cls f.opcode && wellShaped f && (f.opcode != 0x61 || field f.payload 0 2 == f.src.toNat)

/-- A request of an endpoint is outstanding under the same source and tag (R77). -/
def State.pairBusy (s : State) (b : Nat) (f : Frame) : Bool :=
  let same := fun (o : Origin) (g : Frame) => (match o with | .port q => s.base q == b | _ => false) && g.src == f.src && g.tag == f.tag
  s.req.reqs.any (fun r => same r.origin r.frame) || s.req.fences.any (fun r => same r.origin r.frame)
    || s.req.held.any (fun r => same r.origin r.frame) || s.atn.decodes.any (fun r => same r.origin r.frame)
    || s.clv.ids.any (fun (e : Nat × Coll) => e.2.live && e.2.parts.any (fun c => same c.origin c.frame))

/-- The tenant that a frame carries on: an endpoint that the image allows one tenant has it written (R68, log 27). -/
def Link.tenantOf (l : Link) (f : Frame) : BitVec 10 :=
  if l.cls = 0 then (match l.tenantSet with | [t] => t | _ => f.tenant) else f.tenant

/-- Whether an A port may pass a frame on: its source is the port's own unit, its tenant in the set, its address no FPA (Table 03-7). -/
def State.endpointOk (s : State) (b : Nat) (f : Frame) : Bool :=
  let l := s.link b
  (match unitOf s.comp.run f.src with | .port q => s.base q == b | _ => false)
    && (decide (l.tenantSet.length = 1) || l.tenantSet.contains f.tenant) && !f.has flPhys

/-- Frames that the ingress port die resolves without their destination unit (Table 01-8). -/
def ownDst (op : BitVec 8) : Bool := [0x15, 0x60, 0x61, 0x63].contains op.toNat

/-- Responses, which find their destination by the request that they answer (R89). -/
def isAnswer (op : BitVec 8) : Bool := [0x18, 0x19, 0x58, 0x59, 0x5A, 0x5B, 0x71, 0x79, 0x7A, 0x81, 0x83, 0x91].contains op.toNat

/-- A frame of a tenant whose frames are no longer taken from a T or S port (R68, R334). -/
def State.retiredFrame (s : State) (f : Frame) : Bool :=
  let t := s.tenant f.tenant.toNat
  f.vc != 6 && (t.state == .retired || (t.state == .stopping && decide (3 ≤ t.tdStep.toNat)))

/-- CBF validation of a frame with FLAGS.CMPR (R195). An answer with an invalid payload goes on without one: it completes its request with
POISON. -/
def State.cbfEntry (s : State) (b : Nat) (f : Frame) : State × Entry :=
  if !f.has flCmpr then (s, .pass f)
  else if !(s.cmpPort b).ingEn then (s, turnAway f stDenied)
  else if !cbfCarries f.opcode || (expandPayload f.payload).isSome then (s, .pass f)
  else
    let s := s.countCmp 3
    if isRequest f.opcode then (s, .fail stMalformed)
    else
      let s := s.lotFail b
      if f.opcode = 0x70 ∨ f.opcode = 0x71 then (s, .pass f)
      else (s, .pass { f.clear flCmpr with status := stPoison, payload := [] })

/-- The rules under which a frame is malformed or gone (R68, R71). A tray sends only three opcodes here, and
no CBF payload, since no request asks it for one (R191, R194). -/
def State.formEntry (s : State) (b : Nat) (f : Frame) : State × Entry :=
  let cls := (s.link b).cls.toNat
  let bad := (s.countPrt b 2, turnAway f stMalformed)
  if cls = 1 ∧ (!([0x18, 0x19, 0x91].contains f.opcode.toNat) || f.has flCmpr) then (s.countPrt b 2, .drop)
  else if cls ≠ 0 ∧ s.retiredFrame f then ((s.countPrt b 2).countSec 2, .drop)
  else if !shapeOk cls f then (if isRequest f.opcode then bad else (bad.1.lotFail b, .drop))
  else if cls = 0 ∧ isRequest f.opcode ∧ f.status ≠ 0 then bad
  else (s, .pass f)

/-- The header rules of Table 03-7 for the class of a port. -/
def State.headerEntry (s : State) (b : Nat) (f : Frame) : State × Entry :=
  match (s.link b).cls.toNat with
  | 0 =>
    if !s.endpointOk b f then (s.countPrt b 2, turnAway f stDenied)
    else (s, .pass { f with epoch := s.comp.epoch, hops := 0 })
  | 1 =>
    if some f.src != trayUnitId s.comp.run b then (s.countPrt b 2, .drop)
    else (s, .pass { f with epoch := s.comp.epoch, hops := 0 })
  | _ =>
    if (s.link b).hopMax.toNat < f.hops.toNat then
      ((s.countPrt b 2).event 0x4A 1 (srcP b) (f.src.toNat + f.tag.toNat * 2 ^ 16), turnAway f stDenied)
    else (s, .pass f)

/-- A red request under RED_DROP (R292). -/
def State.redEntry (s : State) (b : Nat) (f : Frame) : State × Entry :=
  match s.bridleOf b f with
  | some k => if f.colour == 2 && isRequest f.opcode && (s.bridle k).redDrop then (s.countBrd k 3, .fail stDenied) else (s, .pass f)
  | none => (s, .pass f)

/-- A destination that the unit-ID table does not name (R28). -/
def State.unitEntry (s : State) (b : Nat) (f : Frame) : State × Entry :=
  if !ownDst f.opcode && !isAnswer f.opcode && !(f.opcode == 0x82 && f.dst == s.selfUnit) && unitOf (s.tables f.epoch) f.dst == .invalid then
    (s.countPrt b 2, turnAway f stDenied)
  else (s, .pass f)

/-- One check after another: the next sees only a frame that has passed. -/
def afterward (x : State × Entry) (k : State → Frame → State × Entry) : State × Entry :=
  match x.2 with
  | .pass f => k x.1 f
  | _ => x

/-- The state of the link, the lot-key suspicion and a repeated pair, which come before every other check (R77, R79, R359). In HELLO and
FENCED a port takes the frames of VC6, but for a LEASE.RENEW (R142). -/
def State.linkEntry (s : State) (b : Nat) (f : Frame) : State × Entry :=
  if (s.link b).state ≠ .opened ∧ (f.vc ≠ 6 ∨ f.opcode = 0x61) then
    (if f.opcode = 0x61 then s.countLse 2 else s.countPrt b 2, .drop)
  else if s.isFenced 7 b then (s, turnAway f stDenied)
  else if (s.link b).cls = 0 ∧ isRequest f.opcode ∧ s.pairBusy b f then
    ((s.countPrt b 2).event 0x4A 2 (srcP b) (f.src.toNat + f.tag.toNat * 2 ^ 16), .drop)
  else
    let f := { f with tenant := (s.link b).tenantOf f }
    let m := s.police b f
    (m.1, .pass m.2)

/-- A frame that the link has accepted, and counted, is taken from under the lot key and goes through every check of its port (R330). -/
def State.inspect (s : State) (b : Nat) (f : Frame) : State × Entry :=
  let f := s.lotFrame b false ((s.link b).gotNum - 1) f
  let x := s.linkEntry b f
  let x := afterward x (fun s f => s.formEntry b f)
  let x := afterward x (fun s f => s.cbfEntry b f)
  let x := afterward x (fun s f => s.headerEntry b f)
  let x := afterward x (fun s f => s.redEntry b f)
  afterward x (fun s f => s.unitEntry b f)

/-- A request that its port completes at once (R28, R68, R71, R97). -/
def State.refuseAt (s : State) (b : Nat) (f : Frame) (st : BitVec 6) : State :=
  let n := s.req.nextN
  let s := { s with req := { s.req with nextN := n + 1 } }
  s.emit n (.port b) { frame := completion f st [], stores := storeClass f.opcode }

/-- A frame arrives on a port: the link, the checks, and then `k` with what passes. -/
def State.arrive (s : State) (p : Nat) (f : Frame) (k : State → Nat → Frame → State) : State :=
  let b := s.base p
  let a := s.linkAccept p f.vc (creditCost f)
  if !a.2 then a.1
  else
    let x := a.1.inspect b f
    match x.2 with
    | .drop => x.1
    | .fail st => x.1.refuseAt b f st
    | .pass f => k x.1 b f

/-- A frame in the row of an opcode: one of another opcode of Table 03-8 is taken for the row's; one of an opcode that the table does
not list keeps it, and is malformed (R71, log 85). -/
def rowFrame (op : BitVec 8) (f : Frame) : Frame := if (opcodeVc f.opcode).isSome then { f with opcode := op } else f

/-- The next arrival number is taken by a frame that makes no request record. -/
def State.number (s : State) : State × Nat := ({ s with req := { s.req with nextN := s.req.nextN + 1 } }, s.req.nextN)

/-! ### Memory and coherence requests (R29, R93) -/

/-- The S port on which a frame that has arrived on an S port leaves again: this module is neither its ingress module nor the one
whose port leads to its target (R88, R128). -/
def State.transit (s : State) (b : Nat) (f : Frame) : Option Nat :=
  if (s.link b).cls ≠ 2 then none
  else match unitOf (s.tables f.epoch) f.dst with
    | .away p _ => some p
    | .pavilion _ =>
      if f.has flPhys && isMemory f.opcode && fpaModule f.addr.toNat != s.moduleNo then
        moduleRoute (s.tables f.epoch) (fpaModule f.addr.toNat)
      else none
    | _ => none

/-- A request in transit goes on without a record or a timer (R88, R89). -/
def State.passOn (s : State) (b p : Nat) (f : Frame) : State :=
  if (s.link (s.base p)).dead then s.refuseAt b f stDead
  else if isWrite f.opcode && f.has flCmpr && !(s.cmpPort (s.base p)).peerCbf then s.refuseAt b f stDenied
  else s.sendFrom (portSite b) p none { frame := f }

/-- A request that the ingress port die sends to its destination. -/
def State.requestIn (s : State) (b : Nat) (f : Frame) : State :=
  match s.transit b f with
  | some p => s.passOn b p f
  | none => s.accept (.port b) f (b / 16) none f.hops.toNat

/-- A request frame of an opcode arrives. -/
def State.reqFrame (s : State) (p : BitVec 8) (op : BitVec 8) (f : Frame) : State :=
  s.arrive p.toNat (rowFrame op f) (fun s b f => s.requestIn b f)

/-- One whose access may find codewords in error (R349). -/
def State.reqFrameHits (s : State) (p : BitVec 8) (op : BitVec 8) (f : Frame) (hits : List EccHit) : State :=
  s.arrive p.toNat (rowFrame op f) (fun s b f => (s.applyHits hits).requestIn b f)

/-- LD (R94). -/
def execLd (port : BitVec 8) (frame : Frame) (hits : List EccHit) (s : State) : Host.Outcome State Fault Refusal :=
  .next (s.reqFrameHits port 0x10 frame hits)

/-- LD.PEEK (R94, R117). -/
def execLdPeek (port : BitVec 8) (frame : Frame) (s : State) : Host.Outcome State Fault Refusal :=
  .next (s.reqFrame port 0x11 frame)

/-- ST (R94, R95). -/
def execSt (port : BitVec 8) (frame : Frame) (hits : List EccHit) (s : State) : Host.Outcome State Fault Refusal :=
  .next (s.reqFrameHits port 0x12 frame hits)

/-- ST.PUSH (R95, R117). -/
def execStPush (port : BitVec 8) (frame : Frame) (s : State) : Host.Outcome State Fault Refusal :=
  .next (s.reqFrame port 0x13 frame)

/-- ST.MASK (R94). -/
def execStMask (port : BitVec 8) (frame : Frame) (s : State) : Host.Outcome State Fault Refusal :=
  .next (s.reqFrame port 0x14 frame)

/-- SB.RD (R93). -/
def execSbRd (port : BitVec 8) (frame : Frame) (s : State) : Host.Outcome State Fault Refusal :=
  .next (s.reqFrame port 0x16 frame)

/-- SB.WR (R93). -/
def execSbWr (port : BitVec 8) (frame : Frame) (s : State) : Host.Outcome State Fault Refusal :=
  .next (s.reqFrame port 0x90 frame)

/-- AT.ADD (R73). -/
def execAtAdd (port : BitVec 8) (frame : Frame) (s : State) : Host.Outcome State Fault Refusal :=
  .next (s.reqFrame port 0x20 frame)

/-- AT.MIN (R73). -/
def execAtMin (port : BitVec 8) (frame : Frame) (s : State) : Host.Outcome State Fault Refusal :=
  .next (s.reqFrame port 0x21 frame)

/-- AT.MAX (R73). -/
def execAtMax (port : BitVec 8) (frame : Frame) (s : State) : Host.Outcome State Fault Refusal :=
  .next (s.reqFrame port 0x22 frame)

/-- AT.CAS (R73). -/
def execAtCas (port : BitVec 8) (frame : Frame) (s : State) : Host.Outcome State Fault Refusal :=
  .next (s.reqFrame port 0x23 frame)

/-- AP.ADD (R73). -/
def execApAdd (port : BitVec 8) (frame : Frame) (s : State) : Host.Outcome State Fault Refusal :=
  .next (s.reqFrame port 0x28 frame)

/-- AP.MIN (R73). -/
def execApMin (port : BitVec 8) (frame : Frame) (s : State) : Host.Outcome State Fault Refusal :=
  .next (s.reqFrame port 0x29 frame)

/-- AP.MAX (R73). -/
def execApMax (port : BitVec 8) (frame : Frame) (s : State) : Host.Outcome State Fault Refusal :=
  .next (s.reqFrame port 0x2A frame)

/-- AP.CAS (R73). -/
def execApCas (port : BitVec 8) (frame : Frame) (s : State) : Host.Outcome State Fault Refusal :=
  .next (s.reqFrame port 0x2B frame)

/-- C.RD_S (R116). -/
def execCRdS (port : BitVec 8) (frame : Frame) (s : State) : Host.Outcome State Fault Refusal :=
  .next (s.reqFrame port 0x40 frame)

/-- C.RD_O (R116). -/
def execCRdO (port : BitVec 8) (frame : Frame) (s : State) : Host.Outcome State Fault Refusal :=
  .next (s.reqFrame port 0x41 frame)

/-- C.UPG (R116). -/
def execCUpg (port : BitVec 8) (frame : Frame) (s : State) : Host.Outcome State Fault Refusal :=
  .next (s.reqFrame port 0x42 frame)

/-- C.WB (R116). -/
def execCWb (port : BitVec 8) (frame : Frame) (s : State) : Host.Outcome State Fault Refusal :=
  .next (s.reqFrame port 0x43 frame)

/-- C.EVICT (R116). -/
def execCEvict (port : BitVec 8) (frame : Frame) (s : State) : Host.Outcome State Fault Refusal :=
  .next (s.reqFrame port 0x44 frame)

/-! ### Fences (R96, R100) -/

/-- A FENCE is recorded; its completion waits for the stores before it. -/
def State.fenceIn (s : State) (b : Nat) (f : Frame) : State :=
  let a := s.number
  { a.1 with req := { a.1.req with fences := a.1.req.fences ++ [{ n := a.2, origin := .port b, frame := f }] } }

/-- FENCE (R96). -/
def execFence (port : BitVec 8) (frame : Frame) (s : State) : Host.Outcome State Fault Refusal :=
  .next (s.arrive port.toNat (rowFrame 0x15 frame) (fun s b f => s.fenceIn b f))

/-- An earlier store-class request of a source is not complete. -/
def State.storesBefore (s : State) (n source : Nat) : Bool :=
  s.req.reqs.any (fun r => decide (r.n < n) && storeClass r.frame.opcode && r.origin.source r.frame == source)

/-- Every store that a FENCE covers has completed: RSP.CMP with OK (R96). -/
def execFenceComplete (n : Nat) (s : State) : Host.Outcome State Fault Refusal :=
  .next (match s.req.fences.find? (fun x => x.n == n) with
    | none => s
    | some x =>
      if !s.alive || s.storesBefore n (x.origin.source x.frame) then s
      else ({ s with req := { s.req with fences := s.req.fences.filter (fun y => y.n != n) } }).emit n x.origin
        { frame := completion x.frame stOk [] })

/-- A unit is reached through a port and is no pavilion of this module. -/
def State.elsewhere (s : State) (f : Frame) : Bool :=
  match unitOf (s.tables f.epoch) f.dst with | .port _ => true | .away _ _ => true | _ => false

/-- The pavilions that two destination units name may have extents in common: one lies in the subtree of the other. Of two units of other
modules the tables here say nothing, and a store to one holds a request to the other (log 137). -/
def unitsMeet (c : List Section) (x y : BitVec 16) : Bool :=
  match dstPavilion c x, dstPavilion c y with
  | some a, some b => inSubtree c a b || inSubtree c b a
  | none, none => true
  | _, _ => false

/-- A store before an attention or collective request holds it back (R100): one of its source, not performed, to an extent under its
destination. Of a store to another module the extent is not known here: it counts where its destination and the request's can have an
extent in common. -/
def State.fenceHolds (s : State) (n : Nat) (o : Origin) (f : Frame) : Bool :=
  let c := s.tables f.epoch
  s.req.reqs.any (fun r => decide (r.n < n) && storeClass r.frame.opcode && r.origin.source r.frame == o.source f && !r.performed &&
    (match r.counted, dstPavilion c f.dst with
      | some e, some top => inSubtree c top (s.extent e).pv.toNat
      | some _, none => false
      | none, _ => unitsMeet c r.frame.dst f.dst))

/-- An attention or collective request passes to its cluster, or to the module of its destination (R29). -/
def State.toCluster (s : State) (n : Nat) (o : Origin) (f : Frame) : State :=
  if s.elsewhere f then
    match o with
    | .port b => s.requestIn b f
    | .thread k _ _ => s.accept o f (16 + lcOf k) (some k) 0
    | _ => s
  else if f.opcode = 0x78 then s.collOpen n o f else s.attnRequest n o f

/-- An attention or collective request is held behind its implicit fence, or passes (R100). -/
def State.fenced (s : State) (n : Nat) (o : Origin) (f : Frame) : State :=
  if s.fenceHolds n o f then { s with req := { s.req with held := s.req.held ++ [{ n := n, origin := o, frame := f }] } }
  else s.toCluster n o f

/-- The stores before a held request have been performed: it passes (R100). -/
def execImplicitFenceRelease (n : Nat) (s : State) : Host.Outcome State Fault Refusal :=
  .next (match s.req.held.find? (fun x => x.n == n && !x.forAbort) with
    | none => s
    | some x =>
      if !s.alive || s.fenceHolds n x.origin x.frame then s
      else ({ s with req := { s.req with held := s.req.held.filter (fun y => y.n != n) } }).toCluster n x.origin x.frame)

/-- A store is made visible once the stores before it are performed; one that waited to be sent on goes (R95), and so does a request that
waited for a tag (R78). -/
def State.releaseStore (s : State) (r : Req) : State :=
  if s.earlierStore r || r.blocks.any s.awayBlock then s
  else match r.stage with
    | .staged => s.tryStore r .staged
    | .ordered =>
      if r.counted.isSome then s.serve r.n
      else match unitOf (s.tablesOf r) r.frame.dst with
        | .port p => s.sendOn r p false
        | .away p _ => s.sendOn r p false
        | _ => s.route r.n
    | _ => s

/-- A release notice reaches a store (R95). -/
def execStoreRelease (n : Nat) (s : State) : Host.Outcome State Fault Refusal :=
  .next (match s.findReq n with
    | some r => if s.alive then (s.releaseStore r).wakeStaged else s
    | none => s)

/-! ### Frames that are forwarded, and responses (R29, R89) -/

/-- A frame goes on towards the unit that it names; one on VC6 only while that port carries VC6. A data answer in CBF form answers a request
that asked for it (R191). -/
def State.forward (s : State) (b : Nat) (f : Frame) : State :=
  let go := fun (p : Nat) =>
    if f.vc = 6 ∧ (s.link (s.base p)).state.flows = false then s else s.sendFrom (portSite b) p none { frame := f, cbfAsked := f.opcode == 0x18 || f.opcode == 0x91 }
  match unitOf (s.tables f.epoch) f.dst with
  | .port p => go p
  | .away p _ => go p
  | _ => s.countPrt b 2

/-- The request that a response on a port answers. -/
def State.asked (s : State) (b : Nat) (f : Frame) : Option Req :=
  s.req.reqs.find? (fun r => r.stage == .remote b && r.frame.src == f.dst && r.frame.tag == f.tag)

/-- The answer of a load whose payload has failed its validation, on its way to the module that asked (R195): POISON with all-ones data, of
the length that a request with FLAGS.CMPR 1 can name. -/
def poisonAnswer (f : Frame) : Frame := { f with status := stPoison, length := 32, payload := fill 2048 0xFF }

/-- An answer without the payload that its opcode has: its validation has failed (R195). -/
def emptied (f : Frame) : Bool := f.status == stPoison && f.payload.isEmpty && f.opcode != 0x19

/-- A response answers a request that this module holds (R89): its own requests steer the rate loop (R294). An answer whose payload
failed its validation stands for POISON (R195), and so does a POISON answer of another length than was asked for. CBF data that no
FLAGS.CMPR asked for are malformed (R191). An OK answer to a store that restores a page of another module lets its leaf be changed
(R172, log 120). The tag of one of the module's own requests is free again (R77, R78). -/
def State.answered (s : State) (b : Nat) (r : Req) (f : Frame) : State :=
  let own := match r.origin with | .port _ => false | _ => true
  if f.has flCmpr && !r.frame.has flCmpr then s.countPrt b 2
  else
    let s := if own && f.has flCeEcho then s.rateDecrease b else s
    let s :=
      if r.leaf.isSome && r.cas.isNone && f.status == stOk then s.putReq { r with stage := .restoring }
      else if emptied f || (f.status == stPoison && f.opcode != 0x19 && f.length != r.frame.length) then s.finish r stPoison
      else s.finishFrame r f
    (if own then s.tagFree b else s).wakeStaged

/-- A response on a port: to a request sent on, to one of the module's requests to a tray, or late (R89). -/
def State.responseIn (s : State) (b : Nat) (f : Frame) : State :=
  match s.asked b f with
  | some r => s.answered b r f
  | none =>
    match (if (s.link b).cls = 1 then s.trayReqOf b f.tag else none) with
    | some q =>
      let s := if f.has flCeEcho then s.rateDecrease b else s
      s.trayAnswer q f.status f.tenant 0 f.payload
    | none => if (s.transit b f).isSome then s.forward b (if emptied f then poisonAnswer f else f) else s.countPrt b 3

/-- A response frame of an opcode arrives. -/
def State.rspFrame (s : State) (p : BitVec 8) (op : BitVec 8) (f : Frame) : State :=
  s.arrive p.toNat (rowFrame op f) (fun s b f => s.responseIn b f)

/-- A frame of an opcode that only passes through arrives. -/
def State.passFrame (s : State) (p : BitVec 8) (op : BitVec 8) (f : Frame) : State :=
  s.arrive p.toNat (rowFrame op f) (fun s b f => s.forward b f)

/-- RSP.DATA (R89). -/
def execRspData (port : BitVec 8) (frame : Frame) (s : State) : Host.Outcome State Fault Refusal := .next (s.rspFrame port 0x18 frame)

/-- RSP.CMP (R89). -/
def execRspCmp (port : BitVec 8) (frame : Frame) (s : State) : Host.Outcome State Fault Refusal := .next (s.rspFrame port 0x19 frame)

/-- SB.DATA (R89, R155). -/
def execSbData (port : BitVec 8) (frame : Frame) (s : State) : Host.Outcome State Fault Refusal := .next (s.rspFrame port 0x91 frame)

/-- C.DATA, to the agent that asked (R29). -/
def execCData (port : BitVec 8) (frame : Frame) (s : State) : Host.Outcome State Fault Refusal := .next (s.rspFrame port 0x58 frame)

/-- C.GNT, to the agent that asked (R29). -/
def execCGnt (port : BitVec 8) (frame : Frame) (s : State) : Host.Outcome State Fault Refusal := .next (s.rspFrame port 0x59 frame)

/-- SNP.INV, to the caching agent (R29). -/
def execSnpInv (port : BitVec 8) (frame : Frame) (s : State) : Host.Outcome State Fault Refusal := .next (s.passFrame port 0x50 frame)

/-- SNP.SHR, to the caching agent (R29). -/
def execSnpShr (port : BitVec 8) (frame : Frame) (s : State) : Host.Outcome State Fault Refusal := .next (s.passFrame port 0x51 frame)

/-- SNP.BINV, to the caching agent (R29). -/
def execSnpBinv (port : BitVec 8) (frame : Frame) (s : State) : Host.Outcome State Fault Refusal := .next (s.passFrame port 0x52 frame)

/-- FAULT.REC, to its requester (R87). -/
def execFaultRec (port : BitVec 8) (frame : Frame) (s : State) : Host.Outcome State Fault Refusal := .next (s.passFrame port 0x64 frame)

/-- DOM.NOTE, to its member (R125). -/
def execDomNote (port : BitVec 8) (frame : Frame) (s : State) : Host.Outcome State Fault Refusal := .next (s.passFrame port 0x65 frame)

/-! ### Answers to snoops (R116 to R119) -/

/-- An agent gives up its copy, with the line's value where it held it dirty. -/
def State.copyBack (s : State) (x : Snoop) (data : Option (List Byte)) : State :=
  match data with
  | some d => (s.homeWrite x.line d).dropHolder x.line x.agent
  | none => s.dropHolder x.line x.agent

/-- What the answer does for the request that waits for it (Tables 05-4 and 05-5). -/
def State.snoopFor (s : State) (x : Snoop) (r : Req) (data : Option (List Byte)) : State :=
  let i := (r.lines.findIdx? (· == x.line)).getD 0
  let keep := fun (b : Nat) (r : Req) => { r with answered := r.answered ||| ((1 : BitVec 64) <<< b) }
  let got := fun (r : Req) => match data with | some d => { r with given := Table.write [] r.given x.line d } | none => r
  if x.op = 0x51 then s.putReq (keep i (got r))
  else if r.frame.opcode = 0x41 ∨ r.frame.opcode = 0x42 then
    (s.putReq (got r)).dropHolder x.line x.agent
  else if r.frame.opcode = 0x40 then (s.putReq (keep 0 r)).copyBack x data
  else s.copyBack x data

/-- A snoop has been answered, with the owner's value or without (R116 to R119). -/
def State.snoopAnswer (s : State) (x : Snoop) (data : Option (List Byte)) : State :=
  let e := s.dirEntry x.line
  let data := if e.state = .o ∧ e.sharers.toNat % 256 = x.agent then data else none
  let s := { s with coh := { s.coh with snoops := s.coh.snoops.filter (fun (y : Snoop) => y != x) } }
  let s := match x.why with
    | .req n => match s.findReq n with
      | some r => s.snoopFor x r data
      | none => s.copyBack x data
    | _ => s.copyBack x data
  let e := s.dirEntry x.line
  -- every holder of a coarse entry has answered; an answer to a cancelled snoop is a C.EVICT, which leaves it (R114, R123)
  let s := if e.state = .s ∧ e.coarse ∧ x.op ≠ 0x51 ∧ x.why ≠ .cancelled ∧ !s.lineSnooped x.line then s.setDir x.line {} else s
  s.settled x

/-- SNP.ACK or SNP.DATA on a port: to a snoop of this module, or on to the module that sent it. -/
def State.snoopIn (s : State) (b : Nat) (f : Frame) (data : Option (List Byte)) : State :=
  match s.coh.snoops.find? (fun x => x.heldTo.isNone && x.tag == f.tag && f.dst == s.selfUnit && s.agentUnit x.dom x.agent == f.src) with
  | some x => s.snoopAnswer x data
  | none => if s.elsewhere f then s.forward b f else s.countPrt b 3

/-- SNP.ACK (R116). -/
def execSnpAck (port : BitVec 8) (frame : Frame) (s : State) : Host.Outcome State Fault Refusal :=
  .next (s.arrive port.toNat (rowFrame 0x5A frame) (fun s b f => s.snoopIn b f none))

/-- SNP.DATA (R116). -/
def execSnpData (port : BitVec 8) (frame : Frame) (s : State) : Host.Outcome State Fault Refusal :=
  .next (s.arrive port.toNat (rowFrame 0x5B frame) (fun s b f => s.snoopIn b f (some f.payload)))

/-! ### Leases (R142) -/

/-- LEASE.RENEW on an A port (R141, R142). On a link that carries no frame it is discarded and counted as on any port that is not
OPEN. -/
def execLeaseRenew (port : BitVec 8) (frame : Frame) (s : State) : Host.Outcome State Fault Refusal :=
  .next (
    if s.alive && (s.link (s.base port.toNat)).cls != 3 && !(s.link (s.base port.toNat)).state.flows then s.countLse 2
    else s.arrive port.toNat (rowFrame 0x61 frame) (fun s b f => s.leaseRenew b f))

/-! ### Collectives (R234 to R252) -/

/-- An attention or collective request: to this module's cluster or to another module, behind its implicit fence (R29, R100). -/
def State.clusterIn (s : State) (b : Nat) (f : Frame) : State :=
  let a := s.number
  a.1.fenced a.2 (.port b) f

/-- COLL.OPEN (R234). -/
def execCollOpen (port : BitVec 8) (frame : Frame) (s : State) : Host.Outcome State Fault Refusal :=
  .next (s.arrive port.toNat (rowFrame 0x78 frame) (fun s b f => s.clusterIn b f))

/-- COLL.CONTRIB (R241). -/
def execCollContrib (port : BitVec 8) (frame : Frame) (s : State) : Host.Outcome State Fault Refusal :=
  .next (s.arrive port.toNat (rowFrame 0x70 frame) (fun s b f =>
    if s.elsewhere f then s.forward b f else s.collContrib (.port b) f))

/-- The parent of a collective's binding lies behind a port. -/
def State.parentAt (s : State) (b : Nat) (f : Frame) : Bool :=
  let c := s.coll f.collId
  c.state != .unbound && c.hasParent && s.base c.parentPort.toNat == b

/-- A frame of a tree that is not for a live generation of this module: on to its unit, else stale (R252). -/
def State.strayColl (s : State) (b : Nat) (f : Frame) : State :=
  if !s.parentAt b f && s.elsewhere f then s.forward b f else s.countClv 2

/-- COLL.RESULT (R248). -/
def execCollResult (port : BitVec 8) (frame : Frame) (s : State) : Host.Outcome State Fault Refusal :=
  .next (s.arrive port.toNat (rowFrame 0x71 frame) (fun s b f =>
    if s.fromParent b f then s.passResult f else s.strayColl b f))

/-- COLL.GRANT (R240, R248): the parent's grant lets contribution bytes go. -/
def execCollGrant (port : BitVec 8) (frame : Frame) (s : State) : Host.Outcome State Fault Refusal :=
  .next (s.arrive port.toNat (rowFrame 0x79 frame) (fun s b f =>
    if s.fromParent b f then
      (s.onColl f.collId (fun c => { c with upGrant := max c.upGrant (field f.payload 8 8) })).collProgress f.collId
    else s.strayColl b f))

/-- COLL.DONE (R243, R248): to an open that was sent on, or within a tree. -/
def execCollDone (port : BitVec 8) (frame : Frame) (s : State) : Host.Outcome State Fault Refusal :=
  .next (s.arrive port.toNat (rowFrame 0x7A frame) (fun s b f =>
    match s.asked b f with
    | some r => s.answered b r f
    | none =>
      let c := s.coll f.collId
      if s.parentAt b f || (c.state != .unbound && c.children.any (fun x => s.base x.2 == b)) then (s.collDoneFrom b f).tagFree b
      else s.strayColl b f))

/-- ABORT (R250, R252). -/
def execAbort (port : BitVec 8) (frame : Frame) (s : State) : Host.Outcome State Fault Refusal :=
  .next (s.arrive port.toNat (rowFrame 0x7F frame) (fun s b f =>
    if !s.parentAt b f && s.elsewhere f then s.forward b f else s.collAbortFrame (.port b) f))

/-! ### Attention (R257 to R271) -/

/-- ATN.DECODE as a DECODE, or with a request byte of no meaning (R263). -/
def execAtnDecode (port : BitVec 8) (frame : Frame) (s : State) : Host.Outcome State Fault Refusal :=
  .next (s.arrive port.toNat (rowFrame 0x80 frame) (fun s b f => s.clusterIn b f))

/-- The frame with request byte `r`. -/
def requestByte (f : Frame) (r : Byte) : Frame := { rowFrame 0x80 f with payload := r :: f.payload.drop 1 }

/-- ATN.DECODE as a BIND: its request byte is 0x02 (R257, R258). -/
def execAtnBind (port : BitVec 8) (frame : Frame) (s : State) : Host.Outcome State Fault Refusal :=
  .next (s.arrive port.toNat (requestByte frame 2) (fun s b f => s.clusterIn b f))

/-- ATN.DECODE as a RELEASE: its request byte is 0x03 (R256, R257). -/
def execAtnRelease (port : BitVec 8) (frame : Frame) (s : State) : Host.Outcome State Fault Refusal :=
  .next (s.arrive port.toNat (requestByte frame 3) (fun s b f => s.clusterIn b f))

/-- ATN.SUB at the module that it names, or on its way (R267). -/
def execAtnSub (port : BitVec 8) (frame : Frame) (s : State) : Host.Outcome State Fault Refusal :=
  .next (s.arrive port.toNat (rowFrame 0x82 frame) (fun s b f =>
    if s.elsewhere f then s.requestIn b f
    else
      let a := s.number
      a.1.attnSub a.2 (.port b) f))

/-- A frame of an answer of several frames: the one at ADDRESS 0 is its last (R267). -/
def State.attnAnswerIn (s : State) (b : Nat) (f : Frame) : State :=
  match s.asked b f with
  | none => if (s.transit b f).isSome then s.forward b f else s.countPrt b 3
  | some r => if f.addr = 0 then s.answered b r f else s.emit r.n r.origin { frame := f }

/-- ATN.RESULT, to the request that it answers (R271). -/
def execAtnResult (port : BitVec 8) (frame : Frame) (s : State) : Host.Outcome State Fault Refusal :=
  .next (s.arrive port.toNat (rowFrame 0x81 frame) (fun s b f => s.attnAnswerIn b f))

/-- ATN.PART at the module that sent the ATN.SUB, or on its way (R267). -/
def execAtnPart (port : BitVec 8) (frame : Frame) (s : State) : Host.Outcome State Fault Refusal :=
  .next (s.arrive port.toNat (rowFrame 0x83 frame) (fun s b f =>
    match (if f.dst = s.selfUnit then s.subOf b f.tag else none) with
    | some x => (if f.has flCeEcho then s.rateDecrease b else s).attnPart x.1 x.2 f
    | none => s.attnAnswerIn b f))

end Sys2Proof.Machine
end

