-- ==== Sys2Proof/Machine/Send.lean ====
section
/-! DEFINITION. SEND, by which a core thread asks for attention and takes part in collectives (chapter 09). -/

namespace Sys2Proof.Machine

/-- The frame that a 32-byte header gives, without a payload (Table 03-5); HCRC is rebuilt. -/
def frameOf (h : List Byte) : Frame :=
  let v := leNat h
  { opcode := BitVec.ofNat 8 (bits v 39 32), dst := BitVec.ofNat 16 (bits v 15 0), src := BitVec.ofNat 16 (bits v 31 16),
    vc := BitVec.ofNat 3 (bits v 42 40), tenant := BitVec.ofNat 10 (bits v 52 43), epoch := BitVec.ofNat 4 (bits v 56 53),
    hops := BitVec.ofNat 4 (bits v 60 57), colour := BitVec.ofNat 2 (bits v 62 61), addr := BitVec.ofNat 56 (bits v 119 64),
    length := BitVec.ofNat 7 (bits v 126 120), tag := BitVec.ofNat 13 (bits v 140 128), status := BitVec.ofNat 6 (bits v 146 141),
    flags := BitVec.ofNat 8 (bits v 154 147), handle := BitVec.ofNat 24 (bits v 178 155) }

/-- The frame that a SEND makes of a header and a payload address: source, tenant, tag, epoch, virtual channel and hops are the
CX64's (R220). -/
def State.sendFrame (s : State) (k t : Nat) (h : List Byte) (a : Nat) : Frame :=
  let f := frameOf h
  { f with src := (s.core k).pvUnit, tenant := (s.core k).tenant, tag := BitVec.ofNat 13 t, epoch := s.comp.epoch,
           vc := (opcodeVc f.opcode).getD 0, hops := 0, payload := s.localBytes k a (64 * opcodeUnits f.opcode f.length.toNat) }

/-- Bytes of the member area of a COLL.OPEN, at least those that are known when it is sent (R221). -/
def State.areaBytes (s : State) (k t : Nat) (f : Frame) : Nat :=
  let d := Desc.of f.payload
  let id := f.collId
  match s.collWho id (.thread k t .accepted) f with
  | some r => if d.resPool || !d.receives r then 0x40 else 0x40 + d.result (s.collN id) d.tokens 0
  | none => 0x40

/-- A request of a SEND goes behind its implicit fence (R100, R220), or completes at once. -/
def State.sendRequest (s : State) (k t : Nat) (sink : ThreadSink) (f : Frame) : State :=
  if !wellShaped f || unitOf (s.tables f.epoch) f.dst == .invalid then s.coreSend k t sink f
  else
    let a := (s.onThread k t (fun (x : Thread) => { x with mcnt := x.mcnt + 1 })).number
    a.1.fenced a.2 (.thread k t sink) f

/-- A COLL.CONTRIB or ABORT of a SEND: complete once accepted. -/
def State.sendPlain (s : State) (k t : Nat) (f : Frame) : State :=
  let a := (s.onThread k t (fun (x : Thread) => { x with mcnt := x.mcnt + 1 })).number
  let s :=
    if !wellShaped f then a.1
    else match unitOf (a.1.tables f.epoch) f.dst with
      | .port p => a.1.sendFrom (a.1.coreSite k) p none { frame := f }
      | .away p _ => a.1.sendFrom (a.1.coreSite k) p none { frame := f }
      | .invalid => a.1
      | .pavilion _ =>
        if f.opcode = 0x70 then a.1.collContrib (.thread k t .accepted) f else a.1.collAbortFrame (.thread k t .accepted) f
  let c : ThreadComp := { n := a.2, tid := t, sink := .accepted, frame := completion f stOk [] }
  s.onCore k (fun (y : Core) => { y with comps := y.comps ++ [c] })

/-- SEND (R220, R221): a COLL.OPEN clears its member area before it goes. -/
def execSend (core : BitVec 10) (tid : BitVec 6) (ins : Ins) (s : State) : Host.Outcome State Fault Refusal :=
  let k := core.toNat
  let t := tid.toNat
  s.issue k t [ins.xa.toNat, ins.xb.toNat, ins.xd.toNat] 1 (fun s =>
    let h := s.eaOf k t ins
    let from_ := ((s.thread k t).get ins.xb.toNat).toNat
    let at_ := ((s.thread k t).get ins.xd.toNat).toNat
    let f := s.sendFrame k t (s.localBytes k h 32) from_
    let op := f.opcode.toNat
    if !localOk s.comp.run k h 32 false then s.faultHere k t 2
    else if !([0x70, 0x78, 0x7F, 0x80].contains op) then s.faultHere k t 6
    else if !f.payload.isEmpty && !localOk s.comp.run k from_ f.payload.length false then s.faultHere k t 2
    else if op = 0x70 ∨ op = 0x7F then s.sendPlain k t f
    else if op = 0x80 then
      if localOk s.comp.run k at_ 96 true then s.sendRequest k t (.decode at_) f else s.faultHere k t 2
    else if !localOk s.comp.run k at_ (s.areaBytes k t f) true then s.faultHere k t 2
    else (s.localWrite k at_ (fill 64 0)).sendRequest k t (.opened at_) f)

end Sys2Proof.Machine
end

