-- ==== Sys2Proof/Machine/Startup.lean ====
section
/-! DEFINITION. Start-up, TEST, entry to SERVICE, warm reset, recovery, DRAIN, live insertion and power loss (chapters 15, 16
and 18). -/

namespace Sys2Proof.Machine

/-! ### Power (R379, R385) -/

/-- The state with power on and nothing started: what fuses, flash and pins hold is kept, every mechanism is cold (R379). -/
def State.cold (s : State) : State :=
  { State.reset with
    pending := s.pending
    free := s.free
    pkg := { spareSlots := s.pkg.spareSlots }
    sec := { sealFuse := s.sec.sealFuse, banks := s.sec.banks, bank := s.sec.bank, svnMin := s.sec.svnMin }
    glb := { deviceId := s.glb.deviceId, stepping := s.glb.stepping, location := s.glb.location }
    mod := { pres1 := s.mod.pres1, pres2 := s.mod.pres2, mainPath := s.mod.mainPath, precharged := s.mod.precharged,
             powerGood := s.mod.powerGood } }

/-- The main path opens: OFF, with nothing written back (R385). A module without power reads as ready to remove (R417). -/
def State.powerOff (s : State) : State :=
  let c := s.cold
  { c with mod := { c.mod with state := .off, mainPath := false, precharged := false, powerGood := false, ready := true } }

/-- Power-good: BOOT, the only way out of OFF (R385). -/
def execPowerGood (s : State) : Host.Outcome State Fault Refusal :=
  .next (
    if s.mod.state ≠ .off ∨ s.mod.mainPath = false then s
    else
      let c := s.cold
      ({ c with mod := { c.mod with state := .off, powerGood := true } }).changeState .boot 0x41 0)

/-- Loss of power (R373). -/
def execPowerRemoved (s : State) : Host.Outcome State Fault Refusal := .next s.powerOff

/-- The input lies below 40 V for 1 ms (R385). -/
def execInputUndervoltage (since : BitVec 64) (s : State) : Host.Outcome State Fault Refusal :=
  .next (if s.mod.state = .off ∨ s.stable since msT = false then s else s.powerOff)

/-- The input carries 300 A for 10 µs: the main path opens (R420). -/
def execInputOvercurrent (s : State) : Host.Outcome State Fault Refusal := .next s.powerOff

/-- A presence pin deasserts (R384, R385). PRESENT_2 in a running module removes its power; before power-good either pin
opens the main path, and insertion starts again with PRESENT_1. -/
def execPresentDeassert (second : Bool) (s : State) : Host.Outcome State Fault Refusal :=
  .next (
    let m := if second then { s.mod with pres2 := false } else { s.mod with pres1 := false }
    let t := { s with mod := m }
    if s.mod.state = .off then
      { t with mod := { m with mainPath := false, precharged := false } }
    else if second then t.powerOff else t)

/-- PRESENT_1 asserts: pre-charge begins (Table 16-7 step 1). -/
def execPresent1Assert (s : State) : Host.Outcome State Fault Refusal :=
  .next (
    if s.mod.state = .off ∧ s.mod.mainPath = false then { s with mod := { s.mod with pres1 := true, precharged := false } }
    else { s with mod := { s.mod with pres1 := true } })

/-- The input has come within 2 V of the busbar (Table 16-7 step 2). -/
def execPrechargeComplete (s : State) : Host.Outcome State Fault Refusal :=
  .next (if s.mod.state = .off ∧ s.mod.pres1 = true then { s with mod := { s.mod with precharged := true } } else s)

/-- PRESENT_2 has been stable for 100 ms: the main path closes, once pre-charge is complete (Table 16-7 steps 3 and 4). -/
def execPresent2Stable (s : State) : Host.Outcome State Fault Refusal :=
  .next (
    let m := { s.mod with pres2 := true }
    { s with mod := if m.state = .off ∧ m.pres1 = true ∧ m.precharged = true then { m with mainPath := true } else m })

/-- ATTN_BTN has been pressed for 20 ms: it sets ATTN_REQ and raises an event, and changes nothing else. -/
def execAttnBtnPress (since : BitVec 64) (s : State) : Host.Outcome State Fault Refusal :=
  .next (
    if s.mod.state = .off ∨ s.hb.sd0Dead = true ∨ s.stable since debounceT = false then s
    else ({ s with mod := { s.mod with attnReq := true } }).event 0x44 0 srcModule 0)

/-! ### The boot sequence (R375, Table 16-2) -/

/-- An integrity failure of step 2 or 3 halts the device at once (class 0x13). -/
def State.bootHalt (s : State) : State := (s.logE 0x13 0 (srcSD 0) 0 true).enterHalt 0x13

/-- Step 2: the steward boots the valid package with the higher SVN, bank 0 when they are equal (R344); the optics leave
reset. -/
def State.bootFirmware (s : State) (r : BootReport) : State :=
  let judge (i : Nat) (v : Bool) : FwBank :=
    let b := Table.read ({} : FwBank) s.sec.banks i
    { b with ok := v && decide (s.sec.svnMin.toNat ≤ b.svn) }
  let b0 := judge 0 r.bank0
  let b1 := judge 1 r.bank1
  let s := { s with
    sec := { s.sec with banks := Table.write {} (Table.write {} s.sec.banks 0 b0) 1 b1,
                        bank := b1.ok && (!b0.ok || decide (b0.svn < b1.svn)) }
    mod := { s.mod with optRstn := true } }
  if r.ok && (b0.ok || b1.ok) then { s with mod := { s.mod with bootStep := 2 } } else s.bootHalt

/-- The 32 entries of a spare map form a valid map: active dies are distinct and exist (R11, R12). -/
def mapValid (m : List (BitVec 6)) : Bool := m.length == 32 && m.all (fun x => decide (x.toNat < 34)) && decide m.Nodup

/-- The CRC of a spare-map slot, over its entries of one byte each. -/
def mapCrc (m : List (BitVec 6)) : BitVec 16 := BitVec.ofNat 16 (crc16 (m.map (fun x => x.setWidth 8)))

/-- The highest programmed slot that checks, from slot `n - 1` downwards; each that fails is logged (R12). -/
def State.chooseSlot (s : State) : Nat → State × Option Nat
  | 0 => (s, none)
  | n + 1 =>
    match s.pkg.spareSlots[n]? with
    | none => s.chooseSlot n
    | some (m, c) =>
      if mapValid m && mapCrc m == c then (s, some n)
      else (s.logE 0x13 0 (srcSD 0) n false).chooseSlot n

/-- An open seal loop is observed: the fuse blows first, then the maker role is granted if the jumper is fitted (R341). Only
the opening counts, not the loop staying open. -/
def State.sealOpened (s : State) : State :=
  let s := { s with sec := { s.sec with sealOpen := true, sealFuse := true, maker := s.sec.jmp } }
  s.logWith 0x57 (b2n s.sec.maker) (srcSD 0) 0 0x57 (b2n s.sec.maker) 0

/-- Step 3: the spare map is chosen, and the seal loop and jumper are sampled (R12, R341). -/
def State.bootFuses (s : State) (r : BootReport) : State :=
  let (s, c) := s.chooseSlot 4
  match c with
  | none => s.bootHalt
  | some n =>
    if !r.ok then s.bootHalt
    else
      let m := (s.pkg.spareSlots.getD n ([], 0)).1
      let s := { s with
        pkg := { s.pkg with lcMap := m }
        glb := { s.glb with spareUse := BitVec.ofNat 2 n,
                            spareMap := (List.range 32).foldl (fun (t : Table (BitVec 6)) i => Table.write 0 t i (m.getD i 0)) [] }
        sec := { s.sec with jmp := r.jumper }
        mod := { s.mod with bootStep := 3 } }
      if r.sealOpen then s.sealOpened else s

/-- An active die whose router has passed but a cluster of which has failed is absent (R15). -/
def State.markAbsent (s : State) (lc mask : Nat) : State :=
  let s := { s with pkg := { s.pkg with absent := s.pkg.absent ||| ((1 : BitVec 32) <<< lc) } }
  s.logWith 0x4B mask (srcLC lc) (s.lcPhys lc) 0x4B mask (s.lcPhys lc)

/-- Step 4: the trellis has trained and the clusters are checked (R15); the heartbeat starts (R24). -/
def State.bootTrellis (s : State) (r : BootReport) : State :=
  if r.routerFailed then (s.logE 0x07 0 srcModule 0 true).enterHalt 0x07
  else
    let s := (List.range 32).foldl (fun (s : State) lc =>
      let mask := r.clusters.toNat / 16 ^ lc % 16
      if mask = 0 then s else s.markAbsent lc mask) s
    { s with hb := { sentAt := s.now, sd0Heard := s.dieFt sd0Site, sd1Heard := s.now }, mod := { s.mod with bootStep := 4 } }

/-- A step of boot or TEST fails: it is repeated once, and halts the device when it fails again (R375). The spec names no
class for that halt, so CAUSE is a free value. -/
def State.stepFails (s : State) : State :=
  if s.mod.stepFailed then
    let (s, v) := s.draw
    s.enterHalt ((Config.freeWord v).toNat % 256)
  else { s with mod := { s.mod with stepFailed := true } }

/-- A boot step ends as reported. -/
def State.bootStepDone (s : State) (r : BootReport) : State :=
  let ok (s : State) : State := { s with mod := { s.mod with stepFailed := false } }
  match s.mod.bootStep.toNat with
  | 0 =>
    { s with adk := { s.adk with state := .training, trainAt := s.now }, mod := { s.mod with bootStep := 1 } }
  | 1 => s.bootFirmware r
  | 2 => s.bootFuses r
  | 3 => if r.routerFailed || r.ok then (ok s).bootTrellis r else s.stepFails
  | 4 => if r.ok then { ok s with mod := { (ok s).mod with bootStep := 5 } } else s.stepFails
  | 5 =>
    if r.ok then ({ ok s with mod := { (ok s).mod with bootStep := 6, bootReady := true } }).event 0x42 0 srcModule 0
    else s.stepFails
  | _ => s

/-- BOOT_STEP_COMPLETE (R375). -/
def execBootStepComplete (report : BootReport) (s : State) : Host.Outcome State Fault Refusal :=
  .next (if s.mod.state = .boot then s.bootStepDone report else s)

/-! ### TEST (R376, Table 16-3) -/

/-- Engines quarantined. -/
def State.quarCount (s : State) : Nat :=
  s.cpu.cores.foldl (fun n (c : Nat × Core) => n + ((List.range 4).filter (fun i => c.2.quar.getLsbD i)).length) 0

/-- TEST_STEP_COMPLETE: step 4 ends, then step 5; then TEST is done (Table 16-3). -/
def execTestStepComplete (ok : Bool) (s : State) : Host.Outcome State Fault Refusal :=
  .next (
    if s.mod.state ≠ .test ∨ s.mod.testDone = true then s
    else if !ok then s.stepFails
    else
      let s := { s with mod := { s.mod with stepFailed := false } }
      if s.mod.testWork = 0 then { s with mod := { s.mod with testWork := 1 } }
      else ({ s with mod := { s.mod with testWork := 3, testDone := true } }).event 0x43 0 srcModule s.quarCount)

/-! ### Entry to SERVICE (R378) -/

/-- A register file of X1 to X31. -/
def threadRegs (l : List Nat) : Table (BitVec 64) :=
  (List.range 31).foldl (fun (t : Table (BitVec 64)) i => Table.write 0 t (i + 1) (BitVec.ofNat 64 (l.getD i 0))) []

/-- Text and data of a PROGRAM section enter the memory of its clusters, with its barrier counts (R304, R311). -/
def State.loadProgram (s : State) (x : Section) : State :=
  let heads := (progCores x).foldl (fun (l : List Nat) k => if l.any (fun j => clusterOf j == clusterOf k) then l else l ++ [k]) []
  heads.foldl (fun (s : State) k =>
    let s := s.localWrite k (progTextAddr x) (x.cells.bytes (progTextAt x) (progTextLen x))
    let s := s.localWrite k (progDataAddr x) (x.cells.bytes (progDataAt x) (progDataLen x))
    let need := (List.range 16).foldl (fun (t : Table Nat) n => Table.write 0 t (16 * clusterOf k + n) (progBar x n)) s.cpu.barNeed
    { s with cpu := { s.cpu with barNeed := need } }) s

/-- The threads of a PROGRAM section start on the cores that `p` accepts (R304, R378); a core whose tenant is not ACTIVE runs
nothing (R327). -/
def State.startThreads (s : State) (p : Nat → Bool) (x : Section) : State :=
  (progThreads x).foldl (fun (s : State) (r : ProgThread) =>
    if !p r.core || (s.tenant (coreTenant s.comp.run r.core)).state != .active then s
    else s.setThread r.core r.tid { x := threadRegs r.regs, pc := BitVec.ofNat 64 r.pc, state := .ready }) s

/-- A PROGRAM section is loaded and its threads start. -/
def State.startProgram (s : State) (x : Section) : State := (s.loadProgram x).startThreads (fun _ => true) x

/-- Every program starts. -/
def State.startPrograms (s : State) : State := (programs s.comp.run).foldl State.startProgram s

/-- SERVICE may be entered (R378). -/
def State.serviceAllowed (s : State) : Bool :=
  s.tim.state == .locked && ((s.mod.state == .test && s.mod.testDone) || (s.mod.state == .recovery && s.log.rcvStep == 6))

/-- The device enters SERVICE; a port that a maker mode held in TEST trains again (R410). -/
def State.enterService (s : State) : State :=
  let held := s.glb.makerMode != 0
  let s := ((s.changeState .service 0x40 0).armLeases).startPrograms
  if held then s.train s.glb.makerTgt.toNat else s

/-! ### Warm reset (R380) -/

/-- FLAGS of a record or entry kept over a warm reset. -/
def preReset (f : BitVec 8) : BitVec 8 := f ||| 4

/-- The fabric time unit after a warm reset: its state, count, run lengths and correction in progress are kept. -/
def Tim.warm (t : Tim) : Tim :=
  { ft := t.ft, state := t.state, markRun := t.markRun, missRun := t.missRun, errs := t.errs, holdFrom := t.holdFrom,
    window := t.window, lastFrame := t.lastFrame, absentRun := t.absentRun, slew := t.slew, slewSlot := t.slewSlot, stall := t.stall, stallAt := t.stallAt, stallAmt := t.stallAmt, dieOff := t.dieOff,
    dieFloor := t.dieFloor, dieRate := t.dieRate,
    markErr := t.markErr,
    distAt := t.distAt, lastScrub := t.ft, lastHeat := t.ft, lastSelf := t.ft, lastMargin := t.ft }

/-- A warm reset: step 2 of the boot sequence is next. -/
def State.warm (s : State) : State :=
  let c := s.cold
  let c := { c with
    tim := s.tim.warm
    log := { c.log with entries := s.log.entries.map (fun (e : Nat × LogEntry) => (e.1, { e.2 with flags := preReset e.2.flags })),
                        wrSeq := s.log.wrSeq, lastAudit := s.now, lastSensor := s.now }
    evq := { c.evq with queue := s.evq.queue.map (fun (e : Event) => { e with flags := preReset e.flags }),
                        eseqNext := s.evq.eseqNext, lost := s.evq.lost }
    adk := { c.adk with state := .training, trainAt := s.now }
    mod := { c.mod with state := s.mod.state, prev := s.mod.prev, changeFt := s.mod.changeFt } }
  let c := c.changeState .boot 0x40 0
  { c with mod := { c.mod with bootStep := 1 } }

/-! ### DRAIN (R382, Table 16-5) -/

/-- Dirty sectors in T0. -/
def State.dirtySectors (s : State) : List Nat := (s.tier.sectors.filter (fun e => e.2.dirty != 0)).map (·.1)

/-- A dirty sector leaves T0 in DRAIN: to its slot, or discarded and counted where its page is LOST (steps 3 and 4). A page
that is not yet overwritten with zeroes, or whose tray is not ONLINE, holds it back. -/
def State.drainSector (s : State) (b : Nat) : State :=
  let pg := s.page (pageOfBlock b)
  if pg.res = 3 ∨ pg.res = 0 then
    let s := s.dropSector b
    { s with mod := { s.mod with lostSect := s.mod.lostSect + 1 } }
  else if pg.moving || !s.trayUp pg.tray.toNat then s
  else if !s.readyForWriteBack b then s.startZero (pageOfBlock b)
  else
    let s := s.writeBack b
    s.setSector b { s.sector b with dirty := 0 }

/-- Every dirty sector in turn. -/
def State.drainSectors (s : State) : State := s.dirtySectors.foldl State.drainSector s

/-- DRAIN begins (steps 1 and 2). -/
def State.enterDrain (s : State) : State :=
  let s := (s.changeState .drain 0x40 0).leaveService
  let s := s.revokeAll 5 (fun x => x.state == .active)
  { s with mod := { s.mod with drainStep := 2, lostSect := 0 } }

/-- A write to a bridge tray is outstanding. -/
def State.bridgeBusy (s : State) : Bool := s.tier.reqs.any (fun q => decide (256 ≤ q.tray))

/-- Step 6: ready to be removed, and every port goes down with cause 0x04. -/
def State.drainEnds (s : State) : State :=
  let s := ({ s with mod := { s.mod with drainStep := 6, ready := true } }).event 0x45 0 srcModule s.mod.lostSect
  let s := (s.ports.map (·.1)).foldl (fun (s : State) p => if s.base p = p then s.portDown p 4 else s) s
  let s := (List.range 16).foldl (fun (s : State) b =>
    if (s.tray (256 + b)).linkUp then (s.onTray (256 + b) (fun x => { x with linkUp := false })).trayGone (256 + b) else s) s
  { s with mod := { s.mod with refClk := false, perst := 0xFFFF } }

/-- DRAIN_STEP_COMPLETE (R382). -/
def execDrainStepComplete (s : State) : Host.Outcome State Fault Refusal :=
  .next (
    if s.mod.state ≠ .drain then s
    else match s.mod.drainStep with
      | 2 =>
        if s.ext.tab.any (fun e => e.2.state == .active || e.2.state == .revoking) then s
        else ({ s with mod := { s.mod with drainStep := 3 } }).drainSectors
      | 3 =>
        let s := s.drainSectors
        if s.dirtySectors.isEmpty then { s with mod := { s.mod with drainStep := 4 } } else s
      | 4 => if s.bridgeBusy then s else s.drainEnds
      | _ => s)

/-! ### RECOVERY (R371, Table 15-13) -/

/-- Requests that the module itself has issued, which step 2 drains. -/
def Origin.internal : Origin → Bool
  | .port _ => false
  | _ => true

/-- A recovery step begins, with its entry; only the last raises an event. -/
def State.recoveryNext (s : State) (n : Nat) : State :=
  ({ s with log := { s.log with rcvStep := BitVec.ofNat 4 n } }).logE 0x17 n srcModule 0 (n == 6)

/-- Zero a region of local memory that has failed. -/
def State.zeroLocal (s : State) (x : Nat × Nat × Nat) : State :=
  if x.1 = 0 then { s with cpu := { s.cpu with spad := s.cpu.spad.write x.2.1 (fill x.2.2 0) } }
  else if x.1 = 1 then { s with cpu := { s.cpu with cmem := s.cpu.cmem.write x.2.1 (fill x.2.2 0) } }
  else s.onCore (x.2.1 / 8) (fun c => { c with tiles := Table.write {} c.tiles (x.2.1 % 8) {} })

/-- Compute die that a failed region of local memory lies on. -/
def regionSite (s : State) (x : Nat × Nat × Nat) : Nat :=
  s.lcSite (regionLc x)

/-- The work of step 3: extents without a surviving entry are scrubbed, failed local memory is zeroed. The dies that the
causes name are noted for step 4. -/
def State.recoveryRepair (s : State) : State :=
  let s := s.log.badExt.foldl (fun (s : State) e =>
    (s.onExtent e (fun x => { x with lastValid := false })).startScrub e) s
  let sites := s.log.badLocal.map (regionSite s)
  let s := s.log.badLocal.foldl State.zeroLocal s
  { s with log := { s.log with
      badExt := [], badLocal := []
      passLeft := sites.foldl (fun (t : Table Nat) x => Table.write 0 t x 4) s.log.passLeft } }

/-- SRC of a unit that can be fenced, by kind and index (Tables 15-10 and 15-12). -/
def fenceSrc (kind idx : Nat) : BitVec 16 :=
  match kind with
  | 1 | 7 => srcP idx
  | 3 => srcK idx
  | 4 => srcST (idx / 256)
  | 5 => if idx < 256 then srcP idx else srcB (idx - 256)
  | _ => srcModule

/-- A fence is lifted, with its event (code 0x5A). -/
def State.unfence (s : State) (key : Nat) : State :=
  let kind := key / 2 ^ 24
  let idx := key % 2 ^ 24
  ({ s with log := { s.log with fenced := Table.write false s.log.fenced key false } }).event 0x5A kind (fenceSrc kind idx) idx

/-- Step 5: one audit sample clears the fences of the units that it finds in agreement; the lot-key fence of an S port is not
one of them (R359, R369). -/
def State.recoveryAudit (s : State) : State :=
  ((s.log.fenced.map (·.1)).filter (fun k => decide (k / 2 ^ 24 ≤ 6) && Table.read 0 s.log.disagree k == 0)).foldl State.unfence s

/-- RECOVERY_STEP_DONE: the step that runs has ended and the next one begins. -/
def execRecoveryStepDone (s : State) : Host.Outcome State Fault Refusal :=
  .next (
    if s.mod.state ≠ .recovery then s
    else match s.log.rcvStep.toNat with
      | 1 => s.recoveryNext 2
      | 2 => if s.req.reqs.any (fun r => r.origin.internal) then s else (s.recoveryNext 3).recoveryRepair
      | 3 => if s.ext.tab.any (fun e => e.2.state == .scrubbing && !e.2.lastValid) then s else s.recoveryNext 4
      | 4 => if s.log.passLeft.isEmpty then (s.recoveryNext 5).recoveryAudit else s
      | 5 => s.recoveryNext 6
      | _ => s)

/-! ### MOD_CMD (R373, R378, R380, R382, R388) -/

/-- The result of a MOD_CMD appears in MOD_STATE.RESULT. -/
def State.modResult (s : State) (st : BitVec 6) : State × BitVec 6 := ({ s with mod := { s.mod with result := st } }, st)

/-- A write of MOD_CMD other than WARM. -/
def State.modCmd (s : State) (v : BitVec 64) : State × BitVec 6 :=
  match v.toNat % 8 with
  | 1 => if s.serviceAllowed then s.enterService.modResult stOk else s.modResult stDenied
  | 2 => if s.mod.state = .service then s.enterDrain.modResult stOk else s.modResult stDenied
  | 3 =>
    if s.mod.state = .service ∨ (s.mod.state = .drain ∧ s.mod.ready = false) then (s.enterRecovery 0x40).modResult stOk
    else s.modResult stDenied
  | _ => s.modResult stDenied

/-- Perform a write of MOD_CMD. A warm reset takes the ADK link down before any answer. -/
def State.modBody (q : AdkFrame) (v : BitVec 64) (s : State) : State :=
  if v.toNat % 8 = 4 ∧ s.holdsRole .operator = true then s.warm else State.wrBody q .operator (fun s => s.modCmd v) s

/-- A WR of MOD_CMD. -/
def State.modWr (s : State) (tag : BitVec 16) (v : BitVec 64) : State :=
  let q := wrFrame tag modCmdAddr v
  s.adkRequest q true (State.modBody q v)

/-- MOD_CMD.SERVICE. -/
def execModService (tag : BitVec 16) (s : State) : Host.Outcome State Fault Refusal := .next (s.modWr tag 1)
/-- MOD_CMD.DRAIN. -/
def execModDrain (tag : BitVec 16) (s : State) : Host.Outcome State Fault Refusal := .next (s.modWr tag 2)
/-- MOD_CMD.RECOVER. -/
def execModRecover (tag : BitVec 16) (s : State) : Host.Outcome State Fault Refusal := .next (s.modWr tag 3)
/-- MOD_CMD.WARM. -/
def execModWarm (tag : BitVec 16) (s : State) : Host.Outcome State Fault Refusal := .next (s.modWr tag 4)

end Sys2Proof.Machine
end

