-- ==== Sys2Proof/Machine/Fabtime.lean ====
section
/-! DEFINITION. Fabric time: the rack-time inputs, the lock states, corrections and what follows from them (chapter 02). -/

namespace Sys2Proof.Machine

/-- Encoding of an FT state (Table 02-2). -/
def FtState.code : FtState → Nat
  | .unset => 0 | .locked => 1 | .holdover => 2 | .lost => 3

/-- 20 ns in sixteenths. -/
def agreeT : Nat := 20 * nsT

/-! ### The gate sequencer (R283, R286, R287) -/

/-- The sequencer of a port takes up the entry in effect at the FT of now on the grid of the active list. -/
def Gate.takeUp (g : Gate) (now : FT) : Gate :=
  if g.cycle = 0 then g
  else
    let o := (((now : Int) - g.actBase) % g.cycle).toNat
    match entryAt (g.list true) 0 o with
    | none => g
    | some (i, left) => { g with cur := i, curEnd := now + left, gates := ((g.list true).getD i {}).gates }

/-- A running list stops: every queue is served ungated. -/
def Gate.stop (g : Gate) : Gate := { g with run := false, gates := 0xFFFF }

/-- Queues whose gate has closed although a frame of theirs is still on a member link of the port (R286). -/
def Traffic.overruns (t : Traffic) (now : FT) : List (Nat × Nat) :=
  t.lanes.filterMap (fun e => match e.2.queue with
    | some q => if now < e.2.ends && t.gate.run && !t.gate.gates.getLsbD q then some (e.1, q) else none
    | none => none)

/-- The sequencer of a port moves to the entry in effect now at its die; a frame that it catches on the link is counted once, when
its gate closes (R286). -/
def State.sequence (s : State) (p : Nat) : State :=
  let now := s.dieFt (portSite p)
  let was := (s.port p).tc.overruns now
  let s := s.onTc p (fun t => { t with gate := t.gate.takeUp now })
  ((s.port p).tc.overruns now).foldl (fun s e => if was.contains e then s else s.countQue p e.2 3) s

/-- Ports with a running list. -/
def State.gatedPorts (s : State) : List Nat := (s.ports.filter (fun e => e.2.tc.gate.run)).map (·.1)

/-! ### What follows the state of FT (R43) -/

/-- FT has become LOST: leases freeze, gate lists stop, and generations with a deadline or a gate abort. -/
def State.ftLost (s : State) : State :=
  let s := (s.gatedPorts).foldl (fun (s : State) p => s.onTc p (fun t => { t with gate := t.gate.stop })) s
  s.freezeLeases.collLost

/-- FT is LOCKED again after LOST or UNSET: leases are armed again, and every list restarts at its next grid point. -/
def State.ftFound (s : State) : State :=
  let s := { s with ports := Table.mapAll {} (fun _ (p : Port) =>
    if p.tc.gate.run then p else { p with tc := { p.tc with gate := { p.tc.gate with lastStart := s.now } } }) s.ports }
  s.thawLeases

/-- FT changes state: the entry and event of R44, and the consumers of Table 02-3. -/
def State.ftTo (s : State) (n : FtState) : State :=
  let old := s.tim.state
  if old = n then s
  else
    let t := s.tim
    let t := { t with
      state := n
      markRun := if old = .locked then 0 else t.markRun
      errs := if n = .locked then [] else t.errs
      slew := if n = .locked then t.slew else 0
      slewSlot := if n = .locked then t.slewSlot else 0
      holdFrom := if n = .holdover then t.ft else t.holdFrom }
    let s := ({ s with tim := t }).logE 0x16 (n.code + 8 * old.code) (srcSD 1) t.markErr.toNat true
    match n with
    | .lost => s.ftLost
    | .locked => if old = .holdover then s else s.ftFound
    | _ => s

/-! ### Corrections (R44 to R46) -/

/-- Record a correction: its kind, FT before and after it, what PARAM bytes 24 to 31 hold, and STEP_AMT. -/
def State.ftRecord (s : State) (kind before after second : Nat) (amt : Int) : State :=
  let s := { s with tim := { s.tim with
    stepAmt := BitVec.ofInt 64 amt, stepAt := BitVec.ofNat 64 after, stepped := true, corrections := s.tim.corrections + 1 } }
  s.logE 0x16 (0x80 + kind) (srcSD 1) (before % 2 ^ 64 + 2 ^ 64 * (second % 2 ^ 64)) true

/-- Scheduled events whose FT lies within a forward step, which fire late: one for each one-shot event and one for each
periodic series (R45). Lease expiries frozen in LOST are armed again instead. -/
def State.lateFires (s : State) (before after : FT) : Nat :=
  let hit (t : FT) : Bool := decide (before < t) && decide (t ≤ after)
  let gates := (s.gatedPorts.filter (fun p =>
    let g := (s.port p).tc.gate
    pointDue g.actBase g.cycle before after)).length
  let colls := (s.clv.ids.filter (fun e => e.2.live && (match e.2.deadline with | some d => hit d | none => false))).length
  let leases := (s.lse.tab.filter (fun e => e.2.state == .armed && hit e.2.expiry)).length
  let series := ([3, 4, 5, 6].filter (fun k => gridDue (s.periodOf k) before after)).length
  let bels := ((List.range 256).flatMap (fun p => (List.range 16).filter (fun q =>
    gridDue ((s.queue p q).belUs.toNat * usT) before after))).length
  gates + colls + leases + series + bels

/-- Late one-shot events in the order in which they fire: by scheduled FT, then by class (R45). -/
def insertLate (e : FT × Nat × Nat) : List (FT × Nat × Nat) → List (FT × Nat × Nat)
  | [] => [e]
  | x :: l => if e.1 < x.1 ∨ (e.1 = x.1 ∧ e.2.1 < x.2.1) then e :: x :: l else x :: insertLate e l

/-- The one-shot events whose FT a forward step has skipped: scheduled FT, class and unit. -/
def State.lateShots (s : State) (before : FT) : List (FT × Nat × Nat) :=
  let hit (t : FT) : Bool := decide (before < t) && decide (t ≤ s.now)
  let colls := s.clv.ids.filterMap (fun e => match e.2.deadline with
    | some d => if e.2.live && hit d then some (d, 1, e.1) else none
    | none => none)
  let leases := (s.lse.tab.filter (fun e => e.2.state == .armed && hit e.2.expiry)).map (fun e => (e.2.expiry, 2, e.1))
  (colls ++ leases).foldr insertLate []

/-- The skipped one-shot events fire at once, each once (R45). -/
def State.fireLate (s : State) (l : List (FT × Nat × Nat)) : State :=
  l.foldl (fun (s : State) e => if e.2.1 = 1 then s.collDeadline e.2.2 else s.leaseEnds e.2.2) s

/-- The moments at which frames leave their links, as FT will read them after a correction by `d` (R278, R287). -/
def State.lanesShift (s : State) (d : Int) : State :=
  let at_ := fun (t : FT) => ((t : Int) + d).toNat
  let lane := fun (_ : Nat) (x : Lane) => { x with ends := at_ x.ends, free := at_ x.free }
  let port := fun (_ : Nat) (p : Port) => { p with tc := { p.tc with lanes := Table.mapAll {} lane p.tc.lanes } }
  { s with ports := Table.mapAll {} port s.ports }

/-- FT moves to another value: a frame on a link leaves it at the same moment as before, and a running gate list takes up
the entry in effect on its grid (R287). -/
def State.ftJump (s : State) (n : FT) : State :=
  let s := s.lanesShift ((n : Int) - s.now)
  let s := { s with tim := { s.tim with ft := n } }
  s.gatedPorts.foldl State.sequence s

/-- Periodic series realign to their grids from a smaller FT (R46). -/
def State.realign (s : State) : State :=
  let n := s.now
  { s with
    tim := { s.tim with lastScrub := min s.tim.lastScrub n, lastHeat := min s.tim.lastHeat n,
                        lastSelf := min s.tim.lastSelf n, lastMargin := min s.tim.lastMargin n, distAt := min s.tim.distAt n,
                        dieFloor := [] }
    ports := Table.mapAll {} (fun _ (p : Port) => { p with tc := { p.tc with
      gate := { p.tc.gate with lastStart := min p.tc.gate.lastStart n }
      queues := Table.mapAll {} (fun _ (q : Queue) => { q with belAt := min q.belAt n }) p.tc.queues } }) s.ports }

/-- The third agreeing mark has come outside LOCKED with error `e`: FT is corrected (R44). A stall ends later. -/
def State.ftCorrect (s : State) (e : Int) : State :=
  let before := s.now
  if e ≤ 0 then
    let n := before + (-e).toNat
    let late := s.lateFires before n
    let s := ((s.ftJump n).ftRecord 1 before n n (-e)).ftTo .locked
    let s := { s with tim := { s.tim with lateFired := s.tim.lateFired + BitVec.ofNat 32 late } }
    s.fireLate (s.lateShots before)
  else if e.toNat ≤ s.tim.stepbackUs.toNat * usT then
    let s := s.lanesShift (-e)
    { s with tim := { s.tim with stall := e.toNat + 1, stallAt := before, stallAmt := e.toNat } }
  else
    let n := before - e.toNat
    (((s.ftJump n).realign).ftRecord 3 before n n (-e)).ftTo .locked

/-! ### Marks (R39 to R41) -/

/-- A run length after one more, saturating at 0xFF. -/
def runUp (n : BitVec 8) : BitVec 8 := if n = 0xFF then n else n + 1

/-- A missing mark: the third in a row takes LOCKED to HOLDOVER. -/
def State.markMissing (s : State) : State :=
  let t := { s.tim with missRun := runUp s.tim.missRun, markRun := 0, errs := [] }
  let s := { s with tim := t }
  if t.state = .locked ∧ 3 ≤ t.missRun.toNat then s.ftTo .holdover else s

/-- The longest run of consecutive marks up to the last whose errors lie within 20 ns of the first error of the run. -/
def agreeing : List Int → List Int
  | [] => []
  | e :: l => if l.all (fun x => decide ((x - e).natAbs ≤ agreeT)) then e :: l else agreeing l

/-- A mark that is not missing, with its error. In LOCKED the error is removed over the next millisecond; outside it, the
third consecutive mark whose errors lie within 20 ns of the first of the three corrects FT (Table 02-2). -/
def State.markGood (s : State) (e : Int) : State :=
  let t := { s.tim with missRun := 0, markErr := BitVec.ofInt 64 e }
  if t.state = .locked then { s with tim := { t with markRun := runUp t.markRun, slew := -e, slewSlot := 0 } }
  else
    let run := agreeing (t.errs ++ [e])
    let s := { s with tim := { t with errs := run, markRun := BitVec.ofNat 8 (min 255 run.length) } }
    if 3 ≤ run.length ∧ t.stall = 0 then s.ftCorrect e else s

/-- The window of a frame that has not been paired closes: a missing mark. -/
def State.markClose (s : State) : State :=
  if s.tim.window.isSome then ({ s with tim := { s.tim with window := none } }).markMissing else s

/-- CRC of an RT_CODE frame, over MARK_FT and FLAGS in the order in which their bytes are sent (R38, log 118). -/
def codeCrc (markFt : BitVec 64) (flags : BitVec 8) : BitVec 16 := BitVec.ofNat 16 (crc16 (leBytes 8 markFt.toNat ++ [flags]))

/-- RT_CODE_FRAME (R38, R39). Bits that do not begin with SYNC are no frame. -/
def execRtCodeFrame (sync : BitVec 16) (markFt : BitVec 64) (flags : BitVec 8) (crc : BitVec 16) (s : State) :
    Host.Outcome State Fault Refusal :=
  .next (
    if s.mod.state = .off ∨ sync ≠ 0xE5A3 then s
    else
      let s := ({ s with tim := { s.tim with lastFrame := s.now, absentRun := 0 } }).markClose
      if crc = codeCrc markFt flags ∧ markFt.toNat % msT = 0 then { s with tim := { s.tim with window := some (markFt.toNat, s.now) } }
      else ({ s with tim := { s.tim with codeErr := true } }).markMissing)

/-- RT_MARK_EDGE (R39), `frac` sixteenths into the slot: an edge less than 100 µs after the last bit of its frame makes
that frame invalid (R38). -/
def execRtMarkEdge (frac : BitVec 6) (s : State) : Host.Outcome State Fault Refusal :=
  .next (
    if s.mod.state = .off then s
    else match s.tim.window with
      | none => s
      | some (m, last) =>
        let at_ := s.now + frac.toNat
        let e : Int := (at_ : Int) - m
        let locked := s.tim.state == .locked
        if locked && decide (s.tim.markWin.toNat * usT < e.natAbs) then s
        else
          let s := { s with tim := { s.tim with window := none } }
          if at_ < last + 100 * usT then ({ s with tim := { s.tim with codeErr := true } }).markMissing
          else if locked && decide (agreeT < e.natAbs) then s.markMissing
          else s.markGood e)

/-- MARK_WINDOW_EXPIRY (R39). -/
def execMarkWindowExpiry (s : State) : Host.Outcome State Fault Refusal :=
  .next (match s.tim.window with
    | some (m, _) =>
      if s.mod.state ≠ .off ∧ s.tim.state = .locked ∧ m + s.tim.markWin.toNat * usT < s.now then s.markClose else s
    | none => s)

/-- RT_CODE_ABSENT_TIMEOUT: 2 ms without a frame, and each further 1 ms, give one missing mark (R39). -/
def execRtCodeAbsentTimeout (s : State) : Host.Outcome State Fault Refusal :=
  .next (
    if s.mod.state ≠ .off ∧ s.tim.lastFrame + 2 * msT + s.tim.absentRun * msT ≤ s.now then
      ({ s with tim := { s.tim with absentRun := s.tim.absentRun + 1 } }).markMissing
    else s)

/-- RT_REF_LOSS: the reference has been absent for 1 µs of FT, from FT `since` on (R3, R40). -/
def execRtRefLoss (since : BitVec 64) (s : State) : Host.Outcome State Fault Refusal :=
  .next (if s.mod.state ≠ .off ∧ s.tim.state = .locked ∧ since.toNat + usT ≤ s.now then s.ftTo .holdover else s)

/-- A stay in HOLDOVER that has reached HOLD_MAX_S ends in LOST (R40). -/
def State.holdEnds (s : State) : State :=
  if s.tim.state = .holdover ∧ s.tim.holdFrom + s.tim.holdMaxS.toNat * secT ≤ s.now then s.ftTo .lost else s

/-- HOLDOVER_EXPIRY (R40, R49). -/
def execHoldoverExpiry (s : State) : Host.Outcome State Fault Refusal :=
  .next (
    if s.mod.state ≠ .off then s.holdEnds else s)

/-- FT_STALL_END: rack time has reached the counters, which go on; FT is LOCKED (R44, Table 02-5). -/
def execFtStallEnd (s : State) : Host.Outcome State Fault Refusal :=
  .next (
    if s.mod.state ≠ .off ∧ s.tim.stall = 1 then
      let e := s.tim.stallAmt
      (({ s with tim := { s.tim with stall := 0 } }).ftRecord 2 s.tim.stallAt s.tim.stallAt e e).ftTo .locked
    else s)

/-! ### Distribution (R36) -/

/-- The counter of each die is loaded with the value and the rate word that SD1 sends: it differs from SD1's by at most 1 ns, so
from any other by at most 2 ns (R22). The spec leaves the difference open, so it is a free value. The counter does not fall (R37). -/
def State.ftLoad (s : State) (x : Nat) : State :=
  let r := s.draw
  let d : BitVec 8 := BitVec.ofInt 8 ((((Config.freeWord r.2).toNat % 33 : Nat) : Int) - 16)
  { r.1 with tim := { r.1.tim with
      dieFloor := Table.write 0 r.1.tim.dieFloor x (s.dieFt x), dieRate := Table.write 0 r.1.tim.dieRate x s.tim.slew
      dieOff := Table.write 0 r.1.tim.dieOff x (if x = sd1Site then 0 else d) } }

/-- FT_DISTRIBUTE. -/
def execFtDistribute (s : State) : Host.Outcome State Fault Refusal :=
  .next (
    if s.mod.state ≠ .off ∧ s.tim.distAt + usT ≤ s.now then
      (List.range 64).foldl State.ftLoad { s with tim := { s.tim with distAt := s.now } }
    else s)

/-! ### TIM_CTRL (R49) -/

/-- Address of a TIM_ register. -/
def timAddr (off : Nat) : Nat := maddr 2 0 1 off

/-- A write of TIM_CTRL: DENIED outside a field's range. A stay in HOLDOVER that has already reached the new HOLD_MAX_S ends (R49). -/
def State.timCtrl (s : State) (v : BitVec 64) : State × BitVec 6 :=
  let x := v.toNat
  let step := bits x 23 16
  let hold := bits x 15 8
  let win := bits x 7 4
  if 0x10 < step ∨ hold = 0 ∨ 0x3C < hold ∨ win = 0 then (s, stDenied)
  else
    (({ s with tim := { s.tim with
      stepbackUs := BitVec.ofNat 8 step, holdMaxS := BitVec.ofNat 8 hold, markWin := BitVec.ofNat 4 win } } : State).holdEnds, stOk)

/-- TIM_CTRL_WRITE. -/
def execTimCtrlWrite (tag : BitVec 16) (value : BitVec 64) (s : State) : Host.Outcome State Fault Refusal :=
  .next (s.adkWr tag (timAddr 0x20) value .installer (fun s => s.timCtrl value))

end Sys2Proof.Machine
end

