-- ==== Sys2Proof/Machine/Sha3.lean ====
section
/-! DEFINITION. SHA3-256, the digest of images, program sections, firmware packages and reports (R299, R304, R344, R347), as FIPS 202
defines it: the rotations and the round constants are computed, not listed. The sponge state is 25 numbers of 64 bits; the one of column
x and row y stands at 5 y + x. -/

namespace Sys2Proof.Machine

/-- Rotation of 64 bits to the left. -/
def turn64 (v n : Nat) : Nat := v * 2 ^ (n % 64) % 2 ^ 64 + v / 2 ^ (64 - n % 64)

/-- Parity of column x of a state. -/
def columnOf (st : List Nat) (x : Nat) : Nat := [0, 5, 10, 15, 20].foldl (fun p row => p ^^^ st.getD (row + x % 5) 0) 0

/-- Diffusion: each number takes up the parities of the columns beside its own. -/
def diffuse (st : List Nat) : List Nat :=
  st.zipIdx.map (fun e => e.1 ^^^ columnOf st (e.2 + 4) ^^^ turn64 (columnOf st (e.2 + 1)) 1)

/-- Where the walk over the places goes from a place: from (x, y) to (y, 2x + 3y). -/
def walkOn (place : Nat) : Nat := place / 5 + (2 * (place % 5) + 3 * (place / 5)) % 5 * 5

/-- Dispersion: along the walk of 24 places from (1, 0), the number at step t is turned by (t + 1)(t + 2) / 2 and goes one place on; the
number at (0, 0) stays. -/
def disperse (st : List Nat) : Nat → Nat → List Nat → List Nat
  | 0, _, acc => acc
  | k + 1, place, acc =>
    let t := 23 - k
    disperse st k (walkOn place) (acc.set (walkOn place) (turn64 (st.getD place 0) ((t + 1) * (t + 2) / 2)))

/-- Mixing within rows: each number takes up what the second on its right has and the first on its right has not. -/
def mixRows (st : List Nat) : List Nat :=
  st.zipIdx.map (fun e =>
    let row := e.2 / 5 * 5
    e.1 ^^^ ((2 ^ 64 - 1 - st.getD (row + (e.2 + 1) % 5) 0) &&& st.getD (row + (e.2 + 2) % 5) 0))

/-- The feedback register behind the round constants: x to the next power modulo x^8 + x^6 + x^5 + x^4 + 1. -/
def feedback (r : Nat) : Nat := if r < 128 then 2 * r else 2 * r ^^^ 0x171

/-- The constant of a round from the register's next seven outputs, at bits 2^j - 1, with the register after them. -/
def roundKey (r : Nat) : Nat × Nat :=
  (List.range 7).foldl (fun x j => (x.1 + x.2 % 2 * 2 ^ (2 ^ j - 1), feedback x.2)) (0, r)

/-- So many rounds of the permutation, from a register. -/
def spongeRounds : Nat → Nat → List Nat → List Nat
  | 0, _, st => st
  | k + 1, r, st =>
    let st := diffuse st
    let st := mixRows (disperse st 24 1 st)
    let key := roundKey r
    spongeRounds k key.2 (st.modify 0 (fun v => v ^^^ key.1))

/-- A message as whole blocks of 136 bytes: the bits 01 and the padding 1 0 … 0 1 follow its last byte. -/
def spongeInput (bs : List Byte) : List Byte :=
  let free := 136 - bs.length % 136
  let last := leBytes free (0x06 + 0x80 * 2 ^ (8 * (free - 1)))
  bs ++ last

/-- SHA3-256 of bytes: 32 bytes. -/
def sha3 (bs : List Byte) : List Byte :=
  let msg := spongeInput bs
  let out := (List.range (msg.length / 136)).foldl (fun st i =>
    spongeRounds 24 1 (st.zipIdx.map (fun e => if e.2 < 17 then e.1 ^^^ field msg (136 * i + 8 * e.2) 8 else e.1))) (List.replicate 25 0)
  (out.take 4).flatMap (leBytes 8)

end Sys2Proof.Machine
end

