-- ==== Sys2Proof/Machine/Tenancy.lean ====
section
/-! DEFINITION. Tenant contexts and their teardown, roles, firmware, attestation and debug reads (chapter 14). -/

namespace Sys2Proof.Machine

/-- Address of a SEC_ register. -/
def secAddr (off : Nat) : Nat := maddr 1 0 1 off

/-! ### Tenant contexts (R326, R333) -/

/-- Encoding of a tenant state (Table 14-1). -/
def TenantState.code : TenantState → Nat
  | .free => 0 | .active => 1 | .stopping => 2 | .retired => 3

/-- An extent holds data written under the key slot of a tenant (R333). -/
def Extent.dirtyOf (x : Extent) (t : Nat) : Bool :=
  x.written &&
    (((x.state == .active || x.state == .revoking || x.state == .drained) && x.tenant.toNat == t) ||
     ((x.state == .free || x.state == .scrubbing) && x.lastValid && x.lastTenant.toNat == t))

/-- SEC_TC.DIRTY of a tenant. -/
def State.tenantDirty (s : State) (t : Nat) : Nat := (s.ext.tab.filter (fun e => e.2.dirtyOf t)).length

/-- A tenant context changes state, with its event (code 0x56). -/
def State.tenantTo (s : State) (t : Nat) (n : TenantState) (f : Tenant → Tenant := id) : State :=
  let s := s.onTenant t (fun x => f { x with state := n })
  s.event 0x56 n.code (srcTC t) (s.tenantDirty t)

/-- Extents that a tenant holds. -/
def State.tenantExtents (s : State) (t : Nat) : List Nat :=
  (s.ext.tab.filter (fun e => e.2.tenant.toNat == t && (e.2.state == .active || e.2.state == .revoking || e.2.state == .drained))).map (·.1)

/-- A page belongs to an extent that a tenant holds. -/
def State.tenantPage (s : State) (t page : Nat) : Bool :=
  let x := s.pageExtent page
  x.tenant.toNat == t && (x.state == .active || x.state == .revoking || x.state == .drained)

/-- Cores whose CORE record names a tenant; the record of an unused core names none (log 139). -/
def State.tenantCores (s : State) (t : Nat) : List Nat :=
  (List.range 1024).filter (fun k => coreTenant s.comp.run k == t && coreKind s.comp.run k != 0)

/-- SERVICE cores that have run a split, a generation or a decode of a tenant since their last scrub (Table 14-4). -/
def State.servedBy (s : State) (t : Nat) : List Nat := (s.cpu.cores.filter (fun e => e.2.ran.contains (BitVec.ofNat 10 t))).map (·.1)

/-! ### Teardown (R334, Table 14-3) -/

/-- Step 2: what the tenant has running ends. -/
def State.teardownStop (s : State) (t : Nat) : State :=
  let cs := s.tenantCores t
  let s := s.stopThreads (fun k _ => cs.contains k)
  let s := s.revokeAll 4 (fun x => x.state == .active && x.tenant.toNat == t)
  let s := s.collTriggers 0xC (fun id _ => (s.collGroup id).tenant.toNat == t)
  let s := s.attnStopping t
  (s.coh.doms.filter (fun e => e.2.tenant.toNat == t && e.2.state == .up)).foldl (fun (s : State) e => s.domTrigger e.1 4 none) s

/-- Step 3: the retired bitmap goes to every ONLINE CX1 tray. -/
def State.teardownBitmaps (s : State) : State :=
  (s.tier.trays.filter (fun e => decide (e.1 < 256) && e.2.state == .online)).foldl (fun (s : State) e => s.writeBitmap e.1) s

/-- Step 4: moves of the tenant's pages end, and its dirty sectors are clean, so that none is written back. -/
def State.teardownClean (s : State) (t : Nat) : State :=
  let s := (s.tier.moves.filter (fun m => s.tenantPage t m.page)).foldl (fun (s : State) m => s.abortMove m.page) s
  { s with tier := { s.tier with sectors := Table.mapAll {} (fun b (x : Sector) =>
      if s.tenantPage t (pageOfBlock b) then { x with dirty := 0 } else x) s.tier.sectors } }

/-- A RETIRE: steps 1 to 4 of the teardown, and the write fences of step 5 begin. -/
def State.retireTenant (s : State) (t : Nat) : State :=
  let s := s.tenantTo t .stopping (fun x => { x with tdStep := 1 })
  let s := ((s.teardownStop t).teardownBitmaps).teardownClean t
  let s := s.onTenant t (fun x => { x with tdStep := 5 })
  s.wakeStaged

/-- Tier page that a request to a tray writes, if it writes one. -/
def TrayOp.wrote : TrayOp → Option Nat
  | .writeBack b _ => some (pageOfBlock b)
  | .writeLine _ line => some (pageOfBlock (line / 32))
  | .zero p _ _ | .scrub p _ | .copyWrite p _ => some p
  | _ => none

/-- A write of the tenant to a bridge tray has neither completed nor expired (step 5). -/
def State.fenceOpen (s : State) (t : Nat) : Bool :=
  s.tier.reqs.any (fun q => decide (256 ≤ q.tray) && (match q.op.wrote with | some p => s.tenantPage t p | none => false))

/-- A retired bitmap has not yet reached a tray that is ONLINE. -/
def State.bitmapOpen (s : State) : Bool :=
  s.tier.reqs.any (fun q => match q.op with | .bitmap _ => true | _ => false)

/-- Step 6 may begin. -/
def State.teardownReady (s : State) (t : Nat) : Bool :=
  !(s.ext.tab.any (fun e => e.2.tenant.toNat == t && (e.2.state == .active || e.2.state == .revoking)))
    && !s.bitmapOpen && !s.fenceOpen t
    && !(s.clv.ids.any (fun e => (s.collGroup e.1).tenant.toNat == t &&
          (e.2.state == .opened || e.2.state == .committing || e.2.state == .aborting)))
    && !(s.coh.doms.any (fun e => e.2.tenant.toNat == t && (e.2.state == .up || e.2.state == .flush)))

/-- TEARDOWN_SCRUB_START: step 6. -/
def execTeardownScrubStart (tc : BitVec 10) (s : State) : Host.Outcome State Fault Refusal :=
  .next (
    let t := tc.toNat
    let x := s.tenant t
    if s.alive && x.state == .stopping && x.tdStep == 5 && s.teardownReady t then
      s.onTenant t (fun x => { x with tdStep := 6 })
    else s)

/-- The scrub of a core of the tenant: threads, scratchpad, accumulators and caches (Table 14-4). A SERVICE core goes on with its other
work afterwards: the completions that it waits for stay. -/
def State.scrubCore (s : State) (k : Nat) : State :=
  let s := s.onCore k (fun c => { c with threads := [], dcache := [], tiles := [], ran := [], comps := if c.kind = 2 then c.comps else [],
                                          engines := if c.kind = 2 then c.engines else Table.mapAll {} (fun _ e => e.stopped) c.engines })
  { s with cpu := { s.cpu with spad := s.cpu.spad.filter (fun e => e.1 / 2 ^ 20 != k) },
           xl := { s.xl with tlb := s.xl.tlb.filter (fun e => e.1 != 64 + k) } }

/-- Slot units that a generation has used are cleared. -/
def Coll.scrubbed (c : Coll) : Coll :=
  { c with acc := [], accHas := [], data := [], got := [], done := [], out := [], unfreed := [], route := [], routeTok := [], routeK := 0,
           routeGen := none, records := [], recSent := 0, recChunk := 0 }

/-- T0 sectors that the scrub of a tenant zeroes and invalidates: those of its extents, and those in plots of the subtrees of
its admission records. -/
def State.scrubSectors (s : State) (t : Nat) : State :=
  let pvs := (s.adm.recs.filter (fun e => e.2.admitted && e.2.tenant.toNat == t)).flatMap (fun e => subtree s.comp.run e.2.pv.toNat)
  let bs := (s.tier.sectors.filter (fun e => s.tenantPage t (pageOfBlock e.1) || (decide (0 < e.2.group) && pvs.contains (e.2.group - 1)))).map (·.1)
  bs.foldl State.dropSector s

/-- Byte of cluster memory that belongs to the firmware region (Table 09-4). -/
def firmwareByte (a : Nat) : Bool := decide (0xFC0000 ≤ a % 2 ^ 24)

/-- The scrub of Table 14-4. -/
def State.teardownScrub (s : State) (t : Nat) : State :=
  let cs := s.tenantCores t
  let s := (cs ++ (s.servedBy t).filter (fun k => !cs.contains k)).foldl State.scrubCore s
  let cls := cs.map clusterOf
  let s := { s with
    cpu := { s.cpu with cmem := s.cpu.cmem.filter (fun e => firmwareByte e.1 || !cls.contains (e.1 / 2 ^ 24)) }
    clv := { s.clv with ids := Table.mapAll {} (fun id (c : Coll) => if (s.collGroup id).tenant.toNat = t then c.scrubbed else c) s.clv.ids }
    atn := { s.atn with handles := Table.mapAll {} (fun _ (h : Handle) =>
      if h.state != HandleState.free && h.tenant.toNat == t then {} else h) s.atn.handles } }
  let s := s.purge (some (BitVec.ofNat 10 t)) 0 (2 ^ 56)
  let s := { s with xl := { s.xl with roots := Table.write {} s.xl.roots t { Table.read ({} : Root) s.xl.roots t with valid := false } } }
  s.scrubSectors t

/-- Handles of a tenant that still have decodes. -/
def State.handlesBusy (s : State) (t : Nat) : Bool :=
  s.atn.handles.any (fun e => e.2.state != .free && e.2.tenant.toNat == t && decide (0 < e.2.inflight))

/-- TEARDOWN_COMPLETE: the scrub of step 7 is done, and the tenant is RETIRED (step 8). -/
def execTeardownComplete (tc : BitVec 10) (s : State) : Host.Outcome State Fault Refusal :=
  .next (
    let t := tc.toNat
    let x := s.tenant t
    if s.alive && x.state == .stopping && x.tdStep == 6 && !s.handlesBusy t then
      let s := s.teardownScrub t
      let s := s.onTenant t (fun x => { x with state := .retired, tdStep := 8 })
      s.logWith 0x56 3 (srcTC t) (s.tenantDirty t) 0x56 3 (s.tenantDirty t)
    else s)

/-- A RETIRED context may become FREE (R338). -/
def State.mayFree (s : State) (t : Nat) : Bool :=
  s.tenantDirty t == 0
    && !(s.ext.tab.any (fun e => e.2.tenant.toNat == t && e.2.state != .free && e.2.state != .absent))
    && !(s.adm.recs.any (fun e => e.2.admitted && e.2.tenant.toNat == t))
    && !(s.coh.doms.any (fun e => e.2.tenant.toNat == t && e.2.state != .off))

/-- The slots that a FREE extent has kept are released (R338 step 1). -/
def State.releaseKept (s : State) (e : Nat) : State :=
  let s := (s.extentPages e).foldl (fun (s : State) p =>
    let s := s.setPage p.1 { p.2 with res := 0, moving := false, fresh := false }
    if p.2.res = 1 ∨ p.2.res = 2 then s.releaseSlot p.1 p.2.tray.toNat p.2.slot.toNat false else s) s
  s.onExtent e (fun x => { x with lastValid := false })

/-- TENANT_FREE (R338). -/
def execTenantFree (tc : BitVec 10) (s : State) : Host.Outcome State Fault Refusal :=
  .next (
    let t := tc.toNat
    if s.alive && (s.tenant t).state == .retired && s.mayFree t then
      let kept := (s.ext.tab.filter (fun e => e.2.state == .free && e.2.lastValid && e.2.lastTenant.toNat == t)).map (·.1)
      let s := kept.foldl State.releaseKept s
      let s := s.onTenant t (fun x => { x with state := .free, pkey := none })
      (s.teardownBitmaps).event 0x56 0 (srcTC t) 0
    else s)

/-! ### Tenant commands (R326, R346, R348) -/

/-- The result of a SEC_TC_CMD. -/
def State.tcResult (s : State) (st : BitVec 6) : State × BitVec 6 := ({ s with sec := { s.sec with tcResult := st } }, st)

/-- The program key in the key words: 1,312 bytes. -/
def State.keyBytes (s : State) : List Byte :=
  (List.range 164).flatMap (fun i => leBytes 8 (Table.read (0 : BitVec 64) s.sec.pkeyBuf i).toNat)

/-- A program section of the running composition names a core of a tenant. -/
def State.tenantRuns (s : State) (t : Nat) : Bool :=
  (programs s.comp.run).any (fun x => (progCores x).any (fun k => coreTenant s.comp.run k == t))

/-- A write of SEC_TC_CMD. -/
def State.tcCmd (s : State) (v : BitVec 64) : State × BitVec 6 :=
  let t := s.sec.tcSel.toNat
  let st := (s.tenant t).state
  match v.toNat % 8 with
  | 1 => if st = .free then (s.tenantTo t .active (fun x => { x with tdStep := 0 })).tcResult stOk else s.tcResult stDenied
  | 2 =>
    match st with
    | .free => s.tcResult stDenied
    | .active => (s.retireTenant t).tcResult stOk
    | _ => s.tcResult stOk
  | 3 =>
    if (st = .free ∨ st = .active) ∧ s.tenantRuns t = false then
      (s.onTenant t (fun x => { x with pkey := some s.keyBytes })).tcResult stOk
    else s.tcResult stDenied
  | _ => s.tcResult stDenied

/-- A write of SEC_TC_CMD over the ADK link. -/
def State.tcWr (s : State) (tag : BitVec 16) (v : BitVec 64) : State :=
  s.adkWr tag (secAddr 0x20) v .operator (fun s => s.tcCmd v)

/-- SEC_TC_CMD ACTIVATE. -/
def execTcActivate (tag : BitVec 16) (s : State) : Host.Outcome State Fault Refusal := .next (s.tcWr tag 1)
/-- SEC_TC_CMD RETIRE. -/
def execTcRetire (tag : BitVec 16) (s : State) : Host.Outcome State Fault Refusal := .next (s.tcWr tag 2)
/-- SEC_TC_CMD SETKEY. -/
def execTcSetkey (tag : BitVec 16) (s : State) : Host.Outcome State Fault Refusal := .next (s.tcWr tag 3)

/-- A write of SEC_PKEY_DATA: the pointer then increments, and after the last word returns to the first (log 32). -/
def State.pkeyData (s : State) (v : BitVec 64) : State × BitVec 6 :=
  let i := s.sec.pkeyPtr.toNat
  ({ s with sec := { s.sec with pkeyBuf := Table.write 0 s.sec.pkeyBuf i v, pkeyPtr := if 0xA3 ≤ i then 0 else s.sec.pkeyPtr + 1 } }, stOk)

/-- SEC_PKEY_DATA_WRITE. -/
def execSecPkeyDataWrite (tag : BitVec 16) (value : BitVec 64) (s : State) : Host.Outcome State Fault Refusal :=
  .next (s.adkWr tag (secAddr 0x28) value .operator (fun s => s.pkeyData value))

/-! ### Roles (R339 to R341) -/

/-- A write of SEC_ROLE_CMD. -/
def State.roleCmd (s : State) (v : BitVec 64) : State × BitVec 6 :=
  match v.toNat % 4 with
  | 1 => ({ s with sec := { s.sec with instEnd := some (s.now + 10 * secT) } }, stOk)
  | 2 => ({ s with sec := { s.sec with instEnd := none } }, stOk)
  | 3 => (s, stDenied)
  | _ => (s, stOk)

/-- SEC_ROLE_CMD.INST_REQ. -/
def execInstReq (tag : BitVec 16) (s : State) : Host.Outcome State Fault Refusal :=
  .next (s.adkWr tag (secAddr 8) 1 .operator (fun s => s.roleCmd 1))
/-- SEC_ROLE_CMD.INST_END. -/
def execInstEnd (tag : BitVec 16) (s : State) : Host.Outcome State Fault Refusal :=
  .next (s.adkWr tag (secAddr 8) 2 .operator (fun s => s.roleCmd 2))

/-- The installer window closes after its 10 s. -/
def execInstallerWindowExpiry (s : State) : Host.Outcome State Fault Refusal :=
  .next (match s.sec.instEnd with
    | some e => if e ≤ s.now then { s with sec := { s.sec with instEnd := none } } else s
    | none => s)

/-- SD0 has power and runs. -/
def State.sd0Runs (s : State) : Bool := s.mod.state != .off && !s.hb.sd0Dead

/-- PRES_BTN has been asserted for 20 ms. -/
def execPresBtnAssert (since : BitVec 64) (s : State) : Host.Outcome State Fault Refusal :=
  .next (if s.sd0Runs && s.stable since debounceT then { s with sec := { s.sec with pres := true } } else s)
/-- PRES_BTN has been released for 20 ms. -/
def execPresBtnRelease (since : BitVec 64) (s : State) : Host.Outcome State Fault Refusal :=
  .next (if s.sd0Runs && s.stable since debounceT then { s with sec := { s.sec with pres := false } } else s)

/-- SEAL_LOOP_OPEN (R341). -/
def execSealLoopOpen (since : BitVec 64) (s : State) : Host.Outcome State Fault Refusal :=
  .next (if s.sd0Runs && s.stable since debounceT && !s.sec.sealOpen then s.sealOpened else s)

/-- SEAL_LOOP_CLOSE: the maker role is withdrawn (Table 14-6). -/
def execSealLoopClose (since : BitVec 64) (s : State) : Host.Outcome State Fault Refusal :=
  .next (if s.sd0Runs && s.stable since debounceT then { s with sec := { s.sec with sealOpen := false, maker := false } } else s)

/-- MAKER_JMP_CHANGE: the maker role is held while the jumper is fitted and the loop is open (Table 14-6). -/
def execMakerJmpChange (fitted : Bool) (since : BitVec 64) (s : State) : Host.Outcome State Fault Refusal :=
  .next (if s.sd0Runs && s.stable since debounceT then { s with sec := { s.sec with jmp := fitted, maker := fitted && s.sec.sealOpen } } else s)

/-! ### Debug reads (R343) -/

/-- The result of a SEC_DBG read: its line, all-ones where it failed. -/
def State.dbgResult (s : State) (st : BitVec 6) (line : List Byte) : State :=
  { s with sec := { s.sec with dbgRes := st, dbgLine := if st = stOk then line else fill 64 0xFF } }

/-- A write of 1 to SEC_DBG_CMD.READ; later requests of the adapter wait for it (R343, R395, R396). -/
def State.dbgStart (s : State) (q : AdkFrame) : State :=
  let r := s.homeAccess (.debug q.tag) (64 * s.sec.dbgAddr.toNat) none
  if r.2 then { r.1 with adk := { r.1.adk with outstanding := q :: r.1.adk.outstanding } }
  else (s.dbgResult stDenied []).adkFail q stDenied

/-- DEBUG_READ. -/
def execDebugRead (tag : BitVec 16) (s : State) : Host.Outcome State Fault Refusal :=
  .next (s.adkRequest (wrFrame tag (secAddr 0x188) 1) true (fun s => s.dbgStart (wrFrame tag (secAddr 0x188) 1)))

/-! ### Firmware (R344, R345) -/

/-- The bank that runs. -/
def State.runBank (s : State) : FwBank := Table.read ({} : FwBank) s.sec.banks (b2n s.sec.bank)

/-- The result of a SEC_FW_CMD. -/
def State.fwResult (s : State) (st : BitVec 6) : State × BitVec 6 := ({ s with sec := { s.sec with fwResult := st } }, st)

/-- SVN and length of the staged package. -/
def State.fwSvn (s : State) : Nat := leNat (s.sec.fwBytes.bytes 4 4)
def State.fwLen (s : State) : Nat := leNat (s.sec.fwBytes.bytes 8 8)

/-- VERIFY: a STAGED package begins to be checked. -/
def State.fwVerify (s : State) : State × BitVec 6 :=
  if s.sec.fwStage = .staged ∧ s.sec.fwVerifying = false then ({ s with sec := { s.sec with fwVerifying := true } }).fwResult stOk
  else s.fwResult stDenied

/-- COMMIT: a VERIFIED package whose SVN is not below the minimum begins to be written. -/
def State.fwCommit (s : State) : State × BitVec 6 :=
  if s.sec.fwStage = .verified ∧ s.sec.fwCommitting = false ∧ s.sec.svnMin.toNat ≤ s.fwSvn then
    ({ s with sec := { s.sec with fwCommitting := true } }).fwResult stOk
  else s.fwResult stDenied

/-- RAISE_MIN. -/
def State.fwRaiseMin (s : State) : State × BitVec 6 :=
  ({ s with sec := { s.sec with svnMin := BitVec.ofNat 8 s.runBank.svn } }).fwResult stOk

/-- A write of SEC_FW_CMD: VERIFY is the operator's, COMMIT and RAISE_MIN the installer's. -/
def State.fwCmd (s : State) (v : BitVec 64) : State × BitVec 6 :=
  match v.toNat % 4 with
  | 1 => s.fwVerify
  | 2 => s.fwCommit
  | 3 => s.fwRaiseMin
  | _ => s.fwResult stDenied
/-- The role that a SEC_FW_CMD requires. -/
def fwRole (v : BitVec 64) : Role := if 2 ≤ v.toNat % 4 then .installer else .operator

/-- A write of SEC_FW_CMD over the ADK link. -/
def State.fwWr (s : State) (tag : BitVec 16) (v : BitVec 64) : State :=
  s.adkWr tag (secAddr 0x108) v (fwRole v) (fun s => s.fwCmd v)

/-- SEC_FW_CMD VERIFY. -/
def execFwVerify (tag : BitVec 16) (s : State) : Host.Outcome State Fault Refusal := .next (s.fwWr tag 1)
/-- SEC_FW_CMD COMMIT. -/
def execFwCommit (tag : BitVec 16) (s : State) : Host.Outcome State Fault Refusal := .next (s.fwWr tag 2)
/-- SEC_FW_CMD RAISE_MIN. -/
def execFwRaiseMin (tag : BitVec 16) (s : State) : Host.Outcome State Fault Refusal := .next (s.fwWr tag 3)

/-- The error of the staged package: 1 key hash, 2 signature, 3 SVN, 0 none (R344, R398). -/
def State.fwError (s : State) : Nat :=
  let n := s.fwLen
  let pub := s.sec.fwBytes.bytes 128 1312
  if sha3 pub ≠ (List.range 32).map Config.rootHashByte then 1
  else if 2 ^ 26 < n + 2420 ∨ Config.verifies pub (sha3 (s.sec.fwBytes.bytes 0 n)) (s.sec.fwBytes.bytes n 2420) = false then 2
  else if s.fwSvn < s.sec.svnMin.toNat then 3
  else 0

/-- An empty firmware staging area. -/
def Security.fwEmpty (x : Security) : Security := { x with fwStage := .empty, fwBytes := [], fwWritten := [] }

/-- FW_VERIFY_DONE: a package that fails leaves the area EMPTY, so that another can be staged (log 33). -/
def execFwVerifyDone (s : State) : Host.Outcome State Fault Refusal :=
  .next (
    if s.sd0Runs && s.sec.fwVerifying then
      let e := s.fwError
      let c := { s.sec with fwVerifying := false, fwErr := BitVec.ofNat 2 e }
      { s with sec := if e = 0 then { c with fwStage := .verified } else c.fwEmpty }
    else s)

/-- FW_COMMIT_DONE: the bank that does not run holds the package, and the area is EMPTY again; the spec names no result of a
write that fails, so it is a free value (log 33). -/
def execFwCommitDone (ok : Bool) (s : State) : Host.Outcome State Fault Refusal :=
  .next (
    if s.sd0Runs && s.sec.fwCommitting then
      let b : FwBank := { svn := s.fwSvn, ok := true, digs := s.sec.fwBytes.bytes 16 96 }
      let s := { s with sec := { s.sec with fwCommitting := false } }
      if ok then
        { s with sec := { s.sec.fwEmpty with banks := Table.write {} s.sec.banks (1 - b2n s.sec.bank) b, fwResult := stOk } }
      else
        let r := s.draw
        { r.1 with sec := { r.1.sec with fwResult := (Config.freeWord r.2).setWidth 6 } }
    else s)

/-! ### Attestation (R347) -/

/-- Bytes 0 to 255 of the report (Table 14-8). -/
def State.reportBody (s : State) : List Byte :=
  leBytes 4 0x5454414E ++ leBytes 2 1 ++ leBytes 2 0x100 ++ leBytes 8 s.glb.deviceId.toNat
    ++ (List.range 4).flatMap (fun i => leBytes 8 (Table.read (0 : BitVec 64) s.sec.nonce i).toNat)
    ++ leBytes 8 (s.now % 2 ^ 64)
    ++ (List.range 96).map (fun i => s.runBank.digs.getD i 0)
    ++ leBytes 32 s.comp.digest.toNat
    ++ leBytes 4 s.runBank.svn
    ++ leBytes 1 (b2n s.sec.sealOpen + 2 * b2n s.sec.sealFuse + 4 * b2n s.sec.jmp)
    ++ leBytes 1 s.glb.spareUse.toNat ++ fill 2 0
    ++ (List.range 32).map (fun i => BitVec.ofNat 8 (s.lcPhys i))
    ++ leBytes 8 s.sec.cntDbg.toNat ++ fill 24 0

/-- Place bytes in the attestation window. -/
def State.attPlace (s : State) (bs : List Byte) : State × BitVec 6 :=
  ({ s with sec := { s.sec with attWin := Memory.write [] 0 bs, attLen := BitVec.ofNat 12 bs.length, attReady := true } }, stOk)

/-- A write of SEC_ATT_CMD. -/
def State.attCmd (s : State) (v : BitVec 64) : State × BitVec 6 :=
  match v.toNat % 4 with
  | 1 =>
    let b := s.reportBody
    s.attPlace (b ++ (List.range 2420).map (Config.signByte (sha3 b)))
  | 2 => s.attPlace ((List.range 1312).map Config.identityByte)
  | _ => (s, stDenied)

/-- SEC_ATT_CMD REPORT. -/
def execAttReport (tag : BitVec 16) (s : State) : Host.Outcome State Fault Refusal :=
  .next (s.adkWr tag (secAddr 0x160) 1 .operator (fun s => s.attCmd 1))
/-- SEC_ATT_CMD IDKEY. -/
def execAttIdkey (tag : BitVec 16) (s : State) : Host.Outcome State Fault Refusal :=
  .next (s.adkWr tag (secAddr 0x160) 2 .operator (fun s => s.attCmd 2))

end Sys2Proof.Machine
end

