-- ==== Sys2Proof/Machine/Upkeep.lean ====
section
/-! DEFINITION. Scrub windows, self-tests, margins, temperature, the audit and the trouble log's commands (chapter 15). -/

namespace Sys2Proof.Machine

/-- Address of a LOG_ register. -/
def logAddr (off : Nat) : Nat := maddr 1 0 2 off

/-! ### Scrub windows (R352, R334) -/

/-- The patrol's window is due: one pass in PATROL_H hours. -/
def State.patrolDue (s : State) : Bool := s.periodDue 3 && s.inTurn 3 (s.periodAt 3)

/-- SCRUB_WINDOW: what the patrol reads is corrected or poisoned (R351). The one-shot window of a teardown has the work of
TEARDOWN_COMPLETE. -/
def execScrubWindow (hits : List EccHit) (s : State) : Host.Outcome State Fault Refusal :=
  .next (
    if s.alive && s.patrolDue then ({ (s.paid 3) with tim := { (s.paid 3).tim with lastScrub := s.now } }).applyHits hits else s)

/-! ### Self-test (R362, Table 15-6) -/

/-- A pattern runs on an engine. -/
def patternFor (p e : Nat) : Bool :=
  match p with
  | 1 | 2 => e == 0
  | 3 | 4 => e == 1 || e == 2
  | 5 => e == 3
  | _ => true

/-- The next enabled pattern of an engine after pattern `last`. -/
def nextPattern (en : BitVec 7) (last e : Nat) : Option Nat :=
  ((List.range 7).map (fun i => (last + i) % 7 + 1)).find? (fun p => en.getLsbD (p - 1) && patternFor p e)

/-- Core and engine at a place of a cluster's rotation. -/
def rotationAt (cl r : Nat) : Nat × Nat := (8 * cl + r / 4, r % 4)

/-- A cluster tests the engines at the places of a plan one after another; one with commands is skipped, to be tested first at the next
slot. -/
def State.testNext (s : State) (cl : Nat) : List Nat → State
  | [] => { s with log := { s.log with testing := Table.write [] s.log.testing cl [] } }
  | r :: l =>
    let k := (rotationAt cl r).1
    let e := (rotationAt cl r).2
    if !(s.engine k e).queue.isEmpty then
      ({ s with log := { s.log with skipped := Table.write [] s.log.skipped cl (Table.read [] s.log.skipped cl ++ [r]) } }).testNext cl l
    else
      let s := s.onEngine k e (fun (x : Engine) => { x with testing := true })
      { s with log := { s.log with testing := Table.write [] s.log.testing cl (r :: l) } }

/-- A slot of a cluster: `n` engines, those skipped before first, then the next of its rotation. -/
def State.testSlot (s : State) (cl n : Nat) : State :=
  let sk := Table.read [] s.log.skipped cl
  let r := Table.read 0 s.log.rotation cl
  let m := n - sk.length
  let s := { s with log := { s.log with
    skipped := Table.write [] s.log.skipped cl (sk.drop n), rotation := Table.write 0 s.log.rotation cl ((r + m) % 32) } }
  s.testNext cl (sk.take n ++ (List.range m).map (fun i => (r + i) % 32))

/-- The self-test of an engine has ended. -/
def State.testEnd (s : State) (cl r : Nat) (mismatch : Bool) : State :=
  let k := (rotationAt cl r).1
  let e := (rotationAt cl r).2
  let s := s.onEngine k e (fun (x : Engine) => { x with testing := false })
  match nextPattern s.log.patEn (Table.read 0 s.log.pattern cl) e with
  | none => s
  | some p =>
    let s := { s with log := { s.log with pattern := Table.write 0 s.log.pattern cl p } }
    if mismatch then s.suspectEngine 0x0F k e p 3 0xFFFF else s

/-- A cluster of a die that is active and not absent. -/
def State.clusterUp (s : State) (cl : Nat) : Bool := s.coreUp (8 * cl)

/-- Passes still to run on the die of a cluster. -/
def State.passOf (s : State) (cl : Nat) : Nat := Table.read 0 s.log.passLeft (s.lcSite (cl / 4))

/-- SELF_TEST_SLOT: each cluster tests its next engine; on a die with a pass, the next eight (R362). -/
def execSelfTestSlot (s : State) : Host.Outcome State Fault Refusal :=
  .next (
    let due := s.periodDue 5 && s.inTurn 5 (s.periodAt 5)
    if !s.alive || !due then s
    else
      let t := { (s.paid 5) with tim := { (s.paid 5).tim with lastSelf := s.now } }
      let t := (List.range 128).foldl (fun (u : State) cl =>
        if !s.clusterUp cl || !(Table.read [] s.log.testing cl).isEmpty then u
        else if 0 < s.passOf cl then u.testSlot cl 8
        else if s.log.stestEn then u.testSlot cl 1 else u) t
      { t with log := { t.log with passLeft := Table.mapAll 0 (fun _ n => n - 1) t.log.passLeft } })

/-- SELF_TEST_COMPLETE. In the pass of TEST the clusters test every engine in turn without a slot (Table 16-3). -/
def execSelfTestComplete (cluster : BitVec 7) (mismatch : Bool) (s : State) : Host.Outcome State Fault Refusal :=
  .next (
    let cl := cluster.toNat
    if !s.alive then s
    else if let r :: l := Table.read [] s.log.testing cl then (s.testEnd cl r mismatch).testNext cl l
    else if s.mod.state = .test ∧ s.mod.testWork = 0 ∧ s.clusterUp cl = true then
      let r := Table.read 0 s.log.rotation cl
      ({ s with log := { s.log with rotation := Table.write 0 s.log.rotation cl ((r + 1) % 32) } }).testEnd cl r mismatch
    else s)

/-! ### Margins (R360, R419) -/

/-- Default thresholds of a kind (Table 15-4), WARN and FAIL. -/
def marginDefault : Nat → BitVec 16 × BitVec 16
  | 0 | 1 => (0x000F, 0x0008)
  | 2 => (0x0028, 0x0014)
  | 3 => (0x003C, 0x0019)
  | _ => (0xFFB0, 0xFF9C)

/-- Thresholds of a kind. -/
def State.marginTh (s : State) (k : Nat) : BitVec 16 × BitVec 16 := Table.read (marginDefault k) s.log.mth k

/-- The level at which an item returns to NORMAL. -/
def marginBack (warn : Int) (pct : Nat) : Int := warn + (((warn.natAbs * pct + 99) / 100 : Nat) : Int)

/-- The state of an item after a measurement: 0 NORMAL, 1 WARN, 2 FAIL. -/
def marginJudge (warn fail v : Int) (pct was : Nat) : Nat :=
  if v ≤ fail then 2
  else if v ≤ warn then 1
  else if marginBack warn pct ≤ v then 0
  else was

/-- SRC of a margin item (Table 15-10): the lane, the bridge port of the lane, or the die. -/
def State.marginSrc (s : State) (kind idx : Nat) : BitVec 16 :=
  match kind with
  | 0 | 4 => src 0xB idx
  | 1 => srcB (idx / 16)
  | _ => s.dieSrc idx

/-- One measurement: the item's values and state, the entry of a change, and what a FAIL does (Table 15-4). -/
def State.measure (s : State) (m : Measure) : State :=
  let kind := m.kind.toNat
  if 4 < kind then s
  else
    let idx := m.index.toNat
    let th := s.marginTh kind
    let key := 65536 * kind + idx
    let x := Table.read ({} : Margin) s.log.margins key
    let v := m.value.getD th.2
    let n := marginJudge th.1.toInt th.2.toInt v.toInt s.log.hystPct.toNat x.state.toNat
    let y : Margin := { last := v, worst := if x.seen = true ∧ x.worst.toInt ≤ v.toInt then x.worst else v,
                        state := BitVec.ofNat 2 n, seen := true }
    let s := { s with log := { s.log with margins := Table.write {} s.log.margins key y } }
    if n = x.state.toNat then s
    else
      let s := s.logE 0x0C (kind + 16 * n) (s.marginSrc kind idx) (idx + 2 ^ 16 * v.toNat) true
      if n = 2 ∧ (kind = 2 ∨ kind = 3) ∧ isCdSite idx = true then
        { s with log := { s.log with passLeft := Table.write 0 s.log.passLeft idx 4 } }
      else s

/-- MARGIN_SCAN: at its grid, and once in TEST (Table 16-3 step 5). An optical bus that stays held low has OPT_RSTN pulsed for
1 ms (R419). -/
def execMarginScan (items : List Measure) (held : BitVec 32) (s : State) : Host.Outcome State Fault Refusal :=
  .next (
    let due := s.periodDue 6 && s.inTurn 6 (s.periodAt 6)
    if !s.alive || (!due && !(s.mod.state == .test && s.mod.testWork == 1)) then s
    else
      let s := { (s.paid 6) with
        tim := { (s.paid 6).tim with lastMargin := s.now }
        mod := { s.mod with optPulse := if held = 0 then s.mod.optPulse else s.now + msT } }
      items.foldl State.measure s)

/-! ### Temperature (R361, Table 15-5) -/

/-- A die changes its thermal level, with its entry. -/
def State.levelTo (s : State) (x n : Nat) (f : Die → Die) : State :=
  let s := s.onDie x (fun d => f { d with level := BitVec.ofNat 2 n })
  s.logE 0x0D n (s.dieSrc x) x false

/-- A die has reached WARN_C: an event and nothing else, once until it falls below. -/
def State.warnDie (s : State) (x : Nat) (t : Int) : State :=
  let hot := decide (s.log.warnC.toInt ≤ t)
  let was := (s.die x).warned
  let s := s.onDie x (fun d => { d with warned := hot })
  if hot && !was then s.event 0x0D 0 (s.dieSrc x) x else s

/-- THERMAL_SAMPLE. -/
def execThermalSample (site : BitVec 6) (temp : BitVec 8) (vdd : BitVec 16) (s : State) : Host.Outcome State Fault Refusal :=
  .next (
    let x := site.toNat
    let d := s.die x
    if s.mod.state = .off ∨ (d.sampledAt ≠ 0 ∧ s.now < d.sampledAt + 100 * usT) then s
    else
      let t := temp.toInt
      let th := s.log.throttleC.toInt
      let d := { d with
        temp := temp, vdd := vdd, sampledAt := s.now
        maxTemp := if d.sampledAt ≠ 0 ∧ t ≤ d.maxTemp.toInt then d.maxTemp else temp
        hotAt := if th - 5 ≤ t then s.now else d.hotAt
        hotRun := if 105 ≤ t then min 2 (d.hotRun + 1) else 0 }
      let s := s.onDie x (fun _ => d)
      if 2 ≤ d.hotRun then s.enterHalt 0x0D
      else
        let s := s.warnDie x t
        if d.level = 0 ∧ th ≤ t then s.levelTo x 1 (fun d => { d with levelAt := s.now }) else s)

/-- THERMAL_ESCALATE. -/
def execThermalEscalate (site : BitVec 6) (s : State) : Host.Outcome State Fault Refusal :=
  .next (
    let x := site.toNat
    let d := s.die x
    if s.mod.state ≠ .off ∧ d.level = 1 ∧ s.log.throttleC.toInt ≤ d.temp.toInt ∧ d.levelAt + msT ≤ s.now then s.levelTo x 2 id
    else s)

/-- THERMAL_LEVEL_DECAY. -/
def execThermalLevelDecay (site : BitVec 6) (s : State) : Host.Outcome State Fault Refusal :=
  .next (
    let x := site.toNat
    let d := s.die x
    if s.mod.state ≠ .off ∧ 0 < d.level.toNat ∧ d.hotAt + 10 * msT ≤ s.now then
      s.levelTo x (d.level.toNat - 1) (fun d => { d with hotAt := s.now, levelAt := s.now })
    else s)

/-! ### Audit and fences (R368, R369) -/

/-- A unit has been found in disagreement: at the fourth sample in a row it is fenced, with its entry and event. The entry
names both states; which they are the spec leaves to the units, so they are free values. -/
def State.disagrees (s : State) (x : BitVec 4 × BitVec 24) : State :=
  let kind := x.1.toNat
  let idx := x.2.toNat
  let key := 2 ^ 24 * kind + idx
  if kind = 0 ∨ 6 < kind then s
  else
    let n := Table.read 0 s.log.disagree key + 1
    let s := { s with log := { s.log with disagree := Table.write 0 s.log.disagree key n } }
    if n < 4 ∨ s.isFenced kind idx = true then s
    else
      let r := s.draw
      let s := { r.1 with log := { r.1.log with fenced := Table.write false r.1.log.fenced key true } }
      s.logE 0x11 kind (fenceSrc kind idx) (idx + 2 ^ 32 * (Config.freeWord r.2).toNat) true

/-- AUDIT_SAMPLE: the units found in disagreement; every other one agrees. -/
def execAuditSample (disagree : List (BitVec 4 × BitVec 24)) (s : State) : Host.Outcome State Fault Refusal :=
  .next (
    let due := decide (s.log.lastAudit + s.log.auditUs.toNat * usT ≤ s.now)
    if !s.alive || (!due && !(s.mod.state == .test && s.mod.testWork == 1)) then s
    else
      let keys := disagree.map (fun (x : BitVec 4 × BitVec 24) => 2 ^ 24 * x.1.toNat + x.2.toNat)
      let s := { s with log := { s.log with
        lastAudit := s.now
        disagree := s.log.disagree.filter (fun (e : Nat × Nat) => keys.contains e.1) } }
      disagree.eraseDups.foldl State.disagrees s)

/-- A write of LOG_FENCE. -/
def State.logFence (s : State) (v : BitVec 64) : State × BitVec 6 :=
  let kind := s.log.fenceKind.toNat
  let key := 2 ^ 24 * kind + s.log.fenceIdx.toNat
  if v.getLsbD 1 = false then (s, stOk)
  else if 6 < kind ∨ Table.read 0 s.log.disagree key ≠ 0 then (s, stDenied)
  else if s.isFenced kind s.log.fenceIdx.toNat then (s.unfence key, stOk) else (s, stOk)

/-- LOG_UNFENCE. -/
def execLogUnfence (tag : BitVec 16) (s : State) : Host.Outcome State Fault Refusal :=
  .next (s.adkWr tag (logAddr 0xA0) 2 .operator (fun s => s.logFence 2))

/-! ### LOG_CMD (R364) -/

/-- A write of LOG_CMD. -/
def State.logCmd (s : State) (v : BitVec 64) : State × BitVec 6 :=
  (if v.getLsbD 0 then { s with log := { s.log with entries := [] } } else s, stOk)

/-- LOG_CLEAR. -/
def execLogClear (tag : BitVec 16) (s : State) : Host.Outcome State Fault Refusal :=
  .next (s.adkWr tag (logAddr 0x30) 1 .installer (fun s => s.logCmd 1))

end Sys2Proof.Machine
end

