-- ==== Sys2Proof/Machine/TrafficRegs.lean ====
section
/-! DEFINITION. Traffic control from outside: gate lists and their sequencer, shapers, bridles, the rate loop and the
belvederes, with their registers (chapter 12). -/

namespace Sys2Proof.Machine

/-! ### Gate lists (R283 to R287) -/

/-- Longest run of open gate time of a queue in a list, counted around the end of the cycle. -/
def longestOpen (l : List GateEntry) (q : Nat) : Nat :=
  ((List.range l.length).map (fun i => min (cycleOf l) (openRun q (l.drop i ++ l)))).foldl max 0

/-- The pending list of a port may be installed (R284). -/
def State.gateListOk (s : State) (p : Nat) (l : List GateEntry) : Bool :=
  decide (usT ≤ cycleOf l) && decide (cycleOf l ≤ secT) &&
    (List.range 16).all (fun q => l.any (fun e => e.gates.getLsbD q) && decide (64 * s.guardOf p q ≤ longestOpen l q))

/-- A write of PRT_GATE_CTRL: PEND_LAST and PEND_NONE, and the commit (R284). -/
def State.gateCtrl (s : State) (p : Nat) (v : BitVec 64) : State × BitVec 6 :=
  let g := (s.port p).tc.gate
  let w := { g with pendLast := BitVec.ofNat 8 (bits v.toNat 39 32), pendNone := v.getLsbD 5 }
  if g.pending then (s, stDenied)
  else if v.getLsbD 0 then
    if w.pendNone || s.gateListOk p (w.list false) then
      (s.onTc p (fun t => { t with gate := { w with pending := true, commitAt := s.now } }), stOk)
    else (s, stDenied)
  else (s.onTc p (fun t => { t with gate := w }), stOk)

/-- A write of PRT_GATE_BASE. -/
def State.gateBase (s : State) (p : Nat) (v : BitVec 64) : State × BitVec 6 :=
  if (s.port p).tc.gate.pending then (s, stDenied)
  else (s.onTc p (fun t => { t with gate := { t.gate with base := v.toNat } }), stOk)

/-- A write of PRT_GATE_CHG. -/
def State.gateChange (s : State) (p : Nat) (v : BitVec 64) : State × BitVec 6 :=
  if (s.port p).tc.gate.pending then (s, stDenied)
  else (s.onTc p (fun t => { t with gate := { t.gate with change := v.toNat } }), stOk)

/-- A write of PRT_GCL_ENTRY: only to the pending list, and only while no commit awaits activation. -/
def State.gateEntry (s : State) (p : Nat) (v : BitVec 64) : State × BitVec 6 :=
  let g := (s.port p).tc.gate
  let e : GateEntry := { gates := BitVec.ofNat 16 (bits v.toNat 63 48), dur := BitVec.ofNat 28 (bits v.toNat 27 0) }
  if g.pending || g.selList == g.active || e.dur == 0 || decide (0xEE6B280 < e.dur.toNat) then (s, stDenied)
  else (s.onTc p (fun t => { t with gate := { t.gate with
    entries := Table.write {} t.gate.entries (256 * b2n g.selList + g.selIndex.toNat) e } }), stOk)

/-- GATE_COMMIT: a write of PRT_GATE_CTRL with COMMIT set. -/
def execGateCommit (tag : BitVec 16) (port : BitVec 8) (value : BitVec 64) (s : State) : Host.Outcome State Fault Refusal :=
  .next (s.adkWr tag (prtAddr port.toNat 0x130) (value ||| 1) .operator (fun s => s.gateCtrl port.toNat (value ||| 1)))

/-- FT of the activation point that has been reached, if the committed list of a port becomes active now (R284): a cycle
start of the active list, or else of its own grid, at or after CHANGE_FT and in a later slot than the commit. -/
def Gate.activates (g : Gate) (now : FT) : Bool :=
  let after := max g.change ((g.commitAt / 64 + 1) * 64)
  if !g.pending then false
  else if g.installed then
    pointDue g.actBase g.cycle g.lastStart now && decide (after ≤ lastPoint g.actBase g.cycle now)
  else if g.pendNone then decide (after ≤ now)
  else
    let c := cycleOf (g.list false)
    decide (0 < c) && decide (g.base ≤ now) && decide (after ≤ lastPoint g.base c now)

/-- The committed list becomes active; "no list" leaves the port ungated. -/
def Gate.activate (g : Gate) (now : FT) : Gate :=
  if g.pendNone then { g.stop with installed := false, pending := false, lastStart := now }
  else { g with active := !g.active, actLast := g.pendLast, actBase := g.base, installed := true, run := true,
                pending := false, lastStart := now }

/-- GATE_CYCLE_START: a cycle of the active list begins, or the committed list becomes active, or a list that FT had stopped
starts again (R283, R284, R287). -/
def execGateCycleStart (port : BitVec 8) (s : State) : Host.Outcome State Fault Refusal :=
  let p := port.toNat
  let g := (s.port p).tc.gate
  .next (
    if !s.gatesRun then s
    else if g.activates s.now then (s.onTc p (fun t => { t with gate := t.gate.activate s.now })).sequence p
    else if g.installed && pointDue g.actBase g.cycle g.lastStart s.now then
      (s.onTc p (fun t => { t with gate := { t.gate with run := true, lastStart := s.now } })).sequence p
    else s)

/-- GATE_ENTRY_ADVANCE: the entry in effect has lasted its DUR (R283). -/
def execGateEntryAdvance (port : BitVec 8) (s : State) : Host.Outcome State Fault Refusal :=
  let g := (s.port port.toNat).tc.gate
  .next (if s.gatesRun && g.run && decide (g.curEnd ≤ s.dieFt (portSite port.toNat)) then s.sequence port.toNat else s)

/-! ### Shapers (R288) -/

/-- The fields of a shaper register; none where one is outside its range. -/
def shaperOf (v : BitVec 64) : Option Shaper :=
  let burst := bits v.toNat 50 32
  let rate := bits v.toNat 19 0
  if 0x41 ≤ burst ∧ burst ≤ 0x40000 ∧ 1 ≤ rate ∧ rate ≤ 0xCF850 then
    some { en := v.getLsbD 63, rstZero := v.getLsbD 62, burst := BitVec.ofNat 19 burst, rate := BitVec.ofNat 20 rate }
  else none

/-- A write of PRT_PSHAPE. -/
def State.prtShape (s : State) (p : Nat) (v : BitVec 64) : State × BitVec 6 :=
  match shaperOf v with
  | some x => (s.onTc p (fun t => { t with shape := x.fresh s.now }), stOk)
  | none => (s, stDenied)

/-- PRT_PSHAPE_WRITE. -/
def execPrtPshapeWrite (tag : BitVec 16) (port : BitVec 8) (value : BitVec 64) (s : State) : Host.Outcome State Fault Refusal :=
  .next (s.adkWr tag (prtAddr port.toNat 0x120) value .operator (fun s => s.prtShape port.toNat value))

/-- Management address of a register of a queue. -/
def queAddr (p q off : Nat) : Nat := maddr 3 p 2 (0x100 * q + off)

/-- A write of QUE_SHAPE. -/
def State.queShape (s : State) (p q : Nat) (v : BitVec 64) : State × BitVec 6 :=
  match shaperOf v with
  | some x => (s.onQueue p q (fun y => { y with shape := x.fresh s.now }), stOk)
  | none => (s, stDenied)

/-- QUE_SHAPE_WRITE. -/
def execQueShapeWrite (tag : BitVec 16) (port : BitVec 8) (queue : BitVec 4) (value : BitVec 64) (s : State) :
    Host.Outcome State Fault Refusal :=
  .next (s.adkWr tag (queAddr port.toNat queue.toNat 0x08) value .operator (fun s => s.queShape port.toNat queue.toNat value))

/-- A write of QUE_CFG. -/
def State.queCfg (s : State) (p q : Nat) (v : BitVec 64) : State × BitVec 6 :=
  let n := v.toNat
  if bits n 63 52 = 0 then (s, stDenied)
  else (s.onQueue p q (fun y => { y with
    quantum := BitVec.ofNat 12 (bits n 63 52), ew := BitVec.ofNat 4 (bits n 51 48), thrR := BitVec.ofNat 12 (bits n 47 36)
    thrY := BitVec.ofNat 12 (bits n 35 24), thrG := BitVec.ofNat 12 (bits n 23 12), ceEn := bit n 0 }), stOk)

/-! ### Bridles (R290, R291) -/

/-- A write of PRT_BRIDLE: DENIED where the span of bridles that it selects passes the last (R298). -/
def State.prtBridle (s : State) (p : Nat) (v : BitVec 64) : State × BitVec 6 :=
  let sel := bits v.toNat 14 13
  let base := bits v.toNat 8 0
  let span := match sel with | 0 => 1 | 3 => 64 | _ => 8
  if 512 < base + span then (s, stDenied)
  else (s.onTc p (fun t => { t with brdEn := v.getLsbD 15, brdMode := BitVec.ofNat 2 sel, brdBase := BitVec.ofNat 9 base }), stOk)

/-- Bridle that the bridle registers of a port address: of the port's die. -/
def State.brdIndex (s : State) (p : Nat) : Nat := 512 * (p / 16) + (s.port (p / 16 * 16)).tc.brdSel.toNat

/-- The buckets of a bridle are full after a write (R291). -/
def Bridle.full (x : Bridle) (now : FT) : Bridle :=
  { x with tc := x.cbs.toNat * 65536, tp := x.pbs.toNat * 65536, since := now }

/-- A write of PRT_BRD_CFG. -/
def State.brdCfg (s : State) (p : Nat) (v : BitVec 64) : State × BitVec 6 :=
  let cir := bits v.toNat 63 44
  let pir := bits v.toNat 43 24
  if p % 16 ≠ 0 ∨ cir = 0 ∨ pir < cir ∨ 0xCF850 < pir then (s, stDenied)
  else (s.onBridle (s.brdIndex p) (fun x => ({ x with
    cir := BitVec.ofNat 20 cir, pir := BitVec.ofNat 20 pir, redDrop := v.getLsbD 1, aware := v.getLsbD 0 }).full s.now), stOk)

/-- A write of PRT_BRD_BURST. -/
def State.brdBurst (s : State) (p : Nat) (v : BitVec 64) : State × BitVec 6 :=
  let pbs := bits v.toNat 63 32
  let cbs := bits v.toNat 31 0
  if p % 16 ≠ 0 ∨ pbs < 0x1029 ∨ 0x1000000 < pbs ∨ cbs < 0x1029 ∨ 0x1000000 < cbs then (s, stDenied)
  else (s.onBridle (s.brdIndex p) (fun x => ({ x with
    pbs := BitVec.ofNat 32 pbs, cbs := BitVec.ofNat 32 cbs }).full s.now), stOk)

/-- A write of PRT_BRD_SEL. -/
def State.brdSelect (s : State) (p : Nat) (v : BitVec 64) : State × BitVec 6 :=
  if p % 16 ≠ 0 then (s, stDenied) else (s.onTc p (fun t => { t with brdSel := BitVec.ofNat 9 (bits v.toNat 8 0) }), stOk)

/-- PRT_BRD_WRITE: PRT_BRD_CFG, or PRT_BRD_BURST. -/
def execPrtBrdWrite (tag : BitVec 16) (port : BitVec 8) (burst : Bool) (value : BitVec 64) (s : State) :
    Host.Outcome State Fault Refusal :=
  .next (s.adkWr tag (prtAddr port.toNat (if burst then 0x188 else 0x180)) value .operator
    (fun s => if burst then s.brdBurst port.toNat value else s.brdCfg port.toNat value))

/-! ### The origin rate loop (R294, R295) -/

/-- RATE_LOOP_INCREASE: AI_US have passed without CE_ECHO. -/
def execRateLoopIncrease (port : BitVec 8) (s : State) : Host.Outcome State Fault Refusal :=
  let p := port.toNat
  let t := (s.port p).tc
  let cls := (s.link p).cls
  .next (
    if !s.alive || (cls != 1 && cls != 2) || decide (s.now < t.rlIncAt + t.rlUs.toNat * usT) then s
    else
      let r := min (t.rlRate.toNat + t.rlAi.toNat) t.rlMax.toNat
      let s := s.onTc p (fun t => { t with rlTokens := t.rateTokens s.now, rlSince := s.now, rlIncAt := s.now, rlRate := BitVec.ofNat 20 r })
      if r = t.rlMax.toNat ∧ t.rlRate ≠ t.rlMax then s.rateHeld p else s)

/-- A write of PRT_RLOOP: RATE is brought within the new bounds. -/
def State.prtRloop (s : State) (p : Nat) (v : BitVec 64) : State × BitVec 6 :=
  let n := v.toNat
  let hi := bits n 63 44
  let lo := bits n 43 24
  if lo = 0 ∨ hi < lo ∨ 0xCF850 < hi ∨ bits n 23 20 = 0 ∨ 8 < bits n 23 20 ∨ bits n 19 8 = 0 ∨ bits n 7 0 = 0 then (s, stDenied)
  else (s.onTc p (fun t => { t with
    rlMax := BitVec.ofNat 20 hi, rlMin := BitVec.ofNat 20 lo, rlMd := BitVec.ofNat 4 (bits n 23 20)
    rlAi := BitVec.ofNat 12 (bits n 19 8), rlUs := BitVec.ofNat 8 (bits n 7 0), rlTokens := t.rateTokens s.now, rlSince := s.now
    rlRate := BitVec.ofNat 20 (min hi (max lo t.rlRate.toNat)) }), stOk)

/-! ### Belvederes (R296, R297) -/

/-- The histogram bin of a value in units of `u`. -/
def histBin (u v : Nat) : Nat := if v < u then 0 else min 15 (Nat.log2 (v / u) + 1)

/-- A value of 32 bits that saturates. -/
def sat32 (v : Nat) : BitVec 32 := BitVec.ofNat 32 (min v 0xFFFFFFFF)

/-- Count one value in a histogram. -/
def histAdd (t : Table (BitVec 32)) (i : Nat) : Table (BitVec 32) := Table.write 0 t i (Table.read 0 t i + 1)

/-- A belvedere after a sample of a depth in bytes and a sojourn in nanoseconds, with the flags that the sample sets. -/
def BelData.sample (x : BelData) (depth soj : Nat) (fl : BitVec 4) : BelData :=
  { samples := x.samples + 1, flags := (x.flags &&& 7) ||| fl
    dmax := if x.dmax.toNat < depth then sat32 depth else x.dmax
    dmin := if depth < x.dmin.toNat then sat32 depth else x.dmin
    smax := if x.smax.toNat < soj then sat32 soj else x.smax
    smin := if soj < x.smin.toNat then sat32 soj else x.smin
    dhist := histAdd x.dhist (histBin 64 depth), shist := histAdd x.shist (histBin 8 soj) }

/-- Sojourn of the oldest frame of a queue in nanoseconds, clamped at 0. -/
def Queue.sojourn (q : Queue) (now : FT) : Nat :=
  match q.all with
  | [] => 0
  | x :: l => (now - (l.foldl (fun (m : QFrame) y => if y.order < m.order then y else m) x).since) / 16

/-- BELVEDERE_SAMPLE (R296): STEPPED where FT has been corrected since the last sample. -/
def execBelvedereSample (port : BitVec 8) (queue : BitVec 4) (s : State) : Host.Outcome State Fault Refusal :=
  let p := port.toNat
  let q := queue.toNat
  let x := s.queue p q
  .next (
    if !s.alive || !(x.belOwed || gridDue (x.belUs.toNat * usT) x.belAt s.now)
        || !s.inTurn 7 (if x.belOwed then s.now else s.now / (x.belUs.toNat * usT) * (x.belUs.toNat * usT)) then s
    else
      let fl : BitVec 4 := (if s.tim.state = .unset then 4 else 0) ||| (if s.tim.state = .lost then 2 else 0)
        ||| (if !x.bel.flags.getLsbD 3 && x.belSeen != s.tim.corrections then 1 else 0)
      s.onQueue p q (fun y => { y with
        bel := y.bel.sample y.depth (y.sojourn s.now) fl, belAt := s.now, belOwed := false, belSeen := s.tim.corrections }))

/-- A write of QUE_BEL_CFG: the period, CLEAR and SNAP. A sample that is due in this slot is still taken (R48). -/
def State.belCfg (s : State) (p q : Nat) (v : BitVec 64) : State × BitVec 6 :=
  let us := bits v.toNat 19 0
  if 0xF4240 < us then (s, stDenied)
  else
    let s := s.onQueue p q (fun y =>
      if y.belUs.toNat = us then y
      else { y with belUs := BitVec.ofNat 20 us, belAt := s.now, belOwed := y.belOwed || gridDue (y.belUs.toNat * usT) y.belAt s.now })
    let s := if v.getLsbD 31 then s.onQueue p q (fun y => { y with bel := {}, belCopy := {} }) else s
    (if v.getLsbD 30 then s.onQueue p q (fun y => { y with belCopy := y.bel }) else s, stOk)

/-- BELVEDERE_CLEAR. -/
def execBelvedereClear (tag : BitVec 16) (port : BitVec 8) (queue : BitVec 4) (value : BitVec 64) (s : State) :
    Host.Outcome State Fault Refusal :=
  let v := value ||| (1 <<< 31)
  .next (s.adkWr tag (queAddr port.toNat queue.toNat 0x18) v .operator (fun s => s.belCfg port.toNat queue.toNat v))

/-- BELVEDERE_SNAP. -/
def execBelvedereSnap (tag : BitVec 16) (port : BitVec 8) (queue : BitVec 4) (value : BitVec 64) (s : State) :
    Host.Outcome State Fault Refusal :=
  let v := value ||| (1 <<< 30)
  .next (s.adkWr tag (queAddr port.toNat queue.toNat 0x18) v .operator (fun s => s.belCfg port.toNat queue.toNat v))

end Sys2Proof.Machine
end

