-- ==== Sys2Proof/Machine/Composition.lean ====
section
/-! DEFINITION. Images: their form, the checks that VALIDATE makes but for the judgement of POLICY records, and the commands
of CMPO_CMD (R299 to R311). -/

namespace Sys2Proof.Machine

/-! ### The staged image (R299, R300, R306) -/

/-- `n` bytes of the staged image as a number. -/
def State.img (s : State) (a n : Nat) : Nat := leNat (s.comp.staged.bytes a n)

/-- Bytes staged: every word of the area written at least once counts 8. -/
def State.stagedBytes (s : State) : Nat := 8 * s.comp.imgWritten.length

/-- A directory entry (Table 13-2). -/
structure DirRow where
  ty : Nat
  inst : Nat
  off : Nat
  len : Nat
  deriving DecidableEq, Repr

/-- Directory entries of the staged image, as many as it can hold. -/
def State.imgDir (s : State) : List DirRow :=
  (List.range (min 8192 (s.img 16 4))).map (fun i =>
    let o := 128 + 32 * i
    { ty := s.img o 2, inst := s.img (o + 2) 2, off := s.img (o + 8) 8, len := s.img (o + 16) 8 })

/-- The section of a directory entry. -/
def State.imgSection (s : State) (d : DirRow) : Section :=
  { ty := d.ty, inst := d.inst, len := d.len
    cells := (s.comp.staged.filter (fun e => decide (d.off ≤ e.1) && decide (e.1 < d.off + d.len))).map (fun e => (e.1 - d.off, e.2)) }

/-- The staged image is a delta. -/
def State.imgDelta (s : State) : Bool := s.img 6 1 == 2

/-- The composition that the staged image gives: its sections, and in a delta the running ones that it does not name (R310). -/
def State.candidate (s : State) : List Section :=
  let d := s.imgDir
  let kept := if s.imgDelta then s.comp.run.filter (fun x => !d.any (fun e => e.ty == x.ty && e.inst == x.inst)) else []
  kept ++ (d.filter (fun e => !s.imgDelta || e.len != 0)).map s.imgSection

/-- The digest in the header of the staged image. -/
def State.imgDigest (s : State) : BitVec 256 := BitVec.ofNat 256 (s.img 32 32)

/-! ### Checks of Table 13-6 -/

/-- No section. -/
def noSect : Nat := 0x3FFF

/-- Directory index of a section, or none where only the running composition has it. -/
def State.sectIndex (s : State) (ty inst : Nat) : Nat :=
  (s.imgDir.findIdx? (fun e => e.ty == ty && e.inst == inst)).getD noSect

/-- Every byte of a range is zero. -/
def Section.zero (x : Section) (off n : Nat) : Bool := leNat (x.cells.bytes off n) == 0

/-- Check 0x01: the header. -/
def State.headerOk (s : State) : Bool :=
  s.img 0 4 == 0x4E4F4146 && s.img 4 2 == 1 && (s.img 6 1 == 1 || s.img 6 1 == 2) && decide (s.img 7 1 < 32)
    && s.img 20 4 == 0 && s.img 96 32 == 0 && (s.imgDelta || s.img 64 32 == 0)

/-- Instances that a section type has (Table 13-3). -/
def instances : Nat → Nat
  | 5 | 6 => 64
  | 7 | 9 => 256
  | 11 => 65536
  | _ => 1

/-- Check 0x04: the directory; the first entry that breaks R300, or a required type that is missing. -/
def State.dirError (s : State) : Option Nat :=
  let n := s.img 16 4
  let d := s.imgDir
  let endAt := 128 + 32 * n
  if n = 0 ∨ 8192 < n ∨ s.img 8 8 < endAt then some noSect
  else
    let bad := (List.range n).find? (fun i =>
      let o := 128 + 32 * i
      let e := d.getD i ⟨0, 0, 0, 0⟩
      s.img (o + 4) 4 != 0 || s.img (o + 24) 8 != 0 || e.ty == 0 || decide (13 < e.ty) || decide (instances e.ty ≤ e.inst)
        || e.off % 64 != 0 || decide (e.off < endAt) || decide (s.img 8 8 < e.off + e.len)
        || (d.take i).any (fun f => (f.ty == e.ty && f.inst == e.inst)
            || (e.len != 0 && f.len != 0 && decide (f.off < e.off + e.len) && decide (e.off < f.off + f.len))))
    match bad with
    | some i => some i
    | none => ([1, 2, 3, 4, 8, 10, 12].find? (fun t => (sect s.candidate t 0).isNone)).map (0x2000 + ·)

/-- A record of an UNIT_TABLE section. -/
def unitRecordOk (c : List Section) (r : Nat) : Bool :=
  let k := r / 2 ^ 14
  let target := r % 256
  r / 2 ^ 12 % 4 == 0 && (k == 0 || k == 3 || r / 256 % 16 == 0)
    && (!(k == 2 || k == 3) || target % portBundle c target == 0)

/-- A PROGRAM section has the layout of Table 13-5. -/
def programOk (x : Section) : Bool :=
  let nc := progNat x 0 2
  let nt := progNat x 2 2
  decide (1 ≤ nc) && decide (nc ≤ 1024) && decide (1 ≤ nt) && decide (nt ≤ 64 * nc)
    && progTextAddr x % 8 == 0 && progTextLen x % 8 == 0 && progNat x 20 4 == 2420 && x.zero 24 8 && x.zero 64 32
    && (progCores x).all (fun k => decide (k < 1024)) && x.zero (96 + 2 * nc) (progThreadsAt x - (96 + 2 * nc))
    && (List.range nt).all (fun i =>
        let o := progThreadsAt x + 264 * i
        decide (progNat x o 2 < nc) && decide (progNat x (o + 2) 1 < 64) && x.zero (o + 3) 1 && x.zero (o + 256) 8)
    && x.zero (progTextAt x + progTextLen x) (progDataAt x - (progTextAt x + progTextLen x))
    && x.zero (progDataAt x + progDataLen x) (progSigAt x - (progDataAt x + progDataLen x))
    && x.len == progSigAt x + 2420

/-- Length and records of a section (check 0x08). -/
def sectionOk (c : List Section) (x : Section) : Bool :=
  let b := fun (o n : Nat) => leNat (x.cells.bytes o n)
  match x.ty with
  | 1 => x.len == 4
  | 2 => x.len == 512
  | 3 => x.len == 64 && (List.range 32).all (fun m =>
      decide (b (2 * m) 2 < 2 ^ 15) || (portClass c (b (2 * m) 1) == 2 && b (2 * m) 1 % portBundle c (b (2 * m) 1) == 0))
  | 4 => x.len == 131072 && (List.range 65536).all (fun u => unitRecordOk c (b (2 * u) 2))
  | 5 => x.len == 1456 && x.zero 3 13 && (decide (b 2 1 < 64) || b 2 1 == 0xFF)
  | 6 => decide (2 ≤ x.len) && decide (x.len ≤ 512) && x.len % 2 == 0 && (List.range (x.len / 2)).all (fun i => decide (b (2 * i) 2 < 2048))
  | 7 => x.len == 40 && decide (b 0 1 ≤ 3) && [1, 2, 4, 8].contains (b 1 1) && x.zero 2 6
  | 8 => x.len == 1024
  | 9 => x.len == 16 + 8 * (b 8 1 + 1) && x.zero 9 7 && (List.range (b 8 1 + 1)).all (fun i =>
      let r := b (16 + 8 * i) 8
      bits r 47 28 == 0 && decide (1 ≤ bits r 27 0) && decide (bits r 27 0 ≤ 0xEE6B280))
  | 10 => x.len == 4096 && (List.range 1024).all (fun k => decide (b (4 * k) 1 ≤ 2) && decide (b (4 * k + 1) 2 < 1024) && b (4 * k + 3) 1 == 0)
  | 11 => programOk x
  | 12 => x.len == 1024
  | _ => x.len % 16 == 0

/-- Check 0x09: a pavilion whose parents do not end at a root that is defined (R32). -/
def treeBad (c : List Section) (pv : Nat) : Bool :=
  let up := ancestors c 65 pv
  decide (64 < up.length) || up.any (fun q => !pvDefined c q)

/-- Check 0x0A: a member that another pavilion of a lower number has too (R31). A bundle is one unit. -/
def sharesMember (c : List Section) (pv : Nat) : Bool :=
  let lower := (List.range pv).filter (pvDefined c)
  lower.any (fun q =>
    (List.range 256).any (fun p => pvHasPort c pv p && (List.range (portBundle c p)).any (fun i => pvHasPort c q (p / portBundle c p * portBundle c p + i)))
      || (List.range 1024).any (fun k => pvHasCore c pv k && pvHasCore c q k)
      || (List.range 8192).any (fun n => pvHasPlot c pv n && pvHasPlot c q n)
      || (List.range 2048).any (fun n => pvHasShare c pv n && pvHasShare c q n))

/-- Check 0x0B: a reserved, slot or fenced plot of a pavilion (R149, Table 15-12). -/
def State.plotBad (s : State) (c : List Section) (pv : Nat) : Bool :=
  (List.range 8192).any (fun n => pvHasPlot c pv n &&
    (decide (n % 256 < 3) || slotPlot c n || (s.isFenced 4 n && !(s.imgDelta && pvHasPlot s.comp.run pv n))))

/-- Check 0x0C: unit-table records against pavilions and ports. -/
def unitsOk (c : List Section) : Bool :=
  (List.range 65536).all (fun u => match unitOf c (BitVec.ofNat 16 u) with
    | .pavilion pv => pvDefined c pv
    | .port p => decide (portClass c p < 2)
    | .away p _ => portClass c p == 2
    | .invalid => true)

/-- Check 0x0D: a port's bundle (R52). -/
def bundleBad (c : List Section) (p : Nat) : Bool :=
  let n := portBundle c p
  (List.range n).any (fun i =>
    let q := p / n * n + i
    (sect c 7 q).isNone || portBundle c q != n || portClass c q != portClass c p)

/-- Check 0x0E: an INTERLEAVE section names only shares of its own pavilion (R303). -/
def interleaveBad (c : List Section) (pv : Nat) : Bool := (interleave c pv).any (fun n => !pvHasShare c pv n)

/-- Extents that are neither ABSENT nor FREE. -/
def State.heldExtents (s : State) : List (Nat × Extent) := s.ext.tab.filter (fun e => e.2.state != .absent && e.2.state != .free)

/-- Check 0x0F: a delta moves a block of a COHERENT extent, or changes the INTERLEAVE section that homes one, while its domain
is not OFF or DOWN. -/
def State.cohMoves (s : State) (c : List Section) : Bool :=
  s.heldExtents.any (fun e => e.2.coherent && (s.dom e.2.dom.toNat).state != .off && (s.dom e.2.dom.toNat).state != .down
    && (homingPv c e.2.pv.toNat != homingPv s.comp.run e.2.pv.toNat
      || homeTable c e.2.pv.toNat != homeTable s.comp.run e.2.pv.toNat))

/-- Check 0x10: every held extent keeps its pavilion and an INTERLEAVE section. -/
def State.extentsHomed (s : State) (c : List Section) : Bool :=
  s.heldExtents.all (fun e => pvDefined c e.2.pv.toNat && !(homeTable c e.2.pv.toNat).isEmpty)

/-- A pavilion of an admission record that a delta deletes. -/
def State.deletedPv (s : State) : Option Nat :=
  s.imgDir.findIdx? (fun d => d.ty == 5 && d.len == 0 && s.admitted.any (fun r => r.2.pv.toNat == d.inst))

/-- Check 0x11: plots and cores against the reservations (R146, R147). -/
def State.reservationsOk (s : State) (c : List Section) : Bool :=
  let t := { s with comp := { s.comp with run := c } }
  s.admitted.all (fun r => decide ((t.recUse r.1).plots ≤ r.2.resv.plots) && decide ((t.recUse r.1).cores ≤ r.2.resv.cores))

/-- A program section names a core. -/
def namesCore (x : Section) (k : Nat) : Bool := (progCores x).contains k

/-- The CORE record of a core, or a PROGRAM section that names it, differs between two compositions. -/
def coreChanged (a b : List Section) (k : Nat) : Bool :=
  sectNat a 10 0 (4 * k) 4 != sectNat b 10 0 (4 * k) 4
    || (programs a).filter (namesCore · k) != (programs b).filter (namesCore · k)

/-- Text and data ranges of a program. -/
def progRanges (x : Section) : List (Nat × Nat) :=
  [(progTextAddr x, progTextLen x), (progDataAddr x, progDataLen x)].filter (fun r => r.2 != 0)

/-- A range lies in the part of cluster memory that is open to the programs of a cluster (Table 09-4, R305). -/
def rangeOpen (c : List Section) (cl : Nat) (r : Nat × Nat) : Bool :=
  decide (0x01000000 ≤ r.1) && decide (r.1 + r.2 ≤ 0x01FC0000) && !serviceCluster c cl

/-- Two ranges of a list overlap. -/
def clash : List (Nat × Nat) → Bool
  | [] => false
  | r :: l => l.any (fun x => decide (x.1 < r.1 + r.2) && decide (r.1 < x.1 + x.2)) || clash l

/-- Check 0x12 on one program (R223, R304, R305). -/
def programBad (c : List Section) (x : Section) : Bool :=
  (progCores x).any (fun k => coreKind c k != 1)
    || (progRanges x).any (fun r => (progCores x).any (fun k => !rangeOpen c (clusterOf k) r))
    || (progThreads x).any (fun t => decide (t.pc < progTextAddr x) || decide (progTextAddr x + progTextLen x ≤ t.pc))
    || (progThreads x).any (fun t => decide (1 < ((programs c).map (fun y => ((progThreads y).filter (fun u => u.core == t.core && u.tid == t.tid)).length)).sum))

/-- Check 0x12: cores with work on an unused, absent or fenced die or core, and programs; the section at fault. -/
def State.coreError (s : State) (c : List Section) : Option Nat :=
  let bad := (List.range 1024).any (fun k => coreKind c k != 0 &&
    (!sectBit c 1 0 (lcOf k) || s.pkg.absent.getLsbD (lcOf k)
      || (s.isFenced 3 k && (!s.imgDelta || coreChanged s.comp.run c k))))
  if bad then some (s.sectIndex 10 0)
  else match (programs c).find? (programBad c) with
    | some x => some (s.sectIndex 11 x.inst)
    | none =>
      let cl := (List.range 128).find? (fun cl =>
        clash (((programs c).filter (fun x => (progCores x).any (fun k => clusterOf k == cl))).flatMap progRanges))
      cl.map (fun cl => match (programs c).find? (fun x => (progCores x).any (fun k => clusterOf k == cl)) with
        | some x => s.sectIndex 11 x.inst
        | none => noSect)

/-- Check 0x13: the signature of a program, under the key of the tenant of each of its cores (R304, R346). -/
def State.signedOk (s : State) (c : List Section) (x : Section) : Bool :=
  let n := progSigAt x
  (progCores x).all (fun k => match (s.tenant (coreTenant c k)).pkey with
    | some key => Config.verifies key (sha3 (x.cells.bytes 0 n)) (x.cells.bytes n 2420)
    | none => false)

/-- A check that fails with a code and a section. -/
def failsIf (b : Bool) (err sec : Nat) : Option (Nat × Nat) := if b then some (err, sec) else none

/-- A check over instances that fails with the section of the first at fault. -/
def State.failsAt (s : State) (err ty : Nat) (l : List Nat) (bad : Nat → Bool) : Option (Nat × Nat) :=
  (l.find? bad).map (fun i => (err, s.sectIndex ty i))

/-- Checks of the header and directory, 0x01 to 0x06. -/
def State.imgChecksA (s : State) : List (Option (Nat × Nat)) :=
  [failsIf (!s.headerOk) 0x01 noSect,
   failsIf (s.img 8 8 != s.stagedBytes) 0x02 noSect,
   failsIf (s.img 32 32 != leNat (sha3 (s.comp.staged.bytes 64 (s.img 8 8 - 64)))) 0x03 noSect,
   s.dirError.map (fun i => (0x04, i)),
   failsIf (s.imgDelta && s.img 64 32 != s.comp.digest.toNat) 0x05 noSect,
   failsIf (s.imgDelta && s.img 7 1 != s.moduleNo) 0x06 noSect]

/-- Checks of the composition that it would give, 0x07 to 0x0E. -/
def State.imgChecksB (s : State) (c : List Section) : List (Option (Nat × Nat)) :=
  let pvs := (List.range 64).filter (pvDefined c)
  [failsIf (sectNat c 1 0 0 4 &&& s.pkg.absent.toNat != 0) 0x07 (s.sectIndex 1 0),
   (c.find? (fun x => !sectionOk c x)).map (fun x => (0x08, s.sectIndex x.ty x.inst)),
   s.failsAt 0x09 5 pvs (treeBad c),
   s.failsAt 0x0A 5 pvs (sharesMember c),
   s.failsAt 0x0B 5 pvs (s.plotBad c),
   failsIf (!unitsOk c) 0x0C (s.sectIndex 4 0),
   s.failsAt 0x0D 7 ((List.range 256).filter (fun p => (sect c 7 p).isSome)) (bundleBad c),
   s.failsAt 0x0E 6 ((List.range 64).filter (fun pv => (sect c 6 pv).isSome)) (interleaveBad c)]

/-- Checks against what the module holds, 0x0F to 0x15; `policyOk` judges the POLICY records (R427). -/
def State.imgChecksC (s : State) (c : List Section) (policyOk : Bool) : List (Option (Nat × Nat)) :=
  [failsIf (s.imgDelta && s.cohMoves c) 0x0F noSect,
   failsIf (!s.extentsHomed c) 0x10 noSect,
   (if s.imgDelta then s.deletedPv else none).map (fun i => (0x10, i)),
   failsIf (!s.reservationsOk c) 0x11 noSect,
   (s.coreError c).map (fun i => (0x12, i)),
   ((programs c).find? (fun x => !s.signedOk c x)).map (fun x => (0x13, s.sectIndex 11 x.inst)),
   failsIf (!policyOk) 0x14 (s.sectIndex 13 0),
   if s.imgDelta then (s.imgDir.findIdx? (fun d => d.ty == 1 || d.ty == 2)).map (fun i => (0x15, i)) else none]

/-- Records of the POLICY section of a composition: address and value (Table 13-3). -/
def policyRecords (c : List Section) : List (Nat × BitVec 64) :=
  match sect c 13 0 with
  | some x => (List.range (x.len / 16)).map (fun i => (leNat (x.cells.bytes (16 * i) 8), BitVec.ofNat 64 (leNat (x.cells.bytes (16 * i + 8) 8))))
  | none => []

/-- The records that the staged image itself carries, which its application writes. -/
def State.imgPolicy (s : State) : List (Nat × BitVec 64) :=
  if s.imgDir.any (fun d => d.ty == 13 && d.len != 0) then policyRecords s.candidate else []

/-- The first check that the staged image fails, as ERR and ERR_SECT (R307). -/
def State.imgError (s : State) (policyOk : Bool) : Option (Nat × Nat) :=
  (s.imgChecksA.findSome? id).or (((s.imgChecksB s.candidate).findSome? id).or ((s.imgChecksC s.candidate policyOk).findSome? id))

/-! ### Commands (R306, R309, R311, R317) -/

/-- ERR and ERR_SECT. -/
def State.imgErr (s : State) (err sec : Nat) : State :=
  { s with comp := { s.comp with err := BitVec.ofNat 5 err, errSect := BitVec.ofNat 14 sec } }

/-- A command that is refused (check 0x16). -/
def State.imgRefuse (s : State) : State × BitVec 6 := (s.imgErr 0x16 noSect, stDenied)

/-- The staging area is EMPTY, and ERR is clear. -/
def State.imgEmpty (s : State) : State :=
  let s := s.imgErr 0 0
  { s with comp := { s.comp with stage := .empty, staged := [], imgWritten := [], validating := false } }

/-- A LOAD or an APPLY of the staged image is in progress. -/
def State.imgBusy (s : State) : Bool :=
  s.comp.loading || s.comp.state == .preparing || (s.comp.state == .window && !s.comp.byNote)

/-- Collectives whose binding a delta affects: the kind of the owning cluster, or its slot region, changes (R250, R311). -/
def collChanged (a b : List Section) (c : Coll) : Bool :=
  c.enable && (serviceCluster a c.cluster.toNat != serviceCluster b c.cluster.toNat
    || (c.slotMem && (List.range 8192).any (fun n => slotPlot a n != slotPlot b n)))

/-- What ATN_PV_SEL and ATN_PV_CFG show once a list of POLICY records has been written (R427). -/
def runsAfter (sel : Nat) (pvs : Table AtnPv) : List (Nat × BitVec 64) → Table AtnPv
  | [] => pvs
  | r :: rs =>
    if r.1 = atnAddr 0 then runsAfter (r.2.toNat % 64) pvs rs
    else if r.1 = atnAddr 8 then runsAfter sel (Table.write {} pvs sel (AtnPv.ofNat r.2.toNat)) rs
    else runsAfter sel pvs rs

/-- A handle block lies in the run of enabled settings. -/
def AtnPv.holds (x : AtnPv) (cl : Nat) : Bool := x.enable && decide (x.first.toNat ≤ cl) && decide (cl < x.first.toNat + x.n.toNat)

/-- The settings that a pavilion has now and will have after the delta's POLICY records. -/
def State.runNow (s : State) (pv : Nat) : AtnPv := Table.read {} s.atn.pvs pv
def State.runThen (s : State) (pv : Nat) : AtnPv := Table.read {} (runsAfter s.atn.pvSel.toNat s.atn.pvs s.imgPolicy) pv

/-- Handle blocks, by cluster, whose coordinating cluster changes its kind, or that leave their pavilion's run, by a POLICY record or
because the pavilion is deleted (Table 11-6). -/
def State.blocksChanged (s : State) (a b : List Section) (cl : Nat) : Bool :=
  serviceCluster a cl != serviceCluster b cl
    || (match s.handlePv (2048 * cl) with
        | some pv => (pvDefined a pv && !pvDefined b pv) || !(s.runThen pv).holds cl
        | none => false)

/-- The delta ends the decodes of a handle: its block changes, its pavilion's run changes, or a SERVICE core of the pavilion's subtree,
each of which counts as running a split (log 124), changes its kind (Table 11-6). -/
def State.decodeChanged (s : State) (a b : List Section) (h : Nat) : Bool :=
  s.blocksChanged a b (h / 2048)
    || (match s.handlePv h with
        | some pv =>
          let x := s.runNow pv
          let y := s.runThen pv
          x.enable != y.enable || x.first != y.first || x.n != y.n
            || (List.range 1024).any (fun k => coreUnder a pv k && coreKind a k == 2 && coreKind b k != 2)
        | none => false)

/-- Pages whose tier agent, the home of their first block, changes. -/
def State.agentMoves (s : State) (a b : List Section) (page : Nat) : Bool :=
  let pv := (s.pageExtent page).pv.toNat
  homeSlice a pv (1024 * page) != homeSlice b pv (1024 * page)

/-- Moves of pages whose tier agent changes are aborted (R167). -/
def State.abortAgentMoves (s : State) (a b : List Section) : State :=
  (s.tier.moves.map (·.page)).foldl (fun (s : State) pg => if s.agentMoves a b pg then s.abortMove pg else s) s

/-- Collectives that a delta affects are over. -/
def State.collsEnded (s : State) (c : List Section) : Bool :=
  !s.clv.ids.any (fun e => collChanged s.comp.run c e.2 && (e.2.state == .opened || e.2.state == .committing || e.2.state == .aborting))

/-- Decodes that a delta affects are over, and handles of blocks that change are FREE. -/
def State.decodesEnded (s : State) (c : List Section) : Bool :=
  !s.atn.decodes.any (fun x => s.decodeChanged s.comp.run c x.handle)
    && !s.atn.handles.any (fun e => e.2.state != .free && s.blocksChanged s.comp.run c (e.1 / 2048))

/-- Decodes that a delta affects end, and the handles of blocks that change are released, with one event for each block (Table 11-6). -/
def State.endAttention (s : State) (c : List Section) : State :=
  let a := s.comp.run
  let blocks := (List.range 128).filter (s.blocksChanged a c)
  let s := s.endDecodes stAborted (fun x => s.decodeChanged a c x.handle)
  blocks.foldl (fun (s : State) cl =>
    let t := s.releaseHandles (fun h _ => h / 2048 == cl)
    if t.atn.handles = s.atn.handles then s else t.event 0x53 0 srcModule cl) s

/-- Work that a delta would make invalid comes to an end, each step once the one before it has (R311, steps 1 to 4). -/
def State.endWork (s : State) (c : List Section) : State :=
  let s := s.collTriggers 0xB (fun _ x => collChanged s.comp.run c x)
  if !s.collsEnded c then s
  else
    let s := s.endAttention c
    if !s.decodesEnded c then s
    else (s.abortAgentMoves s.comp.run c).stopThreads (fun k _ => coreChanged s.comp.run c k)

/-- The work that a delta would make invalid has ended. -/
def State.workEnded (s : State) (c : List Section) : Bool :=
  s.collsEnded c && s.decodesEnded c
    && !s.cpu.cores.any (fun k => coreChanged s.comp.run c k.1 && k.2.threads.any (fun t => t.2.state != .idle && t.2.state != .faulted))

/-- A write of CMPO_CMD. -/
def State.cmpoCmd (s : State) (v : BitVec 64) : State × BitVec 6 :=
  let boot := s.mod.state == .boot || s.mod.state == .recovery
  match v.toNat % 8 with
  | 1 =>
    if s.comp.stage = .staged then ({ s with comp := { s.comp with validating := true } }, stOk) else s.imgRefuse
  | 2 =>
    if s.comp.stage ≠ .valid ∨ s.imgDelta = true ∨ boot = false ∨ s.imgBusy = true then s.imgRefuse
    else if s.extentsHomed s.candidate then ({ s with comp := { s.comp with loading := true } }, stOk)
    else (s.imgErr 0x10 noSect, stDenied)
  | 3 =>
    if s.comp.stage ≠ .valid ∨ s.imgDelta = false ∨ s.mod.state ≠ .service ∨ s.comp.state ≠ .idle then s.imgRefuse
    else
      let s := { s with comp := { s.comp with state := .preparing, applyAt := s.now, flipAt := none } }
      (s.endWork s.candidate, stOk)
  | 4 => if s.imgBusy then s.imgRefuse else (s.imgEmpty, stOk)
  | _ => (s, stDenied)

/-- Address of a register of the module's CMPO_ page. -/
def cmpoAddr (off : Nat) : Nat := maddr 0 0 7 off

/-- A CMPO_CMD write over the ADK link. -/
def State.cmpoWr (s : State) (tag : BitVec 16) (v : BitVec 64) : State :=
  s.adkWr tag (cmpoAddr 0x008) v .operator (fun s => s.cmpoCmd v)

/-- CMPO_CMD VALIDATE. -/
def execCmpoValidate (tag : BitVec 16) (s : State) : Host.Outcome State Fault Refusal := .next (s.cmpoWr tag 1)
/-- CMPO_CMD LOAD. -/
def execCmpoLoad (tag : BitVec 16) (s : State) : Host.Outcome State Fault Refusal := .next (s.cmpoWr tag 2)
/-- CMPO_CMD APPLY. -/
def execCmpoApply (tag : BitVec 16) (s : State) : Host.Outcome State Fault Refusal := .next (s.cmpoWr tag 3)
/-- CMPO_CMD DISCARD. -/
def execCmpoDiscard (tag : BitVec 16) (s : State) : Host.Outcome State Fault Refusal := .next (s.cmpoWr tag 4)

/-! ### Putting a composition in force -/

/-- Class and bundle that a composition gives a port, as PRT_CFG has them: class, bundle size and offset in the bundle. -/
def portSetup (c : List Section) (p : Nat) : BitVec 2 × BitVec 2 × BitVec 3 :=
  let n := portBundle c p
  (BitVec.ofNat 2 (portClass c p), BitVec.ofNat 2 (Nat.log2 n), BitVec.ofNat 3 (p % n))

/-- Ports whose class or bundle changes. -/
def State.portsChanged (s : State) (c : List Section) : List Nat :=
  (List.range 256).filter (fun p => ((s.link p).cls, (s.link p).bundleSize, (s.link p).bundleOff) != portSetup c p)

/-- The queue map of a port. -/
def queueMap (c : List Section) (p : Nat) : Table (BitVec 4) :=
  (List.range 64).foldl (fun (t : Table (BitVec 4)) i => Table.write 0 t i (BitVec.ofNat 4 (portQueue c p i))) []

/-- The registers that show the composition in force: ports, cores, and the suspect counts and quarantines that LOAD and
APPLY clear (R310, R324, R363). -/
def State.showTables (s : State) : State :=
  let c := s.comp.run
  let s := (List.range 256).foldl (fun (s : State) p =>
    let x := portSetup c p
    let s := s.onLink p (fun l => { l with cls := x.1, bundleSize := x.2.1, bundleOff := x.2.2 })
    s.onTc p (fun t => { t with qmap := queueMap c p })) s
  (List.range 1024).foldl (fun (s : State) k =>
    s.onCore k (fun (x : Core) => { x with
      kind := BitVec.ofNat 2 (coreKind c k), tenant := BitVec.ofNat 10 (coreTenant c k), quar := 0
      pvUnit := (match corePv c k with | some pv => pvUnit c pv | none => 0xFFFF)
      engines := Table.mapAll {} (fun _ (e : Engine) => { e with suspect := 0 }) x.engines })) s

/-- Install the gate list of a GATE section as a port's pending list, with CHANGE_FT now (R301); one that R284 would refuse is
not installed. -/
def State.installGate (s : State) (x : Section) : State :=
  let b := fun (o n : Nat) => leNat (x.cells.bytes o n)
  let p := x.inst
  let g := (s.port p).tc.gate
  let l := b2n (!g.active)
  let es := (List.range (b 8 1 + 1)).foldl (fun (t : Table GateEntry) i =>
    let r := b (16 + 8 * i) 8
    Table.write {} t (256 * l + i) { gates := BitVec.ofNat 16 (bits r 63 48), dur := BitVec.ofNat 28 (bits r 27 0) }) g.entries
  let g := { g with entries := es, pendLast := BitVec.ofNat 8 (b 8 1), pendNone := false, base := b 0 8, change := s.now,
                    commitAt := s.now - 64, pending := true }
  if s.gateListOk p (g.list false) then s.onTc p (fun t => { t with gate := g }) else s

/-- Meters of the tenant records whose ports change follow their pavilion subtrees (R289). -/
def State.rebindMeters (s : State) (old : List Section) : State :=
  s.admitted.foldl (fun (s : State) r =>
    let pv := r.2.pv.toNat
    if r.2.parentV || (List.range 256).all (fun p => portUnder old pv p == portUnder s.comp.run pv p) then s
    else (s.unbindMeters r.1).bindMeters r.1) s

/-- The unit ID of the module and the endpoints' tenant sets follow the digest of the composition (R68, R77, log 27). -/
def State.takeIdentity (s : State) : State :=
  let d := s.comp.digest
  (List.range 256).foldl (fun (s : State) p =>
      if (s.link p).cls = 0 ∧ s.base p = p then s.onLink p (fun l => { l with tenantSet := (Config.endpointTenants d p).take 16 }) else s)
    { s with glb := { s.glb with unitId := Config.moduleUnit d } }

/-- Pavilions that a composition creates are cold from now (R162). -/
def State.chillNew (s : State) (old : List Section) : State :=
  let new := (List.range 64).filter (fun pv => pvDefined s.comp.run pv && !pvDefined old pv)
  let warm := new.foldl (fun (t : Table Warmth) pv => Table.write {} t pv { since := s.now }) s.tier.warm
  { s with tier := { s.tier with warm := warm } }

/-- Discovery starts on an OPEN T port whose tray has now a unit record and had none (R154). -/
def State.discoverNew (s : State) (old : List Section) : State :=
  ((List.range 256).filter (fun p => s.base p == p && (s.link p).cls == 1 && (s.link p).state == .opened && (trayUnitId old p).isNone
    && (trayUnitId s.comp.run p).isSome)).foldl (fun (s : State) p => s.trayPortOpen p (s.link p).peerId) s

/-- A composition governs: ports that change go down first with cause 0x04, and `gates` are the GATE sections to install
(R301, R310). -/
def State.govern (s : State) (c : List Section) (gates : List Section) : State :=
  let chg := s.portsChanged c
  let old := s.comp.run
  let s := chg.foldl (fun (s : State) p => s.portDown (s.base p) 4) s
  let s := ({ s with comp := { s.comp with run := c } }).showTables
  let s := chg.foldl (fun (s : State) p => s.onLink p (fun l => { l with outAt := s.now })) s
  let s := (gates.foldl State.installGate s.takeIdentity).rebindMeters old
  (s.chillNew old).discoverNew old

/-- Ports that have changed train again. -/
def State.trainAll (s : State) (l : List Nat) : State := l.foldl (fun (s : State) p => s.train p) s

/-- GATE sections that the staged image carries. -/
def State.imgGates (s : State) : List Section := (s.imgDir.filter (fun d => d.ty == 9 && d.len != 0)).map s.imgSection

end Sys2Proof.Machine
end

