-- ==== Sys2Proof/Machine/Power.lean ====
section
/-! DEFINITION. The power cap, the module's sensors, the spare map and the maker's test modes (R409, R410, R424). -/

namespace Sys2Proof.Machine

/-- Address of a GLB_ register. -/
def glbAddr (off : Nat) : Nat := maddr 0 0 1 off

/-! ### Power cap (R409) -/

/-- CAPPED changes, with its entry. -/
def State.capTo (s : State) (n : Nat) : State :=
  ({ s with glb := { s.glb with capped := BitVec.ofNat 2 n, capAt := s.now, coolFrom := none } }).logE 0x14 0x11 srcModule n true

/-- POWER_CAP_CHECK: the input power averaged over 10 ms is compared with CAP_W. -/
def execPowerCapCheck (avgW : BitVec 16) (s : State) : Host.Outcome State Fault Refusal :=
  let w := avgW.toNat
  let cap := s.glb.capW.toNat
  let n := s.glb.capped.toNat
  .next (
    if !s.alive then s
    else
      let cool := decide (100 * w < 95 * cap)
      let from_ := s.glb.coolFrom.getD s.now
      let s := { s with glb := { s.glb with avgW := avgW, coolFrom := if cool && n != 0 then some from_ else none } }
      if cap < w ∧ n = 0 then s.capTo 1
      else if cap < w ∧ n = 1 ∧ s.glb.capAt + 10 * msT ≤ s.now then s.capTo 2
      else if cool && n != 0 && decide (from_ + 100 * msT ≤ s.now) then s.capTo (n - 1)
      else s)

/-! ### Sensors (R424) -/

/-- The limits that a reading passes: FLOW_LOW, VIN_HIGH, TIN_HIGH and TIN_LOW of MOD_SENSE, from bit 3. -/
def Reading.limits (r : Reading) : BitVec 4 :=
  BitVec.ofNat 4 (8 * b2n (decide (r.flow.toNat < 56)) + 4 * b2n (decide (5950 < r.vin.toNat))
    + 2 * b2n (decide (40 < r.tIn.toInt)) + b2n (decide (r.tIn.toInt < 17)))

/-- SENSOR_SAMPLE: the readings of each millisecond, with one entry and event as a limit is passed. -/
def execSensorSample (reading : Reading) (s : State) : Host.Outcome State Fault Refusal :=
  .next (
    if s.mod.state = .off ∨ gridDue msT s.log.lastSensor s.now = false then s
    else
      let now := Reading.limits reading
      let was := s.mod.senseBits
      let t := { s with log := { s.log with lastSensor := s.now }
                        mod := { s.mod with vin := reading.vin, iin := reading.iin, tOut := reading.tOut, tIn := reading.tIn
                                            flow := reading.flow, senseBits := now } }
      [(1, 0x81, reading.tIn.toNat), (0, 0x82, reading.tIn.toNat), (2, 0x83, reading.vin.toNat), (3, 0x84, reading.flow.toNat)].foldl
        (fun (t : State) (x : Nat × Nat × Nat) =>
          if now.getLsbD x.1 && !was.getLsbD x.1 then t.logE 0x0D x.2.1 srcModule x.2.2 true else t) t)

/-! ### The spare map (R410) -/

/-- The map in GLB_SPARE_MAP0 to 3. -/
def State.spareEntries (s : State) : List (BitVec 6) := (List.range 32).map (Table.read 0 s.glb.spareMap)

/-- A write of GLB_SPARE_CMD. -/
def State.spareCmd (s : State) (v : BitVec 64) : State × BitVec 6 :=
  let m := s.spareEntries
  if !v.getLsbD 0 then (s, stOk)
  else if mapValid m && decide (s.pkg.spareSlots.length < 4) then
    ({ s with pkg := { s.pkg with spareSlots := s.pkg.spareSlots ++ [(m, mapCrc m)] }, glb := { s.glb with spareRes := stOk } }, stOk)
  else ({ s with glb := { s.glb with spareRes := stDenied } }, stDenied)

/-- SPARE_PROGRAM. -/
def execSpareProgram (tag : BitVec 16) (s : State) : Host.Outcome State Fault Refusal :=
  .next (s.adkWr tag (glbAddr 0x120) 1 .maker (fun s => s.spareCmd 1))

/-! ### Maker modes (R410) -/

/-- A write of GLB_MAKER_MODE: a nonzero value only in TEST, where the port's lanes leave service. A port that was under test
before trains again. -/
def State.makerModeWr (s : State) (v : BitVec 64) : State × BitVec 6 :=
  let tgt := bits v.toNat 15 8
  let mode := bits v.toNat 7 0
  if 2 < mode ∨ ((tgt ≠ 0 ∨ mode ≠ 0) ∧ s.mod.state ≠ .test) then (s, stDenied)
  else
    let was := s.glb.makerTgt.toNat
    let held := s.glb.makerMode != 0
    let s := { s with glb := { s.glb with makerTgt := BitVec.ofNat 8 tgt, makerMode := BitVec.ofNat 8 mode, makerErrs := 0, makerLock := false } }
    let s := if mode = 0 then s else if s.bundled tgt then s.memberRemove tgt 4 else s.portDown tgt 4
    (if held && !(mode != 0 && was == tgt) then s.train was else s, stOk)

/-- What the pattern checker of a port under test shows is the lanes' own: ERRORS and LOCKED are free values at each read. -/
def State.makerDiag (s : State) : State :=
  if s.glb.makerMode = 0 then s
  else
    let d := s.draw
    let w := Config.freeWord d.2
    { d.1 with glb := { d.1.glb with makerErrs := w.setWidth 32, makerLock := w.getLsbD 32 } }

/-- MAKER_MODE_WRITE. -/
def execMakerModeWrite (tag : BitVec 16) (value : BitVec 64) (s : State) : Host.Outcome State Fault Refusal :=
  .next (s.adkWr tag (glbAddr 0x130) value .maker (fun s => s.makerModeWr value))

end Sys2Proof.Machine
end

