-- ==== Sys2Proof/Machine/RegRead.lean ====
section
/-! DEFINITION. The management address map and the value that each register reads (R404 to R408, R49, R91, R126, R148, R177,
R197, R227, R254, R277, R298, R324, R348, R372, R388). -/

namespace Sys2Proof.Machine

/-! ### Addresses (R405, R406) -/

/-- Fields of a management address (Table 17-7). -/
def addrType (a : Nat) : Nat := bits a 47 40
def addrInst (a : Nat) : Nat := bits a 39 16
def addrPage (a : Nat) : Nat := bits a 15 12
def addrOff (a : Nat) : Nat := bits a 11 0

/-- Units of a type (Table 17-8). -/
def unitCount (ty : Nat) : Nat :=
  [1, 1, 1, 256, 64, 1024, 32, 16, 8, 4, 128, 32, 16].getD ty 0
/-- Block pages of a unit of a type (Table 17-8). -/
def unitPages (ty : Nat) : Nat := [7, 3, 2, 2, 1, 1].getD ty 0
/-- The page of an address is listed in Table 17-8. -/
def pageListed (a : Nat) : Bool := decide (addrInst a < unitCount (addrType a)) && decide (addrPage a ≤ unitPages (addrType a))

/-- A block page of a core on an absent die (R406). -/
def State.pageAbsent (s : State) (a : Nat) : Bool :=
  addrType a == 5 && addrPage a != 0 && s.pkg.absent.getLsbD (lcOf (addrInst a))

/-- A register value from its fields, each with the place of its lowest bit. -/
def pack (fs : List (Nat × Nat)) : BitVec 64 := BitVec.ofNat 64 ((fs.map (fun x => x.1 * 2 ^ x.2)).sum)

/-! ### Encodings that only registers show -/

/-- Encoding of an extent state (Table 06-5). -/
def ExtState.code : ExtState → Nat
  | .absent => 0 | .free => 1 | .active => 2 | .revoking => 3 | .drained => 4 | .scrubbing => 5
/-- Encoding of a link state (Table 03-12). -/
def LinkState.code : LinkState → Nat
  | .down => 0 | .training => 1 | .init => 2 | .hello => 3 | .opened => 4 | .fenced => 5
/-- Encoding of a collective state (Table 10-1). -/
def CollState.code : CollState → Nat
  | .unbound => 0 | .idle => 1 | .opened => 2 | .committing => 3 | .aborting => 4 | .aborted => 5
/-- Encoding of a handle state (Table 11-1). -/
def HandleState.code : HandleState → Nat
  | .free => 0 | .bound => 1 | .releasing => 2
/-- Encoding of CMPO_IMG_STATUS.STAGE. -/
def StageState.code : StageState → Nat
  | .empty => 0 | .loading => 1 | .staged => 2 | .valid => 3
/-- Encoding of CMPO_STATUS.STATE. -/
def ApplyState.code : ApplyState → Nat
  | .idle => 0 | .preparing => 1 | .window => 2
/-- Encoding of SEC_FW_STATUS.STAGE. -/
def FwStage.code : FwStage → Nat
  | .empty => 0 | .loading => 1 | .staged => 2 | .verified => 3
/-- Encoding of GLB_ADK_STATUS.STATE. -/
def AdkState.code : AdkState → Nat
  | .down => 0 | .training => 1 | .init => 2 | .up => 3

/-! ### The common page (R407) -/

/-- Die site of a unit. -/
def State.unitSite (s : State) (ty i : Nat) : Nat :=
  match ty with
  | 2 => sd1Site
  | 3 => portSite i
  | 5 => s.lcSite (lcOf i)
  | 6 => s.lcSite i
  | 7 => pdSite i
  | 8 => mdSite i
  | 9 => bdSite i
  | 0xA => mdSite (i / 16)
  | 0xB => mdSite (i / 4)
  | 0xC => bdSite (i / 4)
  | _ => sd0Site

/-- SRC of a unit (Table 15-10). -/
def unitSrc (ty i : Nat) : BitVec 16 :=
  match ty with
  | 1 => srcSD 0
  | 2 => srcSD 1
  | 3 => srcP i
  | 4 => srcDom i
  | 5 => srcK i
  | 6 => srcLC i
  | 7 => src 2 i
  | 8 => src 3 i
  | 9 => src 4 i
  | 0xA => srcHS i
  | 0xB => srcST i
  | 0xC => srcB i
  | _ => srcModule

/-- A unit is fenced: ports of the kinds 0x1 and 0x7, and cores (Table 15-12). -/
def State.unitFenced (s : State) (ty i : Nat) : Bool :=
  match ty with
  | 3 => s.isFenced 1 i || s.isFenced 7 i
  | 5 => s.isFenced 3 i
  | _ => false

/-- GLB_U_INFO, GLB_U_ERR and GLB_U_ERR_FT. -/
def State.readCommon (s : State) (ty i off : Nat) : BitVec 64 :=
  let lc := if ty = 5 then some (lcOf i) else if ty = 6 then some i else none
  let e := Table.read (0, 0, 0, false) s.log.unitErr (unitSrc ty i).toNat
  match off with
  | 0x000 =>
    pack [(ty, 56), (i, 32), (s.unitSite ty i, 24), (unitPages ty, 20),
          ((match lc with | some n => s.lcPhys n | none => 0x3F), 8), (b2n (s.unitFenced ty i), 1),
          (b2n (match lc with | some n => !s.pkg.absent.getLsbD n | none => true), 0)]
  | 0x008 => pack [(e.1.toNat, 32), (e.2.1.toNat, 8), (b2n e.2.2.2, 0)]
  | 0x010 => e.2.2.1
  | _ => 0

/-! ### GLB_ (R408) -/

/-- Registers of the GLB_ page. -/
def State.readGlb (s : State) (off : Nat) : BitVec 64 :=
  let g := s.glb
  match off with
  | 0x000 => g.deviceId
  | 0x008 => pack [(0x0040, 48), (g.stepping.toNat, 40), (1, 32), (1, 0)]
  | 0x010 => g.location
  | 0x018 => pack [(g.avgW.toNat, 32), (g.capped.toNat, 16), (g.capW.toNat, 0)]
  | 0x020 => pack [(g.tgtUs.toNat, 0)]
  | 0x028 => pack [(g.unitId.toNat, 16), (s.moduleNo, 0)]
  | 0x040 => pack [(g.shadowSat.toNat, 32), (g.rateLog2.toNat, 16), (g.shadowEn.toNat, 0)]
  | 0x048 => g.shadowCmp
  | 0x050 => g.shadowMis
  | 0x080 => pack [(s.evq.eseqNext.toNat, 32), (s.evq.queue.length, 0)]
  | 0x088 => BitVec.ofNat 64 s.evq.mask.toNat
  | 0x090 => BitVec.ofNat 64 (s.evq.mask.toNat / 2 ^ 64)
  | 0x098 => BitVec.ofNat 64 (s.evq.mask.toNat / 2 ^ 128)
  | 0x0A0 => BitVec.ofNat 64 (s.evq.mask.toNat / 2 ^ 192)
  | 0x0C0 => pack [(s.adk.retrains.toNat, 32), ((max 1 s.adk.outstanding.length + s.adk.behind) % 64, 8), (s.adk.state.code, 0)]
  | 0x0C8 => s.adk.cntCrc
  | 0x0D0 => s.adk.cntReplay
  | 0x0D8 => s.evq.cntLost
  | 0x0E0 => pack [(s.adk.sat.toNat, 0)]
  | 0x128 => pack [(g.spareRes.toNat, 8), (2 ^ s.pkg.spareSlots.length - 1, 4), (g.spareUse.toNat, 0)]
  | 0x130 => pack [(g.makerTgt.toNat, 8), (g.makerMode.toNat, 0)]
  | 0x138 => pack [(g.makerErrs.toNat, 32), (b2n g.makerLock, 0)]
  | _ =>
    if off = 0x100 ∨ off = 0x108 ∨ off = 0x110 ∨ off = 0x118 then
      pack ((List.range 8).map (fun j => ((Table.read (0 : BitVec 6) g.spareMap ((off - 0x100) + j)).toNat, 8 * j)))
    else 0

/-! ### EXT_ (R148, Table 06-2) -/

/-- The value of an extent-table entry (Table 06-2). -/
def Extent.word (x : Extent) : Nat :=
  x.tenant.toNat * 2 ^ 106 + x.pv.toNat * 2 ^ 100 + x.dom.toNat * 2 ^ 94 + b2n x.coherent * 2 ^ 93 + x.share.toNat * 2 ^ 91
    + b2n x.kv * 2 ^ 90 + b2n x.kvT2 * 2 ^ 89 + b2n x.written * 2 ^ 88 + b2n x.lastValid * 2 ^ 87 + x.lastTenant.toNat * 2 ^ 77
    + x.adm.toNat * 2 ^ 67 + x.state.code * 2 ^ 64 + x.owner.toNat * 2 ^ 48 + x.changeNs.toNat

/-- Amounts as EXT_ADM_REQ_MEM and EXT_ADM_REQ_CMP lay them out. -/
def Amounts.memWord (a : Amounts) : BitVec 64 := pack [(a.t2, 31), (a.t1, 14), (a.plots, 0)]
def Amounts.cmpWord (a : Amounts) : BitVec 64 := pack [(a.bw, 43), (a.seq, 24), (a.coll, 11), (a.cores, 0)]

/-- Resources of the device that no tenant record reserves; BW for the ports of the selected record (Table 06-19). -/
def State.admFree (s : State) : Amounts :=
  let t := s.deviceTotal
  let u := s.tenantSum 1024
  { plots := t.plots - u.plots, t1 := t.t1 - u.t1, t2 := t.t2 - u.t2, cores := t.cores - u.cores, coll := t.coll - u.coll,
    seq := t.seq - u.seq
    bw := ((s.recPorts (s.admRec s.adm.sel.toNat).pv.toNat).map (fun p => 64 - s.bwOn 1024 none p)).foldl min 64 }

/-- Registers of the EXT_ page. -/
def State.readExt (s : State) (off : Nat) : BitVec 64 :=
  let e := s.ext
  let r := s.adm.sel.toNat
  let a := s.admRec r
  match off with
  | 0x000 =>
    pack [(e.argOwner.toNat, 48), (e.argTenant.toNat, 38), (e.argPv.toNat, 32), (e.argDom.toNat, 26), (b2n e.argAttr, 25),
          (e.argShare.toNat, 23), (b2n e.argKv, 22), (b2n e.argKvT2, 21), (b2n e.argTier, 20), (e.argAdm.toNat, 10)]
  | 0x010 => pack [(e.cmdSeq.toNat, 32), (b2n s.extBusy, 31), (e.result.toNat, 16), (e.cmdState.code, 0)]
  | 0x018 => pack [(e.sel.toNat, 0)]
  | 0x020 => BitVec.ofNat 64 (s.extent e.sel.toNat).word
  | 0x028 => BitVec.ofNat 64 ((s.extent e.sel.toNat).word / 2 ^ 64)
  | 0x040 => e.cntRevoked
  | 0x048 => e.cntStrag
  | 0x050 => pack [(e.sat.toNat, 0)]
  | 0x100 => pack [(r, 0)]
  | 0x108 => pack [(b2n a.parentV, 42), (a.parent.toNat, 32), (a.pv.toNat, 10), (a.tenant.toNat, 0)]
  | 0x118 => a.req.memWord
  | 0x120 => a.req.cmpWord
  | 0x128 => pack [(s.adm.result.toNat, 16), (s.adm.fail.toNat, 8), (b2n a.admitted, 0)]
  | 0x130 => (s.recUse r).memWord
  | 0x138 => ({ s.recUse r with bw := a.resv.bw } : Amounts).cmpWord
  | 0x140 => pack [(s.recPages r 2, 32), (s.recPages r 1, 0)]
  | 0x148 => s.admFree.memWord
  | 0x150 => s.admFree.cmpWord
  | 0x158 => pack [(s.tierSlots 2 - 512 * (s.tenantSum 1024).t2, 32), (s.tierSlots 1 - 512 * (s.tenantSum 1024).t1, 0)]
  | _ => 0

/-! ### TRN_ (R177, Table 07-6) -/

/-- The value of a tier-page map entry (Table 07-6). -/
def TierPage.word (p : TierPage) : BitVec 64 :=
  pack [(p.slot.toNat, 34), (p.tray.toNat, 25), (p.heat.toNat, 17), (p.pin.toNat, 15), (b2n p.moving, 14), (b2n p.fresh, 13), (p.res.toNat, 0)]

/-- Registers of the TRN_ page. A read of TRN_PTW_DATA is an access of its own (R176). -/
def State.readTrn (s : State) (off : Nat) : BitVec 64 :=
  let x := s.xl
  let t := s.tier
  let r : Root := Table.read {} x.roots x.rootSel.toNat
  let y := s.tray t.traySel.toNat
  match off with
  | 0x000 => pack [(x.rootSel.toNat, 0)]
  | 0x008 => pack [(r.root.toNat, 16), (b2n r.valid, 0)]
  | 0x010 => pack [(x.invBase.toNat, 14)]
  | 0x018 => pack [(x.invPages.toNat, 32), (b2n x.invAll, 10), (x.invTenant.toNat, 0)]
  | 0x028 => pack [(x.invSeq.toNat, 32), (b2n x.invBusy, 31)]
  | 0x030 => pack [(x.ptwAddr.toNat, 3)]
  | 0x038 => x.ptwData
  | 0x040 => pack [(x.cmdResult.toNat, 0)]
  | 0x048 =>
    pack [(t.decayMs.toNat, 48), (t.promoteTh.toNat, 40), (t.demoteTh.toNat, 32), (t.maxMoves.toNat, 16), (t.t1LowPct.toNat, 8), (b2n t.migOn, 0)]
  | 0x050 => pack [(t.warmMs.toNat, 32), (t.warmLog2.toNat, 0)]
  | 0x058 => pack [(t.tpSel.toNat, 0)]
  | 0x060 => (s.page t.tpSel.toNat).word
  | 0x070 => pack [(t.traySel.toNat, 0)]
  | 0x078 => pack [(y.slots, 34), (y.freeSlots, 4), (y.tier.toNat, 2), (y.state.code, 0)]
  | 0x088 => pack [(t.ctoMs.toNat, 24), (t.t2Sel.toNat, 0)]
  | 0x0C0 => x.cntWalk
  | 0x0C8 => x.cntFault
  | 0x0D0 => x.cntPromote
  | 0x0D8 => x.cntDemote
  | 0x0E0 => x.cntHeld
  | 0x0E8 => x.cntRestore
  | 0x0F0 => pack [(x.sat.toNat, 0)]
  | _ => 0

/-! ### CMP_ (R197), CLV_ (R254) and ATN_ (R277) -/

/-- Registers of the CMP_ page. -/
def State.readCmp (s : State) (off : Nat) : BitVec 64 :=
  let c := s.cmp
  let v : CmpPv := Table.read {} c.pvs c.pvSel.toNat
  let p : CmpPort := Table.read {} c.ports c.portSel.toNat
  match off with
  | 0x000 => pack [(c.pvSel.toNat, 0)]
  | 0x008 => pack [(v.elem.toNat, 4), (b2n v.enable, 0)]
  | 0x010 => pack [(c.portSel.toNat, 0)]
  | 0x018 => pack [(p.egrVc.toNat, 8), (b2n p.peerCbf, 1), (b2n p.ingEn, 0)]
  | 0x040 => c.cntBlk
  | 0x048 => c.cntRaw
  | 0x050 => c.cntSaved
  | 0x058 => c.cntBad
  | 0x060 => c.cntRebuild
  | 0x068 => pack [(c.sat.toNat, 0)]
  | _ => 0

/-- A group member as CLV_GRP_MEMBERj lays it out. -/
def Member.word (m : Member) : Nat :=
  b2n m.dead * 2 ^ 31 + b2n m.coreV * 2 ^ 30 + m.core.toNat * 2 ^ 16 + m.unit.toNat

/-- Registers of the CLV_ page. -/
def State.readClv (s : State) (off : Nat) : BitVec 64 :=
  let c := s.clv
  let g := s.group c.grpSel.toNat
  let x := s.coll c.bindSel.toNat
  match off with
  | 0x000 => pack [(c.grpSel.toNat, 0)]
  | 0x008 => pack [(g.tenant.toNat, 32), (b2n (s.groupLocked c.grpSel.toNat), 16), (g.size.toNat, 0)]
  | 0x010 => pack [(c.bindSel.toNat, 0)]
  | 0x018 =>
    pack [(b2n x.enable, 63), (x.role.toNat, 61), (x.childV.toNat, 53), (x.parentPort.toNat, 45), (x.gateQ.toNat, 41),
          (x.slots.toNat, 30), (b2n x.slotMem, 29), (x.cluster.toNat, 22), (x.adm.toNat, 10), (x.group.toNat, 0)]
  | 0x020 => pack ((List.range 8).map (fun i => ((Table.read (0 : BitVec 8) x.childPort i).toNat, 8 * i)))
  | 0x028 => pack [(x.gen.toNat, 52), (x.cause.toNat, 48), (x.parts.length, 39), (x.closed % 2 ^ 19, 16), (x.state.code, 0)]
  | 0x040 => c.cntDone
  | 0x048 => c.cntAbort
  | 0x050 => c.cntStale
  | 0x058 => c.cntProto
  | 0x060 => pack [(c.sat.toNat, 0)]
  | _ =>
    if 0x100 ≤ off ∧ off < 0x500 then
      let j := (off - 0x100) / 8
      pack [((Table.read ({} : Member) g.members (2 * j)).word, 0), ((Table.read ({} : Member) g.members (2 * j + 1)).word, 32)]
    else 0

/-- Registers of the ATN_ page. -/
def State.readAtn (s : State) (off : Nat) : BitVec 64 :=
  let a := s.atn
  let p : AtnPv := Table.read {} a.pvs a.pvSel.toNat
  let h := s.handle a.seqSel.toNat
  match off with
  | 0x000 => pack [(a.pvSel.toNat, 0)]
  | 0x008 =>
    pack [(b2n p.enable, 63), (p.adm.toNat, 53), (p.first.toNat, 46), (p.n.toNat, 38), (p.splitMin.toNat, 16), (p.maxSplits.toNat, 8),
          (b2n p.protect, 0)]
  | 0x018 => pack [(a.cmdRes.toNat, 0)]
  | 0x040 => pack [(a.seqSel.toNat, 0)]
  | 0x048 =>
    pack [(h.fmt.toNat, 60), (h.d, 51), (h.l, 40), (h.h, 32), (tokPage h.fmt.toNat h.d, 24), (geoGb h.l h.h, 13), (h.state.code, 0)]
  | 0x050 => pack [(h.maxTok, 42), (h.len, 20), (h.tenant.toNat, 6), (h.pv.toNat, 0)]
  | 0x058 => pack [(h.keep, 42), (h.win, 21), (h.sink, 0)]
  | 0x060 => pack [(h.base, 21), (h.inflight, 0)]
  | 0x088 => BitVec.ofNat 64 h.lastFt
  | 0x0C0 => a.cntDecode
  | 0x0C8 => a.cntKvdrop
  | 0x0D0 => a.cntPgdrop
  | 0x0D8 => a.cntPgdemote
  | 0x0E0 => a.cntSub
  | 0x0E8 => pack [(a.sat.toNat, 0)]
  | _ =>
    if 0x068 ≤ off ∧ off < 0x088 then
      match h.segs[(off - 0x068) / 8]? with
      | some x => pack [(x.1 % 2 ^ 22, 16), (x.2.toNat, 0)]
      | none => 0xFFFF
    else 0

/-! ### CMPO_ (R324, R227) -/

/-- Registers of the module's CMPO_ page. -/
def State.readCmpo (s : State) (off : Nat) : BitVec 64 :=
  let c := s.comp
  let h : Hof := Table.read {} c.hofs c.hofSel.toNat
  match off with
  | 0x000 => pack [(s.img 24 4, 32), (c.errSect.toNat, 18), (c.err.toNat, 8), (s.img 6 1 % 4, 2), (c.stage.code, 0)]
  | 0x010 => pack [((c.evac.filter (fun b => (s.sector b).valid != 0)).length, 40), (c.lastUs.toNat, 24), (c.oldEpoch.toNat, 12), (c.epoch.toNat, 8), (c.state.code, 0)]
  | 0x018 => BitVec.ofNat 64 c.winEnd
  | 0x020 => pack [(c.windowUs.toNat, 0)]
  | 0x100 => pack [(c.hofSel.toNat, 0)]
  | 0x108 => pack [(h.line.toNat, 6)]
  | 0x110 => pack [(b2n h.en, 63), (b2n h.timer.isSome, 62), (h.limitMs.toNat, 0)]
  | 0x140 => c.cntApply
  | 0x148 => c.cntFwd
  | 0x150 => c.cntRetry
  | 0x158 => c.cntRollback
  | 0x160 => pack [(c.sat.toNat, 0)]
  | _ =>
    if 0x040 ≤ off ∧ off < 0x060 then BitVec.ofNat 64 (c.digest.toNat / 2 ^ (8 * (off - 0x040)))
    else if 0x060 ≤ off ∧ off < 0x080 then BitVec.ofNat 64 (s.img (32 + (off - 0x060)) 8)
    else 0

/-- Threads of a core in which something holds, as a bit for each. -/
def Core.threadBits (x : Core) (p : ThreadState → Bool) : Nat :=
  ((x.threads.filter (fun e => p e.2.state)).map (fun e => 2 ^ e.1)).sum

/-- The 64 firmware threads of a SERVICE core run (R223): from the entry to SERVICE until the cores stop (log 130), while the die runs
and the core's tenant is ACTIVE (R327). -/
def State.firmwareRuns (s : State) (k : Nat) : Bool :=
  (s.core k).kind == 2 && s.coreUp k && (s.mod.state == .service || s.mod.state == .drain || s.mod.state == .recovery)
    && (s.tenant (s.core k).tenant.toNat).state == .active

/-- Registers of a core's CMPO_ page. -/
def State.readCore (s : State) (k off : Nat) : BitVec 64 :=
  let x := s.core k
  match off with
  | 0x000 => pack [(x.pvUnit.toNat, 48), (x.tenant.toNat, 32), (x.quar.toNat, 8), (x.kind.toNat, 0)]
  | 0x008 => if s.firmwareRuns k then BitVec.allOnes 64 else BitVec.ofNat 64 (x.threadBits (fun t => t != .idle && t != .faulted))
  | 0x010 => BitVec.ofNat 64 (x.threadBits (fun t => t == .faulted))
  | 0x018 => pack [(b2n x.faultV, 63), (x.faultPc.toNat, 32), (x.faultCause.toNat, 8), (x.faultTid.toNat, 0)]
  | _ => 0

/-! ### SEC_ (R348) -/

/-- Registers of the SEC_ page. -/
def State.readSec (s : State) (off : Nat) : BitVec 64 :=
  let c := s.sec
  let t := s.tenant c.tcSel.toNat
  match off with
  | 0x000 =>
    pack [((match c.instEnd with | some e => (e - s.now) / msT | none => 0), 32), (b2n c.sealFuse, 5), (b2n c.sealOpen, 4), (b2n c.jmp, 3),
          (b2n c.pres, 2), (b2n c.maker, 1), (b2n s.windowOpen, 0)]
  | 0x010 => pack [(c.tcSel.toNat, 0)]
  | 0x018 =>
    pack [(s.tenantDirty c.tcSel.toNat, 32), (c.tcResult.toNat, 16), (t.tdStep.toNat, 8), (b2n t.pkey.isSome, 2), (t.state.code, 0)]
  | 0x030 => pack [(c.pkeyPtr.toNat, 0)]
  | 0x038 => t.dbg
  | 0x080 => pack [(c.lotSel.toNat, 0)]
  | 0x088 => pack [((Table.read (0 : BitVec 4) c.lotIdx c.lotSel.toNat).toNat, 0)]
  | 0x100 =>
    pack [(s.runBank.svn, 56), (c.svnMin.toNat, 48), (c.fwResult.toNat, 8), (b2n c.bank, 4), (c.fwErr.toNat, 2), (c.fwStage.code, 0)]
  | 0x168 => pack [(c.attLen.toNat, 32), (b2n c.attReady, 0)]
  | 0x180 => pack [(c.dbgAddr.toNat, 6)]
  | 0x190 => pack [(c.dbgRes.toNat, 0)]
  | 0x200 => c.cntDbg
  | 0x208 => c.cntDeny
  | 0x210 => c.cntRetired
  | 0x218 => c.cntTagMis
  | 0x220 => pack [(c.sat.toNat, 0)]
  | _ =>
    if 0x140 ≤ off ∧ off < 0x160 then Table.read 0 c.nonce ((off - 0x140) / 8)
    else if 0x1C0 ≤ off ∧ off < 0x200 then BitVec.ofNat 64 (field c.dbgLine (off - 0x1C0) 8)
    else if 0x400 ≤ off then BitVec.ofNat 64 (leNat (c.attWin.bytes (off - 0x400) 8))
    else 0

/-! ### LOG_ (R372) and MOD_ (R388) -/

/-- The words of a trouble-log entry (Table 15-9). -/
def LogEntry.words (e : LogEntry) : List (BitVec 64) :=
  [e.ft,
   pack [(e.src.toNat, 0), (e.cls.toNat, 16), (e.detail.toNat, 24), (e.flags.toNat, 32), (e.repeats.toNat, 40), (e.temp.toNat, 48)],
   BitVec.ofNat 64 e.param.toNat,
   BitVec.ofNat 64 (e.param.toNat / 2 ^ 64)]

/-- The entry held under a sequence number. -/
def State.logHeld (s : State) (seq : Nat) : Option LogEntry := (s.log.entries.find? (fun (e : Nat × LogEntry) => e.1 == seq)).map (·.2)

/-- Registers of the LOG_ page. -/
def State.readLog (s : State) (off : Nat) : BitVec 64 :=
  let l := s.log
  let sel := s.logHeld l.sel.toNat
  let th := s.marginTh l.mthSel.toNat
  let m : Margin := Table.read {} l.margins (65536 * l.itemKind.toNat + l.itemIdx.toNat)
  let d := s.die l.dieSel.toNat
  match off with
  | 0x000 => pack [(l.wrSeq.toNat, 32), (b2n sel.isNone, 16), (l.entries.length, 0)]
  | 0x008 => pack [(l.sel.toNat, 0)]
  | 0x040 =>
    pack [(l.scanMs.toNat, 48), (l.hystPct.toNat, 40), (l.patrolH.toNat, 32), (l.throttleC.toNat, 24), (l.warnC.toNat, 16), (l.ceTh.toNat, 0)]
  | 0x048 => pack [(l.mthSel.toNat, 0)]
  | 0x050 => pack [(th.1.toNat, 16), (th.2.toNat, 0)]
  | 0x058 => pack [(l.itemKind.toNat, 16), (l.itemIdx.toNat, 0)]
  | 0x060 => pack [(m.last.toNat, 48), (m.worst.toNat, 32), (m.state.toNat, 0)]
  | 0x068 => pack [(l.stestMs.toNat, 48), (l.quarTh.toNat, 8), (l.patEn.toNat, 1), (b2n l.stestEn, 0)]
  | 0x070 => pack [(l.suspSel.toNat, 0)]
  | 0x078 => pack ((List.range 4).map (fun e => (min 15 (s.engine l.suspSel.toNat e).suspect, 4 * e)))
  | 0x080 => pack [(l.dieSel.toNat, 0)]
  | 0x088 => pack [(d.temp.toNat, 56), (d.maxTemp.toNat, 48), (d.vdd.toNat, 32), (d.level.toNat, 0)]
  | 0x090 => pack [(l.auditUs.toNat, 0)]
  | 0x098 => pack [(l.fenceKind.toNat, 24), (l.fenceIdx.toNat, 0)]
  | 0x0A0 => pack [(l.fenced.length, 32), (b2n (s.isFenced l.fenceKind.toNat l.fenceIdx.toNat), 0)]
  | 0x0A8 => pack [(l.rcvRuns.toNat, 48), (l.rcvCause.toNat, 8), (l.rcvStep.toNat, 0)]
  | 0x0C0 => l.cntCe
  | 0x0C8 => l.cntUe
  | 0x0D0 => l.cntPoison
  | 0x0D8 => l.cntOverwr
  | 0x0E0 => pack [(l.sat.toNat, 0)]
  | _ =>
    if 0x010 ≤ off ∧ off < 0x030 then
      match sel with
      | some e => e.words.getD ((off - 0x010) / 8) 0
      | none => 0
    else 0

/-- Registers of the MOD_ page, and MOD_SENSE (R424). -/
def State.readMod (s : State) (off : Nat) : BitVec 64 :=
  let m := s.mod
  match off with
  | 0x000 =>
    pack [(m.result.toNat, 48), (m.cause.toNat, 40), (m.bootStep.toNat, 36), (b2n m.ready, 11), (b2n m.testDone, 10), (b2n m.bootReady, 9),
          (b2n m.attnReq, 8), (b2n m.pres2, 7), (b2n m.pres1, 6), (m.prev.code, 3), (m.state.code, 0)]
  | 0x010 => m.changeFt
  | 0x018 => pack [((if m.state == ModState.drain then s.dirtySectors.length else 0), 32), (m.lostSect, 0)]
  | 0x020 => pack [(m.vin.toNat, 48), (m.iin.toNat, 32), (m.tOut.toNat, 24), (m.tIn.toNat, 16), (m.flow.toNat, 8), (m.senseBits.toNat, 0)]
  | _ => 0

/-! ### TIM_ (R49) and LSE_ (R148) -/

/-- Registers of the TIM_ page. -/
def State.readTim (s : State) (off : Nat) : BitVec 64 :=
  let t := s.tim
  let held := t.state == .holdover || t.state == .lost
  match off with
  | 0x000 => BitVec.ofNat 64 t.ft
  | 0x008 => pack [(t.markRun.toNat, 16), (t.missRun.toNat, 8), (b2n t.stepped, 4), (b2n t.codeErr, 3), (t.state.code, 0)]
  | 0x010 => t.markErr
  | 0x018 => pack [(if held then min (2 ^ 32 - 1) ((t.ft - t.holdFrom) / msT) else 0, 0)]
  | 0x020 => pack [(t.stepbackUs.toNat, 16), (t.holdMaxS.toNat, 8), (t.markWin.toNat, 4)]
  | 0x028 => t.stepAmt
  | 0x030 => t.stepAt
  | 0x038 => pack [(t.lateFired.toNat, 0)]
  | _ => 0

/-- Registers of the LSE_ page. -/
def State.readLse (s : State) (off : Nat) : BitVec 64 :=
  let x := s.lse
  let l := s.lease x.sel.toNat
  match off with
  | 0x000 => pack [(x.defaultMs.toNat, 32), (x.maxMs.toNat, 16), (x.minMs.toNat, 0)]
  | 0x008 => pack [(x.sel.toNat, 0)]
  | 0x010 => pack [(l.rseq.toNat, 48), (l.state.code, 32), (l.periodMs.toNat, 16), (l.unit.toNat, 0)]
  | 0x018 => if l.state == .armed || l.state == .frozen then BitVec.ofNat 64 l.expiry else 0
  | 0x040 => x.cntRenew
  | 0x048 => x.cntExpire
  | 0x050 => x.cntReject
  | 0x058 => pack [(x.sat.toNat, 0)]
  | _ => 0

/-! ### PRT_ (R91, R298) and QUE_ (R298) -/

/-- The value of a shaper register. -/
def Shaper.word (x : Shaper) : BitVec 64 := pack [(b2n x.en, 63), (b2n x.rstZero, 62), (x.burst.toNat, 32), (x.rate.toNat, 0)]

/-- Link state that PRT_LINK shows: a member other than the first shows the bundle's while it is in it, else its own lanes (R52, R53). -/
def State.linkShown (s : State) (p : Nat) : LinkState :=
  if s.base p = p ∨ (s.link (s.base p)).membersUp.getLsbD (s.link p).bundleOff.toNat then (s.link (s.base p)).state else (s.link p).solo

/-- Link registers of a port, offsets 0x000 to 0x0FF. -/
def State.readLink (s : State) (p off : Nat) : BitVec 64 :=
  let l := s.link p
  let cred := fun (i : Nat) => (Table.read (0 : BitVec 16) l.peerCred i).toNat
  match off with
  | 0x000 =>
    pack [(l.helloUs.toNat, 32), (l.hopMax.toNat, 24), (p - l.bundleOff.toNat, 16), (l.bundleSize.toNat, 8), (l.cls.toNat, 0)]
  | 0x008 =>
    pack [(l.retrains.toNat, 32), (l.membersUp.toNat, 24), (l.downCause.toNat, 8),
          ((s.linkShown p).code, 0)]
  | 0x010 => l.peerId
  | 0x018 => pack [(b2n l.peerChg, 32), (l.peerClass.toNat, 24), (l.peerMember.toNat, 16), (l.peerUnit.toNat, 0)]
  | 0x020 => pack [(cred 0, 0), (cred 1, 16), (cred 2, 32), (cred 3, 48)]
  | 0x028 => pack [(cred 4, 0), (cred 5, 16), (cred 6, 32), (cred 7, 48)]
  | 0x040 => l.cntCrc
  | 0x048 => l.cntReplay
  | 0x050 => l.cntDiscard
  | 0x058 => l.cntLate
  | 0x060 => l.cntTdead
  | 0x068 => pack [(l.sat.toNat, 0)]
  | _ => 0

/-- Bridle registers, reached through the first port of a die only. -/
def State.readBrd (s : State) (p off : Nat) : BitVec 64 :=
  let b := s.bridle (s.brdIndex p)
  if p % 16 ≠ 0 then 0
  else match off with
    | 0x178 => pack [((s.port p).tc.brdSel.toNat, 0)]
    | 0x180 => pack [(b.cir.toNat, 44), (b.pir.toNat, 24), (b2n b.redDrop, 1), (b2n b.aware, 0)]
    | 0x188 => pack [(b.pbs.toNat, 32), (b.cbs.toNat, 0)]
    | 0x1A0 => b.cntG
    | 0x1A8 => b.cntY
    | 0x1B0 => b.cntR
    | 0x1B8 => b.cntDrop
    | 0x1C0 => pack [(b.sat.toNat, 0)]
    | _ => 0

/-- Traffic-control registers of a port, from offset 0x100. -/
def State.readTc (s : State) (p off : Nat) : BitVec 64 :=
  let t := (s.port p).tc
  let g := t.gate
  let m : Meter := Table.read {} t.meters t.shrSel.toNat
  let e : GateEntry := Table.read {} g.entries (256 * b2n g.selList + g.selIndex.toNat)
  match off with
  | 0x120 => t.shape.word
  | 0x128 => pack [(b2n t.brdEn, 15), (t.brdMode.toNat, 13), (t.brdBase.toNat, 0)]
  | 0x130 =>
    pack [(g.gates.toNat, 48), (g.actLast.toNat, 40), (g.pendLast.toNat, 32), (b2n g.pendNone, 5), (b2n g.run, 4), (b2n g.active, 3),
          (b2n g.pending, 2)]
  | 0x138 => BitVec.ofNat 64 g.base
  | 0x140 => BitVec.ofNat 64 g.change
  | 0x148 => pack [(b2n g.selList, 8), (g.selIndex.toNat, 0)]
  | 0x150 => pack [(e.gates.toNat, 48), (e.dur.toNat, 0)]
  | 0x158 => pack [(t.rlMax.toNat, 44), (t.rlMin.toNat, 24), (t.rlMd.toNat, 20), (t.rlAi.toNat, 8), (t.rlUs.toNat, 0)]
  | 0x160 => pack [(b2n t.rlHeld, 21), (b2n (t.rlRate == t.rlMin || t.rlRate == t.rlMax), 20), (t.rlRate.toNat, 0)]
  | 0x168 => pack [(t.shrSel.toNat, 0)]
  | 0x170 => pack [(b2n m.valid, 63), (m.adm.toNat, 53), (m.bw.toNat, 46)]
  | _ =>
    if 0x100 ≤ off ∧ off < 0x120 then
      pack ((List.range 16).map (fun i => ((Table.read (0 : BitVec 4) t.qmap (2 * (off - 0x100) + i)).toNat, 4 * i)))
    else s.readBrd p off

/-- Registers of a queue (Table 12-10); the belvedere registers other than QUE_BEL_CFG show its read copy (R297). -/
def State.readQue (s : State) (p q off : Nat) : BitVec 64 :=
  let x := s.queue p q
  let b := x.belCopy
  let bin := fun (t : Table (BitVec 32)) (k : Nat) =>
    pack [((Table.read (0 : BitVec 32) t (2 * k + 1)).toNat, 32), ((Table.read (0 : BitVec 32) t (2 * k)).toNat, 0)]
  match off with
  | 0x00 =>
    pack [(x.quantum.toNat, 52), (x.ew.toNat, 48), (x.thrR.toNat, 36), (x.thrY.toNat, 24), (x.thrG.toNat, 12), (b2n x.ceEn, 0)]
  | 0x08 => x.shape.word
  | 0x10 => pack [(x.depth, 32), (x.avg / 1024 % 4096, 20), (s.guardOf p q, 12), (b2n ((s.port p).tc.gate.gates.getLsbD q), 0)]
  | 0x18 => pack [(x.belUs.toNat, 0)]
  | 0x20 => pack [(b.samples.toNat, 32), (b.flags.toNat, 0)]
  | 0x28 => pack [(b.dmax.toNat, 32), (b.dmin.toNat, 0)]
  | 0x30 => pack [(b.smax.toNat, 32), (b.smin.toNat, 0)]
  | 0xC0 => x.cntTx
  | 0xC8 => x.cntBytes
  | 0xD0 => x.cntCe
  | 0xD8 => x.cntOver
  | 0xE0 => pack [(x.sat.toNat, 0)]
  | _ =>
    if 0x40 ≤ off ∧ off < 0x80 then bin b.dhist ((off - 0x40) / 8)
    else if 0x80 ≤ off ∧ off < 0xC0 then bin b.shist ((off - 0x80) / 8)
    else 0

/-! ### COH_ (R126) -/

/-- Registers of a domain's COH_ page. -/
def State.readCoh (s : State) (d off : Nat) : BitVec 64 :=
  let x := s.dom d
  match off with
  | 0x000 => pack [(x.tenant.toNat, 32), (x.flushMs.toNat, 24), (x.cinch.toNat, 16), (b2n x.eGrant, 1), (b2n x.enable, 0)]
  | 0x008 => pack [(x.gen.toNat, 24), (x.deadAgent.toNat, 16), (x.cause.toNat, 8), (x.state.code, 0)]
  | 0x018 => BitVec.ofNat 64 x.downFt
  | 0x020 => pack [((s.coh.dir.filter (fun (e : Nat × DirEntry) => e.2.state != .i && e.2.dom.toNat == d)).length, 0)]
  | 0x300 => x.cntSnoop
  | 0x308 => x.cntCinch
  | 0x310 => x.cntBinv
  | 0x318 => x.cntPoison
  | 0x320 => pack [(x.sat.toNat, 0)]
  | _ =>
    if 0x100 ≤ off ∧ off < 0x300 then
      pack ((List.range 4).map (fun k => ((Table.read (0xFFFF : BitVec 16) x.members ((off - 0x100) / 2 + k)).toNat, 16 * k)))
    else 0

/-! ### The whole map -/

/-- Block pages of the module. -/
def State.readModule (s : State) (page off : Nat) : BitVec 64 :=
  match page with
  | 1 => s.readGlb off
  | 2 => s.readExt off
  | 3 => s.readTrn off
  | 4 => s.readCmp off
  | 5 => s.readClv off
  | 6 => s.readAtn off
  | 7 => s.readCmpo off
  | _ => 0

/-- The value that a register reads at a multiple of 8 in a listed page; 0 where no register is named (R406). -/
def State.readReg (s : State) (a : Nat) : BitVec 64 :=
  let i := addrInst a
  let page := addrPage a
  let off := addrOff a
  if s.pageAbsent a then 0
  else if page = 0 then s.readCommon (addrType a) i off
  else match addrType a, page with
    | 0, _ => s.readModule page off
    | 1, 1 => s.readSec off
    | 1, 2 => s.readLog off
    | 1, 3 => s.readMod off
    | 2, 1 => s.readTim off
    | 2, 2 => s.readLse off
    | 3, 1 => if off < 0x100 then s.readLink i off else s.readTc i off
    | 3, 2 => s.readQue i (off / 0x100) (off % 0x100)
    | 4, 1 => s.readCoh i off
    | 5, 1 => s.readCore i off
    | _, _ => 0

/-- `n` words from an address. -/
def State.readRegs (s : State) (a n : Nat) : List (BitVec 64) := (List.range n).map (fun i => s.readReg (a + 8 * i))

end Sys2Proof.Machine
end

