-- ==== Sys2Proof/Machine/RegWrite.lean ====
section
/-! DEFINITION. Register writes: the writable fields of each register, their ranges and roles, and the effect of a write
(R4, R5, R339, R342, R406, R427). -/

namespace Sys2Proof.Machine

/-! ### Writable fields (R4) -/

/-- A mask of fields, each by its highest and lowest bit. -/
def fieldMask (fs : List (Nat × Nat)) : Nat := (fs.map (fun x => (2 ^ (x.1 - x.2 + 1) - 1) * 2 ^ x.2)).sum
/-- Every bit. -/
def allBits : Nat := 2 ^ 64 - 1

/-- Writable bits of the module's pages. -/
def maskModule (page off : Nat) : Nat :=
  match page, off with
  | 1, 0x010 => allBits
  | 1, 0x018 => fieldMask [(15, 0)]
  | 1, 0x020 => fieldMask [(15, 0)]
  | 1, 0x040 => fieldMask [(33, 32), (20, 16), (2, 0)]
  | 1, 0x088 => allBits
  | 1, 0x090 => allBits
  | 1, 0x098 => allBits
  | 1, 0x0A0 => allBits
  | 1, 0x0E0 => fieldMask [(2, 0)]
  | 1, 0x100 => fieldMask ((List.range 8).map (fun j => (8 * j + 5, 8 * j)))
  | 1, 0x108 => fieldMask ((List.range 8).map (fun j => (8 * j + 5, 8 * j)))
  | 1, 0x110 => fieldMask ((List.range 8).map (fun j => (8 * j + 5, 8 * j)))
  | 1, 0x118 => fieldMask ((List.range 8).map (fun j => (8 * j + 5, 8 * j)))
  | 1, 0x120 => fieldMask [(0, 0)]
  | 1, 0x130 => fieldMask [(15, 0)]
  | 2, 0x000 => fieldMask [(63, 10)]
  | 2, 0x008 => fieldMask [(24, 0)]
  | 2, 0x018 => fieldMask [(20, 0)]
  | 2, 0x050 => fieldMask [(1, 0)]
  | 2, 0x100 => fieldMask [(9, 0)]
  | 2, 0x108 => fieldMask [(42, 32), (15, 0)]
  | 2, 0x110 => fieldMask [(1, 0)]
  | 2, 0x118 => fieldMask [(51, 0)]
  | 2, 0x120 => fieldMask [(49, 0)]
  | 3, 0x000 => fieldMask [(9, 0)]
  | 3, 0x008 => fieldMask [(55, 16), (0, 0)]
  | 3, 0x010 => fieldMask [(55, 14)]
  | 3, 0x018 => fieldMask [(63, 32), (10, 0)]
  | 3, 0x020 => fieldMask [(0, 0)]
  | 3, 0x030 => fieldMask [(55, 3)]
  | 3, 0x038 => allBits
  | 3, 0x048 => fieldMask [(63, 8), (0, 0)]
  | 3, 0x050 => fieldMask [(47, 32), (4, 0)]
  | 3, 0x058 => fieldMask [(29, 0)]
  | 3, 0x068 => fieldMask [(5, 0)]
  | 3, 0x070 => fieldMask [(8, 0)]
  | 3, 0x080 => fieldMask [(3, 0)]
  | 3, 0x088 => fieldMask [(31, 24), (15, 0)]
  | 3, 0x0F0 => fieldMask [(5, 0)]
  | 4, 0x000 => fieldMask [(5, 0)]
  | 4, 0x008 => fieldMask [(7, 4), (0, 0)]
  | 4, 0x010 => fieldMask [(7, 0)]
  | 4, 0x018 => fieldMask [(15, 8), (1, 0)]
  | 4, 0x068 => fieldMask [(4, 0)]
  | 5, 0x000 => fieldMask [(9, 0)]
  | 5, 0x008 => fieldMask [(41, 32), (8, 0)]
  | 5, 0x010 => fieldMask [(11, 0)]
  | 5, 0x018 => fieldMask [(63, 22), (19, 0)]
  | 5, 0x020 => allBits
  | 5, 0x030 => fieldMask [(0, 0)]
  | 5, 0x060 => fieldMask [(3, 0)]
  | 6, 0x000 => fieldMask [(5, 0)]
  | 6, 0x008 => fieldMask [(63, 38), (31, 8), (0, 0)]
  | 6, 0x010 => fieldMask [(19, 0)]
  | 6, 0x040 => fieldMask [(17, 0)]
  | 6, 0x0E8 => fieldMask [(4, 0)]
  | 7, 0x008 => fieldMask [(2, 0)]
  | 7, 0x020 => fieldMask [(15, 0)]
  | 7, 0x100 => fieldMask [(9, 0)]
  | 7, 0x108 => fieldMask [(55, 6)]
  | 7, 0x110 => fieldMask [(63, 63), (15, 0)]
  | 7, 0x160 => fieldMask [(3, 0)]
  | 5, _ => if 0x100 ≤ off ∧ off < 0x500 then fieldMask [(62, 62), (57, 32), (30, 30), (25, 0)] else 0
  | _, _ => 0

/-- Writable bits of the pages of SD0 and SD1. -/
def maskSteward (ty page off : Nat) : Nat :=
  match ty, page, off with
  | 1, 1, 0x008 => fieldMask [(1, 0)]
  | 1, 1, 0x010 => fieldMask [(9, 0)]
  | 1, 1, 0x020 => fieldMask [(2, 0)]
  | 1, 1, 0x028 => allBits
  | 1, 1, 0x030 => fieldMask [(7, 0)]
  | 1, 1, 0x080 => fieldMask [(7, 0)]
  | 1, 1, 0x088 => fieldMask [(3, 0)]
  | 1, 1, 0x108 => fieldMask [(1, 0)]
  | 1, 1, 0x140 => allBits
  | 1, 1, 0x148 => allBits
  | 1, 1, 0x150 => allBits
  | 1, 1, 0x158 => allBits
  | 1, 1, 0x160 => fieldMask [(1, 0)]
  | 1, 1, 0x180 => fieldMask [(55, 6)]
  | 1, 1, 0x188 => fieldMask [(0, 0)]
  | 1, 1, 0x220 => fieldMask [(3, 0)]
  | 1, 2, 0x008 => fieldMask [(31, 0)]
  | 1, 2, 0x030 => fieldMask [(0, 0)]
  | 1, 2, 0x040 => allBits
  | 1, 2, 0x048 => fieldMask [(2, 0)]
  | 1, 2, 0x050 => fieldMask [(31, 0)]
  | 1, 2, 0x058 => fieldMask [(18, 0)]
  | 1, 2, 0x068 => fieldMask [(63, 48), (11, 0)]
  | 1, 2, 0x070 => fieldMask [(9, 0)]
  | 1, 2, 0x080 => fieldMask [(5, 0)]
  | 1, 2, 0x090 => fieldMask [(31, 0)]
  | 1, 2, 0x098 => fieldMask [(27, 0)]
  | 1, 2, 0x0A0 => fieldMask [(1, 1)]
  | 1, 2, 0x0E0 => fieldMask [(3, 0)]
  | 1, 3, 0x000 => fieldMask [(8, 8)]
  | 1, 3, 0x008 => fieldMask [(2, 0)]
  | 2, 1, 0x008 => fieldMask [(4, 3)]
  | 2, 1, 0x020 => fieldMask [(23, 4)]
  | 2, 2, 0x000 => fieldMask [(47, 0)]
  | 2, 2, 0x008 => fieldMask [(11, 0)]
  | 2, 2, 0x010 => fieldMask [(31, 0)]
  | 2, 2, 0x020 => fieldMask [(31, 16), (2, 0)]
  | 2, 2, 0x058 => fieldMask [(2, 0)]
  | _, _, _ => 0

/-- Writable bits of a queue's registers. -/
def maskQue (off : Nat) : Nat :=
  match off with
  | 0x00 => fieldMask [(63, 12), (0, 0)]
  | 0x08 => fieldMask [(63, 62), (50, 32), (19, 0)]
  | 0x18 => fieldMask [(31, 30), (19, 0)]
  | 0xE0 => fieldMask [(3, 0)]
  | _ => 0

/-- Writable bits of a port's PRT_ page. -/
def maskPrt (p off : Nat) : Nat :=
  match off with
  | 0x000 => fieldMask [(47, 32), (27, 24)]
  | 0x018 => fieldMask [(34, 32)]
  | 0x068 => fieldMask [(4, 0)]
  | 0x120 => fieldMask [(63, 62), (50, 32), (19, 0)]
  | 0x128 => fieldMask [(15, 13), (8, 0)]
  | 0x130 => fieldMask [(39, 32), (5, 5), (0, 0)]
  | 0x138 => allBits
  | 0x140 => allBits
  | 0x148 => fieldMask [(8, 0)]
  | 0x150 => fieldMask [(63, 48), (27, 0)]
  | 0x158 => allBits
  | 0x160 => fieldMask [(21, 21)]
  | 0x168 => fieldMask [(5, 0)]
  | 0x178 => fieldMask [(8, 0)]
  | 0x180 => fieldMask [(63, 24), (1, 0)]
  | 0x188 => allBits
  | 0x1C0 => if p % 16 = 0 then fieldMask [(3, 0)] else 0
  | _ => 0

/-- Writable bits of a domain's COH_ page. -/
def maskCoh (off : Nat) : Nat :=
  match off with
  | 0x000 => fieldMask [(41, 24), (22, 16), (1, 0)]
  | 0x010 => fieldMask [(1, 0)]
  | 0x320 => fieldMask [(3, 0)]
  | _ => if 0x100 ≤ off ∧ off < 0x300 then allBits else 0

/-- Bits of a register that are RW, WO or RW1C; none where the address names no such register. -/
def regMask (a : Nat) : Nat :=
  let ty := addrType a
  let page := addrPage a
  let off := addrOff a
  if !pageListed a then 0
  else if page = 0 then (if off = 0x008 then 1 else 0)
  else match ty with
    | 0 => maskModule page off
    | 1 => maskSteward 1 page off
    | 2 => maskSteward 2 page off
    | 3 => if page = 1 then maskPrt (addrInst a) off else maskQue (off % 0x100)
    | 4 => maskCoh off
    | 5 => if off = 0x018 then 2 ^ 63 else 0
    | _ => 0

/-- Bits of a register that are RW1C. -/
def rw1cBits (a : Nat) : BitVec 64 :=
  let off := addrOff a
  let sat := fun (n : Nat) => fieldMask [(n, 0)]
  BitVec.ofNat 64 (
    if pageListed a = false then 0
    else if addrPage a = 0 then (if off = 0x008 then 1 else 0)
    else match addrType a, addrPage a, off with
      | 0, 1, 0x040 => fieldMask [(33, 32)]
      | 0, 1, 0x0E0 => sat 2
      | 0, 2, 0x050 => sat 1
      | 0, 3, 0x0F0 => sat 5
      | 0, 4, 0x068 => sat 4
      | 0, 5, 0x060 => sat 3
      | 0, 6, 0x0E8 => sat 4
      | 0, 7, 0x160 => sat 3
      | 1, 1, 0x220 => sat 3
      | 1, 2, 0x0E0 => sat 3
      | 1, 3, 0x000 => fieldMask [(8, 8)]
      | 2, 1, 0x008 => fieldMask [(4, 3)]
      | 2, 2, 0x058 => sat 2
      | 3, 1, 0x018 => fieldMask [(32, 32)]
      | 3, 1, 0x068 => sat 4
      | 3, 1, 0x160 => fieldMask [(21, 21)]
      | 3, 1, 0x1C0 => sat 3
      | 3, 2, _ => if off % 0x100 = 0xE0 then sat 3 else 0
      | 4, 1, 0x320 => sat 3
      | 5, 1, 0x018 => fieldMask [(63, 63)]
      | _, _, _ => 0)

/-! ### Roles (R339, R408, R49, R148, R345, R364) -/

/-- The role that a write of a value to a register requires. -/
def regRole (a : Nat) (v : BitVec 64) : Role :=
  if a = glbAddr 0x010 ∨ a = glbAddr 0x018 ∨ a = timAddr 0x020 ∨ a = lseAddr 0x000 ∨ a = logAddr 0x030 then .installer
  else if a = secAddr 0x108 then fwRole v
  else if (glbAddr 0x100 ≤ a ∧ a < glbAddr 0x128) ∨ a = glbAddr 0x130 then .maker
  else .operator

/-! ### Ranges -/

/-- A number lies within bounds. -/
def within (lo hi x : Nat) : Bool := decide (lo ≤ x) && decide (x ≤ hi)

/-- Element types that are not reserved (Table 08-2). -/
def elemKnown (e : Nat) : Bool := decide (e ≤ 4) || within 8 11 e

/-- Every field of a write to a module page lies in its range. -/
def State.rangeModule (s : State) (page off : Nat) (v : BitVec 64) : Bool :=
  let n := v.toNat
  match page, off with
  | 1, 0x018 => within 0x0BB8 0x2648 (bits n 15 0)
  | 1, 0x020 => within 0x0008 0x413C (bits n 15 0)
  | 1, 0x040 => within 0x06 0x18 (bits n 20 16)
  | 1, 0x130 => decide (bits n 7 0 ≤ 2)
  | 2, 0x118 => decide (bits n 51 31 ≤ 0x100000) && decide (bits n 30 14 ≤ 0x10000) && decide (bits n 13 0 ≤ 0x2000)
  | 2, 0x120 =>
    decide (bits n 49 43 ≤ 0x40) && decide (bits n 42 24 ≤ 0x40000) && decide (bits n 23 11 ≤ 0x1000) && decide (bits n 10 0 ≤ 0x400)
  | 3, 0x048 =>
    within 1 0x2710 (bits n 63 48) && decide (1 ≤ bits n 47 40) && decide (bits n 39 32 < bits n 47 40)
      && within 1 0x400 (bits n 31 16) && decide (bits n 15 8 ≤ 0x32)
  | 3, 0x050 => decide (bits n 47 32 ≤ 0x2710) && decide (0x10 ≤ bits n 4 0)
  | 3, 0x088 => within 1 0x32 (bits n 31 24)
  | 4, 0x008 => elemKnown (bits n 7 4)
  | 4, 0x018 => decide (bits n 15 8 &&& 0x67 = 0)
  | 5, 0x008 => within 1 0x100 (bits n 8 0)
  | 5, 0x018 => within 1 (min 0x7FF (s.slotRegion (bit n 29) (bits n 28 22))) (bits n 40 30)
  | 6, 0x008 =>
    within 1 0x80 (bits n 45 38) && decide (bits n 52 46 + bits n 45 38 ≤ 0x80) && within 0x80 0x8000 (bits n 31 16)
      && decide (1 ≤ bits n 15 8)
  | 7, 0x020 => within 0x64 0x7D0 (bits n 15 0)
  | 7, 0x110 => within 1 0xEA60 (bits n 15 0)
  | _, _ => true

/-- Every field of a write to a page of SD0 or SD1 lies in its range. -/
def rangeSteward (ty page off : Nat) (v : BitVec 64) : Bool :=
  let n := v.toNat
  match ty, page, off with
  | 1, 1, 0x030 => decide (bits n 7 0 ≤ 0xA3)
  | 1, 2, 0x040 =>
    within 0xA 0xEA60 (bits n 63 48) && decide (bits n 47 40 ≤ 0x32) && within 1 0xA8 (bits n 39 32) && within 0x55 0x68 (bits n 31 24)
      && within 0x46 (bits n 31 24) (bits n 23 16) && decide (1 ≤ bits n 15 0)
  | 1, 2, 0x050 => decide ((BitVec.ofNat 16 (bits n 15 0)).toInt < (BitVec.ofNat 16 (bits n 31 16)).toInt)
  | 1, 2, 0x068 => within 1 0x2710 (bits n 63 48) && decide (1 ≤ bits n 11 8) && decide (1 ≤ bits n 7 1)
  | 1, 2, 0x090 => within 0x64 0x186A0 (bits n 31 0)
  | 2, 1, 0x020 => decide (bits n 23 16 ≤ 0x10) && within 1 0x3C (bits n 15 8) && decide (1 ≤ bits n 7 4)
  | 2, 2, 0x000 =>
    within 0xA (bits n 31 16) (bits n 15 0) && decide (bits n 31 16 ≤ 0xEA60) && within (bits n 15 0) (bits n 31 16) (bits n 47 32)
  | _, _, _ => true

/-- The fields of a shaper register lie in their ranges. -/
def rangeShaper (v : BitVec 64) : Bool := (shaperOf v).isSome

/-- Every field of a write to a PRT_ page lies in its range. -/
def rangePrt (p off : Nat) (v : BitVec 64) : Bool :=
  let n := v.toNat
  match off with
  | 0x000 => within 0xA 0x2710 (bits n 47 32) && within 1 0xE (bits n 27 24)
  | 0x120 => rangeShaper v
  | 0x128 => decide (bits n 8 0 + (match bits n 14 13 with | 0 => 1 | 3 => 64 | _ => 8) ≤ 512)
  | 0x150 => within 1 0xEE6B280 (bits n 27 0)
  | 0x158 =>
    within 1 (bits n 63 44) (bits n 43 24) && decide (bits n 63 44 ≤ 0xCF850) && within 1 8 (bits n 23 20) && decide (1 ≤ bits n 19 8)
      && decide (1 ≤ bits n 7 0)
  | 0x178 => decide (p % 16 = 0)
  | 0x180 => decide (p % 16 = 0) && within 1 (bits n 43 24) (bits n 63 44) && decide (bits n 43 24 ≤ 0xCF850)
  | 0x188 => decide (p % 16 = 0) && within 0x1029 0x1000000 (bits n 63 32) && within 0x1029 0x1000000 (bits n 31 0)
  | _ => true

/-- Every field of a write lies in its range; ranges that refer to the composition are those of `s` (R254). -/
def State.regRange (s : State) (a : Nat) (v : BitVec 64) : Bool :=
  let page := addrPage a
  let off := addrOff a
  let n := v.toNat
  if page = 0 then true
  else match addrType a with
    | 0 => s.rangeModule page off v
    | 1 => rangeSteward 1 page off v
    | 2 => rangeSteward 2 page off v
    | 3 =>
      if page = 1 then rangePrt (addrInst a) off v
      else match off % 0x100 with
        | 0x00 => decide (1 ≤ bits n 63 52)
        | 0x08 => rangeShaper v
        | 0x18 => decide (bits n 19 0 ≤ 0xF4240)
        | _ => true
    | 4 => if off = 0 then within 1 0x64 (bits n 31 24) && within 1 0x40 (bits n 22 16) else true
    | _ => true

/-! ### What a write does -/

/-- Event codes that GLB_EVQ_MASK cannot suppress (R403). -/
def unmaskable : BitVec 256 := ~~~((List.range 256).foldl (fun (m : BitVec 256) i =>
  if [0x12, 0x13, 0x40, 0x41, 0x45, 0x7F].contains i then m ||| (1 : BitVec 256) <<< i else m) 0)

/-- The event mask after a write of GLB_EVQ_MASKk. -/
def maskWrite (m : BitVec 256) (k : Nat) (v : BitVec 64) : BitVec 256 :=
  let keep := ~~~(((BitVec.allOnes 64).setWidth 256) <<< (64 * k))
  ((m &&& keep) ||| ((v.setWidth 256) <<< (64 * k))) &&& unmaskable

/-- A write of the GLB_ page, in range. -/
def State.writeGlb (s : State) (off : Nat) (v : BitVec 64) : State × BitVec 6 :=
  let n := v.toNat
  let set := fun (g : Global) => (({ s with glb := g } : State), stOk)
  let evq := fun (k : Nat) => (({ s with evq := { s.evq with mask := maskWrite s.evq.mask k v } } : State), stOk)
  let spare := fun (k : Nat) =>
    set { s.glb with spareMap := (List.range 8).foldl (fun (t : Table (BitVec 6)) j =>
      Table.write 0 t (8 * k + j) (BitVec.ofNat 6 (bits n (8 * j + 5) (8 * j)))) s.glb.spareMap }
  match off with
  | 0x010 => set { s.glb with location := v }
  | 0x018 => set { s.glb with capW := BitVec.ofNat 16 n }
  | 0x020 => set { s.glb with tgtUs := BitVec.ofNat 16 n }
  | 0x040 =>
    set { s.glb with shadowSat := s.glb.shadowSat &&& ~~~(BitVec.ofNat 2 (bits n 33 32)), rateLog2 := BitVec.ofNat 5 (bits n 20 16)
                     shadowEn := BitVec.ofNat 3 n }
  | 0x088 => evq 0
  | 0x090 => evq 1
  | 0x098 => evq 2
  | 0x0A0 => evq 3
  | 0x0E0 => ({ s with adk := { s.adk with sat := s.adk.sat &&& ~~~(BitVec.ofNat 3 n) } }, stOk)
  | 0x100 => spare 0
  | 0x108 => spare 1
  | 0x110 => spare 2
  | 0x118 => spare 3
  | 0x120 => s.spareCmd v
  | 0x130 => s.makerModeWr v
  | _ => (s, stOk)

/-- A write of EXT_ADM_ID: DENIED while the record holds a reservation (R148). -/
def State.admId (s : State) (v : BitVec 64) : State × BitVec 6 :=
  let r := s.adm.sel.toNat
  let n := v.toNat
  if (s.admRec r).admitted then (s, stDenied)
  else (s.onAdm r (fun x => { x with parentV := bit n 42, parent := BitVec.ofNat 10 (bits n 41 32), pv := BitVec.ofNat 6 (bits n 15 10)
                                     tenant := BitVec.ofNat 10 n }), stOk)

/-- A write of the EXT_ page, in range. -/
def State.writeExt (s : State) (off : Nat) (v : BitVec 64) : State × BitVec 6 :=
  let n := v.toNat
  match off with
  | 0x000 =>
    ({ s with ext := { s.ext with
        argOwner := BitVec.ofNat 16 (bits n 63 48), argTenant := BitVec.ofNat 10 (bits n 47 38), argPv := BitVec.ofNat 6 (bits n 37 32)
        argDom := BitVec.ofNat 6 (bits n 31 26), argAttr := bit n 25, argShare := BitVec.ofNat 2 (bits n 24 23), argKv := bit n 22
        argKvT2 := bit n 21, argTier := bit n 20, argAdm := BitVec.ofNat 10 (bits n 19 10) } }, stOk)
  | 0x008 => s.extCmd v
  | 0x018 => ({ s with ext := { s.ext with sel := BitVec.ofNat 21 n } }, stOk)
  | 0x050 => ({ s with ext := { s.ext with sat := s.ext.sat &&& ~~~(BitVec.ofNat 2 n) } }, stOk)
  | 0x100 => ({ s with adm := { s.adm with sel := BitVec.ofNat 10 n } }, stOk)
  | 0x108 => s.admId v
  | 0x110 => s.admCmd v
  | 0x118 =>
    (s.onAdm s.adm.sel.toNat (fun x => { x with req := { x.req with t2 := bits n 51 31, t1 := bits n 30 14, plots := bits n 13 0 } }), stOk)
  | 0x120 =>
    (s.onAdm s.adm.sel.toNat (fun x => { x with req := { x.req with
      bw := bits n 49 43, seq := bits n 42 24, coll := bits n 23 11, cores := bits n 10 0 } }), stOk)
  | _ => (s, stOk)

/-- A write of TRN_PTW_DATA by a POLICY record: the access starts, and no request waits for it (R176). -/
def State.ptwPolicy (s : State) (v : BitVec 64) : State × BitVec 6 :=
  let r := s.homeAccess (.ptw policyTag true) (8 * s.xl.ptwAddr.toNat) (some v.toNat)
  if r.2 then (r.1, stOk) else (s.trnResult stDenied, stDenied)

/-- A write of the TRN_ page, in range. -/
def State.writeTrn (s : State) (off : Nat) (v : BitVec 64) : State × BitVec 6 :=
  let n := v.toNat
  let set := fun (x : Xlate) => (({ s with xl := x } : State), stOk)
  match off with
  | 0x000 => set { s.xl with rootSel := BitVec.ofNat 10 n }
  | 0x008 => s.trnRoot v
  | 0x010 => set { s.xl with invBase := BitVec.ofNat 42 (bits n 55 14) }
  | 0x018 => set { s.xl with invPages := BitVec.ofNat 32 (bits n 63 32), invAll := bit n 10, invTenant := BitVec.ofNat 10 n }
  | 0x020 => s.invGo v
  | 0x030 => set { s.xl with ptwAddr := BitVec.ofNat 53 (bits n 55 3) }
  | 0x038 => s.ptwPolicy v
  | 0x048 => s.trnMigCfg v
  | 0x050 => s.trnMigWarm v
  | 0x058 => ({ s with tier := { s.tier with tpSel := BitVec.ofNat 30 n } }, stOk)
  | 0x068 => s.tpCmd v
  | 0x070 => ({ s with tier := { s.tier with traySel := BitVec.ofNat 9 n } }, stOk)
  | 0x080 => s.trayCmd v
  | 0x088 => s.trnBrCfg v
  | 0x0F0 => set { s.xl with sat := s.xl.sat &&& ~~~(BitVec.ofNat 6 n) }
  | _ => (s, stOk)

/-- A write of the CMP_ page, in range. A T port takes no nonzero field (R197). -/
def State.writeCmp (s : State) (off : Nat) (v : BitVec 64) : State × BitVec 6 :=
  let n := v.toNat
  let set := fun (x : Cmp) => (({ s with cmp := x } : State), stOk)
  match off with
  | 0x000 => set { s.cmp with pvSel := BitVec.ofNat 6 n }
  | 0x008 =>
    let c : CmpPv := { elem := BitVec.ofNat 4 (bits n 7 4), enable := bit n 0 }
    set { s.cmp with pvs := Table.write {} s.cmp.pvs s.cmp.pvSel.toNat c }
  | 0x010 => set { s.cmp with portSel := BitVec.ofNat 8 n }
  | 0x018 =>
    let c : CmpPort := { egrVc := BitVec.ofNat 8 (bits n 15 8), peerCbf := bit n 1, ingEn := bit n 0 }
    if c ≠ {} ∧ (s.link s.cmp.portSel.toNat).cls = 1 then (s, stDenied)
    else set { s.cmp with ports := Table.write {} s.cmp.ports s.cmp.portSel.toNat c }
  | 0x068 => set { s.cmp with sat := s.cmp.sat &&& ~~~(BitVec.ofNat 5 n) }
  | _ => (s, stOk)

/-- A write of the CLV_ page, in range. -/
def State.writeClv (s : State) (off : Nat) (v : BitVec 64) : State × BitVec 6 :=
  let n := v.toNat
  let set := fun (x : Collectives) => (({ s with clv := x } : State), stOk)
  match off with
  | 0x000 => set { s.clv with grpSel := BitVec.ofNat 10 n }
  | 0x008 => s.clvGroup v
  | 0x010 => set { s.clv with bindSel := BitVec.ofNat 12 n }
  | 0x018 => s.clvBind v
  | 0x020 =>
    (s.onColl s.clv.bindSel.toNat (fun c => { c with childPort := (List.range 8).foldl (fun (t : Table (BitVec 8)) i =>
      Table.write 0 t i (BitVec.ofNat 8 (n / 2 ^ (8 * i)))) c.childPort }), stOk)
  | 0x030 => s.clvCmd v
  | 0x060 => set { s.clv with sat := s.clv.sat &&& ~~~(BitVec.ofNat 4 n) }
  | _ => if 0x100 ≤ off ∧ off < 0x500 then s.clvMember ((off - 0x100) / 8) v else (s, stOk)

/-- A write of the ATN_ page, in range. -/
def State.writeAtn (s : State) (off : Nat) (v : BitVec 64) : State × BitVec 6 :=
  let n := v.toNat
  let set := fun (x : Attention) => (({ s with atn := x } : State), stOk)
  match off with
  | 0x000 => set { s.atn with pvSel := BitVec.ofNat 6 n }
  | 0x008 => s.atnPvCfg v
  | 0x010 => s.atnCmd v
  | 0x040 => set { s.atn with seqSel := BitVec.ofNat 18 n }
  | 0x0E8 => set { s.atn with sat := s.atn.sat &&& ~~~(BitVec.ofNat 5 n) }
  | _ => (s, stOk)

/-- A write of the module's CMPO_ page, in range (R324). -/
def State.writeCmpo (s : State) (off : Nat) (v : BitVec 64) : State × BitVec 6 :=
  let n := v.toNat
  let c := s.comp
  let h : Hof := Table.read {} c.hofs c.hofSel.toNat
  let set := fun (x : Composition) => (({ s with comp := x } : State), stOk)
  match off with
  | 0x008 => s.cmpoCmd v
  | 0x020 => if c.state = .idle then set { c with windowUs := BitVec.ofNat 16 n } else (s, stDenied)
  | 0x100 => set { c with hofSel := BitVec.ofNat 10 n }
  | 0x108 =>
    if h.timer.isSome then (s, stDenied)
    else set { c with hofs := Table.write {} c.hofs c.hofSel.toNat { h with line := BitVec.ofNat 50 (bits n 55 6) } }
  | 0x110 =>
    if h.timer.isSome then (s, stDenied)
    else set { c with hofs := Table.write {} c.hofs c.hofSel.toNat { h with en := bit n 63, limitMs := BitVec.ofNat 16 n } }
  | 0x160 => set { c with sat := c.sat &&& ~~~(BitVec.ofNat 4 n) }
  | _ => (s, stOk)

/-- A write of a page of the module. -/
def State.writeModule (s : State) (page off : Nat) (v : BitVec 64) : State × BitVec 6 :=
  match page with
  | 1 => s.writeGlb off v
  | 2 => s.writeExt off v
  | 3 => s.writeTrn off v
  | 4 => s.writeCmp off v
  | 5 => s.writeClv off v
  | 6 => s.writeAtn off v
  | 7 => s.writeCmpo off v
  | _ => (s, stOk)

/-- A write of SEC_LOT: only while the port is DOWN or disabled, and never for a port of class A (R331, R348). -/
def State.secLot (s : State) (v : BitVec 64) : State × BitVec 6 :=
  let p := s.sec.lotSel.toNat
  let l := s.link (s.base p)
  if l.cls = 0 ∨ (l.cls ≠ 3 ∧ l.state ≠ .down) then (s, stDenied)
  else ({ s with sec := { s.sec with lotIdx := Table.write 0 s.sec.lotIdx p (BitVec.ofNat 4 v.toNat) } }, stOk)

/-- A debug read by a POLICY record: no request waits for it (R343). -/
def State.dbgPolicy (s : State) : State × BitVec 6 :=
  let r := s.homeAccess (.debug policyTag) (64 * s.sec.dbgAddr.toNat) none
  if r.2 then (r.1, stOk) else (s.dbgResult stDenied [], stDenied)

/-- A write of the SEC_ page, in range. -/
def State.writeSec (s : State) (off : Nat) (v : BitVec 64) : State × BitVec 6 :=
  let n := v.toNat
  let set := fun (x : Security) => (({ s with sec := x } : State), stOk)
  match off with
  | 0x008 => s.roleCmd v
  | 0x010 => set { s.sec with tcSel := BitVec.ofNat 10 n }
  | 0x020 => s.tcCmd v
  | 0x028 => s.pkeyData v
  | 0x030 => set { s.sec with pkeyPtr := BitVec.ofNat 8 n }
  | 0x080 => set { s.sec with lotSel := BitVec.ofNat 8 n }
  | 0x088 => s.secLot v
  | 0x108 => s.fwCmd v
  | 0x160 => s.attCmd v
  | 0x180 => set { s.sec with dbgAddr := BitVec.ofNat 50 (bits n 55 6) }
  | 0x188 => if bit n 0 then s.dbgPolicy else (s, stOk)
  | 0x220 => set { s.sec with sat := s.sec.sat &&& ~~~(BitVec.ofNat 4 n) }
  | _ =>
    if 0x140 ≤ off ∧ off < 0x160 then set { s.sec with nonce := Table.write 0 s.sec.nonce ((off - 0x140) / 8) v } else (s, stOk)

/-- A write of the LOG_ page, in range. -/
def State.writeLog (s : State) (off : Nat) (v : BitVec 64) : State × BitVec 6 :=
  let n := v.toNat
  let l := s.log
  let set := fun (x : Log) => (({ s with log := x } : State), stOk)
  match off with
  | 0x008 => set { l with sel := BitVec.ofNat 32 n }
  | 0x030 => s.logCmd v
  | 0x040 =>
    let s := if bits n 39 32 = l.patrolH.toNat then s else s.owing 3
    let s := if bits n 63 48 = l.scanMs.toNat then s else s.owing 6
    ({ s with log := { l with
        scanMs := BitVec.ofNat 16 (bits n 63 48), hystPct := BitVec.ofNat 8 (bits n 47 40), patrolH := BitVec.ofNat 8 (bits n 39 32)
        throttleC := BitVec.ofNat 8 (bits n 31 24), warnC := BitVec.ofNat 8 (bits n 23 16), ceTh := BitVec.ofNat 16 n } }, stOk)
  | 0x048 => set { l with mthSel := BitVec.ofNat 3 n }
  | 0x050 =>
    let k := l.mthSel.toNat
    set { l with mth := Table.write (marginDefault k) l.mth k (BitVec.ofNat 16 (bits n 31 16), BitVec.ofNat 16 n) }
  | 0x058 => set { l with itemKind := BitVec.ofNat 3 (bits n 18 16), itemIdx := BitVec.ofNat 16 n }
  | 0x068 =>
    let s := if bits n 63 48 = l.stestMs.toNat ∧ bit n 0 = l.stestEn then s else s.owing 5
    let set := fun (x : Log) => (({ s with log := x } : State), stOk)
    set { l with stestMs := BitVec.ofNat 16 (bits n 63 48), quarTh := BitVec.ofNat 4 (bits n 11 8), patEn := BitVec.ofNat 7 (bits n 7 1)
                 stestEn := bit n 0 }
  | 0x070 => set { l with suspSel := BitVec.ofNat 10 n }
  | 0x080 => set { l with dieSel := BitVec.ofNat 6 n }
  | 0x090 => set { l with auditUs := BitVec.ofNat 32 n }
  | 0x098 => set { l with fenceKind := BitVec.ofNat 4 (bits n 27 24), fenceIdx := BitVec.ofNat 24 n }
  | 0x0A0 => s.logFence v
  | 0x0E0 => set { l with sat := l.sat &&& ~~~(BitVec.ofNat 4 n) }
  | _ => (s, stOk)

/-- A write of the MOD_ page. -/
def State.writeMod (s : State) (off : Nat) (v : BitVec 64) : State × BitVec 6 :=
  match off with
  | 0x000 => (if v.getLsbD 8 then { s with mod := { s.mod with attnReq := false } } else s, stOk)
  | 0x008 => if v.toNat % 8 = 4 then (s.warm, stOk) else s.modCmd v
  | _ => (s, stOk)

/-- A write of a page of SD1, in range. -/
def State.writeSd1 (s : State) (page off : Nat) (v : BitVec 64) : State × BitVec 6 :=
  match page, off with
  | 1, 0x008 =>
    ({ s with tim := { s.tim with stepped := s.tim.stepped && !v.getLsbD 4, codeErr := s.tim.codeErr && !v.getLsbD 3 } }, stOk)
  | 1, 0x020 => s.timCtrl v
  | 2, 0x000 => s.lseBounds v
  | 2, 0x008 => ({ s with lse := { s.lse with sel := BitVec.ofNat 12 v.toNat } }, stOk)
  | 2, 0x010 => s.lseEntry v
  | 2, 0x020 => s.lseCmd v
  | 2, 0x058 => ({ s with lse := { s.lse with sat := s.lse.sat &&& ~~~(BitVec.ofNat 3 v.toNat) } }, stOk)
  | _, _ => (s, stOk)

/-- A write of a PRT_ page, in range. -/
def State.writePrt (s : State) (p off : Nat) (v : BitVec 64) : State × BitVec 6 :=
  let n := v.toNat
  match off with
  | 0x000 => s.prtCfg p v
  | 0x018 => s.prtPeer p v
  | 0x068 => (s.onLink p (fun l => { l with sat := l.sat &&& ~~~(BitVec.ofNat 5 n) }), stOk)
  | 0x120 => s.prtShape p v
  | 0x128 => s.prtBridle p v
  | 0x130 => s.gateCtrl p v
  | 0x138 => s.gateBase p v
  | 0x140 => s.gateChange p v
  | 0x148 => (s.onTc p (fun t => { t with gate := { t.gate with selList := bit n 8, selIndex := BitVec.ofNat 8 n } }), stOk)
  | 0x150 => s.gateEntry p v
  | 0x158 => s.prtRloop p v
  | 0x160 => (s.onTc p (fun t => { t with rlHeld := t.rlHeld && !bit n 21 }), stOk)
  | 0x168 => (s.onTc p (fun t => { t with shrSel := BitVec.ofNat 6 n }), stOk)
  | 0x178 => s.brdSelect p v
  | 0x180 => s.brdCfg p v
  | 0x188 => s.brdBurst p v
  | 0x1C0 =>
    if p % 16 = 0 then (s.onBridle (s.brdIndex p) (fun x => { x with sat := x.sat &&& ~~~(BitVec.ofNat 4 n) }), stOk) else (s, stOk)
  | _ => (s, stOk)

/-- A write of a QUE_ page, in range. -/
def State.writeQue (s : State) (p q off : Nat) (v : BitVec 64) : State × BitVec 6 :=
  match off with
  | 0x00 => s.queCfg p q v
  | 0x08 => s.queShape p q v
  | 0x18 => s.belCfg p q v
  | 0xE0 => (s.onQueue p q (fun x => { x with sat := x.sat &&& ~~~(BitVec.ofNat 4 v.toNat) }), stOk)
  | _ => (s, stOk)

/-- A write of a domain's COH_ page. -/
def State.writeCoh (s : State) (d off : Nat) (v : BitVec 64) : State × BitVec 6 :=
  match off with
  | 0x000 => s.cohCfg d v
  | 0x010 => s.cohCmd d v
  | 0x320 => (s.onDom d (fun x => { x with sat := x.sat &&& ~~~(BitVec.ofNat 4 v.toNat) }), stOk)
  | _ => if 0x100 ≤ off ∧ off < 0x300 then s.cohMembers d ((off - 0x100) / 8) v else (s, stOk)

/-- A write of a common page: GLB_U_ERR.ERR_V clears (R407). -/
def State.writeCommon (s : State) (ty i off : Nat) (v : BitVec 64) : State × BitVec 6 :=
  let k := (unitSrc ty i).toNat
  let e := Table.read (0, 0, 0, false) s.log.unitErr k
  if off = 0x008 ∧ v.getLsbD 0 = true then
    ({ s with log := { s.log with unitErr := Table.write (0, 0, 0, false) s.log.unitErr k (e.1, e.2.1, e.2.2.1, false) } }, stOk)
  else (s, stOk)

/-- What a write does, once its role has been judged: DENIED at a page not listed, at a block page of an absent die and outside
a field's range; else the effect that its register gives. RO fields and offsets that name no register are left alone (R4, R5, R406). -/
def State.regWrite (s : State) (a : Nat) (v : BitVec 64) : State × BitVec 6 :=
  let i := addrInst a
  let page := addrPage a
  let off := addrOff a
  if pageListed a = false ∨ s.pageAbsent a = true then (s, stDenied)
  else if page = 0 then s.writeCommon (addrType a) i off v
  else if s.regRange a v = false then (s, stDenied)
  else match addrType a, page with
    | 0, _ => s.writeModule page off v
    | 1, 1 => s.writeSec off v
    | 1, 2 => s.writeLog off v
    | 1, 3 => s.writeMod off v
    | 2, _ => s.writeSd1 page off v
    | 3, 1 => s.writePrt i off v
    | 3, 2 => s.writeQue i (off / 0x100) (off % 0x100) v
    | 4, 1 => s.writeCoh i off v
    | 5, 1 =>
      (if off = 0x018 ∧ v.getLsbD 63 = true then s.onCore i (fun (x : Core) => { x with faultV := false }) else s, stOk)
    | _, _ => (s, stOk)

/-! ### POLICY records (R427) -/

/-- A record passes check 0x14: a writable register of Table 17-8, no bit outside its writable fields, every field in its range,
and the operator role. -/
def State.policyOk (s : State) (r : Nat × BitVec 64) : Bool :=
  r.1 % 8 == 0 && decide (r.1 < 2 ^ 48) && regMask r.1 != 0 && r.2.toNat &&& regMask r.1 == r.2.toNat && s.regRange r.1 r.2
    && regRole r.1 r.2 == .operator

/-- Write the records in order. One that is refused is skipped, with its entry and event. -/
def State.policyApply (rs : List (Nat × BitVec 64)) (s : State) : State :=
  rs.foldl (fun (s : State) r =>
    let x := s.regWrite r.1 r.2
    if x.2 = stDenied then x.1.logE 0x14 0x12 srcModule r.1 true else x.1) s

end Sys2Proof.Machine
end

