-- ==== Sys2Proof/Machine/Transactions.lean ====
section
/-! DEFINITION. The transactions of the ADK link: RD, WR, IMGWR and LOGRD, and the accesses that answer later (R6, R176, R343,
R394 to R399). -/

namespace Sys2Proof.Machine

/-! ### WR -/

/-- Perform a WR of any register (R395, R406): an access that answers later, MOD_CMD, or a write with its role. An RW1C bit that the
CX64 sets in the same cycle stays set (R6). -/
def State.wrAny (q : AdkFrame) (s : State) : State :=
  let a := q.addr.toNat
  let v := q.words.headD 0 &&& ~~~(q.cycle &&& rw1cBits a)
  if pageListed a = false then s.adkReply q stDenied q.addr []
  else if a = trnAddr 0x038 then s.ptwStart q (some v)
  else if a = secAddr 0x188 ∧ v.getLsbD 0 = true then s.dbgStart q
  else if a = modCmdAddr then State.modBody q v s
  else if a = extAddr 0x008 then State.extBody q v s
  else State.wrBody q (regRole a v) (fun s => s.regWrite a v) s

/-- REGISTER_WRITE; `held` has the RW1C bits that the CX64 sets in the cycle of the write. -/
def execRegisterWrite (tag : BitVec 16) (addr : BitVec 48) (value held : BitVec 64) (s : State) : Host.Outcome State Fault Refusal :=
  let q := { wrFrame tag addr.toNat value with cycle := held }
  .next (s.adkRequest q (addr.toNat % 8 == 0) (State.wrAny q))

/-! ### RD -/

/-- The words of an RD include a register. -/
def AdkFrame.covers (q : AdkFrame) (a : Nat) : Bool := decide (q.addr.toNat ≤ a) && decide (a < q.addr.toNat + 8 * q.len)

/-- TIM_LATE_FIRED is read: it clears, and then takes what fires in the same cycle (R6). -/
def State.lateRead (s : State) (incs : BitVec 32) : State := { s with tim := { s.tim with lateFired := incs } }

/-- Answer an RD from registers that answer at once. -/
def State.rdReply (q : AdkFrame) (s : State) : State :=
  let s := if q.covers (glbAddr 0x138) then s.makerDiag else s
  let ws := s.readRegs q.addr.toNat q.len
  let s := if q.covers (timAddr 0x038) then s.lateRead (q.cycle.setWidth 32) else s
  s.adkReply q stOk q.addr ws

/-- Perform an RD: DENIED at a page not listed; one that covers TRN_PTW_DATA starts its access (R176, R406). -/
def State.rdAny (q : AdkFrame) (s : State) : State :=
  if pageListed q.addr.toNat = false then s.adkFail q stDenied
  else if q.covers (trnAddr 0x038) then s.ptwStart q none
  else s.rdReply q

/-- An RD frame. -/
def rdFrame (tag : BitVec 16) (addr : BitVec 48) (len : Nat) : AdkFrame :=
  { ty := 1, status := 0, tag := tag, addr := addr, len := len, words := [] }

/-- The form of an RD: whole words, 1 to 64 of them, in one page (R394). -/
def rdForm (addr len : Nat) : Bool := addr % 8 == 0 && within 1 64 len && decide (addr % 4096 + 8 * len ≤ 4096)

/-- ADK_RD. -/
def execAdkRd (tag : BitVec 16) (addr : BitVec 48) (len : BitVec 16) (s : State) : Host.Outcome State Fault Refusal :=
  let q := rdFrame tag addr len.toNat
  .next (s.adkRequest q (rdForm addr.toNat len.toNat) (State.rdAny q))

/-- RC_READ: a read of TIM_LATE_FIRED, the one RC field, with the increments of its cycle. -/
def execRcRead (tag : BitVec 16) (incs : BitVec 32) (s : State) : Host.Outcome State Fault Refusal :=
  let q := { rdFrame tag (BitVec.ofNat 48 (timAddr 0x038)) 1 with cycle := incs.setWidth 64 }
  .next (s.adkRequest q true (State.rdAny q))

/-! ### LOGRD -/

/-- Words of the entries from a sequence number; an entry not held reads as zero. -/
def State.logWords (s : State) (seq n : Nat) : List (BitVec 64) :=
  (List.range n).flatMap (fun i => match s.logHeld ((seq + i) % 2 ^ 32) with
    | some e => e.words
    | none => List.replicate 4 0)

/-- Perform a LOGRD. Of an empty log the spec names no oldest entry: ADDR is a free value there (log 41). -/
def State.logAny (q : AdkFrame) (s : State) : State :=
  let ws := s.logWords (q.addr.toNat % 2 ^ 32) (q.len / 4)
  match s.log.entries with
  | e :: _ => s.adkReply q stOk (BitVec.ofNat 48 e.1) ws
  | [] =>
    let d := s.draw
    d.1.adkReply q stOk (BitVec.ofNat 48 ((Config.freeWord d.2).toNat % 2 ^ 32)) ws

/-- The form of a LOGRD (R394). -/
def logForm (addr len : Nat) : Bool := decide (addr < 2 ^ 32) && within 4 64 len && len % 4 == 0

/-- LOGRD. -/
def execLogrd (tag : BitVec 16) (addr : BitVec 48) (len : BitVec 16) (s : State) : Host.Outcome State Fault Refusal :=
  let q : AdkFrame := { ty := 4, status := 0, tag := tag, addr := addr, len := len.toNat, words := [] }
  .next (s.adkRequest q (logForm addr.toNat len.toNat) (State.logAny q))

/-! ### IMGWR (R398) -/

/-- Mark words of a staging area as written. -/
def markWords (t : Table Bool) (i n : Nat) : Table Bool := (List.range n).foldl (fun (t : Table Bool) k => Table.write false t (i + k) true) t

/-- The first `n` words of an area have been written. -/
def wordsIn (t : Table Bool) (n : Nat) : Bool := (t.filter (fun (e : Nat × Bool) => decide (e.1 < n))).length == n

/-- The length taken for the image area: IMG_LEN within 128 and 2^28, once bytes 0 to 127 have been written. -/
def State.imgLen (s : State) : Option Nat :=
  if wordsIn s.comp.imgWritten 16 then some (min (2 ^ 28) (max 128 (s.img 8 8))) else none

/-- The length taken for the firmware area: LEN + 2,420, at most 2^26, once bytes 0 to 15 have been written. -/
def State.fwTaken (s : State) : Option Nat :=
  if wordsIn s.sec.fwWritten 2 then some (min (2 ^ 26) (s.fwLen + 2420)) else none

/-- A write into the image staging area. -/
def State.imgPut (s : State) (off : Nat) (ws : List (BitVec 64)) : State × BitVec 6 :=
  let c := s.comp
  let limit := s.imgLen.getD (2 ^ 28)
  if c.stage = .staged ∨ c.stage = .valid ∨ s.imgBusy = true ∨ limit < off + 8 * ws.length then (s, stDenied)
  else
    let s := if c.stage = .empty then s.imgErr 0 0 else s
    let s := { s with comp := { s.comp with
      stage := .loading, staged := s.comp.staged.write off (wordBytes ws), imgWritten := markWords s.comp.imgWritten (off / 8) ws.length } }
    match s.imgLen with
    | some n => (if wordsIn s.comp.imgWritten ((n + 7) / 8) then { s with comp := { s.comp with stage := .staged } } else s, stOk)
    | none => (s, stOk)

/-- A write into the firmware staging area. -/
def State.fwPut (s : State) (off : Nat) (ws : List (BitVec 64)) : State × BitVec 6 :=
  let c := s.sec
  let limit := s.fwTaken.getD (2 ^ 26)
  if c.fwStage = .staged ∨ c.fwStage = .verified ∨ limit < off + 8 * ws.length then (s, stDenied)
  else
    let s := { s with sec := { s.sec with
      fwStage := .loading, fwBytes := s.sec.fwBytes.write off (wordBytes ws), fwWritten := markWords s.sec.fwWritten (off / 8) ws.length } }
    match s.fwTaken with
    | some n => (if wordsIn s.sec.fwWritten ((n + 7) / 8) then { s with sec := { s.sec with fwStage := .staged } } else s, stOk)
    | none => (s, stOk)

/-- Perform an IMGWR. -/
def State.imgAny (q : AdkFrame) (s : State) : State :=
  let off := q.addr.toNat % 2 ^ 28
  let r := if q.addr.getLsbD 47 then s.fwPut off q.words else s.imgPut off q.words
  r.1.adkReply q r.2 q.addr []

/-- The form of an IMGWR (R394). -/
def imgForm (addr len : Nat) : Bool := within 1 64 len && addr % 8 == 0 && decide (addr % 2 ^ 47 < 2 ^ 28)

/-- IMGWR. -/
def execImgwr (tag : BitVec 16) (addr : BitVec 48) (words : List (BitVec 64)) (s : State) : Host.Outcome State Fault Refusal :=
  let q : AdkFrame := { ty := 3, status := 0, tag := tag, addr := addr, len := words.length, words := words }
  .next (s.adkRequest q (imgForm addr.toNat words.length) (State.imgAny q))

/-! ### Accesses that answer later (R176, R343, R395, R396) -/

/-- Perform a request by its type. -/
def State.adkAny (q : AdkFrame) (s : State) : State :=
  if q.ty = 1 then s.rdAny q
  else if q.ty = 2 then s.wrAny q
  else if q.ty = 3 then s.imgAny q
  else s.logAny q

/-- A WR of MOD_CMD.WARM; the warm reset leaves no kept request. -/
def AdkFrame.warms (q : AdkFrame) : Bool := q.ty == 2 && q.addr.toNat == modCmdAddr && (q.words.headD 0).toNat % 8 == 4

/-- Perform requests in order, until one starts an access that answers later. A warm reset drops those behind it. -/
def State.adkRun : List AdkFrame → State → State
  | [], s => s
  | q :: rest, s =>
    let s := { s with adk := { s.adk with behind := rest.length } }
    let s := if q.bad then s.adkMalformed q else s.adkPerform q (State.adkAny q)
    let s := { s with adk := { s.adk with behind := 0 } }
    if q.warms && s.adk.kept.isEmpty then s
    else if s.adk.outstanding.isEmpty then State.adkRun rest s
    else { s with adk := { s.adk with outstanding := s.adk.outstanding ++ rest } }

/-- The access at the head of the requests has been answered: those that waited behind it are performed. -/
def State.adkResume (s : State) : State :=
  State.adkRun (s.adk.outstanding.drop 1) { s with adk := { s.adk with outstanding := [] } }

/-- PTW_ACCESS_COMPLETE: the code appears in TRN_CMD_RESULT, the data or all-ones in the answer. -/
def execPtwAccessComplete (s : State) : Host.Outcome State Fault Refusal :=
  .next (match s.xl.ptwDone, s.adk.outstanding with
    | some (tag, write, st, data), q :: _ =>
      if tag ≠ q.tag then s
      else
        let s := ({ s with xl := { s.xl with ptwDone := none, ptwData := if write then s.xl.ptwData else data } }).trnResult st
        let s := if st ≠ stOk then s.adkFail q st
          else if write then s.adkReply q stOk q.addr []
          else s.rdReply q
        s.adkResume
    | _, _ => s)

/-- MAKE_ROOM: the next make_room procedure takes its step. Once the one that an ASSIGN waits for has run, the ASSIGN is performed and
answered (R148, R275). -/
def execMakeRoom (s : State) : Host.Outcome State Fault Refusal :=
  .next (
    if !s.alive then s
    else
      let x := s.makeRoomStep
      match x.2, x.1.adk.outstanding with
      | some made, q :: _ =>
        if !x.1.ext.waiting then x.1
        else
          let e := bits (q.words.headD 0).toNat 24 4
          let t : State := { x.1 with ext := { x.1.ext with waiting := false } }
          let r := if made then t.extAssign e true else (t, none)
          let st := r.2.getD stDenied
          ((r.1.extResult e st).adkReply q st q.addr []).adkResume
      | _, _ => x.1)

/-- DEBUG_READ_COMPLETE. -/
def execDebugReadComplete (s : State) : Host.Outcome State Fault Refusal :=
  .next (match s.sec.dbgDone, s.adk.outstanding with
    | some (tag, st, line), q :: _ =>
      if tag ≠ q.tag then s
      else
        let s := ({ s with sec := { s.sec with dbgDone := none } }).dbgResult st line
        (s.adkReply q st q.addr []).adkResume
    | _, _ => s)

end Sys2Proof.Machine
end

