-- ==== Sys2Proof/Machine/Recompose.lean ====
section
/-! DEFINITION. What composition commands lead to: the end of a validation, LOAD, the steps of a recomposition, epoch notes,
the handover of sectors, and the rollback of handoff records (R307 to R324, R376). -/

namespace Sys2Proof.Machine

/-! ### Validation (R306, R307) -/

/-- The composition that the staged image would give, in force as far as the ranges of POLICY records refer to it (R427). -/
def State.asCandidate (s : State) : State := { s with comp := { s.comp with run := s.candidate } }

/-- Every POLICY record of the staged image passes check 0x14 (R427). -/
def State.imgPolicyOk (s : State) : Bool := s.imgPolicy.all s.asCandidate.policyOk

/-- IMAGE_VALIDATION_DONE: the image is VALID and ERR clears, or it stays STAGED with ERR and ERR_SECT set. -/
def execImageValidationDone (s : State) : Host.Outcome State Fault Refusal :=
  .next (
    if !s.sd0Runs || !s.comp.validating then s
    else
      let r := s.imgError s.imgPolicyOk
      let s := { s with comp := { s.comp with validating := false } }
      match r with
      | some e => s.imgErr e.1 e.2
      | none => ({ s with comp := { s.comp with stage := .valid } }).imgErr 0 0)

/-! ### LOAD (R306, R309, R376) -/

/-- The composition of the staged full image, with nothing left of the one before. -/
def State.loadedComp (s : State) (epoch : BitVec 4) : Composition :=
  { s.comp with
    loading := false, module := BitVec.ofNat 5 (s.img 7 1), digest := s.imgDigest, epoch := epoch, state := .idle, byNote := false
    old := [], shadow := [], evac := [], flipAt := none }

/-- LOAD_COMPLETE: in BOOT the device moves to TEST, and its work starts with the POLICY records; then the ports train. -/
def execLoadComplete (s : State) : Host.Outcome State Fault Refusal :=
  .next (
    if !s.sd0Runs || !s.comp.loading then s
    else if s.mod.state ≠ .boot ∧ s.mod.state ≠ .recovery then { s with comp := { s.comp with loading := false } }
    else
      let boot := s.mod.state == .boot
      let c := s.candidate
      let gates := s.imgGates
      let pol := s.imgPolicy
      let s := s.abortAgentMoves s.comp.run c
      let s := ({ s with comp := s.loadedComp (if boot then 0 else s.comp.epoch + 1) }).countCmpo 0
      let s := s.govern c gates
      let s := if boot then
          let t := s.changeState .test 0x41 0
          { t with mod := { t.mod with testWork := 0, perst := 0 } }
        else s
      ((State.policyApply pol s).trainAll (List.range 256)).imgEmpty)

/-! ### Epoch notes (R84, R312, R316) -/

/-- An EPOCH.NOTE (Table 03-14). -/
def State.epochFrame (s : State) (phase : BitVec 8) : Frame :=
  { opcode := 0x63, dst := 0xFFFF, src := s.selfUnit, vc := 6, epoch := s.comp.epoch, length := 1,
    payload := [s.comp.epoch.setWidth 8, s.comp.oldEpoch.setWidth 8, phase] ++ fill 5 0 ++ leBytes 8 s.comp.winEnd ++ fill 48 0 }

/-- An EPOCH.NOTE on every OPEN A and S port but one. -/
def State.epochNotes (s : State) (phase : BitVec 8) (but : Option Nat) : State :=
  ((List.range 256).filter (fun p => s.base p == p && (s.link p).state == .opened && ((s.link p).cls == 0 || (s.link p).cls == 2)
    && some p != but)).foldl (fun (s : State) p => s.sendFrom sd0Site p none { frame := s.epochFrame phase }) s

/-- The event of a window that opens or closes (code 0x52). -/
def State.windowEvent (s : State) (phase : Nat) (new old : BitVec 4) : State :=
  s.event 0x52 phase srcModule (new.toNat + 256 * old.toNat)

/-- An EPOCH.NOTE from an S peer (R316). A window counts as open while the module's own is, or one that a note opened. -/
def State.epochNote (s : State) (b : Nat) (f : Frame) : State :=
  let new := BitVec.ofNat 4 (field f.payload 0 1)
  let open_ := s.comp.state == .window || s.comp.byNote
  if (s.link b).cls ≠ 2 ∨ (s.link b).state ≠ .opened ∨ field f.payload 2 1 ≠ 1 ∨ new = s.comp.epoch then s
  else if new = s.comp.epoch + 1 ∧ open_ = false then
    let st := if s.comp.state = .idle then .window else s.comp.state
    let s := { s with comp := { s.comp with
      oldEpoch := s.comp.epoch, epoch := new, byNote := true, state := st, winEnd := field f.payload 8 8 } }
    (s.epochNotes 1 (some b)).windowEvent 1 new s.comp.oldEpoch
  else s.windowEvent 1 new (BitVec.ofNat 4 (field f.payload 1 1))

/-- EPOCH.NOTE on a port. -/
def execEpochNote (port : BitVec 8) (frame : Frame) (s : State) : Host.Outcome State Fault Refusal :=
  .next (s.arrive port.toNat { frame with opcode := 0x63 } (fun s b f => s.epochNote b f))

/-! ### APPLY (R310 to R312, R314, R319) -/

/-- Cores whose CORE record or program a delta changes. -/
def changedCores (a b : List Section) : List Nat := (List.range 1024).filter (coreChanged a b)

/-- Programs of a composition that run on a changed core. -/
def changedPrograms (a b : List Section) : List Section :=
  (programs b).filter (fun x => (progCores x).any (coreChanged a b))

/-- APPLY_PREPARED: while work that the delta would make invalid goes on, the next step that ends it is taken. Once it has ended, text and data are loaded, the shadow tables are on every die, and FLIP_FT and WINDOW_END
are fixed (R311 step 5, R312 steps 1 and 2). -/
def execApplyPrepared (s : State) : Host.Outcome State Fault Refusal :=
  .next (
    let c := s.candidate
    if !s.sd0Runs || s.mod.state != .service || s.comp.state != .preparing || s.comp.flipAt.isSome then s
    else if !s.workEnded c then s.endWork c
    else
      let s := (changedPrograms s.comp.run c).foldl State.loadProgram s
      let flip := (s.now + 100 * usT + 63) / 64 * 64
      { s with comp := { s.comp with shadow := c, flipAt := some flip, winEnd := flip + s.comp.windowUs.toNat * usT } })

/-- Blocks that T0 holds, or that a request accepted at their home has still to touch. -/
def State.blocksInUse (s : State) : List Nat :=
  (s.tier.sectors.map (·.1) ++ (s.req.reqs.filter (fun r => r.counted.isSome)).flatMap Req.blocks).dedup

/-- The home slice of a block changes between two compositions. -/
def State.blockMoves (s : State) (a b : List Section) (block : Nat) : Bool :=
  homeSlice a (s.blockExtent block).pv.toNat block != homeSlice b (s.blockExtent block).pv.toNat block

/-- Timers of handoff lines whose block has moved run again with the full limit (R322). -/
def State.hofRearm (s : State) (a b : List Section) : State :=
  let f := fun (_ : Nat) (h : Hof) =>
    if h.timer.isSome && s.blockMoves a b (h.line.toNat / 32) then { h with timer := some (s.now + h.limitMs.toNat * msT) } else h
  { s with comp := { s.comp with hofs := Table.mapAll {} f s.comp.hofs } }

/-- EPOCH_FLIP: the new epoch is stamped and the new tables govern, ownership of blocks passes, the digest is set, the POLICY
records are written, and the notes go out (R312 steps 3 to 5, R314, R427). -/
def execEpochFlip (s : State) : Host.Outcome State Fault Refusal :=
  .next (
    match s.comp.flipAt with
    | none => s
    | some t =>
      if !s.alive || s.comp.state != .preparing || decide (s.now < t) then s
      else
        let a := s.comp.run
        let c := s.comp.shadow
        let gates := s.imgGates
        let pol := s.imgPolicy
        let chg := s.portsChanged c
        let s := s.abortAgentMoves a c
        let evac := (s.comp.evac ++ s.blocksInUse.filter (s.blockMoves a c)).dedup
        let s := (s.hofRearm a c).countCmpo 0
        let s := { s with comp := { s.comp with
          old := a, oldEpoch := s.comp.epoch, epoch := s.comp.epoch + 1, state := .window, byNote := false, flipAt := none
          digest := s.imgDigest, evac := evac } }
        let s := (State.policyApply pol (s.govern c gates)).trainAll chg
        (s.epochNotes 1 none).windowEvent 1 s.comp.epoch s.comp.oldEpoch)

/-- WINDOW_CLOSE: the old tables drop and the old epoch retires. After an APPLY the stopped threads of changed cores start, and
the staging area is EMPTY (R306, R312 steps 6 and 7, R319). -/
def execWindowClose (s : State) : Host.Outcome State Fault Refusal :=
  .next (
    let own := s.comp.state == .window && !s.comp.byNote
    if !s.alive || !(own || s.comp.byNote) || decide (s.now < s.comp.winEnd) then s
    else
      let a := s.comp.old
      let s := { s with comp := { s.comp with
        old := [], shadow := [], byNote := false, state := if s.comp.state = .window then .idle else s.comp.state } }
      let s := if !own then s
        else
          let us := (s.now - s.comp.applyAt) / usT
          let t := ({ s with comp := { s.comp with lastUs := BitVec.ofNat 16 (min 0xFFFF us) } }).imgEmpty
          if t.mod.state ≠ .service then t
          else (programs t.comp.run).foldl (fun (t : State) x => t.startThreads (coreChanged a t.comp.run) x) t
      (s.epochNotes 2 none).windowEvent 2 s.comp.epoch s.comp.oldEpoch)

/-! ### Handover of sectors (R314) -/

/-- The new home takes a block's sector; false where no way of its set can be made. -/
def State.pullSector (s : State) (b : Nat) : State × Bool :=
  let sec := s.sector b
  let r := (s.setSector b { sec with valid := 0 }).makeWay b
  let g := (r.1.groupOf b).getD 0
  let sl := r.1.sliceOf b
  if r.2 then (r.1.setSector b { sec with group := g, slice := sl, way := r.1.freeWay (sl / 16) g b }, true)
  else (r.1.setSector b sec, false)

/-- The old home evacuates a block: a clean sector is dropped, a dirty one written back first; false where that must wait. -/
def State.evacuateSector (s : State) (b : Nat) : State × Bool :=
  let pg := s.page (pageOfBlock b)
  if (s.sector b).dirty = 0 then (s.dropSector b, true)
  else if pg.res = 0 ∨ pg.res = 3 ∨ s.trayUp pg.tray.toNat = false then (s, false)
  else if !s.readyForWriteBack b then (s.startZero (pageOfBlock b), false)
  else ((s.writeBack b).dropSector b, true)

/-- SECTOR_HANDOVER: once every request that the old home accepted for the block has been performed, the sector passes to the
new home if a request waits there for it, or its page has no slot to be written to; else it is evacuated. -/
def execSectorHandover (block : BitVec 45) (s : State) : Host.Outcome State Fault Refusal :=
  .next (
    let b := block.toNat
    let here := s.req.reqs.any (fun r => s.beforeFlip r && r.blocks.contains b)
    if !s.alive || !s.awayBlock b || here || s.trayBusy (.fill b) || s.slotBusy b then s
    else
      let asked := s.req.reqs.any (fun r => r.stage == .pulling && r.blocks.contains b)
      let pg := s.page (pageOfBlock b)
      let r := if (s.sector b).valid = 0 then (s, true)
        else if asked || pg.res == 0 || pg.res == 3 then
          let p := s.pullSector b
          if p.2 then p else p.1.evacuateSector b
        else s.evacuateSector b
      if !r.2 then r.1
      else
        let t := { r.1 with comp := { r.1.comp with evac := r.1.comp.evac.filter (· != b) } }
        t.wakeBlock b)

/-! ### Rollback of a handoff record (R322) -/

/-- Registration `i` has no timer running. -/
def State.hofDisarm (s : State) (i : Nat) : State :=
  { s with comp := { s.comp with hofs := Table.write {} s.comp.hofs i { Table.read ({} : Hof) s.comp.hofs i with timer := none } } }

/-- A record rolled back: AT_SRC, SEQ + 1, REF 0, with SRC and DST kept (Table 13-9). -/
def rolledBack (l : List Byte) : List Byte :=
  l.take 4 ++ [1] ++ leBytes 3 (field l 5 3 + 1) ++ fill 8 0 ++ l.drop 16

/-- The CAS of an expired timer on a line that is valid at its home and held by no agent. A poisoned line, and a record that is
no longer in TRANSFER, is left alone. -/
def State.rollBack (s : State) (i line : Nat) : State :=
  let l := s.lineBytes line
  if s.linePoison line ∨ field l 4 1 ≠ 2 then s.hofDisarm i
  else
    let s := ((s.homeWrite line (rolledBack l)).hofDisarm i).countCmpo 3
    (s.logWith 0x55 0 srcModule (64 * line) 0x55 0 (64 * line)).wakeLine line

/-- HANDOFF_TIMER_EXPIRY: every holder of the line is snooped first, and the line brought into T0 (R99, R117, R322). -/
def execHandoffTimerExpiry (index : BitVec 10) (s : State) : Host.Outcome State Fault Refusal :=
  .next (
    let i := index.toNat
    let h : Hof := Table.read {} s.comp.hofs i
    let line := h.line.toNat
    let due := match h.timer with | some t => decide (t ≤ s.now) | none => false
    if !s.alive || !due || (s.extent (fpaExtent (64 * line))).state != .active || s.awayBlock (line / 32) || s.lineBusy line then s
    else
      let e := s.dirEntry line
      if e.state ≠ .i then
        let n := s.req.nextN
        (s.holders e).foldl (fun (s : State) a => s.snoop line a 0x50 (.req n)) { s with req := { s.req with nextN := n + 1 } }
      else if s.lineValid line then s.rollBack i line
      else if s.lostBlock (line / 32) || s.bareBlock (line / 32) then s.hofDisarm i
      else
        let r := s.seek s.req.nextN line
        if r.2 == Avail.ready && r.1.lineValid line then r.1.rollBack i line
        else { r.1 with req := { r.1.req with nextN := s.req.nextN + 1 } })

end Sys2Proof.Machine
end

