-- ==== Sys2Proof/Machine/Dispatch.lean ====
section
/-! DEFINITION. The dispatch of a command to its meaning, one arm per constructor. -/

namespace Sys2Proof.Machine

def exec (i : Instr) (s : State) : Host.Outcome State Fault Refusal :=
  match i with
  | .registerWrite tag addr value held => Sys2Proof.Machine.execRegisterWrite tag addr value held s
  | .rcRead tag incs => Sys2Proof.Machine.execRcRead tag incs s
  | .heartbeatSend => Sys2Proof.Machine.execHeartbeatSend s
  | .heartbeatReceive => Sys2Proof.Machine.execHeartbeatReceive s
  | .heartbeatReplyReceive => Sys2Proof.Machine.execHeartbeatReplyReceive s
  | .heartbeatTimeoutSd0 => Sys2Proof.Machine.execHeartbeatTimeoutSd0 s
  | .heartbeatTimeoutSd1 => Sys2Proof.Machine.execHeartbeatTimeoutSd1 s
  | .trellisHop site yx vc replays => Sys2Proof.Machine.execTrellisHop site yx vc replays s
  | .trellisRetrainTimeout edge => Sys2Proof.Machine.execTrellisRetrainTimeout edge s
  | .ftDistribute => Sys2Proof.Machine.execFtDistribute s
  | .rtCodeFrame sync markFt flags crc => Sys2Proof.Machine.execRtCodeFrame sync markFt flags crc s
  | .rtMarkEdge frac => Sys2Proof.Machine.execRtMarkEdge frac s
  | .markWindowExpiry => Sys2Proof.Machine.execMarkWindowExpiry s
  | .rtCodeAbsentTimeout => Sys2Proof.Machine.execRtCodeAbsentTimeout s
  | .rtRefLoss since => Sys2Proof.Machine.execRtRefLoss since s
  | .holdoverExpiry => Sys2Proof.Machine.execHoldoverExpiry s
  | .ftStallEnd => Sys2Proof.Machine.execFtStallEnd s
  | .timCtrlWrite tag value => Sys2Proof.Machine.execTimCtrlWrite tag value s
  | .gateCycleStart port => Sys2Proof.Machine.execGateCycleStart port s
  | .gateEntryAdvance port => Sys2Proof.Machine.execGateEntryAdvance port s
  | .collectiveAbortDeadline id => Sys2Proof.Machine.execCollectiveAbortDeadline id s
  | .leaseExpiry index => Sys2Proof.Machine.execLeaseExpiry index s
  | .scrubWindow hits => Sys2Proof.Machine.execScrubWindow hits s
  | .heatDecay => Sys2Proof.Machine.execHeatDecay s
  | .selfTestSlot => Sys2Proof.Machine.execSelfTestSlot s
  | .selfTestComplete cluster mismatch => Sys2Proof.Machine.execSelfTestComplete cluster mismatch s
  | .marginScan items held => Sys2Proof.Machine.execMarginScan items held s
  | .belvedereSample port queue => Sys2Proof.Machine.execBelvedereSample port queue s
  | .signalPresent port => Sys2Proof.Machine.execSignalPresent port s
  | .lossOfSignal port lock => Sys2Proof.Machine.execLossOfSignal port lock s
  | .trainingComplete port => Sys2Proof.Machine.execTrainingComplete port s
  | .trainingAttemptTimeout port => Sys2Proof.Machine.execTrainingAttemptTimeout port s
  | .lcwNormal port word => Sys2Proof.Machine.execLcwNormal port word s
  | .lcwNak port word => Sys2Proof.Machine.execLcwNak port word s
  | .lcwInit port word => Sys2Proof.Machine.execLcwInit port word s
  | .lcwSendTimer port => Sys2Proof.Machine.execLcwSendTimer port s
  | .replayTimeout port => Sys2Proof.Machine.execReplayTimeout port s
  | .frameLinkReject port frame lseq crc fec => Sys2Proof.Machine.execFrameLinkReject port frame lseq crc fec s
  | .hcrcDiscard port frame hcrc => Sys2Proof.Machine.execHcrcDiscard port frame hcrc s
  | .bundleSkewTimeout port => Sys2Proof.Machine.execBundleSkewTimeout port s
  | .hello port frame => Sys2Proof.Machine.execHello port frame s
  | .helloPeriodTimer port => Sys2Proof.Machine.execHelloPeriodTimer port s
  | .helloSilenceTimeout port => Sys2Proof.Machine.execHelloSilenceTimeout port s
  | .prtPeerRetrain tag port => Sys2Proof.Machine.execPrtPeerRetrain tag port s
  | .prtPeerAck tag port => Sys2Proof.Machine.execPrtPeerAck tag port s
  | .egressFrameStart port => Sys2Proof.Machine.execEgressFrameStart port s
  | .ld port frame hits => Sys2Proof.Machine.execLd port frame hits s
  | .ldPeek port frame => Sys2Proof.Machine.execLdPeek port frame s
  | .st port frame hits => Sys2Proof.Machine.execSt port frame hits s
  | .stPush port frame => Sys2Proof.Machine.execStPush port frame s
  | .stMask port frame => Sys2Proof.Machine.execStMask port frame s
  | .fence port frame => Sys2Proof.Machine.execFence port frame s
  | .sbRd port frame => Sys2Proof.Machine.execSbRd port frame s
  | .sbWr port frame => Sys2Proof.Machine.execSbWr port frame s
  | .rspData port frame => Sys2Proof.Machine.execRspData port frame s
  | .rspCmp port frame => Sys2Proof.Machine.execRspCmp port frame s
  | .sbData port frame => Sys2Proof.Machine.execSbData port frame s
  | .atAdd port frame => Sys2Proof.Machine.execAtAdd port frame s
  | .atMin port frame => Sys2Proof.Machine.execAtMin port frame s
  | .atMax port frame => Sys2Proof.Machine.execAtMax port frame s
  | .atCas port frame => Sys2Proof.Machine.execAtCas port frame s
  | .apAdd port frame => Sys2Proof.Machine.execApAdd port frame s
  | .apMin port frame => Sys2Proof.Machine.execApMin port frame s
  | .apMax port frame => Sys2Proof.Machine.execApMax port frame s
  | .apCas port frame => Sys2Proof.Machine.execApCas port frame s
  | .cRdS port frame => Sys2Proof.Machine.execCRdS port frame s
  | .cRdO port frame => Sys2Proof.Machine.execCRdO port frame s
  | .cUpg port frame => Sys2Proof.Machine.execCUpg port frame s
  | .cWb port frame => Sys2Proof.Machine.execCWb port frame s
  | .cEvict port frame => Sys2Proof.Machine.execCEvict port frame s
  | .snpInv port frame => Sys2Proof.Machine.execSnpInv port frame s
  | .snpShr port frame => Sys2Proof.Machine.execSnpShr port frame s
  | .snpBinv port frame => Sys2Proof.Machine.execSnpBinv port frame s
  | .cData port frame => Sys2Proof.Machine.execCData port frame s
  | .cGnt port frame => Sys2Proof.Machine.execCGnt port frame s
  | .snpAck port frame => Sys2Proof.Machine.execSnpAck port frame s
  | .snpData port frame => Sys2Proof.Machine.execSnpData port frame s
  | .leaseRenew port frame => Sys2Proof.Machine.execLeaseRenew port frame s
  | .epochNote port frame => Sys2Proof.Machine.execEpochNote port frame s
  | .faultRec port frame => Sys2Proof.Machine.execFaultRec port frame s
  | .domNote port frame => Sys2Proof.Machine.execDomNote port frame s
  | .collOpen port frame => Sys2Proof.Machine.execCollOpen port frame s
  | .collContrib port frame => Sys2Proof.Machine.execCollContrib port frame s
  | .collResult port frame => Sys2Proof.Machine.execCollResult port frame s
  | .collGrant port frame => Sys2Proof.Machine.execCollGrant port frame s
  | .collDone port frame => Sys2Proof.Machine.execCollDone port frame s
  | .abort port frame => Sys2Proof.Machine.execAbort port frame s
  | .atnDecode port frame => Sys2Proof.Machine.execAtnDecode port frame s
  | .atnBind port frame => Sys2Proof.Machine.execAtnBind port frame s
  | .atnRelease port frame => Sys2Proof.Machine.execAtnRelease port frame s
  | .atnResult port frame => Sys2Proof.Machine.execAtnResult port frame s
  | .atnSub port frame => Sys2Proof.Machine.execAtnSub port frame s
  | .atnPart port frame => Sys2Proof.Machine.execAtnPart port frame s
  | .storeRelease n => Sys2Proof.Machine.execStoreRelease n s
  | .fenceComplete n => Sys2Proof.Machine.execFenceComplete n s
  | .implicitFenceRelease n => Sys2Proof.Machine.execImplicitFenceRelease n s
  | .targetLimitExpiry port => Sys2Proof.Machine.execTargetLimitExpiry port s
  | .requestTimerExpiry n => Sys2Proof.Machine.execRequestTimerExpiry n s
  | .backstopTimerExpiry n => Sys2Proof.Machine.execBackstopTimerExpiry n s
  | .snoopTimerExpiry line agent => Sys2Proof.Machine.execSnoopTimerExpiry line agent s
  | .cinchExpiry line agent => Sys2Proof.Machine.execCinchExpiry line agent s
  | .flushWindowEnd dom => Sys2Proof.Machine.execFlushWindowEnd dom s
  | .cohDomEnable tag dom value => Sys2Proof.Machine.execCohDomEnable tag dom value s
  | .cohDomDisable tag dom value => Sys2Proof.Machine.execCohDomDisable tag dom value s
  | .cohDomDown tag dom => Sys2Proof.Machine.execCohDomDown tag dom s
  | .cohDomReform tag dom => Sys2Proof.Machine.execCohDomReform tag dom s
  | .cohMemberWrite tag dom j value => Sys2Proof.Machine.execCohMemberWrite tag dom j value s
  | .extAssign tag index => Sys2Proof.Machine.execExtAssign tag index s
  | .extSetattr tag index => Sys2Proof.Machine.execExtSetattr tag index s
  | .extRevoke tag index => Sys2Proof.Machine.execExtRevoke tag index s
  | .extRelease tag index => Sys2Proof.Machine.execExtRelease tag index s
  | .extScrub tag index => Sys2Proof.Machine.execExtScrub tag index s
  | .extentScrubComplete index => Sys2Proof.Machine.execExtentScrubComplete index s
  | .extentDrained index => Sys2Proof.Machine.execExtentDrained index s
  | .drainLimitExpiry index => Sys2Proof.Machine.execDrainLimitExpiry index s
  | .lseCreate tag => Sys2Proof.Machine.execLseCreate tag s
  | .lseDelete tag => Sys2Proof.Machine.execLseDelete tag s
  | .lseHandoff tag unit => Sys2Proof.Machine.execLseHandoff tag unit s
  | .lseExpire tag => Sys2Proof.Machine.execLseExpire tag s
  | .admAdmit tag => Sys2Proof.Machine.execAdmAdmit tag s
  | .admResize tag => Sys2Proof.Machine.execAdmResize tag s
  | .admRelease tag => Sys2Proof.Machine.execAdmRelease tag s
  | .bitmapRetryTimer port => Sys2Proof.Machine.execBitmapRetryTimer port s
  | .bridgeLinkActive b dev => Sys2Proof.Machine.execBridgeLinkActive b dev s
  | .bridgeLinkDown b => Sys2Proof.Machine.execBridgeLinkDown b s
  | .cxlCompletion b tag data poison => Sys2Proof.Machine.execCxlCompletion b tag data poison s
  | .cxlCompletionTimeout b tag => Sys2Proof.Machine.execCxlCompletionTimeout b tag s
  | .cxlMediaEvent b lines => Sys2Proof.Machine.execCxlMediaEvent b lines s
  | .trayRetire tag => Sys2Proof.Machine.execTrayRetire tag s
  | .trayEvacuate tag => Sys2Proof.Machine.execTrayEvacuate tag s
  | .evacuateComplete tray => Sys2Proof.Machine.execEvacuateComplete tray s
  | .traySanitize tag => Sys2Proof.Machine.execTraySanitize tag s
  | .tpSetpin tag pin => Sys2Proof.Machine.execTpSetpin tag pin s
  | .tpRelocate tag => Sys2Proof.Machine.execTpRelocate tag s
  | .moveStart page => Sys2Proof.Machine.execMoveStart page s
  | .moveComplete page => Sys2Proof.Machine.execMoveComplete page s
  | .pavilionWarm pv => Sys2Proof.Machine.execPavilionWarm pv s
  | .walkReadComplete walk => Sys2Proof.Machine.execWalkReadComplete walk s
  | .kvRestore n => Sys2Proof.Machine.execKvRestore n s
  | .restoreRoomTimeout n => Sys2Proof.Machine.execRestoreRoomTimeout n s
  | .makeRoom => Sys2Proof.Machine.execMakeRoom s
  | .trnInvGo tag => Sys2Proof.Machine.execTrnInvGo tag s
  | .invalidationComplete => Sys2Proof.Machine.execInvalidationComplete s
  | .ptwRead tag => Sys2Proof.Machine.execPtwRead tag s
  | .ptwWrite tag value => Sys2Proof.Machine.execPtwWrite tag value s
  | .ptwAccessComplete => Sys2Proof.Machine.execPtwAccessComplete s
  | .nop core tid ins => Sys2Proof.Machine.execNop core tid ins s
  | .alu core tid ins => Sys2Proof.Machine.execAlu core tid ins s
  | .alui core tid ins => Sys2Proof.Machine.execAlui core tid ins s
  | .movi core tid ins => Sys2Proof.Machine.execMovi core tid ins s
  | .movhi core tid ins => Sys2Proof.Machine.execMovhi core tid ins s
  | .br core tid ins => Sys2Proof.Machine.execBr core tid ins s
  | .jal core tid ins => Sys2Proof.Machine.execJal core tid ins s
  | .gets core tid ins => Sys2Proof.Machine.execGets core tid ins s
  | .ldl core tid ins => Sys2Proof.Machine.execLdl core tid ins s
  | .stl core tid ins => Sys2Proof.Machine.execStl core tid ins s
  | .atl core tid ins => Sys2Proof.Machine.execAtl core tid ins s
  | .copyl core tid ins => Sys2Proof.Machine.execCopyl core tid ins s
  | .mxeIssue core tid ins => Sys2Proof.Machine.execMxeIssue core tid ins s
  | .veIssue core tid ins => Sys2Proof.Machine.execVeIssue core tid ins s
  | .gfeIssue core tid ins => Sys2Proof.Machine.execGfeIssue core tid ins s
  | .pldx core tid ins => Sys2Proof.Machine.execPldx core tid ins s
  | .pstx core tid ins => Sys2Proof.Machine.execPstx core tid ins s
  | .pld core tid ins => Sys2Proof.Machine.execPld core tid ins s
  | .pst core tid ins => Sys2Proof.Machine.execPst core tid ins s
  | .patm core tid ins => Sys2Proof.Machine.execPatm core tid ins s
  | .coreFence core tid ins => Sys2Proof.Machine.execCoreFence core tid ins s
  | .acquire core tid ins => Sys2Proof.Machine.execAcquire core tid ins s
  | .send core tid ins => Sys2Proof.Machine.execSend core tid ins s
  | .bar core tid ins => Sys2Proof.Machine.execBar core tid ins s
  | .waitl core tid ins => Sys2Proof.Machine.execWaitl core tid ins s
  | .waitlTimeout core tid => Sys2Proof.Machine.execWaitlTimeout core tid s
  | .waite core tid ins => Sys2Proof.Machine.execWaite core tid ins s
  | .waitm core tid ins => Sys2Proof.Machine.execWaitm core tid ins s
  | .threadHalt core tid ins => Sys2Proof.Machine.execThreadHalt core tid ins s
  | .tpref core tid ins => Sys2Proof.Machine.execTpref core tid ins s
  | .tinv core tid ins => Sys2Proof.Machine.execTinv core tid ins s
  | .illegalInstruction core tid word => Sys2Proof.Machine.execIllegalInstruction core tid word s
  | .corePoolCompletion core tid n => Sys2Proof.Machine.execCorePoolCompletion core tid n s
  | .mxeMma core => Sys2Proof.Machine.execMxeMma core s
  | .mxeZero core => Sys2Proof.Machine.execMxeZero core s
  | .mxeStore core => Sys2Proof.Machine.execMxeStore core s
  | .mxeLoad core => Sys2Proof.Machine.execMxeLoad core s
  | .veAdd core ve => Sys2Proof.Machine.execVeAdd core ve s
  | .veSub core ve => Sys2Proof.Machine.execVeSub core ve s
  | .veMul core ve => Sys2Proof.Machine.execVeMul core ve s
  | .veFma core ve => Sys2Proof.Machine.execVeFma core ve s
  | .veMax core ve => Sys2Proof.Machine.execVeMax core ve s
  | .veMin core ve => Sys2Proof.Machine.execVeMin core ve s
  | .veCvt core ve => Sys2Proof.Machine.execVeCvt core ve s
  | .veExp2 core ve => Sys2Proof.Machine.execVeExp2 core ve s
  | .veLog2 core ve => Sys2Proof.Machine.execVeLog2 core ve s
  | .veRcp core ve => Sys2Proof.Machine.execVeRcp core ve s
  | .veRsqrt core ve => Sys2Proof.Machine.execVeRsqrt core ve s
  | .veRsum core ve => Sys2Proof.Machine.execVeRsum core ve s
  | .veRmax core ve => Sys2Proof.Machine.execVeRmax core ve s
  | .gfeGather core => Sys2Proof.Machine.execGfeGather core s
  | .gfeScatter core => Sys2Proof.Machine.execGfeScatter core s
  | .gfeFilter core => Sys2Proof.Machine.execGfeFilter core s
  | .gfeTopk core => Sys2Proof.Machine.execGfeTopk core s
  | .engineInvalidDescriptor core engine => Sys2Proof.Machine.execEngineInvalidDescriptor core engine s
  | .engineCommandComplete core engine => Sys2Proof.Machine.execEngineCommandComplete core engine s
  | .shadowCompare core engine differ => Sys2Proof.Machine.execShadowCompare core engine differ s
  | .majorityVote core engine vote => Sys2Proof.Machine.execMajorityVote core engine vote s
  | .clvBindEnable tag value => Sys2Proof.Machine.execClvBindEnable tag value s
  | .clvBindDisable tag value => Sys2Proof.Machine.execClvBindDisable tag value s
  | .clvCmdAbort tag => Sys2Proof.Machine.execClvCmdAbort tag s
  | .clvGrpMemberWrite tag j value => Sys2Proof.Machine.execClvGrpMemberWrite tag j value s
  | .heldOpenRetry n => Sys2Proof.Machine.execHeldOpenRetry n s
  | .chunkSlotsFreed id who chunk => Sys2Proof.Machine.execChunkSlotsFreed id who chunk s
  | .collectiveCommit id => Sys2Proof.Machine.execCollectiveCommit id s
  | .abortComplete id => Sys2Proof.Machine.execAbortComplete id s
  | .atnCmdRelease tag handle => Sys2Proof.Machine.execAtnCmdRelease tag handle s
  | .handleFreed handle => Sys2Proof.Machine.execHandleFreed handle s
  | .splitComplete decode split => Sys2Proof.Machine.execSplitComplete decode split s
  | .kvProbeComplete walk => Sys2Proof.Machine.execKvProbeComplete walk s
  | .decodeComplete decode => Sys2Proof.Machine.execDecodeComplete decode s
  | .gateCommit tag port value => Sys2Proof.Machine.execGateCommit tag port value s
  | .queShapeWrite tag port queue value => Sys2Proof.Machine.execQueShapeWrite tag port queue value s
  | .prtPshapeWrite tag port value => Sys2Proof.Machine.execPrtPshapeWrite tag port value s
  | .prtBrdWrite tag port burst value => Sys2Proof.Machine.execPrtBrdWrite tag port burst value s
  | .rateLoopIncrease port => Sys2Proof.Machine.execRateLoopIncrease port s
  | .belvedereClear tag port queue value => Sys2Proof.Machine.execBelvedereClear tag port queue value s
  | .belvedereSnap tag port queue value => Sys2Proof.Machine.execBelvedereSnap tag port queue value s
  | .imgwr tag addr words => Sys2Proof.Machine.execImgwr tag addr words s
  | .cmpoValidate tag => Sys2Proof.Machine.execCmpoValidate tag s
  | .imageValidationDone => Sys2Proof.Machine.execImageValidationDone s
  | .cmpoLoad tag => Sys2Proof.Machine.execCmpoLoad tag s
  | .loadComplete => Sys2Proof.Machine.execLoadComplete s
  | .cmpoApply tag => Sys2Proof.Machine.execCmpoApply tag s
  | .applyPrepared => Sys2Proof.Machine.execApplyPrepared s
  | .epochFlip => Sys2Proof.Machine.execEpochFlip s
  | .sectorHandover block => Sys2Proof.Machine.execSectorHandover block s
  | .windowClose => Sys2Proof.Machine.execWindowClose s
  | .cmpoDiscard tag => Sys2Proof.Machine.execCmpoDiscard tag s
  | .handoffTimerExpiry index => Sys2Proof.Machine.execHandoffTimerExpiry index s
  | .tcActivate tag => Sys2Proof.Machine.execTcActivate tag s
  | .tcRetire tag => Sys2Proof.Machine.execTcRetire tag s
  | .teardownScrubStart tc => Sys2Proof.Machine.execTeardownScrubStart tc s
  | .teardownComplete tc => Sys2Proof.Machine.execTeardownComplete tc s
  | .tenantFree tc => Sys2Proof.Machine.execTenantFree tc s
  | .tcSetkey tag => Sys2Proof.Machine.execTcSetkey tag s
  | .secPkeyDataWrite tag value => Sys2Proof.Machine.execSecPkeyDataWrite tag value s
  | .instReq tag => Sys2Proof.Machine.execInstReq tag s
  | .instEnd tag => Sys2Proof.Machine.execInstEnd tag s
  | .installerWindowExpiry => Sys2Proof.Machine.execInstallerWindowExpiry s
  | .presBtnAssert since => Sys2Proof.Machine.execPresBtnAssert since s
  | .presBtnRelease since => Sys2Proof.Machine.execPresBtnRelease since s
  | .sealLoopOpen since => Sys2Proof.Machine.execSealLoopOpen since s
  | .debugRead tag => Sys2Proof.Machine.execDebugRead tag s
  | .debugReadComplete => Sys2Proof.Machine.execDebugReadComplete s
  | .fwVerify tag => Sys2Proof.Machine.execFwVerify tag s
  | .fwVerifyDone => Sys2Proof.Machine.execFwVerifyDone s
  | .fwCommit tag => Sys2Proof.Machine.execFwCommit tag s
  | .fwCommitDone ok => Sys2Proof.Machine.execFwCommitDone ok s
  | .fwRaiseMin tag => Sys2Proof.Machine.execFwRaiseMin tag s
  | .attReport tag => Sys2Proof.Machine.execAttReport tag s
  | .attIdkey tag => Sys2Proof.Machine.execAttIdkey tag s
  | .thermalSample site temp vdd => Sys2Proof.Machine.execThermalSample site temp vdd s
  | .thermalEscalate site => Sys2Proof.Machine.execThermalEscalate site s
  | .thermalLevelDecay site => Sys2Proof.Machine.execThermalLevelDecay site s
  | .auditSample disagree => Sys2Proof.Machine.execAuditSample disagree s
  | .logUnfence tag => Sys2Proof.Machine.execLogUnfence tag s
  | .logClear tag => Sys2Proof.Machine.execLogClear tag s
  | .recoveryStepDone => Sys2Proof.Machine.execRecoveryStepDone s
  | .modService tag => Sys2Proof.Machine.execModService tag s
  | .modDrain tag => Sys2Proof.Machine.execModDrain tag s
  | .drainStepComplete => Sys2Proof.Machine.execDrainStepComplete s
  | .modRecover tag => Sys2Proof.Machine.execModRecover tag s
  | .modWarm tag => Sys2Proof.Machine.execModWarm tag s
  | .bootStepComplete report => Sys2Proof.Machine.execBootStepComplete report s
  | .testStepComplete ok => Sys2Proof.Machine.execTestStepComplete ok s
  | .attnBtnPress since => Sys2Proof.Machine.execAttnBtnPress since s
  | .present1Assert => Sys2Proof.Machine.execPresent1Assert s
  | .prechargeComplete => Sys2Proof.Machine.execPrechargeComplete s
  | .present2Stable => Sys2Proof.Machine.execPresent2Stable s
  | .powerGood => Sys2Proof.Machine.execPowerGood s
  | .presentDeassert second => Sys2Proof.Machine.execPresentDeassert second s
  | .inputUndervoltage since => Sys2Proof.Machine.execInputUndervoltage since s
  | .inputOvercurrent => Sys2Proof.Machine.execInputOvercurrent s
  | .powerRemoved => Sys2Proof.Machine.execPowerRemoved s
  | .adkRd tag addr len => Sys2Proof.Machine.execAdkRd tag addr len s
  | .logrd tag addr len => Sys2Proof.Machine.execLogrd tag addr len s
  | .adkFrameReject btype words low crc => Sys2Proof.Machine.execAdkFrameReject btype words low crc s
  | .adkLinkctl word => Sys2Proof.Machine.execAdkLinkctl word s
  | .adkLinkctlTimer => Sys2Proof.Machine.execAdkLinkctlTimer s
  | .adkReplayTimeout => Sys2Proof.Machine.execAdkReplayTimeout s
  | .adkTrainingComplete => Sys2Proof.Machine.execAdkTrainingComplete s
  | .adkTrainingTimeout => Sys2Proof.Machine.execAdkTrainingTimeout s
  | .eventSend => Sys2Proof.Machine.execEventSend s
  | .spareProgram tag => Sys2Proof.Machine.execSpareProgram tag s
  | .makerModeWrite tag value => Sys2Proof.Machine.execMakerModeWrite tag value s
  | .powerCapCheck avgW => Sys2Proof.Machine.execPowerCapCheck avgW s
  | .sensorSample reading => Sys2Proof.Machine.execSensorSample reading s
  | .copylComplete core tid => Sys2Proof.Machine.execCopylComplete core tid s
  | .trellisEdgeRetrainDone edge => Sys2Proof.Machine.execTrellisEdgeRetrainDone edge s
  | .makerJmpChange fitted since => Sys2Proof.Machine.execMakerJmpChange fitted since s
  | .sealLoopClose since => Sys2Proof.Machine.execSealLoopClose since s
  | .adkLinkLoss => Sys2Proof.Machine.execAdkLinkLoss s

end Sys2Proof.Machine
end

