-- ==== Sys2Proof/Machine/Tick.lean ====
section
/-! DEFINITION. The passing of one slot of fabric time, which a step on an empty queue performs (log 1). -/

namespace Sys2Proof.Machine

/-- Slots of 4 ns in a millisecond. -/
def slotsPerMs : Nat := 250000

/-- The share of a correction of `e` sixteenths that falls in slot `n` of the millisecond over which it is spread (R41). -/
def slewShare (e : Int) (n : Nat) : Int := e * (n + 1) / slotsPerMs - e * n / slotsPerMs

/-- One slot of a unit that is not stalled: FT advances by 4 ns and the slot's share of the correction. -/
def Tim.slot (t : Tim) : Tim :=
  let n := t.slewSlot + 1
  { t with
    ft := t.ft + (64 + slewShare t.slew t.slewSlot).toNat
    slew := if n = slotsPerMs then 0 else t.slew
    slewSlot := if t.slew = 0 ∨ n = slotsPerMs then 0 else n }

/-- One slot of 4 ns passes: FT advances, except that in a stall the rack time that remains runs down first (R44); with no
power FT stands still. -/
def State.tick (s : State) : State :=
  if s.mod.state = .off then s
  else
    let t := s.tim
    { s with tim :=
        if t.stall ≤ 1 then t.slot
        else if t.stall ≤ 65 then { t with ft := t.ft + (65 - t.stall), stall := 1 }
        else { t with stall := t.stall - 64 } }

end Sys2Proof.Machine
end

