-- ==== Sys2Proof/WellFormed.lean ====
section
/-! DEFINITION. Commands that are well formed: their data has the shape that the links, dies and registers give it. A command
that is not well formed stands for nothing that can reach the block. -/

namespace Sys2Proof

/-- A frame carries a payload of whole 64-byte units, at most 64 of them (R64). -/
def Frame.wf (f : Frame) : Bool := f.payload.length % 64 == 0 && decide (f.payload.length ≤ 4096)

/-- A link control word has one of three types and a credit field for each virtual channel (Table 03-2). -/
def Lcw.wf (w : Lcw) : Bool := decide (w.typ.toNat ≤ 2) && decide (w.credits.length ≤ 8)

/-- A codeword in error has at least one symbol in error (R349). -/
def EccHit.wf (h : EccHit) : Bool := h.symbols != 0

/-- The bits of FN that the opcode gives no meaning are zero: a word in which one is set is an illegal instruction (R216, log 113),
which has a row of its own. `used` has the bits that mean something. -/
def insWf (used : Nat) (i : Ins) : Bool := decide (i.fn.toNat &&& (2047 - used) = 0)

/-- A trellis edge joins a site of the 8 x 8 trellis to the next column or the next row (R18). -/
def edgeWf (e : BitVec 8) : Bool :=
  let site := e.toNat / 2
  decide (site < 64) && (if e.toNat % 2 = 0 then decide (site % 8 < 7) else decide (site / 8 < 7))

/-- A memory response of a CXL tray carries whole lines, at most the 32 of a block (R157). -/
def linesWf (bs : List Byte) : Bool := bs.length % 64 == 0 && decide (bs.length ≤ 2048)

/-- A command is well formed. -/
def Instr.wf (i : Instr) : Bool :=
  match i with
  | .registerWrite _ _ _ _ => true
  | .rcRead _ _ => true
  | .heartbeatSend => true
  | .heartbeatReceive => true
  | .heartbeatReplyReceive => true
  | .heartbeatTimeoutSd0 => true
  | .heartbeatTimeoutSd1 => true
  | .trellisHop _ _ _ _ => true
  | .trellisRetrainTimeout edge => edgeWf edge
  | .ftDistribute => true
  | .rtCodeFrame _ _ _ _ => true
  | .rtMarkEdge _ => true
  | .markWindowExpiry => true
  | .rtCodeAbsentTimeout => true
  | .rtRefLoss _ => true
  | .holdoverExpiry => true
  | .ftStallEnd => true
  | .timCtrlWrite _ _ => true
  | .gateCycleStart _ => true
  | .gateEntryAdvance _ => true
  | .collectiveAbortDeadline _ => true
  | .leaseExpiry _ => true
  | .scrubWindow hits => hits.all EccHit.wf
  | .heatDecay => true
  | .selfTestSlot => true
  | .selfTestComplete _ _ => true
  | .marginScan _ _ => true
  | .belvedereSample _ _ => true
  | .signalPresent _ => true
  | .lossOfSignal _ _ => true
  | .trainingComplete _ => true
  | .trainingAttemptTimeout _ => true
  | .lcwNormal _ word => word.wf
  | .lcwNak _ word => word.wf
  | .lcwInit _ word => word.wf
  | .lcwSendTimer _ => true
  | .replayTimeout _ => true
  | .frameLinkReject _ frame _ _ _ => frame.wf
  | .hcrcDiscard _ frame _ => frame.wf
  | .bundleSkewTimeout _ => true
  | .hello _ frame => frame.wf
  | .helloPeriodTimer _ => true
  | .helloSilenceTimeout _ => true
  | .prtPeerRetrain _ _ => true
  | .prtPeerAck _ _ => true
  | .egressFrameStart _ => true
  | .ld _ frame hits => frame.wf && hits.all EccHit.wf
  | .ldPeek _ frame => frame.wf
  | .st _ frame hits => frame.wf && hits.all EccHit.wf
  | .stPush _ frame => frame.wf
  | .stMask _ frame => frame.wf
  | .fence _ frame => frame.wf
  | .sbRd _ frame => frame.wf
  | .sbWr _ frame => frame.wf
  | .rspData _ frame => frame.wf
  | .rspCmp _ frame => frame.wf
  | .sbData _ frame => frame.wf
  | .atAdd _ frame => frame.wf
  | .atMin _ frame => frame.wf
  | .atMax _ frame => frame.wf
  | .atCas _ frame => frame.wf
  | .apAdd _ frame => frame.wf
  | .apMin _ frame => frame.wf
  | .apMax _ frame => frame.wf
  | .apCas _ frame => frame.wf
  | .cRdS _ frame => frame.wf
  | .cRdO _ frame => frame.wf
  | .cUpg _ frame => frame.wf
  | .cWb _ frame => frame.wf
  | .cEvict _ frame => frame.wf
  | .snpInv _ frame => frame.wf
  | .snpShr _ frame => frame.wf
  | .snpBinv _ frame => frame.wf
  | .cData _ frame => frame.wf
  | .cGnt _ frame => frame.wf
  | .snpAck _ frame => frame.wf
  | .snpData _ frame => frame.wf
  | .leaseRenew _ frame => frame.wf
  | .epochNote _ frame => frame.wf
  | .faultRec _ frame => frame.wf
  | .domNote _ frame => frame.wf
  | .collOpen _ frame => frame.wf
  | .collContrib _ frame => frame.wf
  | .collResult _ frame => frame.wf
  | .collGrant _ frame => frame.wf
  | .collDone _ frame => frame.wf
  | .abort _ frame => frame.wf
  | .atnDecode _ frame => frame.wf
  | .atnBind _ frame => frame.wf
  | .atnRelease _ frame => frame.wf
  | .atnResult _ frame => frame.wf
  | .atnSub _ frame => frame.wf
  | .atnPart _ frame => frame.wf
  | .storeRelease _ => true
  | .fenceComplete _ => true
  | .implicitFenceRelease _ => true
  | .targetLimitExpiry _ => true
  | .requestTimerExpiry _ => true
  | .backstopTimerExpiry _ => true
  | .snoopTimerExpiry _ _ => true
  | .cinchExpiry _ _ => true
  | .flushWindowEnd _ => true
  | .cohDomEnable _ _ _ => true
  | .cohDomDisable _ _ _ => true
  | .cohDomDown _ _ => true
  | .cohDomReform _ _ => true
  | .cohMemberWrite _ _ _ _ => true
  | .extAssign _ _ => true
  | .extSetattr _ _ => true
  | .extRevoke _ _ => true
  | .extRelease _ _ => true
  | .extScrub _ _ => true
  | .extentScrubComplete _ => true
  | .extentDrained _ => true
  | .drainLimitExpiry _ => true
  | .lseCreate _ => true
  | .lseDelete _ => true
  | .lseHandoff _ _ => true
  | .lseExpire _ => true
  | .admAdmit _ => true
  | .admResize _ => true
  | .admRelease _ => true
  | .bitmapRetryTimer _ => true
  | .bridgeLinkActive _ _ => true
  | .bridgeLinkDown _ => true
  | .cxlCompletion _ _ data _ => linesWf data
  | .cxlCompletionTimeout _ _ => true
  | .cxlMediaEvent _ _ => true
  | .trayRetire _ => true
  | .trayEvacuate _ => true
  | .evacuateComplete _ => true
  | .traySanitize _ => true
  | .tpSetpin _ _ => true
  | .tpRelocate _ => true
  | .moveStart _ => true
  | .moveComplete _ => true
  | .pavilionWarm _ => true
  | .walkReadComplete _ => true
  | .kvRestore _ => true
  | .restoreRoomTimeout _ => true
  | .makeRoom => true
  | .trnInvGo _ => true
  | .invalidationComplete => true
  | .ptwRead _ => true
  | .ptwWrite _ _ => true
  | .ptwAccessComplete => true
  | .nop _ _ ins => insWf 0 ins
  | .alu _ _ ins => insWf 15 ins
  | .alui _ _ ins => insWf 15 ins
  | .movi _ _ ins => insWf 0 ins
  | .movhi _ _ ins => insWf 0 ins
  | .br _ _ ins => insWf 7 ins
  | .jal _ _ ins => insWf 0 ins
  | .gets _ _ ins => insWf 0 ins
  | .ldl _ _ ins => insWf 3 ins
  | .stl _ _ ins => insWf 3 ins
  | .atl _ _ ins => insWf 15 ins
  | .copyl _ _ ins => insWf 0 ins
  | .mxeIssue _ _ ins => insWf 0 ins
  | .veIssue _ _ ins => insWf 3 ins
  | .gfeIssue _ _ ins => insWf 0 ins
  | .pldx _ _ ins => insWf 1 ins
  | .pstx _ _ ins => insWf 0 ins
  | .pld _ _ ins => insWf 255 ins
  | .pst _ _ ins => insWf 1023 ins
  | .patm _ _ ins => insWf 63 ins
  | .coreFence _ _ ins => insWf 0 ins
  | .acquire _ _ ins => insWf 0 ins
  | .send _ _ ins => insWf 0 ins
  | .bar _ _ ins => insWf 0 ins
  | .waitl _ _ _ => true
  | .waitlTimeout _ _ => true
  | .waite _ _ ins => insWf 0 ins
  | .waitm _ _ ins => insWf 0 ins
  | .threadHalt _ _ ins => insWf 0 ins
  | .tpref _ _ ins => insWf 0 ins
  | .tinv _ _ ins => insWf 1 ins
  | .illegalInstruction _ _ _ => true
  | .corePoolCompletion _ _ _ => true
  | .mxeMma _ => true
  | .mxeZero _ => true
  | .mxeStore _ => true
  | .mxeLoad _ => true
  | .veAdd _ _ => true
  | .veSub _ _ => true
  | .veMul _ _ => true
  | .veFma _ _ => true
  | .veMax _ _ => true
  | .veMin _ _ => true
  | .veCvt _ _ => true
  | .veExp2 _ _ => true
  | .veLog2 _ _ => true
  | .veRcp _ _ => true
  | .veRsqrt _ _ => true
  | .veRsum _ _ => true
  | .veRmax _ _ => true
  | .gfeGather _ => true
  | .gfeScatter _ => true
  | .gfeFilter _ => true
  | .gfeTopk _ => true
  | .engineInvalidDescriptor _ _ => true
  | .engineCommandComplete _ _ => true
  | .shadowCompare _ _ _ => true
  | .majorityVote _ _ _ => true
  | .clvBindEnable _ _ => true
  | .clvBindDisable _ _ => true
  | .clvCmdAbort _ => true
  | .clvGrpMemberWrite _ _ _ => true
  | .heldOpenRetry _ => true
  | .chunkSlotsFreed _ _ _ => true
  | .collectiveCommit _ => true
  | .abortComplete _ => true
  | .atnCmdRelease _ _ => true
  | .handleFreed _ => true
  | .splitComplete _ _ => true
  | .kvProbeComplete _ => true
  | .decodeComplete _ => true
  | .gateCommit _ _ _ => true
  | .queShapeWrite _ _ _ _ => true
  | .prtPshapeWrite _ _ _ => true
  | .prtBrdWrite _ _ _ _ => true
  | .rateLoopIncrease _ => true
  | .belvedereClear _ _ _ _ => true
  | .belvedereSnap _ _ _ _ => true
  | .imgwr _ _ words => decide (words.length ≤ 64)
  | .cmpoValidate _ => true
  | .imageValidationDone => true
  | .cmpoLoad _ => true
  | .loadComplete => true
  | .cmpoApply _ => true
  | .applyPrepared => true
  | .epochFlip => true
  | .sectorHandover _ => true
  | .windowClose => true
  | .cmpoDiscard _ => true
  | .handoffTimerExpiry _ => true
  | .tcActivate _ => true
  | .tcRetire _ => true
  | .teardownScrubStart _ => true
  | .teardownComplete _ => true
  | .tenantFree _ => true
  | .tcSetkey _ => true
  | .secPkeyDataWrite _ _ => true
  | .instReq _ => true
  | .instEnd _ => true
  | .installerWindowExpiry => true
  | .presBtnAssert _ => true
  | .presBtnRelease _ => true
  | .sealLoopOpen _ => true
  | .debugRead _ => true
  | .debugReadComplete => true
  | .fwVerify _ => true
  | .fwVerifyDone => true
  | .fwCommit _ => true
  | .fwCommitDone _ => true
  | .fwRaiseMin _ => true
  | .attReport _ => true
  | .attIdkey _ => true
  | .thermalSample _ _ _ => true
  | .thermalEscalate _ => true
  | .thermalLevelDecay _ => true
  | .auditSample _ => true
  | .logUnfence _ => true
  | .logClear _ => true
  | .recoveryStepDone => true
  | .modService _ => true
  | .modDrain _ => true
  | .drainStepComplete => true
  | .modRecover _ => true
  | .modWarm _ => true
  | .bootStepComplete _ => true
  | .testStepComplete _ => true
  | .attnBtnPress _ => true
  | .present1Assert => true
  | .prechargeComplete => true
  | .present2Stable => true
  | .powerGood => true
  | .presentDeassert _ => true
  | .inputUndervoltage _ => true
  | .inputOvercurrent => true
  | .powerRemoved => true
  | .adkRd _ _ _ => true
  | .logrd _ _ _ => true
  | .adkFrameReject _ words _ _ => decide (words.length ≤ 66)
  | .adkLinkctl _ => true
  | .adkLinkctlTimer => true
  | .adkReplayTimeout => true
  | .adkTrainingComplete => true
  | .adkTrainingTimeout => true
  | .eventSend => true
  | .spareProgram _ => true
  | .makerModeWrite _ _ => true
  | .powerCapCheck _ => true
  | .sensorSample _ => true
  | .copylComplete _ _ => true
  | .trellisEdgeRetrainDone edge => edgeWf edge
  | .makerJmpChange _ _ => true
  | .sealLoopClose _ => true
  | .adkLinkLoss => true

end Sys2Proof
end

