-- ==== Sys2Proof/Safety.lean ====
section
/-! DEFINITION. The words in which claims are made: the parts of the state and what a command leaves alone, requests of the
adapter that are performed and answered, and the states whose queues and memories are in order. -/

namespace Sys2Proof.Machine

/-- The parts of the state, one for each field of it. -/
inductive Part where
  | pending | free | hb | pkg | tim | ports | bridles | req | coh | ext | lse | adm | tier | xl | cmp | cpu | clv | atn
  | comp | sec | log | mod | adk | evq | glb
  deriving DecidableEq, Repr

/-- Two states agree on a part. -/
def State.agrees (s t : State) : Part → Prop
  | .pending => t.pending = s.pending
  | .free => t.free = s.free
  | .hb => t.hb = s.hb
  | .pkg => t.pkg = s.pkg
  | .tim => t.tim = s.tim
  | .ports => t.ports = s.ports
  | .bridles => t.bridles = s.bridles
  | .req => t.req = s.req
  | .coh => t.coh = s.coh
  | .ext => t.ext = s.ext
  | .lse => t.lse = s.lse
  | .adm => t.adm = s.adm
  | .tier => t.tier = s.tier
  | .xl => t.xl = s.xl
  | .cmp => t.cmp = s.cmp
  | .cpu => t.cpu = s.cpu
  | .clv => t.clv = s.clv
  | .atn => t.atn = s.atn
  | .comp => t.comp = s.comp
  | .sec => t.sec = s.sec
  | .log => t.log = s.log
  | .mod => t.mod = s.mod
  | .adk => t.adk = s.adk
  | .evq => t.evq = s.evq
  | .glb => t.glb = s.glb

/-- From `s` to `t` nothing changes outside the parts listed: the frame of a command. -/
def State.changesOnly (s t : State) (ps : List Part) : Prop := ∀ p, p ∉ ps → s.agrees t p

/-- A request of the adapter is performed at once: the link is UP, the tag is one of 32, no access is in progress, SD0 serves
the request in the present state, and it repeats no request answered before a reset of the link (R392 to R397). -/
abbrev State.performs (s : State) (q : AdkFrame) : Prop :=
  s.adk.state = .up ∧ q.tag.toNat < 32 ∧ s.adk.outstanding = [] ∧ s.adkServes q = true
    ∧ (s.adk.fresh.getLsbD q.tag.toNat = false ∨ ∀ e ∈ s.adk.kept, e.1 ≠ q.tag.toNat)

/-- A write of the adapter is performed at once and its role is held (R342). -/
abbrev State.writes (s : State) (tag : BitVec 16) (addr : Nat) (value : BitVec 64) (r : Role) : Prop :=
  s.performs (wrFrame tag addr value) ∧ s.holdsRole r = true

/-- The last response of a tag carries a completion code. -/
abbrev State.responded (t : State) (tag : BitVec 16) (st : BitVec 6) : Prop :=
  ∃ e ∈ t.adk.kept, e.1 = tag.toNat ∧ e.2.2.tag = tag ∧ e.2.2.status = st

/-- The event queue holds at most 4,096 records (R403), the trouble log 16,384 entries (R364), the ADK link 64 unacknowledged
frames (R392), and the T0, scratchpad, cluster, staging, firmware and attestation memories are in canonical form (log 4). -/
structure Ordered (queue : List Event) (entries : List (Nat × LogEntry)) (unacked : List (BitVec 12 × AdkFrame))
    (t0 spad cmem staged firmware report : Memory) : Prop where
  events_le : queue.length ≤ 4096
  entries_le : entries.length ≤ 16384
  unacked_le : unacked.length ≤ 64
  t0_wf : t0.wf = true
  spad_wf : spad.wf = true
  cmem_wf : cmem.wf = true
  staged_wf : staged.wf = true
  firmware_wf : firmware.wf = true
  report_wf : report.wf = true

/-- The queues and memories of a state are in order. -/
def State.orderly (s : State) : Prop :=
  Ordered s.evq.queue s.log.entries s.adk.unacked s.tier.mem s.cpu.spad s.cpu.cmem s.comp.staged s.sec.fwBytes s.sec.attWin


/-- An outcome that is a next state is one whose queues and memories are in order. -/
def inOrder (o : Host.Outcome State Fault Refusal) : Prop := ∀ t, o = .next t → t.orderly

end Sys2Proof.Machine
end

