-- ==== Sys2Proof/Machine/Terms.lean ====
section
/-! DEFINITION. Further words for claims: a port of its own, a thread that issues, a frame that is taken at a port and reaches a
place of the memory, and what stays as it is. -/

namespace Sys2Proof.Machine

/-- A rim port that is in no bundle, in a module that runs: its own base, with one member. -/
abbrev State.plainPort (s : State) (p : Nat) : Prop :=
  s.alive = true ∧ (s.link p).bundleOff = 0 ∧ (s.link p).bundleSize = 0

/-- From `s` to `t` no rim port but `b` changes. -/
def State.otherPorts (s t : State) (b : Nat) : Prop := ∀ p, p ≠ b → t.port p = s.port p

/-- Nothing is under way: no request, no domain, no collective, no group and no decode. -/
abbrev State.quiet (s : State) : Prop :=
  s.req.reqs = [] ∧ s.coh.doms = [] ∧ s.clv.ids = [] ∧ s.clv.groups = [] ∧ s.atn.decodes = []

/-- A thread issues its next instruction: its core runs, it is READY, its program counter is in its program and no register it
reads has a load outstanding (R199, R200). -/
abbrev State.issues (s : State) (k t : Nat) (reads : List Nat) : Prop :=
  s.coreUp k = true ∧ (s.thread k t).state = .ready ∧ (s.thread k t).discard = false ∧ s.inSection k t = true
    ∧ ∀ r ∈ reads, r = 0 ∨ (s.thread k t).pend.getLsbD r = false

/-- The thread after an instruction that does no more than advance: the program counter is 8 on. -/
def State.advanced (s : State) (k t : Nat) : Thread := { s.thread k t with pc := (s.thread k t).pc + 8 }

/-- From `s` to `t` only thread `j` of core `k` changes: no other thread, no other core, no engine, no memory. -/
def State.threadOnly (s t : State) (k j : Nat) : Prop :=
  s.changesOnly t [.cpu] ∧ t.cpu.spad = s.cpu.spad ∧ t.cpu.cmem = s.cpu.cmem ∧ (∀ x, x ≠ k → t.core x = s.core x)
    ∧ (∀ i, i ≠ j → t.thread k i = s.thread k i) ∧ (t.core k).dcache = (s.core k).dcache ∧ (t.core k).tiles = (s.core k).tiles
    ∧ (t.core k).engines = (s.core k).engines ∧ (t.core k).comps = (s.core k).comps ∧ (t.core k).faultV = (s.core k).faultV

/-- The bytes stored at a local address of a core, and every other byte of the scratchpads and cluster memories as before. -/
def State.localStored (s t : State) (k a : Nat) (v : List Byte) : Prop :=
  match localAt k a with
  | some (true, x) => t.cpu.spad = s.cpu.spad ∧ t.cpu.cmem.bytes x v.length = v
      ∧ ∀ y, (y < x ∨ x + v.length ≤ y) → t.cpu.cmem.byte y = s.cpu.cmem.byte y
  | some (false, x) => t.cpu.cmem = s.cpu.cmem ∧ t.cpu.spad.bytes x v.length = v
      ∧ ∀ y, (y < x ∨ x + v.length ≤ y) → t.cpu.spad.byte y = s.cpu.spad.byte y
  | none => t.cpu.spad = s.cpu.spad ∧ t.cpu.cmem = s.cpu.cmem

/-- A thread is FAULTED, and its core's fault record holds the cause and the place (R224). -/
def State.faultedAt (s t : State) (k j cause : Nat) : Prop :=
  (t.thread k j).state = .faulted ∧ (t.thread k j).discard = true ∧ (t.core k).faultV = true
    ∧ ((s.core k).faultV = false → (t.core k).faultCause.toNat = cause ∧ (t.core k).faultTid.toNat = j
      ∧ (t.core k).faultPc = (s.thread k j).pc.setWidth 25)

/-- The descriptor of a command: 64 bytes of its core's local memory. -/
def State.descOf (s : State) (k : Nat) (c : EngCmd) : List Byte := s.localBytes k c.desc 64

/-- The head of an engine's queue waits to start, with no copy of a sampled command ahead of it (R225), and its descriptor, of
operation `op`, can be read (R217). -/
abbrev State.headWaits (s : State) (k e op : Nat) (c : EngCmd) (cs : List EngCmd) : Prop :=
  s.coreUp k = true ∧ (s.engine k e).queue = c :: cs ∧ c.phase = .queued ∧ (s.engine k e).testing = false
    ∧ s.copyWaits k e = false
    ∧ localOk s.comp.run k c.desc 64 false = true ∧ field (s.descOf k c) 0 1 = op

/-- The head has started with an outcome: its queue but for the head, the memories and tiles, the other threads and the registers
of its own are as they were (R217); a thread that waits for the start may go on. -/
abbrev State.started (s t : State) (k e : Nat) (c : EngCmd) (cs : List EngCmd) (o : EngOut) : Prop :=
  (t.engine k e).queue = { c with phase := .running, sampled := s.samples k e (s.descOf k c), out := o, rowsTodo := [] } :: cs
    ∧ (t.engine k e).started = ((s.engine k e).started + 1) % 2 ^ 24 ∧ t.cpu.spad = s.cpu.spad ∧ t.cpu.cmem = s.cpu.cmem
    ∧ (t.core k).tiles = (s.core k).tiles ∧ (∀ i, i ≠ c.tid → t.thread k i = s.thread k i)
    ∧ (t.thread k c.tid).x = (s.thread k c.tid).x ∧ (t.thread k c.tid).ecnt = (s.thread k c.tid).ecnt

/-- `n` binary32 elements of the local memory, as numbers. -/
def State.floats (s : State) (k a n : Nat) : List Num :=
  (unpackEls 0 (s.localBytes k a (4 * n)) n).map (fun x => to32 (f32 x))

/-- The elements of a tile, row by row, 32 to a row. -/
def tileOf (f : Nat → Nat → BitVec 32) : Table (BitVec 32) :=
  (List.range 512).foldl (fun m i => Table.write 0 m i (f (i / 32) (i % 32))) []

/-- A vector descriptor of `n` binary32 elements, no compressed operand, no rounding seed and no scalar, whose operands and
result lie in open local memory (R212). -/
abbrev State.vePlain (s : State) (k e op n : Nat) (d : List Byte) (desc : Nat) : Prop :=
  (s.core k).quar.getLsbD e = false ∧ localOk s.comp.run k desc 64 false = true ∧ d = s.localBytes k desc 64
    ∧ field d 0 1 = op ∧ field d 1 1 = 0 ∧ field d 2 1 = 0 ∧ field d 3 1 = 0 ∧ field d 4 4 = n ∧ 1 ≤ n ∧ n ≤ 0x1000000
    ∧ allZero (d.drop 36) = true ∧ localOk s.comp.run k (field d 8 4) (4 * n) false = true

/-- The frame as a port's link and header checks let it pass, or none where they drop or refuse it (chapter 03). -/
def State.takenAs (s : State) (p : Nat) (f : Frame) : Option Frame :=
  if (s.linkAccept p f.vc (creditCost f)).2 then
    match ((s.linkAccept p f.vc (creditCost f)).1.inspect (s.base p) f).2 with
    | .pass g => some g
    | _ => none
  else none

/-- The state after those checks. -/
def State.entered (s : State) (p : Nat) (f : Frame) : State := ((s.linkAccept p f.vc (creditCost f)).1.inspect (s.base p) f).1

/-- A queue of port `b` holds the frame, marked for congestion or not. -/
abbrev State.queuedOn (t : State) (b : Nat) (f : Frame) : Prop :=
  ∃ e ∈ (t.port b).tc.queues, ∃ x ∈ e.2.all, x.frame.clear flCe = f

/-- A request frame taken at port `b` reaches address `a` of an extent of this module that admits it, with nothing else under
way (chapters 04 and 06): its destination is a pavilion, its epoch is live, and `a` is what a PHYS frame carries or what the
port's translation buffer gives. -/
abbrev State.reaches (s : State) (b : Nat) (g : Frame) (a : Nat) : Prop :=
  s.req.reqs = [] ∧ s.comp.evac = [] ∧ s.comp.state ≠ .window ∧ (dstPavilion (s.tables g.epoch) g.dst).isSome = true
    ∧ fpaModule a = s.moduleNo ∧ s.epochLive g.epoch = true ∧ a < 2 ^ 56
    ∧ s.extCheck (s.tables g.epoch) g (.unit g.src) a = stOk
    ∧ (if g.has flPhys then g.addr.toNat = a
       else ((s.tlbFind (b / 16) g.tenant g.addr.toNat).map (fun e => (e.fpa + g.addr.toNat % 2 ^ e.size) % 2 ^ 56)) = some a
         ∧ (Sys2Proof.Machine.writes g.opcode = true → ((s.tlbFind (b / 16) g.tenant g.addr.toNat).map (·.w)) = some true))

/-- The lines from `a` on, as many as `n`, are valid in T0 and none of them is poisoned. -/
abbrev State.inT0 (s : State) (a n : Nat) : Prop :=
  ∀ i, i < n → s.lineValid (fpaLine a + i) = true ∧ s.linePoison (fpaLine a + i) = false

/-- Nothing of the cores has changed but the completions on their way to threads and the tenants whose work the cores have run. -/
def State.coresKept (s t : State) : Prop :=
  { t.cpu with cores := [] } = { s.cpu with cores := [] }
  ∧ ∀ k, { t.core k with comps := [], ran := [] } = { s.core k with comps := [], ran := [] }

/-- None of the module's own requests waits for a tag (R78). -/
def State.noneHeld (s : State) : Bool :=
  s.tier.reqs.all (fun r => r.held.isNone) && s.atn.decodes.all (fun x => x.subs.all (fun y => y.held.isNone))

/-- The byte that a place of the memory of T0 holds, whatever the form of its block (R186). -/
def State.homeByte (s : State) (y : Nat) : Byte := (s.blockPlain (y / 2048)).getD (y % 2048) 0

/-- `n` bytes of the memory of T0 from `a` on. -/
def State.homeBytes (s : State) (a n : Nat) : List Byte := (List.range n).map (fun i => s.homeByte (a + i))

/-- The bytes stored at an address of the memory of T0, and every other byte of it as before. -/
def State.memStored (s t : State) (a : Nat) (v : List Byte) : Prop :=
  t.homeBytes a v.length = v ∧ ∀ y, (y < a ∨ a + v.length ≤ y) → t.homeByte y = s.homeByte y

/-- A request of core `k` reaches address `a` of an extent of this module that admits it, with nothing else under way: the core's
translation buffer holds the page, writable where the request writes. -/
abbrev State.coreReaches (s : State) (k : Nat) (g : Frame) (a : Nat) : Prop :=
  s.req.reqs = [] ∧ s.comp.evac = [] ∧ s.comp.state ≠ .window ∧ (dstPavilion (s.tables g.epoch) g.dst).isSome = true
    ∧ fpaModule a = s.moduleNo ∧ s.epochLive g.epoch = true ∧ a < 2 ^ 56 ∧ g.has flPhys = false
    ∧ s.extCheck (s.tables g.epoch) g (.core k) a = stOk ∧ (s.extent (fpaExtent a)).coherent = false
    ∧ ((s.tlbFind (64 + k) g.tenant g.addr.toNat).map (fun e => (e.fpa + g.addr.toNat % 2 ^ e.size) % 2 ^ 56)) = some a
    ∧ (Sys2Proof.Machine.writes g.opcode = true → ((s.tlbFind (64 + k) g.tenant g.addr.toNat).map (·.w)) = some true)

/-- A frame is on its way out of port `b`: in a queue of it or on the trellis for it. -/
abbrev State.bound (t : State) (b : Nat) (f : Frame) : Prop :=
  t.queuedOn b f ∨ ∃ x ∈ t.pkg.transit, x.port = b ∧ x.item.frame = f

/-- A thread may send `n` more pool requests (R200). -/
abbrev State.roomFor (s : State) (k t n : Nat) : Prop := (s.thread k t).mcnt + n ≤ 64 ∧ s.coreReqs k + n ≤ 1024

/-- No queue of port `b` holds an answer to a store that failed. -/
abbrev State.noFailed (s : State) (b : Nat) : Prop := ∀ e ∈ (s.port b).tc.queues, ∀ x ∈ e.2.all, x.stores = false

/-- A coherence request reaches a line of a coherent extent whose domain knows its sender as agent `me`, at the
mapping that the live entries of the extent show (log 111), with no snoop of the line under way (chapter 05). -/
abbrev State.reachesLine (s : State) (b : Nat) (g : Frame) (a d me : Nat) : Prop :=
  s.reaches b g a ∧ a % 64 = 0 ∧ (s.extent (fpaExtent a)).coherent = true ∧ (s.extent (fpaExtent a)).dom.toNat = d
    ∧ s.agentOf d g.src = some me ∧ g.tenant = (s.dom d).tenant ∧ s.lineBusy (fpaLine a) = false
    ∧ (∀ x ∈ s.coh.dir, fpaExtent (64 * x.1) = fpaExtent a →
        x.2.tva.all (fun v => v + (BitVec.ofNat 56 (64 * fpaLine a) - BitVec.ofNat 56 (64 * x.1)) == g.addr) = true)
    ∧ (∀ x ∈ s.coh.snoops, x.why ≠ .victim s.req.nextN) ∧ g.has flPhys = false

/-- A frame of VC6 is on its way out of port `b`: in its queue of control frames or on the trellis for it. -/
abbrev State.boundVc6 (t : State) (b : Nat) (f : Frame) : Prop :=
  f ∈ (t.port b).tc.vc6 ∨ ∃ x ∈ t.pkg.transit, x.port = b ∧ x.item.frame = f

/-- One trouble-log entry of class 0x18 has been written: source the module, the role required as DETAIL, and PARAM (R342). -/
def State.deniedEntry (s t : State) (detail param : Nat) : Prop :=
  ∃ e : LogEntry,
      t.log.entries = (if 16384 ≤ s.log.entries.length then s.log.entries.drop 1 else s.log.entries) ++ [(s.log.wrSeq.toNat, e)]
    ∧ e.cls = 0x18 ∧ e.src = srcModule ∧ e.detail.toNat = detail ∧ e.param.toNat = param

/-- The parts of the state that a command may change. -/
def mayChange : Instr → List Part
  | .registerWrite .. => [.free, .hb, .pkg, .tim, .ports, .bridles, .req, .coh, .ext, .lse, .adm, .tier, .xl, .cmp, .cpu,
      .clv, .atn, .comp, .sec, .log, .mod, .adk, .evq, .glb]
  | .rcRead .. => [.free, .pkg, .tim, .ports, .req, .coh, .ext, .tier, .xl, .cmp, .cpu, .clv, .atn, .comp, .sec, .log, .adk,
      .evq, .glb]
  | .heartbeatSend => [.hb]
  | .heartbeatReceive => [.hb]
  | .heartbeatReplyReceive => [.hb]
  | .heartbeatTimeoutSd0 => [.pkg, .ports, .req, .coh, .ext, .lse, .tier, .xl, .cpu, .clv, .atn, .comp, .sec, .log, .mod, .adk, .evq,
      .glb]
  | .heartbeatTimeoutSd1 => [.hb, .pkg, .ports, .req, .coh, .ext, .lse, .tier, .xl, .cpu, .clv, .atn, .comp, .sec, .log, .mod, .adk, .evq,
      .glb]
  | .trellisHop .. => [.pkg, .ports, .log, .adk, .evq]
  | .trellisRetrainTimeout .. => [.pkg, .ports, .req, .coh, .ext, .lse, .tier, .xl, .cpu, .clv, .atn, .comp, .sec, .log, .mod, .adk, .evq,
      .glb]
  | .ftDistribute => [.free, .tim]
  | .rtCodeFrame .. => [.pkg, .tim, .ports, .req, .lse, .xl, .cpu, .clv, .sec, .log, .adk, .evq]
  | .rtMarkEdge .. => [.free, .pkg, .tim, .ports, .req, .coh, .ext, .lse, .xl, .cpu, .clv, .comp, .sec, .log, .adk, .evq]
  | .markWindowExpiry => [.pkg, .tim, .ports, .req, .lse, .xl, .cpu, .clv, .sec, .log, .adk, .evq]
  | .rtCodeAbsentTimeout => [.pkg, .tim, .ports, .req, .lse, .xl, .cpu, .clv, .sec, .log, .adk, .evq]
  | .rtRefLoss .. => [.pkg, .tim, .ports, .req, .lse, .xl, .cpu, .clv, .sec, .log, .adk, .evq]
  | .holdoverExpiry => [.pkg, .tim, .ports, .req, .lse, .xl, .cpu, .clv, .sec, .log, .adk, .evq]
  | .ftStallEnd => [.pkg, .tim, .ports, .req, .lse, .xl, .cpu, .clv, .sec, .log, .adk, .evq]
  | .timCtrlWrite .. => [.pkg, .tim, .ports, .req, .lse, .xl, .cpu, .clv, .sec, .log, .adk, .evq]
  | .gateCycleStart .. => [.ports, .adk, .evq]
  | .gateEntryAdvance .. => [.ports, .adk, .evq]
  | .collectiveAbortDeadline .. => [.pkg, .ports, .req, .xl, .cpu, .clv, .sec, .log, .adk, .evq]
  | .leaseExpiry .. => [.free, .pkg, .ports, .req, .coh, .ext, .lse, .xl, .cpu, .clv, .comp, .sec, .log, .adk, .evq]
  | .scrubWindow .. => [.free, .pkg, .tim, .ports, .req, .coh, .ext, .lse, .tier, .xl, .cmp, .cpu, .clv, .atn, .comp, .sec, .log,
      .mod, .adk, .evq, .glb]
  | .heatDecay => [.tim, .tier, .xl, .log, .adk, .evq]
  | .selfTestSlot => [.tim, .cpu, .log]
  | .selfTestComplete .. => [.cpu, .log, .adk, .evq]
  | .marginScan .. => [.tim, .log, .mod, .adk, .evq]
  | .belvedereSample .. => [.ports]
  | .signalPresent .. => [.ports]
  | .lossOfSignal .. => [.free, .pkg, .ports, .req, .coh, .ext, .tier, .xl, .cmp, .cpu, .clv, .atn, .comp, .sec, .log,
      .adk, .evq]
  | .trainingComplete .. => [.ports]
  | .trainingAttemptTimeout .. => [.ports]
  | .lcwNormal .. => [.ports]
  | .lcwNak .. => [.free, .pkg, .ports, .req, .coh, .ext, .tier, .xl, .cmp, .cpu, .clv, .atn, .comp, .sec, .log, .adk, .evq]
  | .lcwInit .. => [.ports, .adk, .evq]
  | .lcwSendTimer .. => [.ports]
  | .replayTimeout .. => [.free, .pkg, .ports, .req, .coh, .ext, .tier, .xl, .cmp, .cpu, .clv, .atn, .comp, .sec, .log,
      .adk, .evq]
  | .frameLinkReject .. => [.ports, .adk, .evq]
  | .hcrcDiscard .. => [.free, .pkg, .ports, .req, .coh, .ext, .tier, .xl, .cmp, .cpu, .clv, .atn, .comp, .sec, .log, .adk,
      .evq]
  | .bundleSkewTimeout .. => [.free, .pkg, .ports, .req, .coh, .ext, .tier, .xl, .cmp, .cpu, .clv, .atn, .comp, .sec, .log,
      .adk, .evq]
  | .hello .. => [.free, .pkg, .ports, .req, .coh, .ext, .lse, .tier, .xl, .cmp, .cpu, .clv, .atn, .comp, .sec, .log, .adk,
      .evq]
  | .helloPeriodTimer .. => [.ports]
  | .helloSilenceTimeout .. => [.free, .pkg, .ports, .req, .coh, .ext, .tier, .xl, .cmp, .cpu, .clv, .atn, .comp, .sec,
      .log, .adk, .evq]
  | .prtPeerRetrain .. => [.free, .pkg, .ports, .req, .coh, .ext, .tier, .xl, .cmp, .cpu, .clv, .atn, .comp, .sec, .log,
      .adk, .evq]
  | .prtPeerAck .. => [.free, .pkg, .ports, .req, .coh, .ext, .tier, .xl, .cmp, .cpu, .clv, .atn, .comp, .sec, .log, .adk, .evq]
  | .egressFrameStart .. => [.ports, .cmp, .adk, .evq]
  | .ld .. => [.free, .pkg, .ports, .bridles, .req, .coh, .ext, .lse, .tier, .xl, .cmp, .cpu, .clv, .atn, .comp, .sec,
      .log, .mod, .adk, .evq, .glb]
  | .ldPeek .. => [.free, .pkg, .ports, .bridles, .req, .coh, .ext, .lse, .tier, .xl, .cmp, .cpu, .clv, .atn, .comp, .sec, .log,
      .adk, .evq]
  | .st .. => [.free, .pkg, .ports, .bridles, .req, .coh, .ext, .lse, .tier, .xl, .cmp, .cpu, .clv, .atn, .comp, .sec,
      .log, .mod, .adk, .evq, .glb]
  | .stPush .. => [.free, .pkg, .ports, .bridles, .req, .coh, .ext, .lse, .tier, .xl, .cmp, .cpu, .clv, .atn, .comp, .sec, .log,
      .adk, .evq]
  | .stMask .. => [.free, .pkg, .ports, .bridles, .req, .coh, .ext, .lse, .tier, .xl, .cmp, .cpu, .clv, .atn, .comp, .sec, .log,
      .adk, .evq]
  | .fence .. => [.free, .pkg, .ports, .bridles, .req, .coh, .ext, .lse, .tier, .xl, .cmp, .cpu, .clv, .atn, .comp, .sec, .log,
      .adk, .evq]
  | .sbRd .. => [.free, .pkg, .ports, .bridles, .req, .coh, .ext, .lse, .tier, .xl, .cmp, .cpu, .clv, .atn, .comp, .sec, .log,
      .adk, .evq]
  | .sbWr .. => [.free, .pkg, .ports, .bridles, .req, .coh, .ext, .lse, .tier, .xl, .cmp, .cpu, .clv, .atn, .comp, .sec, .log,
      .adk, .evq]
  | .rspData .. => [.free, .pkg, .ports, .bridles, .req, .coh, .ext, .lse, .tier, .xl, .cmp, .cpu, .clv, .atn, .comp, .sec, .log,
      .adk, .evq]
  | .rspCmp .. => [.free, .pkg, .ports, .bridles, .req, .coh, .ext, .lse, .tier, .xl, .cmp, .cpu, .clv, .atn, .comp, .sec, .log,
      .adk, .evq]
  | .sbData .. => [.free, .pkg, .ports, .bridles, .req, .coh, .ext, .lse, .tier, .xl, .cmp, .cpu, .clv, .atn, .comp, .sec, .log,
      .adk, .evq]
  | .atAdd .. => [.free, .pkg, .ports, .bridles, .req, .coh, .ext, .lse, .tier, .xl, .cmp, .cpu, .clv, .atn, .comp, .sec, .log,
      .adk, .evq]
  | .atMin .. => [.free, .pkg, .ports, .bridles, .req, .coh, .ext, .lse, .tier, .xl, .cmp, .cpu, .clv, .atn, .comp, .sec, .log,
      .adk, .evq]
  | .atMax .. => [.free, .pkg, .ports, .bridles, .req, .coh, .ext, .lse, .tier, .xl, .cmp, .cpu, .clv, .atn, .comp, .sec, .log,
      .adk, .evq]
  | .atCas .. => [.free, .pkg, .ports, .bridles, .req, .coh, .ext, .lse, .tier, .xl, .cmp, .cpu, .clv, .atn, .comp, .sec, .log,
      .adk, .evq]
  | .apAdd .. => [.free, .pkg, .ports, .bridles, .req, .coh, .ext, .lse, .tier, .xl, .cmp, .cpu, .clv, .atn, .comp, .sec, .log,
      .adk, .evq]
  | .apMin .. => [.free, .pkg, .ports, .bridles, .req, .coh, .ext, .lse, .tier, .xl, .cmp, .cpu, .clv, .atn, .comp, .sec, .log,
      .adk, .evq]
  | .apMax .. => [.free, .pkg, .ports, .bridles, .req, .coh, .ext, .lse, .tier, .xl, .cmp, .cpu, .clv, .atn, .comp, .sec, .log,
      .adk, .evq]
  | .apCas .. => [.free, .pkg, .ports, .bridles, .req, .coh, .ext, .lse, .tier, .xl, .cmp, .cpu, .clv, .atn, .comp, .sec, .log,
      .adk, .evq]
  | .cRdS .. => [.free, .pkg, .ports, .bridles, .req, .coh, .ext, .lse, .tier, .xl, .cmp, .cpu, .clv, .atn, .comp, .sec, .log,
      .adk, .evq]
  | .cRdO .. => [.free, .pkg, .ports, .bridles, .req, .coh, .ext, .lse, .tier, .xl, .cmp, .cpu, .clv, .atn, .comp, .sec, .log,
      .adk, .evq]
  | .cUpg .. => [.free, .pkg, .ports, .bridles, .req, .coh, .ext, .lse, .tier, .xl, .cmp, .cpu, .clv, .atn, .comp, .sec, .log,
      .adk, .evq]
  | .cWb .. => [.free, .pkg, .ports, .bridles, .req, .coh, .ext, .lse, .tier, .xl, .cmp, .cpu, .clv, .atn, .comp, .sec, .log,
      .adk, .evq]
  | .cEvict .. => [.free, .pkg, .ports, .bridles, .req, .coh, .ext, .lse, .tier, .xl, .cmp, .cpu, .clv, .atn, .comp, .sec, .log,
      .adk, .evq]
  | .snpInv .. => [.free, .pkg, .ports, .bridles, .req, .coh, .ext, .lse, .tier, .xl, .cmp, .cpu, .clv, .atn, .comp, .sec, .log,
      .adk, .evq]
  | .snpShr .. => [.free, .pkg, .ports, .bridles, .req, .coh, .ext, .lse, .tier, .xl, .cmp, .cpu, .clv, .atn, .comp, .sec, .log,
      .adk, .evq]
  | .snpBinv .. => [.free, .pkg, .ports, .bridles, .req, .coh, .ext, .lse, .tier, .xl, .cmp, .cpu, .clv, .atn, .comp, .sec, .log,
      .adk, .evq]
  | .cData .. => [.free, .pkg, .ports, .bridles, .req, .coh, .ext, .lse, .tier, .xl, .cmp, .cpu, .clv, .atn, .comp, .sec, .log,
      .adk, .evq]
  | .cGnt .. => [.free, .pkg, .ports, .bridles, .req, .coh, .ext, .lse, .tier, .xl, .cmp, .cpu, .clv, .atn, .comp, .sec, .log,
      .adk, .evq]
  | .snpAck .. => [.free, .pkg, .ports, .bridles, .req, .coh, .ext, .lse, .tier, .xl, .cmp, .cpu, .clv, .atn, .comp, .sec, .log,
      .adk, .evq]
  | .snpData .. => [.free, .pkg, .ports, .bridles, .req, .coh, .ext, .lse, .tier, .xl, .cmp, .cpu, .clv, .atn, .comp, .sec, .log,
      .adk, .evq]
  | .leaseRenew .. => [.free, .pkg, .ports, .bridles, .req, .coh, .ext, .lse, .tier, .xl, .cmp, .cpu, .clv, .atn, .comp,
      .sec, .log, .adk, .evq]
  | .epochNote .. => [.free, .pkg, .ports, .bridles, .req, .coh, .ext, .lse, .tier, .xl, .cmp, .cpu, .clv, .atn, .comp, .sec, .log,
      .adk, .evq]
  | .faultRec .. => [.free, .pkg, .ports, .bridles, .req, .coh, .ext, .lse, .tier, .xl, .cmp, .cpu, .clv, .atn, .comp, .sec, .log,
      .adk, .evq]
  | .domNote .. => [.free, .pkg, .ports, .bridles, .req, .coh, .ext, .lse, .tier, .xl, .cmp, .cpu, .clv, .atn, .comp, .sec, .log,
      .adk, .evq]
  | .collOpen .. => [.free, .pkg, .ports, .bridles, .req, .coh, .ext, .lse, .tier, .xl, .cmp, .cpu, .clv, .atn, .comp, .sec, .log,
      .adk, .evq]
  | .collContrib .. => [.free, .pkg, .ports, .bridles, .req, .coh, .ext, .lse, .tier, .xl, .cmp, .cpu, .clv, .atn, .comp, .sec, .log,
      .adk, .evq]
  | .collResult .. => [.free, .pkg, .ports, .bridles, .req, .coh, .ext, .lse, .tier, .xl, .cmp, .cpu, .clv, .atn, .comp, .sec, .log,
      .adk, .evq]
  | .collGrant .. => [.free, .pkg, .ports, .bridles, .req, .coh, .ext, .lse, .tier, .xl, .cmp, .cpu, .clv, .atn, .comp, .sec, .log,
      .adk, .evq]
  | .collDone .. => [.free, .pkg, .ports, .bridles, .req, .coh, .ext, .lse, .tier, .xl, .cmp, .cpu, .clv, .atn, .comp, .sec, .log,
      .adk, .evq]
  | .abort .. => [.free, .pkg, .ports, .bridles, .req, .coh, .ext, .lse, .tier, .xl, .cmp, .cpu, .clv, .atn, .comp, .sec, .log,
      .adk, .evq]
  | .atnDecode .. => [.free, .pkg, .ports, .bridles, .req, .coh, .ext, .lse, .tier, .xl, .cmp, .cpu, .clv, .atn, .comp, .sec, .log,
      .adk, .evq]
  | .atnBind .. => [.free, .pkg, .ports, .bridles, .req, .coh, .ext, .lse, .tier, .xl, .cmp, .cpu, .clv, .atn, .comp, .sec, .log,
      .adk, .evq]
  | .atnRelease .. => [.free, .pkg, .ports, .bridles, .req, .coh, .ext, .lse, .tier, .xl, .cmp, .cpu, .clv, .atn, .comp, .sec, .log,
      .adk, .evq]
  | .atnResult .. => [.free, .pkg, .ports, .bridles, .req, .coh, .ext, .lse, .tier, .xl, .cmp, .cpu, .clv, .atn, .comp, .sec, .log,
      .adk, .evq]
  | .atnSub .. => [.free, .pkg, .ports, .bridles, .req, .coh, .ext, .lse, .tier, .xl, .cmp, .cpu, .clv, .atn, .comp, .sec, .log,
      .adk, .evq]
  | .atnPart .. => [.free, .pkg, .ports, .bridles, .req, .coh, .ext, .lse, .tier, .xl, .cmp, .cpu, .clv, .atn, .comp, .sec, .log,
      .adk, .evq]
  | .storeRelease .. => [.pkg, .ports, .req, .coh, .ext, .tier, .xl, .cmp, .cpu, .clv, .atn, .comp, .sec, .log, .adk, .evq]
  | .fenceComplete .. => [.pkg, .ports, .req, .xl, .cpu, .clv, .atn, .sec, .log, .adk, .evq]
  | .implicitFenceRelease .. => [.pkg, .ports, .req, .coh, .ext, .tier, .xl, .cmp, .cpu, .clv, .atn, .comp, .sec, .log,
      .adk, .evq]
  | .targetLimitExpiry .. => [.free, .pkg, .ports, .req, .coh, .ext, .tier, .xl, .cmp, .cpu, .clv, .atn, .comp, .sec, .log,
      .adk, .evq]
  | .requestTimerExpiry .. => [.pkg, .ports, .req, .coh, .ext, .tier, .xl, .cmp, .cpu, .clv, .atn, .comp, .sec, .log, .adk,
      .evq]
  | .backstopTimerExpiry .. => [.pkg, .ports, .req, .coh, .ext, .tier, .xl, .cmp, .cpu, .clv, .atn, .comp, .sec, .log,
      .adk, .evq]
  | .snoopTimerExpiry .. => [.pkg, .ports, .req, .coh, .ext, .tier, .xl, .cmp, .cpu, .clv, .atn, .comp, .sec, .log, .adk, .evq]
  | .cinchExpiry .. => [.pkg, .ports, .req, .coh, .ext, .tier, .xl, .cmp, .cpu, .clv, .atn, .comp, .sec, .log, .adk, .evq]
  | .flushWindowEnd .. => [.pkg, .ports, .req, .coh, .ext, .tier, .xl, .cmp, .cpu, .clv, .atn, .comp, .sec, .log, .adk, .evq]
  | .cohDomEnable .. => [.pkg, .ports, .coh, .sec, .log, .adk, .evq]
  | .cohDomDisable .. => [.pkg, .ports, .coh, .sec, .log, .adk, .evq]
  | .cohDomDown .. => [.pkg, .ports, .req, .coh, .ext, .tier, .xl, .cmp, .cpu, .clv, .atn, .comp, .sec, .log, .adk, .evq]
  | .cohDomReform .. => [.pkg, .ports, .req, .coh, .ext, .tier, .xl, .cmp, .cpu, .clv, .atn, .comp, .sec, .log, .adk, .evq]
  | .cohMemberWrite .. => [.pkg, .ports, .coh, .sec, .log, .adk, .evq]
  | .extAssign .. => [.free, .pkg, .ports, .req, .coh, .ext, .adm, .tier, .xl, .cmp, .cpu, .clv, .atn, .comp, .sec, .log, .adk,
      .evq]
  | .extSetattr .. => [.free, .pkg, .ports, .req, .coh, .ext, .adm, .tier, .xl, .cmp, .cpu, .clv, .atn, .comp, .sec, .log, .adk,
      .evq]
  | .extRevoke .. => [.free, .pkg, .ports, .req, .coh, .ext, .adm, .tier, .xl, .cmp, .cpu, .clv, .atn, .comp, .sec, .log, .adk,
      .evq]
  | .extRelease .. => [.free, .pkg, .ports, .req, .coh, .ext, .adm, .tier, .xl, .cmp, .cpu, .clv, .atn, .comp, .sec, .log, .adk,
      .evq]
  | .extScrub .. => [.free, .pkg, .ports, .req, .coh, .ext, .adm, .tier, .xl, .cmp, .cpu, .clv, .atn, .comp, .sec, .log, .adk,
      .evq]
  | .extentScrubComplete .. => [.pkg, .ports, .ext, .tier, .comp, .adk, .evq]
  | .extentDrained .. => [.ext, .comp, .log, .adk, .evq]
  | .drainLimitExpiry .. => [.pkg, .ports, .req, .coh, .ext, .tier, .xl, .cmp, .cpu, .clv, .atn, .comp, .sec, .log, .adk, .evq]
  | .lseCreate .. => [.free, .pkg, .ports, .req, .coh, .ext, .lse, .xl, .cpu, .clv, .comp, .sec, .log, .adk, .evq]
  | .lseDelete .. => [.free, .pkg, .ports, .req, .coh, .ext, .lse, .xl, .cpu, .clv, .comp, .sec, .log, .adk, .evq]
  | .lseHandoff .. => [.free, .pkg, .ports, .req, .coh, .ext, .lse, .xl, .cpu, .clv, .comp, .sec, .log, .adk, .evq]
  | .lseExpire .. => [.free, .pkg, .ports, .req, .coh, .ext, .lse, .xl, .cpu, .clv, .comp, .sec, .log, .adk, .evq]
  | .admAdmit .. => [.ports, .adm, .sec, .log, .adk, .evq]
  | .admResize .. => [.ports, .adm, .sec, .log, .adk, .evq]
  | .admRelease .. => [.ports, .adm, .sec, .log, .adk, .evq]
  | .bitmapRetryTimer .. => [.pkg, .ports, .tier, .adk, .evq]
  | .bridgeLinkActive .. => [.pkg, .ports, .req, .coh, .ext, .tier, .xl, .cmp, .cpu, .clv, .atn, .comp, .sec, .log, .adk, .evq]
  | .bridgeLinkDown .. => [.pkg, .ports, .tier, .log, .adk, .evq]
  | .cxlCompletion .. => [.pkg, .ports, .req, .coh, .ext, .tier, .xl, .cmp, .cpu, .clv, .atn, .comp, .sec, .log, .adk, .evq]
  | .cxlCompletionTimeout .. => [.pkg, .ports, .tier, .log, .mod, .adk, .evq]
  | .cxlMediaEvent .. => [.req, .tier, .sec, .log, .adk, .evq]
  | .trayRetire .. => [.pkg, .ports, .req, .coh, .ext, .tier, .xl, .cmp, .cpu, .clv, .atn, .comp, .sec, .log, .adk, .evq]
  | .trayEvacuate .. => [.pkg, .ports, .req, .coh, .ext, .tier, .xl, .cmp, .cpu, .clv, .atn, .comp, .sec, .log, .adk, .evq]
  | .evacuateComplete .. => [.pkg, .ports, .req, .coh, .ext, .tier, .xl, .cmp, .cpu, .clv, .atn, .comp, .sec, .log, .adk, .evq]
  | .traySanitize .. => [.pkg, .ports, .req, .coh, .ext, .tier, .xl, .cmp, .cpu, .clv, .atn, .comp, .sec, .log, .adk, .evq]
  | .tpSetpin .. => [.pkg, .ports, .tier, .xl, .sec, .log, .adk, .evq]
  | .tpRelocate .. => [.pkg, .ports, .tier, .xl, .sec, .log, .adk, .evq]
  | .moveStart .. => [.pkg, .ports, .tier, .adk, .evq]
  | .moveComplete .. => [.pkg, .ports, .req, .coh, .ext, .tier, .xl, .cmp, .cpu, .clv, .atn, .comp, .sec, .log, .adk, .evq]
  | .pavilionWarm .. => [.tier]
  | .walkReadComplete .. => [.pkg, .ports, .req, .coh, .ext, .tier, .xl, .cmp, .cpu, .clv, .atn, .comp, .sec, .log, .adk, .evq]
  | .kvRestore .. => [.pkg, .ports, .req, .coh, .ext, .tier, .xl, .cmp, .cpu, .clv, .atn, .comp, .sec, .log, .adk, .evq]
  | .restoreRoomTimeout .. => [.pkg, .ports, .req, .coh, .ext, .tier, .xl, .cmp, .cpu, .clv, .atn, .comp, .sec, .log, .adk,
      .evq]
  | .makeRoom => [.free, .hb, .pkg, .tim, .ports, .bridles, .req, .coh, .ext, .lse, .adm, .tier, .xl, .cmp, .cpu, .clv, .atn,
      .comp, .sec, .log, .mod, .adk, .evq, .glb]
  | .trnInvGo .. => [.pkg, .ports, .req, .coh, .ext, .tier, .xl, .cmp, .cpu, .clv, .atn, .comp, .sec, .log, .adk, .evq]
  | .invalidationComplete => [.xl]
  | .ptwRead .. => [.pkg, .ports, .req, .coh, .ext, .tier, .xl, .cmp, .cpu, .clv, .atn, .comp, .sec, .log, .adk, .evq]
  | .ptwWrite .. => [.pkg, .ports, .req, .coh, .ext, .tier, .xl, .cmp, .cpu, .clv, .atn, .comp, .sec, .log, .adk, .evq]
  | .ptwAccessComplete => [.free, .hb, .pkg, .tim, .ports, .bridles, .req, .coh, .ext, .lse, .adm, .tier, .xl, .cmp, .cpu,
      .clv, .atn, .comp, .sec, .log, .mod, .adk, .evq, .glb]
  | .nop .. => [.cpu, .log, .adk, .evq]
  | .alu .. => [.cpu, .log, .adk, .evq]
  | .alui .. => [.cpu, .log, .adk, .evq]
  | .movi .. => [.cpu, .log, .adk, .evq]
  | .movhi .. => [.cpu, .log, .adk, .evq]
  | .br .. => [.cpu, .log, .adk, .evq]
  | .jal .. => [.cpu, .log, .adk, .evq]
  | .gets .. => [.cpu, .log, .adk, .evq]
  | .ldl .. => [.cpu, .log, .adk, .evq]
  | .stl .. => [.cpu, .log, .adk, .evq]
  | .atl .. => [.cpu, .log, .adk, .evq]
  | .copyl .. => [.cpu, .log, .adk, .evq]
  | .mxeIssue .. => [.cpu, .log, .adk, .evq]
  | .veIssue .. => [.cpu, .log, .adk, .evq]
  | .gfeIssue .. => [.cpu, .log, .adk, .evq]
  | .pldx .. => [.pkg, .ports, .req, .coh, .ext, .tier, .xl, .cmp, .cpu, .clv, .atn, .comp, .sec, .log, .adk, .evq]
  | .pstx .. => [.pkg, .ports, .req, .coh, .ext, .tier, .xl, .cmp, .cpu, .clv, .atn, .comp, .sec, .log, .adk, .evq]
  | .pld .. => [.pkg, .ports, .req, .coh, .ext, .tier, .xl, .cmp, .cpu, .clv, .atn, .comp, .sec, .log, .adk, .evq]
  | .pst .. => [.pkg, .ports, .req, .coh, .ext, .tier, .xl, .cmp, .cpu, .clv, .atn, .comp, .sec, .log, .adk, .evq]
  | .patm .. => [.pkg, .ports, .req, .coh, .ext, .tier, .xl, .cmp, .cpu, .clv, .atn, .comp, .sec, .log, .adk, .evq]
  | .coreFence .. => [.cpu, .log, .adk, .evq]
  | .acquire .. => [.cpu, .log, .adk, .evq]
  | .send .. => [.pkg, .ports, .req, .coh, .ext, .tier, .xl, .cmp, .cpu, .clv, .atn, .comp, .sec, .log, .adk, .evq]
  | .bar .. => [.cpu, .log, .adk, .evq]
  | .waitl .. => [.cpu, .log, .adk, .evq]
  | .waitlTimeout .. => [.cpu]
  | .waite .. => [.cpu, .log, .adk, .evq]
  | .waitm .. => [.cpu, .log, .adk, .evq]
  | .threadHalt .. => [.cpu, .log, .adk, .evq]
  | .tpref .. => [.pkg, .ports, .req, .coh, .ext, .tier, .xl, .cmp, .cpu, .clv, .atn, .comp, .sec, .log, .adk, .evq]
  | .tinv .. => [.xl, .cpu, .log, .adk, .evq]
  | .illegalInstruction .. => [.cpu, .log, .adk, .evq]
  | .corePoolCompletion .. => [.pkg, .ports, .req, .coh, .ext, .tier, .xl, .cmp, .cpu, .clv, .atn, .comp, .sec, .log, .adk,
      .evq]
  | .mxeMma .. => [.pkg, .ports, .req, .coh, .ext, .tier, .xl, .cmp, .cpu, .clv, .atn, .comp, .sec, .log, .adk, .evq]
  | .mxeZero .. => [.pkg, .ports, .req, .coh, .ext, .tier, .xl, .cmp, .cpu, .clv, .atn, .comp, .sec, .log, .adk, .evq]
  | .mxeStore .. => [.pkg, .ports, .req, .coh, .ext, .tier, .xl, .cmp, .cpu, .clv, .atn, .comp, .sec, .log, .adk, .evq]
  | .mxeLoad .. => [.pkg, .ports, .req, .coh, .ext, .tier, .xl, .cmp, .cpu, .clv, .atn, .comp, .sec, .log, .adk, .evq]
  | .veAdd .. => [.pkg, .ports, .req, .coh, .ext, .tier, .xl, .cmp, .cpu, .clv, .atn, .comp, .sec, .log, .adk, .evq]
  | .veSub .. => [.pkg, .ports, .req, .coh, .ext, .tier, .xl, .cmp, .cpu, .clv, .atn, .comp, .sec, .log, .adk, .evq]
  | .veMul .. => [.pkg, .ports, .req, .coh, .ext, .tier, .xl, .cmp, .cpu, .clv, .atn, .comp, .sec, .log, .adk, .evq]
  | .veFma .. => [.pkg, .ports, .req, .coh, .ext, .tier, .xl, .cmp, .cpu, .clv, .atn, .comp, .sec, .log, .adk, .evq]
  | .veMax .. => [.pkg, .ports, .req, .coh, .ext, .tier, .xl, .cmp, .cpu, .clv, .atn, .comp, .sec, .log, .adk, .evq]
  | .veMin .. => [.pkg, .ports, .req, .coh, .ext, .tier, .xl, .cmp, .cpu, .clv, .atn, .comp, .sec, .log, .adk, .evq]
  | .veCvt .. => [.pkg, .ports, .req, .coh, .ext, .tier, .xl, .cmp, .cpu, .clv, .atn, .comp, .sec, .log, .adk, .evq]
  | .veExp2 .. => [.pkg, .ports, .req, .coh, .ext, .tier, .xl, .cmp, .cpu, .clv, .atn, .comp, .sec, .log, .adk, .evq]
  | .veLog2 .. => [.pkg, .ports, .req, .coh, .ext, .tier, .xl, .cmp, .cpu, .clv, .atn, .comp, .sec, .log, .adk, .evq]
  | .veRcp .. => [.pkg, .ports, .req, .coh, .ext, .tier, .xl, .cmp, .cpu, .clv, .atn, .comp, .sec, .log, .adk, .evq]
  | .veRsqrt .. => [.pkg, .ports, .req, .coh, .ext, .tier, .xl, .cmp, .cpu, .clv, .atn, .comp, .sec, .log, .adk, .evq]
  | .veRsum .. => [.pkg, .ports, .req, .coh, .ext, .tier, .xl, .cmp, .cpu, .clv, .atn, .comp, .sec, .log, .adk, .evq]
  | .veRmax .. => [.pkg, .ports, .req, .coh, .ext, .tier, .xl, .cmp, .cpu, .clv, .atn, .comp, .sec, .log, .adk, .evq]
  | .gfeGather .. => [.pkg, .ports, .req, .coh, .ext, .tier, .xl, .cmp, .cpu, .clv, .atn, .comp, .sec, .log, .adk, .evq]
  | .gfeScatter .. => [.pkg, .ports, .req, .coh, .ext, .tier, .xl, .cmp, .cpu, .clv, .atn, .comp, .sec, .log, .adk, .evq]
  | .gfeFilter .. => [.pkg, .ports, .req, .coh, .ext, .tier, .xl, .cmp, .cpu, .clv, .atn, .comp, .sec, .log, .adk, .evq]
  | .gfeTopk .. => [.pkg, .ports, .req, .coh, .ext, .tier, .xl, .cmp, .cpu, .clv, .atn, .comp, .sec, .log, .adk, .evq]
  | .engineInvalidDescriptor .. => [.cpu, .log, .adk, .evq]
  | .engineCommandComplete .. => [.cpu]
  | .shadowCompare .. => [.cpu, .log, .adk, .evq, .glb]
  | .majorityVote .. => [.cpu, .log, .adk, .evq]
  | .clvBindEnable .. => [.adm, .clv, .sec, .log, .adk, .evq]
  | .clvBindDisable .. => [.adm, .clv, .sec, .log, .adk, .evq]
  | .clvCmdAbort .. => [.pkg, .ports, .req, .xl, .cpu, .clv, .sec, .log, .adk, .evq]
  | .clvGrpMemberWrite .. => [.clv, .sec, .log, .adk, .evq]
  | .heldOpenRetry .. => [.pkg, .ports, .req, .coh, .ext, .tier, .xl, .cmp, .cpu, .clv, .atn, .comp, .sec, .log, .adk, .evq]
  | .chunkSlotsFreed .. => [.pkg, .ports, .req, .coh, .ext, .tier, .xl, .cmp, .cpu, .clv, .atn, .comp, .sec, .log, .adk, .evq]
  | .collectiveCommit .. => [.pkg, .ports, .req, .xl, .cpu, .clv, .sec, .log, .adk, .evq]
  | .abortComplete .. => [.clv]
  | .atnCmdRelease .. => [.atn, .sec, .log, .adk, .evq]
  | .handleFreed .. => [.atn]
  | .splitComplete .. => [.atn]
  | .kvProbeComplete .. => [.pkg, .ports, .req, .coh, .ext, .tier, .xl, .cmp, .cpu, .clv, .atn, .comp, .sec, .log, .adk, .evq]
  | .decodeComplete .. => [.pkg, .ports, .req, .coh, .ext, .tier, .xl, .cmp, .cpu, .clv, .atn, .comp, .sec, .log, .adk, .evq]
  | .gateCommit .. => [.ports, .sec, .log, .adk, .evq]
  | .queShapeWrite .. => [.ports, .sec, .log, .adk, .evq]
  | .prtPshapeWrite .. => [.ports, .sec, .log, .adk, .evq]
  | .prtBrdWrite .. => [.bridles, .sec, .log, .adk, .evq]
  | .rateLoopIncrease .. => [.ports, .log, .adk, .evq]
  | .belvedereClear .. => [.ports, .sec, .log, .adk, .evq]
  | .belvedereSnap .. => [.ports, .sec, .log, .adk, .evq]
  | .imgwr .. => [.comp, .sec, .adk]
  | .cmpoValidate .. => [.pkg, .ports, .req, .tier, .xl, .cpu, .clv, .atn, .comp, .sec, .log, .adk, .evq]
  | .imageValidationDone => [.comp]
  | .cmpoLoad .. => [.pkg, .ports, .req, .tier, .xl, .cpu, .clv, .atn, .comp, .sec, .log, .adk, .evq]
  | .loadComplete => [.free, .hb, .pkg, .tim, .ports, .bridles, .req, .coh, .ext, .lse, .adm, .tier, .xl, .cmp, .cpu, .clv,
      .atn, .comp, .sec, .log, .mod, .adk, .evq, .glb]
  | .cmpoApply .. => [.pkg, .ports, .req, .tier, .xl, .cpu, .clv, .atn, .comp, .sec, .log, .adk, .evq]
  | .applyPrepared => [.pkg, .ports, .req, .tier, .xl, .cpu, .clv, .atn, .comp, .sec, .log, .adk, .evq]
  | .epochFlip => [.free, .hb, .pkg, .tim, .ports, .bridles, .req, .coh, .ext, .lse, .adm, .tier, .xl, .cmp, .cpu, .clv,
      .atn, .comp, .sec, .log, .mod, .adk, .evq, .glb]
  | .sectorHandover .. => [.pkg, .ports, .req, .coh, .ext, .tier, .xl, .cmp, .cpu, .clv, .atn, .comp, .sec, .log, .adk, .evq]
  | .windowClose => [.pkg, .ports, .cpu, .comp, .adk, .evq]
  | .cmpoDiscard .. => [.pkg, .ports, .req, .tier, .xl, .cpu, .clv, .atn, .comp, .sec, .log, .adk, .evq]
  | .handoffTimerExpiry .. => [.pkg, .ports, .req, .coh, .ext, .tier, .xl, .cmp, .cpu, .clv, .atn, .comp, .sec, .log, .adk,
      .evq]
  | .tcActivate .. => [.free, .pkg, .ports, .req, .coh, .ext, .tier, .xl, .cmp, .cpu, .clv, .atn, .comp, .sec, .log, .adk, .evq]
  | .tcRetire .. => [.free, .pkg, .ports, .req, .coh, .ext, .tier, .xl, .cmp, .cpu, .clv, .atn, .comp, .sec, .log, .adk, .evq]
  | .teardownScrubStart .. => [.sec]
  | .teardownComplete .. => [.pkg, .ports, .req, .coh, .ext, .tier, .xl, .cmp, .cpu, .clv, .atn, .comp, .sec, .log, .adk, .evq]
  | .tenantFree .. => [.pkg, .ports, .ext, .tier, .sec, .adk, .evq]
  | .tcSetkey .. => [.free, .pkg, .ports, .req, .coh, .ext, .tier, .xl, .cmp, .cpu, .clv, .atn, .comp, .sec, .log, .adk, .evq]
  | .secPkeyDataWrite .. => [.sec, .log, .adk, .evq]
  | .instReq .. => [.sec, .log, .adk, .evq]
  | .instEnd .. => [.sec, .log, .adk, .evq]
  | .installerWindowExpiry => [.sec]
  | .presBtnAssert .. => [.sec]
  | .presBtnRelease .. => [.sec]
  | .sealLoopOpen .. => [.sec, .log, .adk, .evq]
  | .debugRead .. => [.pkg, .ports, .req, .coh, .ext, .tier, .xl, .cmp, .cpu, .clv, .atn, .comp, .sec, .log, .adk, .evq]
  | .debugReadComplete => [.free, .hb, .pkg, .tim, .ports, .bridles, .req, .coh, .ext, .lse, .adm, .tier, .xl, .cmp, .cpu,
      .clv, .atn, .comp, .sec, .log, .mod, .adk, .evq, .glb]
  | .fwVerify .. => [.sec, .log, .adk, .evq]
  | .fwVerifyDone => [.sec]
  | .fwCommit .. => [.sec, .log, .adk, .evq]
  | .fwCommitDone .. => [.free, .sec]
  | .fwRaiseMin .. => [.sec, .log, .adk, .evq]
  | .attReport .. => [.sec, .log, .adk, .evq]
  | .attIdkey .. => [.sec, .log, .adk, .evq]
  | .thermalSample .. => [.pkg, .ports, .req, .coh, .ext, .lse, .tier, .xl, .cpu, .clv, .atn, .comp, .sec, .log, .mod, .adk, .evq,
      .glb]
  | .thermalEscalate .. => [.log, .adk, .evq]
  | .thermalLevelDecay .. => [.log, .adk, .evq]
  | .auditSample .. => [.free, .log, .adk, .evq]
  | .logUnfence .. => [.sec, .log, .adk, .evq]
  | .logClear .. => [.sec, .log, .adk, .evq]
  | .recoveryStepDone => [.free, .pkg, .ports, .ext, .tier, .cpu, .comp, .log, .adk, .evq]
  | .modService .. => [.free, .hb, .pkg, .tim, .ports, .bridles, .req, .coh, .ext, .lse, .adm, .tier, .xl, .cmp, .cpu, .clv, .atn,
      .comp, .sec, .log, .mod, .adk, .evq, .glb]
  | .modDrain .. => [.free, .hb, .pkg, .tim, .ports, .bridles, .req, .coh, .ext, .lse, .adm, .tier, .xl, .cmp, .cpu, .clv, .atn,
      .comp, .sec, .log, .mod, .adk, .evq, .glb]
  | .drainStepComplete => [.free, .pkg, .ports, .req, .coh, .ext, .tier, .xl, .cmp, .cpu, .clv, .atn, .comp, .sec, .log,
      .mod, .adk, .evq]
  | .modRecover .. => [.free, .hb, .pkg, .tim, .ports, .bridles, .req, .coh, .ext, .lse, .adm, .tier, .xl, .cmp, .cpu, .clv, .atn,
      .comp, .sec, .log, .mod, .adk, .evq, .glb]
  | .modWarm .. => [.free, .hb, .pkg, .tim, .ports, .bridles, .req, .coh, .ext, .lse, .adm, .tier, .xl, .cmp, .cpu, .clv, .atn,
      .comp, .sec, .log, .mod, .adk, .evq, .glb]
  | .bootStepComplete .. => [.free, .hb, .pkg, .ports, .req, .coh, .ext, .lse, .tier, .xl, .cpu, .clv, .atn, .comp, .sec, .log, .mod,
      .adk, .evq, .glb]
  | .testStepComplete .. => [.free, .pkg, .ports, .req, .coh, .ext, .lse, .tier, .xl, .cpu, .clv, .atn, .comp, .sec, .log, .mod, .adk,
      .evq, .glb]
  | .attnBtnPress .. => [.mod, .adk, .evq]
  | .present1Assert => [.mod]
  | .prechargeComplete => [.mod]
  | .present2Stable => [.mod]
  | .powerGood => [.hb, .pkg, .tim, .ports, .bridles, .req, .coh, .ext, .lse, .adm, .tier, .xl, .cmp, .cpu, .clv, .atn,
      .comp, .sec, .log, .mod, .adk, .evq, .glb]
  | .presentDeassert .. => [.hb, .pkg, .tim, .ports, .bridles, .req, .coh, .ext, .lse, .adm, .tier, .xl, .cmp, .cpu, .clv,
      .atn, .comp, .sec, .log, .mod, .adk, .evq, .glb]
  | .inputUndervoltage .. => [.hb, .pkg, .tim, .ports, .bridles, .req, .coh, .ext, .lse, .adm, .tier, .xl, .cmp, .cpu, .clv,
      .atn, .comp, .sec, .log, .mod, .adk, .evq, .glb]
  | .inputOvercurrent => [.hb, .pkg, .tim, .ports, .bridles, .req, .coh, .ext, .lse, .adm, .tier, .xl, .cmp, .cpu, .clv,
      .atn, .comp, .sec, .log, .mod, .adk, .evq, .glb]
  | .powerRemoved => [.hb, .pkg, .tim, .ports, .bridles, .req, .coh, .ext, .lse, .adm, .tier, .xl, .cmp, .cpu, .clv, .atn,
      .comp, .sec, .log, .mod, .adk, .evq, .glb]
  | .adkRd .. => [.free, .pkg, .tim, .ports, .req, .coh, .ext, .tier, .xl, .cmp, .cpu, .clv, .atn, .comp, .sec, .log, .adk,
      .evq, .glb]
  | .logrd .. => [.free, .adk]
  | .adkFrameReject .. => [.adk, .evq]
  | .adkLinkctl .. => [.adk, .evq]
  | .adkLinkctlTimer => [.adk]
  | .adkReplayTimeout => [.adk, .evq]
  | .adkTrainingComplete => [.adk]
  | .adkTrainingTimeout => [.adk]
  | .eventSend => [.adk, .evq]
  | .spareProgram .. => [.pkg, .sec, .log, .adk, .evq, .glb]
  | .makerModeWrite .. => [.free, .pkg, .ports, .req, .coh, .ext, .tier, .xl, .cmp, .cpu, .clv, .atn, .comp, .sec, .log,
      .adk, .evq, .glb]
  | .powerCapCheck .. => [.log, .adk, .evq, .glb]
  | .sensorSample .. => [.log, .mod, .adk, .evq]
  | .copylComplete .. => [.cpu]
  | .trellisEdgeRetrainDone .. => [.pkg]
  | .makerJmpChange .. => [.sec]
  | .sealLoopClose .. => [.sec]
  | .adkLinkLoss => [.adk]

end Sys2Proof.Machine
end

