-- ==== Sys2Proof/Certificates/Slice0/Obligations.lean ====
section
/-! DEFINITION. The statements for the provers. -/

open Sys2Proof Sys2Proof.Machine

/-- A step performs the command at the front of the queue. For every command, state and rest of the queue: step of the state
with the command at the front is exec of the command on the state with the rest of the queue. The queue is the model's form
of a block (log 1). -/
def Obligations.StepPerformsFront : Prop :=
  ∀ (c : Instr) (rest : List Instr) (s : State), step { s with pending := c :: rest } = exec c { s with pending := rest }

/-- With no command waiting, fabric time advances by one slot. A step on an empty queue is one 4 ns slot of fabric time (64
sixteenths of a nanosecond) when the counters neither stall nor slew, and changes nothing else; with power off it changes
nothing. That an idle step is a slot of time is the model's choice (log 1). -/
def Obligations.IdleStepLetsTimePass : Prop :=
  (∀ s : State, s.pending = [] → s.mod.state ≠ .off → s.tim.stall ≤ 1 → s.tim.slew = 0 →
    ∃ t, step s = .next t ∧ t.now = s.now + 64 ∧ s.changesOnly t [.tim])
  ∧ (∀ s : State, s.pending = [] → s.mod.state = .off → step s = .next s)

/-- Every command answers a next state in every state. The block stops on no command: exec never faults and never refuses. -/
def Obligations.EveryCommandAnswers : Prop :=
  ∀ (c : Instr) (s : State), ∃ t, exec c s = .next t

/-- The state after reset is in order, and holds what the spec gives it. At reset the event queue, the trouble log and the
unacknowledged frames are within their bounds, and the memories are in canonical form; the module is in BOOT with no step
done, fabric time is UNSET at 0, every port and the adapter link are DOWN, every tenant is FREE, no lease and no extent
exists, the log and the event queue are empty, and no command waits. That reset is the moment just after power-good is the
model's choice (log 5). -/
def Obligations.ResetIsOrderly : Prop :=
  State.reset.orderly ∧ State.reset.mod.state = .boot ∧ State.reset.mod.bootStep = 0 ∧ State.reset.now = 0 ∧ State.reset.tim.state = .unset ∧ (∀ p, (State.reset.link p).state = .down)
  ∧ State.reset.adk.state = .down ∧ (∀ i, (State.reset.tenant i).state = .free) ∧ (∀ i, (State.reset.lease i).state = .empty) ∧ (∀ i, (State.reset.extent i).state = .absent)
  ∧ State.reset.log.entries = [] ∧ State.reset.log.wrSeq = 0 ∧ State.reset.evq.queue = [] ∧ State.reset.sec.instEnd = none ∧ State.reset.sec.maker = false ∧ State.reset.pending = []

/-- Every step keeps the queues within their bounds and the memories in canonical form. From every state in which the event
queue holds at most 4,096 records (R403), the trouble log at most 16,384 entries (R364), the ADK link at most 64
unacknowledged frames (R392), and the T0, scratchpad, cluster, staging, firmware and attestation memories are in canonical
form (the model's own, log 4), every next state is such a state. -/
def Obligations.StepKeepsOrder : Prop :=
  ∀ s t : State, s.orderly → step s = .next t → t.orderly

/-- The steward heartbeat, its reply and its loss. While the heartbeat runs: SD1 sends a heartbeat once a microsecond has passed
since the last; SD0 receives it, replies, and notes its own local FT counter; SD1 receives the reply and notes its counter,
SD1's being FT itself. No heartbeat for 20 µs of SD0's counter takes the module to HALT with cause 0x12; no reply for 20 µs
at SD1 takes it to HALT and the ADK link DOWN, with no entry and no event. Each leaves fabric time as it is. -/
def Obligations.StewardHeartbeat : Prop :=
  (∀ s : State, s.beating = true → s.hb.sentAt + usT ≤ s.now →
    ∃ t, exec .heartbeatSend s = .next t ∧ t.hb.inFlight = some s.now ∧ t.hb.sentAt = s.now ∧ s.changesOnly t [.hb])
  ∧ (∀ s : State, s.beating = true → s.hb.inFlight.isSome = true →
    ∃ t, exec .heartbeatReceive s = .next t ∧ t.hb.replying = true ∧ t.hb.sd0Heard = s.dieFt sd0Site ∧ t.hb.inFlight = none ∧ s.changesOnly t [.hb])
  ∧ (∀ s : State, s.beating = true → s.hb.replying = true →
    ∃ t, exec .heartbeatReplyReceive s = .next t ∧ t.hb.sd1Heard = s.now ∧ t.hb.replying = false ∧ s.changesOnly t [.hb])
  ∧ (∀ s : State, s.beating = true → s.hb.sd0Heard + 20 * usT ≤ s.dieFt sd0Site →
    ∃ t, exec .heartbeatTimeoutSd0 s = .next t ∧ t.mod.state = .halt ∧ t.mod.cause = 0x12 ∧ t.tim = s.tim ∧ t.hb = s.hb)
  ∧ (∀ s : State, s.beating = true → s.hb.sd1Heard + 20 * usT ≤ s.now →
    ∃ t, exec .heartbeatTimeoutSd1 s = .next t ∧ t.mod.state = .halt ∧ t.adk.state = .down ∧ t.hb.sd0Dead = true ∧ t.evq = s.evq
      ∧ t.log = s.log ∧ t.tim = s.tim)

/-- A frame moves one router along its route, and an edge retrains. In a module outside OFF, while no edge retrains: the oldest
frame at a router on a route plane and virtual channel moves to the next router of its route when that one holds a credit,
and stays where it is when it does not; at the last router it leaves the trellis for the queues of its port; eight failed
replays start a retraining of the edge and move nothing. A retraining that has ended is listed no more and has moved
nothing. One that has lasted 10 µs takes the module to HALT with cause 0x07. -/
def Obligations.TrellisHops : Prop :=
  (∀ (s : State) (site : BitVec 6) (yx : Bool) (vc : BitVec 3) (replays : BitVec 4) (i : Nat) (x : Transit),
    s.mod.state ≠ .off → s.trellisHead site.toNat yx vc = some i → s.pkg.transit[i]? = some x → replays.toNat < 8 →
    s.pkg.retraining = [] → x.site ≠ x.dest → s.trellisUsed (nextSite x.yx x.site x.dest) x.yx vc < trellisDepth →
    ∃ t, exec (.trellisHop site yx vc replays) s = .next t
      ∧ t.pkg.transit = s.pkg.transit.eraseIdx i ++ [{ x with site := nextSite x.yx x.site x.dest }]
      ∧ t.pkg = { s.pkg with transit := t.pkg.transit } ∧ s.changesOnly t [.pkg])
  ∧ (∀ (s : State) (site : BitVec 6) (yx : Bool) (vc : BitVec 3) (replays : BitVec 4) (i : Nat) (x : Transit),
    s.mod.state ≠ .off → s.trellisHead site.toNat yx vc = some i → s.pkg.transit[i]? = some x → replays.toNat < 8 →
    s.pkg.retraining = [] → x.site ≠ x.dest → trellisDepth ≤ s.trellisUsed (nextSite x.yx x.site x.dest) x.yx vc →
    exec (.trellisHop site yx vc replays) s = .next s)
  ∧ (∀ (s : State) (site : BitVec 6) (yx : Bool) (vc : BitVec 3) (replays : BitVec 4) (i : Nat) (x : Transit),
    s.mod.state ≠ .off → s.trellisHead site.toNat yx vc = some i → s.pkg.transit[i]? = some x → x.site = x.dest →
    ∃ t, exec (.trellisHop site yx vc replays) s = .next t ∧ t.pkg.transit = s.pkg.transit.eraseIdx i
      ∧ t.ports = (s.enqueue x.port x.queue x.item).ports ∧ s.changesOnly t [.pkg, .ports, .evq, .adk])
  ∧ (∀ (s : State) (site : BitVec 6) (yx : Bool) (vc : BitVec 3) (replays : BitVec 4) (i : Nat) (x : Transit),
    s.mod.state ≠ .off → s.trellisHead site.toNat yx vc = some i → s.pkg.transit[i]? = some x → 8 ≤ replays.toNat →
    s.pkg.retraining = [] → x.site ≠ x.dest →
    ∃ t, exec (.trellisHop site yx vc replays) s = .next t ∧ t.pkg.transit = s.pkg.transit
      ∧ t.pkg.retraining = [(edgeKey x.site (nextSite x.yx x.site x.dest), ⟨s.now⟩)] ∧ s.changesOnly t [.pkg, .log, .evq, .adk])
  ∧ (∀ (s : State) (edge : BitVec 8), ∃ t, exec (.trellisEdgeRetrainDone edge) s = .next t
      ∧ (∀ e ∈ t.pkg.retraining, e.1 ≠ edge.toNat) ∧ t.pkg.transit = s.pkg.transit ∧ s.changesOnly t [.pkg])
  ∧ (∀ (s : State) (edge : BitVec 8) (since : FT), s.alive = true → s.pkg.retraining = [(edge.toNat, ⟨since⟩)] →
    since + 10 * usT ≤ s.now →
    ∃ t, exec (.trellisRetrainTimeout edge) s = .next t ∧ t.mod.state = .halt ∧ t.mod.cause = 0x07)

/-- Rack time: frames, marks and missing marks. A valid RT_CODE frame (SYNC, a good CRC-16 over MARK_FT and FLAGS, MARK_FT a
multiple of 1 ms) opens the window of its mark; bits without SYNC do nothing; a frame whose CRC fails sets CODE_ERR and adds
one missing mark. While LOCKED, an edge within 20 ns of MARK_FT, and at least 100 µs after its frame, sets TIM_MARK_ERR to
the error, has its negative removed over the next millisecond and clears the run of missing marks. A window that closes
unpaired, and an absent frame, each add one missing mark and leave the state as it is before the third; a third takes LOCKED
to HOLDOVER. RT_REF lost for 1 µs takes LOCKED to HOLDOVER, and HOLD_MAX_S seconds there take HOLDOVER to LOST. None of
these moves FT itself. The byte order of the CRC is the model's choice (log 118). -/
def Obligations.RackTimeMarks : Prop :=
  (∀ (s : State) (m : BitVec 64) (fl : BitVec 8), s.mod.state ≠ .off → s.tim.window = none → m.toNat % msT = 0 →
    ∃ t, exec (.rtCodeFrame 0xE5A3 m fl (codeCrc m fl)) s = .next t
      ∧ t.tim = { s.tim with window := some (m.toNat, s.now), lastFrame := s.now, absentRun := 0 } ∧ s.changesOnly t [.tim])
  ∧ (∀ (s : State) (sync : BitVec 16) (m : BitVec 64) (fl : BitVec 8) (crc : BitVec 16), sync ≠ 0xE5A3 →
    exec (.rtCodeFrame sync m fl crc) s = .next s)
  ∧ (∀ (s : State) (m : BitVec 64) (fl : BitVec 8) (crc : BitVec 16), s.mod.state ≠ .off → s.tim.window = none → crc ≠ codeCrc m fl →
    s.tim.missRun.toNat < 2 →
    ∃ t, exec (.rtCodeFrame 0xE5A3 m fl crc) s = .next t ∧ t.tim.window = none ∧ t.tim.codeErr = true
      ∧ t.tim.missRun = s.tim.missRun + 1 ∧ t.tim.state = s.tim.state ∧ t.now = s.now ∧ s.changesOnly t [.tim])
  ∧ (∀ (s : State) (frac : BitVec 6) (m last : FT), s.mod.state ≠ .off → s.tim.state = .locked →
    s.tim.window = some (m, last) → last + 100 * usT ≤ s.now + frac.toNat →
    ((s.now + frac.toNat : Nat) - (m : Int)).natAbs ≤ 20 * nsT → 1 ≤ s.tim.markWin.toNat →
    ∃ t, exec (.rtMarkEdge frac) s = .next t ∧ t.tim.markErr = BitVec.ofInt 64 ((s.now + frac.toNat : Nat) - (m : Int))
      ∧ t.tim.slew = -((s.now + frac.toNat : Nat) - (m : Int)) ∧ t.tim.missRun = 0 ∧ t.tim.window = none
      ∧ t.tim.state = .locked ∧ t.now = s.now ∧ s.changesOnly t [.tim])
  ∧ (∀ (s : State) (m last : FT), s.mod.state ≠ .off → s.tim.state = .locked → s.tim.window = some (m, last) →
    m + s.tim.markWin.toNat * usT < s.now → s.tim.missRun.toNat < 2 →
    ∃ t, exec .markWindowExpiry s = .next t ∧ t.tim.window = none ∧ t.tim.missRun = s.tim.missRun + 1 ∧ t.tim.markRun = 0
      ∧ t.tim.state = .locked ∧ t.now = s.now ∧ s.changesOnly t [.tim])
  ∧ (∀ (s : State) (m last : FT), s.mod.state ≠ .off → s.tim.state = .locked → s.tim.window = some (m, last) →
    m + s.tim.markWin.toNat * usT < s.now → s.tim.missRun.toNat = 2 →
    ∃ t, exec .markWindowExpiry s = .next t ∧ t.tim.window = none ∧ t.tim.missRun = 3 ∧ t.tim.state = .holdover
      ∧ t.tim.holdFrom = s.now ∧ t.now = s.now ∧ s.changesOnly t [.tim, .log, .evq, .adk])
  ∧ (∀ s : State, s.mod.state ≠ .off → s.tim.lastFrame + 2 * msT + s.tim.absentRun * msT ≤ s.now → s.tim.missRun.toNat < 2 →
    ∃ t, exec .rtCodeAbsentTimeout s = .next t ∧ t.tim.missRun = s.tim.missRun + 1 ∧ t.tim.absentRun = s.tim.absentRun + 1
      ∧ t.tim.state = s.tim.state ∧ t.now = s.now ∧ s.changesOnly t [.tim])
  ∧ (∀ (s : State) (since : BitVec 64), s.mod.state ≠ .off → s.tim.state = .locked → since.toNat + usT ≤ s.now →
    ∃ t, exec (.rtRefLoss since) s = .next t ∧ t.tim.state = .holdover ∧ t.tim.holdFrom = s.now ∧ t.now = s.now
      ∧ s.changesOnly t [.tim, .log, .evq, .adk])
  ∧ (∀ s : State, s.mod.state ≠ .off → s.tim.state = .holdover → s.tim.holdFrom + s.tim.holdMaxS.toNat * secT ≤ s.now →
    ∃ t, exec .holdoverExpiry s = .next t ∧ t.tim.state = .lost ∧ t.now = s.now)

/-- A stall ends in LOCKED, FT is distributed, and TIM_CTRL holds what is written. A stall whose time has run out counts one
correction, shows it at the FT at which the counters stood, and enters LOCKED with FT unchanged. Once a microsecond has
passed SD1 loads FT into every die: SD1 keeps offset 0, and every other die gets an offset of at most 1 ns (the offsets
themselves are free values, log 2). A write of TIM_CTRL within its ranges by the installer sets its three fields, and moves
a stay in HOLDOVER that has reached the new HOLD_MAX_S to LOST; one outside its ranges is DENIED and changes nothing but the
link that answers. -/
def Obligations.FabricTimeKeeping : Prop :=
  (∀ s : State, s.mod.state ≠ .off → s.tim.stall = 1 →
    ∃ t, exec .ftStallEnd s = .next t ∧ t.tim.state = .locked ∧ t.now = s.now ∧ t.tim.stall = 0 ∧ t.tim.stepped = true
      ∧ t.tim.corrections = s.tim.corrections + 1 ∧ t.tim.stepAt = BitVec.ofNat 64 s.tim.stallAt)
  ∧ (∀ s : State, s.mod.state ≠ .off → s.tim.distAt + usT ≤ s.now →
    ∃ t, exec .ftDistribute s = .next t ∧ t.tim.distAt = s.now ∧ Table.read 0 t.tim.dieOff sd1Site = 0
      ∧ (∀ x, x < 64 → (Table.read 0 t.tim.dieOff x).toInt.natAbs ≤ nsT) ∧ t.now = s.now ∧ s.changesOnly t [.tim, .free])
  ∧ (∀ (s : State) (tag : BitVec 16) (v : BitVec 64), s.writes tag (timAddr 0x20) v .installer →
    bits v.toNat 23 16 ≤ 0x10 → 1 ≤ bits v.toNat 15 8 → bits v.toNat 15 8 ≤ 0x3C → 1 ≤ bits v.toNat 7 4 →
    (s.tim.state ≠ .holdover ∨ s.now < s.tim.holdFrom + bits v.toNat 15 8 * secT) →
    ∃ t, exec (.timCtrlWrite tag v) s = .next t ∧ t.responded tag stOk ∧ t.tim.stepbackUs.toNat = bits v.toNat 23 16
      ∧ t.tim.holdMaxS.toNat = bits v.toNat 15 8 ∧ t.tim.markWin.toNat = bits v.toNat 7 4 ∧ t.now = s.now
      ∧ s.changesOnly t [.tim, .adk])
  ∧ (∀ (s : State) (tag : BitVec 16) (v : BitVec 64), s.writes tag (timAddr 0x20) v .installer →
    bits v.toNat 23 16 ≤ 0x10 → 1 ≤ bits v.toNat 15 8 → bits v.toNat 15 8 ≤ 0x3C → 1 ≤ bits v.toNat 7 4 →
    s.tim.state = .holdover → s.tim.holdFrom + bits v.toNat 15 8 * secT ≤ s.now →
    ∃ t, exec (.timCtrlWrite tag v) s = .next t ∧ t.responded tag stOk ∧ t.tim.state = .lost ∧ t.tim.stepbackUs.toNat = bits v.toNat 23 16
      ∧ t.tim.holdMaxS.toNat = bits v.toNat 15 8 ∧ t.tim.markWin.toNat = bits v.toNat 7 4 ∧ t.now = s.now)
  ∧ (∀ (s : State) (tag : BitVec 16) (v : BitVec 64), s.writes tag (timAddr 0x20) v .installer →
    (0x10 < bits v.toNat 23 16 ∨ bits v.toNat 15 8 = 0 ∨ 0x3C < bits v.toNat 15 8 ∨ bits v.toNat 7 4 = 0) →
    ∃ t, exec (.timCtrlWrite tag v) s = .next t ∧ t.responded tag stDenied ∧ s.changesOnly t [.adk])

/-- The power cap, the sensor reading, spare programming and maker modes. Average power above the cap when nothing is capped
sets CAPPED to 1 at once, and still above it 10 ms later to 2. A sensor reading that is due stores the five values.
SPARE_CMD by the maker with a valid map and a free slot appends the map and its CRC; with four slots programmed it is
DENIED. A nonzero maker mode outside TEST is DENIED and changes nothing but the link that answers; in TEST it takes the
target port, one of its own that is training, DOWN with cause 4; mode 0 with target 0, when no mode was set, is accepted. -/
def Obligations.PowerCapAndSensors : Prop :=
  (∀ (s : State) (w : BitVec 16), s.alive = true → s.glb.capW.toNat < w.toNat → s.glb.capped = 0 →
    ∃ t, exec (.powerCapCheck w) s = .next t ∧ t.glb.capped = 1 ∧ t.glb.avgW = w ∧ t.glb.capAt = s.now
      ∧ s.changesOnly t [.glb, .log, .evq, .adk])
  ∧ (∀ (s : State) (w : BitVec 16), s.alive = true → s.glb.capW.toNat < w.toNat → s.glb.capped = 1 → s.glb.capAt + 10 * msT ≤ s.now →
    ∃ t, exec (.powerCapCheck w) s = .next t ∧ t.glb.capped = 2 ∧ t.glb.avgW = w ∧ t.glb.capAt = s.now
      ∧ s.changesOnly t [.glb, .log, .evq, .adk])
  ∧ (∀ (s : State) (r : Reading), s.mod.state ≠ .off → gridDue msT s.log.lastSensor s.now = true →
    ∃ t, exec (.sensorSample r) s = .next t ∧ t.mod.vin = r.vin ∧ t.mod.iin = r.iin ∧ t.mod.tOut = r.tOut ∧ t.mod.tIn = r.tIn
      ∧ t.mod.flow = r.flow ∧ t.mod.state = s.mod.state ∧ s.changesOnly t [.mod, .log, .evq, .adk])
  ∧ (∀ (s : State) (tag : BitVec 16), s.writes tag (glbAddr 0x120) 1 .maker → mapValid s.spareEntries = true →
    s.pkg.spareSlots.length < 4 →
    ∃ t, exec (.spareProgram tag) s = .next t ∧ t.responded tag stOk
      ∧ t.pkg.spareSlots = s.pkg.spareSlots ++ [(s.spareEntries, mapCrc s.spareEntries)] ∧ t.glb.spareRes = stOk
      ∧ s.changesOnly t [.pkg, .glb, .adk])
  ∧ (∀ (s : State) (tag : BitVec 16), s.writes tag (glbAddr 0x120) 1 .maker → 4 ≤ s.pkg.spareSlots.length →
    ∃ t, exec (.spareProgram tag) s = .next t ∧ t.responded tag stDenied ∧ t.pkg = s.pkg ∧ t.glb = { s.glb with spareRes := stDenied }
      ∧ s.changesOnly t [.glb, .adk])
  ∧ (∀ (s : State) (tag : BitVec 16) (v : BitVec 64), s.writes tag (glbAddr 0x130) v .maker → s.mod.state = .test →
    (bits v.toNat 7 0 = 1 ∨ bits v.toNat 7 0 = 2) → s.glb.makerMode = 0 → s.plainPort (bits v.toNat 15 8) →
    (s.link (bits v.toNat 15 8)).state = .training →
    ∃ t, exec (.makerModeWrite tag v) s = .next t ∧ t.responded tag stOk ∧ t.glb.makerMode.toNat = bits v.toNat 7 0
      ∧ t.glb.makerTgt.toNat = bits v.toNat 15 8 ∧ (t.link (bits v.toNat 15 8)).state = .down
      ∧ (t.link (bits v.toNat 15 8)).downCause = 4 ∧ s.otherPorts t (bits v.toNat 15 8) ∧ s.changesOnly t [.glb, .ports, .adk])
  ∧ (∀ (s : State) (tag : BitVec 16) (v : BitVec 64), s.writes tag (glbAddr 0x130) v .maker → s.mod.state ≠ .test →
    bits v.toNat 7 0 ≠ 0 →
    ∃ t, exec (.makerModeWrite tag v) s = .next t ∧ t.responded tag stDenied ∧ s.changesOnly t [.adk])
  ∧ (∀ (s : State) (tag : BitVec 16), s.writes tag (glbAddr 0x130) 0 .maker → s.glb.makerMode = 0 →
    ∃ t, exec (.makerModeWrite tag 0) s = .next t ∧ t.responded tag stOk ∧ t.glb.makerMode = 0 ∧ t.glb.makerErrs = 0
      ∧ t.glb.makerLock = false ∧ s.changesOnly t [.glb, .adk])

/-- A port trains, initialises and goes down. On a port of its own (no bundle): signal on an enabled port that is DOWN starts
training; completed training enters INIT, where an INIT word carries the credits advertised and none of the peer's are
spent; while the signal is there an attempt of 100 ms ends and a new one starts at once; an INIT word whose LCRC holds with
sufficient credits of the peer enters HELLO and queues the HELLO frame, one with insufficient credits leaves the port in
INIT with event 0x48, and one whose LCRC fails does nothing; loss of signal in HELLO takes the port DOWN with cause 1, and
loss of codeword lock there (cause 0x01 is the model's reading, log 131) trains it again. No other port changes. -/
def Obligations.LinkTrains : Prop :=
  (∀ (s : State) (port : BitVec 8), s.plainPort port.toNat → s.enabledPort port.toNat = true → (s.link port.toNat).state = .down →
    ∃ t, exec (.signalPresent port) s = .next t ∧ (t.link port.toNat).state = .training ∧ (t.link port.toNat).signal = true
      ∧ (t.link port.toNat).trainAt = s.now
      ∧ (t.link port.toNat).retrains = (if (s.link port.toNat).again then (s.link port.toNat).retrains + 1 else (s.link port.toNat).retrains)
      ∧ s.otherPorts t port.toNat ∧ s.changesOnly t [.ports])
  ∧ (∀ (s : State) (port : BitVec 8), s.plainPort port.toNat → (s.link port.toNat).state = .training →
    ∃ t, exec (.trainingComplete port) s = .next t ∧ (t.link port.toNat).state = .init ∧ (t.link port.toNat).lcwOut.typ = 2
      ∧ (∀ v, v < 8 → (t.link port.toNat).lcwOut.credits[v]? = some (BitVec.ofNat 16 (advertised (s.link port.toNat).cls v)))
      ∧ (t.link port.toNat).credSpent = [] ∧ s.otherPorts t port.toNat ∧ s.changesOnly t [.ports])
  ∧ (∀ (s : State) (port : BitVec 8), s.plainPort port.toNat → s.enabledPort port.toNat = true → (s.link port.toNat).state = .training →
    (s.link port.toNat).signal = true → (s.link port.toNat).trainAt + 100 * msT ≤ s.now →
    ∃ t, exec (.trainingAttemptTimeout port) s = .next t ∧ (t.link port.toNat).state = .training
      ∧ (t.link port.toNat).trainAt = s.now ∧ s.otherPorts t port.toNat ∧ s.changesOnly t [.ports])
  ∧ (∀ (s : State) (port : BitVec 8) (w : Lcw), s.plainPort port.toNat → (s.link port.toNat).state = .init → w.typ = 2 →
    w.good = true → creditsEnough (s.link port.toNat).cls w = true →
    ∃ t, exec (.lcwInit port w) s = .next t ∧ (t.link port.toNat).state = .hello ∧ (t.link port.toNat).helloSent = true
      ∧ (t.link port.toNat).helloTxAt = s.now ∧ (t.link port.toNat).helloRxAt = s.now
      ∧ (∀ v, v < 8 → Table.read 0 (t.link port.toNat).peerCred v = w.credits.getD v 0)
      ∧ (t.port port.toNat).tc.vc6 = (s.port port.toNat).tc.vc6 ++ [s.helloFrame port.toNat]
      ∧ s.otherPorts t port.toNat ∧ s.changesOnly t [.ports])
  ∧ (∀ (s : State) (port : BitVec 8) (w : Lcw), s.plainPort port.toNat → (s.link port.toNat).state = .init → w.typ = 2 →
    w.good = true → creditsEnough (s.link port.toNat).cls w = false → s.evq.mask.getLsbD 0x48 = false → s.evq.lost = 0 →
    s.evq.queue.length < 4096 →
    ∃ t, exec (.lcwInit port w) s = .next t ∧ (t.link port.toNat).state = .init
      ∧ t.evq.queue = s.evq.queue ++ [s.mkEvent 0x48 3 (srcP port.toNat) 0 0xFFFFFFFF] ∧ s.otherPorts t port.toNat ∧ s.changesOnly t [.ports, .evq])
  ∧ (∀ (s : State) (port : BitVec 8) (w : Lcw), w.good = false → exec (.lcwInit port w) s = .next s)
  ∧ (∀ (s : State) (port : BitVec 8), s.plainPort port.toNat → s.enabledPort port.toNat = true → (s.link port.toNat).state = .hello →
    (s.link port.toNat).signal = true →
    ∃ t, exec (.lossOfSignal port true) s = .next t ∧ (t.link port.toNat).state = .training ∧ (t.link port.toNat).downCause = 1
      ∧ (t.link port.toNat).replay = (s.link port.toNat).replay
      ∧ s.otherPorts t port.toNat ∧ s.changesOnly t [.ports, .log, .evq, .adk])
  ∧ (∀ (s : State) (port : BitVec 8), s.plainPort port.toNat → (s.link port.toNat).state = .hello →
    ∃ t, exec (.lossOfSignal port false) s = .next t ∧ (t.link port.toNat).state = .down ∧ (t.link port.toNat).downCause = 1
      ∧ (t.link port.toNat).signal = false ∧ (t.link port.toNat).replay = (s.link port.toNat).replay
      ∧ s.otherPorts t port.toNat ∧ s.changesOnly t [.ports, .log, .evq, .adk])

/-- Link control words, replay and discarded frames. On a port of its own in HELLO, OPEN or FENCED: a normal word whose LCRC
holds returns credits and drops the acknowledged frames; a NAK word, and 2 µs without acknowledgment, replay the
unacknowledged frames, which stay held, and count a replay; after eight replays without acknowledgment the port (in HELLO,
enabled, its signal there) trains again with cause 2; an acknowledgment is sent 200 ns after it is owed; the first frame
rejected by FEC, CRC-32C or sequence number since the last good one sends a NAK and does not advance the sequence number,
and counts as a CRC failure when FEC or the CRC failed; a further one out of sequence, and a good one (which is no reject),
change nothing; a frame in order whose HCRC fails takes its sequence number, its credits are freed and it is counted. Words
whose LCRC fails do nothing. -/
def Obligations.LinkCreditsAndReplay : Prop :=
  (∀ (s : State) (port : BitVec 8) (w : Lcw) (i : Nat), s.plainPort port.toNat → (s.link port.toNat).state.flows = true → w.typ = 0 →
    w.good = true → w.ackV = true → (s.link port.toNat).replay.findIdx? (fun e => e.1 == w.ackSeq) = some i →
    ∃ t, exec (.lcwNormal port w) s = .next t ∧ (t.link port.toNat).replay = (s.link port.toNat).replay.drop (i + 1)
      ∧ (t.link port.toNat).ackAt = s.now ∧ (t.link port.toNat).replays = 0
      ∧ (∀ v, v < 8 → Table.read 0 (t.link port.toNat).credBack v = w.credits.getD v 0)
      ∧ (t.link port.toNat).state = (s.link port.toNat).state ∧ s.otherPorts t port.toNat ∧ s.changesOnly t [.ports])
  ∧ (∀ (s : State) (port : BitVec 8) (w : Lcw), s.plainPort port.toNat → (s.link port.toNat).state.flows = true → w.typ = 1 →
    w.good = true → w.ackV = false → (s.link port.toNat).replay ≠ [] → (s.link port.toNat).replays < 8 →
    ∃ t, exec (.lcwNak port w) s = .next t ∧ (t.link port.toNat).replays = (s.link port.toNat).replays + 1
      ∧ (t.link port.toNat).ackAt = s.now ∧ (t.link port.toNat).replay = (s.link port.toNat).replay
      ∧ (t.link port.toNat).cntReplay = (bump (s.link port.toNat).cntReplay).1
      ∧ s.otherPorts t port.toNat ∧ s.changesOnly t [.ports, .evq, .adk])
  ∧ (∀ (s : State) (port : BitVec 8), s.plainPort port.toNat → (s.link port.toNat).state.flows = true →
    (s.link port.toNat).replay ≠ [] → (s.link port.toNat).replays < 8 → (s.link port.toNat).ackAt + 2 * usT ≤ s.now →
    ∃ t, exec (.replayTimeout port) s = .next t ∧ (t.link port.toNat).replays = (s.link port.toNat).replays + 1
      ∧ (t.link port.toNat).ackAt = s.now ∧ (t.link port.toNat).replay = (s.link port.toNat).replay
      ∧ (t.link port.toNat).cntReplay = (bump (s.link port.toNat).cntReplay).1
      ∧ s.otherPorts t port.toNat ∧ s.changesOnly t [.ports, .evq, .adk])
  ∧ (∀ (s : State) (port : BitVec 8), s.plainPort port.toNat → (s.link port.toNat).state = .hello → (s.link port.toNat).signal = true →
    s.enabledPort port.toNat = true → (s.link port.toNat).replay ≠ [] → 8 ≤ (s.link port.toNat).replays →
    (s.link port.toNat).ackAt + 2 * usT ≤ s.now →
    ∃ t, exec (.replayTimeout port) s = .next t ∧ (t.link port.toNat).state = .training ∧ (t.link port.toNat).downCause = 2
      ∧ (t.link port.toNat).replay = (s.link port.toNat).replay ∧ s.otherPorts t port.toNat
      ∧ s.changesOnly t [.ports, .log, .evq, .adk])
  ∧ (∀ (s : State) (port : BitVec 8) (since : FT), s.plainPort port.toNat → (s.link port.toNat).state.flows = true →
    (s.link port.toNat).owedAck = some since → since + 200 * nsT ≤ s.now →
    ∃ t, exec (.lcwSendTimer port) s = .next t ∧ (t.link port.toNat).owedAck = none ∧ (t.link port.toNat).lcwOut.typ = 0
      ∧ (t.link port.toNat).lcwOut.ackV = (s.link port.toNat).rxAny ∧ (t.link port.toNat).lcwOut.ackSeq = (s.link port.toNat).rxSeq - 1
      ∧ (∀ v, v < 8 → (t.link port.toNat).lcwOut.credits[v]? = some (Table.read 0 (s.link port.toNat).credFreed v))
      ∧ s.otherPorts t port.toNat ∧ s.changesOnly t [.ports])
  ∧ (∀ (s : State) (port : BitVec 8) (w : Lcw), w.good = false → exec (.lcwNormal port w) s = .next s)
  ∧ (∀ (s : State) (port : BitVec 8) (w : Lcw), w.good = false → exec (.lcwNak port w) s = .next s)
  ∧ (∀ (s : State) (port : BitVec 8) (frame : Frame) (lseq : BitVec 12) (crc : BitVec 32) (fec : Bool), s.plainPort port.toNat → (s.link port.toNat).state.flows = true →
    (s.link port.toNat).nakSent = false → (fec = true ∨ crc ≠ frame.linkCrc lseq) →
    ∃ t, exec (.frameLinkReject port frame lseq crc fec) s = .next t ∧ (t.link port.toNat).nakSent = true ∧ (t.link port.toNat).lcwOut.typ = 1
      ∧ (t.link port.toNat).lcwOut.ackSeq = (s.link port.toNat).rxSeq - 1 ∧ (t.link port.toNat).rxSeq = (s.link port.toNat).rxSeq
      ∧ (t.link port.toNat).cntCrc = (bump (s.link port.toNat).cntCrc).1
      ∧ s.otherPorts t port.toNat ∧ s.changesOnly t [.ports, .evq, .adk])
  ∧ (∀ (s : State) (port : BitVec 8) (frame : Frame) (lseq : BitVec 12) (crc : BitVec 32) (fec : Bool), s.plainPort port.toNat → (s.link port.toNat).state.flows = true →
    (s.link port.toNat).nakSent = false → fec = false → crc = frame.linkCrc lseq → lseq ≠ (s.link port.toNat).rxSeq →
    ∃ t, exec (.frameLinkReject port frame lseq crc fec) s = .next t ∧ (t.link port.toNat).nakSent = true ∧ (t.link port.toNat).lcwOut.typ = 1
      ∧ (t.link port.toNat).lcwOut.ackSeq = (s.link port.toNat).rxSeq - 1 ∧ (t.link port.toNat).rxSeq = (s.link port.toNat).rxSeq
      ∧ (t.link port.toNat).cntCrc = (s.link port.toNat).cntCrc ∧ s.otherPorts t port.toNat ∧ s.changesOnly t [.ports])
  ∧ (∀ (s : State) (port : BitVec 8) (frame : Frame) (lseq : BitVec 12) (crc : BitVec 32) (fec : Bool), s.plainPort port.toNat → (s.link port.toNat).state.flows = true →
    fec = false → crc = frame.linkCrc lseq → ((s.link port.toNat).nakSent = true ∨ lseq = (s.link port.toNat).rxSeq) →
    exec (.frameLinkReject port frame lseq crc fec) s = .next s)
  ∧ (∀ (s : State) (port : BitVec 8) (frame : Frame) (hcrc : BitVec 16), s.plainPort port.toNat → (s.link port.toNat).cls ≠ 3 →
    (s.link port.toNat).state.flows = true → hcrc ≠ frame.hcrc →
    (s.link port.toNat).outstanding frame.vc.toNat + creditCost frame ≤ s.advertises port.toNat frame.vc.toNat →
    ∃ t, exec (.hcrcDiscard port frame hcrc) s = .next t ∧ (t.link port.toNat).rxSeq = (s.link port.toNat).rxSeq + 1
      ∧ (t.link port.toNat).cntDiscard = (bump (s.link port.toNat).cntDiscard).1
      ∧ Table.read 0 (t.link port.toNat).credFreed frame.vc.toNat
          = Table.read 0 (s.link port.toNat).credFreed frame.vc.toNat + BitVec.ofNat 16 (creditCost frame)
      ∧ s.otherPorts t port.toNat ∧ s.changesOnly t [.ports, .log, .evq, .adk])

/-- Peers meet, are lost, change and are accepted. On a port of its own: a HELLO of the right member and bundle that the credits
allow, from a first peer, opens a C port and records the peer; another peer in its place, where the target is dead already,
fences the port with cause 7 and drops the frames held for replay; HELLO is sent each period; three periods of silence,
where the target is dead already, take the port out of HELLO with cause 5; the operator may retrain a port in HELLO (cause
4) and accept a changed peer on a C port; the target limit passed while a C port is not OPEN, with nothing under way, makes
its target dead, with event 0x49. A skewed member of a bundle in HELLO, not its base nor its last, leaves the bundle and
trains. -/
def Obligations.PeersMeet : Prop :=
  (∀ (s : State) (port : BitVec 8) (f : Frame), s.plainPort port.toNat → (s.link port.toNat).cls = 2 →
    (s.link port.toNat).state = .hello → (s.link port.toNat).helloSent = true → (s.link port.toNat).peerKnown = false →
    f.opcode = 0x60 → f.vc = 6 → wellShaped f = true → field f.payload 2 1 = 0x40 → field f.payload 6 1 = 1 →
    (s.link port.toNat).outstanding 6 + creditCost f ≤ s.advertises port.toNat 6 →
    ∃ t, exec (.hello port f) s = .next t ∧ (t.link port.toNat).state = .opened ∧ (t.link port.toNat).peerKnown = true
      ∧ (t.link port.toNat).peerId.toNat = field f.payload 8 8 ∧ (t.link port.toNat).peerUnit.toNat = field f.payload 0 2
      ∧ (t.link port.toNat).dead = false ∧ (t.link port.toNat).rxSeq = (s.link port.toNat).rxSeq + 1
      ∧ s.otherPorts t port.toNat ∧ s.changesOnly t [.ports, .log, .evq, .adk])
  ∧ (∀ (s : State) (port : BitVec 8) (f : Frame), s.plainPort port.toNat → (s.link port.toNat).cls = 2 → (s.link port.toNat).dead = true →
    (s.link port.toNat).state = .hello → (s.link port.toNat).peerKnown = true →
    f.opcode = 0x60 → f.vc = 6 → wellShaped f = true → field f.payload 2 1 = 0x40 → field f.payload 6 1 = 1 →
    (s.link port.toNat).outstanding 6 + creditCost f ≤ s.advertises port.toNat 6 →
    field f.payload 8 8 ≠ (s.link port.toNat).peerId.toNat →
    ∃ t, exec (.hello port f) s = .next t ∧ (t.link port.toNat).state = .fenced ∧ (t.link port.toNat).downCause = 7
      ∧ (t.link port.toNat).peerChg = true ∧ (t.link port.toNat).peerId = (s.link port.toNat).peerId
      ∧ (t.link port.toNat).lastId.toNat = field f.payload 8 8 ∧ (t.link port.toNat).replay = []
      ∧ s.otherPorts t port.toNat ∧ s.changesOnly t [.ports, .pkg, .evq, .adk])
  ∧ (∀ (s : State) (port : BitVec 8), s.plainPort port.toNat → (s.link port.toNat).state.flows = true →
    (s.link port.toNat).helloTxAt + (s.link port.toNat).helloUs.toNat * usT ≤ s.now →
    ∃ t, exec (.helloPeriodTimer port) s = .next t ∧ (t.link port.toNat).helloTxAt = s.now
      ∧ (t.port port.toNat).tc.vc6 = (s.port port.toNat).tc.vc6 ++ [s.helloFrame port.toNat]
      ∧ s.otherPorts t port.toNat ∧ s.changesOnly t [.ports])
  ∧ (∀ (s : State) (port : BitVec 8) (us : BitVec 16), s.plainPort port.toNat → (s.link port.toNat).state = .hello →
    (s.link port.toNat).dead = true → (s.link port.toNat).peerHelloUs = some us →
    (s.link port.toNat).helloRxAt + 3 * us.toNat * usT ≤ s.now →
    ∃ t, exec (.helloSilenceTimeout port) s = .next t ∧ (t.link port.toNat).downCause = 5
      ∧ ((t.link port.toNat).state = .down ∨ (t.link port.toNat).state = .training)
      ∧ s.otherPorts t port.toNat ∧ s.changesOnly t [.ports, .log, .evq, .adk])
  ∧ (∀ (s : State) (tag : BitVec 16) (port : BitVec 8), s.writes tag (prtAddr port.toNat 0x18) (1 <<< 34) .operator →
    s.plainPort port.toNat → (s.link port.toNat).state = .hello →
    ∃ t, exec (.prtPeerRetrain tag port) s = .next t ∧ t.responded tag stOk ∧ (t.link port.toNat).downCause = 4
      ∧ ((t.link port.toNat).state = .down ∨ (t.link port.toNat).state = .training)
      ∧ s.otherPorts t port.toNat ∧ s.changesOnly t [.ports, .log, .evq, .adk])
  ∧ (∀ (s : State) (tag : BitVec 16) (port : BitVec 8), s.writes tag (prtAddr port.toNat 0x18) (1 <<< 33) .operator →
    s.plainPort port.toNat → (s.link port.toNat).cls = 2 → (s.link port.toNat).state = .fenced → (s.link port.toNat).downCause = 7 →
    ∃ t, exec (.prtPeerAck tag port) s = .next t ∧ t.responded tag stOk ∧ (t.link port.toNat).state = .opened
      ∧ (t.link port.toNat).peerId = (s.link port.toNat).lastId
      ∧ s.otherPorts t port.toNat ∧ s.changesOnly t [.ports, .log, .evq, .adk])
  ∧ (∀ (s : State) (port : BitVec 8), s.plainPort port.toNat → s.enabledPort port.toNat = true → s.quiet → (s.link port.toNat).cls = 2 →
    (s.link port.toNat).state ≠ .opened → (s.link port.toNat).dead = false →
    (s.link port.toNat).outAt + s.targetLimit ≤ s.now → s.evq.mask.getLsbD 0x49 = false → s.evq.lost = 0 →
    s.evq.queue.length < 4096 →
    ∃ t, exec (.targetLimitExpiry port) s = .next t ∧ (t.link port.toNat).dead = true
      ∧ t.evq.queue = s.evq.queue ++ [s.mkEvent 0x49 1 (srcP port.toNat) (s.link port.toNat).peerUnit.toNat 0xFFFFFFFF]
      ∧ s.otherPorts t port.toNat ∧ s.changesOnly t [.ports, .evq])
  ∧ (∀ (s : State) (port : BitVec 8), s.alive = true → s.bundled port.toNat = true → s.enabledPort port.toNat = true →
    (s.link port.toNat).signal = true → s.isMember port.toNat = true → s.base port.toNat ≠ port.toNat →
    (s.link (s.base port.toNat)).state = .hello →
    (s.link (s.base port.toNat)).membersUp &&& ~~~((1 : BitVec 8) <<< (s.link port.toNat).bundleOff.toNat) ≠ 0 →
    ∃ t, exec (.bundleSkewTimeout port) s = .next t ∧ (t.link port.toNat).solo = .training
      ∧ (t.link (s.base port.toNat)).membersUp
          = (s.link (s.base port.toNat)).membersUp &&& ~~~((1 : BitVec 8) <<< (s.link port.toNat).bundleOff.toNat)
      ∧ (t.link (s.base port.toNat)).state = .hello ∧ s.changesOnly t [.ports, .log, .evq, .adk])

/-- Scalar instructions: one register, the program counter, and nothing else. A thread that issues (its core runs, it is READY,
its program counter lies in its program and nothing it reads is pending) advances by 8. NOP does no more; ALU and ALUI write
their function of XA and XB or the immediate to XD; MOVI the sign-extended immediate; MOVHI the immediate in bits 63 to 32
over the old bits 31 to 0; BR goes to its own address plus 8 times the immediate when its condition holds; JAL writes the
address of the next instruction and jumps to XA plus the immediate; GETS writes the system value selected. X0 reads 0 and a
write to it is discarded. No other thread, core, engine, memory or part of the state changes. Functions of a shift by 64 or
more are free values (log 24). -/
def Obligations.ScalarInstructions : Prop :=
  (∀ (s : State) (core : BitVec 10) (tid : BitVec 6) (ins : Ins), s.issues core.toNat tid.toNat [] →
    ∃ t, exec (.nop core tid ins) s = .next t ∧ t.thread core.toNat tid.toNat = s.advanced core.toNat tid.toNat ∧ s.threadOnly t core.toNat tid.toNat)
  ∧ (∀ (s : State) (core : BitVec 10) (tid : BitVec 6) (ins : Ins), s.issues core.toNat tid.toNat [ins.xa.toNat, ins.xb.toNat] →
    ∃ t, exec (.alu core tid ins) s = .next t ∧ t.thread core.toNat tid.toNat = (s.advanced core.toNat tid.toNat).put ins.xd.toNat (aluOp (bits ins.fn.toNat 3 0) ((s.thread core.toNat tid.toNat).get ins.xa.toNat) ((s.thread core.toNat tid.toNat).get ins.xb.toNat)) ∧ s.threadOnly t core.toNat tid.toNat)
  ∧ (∀ (s : State) (core : BitVec 10) (tid : BitVec 6) (ins : Ins), s.issues core.toNat tid.toNat [ins.xa.toNat] →
    ∃ t, exec (.alui core tid ins) s = .next t ∧ t.thread core.toNat tid.toNat = (s.advanced core.toNat tid.toNat).put ins.xd.toNat (aluOp (bits ins.fn.toNat 3 0) ((s.thread core.toNat tid.toNat).get ins.xa.toNat) (ins.imm.signExtend 64)) ∧ s.threadOnly t core.toNat tid.toNat)
  ∧ (∀ (s : State) (core : BitVec 10) (tid : BitVec 6) (ins : Ins), s.issues core.toNat tid.toNat [] →
    ∃ t, exec (.movi core tid ins) s = .next t ∧ t.thread core.toNat tid.toNat = (s.advanced core.toNat tid.toNat).put ins.xd.toNat (ins.imm.signExtend 64) ∧ s.threadOnly t core.toNat tid.toNat)
  ∧ (∀ (s : State) (core : BitVec 10) (tid : BitVec 6) (ins : Ins), s.issues core.toNat tid.toNat [ins.xd.toNat] →
    ∃ t, exec (.movhi core tid ins) s = .next t ∧ t.thread core.toNat tid.toNat = (s.advanced core.toNat tid.toNat).put ins.xd.toNat (ins.imm ++ ((s.thread core.toNat tid.toNat).get ins.xd.toNat).setWidth 32) ∧ s.threadOnly t core.toNat tid.toNat)
  ∧ (∀ (s : State) (core : BitVec 10) (tid : BitVec 6) (ins : Ins), s.issues core.toNat tid.toNat [ins.xa.toNat, ins.xb.toNat] → bits ins.fn.toNat 2 0 ≠ 7 →
    ∃ t, exec (.br core tid ins) s = .next t ∧ t.thread core.toNat tid.toNat = { s.thread core.toNat tid.toNat with pc := if brTaken (bits ins.fn.toNat 2 0) ((s.thread core.toNat tid.toNat).get ins.xa.toNat) ((s.thread core.toNat tid.toNat).get ins.xb.toNat) then (s.thread core.toNat tid.toNat).pc + 8 * (ins.imm.signExtend 64) else (s.thread core.toNat tid.toNat).pc + 8 } ∧ s.threadOnly t core.toNat tid.toNat)
  ∧ (∀ (s : State) (core : BitVec 10) (tid : BitVec 6) (ins : Ins), s.issues core.toNat tid.toNat [ins.xa.toNat] →
    ∃ t, exec (.jal core tid ins) s = .next t ∧ t.thread core.toNat tid.toNat = { (s.advanced core.toNat tid.toNat).put ins.xd.toNat ((s.thread core.toNat tid.toNat).pc + 8) with pc := (((s.thread core.toNat tid.toNat).get ins.xa.toNat) + (ins.imm.signExtend 64)) } ∧ s.threadOnly t core.toNat tid.toNat)
  ∧ (∀ (s : State) (core : BitVec 10) (tid : BitVec 6) (ins : Ins), s.issues core.toNat tid.toNat [] → bits ins.imm.toNat 3 0 ≠ 6 →
    ∃ t, exec (.gets core tid ins) s = .next t ∧ t.thread core.toNat tid.toNat = (s.advanced core.toNat tid.toNat).put ins.xd.toNat (match bits ins.imm.toNat 3 0 with
      | 0 => BitVec.ofNat 64 tid.toNat | 1 => BitVec.ofNat 64 core.toNat | 2 => BitVec.ofNat 64 (core.toNat / 32)
      | 3 => BitVec.ofNat 64 (s.now / 16) | 4 => (s.core core.toNat).tenant.setWidth 64 | 5 => (s.core core.toNat).pvUnit.setWidth 64
      | 7 => BitVec.ofNat 64 (s.thread core.toNat tid.toNat).mcnt | 8 => BitVec.ofNat 64 (s.thread core.toNat tid.toNat).ecnt | _ => 0) ∧ s.threadOnly t core.toNat tid.toNat)
  ∧ (∀ (s : State) (core : BitVec 10) (tid : BitVec 6) (ins : Ins), s.issues core.toNat tid.toNat [] → bits ins.imm.toNat 3 0 = 6 →
    ∃ t, exec (.gets core tid ins) s = .next t ∧ (t.thread core.toNat tid.toNat).get ins.xd.toNat = (if ins.xd = 0 then 0 else BitVec.ofNat 64 ((s.thread core.toNat tid.toNat).statusCode.toNat
        + (s.thread core.toNat tid.toNat).statusTva.toNat * 256))
      ∧ (t.thread core.toNat tid.toNat).statusCode = 0 ∧ (t.thread core.toNat tid.toNat).statusTva = 0 ∧ (t.thread core.toNat tid.toNat).pc = (s.thread core.toNat tid.toNat).pc + 8 ∧ s.threadOnly t core.toNat tid.toNat)
  ∧ (∀ a b : BitVec 64, aluOp 0 a b = a + b ∧ aluOp 1 a b = a - b ∧ aluOp 2 a b = a &&& b ∧ aluOp 3 a b = a ||| b ∧ aluOp 4 a b = a ^^^ b
    ∧ aluOp 8 a b = a * b ∧ aluOp 9 a b = (a.zeroExtend 128 * b.zeroExtend 128).extractLsb' 64 64
    ∧ (aluOp 10 a b).toInt = min a.toInt b.toInt ∧ (aluOp 11 a b).toInt = max a.toInt b.toInt
    ∧ (aluOp 12 a b).toNat = min a.toNat b.toNat ∧ (aluOp 13 a b).toNat = max a.toNat b.toNat
    ∧ aluOp 14 a b = (if a.toInt < b.toInt then 1 else 0) ∧ aluOp 15 a b = (if a.toNat < b.toNat then 1 else 0))
  ∧ (∀ (a : BitVec 64) (n : Nat), n < 64 → aluOp 5 a (BitVec.ofNat 64 n) = a <<< n ∧ aluOp 6 a (BitVec.ofNat 64 n) = a >>> n
    ∧ aluOp 7 a (BitVec.ofNat 64 n) = a.sshiftRight n)

/-- Local loads, stores, atomics and copies. An aligned local access in an open region: LDL writes the bytes at XA plus the
immediate, zero-extended, to XD; STL stores the low bytes of XB there and ATL the result of its operation, with the old
value to XD, and no other byte of the scratchpads or cluster memories changes. An LDL that is closed to the core faults the
thread with cause 2, a misaligned STL in an open region with cause 3. COPYL between open regions waits in WAIT_MEM, and its
completion copies the bytes and makes the thread READY. -/
def Obligations.LocalMemoryInstructions : Prop :=
  (∀ (s : State) (core : BitVec 10) (tid : BitVec 6) (ins : Ins), s.issues core.toNat tid.toNat [ins.xa.toNat] →
    localOk s.comp.run core.toNat (((s.thread core.toNat tid.toNat).get ins.xa.toNat) + (ins.imm.signExtend 64)).toNat (2 ^ bits ins.fn.toNat 1 0) false = true → (((s.thread core.toNat tid.toNat).get ins.xa.toNat) + (ins.imm.signExtend 64)).toNat % 2 ^ bits ins.fn.toNat 1 0 = 0 →
    ∃ t, exec (.ldl core tid ins) s = .next t ∧ t.thread core.toNat tid.toNat = (s.advanced core.toNat tid.toNat).put ins.xd.toNat (BitVec.ofNat 64 (leNat (s.localBytes core.toNat (((s.thread core.toNat tid.toNat).get ins.xa.toNat) + (ins.imm.signExtend 64)).toNat (2 ^ bits ins.fn.toNat 1 0)))) ∧ s.threadOnly t core.toNat tid.toNat)
  ∧ (∀ (s : State) (core : BitVec 10) (tid : BitVec 6) (ins : Ins), s.issues core.toNat tid.toNat [ins.xa.toNat, ins.xb.toNat] →
    localOk s.comp.run core.toNat (((s.thread core.toNat tid.toNat).get ins.xa.toNat) + (ins.imm.signExtend 64)).toNat (2 ^ bits ins.fn.toNat 1 0) true = true → (((s.thread core.toNat tid.toNat).get ins.xa.toNat) + (ins.imm.signExtend 64)).toNat % 2 ^ bits ins.fn.toNat 1 0 = 0 →
    ∃ t, exec (.stl core tid ins) s = .next t ∧ (t.thread core.toNat tid.toNat).pc = (s.thread core.toNat tid.toNat).pc + 8 ∧ (t.thread core.toNat tid.toNat).x = (s.thread core.toNat tid.toNat).x ∧ s.localStored t core.toNat (((s.thread core.toNat tid.toNat).get ins.xa.toNat) + (ins.imm.signExtend 64)).toNat (leBytes (2 ^ bits ins.fn.toNat 1 0) ((s.thread core.toNat tid.toNat).get ins.xb.toNat).toNat)
      ∧ s.changesOnly t [.cpu])
  ∧ (∀ (s : State) (core : BitVec 10) (tid : BitVec 6) (ins : Ins), s.issues core.toNat tid.toNat [ins.xa.toNat, ins.xb.toNat, ins.xd.toNat] →
    localOk s.comp.run core.toNat (((s.thread core.toNat tid.toNat).get ins.xa.toNat) + (ins.imm.signExtend 64)).toNat (if ins.fn.getLsbD 3 then 4 else 8) true = true → (((s.thread core.toNat tid.toNat).get ins.xa.toNat) + (ins.imm.signExtend 64)).toNat % (if ins.fn.getLsbD 3 then 4 else 8) = 0 → bits ins.fn.toNat 2 0 ≤ 4 →
    ∃ t, exec (.atl core tid ins) s = .next t ∧ (t.thread core.toNat tid.toNat).pc = (s.thread core.toNat tid.toNat).pc + 8 ∧ (∀ i, i ≠ ins.xd.toNat → (t.thread core.toNat tid.toNat).get i = (s.thread core.toNat tid.toNat).get i)
      ∧ (t.thread core.toNat tid.toNat).get ins.xd.toNat = (if ins.xd = 0 then 0 else BitVec.ofNat 64 (leNat (s.localBytes core.toNat (((s.thread core.toNat tid.toNat).get ins.xa.toNat) + (ins.imm.signExtend 64)).toNat (if ins.fn.getLsbD 3 then 4 else 8))))
      ∧ s.localStored t core.toNat (((s.thread core.toNat tid.toNat).get ins.xa.toNat) + (ins.imm.signExtend 64)).toNat (leBytes (if ins.fn.getLsbD 3 then 4 else 8) (atlNew (bits ins.fn.toNat 2 0) (8 * (if ins.fn.getLsbD 3 then 4 else 8))
          (leNat (s.localBytes core.toNat (((s.thread core.toNat tid.toNat).get ins.xa.toNat) + (ins.imm.signExtend 64)).toNat (if ins.fn.getLsbD 3 then 4 else 8))) ((s.thread core.toNat tid.toNat).get ins.xb.toNat).toNat ((s.thread core.toNat tid.toNat).get ins.xd.toNat).toNat))
      ∧ s.changesOnly t [.cpu])
  ∧ (∀ old x cmp : Nat, atlNew 0 64 old x cmp = (old + x) % 2 ^ 64 ∧ atlNew 3 32 old x cmp = x % 2 ^ 32
    ∧ atlNew 4 64 old x cmp = (if old = cmp % 2 ^ 64 then x % 2 ^ 64 else old))
  ∧ (∀ (s : State) (core : BitVec 10) (tid : BitVec 6) (ins : Ins), s.issues core.toNat tid.toNat [ins.xa.toNat] →
    localOk s.comp.run core.toNat (((s.thread core.toNat tid.toNat).get ins.xa.toNat) + (ins.imm.signExtend 64)).toNat (2 ^ bits ins.fn.toNat 1 0) false = false →
    ∃ t, exec (.ldl core tid ins) s = .next t ∧ s.faultedAt t core.toNat tid.toNat 2 ∧ s.changesOnly t [.cpu, .log, .evq, .adk])
  ∧ (∀ (s : State) (core : BitVec 10) (tid : BitVec 6) (ins : Ins), s.issues core.toNat tid.toNat [ins.xa.toNat, ins.xb.toNat] →
    localOk s.comp.run core.toNat (((s.thread core.toNat tid.toNat).get ins.xa.toNat) + (ins.imm.signExtend 64)).toNat (2 ^ bits ins.fn.toNat 1 0) true = true → (((s.thread core.toNat tid.toNat).get ins.xa.toNat) + (ins.imm.signExtend 64)).toNat % 2 ^ bits ins.fn.toNat 1 0 ≠ 0 →
    ∃ t, exec (.stl core tid ins) s = .next t ∧ s.faultedAt t core.toNat tid.toNat 3 ∧ s.changesOnly t [.cpu, .log, .evq, .adk])
  ∧ (∀ (s : State) (core : BitVec 10) (tid : BitVec 6) (ins : Ins), s.issues core.toNat tid.toNat [ins.xa.toNat, ins.xb.toNat, ins.xd.toNat] →
    localOk s.comp.run core.toNat (((s.thread core.toNat tid.toNat).get ins.xa.toNat) + (ins.imm.signExtend 64)).toNat ((s.thread core.toNat tid.toNat).get ins.xb.toNat).toNat false = true → localOk s.comp.run core.toNat ((s.thread core.toNat tid.toNat).get ins.xd.toNat).toNat ((s.thread core.toNat tid.toNat).get ins.xb.toNat).toNat true = true →
    ∃ t, exec (.copyl core tid ins) s = .next t ∧ t.thread core.toNat tid.toNat = { s.advanced core.toNat tid.toNat with state := .waitMem, wait := .copy (((s.thread core.toNat tid.toNat).get ins.xa.toNat) + (ins.imm.signExtend 64)).toNat ((s.thread core.toNat tid.toNat).get ins.xd.toNat).toNat ((s.thread core.toNat tid.toNat).get ins.xb.toNat).toNat } ∧ s.threadOnly t core.toNat tid.toNat)
  ∧ (∀ (s : State) (core : BitVec 10) (tid : BitVec 6) (a d n : Nat), s.coreUp core.toNat = true →
    (s.thread core.toNat tid.toNat).wait = .copy a d n → (s.thread core.toNat tid.toNat).state = .waitMem →
    ∃ t, exec (.copylComplete core tid) s = .next t ∧ (t.thread core.toNat tid.toNat).state = .ready
      ∧ (t.thread core.toNat tid.toNat).wait = .none ∧ s.localStored t core.toNat d (s.localBytes core.toNat a n) ∧ s.changesOnly t [.cpu])

/-- Fences, acquires, barriers and waits of a thread. CORE_FENCE leaves a thread none of whose earlier stores is outstanding
READY and parks it in WAIT_MEM otherwise; WAITM and WAITE do so by MCNT and ECNT against their limits, in WAIT_MEM and
WAIT_ENG; ACQUIRE empties the core's cache; THREAD_HALT with nothing outstanding leaves the thread IDLE; BAR parks a thread
that is not the last the barrier needs, and the second of two releases both (unless the first has faulted meanwhile); WAITL
returns 1 at once where the word differs from XB and parks the thread otherwise, an eight-byte store that changes the word
releases it with 1 and its time limit with 0; an illegal word, and a branch of condition 7, which is one, fault the thread
with cause 1. -/
def Obligations.ThreadWaits : Prop :=
  (∀ (s : State) (core : BitVec 10) (tid : BitVec 6) (ins : Ins), s.issues core.toNat tid.toNat [] → s.storesOut core.toNat tid.toNat s.req.nextN = false →
    ∃ t, exec (.coreFence core tid ins) s = .next t ∧ t.thread core.toNat tid.toNat = { s.advanced core.toNat tid.toNat with wait := .none } ∧ s.threadOnly t core.toNat tid.toNat)
  ∧ (∀ (s : State) (core : BitVec 10) (tid : BitVec 6) (ins : Ins), s.issues core.toNat tid.toNat [] → s.storesOut core.toNat tid.toNat s.req.nextN = true →
    ∃ t, exec (.coreFence core tid ins) s = .next t ∧ (t.thread core.toNat tid.toNat).state = .waitMem ∧ (t.thread core.toNat tid.toNat).wait = .fence s.req.nextN ∧ (t.thread core.toNat tid.toNat).pc = (s.thread core.toNat tid.toNat).pc + 8 ∧ s.threadOnly t core.toNat tid.toNat)
  ∧ (∀ (s : State) (core : BitVec 10) (tid : BitVec 6) (ins : Ins), s.issues core.toNat tid.toNat [] →
    ∃ t, exec (.acquire core tid ins) s = .next t ∧ t.thread core.toNat tid.toNat = s.advanced core.toNat tid.toNat ∧ (t.core core.toNat).dcache = [] ∧ (t.core core.toNat).acquires = (s.core core.toNat).acquires + 1 ∧ t.cpu.spad = s.cpu.spad ∧ t.cpu.cmem = s.cpu.cmem ∧ s.changesOnly t [.cpu])
  ∧ (∀ (s : State) (core : BitVec 10) (tid : BitVec 6) (ins : Ins), s.issues core.toNat tid.toNat [] → (s.thread core.toNat tid.toNat).ecnt ≤ bits ins.imm.toNat 4 0 →
    ∃ t, exec (.waite core tid ins) s = .next t ∧ t.thread core.toNat tid.toNat = { s.advanced core.toNat tid.toNat with wait := .none } ∧ s.threadOnly t core.toNat tid.toNat)
  ∧ (∀ (s : State) (core : BitVec 10) (tid : BitVec 6) (ins : Ins), s.issues core.toNat tid.toNat [] → bits ins.imm.toNat 4 0 < (s.thread core.toNat tid.toNat).ecnt →
    ∃ t, exec (.waite core tid ins) s = .next t ∧ (t.thread core.toNat tid.toNat).state = .waitEng ∧ (t.thread core.toNat tid.toNat).wait = .ecnt (bits ins.imm.toNat 4 0) ∧ s.threadOnly t core.toNat tid.toNat)
  ∧ (∀ (s : State) (core : BitVec 10) (tid : BitVec 6) (ins : Ins), s.issues core.toNat tid.toNat [] → (s.thread core.toNat tid.toNat).mcnt ≤ bits ins.imm.toNat 6 0 →
    ∃ t, exec (.waitm core tid ins) s = .next t ∧ t.thread core.toNat tid.toNat = { s.advanced core.toNat tid.toNat with wait := .none } ∧ s.threadOnly t core.toNat tid.toNat)
  ∧ (∀ (s : State) (core : BitVec 10) (tid : BitVec 6) (ins : Ins), s.issues core.toNat tid.toNat [] → bits ins.imm.toNat 6 0 < (s.thread core.toNat tid.toNat).mcnt →
    ∃ t, exec (.waitm core tid ins) s = .next t ∧ (t.thread core.toNat tid.toNat).state = .waitMem ∧ (t.thread core.toNat tid.toNat).wait = .mcnt (bits ins.imm.toNat 6 0) ∧ s.threadOnly t core.toNat tid.toNat)
  ∧ (∀ (s : State) (core : BitVec 10) (tid : BitVec 6) (ins : Ins), s.issues core.toNat tid.toNat [] → (s.thread core.toNat tid.toNat).mcnt = 0 → (s.thread core.toNat tid.toNat).ecnt = 0 →
    ∃ t, exec (.threadHalt core tid ins) s = .next t ∧ t.thread core.toNat tid.toNat = { s.advanced core.toNat tid.toNat with state := .idle, wait := .none } ∧ s.threadOnly t core.toNat tid.toNat)
  ∧ (∀ (s : State) (core : BitVec 10) (tid : BitVec 6) (ins : Ins), s.issues core.toNat tid.toNat [] →
    (Table.read [] s.cpu.barHere (clusterOf core.toNat * 16 + bits ins.imm.toNat 3 0)).length + 1 < Table.read 0 s.cpu.barNeed (clusterOf core.toNat * 16 + bits ins.imm.toNat 3 0) →
    ∃ t, exec (.bar core tid ins) s = .next t ∧ (t.thread core.toNat tid.toNat).state = .waitSync ∧ (t.thread core.toNat tid.toNat).pc = (s.thread core.toNat tid.toNat).pc + 8
      ∧ Table.read [] t.cpu.barHere (clusterOf core.toNat * 16 + bits ins.imm.toNat 3 0) = Table.read [] s.cpu.barHere (clusterOf core.toNat * 16 + bits ins.imm.toNat 3 0) ++ [64 * core.toNat + tid.toNat] ∧ s.threadOnly t core.toNat tid.toNat)
  ∧ (∀ (s : State) (core : BitVec 10) (tid : BitVec 6) (ins : Ins) (other : BitVec 10) (who : BitVec 6), s.issues core.toNat tid.toNat [] →
    Table.read [] s.cpu.barHere (clusterOf core.toNat * 16 + bits ins.imm.toNat 3 0) = [64 * other.toNat + who.toNat] → (s.thread other.toNat who.toNat).state ≠ .faulted → Table.read 0 s.cpu.barNeed (clusterOf core.toNat * 16 + bits ins.imm.toNat 3 0) = 2 →
    ∃ t, exec (.bar core tid ins) s = .next t ∧ (t.thread core.toNat tid.toNat).state = .ready ∧ (t.thread other.toNat who.toNat).state = .ready ∧ (t.thread other.toNat who.toNat).wait = .none
      ∧ Table.read [] t.cpu.barHere (clusterOf core.toNat * 16 + bits ins.imm.toNat 3 0) = [] ∧ s.changesOnly t [.cpu])
  ∧ (∀ (s : State) (core : BitVec 10) (tid : BitVec 6) (ins : Ins), s.issues core.toNat tid.toNat [ins.xa.toNat, ins.xb.toNat] →
    localOk s.comp.run core.toNat (((s.thread core.toNat tid.toNat).get ins.xa.toNat) + (ins.imm.signExtend 64)).toNat 8 false = true → (((s.thread core.toNat tid.toNat).get ins.xa.toNat) + (ins.imm.signExtend 64)).toNat % 8 = 0 → BitVec.ofNat 64 (leNat (s.localBytes core.toNat (((s.thread core.toNat tid.toNat).get ins.xa.toNat) + (ins.imm.signExtend 64)).toNat 8)) ≠ ((s.thread core.toNat tid.toNat).get ins.xb.toNat) →
    ∃ t, exec (.waitl core tid ins) s = .next t ∧ t.thread core.toNat tid.toNat = (s.advanced core.toNat tid.toNat).put ins.xd.toNat 1 ∧ s.threadOnly t core.toNat tid.toNat)
  ∧ (∀ (s : State) (core : BitVec 10) (tid : BitVec 6) (ins : Ins), s.issues core.toNat tid.toNat [ins.xa.toNat, ins.xb.toNat] →
    localOk s.comp.run core.toNat (((s.thread core.toNat tid.toNat).get ins.xa.toNat) + (ins.imm.signExtend 64)).toNat 8 false = true → (((s.thread core.toNat tid.toNat).get ins.xa.toNat) + (ins.imm.signExtend 64)).toNat % 8 = 0 → BitVec.ofNat 64 (leNat (s.localBytes core.toNat (((s.thread core.toNat tid.toNat).get ins.xa.toNat) + (ins.imm.signExtend 64)).toNat 8)) = ((s.thread core.toNat tid.toNat).get ins.xb.toNat) →
    ∃ t, exec (.waitl core tid ins) s = .next t ∧ (t.thread core.toNat tid.toNat).state = .waitSync ∧ (t.thread core.toNat tid.toNat).wait = .word (((s.thread core.toNat tid.toNat).get ins.xa.toNat) + (ins.imm.signExtend 64)).toNat ((s.thread core.toNat tid.toNat).get ins.xb.toNat) ins.xd.toNat (if ins.fn = 0 then none else some (s.now + ins.fn.toNat * usT)) ∧ s.threadOnly t core.toNat tid.toNat)
  ∧ (∀ (s : State) (core : BitVec 10) (tid : BitVec 6) (a xd : Nat) (old : BitVec 64) (limit : FT), s.coreUp core.toNat = true →
    (s.thread core.toNat tid.toNat).wait = .word a old xd (some limit) → limit ≤ s.now → BitVec.ofNat 64 (leNat (s.localBytes core.toNat a 8)) = old →
    ∃ t, exec (.waitlTimeout core tid) s = .next t
      ∧ t.thread core.toNat tid.toNat = ({ s.thread core.toNat tid.toNat with state := .ready, wait := .none }).put xd 0
      ∧ s.threadOnly t core.toNat tid.toNat)
  ∧ (∀ (s : State) (core : BitVec 10) (tid : BitVec 6) (ins : Ins) (who : BitVec 6) (old : BitVec 64) (xd : Nat) (limit : Option FT), s.issues core.toNat tid.toNat [ins.xa.toNat, ins.xb.toNat] →
    localOk s.comp.run core.toNat (((s.thread core.toNat tid.toNat).get ins.xa.toNat) + (ins.imm.signExtend 64)).toNat (2 ^ bits ins.fn.toNat 1 0) true = true → (((s.thread core.toNat tid.toNat).get ins.xa.toNat) + (ins.imm.signExtend 64)).toNat % 2 ^ bits ins.fn.toNat 1 0 = 0 → who ≠ tid → (s.thread core.toNat who.toNat).state = .waitSync →
    (s.thread core.toNat who.toNat).wait = .word (((s.thread core.toNat tid.toNat).get ins.xa.toNat) + (ins.imm.signExtend 64)).toNat old xd limit → bits ins.fn.toNat 1 0 = 3 → ((s.thread core.toNat tid.toNat).get ins.xb.toNat) ≠ old →
    ∃ t, exec (.stl core tid ins) s = .next t ∧ (t.thread core.toNat who.toNat).state = .ready ∧ (xd = 0 ∨ (t.thread core.toNat who.toNat).get xd = 1))
  ∧ (∀ (s : State) (core : BitVec 10) (tid : BitVec 6) (ins : Ins), s.issues core.toNat tid.toNat [] → bits ins.fn.toNat 2 0 = 7 →
    ∃ t, exec (.br core tid ins) s = .next t ∧ s.faultedAt t core.toNat tid.toNat 1 ∧ s.changesOnly t [.cpu, .log, .evq, .adk])
  ∧ (∀ (s : State) (core : BitVec 10) (tid : BitVec 6) (word : BitVec 64), s.issues core.toNat tid.toNat [] → illegalWord word = true →
    ∃ t, exec (.illegalInstruction core tid word) s = .next t ∧ s.faultedAt t core.toNat tid.toNat 1 ∧ s.changesOnly t [.cpu, .log, .evq, .adk])

/-- Engine commands are queued, refused, completed, compared and voted on. An issue to an engine whose queue and whose thread
have room appends the command and counts it at the thread; with a full queue the thread of an MXE waits in WAIT_ENG at the
instruction. A command that cannot start leaves the queue and faults its thread with its cause. A finished command writes
its result, leaves the queue and is counted off. A sampled command whose shadow is free and agrees may complete, and one
whose shadow disagrees, where a third engine is there, awaits the vote; a vote for the primary counts the shadow suspect,
one for the shadow counts the primary suspect, and the command may complete; no majority faults the thread with cause 7 and
writes nothing. Whether the executions agree is told by the row (log 45). -/
def Obligations.EngineCommands : Prop :=
  (∀ (s : State) (core : BitVec 10) (tid : BitVec 6) (ins : Ins), s.issues core.toNat tid.toNat [ins.xa.toNat] → (s.engine core.toNat 0).queue.length < 32 →
    (s.thread core.toNat tid.toNat).ecnt < 16 →
    ∃ t, exec (.mxeIssue core tid ins) s = .next t ∧ (t.engine core.toNat 0).queue = (s.engine core.toNat 0).queue ++ [{ tid := tid.toNat, desc := (((s.thread core.toNat tid.toNat).get ins.xa.toNat) + (ins.imm.signExtend 64)).toNat, pc := (s.thread core.toNat tid.toNat).pc }]
      ∧ t.thread core.toNat tid.toNat = { s.advanced core.toNat tid.toNat with ecnt := (s.thread core.toNat tid.toNat).ecnt + 1 } ∧ (t.core core.toNat).tiles = (s.core core.toNat).tiles
      ∧ t.cpu.spad = s.cpu.spad ∧ t.cpu.cmem = s.cpu.cmem ∧ s.changesOnly t [.cpu])
  ∧ (∀ (s : State) (core : BitVec 10) (tid : BitVec 6) (ins : Ins), s.issues core.toNat tid.toNat [ins.xa.toNat] → bits ins.fn.toNat 1 0 < 2 → (s.engine core.toNat (bits ins.fn.toNat 1 0 + 1)).queue.length < 32 →
    (s.thread core.toNat tid.toNat).ecnt < 16 →
    ∃ t, exec (.veIssue core tid ins) s = .next t ∧ (t.engine core.toNat (bits ins.fn.toNat 1 0 + 1)).queue = (s.engine core.toNat (bits ins.fn.toNat 1 0 + 1)).queue ++ [{ tid := tid.toNat, desc := (((s.thread core.toNat tid.toNat).get ins.xa.toNat) + (ins.imm.signExtend 64)).toNat, pc := (s.thread core.toNat tid.toNat).pc }]
      ∧ t.thread core.toNat tid.toNat = { s.advanced core.toNat tid.toNat with ecnt := (s.thread core.toNat tid.toNat).ecnt + 1 } ∧ (t.core core.toNat).tiles = (s.core core.toNat).tiles
      ∧ t.cpu.spad = s.cpu.spad ∧ t.cpu.cmem = s.cpu.cmem ∧ s.changesOnly t [.cpu])
  ∧ (∀ (s : State) (core : BitVec 10) (tid : BitVec 6) (ins : Ins), s.issues core.toNat tid.toNat [ins.xa.toNat] → (s.engine core.toNat 3).queue.length < 32 →
    (s.thread core.toNat tid.toNat).ecnt < 16 →
    ∃ t, exec (.gfeIssue core tid ins) s = .next t ∧ (t.engine core.toNat 3).queue = (s.engine core.toNat 3).queue ++ [{ tid := tid.toNat, desc := (((s.thread core.toNat tid.toNat).get ins.xa.toNat) + (ins.imm.signExtend 64)).toNat, pc := (s.thread core.toNat tid.toNat).pc }]
      ∧ t.thread core.toNat tid.toNat = { s.advanced core.toNat tid.toNat with ecnt := (s.thread core.toNat tid.toNat).ecnt + 1 } ∧ (t.core core.toNat).tiles = (s.core core.toNat).tiles
      ∧ t.cpu.spad = s.cpu.spad ∧ t.cpu.cmem = s.cpu.cmem ∧ s.changesOnly t [.cpu])
  ∧ (∀ (s : State) (core : BitVec 10) (tid : BitVec 6) (ins : Ins), s.issues core.toNat tid.toNat [ins.xa.toNat] → bits ins.fn.toNat 1 0 = 2 → (s.engine core.toNat (s.anyVe core.toNat)).queue.length < 32 →
    (s.thread core.toNat tid.toNat).ecnt < 16 →
    ∃ t, exec (.veIssue core tid ins) s = .next t ∧ (t.engine core.toNat (s.anyVe core.toNat)).queue = (s.engine core.toNat (s.anyVe core.toNat)).queue ++ [{ tid := tid.toNat, desc := (((s.thread core.toNat tid.toNat).get ins.xa.toNat) + (ins.imm.signExtend 64)).toNat, pc := (s.thread core.toNat tid.toNat).pc }]
      ∧ t.thread core.toNat tid.toNat = { s.advanced core.toNat tid.toNat with ecnt := (s.thread core.toNat tid.toNat).ecnt + 1 } ∧ (t.core core.toNat).tiles = (s.core core.toNat).tiles
      ∧ t.cpu.spad = s.cpu.spad ∧ t.cpu.cmem = s.cpu.cmem ∧ s.changesOnly t [.cpu])
  ∧ (∀ (s : State) (core : BitVec 10) (tid : BitVec 6) (ins : Ins), s.issues core.toNat tid.toNat [ins.xa.toNat] → 32 ≤ (s.engine core.toNat 0).queue.length →
    ∃ t, exec (.mxeIssue core tid ins) s = .next t ∧ t.thread core.toNat tid.toNat = { s.thread core.toNat tid.toNat with state := .waitEng, wait := .none } ∧ s.threadOnly t core.toNat tid.toNat)
  ∧ (∀ (s : State) (core : BitVec 10) (engine : BitVec 2) (c : EngCmd) (cs : List EngCmd) (cause : Nat), s.coreUp core.toNat = true →
    (s.engine core.toNat engine.toNat).queue = c :: cs → c.phase = .queued → (s.engine core.toNat engine.toNat).testing = false →
    s.verdict core.toNat engine.toNat c.desc = .error cause → cause < 256 → c.tid < 64 →
    ∃ t, exec (.engineInvalidDescriptor core engine) s = .next t ∧ (t.engine core.toNat engine.toNat).queue = cs
      ∧ (t.thread core.toNat c.tid).state = .faulted ∧ (t.thread core.toNat c.tid).discard = true ∧ (t.core core.toNat).faultV = true
      ∧ ((s.core core.toNat).faultV = false → (t.core core.toNat).faultCause.toNat = cause ∧ (t.core core.toNat).faultPc = c.pc.setWidth 25)
      ∧ t.cpu.spad = s.cpu.spad ∧ t.cpu.cmem = s.cpu.cmem ∧ s.changesOnly t [.cpu, .log, .evq, .adk])
  ∧ (∀ (s : State) (core : BitVec 10) (engine : BitVec 2) (c : EngCmd) (cs : List EngCmd) (a : Nat) (bs : List Byte), s.coreUp core.toNat = true →
    (s.engine core.toNat engine.toNat).queue = c :: cs → c.phase = .running → c.sampled = false → c.rowsLeft = 0 → c.rowsTodo = [] →
    c.out = { writes := [(a, bs)] } → localOk s.comp.run core.toNat a bs.length true = true →
    ∃ t, exec (.engineCommandComplete core engine) s = .next t ∧ (t.engine core.toNat engine.toNat).queue = cs
      ∧ (t.thread core.toNat c.tid).ecnt = (if (s.thread core.toNat c.tid).discard = true ∧ (s.thread core.toNat c.tid).state ≠ .faulted ∧ (s.thread core.toNat c.tid).mcnt = 0 ∧ (s.thread core.toNat c.tid).ecnt ≤ 1 then 0 else (s.thread core.toNat c.tid).ecnt - 1)
      ∧ s.localStored t core.toNat a bs ∧ s.changesOnly t [.cpu])
  ∧ (∀ (s : State) (core : BitVec 10) (engine : BitVec 2) (c : EngCmd) (cs : List EngCmd) (i : Nat) (tl : Tile), s.coreUp core.toNat = true →
    (s.engine core.toNat engine.toNat).queue = c :: cs → c.phase = .compared → c.rowsLeft = 0 → c.rowsTodo = [] → c.out = { tile := some (i, tl) } →
    ∃ t, exec (.engineCommandComplete core engine) s = .next t ∧ (t.engine core.toNat engine.toNat).queue = cs ∧ t.tile core.toNat i = tl
      ∧ (∀ j, j ≠ i → t.tile core.toNat j = s.tile core.toNat j) ∧ t.cpu.spad = s.cpu.spad ∧ t.cpu.cmem = s.cpu.cmem ∧ s.changesOnly t [.cpu])
  ∧ (∀ (s : State) (core : BitVec 10) (engine : BitVec 2) (c : EngCmd) (cs : List EngCmd) (a : Nat) (xs : List Nat), s.coreUp core.toNat = true →
    (s.engine core.toNat engine.toNat).queue = c :: cs → c.phase = .running → c.sampled = true → s.shadowCores core.toNat engine.toNat = a :: xs →
    s.runsOwn a engine.toNat = false →
    ∃ t, exec (.shadowCompare core engine false) s = .next t ∧ (t.engine core.toNat engine.toNat).queue = { c with phase := .compared } :: cs
      ∧ t.glb.shadowCmp = (bump s.glb.shadowCmp).1 ∧ t.glb.shadowMis = s.glb.shadowMis ∧ s.changesOnly t [.cpu, .glb, .evq, .adk])
  ∧ (∀ (s : State) (core : BitVec 10) (engine : BitVec 2) (c : EngCmd) (cs : List EngCmd) (a b : Nat) (xs : List Nat), s.coreUp core.toNat = true →
    (s.engine core.toNat engine.toNat).queue = c :: cs → c.phase = .running → c.sampled = true → s.shadowCores core.toNat engine.toNat = a :: b :: xs →
    s.runsOwn a engine.toNat = false →
    ∃ t, exec (.shadowCompare core engine true) s = .next t ∧ (t.engine core.toNat engine.toNat).queue = { c with phase := .voting } :: cs
      ∧ t.glb.shadowMis = (bump s.glb.shadowMis).1 ∧ s.changesOnly t [.cpu, .glb, .evq, .adk])
  ∧ (∀ (s : State) (core : BitVec 10) (engine : BitVec 2) (c : EngCmd) (cs : List EngCmd) (a b : Nat) (xs : List Nat), s.coreUp core.toNat = true →
    (s.engine core.toNat engine.toNat).queue = c :: cs → c.phase = .voting → s.shadowCores core.toNat engine.toNat = a :: b :: xs → a ≠ core.toNat →
    ∃ t, exec (.majorityVote core engine 0) s = .next t ∧ (t.engine core.toNat engine.toNat).queue = { c with phase := .compared } :: cs
      ∧ (t.engine a engine.toNat).suspect = min 15 ((s.engine a engine.toNat).suspect + 1)
      ∧ t.cpu.spad = s.cpu.spad ∧ t.cpu.cmem = s.cpu.cmem ∧ s.changesOnly t [.cpu, .log, .evq, .adk])
  ∧ (∀ (s : State) (core : BitVec 10) (engine : BitVec 2) (c : EngCmd) (cs : List EngCmd) (a b : Nat) (xs : List Nat), s.coreUp core.toNat = true →
    (s.engine core.toNat engine.toNat).queue = c :: cs → c.phase = .voting → s.shadowCores core.toNat engine.toNat = a :: b :: xs → a ≠ core.toNat →
    ∃ t, exec (.majorityVote core engine 1) s = .next t ∧ (t.engine core.toNat engine.toNat).queue = { c with phase := .compared } :: cs
      ∧ (t.engine core.toNat engine.toNat).suspect = min 15 ((s.engine core.toNat engine.toNat).suspect + 1)
      ∧ t.cpu.spad = s.cpu.spad ∧ t.cpu.cmem = s.cpu.cmem ∧ s.changesOnly t [.cpu, .log, .evq, .adk])
  ∧ (∀ (s : State) (core : BitVec 10) (engine vote : BitVec 2) (c : EngCmd) (cs : List EngCmd) (a b : Nat) (xs : List Nat), s.coreUp core.toNat = true →
    (s.engine core.toNat engine.toNat).queue = c :: cs → c.phase = .voting → s.shadowCores core.toNat engine.toNat = a :: b :: xs → 2 ≤ vote.toNat → c.tid < 64 →
    ∃ t, exec (.majorityVote core engine vote) s = .next t ∧ (t.engine core.toNat engine.toNat).queue = cs
      ∧ (t.thread core.toNat c.tid).state = .faulted ∧ ((s.core core.toNat).faultV = false → (t.core core.toNat).faultCause = 7)
      ∧ t.cpu.spad = s.cpu.spad ∧ t.cpu.cmem = s.cpu.cmem ∧ (t.core core.toNat).tiles = (s.core core.toNat).tiles ∧ s.changesOnly t [.cpu, .log, .evq, .adk])

/-- An engine starts the command at the head of its queue. The command at the head of an engine that waits to start, whose
descriptor is of the row's operation and is valid, starts: it holds the outcome that the descriptor and the operands give at
that moment, the engine counts it, and no memory, no tile, no other thread and no register changes. A pooled gather or
scatter of a thread with no room for requests starts with all its rows to do. -/
def Obligations.EnginesStart : Prop :=
  (∀ (s : State) (core : BitVec 10) (c : EngCmd) (cs : List EngCmd) (o : EngOut), s.headWaits core.toNat 0 1 c cs →
    s.verdict core.toNat 0 c.desc = .ok o → ∃ t, exec (.mxeMma core) s = .next t ∧ s.started t core.toNat 0 c cs o ∧ s.changesOnly t [.cpu])
  ∧ (∀ (s : State) (core : BitVec 10) (c : EngCmd) (cs : List EngCmd) (o : EngOut), s.headWaits core.toNat 0 2 c cs →
    s.verdict core.toNat 0 c.desc = .ok o → ∃ t, exec (.mxeZero core) s = .next t ∧ s.started t core.toNat 0 c cs o ∧ s.changesOnly t [.cpu])
  ∧ (∀ (s : State) (core : BitVec 10) (c : EngCmd) (cs : List EngCmd) (o : EngOut), s.headWaits core.toNat 0 3 c cs →
    s.verdict core.toNat 0 c.desc = .ok o → ∃ t, exec (.mxeStore core) s = .next t ∧ s.started t core.toNat 0 c cs o ∧ s.changesOnly t [.cpu])
  ∧ (∀ (s : State) (core : BitVec 10) (c : EngCmd) (cs : List EngCmd) (o : EngOut), s.headWaits core.toNat 0 4 c cs →
    s.verdict core.toNat 0 c.desc = .ok o → ∃ t, exec (.mxeLoad core) s = .next t ∧ s.started t core.toNat 0 c cs o ∧ s.changesOnly t [.cpu])
  ∧ (∀ (s : State) (core : BitVec 10) (ve : Bool) (c : EngCmd) (cs : List EngCmd) (o : EngOut), s.headWaits core.toNat (veNo ve) 1 c cs →
    s.verdict core.toNat (veNo ve) c.desc = .ok o → ∃ t, exec (.veAdd core ve) s = .next t ∧ s.started t core.toNat (veNo ve) c cs o ∧ s.changesOnly t [.cpu])
  ∧ (∀ (s : State) (core : BitVec 10) (ve : Bool) (c : EngCmd) (cs : List EngCmd) (o : EngOut), s.headWaits core.toNat (veNo ve) 2 c cs →
    s.verdict core.toNat (veNo ve) c.desc = .ok o → ∃ t, exec (.veSub core ve) s = .next t ∧ s.started t core.toNat (veNo ve) c cs o ∧ s.changesOnly t [.cpu])
  ∧ (∀ (s : State) (core : BitVec 10) (ve : Bool) (c : EngCmd) (cs : List EngCmd) (o : EngOut), s.headWaits core.toNat (veNo ve) 3 c cs →
    s.verdict core.toNat (veNo ve) c.desc = .ok o → ∃ t, exec (.veMul core ve) s = .next t ∧ s.started t core.toNat (veNo ve) c cs o ∧ s.changesOnly t [.cpu])
  ∧ (∀ (s : State) (core : BitVec 10) (ve : Bool) (c : EngCmd) (cs : List EngCmd) (o : EngOut), s.headWaits core.toNat (veNo ve) 4 c cs →
    s.verdict core.toNat (veNo ve) c.desc = .ok o → ∃ t, exec (.veFma core ve) s = .next t ∧ s.started t core.toNat (veNo ve) c cs o ∧ s.changesOnly t [.cpu])
  ∧ (∀ (s : State) (core : BitVec 10) (ve : Bool) (c : EngCmd) (cs : List EngCmd) (o : EngOut), s.headWaits core.toNat (veNo ve) 5 c cs →
    s.verdict core.toNat (veNo ve) c.desc = .ok o → ∃ t, exec (.veMax core ve) s = .next t ∧ s.started t core.toNat (veNo ve) c cs o ∧ s.changesOnly t [.cpu])
  ∧ (∀ (s : State) (core : BitVec 10) (ve : Bool) (c : EngCmd) (cs : List EngCmd) (o : EngOut), s.headWaits core.toNat (veNo ve) 6 c cs →
    s.verdict core.toNat (veNo ve) c.desc = .ok o → ∃ t, exec (.veMin core ve) s = .next t ∧ s.started t core.toNat (veNo ve) c cs o ∧ s.changesOnly t [.cpu])
  ∧ (∀ (s : State) (core : BitVec 10) (ve : Bool) (c : EngCmd) (cs : List EngCmd) (o : EngOut), s.headWaits core.toNat (veNo ve) 7 c cs →
    s.verdict core.toNat (veNo ve) c.desc = .ok o → ∃ t, exec (.veCvt core ve) s = .next t ∧ s.started t core.toNat (veNo ve) c cs o ∧ s.changesOnly t [.cpu])
  ∧ (∀ (s : State) (core : BitVec 10) (ve : Bool) (c : EngCmd) (cs : List EngCmd) (o : EngOut), s.headWaits core.toNat (veNo ve) 8 c cs →
    s.verdict core.toNat (veNo ve) c.desc = .ok o → ∃ t, exec (.veExp2 core ve) s = .next t ∧ s.started t core.toNat (veNo ve) c cs o ∧ s.changesOnly t [.cpu])
  ∧ (∀ (s : State) (core : BitVec 10) (ve : Bool) (c : EngCmd) (cs : List EngCmd) (o : EngOut), s.headWaits core.toNat (veNo ve) 9 c cs →
    s.verdict core.toNat (veNo ve) c.desc = .ok o → ∃ t, exec (.veLog2 core ve) s = .next t ∧ s.started t core.toNat (veNo ve) c cs o ∧ s.changesOnly t [.cpu])
  ∧ (∀ (s : State) (core : BitVec 10) (ve : Bool) (c : EngCmd) (cs : List EngCmd) (o : EngOut), s.headWaits core.toNat (veNo ve) 10 c cs →
    s.verdict core.toNat (veNo ve) c.desc = .ok o → ∃ t, exec (.veRcp core ve) s = .next t ∧ s.started t core.toNat (veNo ve) c cs o ∧ s.changesOnly t [.cpu])
  ∧ (∀ (s : State) (core : BitVec 10) (ve : Bool) (c : EngCmd) (cs : List EngCmd) (o : EngOut), s.headWaits core.toNat (veNo ve) 11 c cs →
    s.verdict core.toNat (veNo ve) c.desc = .ok o → ∃ t, exec (.veRsqrt core ve) s = .next t ∧ s.started t core.toNat (veNo ve) c cs o ∧ s.changesOnly t [.cpu])
  ∧ (∀ (s : State) (core : BitVec 10) (ve : Bool) (c : EngCmd) (cs : List EngCmd) (o : EngOut), s.headWaits core.toNat (veNo ve) 12 c cs →
    s.verdict core.toNat (veNo ve) c.desc = .ok o → ∃ t, exec (.veRsum core ve) s = .next t ∧ s.started t core.toNat (veNo ve) c cs o ∧ s.changesOnly t [.cpu])
  ∧ (∀ (s : State) (core : BitVec 10) (ve : Bool) (c : EngCmd) (cs : List EngCmd) (o : EngOut), s.headWaits core.toNat (veNo ve) 13 c cs →
    s.verdict core.toNat (veNo ve) c.desc = .ok o → ∃ t, exec (.veRmax core ve) s = .next t ∧ s.started t core.toNat (veNo ve) c cs o ∧ s.changesOnly t [.cpu])
  ∧ (∀ (s : State) (core : BitVec 10) (c : EngCmd) (cs : List EngCmd) (o : EngOut), s.headWaits core.toNat 3 1 c cs → gfePooled (s.descOf core.toNat c) = false →
    s.verdict core.toNat 3 c.desc = .ok o → ∃ t, exec (.gfeGather core) s = .next t ∧ s.started t core.toNat 3 c cs o ∧ s.changesOnly t [.cpu])
  ∧ (∀ (s : State) (core : BitVec 10) (c : EngCmd) (cs : List EngCmd) (o : EngOut), s.headWaits core.toNat 3 2 c cs → gfePooled (s.descOf core.toNat c) = false →
    s.verdict core.toNat 3 c.desc = .ok o → ∃ t, exec (.gfeScatter core) s = .next t ∧ s.started t core.toNat 3 c cs o ∧ s.changesOnly t [.cpu])
  ∧ (∀ (s : State) (core : BitVec 10) (c : EngCmd) (cs : List EngCmd) (o : EngOut), s.headWaits core.toNat 3 3 c cs → gfePooled (s.descOf core.toNat c) = false →
    s.verdict core.toNat 3 c.desc = .ok o → ∃ t, exec (.gfeFilter core) s = .next t ∧ s.started t core.toNat 3 c cs o ∧ s.changesOnly t [.cpu])
  ∧ (∀ (s : State) (core : BitVec 10) (c : EngCmd) (cs : List EngCmd) (o : EngOut), s.headWaits core.toNat 3 4 c cs → gfePooled (s.descOf core.toNat c) = false →
    s.verdict core.toNat 3 c.desc = .ok o → ∃ t, exec (.gfeTopk core) s = .next t ∧ s.started t core.toNat 3 c cs o ∧ s.changesOnly t [.cpu])
  ∧ (∀ (s : State) (core : BitVec 10) (c : EngCmd) (cs : List EngCmd) (rows : List (Frame × ThreadSink)), s.headWaits core.toNat 3 1 c cs →
    gfePooled (s.descOf core.toNat c) = true → gfeShape (s.descOf core.toNat c) = true → (s.core core.toNat).quar.getLsbD 3 = false →
    s.gfePool core.toNat (s.descOf core.toNat c) false = .ok rows → 64 ≤ (s.thread core.toNat c.tid).mcnt →
    ∃ t, exec (.gfeGather core) s = .next t ∧ (t.engine core.toNat 3).queue = { c with phase := .running, rowsTodo := rows } :: cs ∧ s.changesOnly t [.cpu])
  ∧ (∀ (s : State) (core : BitVec 10) (c : EngCmd) (cs : List EngCmd) (rows : List (Frame × ThreadSink)), s.headWaits core.toNat 3 2 c cs →
    gfePooled (s.descOf core.toNat c) = true → gfeShape (s.descOf core.toNat c) = true → (s.core core.toNat).quar.getLsbD 3 = false →
    s.gfePool core.toNat (s.descOf core.toNat c) true = .ok rows → 64 ≤ (s.thread core.toNat c.tid).mcnt →
    ∃ t, exec (.gfeScatter core) s = .next t ∧ (t.engine core.toNat 3).queue = { c with phase := .running, rowsTodo := rows } :: cs ∧ s.changesOnly t [.cpu])

/-- What a vector engine computes on binary32 elements. On arrays of binary32 elements in open local memory, with no scalar,
seed or compressed operand: VE_ADD, VE_SUB, VE_MUL, VE_MAX and VE_MIN store the sum, difference, product, maximum and
minimum of the elements, narrowed to binary32; VE_FMA the product plus the old result, rounded once; VE_CVT the elements
themselves; VE_EXP2, VE_LOG2, VE_RCP and VE_RSQRT their approximation (whose error is a free value within the spec's bound,
log 11); VE_RSUM and VE_RMAX one element, reduced over 64 lanes and then pairwise. Elements are packed little-endian, four
bytes each. -/
def Obligations.VectorResults : Prop :=
  (∀ (s : State) (k e n desc : Nat) (d : List Byte), e = 1 ∨ e = 2 → s.vePlain k e 1 n d desc → localOk s.comp.run k (field d 12 4) (4 * n) false = true → localOk s.comp.run k (field d 16 4) (4 * n) true = true →
    s.verdict k e desc = .ok { writes := [(field d 16 4, packEls 0 (((s.floats k (field d 8 4) n).zip (s.floats k (field d 12 4) n)).map (fun x => enc32 (to32 (addNum x.1 x.2)))))] })
  ∧ (∀ (s : State) (k e n desc : Nat) (d : List Byte), e = 1 ∨ e = 2 → s.vePlain k e 2 n d desc → localOk s.comp.run k (field d 12 4) (4 * n) false = true → localOk s.comp.run k (field d 16 4) (4 * n) true = true →
    s.verdict k e desc = .ok { writes := [(field d 16 4, packEls 0 (((s.floats k (field d 8 4) n).zip (s.floats k (field d 12 4) n)).map (fun x => enc32 (to32 (addNum x.1 (negNum x.2))))))] })
  ∧ (∀ (s : State) (k e n desc : Nat) (d : List Byte), e = 1 ∨ e = 2 → s.vePlain k e 3 n d desc → localOk s.comp.run k (field d 12 4) (4 * n) false = true → localOk s.comp.run k (field d 16 4) (4 * n) true = true →
    s.verdict k e desc = .ok { writes := [(field d 16 4, packEls 0 (((s.floats k (field d 8 4) n).zip (s.floats k (field d 12 4) n)).map (fun x => enc32 (to32 (mulNum x.1 x.2)))))] })
  ∧ (∀ (s : State) (k e n desc : Nat) (d : List Byte), e = 1 ∨ e = 2 → s.vePlain k e 4 n d desc → localOk s.comp.run k (field d 12 4) (4 * n) false = true → localOk s.comp.run k (field d 16 4) (4 * n) false = true → localOk s.comp.run k (field d 16 4) (4 * n) true = true →
    s.verdict k e desc = .ok { writes := [(field d 16 4, packEls 0 (((s.floats k (field d 8 4) n).zip ((s.floats k (field d 12 4) n).zip (s.floats k (field d 16 4) n))).map (fun x => enc32 (to32 (addNum (mulNum x.1 x.2.1) x.2.2)))))] })
  ∧ (∀ (s : State) (k e n desc : Nat) (d : List Byte), e = 1 ∨ e = 2 → s.vePlain k e 5 n d desc → localOk s.comp.run k (field d 12 4) (4 * n) false = true → localOk s.comp.run k (field d 16 4) (4 * n) true = true →
    s.verdict k e desc = .ok { writes := [(field d 16 4, packEls 0 (((s.floats k (field d 8 4) n).zip (s.floats k (field d 12 4) n)).map (fun x => enc32 (to32 (maxNum x.1 x.2)))))] })
  ∧ (∀ (s : State) (k e n desc : Nat) (d : List Byte), e = 1 ∨ e = 2 → s.vePlain k e 6 n d desc → localOk s.comp.run k (field d 12 4) (4 * n) false = true → localOk s.comp.run k (field d 16 4) (4 * n) true = true →
    s.verdict k e desc = .ok { writes := [(field d 16 4, packEls 0 (((s.floats k (field d 8 4) n).zip (s.floats k (field d 12 4) n)).map (fun x => enc32 (to32 (minNum x.1 x.2)))))] })
  ∧ (∀ (s : State) (k e n desc : Nat) (d : List Byte), e = 1 ∨ e = 2 → s.vePlain k e 7 n d desc → localOk s.comp.run k (field d 16 4) (4 * n) true = true →
    s.verdict k e desc = .ok { writes := [(field d 16 4, packEls 0 ((s.floats k (field d 8 4) n).map (fun x => enc32 (x))))] })
  ∧ (∀ (s : State) (k e n desc : Nat) (d : List Byte), e = 1 ∨ e = 2 → s.vePlain k e 8 n d desc → localOk s.comp.run k (field d 16 4) (4 * n) true = true →
    s.verdict k e desc = .ok { writes := [(field d 16 4, packEls 0 ((s.floats k (field d 8 4) n).map (fun x => enc32 (f32 (approx 8 (enc32 x))))))] })
  ∧ (∀ (s : State) (k e n desc : Nat) (d : List Byte), e = 1 ∨ e = 2 → s.vePlain k e 9 n d desc → localOk s.comp.run k (field d 16 4) (4 * n) true = true →
    s.verdict k e desc = .ok { writes := [(field d 16 4, packEls 0 ((s.floats k (field d 8 4) n).map (fun x => enc32 (f32 (approx 9 (enc32 x))))))] })
  ∧ (∀ (s : State) (k e n desc : Nat) (d : List Byte), e = 1 ∨ e = 2 → s.vePlain k e 10 n d desc → localOk s.comp.run k (field d 16 4) (4 * n) true = true →
    s.verdict k e desc = .ok { writes := [(field d 16 4, packEls 0 ((s.floats k (field d 8 4) n).map (fun x => enc32 (f32 (approx 10 (enc32 x))))))] })
  ∧ (∀ (s : State) (k e n desc : Nat) (d : List Byte), e = 1 ∨ e = 2 → s.vePlain k e 11 n d desc → localOk s.comp.run k (field d 16 4) (4 * n) true = true →
    s.verdict k e desc = .ok { writes := [(field d 16 4, packEls 0 ((s.floats k (field d 8 4) n).map (fun x => enc32 (f32 (approx 11 (enc32 x))))))] })
  ∧ (∀ (s : State) (k e n desc : Nat) (d : List Byte), e = 1 ∨ e = 2 → s.vePlain k e 12 n d desc → localOk s.comp.run k (field d 16 4) (4) true = true →
    s.verdict k e desc = .ok { writes := [(field d 16 4, leBytes 4 (rsum ((unpackEls 0 (s.localBytes k (field d 8 4) (4 * n)) n).map (fun x => enc32 (f32 x)))))] })
  ∧ (∀ (s : State) (k e n desc : Nat) (d : List Byte), e = 1 ∨ e = 2 → s.vePlain k e 13 n d desc → localOk s.comp.run k (field d 16 4) (4) true = true →
    s.verdict k e desc = .ok { writes := [(field d 16 4, leBytes 4 (rmax ((unpackEls 0 (s.localBytes k (field d 8 4) (4 * n)) n).map (fun x => enc32 (f32 x)))))] })
  ∧ (∀ (bs : List Byte) (n i : Nat), i < n → (unpackEls 0 bs n)[i]? = some (field bs (4 * i) 4))
  ∧ (∀ (xs : List Nat) (i : Nat), i < xs.length → field (packEls 0 xs) (4 * i) 4 = xs.getD i 0 % 2 ^ 32)

/-- What the matrix and gather engines compute. MXE_ZERO clears a tile. MXE_LOAD reads 16 rows of 32 elements of 4 bytes,
MXE_STORE writes a binary32 tile as such rows. MXE_MMA on 8-bit integers adds to each element of an integer tile the sum
over K of the products, modulo 2^32. A local gather copies the rows its indices name to consecutive rows, a scatter the
reverse. A filter stores the indices of the elements that compare and their count. Top-K stores the indices and the elements
of its K greatest in order. An invalid format is fault cause 4. -/
def Obligations.MatrixAndGatherResults : Prop :=
  (∀ (s : State) (k desc : Nat) (d : List Byte), (s.core k).quar.getLsbD 0 = false → localOk s.comp.run k desc 64 false = true → d = s.localBytes k desc 64 →
    field d 0 1 = 2 → field d 1 1 < 8 → field d 6 1 = 0 → field d 38 2 = 0 → allZero (d.drop 44) = true → field d 2 1 = 0 →
    s.verdict k 0 desc = .ok { tile := some (field d 1 1, {}) })
  ∧ (∀ (s : State) (k desc : Nat) (d : List Byte), (s.core k).quar.getLsbD 0 = false → localOk s.comp.run k desc 64 false = true → d = s.localBytes k desc 64 →
    field d 0 1 = 2 → field d 1 1 < 8 → field d 6 1 = 0 → field d 38 2 = 0 → allZero (d.drop 44) = true → field d 2 1 = 0xA ∨ field d 2 1 = 0xB →
    s.verdict k 0 desc = .ok { tile := some (field d 1 1, { int := true }) })
  ∧ (∀ (s : State) (k desc : Nat) (d : List Byte), (s.core k).quar.getLsbD 0 = false → localOk s.comp.run k desc 64 false = true → d = s.localBytes k desc 64 →
    field d 0 1 = 2 → field d 1 1 < 8 → field d 6 1 = 0 → field d 38 2 = 0 → allZero (d.drop 44) = true → field d 2 1 ≠ 0 → field d 2 1 ≠ 0xA → field d 2 1 ≠ 0xB →
    s.verdict k 0 desc = .error 4)
  ∧ (∀ (s : State) (k desc : Nat) (d : List Byte), (s.core k).quar.getLsbD 0 = false → localOk s.comp.run k desc 64 false = true → d = s.localBytes k desc 64 →
    field d 0 1 = 4 → field d 1 1 < 8 → field d 6 1 = 0 → field d 38 2 = 0 → allZero (d.drop 44) = true → field d 2 1 = 0 → field d 36 2 % 64 = 0 →
    (∀ r, r < 16 → localOk s.comp.run k (field d 32 4 + r * field d 36 2) 128 false = true) →
    s.verdict k 0 desc = .ok { tile := some (field d 1 1, { elems := tileOf (fun r c => BitVec.ofNat 32 (leNat (s.localBytes k (field d 32 4 + r * field d 36 2 + 4 * c) 4))) }) })
  ∧ (∀ (s : State) (k desc : Nat) (d : List Byte), (s.core k).quar.getLsbD 0 = false → localOk s.comp.run k desc 64 false = true → d = s.localBytes k desc 64 →
    field d 0 1 = 3 → field d 1 1 < 8 → field d 6 1 = 0 → field d 38 2 = 0 → allZero (d.drop 44) = true → field d 7 1 = 0 → field d 36 2 % 64 = 0 → (s.tile k (field d 1 1)).int = false →
    (∀ r, r < 16 → localOk s.comp.run k (field d 32 4 + r * field d 36 2) 128 true = true) →
    s.verdict k 0 desc = .ok { writes := (List.range 16).map (fun r => (field d 32 4 + r * field d 36 2, packEls 0 ((List.range 32).map (fun c => enc32 (f32 (Table.read 0 (s.tile k (field d 1 1)).elems (32 * r + c)).toNat))))) })
  ∧ (∀ (s : State) (k desc : Nat) (d : List Byte), (s.core k).quar.getLsbD 0 = false → localOk s.comp.run k desc 64 false = true → d = s.localBytes k desc 64 →
    field d 0 1 = 1 → field d 1 1 < 8 → field d 6 1 = 0 → field d 38 2 = 0 → allZero (d.drop 44) = true → field d 2 1 = 0xA → field d 3 1 = 0xA → (s.tile k (field d 1 1)).int = true → 1 ≤ field d 4 2 → field d 4 2 ≤ 0x8000 → field d 4 2 % 2 = 0 →
    localOk s.comp.run k (field d 8 4) (16 * field d 4 2) false = true → localOk s.comp.run k (field d 12 4) (32 * field d 4 2) false = true →
    s.verdict k 0 desc = .ok { tile := some (field d 1 1, { int := true, elems := tileOf (fun r c => Table.read 0 (s.tile k (field d 1 1)).elems (32 * r + c) + BitVec.ofInt 32 (((List.range (field d 4 2)).map (fun j => sint 8 (field (s.localBytes k (field d 8 4) (16 * field d 4 2)) (16 * j + r) 1) * sint 8 (field (s.localBytes k (field d 12 4) (32 * field d 4 2)) (32 * j + c) 1))).sum)) }) })
  ∧ (∀ (s : State) (k desc : Nat) (d : List Byte), (s.core k).quar.getLsbD 3 = false → localOk s.comp.run k desc 64 false = true → d = s.localBytes k desc 64 →
    field d 0 1 = 1 → gfeShape d = true → gfePooled d = false → localOk s.comp.run k (field d 8 4) (4 * field d 4 4) false = true →
    (∀ i, i < field d 4 4 → localOk s.comp.run k (field d 16 8 + ((fun i => leNat (s.localBytes k (field d 8 4 + 4 * i) 4)) i) * field d 24 4) (field d 24 4) false = true
      ∧ localOk s.comp.run k (field d 12 4 + i * field d 24 4) (s.localBytes k (field d 16 8 + ((fun i => leNat (s.localBytes k (field d 8 4 + 4 * i) 4)) i) * field d 24 4) (field d 24 4)).length true = true) →
    s.verdict k 3 desc = .ok { writes := (List.range (field d 4 4)).map (fun i => (field d 12 4 + i * field d 24 4, s.localBytes k (field d 16 8 + ((fun i => leNat (s.localBytes k (field d 8 4 + 4 * i) 4)) i) * field d 24 4) (field d 24 4))) })
  ∧ (∀ (s : State) (k desc : Nat) (d : List Byte), (s.core k).quar.getLsbD 3 = false → localOk s.comp.run k desc 64 false = true → d = s.localBytes k desc 64 →
    field d 0 1 = 2 → gfeShape d = true → gfePooled d = false → localOk s.comp.run k (field d 8 4) (4 * field d 4 4) false = true →
    (∀ i, i < field d 4 4 → localOk s.comp.run k (field d 8 4 + i * field d 24 4) (field d 24 4) false = true
      ∧ localOk s.comp.run k (field d 16 8 + ((fun i => leNat (s.localBytes k (field d 8 4 + 4 * i) 4)) i) * field d 24 4) (s.localBytes k (field d 8 4 + i * field d 24 4) (field d 24 4)).length true = true) →
    s.verdict k 3 desc = .ok { writes := (List.range (field d 4 4)).map (fun i => (field d 16 8 + ((fun i => leNat (s.localBytes k (field d 8 4 + 4 * i) 4)) i) * field d 24 4, s.localBytes k (field d 8 4 + i * field d 24 4) (field d 24 4))) })
  ∧ (∀ (s : State) (k desc : Nat) (d : List Byte), (s.core k).quar.getLsbD 3 = false → localOk s.comp.run k desc 64 false = true → d = s.localBytes k desc 64 →
    field d 0 1 = 3 → gfeShape d = true → gfePooled d = false → field d 3 1 = 0xB → field d 2 1 = 2 → localOk s.comp.run k (field d 8 4) (4 * field d 4 4) false = true →
    localOk s.comp.run k (field d 12 4) (4 * ((List.range (field d 4 4)).filter (fun i => decide (sint 32 ((fun i => leNat (s.localBytes k (field d 8 4 + 4 * i) 4)) i) < sint 32 (field d 28 4)))).length) true = true →
    localOk s.comp.run k (field d 36 4) 4 true = true →
    s.verdict k 3 desc = .ok { writes := [(field d 12 4, ((List.range (field d 4 4)).filter (fun i => decide (sint 32 ((fun i => leNat (s.localBytes k (field d 8 4 + 4 * i) 4)) i) < sint 32 (field d 28 4)))).flatMap (fun i => leBytes 4 i)), (field d 36 4, leBytes 4 ((List.range (field d 4 4)).filter (fun i => decide (sint 32 ((fun i => leNat (s.localBytes k (field d 8 4 + 4 * i) 4)) i) < sint 32 (field d 28 4)))).length)] })
  ∧ (∀ (k : Nat) (xs : List (Machine.Num × Nat × Nat)), (topK k xs).length ≤ k ∧ (∀ x ∈ topK k xs, x ∈ xs ∧ x.1 ≠ .nan)
    ∧ (topK k xs).Pairwise (fun a b => ltNum b.1 a.1 = true ∨ (ltNum a.1 b.1 = false ∧ a.2.1 ≤ b.2.1)))
  ∧ (∀ (s : State) (k desc : Nat) (d : List Byte), (s.core k).quar.getLsbD 3 = false → localOk s.comp.run k desc 64 false = true → d = s.localBytes k desc 64 →
    field d 0 1 = 4 → gfeShape d = true → gfePooled d = false → field d 3 1 = 0xB → 1 ≤ field d 24 4 → field d 24 4 ≤ 1024 → localOk s.comp.run k (field d 8 4) (4 * field d 4 4) false = true →
    localOk s.comp.run k (field d 12 4) (4 * min (field d 24 4) (field d 4 4)) true = true →
    localOk s.comp.run k (field d 12 4 + 4 * field d 24 4) (4 * min (field d 24 4) (field d 4 4)) true = true →
    s.verdict k 3 desc = .ok { writes := [(field d 12 4, (topK (field d 24 4) ((List.range (field d 4 4)).map (fun i => (intNum (sint 32 ((fun i => leNat (s.localBytes k (field d 8 4 + 4 * i) 4)) i)), i, (fun i => leNat (s.localBytes k (field d 8 4 + 4 * i) 4)) i)))).flatMap (fun y => leBytes 4 y.2.1)), (field d 12 4 + 4 * field d 24 4, packEls 0xB ((topK (field d 24 4) ((List.range (field d 4 4)).map (fun i => (intNum (sint 32 ((fun i => leNat (s.localBytes k (field d 8 4 + 4 * i) 4)) i)), i, (fun i => leNat (s.localBytes k (field d 8 4 + 4 * i) 4)) i)))).map (fun y => y.2.2)))] })

/-- Pool loads, stores, atomics and sends of a thread. A thread's pool request that its core's translation buffer takes to a
plain extent of this module: a word or block load from lines valid in T0 is answered at once with the lines, to be delivered
by its completion; a word or block store (of a line that is no handoff line) is staged with its bytes and changes no memory
yet; a fetching atomic add of 8 bytes stores the sum, changes no other byte and is answered with the old value. A word load
that the core's cache holds and that is no peek writes the register at once. A word load that crosses a line writes all ones
and STATUS. SEND of a contribution to a unit behind a port sends the frame there. TPREF moves a translation that the die
holds to the core; TINV removes the page's entry from the core's cache, or with FN[0] every entry. -/
def Obligations.PoolInstructions : Prop :=
  (∀ (s : State) (core : BitVec 10) (tid : BitVec 6) (ins : Ins) (a : Nat), s.issues core.toNat tid.toNat [ins.xa.toNat] →
    s.roomFor core.toNat tid.toNat 1 → ((((s.thread core.toNat tid.toNat).get ins.xa.toNat) + (ins.imm.signExtend 64)).toNat % 2 ^ 56) % 64 ≤ 56 → ins.fn.getLsbD 0 = true ∨ s.cacheHit core.toNat ((((s.thread core.toNat tid.toNat).get ins.xa.toNat) + (ins.imm.signExtend 64)).toNat % 2 ^ 56) = none →
    s.coreReaches core.toNat (s.coreFrame core.toNat (if ins.fn.getLsbD 0 then 0x11 else 0x10) (((((s.thread core.toNat tid.toNat).get ins.xa.toNat) + (ins.imm.signExtend 64)).toNat % 2 ^ 56) / 64 * 64) 1 [] 0) a → s.inT0 a 1 →
    ∃ t, exec (.pldx core tid ins) s = .next t ∧ t.thread core.toNat tid.toNat = { s.advanced core.toNat tid.toNat with mcnt := (s.thread core.toNat tid.toNat).mcnt + 1, pend := (s.thread core.toNat tid.toNat).pend ||| (if ins.xd = 0 then 0 else (1 : BitVec 32) <<< ins.xd.toNat) }
      ∧ (t.core core.toNat).comps = (s.core core.toNat).comps ++ [{ n := s.req.nextN, tid := tid.toNat, sink := .reg ins.xd.toNat (((((s.thread core.toNat tid.toNat).get ins.xa.toNat) + (ins.imm.signExtend 64)).toNat % 2 ^ 56) % 64) (!ins.fn.getLsbD 0) (s.core core.toNat).acquires, frame := { completion (s.coreFrame core.toNat (if ins.fn.getLsbD 0 then 0x11 else 0x10) (((((s.thread core.toNat tid.toNat).get ins.xa.toNat) + (ins.imm.signExtend 64)).toNat % 2 ^ 56) / 64 * 64) 1 [] 0) stOk (s.lineBytes (fpaLine a)) with addr := (s.coreFrame core.toNat (if ins.fn.getLsbD 0 then 0x11 else 0x10) (((((s.thread core.toNat tid.toNat).get ins.xa.toNat) + (ins.imm.signExtend 64)).toNat % 2 ^ 56) / 64 * 64) 1 [] 0).addr }, line := some (fpaLine a), alloc := !ins.fn.getLsbD 0 }]
      ∧ t.tier.mem = s.tier.mem ∧ t.tier.poison = s.tier.poison ∧ t.req.reqs = [])
  ∧ (∀ (s : State) (core : BitVec 10) (tid : BitVec 6) (ins : Ins) (bs : List Byte), s.issues core.toNat tid.toNat [ins.xa.toNat] → ((((s.thread core.toNat tid.toNat).get ins.xa.toNat) + (ins.imm.signExtend 64)).toNat % 2 ^ 56) % 64 ≤ 56 → ins.fn.getLsbD 0 = false → s.cacheHit core.toNat ((((s.thread core.toNat tid.toNat).get ins.xa.toNat) + (ins.imm.signExtend 64)).toNat % 2 ^ 56) = some bs →
    ∃ t, exec (.pldx core tid ins) s = .next t ∧ t.thread core.toNat tid.toNat = (s.advanced core.toNat tid.toNat).put ins.xd.toNat (BitVec.ofNat 64 (field bs (((((s.thread core.toNat tid.toNat).get ins.xa.toNat) + (ins.imm.signExtend 64)).toNat % 2 ^ 56) % 64) 8)) ∧ s.threadOnly t core.toNat tid.toNat)
  ∧ (∀ (s : State) (core : BitVec 10) (tid : BitVec 6) (ins : Ins), s.issues core.toNat tid.toNat [ins.xa.toNat] → 56 < ((((s.thread core.toNat tid.toNat).get ins.xa.toNat) + (ins.imm.signExtend 64)).toNat % 2 ^ 56) % 64 → (s.thread core.toNat tid.toNat).statusCode = 0 →
    ∃ t, exec (.pldx core tid ins) s = .next t ∧ (t.thread core.toNat tid.toNat).get ins.xd.toNat = (if ins.xd = 0 then 0 else BitVec.allOnes 64) ∧ (t.thread core.toNat tid.toNat).statusCode = stMalformed ∧ (t.thread core.toNat tid.toNat).statusTva.toNat = ((((s.thread core.toNat tid.toNat).get ins.xa.toNat) + (ins.imm.signExtend 64)).toNat % 2 ^ 56) ∧ s.threadOnly t core.toNat tid.toNat)
  ∧ (∀ (s : State) (core : BitVec 10) (tid : BitVec 6) (ins : Ins) (a : Nat), s.issues core.toNat tid.toNat [ins.xa.toNat, ins.xb.toNat] → (s.core core.toNat).comps = [] →
    s.roomFor core.toNat tid.toNat 1 → ((((s.thread core.toNat tid.toNat).get ins.xa.toNat) + (ins.imm.signExtend 64)).toNat % 2 ^ 56) % 64 ≤ 56 → s.coreReaches core.toNat (s.coreFrame core.toNat 0x14 (((((s.thread core.toNat tid.toNat).get ins.xa.toNat) + (ins.imm.signExtend 64)).toNat % 2 ^ 56) / 64 * 64) 2 (splice (fill 64 0) (((((s.thread core.toNat tid.toNat).get ins.xa.toNat) + (ins.imm.signExtend 64)).toNat % 2 ^ 56) % 64) (leBytes 8 ((s.thread core.toNat tid.toNat).get ins.xb.toNat).toNat) ++ leBytes 8 (255 * 2 ^ (((((s.thread core.toNat tid.toNat).get ins.xa.toNat) + (ins.imm.signExtend 64)).toNat % 2 ^ 56) % 64)) ++ fill 56 0) 0) a → s.inT0 a 1 → s.hofAt (fpaLine a) = none →
    ∃ t, exec (.pstx core tid ins) s = .next t ∧ t.thread core.toNat tid.toNat = { s.advanced core.toNat tid.toNat with mcnt := (s.thread core.toNat tid.toNat).mcnt + 1 } ∧ t.tier.mem = s.tier.mem ∧ t.tier.poison = s.tier.poison
      ∧ (∃ r ∈ t.req.reqs, t.req.reqs.length = 1 ∧ r.n = s.req.nextN ∧ r.frame = (s.coreFrame core.toNat 0x14 (((((s.thread core.toNat tid.toNat).get ins.xa.toNat) + (ins.imm.signExtend 64)).toNat % 2 ^ 56) / 64 * 64) 2 (splice (fill 64 0) (((((s.thread core.toNat tid.toNat).get ins.xa.toNat) + (ins.imm.signExtend 64)).toNat % 2 ^ 56) % 64) (leBytes 8 ((s.thread core.toNat tid.toNat).get ins.xb.toNat).toNat) ++ leBytes 8 (255 * 2 ^ (((((s.thread core.toNat tid.toNat).get ins.xa.toNat) + (ins.imm.signExtend 64)).toNat % 2 ^ 56) % 64)) ++ fill 56 0) 0) ∧ r.stage = .staged ∧ r.fpa.toNat = a
        ∧ r.origin = .thread core.toNat tid.toNat (.word (((((s.thread core.toNat tid.toNat).get ins.xa.toNat) + (ins.imm.signExtend 64)).toNat % 2 ^ 56) / 64) (((((s.thread core.toNat tid.toNat).get ins.xa.toNat) + (ins.imm.signExtend 64)).toNat % 2 ^ 56) % 64) (leBytes 8 ((s.thread core.toNat tid.toNat).get ins.xb.toNat).toNat))))
  ∧ (∀ (s : State) (core : BitVec 10) (tid : BitVec 6) (ins : Ins) (a : Nat), s.issues core.toNat tid.toNat [ins.xa.toNat, ins.xd.toNat] →
    s.roomFor core.toNat tid.toNat 1 → ins.fn.getLsbD 7 = false → ((((s.thread core.toNat tid.toNat).get ins.xa.toNat) + (ins.imm.signExtend 64)).toNat % 2 ^ 56) % 4096 = 0 → (bits ins.fn.toNat 6 0 + 1) ≤ 64 → localOk s.comp.run core.toNat ((s.thread core.toNat tid.toNat).get ins.xd.toNat).toNat (64 * (bits ins.fn.toNat 6 0 + 1)) true = true →
    s.coreReaches core.toNat (s.coreFrame core.toNat 0x10 ((((s.thread core.toNat tid.toNat).get ins.xa.toNat) + (ins.imm.signExtend 64)).toNat % 2 ^ 56) (bits ins.fn.toNat 6 0 + 1) [] 0) a → s.inT0 a (bits ins.fn.toNat 6 0 + 1) →
    ∃ t, exec (.pld core tid ins) s = .next t ∧ t.thread core.toNat tid.toNat = { s.advanced core.toNat tid.toNat with mcnt := (s.thread core.toNat tid.toNat).mcnt + 1 }
      ∧ (t.core core.toNat).comps = (s.core core.toNat).comps ++ [{ n := s.req.nextN, tid := tid.toNat, sink := .bulk (((s.thread core.toNat tid.toNat).get ins.xd.toNat).toNat + (((((s.thread core.toNat tid.toNat).get ins.xa.toNat) + (ins.imm.signExtend 64)).toNat % 2 ^ 56) - ((((s.thread core.toNat tid.toNat).get ins.xa.toNat) + (ins.imm.signExtend 64)).toNat % 2 ^ 56))) (bits ins.fn.toNat 6 0 + 1) none, frame := { completion (s.coreFrame core.toNat 0x10 ((((s.thread core.toNat tid.toNat).get ins.xa.toNat) + (ins.imm.signExtend 64)).toNat % 2 ^ 56) (bits ins.fn.toNat 6 0 + 1) [] 0) stOk ((List.range (bits ins.fn.toNat 6 0 + 1)).flatMap (fun i => s.lineBytes (fpaLine a + i))) with addr := (s.coreFrame core.toNat 0x10 ((((s.thread core.toNat tid.toNat).get ins.xa.toNat) + (ins.imm.signExtend 64)).toNat % 2 ^ 56) (bits ins.fn.toNat 6 0 + 1) [] 0).addr }, line := some (fpaLine a), alloc := true }]
      ∧ t.tier.mem = s.tier.mem ∧ t.tier.poison = s.tier.poison ∧ t.req.reqs = [])
  ∧ (∀ (s : State) (core : BitVec 10) (tid : BitVec 6) (ins : Ins) (a : Nat), s.issues core.toNat tid.toNat [ins.xa.toNat, ins.xd.toNat] → (s.core core.toNat).comps = [] →
    s.roomFor core.toNat tid.toNat 1 → ins.fn.getLsbD 9 = false → bits ins.fn.toNat 8 7 < 2 → ((((s.thread core.toNat tid.toNat).get ins.xa.toNat) + (ins.imm.signExtend 64)).toNat % 2 ^ 56) % 4096 = 0 → (bits ins.fn.toNat 6 0 + 1) ≤ 64 →
    localOk s.comp.run core.toNat ((s.thread core.toNat tid.toNat).get ins.xd.toNat).toNat (64 * (bits ins.fn.toNat 6 0 + 1)) false = true → s.coreReaches core.toNat (s.coreFrame core.toNat (pstOp (bits ins.fn.toNat 8 7)) ((((s.thread core.toNat tid.toNat).get ins.xa.toNat) + (ins.imm.signExtend 64)).toNat % 2 ^ 56) (bits ins.fn.toNat 6 0 + 1) (s.localBytes core.toNat ((s.thread core.toNat tid.toNat).get ins.xd.toNat).toNat (64 * (bits ins.fn.toNat 6 0 + 1))) 0) a → s.inT0 a (bits ins.fn.toNat 6 0 + 1) →
    (∀ i, i < (bits ins.fn.toNat 6 0 + 1) → s.hofAt (fpaLine a + i) = none) →
    ∃ t, exec (.pst core tid ins) s = .next t ∧ t.thread core.toNat tid.toNat = { s.advanced core.toNat tid.toNat with mcnt := (s.thread core.toNat tid.toNat).mcnt + 1 } ∧ t.tier.mem = s.tier.mem ∧ t.tier.poison = s.tier.poison
      ∧ (∃ r ∈ t.req.reqs, t.req.reqs.length = 1 ∧ r.frame = (s.coreFrame core.toNat (pstOp (bits ins.fn.toNat 8 7)) ((((s.thread core.toNat tid.toNat).get ins.xa.toNat) + (ins.imm.signExtend 64)).toNat % 2 ^ 56) (bits ins.fn.toNat 6 0 + 1) (s.localBytes core.toNat ((s.thread core.toNat tid.toNat).get ins.xd.toNat).toNat (64 * (bits ins.fn.toNat 6 0 + 1))) 0) ∧ r.stage = .staged ∧ r.fpa.toNat = a ∧ r.origin = .thread core.toNat tid.toNat .posted))
  ∧ (∀ (s : State) (core : BitVec 10) (tid : BitVec 6) (ins : Ins) (a : Nat), s.issues core.toNat tid.toNat [ins.xa.toNat, ins.xb.toNat] → (s.core core.toNat).comps = [] →
    s.roomFor core.toNat tid.toNat 1 → ins.fn.toNat = 4 → ((((s.thread core.toNat tid.toNat).get ins.xa.toNat) + (ins.imm.signExtend 64)).toNat % 2 ^ 56) % 8 = 0 → s.coreReaches core.toNat { (s.coreFrame core.toNat (BitVec.ofNat 8 (0x20 + bits ins.fn.toNat 1 0)) ((((s.thread core.toNat tid.toNat).get ins.xa.toNat) + (ins.imm.signExtend 64)).toNat % 2 ^ 56) 1 (leBytes 8 ((s.thread core.toNat tid.toNat).get ins.xb.toNat).toNat ++ fill 24 0 ++ fill 32 0) 0) with flags := 1 } a → s.inT0 a 1 → s.hofAt (fpaLine a) = none →
    ∃ t, exec (.patm core tid ins) s = .next t ∧ t.thread core.toNat tid.toNat = { s.advanced core.toNat tid.toNat with mcnt := (s.thread core.toNat tid.toNat).mcnt + 1, pend := (s.thread core.toNat tid.toNat).pend ||| (if ins.xd = 0 then 0 else (1 : BitVec 32) <<< ins.xd.toNat) }
      ∧ s.memStored t a (leBytes 8 ((leNat (s.homeBytes a 8) + ((s.thread core.toNat tid.toNat).get ins.xb.toNat).toNat) % 2 ^ 64))
      ∧ (t.core core.toNat).comps = (s.core core.toNat).comps ++ [{ n := s.req.nextN, tid := tid.toNat, sink := .atom ins.xd.toNat 8, frame := { completion { (s.coreFrame core.toNat (BitVec.ofNat 8 (0x20 + bits ins.fn.toNat 1 0)) ((((s.thread core.toNat tid.toNat).get ins.xa.toNat) + (ins.imm.signExtend 64)).toNat % 2 ^ 56) 1 (leBytes 8 ((s.thread core.toNat tid.toNat).get ins.xb.toNat).toNat ++ fill 24 0 ++ fill 32 0) 0) with flags := 1 } stOk (s.homeBytes a 8 ++ fill 56 0) with addr := { (s.coreFrame core.toNat (BitVec.ofNat 8 (0x20 + bits ins.fn.toNat 1 0)) ((((s.thread core.toNat tid.toNat).get ins.xa.toNat) + (ins.imm.signExtend 64)).toNat % 2 ^ 56) 1 (leBytes 8 ((s.thread core.toNat tid.toNat).get ins.xb.toNat).toNat ++ fill 24 0 ++ fill 32 0) 0) with flags := 1 }.addr }, line := some (fpaLine a), alloc := false, stores := true }] ∧ t.req.reqs = [])
  ∧ (∀ (s : State) (core : BitVec 10) (tid : BitVec 6) (ins : Ins) (f : Frame) (p : Nat), s.issues core.toNat tid.toNat [ins.xa.toNat, ins.xb.toNat, ins.xd.toNat] →
    s.roomFor core.toNat tid.toNat 1 → localOk s.comp.run core.toNat (((s.thread core.toNat tid.toNat).get ins.xa.toNat) + (ins.imm.signExtend 64)).toNat 32 false = true →
    f = s.sendFrame core.toNat tid.toNat (s.localBytes core.toNat (((s.thread core.toNat tid.toNat).get ins.xa.toNat) + (ins.imm.signExtend 64)).toNat 32) ((s.thread core.toNat tid.toNat).get ins.xb.toNat).toNat → f.opcode = 0x70 → f.flags = 0 → wellShaped f = true →
    localOk s.comp.run core.toNat ((s.thread core.toNat tid.toNat).get ins.xb.toNat).toNat f.payload.length false = true → unitOf (s.tables f.epoch) f.dst = .port p →
    ∃ t, exec (.send core tid ins) s = .next t ∧ t.thread core.toNat tid.toNat = { s.advanced core.toNat tid.toNat with mcnt := (s.thread core.toNat tid.toNat).mcnt + 1 }
      ∧ t.bound (s.base p) (s.sendFrame core.toNat tid.toNat (s.localBytes core.toNat (((s.thread core.toNat tid.toNat).get ins.xa.toNat) + (ins.imm.signExtend 64)).toNat 32) ((s.thread core.toNat tid.toNat).get ins.xb.toNat).toNat)
      ∧ (∃ c ∈ (t.core core.toNat).comps, c.n = s.req.nextN ∧ c.tid = tid.toNat ∧ c.sink = .accepted ∧ c.frame.status = stOk))
  ∧ (∀ (s : State) (core : BitVec 10) (tid : BitVec 6) (ins : Ins) (e : TlbEntry), s.issues core.toNat tid.toNat [ins.xa.toNat] → s.tlbFind (64 + core.toNat) (s.core core.toNat).tenant ((((s.thread core.toNat tid.toNat).get ins.xa.toNat) + (ins.imm.signExtend 64)).toNat % 2 ^ 56) = none →
    s.tlbFind (16 + lcOf core.toNat) (s.core core.toNat).tenant ((((s.thread core.toNat tid.toNat).get ins.xa.toNat) + (ins.imm.signExtend 64)).toNat % 2 ^ 56) = some e →
    ∃ t, exec (.tpref core tid ins) s = .next t ∧ t.thread core.toNat tid.toNat = s.advanced core.toNat tid.toNat ∧ t.tlbFind (64 + core.toNat) (s.core core.toNat).tenant ((((s.thread core.toNat tid.toNat).get ins.xa.toNat) + (ins.imm.signExtend 64)).toNat % 2 ^ 56) = some e ∧ s.changesOnly t [.cpu, .xl])
  ∧ (∀ (s : State) (core : BitVec 10) (tid : BitVec 6) (ins : Ins), s.issues core.toNat tid.toNat [ins.xa.toNat] → (∀ e ∈ Table.read [] s.xl.tlb (64 + core.toNat), e.tva % 2 ^ e.size = 0) →
    ∃ t, exec (.tinv core tid ins) s = .next t ∧ t.thread core.toNat tid.toNat = s.advanced core.toNat tid.toNat ∧ (∀ tenant, t.tlbFind (64 + core.toNat) tenant ((((s.thread core.toNat tid.toNat).get ins.xa.toNat) + (ins.imm.signExtend 64)).toNat % 2 ^ 56) = none) ∧ s.changesOnly t [.cpu, .xl])
  ∧ (∀ (s : State) (core : BitVec 10) (tid : BitVec 6) (ins : Ins), s.issues core.toNat tid.toNat [] → ins.fn.getLsbD 0 = true →
    ∃ t, exec (.tinv core tid ins) s = .next t ∧ t.thread core.toNat tid.toNat = s.advanced core.toNat tid.toNat ∧ Table.read [] t.xl.tlb (64 + core.toNat) = [] ∧ s.changesOnly t [.cpu, .xl])

/-- Pool completions reach their thread. A completion of a READY thread leaves the core's list and is counted off. A word load
writes its 8 bytes, or all ones where it failed, to its register, whose outstanding load is cleared; a failure is recorded
in STATUS with its address unless STATUS already holds one; an allocating load fills the cache where no acquire came since.
A block load stores its lines at their local address. A word store of a line that the cache holds updates the cached line; a
failed store, where STATUS already holds one and no other thread waits for room, changes nothing but MCNT. The GFE's queue
is empty. -/
def Obligations.PoolCompletions : Prop :=
  (∀ (s : State) (core : BitVec 10) (tid : BitVec 6) (n : Nat) (c : ThreadComp) (xd off acq : Nat), s.coreUp core.toNat = true → (s.core core.toNat).comps = [c] → c.n = n → c.tid = tid.toNat →
    (s.thread core.toNat tid.toNat).discard = false → (s.thread core.toNat tid.toNat).state = .ready → (s.engine core.toNat 3).queue = [] → c.sink = .reg xd off false acq → c.frame.status = stOk → c.line = none →
    ∃ t, exec (.corePoolCompletion core tid n) s = .next t ∧ (t.core core.toNat).comps = []
      ∧ (t.thread core.toNat tid.toNat).mcnt = (s.thread core.toNat tid.toNat).mcnt - 1 ∧ t.thread core.toNat tid.toNat = { (s.thread core.toNat tid.toNat).put xd (BitVec.ofNat 64 (field c.frame.payload off 8)) with pend := (s.thread core.toNat tid.toNat).pend &&& ~~~((1 : BitVec 32) <<< xd), mcnt := (s.thread core.toNat tid.toNat).mcnt - 1 }
      ∧ t.cpu.spad = s.cpu.spad ∧ t.cpu.cmem = s.cpu.cmem ∧ s.changesOnly t [.cpu])
  ∧ (∀ (s : State) (core : BitVec 10) (tid : BitVec 6) (n : Nat) (c : ThreadComp) (xd off acq l : Nat), s.coreUp core.toNat = true → (s.core core.toNat).comps = [c] → c.n = n → c.tid = tid.toNat →
    (s.thread core.toNat tid.toNat).discard = false → (s.thread core.toNat tid.toNat).state = .ready → (s.engine core.toNat 3).queue = [] → c.sink = .reg xd off true acq → c.frame.status = stOk → c.line = some l → c.alloc = true → acq = (s.core core.toNat).acquires →
    ∃ t, exec (.corePoolCompletion core tid n) s = .next t ∧ (t.core core.toNat).comps = []
      ∧ (t.thread core.toNat tid.toNat).mcnt = (s.thread core.toNat tid.toNat).mcnt - 1 ∧ (t.thread core.toNat tid.toNat).get xd = (if xd = 0 then 0 else BitVec.ofNat 64 (field c.frame.payload off 8))
      ∧ (t.core core.toNat).dcache.head? = some (l, c.frame.payload) ∧ s.changesOnly t [.cpu])
  ∧ (∀ (s : State) (core : BitVec 10) (tid : BitVec 6) (n : Nat) (c : ThreadComp) (xd off acq : Nat) (al : Bool), s.coreUp core.toNat = true → (s.core core.toNat).comps = [c] → c.n = n → c.tid = tid.toNat →
    (s.thread core.toNat tid.toNat).discard = false → (s.thread core.toNat tid.toNat).state = .ready → (s.engine core.toNat 3).queue = [] → c.sink = .reg xd off al acq → c.frame.status ≠ stOk → (s.thread core.toNat tid.toNat).statusCode = 0 →
    ∃ t, exec (.corePoolCompletion core tid n) s = .next t ∧ (t.core core.toNat).comps = []
      ∧ (t.thread core.toNat tid.toNat).mcnt = (s.thread core.toNat tid.toNat).mcnt - 1 ∧ (t.thread core.toNat tid.toNat).get xd = (if xd = 0 then 0 else BitVec.allOnes 64) ∧ (t.thread core.toNat tid.toNat).statusCode = c.frame.status ∧ (t.thread core.toNat tid.toNat).statusTva = c.frame.addr
      ∧ (t.core core.toNat).dcache = (s.core core.toNat).dcache ∧ s.changesOnly t [.cpu])
  ∧ (∀ (s : State) (core : BitVec 10) (tid : BitVec 6) (n : Nat) (c : ThreadComp) (d lines : Nat), s.coreUp core.toNat = true → (s.core core.toNat).comps = [c] → c.n = n → c.tid = tid.toNat →
    (s.thread core.toNat tid.toNat).discard = false → (s.thread core.toNat tid.toNat).state = .ready → (s.engine core.toNat 3).queue = [] → c.sink = .bulk d lines none → c.frame.status = stOk → c.frame.has flCmpr = false → c.frame.payload.length = 64 * lines →
    ∃ t, exec (.corePoolCompletion core tid n) s = .next t ∧ (t.core core.toNat).comps = []
      ∧ (t.thread core.toNat tid.toNat).mcnt = (s.thread core.toNat tid.toNat).mcnt - 1 ∧ s.localStored t core.toNat d c.frame.payload ∧ s.changesOnly t [.cpu])
  ∧ (∀ (s : State) (core : BitVec 10) (tid : BitVec 6) (n : Nat) (c : ThreadComp) (w off l : Nat) (bs old : List Byte), s.coreUp core.toNat = true → (s.core core.toNat).comps = [c] → c.n = n → c.tid = tid.toNat →
    (s.thread core.toNat tid.toNat).discard = false → (s.thread core.toNat tid.toNat).state = .ready → (s.engine core.toNat 3).queue = [] → c.sink = .word w off bs → c.frame.status = stOk → c.line = some l → (s.core core.toNat).dcache = [(l, old)] →
    ∃ t, exec (.corePoolCompletion core tid n) s = .next t ∧ (t.core core.toNat).comps = []
      ∧ (t.thread core.toNat tid.toNat).mcnt = (s.thread core.toNat tid.toNat).mcnt - 1 ∧ (t.core core.toNat).dcache = [(l, splice old off bs)] ∧ t.cpu.spad = s.cpu.spad ∧ t.cpu.cmem = s.cpu.cmem ∧ s.changesOnly t [.cpu])
  ∧ (∀ (s : State) (core : BitVec 10) (tid : BitVec 6) (n : Nat) (c : ThreadComp), s.coreUp core.toNat = true → (s.core core.toNat).comps = [c] → c.n = n → c.tid = tid.toNat →
    (s.thread core.toNat tid.toNat).discard = false → (s.thread core.toNat tid.toNat).state = .ready → (s.engine core.toNat 3).queue = [] → c.sink = .posted → c.frame.status ≠ stOk → (s.thread core.toNat tid.toNat).statusCode ≠ 0 →
    (∀ i, (s.thread core.toNat i).state = .waitMem → (s.thread core.toNat i).wait ≠ .none) →
    ∃ t, exec (.corePoolCompletion core tid n) s = .next t ∧ (t.core core.toNat).comps = []
      ∧ (t.thread core.toNat tid.toNat).mcnt = (s.thread core.toNat tid.toNat).mcnt - 1 ∧ t.thread core.toNat tid.toNat = { s.thread core.toNat tid.toNat with mcnt := (s.thread core.toNat tid.toNat).mcnt - 1 }
      ∧ s.threadOnly { t with cpu := { t.cpu with cores := Table.write {} t.cpu.cores core.toNat { t.core core.toNat with comps := [c] } } } core.toNat tid.toNat)

/-- Loads of lines in T0 are answered with the lines. A load, a peek or a block read taken at a port that reaches lines of a
plain extent, all valid in T0 and none poisoned, is answered at once from its port: RSP.DATA, or SB.DATA to a block read, of
status OK with the lines in order. Memory, directory, extents and cores are as they were. -/
def Obligations.LoadsAnswer : Prop :=
  (∀ (s e : State) (port : BitVec 8) (f : Frame) (hits : List EccHit) (g : Frame) (a : Nat), f.opcode = 0x10 → s.takenAs port.toNat f = some g →
    e = (s.entered port.toNat f).applyHits hits → e.reaches (s.base port.toNat) g a → (e.extent (fpaExtent a)).coherent = false → g.has flCmpr = false → e.inT0 a g.length.toNat →
    ∃ t, exec (.ld port f hits) s = .next t ∧ t.queuedOn (s.base port.toNat) (completion g stOk ((List.range g.length.toNat).flatMap (fun i => e.lineBytes (fpaLine a + i))))
      ∧ t.req.reqs = [] ∧ t.tier.mem = e.tier.mem ∧ t.ext = e.ext ∧ t.coh = e.coh ∧ t.cpu = e.cpu)
  ∧ (∀ (s e : State) (port : BitVec 8) (f : Frame) (g : Frame) (a : Nat), f.opcode = 0x11 → s.takenAs port.toNat f = some g →
    e = s.entered port.toNat f → e.reaches (s.base port.toNat) g a → (e.extent (fpaExtent a)).coherent = false → g.has flCmpr = false → e.inT0 a g.length.toNat →
    ∃ t, exec (.ldPeek port f) s = .next t ∧ t.queuedOn (s.base port.toNat) (completion g stOk ((List.range g.length.toNat).flatMap (fun i => e.lineBytes (fpaLine a + i))))
      ∧ t.req.reqs = [] ∧ t.tier.mem = e.tier.mem ∧ t.ext = e.ext ∧ t.coh = e.coh ∧ t.cpu = e.cpu)
  ∧ (∀ (s e : State) (port : BitVec 8) (f : Frame) (g : Frame) (a : Nat), f.opcode = 0x16 → s.takenAs port.toNat f = some g →
    e = s.entered port.toNat f → e.reaches (s.base port.toNat) g a → (e.extent (fpaExtent a)).coherent = false → g.has flCmpr = false → e.inT0 a g.length.toNat →
    ∃ t, exec (.sbRd port f) s = .next t ∧ t.queuedOn (s.base port.toNat) (completion g stOk ((List.range g.length.toNat).flatMap (fun i => e.lineBytes (fpaLine a + i))))
      ∧ t.req.reqs = [] ∧ t.tier.mem = e.tier.mem ∧ t.ext = e.ext ∧ t.coh = e.coh ∧ t.cpu = e.cpu)
  ∧ (∀ (g : Frame) (data : List Byte), g.opcode = 0x10 → (completion g stOk data).opcode = 0x18 ∧ (completion g stOk data).dst = g.src
    ∧ (completion g stOk data).tag = g.tag ∧ (completion g stOk data).status = stOk ∧ (completion g stOk data).payload = data)
  ∧ (∀ (g : Frame) (data : List Byte), g.opcode = 0x16 → (completion g stOk data).opcode = 0x91 ∧ (completion g stOk data).vc = 7)

/-- Stores are staged, and released in their order. A store of plain bytes taken at a port that reaches lines of a plain extent,
all valid in T0 and none a handoff line, is staged: one request holds it, and memory is as it was. Its release, with nothing
else under way, stores its bytes, no other byte of T0 changes, and answers RSP.CMP of status OK from its port; a masked
store stores only the bytes its mask names. A block write is performed and answered as it is taken. Memory is what the lines
hold, whatever the form of their block; where 32 lines or more are stored, block compression is off at their pavilion. -/
def Obligations.StoresAreStagedAndReleased : Prop :=
  (∀ (s e : State) (port : BitVec 8) (f : Frame) (hits : List EccHit) (g : Frame) (a : Nat), f.opcode = 0x12 → s.takenAs port.toNat f = some g →
    e = (s.entered port.toNat f).applyHits hits → e.reaches (s.base port.toNat) g a → (e.extent (fpaExtent a)).coherent = false → e.noFailed (s.base port.toNat) → e.inT0 a g.length.toNat → (∀ i, i < g.length.toNat → e.hofAt (fpaLine a + i) = none) →
    ∃ t, exec (.st port f hits) s = .next t ∧ (∃ r ∈ t.req.reqs, t.req.reqs.length = 1 ∧ r.n = e.req.nextN ∧ r.frame = g ∧ r.stage = .staged ∧ r.fpa.toNat = a ∧ r.origin = .port (s.base port.toNat))
      ∧ t.tier.mem = e.tier.mem ∧ t.ext = e.ext ∧ t.coh = e.coh ∧ t.cpu = e.cpu ∧ t.clv = e.clv ∧ t.atn = e.atn)
  ∧ (∀ (s e : State) (port : BitVec 8) (f : Frame) (g : Frame) (a : Nat), f.opcode = 0x13 → s.takenAs port.toNat f = some g →
    e = s.entered port.toNat f → e.reaches (s.base port.toNat) g a → (e.extent (fpaExtent a)).coherent = false → e.noFailed (s.base port.toNat) → e.inT0 a g.length.toNat → (∀ i, i < g.length.toNat → e.hofAt (fpaLine a + i) = none) →
    ∃ t, exec (.stPush port f) s = .next t ∧ (∃ r ∈ t.req.reqs, t.req.reqs.length = 1 ∧ r.n = e.req.nextN ∧ r.frame = g ∧ r.stage = .staged ∧ r.fpa.toNat = a ∧ r.origin = .port (s.base port.toNat))
      ∧ t.tier.mem = e.tier.mem ∧ t.ext = e.ext ∧ t.coh = e.coh ∧ t.cpu = e.cpu ∧ t.clv = e.clv ∧ t.atn = e.atn)
  ∧ (∀ (s e : State) (port : BitVec 8) (f : Frame) (g : Frame) (a : Nat), f.opcode = 0x14 → s.takenAs port.toNat f = some g →
    e = s.entered port.toNat f → e.reaches (s.base port.toNat) g a → (e.extent (fpaExtent a)).coherent = false → e.noFailed (s.base port.toNat) → e.inT0 a 1 → e.hofAt (fpaLine a) = none →
    ∃ t, exec (.stMask port f) s = .next t ∧ (∃ r ∈ t.req.reqs, t.req.reqs.length = 1 ∧ r.n = e.req.nextN ∧ r.frame = g ∧ r.stage = .staged ∧ r.fpa.toNat = a ∧ r.origin = .port (s.base port.toNat))
      ∧ t.tier.mem = e.tier.mem ∧ t.ext = e.ext ∧ t.coh = e.coh ∧ t.cpu = e.cpu ∧ t.clv = e.clv ∧ t.atn = e.atn)
  ∧ (∀ (s e : State) (port : BitVec 8) (f : Frame) (g : Frame) (a : Nat), f.opcode = 0x90 → s.takenAs port.toNat f = some g →
    e = s.entered port.toNat f → e.reaches (s.base port.toNat) g a → (e.extent (fpaExtent a)).coherent = false → g.has flCmpr = false → a % 64 = 0 → 1 ≤ g.length.toNat → e.inT0 a g.length.toNat → (g.length.toNat < 32 ∨ (e.blockCmp (fpaBlock a)).enable = false) → (∀ i, i < g.length.toNat → e.hofAt (fpaLine a + i) = none) →
    ∃ t, exec (.sbWr port f) s = .next t ∧ e.memStored t a g.payload ∧ t.req.reqs = []
      ∧ t.queuedOn (s.base port.toNat) (completion g stOk []) ∧ t.coh = e.coh ∧ t.cpu = e.cpu)
  ∧ (∀ (s : State) (n : Nat) (r : Req) (b a : Nat), s.alive = true → s.req.reqs = [r] → r.n = n → r.stage = .staged → r.origin = .port b → s.base b = b →
    s.comp.evac = [] → r.fpa.toNat = a → a % 64 = 0 → (s.extent (fpaExtent a)).coherent = false → r.frame.has flCmpr = false → r.done = 0 → r.given = [] → r.back = [] → r.poison = false → r.frame.opcode = 0x12 ∨ r.frame.opcode = 0x13 → 1 ≤ r.frame.length.toNat → r.frame.payload.length = 64 * r.frame.length.toNat →
    s.inT0 a r.frame.length.toNat → (r.frame.length.toNat < 32 ∨ (s.blockCmp (fpaBlock a)).enable = false) → (∀ i, i < r.frame.length.toNat → s.hofAt (fpaLine a + i) = none) →
    ∃ t, exec (.storeRelease n) s = .next t ∧ t.req.reqs = [] ∧ t.queuedOn b (completion r.frame stOk [])
      ∧ s.memStored t a r.frame.payload ∧ t.coh = s.coh ∧ t.cpu = s.cpu)
  ∧ (∀ (s : State) (n : Nat) (r : Req) (b a : Nat), s.alive = true → s.req.reqs = [r] → r.n = n → r.stage = .staged → r.origin = .port b → s.base b = b →
    s.comp.evac = [] → r.fpa.toNat = a → a % 64 = 0 → (s.extent (fpaExtent a)).coherent = false → r.frame.has flCmpr = false → r.done = 0 → r.given = [] → r.back = [] → r.poison = false → r.frame.opcode = 0x14 → 72 ≤ r.frame.payload.length → s.inT0 a 1 → s.hofAt (fpaLine a) = none →
    ∃ t, exec (.storeRelease n) s = .next t ∧ t.req.reqs = [] ∧ t.queuedOn b (completion r.frame stOk [])
      ∧ s.memStored t a ((List.range 64).map (fun i => if (field r.frame.payload 64 8).testBit i then r.frame.payload.getD i 0 else s.homeByte (a + i))) ∧ t.coh = s.coh ∧ t.cpu = s.cpu)

/-- Atomics act at the home in one step. A fetching or posted atomic taken at a port that reaches a place of a line in T0 (of a
plain extent, no handoff line) stores the result of its operation on the old value there, changes no other byte, and is
answered: RSP.DATA with the old value to a fetching one, RSP.CMP to a posted one. Adding wraps at the width; minimum and
maximum are signed or unsigned as the type says; compare-and-swap stores where the old value is the operand. -/
def Obligations.AtomicsActAtTheHome : Prop :=
  (∀ (s e : State) (port : BitVec 8) (f : Frame) (g : Frame) (a : Nat), f.opcode = 0x20 → s.takenAs port.toNat f = some g →
    e = s.entered port.toNat f → e.reaches (s.base port.toNat) g a → (e.extent (fpaExtent a)).coherent = false → e.noFailed (s.base port.toNat) → a % (atomicSize g.sub) = 0 → e.inT0 a 1 → e.hofAt (fpaLine a) = none →
    ∃ t, exec (.atAdd port f) s = .next t ∧ t.req.reqs = [] ∧ t.queuedOn (s.base port.toNat) (completion g stOk (e.homeBytes a (atomicSize g.sub) ++ fill (64 - (atomicSize g.sub)) 0))
      ∧ e.memStored t a (leBytes (atomicSize g.sub) (atomicNew 0 g.sub (leNat (e.homeBytes a (atomicSize g.sub))) (field g.payload 0 (atomicSize g.sub)) (field g.payload 16 (atomicSize g.sub)))) ∧ t.coh = e.coh ∧ t.cpu = e.cpu)
  ∧ (∀ (s e : State) (port : BitVec 8) (f : Frame) (g : Frame) (a : Nat), f.opcode = 0x21 → s.takenAs port.toNat f = some g →
    e = s.entered port.toNat f → e.reaches (s.base port.toNat) g a → (e.extent (fpaExtent a)).coherent = false → e.noFailed (s.base port.toNat) → a % (atomicSize g.sub) = 0 → e.inT0 a 1 → e.hofAt (fpaLine a) = none →
    ∃ t, exec (.atMin port f) s = .next t ∧ t.req.reqs = [] ∧ t.queuedOn (s.base port.toNat) (completion g stOk (e.homeBytes a (atomicSize g.sub) ++ fill (64 - (atomicSize g.sub)) 0))
      ∧ e.memStored t a (leBytes (atomicSize g.sub) (atomicNew 1 g.sub (leNat (e.homeBytes a (atomicSize g.sub))) (field g.payload 0 (atomicSize g.sub)) (field g.payload 16 (atomicSize g.sub)))) ∧ t.coh = e.coh ∧ t.cpu = e.cpu)
  ∧ (∀ (s e : State) (port : BitVec 8) (f : Frame) (g : Frame) (a : Nat), f.opcode = 0x22 → s.takenAs port.toNat f = some g →
    e = s.entered port.toNat f → e.reaches (s.base port.toNat) g a → (e.extent (fpaExtent a)).coherent = false → e.noFailed (s.base port.toNat) → a % (atomicSize g.sub) = 0 → e.inT0 a 1 → e.hofAt (fpaLine a) = none →
    ∃ t, exec (.atMax port f) s = .next t ∧ t.req.reqs = [] ∧ t.queuedOn (s.base port.toNat) (completion g stOk (e.homeBytes a (atomicSize g.sub) ++ fill (64 - (atomicSize g.sub)) 0))
      ∧ e.memStored t a (leBytes (atomicSize g.sub) (atomicNew 2 g.sub (leNat (e.homeBytes a (atomicSize g.sub))) (field g.payload 0 (atomicSize g.sub)) (field g.payload 16 (atomicSize g.sub)))) ∧ t.coh = e.coh ∧ t.cpu = e.cpu)
  ∧ (∀ (s e : State) (port : BitVec 8) (f : Frame) (g : Frame) (a : Nat), f.opcode = 0x23 → s.takenAs port.toNat f = some g →
    e = s.entered port.toNat f → e.reaches (s.base port.toNat) g a → (e.extent (fpaExtent a)).coherent = false → e.noFailed (s.base port.toNat) → a % (atomicSize g.sub) = 0 → e.inT0 a 1 → e.hofAt (fpaLine a) = none →
    ∃ t, exec (.atCas port f) s = .next t ∧ t.req.reqs = [] ∧ t.queuedOn (s.base port.toNat) (completion g stOk (e.homeBytes a (atomicSize g.sub) ++ fill (64 - (atomicSize g.sub)) 0))
      ∧ e.memStored t a (leBytes (atomicSize g.sub) (atomicNew 3 g.sub (leNat (e.homeBytes a (atomicSize g.sub))) (field g.payload 0 (atomicSize g.sub)) (field g.payload 16 (atomicSize g.sub)))) ∧ t.coh = e.coh ∧ t.cpu = e.cpu)
  ∧ (∀ (s e : State) (port : BitVec 8) (f : Frame) (g : Frame) (a : Nat), f.opcode = 0x28 → s.takenAs port.toNat f = some g →
    e = s.entered port.toNat f → e.reaches (s.base port.toNat) g a → (e.extent (fpaExtent a)).coherent = false → e.noFailed (s.base port.toNat) → a % (atomicSize g.sub) = 0 → e.inT0 a 1 → e.hofAt (fpaLine a) = none →
    ∃ t, exec (.apAdd port f) s = .next t ∧ t.req.reqs = [] ∧ t.queuedOn (s.base port.toNat) (completion g stOk [])
      ∧ e.memStored t a (leBytes (atomicSize g.sub) (atomicNew 0 g.sub (leNat (e.homeBytes a (atomicSize g.sub))) (field g.payload 0 (atomicSize g.sub)) (field g.payload 16 (atomicSize g.sub)))) ∧ t.coh = e.coh ∧ t.cpu = e.cpu)
  ∧ (∀ (s e : State) (port : BitVec 8) (f : Frame) (g : Frame) (a : Nat), f.opcode = 0x29 → s.takenAs port.toNat f = some g →
    e = s.entered port.toNat f → e.reaches (s.base port.toNat) g a → (e.extent (fpaExtent a)).coherent = false → e.noFailed (s.base port.toNat) → a % (atomicSize g.sub) = 0 → e.inT0 a 1 → e.hofAt (fpaLine a) = none →
    ∃ t, exec (.apMin port f) s = .next t ∧ t.req.reqs = [] ∧ t.queuedOn (s.base port.toNat) (completion g stOk [])
      ∧ e.memStored t a (leBytes (atomicSize g.sub) (atomicNew 1 g.sub (leNat (e.homeBytes a (atomicSize g.sub))) (field g.payload 0 (atomicSize g.sub)) (field g.payload 16 (atomicSize g.sub)))) ∧ t.coh = e.coh ∧ t.cpu = e.cpu)
  ∧ (∀ (s e : State) (port : BitVec 8) (f : Frame) (g : Frame) (a : Nat), f.opcode = 0x2A → s.takenAs port.toNat f = some g →
    e = s.entered port.toNat f → e.reaches (s.base port.toNat) g a → (e.extent (fpaExtent a)).coherent = false → e.noFailed (s.base port.toNat) → a % (atomicSize g.sub) = 0 → e.inT0 a 1 → e.hofAt (fpaLine a) = none →
    ∃ t, exec (.apMax port f) s = .next t ∧ t.req.reqs = [] ∧ t.queuedOn (s.base port.toNat) (completion g stOk [])
      ∧ e.memStored t a (leBytes (atomicSize g.sub) (atomicNew 2 g.sub (leNat (e.homeBytes a (atomicSize g.sub))) (field g.payload 0 (atomicSize g.sub)) (field g.payload 16 (atomicSize g.sub)))) ∧ t.coh = e.coh ∧ t.cpu = e.cpu)
  ∧ (∀ (s e : State) (port : BitVec 8) (f : Frame) (g : Frame) (a : Nat), f.opcode = 0x2B → s.takenAs port.toNat f = some g →
    e = s.entered port.toNat f → e.reaches (s.base port.toNat) g a → (e.extent (fpaExtent a)).coherent = false → e.noFailed (s.base port.toNat) → a % (atomicSize g.sub) = 0 → e.inT0 a 1 → e.hofAt (fpaLine a) = none →
    ∃ t, exec (.apCas port f) s = .next t ∧ t.req.reqs = [] ∧ t.queuedOn (s.base port.toNat) (completion g stOk [])
      ∧ e.memStored t a (leBytes (atomicSize g.sub) (atomicNew 3 g.sub (leNat (e.homeBytes a (atomicSize g.sub))) (field g.payload 0 (atomicSize g.sub)) (field g.payload 16 (atomicSize g.sub)))) ∧ t.coh = e.coh ∧ t.cpu = e.cpu)
  ∧ (∀ old x c : Nat, atomicNew 0 1 old x c = (old + x) % 2 ^ 64 ∧ atomicNew 0 0 old x c = (old + x) % 2 ^ 32 ∧ atomicNew 1 3 old x c = (if x < old then x else old)
    ∧ atomicNew 2 0 old x c = (if sint 32 old < sint 32 x then x else old) ∧ atomicNew 3 5 old x c = (if old = x then c else old))

/-- Coherence requests at the home. For a line, valid in T0, of a coherent extent whose directory entry is INVALID and can be
taken: a shared read by a source that may write is granted E where the domain grants it, and S where it does not, and an
owning read is granted E; the data of the line goes out with C.DATA and the entry names the agent. A sole sharer upgrades
with C.GNT. The owner's write-back stores the line and, like its eviction, clears the entry and is granted. A shared read of
a line another agent owns snoops the owner and waits. -/
def Obligations.CoherenceRequests : Prop :=
  (∀ (s e : State) (port : BitVec 8) (f : Frame) (g : Frame) (a d me : Nat), f.opcode = 0x40 → s.takenAs port.toNat f = some g →
    e = s.entered port.toNat f → e.reachesLine (s.base port.toNat) g a d me → (e.dirEntry (fpaLine a)).state = .i → (e.dom d).eGrant = true → sharePermits e.comp.run (e.extent (fpaExtent a)) (.unit g.src) true = true →
    e.dirRoom (fpaLine a) = .ok → e.inT0 a 1 →
    ∃ t, exec (.cRdS port f) s = .next t ∧ t.dirEntry (fpaLine a) = e.owned d me (some g.addr) ∧ t.queuedOn (s.base port.toNat) (grant g 0x58 stOk 1 (e.lineBytes (fpaLine a)))
      ∧ t.tier.mem = e.tier.mem ∧ t.ext = e.ext ∧ t.cpu = e.cpu ∧ t.req.reqs = [])
  ∧ (∀ (s e : State) (port : BitVec 8) (f : Frame) (g : Frame) (a d me : Nat), f.opcode = 0x40 → s.takenAs port.toNat f = some g →
    e = s.entered port.toNat f → e.reachesLine (s.base port.toNat) g a d me → (e.dirEntry (fpaLine a)).state = .i → (e.dom d).eGrant = false →
    e.dirRoom (fpaLine a) = .ok → e.inT0 a 1 →
    ∃ t, exec (.cRdS port f) s = .next t ∧ t.dirEntry (fpaLine a) = e.addSharer (e.dirEntry (fpaLine a)) d me (some g.addr) ∧ t.queuedOn (s.base port.toNat) (grant g 0x58 stOk 0 (e.lineBytes (fpaLine a)))
      ∧ t.tier.mem = e.tier.mem ∧ t.ext = e.ext ∧ t.cpu = e.cpu ∧ t.req.reqs = [])
  ∧ (∀ (s e : State) (port : BitVec 8) (f : Frame) (g : Frame) (a d me : Nat), f.opcode = 0x40 → s.takenAs port.toNat f = some g →
    e = s.entered port.toNat f → e.reachesLine (s.base port.toNat) g a d me → (e.dirEntry (fpaLine a)).state = .o → (e.dirEntry (fpaLine a)).sharers.toNat % 256 ≠ me → (e.dirEntry (fpaLine a)).dom.toNat = d →
    ∃ t, exec (.cRdS port f) s = .next t ∧ (∃ x ∈ t.coh.snoops, x.line = (fpaLine a) ∧ x.agent = (e.dirEntry (fpaLine a)).sharers.toNat % 256 ∧ x.op = 0x50 ∧ x.why = .req e.req.nextN ∧ x.dom = d)
      ∧ (∃ r ∈ t.req.reqs, r.n = e.req.nextN ∧ r.stage = .snooping ∧ r.frame = g) ∧ t.dirEntry (fpaLine a) = (e.dirEntry (fpaLine a)) ∧ t.tier.mem = e.tier.mem)
  ∧ (∀ (s e : State) (port : BitVec 8) (f : Frame) (g : Frame) (a d me : Nat), f.opcode = 0x41 → s.takenAs port.toNat f = some g →
    e = s.entered port.toNat f → e.reachesLine (s.base port.toNat) g a d me → (e.dirEntry (fpaLine a)).state = .i → e.dirRoom (fpaLine a) = .ok → e.inT0 a 1 →
    ∃ t, exec (.cRdO port f) s = .next t ∧ t.dirEntry (fpaLine a) = e.owned d me (some g.addr) ∧ t.queuedOn (s.base port.toNat) (grant g 0x58 stOk 1 (e.lineBytes (fpaLine a)))
      ∧ t.tier.mem = e.tier.mem ∧ t.ext = e.ext ∧ t.cpu = e.cpu ∧ t.req.reqs = [])
  ∧ (∀ (s e : State) (port : BitVec 8) (f : Frame) (g : Frame) (a d me : Nat), f.opcode = 0x42 → s.takenAs port.toNat f = some g →
    e = s.entered port.toNat f → e.reachesLine (s.base port.toNat) g a d me → (e.dirEntry (fpaLine a)).state = .s → (e.dirEntry (fpaLine a)).coarse = false → e.holders (e.dirEntry (fpaLine a)) = [me] → e.linePoison (fpaLine a) = false →
    ∃ t, exec (.cUpg port f) s = .next t ∧ t.dirEntry (fpaLine a) = e.owned d me (some g.addr) ∧ t.queuedOn (s.base port.toNat) (grant g 0x59 stOk 0 [])
      ∧ t.tier.mem = e.tier.mem ∧ t.ext = e.ext ∧ t.cpu = e.cpu ∧ t.req.reqs = [])
  ∧ (∀ (s e : State) (port : BitVec 8) (f : Frame) (g : Frame) (a d me : Nat), f.opcode = 0x43 → s.takenAs port.toNat f = some g →
    e = s.entered port.toNat f → e.reachesLine (s.base port.toNat) g a d me → (e.dirEntry (fpaLine a)).state = .o → (e.dirEntry (fpaLine a)).sharers.toNat % 256 = me → e.lineValid (fpaLine a) = true → g.payload.length = 64 →
    ∃ t, exec (.cWb port f) s = .next t ∧ t.dirEntry (fpaLine a) = {} ∧ t.queuedOn (s.base port.toNat) (grant g 0x59 stOk 0 [])
      ∧ e.memStored t a g.payload ∧ t.cpu = e.cpu ∧ t.req.reqs = [])
  ∧ (∀ (s e : State) (port : BitVec 8) (f : Frame) (g : Frame) (a d me : Nat), f.opcode = 0x44 → s.takenAs port.toNat f = some g →
    e = s.entered port.toNat f → e.reachesLine (s.base port.toNat) g a d me → (e.dirEntry (fpaLine a)).state = .o → (e.dirEntry (fpaLine a)).sharers.toNat % 256 = me →
    ∃ t, exec (.cEvict port f) s = .next t ∧ t.dirEntry (fpaLine a) = {} ∧ t.queuedOn (s.base port.toNat) (grant g 0x59 stOk 0 [])
      ∧ t.tier.mem = e.tier.mem ∧ t.ext = e.ext ∧ t.cpu = e.cpu ∧ t.req.reqs = [])

/-- Responses find their request, snoops and notes pass on, snoop answers end a snoop. A response of status OK with plain data
that names the one request, which came from a port and was sent out of the response's, goes on to the port the request came
from, and the request is gone; RSP.DATA and C.GNT on an S port that name none and are not in transit are counted late and
dropped. Snoops, fault records and domain notes for a unit behind a port pass on to it. An answer to the one snoop under
way, of a revocation, drops the holder from the directory; the data of an owner is stored first where the line is valid in
T0. -/
def Obligations.ResponsesAndSnoops : Prop :=
  (∀ (s e : State) (port : BitVec 8) (f : Frame) (g : Frame) (r : Req) (q : Nat), f.opcode = 0x18 → s.takenAs port.toNat f = some g →
    e = s.entered port.toNat f → e.req.reqs = [r] → r.stage = .remote (s.base port.toNat) → r.origin = .port q → r.frame.src = g.dst → r.frame.tag = g.tag → g.status = stOk → g.has flCmpr = false → r.leaf = none →
    ∃ t, exec (.rspData port f) s = .next t ∧ t.req.reqs = [] ∧ t.queuedOn (e.base q) (g.clear flCe) ∧ t.tier = e.tier ∧ t.coh = e.coh ∧ t.ext = e.ext ∧ t.cpu = e.cpu)
  ∧ (∀ (s e : State) (port : BitVec 8) (f : Frame) (g : Frame) (r : Req) (q : Nat), f.opcode = 0x19 → s.takenAs port.toNat f = some g →
    e = s.entered port.toNat f → e.req.reqs = [r] → r.stage = .remote (s.base port.toNat) → r.origin = .port q → r.frame.src = g.dst → r.frame.tag = g.tag → g.status = stOk → g.has flCmpr = false → r.leaf = none →
    ∃ t, exec (.rspCmp port f) s = .next t ∧ t.req.reqs = [] ∧ t.queuedOn (e.base q) (g.clear flCe) ∧ t.tier = e.tier ∧ t.coh = e.coh ∧ t.ext = e.ext ∧ t.cpu = e.cpu)
  ∧ (∀ (s e : State) (port : BitVec 8) (f : Frame) (g : Frame) (r : Req) (q : Nat), f.opcode = 0x91 → s.takenAs port.toNat f = some g →
    e = s.entered port.toNat f → e.req.reqs = [r] → r.stage = .remote (s.base port.toNat) → r.origin = .port q → r.frame.src = g.dst → r.frame.tag = g.tag → g.status = stOk → g.has flCmpr = false → r.leaf = none →
    ∃ t, exec (.sbData port f) s = .next t ∧ t.req.reqs = [] ∧ t.queuedOn (e.base q) (g.clear flCe) ∧ t.tier = e.tier ∧ t.coh = e.coh ∧ t.ext = e.ext ∧ t.cpu = e.cpu)
  ∧ (∀ (s e : State) (port : BitVec 8) (f : Frame) (g : Frame) (r : Req) (q : Nat), f.opcode = 0x58 → s.takenAs port.toNat f = some g →
    e = s.entered port.toNat f → e.req.reqs = [r] → r.stage = .remote (s.base port.toNat) → r.origin = .port q → r.frame.src = g.dst → r.frame.tag = g.tag → g.status = stOk → g.has flCmpr = false → r.leaf = none →
    ∃ t, exec (.cData port f) s = .next t ∧ t.req.reqs = [] ∧ t.queuedOn (e.base q) (g.clear flCe) ∧ t.tier = e.tier ∧ t.coh = e.coh ∧ t.ext = e.ext ∧ t.cpu = e.cpu)
  ∧ (∀ (s e : State) (port : BitVec 8) (f : Frame) (g : Frame) (r : Req) (q : Nat), f.opcode = 0x59 → s.takenAs port.toNat f = some g →
    e = s.entered port.toNat f → e.req.reqs = [r] → r.stage = .remote (s.base port.toNat) → r.origin = .port q → r.frame.src = g.dst → r.frame.tag = g.tag → g.status = stOk → g.has flCmpr = false → r.leaf = none →
    ∃ t, exec (.cGnt port f) s = .next t ∧ t.req.reqs = [] ∧ t.queuedOn (e.base q) (g.clear flCe) ∧ t.tier = e.tier ∧ t.coh = e.coh ∧ t.ext = e.ext ∧ t.cpu = e.cpu)
  ∧ (∀ (s e : State) (port : BitVec 8) (f : Frame) (g : Frame), f.opcode = 0x18 → s.takenAs port.toNat f = some g →
    e = s.entered port.toNat f → e.req.reqs = [] → (e.link (s.base port.toNat)).cls = 2 → e.transit (s.base port.toNat) g = none →
    ∃ t, exec (.rspData port f) s = .next t ∧ (t.link (s.base port.toNat)).cntLate = (bump (e.link (s.base port.toNat)).cntLate).1 ∧ t.req = e.req ∧ t.tier = e.tier ∧ t.coh = e.coh ∧ t.ext = e.ext ∧ t.cpu = e.cpu)
  ∧ (∀ (s e : State) (port : BitVec 8) (f : Frame) (g : Frame), f.opcode = 0x59 → s.takenAs port.toNat f = some g →
    e = s.entered port.toNat f → e.req.reqs = [] → (e.link (s.base port.toNat)).cls = 2 → e.transit (s.base port.toNat) g = none →
    ∃ t, exec (.cGnt port f) s = .next t ∧ (t.link (s.base port.toNat)).cntLate = (bump (e.link (s.base port.toNat)).cntLate).1 ∧ t.req = e.req ∧ t.tier = e.tier ∧ t.coh = e.coh ∧ t.ext = e.ext ∧ t.cpu = e.cpu)
  ∧ (∀ (s e : State) (port : BitVec 8) (f : Frame) (g : Frame) (p : Nat), f.opcode = 0x50 → s.takenAs port.toNat f = some g →
    e = s.entered port.toNat f → unitOf (e.tables g.epoch) g.dst = .port p → (g.clear flCe) = g →
    ∃ t, exec (.snpInv port f) s = .next t ∧ t.bound (e.base p) g ∧ t.req = e.req ∧ t.tier = e.tier ∧ t.coh = e.coh ∧ t.ext = e.ext ∧ t.cpu = e.cpu)
  ∧ (∀ (s e : State) (port : BitVec 8) (f : Frame) (g : Frame) (p : Nat), f.opcode = 0x51 → s.takenAs port.toNat f = some g →
    e = s.entered port.toNat f → unitOf (e.tables g.epoch) g.dst = .port p → (g.clear flCe) = g →
    ∃ t, exec (.snpShr port f) s = .next t ∧ t.bound (e.base p) g ∧ t.req = e.req ∧ t.tier = e.tier ∧ t.coh = e.coh ∧ t.ext = e.ext ∧ t.cpu = e.cpu)
  ∧ (∀ (s e : State) (port : BitVec 8) (f : Frame) (g : Frame) (p : Nat), f.opcode = 0x52 → s.takenAs port.toNat f = some g →
    e = s.entered port.toNat f → unitOf (e.tables g.epoch) g.dst = .port p → (g.clear flCe) = g →
    ∃ t, exec (.snpBinv port f) s = .next t ∧ t.bound (e.base p) g ∧ t.req = e.req ∧ t.tier = e.tier ∧ t.coh = e.coh ∧ t.ext = e.ext ∧ t.cpu = e.cpu)
  ∧ (∀ (s e : State) (port : BitVec 8) (f : Frame) (g : Frame) (p : Nat), f.opcode = 0x64 → s.takenAs port.toNat f = some g →
    e = s.entered port.toNat f → unitOf (e.tables g.epoch) g.dst = .port p → (e.link (e.base p)).state = .opened →
    ∃ t, exec (.faultRec port f) s = .next t ∧ t.boundVc6 (e.base p) g ∧ t.req = e.req ∧ t.tier = e.tier ∧ t.coh = e.coh ∧ t.ext = e.ext ∧ t.cpu = e.cpu)
  ∧ (∀ (s e : State) (port : BitVec 8) (f : Frame) (g : Frame) (p : Nat), f.opcode = 0x65 → s.takenAs port.toNat f = some g →
    e = s.entered port.toNat f → unitOf (e.tables g.epoch) g.dst = .port p → (e.link (e.base p)).state = .opened →
    ∃ t, exec (.domNote port f) s = .next t ∧ t.boundVc6 (e.base p) g ∧ t.req = e.req ∧ t.tier = e.tier ∧ t.coh = e.coh ∧ t.ext = e.ext ∧ t.cpu = e.cpu)
  ∧ (∀ (s e : State) (port : BitVec 8) (f : Frame) (g : Frame) (x : Snoop) (ext : Nat), f.opcode = 0x5A → s.takenAs port.toNat f = some g →
    e = s.entered port.toNat f → e.coh.snoops = [x] → x.heldTo = none → x.tag = g.tag → g.dst = e.selfUnit → e.agentUnit x.dom x.agent = g.src → x.why = .revoke ext → e.req.reqs = [] → (e.dirEntry x.line).state = .s → (e.dirEntry x.line).coarse = false → e.holders (e.dirEntry x.line) = [x.agent] →
    ∃ t, exec (.snpAck port f) s = .next t ∧ t.coh.snoops = [] ∧ t.dirEntry x.line = {} ∧ t.tier.mem = e.tier.mem ∧ t.ext = e.ext ∧ t.cpu = e.cpu)
  ∧ (∀ (s e : State) (port : BitVec 8) (f : Frame) (g : Frame) (x : Snoop) (ext : Nat), f.opcode = 0x5B → s.takenAs port.toNat f = some g →
    e = s.entered port.toNat f → e.coh.snoops = [x] → x.heldTo = none → x.tag = g.tag → g.dst = e.selfUnit → e.agentUnit x.dom x.agent = g.src → x.why = .revoke ext → e.req.reqs = [] → (e.dirEntry x.line).state = .o → (e.dirEntry x.line).sharers.toNat % 256 = x.agent → e.lineValid x.line = true → g.payload.length = 64 →
    ∃ t, exec (.snpData port f) s = .next t ∧ t.coh.snoops = [] ∧ t.dirEntry x.line = {} ∧ e.memStored t (64 * x.line) g.payload ∧ t.cpu = e.cpu)

/-- Fences, held requests and the timers of requests. A fence waits, and its completion is answered once no earlier store-class
request of its source is left. A request held for its implicit fence stays while a store it waits for is left; a release of
a bound handle that no longer waits goes to its cluster, which releases the handle and answers. The one request sent out of
a port, no store, is answered TARGET_DEAD at its timer or its backstop, with event 0x49 of detail 4, and is gone. -/
def Obligations.FencesAndTimers : Prop :=
  (∀ (s e : State) (port : BitVec 8) (f : Frame) (g : Frame), f.opcode = 0x15 → s.takenAs port.toNat f = some g →
    e = s.entered port.toNat f →
    ∃ t, exec (.fence port f) s = .next t ∧ t.req.fences = e.req.fences ++ [{ n := e.req.nextN, origin := .port (s.base port.toNat), frame := g }] ∧ t.req.reqs = e.req.reqs ∧ t.tier = e.tier ∧ t.coh = e.coh ∧ t.ext = e.ext ∧ t.cpu = e.cpu)
  ∧ (∀ (s : State) (n b : Nat) (f : Frame), s.alive = true → s.req.fences = [{ n := n, origin := .port b, frame := f }] → s.base b = b →
    s.storesBefore n f.src.toNat = false → f.opcode = 0x15 →
    ∃ t, exec (.fenceComplete n) s = .next t ∧ t.req.fences = [] ∧ t.queuedOn b (completion f stOk []) ∧ t.req.reqs = s.req.reqs ∧ t.tier = s.tier ∧ t.cpu = s.cpu)
  ∧ (∀ (s : State) (n b : Nat) (f : Frame), s.alive = true → s.req.fences = [{ n := n, origin := .port b, frame := f }] →
    s.storesBefore n f.src.toNat = true → exec (.fenceComplete n) s = .next s)
  ∧ (∀ (s : State) (n : Nat) (o : Origin) (f : Frame), s.alive = true → s.req.held = [{ n := n, origin := o, frame := f }] → s.fenceHolds n o f = true →
    exec (.implicitFenceRelease n) s = .next s)
  ∧ (∀ (s : State) (n b : Nat) (f : Frame), s.alive = true → s.req.held = [{ n := n, origin := .port b, frame := f }] → s.fenceHolds n (.port b) f = false → s.base b = b →
    f.opcode = 0x80 → f.length = 1 → f.payload = 3 :: fill 63 0 → s.elsewhere f = false → s.req.reqs = [] → f.handle.toNat < 2 ^ 18 → s.mod.state = .service → s.handleUnder f f.handle.toNat = true → s.tenantGone f.tenant = false →
    (s.handle f.handle.toNat).state = .bound → (s.handle f.handle.toNat).tenant = f.tenant →
    ∃ t, exec (.implicitFenceRelease n) s = .next t ∧ t.req.held = [] ∧ t.handle f.handle.toNat = { s.handle f.handle.toNat with state := .releasing } ∧ (∀ i, i ≠ f.handle.toNat → t.handle i = s.handle i)
      ∧ t.bound b (completion f stOk (attnHeader 3 0 0 false 0 0 0)) ∧ t.tier = s.tier ∧ t.cpu = s.cpu)
  ∧ (∀ (s : State) (n b p : Nat) (r : Req), s.alive = true → s.req.reqs = [r] → r.n = n → n < 2 ^ 40 → r.timed = true → r.timer ≤ s.now → r.origin = .port b → s.base b = b →
    r.stage = .remote p → p < 256 → s.evq.mask.getLsbD 0x49 = false → s.evq.queue.length < 4090 → s.evq.lost = 0 → storeClass r.frame.opcode = false → isRequest r.frame.opcode = true → r.frame.opcode ≠ 0x61 →
    ∃ t, exec (.requestTimerExpiry n) s = .next t ∧ t.req.reqs = [] ∧ t.queuedOn b (completion r.frame stDead [])
      ∧ (∃ x ∈ t.evq.queue, x.code = 0x49 ∧ x.detail = 4 ∧ x.src = srcP p) ∧ t.tier = { s.tier with reqs := t.tier.reqs } ∧ t.cpu = s.cpu ∧ t.coh = s.coh)
  ∧ (∀ (s : State) (n b p : Nat) (r : Req), s.alive = true → s.req.reqs = [r] → r.n = n → r.backstop ≤ s.now → r.origin = .port b → s.base b = b →
    r.stage = .remote p → p < 256 → s.evq.mask.getLsbD 0x49 = false → s.evq.queue.length < 4090 → s.evq.lost = 0 → storeClass r.frame.opcode = false → isRequest r.frame.opcode = true → r.frame.opcode ≠ 0x61 →
    ∃ t, exec (.backstopTimerExpiry n) s = .next t ∧ t.req.reqs = [] ∧ t.queuedOn b (completion r.frame stDead [])
      ∧ (∃ x ∈ t.evq.queue, x.code = 0x49 ∧ x.detail = 4 ∧ x.src = srcP p) ∧ t.tier = { s.tier with reqs := t.tier.reqs } ∧ t.cpu = s.cpu ∧ t.coh = s.coh)

/-- Coherent domains: enabling, going down, reforming, members and timers. An operator's write of COH_DOM_CFG, its fields in
range, with ENABLE to an OFF domain of an active tenant brings it UP with the next generation and the fields written;
without ENABLE a DOWN domain becomes OFF, and for an UP one the write is DENIED. COH_DOM_CMD takes an UP domain, with no
request and no snoop under way, to FLUSH with cause 4, and a DOWN one UP with the next generation. Four members may be
written while OFF to a domain without members, each unit once. In SERVICE a snoop whose timer runs out takes its UP domain
to FLUSH with cause 2 and names the agent dead; a held snoop goes out when its cinch ends; the end of the flush window, with
no request under way, poisons what agents own, clears the directory and takes the domain DOWN. No write changes another
domain. -/
def Obligations.CoherentDomains : Prop :=
  (∀ (s : State) (tag : BitVec 16) (dom : BitVec 6) (value : BitVec 64), s.writes tag (cohAddr dom.toNat 0) (value ||| 1) .operator → (s.dom dom.toNat).state = .off → 1 ≤ bits (value ||| 1).toNat 31 24 → bits (value ||| 1).toNat 31 24 ≤ 100 → 1 ≤ bits (value ||| 1).toNat 22 16 → bits (value ||| 1).toNat 22 16 ≤ 64 →
    (s.tenant (bits (value ||| 1).toNat 41 32)).state = .active →
    ∃ t, exec (.cohDomEnable tag dom value) s = .next t ∧ t.responded tag stOk ∧ (t.dom dom.toNat).state = .up ∧ (t.dom dom.toNat).enable = true ∧ (t.dom dom.toNat).gen = (s.dom dom.toNat).gen + 1 ∧ (t.dom dom.toNat).tenant.toNat = bits (value ||| 1).toNat 41 32
      ∧ (t.dom dom.toNat).flushMs.toNat = bits (value ||| 1).toNat 31 24 ∧ (t.dom dom.toNat).cinch.toNat = bits (value ||| 1).toNat 22 16 ∧ (t.dom dom.toNat).eGrant = (value ||| 1).getLsbD 1 ∧ (t.dom dom.toNat).members = (s.dom dom.toNat).members ∧ (∀ d, d ≠ dom.toNat → t.dom d = s.dom d) ∧ s.changesOnly t [.pkg, .ports, .coh, .evq, .adk])
  ∧ (∀ (s : State) (tag : BitVec 16) (dom : BitVec 6) (value : BitVec 64), s.writes tag (cohAddr dom.toNat 0) (value &&& ~~~1#64) .operator → (s.dom dom.toNat).state = .down → 1 ≤ bits (value &&& ~~~1#64).toNat 31 24 → bits (value &&& ~~~1#64).toNat 31 24 ≤ 100 → 1 ≤ bits (value &&& ~~~1#64).toNat 22 16 → bits (value &&& ~~~1#64).toNat 22 16 ≤ 64 →
    bits (value &&& ~~~1#64).toNat 41 32 = (s.dom dom.toNat).tenant.toNat →
    ∃ t, exec (.cohDomDisable tag dom value) s = .next t ∧ t.responded tag stOk ∧ (t.dom dom.toNat).state = .off ∧ (t.dom dom.toNat).enable = false ∧ (t.dom dom.toNat).gen = (s.dom dom.toNat).gen ∧ (∀ d, d ≠ dom.toNat → t.dom d = s.dom d) ∧ s.changesOnly t [.coh, .evq, .adk])
  ∧ (∀ (s : State) (tag : BitVec 16) (dom : BitVec 6) (value : BitVec 64), s.writes tag (cohAddr dom.toNat 0) (value &&& ~~~1#64) .operator → (s.dom dom.toNat).state = .up → (s.dom dom.toNat).enable = true →
    ∃ t, exec (.cohDomDisable tag dom value) s = .next t ∧ t.responded tag stDenied ∧ t.coh = s.coh ∧ s.changesOnly t [.adk])
  ∧ (∀ (s : State) (tag : BitVec 16) (dom : BitVec 6), s.writes tag (cohAddr dom.toNat 0x10) 2 .operator → (s.dom dom.toNat).state = .up → s.req.reqs = [] → s.coh.snoops = [] →
    ∃ t, exec (.cohDomDown tag dom) s = .next t ∧ t.responded tag stOk ∧ (t.dom dom.toNat).state = .flush ∧ (t.dom dom.toNat).cause = 4 ∧ (t.dom dom.toNat).members = (s.dom dom.toNat).members ∧ (t.dom dom.toNat).downFt = s.now
      ∧ (t.dom dom.toNat).windowEnd = s.now + (s.dom dom.toNat).flushMs.toNat * msT ∧ (t.dom dom.toNat).gen = (s.dom dom.toNat).gen ∧ t.coh.dir = s.coh.dir ∧ (∀ d, d ≠ dom.toNat → t.dom d = s.dom d) ∧ s.changesOnly t [.pkg, .ports, .coh, .evq, .adk])
  ∧ (∀ (s : State) (tag : BitVec 16) (dom : BitVec 6), s.writes tag (cohAddr dom.toNat 0x10) 1 .operator → (s.dom dom.toNat).state = .down →
    ∃ t, exec (.cohDomReform tag dom) s = .next t ∧ t.responded tag stOk ∧ (t.dom dom.toNat).state = .up ∧ (t.dom dom.toNat).gen = (s.dom dom.toNat).gen + 1 ∧ (t.dom dom.toNat).members = (s.dom dom.toNat).members ∧ (∀ d, d ≠ dom.toNat → t.dom d = s.dom d) ∧ s.changesOnly t [.pkg, .ports, .coh, .evq, .adk])
  ∧ (∀ (s : State) (tag : BitVec 16) (dom : BitVec 6) (j : BitVec 6) (value : BitVec 64), s.writes tag (cohAddr dom.toNat (0x100 + 8 * j.toNat)) value .operator → (s.dom dom.toNat).state = .off → (s.dom dom.toNat).members = [] →
    ((List.range 4).map (fun k => BitVec.ofNat 16 (value.toNat / 2 ^ (16 * k)))).Nodup →
    ∃ t, exec (.cohMemberWrite tag dom j value) s = .next t ∧ t.responded tag stOk ∧ (∀ k, k < 4 → Table.read 0xFFFF (t.dom dom.toNat).members (4 * j.toNat + k) = BitVec.ofNat 16 (value.toNat / 2 ^ (16 * k)))
      ∧ (t.dom dom.toNat).state = .off ∧ (∀ d, d ≠ dom.toNat → t.dom d = s.dom d) ∧ s.changesOnly t [.coh, .adk])
  ∧ (∀ (s : State) (line : BitVec 50) (agent : BitVec 8) (x : Snoop), s.mod.state = .service → s.coh.snoops = [x] → x.line = line.toNat → x.agent = agent.toNat →
    x.heldTo = none → x.why ≠ .cancelled → x.timer ≤ s.now → (s.dom x.dom).state = .up → s.req.reqs = [] →
    ∃ t, exec (.snoopTimerExpiry line agent) s = .next t ∧ (t.dom x.dom).state = .flush ∧ (t.dom x.dom).cause = 2
      ∧ (t.dom x.dom).deadAgent = agent ∧ (t.dom x.dom).told.getLsbD agent.toNat = false
      ∧ (t.dom x.dom).windowEnd = s.now + (s.dom x.dom).flushMs.toNat * msT ∧ (∀ y ∈ t.coh.snoops, y.why = .cancelled))
  ∧ (∀ (s : State) (line : BitVec 50) (agent : BitVec 8) (x : Snoop) (limit : FT) (p : Nat), s.alive = true → s.coh.snoops = [x] → x.line = line.toNat →
    x.agent = agent.toNat → x.heldTo = some limit → limit ≤ s.now → unitOf s.comp.run (s.agentUnit x.dom x.agent) = .port p →
    ∃ t, exec (.cinchExpiry line agent) s = .next t
      ∧ t.coh.snoops = [{ x with heldTo := none, timer := s.now + s.targetLimit + 11200 * stagesTo s.comp.run (s.agentUnit x.dom x.agent) }]
      ∧ t.bound (s.base p) { opcode := x.op, dst := s.agentUnit x.dom x.agent, src := s.selfUnit, vc := 1, tenant := (s.dom x.dom).tenant, epoch := s.comp.epoch, addr := s.lineTva x.line, tag := x.tag }
      ∧ t.coh.dir = s.coh.dir ∧ s.changesOnly t [.pkg, .ports, .coh, .evq, .adk])
  ∧ (∀ (s : State) (dom : BitVec 6), (s.dom dom.toNat).state = .flush → s.alive = true → (s.dom dom.toNat).windowEnd ≤ s.now → s.req.reqs = [] →
    ∃ t, exec (.flushWindowEnd dom) s = .next t ∧ (t.dom dom.toNat).state = .down ∧ (t.dom dom.toNat).cause = (s.dom dom.toNat).cause
      ∧ (∀ y ∈ t.coh.snoops, y.dom ≠ dom.toNat) ∧ (∀ y ∈ t.coh.dir, y.2.dom ≠ dom)
      ∧ (∀ y ∈ s.coh.dir, y.2.dom = dom → y.2.state = .o → t.linePoison y.1 = true) ∧ t.ext = s.ext)

/-- Handles are bound, released and freed. A BIND of a FREE handle of a pavilion's range, with room in the admission record,
binds it with the geometry of its payload and answers with it; a RELEASE of a bound handle by its tenant takes it to
RELEASING, and so does the operator's ATN_CMD. A RELEASING handle with no decode in flight becomes FREE, and no other handle
changes. -/
def Obligations.AttentionHandles : Prop :=
  (∀ (s e : State) (port : BitVec 8) (f : Frame) (g : Frame), f.opcode = 0x80 → s.takenAs port.toNat f = some g →
    e = s.entered port.toNat f → requestByte f 2 = f → (g.payload.headD 0).toNat = 2 → e.elsewhere g = false → e.req.reqs = [] → g.handle.toNat < 2 ^ 18 → g.length = 1 → bindOk g.payload = true → e.mod.state = .service → e.handleUnder g g.handle.toNat = true → e.tenantGone g.tenant = false → (e.handle g.handle.toNat).state = .free →
    e.seqUse (e.handleCfg g.handle.toNat).adm.toNat < (e.admRec (e.handleCfg g.handle.toNat).adm.toNat).resv.seq →
    ∃ t, exec (.atnBind port f) s = .next t ∧ (t.handle g.handle.toNat).state = .bound ∧ (t.handle g.handle.toNat).tenant = g.tenant ∧ (t.handle g.handle.toNat).len = 0 ∧ (t.handle g.handle.toNat).inflight = 0
      ∧ (t.handle g.handle.toNat).adm = (e.handleCfg g.handle.toNat).adm ∧ (t.handle g.handle.toNat).maxTok = field g.payload 8 4 ∧ (t.handle g.handle.toNat).base = field g.payload 24 8
      ∧ (t.handle g.handle.toNat).d = field g.payload 2 2 ∧ (t.handle g.handle.toNat).l = field g.payload 4 2 ∧ (t.handle g.handle.toNat).h = field g.payload 6 2
      ∧ (∀ i, i ≠ g.handle.toNat → t.handle i = e.handle i)
      ∧ t.bound (s.base port.toNat) (completion g stOk (attnHeader 2 0 0 false (geoGb (t.handle g.handle.toNat).l (t.handle g.handle.toNat).h) (tokPage (t.handle g.handle.toNat).fmt.toNat (t.handle g.handle.toNat).d) ((t.handle g.handle.toNat).blocks * geoGb (t.handle g.handle.toNat).l (t.handle g.handle.toNat).h * 2 ^ 21)))
      ∧ t.tier = e.tier ∧ t.coh = e.coh ∧ t.ext = e.ext ∧ t.cpu = e.cpu ∧ t.clv = e.clv)
  ∧ (∀ (s e : State) (port : BitVec 8) (f : Frame) (g : Frame), f.opcode = 0x80 → s.takenAs port.toNat f = some g →
    e = s.entered port.toNat f → requestByte f 3 = f → (g.payload.headD 0).toNat = 3 → e.elsewhere g = false → e.req.reqs = [] → g.handle.toNat < 2 ^ 18 → g.length = 1 → g.payload = 3 :: fill 63 0 → e.mod.state = .service → e.handleUnder g g.handle.toNat = true → e.tenantGone g.tenant = false → (e.handle g.handle.toNat).state = .bound → (e.handle g.handle.toNat).tenant = g.tenant →
    ∃ t, exec (.atnRelease port f) s = .next t ∧ t.handle g.handle.toNat = { e.handle g.handle.toNat with state := .releasing } ∧ (∀ i, i ≠ g.handle.toNat → t.handle i = e.handle i)
      ∧ t.bound (s.base port.toNat) (completion g stOk (attnHeader 3 0 0 false 0 0 0)) ∧ t.tier = e.tier ∧ t.coh = e.coh ∧ t.ext = e.ext ∧ t.cpu = e.cpu ∧ t.clv = e.clv)
  ∧ (∀ (s : State) (tag : BitVec 16) (handle : BitVec 18), s.writes tag (atnAddr 0x010) (BitVec.ofNat 64 (2 ^ 18 + handle.toNat)) .operator → (s.handle handle.toNat).state ≠ .free →
    ∃ t, exec (.atnCmdRelease tag handle) s = .next t ∧ t.responded tag stOk ∧ t.handle handle.toNat = { s.handle handle.toNat with state := .releasing }
      ∧ t.atn.cmdRes = stOk ∧ t.atn.decodes = s.atn.decodes ∧ s.changesOnly t [.atn, .adk])
  ∧ (∀ (s : State) (tag : BitVec 16) (handle : BitVec 18), s.writes tag (atnAddr 0x010) (BitVec.ofNat 64 (2 ^ 18 + handle.toNat)) .operator → (s.handle handle.toNat).state = .free →
    ∃ t, exec (.atnCmdRelease tag handle) s = .next t ∧ t.responded tag stDenied ∧ t.atn.cmdRes = stDenied ∧ t.atn.handles = s.atn.handles ∧ s.changesOnly t [.atn, .adk])
  ∧ (∀ (s : State) (handle : BitVec 18), (s.handle handle.toNat).state = .releasing → (s.handle handle.toNat).inflight = 0 →
    ∃ t, exec (.handleFreed handle) s = .next t ∧ t.handle handle.toNat = {} ∧ (∀ i, i ≠ handle.toNat → t.handle i = s.handle i)
      ∧ t.atn.decodes = s.atn.decodes ∧ s.changesOnly t [.atn])
  ∧ (∀ (s : State) (handle : BitVec 18), (s.handle handle.toNat).state ≠ .releasing ∨ (s.handle handle.toNat).inflight ≠ 0 →
    exec (.handleFreed handle) s = .next s)

/-- Decodes start, split, ask other modules and answer. A DECODE of a bound handle by its tenant counts as in flight on it,
records the context and starts over the attended tokens that lie in this module; a DECODE whose attended tokens all lie in
one other module behind a port asks for them with ATN.SUB there, under a free tag of that port. A sub-request starts over
the tokens it names. An ATN.PART without a congestion echo is taken in at its place, and the one at ADDRESS 0 with status OK
ends the sub-request it answers; an ATN.RESULT of status OK that answers a request passed on from a port goes on to that
port; a split of tokens that have all arrived gives its partial result; a settled DECODE of a port, without OUT_POOL, merges
the parts in token order, answers with the result and is no longer in flight. -/
def Obligations.Decodes : Prop :=
  (∀ (s e : State) (port : BitVec 8) (f : Frame) (g : Frame), f.opcode = 0x80 → s.takenAs port.toNat f = some g →
    e = s.entered port.toNat f → (g.payload.headD 0).toNat = 1 → e.elsewhere g = false → e.req.reqs = [] → g.handle.toNat < 2 ^ 18 → e.mod.state = .service → e.handleUnder g g.handle.toNat = true → e.tenantGone g.tenant = false → (e.handle g.handle.toNat).state = .bound → (e.handle g.handle.toNat).tenant = g.tenant →
    decodeOk g (some (e.handle g.handle.toNat).d) = true → field g.payload 2 2 < (e.handle g.handle.toNat).l → field g.payload 4 1 + field g.payload 5 1 ≤ (e.handle g.handle.toNat).h → field g.payload 8 4 ≤ (e.handle g.handle.toNat).maxTok →
    e.handleEngines g.handle.toNat = true → (∀ x ∈ segParts (attended (field g.payload 8 4) (e.handle g.handle.toNat).win (e.handle g.handle.toNat).sink) (e.handle g.handle.toNat).maxTok (e.handle g.handle.toNat).segs, x.2 = [] ∨ e.unitHere x.1 = true) →
    ∃ t, exec (.atnDecode port f) s = .next t ∧ (∃ x : Decode, x.id = e.req.nextN ∧ x.origin = .port (s.base port.toNat) ∧ x.frame = g ∧ x.handle = g.handle.toNat ∧ x.isSub = false ∧ x.toks = (segParts (attended (field g.payload 8 4) (e.handle g.handle.toNat).win (e.handle g.handle.toNat).sink) (e.handle g.handle.toNat).maxTok (e.handle g.handle.toNat).segs).flatMap (·.2)
        ∧ x.fmt = (e.handle g.handle.toNat).fmt.toNat ∧ x.d = (e.handle g.handle.toNat).d ∧ x.h = (e.handle g.handle.toNat).h ∧ x.base = (e.handle g.handle.toNat).base ∧ x.subs = [] ∧ x.tp = tokPage (e.handle g.handle.toNat).fmt.toNat (e.handle g.handle.toNat).d ∧ x.gb = geoGb (e.handle g.handle.toNat).l (e.handle g.handle.toNat).h
        ∧ x.splits = planSplits (tokCount x.toks) (e.handleCfg g.handle.toNat).splitMin.toNat (e.handleCfg g.handle.toNat).maxSplits.toNat x.tp
        ∧ t = (({ e with req := { e.req with nextN := e.req.nextN + 1 } } : State).onHandle g.handle.toNat (fun r => { r with len := max r.len (field g.payload 8 4), lastFt := e.now, inflight := r.inflight + 1 })).attnStart x))
  ∧ (∀ (s e : State) (port : BitVec 8) (f : Frame) (g : Frame) (u : BitVec 16) (toks : List (Nat × Nat)) (p : Nat) (tg : BitVec 13), f.opcode = 0x80 → s.takenAs port.toNat f = some g →
    e = s.entered port.toNat f → (g.payload.headD 0).toNat = 1 → e.elsewhere g = false → e.req.reqs = [] → g.handle.toNat < 2 ^ 18 → e.mod.state = .service → e.handleUnder g g.handle.toNat = true → e.tenantGone g.tenant = false → (e.handle g.handle.toNat).state = .bound → (e.handle g.handle.toNat).tenant = g.tenant →
    decodeOk g (some (e.handle g.handle.toNat).d) = true → field g.payload 2 2 < (e.handle g.handle.toNat).l → field g.payload 4 1 + field g.payload 5 1 ≤ (e.handle g.handle.toNat).h → field g.payload 8 4 ≤ (e.handle g.handle.toNat).maxTok →
    e.handleEngines g.handle.toNat = true → bit (field g.payload 1 1) 2 = false →
    segParts (attended (field g.payload 8 4) (e.handle g.handle.toNat).win (e.handle g.handle.toNat).sink) (e.handle g.handle.toNat).maxTok (e.handle g.handle.toNat).segs = [(u, toks)] → e.unitHere u = false → e.unitAway u = some p → (e.link (e.base p)).dead = false → toks ≠ [] →
    e.freeTag (e.base p) = some tg →
    ∃ t, exec (.atnDecode port f) s = .next t ∧ t.handle g.handle.toNat = (fun r => { r with len := max r.len (field g.payload 8 4), lastFt := e.now, inflight := r.inflight + 1 }) (e.handle g.handle.toNat)
      ∧ (∃ x ∈ t.atn.decodes, x.id = e.req.nextN ∧ x.frame = g ∧ x.splits = [] ∧ x.subs = [{ unit := u, port := e.base p, tag := tg, firstTok := (toks.getD 0 (0, 0)).1, timer := e.targetTimer 0 }])
      ∧ (∃ q, t.bound (e.base p) q ∧ q.opcode = 0x82 ∧ q.vc = 5 ∧ q.dst = u ∧ q.tenant = g.tenant ∧ q.handle = g.handle ∧ q.tag = tg)
      ∧ t.req.reqs = e.req.reqs ∧ t.tier = e.tier ∧ t.coh = e.coh ∧ t.ext = e.ext ∧ t.clv = e.clv ∧ e.coresKept t)
  ∧ (∀ (s e : State) (port : BitVec 8) (f : Frame) (g : Frame), f.opcode = 0x82 → s.takenAs port.toNat f = some g →
    e = s.entered port.toNat f → e.elsewhere g = false → g.handle.toNat < 2 ^ 18 → e.mod.state = .service → e.handleUnder g g.handle.toNat = true → e.tenantGone g.tenant = false → subOk g = true → (e.handlePv g.handle.toNat).isSome = true → serviceCluster e.comp.run (g.handle.toNat / 2048) = true → e.handleEngines g.handle.toNat = true →
    ∃ t, exec (.atnSub port f) s = .next t ∧ (∃ x : Decode, x.id = e.req.nextN ∧ x.origin = .port (s.base port.toNat) ∧ x.frame = g ∧ x.handle = g.handle.toNat ∧ x.isSub = true ∧ x.fmt = field g.payload 0 1 ∧ x.d = field g.payload 2 2
        ∧ x.h = field g.payload 48 2 ∧ x.tp = field g.payload 9 1 ∧ x.gb = field g.payload 10 2 ∧ x.base = field g.payload 16 8 ∧ x.subs = []
        ∧ x.splits = planSplits (tokCount x.toks) (e.handleCfg g.handle.toNat).splitMin.toNat (e.handleCfg g.handle.toNat).maxSplits.toNat x.tp
        ∧ x.toks = [(field g.payload 24 4, field g.payload 28 4), (field g.payload 32 4, field g.payload 36 4)].filter (fun y => y.2 != 0) ∧ t = ({ e with req := { e.req with nextN := e.req.nextN + 1 } } : State).attnStart x))
  ∧ (∀ (s e : State) (port : BitVec 8) (f : Frame) (g : Frame) (r : Req) (q : Nat), f.opcode = 0x81 → s.takenAs port.toNat f = some g →
    e = s.entered port.toNat f → e.req.reqs = [r] → r.stage = .remote (s.base port.toNat) → r.origin = .port q → r.frame.src = g.dst → r.frame.tag = g.tag → g.status = stOk → g.addr = 0 → g.has flCmpr = false → r.leaf = none →
    ∃ t, exec (.atnResult port f) s = .next t ∧ t.req.reqs = [] ∧ t.queuedOn (e.base q) (g.clear flCe) ∧ t.tier = e.tier ∧ t.coh = e.coh ∧ t.ext = e.ext ∧ t.cpu = e.cpu)
  ∧ (∀ (s e : State) (port : BitVec 8) (f : Frame) (g : Frame) (x : Decode) (y : SubReq), f.opcode = 0x83 → s.takenAs port.toNat f = some g →
    e = s.entered port.toNat f → g.dst = e.selfUnit → e.atn.decodes = [x] → x.subs = [y] → y.port = (s.base port.toNat) → y.tag = g.tag → y.finished = false → y.held = none → g.has flCeEcho = false → g.addr ≠ 0 →
    ∃ t, exec (.atnPart port f) s = .next t ∧ t.atn.decodes = [{ x with subs := [{ y with bytes := y.bytes.write g.addr.toNat g.payload }] }] ∧ t.req = e.req ∧ t.tier = e.tier ∧ t.coh = e.coh ∧ t.ext = e.ext ∧ t.cpu = e.cpu ∧ t.clv = e.clv)
  ∧ (∀ (s e : State) (port : BitVec 8) (f : Frame) (g : Frame) (x : Decode) (y : SubReq), f.opcode = 0x83 → s.takenAs port.toNat f = some g →
    e = s.entered port.toNat f → g.dst = e.selfUnit → e.atn.decodes = [x] → x.subs = [y] → y.port = (s.base port.toNat) → y.tag = g.tag → y.finished = false → y.held = none → g.has flCeEcho = false → g.addr = 0 → g.status = stOk → e.noneHeld = true →
    ∃ t, exec (.atnPart port f) s = .next t ∧ t.atn.decodes = [{ x with subs := [{ y with bytes := y.bytes.write 0 g.payload, finished := true }], status := stMin x.status stOk }] ∧ t.req = e.req ∧ t.tier = e.tier ∧ t.coh = e.coh ∧ t.ext = e.ext ∧ t.cpu = e.cpu ∧ t.clv = e.clv)
  ∧ (∀ (s : State) (decode split : Nat) (x : Decode) (y : Split), s.alive = true → s.atn.decodes = [x] → x.id = decode → x.splits[split]? = some y → y.finished = false →
    (∀ l, Table.read false x.asked l = false) → x.probing = [] → x.final = stOk →
    ∃ t, exec (.splitComplete decode split) s = .next t ∧ t.atn.decodes = [{ x with splits := setAt x.splits split { y with finished := true, result := some (x.splitPartial y) } }]
      ∧ t.atn.handles = s.atn.handles ∧ s.changesOnly t [.atn])
  ∧ (∀ (s : State) (decode b : Nat) (x : Decode), s.alive = true → s.atn.decodes = [x] → x.id = decode → x.settled = true → x.outLeft = 0 → x.ended = none → x.final = stOk →
    x.isSub = false → x.ask.outPool = false → x.origin = .port b → x.frame.opcode = 0x80 → x.frame.has flCe = false →
    ∃ t, exec (.decodeComplete decode) s = .next t ∧ t.atn.decodes = [] ∧ t.handle x.handle = { s.handle x.handle with inflight := (s.handle x.handle).inflight - 1 }
      ∧ t.bound (s.base b) (completion x.frame stOk (attnHeader 1 x.splitCount 0 false 0 0 0 ++ finalOut x.ask.outFp32 (mergeAll x.ask.rows x.d x.partials)))
      ∧ s.changesOnly t [.atn, .ports, .pkg, .evq, .adk])

/-- Collectives: joining, contributing, results, grants, completions and aborts. A COLL.OPEN of the next generation by a member
of an idle or aborted collective identifier, of no deadline and no gating, starts it with its descriptor; where it is the
first of several members of a reduction at a root or single module, that member is taken in and granted its window. One of
the present generation by a member that has not opened joins. Plain contributed bytes within the grant are absorbed, and the
collective goes on; those of another generation are counted stale and dropped; at a root or single module those beyond the
grant abort it with cause 6. From its parent a child passes results on, extends its grant, commits and aborts. At a root the
completion of its one child makes that child ready; at a root or single module a member's abort aborts the generation with
cause 4. COMBINE is left to other statements. -/
def Obligations.CollectivesAtTheirPorts : Prop :=
  (∀ (s e : State) (port : BitVec 8) (f : Frame) (g : Frame) (who top : Nat), f.opcode = 0x78 → s.takenAs port.toNat f = some g →
    e = s.entered port.toNat f → e.elsewhere g = false → e.req.reqs = [] → e.req.held = [] → e.collWho g.collId (.port (s.base port.toNat)) g = some who →
    ((e.coll g.collId).state = .idle ∨ (e.coll g.collId).state = .aborted) → g.tenant = (e.collGroup g.collId).tenant → e.mod.state = .service →
    dstPavilion (e.tables g.epoch) g.dst = some top → inSubtree e.comp.run top (e.admRec (e.coll g.collId).adm.toNat).pv.toNat = true →
    descOk (e.collN g.collId) (e.linkRows g.collId who (Desc.of g.payload)) g.payload = true → (Desc.of g.payload).timed = false → (Desc.of g.payload).isGated = false → (Desc.of g.payload).op ≠ 0x11 → e.collEngines g.collId (Desc.of g.payload) = true →
    ((e.coll g.collId).hasParent = false ∨ (e.freeTag (e.base (e.coll g.collId).parentPort.toNat)).isSome = true) →
    1 ≤ (g.collGen + 4096 - (e.coll g.collId).gen.toNat) % 4096 → (g.collGen + 4096 - (e.coll g.collId).gen.toNat) % 4096 ≤ 2047 →
    e.collUse (e.coll g.collId).adm.toNat < (e.admRec (e.coll g.collId).adm.toNat).resv.coll →
    1 ≤ (({ e with req := { e.req with nextN := e.req.nextN + 1 } } : State).setColl g.collId ((e.coll g.collId).begun (BitVec.ofNat 12 g.collGen) g.payload)).window g.collId →
    ∃ t, exec (.collOpen port f) s = .next t ∧ t = ({ e with req := { e.req with nextN := e.req.nextN + 1 } } : State).collStart e.req.nextN g.collId who (.port (s.base port.toNat)) g)
  ∧ (∀ (s e : State) (port : BitVec 8) (f : Frame) (g : Frame) (who top : Nat), f.opcode = 0x78 → s.takenAs port.toNat f = some g →
    e = s.entered port.toNat f → e.elsewhere g = false → e.req.reqs = [] → e.req.held = [] → e.collWho g.collId (.port (s.base port.toNat)) g = some who →
    ((e.coll g.collId).state = .idle ∨ (e.coll g.collId).state = .aborted) → g.tenant = (e.collGroup g.collId).tenant → e.mod.state = .service →
    dstPavilion (e.tables g.epoch) g.dst = some top → inSubtree e.comp.run top (e.admRec (e.coll g.collId).adm.toNat).pv.toNat = true →
    descOk (e.collN g.collId) (e.linkRows g.collId who (Desc.of g.payload)) g.payload = true → (Desc.of g.payload).timed = false → (Desc.of g.payload).isGated = false → (Desc.of g.payload).op ≠ 0x11 → e.collEngines g.collId (Desc.of g.payload) = true →
    ((e.coll g.collId).hasParent = false ∨ (e.freeTag (e.base (e.coll g.collId).parentPort.toNat)).isSome = true) →
    1 ≤ (g.collGen + 4096 - (e.coll g.collId).gen.toNat) % 4096 → (g.collGen + 4096 - (e.coll g.collId).gen.toNat) % 4096 ≤ 2047 →
    e.collUse (e.coll g.collId).adm.toNat < (e.admRec (e.coll g.collId).adm.toNat).resv.coll →
    1 ≤ (({ e with req := { e.req with nextN := e.req.nextN + 1 } } : State).setColl g.collId ((e.coll g.collId).begun (BitVec.ofNat 12 g.collGen) g.payload)).window g.collId → (e.coll g.collId).hasParent = false → (Desc.of g.payload).reducing = true → (∀ r, r < e.collN g.collId → (e.memberOf g.collId r).dead = false) →
    who < 256 → (∃ w ∈ ({ e with req := { e.req with nextN := e.req.nextN + 1 } } : State).contributors g.collId, w ≠ who) →
    ∃ t, exec (.collOpen port f) s = .next t ∧ (t.coll g.collId).state = .opened ∧ (t.coll g.collId).gen = BitVec.ofNat 12 g.collGen ∧ (t.coll g.collId).desc = g.payload
      ∧ (∃ p ∈ (t.coll g.collId).parts, (t.coll g.collId).parts.length = 1 ∧ p.who = who ∧ p.origin = .port (s.base port.toNat) ∧ p.n = e.req.nextN ∧ p.frame = g ∧ p.granted = t.grantEnd g.collId who ∧ p.total = t.whoTotal g.collId who)
      ∧ (∃ q, t.bound (s.base port.toNat) q ∧ q.opcode = 0x79 ∧ q.vc = 5 ∧ q.dst = g.src ∧ q.tag = g.tag ∧ q.handle = collHandle g.collId (BitVec.ofNat 12 g.collGen)) ∧ t.req.reqs = [] ∧ t.tier = e.tier ∧ t.coh = e.coh ∧ t.ext = e.ext ∧ t.atn = e.atn ∧ e.coresKept t)
  ∧ (∀ (s e : State) (port : BitVec 8) (f : Frame) (g : Frame) (who top : Nat), f.opcode = 0x78 → s.takenAs port.toNat f = some g →
    e = s.entered port.toNat f → e.elsewhere g = false → e.req.reqs = [] → e.req.held = [] → e.collWho g.collId (.port (s.base port.toNat)) g = some who → (e.coll g.collId).state = .opened → g.collGen = (e.coll g.collId).gen.toNat →
    (e.coll g.collId).part who = none → g.tenant = (e.collGroup g.collId).tenant → e.mod.state = .service →
    dstPavilion (e.tables g.epoch) g.dst = some top → inSubtree e.comp.run top (e.admRec (e.coll g.collId).adm.toNat).pv.toNat = true →
    descOk (e.collN g.collId) (e.linkRows g.collId who (Desc.of g.payload)) g.payload = true → (Desc.of g.payload).timed = false → (Desc.of g.payload).isGated = false → (Desc.of g.payload).op ≠ 0x11 → e.collEngines g.collId (Desc.of g.payload) = true →
    ∃ t, exec (.collOpen port f) s = .next t ∧ t = ({ e with req := { e.req with nextN := e.req.nextN + 1 } } : State).collJoin e.req.nextN g.collId who (.port (s.base port.toNat)) g)
  ∧ (∀ (s e : State) (port : BitVec 8) (f : Frame) (g : Frame) (who : Nat) (p : Contributor), f.opcode = 0x70 → s.takenAs port.toNat f = some g →
    e = s.entered port.toNat f → e.elsewhere g = false → e.collReached g.collId g = true → (e.coll g.collId).state = .opened → g.collGen = (e.coll g.collId).gen.toNat → e.collWho g.collId (.port (s.base port.toNat)) g = some who → (e.coll g.collId).part who = some p → g.has flCmpr = false → 1 ≤ g.payload.length →
    g.addr.toNat % 64 = 0 → g.addr.toNat / 65536 = (g.addr.toNat + g.payload.length - 1) / 65536 → g.addr.toNat + g.payload.length ≤ min p.granted p.total → who < 256 →
    (∀ u, u < g.payload.length / 64 → Table.read false (e.coll g.collId).got (who * 2 ^ 28 + g.addr.toNat / 64 + u) = false) →
    ∃ t, exec (.collContrib port f) s = .next t ∧ t = (e.absorb g.collId who g.addr.toNat g.payload).collProgress g.collId)
  ∧ (∀ (s e : State) (port : BitVec 8) (f : Frame) (g : Frame) (who : Nat) (p : Contributor), f.opcode = 0x70 → s.takenAs port.toNat f = some g →
    e = s.entered port.toNat f → e.elsewhere g = false → e.collReached g.collId g = true → (e.coll g.collId).state = .opened → g.collGen = (e.coll g.collId).gen.toNat → e.collWho g.collId (.port (s.base port.toNat)) g = some who → (e.coll g.collId).part who = some p → g.has flCmpr = false → 1 ≤ g.payload.length →
    g.addr.toNat % 64 = 0 → g.addr.toNat / 65536 = (g.addr.toNat + g.payload.length - 1) / 65536 → min p.granted p.total < g.addr.toNat + g.payload.length → (e.coll g.collId).hasParent = false →
    ∃ t, exec (.collContrib port f) s = .next t ∧ (t.coll g.collId) = { (e.coll g.collId) with state := .aborting, cause := 6, deadline := none, unfreed := [] } ∧ t.tier = e.tier ∧ t.coh = e.coh ∧ t.ext = e.ext ∧ t.atn = e.atn ∧ e.coresKept t)
  ∧ (∀ (s e : State) (port : BitVec 8) (f : Frame) (g : Frame), f.opcode = 0x70 → s.takenAs port.toNat f = some g →
    e = s.entered port.toNat f → e.elsewhere g = false → g.collGen ≠ (e.coll g.collId).gen.toNat →
    ∃ t, exec (.collContrib port f) s = .next t ∧ t.clv.cntStale = (bump e.clv.cntStale).1 ∧ t.clv.ids = e.clv.ids ∧ t.tier = e.tier ∧ t.coh = e.coh ∧ t.ext = e.ext ∧ t.cpu = e.cpu ∧ t.atn = e.atn)
  ∧ (∀ (s : State) (id who off : Nat) (bs : List Byte) (i : Nat), (s.coll id).d.reducing = true → who < 256 → (s.coll id).d.red = 0 → isIntFmt (s.coll id).d.dtype = true →
    i < bs.length / (s.coll id).d.e →
    Table.read 0 ((s.absorb id who off bs).coll id).acc (off / (s.coll id).d.e + i) =
      (if Table.read false (s.coll id).accHas (off / (s.coll id).d.e + i) then Table.read 0 (s.coll id).acc (off / (s.coll id).d.e + i) else 0)
        + accIn (s.coll id).d.dtype (field bs (i * (s.coll id).d.e) (s.coll id).d.e))
  ∧ (∀ (s e : State) (port : BitVec 8) (f : Frame) (g : Frame), f.opcode = 0x71 → s.takenAs port.toNat f = some g →
    e = s.entered port.toNat f → (e.coll g.collId).state = .opened → g.collGen = (e.coll g.collId).gen.toNat → (e.coll g.collId).hasParent = true → e.base (e.coll g.collId).parentPort.toNat = (s.base port.toNat) →
    ∃ t, exec (.collResult port f) s = .next t ∧ t = e.passResult g)
  ∧ (∀ (s e : State) (port : BitVec 8) (f : Frame) (g : Frame), f.opcode = 0x79 → s.takenAs port.toNat f = some g →
    e = s.entered port.toNat f → (e.coll g.collId).state = .opened → g.collGen = (e.coll g.collId).gen.toNat → (e.coll g.collId).hasParent = true → e.base (e.coll g.collId).parentPort.toNat = (s.base port.toNat) →
    ∃ t, exec (.collGrant port f) s = .next t ∧ t = (e.onColl g.collId (fun c => { c with upGrant := max c.upGrant (field g.payload 8 8) })).collProgress g.collId)
  ∧ (∀ (s e : State) (port : BitVec 8) (f : Frame) (g : Frame), f.opcode = 0x7A → s.takenAs port.toNat f = some g →
    e = s.entered port.toNat f → e.req.reqs = [] → (e.coll g.collId).state = .opened → g.collGen = (e.coll g.collId).gen.toNat → (e.coll g.collId).hasParent = true → e.base (e.coll g.collId).parentPort.toNat = (s.base port.toNat) → e.noneHeld = true → g.status = stOk → (e.coll g.collId).d.op ≠ 0x11 →
    ∃ t, exec (.collDone port f) s = .next t ∧ (t.coll g.collId).state = .idle ∧ (t.coll g.collId).gen = (e.coll g.collId).gen ∧ (t.coll g.collId).data = [] ∧ (t.coll g.collId).acc = []
      ∧ (∀ p ∈ (e.coll g.collId).parts, ∀ q, p.origin = .port q → t.bound (e.base q) (doneFrame p.frame stOk 0)) ∧ t.tier = e.tier ∧ t.coh = e.coh ∧ t.ext = e.ext ∧ t.atn = e.atn ∧ e.coresKept t)
  ∧ (∀ (s e : State) (port : BitVec 8) (f : Frame) (g : Frame) (i q : Nat), f.opcode = 0x7A → s.takenAs port.toNat f = some g →
    e = s.entered port.toNat f → e.req.reqs = [] → (e.coll g.collId).state = .opened → g.collGen = (e.coll g.collId).gen.toNat → e.noneHeld = true → (e.coll g.collId).hasParent = false → (e.coll g.collId).children = [(i, q)] → e.base q = (s.base port.toNat) → g.status = stOk →
    ∃ t, exec (.collDone port f) s = .next t ∧ (t.coll g.collId) = { (e.coll g.collId) with parts := (e.coll g.collId).parts.map (fun (x : Contributor) => if x.who = 256 + i then { x with ready := true } else x) } ∧ t.tier = e.tier ∧ t.coh = e.coh ∧ t.ext = e.ext ∧ t.cpu = e.cpu ∧ t.atn = e.atn)
  ∧ (∀ (s e : State) (port : BitVec 8) (f : Frame) (g : Frame), f.opcode = 0x7F → s.takenAs port.toNat f = some g →
    e = s.entered port.toNat f → (e.coll g.collId).state = .opened → g.collGen = (e.coll g.collId).gen.toNat → (e.coll g.collId).hasParent = true → e.base (e.coll g.collId).parentPort.toNat = (s.base port.toNat) → e.collReached g.collId g = true →
    ∃ t, exec (.abort port f) s = .next t ∧ (t.coll g.collId) = { (e.coll g.collId) with state := .aborting, cause := BitVec.ofNat 4 (g.addr.toNat % 16), deadline := none, unfreed := [] } ∧ t.tier = e.tier ∧ t.coh = e.coh ∧ t.ext = e.ext ∧ t.atn = e.atn ∧ e.coresKept t)
  ∧ (∀ (s e : State) (port : BitVec 8) (f : Frame) (g : Frame) (who : Nat), f.opcode = 0x7F → s.takenAs port.toNat f = some g →
    e = s.entered port.toNat f → (e.coll g.collId).state = .opened → g.collGen = (e.coll g.collId).gen.toNat → e.collReached g.collId g = true → (e.coll g.collId).hasParent = false → e.elsewhere g = false → e.collWho g.collId (.port (s.base port.toNat)) g = some who → who < 256 →
    ∃ t, exec (.abort port f) s = .next t ∧ (t.coll g.collId) = { (e.coll g.collId) with state := .aborting, cause := 4, deadline := none, unfreed := [] } ∧ t.tier = e.tier ∧ t.coh = e.coh ∧ t.ext = e.ext ∧ t.atn = e.atn ∧ e.coresKept t)

/-- Collectives are bound, commit, abort and retry. The operator binds an identifier that runs nothing: it becomes IDLE, with
generation 0xFFF where it was unbound, and holds the fields written; disabling makes it UNBOUND. Two different units may be
written as members of an empty group none of whose collectives runs; one unit twice, and any write while one runs, is
DENIED. A ready root of no COMBINE commits, answers every contributor of a port and is IDLE; a ready child that has not told
its parent does so. A deadline that is reached, with nothing of a gate before it in its slot, aborts with cause 7, the
operator's command with cause 9; an aborting collective with no write left is ABORTED. A held COLL.OPEN is tried again when
the collective has ended, and the slots of a chunk are freed when nothing of it is left to send. -/
def Obligations.CollectivesBindCommitAndAbort : Prop :=
  (∀ (s : State) (tag : BitVec 16) (value : BitVec 64), s.writes tag (clvAddr 0x018) (value ||| 1#64 <<< 63) .operator → (s.coll s.clv.bindSel.toNat).state ≠ .opened → (s.coll s.clv.bindSel.toNat).state ≠ .committing → (s.coll s.clv.bindSel.toNat).state ≠ .aborting → 1 ≤ bits (value ||| 1#64 <<< 63).toNat 40 30 → bits (value ||| 1#64 <<< 63).toNat 40 30 ≤ s.slotRegion (bit (value ||| 1#64 <<< 63).toNat 29) (bits (value ||| 1#64 <<< 63).toNat 28 22) → serviceCluster s.comp.run (bits (value ||| 1#64 <<< 63).toNat 28 22) = true →
    (s.group (bits (value ||| 1#64 <<< 63).toNat 9 0)).tenant = (s.admRec (bits (value ||| 1#64 <<< 63).toNat 19 10)).tenant → (s.group (bits (value ||| 1#64 <<< 63).toNat 9 0)).size ≠ 0 → bits (value ||| 1#64 <<< 63).toNat 62 61 = 0 →
    ∃ t, exec (.clvBindEnable tag value) s = .next t ∧ t.responded tag stOk ∧ (t.coll s.clv.bindSel.toNat).enable = true ∧ (t.coll s.clv.bindSel.toNat).state = (if (s.coll s.clv.bindSel.toNat).state = .unbound then .idle else (s.coll s.clv.bindSel.toNat).state) ∧ (t.coll s.clv.bindSel.toNat).gen = (if (s.coll s.clv.bindSel.toNat).state = .unbound then 0xFFF else (s.coll s.clv.bindSel.toNat).gen) ∧ (t.coll s.clv.bindSel.toNat).slots.toNat = bits (value ||| 1#64 <<< 63).toNat 40 30 ∧ (t.coll s.clv.bindSel.toNat).cluster.toNat = bits (value ||| 1#64 <<< 63).toNat 28 22 ∧ (t.coll s.clv.bindSel.toNat).adm.toNat = bits (value ||| 1#64 <<< 63).toNat 19 10 ∧ (t.coll s.clv.bindSel.toNat).group.toNat = bits (value ||| 1#64 <<< 63).toNat 9 0
      ∧ (t.coll s.clv.bindSel.toNat).role.toNat = bits (value ||| 1#64 <<< 63).toNat 62 61 ∧ (∀ i, i ≠ s.clv.bindSel.toNat → t.coll i = s.coll i) ∧ t.clv.groups = s.clv.groups ∧ s.changesOnly t [.clv, .adk])
  ∧ (∀ (s : State) (tag : BitVec 16) (value : BitVec 64), s.writes tag (clvAddr 0x018) (value &&& ~~~(1#64 <<< 63)) .operator → (s.coll s.clv.bindSel.toNat).state ≠ .opened → (s.coll s.clv.bindSel.toNat).state ≠ .committing → (s.coll s.clv.bindSel.toNat).state ≠ .aborting → 1 ≤ bits (value &&& ~~~(1#64 <<< 63)).toNat 40 30 → bits (value &&& ~~~(1#64 <<< 63)).toNat 40 30 ≤ s.slotRegion (bit (value &&& ~~~(1#64 <<< 63)).toNat 29) (bits (value &&& ~~~(1#64 <<< 63)).toNat 28 22) →
    ∃ t, exec (.clvBindDisable tag value) s = .next t ∧ t.responded tag stOk ∧ (t.coll s.clv.bindSel.toNat).enable = false ∧ (t.coll s.clv.bindSel.toNat).state = .unbound ∧ (t.coll s.clv.bindSel.toNat).slots.toNat = bits (value &&& ~~~(1#64 <<< 63)).toNat 40 30 ∧ (t.coll s.clv.bindSel.toNat).cluster.toNat = bits (value &&& ~~~(1#64 <<< 63)).toNat 28 22 ∧ (t.coll s.clv.bindSel.toNat).adm.toNat = bits (value &&& ~~~(1#64 <<< 63)).toNat 19 10 ∧ (t.coll s.clv.bindSel.toNat).group.toNat = bits (value &&& ~~~(1#64 <<< 63)).toNat 9 0
      ∧ (t.coll s.clv.bindSel.toNat).role.toNat = bits (value &&& ~~~(1#64 <<< 63)).toNat 62 61 ∧ (∀ i, i ≠ s.clv.bindSel.toNat → t.coll i = s.coll i) ∧ t.clv.groups = s.clv.groups ∧ s.changesOnly t [.clv, .adk])
  ∧ (∀ (s : State) (tag : BitVec 16) (value : BitVec 64), s.writes tag (clvAddr 0x018) (value &&& ~~~(1#64 <<< 63)) .operator → (s.coll s.clv.bindSel.toNat).state = .opened →
    ∃ t, exec (.clvBindDisable tag value) s = .next t ∧ t.responded tag stDenied ∧ t.clv = s.clv ∧ s.changesOnly t [.adk])
  ∧ (∀ (s : State) (tag : BitVec 16), s.writes tag (clvAddr 0x030) 1 .operator → (s.coll s.clv.bindSel.toNat).live = true → (s.coll s.clv.bindSel.toNat).hasParent = false →
    ∃ t, exec (.clvCmdAbort tag) s = .next t ∧ t.responded tag stOk ∧ (t.coll s.clv.bindSel.toNat) = { (s.coll s.clv.bindSel.toNat) with state := .aborting, cause := 9, deadline := none, unfreed := [] } ∧ s.changesOnly t [.clv, .pkg, .ports, .req, .cpu, .xl, .sec, .log, .adk, .evq])
  ∧ (∀ (s : State) (tag : BitVec 16) (j : BitVec 7) (value : BitVec 64), s.writes tag (clvAddr (0x100 + 8 * j.toNat)) value .operator → s.groupLocked s.clv.grpSel.toNat = false → (s.group s.clv.grpSel.toNat).members = [] → memberWord value 0 ≠ memberWord value 1 →
    (memberWord value 0).coreV = false → (memberWord value 1).coreV = false → (memberWord value 0).unit ≠ (memberWord value 1).unit →
    ∃ t, exec (.clvGrpMemberWrite tag j value) s = .next t ∧ t.responded tag stOk ∧ Table.read {} (t.group s.clv.grpSel.toNat).members (2 * j.toNat) = memberWord value 0 ∧ Table.read {} (t.group s.clv.grpSel.toNat).members (2 * j.toNat + 1) = memberWord value 1
      ∧ (t.group s.clv.grpSel.toNat).tenant = (s.group s.clv.grpSel.toNat).tenant ∧ t.clv.ids = s.clv.ids ∧ s.changesOnly t [.clv, .adk])
  ∧ (∀ (s : State) (tag : BitVec 16) (j : BitVec 7) (value : BitVec 64), s.writes tag (clvAddr (0x100 + 8 * j.toNat)) value .operator → s.groupLocked s.clv.grpSel.toNat = true →
    ∃ t, exec (.clvGrpMemberWrite tag j value) s = .next t ∧ t.responded tag stDenied ∧ t.clv = s.clv ∧ s.changesOnly t [.adk])
  ∧ (∀ (s : State) (tag : BitVec 16) (j : BitVec 7) (value : BitVec 64), s.writes tag (clvAddr (0x100 + 8 * j.toNat)) value .operator → (memberWord value 0).coreV = false → (memberWord value 1).coreV = false →
    (memberWord value 0).unit = (memberWord value 1).unit → (memberWord value 0).unit ≠ 0xFFFF →
    ∃ t, exec (.clvGrpMemberWrite tag j value) s = .next t ∧ t.responded tag stDenied ∧ t.clv = s.clv ∧ s.changesOnly t [.adk])
  ∧ (∀ (s : State) (id : BitVec 12), s.alive = true → s.collReady id.toNat = true → (s.coll id.toNat).hasParent = false → (s.coll id.toNat).d.op ≠ 0x11 →
    ∃ t, exec (.collectiveCommit id) s = .next t ∧ (t.coll id.toNat).state = .idle ∧ (t.coll id.toNat).gen = (s.coll id.toNat).gen ∧ (t.coll id.toNat).data = [] ∧ (t.coll id.toNat).acc = []
      ∧ (∀ p ∈ (s.coll id.toNat).parts, ∀ q, p.origin = .port q → t.bound (s.base q) (doneFrame p.frame stOk 0)) ∧ (∀ i, i ≠ id.toNat → t.coll i = s.coll i) ∧ t.tier = s.tier)
  ∧ (∀ (s : State) (id : BitVec 12), s.alive = true → s.collReady id.toNat = true → (s.coll id.toNat).hasParent = true → (s.coll id.toNat).readyUp = false →
    ∃ t, exec (.collectiveCommit id) s = .next t ∧ (t.coll id.toNat) = { (s.coll id.toNat) with readyUp := true } ∧ t.bound (s.base (s.coll id.toNat).parentPort.toNat) (s.treeFrame id.toNat 0x7A 5 stOk 0 [])
      ∧ s.changesOnly t [.clv, .ports, .pkg, .evq, .adk])
  ∧ (∀ (s : State) (id : BitVec 12) (d : FT), s.alive = true → (s.coll id.toNat).live = true → (s.coll id.toNat).deadline = some d → d ≤ s.now → s.inTurn 1 d = true →
    ∃ t, exec (.collectiveAbortDeadline id) s = .next t ∧ (t.coll id.toNat) = { (s.coll id.toNat) with state := .aborting, cause := 7, deadline := none, unfreed := [] }
      ∧ (∀ p ∈ (s.coll id.toNat).parts, ∀ q, p.origin = .port q → p.who < 256 → (s.memberOf id.toNat p.who).dead = false → t.bound (s.base q) (doneFrame p.frame stAborted 7))
      ∧ t.tier = s.tier ∧ t.ext = s.ext)
  ∧ (∀ (s : State) (id : BitVec 12), s.alive = true → (s.coll id.toNat).state = .aborting → (s.coll id.toNat).poolLeft = 0 →
    ∃ t, exec (.abortComplete id) s = .next t ∧ (t.coll id.toNat).state = .aborted ∧ (t.coll id.toNat).cause = (s.coll id.toNat).cause ∧ (t.coll id.toNat).gen = (s.coll id.toNat).gen ∧ (t.coll id.toNat).data = [] ∧ (t.coll id.toNat).acc = []
      ∧ s.changesOnly t [.clv])
  ∧ (∀ (s : State) (n : Nat) (o : Origin) (f : Frame), s.alive = true → s.req.held = [{ n := n, origin := o, frame := f, forAbort := true }] →
    ((s.coll f.collId).state = .idle ∨ (s.coll f.collId).state = .aborted) →
    exec (.heldOpenRetry n) s = .next (({ s with req := { s.req with held := [] } } : State).collOpen n o f))
  ∧ (∀ (s : State) (id : BitVec 12) (who chunk : Nat), s.alive = true → (s.coll id.toNat).live = true → (s.coll id.toNat).unfreed.contains (chunkKey who chunk) = true → (s.coll id.toNat).d.op ≠ 0x11 → (s.coll id.toNat).d.op ≠ 0x20 →
    ((s.coll id.toNat).d.shared = true ∨ Table.read false (s.coll id.toNat).out (chunkKey who chunk) = true) →
    s.chunkOut (id.toNat, (s.coll id.toNat).gen.toNat, who, chunk) = false →
    exec (.chunkSlotsFreed id who chunk) s = .next ((s.onColl id.toNat (fun c => { c with unfreed := c.unfreed.filter (· != chunkKey who chunk) })).collProgress id.toNat))

/-- Extents are assigned, changed, revoked, drained, released and scrubbed. While no command is BUSY: ASSIGN makes a free extent
that carries no data, with slots and admission for 512 pages of the chosen tier, ACTIVE for its tenant, and a DRAINED one of
the same tenant ACTIVE with the pages it has; one of no KV extent beyond the reservation is DENIED. SETATTR changes only the
owner, the sharing and the KV attributes. REVOKE takes an ACTIVE extent of no domain to REVOKING, which every copy shows
within 4 µs (log 44); while BUSY it is DENIED. With every copy showing it and nothing in flight the extent becomes DRAINED,
and at the time limit its one request, a load, ends with REVOKED and it becomes DRAINED. RELEASE frees a DRAINED extent and
keeps its last tenant; SCRUB of a DRAINED extent of no page starts, and after the end of the overwriting an extent of no
page is FREE with no last tenant. -/
def Obligations.ExtentsThroughTheirLife : Prop :=
  (∀ (s : State) (tag : BitVec 16) (index : BitVec 21), s.writes tag (extAddr 0x008) (BitVec.ofNat 64 (16 * index.toNat + 1)) .operator → s.extBusy = false → (s.extent index.toNat).state = .free → (s.extent index.toNat).lastValid = false → s.extentPages index.toNat = [] → s.ext.argShare ≠ 3 → s.ownerOk s.ext.argOwner = true → (s.tenant s.ext.argTenant.toNat).state = .active → (s.admRec s.ext.argAdm.toNat).admitted = true →
    (s.admRec s.ext.argAdm.toNat).tenant = s.ext.argTenant → (homingPv s.comp.run s.ext.argPv.toNat).isSome = true → s.isFenced 2 index.toNat = false → 512 ≤ s.tierFree (if s.ext.argTier then 2 else 1) →
    s.shortOf s.ext.argAdm.toNat (if s.ext.argTier then 2 else 1) 512 = 0 →
    ∃ t, exec (.extAssign tag index) s = .next t ∧ t.responded tag stOk ∧ (t.extent index.toNat).state = .active ∧ (t.extent index.toNat).tenant = s.ext.argTenant ∧ (t.extent index.toNat).pv = s.ext.argPv ∧ (t.extent index.toNat).share = s.ext.argShare ∧ (t.extent index.toNat).owner = s.ext.argOwner ∧ (t.extent index.toNat).adm = s.ext.argAdm
      ∧ (t.extent index.toNat).coherent = s.ext.argAttr ∧ (t.extent index.toNat).dom = s.ext.argDom ∧ (t.extent index.toNat).lastTenant = s.ext.argTenant
      ∧ t.tier = ((List.range 512).foldl (fun x i => (x.giveSlot (512 * index.toNat + i) (if s.ext.argTier then 2 else 1)).getD x) s).tier
      ∧ t.ext.cmdSeq = s.ext.cmdSeq + 1 ∧ t.ext.result = stOk ∧ t.ext.cmdState = (t.extent index.toNat).state ∧ (∀ i, i ≠ index.toNat → t.extent i = s.extent i) ∧ s.changesOnly t [.free, .pkg, .ports, .req, .coh, .ext, .adm, .tier, .xl, .cmp, .cpu, .clv, .atn, .comp, .sec, .log, .adk, .evq])
  ∧ (∀ (s : State) (tag : BitVec 16) (index : BitVec 21), s.writes tag (extAddr 0x008) (BitVec.ofNat 64 (16 * index.toNat + 1)) .operator → s.extBusy = false → (s.extent index.toNat).state = .drained → (s.extent index.toNat).tenant = s.ext.argTenant → s.ext.argShare ≠ 3 → s.ownerOk s.ext.argOwner = true → (s.tenant s.ext.argTenant.toNat).state = .active → (s.admRec s.ext.argAdm.toNat).admitted = true →
    (s.admRec s.ext.argAdm.toNat).tenant = s.ext.argTenant → (homingPv s.comp.run s.ext.argPv.toNat).isSome = true → s.isFenced 2 index.toNat = false → (∀ k, k < 2 → s.shortOf s.ext.argAdm.toNat (k + 1) ((s.extentPages index.toNat).filter (fun p => p.2.res.toNat == k + 1)).length = 0) →
    ∃ t, exec (.extAssign tag index) s = .next t ∧ t.responded tag stOk ∧ (t.extent index.toNat).state = .active ∧ (t.extent index.toNat).tenant = s.ext.argTenant ∧ (t.extent index.toNat).pv = s.ext.argPv ∧ (t.extent index.toNat).share = s.ext.argShare ∧ (t.extent index.toNat).owner = s.ext.argOwner ∧ (t.extent index.toNat).adm = s.ext.argAdm
      ∧ (t.extent index.toNat).coherent = s.ext.argAttr ∧ (t.extent index.toNat).dom = s.ext.argDom ∧ (t.extent index.toNat).lastTenant = s.ext.argTenant ∧ t.tier = s.tier
      ∧ t.ext.cmdSeq = s.ext.cmdSeq + 1 ∧ t.ext.result = stOk ∧ t.ext.cmdState = (t.extent index.toNat).state ∧ (∀ i, i ≠ index.toNat → t.extent i = s.extent i) ∧ s.changesOnly t [.free, .pkg, .ports, .req, .coh, .ext, .adm, .tier, .xl, .cmp, .cpu, .clv, .atn, .comp, .sec, .log, .adk, .evq])
  ∧ (∀ (s : State) (tag : BitVec 16) (index : BitVec 21), s.writes tag (extAddr 0x008) (BitVec.ofNat 64 (16 * index.toNat + 1)) .operator → s.extBusy = false → (s.extent index.toNat).state = .active →
    ∃ t, exec (.extAssign tag index) s = .next t ∧ t.responded tag stDenied ∧ t.extent index.toNat = s.extent index.toNat ∧ t.tier = s.tier
      ∧ t.ext.cmdSeq = s.ext.cmdSeq + 1 ∧ t.ext.result = stDenied ∧ t.ext.cmdState = (t.extent index.toNat).state ∧ (∀ i, i ≠ index.toNat → t.extent i = s.extent i) ∧ s.changesOnly t [.free, .pkg, .ports, .req, .coh, .ext, .adm, .tier, .xl, .cmp, .cpu, .clv, .atn, .comp, .sec, .log, .adk, .evq])
  ∧ (∀ (s : State) (tag : BitVec 16) (index : BitVec 21), s.writes tag (extAddr 0x008) (BitVec.ofNat 64 (16 * index.toNat + 1)) .operator → s.extBusy = false → (s.extent index.toNat).state = .free → (s.extent index.toNat).lastValid = false → s.ext.argKv = false → s.shortOf s.ext.argAdm.toNat (if s.ext.argTier then 2 else 1) 512 ≠ 0 →
    ∃ t, exec (.extAssign tag index) s = .next t ∧ t.responded tag stDenied ∧ t.extent index.toNat = s.extent index.toNat ∧ t.tier = s.tier
      ∧ t.ext.cmdSeq = s.ext.cmdSeq + 1 ∧ t.ext.result = stDenied ∧ t.ext.cmdState = (t.extent index.toNat).state ∧ (∀ i, i ≠ index.toNat → t.extent i = s.extent i) ∧ s.changesOnly t [.free, .pkg, .ports, .req, .coh, .ext, .adm, .tier, .xl, .cmp, .cpu, .clv, .atn, .comp, .sec, .log, .adk, .evq])
  ∧ (∀ (s : State) (tag : BitVec 16) (index : BitVec 21), s.writes tag (extAddr 0x008) (BitVec.ofNat 64 (16 * index.toNat + 3)) .operator → s.extBusy = true →
    ∃ t, exec (.extRevoke tag index) s = .next t ∧ t.responded tag stDenied ∧ t.ext = s.ext ∧ s.changesOnly t [.adk])
  ∧ (∀ (s : State) (tag : BitVec 16) (index : BitVec 21), s.writes tag (extAddr 0x008) (BitVec.ofNat 64 (16 * index.toNat + 2)) .operator → s.extBusy = false → (s.extent index.toNat).state = .active → s.ext.argShare ≠ 3 → s.ownerOk s.ext.argOwner = true → s.isFenced 2 index.toNat = false →
    ∃ t, exec (.extSetattr tag index) s = .next t ∧ t.responded tag stOk ∧ (t.extent index.toNat) = { (s.extent index.toNat) with owner := s.ext.argOwner, share := s.ext.argShare, kv := s.ext.argKv, kvT2 := s.ext.argKvT2 }
      ∧ t.ext.cmdSeq = s.ext.cmdSeq + 1 ∧ t.ext.result = stOk ∧ t.ext.cmdState = (t.extent index.toNat).state ∧ (∀ i, i ≠ index.toNat → t.extent i = s.extent i) ∧ s.changesOnly t [.free, .pkg, .ports, .req, .coh, .ext, .adm, .tier, .xl, .cmp, .cpu, .clv, .atn, .comp, .sec, .log, .adk, .evq])
  ∧ (∀ (s : State) (tag : BitVec 16) (index : BitVec 21), s.writes tag (extAddr 0x008) (BitVec.ofNat 64 (16 * index.toNat + 3)) .operator → s.extBusy = false → (s.extent index.toNat).state = .active → (s.extent index.toNat).coherent = false →
    ∃ t, exec (.extRevoke tag index) s = .next t ∧ t.responded tag stOk ∧ (t.extent index.toNat) = { (s.extent index.toNat) with state := .revoking, trigger := 1, drainAt := s.now + s.targetLimit, reclaim := false, changeNs := BitVec.ofNat 48 (s.now / 16), shownAt := (t.extent index.toNat).shownAt }
      ∧ (t.extent index.toNat).shownAt ≤ s.now + 4 * usT ∧ t.req = s.req ∧ t.tier = s.tier
      ∧ t.ext.cmdSeq = s.ext.cmdSeq + 1 ∧ t.ext.result = stOk ∧ t.ext.cmdState = (t.extent index.toNat).state ∧ (∀ i, i ≠ index.toNat → t.extent i = s.extent i) ∧ s.changesOnly t [.free, .pkg, .ports, .req, .coh, .ext, .adm, .tier, .xl, .cmp, .cpu, .clv, .atn, .comp, .sec, .log, .adk, .evq])
  ∧ (∀ (s : State) (tag : BitVec 16) (index : BitVec 21), s.writes tag (extAddr 0x008) (BitVec.ofNat 64 (16 * index.toNat + 4)) .operator → s.extBusy = false → (s.extent index.toNat).state = .drained →
    ∃ t, exec (.extRelease tag index) s = .next t ∧ t.responded tag stOk ∧ (t.extent index.toNat).state = .free ∧ (t.extent index.toNat).owner = 0xFFFF ∧ (t.extent index.toNat).lastTenant = (s.extent index.toNat).tenant ∧ (t.extent index.toNat).lastValid = true ∧ t.tier = s.tier
      ∧ t.ext.cmdSeq = s.ext.cmdSeq + 1 ∧ t.ext.result = stOk ∧ t.ext.cmdState = (t.extent index.toNat).state ∧ (∀ i, i ≠ index.toNat → t.extent i = s.extent i) ∧ s.changesOnly t [.free, .pkg, .ports, .req, .coh, .ext, .adm, .tier, .xl, .cmp, .cpu, .clv, .atn, .comp, .sec, .log, .adk, .evq])
  ∧ (∀ (s : State) (tag : BitVec 16) (index : BitVec 21), s.writes tag (extAddr 0x008) (BitVec.ofNat 64 (16 * index.toNat + 4)) .operator → s.extBusy = false → (s.extent index.toNat).state = .active →
    ∃ t, exec (.extRelease tag index) s = .next t ∧ t.responded tag stDenied ∧ (t.extent index.toNat) = (s.extent index.toNat)
      ∧ t.ext.cmdSeq = s.ext.cmdSeq + 1 ∧ t.ext.result = stDenied ∧ t.ext.cmdState = (t.extent index.toNat).state ∧ (∀ i, i ≠ index.toNat → t.extent i = s.extent i) ∧ s.changesOnly t [.free, .pkg, .ports, .req, .coh, .ext, .adm, .tier, .xl, .cmp, .cpu, .clv, .atn, .comp, .sec, .log, .adk, .evq])
  ∧ (∀ (s : State) (tag : BitVec 16) (index : BitVec 21), s.writes tag (extAddr 0x008) (BitVec.ofNat 64 (16 * index.toNat + 5)) .operator → s.extBusy = false → (s.extent index.toNat).state = .drained → s.extentPages index.toNat = [] →
    ∃ t, exec (.extScrub tag index) s = .next t ∧ t.responded tag stOk ∧ (t.extent index.toNat).state = .scrubbing ∧ (t.extent index.toNat).scrubLeft = [] ∧ t.tier = s.tier
      ∧ t.ext.cmdSeq = s.ext.cmdSeq + 1 ∧ t.ext.result = stOk ∧ t.ext.cmdState = (t.extent index.toNat).state ∧ (∀ i, i ≠ index.toNat → t.extent i = s.extent i) ∧ s.changesOnly t [.free, .pkg, .ports, .req, .coh, .ext, .adm, .tier, .xl, .cmp, .cpu, .clv, .atn, .comp, .sec, .log, .adk, .evq])
  ∧ (∀ (s : State) (index : BitVec 21), s.alive = true → (s.extent index.toNat).state = .scrubbing → ((s.extent index.toNat).scrubLeft.filter (fun p => (s.page p).res == 1 || (s.page p).res == 2)) = [] → s.extentPages index.toNat = [] →
    ∃ t, exec (.extentScrubComplete index) s = .next t ∧ (t.extent index.toNat).state = .free ∧ (t.extent index.toNat).owner = 0xFFFF ∧ (t.extent index.toNat).lastValid = false ∧ (t.extent index.toNat).scrubLeft = []
      ∧ (∀ i, i ≠ index.toNat → t.extent i = s.extent i) ∧ t.tier = s.tier)
  ∧ (∀ (s : State) (index : BitVec 21), s.alive = true → (s.extent index.toNat).state = .scrubbing → ((s.extent index.toNat).scrubLeft.filter (fun p => (s.page p).res == 1 || (s.page p).res == 2)) ≠ [] →
    exec (.extentScrubComplete index) s = .next s)
  ∧ (∀ (s : State) (index : BitVec 21), s.alive = true → (s.extent index.toNat).state = .revoking → (s.extent index.toNat).shownAt ≤ s.now → s.inFlight index.toNat = 0 → (s.extent index.toNat).reclaim = false →
    ∃ t, exec (.extentDrained index) s = .next t ∧ (t.extent index.toNat) = { (s.extent index.toNat) with state := .drained, changeNs := BitVec.ofNat 48 (s.now / 16) }
      ∧ (∀ i, i ≠ index.toNat → t.extent i = s.extent i) ∧ s.changesOnly t [.ext, .comp, .log, .adk, .evq])
  ∧ (∀ (s : State) (index : BitVec 21), s.alive = true → (s.extent index.toNat).state = .revoking → s.inFlight index.toNat ≠ 0 ∨ s.now < (s.extent index.toNat).shownAt →
    exec (.extentDrained index) s = .next s)
  ∧ (∀ (s : State) (index : BitVec 21) (r : Req) (b : Nat), s.alive = true → (s.extent index.toNat).state = .revoking → (s.extent index.toNat).drainAt ≤ s.now → (s.extent index.toNat).reclaim = false → s.req.reqs = [r] → r.counted = some index.toNat →
    r.performed = false → r.origin = .port b → s.base b = b → r.frame.opcode = 0x10 → s.extentDir index.toNat = [] → s.coh.snoops = [] → s.tier.reqs = [] → s.req.held = [] →
    ∃ t, exec (.drainLimitExpiry index) s = .next t ∧ (t.extent index.toNat).state = .drained ∧ t.req.reqs = [] ∧ t.bound b (completion r.frame stRevoked [])
      ∧ t.ext.cntStrag = (bump s.ext.cntStrag).1 ∧ t.tier.mem = s.tier.mem)

/-- Leases are created, renewed, handed over, expired and deleted. CREATE of an EMPTY entry with a unit arms the lease in
SERVICE (frozen while time is LOST; unarmed outside SERVICE) with its period or the default, within the bounds. HANDOFF
takes an armed or frozen lease to HANDED with the unit named, EXPIRE expires it at once, DELETE empties an expired or handed
entry that owns no extent. All of these apply to a lease that is not already due. An armed lease whose time is reached, in
its turn and with no renewal waiting in that slot, expires, and its active extents of no domain are revoked. LEASE.RENEW of
an armed lease that is not overdue moves its expiry and answers 0; one of no lease answers 3. -/
def Obligations.LeasesThroughTheirLife : Prop :=
  (∀ (s : State) (tag : BitVec 16), s.writes tag (lseAddr 0x020) (BitVec.ofNat 64 (1)) .operator → (s.lease s.lse.sel.toNat).state = .empty → (s.lease s.lse.sel.toNat).unit ≠ 0xFFFF → s.lse.minMs.toNat ≤ (if (s.lease s.lse.sel.toNat).periodMs = 0 then s.lse.defaultMs else (s.lease s.lse.sel.toNat).periodMs).toNat → (if (s.lease s.lse.sel.toNat).periodMs = 0 then s.lse.defaultMs else (s.lease s.lse.sel.toNat).periodMs).toNat ≤ s.lse.maxMs.toNat →
    (∀ q, unitOf s.comp.run (s.lease s.lse.sel.toNat).unit = .port q → s.isFenced 1 q = false) → s.isFenced 6 s.lse.sel.toNat = false →
    ∃ t, exec (.lseCreate tag) s = .next t ∧ t.responded tag stOk ∧ (t.lease s.lse.sel.toNat).unit = (s.lease s.lse.sel.toNat).unit ∧ (t.lease s.lse.sel.toNat).periodMs = (if (s.lease s.lse.sel.toNat).periodMs = 0 then s.lse.defaultMs else (s.lease s.lse.sel.toNat).periodMs)
      ∧ (t.lease s.lse.sel.toNat).state = (if s.mod.state = .service then (if s.tim.state = .lost then .frozen else .armed) else .unarmed)
      ∧ (t.lease s.lse.sel.toNat).expiry = (if s.mod.state = .service then s.now + (if (s.lease s.lse.sel.toNat).periodMs = 0 then s.lse.defaultMs else (s.lease s.lse.sel.toNat).periodMs).toNat * msT else 0)
      ∧ (∀ i, i ≠ s.lse.sel.toNat → t.lease i = s.lease i) ∧ s.changesOnly t [.free, .pkg, .ports, .req, .coh, .ext, .lse, .xl, .cpu, .clv, .comp, .sec, .log, .adk, .evq])
  ∧ (∀ (s : State) (tag : BitVec 16), s.writes tag (lseAddr 0x020) (BitVec.ofNat 64 (1)) .operator → (s.lease s.lse.sel.toNat).state = .armed → s.now < (s.lease s.lse.sel.toNat).expiry →
    ∃ t, exec (.lseCreate tag) s = .next t ∧ t.responded tag stDenied ∧ (t.lease s.lse.sel.toNat) = (s.lease s.lse.sel.toNat)
      ∧ (∀ i, i ≠ s.lse.sel.toNat → t.lease i = s.lease i) ∧ s.changesOnly t [.free, .pkg, .ports, .req, .coh, .ext, .lse, .xl, .cpu, .clv, .comp, .sec, .log, .adk, .evq])
  ∧ (∀ (s : State) (tag : BitVec 16), s.writes tag (lseAddr 0x020) (BitVec.ofNat 64 (2)) .operator → (s.lease s.lse.sel.toNat).state = .expired ∨ (s.lease s.lse.sel.toNat).state = .handed → s.ext.tab = [] →
    ∃ t, exec (.lseDelete tag) s = .next t ∧ t.responded tag stOk ∧ (t.lease s.lse.sel.toNat) = {}
      ∧ (∀ i, i ≠ s.lse.sel.toNat → t.lease i = s.lease i) ∧ s.changesOnly t [.free, .pkg, .ports, .req, .coh, .ext, .lse, .xl, .cpu, .clv, .comp, .sec, .log, .adk, .evq])
  ∧ (∀ (s : State) (tag : BitVec 16) (unit : BitVec 16), s.writes tag (lseAddr 0x020) (BitVec.ofNat 64 (unit.toNat * 2 ^ 16 + 3)) .operator → (s.lease s.lse.sel.toNat).state = .armed ∨ (s.lease s.lse.sel.toNat).state = .frozen → ((s.lease s.lse.sel.toNat).state = .armed → s.now < (s.lease s.lse.sel.toNat).expiry) →
    ∃ t, exec (.lseHandoff tag unit) s = .next t ∧ t.responded tag stOk ∧ (t.lease s.lse.sel.toNat) = { (s.lease s.lse.sel.toNat) with state := .handed, expiry := 0, handoff := unit }
      ∧ (∀ i, i ≠ s.lse.sel.toNat → t.lease i = s.lease i) ∧ s.changesOnly t [.free, .pkg, .ports, .req, .coh, .ext, .lse, .xl, .cpu, .clv, .comp, .sec, .log, .adk, .evq])
  ∧ (∀ (s : State) (tag : BitVec 16), s.writes tag (lseAddr 0x020) (BitVec.ofNat 64 (4)) .operator → (s.lease s.lse.sel.toNat).state = .armed ∨ (s.lease s.lse.sel.toNat).state = .frozen → ((s.lease s.lse.sel.toNat).state = .armed → s.now < (s.lease s.lse.sel.toNat).expiry) →
    ∃ t, exec (.lseExpire tag) s = .next t ∧ t.responded tag stOk ∧ (t.lease s.lse.sel.toNat) = { (s.lease s.lse.sel.toNat) with state := .expired, expiry := 0 } ∧ t.lse.cntExpire = (bump s.lse.cntExpire).1
      ∧ (∀ i, i ≠ s.lse.sel.toNat → t.lease i = s.lease i) ∧ s.changesOnly t [.free, .pkg, .ports, .req, .coh, .ext, .lse, .xl, .cpu, .clv, .comp, .sec, .log, .adk, .evq])
  ∧ (∀ (s : State) (tag : BitVec 16), s.writes tag (lseAddr 0x020) (BitVec.ofNat 64 (4)) .operator → (s.lease s.lse.sel.toNat).state = .handed →
    ∃ t, exec (.lseExpire tag) s = .next t ∧ t.responded tag stDenied ∧ (t.lease s.lse.sel.toNat) = (s.lease s.lse.sel.toNat)
      ∧ (∀ i, i ≠ s.lse.sel.toNat → t.lease i = s.lease i) ∧ s.changesOnly t [.free, .pkg, .ports, .req, .coh, .ext, .lse, .xl, .cpu, .clv, .comp, .sec, .log, .adk, .evq])
  ∧ (∀ (s : State) (index : BitVec 12), s.alive = true → (s.lease index.toNat).state = .armed → (s.lease index.toNat).expiry ≤ s.now → s.inTurn 2 (s.lease index.toNat).expiry = true →
    slotOf (s.lease index.toNat).expiry ≠ slotOf s.now ∨ s.renewalWaits (s.lease index.toNat).unit = false → (∀ x ∈ s.ext.tab, x.2.owner = (s.lease index.toNat).unit → x.2.coherent = false) →
    ∃ t, exec (.leaseExpiry index) s = .next t ∧ t.lease index.toNat = { s.lease index.toNat with state := .expired, expiry := 0 }
      ∧ (∀ i, i ≠ index.toNat → t.lease i = s.lease i) ∧ t.lse.cntExpire = (bump s.lse.cntExpire).1
      ∧ (∀ i, (s.extent i).owner = (s.lease index.toNat).unit → (s.extent i).state = .active → (s.extent i).coherent = false → (t.extent i).state = .revoking ∧ (t.extent i).trigger = 2 ∧ (t.extent i).reclaim = true)
      ∧ t.tier = s.tier ∧ t.coh = s.coh ∧ s.changesOnly t [.free, .pkg, .ports, .req, .coh, .ext, .lse, .xl, .cpu, .clv, .comp, .sec, .log, .adk, .evq])
  ∧ (∀ (s : State) (index : BitVec 12), (s.lease index.toNat).state ≠ .armed ∨ s.now < (s.lease index.toNat).expiry →
    exec (.leaseExpiry index) s = .next s)
  ∧ (∀ (s e : State) (port : BitVec 8) (f : Frame) (g : Frame) (i : Nat) (l : Lease), f.opcode = 0x61 → s.takenAs port.toNat f = some g →
    e = s.entered port.toNat f → e.leaseOf (BitVec.ofNat 16 (field g.payload 0 2)) = some (i, l) → l.state = .armed → e.lease i = l → slotOf e.now ≤ slotOf l.expiry →
    ∃ t, exec (.leaseRenew port f) s = .next t ∧ t.lease i = { l with expiry := e.now + l.periodMs.toNat * msT, rseq := BitVec.ofNat 16 (field g.payload 2 2) } ∧ (∀ j, j ≠ i → t.lease j = e.lease j) ∧ t.lse.cntRenew = (bump e.lse.cntRenew).1
      ∧ (∃ q, t.boundVc6 (s.base port.toNat) q ∧ q.opcode = 0x62 ∧ q.dst = g.src ∧ q.tag = g.tag ∧ field q.payload 4 1 = 0 ∧ field q.payload 2 2 = field g.payload 2 2) ∧ t.tier = e.tier ∧ t.coh = e.coh ∧ t.ext = e.ext ∧ t.cpu = e.cpu ∧ t.clv = e.clv)
  ∧ (∀ (s e : State) (port : BitVec 8) (f : Frame) (g : Frame), f.opcode = 0x61 → s.takenAs port.toNat f = some g →
    e = s.entered port.toNat f → e.leaseOf (BitVec.ofNat 16 (field g.payload 0 2)) = none →
    ∃ t, exec (.leaseRenew port f) s = .next t ∧ t.lse = e.lse ∧ (∃ q, t.boundVc6 (s.base port.toNat) q ∧ q.opcode = 0x62 ∧ q.dst = g.src ∧ q.tag = g.tag ∧ field q.payload 4 1 = 3) ∧ t.tier = e.tier ∧ t.coh = e.coh ∧ t.ext = e.ext ∧ t.cpu = e.cpu ∧ t.clv = e.clv)

/-- Admission reserves all that a record asks for, or nothing. ADMIT of a record that is not admitted, of an active tenant and
with a good parent reserves all its request when every resource suffices, and nothing, with the code of the first resource
that falls short, otherwise. RESIZE does the same for an admitted record, and is refused with code 9 below its use. RELEASE
of an unused record returns its reservation. No other record changes. -/
def Obligations.AdmissionIsAllOrNothing : Prop :=
  (∀ (s : State) (tag : BitVec 16), s.writes tag (extAddr 0x110) 1 .operator → (s.admRec s.adm.sel.toNat).admitted = false → (s.tenant (s.admRec s.adm.sel.toNat).tenant.toNat).state = .active → s.parentOk (s.admRec s.adm.sel.toNat) = true → s.admFail s.adm.sel.toNat (s.admRec s.adm.sel.toNat) = 0 →
    ∃ t, exec (.admAdmit tag) s = .next t ∧ t.responded tag stOk ∧ (t.admRec s.adm.sel.toNat) = { (s.admRec s.adm.sel.toNat) with admitted := true, resv := (s.admRec s.adm.sel.toNat).req } ∧ t.adm.fail = 0
      ∧ t.adm.result = stOk ∧ (∀ i, i ≠ s.adm.sel.toNat → t.admRec i = s.admRec i) ∧ s.changesOnly t [.ports, .adm, .sec, .log, .adk, .evq])
  ∧ (∀ (s : State) (tag : BitVec 16), s.writes tag (extAddr 0x110) 1 .operator → (s.admRec s.adm.sel.toNat).admitted = false → (s.tenant (s.admRec s.adm.sel.toNat).tenant.toNat).state = .active → s.parentOk (s.admRec s.adm.sel.toNat) = true → s.admFail s.adm.sel.toNat (s.admRec s.adm.sel.toNat) ≠ 0 →
    ∃ t, exec (.admAdmit tag) s = .next t ∧ t.responded tag stDenied ∧ (t.admRec s.adm.sel.toNat) = (s.admRec s.adm.sel.toNat) ∧ t.adm.fail = BitVec.ofNat 4 (s.admFail s.adm.sel.toNat (s.admRec s.adm.sel.toNat))
      ∧ t.adm.result = stDenied ∧ (∀ i, i ≠ s.adm.sel.toNat → t.admRec i = s.admRec i) ∧ s.changesOnly t [.ports, .adm, .sec, .log, .adk, .evq])
  ∧ (∀ (s : State) (tag : BitVec 16), s.writes tag (extAddr 0x110) 2 .operator → (s.admRec s.adm.sel.toNat).admitted = true → s.parentOk (s.admRec s.adm.sel.toNat) = true → s.admFail s.adm.sel.toNat (s.admRec s.adm.sel.toNat) = 0 → (s.admRec s.adm.sel.toNat).req.below (s.recUse s.adm.sel.toNat) = false →
    ∃ t, exec (.admResize tag) s = .next t ∧ t.responded tag stOk ∧ (t.admRec s.adm.sel.toNat) = { (s.admRec s.adm.sel.toNat) with resv := (s.admRec s.adm.sel.toNat).req } ∧ t.adm.fail = 0
      ∧ t.adm.result = stOk ∧ (∀ i, i ≠ s.adm.sel.toNat → t.admRec i = s.admRec i) ∧ s.changesOnly t [.ports, .adm, .sec, .log, .adk, .evq])
  ∧ (∀ (s : State) (tag : BitVec 16), s.writes tag (extAddr 0x110) 2 .operator → (s.admRec s.adm.sel.toNat).admitted = true → s.parentOk (s.admRec s.adm.sel.toNat) = true → s.admFail s.adm.sel.toNat (s.admRec s.adm.sel.toNat) = 0 → (s.admRec s.adm.sel.toNat).req.below (s.recUse s.adm.sel.toNat) = true →
    ∃ t, exec (.admResize tag) s = .next t ∧ t.responded tag stDenied ∧ (t.admRec s.adm.sel.toNat) = (s.admRec s.adm.sel.toNat) ∧ t.adm.fail = 9
      ∧ t.adm.result = stDenied ∧ (∀ i, i ≠ s.adm.sel.toNat → t.admRec i = s.admRec i) ∧ s.changesOnly t [.ports, .adm, .sec, .log, .adk, .evq])
  ∧ (∀ (s : State) (tag : BitVec 16), s.writes tag (extAddr 0x110) 3 .operator → (s.admRec s.adm.sel.toNat).admitted = true → s.recUse s.adm.sel.toNat = {} → s.jobsOf s.adm.sel.toNat = [] →
    ∃ t, exec (.admRelease tag) s = .next t ∧ t.responded tag stOk ∧ (t.admRec s.adm.sel.toNat) = { (s.admRec s.adm.sel.toNat) with admitted := false, resv := {} } ∧ t.adm.fail = 0
      ∧ t.adm.result = stOk ∧ (∀ i, i ≠ s.adm.sel.toNat → t.admRec i = s.admRec i) ∧ s.changesOnly t [.ports, .adm, .sec, .log, .adk, .evq])
  ∧ (∀ (s : State) (tag : BitVec 16), s.writes tag (extAddr 0x110) 3 .operator → (s.admRec s.adm.sel.toNat).admitted = true → s.recUse s.adm.sel.toNat ≠ {} →
    ∃ t, exec (.admRelease tag) s = .next t ∧ t.responded tag stDenied ∧ (t.admRec s.adm.sel.toNat) = (s.admRec s.adm.sel.toNat) ∧ t.adm.fail = 9
      ∧ t.adm.result = stDenied ∧ (∀ i, i ≠ s.adm.sel.toNat → t.admRec i = s.admRec i) ∧ s.changesOnly t [.ports, .adm, .sec, .log, .adk, .evq])

/-- Trays and CXL bridges come, go, are evacuated, retired and sanitised. A bridge whose device trains brings its tray ONLINE
with the tier chosen for it and the slots of its capacity; losing the link leaves it UNREACHABLE, with no request to it
left. A completion ends its request: the last block of a wipe frees the slot, and the lines of a fill enter T0 or go to
those that wait. A completion that does not come in time resets the bridge for 100 ms. A media error poisons the line where
it is held. An ONLINE tray may be evacuated, which queues a directed move of each of its pages, and retired, which loses its
pages; an empty evacuated tray retires; SANITIZE is accepted for a RETIRED bridge tray with no lost page. -/
def Obligations.TraysAndBridges : Prop :=
  (∀ (s : State) (b : BitVec 4) (dev : CxlDevice), s.alive = true → s.mod.perst.getLsbD b.toNat = false → dev.ok = true → (s.tray (256 + b.toNat)).state = .absent →
    ∃ t, exec (.bridgeLinkActive b dev) s = .next t ∧ (t.tray (256 + b.toNat)).state = .online ∧ (t.tray (256 + b.toNat)).linkUp = true ∧ (t.tray (256 + b.toNat)).ident = dev.serial
      ∧ (t.tray (256 + b.toNat)).tier = (if s.tier.t2Sel.getLsbD b.toNat then 2 else 1)
      ∧ (t.tray (256 + b.toNat)).slots = min (tierLimit (if s.tier.t2Sel.getLsbD b.toNat then 2 else 1) - s.tierSlots (if s.tier.t2Sel.getLsbD b.toNat then 2 else 1)) (512 * (dev.capacity / 2 ^ 30))
      ∧ (∀ i, i ≠ (256 + b.toNat) → t.tray i = s.tray i) ∧ t.tier.pages = s.tier.pages)
  ∧ (∀ (s : State) (b : BitVec 4), (s.tray (256 + b.toNat)).state = .online → s.tier.moves = [] →
    ∃ t, exec (.bridgeLinkDown b) s = .next t ∧ t.tray (256 + b.toNat) = { s.tray (256 + b.toNat) with state := .unreachable, linkUp := false }
      ∧ (∀ i, i ≠ (256 + b.toNat) → t.tray i = s.tray i) ∧ (∀ q ∈ t.tier.reqs, q.tray ≠ (256 + b.toNat)) ∧ t.tier.pages = s.tier.pages ∧ t.tier.mem = s.tier.mem)
  ∧ (∀ (s : State) (b : BitVec 4) (tag : BitVec 13) (data : List Byte) (poison : BitVec 32) (q : TrayReq) (k : Nat) (tn : BitVec 10), s.alive = true → s.tier.reqs = [q] → q.tray = (256 + b.toNat) → q.tag = tag → q.held = none → s.noneHeld = true →
    q.op = .wipe k 1023 → s.tier.wiping = [(k, tn)] → k / 2 ^ 30 = (256 + b.toNat) →
    ∃ t, exec (.cxlCompletion b tag data poison) s = .next t ∧ t.tier.reqs = [] ∧ t.tier.wiping = []
      ∧ (t.tray (256 + b.toNat)).freed = (s.tray (256 + b.toNat)).freed ++ [k % 2 ^ 30] ∧ t.tier.pages = s.tier.pages ∧ s.changesOnly t [.pkg, .ports, .req, .coh, .ext, .tier, .xl, .cmp, .cpu, .clv, .atn, .comp, .sec, .log, .adk, .evq])
  ∧ (∀ (s : State) (b : BitVec 4) (tag : BitVec 13) (data : List Byte) (poison : BitVec 32) (q : TrayReq) (k : Nat), s.alive = true → s.tier.reqs = [q] → q.tray = (256 + b.toNat) → q.tag = tag → q.held = none → q.op = .fill k →
    exec (.cxlCompletion b tag data poison) s = .next
      (((({ s with tier := { s.tier with reqs := [] } } : State).openLines k 0 32 (s.blockExtent k).tenant poison data).1.fillDone k
        (({ s with tier := { s.tier with reqs := [] } } : State).openLines k 0 32 (s.blockExtent k).tenant poison data).2).tagFree (256 + b.toNat)))
  ∧ (∀ (s : State) (b : BitVec 4) (tag : BitVec 13) (q : TrayReq), s.alive = true → s.tier.reqs = [q] → q.tray = (256 + b.toNat) → q.tag = tag → q.held = none → q.timer ≤ s.now → (s.tray (256 + b.toNat)).state = .online → s.tier.moves = [] →
    ∃ t, exec (.cxlCompletionTimeout b tag) s = .next t ∧ t.mod.perst.getLsbD b.toNat = true ∧ Table.read 0 t.mod.perstTo b.toNat = s.now + 100 * msT
      ∧ (t.tray (256 + b.toNat)).state = .unreachable ∧ (t.tray (256 + b.toNat)).linkUp = false ∧ t.tier.reqs = [] ∧ (∃ x ∈ t.log.entries, x.2.cls = 8 ∧ x.2.src = srcB b.toNat))
  ∧ (∀ (s : State) (b : BitVec 4) (line : BitVec 46) (p : Nat) (x : TierPage), s.alive = true → (s.tray (256 + b.toNat)).linkUp = true →
    s.tier.pages = [(p, x)] → x.tray.toNat = (256 + b.toNat) → x.res = 1 → x.slot.toNat = line.toNat / 32768 → s.lineValid (32768 * p + line.toNat % 32768) = true →
    ∃ t, exec (.cxlMediaEvent b [line]) s = .next t ∧ t.linePoison (32768 * p + line.toNat % 32768) = true ∧ t.tier.pages = s.tier.pages
      ∧ (∀ l, l ≠ 32768 * p + line.toNat % 32768 → t.linePoison l = s.linePoison l) ∧ s.changesOnly t [.req, .tier, .sec, .log, .adk, .evq])
  ∧ (∀ (s : State) (tag : BitVec 16), s.writes tag (trnAddr 0x080) 2 .operator → (s.tray s.tier.traySel.toNat).state = .online → s.req.reqs = [] → s.tier.moves = [] →
    ∃ t, exec (.trayRetire tag) s = .next t ∧ t.responded tag stOk ∧ (t.tray s.tier.traySel.toNat).state = .retired ∧ (t.tray s.tier.traySel.toNat).slots = 0 ∧ (∀ p, (s.page p).tray.toNat = s.tier.traySel.toNat → (s.page p).res = 1 ∨ (s.page p).res = 2 → (t.page p).res = 3)
      ∧ (∀ i, i ≠ s.tier.traySel.toNat → t.tray i = s.tray i) ∧ t.xl.cmdResult = stOk ∧ s.changesOnly t [.pkg, .ports, .req, .coh, .ext, .tier, .xl, .cmp, .cpu, .clv, .atn, .comp, .sec, .log, .adk, .evq])
  ∧ (∀ (s : State) (tag : BitVec 16), s.writes tag (trnAddr 0x080) 2 .operator → (s.tray s.tier.traySel.toNat).state = .absent →
    ∃ t, exec (.trayRetire tag) s = .next t ∧ t.responded tag stDenied ∧ t.tier = s.tier ∧ t.xl.cmdResult = stDenied ∧ s.changesOnly t [.pkg, .ports, .req, .coh, .ext, .tier, .xl, .cmp, .cpu, .clv, .atn, .comp, .sec, .log, .adk, .evq])
  ∧ (∀ (s : State) (tag : BitVec 16), s.writes tag (trnAddr 0x080) 1 .operator → (s.tray s.tier.traySel.toNat).state = .online → s.tier.moves = [] →
    (s.pagesOn s.tier.traySel.toNat).length ≤ (s.onTray s.tier.traySel.toNat (fun x => { x with evacuating := true })).tierFree (s.tray s.tier.traySel.toNat).tier.toNat →
    ∃ t, exec (.trayEvacuate tag) s = .next t ∧ t.responded tag stOk ∧ (t.tray s.tier.traySel.toNat) = { s.tray s.tier.traySel.toNat with evacuating := true } ∧ (∀ p ∈ s.pagesOn s.tier.traySel.toNat, ∃ m ∈ t.tier.moves, m.page = p ∧ m.directed = true ∧ m.want = (s.page p).res) ∧ t.tier.pages = s.tier.pages ∧ t.xl.cmdResult = stOk ∧ s.changesOnly t [.pkg, .ports, .req, .coh, .ext, .tier, .xl, .cmp, .cpu, .clv, .atn, .comp, .sec, .log, .adk, .evq])
  ∧ (∀ (s : State) (tray : BitVec 9), (s.tray tray.toNat).evacuating = true → (s.tray tray.toNat).state = .online → s.pagesOn tray.toNat = [] → s.tier.moves = [] → s.req.reqs = [] →
    ∃ t, exec (.evacuateComplete tray) s = .next t ∧ (t.tray tray.toNat).state = .retired ∧ (t.tray tray.toNat).evacuating = false ∧ (t.tray tray.toNat).slots = 0
      ∧ (∀ i, i ≠ tray.toNat → t.tray i = s.tray i) ∧ t.tier.mem = s.tier.mem)
  ∧ (∀ (s : State) (tag : BitVec 16), s.writes tag (trnAddr 0x080) 3 .operator → 256 ≤ s.tier.traySel.toNat → s.tier.traySel.toNat < 272 → (s.tray s.tier.traySel.toNat).state = .retired → (∀ e ∈ s.tier.pages, e.2.tray.toNat ≠ s.tier.traySel.toNat) →
    ∃ t, exec (.traySanitize tag) s = .next t ∧ t.responded tag stOk ∧ t.tier = s.tier ∧ t.xl.cmdResult = stOk ∧ s.changesOnly t [.pkg, .ports, .req, .coh, .ext, .tier, .xl, .cmp, .cpu, .clv, .atn, .comp, .sec, .log, .adk, .evq])
  ∧ (∀ (s : State) (tag : BitVec 16), s.writes tag (trnAddr 0x080) 3 .operator → (s.tray s.tier.traySel.toNat).state = .online →
    ∃ t, exec (.traySanitize tag) s = .next t ∧ t.responded tag stDenied ∧ t.tier = s.tier ∧ t.xl.cmdResult = stDenied ∧ s.changesOnly t [.pkg, .ports, .req, .coh, .ext, .tier, .xl, .cmp, .cpu, .clv, .atn, .comp, .sec, .log, .adk, .evq])
  ∧ (∀ (s : State) (port : BitVec 8) (at_ : FT), s.alive = true → (s.tray port.toNat).retryAt = some at_ → at_ ≤ s.now → (s.link (s.base port.toNat)).state = .opened → s.trayBusy (.bitmap port.toNat) = false →
    ∃ t, exec (.bitmapRetryTimer port) s = .next t ∧ (t.tray port.toNat).retryAt = none ∧ t.trayBusy (.bitmap port.toNat) = true ∧ (t.tray port.toNat).state = (s.tray port.toNat).state ∧ t.tier.pages = s.tier.pages)

/-- Pages are pinned, moved, relocated and cooled. SETPIN pins a page in place of its queued heat-driven move, and queues a
directed move where it lies in the other tier and has room there, else it is DENIED; while the page moves it is kept for the
end. RELOCATE gives a lost page a slot in the tier it was lost from, with HEAT 0. The only queued move, to the other tier,
starts when it may and moves are free: the page has a slot to go to, HEAT 0, and is marked as moving. A copied page of no
pin takes the new slot, tier and tray. A pavilion is warm after enough accesses or time. At each decay instant, migration
being off, the heat of every page is halved. -/
def Obligations.PagesMoveBetweenTiers : Prop :=
  (∀ (s : State) (tag : BitVec 16) (pin : BitVec 2), s.writes tag (trnAddr 0x068) (BitVec.ofNat 64 (1 + 16 * pin.toNat)) .operator → (s.pageExtent s.tier.tpSel.toNat).state ≠ .absent → (s.page s.tier.tpSel.toNat).moving = false → (pin = 0 ∨ pin = 3 ∨ (s.page s.tier.tpSel.toNat).res = pin ∨ (s.page s.tier.tpSel.toNat).res = 0 ∨ (s.page s.tier.tpSel.toNat).res = 3) →
    ∃ t, exec (.tpSetpin tag pin) s = .next t ∧ t.responded tag stOk ∧ t.page s.tier.tpSel.toNat = { s.page s.tier.tpSel.toNat with pin := pin }
      ∧ t.tier.moves = s.tier.moves.filter (fun m => !(m.page == s.tier.tpSel.toNat && m.dst.isNone && m.forRoom.isNone && m.want != (s.page s.tier.tpSel.toNat).res)) ∧ (∀ i, i ≠ s.tier.tpSel.toNat → t.page i = s.page i) ∧ t.xl.cmdResult = stOk ∧ s.changesOnly t [.pkg, .ports, .tier, .xl, .sec, .log, .adk, .evq])
  ∧ (∀ (s : State) (tag : BitVec 16) (pin : BitVec 2), s.writes tag (trnAddr 0x068) (BitVec.ofNat 64 (1 + 16 * pin.toNat)) .operator → (s.pageExtent s.tier.tpSel.toNat).state ≠ .absent → (s.page s.tier.tpSel.toNat).moving = false → (pin = 1 ∧ (s.page s.tier.tpSel.toNat).res = 2 ∨ pin = 2 ∧ (s.page s.tier.tpSel.toNat).res = 1) → s.pinRefused s.tier.tpSel.toNat pin.toNat = false → s.tier.moves = [] →
    ∃ t, exec (.tpSetpin tag pin) s = .next t ∧ t.responded tag stOk ∧ t.page s.tier.tpSel.toNat = { s.page s.tier.tpSel.toNat with pin := pin } ∧ t.tier.moves = [{ page := s.tier.tpSel.toNat, want := pin, directed := true }] ∧ t.xl.cmdResult = stOk ∧ s.changesOnly t [.pkg, .ports, .tier, .xl, .sec, .log, .adk, .evq])
  ∧ (∀ (s : State) (tag : BitVec 16) (pin : BitVec 2), s.writes tag (trnAddr 0x068) (BitVec.ofNat 64 (1 + 16 * pin.toNat)) .operator → (s.pageExtent s.tier.tpSel.toNat).state ≠ .absent → (s.page s.tier.tpSel.toNat).moving = false → (pin = 1 ∧ (s.page s.tier.tpSel.toNat).res = 2 ∨ pin = 2 ∧ (s.page s.tier.tpSel.toNat).res = 1) → (s.dropTierMoves s.tier.tpSel.toNat).pinRefused s.tier.tpSel.toNat pin.toNat = true →
    ∃ t, exec (.tpSetpin tag pin) s = .next t ∧ t.responded tag stDenied ∧ t.tier = s.tier ∧ t.xl.cmdResult = stDenied ∧ s.changesOnly t [.pkg, .ports, .tier, .xl, .sec, .log, .adk, .evq])
  ∧ (∀ (s : State) (tag : BitVec 16) (pin : BitVec 2), s.writes tag (trnAddr 0x068) (BitVec.ofNat 64 (1 + 16 * pin.toNat)) .operator → (s.pageExtent s.tier.tpSel.toNat).state ≠ .absent → (s.page s.tier.tpSel.toNat).moving = true →
    ∃ t, exec (.tpSetpin tag pin) s = .next t ∧ t.responded tag stOk ∧ t.page s.tier.tpSel.toNat = { s.page s.tier.tpSel.toNat with pinNext := some pin } ∧ t.tier.moves = s.tier.moves ∧ t.xl.cmdResult = stOk ∧ s.changesOnly t [.pkg, .ports, .tier, .xl, .sec, .log, .adk, .evq])
  ∧ (∀ (s : State) (tag : BitVec 16) (r : State × Nat × Nat), s.writes tag (trnAddr 0x068) 2 .operator → (s.page s.tier.tpSel.toNat).res = 3 → s.tier.moves = [] → s.allocSlot (s.page s.tier.tpSel.toNat).lostTier.toNat = some r →
    ∃ t, exec (.tpRelocate tag) s = .next t ∧ t.responded tag stOk ∧ t.tier.moves = [{ page := s.tier.tpSel.toNat, want := (s.page s.tier.tpSel.toNat).lostTier, directed := true, dst := some r.2 }] ∧ (t.page s.tier.tpSel.toNat) = { s.page s.tier.tpSel.toNat with heat := 0 } ∧ t.xl.cmdResult = stOk ∧ s.changesOnly t [.pkg, .ports, .tier, .xl, .sec, .log, .adk, .evq])
  ∧ (∀ (s : State) (tag : BitVec 16), s.writes tag (trnAddr 0x068) 2 .operator → (s.page s.tier.tpSel.toNat).res ≠ 3 →
    ∃ t, exec (.tpRelocate tag) s = .next t ∧ t.responded tag stDenied ∧ t.tier = s.tier ∧ t.xl.cmdResult = stDenied ∧ s.changesOnly t [.pkg, .ports, .tier, .xl, .sec, .log, .adk, .evq])
  ∧ (∀ (s : State) (page : BitVec 30) (m : Move) (r : State × Nat × Nat), s.alive = true → s.tier.moves = [m] → m.page = page.toNat → s.movable m = true → 1 ≤ s.tier.maxMoves.toNat → (s.page m.page).res ≠ m.want →
    s.allocSlot m.want.toNat = some r →
    ∃ t, exec (.moveStart page) s = .next t ∧ t.tier.moves = [{ m with dst := some r.2, copied := if (s.page m.page).fresh then 1024 else 0 }]
      ∧ t.page m.page = { s.page m.page with moving := true, heat := 0 } ∧ t.tier.mem = s.tier.mem ∧ (∀ i, i ≠ m.page → t.page i = s.page i))
  ∧ (∀ (s : State) (page : BitVec 30) (m : Move), s.alive = true → s.tier.moves = [m] → m.page = page.toNat → s.movable m = false →
    exec (.moveStart page) s = .next s)
  ∧ (∀ (s : State) (page : BitVec 30) (m : Move) (y sl : Nat), s.alive = true → s.tier.moves = [m] → m.page = page.toNat → m.dst = some (y, sl) → y < 512 → sl < 2 ^ 30 → 1024 ≤ m.copied → s.pageQuiet m.page = true → s.req.reqs = [] →
    (s.page m.page).pin = 0 → (s.page m.page).pinNext = none → (s.tray y).evacuating = false →
    ∃ t, exec (.moveComplete page) s = .next t ∧ t.tier.moves = [] ∧ (t.page m.page).res = m.want ∧ (t.page m.page).tray.toNat = y ∧ (t.page m.page).slot.toNat = sl
      ∧ (t.page m.page).moving = false ∧ (∀ i, i ≠ m.page → t.page i = s.page i) ∧ t.tier.mem = s.tier.mem)
  ∧ (∀ (s : State) (pv : BitVec 6), (2 ^ s.tier.warmLog2.toNat ≤ (Table.read {} s.tier.warm pv.toNat).count ∨ (Table.read {} s.tier.warm pv.toNat).since + s.tier.warmMs.toNat * msT ≤ s.now) →
    ∃ t, exec (.pavilionWarm pv) s = .next t ∧ t.coldPv pv.toNat = false ∧ (∀ i, i ≠ pv.toNat → t.coldPv i = s.coldPv i) ∧ t.tier.pages = s.tier.pages ∧ s.changesOnly t [.tier])
  ∧ (∀ (s : State), s.alive = true → s.heatDue = true → s.tier.migOn = false →
    ∃ t, exec .heatDecay s = .next t ∧ (∀ p, t.page p = { s.page p with heat := (s.page p).heat >>> 1 }) ∧ t.tim.lastHeat = s.now
      ∧ t.tier.moves = s.tier.moves.filter (fun m => m.directed || m.dst.isSome) ∧ t.tier.mem = s.tier.mem ∧ s.changesOnly t [.tim, .tier])

/-- Walks go down their levels, end and are invalidated. The answer of status OK to the read of an entry, of a walk that holds a
walk slot and whose tenant has a root: a page entry ends the walk and fills the unit's translation buffer; a reserved one
counts a fault and ends it; a table entry is kept in the walk cache and the walk reads one level down. A probe walk takes
its steps so too, and fails where its tenant has no root. TRN_INV_GO drops every cached translation in its scope and stays
busy until the requests translated there are gone, then counts. -/
def Obligations.WalksAndInvalidation : Prop :=
  (∀ (s : State) (walk : Nat) (w : Walk) (bs : List Byte) (fpa size : Nat) (wr : Bool), s.alive = true → s.xl.walks = [w] → w.id = walk → w.got = some (stOk, bs) → w.core = none → w.probe = none → s.req.reqs = [] →
    (Table.read ({} : Root) s.xl.roots w.tenant.toNat).valid = true → s.walkRuns w = true → judgeEntry w (field bs (w.entryAddr % 64) 8) = .page fpa size wr →
    ∃ t, exec (.walkReadComplete walk) s = .next t ∧ t.xl.walks = []
      ∧ (Table.read [] t.xl.tlb w.unit).head? = some { tenant := w.tenant, tva := w.tva / 2 ^ size * 2 ^ size, size := size, fpa := fpa, w := wr }
      ∧ (∀ i, i ≠ w.unit → Table.read [] t.xl.tlb i = Table.read [] s.xl.tlb i) ∧ t.xl.walkCache = s.xl.walkCache ∧ s.changesOnly t [.xl])
  ∧ (∀ (s : State) (walk : Nat) (w : Walk) (bs : List Byte), s.alive = true → s.xl.walks = [w] → w.id = walk → w.got = some (stOk, bs) → w.core = none → w.probe = none → s.req.reqs = [] →
    (Table.read ({} : Root) s.xl.roots w.tenant.toNat).valid = true → s.walkRuns w = true → judgeEntry w (field bs (w.entryAddr % 64) 8) = .fault →
    ∃ t, exec (.walkReadComplete walk) s = .next t ∧ t.xl.walks = [] ∧ t.xl.tlb = s.xl.tlb ∧ t.xl.cntFault = (bump s.xl.cntFault).1 ∧ s.changesOnly t [.xl, .log, .evq, .adk])
  ∧ (∀ (s : State) (walk : Nat) (w : Walk) (bs : List Byte) (level table : Nat), s.alive = true → s.xl.walks = [w] → w.id = walk → w.got = some (stOk, bs) →
    (Table.read ({} : Root) s.xl.roots w.tenant.toNat).valid = true → s.walkRuns w = true → judgeEntry w (field bs (w.entryAddr % 64) 8) = .next level table →
    exec (.walkReadComplete walk) s = .next ((s.walkPut w.unit { tenant := w.tenant, level := w.level, key := w.tva / 2 ^ levelShift w.level, table := table }).readEntry
      { w with level := level, table := table, got := none }))
  ∧ (∀ (s : State) (walk : Nat) (w : Walk), s.xl.walks = [w] → w.got = none → exec (.walkReadComplete walk) s = .next s)
  ∧ (∀ (s : State) (walk : Nat) (w : Walk) (d : Decode) (page : Nat), s.alive = true → s.xl.walks = [w] → w.id = walk → w.got = none → w.probe = some (d.id, page) → s.req.reqs = [] → s.atn.decodes = [d] → s.walkRuns w = true →
    (Table.read ({} : Root) s.xl.roots w.tenant.toNat).valid = false →
    ∃ t, exec (.kvProbeComplete walk) s = .next t ∧ t.xl.walks = [] ∧ t.atn.decodes = [{ d with probing := d.probing.filter (· != page), broken := d.broken ++ [page] }]
      ∧ t.xl.tlb = s.xl.tlb ∧ s.changesOnly t [.xl, .atn])
  ∧ (∀ (s : State) (walk : Nat) (w : Walk) (g : BitVec 6 × List Byte), s.alive = true → s.xl.walks = [w] → w.id = walk → w.got = some g → w.probe.isSome = true → s.walkRuns w = true →
    exec (.kvProbeComplete walk) s = .next (s.walkRead w g.1 g.2))
  ∧ (∀ (s : State) (tag : BitVec 16), s.writes tag (trnAddr 0x020) 1 .operator → s.xl.invBusy = false → s.xl.invAll = true → s.xl.walks = [] →
    ∃ t, exec (.trnInvGo tag) s = .next t ∧ t.responded tag stOk ∧ (∀ u, Table.read [] t.xl.tlb u = [] ∧ Table.read [] t.xl.walkCache u = []) ∧ t.xl.invBusy = true ∧ t.xl.invWaits = s.translatedIn none 0 (2 ^ 56) ∧ t.xl.invSeq = s.xl.invSeq ∧ s.changesOnly t [.pkg, .ports, .req, .coh, .ext, .tier, .xl, .cmp, .cpu, .clv, .atn, .comp, .sec, .log, .adk, .evq])
  ∧ (∀ (s : State) (tag : BitVec 16), s.writes tag (trnAddr 0x020) 1 .operator → s.xl.invBusy = false → s.xl.invAll = false → s.xl.walks = [] → s.xl.invPages ≠ 0 →
    ∃ t, exec (.trnInvGo tag) s = .next t ∧ t.responded tag stOk ∧ (∀ u, Table.read [] t.xl.tlb u = (Table.read [] s.xl.tlb u).filter (fun e => !(s.xl.invTenant == e.tenant && overlaps (s.xl.invBase.toNat * 16384) (s.xl.invBase.toNat * 16384 + s.xl.invPages.toNat * 16384) e.tva (e.tva + 2 ^ e.size))))
      ∧ t.xl.invBusy = true ∧ s.changesOnly t [.pkg, .ports, .req, .coh, .ext, .tier, .xl, .cmp, .cpu, .clv, .atn, .comp, .sec, .log, .adk, .evq])
  ∧ (∀ (s : State) (tag : BitVec 16), s.writes tag (trnAddr 0x020) 1 .operator → s.xl.invBusy = true →
    ∃ t, exec (.trnInvGo tag) s = .next t ∧ t.responded tag stDenied ∧ t.xl = s.xl ∧ s.changesOnly t [.pkg, .ports, .req, .coh, .ext, .tier, .xl, .cmp, .cpu, .clv, .atn, .comp, .sec, .log, .adk, .evq])
  ∧ (∀ (s : State), s.xl.invBusy = true → (∀ n ∈ s.xl.invWaits, (s.findReq n).isNone = true) →
    ∃ t, exec .invalidationComplete s = .next t ∧ t.xl = { s.xl with invBusy := false, invWaits := [], invSeq := s.xl.invSeq + 1 } ∧ s.changesOnly t [.xl])

/-- Dropped pages are restored, and room is made for them. A store that waits for a dropped page of this module: where the page
has a slot, a compare and swap sets the leaf that marks it as dropped to a page again, here where the leaf lies in T0; a
swap that has found the dropped leaf lets the store go on, one that failed ends it with NO_TRANSLATION; where there is no
room in tier 1, making room for one page is queued once. After the target time the store is answered DENIED. Making room for
a restore takes the head of its queue where all it needs is at hand: what has been freed is logged, and the head is done;
with no handle bound it frees nothing, and an ASSIGN that waited for it is answered DENIED. -/
def Obligations.RestoresAndRoom : Prop :=
  (∀ (s : State) (n leaf v : Nat) (r : Req), s.alive = true → s.req.reqs = [r] → r.n = n → r.leaf = some leaf → r.stage = .restoring →
    s.extCheck (s.tablesOf r) r.frame (r.origin.asker r.frame) r.fpa.toNat = stOk → (s.page (fpaPage r.fpa.toNat)).res ≠ 0 → fpaModule r.fpa.toNat = s.moduleNo → r.cas = none →
    r.origin ≠ .leaf r.n → r.n ≠ s.req.nextN → r.frame.opcode = 0x12 → fpaModule leaf = s.moduleNo → (s.extent (fpaExtent leaf)).state = .active → (s.extent (fpaExtent leaf)).tenant = r.frame.tenant → (s.extent (fpaExtent leaf)).coherent = false →
    leaf < 2 ^ 56 → leaf % 8 = 0 → s.inT0 leaf 1 → s.hofAt (fpaLine leaf) = none → s.comp.evac = [] → v = field (s.homeBytes leaf 8) 0 8 → v = r.fpa.toNat / 2 ^ 14 * 2 ^ 14 + 7 →
    ∃ t, exec (.kvRestore n) s = .next t ∧ s.memStored t leaf (leBytes 8 (v - 1)) ∧ t.req.reqs = [{ r with cas := some (stOk, v) }] ∧ t.coh = s.coh ∧ t.tier.pages = s.tier.pages)
  ∧ (∀ (s : State) (n leaf v : Nat) (r : Req), s.alive = true → s.req.reqs = [r] → r.n = n → r.leaf = some leaf → r.stage = .restoring →
    s.extCheck (s.tablesOf r) r.frame (r.origin.asker r.frame) r.fpa.toNat = stOk → (s.page (fpaPage r.fpa.toNat)).res ≠ 0 → fpaModule r.fpa.toNat = s.moduleNo →
    r.cas = some (stOk, v) → v = r.fpa.toNat / 2 ^ 14 * 2 ^ 14 + 7 →
    exec (.kvRestore n) s = .next (((s.countTrn 5).putReq { r with leaf := none, stage := .filling }).route n).wakeStaged)
  ∧ (∀ (s : State) (n leaf v b : Nat) (r : Req), s.alive = true → s.req.reqs = [r] → r.n = n → r.leaf = some leaf → r.stage = .restoring → r.origin = .port b → s.base b = b → r.frame.opcode = 0x12 →
    s.extCheck (s.tablesOf r) r.frame (r.origin.asker r.frame) r.fpa.toNat = stOk → (s.page (fpaPage r.fpa.toNat)).res ≠ 0 → fpaModule r.fpa.toNat = s.moduleNo →
    r.cas = some (stNoTrans, v) →
    ∃ t, exec (.kvRestore n) s = .next t ∧ t.req.reqs = [] ∧ t.bound b (completion r.frame stNoTrans []) ∧ t.tier = s.tier)
  ∧ (∀ (s : State) (n leaf : Nat) (r : Req), s.alive = true → s.req.reqs = [r] → r.n = n → r.leaf = some leaf → r.stage = .restoring →
    s.extCheck (s.tablesOf r) r.frame (r.origin.asker r.frame) r.fpa.toNat = stOk → (s.page (fpaPage r.fpa.toNat)).res = 0 → fpaModule r.fpa.toNat = s.moduleNo → s.tier.makeRoom = [] →
    s.restoreRoom (s.extent (fpaExtent r.fpa.toNat)).adm.toNat = false →
    ∃ t, exec (.kvRestore n) s = .next t ∧ t.tier.makeRoom = [((s.extent (fpaExtent r.fpa.toNat)).adm.toNat, 1, 1, true)] ∧ t.req = s.req ∧ t.tier.pages = s.tier.pages ∧ s.changesOnly t [.tier])
  ∧ (∀ (s : State) (n b : Nat) (r : Req), s.req.reqs = [r] → r.n = n → r.stage = .restoring → r.at_ + s.targetLimit ≤ s.now → r.origin = .port b → s.base b = b → r.frame.opcode = 0x12 →
    ∃ t, exec (.restoreRoomTimeout n) s = .next t ∧ t.req.reqs = [] ∧ t.bound b (completion r.frame stDenied []) ∧ t.tier = s.tier)
  ∧ (∀ (s : State) (n : Nat) (r : Req), s.req.reqs = [r] → s.now < r.at_ + s.targetLimit → exec (.restoreRoomTimeout n) s = .next s)
  ∧ (∀ (s : State) (rec_ need : Nat) (tier : BitVec 2), s.alive = true → s.tier.dropNext = [] → s.tier.makeRoom = [(rec_, tier, need, true)] →
    (s.roomRun rec_ tier.toNat need true).missing = none → need ≤ (s.roomRun rec_ tier.toNat need true).freed →
    exec .makeRoom s = .next (({ (s.roomRun rec_ tier.toNat need true).s with tier := { (s.roomRun rec_ tier.toNat need true).s.tier with makeRoom := [] } } : State).roomLog rec_ tier.toNat (s.roomRun rec_ tier.toNat need true).freed))
  ∧ (∀ (s : State) (rec_ need : Nat) (tier : BitVec 2) (demote : Bool), s.alive = true → s.tier.dropNext = [] → s.tier.makeRoom = [(rec_, tier, need, demote)] → s.atn.handles = [] → s.req.reqs = [] → demote = true ∨ s.adk.outstanding = [] →
    ∃ t, exec .makeRoom s = .next t ∧ t.tier.makeRoom = [] ∧ t.tier.pages = s.tier.pages ∧ s.changesOnly t [.tier])
  ∧ (∀ (s : State) (rec_ need : Nat) (tier : BitVec 2) (q : AdkFrame), s.alive = true → s.tier.dropNext = [] → s.tier.makeRoom = [(rec_, tier, need, false)] → s.atn.handles = [] → 1 ≤ need →
    s.adk.state = .up → s.adk.outstanding = [q] → s.ext.waiting = true →
    ∃ t, exec .makeRoom s = .next t ∧ t.responded q.tag stDenied ∧ t.adk.outstanding = [] ∧ t.tier = { s.tier with makeRoom := [] } ∧ t.ext.tab = s.ext.tab
      ∧ t.ext.waiting = false ∧ t.ext.cmdSeq = s.ext.cmdSeq + 1 ∧ t.ext.result = stDenied ∧ s.changesOnly t [.tier, .ext, .adk])

/-- Accesses through the page-table window and the debug read. A read of TRN_PTW_DATA reads the eight bytes at its address where
they lie; a write is staged as a masked store of eight bytes there, whose release stores them and no other byte; a debug
read reads a line so. Each is in progress until it completes, and is then answered with its status, the command result
holding it; a debug read leaves the line in its window. -/
def Obligations.AccessesOfTheAdapter : Prop :=
  (∀ (s : State) (tag : BitVec 16), s.performs { ty := 1, status := 0, tag := tag, addr := BitVec.ofNat 48 (trnAddr 0x038), len := 1, words := [] } → s.req.reqs = [] → fpaModule (8 * s.xl.ptwAddr.toNat) = s.moduleNo → (s.extent (fpaExtent (8 * s.xl.ptwAddr.toNat))).state ≠ .absent → (s.extent (fpaExtent (8 * s.xl.ptwAddr.toNat))).coherent = false →
    s.lineValid (fpaLine (8 * s.xl.ptwAddr.toNat)) = true → s.linePoison (fpaLine (8 * s.xl.ptwAddr.toNat)) = false → s.hofAt (fpaLine (8 * s.xl.ptwAddr.toNat)) = none → s.comp.evac = [] →
    ∃ t, exec (.ptwRead tag) s = .next t ∧ t.adk.outstanding = [{ ty := 1, status := 0, tag := tag, addr := BitVec.ofNat 48 (trnAddr 0x038), len := 1, words := [] }] ∧ t.xl.ptwDone = some (tag, false, stOk, BitVec.ofNat 64 (field (s.lineBytes (fpaLine (8 * s.xl.ptwAddr.toNat))) ((8 * s.xl.ptwAddr.toNat) % 64) 8))
      ∧ t.tier.mem = s.tier.mem ∧ t.req.reqs = [] ∧ t.ext = s.ext)
  ∧ (∀ (s : State) (tag : BitVec 16) (value : BitVec 64), s.performs (wrFrame tag (trnAddr 0x038) value) → s.req.reqs = [] → fpaModule (8 * s.xl.ptwAddr.toNat) = s.moduleNo → (s.extent (fpaExtent (8 * s.xl.ptwAddr.toNat))).state ≠ .absent → (s.extent (fpaExtent (8 * s.xl.ptwAddr.toNat))).coherent = false →
    s.lineValid (fpaLine (8 * s.xl.ptwAddr.toNat)) = true → s.linePoison (fpaLine (8 * s.xl.ptwAddr.toNat)) = false → s.hofAt (fpaLine (8 * s.xl.ptwAddr.toNat)) = none → s.comp.evac = [] →
    ∃ t, exec (.ptwWrite tag value) s = .next t ∧ t.adk.outstanding = [(wrFrame tag (trnAddr 0x038) value)] ∧ (∃ r ∈ t.req.reqs, r.n = s.req.nextN ∧ r.origin = .ptw tag true ∧ r.stage = .staged ∧ r.fpa.toNat = (8 * s.xl.ptwAddr.toNat) / 64 * 64 ∧ r.frame.opcode = 0x14
        ∧ r.frame.payload = splice (fill 64 0) ((8 * s.xl.ptwAddr.toNat) % 64) (leBytes 8 value.toNat) ++ leBytes 8 (255 * 2 ^ ((8 * s.xl.ptwAddr.toNat) % 64))) ∧ t.tier.mem = s.tier.mem ∧ t.ext = s.ext)
  ∧ (∀ (s : State) (n a off v : Nat) (tag : BitVec 16) (r : Req), s.alive = true → s.req.reqs = [r] → r.n = n → r.stage = .staged → r.origin = .ptw tag true → tag ≠ policyTag →
    s.comp.evac = [] → r.fpa.toNat = a → a % 64 = 0 → (s.extent (fpaExtent a)).coherent = false → r.frame.has flCmpr = false → r.done = 0 → r.given = [] → r.back = [] → r.poison = false → r.frame.opcode = 0x14 → off + 8 ≤ 64 → v < 2 ^ 64 →
    r.frame.payload = splice (fill 64 0) off (leBytes 8 v) ++ leBytes 8 (255 * 2 ^ off) → s.inT0 a 1 → s.hofAt (fpaLine a) = none →
    ∃ t, exec (.storeRelease n) s = .next t ∧ s.memStored t (a + off) (leBytes 8 v) ∧ (∃ d, t.xl.ptwDone = some (tag, true, stOk, d)) ∧ t.req.reqs = [])
  ∧ (∀ (s : State) (tag : BitVec 16) (q : AdkFrame) (data : BitVec 64), s.adk.state = .up → s.adk.outstanding = [q] → q.tag = tag → s.xl.ptwDone = some (tag, true, stOk, data) →
    ∃ t, exec .ptwAccessComplete s = .next t ∧ t.responded tag stOk ∧ t.adk.outstanding = [] ∧ t.xl = { s.xl with ptwDone := none, cmdResult := stOk } ∧ s.changesOnly t [.xl, .adk])
  ∧ (∀ (s : State) (tag : BitVec 16) (q : AdkFrame) (data : BitVec 64), s.adk.state = .up → s.adk.outstanding = [q] → q.tag = tag → q = { ty := 1, status := 0, tag := tag, addr := BitVec.ofNat 48 (trnAddr 0x038), len := 1, words := [] } → s.xl.ptwDone = some (tag, false, stOk, data) →
    ∃ t, exec .ptwAccessComplete s = .next t ∧ t.responded tag stOk ∧ t.adk.outstanding = [] ∧ t.xl = { s.xl with ptwDone := none, ptwData := data, cmdResult := stOk } ∧ s.changesOnly t [.xl, .adk])
  ∧ (∀ (s : State) (tag : BitVec 16), s.performs (wrFrame tag (secAddr 0x188) 1) → s.req.reqs = [] → fpaModule (64 * s.sec.dbgAddr.toNat) = s.moduleNo → (s.extent (fpaExtent (64 * s.sec.dbgAddr.toNat))).state ≠ .absent → (s.extent (fpaExtent (64 * s.sec.dbgAddr.toNat))).coherent = false →
    s.lineValid (fpaLine (64 * s.sec.dbgAddr.toNat)) = true → s.linePoison (fpaLine (64 * s.sec.dbgAddr.toNat)) = false → s.hofAt (fpaLine (64 * s.sec.dbgAddr.toNat)) = none → s.comp.evac = [] →
    ∃ t, exec (.debugRead tag) s = .next t ∧ t.adk.outstanding = [(wrFrame tag (secAddr 0x188) 1)] ∧ t.sec.dbgDone = some (tag, stOk, s.lineBytes (fpaLine (64 * s.sec.dbgAddr.toNat))) ∧ t.tier.mem = s.tier.mem ∧ t.req.reqs = [] ∧ t.sec.cntDbg = (bump s.sec.cntDbg).1)
  ∧ (∀ (s : State) (tag : BitVec 16), s.performs (wrFrame tag (secAddr 0x188) 1) → fpaModule (64 * s.sec.dbgAddr.toNat) ≠ s.moduleNo →
    ∃ t, exec (.debugRead tag) s = .next t ∧ t.responded tag stDenied ∧ t.sec.dbgRes = stDenied ∧ t.sec.dbgLine = fill 64 0xFF ∧ t.tier = s.tier)
  ∧ (∀ (s : State) (tag : BitVec 16) (q : AdkFrame) (line : List Byte), s.adk.state = .up → s.adk.outstanding = [q] → q.tag = tag → s.sec.dbgDone = some (tag, stOk, line) →
    ∃ t, exec .debugReadComplete s = .next t ∧ t.responded tag stOk ∧ t.adk.outstanding = [] ∧ t.sec = { s.sec with dbgDone := none, dbgRes := stOk, dbgLine := line } ∧ s.changesOnly t [.sec, .adk])

/-- Frames leave a port, and its gate list runs on the grid of fabric time. On a running port of no bundle whose lanes are free,
a control frame with credits leaves ahead of every queue, and without one the frame that queue 0 offers, in plain form,
leaves where the port shaper holds its bytes: it gets the next sequence number and is kept for replay, and the lanes carry
it for its time; a control frame spends credits, and on an S port its stage is counted. A commit of a good list makes it
pending; at a point of the grid the running list starts its cycle, or the pending one takes over; at the end of an entry by
the counter of the port's die the sequencer takes up the next. -/
def Obligations.FramesLeaveAndGatesRun : Prop :=
  (∀ (s : State) (port : BitVec 8) (f : Frame) (rest : List Frame), s.plainPort port.toNat → (s.link port.toNat).state.flows = true → s.laneFree port.toNat = true → (s.port port.toNat).tc.vc6 = f :: rest → creditCost f ≤ (s.link port.toNat).creditsAt 6 → (s.link port.toNat).replayRoom f = true → f.vc = 6 →
    ∃ t, exec (.egressFrameStart port) s = .next t ∧ (t.port port.toNat).tc.vc6 = rest ∧ (t.link port.toNat).txSeq = (s.link port.toNat).txSeq + 1
      ∧ (t.link port.toNat).replay = (s.link port.toNat).replay ++ [((s.link port.toNat).txSeq, if (s.link port.toNat).cls = 2 then { f with hops := if f.hops = 15 then 15 else f.hops + 1 } else f)]
      ∧ Table.read 0 (t.link port.toNat).credSpent 6 = Table.read 0 (s.link port.toNat).credSpent 6 + BitVec.ofNat 16 (creditCost f) ∧ (t.port port.toNat).tc.queues = (s.port port.toNat).tc.queues ∧ s.otherPorts t port.toNat ∧ s.changesOnly t [.ports])
  ∧ (∀ (s : State) (port : BitVec 8) (x : QFrame), s.plainPort port.toNat → (s.link port.toNat).state = .opened → s.laneFree port.toNat = true → (s.port port.toNat).tc.vc6 = [] → s.offered port.toNat 0 = some x → (s.port port.toNat).tc.shape.holds s.now (s.outSize port.toNat x) = true →
    (s.link port.toNat).replayRoom { x.frame with payload := fill (64 * s.outUnits port.toNat x) 0 } = true → x.frame.has flCmpr = false → x.elem = none →
    ∃ t, exec (.egressFrameStart port) s = .next t ∧ (t.link port.toNat).txSeq = (s.link port.toNat).txSeq + 1 ∧ (t.queue port.toNat 0).fifo x.frame.vc.toNat = ((s.queue port.toNat 0).fifo x.frame.vc.toNat).drop 1
      ∧ (∃ g, (t.link port.toNat).replay = (s.link port.toNat).replay ++ [((s.link port.toNat).txSeq, g)] ∧ g.opcode = x.frame.opcode ∧ g.dst = x.frame.dst ∧ g.src = x.frame.src ∧ g.tag = x.frame.tag ∧ g.payload = x.frame.payload)
      ∧ (t.lane port.toNat).queue = some 0 ∧ (t.lane port.toNat).ends = s.dieFt (portSite port.toNat) + wireT (s.outSize port.toNat x) ∧ s.otherPorts t port.toNat ∧ t.tier = s.tier ∧ t.req = s.req)
  ∧ (∀ (s : State) (port : BitVec 8), s.plainPort port.toNat → (s.link port.toNat).state = .down → exec (.egressFrameStart port) s = .next s)
  ∧ (∀ (s : State) (tag : BitVec 16) (port : BitVec 8) (value : BitVec 64), s.writes tag (prtAddr port.toNat 0x130) (value ||| 1) .operator → (s.port port.toNat).tc.gate.pending = false → (value ||| 1).getLsbD 5 = false → s.gateListOk port.toNat (Gate.list { (s.port port.toNat).tc.gate with pendLast := BitVec.ofNat 8 (bits (value ||| 1).toNat 39 32), pendNone := (value ||| 1).getLsbD 5 } false) = true →
    ∃ t, exec (.gateCommit tag port value) s = .next t ∧ t.responded tag stOk ∧ (t.port port.toNat).tc.gate = { { (s.port port.toNat).tc.gate with pendLast := BitVec.ofNat 8 (bits (value ||| 1).toNat 39 32), pendNone := (value ||| 1).getLsbD 5 } with pending := true, commitAt := s.now } ∧ s.otherPorts t port.toNat ∧ s.changesOnly t [.ports, .sec, .log, .adk, .evq])
  ∧ (∀ (s : State) (tag : BitVec 16) (port : BitVec 8) (value : BitVec 64), s.writes tag (prtAddr port.toNat 0x130) (value ||| 1) .operator → (s.port port.toNat).tc.gate.pending = true →
    ∃ t, exec (.gateCommit tag port value) s = .next t ∧ t.responded tag stDenied ∧ t.ports = s.ports ∧ s.changesOnly t [.ports, .sec, .log, .adk, .evq])
  ∧ (∀ (s : State) (port : BitVec 8), s.gatesRun = true → (s.port port.toNat).tc.gate.activates s.now = false → (s.port port.toNat).tc.gate.installed = true → pointDue (s.port port.toNat).tc.gate.actBase (s.port port.toNat).tc.gate.cycle (s.port port.toNat).tc.gate.lastStart s.now = true →
    ∃ t, exec (.gateCycleStart port) s = .next t ∧ (t.port port.toNat).tc.gate = Gate.takeUp { (s.port port.toNat).tc.gate with run := true, lastStart := s.now } (s.dieFt (portSite port.toNat)) ∧ s.otherPorts t port.toNat ∧ s.changesOnly t [.ports, .adk, .evq])
  ∧ (∀ (s : State) (port : BitVec 8), s.gatesRun = true → (s.port port.toNat).tc.gate.activates s.now = true → (s.port port.toNat).tc.gate.pendNone = false →
    ∃ t, exec (.gateCycleStart port) s = .next t ∧ (t.port port.toNat).tc.gate = Gate.takeUp { (s.port port.toNat).tc.gate with active := !(s.port port.toNat).tc.gate.active, actLast := (s.port port.toNat).tc.gate.pendLast, actBase := (s.port port.toNat).tc.gate.base, installed := true, run := true, pending := false, lastStart := s.now } (s.dieFt (portSite port.toNat))
      ∧ s.otherPorts t port.toNat ∧ s.changesOnly t [.ports, .adk, .evq])
  ∧ (∀ (s : State) (port : BitVec 8), s.gatesRun = true → (s.port port.toNat).tc.gate.run = true → (s.port port.toNat).tc.gate.curEnd ≤ s.dieFt (portSite port.toNat) →
    ∃ t, exec (.gateEntryAdvance port) s = .next t ∧ (t.port port.toNat).tc.gate = (s.port port.toNat).tc.gate.takeUp (s.dieFt (portSite port.toNat)) ∧ s.otherPorts t port.toNat ∧ s.changesOnly t [.ports, .adk, .evq])
  ∧ (∀ (s : State) (port : BitVec 8), s.gatesRun = false → exec (.gateEntryAdvance port) s = .next s)

/-- Shapers, bridles, the rate loop and belvederes. A write of a good shaper, of a port or a queue, takes effect with its bucket
full, or empty as RST_ZERO says; a bad one is refused and nothing changes. Bridles are written through the first port of a
die with full buckets. The rate rises by its step at each interval, up to its bound, where it is held. At each sampling
instant, in its turn, the statistics of a queue take in its depth and its sojourn; CLEAR returns them to their reset values,
SNAP copies them for reading. -/
def Obligations.ShapersBridlesAndMeasures : Prop :=
  (∀ (s : State) (tag : BitVec 16) (port : BitVec 8) (queue : BitVec 4) (value : BitVec 64) (x : Shaper), s.writes tag (queAddr port.toNat queue.toNat 0x08) value .operator → shaperOf value = some x →
    ∃ t, exec (.queShapeWrite tag port queue value) s = .next t ∧ t.responded tag stOk ∧ (t.queue port.toNat queue.toNat).shape = { x with tokens := if x.rstZero then 0 else 64 * x.burst.toNat * 65536, since := s.now } ∧ (t.queue port.toNat queue.toNat).fifos = (s.queue port.toNat queue.toNat).fifos ∧ (∀ i, i ≠ queue.toNat → t.queue port.toNat i = s.queue port.toNat i) ∧ s.otherPorts t port.toNat ∧ s.changesOnly t [.ports, .sec, .log, .adk, .evq])
  ∧ (∀ (s : State) (tag : BitVec 16) (port : BitVec 8) (queue : BitVec 4) (value : BitVec 64), s.writes tag (queAddr port.toNat queue.toNat 0x08) value .operator → shaperOf value = none →
    ∃ t, exec (.queShapeWrite tag port queue value) s = .next t ∧ t.responded tag stDenied ∧ t.ports = s.ports ∧ s.changesOnly t [.ports, .sec, .log, .adk, .evq])
  ∧ (∀ (s : State) (tag : BitVec 16) (port : BitVec 8) (value : BitVec 64) (x : Shaper), s.writes tag (prtAddr port.toNat 0x120) value .operator → shaperOf value = some x →
    ∃ t, exec (.prtPshapeWrite tag port value) s = .next t ∧ t.responded tag stOk ∧ (t.port port.toNat).tc.shape = { x with tokens := if x.rstZero then 0 else 64 * x.burst.toNat * 65536, since := s.now } ∧ (t.port port.toNat).tc.queues = (s.port port.toNat).tc.queues ∧ s.otherPorts t port.toNat ∧ s.changesOnly t [.ports, .sec, .log, .adk, .evq])
  ∧ (∀ (s : State) (tag : BitVec 16) (port : BitVec 8) (value : BitVec 64), s.writes tag (prtAddr port.toNat 0x120) value .operator → shaperOf value = none →
    ∃ t, exec (.prtPshapeWrite tag port value) s = .next t ∧ t.responded tag stDenied ∧ t.ports = s.ports ∧ s.changesOnly t [.ports, .sec, .log, .adk, .evq])
  ∧ (∀ (s : State) (tag : BitVec 16) (port : BitVec 8) (value : BitVec 64), s.writes tag (prtAddr port.toNat 0x180) value .operator → port.toNat % 16 = 0 → 1 ≤ bits value.toNat 63 44 → bits value.toNat 63 44 ≤ bits value.toNat 43 24 → bits value.toNat 43 24 ≤ 0xCF850 →
    ∃ t, exec (.prtBrdWrite tag port false value) s = .next t ∧ t.responded tag stOk ∧ (t.bridle (s.brdIndex port.toNat)).cir.toNat = bits value.toNat 63 44 ∧ (t.bridle (s.brdIndex port.toNat)).pir.toNat = bits value.toNat 43 24 ∧ (t.bridle (s.brdIndex port.toNat)).redDrop = value.getLsbD 1 ∧ (t.bridle (s.brdIndex port.toNat)).aware = value.getLsbD 0
      ∧ (t.bridle (s.brdIndex port.toNat)).tc = (s.bridle (s.brdIndex port.toNat)).cbs.toNat * 65536 ∧ (t.bridle (s.brdIndex port.toNat)).tp = (s.bridle (s.brdIndex port.toNat)).pbs.toNat * 65536 ∧ (∀ i, i ≠ (s.brdIndex port.toNat) → t.bridle i = s.bridle i) ∧ s.changesOnly t [.bridles, .sec, .log, .adk, .evq])
  ∧ (∀ (s : State) (tag : BitVec 16) (port : BitVec 8) (value : BitVec 64), s.writes tag (prtAddr port.toNat 0x188) value .operator → port.toNat % 16 = 0 → 0x1029 ≤ bits value.toNat 63 32 → bits value.toNat 63 32 ≤ 0x1000000 → 0x1029 ≤ bits value.toNat 31 0 → bits value.toNat 31 0 ≤ 0x1000000 →
    ∃ t, exec (.prtBrdWrite tag port true value) s = .next t ∧ t.responded tag stOk ∧ (t.bridle (s.brdIndex port.toNat)).pbs.toNat = bits value.toNat 63 32 ∧ (t.bridle (s.brdIndex port.toNat)).cbs.toNat = bits value.toNat 31 0 ∧ (t.bridle (s.brdIndex port.toNat)).cir = (s.bridle (s.brdIndex port.toNat)).cir ∧ (∀ i, i ≠ (s.brdIndex port.toNat) → t.bridle i = s.bridle i) ∧ s.changesOnly t [.bridles, .sec, .log, .adk, .evq])
  ∧ (∀ (s : State) (tag : BitVec 16) (port : BitVec 8) (value : BitVec 64), s.writes tag (prtAddr port.toNat 0x180) value .operator → port.toNat % 16 ≠ 0 →
    ∃ t, exec (.prtBrdWrite tag port false value) s = .next t ∧ t.responded tag stDenied ∧ t.bridles = s.bridles ∧ s.changesOnly t [.bridles, .sec, .log, .adk, .evq])
  ∧ (∀ (s : State) (port : BitVec 8), s.alive = true → (s.link port.toNat).cls = 1 ∨ (s.link port.toNat).cls = 2 → (s.port port.toNat).tc.rlIncAt + (s.port port.toNat).tc.rlUs.toNat * usT ≤ s.now → (s.port port.toNat).tc.rlRate.toNat + (s.port port.toNat).tc.rlAi.toNat < (s.port port.toNat).tc.rlMax.toNat →
    ∃ t, exec (.rateLoopIncrease port) s = .next t ∧ (t.port port.toNat).tc.rlRate.toNat = (s.port port.toNat).tc.rlRate.toNat + (s.port port.toNat).tc.rlAi.toNat ∧ (t.port port.toNat).tc.rlIncAt = s.now ∧ (t.port port.toNat).tc.rlHeld = (s.port port.toNat).tc.rlHeld ∧ s.otherPorts t port.toNat ∧ s.changesOnly t [.ports])
  ∧ (∀ (s : State) (port : BitVec 8), s.alive = true → (s.link port.toNat).cls = 1 ∨ (s.link port.toNat).cls = 2 → (s.port port.toNat).tc.rlIncAt + (s.port port.toNat).tc.rlUs.toNat * usT ≤ s.now → (s.port port.toNat).tc.rlMax.toNat ≤ (s.port port.toNat).tc.rlRate.toNat + (s.port port.toNat).tc.rlAi.toNat → (s.port port.toNat).tc.rlRate ≠ (s.port port.toNat).tc.rlMax →
    ∃ t, exec (.rateLoopIncrease port) s = .next t ∧ (t.port port.toNat).tc.rlRate = (s.port port.toNat).tc.rlMax ∧ (t.port port.toNat).tc.rlHeld = true ∧ (∃ x ∈ t.log.entries, x.2.cls = 0x14 ∧ x.2.detail = 0x10 ∧ x.2.src = srcP port.toNat) ∧ s.otherPorts t port.toNat)
  ∧ (∀ (s : State) (port : BitVec 8) (queue : BitVec 4), s.alive = true → (s.queue port.toNat queue.toNat).belOwed = false → gridDue ((s.queue port.toNat queue.toNat).belUs.toNat * usT) (s.queue port.toNat queue.toNat).belAt s.now = true →
    s.inTurn 7 (s.now / ((s.queue port.toNat queue.toNat).belUs.toNat * usT) * ((s.queue port.toNat queue.toNat).belUs.toNat * usT)) = true →
    ∃ t, exec (.belvedereSample port queue) s = .next t ∧ (t.queue port.toNat queue.toNat).bel.samples = (s.queue port.toNat queue.toNat).bel.samples + 1 ∧ (t.queue port.toNat queue.toNat).bel.dmax = (if (s.queue port.toNat queue.toNat).bel.dmax.toNat < (s.queue port.toNat queue.toNat).depth then sat32 (s.queue port.toNat queue.toNat).depth else (s.queue port.toNat queue.toNat).bel.dmax)
      ∧ (t.queue port.toNat queue.toNat).bel.smax = (if (s.queue port.toNat queue.toNat).bel.smax.toNat < (s.queue port.toNat queue.toNat).sojourn s.now then sat32 ((s.queue port.toNat queue.toNat).sojourn s.now) else (s.queue port.toNat queue.toNat).bel.smax)
      ∧ Table.read 0 (t.queue port.toNat queue.toNat).bel.dhist (histBin 64 (s.queue port.toNat queue.toNat).depth) = Table.read 0 (s.queue port.toNat queue.toNat).bel.dhist (histBin 64 (s.queue port.toNat queue.toNat).depth) + 1 ∧ (t.queue port.toNat queue.toNat).belAt = s.now ∧ (t.queue port.toNat queue.toNat).fifos = (s.queue port.toNat queue.toNat).fifos ∧ (∀ i, i ≠ queue.toNat → t.queue port.toNat i = s.queue port.toNat i) ∧ s.otherPorts t port.toNat ∧ s.changesOnly t [.ports])
  ∧ (∀ (s : State) (tag : BitVec 16) (port : BitVec 8) (queue : BitVec 4) (value : BitVec 64), s.writes tag (queAddr port.toNat queue.toNat 0x18) (value ||| (1#64 <<< 31)) .operator → bits (value ||| (1#64 <<< 31)).toNat 19 0 ≤ 0xF4240 →
    ∃ t, exec (.belvedereClear tag port queue value) s = .next t ∧ t.responded tag stOk ∧ (t.queue port.toNat queue.toNat).bel = {} ∧ (t.queue port.toNat queue.toNat).belCopy = {} ∧ (t.queue port.toNat queue.toNat).belUs.toNat = bits (value ||| (1#64 <<< 31)).toNat 19 0 ∧ (∀ i, i ≠ queue.toNat → t.queue port.toNat i = s.queue port.toNat i) ∧ s.otherPorts t port.toNat ∧ s.changesOnly t [.ports, .sec, .log, .adk, .evq])
  ∧ (∀ (s : State) (tag : BitVec 16) (port : BitVec 8) (queue : BitVec 4) (value : BitVec 64), s.writes tag (queAddr port.toNat queue.toNat 0x18) (value ||| (1#64 <<< 30)) .operator → bits (value ||| (1#64 <<< 30)).toNat 19 0 ≤ 0xF4240 → (value ||| (1#64 <<< 30)).getLsbD 31 = false →
    ∃ t, exec (.belvedereSnap tag port queue value) s = .next t ∧ t.responded tag stOk ∧ (t.queue port.toNat queue.toNat).belCopy = (s.queue port.toNat queue.toNat).bel ∧ (t.queue port.toNat queue.toNat).bel = (s.queue port.toNat queue.toNat).bel ∧ (t.queue port.toNat queue.toNat).belUs.toNat = bits (value ||| (1#64 <<< 30)).toNat 19 0 ∧ (∀ i, i ≠ queue.toNat → t.queue port.toNat i = s.queue port.toNat i) ∧ s.otherPorts t port.toNat ∧ s.changesOnly t [.ports, .sec, .log, .adk, .evq])

/-- Images are staged, validated, loaded and discarded. An image write to an EMPTY or LOADING area stores its words at its
offset and no other byte of the area; one to a STAGED or VALID area, or while an operation is under way, is refused.
VALIDATE starts on a STAGED image; its end makes the image VALID with ERR 0, or leaves it with the code and the section of
the first check that fails. LOAD starts for a VALID full image in BOOT or RECOVERY; in BOOT its end, where no port changes
and the image has no policy record and no gate list, makes the image the running composition at epoch 0, empties the area
and goes on to TEST. DISCARD empties the area when nothing is in progress. A command that does not fit is refused with ERR
0x16 and changes nothing else. -/
def Obligations.ImagesAreStagedAndJudged : Prop :=
  (∀ (s : State) (tag : BitVec 16) (addr : BitVec 48) (words : List (BitVec 64)), s.performs ({ ty := 3, status := 0, tag := tag, addr := addr, len := words.length, words := words } : AdkFrame) → addr.toNat < 2 ^ 28 → addr.toNat % 8 = 0 → 1 ≤ words.length → words.length ≤ 64 → s.comp.stage = .empty ∨ s.comp.stage = .loading → s.imgBusy = false →
    addr.toNat + 8 * words.length ≤ s.imgLen.getD (2 ^ 28) →
    ∃ t, exec (.imgwr tag addr words) s = .next t ∧ t.responded tag stOk ∧ t.comp.staged.bytes addr.toNat (8 * words.length) = wordBytes words
      ∧ (∀ y, (y < addr.toNat ∨ addr.toNat + 8 * words.length ≤ y) → t.comp.staged.byte y = s.comp.staged.byte y) ∧ (t.comp.stage = .loading ∨ t.comp.stage = .staged)
      ∧ (s.comp.stage = .empty → t.comp.err = 0) ∧ t.comp.run = s.comp.run ∧ s.changesOnly t [.comp, .adk])
  ∧ (∀ (s : State) (tag : BitVec 16) (addr : BitVec 48) (words : List (BitVec 64)), s.performs ({ ty := 3, status := 0, tag := tag, addr := addr, len := words.length, words := words } : AdkFrame) → addr.toNat < 2 ^ 28 → addr.toNat % 8 = 0 → 1 ≤ words.length → words.length ≤ 64 → s.comp.stage = .staged ∨ s.comp.stage = .valid ∨ s.imgBusy = true →
    ∃ t, exec (.imgwr tag addr words) s = .next t ∧ t.responded tag stDenied ∧ s.changesOnly t [.adk])
  ∧ (∀ (s : State) (tag : BitVec 16), s.writes tag (cmpoAddr 0x008) 1 .operator → s.comp.stage = .staged →
    ∃ t, exec (.cmpoValidate tag) s = .next t ∧ t.responded tag stOk ∧ t.comp = { s.comp with validating := true } ∧ s.changesOnly t [.pkg, .ports, .req, .tier, .xl, .cpu, .clv, .atn, .comp, .sec, .log, .adk, .evq])
  ∧ (∀ (s : State) (tag : BitVec 16), s.writes tag (cmpoAddr 0x008) 1 .operator → s.comp.stage ≠ .staged →
    ∃ t, exec (.cmpoValidate tag) s = .next t ∧ t.responded tag stDenied ∧ t.comp = { s.comp with err := 0x16, errSect := BitVec.ofNat 14 noSect } ∧ s.changesOnly t [.pkg, .ports, .req, .tier, .xl, .cpu, .clv, .atn, .comp, .sec, .log, .adk, .evq])
  ∧ (∀ (s : State), s.sd0Runs = true → s.comp.validating = true →
    ∃ t, exec .imageValidationDone s = .next t ∧ t.comp = (match s.imgError s.imgPolicyOk with
      | none => { s.comp with validating := false, stage := .valid, err := 0, errSect := 0 }
      | some e => { s.comp with validating := false, err := BitVec.ofNat 5 e.1, errSect := BitVec.ofNat 14 e.2 }) ∧ s.changesOnly t [.comp])
  ∧ (∀ (s : State), s.comp.validating = false → exec .imageValidationDone s = .next s)
  ∧ (∀ (s : State) (tag : BitVec 16), s.writes tag (cmpoAddr 0x008) 2 .operator → s.comp.stage = .valid → s.imgDelta = false → (s.mod.state = .boot ∨ s.mod.state = .recovery) → s.imgBusy = false → s.extentsHomed s.candidate = true →
    ∃ t, exec (.cmpoLoad tag) s = .next t ∧ t.responded tag stOk ∧ t.comp = { s.comp with loading := true } ∧ s.changesOnly t [.pkg, .ports, .req, .tier, .xl, .cpu, .clv, .atn, .comp, .sec, .log, .adk, .evq])
  ∧ (∀ (s : State) (tag : BitVec 16), s.writes tag (cmpoAddr 0x008) 2 .operator → s.comp.stage = .valid → s.mod.state = .service →
    ∃ t, exec (.cmpoLoad tag) s = .next t ∧ t.responded tag stDenied ∧ t.comp = { s.comp with err := 0x16, errSect := BitVec.ofNat 14 noSect } ∧ s.changesOnly t [.pkg, .ports, .req, .tier, .xl, .cpu, .clv, .atn, .comp, .sec, .log, .adk, .evq])
  ∧ (∀ (s : State), s.sd0Runs = true → s.comp.loading = true → s.mod.state = .boot → s.imgPolicy = [] → s.imgGates = [] → s.portsChanged s.candidate = [] →
    ∃ t, exec .loadComplete s = .next t ∧ t.comp.run = s.candidate ∧ t.comp.loading = false ∧ t.comp.epoch = 0 ∧ t.comp.digest = s.imgDigest ∧ t.comp.stage = .empty ∧ t.comp.staged = []
      ∧ t.comp.cntApply = (bump s.comp.cntApply).1 ∧ t.mod.state = .test)
  ∧ (∀ (s : State), s.comp.loading = false → exec .loadComplete s = .next s)
  ∧ (∀ (s : State) (tag : BitVec 16), s.writes tag (cmpoAddr 0x008) 4 .operator → s.imgBusy = false →
    ∃ t, exec (.cmpoDiscard tag) s = .next t ∧ t.responded tag stOk ∧ t.comp = { s.comp with err := 0, errSect := 0, stage := .empty, staged := [], imgWritten := [], validating := false } ∧ s.changesOnly t [.pkg, .ports, .req, .tier, .xl, .cpu, .clv, .atn, .comp, .sec, .log, .adk, .evq])
  ∧ (∀ (s : State) (tag : BitVec 16), s.writes tag (cmpoAddr 0x008) 4 .operator → s.imgBusy = true →
    ∃ t, exec (.cmpoDiscard tag) s = .next t ∧ t.responded tag stDenied ∧ t.comp = { s.comp with err := 0x16, errSect := BitVec.ofNat 14 noSect } ∧ s.changesOnly t [.pkg, .ports, .req, .tier, .xl, .cpu, .clv, .atn, .comp, .sec, .log, .adk, .evq])

/-- A delta is prepared, the epoch flips, sectors change hands, the window closes. APPLY of a VALID delta in SERVICE starts the
preparation; until the work that it ends has ended, that work is ended further; then the shadow tables stand and the instant
of the flip is fixed, 100 microseconds on, on a slot. At that instant, where no port changes and the delta has no policy
record and no gate list, the epoch is one more, the old one stays live, and the sectors whose home moves are to be handed
over; a clean one and an empty one, which no request needs, leave so. At the end of the module's own window the old tables
are gone and the area is empty. A note of the next epoch from an S peer opens a window. A handoff record that is not taken
in time is rolled back in its line. -/
def Obligations.EpochsFlipAndWindowsClose : Prop :=
  (∀ (s : State) (tag : BitVec 16), s.writes tag (cmpoAddr 0x008) 3 .operator → s.comp.stage = .valid → s.imgDelta = true → s.mod.state = .service → s.comp.state = .idle → s.clv.ids = [] → s.atn.decodes = [] → s.tier.moves = [] →
    ∃ t, exec (.cmpoApply tag) s = .next t ∧ t.responded tag stOk ∧ t.comp.state = .preparing ∧ t.comp.applyAt = s.now ∧ t.comp.flipAt = none ∧ t.comp.run = s.comp.run ∧ t.comp.epoch = s.comp.epoch
      ∧ (∀ k i, coreChanged s.comp.run s.candidate k = false → t.thread k i = s.thread k i) ∧ s.changesOnly t [.pkg, .ports, .req, .tier, .xl, .cpu, .clv, .atn, .comp, .sec, .log, .adk, .evq])
  ∧ (∀ (s : State) (tag : BitVec 16), s.writes tag (cmpoAddr 0x008) 3 .operator → s.comp.stage = .valid → s.mod.state = .boot →
    ∃ t, exec (.cmpoApply tag) s = .next t ∧ t.responded tag stDenied ∧ t.comp = { s.comp with err := 0x16, errSect := BitVec.ofNat 14 noSect } ∧ s.changesOnly t [.pkg, .ports, .req, .tier, .xl, .cpu, .clv, .atn, .comp, .sec, .log, .adk, .evq])
  ∧ (∀ (s : State), s.sd0Runs = true → s.mod.state = .service → s.comp.state = .preparing → s.comp.flipAt = none → s.workEnded s.candidate = true →
    ∃ t, exec .applyPrepared s = .next t ∧ t.comp.shadow = s.candidate ∧ (∃ f, t.comp.flipAt = some f ∧ f % 64 = 0 ∧ s.now + 100 * usT ≤ f ∧ f < s.now + 100 * usT + 64 ∧ t.comp.winEnd = f + s.comp.windowUs.toNat * usT)
      ∧ t.comp.run = s.comp.run ∧ t.comp.epoch = s.comp.epoch ∧ s.changesOnly t [.cpu, .comp])
  ∧ (∀ (s : State), s.sd0Runs = true → s.mod.state = .service → s.comp.state = .preparing → s.comp.flipAt = none → s.workEnded s.candidate = false →
    exec .applyPrepared s = .next (s.endWork s.candidate))
  ∧ (∀ (s : State) (f : FT), s.alive = true → s.comp.state = .preparing → s.comp.flipAt = some f → f ≤ s.now → s.imgPolicy = [] → s.imgGates = [] → s.portsChanged s.comp.shadow = [] →
    ∃ t, exec .epochFlip s = .next t ∧ t.comp.run = s.comp.shadow ∧ t.comp.old = s.comp.run ∧ t.comp.epoch = s.comp.epoch + 1 ∧ t.comp.oldEpoch = s.comp.epoch ∧ t.comp.state = .window ∧ t.comp.flipAt = none
      ∧ t.epochLive s.comp.epoch = true ∧ (∀ b ∈ s.blocksInUse, s.blockMoves s.comp.run s.comp.shadow b = true → b ∈ t.comp.evac) ∧ t.comp.cntApply = (bump s.comp.cntApply).1 ∧ t.tier.mem = s.tier.mem ∧ t.tier.sectors = s.tier.sectors)
  ∧ (∀ (s : State) (f : FT), s.comp.flipAt = some f → s.now < f → exec .epochFlip s = .next s)
  ∧ (∀ (s : State) (block : BitVec 45), s.alive = true → s.awayBlock block.toNat = true → s.req.reqs = [] → s.trayBusy (.fill block.toNat) = false → s.slotBusy block.toNat = false → (s.sector block.toNat).valid = 0 →
    ∃ t, exec (.sectorHandover block) s = .next t ∧ t.comp.evac = s.comp.evac.filter (· != block.toNat) ∧ t.tier = s.tier ∧ s.changesOnly t [.comp])
  ∧ (∀ (s : State) (block : BitVec 45), s.alive = true → s.awayBlock block.toNat = true → s.req.reqs = [] → s.trayBusy (.fill block.toNat) = false → s.slotBusy block.toNat = false → (s.sector block.toNat).dirty = 0 → (s.page (pageOfBlock block.toNat)).res = 1 →
    ∃ t, exec (.sectorHandover block) s = .next t ∧ t.comp.evac = s.comp.evac.filter (· != block.toNat) ∧ (t.sector block.toNat).valid = 0 ∧ (∀ i, i ≠ block.toNat → t.sector i = s.sector i))
  ∧ (∀ (s : State), s.alive = true → s.comp.state = .window → s.comp.byNote = false → s.comp.winEnd ≤ s.now →
    ∃ t, exec .windowClose s = .next t ∧ t.comp.state = .idle ∧ t.comp.old = [] ∧ t.comp.shadow = [] ∧ t.comp.stage = .empty ∧ t.comp.err = 0 ∧ t.comp.epoch = s.comp.epoch ∧ t.comp.run = s.comp.run
      ∧ t.comp.lastUs = BitVec.ofNat 16 (min 0xFFFF ((s.now - s.comp.applyAt) / usT)) ∧ t.tier = s.tier)
  ∧ (∀ (s : State), s.now < s.comp.winEnd → exec .windowClose s = .next s)
  ∧ (∀ (s e : State) (port : BitVec 8) (f : Frame) (g : Frame), f.opcode = 0x63 → s.takenAs port.toNat f = some g →
    e = s.entered port.toNat f → (e.link (s.base port.toNat)).cls = 2 → (e.link (s.base port.toNat)).state = .opened → field g.payload 2 1 = 1 → BitVec.ofNat 4 (field g.payload 0 1) = e.comp.epoch + 1 → e.comp.state = .idle → e.comp.byNote = false →
    ∃ t, exec (.epochNote port f) s = .next t ∧ t.comp.epoch = e.comp.epoch + 1 ∧ t.comp.oldEpoch = e.comp.epoch ∧ t.comp.byNote = true ∧ t.comp.state = .window ∧ t.comp.winEnd = field g.payload 8 8 ∧ t.comp.run = e.comp.run ∧ t.epochLive e.comp.epoch = true ∧ t.tier = e.tier ∧ t.coh = e.coh ∧ t.ext = e.ext ∧ t.cpu = e.cpu ∧ t.req = e.req ∧ t.clv = e.clv)
  ∧ (∀ (s e : State) (port : BitVec 8) (f : Frame) (g : Frame), f.opcode = 0x63 → s.takenAs port.toNat f = some g →
    e = s.entered port.toNat f → BitVec.ofNat 4 (field g.payload 0 1) = e.comp.epoch →
    ∃ t, exec (.epochNote port f) s = .next t ∧ t = e)
  ∧ (∀ (s : State) (index : BitVec 10) (f : FT), s.alive = true → (Table.read ({} : Hof) s.comp.hofs index.toNat).timer = some f → f ≤ s.now → (s.extent (fpaExtent (64 * (Table.read ({} : Hof) s.comp.hofs index.toNat).line.toNat))).state = .active → s.awayBlock ((Table.read ({} : Hof) s.comp.hofs index.toNat).line.toNat / 32) = false → s.lineBusy (Table.read ({} : Hof) s.comp.hofs index.toNat).line.toNat = false →
    (s.dirEntry (Table.read ({} : Hof) s.comp.hofs index.toNat).line.toNat).state = .i → s.lineValid (Table.read ({} : Hof) s.comp.hofs index.toNat).line.toNat = true → s.linePoison (Table.read ({} : Hof) s.comp.hofs index.toNat).line.toNat = false → field (s.lineBytes (Table.read ({} : Hof) s.comp.hofs index.toNat).line.toNat) 4 1 = 2 → s.req.reqs = [] →
    ∃ t, exec (.handoffTimerExpiry index) s = .next t ∧ s.memStored t (64 * (Table.read ({} : Hof) s.comp.hofs index.toNat).line.toNat) (rolledBack (s.lineBytes (Table.read ({} : Hof) s.comp.hofs index.toNat).line.toNat)) ∧ (Table.read ({} : Hof) t.comp.hofs index.toNat).timer = none
      ∧ t.comp.cntRollback = (bump s.comp.cntRollback).1 ∧ t.cpu = s.cpu)

/-- Tenants are activated, retired, scrubbed and freed. ACTIVATE makes a FREE tenant ACTIVE. RETIRE makes an ACTIVE one
STOPPING: its threads stop and its extents are revoked; of a FREE one it is DENIED, and of a STOPPING or RETIRED one it
answers OK and changes nothing. Once every extent, write and collective of the tenant has ended the scrub starts; when it
completes the scratchpads and cluster memories of its cores, but for the firmware area, read 0, its page-table root and its
handles are gone, and it is RETIRED. A RETIRED tenant that nothing names becomes FREE, without its program key. SETKEY takes
the key of the buffer, unless a program of the tenant is loaded; SEC_PKEY_DATA fills the buffer word by word. Every other
tenant stays as it is. The pointer of the buffer returns to 0 after its last word (log 32). -/
def Obligations.TenantsThroughTheirLife : Prop :=
  (∀ (s : State) (tag : BitVec 16), s.writes tag (secAddr 0x20) 1 .operator → (s.tenant s.sec.tcSel.toNat).state = .free → s.evq.mask.getLsbD 0x56 = false → s.evq.lost = 0 → s.evq.queue.length < 4096 →
    ∃ t, exec (.tcActivate tag) s = .next t ∧ t.responded tag stOk ∧ (t.tenant s.sec.tcSel.toNat) = { (s.tenant s.sec.tcSel.toNat) with state := .active, tdStep := 0 } ∧ (∀ i, i ≠ s.sec.tcSel.toNat → t.tenant i = s.tenant i)
      ∧ t.evq.queue = s.evq.queue ++ [s.mkEvent 0x56 1 (srcTC s.sec.tcSel.toNat) (s.tenantDirty s.sec.tcSel.toNat) 0xFFFFFFFF] ∧ t.sec.tcResult = stOk ∧ t.sec.tcSel = s.sec.tcSel ∧ s.changesOnly t [.sec, .adk, .evq])
  ∧ (∀ (s : State) (tag : BitVec 16), s.writes tag (secAddr 0x20) 1 .operator → (s.tenant s.sec.tcSel.toNat).state ≠ .free →
    ∃ t, exec (.tcActivate tag) s = .next t ∧ t.responded tag stDenied ∧ t.sec.tenants = s.sec.tenants ∧ t.sec.tcResult = stDenied ∧ t.sec.tcSel = s.sec.tcSel ∧ s.changesOnly t [.sec, .adk])
  ∧ (∀ (s : State) (tag : BitVec 16), s.writes tag (secAddr 0x20) 2 .operator → (s.tenant s.sec.tcSel.toNat).state = .active → s.quiet → s.tier.moves = [] → s.tier.trays = [] →
    ∃ t, exec (.tcRetire tag) s = .next t ∧ t.responded tag stOk ∧ (t.tenant s.sec.tcSel.toNat).state = .stopping ∧ (t.tenant s.sec.tcSel.toNat).tdStep = 5 ∧ (t.tenant s.sec.tcSel.toNat).pkey = (s.tenant s.sec.tcSel.toNat).pkey ∧ (∀ i, i ≠ s.sec.tcSel.toNat → t.tenant i = s.tenant i)
      ∧ (∀ e, (s.extent e).state = .active → (s.extent e).tenant.toNat = s.sec.tcSel.toNat → (t.extent e).state = .revoking)
      ∧ (∀ k i, k ∈ s.tenantCores s.sec.tcSel.toNat → (s.thread k i).state = .ready → (s.thread k i).mcnt = 0 → (s.thread k i).ecnt = 0 → (t.thread k i).state = .idle) ∧ t.sec.tcResult = stOk ∧ t.sec.tcSel = s.sec.tcSel ∧ s.changesOnly t [.free, .pkg, .ports, .req, .coh, .ext, .tier, .xl, .cmp, .cpu, .clv, .atn, .comp, .sec, .log, .adk, .evq])
  ∧ (∀ (s : State) (tag : BitVec 16), s.writes tag (secAddr 0x20) 2 .operator → (s.tenant s.sec.tcSel.toNat).state = .free →
    ∃ t, exec (.tcRetire tag) s = .next t ∧ t.responded tag stDenied ∧ t.sec.tenants = s.sec.tenants ∧ t.sec.tcResult = stDenied ∧ t.sec.tcSel = s.sec.tcSel ∧ s.changesOnly t [.sec, .adk])
  ∧ (∀ (s : State) (tag : BitVec 16), s.writes tag (secAddr 0x20) 2 .operator → ((s.tenant s.sec.tcSel.toNat).state = .stopping ∨ (s.tenant s.sec.tcSel.toNat).state = .retired) →
    ∃ t, exec (.tcRetire tag) s = .next t ∧ t.responded tag stOk ∧ t.sec.tenants = s.sec.tenants ∧ t.sec.tcResult = stOk ∧ t.sec.tcSel = s.sec.tcSel ∧ s.changesOnly t [.sec, .adk])
  ∧ (∀ (s : State) (tc : BitVec 10), s.alive = true → (s.tenant tc.toNat).state = .stopping → (s.tenant tc.toNat).tdStep = 5 → s.teardownReady tc.toNat = true →
    ∃ t, exec (.teardownScrubStart tc) s = .next t ∧ (t.tenant tc.toNat) = { (s.tenant tc.toNat) with tdStep := 6 } ∧ (∀ i, i ≠ tc.toNat → t.tenant i = s.tenant i) ∧ s.changesOnly t [.sec])
  ∧ (∀ (s : State) (tc : BitVec 10), (s.tenant tc.toNat).state = .stopping → s.teardownReady tc.toNat = false → exec (.teardownScrubStart tc) s = .next s)
  ∧ (∀ (s : State) (tc : BitVec 10), s.alive = true → (s.tenant tc.toNat).state = .stopping → (s.tenant tc.toNat).tdStep = 6 → s.handlesBusy tc.toNat = false →
    ∃ t, exec (.teardownComplete tc) s = .next t ∧ (t.tenant tc.toNat) = { (s.tenant tc.toNat) with state := .retired, tdStep := 8 } ∧ (∀ i, i ≠ tc.toNat → t.tenant i = s.tenant i)
      ∧ (∀ k a, k ∈ s.tenantCores tc.toNat → a / 2 ^ 20 = k → t.cpu.spad.byte a = 0)
      ∧ (∀ k a, k ∈ s.tenantCores tc.toNat → a / 2 ^ 24 = clusterOf k → firmwareByte a = false → t.cpu.cmem.byte a = 0)
      ∧ (∀ k i, k ∈ s.tenantCores tc.toNat → (t.thread k i).state = .idle)
      ∧ (Table.read ({} : Root) t.xl.roots tc.toNat).valid = false
      ∧ (∀ h, (s.handle h).state ≠ .free → (s.handle h).tenant.toNat = tc.toNat → (t.handle h).state = .free)
      ∧ (∃ x ∈ t.log.entries, x.2.cls = 0x56 ∧ x.2.detail = 3 ∧ x.2.src = srcTC tc.toNat) ∧ s.changesOnly t [.pkg, .ports, .req, .coh, .ext, .tier, .xl, .cmp, .cpu, .clv, .atn, .comp, .sec, .log, .adk, .evq])
  ∧ (∀ (s : State) (tc : BitVec 10), s.alive = true → (s.tenant tc.toNat).state = .retired → s.mayFree tc.toNat = true →
    ∃ t, exec (.tenantFree tc) s = .next t ∧ (t.tenant tc.toNat) = { (s.tenant tc.toNat) with state := .free, pkey := none } ∧ (∀ i, i ≠ tc.toNat → t.tenant i = s.tenant i)
      ∧ (∀ e, (s.extent e).lastTenant.toNat = tc.toNat → (s.extent e).state = .free → (t.extent e).lastValid = false) ∧ s.changesOnly t [.pkg, .ports, .ext, .tier, .sec, .adk, .evq])
  ∧ (∀ (s : State) (tc : BitVec 10), (s.tenant tc.toNat).state = .retired → s.mayFree tc.toNat = false → exec (.tenantFree tc) s = .next s)
  ∧ (∀ (s : State) (tag : BitVec 16), s.writes tag (secAddr 0x20) 3 .operator → ((s.tenant s.sec.tcSel.toNat).state = .free ∨ (s.tenant s.sec.tcSel.toNat).state = .active) → s.tenantRuns s.sec.tcSel.toNat = false →
    ∃ t, exec (.tcSetkey tag) s = .next t ∧ t.responded tag stOk ∧ (t.tenant s.sec.tcSel.toNat) = { (s.tenant s.sec.tcSel.toNat) with pkey := some s.keyBytes } ∧ (∀ i, i ≠ s.sec.tcSel.toNat → t.tenant i = s.tenant i) ∧ t.sec.tcResult = stOk ∧ t.sec.tcSel = s.sec.tcSel ∧ s.changesOnly t [.sec, .adk])
  ∧ (∀ (s : State) (tag : BitVec 16), s.writes tag (secAddr 0x20) 3 .operator → ((s.tenant s.sec.tcSel.toNat).state = .stopping ∨ (s.tenant s.sec.tcSel.toNat).state = .retired ∨ s.tenantRuns s.sec.tcSel.toNat = true) →
    ∃ t, exec (.tcSetkey tag) s = .next t ∧ t.responded tag stDenied ∧ t.sec.tenants = s.sec.tenants ∧ t.sec.tcResult = stDenied ∧ t.sec.tcSel = s.sec.tcSel ∧ s.changesOnly t [.sec, .adk])
  ∧ (∀ (s : State) (tag : BitVec 16) (value : BitVec 64), s.writes tag (secAddr 0x28) value .operator →
    ∃ t, exec (.secPkeyDataWrite tag value) s = .next t ∧ t.responded tag stOk ∧ Table.read 0 t.sec.pkeyBuf s.sec.pkeyPtr.toNat = value ∧ (∀ i, i ≠ s.sec.pkeyPtr.toNat → Table.read 0 t.sec.pkeyBuf i = Table.read 0 s.sec.pkeyBuf i)
      ∧ t.sec.pkeyPtr = (if 0xA3 ≤ s.sec.pkeyPtr.toNat then 0 else s.sec.pkeyPtr + 1) ∧ t.sec.tenants = s.sec.tenants ∧ s.changesOnly t [.sec, .adk])

/-- The installer window, the presence button, the seal and the maker jumper. INST_REQ opens the installer window for ten
seconds from now, INST_END closes it, and so does its end. A level of the button, the loop or the jumper counts once it has
been stable for 20 ms of fabric time while SD0 runs, and not before. The presence bit follows the button. A seal loop seen
open blows the seal fuse, grants the maker role where the jumper is fitted, and is logged; the loop closed ends the maker
role, and the fuse stays blown. Outside what they name, these change nothing. -/
def Obligations.RolesOfTheInstallerAndTheMaker : Prop :=
  (∀ (s : State) (tag : BitVec 16), s.writes tag (secAddr 8) 1 .operator →
    ∃ t, exec (.instReq tag) s = .next t ∧ t.responded tag stOk ∧ t.sec.instEnd = some (s.now + 10 * secT) ∧ t.sec.pres = s.sec.pres ∧ t.sec.maker = s.sec.maker ∧ t.sec.tenants = s.sec.tenants ∧ t.sec.banks = s.sec.banks ∧ t.sec.svnMin = s.sec.svnMin ∧ s.changesOnly t [.sec, .adk])
  ∧ (∀ (s : State) (tag : BitVec 16), s.writes tag (secAddr 8) 2 .operator →
    ∃ t, exec (.instEnd tag) s = .next t ∧ t.responded tag stOk ∧ t.sec.instEnd = none ∧ t.sec.pres = s.sec.pres ∧ t.sec.maker = s.sec.maker ∧ t.sec.tenants = s.sec.tenants ∧ t.sec.banks = s.sec.banks ∧ t.sec.svnMin = s.sec.svnMin ∧ s.changesOnly t [.sec, .adk])
  ∧ (∀ (s : State) (e : FT), s.sec.instEnd = some e → e ≤ s.now →
    ∃ t, exec .installerWindowExpiry s = .next t ∧ t.sec = { s.sec with instEnd := none } ∧ s.changesOnly t [.sec])
  ∧ (∀ (s : State) (e : FT), s.sec.instEnd = some e → s.now < e → exec .installerWindowExpiry s = .next s)
  ∧ (∀ (s : State) (since : BitVec 64), s.sd0Runs = true → s.stable since debounceT = true →
    ∃ t, exec (.presBtnAssert since) s = .next t ∧ t.sec = { s.sec with pres := true } ∧ s.changesOnly t [.sec])
  ∧ (∀ (s : State) (since : BitVec 64), s.sd0Runs = true → s.stable since debounceT = true →
    ∃ t, exec (.presBtnRelease since) s = .next t ∧ t.sec = { s.sec with pres := false } ∧ t.holdsRole .installer = false ∧ s.changesOnly t [.sec])
  ∧ (∀ (s : State) (since : BitVec 64), s.sd0Runs = true → s.stable since debounceT = true → s.sec.sealOpen = false →
    ∃ t, exec (.sealLoopOpen since) s = .next t ∧ t.sec.sealOpen = true ∧ t.sec.sealFuse = true ∧ t.sec.maker = s.sec.jmp ∧ t.sec.instEnd = s.sec.instEnd ∧ t.sec.tenants = s.sec.tenants ∧ t.sec.banks = s.sec.banks ∧ t.sec.svnMin = s.sec.svnMin
      ∧ (∃ x ∈ t.log.entries, x.2.cls = 0x57 ∧ x.2.detail.toNat = b2n s.sec.jmp ∧ x.2.src = srcSD 0) ∧ s.changesOnly t [.sec, .log, .evq, .adk])
  ∧ (∀ (s : State) (since : BitVec 64), s.sd0Runs = true → s.stable since debounceT = true →
    ∃ t, exec (.sealLoopClose since) s = .next t ∧ t.sec = { s.sec with sealOpen := false, maker := false } ∧ t.sec.sealFuse = s.sec.sealFuse ∧ s.changesOnly t [.sec])
  ∧ (∀ (s : State) (fitted : Bool) (since : BitVec 64), s.sd0Runs = true → s.stable since debounceT = true →
    ∃ t, exec (.makerJmpChange fitted since) s = .next t ∧ t.sec = { s.sec with jmp := fitted, maker := fitted && s.sec.sealOpen } ∧ s.changesOnly t [.sec])
  ∧ (∀ (s : State) (fitted : Bool) (since : BitVec 64), s.sd0Runs = false ∨ s.stable since debounceT = false → exec (.makerJmpChange fitted since) s = .next s)
  ∧ (∀ (s : State) (since : BitVec 64), s.sd0Runs = false ∨ s.stable since debounceT = false →
    exec (.presBtnAssert since) s = .next s ∧ exec (.presBtnRelease since) s = .next s ∧ exec (.sealLoopOpen since) s = .next s ∧ exec (.sealLoopClose since) s = .next s)

/-- Firmware is verified and committed to the other bank, and the module attests itself. VERIFY of a staged package starts the
check; its end leaves the area VERIFIED or EMPTY, with the error of the first check that failed. COMMIT by the installer of
a verified package that is not older than the minimum starts the write; its end puts the package in the bank that does not
run and empties the area; a failed write leaves both banks (log 33). RAISE_MIN raises the minimum to the version that runs.
REPORT places the report, signed, in the window, and IDKEY the identity key. SHA3-256 is computed; verification and
signatures are constants without a value (log 12). -/
def Obligations.FirmwareAndAttestation : Prop :=
  (∀ (s : State) (tag : BitVec 16), s.writes tag (secAddr 0x108) 1 .operator → s.sec.fwStage = .staged → s.sec.fwVerifying = false →
    ∃ t, exec (.fwVerify tag) s = .next t ∧ t.responded tag stOk ∧ t.sec.fwVerifying = true ∧ t.sec.fwStage = .staged ∧ t.sec.fwBytes = s.sec.fwBytes ∧ t.sec.fwResult = stOk ∧ t.sec.banks = s.sec.banks ∧ t.sec.bank = s.sec.bank ∧ s.changesOnly t [.sec, .adk])
  ∧ (∀ (s : State) (tag : BitVec 16), s.writes tag (secAddr 0x108) 1 .operator → (s.sec.fwStage ≠ .staged ∨ s.sec.fwVerifying = true) →
    ∃ t, exec (.fwVerify tag) s = .next t ∧ t.responded tag stDenied ∧ t.sec.fwVerifying = s.sec.fwVerifying ∧ t.sec.fwStage = s.sec.fwStage ∧ t.sec.fwResult = stDenied ∧ t.sec.banks = s.sec.banks ∧ t.sec.bank = s.sec.bank ∧ s.changesOnly t [.sec, .adk])
  ∧ (∀ s : State, s.sd0Runs = true → s.sec.fwVerifying = true →
    ∃ t, exec .fwVerifyDone s = .next t ∧ t.sec.fwVerifying = false ∧ t.sec.fwErr = BitVec.ofNat 2 s.fwError ∧ t.sec.fwStage = (if s.fwError = 0 then .verified else .empty)
      ∧ t.sec.fwBytes = (if s.fwError = 0 then s.sec.fwBytes else []) ∧ t.sec.banks = s.sec.banks ∧ t.sec.svnMin = s.sec.svnMin ∧ s.changesOnly t [.sec])
  ∧ (∀ s : State, s.sec.fwVerifying = false → exec .fwVerifyDone s = .next s)
  ∧ (∀ (s : State) (tag : BitVec 16), s.writes tag (secAddr 0x108) 2 .installer → s.sec.fwStage = .verified → s.sec.fwCommitting = false → s.sec.svnMin.toNat ≤ s.fwSvn →
    ∃ t, exec (.fwCommit tag) s = .next t ∧ t.responded tag stOk ∧ t.sec.fwCommitting = true ∧ t.sec.fwStage = .verified ∧ t.sec.fwBytes = s.sec.fwBytes ∧ t.sec.fwResult = stOk ∧ t.sec.banks = s.sec.banks ∧ t.sec.bank = s.sec.bank ∧ s.changesOnly t [.sec, .adk])
  ∧ (∀ (s : State) (tag : BitVec 16), s.writes tag (secAddr 0x108) 2 .installer → (s.sec.fwStage ≠ .verified ∨ s.fwSvn < s.sec.svnMin.toNat) →
    ∃ t, exec (.fwCommit tag) s = .next t ∧ t.responded tag stDenied ∧ t.sec.fwCommitting = s.sec.fwCommitting ∧ t.sec.fwStage = s.sec.fwStage ∧ t.sec.fwResult = stDenied ∧ t.sec.banks = s.sec.banks ∧ t.sec.bank = s.sec.bank ∧ s.changesOnly t [.sec, .adk])
  ∧ (∀ s : State, s.sd0Runs = true → s.sec.fwCommitting = true →
    ∃ t, exec (.fwCommitDone true) s = .next t ∧ t.sec.fwCommitting = false ∧ t.sec.fwStage = .empty ∧ t.sec.fwResult = stOk ∧ t.sec.bank = s.sec.bank
      ∧ (Table.read ({} : FwBank) t.sec.banks (1 - b2n s.sec.bank)) = { svn := s.fwSvn, ok := true, digs := s.sec.fwBytes.bytes 16 96 } ∧ t.runBank = s.runBank ∧ s.changesOnly t [.sec])
  ∧ (∀ s : State, s.sd0Runs = true → s.sec.fwCommitting = true →
    ∃ t, exec (.fwCommitDone false) s = .next t ∧ t.sec.fwCommitting = false ∧ t.sec.fwStage = s.sec.fwStage ∧ t.sec.banks = s.sec.banks ∧ t.sec.bank = s.sec.bank ∧ s.changesOnly t [.sec, .free])
  ∧ (∀ (s : State) (tag : BitVec 16), s.writes tag (secAddr 0x108) 3 .installer →
    ∃ t, exec (.fwRaiseMin tag) s = .next t ∧ t.responded tag stOk ∧ t.sec.svnMin = BitVec.ofNat 8 s.runBank.svn ∧ t.sec.fwStage = s.sec.fwStage ∧ t.sec.fwResult = stOk ∧ t.sec.banks = s.sec.banks ∧ t.sec.bank = s.sec.bank ∧ s.changesOnly t [.sec, .adk])
  ∧ (∀ (s : State) (tag : BitVec 16), s.writes tag (secAddr 0x160) 1 .operator →
    ∃ t, exec (.attReport tag) s = .next t ∧ t.responded tag stOk ∧ t.sec.attReady = true ∧ t.sec.attLen.toNat = 2676 ∧ t.sec.attWin.bytes 0 256 = s.reportBody
      ∧ t.sec.attWin.bytes 256 2420 = (List.range 2420).map (Config.signByte (sha3 s.reportBody)) ∧ t.sec.banks = s.sec.banks ∧ s.changesOnly t [.sec, .adk])
  ∧ (∀ (s : State) (tag : BitVec 16), s.writes tag (secAddr 0x160) 2 .operator →
    ∃ t, exec (.attIdkey tag) s = .next t ∧ t.responded tag stOk ∧ t.sec.attReady = true ∧ t.sec.attLen.toNat = 1312 ∧ t.sec.attWin.bytes 0 1312 = (List.range 1312).map Config.identityByte ∧ t.sec.banks = s.sec.banks ∧ s.changesOnly t [.sec, .adk])

/-- Temperatures, patrol scrub and engine self-tests. A sample stores the temperature and the voltage of a die; at the throttle
threshold the die goes to level 1, and two samples running at 105 degrees enter HALT. A die still hot after a millisecond at
level 1 goes to level 2, and one cool for ten milliseconds falls one level (log 38). A patrol window that finds nothing
changes only its time; a codeword corrected is counted, and a line of T0 that cannot be corrected is poisoned. A self-test
slot takes the engine of its rotation in each cluster that runs, or skips one with commands queued and keeps it for a later
slot (log 94); the end of a run of one engine lets it go and takes up the next pattern, and a mismatch raises the suspect
count of the engine and is logged. A window or a slot acts when its class is due and no class of a lower number is due in
the same slot (R47). -/
def Obligations.DiesAreWatched : Prop :=
  (∀ (s : State) (site : BitVec 6) (temp : BitVec 8) (vdd : BitVec 16), s.mod.state ≠ .off → s.mod.state ≠ .halt → ((s.die site.toNat).sampledAt = 0 ∨ (s.die site.toNat).sampledAt + 100 * usT ≤ s.now) → temp.toInt < 105 → ((s.die site.toNat).level ≠ 0 ∨ temp.toInt < s.log.throttleC.toInt) →
    ∃ t, exec (.thermalSample site temp vdd) s = .next t ∧ (t.die site.toNat).temp = temp ∧ (t.die site.toNat).vdd = vdd ∧ (t.die site.toNat).sampledAt = s.now ∧ (t.die site.toNat).hotRun = 0 ∧ (t.die site.toNat).level = (s.die site.toNat).level ∧ (∀ i, i ≠ site.toNat → t.die i = s.die i) ∧ t.mod = s.mod ∧ s.changesOnly t [.log, .evq, .adk])
  ∧ (∀ (s : State) (site : BitVec 6) (temp : BitVec 8) (vdd : BitVec 16), s.mod.state ≠ .off → s.mod.state ≠ .halt → ((s.die site.toNat).sampledAt = 0 ∨ (s.die site.toNat).sampledAt + 100 * usT ≤ s.now) → temp.toInt < 105 → (s.die site.toNat).level = 0 → s.log.throttleC.toInt ≤ temp.toInt →
    ∃ t, exec (.thermalSample site temp vdd) s = .next t ∧ (t.die site.toNat).temp = temp ∧ (t.die site.toNat).level = 1 ∧ (t.die site.toNat).levelAt = s.now ∧ (∀ i, i ≠ site.toNat → t.die i = s.die i) ∧ t.mod = s.mod ∧ (∃ x ∈ t.log.entries, x.2.cls = 0x0D ∧ x.2.detail = 1 ∧ x.2.src = s.dieSrc site.toNat) ∧ s.changesOnly t [.log, .evq, .adk])
  ∧ (∀ (s : State) (site : BitVec 6) (temp : BitVec 8) (vdd : BitVec 16), s.mod.state ≠ .off → s.mod.state ≠ .halt → ((s.die site.toNat).sampledAt = 0 ∨ (s.die site.toNat).sampledAt + 100 * usT ≤ s.now) → 105 ≤ temp.toInt → 1 ≤ (s.die site.toNat).hotRun →
    ∃ t, exec (.thermalSample site temp vdd) s = .next t ∧ t.mod.state = .halt ∧ t.mod.cause = 0x0D ∧ (t.die site.toNat).temp = temp ∧ t.tim = s.tim ∧ t.glb.capW = s.glb.capW)
  ∧ (∀ (s : State) (site : BitVec 6) (temp : BitVec 8) (vdd : BitVec 16), (s.die site.toNat).sampledAt ≠ 0 → s.now < (s.die site.toNat).sampledAt + 100 * usT → exec (.thermalSample site temp vdd) s = .next s)
  ∧ (∀ (s : State) (site : BitVec 6), s.mod.state ≠ .off → (s.die site.toNat).level = 1 → s.log.throttleC.toInt ≤ (s.die site.toNat).temp.toInt → (s.die site.toNat).levelAt + msT ≤ s.now →
    ∃ t, exec (.thermalEscalate site) s = .next t ∧ (t.die site.toNat) = { (s.die site.toNat) with level := 2 } ∧ (∀ i, i ≠ site.toNat → t.die i = s.die i) ∧ (∃ x ∈ t.log.entries, x.2.cls = 0x0D ∧ x.2.detail = 2 ∧ x.2.src = s.dieSrc site.toNat) ∧ s.changesOnly t [.log, .evq, .adk])
  ∧ (∀ (s : State) (site : BitVec 6), (s.die site.toNat).temp.toInt < s.log.throttleC.toInt → exec (.thermalEscalate site) s = .next s)
  ∧ (∀ (s : State) (site : BitVec 6), s.mod.state ≠ .off → 0 < (s.die site.toNat).level.toNat → (s.die site.toNat).hotAt + 10 * msT ≤ s.now →
    ∃ t, exec (.thermalLevelDecay site) s = .next t ∧ (t.die site.toNat).level.toNat = (s.die site.toNat).level.toNat - 1 ∧ (t.die site.toNat).temp = (s.die site.toNat).temp ∧ (∀ i, i ≠ site.toNat → t.die i = s.die i) ∧ (∃ x ∈ t.log.entries, x.2.cls = 0x0D ∧ x.2.detail = BitVec.ofNat 8 ((s.die site.toNat).level.toNat - 1) ∧ x.2.src = s.dieSrc site.toNat) ∧ s.changesOnly t [.log, .evq, .adk])
  ∧ (∀ s : State, s.alive = true → s.periodDue 3 = true → s.inTurn 3 (s.periodAt 3) = true →
    ∃ t, exec (.scrubWindow []) s = .next t ∧ t.tim = { s.tim with lastScrub := s.now, owed := Table.write false s.tim.owed 3 false } ∧ s.changesOnly t [.tim])
  ∧ (∀ (s : State) (h : EccHit), s.alive = true → s.periodDue 3 = true → s.inTurn 3 (s.periodAt 3) = true → 1 ≤ h.symbols.toNat → h.symbols.toNat ≤ 2 → s.log.cntCe.toNat + 2 < 2 ^ 64 →
    ∃ t, exec (.scrubWindow [h]) s = .next t ∧ t.log.cntCe = s.log.cntCe + 1 ∧ t.tier = s.tier ∧ t.ext = s.ext ∧ t.cpu = s.cpu ∧ t.mod = s.mod ∧ s.changesOnly t [.tim, .log, .evq, .adk])
  ∧ (∀ (s : State) (h : EccHit), s.alive = true → s.periodDue 3 = true → s.inTurn 3 (s.periodAt 3) = true → 3 ≤ h.symbols.toNat → h.symbols.toNat ≤ 4 → h.what = 0 → s.log.cntUe.toNat + 2 < 2 ^ 64 →
    ∃ t, exec (.scrubWindow [h]) s = .next t ∧ t.log.cntUe = s.log.cntUe + 1 ∧ t.linePoison h.index = true ∧ t.mod = s.mod ∧ t.cpu = s.cpu)
  ∧ (∀ (s : State) (cl : Nat), s.alive = true → s.periodDue 5 = true → s.inTurn 5 (s.periodAt 5) = true → s.log.stestEn = true → s.log.passLeft = [] → cl < 128 → s.clusterUp cl = true →
    Table.read [] s.log.testing cl = [] → Table.read [] s.log.skipped cl = [] → (s.engine (rotationAt cl (Table.read 0 s.log.rotation cl % 32)).1 (rotationAt cl (Table.read 0 s.log.rotation cl % 32)).2).queue = [] →
    ∃ t, exec .selfTestSlot s = .next t ∧ Table.read [] t.log.testing cl = [(Table.read 0 s.log.rotation cl % 32)] ∧ (t.engine (rotationAt cl (Table.read 0 s.log.rotation cl % 32)).1 (rotationAt cl (Table.read 0 s.log.rotation cl % 32)).2).testing = true
      ∧ Table.read 0 t.log.rotation cl = (Table.read 0 s.log.rotation cl + 1) % 32 ∧ t.tim = { s.tim with lastSelf := s.now, owed := Table.write false s.tim.owed 5 false } ∧ s.changesOnly t [.tim, .cpu, .log])
  ∧ (∀ (s : State) (cl : Nat), s.alive = true → s.periodDue 5 = true → s.inTurn 5 (s.periodAt 5) = true → s.log.stestEn = true → s.log.passLeft = [] → cl < 128 → s.clusterUp cl = true →
    Table.read [] s.log.testing cl = [] → Table.read [] s.log.skipped cl = [] → (s.engine (rotationAt cl (Table.read 0 s.log.rotation cl % 32)).1 (rotationAt cl (Table.read 0 s.log.rotation cl % 32)).2).queue ≠ [] →
    ∃ t, exec .selfTestSlot s = .next t ∧ Table.read [] t.log.testing cl = [] ∧ Table.read [] t.log.skipped cl = [(Table.read 0 s.log.rotation cl % 32)] ∧ (t.engine (rotationAt cl (Table.read 0 s.log.rotation cl % 32)).1 (rotationAt cl (Table.read 0 s.log.rotation cl % 32)).2) = (s.engine (rotationAt cl (Table.read 0 s.log.rotation cl % 32)).1 (rotationAt cl (Table.read 0 s.log.rotation cl % 32)).2)
      ∧ Table.read 0 t.log.rotation cl = (Table.read 0 s.log.rotation cl + 1) % 32 ∧ t.tim = { s.tim with lastSelf := s.now, owed := Table.write false s.tim.owed 5 false } ∧ s.changesOnly t [.tim, .cpu, .log])
  ∧ (∀ s : State, s.periodDue 5 = false → exec .selfTestSlot s = .next s)
  ∧ (∀ (s : State) (cluster : BitVec 7) (r p : Nat), s.alive = true → Table.read [] s.log.testing cluster.toNat = [r] → r < 32 → nextPattern s.log.patEn (Table.read 0 s.log.pattern cluster.toNat) (rotationAt cluster.toNat r).2 = some p →
    ∃ t, exec (.selfTestComplete cluster false) s = .next t ∧ Table.read [] t.log.testing cluster.toNat = [] ∧ Table.read 0 t.log.pattern cluster.toNat = p
      ∧ (t.engine (rotationAt cluster.toNat r).1 (rotationAt cluster.toNat r).2).testing = false ∧ (t.engine (rotationAt cluster.toNat r).1 (rotationAt cluster.toNat r).2).queue = (s.engine (rotationAt cluster.toNat r).1 (rotationAt cluster.toNat r).2).queue ∧ (t.engine (rotationAt cluster.toNat r).1 (rotationAt cluster.toNat r).2).suspect = (s.engine (rotationAt cluster.toNat r).1 (rotationAt cluster.toNat r).2).suspect ∧ t.log.entries = s.log.entries
      ∧ t.cpu.spad = s.cpu.spad ∧ s.changesOnly t [.cpu, .log])
  ∧ (∀ (s : State) (cluster : BitVec 7) (r p : Nat), s.alive = true → Table.read [] s.log.testing cluster.toNat = [r] → r < 32 → nextPattern s.log.patEn (Table.read 0 s.log.pattern cluster.toNat) (rotationAt cluster.toNat r).2 = some p →
    ∃ t, exec (.selfTestComplete cluster true) s = .next t ∧ Table.read [] t.log.testing cluster.toNat = [] ∧ Table.read 0 t.log.pattern cluster.toNat = p
      ∧ (t.engine (rotationAt cluster.toNat r).1 (rotationAt cluster.toNat r).2).testing = false ∧ (t.engine (rotationAt cluster.toNat r).1 (rotationAt cluster.toNat r).2).suspect = min 15 ((s.engine (rotationAt cluster.toNat r).1 (rotationAt cluster.toNat r).2).suspect + 1)
      ∧ (∃ x ∈ t.log.entries, x.2.cls = 0x0F ∧ x.2.src = srcK (rotationAt cluster.toNat r).1) ∧ s.changesOnly t [.cpu, .log, .evq, .adk])

/-- Audits fence what disagrees, margins are judged, and the log and the events are read. An audit that finds nothing forgets
the runs of disagreement; a unit that disagrees gains one, and at its fourth running it is fenced and logged.
LOG_FENCE.UNFENCE ends the fence of a unit that agrees again, and is DENIED of one that does not. A margin at its FAIL
threshold is state 2 and logged; one above both with its hysteresis is state 0. The installer clears the log. LOGRD answers
the entries from a sequence number with the oldest one held. Events leave in one frame, up to sixteen and to the credit, and
stay in the queue until acknowledged. -/
def Obligations.AuditMarginsLogAndEvents : Prop :=
  (∀ s : State, s.alive = true → s.log.lastAudit + s.log.auditUs.toNat * usT ≤ s.now →
    ∃ t, exec (.auditSample []) s = .next t ∧ t.log = { s.log with lastAudit := s.now, disagree := [] } ∧ s.changesOnly t [.log])
  ∧ (∀ (s : State) (x : BitVec 4 × BitVec 24), s.alive = true → s.log.lastAudit + s.log.auditUs.toNat * usT ≤ s.now → 1 ≤ x.1.toNat → x.1.toNat ≤ 6 → Table.read 0 s.log.disagree (2 ^ 24 * x.1.toNat + x.2.toNat) < 3 →
    ∃ t, exec (.auditSample [x]) s = .next t ∧ Table.read 0 t.log.disagree (2 ^ 24 * x.1.toNat + x.2.toNat) = Table.read 0 s.log.disagree (2 ^ 24 * x.1.toNat + x.2.toNat) + 1 ∧ t.log.fenced = s.log.fenced ∧ t.log.lastAudit = s.now ∧ s.changesOnly t [.log])
  ∧ (∀ (s : State) (x : BitVec 4 × BitVec 24), s.alive = true → s.log.lastAudit + s.log.auditUs.toNat * usT ≤ s.now → 1 ≤ x.1.toNat → x.1.toNat ≤ 6 → Table.read 0 s.log.disagree (2 ^ 24 * x.1.toNat + x.2.toNat) = 3 → s.isFenced x.1.toNat x.2.toNat = false →
    ∃ t, exec (.auditSample [x]) s = .next t ∧ t.isFenced x.1.toNat x.2.toNat = true ∧ (∃ e ∈ t.log.entries, e.2.cls = 0x11 ∧ e.2.detail.toNat = x.1.toNat ∧ e.2.src = fenceSrc x.1.toNat x.2.toNat) ∧ s.changesOnly t [.log, .evq, .adk, .free])
  ∧ (∀ (s : State) (tag : BitVec 16), s.writes tag (logAddr 0xA0) 2 .operator → s.log.fenceKind.toNat ≤ 6 → Table.read 0 s.log.disagree (2 ^ 24 * s.log.fenceKind.toNat + s.log.fenceIdx.toNat) = 0 → s.isFenced s.log.fenceKind.toNat s.log.fenceIdx.toNat = true → s.evq.mask.getLsbD 0x5A = false → s.evq.lost = 0 → s.evq.queue.length < 4096 →
    ∃ t, exec (.logUnfence tag) s = .next t ∧ t.responded tag stOk ∧ t.isFenced s.log.fenceKind.toNat s.log.fenceIdx.toNat = false ∧ (∀ k, k ≠ (2 ^ 24 * s.log.fenceKind.toNat + s.log.fenceIdx.toNat) → Table.read false t.log.fenced k = Table.read false s.log.fenced k) ∧ t.log.entries = s.log.entries
      ∧ t.evq.queue = s.evq.queue ++ [s.mkEvent 0x5A s.log.fenceKind.toNat (fenceSrc s.log.fenceKind.toNat s.log.fenceIdx.toNat) s.log.fenceIdx.toNat 0xFFFFFFFF] ∧ s.changesOnly t [.log, .adk, .evq])
  ∧ (∀ (s : State) (tag : BitVec 16), s.writes tag (logAddr 0xA0) 2 .operator → Table.read 0 s.log.disagree (2 ^ 24 * s.log.fenceKind.toNat + s.log.fenceIdx.toNat) ≠ 0 →
    ∃ t, exec (.logUnfence tag) s = .next t ∧ t.responded tag stDenied ∧ t.log = s.log ∧ s.changesOnly t [.adk])
  ∧ (∀ (s : State) (m : Measure) (v : BitVec 16) (held : BitVec 32), s.alive = true → s.periodDue 6 = true → s.inTurn 6 (s.periodAt 6) = true → m.kind.toNat ≤ 4 → m.value = some v → v.toInt ≤ (s.marginTh m.kind.toNat).2.toInt →
    ∃ t, exec (.marginScan [m] held) s = .next t ∧ (Table.read ({} : Margin) t.log.margins (65536 * m.kind.toNat + m.index.toNat)).last = v ∧ (Table.read ({} : Margin) t.log.margins (65536 * m.kind.toNat + m.index.toNat)).state = 2 ∧ (Table.read ({} : Margin) t.log.margins (65536 * m.kind.toNat + m.index.toNat)).seen = true ∧ t.tim.lastMargin = s.now ∧ (∀ k, k ≠ (65536 * m.kind.toNat + m.index.toNat) → Table.read ({} : Margin) t.log.margins k = Table.read ({} : Margin) s.log.margins k)
      ∧ t.mod.optPulse = (if held = 0 then s.mod.optPulse else s.now + msT) ∧ t.mod.state = s.mod.state ∧ s.changesOnly t [.tim, .log, .mod, .adk, .evq])
  ∧ (∀ (s : State) (m : Measure) (v : BitVec 16) (held : BitVec 32), s.alive = true → s.periodDue 6 = true → s.inTurn 6 (s.periodAt 6) = true → m.kind.toNat ≤ 4 → m.value = some v → (s.marginTh m.kind.toNat).2.toInt < v.toInt → (s.marginTh m.kind.toNat).1.toInt < v.toInt → marginBack (s.marginTh m.kind.toNat).1.toInt s.log.hystPct.toNat ≤ v.toInt →
    ∃ t, exec (.marginScan [m] held) s = .next t ∧ (Table.read ({} : Margin) t.log.margins (65536 * m.kind.toNat + m.index.toNat)).last = v ∧ (Table.read ({} : Margin) t.log.margins (65536 * m.kind.toNat + m.index.toNat)).state = 0 ∧ t.mod.state = s.mod.state ∧ s.changesOnly t [.tim, .log, .mod, .adk, .evq])
  ∧ (∀ (s : State) (tag : BitVec 16), s.writes tag (logAddr 0x30) 1 .installer →
    ∃ t, exec (.logClear tag) s = .next t ∧ t.responded tag stOk ∧ t.log = { s.log with entries := [] } ∧ s.changesOnly t [.log, .adk])
  ∧ (∀ (s : State) (tag len : BitVec 16) (addr : BitVec 48) (e : Nat × LogEntry) (rest : List (Nat × LogEntry)), s.performs { ty := 4, status := 0, tag := tag, addr := addr, len := len.toNat, words := [] } → logForm addr.toNat len.toNat = true → s.log.entries = e :: rest →
    ∃ t, exec (.logrd tag addr len) s = .next t ∧ t.responded tag stOk ∧ (∃ x ∈ t.adk.kept, x.1 = tag.toNat ∧ x.2.2.words = s.logWords (addr.toNat % 2 ^ 32) (len.toNat / 4) ∧ x.2.2.addr = BitVec.ofNat 48 e.1) ∧ s.changesOnly t [.adk])
  ∧ (∀ s : State, s.adk.state = .up → s.adk.outq = [] → s.adk.unacked.length < 64 → 0 < (min (min 16 (s.adk.evInit + s.adk.evCredit - s.adk.evSent).toNat) (s.evq.queue.length - s.evq.sent)) →
    ∃ t, exec .eventSend s = .next t ∧ t.evq.sent = s.evq.sent + (min (min 16 (s.adk.evInit + s.adk.evCredit - s.adk.evSent).toNat) (s.evq.queue.length - s.evq.sent)) ∧ t.evq.queue = s.evq.queue ∧ t.adk.evSent = s.adk.evSent + BitVec.ofNat 16 (min (min 16 (s.adk.evInit + s.adk.evCredit - s.adk.evSent).toNat) (s.evq.queue.length - s.evq.sent)) ∧ t.adk.txSeq = s.adk.txSeq + 1
      ∧ t.adk.unacked = s.adk.unacked ++ [(s.adk.txSeq, { ty := 0x90, status := 0, tag := 0, addr := 0, len := 4 * (min (min 16 (s.adk.evInit + s.adk.evCredit - s.adk.evSent).toNat) (s.evq.queue.length - s.evq.sent)), words := ((s.evq.queue.drop s.evq.sent).take (min (min 16 (s.adk.evInit + s.adk.evCredit - s.adk.evSent).toNat) (s.evq.queue.length - s.evq.sent))).flatMap Event.words })] ∧ s.changesOnly t [.adk, .evq])
  ∧ (∀ s : State, s.adk.state ≠ .up → exec .eventSend s = .next s)

/-- The states of the module: boot, test, service, drain, recovery and warm restart. The steps of boot and test advance one by
one, and a step that fails twice, or a router that fails, ends in HALT. MOD_CMD.SERVICE is accepted in TEST when done, and
in RECOVERY at step 6, with FT locked: leases are armed and every program starts; DRAIN from SERVICE disarms the leases and
revokes the extents; RECOVER from SERVICE or DRAIN starts recovery; elsewhere each is DENIED and changes nothing. WARM in
any powered state starts BOOT again, keeps FT and the log, and loses the rest. -/
def Obligations.StatesOfTheModule : Prop :=
  (∀ (s : State) (tag : BitVec 16), s.writes tag modCmdAddr 1 .operator → s.serviceAllowed = true → s.glb.makerMode = 0 →
    ∃ t, exec (.modService tag) s = .next t ∧ t.responded tag stOk ∧ t.mod.state = .service ∧ t.mod.prev = s.mod.state ∧ t.mod.result = stOk ∧ t.cpu = s.startPrograms.cpu
      ∧ (∀ i, (s.lease i).state = .unarmed → t.lease i = { s.lease i with state := .armed, expiry := s.leaseEnd (s.lease i) })
      ∧ (∀ i, (s.lease i).state ≠ .unarmed → t.lease i = s.lease i) ∧ t.ext = s.ext ∧ t.ports = s.ports ∧ t.comp = s.comp ∧ s.changesOnly t [.lse, .cpu, .mod, .glb, .log, .evq, .adk])
  ∧ (∀ (s : State) (tag : BitVec 16), s.writes tag modCmdAddr 1 .operator → s.serviceAllowed = false →
    ∃ t, exec (.modService tag) s = .next t ∧ t.responded tag stDenied ∧ t.mod = { s.mod with result := stDenied } ∧ s.changesOnly t [.mod, .adk])
  ∧ (∀ (s : State) (tag : BitVec 16), s.writes tag modCmdAddr 2 .operator → s.mod.state = .service → s.quiet → s.tier.moves = [] → s.tier.trays = [] → s.tier.reqs = [] → s.tier.makeRoom = [] → s.req.fences = [] → s.req.held = [] → s.xl.walks = [] →
    ∃ t, exec (.modDrain tag) s = .next t ∧ t.responded tag stOk ∧ t.mod.state = .drain ∧ t.mod.prev = .service ∧ t.mod.drainStep = 2 ∧ t.mod.lostSect = 0 ∧ t.mod.ready = s.mod.ready
      ∧ (∀ i, (s.lease i).state = .armed → (t.lease i).state = .unarmed) ∧ (∀ e, (s.extent e).state = .active → (t.extent e).state = .revoking) ∧ s.changesOnly t [.free, .hb, .pkg, .tim, .ports, .bridles, .req, .coh, .ext, .lse, .adm, .tier, .xl, .cmp, .cpu, .clv, .atn, .comp, .sec, .log, .mod, .adk, .evq, .glb])
  ∧ (∀ (s : State) (tag : BitVec 16), s.writes tag modCmdAddr 2 .operator → s.mod.state ≠ .service →
    ∃ t, exec (.modDrain tag) s = .next t ∧ t.responded tag stDenied ∧ t.mod = { s.mod with result := stDenied } ∧ s.changesOnly t [.mod, .adk])
  ∧ (∀ (s : State) (tag : BitVec 16), s.writes tag modCmdAddr 3 .operator → s.mod.state = .service → s.quiet → s.tier.moves = [] → s.tier.trays = [] → s.tier.reqs = [] → s.tier.makeRoom = [] → s.req.fences = [] → s.req.held = [] → s.xl.walks = [] →
    ∃ t, exec (.modRecover tag) s = .next t ∧ t.responded tag stOk ∧ t.mod.state = .recovery ∧ t.mod.prev = .service ∧ t.mod.cause = 0x40 ∧ t.log.rcvCause = 0x40 ∧ t.log.rcvStep = 1 ∧ (∃ x ∈ t.log.entries, x.2.cls = 0x17 ∧ x.2.detail = 1 ∧ x.2.src = srcModule)
      ∧ (∀ i, (s.lease i).state = .armed → (t.lease i).state = .unarmed) ∧ t.ext = s.ext ∧ s.changesOnly t [.free, .hb, .pkg, .tim, .ports, .bridles, .req, .coh, .ext, .lse, .adm, .tier, .xl, .cmp, .cpu, .clv, .atn, .comp, .sec, .log, .mod, .adk, .evq, .glb])
  ∧ (∀ (s : State) (tag : BitVec 16), s.writes tag modCmdAddr 3 .operator → s.mod.state ≠ .service → (s.mod.state ≠ .drain ∨ s.mod.ready = true) →
    ∃ t, exec (.modRecover tag) s = .next t ∧ t.responded tag stDenied ∧ t.mod = { s.mod with result := stDenied } ∧ s.changesOnly t [.mod, .adk])
  ∧ (∀ (s : State) (tag : BitVec 16), s.writes tag modCmdAddr 4 .operator →
    ∃ t, exec (.modWarm tag) s = .next t ∧ t.mod.state = .boot ∧ t.mod.bootStep = 1 ∧ t.now = s.now ∧ t.tim.state = s.tim.state ∧ t.adk.state = .training ∧ t.evq.mask = State.reset.evq.mask
      ∧ t.ext = State.reset.ext ∧ t.tier = State.reset.tier ∧ t.cpu = State.reset.cpu ∧ t.comp = State.reset.comp ∧ t.req = State.reset.req ∧ t.ports = State.reset.ports ∧ t.lse = State.reset.lse
      ∧ t.sec.banks = s.sec.banks ∧ t.sec.svnMin = s.sec.svnMin ∧ t.sec.sealFuse = s.sec.sealFuse ∧ t.sec.tenants = [] ∧ t.pending = s.pending)
  ∧ (∀ (s : State) (report : BootReport), s.mod.state = .boot → s.mod.bootStep = 0 →
    ∃ t, exec (.bootStepComplete report) s = .next t ∧ t.mod = { s.mod with bootStep := 1 } ∧ t.adk.state = .training ∧ s.changesOnly t [.mod, .adk])
  ∧ (∀ (s : State) (report : BootReport), s.mod.state = .boot → s.mod.bootStep = 1 → report.ok = true → report.bank0 = true → report.bank1 = false → s.sec.svnMin.toNat ≤ (Table.read ({} : FwBank) s.sec.banks 0).svn →
    ∃ t, exec (.bootStepComplete report) s = .next t ∧ t.mod.bootStep = 2 ∧ t.mod.state = .boot ∧ t.sec.bank = false ∧ (Table.read ({} : FwBank) t.sec.banks 0).ok = true ∧ (Table.read ({} : FwBank) t.sec.banks 1).ok = false ∧ s.changesOnly t [.mod, .sec])
  ∧ (∀ (s : State) (report : BootReport), s.mod.state = .boot → s.mod.bootStep = 1 → report.bank0 = false → report.bank1 = false →
    ∃ t, exec (.bootStepComplete report) s = .next t ∧ t.mod.state = .halt ∧ t.mod.cause = 0x13)
  ∧ (∀ (s : State) (report : BootReport) (m : List (BitVec 6)), s.mod.state = .boot → s.mod.bootStep = 2 → report.ok = true → report.sealOpen = false → s.pkg.spareSlots = [(m, mapCrc m)] → mapValid m = true →
    ∃ t, exec (.bootStepComplete report) s = .next t ∧ t.mod.bootStep = 3 ∧ t.pkg.lcMap = m ∧ t.glb.spareUse = 0 ∧ t.spareEntries = m ∧ t.sec.jmp = report.jumper ∧ t.sec.sealFuse = s.sec.sealFuse ∧ s.changesOnly t [.mod, .pkg, .glb, .sec])
  ∧ (∀ (s : State) (report : BootReport), s.mod.state = .boot → s.mod.bootStep = 3 → report.ok = true → report.routerFailed = false → report.clusters = 0 →
    ∃ t, exec (.bootStepComplete report) s = .next t ∧ t.mod.bootStep = 4 ∧ t.mod.stepFailed = false ∧ t.hb.sentAt = s.now ∧ t.hb.sd0Heard = s.dieFt sd0Site ∧ t.hb.sd1Heard = s.now ∧ s.changesOnly t [.mod, .hb])
  ∧ (∀ (s : State) (report : BootReport), s.mod.state = .boot → s.mod.bootStep = 3 → report.routerFailed = true →
    ∃ t, exec (.bootStepComplete report) s = .next t ∧ t.mod.state = .halt ∧ t.mod.cause = 0x07)
  ∧ (∀ (s : State) (report : BootReport), s.mod.state = .boot → s.mod.bootStep = 4 → report.ok = true →
    ∃ t, exec (.bootStepComplete report) s = .next t ∧ t.mod = { s.mod with bootStep := 5, stepFailed := false } ∧ s.changesOnly t [.mod])
  ∧ (∀ (s : State) (report : BootReport), s.mod.state = .boot → s.mod.bootStep = 4 → report.ok = false → s.mod.stepFailed = false →
    ∃ t, exec (.bootStepComplete report) s = .next t ∧ t.mod = { s.mod with stepFailed := true } ∧ s.changesOnly t [.mod])
  ∧ (∀ (s : State) (report : BootReport), s.mod.state = .boot → s.mod.bootStep = 4 → report.ok = false → s.mod.stepFailed = true →
    ∃ t, exec (.bootStepComplete report) s = .next t ∧ t.mod.state = .halt)
  ∧ (∀ (s : State) (report : BootReport), s.mod.state = .boot → s.mod.bootStep = 5 → report.ok = true → s.evq.mask.getLsbD 0x42 = false → s.evq.lost = 0 → s.evq.queue.length < 4096 →
    ∃ t, exec (.bootStepComplete report) s = .next t ∧ t.mod = { s.mod with bootStep := 6, bootReady := true, stepFailed := false } ∧ t.evq.queue = s.evq.queue ++ [s.mkEvent 0x42 0 srcModule 0 0xFFFFFFFF] ∧ s.changesOnly t [.mod, .evq])
  ∧ (∀ (s : State) (report : BootReport), s.mod.state ≠ .boot → exec (.bootStepComplete report) s = .next s)
  ∧ (∀ s : State, s.mod.state = .test → s.mod.testDone = false → s.mod.testWork = 0 →
    ∃ t, exec (.testStepComplete true) s = .next t ∧ t.mod = { s.mod with testWork := 1, stepFailed := false } ∧ s.changesOnly t [.mod])
  ∧ (∀ s : State, s.mod.state = .test → s.mod.testDone = false → s.mod.testWork = 1 → s.evq.mask.getLsbD 0x43 = false → s.evq.lost = 0 → s.evq.queue.length < 4096 →
    ∃ t, exec (.testStepComplete true) s = .next t ∧ t.mod = { s.mod with testWork := 3, testDone := true, stepFailed := false } ∧ t.evq.queue = s.evq.queue ++ [s.mkEvent 0x43 0 srcModule s.quarCount 0xFFFFFFFF] ∧ s.changesOnly t [.mod, .evq])
  ∧ (∀ s : State, s.mod.state = .test → s.mod.testDone = false → s.mod.stepFailed = false →
    ∃ t, exec (.testStepComplete false) s = .next t ∧ t.mod = { s.mod with stepFailed := true } ∧ s.changesOnly t [.mod])
  ∧ (∀ s : State, s.mod.state = .test → s.mod.testDone = false → s.mod.stepFailed = true →
    ∃ t, exec (.testStepComplete false) s = .next t ∧ t.mod.state = .halt)
  ∧ (∀ (s : State) (ok : Bool), s.mod.state ≠ .test → exec (.testStepComplete ok) s = .next s)

/-- The steps of a drain and of a recovery. A drain waits for every extent to end, then writes every dirty sector back,
discarding those that have no page, and when nothing is under way at the bridges it raises READY_TO_REMOVE and takes every
port down. Recovery stops what is under way inside the module, repairs what was found bad, waits for the scrubs and the
self-tests, ends the fences of units that agree again, and reaches step 6, logging each step. -/
def Obligations.DrainAndRecoveryRun : Prop :=
  (∀ (s : State) (e : Nat × Extent), s.mod.state = .drain → s.mod.drainStep = 2 → e ∈ s.ext.tab → (e.2.state = .active ∨ e.2.state = .revoking) → exec .drainStepComplete s = .next s)
  ∧ (∀ s : State, s.mod.state = .drain → s.mod.drainStep = 2 → s.ext.tab = [] → s.tier.sectors = [] →
    ∃ t, exec .drainStepComplete s = .next t ∧ t.mod = { s.mod with drainStep := 3 } ∧ s.changesOnly t [.mod])
  ∧ (∀ s : State, s.mod.state = .drain → s.mod.drainStep = 3 → s.tier.sectors = [] →
    ∃ t, exec .drainStepComplete s = .next t ∧ t.mod = { s.mod with drainStep := 4 } ∧ s.changesOnly t [.mod])
  ∧ (∀ (s : State) (b : Nat) (x : Sector), s.mod.state = .drain → s.mod.drainStep = 3 → s.tier.sectors = [(b, x)] → x.dirty ≠ 0 → ((s.page (pageOfBlock b)).res = 3 ∨ (s.page (pageOfBlock b)).res = 0) →
    ∃ t, exec .drainStepComplete s = .next t ∧ t.mod.lostSect = s.mod.lostSect + 1 ∧ t.mod.drainStep = 4 ∧ t.mod.state = .drain ∧ (t.sector b).dirty = 0)
  ∧ (∀ (s : State) (b : Nat) (x : Sector), s.mod.state = .drain → s.mod.drainStep = 3 → s.tier.sectors = [(b, x)] → x.dirty ≠ 0 → (s.page (pageOfBlock b)).res ≠ 3 → (s.page (pageOfBlock b)).res ≠ 0 → (s.page (pageOfBlock b)).moving = true → exec .drainStepComplete s = .next s)
  ∧ (∀ s : State, s.mod.state = .drain → s.mod.drainStep = 4 → s.bridgeBusy = true → exec .drainStepComplete s = .next s)
  ∧ (∀ s : State, s.mod.state = .drain → s.mod.drainStep = 4 → s.bridgeBusy = false → s.quiet → s.tier.moves = [] → s.tier.trays = [] → s.tier.reqs = [] → s.tier.makeRoom = [] → s.req.fences = [] → s.req.held = [] → s.xl.walks = [] →
    ∃ t, exec .drainStepComplete s = .next t ∧ t.mod.drainStep = 6 ∧ t.mod.ready = true ∧ t.mod.refClk = false ∧ t.mod.perst = 0xFFFF ∧ t.mod.state = .drain
      ∧ (∀ p, s.plainPort p → (t.link p).state = .down))
  ∧ (∀ s : State, s.mod.state ≠ .drain → exec .drainStepComplete s = .next s)
  ∧ (∀ s : State, s.mod.state = .recovery → s.log.rcvStep = 1 →
    ∃ t, exec .recoveryStepDone s = .next t ∧ t.log.rcvStep = 2 ∧ (∃ x ∈ t.log.entries, x.2.cls = 0x17 ∧ x.2.detail = 2 ∧ x.2.src = srcModule) ∧ t.mod = s.mod ∧ s.changesOnly t [.log, .evq, .adk])
  ∧ (∀ (s : State) (r : Req), s.mod.state = .recovery → s.log.rcvStep = 2 → r ∈ s.req.reqs → r.origin.internal = true → exec .recoveryStepDone s = .next s)
  ∧ (∀ (s : State) (a n : Nat), s.mod.state = .recovery → s.log.rcvStep = 2 → s.req.reqs = [] → s.log.badExt = [] → s.log.badLocal = [(0, a, n)] →
    ∃ t, exec .recoveryStepDone s = .next t ∧ t.log.rcvStep = 3 ∧ t.cpu.spad.bytes a n = fill n 0 ∧ (∀ y, (y < a ∨ a + n ≤ y) → t.cpu.spad.byte y = s.cpu.spad.byte y) ∧ t.cpu.cmem = s.cpu.cmem
      ∧ t.log.badLocal = [] ∧ Table.read 0 t.log.passLeft (regionSite s (0, a, n)) = 4 ∧ (∃ x ∈ t.log.entries, x.2.cls = 0x17 ∧ x.2.detail = 3 ∧ x.2.src = srcModule) ∧ s.changesOnly t [.cpu, .log, .evq, .adk])
  ∧ (∀ (s : State) (e : Nat × Extent), s.mod.state = .recovery → s.log.rcvStep = 3 → e ∈ s.ext.tab → e.2.state = .scrubbing → e.2.lastValid = false → exec .recoveryStepDone s = .next s)
  ∧ (∀ s : State, s.mod.state = .recovery → s.log.rcvStep = 3 → s.ext.tab = [] →
    ∃ t, exec .recoveryStepDone s = .next t ∧ t.log.rcvStep = 4 ∧ (∃ x ∈ t.log.entries, x.2.cls = 0x17 ∧ x.2.detail = 4 ∧ x.2.src = srcModule) ∧ s.changesOnly t [.log, .evq, .adk])
  ∧ (∀ s : State, s.mod.state = .recovery → s.log.rcvStep = 4 → s.log.passLeft ≠ [] → exec .recoveryStepDone s = .next s)
  ∧ (∀ s : State, s.mod.state = .recovery → s.log.rcvStep = 4 → s.log.passLeft = [] →
    ∃ t, exec .recoveryStepDone s = .next t ∧ t.log.rcvStep = 5 ∧ (∃ x ∈ t.log.entries, x.2.cls = 0x17 ∧ x.2.detail = 5 ∧ x.2.src = srcModule) ∧ (∀ k, k / 2 ^ 24 ≤ 6 → Table.read 0 s.log.disagree k = 0 → Table.read false t.log.fenced k = false)
      ∧ (∀ k, 0 < Table.read 0 s.log.disagree k → Table.read false t.log.fenced k = Table.read false s.log.fenced k) ∧ t.mod = s.mod ∧ s.changesOnly t [.log, .evq, .adk])
  ∧ (∀ s : State, s.mod.state = .recovery → s.log.rcvStep = 5 →
    ∃ t, exec .recoveryStepDone s = .next t ∧ t.log.rcvStep = 6 ∧ (∃ x ∈ t.log.entries, x.2.cls = 0x17 ∧ x.2.detail = 6 ∧ x.2.src = srcModule) ∧ t.mod = s.mod ∧ s.changesOnly t [.log, .evq, .adk])
  ∧ (∀ s : State, s.mod.state ≠ .recovery → exec .recoveryStepDone s = .next s)

/-- Insertion, power-good and the ways power is lost. The first present contact, the precharge and the second contact close the
main path of an unpowered module; power-good then starts BOOT from reset. Loss of input power, the input below 40 V for 1
ms, an overcurrent, and the second contact breaking in a module that has power take it to OFF at once: memory, extents, log
and requests are as at reset, and only the fuses and the flash keep their contents. The first contact breaking, and the
attention button held for 20 ms, change nothing but their bits. The two waits are judged by FT from the instant that the
command names (log 110). -/
def Obligations.PowerAndInsertion : Prop :=
  (∀ s : State, s.mod.state = .off → s.mod.mainPath = true →
    ∃ t, exec .powerGood s = .next t ∧ t.mod.state = .boot ∧ t.mod.bootStep = 0 ∧ t.mod.powerGood = true ∧ t.now = 0 ∧ t.tier = State.reset.tier ∧ t.ext = State.reset.ext ∧ t.cpu = State.reset.cpu ∧ t.req = State.reset.req
      ∧ t.sec.sealFuse = s.sec.sealFuse ∧ t.sec.banks = s.sec.banks ∧ t.sec.svnMin = s.sec.svnMin ∧ t.pkg.spareSlots = s.pkg.spareSlots ∧ t.pending = s.pending)
  ∧ (∀ s : State, (s.mod.state ≠ .off ∨ s.mod.mainPath = false) → exec .powerGood s = .next s)
  ∧ (∀ s : State, ∃ t, exec .powerRemoved s = .next t ∧ t.mod.state = .off ∧ t.mod.mainPath = false ∧ t.mod.powerGood = false ∧ t.mod.ready = true ∧ t.adk.state = .down ∧ t.now = 0 ∧ t.tier = State.reset.tier ∧ t.ext = State.reset.ext ∧ t.log = State.reset.log
      ∧ t.req = State.reset.req ∧ t.cpu = State.reset.cpu ∧ t.sec.sealFuse = s.sec.sealFuse ∧ t.sec.banks = s.sec.banks ∧ t.sec.svnMin = s.sec.svnMin ∧ t.pkg.spareSlots = s.pkg.spareSlots ∧ t.pending = s.pending)
  ∧ (∀ (s : State) (since : BitVec 64), s.mod.state ≠ .off → s.stable since msT = true → ∃ t, exec (.inputUndervoltage since) s = .next t ∧ t.mod.state = .off ∧ t.mod.mainPath = false ∧ t.mod.powerGood = false ∧ t.mod.ready = true ∧ t.adk.state = .down ∧ t.now = 0 ∧ t.tier = State.reset.tier ∧ t.ext = State.reset.ext ∧ t.log = State.reset.log
      ∧ t.req = State.reset.req ∧ t.cpu = State.reset.cpu ∧ t.sec.sealFuse = s.sec.sealFuse ∧ t.sec.banks = s.sec.banks ∧ t.sec.svnMin = s.sec.svnMin ∧ t.pkg.spareSlots = s.pkg.spareSlots ∧ t.pending = s.pending)
  ∧ (∀ (s : State) (since : BitVec 64), (s.mod.state = .off ∨ s.stable since msT = false) → exec (.inputUndervoltage since) s = .next s)
  ∧ (∀ s : State, ∃ t, exec .inputOvercurrent s = .next t ∧ t.mod.state = .off ∧ t.mod.mainPath = false ∧ t.mod.powerGood = false ∧ t.mod.ready = true ∧ t.adk.state = .down ∧ t.now = 0 ∧ t.tier = State.reset.tier ∧ t.ext = State.reset.ext ∧ t.log = State.reset.log
      ∧ t.req = State.reset.req ∧ t.cpu = State.reset.cpu ∧ t.sec.sealFuse = s.sec.sealFuse ∧ t.sec.banks = s.sec.banks ∧ t.sec.svnMin = s.sec.svnMin ∧ t.pkg.spareSlots = s.pkg.spareSlots ∧ t.pending = s.pending)
  ∧ (∀ s : State, s.mod.state ≠ .off → ∃ t, exec (.presentDeassert true) s = .next t ∧ t.mod.state = .off ∧ t.mod.mainPath = false ∧ t.mod.powerGood = false ∧ t.mod.ready = true ∧ t.adk.state = .down ∧ t.now = 0 ∧ t.tier = State.reset.tier ∧ t.ext = State.reset.ext ∧ t.log = State.reset.log
      ∧ t.req = State.reset.req ∧ t.cpu = State.reset.cpu ∧ t.sec.sealFuse = s.sec.sealFuse ∧ t.sec.banks = s.sec.banks ∧ t.sec.svnMin = s.sec.svnMin ∧ t.pkg.spareSlots = s.pkg.spareSlots ∧ t.pending = s.pending ∧ t.mod.pres2 = false)
  ∧ (∀ s : State, s.mod.state ≠ .off → ∃ t, exec (.presentDeassert false) s = .next t ∧ t.mod = { s.mod with pres1 := false } ∧ s.changesOnly t [.mod])
  ∧ (∀ (s : State) (second : Bool), s.mod.state = .off → ∃ t, exec (.presentDeassert second) s = .next t ∧ t.mod.state = .off ∧ t.mod.mainPath = false ∧ t.mod.precharged = false ∧ t.mod.pres1 = (second && s.mod.pres1) ∧ t.mod.pres2 = (!second && s.mod.pres2) ∧ s.changesOnly t [.mod])
  ∧ (∀ s : State, s.mod.state = .off → s.mod.mainPath = false → ∃ t, exec .present1Assert s = .next t ∧ t.mod = { s.mod with pres1 := true, precharged := false } ∧ s.changesOnly t [.mod])
  ∧ (∀ s : State, s.mod.state = .off → s.mod.pres1 = true → ∃ t, exec .prechargeComplete s = .next t ∧ t.mod = { s.mod with precharged := true } ∧ s.changesOnly t [.mod])
  ∧ (∀ s : State, s.mod.pres1 = false → exec .prechargeComplete s = .next s)
  ∧ (∀ s : State, s.mod.state = .off → s.mod.pres1 = true → s.mod.precharged = true → ∃ t, exec .present2Stable s = .next t ∧ t.mod = { s.mod with pres2 := true, mainPath := true } ∧ s.changesOnly t [.mod])
  ∧ (∀ s : State, s.mod.precharged = false → ∃ t, exec .present2Stable s = .next t ∧ t.mod = { s.mod with pres2 := true } ∧ s.changesOnly t [.mod])
  ∧ (∀ (s : State) (since : BitVec 64), s.mod.state ≠ .off → s.hb.sd0Dead = false → s.stable since debounceT = true → s.evq.mask.getLsbD 0x44 = false → s.evq.lost = 0 → s.evq.queue.length < 4096 →
    ∃ t, exec (.attnBtnPress since) s = .next t ∧ t.mod = { s.mod with attnReq := true } ∧ t.evq.queue = s.evq.queue ++ [s.mkEvent 0x44 0 srcModule 0 0xFFFFFFFF] ∧ s.changesOnly t [.mod, .evq])
  ∧ (∀ (s : State) (since : BitVec 64), (s.mod.state = .off ∨ s.hb.sd0Dead = true ∨ s.stable since debounceT = false) → exec (.attnBtnPress since) s = .next s)

/-- The adapter link trains, acknowledges, replays and is lost. A frame whose CRC-32C is not the one over its words and the low
half of its trailer is counted and asked for again; a block of a type that is not listed is counted. An acknowledgement
drops the frames it covers, and with them the events they carried; a NAK, or ten microseconds without an acknowledgement,
replays, and after eight replays without one the link trains again. Training that completes waits in INIT for the word of
the other side, and one with RESET starts both sequences again. A LINKCTL whose LCRC fails does nothing. -/
def Obligations.TheAdapterLink : Prop :=
  (∀ (s : State) (words : List (BitVec 64)) (low crc : BitVec 32), (s.adk.state = .up ∨ s.adk.state = .init) → crc ≠ adkCrc words low → s.adk.cntCrc.toNat + 2 < 2 ^ 64 →
    ∃ t, exec (.adkFrameReject 0xA5 words low crc) s = .next t ∧ t.adk = { s.adk with nak := true, cntCrc := s.adk.cntCrc + 1 } ∧ s.changesOnly t [.adk])
  ∧ (∀ (s : State) (btype : BitVec 8) (words : List (BitVec 64)) (low crc : BitVec 32), (s.adk.state = .up ∨ s.adk.state = .init) → btype ≠ 0x1E → btype ≠ 0xA5 → btype ≠ 0x5A → btype ≠ 0xC3 → s.adk.cntCrc.toNat + 2 < 2 ^ 64 →
    ∃ t, exec (.adkFrameReject btype words low crc) s = .next t ∧ t.adk = { s.adk with cntCrc := s.adk.cntCrc + 1 } ∧ s.changesOnly t [.adk])
  ∧ (∀ (s : State) (words : List (BitVec 64)) (low crc : BitVec 32), crc = adkCrc words low → exec (.adkFrameReject 0xA5 words low crc) s = .next s)
  ∧ (∀ (s : State) (btype : BitVec 8) (words : List (BitVec 64)) (low crc : BitVec 32), s.adk.state ≠ .up → s.adk.state ≠ .init → exec (.adkFrameReject btype words low crc) s = .next s)
  ∧ (∀ (s : State) (word : LinkCtl) (f : AdkFrame) (rest : List (BitVec 12 × AdkFrame)), word.good = true → s.adk.state = .up → word.init = false → word.nak = false → word.ackV = true → s.adk.unacked = (word.ackSeq, f) :: rest → s.adk.outq = [] → s.evq.lost = 0 →
    ∃ t, exec (.adkLinkctl word) s = .next t ∧ t.adk.unacked = rest ∧ t.adk.replays = 0 ∧ t.adk.ackAt = s.now ∧ t.adk.evCredit = word.evCredit ∧ t.adk.state = .up
      ∧ t.evq.queue = s.evq.queue.drop f.records ∧ t.evq.sent = s.evq.sent - f.records ∧ s.changesOnly t [.adk, .evq])
  ∧ (∀ (s : State) (word : LinkCtl), word.good = true → s.adk.state = .up → word.init = false → word.nak = true → word.ackV = false → s.adk.replays < 8 → s.adk.cntReplay.toNat + 2 < 2 ^ 64 →
    ∃ t, exec (.adkLinkctl word) s = .next t ∧ t.adk = { s.adk with evCredit := word.evCredit, replays := s.adk.replays + 1, ackAt := s.now, cntReplay := s.adk.cntReplay + 1 } ∧ s.changesOnly t [.adk])
  ∧ (∀ (s : State) (word : LinkCtl), word.good = true → s.adk.state = .up → word.init = false → word.nak = true → word.ackV = false → 8 ≤ s.adk.replays →
    ∃ t, exec (.adkLinkctl word) s = .next t ∧ t.adk = { s.adk with evCredit := word.evCredit, state := .training, retrains := s.adk.retrains + 1, trainAt := s.now, replays := 0 } ∧ s.changesOnly t [.adk])
  ∧ (∀ (s : State) (word : LinkCtl), word.good = true → s.adk.state = .init → word.init = true → word.reset = true → s.adk.outq = [] →
    ∃ t, exec (.adkLinkctl word) s = .next t ∧ t.adk.state = .up ∧ t.adk.unacked = [] ∧ t.adk.txSeq = 0 ∧ t.adk.rxSeq = 0 ∧ t.adk.rxAny = false ∧ t.adk.evInit = word.evCredit ∧ t.adk.evSent = 0 ∧ t.adk.kept = s.adk.kept
      ∧ t.evq = { s.evq with sent := 0 } ∧ s.changesOnly t [.adk, .evq])
  ∧ (∀ (s : State) (word : LinkCtl), word.good = true → s.adk.state = .init → word.init = true → word.reset = false → word.ackV = false → s.adk.outq = [] →
    ∃ t, exec (.adkLinkctl word) s = .next t ∧ t.adk.state = .up ∧ t.adk.unacked = s.adk.unacked ∧ t.adk.txSeq = s.adk.txSeq ∧ t.adk.rxSeq = s.adk.rxSeq ∧ t.adk.evInit = word.evCredit ∧ t.evq = s.evq ∧ s.changesOnly t [.adk])
  ∧ (∀ (s : State) (word : LinkCtl), (word.good = false ∨ s.adk.state = .down ∨ s.adk.state = .training) → exec (.adkLinkctl word) s = .next s)
  ∧ (∀ s : State, (s.adk.state = .init ∨ (s.adk.state = .up ∧ (s.adk.owedAck.isSome = true ∨ s.adk.nak = true))) →
    ∃ t, exec .adkLinkctlTimer s = .next t ∧ t.adk = { s.adk with linkctlOut := s.linkctlWord, owedAck := none } ∧ s.changesOnly t [.adk])
  ∧ (∀ s : State, s.adk.state = .up → s.adk.owedAck = none → s.adk.nak = false → exec .adkLinkctlTimer s = .next s)
  ∧ (∀ s : State, s.adk.state = .up → s.adk.unacked ≠ [] → s.adk.ackAt + 10 * usT ≤ s.now → s.adk.replays < 8 → s.adk.cntReplay.toNat + 2 < 2 ^ 64 →
    ∃ t, exec .adkReplayTimeout s = .next t ∧ t.adk = { s.adk with replays := s.adk.replays + 1, ackAt := s.now, cntReplay := s.adk.cntReplay + 1 } ∧ s.changesOnly t [.adk])
  ∧ (∀ s : State, s.adk.state = .up → s.adk.unacked ≠ [] → s.adk.ackAt + 10 * usT ≤ s.now → 8 ≤ s.adk.replays →
    ∃ t, exec .adkReplayTimeout s = .next t ∧ t.adk = { s.adk with state := .training, retrains := s.adk.retrains + 1, trainAt := s.now, replays := 0 } ∧ s.changesOnly t [.adk])
  ∧ (∀ s : State, s.now < s.adk.ackAt + 10 * usT → exec .adkReplayTimeout s = .next s)
  ∧ (∀ s : State, (s.adk.state = .down ∨ s.adk.state = .training) → s.mod.state ≠ .off → s.hb.sd0Dead = false → (s.mod.state ≠ .boot ∨ 1 ≤ s.mod.bootStep.toNat) →
    ∃ t, exec .adkTrainingComplete s = .next t ∧ t.adk = { s.adk with state := .init } ∧ s.changesOnly t [.adk])
  ∧ (∀ s : State, s.mod.state = .off → exec .adkTrainingComplete s = .next s)
  ∧ (∀ s : State, s.adk.state = .training → s.adk.trainAt + 10 * msT ≤ s.now →
    ∃ t, exec .adkTrainingTimeout s = .next t ∧ t.adk = { s.adk with trainAt := s.now } ∧ s.changesOnly t [.adk])
  ∧ (∀ s : State, s.adk.state ≠ .training → exec .adkTrainingTimeout s = .next s)
  ∧ (∀ s : State, ∃ t, exec .adkLinkLoss s = .next t ∧ t.adk = { s.adk with state := .down } ∧ s.changesOnly t [.adk])

/-- Registers are read and written over the adapter link. RD of a listed page answers the words the registers hold, and changes
nothing else; of a page that is not listed it is DENIED with all-ones data. RC of TIM_LATE answers the count and starts it
again from what fires meanwhile. RD of a run with TIM_LATE_FIRED in it answers and clears it. WR of a register sets its
field, but a bit that is cleared by writing 1 stays set where the CX64 sets it in the same cycle; it is DENIED for a page
that is not listed or a value out of range; every register but those whose write is a command of its own, or answers later,
answers at once. One at an address that is not a multiple of 8 is MALFORMED. -/
def Obligations.RegistersAreReadAndWritten : Prop :=
  (∀ (s : State) (tag : BitVec 16) (addr : BitVec 48) (len : BitVec 16), s.performs (rdFrame tag addr len.toNat) → rdForm addr.toNat len.toNat = true → pageListed addr.toNat = true → AdkFrame.covers (rdFrame tag addr len.toNat) (trnAddr 0x038) = false → AdkFrame.covers (rdFrame tag addr len.toNat) (glbAddr 0x138) = false →
    AdkFrame.covers (rdFrame tag addr len.toNat) (timAddr 0x038) = false →
    ∃ t, exec (.adkRd tag addr len) s = .next t ∧ t.responded tag stOk ∧ (∃ x ∈ t.adk.kept, x.1 = tag.toNat ∧ x.2.2.addr = addr ∧ x.2.2.words = s.readRegs addr.toNat len.toNat) ∧ s.changesOnly t [.adk])
  ∧ (∀ (s : State) (tag : BitVec 16) (addr : BitVec 48) (len : BitVec 16), s.performs (rdFrame tag addr len.toNat) → rdForm addr.toNat len.toNat = true → pageListed addr.toNat = false →
    ∃ t, exec (.adkRd tag addr len) s = .next t ∧ t.responded tag stDenied ∧ (∃ x ∈ t.adk.kept, x.1 = tag.toNat ∧ x.2.2.words = List.replicate len.toNat (BitVec.allOnes 64)) ∧ s.changesOnly t [.adk])
  ∧ (∀ (s : State) (tag : BitVec 16) (incs : BitVec 32), s.performs (rdFrame tag (BitVec.ofNat 48 (timAddr 0x038)) 1) →
    ∃ t, exec (.rcRead tag incs) s = .next t ∧ t.responded tag stOk ∧ t.tim = { s.tim with lateFired := incs } ∧ (∃ x ∈ t.adk.kept, x.1 = tag.toNat ∧ x.2.2.words = [s.readReg (timAddr 0x038)]) ∧ s.changesOnly t [.tim, .adk])
  ∧ (∀ (s : State) (tag : BitVec 16) (addr : BitVec 48) (len : BitVec 16), s.performs (rdFrame tag addr len.toNat) → rdForm addr.toNat len.toNat = true → pageListed addr.toNat = true → AdkFrame.covers (rdFrame tag addr len.toNat) (timAddr 0x038) = true →
    AdkFrame.covers (rdFrame tag addr len.toNat) (trnAddr 0x038) = false → AdkFrame.covers (rdFrame tag addr len.toNat) (glbAddr 0x138) = false →
    ∃ t, exec (.adkRd tag addr len) s = .next t ∧ t.responded tag stOk ∧ t.tim = { s.tim with lateFired := 0 } ∧ (∃ x ∈ t.adk.kept, x.1 = tag.toNat ∧ x.2.2.addr = addr ∧ x.2.2.words = s.readRegs addr.toNat len.toNat) ∧ s.changesOnly t [.tim, .adk])
  ∧ (∀ (s : State) (tag : BitVec 16) (value held : BitVec 64), s.writes tag (secAddr 0x10) value .operator → bits value.toNat 63 10 = 0 →
    ∃ t, exec (.registerWrite tag (BitVec.ofNat 48 (secAddr 0x10)) value held) s = .next t ∧ t.responded tag stOk ∧ t.sec = { s.sec with tcSel := value.setWidth 10 } ∧ s.changesOnly t [.sec, .adk])
  ∧ (∀ (s : State) (tag : BitVec 16) (value held : BitVec 64), s.writes tag (glbAddr 0x18) value .installer → 0x0BB8 ≤ bits value.toNat 15 0 → bits value.toNat 15 0 ≤ 0x2648 →
    ∃ t, exec (.registerWrite tag (BitVec.ofNat 48 (glbAddr 0x18)) value held) s = .next t ∧ t.responded tag stOk ∧ t.glb = { s.glb with capW := value.setWidth 16 } ∧ s.changesOnly t [.glb, .adk])
  ∧ (∀ (s : State) (tag : BitVec 16) (value held : BitVec 64), s.writes tag (glbAddr 0x18) value .installer → (bits value.toNat 15 0 < 0x0BB8 ∨ 0x2648 < bits value.toNat 15 0) →
    ∃ t, exec (.registerWrite tag (BitVec.ofNat 48 (glbAddr 0x18)) value held) s = .next t ∧ t.responded tag stDenied ∧ s.changesOnly t [.adk])
  ∧ (∀ (s : State) (tag : BitVec 16) (value held : BitVec 64), s.writes tag (maddr 1 0 3 0) value .operator →
    ∃ t, exec (.registerWrite tag (BitVec.ofNat 48 (maddr 1 0 3 0)) value held) s = .next t ∧ t.responded tag stOk ∧ t.mod = { s.mod with attnReq := s.mod.attnReq && (!value.getLsbD 8 || held.getLsbD 8) } ∧ s.changesOnly t [.mod, .adk])
  ∧ (∀ (s : State) (tag : BitVec 16) (addr : BitVec 48) (value held : BitVec 64), s.performs (wrFrame tag addr.toNat value) → addr.toNat % 8 = 0 → addr.toNat ≠ trnAddr 0x038 → addr.toNat ≠ secAddr 0x188 → addr.toNat ≠ modCmdAddr → addr.toNat ≠ extAddr 0x008 →
    ∃ t, exec (.registerWrite tag addr value held) s = .next t ∧ (∃ st, t.responded tag st))
  ∧ (∀ (s : State) (tag : BitVec 16) (addr : BitVec 48) (value held : BitVec 64), s.performs (wrFrame tag addr.toNat value) → addr.toNat % 8 = 0 → pageListed addr.toNat = false →
    ∃ t, exec (.registerWrite tag addr value held) s = .next t ∧ t.responded tag stDenied ∧ s.changesOnly t [.adk])
  ∧ (∀ (s : State) (tag : BitVec 16) (addr : BitVec 48) (value held : BitVec 64), s.adk.state = .up → s.adk.outstanding = [] → addr.toNat % 8 ≠ 0 → s.adk.outq = [] → s.adk.unacked.length < 64 →
    ∃ t, exec (.registerWrite tag addr value held) s = .next t ∧ t.adk.kept = s.adk.kept ∧ (∃ x ∈ t.adk.unacked, x.1 = s.adk.txSeq ∧ x.2.tag = tag ∧ x.2.status = stMalformed ∧ x.2.addr = addr) ∧ s.changesOnly t [.adk])

/-- A write or command made without its role is denied, counted and logged, and changes nothing else. A write or a command that
the adapter makes without its role completes with DENIED, leaves the register unchanged, increments SEC_CNT_ROLE_DENY and
writes one trouble-log entry of class 0x18: SRC the module, DETAIL the role required, PARAM the address of the register and
the reason. -/
def Obligations.DeniedWithoutTheRole : Prop :=
  (∀ (s : State) (tag : BitVec 16) (addr : BitVec 48) (value held : BitVec 64), s.performs (wrFrame tag addr.toNat value) → s.holdsRole (regRole addr.toNat value) = false → addr.toNat % 8 = 0 →
    ∃ t, exec (.registerWrite tag addr value held) s = .next t ∧ t.responded tag stDenied ∧ t.sec.cntDeny = (bump s.sec.cntDeny).1 ∧ t.sec = { s.sec with cntDeny := t.sec.cntDeny, sat := t.sec.sat }
      ∧ t.log.wrSeq = s.log.wrSeq + 1 ∧ s.deniedEntry t (if regRole addr.toNat value = .maker then 2 else 1) (addr.toNat + 2 ^ 48 * (if regRole addr.toNat value = .maker then 3 else if s.windowOpen then 2 else 1)) ∧ s.changesOnly t [.sec, .log, .adk, .evq])
  ∧ (∀ (s : State) (tag : BitVec 16), s.performs (wrFrame tag (secAddr 0x108) 2) → s.holdsRole .installer = false →
    ∃ t, exec (.fwCommit tag) s = .next t ∧ t.responded tag stDenied ∧ t.sec.cntDeny = (bump s.sec.cntDeny).1 ∧ t.sec = { s.sec with cntDeny := t.sec.cntDeny, sat := t.sec.sat }
      ∧ t.log.wrSeq = s.log.wrSeq + 1 ∧ s.deniedEntry t 1 ((BitVec.ofNat 48 (secAddr 0x108)).toNat + 2 ^ 48 * (if s.windowOpen then 2 else 1)) ∧ s.changesOnly t [.sec, .log, .adk, .evq])
  ∧ (∀ (s : State) (tag : BitVec 16), s.performs (wrFrame tag (secAddr 0x108) 3) → s.holdsRole .installer = false →
    ∃ t, exec (.fwRaiseMin tag) s = .next t ∧ t.responded tag stDenied ∧ t.sec.cntDeny = (bump s.sec.cntDeny).1 ∧ t.sec = { s.sec with cntDeny := t.sec.cntDeny, sat := t.sec.sat }
      ∧ t.log.wrSeq = s.log.wrSeq + 1 ∧ s.deniedEntry t 1 ((BitVec.ofNat 48 (secAddr 0x108)).toNat + 2 ^ 48 * (if s.windowOpen then 2 else 1)) ∧ s.changesOnly t [.sec, .log, .adk, .evq])
  ∧ (∀ (s : State) (tag : BitVec 16), s.performs (wrFrame tag (logAddr 0x30) 1) → s.holdsRole .installer = false →
    ∃ t, exec (.logClear tag) s = .next t ∧ t.responded tag stDenied ∧ t.sec.cntDeny = (bump s.sec.cntDeny).1 ∧ t.sec = { s.sec with cntDeny := t.sec.cntDeny, sat := t.sec.sat }
      ∧ t.log.wrSeq = s.log.wrSeq + 1 ∧ s.deniedEntry t 1 ((BitVec.ofNat 48 (logAddr 0x30)).toNat + 2 ^ 48 * (if s.windowOpen then 2 else 1)) ∧ s.changesOnly t [.sec, .log, .adk, .evq])
  ∧ (∀ (s : State) (tag : BitVec 16) (value : BitVec 64), s.performs (wrFrame tag (timAddr 0x20) value) → s.holdsRole .installer = false →
    ∃ t, exec (.timCtrlWrite tag value) s = .next t ∧ t.responded tag stDenied ∧ t.sec.cntDeny = (bump s.sec.cntDeny).1 ∧ t.sec = { s.sec with cntDeny := t.sec.cntDeny, sat := t.sec.sat }
      ∧ t.log.wrSeq = s.log.wrSeq + 1 ∧ s.deniedEntry t 1 ((BitVec.ofNat 48 (timAddr 0x20)).toNat + 2 ^ 48 * (if s.windowOpen then 2 else 1)) ∧ s.changesOnly t [.sec, .log, .adk, .evq])
  ∧ (∀ (s : State) (tag : BitVec 16), s.performs (wrFrame tag (glbAddr 0x120) 1) → s.holdsRole .maker = false →
    ∃ t, exec (.spareProgram tag) s = .next t ∧ t.responded tag stDenied ∧ t.sec.cntDeny = (bump s.sec.cntDeny).1 ∧ t.sec = { s.sec with cntDeny := t.sec.cntDeny, sat := t.sec.sat }
      ∧ t.log.wrSeq = s.log.wrSeq + 1 ∧ s.deniedEntry t 2 ((BitVec.ofNat 48 (glbAddr 0x120)).toNat + 2 ^ 48 * 3) ∧ s.changesOnly t [.sec, .log, .adk, .evq])
  ∧ (∀ (s : State) (tag : BitVec 16) (value : BitVec 64), s.performs (wrFrame tag (glbAddr 0x130) value) → s.holdsRole .maker = false →
    ∃ t, exec (.makerModeWrite tag value) s = .next t ∧ t.responded tag stDenied ∧ t.sec.cntDeny = (bump s.sec.cntDeny).1 ∧ t.sec = { s.sec with cntDeny := t.sec.cntDeny, sat := t.sec.sat }
      ∧ t.log.wrSeq = s.log.wrSeq + 1 ∧ s.deniedEntry t 2 ((BitVec.ofNat 48 (glbAddr 0x130)).toNat + 2 ^ 48 * 3) ∧ s.changesOnly t [.sec, .log, .adk, .evq])

/-- Power-good is the only way out of OFF, and power lost takes any state there. In a module that is OFF with its adapter link
down, every command but POWER_GOOD leaves it OFF with the link down; that the link of a module that is OFF is down is kept
by every step. The loss of input power and of PRESENT_2, in any state other than OFF, open the main path and take the module
to OFF, where nothing of its memory or its trays is under way, so that nothing is written back. -/
def Obligations.OnlyPowerGoodLeavesOff : Prop :=
  (∀ (c : Instr) (s t : State), s.mod.state = .off → s.adk.state = .down → exec c s = .next t → c = .powerGood ∨ (t.mod.state = .off ∧ t.adk.state = .down))
  ∧ (∀ s t : State, (s.mod.state = .off → s.adk.state = .down) → step s = .next t → t.mod.state = .off → t.adk.state = .down)
  ∧ (∀ s : State, s.mod.state = .off → s.mod.mainPath = true → ∃ t, exec .powerGood s = .next t ∧ t.mod.state = .boot)
  ∧ (∀ (s : State) (since : BitVec 64), s.mod.state ≠ .off → s.stable since msT = true → ∃ t, exec (.inputUndervoltage since) s = .next t ∧ t.mod.state = .off ∧ t.mod.mainPath = false ∧ t.tier = State.reset.tier ∧ t.req = State.reset.req ∧ t.ports = State.reset.ports)
  ∧ (∀ s : State, s.mod.state ≠ .off → ∃ t, exec (.presentDeassert true) s = .next t ∧ t.mod.state = .off ∧ t.mod.mainPath = false ∧ t.tier = State.reset.tier ∧ t.req = State.reset.req ∧ t.ports = State.reset.ports)

/-- A loss of the adapter link, or its retraining, changes nothing but the link. Link loss, training and its end, replays and
rejected frames change the link alone, and the sent count of the event queue: not the device state, a lease, the composition
or any traffic. An event raised while the link is down joins the queue, and no command of sending takes it from there. -/
def Obligations.TheLinkMayFailAlone : Prop :=
  (∀ (s t : State) (c : Instr), (c = .adkLinkLoss ∨ c = .adkTrainingComplete ∨ c = .adkTrainingTimeout ∨ c = .adkReplayTimeout ∨ c = .adkLinkctlTimer ∨ (∃ btype words low crc, c = .adkFrameReject btype words low crc) ∨ (∃ word, c = .adkLinkctl word)) →
    exec c s = .next t → s.changesOnly t [.adk, .evq])
  ∧ (∀ (s : State) (code detail : Nat) (sr : BitVec 16) (param logSeq : Nat), s.adk.state ≠ .up → s.evq.mask.getLsbD (code % 256) = false → s.evq.lost = 0 → s.evq.queue.length < 4096 →
    (s.event code detail sr param logSeq).evq.queue = s.evq.queue ++ [s.mkEvent code detail sr param logSeq] ∧ (s.event code detail sr param logSeq).adk.unacked = s.adk.unacked)
  ∧ (∀ s : State, s.adk.state ≠ .up → exec .eventSend s = .next s)
  ∧ (∀ s : State, ∃ t, exec .adkLinkLoss s = .next t ∧ t.evq = s.evq ∧ t.mod = s.mod ∧ t.lse = s.lse ∧ t.comp = s.comp ∧ t.ports = s.ports ∧ t.req = s.req)

/-- Fabric time never decreases, but at a backward step and at a loss of power. A step after which fabric time is smaller than
before performed the mark edge that ended a stay outside LOCKED with a recorded correction, or took the module through OFF.
While a stall lasts, an idle step leaves it where it is. -/
def Obligations.FabricTimeOnlySteppedBackByAMark : Prop :=
  (∀ s t : State, step s = .next t → t.now < s.now →
    ∃ (c : Instr) (rest : List Instr), s.pending = c :: rest ∧ (c = .powerGood ∨ c = .powerRemoved ∨ (∃ since, c = .inputUndervoltage since) ∨ c = .inputOvercurrent ∨ c = .presentDeassert true
      ∨ ∃ frac : BitVec 6, c = .rtMarkEdge frac ∧ s.tim.state ≠ .locked ∧ t.tim.state = .locked ∧ t.tim.stepped = true ∧ t.tim.corrections = s.tim.corrections + 1))
  ∧ (∀ s t : State, s.pending = [] → 65 < s.tim.stall → step s = .next t → t.now = s.now)

/-- Every command changes only its parts of the state, and never the queue. Each command leaves every part of the state as it
was that is not listed for it; the queue of commands is listed for none. -/
def Obligations.EveryCommandKeepsToItsParts : Prop :=
  (∀ (c : Instr) (s t : State), exec c s = .next t → s.changesOnly t (mayChange c))
  ∧ (∀ (c : Instr) (s t : State), exec c s = .next t → t.pending = s.pending)
end

