-- ==== Sys2Proof/Laws/Table.lean ====
section
/-! SUPPORT. Tables and memories: reading after a write, and the canonical form that every operation keeps. -/

namespace Sys2Proof

variable {α : Type}

theorem Table.read_erase_same (d : α) (t : Table α) (k : Nat) : (t.erase k).read d k = d := by
  induction t with
  | nil => rfl
  | cons e t ih =>
    obtain ⟨j, w⟩ := e
    unfold Table.erase at *
    by_cases h : j = k
    · simpa [h] using ih
    · have h' : ¬ k = j := fun x => h x.symm
      simp [h, h', Table.read, ih]

theorem Table.read_erase_other (d : α) (t : Table α) {k i : Nat} (hi : i ≠ k) : (t.erase k).read d i = t.read d i := by
  induction t with
  | nil => rfl
  | cons e t ih =>
    obtain ⟨j, w⟩ := e
    unfold Table.erase at *
    by_cases h : j = k
    · have h' : ¬ i = j := fun x => hi (x.trans h)
      simp [h] at ih ⊢
      simp [ih, Table.read, hi]
    · simp [h, Table.read, ih]

theorem Table.read_put_same (d : α) (t : Table α) (k : Nat) (v : α) : (t.put k v).read d k = v := by
  induction t with
  | nil => simp [Table.put, Table.read]
  | cons e t ih =>
    obtain ⟨j, w⟩ := e
    unfold Table.put
    split
    · simp [Table.read]
    · split
      · simp [Table.read]
      · rename_i h
        simp [Table.read, h, ih]

theorem Table.read_put_other (d : α) (t : Table α) {k i : Nat} (v : α) (hi : i ≠ k) : (t.put k v).read d i = t.read d i := by
  induction t with
  | nil => simp [Table.put, Table.read, hi]
  | cons e t ih =>
    obtain ⟨j, w⟩ := e
    unfold Table.put
    split
    · simp [Table.read, hi]
    · split
      · rename_i h
        subst h
        simp [Table.read, hi]
      · simp [Table.read, ih]

theorem Table.mem_put {t : Table α} {k : Nat} {v : α} {e : Nat × α} (h : e ∈ t.put k v) : e = (k, v) ∨ e ∈ t := by
  induction t with
  | nil => simpa [Table.put] using h
  | cons f t ih =>
    obtain ⟨j, w⟩ := f
    unfold Table.put at h
    split at h
    · simpa using h
    · split at h
      · simp only [List.mem_cons] at h ⊢
        rcases h with h | h
        · exact .inl h
        · exact .inr (.inr h)
      · simp only [List.mem_cons] at h ⊢
        rcases h with h | h
        · exact .inr (.inl h)
        · rcases ih h with h | h
          · exact .inl h
          · exact .inr (.inr h)

variable [DecidableEq α]

/-- What was written is read. -/
@[simp] theorem Table.read_write_same (d : α) (t : Table α) (k : Nat) (v : α) : (Table.write d t k v).read d k = v := by
  unfold Table.write
  split
  · rename_i h
    rw [h, Table.read_erase_same]
  · exact Table.read_put_same d t k v

/-- A write leaves every other entry alone. -/
theorem Table.read_write_other (d : α) (t : Table α) {k i : Nat} (v : α) (hi : i ≠ k) :
    (Table.write d t k v).read d i = t.read d i := by
  unfold Table.write
  split
  · exact Table.read_erase_other d t hi
  · exact Table.read_put_other d t v hi

theorem Table.read_write (d : α) (t : Table α) (k i : Nat) (v : α) :
    (Table.write d t k v).read d i = if i = k then v else t.read d i := by
  split
  · rename_i h
    rw [h, Table.read_write_same]
  · rename_i h
    exact Table.read_write_other d t v h

/-! ### The canonical form -/

/-- The canonical form, said of every entry and every pair of entries. -/
theorem Table.wf_iff (d : α) (t : Table α) :
    t.wf d = true ↔ (∀ e ∈ t, e.2 ≠ d) ∧ t.Pairwise (fun a b => a.1 < b.1) := by
  induction t with
  | nil => simp [Table.wf]
  | cons e t ih =>
    obtain ⟨j, v⟩ := e
    cases t with
    | nil => simp [Table.wf]
    | cons f t =>
      obtain ⟨k, w⟩ := f
      rw [Table.wf, Bool.and_eq_true, Bool.and_eq_true, ih]
      simp only [List.pairwise_cons, List.mem_cons]
      constructor
      · rintro ⟨⟨h1, h2⟩, h3, h4, h5⟩
        simp only [Bool.not_eq_true', decide_eq_false_iff_not, decide_eq_true_eq] at h1 h2
        refine ⟨?_, ?_, h4, h5⟩
        · rintro a (rfl | h)
          · exact h1
          · exact h3 a h
        · rintro a (rfl | h)
          · exact h2
          · exact Nat.lt_trans h2 (h4 a h)
      · rintro ⟨h1, h2, h3, h4⟩
        refine ⟨⟨?_, ?_⟩, fun a h => h1 a (Or.inr h), h3, h4⟩
        · simpa using h1 (j, v) (Or.inl rfl)
        · simpa using h2 (k, w) (Or.inl rfl)

theorem Table.wf_nil (d : α) : Table.wf d ([] : Table α) = true := rfl

theorem Table.wf_filter (d : α) (p : Nat × α → Bool) {t : Table α} (h : t.wf d = true) : Table.wf d (t.filter p) = true := by
  rw [Table.wf_iff] at h ⊢
  exact ⟨fun e he => h.1 e (List.mem_filter.1 he).1, h.2.filter p⟩

theorem Table.wf_erase (d : α) (k : Nat) {t : Table α} (h : t.wf d = true) : (t.erase k).wf d = true :=
  Table.wf_filter d _ h

theorem Table.wf_put (d : α) {k : Nat} {v : α} (hv : v ≠ d) {t : Table α} (h : t.wf d = true) : (t.put k v).wf d = true := by
  induction t with
  | nil => simpa [Table.put, Table.wf] using hv
  | cons e t ih =>
    obtain ⟨j, w⟩ := e
    rw [Table.wf_iff] at h
    obtain ⟨h1, h2⟩ := h
    have ht : Table.wf d t = true := (Table.wf_iff d t).2 ⟨fun a ha => h1 a (.tail _ ha), (List.pairwise_cons.1 h2).2⟩
    have hj := (List.pairwise_cons.1 h2).1
    unfold Table.put
    split
    · rename_i hk
      rw [Table.wf_iff]
      refine ⟨?_, List.pairwise_cons.2 ⟨?_, h2⟩⟩
      · intro a ha
        rcases List.mem_cons.1 ha with rfl | ha
        · exact hv
        · exact h1 a ha
      · intro a ha
        rcases List.mem_cons.1 ha with rfl | ha
        · exact hk
        · exact Nat.lt_trans hk (hj a ha)
    · split
      · rename_i hk
        rw [Table.wf_iff]
        refine ⟨?_, List.pairwise_cons.2 ⟨?_, (List.pairwise_cons.1 h2).2⟩⟩
        · intro a ha
          rcases List.mem_cons.1 ha with rfl | ha
          · exact hv
          · exact h1 a (.tail _ ha)
        · intro a ha
          simpa [hk] using hj a ha
      · rename_i hk hne
        have := (Table.wf_iff d _).1 (ih ht)
        rw [Table.wf_iff]
        refine ⟨?_, List.pairwise_cons.2 ⟨?_, this.2⟩⟩
        · intro a ha
          rcases List.mem_cons.1 ha with rfl | ha
          · exact h1 _ (.head _)
          · exact this.1 a ha
        · intro a ha
          rcases Table.mem_put ha with rfl | ha
          · simp only; omega
          · exact hj a ha

/-- Every write keeps the canonical form. -/
theorem Table.wf_write (d : α) (k : Nat) (v : α) {t : Table α} (h : t.wf d = true) : (Table.write d t k v).wf d = true := by
  unfold Table.write
  split
  · exact Table.wf_erase d k h
  · rename_i hv
    exact Table.wf_put d hv h

/-- A table whose every entry is changed is in canonical form. -/
theorem Table.wf_mapAll (d : α) (f : Nat → α → α) (t : Table α) : (Table.mapAll d f t).wf d = true := by
  induction t with
  | nil => rfl
  | cons e t ih => exact Table.wf_write d _ _ ih

/-- Reading after a function applied to every entry: the function of what was read, where an entry was listed. -/
theorem Table.read_mapAll (d : α) (f : Nat → α → α) (t : Table α) (k : Nat) :
    Table.read d (Table.mapAll d f t) k = if t.any (fun e => e.1 == k) then f k (Table.read d t k) else d := by
  induction t with
  | nil => rfl
  | cons e t ih =>
    obtain ⟨j, v⟩ := e
    have h : Table.mapAll d f ((j, v) :: t) = Table.write d (Table.mapAll d f t) j (f j v) := rfl
    rw [h]
    by_cases hk : k = j
    · subst hk; simp [Table.read_write, Table.read]
    · have hj : (j == k) = false := by simpa using fun e => hk e.symm
      rw [Table.read_write_other d _ _ hk, ih]
      simp only [Table.read, if_neg hk, List.any_cons, hj, Bool.false_or]

/-! ### Memories -/

theorem Memory.wf_nil : Memory.wf [] = true := rfl

theorem Memory.wf_put (m : Memory) (a : Nat) (b : Byte) (h : m.wf = true) : (m.put a b).wf = true :=
  Table.wf_write _ _ _ h

theorem Memory.wf_filter (m : Memory) (p : Nat × Byte → Bool) (h : m.wf = true) : Memory.wf (m.filter p) = true :=
  Table.wf_filter _ _ h

/-- Every write of bytes keeps the canonical form. -/
theorem Memory.wf_write (m : Memory) (a : Nat) (bs : List Byte) (h : m.wf = true) : (m.write a bs).wf = true := by
  induction bs generalizing m a with
  | nil => exact h
  | cons b bs ih => exact ih _ _ (Memory.wf_put m a b h)

/-- A byte outside the bytes written reads as before. -/
theorem Memory.byte_write_outside (m : Memory) (a : Nat) (bs : List Byte) (i : Nat) (h : i < a ∨ a + bs.length ≤ i) :
    (m.write a bs).byte i = m.byte i := by
  induction bs generalizing m a with
  | nil => rfl
  | cons b bs ih =>
    simp only [List.length_cons] at h
    rw [Memory.write, ih _ _ (by omega)]
    exact Table.read_write_other _ _ _ (by omega)

/-- A byte that was written reads as written. -/
theorem Memory.byte_write_inside (m : Memory) (a : Nat) (bs : List Byte) (i : Nat) (h : i < bs.length) :
    (m.write a bs).byte (a + i) = bs[i] := by
  induction bs generalizing m a i with
  | nil => simp at h
  | cons b bs ih =>
    rw [Memory.write]
    cases i with
    | zero =>
      rw [Memory.byte_write_outside _ _ _ _ (by omega)]
      simp [Memory.put, Memory.byte]
    | succ i =>
      have := ih (m.put a b) (a + 1) i (by simpa using h)
      rw [show a + (i + 1) = a + 1 + i by omega, this]
      simp

/-- Bytes written are read back. -/
theorem Memory.bytes_write (m : Memory) (a : Nat) (bs : List Byte) : (m.write a bs).bytes a bs.length = bs := by
  apply List.ext_getElem
  · simp [Memory.bytes]
  · intro i h1 h2
    simp only [Memory.bytes, List.getElem_map, List.getElem_range]
    exact Memory.byte_write_inside m a bs i h2

end Sys2Proof
end

