-- ==== Sys2Proof/Laws/KeepOps.lean ====
section
/-! SUPPORT. Every operation of Ops keeps the queues and memories in order. -/

set_option linter.unusedTactic false
set_option linter.unreachableTactic false
set_option linter.unusedVariables false

namespace Sys2Proof.Machine


/-- What a fold does keeps the queues and memories in order when every step of it does. -/
theorem foldl_orderly {α : Type} (f : State → α → State) (l : List α) (s : State) (hf : ∀ (s : State) a, s.orderly → (f s a).orderly)
    (h : s.orderly) : (l.foldl f s).orderly := by
  induction l generalizing s with
  | nil => exact h
  | cons a l ih => exact ih _ (hf s a h)

theorem foldl_fst_orderly {α β : Type} (f : State × β → α → State × β) (l : List α) (s : State × β)
    (hf : ∀ (s : State × β) a, s.1.orderly → (f s a).1.orderly) (h : s.1.orderly) : (l.foldl f s).1.orderly := by
  induction l generalizing s with
  | nil => exact h
  | cons a l ih => exact ih _ (hf s a h)

theorem ite_orderly {c : Prop} [Decidable c] {a b : State} (ha : c → a.orderly) (hb : ¬c → b.orderly) :
    (if c then a else b).orderly := by
  split
  · exact ha ‹_›
  · exact hb ‹_›

theorem ite_fst_orderly {β : Type} {c : Prop} [Decidable c] {a b : State × β} (ha : c → a.1.orderly) (hb : ¬c → b.1.orderly) :
    (if c then a else b).1.orderly := by
  split
  · exact ha ‹_›
  · exact hb ‹_›

theorem pair_orderly {β : Type} {x : State × β} {s : State} {b : β} (e : x = (s, b)) (h : x.1.orderly) : s.orderly := by
  subst e
  exact h

theorem State.ordered {s : State} (h : s.orderly) : Ordered s.evq.queue s.log.entries s.adk.unacked s.tier.mem s.cpu.spad
    s.cpu.cmem s.comp.staged s.sec.fwBytes s.sec.attWin := h
theorem State.events_of {s : State} (h : s.orderly) : s.evq.queue.length ≤ 4096 := h.events_le
theorem State.entries_of {s : State} (h : s.orderly) : s.log.entries.length ≤ 16384 := h.entries_le
theorem State.unacked_of {s : State} (h : s.orderly) : s.adk.unacked.length ≤ 64 := h.unacked_le
theorem State.t0_of {s : State} (h : s.orderly) : s.tier.mem.wf = true := h.t0_wf
theorem State.spad_of {s : State} (h : s.orderly) : s.cpu.spad.wf = true := h.spad_wf
theorem State.cmem_of {s : State} (h : s.orderly) : s.cpu.cmem.wf = true := h.cmem_wf
theorem State.staged_of {s : State} (h : s.orderly) : s.comp.staged.wf = true := h.staged_wf
theorem State.firmware_of {s : State} (h : s.orderly) : s.sec.fwBytes.wf = true := h.firmware_wf
theorem State.report_of {s : State} (h : s.orderly) : s.sec.attWin.wf = true := h.report_wf

theorem next_orderly {s : State} (h : s.orderly) : inOrder (.next s) :=
  fun _ e => Host.Outcome.next.inj e ▸ h


theorem State.loseEvent_orderly (s : State) (hs : s.orderly) : (State.loseEvent s).orderly := by
  unfold State.loseEvent
  repeat' first
    | with_reducible assumption
    | with_reducible apply ite_orderly
    | with_reducible apply ite_fst_orderly
    | (intro; intros)
    | split
    | dsimp only
    | (unfold State.orderly
       dsimp only
       refine Ordered.mk ?_ ?_ ?_ ?_ ?_ ?_ ?_ ?_ ?_ <;> repeat' first
        | with_reducible apply State.events_of
        | with_reducible apply State.entries_of
        | with_reducible apply State.unacked_of
        | with_reducible apply State.t0_of
        | with_reducible apply State.spad_of
        | with_reducible apply State.cmem_of
        | with_reducible apply State.staged_of
        | with_reducible apply State.firmware_of
        | with_reducible apply State.report_of
        | with_reducible exact Memory.wf_nil
        | with_reducible apply Memory.wf_write
        | with_reducible apply Memory.wf_put
        | with_reducible apply Memory.wf_filter
        | rw [List.length_map]
        | exact Nat.zero_le _)
    | refine pair_orderly (by assumption) ?_
    | assumption

theorem State.noteLost_orderly (s : State) (hs : s.orderly) : (State.noteLost s).orderly := by
  unfold State.noteLost
  split
  · exact hs
  · rename_i hc
    refine { hs with events_le := ?_ }
    simp at hc ⊢
    omega

theorem State.event_orderly (s : State) (code : Nat) (detail : Nat) (sr : BitVec 16) (param : Nat) (logSeq : Nat) (hs : s.orderly) : (State.event s code detail sr param logSeq).orderly := by
  unfold State.event
  split
  · exact hs
  · have h1 := s.noteLost_orderly hs
    generalize s.noteLost = s1 at *
    dsimp only
    split
    · exact h1
    · refine { h1 with events_le := ?_ }
      simp
      omega

theorem State.satEvent_orderly (s : State) (just : Bool) (i : Nat) (sr : BitVec 16) (addr : Nat) (hs : s.orderly) : (State.satEvent s just i sr addr).orderly := by
  unfold State.satEvent
  repeat' first
    | with_reducible assumption
    | with_reducible apply State.event_orderly
    | with_reducible apply ite_orderly
    | with_reducible apply ite_fst_orderly
    | (intro; intros)
    | split
    | dsimp only
    | (unfold State.orderly
       dsimp only
       with_reducible apply State.ordered)
    | refine pair_orderly (by assumption) ?_
    | assumption

theorem State.countLog_orderly (s : State) (i : Nat) (hs : s.orderly) : (State.countLog s i).orderly := by
  unfold State.countLog
  repeat' first
    | with_reducible assumption
    | with_reducible apply State.satEvent_orderly
    | with_reducible apply ite_orderly
    | with_reducible apply ite_fst_orderly
    | (intro; intros)
    | split
    | dsimp only
    | (unfold State.orderly
       dsimp only
       refine Ordered.mk ?_ ?_ ?_ ?_ ?_ ?_ ?_ ?_ ?_ <;> repeat' first
        | with_reducible apply State.events_of
        | with_reducible apply State.entries_of
        | with_reducible apply State.unacked_of
        | with_reducible apply State.t0_of
        | with_reducible apply State.spad_of
        | with_reducible apply State.cmem_of
        | with_reducible apply State.staged_of
        | with_reducible apply State.firmware_of
        | with_reducible apply State.report_of
        | with_reducible exact Memory.wf_nil
        | with_reducible apply Memory.wf_write
        | with_reducible apply Memory.wf_put
        | with_reducible apply Memory.wf_filter
        | rw [List.length_map]
        | exact Nat.zero_le _)
    | refine pair_orderly (by assumption) ?_
    | assumption

theorem State.appendLog_orderly (s : State) (cls : Nat) (detail : Nat) (sr : BitVec 16) (param : Nat) (hs : s.orderly) : (State.appendLog s cls detail sr param).orderly := by
  unfold State.appendLog
  dsimp only
  have h1 : ∀ (es : List (Nat × LogEntry)), es.length ≤ 16384 → ∀ (w : BitVec 32) u,
      ({ s with log := { s.log with entries := es, wrSeq := w, unitErr := u } } : State).orderly :=
    fun es he _ _ => { hs with entries_le := he }
  have h2 := hs.entries_le
  split
  · rename_i hc
    apply State.countLog_orderly
    apply h1
    simp only [decide_eq_true_eq] at hc
    simp
    omega
  · rename_i hc
    apply h1
    simp only [decide_eq_true_eq] at hc
    simp
    omega

theorem State.repeatLog_orderly (s : State) (seq : Nat) (hs : s.orderly) : (State.repeatLog s seq).orderly := by
  unfold State.repeatLog
  exact { hs with entries_le := by simpa using hs.entries_le }

theorem State.logE_orderly (s : State) (cls : Nat) (detail : Nat) (sr : BitVec 16) (param : Nat) (mirror : Bool) (hs : s.orderly) : (State.logE s cls detail sr param mirror).orderly := by
  unfold State.logE
  repeat' first
    | with_reducible assumption
    | with_reducible apply State.event_orderly
    | with_reducible apply State.appendLog_orderly
    | with_reducible apply State.repeatLog_orderly
    | with_reducible apply ite_orderly
    | with_reducible apply ite_fst_orderly
    | (intro; intros)
    | split
    | dsimp only
    | (unfold State.orderly
       dsimp only
       with_reducible apply State.ordered)
    | refine pair_orderly (by assumption) ?_
    | assumption

theorem State.logWith_orderly (s : State) (cls : Nat) (detail : Nat) (sr : BitVec 16) (param : Nat) (code : Nat) (edetail : Nat) (eparam : Nat) (hs : s.orderly) : (State.logWith s cls detail sr param code edetail eparam).orderly := by
  unfold State.logWith
  repeat' first
    | with_reducible assumption
    | with_reducible apply State.event_orderly
    | with_reducible apply State.logE_orderly
    | with_reducible apply ite_orderly
    | with_reducible apply ite_fst_orderly
    | (intro; intros)
    | split
    | dsimp only
    | (unfold State.orderly
       dsimp only
       with_reducible apply State.ordered)
    | refine pair_orderly (by assumption) ?_
    | assumption

theorem State.countSec_orderly (s : State) (i : Nat) (hs : s.orderly) : (State.countSec s i).orderly := by
  unfold State.countSec
  repeat' first
    | with_reducible assumption
    | with_reducible apply State.satEvent_orderly
    | with_reducible apply ite_orderly
    | with_reducible apply ite_fst_orderly
    | (intro; intros)
    | split
    | dsimp only
    | (unfold State.orderly
       dsimp only
       with_reducible apply State.ordered)
    | refine pair_orderly (by assumption) ?_
    | assumption

theorem State.countExt_orderly (s : State) (i : Nat) (n : Nat) (hs : s.orderly) : (State.countExt s i n).orderly := by
  unfold State.countExt
  repeat' first
    | with_reducible assumption
    | with_reducible apply State.satEvent_orderly
    | with_reducible apply ite_orderly
    | with_reducible apply ite_fst_orderly
    | (intro; intros)
    | split
    | dsimp only
    | (unfold State.orderly
       dsimp only
       with_reducible apply State.ordered)
    | refine pair_orderly (by assumption) ?_
    | assumption

theorem State.countLse_orderly (s : State) (i : Nat) (hs : s.orderly) : (State.countLse s i).orderly := by
  unfold State.countLse
  repeat' first
    | with_reducible assumption
    | with_reducible apply State.satEvent_orderly
    | with_reducible apply ite_orderly
    | with_reducible apply ite_fst_orderly
    | (intro; intros)
    | split
    | dsimp only
    | (unfold State.orderly
       dsimp only
       with_reducible apply State.ordered)
    | refine pair_orderly (by assumption) ?_
    | assumption

theorem State.countTrn_orderly (s : State) (i : Nat) (hs : s.orderly) : (State.countTrn s i).orderly := by
  unfold State.countTrn
  repeat' first
    | with_reducible assumption
    | with_reducible apply State.satEvent_orderly
    | with_reducible apply ite_orderly
    | with_reducible apply ite_fst_orderly
    | (intro; intros)
    | split
    | dsimp only
    | (unfold State.orderly
       dsimp only
       with_reducible apply State.ordered)
    | refine pair_orderly (by assumption) ?_
    | assumption

theorem State.countCmp_orderly (s : State) (i : Nat) (n : Nat) (hs : s.orderly) : (State.countCmp s i n).orderly := by
  unfold State.countCmp
  repeat' first
    | with_reducible assumption
    | with_reducible apply State.satEvent_orderly
    | with_reducible apply ite_orderly
    | with_reducible apply ite_fst_orderly
    | (intro; intros)
    | split
    | dsimp only
    | (unfold State.orderly
       dsimp only
       with_reducible apply State.ordered)
    | refine pair_orderly (by assumption) ?_
    | assumption

theorem State.countClv_orderly (s : State) (i : Nat) (hs : s.orderly) : (State.countClv s i).orderly := by
  unfold State.countClv
  repeat' first
    | with_reducible assumption
    | with_reducible apply State.satEvent_orderly
    | with_reducible apply ite_orderly
    | with_reducible apply ite_fst_orderly
    | (intro; intros)
    | split
    | dsimp only
    | (unfold State.orderly
       dsimp only
       with_reducible apply State.ordered)
    | refine pair_orderly (by assumption) ?_
    | assumption

theorem State.countAtn_orderly (s : State) (i : Nat) (n : Nat) (hs : s.orderly) : (State.countAtn s i n).orderly := by
  unfold State.countAtn
  repeat' first
    | with_reducible assumption
    | with_reducible apply State.satEvent_orderly
    | with_reducible apply ite_orderly
    | with_reducible apply ite_fst_orderly
    | (intro; intros)
    | split
    | dsimp only
    | (unfold State.orderly
       dsimp only
       with_reducible apply State.ordered)
    | refine pair_orderly (by assumption) ?_
    | assumption

theorem State.countCmpo_orderly (s : State) (i : Nat) (hs : s.orderly) : (State.countCmpo s i).orderly := by
  unfold State.countCmpo
  repeat' first
    | with_reducible assumption
    | with_reducible apply State.satEvent_orderly
    | with_reducible apply ite_orderly
    | with_reducible apply ite_fst_orderly
    | (intro; intros)
    | split
    | dsimp only
    | (unfold State.orderly
       dsimp only
       with_reducible apply State.ordered)
    | refine pair_orderly (by assumption) ?_
    | assumption

theorem State.countAdk_orderly (s : State) (i : Nat) (hs : s.orderly) : (State.countAdk s i).orderly := by
  unfold State.countAdk
  repeat' first
    | with_reducible assumption
    | with_reducible apply State.satEvent_orderly
    | with_reducible apply ite_orderly
    | with_reducible apply ite_fst_orderly
    | (intro; intros)
    | split
    | dsimp only
    | (unfold State.orderly
       dsimp only
       with_reducible apply State.ordered)
    | refine pair_orderly (by assumption) ?_
    | assumption

theorem State.countShadow_orderly (s : State) (i : Nat) (hs : s.orderly) : (State.countShadow s i).orderly := by
  unfold State.countShadow
  repeat' first
    | with_reducible assumption
    | with_reducible apply State.satEvent_orderly
    | with_reducible apply ite_orderly
    | with_reducible apply ite_fst_orderly
    | (intro; intros)
    | split
    | dsimp only
    | (unfold State.orderly
       dsimp only
       with_reducible apply State.ordered)
    | refine pair_orderly (by assumption) ?_
    | assumption

theorem State.setPort_orderly (s : State) (p : Nat) (v : Port) (hs : s.orderly) : (State.setPort s p v).orderly := by
  unfold State.setPort
  repeat' first
    | with_reducible assumption
    | with_reducible apply ite_orderly
    | with_reducible apply ite_fst_orderly
    | (intro; intros)
    | split
    | dsimp only
    | (unfold State.orderly
       dsimp only
       with_reducible apply State.ordered)
    | refine pair_orderly (by assumption) ?_
    | assumption

theorem State.onLink_orderly (s : State) (p : Nat) (f : Link → Link) (hs : s.orderly) : (State.onLink s p f).orderly := by
  unfold State.onLink
  repeat' first
    | with_reducible assumption
    | with_reducible apply State.setPort_orderly
    | with_reducible apply ite_orderly
    | with_reducible apply ite_fst_orderly
    | (intro; intros)
    | split
    | dsimp only
    | (unfold State.orderly
       dsimp only
       with_reducible apply State.ordered)
    | refine pair_orderly (by assumption) ?_
    | assumption

theorem State.onTc_orderly (s : State) (p : Nat) (f : Traffic → Traffic) (hs : s.orderly) : (State.onTc s p f).orderly := by
  unfold State.onTc
  repeat' first
    | with_reducible assumption
    | with_reducible apply State.setPort_orderly
    | with_reducible apply ite_orderly
    | with_reducible apply ite_fst_orderly
    | (intro; intros)
    | split
    | dsimp only
    | (unfold State.orderly
       dsimp only
       with_reducible apply State.ordered)
    | refine pair_orderly (by assumption) ?_
    | assumption

theorem State.countPrt_orderly (s : State) (p : Nat) (i : Nat) (n : Nat) (hs : s.orderly) : (State.countPrt s p i n).orderly := by
  unfold State.countPrt
  repeat' first
    | with_reducible assumption
    | with_reducible apply State.satEvent_orderly
    | with_reducible apply State.onLink_orderly
    | with_reducible apply ite_orderly
    | with_reducible apply ite_fst_orderly
    | (intro; intros)
    | split
    | dsimp only
    | (unfold State.orderly
       dsimp only
       with_reducible apply State.ordered)
    | refine pair_orderly (by assumption) ?_
    | assumption

theorem State.onQueue_orderly (s : State) (p : Nat) (q : Nat) (f : Queue → Queue) (hs : s.orderly) : (State.onQueue s p q f).orderly := by
  unfold State.onQueue
  repeat' first
    | with_reducible assumption
    | with_reducible apply State.onTc_orderly
    | with_reducible apply ite_orderly
    | with_reducible apply ite_fst_orderly
    | (intro; intros)
    | split
    | dsimp only
    | (unfold State.orderly
       dsimp only
       with_reducible apply State.ordered)
    | refine pair_orderly (by assumption) ?_
    | assumption

theorem State.countQue_orderly (s : State) (p : Nat) (q : Nat) (i : Nat) (n : Nat) (hs : s.orderly) : (State.countQue s p q i n).orderly := by
  unfold State.countQue
  repeat' first
    | with_reducible assumption
    | with_reducible apply State.satEvent_orderly
    | with_reducible apply State.onQueue_orderly
    | with_reducible apply ite_orderly
    | with_reducible apply ite_fst_orderly
    | (intro; intros)
    | split
    | dsimp only
    | (unfold State.orderly
       dsimp only
       with_reducible apply State.ordered)
    | refine pair_orderly (by assumption) ?_
    | assumption

theorem State.setCore_orderly (s : State) (k : Nat) (v : Core) (hs : s.orderly) : (State.setCore s k v).orderly := by
  unfold State.setCore
  repeat' first
    | with_reducible assumption
    | with_reducible apply ite_orderly
    | with_reducible apply ite_fst_orderly
    | (intro; intros)
    | split
    | dsimp only
    | (unfold State.orderly
       dsimp only
       with_reducible apply State.ordered)
    | refine pair_orderly (by assumption) ?_
    | assumption

theorem State.onCore_orderly (s : State) (k : Nat) (f : Core → Core) (hs : s.orderly) : (State.onCore s k f).orderly := by
  unfold State.onCore
  repeat' first
    | with_reducible assumption
    | with_reducible apply State.setCore_orderly
    | with_reducible apply ite_orderly
    | with_reducible apply ite_fst_orderly
    | (intro; intros)
    | split
    | dsimp only
    | (unfold State.orderly
       dsimp only
       with_reducible apply State.ordered)
    | refine pair_orderly (by assumption) ?_
    | assumption

theorem State.setThread_orderly (s : State) (k : Nat) (t : Nat) (v : Thread) (hs : s.orderly) : (State.setThread s k t v).orderly := by
  unfold State.setThread
  repeat' first
    | with_reducible assumption
    | with_reducible apply State.onCore_orderly
    | with_reducible apply ite_orderly
    | with_reducible apply ite_fst_orderly
    | (intro; intros)
    | split
    | dsimp only
    | (unfold State.orderly
       dsimp only
       with_reducible apply State.ordered)
    | refine pair_orderly (by assumption) ?_
    | assumption

theorem State.onThread_orderly (s : State) (k : Nat) (t : Nat) (f : Thread → Thread) (hs : s.orderly) : (State.onThread s k t f).orderly := by
  unfold State.onThread
  repeat' first
    | with_reducible assumption
    | with_reducible apply State.setThread_orderly
    | with_reducible apply ite_orderly
    | with_reducible apply ite_fst_orderly
    | (intro; intros)
    | split
    | dsimp only
    | (unfold State.orderly
       dsimp only
       with_reducible apply State.ordered)
    | refine pair_orderly (by assumption) ?_
    | assumption

theorem State.onEngine_orderly (s : State) (k : Nat) (e : Nat) (f : Engine → Engine) (hs : s.orderly) : (State.onEngine s k e f).orderly := by
  unfold State.onEngine
  repeat' first
    | with_reducible assumption
    | with_reducible apply State.onCore_orderly
    | with_reducible apply ite_orderly
    | with_reducible apply ite_fst_orderly
    | (intro; intros)
    | split
    | dsimp only
    | (unfold State.orderly
       dsimp only
       with_reducible apply State.ordered)
    | refine pair_orderly (by assumption) ?_
    | assumption

theorem State.onDom_orderly (s : State) (d : Nat) (f : Domain → Domain) (hs : s.orderly) : (State.onDom s d f).orderly := by
  unfold State.onDom
  repeat' first
    | with_reducible assumption
    | with_reducible apply ite_orderly
    | with_reducible apply ite_fst_orderly
    | (intro; intros)
    | split
    | dsimp only
    | (unfold State.orderly
       dsimp only
       with_reducible apply State.ordered)
    | refine pair_orderly (by assumption) ?_
    | assumption

theorem State.countCoh_orderly (s : State) (d : Nat) (i : Nat) (hs : s.orderly) : (State.countCoh s d i).orderly := by
  unfold State.countCoh
  repeat' first
    | with_reducible assumption
    | with_reducible apply State.satEvent_orderly
    | with_reducible apply State.onDom_orderly
    | with_reducible apply ite_orderly
    | with_reducible apply ite_fst_orderly
    | (intro; intros)
    | split
    | dsimp only
    | (unfold State.orderly
       dsimp only
       with_reducible apply State.ordered)
    | refine pair_orderly (by assumption) ?_
    | assumption

theorem State.setExtent_orderly (s : State) (e : Nat) (v : Extent) (hs : s.orderly) : (State.setExtent s e v).orderly := by
  unfold State.setExtent
  repeat' first
    | with_reducible assumption
    | with_reducible apply ite_orderly
    | with_reducible apply ite_fst_orderly
    | (intro; intros)
    | split
    | dsimp only
    | (unfold State.orderly
       dsimp only
       with_reducible apply State.ordered)
    | refine pair_orderly (by assumption) ?_
    | assumption

theorem State.onExtent_orderly (s : State) (e : Nat) (f : Extent → Extent) (hs : s.orderly) : (State.onExtent s e f).orderly := by
  unfold State.onExtent
  repeat' first
    | with_reducible assumption
    | with_reducible apply State.setExtent_orderly
    | with_reducible apply ite_orderly
    | with_reducible apply ite_fst_orderly
    | (intro; intros)
    | split
    | dsimp only
    | (unfold State.orderly
       dsimp only
       with_reducible apply State.ordered)
    | refine pair_orderly (by assumption) ?_
    | assumption

theorem State.serving_orderly (s : State) (ks : List Nat) (t : BitVec 10) (hs : s.orderly) : (State.serving s ks t).orderly := by
  unfold State.serving
  repeat' first
    | with_reducible assumption
    | with_reducible apply State.onCore_orderly
    | with_reducible apply foldl_orderly
    | with_reducible apply foldl_fst_orderly
    | with_reducible apply ite_orderly
    | with_reducible apply ite_fst_orderly
    | (intro; intros)
    | split
    | dsimp only
    | (unfold State.orderly
       dsimp only
       with_reducible apply State.ordered)
    | refine pair_orderly (by assumption) ?_
    | assumption

theorem State.setPage_orderly (s : State) (p : Nat) (v : TierPage) (hs : s.orderly) : (State.setPage s p v).orderly := by
  unfold State.setPage
  repeat' first
    | with_reducible assumption
    | with_reducible apply ite_orderly
    | with_reducible apply ite_fst_orderly
    | (intro; intros)
    | split
    | dsimp only
    | (unfold State.orderly
       dsimp only
       with_reducible apply State.ordered)
    | refine pair_orderly (by assumption) ?_
    | assumption

theorem State.onPage_orderly (s : State) (p : Nat) (f : TierPage → TierPage) (hs : s.orderly) : (State.onPage s p f).orderly := by
  unfold State.onPage
  repeat' first
    | with_reducible assumption
    | with_reducible apply State.setPage_orderly
    | with_reducible apply ite_orderly
    | with_reducible apply ite_fst_orderly
    | (intro; intros)
    | split
    | dsimp only
    | (unfold State.orderly
       dsimp only
       with_reducible apply State.ordered)
    | refine pair_orderly (by assumption) ?_
    | assumption

theorem State.setTray_orderly (s : State) (t : Nat) (v : Tray) (hs : s.orderly) : (State.setTray s t v).orderly := by
  unfold State.setTray
  repeat' first
    | with_reducible assumption
    | with_reducible apply ite_orderly
    | with_reducible apply ite_fst_orderly
    | (intro; intros)
    | split
    | dsimp only
    | (unfold State.orderly
       dsimp only
       with_reducible apply State.ordered)
    | refine pair_orderly (by assumption) ?_
    | assumption

theorem State.onTray_orderly (s : State) (t : Nat) (f : Tray → Tray) (hs : s.orderly) : (State.onTray s t f).orderly := by
  unfold State.onTray
  repeat' first
    | with_reducible assumption
    | with_reducible apply State.setTray_orderly
    | with_reducible apply ite_orderly
    | with_reducible apply ite_fst_orderly
    | (intro; intros)
    | split
    | dsimp only
    | (unfold State.orderly
       dsimp only
       with_reducible apply State.ordered)
    | refine pair_orderly (by assumption) ?_
    | assumption

theorem State.setSector_orderly (s : State) (b : Nat) (v : Sector) (hs : s.orderly) : (State.setSector s b v).orderly := by
  unfold State.setSector
  repeat' first
    | with_reducible assumption
    | with_reducible apply ite_orderly
    | with_reducible apply ite_fst_orderly
    | (intro; intros)
    | split
    | dsimp only
    | (unfold State.orderly
       dsimp only
       with_reducible apply State.ordered)
    | refine pair_orderly (by assumption) ?_
    | assumption

theorem State.setColl_orderly (s : State) (i : Nat) (v : Coll) (hs : s.orderly) : (State.setColl s i v).orderly := by
  unfold State.setColl
  repeat' first
    | with_reducible assumption
    | with_reducible apply ite_orderly
    | with_reducible apply ite_fst_orderly
    | (intro; intros)
    | split
    | dsimp only
    | (unfold State.orderly
       dsimp only
       with_reducible apply State.ordered)
    | refine pair_orderly (by assumption) ?_
    | assumption

theorem State.onColl_orderly (s : State) (i : Nat) (f : Coll → Coll) (hs : s.orderly) : (State.onColl s i f).orderly := by
  unfold State.onColl
  repeat' first
    | with_reducible assumption
    | with_reducible apply State.setColl_orderly
    | with_reducible apply ite_orderly
    | with_reducible apply ite_fst_orderly
    | (intro; intros)
    | split
    | dsimp only
    | (unfold State.orderly
       dsimp only
       with_reducible apply State.ordered)
    | refine pair_orderly (by assumption) ?_
    | assumption

theorem State.onGroup_orderly (s : State) (g : Nat) (f : Group → Group) (hs : s.orderly) : (State.onGroup s g f).orderly := by
  unfold State.onGroup
  repeat' first
    | with_reducible assumption
    | with_reducible apply ite_orderly
    | with_reducible apply ite_fst_orderly
    | (intro; intros)
    | split
    | dsimp only
    | (unfold State.orderly
       dsimp only
       with_reducible apply State.ordered)
    | refine pair_orderly (by assumption) ?_
    | assumption

theorem State.onHandle_orderly (s : State) (h : Nat) (f : Handle → Handle) (hs : s.orderly) : (State.onHandle s h f).orderly := by
  unfold State.onHandle
  repeat' first
    | with_reducible assumption
    | with_reducible apply ite_orderly
    | with_reducible apply ite_fst_orderly
    | (intro; intros)
    | split
    | dsimp only
    | (unfold State.orderly
       dsimp only
       with_reducible apply State.ordered)
    | refine pair_orderly (by assumption) ?_
    | assumption

theorem State.onTenant_orderly (s : State) (t : Nat) (f : Tenant → Tenant) (hs : s.orderly) : (State.onTenant s t f).orderly := by
  unfold State.onTenant
  repeat' first
    | with_reducible assumption
    | with_reducible apply ite_orderly
    | with_reducible apply ite_fst_orderly
    | (intro; intros)
    | split
    | dsimp only
    | (unfold State.orderly
       dsimp only
       with_reducible apply State.ordered)
    | refine pair_orderly (by assumption) ?_
    | assumption

theorem State.onLease_orderly (s : State) (i : Nat) (f : Lease → Lease) (hs : s.orderly) : (State.onLease s i f).orderly := by
  unfold State.onLease
  repeat' first
    | with_reducible assumption
    | with_reducible apply ite_orderly
    | with_reducible apply ite_fst_orderly
    | (intro; intros)
    | split
    | dsimp only
    | (unfold State.orderly
       dsimp only
       with_reducible apply State.ordered)
    | refine pair_orderly (by assumption) ?_
    | assumption

theorem State.onAdm_orderly (s : State) (i : Nat) (f : AdmRecord → AdmRecord) (hs : s.orderly) : (State.onAdm s i f).orderly := by
  unfold State.onAdm
  repeat' first
    | with_reducible assumption
    | with_reducible apply ite_orderly
    | with_reducible apply ite_fst_orderly
    | (intro; intros)
    | split
    | dsimp only
    | (unfold State.orderly
       dsimp only
       with_reducible apply State.ordered)
    | refine pair_orderly (by assumption) ?_
    | assumption

theorem State.onDie_orderly (s : State) (x : Nat) (f : Die → Die) (hs : s.orderly) : (State.onDie s x f).orderly := by
  unfold State.onDie
  repeat' first
    | with_reducible assumption
    | with_reducible apply ite_orderly
    | with_reducible apply ite_fst_orderly
    | (intro; intros)
    | split
    | dsimp only
    | (unfold State.orderly
       dsimp only
       refine Ordered.mk ?_ ?_ ?_ ?_ ?_ ?_ ?_ ?_ ?_ <;> repeat' first
        | with_reducible apply State.events_of
        | with_reducible apply State.entries_of
        | with_reducible apply State.unacked_of
        | with_reducible apply State.t0_of
        | with_reducible apply State.spad_of
        | with_reducible apply State.cmem_of
        | with_reducible apply State.staged_of
        | with_reducible apply State.firmware_of
        | with_reducible apply State.report_of
        | with_reducible exact Memory.wf_nil
        | with_reducible apply Memory.wf_write
        | with_reducible apply Memory.wf_put
        | with_reducible apply Memory.wf_filter
        | rw [List.length_map]
        | exact Nat.zero_le _)
    | refine pair_orderly (by assumption) ?_
    | assumption

theorem State.onBridle_orderly (s : State) (k : Nat) (f : Bridle → Bridle) (hs : s.orderly) : (State.onBridle s k f).orderly := by
  unfold State.onBridle
  repeat' first
    | with_reducible assumption
    | with_reducible apply ite_orderly
    | with_reducible apply ite_fst_orderly
    | (intro; intros)
    | split
    | dsimp only
    | (unfold State.orderly
       dsimp only
       with_reducible apply State.ordered)
    | refine pair_orderly (by assumption) ?_
    | assumption

theorem State.draw_orderly (s : State) (hs : s.orderly) : (State.draw s).1.orderly := by
  unfold State.draw
  repeat' first
    | with_reducible assumption
    | with_reducible apply ite_orderly
    | with_reducible apply ite_fst_orderly
    | (intro; intros)
    | split
    | dsimp only
    | (unfold State.orderly
       dsimp only
       with_reducible apply State.ordered)
    | refine pair_orderly (by assumption) ?_
    | assumption

end Sys2Proof.Machine
end

