-- ==== Sys2Proof/Laws/KeepTraffic.lean ====
section
/-! SUPPORT. Every operation of Traffic keeps the queues and memories in order. -/

set_option linter.unusedTactic false
set_option linter.unreachableTactic false
set_option linter.unusedVariables false

namespace Sys2Proof.Machine

theorem State.enqueue_orderly (s : State) (p : Nat) (override : Option Nat) (x : QFrame) (hs : s.orderly) : (State.enqueue s p override x).orderly := by
  unfold State.enqueue
  repeat' first
    | with_reducible assumption
    | with_reducible apply State.onTc_orderly
    | with_reducible apply State.onQueue_orderly
    | with_reducible apply State.countQue_orderly
    | with_reducible apply ite_orderly
    | with_reducible apply ite_fst_orderly
    | (intro; intros)
    | split
    | dsimp only
    | (unfold State.orderly
       dsimp only
       with_reducible apply State.ordered)
    | refine pair_orderly (by assumption) ?_
    | assumption

theorem State.sendFrom_orderly (s : State) (site : Nat) (p : Nat) (override : Option Nat) (x : QFrame) (hs : s.orderly) : (State.sendFrom s site p override x).orderly := by
  unfold State.sendFrom
  repeat' first
    | with_reducible assumption
    | with_reducible apply State.enqueue_orderly
    | with_reducible apply ite_orderly
    | with_reducible apply ite_fst_orderly
    | (intro; intros)
    | split
    | dsimp only
    | (unfold State.orderly
       dsimp only
       with_reducible apply State.ordered)
    | refine pair_orderly (by assumption) ?_
    | assumption

theorem State.chargeMeter_orderly (s : State) (p : Nat) (t : BitVec 10) (b : Nat) (hs : s.orderly) : (State.chargeMeter s p t b).orderly := by
  unfold State.chargeMeter
  repeat' first
    | with_reducible assumption
    | with_reducible apply State.onTc_orderly
    | with_reducible apply ite_orderly
    | with_reducible apply ite_fst_orderly
    | (intro; intros)
    | split
    | dsimp only
    | (unfold State.orderly
       dsimp only
       with_reducible apply State.ordered)
    | refine pair_orderly (by assumption) ?_
    | assumption

end Sys2Proof.Machine
end

