-- ==== Sys2Proof/Laws/KeepCbf.lean ====
section
/-! SUPPORT. Every operation of Cbf keeps the queues and memories in order. -/

set_option linter.unusedTactic false
set_option linter.unreachableTactic false
set_option linter.unusedVariables false

namespace Sys2Proof.Machine

theorem State.countBlock_orderly (s : State) (sectN : Nat) (hs : s.orderly) : (State.countBlock s sectN).orderly := by
  unfold State.countBlock
  repeat' first
    | with_reducible assumption
    | with_reducible apply State.countCmp_orderly
    | with_reducible apply ite_orderly
    | with_reducible apply ite_fst_orderly
    | (intro; intros)
    | split
    | dsimp only
    | (unfold State.orderly
       dsimp only
       with_reducible apply State.ordered)
    | refine pair_orderly (by assumption) ?_
    | assumption

theorem State.egressForm_orderly (s : State) (p : Nat) (x : QFrame) (hs : s.orderly) : (State.egressForm s p x).1.orderly := by
  unfold State.egressForm
  repeat' first
    | with_reducible assumption
    | with_reducible apply State.countBlock_orderly
    | with_reducible apply foldl_orderly
    | with_reducible apply foldl_fst_orderly
    | with_reducible apply ite_orderly
    | with_reducible apply ite_fst_orderly
    | (intro; intros)
    | split
    | dsimp only
    | (unfold State.orderly
       dsimp only
       with_reducible apply State.ordered)
    | refine pair_orderly (by assumption) ?_
    | assumption

end Sys2Proof.Machine
end

