-- ==== Sys2Proof/Laws/KeepDevice.lean ====
section
/-! SUPPORT. Every operation of Device keeps the queues and memories in order. -/

set_option linter.unusedTactic false
set_option linter.unreachableTactic false
set_option linter.unusedVariables false

namespace Sys2Proof.Machine

theorem State.changeState_orderly (s : State) (n : ModState) (code : Nat) (trig : Nat) (hs : s.orderly) : (State.changeState s n code trig).orderly := by
  unfold State.changeState
  repeat' first
    | with_reducible assumption
    | with_reducible apply State.logWith_orderly
    | with_reducible apply ite_orderly
    | with_reducible apply ite_fst_orderly
    | (intro; intros)
    | split
    | dsimp only
    | (unfold State.orderly
       dsimp only
       with_reducible apply State.ordered)
    | refine pair_orderly (by assumption) ?_
    | assumption

end Sys2Proof.Machine
end

