-- ==== Sys2Proof/Laws/KeepFrames.lean ====
section
/-! SUPPORT. Every operation of Frames keeps the queues and memories in order. -/

set_option linter.unusedTactic false
set_option linter.unreachableTactic false
set_option linter.unusedVariables false

namespace Sys2Proof.Machine

theorem State.countDead_orderly (s : State) (p : Nat) (st : BitVec 6) (hs : s.orderly) : (State.countDead s p st).orderly := by
  unfold State.countDead
  repeat' first
    | with_reducible assumption
    | with_reducible apply State.countPrt_orderly
    | with_reducible apply ite_orderly
    | with_reducible apply ite_fst_orderly
    | (intro; intros)
    | split
    | dsimp only
    | (unfold State.orderly
       dsimp only
       with_reducible apply State.ordered)
    | refine pair_orderly (by assumption) ?_
    | assumption

theorem State.lotFail_orderly (s : State) (p : Nat) (hs : s.orderly) : (State.lotFail s p).orderly := by
  unfold State.lotFail
  repeat' first
    | with_reducible assumption
    | with_reducible apply State.logE_orderly
    | with_reducible apply State.onLink_orderly
    | with_reducible apply ite_orderly
    | with_reducible apply ite_fst_orderly
    | (intro; intros)
    | split
    | dsimp only
    | (unfold State.orderly
       dsimp only
       refine Ordered.mk ?_ ?_ ?_ ?_ ?_ ?_ ?_ ?_ ?_ <;> repeat' first
        | with_reducible apply State.events_of
        | with_reducible apply State.entries_of
        | with_reducible apply State.unacked_of
        | with_reducible apply State.t0_of
        | with_reducible apply State.spad_of
        | with_reducible apply State.cmem_of
        | with_reducible apply State.staged_of
        | with_reducible apply State.firmware_of
        | with_reducible apply State.report_of
        | with_reducible exact Memory.wf_nil
        | with_reducible apply Memory.wf_write
        | with_reducible apply Memory.wf_put
        | with_reducible apply Memory.wf_filter
        | rw [List.length_map]
        | exact Nat.zero_le _)
    | refine pair_orderly (by assumption) ?_
    | assumption

theorem State.lotStatus_orderly (s : State) (p : Nat) (st : BitVec 6) (hs : s.orderly) : (State.lotStatus s p st).orderly := by
  unfold State.lotStatus
  repeat' first
    | with_reducible assumption
    | with_reducible apply State.lotFail_orderly
    | with_reducible apply ite_orderly
    | with_reducible apply ite_fst_orderly
    | (intro; intros)
    | split
    | dsimp only
    | (unfold State.orderly
       dsimp only
       with_reducible apply State.ordered)
    | refine pair_orderly (by assumption) ?_
    | assumption

theorem State.emitOut_orderly (s : State) (n : Nat) (o : Origin) (x : QFrame) (hs : s.orderly) : (State.emitOut s n o x).orderly := by
  unfold State.emitOut
  repeat' first
    | with_reducible assumption
    | with_reducible apply State.onCore_orderly
    | with_reducible apply State.enqueue_orderly
    | with_reducible apply State.countDead_orderly
    | with_reducible apply State.lotStatus_orderly
    | with_reducible apply ite_orderly
    | with_reducible apply ite_fst_orderly
    | (intro; intros)
    | split
    | dsimp only
    | (unfold State.orderly
       dsimp only
       with_reducible apply State.ordered)
    | refine pair_orderly (by assumption) ?_
    | assumption

theorem State.notice_orderly (s : State) (u : BitVec 16) (f : Frame) (hs : s.orderly) : (State.notice s u f).orderly := by
  unfold State.notice
  repeat' first
    | with_reducible assumption
    | with_reducible apply State.sendFrom_orderly
    | with_reducible apply ite_orderly
    | with_reducible apply ite_fst_orderly
    | (intro; intros)
    | split
    | dsimp only
    | (unfold State.orderly
       dsimp only
       with_reducible apply State.ordered)
    | refine pair_orderly (by assumption) ?_
    | assumption

end Sys2Proof.Machine
end

