-- ==== Sys2Proof/Laws/KeepLocal.lean ====
section
/-! SUPPORT. Every operation of Local keeps the queues and memories in order. -/

set_option linter.unusedTactic false
set_option linter.unreachableTactic false
set_option linter.unusedVariables false

namespace Sys2Proof.Machine

theorem State.wakeWords_orderly (s : State) (cl : Nat) (hs : s.orderly) : (State.wakeWords s cl).orderly := by
  unfold State.wakeWords
  repeat' first
    | with_reducible assumption
    | with_reducible apply State.onCore_orderly
    | with_reducible apply foldl_orderly
    | with_reducible apply foldl_fst_orderly
    | with_reducible apply ite_orderly
    | with_reducible apply ite_fst_orderly
    | (intro; intros)
    | split
    | dsimp only
    | (unfold State.orderly
       dsimp only
       with_reducible apply State.ordered)
    | refine pair_orderly (by assumption) ?_
    | assumption

theorem State.localWrite_orderly (s : State) (k : Nat) (a : Nat) (bs : List Byte) (hs : s.orderly) : (State.localWrite s k a bs).orderly := by
  unfold State.localWrite
  repeat' first
    | with_reducible assumption
    | with_reducible apply State.wakeWords_orderly
    | with_reducible apply ite_orderly
    | with_reducible apply ite_fst_orderly
    | (intro; intros)
    | split
    | dsimp only
    | (unfold State.orderly
       dsimp only
       refine Ordered.mk ?_ ?_ ?_ ?_ ?_ ?_ ?_ ?_ ?_ <;> repeat' first
        | with_reducible apply State.events_of
        | with_reducible apply State.entries_of
        | with_reducible apply State.unacked_of
        | with_reducible apply State.t0_of
        | with_reducible apply State.spad_of
        | with_reducible apply State.cmem_of
        | with_reducible apply State.staged_of
        | with_reducible apply State.firmware_of
        | with_reducible apply State.report_of
        | with_reducible exact Memory.wf_nil
        | with_reducible apply Memory.wf_write
        | with_reducible apply Memory.wf_put
        | with_reducible apply Memory.wf_filter
        | rw [List.length_map]
        | exact Nat.zero_le _)
    | refine pair_orderly (by assumption) ?_
    | assumption

end Sys2Proof.Machine
end

