-- ==== Sys2Proof/Laws/KeepAbort.lean ====
section
/-! SUPPORT. Every operation of Abort keeps the queues and memories in order. -/

set_option linter.unusedTactic false
set_option linter.unreachableTactic false
set_option linter.unusedVariables false

namespace Sys2Proof.Machine

theorem State.toIssuer_orderly (s : State) (site : Nat) (n : Nat) (o : Origin) (q : Option Nat) (x : QFrame) (hs : s.orderly) : (State.toIssuer s site n o q x).orderly := by
  unfold State.toIssuer
  repeat' first
    | with_reducible assumption
    | with_reducible apply State.sendFrom_orderly
    | with_reducible apply State.lotStatus_orderly
    | with_reducible apply State.emitOut_orderly
    | with_reducible apply ite_orderly
    | with_reducible apply ite_fst_orderly
    | (intro; intros)
    | split
    | dsimp only
    | (unfold State.orderly
       dsimp only
       with_reducible apply State.ordered)
    | refine pair_orderly (by assumption) ?_
    | assumption

theorem State.toPart_orderly (s : State) (id : Nat) (c : Contributor) (q : Option Nat) (x : QFrame) (hs : s.orderly) : (State.toPart s id c q x).orderly := by
  unfold State.toPart
  repeat' first
    | with_reducible assumption
    | with_reducible apply State.toIssuer_orderly
    | with_reducible apply ite_orderly
    | with_reducible apply ite_fst_orderly
    | (intro; intros)
    | split
    | dsimp only
    | (unfold State.orderly
       dsimp only
       with_reducible apply State.ordered)
    | refine pair_orderly (by assumption) ?_
    | assumption

theorem State.dropResults_orderly (s : State) (h : BitVec 24) (hs : s.orderly) : (State.dropResults s h).orderly := by
  unfold State.dropResults
  repeat' first
    | with_reducible assumption
    | with_reducible apply ite_orderly
    | with_reducible apply ite_fst_orderly
    | (intro; intros)
    | split
    | dsimp only
    | (unfold State.orderly
       dsimp only
       with_reducible apply State.ordered)
    | refine pair_orderly (by assumption) ?_
    | assumption

theorem State.abortHere_orderly (s : State) (id : Nat) (cause : Nat) (hs : s.orderly) : (State.abortHere s id cause).orderly := by
  unfold State.abortHere
  repeat' first
    | with_reducible assumption
    | with_reducible apply State.logWith_orderly
    | with_reducible apply State.countClv_orderly
    | with_reducible apply State.onColl_orderly
    | with_reducible apply State.sendFrom_orderly
    | with_reducible apply State.toPart_orderly
    | with_reducible apply State.dropResults_orderly
    | with_reducible apply foldl_orderly
    | with_reducible apply foldl_fst_orderly
    | with_reducible apply ite_orderly
    | with_reducible apply ite_fst_orderly
    | (intro; intros)
    | split
    | dsimp only
    | (unfold State.orderly
       dsimp only
       with_reducible apply State.ordered)
    | refine pair_orderly (by assumption) ?_
    | assumption

theorem State.collTrigger_orderly (s : State) (id : Nat) (cause : Nat) (hs : s.orderly) : (State.collTrigger s id cause).orderly := by
  unfold State.collTrigger
  repeat' first
    | with_reducible assumption
    | with_reducible apply State.sendFrom_orderly
    | with_reducible apply State.abortHere_orderly
    | with_reducible apply ite_orderly
    | with_reducible apply ite_fst_orderly
    | (intro; intros)
    | split
    | dsimp only
    | (unfold State.orderly
       dsimp only
       with_reducible apply State.ordered)
    | refine pair_orderly (by assumption) ?_
    | assumption

theorem State.poolAnswer_orderly (s : State) (id : Nat) (st : BitVec 6) (hs : s.orderly) : (State.poolAnswer s id st).orderly := by
  unfold State.poolAnswer
  repeat' first
    | with_reducible assumption
    | with_reducible apply State.onColl_orderly
    | with_reducible apply State.collTrigger_orderly
    | with_reducible apply ite_orderly
    | with_reducible apply ite_fst_orderly
    | (intro; intros)
    | split
    | dsimp only
    | (unfold State.orderly
       dsimp only
       with_reducible apply State.ordered)
    | refine pair_orderly (by assumption) ?_
    | assumption

theorem State.attnAnswer_orderly (s : State) (id : Nat) (what : Nat) (st : BitVec 6) (data : List Byte) (hs : s.orderly) : (State.attnAnswer s id what st data).orderly := by
  unfold State.attnAnswer
  repeat' first
    | with_reducible assumption
    | with_reducible apply foldl_orderly
    | with_reducible apply foldl_fst_orderly
    | with_reducible apply ite_orderly
    | with_reducible apply ite_fst_orderly
    | (intro; intros)
    | split
    | dsimp only
    | (unfold State.orderly
       dsimp only
       with_reducible apply State.ordered)
    | refine pair_orderly (by assumption) ?_
    | assumption

theorem State.emit_orderly (s : State) (n : Nat) (o : Origin) (x : QFrame) (hs : s.orderly) : (State.emit s n o x).orderly := by
  unfold State.emit
  repeat' first
    | with_reducible assumption
    | with_reducible apply State.emitOut_orderly
    | with_reducible apply State.poolAnswer_orderly
    | with_reducible apply State.attnAnswer_orderly
    | with_reducible apply ite_orderly
    | with_reducible apply ite_fst_orderly
    | (intro; intros)
    | split
    | dsimp only
    | (unfold State.orderly
       dsimp only
       with_reducible apply State.ordered)
    | refine pair_orderly (by assumption) ?_
    | assumption

end Sys2Proof.Machine
end

