-- ==== Sys2Proof/Laws/KeepSchedule.lean ====
section
/-! SUPPORT. Every operation of Schedule keeps the queues and memories in order. -/

set_option linter.unusedTactic false
set_option linter.unreachableTactic false
set_option linter.unusedVariables false

namespace Sys2Proof.Machine

theorem State.paid_orderly (s : State) (k : Nat) (hs : s.orderly) : (State.paid s k).orderly := by
  unfold State.paid
  repeat' first
    | with_reducible assumption
    | with_reducible apply ite_orderly
    | with_reducible apply ite_fst_orderly
    | (intro; intros)
    | split
    | dsimp only
    | (unfold State.orderly
       dsimp only
       with_reducible apply State.ordered)
    | refine pair_orderly (by assumption) ?_
    | assumption

theorem State.owing_orderly (s : State) (k : Nat) (hs : s.orderly) : (State.owing s k).orderly := by
  unfold State.owing
  repeat' first
    | with_reducible assumption
    | with_reducible apply ite_orderly
    | with_reducible apply ite_fst_orderly
    | (intro; intros)
    | split
    | dsimp only
    | (unfold State.orderly
       dsimp only
       with_reducible apply State.ordered)
    | refine pair_orderly (by assumption) ?_
    | assumption

end Sys2Proof.Machine
end

