-- ==== Sys2Proof/Laws/KeepHome.lean ====
section
/-! SUPPORT. Every operation of Home keeps the queues and memories in order. -/

set_option linter.unusedTactic false
set_option linter.unreachableTactic false
set_option linter.unusedVariables false

namespace Sys2Proof.Machine

theorem State.trayFrame_orderly (s : State) (t : Nat) (b : Nat) (tag : BitVec 13) (f : Frame) (hs : s.orderly) : (State.trayFrame s t b tag f).orderly := by
  unfold State.trayFrame
  repeat' first
    | with_reducible assumption
    | with_reducible apply State.onLink_orderly
    | with_reducible apply State.sendFrom_orderly
    | with_reducible apply ite_orderly
    | with_reducible apply ite_fst_orderly
    | (intro; intros)
    | split
    | dsimp only
    | (unfold State.orderly
       dsimp only
       with_reducible apply State.ordered)
    | refine pair_orderly (by assumption) ?_
    | assumption

theorem State.sendTray_orderly (s : State) (t : Nat) (b : Nat) (op : TrayOp) (tenant : BitVec 10) (opcode : BitVec 8) (addr : Nat) (len : Nat) (st : BitVec 6) (pl : List Byte) (hs : s.orderly) : (State.sendTray s t b op tenant opcode addr len st pl).orderly := by
  unfold State.sendTray
  repeat' first
    | with_reducible assumption
    | with_reducible apply State.trayFrame_orderly
    | with_reducible apply ite_orderly
    | with_reducible apply ite_fst_orderly
    | (intro; intros)
    | split
    | dsimp only
    | (unfold State.orderly
       dsimp only
       with_reducible apply State.ordered)
    | refine pair_orderly (by assumption) ?_
    | assumption

theorem State.sendHeld_orderly (s : State) (q : TrayReq) (hs : s.orderly) : (State.sendHeld s q).orderly := by
  unfold State.sendHeld
  repeat' first
    | with_reducible assumption
    | with_reducible apply State.sendTray_orderly
    | with_reducible apply ite_orderly
    | with_reducible apply ite_fst_orderly
    | (intro; intros)
    | split
    | dsimp only
    | (unfold State.orderly
       dsimp only
       with_reducible apply State.ordered)
    | refine pair_orderly (by assumption) ?_
    | assumption

theorem State.trayHeld_orderly (s : State) (p : Nat) (hs : s.orderly) : (State.trayHeld s p).orderly := by
  unfold State.trayHeld
  repeat' first
    | with_reducible assumption
    | with_reducible apply State.trayFrame_orderly
    | with_reducible apply ite_orderly
    | with_reducible apply ite_fst_orderly
    | (intro; intros)
    | split
    | dsimp only
    | (unfold State.orderly
       dsimp only
       with_reducible apply State.ordered)
    | refine pair_orderly (by assumption) ?_
    | assumption

theorem State.subFrame_orderly (s : State) (p : Nat) (handle : Nat) (tag : BitVec 13) (f : Frame) (hs : s.orderly) : (State.subFrame s p handle tag f).orderly := by
  unfold State.subFrame
  repeat' first
    | with_reducible assumption
    | with_reducible apply State.onLink_orderly
    | with_reducible apply State.sendFrom_orderly
    | with_reducible apply ite_orderly
    | with_reducible apply ite_fst_orderly
    | (intro; intros)
    | split
    | dsimp only
    | (unfold State.orderly
       dsimp only
       with_reducible apply State.ordered)
    | refine pair_orderly (by assumption) ?_
    | assumption

theorem State.subHeld_orderly (s : State) (p : Nat) (hs : s.orderly) : (State.subHeld s p).orderly := by
  unfold State.subHeld
  repeat' first
    | with_reducible assumption
    | with_reducible apply State.subFrame_orderly
    | with_reducible apply ite_orderly
    | with_reducible apply ite_fst_orderly
    | (intro; intros)
    | split
    | dsimp only
    | (unfold State.orderly
       dsimp only
       with_reducible apply State.ordered)
    | refine pair_orderly (by assumption) ?_
    | assumption

theorem State.tagFree_orderly (s : State) (p : Nat) (hs : s.orderly) : (State.tagFree s p).orderly := by
  unfold State.tagFree
  repeat' first
    | with_reducible assumption
    | with_reducible apply State.trayHeld_orderly
    | with_reducible apply State.subHeld_orderly
    | with_reducible apply ite_orderly
    | with_reducible apply ite_fst_orderly
    | (intro; intros)
    | split
    | dsimp only
    | (unfold State.orderly
       dsimp only
       with_reducible apply State.ordered)
    | refine pair_orderly (by assumption) ?_
    | assumption

theorem State.startFill_orderly (s : State) (b : Nat) (hs : s.orderly) : (State.startFill s b).orderly := by
  unfold State.startFill
  repeat' first
    | with_reducible assumption
    | with_reducible apply State.sendTray_orderly
    | with_reducible apply ite_orderly
    | with_reducible apply ite_fst_orderly
    | (intro; intros)
    | split
    | dsimp only
    | (unfold State.orderly
       dsimp only
       with_reducible apply State.ordered)
    | refine pair_orderly (by assumption) ?_
    | assumption

theorem State.readSlotLine_orderly (s : State) (n : Nat) (line : Nat) (hs : s.orderly) : (State.readSlotLine s n line).orderly := by
  unfold State.readSlotLine
  repeat' first
    | with_reducible assumption
    | with_reducible apply State.sendTray_orderly
    | with_reducible apply ite_orderly
    | with_reducible apply ite_fst_orderly
    | (intro; intros)
    | split
    | dsimp only
    | (unfold State.orderly
       dsimp only
       with_reducible apply State.ordered)
    | refine pair_orderly (by assumption) ?_
    | assumption

theorem State.staleReads_orderly (s : State) (b : Nat) (hs : s.orderly) : (State.staleReads s b).orderly := by
  unfold State.staleReads
  repeat' first
    | with_reducible assumption
    | with_reducible apply ite_orderly
    | with_reducible apply ite_fst_orderly
    | (intro; intros)
    | split
    | dsimp only
    | (unfold State.orderly
       dsimp only
       with_reducible apply State.ordered)
    | refine pair_orderly (by assumption) ?_
    | assumption

theorem State.forget_orderly (s : State) (line : Nat) (hs : s.orderly) : (State.forget s line).orderly := by
  unfold State.forget
  repeat' first
    | with_reducible assumption
    | with_reducible apply ite_orderly
    | with_reducible apply ite_fst_orderly
    | (intro; intros)
    | split
    | dsimp only
    | (unfold State.orderly
       dsimp only
       with_reducible apply State.ordered)
    | refine pair_orderly (by assumption) ?_
    | assumption

theorem State.writeSlotLine_orderly (s : State) (op : TrayOp) (tray : Nat) (slot : Nat) (line : Nat) (bs : List Byte) (bad : Bool) (hs : s.orderly) : (State.writeSlotLine s op tray slot line bs bad).orderly := by
  unfold State.writeSlotLine
  repeat' first
    | with_reducible assumption
    | with_reducible apply State.sendTray_orderly
    | with_reducible apply ite_orderly
    | with_reducible apply ite_fst_orderly
    | (intro; intros)
    | split
    | dsimp only
    | (unfold State.orderly
       dsimp only
       with_reducible apply State.ordered)
    | refine pair_orderly (by assumption) ?_
    | assumption

theorem State.writeThrough_orderly (s : State) (op : TrayOp) (line : Nat) (bs : List Byte) (hs : s.orderly) : (State.writeThrough s op line bs).orderly := by
  unfold State.writeThrough
  repeat' first
    | with_reducible assumption
    | with_reducible apply State.staleReads_orderly
    | with_reducible apply State.forget_orderly
    | with_reducible apply State.writeSlotLine_orderly
    | with_reducible apply ite_orderly
    | with_reducible apply ite_fst_orderly
    | (intro; intros)
    | split
    | dsimp only
    | (unfold State.orderly
       dsimp only
       with_reducible apply State.ordered)
    | refine pair_orderly (by assumption) ?_
    | assumption

theorem State.holdLine_orderly (s : State) (op : TrayOp) (line : Nat) (bs : List Byte) (hs : s.orderly) : (State.holdLine s op line bs).orderly := by
  unfold State.holdLine
  repeat' first
    | with_reducible assumption
    | with_reducible apply State.forget_orderly
    | with_reducible apply ite_orderly
    | with_reducible apply ite_fst_orderly
    | (intro; intros)
    | split
    | dsimp only
    | (unfold State.orderly
       dsimp only
       with_reducible apply State.ordered)
    | refine pair_orderly (by assumption) ?_
    | assumption

theorem State.zeroBlock_orderly (s : State) (page : Nat) (i : Nat) (hs : s.orderly) : (State.zeroBlock s page i).orderly := by
  unfold State.zeroBlock
  repeat' first
    | with_reducible assumption
    | with_reducible apply State.sendTray_orderly
    | with_reducible apply ite_orderly
    | with_reducible apply ite_fst_orderly
    | (intro; intros)
    | split
    | dsimp only
    | (unfold State.orderly
       dsimp only
       with_reducible apply State.ordered)
    | refine pair_orderly (by assumption) ?_
    | assumption

theorem State.stopZero_orderly (s : State) (page : Nat) (hs : s.orderly) : (State.stopZero s page).orderly := by
  unfold State.stopZero
  repeat' first
    | with_reducible assumption
    | with_reducible apply ite_orderly
    | with_reducible apply ite_fst_orderly
    | (intro; intros)
    | split
    | dsimp only
    | (unfold State.orderly
       dsimp only
       with_reducible apply State.ordered)
    | refine pair_orderly (by assumption) ?_
    | assumption

theorem State.writeBack_orderly (s : State) (b : Nat) (hs : s.orderly) : (State.writeBack s b).orderly := by
  unfold State.writeBack
  repeat' first
    | with_reducible assumption
    | with_reducible apply State.sendTray_orderly
    | with_reducible apply State.staleReads_orderly
    | with_reducible apply State.writeSlotLine_orderly
    | with_reducible apply foldl_orderly
    | with_reducible apply foldl_fst_orderly
    | with_reducible apply ite_orderly
    | with_reducible apply ite_fst_orderly
    | (intro; intros)
    | split
    | dsimp only
    | (unfold State.orderly
       dsimp only
       with_reducible apply State.ordered)
    | refine pair_orderly (by assumption) ?_
    | assumption

theorem State.startZero_orderly (s : State) (page : Nat) (hs : s.orderly) : (State.startZero s page).orderly := by
  unfold State.startZero
  repeat' first
    | with_reducible assumption
    | with_reducible apply State.zeroBlock_orderly
    | with_reducible apply ite_orderly
    | with_reducible apply ite_fst_orderly
    | (intro; intros)
    | split
    | dsimp only
    | (unfold State.orderly
       dsimp only
       with_reducible apply State.ordered)
    | refine pair_orderly (by assumption) ?_
    | assumption

theorem State.lostLines_orderly (s : State) (b : Nat) (mask : BitVec 32) (hs : s.orderly) : (State.lostLines s b mask).orderly := by
  unfold State.lostLines
  repeat' first
    | with_reducible assumption
    | with_reducible apply State.countLog_orderly
    | with_reducible apply State.logE_orderly
    | with_reducible apply foldl_orderly
    | with_reducible apply foldl_fst_orderly
    | with_reducible apply ite_orderly
    | with_reducible apply ite_fst_orderly
    | (intro; intros)
    | split
    | dsimp only
    | (unfold State.orderly
       dsimp only
       with_reducible apply State.ordered)
    | refine pair_orderly (by assumption) ?_
    | assumption

theorem State.dropSector_orderly (s : State) (b : Nat) (hs : s.orderly) : (State.dropSector s b).orderly := by
  unfold State.dropSector
  repeat' first
    | with_reducible assumption
    | with_reducible apply ite_orderly
    | with_reducible apply ite_fst_orderly
    | (intro; intros)
    | split
    | dsimp only
    | (unfold State.orderly
       dsimp only
       refine Ordered.mk ?_ ?_ ?_ ?_ ?_ ?_ ?_ ?_ ?_ <;> repeat' first
        | with_reducible apply State.events_of
        | with_reducible apply State.entries_of
        | with_reducible apply State.unacked_of
        | with_reducible apply State.t0_of
        | with_reducible apply State.spad_of
        | with_reducible apply State.cmem_of
        | with_reducible apply State.staged_of
        | with_reducible apply State.firmware_of
        | with_reducible apply State.report_of
        | with_reducible exact Memory.wf_nil
        | with_reducible apply Memory.wf_write
        | with_reducible apply Memory.wf_put
        | with_reducible apply Memory.wf_filter
        | rw [List.length_map]
        | exact Nat.zero_le _)
    | refine pair_orderly (by assumption) ?_
    | assumption

theorem State.makeWay_orderly (s : State) (b : Nat) (hs : s.orderly) : (State.makeWay s b).1.orderly := by
  unfold State.makeWay
  repeat' first
    | with_reducible assumption
    | with_reducible apply State.writeBack_orderly
    | with_reducible apply State.startZero_orderly
    | with_reducible apply State.dropSector_orderly
    | with_reducible apply ite_orderly
    | with_reducible apply ite_fst_orderly
    | (intro; intros)
    | split
    | dsimp only
    | (unfold State.orderly
       dsimp only
       with_reducible apply State.ordered)
    | refine pair_orderly (by assumption) ?_
    | assumption

theorem State.formBlock_orderly (s : State) (b : Nat) (bs : List Byte) (poisoned : Bool) (hs : s.orderly) : (State.formBlock s b bs poisoned).1.orderly := by
  unfold State.formBlock
  repeat' first
    | with_reducible assumption
    | with_reducible apply State.countBlock_orderly
    | with_reducible apply ite_orderly
    | with_reducible apply ite_fst_orderly
    | (intro; intros)
    | split
    | dsimp only
    | (unfold State.orderly
       dsimp only
       with_reducible apply State.ordered)
    | refine pair_orderly (by assumption) ?_
    | assumption

theorem State.touch_orderly (s : State) (b : Nat) (hs : s.orderly) : (State.touch s b).orderly := by
  unfold State.touch
  repeat' first
    | with_reducible assumption
    | with_reducible apply State.setSector_orderly
    | with_reducible apply ite_orderly
    | with_reducible apply ite_fst_orderly
    | (intro; intros)
    | split
    | dsimp only
    | (unfold State.orderly
       dsimp only
       with_reducible apply State.ordered)
    | refine pair_orderly (by assumption) ?_
    | assumption

theorem State.placeLines_orderly (s : State) (b : Nat) (ls : List (Nat × List Byte × Bool)) (ow : Bool) (dirty : Bool) (hs : s.orderly) : (State.placeLines s b ls ow dirty).orderly := by
  unfold State.placeLines
  repeat' first
    | with_reducible assumption
    | with_reducible apply State.setSector_orderly
    | with_reducible apply foldl_orderly
    | with_reducible apply foldl_fst_orderly
    | with_reducible apply ite_orderly
    | with_reducible apply ite_fst_orderly
    | (intro; intros)
    | split
    | dsimp only
    | (unfold State.orderly
       dsimp only
       refine Ordered.mk ?_ ?_ ?_ ?_ ?_ ?_ ?_ ?_ ?_ <;> repeat' first
        | with_reducible apply State.events_of
        | with_reducible apply State.entries_of
        | with_reducible apply State.unacked_of
        | with_reducible apply State.t0_of
        | with_reducible apply State.spad_of
        | with_reducible apply State.cmem_of
        | with_reducible apply State.staged_of
        | with_reducible apply State.firmware_of
        | with_reducible apply State.report_of
        | with_reducible exact Memory.wf_nil
        | with_reducible apply Memory.wf_write
        | with_reducible apply Memory.wf_put
        | with_reducible apply Memory.wf_filter
        | rw [List.length_map]
        | exact Nat.zero_le _)
    | refine pair_orderly (by assumption) ?_
    | assumption

theorem State.setForm_orderly (s : State) (b : Nat) (tag : Byte) (cbf : List Byte) (hs : s.orderly) : (State.setForm s b tag cbf).orderly := by
  unfold State.setForm
  repeat' first
    | with_reducible assumption
    | with_reducible apply State.setSector_orderly
    | with_reducible apply ite_orderly
    | with_reducible apply ite_fst_orderly
    | (intro; intros)
    | split
    | dsimp only
    | (unfold State.orderly
       dsimp only
       refine Ordered.mk ?_ ?_ ?_ ?_ ?_ ?_ ?_ ?_ ?_ <;> repeat' first
        | with_reducible apply State.events_of
        | with_reducible apply State.entries_of
        | with_reducible apply State.unacked_of
        | with_reducible apply State.t0_of
        | with_reducible apply State.spad_of
        | with_reducible apply State.cmem_of
        | with_reducible apply State.staged_of
        | with_reducible apply State.firmware_of
        | with_reducible apply State.report_of
        | with_reducible exact Memory.wf_nil
        | with_reducible apply Memory.wf_write
        | with_reducible apply Memory.wf_put
        | with_reducible apply Memory.wf_filter
        | rw [List.length_map]
        | exact Nat.zero_le _)
    | refine pair_orderly (by assumption) ?_
    | assumption

theorem State.expanded_orderly (s : State) (b : Nat) (hs : s.orderly) : (State.expanded s b).orderly := by
  unfold State.expanded
  repeat' first
    | with_reducible assumption
    | with_reducible apply State.onExtent_orderly
    | with_reducible apply State.setForm_orderly
    | with_reducible apply ite_orderly
    | with_reducible apply ite_fst_orderly
    | (intro; intros)
    | split
    | dsimp only
    | (unfold State.orderly
       dsimp only
       with_reducible apply State.ordered)
    | refine pair_orderly (by assumption) ?_
    | assumption

theorem State.notePoison_orderly (s : State) (line : Nat) (detail : Nat) (hs : s.orderly) : (State.notePoison s line detail).orderly := by
  unfold State.notePoison
  repeat' first
    | with_reducible assumption
    | with_reducible apply State.countLog_orderly
    | with_reducible apply State.logE_orderly
    | with_reducible apply ite_orderly
    | with_reducible apply ite_fst_orderly
    | (intro; intros)
    | split
    | dsimp only
    | (unfold State.orderly
       dsimp only
       with_reducible apply State.ordered)
    | refine pair_orderly (by assumption) ?_
    | assumption

theorem State.poisonLine_orderly (s : State) (line : Nat) (hs : s.orderly) : (State.poisonLine s line).orderly := by
  unfold State.poisonLine
  repeat' first
    | with_reducible assumption
    | with_reducible apply State.forget_orderly
    | with_reducible apply State.placeLines_orderly
    | with_reducible apply State.setForm_orderly
    | with_reducible apply State.notePoison_orderly
    | with_reducible apply ite_orderly
    | with_reducible apply ite_fst_orderly
    | (intro; intros)
    | split
    | dsimp only
    | (unfold State.orderly
       dsimp only
       with_reducible apply State.ordered)
    | refine pair_orderly (by assumption) ?_
    | assumption

theorem State.fillBlock_orderly (s : State) (b : Nat) (ls : List (List Byte × Bool)) (heat : Bool) (hs : s.orderly) : (State.fillBlock s b ls heat).1.orderly := by
  unfold State.fillBlock
  repeat' first
    | with_reducible assumption
    | with_reducible apply State.onPage_orderly
    | with_reducible apply State.setSector_orderly
    | with_reducible apply State.makeWay_orderly
    | with_reducible apply State.formBlock_orderly
    | with_reducible apply State.touch_orderly
    | with_reducible apply State.placeLines_orderly
    | with_reducible apply State.setForm_orderly
    | with_reducible apply foldl_orderly
    | with_reducible apply foldl_fst_orderly
    | with_reducible apply ite_orderly
    | with_reducible apply ite_fst_orderly
    | (intro; intros)
    | split
    | dsimp only
    | (unfold State.orderly
       dsimp only
       with_reducible apply State.ordered)
    | refine pair_orderly (by assumption) ?_
    | assumption

theorem State.seek_orderly (s : State) (n : Nat) (line : Nat) (hs : s.orderly) : (State.seek s n line).1.orderly := by
  unfold State.seek
  repeat' first
    | with_reducible assumption
    | with_reducible apply State.startFill_orderly
    | with_reducible apply State.readSlotLine_orderly
    | with_reducible apply State.touch_orderly
    | with_reducible apply State.fillBlock_orderly
    | with_reducible apply ite_orderly
    | with_reducible apply ite_fst_orderly
    | (intro; intros)
    | split
    | dsimp only
    | (unfold State.orderly
       dsimp only
       with_reducible apply State.ordered)
    | refine pair_orderly (by assumption) ?_
    | assumption

end Sys2Proof.Machine
end

