-- ==== Sys2Proof/Laws/KeepSnoop.lean ====
section
/-! SUPPORT. Every operation of Snoop keeps the queues and memories in order. -/

set_option linter.unusedTactic false
set_option linter.unreachableTactic false
set_option linter.unusedVariables false

namespace Sys2Proof.Machine

theorem State.setDir_orderly (s : State) (line : Nat) (e : DirEntry) (hs : s.orderly) : (State.setDir s line e).orderly := by
  unfold State.setDir
  repeat' first
    | with_reducible assumption
    | with_reducible apply ite_orderly
    | with_reducible apply ite_fst_orderly
    | (intro; intros)
    | split
    | dsimp only
    | (unfold State.orderly
       dsimp only
       with_reducible apply State.ordered)
    | refine pair_orderly (by assumption) ?_
    | assumption

theorem State.dropHolder_orderly (s : State) (line : Nat) (a : Nat) (hs : s.orderly) : (State.dropHolder s line a).orderly := by
  unfold State.dropHolder
  repeat' first
    | with_reducible assumption
    | with_reducible apply State.setDir_orderly
    | with_reducible apply ite_orderly
    | with_reducible apply ite_fst_orderly
    | (intro; intros)
    | split
    | dsimp only
    | (unfold State.orderly
       dsimp only
       with_reducible apply State.ordered)
    | refine pair_orderly (by assumption) ?_
    | assumption

theorem State.removeAgent_orderly (s : State) (line : Nat) (a : Nat) (hs : s.orderly) : (State.removeAgent s line a).orderly := by
  unfold State.removeAgent
  repeat' first
    | with_reducible assumption
    | with_reducible apply State.setDir_orderly
    | with_reducible apply State.dropHolder_orderly
    | with_reducible apply ite_orderly
    | with_reducible apply ite_fst_orderly
    | (intro; intros)
    | split
    | dsimp only
    | (unfold State.orderly
       dsimp only
       with_reducible apply State.ordered)
    | refine pair_orderly (by assumption) ?_
    | assumption

theorem State.fireSnoop_orderly (s : State) (x : Snoop) (hs : s.orderly) : (State.fireSnoop s x).orderly := by
  unfold State.fireSnoop
  repeat' first
    | with_reducible assumption
    | with_reducible apply State.countCoh_orderly
    | with_reducible apply State.sendFrom_orderly
    | with_reducible apply ite_orderly
    | with_reducible apply ite_fst_orderly
    | (intro; intros)
    | split
    | dsimp only
    | (unfold State.orderly
       dsimp only
       with_reducible apply State.ordered)
    | refine pair_orderly (by assumption) ?_
    | assumption

theorem State.snoop_orderly (s : State) (line : Nat) (a : Nat) (op : BitVec 8) (why : SnoopFor) (hs : s.orderly) : (State.snoop s line a op why).orderly := by
  unfold State.snoop
  repeat' first
    | with_reducible assumption
    | with_reducible apply State.countCoh_orderly
    | with_reducible apply State.fireSnoop_orderly
    | with_reducible apply ite_orderly
    | with_reducible apply ite_fst_orderly
    | (intro; intros)
    | split
    | dsimp only
    | (unfold State.orderly
       dsimp only
       with_reducible apply State.ordered)
    | refine pair_orderly (by assumption) ?_
    | assumption

theorem State.homeWrite_orderly (s : State) (line : Nat) (bs : List Byte) (hs : s.orderly) : (State.homeWrite s line bs).orderly := by
  unfold State.homeWrite
  repeat' first
    | with_reducible assumption
    | with_reducible apply State.onExtent_orderly
    | with_reducible apply State.forget_orderly
    | with_reducible apply State.writeThrough_orderly
    | with_reducible apply State.holdLine_orderly
    | with_reducible apply State.startZero_orderly
    | with_reducible apply State.makeWay_orderly
    | with_reducible apply State.touch_orderly
    | with_reducible apply State.placeLines_orderly
    | with_reducible apply State.expanded_orderly
    | with_reducible apply ite_orderly
    | with_reducible apply ite_fst_orderly
    | (intro; intros)
    | split
    | dsimp only
    | (unfold State.orderly
       dsimp only
       with_reducible apply State.ordered)
    | refine pair_orderly (by assumption) ?_
    | assumption

theorem State.killAgent_orderly (s : State) (d : Nat) (a : Nat) (hs : s.orderly) : (State.killAgent s d a).orderly := by
  unfold State.killAgent
  repeat' first
    | with_reducible assumption
    | with_reducible apply State.countCoh_orderly
    | with_reducible apply State.poisonLine_orderly
    | with_reducible apply State.removeAgent_orderly
    | with_reducible apply foldl_orderly
    | with_reducible apply foldl_fst_orderly
    | with_reducible apply ite_orderly
    | with_reducible apply ite_fst_orderly
    | (intro; intros)
    | split
    | dsimp only
    | (unfold State.orderly
       dsimp only
       with_reducible apply State.ordered)
    | refine pair_orderly (by assumption) ?_
    | assumption

theorem State.domNote_orderly (s : State) (d : Nat) (a : Nat) (phase : Nat) (cause : Nat) (winEnd : Nat) (hs : s.orderly) : (State.domNote s d a phase cause winEnd).orderly := by
  unfold State.domNote
  repeat' first
    | with_reducible assumption
    | with_reducible apply State.notice_orderly
    | with_reducible apply ite_orderly
    | with_reducible apply ite_fst_orderly
    | (intro; intros)
    | split
    | dsimp only
    | (unfold State.orderly
       dsimp only
       with_reducible apply State.ordered)
    | refine pair_orderly (by assumption) ?_
    | assumption

theorem State.domNotes_orderly (s : State) (d : Nat) (phase : Nat) (cause : Nat) (winEnd : Nat) (keep : Nat → Bool) (hs : s.orderly) : (State.domNotes s d phase cause winEnd keep).orderly := by
  unfold State.domNotes
  repeat' first
    | with_reducible assumption
    | with_reducible apply State.domNote_orderly
    | with_reducible apply foldl_orderly
    | with_reducible apply foldl_fst_orderly
    | with_reducible apply ite_orderly
    | with_reducible apply ite_fst_orderly
    | (intro; intros)
    | split
    | dsimp only
    | (unfold State.orderly
       dsimp only
       with_reducible apply State.ordered)
    | refine pair_orderly (by assumption) ?_
    | assumption

theorem State.domEvent_orderly (s : State) (d : Nat) (hs : s.orderly) : (State.domEvent s d).orderly := by
  unfold State.domEvent
  repeat' first
    | with_reducible assumption
    | with_reducible apply State.event_orderly
    | with_reducible apply ite_orderly
    | with_reducible apply ite_fst_orderly
    | (intro; intros)
    | split
    | dsimp only
    | (unfold State.orderly
       dsimp only
       with_reducible apply State.ordered)
    | refine pair_orderly (by assumption) ?_
    | assumption

theorem State.backInvalidate_orderly (s : State) (line : Nat) (why : SnoopFor) (hs : s.orderly) : (State.backInvalidate s line why).orderly := by
  unfold State.backInvalidate
  repeat' first
    | with_reducible assumption
    | with_reducible apply State.countCoh_orderly
    | with_reducible apply State.setDir_orderly
    | with_reducible apply State.snoop_orderly
    | with_reducible apply foldl_orderly
    | with_reducible apply foldl_fst_orderly
    | with_reducible apply ite_orderly
    | with_reducible apply ite_fst_orderly
    | (intro; intros)
    | split
    | dsimp only
    | (unfold State.orderly
       dsimp only
       with_reducible apply State.ordered)
    | refine pair_orderly (by assumption) ?_
    | assumption

end Sys2Proof.Machine
end

