-- ==== Sys2Proof/Laws/KeepRequest.lean ====
section
/-! SUPPORT. Every operation of Request keeps the queues and memories in order. -/

set_option linter.unusedTactic false
set_option linter.unreachableTactic false
set_option linter.unusedVariables false

namespace Sys2Proof.Machine

theorem State.putReq_orderly (s : State) (r : Req) (hs : s.orderly) : (State.putReq s r).orderly := by
  unfold State.putReq
  repeat' first
    | with_reducible assumption
    | with_reducible apply ite_orderly
    | with_reducible apply ite_fst_orderly
    | (intro; intros)
    | split
    | dsimp only
    | (unfold State.orderly
       dsimp only
       with_reducible apply State.ordered)
    | refine pair_orderly (by assumption) ?_
    | assumption

theorem State.dropReq_orderly (s : State) (n : Nat) (hs : s.orderly) : (State.dropReq s n).orderly := by
  unfold State.dropReq
  repeat' first
    | with_reducible assumption
    | with_reducible apply ite_orderly
    | with_reducible apply ite_fst_orderly
    | (intro; intros)
    | split
    | dsimp only
    | (unfold State.orderly
       dsimp only
       with_reducible apply State.ordered)
    | refine pair_orderly (by assumption) ?_
    | assumption

theorem State.addReq_orderly (s : State) (r : Req) (hs : s.orderly) : (State.addReq s r).orderly := by
  unfold State.addReq
  repeat' first
    | with_reducible assumption
    | with_reducible apply ite_orderly
    | with_reducible apply ite_fst_orderly
    | (intro; intros)
    | split
    | dsimp only
    | (unfold State.orderly
       dsimp only
       with_reducible apply State.ordered)
    | refine pair_orderly (by assumption) ?_
    | assumption

theorem State.stageReq_orderly (s : State) (r : Req) (g : Stage) (hs : s.orderly) : (State.stageReq s r g).orderly := by
  unfold State.stageReq
  repeat' first
    | with_reducible assumption
    | with_reducible apply State.putReq_orderly
    | with_reducible apply ite_orderly
    | with_reducible apply ite_fst_orderly
    | (intro; intros)
    | split
    | dsimp only
    | (unfold State.orderly
       dsimp only
       with_reducible apply State.ordered)
    | refine pair_orderly (by assumption) ?_
    | assumption

theorem State.finishWith_orderly (s : State) (r : Req) (x : QFrame) (hs : s.orderly) : (State.finishWith s r x).orderly := by
  unfold State.finishWith
  repeat' first
    | with_reducible assumption
    | with_reducible apply State.onCore_orderly
    | with_reducible apply State.emit_orderly
    | with_reducible apply State.dropReq_orderly
    | with_reducible apply ite_orderly
    | with_reducible apply ite_fst_orderly
    | (intro; intros)
    | split
    | dsimp only
    | (unfold State.orderly
       dsimp only
       with_reducible apply State.ordered)
    | refine pair_orderly (by assumption) ?_
    | assumption

theorem State.finishOne_orderly (s : State) (r : Req) (st : BitVec 6) (data : List Byte) (hs : s.orderly) : (State.finishOne s r st data).orderly := by
  unfold State.finishOne
  repeat' first
    | with_reducible assumption
    | with_reducible apply State.finishWith_orderly
    | with_reducible apply ite_orderly
    | with_reducible apply ite_fst_orderly
    | (intro; intros)
    | split
    | dsimp only
    | (unfold State.orderly
       dsimp only
       with_reducible apply State.ordered)
    | refine pair_orderly (by assumption) ?_
    | assumption

theorem State.finish_orderly (s : State) (r : Req) (st : BitVec 6) (data : List Byte) (hs : s.orderly) : (State.finish s r st data).orderly := by
  unfold State.finish
  repeat' first
    | with_reducible assumption
    | with_reducible apply State.finishOne_orderly
    | with_reducible apply foldl_orderly
    | with_reducible apply foldl_fst_orderly
    | with_reducible apply ite_orderly
    | with_reducible apply ite_fst_orderly
    | (intro; intros)
    | split
    | dsimp only
    | (unfold State.orderly
       dsimp only
       with_reducible apply State.ordered)
    | refine pair_orderly (by assumption) ?_
    | assumption

theorem State.finishFrame_orderly (s : State) (r : Req) (f : Frame) (hs : s.orderly) : (State.finishFrame s r f).orderly := by
  unfold State.finishFrame
  repeat' first
    | with_reducible assumption
    | with_reducible apply State.finishWith_orderly
    | with_reducible apply State.finishOne_orderly
    | with_reducible apply foldl_orderly
    | with_reducible apply foldl_fst_orderly
    | with_reducible apply ite_orderly
    | with_reducible apply ite_fst_orderly
    | (intro; intros)
    | split
    | dsimp only
    | (unfold State.orderly
       dsimp only
       with_reducible apply State.ordered)
    | refine pair_orderly (by assumption) ?_
    | assumption

theorem State.cutTray_orderly (s : State) (rs : List Req) (hs : s.orderly) : (State.cutTray s rs).orderly := by
  unfold State.cutTray
  repeat' first
    | with_reducible assumption
    | with_reducible apply ite_orderly
    | with_reducible apply ite_fst_orderly
    | (intro; intros)
    | split
    | dsimp only
    | (unfold State.orderly
       dsimp only
       with_reducible apply State.ordered)
    | refine pair_orderly (by assumption) ?_
    | assumption

theorem State.countWarm_orderly (s : State) (fpa : Nat) (hs : s.orderly) : (State.countWarm s fpa).orderly := by
  unfold State.countWarm
  repeat' first
    | with_reducible assumption
    | with_reducible apply ite_orderly
    | with_reducible apply ite_fst_orderly
    | (intro; intros)
    | split
    | dsimp only
    | (unfold State.orderly
       dsimp only
       with_reducible apply State.ordered)
    | refine pair_orderly (by assumption) ?_
    | assumption

theorem State.seekAll_orderly (s : State) (r : Req) (lines : List Nat) (hs : s.orderly) : (State.seekAll s r lines).1.orderly := by
  unfold State.seekAll
  repeat' first
    | with_reducible assumption
    | with_reducible apply State.seek_orderly
    | with_reducible apply foldl_orderly
    | with_reducible apply foldl_fst_orderly
    | with_reducible apply ite_orderly
    | with_reducible apply ite_fst_orderly
    | (intro; intros)
    | split
    | dsimp only
    | (unfold State.orderly
       dsimp only
       with_reducible apply State.ordered)
    | refine pair_orderly (by assumption) ?_
    | assumption

theorem State.loadFrame_orderly (s : State) (r : Req) (hs : s.orderly) : (State.loadFrame s r).1.orderly := by
  unfold State.loadFrame
  repeat' first
    | with_reducible assumption
    | with_reducible apply State.countBlock_orderly
    | with_reducible apply foldl_orderly
    | with_reducible apply foldl_fst_orderly
    | with_reducible apply ite_orderly
    | with_reducible apply ite_fst_orderly
    | (intro; intros)
    | split
    | dsimp only
    | (unfold State.orderly
       dsimp only
       with_reducible apply State.ordered)
    | refine pair_orderly (by assumption) ?_
    | assumption

theorem State.snoopLines_orderly (s : State) (r : Req) (inv : Bool) (hs : s.orderly) : (State.snoopLines s r inv).1.orderly := by
  unfold State.snoopLines
  repeat' first
    | with_reducible assumption
    | with_reducible apply State.setDir_orderly
    | with_reducible apply State.snoop_orderly
    | with_reducible apply foldl_orderly
    | with_reducible apply foldl_fst_orderly
    | with_reducible apply ite_orderly
    | with_reducible apply ite_fst_orderly
    | (intro; intros)
    | split
    | dsimp only
    | (unfold State.orderly
       dsimp only
       with_reducible apply State.ordered)
    | refine pair_orderly (by assumption) ?_
    | assumption

theorem State.serveLoad_orderly (s : State) (r : Req) (hs : s.orderly) : (State.serveLoad s r).orderly := by
  unfold State.serveLoad
  repeat' first
    | with_reducible assumption
    | with_reducible apply State.stageReq_orderly
    | with_reducible apply State.finishWith_orderly
    | with_reducible apply State.countWarm_orderly
    | with_reducible apply State.seekAll_orderly
    | with_reducible apply State.loadFrame_orderly
    | with_reducible apply State.snoopLines_orderly
    | with_reducible apply ite_orderly
    | with_reducible apply ite_fst_orderly
    | (intro; intros)
    | split
    | dsimp only
    | (unfold State.orderly
       dsimp only
       with_reducible apply State.ordered)
    | refine pair_orderly (by assumption) ?_
    | assumption

theorem State.hofWritten_orderly (s : State) (line : Nat) (old : List Byte) (new : List Byte) (hs : s.orderly) : (State.hofWritten s line old new).orderly := by
  unfold State.hofWritten
  repeat' first
    | with_reducible assumption
    | with_reducible apply ite_orderly
    | with_reducible apply ite_fst_orderly
    | (intro; intros)
    | split
    | dsimp only
    | (unfold State.orderly
       dsimp only
       with_reducible apply State.ordered)
    | refine pair_orderly (by assumption) ?_
    | assumption

theorem State.spot_orderly (s : State) (r : Req) (line : Nat) (hs : s.orderly) : (State.spot s r line).1.orderly := by
  unfold State.spot
  repeat' first
    | with_reducible assumption
    | with_reducible apply State.readSlotLine_orderly
    | with_reducible apply State.startZero_orderly
    | with_reducible apply State.makeWay_orderly
    | with_reducible apply State.seek_orderly
    | with_reducible apply ite_orderly
    | with_reducible apply ite_fst_orderly
    | (intro; intros)
    | split
    | dsimp only
    | (unfold State.orderly
       dsimp only
       with_reducible apply State.ordered)
    | refine pair_orderly (by assumption) ?_
    | assumption

theorem State.spots_orderly (s : State) (r : Req) (hs : s.orderly) : (State.spots s r).1.orderly := by
  unfold State.spots
  repeat' first
    | with_reducible assumption
    | with_reducible apply State.spot_orderly
    | with_reducible apply foldl_orderly
    | with_reducible apply foldl_fst_orderly
    | with_reducible apply ite_orderly
    | with_reducible apply ite_fst_orderly
    | (intro; intros)
    | split
    | dsimp only
    | (unfold State.orderly
       dsimp only
       with_reducible apply State.ordered)
    | refine pair_orderly (by assumption) ?_
    | assumption

theorem State.wholeForm_orderly (s : State) (r : Req) (b : Nat) (hs : s.orderly) : (State.wholeForm s r b).orderly := by
  unfold State.wholeForm
  repeat' first
    | with_reducible assumption
    | with_reducible apply State.formBlock_orderly
    | with_reducible apply State.setForm_orderly
    | with_reducible apply ite_orderly
    | with_reducible apply ite_fst_orderly
    | (intro; intros)
    | split
    | dsimp only
    | (unfold State.orderly
       dsimp only
       with_reducible apply State.ordered)
    | refine pair_orderly (by assumption) ?_
    | assumption

theorem State.storeLine_orderly (s : State) (r : Req) (plain : List Byte) (x : StoreRun) (line : Nat) (hs : s.orderly) : (State.storeLine s r plain x line).1.orderly := by
  unfold State.storeLine
  repeat' first
    | with_reducible assumption
    | with_reducible apply State.onExtent_orderly
    | with_reducible apply State.forget_orderly
    | with_reducible apply State.writeThrough_orderly
    | with_reducible apply State.touch_orderly
    | with_reducible apply State.placeLines_orderly
    | with_reducible apply State.expanded_orderly
    | with_reducible apply State.hofWritten_orderly
    | with_reducible apply State.spot_orderly
    | with_reducible apply State.wholeForm_orderly
    | with_reducible apply ite_orderly
    | with_reducible apply ite_fst_orderly
    | (intro; intros)
    | split
    | dsimp only
    | (unfold State.orderly
       dsimp only
       with_reducible apply State.ordered)
    | refine pair_orderly (by assumption) ?_
    | assumption

theorem State.doStore_orderly (s : State) (r : Req) (hold : Stage) (hs : s.orderly) : (State.doStore s r hold).orderly := by
  unfold State.doStore
  repeat' first
    | with_reducible assumption
    | with_reducible apply State.putReq_orderly
    | with_reducible apply State.finish_orderly
    | with_reducible apply State.countWarm_orderly
    | with_reducible apply State.storeLine_orderly
    | with_reducible apply foldl_orderly
    | with_reducible apply foldl_fst_orderly
    | with_reducible apply ite_orderly
    | with_reducible apply ite_fst_orderly
    | (intro; intros)
    | split
    | dsimp only
    | (unfold State.orderly
       dsimp only
       with_reducible apply State.ordered)
    | refine pair_orderly (by assumption) ?_
    | assumption

theorem State.tryStore_orderly (s : State) (r : Req) (hold : Stage) (hs : s.orderly) : (State.tryStore s r hold).orderly := by
  unfold State.tryStore
  repeat' first
    | with_reducible assumption
    | with_reducible apply State.stageReq_orderly
    | with_reducible apply State.finish_orderly
    | with_reducible apply State.snoopLines_orderly
    | with_reducible apply State.spots_orderly
    | with_reducible apply State.doStore_orderly
    | with_reducible apply ite_orderly
    | with_reducible apply ite_fst_orderly
    | (intro; intros)
    | split
    | dsimp only
    | (unfold State.orderly
       dsimp only
       with_reducible apply State.ordered)
    | refine pair_orderly (by assumption) ?_
    | assumption

theorem State.grantLine_orderly (s : State) (r : Req) (sub : Nat) (e : DirEntry) (val : List Byte × Bool) (hs : s.orderly) : (State.grantLine s r sub e val).orderly := by
  unfold State.grantLine
  repeat' first
    | with_reducible assumption
    | with_reducible apply State.setDir_orderly
    | with_reducible apply State.finishWith_orderly
    | with_reducible apply State.countWarm_orderly
    | with_reducible apply ite_orderly
    | with_reducible apply ite_fst_orderly
    | (intro; intros)
    | split
    | dsimp only
    | (unfold State.orderly
       dsimp only
       with_reducible apply State.ordered)
    | refine pair_orderly (by assumption) ?_
    | assumption

theorem State.takeRoom_orderly (s : State) (r : Req) (line : Nat) (hs : s.orderly) : (State.takeRoom s r line).1.orderly := by
  unfold State.takeRoom
  repeat' first
    | with_reducible assumption
    | with_reducible apply State.backInvalidate_orderly
    | with_reducible apply ite_orderly
    | with_reducible apply ite_fst_orderly
    | (intro; intros)
    | split
    | dsimp only
    | (unfold State.orderly
       dsimp only
       with_reducible apply State.ordered)
    | refine pair_orderly (by assumption) ?_
    | assumption

theorem State.serveCoh_orderly (s : State) (r : Req) (hs : s.orderly) : (State.serveCoh s r).orderly := by
  unfold State.serveCoh
  repeat' first
    | with_reducible assumption
    | with_reducible apply State.setDir_orderly
    | with_reducible apply State.dropHolder_orderly
    | with_reducible apply State.snoop_orderly
    | with_reducible apply State.homeWrite_orderly
    | with_reducible apply State.stageReq_orderly
    | with_reducible apply State.finishWith_orderly
    | with_reducible apply State.countWarm_orderly
    | with_reducible apply State.seekAll_orderly
    | with_reducible apply State.grantLine_orderly
    | with_reducible apply State.takeRoom_orderly
    | with_reducible apply foldl_orderly
    | with_reducible apply foldl_fst_orderly
    | with_reducible apply ite_orderly
    | with_reducible apply ite_fst_orderly
    | (intro; intros)
    | split
    | dsimp only
    | (unfold State.orderly
       dsimp only
       with_reducible apply State.ordered)
    | refine pair_orderly (by assumption) ?_
    | assumption

theorem State.serve_orderly (s : State) (n : Nat) (hs : s.orderly) : (State.serve s n).orderly := by
  unfold State.serve
  repeat' first
    | with_reducible assumption
    | with_reducible apply State.stageReq_orderly
    | with_reducible apply State.snoopLines_orderly
    | with_reducible apply State.serveLoad_orderly
    | with_reducible apply State.spots_orderly
    | with_reducible apply State.tryStore_orderly
    | with_reducible apply State.serveCoh_orderly
    | with_reducible apply ite_orderly
    | with_reducible apply ite_fst_orderly
    | (intro; intros)
    | split
    | dsimp only
    | (unfold State.orderly
       dsimp only
       with_reducible apply State.ordered)
    | refine pair_orderly (by assumption) ?_
    | assumption

theorem State.wake_orderly (s : State) (p : Req → Bool) (hs : s.orderly) : (State.wake s p).orderly := by
  unfold State.wake
  repeat' first
    | with_reducible assumption
    | with_reducible apply State.serve_orderly
    | with_reducible apply foldl_orderly
    | with_reducible apply foldl_fst_orderly
    | with_reducible apply ite_orderly
    | with_reducible apply ite_fst_orderly
    | (intro; intros)
    | split
    | dsimp only
    | (unfold State.orderly
       dsimp only
       with_reducible apply State.ordered)
    | refine pair_orderly (by assumption) ?_
    | assumption

theorem State.wakeStaged_orderly (s : State) (hs : s.orderly) : (State.wakeStaged s).orderly := by
  unfold State.wakeStaged
  repeat' first
    | with_reducible assumption
    | with_reducible apply State.wake_orderly
    | with_reducible apply ite_orderly
    | with_reducible apply ite_fst_orderly
    | (intro; intros)
    | split
    | dsimp only
    | (unfold State.orderly
       dsimp only
       with_reducible apply State.ordered)
    | refine pair_orderly (by assumption) ?_
    | assumption

theorem State.wakeBlock_orderly (s : State) (b : Nat) (hs : s.orderly) : (State.wakeBlock s b).orderly := by
  unfold State.wakeBlock
  repeat' first
    | with_reducible assumption
    | with_reducible apply State.wake_orderly
    | with_reducible apply ite_orderly
    | with_reducible apply ite_fst_orderly
    | (intro; intros)
    | split
    | dsimp only
    | (unfold State.orderly
       dsimp only
       with_reducible apply State.ordered)
    | refine pair_orderly (by assumption) ?_
    | assumption

theorem State.wakeLine_orderly (s : State) (line : Nat) (hs : s.orderly) : (State.wakeLine s line).orderly := by
  unfold State.wakeLine
  repeat' first
    | with_reducible assumption
    | with_reducible apply State.wake_orderly
    | with_reducible apply ite_orderly
    | with_reducible apply ite_fst_orderly
    | (intro; intros)
    | split
    | dsimp only
    | (unfold State.orderly
       dsimp only
       with_reducible apply State.ordered)
    | refine pair_orderly (by assumption) ?_
    | assumption

end Sys2Proof.Machine
end

