-- ==== Sys2Proof/Laws/KeepTray.lean ====
section
/-! SUPPORT. Every operation of Tray keeps the queues and memories in order. -/

set_option linter.unusedTactic false
set_option linter.unreachableTactic false
set_option linter.unusedVariables false

namespace Sys2Proof.Machine

theorem State.takeSlot_orderly (s : State) (t : Nat) (hs : s.orderly) : (State.takeSlot s t).1.orderly := by
  unfold State.takeSlot
  repeat' first
    | with_reducible assumption
    | with_reducible apply State.setTray_orderly
    | with_reducible apply ite_orderly
    | with_reducible apply ite_fst_orderly
    | (intro; intros)
    | split
    | dsimp only
    | (unfold State.orderly
       dsimp only
       with_reducible apply State.ordered)
    | refine pair_orderly (by assumption) ?_
    | assumption

theorem State.allocSlot_orderly (s : State) (tier : Nat) (hs : s.orderly) : ∀ r, (State.allocSlot s tier) = some r → r.1.orderly := by
  intro r hr
  unfold State.allocSlot at hr
  split at hr
  · cases hr
  · cases hr
    exact State.takeSlot_orderly _ _ hs

theorem State.wipeBlock_orderly (s : State) (tenant : BitVec 10) (t : Nat) (slot : Nat) (i : Nat) (hs : s.orderly) : (State.wipeBlock s tenant t slot i).orderly := by
  unfold State.wipeBlock
  repeat' first
    | with_reducible assumption
    | with_reducible apply State.sendTray_orderly
    | with_reducible apply ite_orderly
    | with_reducible apply ite_fst_orderly
    | (intro; intros)
    | split
    | dsimp only
    | (unfold State.orderly
       dsimp only
       with_reducible apply State.ordered)
    | refine pair_orderly (by assumption) ?_
    | assumption

theorem State.releaseSlot_orderly (s : State) (page : Nat) (t : Nat) (slot : Nat) (overwritten : Bool) (hs : s.orderly) : (State.releaseSlot s page t slot overwritten).orderly := by
  unfold State.releaseSlot
  repeat' first
    | with_reducible assumption
    | with_reducible apply State.onTray_orderly
    | with_reducible apply State.stopZero_orderly
    | with_reducible apply State.wipeBlock_orderly
    | with_reducible apply ite_orderly
    | with_reducible apply ite_fst_orderly
    | (intro; intros)
    | split
    | dsimp only
    | (unfold State.orderly
       dsimp only
       with_reducible apply State.ordered)
    | refine pair_orderly (by assumption) ?_
    | assumption

theorem State.giveSlot_orderly (s : State) (page : Nat) (tier : Nat) (hs : s.orderly) : ∀ t, (State.giveSlot s page tier) = some t → t.orderly := by
  intro t ht
  unfold State.giveSlot at ht
  split at ht
  · cases ht
  · cases ht
    apply State.onPage_orderly
    refine State.allocSlot_orderly _ _ ?_ (_, _, _) (by assumption)
    exact hs

theorem State.giveSlot_getD_orderly (s : State) (page tier : Nat) (hs : s.orderly) :
    ((s.giveSlot page tier).getD s).orderly := by
  cases h : s.giveSlot page tier with
  | none => exact hs
  | some t => exact State.giveSlot_orderly _ _ _ hs _ h

theorem State.trayTo_orderly (s : State) (t : Nat) (n : TrayState) (hs : s.orderly) : (State.trayTo s t n).orderly := by
  unfold State.trayTo
  repeat' first
    | with_reducible assumption
    | with_reducible apply State.event_orderly
    | with_reducible apply State.onTray_orderly
    | with_reducible apply ite_orderly
    | with_reducible apply ite_fst_orderly
    | (intro; intros)
    | split
    | dsimp only
    | (unfold State.orderly
       dsimp only
       with_reducible apply State.ordered)
    | refine pair_orderly (by assumption) ?_
    | assumption

theorem State.hofStop_orderly (s : State) (e : Nat) (hs : s.orderly) : (State.hofStop s e).orderly := by
  unfold State.hofStop
  repeat' first
    | with_reducible assumption
    | with_reducible apply ite_orderly
    | with_reducible apply ite_fst_orderly
    | (intro; intros)
    | split
    | dsimp only
    | (unfold State.orderly
       dsimp only
       with_reducible apply State.ordered)
    | refine pair_orderly (by assumption) ?_
    | assumption

theorem State.extTo_orderly (s : State) (e : Nat) (n : ExtState) (f : Extent → Extent) (hs : s.orderly) : (State.extTo s e n f).orderly := by
  unfold State.extTo
  repeat' first
    | with_reducible assumption
    | with_reducible apply State.onExtent_orderly
    | with_reducible apply State.hofStop_orderly
    | with_reducible apply ite_orderly
    | with_reducible apply ite_fst_orderly
    | (intro; intros)
    | split
    | dsimp only
    | (unfold State.orderly
       dsimp only
       with_reducible apply State.ordered)
    | refine pair_orderly (by assumption) ?_
    | assumption

theorem State.backExtents_orderly (s : State) (hs : s.orderly) : (State.backExtents s).orderly := by
  unfold State.backExtents
  repeat' first
    | with_reducible assumption
    | with_reducible apply State.event_orderly
    | with_reducible apply State.extTo_orderly
    | with_reducible apply foldl_orderly
    | with_reducible apply foldl_fst_orderly
    | with_reducible apply ite_orderly
    | with_reducible apply ite_fst_orderly
    | (intro; intros)
    | split
    | dsimp only
    | (unfold State.orderly
       dsimp only
       with_reducible apply State.ordered)
    | refine pair_orderly (by assumption) ?_
    | assumption

theorem State.discovered_orderly (s : State) (t : Nat) (tier : Nat) (slots : Nat) (ident : BitVec 64) (hs : s.orderly) : (State.discovered s t tier slots ident).orderly := by
  unfold State.discovered
  repeat' first
    | with_reducible assumption
    | with_reducible apply State.event_orderly
    | with_reducible apply State.onTray_orderly
    | with_reducible apply State.trayTo_orderly
    | with_reducible apply State.backExtents_orderly
    | with_reducible apply ite_orderly
    | with_reducible apply ite_fst_orderly
    | (intro; intros)
    | split
    | dsimp only
    | (unfold State.orderly
       dsimp only
       with_reducible apply State.ordered)
    | refine pair_orderly (by assumption) ?_
    | assumption

theorem State.scrubBlock_orderly (s : State) (page : Nat) (i : Nat) (hs : s.orderly) : (State.scrubBlock s page i).orderly := by
  unfold State.scrubBlock
  repeat' first
    | with_reducible assumption
    | with_reducible apply State.sendTray_orderly
    | with_reducible apply ite_orderly
    | with_reducible apply ite_fst_orderly
    | (intro; intros)
    | split
    | dsimp only
    | (unfold State.orderly
       dsimp only
       with_reducible apply State.ordered)
    | refine pair_orderly (by assumption) ?_
    | assumption

theorem State.trayBack_orderly (s : State) (t : Nat) (hs : s.orderly) : (State.trayBack s t).orderly := by
  unfold State.trayBack
  repeat' first
    | with_reducible assumption
    | with_reducible apply State.zeroBlock_orderly
    | with_reducible apply State.wake_orderly
    | with_reducible apply State.wipeBlock_orderly
    | with_reducible apply State.scrubBlock_orderly
    | with_reducible apply foldl_orderly
    | with_reducible apply foldl_fst_orderly
    | with_reducible apply ite_orderly
    | with_reducible apply ite_fst_orderly
    | (intro; intros)
    | split
    | dsimp only
    | (unfold State.orderly
       dsimp only
       with_reducible apply State.ordered)
    | refine pair_orderly (by assumption) ?_
    | assumption

theorem State.writeBitmap_orderly (s : State) (t : Nat) (hs : s.orderly) : (State.writeBitmap s t).orderly := by
  unfold State.writeBitmap
  repeat' first
    | with_reducible assumption
    | with_reducible apply State.onTray_orderly
    | with_reducible apply State.sendTray_orderly
    | with_reducible apply ite_orderly
    | with_reducible apply ite_fst_orderly
    | (intro; intros)
    | split
    | dsimp only
    | (unfold State.orderly
       dsimp only
       with_reducible apply State.ordered)
    | refine pair_orderly (by assumption) ?_
    | assumption

theorem State.readDescriptor_orderly (s : State) (t : Nat) (hs : s.orderly) : (State.readDescriptor s t).orderly := by
  unfold State.readDescriptor
  repeat' first
    | with_reducible assumption
    | with_reducible apply State.sendTray_orderly
    | with_reducible apply ite_orderly
    | with_reducible apply ite_fst_orderly
    | (intro; intros)
    | split
    | dsimp only
    | (unfold State.orderly
       dsimp only
       with_reducible apply State.ordered)
    | refine pair_orderly (by assumption) ?_
    | assumption

theorem State.trayPortOpen_orderly (s : State) (p : Nat) (peer : BitVec 64) (hs : s.orderly) : (State.trayPortOpen s p peer).orderly := by
  unfold State.trayPortOpen
  repeat' first
    | with_reducible assumption
    | with_reducible apply State.event_orderly
    | with_reducible apply State.onTray_orderly
    | with_reducible apply State.writeBitmap_orderly
    | with_reducible apply State.readDescriptor_orderly
    | with_reducible apply ite_orderly
    | with_reducible apply ite_fst_orderly
    | (intro; intros)
    | split
    | dsimp only
    | (unfold State.orderly
       dsimp only
       with_reducible apply State.ordered)
    | refine pair_orderly (by assumption) ?_
    | assumption

theorem State.losePage_orderly (s : State) (p : Nat) (hs : s.orderly) : (State.losePage s p).orderly := by
  unfold State.losePage
  repeat' first
    | with_reducible assumption
    | with_reducible apply State.onPage_orderly
    | with_reducible apply ite_orderly
    | with_reducible apply ite_fst_orderly
    | (intro; intros)
    | split
    | dsimp only
    | (unfold State.orderly
       dsimp only
       with_reducible apply State.ordered)
    | refine pair_orderly (by assumption) ?_
    | assumption

theorem State.pinMove_orderly (s : State) (page : Nat) (hs : s.orderly) : (State.pinMove s page).orderly := by
  unfold State.pinMove
  repeat' first
    | with_reducible assumption
    | with_reducible apply ite_orderly
    | with_reducible apply ite_fst_orderly
    | (intro; intros)
    | split
    | dsimp only
    | (unfold State.orderly
       dsimp only
       with_reducible apply State.ordered)
    | refine pair_orderly (by assumption) ?_
    | assumption

theorem State.abortMove_orderly (s : State) (page : Nat) (hs : s.orderly) : (State.abortMove s page).orderly := by
  unfold State.abortMove
  repeat' first
    | with_reducible assumption
    | with_reducible apply State.onPage_orderly
    | with_reducible apply State.releaseSlot_orderly
    | with_reducible apply State.pinMove_orderly
    | with_reducible apply ite_orderly
    | with_reducible apply ite_fst_orderly
    | (intro; intros)
    | split
    | dsimp only
    | (unfold State.orderly
       dsimp only
       with_reducible apply State.ordered)
    | refine pair_orderly (by assumption) ?_
    | assumption

theorem State.trayLeaves_orderly (s : State) (t : Nat) (hs : s.orderly) : (State.trayLeaves s t).orderly := by
  unfold State.trayLeaves
  repeat' first
    | with_reducible assumption
    | with_reducible apply State.abortMove_orderly
    | with_reducible apply foldl_orderly
    | with_reducible apply foldl_fst_orderly
    | with_reducible apply ite_orderly
    | with_reducible apply ite_fst_orderly
    | (intro; intros)
    | split
    | dsimp only
    | (unfold State.orderly
       dsimp only
       with_reducible apply State.ordered)
    | refine pair_orderly (by assumption) ?_
    | assumption

theorem State.lostWrites_orderly (s : State) (t : Nat) (hs : s.orderly) : (State.lostWrites s t).orderly := by
  unfold State.lostWrites
  repeat' first
    | with_reducible assumption
    | with_reducible apply State.lostLines_orderly
    | with_reducible apply foldl_orderly
    | with_reducible apply foldl_fst_orderly
    | with_reducible apply ite_orderly
    | with_reducible apply ite_fst_orderly
    | (intro; intros)
    | split
    | dsimp only
    | (unfold State.orderly
       dsimp only
       with_reducible apply State.ordered)
    | refine pair_orderly (by assumption) ?_
    | assumption

theorem State.trayGone_orderly (s : State) (t : Nat) (hs : s.orderly) : (State.trayGone s t).orderly := by
  unfold State.trayGone
  repeat' first
    | with_reducible assumption
    | with_reducible apply State.trayTo_orderly
    | with_reducible apply State.trayLeaves_orderly
    | with_reducible apply State.lostWrites_orderly
    | with_reducible apply ite_orderly
    | with_reducible apply ite_fst_orderly
    | (intro; intros)
    | split
    | dsimp only
    | (unfold State.orderly
       dsimp only
       with_reducible apply State.ordered)
    | refine pair_orderly (by assumption) ?_
    | assumption

theorem State.trayRetired_orderly (s : State) (t : Nat) (hs : s.orderly) : (State.trayRetired s t).orderly := by
  unfold State.trayRetired
  repeat' first
    | with_reducible assumption
    | with_reducible apply State.logE_orderly
    | with_reducible apply State.onTray_orderly
    | with_reducible apply State.wake_orderly
    | with_reducible apply State.trayTo_orderly
    | with_reducible apply State.trayLeaves_orderly
    | with_reducible apply ite_orderly
    | with_reducible apply ite_fst_orderly
    | (intro; intros)
    | split
    | dsimp only
    | (unfold State.orderly
       dsimp only
       with_reducible apply State.ordered)
    | refine pair_orderly (by assumption) ?_
    | assumption

theorem State.holdPage_orderly (s : State) (page : Nat) (reason : Nat) (hs : s.orderly) : (State.holdPage s page reason).orderly := by
  unfold State.holdPage
  repeat' first
    | with_reducible assumption
    | with_reducible apply State.logE_orderly
    | with_reducible apply State.countTrn_orderly
    | with_reducible apply State.setPage_orderly
    | with_reducible apply ite_orderly
    | with_reducible apply ite_fst_orderly
    | (intro; intros)
    | split
    | dsimp only
    | (unfold State.orderly
       dsimp only
       with_reducible apply State.ordered)
    | refine pair_orderly (by assumption) ?_
    | assumption

theorem State.queueMove_orderly (s : State) (m : Move) (hs : s.orderly) : (State.queueMove s m).orderly := by
  unfold State.queueMove
  repeat' first
    | with_reducible assumption
    | with_reducible apply ite_orderly
    | with_reducible apply ite_fst_orderly
    | (intro; intros)
    | split
    | dsimp only
    | (unfold State.orderly
       dsimp only
       with_reducible apply State.ordered)
    | refine pair_orderly (by assumption) ?_
    | assumption

theorem State.decidePage_orderly (s : State) (page : Nat) (hs : s.orderly) : (State.decidePage s page).orderly := by
  unfold State.decidePage
  repeat' first
    | with_reducible assumption
    | with_reducible apply State.holdPage_orderly
    | with_reducible apply State.queueMove_orderly
    | with_reducible apply foldl_orderly
    | with_reducible apply foldl_fst_orderly
    | with_reducible apply ite_orderly
    | with_reducible apply ite_fst_orderly
    | (intro; intros)
    | split
    | dsimp only
    | (unfold State.orderly
       dsimp only
       with_reducible apply State.ordered)
    | refine pair_orderly (by assumption) ?_
    | assumption

theorem State.copyBlock_orderly (s : State) (page : Nat) (i : Nat) (hs : s.orderly) : (State.copyBlock s page i).orderly := by
  unfold State.copyBlock
  repeat' first
    | with_reducible assumption
    | with_reducible apply State.sendTray_orderly
    | with_reducible apply ite_orderly
    | with_reducible apply ite_fst_orderly
    | (intro; intros)
    | split
    | dsimp only
    | (unfold State.orderly
       dsimp only
       with_reducible apply State.ordered)
    | refine pair_orderly (by assumption) ?_
    | assumption

theorem State.relocBlock_orderly (s : State) (page : Nat) (i : Nat) (hs : s.orderly) : (State.relocBlock s page i).orderly := by
  unfold State.relocBlock
  repeat' first
    | with_reducible assumption
    | with_reducible apply State.sendTray_orderly
    | with_reducible apply foldl_orderly
    | with_reducible apply foldl_fst_orderly
    | with_reducible apply ite_orderly
    | with_reducible apply ite_fst_orderly
    | (intro; intros)
    | split
    | dsimp only
    | (unfold State.orderly
       dsimp only
       with_reducible apply State.ordered)
    | refine pair_orderly (by assumption) ?_
    | assumption

theorem State.beginMove_orderly (s : State) (m : Move) (hs : s.orderly) : (State.beginMove s m).orderly := by
  unfold State.beginMove
  repeat' first
    | with_reducible assumption
    | with_reducible apply State.onPage_orderly
    | with_reducible apply State.onTray_orderly
    | with_reducible apply State.stopZero_orderly
    | refine State.allocSlot_orderly _ _ ?_ (_, _, _) (by assumption)
    | with_reducible apply State.copyBlock_orderly
    | with_reducible apply ite_orderly
    | with_reducible apply ite_fst_orderly
    | (intro; intros)
    | split
    | dsimp only
    | (unfold State.orderly
       dsimp only
       with_reducible apply State.ordered)
    | refine pair_orderly (by assumption) ?_
    | assumption

theorem State.endMove_orderly (s : State) (m : Move) (t : Nat) (sl : Nat) (hs : s.orderly) : (State.endMove s m t sl).orderly := by
  unfold State.endMove
  repeat' first
    | with_reducible assumption
    | with_reducible apply State.countTrn_orderly
    | with_reducible apply State.setPage_orderly
    | with_reducible apply State.releaseSlot_orderly
    | with_reducible apply State.pinMove_orderly
    | with_reducible apply ite_orderly
    | with_reducible apply ite_fst_orderly
    | (intro; intros)
    | split
    | dsimp only
    | (unfold State.orderly
       dsimp only
       with_reducible apply State.ordered)
    | refine pair_orderly (by assumption) ?_
    | assumption

theorem State.openLines_orderly (s : State) (b : Nat) (first : Nat) (n : Nat) (tenant : BitVec 10) (bad : BitVec 32) (pl : List Byte) (hs : s.orderly) : (State.openLines s b first n tenant bad pl).1.orderly := by
  unfold State.openLines
  repeat' first
    | with_reducible assumption
    | with_reducible apply State.countSec_orderly
    | with_reducible apply State.notePoison_orderly
    | with_reducible apply foldl_orderly
    | with_reducible apply foldl_fst_orderly
    | with_reducible apply ite_orderly
    | with_reducible apply ite_fst_orderly
    | (intro; intros)
    | split
    | dsimp only
    | (unfold State.orderly
       dsimp only
       with_reducible apply State.ordered)
    | refine pair_orderly (by assumption) ?_
    | assumption

theorem State.giveLines_orderly (s : State) (b : Nat) (ls : List (Nat × List Byte × Bool)) (hs : s.orderly) : (State.giveLines s b ls).orderly := by
  unfold State.giveLines
  repeat' first
    | with_reducible assumption
    | with_reducible apply foldl_orderly
    | with_reducible apply foldl_fst_orderly
    | with_reducible apply ite_orderly
    | with_reducible apply ite_fst_orderly
    | (intro; intros)
    | split
    | dsimp only
    | (unfold State.orderly
       dsimp only
       with_reducible apply State.ordered)
    | refine pair_orderly (by assumption) ?_
    | assumption

theorem State.fillDone_orderly (s : State) (b : Nat) (ls : List (List Byte × Bool)) (hs : s.orderly) : (State.fillDone s b ls).orderly := by
  unfold State.fillDone
  repeat' first
    | with_reducible assumption
    | with_reducible apply State.fillBlock_orderly
    | with_reducible apply State.wakeBlock_orderly
    | with_reducible apply State.giveLines_orderly
    | with_reducible apply ite_orderly
    | with_reducible apply ite_fst_orderly
    | (intro; intros)
    | split
    | dsimp only
    | (unfold State.orderly
       dsimp only
       with_reducible apply State.ordered)
    | refine pair_orderly (by assumption) ?_
    | assumption

theorem State.refillLine_orderly (s : State) (line : Nat) (v : List Byte × Bool) (hs : s.orderly) : (State.refillLine s line v).orderly := by
  unfold State.refillLine
  repeat' first
    | with_reducible assumption
    | with_reducible apply State.onPage_orderly
    | with_reducible apply State.makeWay_orderly
    | with_reducible apply State.touch_orderly
    | with_reducible apply State.placeLines_orderly
    | with_reducible apply State.wakeBlock_orderly
    | with_reducible apply State.giveLines_orderly
    | with_reducible apply ite_orderly
    | with_reducible apply ite_fst_orderly
    | (intro; intros)
    | split
    | dsimp only
    | (unfold State.orderly
       dsimp only
       with_reducible apply State.ordered)
    | refine pair_orderly (by assumption) ?_
    | assumption

theorem State.lineWritten_orderly (s : State) (n : Nat) (line : Nat) (st : BitVec 6) (hs : s.orderly) : (State.lineWritten s n line st).orderly := by
  unfold State.lineWritten
  repeat' first
    | with_reducible assumption
    | with_reducible apply State.putReq_orderly
    | with_reducible apply State.finish_orderly
    | with_reducible apply State.countWarm_orderly
    | with_reducible apply State.tryStore_orderly
    | with_reducible apply State.wakeBlock_orderly
    | with_reducible apply ite_orderly
    | with_reducible apply ite_fst_orderly
    | (intro; intros)
    | split
    | dsimp only
    | (unfold State.orderly
       dsimp only
       with_reducible apply State.ordered)
    | refine pair_orderly (by assumption) ?_
    | assumption

theorem State.trayDone_orderly (s : State) (q : TrayReq) (st : BitVec 6) (tenant : BitVec 10) (bad : BitVec 32) (pl : List Byte) (hs : s.orderly) : (State.trayDone s q st tenant bad pl).orderly := by
  unfold State.trayDone
  repeat' first
    | with_reducible assumption
    | with_reducible apply State.event_orderly
    | with_reducible apply State.onExtent_orderly
    | with_reducible apply State.onPage_orderly
    | with_reducible apply State.onTray_orderly
    | with_reducible apply State.sendTray_orderly
    | with_reducible apply State.sendHeld_orderly
    | with_reducible apply State.zeroBlock_orderly
    | with_reducible apply State.stopZero_orderly
    | with_reducible apply State.lostLines_orderly
    | with_reducible apply State.putReq_orderly
    | with_reducible apply State.serve_orderly
    | with_reducible apply State.wake_orderly
    | with_reducible apply State.wakeBlock_orderly
    | with_reducible apply State.wipeBlock_orderly
    | with_reducible apply State.trayTo_orderly
    | with_reducible apply State.discovered_orderly
    | with_reducible apply State.scrubBlock_orderly
    | with_reducible apply State.trayBack_orderly
    | with_reducible apply State.writeBitmap_orderly
    | with_reducible apply State.trayGone_orderly
    | with_reducible apply State.copyBlock_orderly
    | with_reducible apply State.relocBlock_orderly
    | with_reducible apply State.openLines_orderly
    | with_reducible apply State.fillDone_orderly
    | with_reducible apply State.refillLine_orderly
    | with_reducible apply State.lineWritten_orderly
    | with_reducible apply foldl_orderly
    | with_reducible apply foldl_fst_orderly
    | with_reducible apply ite_orderly
    | with_reducible apply ite_fst_orderly
    | (intro; intros)
    | split
    | dsimp only
    | (unfold State.orderly
       dsimp only
       with_reducible apply State.ordered)
    | refine pair_orderly (by assumption) ?_
    | assumption

theorem State.trayAnswer_orderly (s : State) (q : TrayReq) (st : BitVec 6) (tenant : BitVec 10) (bad : BitVec 32) (pl : List Byte) (hs : s.orderly) : (State.trayAnswer s q st tenant bad pl).orderly := by
  unfold State.trayAnswer
  repeat' first
    | with_reducible assumption
    | with_reducible apply State.tagFree_orderly
    | with_reducible apply State.trayDone_orderly
    | with_reducible apply ite_orderly
    | with_reducible apply ite_fst_orderly
    | (intro; intros)
    | split
    | dsimp only
    | (unfold State.orderly
       dsimp only
       with_reducible apply State.ordered)
    | refine pair_orderly (by assumption) ?_
    | assumption

end Sys2Proof.Machine
end

