-- ==== Sys2Proof/Laws/KeepAccess.lean ====
section
/-! SUPPORT. Every operation of Access keeps the queues and memories in order. -/

set_option linter.unusedTactic false
set_option linter.unreachableTactic false
set_option linter.unusedVariables false

namespace Sys2Proof.Machine

theorem State.tlbPut_orderly (s : State) (key : Nat) (e : TlbEntry) (hs : s.orderly) : (State.tlbPut s key e).orderly := by
  unfold State.tlbPut
  repeat' first
    | with_reducible assumption
    | with_reducible apply ite_orderly
    | with_reducible apply ite_fst_orderly
    | (intro; intros)
    | split
    | dsimp only
    | (unfold State.orderly
       dsimp only
       with_reducible apply State.ordered)
    | refine pair_orderly (by assumption) ?_
    | assumption

theorem State.walkPut_orderly (s : State) (unit : Nat) (e : WalkEntry) (hs : s.orderly) : (State.walkPut s unit e).orderly := by
  unfold State.walkPut
  repeat' first
    | with_reducible assumption
    | with_reducible apply ite_orderly
    | with_reducible apply ite_fst_orderly
    | (intro; intros)
    | split
    | dsimp only
    | (unfold State.orderly
       dsimp only
       with_reducible apply State.ordered)
    | refine pair_orderly (by assumption) ?_
    | assumption

theorem State.walkFault_orderly (s : State) (tenant : BitVec 10) (tva : Nat) (hs : s.orderly) : (State.walkFault s tenant tva).orderly := by
  unfold State.walkFault
  repeat' first
    | with_reducible assumption
    | with_reducible apply State.logE_orderly
    | with_reducible apply State.countTrn_orderly
    | with_reducible apply ite_orderly
    | with_reducible apply ite_fst_orderly
    | (intro; intros)
    | split
    | dsimp only
    | (unfold State.orderly
       dsimp only
       with_reducible apply State.ordered)
    | refine pair_orderly (by assumption) ?_
    | assumption

theorem State.sendOn_orderly (s : State) (r : Req) (p : Nat) (phys : Bool) (hs : s.orderly) : (State.sendOn s r p phys).orderly := by
  unfold State.sendOn
  repeat' first
    | with_reducible assumption
    | with_reducible apply State.onLink_orderly
    | with_reducible apply State.sendFrom_orderly
    | with_reducible apply State.putReq_orderly
    | with_reducible apply State.finish_orderly
    | with_reducible apply ite_orderly
    | with_reducible apply ite_fst_orderly
    | (intro; intros)
    | split
    | dsimp only
    | (unfold State.orderly
       dsimp only
       with_reducible apply State.ordered)
    | refine pair_orderly (by assumption) ?_
    | assumption

theorem State.turnBack_orderly (s : State) (r : Req) (st : BitVec 6) (hs : s.orderly) : (State.turnBack s r st).orderly := by
  unfold State.turnBack
  repeat' first
    | with_reducible assumption
    | with_reducible apply State.countCmpo_orderly
    | with_reducible apply State.finish_orderly
    | with_reducible apply ite_orderly
    | with_reducible apply ite_fst_orderly
    | (intro; intros)
    | split
    | dsimp only
    | (unfold State.orderly
       dsimp only
       with_reducible apply State.ordered)
    | refine pair_orderly (by assumption) ?_
    | assumption

theorem State.route_orderly (s : State) (n : Nat) (hs : s.orderly) : (State.route s n).orderly := by
  unfold State.route
  repeat' first
    | with_reducible assumption
    | with_reducible apply State.countExt_orderly
    | with_reducible apply State.countCmpo_orderly
    | with_reducible apply State.putReq_orderly
    | with_reducible apply State.finish_orderly
    | with_reducible apply State.serve_orderly
    | with_reducible apply State.sendOn_orderly
    | with_reducible apply State.turnBack_orderly
    | with_reducible apply ite_orderly
    | with_reducible apply ite_fst_orderly
    | (intro; intros)
    | split
    | dsimp only
    | (unfold State.orderly
       dsimp only
       with_reducible apply State.ordered)
    | refine pair_orderly (by assumption) ?_
    | assumption

theorem State.proceed_orderly (s : State) (n : Nat) (x : WalkEnd) (hs : s.orderly) : (State.proceed s n x).orderly := by
  unfold State.proceed
  repeat' first
    | with_reducible assumption
    | with_reducible apply State.putReq_orderly
    | with_reducible apply State.finish_orderly
    | with_reducible apply State.turnBack_orderly
    | with_reducible apply State.route_orderly
    | with_reducible apply ite_orderly
    | with_reducible apply ite_fst_orderly
    | (intro; intros)
    | split
    | dsimp only
    | (unfold State.orderly
       dsimp only
       with_reducible apply State.ordered)
    | refine pair_orderly (by assumption) ?_
    | assumption

theorem State.readEntry_orderly (s : State) (w : Walk) (hs : s.orderly) : (State.readEntry s w).orderly := by
  unfold State.readEntry
  repeat' first
    | with_reducible assumption
    | with_reducible apply State.addReq_orderly
    | with_reducible apply State.serve_orderly
    | with_reducible apply State.route_orderly
    | with_reducible apply ite_orderly
    | with_reducible apply ite_fst_orderly
    | (intro; intros)
    | split
    | dsimp only
    | (unfold State.orderly
       dsimp only
       with_reducible apply State.ordered)
    | refine pair_orderly (by assumption) ?_
    | assumption

theorem State.startWalk_orderly (s : State) (unit : Nat) (core : Option Nat) (tenant : BitVec 10) (tva : Nat) (probe : Option (Nat × Nat)) (hs : s.orderly) : (State.startWalk s unit core tenant tva probe).1.orderly := by
  unfold State.startWalk
  repeat' first
    | with_reducible assumption
    | with_reducible apply State.countTrn_orderly
    | with_reducible apply State.readEntry_orderly
    | with_reducible apply ite_orderly
    | with_reducible apply ite_fst_orderly
    | (intro; intros)
    | split
    | dsimp only
    | (unfold State.orderly
       dsimp only
       with_reducible apply State.ordered)
    | refine pair_orderly (by assumption) ?_
    | assumption

theorem State.beginWalks_orderly (s : State) (unit : Nat) (hs : s.orderly) : (State.beginWalks s unit).orderly := by
  unfold State.beginWalks
  repeat' first
    | with_reducible assumption
    | with_reducible apply State.readEntry_orderly
    | with_reducible apply foldl_orderly
    | with_reducible apply foldl_fst_orderly
    | with_reducible apply ite_orderly
    | with_reducible apply ite_fst_orderly
    | (intro; intros)
    | split
    | dsimp only
    | (unfold State.orderly
       dsimp only
       with_reducible apply State.ordered)
    | refine pair_orderly (by assumption) ?_
    | assumption

theorem State.translate_orderly (s : State) (n : Nat) (unit : Nat) (core : Option Nat) (hs : s.orderly) : (State.translate s n unit core).orderly := by
  unfold State.translate
  repeat' first
    | with_reducible assumption
    | with_reducible apply State.putReq_orderly
    | with_reducible apply State.proceed_orderly
    | with_reducible apply State.startWalk_orderly
    | with_reducible apply ite_orderly
    | with_reducible apply ite_fst_orderly
    | (intro; intros)
    | split
    | dsimp only
    | (unfold State.orderly
       dsimp only
       with_reducible apply State.ordered)
    | refine pair_orderly (by assumption) ?_
    | assumption

theorem State.endWalk_orderly (s : State) (w : Walk) (x : WalkEnd) (hs : s.orderly) : (State.endWalk s w x).orderly := by
  unfold State.endWalk
  repeat' first
    | with_reducible assumption
    | with_reducible apply State.wakeStaged_orderly
    | with_reducible apply State.tlbPut_orderly
    | with_reducible apply State.walkFault_orderly
    | with_reducible apply State.proceed_orderly
    | with_reducible apply State.beginWalks_orderly
    | with_reducible apply foldl_orderly
    | with_reducible apply foldl_fst_orderly
    | with_reducible apply ite_orderly
    | with_reducible apply ite_fst_orderly
    | (intro; intros)
    | split
    | dsimp only
    | (unfold State.orderly
       dsimp only
       with_reducible apply State.ordered)
    | refine pair_orderly (by assumption) ?_
    | assumption

theorem State.walkRead_orderly (s : State) (w : Walk) (st : BitVec 6) (bs : List Byte) (hs : s.orderly) : (State.walkRead s w st bs).orderly := by
  unfold State.walkRead
  repeat' first
    | with_reducible assumption
    | with_reducible apply State.walkPut_orderly
    | with_reducible apply State.readEntry_orderly
    | with_reducible apply State.endWalk_orderly
    | with_reducible apply ite_orderly
    | with_reducible apply ite_fst_orderly
    | (intro; intros)
    | split
    | dsimp only
    | (unfold State.orderly
       dsimp only
       with_reducible apply State.ordered)
    | refine pair_orderly (by assumption) ?_
    | assumption

theorem State.take_orderly (s : State) (o : Origin) (f : Frame) (unit : Nat) (core : Option Nat) (hops : Nat) (hs : s.orderly) : (State.take s o f unit core hops).orderly := by
  unfold State.take
  repeat' first
    | with_reducible assumption
    | with_reducible apply State.putReq_orderly
    | with_reducible apply State.addReq_orderly
    | with_reducible apply State.finishOne_orderly
    | with_reducible apply State.finish_orderly
    | with_reducible apply State.sendOn_orderly
    | with_reducible apply State.route_orderly
    | with_reducible apply State.translate_orderly
    | with_reducible apply ite_orderly
    | with_reducible apply ite_fst_orderly
    | (intro; intros)
    | split
    | dsimp only
    | (unfold State.orderly
       dsimp only
       with_reducible apply State.ordered)
    | refine pair_orderly (by assumption) ?_
    | assumption

theorem State.accept_orderly (s : State) (o : Origin) (f : Frame) (unit : Nat) (core : Option Nat) (hops : Nat) (hs : s.orderly) : (State.accept s o f unit core hops).orderly := by
  unfold State.accept
  repeat' first
    | with_reducible assumption
    | with_reducible apply State.wakeStaged_orderly
    | with_reducible apply State.take_orderly
    | with_reducible apply ite_orderly
    | with_reducible apply ite_fst_orderly
    | (intro; intros)
    | split
    | dsimp only
    | (unfold State.orderly
       dsimp only
       with_reducible apply State.ordered)
    | refine pair_orderly (by assumption) ?_
    | assumption

theorem execWalkReadComplete_orderly (walk : Nat) (s : State) (hs : s.orderly) : inOrder (execWalkReadComplete walk s) := by
  unfold execWalkReadComplete
  repeat' first
    | with_reducible assumption
    | with_reducible apply State.walkRead_orderly
    | with_reducible apply ite_orderly
    | with_reducible apply ite_fst_orderly
    | with_reducible apply next_orderly
    | (intro; intros)
    | split
    | dsimp only
    | (unfold State.orderly
       dsimp only
       with_reducible apply State.ordered)
    | refine pair_orderly (by assumption) ?_
    | assumption

end Sys2Proof.Machine
end

