-- ==== Sys2Proof/Laws/KeepMgmt.lean ====
section
/-! SUPPORT. Every operation of Mgmt keeps the queues and memories in order. -/

set_option linter.unusedTactic false
set_option linter.unreachableTactic false
set_option linter.unusedVariables false

namespace Sys2Proof.Machine

theorem State.denyRole_orderly (s : State) (r : Role) (addr : Nat) (hs : s.orderly) : (State.denyRole s r addr).orderly := by
  unfold State.denyRole
  repeat' first
    | with_reducible assumption
    | with_reducible apply State.logE_orderly
    | with_reducible apply State.countSec_orderly
    | with_reducible apply ite_orderly
    | with_reducible apply ite_fst_orderly
    | (intro; intros)
    | split
    | dsimp only
    | (unfold State.orderly
       dsimp only
       with_reducible apply State.ordered)
    | refine pair_orderly (by assumption) ?_
    | assumption

theorem State.adkFlush_orderly (s : State) (hs : s.orderly) : (State.adkFlush s).orderly := by
  refine { hs with unacked_le := ?_ }
  have := hs.unacked_le
  simp only [State.adkFlush, List.length_append, List.length_map, List.length_zipIdx, List.length_take]
  omega

theorem State.adkSend_orderly (s : State) (f : AdkFrame) (hs : s.orderly) : (State.adkSend s f).orderly := by
  unfold State.adkSend
  repeat' first
    | with_reducible assumption
    | with_reducible apply State.adkFlush_orderly
    | with_reducible apply ite_orderly
    | with_reducible apply ite_fst_orderly
    | (intro; intros)
    | split
    | dsimp only
    | (unfold State.orderly
       dsimp only
       with_reducible apply State.ordered)
    | refine pair_orderly (by assumption) ?_
    | assumption

theorem State.adkReply_orderly (s : State) (q : AdkFrame) (st : BitVec 6) (addr : BitVec 48) (words : List (BitVec 64)) (hs : s.orderly) : (State.adkReply s q st addr words).orderly := by
  unfold State.adkReply
  repeat' first
    | with_reducible assumption
    | with_reducible apply State.adkSend_orderly
    | with_reducible apply ite_orderly
    | with_reducible apply ite_fst_orderly
    | (intro; intros)
    | split
    | dsimp only
    | (unfold State.orderly
       dsimp only
       with_reducible apply State.ordered)
    | refine pair_orderly (by assumption) ?_
    | assumption

theorem State.adkFail_orderly (s : State) (q : AdkFrame) (st : BitVec 6) (hs : s.orderly) : (State.adkFail s q st).orderly := by
  unfold State.adkFail
  repeat' first
    | with_reducible assumption
    | with_reducible apply State.adkReply_orderly
    | with_reducible apply ite_orderly
    | with_reducible apply ite_fst_orderly
    | (intro; intros)
    | split
    | dsimp only
    | (unfold State.orderly
       dsimp only
       with_reducible apply State.ordered)
    | refine pair_orderly (by assumption) ?_
    | assumption

theorem State.adkUse_orderly (s : State) (q : AdkFrame) (hs : s.orderly) : (State.adkUse s q).orderly := by
  unfold State.adkUse
  repeat' first
    | with_reducible assumption
    | with_reducible apply ite_orderly
    | with_reducible apply ite_fst_orderly
    | (intro; intros)
    | split
    | dsimp only
    | (unfold State.orderly
       dsimp only
       with_reducible apply State.ordered)
    | refine pair_orderly (by assumption) ?_
    | assumption

theorem State.adkMalformed_orderly (s : State) (q : AdkFrame) (hs : s.orderly) : (State.adkMalformed s q).orderly := by
  unfold State.adkMalformed
  repeat' first
    | with_reducible assumption
    | with_reducible apply State.adkSend_orderly
    | with_reducible apply State.adkUse_orderly
    | with_reducible apply ite_orderly
    | with_reducible apply ite_fst_orderly
    | (intro; intros)
    | split
    | dsimp only
    | (unfold State.orderly
       dsimp only
       with_reducible apply State.ordered)
    | refine pair_orderly (by assumption) ?_
    | assumption

theorem State.adkPerform_orderly (s : State) (q : AdkFrame) (body : State → State) (hs : s.orderly) (hbody : ∀ (a0 : State), a0.orderly → (body a0).orderly) : (State.adkPerform s q body).orderly := by
  unfold State.adkPerform
  repeat' first
    | with_reducible assumption
    | with_reducible apply State.adkSend_orderly
    | with_reducible apply State.adkFail_orderly
    | with_reducible apply State.adkUse_orderly
    | with_reducible apply hbody
    | with_reducible apply ite_orderly
    | with_reducible apply ite_fst_orderly
    | (intro; intros)
    | split
    | dsimp only
    | (unfold State.orderly
       dsimp only
       with_reducible apply State.ordered)
    | refine pair_orderly (by assumption) ?_
    | assumption

theorem State.adkTake_orderly (s : State) (hs : s.orderly) : (State.adkTake s).orderly := by
  unfold State.adkTake
  repeat' first
    | with_reducible assumption
    | with_reducible apply ite_orderly
    | with_reducible apply ite_fst_orderly
    | (intro; intros)
    | split
    | dsimp only
    | (unfold State.orderly
       dsimp only
       with_reducible apply State.ordered)
    | refine pair_orderly (by assumption) ?_
    | assumption

theorem State.adkRequest_orderly (s : State) (q : AdkFrame) (ok : Bool) (body : State → State) (hs : s.orderly) (hbody : ∀ (a0 : State), a0.orderly → (body a0).orderly) : (State.adkRequest s q ok body).orderly := by
  unfold State.adkRequest
  repeat' first
    | with_reducible assumption
    | with_reducible apply State.adkMalformed_orderly
    | with_reducible apply State.adkPerform_orderly
    | with_reducible apply State.adkTake_orderly
    | with_reducible apply hbody
    | with_reducible apply ite_orderly
    | with_reducible apply ite_fst_orderly
    | (intro; intros)
    | split
    | dsimp only
    | (unfold State.orderly
       dsimp only
       with_reducible apply State.ordered)
    | refine pair_orderly (by assumption) ?_
    | assumption

theorem State.wrBody_orderly (q : AdkFrame) (role : Role) (f : State → State × BitVec 6) (s : State) (hf : ∀ (a0 : State), a0.orderly → (f a0).1.orderly) (hs : s.orderly) : (State.wrBody q role f s).orderly := by
  unfold State.wrBody
  repeat' first
    | with_reducible assumption
    | with_reducible apply State.denyRole_orderly
    | with_reducible apply State.adkReply_orderly
    | with_reducible apply hf
    | with_reducible apply ite_orderly
    | with_reducible apply ite_fst_orderly
    | (intro; intros)
    | split
    | dsimp only
    | (unfold State.orderly
       dsimp only
       with_reducible apply State.ordered)
    | refine pair_orderly (by assumption) ?_
    | assumption

theorem State.adkWr_orderly (s : State) (tag : BitVec 16) (addr : Nat) (value : BitVec 64) (role : Role) (f : State → State × BitVec 6) (hs : s.orderly) (hf : ∀ (a0 : State), a0.orderly → (f a0).1.orderly) : (State.adkWr s tag addr value role f).orderly := by
  unfold State.adkWr
  repeat' first
    | with_reducible assumption
    | with_reducible apply State.adkRequest_orderly
    | with_reducible apply State.wrBody_orderly
    | with_reducible apply hf
    | with_reducible apply ite_orderly
    | with_reducible apply ite_fst_orderly
    | (intro; intros)
    | split
    | dsimp only
    | (unfold State.orderly
       dsimp only
       with_reducible apply State.ordered)
    | refine pair_orderly (by assumption) ?_
    | assumption

theorem State.adkAck_orderly (s : State) (seq : BitVec 12) (hs : s.orderly) : (State.adkAck s seq).orderly := by
  have h1 := hs.events_le
  have h2 := hs.unacked_le
  unfold State.adkAck
  split
  · exact hs
  · apply State.adkFlush_orderly
    apply State.noteLost_orderly
    refine { hs with events_le := ?_, unacked_le := ?_ }
    · simp only [List.length_drop]
      omega
    · simp only [List.length_drop]
      omega

theorem State.adkRetrain_orderly (s : State) (hs : s.orderly) : (State.adkRetrain s).orderly := by
  unfold State.adkRetrain
  repeat' first
    | with_reducible assumption
    | with_reducible apply ite_orderly
    | with_reducible apply ite_fst_orderly
    | (intro; intros)
    | split
    | dsimp only
    | (unfold State.orderly
       dsimp only
       with_reducible apply State.ordered)
    | refine pair_orderly (by assumption) ?_
    | assumption

theorem State.adkReplay_orderly (s : State) (hs : s.orderly) : (State.adkReplay s).orderly := by
  unfold State.adkReplay
  repeat' first
    | with_reducible assumption
    | with_reducible apply State.countAdk_orderly
    | with_reducible apply State.adkRetrain_orderly
    | with_reducible apply ite_orderly
    | with_reducible apply ite_fst_orderly
    | (intro; intros)
    | split
    | dsimp only
    | (unfold State.orderly
       dsimp only
       with_reducible apply State.ordered)
    | refine pair_orderly (by assumption) ?_
    | assumption

theorem execAdkFrameReject_orderly (btype : BitVec 8) (words : List (BitVec 64)) (low : BitVec 32) (crc : BitVec 32) (s : State) (hs : s.orderly) : inOrder (execAdkFrameReject btype words low crc s) := by
  unfold execAdkFrameReject
  repeat' first
    | with_reducible assumption
    | with_reducible apply State.countAdk_orderly
    | with_reducible apply ite_orderly
    | with_reducible apply ite_fst_orderly
    | with_reducible apply next_orderly
    | (intro; intros)
    | split
    | dsimp only
    | (unfold State.orderly
       dsimp only
       with_reducible apply State.ordered)
    | refine pair_orderly (by assumption) ?_
    | assumption

theorem State.adkInit_orderly (s : State) (w : LinkCtl) (hs : s.orderly) : (State.adkInit s w).orderly := by
  unfold State.adkInit
  repeat' first
    | with_reducible assumption
    | with_reducible apply State.adkFlush_orderly
    | with_reducible apply State.adkAck_orderly
    | with_reducible apply ite_orderly
    | with_reducible apply ite_fst_orderly
    | (intro; intros)
    | split
    | dsimp only
    | (unfold State.orderly
       dsimp only
       refine Ordered.mk ?_ ?_ ?_ ?_ ?_ ?_ ?_ ?_ ?_ <;> repeat' first
        | with_reducible apply State.events_of
        | with_reducible apply State.entries_of
        | with_reducible apply State.unacked_of
        | with_reducible apply State.t0_of
        | with_reducible apply State.spad_of
        | with_reducible apply State.cmem_of
        | with_reducible apply State.staged_of
        | with_reducible apply State.firmware_of
        | with_reducible apply State.report_of
        | with_reducible exact Memory.wf_nil
        | with_reducible apply Memory.wf_write
        | with_reducible apply Memory.wf_put
        | with_reducible apply Memory.wf_filter
        | rw [List.length_map]
        | exact Nat.zero_le _)
    | refine pair_orderly (by assumption) ?_
    | assumption

theorem execAdkLinkctl_orderly (word : LinkCtl) (s : State) (hs : s.orderly) : inOrder (execAdkLinkctl word s) := by
  unfold execAdkLinkctl
  repeat' first
    | with_reducible assumption
    | with_reducible apply State.adkAck_orderly
    | with_reducible apply State.adkReplay_orderly
    | with_reducible apply State.adkInit_orderly
    | with_reducible apply ite_orderly
    | with_reducible apply ite_fst_orderly
    | with_reducible apply next_orderly
    | (intro; intros)
    | split
    | dsimp only
    | (unfold State.orderly
       dsimp only
       with_reducible apply State.ordered)
    | refine pair_orderly (by assumption) ?_
    | assumption

theorem execAdkLinkctlTimer_orderly (s : State) (hs : s.orderly) : inOrder (execAdkLinkctlTimer s) := by
  unfold execAdkLinkctlTimer
  repeat' first
    | with_reducible assumption
    | with_reducible apply ite_orderly
    | with_reducible apply ite_fst_orderly
    | with_reducible apply next_orderly
    | (intro; intros)
    | split
    | dsimp only
    | (unfold State.orderly
       dsimp only
       with_reducible apply State.ordered)
    | refine pair_orderly (by assumption) ?_
    | assumption

theorem execAdkReplayTimeout_orderly (s : State) (hs : s.orderly) : inOrder (execAdkReplayTimeout s) := by
  unfold execAdkReplayTimeout
  repeat' first
    | with_reducible assumption
    | with_reducible apply State.adkReplay_orderly
    | with_reducible apply ite_orderly
    | with_reducible apply ite_fst_orderly
    | with_reducible apply next_orderly
    | (intro; intros)
    | split
    | dsimp only
    | (unfold State.orderly
       dsimp only
       with_reducible apply State.ordered)
    | refine pair_orderly (by assumption) ?_
    | assumption

theorem execAdkTrainingComplete_orderly (s : State) (hs : s.orderly) : inOrder (execAdkTrainingComplete s) := by
  unfold execAdkTrainingComplete
  repeat' first
    | with_reducible assumption
    | with_reducible apply ite_orderly
    | with_reducible apply ite_fst_orderly
    | with_reducible apply next_orderly
    | (intro; intros)
    | split
    | dsimp only
    | (unfold State.orderly
       dsimp only
       with_reducible apply State.ordered)
    | refine pair_orderly (by assumption) ?_
    | assumption

theorem execAdkTrainingTimeout_orderly (s : State) (hs : s.orderly) : inOrder (execAdkTrainingTimeout s) := by
  unfold execAdkTrainingTimeout
  repeat' first
    | with_reducible assumption
    | with_reducible apply ite_orderly
    | with_reducible apply ite_fst_orderly
    | with_reducible apply next_orderly
    | (intro; intros)
    | split
    | dsimp only
    | (unfold State.orderly
       dsimp only
       with_reducible apply State.ordered)
    | refine pair_orderly (by assumption) ?_
    | assumption

theorem execAdkLinkLoss_orderly (s : State) (hs : s.orderly) : inOrder (execAdkLinkLoss s) := by
  unfold execAdkLinkLoss
  repeat' first
    | with_reducible assumption
    | with_reducible apply ite_orderly
    | with_reducible apply ite_fst_orderly
    | with_reducible apply next_orderly
    | (intro; intros)
    | split
    | dsimp only
    | (unfold State.orderly
       dsimp only
       with_reducible apply State.ordered)
    | refine pair_orderly (by assumption) ?_
    | assumption

theorem execEventSend_orderly (s : State) (hs : s.orderly) : inOrder (execEventSend s) := by
  unfold execEventSend
  repeat' first
    | with_reducible assumption
    | with_reducible apply State.adkSend_orderly
    | with_reducible apply ite_orderly
    | with_reducible apply ite_fst_orderly
    | with_reducible apply next_orderly
    | (intro; intros)
    | split
    | dsimp only
    | (unfold State.orderly
       dsimp only
       refine Ordered.mk ?_ ?_ ?_ ?_ ?_ ?_ ?_ ?_ ?_ <;> repeat' first
        | with_reducible apply State.events_of
        | with_reducible apply State.entries_of
        | with_reducible apply State.unacked_of
        | with_reducible apply State.t0_of
        | with_reducible apply State.spad_of
        | with_reducible apply State.cmem_of
        | with_reducible apply State.staged_of
        | with_reducible apply State.firmware_of
        | with_reducible apply State.report_of
        | with_reducible exact Memory.wf_nil
        | with_reducible apply Memory.wf_write
        | with_reducible apply Memory.wf_put
        | with_reducible apply Memory.wf_filter
        | rw [List.length_map]
        | exact Nat.zero_le _)
    | refine pair_orderly (by assumption) ?_
    | assumption

end Sys2Proof.Machine
end

