-- ==== Sys2Proof/Laws/KeepRoom.lean ====
section
/-! SUPPORT. Every operation of Room keeps the queues and memories in order. -/

set_option linter.unusedTactic false
set_option linter.unreachableTactic false
set_option linter.unusedVariables false

namespace Sys2Proof.Machine

theorem foldl_room_orderly {α : Type} (f : RoomRun → α → RoomRun) (l : List α) (s : RoomRun)
    (hf : ∀ (s : RoomRun) a, s.s.orderly → (f s a).s.orderly) (h : s.s.orderly) : (l.foldl f s).s.orderly := by
  induction l generalizing s with
  | nil => exact h
  | cons a l ih => exact ih _ (hf s a h)

theorem ite_room_orderly {c : Prop} [Decidable c] {a b : RoomRun} (ha : c → a.s.orderly) (hb : ¬c → b.s.orderly) :
    (if c then a else b).s.orderly := by
  split
  · exact ha ‹_›
  · exact hb ‹_›

theorem State.restartWalk_orderly (s : State) (w : Walk) (hs : s.orderly) : (State.restartWalk s w).orderly := by
  unfold State.restartWalk
  repeat' first
    | with_reducible assumption
    | with_reducible apply State.readEntry_orderly
    | with_reducible apply State.endWalk_orderly
    | with_reducible apply ite_orderly
    | with_reducible apply ite_fst_orderly
    | (intro; intros)
    | split
    | dsimp only
    | (unfold State.orderly
       dsimp only
       with_reducible apply State.ordered)
    | refine pair_orderly (by assumption) ?_
    | assumption

theorem State.purge_orderly (s : State) (t : Option (BitVec 10)) (lo : Nat) (hi : Nat) (hs : s.orderly) : (State.purge s t lo hi).orderly := by
  unfold State.purge
  repeat' first
    | with_reducible assumption
    | with_reducible apply State.restartWalk_orderly
    | with_reducible apply foldl_orderly
    | with_reducible apply foldl_fst_orderly
    | with_reducible apply ite_orderly
    | with_reducible apply ite_fst_orderly
    | (intro; intros)
    | split
    | dsimp only
    | (unfold State.orderly
       dsimp only
       with_reducible apply State.ordered)
    | refine pair_orderly (by assumption) ?_
    | assumption

theorem State.meet_orderly (s : State) (x : Need) (hs : s.orderly) : (State.meet s x).orderly := by
  unfold State.meet
  repeat' first
    | with_reducible assumption
    | with_reducible apply State.startFill_orderly
    | with_reducible apply State.setDir_orderly
    | with_reducible apply State.snoop_orderly
    | with_reducible apply foldl_orderly
    | with_reducible apply foldl_fst_orderly
    | with_reducible apply ite_orderly
    | with_reducible apply ite_fst_orderly
    | (intro; intros)
    | split
    | dsimp only
    | (unfold State.orderly
       dsimp only
       with_reducible apply State.ordered)
    | refine pair_orderly (by assumption) ?_
    | assumption

theorem State.poke8_orderly (s : State) (a : Nat) (v : Nat) (hs : s.orderly) : (State.poke8 s a v).orderly := by
  unfold State.poke8
  repeat' first
    | with_reducible assumption
    | with_reducible apply State.forget_orderly
    | with_reducible apply State.placeLines_orderly
    | with_reducible apply State.expanded_orderly
    | with_reducible apply ite_orderly
    | with_reducible apply ite_fst_orderly
    | (intro; intros)
    | split
    | dsimp only
    | (unfold State.orderly
       dsimp only
       with_reducible apply State.ordered)
    | refine pair_orderly (by assumption) ?_
    | assumption

theorem State.dropPageSectors_orderly (s : State) (page : Nat) (hs : s.orderly) : (State.dropPageSectors s page).orderly := by
  unfold State.dropPageSectors
  repeat' first
    | with_reducible assumption
    | with_reducible apply ite_orderly
    | with_reducible apply ite_fst_orderly
    | (intro; intros)
    | split
    | dsimp only
    | (unfold State.orderly
       dsimp only
       refine Ordered.mk ?_ ?_ ?_ ?_ ?_ ?_ ?_ ?_ ?_ <;> repeat' first
        | with_reducible apply State.events_of
        | with_reducible apply State.entries_of
        | with_reducible apply State.unacked_of
        | with_reducible apply State.t0_of
        | with_reducible apply State.spad_of
        | with_reducible apply State.cmem_of
        | with_reducible apply State.staged_of
        | with_reducible apply State.firmware_of
        | with_reducible apply State.report_of
        | with_reducible exact Memory.wf_nil
        | with_reducible apply Memory.wf_write
        | with_reducible apply Memory.wf_put
        | with_reducible apply Memory.wf_filter
        | rw [List.length_map]
        | exact Nat.zero_le _)
    | refine pair_orderly (by assumption) ?_
    | assumption

theorem State.bareReleased_orderly (s : State) (page : Nat) (hs : s.orderly) : (State.bareReleased s page).orderly := by
  unfold State.bareReleased
  repeat' first
    | with_reducible assumption
    | with_reducible apply State.setPage_orderly
    | with_reducible apply State.releaseSlot_orderly
    | with_reducible apply ite_orderly
    | with_reducible apply ite_fst_orderly
    | (intro; intros)
    | split
    | dsimp only
    | (unfold State.orderly
       dsimp only
       with_reducible apply State.ordered)
    | refine pair_orderly (by assumption) ?_
    | assumption

theorem State.dropPage_orderly (s : State) (page : Nat) (t : BitVec 10) (tva : Nat) (leaves : List (Nat × Nat)) (hs : s.orderly) : (State.dropPage s page t tva leaves).orderly := by
  unfold State.dropPage
  repeat' first
    | with_reducible assumption
    | with_reducible apply State.abortMove_orderly
    | with_reducible apply State.purge_orderly
    | with_reducible apply State.poke8_orderly
    | with_reducible apply State.dropPageSectors_orderly
    | with_reducible apply State.bareReleased_orderly
    | with_reducible apply foldl_orderly
    | with_reducible apply foldl_fst_orderly
    | with_reducible apply ite_orderly
    | with_reducible apply ite_fst_orderly
    | (intro; intros)
    | split
    | dsimp only
    | (unfold State.orderly
       dsimp only
       with_reducible apply State.ordered)
    | refine pair_orderly (by assumption) ?_
    | assumption

theorem RoomRun.chunk_orderly (x : RoomRun) (rec : Nat) (tier : Nat) (demote : Bool) (h : Handle) (c : Nat) (hx : x.s.orderly) : (RoomRun.chunk x rec tier demote h c).s.orderly := by
  unfold RoomRun.chunk
  repeat' first
    | with_reducible assumption
    | with_reducible apply State.countAtn_orderly
    | with_reducible apply State.queueMove_orderly
    | with_reducible apply State.dropPage_orderly
    | with_reducible apply ite_orderly
    | with_reducible apply ite_fst_orderly
    | with_reducible apply foldl_room_orderly
    | with_reducible apply ite_room_orderly
    | (intro; intros)
    | split
    | dsimp only
    | (unfold State.orderly
       dsimp only
       with_reducible apply State.ordered)
    | refine pair_orderly (by assumption) ?_
    | assumption

theorem RoomRun.block_orderly (x : RoomRun) (rec : Nat) (tier : Nat) (need : Nat) (demote : Bool) (h : Handle) (b : Nat) (hx : x.s.orderly) : (RoomRun.block x rec tier need demote h b).s.orderly := by
  unfold RoomRun.block
  repeat' first
    | with_reducible assumption
    | with_reducible apply RoomRun.chunk_orderly
    | with_reducible apply foldl_orderly
    | with_reducible apply foldl_fst_orderly
    | with_reducible apply ite_orderly
    | with_reducible apply ite_fst_orderly
    | with_reducible apply foldl_room_orderly
    | with_reducible apply ite_room_orderly
    | (intro; intros)
    | split
    | dsimp only
    | (unfold State.orderly
       dsimp only
       with_reducible apply State.ordered)
    | refine pair_orderly (by assumption) ?_
    | assumption

theorem State.roomRun_orderly (s : State) (rec : Nat) (tier : Nat) (need : Nat) (demote : Bool) (hs : s.orderly) : (State.roomRun s rec tier need demote).s.orderly := by
  unfold State.roomRun
  repeat' first
    | with_reducible assumption
    | with_reducible apply RoomRun.block_orderly
    | with_reducible apply foldl_orderly
    | with_reducible apply foldl_fst_orderly
    | with_reducible apply ite_orderly
    | with_reducible apply ite_fst_orderly
    | with_reducible apply foldl_room_orderly
    | with_reducible apply ite_room_orderly
    | (intro; intros)
    | split
    | dsimp only
    | (unfold State.orderly
       dsimp only
       with_reducible apply State.ordered)
    | refine pair_orderly (by assumption) ?_
    | assumption

theorem State.roomLog_orderly (s : State) (rec : Nat) (tier : Nat) (pages : Nat) (hs : s.orderly) : (State.roomLog s rec tier pages).orderly := by
  unfold State.roomLog
  repeat' first
    | with_reducible assumption
    | with_reducible apply State.logE_orderly
    | with_reducible apply State.logWith_orderly
    | with_reducible apply ite_orderly
    | with_reducible apply ite_fst_orderly
    | (intro; intros)
    | split
    | dsimp only
    | (unfold State.orderly
       dsimp only
       with_reducible apply State.ordered)
    | refine pair_orderly (by assumption) ?_
    | assumption

theorem State.dropAborted_orderly (s : State) (hs : s.orderly) : (State.dropAborted s).orderly := by
  unfold State.dropAborted
  repeat' first
    | with_reducible assumption
    | with_reducible apply State.countAtn_orderly
    | with_reducible apply State.meet_orderly
    | with_reducible apply State.dropPage_orderly
    | with_reducible apply ite_orderly
    | with_reducible apply ite_fst_orderly
    | (intro; intros)
    | split
    | dsimp only
    | (unfold State.orderly
       dsimp only
       with_reducible apply State.ordered)
    | refine pair_orderly (by assumption) ?_
    | assumption

theorem State.makeRoomStep_orderly (s : State) (hs : s.orderly) : (State.makeRoomStep s).1.orderly := by
  unfold State.makeRoomStep
  repeat' first
    | with_reducible assumption
    | with_reducible apply State.finish_orderly
    | with_reducible apply State.meet_orderly
    | with_reducible apply State.roomRun_orderly
    | with_reducible apply State.roomLog_orderly
    | with_reducible apply State.dropAborted_orderly
    | with_reducible apply foldl_orderly
    | with_reducible apply foldl_fst_orderly
    | with_reducible apply ite_orderly
    | with_reducible apply ite_fst_orderly
    | (intro; intros)
    | split
    | dsimp only
    | (unfold State.orderly
       dsimp only
       with_reducible apply State.ordered)
    | refine pair_orderly (by assumption) ?_
    | assumption

theorem State.leafCas_orderly (s : State) (r : Req) (leaf : Nat) (hs : s.orderly) : (State.leafCas s r leaf).orderly := by
  unfold State.leafCas
  repeat' first
    | with_reducible assumption
    | with_reducible apply State.putReq_orderly
    | with_reducible apply State.addReq_orderly
    | with_reducible apply State.serve_orderly
    | with_reducible apply State.route_orderly
    | with_reducible apply ite_orderly
    | with_reducible apply ite_fst_orderly
    | (intro; intros)
    | split
    | dsimp only
    | (unfold State.orderly
       dsimp only
       with_reducible apply State.ordered)
    | refine pair_orderly (by assumption) ?_
    | assumption

theorem State.restoreLeaf_orderly (s : State) (r : Req) (leaf : Nat) (hs : s.orderly) : (State.restoreLeaf s r leaf).orderly := by
  unfold State.restoreLeaf
  repeat' first
    | with_reducible assumption
    | with_reducible apply State.countTrn_orderly
    | with_reducible apply State.putReq_orderly
    | with_reducible apply State.finish_orderly
    | with_reducible apply State.route_orderly
    | with_reducible apply State.leafCas_orderly
    | with_reducible apply ite_orderly
    | with_reducible apply ite_fst_orderly
    | (intro; intros)
    | split
    | dsimp only
    | (unfold State.orderly
       dsimp only
       with_reducible apply State.ordered)
    | refine pair_orderly (by assumption) ?_
    | assumption

theorem State.askRoom_orderly (s : State) (rec : Nat) (hs : s.orderly) : (State.askRoom s rec).orderly := by
  unfold State.askRoom
  repeat' first
    | with_reducible assumption
    | with_reducible apply ite_orderly
    | with_reducible apply ite_fst_orderly
    | (intro; intros)
    | split
    | dsimp only
    | (unfold State.orderly
       dsimp only
       with_reducible apply State.ordered)
    | refine pair_orderly (by assumption) ?_
    | assumption

theorem execKvRestore_orderly (n : Nat) (s : State) (hs : s.orderly) : inOrder (execKvRestore n s) := by
  unfold execKvRestore
  repeat' first
    | with_reducible assumption
    | with_reducible apply State.finish_orderly
    | with_reducible apply State.serve_orderly
    | with_reducible apply State.wakeStaged_orderly
    | with_reducible apply State.giveSlot_getD_orderly
    | refine State.giveSlot_orderly _ _ _ ?_ _ (by assumption)
    | with_reducible apply State.restoreLeaf_orderly
    | with_reducible apply State.askRoom_orderly
    | with_reducible apply ite_orderly
    | with_reducible apply ite_fst_orderly
    | with_reducible apply next_orderly
    | (intro; intros)
    | split
    | dsimp only
    | (unfold State.orderly
       dsimp only
       with_reducible apply State.ordered)
    | refine pair_orderly (by assumption) ?_
    | assumption

theorem execRestoreRoomTimeout_orderly (n : Nat) (s : State) (hs : s.orderly) : inOrder (execRestoreRoomTimeout n s) := by
  unfold execRestoreRoomTimeout
  repeat' first
    | with_reducible assumption
    | with_reducible apply State.finish_orderly
    | with_reducible apply State.wakeStaged_orderly
    | with_reducible apply ite_orderly
    | with_reducible apply ite_fst_orderly
    | with_reducible apply next_orderly
    | (intro; intros)
    | split
    | dsimp only
    | (unfold State.orderly
       dsimp only
       with_reducible apply State.ordered)
    | refine pair_orderly (by assumption) ?_
    | assumption

end Sys2Proof.Machine
end

