-- ==== Sys2Proof/Laws/KeepDomain.lean ====
section
/-! SUPPORT. Every operation of Domain keeps the queues and memories in order. -/

set_option linter.unusedTactic false
set_option linter.unreachableTactic false
set_option linter.unusedVariables false

namespace Sys2Proof.Machine

theorem State.rouse_orderly (s : State) (n : Nat) (hs : s.orderly) : (State.rouse s n).orderly := by
  unfold State.rouse
  repeat' first
    | with_reducible assumption
    | with_reducible apply State.serve_orderly
    | with_reducible apply ite_orderly
    | with_reducible apply ite_fst_orderly
    | (intro; intros)
    | split
    | dsimp only
    | (unfold State.orderly
       dsimp only
       with_reducible apply State.ordered)
    | refine pair_orderly (by assumption) ?_
    | assumption

theorem State.settled_orderly (s : State) (x : Snoop) (hs : s.orderly) : (State.settled s x).orderly := by
  unfold State.settled
  repeat' first
    | with_reducible assumption
    | with_reducible apply State.wakeLine_orderly
    | with_reducible apply State.rouse_orderly
    | with_reducible apply ite_orderly
    | with_reducible apply ite_fst_orderly
    | (intro; intros)
    | split
    | dsimp only
    | (unfold State.orderly
       dsimp only
       with_reducible apply State.ordered)
    | refine pair_orderly (by assumption) ?_
    | assumption

theorem State.dropSnoops_orderly (s : State) (p : Snoop → Bool) (hs : s.orderly) : (State.dropSnoops s p).orderly := by
  unfold State.dropSnoops
  repeat' first
    | with_reducible assumption
    | with_reducible apply State.settled_orderly
    | with_reducible apply foldl_orderly
    | with_reducible apply foldl_fst_orderly
    | with_reducible apply ite_orderly
    | with_reducible apply ite_fst_orderly
    | (intro; intros)
    | split
    | dsimp only
    | (unfold State.orderly
       dsimp only
       with_reducible apply State.ordered)
    | refine pair_orderly (by assumption) ?_
    | assumption

theorem State.domReturns_orderly (s : State) (d : Nat) (hs : s.orderly) : (State.domReturns s d).orderly := by
  unfold State.domReturns
  repeat' first
    | with_reducible assumption
    | with_reducible apply State.wake_orderly
    | with_reducible apply ite_orderly
    | with_reducible apply ite_fst_orderly
    | (intro; intros)
    | split
    | dsimp only
    | (unfold State.orderly
       dsimp only
       with_reducible apply State.ordered)
    | refine pair_orderly (by assumption) ?_
    | assumption

theorem State.domainDown_orderly (s : State) (d : Nat) (cause : Nat) (agent : Option Nat) (hs : s.orderly) : (State.domainDown s d cause agent).orderly := by
  unfold State.domainDown
  repeat' first
    | with_reducible assumption
    | with_reducible apply State.onDom_orderly
    | with_reducible apply State.killAgent_orderly
    | with_reducible apply State.domNotes_orderly
    | with_reducible apply State.domEvent_orderly
    | with_reducible apply State.finish_orderly
    | with_reducible apply State.wakeStaged_orderly
    | with_reducible apply State.domReturns_orderly
    | with_reducible apply foldl_orderly
    | with_reducible apply foldl_fst_orderly
    | with_reducible apply ite_orderly
    | with_reducible apply ite_fst_orderly
    | (intro; intros)
    | split
    | dsimp only
    | (unfold State.orderly
       dsimp only
       with_reducible apply State.ordered)
    | refine pair_orderly (by assumption) ?_
    | assumption

theorem State.domTrigger_orderly (s : State) (d : Nat) (cause : Nat) (agent : Option Nat) (hs : s.orderly) : (State.domTrigger s d cause agent).orderly := by
  unfold State.domTrigger
  repeat' first
    | with_reducible assumption
    | with_reducible apply State.logE_orderly
    | with_reducible apply State.onDom_orderly
    | with_reducible apply State.killAgent_orderly
    | with_reducible apply State.domEvent_orderly
    | with_reducible apply State.wakeStaged_orderly
    | with_reducible apply State.dropSnoops_orderly
    | with_reducible apply State.domainDown_orderly
    | with_reducible apply ite_orderly
    | with_reducible apply ite_fst_orderly
    | (intro; intros)
    | split
    | dsimp only
    | (unfold State.orderly
       dsimp only
       with_reducible apply State.ordered)
    | refine pair_orderly (by assumption) ?_
    | assumption

theorem State.unitDomains_orderly (s : State) (u : BitVec 16) (hs : s.orderly) : (State.unitDomains s u).orderly := by
  unfold State.unitDomains
  repeat' first
    | with_reducible assumption
    | with_reducible apply State.domTrigger_orderly
    | with_reducible apply foldl_orderly
    | with_reducible apply foldl_fst_orderly
    | with_reducible apply ite_orderly
    | with_reducible apply ite_fst_orderly
    | (intro; intros)
    | split
    | dsimp only
    | (unfold State.orderly
       dsimp only
       with_reducible apply State.ordered)
    | refine pair_orderly (by assumption) ?_
    | assumption

theorem State.domainUp_orderly (s : State) (d : Nat) (hs : s.orderly) : (State.domainUp s d).orderly := by
  unfold State.domainUp
  repeat' first
    | with_reducible assumption
    | with_reducible apply State.onDom_orderly
    | with_reducible apply State.domNotes_orderly
    | with_reducible apply State.domEvent_orderly
    | with_reducible apply ite_orderly
    | with_reducible apply ite_fst_orderly
    | (intro; intros)
    | split
    | dsimp only
    | (unfold State.orderly
       dsimp only
       with_reducible apply State.ordered)
    | refine pair_orderly (by assumption) ?_
    | assumption

theorem execSnoopTimerExpiry_orderly (line : BitVec 50) (agent : BitVec 8) (s : State) (hs : s.orderly) : inOrder (execSnoopTimerExpiry line agent s) := by
  unfold execSnoopTimerExpiry
  repeat' first
    | with_reducible assumption
    | with_reducible apply State.domTrigger_orderly
    | with_reducible apply ite_orderly
    | with_reducible apply ite_fst_orderly
    | with_reducible apply next_orderly
    | (intro; intros)
    | split
    | dsimp only
    | (unfold State.orderly
       dsimp only
       with_reducible apply State.ordered)
    | refine pair_orderly (by assumption) ?_
    | assumption

theorem execCinchExpiry_orderly (line : BitVec 50) (agent : BitVec 8) (s : State) (hs : s.orderly) : inOrder (execCinchExpiry line agent s) := by
  unfold execCinchExpiry
  repeat' first
    | with_reducible assumption
    | with_reducible apply State.fireSnoop_orderly
    | with_reducible apply State.wakeStaged_orderly
    | with_reducible apply ite_orderly
    | with_reducible apply ite_fst_orderly
    | with_reducible apply next_orderly
    | (intro; intros)
    | split
    | dsimp only
    | (unfold State.orderly
       dsimp only
       with_reducible apply State.ordered)
    | refine pair_orderly (by assumption) ?_
    | assumption

theorem execFlushWindowEnd_orderly (dom : BitVec 6) (s : State) (hs : s.orderly) : inOrder (execFlushWindowEnd dom s) := by
  unfold execFlushWindowEnd
  repeat' first
    | with_reducible assumption
    | with_reducible apply State.onDom_orderly
    | with_reducible apply State.countCoh_orderly
    | with_reducible apply State.poisonLine_orderly
    | with_reducible apply State.domNotes_orderly
    | with_reducible apply State.domEvent_orderly
    | with_reducible apply State.wakeStaged_orderly
    | with_reducible apply foldl_orderly
    | with_reducible apply foldl_fst_orderly
    | with_reducible apply ite_orderly
    | with_reducible apply ite_fst_orderly
    | with_reducible apply next_orderly
    | (intro; intros)
    | split
    | dsimp only
    | (unfold State.orderly
       dsimp only
       with_reducible apply State.ordered)
    | refine pair_orderly (by assumption) ?_
    | assumption

theorem State.cohCfg_orderly (s : State) (d : Nat) (v : BitVec 64) (hs : s.orderly) : (State.cohCfg s d v).1.orderly := by
  unfold State.cohCfg
  repeat' first
    | with_reducible assumption
    | with_reducible apply State.onDom_orderly
    | with_reducible apply State.domEvent_orderly
    | with_reducible apply State.domainUp_orderly
    | with_reducible apply ite_orderly
    | with_reducible apply ite_fst_orderly
    | (intro; intros)
    | split
    | dsimp only
    | (unfold State.orderly
       dsimp only
       with_reducible apply State.ordered)
    | refine pair_orderly (by assumption) ?_
    | assumption

theorem State.cohCmd_orderly (s : State) (d : Nat) (v : BitVec 64) (hs : s.orderly) : (State.cohCmd s d v).1.orderly := by
  unfold State.cohCmd
  repeat' first
    | with_reducible assumption
    | with_reducible apply State.domTrigger_orderly
    | with_reducible apply State.domainUp_orderly
    | with_reducible apply ite_orderly
    | with_reducible apply ite_fst_orderly
    | (intro; intros)
    | split
    | dsimp only
    | (unfold State.orderly
       dsimp only
       with_reducible apply State.ordered)
    | refine pair_orderly (by assumption) ?_
    | assumption

theorem State.cohMembers_orderly (s : State) (d : Nat) (j : Nat) (v : BitVec 64) (hs : s.orderly) : (State.cohMembers s d j v).1.orderly := by
  unfold State.cohMembers
  repeat' first
    | with_reducible assumption
    | with_reducible apply State.onDom_orderly
    | with_reducible apply State.domNote_orderly
    | with_reducible apply foldl_orderly
    | with_reducible apply foldl_fst_orderly
    | with_reducible apply ite_orderly
    | with_reducible apply ite_fst_orderly
    | (intro; intros)
    | split
    | dsimp only
    | (unfold State.orderly
       dsimp only
       with_reducible apply State.ordered)
    | refine pair_orderly (by assumption) ?_
    | assumption

theorem execCohDomEnable_orderly (tag : BitVec 16) (dom : BitVec 6) (value : BitVec 64) (s : State) (hs : s.orderly) : inOrder (execCohDomEnable tag dom value s) := by
  unfold execCohDomEnable
  repeat' first
    | with_reducible assumption
    | with_reducible apply State.adkWr_orderly
    | with_reducible apply State.cohCfg_orderly
    | with_reducible apply ite_orderly
    | with_reducible apply ite_fst_orderly
    | with_reducible apply next_orderly
    | (intro; intros)
    | split
    | dsimp only
    | (unfold State.orderly
       dsimp only
       with_reducible apply State.ordered)
    | refine pair_orderly (by assumption) ?_
    | assumption

theorem execCohDomDisable_orderly (tag : BitVec 16) (dom : BitVec 6) (value : BitVec 64) (s : State) (hs : s.orderly) : inOrder (execCohDomDisable tag dom value s) := by
  unfold execCohDomDisable
  repeat' first
    | with_reducible assumption
    | with_reducible apply State.adkWr_orderly
    | with_reducible apply State.cohCfg_orderly
    | with_reducible apply ite_orderly
    | with_reducible apply ite_fst_orderly
    | with_reducible apply next_orderly
    | (intro; intros)
    | split
    | dsimp only
    | (unfold State.orderly
       dsimp only
       with_reducible apply State.ordered)
    | refine pair_orderly (by assumption) ?_
    | assumption

theorem execCohDomDown_orderly (tag : BitVec 16) (dom : BitVec 6) (s : State) (hs : s.orderly) : inOrder (execCohDomDown tag dom s) := by
  unfold execCohDomDown
  repeat' first
    | with_reducible assumption
    | with_reducible apply State.adkWr_orderly
    | with_reducible apply State.cohCmd_orderly
    | with_reducible apply ite_orderly
    | with_reducible apply ite_fst_orderly
    | with_reducible apply next_orderly
    | (intro; intros)
    | split
    | dsimp only
    | (unfold State.orderly
       dsimp only
       with_reducible apply State.ordered)
    | refine pair_orderly (by assumption) ?_
    | assumption

theorem execCohDomReform_orderly (tag : BitVec 16) (dom : BitVec 6) (s : State) (hs : s.orderly) : inOrder (execCohDomReform tag dom s) := by
  unfold execCohDomReform
  repeat' first
    | with_reducible assumption
    | with_reducible apply State.adkWr_orderly
    | with_reducible apply State.cohCmd_orderly
    | with_reducible apply ite_orderly
    | with_reducible apply ite_fst_orderly
    | with_reducible apply next_orderly
    | (intro; intros)
    | split
    | dsimp only
    | (unfold State.orderly
       dsimp only
       with_reducible apply State.ordered)
    | refine pair_orderly (by assumption) ?_
    | assumption

theorem execCohMemberWrite_orderly (tag : BitVec 16) (dom : BitVec 6) (j : BitVec 6) (value : BitVec 64) (s : State) (hs : s.orderly) : inOrder (execCohMemberWrite tag dom j value s) := by
  unfold execCohMemberWrite
  repeat' first
    | with_reducible assumption
    | with_reducible apply State.adkWr_orderly
    | with_reducible apply State.cohMembers_orderly
    | with_reducible apply ite_orderly
    | with_reducible apply ite_fst_orderly
    | with_reducible apply next_orderly
    | (intro; intros)
    | split
    | dsimp only
    | (unfold State.orderly
       dsimp only
       with_reducible apply State.ordered)
    | refine pair_orderly (by assumption) ?_
    | assumption

end Sys2Proof.Machine
end

