-- ==== Sys2Proof/Laws/KeepCollect.lean ====
section
/-! SUPPORT. Every operation of Collect keeps the queues and memories in order. -/

set_option linter.unusedTactic false
set_option linter.unreachableTactic false
set_option linter.unusedVariables false

namespace Sys2Proof.Machine

theorem State.sendGrant_orderly (s : State) (id : Nat) (p : Contributor) (e : Nat) (hs : s.orderly) : (State.sendGrant s id p e).orderly := by
  unfold State.sendGrant
  repeat' first
    | with_reducible assumption
    | with_reducible apply State.onColl_orderly
    | with_reducible apply State.localWrite_orderly
    | with_reducible apply State.toPart_orderly
    | with_reducible apply ite_orderly
    | with_reducible apply ite_fst_orderly
    | (intro; intros)
    | split
    | dsimp only
    | (unfold State.orderly
       dsimp only
       with_reducible apply State.ordered)
    | refine pair_orderly (by assumption) ?_
    | assumption

theorem State.advanceGrants_orderly (s : State) (id : Nat) (hs : s.orderly) : (State.advanceGrants s id).orderly := by
  unfold State.advanceGrants
  repeat' first
    | with_reducible assumption
    | with_reducible apply State.sendGrant_orderly
    | with_reducible apply foldl_orderly
    | with_reducible apply foldl_fst_orderly
    | with_reducible apply ite_orderly
    | with_reducible apply ite_fst_orderly
    | (intro; intros)
    | split
    | dsimp only
    | (unfold State.orderly
       dsimp only
       with_reducible apply State.ordered)
    | refine pair_orderly (by assumption) ?_
    | assumption

theorem State.resultTo_orderly (s : State) (id : Nat) (p : Contributor) (dst : Option (BitVec 16)) (off : Nat) (pl : List Byte) (who : Nat) (k : Nat) (hs : s.orderly) : (State.resultTo s id p dst off pl who k).orderly := by
  unfold State.resultTo
  repeat' first
    | with_reducible assumption
    | with_reducible apply State.localWrite_orderly
    | with_reducible apply State.toPart_orderly
    | with_reducible apply ite_orderly
    | with_reducible apply ite_fst_orderly
    | (intro; intros)
    | split
    | dsimp only
    | (unfold State.orderly
       dsimp only
       with_reducible apply State.ordered)
    | refine pair_orderly (by assumption) ?_
    | assumption

theorem State.sendResult_orderly (s : State) (id : Nat) (ranks : List Nat) (multi : Bool) (off : Nat) (bs : List Byte) (who : Nat) (k : Nat) (hs : s.orderly) : (State.sendResult s id ranks multi off bs who k).orderly := by
  unfold State.sendResult
  repeat' first
    | with_reducible assumption
    | with_reducible apply State.resultTo_orderly
    | with_reducible apply foldl_orderly
    | with_reducible apply foldl_fst_orderly
    | with_reducible apply ite_orderly
    | with_reducible apply ite_fst_orderly
    | (intro; intros)
    | split
    | dsimp only
    | (unfold State.orderly
       dsimp only
       with_reducible apply State.ordered)
    | refine pair_orderly (by assumption) ?_
    | assumption

theorem State.scatterTo_orderly (s : State) (id : Nat) (r : Nat) (k : Nat) (hs : s.orderly) : (State.scatterTo s id r k).orderly := by
  unfold State.scatterTo
  repeat' first
    | with_reducible assumption
    | with_reducible apply State.sendResult_orderly
    | with_reducible apply ite_orderly
    | with_reducible apply ite_fst_orderly
    | (intro; intros)
    | split
    | dsimp only
    | (unfold State.orderly
       dsimp only
       with_reducible apply State.ordered)
    | refine pair_orderly (by assumption) ?_
    | assumption

theorem State.memberChunk_orderly (s : State) (id : Nat) (r : Nat) (k : Nat) (hs : s.orderly) : (State.memberChunk s id r k).orderly := by
  unfold State.memberChunk
  repeat' first
    | with_reducible assumption
    | with_reducible apply State.sendResult_orderly
    | with_reducible apply foldl_orderly
    | with_reducible apply foldl_fst_orderly
    | with_reducible apply ite_orderly
    | with_reducible apply ite_fst_orderly
    | (intro; intros)
    | split
    | dsimp only
    | (unfold State.orderly
       dsimp only
       with_reducible apply State.ordered)
    | refine pair_orderly (by assumption) ?_
    | assumption

theorem State.absorb_orderly (s : State) (id : Nat) (who : Nat) (off : Nat) (bs : List Byte) (hs : s.orderly) : (State.absorb s id who off bs).orderly := by
  unfold State.absorb
  repeat' first
    | with_reducible assumption
    | with_reducible apply State.setColl_orderly
    | with_reducible apply State.onColl_orderly
    | with_reducible apply foldl_orderly
    | with_reducible apply foldl_fst_orderly
    | with_reducible apply ite_orderly
    | with_reducible apply ite_fst_orderly
    | (intro; intros)
    | split
    | dsimp only
    | (unfold State.orderly
       dsimp only
       with_reducible apply State.ordered)
    | refine pair_orderly (by assumption) ?_
    | assumption

end Sys2Proof.Machine
end

