-- ==== Sys2Proof/Laws/KeepCollectives.lean ====
section
/-! SUPPORT. Every operation of Collectives keeps the queues and memories in order. -/

set_option linter.unusedTactic false
set_option linter.unreachableTactic false
set_option linter.unusedVariables false

namespace Sys2Proof.Machine

theorem State.routeRows_orderly (s : State) (id : Nat) (hs : s.orderly) : (State.routeRows s id).orderly := by
  unfold State.routeRows
  repeat' first
    | with_reducible assumption
    | with_reducible apply State.countClv_orderly
    | with_reducible apply State.onColl_orderly
    | with_reducible apply State.collTrigger_orderly
    | with_reducible apply State.sendResult_orderly
    | with_reducible apply foldl_orderly
    | with_reducible apply foldl_fst_orderly
    | with_reducible apply ite_orderly
    | with_reducible apply ite_fst_orderly
    | (intro; intros)
    | split
    | dsimp only
    | (unfold State.orderly
       dsimp only
       with_reducible apply State.ordered)
    | refine pair_orderly (by assumption) ?_
    | assumption

theorem State.combineReady_orderly (s : State) (id : Nat) (hs : s.orderly) : (State.combineReady s id).orderly := by
  unfold State.combineReady
  repeat' first
    | with_reducible assumption
    | with_reducible apply State.onColl_orderly
    | with_reducible apply State.sendResult_orderly
    | with_reducible apply foldl_orderly
    | with_reducible apply foldl_fst_orderly
    | with_reducible apply ite_orderly
    | with_reducible apply ite_fst_orderly
    | (intro; intros)
    | split
    | dsimp only
    | (unfold State.orderly
       dsimp only
       with_reducible apply State.ordered)
    | refine pair_orderly (by assumption) ?_
    | assumption

theorem State.filterChunk_orderly (s : State) (id : Nat) (k : Nat) (hs : s.orderly) : (State.filterChunk s id k).orderly := by
  unfold State.filterChunk
  repeat' first
    | with_reducible assumption
    | with_reducible apply State.onColl_orderly
    | with_reducible apply State.sendResult_orderly
    | with_reducible apply ite_orderly
    | with_reducible apply ite_fst_orderly
    | (intro; intros)
    | split
    | dsimp only
    | (unfold State.orderly
       dsimp only
       with_reducible apply State.ordered)
    | refine pair_orderly (by assumption) ?_
    | assumption

theorem State.filterReady_orderly (s : State) (id : Nat) (hs : s.orderly) : (State.filterReady s id).orderly := by
  unfold State.filterReady
  repeat' first
    | with_reducible assumption
    | with_reducible apply State.filterChunk_orderly
    | with_reducible apply foldl_orderly
    | with_reducible apply foldl_fst_orderly
    | with_reducible apply ite_orderly
    | with_reducible apply ite_fst_orderly
    | (intro; intros)
    | split
    | dsimp only
    | (unfold State.orderly
       dsimp only
       with_reducible apply State.ordered)
    | refine pair_orderly (by assumption) ?_
    | assumption

theorem State.topkReady_orderly (s : State) (id : Nat) (hs : s.orderly) : (State.topkReady s id).orderly := by
  unfold State.topkReady
  repeat' first
    | with_reducible assumption
    | with_reducible apply State.onColl_orderly
    | with_reducible apply State.sendResult_orderly
    | with_reducible apply ite_orderly
    | with_reducible apply ite_fst_orderly
    | (intro; intros)
    | split
    | dsimp only
    | (unfold State.orderly
       dsimp only
       with_reducible apply State.ordered)
    | refine pair_orderly (by assumption) ?_
    | assumption

theorem State.closeChunk_orderly (s : State) (id : Nat) (who : Nat) (k : Nat) (hs : s.orderly) : (State.closeChunk s id who k).orderly := by
  unfold State.closeChunk
  repeat' first
    | with_reducible assumption
    | with_reducible apply State.onColl_orderly
    | with_reducible apply State.sendResult_orderly
    | with_reducible apply State.scatterTo_orderly
    | with_reducible apply foldl_orderly
    | with_reducible apply foldl_fst_orderly
    | with_reducible apply ite_orderly
    | with_reducible apply ite_fst_orderly
    | (intro; intros)
    | split
    | dsimp only
    | (unfold State.orderly
       dsimp only
       with_reducible apply State.ordered)
    | refine pair_orderly (by assumption) ?_
    | assumption

theorem State.sendClosed_orderly (s : State) (id : Nat) (hs : s.orderly) : (State.sendClosed s id).orderly := by
  unfold State.sendClosed
  repeat' first
    | with_reducible assumption
    | with_reducible apply State.onColl_orderly
    | with_reducible apply State.memberChunk_orderly
    | with_reducible apply foldl_orderly
    | with_reducible apply foldl_fst_orderly
    | with_reducible apply ite_orderly
    | with_reducible apply ite_fst_orderly
    | (intro; intros)
    | split
    | dsimp only
    | (unfold State.orderly
       dsimp only
       with_reducible apply State.ordered)
    | refine pair_orderly (by assumption) ?_
    | assumption

theorem State.poolWrites_orderly (s : State) (id : Nat) (hs : s.orderly) : (State.poolWrites s id).orderly := by
  unfold State.poolWrites
  repeat' first
    | with_reducible assumption
    | with_reducible apply State.onColl_orderly
    | with_reducible apply State.poolAnswer_orderly
    | with_reducible apply State.accept_orderly
    | with_reducible apply foldl_orderly
    | with_reducible apply foldl_fst_orderly
    | with_reducible apply ite_orderly
    | with_reducible apply ite_fst_orderly
    | (intro; intros)
    | split
    | dsimp only
    | (unfold State.orderly
       dsimp only
       with_reducible apply State.ordered)
    | refine pair_orderly (by assumption) ?_
    | assumption

theorem State.rootProgress_orderly (s : State) (id : Nat) (hs : s.orderly) : (State.rootProgress s id).orderly := by
  unfold State.rootProgress
  repeat' first
    | with_reducible assumption
    | with_reducible apply State.onColl_orderly
    | with_reducible apply State.advanceGrants_orderly
    | with_reducible apply State.routeRows_orderly
    | with_reducible apply State.combineReady_orderly
    | with_reducible apply State.filterReady_orderly
    | with_reducible apply State.topkReady_orderly
    | with_reducible apply State.closeChunk_orderly
    | with_reducible apply State.sendClosed_orderly
    | with_reducible apply State.poolWrites_orderly
    | with_reducible apply foldl_orderly
    | with_reducible apply foldl_fst_orderly
    | with_reducible apply ite_orderly
    | with_reducible apply ite_fst_orderly
    | (intro; intros)
    | split
    | dsimp only
    | (unfold State.orderly
       dsimp only
       with_reducible apply State.ordered)
    | refine pair_orderly (by assumption) ?_
    | assumption

theorem State.sendUp_orderly (s : State) (id : Nat) (off : Nat) (bs : List Byte) (hs : s.orderly) : (State.sendUp s id off bs).orderly := by
  unfold State.sendUp
  repeat' first
    | with_reducible assumption
    | with_reducible apply State.sendFrom_orderly
    | with_reducible apply ite_orderly
    | with_reducible apply ite_fst_orderly
    | (intro; intros)
    | split
    | dsimp only
    | (unfold State.orderly
       dsimp only
       with_reducible apply State.ordered)
    | refine pair_orderly (by assumption) ?_
    | assumption

theorem State.partialsUp_orderly (s : State) (id : Nat) (hs : s.orderly) : (State.partialsUp s id).orderly := by
  unfold State.partialsUp
  repeat' first
    | with_reducible assumption
    | with_reducible apply State.onColl_orderly
    | with_reducible apply State.sendUp_orderly
    | with_reducible apply foldl_orderly
    | with_reducible apply foldl_fst_orderly
    | with_reducible apply ite_orderly
    | with_reducible apply ite_fst_orderly
    | (intro; intros)
    | split
    | dsimp only
    | (unfold State.orderly
       dsimp only
       with_reducible apply State.ordered)
    | refine pair_orderly (by assumption) ?_
    | assumption

theorem State.forwardUp_orderly (s : State) (id n : Nat) (hs : s.orderly) : (State.forwardUp s id n).orderly := by
  induction n generalizing s with
  | zero => exact hs
  | succ n ih =>
    unfold State.forwardUp
    repeat' first
      | with_reducible assumption
      | with_reducible apply ih
      | with_reducible apply State.onColl_orderly
      | with_reducible apply State.sendUp_orderly
      | with_reducible apply ite_orderly
      | (intro; intros)
      | split
      | dsimp only

theorem State.childProgress_orderly (s : State) (id : Nat) (hs : s.orderly) : (State.childProgress s id).orderly := by
  unfold State.childProgress
  repeat' first
    | with_reducible assumption
    | with_reducible apply State.onColl_orderly
    | with_reducible apply State.advanceGrants_orderly
    | with_reducible apply State.partialsUp_orderly
    | with_reducible apply State.forwardUp_orderly
    | with_reducible apply ite_orderly
    | with_reducible apply ite_fst_orderly
    | (intro; intros)
    | split
    | dsimp only
    | (unfold State.orderly
       dsimp only
       with_reducible apply State.ordered)
    | refine pair_orderly (by assumption) ?_
    | assumption

theorem State.collProgress_orderly (s : State) (id : Nat) (hs : s.orderly) : (State.collProgress s id).orderly := by
  unfold State.collProgress
  repeat' first
    | with_reducible assumption
    | with_reducible apply State.rootProgress_orderly
    | with_reducible apply State.childProgress_orderly
    | with_reducible apply ite_orderly
    | with_reducible apply ite_fst_orderly
    | (intro; intros)
    | split
    | dsimp only
    | (unfold State.orderly
       dsimp only
       with_reducible apply State.ordered)
    | refine pair_orderly (by assumption) ?_
    | assumption

theorem State.collJoin_orderly (s : State) (n : Nat) (id : Nat) (who : Nat) (o : Origin) (f : Frame) (hs : s.orderly) : (State.collJoin s n id who o f).orderly := by
  unfold State.collJoin
  repeat' first
    | with_reducible assumption
    | with_reducible apply State.onColl_orderly
    | with_reducible apply State.collTrigger_orderly
    | with_reducible apply State.sendGrant_orderly
    | with_reducible apply State.collProgress_orderly
    | with_reducible apply ite_orderly
    | with_reducible apply ite_fst_orderly
    | (intro; intros)
    | split
    | dsimp only
    | (unfold State.orderly
       dsimp only
       with_reducible apply State.ordered)
    | refine pair_orderly (by assumption) ?_
    | assumption

theorem State.collStart_orderly (s : State) (n : Nat) (id : Nat) (who : Nat) (o : Origin) (f : Frame) (hs : s.orderly) : (State.collStart s n id who o f).orderly := by
  unfold State.collStart
  repeat' first
    | with_reducible assumption
    | with_reducible apply State.onLink_orderly
    | with_reducible apply State.serving_orderly
    | with_reducible apply State.onColl_orderly
    | with_reducible apply State.sendFrom_orderly
    | with_reducible apply State.collTrigger_orderly
    | with_reducible apply State.collJoin_orderly
    | with_reducible apply ite_orderly
    | with_reducible apply ite_fst_orderly
    | (intro; intros)
    | split
    | dsimp only
    | (unfold State.orderly
       dsimp only
       with_reducible apply State.ordered)
    | refine pair_orderly (by assumption) ?_
    | assumption

theorem State.collOpen_orderly (s : State) (n : Nat) (o : Origin) (f : Frame) (hs : s.orderly) : (State.collOpen s n o f).orderly := by
  unfold State.collOpen
  repeat' first
    | with_reducible assumption
    | with_reducible apply State.setColl_orderly
    | with_reducible apply State.toIssuer_orderly
    | with_reducible apply State.collTrigger_orderly
    | with_reducible apply State.collJoin_orderly
    | with_reducible apply State.collStart_orderly
    | with_reducible apply ite_orderly
    | with_reducible apply ite_fst_orderly
    | (intro; intros)
    | split
    | dsimp only
    | (unfold State.orderly
       dsimp only
       with_reducible apply State.ordered)
    | refine pair_orderly (by assumption) ?_
    | assumption

theorem State.collContrib_orderly (s : State) (o : Origin) (f : Frame) (hs : s.orderly) : (State.collContrib s o f).orderly := by
  unfold State.collContrib
  repeat' first
    | with_reducible assumption
    | with_reducible apply State.countClv_orderly
    | with_reducible apply State.collTrigger_orderly
    | with_reducible apply State.absorb_orderly
    | with_reducible apply State.collProgress_orderly
    | with_reducible apply ite_orderly
    | with_reducible apply ite_fst_orderly
    | (intro; intros)
    | split
    | dsimp only
    | (unfold State.orderly
       dsimp only
       with_reducible apply State.ordered)
    | refine pair_orderly (by assumption) ?_
    | assumption

theorem State.keepLink_orderly (s : State) (id : Nat) (hs : s.orderly) : (State.keepLink s id).orderly := by
  unfold State.keepLink
  repeat' first
    | with_reducible assumption
    | with_reducible apply State.onColl_orderly
    | with_reducible apply ite_orderly
    | with_reducible apply ite_fst_orderly
    | (intro; intros)
    | split
    | dsimp only
    | (unfold State.orderly
       dsimp only
       with_reducible apply State.ordered)
    | refine pair_orderly (by assumption) ?_
    | assumption

theorem State.passResult_orderly (s : State) (f : Frame) (hs : s.orderly) : (State.passResult s f).orderly := by
  unfold State.passResult
  repeat' first
    | with_reducible assumption
    | with_reducible apply State.onColl_orderly
    | with_reducible apply State.sendResult_orderly
    | with_reducible apply State.keepLink_orderly
    | with_reducible apply foldl_orderly
    | with_reducible apply foldl_fst_orderly
    | with_reducible apply ite_orderly
    | with_reducible apply ite_fst_orderly
    | (intro; intros)
    | split
    | dsimp only
    | (unfold State.orderly
       dsimp only
       with_reducible apply State.ordered)
    | refine pair_orderly (by assumption) ?_
    | assumption

theorem State.linkDone_orderly (s : State) (id : Nat) (hs : s.orderly) : (State.linkDone s id).orderly := by
  unfold State.linkDone
  repeat' first
    | with_reducible assumption
    | with_reducible apply State.onColl_orderly
    | with_reducible apply ite_orderly
    | with_reducible apply ite_fst_orderly
    | (intro; intros)
    | split
    | dsimp only
    | (unfold State.orderly
       dsimp only
       with_reducible apply State.ordered)
    | refine pair_orderly (by assumption) ?_
    | assumption

theorem State.collCommit_orderly (s : State) (id : Nat) (hs : s.orderly) : (State.collCommit s id).orderly := by
  unfold State.collCommit
  repeat' first
    | with_reducible assumption
    | with_reducible apply State.countClv_orderly
    | with_reducible apply State.onColl_orderly
    | with_reducible apply State.toPart_orderly
    | with_reducible apply State.linkDone_orderly
    | with_reducible apply foldl_orderly
    | with_reducible apply foldl_fst_orderly
    | with_reducible apply ite_orderly
    | with_reducible apply ite_fst_orderly
    | (intro; intros)
    | split
    | dsimp only
    | (unfold State.orderly
       dsimp only
       with_reducible apply State.ordered)
    | refine pair_orderly (by assumption) ?_
    | assumption

theorem execCollectiveCommit_orderly (id : BitVec 12) (s : State) (hs : s.orderly) : inOrder (execCollectiveCommit id s) := by
  unfold execCollectiveCommit
  repeat' first
    | with_reducible assumption
    | with_reducible apply State.onColl_orderly
    | with_reducible apply State.sendFrom_orderly
    | with_reducible apply State.collCommit_orderly
    | with_reducible apply ite_orderly
    | with_reducible apply ite_fst_orderly
    | with_reducible apply next_orderly
    | (intro; intros)
    | split
    | dsimp only
    | (unfold State.orderly
       dsimp only
       with_reducible apply State.ordered)
    | refine pair_orderly (by assumption) ?_
    | assumption

theorem State.collDoneFrom_orderly (s : State) (p : Nat) (f : Frame) (hs : s.orderly) : (State.collDoneFrom s p f).orderly := by
  unfold State.collDoneFrom
  repeat' first
    | with_reducible assumption
    | with_reducible apply State.countClv_orderly
    | with_reducible apply State.onColl_orderly
    | with_reducible apply State.abortHere_orderly
    | with_reducible apply State.collTrigger_orderly
    | with_reducible apply State.collCommit_orderly
    | with_reducible apply ite_orderly
    | with_reducible apply ite_fst_orderly
    | (intro; intros)
    | split
    | dsimp only
    | (unfold State.orderly
       dsimp only
       with_reducible apply State.ordered)
    | refine pair_orderly (by assumption) ?_
    | assumption

theorem State.collAbortFrame_orderly (s : State) (o : Origin) (f : Frame) (hs : s.orderly) : (State.collAbortFrame s o f).orderly := by
  unfold State.collAbortFrame
  repeat' first
    | with_reducible assumption
    | with_reducible apply State.abortHere_orderly
    | with_reducible apply State.collTrigger_orderly
    | with_reducible apply ite_orderly
    | with_reducible apply ite_fst_orderly
    | (intro; intros)
    | split
    | dsimp only
    | (unfold State.orderly
       dsimp only
       with_reducible apply State.ordered)
    | refine pair_orderly (by assumption) ?_
    | assumption

theorem State.collTriggers_orderly (s : State) (cause : Nat) (p : Nat → Coll → Bool) (hs : s.orderly) : (State.collTriggers s cause p).orderly := by
  unfold State.collTriggers
  repeat' first
    | with_reducible assumption
    | with_reducible apply State.collTrigger_orderly
    | with_reducible apply foldl_orderly
    | with_reducible apply foldl_fst_orderly
    | with_reducible apply ite_orderly
    | with_reducible apply ite_fst_orderly
    | (intro; intros)
    | split
    | dsimp only
    | (unfold State.orderly
       dsimp only
       with_reducible apply State.ordered)
    | refine pair_orderly (by assumption) ?_
    | assumption

theorem State.memberDead_orderly (s : State) (u : BitVec 16) (lease : Bool) (hs : s.orderly) : (State.memberDead s u lease).orderly := by
  unfold State.memberDead
  repeat' first
    | with_reducible assumption
    | with_reducible apply State.onGroup_orderly
    | with_reducible apply State.collTriggers_orderly
    | with_reducible apply foldl_orderly
    | with_reducible apply foldl_fst_orderly
    | with_reducible apply ite_orderly
    | with_reducible apply ite_fst_orderly
    | (intro; intros)
    | split
    | dsimp only
    | (unfold State.orderly
       dsimp only
       with_reducible apply State.ordered)
    | refine pair_orderly (by assumption) ?_
    | assumption

theorem State.memberBack_orderly (s : State) (u : BitVec 16) (hs : s.orderly) : (State.memberBack s u).orderly := by
  unfold State.memberBack
  repeat' first
    | with_reducible assumption
    | with_reducible apply ite_orderly
    | with_reducible apply ite_fst_orderly
    | (intro; intros)
    | split
    | dsimp only
    | (unfold State.orderly
       dsimp only
       with_reducible apply State.ordered)
    | refine pair_orderly (by assumption) ?_
    | assumption

theorem State.treePortDead_orderly (s : State) (p : Nat) (hs : s.orderly) : (State.treePortDead s p).orderly := by
  unfold State.treePortDead
  repeat' first
    | with_reducible assumption
    | with_reducible apply State.draw_orderly
    | with_reducible apply State.abortHere_orderly
    | with_reducible apply State.collTriggers_orderly
    | with_reducible apply foldl_orderly
    | with_reducible apply foldl_fst_orderly
    | with_reducible apply ite_orderly
    | with_reducible apply ite_fst_orderly
    | (intro; intros)
    | split
    | dsimp only
    | (unfold State.orderly
       dsimp only
       with_reducible apply State.ordered)
    | refine pair_orderly (by assumption) ?_
    | assumption

theorem State.collLost_orderly (s : State) (hs : s.orderly) : (State.collLost s).orderly := by
  unfold State.collLost
  repeat' first
    | with_reducible assumption
    | with_reducible apply State.collTriggers_orderly
    | with_reducible apply ite_orderly
    | with_reducible apply ite_fst_orderly
    | (intro; intros)
    | split
    | dsimp only
    | (unfold State.orderly
       dsimp only
       with_reducible apply State.ordered)
    | refine pair_orderly (by assumption) ?_
    | assumption

theorem State.collDeadline_orderly (s : State) (id : Nat) (hs : s.orderly) : (State.collDeadline s id).orderly := by
  unfold State.collDeadline
  repeat' first
    | with_reducible assumption
    | with_reducible apply State.abortHere_orderly
    | with_reducible apply ite_orderly
    | with_reducible apply ite_fst_orderly
    | (intro; intros)
    | split
    | dsimp only
    | (unfold State.orderly
       dsimp only
       with_reducible apply State.ordered)
    | refine pair_orderly (by assumption) ?_
    | assumption

theorem execCollectiveAbortDeadline_orderly (id : BitVec 12) (s : State) (hs : s.orderly) : inOrder (execCollectiveAbortDeadline id s) := by
  unfold execCollectiveAbortDeadline
  repeat' first
    | with_reducible assumption
    | with_reducible apply State.collDeadline_orderly
    | with_reducible apply ite_orderly
    | with_reducible apply ite_fst_orderly
    | with_reducible apply next_orderly
    | (intro; intros)
    | split
    | dsimp only
    | (unfold State.orderly
       dsimp only
       with_reducible apply State.ordered)
    | refine pair_orderly (by assumption) ?_
    | assumption

theorem execAbortComplete_orderly (id : BitVec 12) (s : State) (hs : s.orderly) : inOrder (execAbortComplete id s) := by
  unfold execAbortComplete
  repeat' first
    | with_reducible assumption
    | with_reducible apply State.onColl_orderly
    | with_reducible apply State.linkDone_orderly
    | with_reducible apply ite_orderly
    | with_reducible apply ite_fst_orderly
    | with_reducible apply next_orderly
    | (intro; intros)
    | split
    | dsimp only
    | (unfold State.orderly
       dsimp only
       with_reducible apply State.ordered)
    | refine pair_orderly (by assumption) ?_
    | assumption

theorem execHeldOpenRetry_orderly (n : Nat) (s : State) (hs : s.orderly) : inOrder (execHeldOpenRetry n s) := by
  unfold execHeldOpenRetry
  repeat' first
    | with_reducible assumption
    | with_reducible apply State.collOpen_orderly
    | with_reducible apply ite_orderly
    | with_reducible apply ite_fst_orderly
    | with_reducible apply next_orderly
    | (intro; intros)
    | split
    | dsimp only
    | (unfold State.orderly
       dsimp only
       with_reducible apply State.ordered)
    | refine pair_orderly (by assumption) ?_
    | assumption

theorem execChunkSlotsFreed_orderly (id : BitVec 12) (who : Nat) (chunk : Nat) (s : State) (hs : s.orderly) : inOrder (execChunkSlotsFreed id who chunk s) := by
  unfold execChunkSlotsFreed
  repeat' first
    | with_reducible assumption
    | with_reducible apply State.onColl_orderly
    | with_reducible apply State.collProgress_orderly
    | with_reducible apply ite_orderly
    | with_reducible apply ite_fst_orderly
    | with_reducible apply next_orderly
    | (intro; intros)
    | split
    | dsimp only
    | (unfold State.orderly
       dsimp only
       with_reducible apply State.ordered)
    | refine pair_orderly (by assumption) ?_
    | assumption

theorem State.clvBind_orderly (s : State) (v : BitVec 64) (hs : s.orderly) : (State.clvBind s v).1.orderly := by
  unfold State.clvBind
  repeat' first
    | with_reducible assumption
    | with_reducible apply State.setColl_orderly
    | with_reducible apply ite_orderly
    | with_reducible apply ite_fst_orderly
    | (intro; intros)
    | split
    | dsimp only
    | (unfold State.orderly
       dsimp only
       refine Ordered.mk ?_ ?_ ?_ ?_ ?_ ?_ ?_ ?_ ?_ <;> repeat' first
        | with_reducible apply State.events_of
        | with_reducible apply State.entries_of
        | with_reducible apply State.unacked_of
        | with_reducible apply State.t0_of
        | with_reducible apply State.spad_of
        | with_reducible apply State.cmem_of
        | with_reducible apply State.staged_of
        | with_reducible apply State.firmware_of
        | with_reducible apply State.report_of
        | with_reducible exact Memory.wf_nil
        | with_reducible apply Memory.wf_write
        | with_reducible apply Memory.wf_put
        | with_reducible apply Memory.wf_filter
        | rw [List.length_map]
        | exact Nat.zero_le _)
    | refine pair_orderly (by assumption) ?_
    | assumption

theorem State.clvCmd_orderly (s : State) (v : BitVec 64) (hs : s.orderly) : (State.clvCmd s v).1.orderly := by
  unfold State.clvCmd
  repeat' first
    | with_reducible assumption
    | with_reducible apply State.collTrigger_orderly
    | with_reducible apply ite_orderly
    | with_reducible apply ite_fst_orderly
    | (intro; intros)
    | split
    | dsimp only
    | (unfold State.orderly
       dsimp only
       with_reducible apply State.ordered)
    | refine pair_orderly (by assumption) ?_
    | assumption

theorem State.clvMember_orderly (s : State) (j : Nat) (v : BitVec 64) (hs : s.orderly) : (State.clvMember s j v).1.orderly := by
  unfold State.clvMember
  repeat' first
    | with_reducible assumption
    | with_reducible apply State.onGroup_orderly
    | with_reducible apply ite_orderly
    | with_reducible apply ite_fst_orderly
    | (intro; intros)
    | split
    | dsimp only
    | (unfold State.orderly
       dsimp only
       with_reducible apply State.ordered)
    | refine pair_orderly (by assumption) ?_
    | assumption

theorem State.clvGroup_orderly (s : State) (v : BitVec 64) (hs : s.orderly) : (State.clvGroup s v).1.orderly := by
  unfold State.clvGroup
  repeat' first
    | with_reducible assumption
    | with_reducible apply State.onGroup_orderly
    | with_reducible apply ite_orderly
    | with_reducible apply ite_fst_orderly
    | (intro; intros)
    | split
    | dsimp only
    | (unfold State.orderly
       dsimp only
       with_reducible apply State.ordered)
    | refine pair_orderly (by assumption) ?_
    | assumption

theorem execClvBindEnable_orderly (tag : BitVec 16) (value : BitVec 64) (s : State) (hs : s.orderly) : inOrder (execClvBindEnable tag value s) := by
  unfold execClvBindEnable
  repeat' first
    | with_reducible assumption
    | with_reducible apply State.adkWr_orderly
    | with_reducible apply State.clvBind_orderly
    | with_reducible apply ite_orderly
    | with_reducible apply ite_fst_orderly
    | with_reducible apply next_orderly
    | (intro; intros)
    | split
    | dsimp only
    | (unfold State.orderly
       dsimp only
       with_reducible apply State.ordered)
    | refine pair_orderly (by assumption) ?_
    | assumption

theorem execClvBindDisable_orderly (tag : BitVec 16) (value : BitVec 64) (s : State) (hs : s.orderly) : inOrder (execClvBindDisable tag value s) := by
  unfold execClvBindDisable
  repeat' first
    | with_reducible assumption
    | with_reducible apply State.adkWr_orderly
    | with_reducible apply State.clvBind_orderly
    | with_reducible apply ite_orderly
    | with_reducible apply ite_fst_orderly
    | with_reducible apply next_orderly
    | (intro; intros)
    | split
    | dsimp only
    | (unfold State.orderly
       dsimp only
       with_reducible apply State.ordered)
    | refine pair_orderly (by assumption) ?_
    | assumption

theorem execClvCmdAbort_orderly (tag : BitVec 16) (s : State) (hs : s.orderly) : inOrder (execClvCmdAbort tag s) := by
  unfold execClvCmdAbort
  repeat' first
    | with_reducible assumption
    | with_reducible apply State.adkWr_orderly
    | with_reducible apply State.clvCmd_orderly
    | with_reducible apply ite_orderly
    | with_reducible apply ite_fst_orderly
    | with_reducible apply next_orderly
    | (intro; intros)
    | split
    | dsimp only
    | (unfold State.orderly
       dsimp only
       with_reducible apply State.ordered)
    | refine pair_orderly (by assumption) ?_
    | assumption

theorem execClvGrpMemberWrite_orderly (tag : BitVec 16) (j : BitVec 7) (value : BitVec 64) (s : State) (hs : s.orderly) : inOrder (execClvGrpMemberWrite tag j value s) := by
  unfold execClvGrpMemberWrite
  repeat' first
    | with_reducible assumption
    | with_reducible apply State.adkWr_orderly
    | with_reducible apply State.clvMember_orderly
    | with_reducible apply ite_orderly
    | with_reducible apply ite_fst_orderly
    | with_reducible apply next_orderly
    | (intro; intros)
    | split
    | dsimp only
    | (unfold State.orderly
       dsimp only
       with_reducible apply State.ordered)
    | refine pair_orderly (by assumption) ?_
    | assumption

end Sys2Proof.Machine
end

