-- ==== Sys2Proof/Laws/KeepAttention.lean ====
section
/-! SUPPORT. Every operation of Attention keeps the queues and memories in order. -/

set_option linter.unusedTactic false
set_option linter.unreachableTactic false
set_option linter.unusedVariables false

namespace Sys2Proof.Machine

theorem State.attnResult_orderly (s : State) (n : Nat) (o : Origin) (f : Frame) (st : BitVec 6) (pl : List Byte) (hs : s.orderly) : (State.attnResult s n o f st pl).orderly := by
  unfold State.attnResult
  repeat' first
    | with_reducible assumption
    | with_reducible apply State.toIssuer_orderly
    | with_reducible apply ite_orderly
    | with_reducible apply ite_fst_orderly
    | (intro; intros)
    | split
    | dsimp only
    | (unfold State.orderly
       dsimp only
       with_reducible apply State.ordered)
    | refine pair_orderly (by assumption) ?_
    | assumption

theorem State.attnBind_orderly (s : State) (n : Nat) (o : Origin) (f : Frame) (hs : s.orderly) : (State.attnBind s n o f).orderly := by
  unfold State.attnBind
  repeat' first
    | with_reducible assumption
    | with_reducible apply State.onHandle_orderly
    | with_reducible apply State.attnResult_orderly
    | with_reducible apply ite_orderly
    | with_reducible apply ite_fst_orderly
    | (intro; intros)
    | split
    | dsimp only
    | (unfold State.orderly
       dsimp only
       with_reducible apply State.ordered)
    | refine pair_orderly (by assumption) ?_
    | assumption

theorem State.attnRelease_orderly (s : State) (n : Nat) (o : Origin) (f : Frame) (hs : s.orderly) : (State.attnRelease s n o f).orderly := by
  unfold State.attnRelease
  repeat' first
    | with_reducible assumption
    | with_reducible apply State.onHandle_orderly
    | with_reducible apply State.attnResult_orderly
    | with_reducible apply ite_orderly
    | with_reducible apply ite_fst_orderly
    | (intro; intros)
    | split
    | dsimp only
    | (unfold State.orderly
       dsimp only
       with_reducible apply State.ordered)
    | refine pair_orderly (by assumption) ?_
    | assumption

theorem State.attnIssue_orderly (s : State) (x : Decode) (what : Nat) (f : Frame) (hs : s.orderly) : (State.attnIssue s x what f).orderly := by
  unfold State.attnIssue
  repeat' first
    | with_reducible assumption
    | with_reducible apply State.accept_orderly
    | with_reducible apply ite_orderly
    | with_reducible apply ite_fst_orderly
    | (intro; intros)
    | split
    | dsimp only
    | (unfold State.orderly
       dsimp only
       with_reducible apply State.ordered)
    | refine pair_orderly (by assumption) ?_
    | assumption

theorem State.putDecode_orderly (s : State) (x : Decode) (hs : s.orderly) : (State.putDecode s x).orderly := by
  unfold State.putDecode
  repeat' first
    | with_reducible assumption
    | with_reducible apply ite_orderly
    | with_reducible apply ite_fst_orderly
    | (intro; intros)
    | split
    | dsimp only
    | (unfold State.orderly
       dsimp only
       with_reducible apply State.ordered)
    | refine pair_orderly (by assumption) ?_
    | assumption

theorem State.attnStart_orderly (s : State) (x : Decode) (hs : s.orderly) : (State.attnStart s x).orderly := by
  unfold State.attnStart
  repeat' first
    | with_reducible assumption
    | with_reducible apply State.serving_orderly
    | with_reducible apply State.attnIssue_orderly
    | with_reducible apply foldl_orderly
    | with_reducible apply foldl_fst_orderly
    | with_reducible apply ite_orderly
    | with_reducible apply ite_fst_orderly
    | (intro; intros)
    | split
    | dsimp only
    | (unfold State.orderly
       dsimp only
       with_reducible apply State.ordered)
    | refine pair_orderly (by assumption) ?_
    | assumption

theorem State.sendSub_orderly (s : State) (id : Nat) (u : BitVec 16) (y : List (Nat × Nat)) (hs : s.orderly) : (State.sendSub s id u y).orderly := by
  unfold State.sendSub
  repeat' first
    | with_reducible assumption
    | with_reducible apply State.countAtn_orderly
    | with_reducible apply State.subFrame_orderly
    | with_reducible apply State.putDecode_orderly
    | with_reducible apply ite_orderly
    | with_reducible apply ite_fst_orderly
    | (intro; intros)
    | split
    | dsimp only
    | (unfold State.orderly
       dsimp only
       with_reducible apply State.ordered)
    | refine pair_orderly (by assumption) ?_
    | assumption

theorem State.attnDecode_orderly (s : State) (n : Nat) (o : Origin) (f : Frame) (hs : s.orderly) : (State.attnDecode s n o f).orderly := by
  unfold State.attnDecode
  repeat' first
    | with_reducible assumption
    | with_reducible apply State.onHandle_orderly
    | with_reducible apply State.attnResult_orderly
    | with_reducible apply State.attnStart_orderly
    | with_reducible apply State.sendSub_orderly
    | with_reducible apply foldl_orderly
    | with_reducible apply foldl_fst_orderly
    | with_reducible apply ite_orderly
    | with_reducible apply ite_fst_orderly
    | (intro; intros)
    | split
    | dsimp only
    | (unfold State.orderly
       dsimp only
       with_reducible apply State.ordered)
    | refine pair_orderly (by assumption) ?_
    | assumption

theorem State.attnRequest_orderly (s : State) (n : Nat) (o : Origin) (f : Frame) (hs : s.orderly) : (State.attnRequest s n o f).orderly := by
  unfold State.attnRequest
  repeat' first
    | with_reducible assumption
    | with_reducible apply State.attnResult_orderly
    | with_reducible apply State.attnBind_orderly
    | with_reducible apply State.attnRelease_orderly
    | with_reducible apply State.attnDecode_orderly
    | with_reducible apply ite_orderly
    | with_reducible apply ite_fst_orderly
    | (intro; intros)
    | split
    | dsimp only
    | (unfold State.orderly
       dsimp only
       with_reducible apply State.ordered)
    | refine pair_orderly (by assumption) ?_
    | assumption

theorem State.attnSub_orderly (s : State) (n : Nat) (o : Origin) (f : Frame) (hs : s.orderly) : (State.attnSub s n o f).orderly := by
  unfold State.attnSub
  repeat' first
    | with_reducible assumption
    | with_reducible apply State.attnResult_orderly
    | with_reducible apply State.attnStart_orderly
    | with_reducible apply ite_orderly
    | with_reducible apply ite_fst_orderly
    | (intro; intros)
    | split
    | dsimp only
    | (unfold State.orderly
       dsimp only
       with_reducible apply State.ordered)
    | refine pair_orderly (by assumption) ?_
    | assumption

theorem State.endDecode_orderly (s : State) (x : Decode) (hs : s.orderly) : (State.endDecode s x).orderly := by
  unfold State.endDecode
  repeat' first
    | with_reducible assumption
    | with_reducible apply State.onHandle_orderly
    | with_reducible apply ite_orderly
    | with_reducible apply ite_fst_orderly
    | (intro; intros)
    | split
    | dsimp only
    | (unfold State.orderly
       dsimp only
       with_reducible apply State.ordered)
    | refine pair_orderly (by assumption) ?_
    | assumption

theorem State.sendPart_orderly (s : State) (x : Decode) (st : BitVec 6) (hdr : List Byte) (body : List Byte) (hs : s.orderly) : (State.sendPart s x st hdr body).orderly := by
  unfold State.sendPart
  repeat' first
    | with_reducible assumption
    | with_reducible apply State.toIssuer_orderly
    | with_reducible apply foldl_orderly
    | with_reducible apply foldl_fst_orderly
    | with_reducible apply ite_orderly
    | with_reducible apply ite_fst_orderly
    | (intro; intros)
    | split
    | dsimp only
    | (unfold State.orderly
       dsimp only
       with_reducible apply State.ordered)
    | refine pair_orderly (by assumption) ?_
    | assumption

theorem State.finishDecode_orderly (s : State) (x : Decode) (st : BitVec 6) (out : List Byte) (hs : s.orderly) : (State.finishDecode s x st out).orderly := by
  unfold State.finishDecode
  repeat' first
    | with_reducible assumption
    | with_reducible apply State.countAtn_orderly
    | with_reducible apply State.attnResult_orderly
    | with_reducible apply State.endDecode_orderly
    | with_reducible apply State.sendPart_orderly
    | with_reducible apply ite_orderly
    | with_reducible apply ite_fst_orderly
    | (intro; intros)
    | split
    | dsimp only
    | (unfold State.orderly
       dsimp only
       with_reducible apply State.ordered)
    | refine pair_orderly (by assumption) ?_
    | assumption

theorem execSplitComplete_orderly (decode : Nat) (split : Nat) (s : State) (hs : s.orderly) : inOrder (execSplitComplete decode split s) := by
  unfold execSplitComplete
  repeat' first
    | with_reducible assumption
    | with_reducible apply State.putDecode_orderly
    | with_reducible apply ite_orderly
    | with_reducible apply ite_fst_orderly
    | with_reducible apply next_orderly
    | (intro; intros)
    | split
    | dsimp only
    | (unfold State.orderly
       dsimp only
       with_reducible apply State.ordered)
    | refine pair_orderly (by assumption) ?_
    | assumption

theorem execDecodeComplete_orderly (decode : Nat) (s : State) (hs : s.orderly) : inOrder (execDecodeComplete decode s) := by
  unfold execDecodeComplete
  repeat' first
    | with_reducible assumption
    | with_reducible apply State.settled_orderly
    | with_reducible apply State.attnIssue_orderly
    | with_reducible apply State.putDecode_orderly
    | with_reducible apply State.finishDecode_orderly
    | with_reducible apply foldl_orderly
    | with_reducible apply foldl_fst_orderly
    | with_reducible apply ite_orderly
    | with_reducible apply ite_fst_orderly
    | with_reducible apply next_orderly
    | (intro; intros)
    | split
    | dsimp only
    | (unfold State.orderly
       dsimp only
       with_reducible apply State.ordered)
    | refine pair_orderly (by assumption) ?_
    | assumption

theorem execKvProbeComplete_orderly (walk : Nat) (s : State) (hs : s.orderly) : inOrder (execKvProbeComplete walk s) := by
  unfold execKvProbeComplete
  repeat' first
    | with_reducible assumption
    | with_reducible apply State.countTrn_orderly
    | with_reducible apply State.readEntry_orderly
    | with_reducible apply State.endWalk_orderly
    | with_reducible apply State.walkRead_orderly
    | with_reducible apply ite_orderly
    | with_reducible apply ite_fst_orderly
    | with_reducible apply next_orderly
    | (intro; intros)
    | split
    | dsimp only
    | (unfold State.orderly
       dsimp only
       with_reducible apply State.ordered)
    | refine pair_orderly (by assumption) ?_
    | assumption

theorem State.attnPart_orderly (s : State) (x : Decode) (i : Nat) (f : Frame) (hs : s.orderly) : (State.attnPart s x i f).orderly := by
  unfold State.attnPart
  repeat' first
    | with_reducible assumption
    | with_reducible apply State.tagFree_orderly
    | with_reducible apply State.putDecode_orderly
    | with_reducible apply ite_orderly
    | with_reducible apply ite_fst_orderly
    | (intro; intros)
    | split
    | dsimp only
    | (unfold State.orderly
       dsimp only
       with_reducible apply State.ordered)
    | refine pair_orderly (by assumption) ?_
    | assumption

theorem State.subDead_orderly (s : State) (p : Nat → SubReq → Bool) (hs : s.orderly) : (State.subDead s p).orderly := by
  unfold State.subDead
  repeat' first
    | with_reducible assumption
    | with_reducible apply ite_orderly
    | with_reducible apply ite_fst_orderly
    | (intro; intros)
    | split
    | dsimp only
    | (unfold State.orderly
       dsimp only
       with_reducible apply State.ordered)
    | refine pair_orderly (by assumption) ?_
    | assumption

theorem State.endDecodes_orderly (s : State) (st : BitVec 6) (p : Decode → Bool) (hs : s.orderly) : (State.endDecodes s st p).orderly := by
  unfold State.endDecodes
  repeat' first
    | with_reducible assumption
    | with_reducible apply State.putDecode_orderly
    | with_reducible apply State.finishDecode_orderly
    | with_reducible apply foldl_orderly
    | with_reducible apply foldl_fst_orderly
    | with_reducible apply ite_orderly
    | with_reducible apply ite_fst_orderly
    | (intro; intros)
    | split
    | dsimp only
    | (unfold State.orderly
       dsimp only
       with_reducible apply State.ordered)
    | refine pair_orderly (by assumption) ?_
    | assumption

theorem State.releaseHandles_orderly (s : State) (p : Nat → Handle → Bool) (hs : s.orderly) : (State.releaseHandles s p).orderly := by
  unfold State.releaseHandles
  repeat' first
    | with_reducible assumption
    | with_reducible apply ite_orderly
    | with_reducible apply ite_fst_orderly
    | (intro; intros)
    | split
    | dsimp only
    | (unfold State.orderly
       dsimp only
       with_reducible apply State.ordered)
    | refine pair_orderly (by assumption) ?_
    | assumption

theorem State.attnLeave_orderly (s : State) (hs : s.orderly) : (State.attnLeave s).orderly := by
  unfold State.attnLeave
  repeat' first
    | with_reducible assumption
    | with_reducible apply State.endDecodes_orderly
    | with_reducible apply State.releaseHandles_orderly
    | with_reducible apply ite_orderly
    | with_reducible apply ite_fst_orderly
    | (intro; intros)
    | split
    | dsimp only
    | (unfold State.orderly
       dsimp only
       with_reducible apply State.ordered)
    | refine pair_orderly (by assumption) ?_
    | assumption

theorem State.attnStopping_orderly (s : State) (t : Nat) (hs : s.orderly) : (State.attnStopping s t).orderly := by
  unfold State.attnStopping
  repeat' first
    | with_reducible assumption
    | with_reducible apply State.endDecodes_orderly
    | with_reducible apply State.releaseHandles_orderly
    | with_reducible apply ite_orderly
    | with_reducible apply ite_fst_orderly
    | (intro; intros)
    | split
    | dsimp only
    | (unfold State.orderly
       dsimp only
       with_reducible apply State.ordered)
    | refine pair_orderly (by assumption) ?_
    | assumption

theorem execHandleFreed_orderly (handle : BitVec 18) (s : State) (hs : s.orderly) : inOrder (execHandleFreed handle s) := by
  unfold execHandleFreed
  repeat' first
    | with_reducible assumption
    | with_reducible apply State.onHandle_orderly
    | with_reducible apply ite_orderly
    | with_reducible apply ite_fst_orderly
    | with_reducible apply next_orderly
    | (intro; intros)
    | split
    | dsimp only
    | (unfold State.orderly
       dsimp only
       with_reducible apply State.ordered)
    | refine pair_orderly (by assumption) ?_
    | assumption

theorem State.atnCmd_orderly (s : State) (v : BitVec 64) (hs : s.orderly) : (State.atnCmd s v).1.orderly := by
  unfold State.atnCmd
  repeat' first
    | with_reducible assumption
    | with_reducible apply State.onHandle_orderly
    | with_reducible apply ite_orderly
    | with_reducible apply ite_fst_orderly
    | (intro; intros)
    | split
    | dsimp only
    | (unfold State.orderly
       dsimp only
       with_reducible apply State.ordered)
    | refine pair_orderly (by assumption) ?_
    | assumption

theorem execAtnCmdRelease_orderly (tag : BitVec 16) (handle : BitVec 18) (s : State) (hs : s.orderly) : inOrder (execAtnCmdRelease tag handle s) := by
  unfold execAtnCmdRelease
  repeat' first
    | with_reducible assumption
    | with_reducible apply State.adkWr_orderly
    | with_reducible apply State.atnCmd_orderly
    | with_reducible apply ite_orderly
    | with_reducible apply ite_fst_orderly
    | with_reducible apply next_orderly
    | (intro; intros)
    | split
    | dsimp only
    | (unfold State.orderly
       dsimp only
       with_reducible apply State.ordered)
    | refine pair_orderly (by assumption) ?_
    | assumption

theorem State.atnPvCfg_orderly (s : State) (v : BitVec 64) (hs : s.orderly) : (State.atnPvCfg s v).1.orderly := by
  unfold State.atnPvCfg
  repeat' first
    | with_reducible assumption
    | with_reducible apply ite_orderly
    | with_reducible apply ite_fst_orderly
    | (intro; intros)
    | split
    | dsimp only
    | (unfold State.orderly
       dsimp only
       with_reducible apply State.ordered)
    | refine pair_orderly (by assumption) ?_
    | assumption

end Sys2Proof.Machine
end

