-- ==== Sys2Proof/Laws/KeepPool.lean ====
section
/-! SUPPORT. Every operation of Pool keeps the queues and memories in order. -/

set_option linter.unusedTactic false
set_option linter.unreachableTactic false
set_option linter.unusedVariables false

namespace Sys2Proof.Machine

theorem State.freeExtent_orderly (s : State) (e : Nat) (hs : s.orderly) : (State.freeExtent s e).orderly := by
  unfold State.freeExtent
  repeat' first
    | with_reducible assumption
    | with_reducible apply State.extTo_orderly
    | with_reducible apply ite_orderly
    | with_reducible apply ite_fst_orderly
    | (intro; intros)
    | split
    | dsimp only
    | (unfold State.orderly
       dsimp only
       with_reducible apply State.ordered)
    | refine pair_orderly (by assumption) ?_
    | assumption

theorem State.revoke_orderly (s : State) (e : Nat) (trig : Nat) (hs : s.orderly) : (State.revoke s e trig).orderly := by
  unfold State.revoke
  repeat' first
    | with_reducible assumption
    | with_reducible apply State.onExtent_orderly
    | with_reducible apply State.draw_orderly
    | with_reducible apply State.backInvalidate_orderly
    | with_reducible apply State.extTo_orderly
    | with_reducible apply State.freeExtent_orderly
    | with_reducible apply foldl_orderly
    | with_reducible apply foldl_fst_orderly
    | with_reducible apply ite_orderly
    | with_reducible apply ite_fst_orderly
    | (intro; intros)
    | split
    | dsimp only
    | (unfold State.orderly
       dsimp only
       with_reducible apply State.ordered)
    | refine pair_orderly (by assumption) ?_
    | assumption

theorem State.revokeAll_orderly (s : State) (trig : Nat) (p : Extent → Bool) (hs : s.orderly) : (State.revokeAll s trig p).orderly := by
  unfold State.revokeAll
  repeat' first
    | with_reducible assumption
    | with_reducible apply State.revoke_orderly
    | with_reducible apply foldl_orderly
    | with_reducible apply foldl_fst_orderly
    | with_reducible apply ite_orderly
    | with_reducible apply ite_fst_orderly
    | (intro; intros)
    | split
    | dsimp only
    | (unfold State.orderly
       dsimp only
       with_reducible apply State.ordered)
    | refine pair_orderly (by assumption) ?_
    | assumption

theorem State.drained_orderly (s : State) (e : Nat) (strag : Nat) (hs : s.orderly) : (State.drained s e strag).orderly := by
  unfold State.drained
  repeat' first
    | with_reducible assumption
    | with_reducible apply State.logWith_orderly
    | with_reducible apply State.extTo_orderly
    | with_reducible apply State.freeExtent_orderly
    | with_reducible apply ite_orderly
    | with_reducible apply ite_fst_orderly
    | (intro; intros)
    | split
    | dsimp only
    | (unfold State.orderly
       dsimp only
       with_reducible apply State.ordered)
    | refine pair_orderly (by assumption) ?_
    | assumption

theorem execExtentDrained_orderly (index : BitVec 21) (s : State) (hs : s.orderly) : inOrder (execExtentDrained index s) := by
  unfold execExtentDrained
  repeat' first
    | with_reducible assumption
    | with_reducible apply State.drained_orderly
    | with_reducible apply ite_orderly
    | with_reducible apply ite_fst_orderly
    | with_reducible apply next_orderly
    | (intro; intros)
    | split
    | dsimp only
    | (unfold State.orderly
       dsimp only
       with_reducible apply State.ordered)
    | refine pair_orderly (by assumption) ?_
    | assumption

theorem execDrainLimitExpiry_orderly (index : BitVec 21) (s : State) (hs : s.orderly) : inOrder (execDrainLimitExpiry index s) := by
  unfold execDrainLimitExpiry
  repeat' first
    | with_reducible assumption
    | with_reducible apply State.countExt_orderly
    | with_reducible apply State.poisonLine_orderly
    | with_reducible apply State.setDir_orderly
    | with_reducible apply State.finish_orderly
    | with_reducible apply State.cutTray_orderly
    | with_reducible apply State.wakeStaged_orderly
    | with_reducible apply State.drained_orderly
    | with_reducible apply foldl_orderly
    | with_reducible apply foldl_fst_orderly
    | with_reducible apply ite_orderly
    | with_reducible apply ite_fst_orderly
    | with_reducible apply next_orderly
    | (intro; intros)
    | split
    | dsimp only
    | (unfold State.orderly
       dsimp only
       with_reducible apply State.ordered)
    | refine pair_orderly (by assumption) ?_
    | assumption

theorem State.startScrub_orderly (s : State) (e : Nat) (hs : s.orderly) : (State.startScrub s e).orderly := by
  unfold State.startScrub
  repeat' first
    | with_reducible assumption
    | with_reducible apply State.draw_orderly
    | with_reducible apply State.extTo_orderly
    | with_reducible apply State.scrubBlock_orderly
    | with_reducible apply State.abortMove_orderly
    | with_reducible apply State.dropPageSectors_orderly
    | with_reducible apply foldl_orderly
    | with_reducible apply foldl_fst_orderly
    | with_reducible apply ite_orderly
    | with_reducible apply ite_fst_orderly
    | (intro; intros)
    | split
    | dsimp only
    | (unfold State.orderly
       dsimp only
       with_reducible apply State.ordered)
    | refine pair_orderly (by assumption) ?_
    | assumption

theorem execExtentScrubComplete_orderly (index : BitVec 21) (s : State) (hs : s.orderly) : inOrder (execExtentScrubComplete index s) := by
  unfold execExtentScrubComplete
  repeat' first
    | with_reducible assumption
    | with_reducible apply State.setPage_orderly
    | with_reducible apply State.releaseSlot_orderly
    | with_reducible apply State.extTo_orderly
    | with_reducible apply foldl_orderly
    | with_reducible apply foldl_fst_orderly
    | with_reducible apply ite_orderly
    | with_reducible apply ite_fst_orderly
    | with_reducible apply next_orderly
    | (intro; intros)
    | split
    | dsimp only
    | (unfold State.orderly
       dsimp only
       with_reducible apply State.ordered)
    | refine pair_orderly (by assumption) ?_
    | assumption

theorem State.extGive_orderly (s : State) (e : Nat) (tier : Nat) (keeps : Bool) (hs : s.orderly) : (State.extGive s e tier keeps).orderly := by
  unfold State.extGive
  repeat' first
    | with_reducible assumption
    | with_reducible apply State.giveSlot_getD_orderly
    | refine State.giveSlot_orderly _ _ _ ?_ _ (by assumption)
    | with_reducible apply State.extTo_orderly
    | with_reducible apply foldl_orderly
    | with_reducible apply foldl_fst_orderly
    | with_reducible apply ite_orderly
    | with_reducible apply ite_fst_orderly
    | (intro; intros)
    | split
    | dsimp only
    | (unfold State.orderly
       dsimp only
       with_reducible apply State.ordered)
    | refine pair_orderly (by assumption) ?_
    | assumption

theorem State.extAssign_orderly (s : State) (e : Nat) (again : Bool) (hs : s.orderly) : (State.extAssign s e again).1.orderly := by
  unfold State.extAssign
  repeat' first
    | with_reducible assumption
    | with_reducible apply State.roomRun_orderly
    | with_reducible apply State.roomLog_orderly
    | with_reducible apply State.extGive_orderly
    | with_reducible apply ite_orderly
    | with_reducible apply ite_fst_orderly
    | (intro; intros)
    | split
    | dsimp only
    | (unfold State.orderly
       dsimp only
       with_reducible apply State.ordered)
    | refine pair_orderly (by assumption) ?_
    | assumption

theorem State.extSetattr_orderly (s : State) (e : Nat) (hs : s.orderly) : (State.extSetattr s e).1.orderly := by
  unfold State.extSetattr
  repeat' first
    | with_reducible assumption
    | with_reducible apply State.onExtent_orderly
    | with_reducible apply ite_orderly
    | with_reducible apply ite_fst_orderly
    | (intro; intros)
    | split
    | dsimp only
    | (unfold State.orderly
       dsimp only
       with_reducible apply State.ordered)
    | refine pair_orderly (by assumption) ?_
    | assumption

theorem State.extRevoke_orderly (s : State) (e : Nat) (hs : s.orderly) : (State.extRevoke s e).1.orderly := by
  unfold State.extRevoke
  repeat' first
    | with_reducible assumption
    | with_reducible apply State.revoke_orderly
    | with_reducible apply ite_orderly
    | with_reducible apply ite_fst_orderly
    | (intro; intros)
    | split
    | dsimp only
    | (unfold State.orderly
       dsimp only
       with_reducible apply State.ordered)
    | refine pair_orderly (by assumption) ?_
    | assumption

theorem State.extRelease_orderly (s : State) (e : Nat) (hs : s.orderly) : (State.extRelease s e).1.orderly := by
  unfold State.extRelease
  repeat' first
    | with_reducible assumption
    | with_reducible apply State.freeExtent_orderly
    | with_reducible apply ite_orderly
    | with_reducible apply ite_fst_orderly
    | (intro; intros)
    | split
    | dsimp only
    | (unfold State.orderly
       dsimp only
       with_reducible apply State.ordered)
    | refine pair_orderly (by assumption) ?_
    | assumption

theorem State.extScrub_orderly (s : State) (e : Nat) (hs : s.orderly) : (State.extScrub s e).1.orderly := by
  unfold State.extScrub
  repeat' first
    | with_reducible assumption
    | with_reducible apply State.startScrub_orderly
    | with_reducible apply ite_orderly
    | with_reducible apply ite_fst_orderly
    | (intro; intros)
    | split
    | dsimp only
    | (unfold State.orderly
       dsimp only
       with_reducible apply State.ordered)
    | refine pair_orderly (by assumption) ?_
    | assumption

theorem State.extResult_orderly (s : State) (e : Nat) (st : BitVec 6) (hs : s.orderly) : (State.extResult s e st).orderly := by
  unfold State.extResult
  repeat' first
    | with_reducible assumption
    | with_reducible apply ite_orderly
    | with_reducible apply ite_fst_orderly
    | (intro; intros)
    | split
    | dsimp only
    | (unfold State.orderly
       dsimp only
       with_reducible apply State.ordered)
    | refine pair_orderly (by assumption) ?_
    | assumption

theorem State.extTry_orderly (s : State) (v : BitVec 64) (hs : s.orderly) : (State.extTry s v).1.orderly := by
  unfold State.extTry
  repeat' first
    | with_reducible assumption
    | with_reducible apply State.extAssign_orderly
    | with_reducible apply State.extSetattr_orderly
    | with_reducible apply State.extRevoke_orderly
    | with_reducible apply State.extRelease_orderly
    | with_reducible apply State.extScrub_orderly
    | with_reducible apply State.extResult_orderly
    | with_reducible apply ite_orderly
    | with_reducible apply ite_fst_orderly
    | (intro; intros)
    | split
    | dsimp only
    | (unfold State.orderly
       dsimp only
       with_reducible apply State.ordered)
    | refine pair_orderly (by assumption) ?_
    | assumption

theorem State.extCmd_orderly (s : State) (v : BitVec 64) (hs : s.orderly) : (State.extCmd s v).1.orderly := by
  unfold State.extCmd
  repeat' first
    | with_reducible assumption
    | with_reducible apply State.extResult_orderly
    | with_reducible apply State.extTry_orderly
    | with_reducible apply ite_orderly
    | with_reducible apply ite_fst_orderly
    | (intro; intros)
    | split
    | dsimp only
    | (unfold State.orderly
       dsimp only
       with_reducible apply State.ordered)
    | refine pair_orderly (by assumption) ?_
    | assumption

theorem State.extBody_orderly (q : AdkFrame) (v : BitVec 64) (s : State) (hs : s.orderly) : (State.extBody q v s).orderly := by
  unfold State.extBody
  repeat' first
    | with_reducible assumption
    | with_reducible apply State.adkReply_orderly
    | with_reducible apply State.extTry_orderly
    | with_reducible apply ite_orderly
    | with_reducible apply ite_fst_orderly
    | (intro; intros)
    | split
    | dsimp only
    | (unfold State.orderly
       dsimp only
       with_reducible apply State.ordered)
    | refine pair_orderly (by assumption) ?_
    | assumption

theorem State.extCmdWr_orderly (s : State) (tag : BitVec 16) (index : BitVec 21) (op : Nat) (hs : s.orderly) : (State.extCmdWr s tag index op).orderly := by
  unfold State.extCmdWr
  repeat' first
    | with_reducible assumption
    | with_reducible apply State.adkRequest_orderly
    | with_reducible apply State.extBody_orderly
    | with_reducible apply ite_orderly
    | with_reducible apply ite_fst_orderly
    | (intro; intros)
    | split
    | dsimp only
    | (unfold State.orderly
       dsimp only
       with_reducible apply State.ordered)
    | refine pair_orderly (by assumption) ?_
    | assumption

theorem execExtAssign_orderly (tag : BitVec 16) (index : BitVec 21) (s : State) (hs : s.orderly) : inOrder (execExtAssign tag index s) := by
  unfold execExtAssign
  repeat' first
    | with_reducible assumption
    | with_reducible apply State.extCmdWr_orderly
    | with_reducible apply ite_orderly
    | with_reducible apply ite_fst_orderly
    | with_reducible apply next_orderly
    | (intro; intros)
    | split
    | dsimp only
    | (unfold State.orderly
       dsimp only
       with_reducible apply State.ordered)
    | refine pair_orderly (by assumption) ?_
    | assumption

theorem execExtSetattr_orderly (tag : BitVec 16) (index : BitVec 21) (s : State) (hs : s.orderly) : inOrder (execExtSetattr tag index s) := by
  unfold execExtSetattr
  repeat' first
    | with_reducible assumption
    | with_reducible apply State.extCmdWr_orderly
    | with_reducible apply ite_orderly
    | with_reducible apply ite_fst_orderly
    | with_reducible apply next_orderly
    | (intro; intros)
    | split
    | dsimp only
    | (unfold State.orderly
       dsimp only
       with_reducible apply State.ordered)
    | refine pair_orderly (by assumption) ?_
    | assumption

theorem execExtRevoke_orderly (tag : BitVec 16) (index : BitVec 21) (s : State) (hs : s.orderly) : inOrder (execExtRevoke tag index s) := by
  unfold execExtRevoke
  repeat' first
    | with_reducible assumption
    | with_reducible apply State.extCmdWr_orderly
    | with_reducible apply ite_orderly
    | with_reducible apply ite_fst_orderly
    | with_reducible apply next_orderly
    | (intro; intros)
    | split
    | dsimp only
    | (unfold State.orderly
       dsimp only
       with_reducible apply State.ordered)
    | refine pair_orderly (by assumption) ?_
    | assumption

theorem execExtRelease_orderly (tag : BitVec 16) (index : BitVec 21) (s : State) (hs : s.orderly) : inOrder (execExtRelease tag index s) := by
  unfold execExtRelease
  repeat' first
    | with_reducible assumption
    | with_reducible apply State.extCmdWr_orderly
    | with_reducible apply ite_orderly
    | with_reducible apply ite_fst_orderly
    | with_reducible apply next_orderly
    | (intro; intros)
    | split
    | dsimp only
    | (unfold State.orderly
       dsimp only
       with_reducible apply State.ordered)
    | refine pair_orderly (by assumption) ?_
    | assumption

theorem execExtScrub_orderly (tag : BitVec 16) (index : BitVec 21) (s : State) (hs : s.orderly) : inOrder (execExtScrub tag index s) := by
  unfold execExtScrub
  repeat' first
    | with_reducible assumption
    | with_reducible apply State.extCmdWr_orderly
    | with_reducible apply ite_orderly
    | with_reducible apply ite_fst_orderly
    | with_reducible apply next_orderly
    | (intro; intros)
    | split
    | dsimp only
    | (unfold State.orderly
       dsimp only
       with_reducible apply State.ordered)
    | refine pair_orderly (by assumption) ?_
    | assumption

theorem State.expireLease_orderly (s : State) (i : Nat) (trig : Nat) (hs : s.orderly) : (State.expireLease s i trig).orderly := by
  unfold State.expireLease
  repeat' first
    | with_reducible assumption
    | with_reducible apply State.logWith_orderly
    | with_reducible apply State.countLse_orderly
    | with_reducible apply State.onLease_orderly
    | with_reducible apply State.memberDead_orderly
    | with_reducible apply State.revokeAll_orderly
    | with_reducible apply ite_orderly
    | with_reducible apply ite_fst_orderly
    | (intro; intros)
    | split
    | dsimp only
    | (unfold State.orderly
       dsimp only
       with_reducible apply State.ordered)
    | refine pair_orderly (by assumption) ?_
    | assumption

theorem State.leaseEnds_orderly (s : State) (i : Nat) (hs : s.orderly) : (State.leaseEnds s i).orderly := by
  unfold State.leaseEnds
  repeat' first
    | with_reducible assumption
    | with_reducible apply State.expireLease_orderly
    | with_reducible apply ite_orderly
    | with_reducible apply ite_fst_orderly
    | (intro; intros)
    | split
    | dsimp only
    | (unfold State.orderly
       dsimp only
       with_reducible apply State.ordered)
    | refine pair_orderly (by assumption) ?_
    | assumption

theorem execLeaseExpiry_orderly (index : BitVec 12) (s : State) (hs : s.orderly) : inOrder (execLeaseExpiry index s) := by
  unfold execLeaseExpiry
  repeat' first
    | with_reducible assumption
    | with_reducible apply State.leaseEnds_orderly
    | with_reducible apply ite_orderly
    | with_reducible apply ite_fst_orderly
    | with_reducible apply next_orderly
    | (intro; intros)
    | split
    | dsimp only
    | (unfold State.orderly
       dsimp only
       with_reducible apply State.ordered)
    | refine pair_orderly (by assumption) ?_
    | assumption

theorem State.armLeases_orderly (s : State) (hs : s.orderly) : (State.armLeases s).orderly := by
  unfold State.armLeases
  repeat' first
    | with_reducible assumption
    | with_reducible apply ite_orderly
    | with_reducible apply ite_fst_orderly
    | (intro; intros)
    | split
    | dsimp only
    | (unfold State.orderly
       dsimp only
       with_reducible apply State.ordered)
    | refine pair_orderly (by assumption) ?_
    | assumption

theorem State.freezeLeases_orderly (s : State) (hs : s.orderly) : (State.freezeLeases s).orderly := by
  unfold State.freezeLeases
  repeat' first
    | with_reducible assumption
    | with_reducible apply ite_orderly
    | with_reducible apply ite_fst_orderly
    | (intro; intros)
    | split
    | dsimp only
    | (unfold State.orderly
       dsimp only
       with_reducible apply State.ordered)
    | refine pair_orderly (by assumption) ?_
    | assumption

theorem State.thawLeases_orderly (s : State) (hs : s.orderly) : (State.thawLeases s).orderly := by
  unfold State.thawLeases
  repeat' first
    | with_reducible assumption
    | with_reducible apply ite_orderly
    | with_reducible apply ite_fst_orderly
    | (intro; intros)
    | split
    | dsimp only
    | (unfold State.orderly
       dsimp only
       with_reducible apply State.ordered)
    | refine pair_orderly (by assumption) ?_
    | assumption

theorem State.lseCreate_orderly (s : State) (hs : s.orderly) : (State.lseCreate s).1.orderly := by
  unfold State.lseCreate
  repeat' first
    | with_reducible assumption
    | with_reducible apply State.onLease_orderly
    | with_reducible apply ite_orderly
    | with_reducible apply ite_fst_orderly
    | (intro; intros)
    | split
    | dsimp only
    | (unfold State.orderly
       dsimp only
       with_reducible apply State.ordered)
    | refine pair_orderly (by assumption) ?_
    | assumption

theorem State.lseDelete_orderly (s : State) (hs : s.orderly) : (State.lseDelete s).1.orderly := by
  unfold State.lseDelete
  repeat' first
    | with_reducible assumption
    | with_reducible apply State.onLease_orderly
    | with_reducible apply ite_orderly
    | with_reducible apply ite_fst_orderly
    | (intro; intros)
    | split
    | dsimp only
    | (unfold State.orderly
       dsimp only
       with_reducible apply State.ordered)
    | refine pair_orderly (by assumption) ?_
    | assumption

theorem State.lseHandoff_orderly (s : State) (u : BitVec 16) (hs : s.orderly) : (State.lseHandoff s u).1.orderly := by
  unfold State.lseHandoff
  repeat' first
    | with_reducible assumption
    | with_reducible apply State.onLease_orderly
    | with_reducible apply ite_orderly
    | with_reducible apply ite_fst_orderly
    | (intro; intros)
    | split
    | dsimp only
    | (unfold State.orderly
       dsimp only
       with_reducible apply State.ordered)
    | refine pair_orderly (by assumption) ?_
    | assumption

theorem State.lseExpire_orderly (s : State) (hs : s.orderly) : (State.lseExpire s).1.orderly := by
  unfold State.lseExpire
  repeat' first
    | with_reducible assumption
    | with_reducible apply State.expireLease_orderly
    | with_reducible apply ite_orderly
    | with_reducible apply ite_fst_orderly
    | (intro; intros)
    | split
    | dsimp only
    | (unfold State.orderly
       dsimp only
       with_reducible apply State.ordered)
    | refine pair_orderly (by assumption) ?_
    | assumption

theorem State.lseCmd_orderly (s : State) (v : BitVec 64) (hs : s.orderly) : (State.lseCmd s v).1.orderly := by
  unfold State.lseCmd
  repeat' first
    | with_reducible assumption
    | with_reducible apply State.leaseEnds_orderly
    | with_reducible apply State.lseCreate_orderly
    | with_reducible apply State.lseDelete_orderly
    | with_reducible apply State.lseHandoff_orderly
    | with_reducible apply State.lseExpire_orderly
    | with_reducible apply ite_orderly
    | with_reducible apply ite_fst_orderly
    | (intro; intros)
    | split
    | dsimp only
    | (unfold State.orderly
       dsimp only
       with_reducible apply State.ordered)
    | refine pair_orderly (by assumption) ?_
    | assumption

theorem State.lseCmdWr_orderly (s : State) (tag : BitVec 16) (n : Nat) (hs : s.orderly) : (State.lseCmdWr s tag n).orderly := by
  unfold State.lseCmdWr
  repeat' first
    | with_reducible assumption
    | with_reducible apply State.adkWr_orderly
    | with_reducible apply State.lseCmd_orderly
    | with_reducible apply ite_orderly
    | with_reducible apply ite_fst_orderly
    | (intro; intros)
    | split
    | dsimp only
    | (unfold State.orderly
       dsimp only
       with_reducible apply State.ordered)
    | refine pair_orderly (by assumption) ?_
    | assumption

theorem execLseCreate_orderly (tag : BitVec 16) (s : State) (hs : s.orderly) : inOrder (execLseCreate tag s) := by
  unfold execLseCreate
  repeat' first
    | with_reducible assumption
    | with_reducible apply State.lseCmdWr_orderly
    | with_reducible apply ite_orderly
    | with_reducible apply ite_fst_orderly
    | with_reducible apply next_orderly
    | (intro; intros)
    | split
    | dsimp only
    | (unfold State.orderly
       dsimp only
       with_reducible apply State.ordered)
    | refine pair_orderly (by assumption) ?_
    | assumption

theorem execLseDelete_orderly (tag : BitVec 16) (s : State) (hs : s.orderly) : inOrder (execLseDelete tag s) := by
  unfold execLseDelete
  repeat' first
    | with_reducible assumption
    | with_reducible apply State.lseCmdWr_orderly
    | with_reducible apply ite_orderly
    | with_reducible apply ite_fst_orderly
    | with_reducible apply next_orderly
    | (intro; intros)
    | split
    | dsimp only
    | (unfold State.orderly
       dsimp only
       with_reducible apply State.ordered)
    | refine pair_orderly (by assumption) ?_
    | assumption

theorem execLseHandoff_orderly (tag : BitVec 16) (unit : BitVec 16) (s : State) (hs : s.orderly) : inOrder (execLseHandoff tag unit s) := by
  unfold execLseHandoff
  repeat' first
    | with_reducible assumption
    | with_reducible apply State.lseCmdWr_orderly
    | with_reducible apply ite_orderly
    | with_reducible apply ite_fst_orderly
    | with_reducible apply next_orderly
    | (intro; intros)
    | split
    | dsimp only
    | (unfold State.orderly
       dsimp only
       with_reducible apply State.ordered)
    | refine pair_orderly (by assumption) ?_
    | assumption

theorem execLseExpire_orderly (tag : BitVec 16) (s : State) (hs : s.orderly) : inOrder (execLseExpire tag s) := by
  unfold execLseExpire
  repeat' first
    | with_reducible assumption
    | with_reducible apply State.lseCmdWr_orderly
    | with_reducible apply ite_orderly
    | with_reducible apply ite_fst_orderly
    | with_reducible apply next_orderly
    | (intro; intros)
    | split
    | dsimp only
    | (unfold State.orderly
       dsimp only
       with_reducible apply State.ordered)
    | refine pair_orderly (by assumption) ?_
    | assumption

theorem State.lseEntry_orderly (s : State) (v : BitVec 64) (hs : s.orderly) : (State.lseEntry s v).1.orderly := by
  unfold State.lseEntry
  repeat' first
    | with_reducible assumption
    | with_reducible apply State.onLease_orderly
    | with_reducible apply ite_orderly
    | with_reducible apply ite_fst_orderly
    | (intro; intros)
    | split
    | dsimp only
    | (unfold State.orderly
       dsimp only
       with_reducible apply State.ordered)
    | refine pair_orderly (by assumption) ?_
    | assumption

theorem State.lseBounds_orderly (s : State) (v : BitVec 64) (hs : s.orderly) : (State.lseBounds s v).1.orderly := by
  unfold State.lseBounds
  repeat' first
    | with_reducible assumption
    | with_reducible apply ite_orderly
    | with_reducible apply ite_fst_orderly
    | (intro; intros)
    | split
    | dsimp only
    | (unfold State.orderly
       dsimp only
       with_reducible apply State.ordered)
    | refine pair_orderly (by assumption) ?_
    | assumption

theorem State.leaseRenew_orderly (s : State) (p : Nat) (f : Frame) (hs : s.orderly) : (State.leaseRenew s p f).orderly := by
  unfold State.leaseRenew
  repeat' first
    | with_reducible assumption
    | with_reducible apply State.countLse_orderly
    | with_reducible apply State.onLease_orderly
    | with_reducible apply State.sendFrom_orderly
    | with_reducible apply State.leaseEnds_orderly
    | with_reducible apply ite_orderly
    | with_reducible apply ite_fst_orderly
    | (intro; intros)
    | split
    | dsimp only
    | (unfold State.orderly
       dsimp only
       with_reducible apply State.ordered)
    | refine pair_orderly (by assumption) ?_
    | assumption

theorem State.unbindMeters_orderly (s : State) (r : Nat) (hs : s.orderly) : (State.unbindMeters s r).orderly := by
  unfold State.unbindMeters
  repeat' first
    | with_reducible assumption
    | with_reducible apply ite_orderly
    | with_reducible apply ite_fst_orderly
    | (intro; intros)
    | split
    | dsimp only
    | (unfold State.orderly
       dsimp only
       with_reducible apply State.ordered)
    | refine pair_orderly (by assumption) ?_
    | assumption

theorem State.bindMeters_orderly (s : State) (r : Nat) (hs : s.orderly) : (State.bindMeters s r).orderly := by
  unfold State.bindMeters
  repeat' first
    | with_reducible assumption
    | with_reducible apply State.onTc_orderly
    | with_reducible apply State.unbindMeters_orderly
    | with_reducible apply foldl_orderly
    | with_reducible apply foldl_fst_orderly
    | with_reducible apply ite_orderly
    | with_reducible apply ite_fst_orderly
    | (intro; intros)
    | split
    | dsimp only
    | (unfold State.orderly
       dsimp only
       with_reducible apply State.ordered)
    | refine pair_orderly (by assumption) ?_
    | assumption

theorem State.admCmd_orderly (s : State) (v : BitVec 64) (hs : s.orderly) : (State.admCmd s v).1.orderly := by
  unfold State.admCmd
  repeat' first
    | with_reducible assumption
    | with_reducible apply State.onAdm_orderly
    | with_reducible apply State.unbindMeters_orderly
    | with_reducible apply State.bindMeters_orderly
    | with_reducible apply ite_orderly
    | with_reducible apply ite_fst_orderly
    | (intro; intros)
    | split
    | dsimp only
    | (unfold State.orderly
       dsimp only
       with_reducible apply State.ordered)
    | refine pair_orderly (by assumption) ?_
    | assumption

theorem State.admCmdWr_orderly (s : State) (tag : BitVec 16) (op : Nat) (hs : s.orderly) : (State.admCmdWr s tag op).orderly := by
  unfold State.admCmdWr
  repeat' first
    | with_reducible assumption
    | with_reducible apply State.adkWr_orderly
    | with_reducible apply State.admCmd_orderly
    | with_reducible apply ite_orderly
    | with_reducible apply ite_fst_orderly
    | (intro; intros)
    | split
    | dsimp only
    | (unfold State.orderly
       dsimp only
       with_reducible apply State.ordered)
    | refine pair_orderly (by assumption) ?_
    | assumption

theorem execAdmAdmit_orderly (tag : BitVec 16) (s : State) (hs : s.orderly) : inOrder (execAdmAdmit tag s) := by
  unfold execAdmAdmit
  repeat' first
    | with_reducible assumption
    | with_reducible apply State.admCmdWr_orderly
    | with_reducible apply ite_orderly
    | with_reducible apply ite_fst_orderly
    | with_reducible apply next_orderly
    | (intro; intros)
    | split
    | dsimp only
    | (unfold State.orderly
       dsimp only
       with_reducible apply State.ordered)
    | refine pair_orderly (by assumption) ?_
    | assumption

theorem execAdmResize_orderly (tag : BitVec 16) (s : State) (hs : s.orderly) : inOrder (execAdmResize tag s) := by
  unfold execAdmResize
  repeat' first
    | with_reducible assumption
    | with_reducible apply State.admCmdWr_orderly
    | with_reducible apply ite_orderly
    | with_reducible apply ite_fst_orderly
    | with_reducible apply next_orderly
    | (intro; intros)
    | split
    | dsimp only
    | (unfold State.orderly
       dsimp only
       with_reducible apply State.ordered)
    | refine pair_orderly (by assumption) ?_
    | assumption

theorem execAdmRelease_orderly (tag : BitVec 16) (s : State) (hs : s.orderly) : inOrder (execAdmRelease tag s) := by
  unfold execAdmRelease
  repeat' first
    | with_reducible assumption
    | with_reducible apply State.admCmdWr_orderly
    | with_reducible apply ite_orderly
    | with_reducible apply ite_fst_orderly
    | with_reducible apply next_orderly
    | (intro; intros)
    | split
    | dsimp only
    | (unfold State.orderly
       dsimp only
       with_reducible apply State.ordered)
    | refine pair_orderly (by assumption) ?_
    | assumption

end Sys2Proof.Machine
end

