-- ==== Sys2Proof/Laws/KeepTiers.lean ====
section
/-! SUPPORT. Every operation of Tiers keeps the queues and memories in order. -/

set_option linter.unusedTactic false
set_option linter.unreachableTactic false
set_option linter.unusedVariables false

namespace Sys2Proof.Machine

theorem State.trnResult_orderly (s : State) (st : BitVec 6) (hs : s.orderly) : (State.trnResult s st).orderly := by
  unfold State.trnResult
  repeat' first
    | with_reducible assumption
    | with_reducible apply ite_orderly
    | with_reducible apply ite_fst_orderly
    | (intro; intros)
    | split
    | dsimp only
    | (unfold State.orderly
       dsimp only
       with_reducible apply State.ordered)
    | refine pair_orderly (by assumption) ?_
    | assumption

theorem State.trnDone_orderly (s : State) (st : BitVec 6) (hs : s.orderly) : (State.trnDone s st).1.orderly := by
  unfold State.trnDone
  repeat' first
    | with_reducible assumption
    | with_reducible apply State.trnResult_orderly
    | with_reducible apply ite_orderly
    | with_reducible apply ite_fst_orderly
    | (intro; intros)
    | split
    | dsimp only
    | (unfold State.orderly
       dsimp only
       with_reducible apply State.ordered)
    | refine pair_orderly (by assumption) ?_
    | assumption

theorem State.dropQueued_orderly (s : State) (hs : s.orderly) : (State.dropQueued s).orderly := by
  unfold State.dropQueued
  repeat' first
    | with_reducible assumption
    | with_reducible apply ite_orderly
    | with_reducible apply ite_fst_orderly
    | (intro; intros)
    | split
    | dsimp only
    | (unfold State.orderly
       dsimp only
       with_reducible apply State.ordered)
    | refine pair_orderly (by assumption) ?_
    | assumption

theorem State.halveHeat_orderly (s : State) (hs : s.orderly) : (State.halveHeat s).orderly := by
  unfold State.halveHeat
  repeat' first
    | with_reducible assumption
    | with_reducible apply ite_orderly
    | with_reducible apply ite_fst_orderly
    | (intro; intros)
    | split
    | dsimp only
    | (unfold State.orderly
       dsimp only
       with_reducible apply State.ordered)
    | refine pair_orderly (by assumption) ?_
    | assumption

theorem execHeatDecay_orderly (s : State) (hs : s.orderly) : inOrder (execHeatDecay s) := by
  unfold execHeatDecay
  repeat' first
    | with_reducible assumption
    | with_reducible apply State.paid_orderly
    | with_reducible apply State.decidePage_orderly
    | with_reducible apply State.dropQueued_orderly
    | with_reducible apply State.halveHeat_orderly
    | with_reducible apply foldl_orderly
    | with_reducible apply foldl_fst_orderly
    | with_reducible apply ite_orderly
    | with_reducible apply ite_fst_orderly
    | with_reducible apply next_orderly
    | (intro; intros)
    | split
    | dsimp only
    | (unfold State.orderly
       dsimp only
       with_reducible apply State.ordered)
    | refine pair_orderly (by assumption) ?_
    | assumption

theorem execMoveStart_orderly (page : BitVec 30) (s : State) (hs : s.orderly) : inOrder (execMoveStart page s) := by
  unfold execMoveStart
  repeat' first
    | with_reducible assumption
    | with_reducible apply State.beginMove_orderly
    | with_reducible apply ite_orderly
    | with_reducible apply ite_fst_orderly
    | with_reducible apply next_orderly
    | (intro; intros)
    | split
    | dsimp only
    | (unfold State.orderly
       dsimp only
       with_reducible apply State.ordered)
    | refine pair_orderly (by assumption) ?_
    | assumption

theorem State.moveOn_orderly (s : State) (page : Nat) (hs : s.orderly) : (State.moveOn s page).orderly := by
  unfold State.moveOn
  repeat' first
    | with_reducible assumption
    | with_reducible apply State.queueMove_orderly
    | with_reducible apply ite_orderly
    | with_reducible apply ite_fst_orderly
    | (intro; intros)
    | split
    | dsimp only
    | (unfold State.orderly
       dsimp only
       with_reducible apply State.ordered)
    | refine pair_orderly (by assumption) ?_
    | assumption

theorem execMoveComplete_orderly (page : BitVec 30) (s : State) (hs : s.orderly) : inOrder (execMoveComplete page s) := by
  unfold execMoveComplete
  repeat' first
    | with_reducible assumption
    | with_reducible apply State.wake_orderly
    | with_reducible apply State.endMove_orderly
    | with_reducible apply State.moveOn_orderly
    | with_reducible apply ite_orderly
    | with_reducible apply ite_fst_orderly
    | with_reducible apply next_orderly
    | (intro; intros)
    | split
    | dsimp only
    | (unfold State.orderly
       dsimp only
       with_reducible apply State.ordered)
    | refine pair_orderly (by assumption) ?_
    | assumption

theorem execPavilionWarm_orderly (pv : BitVec 6) (s : State) (hs : s.orderly) : inOrder (execPavilionWarm pv s) := by
  unfold execPavilionWarm
  repeat' first
    | with_reducible assumption
    | with_reducible apply ite_orderly
    | with_reducible apply ite_fst_orderly
    | with_reducible apply next_orderly
    | (intro; intros)
    | split
    | dsimp only
    | (unfold State.orderly
       dsimp only
       with_reducible apply State.ordered)
    | refine pair_orderly (by assumption) ?_
    | assumption

theorem State.dropTierMoves_orderly (s : State) (page : Nat) (hs : s.orderly) : (State.dropTierMoves s page).orderly := by
  unfold State.dropTierMoves
  repeat' first
    | with_reducible assumption
    | with_reducible apply ite_orderly
    | with_reducible apply ite_fst_orderly
    | (intro; intros)
    | split
    | dsimp only
    | (unfold State.orderly
       dsimp only
       with_reducible apply State.ordered)
    | refine pair_orderly (by assumption) ?_
    | assumption

theorem State.setPin_orderly (s : State) (page : Nat) (pin : BitVec 2) (hs : s.orderly) : (State.setPin s page pin).1.orderly := by
  unfold State.setPin
  repeat' first
    | with_reducible assumption
    | with_reducible apply State.onPage_orderly
    | with_reducible apply State.queueMove_orderly
    | with_reducible apply State.trnDone_orderly
    | with_reducible apply State.dropTierMoves_orderly
    | with_reducible apply ite_orderly
    | with_reducible apply ite_fst_orderly
    | (intro; intros)
    | split
    | dsimp only
    | (unfold State.orderly
       dsimp only
       with_reducible apply State.ordered)
    | refine pair_orderly (by assumption) ?_
    | assumption

theorem State.relocate_orderly (s : State) (page : Nat) (hs : s.orderly) : (State.relocate s page).1.orderly := by
  unfold State.relocate
  repeat' first
    | with_reducible assumption
    | with_reducible apply State.onPage_orderly
    | refine State.allocSlot_orderly _ _ ?_ (_, _, _) (by assumption)
    | with_reducible apply State.relocBlock_orderly
    | with_reducible apply State.trnDone_orderly
    | with_reducible apply ite_orderly
    | with_reducible apply ite_fst_orderly
    | (intro; intros)
    | split
    | dsimp only
    | (unfold State.orderly
       dsimp only
       with_reducible apply State.ordered)
    | refine pair_orderly (by assumption) ?_
    | assumption

theorem State.tpCmd_orderly (s : State) (v : BitVec 64) (hs : s.orderly) : (State.tpCmd s v).1.orderly := by
  unfold State.tpCmd
  repeat' first
    | with_reducible assumption
    | with_reducible apply State.trnDone_orderly
    | with_reducible apply State.setPin_orderly
    | with_reducible apply State.relocate_orderly
    | with_reducible apply ite_orderly
    | with_reducible apply ite_fst_orderly
    | (intro; intros)
    | split
    | dsimp only
    | (unfold State.orderly
       dsimp only
       with_reducible apply State.ordered)
    | refine pair_orderly (by assumption) ?_
    | assumption

theorem execTpSetpin_orderly (tag : BitVec 16) (pin : BitVec 2) (s : State) (hs : s.orderly) : inOrder (execTpSetpin tag pin s) := by
  unfold execTpSetpin
  repeat' first
    | with_reducible assumption
    | with_reducible apply State.adkWr_orderly
    | with_reducible apply State.tpCmd_orderly
    | with_reducible apply ite_orderly
    | with_reducible apply ite_fst_orderly
    | with_reducible apply next_orderly
    | (intro; intros)
    | split
    | dsimp only
    | (unfold State.orderly
       dsimp only
       with_reducible apply State.ordered)
    | refine pair_orderly (by assumption) ?_
    | assumption

theorem execTpRelocate_orderly (tag : BitVec 16) (s : State) (hs : s.orderly) : inOrder (execTpRelocate tag s) := by
  unfold execTpRelocate
  repeat' first
    | with_reducible assumption
    | with_reducible apply State.adkWr_orderly
    | with_reducible apply State.tpCmd_orderly
    | with_reducible apply ite_orderly
    | with_reducible apply ite_fst_orderly
    | with_reducible apply next_orderly
    | (intro; intros)
    | split
    | dsimp only
    | (unfold State.orderly
       dsimp only
       with_reducible apply State.ordered)
    | refine pair_orderly (by assumption) ?_
    | assumption

theorem State.evacuate_orderly (s : State) (t : Nat) (hs : s.orderly) : (State.evacuate s t).1.orderly := by
  unfold State.evacuate
  repeat' first
    | with_reducible assumption
    | with_reducible apply State.onTray_orderly
    | with_reducible apply State.queueMove_orderly
    | with_reducible apply State.trnDone_orderly
    | with_reducible apply foldl_orderly
    | with_reducible apply foldl_fst_orderly
    | with_reducible apply ite_orderly
    | with_reducible apply ite_fst_orderly
    | (intro; intros)
    | split
    | dsimp only
    | (unfold State.orderly
       dsimp only
       with_reducible apply State.ordered)
    | refine pair_orderly (by assumption) ?_
    | assumption

theorem State.retireTray_orderly (s : State) (t : Nat) (hs : s.orderly) : (State.retireTray s t).1.orderly := by
  unfold State.retireTray
  repeat' first
    | with_reducible assumption
    | with_reducible apply State.trayRetired_orderly
    | with_reducible apply State.trnDone_orderly
    | with_reducible apply ite_orderly
    | with_reducible apply ite_fst_orderly
    | (intro; intros)
    | split
    | dsimp only
    | (unfold State.orderly
       dsimp only
       with_reducible apply State.ordered)
    | refine pair_orderly (by assumption) ?_
    | assumption

theorem State.sanitizeTray_orderly (s : State) (t : Nat) (hs : s.orderly) : (State.sanitizeTray s t).1.orderly := by
  unfold State.sanitizeTray
  repeat' first
    | with_reducible assumption
    | with_reducible apply State.trnDone_orderly
    | with_reducible apply ite_orderly
    | with_reducible apply ite_fst_orderly
    | (intro; intros)
    | split
    | dsimp only
    | (unfold State.orderly
       dsimp only
       with_reducible apply State.ordered)
    | refine pair_orderly (by assumption) ?_
    | assumption

theorem State.trayCmd_orderly (s : State) (v : BitVec 64) (hs : s.orderly) : (State.trayCmd s v).1.orderly := by
  unfold State.trayCmd
  repeat' first
    | with_reducible assumption
    | with_reducible apply State.trnDone_orderly
    | with_reducible apply State.evacuate_orderly
    | with_reducible apply State.retireTray_orderly
    | with_reducible apply State.sanitizeTray_orderly
    | with_reducible apply ite_orderly
    | with_reducible apply ite_fst_orderly
    | (intro; intros)
    | split
    | dsimp only
    | (unfold State.orderly
       dsimp only
       with_reducible apply State.ordered)
    | refine pair_orderly (by assumption) ?_
    | assumption

theorem State.trayCmdWr_orderly (s : State) (tag : BitVec 16) (v : BitVec 64) (hs : s.orderly) : (State.trayCmdWr s tag v).orderly := by
  unfold State.trayCmdWr
  repeat' first
    | with_reducible assumption
    | with_reducible apply State.adkWr_orderly
    | with_reducible apply State.trayCmd_orderly
    | with_reducible apply ite_orderly
    | with_reducible apply ite_fst_orderly
    | (intro; intros)
    | split
    | dsimp only
    | (unfold State.orderly
       dsimp only
       with_reducible apply State.ordered)
    | refine pair_orderly (by assumption) ?_
    | assumption

theorem execTrayRetire_orderly (tag : BitVec 16) (s : State) (hs : s.orderly) : inOrder (execTrayRetire tag s) := by
  unfold execTrayRetire
  repeat' first
    | with_reducible assumption
    | with_reducible apply State.trayCmdWr_orderly
    | with_reducible apply ite_orderly
    | with_reducible apply ite_fst_orderly
    | with_reducible apply next_orderly
    | (intro; intros)
    | split
    | dsimp only
    | (unfold State.orderly
       dsimp only
       with_reducible apply State.ordered)
    | refine pair_orderly (by assumption) ?_
    | assumption

theorem execTrayEvacuate_orderly (tag : BitVec 16) (s : State) (hs : s.orderly) : inOrder (execTrayEvacuate tag s) := by
  unfold execTrayEvacuate
  repeat' first
    | with_reducible assumption
    | with_reducible apply State.trayCmdWr_orderly
    | with_reducible apply ite_orderly
    | with_reducible apply ite_fst_orderly
    | with_reducible apply next_orderly
    | (intro; intros)
    | split
    | dsimp only
    | (unfold State.orderly
       dsimp only
       with_reducible apply State.ordered)
    | refine pair_orderly (by assumption) ?_
    | assumption

theorem execTraySanitize_orderly (tag : BitVec 16) (s : State) (hs : s.orderly) : inOrder (execTraySanitize tag s) := by
  unfold execTraySanitize
  repeat' first
    | with_reducible assumption
    | with_reducible apply State.trayCmdWr_orderly
    | with_reducible apply ite_orderly
    | with_reducible apply ite_fst_orderly
    | with_reducible apply next_orderly
    | (intro; intros)
    | split
    | dsimp only
    | (unfold State.orderly
       dsimp only
       with_reducible apply State.ordered)
    | refine pair_orderly (by assumption) ?_
    | assumption

theorem execEvacuateComplete_orderly (tray : BitVec 9) (s : State) (hs : s.orderly) : inOrder (execEvacuateComplete tray s) := by
  unfold execEvacuateComplete
  repeat' first
    | with_reducible assumption
    | with_reducible apply State.trayRetired_orderly
    | with_reducible apply ite_orderly
    | with_reducible apply ite_fst_orderly
    | with_reducible apply next_orderly
    | (intro; intros)
    | split
    | dsimp only
    | (unfold State.orderly
       dsimp only
       with_reducible apply State.ordered)
    | refine pair_orderly (by assumption) ?_
    | assumption

theorem execBitmapRetryTimer_orderly (port : BitVec 8) (s : State) (hs : s.orderly) : inOrder (execBitmapRetryTimer port s) := by
  unfold execBitmapRetryTimer
  repeat' first
    | with_reducible assumption
    | with_reducible apply State.writeBitmap_orderly
    | with_reducible apply ite_orderly
    | with_reducible apply ite_fst_orderly
    | with_reducible apply next_orderly
    | (intro; intros)
    | split
    | dsimp only
    | (unfold State.orderly
       dsimp only
       with_reducible apply State.ordered)
    | refine pair_orderly (by assumption) ?_
    | assumption

theorem State.bridgeUp_orderly (s : State) (b : Nat) (dev : CxlDevice) (hs : s.orderly) : (State.bridgeUp s b dev).orderly := by
  unfold State.bridgeUp
  repeat' first
    | with_reducible assumption
    | with_reducible apply State.event_orderly
    | with_reducible apply State.onTray_orderly
    | with_reducible apply State.trayTo_orderly
    | with_reducible apply State.discovered_orderly
    | with_reducible apply State.trayBack_orderly
    | with_reducible apply State.trayRetired_orderly
    | with_reducible apply ite_orderly
    | with_reducible apply ite_fst_orderly
    | (intro; intros)
    | split
    | dsimp only
    | (unfold State.orderly
       dsimp only
       with_reducible apply State.ordered)
    | refine pair_orderly (by assumption) ?_
    | assumption

theorem execBridgeLinkActive_orderly (b : BitVec 4) (dev : CxlDevice) (s : State) (hs : s.orderly) : inOrder (execBridgeLinkActive b dev s) := by
  unfold execBridgeLinkActive
  repeat' first
    | with_reducible assumption
    | with_reducible apply State.bridgeUp_orderly
    | with_reducible apply ite_orderly
    | with_reducible apply ite_fst_orderly
    | with_reducible apply next_orderly
    | (intro; intros)
    | split
    | dsimp only
    | (unfold State.orderly
       dsimp only
       with_reducible apply State.ordered)
    | refine pair_orderly (by assumption) ?_
    | assumption

theorem execBridgeLinkDown_orderly (b : BitVec 4) (s : State) (hs : s.orderly) : inOrder (execBridgeLinkDown b s) := by
  unfold execBridgeLinkDown
  repeat' first
    | with_reducible assumption
    | with_reducible apply State.onTray_orderly
    | with_reducible apply State.trayGone_orderly
    | with_reducible apply ite_orderly
    | with_reducible apply ite_fst_orderly
    | with_reducible apply next_orderly
    | (intro; intros)
    | split
    | dsimp only
    | (unfold State.orderly
       dsimp only
       with_reducible apply State.ordered)
    | refine pair_orderly (by assumption) ?_
    | assumption

theorem execCxlCompletion_orderly (b : BitVec 4) (tag : BitVec 13) (data : List Byte) (poison : BitVec 32) (s : State) (hs : s.orderly) : inOrder (execCxlCompletion b tag data poison s) := by
  unfold execCxlCompletion
  repeat' first
    | with_reducible assumption
    | with_reducible apply State.trayAnswer_orderly
    | with_reducible apply ite_orderly
    | with_reducible apply ite_fst_orderly
    | with_reducible apply next_orderly
    | (intro; intros)
    | split
    | dsimp only
    | (unfold State.orderly
       dsimp only
       with_reducible apply State.ordered)
    | refine pair_orderly (by assumption) ?_
    | assumption

theorem execCxlCompletionTimeout_orderly (b : BitVec 4) (tag : BitVec 13) (s : State) (hs : s.orderly) : inOrder (execCxlCompletionTimeout b tag s) := by
  unfold execCxlCompletionTimeout
  repeat' first
    | with_reducible assumption
    | with_reducible apply State.logE_orderly
    | with_reducible apply State.onTray_orderly
    | with_reducible apply State.trayGone_orderly
    | with_reducible apply ite_orderly
    | with_reducible apply ite_fst_orderly
    | with_reducible apply next_orderly
    | (intro; intros)
    | split
    | dsimp only
    | (unfold State.orderly
       dsimp only
       with_reducible apply State.ordered)
    | refine pair_orderly (by assumption) ?_
    | assumption

theorem State.mediaLine_orderly (s : State) (b : Nat) (line : Nat) (hs : s.orderly) : (State.mediaLine s b line).orderly := by
  unfold State.mediaLine
  repeat' first
    | with_reducible assumption
    | with_reducible apply State.logE_orderly
    | with_reducible apply State.poisonLine_orderly
    | with_reducible apply ite_orderly
    | with_reducible apply ite_fst_orderly
    | (intro; intros)
    | split
    | dsimp only
    | (unfold State.orderly
       dsimp only
       with_reducible apply State.ordered)
    | refine pair_orderly (by assumption) ?_
    | assumption

theorem execCxlMediaEvent_orderly (b : BitVec 4) (lines : List (BitVec 46)) (s : State) (hs : s.orderly) : inOrder (execCxlMediaEvent b lines s) := by
  unfold execCxlMediaEvent
  repeat' first
    | with_reducible assumption
    | with_reducible apply State.mediaLine_orderly
    | with_reducible apply foldl_orderly
    | with_reducible apply foldl_fst_orderly
    | with_reducible apply ite_orderly
    | with_reducible apply ite_fst_orderly
    | with_reducible apply next_orderly
    | (intro; intros)
    | split
    | dsimp only
    | (unfold State.orderly
       dsimp only
       with_reducible apply State.ordered)
    | refine pair_orderly (by assumption) ?_
    | assumption

theorem State.invGo_orderly (s : State) (v : BitVec 64) (hs : s.orderly) : (State.invGo s v).1.orderly := by
  unfold State.invGo
  repeat' first
    | with_reducible assumption
    | with_reducible apply State.purge_orderly
    | with_reducible apply ite_orderly
    | with_reducible apply ite_fst_orderly
    | (intro; intros)
    | split
    | dsimp only
    | (unfold State.orderly
       dsimp only
       with_reducible apply State.ordered)
    | refine pair_orderly (by assumption) ?_
    | assumption

theorem execTrnInvGo_orderly (tag : BitVec 16) (s : State) (hs : s.orderly) : inOrder (execTrnInvGo tag s) := by
  unfold execTrnInvGo
  repeat' first
    | with_reducible assumption
    | with_reducible apply State.adkWr_orderly
    | with_reducible apply State.invGo_orderly
    | with_reducible apply ite_orderly
    | with_reducible apply ite_fst_orderly
    | with_reducible apply next_orderly
    | (intro; intros)
    | split
    | dsimp only
    | (unfold State.orderly
       dsimp only
       with_reducible apply State.ordered)
    | refine pair_orderly (by assumption) ?_
    | assumption

theorem execInvalidationComplete_orderly (s : State) (hs : s.orderly) : inOrder (execInvalidationComplete s) := by
  unfold execInvalidationComplete
  repeat' first
    | with_reducible assumption
    | with_reducible apply ite_orderly
    | with_reducible apply ite_fst_orderly
    | with_reducible apply next_orderly
    | (intro; intros)
    | split
    | dsimp only
    | (unfold State.orderly
       dsimp only
       with_reducible apply State.ordered)
    | refine pair_orderly (by assumption) ?_
    | assumption

theorem State.debugNote_orderly (s : State) (sec : Bool) (a : Nat) (write : Bool) (hs : s.orderly) : (State.debugNote s sec a write).orderly := by
  unfold State.debugNote
  repeat' first
    | with_reducible assumption
    | with_reducible apply State.logE_orderly
    | with_reducible apply State.countSec_orderly
    | with_reducible apply State.onTenant_orderly
    | with_reducible apply ite_orderly
    | with_reducible apply ite_fst_orderly
    | (intro; intros)
    | split
    | dsimp only
    | (unfold State.orderly
       dsimp only
       with_reducible apply State.ordered)
    | refine pair_orderly (by assumption) ?_
    | assumption

theorem State.homeAccess_orderly (s : State) (o : Origin) (a : Nat) (write : Option Nat) (hs : s.orderly) : (State.homeAccess s o a write).1.orderly := by
  unfold State.homeAccess
  repeat' first
    | with_reducible assumption
    | with_reducible apply State.addReq_orderly
    | with_reducible apply State.finish_orderly
    | with_reducible apply State.serve_orderly
    | with_reducible apply State.debugNote_orderly
    | with_reducible apply ite_orderly
    | with_reducible apply ite_fst_orderly
    | (intro; intros)
    | split
    | dsimp only
    | (unfold State.orderly
       dsimp only
       with_reducible apply State.ordered)
    | refine pair_orderly (by assumption) ?_
    | assumption

theorem State.ptwStart_orderly (s : State) (q : AdkFrame) (write : Option (BitVec 64)) (hs : s.orderly) : (State.ptwStart s q write).orderly := by
  unfold State.ptwStart
  repeat' first
    | with_reducible assumption
    | with_reducible apply State.adkFail_orderly
    | with_reducible apply State.trnResult_orderly
    | with_reducible apply State.homeAccess_orderly
    | with_reducible apply ite_orderly
    | with_reducible apply ite_fst_orderly
    | (intro; intros)
    | split
    | dsimp only
    | (unfold State.orderly
       dsimp only
       with_reducible apply State.ordered)
    | refine pair_orderly (by assumption) ?_
    | assumption

theorem execPtwRead_orderly (tag : BitVec 16) (s : State) (hs : s.orderly) : inOrder (execPtwRead tag s) := by
  unfold execPtwRead
  repeat' first
    | with_reducible assumption
    | with_reducible apply State.adkRequest_orderly
    | with_reducible apply State.ptwStart_orderly
    | with_reducible apply ite_orderly
    | with_reducible apply ite_fst_orderly
    | with_reducible apply next_orderly
    | (intro; intros)
    | split
    | dsimp only
    | (unfold State.orderly
       dsimp only
       with_reducible apply State.ordered)
    | refine pair_orderly (by assumption) ?_
    | assumption

theorem execPtwWrite_orderly (tag : BitVec 16) (value : BitVec 64) (s : State) (hs : s.orderly) : inOrder (execPtwWrite tag value s) := by
  unfold execPtwWrite
  repeat' first
    | with_reducible assumption
    | with_reducible apply State.adkRequest_orderly
    | with_reducible apply State.ptwStart_orderly
    | with_reducible apply ite_orderly
    | with_reducible apply ite_fst_orderly
    | with_reducible apply next_orderly
    | (intro; intros)
    | split
    | dsimp only
    | (unfold State.orderly
       dsimp only
       with_reducible apply State.ordered)
    | refine pair_orderly (by assumption) ?_
    | assumption

theorem State.trnRoot_orderly (s : State) (v : BitVec 64) (hs : s.orderly) : (State.trnRoot s v).1.orderly := by
  unfold State.trnRoot
  repeat' first
    | with_reducible assumption
    | with_reducible apply ite_orderly
    | with_reducible apply ite_fst_orderly
    | (intro; intros)
    | split
    | dsimp only
    | (unfold State.orderly
       dsimp only
       with_reducible apply State.ordered)
    | refine pair_orderly (by assumption) ?_
    | assumption

theorem State.trnMigCfg_orderly (s : State) (v : BitVec 64) (hs : s.orderly) : (State.trnMigCfg s v).1.orderly := by
  unfold State.trnMigCfg
  repeat' first
    | with_reducible assumption
    | with_reducible apply State.owing_orderly
    | with_reducible apply ite_orderly
    | with_reducible apply ite_fst_orderly
    | (intro; intros)
    | split
    | dsimp only
    | (unfold State.orderly
       dsimp only
       with_reducible apply State.ordered)
    | refine pair_orderly (by assumption) ?_
    | assumption

theorem State.trnMigWarm_orderly (s : State) (v : BitVec 64) (hs : s.orderly) : (State.trnMigWarm s v).1.orderly := by
  unfold State.trnMigWarm
  repeat' first
    | with_reducible assumption
    | with_reducible apply ite_orderly
    | with_reducible apply ite_fst_orderly
    | (intro; intros)
    | split
    | dsimp only
    | (unfold State.orderly
       dsimp only
       with_reducible apply State.ordered)
    | refine pair_orderly (by assumption) ?_
    | assumption

theorem State.trnBrCfg_orderly (s : State) (v : BitVec 64) (hs : s.orderly) : (State.trnBrCfg s v).1.orderly := by
  unfold State.trnBrCfg
  repeat' first
    | with_reducible assumption
    | with_reducible apply ite_orderly
    | with_reducible apply ite_fst_orderly
    | (intro; intros)
    | split
    | dsimp only
    | (unfold State.orderly
       dsimp only
       with_reducible apply State.ordered)
    | refine pair_orderly (by assumption) ?_
    | assumption

end Sys2Proof.Machine
end

