-- ==== Sys2Proof/Laws/KeepThreads.lean ====
section
/-! SUPPORT. Every operation of Threads keeps the queues and memories in order. -/

set_option linter.unusedTactic false
set_option linter.unreachableTactic false
set_option linter.unusedVariables false

namespace Sys2Proof.Machine

theorem State.faultThread_orderly (s : State) (k : Nat) (t : Nat) (cause : Nat) (pc : BitVec 64) (hs : s.orderly) : (State.faultThread s k t cause pc).orderly := by
  unfold State.faultThread
  repeat' first
    | with_reducible assumption
    | with_reducible apply State.logWith_orderly
    | with_reducible apply State.onCore_orderly
    | with_reducible apply State.onThread_orderly
    | with_reducible apply ite_orderly
    | with_reducible apply ite_fst_orderly
    | (intro; intros)
    | split
    | dsimp only
    | (unfold State.orderly
       dsimp only
       with_reducible apply State.ordered)
    | refine pair_orderly (by assumption) ?_
    | assumption

theorem State.issue_orderly (s : State) (k : Nat) (t : Nat) (reads : List Nat) (need : Nat) (body : State → State) (hs : s.orderly) (hbody : ∀ (a0 : State), a0.orderly → (body a0).orderly) : inOrder (State.issue s k t reads need body) := by
  unfold State.issue
  repeat' first
    | with_reducible assumption
    | with_reducible apply State.onCore_orderly
    | with_reducible apply State.onThread_orderly
    | with_reducible apply State.faultThread_orderly
    | with_reducible apply hbody
    | with_reducible apply ite_orderly
    | with_reducible apply ite_fst_orderly
    | with_reducible apply next_orderly
    | (intro; intros)
    | split
    | dsimp only
    | (unfold State.orderly
       dsimp only
       with_reducible apply State.ordered)
    | refine pair_orderly (by assumption) ?_
    | assumption

theorem State.putReg_orderly (s : State) (k : Nat) (t : Nat) (r : Nat) (v : BitVec 64) (hs : s.orderly) : (State.putReg s k t r v).orderly := by
  unfold State.putReg
  repeat' first
    | with_reducible assumption
    | with_reducible apply State.onThread_orderly
    | with_reducible apply ite_orderly
    | with_reducible apply ite_fst_orderly
    | (intro; intros)
    | split
    | dsimp only
    | (unfold State.orderly
       dsimp only
       with_reducible apply State.ordered)
    | refine pair_orderly (by assumption) ?_
    | assumption

theorem State.setStatus_orderly (s : State) (k : Nat) (t : Nat) (st : BitVec 6) (tva : BitVec 56) (hs : s.orderly) : (State.setStatus s k t st tva).orderly := by
  unfold State.setStatus
  repeat' first
    | with_reducible assumption
    | with_reducible apply State.onThread_orderly
    | with_reducible apply ite_orderly
    | with_reducible apply ite_fst_orderly
    | (intro; intros)
    | split
    | dsimp only
    | (unfold State.orderly
       dsimp only
       with_reducible apply State.ordered)
    | refine pair_orderly (by assumption) ?_
    | assumption

theorem State.park_orderly (s : State) (k : Nat) (t : Nat) (g : ThreadState) (w : Wait) (hs : s.orderly) : (State.park s k t g w).orderly := by
  unfold State.park
  repeat' first
    | with_reducible assumption
    | with_reducible apply State.onThread_orderly
    | with_reducible apply ite_orderly
    | with_reducible apply ite_fst_orderly
    | (intro; intros)
    | split
    | dsimp only
    | (unfold State.orderly
       dsimp only
       with_reducible apply State.ordered)
    | refine pair_orderly (by assumption) ?_
    | assumption

theorem State.faultHere_orderly (s : State) (k : Nat) (t : Nat) (cause : Nat) (hs : s.orderly) : (State.faultHere s k t cause).orderly := by
  unfold State.faultHere
  repeat' first
    | with_reducible assumption
    | with_reducible apply State.faultThread_orderly
    | with_reducible apply ite_orderly
    | with_reducible apply ite_fst_orderly
    | (intro; intros)
    | split
    | dsimp only
    | (unfold State.orderly
       dsimp only
       with_reducible apply State.ordered)
    | refine pair_orderly (by assumption) ?_
    | assumption

theorem execNop_orderly (core : BitVec 10) (tid : BitVec 6) (_ins : Ins) (s : State) (hs : s.orderly) : inOrder (execNop core tid _ins s) := by
  unfold execNop
  repeat' first
    | with_reducible assumption
    | with_reducible apply State.issue_orderly
    | with_reducible apply ite_orderly
    | with_reducible apply ite_fst_orderly
    | with_reducible apply next_orderly
    | (intro; intros)
    | split
    | dsimp only
    | (unfold State.orderly
       dsimp only
       with_reducible apply State.ordered)
    | refine pair_orderly (by assumption) ?_
    | assumption

theorem execAlu_orderly (core : BitVec 10) (tid : BitVec 6) (ins : Ins) (s : State) (hs : s.orderly) : inOrder (execAlu core tid ins s) := by
  unfold execAlu
  repeat' first
    | with_reducible assumption
    | with_reducible apply State.issue_orderly
    | with_reducible apply State.putReg_orderly
    | with_reducible apply ite_orderly
    | with_reducible apply ite_fst_orderly
    | with_reducible apply next_orderly
    | (intro; intros)
    | split
    | dsimp only
    | (unfold State.orderly
       dsimp only
       with_reducible apply State.ordered)
    | refine pair_orderly (by assumption) ?_
    | assumption

theorem execAlui_orderly (core : BitVec 10) (tid : BitVec 6) (ins : Ins) (s : State) (hs : s.orderly) : inOrder (execAlui core tid ins s) := by
  unfold execAlui
  repeat' first
    | with_reducible assumption
    | with_reducible apply State.issue_orderly
    | with_reducible apply State.putReg_orderly
    | with_reducible apply ite_orderly
    | with_reducible apply ite_fst_orderly
    | with_reducible apply next_orderly
    | (intro; intros)
    | split
    | dsimp only
    | (unfold State.orderly
       dsimp only
       with_reducible apply State.ordered)
    | refine pair_orderly (by assumption) ?_
    | assumption

theorem execMovi_orderly (core : BitVec 10) (tid : BitVec 6) (ins : Ins) (s : State) (hs : s.orderly) : inOrder (execMovi core tid ins s) := by
  unfold execMovi
  repeat' first
    | with_reducible assumption
    | with_reducible apply State.issue_orderly
    | with_reducible apply State.putReg_orderly
    | with_reducible apply ite_orderly
    | with_reducible apply ite_fst_orderly
    | with_reducible apply next_orderly
    | (intro; intros)
    | split
    | dsimp only
    | (unfold State.orderly
       dsimp only
       with_reducible apply State.ordered)
    | refine pair_orderly (by assumption) ?_
    | assumption

theorem execMovhi_orderly (core : BitVec 10) (tid : BitVec 6) (ins : Ins) (s : State) (hs : s.orderly) : inOrder (execMovhi core tid ins s) := by
  unfold execMovhi
  repeat' first
    | with_reducible assumption
    | with_reducible apply State.issue_orderly
    | with_reducible apply State.putReg_orderly
    | with_reducible apply ite_orderly
    | with_reducible apply ite_fst_orderly
    | with_reducible apply next_orderly
    | (intro; intros)
    | split
    | dsimp only
    | (unfold State.orderly
       dsimp only
       with_reducible apply State.ordered)
    | refine pair_orderly (by assumption) ?_
    | assumption

theorem execBr_orderly (core : BitVec 10) (tid : BitVec 6) (ins : Ins) (s : State) (hs : s.orderly) : inOrder (execBr core tid ins s) := by
  unfold execBr
  repeat' first
    | with_reducible assumption
    | with_reducible apply State.onThread_orderly
    | with_reducible apply State.issue_orderly
    | with_reducible apply State.faultHere_orderly
    | with_reducible apply ite_orderly
    | with_reducible apply ite_fst_orderly
    | with_reducible apply next_orderly
    | (intro; intros)
    | split
    | dsimp only
    | (unfold State.orderly
       dsimp only
       with_reducible apply State.ordered)
    | refine pair_orderly (by assumption) ?_
    | assumption

theorem execJal_orderly (core : BitVec 10) (tid : BitVec 6) (ins : Ins) (s : State) (hs : s.orderly) : inOrder (execJal core tid ins s) := by
  unfold execJal
  repeat' first
    | with_reducible assumption
    | with_reducible apply State.onThread_orderly
    | with_reducible apply State.issue_orderly
    | with_reducible apply State.putReg_orderly
    | with_reducible apply ite_orderly
    | with_reducible apply ite_fst_orderly
    | with_reducible apply next_orderly
    | (intro; intros)
    | split
    | dsimp only
    | (unfold State.orderly
       dsimp only
       with_reducible apply State.ordered)
    | refine pair_orderly (by assumption) ?_
    | assumption

theorem execGets_orderly (core : BitVec 10) (tid : BitVec 6) (ins : Ins) (s : State) (hs : s.orderly) : inOrder (execGets core tid ins s) := by
  unfold execGets
  repeat' first
    | with_reducible assumption
    | with_reducible apply State.onThread_orderly
    | with_reducible apply State.issue_orderly
    | with_reducible apply State.putReg_orderly
    | with_reducible apply ite_orderly
    | with_reducible apply ite_fst_orderly
    | with_reducible apply next_orderly
    | (intro; intros)
    | split
    | dsimp only
    | (unfold State.orderly
       dsimp only
       with_reducible apply State.ordered)
    | refine pair_orderly (by assumption) ?_
    | assumption

theorem execIllegalInstruction_orderly (core : BitVec 10) (tid : BitVec 6) (word : BitVec 64) (s : State) (hs : s.orderly) : inOrder (execIllegalInstruction core tid word s) := by
  unfold execIllegalInstruction
  repeat' first
    | with_reducible assumption
    | with_reducible apply State.issue_orderly
    | with_reducible apply State.faultHere_orderly
    | with_reducible apply ite_orderly
    | with_reducible apply ite_fst_orderly
    | with_reducible apply next_orderly
    | (intro; intros)
    | split
    | dsimp only
    | (unfold State.orderly
       dsimp only
       with_reducible apply State.ordered)
    | refine pair_orderly (by assumption) ?_
    | assumption

theorem execLdl_orderly (core : BitVec 10) (tid : BitVec 6) (ins : Ins) (s : State) (hs : s.orderly) : inOrder (execLdl core tid ins s) := by
  unfold execLdl
  repeat' first
    | with_reducible assumption
    | with_reducible apply State.issue_orderly
    | with_reducible apply State.putReg_orderly
    | with_reducible apply State.faultHere_orderly
    | with_reducible apply ite_orderly
    | with_reducible apply ite_fst_orderly
    | with_reducible apply next_orderly
    | (intro; intros)
    | split
    | dsimp only
    | (unfold State.orderly
       dsimp only
       with_reducible apply State.ordered)
    | refine pair_orderly (by assumption) ?_
    | assumption

theorem execStl_orderly (core : BitVec 10) (tid : BitVec 6) (ins : Ins) (s : State) (hs : s.orderly) : inOrder (execStl core tid ins s) := by
  unfold execStl
  repeat' first
    | with_reducible assumption
    | with_reducible apply State.localWrite_orderly
    | with_reducible apply State.issue_orderly
    | with_reducible apply State.faultHere_orderly
    | with_reducible apply ite_orderly
    | with_reducible apply ite_fst_orderly
    | with_reducible apply next_orderly
    | (intro; intros)
    | split
    | dsimp only
    | (unfold State.orderly
       dsimp only
       with_reducible apply State.ordered)
    | refine pair_orderly (by assumption) ?_
    | assumption

theorem execAtl_orderly (core : BitVec 10) (tid : BitVec 6) (ins : Ins) (s : State) (hs : s.orderly) : inOrder (execAtl core tid ins s) := by
  unfold execAtl
  repeat' first
    | with_reducible assumption
    | with_reducible apply State.localWrite_orderly
    | with_reducible apply State.issue_orderly
    | with_reducible apply State.putReg_orderly
    | with_reducible apply State.faultHere_orderly
    | with_reducible apply ite_orderly
    | with_reducible apply ite_fst_orderly
    | with_reducible apply next_orderly
    | (intro; intros)
    | split
    | dsimp only
    | (unfold State.orderly
       dsimp only
       with_reducible apply State.ordered)
    | refine pair_orderly (by assumption) ?_
    | assumption

theorem execCopyl_orderly (core : BitVec 10) (tid : BitVec 6) (ins : Ins) (s : State) (hs : s.orderly) : inOrder (execCopyl core tid ins s) := by
  unfold execCopyl
  repeat' first
    | with_reducible assumption
    | with_reducible apply State.issue_orderly
    | with_reducible apply State.park_orderly
    | with_reducible apply State.faultHere_orderly
    | with_reducible apply ite_orderly
    | with_reducible apply ite_fst_orderly
    | with_reducible apply next_orderly
    | (intro; intros)
    | split
    | dsimp only
    | (unfold State.orderly
       dsimp only
       with_reducible apply State.ordered)
    | refine pair_orderly (by assumption) ?_
    | assumption

theorem execCopylComplete_orderly (core : BitVec 10) (tid : BitVec 6) (s : State) (hs : s.orderly) : inOrder (execCopylComplete core tid s) := by
  unfold execCopylComplete
  repeat' first
    | with_reducible assumption
    | with_reducible apply State.localWrite_orderly
    | with_reducible apply State.park_orderly
    | with_reducible apply ite_orderly
    | with_reducible apply ite_fst_orderly
    | with_reducible apply next_orderly
    | (intro; intros)
    | split
    | dsimp only
    | (unfold State.orderly
       dsimp only
       with_reducible apply State.ordered)
    | refine pair_orderly (by assumption) ?_
    | assumption

theorem State.coreSend_orderly (s : State) (k : Nat) (t : Nat) (sink : ThreadSink) (f : Frame) (hs : s.orderly) : (State.coreSend s k t sink f).orderly := by
  unfold State.coreSend
  repeat' first
    | with_reducible assumption
    | with_reducible apply State.onCore_orderly
    | with_reducible apply State.onThread_orderly
    | with_reducible apply State.accept_orderly
    | with_reducible apply ite_orderly
    | with_reducible apply ite_fst_orderly
    | (intro; intros)
    | split
    | dsimp only
    | (unfold State.orderly
       dsimp only
       with_reducible apply State.ordered)
    | refine pair_orderly (by assumption) ?_
    | assumption

theorem execPldx_orderly (core : BitVec 10) (tid : BitVec 6) (ins : Ins) (s : State) (hs : s.orderly) : inOrder (execPldx core tid ins s) := by
  unfold execPldx
  repeat' first
    | with_reducible assumption
    | with_reducible apply State.onThread_orderly
    | with_reducible apply State.issue_orderly
    | with_reducible apply State.putReg_orderly
    | with_reducible apply State.setStatus_orderly
    | with_reducible apply State.coreSend_orderly
    | with_reducible apply ite_orderly
    | with_reducible apply ite_fst_orderly
    | with_reducible apply next_orderly
    | (intro; intros)
    | split
    | dsimp only
    | (unfold State.orderly
       dsimp only
       with_reducible apply State.ordered)
    | refine pair_orderly (by assumption) ?_
    | assumption

theorem execPstx_orderly (core : BitVec 10) (tid : BitVec 6) (ins : Ins) (s : State) (hs : s.orderly) : inOrder (execPstx core tid ins s) := by
  unfold execPstx
  repeat' first
    | with_reducible assumption
    | with_reducible apply State.issue_orderly
    | with_reducible apply State.setStatus_orderly
    | with_reducible apply State.coreSend_orderly
    | with_reducible apply ite_orderly
    | with_reducible apply ite_fst_orderly
    | with_reducible apply next_orderly
    | (intro; intros)
    | split
    | dsimp only
    | (unfold State.orderly
       dsimp only
       with_reducible apply State.ordered)
    | refine pair_orderly (by assumption) ?_
    | assumption

theorem execPld_orderly (core : BitVec 10) (tid : BitVec 6) (ins : Ins) (s : State) (hs : s.orderly) : inOrder (execPld core tid ins s) := by
  unfold execPld
  repeat' first
    | with_reducible assumption
    | with_reducible apply State.issue_orderly
    | with_reducible apply State.setStatus_orderly
    | with_reducible apply State.faultHere_orderly
    | with_reducible apply State.coreSend_orderly
    | with_reducible apply foldl_orderly
    | with_reducible apply foldl_fst_orderly
    | with_reducible apply ite_orderly
    | with_reducible apply ite_fst_orderly
    | with_reducible apply next_orderly
    | (intro; intros)
    | split
    | dsimp only
    | (unfold State.orderly
       dsimp only
       with_reducible apply State.ordered)
    | refine pair_orderly (by assumption) ?_
    | assumption

theorem execPst_orderly (core : BitVec 10) (tid : BitVec 6) (ins : Ins) (s : State) (hs : s.orderly) : inOrder (execPst core tid ins s) := by
  unfold execPst
  repeat' first
    | with_reducible assumption
    | with_reducible apply State.issue_orderly
    | with_reducible apply State.setStatus_orderly
    | with_reducible apply State.faultHere_orderly
    | with_reducible apply State.coreSend_orderly
    | with_reducible apply foldl_orderly
    | with_reducible apply foldl_fst_orderly
    | with_reducible apply ite_orderly
    | with_reducible apply ite_fst_orderly
    | with_reducible apply next_orderly
    | (intro; intros)
    | split
    | dsimp only
    | (unfold State.orderly
       dsimp only
       with_reducible apply State.ordered)
    | refine pair_orderly (by assumption) ?_
    | assumption

theorem execPatm_orderly (core : BitVec 10) (tid : BitVec 6) (ins : Ins) (s : State) (hs : s.orderly) : inOrder (execPatm core tid ins s) := by
  unfold execPatm
  repeat' first
    | with_reducible assumption
    | with_reducible apply State.onThread_orderly
    | with_reducible apply State.issue_orderly
    | with_reducible apply State.faultHere_orderly
    | with_reducible apply State.coreSend_orderly
    | with_reducible apply ite_orderly
    | with_reducible apply ite_fst_orderly
    | with_reducible apply next_orderly
    | (intro; intros)
    | split
    | dsimp only
    | (unfold State.orderly
       dsimp only
       with_reducible apply State.ordered)
    | refine pair_orderly (by assumption) ?_
    | assumption

theorem State.settleThread_orderly (s : State) (k : Nat) (t : Nat) (hs : s.orderly) : (State.settleThread s k t).orderly := by
  unfold State.settleThread
  repeat' first
    | with_reducible assumption
    | with_reducible apply State.onThread_orderly
    | with_reducible apply State.park_orderly
    | with_reducible apply ite_orderly
    | with_reducible apply ite_fst_orderly
    | (intro; intros)
    | split
    | dsimp only
    | (unfold State.orderly
       dsimp only
       with_reducible apply State.ordered)
    | refine pair_orderly (by assumption) ?_
    | assumption

theorem execCoreFence_orderly (core : BitVec 10) (tid : BitVec 6) (_ins : Ins) (s : State) (hs : s.orderly) : inOrder (execCoreFence core tid _ins s) := by
  unfold execCoreFence
  repeat' first
    | with_reducible assumption
    | with_reducible apply State.issue_orderly
    | with_reducible apply State.park_orderly
    | with_reducible apply State.settleThread_orderly
    | with_reducible apply ite_orderly
    | with_reducible apply ite_fst_orderly
    | with_reducible apply next_orderly
    | (intro; intros)
    | split
    | dsimp only
    | (unfold State.orderly
       dsimp only
       with_reducible apply State.ordered)
    | refine pair_orderly (by assumption) ?_
    | assumption

theorem execAcquire_orderly (core : BitVec 10) (tid : BitVec 6) (_ins : Ins) (s : State) (hs : s.orderly) : inOrder (execAcquire core tid _ins s) := by
  unfold execAcquire
  repeat' first
    | with_reducible assumption
    | with_reducible apply State.onCore_orderly
    | with_reducible apply State.issue_orderly
    | with_reducible apply ite_orderly
    | with_reducible apply ite_fst_orderly
    | with_reducible apply next_orderly
    | (intro; intros)
    | split
    | dsimp only
    | (unfold State.orderly
       dsimp only
       with_reducible apply State.ordered)
    | refine pair_orderly (by assumption) ?_
    | assumption

theorem execWaite_orderly (core : BitVec 10) (tid : BitVec 6) (ins : Ins) (s : State) (hs : s.orderly) : inOrder (execWaite core tid ins s) := by
  unfold execWaite
  repeat' first
    | with_reducible assumption
    | with_reducible apply State.issue_orderly
    | with_reducible apply State.park_orderly
    | with_reducible apply State.settleThread_orderly
    | with_reducible apply ite_orderly
    | with_reducible apply ite_fst_orderly
    | with_reducible apply next_orderly
    | (intro; intros)
    | split
    | dsimp only
    | (unfold State.orderly
       dsimp only
       with_reducible apply State.ordered)
    | refine pair_orderly (by assumption) ?_
    | assumption

theorem execWaitm_orderly (core : BitVec 10) (tid : BitVec 6) (ins : Ins) (s : State) (hs : s.orderly) : inOrder (execWaitm core tid ins s) := by
  unfold execWaitm
  repeat' first
    | with_reducible assumption
    | with_reducible apply State.issue_orderly
    | with_reducible apply State.park_orderly
    | with_reducible apply State.settleThread_orderly
    | with_reducible apply ite_orderly
    | with_reducible apply ite_fst_orderly
    | with_reducible apply next_orderly
    | (intro; intros)
    | split
    | dsimp only
    | (unfold State.orderly
       dsimp only
       with_reducible apply State.ordered)
    | refine pair_orderly (by assumption) ?_
    | assumption

theorem execThreadHalt_orderly (core : BitVec 10) (tid : BitVec 6) (_ins : Ins) (s : State) (hs : s.orderly) : inOrder (execThreadHalt core tid _ins s) := by
  unfold execThreadHalt
  repeat' first
    | with_reducible assumption
    | with_reducible apply State.issue_orderly
    | with_reducible apply State.park_orderly
    | with_reducible apply State.settleThread_orderly
    | with_reducible apply ite_orderly
    | with_reducible apply ite_fst_orderly
    | with_reducible apply next_orderly
    | (intro; intros)
    | split
    | dsimp only
    | (unfold State.orderly
       dsimp only
       with_reducible apply State.ordered)
    | refine pair_orderly (by assumption) ?_
    | assumption

theorem execBar_orderly (core : BitVec 10) (tid : BitVec 6) (ins : Ins) (s : State) (hs : s.orderly) : inOrder (execBar core tid ins s) := by
  unfold execBar
  repeat' first
    | with_reducible assumption
    | with_reducible apply State.issue_orderly
    | with_reducible apply State.park_orderly
    | with_reducible apply foldl_orderly
    | with_reducible apply foldl_fst_orderly
    | with_reducible apply ite_orderly
    | with_reducible apply ite_fst_orderly
    | with_reducible apply next_orderly
    | (intro; intros)
    | split
    | dsimp only
    | (unfold State.orderly
       dsimp only
       with_reducible apply State.ordered)
    | refine pair_orderly (by assumption) ?_
    | assumption

theorem execWaitl_orderly (core : BitVec 10) (tid : BitVec 6) (ins : Ins) (s : State) (hs : s.orderly) : inOrder (execWaitl core tid ins s) := by
  unfold execWaitl
  repeat' first
    | with_reducible assumption
    | with_reducible apply State.issue_orderly
    | with_reducible apply State.putReg_orderly
    | with_reducible apply State.park_orderly
    | with_reducible apply State.faultHere_orderly
    | with_reducible apply ite_orderly
    | with_reducible apply ite_fst_orderly
    | with_reducible apply next_orderly
    | (intro; intros)
    | split
    | dsimp only
    | (unfold State.orderly
       dsimp only
       with_reducible apply State.ordered)
    | refine pair_orderly (by assumption) ?_
    | assumption

theorem execWaitlTimeout_orderly (core : BitVec 10) (tid : BitVec 6) (s : State) (hs : s.orderly) : inOrder (execWaitlTimeout core tid s) := by
  unfold execWaitlTimeout
  repeat' first
    | with_reducible assumption
    | with_reducible apply State.putReg_orderly
    | with_reducible apply State.park_orderly
    | with_reducible apply ite_orderly
    | with_reducible apply ite_fst_orderly
    | with_reducible apply next_orderly
    | (intro; intros)
    | split
    | dsimp only
    | (unfold State.orderly
       dsimp only
       with_reducible apply State.ordered)
    | refine pair_orderly (by assumption) ?_
    | assumption

theorem execTpref_orderly (core : BitVec 10) (tid : BitVec 6) (ins : Ins) (s : State) (hs : s.orderly) : inOrder (execTpref core tid ins s) := by
  unfold execTpref
  repeat' first
    | with_reducible assumption
    | with_reducible apply State.tlbPut_orderly
    | with_reducible apply State.startWalk_orderly
    | with_reducible apply State.issue_orderly
    | with_reducible apply ite_orderly
    | with_reducible apply ite_fst_orderly
    | with_reducible apply next_orderly
    | (intro; intros)
    | split
    | dsimp only
    | (unfold State.orderly
       dsimp only
       with_reducible apply State.ordered)
    | refine pair_orderly (by assumption) ?_
    | assumption

theorem execTinv_orderly (core : BitVec 10) (tid : BitVec 6) (ins : Ins) (s : State) (hs : s.orderly) : inOrder (execTinv core tid ins s) := by
  unfold execTinv
  repeat' first
    | with_reducible assumption
    | with_reducible apply State.issue_orderly
    | with_reducible apply ite_orderly
    | with_reducible apply ite_fst_orderly
    | with_reducible apply next_orderly
    | (intro; intros)
    | split
    | dsimp only
    | (unfold State.orderly
       dsimp only
       with_reducible apply State.ordered)
    | refine pair_orderly (by assumption) ?_
    | assumption

theorem State.bulkIn_orderly (s : State) (k : Nat) (dst : Nat) (lines : Nat) (tags : Option Nat) (f : Frame) (hs : s.orderly) : (State.bulkIn s k dst lines tags f).orderly := by
  unfold State.bulkIn
  repeat' first
    | with_reducible assumption
    | with_reducible apply State.localWrite_orderly
    | with_reducible apply foldl_orderly
    | with_reducible apply foldl_fst_orderly
    | with_reducible apply ite_orderly
    | with_reducible apply ite_fst_orderly
    | (intro; intros)
    | split
    | dsimp only
    | (unfold State.orderly
       dsimp only
       with_reducible apply State.ordered)
    | refine pair_orderly (by assumption) ?_
    | assumption

theorem State.deliver_orderly (s : State) (k : Nat) (t : Nat) (c : ThreadComp) (hs : s.orderly) : (State.deliver s k t c).orderly := by
  unfold State.deliver
  repeat' first
    | with_reducible assumption
    | with_reducible apply State.onCore_orderly
    | with_reducible apply State.localWrite_orderly
    | with_reducible apply State.putReg_orderly
    | with_reducible apply State.bulkIn_orderly
    | with_reducible apply ite_orderly
    | with_reducible apply ite_fst_orderly
    | (intro; intros)
    | split
    | dsimp only
    | (unfold State.orderly
       dsimp only
       with_reducible apply State.ordered)
    | refine pair_orderly (by assumption) ?_
    | assumption

theorem State.pumpRows_orderly (s : State) (k n : Nat) (hs : s.orderly) : (State.pumpRows s k n).orderly := by
  induction n generalizing s with
  | zero => exact hs
  | succ n ih =>
    unfold State.pumpRows
    repeat' first
      | with_reducible assumption
      | with_reducible apply ih
      | with_reducible apply State.coreSend_orderly
      | with_reducible apply State.onEngine_orderly
      | with_reducible apply ite_orderly
      | (intro; intros)
      | split
      | dsimp only

theorem State.rowDone_orderly (s : State) (k : Nat) (x : ThreadSink) (hs : s.orderly) : (State.rowDone s k x).orderly := by
  unfold State.rowDone
  split
  · exact State.onEngine_orderly _ _ _ _ hs
  · exact State.onEngine_orderly _ _ _ _ hs
  · exact hs

theorem State.settleCore_orderly (s : State) (k : Nat) (hs : s.orderly) : (State.settleCore s k).orderly := by
  unfold State.settleCore
  repeat' first
    | with_reducible assumption
    | with_reducible apply State.settleThread_orderly
    | with_reducible apply foldl_orderly
    | with_reducible apply foldl_fst_orderly
    | with_reducible apply ite_orderly
    | with_reducible apply ite_fst_orderly
    | (intro; intros)
    | split
    | dsimp only
    | (unfold State.orderly
       dsimp only
       with_reducible apply State.ordered)
    | refine pair_orderly (by assumption) ?_
    | assumption

theorem execCorePoolCompletion_orderly (core : BitVec 10) (tid : BitVec 6) (n : Nat) (s : State) (hs : s.orderly) : inOrder (execCorePoolCompletion core tid n s) := by
  unfold execCorePoolCompletion
  repeat' first
    | with_reducible assumption
    | with_reducible apply State.onCore_orderly
    | with_reducible apply State.onThread_orderly
    | with_reducible apply State.setStatus_orderly
    | with_reducible apply State.settleThread_orderly
    | with_reducible apply State.deliver_orderly
    | with_reducible apply State.settleCore_orderly
    | with_reducible apply State.pumpRows_orderly
    | with_reducible apply State.rowDone_orderly
    | with_reducible apply ite_orderly
    | with_reducible apply ite_fst_orderly
    | with_reducible apply next_orderly
    | (intro; intros)
    | split
    | dsimp only
    | (unfold State.orderly
       dsimp only
       with_reducible apply State.ordered)
    | refine pair_orderly (by assumption) ?_
    | assumption

end Sys2Proof.Machine
end

