-- ==== Sys2Proof/Laws/KeepEngines.lean ====
section
/-! SUPPORT. Every operation of Engines keeps the queues and memories in order. -/

set_option linter.unusedTactic false
set_option linter.unreachableTactic false
set_option linter.unusedVariables false

namespace Sys2Proof.Machine

theorem State.suspectEngine_orderly (s : State) (cls : Nat) (k : Nat) (e : Nat) (op : Nat) (outcome : Nat) (other : Nat) (hs : s.orderly) : (State.suspectEngine s cls k e op outcome other).orderly := by
  unfold State.suspectEngine
  repeat' first
    | with_reducible assumption
    | with_reducible apply State.logE_orderly
    | with_reducible apply State.onCore_orderly
    | with_reducible apply State.onEngine_orderly
    | with_reducible apply ite_orderly
    | with_reducible apply ite_fst_orderly
    | (intro; intros)
    | split
    | dsimp only
    | (unfold State.orderly
       dsimp only
       with_reducible apply State.ordered)
    | refine pair_orderly (by assumption) ?_
    | assumption

theorem State.engineIssue_orderly (s : State) (k : Nat) (t : Nat) (e : Nat) (desc : Nat) (hs : s.orderly) : (State.engineIssue s k t e desc).orderly := by
  unfold State.engineIssue
  repeat' first
    | with_reducible assumption
    | with_reducible apply State.onThread_orderly
    | with_reducible apply State.onEngine_orderly
    | with_reducible apply ite_orderly
    | with_reducible apply ite_fst_orderly
    | (intro; intros)
    | split
    | dsimp only
    | (unfold State.orderly
       dsimp only
       with_reducible apply State.ordered)
    | refine pair_orderly (by assumption) ?_
    | assumption

theorem execMxeIssue_orderly (core : BitVec 10) (tid : BitVec 6) (ins : Ins) (s : State) (hs : s.orderly) : inOrder (execMxeIssue core tid ins s) := by
  unfold execMxeIssue
  repeat' first
    | with_reducible assumption
    | with_reducible apply State.issue_orderly
    | with_reducible apply State.engineIssue_orderly
    | with_reducible apply ite_orderly
    | with_reducible apply ite_fst_orderly
    | with_reducible apply next_orderly
    | (intro; intros)
    | split
    | dsimp only
    | (unfold State.orderly
       dsimp only
       with_reducible apply State.ordered)
    | refine pair_orderly (by assumption) ?_
    | assumption

theorem execVeIssue_orderly (core : BitVec 10) (tid : BitVec 6) (ins : Ins) (s : State) (hs : s.orderly) : inOrder (execVeIssue core tid ins s) := by
  unfold execVeIssue
  repeat' first
    | with_reducible assumption
    | with_reducible apply State.issue_orderly
    | with_reducible apply State.faultHere_orderly
    | with_reducible apply State.engineIssue_orderly
    | with_reducible apply ite_orderly
    | with_reducible apply ite_fst_orderly
    | with_reducible apply next_orderly
    | (intro; intros)
    | split
    | dsimp only
    | (unfold State.orderly
       dsimp only
       with_reducible apply State.ordered)
    | refine pair_orderly (by assumption) ?_
    | assumption

theorem execGfeIssue_orderly (core : BitVec 10) (tid : BitVec 6) (ins : Ins) (s : State) (hs : s.orderly) : inOrder (execGfeIssue core tid ins s) := by
  unfold execGfeIssue
  repeat' first
    | with_reducible assumption
    | with_reducible apply State.issue_orderly
    | with_reducible apply State.engineIssue_orderly
    | with_reducible apply ite_orderly
    | with_reducible apply ite_fst_orderly
    | with_reducible apply next_orderly
    | (intro; intros)
    | split
    | dsimp only
    | (unfold State.orderly
       dsimp only
       with_reducible apply State.ordered)
    | refine pair_orderly (by assumption) ?_
    | assumption

theorem State.engineStart_orderly (s : State) (k : Nat) (e : Nat) (op : Nat) (hs : s.orderly) : (State.engineStart s k e op).orderly := by
  unfold State.engineStart
  repeat' first
    | with_reducible assumption
    | with_reducible apply State.onEngine_orderly
    | with_reducible apply State.settleThread_orderly
    | with_reducible apply State.pumpRows_orderly
    | with_reducible apply ite_orderly
    | with_reducible apply ite_fst_orderly
    | (intro; intros)
    | split
    | dsimp only
    | (unfold State.orderly
       dsimp only
       with_reducible apply State.ordered)
    | refine pair_orderly (by assumption) ?_
    | assumption

theorem State.startRow_orderly (s : State) (core : BitVec 10) (e : Nat) (op : Nat) (hs : s.orderly) : inOrder (State.startRow s core e op) := by
  unfold State.startRow
  repeat' first
    | with_reducible assumption
    | with_reducible apply State.engineStart_orderly
    | with_reducible apply ite_orderly
    | with_reducible apply ite_fst_orderly
    | with_reducible apply next_orderly
    | (intro; intros)
    | split
    | dsimp only
    | (unfold State.orderly
       dsimp only
       with_reducible apply State.ordered)
    | refine pair_orderly (by assumption) ?_
    | assumption

theorem execMxeMma_orderly (core : BitVec 10) (s : State) (hs : s.orderly) : inOrder (execMxeMma core s) := by
  unfold execMxeMma
  repeat' first
    | with_reducible assumption
    | with_reducible apply State.startRow_orderly
    | with_reducible apply ite_orderly
    | with_reducible apply ite_fst_orderly
    | with_reducible apply next_orderly
    | (intro; intros)
    | split
    | dsimp only
    | (unfold State.orderly
       dsimp only
       with_reducible apply State.ordered)
    | refine pair_orderly (by assumption) ?_
    | assumption

theorem execMxeZero_orderly (core : BitVec 10) (s : State) (hs : s.orderly) : inOrder (execMxeZero core s) := by
  unfold execMxeZero
  repeat' first
    | with_reducible assumption
    | with_reducible apply State.startRow_orderly
    | with_reducible apply ite_orderly
    | with_reducible apply ite_fst_orderly
    | with_reducible apply next_orderly
    | (intro; intros)
    | split
    | dsimp only
    | (unfold State.orderly
       dsimp only
       with_reducible apply State.ordered)
    | refine pair_orderly (by assumption) ?_
    | assumption

theorem execMxeStore_orderly (core : BitVec 10) (s : State) (hs : s.orderly) : inOrder (execMxeStore core s) := by
  unfold execMxeStore
  repeat' first
    | with_reducible assumption
    | with_reducible apply State.startRow_orderly
    | with_reducible apply ite_orderly
    | with_reducible apply ite_fst_orderly
    | with_reducible apply next_orderly
    | (intro; intros)
    | split
    | dsimp only
    | (unfold State.orderly
       dsimp only
       with_reducible apply State.ordered)
    | refine pair_orderly (by assumption) ?_
    | assumption

theorem execMxeLoad_orderly (core : BitVec 10) (s : State) (hs : s.orderly) : inOrder (execMxeLoad core s) := by
  unfold execMxeLoad
  repeat' first
    | with_reducible assumption
    | with_reducible apply State.startRow_orderly
    | with_reducible apply ite_orderly
    | with_reducible apply ite_fst_orderly
    | with_reducible apply next_orderly
    | (intro; intros)
    | split
    | dsimp only
    | (unfold State.orderly
       dsimp only
       with_reducible apply State.ordered)
    | refine pair_orderly (by assumption) ?_
    | assumption

theorem execVeAdd_orderly (core : BitVec 10) (ve : Bool) (s : State) (hs : s.orderly) : inOrder (execVeAdd core ve s) := by
  unfold execVeAdd
  repeat' first
    | with_reducible assumption
    | with_reducible apply State.startRow_orderly
    | with_reducible apply ite_orderly
    | with_reducible apply ite_fst_orderly
    | with_reducible apply next_orderly
    | (intro; intros)
    | split
    | dsimp only
    | (unfold State.orderly
       dsimp only
       with_reducible apply State.ordered)
    | refine pair_orderly (by assumption) ?_
    | assumption

theorem execVeSub_orderly (core : BitVec 10) (ve : Bool) (s : State) (hs : s.orderly) : inOrder (execVeSub core ve s) := by
  unfold execVeSub
  repeat' first
    | with_reducible assumption
    | with_reducible apply State.startRow_orderly
    | with_reducible apply ite_orderly
    | with_reducible apply ite_fst_orderly
    | with_reducible apply next_orderly
    | (intro; intros)
    | split
    | dsimp only
    | (unfold State.orderly
       dsimp only
       with_reducible apply State.ordered)
    | refine pair_orderly (by assumption) ?_
    | assumption

theorem execVeMul_orderly (core : BitVec 10) (ve : Bool) (s : State) (hs : s.orderly) : inOrder (execVeMul core ve s) := by
  unfold execVeMul
  repeat' first
    | with_reducible assumption
    | with_reducible apply State.startRow_orderly
    | with_reducible apply ite_orderly
    | with_reducible apply ite_fst_orderly
    | with_reducible apply next_orderly
    | (intro; intros)
    | split
    | dsimp only
    | (unfold State.orderly
       dsimp only
       with_reducible apply State.ordered)
    | refine pair_orderly (by assumption) ?_
    | assumption

theorem execVeFma_orderly (core : BitVec 10) (ve : Bool) (s : State) (hs : s.orderly) : inOrder (execVeFma core ve s) := by
  unfold execVeFma
  repeat' first
    | with_reducible assumption
    | with_reducible apply State.startRow_orderly
    | with_reducible apply ite_orderly
    | with_reducible apply ite_fst_orderly
    | with_reducible apply next_orderly
    | (intro; intros)
    | split
    | dsimp only
    | (unfold State.orderly
       dsimp only
       with_reducible apply State.ordered)
    | refine pair_orderly (by assumption) ?_
    | assumption

theorem execVeMax_orderly (core : BitVec 10) (ve : Bool) (s : State) (hs : s.orderly) : inOrder (execVeMax core ve s) := by
  unfold execVeMax
  repeat' first
    | with_reducible assumption
    | with_reducible apply State.startRow_orderly
    | with_reducible apply ite_orderly
    | with_reducible apply ite_fst_orderly
    | with_reducible apply next_orderly
    | (intro; intros)
    | split
    | dsimp only
    | (unfold State.orderly
       dsimp only
       with_reducible apply State.ordered)
    | refine pair_orderly (by assumption) ?_
    | assumption

theorem execVeMin_orderly (core : BitVec 10) (ve : Bool) (s : State) (hs : s.orderly) : inOrder (execVeMin core ve s) := by
  unfold execVeMin
  repeat' first
    | with_reducible assumption
    | with_reducible apply State.startRow_orderly
    | with_reducible apply ite_orderly
    | with_reducible apply ite_fst_orderly
    | with_reducible apply next_orderly
    | (intro; intros)
    | split
    | dsimp only
    | (unfold State.orderly
       dsimp only
       with_reducible apply State.ordered)
    | refine pair_orderly (by assumption) ?_
    | assumption

theorem execVeCvt_orderly (core : BitVec 10) (ve : Bool) (s : State) (hs : s.orderly) : inOrder (execVeCvt core ve s) := by
  unfold execVeCvt
  repeat' first
    | with_reducible assumption
    | with_reducible apply State.startRow_orderly
    | with_reducible apply ite_orderly
    | with_reducible apply ite_fst_orderly
    | with_reducible apply next_orderly
    | (intro; intros)
    | split
    | dsimp only
    | (unfold State.orderly
       dsimp only
       with_reducible apply State.ordered)
    | refine pair_orderly (by assumption) ?_
    | assumption

theorem execVeExp2_orderly (core : BitVec 10) (ve : Bool) (s : State) (hs : s.orderly) : inOrder (execVeExp2 core ve s) := by
  unfold execVeExp2
  repeat' first
    | with_reducible assumption
    | with_reducible apply State.startRow_orderly
    | with_reducible apply ite_orderly
    | with_reducible apply ite_fst_orderly
    | with_reducible apply next_orderly
    | (intro; intros)
    | split
    | dsimp only
    | (unfold State.orderly
       dsimp only
       with_reducible apply State.ordered)
    | refine pair_orderly (by assumption) ?_
    | assumption

theorem execVeLog2_orderly (core : BitVec 10) (ve : Bool) (s : State) (hs : s.orderly) : inOrder (execVeLog2 core ve s) := by
  unfold execVeLog2
  repeat' first
    | with_reducible assumption
    | with_reducible apply State.startRow_orderly
    | with_reducible apply ite_orderly
    | with_reducible apply ite_fst_orderly
    | with_reducible apply next_orderly
    | (intro; intros)
    | split
    | dsimp only
    | (unfold State.orderly
       dsimp only
       with_reducible apply State.ordered)
    | refine pair_orderly (by assumption) ?_
    | assumption

theorem execVeRcp_orderly (core : BitVec 10) (ve : Bool) (s : State) (hs : s.orderly) : inOrder (execVeRcp core ve s) := by
  unfold execVeRcp
  repeat' first
    | with_reducible assumption
    | with_reducible apply State.startRow_orderly
    | with_reducible apply ite_orderly
    | with_reducible apply ite_fst_orderly
    | with_reducible apply next_orderly
    | (intro; intros)
    | split
    | dsimp only
    | (unfold State.orderly
       dsimp only
       with_reducible apply State.ordered)
    | refine pair_orderly (by assumption) ?_
    | assumption

theorem execVeRsqrt_orderly (core : BitVec 10) (ve : Bool) (s : State) (hs : s.orderly) : inOrder (execVeRsqrt core ve s) := by
  unfold execVeRsqrt
  repeat' first
    | with_reducible assumption
    | with_reducible apply State.startRow_orderly
    | with_reducible apply ite_orderly
    | with_reducible apply ite_fst_orderly
    | with_reducible apply next_orderly
    | (intro; intros)
    | split
    | dsimp only
    | (unfold State.orderly
       dsimp only
       with_reducible apply State.ordered)
    | refine pair_orderly (by assumption) ?_
    | assumption

theorem execVeRsum_orderly (core : BitVec 10) (ve : Bool) (s : State) (hs : s.orderly) : inOrder (execVeRsum core ve s) := by
  unfold execVeRsum
  repeat' first
    | with_reducible assumption
    | with_reducible apply State.startRow_orderly
    | with_reducible apply ite_orderly
    | with_reducible apply ite_fst_orderly
    | with_reducible apply next_orderly
    | (intro; intros)
    | split
    | dsimp only
    | (unfold State.orderly
       dsimp only
       with_reducible apply State.ordered)
    | refine pair_orderly (by assumption) ?_
    | assumption

theorem execVeRmax_orderly (core : BitVec 10) (ve : Bool) (s : State) (hs : s.orderly) : inOrder (execVeRmax core ve s) := by
  unfold execVeRmax
  repeat' first
    | with_reducible assumption
    | with_reducible apply State.startRow_orderly
    | with_reducible apply ite_orderly
    | with_reducible apply ite_fst_orderly
    | with_reducible apply next_orderly
    | (intro; intros)
    | split
    | dsimp only
    | (unfold State.orderly
       dsimp only
       with_reducible apply State.ordered)
    | refine pair_orderly (by assumption) ?_
    | assumption

theorem execGfeGather_orderly (core : BitVec 10) (s : State) (hs : s.orderly) : inOrder (execGfeGather core s) := by
  unfold execGfeGather
  repeat' first
    | with_reducible assumption
    | with_reducible apply State.startRow_orderly
    | with_reducible apply ite_orderly
    | with_reducible apply ite_fst_orderly
    | with_reducible apply next_orderly
    | (intro; intros)
    | split
    | dsimp only
    | (unfold State.orderly
       dsimp only
       with_reducible apply State.ordered)
    | refine pair_orderly (by assumption) ?_
    | assumption

theorem execGfeScatter_orderly (core : BitVec 10) (s : State) (hs : s.orderly) : inOrder (execGfeScatter core s) := by
  unfold execGfeScatter
  repeat' first
    | with_reducible assumption
    | with_reducible apply State.startRow_orderly
    | with_reducible apply ite_orderly
    | with_reducible apply ite_fst_orderly
    | with_reducible apply next_orderly
    | (intro; intros)
    | split
    | dsimp only
    | (unfold State.orderly
       dsimp only
       with_reducible apply State.ordered)
    | refine pair_orderly (by assumption) ?_
    | assumption

theorem execGfeFilter_orderly (core : BitVec 10) (s : State) (hs : s.orderly) : inOrder (execGfeFilter core s) := by
  unfold execGfeFilter
  repeat' first
    | with_reducible assumption
    | with_reducible apply State.startRow_orderly
    | with_reducible apply ite_orderly
    | with_reducible apply ite_fst_orderly
    | with_reducible apply next_orderly
    | (intro; intros)
    | split
    | dsimp only
    | (unfold State.orderly
       dsimp only
       with_reducible apply State.ordered)
    | refine pair_orderly (by assumption) ?_
    | assumption

theorem execGfeTopk_orderly (core : BitVec 10) (s : State) (hs : s.orderly) : inOrder (execGfeTopk core s) := by
  unfold execGfeTopk
  repeat' first
    | with_reducible assumption
    | with_reducible apply State.startRow_orderly
    | with_reducible apply ite_orderly
    | with_reducible apply ite_fst_orderly
    | with_reducible apply next_orderly
    | (intro; intros)
    | split
    | dsimp only
    | (unfold State.orderly
       dsimp only
       with_reducible apply State.ordered)
    | refine pair_orderly (by assumption) ?_
    | assumption

theorem State.engineRetire_orderly (s : State) (k : Nat) (e : Nat) (t : Nat) (hs : s.orderly) : (State.engineRetire s k e t).orderly := by
  unfold State.engineRetire
  repeat' first
    | with_reducible assumption
    | with_reducible apply State.onThread_orderly
    | with_reducible apply State.onEngine_orderly
    | with_reducible apply State.settleThread_orderly
    | with_reducible apply ite_orderly
    | with_reducible apply ite_fst_orderly
    | (intro; intros)
    | split
    | dsimp only
    | (unfold State.orderly
       dsimp only
       with_reducible apply State.ordered)
    | refine pair_orderly (by assumption) ?_
    | assumption

theorem State.settleEngines_orderly (s : State) (k : Nat) (hs : s.orderly) : (State.settleEngines s k).orderly := by
  unfold State.settleEngines
  repeat' first
    | with_reducible assumption
    | with_reducible apply State.settleThread_orderly
    | with_reducible apply foldl_orderly
    | with_reducible apply foldl_fst_orderly
    | with_reducible apply ite_orderly
    | with_reducible apply ite_fst_orderly
    | (intro; intros)
    | split
    | dsimp only
    | (unfold State.orderly
       dsimp only
       with_reducible apply State.ordered)
    | refine pair_orderly (by assumption) ?_
    | assumption

theorem execEngineInvalidDescriptor_orderly (core : BitVec 10) (engine : BitVec 2) (s : State) (hs : s.orderly) : inOrder (execEngineInvalidDescriptor core engine s) := by
  unfold execEngineInvalidDescriptor
  repeat' first
    | with_reducible assumption
    | with_reducible apply State.faultThread_orderly
    | with_reducible apply State.engineRetire_orderly
    | with_reducible apply State.settleEngines_orderly
    | with_reducible apply ite_orderly
    | with_reducible apply ite_fst_orderly
    | with_reducible apply next_orderly
    | (intro; intros)
    | split
    | dsimp only
    | (unfold State.orderly
       dsimp only
       with_reducible apply State.ordered)
    | refine pair_orderly (by assumption) ?_
    | assumption

theorem State.applyOut_orderly (s : State) (k : Nat) (o : EngOut) (hs : s.orderly) : (State.applyOut s k o).orderly := by
  unfold State.applyOut
  repeat' first
    | with_reducible assumption
    | with_reducible apply State.onCore_orderly
    | with_reducible apply State.localWrite_orderly
    | with_reducible apply foldl_orderly
    | with_reducible apply foldl_fst_orderly
    | with_reducible apply ite_orderly
    | with_reducible apply ite_fst_orderly
    | (intro; intros)
    | split
    | dsimp only
    | (unfold State.orderly
       dsimp only
       with_reducible apply State.ordered)
    | refine pair_orderly (by assumption) ?_
    | assumption

theorem execEngineCommandComplete_orderly (core : BitVec 10) (engine : BitVec 2) (s : State) (hs : s.orderly) : inOrder (execEngineCommandComplete core engine s) := by
  unfold execEngineCommandComplete
  repeat' first
    | with_reducible assumption
    | with_reducible apply State.engineRetire_orderly
    | with_reducible apply State.settleEngines_orderly
    | with_reducible apply State.applyOut_orderly
    | with_reducible apply ite_orderly
    | with_reducible apply ite_fst_orderly
    | with_reducible apply next_orderly
    | (intro; intros)
    | split
    | dsimp only
    | (unfold State.orderly
       dsimp only
       with_reducible apply State.ordered)
    | refine pair_orderly (by assumption) ?_
    | assumption

theorem State.headPhase_orderly (s : State) (k : Nat) (e : Nat) (p : EngPhase) (hs : s.orderly) : (State.headPhase s k e p).orderly := by
  unfold State.headPhase
  repeat' first
    | with_reducible assumption
    | with_reducible apply State.onEngine_orderly
    | with_reducible apply ite_orderly
    | with_reducible apply ite_fst_orderly
    | (intro; intros)
    | split
    | dsimp only
    | (unfold State.orderly
       dsimp only
       with_reducible apply State.ordered)
    | refine pair_orderly (by assumption) ?_
    | assumption

theorem State.noMajority_orderly (s : State) (k : Nat) (e : Nat) (c : EngCmd) (hs : s.orderly) : (State.noMajority s k e c).orderly := by
  unfold State.noMajority
  repeat' first
    | with_reducible assumption
    | with_reducible apply State.faultThread_orderly
    | with_reducible apply State.engineRetire_orderly
    | with_reducible apply State.settleEngines_orderly
    | with_reducible apply ite_orderly
    | with_reducible apply ite_fst_orderly
    | (intro; intros)
    | split
    | dsimp only
    | (unfold State.orderly
       dsimp only
       with_reducible apply State.ordered)
    | refine pair_orderly (by assumption) ?_
    | assumption

theorem execShadowCompare_orderly (core : BitVec 10) (engine : BitVec 2) (differ : Bool) (s : State) (hs : s.orderly) : inOrder (execShadowCompare core engine differ s) := by
  unfold execShadowCompare
  repeat' first
    | with_reducible assumption
    | with_reducible apply State.countShadow_orderly
    | with_reducible apply State.suspectEngine_orderly
    | with_reducible apply State.headPhase_orderly
    | with_reducible apply State.noMajority_orderly
    | with_reducible apply foldl_orderly
    | with_reducible apply foldl_fst_orderly
    | with_reducible apply ite_orderly
    | with_reducible apply ite_fst_orderly
    | with_reducible apply next_orderly
    | (intro; intros)
    | split
    | dsimp only
    | (unfold State.orderly
       dsimp only
       with_reducible apply State.ordered)
    | refine pair_orderly (by assumption) ?_
    | assumption

theorem execMajorityVote_orderly (core : BitVec 10) (engine : BitVec 2) (vote : BitVec 2) (s : State) (hs : s.orderly) : inOrder (execMajorityVote core engine vote s) := by
  unfold execMajorityVote
  repeat' first
    | with_reducible assumption
    | with_reducible apply State.suspectEngine_orderly
    | with_reducible apply State.headPhase_orderly
    | with_reducible apply State.noMajority_orderly
    | with_reducible apply foldl_orderly
    | with_reducible apply foldl_fst_orderly
    | with_reducible apply ite_orderly
    | with_reducible apply ite_fst_orderly
    | with_reducible apply next_orderly
    | (intro; intros)
    | split
    | dsimp only
    | (unfold State.orderly
       dsimp only
       with_reducible apply State.ordered)
    | refine pair_orderly (by assumption) ?_
    | assumption

end Sys2Proof.Machine
end

