-- ==== Sys2Proof/Laws/KeepLifecycle.lean ====
section
/-! SUPPORT. Every operation of Lifecycle keeps the queues and memories in order. -/

set_option linter.unusedTactic false
set_option linter.unreachableTactic false
set_option linter.unusedVariables false

namespace Sys2Proof.Machine

theorem State.adkAbandon_orderly (s : State) (hs : s.orderly) : (State.adkAbandon s).orderly := by
  unfold State.adkAbandon
  repeat' first
    | with_reducible assumption
    | with_reducible apply State.adkFail_orderly
    | with_reducible apply State.adkMalformed_orderly
    | with_reducible apply foldl_orderly
    | with_reducible apply foldl_fst_orderly
    | with_reducible apply ite_orderly
    | with_reducible apply ite_fst_orderly
    | (intro; intros)
    | split
    | dsimp only
    | (unfold State.orderly
       dsimp only
       with_reducible apply State.ordered)
    | refine pair_orderly (by assumption) ?_
    | assumption

theorem State.dropWork_orderly (s : State) (hs : s.orderly) : (State.dropWork s).orderly := by
  unfold State.dropWork
  repeat' first
    | with_reducible assumption
    | with_reducible apply State.adkAbandon_orderly
    | with_reducible apply ite_orderly
    | with_reducible apply ite_fst_orderly
    | (intro; intros)
    | split
    | dsimp only
    | (unfold State.orderly
       dsimp only
       with_reducible apply State.ordered)
    | refine pair_orderly (by assumption) ?_
    | assumption

theorem State.stopCores_orderly (s : State) (hs : s.orderly) : (State.stopCores s).orderly := by
  unfold State.stopCores
  repeat' first
    | with_reducible assumption
    | with_reducible apply ite_orderly
    | with_reducible apply ite_fst_orderly
    | (intro; intros)
    | split
    | dsimp only
    | (unfold State.orderly
       dsimp only
       with_reducible apply State.ordered)
    | refine pair_orderly (by assumption) ?_
    | assumption

theorem State.portsOff_orderly (s : State) (hs : s.orderly) : (State.portsOff s).orderly := by
  unfold State.portsOff
  repeat' first
    | with_reducible assumption
    | with_reducible apply ite_orderly
    | with_reducible apply ite_fst_orderly
    | (intro; intros)
    | split
    | dsimp only
    | (unfold State.orderly
       dsimp only
       with_reducible apply State.ordered)
    | refine pair_orderly (by assumption) ?_
    | assumption

theorem State.unarmLeases_orderly (s : State) (hs : s.orderly) : (State.unarmLeases s).orderly := by
  unfold State.unarmLeases
  repeat' first
    | with_reducible assumption
    | with_reducible apply ite_orderly
    | with_reducible apply ite_fst_orderly
    | (intro; intros)
    | split
    | dsimp only
    | (unfold State.orderly
       dsimp only
       with_reducible apply State.ordered)
    | refine pair_orderly (by assumption) ?_
    | assumption

theorem State.stopThreads_orderly (s : State) (p : Nat → Nat → Bool) (hs : s.orderly) : (State.stopThreads s p).orderly := by
  unfold State.stopThreads
  repeat' first
    | with_reducible assumption
    | with_reducible apply ite_orderly
    | with_reducible apply ite_fst_orderly
    | (intro; intros)
    | split
    | dsimp only
    | (unfold State.orderly
       dsimp only
       with_reducible apply State.ordered)
    | refine pair_orderly (by assumption) ?_
    | assumption

theorem State.abandonDelta_orderly (s : State) (hs : s.orderly) : (State.abandonDelta s).orderly := by
  unfold State.abandonDelta
  repeat' first
    | with_reducible assumption
    | with_reducible apply ite_orderly
    | with_reducible apply ite_fst_orderly
    | (intro; intros)
    | split
    | dsimp only
    | (unfold State.orderly
       dsimp only
       with_reducible apply State.ordered)
    | refine pair_orderly (by assumption) ?_
    | assumption

theorem State.leaveService_orderly (s : State) (hs : s.orderly) : (State.leaveService s).orderly := by
  unfold State.leaveService
  repeat' first
    | with_reducible assumption
    | with_reducible apply State.collTriggers_orderly
    | with_reducible apply State.attnLeave_orderly
    | with_reducible apply State.unarmLeases_orderly
    | with_reducible apply State.stopThreads_orderly
    | with_reducible apply State.abandonDelta_orderly
    | with_reducible apply ite_orderly
    | with_reducible apply ite_fst_orderly
    | (intro; intros)
    | split
    | dsimp only
    | (unfold State.orderly
       dsimp only
       with_reducible apply State.ordered)
    | refine pair_orderly (by assumption) ?_
    | assumption

theorem State.enterHalt_orderly (s : State) (cls : Nat) (hs : s.orderly) : (State.enterHalt s cls).orderly := by
  unfold State.enterHalt
  repeat' first
    | with_reducible assumption
    | with_reducible apply State.changeState_orderly
    | with_reducible apply State.dropWork_orderly
    | with_reducible apply State.stopCores_orderly
    | with_reducible apply State.portsOff_orderly
    | with_reducible apply State.leaveService_orderly
    | with_reducible apply ite_orderly
    | with_reducible apply ite_fst_orderly
    | (intro; intros)
    | split
    | dsimp only
    | (unfold State.orderly
       dsimp only
       with_reducible apply State.ordered)
    | refine pair_orderly (by assumption) ?_
    | assumption

theorem State.recoveryStart_orderly (s : State) (hs : s.orderly) : (State.recoveryStart s).orderly := by
  unfold State.recoveryStart
  repeat' first
    | with_reducible assumption
    | with_reducible apply State.logE_orderly
    | with_reducible apply ite_orderly
    | with_reducible apply ite_fst_orderly
    | (intro; intros)
    | split
    | dsimp only
    | (unfold State.orderly
       dsimp only
       refine Ordered.mk ?_ ?_ ?_ ?_ ?_ ?_ ?_ ?_ ?_ <;> repeat' first
        | with_reducible apply State.events_of
        | with_reducible apply State.entries_of
        | with_reducible apply State.unacked_of
        | with_reducible apply State.t0_of
        | with_reducible apply State.spad_of
        | with_reducible apply State.cmem_of
        | with_reducible apply State.staged_of
        | with_reducible apply State.firmware_of
        | with_reducible apply State.report_of
        | with_reducible exact Memory.wf_nil
        | with_reducible apply Memory.wf_write
        | with_reducible apply Memory.wf_put
        | with_reducible apply Memory.wf_filter
        | rw [List.length_map]
        | exact Nat.zero_le _)
    | refine pair_orderly (by assumption) ?_
    | assumption

theorem State.enterRecovery_orderly (s : State) (cause : Nat) (hs : s.orderly) : (State.enterRecovery s cause).orderly := by
  unfold State.enterRecovery
  repeat' first
    | with_reducible assumption
    | with_reducible apply State.changeState_orderly
    | with_reducible apply State.leaveService_orderly
    | with_reducible apply State.recoveryStart_orderly
    | with_reducible apply ite_orderly
    | with_reducible apply ite_fst_orderly
    | (intro; intros)
    | split
    | dsimp only
    | (unfold State.orderly
       dsimp only
       refine Ordered.mk ?_ ?_ ?_ ?_ ?_ ?_ ?_ ?_ ?_ <;> repeat' first
        | with_reducible apply State.events_of
        | with_reducible apply State.entries_of
        | with_reducible apply State.unacked_of
        | with_reducible apply State.t0_of
        | with_reducible apply State.spad_of
        | with_reducible apply State.cmem_of
        | with_reducible apply State.staged_of
        | with_reducible apply State.firmware_of
        | with_reducible apply State.report_of
        | with_reducible exact Memory.wf_nil
        | with_reducible apply Memory.wf_write
        | with_reducible apply Memory.wf_put
        | with_reducible apply Memory.wf_filter
        | rw [List.length_map]
        | exact Nat.zero_le _)
    | refine pair_orderly (by assumption) ?_
    | assumption

theorem State.recoveryFault_orderly (s : State) (cls : Nat) (hs : s.orderly) : (State.recoveryFault s cls).orderly := by
  unfold State.recoveryFault
  repeat' first
    | with_reducible assumption
    | with_reducible apply State.enterHalt_orderly
    | with_reducible apply State.recoveryStart_orderly
    | with_reducible apply State.enterRecovery_orderly
    | with_reducible apply ite_orderly
    | with_reducible apply ite_fst_orderly
    | (intro; intros)
    | split
    | dsimp only
    | (unfold State.orderly
       dsimp only
       refine Ordered.mk ?_ ?_ ?_ ?_ ?_ ?_ ?_ ?_ ?_ <;> repeat' first
        | with_reducible apply State.events_of
        | with_reducible apply State.entries_of
        | with_reducible apply State.unacked_of
        | with_reducible apply State.t0_of
        | with_reducible apply State.spad_of
        | with_reducible apply State.cmem_of
        | with_reducible apply State.staged_of
        | with_reducible apply State.firmware_of
        | with_reducible apply State.report_of
        | with_reducible exact Memory.wf_nil
        | with_reducible apply Memory.wf_write
        | with_reducible apply Memory.wf_put
        | with_reducible apply Memory.wf_filter
        | rw [List.length_map]
        | exact Nat.zero_le _)
    | refine pair_orderly (by assumption) ?_
    | assumption

theorem execHeartbeatSend_orderly (s : State) (hs : s.orderly) : inOrder (execHeartbeatSend s) := by
  unfold execHeartbeatSend
  repeat' first
    | with_reducible assumption
    | with_reducible apply ite_orderly
    | with_reducible apply ite_fst_orderly
    | with_reducible apply next_orderly
    | (intro; intros)
    | split
    | dsimp only
    | (unfold State.orderly
       dsimp only
       with_reducible apply State.ordered)
    | refine pair_orderly (by assumption) ?_
    | assumption

theorem execHeartbeatReceive_orderly (s : State) (hs : s.orderly) : inOrder (execHeartbeatReceive s) := by
  unfold execHeartbeatReceive
  repeat' first
    | with_reducible assumption
    | with_reducible apply ite_orderly
    | with_reducible apply ite_fst_orderly
    | with_reducible apply next_orderly
    | (intro; intros)
    | split
    | dsimp only
    | (unfold State.orderly
       dsimp only
       with_reducible apply State.ordered)
    | refine pair_orderly (by assumption) ?_
    | assumption

theorem execHeartbeatReplyReceive_orderly (s : State) (hs : s.orderly) : inOrder (execHeartbeatReplyReceive s) := by
  unfold execHeartbeatReplyReceive
  repeat' first
    | with_reducible assumption
    | with_reducible apply ite_orderly
    | with_reducible apply ite_fst_orderly
    | with_reducible apply next_orderly
    | (intro; intros)
    | split
    | dsimp only
    | (unfold State.orderly
       dsimp only
       with_reducible apply State.ordered)
    | refine pair_orderly (by assumption) ?_
    | assumption

theorem execHeartbeatTimeoutSd0_orderly (s : State) (hs : s.orderly) : inOrder (execHeartbeatTimeoutSd0 s) := by
  unfold execHeartbeatTimeoutSd0
  repeat' first
    | with_reducible assumption
    | with_reducible apply State.logE_orderly
    | with_reducible apply State.enterHalt_orderly
    | with_reducible apply ite_orderly
    | with_reducible apply ite_fst_orderly
    | with_reducible apply next_orderly
    | (intro; intros)
    | split
    | dsimp only
    | (unfold State.orderly
       dsimp only
       with_reducible apply State.ordered)
    | refine pair_orderly (by assumption) ?_
    | assumption

theorem execHeartbeatTimeoutSd1_orderly (s : State) (hs : s.orderly) : inOrder (execHeartbeatTimeoutSd1 s) := by
  unfold execHeartbeatTimeoutSd1
  repeat' first
    | with_reducible assumption
    | with_reducible apply State.enterHalt_orderly
    | with_reducible apply ite_orderly
    | with_reducible apply ite_fst_orderly
    | with_reducible apply next_orderly
    | (intro; intros)
    | split
    | dsimp only
    | (unfold State.orderly
       dsimp only
       refine Ordered.mk ?_ ?_ ?_ ?_ ?_ ?_ ?_ ?_ ?_ <;> repeat' first
        | with_reducible apply State.events_of
        | with_reducible apply State.entries_of
        | with_reducible apply State.unacked_of
        | with_reducible apply State.t0_of
        | with_reducible apply State.spad_of
        | with_reducible apply State.cmem_of
        | with_reducible apply State.staged_of
        | with_reducible apply State.firmware_of
        | with_reducible apply State.report_of
        | with_reducible exact Memory.wf_nil
        | with_reducible apply Memory.wf_write
        | with_reducible apply Memory.wf_put
        | with_reducible apply Memory.wf_filter
        | rw [List.length_map]
        | exact Nat.zero_le _)
    | refine pair_orderly (by assumption) ?_
    | assumption

theorem execTrellisHop_orderly (site : BitVec 6) (yx : Bool) (vc : BitVec 3) (replays : BitVec 4) (s : State) (hs : s.orderly) : inOrder (execTrellisHop site yx vc replays s) := by
  unfold execTrellisHop
  repeat' first
    | with_reducible assumption
    | with_reducible apply State.logE_orderly
    | with_reducible apply State.enqueue_orderly
    | with_reducible apply ite_orderly
    | with_reducible apply ite_fst_orderly
    | with_reducible apply next_orderly
    | (intro; intros)
    | split
    | dsimp only
    | (unfold State.orderly
       dsimp only
       with_reducible apply State.ordered)
    | refine pair_orderly (by assumption) ?_
    | assumption

theorem execTrellisRetrainTimeout_orderly (edge : BitVec 8) (s : State) (hs : s.orderly) : inOrder (execTrellisRetrainTimeout edge s) := by
  unfold execTrellisRetrainTimeout
  repeat' first
    | with_reducible assumption
    | with_reducible apply State.enterHalt_orderly
    | with_reducible apply ite_orderly
    | with_reducible apply ite_fst_orderly
    | with_reducible apply next_orderly
    | (intro; intros)
    | split
    | dsimp only
    | (unfold State.orderly
       dsimp only
       with_reducible apply State.ordered)
    | refine pair_orderly (by assumption) ?_
    | assumption

theorem execTrellisEdgeRetrainDone_orderly (edge : BitVec 8) (s : State) (hs : s.orderly) : inOrder (execTrellisEdgeRetrainDone edge s) := by
  unfold execTrellisEdgeRetrainDone
  repeat' first
    | with_reducible assumption
    | with_reducible apply ite_orderly
    | with_reducible apply ite_fst_orderly
    | with_reducible apply next_orderly
    | (intro; intros)
    | split
    | dsimp only
    | (unfold State.orderly
       dsimp only
       with_reducible apply State.ordered)
    | refine pair_orderly (by assumption) ?_
    | assumption

end Sys2Proof.Machine
end

