-- ==== Sys2Proof/Laws/KeepLinks.lean ====
section
/-! SUPPORT. Every operation of Links keeps the queues and memories in order. -/

set_option linter.unusedTactic false
set_option linter.unreachableTactic false
set_option linter.unusedVariables false

namespace Sys2Proof.Machine

theorem State.sendLcw_orderly (s : State) (b : Nat) (typ : BitVec 4) (hs : s.orderly) : (State.sendLcw s b typ).orderly := by
  unfold State.sendLcw
  repeat' first
    | with_reducible assumption
    | with_reducible apply State.onLink_orderly
    | with_reducible apply ite_orderly
    | with_reducible apply ite_fst_orderly
    | (intro; intros)
    | split
    | dsimp only
    | (unfold State.orderly
       dsimp only
       with_reducible apply State.ordered)
    | refine pair_orderly (by assumption) ?_
    | assumption

theorem State.sendHello_orderly (s : State) (b : Nat) (hs : s.orderly) : (State.sendHello s b).orderly := by
  unfold State.sendHello
  repeat' first
    | with_reducible assumption
    | with_reducible apply State.onLink_orderly
    | with_reducible apply State.onTc_orderly
    | with_reducible apply ite_orderly
    | with_reducible apply ite_fst_orderly
    | (intro; intros)
    | split
    | dsimp only
    | (unfold State.orderly
       dsimp only
       with_reducible apply State.ordered)
    | refine pair_orderly (by assumption) ?_
    | assumption

theorem State.targetDeath_orderly (s : State) (b : Nat) (why : Nat) (target : BitVec 16) (stages : Nat) (rs : List Req) (hs : s.orderly) : (State.targetDeath s b why target stages rs).orderly := by
  unfold State.targetDeath
  repeat' first
    | with_reducible assumption
    | with_reducible apply State.event_orderly
    | with_reducible apply State.notice_orderly
    | with_reducible apply State.tagFree_orderly
    | with_reducible apply State.finish_orderly
    | with_reducible apply State.cutTray_orderly
    | with_reducible apply State.wakeStaged_orderly
    | with_reducible apply foldl_orderly
    | with_reducible apply foldl_fst_orderly
    | with_reducible apply ite_orderly
    | with_reducible apply ite_fst_orderly
    | (intro; intros)
    | split
    | dsimp only
    | (unfold State.orderly
       dsimp only
       with_reducible apply State.ordered)
    | refine pair_orderly (by assumption) ?_
    | assumption

theorem State.deadTarget_orderly (s : State) (b : Nat) (why : Nat) (hs : s.orderly) : (State.deadTarget s b why).orderly := by
  unfold State.deadTarget
  repeat' first
    | with_reducible assumption
    | with_reducible apply State.onLink_orderly
    | with_reducible apply State.trayGone_orderly
    | with_reducible apply State.unitDomains_orderly
    | with_reducible apply State.memberDead_orderly
    | with_reducible apply State.treePortDead_orderly
    | with_reducible apply State.subDead_orderly
    | with_reducible apply State.targetDeath_orderly
    | with_reducible apply foldl_orderly
    | with_reducible apply foldl_fst_orderly
    | with_reducible apply ite_orderly
    | with_reducible apply ite_fst_orderly
    | (intro; intros)
    | split
    | dsimp only
    | (unfold State.orderly
       dsimp only
       with_reducible apply State.ordered)
    | refine pair_orderly (by assumption) ?_
    | assumption

theorem State.portDown_orderly (s : State) (b : Nat) (cause : BitVec 8) (hs : s.orderly) : (State.portDown s b cause).orderly := by
  unfold State.portDown
  repeat' first
    | with_reducible assumption
    | with_reducible apply State.logWith_orderly
    | with_reducible apply State.onLink_orderly
    | with_reducible apply State.onTc_orderly
    | with_reducible apply State.trayGone_orderly
    | with_reducible apply State.deadTarget_orderly
    | with_reducible apply foldl_orderly
    | with_reducible apply foldl_fst_orderly
    | with_reducible apply ite_orderly
    | with_reducible apply ite_fst_orderly
    | (intro; intros)
    | split
    | dsimp only
    | (unfold State.orderly
       dsimp only
       with_reducible apply State.ordered)
    | refine pair_orderly (by assumption) ?_
    | assumption

theorem State.train_orderly (s : State) (p : Nat) (hs : s.orderly) : (State.train s p).orderly := by
  unfold State.train
  repeat' first
    | with_reducible assumption
    | with_reducible apply State.onLink_orderly
    | with_reducible apply ite_orderly
    | with_reducible apply ite_fst_orderly
    | (intro; intros)
    | split
    | dsimp only
    | (unfold State.orderly
       dsimp only
       with_reducible apply State.ordered)
    | refine pair_orderly (by assumption) ?_
    | assumption

theorem State.relink_orderly (s : State) (b : Nat) (cause : BitVec 8) (hs : s.orderly) : (State.relink s b cause).orderly := by
  unfold State.relink
  repeat' first
    | with_reducible assumption
    | with_reducible apply State.portDown_orderly
    | with_reducible apply State.train_orderly
    | with_reducible apply foldl_orderly
    | with_reducible apply foldl_fst_orderly
    | with_reducible apply ite_orderly
    | with_reducible apply ite_fst_orderly
    | (intro; intros)
    | split
    | dsimp only
    | (unfold State.orderly
       dsimp only
       with_reducible apply State.ordered)
    | refine pair_orderly (by assumption) ?_
    | assumption

theorem State.memberRemove_orderly (s : State) (p : Nat) (cause : BitVec 8) (hs : s.orderly) : (State.memberRemove s p cause).orderly := by
  unfold State.memberRemove
  repeat' first
    | with_reducible assumption
    | with_reducible apply State.logWith_orderly
    | with_reducible apply State.onLink_orderly
    | with_reducible apply State.portDown_orderly
    | with_reducible apply ite_orderly
    | with_reducible apply ite_fst_orderly
    | (intro; intros)
    | split
    | dsimp only
    | (unfold State.orderly
       dsimp only
       with_reducible apply State.ordered)
    | refine pair_orderly (by assumption) ?_
    | assumption

theorem State.classFence_orderly (s : State) (b : Nat) (member : Nat) (bundle : Nat) (hs : s.orderly) : (State.classFence s b member bundle).orderly := by
  unfold State.classFence
  repeat' first
    | with_reducible assumption
    | with_reducible apply State.event_orderly
    | with_reducible apply State.onLink_orderly
    | with_reducible apply State.deadTarget_orderly
    | with_reducible apply ite_orderly
    | with_reducible apply ite_fst_orderly
    | (intro; intros)
    | split
    | dsimp only
    | (unfold State.orderly
       dsimp only
       with_reducible apply State.ordered)
    | refine pair_orderly (by assumption) ?_
    | assumption

theorem State.cutQueues_orderly (s : State) (b : Nat) (hs : s.orderly) : (State.cutQueues s b).orderly := by
  unfold State.cutQueues
  repeat' first
    | with_reducible assumption
    | with_reducible apply State.onTc_orderly
    | with_reducible apply ite_orderly
    | with_reducible apply ite_fst_orderly
    | (intro; intros)
    | split
    | dsimp only
    | (unfold State.orderly
       dsimp only
       with_reducible apply State.ordered)
    | refine pair_orderly (by assumption) ?_
    | assumption

theorem State.leasesLost_orderly (s : State) (b : Nat) (hs : s.orderly) : (State.leasesLost s b).orderly := by
  unfold State.leasesLost
  repeat' first
    | with_reducible assumption
    | with_reducible apply State.revokeAll_orderly
    | with_reducible apply State.expireLease_orderly
    | with_reducible apply foldl_orderly
    | with_reducible apply foldl_fst_orderly
    | with_reducible apply ite_orderly
    | with_reducible apply ite_fst_orderly
    | (intro; intros)
    | split
    | dsimp only
    | (unfold State.orderly
       dsimp only
       with_reducible apply State.ordered)
    | refine pair_orderly (by assumption) ?_
    | assumption

theorem State.peerChange_orderly (s : State) (b : Nat) (hs : s.orderly) : (State.peerChange s b).orderly := by
  unfold State.peerChange
  repeat' first
    | with_reducible assumption
    | with_reducible apply State.event_orderly
    | with_reducible apply State.onLink_orderly
    | with_reducible apply State.trayRetired_orderly
    | with_reducible apply State.deadTarget_orderly
    | with_reducible apply State.cutQueues_orderly
    | with_reducible apply State.leasesLost_orderly
    | with_reducible apply ite_orderly
    | with_reducible apply ite_fst_orderly
    | (intro; intros)
    | split
    | dsimp only
    | (unfold State.orderly
       dsimp only
       with_reducible apply State.ordered)
    | refine pair_orderly (by assumption) ?_
    | assumption

theorem State.portOpen_orderly (s : State) (b : Nat) (hs : s.orderly) : (State.portOpen s b).orderly := by
  unfold State.portOpen
  repeat' first
    | with_reducible assumption
    | with_reducible apply State.onLink_orderly
    | with_reducible apply State.countPrt_orderly
    | with_reducible apply State.trayPortOpen_orderly
    | with_reducible apply State.memberBack_orderly
    | with_reducible apply foldl_orderly
    | with_reducible apply foldl_fst_orderly
    | with_reducible apply ite_orderly
    | with_reducible apply ite_fst_orderly
    | (intro; intros)
    | split
    | dsimp only
    | (unfold State.orderly
       dsimp only
       refine Ordered.mk ?_ ?_ ?_ ?_ ?_ ?_ ?_ ?_ ?_ <;> repeat' first
        | with_reducible apply State.events_of
        | with_reducible apply State.entries_of
        | with_reducible apply State.unacked_of
        | with_reducible apply State.t0_of
        | with_reducible apply State.spad_of
        | with_reducible apply State.cmem_of
        | with_reducible apply State.staged_of
        | with_reducible apply State.firmware_of
        | with_reducible apply State.report_of
        | with_reducible exact Memory.wf_nil
        | with_reducible apply Memory.wf_write
        | with_reducible apply Memory.wf_put
        | with_reducible apply Memory.wf_filter
        | rw [List.length_map]
        | exact Nat.zero_le _)
    | refine pair_orderly (by assumption) ?_
    | assumption

theorem State.linkAccept_orderly (s : State) (p : Nat) (vc : BitVec 3) (cost : Nat) (hs : s.orderly) : (State.linkAccept s p vc cost).1.orderly := by
  unfold State.linkAccept
  repeat' first
    | with_reducible assumption
    | with_reducible apply State.onLink_orderly
    | with_reducible apply State.relink_orderly
    | with_reducible apply ite_orderly
    | with_reducible apply ite_fst_orderly
    | (intro; intros)
    | split
    | dsimp only
    | (unfold State.orderly
       dsimp only
       with_reducible apply State.ordered)
    | refine pair_orderly (by assumption) ?_
    | assumption

theorem State.onHello_orderly (s : State) (b : Nat) (f : Frame) (hs : s.orderly) : (State.onHello s b f).orderly := by
  unfold State.onHello
  repeat' first
    | with_reducible assumption
    | with_reducible apply State.onLink_orderly
    | with_reducible apply State.classFence_orderly
    | with_reducible apply State.peerChange_orderly
    | with_reducible apply State.portOpen_orderly
    | with_reducible apply ite_orderly
    | with_reducible apply ite_fst_orderly
    | (intro; intros)
    | split
    | dsimp only
    | (unfold State.orderly
       dsimp only
       with_reducible apply State.ordered)
    | refine pair_orderly (by assumption) ?_
    | assumption

theorem State.helloAlone_orderly (s : State) (p : Nat) (f : Frame) (hs : s.orderly) : (State.helloAlone s p f).orderly := by
  unfold State.helloAlone
  repeat' first
    | with_reducible assumption
    | with_reducible apply State.event_orderly
    | with_reducible apply State.onLink_orderly
    | with_reducible apply ite_orderly
    | with_reducible apply ite_fst_orderly
    | (intro; intros)
    | split
    | dsimp only
    | (unfold State.orderly
       dsimp only
       with_reducible apply State.ordered)
    | refine pair_orderly (by assumption) ?_
    | assumption

theorem State.soloHello_orderly (s : State) (p : Nat) (hs : s.orderly) : (State.soloHello s p).orderly := by
  unfold State.soloHello
  repeat' first
    | with_reducible assumption
    | with_reducible apply State.onLink_orderly
    | with_reducible apply ite_orderly
    | with_reducible apply ite_fst_orderly
    | (intro; intros)
    | split
    | dsimp only
    | (unfold State.orderly
       dsimp only
       with_reducible apply State.ordered)
    | refine pair_orderly (by assumption) ?_
    | assumption

theorem execHello_orderly (port : BitVec 8) (frame : Frame) (s : State) (hs : s.orderly) : inOrder (execHello port frame s) := by
  unfold execHello
  repeat' first
    | with_reducible assumption
    | with_reducible apply State.countPrt_orderly
    | with_reducible apply State.linkAccept_orderly
    | with_reducible apply State.onHello_orderly
    | with_reducible apply State.helloAlone_orderly
    | with_reducible apply ite_orderly
    | with_reducible apply ite_fst_orderly
    | with_reducible apply next_orderly
    | (intro; intros)
    | split
    | dsimp only
    | (unfold State.orderly
       dsimp only
       with_reducible apply State.ordered)
    | refine pair_orderly (by assumption) ?_
    | assumption

theorem execHelloPeriodTimer_orderly (port : BitVec 8) (s : State) (hs : s.orderly) : inOrder (execHelloPeriodTimer port s) := by
  unfold execHelloPeriodTimer
  repeat' first
    | with_reducible assumption
    | with_reducible apply State.sendHello_orderly
    | with_reducible apply State.soloHello_orderly
    | with_reducible apply ite_orderly
    | with_reducible apply ite_fst_orderly
    | with_reducible apply next_orderly
    | (intro; intros)
    | split
    | dsimp only
    | (unfold State.orderly
       dsimp only
       with_reducible apply State.ordered)
    | refine pair_orderly (by assumption) ?_
    | assumption

theorem execHelloSilenceTimeout_orderly (port : BitVec 8) (s : State) (hs : s.orderly) : inOrder (execHelloSilenceTimeout port s) := by
  unfold execHelloSilenceTimeout
  repeat' first
    | with_reducible assumption
    | with_reducible apply State.train_orderly
    | with_reducible apply State.relink_orderly
    | with_reducible apply State.memberRemove_orderly
    | with_reducible apply ite_orderly
    | with_reducible apply ite_fst_orderly
    | with_reducible apply next_orderly
    | (intro; intros)
    | split
    | dsimp only
    | (unfold State.orderly
       dsimp only
       with_reducible apply State.ordered)
    | refine pair_orderly (by assumption) ?_
    | assumption

theorem execSignalPresent_orderly (port : BitVec 8) (s : State) (hs : s.orderly) : inOrder (execSignalPresent port s) := by
  unfold execSignalPresent
  repeat' first
    | with_reducible assumption
    | with_reducible apply State.onLink_orderly
    | with_reducible apply State.train_orderly
    | with_reducible apply ite_orderly
    | with_reducible apply ite_fst_orderly
    | with_reducible apply next_orderly
    | (intro; intros)
    | split
    | dsimp only
    | (unfold State.orderly
       dsimp only
       with_reducible apply State.ordered)
    | refine pair_orderly (by assumption) ?_
    | assumption

theorem execLossOfSignal_orderly (port : BitVec 8) (lock : Bool) (s : State) (hs : s.orderly) : inOrder (execLossOfSignal port lock s) := by
  unfold execLossOfSignal
  repeat' first
    | with_reducible assumption
    | with_reducible apply State.onLink_orderly
    | with_reducible apply State.portDown_orderly
    | with_reducible apply State.train_orderly
    | with_reducible apply State.relink_orderly
    | with_reducible apply State.memberRemove_orderly
    | with_reducible apply ite_orderly
    | with_reducible apply ite_fst_orderly
    | with_reducible apply next_orderly
    | (intro; intros)
    | split
    | dsimp only
    | (unfold State.orderly
       dsimp only
       with_reducible apply State.ordered)
    | refine pair_orderly (by assumption) ?_
    | assumption

theorem State.enterInit_orderly (s : State) (b : Nat) (hs : s.orderly) : (State.enterInit s b).orderly := by
  unfold State.enterInit
  repeat' first
    | with_reducible assumption
    | with_reducible apply State.onLink_orderly
    | with_reducible apply State.sendLcw_orderly
    | with_reducible apply ite_orderly
    | with_reducible apply ite_fst_orderly
    | (intro; intros)
    | split
    | dsimp only
    | (unfold State.orderly
       dsimp only
       with_reducible apply State.ordered)
    | refine pair_orderly (by assumption) ?_
    | assumption

theorem execTrainingComplete_orderly (port : BitVec 8) (s : State) (hs : s.orderly) : inOrder (execTrainingComplete port s) := by
  unfold execTrainingComplete
  repeat' first
    | with_reducible assumption
    | with_reducible apply State.onLink_orderly
    | with_reducible apply State.sendLcw_orderly
    | with_reducible apply State.enterInit_orderly
    | with_reducible apply ite_orderly
    | with_reducible apply ite_fst_orderly
    | with_reducible apply next_orderly
    | (intro; intros)
    | split
    | dsimp only
    | (unfold State.orderly
       dsimp only
       with_reducible apply State.ordered)
    | refine pair_orderly (by assumption) ?_
    | assumption

theorem execTrainingAttemptTimeout_orderly (port : BitVec 8) (s : State) (hs : s.orderly) : inOrder (execTrainingAttemptTimeout port s) := by
  unfold execTrainingAttemptTimeout
  repeat' first
    | with_reducible assumption
    | with_reducible apply State.onLink_orderly
    | with_reducible apply State.train_orderly
    | with_reducible apply ite_orderly
    | with_reducible apply ite_fst_orderly
    | with_reducible apply next_orderly
    | (intro; intros)
    | split
    | dsimp only
    | (unfold State.orderly
       dsimp only
       with_reducible apply State.ordered)
    | refine pair_orderly (by assumption) ?_
    | assumption

theorem execLcwInit_orderly (port : BitVec 8) (word : Lcw) (s : State) (hs : s.orderly) : inOrder (execLcwInit port word s) := by
  unfold execLcwInit
  repeat' first
    | with_reducible assumption
    | with_reducible apply State.event_orderly
    | with_reducible apply State.onLink_orderly
    | with_reducible apply State.sendHello_orderly
    | with_reducible apply State.soloHello_orderly
    | with_reducible apply ite_orderly
    | with_reducible apply ite_fst_orderly
    | with_reducible apply next_orderly
    | (intro; intros)
    | split
    | dsimp only
    | (unfold State.orderly
       dsimp only
       with_reducible apply State.ordered)
    | refine pair_orderly (by assumption) ?_
    | assumption

theorem State.onLcw_orderly (s : State) (b : Nat) (w : Lcw) (hs : s.orderly) : (State.onLcw s b w).orderly := by
  unfold State.onLcw
  repeat' first
    | with_reducible assumption
    | with_reducible apply State.onLink_orderly
    | with_reducible apply ite_orderly
    | with_reducible apply ite_fst_orderly
    | (intro; intros)
    | split
    | dsimp only
    | (unfold State.orderly
       dsimp only
       with_reducible apply State.ordered)
    | refine pair_orderly (by assumption) ?_
    | assumption

theorem execLcwNormal_orderly (port : BitVec 8) (word : Lcw) (s : State) (hs : s.orderly) : inOrder (execLcwNormal port word s) := by
  unfold execLcwNormal
  repeat' first
    | with_reducible assumption
    | with_reducible apply State.onLcw_orderly
    | with_reducible apply ite_orderly
    | with_reducible apply ite_fst_orderly
    | with_reducible apply next_orderly
    | (intro; intros)
    | split
    | dsimp only
    | (unfold State.orderly
       dsimp only
       with_reducible apply State.ordered)
    | refine pair_orderly (by assumption) ?_
    | assumption

theorem State.replayFrames_orderly (s : State) (b : Nat) (hs : s.orderly) : (State.replayFrames s b).orderly := by
  unfold State.replayFrames
  repeat' first
    | with_reducible assumption
    | with_reducible apply State.onLink_orderly
    | with_reducible apply State.countPrt_orderly
    | with_reducible apply State.relink_orderly
    | with_reducible apply ite_orderly
    | with_reducible apply ite_fst_orderly
    | (intro; intros)
    | split
    | dsimp only
    | (unfold State.orderly
       dsimp only
       with_reducible apply State.ordered)
    | refine pair_orderly (by assumption) ?_
    | assumption

theorem execLcwNak_orderly (port : BitVec 8) (word : Lcw) (s : State) (hs : s.orderly) : inOrder (execLcwNak port word s) := by
  unfold execLcwNak
  repeat' first
    | with_reducible assumption
    | with_reducible apply State.onLcw_orderly
    | with_reducible apply State.replayFrames_orderly
    | with_reducible apply ite_orderly
    | with_reducible apply ite_fst_orderly
    | with_reducible apply next_orderly
    | (intro; intros)
    | split
    | dsimp only
    | (unfold State.orderly
       dsimp only
       with_reducible apply State.ordered)
    | refine pair_orderly (by assumption) ?_
    | assumption

theorem execReplayTimeout_orderly (port : BitVec 8) (s : State) (hs : s.orderly) : inOrder (execReplayTimeout port s) := by
  unfold execReplayTimeout
  repeat' first
    | with_reducible assumption
    | with_reducible apply State.replayFrames_orderly
    | with_reducible apply ite_orderly
    | with_reducible apply ite_fst_orderly
    | with_reducible apply next_orderly
    | (intro; intros)
    | split
    | dsimp only
    | (unfold State.orderly
       dsimp only
       with_reducible apply State.ordered)
    | refine pair_orderly (by assumption) ?_
    | assumption

theorem execLcwSendTimer_orderly (port : BitVec 8) (s : State) (hs : s.orderly) : inOrder (execLcwSendTimer port s) := by
  unfold execLcwSendTimer
  repeat' first
    | with_reducible assumption
    | with_reducible apply State.sendLcw_orderly
    | with_reducible apply ite_orderly
    | with_reducible apply ite_fst_orderly
    | with_reducible apply next_orderly
    | (intro; intros)
    | split
    | dsimp only
    | (unfold State.orderly
       dsimp only
       with_reducible apply State.ordered)
    | refine pair_orderly (by assumption) ?_
    | assumption

theorem execFrameLinkReject_orderly (port : BitVec 8) (frame : Frame) (lseq : BitVec 12) (crc : BitVec 32) (fec : Bool) (s : State) (hs : s.orderly) : inOrder (execFrameLinkReject port frame lseq crc fec s) := by
  unfold execFrameLinkReject
  repeat' first
    | with_reducible assumption
    | with_reducible apply State.onLink_orderly
    | with_reducible apply State.countPrt_orderly
    | with_reducible apply State.sendLcw_orderly
    | with_reducible apply ite_orderly
    | with_reducible apply ite_fst_orderly
    | with_reducible apply next_orderly
    | (intro; intros)
    | split
    | dsimp only
    | (unfold State.orderly
       dsimp only
       with_reducible apply State.ordered)
    | refine pair_orderly (by assumption) ?_
    | assumption

theorem execHcrcDiscard_orderly (port : BitVec 8) (frame : Frame) (hcrc : BitVec 16) (s : State) (hs : s.orderly) : inOrder (execHcrcDiscard port frame hcrc s) := by
  unfold execHcrcDiscard
  repeat' first
    | with_reducible assumption
    | with_reducible apply State.logE_orderly
    | with_reducible apply State.onLink_orderly
    | with_reducible apply State.countPrt_orderly
    | with_reducible apply State.linkAccept_orderly
    | with_reducible apply ite_orderly
    | with_reducible apply ite_fst_orderly
    | with_reducible apply next_orderly
    | (intro; intros)
    | split
    | dsimp only
    | (unfold State.orderly
       dsimp only
       with_reducible apply State.ordered)
    | refine pair_orderly (by assumption) ?_
    | assumption

theorem execBundleSkewTimeout_orderly (port : BitVec 8) (s : State) (hs : s.orderly) : inOrder (execBundleSkewTimeout port s) := by
  unfold execBundleSkewTimeout
  repeat' first
    | with_reducible assumption
    | with_reducible apply State.train_orderly
    | with_reducible apply State.memberRemove_orderly
    | with_reducible apply ite_orderly
    | with_reducible apply ite_fst_orderly
    | with_reducible apply next_orderly
    | (intro; intros)
    | split
    | dsimp only
    | (unfold State.orderly
       dsimp only
       with_reducible apply State.ordered)
    | refine pair_orderly (by assumption) ?_
    | assumption

theorem State.prtPeer_orderly (s : State) (p : Nat) (v : BitVec 64) (hs : s.orderly) : (State.prtPeer s p v).1.orderly := by
  unfold State.prtPeer
  repeat' first
    | with_reducible assumption
    | with_reducible apply State.onLink_orderly
    | with_reducible apply State.relink_orderly
    | with_reducible apply State.portOpen_orderly
    | with_reducible apply ite_orderly
    | with_reducible apply ite_fst_orderly
    | (intro; intros)
    | split
    | dsimp only
    | (unfold State.orderly
       dsimp only
       with_reducible apply State.ordered)
    | refine pair_orderly (by assumption) ?_
    | assumption

theorem State.prtCfg_orderly (s : State) (p : Nat) (v : BitVec 64) (hs : s.orderly) : (State.prtCfg s p v).1.orderly := by
  unfold State.prtCfg
  repeat' first
    | with_reducible assumption
    | with_reducible apply State.onLink_orderly
    | with_reducible apply ite_orderly
    | with_reducible apply ite_fst_orderly
    | (intro; intros)
    | split
    | dsimp only
    | (unfold State.orderly
       dsimp only
       with_reducible apply State.ordered)
    | refine pair_orderly (by assumption) ?_
    | assumption

theorem execPrtPeerRetrain_orderly (tag : BitVec 16) (port : BitVec 8) (s : State) (hs : s.orderly) : inOrder (execPrtPeerRetrain tag port s) := by
  unfold execPrtPeerRetrain
  repeat' first
    | with_reducible assumption
    | with_reducible apply State.adkWr_orderly
    | with_reducible apply State.prtPeer_orderly
    | with_reducible apply ite_orderly
    | with_reducible apply ite_fst_orderly
    | with_reducible apply next_orderly
    | (intro; intros)
    | split
    | dsimp only
    | (unfold State.orderly
       dsimp only
       with_reducible apply State.ordered)
    | refine pair_orderly (by assumption) ?_
    | assumption

theorem execPrtPeerAck_orderly (tag : BitVec 16) (port : BitVec 8) (s : State) (hs : s.orderly) : inOrder (execPrtPeerAck tag port s) := by
  unfold execPrtPeerAck
  repeat' first
    | with_reducible assumption
    | with_reducible apply State.adkWr_orderly
    | with_reducible apply State.prtPeer_orderly
    | with_reducible apply ite_orderly
    | with_reducible apply ite_fst_orderly
    | with_reducible apply next_orderly
    | (intro; intros)
    | split
    | dsimp only
    | (unfold State.orderly
       dsimp only
       with_reducible apply State.ordered)
    | refine pair_orderly (by assumption) ?_
    | assumption

theorem execTargetLimitExpiry_orderly (port : BitVec 8) (s : State) (hs : s.orderly) : inOrder (execTargetLimitExpiry port s) := by
  unfold execTargetLimitExpiry
  repeat' first
    | with_reducible assumption
    | with_reducible apply State.deadTarget_orderly
    | with_reducible apply ite_orderly
    | with_reducible apply ite_fst_orderly
    | with_reducible apply next_orderly
    | (intro; intros)
    | split
    | dsimp only
    | (unfold State.orderly
       dsimp only
       with_reducible apply State.ordered)
    | refine pair_orderly (by assumption) ?_
    | assumption

theorem State.unanswered_orderly (s : State) (r : Req) (hs : s.orderly) : (State.unanswered s r).orderly := by
  unfold State.unanswered
  repeat' first
    | with_reducible assumption
    | with_reducible apply State.targetDeath_orderly
    | with_reducible apply ite_orderly
    | with_reducible apply ite_fst_orderly
    | (intro; intros)
    | split
    | dsimp only
    | (unfold State.orderly
       dsimp only
       with_reducible apply State.ordered)
    | refine pair_orderly (by assumption) ?_
    | assumption

theorem State.untimed_orderly (s : State) (q : TrayReq) (hs : s.orderly) : (State.untimed s q).orderly := by
  unfold State.untimed
  repeat' first
    | with_reducible assumption
    | with_reducible apply ite_orderly
    | with_reducible apply ite_fst_orderly
    | (intro; intros)
    | split
    | dsimp only
    | (unfold State.orderly
       dsimp only
       with_reducible apply State.ordered)
    | refine pair_orderly (by assumption) ?_
    | assumption

theorem execRequestTimerExpiry_orderly (n : Nat) (s : State) (hs : s.orderly) : inOrder (execRequestTimerExpiry n s) := by
  unfold execRequestTimerExpiry
  repeat' first
    | with_reducible assumption
    | with_reducible apply State.trayAnswer_orderly
    | with_reducible apply State.subDead_orderly
    | with_reducible apply State.targetDeath_orderly
    | with_reducible apply State.unanswered_orderly
    | with_reducible apply State.untimed_orderly
    | with_reducible apply ite_orderly
    | with_reducible apply ite_fst_orderly
    | with_reducible apply next_orderly
    | (intro; intros)
    | split
    | dsimp only
    | (unfold State.orderly
       dsimp only
       with_reducible apply State.ordered)
    | refine pair_orderly (by assumption) ?_
    | assumption

theorem execBackstopTimerExpiry_orderly (n : Nat) (s : State) (hs : s.orderly) : inOrder (execBackstopTimerExpiry n s) := by
  unfold execBackstopTimerExpiry
  repeat' first
    | with_reducible assumption
    | with_reducible apply State.unanswered_orderly
    | with_reducible apply ite_orderly
    | with_reducible apply ite_fst_orderly
    | with_reducible apply next_orderly
    | (intro; intros)
    | split
    | dsimp only
    | (unfold State.orderly
       dsimp only
       with_reducible apply State.ordered)
    | refine pair_orderly (by assumption) ?_
    | assumption

theorem State.rateHeld_orderly (s : State) (b : Nat) (hs : s.orderly) : (State.rateHeld s b).orderly := by
  unfold State.rateHeld
  repeat' first
    | with_reducible assumption
    | with_reducible apply State.logE_orderly
    | with_reducible apply State.onTc_orderly
    | with_reducible apply ite_orderly
    | with_reducible apply ite_fst_orderly
    | (intro; intros)
    | split
    | dsimp only
    | (unfold State.orderly
       dsimp only
       with_reducible apply State.ordered)
    | refine pair_orderly (by assumption) ?_
    | assumption

theorem State.rateDecrease_orderly (s : State) (b : Nat) (hs : s.orderly) : (State.rateDecrease s b).orderly := by
  unfold State.rateDecrease
  repeat' first
    | with_reducible assumption
    | with_reducible apply State.onTc_orderly
    | with_reducible apply State.rateHeld_orderly
    | with_reducible apply ite_orderly
    | with_reducible apply ite_fst_orderly
    | (intro; intros)
    | split
    | dsimp only
    | (unfold State.orderly
       dsimp only
       with_reducible apply State.ordered)
    | refine pair_orderly (by assumption) ?_
    | assumption

theorem State.laneTake_orderly (s : State) (p : Nat) (queue : Option Nat) (seq : BitVec 12) (f : Frame) (hs : s.orderly) : (State.laneTake s p queue seq f).orderly := by
  unfold State.laneTake
  repeat' first
    | with_reducible assumption
    | with_reducible apply State.onTc_orderly
    | with_reducible apply ite_orderly
    | with_reducible apply ite_fst_orderly
    | (intro; intros)
    | split
    | dsimp only
    | (unfold State.orderly
       dsimp only
       with_reducible apply State.ordered)
    | refine pair_orderly (by assumption) ?_
    | assumption

theorem State.transmit_orderly (s : State) (p : Nat) (queue : Option Nat) (f : Frame) (hs : s.orderly) : (State.transmit s p queue f).orderly := by
  unfold State.transmit
  repeat' first
    | with_reducible assumption
    | with_reducible apply State.onLink_orderly
    | with_reducible apply State.laneTake_orderly
    | with_reducible apply ite_orderly
    | with_reducible apply ite_fst_orderly
    | (intro; intros)
    | split
    | dsimp only
    | (unfold State.orderly
       dsimp only
       with_reducible apply State.ordered)
    | refine pair_orderly (by assumption) ?_
    | assumption

theorem State.egressQueue_orderly (s : State) (b : Nat) (p : Nat) (hs : s.orderly) : (State.egressQueue s b p).orderly := by
  unfold State.egressQueue
  repeat' first
    | with_reducible assumption
    | with_reducible apply State.onTc_orderly
    | with_reducible apply State.onQueue_orderly
    | with_reducible apply State.countQue_orderly
    | with_reducible apply State.chargeMeter_orderly
    | with_reducible apply State.egressForm_orderly
    | with_reducible apply State.transmit_orderly
    | with_reducible apply ite_orderly
    | with_reducible apply ite_fst_orderly
    | (intro; intros)
    | split
    | dsimp only
    | (unfold State.orderly
       dsimp only
       with_reducible apply State.ordered)
    | refine pair_orderly (by assumption) ?_
    | assumption

theorem execEgressFrameStart_orderly (port : BitVec 8) (s : State) (hs : s.orderly) : inOrder (execEgressFrameStart port s) := by
  unfold execEgressFrameStart
  repeat' first
    | with_reducible assumption
    | with_reducible apply State.onLink_orderly
    | with_reducible apply State.onTc_orderly
    | with_reducible apply State.laneTake_orderly
    | with_reducible apply State.transmit_orderly
    | with_reducible apply State.egressQueue_orderly
    | with_reducible apply ite_orderly
    | with_reducible apply ite_fst_orderly
    | with_reducible apply next_orderly
    | (intro; intros)
    | split
    | dsimp only
    | (unfold State.orderly
       dsimp only
       with_reducible apply State.ordered)
    | refine pair_orderly (by assumption) ?_
    | assumption

end Sys2Proof.Machine
end

