-- ==== Sys2Proof/Laws/KeepErrors.lean ====
section
/-! SUPPORT. Every operation of Errors keeps the queues and memories in order. -/

set_option linter.unusedTactic false
set_option linter.unreachableTactic false
set_option linter.unusedVariables false

namespace Sys2Proof.Machine

theorem State.ceNote_orderly (s : State) (k : Nat) (hs : s.orderly) : (State.ceNote s k).orderly := by
  have h : ∀ t, ({ s with log := { s.log with ceRun := t } } : State).orderly := fun _ => hs
  exact h _

theorem State.corrected_orderly (s : State) (h : EccHit) (hs : s.orderly) : (State.corrected s h).orderly := by
  unfold State.corrected
  repeat' first
    | with_reducible assumption
    | with_reducible apply State.countLog_orderly
    | with_reducible apply State.logE_orderly
    | with_reducible apply State.ceNote_orderly
    | with_reducible apply ite_orderly
    | with_reducible apply ite_fst_orderly
    | (intro; intros)
    | split
    | dsimp only
    | (unfold State.orderly
       dsimp only
       with_reducible apply State.ordered)
    | refine pair_orderly (by assumption) ?_
    | assumption

theorem State.tagsRebuilt_orderly (s : State) (block : Nat) (lost : Bool) (hs : s.orderly) : (State.tagsRebuilt s block lost).orderly := by
  unfold State.tagsRebuilt
  repeat' first
    | with_reducible assumption
    | with_reducible apply State.countCmp_orderly
    | with_reducible apply State.setSector_orderly
    | with_reducible apply State.poisonLine_orderly
    | with_reducible apply foldl_orderly
    | with_reducible apply foldl_fst_orderly
    | with_reducible apply ite_orderly
    | with_reducible apply ite_fst_orderly
    | (intro; intros)
    | split
    | dsimp only
    | (unfold State.orderly
       dsimp only
       with_reducible apply State.ordered)
    | refine pair_orderly (by assumption) ?_
    | assumption

theorem State.uncorrectable_orderly (s : State) (h : EccHit) (hs : s.orderly) : (State.uncorrectable s h).orderly := by
  unfold State.uncorrectable
  repeat' first
    | with_reducible assumption
    | with_reducible apply State.countLog_orderly
    | with_reducible apply State.logE_orderly
    | with_reducible apply State.onCore_orderly
    | with_reducible apply State.poisonLine_orderly
    | with_reducible apply State.losePage_orderly
    | with_reducible apply State.domTrigger_orderly
    | with_reducible apply State.recoveryFault_orderly
    | with_reducible apply State.tagsRebuilt_orderly
    | with_reducible apply ite_orderly
    | with_reducible apply ite_fst_orderly
    | (intro; intros)
    | split
    | dsimp only
    | (unfold State.orderly
       dsimp only
       refine Ordered.mk ?_ ?_ ?_ ?_ ?_ ?_ ?_ ?_ ?_ <;> repeat' first
        | with_reducible apply State.events_of
        | with_reducible apply State.entries_of
        | with_reducible apply State.unacked_of
        | with_reducible apply State.t0_of
        | with_reducible apply State.spad_of
        | with_reducible apply State.cmem_of
        | with_reducible apply State.staged_of
        | with_reducible apply State.firmware_of
        | with_reducible apply State.report_of
        | with_reducible exact Memory.wf_nil
        | with_reducible apply Memory.wf_write
        | with_reducible apply Memory.wf_put
        | with_reducible apply Memory.wf_filter
        | rw [List.length_map]
        | exact Nat.zero_le _)
    | refine pair_orderly (by assumption) ?_
    | assumption

theorem State.miscorrected_orderly (s : State) (h : EccHit) (hs : s.orderly) : (State.miscorrected s h).orderly := by
  unfold State.miscorrected
  repeat' first
    | with_reducible assumption
    | with_reducible apply State.forget_orderly
    | with_reducible apply State.placeLines_orderly
    | with_reducible apply State.corrected_orderly
    | with_reducible apply ite_orderly
    | with_reducible apply ite_fst_orderly
    | (intro; intros)
    | split
    | dsimp only
    | (unfold State.orderly
       dsimp only
       with_reducible apply State.ordered)
    | refine pair_orderly (by assumption) ?_
    | assumption

theorem State.applyHit_orderly (s : State) (h : EccHit) (hs : s.orderly) : (State.applyHit s h).orderly := by
  unfold State.applyHit
  repeat' first
    | with_reducible assumption
    | with_reducible apply State.draw_orderly
    | with_reducible apply State.corrected_orderly
    | with_reducible apply State.uncorrectable_orderly
    | with_reducible apply State.miscorrected_orderly
    | with_reducible apply ite_orderly
    | with_reducible apply ite_fst_orderly
    | (intro; intros)
    | split
    | dsimp only
    | (unfold State.orderly
       dsimp only
       with_reducible apply State.ordered)
    | refine pair_orderly (by assumption) ?_
    | assumption

theorem State.applyHits_orderly (s : State) (hs : List EccHit) (h0s : s.orderly) : (State.applyHits s hs).orderly := by
  unfold State.applyHits
  repeat' first
    | with_reducible assumption
    | with_reducible apply State.applyHit_orderly
    | with_reducible apply foldl_orderly
    | with_reducible apply foldl_fst_orderly
    | with_reducible apply ite_orderly
    | with_reducible apply ite_fst_orderly
    | (intro; intros)
    | split
    | dsimp only
    | (unfold State.orderly
       dsimp only
       with_reducible apply State.ordered)
    | refine pair_orderly (by assumption) ?_
    | assumption

end Sys2Proof.Machine
end

