-- ==== Sys2Proof/Laws/KeepIngress.lean ====
section
/-! SUPPORT. Every operation of Ingress keeps the queues and memories in order. -/

set_option linter.unusedTactic false
set_option linter.unreachableTactic false
set_option linter.unusedVariables false

namespace Sys2Proof.Machine

theorem State.countBrd_orderly (s : State) (k : Nat) (i : Nat) (hs : s.orderly) : (State.countBrd s k i).orderly := by
  unfold State.countBrd
  repeat' first
    | with_reducible assumption
    | with_reducible apply State.satEvent_orderly
    | with_reducible apply State.onBridle_orderly
    | with_reducible apply ite_orderly
    | with_reducible apply ite_fst_orderly
    | (intro; intros)
    | split
    | dsimp only
    | (unfold State.orderly
       dsimp only
       with_reducible apply State.ordered)
    | refine pair_orderly (by assumption) ?_
    | assumption

theorem State.police_orderly (s : State) (b : Nat) (f : Frame) (hs : s.orderly) : (State.police s b f).1.orderly := by
  unfold State.police
  repeat' first
    | with_reducible assumption
    | with_reducible apply State.onBridle_orderly
    | with_reducible apply State.countBrd_orderly
    | with_reducible apply ite_orderly
    | with_reducible apply ite_fst_orderly
    | (intro; intros)
    | split
    | dsimp only
    | (unfold State.orderly
       dsimp only
       with_reducible apply State.ordered)
    | refine pair_orderly (by assumption) ?_
    | assumption

theorem State.cbfEntry_orderly (s : State) (b : Nat) (f : Frame) (hs : s.orderly) : (State.cbfEntry s b f).1.orderly := by
  unfold State.cbfEntry
  repeat' first
    | with_reducible assumption
    | with_reducible apply State.countCmp_orderly
    | with_reducible apply State.lotFail_orderly
    | with_reducible apply ite_orderly
    | with_reducible apply ite_fst_orderly
    | (intro; intros)
    | split
    | dsimp only
    | (unfold State.orderly
       dsimp only
       with_reducible apply State.ordered)
    | refine pair_orderly (by assumption) ?_
    | assumption

theorem State.formEntry_orderly (s : State) (b : Nat) (f : Frame) (hs : s.orderly) : (State.formEntry s b f).1.orderly := by
  unfold State.formEntry
  repeat' first
    | with_reducible assumption
    | with_reducible apply State.countSec_orderly
    | with_reducible apply State.countPrt_orderly
    | with_reducible apply State.lotFail_orderly
    | with_reducible apply ite_orderly
    | with_reducible apply ite_fst_orderly
    | (intro; intros)
    | split
    | dsimp only
    | (unfold State.orderly
       dsimp only
       with_reducible apply State.ordered)
    | refine pair_orderly (by assumption) ?_
    | assumption

theorem State.headerEntry_orderly (s : State) (b : Nat) (f : Frame) (hs : s.orderly) : (State.headerEntry s b f).1.orderly := by
  unfold State.headerEntry
  repeat' first
    | with_reducible assumption
    | with_reducible apply State.event_orderly
    | with_reducible apply State.countPrt_orderly
    | with_reducible apply ite_orderly
    | with_reducible apply ite_fst_orderly
    | (intro; intros)
    | split
    | dsimp only
    | (unfold State.orderly
       dsimp only
       with_reducible apply State.ordered)
    | refine pair_orderly (by assumption) ?_
    | assumption

theorem State.redEntry_orderly (s : State) (b : Nat) (f : Frame) (hs : s.orderly) : (State.redEntry s b f).1.orderly := by
  unfold State.redEntry
  repeat' first
    | with_reducible assumption
    | with_reducible apply State.countBrd_orderly
    | with_reducible apply ite_orderly
    | with_reducible apply ite_fst_orderly
    | (intro; intros)
    | split
    | dsimp only
    | (unfold State.orderly
       dsimp only
       with_reducible apply State.ordered)
    | refine pair_orderly (by assumption) ?_
    | assumption

theorem State.unitEntry_orderly (s : State) (b : Nat) (f : Frame) (hs : s.orderly) : (State.unitEntry s b f).1.orderly := by
  unfold State.unitEntry
  repeat' first
    | with_reducible assumption
    | with_reducible apply State.countPrt_orderly
    | with_reducible apply ite_orderly
    | with_reducible apply ite_fst_orderly
    | (intro; intros)
    | split
    | dsimp only
    | (unfold State.orderly
       dsimp only
       with_reducible apply State.ordered)
    | refine pair_orderly (by assumption) ?_
    | assumption

theorem afterward_orderly (x : State × Entry) (k : State → Frame → State × Entry) (hx : x.1.orderly)
    (hk : ∀ (s : State) f, s.orderly → (k s f).1.orderly) : (afterward x k).1.orderly := by
  unfold afterward
  split
  · exact hk _ _ hx
  · exact hx

theorem State.linkEntry_orderly (s : State) (b : Nat) (f : Frame) (hs : s.orderly) : (State.linkEntry s b f).1.orderly := by
  unfold State.linkEntry
  repeat' first
    | with_reducible assumption
    | with_reducible apply State.event_orderly
    | with_reducible apply State.countLse_orderly
    | with_reducible apply State.countPrt_orderly
    | with_reducible apply State.police_orderly
    | with_reducible apply ite_orderly
    | with_reducible apply ite_fst_orderly
    | (intro; intros)
    | split
    | dsimp only
    | (unfold State.orderly
       dsimp only
       with_reducible apply State.ordered)
    | refine pair_orderly (by assumption) ?_
    | assumption

theorem State.inspect_orderly (s : State) (b : Nat) (f : Frame) (hs : s.orderly) : (State.inspect s b f).1.orderly := by
  unfold State.inspect
  repeat' first
    | with_reducible assumption
    | with_reducible apply State.cbfEntry_orderly
    | with_reducible apply State.formEntry_orderly
    | with_reducible apply State.headerEntry_orderly
    | with_reducible apply State.redEntry_orderly
    | with_reducible apply State.unitEntry_orderly
    | with_reducible apply State.linkEntry_orderly
    | with_reducible apply afterward_orderly
    | with_reducible apply ite_orderly
    | with_reducible apply ite_fst_orderly
    | (intro; intros)
    | split
    | dsimp only
    | (unfold State.orderly
       dsimp only
       with_reducible apply State.ordered)
    | refine pair_orderly (by assumption) ?_
    | assumption

theorem State.refuseAt_orderly (s : State) (b : Nat) (f : Frame) (st : BitVec 6) (hs : s.orderly) : (State.refuseAt s b f st).orderly := by
  unfold State.refuseAt
  repeat' first
    | with_reducible assumption
    | with_reducible apply State.emit_orderly
    | with_reducible apply ite_orderly
    | with_reducible apply ite_fst_orderly
    | (intro; intros)
    | split
    | dsimp only
    | (unfold State.orderly
       dsimp only
       with_reducible apply State.ordered)
    | refine pair_orderly (by assumption) ?_
    | assumption

theorem State.arrive_orderly (s : State) (p : Nat) (f : Frame) (k : State → Nat → Frame → State) (hs : s.orderly) (hk : ∀ (a0 : State) (a1 : Nat) (a2 : Frame), a0.orderly → (k a0 a1 a2).orderly) : (State.arrive s p f k).orderly := by
  unfold State.arrive
  repeat' first
    | with_reducible assumption
    | with_reducible apply State.linkAccept_orderly
    | with_reducible apply State.inspect_orderly
    | with_reducible apply State.refuseAt_orderly
    | with_reducible apply hk
    | with_reducible apply ite_orderly
    | with_reducible apply ite_fst_orderly
    | (intro; intros)
    | split
    | dsimp only
    | (unfold State.orderly
       dsimp only
       with_reducible apply State.ordered)
    | refine pair_orderly (by assumption) ?_
    | assumption

theorem State.number_orderly (s : State) (hs : s.orderly) : (State.number s).1.orderly := by
  unfold State.number
  repeat' first
    | with_reducible assumption
    | with_reducible apply ite_orderly
    | with_reducible apply ite_fst_orderly
    | (intro; intros)
    | split
    | dsimp only
    | (unfold State.orderly
       dsimp only
       with_reducible apply State.ordered)
    | refine pair_orderly (by assumption) ?_
    | assumption

theorem State.passOn_orderly (s : State) (b : Nat) (p : Nat) (f : Frame) (hs : s.orderly) : (State.passOn s b p f).orderly := by
  unfold State.passOn
  repeat' first
    | with_reducible assumption
    | with_reducible apply State.sendFrom_orderly
    | with_reducible apply State.refuseAt_orderly
    | with_reducible apply ite_orderly
    | with_reducible apply ite_fst_orderly
    | (intro; intros)
    | split
    | dsimp only
    | (unfold State.orderly
       dsimp only
       with_reducible apply State.ordered)
    | refine pair_orderly (by assumption) ?_
    | assumption

theorem State.requestIn_orderly (s : State) (b : Nat) (f : Frame) (hs : s.orderly) : (State.requestIn s b f).orderly := by
  unfold State.requestIn
  repeat' first
    | with_reducible assumption
    | with_reducible apply State.accept_orderly
    | with_reducible apply State.passOn_orderly
    | with_reducible apply ite_orderly
    | with_reducible apply ite_fst_orderly
    | (intro; intros)
    | split
    | dsimp only
    | (unfold State.orderly
       dsimp only
       with_reducible apply State.ordered)
    | refine pair_orderly (by assumption) ?_
    | assumption

theorem State.reqFrame_orderly (s : State) (p : BitVec 8) (op : BitVec 8) (f : Frame) (hs : s.orderly) : (State.reqFrame s p op f).orderly := by
  unfold State.reqFrame
  repeat' first
    | with_reducible assumption
    | with_reducible apply State.arrive_orderly
    | with_reducible apply State.requestIn_orderly
    | with_reducible apply ite_orderly
    | with_reducible apply ite_fst_orderly
    | (intro; intros)
    | split
    | dsimp only
    | (unfold State.orderly
       dsimp only
       with_reducible apply State.ordered)
    | refine pair_orderly (by assumption) ?_
    | assumption

theorem State.reqFrameHits_orderly (s : State) (p : BitVec 8) (op : BitVec 8) (f : Frame) (hits : List EccHit) (hs : s.orderly) : (State.reqFrameHits s p op f hits).orderly := by
  unfold State.reqFrameHits
  repeat' first
    | with_reducible assumption
    | with_reducible apply State.applyHits_orderly
    | with_reducible apply State.arrive_orderly
    | with_reducible apply State.requestIn_orderly
    | with_reducible apply ite_orderly
    | with_reducible apply ite_fst_orderly
    | (intro; intros)
    | split
    | dsimp only
    | (unfold State.orderly
       dsimp only
       with_reducible apply State.ordered)
    | refine pair_orderly (by assumption) ?_
    | assumption

theorem execLd_orderly (port : BitVec 8) (frame : Frame) (hits : List EccHit) (s : State) (hs : s.orderly) : inOrder (execLd port frame hits s) := by
  unfold execLd
  repeat' first
    | with_reducible assumption
    | with_reducible apply State.reqFrameHits_orderly
    | with_reducible apply ite_orderly
    | with_reducible apply ite_fst_orderly
    | with_reducible apply next_orderly
    | (intro; intros)
    | split
    | dsimp only
    | (unfold State.orderly
       dsimp only
       with_reducible apply State.ordered)
    | refine pair_orderly (by assumption) ?_
    | assumption

theorem execLdPeek_orderly (port : BitVec 8) (frame : Frame) (s : State) (hs : s.orderly) : inOrder (execLdPeek port frame s) := by
  unfold execLdPeek
  repeat' first
    | with_reducible assumption
    | with_reducible apply State.reqFrame_orderly
    | with_reducible apply ite_orderly
    | with_reducible apply ite_fst_orderly
    | with_reducible apply next_orderly
    | (intro; intros)
    | split
    | dsimp only
    | (unfold State.orderly
       dsimp only
       with_reducible apply State.ordered)
    | refine pair_orderly (by assumption) ?_
    | assumption

theorem execSt_orderly (port : BitVec 8) (frame : Frame) (hits : List EccHit) (s : State) (hs : s.orderly) : inOrder (execSt port frame hits s) := by
  unfold execSt
  repeat' first
    | with_reducible assumption
    | with_reducible apply State.reqFrameHits_orderly
    | with_reducible apply ite_orderly
    | with_reducible apply ite_fst_orderly
    | with_reducible apply next_orderly
    | (intro; intros)
    | split
    | dsimp only
    | (unfold State.orderly
       dsimp only
       with_reducible apply State.ordered)
    | refine pair_orderly (by assumption) ?_
    | assumption

theorem execStPush_orderly (port : BitVec 8) (frame : Frame) (s : State) (hs : s.orderly) : inOrder (execStPush port frame s) := by
  unfold execStPush
  repeat' first
    | with_reducible assumption
    | with_reducible apply State.reqFrame_orderly
    | with_reducible apply ite_orderly
    | with_reducible apply ite_fst_orderly
    | with_reducible apply next_orderly
    | (intro; intros)
    | split
    | dsimp only
    | (unfold State.orderly
       dsimp only
       with_reducible apply State.ordered)
    | refine pair_orderly (by assumption) ?_
    | assumption

theorem execStMask_orderly (port : BitVec 8) (frame : Frame) (s : State) (hs : s.orderly) : inOrder (execStMask port frame s) := by
  unfold execStMask
  repeat' first
    | with_reducible assumption
    | with_reducible apply State.reqFrame_orderly
    | with_reducible apply ite_orderly
    | with_reducible apply ite_fst_orderly
    | with_reducible apply next_orderly
    | (intro; intros)
    | split
    | dsimp only
    | (unfold State.orderly
       dsimp only
       with_reducible apply State.ordered)
    | refine pair_orderly (by assumption) ?_
    | assumption

theorem execSbRd_orderly (port : BitVec 8) (frame : Frame) (s : State) (hs : s.orderly) : inOrder (execSbRd port frame s) := by
  unfold execSbRd
  repeat' first
    | with_reducible assumption
    | with_reducible apply State.reqFrame_orderly
    | with_reducible apply ite_orderly
    | with_reducible apply ite_fst_orderly
    | with_reducible apply next_orderly
    | (intro; intros)
    | split
    | dsimp only
    | (unfold State.orderly
       dsimp only
       with_reducible apply State.ordered)
    | refine pair_orderly (by assumption) ?_
    | assumption

theorem execSbWr_orderly (port : BitVec 8) (frame : Frame) (s : State) (hs : s.orderly) : inOrder (execSbWr port frame s) := by
  unfold execSbWr
  repeat' first
    | with_reducible assumption
    | with_reducible apply State.reqFrame_orderly
    | with_reducible apply ite_orderly
    | with_reducible apply ite_fst_orderly
    | with_reducible apply next_orderly
    | (intro; intros)
    | split
    | dsimp only
    | (unfold State.orderly
       dsimp only
       with_reducible apply State.ordered)
    | refine pair_orderly (by assumption) ?_
    | assumption

theorem execAtAdd_orderly (port : BitVec 8) (frame : Frame) (s : State) (hs : s.orderly) : inOrder (execAtAdd port frame s) := by
  unfold execAtAdd
  repeat' first
    | with_reducible assumption
    | with_reducible apply State.reqFrame_orderly
    | with_reducible apply ite_orderly
    | with_reducible apply ite_fst_orderly
    | with_reducible apply next_orderly
    | (intro; intros)
    | split
    | dsimp only
    | (unfold State.orderly
       dsimp only
       with_reducible apply State.ordered)
    | refine pair_orderly (by assumption) ?_
    | assumption

theorem execAtMin_orderly (port : BitVec 8) (frame : Frame) (s : State) (hs : s.orderly) : inOrder (execAtMin port frame s) := by
  unfold execAtMin
  repeat' first
    | with_reducible assumption
    | with_reducible apply State.reqFrame_orderly
    | with_reducible apply ite_orderly
    | with_reducible apply ite_fst_orderly
    | with_reducible apply next_orderly
    | (intro; intros)
    | split
    | dsimp only
    | (unfold State.orderly
       dsimp only
       with_reducible apply State.ordered)
    | refine pair_orderly (by assumption) ?_
    | assumption

theorem execAtMax_orderly (port : BitVec 8) (frame : Frame) (s : State) (hs : s.orderly) : inOrder (execAtMax port frame s) := by
  unfold execAtMax
  repeat' first
    | with_reducible assumption
    | with_reducible apply State.reqFrame_orderly
    | with_reducible apply ite_orderly
    | with_reducible apply ite_fst_orderly
    | with_reducible apply next_orderly
    | (intro; intros)
    | split
    | dsimp only
    | (unfold State.orderly
       dsimp only
       with_reducible apply State.ordered)
    | refine pair_orderly (by assumption) ?_
    | assumption

theorem execAtCas_orderly (port : BitVec 8) (frame : Frame) (s : State) (hs : s.orderly) : inOrder (execAtCas port frame s) := by
  unfold execAtCas
  repeat' first
    | with_reducible assumption
    | with_reducible apply State.reqFrame_orderly
    | with_reducible apply ite_orderly
    | with_reducible apply ite_fst_orderly
    | with_reducible apply next_orderly
    | (intro; intros)
    | split
    | dsimp only
    | (unfold State.orderly
       dsimp only
       with_reducible apply State.ordered)
    | refine pair_orderly (by assumption) ?_
    | assumption

theorem execApAdd_orderly (port : BitVec 8) (frame : Frame) (s : State) (hs : s.orderly) : inOrder (execApAdd port frame s) := by
  unfold execApAdd
  repeat' first
    | with_reducible assumption
    | with_reducible apply State.reqFrame_orderly
    | with_reducible apply ite_orderly
    | with_reducible apply ite_fst_orderly
    | with_reducible apply next_orderly
    | (intro; intros)
    | split
    | dsimp only
    | (unfold State.orderly
       dsimp only
       with_reducible apply State.ordered)
    | refine pair_orderly (by assumption) ?_
    | assumption

theorem execApMin_orderly (port : BitVec 8) (frame : Frame) (s : State) (hs : s.orderly) : inOrder (execApMin port frame s) := by
  unfold execApMin
  repeat' first
    | with_reducible assumption
    | with_reducible apply State.reqFrame_orderly
    | with_reducible apply ite_orderly
    | with_reducible apply ite_fst_orderly
    | with_reducible apply next_orderly
    | (intro; intros)
    | split
    | dsimp only
    | (unfold State.orderly
       dsimp only
       with_reducible apply State.ordered)
    | refine pair_orderly (by assumption) ?_
    | assumption

theorem execApMax_orderly (port : BitVec 8) (frame : Frame) (s : State) (hs : s.orderly) : inOrder (execApMax port frame s) := by
  unfold execApMax
  repeat' first
    | with_reducible assumption
    | with_reducible apply State.reqFrame_orderly
    | with_reducible apply ite_orderly
    | with_reducible apply ite_fst_orderly
    | with_reducible apply next_orderly
    | (intro; intros)
    | split
    | dsimp only
    | (unfold State.orderly
       dsimp only
       with_reducible apply State.ordered)
    | refine pair_orderly (by assumption) ?_
    | assumption

theorem execApCas_orderly (port : BitVec 8) (frame : Frame) (s : State) (hs : s.orderly) : inOrder (execApCas port frame s) := by
  unfold execApCas
  repeat' first
    | with_reducible assumption
    | with_reducible apply State.reqFrame_orderly
    | with_reducible apply ite_orderly
    | with_reducible apply ite_fst_orderly
    | with_reducible apply next_orderly
    | (intro; intros)
    | split
    | dsimp only
    | (unfold State.orderly
       dsimp only
       with_reducible apply State.ordered)
    | refine pair_orderly (by assumption) ?_
    | assumption

theorem execCRdS_orderly (port : BitVec 8) (frame : Frame) (s : State) (hs : s.orderly) : inOrder (execCRdS port frame s) := by
  unfold execCRdS
  repeat' first
    | with_reducible assumption
    | with_reducible apply State.reqFrame_orderly
    | with_reducible apply ite_orderly
    | with_reducible apply ite_fst_orderly
    | with_reducible apply next_orderly
    | (intro; intros)
    | split
    | dsimp only
    | (unfold State.orderly
       dsimp only
       with_reducible apply State.ordered)
    | refine pair_orderly (by assumption) ?_
    | assumption

theorem execCRdO_orderly (port : BitVec 8) (frame : Frame) (s : State) (hs : s.orderly) : inOrder (execCRdO port frame s) := by
  unfold execCRdO
  repeat' first
    | with_reducible assumption
    | with_reducible apply State.reqFrame_orderly
    | with_reducible apply ite_orderly
    | with_reducible apply ite_fst_orderly
    | with_reducible apply next_orderly
    | (intro; intros)
    | split
    | dsimp only
    | (unfold State.orderly
       dsimp only
       with_reducible apply State.ordered)
    | refine pair_orderly (by assumption) ?_
    | assumption

theorem execCUpg_orderly (port : BitVec 8) (frame : Frame) (s : State) (hs : s.orderly) : inOrder (execCUpg port frame s) := by
  unfold execCUpg
  repeat' first
    | with_reducible assumption
    | with_reducible apply State.reqFrame_orderly
    | with_reducible apply ite_orderly
    | with_reducible apply ite_fst_orderly
    | with_reducible apply next_orderly
    | (intro; intros)
    | split
    | dsimp only
    | (unfold State.orderly
       dsimp only
       with_reducible apply State.ordered)
    | refine pair_orderly (by assumption) ?_
    | assumption

theorem execCWb_orderly (port : BitVec 8) (frame : Frame) (s : State) (hs : s.orderly) : inOrder (execCWb port frame s) := by
  unfold execCWb
  repeat' first
    | with_reducible assumption
    | with_reducible apply State.reqFrame_orderly
    | with_reducible apply ite_orderly
    | with_reducible apply ite_fst_orderly
    | with_reducible apply next_orderly
    | (intro; intros)
    | split
    | dsimp only
    | (unfold State.orderly
       dsimp only
       with_reducible apply State.ordered)
    | refine pair_orderly (by assumption) ?_
    | assumption

theorem execCEvict_orderly (port : BitVec 8) (frame : Frame) (s : State) (hs : s.orderly) : inOrder (execCEvict port frame s) := by
  unfold execCEvict
  repeat' first
    | with_reducible assumption
    | with_reducible apply State.reqFrame_orderly
    | with_reducible apply ite_orderly
    | with_reducible apply ite_fst_orderly
    | with_reducible apply next_orderly
    | (intro; intros)
    | split
    | dsimp only
    | (unfold State.orderly
       dsimp only
       with_reducible apply State.ordered)
    | refine pair_orderly (by assumption) ?_
    | assumption

theorem State.fenceIn_orderly (s : State) (b : Nat) (f : Frame) (hs : s.orderly) : (State.fenceIn s b f).orderly := by
  unfold State.fenceIn
  repeat' first
    | with_reducible assumption
    | with_reducible apply State.number_orderly
    | with_reducible apply ite_orderly
    | with_reducible apply ite_fst_orderly
    | (intro; intros)
    | split
    | dsimp only
    | (unfold State.orderly
       dsimp only
       with_reducible apply State.ordered)
    | refine pair_orderly (by assumption) ?_
    | assumption

theorem execFence_orderly (port : BitVec 8) (frame : Frame) (s : State) (hs : s.orderly) : inOrder (execFence port frame s) := by
  unfold execFence
  repeat' first
    | with_reducible assumption
    | with_reducible apply State.arrive_orderly
    | with_reducible apply State.fenceIn_orderly
    | with_reducible apply ite_orderly
    | with_reducible apply ite_fst_orderly
    | with_reducible apply next_orderly
    | (intro; intros)
    | split
    | dsimp only
    | (unfold State.orderly
       dsimp only
       with_reducible apply State.ordered)
    | refine pair_orderly (by assumption) ?_
    | assumption

theorem execFenceComplete_orderly (n : Nat) (s : State) (hs : s.orderly) : inOrder (execFenceComplete n s) := by
  unfold execFenceComplete
  repeat' first
    | with_reducible assumption
    | with_reducible apply State.emit_orderly
    | with_reducible apply ite_orderly
    | with_reducible apply ite_fst_orderly
    | with_reducible apply next_orderly
    | (intro; intros)
    | split
    | dsimp only
    | (unfold State.orderly
       dsimp only
       with_reducible apply State.ordered)
    | refine pair_orderly (by assumption) ?_
    | assumption

theorem State.toCluster_orderly (s : State) (n : Nat) (o : Origin) (f : Frame) (hs : s.orderly) : (State.toCluster s n o f).orderly := by
  unfold State.toCluster
  repeat' first
    | with_reducible assumption
    | with_reducible apply State.accept_orderly
    | with_reducible apply State.collOpen_orderly
    | with_reducible apply State.attnRequest_orderly
    | with_reducible apply State.requestIn_orderly
    | with_reducible apply ite_orderly
    | with_reducible apply ite_fst_orderly
    | (intro; intros)
    | split
    | dsimp only
    | (unfold State.orderly
       dsimp only
       with_reducible apply State.ordered)
    | refine pair_orderly (by assumption) ?_
    | assumption

theorem State.fenced_orderly (s : State) (n : Nat) (o : Origin) (f : Frame) (hs : s.orderly) : (State.fenced s n o f).orderly := by
  unfold State.fenced
  repeat' first
    | with_reducible assumption
    | with_reducible apply State.toCluster_orderly
    | with_reducible apply ite_orderly
    | with_reducible apply ite_fst_orderly
    | (intro; intros)
    | split
    | dsimp only
    | (unfold State.orderly
       dsimp only
       with_reducible apply State.ordered)
    | refine pair_orderly (by assumption) ?_
    | assumption

theorem execImplicitFenceRelease_orderly (n : Nat) (s : State) (hs : s.orderly) : inOrder (execImplicitFenceRelease n s) := by
  unfold execImplicitFenceRelease
  repeat' first
    | with_reducible assumption
    | with_reducible apply State.toCluster_orderly
    | with_reducible apply ite_orderly
    | with_reducible apply ite_fst_orderly
    | with_reducible apply next_orderly
    | (intro; intros)
    | split
    | dsimp only
    | (unfold State.orderly
       dsimp only
       with_reducible apply State.ordered)
    | refine pair_orderly (by assumption) ?_
    | assumption

theorem State.releaseStore_orderly (s : State) (r : Req) (hs : s.orderly) : (State.releaseStore s r).orderly := by
  unfold State.releaseStore
  repeat' first
    | with_reducible assumption
    | with_reducible apply State.tryStore_orderly
    | with_reducible apply State.serve_orderly
    | with_reducible apply State.sendOn_orderly
    | with_reducible apply State.route_orderly
    | with_reducible apply ite_orderly
    | with_reducible apply ite_fst_orderly
    | (intro; intros)
    | split
    | dsimp only
    | (unfold State.orderly
       dsimp only
       with_reducible apply State.ordered)
    | refine pair_orderly (by assumption) ?_
    | assumption

theorem execStoreRelease_orderly (n : Nat) (s : State) (hs : s.orderly) : inOrder (execStoreRelease n s) := by
  unfold execStoreRelease
  repeat' first
    | with_reducible assumption
    | with_reducible apply State.wakeStaged_orderly
    | with_reducible apply State.releaseStore_orderly
    | with_reducible apply ite_orderly
    | with_reducible apply ite_fst_orderly
    | with_reducible apply next_orderly
    | (intro; intros)
    | split
    | dsimp only
    | (unfold State.orderly
       dsimp only
       with_reducible apply State.ordered)
    | refine pair_orderly (by assumption) ?_
    | assumption

theorem State.forward_orderly (s : State) (b : Nat) (f : Frame) (hs : s.orderly) : (State.forward s b f).orderly := by
  unfold State.forward
  repeat' first
    | with_reducible assumption
    | with_reducible apply State.countPrt_orderly
    | with_reducible apply State.sendFrom_orderly
    | with_reducible apply ite_orderly
    | with_reducible apply ite_fst_orderly
    | (intro; intros)
    | split
    | dsimp only
    | (unfold State.orderly
       dsimp only
       with_reducible apply State.ordered)
    | refine pair_orderly (by assumption) ?_
    | assumption

theorem State.answered_orderly (s : State) (b : Nat) (r : Req) (f : Frame) (hs : s.orderly) : (State.answered s b r f).orderly := by
  unfold State.answered
  repeat' first
    | with_reducible assumption
    | with_reducible apply State.countPrt_orderly
    | with_reducible apply State.tagFree_orderly
    | with_reducible apply State.putReq_orderly
    | with_reducible apply State.finish_orderly
    | with_reducible apply State.finishFrame_orderly
    | with_reducible apply State.wakeStaged_orderly
    | with_reducible apply State.rateDecrease_orderly
    | with_reducible apply ite_orderly
    | with_reducible apply ite_fst_orderly
    | (intro; intros)
    | split
    | dsimp only
    | (unfold State.orderly
       dsimp only
       with_reducible apply State.ordered)
    | refine pair_orderly (by assumption) ?_
    | assumption

theorem State.responseIn_orderly (s : State) (b : Nat) (f : Frame) (hs : s.orderly) : (State.responseIn s b f).orderly := by
  unfold State.responseIn
  repeat' first
    | with_reducible assumption
    | with_reducible apply State.countPrt_orderly
    | with_reducible apply State.trayAnswer_orderly
    | with_reducible apply State.rateDecrease_orderly
    | with_reducible apply State.forward_orderly
    | with_reducible apply State.answered_orderly
    | with_reducible apply ite_orderly
    | with_reducible apply ite_fst_orderly
    | (intro; intros)
    | split
    | dsimp only
    | (unfold State.orderly
       dsimp only
       with_reducible apply State.ordered)
    | refine pair_orderly (by assumption) ?_
    | assumption

theorem State.rspFrame_orderly (s : State) (p : BitVec 8) (op : BitVec 8) (f : Frame) (hs : s.orderly) : (State.rspFrame s p op f).orderly := by
  unfold State.rspFrame
  repeat' first
    | with_reducible assumption
    | with_reducible apply State.arrive_orderly
    | with_reducible apply State.responseIn_orderly
    | with_reducible apply ite_orderly
    | with_reducible apply ite_fst_orderly
    | (intro; intros)
    | split
    | dsimp only
    | (unfold State.orderly
       dsimp only
       with_reducible apply State.ordered)
    | refine pair_orderly (by assumption) ?_
    | assumption

theorem State.passFrame_orderly (s : State) (p : BitVec 8) (op : BitVec 8) (f : Frame) (hs : s.orderly) : (State.passFrame s p op f).orderly := by
  unfold State.passFrame
  repeat' first
    | with_reducible assumption
    | with_reducible apply State.arrive_orderly
    | with_reducible apply State.forward_orderly
    | with_reducible apply ite_orderly
    | with_reducible apply ite_fst_orderly
    | (intro; intros)
    | split
    | dsimp only
    | (unfold State.orderly
       dsimp only
       with_reducible apply State.ordered)
    | refine pair_orderly (by assumption) ?_
    | assumption

theorem execRspData_orderly (port : BitVec 8) (frame : Frame) (s : State) (hs : s.orderly) : inOrder (execRspData port frame s) := by
  unfold execRspData
  repeat' first
    | with_reducible assumption
    | with_reducible apply State.rspFrame_orderly
    | with_reducible apply ite_orderly
    | with_reducible apply ite_fst_orderly
    | with_reducible apply next_orderly
    | (intro; intros)
    | split
    | dsimp only
    | (unfold State.orderly
       dsimp only
       with_reducible apply State.ordered)
    | refine pair_orderly (by assumption) ?_
    | assumption

theorem execRspCmp_orderly (port : BitVec 8) (frame : Frame) (s : State) (hs : s.orderly) : inOrder (execRspCmp port frame s) := by
  unfold execRspCmp
  repeat' first
    | with_reducible assumption
    | with_reducible apply State.rspFrame_orderly
    | with_reducible apply ite_orderly
    | with_reducible apply ite_fst_orderly
    | with_reducible apply next_orderly
    | (intro; intros)
    | split
    | dsimp only
    | (unfold State.orderly
       dsimp only
       with_reducible apply State.ordered)
    | refine pair_orderly (by assumption) ?_
    | assumption

theorem execSbData_orderly (port : BitVec 8) (frame : Frame) (s : State) (hs : s.orderly) : inOrder (execSbData port frame s) := by
  unfold execSbData
  repeat' first
    | with_reducible assumption
    | with_reducible apply State.rspFrame_orderly
    | with_reducible apply ite_orderly
    | with_reducible apply ite_fst_orderly
    | with_reducible apply next_orderly
    | (intro; intros)
    | split
    | dsimp only
    | (unfold State.orderly
       dsimp only
       with_reducible apply State.ordered)
    | refine pair_orderly (by assumption) ?_
    | assumption

theorem execCData_orderly (port : BitVec 8) (frame : Frame) (s : State) (hs : s.orderly) : inOrder (execCData port frame s) := by
  unfold execCData
  repeat' first
    | with_reducible assumption
    | with_reducible apply State.rspFrame_orderly
    | with_reducible apply ite_orderly
    | with_reducible apply ite_fst_orderly
    | with_reducible apply next_orderly
    | (intro; intros)
    | split
    | dsimp only
    | (unfold State.orderly
       dsimp only
       with_reducible apply State.ordered)
    | refine pair_orderly (by assumption) ?_
    | assumption

theorem execCGnt_orderly (port : BitVec 8) (frame : Frame) (s : State) (hs : s.orderly) : inOrder (execCGnt port frame s) := by
  unfold execCGnt
  repeat' first
    | with_reducible assumption
    | with_reducible apply State.rspFrame_orderly
    | with_reducible apply ite_orderly
    | with_reducible apply ite_fst_orderly
    | with_reducible apply next_orderly
    | (intro; intros)
    | split
    | dsimp only
    | (unfold State.orderly
       dsimp only
       with_reducible apply State.ordered)
    | refine pair_orderly (by assumption) ?_
    | assumption

theorem execSnpInv_orderly (port : BitVec 8) (frame : Frame) (s : State) (hs : s.orderly) : inOrder (execSnpInv port frame s) := by
  unfold execSnpInv
  repeat' first
    | with_reducible assumption
    | with_reducible apply State.passFrame_orderly
    | with_reducible apply ite_orderly
    | with_reducible apply ite_fst_orderly
    | with_reducible apply next_orderly
    | (intro; intros)
    | split
    | dsimp only
    | (unfold State.orderly
       dsimp only
       with_reducible apply State.ordered)
    | refine pair_orderly (by assumption) ?_
    | assumption

theorem execSnpShr_orderly (port : BitVec 8) (frame : Frame) (s : State) (hs : s.orderly) : inOrder (execSnpShr port frame s) := by
  unfold execSnpShr
  repeat' first
    | with_reducible assumption
    | with_reducible apply State.passFrame_orderly
    | with_reducible apply ite_orderly
    | with_reducible apply ite_fst_orderly
    | with_reducible apply next_orderly
    | (intro; intros)
    | split
    | dsimp only
    | (unfold State.orderly
       dsimp only
       with_reducible apply State.ordered)
    | refine pair_orderly (by assumption) ?_
    | assumption

theorem execSnpBinv_orderly (port : BitVec 8) (frame : Frame) (s : State) (hs : s.orderly) : inOrder (execSnpBinv port frame s) := by
  unfold execSnpBinv
  repeat' first
    | with_reducible assumption
    | with_reducible apply State.passFrame_orderly
    | with_reducible apply ite_orderly
    | with_reducible apply ite_fst_orderly
    | with_reducible apply next_orderly
    | (intro; intros)
    | split
    | dsimp only
    | (unfold State.orderly
       dsimp only
       with_reducible apply State.ordered)
    | refine pair_orderly (by assumption) ?_
    | assumption

theorem execFaultRec_orderly (port : BitVec 8) (frame : Frame) (s : State) (hs : s.orderly) : inOrder (execFaultRec port frame s) := by
  unfold execFaultRec
  repeat' first
    | with_reducible assumption
    | with_reducible apply State.passFrame_orderly
    | with_reducible apply ite_orderly
    | with_reducible apply ite_fst_orderly
    | with_reducible apply next_orderly
    | (intro; intros)
    | split
    | dsimp only
    | (unfold State.orderly
       dsimp only
       with_reducible apply State.ordered)
    | refine pair_orderly (by assumption) ?_
    | assumption

theorem execDomNote_orderly (port : BitVec 8) (frame : Frame) (s : State) (hs : s.orderly) : inOrder (execDomNote port frame s) := by
  unfold execDomNote
  repeat' first
    | with_reducible assumption
    | with_reducible apply State.passFrame_orderly
    | with_reducible apply ite_orderly
    | with_reducible apply ite_fst_orderly
    | with_reducible apply next_orderly
    | (intro; intros)
    | split
    | dsimp only
    | (unfold State.orderly
       dsimp only
       with_reducible apply State.ordered)
    | refine pair_orderly (by assumption) ?_
    | assumption

theorem State.copyBack_orderly (s : State) (x : Snoop) (data : Option (List Byte)) (hs : s.orderly) : (State.copyBack s x data).orderly := by
  unfold State.copyBack
  repeat' first
    | with_reducible assumption
    | with_reducible apply State.dropHolder_orderly
    | with_reducible apply State.homeWrite_orderly
    | with_reducible apply ite_orderly
    | with_reducible apply ite_fst_orderly
    | (intro; intros)
    | split
    | dsimp only
    | (unfold State.orderly
       dsimp only
       with_reducible apply State.ordered)
    | refine pair_orderly (by assumption) ?_
    | assumption

theorem State.snoopFor_orderly (s : State) (x : Snoop) (r : Req) (data : Option (List Byte)) (hs : s.orderly) : (State.snoopFor s x r data).orderly := by
  unfold State.snoopFor
  repeat' first
    | with_reducible assumption
    | with_reducible apply State.dropHolder_orderly
    | with_reducible apply State.putReq_orderly
    | with_reducible apply State.copyBack_orderly
    | with_reducible apply ite_orderly
    | with_reducible apply ite_fst_orderly
    | (intro; intros)
    | split
    | dsimp only
    | (unfold State.orderly
       dsimp only
       with_reducible apply State.ordered)
    | refine pair_orderly (by assumption) ?_
    | assumption

theorem State.snoopAnswer_orderly (s : State) (x : Snoop) (data : Option (List Byte)) (hs : s.orderly) : (State.snoopAnswer s x data).orderly := by
  unfold State.snoopAnswer
  repeat' first
    | with_reducible assumption
    | with_reducible apply State.setDir_orderly
    | with_reducible apply State.settled_orderly
    | with_reducible apply State.copyBack_orderly
    | with_reducible apply State.snoopFor_orderly
    | with_reducible apply ite_orderly
    | with_reducible apply ite_fst_orderly
    | (intro; intros)
    | split
    | dsimp only
    | (unfold State.orderly
       dsimp only
       with_reducible apply State.ordered)
    | refine pair_orderly (by assumption) ?_
    | assumption

theorem State.snoopIn_orderly (s : State) (b : Nat) (f : Frame) (data : Option (List Byte)) (hs : s.orderly) : (State.snoopIn s b f data).orderly := by
  unfold State.snoopIn
  repeat' first
    | with_reducible assumption
    | with_reducible apply State.countPrt_orderly
    | with_reducible apply State.forward_orderly
    | with_reducible apply State.snoopAnswer_orderly
    | with_reducible apply ite_orderly
    | with_reducible apply ite_fst_orderly
    | (intro; intros)
    | split
    | dsimp only
    | (unfold State.orderly
       dsimp only
       with_reducible apply State.ordered)
    | refine pair_orderly (by assumption) ?_
    | assumption

theorem execSnpAck_orderly (port : BitVec 8) (frame : Frame) (s : State) (hs : s.orderly) : inOrder (execSnpAck port frame s) := by
  unfold execSnpAck
  repeat' first
    | with_reducible assumption
    | with_reducible apply State.arrive_orderly
    | with_reducible apply State.snoopIn_orderly
    | with_reducible apply ite_orderly
    | with_reducible apply ite_fst_orderly
    | with_reducible apply next_orderly
    | (intro; intros)
    | split
    | dsimp only
    | (unfold State.orderly
       dsimp only
       with_reducible apply State.ordered)
    | refine pair_orderly (by assumption) ?_
    | assumption

theorem execSnpData_orderly (port : BitVec 8) (frame : Frame) (s : State) (hs : s.orderly) : inOrder (execSnpData port frame s) := by
  unfold execSnpData
  repeat' first
    | with_reducible assumption
    | with_reducible apply State.arrive_orderly
    | with_reducible apply State.snoopIn_orderly
    | with_reducible apply ite_orderly
    | with_reducible apply ite_fst_orderly
    | with_reducible apply next_orderly
    | (intro; intros)
    | split
    | dsimp only
    | (unfold State.orderly
       dsimp only
       with_reducible apply State.ordered)
    | refine pair_orderly (by assumption) ?_
    | assumption

theorem execLeaseRenew_orderly (port : BitVec 8) (frame : Frame) (s : State) (hs : s.orderly) : inOrder (execLeaseRenew port frame s) := by
  unfold execLeaseRenew
  repeat' first
    | with_reducible assumption
    | with_reducible apply State.countLse_orderly
    | with_reducible apply State.leaseRenew_orderly
    | with_reducible apply State.arrive_orderly
    | with_reducible apply ite_orderly
    | with_reducible apply ite_fst_orderly
    | with_reducible apply next_orderly
    | (intro; intros)
    | split
    | dsimp only
    | (unfold State.orderly
       dsimp only
       with_reducible apply State.ordered)
    | refine pair_orderly (by assumption) ?_
    | assumption

theorem State.clusterIn_orderly (s : State) (b : Nat) (f : Frame) (hs : s.orderly) : (State.clusterIn s b f).orderly := by
  unfold State.clusterIn
  repeat' first
    | with_reducible assumption
    | with_reducible apply State.number_orderly
    | with_reducible apply State.fenced_orderly
    | with_reducible apply ite_orderly
    | with_reducible apply ite_fst_orderly
    | (intro; intros)
    | split
    | dsimp only
    | (unfold State.orderly
       dsimp only
       with_reducible apply State.ordered)
    | refine pair_orderly (by assumption) ?_
    | assumption

theorem execCollOpen_orderly (port : BitVec 8) (frame : Frame) (s : State) (hs : s.orderly) : inOrder (execCollOpen port frame s) := by
  unfold execCollOpen
  repeat' first
    | with_reducible assumption
    | with_reducible apply State.arrive_orderly
    | with_reducible apply State.clusterIn_orderly
    | with_reducible apply ite_orderly
    | with_reducible apply ite_fst_orderly
    | with_reducible apply next_orderly
    | (intro; intros)
    | split
    | dsimp only
    | (unfold State.orderly
       dsimp only
       with_reducible apply State.ordered)
    | refine pair_orderly (by assumption) ?_
    | assumption

theorem execCollContrib_orderly (port : BitVec 8) (frame : Frame) (s : State) (hs : s.orderly) : inOrder (execCollContrib port frame s) := by
  unfold execCollContrib
  repeat' first
    | with_reducible assumption
    | with_reducible apply State.collContrib_orderly
    | with_reducible apply State.arrive_orderly
    | with_reducible apply State.forward_orderly
    | with_reducible apply ite_orderly
    | with_reducible apply ite_fst_orderly
    | with_reducible apply next_orderly
    | (intro; intros)
    | split
    | dsimp only
    | (unfold State.orderly
       dsimp only
       with_reducible apply State.ordered)
    | refine pair_orderly (by assumption) ?_
    | assumption

theorem State.strayColl_orderly (s : State) (b : Nat) (f : Frame) (hs : s.orderly) : (State.strayColl s b f).orderly := by
  unfold State.strayColl
  repeat' first
    | with_reducible assumption
    | with_reducible apply State.countClv_orderly
    | with_reducible apply State.forward_orderly
    | with_reducible apply ite_orderly
    | with_reducible apply ite_fst_orderly
    | (intro; intros)
    | split
    | dsimp only
    | (unfold State.orderly
       dsimp only
       with_reducible apply State.ordered)
    | refine pair_orderly (by assumption) ?_
    | assumption

theorem execCollResult_orderly (port : BitVec 8) (frame : Frame) (s : State) (hs : s.orderly) : inOrder (execCollResult port frame s) := by
  unfold execCollResult
  repeat' first
    | with_reducible assumption
    | with_reducible apply State.passResult_orderly
    | with_reducible apply State.arrive_orderly
    | with_reducible apply State.strayColl_orderly
    | with_reducible apply ite_orderly
    | with_reducible apply ite_fst_orderly
    | with_reducible apply next_orderly
    | (intro; intros)
    | split
    | dsimp only
    | (unfold State.orderly
       dsimp only
       with_reducible apply State.ordered)
    | refine pair_orderly (by assumption) ?_
    | assumption

theorem execCollGrant_orderly (port : BitVec 8) (frame : Frame) (s : State) (hs : s.orderly) : inOrder (execCollGrant port frame s) := by
  unfold execCollGrant
  repeat' first
    | with_reducible assumption
    | with_reducible apply State.onColl_orderly
    | with_reducible apply State.collProgress_orderly
    | with_reducible apply State.arrive_orderly
    | with_reducible apply State.strayColl_orderly
    | with_reducible apply ite_orderly
    | with_reducible apply ite_fst_orderly
    | with_reducible apply next_orderly
    | (intro; intros)
    | split
    | dsimp only
    | (unfold State.orderly
       dsimp only
       with_reducible apply State.ordered)
    | refine pair_orderly (by assumption) ?_
    | assumption

theorem execCollDone_orderly (port : BitVec 8) (frame : Frame) (s : State) (hs : s.orderly) : inOrder (execCollDone port frame s) := by
  unfold execCollDone
  repeat' first
    | with_reducible assumption
    | with_reducible apply State.tagFree_orderly
    | with_reducible apply State.collDoneFrom_orderly
    | with_reducible apply State.arrive_orderly
    | with_reducible apply State.answered_orderly
    | with_reducible apply State.strayColl_orderly
    | with_reducible apply ite_orderly
    | with_reducible apply ite_fst_orderly
    | with_reducible apply next_orderly
    | (intro; intros)
    | split
    | dsimp only
    | (unfold State.orderly
       dsimp only
       with_reducible apply State.ordered)
    | refine pair_orderly (by assumption) ?_
    | assumption

theorem execAbort_orderly (port : BitVec 8) (frame : Frame) (s : State) (hs : s.orderly) : inOrder (execAbort port frame s) := by
  unfold execAbort
  repeat' first
    | with_reducible assumption
    | with_reducible apply State.collAbortFrame_orderly
    | with_reducible apply State.arrive_orderly
    | with_reducible apply State.forward_orderly
    | with_reducible apply ite_orderly
    | with_reducible apply ite_fst_orderly
    | with_reducible apply next_orderly
    | (intro; intros)
    | split
    | dsimp only
    | (unfold State.orderly
       dsimp only
       with_reducible apply State.ordered)
    | refine pair_orderly (by assumption) ?_
    | assumption

theorem execAtnDecode_orderly (port : BitVec 8) (frame : Frame) (s : State) (hs : s.orderly) : inOrder (execAtnDecode port frame s) := by
  unfold execAtnDecode
  repeat' first
    | with_reducible assumption
    | with_reducible apply State.arrive_orderly
    | with_reducible apply State.clusterIn_orderly
    | with_reducible apply ite_orderly
    | with_reducible apply ite_fst_orderly
    | with_reducible apply next_orderly
    | (intro; intros)
    | split
    | dsimp only
    | (unfold State.orderly
       dsimp only
       with_reducible apply State.ordered)
    | refine pair_orderly (by assumption) ?_
    | assumption

theorem execAtnBind_orderly (port : BitVec 8) (frame : Frame) (s : State) (hs : s.orderly) : inOrder (execAtnBind port frame s) := by
  unfold execAtnBind
  repeat' first
    | with_reducible assumption
    | with_reducible apply State.arrive_orderly
    | with_reducible apply State.clusterIn_orderly
    | with_reducible apply ite_orderly
    | with_reducible apply ite_fst_orderly
    | with_reducible apply next_orderly
    | (intro; intros)
    | split
    | dsimp only
    | (unfold State.orderly
       dsimp only
       with_reducible apply State.ordered)
    | refine pair_orderly (by assumption) ?_
    | assumption

theorem execAtnRelease_orderly (port : BitVec 8) (frame : Frame) (s : State) (hs : s.orderly) : inOrder (execAtnRelease port frame s) := by
  unfold execAtnRelease
  repeat' first
    | with_reducible assumption
    | with_reducible apply State.arrive_orderly
    | with_reducible apply State.clusterIn_orderly
    | with_reducible apply ite_orderly
    | with_reducible apply ite_fst_orderly
    | with_reducible apply next_orderly
    | (intro; intros)
    | split
    | dsimp only
    | (unfold State.orderly
       dsimp only
       with_reducible apply State.ordered)
    | refine pair_orderly (by assumption) ?_
    | assumption

theorem execAtnSub_orderly (port : BitVec 8) (frame : Frame) (s : State) (hs : s.orderly) : inOrder (execAtnSub port frame s) := by
  unfold execAtnSub
  repeat' first
    | with_reducible assumption
    | with_reducible apply State.attnSub_orderly
    | with_reducible apply State.arrive_orderly
    | with_reducible apply State.number_orderly
    | with_reducible apply State.requestIn_orderly
    | with_reducible apply ite_orderly
    | with_reducible apply ite_fst_orderly
    | with_reducible apply next_orderly
    | (intro; intros)
    | split
    | dsimp only
    | (unfold State.orderly
       dsimp only
       with_reducible apply State.ordered)
    | refine pair_orderly (by assumption) ?_
    | assumption

theorem State.attnAnswerIn_orderly (s : State) (b : Nat) (f : Frame) (hs : s.orderly) : (State.attnAnswerIn s b f).orderly := by
  unfold State.attnAnswerIn
  repeat' first
    | with_reducible assumption
    | with_reducible apply State.countPrt_orderly
    | with_reducible apply State.emit_orderly
    | with_reducible apply State.forward_orderly
    | with_reducible apply State.answered_orderly
    | with_reducible apply ite_orderly
    | with_reducible apply ite_fst_orderly
    | (intro; intros)
    | split
    | dsimp only
    | (unfold State.orderly
       dsimp only
       with_reducible apply State.ordered)
    | refine pair_orderly (by assumption) ?_
    | assumption

theorem execAtnResult_orderly (port : BitVec 8) (frame : Frame) (s : State) (hs : s.orderly) : inOrder (execAtnResult port frame s) := by
  unfold execAtnResult
  repeat' first
    | with_reducible assumption
    | with_reducible apply State.arrive_orderly
    | with_reducible apply State.attnAnswerIn_orderly
    | with_reducible apply ite_orderly
    | with_reducible apply ite_fst_orderly
    | with_reducible apply next_orderly
    | (intro; intros)
    | split
    | dsimp only
    | (unfold State.orderly
       dsimp only
       with_reducible apply State.ordered)
    | refine pair_orderly (by assumption) ?_
    | assumption

theorem execAtnPart_orderly (port : BitVec 8) (frame : Frame) (s : State) (hs : s.orderly) : inOrder (execAtnPart port frame s) := by
  unfold execAtnPart
  repeat' first
    | with_reducible assumption
    | with_reducible apply State.attnPart_orderly
    | with_reducible apply State.rateDecrease_orderly
    | with_reducible apply State.arrive_orderly
    | with_reducible apply State.attnAnswerIn_orderly
    | with_reducible apply ite_orderly
    | with_reducible apply ite_fst_orderly
    | with_reducible apply next_orderly
    | (intro; intros)
    | split
    | dsimp only
    | (unfold State.orderly
       dsimp only
       with_reducible apply State.ordered)
    | refine pair_orderly (by assumption) ?_
    | assumption

end Sys2Proof.Machine
end

