-- ==== Sys2Proof/Laws/KeepSend.lean ====
section
/-! SUPPORT. Every operation of Send keeps the queues and memories in order. -/

set_option linter.unusedTactic false
set_option linter.unreachableTactic false
set_option linter.unusedVariables false

namespace Sys2Proof.Machine

theorem State.sendRequest_orderly (s : State) (k : Nat) (t : Nat) (sink : ThreadSink) (f : Frame) (hs : s.orderly) : (State.sendRequest s k t sink f).orderly := by
  unfold State.sendRequest
  repeat' first
    | with_reducible assumption
    | with_reducible apply State.onThread_orderly
    | with_reducible apply State.coreSend_orderly
    | with_reducible apply State.number_orderly
    | with_reducible apply State.fenced_orderly
    | with_reducible apply ite_orderly
    | with_reducible apply ite_fst_orderly
    | (intro; intros)
    | split
    | dsimp only
    | (unfold State.orderly
       dsimp only
       with_reducible apply State.ordered)
    | refine pair_orderly (by assumption) ?_
    | assumption

theorem State.sendPlain_orderly (s : State) (k : Nat) (t : Nat) (f : Frame) (hs : s.orderly) : (State.sendPlain s k t f).orderly := by
  unfold State.sendPlain
  repeat' first
    | with_reducible assumption
    | with_reducible apply State.onCore_orderly
    | with_reducible apply State.onThread_orderly
    | with_reducible apply State.sendFrom_orderly
    | with_reducible apply State.collContrib_orderly
    | with_reducible apply State.collAbortFrame_orderly
    | with_reducible apply State.number_orderly
    | with_reducible apply ite_orderly
    | with_reducible apply ite_fst_orderly
    | (intro; intros)
    | split
    | dsimp only
    | (unfold State.orderly
       dsimp only
       with_reducible apply State.ordered)
    | refine pair_orderly (by assumption) ?_
    | assumption

theorem execSend_orderly (core : BitVec 10) (tid : BitVec 6) (ins : Ins) (s : State) (hs : s.orderly) : inOrder (execSend core tid ins s) := by
  unfold execSend
  repeat' first
    | with_reducible assumption
    | with_reducible apply State.localWrite_orderly
    | with_reducible apply State.issue_orderly
    | with_reducible apply State.faultHere_orderly
    | with_reducible apply State.sendRequest_orderly
    | with_reducible apply State.sendPlain_orderly
    | with_reducible apply ite_orderly
    | with_reducible apply ite_fst_orderly
    | with_reducible apply next_orderly
    | (intro; intros)
    | split
    | dsimp only
    | (unfold State.orderly
       dsimp only
       with_reducible apply State.ordered)
    | refine pair_orderly (by assumption) ?_
    | assumption

end Sys2Proof.Machine
end

