-- ==== Sys2Proof/Laws/KeepStartup.lean ====
section
/-! SUPPORT. Every operation of Startup keeps the queues and memories in order. -/

set_option linter.unusedTactic false
set_option linter.unreachableTactic false
set_option linter.unusedVariables false

namespace Sys2Proof.Machine

theorem State.cold_orderly (s : State) (hs : s.orderly) : (State.cold s).orderly := by
  exact ⟨Nat.zero_le _, Nat.zero_le _, Nat.zero_le _, rfl, rfl, rfl, rfl, rfl, rfl⟩

theorem State.powerOff_orderly (s : State) (hs : s.orderly) : (State.powerOff s).orderly := by
  unfold State.powerOff
  repeat' first
    | with_reducible assumption
    | with_reducible apply State.cold_orderly
    | with_reducible apply ite_orderly
    | with_reducible apply ite_fst_orderly
    | (intro; intros)
    | split
    | dsimp only
    | (unfold State.orderly
       dsimp only
       with_reducible apply State.ordered)
    | refine pair_orderly (by assumption) ?_
    | assumption

theorem execPowerGood_orderly (s : State) (hs : s.orderly) : inOrder (execPowerGood s) := by
  unfold execPowerGood
  repeat' first
    | with_reducible assumption
    | with_reducible apply State.changeState_orderly
    | with_reducible apply State.cold_orderly
    | with_reducible apply ite_orderly
    | with_reducible apply ite_fst_orderly
    | with_reducible apply next_orderly
    | (intro; intros)
    | split
    | dsimp only
    | (unfold State.orderly
       dsimp only
       with_reducible apply State.ordered)
    | refine pair_orderly (by assumption) ?_
    | assumption

theorem execPowerRemoved_orderly (s : State) (hs : s.orderly) : inOrder (execPowerRemoved s) := by
  unfold execPowerRemoved
  repeat' first
    | with_reducible assumption
    | with_reducible apply State.powerOff_orderly
    | with_reducible apply ite_orderly
    | with_reducible apply ite_fst_orderly
    | with_reducible apply next_orderly
    | (intro; intros)
    | split
    | dsimp only
    | (unfold State.orderly
       dsimp only
       with_reducible apply State.ordered)
    | refine pair_orderly (by assumption) ?_
    | assumption

theorem execInputUndervoltage_orderly (since : BitVec 64) (s : State) (hs : s.orderly) : inOrder (execInputUndervoltage since s) := by
  unfold execInputUndervoltage
  repeat' first
    | with_reducible assumption
    | with_reducible apply State.powerOff_orderly
    | with_reducible apply ite_orderly
    | with_reducible apply ite_fst_orderly
    | with_reducible apply next_orderly
    | (intro; intros)
    | split
    | dsimp only
    | (unfold State.orderly
       dsimp only
       with_reducible apply State.ordered)
    | refine pair_orderly (by assumption) ?_
    | assumption

theorem execInputOvercurrent_orderly (s : State) (hs : s.orderly) : inOrder (execInputOvercurrent s) := by
  unfold execInputOvercurrent
  repeat' first
    | with_reducible assumption
    | with_reducible apply State.powerOff_orderly
    | with_reducible apply ite_orderly
    | with_reducible apply ite_fst_orderly
    | with_reducible apply next_orderly
    | (intro; intros)
    | split
    | dsimp only
    | (unfold State.orderly
       dsimp only
       with_reducible apply State.ordered)
    | refine pair_orderly (by assumption) ?_
    | assumption

theorem execPresentDeassert_orderly (second : Bool) (s : State) (hs : s.orderly) : inOrder (execPresentDeassert second s) := by
  unfold execPresentDeassert
  repeat' first
    | with_reducible assumption
    | with_reducible apply State.powerOff_orderly
    | with_reducible apply ite_orderly
    | with_reducible apply ite_fst_orderly
    | with_reducible apply next_orderly
    | (intro; intros)
    | split
    | dsimp only
    | (unfold State.orderly
       dsimp only
       with_reducible apply State.ordered)
    | refine pair_orderly (by assumption) ?_
    | assumption

theorem execPresent1Assert_orderly (s : State) (hs : s.orderly) : inOrder (execPresent1Assert s) := by
  unfold execPresent1Assert
  repeat' first
    | with_reducible assumption
    | with_reducible apply ite_orderly
    | with_reducible apply ite_fst_orderly
    | with_reducible apply next_orderly
    | (intro; intros)
    | split
    | dsimp only
    | (unfold State.orderly
       dsimp only
       with_reducible apply State.ordered)
    | refine pair_orderly (by assumption) ?_
    | assumption

theorem execPrechargeComplete_orderly (s : State) (hs : s.orderly) : inOrder (execPrechargeComplete s) := by
  unfold execPrechargeComplete
  repeat' first
    | with_reducible assumption
    | with_reducible apply ite_orderly
    | with_reducible apply ite_fst_orderly
    | with_reducible apply next_orderly
    | (intro; intros)
    | split
    | dsimp only
    | (unfold State.orderly
       dsimp only
       with_reducible apply State.ordered)
    | refine pair_orderly (by assumption) ?_
    | assumption

theorem execPresent2Stable_orderly (s : State) (hs : s.orderly) : inOrder (execPresent2Stable s) := by
  unfold execPresent2Stable
  repeat' first
    | with_reducible assumption
    | with_reducible apply ite_orderly
    | with_reducible apply ite_fst_orderly
    | with_reducible apply next_orderly
    | (intro; intros)
    | split
    | dsimp only
    | (unfold State.orderly
       dsimp only
       with_reducible apply State.ordered)
    | refine pair_orderly (by assumption) ?_
    | assumption

theorem execAttnBtnPress_orderly (since : BitVec 64) (s : State) (hs : s.orderly) : inOrder (execAttnBtnPress since s) := by
  unfold execAttnBtnPress
  repeat' first
    | with_reducible assumption
    | with_reducible apply State.event_orderly
    | with_reducible apply ite_orderly
    | with_reducible apply ite_fst_orderly
    | with_reducible apply next_orderly
    | (intro; intros)
    | split
    | dsimp only
    | (unfold State.orderly
       dsimp only
       with_reducible apply State.ordered)
    | refine pair_orderly (by assumption) ?_
    | assumption

theorem State.bootHalt_orderly (s : State) (hs : s.orderly) : (State.bootHalt s).orderly := by
  unfold State.bootHalt
  repeat' first
    | with_reducible assumption
    | with_reducible apply State.logE_orderly
    | with_reducible apply State.enterHalt_orderly
    | with_reducible apply ite_orderly
    | with_reducible apply ite_fst_orderly
    | (intro; intros)
    | split
    | dsimp only
    | (unfold State.orderly
       dsimp only
       with_reducible apply State.ordered)
    | refine pair_orderly (by assumption) ?_
    | assumption

theorem State.bootFirmware_orderly (s : State) (r : BootReport) (hs : s.orderly) : (State.bootFirmware s r).orderly := by
  unfold State.bootFirmware
  repeat' first
    | with_reducible assumption
    | with_reducible apply State.bootHalt_orderly
    | with_reducible apply ite_orderly
    | with_reducible apply ite_fst_orderly
    | (intro; intros)
    | split
    | dsimp only
    | (unfold State.orderly
       dsimp only
       with_reducible apply State.ordered)
    | refine pair_orderly (by assumption) ?_
    | assumption

theorem State.chooseSlot_orderly (s : State) (n : Nat) (hs : s.orderly) : (State.chooseSlot s n).1.orderly := by
  induction n generalizing s with
  | zero => exact hs
  | succ n ih =>
    unfold State.chooseSlot
    split
    · exact ih s hs
    · split
      · exact hs
      · exact ih _ (State.logE_orderly _ _ _ _ _ _ hs)

theorem State.sealOpened_orderly (s : State) (hs : s.orderly) : (State.sealOpened s).orderly := by
  unfold State.sealOpened
  repeat' first
    | with_reducible assumption
    | with_reducible apply State.logWith_orderly
    | with_reducible apply ite_orderly
    | with_reducible apply ite_fst_orderly
    | (intro; intros)
    | split
    | dsimp only
    | (unfold State.orderly
       dsimp only
       with_reducible apply State.ordered)
    | refine pair_orderly (by assumption) ?_
    | assumption

theorem State.bootFuses_orderly (s : State) (r : BootReport) (hs : s.orderly) : (State.bootFuses s r).orderly := by
  unfold State.bootFuses
  repeat' first
    | with_reducible assumption
    | with_reducible apply State.bootHalt_orderly
    | with_reducible apply State.sealOpened_orderly
    | with_reducible apply State.chooseSlot_orderly
    | with_reducible apply foldl_orderly
    | with_reducible apply foldl_fst_orderly
    | with_reducible apply ite_orderly
    | with_reducible apply ite_fst_orderly
    | (intro; intros)
    | split
    | dsimp only
    | (unfold State.orderly
       dsimp only
       with_reducible apply State.ordered)
    | refine pair_orderly (by assumption) ?_
    | assumption

theorem State.markAbsent_orderly (s : State) (lc : Nat) (mask : Nat) (hs : s.orderly) : (State.markAbsent s lc mask).orderly := by
  unfold State.markAbsent
  repeat' first
    | with_reducible assumption
    | with_reducible apply State.logWith_orderly
    | with_reducible apply ite_orderly
    | with_reducible apply ite_fst_orderly
    | (intro; intros)
    | split
    | dsimp only
    | (unfold State.orderly
       dsimp only
       with_reducible apply State.ordered)
    | refine pair_orderly (by assumption) ?_
    | assumption

theorem State.bootTrellis_orderly (s : State) (r : BootReport) (hs : s.orderly) : (State.bootTrellis s r).orderly := by
  unfold State.bootTrellis
  repeat' first
    | with_reducible assumption
    | with_reducible apply State.logE_orderly
    | with_reducible apply State.enterHalt_orderly
    | with_reducible apply State.markAbsent_orderly
    | with_reducible apply foldl_orderly
    | with_reducible apply foldl_fst_orderly
    | with_reducible apply ite_orderly
    | with_reducible apply ite_fst_orderly
    | (intro; intros)
    | split
    | dsimp only
    | (unfold State.orderly
       dsimp only
       with_reducible apply State.ordered)
    | refine pair_orderly (by assumption) ?_
    | assumption

theorem State.stepFails_orderly (s : State) (hs : s.orderly) : (State.stepFails s).orderly := by
  unfold State.stepFails
  repeat' first
    | with_reducible assumption
    | with_reducible apply State.draw_orderly
    | with_reducible apply State.enterHalt_orderly
    | with_reducible apply ite_orderly
    | with_reducible apply ite_fst_orderly
    | (intro; intros)
    | split
    | dsimp only
    | (unfold State.orderly
       dsimp only
       with_reducible apply State.ordered)
    | refine pair_orderly (by assumption) ?_
    | assumption

theorem State.bootStepDone_orderly (s : State) (r : BootReport) (hs : s.orderly) : (State.bootStepDone s r).orderly := by
  unfold State.bootStepDone
  repeat' first
    | with_reducible assumption
    | with_reducible apply State.event_orderly
    | with_reducible apply State.bootFirmware_orderly
    | with_reducible apply State.bootFuses_orderly
    | with_reducible apply State.bootTrellis_orderly
    | with_reducible apply State.stepFails_orderly
    | with_reducible apply ite_orderly
    | with_reducible apply ite_fst_orderly
    | (intro; intros)
    | split
    | dsimp only
    | (unfold State.orderly
       dsimp only
       with_reducible apply State.ordered)
    | refine pair_orderly (by assumption) ?_
    | assumption

theorem execBootStepComplete_orderly (report : BootReport) (s : State) (hs : s.orderly) : inOrder (execBootStepComplete report s) := by
  unfold execBootStepComplete
  repeat' first
    | with_reducible assumption
    | with_reducible apply State.bootStepDone_orderly
    | with_reducible apply ite_orderly
    | with_reducible apply ite_fst_orderly
    | with_reducible apply next_orderly
    | (intro; intros)
    | split
    | dsimp only
    | (unfold State.orderly
       dsimp only
       with_reducible apply State.ordered)
    | refine pair_orderly (by assumption) ?_
    | assumption

theorem execTestStepComplete_orderly (ok : Bool) (s : State) (hs : s.orderly) : inOrder (execTestStepComplete ok s) := by
  unfold execTestStepComplete
  repeat' first
    | with_reducible assumption
    | with_reducible apply State.event_orderly
    | with_reducible apply State.stepFails_orderly
    | with_reducible apply ite_orderly
    | with_reducible apply ite_fst_orderly
    | with_reducible apply next_orderly
    | (intro; intros)
    | split
    | dsimp only
    | (unfold State.orderly
       dsimp only
       with_reducible apply State.ordered)
    | refine pair_orderly (by assumption) ?_
    | assumption

theorem State.loadProgram_orderly (s : State) (x : Section) (hs : s.orderly) : (State.loadProgram s x).orderly := by
  unfold State.loadProgram
  repeat' first
    | with_reducible assumption
    | with_reducible apply State.localWrite_orderly
    | with_reducible apply foldl_orderly
    | with_reducible apply foldl_fst_orderly
    | with_reducible apply ite_orderly
    | with_reducible apply ite_fst_orderly
    | (intro; intros)
    | split
    | dsimp only
    | (unfold State.orderly
       dsimp only
       with_reducible apply State.ordered)
    | refine pair_orderly (by assumption) ?_
    | assumption

theorem State.startThreads_orderly (s : State) (p : Nat → Bool) (x : Section) (hs : s.orderly) : (State.startThreads s p x).orderly := by
  unfold State.startThreads
  repeat' first
    | with_reducible assumption
    | with_reducible apply State.setThread_orderly
    | with_reducible apply foldl_orderly
    | with_reducible apply foldl_fst_orderly
    | with_reducible apply ite_orderly
    | with_reducible apply ite_fst_orderly
    | (intro; intros)
    | split
    | dsimp only
    | (unfold State.orderly
       dsimp only
       with_reducible apply State.ordered)
    | refine pair_orderly (by assumption) ?_
    | assumption

theorem State.startProgram_orderly (s : State) (x : Section) (hs : s.orderly) : (State.startProgram s x).orderly := by
  unfold State.startProgram
  repeat' first
    | with_reducible assumption
    | with_reducible apply State.loadProgram_orderly
    | with_reducible apply State.startThreads_orderly
    | with_reducible apply ite_orderly
    | with_reducible apply ite_fst_orderly
    | (intro; intros)
    | split
    | dsimp only
    | (unfold State.orderly
       dsimp only
       with_reducible apply State.ordered)
    | refine pair_orderly (by assumption) ?_
    | assumption

theorem State.startPrograms_orderly (s : State) (hs : s.orderly) : (State.startPrograms s).orderly := by
  unfold State.startPrograms
  repeat' first
    | with_reducible assumption
    | with_reducible apply State.startProgram_orderly
    | with_reducible apply foldl_orderly
    | with_reducible apply foldl_fst_orderly
    | with_reducible apply ite_orderly
    | with_reducible apply ite_fst_orderly
    | (intro; intros)
    | split
    | dsimp only
    | (unfold State.orderly
       dsimp only
       with_reducible apply State.ordered)
    | refine pair_orderly (by assumption) ?_
    | assumption

theorem State.enterService_orderly (s : State) (hs : s.orderly) : (State.enterService s).orderly := by
  unfold State.enterService
  repeat' first
    | with_reducible assumption
    | with_reducible apply State.changeState_orderly
    | with_reducible apply State.armLeases_orderly
    | with_reducible apply State.train_orderly
    | with_reducible apply State.startPrograms_orderly
    | with_reducible apply ite_orderly
    | with_reducible apply ite_fst_orderly
    | (intro; intros)
    | split
    | dsimp only
    | (unfold State.orderly
       dsimp only
       with_reducible apply State.ordered)
    | refine pair_orderly (by assumption) ?_
    | assumption

theorem State.warm_orderly (s : State) (hs : s.orderly) : (State.warm s).orderly := by
  unfold State.warm
  repeat' first
    | with_reducible assumption
    | with_reducible apply State.changeState_orderly
    | with_reducible apply State.cold_orderly
    | with_reducible apply ite_orderly
    | with_reducible apply ite_fst_orderly
    | (intro; intros)
    | split
    | dsimp only
    | (unfold State.orderly
       dsimp only
       refine Ordered.mk ?_ ?_ ?_ ?_ ?_ ?_ ?_ ?_ ?_ <;> repeat' first
        | with_reducible apply State.events_of
        | with_reducible apply State.entries_of
        | with_reducible apply State.unacked_of
        | with_reducible apply State.t0_of
        | with_reducible apply State.spad_of
        | with_reducible apply State.cmem_of
        | with_reducible apply State.staged_of
        | with_reducible apply State.firmware_of
        | with_reducible apply State.report_of
        | with_reducible exact Memory.wf_nil
        | with_reducible apply Memory.wf_write
        | with_reducible apply Memory.wf_put
        | with_reducible apply Memory.wf_filter
        | rw [List.length_map]
        | exact Nat.zero_le _)
    | refine pair_orderly (by assumption) ?_
    | assumption

theorem State.drainSector_orderly (s : State) (b : Nat) (hs : s.orderly) : (State.drainSector s b).orderly := by
  unfold State.drainSector
  repeat' first
    | with_reducible assumption
    | with_reducible apply State.setSector_orderly
    | with_reducible apply State.writeBack_orderly
    | with_reducible apply State.startZero_orderly
    | with_reducible apply State.dropSector_orderly
    | with_reducible apply ite_orderly
    | with_reducible apply ite_fst_orderly
    | (intro; intros)
    | split
    | dsimp only
    | (unfold State.orderly
       dsimp only
       with_reducible apply State.ordered)
    | refine pair_orderly (by assumption) ?_
    | assumption

theorem State.drainSectors_orderly (s : State) (hs : s.orderly) : (State.drainSectors s).orderly := by
  unfold State.drainSectors
  repeat' first
    | with_reducible assumption
    | with_reducible apply State.drainSector_orderly
    | with_reducible apply foldl_orderly
    | with_reducible apply foldl_fst_orderly
    | with_reducible apply ite_orderly
    | with_reducible apply ite_fst_orderly
    | (intro; intros)
    | split
    | dsimp only
    | (unfold State.orderly
       dsimp only
       with_reducible apply State.ordered)
    | refine pair_orderly (by assumption) ?_
    | assumption

theorem State.enterDrain_orderly (s : State) (hs : s.orderly) : (State.enterDrain s).orderly := by
  unfold State.enterDrain
  repeat' first
    | with_reducible assumption
    | with_reducible apply State.changeState_orderly
    | with_reducible apply State.revokeAll_orderly
    | with_reducible apply State.leaveService_orderly
    | with_reducible apply ite_orderly
    | with_reducible apply ite_fst_orderly
    | (intro; intros)
    | split
    | dsimp only
    | (unfold State.orderly
       dsimp only
       with_reducible apply State.ordered)
    | refine pair_orderly (by assumption) ?_
    | assumption

theorem State.drainEnds_orderly (s : State) (hs : s.orderly) : (State.drainEnds s).orderly := by
  unfold State.drainEnds
  repeat' first
    | with_reducible assumption
    | with_reducible apply State.event_orderly
    | with_reducible apply State.onTray_orderly
    | with_reducible apply State.trayGone_orderly
    | with_reducible apply State.portDown_orderly
    | with_reducible apply foldl_orderly
    | with_reducible apply foldl_fst_orderly
    | with_reducible apply ite_orderly
    | with_reducible apply ite_fst_orderly
    | (intro; intros)
    | split
    | dsimp only
    | (unfold State.orderly
       dsimp only
       with_reducible apply State.ordered)
    | refine pair_orderly (by assumption) ?_
    | assumption

theorem execDrainStepComplete_orderly (s : State) (hs : s.orderly) : inOrder (execDrainStepComplete s) := by
  unfold execDrainStepComplete
  repeat' first
    | with_reducible assumption
    | with_reducible apply State.drainSectors_orderly
    | with_reducible apply State.drainEnds_orderly
    | with_reducible apply ite_orderly
    | with_reducible apply ite_fst_orderly
    | with_reducible apply next_orderly
    | (intro; intros)
    | split
    | dsimp only
    | (unfold State.orderly
       dsimp only
       with_reducible apply State.ordered)
    | refine pair_orderly (by assumption) ?_
    | assumption

theorem State.recoveryNext_orderly (s : State) (n : Nat) (hs : s.orderly) : (State.recoveryNext s n).orderly := by
  unfold State.recoveryNext
  repeat' first
    | with_reducible assumption
    | with_reducible apply State.logE_orderly
    | with_reducible apply ite_orderly
    | with_reducible apply ite_fst_orderly
    | (intro; intros)
    | split
    | dsimp only
    | (unfold State.orderly
       dsimp only
       refine Ordered.mk ?_ ?_ ?_ ?_ ?_ ?_ ?_ ?_ ?_ <;> repeat' first
        | with_reducible apply State.events_of
        | with_reducible apply State.entries_of
        | with_reducible apply State.unacked_of
        | with_reducible apply State.t0_of
        | with_reducible apply State.spad_of
        | with_reducible apply State.cmem_of
        | with_reducible apply State.staged_of
        | with_reducible apply State.firmware_of
        | with_reducible apply State.report_of
        | with_reducible exact Memory.wf_nil
        | with_reducible apply Memory.wf_write
        | with_reducible apply Memory.wf_put
        | with_reducible apply Memory.wf_filter
        | rw [List.length_map]
        | exact Nat.zero_le _)
    | refine pair_orderly (by assumption) ?_
    | assumption

theorem State.zeroLocal_orderly (s : State) (x : Nat × Nat × Nat) (hs : s.orderly) : (State.zeroLocal s x).orderly := by
  unfold State.zeroLocal
  repeat' first
    | with_reducible assumption
    | with_reducible apply State.onCore_orderly
    | with_reducible apply ite_orderly
    | with_reducible apply ite_fst_orderly
    | (intro; intros)
    | split
    | dsimp only
    | (unfold State.orderly
       dsimp only
       refine Ordered.mk ?_ ?_ ?_ ?_ ?_ ?_ ?_ ?_ ?_ <;> repeat' first
        | with_reducible apply State.events_of
        | with_reducible apply State.entries_of
        | with_reducible apply State.unacked_of
        | with_reducible apply State.t0_of
        | with_reducible apply State.spad_of
        | with_reducible apply State.cmem_of
        | with_reducible apply State.staged_of
        | with_reducible apply State.firmware_of
        | with_reducible apply State.report_of
        | with_reducible exact Memory.wf_nil
        | with_reducible apply Memory.wf_write
        | with_reducible apply Memory.wf_put
        | with_reducible apply Memory.wf_filter
        | rw [List.length_map]
        | exact Nat.zero_le _)
    | refine pair_orderly (by assumption) ?_
    | assumption

theorem State.recoveryRepair_orderly (s : State) (hs : s.orderly) : (State.recoveryRepair s).orderly := by
  unfold State.recoveryRepair
  repeat' first
    | with_reducible assumption
    | with_reducible apply State.onExtent_orderly
    | with_reducible apply State.startScrub_orderly
    | with_reducible apply State.zeroLocal_orderly
    | with_reducible apply foldl_orderly
    | with_reducible apply foldl_fst_orderly
    | with_reducible apply ite_orderly
    | with_reducible apply ite_fst_orderly
    | (intro; intros)
    | split
    | dsimp only
    | (unfold State.orderly
       dsimp only
       refine Ordered.mk ?_ ?_ ?_ ?_ ?_ ?_ ?_ ?_ ?_ <;> repeat' first
        | with_reducible apply State.events_of
        | with_reducible apply State.entries_of
        | with_reducible apply State.unacked_of
        | with_reducible apply State.t0_of
        | with_reducible apply State.spad_of
        | with_reducible apply State.cmem_of
        | with_reducible apply State.staged_of
        | with_reducible apply State.firmware_of
        | with_reducible apply State.report_of
        | with_reducible exact Memory.wf_nil
        | with_reducible apply Memory.wf_write
        | with_reducible apply Memory.wf_put
        | with_reducible apply Memory.wf_filter
        | rw [List.length_map]
        | exact Nat.zero_le _)
    | refine pair_orderly (by assumption) ?_
    | assumption

theorem State.unfence_orderly (s : State) (key : Nat) (hs : s.orderly) : (State.unfence s key).orderly := by
  unfold State.unfence
  repeat' first
    | with_reducible assumption
    | with_reducible apply State.event_orderly
    | with_reducible apply ite_orderly
    | with_reducible apply ite_fst_orderly
    | (intro; intros)
    | split
    | dsimp only
    | (unfold State.orderly
       dsimp only
       refine Ordered.mk ?_ ?_ ?_ ?_ ?_ ?_ ?_ ?_ ?_ <;> repeat' first
        | with_reducible apply State.events_of
        | with_reducible apply State.entries_of
        | with_reducible apply State.unacked_of
        | with_reducible apply State.t0_of
        | with_reducible apply State.spad_of
        | with_reducible apply State.cmem_of
        | with_reducible apply State.staged_of
        | with_reducible apply State.firmware_of
        | with_reducible apply State.report_of
        | with_reducible exact Memory.wf_nil
        | with_reducible apply Memory.wf_write
        | with_reducible apply Memory.wf_put
        | with_reducible apply Memory.wf_filter
        | rw [List.length_map]
        | exact Nat.zero_le _)
    | refine pair_orderly (by assumption) ?_
    | assumption

theorem State.recoveryAudit_orderly (s : State) (hs : s.orderly) : (State.recoveryAudit s).orderly := by
  unfold State.recoveryAudit
  repeat' first
    | with_reducible assumption
    | with_reducible apply State.unfence_orderly
    | with_reducible apply foldl_orderly
    | with_reducible apply foldl_fst_orderly
    | with_reducible apply ite_orderly
    | with_reducible apply ite_fst_orderly
    | (intro; intros)
    | split
    | dsimp only
    | (unfold State.orderly
       dsimp only
       with_reducible apply State.ordered)
    | refine pair_orderly (by assumption) ?_
    | assumption

theorem execRecoveryStepDone_orderly (s : State) (hs : s.orderly) : inOrder (execRecoveryStepDone s) := by
  unfold execRecoveryStepDone
  repeat' first
    | with_reducible assumption
    | with_reducible apply State.recoveryNext_orderly
    | with_reducible apply State.recoveryRepair_orderly
    | with_reducible apply State.recoveryAudit_orderly
    | with_reducible apply ite_orderly
    | with_reducible apply ite_fst_orderly
    | with_reducible apply next_orderly
    | (intro; intros)
    | split
    | dsimp only
    | (unfold State.orderly
       dsimp only
       with_reducible apply State.ordered)
    | refine pair_orderly (by assumption) ?_
    | assumption

theorem State.modResult_orderly (s : State) (st : BitVec 6) (hs : s.orderly) : (State.modResult s st).1.orderly := by
  unfold State.modResult
  repeat' first
    | with_reducible assumption
    | with_reducible apply ite_orderly
    | with_reducible apply ite_fst_orderly
    | (intro; intros)
    | split
    | dsimp only
    | (unfold State.orderly
       dsimp only
       with_reducible apply State.ordered)
    | refine pair_orderly (by assumption) ?_
    | assumption

theorem State.modCmd_orderly (s : State) (v : BitVec 64) (hs : s.orderly) : (State.modCmd s v).1.orderly := by
  unfold State.modCmd
  repeat' first
    | with_reducible assumption
    | with_reducible apply State.enterRecovery_orderly
    | with_reducible apply State.enterService_orderly
    | with_reducible apply State.enterDrain_orderly
    | with_reducible apply State.modResult_orderly
    | with_reducible apply ite_orderly
    | with_reducible apply ite_fst_orderly
    | (intro; intros)
    | split
    | dsimp only
    | (unfold State.orderly
       dsimp only
       with_reducible apply State.ordered)
    | refine pair_orderly (by assumption) ?_
    | assumption

theorem State.modBody_orderly (q : AdkFrame) (v : BitVec 64) (s : State) (hs : s.orderly) : (State.modBody q v s).orderly := by
  unfold State.modBody
  repeat' first
    | with_reducible assumption
    | with_reducible apply State.wrBody_orderly
    | with_reducible apply State.warm_orderly
    | with_reducible apply State.modCmd_orderly
    | with_reducible apply ite_orderly
    | with_reducible apply ite_fst_orderly
    | (intro; intros)
    | split
    | dsimp only
    | (unfold State.orderly
       dsimp only
       with_reducible apply State.ordered)
    | refine pair_orderly (by assumption) ?_
    | assumption

theorem State.modWr_orderly (s : State) (tag : BitVec 16) (v : BitVec 64) (hs : s.orderly) : (State.modWr s tag v).orderly := by
  unfold State.modWr
  repeat' first
    | with_reducible assumption
    | with_reducible apply State.adkRequest_orderly
    | with_reducible apply State.modBody_orderly
    | with_reducible apply ite_orderly
    | with_reducible apply ite_fst_orderly
    | (intro; intros)
    | split
    | dsimp only
    | (unfold State.orderly
       dsimp only
       with_reducible apply State.ordered)
    | refine pair_orderly (by assumption) ?_
    | assumption

theorem execModService_orderly (tag : BitVec 16) (s : State) (hs : s.orderly) : inOrder (execModService tag s) := by
  unfold execModService
  repeat' first
    | with_reducible assumption
    | with_reducible apply State.modWr_orderly
    | with_reducible apply ite_orderly
    | with_reducible apply ite_fst_orderly
    | with_reducible apply next_orderly
    | (intro; intros)
    | split
    | dsimp only
    | (unfold State.orderly
       dsimp only
       with_reducible apply State.ordered)
    | refine pair_orderly (by assumption) ?_
    | assumption

theorem execModDrain_orderly (tag : BitVec 16) (s : State) (hs : s.orderly) : inOrder (execModDrain tag s) := by
  unfold execModDrain
  repeat' first
    | with_reducible assumption
    | with_reducible apply State.modWr_orderly
    | with_reducible apply ite_orderly
    | with_reducible apply ite_fst_orderly
    | with_reducible apply next_orderly
    | (intro; intros)
    | split
    | dsimp only
    | (unfold State.orderly
       dsimp only
       with_reducible apply State.ordered)
    | refine pair_orderly (by assumption) ?_
    | assumption

theorem execModRecover_orderly (tag : BitVec 16) (s : State) (hs : s.orderly) : inOrder (execModRecover tag s) := by
  unfold execModRecover
  repeat' first
    | with_reducible assumption
    | with_reducible apply State.modWr_orderly
    | with_reducible apply ite_orderly
    | with_reducible apply ite_fst_orderly
    | with_reducible apply next_orderly
    | (intro; intros)
    | split
    | dsimp only
    | (unfold State.orderly
       dsimp only
       with_reducible apply State.ordered)
    | refine pair_orderly (by assumption) ?_
    | assumption

theorem execModWarm_orderly (tag : BitVec 16) (s : State) (hs : s.orderly) : inOrder (execModWarm tag s) := by
  unfold execModWarm
  repeat' first
    | with_reducible assumption
    | with_reducible apply State.modWr_orderly
    | with_reducible apply ite_orderly
    | with_reducible apply ite_fst_orderly
    | with_reducible apply next_orderly
    | (intro; intros)
    | split
    | dsimp only
    | (unfold State.orderly
       dsimp only
       with_reducible apply State.ordered)
    | refine pair_orderly (by assumption) ?_
    | assumption

end Sys2Proof.Machine
end

