-- ==== Sys2Proof/Laws/KeepFabtime.lean ====
section
/-! SUPPORT. Every operation of Fabtime keeps the queues and memories in order. -/

set_option linter.unusedTactic false
set_option linter.unreachableTactic false
set_option linter.unusedVariables false

namespace Sys2Proof.Machine

theorem State.sequence_orderly (s : State) (p : Nat) (hs : s.orderly) : (State.sequence s p).orderly := by
  unfold State.sequence
  repeat' first
    | with_reducible assumption
    | with_reducible apply State.onTc_orderly
    | with_reducible apply State.countQue_orderly
    | with_reducible apply foldl_orderly
    | with_reducible apply foldl_fst_orderly
    | with_reducible apply ite_orderly
    | with_reducible apply ite_fst_orderly
    | (intro; intros)
    | split
    | dsimp only
    | (unfold State.orderly
       dsimp only
       with_reducible apply State.ordered)
    | refine pair_orderly (by assumption) ?_
    | assumption

theorem State.ftLost_orderly (s : State) (hs : s.orderly) : (State.ftLost s).orderly := by
  unfold State.ftLost
  repeat' first
    | with_reducible assumption
    | with_reducible apply State.onTc_orderly
    | with_reducible apply State.collLost_orderly
    | with_reducible apply State.freezeLeases_orderly
    | with_reducible apply foldl_orderly
    | with_reducible apply foldl_fst_orderly
    | with_reducible apply ite_orderly
    | with_reducible apply ite_fst_orderly
    | (intro; intros)
    | split
    | dsimp only
    | (unfold State.orderly
       dsimp only
       with_reducible apply State.ordered)
    | refine pair_orderly (by assumption) ?_
    | assumption

theorem State.ftFound_orderly (s : State) (hs : s.orderly) : (State.ftFound s).orderly := by
  unfold State.ftFound
  repeat' first
    | with_reducible assumption
    | with_reducible apply State.thawLeases_orderly
    | with_reducible apply ite_orderly
    | with_reducible apply ite_fst_orderly
    | (intro; intros)
    | split
    | dsimp only
    | (unfold State.orderly
       dsimp only
       with_reducible apply State.ordered)
    | refine pair_orderly (by assumption) ?_
    | assumption

theorem State.ftTo_orderly (s : State) (n : FtState) (hs : s.orderly) : (State.ftTo s n).orderly := by
  unfold State.ftTo
  repeat' first
    | with_reducible assumption
    | with_reducible apply State.logE_orderly
    | with_reducible apply State.ftLost_orderly
    | with_reducible apply State.ftFound_orderly
    | with_reducible apply ite_orderly
    | with_reducible apply ite_fst_orderly
    | (intro; intros)
    | split
    | dsimp only
    | (unfold State.orderly
       dsimp only
       with_reducible apply State.ordered)
    | refine pair_orderly (by assumption) ?_
    | assumption

theorem State.ftRecord_orderly (s : State) (kind : Nat) (before : Nat) (after : Nat) (second : Nat) (amt : Int) (hs : s.orderly) : (State.ftRecord s kind before after second amt).orderly := by
  unfold State.ftRecord
  repeat' first
    | with_reducible assumption
    | with_reducible apply State.logE_orderly
    | with_reducible apply ite_orderly
    | with_reducible apply ite_fst_orderly
    | (intro; intros)
    | split
    | dsimp only
    | (unfold State.orderly
       dsimp only
       with_reducible apply State.ordered)
    | refine pair_orderly (by assumption) ?_
    | assumption

theorem State.fireLate_orderly (s : State) (l : List (FT × Nat × Nat)) (hs : s.orderly) : (State.fireLate s l).orderly := by
  unfold State.fireLate
  repeat' first
    | with_reducible assumption
    | with_reducible apply State.collDeadline_orderly
    | with_reducible apply State.leaseEnds_orderly
    | with_reducible apply foldl_orderly
    | with_reducible apply foldl_fst_orderly
    | with_reducible apply ite_orderly
    | with_reducible apply ite_fst_orderly
    | (intro; intros)
    | split
    | dsimp only
    | (unfold State.orderly
       dsimp only
       with_reducible apply State.ordered)
    | refine pair_orderly (by assumption) ?_
    | assumption

theorem State.lanesShift_orderly (s : State) (d : Int) (hs : s.orderly) : (State.lanesShift s d).orderly := by
  unfold State.lanesShift
  repeat' first
    | with_reducible assumption
    | with_reducible apply ite_orderly
    | with_reducible apply ite_fst_orderly
    | (intro; intros)
    | split
    | dsimp only
    | (unfold State.orderly
       dsimp only
       with_reducible apply State.ordered)
    | refine pair_orderly (by assumption) ?_
    | assumption

theorem State.ftJump_orderly (s : State) (n : FT) (hs : s.orderly) : (State.ftJump s n).orderly := by
  unfold State.ftJump
  repeat' first
    | with_reducible assumption
    | with_reducible apply State.sequence_orderly
    | with_reducible apply State.lanesShift_orderly
    | with_reducible apply foldl_orderly
    | with_reducible apply foldl_fst_orderly
    | with_reducible apply ite_orderly
    | with_reducible apply ite_fst_orderly
    | (intro; intros)
    | split
    | dsimp only
    | (unfold State.orderly
       dsimp only
       with_reducible apply State.ordered)
    | refine pair_orderly (by assumption) ?_
    | assumption

theorem State.realign_orderly (s : State) (hs : s.orderly) : (State.realign s).orderly := by
  unfold State.realign
  repeat' first
    | with_reducible assumption
    | with_reducible apply ite_orderly
    | with_reducible apply ite_fst_orderly
    | (intro; intros)
    | split
    | dsimp only
    | (unfold State.orderly
       dsimp only
       with_reducible apply State.ordered)
    | refine pair_orderly (by assumption) ?_
    | assumption

theorem State.ftCorrect_orderly (s : State) (e : Int) (hs : s.orderly) : (State.ftCorrect s e).orderly := by
  unfold State.ftCorrect
  repeat' first
    | with_reducible assumption
    | with_reducible apply State.ftTo_orderly
    | with_reducible apply State.ftRecord_orderly
    | with_reducible apply State.fireLate_orderly
    | with_reducible apply State.lanesShift_orderly
    | with_reducible apply State.ftJump_orderly
    | with_reducible apply State.realign_orderly
    | with_reducible apply ite_orderly
    | with_reducible apply ite_fst_orderly
    | (intro; intros)
    | split
    | dsimp only
    | (unfold State.orderly
       dsimp only
       with_reducible apply State.ordered)
    | refine pair_orderly (by assumption) ?_
    | assumption

theorem State.markMissing_orderly (s : State) (hs : s.orderly) : (State.markMissing s).orderly := by
  unfold State.markMissing
  repeat' first
    | with_reducible assumption
    | with_reducible apply State.ftTo_orderly
    | with_reducible apply ite_orderly
    | with_reducible apply ite_fst_orderly
    | (intro; intros)
    | split
    | dsimp only
    | (unfold State.orderly
       dsimp only
       with_reducible apply State.ordered)
    | refine pair_orderly (by assumption) ?_
    | assumption

theorem State.markGood_orderly (s : State) (e : Int) (hs : s.orderly) : (State.markGood s e).orderly := by
  unfold State.markGood
  repeat' first
    | with_reducible assumption
    | with_reducible apply State.ftCorrect_orderly
    | with_reducible apply ite_orderly
    | with_reducible apply ite_fst_orderly
    | (intro; intros)
    | split
    | dsimp only
    | (unfold State.orderly
       dsimp only
       with_reducible apply State.ordered)
    | refine pair_orderly (by assumption) ?_
    | assumption

theorem State.markClose_orderly (s : State) (hs : s.orderly) : (State.markClose s).orderly := by
  unfold State.markClose
  repeat' first
    | with_reducible assumption
    | with_reducible apply State.markMissing_orderly
    | with_reducible apply ite_orderly
    | with_reducible apply ite_fst_orderly
    | (intro; intros)
    | split
    | dsimp only
    | (unfold State.orderly
       dsimp only
       with_reducible apply State.ordered)
    | refine pair_orderly (by assumption) ?_
    | assumption

theorem execRtCodeFrame_orderly (sync : BitVec 16) (markFt : BitVec 64) (flags : BitVec 8) (crc : BitVec 16) (s : State) (hs : s.orderly) : inOrder (execRtCodeFrame sync markFt flags crc s) := by
  unfold execRtCodeFrame
  repeat' first
    | with_reducible assumption
    | with_reducible apply State.markMissing_orderly
    | with_reducible apply State.markClose_orderly
    | with_reducible apply ite_orderly
    | with_reducible apply ite_fst_orderly
    | with_reducible apply next_orderly
    | (intro; intros)
    | split
    | dsimp only
    | (unfold State.orderly
       dsimp only
       with_reducible apply State.ordered)
    | refine pair_orderly (by assumption) ?_
    | assumption

theorem execRtMarkEdge_orderly (frac : BitVec 6) (s : State) (hs : s.orderly) : inOrder (execRtMarkEdge frac s) := by
  unfold execRtMarkEdge
  repeat' first
    | with_reducible assumption
    | with_reducible apply State.markMissing_orderly
    | with_reducible apply State.markGood_orderly
    | with_reducible apply ite_orderly
    | with_reducible apply ite_fst_orderly
    | with_reducible apply next_orderly
    | (intro; intros)
    | split
    | dsimp only
    | (unfold State.orderly
       dsimp only
       with_reducible apply State.ordered)
    | refine pair_orderly (by assumption) ?_
    | assumption

theorem execMarkWindowExpiry_orderly (s : State) (hs : s.orderly) : inOrder (execMarkWindowExpiry s) := by
  unfold execMarkWindowExpiry
  repeat' first
    | with_reducible assumption
    | with_reducible apply State.markClose_orderly
    | with_reducible apply ite_orderly
    | with_reducible apply ite_fst_orderly
    | with_reducible apply next_orderly
    | (intro; intros)
    | split
    | dsimp only
    | (unfold State.orderly
       dsimp only
       with_reducible apply State.ordered)
    | refine pair_orderly (by assumption) ?_
    | assumption

theorem execRtCodeAbsentTimeout_orderly (s : State) (hs : s.orderly) : inOrder (execRtCodeAbsentTimeout s) := by
  unfold execRtCodeAbsentTimeout
  repeat' first
    | with_reducible assumption
    | with_reducible apply State.markMissing_orderly
    | with_reducible apply ite_orderly
    | with_reducible apply ite_fst_orderly
    | with_reducible apply next_orderly
    | (intro; intros)
    | split
    | dsimp only
    | (unfold State.orderly
       dsimp only
       with_reducible apply State.ordered)
    | refine pair_orderly (by assumption) ?_
    | assumption

theorem execRtRefLoss_orderly (since : BitVec 64) (s : State) (hs : s.orderly) : inOrder (execRtRefLoss since s) := by
  unfold execRtRefLoss
  repeat' first
    | with_reducible assumption
    | with_reducible apply State.ftTo_orderly
    | with_reducible apply ite_orderly
    | with_reducible apply ite_fst_orderly
    | with_reducible apply next_orderly
    | (intro; intros)
    | split
    | dsimp only
    | (unfold State.orderly
       dsimp only
       with_reducible apply State.ordered)
    | refine pair_orderly (by assumption) ?_
    | assumption

theorem State.holdEnds_orderly (s : State) (hs : s.orderly) : (State.holdEnds s).orderly := by
  unfold State.holdEnds
  repeat' first
    | with_reducible assumption
    | with_reducible apply State.ftTo_orderly
    | with_reducible apply ite_orderly
    | with_reducible apply ite_fst_orderly
    | (intro; intros)
    | split
    | dsimp only
    | (unfold State.orderly
       dsimp only
       with_reducible apply State.ordered)
    | refine pair_orderly (by assumption) ?_
    | assumption

theorem execHoldoverExpiry_orderly (s : State) (hs : s.orderly) : inOrder (execHoldoverExpiry s) := by
  unfold execHoldoverExpiry
  repeat' first
    | with_reducible assumption
    | with_reducible apply State.holdEnds_orderly
    | with_reducible apply ite_orderly
    | with_reducible apply ite_fst_orderly
    | with_reducible apply next_orderly
    | (intro; intros)
    | split
    | dsimp only
    | (unfold State.orderly
       dsimp only
       with_reducible apply State.ordered)
    | refine pair_orderly (by assumption) ?_
    | assumption

theorem execFtStallEnd_orderly (s : State) (hs : s.orderly) : inOrder (execFtStallEnd s) := by
  unfold execFtStallEnd
  repeat' first
    | with_reducible assumption
    | with_reducible apply State.ftTo_orderly
    | with_reducible apply State.ftRecord_orderly
    | with_reducible apply ite_orderly
    | with_reducible apply ite_fst_orderly
    | with_reducible apply next_orderly
    | (intro; intros)
    | split
    | dsimp only
    | (unfold State.orderly
       dsimp only
       with_reducible apply State.ordered)
    | refine pair_orderly (by assumption) ?_
    | assumption

theorem State.ftLoad_orderly (s : State) (x : Nat) (hs : s.orderly) : (State.ftLoad s x).orderly := by
  unfold State.ftLoad
  repeat' first
    | with_reducible assumption
    | with_reducible apply State.draw_orderly
    | with_reducible apply ite_orderly
    | with_reducible apply ite_fst_orderly
    | (intro; intros)
    | split
    | dsimp only
    | (unfold State.orderly
       dsimp only
       with_reducible apply State.ordered)
    | refine pair_orderly (by assumption) ?_
    | assumption

theorem execFtDistribute_orderly (s : State) (hs : s.orderly) : inOrder (execFtDistribute s) := by
  unfold execFtDistribute
  repeat' first
    | with_reducible assumption
    | with_reducible apply State.ftLoad_orderly
    | with_reducible apply foldl_orderly
    | with_reducible apply foldl_fst_orderly
    | with_reducible apply ite_orderly
    | with_reducible apply ite_fst_orderly
    | with_reducible apply next_orderly
    | (intro; intros)
    | split
    | dsimp only
    | (unfold State.orderly
       dsimp only
       with_reducible apply State.ordered)
    | refine pair_orderly (by assumption) ?_
    | assumption

theorem State.timCtrl_orderly (s : State) (v : BitVec 64) (hs : s.orderly) : (State.timCtrl s v).1.orderly := by
  unfold State.timCtrl
  repeat' first
    | with_reducible assumption
    | with_reducible apply State.holdEnds_orderly
    | with_reducible apply ite_orderly
    | with_reducible apply ite_fst_orderly
    | (intro; intros)
    | split
    | dsimp only
    | (unfold State.orderly
       dsimp only
       with_reducible apply State.ordered)
    | refine pair_orderly (by assumption) ?_
    | assumption

theorem execTimCtrlWrite_orderly (tag : BitVec 16) (value : BitVec 64) (s : State) (hs : s.orderly) : inOrder (execTimCtrlWrite tag value s) := by
  unfold execTimCtrlWrite
  repeat' first
    | with_reducible assumption
    | with_reducible apply State.adkWr_orderly
    | with_reducible apply State.timCtrl_orderly
    | with_reducible apply ite_orderly
    | with_reducible apply ite_fst_orderly
    | with_reducible apply next_orderly
    | (intro; intros)
    | split
    | dsimp only
    | (unfold State.orderly
       dsimp only
       with_reducible apply State.ordered)
    | refine pair_orderly (by assumption) ?_
    | assumption

end Sys2Proof.Machine
end

