-- ==== Sys2Proof/Laws/KeepTenancy.lean ====
section
/-! SUPPORT. Every operation of Tenancy keeps the queues and memories in order. -/

set_option linter.unusedTactic false
set_option linter.unreachableTactic false
set_option linter.unusedVariables false

namespace Sys2Proof.Machine

theorem State.tenantTo_orderly (s : State) (t : Nat) (n : TenantState) (f : Tenant → Tenant) (hs : s.orderly) : (State.tenantTo s t n f).orderly := by
  unfold State.tenantTo
  repeat' first
    | with_reducible assumption
    | with_reducible apply State.event_orderly
    | with_reducible apply State.onTenant_orderly
    | with_reducible apply ite_orderly
    | with_reducible apply ite_fst_orderly
    | (intro; intros)
    | split
    | dsimp only
    | (unfold State.orderly
       dsimp only
       with_reducible apply State.ordered)
    | refine pair_orderly (by assumption) ?_
    | assumption

theorem State.teardownStop_orderly (s : State) (t : Nat) (hs : s.orderly) : (State.teardownStop s t).orderly := by
  unfold State.teardownStop
  repeat' first
    | with_reducible assumption
    | with_reducible apply State.domTrigger_orderly
    | with_reducible apply State.collTriggers_orderly
    | with_reducible apply State.attnStopping_orderly
    | with_reducible apply State.revokeAll_orderly
    | with_reducible apply State.stopThreads_orderly
    | with_reducible apply foldl_orderly
    | with_reducible apply foldl_fst_orderly
    | with_reducible apply ite_orderly
    | with_reducible apply ite_fst_orderly
    | (intro; intros)
    | split
    | dsimp only
    | (unfold State.orderly
       dsimp only
       with_reducible apply State.ordered)
    | refine pair_orderly (by assumption) ?_
    | assumption

theorem State.teardownBitmaps_orderly (s : State) (hs : s.orderly) : (State.teardownBitmaps s).orderly := by
  unfold State.teardownBitmaps
  repeat' first
    | with_reducible assumption
    | with_reducible apply State.writeBitmap_orderly
    | with_reducible apply foldl_orderly
    | with_reducible apply foldl_fst_orderly
    | with_reducible apply ite_orderly
    | with_reducible apply ite_fst_orderly
    | (intro; intros)
    | split
    | dsimp only
    | (unfold State.orderly
       dsimp only
       with_reducible apply State.ordered)
    | refine pair_orderly (by assumption) ?_
    | assumption

theorem State.teardownClean_orderly (s : State) (t : Nat) (hs : s.orderly) : (State.teardownClean s t).orderly := by
  unfold State.teardownClean
  repeat' first
    | with_reducible assumption
    | with_reducible apply State.abortMove_orderly
    | with_reducible apply foldl_orderly
    | with_reducible apply foldl_fst_orderly
    | with_reducible apply ite_orderly
    | with_reducible apply ite_fst_orderly
    | (intro; intros)
    | split
    | dsimp only
    | (unfold State.orderly
       dsimp only
       with_reducible apply State.ordered)
    | refine pair_orderly (by assumption) ?_
    | assumption

theorem State.retireTenant_orderly (s : State) (t : Nat) (hs : s.orderly) : (State.retireTenant s t).orderly := by
  unfold State.retireTenant
  repeat' first
    | with_reducible assumption
    | with_reducible apply State.onTenant_orderly
    | with_reducible apply State.wakeStaged_orderly
    | with_reducible apply State.tenantTo_orderly
    | with_reducible apply State.teardownStop_orderly
    | with_reducible apply State.teardownBitmaps_orderly
    | with_reducible apply State.teardownClean_orderly
    | with_reducible apply ite_orderly
    | with_reducible apply ite_fst_orderly
    | (intro; intros)
    | split
    | dsimp only
    | (unfold State.orderly
       dsimp only
       with_reducible apply State.ordered)
    | refine pair_orderly (by assumption) ?_
    | assumption

theorem execTeardownScrubStart_orderly (tc : BitVec 10) (s : State) (hs : s.orderly) : inOrder (execTeardownScrubStart tc s) := by
  unfold execTeardownScrubStart
  repeat' first
    | with_reducible assumption
    | with_reducible apply State.onTenant_orderly
    | with_reducible apply ite_orderly
    | with_reducible apply ite_fst_orderly
    | with_reducible apply next_orderly
    | (intro; intros)
    | split
    | dsimp only
    | (unfold State.orderly
       dsimp only
       with_reducible apply State.ordered)
    | refine pair_orderly (by assumption) ?_
    | assumption

theorem State.scrubCore_orderly (s : State) (k : Nat) (hs : s.orderly) : (State.scrubCore s k).orderly := by
  unfold State.scrubCore
  repeat' first
    | with_reducible assumption
    | with_reducible apply State.onCore_orderly
    | with_reducible apply ite_orderly
    | with_reducible apply ite_fst_orderly
    | (intro; intros)
    | split
    | dsimp only
    | (unfold State.orderly
       dsimp only
       refine Ordered.mk ?_ ?_ ?_ ?_ ?_ ?_ ?_ ?_ ?_ <;> repeat' first
        | with_reducible apply State.events_of
        | with_reducible apply State.entries_of
        | with_reducible apply State.unacked_of
        | with_reducible apply State.t0_of
        | with_reducible apply State.spad_of
        | with_reducible apply State.cmem_of
        | with_reducible apply State.staged_of
        | with_reducible apply State.firmware_of
        | with_reducible apply State.report_of
        | with_reducible exact Memory.wf_nil
        | with_reducible apply Memory.wf_write
        | with_reducible apply Memory.wf_put
        | with_reducible apply Memory.wf_filter
        | rw [List.length_map]
        | exact Nat.zero_le _)
    | refine pair_orderly (by assumption) ?_
    | assumption

theorem State.scrubSectors_orderly (s : State) (t : Nat) (hs : s.orderly) : (State.scrubSectors s t).orderly := by
  unfold State.scrubSectors
  repeat' first
    | with_reducible assumption
    | with_reducible apply State.dropSector_orderly
    | with_reducible apply foldl_orderly
    | with_reducible apply foldl_fst_orderly
    | with_reducible apply ite_orderly
    | with_reducible apply ite_fst_orderly
    | (intro; intros)
    | split
    | dsimp only
    | (unfold State.orderly
       dsimp only
       with_reducible apply State.ordered)
    | refine pair_orderly (by assumption) ?_
    | assumption

theorem State.teardownScrub_orderly (s : State) (t : Nat) (hs : s.orderly) : (State.teardownScrub s t).orderly := by
  unfold State.teardownScrub
  repeat' first
    | with_reducible assumption
    | with_reducible apply State.purge_orderly
    | with_reducible apply State.scrubCore_orderly
    | with_reducible apply State.scrubSectors_orderly
    | with_reducible apply foldl_orderly
    | with_reducible apply foldl_fst_orderly
    | with_reducible apply ite_orderly
    | with_reducible apply ite_fst_orderly
    | (intro; intros)
    | split
    | dsimp only
    | (unfold State.orderly
       dsimp only
       refine Ordered.mk ?_ ?_ ?_ ?_ ?_ ?_ ?_ ?_ ?_ <;> repeat' first
        | with_reducible apply State.events_of
        | with_reducible apply State.entries_of
        | with_reducible apply State.unacked_of
        | with_reducible apply State.t0_of
        | with_reducible apply State.spad_of
        | with_reducible apply State.cmem_of
        | with_reducible apply State.staged_of
        | with_reducible apply State.firmware_of
        | with_reducible apply State.report_of
        | with_reducible exact Memory.wf_nil
        | with_reducible apply Memory.wf_write
        | with_reducible apply Memory.wf_put
        | with_reducible apply Memory.wf_filter
        | rw [List.length_map]
        | exact Nat.zero_le _)
    | refine pair_orderly (by assumption) ?_
    | assumption

theorem execTeardownComplete_orderly (tc : BitVec 10) (s : State) (hs : s.orderly) : inOrder (execTeardownComplete tc s) := by
  unfold execTeardownComplete
  repeat' first
    | with_reducible assumption
    | with_reducible apply State.logWith_orderly
    | with_reducible apply State.onTenant_orderly
    | with_reducible apply State.teardownScrub_orderly
    | with_reducible apply ite_orderly
    | with_reducible apply ite_fst_orderly
    | with_reducible apply next_orderly
    | (intro; intros)
    | split
    | dsimp only
    | (unfold State.orderly
       dsimp only
       with_reducible apply State.ordered)
    | refine pair_orderly (by assumption) ?_
    | assumption

theorem State.releaseKept_orderly (s : State) (e : Nat) (hs : s.orderly) : (State.releaseKept s e).orderly := by
  unfold State.releaseKept
  repeat' first
    | with_reducible assumption
    | with_reducible apply State.onExtent_orderly
    | with_reducible apply State.setPage_orderly
    | with_reducible apply State.releaseSlot_orderly
    | with_reducible apply foldl_orderly
    | with_reducible apply foldl_fst_orderly
    | with_reducible apply ite_orderly
    | with_reducible apply ite_fst_orderly
    | (intro; intros)
    | split
    | dsimp only
    | (unfold State.orderly
       dsimp only
       with_reducible apply State.ordered)
    | refine pair_orderly (by assumption) ?_
    | assumption

theorem execTenantFree_orderly (tc : BitVec 10) (s : State) (hs : s.orderly) : inOrder (execTenantFree tc s) := by
  unfold execTenantFree
  repeat' first
    | with_reducible assumption
    | with_reducible apply State.event_orderly
    | with_reducible apply State.onTenant_orderly
    | with_reducible apply State.teardownBitmaps_orderly
    | with_reducible apply State.releaseKept_orderly
    | with_reducible apply foldl_orderly
    | with_reducible apply foldl_fst_orderly
    | with_reducible apply ite_orderly
    | with_reducible apply ite_fst_orderly
    | with_reducible apply next_orderly
    | (intro; intros)
    | split
    | dsimp only
    | (unfold State.orderly
       dsimp only
       with_reducible apply State.ordered)
    | refine pair_orderly (by assumption) ?_
    | assumption

theorem State.tcResult_orderly (s : State) (st : BitVec 6) (hs : s.orderly) : (State.tcResult s st).1.orderly := by
  unfold State.tcResult
  repeat' first
    | with_reducible assumption
    | with_reducible apply ite_orderly
    | with_reducible apply ite_fst_orderly
    | (intro; intros)
    | split
    | dsimp only
    | (unfold State.orderly
       dsimp only
       with_reducible apply State.ordered)
    | refine pair_orderly (by assumption) ?_
    | assumption

theorem State.tcCmd_orderly (s : State) (v : BitVec 64) (hs : s.orderly) : (State.tcCmd s v).1.orderly := by
  unfold State.tcCmd
  repeat' first
    | with_reducible assumption
    | with_reducible apply State.onTenant_orderly
    | with_reducible apply State.tenantTo_orderly
    | with_reducible apply State.retireTenant_orderly
    | with_reducible apply State.tcResult_orderly
    | with_reducible apply ite_orderly
    | with_reducible apply ite_fst_orderly
    | (intro; intros)
    | split
    | dsimp only
    | (unfold State.orderly
       dsimp only
       with_reducible apply State.ordered)
    | refine pair_orderly (by assumption) ?_
    | assumption

theorem State.tcWr_orderly (s : State) (tag : BitVec 16) (v : BitVec 64) (hs : s.orderly) : (State.tcWr s tag v).orderly := by
  unfold State.tcWr
  repeat' first
    | with_reducible assumption
    | with_reducible apply State.adkWr_orderly
    | with_reducible apply State.tcCmd_orderly
    | with_reducible apply ite_orderly
    | with_reducible apply ite_fst_orderly
    | (intro; intros)
    | split
    | dsimp only
    | (unfold State.orderly
       dsimp only
       with_reducible apply State.ordered)
    | refine pair_orderly (by assumption) ?_
    | assumption

theorem execTcActivate_orderly (tag : BitVec 16) (s : State) (hs : s.orderly) : inOrder (execTcActivate tag s) := by
  unfold execTcActivate
  repeat' first
    | with_reducible assumption
    | with_reducible apply State.tcWr_orderly
    | with_reducible apply ite_orderly
    | with_reducible apply ite_fst_orderly
    | with_reducible apply next_orderly
    | (intro; intros)
    | split
    | dsimp only
    | (unfold State.orderly
       dsimp only
       with_reducible apply State.ordered)
    | refine pair_orderly (by assumption) ?_
    | assumption

theorem execTcRetire_orderly (tag : BitVec 16) (s : State) (hs : s.orderly) : inOrder (execTcRetire tag s) := by
  unfold execTcRetire
  repeat' first
    | with_reducible assumption
    | with_reducible apply State.tcWr_orderly
    | with_reducible apply ite_orderly
    | with_reducible apply ite_fst_orderly
    | with_reducible apply next_orderly
    | (intro; intros)
    | split
    | dsimp only
    | (unfold State.orderly
       dsimp only
       with_reducible apply State.ordered)
    | refine pair_orderly (by assumption) ?_
    | assumption

theorem execTcSetkey_orderly (tag : BitVec 16) (s : State) (hs : s.orderly) : inOrder (execTcSetkey tag s) := by
  unfold execTcSetkey
  repeat' first
    | with_reducible assumption
    | with_reducible apply State.tcWr_orderly
    | with_reducible apply ite_orderly
    | with_reducible apply ite_fst_orderly
    | with_reducible apply next_orderly
    | (intro; intros)
    | split
    | dsimp only
    | (unfold State.orderly
       dsimp only
       with_reducible apply State.ordered)
    | refine pair_orderly (by assumption) ?_
    | assumption

theorem State.pkeyData_orderly (s : State) (v : BitVec 64) (hs : s.orderly) : (State.pkeyData s v).1.orderly := by
  unfold State.pkeyData
  repeat' first
    | with_reducible assumption
    | with_reducible apply ite_orderly
    | with_reducible apply ite_fst_orderly
    | (intro; intros)
    | split
    | dsimp only
    | (unfold State.orderly
       dsimp only
       with_reducible apply State.ordered)
    | refine pair_orderly (by assumption) ?_
    | assumption

theorem execSecPkeyDataWrite_orderly (tag : BitVec 16) (value : BitVec 64) (s : State) (hs : s.orderly) : inOrder (execSecPkeyDataWrite tag value s) := by
  unfold execSecPkeyDataWrite
  repeat' first
    | with_reducible assumption
    | with_reducible apply State.adkWr_orderly
    | with_reducible apply State.pkeyData_orderly
    | with_reducible apply ite_orderly
    | with_reducible apply ite_fst_orderly
    | with_reducible apply next_orderly
    | (intro; intros)
    | split
    | dsimp only
    | (unfold State.orderly
       dsimp only
       with_reducible apply State.ordered)
    | refine pair_orderly (by assumption) ?_
    | assumption

theorem State.roleCmd_orderly (s : State) (v : BitVec 64) (hs : s.orderly) : (State.roleCmd s v).1.orderly := by
  unfold State.roleCmd
  repeat' first
    | with_reducible assumption
    | with_reducible apply ite_orderly
    | with_reducible apply ite_fst_orderly
    | (intro; intros)
    | split
    | dsimp only
    | (unfold State.orderly
       dsimp only
       with_reducible apply State.ordered)
    | refine pair_orderly (by assumption) ?_
    | assumption

theorem execInstReq_orderly (tag : BitVec 16) (s : State) (hs : s.orderly) : inOrder (execInstReq tag s) := by
  unfold execInstReq
  repeat' first
    | with_reducible assumption
    | with_reducible apply State.adkWr_orderly
    | with_reducible apply State.roleCmd_orderly
    | with_reducible apply ite_orderly
    | with_reducible apply ite_fst_orderly
    | with_reducible apply next_orderly
    | (intro; intros)
    | split
    | dsimp only
    | (unfold State.orderly
       dsimp only
       with_reducible apply State.ordered)
    | refine pair_orderly (by assumption) ?_
    | assumption

theorem execInstEnd_orderly (tag : BitVec 16) (s : State) (hs : s.orderly) : inOrder (execInstEnd tag s) := by
  unfold execInstEnd
  repeat' first
    | with_reducible assumption
    | with_reducible apply State.adkWr_orderly
    | with_reducible apply State.roleCmd_orderly
    | with_reducible apply ite_orderly
    | with_reducible apply ite_fst_orderly
    | with_reducible apply next_orderly
    | (intro; intros)
    | split
    | dsimp only
    | (unfold State.orderly
       dsimp only
       with_reducible apply State.ordered)
    | refine pair_orderly (by assumption) ?_
    | assumption

theorem execInstallerWindowExpiry_orderly (s : State) (hs : s.orderly) : inOrder (execInstallerWindowExpiry s) := by
  unfold execInstallerWindowExpiry
  repeat' first
    | with_reducible assumption
    | with_reducible apply ite_orderly
    | with_reducible apply ite_fst_orderly
    | with_reducible apply next_orderly
    | (intro; intros)
    | split
    | dsimp only
    | (unfold State.orderly
       dsimp only
       with_reducible apply State.ordered)
    | refine pair_orderly (by assumption) ?_
    | assumption

theorem execPresBtnAssert_orderly (since : BitVec 64) (s : State) (hs : s.orderly) : inOrder (execPresBtnAssert since s) := by
  unfold execPresBtnAssert
  repeat' first
    | with_reducible assumption
    | with_reducible apply ite_orderly
    | with_reducible apply ite_fst_orderly
    | with_reducible apply next_orderly
    | (intro; intros)
    | split
    | dsimp only
    | (unfold State.orderly
       dsimp only
       with_reducible apply State.ordered)
    | refine pair_orderly (by assumption) ?_
    | assumption

theorem execPresBtnRelease_orderly (since : BitVec 64) (s : State) (hs : s.orderly) : inOrder (execPresBtnRelease since s) := by
  unfold execPresBtnRelease
  repeat' first
    | with_reducible assumption
    | with_reducible apply ite_orderly
    | with_reducible apply ite_fst_orderly
    | with_reducible apply next_orderly
    | (intro; intros)
    | split
    | dsimp only
    | (unfold State.orderly
       dsimp only
       with_reducible apply State.ordered)
    | refine pair_orderly (by assumption) ?_
    | assumption

theorem execSealLoopOpen_orderly (since : BitVec 64) (s : State) (hs : s.orderly) : inOrder (execSealLoopOpen since s) := by
  unfold execSealLoopOpen
  repeat' first
    | with_reducible assumption
    | with_reducible apply State.sealOpened_orderly
    | with_reducible apply ite_orderly
    | with_reducible apply ite_fst_orderly
    | with_reducible apply next_orderly
    | (intro; intros)
    | split
    | dsimp only
    | (unfold State.orderly
       dsimp only
       with_reducible apply State.ordered)
    | refine pair_orderly (by assumption) ?_
    | assumption

theorem execSealLoopClose_orderly (since : BitVec 64) (s : State) (hs : s.orderly) : inOrder (execSealLoopClose since s) := by
  unfold execSealLoopClose
  repeat' first
    | with_reducible assumption
    | with_reducible apply ite_orderly
    | with_reducible apply ite_fst_orderly
    | with_reducible apply next_orderly
    | (intro; intros)
    | split
    | dsimp only
    | (unfold State.orderly
       dsimp only
       with_reducible apply State.ordered)
    | refine pair_orderly (by assumption) ?_
    | assumption

theorem execMakerJmpChange_orderly (fitted : Bool) (since : BitVec 64) (s : State) (hs : s.orderly) : inOrder (execMakerJmpChange fitted since s) := by
  unfold execMakerJmpChange
  repeat' first
    | with_reducible assumption
    | with_reducible apply ite_orderly
    | with_reducible apply ite_fst_orderly
    | with_reducible apply next_orderly
    | (intro; intros)
    | split
    | dsimp only
    | (unfold State.orderly
       dsimp only
       with_reducible apply State.ordered)
    | refine pair_orderly (by assumption) ?_
    | assumption

theorem State.dbgResult_orderly (s : State) (st : BitVec 6) (line : List Byte) (hs : s.orderly) : (State.dbgResult s st line).orderly := by
  unfold State.dbgResult
  repeat' first
    | with_reducible assumption
    | with_reducible apply ite_orderly
    | with_reducible apply ite_fst_orderly
    | (intro; intros)
    | split
    | dsimp only
    | (unfold State.orderly
       dsimp only
       with_reducible apply State.ordered)
    | refine pair_orderly (by assumption) ?_
    | assumption

theorem State.dbgStart_orderly (s : State) (q : AdkFrame) (hs : s.orderly) : (State.dbgStart s q).orderly := by
  unfold State.dbgStart
  repeat' first
    | with_reducible assumption
    | with_reducible apply State.adkFail_orderly
    | with_reducible apply State.homeAccess_orderly
    | with_reducible apply State.dbgResult_orderly
    | with_reducible apply ite_orderly
    | with_reducible apply ite_fst_orderly
    | (intro; intros)
    | split
    | dsimp only
    | (unfold State.orderly
       dsimp only
       with_reducible apply State.ordered)
    | refine pair_orderly (by assumption) ?_
    | assumption

theorem execDebugRead_orderly (tag : BitVec 16) (s : State) (hs : s.orderly) : inOrder (execDebugRead tag s) := by
  unfold execDebugRead
  repeat' first
    | with_reducible assumption
    | with_reducible apply State.adkRequest_orderly
    | with_reducible apply State.dbgStart_orderly
    | with_reducible apply ite_orderly
    | with_reducible apply ite_fst_orderly
    | with_reducible apply next_orderly
    | (intro; intros)
    | split
    | dsimp only
    | (unfold State.orderly
       dsimp only
       with_reducible apply State.ordered)
    | refine pair_orderly (by assumption) ?_
    | assumption

theorem State.fwResult_orderly (s : State) (st : BitVec 6) (hs : s.orderly) : (State.fwResult s st).1.orderly := by
  unfold State.fwResult
  repeat' first
    | with_reducible assumption
    | with_reducible apply ite_orderly
    | with_reducible apply ite_fst_orderly
    | (intro; intros)
    | split
    | dsimp only
    | (unfold State.orderly
       dsimp only
       with_reducible apply State.ordered)
    | refine pair_orderly (by assumption) ?_
    | assumption

theorem State.fwVerify_orderly (s : State) (hs : s.orderly) : (State.fwVerify s).1.orderly := by
  unfold State.fwVerify
  repeat' first
    | with_reducible assumption
    | with_reducible apply State.fwResult_orderly
    | with_reducible apply ite_orderly
    | with_reducible apply ite_fst_orderly
    | (intro; intros)
    | split
    | dsimp only
    | (unfold State.orderly
       dsimp only
       with_reducible apply State.ordered)
    | refine pair_orderly (by assumption) ?_
    | assumption

theorem State.fwCommit_orderly (s : State) (hs : s.orderly) : (State.fwCommit s).1.orderly := by
  unfold State.fwCommit
  repeat' first
    | with_reducible assumption
    | with_reducible apply State.fwResult_orderly
    | with_reducible apply ite_orderly
    | with_reducible apply ite_fst_orderly
    | (intro; intros)
    | split
    | dsimp only
    | (unfold State.orderly
       dsimp only
       with_reducible apply State.ordered)
    | refine pair_orderly (by assumption) ?_
    | assumption

theorem State.fwRaiseMin_orderly (s : State) (hs : s.orderly) : (State.fwRaiseMin s).1.orderly := by
  unfold State.fwRaiseMin
  repeat' first
    | with_reducible assumption
    | with_reducible apply State.fwResult_orderly
    | with_reducible apply ite_orderly
    | with_reducible apply ite_fst_orderly
    | (intro; intros)
    | split
    | dsimp only
    | (unfold State.orderly
       dsimp only
       with_reducible apply State.ordered)
    | refine pair_orderly (by assumption) ?_
    | assumption

theorem State.fwCmd_orderly (s : State) (v : BitVec 64) (hs : s.orderly) : (State.fwCmd s v).1.orderly := by
  unfold State.fwCmd
  repeat' first
    | with_reducible assumption
    | with_reducible apply State.fwResult_orderly
    | with_reducible apply State.fwVerify_orderly
    | with_reducible apply State.fwCommit_orderly
    | with_reducible apply State.fwRaiseMin_orderly
    | with_reducible apply ite_orderly
    | with_reducible apply ite_fst_orderly
    | (intro; intros)
    | split
    | dsimp only
    | (unfold State.orderly
       dsimp only
       with_reducible apply State.ordered)
    | refine pair_orderly (by assumption) ?_
    | assumption

theorem State.fwWr_orderly (s : State) (tag : BitVec 16) (v : BitVec 64) (hs : s.orderly) : (State.fwWr s tag v).orderly := by
  unfold State.fwWr
  repeat' first
    | with_reducible assumption
    | with_reducible apply State.adkWr_orderly
    | with_reducible apply State.fwCmd_orderly
    | with_reducible apply ite_orderly
    | with_reducible apply ite_fst_orderly
    | (intro; intros)
    | split
    | dsimp only
    | (unfold State.orderly
       dsimp only
       with_reducible apply State.ordered)
    | refine pair_orderly (by assumption) ?_
    | assumption

theorem execFwVerify_orderly (tag : BitVec 16) (s : State) (hs : s.orderly) : inOrder (execFwVerify tag s) := by
  unfold execFwVerify
  repeat' first
    | with_reducible assumption
    | with_reducible apply State.fwWr_orderly
    | with_reducible apply ite_orderly
    | with_reducible apply ite_fst_orderly
    | with_reducible apply next_orderly
    | (intro; intros)
    | split
    | dsimp only
    | (unfold State.orderly
       dsimp only
       with_reducible apply State.ordered)
    | refine pair_orderly (by assumption) ?_
    | assumption

theorem execFwCommit_orderly (tag : BitVec 16) (s : State) (hs : s.orderly) : inOrder (execFwCommit tag s) := by
  unfold execFwCommit
  repeat' first
    | with_reducible assumption
    | with_reducible apply State.fwWr_orderly
    | with_reducible apply ite_orderly
    | with_reducible apply ite_fst_orderly
    | with_reducible apply next_orderly
    | (intro; intros)
    | split
    | dsimp only
    | (unfold State.orderly
       dsimp only
       with_reducible apply State.ordered)
    | refine pair_orderly (by assumption) ?_
    | assumption

theorem execFwRaiseMin_orderly (tag : BitVec 16) (s : State) (hs : s.orderly) : inOrder (execFwRaiseMin tag s) := by
  unfold execFwRaiseMin
  repeat' first
    | with_reducible assumption
    | with_reducible apply State.fwWr_orderly
    | with_reducible apply ite_orderly
    | with_reducible apply ite_fst_orderly
    | with_reducible apply next_orderly
    | (intro; intros)
    | split
    | dsimp only
    | (unfold State.orderly
       dsimp only
       with_reducible apply State.ordered)
    | refine pair_orderly (by assumption) ?_
    | assumption

theorem execFwVerifyDone_orderly (s : State) (hs : s.orderly) : inOrder (execFwVerifyDone s) := by
  have hsec : ∀ x : Security, x.fwBytes.wf = true → x.attWin.wf = true → ({ s with sec := x } : State).orderly :=
    fun x h1 h2 => ⟨hs.events_le, hs.entries_le, hs.unacked_le, hs.t0_wf, hs.spad_wf, hs.cmem_wf, hs.staged_wf, h1, h2⟩
  unfold execFwVerifyDone
  generalize s.fwError = e
  refine next_orderly (ite_orderly (fun _ => hsec _ ?_ ?_) (fun _ => hs))
  · split
    · exact hs.firmware_wf
    · exact Memory.wf_nil
  · split
    · exact hs.report_wf
    · have hf : ∀ x : Security, x.fwEmpty.attWin = x.attWin := fun _ => rfl
      rw [hf]
      exact hs.report_wf

theorem execFwCommitDone_orderly (ok : Bool) (s : State) (hs : s.orderly) : inOrder (execFwCommitDone ok s) := by
  unfold execFwCommitDone
  repeat' first
    | with_reducible assumption
    | with_reducible apply State.draw_orderly
    | with_reducible apply ite_orderly
    | with_reducible apply ite_fst_orderly
    | with_reducible apply next_orderly
    | (intro; intros)
    | split
    | dsimp only
    | unfold Security.fwEmpty
    | (unfold State.orderly
       dsimp only
       refine Ordered.mk ?_ ?_ ?_ ?_ ?_ ?_ ?_ ?_ ?_ <;> repeat' first
        | with_reducible apply State.events_of
        | with_reducible apply State.entries_of
        | with_reducible apply State.unacked_of
        | with_reducible apply State.t0_of
        | with_reducible apply State.spad_of
        | with_reducible apply State.cmem_of
        | with_reducible apply State.staged_of
        | with_reducible apply State.firmware_of
        | with_reducible apply State.report_of
        | with_reducible exact Memory.wf_nil
        | with_reducible apply Memory.wf_write
        | with_reducible apply Memory.wf_put
        | with_reducible apply Memory.wf_filter
        | rw [List.length_map]
        | exact Nat.zero_le _)
    | refine pair_orderly (by assumption) ?_
    | assumption

theorem State.attPlace_orderly (s : State) (bs : List Byte) (hs : s.orderly) : (State.attPlace s bs).1.orderly := by
  unfold State.attPlace
  repeat' first
    | with_reducible assumption
    | with_reducible apply ite_orderly
    | with_reducible apply ite_fst_orderly
    | (intro; intros)
    | split
    | dsimp only
    | (unfold State.orderly
       dsimp only
       refine Ordered.mk ?_ ?_ ?_ ?_ ?_ ?_ ?_ ?_ ?_ <;> repeat' first
        | with_reducible apply State.events_of
        | with_reducible apply State.entries_of
        | with_reducible apply State.unacked_of
        | with_reducible apply State.t0_of
        | with_reducible apply State.spad_of
        | with_reducible apply State.cmem_of
        | with_reducible apply State.staged_of
        | with_reducible apply State.firmware_of
        | with_reducible apply State.report_of
        | with_reducible exact Memory.wf_nil
        | with_reducible apply Memory.wf_write
        | with_reducible apply Memory.wf_put
        | with_reducible apply Memory.wf_filter
        | rw [List.length_map]
        | exact Nat.zero_le _)
    | refine pair_orderly (by assumption) ?_
    | assumption

theorem State.attCmd_orderly (s : State) (v : BitVec 64) (hs : s.orderly) : (State.attCmd s v).1.orderly := by
  unfold State.attCmd
  repeat' first
    | with_reducible assumption
    | with_reducible apply State.attPlace_orderly
    | with_reducible apply ite_orderly
    | with_reducible apply ite_fst_orderly
    | (intro; intros)
    | split
    | dsimp only
    | (unfold State.orderly
       dsimp only
       with_reducible apply State.ordered)
    | refine pair_orderly (by assumption) ?_
    | assumption

theorem execAttReport_orderly (tag : BitVec 16) (s : State) (hs : s.orderly) : inOrder (execAttReport tag s) := by
  unfold execAttReport
  repeat' first
    | with_reducible assumption
    | with_reducible apply State.adkWr_orderly
    | with_reducible apply State.attCmd_orderly
    | with_reducible apply ite_orderly
    | with_reducible apply ite_fst_orderly
    | with_reducible apply next_orderly
    | (intro; intros)
    | split
    | dsimp only
    | (unfold State.orderly
       dsimp only
       with_reducible apply State.ordered)
    | refine pair_orderly (by assumption) ?_
    | assumption

theorem execAttIdkey_orderly (tag : BitVec 16) (s : State) (hs : s.orderly) : inOrder (execAttIdkey tag s) := by
  unfold execAttIdkey
  repeat' first
    | with_reducible assumption
    | with_reducible apply State.adkWr_orderly
    | with_reducible apply State.attCmd_orderly
    | with_reducible apply ite_orderly
    | with_reducible apply ite_fst_orderly
    | with_reducible apply next_orderly
    | (intro; intros)
    | split
    | dsimp only
    | (unfold State.orderly
       dsimp only
       with_reducible apply State.ordered)
    | refine pair_orderly (by assumption) ?_
    | assumption

end Sys2Proof.Machine
end

