-- ==== Sys2Proof/Laws/KeepTrafficRegs.lean ====
section
/-! SUPPORT. Every operation of TrafficRegs keeps the queues and memories in order. -/

set_option linter.unusedTactic false
set_option linter.unreachableTactic false
set_option linter.unusedVariables false

namespace Sys2Proof.Machine

theorem State.gateCtrl_orderly (s : State) (p : Nat) (v : BitVec 64) (hs : s.orderly) : (State.gateCtrl s p v).1.orderly := by
  unfold State.gateCtrl
  repeat' first
    | with_reducible assumption
    | with_reducible apply State.onTc_orderly
    | with_reducible apply ite_orderly
    | with_reducible apply ite_fst_orderly
    | (intro; intros)
    | split
    | dsimp only
    | (unfold State.orderly
       dsimp only
       with_reducible apply State.ordered)
    | refine pair_orderly (by assumption) ?_
    | assumption

theorem State.gateBase_orderly (s : State) (p : Nat) (v : BitVec 64) (hs : s.orderly) : (State.gateBase s p v).1.orderly := by
  unfold State.gateBase
  repeat' first
    | with_reducible assumption
    | with_reducible apply State.onTc_orderly
    | with_reducible apply ite_orderly
    | with_reducible apply ite_fst_orderly
    | (intro; intros)
    | split
    | dsimp only
    | (unfold State.orderly
       dsimp only
       with_reducible apply State.ordered)
    | refine pair_orderly (by assumption) ?_
    | assumption

theorem State.gateChange_orderly (s : State) (p : Nat) (v : BitVec 64) (hs : s.orderly) : (State.gateChange s p v).1.orderly := by
  unfold State.gateChange
  repeat' first
    | with_reducible assumption
    | with_reducible apply State.onTc_orderly
    | with_reducible apply ite_orderly
    | with_reducible apply ite_fst_orderly
    | (intro; intros)
    | split
    | dsimp only
    | (unfold State.orderly
       dsimp only
       with_reducible apply State.ordered)
    | refine pair_orderly (by assumption) ?_
    | assumption

theorem State.gateEntry_orderly (s : State) (p : Nat) (v : BitVec 64) (hs : s.orderly) : (State.gateEntry s p v).1.orderly := by
  unfold State.gateEntry
  repeat' first
    | with_reducible assumption
    | with_reducible apply State.onTc_orderly
    | with_reducible apply ite_orderly
    | with_reducible apply ite_fst_orderly
    | (intro; intros)
    | split
    | dsimp only
    | (unfold State.orderly
       dsimp only
       with_reducible apply State.ordered)
    | refine pair_orderly (by assumption) ?_
    | assumption

theorem execGateCommit_orderly (tag : BitVec 16) (port : BitVec 8) (value : BitVec 64) (s : State) (hs : s.orderly) : inOrder (execGateCommit tag port value s) := by
  unfold execGateCommit
  repeat' first
    | with_reducible assumption
    | with_reducible apply State.adkWr_orderly
    | with_reducible apply State.gateCtrl_orderly
    | with_reducible apply ite_orderly
    | with_reducible apply ite_fst_orderly
    | with_reducible apply next_orderly
    | (intro; intros)
    | split
    | dsimp only
    | (unfold State.orderly
       dsimp only
       with_reducible apply State.ordered)
    | refine pair_orderly (by assumption) ?_
    | assumption

theorem execGateCycleStart_orderly (port : BitVec 8) (s : State) (hs : s.orderly) : inOrder (execGateCycleStart port s) := by
  unfold execGateCycleStart
  repeat' first
    | with_reducible assumption
    | with_reducible apply State.onTc_orderly
    | with_reducible apply State.sequence_orderly
    | with_reducible apply ite_orderly
    | with_reducible apply ite_fst_orderly
    | with_reducible apply next_orderly
    | (intro; intros)
    | split
    | dsimp only
    | (unfold State.orderly
       dsimp only
       with_reducible apply State.ordered)
    | refine pair_orderly (by assumption) ?_
    | assumption

theorem execGateEntryAdvance_orderly (port : BitVec 8) (s : State) (hs : s.orderly) : inOrder (execGateEntryAdvance port s) := by
  unfold execGateEntryAdvance
  repeat' first
    | with_reducible assumption
    | with_reducible apply State.sequence_orderly
    | with_reducible apply ite_orderly
    | with_reducible apply ite_fst_orderly
    | with_reducible apply next_orderly
    | (intro; intros)
    | split
    | dsimp only
    | (unfold State.orderly
       dsimp only
       with_reducible apply State.ordered)
    | refine pair_orderly (by assumption) ?_
    | assumption

theorem State.prtShape_orderly (s : State) (p : Nat) (v : BitVec 64) (hs : s.orderly) : (State.prtShape s p v).1.orderly := by
  unfold State.prtShape
  repeat' first
    | with_reducible assumption
    | with_reducible apply State.onTc_orderly
    | with_reducible apply ite_orderly
    | with_reducible apply ite_fst_orderly
    | (intro; intros)
    | split
    | dsimp only
    | (unfold State.orderly
       dsimp only
       with_reducible apply State.ordered)
    | refine pair_orderly (by assumption) ?_
    | assumption

theorem execPrtPshapeWrite_orderly (tag : BitVec 16) (port : BitVec 8) (value : BitVec 64) (s : State) (hs : s.orderly) : inOrder (execPrtPshapeWrite tag port value s) := by
  unfold execPrtPshapeWrite
  repeat' first
    | with_reducible assumption
    | with_reducible apply State.adkWr_orderly
    | with_reducible apply State.prtShape_orderly
    | with_reducible apply ite_orderly
    | with_reducible apply ite_fst_orderly
    | with_reducible apply next_orderly
    | (intro; intros)
    | split
    | dsimp only
    | (unfold State.orderly
       dsimp only
       with_reducible apply State.ordered)
    | refine pair_orderly (by assumption) ?_
    | assumption

theorem State.queShape_orderly (s : State) (p : Nat) (q : Nat) (v : BitVec 64) (hs : s.orderly) : (State.queShape s p q v).1.orderly := by
  unfold State.queShape
  repeat' first
    | with_reducible assumption
    | with_reducible apply State.onQueue_orderly
    | with_reducible apply ite_orderly
    | with_reducible apply ite_fst_orderly
    | (intro; intros)
    | split
    | dsimp only
    | (unfold State.orderly
       dsimp only
       with_reducible apply State.ordered)
    | refine pair_orderly (by assumption) ?_
    | assumption

theorem execQueShapeWrite_orderly (tag : BitVec 16) (port : BitVec 8) (queue : BitVec 4) (value : BitVec 64) (s : State) (hs : s.orderly) : inOrder (execQueShapeWrite tag port queue value s) := by
  unfold execQueShapeWrite
  repeat' first
    | with_reducible assumption
    | with_reducible apply State.adkWr_orderly
    | with_reducible apply State.queShape_orderly
    | with_reducible apply ite_orderly
    | with_reducible apply ite_fst_orderly
    | with_reducible apply next_orderly
    | (intro; intros)
    | split
    | dsimp only
    | (unfold State.orderly
       dsimp only
       with_reducible apply State.ordered)
    | refine pair_orderly (by assumption) ?_
    | assumption

theorem State.queCfg_orderly (s : State) (p : Nat) (q : Nat) (v : BitVec 64) (hs : s.orderly) : (State.queCfg s p q v).1.orderly := by
  unfold State.queCfg
  repeat' first
    | with_reducible assumption
    | with_reducible apply State.onQueue_orderly
    | with_reducible apply ite_orderly
    | with_reducible apply ite_fst_orderly
    | (intro; intros)
    | split
    | dsimp only
    | (unfold State.orderly
       dsimp only
       with_reducible apply State.ordered)
    | refine pair_orderly (by assumption) ?_
    | assumption

theorem State.prtBridle_orderly (s : State) (p : Nat) (v : BitVec 64) (hs : s.orderly) : (State.prtBridle s p v).1.orderly := by
  unfold State.prtBridle
  repeat' first
    | with_reducible assumption
    | with_reducible apply State.onTc_orderly
    | with_reducible apply ite_orderly
    | with_reducible apply ite_fst_orderly
    | (intro; intros)
    | split
    | dsimp only
    | (unfold State.orderly
       dsimp only
       with_reducible apply State.ordered)
    | refine pair_orderly (by assumption) ?_
    | assumption

theorem State.brdCfg_orderly (s : State) (p : Nat) (v : BitVec 64) (hs : s.orderly) : (State.brdCfg s p v).1.orderly := by
  unfold State.brdCfg
  repeat' first
    | with_reducible assumption
    | with_reducible apply State.onBridle_orderly
    | with_reducible apply ite_orderly
    | with_reducible apply ite_fst_orderly
    | (intro; intros)
    | split
    | dsimp only
    | (unfold State.orderly
       dsimp only
       with_reducible apply State.ordered)
    | refine pair_orderly (by assumption) ?_
    | assumption

theorem State.brdBurst_orderly (s : State) (p : Nat) (v : BitVec 64) (hs : s.orderly) : (State.brdBurst s p v).1.orderly := by
  unfold State.brdBurst
  repeat' first
    | with_reducible assumption
    | with_reducible apply State.onBridle_orderly
    | with_reducible apply ite_orderly
    | with_reducible apply ite_fst_orderly
    | (intro; intros)
    | split
    | dsimp only
    | (unfold State.orderly
       dsimp only
       with_reducible apply State.ordered)
    | refine pair_orderly (by assumption) ?_
    | assumption

theorem State.brdSelect_orderly (s : State) (p : Nat) (v : BitVec 64) (hs : s.orderly) : (State.brdSelect s p v).1.orderly := by
  unfold State.brdSelect
  repeat' first
    | with_reducible assumption
    | with_reducible apply State.onTc_orderly
    | with_reducible apply ite_orderly
    | with_reducible apply ite_fst_orderly
    | (intro; intros)
    | split
    | dsimp only
    | (unfold State.orderly
       dsimp only
       with_reducible apply State.ordered)
    | refine pair_orderly (by assumption) ?_
    | assumption

theorem execPrtBrdWrite_orderly (tag : BitVec 16) (port : BitVec 8) (burst : Bool) (value : BitVec 64) (s : State) (hs : s.orderly) : inOrder (execPrtBrdWrite tag port burst value s) := by
  unfold execPrtBrdWrite
  repeat' first
    | with_reducible assumption
    | with_reducible apply State.adkWr_orderly
    | with_reducible apply State.brdCfg_orderly
    | with_reducible apply State.brdBurst_orderly
    | with_reducible apply ite_orderly
    | with_reducible apply ite_fst_orderly
    | with_reducible apply next_orderly
    | (intro; intros)
    | split
    | dsimp only
    | (unfold State.orderly
       dsimp only
       with_reducible apply State.ordered)
    | refine pair_orderly (by assumption) ?_
    | assumption

theorem execRateLoopIncrease_orderly (port : BitVec 8) (s : State) (hs : s.orderly) : inOrder (execRateLoopIncrease port s) := by
  unfold execRateLoopIncrease
  repeat' first
    | with_reducible assumption
    | with_reducible apply State.onTc_orderly
    | with_reducible apply State.rateHeld_orderly
    | with_reducible apply ite_orderly
    | with_reducible apply ite_fst_orderly
    | with_reducible apply next_orderly
    | (intro; intros)
    | split
    | dsimp only
    | (unfold State.orderly
       dsimp only
       with_reducible apply State.ordered)
    | refine pair_orderly (by assumption) ?_
    | assumption

theorem State.prtRloop_orderly (s : State) (p : Nat) (v : BitVec 64) (hs : s.orderly) : (State.prtRloop s p v).1.orderly := by
  unfold State.prtRloop
  repeat' first
    | with_reducible assumption
    | with_reducible apply State.onTc_orderly
    | with_reducible apply ite_orderly
    | with_reducible apply ite_fst_orderly
    | (intro; intros)
    | split
    | dsimp only
    | (unfold State.orderly
       dsimp only
       with_reducible apply State.ordered)
    | refine pair_orderly (by assumption) ?_
    | assumption

theorem execBelvedereSample_orderly (port : BitVec 8) (queue : BitVec 4) (s : State) (hs : s.orderly) : inOrder (execBelvedereSample port queue s) := by
  unfold execBelvedereSample
  repeat' first
    | with_reducible assumption
    | with_reducible apply State.onQueue_orderly
    | with_reducible apply ite_orderly
    | with_reducible apply ite_fst_orderly
    | with_reducible apply next_orderly
    | (intro; intros)
    | split
    | dsimp only
    | (unfold State.orderly
       dsimp only
       with_reducible apply State.ordered)
    | refine pair_orderly (by assumption) ?_
    | assumption

theorem State.belCfg_orderly (s : State) (p : Nat) (q : Nat) (v : BitVec 64) (hs : s.orderly) : (State.belCfg s p q v).1.orderly := by
  unfold State.belCfg
  repeat' first
    | with_reducible assumption
    | with_reducible apply State.onQueue_orderly
    | with_reducible apply ite_orderly
    | with_reducible apply ite_fst_orderly
    | (intro; intros)
    | split
    | dsimp only
    | (unfold State.orderly
       dsimp only
       with_reducible apply State.ordered)
    | refine pair_orderly (by assumption) ?_
    | assumption

theorem execBelvedereClear_orderly (tag : BitVec 16) (port : BitVec 8) (queue : BitVec 4) (value : BitVec 64) (s : State) (hs : s.orderly) : inOrder (execBelvedereClear tag port queue value s) := by
  unfold execBelvedereClear
  repeat' first
    | with_reducible assumption
    | with_reducible apply State.adkWr_orderly
    | with_reducible apply State.belCfg_orderly
    | with_reducible apply ite_orderly
    | with_reducible apply ite_fst_orderly
    | with_reducible apply next_orderly
    | (intro; intros)
    | split
    | dsimp only
    | (unfold State.orderly
       dsimp only
       with_reducible apply State.ordered)
    | refine pair_orderly (by assumption) ?_
    | assumption

theorem execBelvedereSnap_orderly (tag : BitVec 16) (port : BitVec 8) (queue : BitVec 4) (value : BitVec 64) (s : State) (hs : s.orderly) : inOrder (execBelvedereSnap tag port queue value s) := by
  unfold execBelvedereSnap
  repeat' first
    | with_reducible assumption
    | with_reducible apply State.adkWr_orderly
    | with_reducible apply State.belCfg_orderly
    | with_reducible apply ite_orderly
    | with_reducible apply ite_fst_orderly
    | with_reducible apply next_orderly
    | (intro; intros)
    | split
    | dsimp only
    | (unfold State.orderly
       dsimp only
       with_reducible apply State.ordered)
    | refine pair_orderly (by assumption) ?_
    | assumption

end Sys2Proof.Machine
end

