-- ==== Sys2Proof/Laws/KeepComposition.lean ====
section
/-! SUPPORT. Every operation of Composition keeps the queues and memories in order. -/

set_option linter.unusedTactic false
set_option linter.unreachableTactic false
set_option linter.unusedVariables false

namespace Sys2Proof.Machine

theorem State.imgErr_orderly (s : State) (err : Nat) (sec : Nat) (hs : s.orderly) : (State.imgErr s err sec).orderly := by
  unfold State.imgErr
  repeat' first
    | with_reducible assumption
    | with_reducible apply ite_orderly
    | with_reducible apply ite_fst_orderly
    | (intro; intros)
    | split
    | dsimp only
    | (unfold State.orderly
       dsimp only
       with_reducible apply State.ordered)
    | refine pair_orderly (by assumption) ?_
    | assumption

theorem State.imgRefuse_orderly (s : State) (hs : s.orderly) : (State.imgRefuse s).1.orderly := by
  unfold State.imgRefuse
  repeat' first
    | with_reducible assumption
    | with_reducible apply State.imgErr_orderly
    | with_reducible apply ite_orderly
    | with_reducible apply ite_fst_orderly
    | (intro; intros)
    | split
    | dsimp only
    | (unfold State.orderly
       dsimp only
       with_reducible apply State.ordered)
    | refine pair_orderly (by assumption) ?_
    | assumption

theorem State.imgEmpty_orderly (s : State) (hs : s.orderly) : (State.imgEmpty s).orderly := by
  unfold State.imgEmpty
  repeat' first
    | with_reducible assumption
    | with_reducible apply State.imgErr_orderly
    | with_reducible apply ite_orderly
    | with_reducible apply ite_fst_orderly
    | (intro; intros)
    | split
    | dsimp only
    | (unfold State.orderly
       dsimp only
       refine Ordered.mk ?_ ?_ ?_ ?_ ?_ ?_ ?_ ?_ ?_ <;> repeat' first
        | with_reducible apply State.events_of
        | with_reducible apply State.entries_of
        | with_reducible apply State.unacked_of
        | with_reducible apply State.t0_of
        | with_reducible apply State.spad_of
        | with_reducible apply State.cmem_of
        | with_reducible apply State.staged_of
        | with_reducible apply State.firmware_of
        | with_reducible apply State.report_of
        | with_reducible exact Memory.wf_nil
        | with_reducible apply Memory.wf_write
        | with_reducible apply Memory.wf_put
        | with_reducible apply Memory.wf_filter
        | rw [List.length_map]
        | exact Nat.zero_le _)
    | refine pair_orderly (by assumption) ?_
    | assumption

theorem State.abortAgentMoves_orderly (s : State) (a : List Section) (b : List Section) (hs : s.orderly) : (State.abortAgentMoves s a b).orderly := by
  unfold State.abortAgentMoves
  repeat' first
    | with_reducible assumption
    | with_reducible apply State.abortMove_orderly
    | with_reducible apply foldl_orderly
    | with_reducible apply foldl_fst_orderly
    | with_reducible apply ite_orderly
    | with_reducible apply ite_fst_orderly
    | (intro; intros)
    | split
    | dsimp only
    | (unfold State.orderly
       dsimp only
       with_reducible apply State.ordered)
    | refine pair_orderly (by assumption) ?_
    | assumption

theorem State.endAttention_orderly (s : State) (c : List Section) (hs : s.orderly) : (State.endAttention s c).orderly := by
  unfold State.endAttention
  repeat' first
    | with_reducible assumption
    | with_reducible apply State.event_orderly
    | with_reducible apply State.endDecodes_orderly
    | with_reducible apply State.releaseHandles_orderly
    | with_reducible apply foldl_orderly
    | with_reducible apply foldl_fst_orderly
    | with_reducible apply ite_orderly
    | with_reducible apply ite_fst_orderly
    | (intro; intros)
    | split
    | dsimp only
    | (unfold State.orderly
       dsimp only
       with_reducible apply State.ordered)
    | refine pair_orderly (by assumption) ?_
    | assumption

theorem State.endWork_orderly (s : State) (c : List Section) (hs : s.orderly) : (State.endWork s c).orderly := by
  unfold State.endWork
  repeat' first
    | with_reducible assumption
    | with_reducible apply State.collTriggers_orderly
    | with_reducible apply State.stopThreads_orderly
    | with_reducible apply State.abortAgentMoves_orderly
    | with_reducible apply State.endAttention_orderly
    | with_reducible apply ite_orderly
    | with_reducible apply ite_fst_orderly
    | (intro; intros)
    | split
    | dsimp only
    | (unfold State.orderly
       dsimp only
       with_reducible apply State.ordered)
    | refine pair_orderly (by assumption) ?_
    | assumption

theorem State.cmpoCmd_orderly (s : State) (v : BitVec 64) (hs : s.orderly) : (State.cmpoCmd s v).1.orderly := by
  unfold State.cmpoCmd
  repeat' first
    | with_reducible assumption
    | with_reducible apply State.imgErr_orderly
    | with_reducible apply State.imgRefuse_orderly
    | with_reducible apply State.imgEmpty_orderly
    | with_reducible apply State.endWork_orderly
    | with_reducible apply ite_orderly
    | with_reducible apply ite_fst_orderly
    | (intro; intros)
    | split
    | dsimp only
    | (unfold State.orderly
       dsimp only
       with_reducible apply State.ordered)
    | refine pair_orderly (by assumption) ?_
    | assumption

theorem State.cmpoWr_orderly (s : State) (tag : BitVec 16) (v : BitVec 64) (hs : s.orderly) : (State.cmpoWr s tag v).orderly := by
  unfold State.cmpoWr
  repeat' first
    | with_reducible assumption
    | with_reducible apply State.adkWr_orderly
    | with_reducible apply State.cmpoCmd_orderly
    | with_reducible apply ite_orderly
    | with_reducible apply ite_fst_orderly
    | (intro; intros)
    | split
    | dsimp only
    | (unfold State.orderly
       dsimp only
       with_reducible apply State.ordered)
    | refine pair_orderly (by assumption) ?_
    | assumption

theorem execCmpoValidate_orderly (tag : BitVec 16) (s : State) (hs : s.orderly) : inOrder (execCmpoValidate tag s) := by
  unfold execCmpoValidate
  repeat' first
    | with_reducible assumption
    | with_reducible apply State.cmpoWr_orderly
    | with_reducible apply ite_orderly
    | with_reducible apply ite_fst_orderly
    | with_reducible apply next_orderly
    | (intro; intros)
    | split
    | dsimp only
    | (unfold State.orderly
       dsimp only
       with_reducible apply State.ordered)
    | refine pair_orderly (by assumption) ?_
    | assumption

theorem execCmpoLoad_orderly (tag : BitVec 16) (s : State) (hs : s.orderly) : inOrder (execCmpoLoad tag s) := by
  unfold execCmpoLoad
  repeat' first
    | with_reducible assumption
    | with_reducible apply State.cmpoWr_orderly
    | with_reducible apply ite_orderly
    | with_reducible apply ite_fst_orderly
    | with_reducible apply next_orderly
    | (intro; intros)
    | split
    | dsimp only
    | (unfold State.orderly
       dsimp only
       with_reducible apply State.ordered)
    | refine pair_orderly (by assumption) ?_
    | assumption

theorem execCmpoApply_orderly (tag : BitVec 16) (s : State) (hs : s.orderly) : inOrder (execCmpoApply tag s) := by
  unfold execCmpoApply
  repeat' first
    | with_reducible assumption
    | with_reducible apply State.cmpoWr_orderly
    | with_reducible apply ite_orderly
    | with_reducible apply ite_fst_orderly
    | with_reducible apply next_orderly
    | (intro; intros)
    | split
    | dsimp only
    | (unfold State.orderly
       dsimp only
       with_reducible apply State.ordered)
    | refine pair_orderly (by assumption) ?_
    | assumption

theorem execCmpoDiscard_orderly (tag : BitVec 16) (s : State) (hs : s.orderly) : inOrder (execCmpoDiscard tag s) := by
  unfold execCmpoDiscard
  repeat' first
    | with_reducible assumption
    | with_reducible apply State.cmpoWr_orderly
    | with_reducible apply ite_orderly
    | with_reducible apply ite_fst_orderly
    | with_reducible apply next_orderly
    | (intro; intros)
    | split
    | dsimp only
    | (unfold State.orderly
       dsimp only
       with_reducible apply State.ordered)
    | refine pair_orderly (by assumption) ?_
    | assumption

theorem State.showTables_orderly (s : State) (hs : s.orderly) : (State.showTables s).orderly := by
  unfold State.showTables
  repeat' first
    | with_reducible assumption
    | with_reducible apply State.onLink_orderly
    | with_reducible apply State.onTc_orderly
    | with_reducible apply State.onCore_orderly
    | with_reducible apply foldl_orderly
    | with_reducible apply foldl_fst_orderly
    | with_reducible apply ite_orderly
    | with_reducible apply ite_fst_orderly
    | (intro; intros)
    | split
    | dsimp only
    | (unfold State.orderly
       dsimp only
       with_reducible apply State.ordered)
    | refine pair_orderly (by assumption) ?_
    | assumption

theorem State.installGate_orderly (s : State) (x : Section) (hs : s.orderly) : (State.installGate s x).orderly := by
  unfold State.installGate
  repeat' first
    | with_reducible assumption
    | with_reducible apply State.onTc_orderly
    | with_reducible apply foldl_orderly
    | with_reducible apply foldl_fst_orderly
    | with_reducible apply ite_orderly
    | with_reducible apply ite_fst_orderly
    | (intro; intros)
    | split
    | dsimp only
    | (unfold State.orderly
       dsimp only
       with_reducible apply State.ordered)
    | refine pair_orderly (by assumption) ?_
    | assumption

theorem State.rebindMeters_orderly (s : State) (old : List Section) (hs : s.orderly) : (State.rebindMeters s old).orderly := by
  unfold State.rebindMeters
  repeat' first
    | with_reducible assumption
    | with_reducible apply State.unbindMeters_orderly
    | with_reducible apply State.bindMeters_orderly
    | with_reducible apply foldl_orderly
    | with_reducible apply foldl_fst_orderly
    | with_reducible apply ite_orderly
    | with_reducible apply ite_fst_orderly
    | (intro; intros)
    | split
    | dsimp only
    | (unfold State.orderly
       dsimp only
       with_reducible apply State.ordered)
    | refine pair_orderly (by assumption) ?_
    | assumption

theorem State.takeIdentity_orderly (s : State) (hs : s.orderly) : (State.takeIdentity s).orderly := by
  unfold State.takeIdentity
  repeat' first
    | with_reducible assumption
    | with_reducible apply State.onLink_orderly
    | with_reducible apply foldl_orderly
    | with_reducible apply foldl_fst_orderly
    | with_reducible apply ite_orderly
    | with_reducible apply ite_fst_orderly
    | (intro; intros)
    | split
    | dsimp only
    | (unfold State.orderly
       dsimp only
       with_reducible apply State.ordered)
    | refine pair_orderly (by assumption) ?_
    | assumption

theorem State.chillNew_orderly (s : State) (old : List Section) (hs : s.orderly) : (State.chillNew s old).orderly := by
  unfold State.chillNew
  repeat' first
    | with_reducible assumption
    | with_reducible apply foldl_orderly
    | with_reducible apply foldl_fst_orderly
    | with_reducible apply ite_orderly
    | with_reducible apply ite_fst_orderly
    | (intro; intros)
    | split
    | dsimp only
    | (unfold State.orderly
       dsimp only
       with_reducible apply State.ordered)
    | refine pair_orderly (by assumption) ?_
    | assumption

theorem State.discoverNew_orderly (s : State) (old : List Section) (hs : s.orderly) : (State.discoverNew s old).orderly := by
  unfold State.discoverNew
  repeat' first
    | with_reducible assumption
    | with_reducible apply State.trayPortOpen_orderly
    | with_reducible apply foldl_orderly
    | with_reducible apply foldl_fst_orderly
    | with_reducible apply ite_orderly
    | with_reducible apply ite_fst_orderly
    | (intro; intros)
    | split
    | dsimp only
    | (unfold State.orderly
       dsimp only
       with_reducible apply State.ordered)
    | refine pair_orderly (by assumption) ?_
    | assumption

theorem State.govern_orderly (s : State) (c : List Section) (gates : List Section) (hs : s.orderly) : (State.govern s c gates).orderly := by
  unfold State.govern
  repeat' first
    | with_reducible assumption
    | with_reducible apply State.onLink_orderly
    | with_reducible apply State.portDown_orderly
    | with_reducible apply State.showTables_orderly
    | with_reducible apply State.installGate_orderly
    | with_reducible apply State.rebindMeters_orderly
    | with_reducible apply State.takeIdentity_orderly
    | with_reducible apply State.chillNew_orderly
    | with_reducible apply State.discoverNew_orderly
    | with_reducible apply foldl_orderly
    | with_reducible apply foldl_fst_orderly
    | with_reducible apply ite_orderly
    | with_reducible apply ite_fst_orderly
    | (intro; intros)
    | split
    | dsimp only
    | (unfold State.orderly
       dsimp only
       with_reducible apply State.ordered)
    | refine pair_orderly (by assumption) ?_
    | assumption

theorem State.trainAll_orderly (s : State) (l : List Nat) (hs : s.orderly) : (State.trainAll s l).orderly := by
  unfold State.trainAll
  repeat' first
    | with_reducible assumption
    | with_reducible apply State.train_orderly
    | with_reducible apply foldl_orderly
    | with_reducible apply foldl_fst_orderly
    | with_reducible apply ite_orderly
    | with_reducible apply ite_fst_orderly
    | (intro; intros)
    | split
    | dsimp only
    | (unfold State.orderly
       dsimp only
       with_reducible apply State.ordered)
    | refine pair_orderly (by assumption) ?_
    | assumption

end Sys2Proof.Machine
end

