-- ==== Sys2Proof/Laws/KeepRegWrite.lean ====
section
/-! SUPPORT. Every operation of RegWrite keeps the queues and memories in order. -/

set_option linter.unusedTactic false
set_option linter.unreachableTactic false
set_option linter.unusedVariables false

namespace Sys2Proof.Machine

theorem State.writeGlb_orderly (s : State) (off : Nat) (v : BitVec 64) (hs : s.orderly) : (State.writeGlb s off v).1.orderly := by
  unfold State.writeGlb
  repeat' first
    | with_reducible assumption
    | with_reducible apply State.spareCmd_orderly
    | with_reducible apply State.makerModeWr_orderly
    | with_reducible apply foldl_orderly
    | with_reducible apply foldl_fst_orderly
    | with_reducible apply ite_orderly
    | with_reducible apply ite_fst_orderly
    | (intro; intros)
    | split
    | dsimp only
    | (unfold State.orderly
       dsimp only
       refine Ordered.mk ?_ ?_ ?_ ?_ ?_ ?_ ?_ ?_ ?_ <;> repeat' first
        | with_reducible apply State.events_of
        | with_reducible apply State.entries_of
        | with_reducible apply State.unacked_of
        | with_reducible apply State.t0_of
        | with_reducible apply State.spad_of
        | with_reducible apply State.cmem_of
        | with_reducible apply State.staged_of
        | with_reducible apply State.firmware_of
        | with_reducible apply State.report_of
        | with_reducible exact Memory.wf_nil
        | with_reducible apply Memory.wf_write
        | with_reducible apply Memory.wf_put
        | with_reducible apply Memory.wf_filter
        | rw [List.length_map]
        | exact Nat.zero_le _)
    | refine pair_orderly (by assumption) ?_
    | assumption

theorem State.admId_orderly (s : State) (v : BitVec 64) (hs : s.orderly) : (State.admId s v).1.orderly := by
  unfold State.admId
  repeat' first
    | with_reducible assumption
    | with_reducible apply State.onAdm_orderly
    | with_reducible apply ite_orderly
    | with_reducible apply ite_fst_orderly
    | (intro; intros)
    | split
    | dsimp only
    | (unfold State.orderly
       dsimp only
       with_reducible apply State.ordered)
    | refine pair_orderly (by assumption) ?_
    | assumption

theorem State.writeExt_orderly (s : State) (off : Nat) (v : BitVec 64) (hs : s.orderly) : (State.writeExt s off v).1.orderly := by
  unfold State.writeExt
  repeat' first
    | with_reducible assumption
    | with_reducible apply State.onAdm_orderly
    | with_reducible apply State.extCmd_orderly
    | with_reducible apply State.admCmd_orderly
    | with_reducible apply State.admId_orderly
    | with_reducible apply ite_orderly
    | with_reducible apply ite_fst_orderly
    | (intro; intros)
    | split
    | dsimp only
    | (unfold State.orderly
       dsimp only
       with_reducible apply State.ordered)
    | refine pair_orderly (by assumption) ?_
    | assumption

theorem State.ptwPolicy_orderly (s : State) (v : BitVec 64) (hs : s.orderly) : (State.ptwPolicy s v).1.orderly := by
  unfold State.ptwPolicy
  repeat' first
    | with_reducible assumption
    | with_reducible apply State.trnResult_orderly
    | with_reducible apply State.homeAccess_orderly
    | with_reducible apply ite_orderly
    | with_reducible apply ite_fst_orderly
    | (intro; intros)
    | split
    | dsimp only
    | (unfold State.orderly
       dsimp only
       with_reducible apply State.ordered)
    | refine pair_orderly (by assumption) ?_
    | assumption

theorem State.writeTrn_orderly (s : State) (off : Nat) (v : BitVec 64) (hs : s.orderly) : (State.writeTrn s off v).1.orderly := by
  unfold State.writeTrn
  repeat' first
    | with_reducible assumption
    | with_reducible apply State.tpCmd_orderly
    | with_reducible apply State.trayCmd_orderly
    | with_reducible apply State.invGo_orderly
    | with_reducible apply State.trnRoot_orderly
    | with_reducible apply State.trnMigCfg_orderly
    | with_reducible apply State.trnMigWarm_orderly
    | with_reducible apply State.trnBrCfg_orderly
    | with_reducible apply State.ptwPolicy_orderly
    | with_reducible apply ite_orderly
    | with_reducible apply ite_fst_orderly
    | (intro; intros)
    | split
    | dsimp only
    | (unfold State.orderly
       dsimp only
       with_reducible apply State.ordered)
    | refine pair_orderly (by assumption) ?_
    | assumption

theorem State.writeCmp_orderly (s : State) (off : Nat) (v : BitVec 64) (hs : s.orderly) : (State.writeCmp s off v).1.orderly := by
  unfold State.writeCmp
  repeat' first
    | with_reducible assumption
    | with_reducible apply ite_orderly
    | with_reducible apply ite_fst_orderly
    | (intro; intros)
    | split
    | dsimp only
    | (unfold State.orderly
       dsimp only
       with_reducible apply State.ordered)
    | refine pair_orderly (by assumption) ?_
    | assumption

theorem State.writeClv_orderly (s : State) (off : Nat) (v : BitVec 64) (hs : s.orderly) : (State.writeClv s off v).1.orderly := by
  unfold State.writeClv
  repeat' first
    | with_reducible assumption
    | with_reducible apply State.onColl_orderly
    | with_reducible apply State.clvBind_orderly
    | with_reducible apply State.clvCmd_orderly
    | with_reducible apply State.clvMember_orderly
    | with_reducible apply State.clvGroup_orderly
    | with_reducible apply foldl_orderly
    | with_reducible apply foldl_fst_orderly
    | with_reducible apply ite_orderly
    | with_reducible apply ite_fst_orderly
    | (intro; intros)
    | split
    | dsimp only
    | (unfold State.orderly
       dsimp only
       with_reducible apply State.ordered)
    | refine pair_orderly (by assumption) ?_
    | assumption

theorem State.writeAtn_orderly (s : State) (off : Nat) (v : BitVec 64) (hs : s.orderly) : (State.writeAtn s off v).1.orderly := by
  unfold State.writeAtn
  repeat' first
    | with_reducible assumption
    | with_reducible apply State.atnCmd_orderly
    | with_reducible apply State.atnPvCfg_orderly
    | with_reducible apply ite_orderly
    | with_reducible apply ite_fst_orderly
    | (intro; intros)
    | split
    | dsimp only
    | (unfold State.orderly
       dsimp only
       with_reducible apply State.ordered)
    | refine pair_orderly (by assumption) ?_
    | assumption

theorem State.writeCmpo_orderly (s : State) (off : Nat) (v : BitVec 64) (hs : s.orderly) : (State.writeCmpo s off v).1.orderly := by
  unfold State.writeCmpo
  repeat' first
    | with_reducible assumption
    | with_reducible apply State.cmpoCmd_orderly
    | with_reducible apply ite_orderly
    | with_reducible apply ite_fst_orderly
    | (intro; intros)
    | split
    | dsimp only
    | (unfold State.orderly
       dsimp only
       with_reducible apply State.ordered)
    | refine pair_orderly (by assumption) ?_
    | assumption

theorem State.writeModule_orderly (s : State) (page : Nat) (off : Nat) (v : BitVec 64) (hs : s.orderly) : (State.writeModule s page off v).1.orderly := by
  unfold State.writeModule
  repeat' first
    | with_reducible assumption
    | with_reducible apply State.writeGlb_orderly
    | with_reducible apply State.writeExt_orderly
    | with_reducible apply State.writeTrn_orderly
    | with_reducible apply State.writeCmp_orderly
    | with_reducible apply State.writeClv_orderly
    | with_reducible apply State.writeAtn_orderly
    | with_reducible apply State.writeCmpo_orderly
    | with_reducible apply ite_orderly
    | with_reducible apply ite_fst_orderly
    | (intro; intros)
    | split
    | dsimp only
    | (unfold State.orderly
       dsimp only
       with_reducible apply State.ordered)
    | refine pair_orderly (by assumption) ?_
    | assumption

theorem State.secLot_orderly (s : State) (v : BitVec 64) (hs : s.orderly) : (State.secLot s v).1.orderly := by
  unfold State.secLot
  repeat' first
    | with_reducible assumption
    | with_reducible apply ite_orderly
    | with_reducible apply ite_fst_orderly
    | (intro; intros)
    | split
    | dsimp only
    | (unfold State.orderly
       dsimp only
       with_reducible apply State.ordered)
    | refine pair_orderly (by assumption) ?_
    | assumption

theorem State.dbgPolicy_orderly (s : State) (hs : s.orderly) : (State.dbgPolicy s).1.orderly := by
  unfold State.dbgPolicy
  repeat' first
    | with_reducible assumption
    | with_reducible apply State.homeAccess_orderly
    | with_reducible apply State.dbgResult_orderly
    | with_reducible apply ite_orderly
    | with_reducible apply ite_fst_orderly
    | (intro; intros)
    | split
    | dsimp only
    | (unfold State.orderly
       dsimp only
       with_reducible apply State.ordered)
    | refine pair_orderly (by assumption) ?_
    | assumption

theorem State.writeSec_orderly (s : State) (off : Nat) (v : BitVec 64) (hs : s.orderly) : (State.writeSec s off v).1.orderly := by
  unfold State.writeSec
  repeat' first
    | with_reducible assumption
    | with_reducible apply State.tcCmd_orderly
    | with_reducible apply State.pkeyData_orderly
    | with_reducible apply State.roleCmd_orderly
    | with_reducible apply State.fwCmd_orderly
    | with_reducible apply State.attCmd_orderly
    | with_reducible apply State.secLot_orderly
    | with_reducible apply State.dbgPolicy_orderly
    | with_reducible apply ite_orderly
    | with_reducible apply ite_fst_orderly
    | (intro; intros)
    | split
    | dsimp only
    | (unfold State.orderly
       dsimp only
       with_reducible apply State.ordered)
    | refine pair_orderly (by assumption) ?_
    | assumption

theorem State.writeLog_orderly (s : State) (off : Nat) (v : BitVec 64) (hs : s.orderly) : (State.writeLog s off v).1.orderly := by
  unfold State.writeLog
  repeat' first
    | with_reducible assumption
    | with_reducible apply State.owing_orderly
    | with_reducible apply State.logFence_orderly
    | with_reducible apply State.logCmd_orderly
    | with_reducible apply ite_orderly
    | with_reducible apply ite_fst_orderly
    | (intro; intros)
    | split
    | dsimp only
    | (unfold State.orderly
       dsimp only
       refine Ordered.mk ?_ ?_ ?_ ?_ ?_ ?_ ?_ ?_ ?_ <;> repeat' first
        | with_reducible apply State.events_of
        | with_reducible apply State.entries_of
        | with_reducible apply State.unacked_of
        | with_reducible apply State.t0_of
        | with_reducible apply State.spad_of
        | with_reducible apply State.cmem_of
        | with_reducible apply State.staged_of
        | with_reducible apply State.firmware_of
        | with_reducible apply State.report_of
        | with_reducible exact Memory.wf_nil
        | with_reducible apply Memory.wf_write
        | with_reducible apply Memory.wf_put
        | with_reducible apply Memory.wf_filter
        | rw [List.length_map]
        | exact Nat.zero_le _)
    | refine pair_orderly (by assumption) ?_
    | assumption

theorem State.writeMod_orderly (s : State) (off : Nat) (v : BitVec 64) (hs : s.orderly) : (State.writeMod s off v).1.orderly := by
  unfold State.writeMod
  repeat' first
    | with_reducible assumption
    | with_reducible apply State.warm_orderly
    | with_reducible apply State.modCmd_orderly
    | with_reducible apply ite_orderly
    | with_reducible apply ite_fst_orderly
    | (intro; intros)
    | split
    | dsimp only
    | (unfold State.orderly
       dsimp only
       with_reducible apply State.ordered)
    | refine pair_orderly (by assumption) ?_
    | assumption

theorem State.writeSd1_orderly (s : State) (page : Nat) (off : Nat) (v : BitVec 64) (hs : s.orderly) : (State.writeSd1 s page off v).1.orderly := by
  unfold State.writeSd1
  repeat' first
    | with_reducible assumption
    | with_reducible apply State.lseCmd_orderly
    | with_reducible apply State.lseEntry_orderly
    | with_reducible apply State.lseBounds_orderly
    | with_reducible apply State.timCtrl_orderly
    | with_reducible apply ite_orderly
    | with_reducible apply ite_fst_orderly
    | (intro; intros)
    | split
    | dsimp only
    | (unfold State.orderly
       dsimp only
       with_reducible apply State.ordered)
    | refine pair_orderly (by assumption) ?_
    | assumption

theorem State.writePrt_orderly (s : State) (p : Nat) (off : Nat) (v : BitVec 64) (hs : s.orderly) : (State.writePrt s p off v).1.orderly := by
  unfold State.writePrt
  repeat' first
    | with_reducible assumption
    | with_reducible apply State.onLink_orderly
    | with_reducible apply State.onTc_orderly
    | with_reducible apply State.onBridle_orderly
    | with_reducible apply State.prtPeer_orderly
    | with_reducible apply State.prtCfg_orderly
    | with_reducible apply State.gateCtrl_orderly
    | with_reducible apply State.gateBase_orderly
    | with_reducible apply State.gateChange_orderly
    | with_reducible apply State.gateEntry_orderly
    | with_reducible apply State.prtShape_orderly
    | with_reducible apply State.prtBridle_orderly
    | with_reducible apply State.brdCfg_orderly
    | with_reducible apply State.brdBurst_orderly
    | with_reducible apply State.brdSelect_orderly
    | with_reducible apply State.prtRloop_orderly
    | with_reducible apply ite_orderly
    | with_reducible apply ite_fst_orderly
    | (intro; intros)
    | split
    | dsimp only
    | (unfold State.orderly
       dsimp only
       with_reducible apply State.ordered)
    | refine pair_orderly (by assumption) ?_
    | assumption

theorem State.writeQue_orderly (s : State) (p : Nat) (q : Nat) (off : Nat) (v : BitVec 64) (hs : s.orderly) : (State.writeQue s p q off v).1.orderly := by
  unfold State.writeQue
  repeat' first
    | with_reducible assumption
    | with_reducible apply State.onQueue_orderly
    | with_reducible apply State.queShape_orderly
    | with_reducible apply State.queCfg_orderly
    | with_reducible apply State.belCfg_orderly
    | with_reducible apply ite_orderly
    | with_reducible apply ite_fst_orderly
    | (intro; intros)
    | split
    | dsimp only
    | (unfold State.orderly
       dsimp only
       with_reducible apply State.ordered)
    | refine pair_orderly (by assumption) ?_
    | assumption

theorem State.writeCoh_orderly (s : State) (d : Nat) (off : Nat) (v : BitVec 64) (hs : s.orderly) : (State.writeCoh s d off v).1.orderly := by
  unfold State.writeCoh
  repeat' first
    | with_reducible assumption
    | with_reducible apply State.onDom_orderly
    | with_reducible apply State.cohCfg_orderly
    | with_reducible apply State.cohCmd_orderly
    | with_reducible apply State.cohMembers_orderly
    | with_reducible apply ite_orderly
    | with_reducible apply ite_fst_orderly
    | (intro; intros)
    | split
    | dsimp only
    | (unfold State.orderly
       dsimp only
       with_reducible apply State.ordered)
    | refine pair_orderly (by assumption) ?_
    | assumption

theorem State.writeCommon_orderly (s : State) (ty : Nat) (i : Nat) (off : Nat) (v : BitVec 64) (hs : s.orderly) : (State.writeCommon s ty i off v).1.orderly := by
  unfold State.writeCommon
  repeat' first
    | with_reducible assumption
    | with_reducible apply ite_orderly
    | with_reducible apply ite_fst_orderly
    | (intro; intros)
    | split
    | dsimp only
    | (unfold State.orderly
       dsimp only
       refine Ordered.mk ?_ ?_ ?_ ?_ ?_ ?_ ?_ ?_ ?_ <;> repeat' first
        | with_reducible apply State.events_of
        | with_reducible apply State.entries_of
        | with_reducible apply State.unacked_of
        | with_reducible apply State.t0_of
        | with_reducible apply State.spad_of
        | with_reducible apply State.cmem_of
        | with_reducible apply State.staged_of
        | with_reducible apply State.firmware_of
        | with_reducible apply State.report_of
        | with_reducible exact Memory.wf_nil
        | with_reducible apply Memory.wf_write
        | with_reducible apply Memory.wf_put
        | with_reducible apply Memory.wf_filter
        | rw [List.length_map]
        | exact Nat.zero_le _)
    | refine pair_orderly (by assumption) ?_
    | assumption

theorem State.regWrite_orderly (s : State) (a : Nat) (v : BitVec 64) (hs : s.orderly) : (State.regWrite s a v).1.orderly := by
  unfold State.regWrite
  repeat' first
    | with_reducible assumption
    | with_reducible apply State.onCore_orderly
    | with_reducible apply State.writeModule_orderly
    | with_reducible apply State.writeSec_orderly
    | with_reducible apply State.writeLog_orderly
    | with_reducible apply State.writeMod_orderly
    | with_reducible apply State.writeSd1_orderly
    | with_reducible apply State.writePrt_orderly
    | with_reducible apply State.writeQue_orderly
    | with_reducible apply State.writeCoh_orderly
    | with_reducible apply State.writeCommon_orderly
    | with_reducible apply ite_orderly
    | with_reducible apply ite_fst_orderly
    | (intro; intros)
    | split
    | dsimp only
    | (unfold State.orderly
       dsimp only
       with_reducible apply State.ordered)
    | refine pair_orderly (by assumption) ?_
    | assumption

theorem State.policyApply_orderly (rs : List (Nat × BitVec 64)) (s : State) (hs : s.orderly) : (State.policyApply rs s).orderly := by
  unfold State.policyApply
  repeat' first
    | with_reducible assumption
    | with_reducible apply State.logE_orderly
    | with_reducible apply State.regWrite_orderly
    | with_reducible apply foldl_orderly
    | with_reducible apply foldl_fst_orderly
    | with_reducible apply ite_orderly
    | with_reducible apply ite_fst_orderly
    | (intro; intros)
    | split
    | dsimp only
    | (unfold State.orderly
       dsimp only
       with_reducible apply State.ordered)
    | refine pair_orderly (by assumption) ?_
    | assumption

end Sys2Proof.Machine
end

