-- ==== Sys2Proof/Laws/KeepTransactions.lean ====
section
/-! SUPPORT. Every operation of Transactions keeps the queues and memories in order. -/

set_option linter.unusedTactic false
set_option linter.unreachableTactic false
set_option linter.unusedVariables false

namespace Sys2Proof.Machine

theorem State.wrAny_orderly (q : AdkFrame) (s : State) (hs : s.orderly) : (State.wrAny q s).orderly := by
  unfold State.wrAny
  repeat' first
    | with_reducible assumption
    | with_reducible apply State.adkReply_orderly
    | with_reducible apply State.wrBody_orderly
    | with_reducible apply State.extBody_orderly
    | with_reducible apply State.ptwStart_orderly
    | with_reducible apply State.modBody_orderly
    | with_reducible apply State.dbgStart_orderly
    | with_reducible apply State.regWrite_orderly
    | with_reducible apply ite_orderly
    | with_reducible apply ite_fst_orderly
    | (intro; intros)
    | split
    | dsimp only
    | (unfold State.orderly
       dsimp only
       with_reducible apply State.ordered)
    | refine pair_orderly (by assumption) ?_
    | assumption

theorem execRegisterWrite_orderly (tag : BitVec 16) (addr : BitVec 48) (value : BitVec 64) (held : BitVec 64) (s : State) (hs : s.orderly) : inOrder (execRegisterWrite tag addr value held s) := by
  unfold execRegisterWrite
  repeat' first
    | with_reducible assumption
    | with_reducible apply State.adkRequest_orderly
    | with_reducible apply State.wrAny_orderly
    | with_reducible apply ite_orderly
    | with_reducible apply ite_fst_orderly
    | with_reducible apply next_orderly
    | (intro; intros)
    | split
    | dsimp only
    | (unfold State.orderly
       dsimp only
       with_reducible apply State.ordered)
    | refine pair_orderly (by assumption) ?_
    | assumption

theorem State.lateRead_orderly (s : State) (incs : BitVec 32) (hs : s.orderly) : (State.lateRead s incs).orderly := by
  unfold State.lateRead
  repeat' first
    | with_reducible assumption
    | with_reducible apply ite_orderly
    | with_reducible apply ite_fst_orderly
    | (intro; intros)
    | split
    | dsimp only
    | (unfold State.orderly
       dsimp only
       with_reducible apply State.ordered)
    | refine pair_orderly (by assumption) ?_
    | assumption

theorem State.rdReply_orderly (q : AdkFrame) (s : State) (hs : s.orderly) : (State.rdReply q s).orderly := by
  unfold State.rdReply
  repeat' first
    | with_reducible assumption
    | with_reducible apply State.adkReply_orderly
    | with_reducible apply State.makerDiag_orderly
    | with_reducible apply State.lateRead_orderly
    | with_reducible apply ite_orderly
    | with_reducible apply ite_fst_orderly
    | (intro; intros)
    | split
    | dsimp only
    | (unfold State.orderly
       dsimp only
       with_reducible apply State.ordered)
    | refine pair_orderly (by assumption) ?_
    | assumption

theorem State.rdAny_orderly (q : AdkFrame) (s : State) (hs : s.orderly) : (State.rdAny q s).orderly := by
  unfold State.rdAny
  repeat' first
    | with_reducible assumption
    | with_reducible apply State.adkFail_orderly
    | with_reducible apply State.ptwStart_orderly
    | with_reducible apply State.rdReply_orderly
    | with_reducible apply ite_orderly
    | with_reducible apply ite_fst_orderly
    | (intro; intros)
    | split
    | dsimp only
    | (unfold State.orderly
       dsimp only
       with_reducible apply State.ordered)
    | refine pair_orderly (by assumption) ?_
    | assumption

theorem execAdkRd_orderly (tag : BitVec 16) (addr : BitVec 48) (len : BitVec 16) (s : State) (hs : s.orderly) : inOrder (execAdkRd tag addr len s) := by
  unfold execAdkRd
  repeat' first
    | with_reducible assumption
    | with_reducible apply State.adkRequest_orderly
    | with_reducible apply State.rdAny_orderly
    | with_reducible apply ite_orderly
    | with_reducible apply ite_fst_orderly
    | with_reducible apply next_orderly
    | (intro; intros)
    | split
    | dsimp only
    | (unfold State.orderly
       dsimp only
       with_reducible apply State.ordered)
    | refine pair_orderly (by assumption) ?_
    | assumption

theorem execRcRead_orderly (tag : BitVec 16) (incs : BitVec 32) (s : State) (hs : s.orderly) : inOrder (execRcRead tag incs s) := by
  unfold execRcRead
  repeat' first
    | with_reducible assumption
    | with_reducible apply State.adkRequest_orderly
    | with_reducible apply State.rdAny_orderly
    | with_reducible apply ite_orderly
    | with_reducible apply ite_fst_orderly
    | with_reducible apply next_orderly
    | (intro; intros)
    | split
    | dsimp only
    | (unfold State.orderly
       dsimp only
       with_reducible apply State.ordered)
    | refine pair_orderly (by assumption) ?_
    | assumption

theorem State.logAny_orderly (q : AdkFrame) (s : State) (hs : s.orderly) : (State.logAny q s).orderly := by
  unfold State.logAny
  repeat' first
    | with_reducible assumption
    | with_reducible apply State.draw_orderly
    | with_reducible apply State.adkReply_orderly
    | with_reducible apply ite_orderly
    | with_reducible apply ite_fst_orderly
    | (intro; intros)
    | split
    | dsimp only
    | (unfold State.orderly
       dsimp only
       with_reducible apply State.ordered)
    | refine pair_orderly (by assumption) ?_
    | assumption

theorem execLogrd_orderly (tag : BitVec 16) (addr : BitVec 48) (len : BitVec 16) (s : State) (hs : s.orderly) : inOrder (execLogrd tag addr len s) := by
  unfold execLogrd
  repeat' first
    | with_reducible assumption
    | with_reducible apply State.adkRequest_orderly
    | with_reducible apply State.logAny_orderly
    | with_reducible apply ite_orderly
    | with_reducible apply ite_fst_orderly
    | with_reducible apply next_orderly
    | (intro; intros)
    | split
    | dsimp only
    | (unfold State.orderly
       dsimp only
       with_reducible apply State.ordered)
    | refine pair_orderly (by assumption) ?_
    | assumption

theorem State.imgPut_orderly (s : State) (off : Nat) (ws : List (BitVec 64)) (hs : s.orderly) : (State.imgPut s off ws).1.orderly := by
  unfold State.imgPut
  repeat' first
    | with_reducible assumption
    | with_reducible apply State.imgErr_orderly
    | with_reducible apply ite_orderly
    | with_reducible apply ite_fst_orderly
    | (intro; intros)
    | split
    | dsimp only
    | (unfold State.orderly
       dsimp only
       refine Ordered.mk ?_ ?_ ?_ ?_ ?_ ?_ ?_ ?_ ?_ <;> repeat' first
        | with_reducible apply State.events_of
        | with_reducible apply State.entries_of
        | with_reducible apply State.unacked_of
        | with_reducible apply State.t0_of
        | with_reducible apply State.spad_of
        | with_reducible apply State.cmem_of
        | with_reducible apply State.staged_of
        | with_reducible apply State.firmware_of
        | with_reducible apply State.report_of
        | with_reducible exact Memory.wf_nil
        | with_reducible apply Memory.wf_write
        | with_reducible apply Memory.wf_put
        | with_reducible apply Memory.wf_filter
        | rw [List.length_map]
        | exact Nat.zero_le _)
    | refine pair_orderly (by assumption) ?_
    | assumption

theorem State.fwPut_orderly (s : State) (off : Nat) (ws : List (BitVec 64)) (hs : s.orderly) : (State.fwPut s off ws).1.orderly := by
  unfold State.fwPut
  repeat' first
    | with_reducible assumption
    | with_reducible apply ite_orderly
    | with_reducible apply ite_fst_orderly
    | (intro; intros)
    | split
    | dsimp only
    | (unfold State.orderly
       dsimp only
       refine Ordered.mk ?_ ?_ ?_ ?_ ?_ ?_ ?_ ?_ ?_ <;> repeat' first
        | with_reducible apply State.events_of
        | with_reducible apply State.entries_of
        | with_reducible apply State.unacked_of
        | with_reducible apply State.t0_of
        | with_reducible apply State.spad_of
        | with_reducible apply State.cmem_of
        | with_reducible apply State.staged_of
        | with_reducible apply State.firmware_of
        | with_reducible apply State.report_of
        | with_reducible exact Memory.wf_nil
        | with_reducible apply Memory.wf_write
        | with_reducible apply Memory.wf_put
        | with_reducible apply Memory.wf_filter
        | rw [List.length_map]
        | exact Nat.zero_le _)
    | refine pair_orderly (by assumption) ?_
    | assumption

theorem State.imgAny_orderly (q : AdkFrame) (s : State) (hs : s.orderly) : (State.imgAny q s).orderly := by
  unfold State.imgAny
  repeat' first
    | with_reducible assumption
    | with_reducible apply State.adkReply_orderly
    | with_reducible apply State.imgPut_orderly
    | with_reducible apply State.fwPut_orderly
    | with_reducible apply ite_orderly
    | with_reducible apply ite_fst_orderly
    | (intro; intros)
    | split
    | dsimp only
    | (unfold State.orderly
       dsimp only
       with_reducible apply State.ordered)
    | refine pair_orderly (by assumption) ?_
    | assumption

theorem execImgwr_orderly (tag : BitVec 16) (addr : BitVec 48) (words : List (BitVec 64)) (s : State) (hs : s.orderly) : inOrder (execImgwr tag addr words s) := by
  unfold execImgwr
  repeat' first
    | with_reducible assumption
    | with_reducible apply State.adkRequest_orderly
    | with_reducible apply State.imgAny_orderly
    | with_reducible apply ite_orderly
    | with_reducible apply ite_fst_orderly
    | with_reducible apply next_orderly
    | (intro; intros)
    | split
    | dsimp only
    | (unfold State.orderly
       dsimp only
       with_reducible apply State.ordered)
    | refine pair_orderly (by assumption) ?_
    | assumption

theorem State.adkAny_orderly (q : AdkFrame) (s : State) (hs : s.orderly) : (State.adkAny q s).orderly := by
  unfold State.adkAny
  repeat' first
    | with_reducible assumption
    | with_reducible apply State.wrAny_orderly
    | with_reducible apply State.rdAny_orderly
    | with_reducible apply State.logAny_orderly
    | with_reducible apply State.imgAny_orderly
    | with_reducible apply ite_orderly
    | with_reducible apply ite_fst_orderly
    | (intro; intros)
    | split
    | dsimp only
    | (unfold State.orderly
       dsimp only
       with_reducible apply State.ordered)
    | refine pair_orderly (by assumption) ?_
    | assumption

theorem State.adkRun_orderly (l : List AdkFrame) (s : State) (hs : s.orderly) : (State.adkRun l s).orderly := by
  have h2 : ∀ (s : State) (n : Nat), s.orderly → ({ s with adk := { s.adk with behind := n } } : State).orderly := fun _ _ h => h
  have h3 : ∀ (s : State) (l : List AdkFrame), s.orderly → ({ s with adk := { s.adk with outstanding := l } } : State).orderly :=
    fun _ _ h => h
  induction l generalizing s with
  | nil => exact hs
  | cons q rest ih =>
    unfold State.adkRun
    dsimp only
    have hp : ∀ s : State, s.orderly → (s.adkPerform q (State.adkAny q)).orderly := fun s hs =>
      State.adkPerform_orderly _ _ _ hs (fun a h => State.adkAny_orderly _ _ h)
    have hb := h2 s rest.length hs
    have hx := h2 _ 0 (ite_orderly (c := q.bad = true) (fun _ => State.adkMalformed_orderly _ q hb) (fun _ => hp _ hb))
    exact ite_orderly (fun _ => hx) (fun _ => ite_orderly (fun _ => ih _ hx) (fun _ => hx))

theorem State.adkResume_orderly (s : State) (hs : s.orderly) : (State.adkResume s).orderly := by
  unfold State.adkResume
  repeat' first
    | with_reducible assumption
    | with_reducible apply State.adkRun_orderly
    | with_reducible apply ite_orderly
    | with_reducible apply ite_fst_orderly
    | (intro; intros)
    | split
    | dsimp only
    | (unfold State.orderly
       dsimp only
       with_reducible apply State.ordered)
    | refine pair_orderly (by assumption) ?_
    | assumption

theorem execPtwAccessComplete_orderly (s : State) (hs : s.orderly) : inOrder (execPtwAccessComplete s) := by
  unfold execPtwAccessComplete
  repeat' first
    | with_reducible assumption
    | with_reducible apply State.adkReply_orderly
    | with_reducible apply State.adkFail_orderly
    | with_reducible apply State.trnResult_orderly
    | with_reducible apply State.rdReply_orderly
    | with_reducible apply State.adkResume_orderly
    | with_reducible apply ite_orderly
    | with_reducible apply ite_fst_orderly
    | with_reducible apply next_orderly
    | (intro; intros)
    | split
    | dsimp only
    | (unfold State.orderly
       dsimp only
       with_reducible apply State.ordered)
    | refine pair_orderly (by assumption) ?_
    | assumption

theorem execMakeRoom_orderly (s : State) (hs : s.orderly) : inOrder (execMakeRoom s) := by
  unfold execMakeRoom
  repeat' first
    | with_reducible assumption
    | with_reducible apply State.adkReply_orderly
    | with_reducible apply State.makeRoomStep_orderly
    | with_reducible apply State.extAssign_orderly
    | with_reducible apply State.extResult_orderly
    | with_reducible apply State.adkResume_orderly
    | with_reducible apply ite_orderly
    | with_reducible apply ite_fst_orderly
    | with_reducible apply foldl_room_orderly
    | with_reducible apply ite_room_orderly
    | with_reducible apply next_orderly
    | (intro; intros)
    | split
    | dsimp only
    | (unfold State.orderly
       dsimp only
       with_reducible apply State.ordered)
    | refine pair_orderly (by assumption) ?_
    | assumption

theorem execDebugReadComplete_orderly (s : State) (hs : s.orderly) : inOrder (execDebugReadComplete s) := by
  unfold execDebugReadComplete
  repeat' first
    | with_reducible assumption
    | with_reducible apply State.adkReply_orderly
    | with_reducible apply State.dbgResult_orderly
    | with_reducible apply State.adkResume_orderly
    | with_reducible apply ite_orderly
    | with_reducible apply ite_fst_orderly
    | with_reducible apply next_orderly
    | (intro; intros)
    | split
    | dsimp only
    | (unfold State.orderly
       dsimp only
       with_reducible apply State.ordered)
    | refine pair_orderly (by assumption) ?_
    | assumption

end Sys2Proof.Machine
end

