-- ==== Sys2Proof/Laws/KeepRecompose.lean ====
section
/-! SUPPORT. Every operation of Recompose keeps the queues and memories in order. -/

set_option linter.unusedTactic false
set_option linter.unreachableTactic false
set_option linter.unusedVariables false

namespace Sys2Proof.Machine

theorem State.asCandidate_orderly (s : State) (hs : s.orderly) : (State.asCandidate s).orderly := by
  unfold State.asCandidate
  repeat' first
    | with_reducible assumption
    | with_reducible apply ite_orderly
    | with_reducible apply ite_fst_orderly
    | (intro; intros)
    | split
    | dsimp only
    | (unfold State.orderly
       dsimp only
       with_reducible apply State.ordered)
    | refine pair_orderly (by assumption) ?_
    | assumption

theorem execImageValidationDone_orderly (s : State) (hs : s.orderly) : inOrder (execImageValidationDone s) := by
  unfold execImageValidationDone
  repeat' first
    | with_reducible assumption
    | with_reducible apply State.imgErr_orderly
    | with_reducible apply ite_orderly
    | with_reducible apply ite_fst_orderly
    | with_reducible apply next_orderly
    | (intro; intros)
    | split
    | dsimp only
    | (unfold State.orderly
       dsimp only
       with_reducible apply State.ordered)
    | refine pair_orderly (by assumption) ?_
    | assumption

theorem execLoadComplete_orderly (s : State) (hs : s.orderly) : inOrder (execLoadComplete s) := by
  have hr := State.abortAgentMoves_orderly s s.comp.run s.candidate hs
  have hc : ∀ (r : State) e, r.orderly → ({ r with comp := r.loadedComp e } : State).orderly := fun _ _ h => h
  have hm : ∀ (r : State) m, r.orderly → ({ r with mod := m } : State).orderly := fun _ _ h => h
  unfold execLoadComplete
  refine next_orderly (ite_orderly (fun _ => hs) (fun _ => ite_orderly (fun _ => hs) (fun _ => ?_)))
  refine State.imgEmpty_orderly _ (State.trainAll_orderly _ _ (State.policyApply_orderly _ _ (ite_orderly (fun _ => hm _ _
    (State.changeState_orderly _ _ _ _ ?_)) (fun _ => ?_))))
  all_goals exact State.govern_orderly _ _ _ (State.countCmpo_orderly _ _ (hc _ _ hr))

theorem State.epochNotes_orderly (s : State) (phase : BitVec 8) (but : Option Nat) (hs : s.orderly) : (State.epochNotes s phase but).orderly := by
  unfold State.epochNotes
  repeat' first
    | with_reducible assumption
    | with_reducible apply State.sendFrom_orderly
    | with_reducible apply foldl_orderly
    | with_reducible apply foldl_fst_orderly
    | with_reducible apply ite_orderly
    | with_reducible apply ite_fst_orderly
    | (intro; intros)
    | split
    | dsimp only
    | (unfold State.orderly
       dsimp only
       with_reducible apply State.ordered)
    | refine pair_orderly (by assumption) ?_
    | assumption

theorem State.windowEvent_orderly (s : State) (phase : Nat) (new : BitVec 4) (old : BitVec 4) (hs : s.orderly) : (State.windowEvent s phase new old).orderly := by
  unfold State.windowEvent
  repeat' first
    | with_reducible assumption
    | with_reducible apply State.event_orderly
    | with_reducible apply ite_orderly
    | with_reducible apply ite_fst_orderly
    | (intro; intros)
    | split
    | dsimp only
    | (unfold State.orderly
       dsimp only
       with_reducible apply State.ordered)
    | refine pair_orderly (by assumption) ?_
    | assumption

theorem State.epochNote_orderly (s : State) (b : Nat) (f : Frame) (hs : s.orderly) : (State.epochNote s b f).orderly := by
  unfold State.epochNote
  repeat' first
    | with_reducible assumption
    | with_reducible apply State.epochNotes_orderly
    | with_reducible apply State.windowEvent_orderly
    | with_reducible apply ite_orderly
    | with_reducible apply ite_fst_orderly
    | (intro; intros)
    | split
    | dsimp only
    | (unfold State.orderly
       dsimp only
       with_reducible apply State.ordered)
    | refine pair_orderly (by assumption) ?_
    | assumption

theorem execEpochNote_orderly (port : BitVec 8) (frame : Frame) (s : State) (hs : s.orderly) : inOrder (execEpochNote port frame s) := by
  unfold execEpochNote
  repeat' first
    | with_reducible assumption
    | with_reducible apply State.arrive_orderly
    | with_reducible apply State.epochNote_orderly
    | with_reducible apply ite_orderly
    | with_reducible apply ite_fst_orderly
    | with_reducible apply next_orderly
    | (intro; intros)
    | split
    | dsimp only
    | (unfold State.orderly
       dsimp only
       with_reducible apply State.ordered)
    | refine pair_orderly (by assumption) ?_
    | assumption

theorem execApplyPrepared_orderly (s : State) (hs : s.orderly) : inOrder (execApplyPrepared s) := by
  unfold execApplyPrepared
  repeat' first
    | with_reducible assumption
    | with_reducible apply State.loadProgram_orderly
    | with_reducible apply State.endWork_orderly
    | with_reducible apply foldl_orderly
    | with_reducible apply foldl_fst_orderly
    | with_reducible apply ite_orderly
    | with_reducible apply ite_fst_orderly
    | with_reducible apply next_orderly
    | (intro; intros)
    | split
    | dsimp only
    | (unfold State.orderly
       dsimp only
       with_reducible apply State.ordered)
    | refine pair_orderly (by assumption) ?_
    | assumption

theorem State.hofRearm_orderly (s : State) (a : List Section) (b : List Section) (hs : s.orderly) : (State.hofRearm s a b).orderly := by
  unfold State.hofRearm
  repeat' first
    | with_reducible assumption
    | with_reducible apply ite_orderly
    | with_reducible apply ite_fst_orderly
    | (intro; intros)
    | split
    | dsimp only
    | (unfold State.orderly
       dsimp only
       with_reducible apply State.ordered)
    | refine pair_orderly (by assumption) ?_
    | assumption

theorem execEpochFlip_orderly (s : State) (hs : s.orderly) : inOrder (execEpochFlip s) := by
  unfold execEpochFlip
  repeat' first
    | with_reducible assumption
    | with_reducible apply State.countCmpo_orderly
    | with_reducible apply State.abortAgentMoves_orderly
    | with_reducible apply State.govern_orderly
    | with_reducible apply State.trainAll_orderly
    | with_reducible apply State.policyApply_orderly
    | with_reducible apply State.epochNotes_orderly
    | with_reducible apply State.windowEvent_orderly
    | with_reducible apply State.hofRearm_orderly
    | with_reducible apply ite_orderly
    | with_reducible apply ite_fst_orderly
    | with_reducible apply next_orderly
    | (intro; intros)
    | split
    | dsimp only
    | (unfold State.orderly
       dsimp only
       with_reducible apply State.ordered)
    | refine pair_orderly (by assumption) ?_
    | assumption

theorem execWindowClose_orderly (s : State) (hs : s.orderly) : inOrder (execWindowClose s) := by
  unfold execWindowClose
  repeat' first
    | with_reducible assumption
    | with_reducible apply State.startThreads_orderly
    | with_reducible apply State.imgEmpty_orderly
    | with_reducible apply State.epochNotes_orderly
    | with_reducible apply State.windowEvent_orderly
    | with_reducible apply foldl_orderly
    | with_reducible apply foldl_fst_orderly
    | with_reducible apply ite_orderly
    | with_reducible apply ite_fst_orderly
    | with_reducible apply next_orderly
    | (intro; intros)
    | split
    | dsimp only
    | (unfold State.orderly
       dsimp only
       with_reducible apply State.ordered)
    | refine pair_orderly (by assumption) ?_
    | assumption

theorem State.pullSector_orderly (s : State) (b : Nat) (hs : s.orderly) : (State.pullSector s b).1.orderly := by
  unfold State.pullSector
  repeat' first
    | with_reducible assumption
    | with_reducible apply State.setSector_orderly
    | with_reducible apply State.makeWay_orderly
    | with_reducible apply ite_orderly
    | with_reducible apply ite_fst_orderly
    | (intro; intros)
    | split
    | dsimp only
    | (unfold State.orderly
       dsimp only
       with_reducible apply State.ordered)
    | refine pair_orderly (by assumption) ?_
    | assumption

theorem State.evacuateSector_orderly (s : State) (b : Nat) (hs : s.orderly) : (State.evacuateSector s b).1.orderly := by
  unfold State.evacuateSector
  repeat' first
    | with_reducible assumption
    | with_reducible apply State.writeBack_orderly
    | with_reducible apply State.startZero_orderly
    | with_reducible apply State.dropSector_orderly
    | with_reducible apply ite_orderly
    | with_reducible apply ite_fst_orderly
    | (intro; intros)
    | split
    | dsimp only
    | (unfold State.orderly
       dsimp only
       with_reducible apply State.ordered)
    | refine pair_orderly (by assumption) ?_
    | assumption

theorem execSectorHandover_orderly (block : BitVec 45) (s : State) (hs : s.orderly) : inOrder (execSectorHandover block s) := by
  unfold execSectorHandover
  repeat' first
    | with_reducible assumption
    | with_reducible apply State.wakeBlock_orderly
    | with_reducible apply State.pullSector_orderly
    | with_reducible apply State.evacuateSector_orderly
    | with_reducible apply ite_orderly
    | with_reducible apply ite_fst_orderly
    | with_reducible apply next_orderly
    | (intro; intros)
    | split
    | dsimp only
    | (unfold State.orderly
       dsimp only
       with_reducible apply State.ordered)
    | refine pair_orderly (by assumption) ?_
    | assumption

theorem State.hofDisarm_orderly (s : State) (i : Nat) (hs : s.orderly) : (State.hofDisarm s i).orderly := by
  unfold State.hofDisarm
  repeat' first
    | with_reducible assumption
    | with_reducible apply ite_orderly
    | with_reducible apply ite_fst_orderly
    | (intro; intros)
    | split
    | dsimp only
    | (unfold State.orderly
       dsimp only
       with_reducible apply State.ordered)
    | refine pair_orderly (by assumption) ?_
    | assumption

theorem State.rollBack_orderly (s : State) (i : Nat) (line : Nat) (hs : s.orderly) : (State.rollBack s i line).orderly := by
  unfold State.rollBack
  repeat' first
    | with_reducible assumption
    | with_reducible apply State.logWith_orderly
    | with_reducible apply State.countCmpo_orderly
    | with_reducible apply State.homeWrite_orderly
    | with_reducible apply State.wakeLine_orderly
    | with_reducible apply State.hofDisarm_orderly
    | with_reducible apply ite_orderly
    | with_reducible apply ite_fst_orderly
    | (intro; intros)
    | split
    | dsimp only
    | (unfold State.orderly
       dsimp only
       with_reducible apply State.ordered)
    | refine pair_orderly (by assumption) ?_
    | assumption

theorem execHandoffTimerExpiry_orderly (index : BitVec 10) (s : State) (hs : s.orderly) : inOrder (execHandoffTimerExpiry index s) := by
  unfold execHandoffTimerExpiry
  repeat' first
    | with_reducible assumption
    | with_reducible apply State.seek_orderly
    | with_reducible apply State.snoop_orderly
    | with_reducible apply State.hofDisarm_orderly
    | with_reducible apply State.rollBack_orderly
    | with_reducible apply foldl_orderly
    | with_reducible apply foldl_fst_orderly
    | with_reducible apply ite_orderly
    | with_reducible apply ite_fst_orderly
    | with_reducible apply next_orderly
    | (intro; intros)
    | split
    | dsimp only
    | (unfold State.orderly
       dsimp only
       with_reducible apply State.ordered)
    | refine pair_orderly (by assumption) ?_
    | assumption

end Sys2Proof.Machine
end

