-- ==== Sys2Proof/Laws/KeepStep.lean ====
section
/-! SUPPORT. Every operation of Step keeps the queues and memories in order. -/

set_option linter.unusedTactic false
set_option linter.unreachableTactic false
set_option linter.unusedVariables false

namespace Sys2Proof.Machine

theorem State.popped_orderly (s : State) (rest : List Instr) (hs : s.orderly) : (State.popped s rest).orderly := by
  unfold State.popped
  repeat' first
    | with_reducible assumption
    | with_reducible apply ite_orderly
    | with_reducible apply ite_fst_orderly
    | (intro; intros)
    | split
    | dsimp only
    | (unfold State.orderly
       dsimp only
       with_reducible apply State.ordered)
    | refine pair_orderly (by assumption) ?_
    | assumption

theorem State.withFetchWord_orderly (s : State) (nbits : Nat) (w : Nat) (hs : s.orderly) : (State.withFetchWord s nbits w).orderly := by
  unfold State.withFetchWord
  repeat' first
    | with_reducible assumption
    | with_reducible apply ite_orderly
    | with_reducible apply ite_fst_orderly
    | (intro; intros)
    | split
    | dsimp only
    | (unfold State.orderly
       dsimp only
       with_reducible apply State.ordered)
    | refine pair_orderly (by assumption) ?_
    | assumption

end Sys2Proof.Machine
end

