-- ==== Sys2Proof/Laws/OnlyOps.lean ====
section
/-! SUPPORT. What every operation of Ops leaves alone. -/

set_option linter.unusedTactic false
set_option linter.unreachableTactic false
set_option linter.unusedVariables false

namespace Sys2Proof.Machine


/-- A state put together from the parts of another changes only the parts that differ. -/
theorem only_mk {s0 s : State} {ps : List Part} {x0} {x1} {x2} {x3} {x4} {x5} {x6} {x7} {x8} {x9} {x10} {x11} {x12} {x13} {x14} {x15} {x16} {x17} {x18} {x19} {x20} {x21} {x22} {x23} {x24}
    (h0 : Part.pending ∉ ps → x0 = s.pending)
    (h1 : Part.free ∉ ps → x1 = s.free)
    (h2 : Part.hb ∉ ps → x2 = s.hb)
    (h3 : Part.pkg ∉ ps → x3 = s.pkg)
    (h4 : Part.tim ∉ ps → x4 = s.tim)
    (h5 : Part.ports ∉ ps → x5 = s.ports)
    (h6 : Part.bridles ∉ ps → x6 = s.bridles)
    (h7 : Part.req ∉ ps → x7 = s.req)
    (h8 : Part.coh ∉ ps → x8 = s.coh)
    (h9 : Part.ext ∉ ps → x9 = s.ext)
    (h10 : Part.lse ∉ ps → x10 = s.lse)
    (h11 : Part.adm ∉ ps → x11 = s.adm)
    (h12 : Part.tier ∉ ps → x12 = s.tier)
    (h13 : Part.xl ∉ ps → x13 = s.xl)
    (h14 : Part.cmp ∉ ps → x14 = s.cmp)
    (h15 : Part.cpu ∉ ps → x15 = s.cpu)
    (h16 : Part.clv ∉ ps → x16 = s.clv)
    (h17 : Part.atn ∉ ps → x17 = s.atn)
    (h18 : Part.comp ∉ ps → x18 = s.comp)
    (h19 : Part.sec ∉ ps → x19 = s.sec)
    (h20 : Part.log ∉ ps → x20 = s.log)
    (h21 : Part.mod ∉ ps → x21 = s.mod)
    (h22 : Part.adk ∉ ps → x22 = s.adk)
    (h23 : Part.evq ∉ ps → x23 = s.evq)
    (h24 : Part.glb ∉ ps → x24 = s.glb)
    (h : s0.changesOnly s ps) : s0.changesOnly (State.mk x0 x1 x2 x3 x4 x5 x6 x7 x8 x9 x10 x11 x12 x13 x14 x15 x16 x17 x18 x19 x20 x21 x22 x23 x24) ps := by
  intro p hp
  have hs := h p hp
  cases p <;> simp_all [State.agrees]

theorem only_refl (s : State) (ps : List Part) : s.changesOnly s ps := by
  intro p _
  cases p <;> rfl

theorem foldl_only {α : Type} {s0 : State} {ps : List Part} (f : State → α → State) (l : List α) (s : State)
    (hf : ∀ (s : State) a, s0.changesOnly s ps → s0.changesOnly (f s a) ps) (h : s0.changesOnly s ps) :
    s0.changesOnly (l.foldl f s) ps := by
  induction l generalizing s with
  | nil => exact h
  | cons a l ih => exact ih _ (hf s a h)

theorem foldl_fst_only {α β : Type} {s0 : State} {ps : List Part} (f : State × β → α → State × β) (l : List α) (s : State × β)
    (hf : ∀ (s : State × β) a, s0.changesOnly s.1 ps → s0.changesOnly (f s a).1 ps) (h : s0.changesOnly s.1 ps) :
    s0.changesOnly (l.foldl f s).1 ps := by
  induction l generalizing s with
  | nil => exact h
  | cons a l ih => exact ih _ (hf s a h)

theorem ite_only {c : Prop} [Decidable c] {s0 a b : State} {ps : List Part} (ha : c → s0.changesOnly a ps)
    (hb : ¬c → s0.changesOnly b ps) : s0.changesOnly (if c then a else b) ps := by
  split
  · exact ha ‹_›
  · exact hb ‹_›

theorem ite_fst_only {β : Type} {c : Prop} [Decidable c] {s0 : State} {a b : State × β} {ps : List Part}
    (ha : c → s0.changesOnly a.1 ps) (hb : ¬c → s0.changesOnly b.1 ps) : s0.changesOnly (if c then a else b).1 ps := by
  split
  · exact ha ‹_›
  · exact hb ‹_›

theorem pair_only {β : Type} {s0 s : State} {x : State × β} {b : β} {ps : List Part} (e : x = (s, b))
    (h : s0.changesOnly x.1 ps) : s0.changesOnly s ps := by
  subst e
  exact h

/-- An outcome that is a next state differs from `s` only in the parts listed. -/
def onlyNext (s : State) (o : Host.Outcome State Fault Refusal) (ps : List Part) : Prop := ∀ t, o = .next t → s.changesOnly t ps

theorem next_only {s0 s : State} {ps : List Part} (h : s0.changesOnly s ps) : onlyNext s0 (.next s) ps :=
  fun _ e => Host.Outcome.next.inj e ▸ h

theorem State.loseEvent_only {s0 : State} {ps : List Part} (s : State) (hs : s0.changesOnly s ps) (hq : [.adk, .evq] ⊆ ps) : s0.changesOnly (State.loseEvent s) ps := by
  unfold State.loseEvent
  repeat' first
    | with_reducible assumption
    | with_reducible apply ite_only
    | with_reducible apply ite_fst_only
    | with_reducible intro _
    | split
    | dsimp only
    | ((with_reducible apply only_mk) <;> first
        | with_reducible exact fun _ => rfl
        | exact fun hn => absurd (hq (by decide)) hn
        | skip)
    | exact List.Subset.trans (by decide) hq
    | refine pair_only (by assumption) ?_
    | assumption

theorem State.noteLost_only {s0 : State} {ps : List Part} (s : State) (hs : s0.changesOnly s ps) (hq : [.evq] ⊆ ps) : s0.changesOnly (State.noteLost s) ps := by
  unfold State.noteLost
  repeat' first
    | with_reducible assumption
    | with_reducible apply ite_only
    | with_reducible apply ite_fst_only
    | with_reducible intro _
    | split
    | dsimp only
    | ((with_reducible apply only_mk) <;> first
        | with_reducible exact fun _ => rfl
        | exact fun hn => absurd (hq (by decide)) hn
        | skip)
    | exact List.Subset.trans (by decide) hq
    | refine pair_only (by assumption) ?_
    | assumption

theorem State.event_only {s0 : State} {ps : List Part} (s : State) (code : Nat) (detail : Nat) (sr : BitVec 16) (param : Nat) (logSeq : Nat) (hs : s0.changesOnly s ps) (hq : [.adk, .evq] ⊆ ps) : s0.changesOnly (State.event s code detail sr param logSeq) ps := by
  unfold State.event
  repeat' first
    | with_reducible assumption
    | with_reducible apply State.loseEvent_only
    | with_reducible apply State.noteLost_only
    | with_reducible apply ite_only
    | with_reducible apply ite_fst_only
    | with_reducible intro _
    | split
    | dsimp only
    | ((with_reducible apply only_mk) <;> first
        | with_reducible exact fun _ => rfl
        | exact fun hn => absurd (hq (by decide)) hn
        | skip)
    | exact List.Subset.trans (by decide) hq
    | refine pair_only (by assumption) ?_
    | assumption

theorem State.satEvent_only {s0 : State} {ps : List Part} (s : State) (just : Bool) (i : Nat) (sr : BitVec 16) (addr : Nat) (hs : s0.changesOnly s ps) (hq : [.adk, .evq] ⊆ ps) : s0.changesOnly (State.satEvent s just i sr addr) ps := by
  unfold State.satEvent
  repeat' first
    | with_reducible assumption
    | with_reducible apply State.event_only
    | with_reducible apply ite_only
    | with_reducible apply ite_fst_only
    | with_reducible intro _
    | split
    | dsimp only
    | ((with_reducible apply only_mk) <;> first
        | with_reducible exact fun _ => rfl
        | exact fun hn => absurd (hq (by decide)) hn
        | skip)
    | exact List.Subset.trans (by decide) hq
    | refine pair_only (by assumption) ?_
    | assumption

theorem State.countLog_only {s0 : State} {ps : List Part} (s : State) (i : Nat) (hs : s0.changesOnly s ps) (hq : [.log, .adk, .evq] ⊆ ps) : s0.changesOnly (State.countLog s i) ps := by
  unfold State.countLog
  repeat' first
    | with_reducible assumption
    | with_reducible apply State.satEvent_only
    | with_reducible apply ite_only
    | with_reducible apply ite_fst_only
    | with_reducible intro _
    | split
    | dsimp only
    | ((with_reducible apply only_mk) <;> first
        | with_reducible exact fun _ => rfl
        | exact fun hn => absurd (hq (by decide)) hn
        | skip)
    | exact List.Subset.trans (by decide) hq
    | refine pair_only (by assumption) ?_
    | assumption

theorem State.appendLog_only {s0 : State} {ps : List Part} (s : State) (cls : Nat) (detail : Nat) (sr : BitVec 16) (param : Nat) (hs : s0.changesOnly s ps) (hq : [.log, .adk, .evq] ⊆ ps) : s0.changesOnly (State.appendLog s cls detail sr param) ps := by
  unfold State.appendLog
  repeat' first
    | with_reducible assumption
    | with_reducible apply State.countLog_only
    | with_reducible apply ite_only
    | with_reducible apply ite_fst_only
    | with_reducible intro _
    | split
    | dsimp only
    | ((with_reducible apply only_mk) <;> first
        | with_reducible exact fun _ => rfl
        | exact fun hn => absurd (hq (by decide)) hn
        | skip)
    | exact List.Subset.trans (by decide) hq
    | refine pair_only (by assumption) ?_
    | assumption

theorem State.repeatLog_only {s0 : State} {ps : List Part} (s : State) (seq : Nat) (hs : s0.changesOnly s ps) (hq : [.log] ⊆ ps) : s0.changesOnly (State.repeatLog s seq) ps := by
  unfold State.repeatLog
  repeat' first
    | with_reducible assumption
    | with_reducible apply ite_only
    | with_reducible apply ite_fst_only
    | with_reducible intro _
    | split
    | dsimp only
    | ((with_reducible apply only_mk) <;> first
        | with_reducible exact fun _ => rfl
        | exact fun hn => absurd (hq (by decide)) hn
        | skip)
    | exact List.Subset.trans (by decide) hq
    | refine pair_only (by assumption) ?_
    | assumption

theorem State.logE_only {s0 : State} {ps : List Part} (s : State) (cls : Nat) (detail : Nat) (sr : BitVec 16) (param : Nat) (mirror : Bool) (hs : s0.changesOnly s ps) (hq : [.log, .adk, .evq] ⊆ ps) : s0.changesOnly (State.logE s cls detail sr param mirror) ps := by
  unfold State.logE
  repeat' first
    | with_reducible assumption
    | with_reducible apply State.event_only
    | with_reducible apply State.appendLog_only
    | with_reducible apply State.repeatLog_only
    | with_reducible apply ite_only
    | with_reducible apply ite_fst_only
    | with_reducible intro _
    | split
    | dsimp only
    | ((with_reducible apply only_mk) <;> first
        | with_reducible exact fun _ => rfl
        | exact fun hn => absurd (hq (by decide)) hn
        | skip)
    | exact List.Subset.trans (by decide) hq
    | refine pair_only (by assumption) ?_
    | assumption

theorem State.logWith_only {s0 : State} {ps : List Part} (s : State) (cls : Nat) (detail : Nat) (sr : BitVec 16) (param : Nat) (code : Nat) (edetail : Nat) (eparam : Nat) (hs : s0.changesOnly s ps) (hq : [.log, .adk, .evq] ⊆ ps) : s0.changesOnly (State.logWith s cls detail sr param code edetail eparam) ps := by
  unfold State.logWith
  repeat' first
    | with_reducible assumption
    | with_reducible apply State.event_only
    | with_reducible apply State.logE_only
    | with_reducible apply ite_only
    | with_reducible apply ite_fst_only
    | with_reducible intro _
    | split
    | dsimp only
    | ((with_reducible apply only_mk) <;> first
        | with_reducible exact fun _ => rfl
        | exact fun hn => absurd (hq (by decide)) hn
        | skip)
    | exact List.Subset.trans (by decide) hq
    | refine pair_only (by assumption) ?_
    | assumption

theorem State.countSec_only {s0 : State} {ps : List Part} (s : State) (i : Nat) (hs : s0.changesOnly s ps) (hq : [.sec, .adk, .evq] ⊆ ps) : s0.changesOnly (State.countSec s i) ps := by
  unfold State.countSec
  repeat' first
    | with_reducible assumption
    | with_reducible apply State.satEvent_only
    | with_reducible apply ite_only
    | with_reducible apply ite_fst_only
    | with_reducible intro _
    | split
    | dsimp only
    | ((with_reducible apply only_mk) <;> first
        | with_reducible exact fun _ => rfl
        | exact fun hn => absurd (hq (by decide)) hn
        | skip)
    | exact List.Subset.trans (by decide) hq
    | refine pair_only (by assumption) ?_
    | assumption

theorem State.countExt_only {s0 : State} {ps : List Part} (s : State) (i : Nat) (n : Nat) (hs : s0.changesOnly s ps) (hq : [.ext, .adk, .evq] ⊆ ps) : s0.changesOnly (State.countExt s i n) ps := by
  unfold State.countExt
  repeat' first
    | with_reducible assumption
    | with_reducible apply State.satEvent_only
    | with_reducible apply ite_only
    | with_reducible apply ite_fst_only
    | with_reducible intro _
    | split
    | dsimp only
    | ((with_reducible apply only_mk) <;> first
        | with_reducible exact fun _ => rfl
        | exact fun hn => absurd (hq (by decide)) hn
        | skip)
    | exact List.Subset.trans (by decide) hq
    | refine pair_only (by assumption) ?_
    | assumption

theorem State.countLse_only {s0 : State} {ps : List Part} (s : State) (i : Nat) (hs : s0.changesOnly s ps) (hq : [.lse, .adk, .evq] ⊆ ps) : s0.changesOnly (State.countLse s i) ps := by
  unfold State.countLse
  repeat' first
    | with_reducible assumption
    | with_reducible apply State.satEvent_only
    | with_reducible apply ite_only
    | with_reducible apply ite_fst_only
    | with_reducible intro _
    | split
    | dsimp only
    | ((with_reducible apply only_mk) <;> first
        | with_reducible exact fun _ => rfl
        | exact fun hn => absurd (hq (by decide)) hn
        | skip)
    | exact List.Subset.trans (by decide) hq
    | refine pair_only (by assumption) ?_
    | assumption

theorem State.countTrn_only {s0 : State} {ps : List Part} (s : State) (i : Nat) (hs : s0.changesOnly s ps) (hq : [.xl, .adk, .evq] ⊆ ps) : s0.changesOnly (State.countTrn s i) ps := by
  unfold State.countTrn
  repeat' first
    | with_reducible assumption
    | with_reducible apply State.satEvent_only
    | with_reducible apply ite_only
    | with_reducible apply ite_fst_only
    | with_reducible intro _
    | split
    | dsimp only
    | ((with_reducible apply only_mk) <;> first
        | with_reducible exact fun _ => rfl
        | exact fun hn => absurd (hq (by decide)) hn
        | skip)
    | exact List.Subset.trans (by decide) hq
    | refine pair_only (by assumption) ?_
    | assumption

theorem State.countCmp_only {s0 : State} {ps : List Part} (s : State) (i : Nat) (n : Nat) (hs : s0.changesOnly s ps) (hq : [.cmp, .adk, .evq] ⊆ ps) : s0.changesOnly (State.countCmp s i n) ps := by
  unfold State.countCmp
  repeat' first
    | with_reducible assumption
    | with_reducible apply State.satEvent_only
    | with_reducible apply ite_only
    | with_reducible apply ite_fst_only
    | with_reducible intro _
    | split
    | dsimp only
    | ((with_reducible apply only_mk) <;> first
        | with_reducible exact fun _ => rfl
        | exact fun hn => absurd (hq (by decide)) hn
        | skip)
    | exact List.Subset.trans (by decide) hq
    | refine pair_only (by assumption) ?_
    | assumption

theorem State.countClv_only {s0 : State} {ps : List Part} (s : State) (i : Nat) (hs : s0.changesOnly s ps) (hq : [.clv, .adk, .evq] ⊆ ps) : s0.changesOnly (State.countClv s i) ps := by
  unfold State.countClv
  repeat' first
    | with_reducible assumption
    | with_reducible apply State.satEvent_only
    | with_reducible apply ite_only
    | with_reducible apply ite_fst_only
    | with_reducible intro _
    | split
    | dsimp only
    | ((with_reducible apply only_mk) <;> first
        | with_reducible exact fun _ => rfl
        | exact fun hn => absurd (hq (by decide)) hn
        | skip)
    | exact List.Subset.trans (by decide) hq
    | refine pair_only (by assumption) ?_
    | assumption

theorem State.countAtn_only {s0 : State} {ps : List Part} (s : State) (i : Nat) (n : Nat) (hs : s0.changesOnly s ps) (hq : [.atn, .adk, .evq] ⊆ ps) : s0.changesOnly (State.countAtn s i n) ps := by
  unfold State.countAtn
  repeat' first
    | with_reducible assumption
    | with_reducible apply State.satEvent_only
    | with_reducible apply ite_only
    | with_reducible apply ite_fst_only
    | with_reducible intro _
    | split
    | dsimp only
    | ((with_reducible apply only_mk) <;> first
        | with_reducible exact fun _ => rfl
        | exact fun hn => absurd (hq (by decide)) hn
        | skip)
    | exact List.Subset.trans (by decide) hq
    | refine pair_only (by assumption) ?_
    | assumption

theorem State.countCmpo_only {s0 : State} {ps : List Part} (s : State) (i : Nat) (hs : s0.changesOnly s ps) (hq : [.comp, .adk, .evq] ⊆ ps) : s0.changesOnly (State.countCmpo s i) ps := by
  unfold State.countCmpo
  repeat' first
    | with_reducible assumption
    | with_reducible apply State.satEvent_only
    | with_reducible apply ite_only
    | with_reducible apply ite_fst_only
    | with_reducible intro _
    | split
    | dsimp only
    | ((with_reducible apply only_mk) <;> first
        | with_reducible exact fun _ => rfl
        | exact fun hn => absurd (hq (by decide)) hn
        | skip)
    | exact List.Subset.trans (by decide) hq
    | refine pair_only (by assumption) ?_
    | assumption

theorem State.countAdk_only {s0 : State} {ps : List Part} (s : State) (i : Nat) (hs : s0.changesOnly s ps) (hq : [.adk, .evq] ⊆ ps) : s0.changesOnly (State.countAdk s i) ps := by
  unfold State.countAdk
  repeat' first
    | with_reducible assumption
    | with_reducible apply State.satEvent_only
    | with_reducible apply ite_only
    | with_reducible apply ite_fst_only
    | with_reducible intro _
    | split
    | dsimp only
    | ((with_reducible apply only_mk) <;> first
        | with_reducible exact fun _ => rfl
        | exact fun hn => absurd (hq (by decide)) hn
        | skip)
    | exact List.Subset.trans (by decide) hq
    | refine pair_only (by assumption) ?_
    | assumption

theorem State.countShadow_only {s0 : State} {ps : List Part} (s : State) (i : Nat) (hs : s0.changesOnly s ps) (hq : [.adk, .evq, .glb] ⊆ ps) : s0.changesOnly (State.countShadow s i) ps := by
  unfold State.countShadow
  repeat' first
    | with_reducible assumption
    | with_reducible apply State.satEvent_only
    | with_reducible apply ite_only
    | with_reducible apply ite_fst_only
    | with_reducible intro _
    | split
    | dsimp only
    | ((with_reducible apply only_mk) <;> first
        | with_reducible exact fun _ => rfl
        | exact fun hn => absurd (hq (by decide)) hn
        | skip)
    | exact List.Subset.trans (by decide) hq
    | refine pair_only (by assumption) ?_
    | assumption

theorem State.setPort_only {s0 : State} {ps : List Part} (s : State) (p : Nat) (v : Port) (hs : s0.changesOnly s ps) (hq : [.ports] ⊆ ps) : s0.changesOnly (State.setPort s p v) ps := by
  unfold State.setPort
  repeat' first
    | with_reducible assumption
    | with_reducible apply ite_only
    | with_reducible apply ite_fst_only
    | with_reducible intro _
    | split
    | dsimp only
    | ((with_reducible apply only_mk) <;> first
        | with_reducible exact fun _ => rfl
        | exact fun hn => absurd (hq (by decide)) hn
        | skip)
    | exact List.Subset.trans (by decide) hq
    | refine pair_only (by assumption) ?_
    | assumption

theorem State.onLink_only {s0 : State} {ps : List Part} (s : State) (p : Nat) (f : Link → Link) (hs : s0.changesOnly s ps) (hq : [.ports] ⊆ ps) : s0.changesOnly (State.onLink s p f) ps := by
  unfold State.onLink
  repeat' first
    | with_reducible assumption
    | with_reducible apply State.setPort_only
    | with_reducible apply ite_only
    | with_reducible apply ite_fst_only
    | with_reducible intro _
    | split
    | dsimp only
    | ((with_reducible apply only_mk) <;> first
        | with_reducible exact fun _ => rfl
        | exact fun hn => absurd (hq (by decide)) hn
        | skip)
    | exact List.Subset.trans (by decide) hq
    | refine pair_only (by assumption) ?_
    | assumption

theorem State.onTc_only {s0 : State} {ps : List Part} (s : State) (p : Nat) (f : Traffic → Traffic) (hs : s0.changesOnly s ps) (hq : [.ports] ⊆ ps) : s0.changesOnly (State.onTc s p f) ps := by
  unfold State.onTc
  repeat' first
    | with_reducible assumption
    | with_reducible apply State.setPort_only
    | with_reducible apply ite_only
    | with_reducible apply ite_fst_only
    | with_reducible intro _
    | split
    | dsimp only
    | ((with_reducible apply only_mk) <;> first
        | with_reducible exact fun _ => rfl
        | exact fun hn => absurd (hq (by decide)) hn
        | skip)
    | exact List.Subset.trans (by decide) hq
    | refine pair_only (by assumption) ?_
    | assumption

theorem State.countPrt_only {s0 : State} {ps : List Part} (s : State) (p : Nat) (i : Nat) (n : Nat) (hs : s0.changesOnly s ps) (hq : [.ports, .adk, .evq] ⊆ ps) : s0.changesOnly (State.countPrt s p i n) ps := by
  unfold State.countPrt
  repeat' first
    | with_reducible assumption
    | with_reducible apply State.satEvent_only
    | with_reducible apply State.onLink_only
    | with_reducible apply ite_only
    | with_reducible apply ite_fst_only
    | with_reducible intro _
    | split
    | dsimp only
    | ((with_reducible apply only_mk) <;> first
        | with_reducible exact fun _ => rfl
        | exact fun hn => absurd (hq (by decide)) hn
        | skip)
    | exact List.Subset.trans (by decide) hq
    | refine pair_only (by assumption) ?_
    | assumption

theorem State.onQueue_only {s0 : State} {ps : List Part} (s : State) (p : Nat) (q : Nat) (f : Queue → Queue) (hs : s0.changesOnly s ps) (hq : [.ports] ⊆ ps) : s0.changesOnly (State.onQueue s p q f) ps := by
  unfold State.onQueue
  repeat' first
    | with_reducible assumption
    | with_reducible apply State.onTc_only
    | with_reducible apply ite_only
    | with_reducible apply ite_fst_only
    | with_reducible intro _
    | split
    | dsimp only
    | ((with_reducible apply only_mk) <;> first
        | with_reducible exact fun _ => rfl
        | exact fun hn => absurd (hq (by decide)) hn
        | skip)
    | exact List.Subset.trans (by decide) hq
    | refine pair_only (by assumption) ?_
    | assumption

theorem State.countQue_only {s0 : State} {ps : List Part} (s : State) (p : Nat) (q : Nat) (i : Nat) (n : Nat) (hs : s0.changesOnly s ps) (hq : [.ports, .adk, .evq] ⊆ ps) : s0.changesOnly (State.countQue s p q i n) ps := by
  unfold State.countQue
  repeat' first
    | with_reducible assumption
    | with_reducible apply State.satEvent_only
    | with_reducible apply State.onQueue_only
    | with_reducible apply ite_only
    | with_reducible apply ite_fst_only
    | with_reducible intro _
    | split
    | dsimp only
    | ((with_reducible apply only_mk) <;> first
        | with_reducible exact fun _ => rfl
        | exact fun hn => absurd (hq (by decide)) hn
        | skip)
    | exact List.Subset.trans (by decide) hq
    | refine pair_only (by assumption) ?_
    | assumption

theorem State.setCore_only {s0 : State} {ps : List Part} (s : State) (k : Nat) (v : Core) (hs : s0.changesOnly s ps) (hq : [.cpu] ⊆ ps) : s0.changesOnly (State.setCore s k v) ps := by
  unfold State.setCore
  repeat' first
    | with_reducible assumption
    | with_reducible apply ite_only
    | with_reducible apply ite_fst_only
    | with_reducible intro _
    | split
    | dsimp only
    | ((with_reducible apply only_mk) <;> first
        | with_reducible exact fun _ => rfl
        | exact fun hn => absurd (hq (by decide)) hn
        | skip)
    | exact List.Subset.trans (by decide) hq
    | refine pair_only (by assumption) ?_
    | assumption

theorem State.onCore_only {s0 : State} {ps : List Part} (s : State) (k : Nat) (f : Core → Core) (hs : s0.changesOnly s ps) (hq : [.cpu] ⊆ ps) : s0.changesOnly (State.onCore s k f) ps := by
  unfold State.onCore
  repeat' first
    | with_reducible assumption
    | with_reducible apply State.setCore_only
    | with_reducible apply ite_only
    | with_reducible apply ite_fst_only
    | with_reducible intro _
    | split
    | dsimp only
    | ((with_reducible apply only_mk) <;> first
        | with_reducible exact fun _ => rfl
        | exact fun hn => absurd (hq (by decide)) hn
        | skip)
    | exact List.Subset.trans (by decide) hq
    | refine pair_only (by assumption) ?_
    | assumption

theorem State.setThread_only {s0 : State} {ps : List Part} (s : State) (k : Nat) (t : Nat) (v : Thread) (hs : s0.changesOnly s ps) (hq : [.cpu] ⊆ ps) : s0.changesOnly (State.setThread s k t v) ps := by
  unfold State.setThread
  repeat' first
    | with_reducible assumption
    | with_reducible apply State.onCore_only
    | with_reducible apply ite_only
    | with_reducible apply ite_fst_only
    | with_reducible intro _
    | split
    | dsimp only
    | ((with_reducible apply only_mk) <;> first
        | with_reducible exact fun _ => rfl
        | exact fun hn => absurd (hq (by decide)) hn
        | skip)
    | exact List.Subset.trans (by decide) hq
    | refine pair_only (by assumption) ?_
    | assumption

theorem State.onThread_only {s0 : State} {ps : List Part} (s : State) (k : Nat) (t : Nat) (f : Thread → Thread) (hs : s0.changesOnly s ps) (hq : [.cpu] ⊆ ps) : s0.changesOnly (State.onThread s k t f) ps := by
  unfold State.onThread
  repeat' first
    | with_reducible assumption
    | with_reducible apply State.setThread_only
    | with_reducible apply ite_only
    | with_reducible apply ite_fst_only
    | with_reducible intro _
    | split
    | dsimp only
    | ((with_reducible apply only_mk) <;> first
        | with_reducible exact fun _ => rfl
        | exact fun hn => absurd (hq (by decide)) hn
        | skip)
    | exact List.Subset.trans (by decide) hq
    | refine pair_only (by assumption) ?_
    | assumption

theorem State.onEngine_only {s0 : State} {ps : List Part} (s : State) (k : Nat) (e : Nat) (f : Engine → Engine) (hs : s0.changesOnly s ps) (hq : [.cpu] ⊆ ps) : s0.changesOnly (State.onEngine s k e f) ps := by
  unfold State.onEngine
  repeat' first
    | with_reducible assumption
    | with_reducible apply State.onCore_only
    | with_reducible apply ite_only
    | with_reducible apply ite_fst_only
    | with_reducible intro _
    | split
    | dsimp only
    | ((with_reducible apply only_mk) <;> first
        | with_reducible exact fun _ => rfl
        | exact fun hn => absurd (hq (by decide)) hn
        | skip)
    | exact List.Subset.trans (by decide) hq
    | refine pair_only (by assumption) ?_
    | assumption

theorem State.onDom_only {s0 : State} {ps : List Part} (s : State) (d : Nat) (f : Domain → Domain) (hs : s0.changesOnly s ps) (hq : [.coh] ⊆ ps) : s0.changesOnly (State.onDom s d f) ps := by
  unfold State.onDom
  repeat' first
    | with_reducible assumption
    | with_reducible apply ite_only
    | with_reducible apply ite_fst_only
    | with_reducible intro _
    | split
    | dsimp only
    | ((with_reducible apply only_mk) <;> first
        | with_reducible exact fun _ => rfl
        | exact fun hn => absurd (hq (by decide)) hn
        | skip)
    | exact List.Subset.trans (by decide) hq
    | refine pair_only (by assumption) ?_
    | assumption

theorem State.countCoh_only {s0 : State} {ps : List Part} (s : State) (d : Nat) (i : Nat) (hs : s0.changesOnly s ps) (hq : [.coh, .adk, .evq] ⊆ ps) : s0.changesOnly (State.countCoh s d i) ps := by
  unfold State.countCoh
  repeat' first
    | with_reducible assumption
    | with_reducible apply State.satEvent_only
    | with_reducible apply State.onDom_only
    | with_reducible apply ite_only
    | with_reducible apply ite_fst_only
    | with_reducible intro _
    | split
    | dsimp only
    | ((with_reducible apply only_mk) <;> first
        | with_reducible exact fun _ => rfl
        | exact fun hn => absurd (hq (by decide)) hn
        | skip)
    | exact List.Subset.trans (by decide) hq
    | refine pair_only (by assumption) ?_
    | assumption

theorem State.setExtent_only {s0 : State} {ps : List Part} (s : State) (e : Nat) (v : Extent) (hs : s0.changesOnly s ps) (hq : [.ext] ⊆ ps) : s0.changesOnly (State.setExtent s e v) ps := by
  unfold State.setExtent
  repeat' first
    | with_reducible assumption
    | with_reducible apply ite_only
    | with_reducible apply ite_fst_only
    | with_reducible intro _
    | split
    | dsimp only
    | ((with_reducible apply only_mk) <;> first
        | with_reducible exact fun _ => rfl
        | exact fun hn => absurd (hq (by decide)) hn
        | skip)
    | exact List.Subset.trans (by decide) hq
    | refine pair_only (by assumption) ?_
    | assumption

theorem State.onExtent_only {s0 : State} {ps : List Part} (s : State) (e : Nat) (f : Extent → Extent) (hs : s0.changesOnly s ps) (hq : [.ext] ⊆ ps) : s0.changesOnly (State.onExtent s e f) ps := by
  unfold State.onExtent
  repeat' first
    | with_reducible assumption
    | with_reducible apply State.setExtent_only
    | with_reducible apply ite_only
    | with_reducible apply ite_fst_only
    | with_reducible intro _
    | split
    | dsimp only
    | ((with_reducible apply only_mk) <;> first
        | with_reducible exact fun _ => rfl
        | exact fun hn => absurd (hq (by decide)) hn
        | skip)
    | exact List.Subset.trans (by decide) hq
    | refine pair_only (by assumption) ?_
    | assumption

theorem State.serving_only {s0 : State} {ps : List Part} (s : State) (ks : List Nat) (t : BitVec 10) (hs : s0.changesOnly s ps) (hq : [.cpu] ⊆ ps) : s0.changesOnly (State.serving s ks t) ps := by
  unfold State.serving
  repeat' first
    | with_reducible assumption
    | with_reducible apply State.onCore_only
    | with_reducible apply foldl_only
    | with_reducible apply foldl_fst_only
    | with_reducible apply ite_only
    | with_reducible apply ite_fst_only
    | with_reducible intro _
    | split
    | dsimp only
    | ((with_reducible apply only_mk) <;> first
        | with_reducible exact fun _ => rfl
        | exact fun hn => absurd (hq (by decide)) hn
        | skip)
    | exact List.Subset.trans (by decide) hq
    | refine pair_only (by assumption) ?_
    | assumption

theorem State.setPage_only {s0 : State} {ps : List Part} (s : State) (p : Nat) (v : TierPage) (hs : s0.changesOnly s ps) (hq : [.tier] ⊆ ps) : s0.changesOnly (State.setPage s p v) ps := by
  unfold State.setPage
  repeat' first
    | with_reducible assumption
    | with_reducible apply ite_only
    | with_reducible apply ite_fst_only
    | with_reducible intro _
    | split
    | dsimp only
    | ((with_reducible apply only_mk) <;> first
        | with_reducible exact fun _ => rfl
        | exact fun hn => absurd (hq (by decide)) hn
        | skip)
    | exact List.Subset.trans (by decide) hq
    | refine pair_only (by assumption) ?_
    | assumption

theorem State.onPage_only {s0 : State} {ps : List Part} (s : State) (p : Nat) (f : TierPage → TierPage) (hs : s0.changesOnly s ps) (hq : [.tier] ⊆ ps) : s0.changesOnly (State.onPage s p f) ps := by
  unfold State.onPage
  repeat' first
    | with_reducible assumption
    | with_reducible apply State.setPage_only
    | with_reducible apply ite_only
    | with_reducible apply ite_fst_only
    | with_reducible intro _
    | split
    | dsimp only
    | ((with_reducible apply only_mk) <;> first
        | with_reducible exact fun _ => rfl
        | exact fun hn => absurd (hq (by decide)) hn
        | skip)
    | exact List.Subset.trans (by decide) hq
    | refine pair_only (by assumption) ?_
    | assumption

theorem State.setTray_only {s0 : State} {ps : List Part} (s : State) (t : Nat) (v : Tray) (hs : s0.changesOnly s ps) (hq : [.tier] ⊆ ps) : s0.changesOnly (State.setTray s t v) ps := by
  unfold State.setTray
  repeat' first
    | with_reducible assumption
    | with_reducible apply ite_only
    | with_reducible apply ite_fst_only
    | with_reducible intro _
    | split
    | dsimp only
    | ((with_reducible apply only_mk) <;> first
        | with_reducible exact fun _ => rfl
        | exact fun hn => absurd (hq (by decide)) hn
        | skip)
    | exact List.Subset.trans (by decide) hq
    | refine pair_only (by assumption) ?_
    | assumption

theorem State.onTray_only {s0 : State} {ps : List Part} (s : State) (t : Nat) (f : Tray → Tray) (hs : s0.changesOnly s ps) (hq : [.tier] ⊆ ps) : s0.changesOnly (State.onTray s t f) ps := by
  unfold State.onTray
  repeat' first
    | with_reducible assumption
    | with_reducible apply State.setTray_only
    | with_reducible apply ite_only
    | with_reducible apply ite_fst_only
    | with_reducible intro _
    | split
    | dsimp only
    | ((with_reducible apply only_mk) <;> first
        | with_reducible exact fun _ => rfl
        | exact fun hn => absurd (hq (by decide)) hn
        | skip)
    | exact List.Subset.trans (by decide) hq
    | refine pair_only (by assumption) ?_
    | assumption

theorem State.setSector_only {s0 : State} {ps : List Part} (s : State) (b : Nat) (v : Sector) (hs : s0.changesOnly s ps) (hq : [.tier] ⊆ ps) : s0.changesOnly (State.setSector s b v) ps := by
  unfold State.setSector
  repeat' first
    | with_reducible assumption
    | with_reducible apply ite_only
    | with_reducible apply ite_fst_only
    | with_reducible intro _
    | split
    | dsimp only
    | ((with_reducible apply only_mk) <;> first
        | with_reducible exact fun _ => rfl
        | exact fun hn => absurd (hq (by decide)) hn
        | skip)
    | exact List.Subset.trans (by decide) hq
    | refine pair_only (by assumption) ?_
    | assumption

theorem State.setColl_only {s0 : State} {ps : List Part} (s : State) (i : Nat) (v : Coll) (hs : s0.changesOnly s ps) (hq : [.clv] ⊆ ps) : s0.changesOnly (State.setColl s i v) ps := by
  unfold State.setColl
  repeat' first
    | with_reducible assumption
    | with_reducible apply ite_only
    | with_reducible apply ite_fst_only
    | with_reducible intro _
    | split
    | dsimp only
    | ((with_reducible apply only_mk) <;> first
        | with_reducible exact fun _ => rfl
        | exact fun hn => absurd (hq (by decide)) hn
        | skip)
    | exact List.Subset.trans (by decide) hq
    | refine pair_only (by assumption) ?_
    | assumption

theorem State.onColl_only {s0 : State} {ps : List Part} (s : State) (i : Nat) (f : Coll → Coll) (hs : s0.changesOnly s ps) (hq : [.clv] ⊆ ps) : s0.changesOnly (State.onColl s i f) ps := by
  unfold State.onColl
  repeat' first
    | with_reducible assumption
    | with_reducible apply State.setColl_only
    | with_reducible apply ite_only
    | with_reducible apply ite_fst_only
    | with_reducible intro _
    | split
    | dsimp only
    | ((with_reducible apply only_mk) <;> first
        | with_reducible exact fun _ => rfl
        | exact fun hn => absurd (hq (by decide)) hn
        | skip)
    | exact List.Subset.trans (by decide) hq
    | refine pair_only (by assumption) ?_
    | assumption

theorem State.onGroup_only {s0 : State} {ps : List Part} (s : State) (g : Nat) (f : Group → Group) (hs : s0.changesOnly s ps) (hq : [.clv] ⊆ ps) : s0.changesOnly (State.onGroup s g f) ps := by
  unfold State.onGroup
  repeat' first
    | with_reducible assumption
    | with_reducible apply ite_only
    | with_reducible apply ite_fst_only
    | with_reducible intro _
    | split
    | dsimp only
    | ((with_reducible apply only_mk) <;> first
        | with_reducible exact fun _ => rfl
        | exact fun hn => absurd (hq (by decide)) hn
        | skip)
    | exact List.Subset.trans (by decide) hq
    | refine pair_only (by assumption) ?_
    | assumption

theorem State.onHandle_only {s0 : State} {ps : List Part} (s : State) (h : Nat) (f : Handle → Handle) (hs : s0.changesOnly s ps) (hq : [.atn] ⊆ ps) : s0.changesOnly (State.onHandle s h f) ps := by
  unfold State.onHandle
  repeat' first
    | with_reducible assumption
    | with_reducible apply ite_only
    | with_reducible apply ite_fst_only
    | with_reducible intro _
    | split
    | dsimp only
    | ((with_reducible apply only_mk) <;> first
        | with_reducible exact fun _ => rfl
        | exact fun hn => absurd (hq (by decide)) hn
        | skip)
    | exact List.Subset.trans (by decide) hq
    | refine pair_only (by assumption) ?_
    | assumption

theorem State.onTenant_only {s0 : State} {ps : List Part} (s : State) (t : Nat) (f : Tenant → Tenant) (hs : s0.changesOnly s ps) (hq : [.sec] ⊆ ps) : s0.changesOnly (State.onTenant s t f) ps := by
  unfold State.onTenant
  repeat' first
    | with_reducible assumption
    | with_reducible apply ite_only
    | with_reducible apply ite_fst_only
    | with_reducible intro _
    | split
    | dsimp only
    | ((with_reducible apply only_mk) <;> first
        | with_reducible exact fun _ => rfl
        | exact fun hn => absurd (hq (by decide)) hn
        | skip)
    | exact List.Subset.trans (by decide) hq
    | refine pair_only (by assumption) ?_
    | assumption

theorem State.onLease_only {s0 : State} {ps : List Part} (s : State) (i : Nat) (f : Lease → Lease) (hs : s0.changesOnly s ps) (hq : [.lse] ⊆ ps) : s0.changesOnly (State.onLease s i f) ps := by
  unfold State.onLease
  repeat' first
    | with_reducible assumption
    | with_reducible apply ite_only
    | with_reducible apply ite_fst_only
    | with_reducible intro _
    | split
    | dsimp only
    | ((with_reducible apply only_mk) <;> first
        | with_reducible exact fun _ => rfl
        | exact fun hn => absurd (hq (by decide)) hn
        | skip)
    | exact List.Subset.trans (by decide) hq
    | refine pair_only (by assumption) ?_
    | assumption

theorem State.onAdm_only {s0 : State} {ps : List Part} (s : State) (i : Nat) (f : AdmRecord → AdmRecord) (hs : s0.changesOnly s ps) (hq : [.adm] ⊆ ps) : s0.changesOnly (State.onAdm s i f) ps := by
  unfold State.onAdm
  repeat' first
    | with_reducible assumption
    | with_reducible apply ite_only
    | with_reducible apply ite_fst_only
    | with_reducible intro _
    | split
    | dsimp only
    | ((with_reducible apply only_mk) <;> first
        | with_reducible exact fun _ => rfl
        | exact fun hn => absurd (hq (by decide)) hn
        | skip)
    | exact List.Subset.trans (by decide) hq
    | refine pair_only (by assumption) ?_
    | assumption

theorem State.onDie_only {s0 : State} {ps : List Part} (s : State) (x : Nat) (f : Die → Die) (hs : s0.changesOnly s ps) (hq : [.log] ⊆ ps) : s0.changesOnly (State.onDie s x f) ps := by
  unfold State.onDie
  repeat' first
    | with_reducible assumption
    | with_reducible apply ite_only
    | with_reducible apply ite_fst_only
    | with_reducible intro _
    | split
    | dsimp only
    | ((with_reducible apply only_mk) <;> first
        | with_reducible exact fun _ => rfl
        | exact fun hn => absurd (hq (by decide)) hn
        | skip)
    | exact List.Subset.trans (by decide) hq
    | refine pair_only (by assumption) ?_
    | assumption

theorem State.onBridle_only {s0 : State} {ps : List Part} (s : State) (k : Nat) (f : Bridle → Bridle) (hs : s0.changesOnly s ps) (hq : [.bridles] ⊆ ps) : s0.changesOnly (State.onBridle s k f) ps := by
  unfold State.onBridle
  repeat' first
    | with_reducible assumption
    | with_reducible apply ite_only
    | with_reducible apply ite_fst_only
    | with_reducible intro _
    | split
    | dsimp only
    | ((with_reducible apply only_mk) <;> first
        | with_reducible exact fun _ => rfl
        | exact fun hn => absurd (hq (by decide)) hn
        | skip)
    | exact List.Subset.trans (by decide) hq
    | refine pair_only (by assumption) ?_
    | assumption

theorem State.draw_only {s0 : State} {ps : List Part} (s : State) (hs : s0.changesOnly s ps) (hq : [.free] ⊆ ps) : s0.changesOnly (State.draw s).1 ps := by
  unfold State.draw
  repeat' first
    | with_reducible assumption
    | with_reducible apply ite_only
    | with_reducible apply ite_fst_only
    | with_reducible intro _
    | split
    | dsimp only
    | ((with_reducible apply only_mk) <;> first
        | with_reducible exact fun _ => rfl
        | exact fun hn => absurd (hq (by decide)) hn
        | skip)
    | exact List.Subset.trans (by decide) hq
    | refine pair_only (by assumption) ?_
    | assumption

end Sys2Proof.Machine
end

