-- ==== Sys2Proof/Laws/OnlyTraffic.lean ====
section
/-! SUPPORT. What every operation of Traffic leaves alone. -/

set_option linter.unusedTactic false
set_option linter.unreachableTactic false
set_option linter.unusedVariables false

namespace Sys2Proof.Machine

theorem State.enqueue_only {s0 : State} {ps : List Part} (s : State) (p : Nat) (override : Option Nat) (x : QFrame) (hs : s0.changesOnly s ps) (hq : [.ports, .adk, .evq] ⊆ ps) : s0.changesOnly (State.enqueue s p override x) ps := by
  unfold State.enqueue
  repeat' first
    | with_reducible assumption
    | with_reducible apply State.onTc_only
    | with_reducible apply State.onQueue_only
    | with_reducible apply State.countQue_only
    | with_reducible apply ite_only
    | with_reducible apply ite_fst_only
    | with_reducible intro _
    | split
    | dsimp only
    | ((with_reducible apply only_mk) <;> first
        | with_reducible exact fun _ => rfl
        | exact fun hn => absurd (hq (by decide)) hn
        | skip)
    | exact List.Subset.trans (by decide) hq
    | refine pair_only (by assumption) ?_
    | assumption

theorem State.sendFrom_only {s0 : State} {ps : List Part} (s : State) (site : Nat) (p : Nat) (override : Option Nat) (x : QFrame) (hs : s0.changesOnly s ps) (hq : [.pkg, .ports, .adk, .evq] ⊆ ps) : s0.changesOnly (State.sendFrom s site p override x) ps := by
  unfold State.sendFrom
  repeat' first
    | with_reducible assumption
    | with_reducible apply State.enqueue_only
    | with_reducible apply ite_only
    | with_reducible apply ite_fst_only
    | with_reducible intro _
    | split
    | dsimp only
    | ((with_reducible apply only_mk) <;> first
        | with_reducible exact fun _ => rfl
        | exact fun hn => absurd (hq (by decide)) hn
        | skip)
    | exact List.Subset.trans (by decide) hq
    | refine pair_only (by assumption) ?_
    | assumption

theorem State.chargeMeter_only {s0 : State} {ps : List Part} (s : State) (p : Nat) (t : BitVec 10) (b : Nat) (hs : s0.changesOnly s ps) (hq : [.ports] ⊆ ps) : s0.changesOnly (State.chargeMeter s p t b) ps := by
  unfold State.chargeMeter
  repeat' first
    | with_reducible assumption
    | with_reducible apply State.onTc_only
    | with_reducible apply ite_only
    | with_reducible apply ite_fst_only
    | with_reducible intro _
    | split
    | dsimp only
    | ((with_reducible apply only_mk) <;> first
        | with_reducible exact fun _ => rfl
        | exact fun hn => absurd (hq (by decide)) hn
        | skip)
    | exact List.Subset.trans (by decide) hq
    | refine pair_only (by assumption) ?_
    | assumption

end Sys2Proof.Machine
end

