-- ==== Sys2Proof/Laws/OnlyCbf.lean ====
section
/-! SUPPORT. What every operation of Cbf leaves alone. -/

set_option linter.unusedTactic false
set_option linter.unreachableTactic false
set_option linter.unusedVariables false

namespace Sys2Proof.Machine

theorem State.countBlock_only {s0 : State} {ps : List Part} (s : State) (sectN : Nat) (hs : s0.changesOnly s ps) (hq : [.cmp, .adk, .evq] ⊆ ps) : s0.changesOnly (State.countBlock s sectN) ps := by
  unfold State.countBlock
  repeat' first
    | with_reducible assumption
    | with_reducible apply State.countCmp_only
    | with_reducible apply ite_only
    | with_reducible apply ite_fst_only
    | with_reducible intro _
    | split
    | dsimp only
    | ((with_reducible apply only_mk) <;> first
        | with_reducible exact fun _ => rfl
        | exact fun hn => absurd (hq (by decide)) hn
        | skip)
    | exact List.Subset.trans (by decide) hq
    | refine pair_only (by assumption) ?_
    | assumption

theorem State.egressForm_only {s0 : State} {ps : List Part} (s : State) (p : Nat) (x : QFrame) (hs : s0.changesOnly s ps) (hq : [.cmp, .adk, .evq] ⊆ ps) : s0.changesOnly (State.egressForm s p x).1 ps := by
  unfold State.egressForm
  repeat' first
    | with_reducible assumption
    | with_reducible apply State.countBlock_only
    | with_reducible apply foldl_only
    | with_reducible apply foldl_fst_only
    | with_reducible apply ite_only
    | with_reducible apply ite_fst_only
    | with_reducible intro _
    | split
    | dsimp only
    | ((with_reducible apply only_mk) <;> first
        | with_reducible exact fun _ => rfl
        | exact fun hn => absurd (hq (by decide)) hn
        | skip)
    | exact List.Subset.trans (by decide) hq
    | refine pair_only (by assumption) ?_
    | assumption

end Sys2Proof.Machine
end

