-- ==== Sys2Proof/Laws/OnlyDevice.lean ====
section
/-! SUPPORT. What every operation of Device leaves alone. -/

set_option linter.unusedTactic false
set_option linter.unreachableTactic false
set_option linter.unusedVariables false

namespace Sys2Proof.Machine

theorem State.changeState_only {s0 : State} {ps : List Part} (s : State) (n : ModState) (code : Nat) (trig : Nat) (hs : s0.changesOnly s ps) (hq : [.log, .mod, .adk, .evq, .glb] ⊆ ps) : s0.changesOnly (State.changeState s n code trig) ps := by
  unfold State.changeState
  repeat' first
    | with_reducible assumption
    | with_reducible apply State.logWith_only
    | with_reducible apply ite_only
    | with_reducible apply ite_fst_only
    | with_reducible intro _
    | split
    | dsimp only
    | ((with_reducible apply only_mk) <;> first
        | with_reducible exact fun _ => rfl
        | exact fun hn => absurd (hq (by decide)) hn
        | skip)
    | exact List.Subset.trans (by decide) hq
    | refine pair_only (by assumption) ?_
    | assumption

end Sys2Proof.Machine
end

