-- ==== Sys2Proof/Laws/OnlyFrames.lean ====
section
/-! SUPPORT. What every operation of Frames leaves alone. -/

set_option linter.unusedTactic false
set_option linter.unreachableTactic false
set_option linter.unusedVariables false

namespace Sys2Proof.Machine

theorem State.countDead_only {s0 : State} {ps : List Part} (s : State) (p : Nat) (st : BitVec 6) (hs : s0.changesOnly s ps) (hq : [.ports, .adk, .evq] ⊆ ps) : s0.changesOnly (State.countDead s p st) ps := by
  unfold State.countDead
  repeat' first
    | with_reducible assumption
    | with_reducible apply State.countPrt_only
    | with_reducible apply ite_only
    | with_reducible apply ite_fst_only
    | with_reducible intro _
    | split
    | dsimp only
    | ((with_reducible apply only_mk) <;> first
        | with_reducible exact fun _ => rfl
        | exact fun hn => absurd (hq (by decide)) hn
        | skip)
    | exact List.Subset.trans (by decide) hq
    | refine pair_only (by assumption) ?_
    | assumption

theorem State.lotFail_only {s0 : State} {ps : List Part} (s : State) (p : Nat) (hs : s0.changesOnly s ps) (hq : [.ports, .log, .adk, .evq] ⊆ ps) : s0.changesOnly (State.lotFail s p) ps := by
  unfold State.lotFail
  repeat' first
    | with_reducible assumption
    | with_reducible apply State.logE_only
    | with_reducible apply State.onLink_only
    | with_reducible apply ite_only
    | with_reducible apply ite_fst_only
    | with_reducible intro _
    | split
    | dsimp only
    | ((with_reducible apply only_mk) <;> first
        | with_reducible exact fun _ => rfl
        | exact fun hn => absurd (hq (by decide)) hn
        | skip)
    | exact List.Subset.trans (by decide) hq
    | refine pair_only (by assumption) ?_
    | assumption

theorem State.lotStatus_only {s0 : State} {ps : List Part} (s : State) (p : Nat) (st : BitVec 6) (hs : s0.changesOnly s ps) (hq : [.ports, .log, .adk, .evq] ⊆ ps) : s0.changesOnly (State.lotStatus s p st) ps := by
  unfold State.lotStatus
  repeat' first
    | with_reducible assumption
    | with_reducible apply State.lotFail_only
    | with_reducible apply ite_only
    | with_reducible apply ite_fst_only
    | with_reducible intro _
    | split
    | dsimp only
    | ((with_reducible apply only_mk) <;> first
        | with_reducible exact fun _ => rfl
        | exact fun hn => absurd (hq (by decide)) hn
        | skip)
    | exact List.Subset.trans (by decide) hq
    | refine pair_only (by assumption) ?_
    | assumption

theorem State.emitOut_only {s0 : State} {ps : List Part} (s : State) (n : Nat) (o : Origin) (x : QFrame) (hs : s0.changesOnly s ps) (hq : [.ports, .req, .xl, .cpu, .sec, .log, .adk, .evq] ⊆ ps) : s0.changesOnly (State.emitOut s n o x) ps := by
  unfold State.emitOut
  repeat' first
    | with_reducible assumption
    | with_reducible apply State.onCore_only
    | with_reducible apply State.enqueue_only
    | with_reducible apply State.countDead_only
    | with_reducible apply State.lotStatus_only
    | with_reducible apply ite_only
    | with_reducible apply ite_fst_only
    | with_reducible intro _
    | split
    | dsimp only
    | ((with_reducible apply only_mk) <;> first
        | with_reducible exact fun _ => rfl
        | exact fun hn => absurd (hq (by decide)) hn
        | skip)
    | exact List.Subset.trans (by decide) hq
    | refine pair_only (by assumption) ?_
    | assumption

theorem State.notice_only {s0 : State} {ps : List Part} (s : State) (u : BitVec 16) (f : Frame) (hs : s0.changesOnly s ps) (hq : [.pkg, .ports, .adk, .evq] ⊆ ps) : s0.changesOnly (State.notice s u f) ps := by
  unfold State.notice
  repeat' first
    | with_reducible assumption
    | with_reducible apply State.sendFrom_only
    | with_reducible apply ite_only
    | with_reducible apply ite_fst_only
    | with_reducible intro _
    | split
    | dsimp only
    | ((with_reducible apply only_mk) <;> first
        | with_reducible exact fun _ => rfl
        | exact fun hn => absurd (hq (by decide)) hn
        | skip)
    | exact List.Subset.trans (by decide) hq
    | refine pair_only (by assumption) ?_
    | assumption

end Sys2Proof.Machine
end

