-- ==== Sys2Proof/Laws/OnlyLocal.lean ====
section
/-! SUPPORT. What every operation of Local leaves alone. -/

set_option linter.unusedTactic false
set_option linter.unreachableTactic false
set_option linter.unusedVariables false

namespace Sys2Proof.Machine

theorem State.wakeWords_only {s0 : State} {ps : List Part} (s : State) (cl : Nat) (hs : s0.changesOnly s ps) (hq : [.cpu] ⊆ ps) : s0.changesOnly (State.wakeWords s cl) ps := by
  unfold State.wakeWords
  repeat' first
    | with_reducible assumption
    | with_reducible apply State.onCore_only
    | with_reducible apply foldl_only
    | with_reducible apply foldl_fst_only
    | with_reducible apply ite_only
    | with_reducible apply ite_fst_only
    | with_reducible intro _
    | split
    | dsimp only
    | ((with_reducible apply only_mk) <;> first
        | with_reducible exact fun _ => rfl
        | exact fun hn => absurd (hq (by decide)) hn
        | skip)
    | exact List.Subset.trans (by decide) hq
    | refine pair_only (by assumption) ?_
    | assumption

theorem State.localWrite_only {s0 : State} {ps : List Part} (s : State) (k : Nat) (a : Nat) (bs : List Byte) (hs : s0.changesOnly s ps) (hq : [.cpu] ⊆ ps) : s0.changesOnly (State.localWrite s k a bs) ps := by
  unfold State.localWrite
  repeat' first
    | with_reducible assumption
    | with_reducible apply State.wakeWords_only
    | with_reducible apply ite_only
    | with_reducible apply ite_fst_only
    | with_reducible intro _
    | split
    | dsimp only
    | ((with_reducible apply only_mk) <;> first
        | with_reducible exact fun _ => rfl
        | exact fun hn => absurd (hq (by decide)) hn
        | skip)
    | exact List.Subset.trans (by decide) hq
    | refine pair_only (by assumption) ?_
    | assumption

end Sys2Proof.Machine
end

