-- ==== Sys2Proof/Laws/OnlyAbort.lean ====
section
/-! SUPPORT. What every operation of Abort leaves alone. -/

set_option linter.unusedTactic false
set_option linter.unreachableTactic false
set_option linter.unusedVariables false

namespace Sys2Proof.Machine

theorem State.toIssuer_only {s0 : State} {ps : List Part} (s : State) (site : Nat) (n : Nat) (o : Origin) (q : Option Nat) (x : QFrame) (hs : s0.changesOnly s ps) (hq : [.pkg, .ports, .req, .xl, .cpu, .sec, .log, .adk, .evq] ⊆ ps) : s0.changesOnly (State.toIssuer s site n o q x) ps := by
  unfold State.toIssuer
  repeat' first
    | with_reducible assumption
    | with_reducible apply State.sendFrom_only
    | with_reducible apply State.lotStatus_only
    | with_reducible apply State.emitOut_only
    | with_reducible apply ite_only
    | with_reducible apply ite_fst_only
    | with_reducible intro _
    | split
    | dsimp only
    | ((with_reducible apply only_mk) <;> first
        | with_reducible exact fun _ => rfl
        | exact fun hn => absurd (hq (by decide)) hn
        | skip)
    | exact List.Subset.trans (by decide) hq
    | refine pair_only (by assumption) ?_
    | assumption

theorem State.toPart_only {s0 : State} {ps : List Part} (s : State) (id : Nat) (c : Contributor) (q : Option Nat) (x : QFrame) (hs : s0.changesOnly s ps) (hq : [.pkg, .ports, .req, .xl, .cpu, .sec, .log, .adk, .evq] ⊆ ps) : s0.changesOnly (State.toPart s id c q x) ps := by
  unfold State.toPart
  repeat' first
    | with_reducible assumption
    | with_reducible apply State.toIssuer_only
    | with_reducible apply ite_only
    | with_reducible apply ite_fst_only
    | with_reducible intro _
    | split
    | dsimp only
    | ((with_reducible apply only_mk) <;> first
        | with_reducible exact fun _ => rfl
        | exact fun hn => absurd (hq (by decide)) hn
        | skip)
    | exact List.Subset.trans (by decide) hq
    | refine pair_only (by assumption) ?_
    | assumption

theorem State.dropResults_only {s0 : State} {ps : List Part} (s : State) (h : BitVec 24) (hs : s0.changesOnly s ps) (hq : [.pkg, .ports] ⊆ ps) : s0.changesOnly (State.dropResults s h) ps := by
  unfold State.dropResults
  repeat' first
    | with_reducible assumption
    | with_reducible apply ite_only
    | with_reducible apply ite_fst_only
    | with_reducible intro _
    | split
    | dsimp only
    | ((with_reducible apply only_mk) <;> first
        | with_reducible exact fun _ => rfl
        | exact fun hn => absurd (hq (by decide)) hn
        | skip)
    | exact List.Subset.trans (by decide) hq
    | refine pair_only (by assumption) ?_
    | assumption

theorem State.abortHere_only {s0 : State} {ps : List Part} (s : State) (id : Nat) (cause : Nat) (hs : s0.changesOnly s ps) (hq : [.pkg, .ports, .req, .xl, .cpu, .clv, .sec, .log, .adk, .evq] ⊆ ps) : s0.changesOnly (State.abortHere s id cause) ps := by
  unfold State.abortHere
  repeat' first
    | with_reducible assumption
    | with_reducible apply State.logWith_only
    | with_reducible apply State.countClv_only
    | with_reducible apply State.onColl_only
    | with_reducible apply State.sendFrom_only
    | with_reducible apply State.toPart_only
    | with_reducible apply State.dropResults_only
    | with_reducible apply foldl_only
    | with_reducible apply foldl_fst_only
    | with_reducible apply ite_only
    | with_reducible apply ite_fst_only
    | with_reducible intro _
    | split
    | dsimp only
    | ((with_reducible apply only_mk) <;> first
        | with_reducible exact fun _ => rfl
        | exact fun hn => absurd (hq (by decide)) hn
        | skip)
    | exact List.Subset.trans (by decide) hq
    | refine pair_only (by assumption) ?_
    | assumption

theorem State.collTrigger_only {s0 : State} {ps : List Part} (s : State) (id : Nat) (cause : Nat) (hs : s0.changesOnly s ps) (hq : [.pkg, .ports, .req, .xl, .cpu, .clv, .sec, .log, .adk, .evq] ⊆ ps) : s0.changesOnly (State.collTrigger s id cause) ps := by
  unfold State.collTrigger
  repeat' first
    | with_reducible assumption
    | with_reducible apply State.sendFrom_only
    | with_reducible apply State.abortHere_only
    | with_reducible apply ite_only
    | with_reducible apply ite_fst_only
    | with_reducible intro _
    | split
    | dsimp only
    | ((with_reducible apply only_mk) <;> first
        | with_reducible exact fun _ => rfl
        | exact fun hn => absurd (hq (by decide)) hn
        | skip)
    | exact List.Subset.trans (by decide) hq
    | refine pair_only (by assumption) ?_
    | assumption

theorem State.poolAnswer_only {s0 : State} {ps : List Part} (s : State) (id : Nat) (st : BitVec 6) (hs : s0.changesOnly s ps) (hq : [.pkg, .ports, .req, .xl, .cpu, .clv, .sec, .log, .adk, .evq] ⊆ ps) : s0.changesOnly (State.poolAnswer s id st) ps := by
  unfold State.poolAnswer
  repeat' first
    | with_reducible assumption
    | with_reducible apply State.onColl_only
    | with_reducible apply State.collTrigger_only
    | with_reducible apply ite_only
    | with_reducible apply ite_fst_only
    | with_reducible intro _
    | split
    | dsimp only
    | ((with_reducible apply only_mk) <;> first
        | with_reducible exact fun _ => rfl
        | exact fun hn => absurd (hq (by decide)) hn
        | skip)
    | exact List.Subset.trans (by decide) hq
    | refine pair_only (by assumption) ?_
    | assumption

theorem State.attnAnswer_only {s0 : State} {ps : List Part} (s : State) (id : Nat) (what : Nat) (st : BitVec 6) (data : List Byte) (hs : s0.changesOnly s ps) (hq : [.xl, .atn] ⊆ ps) : s0.changesOnly (State.attnAnswer s id what st data) ps := by
  unfold State.attnAnswer
  repeat' first
    | with_reducible assumption
    | with_reducible apply foldl_only
    | with_reducible apply foldl_fst_only
    | with_reducible apply ite_only
    | with_reducible apply ite_fst_only
    | with_reducible intro _
    | split
    | dsimp only
    | ((with_reducible apply only_mk) <;> first
        | with_reducible exact fun _ => rfl
        | exact fun hn => absurd (hq (by decide)) hn
        | skip)
    | exact List.Subset.trans (by decide) hq
    | refine pair_only (by assumption) ?_
    | assumption

theorem State.emit_only {s0 : State} {ps : List Part} (s : State) (n : Nat) (o : Origin) (x : QFrame) (hs : s0.changesOnly s ps) (hq : [.pkg, .ports, .req, .xl, .cpu, .clv, .atn, .sec, .log, .adk, .evq] ⊆ ps) : s0.changesOnly (State.emit s n o x) ps := by
  unfold State.emit
  repeat' first
    | with_reducible assumption
    | with_reducible apply State.emitOut_only
    | with_reducible apply State.poolAnswer_only
    | with_reducible apply State.attnAnswer_only
    | with_reducible apply ite_only
    | with_reducible apply ite_fst_only
    | with_reducible intro _
    | split
    | dsimp only
    | ((with_reducible apply only_mk) <;> first
        | with_reducible exact fun _ => rfl
        | exact fun hn => absurd (hq (by decide)) hn
        | skip)
    | exact List.Subset.trans (by decide) hq
    | refine pair_only (by assumption) ?_
    | assumption

end Sys2Proof.Machine
end

