-- ==== Sys2Proof/Laws/OnlySchedule.lean ====
section
/-! SUPPORT. What every operation of Schedule leaves alone. -/

set_option linter.unusedTactic false
set_option linter.unreachableTactic false
set_option linter.unusedVariables false

namespace Sys2Proof.Machine

theorem State.paid_only {s0 : State} {ps : List Part} (s : State) (k : Nat) (hs : s0.changesOnly s ps) (hq : [.tim] ⊆ ps) : s0.changesOnly (State.paid s k) ps := by
  unfold State.paid
  repeat' first
    | with_reducible assumption
    | with_reducible apply ite_only
    | with_reducible apply ite_fst_only
    | with_reducible intro _
    | split
    | dsimp only
    | ((with_reducible apply only_mk) <;> first
        | with_reducible exact fun _ => rfl
        | exact fun hn => absurd (hq (by decide)) hn
        | skip)
    | exact List.Subset.trans (by decide) hq
    | refine pair_only (by assumption) ?_
    | assumption

theorem State.owing_only {s0 : State} {ps : List Part} (s : State) (k : Nat) (hs : s0.changesOnly s ps) (hq : [.tim] ⊆ ps) : s0.changesOnly (State.owing s k) ps := by
  unfold State.owing
  repeat' first
    | with_reducible assumption
    | with_reducible apply ite_only
    | with_reducible apply ite_fst_only
    | with_reducible intro _
    | split
    | dsimp only
    | ((with_reducible apply only_mk) <;> first
        | with_reducible exact fun _ => rfl
        | exact fun hn => absurd (hq (by decide)) hn
        | skip)
    | exact List.Subset.trans (by decide) hq
    | refine pair_only (by assumption) ?_
    | assumption

end Sys2Proof.Machine
end

