-- ==== Sys2Proof/Laws/OnlyHome.lean ====
section
/-! SUPPORT. What every operation of Home leaves alone. -/

set_option linter.unusedTactic false
set_option linter.unreachableTactic false
set_option linter.unusedVariables false

namespace Sys2Proof.Machine

theorem State.trayFrame_only {s0 : State} {ps : List Part} (s : State) (t : Nat) (b : Nat) (tag : BitVec 13) (f : Frame) (hs : s0.changesOnly s ps) (hq : [.pkg, .ports, .adk, .evq] ⊆ ps) : s0.changesOnly (State.trayFrame s t b tag f) ps := by
  unfold State.trayFrame
  repeat' first
    | with_reducible assumption
    | with_reducible apply State.onLink_only
    | with_reducible apply State.sendFrom_only
    | with_reducible apply ite_only
    | with_reducible apply ite_fst_only
    | with_reducible intro _
    | split
    | dsimp only
    | ((with_reducible apply only_mk) <;> first
        | with_reducible exact fun _ => rfl
        | exact fun hn => absurd (hq (by decide)) hn
        | skip)
    | exact List.Subset.trans (by decide) hq
    | refine pair_only (by assumption) ?_
    | assumption

theorem State.sendTray_only {s0 : State} {ps : List Part} (s : State) (t : Nat) (b : Nat) (op : TrayOp) (tenant : BitVec 10) (opcode : BitVec 8) (addr : Nat) (len : Nat) (st : BitVec 6) (pl : List Byte) (hs : s0.changesOnly s ps) (hq : [.pkg, .ports, .tier, .adk, .evq] ⊆ ps) : s0.changesOnly (State.sendTray s t b op tenant opcode addr len st pl) ps := by
  unfold State.sendTray
  repeat' first
    | with_reducible assumption
    | with_reducible apply State.trayFrame_only
    | with_reducible apply ite_only
    | with_reducible apply ite_fst_only
    | with_reducible intro _
    | split
    | dsimp only
    | ((with_reducible apply only_mk) <;> first
        | with_reducible exact fun _ => rfl
        | exact fun hn => absurd (hq (by decide)) hn
        | skip)
    | exact List.Subset.trans (by decide) hq
    | refine pair_only (by assumption) ?_
    | assumption

theorem State.sendHeld_only {s0 : State} {ps : List Part} (s : State) (q : TrayReq) (hs : s0.changesOnly s ps) (hq : [.pkg, .ports, .tier, .adk, .evq] ⊆ ps) : s0.changesOnly (State.sendHeld s q) ps := by
  unfold State.sendHeld
  repeat' first
    | with_reducible assumption
    | with_reducible apply State.sendTray_only
    | with_reducible apply ite_only
    | with_reducible apply ite_fst_only
    | with_reducible intro _
    | split
    | dsimp only
    | ((with_reducible apply only_mk) <;> first
        | with_reducible exact fun _ => rfl
        | exact fun hn => absurd (hq (by decide)) hn
        | skip)
    | exact List.Subset.trans (by decide) hq
    | refine pair_only (by assumption) ?_
    | assumption

theorem State.trayHeld_only {s0 : State} {ps : List Part} (s : State) (p : Nat) (hs : s0.changesOnly s ps) (hq : [.pkg, .ports, .tier, .adk, .evq] ⊆ ps) : s0.changesOnly (State.trayHeld s p) ps := by
  unfold State.trayHeld
  repeat' first
    | with_reducible assumption
    | with_reducible apply State.trayFrame_only
    | with_reducible apply ite_only
    | with_reducible apply ite_fst_only
    | with_reducible intro _
    | split
    | dsimp only
    | ((with_reducible apply only_mk) <;> first
        | with_reducible exact fun _ => rfl
        | exact fun hn => absurd (hq (by decide)) hn
        | skip)
    | exact List.Subset.trans (by decide) hq
    | refine pair_only (by assumption) ?_
    | assumption

theorem State.subFrame_only {s0 : State} {ps : List Part} (s : State) (p : Nat) (handle : Nat) (tag : BitVec 13) (f : Frame) (hs : s0.changesOnly s ps) (hq : [.pkg, .ports, .adk, .evq] ⊆ ps) : s0.changesOnly (State.subFrame s p handle tag f) ps := by
  unfold State.subFrame
  repeat' first
    | with_reducible assumption
    | with_reducible apply State.onLink_only
    | with_reducible apply State.sendFrom_only
    | with_reducible apply ite_only
    | with_reducible apply ite_fst_only
    | with_reducible intro _
    | split
    | dsimp only
    | ((with_reducible apply only_mk) <;> first
        | with_reducible exact fun _ => rfl
        | exact fun hn => absurd (hq (by decide)) hn
        | skip)
    | exact List.Subset.trans (by decide) hq
    | refine pair_only (by assumption) ?_
    | assumption

theorem State.subHeld_only {s0 : State} {ps : List Part} (s : State) (p : Nat) (hs : s0.changesOnly s ps) (hq : [.pkg, .ports, .atn, .adk, .evq] ⊆ ps) : s0.changesOnly (State.subHeld s p) ps := by
  unfold State.subHeld
  repeat' first
    | with_reducible assumption
    | with_reducible apply State.subFrame_only
    | with_reducible apply ite_only
    | with_reducible apply ite_fst_only
    | with_reducible intro _
    | split
    | dsimp only
    | ((with_reducible apply only_mk) <;> first
        | with_reducible exact fun _ => rfl
        | exact fun hn => absurd (hq (by decide)) hn
        | skip)
    | exact List.Subset.trans (by decide) hq
    | refine pair_only (by assumption) ?_
    | assumption

theorem State.tagFree_only {s0 : State} {ps : List Part} (s : State) (p : Nat) (hs : s0.changesOnly s ps) (hq : [.pkg, .ports, .tier, .atn, .adk, .evq] ⊆ ps) : s0.changesOnly (State.tagFree s p) ps := by
  unfold State.tagFree
  repeat' first
    | with_reducible assumption
    | with_reducible apply State.trayHeld_only
    | with_reducible apply State.subHeld_only
    | with_reducible apply ite_only
    | with_reducible apply ite_fst_only
    | with_reducible intro _
    | split
    | dsimp only
    | ((with_reducible apply only_mk) <;> first
        | with_reducible exact fun _ => rfl
        | exact fun hn => absurd (hq (by decide)) hn
        | skip)
    | exact List.Subset.trans (by decide) hq
    | refine pair_only (by assumption) ?_
    | assumption

theorem State.startFill_only {s0 : State} {ps : List Part} (s : State) (b : Nat) (hs : s0.changesOnly s ps) (hq : [.pkg, .ports, .tier, .adk, .evq] ⊆ ps) : s0.changesOnly (State.startFill s b) ps := by
  unfold State.startFill
  repeat' first
    | with_reducible assumption
    | with_reducible apply State.sendTray_only
    | with_reducible apply ite_only
    | with_reducible apply ite_fst_only
    | with_reducible intro _
    | split
    | dsimp only
    | ((with_reducible apply only_mk) <;> first
        | with_reducible exact fun _ => rfl
        | exact fun hn => absurd (hq (by decide)) hn
        | skip)
    | exact List.Subset.trans (by decide) hq
    | refine pair_only (by assumption) ?_
    | assumption

theorem State.readSlotLine_only {s0 : State} {ps : List Part} (s : State) (n : Nat) (line : Nat) (hs : s0.changesOnly s ps) (hq : [.pkg, .ports, .tier, .adk, .evq] ⊆ ps) : s0.changesOnly (State.readSlotLine s n line) ps := by
  unfold State.readSlotLine
  repeat' first
    | with_reducible assumption
    | with_reducible apply State.sendTray_only
    | with_reducible apply ite_only
    | with_reducible apply ite_fst_only
    | with_reducible intro _
    | split
    | dsimp only
    | ((with_reducible apply only_mk) <;> first
        | with_reducible exact fun _ => rfl
        | exact fun hn => absurd (hq (by decide)) hn
        | skip)
    | exact List.Subset.trans (by decide) hq
    | refine pair_only (by assumption) ?_
    | assumption

theorem State.staleReads_only {s0 : State} {ps : List Part} (s : State) (b : Nat) (hs : s0.changesOnly s ps) (hq : [.tier] ⊆ ps) : s0.changesOnly (State.staleReads s b) ps := by
  unfold State.staleReads
  repeat' first
    | with_reducible assumption
    | with_reducible apply ite_only
    | with_reducible apply ite_fst_only
    | with_reducible intro _
    | split
    | dsimp only
    | ((with_reducible apply only_mk) <;> first
        | with_reducible exact fun _ => rfl
        | exact fun hn => absurd (hq (by decide)) hn
        | skip)
    | exact List.Subset.trans (by decide) hq
    | refine pair_only (by assumption) ?_
    | assumption

theorem State.forget_only {s0 : State} {ps : List Part} (s : State) (line : Nat) (hs : s0.changesOnly s ps) (hq : [.req, .tier] ⊆ ps) : s0.changesOnly (State.forget s line) ps := by
  unfold State.forget
  repeat' first
    | with_reducible assumption
    | with_reducible apply ite_only
    | with_reducible apply ite_fst_only
    | with_reducible intro _
    | split
    | dsimp only
    | ((with_reducible apply only_mk) <;> first
        | with_reducible exact fun _ => rfl
        | exact fun hn => absurd (hq (by decide)) hn
        | skip)
    | exact List.Subset.trans (by decide) hq
    | refine pair_only (by assumption) ?_
    | assumption

theorem State.writeSlotLine_only {s0 : State} {ps : List Part} (s : State) (op : TrayOp) (tray : Nat) (slot : Nat) (line : Nat) (bs : List Byte) (bad : Bool) (hs : s0.changesOnly s ps) (hq : [.pkg, .ports, .tier, .adk, .evq] ⊆ ps) : s0.changesOnly (State.writeSlotLine s op tray slot line bs bad) ps := by
  unfold State.writeSlotLine
  repeat' first
    | with_reducible assumption
    | with_reducible apply State.sendTray_only
    | with_reducible apply ite_only
    | with_reducible apply ite_fst_only
    | with_reducible intro _
    | split
    | dsimp only
    | ((with_reducible apply only_mk) <;> first
        | with_reducible exact fun _ => rfl
        | exact fun hn => absurd (hq (by decide)) hn
        | skip)
    | exact List.Subset.trans (by decide) hq
    | refine pair_only (by assumption) ?_
    | assumption

theorem State.writeThrough_only {s0 : State} {ps : List Part} (s : State) (op : TrayOp) (line : Nat) (bs : List Byte) (hs : s0.changesOnly s ps) (hq : [.pkg, .ports, .req, .tier, .adk, .evq] ⊆ ps) : s0.changesOnly (State.writeThrough s op line bs) ps := by
  unfold State.writeThrough
  repeat' first
    | with_reducible assumption
    | with_reducible apply State.staleReads_only
    | with_reducible apply State.forget_only
    | with_reducible apply State.writeSlotLine_only
    | with_reducible apply ite_only
    | with_reducible apply ite_fst_only
    | with_reducible intro _
    | split
    | dsimp only
    | ((with_reducible apply only_mk) <;> first
        | with_reducible exact fun _ => rfl
        | exact fun hn => absurd (hq (by decide)) hn
        | skip)
    | exact List.Subset.trans (by decide) hq
    | refine pair_only (by assumption) ?_
    | assumption

theorem State.holdLine_only {s0 : State} {ps : List Part} (s : State) (op : TrayOp) (line : Nat) (bs : List Byte) (hs : s0.changesOnly s ps) (hq : [.req, .tier] ⊆ ps) : s0.changesOnly (State.holdLine s op line bs) ps := by
  unfold State.holdLine
  repeat' first
    | with_reducible assumption
    | with_reducible apply State.forget_only
    | with_reducible apply ite_only
    | with_reducible apply ite_fst_only
    | with_reducible intro _
    | split
    | dsimp only
    | ((with_reducible apply only_mk) <;> first
        | with_reducible exact fun _ => rfl
        | exact fun hn => absurd (hq (by decide)) hn
        | skip)
    | exact List.Subset.trans (by decide) hq
    | refine pair_only (by assumption) ?_
    | assumption

theorem State.zeroBlock_only {s0 : State} {ps : List Part} (s : State) (page : Nat) (i : Nat) (hs : s0.changesOnly s ps) (hq : [.pkg, .ports, .tier, .adk, .evq] ⊆ ps) : s0.changesOnly (State.zeroBlock s page i) ps := by
  unfold State.zeroBlock
  repeat' first
    | with_reducible assumption
    | with_reducible apply State.sendTray_only
    | with_reducible apply ite_only
    | with_reducible apply ite_fst_only
    | with_reducible intro _
    | split
    | dsimp only
    | ((with_reducible apply only_mk) <;> first
        | with_reducible exact fun _ => rfl
        | exact fun hn => absurd (hq (by decide)) hn
        | skip)
    | exact List.Subset.trans (by decide) hq
    | refine pair_only (by assumption) ?_
    | assumption

theorem State.stopZero_only {s0 : State} {ps : List Part} (s : State) (page : Nat) (hs : s0.changesOnly s ps) (hq : [.tier] ⊆ ps) : s0.changesOnly (State.stopZero s page) ps := by
  unfold State.stopZero
  repeat' first
    | with_reducible assumption
    | with_reducible apply ite_only
    | with_reducible apply ite_fst_only
    | with_reducible intro _
    | split
    | dsimp only
    | ((with_reducible apply only_mk) <;> first
        | with_reducible exact fun _ => rfl
        | exact fun hn => absurd (hq (by decide)) hn
        | skip)
    | exact List.Subset.trans (by decide) hq
    | refine pair_only (by assumption) ?_
    | assumption

theorem State.writeBack_only {s0 : State} {ps : List Part} (s : State) (b : Nat) (hs : s0.changesOnly s ps) (hq : [.pkg, .ports, .tier, .adk, .evq] ⊆ ps) : s0.changesOnly (State.writeBack s b) ps := by
  unfold State.writeBack
  repeat' first
    | with_reducible assumption
    | with_reducible apply State.sendTray_only
    | with_reducible apply State.staleReads_only
    | with_reducible apply State.writeSlotLine_only
    | with_reducible apply foldl_only
    | with_reducible apply foldl_fst_only
    | with_reducible apply ite_only
    | with_reducible apply ite_fst_only
    | with_reducible intro _
    | split
    | dsimp only
    | ((with_reducible apply only_mk) <;> first
        | with_reducible exact fun _ => rfl
        | exact fun hn => absurd (hq (by decide)) hn
        | skip)
    | exact List.Subset.trans (by decide) hq
    | refine pair_only (by assumption) ?_
    | assumption

theorem State.startZero_only {s0 : State} {ps : List Part} (s : State) (page : Nat) (hs : s0.changesOnly s ps) (hq : [.pkg, .ports, .tier, .adk, .evq] ⊆ ps) : s0.changesOnly (State.startZero s page) ps := by
  unfold State.startZero
  repeat' first
    | with_reducible assumption
    | with_reducible apply State.zeroBlock_only
    | with_reducible apply ite_only
    | with_reducible apply ite_fst_only
    | with_reducible intro _
    | split
    | dsimp only
    | ((with_reducible apply only_mk) <;> first
        | with_reducible exact fun _ => rfl
        | exact fun hn => absurd (hq (by decide)) hn
        | skip)
    | exact List.Subset.trans (by decide) hq
    | refine pair_only (by assumption) ?_
    | assumption

theorem State.lostLines_only {s0 : State} {ps : List Part} (s : State) (b : Nat) (mask : BitVec 32) (hs : s0.changesOnly s ps) (hq : [.tier, .log, .adk, .evq] ⊆ ps) : s0.changesOnly (State.lostLines s b mask) ps := by
  unfold State.lostLines
  repeat' first
    | with_reducible assumption
    | with_reducible apply State.countLog_only
    | with_reducible apply State.logE_only
    | with_reducible apply foldl_only
    | with_reducible apply foldl_fst_only
    | with_reducible apply ite_only
    | with_reducible apply ite_fst_only
    | with_reducible intro _
    | split
    | dsimp only
    | ((with_reducible apply only_mk) <;> first
        | with_reducible exact fun _ => rfl
        | exact fun hn => absurd (hq (by decide)) hn
        | skip)
    | exact List.Subset.trans (by decide) hq
    | refine pair_only (by assumption) ?_
    | assumption

theorem State.dropSector_only {s0 : State} {ps : List Part} (s : State) (b : Nat) (hs : s0.changesOnly s ps) (hq : [.tier] ⊆ ps) : s0.changesOnly (State.dropSector s b) ps := by
  unfold State.dropSector
  repeat' first
    | with_reducible assumption
    | with_reducible apply ite_only
    | with_reducible apply ite_fst_only
    | with_reducible intro _
    | split
    | dsimp only
    | ((with_reducible apply only_mk) <;> first
        | with_reducible exact fun _ => rfl
        | exact fun hn => absurd (hq (by decide)) hn
        | skip)
    | exact List.Subset.trans (by decide) hq
    | refine pair_only (by assumption) ?_
    | assumption

theorem State.makeWay_only {s0 : State} {ps : List Part} (s : State) (b : Nat) (hs : s0.changesOnly s ps) (hq : [.pkg, .ports, .tier, .adk, .evq] ⊆ ps) : s0.changesOnly (State.makeWay s b).1 ps := by
  unfold State.makeWay
  repeat' first
    | with_reducible assumption
    | with_reducible apply State.writeBack_only
    | with_reducible apply State.startZero_only
    | with_reducible apply State.dropSector_only
    | with_reducible apply ite_only
    | with_reducible apply ite_fst_only
    | with_reducible intro _
    | split
    | dsimp only
    | ((with_reducible apply only_mk) <;> first
        | with_reducible exact fun _ => rfl
        | exact fun hn => absurd (hq (by decide)) hn
        | skip)
    | exact List.Subset.trans (by decide) hq
    | refine pair_only (by assumption) ?_
    | assumption

theorem State.formBlock_only {s0 : State} {ps : List Part} (s : State) (b : Nat) (bs : List Byte) (poisoned : Bool) (hs : s0.changesOnly s ps) (hq : [.cmp, .adk, .evq] ⊆ ps) : s0.changesOnly (State.formBlock s b bs poisoned).1 ps := by
  unfold State.formBlock
  repeat' first
    | with_reducible assumption
    | with_reducible apply State.countBlock_only
    | with_reducible apply ite_only
    | with_reducible apply ite_fst_only
    | with_reducible intro _
    | split
    | dsimp only
    | ((with_reducible apply only_mk) <;> first
        | with_reducible exact fun _ => rfl
        | exact fun hn => absurd (hq (by decide)) hn
        | skip)
    | exact List.Subset.trans (by decide) hq
    | refine pair_only (by assumption) ?_
    | assumption

theorem State.touch_only {s0 : State} {ps : List Part} (s : State) (b : Nat) (hs : s0.changesOnly s ps) (hq : [.tier] ⊆ ps) : s0.changesOnly (State.touch s b) ps := by
  unfold State.touch
  repeat' first
    | with_reducible assumption
    | with_reducible apply State.setSector_only
    | with_reducible apply ite_only
    | with_reducible apply ite_fst_only
    | with_reducible intro _
    | split
    | dsimp only
    | ((with_reducible apply only_mk) <;> first
        | with_reducible exact fun _ => rfl
        | exact fun hn => absurd (hq (by decide)) hn
        | skip)
    | exact List.Subset.trans (by decide) hq
    | refine pair_only (by assumption) ?_
    | assumption

theorem State.placeLines_only {s0 : State} {ps : List Part} (s : State) (b : Nat) (ls : List (Nat × List Byte × Bool)) (ow : Bool) (dirty : Bool) (hs : s0.changesOnly s ps) (hq : [.tier, .sec] ⊆ ps) : s0.changesOnly (State.placeLines s b ls ow dirty) ps := by
  have h2 : ∀ (s : State) (x : Tiers), s0.changesOnly s ps → s0.changesOnly { s with tier := x } ps := by
    intro s x h p hp
    have := h p hp
    cases p <;> first
      | exact this
      | exact absurd (hq (by decide)) hp
  exact foldl_only _ _ _ (fun s l h => h2 s _ h) (State.setSector_only _ _ _ hs (List.Subset.trans (by decide) hq))

theorem State.setForm_only {s0 : State} {ps : List Part} (s : State) (b : Nat) (tag : Byte) (cbf : List Byte) (hs : s0.changesOnly s ps) (hq : [.tier] ⊆ ps) : s0.changesOnly (State.setForm s b tag cbf) ps := by
  have h2 : ∀ (s : State) (x : Tiers), s0.changesOnly s ps → s0.changesOnly { s with tier := x } ps := by
    intro s x h p hp
    have := h p hp
    cases p <;> first
      | exact this
      | exact absurd (hq (by decide)) hp
  unfold State.setForm
  split
  · split
    · exact hs
    · exact h2 _ _ (State.setSector_only _ _ _ hs (List.Subset.trans (by decide) hq))
  · exact h2 _ _ (State.setSector_only _ _ _ hs (List.Subset.trans (by decide) hq))

theorem State.expanded_only {s0 : State} {ps : List Part} (s : State) (b : Nat) (hs : s0.changesOnly s ps) (hq : [.ext, .tier] ⊆ ps) : s0.changesOnly (State.expanded s b) ps := by
  unfold State.expanded
  repeat' first
    | with_reducible assumption
    | with_reducible apply State.onExtent_only
    | with_reducible apply State.setForm_only
    | with_reducible apply ite_only
    | with_reducible apply ite_fst_only
    | with_reducible intro _
    | split
    | dsimp only
    | ((with_reducible apply only_mk) <;> first
        | with_reducible exact fun _ => rfl
        | exact fun hn => absurd (hq (by decide)) hn
        | skip)
    | exact List.Subset.trans (by decide) hq
    | refine pair_only (by assumption) ?_
    | assumption

theorem State.notePoison_only {s0 : State} {ps : List Part} (s : State) (line : Nat) (detail : Nat) (hs : s0.changesOnly s ps) (hq : [.log, .adk, .evq] ⊆ ps) : s0.changesOnly (State.notePoison s line detail) ps := by
  unfold State.notePoison
  repeat' first
    | with_reducible assumption
    | with_reducible apply State.countLog_only
    | with_reducible apply State.logE_only
    | with_reducible apply ite_only
    | with_reducible apply ite_fst_only
    | with_reducible intro _
    | split
    | dsimp only
    | ((with_reducible apply only_mk) <;> first
        | with_reducible exact fun _ => rfl
        | exact fun hn => absurd (hq (by decide)) hn
        | skip)
    | exact List.Subset.trans (by decide) hq
    | refine pair_only (by assumption) ?_
    | assumption

theorem State.poisonLine_only {s0 : State} {ps : List Part} (s : State) (line : Nat) (hs : s0.changesOnly s ps) (hq : [.req, .tier, .sec, .log, .adk, .evq] ⊆ ps) : s0.changesOnly (State.poisonLine s line) ps := by
  unfold State.poisonLine
  repeat' first
    | with_reducible assumption
    | with_reducible apply State.forget_only
    | with_reducible apply State.placeLines_only
    | with_reducible apply State.setForm_only
    | with_reducible apply State.notePoison_only
    | with_reducible apply ite_only
    | with_reducible apply ite_fst_only
    | with_reducible intro _
    | split
    | dsimp only
    | ((with_reducible apply only_mk) <;> first
        | with_reducible exact fun _ => rfl
        | exact fun hn => absurd (hq (by decide)) hn
        | skip)
    | exact List.Subset.trans (by decide) hq
    | refine pair_only (by assumption) ?_
    | assumption

theorem State.fillBlock_only {s0 : State} {ps : List Part} (s : State) (b : Nat) (ls : List (List Byte × Bool)) (heat : Bool) (hs : s0.changesOnly s ps) (hq : [.pkg, .ports, .tier, .cmp, .sec, .adk, .evq] ⊆ ps) : s0.changesOnly (State.fillBlock s b ls heat).1 ps := by
  unfold State.fillBlock
  repeat' first
    | with_reducible assumption
    | with_reducible apply State.onPage_only
    | with_reducible apply State.setSector_only
    | with_reducible apply State.makeWay_only
    | with_reducible apply State.formBlock_only
    | with_reducible apply State.touch_only
    | with_reducible apply State.placeLines_only
    | with_reducible apply State.setForm_only
    | with_reducible apply foldl_only
    | with_reducible apply foldl_fst_only
    | with_reducible apply ite_only
    | with_reducible apply ite_fst_only
    | with_reducible intro _
    | split
    | dsimp only
    | ((with_reducible apply only_mk) <;> first
        | with_reducible exact fun _ => rfl
        | exact fun hn => absurd (hq (by decide)) hn
        | skip)
    | exact List.Subset.trans (by decide) hq
    | refine pair_only (by assumption) ?_
    | assumption

theorem State.seek_only {s0 : State} {ps : List Part} (s : State) (n : Nat) (line : Nat) (hs : s0.changesOnly s ps) (hq : [.pkg, .ports, .tier, .cmp, .sec, .adk, .evq] ⊆ ps) : s0.changesOnly (State.seek s n line).1 ps := by
  unfold State.seek
  repeat' first
    | with_reducible assumption
    | with_reducible apply State.startFill_only
    | with_reducible apply State.readSlotLine_only
    | with_reducible apply State.touch_only
    | with_reducible apply State.fillBlock_only
    | with_reducible apply ite_only
    | with_reducible apply ite_fst_only
    | with_reducible intro _
    | split
    | dsimp only
    | ((with_reducible apply only_mk) <;> first
        | with_reducible exact fun _ => rfl
        | exact fun hn => absurd (hq (by decide)) hn
        | skip)
    | exact List.Subset.trans (by decide) hq
    | refine pair_only (by assumption) ?_
    | assumption

end Sys2Proof.Machine
end

