-- ==== Sys2Proof/Laws/OnlySnoop.lean ====
section
/-! SUPPORT. What every operation of Snoop leaves alone. -/

set_option linter.unusedTactic false
set_option linter.unreachableTactic false
set_option linter.unusedVariables false

namespace Sys2Proof.Machine

theorem State.setDir_only {s0 : State} {ps : List Part} (s : State) (line : Nat) (e : DirEntry) (hs : s0.changesOnly s ps) (hq : [.coh] ⊆ ps) : s0.changesOnly (State.setDir s line e) ps := by
  unfold State.setDir
  repeat' first
    | with_reducible assumption
    | with_reducible apply ite_only
    | with_reducible apply ite_fst_only
    | with_reducible intro _
    | split
    | dsimp only
    | ((with_reducible apply only_mk) <;> first
        | with_reducible exact fun _ => rfl
        | exact fun hn => absurd (hq (by decide)) hn
        | skip)
    | exact List.Subset.trans (by decide) hq
    | refine pair_only (by assumption) ?_
    | assumption

theorem State.dropHolder_only {s0 : State} {ps : List Part} (s : State) (line : Nat) (a : Nat) (hs : s0.changesOnly s ps) (hq : [.coh] ⊆ ps) : s0.changesOnly (State.dropHolder s line a) ps := by
  unfold State.dropHolder
  repeat' first
    | with_reducible assumption
    | with_reducible apply State.setDir_only
    | with_reducible apply ite_only
    | with_reducible apply ite_fst_only
    | with_reducible intro _
    | split
    | dsimp only
    | ((with_reducible apply only_mk) <;> first
        | with_reducible exact fun _ => rfl
        | exact fun hn => absurd (hq (by decide)) hn
        | skip)
    | exact List.Subset.trans (by decide) hq
    | refine pair_only (by assumption) ?_
    | assumption

theorem State.removeAgent_only {s0 : State} {ps : List Part} (s : State) (line : Nat) (a : Nat) (hs : s0.changesOnly s ps) (hq : [.coh] ⊆ ps) : s0.changesOnly (State.removeAgent s line a) ps := by
  unfold State.removeAgent
  repeat' first
    | with_reducible assumption
    | with_reducible apply State.setDir_only
    | with_reducible apply State.dropHolder_only
    | with_reducible apply ite_only
    | with_reducible apply ite_fst_only
    | with_reducible intro _
    | split
    | dsimp only
    | ((with_reducible apply only_mk) <;> first
        | with_reducible exact fun _ => rfl
        | exact fun hn => absurd (hq (by decide)) hn
        | skip)
    | exact List.Subset.trans (by decide) hq
    | refine pair_only (by assumption) ?_
    | assumption

theorem State.fireSnoop_only {s0 : State} {ps : List Part} (s : State) (x : Snoop) (hs : s0.changesOnly s ps) (hq : [.pkg, .ports, .coh, .adk, .evq] ⊆ ps) : s0.changesOnly (State.fireSnoop s x) ps := by
  unfold State.fireSnoop
  repeat' first
    | with_reducible assumption
    | with_reducible apply State.countCoh_only
    | with_reducible apply State.sendFrom_only
    | with_reducible apply ite_only
    | with_reducible apply ite_fst_only
    | with_reducible intro _
    | split
    | dsimp only
    | ((with_reducible apply only_mk) <;> first
        | with_reducible exact fun _ => rfl
        | exact fun hn => absurd (hq (by decide)) hn
        | skip)
    | exact List.Subset.trans (by decide) hq
    | refine pair_only (by assumption) ?_
    | assumption

theorem State.snoop_only {s0 : State} {ps : List Part} (s : State) (line : Nat) (a : Nat) (op : BitVec 8) (why : SnoopFor) (hs : s0.changesOnly s ps) (hq : [.pkg, .ports, .coh, .adk, .evq] ⊆ ps) : s0.changesOnly (State.snoop s line a op why) ps := by
  unfold State.snoop
  repeat' first
    | with_reducible assumption
    | with_reducible apply State.countCoh_only
    | with_reducible apply State.fireSnoop_only
    | with_reducible apply ite_only
    | with_reducible apply ite_fst_only
    | with_reducible intro _
    | split
    | dsimp only
    | ((with_reducible apply only_mk) <;> first
        | with_reducible exact fun _ => rfl
        | exact fun hn => absurd (hq (by decide)) hn
        | skip)
    | exact List.Subset.trans (by decide) hq
    | refine pair_only (by assumption) ?_
    | assumption

theorem State.homeWrite_only {s0 : State} {ps : List Part} (s : State) (line : Nat) (bs : List Byte) (hs : s0.changesOnly s ps) (hq : [.pkg, .ports, .req, .ext, .tier, .sec, .adk, .evq] ⊆ ps) : s0.changesOnly (State.homeWrite s line bs) ps := by
  unfold State.homeWrite
  repeat' first
    | with_reducible assumption
    | with_reducible apply State.onExtent_only
    | with_reducible apply State.forget_only
    | with_reducible apply State.writeThrough_only
    | with_reducible apply State.holdLine_only
    | with_reducible apply State.startZero_only
    | with_reducible apply State.makeWay_only
    | with_reducible apply State.touch_only
    | with_reducible apply State.placeLines_only
    | with_reducible apply State.expanded_only
    | with_reducible apply ite_only
    | with_reducible apply ite_fst_only
    | with_reducible intro _
    | split
    | dsimp only
    | ((with_reducible apply only_mk) <;> first
        | with_reducible exact fun _ => rfl
        | exact fun hn => absurd (hq (by decide)) hn
        | skip)
    | exact List.Subset.trans (by decide) hq
    | refine pair_only (by assumption) ?_
    | assumption

theorem State.killAgent_only {s0 : State} {ps : List Part} (s : State) (d : Nat) (a : Nat) (hs : s0.changesOnly s ps) (hq : [.req, .coh, .tier, .sec, .log, .adk, .evq] ⊆ ps) : s0.changesOnly (State.killAgent s d a) ps := by
  unfold State.killAgent
  repeat' first
    | with_reducible assumption
    | with_reducible apply State.countCoh_only
    | with_reducible apply State.poisonLine_only
    | with_reducible apply State.removeAgent_only
    | with_reducible apply foldl_only
    | with_reducible apply foldl_fst_only
    | with_reducible apply ite_only
    | with_reducible apply ite_fst_only
    | with_reducible intro _
    | split
    | dsimp only
    | ((with_reducible apply only_mk) <;> first
        | with_reducible exact fun _ => rfl
        | exact fun hn => absurd (hq (by decide)) hn
        | skip)
    | exact List.Subset.trans (by decide) hq
    | refine pair_only (by assumption) ?_
    | assumption

theorem State.domNote_only {s0 : State} {ps : List Part} (s : State) (d : Nat) (a : Nat) (phase : Nat) (cause : Nat) (winEnd : Nat) (hs : s0.changesOnly s ps) (hq : [.pkg, .ports, .adk, .evq] ⊆ ps) : s0.changesOnly (State.domNote s d a phase cause winEnd) ps := by
  unfold State.domNote
  repeat' first
    | with_reducible assumption
    | with_reducible apply State.notice_only
    | with_reducible apply ite_only
    | with_reducible apply ite_fst_only
    | with_reducible intro _
    | split
    | dsimp only
    | ((with_reducible apply only_mk) <;> first
        | with_reducible exact fun _ => rfl
        | exact fun hn => absurd (hq (by decide)) hn
        | skip)
    | exact List.Subset.trans (by decide) hq
    | refine pair_only (by assumption) ?_
    | assumption

theorem State.domNotes_only {s0 : State} {ps : List Part} (s : State) (d : Nat) (phase : Nat) (cause : Nat) (winEnd : Nat) (keep : Nat → Bool) (hs : s0.changesOnly s ps) (hq : [.pkg, .ports, .adk, .evq] ⊆ ps) : s0.changesOnly (State.domNotes s d phase cause winEnd keep) ps := by
  unfold State.domNotes
  repeat' first
    | with_reducible assumption
    | with_reducible apply State.domNote_only
    | with_reducible apply foldl_only
    | with_reducible apply foldl_fst_only
    | with_reducible apply ite_only
    | with_reducible apply ite_fst_only
    | with_reducible intro _
    | split
    | dsimp only
    | ((with_reducible apply only_mk) <;> first
        | with_reducible exact fun _ => rfl
        | exact fun hn => absurd (hq (by decide)) hn
        | skip)
    | exact List.Subset.trans (by decide) hq
    | refine pair_only (by assumption) ?_
    | assumption

theorem State.domEvent_only {s0 : State} {ps : List Part} (s : State) (d : Nat) (hs : s0.changesOnly s ps) (hq : [.adk, .evq] ⊆ ps) : s0.changesOnly (State.domEvent s d) ps := by
  unfold State.domEvent
  repeat' first
    | with_reducible assumption
    | with_reducible apply State.event_only
    | with_reducible apply ite_only
    | with_reducible apply ite_fst_only
    | with_reducible intro _
    | split
    | dsimp only
    | ((with_reducible apply only_mk) <;> first
        | with_reducible exact fun _ => rfl
        | exact fun hn => absurd (hq (by decide)) hn
        | skip)
    | exact List.Subset.trans (by decide) hq
    | refine pair_only (by assumption) ?_
    | assumption

theorem State.backInvalidate_only {s0 : State} {ps : List Part} (s : State) (line : Nat) (why : SnoopFor) (hs : s0.changesOnly s ps) (hq : [.pkg, .ports, .coh, .adk, .evq] ⊆ ps) : s0.changesOnly (State.backInvalidate s line why) ps := by
  unfold State.backInvalidate
  repeat' first
    | with_reducible assumption
    | with_reducible apply State.countCoh_only
    | with_reducible apply State.setDir_only
    | with_reducible apply State.snoop_only
    | with_reducible apply foldl_only
    | with_reducible apply foldl_fst_only
    | with_reducible apply ite_only
    | with_reducible apply ite_fst_only
    | with_reducible intro _
    | split
    | dsimp only
    | ((with_reducible apply only_mk) <;> first
        | with_reducible exact fun _ => rfl
        | exact fun hn => absurd (hq (by decide)) hn
        | skip)
    | exact List.Subset.trans (by decide) hq
    | refine pair_only (by assumption) ?_
    | assumption

end Sys2Proof.Machine
end

