-- ==== Sys2Proof/Laws/OnlyRequest.lean ====
section
/-! SUPPORT. What every operation of Request leaves alone. -/

set_option linter.unusedTactic false
set_option linter.unreachableTactic false
set_option linter.unusedVariables false

namespace Sys2Proof.Machine

theorem State.putReq_only {s0 : State} {ps : List Part} (s : State) (r : Req) (hs : s0.changesOnly s ps) (hq : [.req] ⊆ ps) : s0.changesOnly (State.putReq s r) ps := by
  unfold State.putReq
  repeat' first
    | with_reducible assumption
    | with_reducible apply ite_only
    | with_reducible apply ite_fst_only
    | with_reducible intro _
    | split
    | dsimp only
    | ((with_reducible apply only_mk) <;> first
        | with_reducible exact fun _ => rfl
        | exact fun hn => absurd (hq (by decide)) hn
        | skip)
    | exact List.Subset.trans (by decide) hq
    | refine pair_only (by assumption) ?_
    | assumption

theorem State.dropReq_only {s0 : State} {ps : List Part} (s : State) (n : Nat) (hs : s0.changesOnly s ps) (hq : [.req] ⊆ ps) : s0.changesOnly (State.dropReq s n) ps := by
  unfold State.dropReq
  repeat' first
    | with_reducible assumption
    | with_reducible apply ite_only
    | with_reducible apply ite_fst_only
    | with_reducible intro _
    | split
    | dsimp only
    | ((with_reducible apply only_mk) <;> first
        | with_reducible exact fun _ => rfl
        | exact fun hn => absurd (hq (by decide)) hn
        | skip)
    | exact List.Subset.trans (by decide) hq
    | refine pair_only (by assumption) ?_
    | assumption

theorem State.addReq_only {s0 : State} {ps : List Part} (s : State) (r : Req) (hs : s0.changesOnly s ps) (hq : [.req] ⊆ ps) : s0.changesOnly (State.addReq s r) ps := by
  unfold State.addReq
  repeat' first
    | with_reducible assumption
    | with_reducible apply ite_only
    | with_reducible apply ite_fst_only
    | with_reducible intro _
    | split
    | dsimp only
    | ((with_reducible apply only_mk) <;> first
        | with_reducible exact fun _ => rfl
        | exact fun hn => absurd (hq (by decide)) hn
        | skip)
    | exact List.Subset.trans (by decide) hq
    | refine pair_only (by assumption) ?_
    | assumption

theorem State.stageReq_only {s0 : State} {ps : List Part} (s : State) (r : Req) (g : Stage) (hs : s0.changesOnly s ps) (hq : [.req] ⊆ ps) : s0.changesOnly (State.stageReq s r g) ps := by
  unfold State.stageReq
  repeat' first
    | with_reducible assumption
    | with_reducible apply State.putReq_only
    | with_reducible apply ite_only
    | with_reducible apply ite_fst_only
    | with_reducible intro _
    | split
    | dsimp only
    | ((with_reducible apply only_mk) <;> first
        | with_reducible exact fun _ => rfl
        | exact fun hn => absurd (hq (by decide)) hn
        | skip)
    | exact List.Subset.trans (by decide) hq
    | refine pair_only (by assumption) ?_
    | assumption

theorem State.finishWith_only {s0 : State} {ps : List Part} (s : State) (r : Req) (x : QFrame) (hs : s0.changesOnly s ps) (hq : [.pkg, .ports, .req, .xl, .cpu, .clv, .atn, .sec, .log, .adk, .evq] ⊆ ps) : s0.changesOnly (State.finishWith s r x) ps := by
  unfold State.finishWith
  repeat' first
    | with_reducible assumption
    | with_reducible apply State.onCore_only
    | with_reducible apply State.emit_only
    | with_reducible apply State.dropReq_only
    | with_reducible apply ite_only
    | with_reducible apply ite_fst_only
    | with_reducible intro _
    | split
    | dsimp only
    | ((with_reducible apply only_mk) <;> first
        | with_reducible exact fun _ => rfl
        | exact fun hn => absurd (hq (by decide)) hn
        | skip)
    | exact List.Subset.trans (by decide) hq
    | refine pair_only (by assumption) ?_
    | assumption

theorem State.finishOne_only {s0 : State} {ps : List Part} (s : State) (r : Req) (st : BitVec 6) (data : List Byte) (hs : s0.changesOnly s ps) (hq : [.pkg, .ports, .req, .xl, .cpu, .clv, .atn, .sec, .log, .adk, .evq] ⊆ ps) : s0.changesOnly (State.finishOne s r st data) ps := by
  unfold State.finishOne
  repeat' first
    | with_reducible assumption
    | with_reducible apply State.finishWith_only
    | with_reducible apply ite_only
    | with_reducible apply ite_fst_only
    | with_reducible intro _
    | split
    | dsimp only
    | ((with_reducible apply only_mk) <;> first
        | with_reducible exact fun _ => rfl
        | exact fun hn => absurd (hq (by decide)) hn
        | skip)
    | exact List.Subset.trans (by decide) hq
    | refine pair_only (by assumption) ?_
    | assumption

theorem State.finish_only {s0 : State} {ps : List Part} (s : State) (r : Req) (st : BitVec 6) (data : List Byte) (hs : s0.changesOnly s ps) (hq : [.pkg, .ports, .req, .xl, .cpu, .clv, .atn, .sec, .log, .adk, .evq] ⊆ ps) : s0.changesOnly (State.finish s r st data) ps := by
  unfold State.finish
  repeat' first
    | with_reducible assumption
    | with_reducible apply State.finishOne_only
    | with_reducible apply foldl_only
    | with_reducible apply foldl_fst_only
    | with_reducible apply ite_only
    | with_reducible apply ite_fst_only
    | with_reducible intro _
    | split
    | dsimp only
    | ((with_reducible apply only_mk) <;> first
        | with_reducible exact fun _ => rfl
        | exact fun hn => absurd (hq (by decide)) hn
        | skip)
    | exact List.Subset.trans (by decide) hq
    | refine pair_only (by assumption) ?_
    | assumption

theorem State.finishFrame_only {s0 : State} {ps : List Part} (s : State) (r : Req) (f : Frame) (hs : s0.changesOnly s ps) (hq : [.pkg, .ports, .req, .xl, .cpu, .clv, .atn, .sec, .log, .adk, .evq] ⊆ ps) : s0.changesOnly (State.finishFrame s r f) ps := by
  unfold State.finishFrame
  repeat' first
    | with_reducible assumption
    | with_reducible apply State.finishWith_only
    | with_reducible apply State.finishOne_only
    | with_reducible apply foldl_only
    | with_reducible apply foldl_fst_only
    | with_reducible apply ite_only
    | with_reducible apply ite_fst_only
    | with_reducible intro _
    | split
    | dsimp only
    | ((with_reducible apply only_mk) <;> first
        | with_reducible exact fun _ => rfl
        | exact fun hn => absurd (hq (by decide)) hn
        | skip)
    | exact List.Subset.trans (by decide) hq
    | refine pair_only (by assumption) ?_
    | assumption

theorem State.cutTray_only {s0 : State} {ps : List Part} (s : State) (rs : List Req) (hs : s0.changesOnly s ps) (hq : [.tier] ⊆ ps) : s0.changesOnly (State.cutTray s rs) ps := by
  unfold State.cutTray
  repeat' first
    | with_reducible assumption
    | with_reducible apply ite_only
    | with_reducible apply ite_fst_only
    | with_reducible intro _
    | split
    | dsimp only
    | ((with_reducible apply only_mk) <;> first
        | with_reducible exact fun _ => rfl
        | exact fun hn => absurd (hq (by decide)) hn
        | skip)
    | exact List.Subset.trans (by decide) hq
    | refine pair_only (by assumption) ?_
    | assumption

theorem State.countWarm_only {s0 : State} {ps : List Part} (s : State) (fpa : Nat) (hs : s0.changesOnly s ps) (hq : [.tier] ⊆ ps) : s0.changesOnly (State.countWarm s fpa) ps := by
  unfold State.countWarm
  repeat' first
    | with_reducible assumption
    | with_reducible apply ite_only
    | with_reducible apply ite_fst_only
    | with_reducible intro _
    | split
    | dsimp only
    | ((with_reducible apply only_mk) <;> first
        | with_reducible exact fun _ => rfl
        | exact fun hn => absurd (hq (by decide)) hn
        | skip)
    | exact List.Subset.trans (by decide) hq
    | refine pair_only (by assumption) ?_
    | assumption

theorem State.seekAll_only {s0 : State} {ps : List Part} (s : State) (r : Req) (lines : List Nat) (hs : s0.changesOnly s ps) (hq : [.pkg, .ports, .tier, .cmp, .sec, .adk, .evq] ⊆ ps) : s0.changesOnly (State.seekAll s r lines).1 ps := by
  unfold State.seekAll
  repeat' first
    | with_reducible assumption
    | with_reducible apply State.seek_only
    | with_reducible apply foldl_only
    | with_reducible apply foldl_fst_only
    | with_reducible apply ite_only
    | with_reducible apply ite_fst_only
    | with_reducible intro _
    | split
    | dsimp only
    | ((with_reducible apply only_mk) <;> first
        | with_reducible exact fun _ => rfl
        | exact fun hn => absurd (hq (by decide)) hn
        | skip)
    | exact List.Subset.trans (by decide) hq
    | refine pair_only (by assumption) ?_
    | assumption

theorem State.loadFrame_only {s0 : State} {ps : List Part} (s : State) (r : Req) (hs : s0.changesOnly s ps) (hq : [.cmp, .adk, .evq] ⊆ ps) : s0.changesOnly (State.loadFrame s r).1 ps := by
  unfold State.loadFrame
  repeat' first
    | with_reducible assumption
    | with_reducible apply State.countBlock_only
    | with_reducible apply foldl_only
    | with_reducible apply foldl_fst_only
    | with_reducible apply ite_only
    | with_reducible apply ite_fst_only
    | with_reducible intro _
    | split
    | dsimp only
    | ((with_reducible apply only_mk) <;> first
        | with_reducible exact fun _ => rfl
        | exact fun hn => absurd (hq (by decide)) hn
        | skip)
    | exact List.Subset.trans (by decide) hq
    | refine pair_only (by assumption) ?_
    | assumption

theorem State.snoopLines_only {s0 : State} {ps : List Part} (s : State) (r : Req) (inv : Bool) (hs : s0.changesOnly s ps) (hq : [.pkg, .ports, .coh, .adk, .evq] ⊆ ps) : s0.changesOnly (State.snoopLines s r inv).1 ps := by
  unfold State.snoopLines
  repeat' first
    | with_reducible assumption
    | with_reducible apply State.setDir_only
    | with_reducible apply State.snoop_only
    | with_reducible apply foldl_only
    | with_reducible apply foldl_fst_only
    | with_reducible apply ite_only
    | with_reducible apply ite_fst_only
    | with_reducible intro _
    | split
    | dsimp only
    | ((with_reducible apply only_mk) <;> first
        | with_reducible exact fun _ => rfl
        | exact fun hn => absurd (hq (by decide)) hn
        | skip)
    | exact List.Subset.trans (by decide) hq
    | refine pair_only (by assumption) ?_
    | assumption

theorem State.serveLoad_only {s0 : State} {ps : List Part} (s : State) (r : Req) (hs : s0.changesOnly s ps) (hq : [.pkg, .ports, .req, .coh, .tier, .xl, .cmp, .cpu, .clv, .atn, .sec, .log, .adk, .evq] ⊆ ps) : s0.changesOnly (State.serveLoad s r) ps := by
  unfold State.serveLoad
  repeat' first
    | with_reducible assumption
    | with_reducible apply State.stageReq_only
    | with_reducible apply State.finishWith_only
    | with_reducible apply State.countWarm_only
    | with_reducible apply State.seekAll_only
    | with_reducible apply State.loadFrame_only
    | with_reducible apply State.snoopLines_only
    | with_reducible apply ite_only
    | with_reducible apply ite_fst_only
    | with_reducible intro _
    | split
    | dsimp only
    | ((with_reducible apply only_mk) <;> first
        | with_reducible exact fun _ => rfl
        | exact fun hn => absurd (hq (by decide)) hn
        | skip)
    | exact List.Subset.trans (by decide) hq
    | refine pair_only (by assumption) ?_
    | assumption

theorem State.hofWritten_only {s0 : State} {ps : List Part} (s : State) (line : Nat) (old : List Byte) (new : List Byte) (hs : s0.changesOnly s ps) (hq : [.comp] ⊆ ps) : s0.changesOnly (State.hofWritten s line old new) ps := by
  unfold State.hofWritten
  repeat' first
    | with_reducible assumption
    | with_reducible apply ite_only
    | with_reducible apply ite_fst_only
    | with_reducible intro _
    | split
    | dsimp only
    | ((with_reducible apply only_mk) <;> first
        | with_reducible exact fun _ => rfl
        | exact fun hn => absurd (hq (by decide)) hn
        | skip)
    | exact List.Subset.trans (by decide) hq
    | refine pair_only (by assumption) ?_
    | assumption

theorem State.spot_only {s0 : State} {ps : List Part} (s : State) (r : Req) (line : Nat) (hs : s0.changesOnly s ps) (hq : [.pkg, .ports, .tier, .cmp, .sec, .adk, .evq] ⊆ ps) : s0.changesOnly (State.spot s r line).1 ps := by
  unfold State.spot
  repeat' first
    | with_reducible assumption
    | with_reducible apply State.readSlotLine_only
    | with_reducible apply State.startZero_only
    | with_reducible apply State.makeWay_only
    | with_reducible apply State.seek_only
    | with_reducible apply ite_only
    | with_reducible apply ite_fst_only
    | with_reducible intro _
    | split
    | dsimp only
    | ((with_reducible apply only_mk) <;> first
        | with_reducible exact fun _ => rfl
        | exact fun hn => absurd (hq (by decide)) hn
        | skip)
    | exact List.Subset.trans (by decide) hq
    | refine pair_only (by assumption) ?_
    | assumption

theorem State.spots_only {s0 : State} {ps : List Part} (s : State) (r : Req) (hs : s0.changesOnly s ps) (hq : [.pkg, .ports, .tier, .cmp, .sec, .adk, .evq] ⊆ ps) : s0.changesOnly (State.spots s r).1 ps := by
  unfold State.spots
  repeat' first
    | with_reducible assumption
    | with_reducible apply State.spot_only
    | with_reducible apply foldl_only
    | with_reducible apply foldl_fst_only
    | with_reducible apply ite_only
    | with_reducible apply ite_fst_only
    | with_reducible intro _
    | split
    | dsimp only
    | ((with_reducible apply only_mk) <;> first
        | with_reducible exact fun _ => rfl
        | exact fun hn => absurd (hq (by decide)) hn
        | skip)
    | exact List.Subset.trans (by decide) hq
    | refine pair_only (by assumption) ?_
    | assumption

theorem State.wholeForm_only {s0 : State} {ps : List Part} (s : State) (r : Req) (b : Nat) (hs : s0.changesOnly s ps) (hq : [.tier, .cmp, .adk, .evq] ⊆ ps) : s0.changesOnly (State.wholeForm s r b) ps := by
  unfold State.wholeForm
  repeat' first
    | with_reducible assumption
    | with_reducible apply State.formBlock_only
    | with_reducible apply State.setForm_only
    | with_reducible apply ite_only
    | with_reducible apply ite_fst_only
    | with_reducible intro _
    | split
    | dsimp only
    | ((with_reducible apply only_mk) <;> first
        | with_reducible exact fun _ => rfl
        | exact fun hn => absurd (hq (by decide)) hn
        | skip)
    | exact List.Subset.trans (by decide) hq
    | refine pair_only (by assumption) ?_
    | assumption

theorem State.storeLine_only {s0 : State} {ps : List Part} (s : State) (r : Req) (plain : List Byte) (x : StoreRun) (line : Nat) (hs : s0.changesOnly s ps) (hq : [.pkg, .ports, .req, .ext, .tier, .cmp, .comp, .sec, .adk, .evq] ⊆ ps) : s0.changesOnly (State.storeLine s r plain x line).1 ps := by
  unfold State.storeLine
  repeat' first
    | with_reducible assumption
    | with_reducible apply State.onExtent_only
    | with_reducible apply State.forget_only
    | with_reducible apply State.writeThrough_only
    | with_reducible apply State.touch_only
    | with_reducible apply State.placeLines_only
    | with_reducible apply State.expanded_only
    | with_reducible apply State.hofWritten_only
    | with_reducible apply State.spot_only
    | with_reducible apply State.wholeForm_only
    | with_reducible apply ite_only
    | with_reducible apply ite_fst_only
    | with_reducible intro _
    | split
    | dsimp only
    | ((with_reducible apply only_mk) <;> first
        | with_reducible exact fun _ => rfl
        | exact fun hn => absurd (hq (by decide)) hn
        | skip)
    | exact List.Subset.trans (by decide) hq
    | refine pair_only (by assumption) ?_
    | assumption

theorem State.doStore_only {s0 : State} {ps : List Part} (s : State) (r : Req) (hold : Stage) (hs : s0.changesOnly s ps) (hq : [.pkg, .ports, .req, .ext, .tier, .xl, .cmp, .cpu, .clv, .atn, .comp, .sec, .log, .adk, .evq] ⊆ ps) : s0.changesOnly (State.doStore s r hold) ps := by
  unfold State.doStore
  repeat' first
    | with_reducible assumption
    | with_reducible apply State.putReq_only
    | with_reducible apply State.finish_only
    | with_reducible apply State.countWarm_only
    | with_reducible apply State.storeLine_only
    | with_reducible apply foldl_only
    | with_reducible apply foldl_fst_only
    | with_reducible apply ite_only
    | with_reducible apply ite_fst_only
    | with_reducible intro _
    | split
    | dsimp only
    | ((with_reducible apply only_mk) <;> first
        | with_reducible exact fun _ => rfl
        | exact fun hn => absurd (hq (by decide)) hn
        | skip)
    | exact List.Subset.trans (by decide) hq
    | refine pair_only (by assumption) ?_
    | assumption

theorem State.tryStore_only {s0 : State} {ps : List Part} (s : State) (r : Req) (hold : Stage) (hs : s0.changesOnly s ps) (hq : [.pkg, .ports, .req, .coh, .ext, .tier, .xl, .cmp, .cpu, .clv, .atn, .comp, .sec, .log, .adk, .evq] ⊆ ps) : s0.changesOnly (State.tryStore s r hold) ps := by
  unfold State.tryStore
  repeat' first
    | with_reducible assumption
    | with_reducible apply State.stageReq_only
    | with_reducible apply State.finish_only
    | with_reducible apply State.snoopLines_only
    | with_reducible apply State.spots_only
    | with_reducible apply State.doStore_only
    | with_reducible apply ite_only
    | with_reducible apply ite_fst_only
    | with_reducible intro _
    | split
    | dsimp only
    | ((with_reducible apply only_mk) <;> first
        | with_reducible exact fun _ => rfl
        | exact fun hn => absurd (hq (by decide)) hn
        | skip)
    | exact List.Subset.trans (by decide) hq
    | refine pair_only (by assumption) ?_
    | assumption

theorem State.grantLine_only {s0 : State} {ps : List Part} (s : State) (r : Req) (sub : Nat) (e : DirEntry) (val : List Byte × Bool) (hs : s0.changesOnly s ps) (hq : [.pkg, .ports, .req, .coh, .tier, .xl, .cpu, .clv, .atn, .sec, .log, .adk, .evq] ⊆ ps) : s0.changesOnly (State.grantLine s r sub e val) ps := by
  unfold State.grantLine
  repeat' first
    | with_reducible assumption
    | with_reducible apply State.setDir_only
    | with_reducible apply State.finishWith_only
    | with_reducible apply State.countWarm_only
    | with_reducible apply ite_only
    | with_reducible apply ite_fst_only
    | with_reducible intro _
    | split
    | dsimp only
    | ((with_reducible apply only_mk) <;> first
        | with_reducible exact fun _ => rfl
        | exact fun hn => absurd (hq (by decide)) hn
        | skip)
    | exact List.Subset.trans (by decide) hq
    | refine pair_only (by assumption) ?_
    | assumption

theorem State.takeRoom_only {s0 : State} {ps : List Part} (s : State) (r : Req) (line : Nat) (hs : s0.changesOnly s ps) (hq : [.pkg, .ports, .coh, .adk, .evq] ⊆ ps) : s0.changesOnly (State.takeRoom s r line).1 ps := by
  unfold State.takeRoom
  repeat' first
    | with_reducible assumption
    | with_reducible apply State.backInvalidate_only
    | with_reducible apply ite_only
    | with_reducible apply ite_fst_only
    | with_reducible intro _
    | split
    | dsimp only
    | ((with_reducible apply only_mk) <;> first
        | with_reducible exact fun _ => rfl
        | exact fun hn => absurd (hq (by decide)) hn
        | skip)
    | exact List.Subset.trans (by decide) hq
    | refine pair_only (by assumption) ?_
    | assumption

theorem State.serveCoh_only {s0 : State} {ps : List Part} (s : State) (r : Req) (hs : s0.changesOnly s ps) (hq : [.pkg, .ports, .req, .coh, .ext, .tier, .xl, .cmp, .cpu, .clv, .atn, .sec, .log, .adk, .evq] ⊆ ps) : s0.changesOnly (State.serveCoh s r) ps := by
  unfold State.serveCoh
  repeat' first
    | with_reducible assumption
    | with_reducible apply State.setDir_only
    | with_reducible apply State.dropHolder_only
    | with_reducible apply State.snoop_only
    | with_reducible apply State.homeWrite_only
    | with_reducible apply State.stageReq_only
    | with_reducible apply State.finishWith_only
    | with_reducible apply State.countWarm_only
    | with_reducible apply State.seekAll_only
    | with_reducible apply State.grantLine_only
    | with_reducible apply State.takeRoom_only
    | with_reducible apply foldl_only
    | with_reducible apply foldl_fst_only
    | with_reducible apply ite_only
    | with_reducible apply ite_fst_only
    | with_reducible intro _
    | split
    | dsimp only
    | ((with_reducible apply only_mk) <;> first
        | with_reducible exact fun _ => rfl
        | exact fun hn => absurd (hq (by decide)) hn
        | skip)
    | exact List.Subset.trans (by decide) hq
    | refine pair_only (by assumption) ?_
    | assumption

theorem State.serve_only {s0 : State} {ps : List Part} (s : State) (n : Nat) (hs : s0.changesOnly s ps) (hq : [.pkg, .ports, .req, .coh, .ext, .tier, .xl, .cmp, .cpu, .clv, .atn, .comp, .sec, .log, .adk, .evq] ⊆ ps) : s0.changesOnly (State.serve s n) ps := by
  unfold State.serve
  repeat' first
    | with_reducible assumption
    | with_reducible apply State.stageReq_only
    | with_reducible apply State.snoopLines_only
    | with_reducible apply State.serveLoad_only
    | with_reducible apply State.spots_only
    | with_reducible apply State.tryStore_only
    | with_reducible apply State.serveCoh_only
    | with_reducible apply ite_only
    | with_reducible apply ite_fst_only
    | with_reducible intro _
    | split
    | dsimp only
    | ((with_reducible apply only_mk) <;> first
        | with_reducible exact fun _ => rfl
        | exact fun hn => absurd (hq (by decide)) hn
        | skip)
    | exact List.Subset.trans (by decide) hq
    | refine pair_only (by assumption) ?_
    | assumption

theorem State.wake_only {s0 : State} {ps : List Part} (s : State) (p : Req → Bool) (hs : s0.changesOnly s ps) (hq : [.pkg, .ports, .req, .coh, .ext, .tier, .xl, .cmp, .cpu, .clv, .atn, .comp, .sec, .log, .adk, .evq] ⊆ ps) : s0.changesOnly (State.wake s p) ps := by
  unfold State.wake
  repeat' first
    | with_reducible assumption
    | with_reducible apply State.serve_only
    | with_reducible apply foldl_only
    | with_reducible apply foldl_fst_only
    | with_reducible apply ite_only
    | with_reducible apply ite_fst_only
    | with_reducible intro _
    | split
    | dsimp only
    | ((with_reducible apply only_mk) <;> first
        | with_reducible exact fun _ => rfl
        | exact fun hn => absurd (hq (by decide)) hn
        | skip)
    | exact List.Subset.trans (by decide) hq
    | refine pair_only (by assumption) ?_
    | assumption

theorem State.wakeStaged_only {s0 : State} {ps : List Part} (s : State) (hs : s0.changesOnly s ps) (hq : [.pkg, .ports, .req, .coh, .ext, .tier, .xl, .cmp, .cpu, .clv, .atn, .comp, .sec, .log, .adk, .evq] ⊆ ps) : s0.changesOnly (State.wakeStaged s) ps := by
  unfold State.wakeStaged
  repeat' first
    | with_reducible assumption
    | with_reducible apply State.wake_only
    | with_reducible apply ite_only
    | with_reducible apply ite_fst_only
    | with_reducible intro _
    | split
    | dsimp only
    | ((with_reducible apply only_mk) <;> first
        | with_reducible exact fun _ => rfl
        | exact fun hn => absurd (hq (by decide)) hn
        | skip)
    | exact List.Subset.trans (by decide) hq
    | refine pair_only (by assumption) ?_
    | assumption

theorem State.wakeBlock_only {s0 : State} {ps : List Part} (s : State) (b : Nat) (hs : s0.changesOnly s ps) (hq : [.pkg, .ports, .req, .coh, .ext, .tier, .xl, .cmp, .cpu, .clv, .atn, .comp, .sec, .log, .adk, .evq] ⊆ ps) : s0.changesOnly (State.wakeBlock s b) ps := by
  unfold State.wakeBlock
  repeat' first
    | with_reducible assumption
    | with_reducible apply State.wake_only
    | with_reducible apply ite_only
    | with_reducible apply ite_fst_only
    | with_reducible intro _
    | split
    | dsimp only
    | ((with_reducible apply only_mk) <;> first
        | with_reducible exact fun _ => rfl
        | exact fun hn => absurd (hq (by decide)) hn
        | skip)
    | exact List.Subset.trans (by decide) hq
    | refine pair_only (by assumption) ?_
    | assumption

theorem State.wakeLine_only {s0 : State} {ps : List Part} (s : State) (line : Nat) (hs : s0.changesOnly s ps) (hq : [.pkg, .ports, .req, .coh, .ext, .tier, .xl, .cmp, .cpu, .clv, .atn, .comp, .sec, .log, .adk, .evq] ⊆ ps) : s0.changesOnly (State.wakeLine s line) ps := by
  unfold State.wakeLine
  repeat' first
    | with_reducible assumption
    | with_reducible apply State.wake_only
    | with_reducible apply ite_only
    | with_reducible apply ite_fst_only
    | with_reducible intro _
    | split
    | dsimp only
    | ((with_reducible apply only_mk) <;> first
        | with_reducible exact fun _ => rfl
        | exact fun hn => absurd (hq (by decide)) hn
        | skip)
    | exact List.Subset.trans (by decide) hq
    | refine pair_only (by assumption) ?_
    | assumption

end Sys2Proof.Machine
end

