-- ==== Sys2Proof/Laws/OnlyTray.lean ====
section
/-! SUPPORT. What every operation of Tray leaves alone. -/

set_option linter.unusedTactic false
set_option linter.unreachableTactic false
set_option linter.unusedVariables false

namespace Sys2Proof.Machine

theorem State.takeSlot_only {s0 : State} {ps : List Part} (s : State) (t : Nat) (hs : s0.changesOnly s ps) (hq : [.tier] ⊆ ps) : s0.changesOnly (State.takeSlot s t).1 ps := by
  unfold State.takeSlot
  repeat' first
    | with_reducible assumption
    | with_reducible apply State.setTray_only
    | with_reducible apply ite_only
    | with_reducible apply ite_fst_only
    | with_reducible intro _
    | split
    | dsimp only
    | ((with_reducible apply only_mk) <;> first
        | with_reducible exact fun _ => rfl
        | exact fun hn => absurd (hq (by decide)) hn
        | skip)
    | exact List.Subset.trans (by decide) hq
    | refine pair_only (by assumption) ?_
    | assumption

theorem State.allocSlot_only {s0 : State} {ps : List Part} (s : State) (tier : Nat) (hs : s0.changesOnly s ps) (hq : [.tier] ⊆ ps) : ∀ r, (State.allocSlot s tier) = some r → s0.changesOnly r.1 ps := by
  intro r hr
  unfold State.allocSlot at hr
  split at hr
  · cases hr
  · cases hr
    exact State.takeSlot_only _ _ hs (List.Subset.trans (by decide) hq)

theorem State.wipeBlock_only {s0 : State} {ps : List Part} (s : State) (tenant : BitVec 10) (t : Nat) (slot : Nat) (i : Nat) (hs : s0.changesOnly s ps) (hq : [.pkg, .ports, .tier, .adk, .evq] ⊆ ps) : s0.changesOnly (State.wipeBlock s tenant t slot i) ps := by
  unfold State.wipeBlock
  repeat' first
    | with_reducible assumption
    | with_reducible apply State.sendTray_only
    | with_reducible apply ite_only
    | with_reducible apply ite_fst_only
    | with_reducible intro _
    | split
    | dsimp only
    | ((with_reducible apply only_mk) <;> first
        | with_reducible exact fun _ => rfl
        | exact fun hn => absurd (hq (by decide)) hn
        | skip)
    | exact List.Subset.trans (by decide) hq
    | refine pair_only (by assumption) ?_
    | assumption

theorem State.releaseSlot_only {s0 : State} {ps : List Part} (s : State) (page : Nat) (t : Nat) (slot : Nat) (overwritten : Bool) (hs : s0.changesOnly s ps) (hq : [.pkg, .ports, .tier, .adk, .evq] ⊆ ps) : s0.changesOnly (State.releaseSlot s page t slot overwritten) ps := by
  unfold State.releaseSlot
  repeat' first
    | with_reducible assumption
    | with_reducible apply State.onTray_only
    | with_reducible apply State.stopZero_only
    | with_reducible apply State.wipeBlock_only
    | with_reducible apply ite_only
    | with_reducible apply ite_fst_only
    | with_reducible intro _
    | split
    | dsimp only
    | ((with_reducible apply only_mk) <;> first
        | with_reducible exact fun _ => rfl
        | exact fun hn => absurd (hq (by decide)) hn
        | skip)
    | exact List.Subset.trans (by decide) hq
    | refine pair_only (by assumption) ?_
    | assumption

theorem State.giveSlot_only {s0 : State} {ps : List Part} (s : State) (page : Nat) (tier : Nat) (hs : s0.changesOnly s ps) (hq : [.tier] ⊆ ps) : ∀ t, (State.giveSlot s page tier) = some t → s0.changesOnly t ps := by
  intro t ht
  unfold State.giveSlot at ht
  split at ht
  · cases ht
  · cases ht
    apply State.onPage_only
    · refine State.allocSlot_only _ _ ?_ ?_ (_, _, _) (by assumption)
      · exact hs
      · exact List.Subset.trans (by decide) hq
    · exact List.Subset.trans (by decide) hq

theorem State.giveSlot_getD_only {s0 : State} {ps : List Part} (s : State) (page tier : Nat) (hs : s0.changesOnly s ps)
    (hq : [.tier] ⊆ ps) : s0.changesOnly ((s.giveSlot page tier).getD s) ps := by
  cases h : s.giveSlot page tier with
  | none => exact hs
  | some t => exact State.giveSlot_only _ _ _ hs hq _ h

theorem State.trayTo_only {s0 : State} {ps : List Part} (s : State) (t : Nat) (n : TrayState) (hs : s0.changesOnly s ps) (hq : [.tier, .adk, .evq] ⊆ ps) : s0.changesOnly (State.trayTo s t n) ps := by
  unfold State.trayTo
  repeat' first
    | with_reducible assumption
    | with_reducible apply State.event_only
    | with_reducible apply State.onTray_only
    | with_reducible apply ite_only
    | with_reducible apply ite_fst_only
    | with_reducible intro _
    | split
    | dsimp only
    | ((with_reducible apply only_mk) <;> first
        | with_reducible exact fun _ => rfl
        | exact fun hn => absurd (hq (by decide)) hn
        | skip)
    | exact List.Subset.trans (by decide) hq
    | refine pair_only (by assumption) ?_
    | assumption

theorem State.hofStop_only {s0 : State} {ps : List Part} (s : State) (e : Nat) (hs : s0.changesOnly s ps) (hq : [.comp] ⊆ ps) : s0.changesOnly (State.hofStop s e) ps := by
  unfold State.hofStop
  repeat' first
    | with_reducible assumption
    | with_reducible apply ite_only
    | with_reducible apply ite_fst_only
    | with_reducible intro _
    | split
    | dsimp only
    | ((with_reducible apply only_mk) <;> first
        | with_reducible exact fun _ => rfl
        | exact fun hn => absurd (hq (by decide)) hn
        | skip)
    | exact List.Subset.trans (by decide) hq
    | refine pair_only (by assumption) ?_
    | assumption

theorem State.extTo_only {s0 : State} {ps : List Part} (s : State) (e : Nat) (n : ExtState) (f : Extent → Extent) (hs : s0.changesOnly s ps) (hq : [.ext, .comp] ⊆ ps) : s0.changesOnly (State.extTo s e n f) ps := by
  unfold State.extTo
  repeat' first
    | with_reducible assumption
    | with_reducible apply State.onExtent_only
    | with_reducible apply State.hofStop_only
    | with_reducible apply ite_only
    | with_reducible apply ite_fst_only
    | with_reducible intro _
    | split
    | dsimp only
    | ((with_reducible apply only_mk) <;> first
        | with_reducible exact fun _ => rfl
        | exact fun hn => absurd (hq (by decide)) hn
        | skip)
    | exact List.Subset.trans (by decide) hq
    | refine pair_only (by assumption) ?_
    | assumption

theorem State.backExtents_only {s0 : State} {ps : List Part} (s : State) (hs : s0.changesOnly s ps) (hq : [.ext, .comp, .adk, .evq] ⊆ ps) : s0.changesOnly (State.backExtents s) ps := by
  unfold State.backExtents
  repeat' first
    | with_reducible assumption
    | with_reducible apply State.event_only
    | with_reducible apply State.extTo_only
    | with_reducible apply foldl_only
    | with_reducible apply foldl_fst_only
    | with_reducible apply ite_only
    | with_reducible apply ite_fst_only
    | with_reducible intro _
    | split
    | dsimp only
    | ((with_reducible apply only_mk) <;> first
        | with_reducible exact fun _ => rfl
        | exact fun hn => absurd (hq (by decide)) hn
        | skip)
    | exact List.Subset.trans (by decide) hq
    | refine pair_only (by assumption) ?_
    | assumption

theorem State.discovered_only {s0 : State} {ps : List Part} (s : State) (t : Nat) (tier : Nat) (slots : Nat) (ident : BitVec 64) (hs : s0.changesOnly s ps) (hq : [.ext, .tier, .comp, .adk, .evq] ⊆ ps) : s0.changesOnly (State.discovered s t tier slots ident) ps := by
  unfold State.discovered
  repeat' first
    | with_reducible assumption
    | with_reducible apply State.event_only
    | with_reducible apply State.onTray_only
    | with_reducible apply State.trayTo_only
    | with_reducible apply State.backExtents_only
    | with_reducible apply ite_only
    | with_reducible apply ite_fst_only
    | with_reducible intro _
    | split
    | dsimp only
    | ((with_reducible apply only_mk) <;> first
        | with_reducible exact fun _ => rfl
        | exact fun hn => absurd (hq (by decide)) hn
        | skip)
    | exact List.Subset.trans (by decide) hq
    | refine pair_only (by assumption) ?_
    | assumption

theorem State.scrubBlock_only {s0 : State} {ps : List Part} (s : State) (page : Nat) (i : Nat) (hs : s0.changesOnly s ps) (hq : [.pkg, .ports, .tier, .adk, .evq] ⊆ ps) : s0.changesOnly (State.scrubBlock s page i) ps := by
  unfold State.scrubBlock
  repeat' first
    | with_reducible assumption
    | with_reducible apply State.sendTray_only
    | with_reducible apply ite_only
    | with_reducible apply ite_fst_only
    | with_reducible intro _
    | split
    | dsimp only
    | ((with_reducible apply only_mk) <;> first
        | with_reducible exact fun _ => rfl
        | exact fun hn => absurd (hq (by decide)) hn
        | skip)
    | exact List.Subset.trans (by decide) hq
    | refine pair_only (by assumption) ?_
    | assumption

theorem State.trayBack_only {s0 : State} {ps : List Part} (s : State) (t : Nat) (hs : s0.changesOnly s ps) (hq : [.pkg, .ports, .req, .coh, .ext, .tier, .xl, .cmp, .cpu, .clv, .atn, .comp, .sec, .log, .adk, .evq] ⊆ ps) : s0.changesOnly (State.trayBack s t) ps := by
  unfold State.trayBack
  repeat' first
    | with_reducible assumption
    | with_reducible apply State.zeroBlock_only
    | with_reducible apply State.wake_only
    | with_reducible apply State.wipeBlock_only
    | with_reducible apply State.scrubBlock_only
    | with_reducible apply foldl_only
    | with_reducible apply foldl_fst_only
    | with_reducible apply ite_only
    | with_reducible apply ite_fst_only
    | with_reducible intro _
    | split
    | dsimp only
    | ((with_reducible apply only_mk) <;> first
        | with_reducible exact fun _ => rfl
        | exact fun hn => absurd (hq (by decide)) hn
        | skip)
    | exact List.Subset.trans (by decide) hq
    | refine pair_only (by assumption) ?_
    | assumption

theorem State.writeBitmap_only {s0 : State} {ps : List Part} (s : State) (t : Nat) (hs : s0.changesOnly s ps) (hq : [.pkg, .ports, .tier, .adk, .evq] ⊆ ps) : s0.changesOnly (State.writeBitmap s t) ps := by
  unfold State.writeBitmap
  repeat' first
    | with_reducible assumption
    | with_reducible apply State.onTray_only
    | with_reducible apply State.sendTray_only
    | with_reducible apply ite_only
    | with_reducible apply ite_fst_only
    | with_reducible intro _
    | split
    | dsimp only
    | ((with_reducible apply only_mk) <;> first
        | with_reducible exact fun _ => rfl
        | exact fun hn => absurd (hq (by decide)) hn
        | skip)
    | exact List.Subset.trans (by decide) hq
    | refine pair_only (by assumption) ?_
    | assumption

theorem State.readDescriptor_only {s0 : State} {ps : List Part} (s : State) (t : Nat) (hs : s0.changesOnly s ps) (hq : [.pkg, .ports, .tier, .adk, .evq] ⊆ ps) : s0.changesOnly (State.readDescriptor s t) ps := by
  unfold State.readDescriptor
  repeat' first
    | with_reducible assumption
    | with_reducible apply State.sendTray_only
    | with_reducible apply ite_only
    | with_reducible apply ite_fst_only
    | with_reducible intro _
    | split
    | dsimp only
    | ((with_reducible apply only_mk) <;> first
        | with_reducible exact fun _ => rfl
        | exact fun hn => absurd (hq (by decide)) hn
        | skip)
    | exact List.Subset.trans (by decide) hq
    | refine pair_only (by assumption) ?_
    | assumption

theorem State.trayPortOpen_only {s0 : State} {ps : List Part} (s : State) (p : Nat) (peer : BitVec 64) (hs : s0.changesOnly s ps) (hq : [.pkg, .ports, .tier, .adk, .evq] ⊆ ps) : s0.changesOnly (State.trayPortOpen s p peer) ps := by
  unfold State.trayPortOpen
  repeat' first
    | with_reducible assumption
    | with_reducible apply State.event_only
    | with_reducible apply State.onTray_only
    | with_reducible apply State.writeBitmap_only
    | with_reducible apply State.readDescriptor_only
    | with_reducible apply ite_only
    | with_reducible apply ite_fst_only
    | with_reducible intro _
    | split
    | dsimp only
    | ((with_reducible apply only_mk) <;> first
        | with_reducible exact fun _ => rfl
        | exact fun hn => absurd (hq (by decide)) hn
        | skip)
    | exact List.Subset.trans (by decide) hq
    | refine pair_only (by assumption) ?_
    | assumption

theorem State.losePage_only {s0 : State} {ps : List Part} (s : State) (p : Nat) (hs : s0.changesOnly s ps) (hq : [.tier] ⊆ ps) : s0.changesOnly (State.losePage s p) ps := by
  unfold State.losePage
  repeat' first
    | with_reducible assumption
    | with_reducible apply State.onPage_only
    | with_reducible apply ite_only
    | with_reducible apply ite_fst_only
    | with_reducible intro _
    | split
    | dsimp only
    | ((with_reducible apply only_mk) <;> first
        | with_reducible exact fun _ => rfl
        | exact fun hn => absurd (hq (by decide)) hn
        | skip)
    | exact List.Subset.trans (by decide) hq
    | refine pair_only (by assumption) ?_
    | assumption

theorem State.pinMove_only {s0 : State} {ps : List Part} (s : State) (page : Nat) (hs : s0.changesOnly s ps) (hq : [.tier] ⊆ ps) : s0.changesOnly (State.pinMove s page) ps := by
  unfold State.pinMove
  repeat' first
    | with_reducible assumption
    | with_reducible apply ite_only
    | with_reducible apply ite_fst_only
    | with_reducible intro _
    | split
    | dsimp only
    | ((with_reducible apply only_mk) <;> first
        | with_reducible exact fun _ => rfl
        | exact fun hn => absurd (hq (by decide)) hn
        | skip)
    | exact List.Subset.trans (by decide) hq
    | refine pair_only (by assumption) ?_
    | assumption

theorem State.abortMove_only {s0 : State} {ps : List Part} (s : State) (page : Nat) (hs : s0.changesOnly s ps) (hq : [.pkg, .ports, .tier, .adk, .evq] ⊆ ps) : s0.changesOnly (State.abortMove s page) ps := by
  unfold State.abortMove
  repeat' first
    | with_reducible assumption
    | with_reducible apply State.onPage_only
    | with_reducible apply State.releaseSlot_only
    | with_reducible apply State.pinMove_only
    | with_reducible apply ite_only
    | with_reducible apply ite_fst_only
    | with_reducible intro _
    | split
    | dsimp only
    | ((with_reducible apply only_mk) <;> first
        | with_reducible exact fun _ => rfl
        | exact fun hn => absurd (hq (by decide)) hn
        | skip)
    | exact List.Subset.trans (by decide) hq
    | refine pair_only (by assumption) ?_
    | assumption

theorem State.trayLeaves_only {s0 : State} {ps : List Part} (s : State) (t : Nat) (hs : s0.changesOnly s ps) (hq : [.pkg, .ports, .tier, .adk, .evq] ⊆ ps) : s0.changesOnly (State.trayLeaves s t) ps := by
  unfold State.trayLeaves
  repeat' first
    | with_reducible assumption
    | with_reducible apply State.abortMove_only
    | with_reducible apply foldl_only
    | with_reducible apply foldl_fst_only
    | with_reducible apply ite_only
    | with_reducible apply ite_fst_only
    | with_reducible intro _
    | split
    | dsimp only
    | ((with_reducible apply only_mk) <;> first
        | with_reducible exact fun _ => rfl
        | exact fun hn => absurd (hq (by decide)) hn
        | skip)
    | exact List.Subset.trans (by decide) hq
    | refine pair_only (by assumption) ?_
    | assumption

theorem State.lostWrites_only {s0 : State} {ps : List Part} (s : State) (t : Nat) (hs : s0.changesOnly s ps) (hq : [.tier, .log, .adk, .evq] ⊆ ps) : s0.changesOnly (State.lostWrites s t) ps := by
  unfold State.lostWrites
  repeat' first
    | with_reducible assumption
    | with_reducible apply State.lostLines_only
    | with_reducible apply foldl_only
    | with_reducible apply foldl_fst_only
    | with_reducible apply ite_only
    | with_reducible apply ite_fst_only
    | with_reducible intro _
    | split
    | dsimp only
    | ((with_reducible apply only_mk) <;> first
        | with_reducible exact fun _ => rfl
        | exact fun hn => absurd (hq (by decide)) hn
        | skip)
    | exact List.Subset.trans (by decide) hq
    | refine pair_only (by assumption) ?_
    | assumption

theorem State.trayGone_only {s0 : State} {ps : List Part} (s : State) (t : Nat) (hs : s0.changesOnly s ps) (hq : [.pkg, .ports, .tier, .log, .adk, .evq] ⊆ ps) : s0.changesOnly (State.trayGone s t) ps := by
  unfold State.trayGone
  repeat' first
    | with_reducible assumption
    | with_reducible apply State.trayTo_only
    | with_reducible apply State.trayLeaves_only
    | with_reducible apply State.lostWrites_only
    | with_reducible apply ite_only
    | with_reducible apply ite_fst_only
    | with_reducible intro _
    | split
    | dsimp only
    | ((with_reducible apply only_mk) <;> first
        | with_reducible exact fun _ => rfl
        | exact fun hn => absurd (hq (by decide)) hn
        | skip)
    | exact List.Subset.trans (by decide) hq
    | refine pair_only (by assumption) ?_
    | assumption

theorem State.trayRetired_only {s0 : State} {ps : List Part} (s : State) (t : Nat) (hs : s0.changesOnly s ps) (hq : [.pkg, .ports, .req, .coh, .ext, .tier, .xl, .cmp, .cpu, .clv, .atn, .comp, .sec, .log, .adk, .evq] ⊆ ps) : s0.changesOnly (State.trayRetired s t) ps := by
  unfold State.trayRetired
  repeat' first
    | with_reducible assumption
    | with_reducible apply State.logE_only
    | with_reducible apply State.onTray_only
    | with_reducible apply State.wake_only
    | with_reducible apply State.trayTo_only
    | with_reducible apply State.trayLeaves_only
    | with_reducible apply ite_only
    | with_reducible apply ite_fst_only
    | with_reducible intro _
    | split
    | dsimp only
    | ((with_reducible apply only_mk) <;> first
        | with_reducible exact fun _ => rfl
        | exact fun hn => absurd (hq (by decide)) hn
        | skip)
    | exact List.Subset.trans (by decide) hq
    | refine pair_only (by assumption) ?_
    | assumption

theorem State.holdPage_only {s0 : State} {ps : List Part} (s : State) (page : Nat) (reason : Nat) (hs : s0.changesOnly s ps) (hq : [.tier, .xl, .log, .adk, .evq] ⊆ ps) : s0.changesOnly (State.holdPage s page reason) ps := by
  unfold State.holdPage
  repeat' first
    | with_reducible assumption
    | with_reducible apply State.logE_only
    | with_reducible apply State.countTrn_only
    | with_reducible apply State.setPage_only
    | with_reducible apply ite_only
    | with_reducible apply ite_fst_only
    | with_reducible intro _
    | split
    | dsimp only
    | ((with_reducible apply only_mk) <;> first
        | with_reducible exact fun _ => rfl
        | exact fun hn => absurd (hq (by decide)) hn
        | skip)
    | exact List.Subset.trans (by decide) hq
    | refine pair_only (by assumption) ?_
    | assumption

theorem State.queueMove_only {s0 : State} {ps : List Part} (s : State) (m : Move) (hs : s0.changesOnly s ps) (hq : [.tier] ⊆ ps) : s0.changesOnly (State.queueMove s m) ps := by
  unfold State.queueMove
  repeat' first
    | with_reducible assumption
    | with_reducible apply ite_only
    | with_reducible apply ite_fst_only
    | with_reducible intro _
    | split
    | dsimp only
    | ((with_reducible apply only_mk) <;> first
        | with_reducible exact fun _ => rfl
        | exact fun hn => absurd (hq (by decide)) hn
        | skip)
    | exact List.Subset.trans (by decide) hq
    | refine pair_only (by assumption) ?_
    | assumption

theorem State.decidePage_only {s0 : State} {ps : List Part} (s : State) (page : Nat) (hs : s0.changesOnly s ps) (hq : [.tier, .xl, .log, .adk, .evq] ⊆ ps) : s0.changesOnly (State.decidePage s page) ps := by
  unfold State.decidePage
  repeat' first
    | with_reducible assumption
    | with_reducible apply State.holdPage_only
    | with_reducible apply State.queueMove_only
    | with_reducible apply foldl_only
    | with_reducible apply foldl_fst_only
    | with_reducible apply ite_only
    | with_reducible apply ite_fst_only
    | with_reducible intro _
    | split
    | dsimp only
    | ((with_reducible apply only_mk) <;> first
        | with_reducible exact fun _ => rfl
        | exact fun hn => absurd (hq (by decide)) hn
        | skip)
    | exact List.Subset.trans (by decide) hq
    | refine pair_only (by assumption) ?_
    | assumption

theorem State.copyBlock_only {s0 : State} {ps : List Part} (s : State) (page : Nat) (i : Nat) (hs : s0.changesOnly s ps) (hq : [.pkg, .ports, .tier, .adk, .evq] ⊆ ps) : s0.changesOnly (State.copyBlock s page i) ps := by
  unfold State.copyBlock
  repeat' first
    | with_reducible assumption
    | with_reducible apply State.sendTray_only
    | with_reducible apply ite_only
    | with_reducible apply ite_fst_only
    | with_reducible intro _
    | split
    | dsimp only
    | ((with_reducible apply only_mk) <;> first
        | with_reducible exact fun _ => rfl
        | exact fun hn => absurd (hq (by decide)) hn
        | skip)
    | exact List.Subset.trans (by decide) hq
    | refine pair_only (by assumption) ?_
    | assumption

theorem State.relocBlock_only {s0 : State} {ps : List Part} (s : State) (page : Nat) (i : Nat) (hs : s0.changesOnly s ps) (hq : [.pkg, .ports, .tier, .adk, .evq] ⊆ ps) : s0.changesOnly (State.relocBlock s page i) ps := by
  unfold State.relocBlock
  repeat' first
    | with_reducible assumption
    | with_reducible apply State.sendTray_only
    | with_reducible apply foldl_only
    | with_reducible apply foldl_fst_only
    | with_reducible apply ite_only
    | with_reducible apply ite_fst_only
    | with_reducible intro _
    | split
    | dsimp only
    | ((with_reducible apply only_mk) <;> first
        | with_reducible exact fun _ => rfl
        | exact fun hn => absurd (hq (by decide)) hn
        | skip)
    | exact List.Subset.trans (by decide) hq
    | refine pair_only (by assumption) ?_
    | assumption

theorem State.beginMove_only {s0 : State} {ps : List Part} (s : State) (m : Move) (hs : s0.changesOnly s ps) (hq : [.pkg, .ports, .tier, .adk, .evq] ⊆ ps) : s0.changesOnly (State.beginMove s m) ps := by
  unfold State.beginMove
  repeat' first
    | with_reducible assumption
    | with_reducible apply State.onPage_only
    | with_reducible apply State.onTray_only
    | with_reducible apply State.stopZero_only
    | refine State.allocSlot_only _ _ ?_ ?_ (_, _, _) (by assumption)
    | with_reducible apply State.copyBlock_only
    | with_reducible apply ite_only
    | with_reducible apply ite_fst_only
    | with_reducible intro _
    | split
    | dsimp only
    | ((with_reducible apply only_mk) <;> first
        | with_reducible exact fun _ => rfl
        | exact fun hn => absurd (hq (by decide)) hn
        | skip)
    | exact List.Subset.trans (by decide) hq
    | refine pair_only (by assumption) ?_
    | assumption

theorem State.endMove_only {s0 : State} {ps : List Part} (s : State) (m : Move) (t : Nat) (sl : Nat) (hs : s0.changesOnly s ps) (hq : [.pkg, .ports, .tier, .xl, .adk, .evq] ⊆ ps) : s0.changesOnly (State.endMove s m t sl) ps := by
  unfold State.endMove
  repeat' first
    | with_reducible assumption
    | with_reducible apply State.countTrn_only
    | with_reducible apply State.setPage_only
    | with_reducible apply State.releaseSlot_only
    | with_reducible apply State.pinMove_only
    | with_reducible apply ite_only
    | with_reducible apply ite_fst_only
    | with_reducible intro _
    | split
    | dsimp only
    | ((with_reducible apply only_mk) <;> first
        | with_reducible exact fun _ => rfl
        | exact fun hn => absurd (hq (by decide)) hn
        | skip)
    | exact List.Subset.trans (by decide) hq
    | refine pair_only (by assumption) ?_
    | assumption

theorem State.openLines_only {s0 : State} {ps : List Part} (s : State) (b : Nat) (first : Nat) (n : Nat) (tenant : BitVec 10) (bad : BitVec 32) (pl : List Byte) (hs : s0.changesOnly s ps) (hq : [.sec, .log, .adk, .evq] ⊆ ps) : s0.changesOnly (State.openLines s b first n tenant bad pl).1 ps := by
  unfold State.openLines
  repeat' first
    | with_reducible assumption
    | with_reducible apply State.countSec_only
    | with_reducible apply State.notePoison_only
    | with_reducible apply foldl_only
    | with_reducible apply foldl_fst_only
    | with_reducible apply ite_only
    | with_reducible apply ite_fst_only
    | with_reducible intro _
    | split
    | dsimp only
    | ((with_reducible apply only_mk) <;> first
        | with_reducible exact fun _ => rfl
        | exact fun hn => absurd (hq (by decide)) hn
        | skip)
    | exact List.Subset.trans (by decide) hq
    | refine pair_only (by assumption) ?_
    | assumption

theorem State.giveLines_only {s0 : State} {ps : List Part} (s : State) (b : Nat) (ls : List (Nat × List Byte × Bool)) (hs : s0.changesOnly s ps) (hq : [.req] ⊆ ps) : s0.changesOnly (State.giveLines s b ls) ps := by
  unfold State.giveLines
  repeat' first
    | with_reducible assumption
    | with_reducible apply foldl_only
    | with_reducible apply foldl_fst_only
    | with_reducible apply ite_only
    | with_reducible apply ite_fst_only
    | with_reducible intro _
    | split
    | dsimp only
    | ((with_reducible apply only_mk) <;> first
        | with_reducible exact fun _ => rfl
        | exact fun hn => absurd (hq (by decide)) hn
        | skip)
    | exact List.Subset.trans (by decide) hq
    | refine pair_only (by assumption) ?_
    | assumption

theorem State.fillDone_only {s0 : State} {ps : List Part} (s : State) (b : Nat) (ls : List (List Byte × Bool)) (hs : s0.changesOnly s ps) (hq : [.pkg, .ports, .req, .coh, .ext, .tier, .xl, .cmp, .cpu, .clv, .atn, .comp, .sec, .log, .adk, .evq] ⊆ ps) : s0.changesOnly (State.fillDone s b ls) ps := by
  unfold State.fillDone
  repeat' first
    | with_reducible assumption
    | with_reducible apply State.fillBlock_only
    | with_reducible apply State.wakeBlock_only
    | with_reducible apply State.giveLines_only
    | with_reducible apply ite_only
    | with_reducible apply ite_fst_only
    | with_reducible intro _
    | split
    | dsimp only
    | ((with_reducible apply only_mk) <;> first
        | with_reducible exact fun _ => rfl
        | exact fun hn => absurd (hq (by decide)) hn
        | skip)
    | exact List.Subset.trans (by decide) hq
    | refine pair_only (by assumption) ?_
    | assumption

theorem State.refillLine_only {s0 : State} {ps : List Part} (s : State) (line : Nat) (v : List Byte × Bool) (hs : s0.changesOnly s ps) (hq : [.pkg, .ports, .req, .coh, .ext, .tier, .xl, .cmp, .cpu, .clv, .atn, .comp, .sec, .log, .adk, .evq] ⊆ ps) : s0.changesOnly (State.refillLine s line v) ps := by
  unfold State.refillLine
  repeat' first
    | with_reducible assumption
    | with_reducible apply State.onPage_only
    | with_reducible apply State.makeWay_only
    | with_reducible apply State.touch_only
    | with_reducible apply State.placeLines_only
    | with_reducible apply State.wakeBlock_only
    | with_reducible apply State.giveLines_only
    | with_reducible apply ite_only
    | with_reducible apply ite_fst_only
    | with_reducible intro _
    | split
    | dsimp only
    | ((with_reducible apply only_mk) <;> first
        | with_reducible exact fun _ => rfl
        | exact fun hn => absurd (hq (by decide)) hn
        | skip)
    | exact List.Subset.trans (by decide) hq
    | refine pair_only (by assumption) ?_
    | assumption

theorem State.lineWritten_only {s0 : State} {ps : List Part} (s : State) (n : Nat) (line : Nat) (st : BitVec 6) (hs : s0.changesOnly s ps) (hq : [.pkg, .ports, .req, .coh, .ext, .tier, .xl, .cmp, .cpu, .clv, .atn, .comp, .sec, .log, .adk, .evq] ⊆ ps) : s0.changesOnly (State.lineWritten s n line st) ps := by
  unfold State.lineWritten
  repeat' first
    | with_reducible assumption
    | with_reducible apply State.putReq_only
    | with_reducible apply State.finish_only
    | with_reducible apply State.countWarm_only
    | with_reducible apply State.tryStore_only
    | with_reducible apply State.wakeBlock_only
    | with_reducible apply ite_only
    | with_reducible apply ite_fst_only
    | with_reducible intro _
    | split
    | dsimp only
    | ((with_reducible apply only_mk) <;> first
        | with_reducible exact fun _ => rfl
        | exact fun hn => absurd (hq (by decide)) hn
        | skip)
    | exact List.Subset.trans (by decide) hq
    | refine pair_only (by assumption) ?_
    | assumption

theorem State.trayDone_only {s0 : State} {ps : List Part} (s : State) (q : TrayReq) (st : BitVec 6) (tenant : BitVec 10) (bad : BitVec 32) (pl : List Byte) (hs : s0.changesOnly s ps) (hq : [.pkg, .ports, .req, .coh, .ext, .tier, .xl, .cmp, .cpu, .clv, .atn, .comp, .sec, .log, .adk, .evq] ⊆ ps) : s0.changesOnly (State.trayDone s q st tenant bad pl) ps := by
  unfold State.trayDone
  repeat' first
    | with_reducible assumption
    | with_reducible apply State.event_only
    | with_reducible apply State.onExtent_only
    | with_reducible apply State.onPage_only
    | with_reducible apply State.onTray_only
    | with_reducible apply State.sendTray_only
    | with_reducible apply State.sendHeld_only
    | with_reducible apply State.zeroBlock_only
    | with_reducible apply State.stopZero_only
    | with_reducible apply State.lostLines_only
    | with_reducible apply State.putReq_only
    | with_reducible apply State.serve_only
    | with_reducible apply State.wake_only
    | with_reducible apply State.wakeBlock_only
    | with_reducible apply State.wipeBlock_only
    | with_reducible apply State.trayTo_only
    | with_reducible apply State.discovered_only
    | with_reducible apply State.scrubBlock_only
    | with_reducible apply State.trayBack_only
    | with_reducible apply State.writeBitmap_only
    | with_reducible apply State.trayGone_only
    | with_reducible apply State.copyBlock_only
    | with_reducible apply State.relocBlock_only
    | with_reducible apply State.openLines_only
    | with_reducible apply State.fillDone_only
    | with_reducible apply State.refillLine_only
    | with_reducible apply State.lineWritten_only
    | with_reducible apply foldl_only
    | with_reducible apply foldl_fst_only
    | with_reducible apply ite_only
    | with_reducible apply ite_fst_only
    | with_reducible intro _
    | split
    | dsimp only
    | ((with_reducible apply only_mk) <;> first
        | with_reducible exact fun _ => rfl
        | exact fun hn => absurd (hq (by decide)) hn
        | skip)
    | exact List.Subset.trans (by decide) hq
    | refine pair_only (by assumption) ?_
    | assumption

theorem State.trayAnswer_only {s0 : State} {ps : List Part} (s : State) (q : TrayReq) (st : BitVec 6) (tenant : BitVec 10) (bad : BitVec 32) (pl : List Byte) (hs : s0.changesOnly s ps) (hq : [.pkg, .ports, .req, .coh, .ext, .tier, .xl, .cmp, .cpu, .clv, .atn, .comp, .sec, .log, .adk, .evq] ⊆ ps) : s0.changesOnly (State.trayAnswer s q st tenant bad pl) ps := by
  unfold State.trayAnswer
  repeat' first
    | with_reducible assumption
    | with_reducible apply State.tagFree_only
    | with_reducible apply State.trayDone_only
    | with_reducible apply ite_only
    | with_reducible apply ite_fst_only
    | with_reducible intro _
    | split
    | dsimp only
    | ((with_reducible apply only_mk) <;> first
        | with_reducible exact fun _ => rfl
        | exact fun hn => absurd (hq (by decide)) hn
        | skip)
    | exact List.Subset.trans (by decide) hq
    | refine pair_only (by assumption) ?_
    | assumption

end Sys2Proof.Machine
end

