-- ==== Sys2Proof/Laws/OnlyAccess.lean ====
section
/-! SUPPORT. What every operation of Access leaves alone. -/

set_option linter.unusedTactic false
set_option linter.unreachableTactic false
set_option linter.unusedVariables false

namespace Sys2Proof.Machine

theorem State.tlbPut_only {s0 : State} {ps : List Part} (s : State) (key : Nat) (e : TlbEntry) (hs : s0.changesOnly s ps) (hq : [.xl] ⊆ ps) : s0.changesOnly (State.tlbPut s key e) ps := by
  unfold State.tlbPut
  repeat' first
    | with_reducible assumption
    | with_reducible apply ite_only
    | with_reducible apply ite_fst_only
    | with_reducible intro _
    | split
    | dsimp only
    | ((with_reducible apply only_mk) <;> first
        | with_reducible exact fun _ => rfl
        | exact fun hn => absurd (hq (by decide)) hn
        | skip)
    | exact List.Subset.trans (by decide) hq
    | refine pair_only (by assumption) ?_
    | assumption

theorem State.walkPut_only {s0 : State} {ps : List Part} (s : State) (unit : Nat) (e : WalkEntry) (hs : s0.changesOnly s ps) (hq : [.xl] ⊆ ps) : s0.changesOnly (State.walkPut s unit e) ps := by
  unfold State.walkPut
  repeat' first
    | with_reducible assumption
    | with_reducible apply ite_only
    | with_reducible apply ite_fst_only
    | with_reducible intro _
    | split
    | dsimp only
    | ((with_reducible apply only_mk) <;> first
        | with_reducible exact fun _ => rfl
        | exact fun hn => absurd (hq (by decide)) hn
        | skip)
    | exact List.Subset.trans (by decide) hq
    | refine pair_only (by assumption) ?_
    | assumption

theorem State.walkFault_only {s0 : State} {ps : List Part} (s : State) (tenant : BitVec 10) (tva : Nat) (hs : s0.changesOnly s ps) (hq : [.xl, .log, .adk, .evq] ⊆ ps) : s0.changesOnly (State.walkFault s tenant tva) ps := by
  unfold State.walkFault
  repeat' first
    | with_reducible assumption
    | with_reducible apply State.logE_only
    | with_reducible apply State.countTrn_only
    | with_reducible apply ite_only
    | with_reducible apply ite_fst_only
    | with_reducible intro _
    | split
    | dsimp only
    | ((with_reducible apply only_mk) <;> first
        | with_reducible exact fun _ => rfl
        | exact fun hn => absurd (hq (by decide)) hn
        | skip)
    | exact List.Subset.trans (by decide) hq
    | refine pair_only (by assumption) ?_
    | assumption

theorem State.sendOn_only {s0 : State} {ps : List Part} (s : State) (r : Req) (p : Nat) (phys : Bool) (hs : s0.changesOnly s ps) (hq : [.pkg, .ports, .req, .xl, .cpu, .clv, .atn, .sec, .log, .adk, .evq] ⊆ ps) : s0.changesOnly (State.sendOn s r p phys) ps := by
  unfold State.sendOn
  repeat' first
    | with_reducible assumption
    | with_reducible apply State.onLink_only
    | with_reducible apply State.sendFrom_only
    | with_reducible apply State.putReq_only
    | with_reducible apply State.finish_only
    | with_reducible apply ite_only
    | with_reducible apply ite_fst_only
    | with_reducible intro _
    | split
    | dsimp only
    | ((with_reducible apply only_mk) <;> first
        | with_reducible exact fun _ => rfl
        | exact fun hn => absurd (hq (by decide)) hn
        | skip)
    | exact List.Subset.trans (by decide) hq
    | refine pair_only (by assumption) ?_
    | assumption

theorem State.turnBack_only {s0 : State} {ps : List Part} (s : State) (r : Req) (st : BitVec 6) (hs : s0.changesOnly s ps) (hq : [.pkg, .ports, .req, .xl, .cpu, .clv, .atn, .comp, .sec, .log, .adk, .evq] ⊆ ps) : s0.changesOnly (State.turnBack s r st) ps := by
  unfold State.turnBack
  repeat' first
    | with_reducible assumption
    | with_reducible apply State.countCmpo_only
    | with_reducible apply State.finish_only
    | with_reducible apply ite_only
    | with_reducible apply ite_fst_only
    | with_reducible intro _
    | split
    | dsimp only
    | ((with_reducible apply only_mk) <;> first
        | with_reducible exact fun _ => rfl
        | exact fun hn => absurd (hq (by decide)) hn
        | skip)
    | exact List.Subset.trans (by decide) hq
    | refine pair_only (by assumption) ?_
    | assumption

theorem State.route_only {s0 : State} {ps : List Part} (s : State) (n : Nat) (hs : s0.changesOnly s ps) (hq : [.pkg, .ports, .req, .coh, .ext, .tier, .xl, .cmp, .cpu, .clv, .atn, .comp, .sec, .log, .adk, .evq] ⊆ ps) : s0.changesOnly (State.route s n) ps := by
  unfold State.route
  repeat' first
    | with_reducible assumption
    | with_reducible apply State.countExt_only
    | with_reducible apply State.countCmpo_only
    | with_reducible apply State.putReq_only
    | with_reducible apply State.finish_only
    | with_reducible apply State.serve_only
    | with_reducible apply State.sendOn_only
    | with_reducible apply State.turnBack_only
    | with_reducible apply ite_only
    | with_reducible apply ite_fst_only
    | with_reducible intro _
    | split
    | dsimp only
    | ((with_reducible apply only_mk) <;> first
        | with_reducible exact fun _ => rfl
        | exact fun hn => absurd (hq (by decide)) hn
        | skip)
    | exact List.Subset.trans (by decide) hq
    | refine pair_only (by assumption) ?_
    | assumption

theorem State.proceed_only {s0 : State} {ps : List Part} (s : State) (n : Nat) (x : WalkEnd) (hs : s0.changesOnly s ps) (hq : [.pkg, .ports, .req, .coh, .ext, .tier, .xl, .cmp, .cpu, .clv, .atn, .comp, .sec, .log, .adk, .evq] ⊆ ps) : s0.changesOnly (State.proceed s n x) ps := by
  unfold State.proceed
  repeat' first
    | with_reducible assumption
    | with_reducible apply State.putReq_only
    | with_reducible apply State.finish_only
    | with_reducible apply State.turnBack_only
    | with_reducible apply State.route_only
    | with_reducible apply ite_only
    | with_reducible apply ite_fst_only
    | with_reducible intro _
    | split
    | dsimp only
    | ((with_reducible apply only_mk) <;> first
        | with_reducible exact fun _ => rfl
        | exact fun hn => absurd (hq (by decide)) hn
        | skip)
    | exact List.Subset.trans (by decide) hq
    | refine pair_only (by assumption) ?_
    | assumption

theorem State.readEntry_only {s0 : State} {ps : List Part} (s : State) (w : Walk) (hs : s0.changesOnly s ps) (hq : [.pkg, .ports, .req, .coh, .ext, .tier, .xl, .cmp, .cpu, .clv, .atn, .comp, .sec, .log, .adk, .evq] ⊆ ps) : s0.changesOnly (State.readEntry s w) ps := by
  unfold State.readEntry
  repeat' first
    | with_reducible assumption
    | with_reducible apply State.addReq_only
    | with_reducible apply State.serve_only
    | with_reducible apply State.route_only
    | with_reducible apply ite_only
    | with_reducible apply ite_fst_only
    | with_reducible intro _
    | split
    | dsimp only
    | ((with_reducible apply only_mk) <;> first
        | with_reducible exact fun _ => rfl
        | exact fun hn => absurd (hq (by decide)) hn
        | skip)
    | exact List.Subset.trans (by decide) hq
    | refine pair_only (by assumption) ?_
    | assumption

theorem State.startWalk_only {s0 : State} {ps : List Part} (s : State) (unit : Nat) (core : Option Nat) (tenant : BitVec 10) (tva : Nat) (probe : Option (Nat × Nat)) (hs : s0.changesOnly s ps) (hq : [.pkg, .ports, .req, .coh, .ext, .tier, .xl, .cmp, .cpu, .clv, .atn, .comp, .sec, .log, .adk, .evq] ⊆ ps) : s0.changesOnly (State.startWalk s unit core tenant tva probe).1 ps := by
  unfold State.startWalk
  repeat' first
    | with_reducible assumption
    | with_reducible apply State.countTrn_only
    | with_reducible apply State.readEntry_only
    | with_reducible apply ite_only
    | with_reducible apply ite_fst_only
    | with_reducible intro _
    | split
    | dsimp only
    | ((with_reducible apply only_mk) <;> first
        | with_reducible exact fun _ => rfl
        | exact fun hn => absurd (hq (by decide)) hn
        | skip)
    | exact List.Subset.trans (by decide) hq
    | refine pair_only (by assumption) ?_
    | assumption

theorem State.beginWalks_only {s0 : State} {ps : List Part} (s : State) (unit : Nat) (hs : s0.changesOnly s ps) (hq : [.pkg, .ports, .req, .coh, .ext, .tier, .xl, .cmp, .cpu, .clv, .atn, .comp, .sec, .log, .adk, .evq] ⊆ ps) : s0.changesOnly (State.beginWalks s unit) ps := by
  unfold State.beginWalks
  repeat' first
    | with_reducible assumption
    | with_reducible apply State.readEntry_only
    | with_reducible apply foldl_only
    | with_reducible apply foldl_fst_only
    | with_reducible apply ite_only
    | with_reducible apply ite_fst_only
    | with_reducible intro _
    | split
    | dsimp only
    | ((with_reducible apply only_mk) <;> first
        | with_reducible exact fun _ => rfl
        | exact fun hn => absurd (hq (by decide)) hn
        | skip)
    | exact List.Subset.trans (by decide) hq
    | refine pair_only (by assumption) ?_
    | assumption

theorem State.translate_only {s0 : State} {ps : List Part} (s : State) (n : Nat) (unit : Nat) (core : Option Nat) (hs : s0.changesOnly s ps) (hq : [.pkg, .ports, .req, .coh, .ext, .tier, .xl, .cmp, .cpu, .clv, .atn, .comp, .sec, .log, .adk, .evq] ⊆ ps) : s0.changesOnly (State.translate s n unit core) ps := by
  unfold State.translate
  repeat' first
    | with_reducible assumption
    | with_reducible apply State.putReq_only
    | with_reducible apply State.proceed_only
    | with_reducible apply State.startWalk_only
    | with_reducible apply ite_only
    | with_reducible apply ite_fst_only
    | with_reducible intro _
    | split
    | dsimp only
    | ((with_reducible apply only_mk) <;> first
        | with_reducible exact fun _ => rfl
        | exact fun hn => absurd (hq (by decide)) hn
        | skip)
    | exact List.Subset.trans (by decide) hq
    | refine pair_only (by assumption) ?_
    | assumption

theorem State.endWalk_only {s0 : State} {ps : List Part} (s : State) (w : Walk) (x : WalkEnd) (hs : s0.changesOnly s ps) (hq : [.pkg, .ports, .req, .coh, .ext, .tier, .xl, .cmp, .cpu, .clv, .atn, .comp, .sec, .log, .adk, .evq] ⊆ ps) : s0.changesOnly (State.endWalk s w x) ps := by
  unfold State.endWalk
  repeat' first
    | with_reducible assumption
    | with_reducible apply State.wakeStaged_only
    | with_reducible apply State.tlbPut_only
    | with_reducible apply State.walkFault_only
    | with_reducible apply State.proceed_only
    | with_reducible apply State.beginWalks_only
    | with_reducible apply foldl_only
    | with_reducible apply foldl_fst_only
    | with_reducible apply ite_only
    | with_reducible apply ite_fst_only
    | with_reducible intro _
    | split
    | dsimp only
    | ((with_reducible apply only_mk) <;> first
        | with_reducible exact fun _ => rfl
        | exact fun hn => absurd (hq (by decide)) hn
        | skip)
    | exact List.Subset.trans (by decide) hq
    | refine pair_only (by assumption) ?_
    | assumption

theorem State.walkRead_only {s0 : State} {ps : List Part} (s : State) (w : Walk) (st : BitVec 6) (bs : List Byte) (hs : s0.changesOnly s ps) (hq : [.pkg, .ports, .req, .coh, .ext, .tier, .xl, .cmp, .cpu, .clv, .atn, .comp, .sec, .log, .adk, .evq] ⊆ ps) : s0.changesOnly (State.walkRead s w st bs) ps := by
  unfold State.walkRead
  repeat' first
    | with_reducible assumption
    | with_reducible apply State.walkPut_only
    | with_reducible apply State.readEntry_only
    | with_reducible apply State.endWalk_only
    | with_reducible apply ite_only
    | with_reducible apply ite_fst_only
    | with_reducible intro _
    | split
    | dsimp only
    | ((with_reducible apply only_mk) <;> first
        | with_reducible exact fun _ => rfl
        | exact fun hn => absurd (hq (by decide)) hn
        | skip)
    | exact List.Subset.trans (by decide) hq
    | refine pair_only (by assumption) ?_
    | assumption

theorem State.take_only {s0 : State} {ps : List Part} (s : State) (o : Origin) (f : Frame) (unit : Nat) (core : Option Nat) (hops : Nat) (hs : s0.changesOnly s ps) (hq : [.pkg, .ports, .req, .coh, .ext, .tier, .xl, .cmp, .cpu, .clv, .atn, .comp, .sec, .log, .adk, .evq] ⊆ ps) : s0.changesOnly (State.take s o f unit core hops) ps := by
  unfold State.take
  repeat' first
    | with_reducible assumption
    | with_reducible apply State.putReq_only
    | with_reducible apply State.addReq_only
    | with_reducible apply State.finishOne_only
    | with_reducible apply State.finish_only
    | with_reducible apply State.sendOn_only
    | with_reducible apply State.route_only
    | with_reducible apply State.translate_only
    | with_reducible apply ite_only
    | with_reducible apply ite_fst_only
    | with_reducible intro _
    | split
    | dsimp only
    | ((with_reducible apply only_mk) <;> first
        | with_reducible exact fun _ => rfl
        | exact fun hn => absurd (hq (by decide)) hn
        | skip)
    | exact List.Subset.trans (by decide) hq
    | refine pair_only (by assumption) ?_
    | assumption

theorem State.accept_only {s0 : State} {ps : List Part} (s : State) (o : Origin) (f : Frame) (unit : Nat) (core : Option Nat) (hops : Nat) (hs : s0.changesOnly s ps) (hq : [.pkg, .ports, .req, .coh, .ext, .tier, .xl, .cmp, .cpu, .clv, .atn, .comp, .sec, .log, .adk, .evq] ⊆ ps) : s0.changesOnly (State.accept s o f unit core hops) ps := by
  unfold State.accept
  repeat' first
    | with_reducible assumption
    | with_reducible apply State.wakeStaged_only
    | with_reducible apply State.take_only
    | with_reducible apply ite_only
    | with_reducible apply ite_fst_only
    | with_reducible intro _
    | split
    | dsimp only
    | ((with_reducible apply only_mk) <;> first
        | with_reducible exact fun _ => rfl
        | exact fun hn => absurd (hq (by decide)) hn
        | skip)
    | exact List.Subset.trans (by decide) hq
    | refine pair_only (by assumption) ?_
    | assumption

theorem execWalkReadComplete_only {s0 : State} {ps : List Part} (walk : Nat) (s : State) (hs : s0.changesOnly s ps) (hq : [.pkg, .ports, .req, .coh, .ext, .tier, .xl, .cmp, .cpu, .clv, .atn, .comp, .sec, .log, .adk, .evq] ⊆ ps) : onlyNext s0 (execWalkReadComplete walk s) ps := by
  unfold execWalkReadComplete
  repeat' first
    | with_reducible assumption
    | with_reducible apply State.walkRead_only
    | with_reducible apply ite_only
    | with_reducible apply ite_fst_only
    | with_reducible apply next_only
    | with_reducible intro _
    | split
    | dsimp only
    | ((with_reducible apply only_mk) <;> first
        | with_reducible exact fun _ => rfl
        | exact fun hn => absurd (hq (by decide)) hn
        | skip)
    | exact List.Subset.trans (by decide) hq
    | refine pair_only (by assumption) ?_
    | assumption

end Sys2Proof.Machine
end

