-- ==== Sys2Proof/Laws/OnlyMgmt.lean ====
section
/-! SUPPORT. What every operation of Mgmt leaves alone. -/

set_option linter.unusedTactic false
set_option linter.unreachableTactic false
set_option linter.unusedVariables false

namespace Sys2Proof.Machine

theorem State.denyRole_only {s0 : State} {ps : List Part} (s : State) (r : Role) (addr : Nat) (hs : s0.changesOnly s ps) (hq : [.sec, .log, .adk, .evq] ⊆ ps) : s0.changesOnly (State.denyRole s r addr) ps := by
  unfold State.denyRole
  repeat' first
    | with_reducible assumption
    | with_reducible apply State.logE_only
    | with_reducible apply State.countSec_only
    | with_reducible apply ite_only
    | with_reducible apply ite_fst_only
    | with_reducible intro _
    | split
    | dsimp only
    | ((with_reducible apply only_mk) <;> first
        | with_reducible exact fun _ => rfl
        | exact fun hn => absurd (hq (by decide)) hn
        | skip)
    | exact List.Subset.trans (by decide) hq
    | refine pair_only (by assumption) ?_
    | assumption

theorem State.adkFlush_only {s0 : State} {ps : List Part} (s : State) (hs : s0.changesOnly s ps) (hq : [.adk] ⊆ ps) : s0.changesOnly (State.adkFlush s) ps := by
  unfold State.adkFlush
  repeat' first
    | with_reducible assumption
    | with_reducible apply ite_only
    | with_reducible apply ite_fst_only
    | with_reducible intro _
    | split
    | dsimp only
    | ((with_reducible apply only_mk) <;> first
        | with_reducible exact fun _ => rfl
        | exact fun hn => absurd (hq (by decide)) hn
        | skip)
    | exact List.Subset.trans (by decide) hq
    | refine pair_only (by assumption) ?_
    | assumption

theorem State.adkSend_only {s0 : State} {ps : List Part} (s : State) (f : AdkFrame) (hs : s0.changesOnly s ps) (hq : [.adk] ⊆ ps) : s0.changesOnly (State.adkSend s f) ps := by
  unfold State.adkSend
  repeat' first
    | with_reducible assumption
    | with_reducible apply State.adkFlush_only
    | with_reducible apply ite_only
    | with_reducible apply ite_fst_only
    | with_reducible intro _
    | split
    | dsimp only
    | ((with_reducible apply only_mk) <;> first
        | with_reducible exact fun _ => rfl
        | exact fun hn => absurd (hq (by decide)) hn
        | skip)
    | exact List.Subset.trans (by decide) hq
    | refine pair_only (by assumption) ?_
    | assumption

theorem State.adkReply_only {s0 : State} {ps : List Part} (s : State) (q : AdkFrame) (st : BitVec 6) (addr : BitVec 48) (words : List (BitVec 64)) (hs : s0.changesOnly s ps) (hq : [.adk] ⊆ ps) : s0.changesOnly (State.adkReply s q st addr words) ps := by
  unfold State.adkReply
  repeat' first
    | with_reducible assumption
    | with_reducible apply State.adkSend_only
    | with_reducible apply ite_only
    | with_reducible apply ite_fst_only
    | with_reducible intro _
    | split
    | dsimp only
    | ((with_reducible apply only_mk) <;> first
        | with_reducible exact fun _ => rfl
        | exact fun hn => absurd (hq (by decide)) hn
        | skip)
    | exact List.Subset.trans (by decide) hq
    | refine pair_only (by assumption) ?_
    | assumption

theorem State.adkFail_only {s0 : State} {ps : List Part} (s : State) (q : AdkFrame) (st : BitVec 6) (hs : s0.changesOnly s ps) (hq : [.adk] ⊆ ps) : s0.changesOnly (State.adkFail s q st) ps := by
  unfold State.adkFail
  repeat' first
    | with_reducible assumption
    | with_reducible apply State.adkReply_only
    | with_reducible apply ite_only
    | with_reducible apply ite_fst_only
    | with_reducible intro _
    | split
    | dsimp only
    | ((with_reducible apply only_mk) <;> first
        | with_reducible exact fun _ => rfl
        | exact fun hn => absurd (hq (by decide)) hn
        | skip)
    | exact List.Subset.trans (by decide) hq
    | refine pair_only (by assumption) ?_
    | assumption

theorem State.adkUse_only {s0 : State} {ps : List Part} (s : State) (q : AdkFrame) (hs : s0.changesOnly s ps) (hq : [.adk] ⊆ ps) : s0.changesOnly (State.adkUse s q) ps := by
  unfold State.adkUse
  repeat' first
    | with_reducible assumption
    | with_reducible apply ite_only
    | with_reducible apply ite_fst_only
    | with_reducible intro _
    | split
    | dsimp only
    | ((with_reducible apply only_mk) <;> first
        | with_reducible exact fun _ => rfl
        | exact fun hn => absurd (hq (by decide)) hn
        | skip)
    | exact List.Subset.trans (by decide) hq
    | refine pair_only (by assumption) ?_
    | assumption

theorem State.adkMalformed_only {s0 : State} {ps : List Part} (s : State) (q : AdkFrame) (hs : s0.changesOnly s ps) (hq : [.adk] ⊆ ps) : s0.changesOnly (State.adkMalformed s q) ps := by
  unfold State.adkMalformed
  repeat' first
    | with_reducible assumption
    | with_reducible apply State.adkSend_only
    | with_reducible apply State.adkUse_only
    | with_reducible apply ite_only
    | with_reducible apply ite_fst_only
    | with_reducible intro _
    | split
    | dsimp only
    | ((with_reducible apply only_mk) <;> first
        | with_reducible exact fun _ => rfl
        | exact fun hn => absurd (hq (by decide)) hn
        | skip)
    | exact List.Subset.trans (by decide) hq
    | refine pair_only (by assumption) ?_
    | assumption

theorem State.adkPerform_only {s0 : State} {ps : List Part} (s : State) (q : AdkFrame) (body : State → State) (hs : s0.changesOnly s ps) (hbody : ∀ (a0 : State), s0.changesOnly a0 ps → s0.changesOnly (body a0) ps) (hq : [.adk] ⊆ ps) : s0.changesOnly (State.adkPerform s q body) ps := by
  unfold State.adkPerform
  repeat' first
    | with_reducible assumption
    | with_reducible apply hbody
    | with_reducible apply State.adkSend_only
    | with_reducible apply State.adkFail_only
    | with_reducible apply State.adkUse_only
    | with_reducible apply ite_only
    | with_reducible apply ite_fst_only
    | with_reducible intro _
    | split
    | dsimp only
    | ((with_reducible apply only_mk) <;> first
        | with_reducible exact fun _ => rfl
        | exact fun hn => absurd (hq (by decide)) hn
        | skip)
    | exact List.Subset.trans (by decide) hq
    | refine pair_only (by assumption) ?_
    | assumption

theorem State.adkTake_only {s0 : State} {ps : List Part} (s : State) (hs : s0.changesOnly s ps) (hq : [.adk] ⊆ ps) : s0.changesOnly (State.adkTake s) ps := by
  unfold State.adkTake
  repeat' first
    | with_reducible assumption
    | with_reducible apply ite_only
    | with_reducible apply ite_fst_only
    | with_reducible intro _
    | split
    | dsimp only
    | ((with_reducible apply only_mk) <;> first
        | with_reducible exact fun _ => rfl
        | exact fun hn => absurd (hq (by decide)) hn
        | skip)
    | exact List.Subset.trans (by decide) hq
    | refine pair_only (by assumption) ?_
    | assumption

theorem State.adkRequest_only {s0 : State} {ps : List Part} (s : State) (q : AdkFrame) (ok : Bool) (body : State → State) (hs : s0.changesOnly s ps) (hbody : ∀ (a0 : State), s0.changesOnly a0 ps → s0.changesOnly (body a0) ps) (hq : [.adk] ⊆ ps) : s0.changesOnly (State.adkRequest s q ok body) ps := by
  unfold State.adkRequest
  repeat' first
    | with_reducible assumption
    | with_reducible apply hbody
    | with_reducible apply State.adkMalformed_only
    | with_reducible apply State.adkPerform_only
    | with_reducible apply State.adkTake_only
    | with_reducible apply ite_only
    | with_reducible apply ite_fst_only
    | with_reducible intro _
    | split
    | dsimp only
    | ((with_reducible apply only_mk) <;> first
        | with_reducible exact fun _ => rfl
        | exact fun hn => absurd (hq (by decide)) hn
        | skip)
    | exact List.Subset.trans (by decide) hq
    | refine pair_only (by assumption) ?_
    | assumption

theorem State.wrBody_only {s0 : State} {ps : List Part} (q : AdkFrame) (role : Role) (f : State → State × BitVec 6) (s : State) (hf : ∀ (a0 : State), s0.changesOnly a0 ps → s0.changesOnly (f a0).1 ps) (hs : s0.changesOnly s ps) (hq : [.sec, .log, .adk, .evq] ⊆ ps) : s0.changesOnly (State.wrBody q role f s) ps := by
  unfold State.wrBody
  repeat' first
    | with_reducible assumption
    | with_reducible apply hf
    | with_reducible apply State.denyRole_only
    | with_reducible apply State.adkReply_only
    | with_reducible apply ite_only
    | with_reducible apply ite_fst_only
    | with_reducible intro _
    | split
    | dsimp only
    | ((with_reducible apply only_mk) <;> first
        | with_reducible exact fun _ => rfl
        | exact fun hn => absurd (hq (by decide)) hn
        | skip)
    | exact List.Subset.trans (by decide) hq
    | refine pair_only (by assumption) ?_
    | assumption

theorem State.adkWr_only {s0 : State} {ps : List Part} (s : State) (tag : BitVec 16) (addr : Nat) (value : BitVec 64) (role : Role) (f : State → State × BitVec 6) (hs : s0.changesOnly s ps) (hf : ∀ (a0 : State), s0.changesOnly a0 ps → s0.changesOnly (f a0).1 ps) (hq : [.sec, .log, .adk, .evq] ⊆ ps) : s0.changesOnly (State.adkWr s tag addr value role f) ps := by
  unfold State.adkWr
  repeat' first
    | with_reducible assumption
    | with_reducible apply hf
    | with_reducible apply State.adkRequest_only
    | with_reducible apply State.wrBody_only
    | with_reducible apply ite_only
    | with_reducible apply ite_fst_only
    | with_reducible intro _
    | split
    | dsimp only
    | ((with_reducible apply only_mk) <;> first
        | with_reducible exact fun _ => rfl
        | exact fun hn => absurd (hq (by decide)) hn
        | skip)
    | exact List.Subset.trans (by decide) hq
    | refine pair_only (by assumption) ?_
    | assumption

theorem State.adkAck_only {s0 : State} {ps : List Part} (s : State) (seq : BitVec 12) (hs : s0.changesOnly s ps) (hq : [.adk, .evq] ⊆ ps) : s0.changesOnly (State.adkAck s seq) ps := by
  unfold State.adkAck
  repeat' first
    | with_reducible assumption
    | with_reducible apply State.noteLost_only
    | with_reducible apply State.adkFlush_only
    | with_reducible apply ite_only
    | with_reducible apply ite_fst_only
    | with_reducible intro _
    | split
    | dsimp only
    | ((with_reducible apply only_mk) <;> first
        | with_reducible exact fun _ => rfl
        | exact fun hn => absurd (hq (by decide)) hn
        | skip)
    | exact List.Subset.trans (by decide) hq
    | refine pair_only (by assumption) ?_
    | assumption

theorem State.adkRetrain_only {s0 : State} {ps : List Part} (s : State) (hs : s0.changesOnly s ps) (hq : [.adk] ⊆ ps) : s0.changesOnly (State.adkRetrain s) ps := by
  unfold State.adkRetrain
  repeat' first
    | with_reducible assumption
    | with_reducible apply ite_only
    | with_reducible apply ite_fst_only
    | with_reducible intro _
    | split
    | dsimp only
    | ((with_reducible apply only_mk) <;> first
        | with_reducible exact fun _ => rfl
        | exact fun hn => absurd (hq (by decide)) hn
        | skip)
    | exact List.Subset.trans (by decide) hq
    | refine pair_only (by assumption) ?_
    | assumption

theorem State.adkReplay_only {s0 : State} {ps : List Part} (s : State) (hs : s0.changesOnly s ps) (hq : [.adk, .evq] ⊆ ps) : s0.changesOnly (State.adkReplay s) ps := by
  unfold State.adkReplay
  repeat' first
    | with_reducible assumption
    | with_reducible apply State.countAdk_only
    | with_reducible apply State.adkRetrain_only
    | with_reducible apply ite_only
    | with_reducible apply ite_fst_only
    | with_reducible intro _
    | split
    | dsimp only
    | ((with_reducible apply only_mk) <;> first
        | with_reducible exact fun _ => rfl
        | exact fun hn => absurd (hq (by decide)) hn
        | skip)
    | exact List.Subset.trans (by decide) hq
    | refine pair_only (by assumption) ?_
    | assumption

theorem execAdkFrameReject_only {s0 : State} {ps : List Part} (btype : BitVec 8) (words : List (BitVec 64)) (low : BitVec 32) (crc : BitVec 32) (s : State) (hs : s0.changesOnly s ps) (hq : [.adk, .evq] ⊆ ps) : onlyNext s0 (execAdkFrameReject btype words low crc s) ps := by
  unfold execAdkFrameReject
  repeat' first
    | with_reducible assumption
    | with_reducible apply State.countAdk_only
    | with_reducible apply ite_only
    | with_reducible apply ite_fst_only
    | with_reducible apply next_only
    | with_reducible intro _
    | split
    | dsimp only
    | ((with_reducible apply only_mk) <;> first
        | with_reducible exact fun _ => rfl
        | exact fun hn => absurd (hq (by decide)) hn
        | skip)
    | exact List.Subset.trans (by decide) hq
    | refine pair_only (by assumption) ?_
    | assumption

theorem State.adkInit_only {s0 : State} {ps : List Part} (s : State) (w : LinkCtl) (hs : s0.changesOnly s ps) (hq : [.adk, .evq] ⊆ ps) : s0.changesOnly (State.adkInit s w) ps := by
  unfold State.adkInit
  repeat' first
    | with_reducible assumption
    | with_reducible apply State.adkFlush_only
    | with_reducible apply State.adkAck_only
    | with_reducible apply ite_only
    | with_reducible apply ite_fst_only
    | with_reducible intro _
    | split
    | dsimp only
    | ((with_reducible apply only_mk) <;> first
        | with_reducible exact fun _ => rfl
        | exact fun hn => absurd (hq (by decide)) hn
        | skip)
    | exact List.Subset.trans (by decide) hq
    | refine pair_only (by assumption) ?_
    | assumption

theorem execAdkLinkctl_only {s0 : State} {ps : List Part} (word : LinkCtl) (s : State) (hs : s0.changesOnly s ps) (hq : [.adk, .evq] ⊆ ps) : onlyNext s0 (execAdkLinkctl word s) ps := by
  unfold execAdkLinkctl
  repeat' first
    | with_reducible assumption
    | with_reducible apply State.adkAck_only
    | with_reducible apply State.adkReplay_only
    | with_reducible apply State.adkInit_only
    | with_reducible apply ite_only
    | with_reducible apply ite_fst_only
    | with_reducible apply next_only
    | with_reducible intro _
    | split
    | dsimp only
    | ((with_reducible apply only_mk) <;> first
        | with_reducible exact fun _ => rfl
        | exact fun hn => absurd (hq (by decide)) hn
        | skip)
    | exact List.Subset.trans (by decide) hq
    | refine pair_only (by assumption) ?_
    | assumption

theorem execAdkLinkctlTimer_only {s0 : State} {ps : List Part} (s : State) (hs : s0.changesOnly s ps) (hq : [.adk] ⊆ ps) : onlyNext s0 (execAdkLinkctlTimer s) ps := by
  unfold execAdkLinkctlTimer
  repeat' first
    | with_reducible assumption
    | with_reducible apply ite_only
    | with_reducible apply ite_fst_only
    | with_reducible apply next_only
    | with_reducible intro _
    | split
    | dsimp only
    | ((with_reducible apply only_mk) <;> first
        | with_reducible exact fun _ => rfl
        | exact fun hn => absurd (hq (by decide)) hn
        | skip)
    | exact List.Subset.trans (by decide) hq
    | refine pair_only (by assumption) ?_
    | assumption

theorem execAdkReplayTimeout_only {s0 : State} {ps : List Part} (s : State) (hs : s0.changesOnly s ps) (hq : [.adk, .evq] ⊆ ps) : onlyNext s0 (execAdkReplayTimeout s) ps := by
  unfold execAdkReplayTimeout
  repeat' first
    | with_reducible assumption
    | with_reducible apply State.adkReplay_only
    | with_reducible apply ite_only
    | with_reducible apply ite_fst_only
    | with_reducible apply next_only
    | with_reducible intro _
    | split
    | dsimp only
    | ((with_reducible apply only_mk) <;> first
        | with_reducible exact fun _ => rfl
        | exact fun hn => absurd (hq (by decide)) hn
        | skip)
    | exact List.Subset.trans (by decide) hq
    | refine pair_only (by assumption) ?_
    | assumption

theorem execAdkTrainingComplete_only {s0 : State} {ps : List Part} (s : State) (hs : s0.changesOnly s ps) (hq : [.adk] ⊆ ps) : onlyNext s0 (execAdkTrainingComplete s) ps := by
  unfold execAdkTrainingComplete
  repeat' first
    | with_reducible assumption
    | with_reducible apply ite_only
    | with_reducible apply ite_fst_only
    | with_reducible apply next_only
    | with_reducible intro _
    | split
    | dsimp only
    | ((with_reducible apply only_mk) <;> first
        | with_reducible exact fun _ => rfl
        | exact fun hn => absurd (hq (by decide)) hn
        | skip)
    | exact List.Subset.trans (by decide) hq
    | refine pair_only (by assumption) ?_
    | assumption

theorem execAdkTrainingTimeout_only {s0 : State} {ps : List Part} (s : State) (hs : s0.changesOnly s ps) (hq : [.adk] ⊆ ps) : onlyNext s0 (execAdkTrainingTimeout s) ps := by
  unfold execAdkTrainingTimeout
  repeat' first
    | with_reducible assumption
    | with_reducible apply ite_only
    | with_reducible apply ite_fst_only
    | with_reducible apply next_only
    | with_reducible intro _
    | split
    | dsimp only
    | ((with_reducible apply only_mk) <;> first
        | with_reducible exact fun _ => rfl
        | exact fun hn => absurd (hq (by decide)) hn
        | skip)
    | exact List.Subset.trans (by decide) hq
    | refine pair_only (by assumption) ?_
    | assumption

theorem execAdkLinkLoss_only {s0 : State} {ps : List Part} (s : State) (hs : s0.changesOnly s ps) (hq : [.adk] ⊆ ps) : onlyNext s0 (execAdkLinkLoss s) ps := by
  unfold execAdkLinkLoss
  repeat' first
    | with_reducible assumption
    | with_reducible apply ite_only
    | with_reducible apply ite_fst_only
    | with_reducible apply next_only
    | with_reducible intro _
    | split
    | dsimp only
    | ((with_reducible apply only_mk) <;> first
        | with_reducible exact fun _ => rfl
        | exact fun hn => absurd (hq (by decide)) hn
        | skip)
    | exact List.Subset.trans (by decide) hq
    | refine pair_only (by assumption) ?_
    | assumption

theorem execEventSend_only {s0 : State} {ps : List Part} (s : State) (hs : s0.changesOnly s ps) (hq : [.adk, .evq] ⊆ ps) : onlyNext s0 (execEventSend s) ps := by
  unfold execEventSend
  repeat' first
    | with_reducible assumption
    | with_reducible apply State.adkSend_only
    | with_reducible apply ite_only
    | with_reducible apply ite_fst_only
    | with_reducible apply next_only
    | with_reducible intro _
    | split
    | dsimp only
    | ((with_reducible apply only_mk) <;> first
        | with_reducible exact fun _ => rfl
        | exact fun hn => absurd (hq (by decide)) hn
        | skip)
    | exact List.Subset.trans (by decide) hq
    | refine pair_only (by assumption) ?_
    | assumption

end Sys2Proof.Machine
end

