-- ==== Sys2Proof/Laws/OnlyRoom.lean ====
section
/-! SUPPORT. What every operation of Room leaves alone. -/

set_option linter.unusedTactic false
set_option linter.unreachableTactic false
set_option linter.unusedVariables false

namespace Sys2Proof.Machine

theorem foldl_room_only {α : Type} {s0 : State} {ps : List Part} (f : RoomRun → α → RoomRun) (l : List α) (s : RoomRun)
    (hf : ∀ (s : RoomRun) a, s0.changesOnly s.s ps → s0.changesOnly (f s a).s ps) (h : s0.changesOnly s.s ps) :
    s0.changesOnly (l.foldl f s).s ps := by
  induction l generalizing s with
  | nil => exact h
  | cons a l ih => exact ih _ (hf s a h)

theorem ite_room_only {c : Prop} [Decidable c] {s0 : State} {a b : RoomRun} {ps : List Part} (ha : c → s0.changesOnly a.s ps)
    (hb : ¬c → s0.changesOnly b.s ps) : s0.changesOnly (if c then a else b).s ps := by
  split
  · exact ha ‹_›
  · exact hb ‹_›

theorem State.restartWalk_only {s0 : State} {ps : List Part} (s : State) (w : Walk) (hs : s0.changesOnly s ps) (hq : [.pkg, .ports, .req, .coh, .ext, .tier, .xl, .cmp, .cpu, .clv, .atn, .comp, .sec, .log, .adk, .evq] ⊆ ps) : s0.changesOnly (State.restartWalk s w) ps := by
  unfold State.restartWalk
  repeat' first
    | with_reducible assumption
    | with_reducible apply State.readEntry_only
    | with_reducible apply State.endWalk_only
    | with_reducible apply ite_only
    | with_reducible apply ite_fst_only
    | with_reducible intro _
    | split
    | dsimp only
    | ((with_reducible apply only_mk) <;> first
        | with_reducible exact fun _ => rfl
        | exact fun hn => absurd (hq (by decide)) hn
        | skip)
    | exact List.Subset.trans (by decide) hq
    | refine pair_only (by assumption) ?_
    | assumption

theorem State.purge_only {s0 : State} {ps : List Part} (s : State) (t : Option (BitVec 10)) (lo : Nat) (hi : Nat) (hs : s0.changesOnly s ps) (hq : [.pkg, .ports, .req, .coh, .ext, .tier, .xl, .cmp, .cpu, .clv, .atn, .comp, .sec, .log, .adk, .evq] ⊆ ps) : s0.changesOnly (State.purge s t lo hi) ps := by
  unfold State.purge
  repeat' first
    | with_reducible assumption
    | with_reducible apply State.restartWalk_only
    | with_reducible apply foldl_only
    | with_reducible apply foldl_fst_only
    | with_reducible apply ite_only
    | with_reducible apply ite_fst_only
    | with_reducible intro _
    | split
    | dsimp only
    | ((with_reducible apply only_mk) <;> first
        | with_reducible exact fun _ => rfl
        | exact fun hn => absurd (hq (by decide)) hn
        | skip)
    | exact List.Subset.trans (by decide) hq
    | refine pair_only (by assumption) ?_
    | assumption

theorem State.meet_only {s0 : State} {ps : List Part} (s : State) (x : Need) (hs : s0.changesOnly s ps) (hq : [.pkg, .ports, .coh, .tier, .adk, .evq] ⊆ ps) : s0.changesOnly (State.meet s x) ps := by
  unfold State.meet
  repeat' first
    | with_reducible assumption
    | with_reducible apply State.startFill_only
    | with_reducible apply State.setDir_only
    | with_reducible apply State.snoop_only
    | with_reducible apply foldl_only
    | with_reducible apply foldl_fst_only
    | with_reducible apply ite_only
    | with_reducible apply ite_fst_only
    | with_reducible intro _
    | split
    | dsimp only
    | ((with_reducible apply only_mk) <;> first
        | with_reducible exact fun _ => rfl
        | exact fun hn => absurd (hq (by decide)) hn
        | skip)
    | exact List.Subset.trans (by decide) hq
    | refine pair_only (by assumption) ?_
    | assumption

theorem State.poke8_only {s0 : State} {ps : List Part} (s : State) (a : Nat) (v : Nat) (hs : s0.changesOnly s ps) (hq : [.req, .ext, .tier, .sec] ⊆ ps) : s0.changesOnly (State.poke8 s a v) ps := by
  unfold State.poke8
  repeat' first
    | with_reducible assumption
    | with_reducible apply State.forget_only
    | with_reducible apply State.placeLines_only
    | with_reducible apply State.expanded_only
    | with_reducible apply ite_only
    | with_reducible apply ite_fst_only
    | with_reducible intro _
    | split
    | dsimp only
    | ((with_reducible apply only_mk) <;> first
        | with_reducible exact fun _ => rfl
        | exact fun hn => absurd (hq (by decide)) hn
        | skip)
    | exact List.Subset.trans (by decide) hq
    | refine pair_only (by assumption) ?_
    | assumption

theorem State.dropPageSectors_only {s0 : State} {ps : List Part} (s : State) (page : Nat) (hs : s0.changesOnly s ps) (hq : [.tier] ⊆ ps) : s0.changesOnly (State.dropPageSectors s page) ps := by
  unfold State.dropPageSectors
  repeat' first
    | with_reducible assumption
    | with_reducible apply ite_only
    | with_reducible apply ite_fst_only
    | with_reducible intro _
    | split
    | dsimp only
    | ((with_reducible apply only_mk) <;> first
        | with_reducible exact fun _ => rfl
        | exact fun hn => absurd (hq (by decide)) hn
        | skip)
    | exact List.Subset.trans (by decide) hq
    | refine pair_only (by assumption) ?_
    | assumption

theorem State.bareReleased_only {s0 : State} {ps : List Part} (s : State) (page : Nat) (hs : s0.changesOnly s ps) (hq : [.pkg, .ports, .tier, .adk, .evq] ⊆ ps) : s0.changesOnly (State.bareReleased s page) ps := by
  unfold State.bareReleased
  repeat' first
    | with_reducible assumption
    | with_reducible apply State.setPage_only
    | with_reducible apply State.releaseSlot_only
    | with_reducible apply ite_only
    | with_reducible apply ite_fst_only
    | with_reducible intro _
    | split
    | dsimp only
    | ((with_reducible apply only_mk) <;> first
        | with_reducible exact fun _ => rfl
        | exact fun hn => absurd (hq (by decide)) hn
        | skip)
    | exact List.Subset.trans (by decide) hq
    | refine pair_only (by assumption) ?_
    | assumption

theorem State.dropPage_only {s0 : State} {ps : List Part} (s : State) (page : Nat) (t : BitVec 10) (tva : Nat) (leaves : List (Nat × Nat)) (hs : s0.changesOnly s ps) (hq : [.pkg, .ports, .req, .coh, .ext, .tier, .xl, .cmp, .cpu, .clv, .atn, .comp, .sec, .log, .adk, .evq] ⊆ ps) : s0.changesOnly (State.dropPage s page t tva leaves) ps := by
  unfold State.dropPage
  repeat' first
    | with_reducible assumption
    | with_reducible apply State.abortMove_only
    | with_reducible apply State.purge_only
    | with_reducible apply State.poke8_only
    | with_reducible apply State.dropPageSectors_only
    | with_reducible apply State.bareReleased_only
    | with_reducible apply foldl_only
    | with_reducible apply foldl_fst_only
    | with_reducible apply ite_only
    | with_reducible apply ite_fst_only
    | with_reducible intro _
    | split
    | dsimp only
    | ((with_reducible apply only_mk) <;> first
        | with_reducible exact fun _ => rfl
        | exact fun hn => absurd (hq (by decide)) hn
        | skip)
    | exact List.Subset.trans (by decide) hq
    | refine pair_only (by assumption) ?_
    | assumption

theorem RoomRun.chunk_only {s0 : State} {ps : List Part} (x : RoomRun) (rec : Nat) (tier : Nat) (demote : Bool) (h : Handle) (c : Nat) (hx : s0.changesOnly x.s ps) (hq : [.pkg, .ports, .req, .coh, .ext, .tier, .xl, .cmp, .cpu, .clv, .atn, .comp, .sec, .log, .adk, .evq] ⊆ ps) : s0.changesOnly (RoomRun.chunk x rec tier demote h c).s ps := by
  unfold RoomRun.chunk
  repeat' first
    | with_reducible assumption
    | with_reducible apply State.countAtn_only
    | with_reducible apply State.queueMove_only
    | with_reducible apply State.dropPage_only
    | with_reducible apply ite_only
    | with_reducible apply ite_fst_only
    | with_reducible apply foldl_room_only
    | with_reducible apply ite_room_only
    | with_reducible intro _
    | split
    | dsimp only
    | ((with_reducible apply only_mk) <;> first
        | with_reducible exact fun _ => rfl
        | exact fun hn => absurd (hq (by decide)) hn
        | skip)
    | exact List.Subset.trans (by decide) hq
    | refine pair_only (by assumption) ?_
    | assumption

theorem RoomRun.block_only {s0 : State} {ps : List Part} (x : RoomRun) (rec : Nat) (tier : Nat) (need : Nat) (demote : Bool) (h : Handle) (b : Nat) (hx : s0.changesOnly x.s ps) (hq : [.pkg, .ports, .req, .coh, .ext, .tier, .xl, .cmp, .cpu, .clv, .atn, .comp, .sec, .log, .adk, .evq] ⊆ ps) : s0.changesOnly (RoomRun.block x rec tier need demote h b).s ps := by
  unfold RoomRun.block
  repeat' first
    | with_reducible assumption
    | with_reducible apply RoomRun.chunk_only
    | with_reducible apply foldl_only
    | with_reducible apply foldl_fst_only
    | with_reducible apply ite_only
    | with_reducible apply ite_fst_only
    | with_reducible apply foldl_room_only
    | with_reducible apply ite_room_only
    | with_reducible intro _
    | split
    | dsimp only
    | ((with_reducible apply only_mk) <;> first
        | with_reducible exact fun _ => rfl
        | exact fun hn => absurd (hq (by decide)) hn
        | skip)
    | exact List.Subset.trans (by decide) hq
    | refine pair_only (by assumption) ?_
    | assumption

theorem State.roomRun_only {s0 : State} {ps : List Part} (s : State) (rec : Nat) (tier : Nat) (need : Nat) (demote : Bool) (hs : s0.changesOnly s ps) (hq : [.pkg, .ports, .req, .coh, .ext, .tier, .xl, .cmp, .cpu, .clv, .atn, .comp, .sec, .log, .adk, .evq] ⊆ ps) : s0.changesOnly (State.roomRun s rec tier need demote).s ps := by
  unfold State.roomRun
  repeat' first
    | with_reducible assumption
    | with_reducible apply RoomRun.block_only
    | with_reducible apply foldl_only
    | with_reducible apply foldl_fst_only
    | with_reducible apply ite_only
    | with_reducible apply ite_fst_only
    | with_reducible apply foldl_room_only
    | with_reducible apply ite_room_only
    | with_reducible intro _
    | split
    | dsimp only
    | ((with_reducible apply only_mk) <;> first
        | with_reducible exact fun _ => rfl
        | exact fun hn => absurd (hq (by decide)) hn
        | skip)
    | exact List.Subset.trans (by decide) hq
    | refine pair_only (by assumption) ?_
    | assumption

theorem State.roomLog_only {s0 : State} {ps : List Part} (s : State) (rec : Nat) (tier : Nat) (pages : Nat) (hs : s0.changesOnly s ps) (hq : [.atn, .log, .adk, .evq] ⊆ ps) : s0.changesOnly (State.roomLog s rec tier pages) ps := by
  unfold State.roomLog
  repeat' first
    | with_reducible assumption
    | with_reducible apply State.logE_only
    | with_reducible apply State.logWith_only
    | with_reducible apply ite_only
    | with_reducible apply ite_fst_only
    | with_reducible intro _
    | split
    | dsimp only
    | ((with_reducible apply only_mk) <;> first
        | with_reducible exact fun _ => rfl
        | exact fun hn => absurd (hq (by decide)) hn
        | skip)
    | exact List.Subset.trans (by decide) hq
    | refine pair_only (by assumption) ?_
    | assumption

theorem State.dropAborted_only {s0 : State} {ps : List Part} (s : State) (hs : s0.changesOnly s ps) (hq : [.pkg, .ports, .req, .coh, .ext, .tier, .xl, .cmp, .cpu, .clv, .atn, .comp, .sec, .log, .adk, .evq] ⊆ ps) : s0.changesOnly (State.dropAborted s) ps := by
  unfold State.dropAborted
  repeat' first
    | with_reducible assumption
    | with_reducible apply State.countAtn_only
    | with_reducible apply State.meet_only
    | with_reducible apply State.dropPage_only
    | with_reducible apply ite_only
    | with_reducible apply ite_fst_only
    | with_reducible intro _
    | split
    | dsimp only
    | ((with_reducible apply only_mk) <;> first
        | with_reducible exact fun _ => rfl
        | exact fun hn => absurd (hq (by decide)) hn
        | skip)
    | exact List.Subset.trans (by decide) hq
    | refine pair_only (by assumption) ?_
    | assumption

theorem State.makeRoomStep_only {s0 : State} {ps : List Part} (s : State) (hs : s0.changesOnly s ps) (hq : [.pkg, .ports, .req, .coh, .ext, .tier, .xl, .cmp, .cpu, .clv, .atn, .comp, .sec, .log, .adk, .evq] ⊆ ps) : s0.changesOnly (State.makeRoomStep s).1 ps := by
  unfold State.makeRoomStep
  repeat' first
    | with_reducible assumption
    | with_reducible apply State.finish_only
    | with_reducible apply State.meet_only
    | with_reducible apply State.roomRun_only
    | with_reducible apply State.roomLog_only
    | with_reducible apply State.dropAborted_only
    | with_reducible apply foldl_only
    | with_reducible apply foldl_fst_only
    | with_reducible apply ite_only
    | with_reducible apply ite_fst_only
    | with_reducible intro _
    | split
    | dsimp only
    | ((with_reducible apply only_mk) <;> first
        | with_reducible exact fun _ => rfl
        | exact fun hn => absurd (hq (by decide)) hn
        | skip)
    | exact List.Subset.trans (by decide) hq
    | refine pair_only (by assumption) ?_
    | assumption

theorem State.leafCas_only {s0 : State} {ps : List Part} (s : State) (r : Req) (leaf : Nat) (hs : s0.changesOnly s ps) (hq : [.pkg, .ports, .req, .coh, .ext, .tier, .xl, .cmp, .cpu, .clv, .atn, .comp, .sec, .log, .adk, .evq] ⊆ ps) : s0.changesOnly (State.leafCas s r leaf) ps := by
  unfold State.leafCas
  repeat' first
    | with_reducible assumption
    | with_reducible apply State.putReq_only
    | with_reducible apply State.addReq_only
    | with_reducible apply State.serve_only
    | with_reducible apply State.route_only
    | with_reducible apply ite_only
    | with_reducible apply ite_fst_only
    | with_reducible intro _
    | split
    | dsimp only
    | ((with_reducible apply only_mk) <;> first
        | with_reducible exact fun _ => rfl
        | exact fun hn => absurd (hq (by decide)) hn
        | skip)
    | exact List.Subset.trans (by decide) hq
    | refine pair_only (by assumption) ?_
    | assumption

theorem State.restoreLeaf_only {s0 : State} {ps : List Part} (s : State) (r : Req) (leaf : Nat) (hs : s0.changesOnly s ps) (hq : [.pkg, .ports, .req, .coh, .ext, .tier, .xl, .cmp, .cpu, .clv, .atn, .comp, .sec, .log, .adk, .evq] ⊆ ps) : s0.changesOnly (State.restoreLeaf s r leaf) ps := by
  unfold State.restoreLeaf
  repeat' first
    | with_reducible assumption
    | with_reducible apply State.countTrn_only
    | with_reducible apply State.putReq_only
    | with_reducible apply State.finish_only
    | with_reducible apply State.route_only
    | with_reducible apply State.leafCas_only
    | with_reducible apply ite_only
    | with_reducible apply ite_fst_only
    | with_reducible intro _
    | split
    | dsimp only
    | ((with_reducible apply only_mk) <;> first
        | with_reducible exact fun _ => rfl
        | exact fun hn => absurd (hq (by decide)) hn
        | skip)
    | exact List.Subset.trans (by decide) hq
    | refine pair_only (by assumption) ?_
    | assumption

theorem State.askRoom_only {s0 : State} {ps : List Part} (s : State) (rec : Nat) (hs : s0.changesOnly s ps) (hq : [.tier] ⊆ ps) : s0.changesOnly (State.askRoom s rec) ps := by
  unfold State.askRoom
  repeat' first
    | with_reducible assumption
    | with_reducible apply ite_only
    | with_reducible apply ite_fst_only
    | with_reducible intro _
    | split
    | dsimp only
    | ((with_reducible apply only_mk) <;> first
        | with_reducible exact fun _ => rfl
        | exact fun hn => absurd (hq (by decide)) hn
        | skip)
    | exact List.Subset.trans (by decide) hq
    | refine pair_only (by assumption) ?_
    | assumption

theorem execKvRestore_only {s0 : State} {ps : List Part} (n : Nat) (s : State) (hs : s0.changesOnly s ps) (hq : [.pkg, .ports, .req, .coh, .ext, .tier, .xl, .cmp, .cpu, .clv, .atn, .comp, .sec, .log, .adk, .evq] ⊆ ps) : onlyNext s0 (execKvRestore n s) ps := by
  unfold execKvRestore
  repeat' first
    | with_reducible assumption
    | with_reducible apply State.finish_only
    | with_reducible apply State.serve_only
    | with_reducible apply State.wakeStaged_only
    | with_reducible apply State.giveSlot_getD_only
    | refine State.giveSlot_only _ _ _ ?_ ?_ _ (by assumption)
    | with_reducible apply State.restoreLeaf_only
    | with_reducible apply State.askRoom_only
    | with_reducible apply ite_only
    | with_reducible apply ite_fst_only
    | with_reducible apply next_only
    | with_reducible intro _
    | split
    | dsimp only
    | ((with_reducible apply only_mk) <;> first
        | with_reducible exact fun _ => rfl
        | exact fun hn => absurd (hq (by decide)) hn
        | skip)
    | exact List.Subset.trans (by decide) hq
    | refine pair_only (by assumption) ?_
    | assumption

theorem execRestoreRoomTimeout_only {s0 : State} {ps : List Part} (n : Nat) (s : State) (hs : s0.changesOnly s ps) (hq : [.pkg, .ports, .req, .coh, .ext, .tier, .xl, .cmp, .cpu, .clv, .atn, .comp, .sec, .log, .adk, .evq] ⊆ ps) : onlyNext s0 (execRestoreRoomTimeout n s) ps := by
  unfold execRestoreRoomTimeout
  repeat' first
    | with_reducible assumption
    | with_reducible apply State.finish_only
    | with_reducible apply State.wakeStaged_only
    | with_reducible apply ite_only
    | with_reducible apply ite_fst_only
    | with_reducible apply next_only
    | with_reducible intro _
    | split
    | dsimp only
    | ((with_reducible apply only_mk) <;> first
        | with_reducible exact fun _ => rfl
        | exact fun hn => absurd (hq (by decide)) hn
        | skip)
    | exact List.Subset.trans (by decide) hq
    | refine pair_only (by assumption) ?_
    | assumption

end Sys2Proof.Machine
end

