-- ==== Sys2Proof/Laws/OnlyDomain.lean ====
section
/-! SUPPORT. What every operation of Domain leaves alone. -/

set_option linter.unusedTactic false
set_option linter.unreachableTactic false
set_option linter.unusedVariables false

namespace Sys2Proof.Machine

theorem State.rouse_only {s0 : State} {ps : List Part} (s : State) (n : Nat) (hs : s0.changesOnly s ps) (hq : [.pkg, .ports, .req, .coh, .ext, .tier, .xl, .cmp, .cpu, .clv, .atn, .comp, .sec, .log, .adk, .evq] ⊆ ps) : s0.changesOnly (State.rouse s n) ps := by
  unfold State.rouse
  repeat' first
    | with_reducible assumption
    | with_reducible apply State.serve_only
    | with_reducible apply ite_only
    | with_reducible apply ite_fst_only
    | with_reducible intro _
    | split
    | dsimp only
    | ((with_reducible apply only_mk) <;> first
        | with_reducible exact fun _ => rfl
        | exact fun hn => absurd (hq (by decide)) hn
        | skip)
    | exact List.Subset.trans (by decide) hq
    | refine pair_only (by assumption) ?_
    | assumption

theorem State.settled_only {s0 : State} {ps : List Part} (s : State) (x : Snoop) (hs : s0.changesOnly s ps) (hq : [.pkg, .ports, .req, .coh, .ext, .tier, .xl, .cmp, .cpu, .clv, .atn, .comp, .sec, .log, .adk, .evq] ⊆ ps) : s0.changesOnly (State.settled s x) ps := by
  unfold State.settled
  repeat' first
    | with_reducible assumption
    | with_reducible apply State.wakeLine_only
    | with_reducible apply State.rouse_only
    | with_reducible apply ite_only
    | with_reducible apply ite_fst_only
    | with_reducible intro _
    | split
    | dsimp only
    | ((with_reducible apply only_mk) <;> first
        | with_reducible exact fun _ => rfl
        | exact fun hn => absurd (hq (by decide)) hn
        | skip)
    | exact List.Subset.trans (by decide) hq
    | refine pair_only (by assumption) ?_
    | assumption

theorem State.dropSnoops_only {s0 : State} {ps : List Part} (s : State) (p : Snoop → Bool) (hs : s0.changesOnly s ps) (hq : [.pkg, .ports, .req, .coh, .ext, .tier, .xl, .cmp, .cpu, .clv, .atn, .comp, .sec, .log, .adk, .evq] ⊆ ps) : s0.changesOnly (State.dropSnoops s p) ps := by
  unfold State.dropSnoops
  repeat' first
    | with_reducible assumption
    | with_reducible apply State.settled_only
    | with_reducible apply foldl_only
    | with_reducible apply foldl_fst_only
    | with_reducible apply ite_only
    | with_reducible apply ite_fst_only
    | with_reducible intro _
    | split
    | dsimp only
    | ((with_reducible apply only_mk) <;> first
        | with_reducible exact fun _ => rfl
        | exact fun hn => absurd (hq (by decide)) hn
        | skip)
    | exact List.Subset.trans (by decide) hq
    | refine pair_only (by assumption) ?_
    | assumption

theorem State.domReturns_only {s0 : State} {ps : List Part} (s : State) (d : Nat) (hs : s0.changesOnly s ps) (hq : [.pkg, .ports, .req, .coh, .ext, .tier, .xl, .cmp, .cpu, .clv, .atn, .comp, .sec, .log, .adk, .evq] ⊆ ps) : s0.changesOnly (State.domReturns s d) ps := by
  unfold State.domReturns
  repeat' first
    | with_reducible assumption
    | with_reducible apply State.wake_only
    | with_reducible apply ite_only
    | with_reducible apply ite_fst_only
    | with_reducible intro _
    | split
    | dsimp only
    | ((with_reducible apply only_mk) <;> first
        | with_reducible exact fun _ => rfl
        | exact fun hn => absurd (hq (by decide)) hn
        | skip)
    | exact List.Subset.trans (by decide) hq
    | refine pair_only (by assumption) ?_
    | assumption

theorem State.domainDown_only {s0 : State} {ps : List Part} (s : State) (d : Nat) (cause : Nat) (agent : Option Nat) (hs : s0.changesOnly s ps) (hq : [.pkg, .ports, .req, .coh, .ext, .tier, .xl, .cmp, .cpu, .clv, .atn, .comp, .sec, .log, .adk, .evq] ⊆ ps) : s0.changesOnly (State.domainDown s d cause agent) ps := by
  unfold State.domainDown
  repeat' first
    | with_reducible assumption
    | with_reducible apply State.onDom_only
    | with_reducible apply State.killAgent_only
    | with_reducible apply State.domNotes_only
    | with_reducible apply State.domEvent_only
    | with_reducible apply State.finish_only
    | with_reducible apply State.wakeStaged_only
    | with_reducible apply State.domReturns_only
    | with_reducible apply foldl_only
    | with_reducible apply foldl_fst_only
    | with_reducible apply ite_only
    | with_reducible apply ite_fst_only
    | with_reducible intro _
    | split
    | dsimp only
    | ((with_reducible apply only_mk) <;> first
        | with_reducible exact fun _ => rfl
        | exact fun hn => absurd (hq (by decide)) hn
        | skip)
    | exact List.Subset.trans (by decide) hq
    | refine pair_only (by assumption) ?_
    | assumption

theorem State.domTrigger_only {s0 : State} {ps : List Part} (s : State) (d : Nat) (cause : Nat) (agent : Option Nat) (hs : s0.changesOnly s ps) (hq : [.pkg, .ports, .req, .coh, .ext, .tier, .xl, .cmp, .cpu, .clv, .atn, .comp, .sec, .log, .adk, .evq] ⊆ ps) : s0.changesOnly (State.domTrigger s d cause agent) ps := by
  unfold State.domTrigger
  repeat' first
    | with_reducible assumption
    | with_reducible apply State.logE_only
    | with_reducible apply State.onDom_only
    | with_reducible apply State.killAgent_only
    | with_reducible apply State.domEvent_only
    | with_reducible apply State.wakeStaged_only
    | with_reducible apply State.dropSnoops_only
    | with_reducible apply State.domainDown_only
    | with_reducible apply ite_only
    | with_reducible apply ite_fst_only
    | with_reducible intro _
    | split
    | dsimp only
    | ((with_reducible apply only_mk) <;> first
        | with_reducible exact fun _ => rfl
        | exact fun hn => absurd (hq (by decide)) hn
        | skip)
    | exact List.Subset.trans (by decide) hq
    | refine pair_only (by assumption) ?_
    | assumption

theorem State.unitDomains_only {s0 : State} {ps : List Part} (s : State) (u : BitVec 16) (hs : s0.changesOnly s ps) (hq : [.pkg, .ports, .req, .coh, .ext, .tier, .xl, .cmp, .cpu, .clv, .atn, .comp, .sec, .log, .adk, .evq] ⊆ ps) : s0.changesOnly (State.unitDomains s u) ps := by
  unfold State.unitDomains
  repeat' first
    | with_reducible assumption
    | with_reducible apply State.domTrigger_only
    | with_reducible apply foldl_only
    | with_reducible apply foldl_fst_only
    | with_reducible apply ite_only
    | with_reducible apply ite_fst_only
    | with_reducible intro _
    | split
    | dsimp only
    | ((with_reducible apply only_mk) <;> first
        | with_reducible exact fun _ => rfl
        | exact fun hn => absurd (hq (by decide)) hn
        | skip)
    | exact List.Subset.trans (by decide) hq
    | refine pair_only (by assumption) ?_
    | assumption

theorem State.domainUp_only {s0 : State} {ps : List Part} (s : State) (d : Nat) (hs : s0.changesOnly s ps) (hq : [.pkg, .ports, .coh, .adk, .evq] ⊆ ps) : s0.changesOnly (State.domainUp s d) ps := by
  unfold State.domainUp
  repeat' first
    | with_reducible assumption
    | with_reducible apply State.onDom_only
    | with_reducible apply State.domNotes_only
    | with_reducible apply State.domEvent_only
    | with_reducible apply ite_only
    | with_reducible apply ite_fst_only
    | with_reducible intro _
    | split
    | dsimp only
    | ((with_reducible apply only_mk) <;> first
        | with_reducible exact fun _ => rfl
        | exact fun hn => absurd (hq (by decide)) hn
        | skip)
    | exact List.Subset.trans (by decide) hq
    | refine pair_only (by assumption) ?_
    | assumption

theorem execSnoopTimerExpiry_only {s0 : State} {ps : List Part} (line : BitVec 50) (agent : BitVec 8) (s : State) (hs : s0.changesOnly s ps) (hq : [.pkg, .ports, .req, .coh, .ext, .tier, .xl, .cmp, .cpu, .clv, .atn, .comp, .sec, .log, .adk, .evq] ⊆ ps) : onlyNext s0 (execSnoopTimerExpiry line agent s) ps := by
  unfold execSnoopTimerExpiry
  repeat' first
    | with_reducible assumption
    | with_reducible apply State.domTrigger_only
    | with_reducible apply ite_only
    | with_reducible apply ite_fst_only
    | with_reducible apply next_only
    | with_reducible intro _
    | split
    | dsimp only
    | ((with_reducible apply only_mk) <;> first
        | with_reducible exact fun _ => rfl
        | exact fun hn => absurd (hq (by decide)) hn
        | skip)
    | exact List.Subset.trans (by decide) hq
    | refine pair_only (by assumption) ?_
    | assumption

theorem execCinchExpiry_only {s0 : State} {ps : List Part} (line : BitVec 50) (agent : BitVec 8) (s : State) (hs : s0.changesOnly s ps) (hq : [.pkg, .ports, .req, .coh, .ext, .tier, .xl, .cmp, .cpu, .clv, .atn, .comp, .sec, .log, .adk, .evq] ⊆ ps) : onlyNext s0 (execCinchExpiry line agent s) ps := by
  unfold execCinchExpiry
  repeat' first
    | with_reducible assumption
    | with_reducible apply State.fireSnoop_only
    | with_reducible apply State.wakeStaged_only
    | with_reducible apply ite_only
    | with_reducible apply ite_fst_only
    | with_reducible apply next_only
    | with_reducible intro _
    | split
    | dsimp only
    | ((with_reducible apply only_mk) <;> first
        | with_reducible exact fun _ => rfl
        | exact fun hn => absurd (hq (by decide)) hn
        | skip)
    | exact List.Subset.trans (by decide) hq
    | refine pair_only (by assumption) ?_
    | assumption

theorem execFlushWindowEnd_only {s0 : State} {ps : List Part} (dom : BitVec 6) (s : State) (hs : s0.changesOnly s ps) (hq : [.pkg, .ports, .req, .coh, .ext, .tier, .xl, .cmp, .cpu, .clv, .atn, .comp, .sec, .log, .adk, .evq] ⊆ ps) : onlyNext s0 (execFlushWindowEnd dom s) ps := by
  unfold execFlushWindowEnd
  repeat' first
    | with_reducible assumption
    | with_reducible apply State.onDom_only
    | with_reducible apply State.countCoh_only
    | with_reducible apply State.poisonLine_only
    | with_reducible apply State.domNotes_only
    | with_reducible apply State.domEvent_only
    | with_reducible apply State.wakeStaged_only
    | with_reducible apply foldl_only
    | with_reducible apply foldl_fst_only
    | with_reducible apply ite_only
    | with_reducible apply ite_fst_only
    | with_reducible apply next_only
    | with_reducible intro _
    | split
    | dsimp only
    | ((with_reducible apply only_mk) <;> first
        | with_reducible exact fun _ => rfl
        | exact fun hn => absurd (hq (by decide)) hn
        | skip)
    | exact List.Subset.trans (by decide) hq
    | refine pair_only (by assumption) ?_
    | assumption

theorem State.cohCfg_only {s0 : State} {ps : List Part} (s : State) (d : Nat) (v : BitVec 64) (hs : s0.changesOnly s ps) (hq : [.pkg, .ports, .coh, .adk, .evq] ⊆ ps) : s0.changesOnly (State.cohCfg s d v).1 ps := by
  unfold State.cohCfg
  repeat' first
    | with_reducible assumption
    | with_reducible apply State.onDom_only
    | with_reducible apply State.domEvent_only
    | with_reducible apply State.domainUp_only
    | with_reducible apply ite_only
    | with_reducible apply ite_fst_only
    | with_reducible intro _
    | split
    | dsimp only
    | ((with_reducible apply only_mk) <;> first
        | with_reducible exact fun _ => rfl
        | exact fun hn => absurd (hq (by decide)) hn
        | skip)
    | exact List.Subset.trans (by decide) hq
    | refine pair_only (by assumption) ?_
    | assumption

theorem State.cohCmd_only {s0 : State} {ps : List Part} (s : State) (d : Nat) (v : BitVec 64) (hs : s0.changesOnly s ps) (hq : [.pkg, .ports, .req, .coh, .ext, .tier, .xl, .cmp, .cpu, .clv, .atn, .comp, .sec, .log, .adk, .evq] ⊆ ps) : s0.changesOnly (State.cohCmd s d v).1 ps := by
  unfold State.cohCmd
  repeat' first
    | with_reducible assumption
    | with_reducible apply State.domTrigger_only
    | with_reducible apply State.domainUp_only
    | with_reducible apply ite_only
    | with_reducible apply ite_fst_only
    | with_reducible intro _
    | split
    | dsimp only
    | ((with_reducible apply only_mk) <;> first
        | with_reducible exact fun _ => rfl
        | exact fun hn => absurd (hq (by decide)) hn
        | skip)
    | exact List.Subset.trans (by decide) hq
    | refine pair_only (by assumption) ?_
    | assumption

theorem State.cohMembers_only {s0 : State} {ps : List Part} (s : State) (d : Nat) (j : Nat) (v : BitVec 64) (hs : s0.changesOnly s ps) (hq : [.pkg, .ports, .coh, .adk, .evq] ⊆ ps) : s0.changesOnly (State.cohMembers s d j v).1 ps := by
  unfold State.cohMembers
  repeat' first
    | with_reducible assumption
    | with_reducible apply State.onDom_only
    | with_reducible apply State.domNote_only
    | with_reducible apply foldl_only
    | with_reducible apply foldl_fst_only
    | with_reducible apply ite_only
    | with_reducible apply ite_fst_only
    | with_reducible intro _
    | split
    | dsimp only
    | ((with_reducible apply only_mk) <;> first
        | with_reducible exact fun _ => rfl
        | exact fun hn => absurd (hq (by decide)) hn
        | skip)
    | exact List.Subset.trans (by decide) hq
    | refine pair_only (by assumption) ?_
    | assumption

theorem execCohDomEnable_only {s0 : State} {ps : List Part} (tag : BitVec 16) (dom : BitVec 6) (value : BitVec 64) (s : State) (hs : s0.changesOnly s ps) (hq : [.pkg, .ports, .coh, .sec, .log, .adk, .evq] ⊆ ps) : onlyNext s0 (execCohDomEnable tag dom value s) ps := by
  unfold execCohDomEnable
  repeat' first
    | with_reducible assumption
    | with_reducible apply State.adkWr_only
    | with_reducible apply State.cohCfg_only
    | with_reducible apply ite_only
    | with_reducible apply ite_fst_only
    | with_reducible apply next_only
    | with_reducible intro _
    | split
    | dsimp only
    | ((with_reducible apply only_mk) <;> first
        | with_reducible exact fun _ => rfl
        | exact fun hn => absurd (hq (by decide)) hn
        | skip)
    | exact List.Subset.trans (by decide) hq
    | refine pair_only (by assumption) ?_
    | assumption

theorem execCohDomDisable_only {s0 : State} {ps : List Part} (tag : BitVec 16) (dom : BitVec 6) (value : BitVec 64) (s : State) (hs : s0.changesOnly s ps) (hq : [.pkg, .ports, .coh, .sec, .log, .adk, .evq] ⊆ ps) : onlyNext s0 (execCohDomDisable tag dom value s) ps := by
  unfold execCohDomDisable
  repeat' first
    | with_reducible assumption
    | with_reducible apply State.adkWr_only
    | with_reducible apply State.cohCfg_only
    | with_reducible apply ite_only
    | with_reducible apply ite_fst_only
    | with_reducible apply next_only
    | with_reducible intro _
    | split
    | dsimp only
    | ((with_reducible apply only_mk) <;> first
        | with_reducible exact fun _ => rfl
        | exact fun hn => absurd (hq (by decide)) hn
        | skip)
    | exact List.Subset.trans (by decide) hq
    | refine pair_only (by assumption) ?_
    | assumption

theorem execCohDomDown_only {s0 : State} {ps : List Part} (tag : BitVec 16) (dom : BitVec 6) (s : State) (hs : s0.changesOnly s ps) (hq : [.pkg, .ports, .req, .coh, .ext, .tier, .xl, .cmp, .cpu, .clv, .atn, .comp, .sec, .log, .adk, .evq] ⊆ ps) : onlyNext s0 (execCohDomDown tag dom s) ps := by
  unfold execCohDomDown
  repeat' first
    | with_reducible assumption
    | with_reducible apply State.adkWr_only
    | with_reducible apply State.cohCmd_only
    | with_reducible apply ite_only
    | with_reducible apply ite_fst_only
    | with_reducible apply next_only
    | with_reducible intro _
    | split
    | dsimp only
    | ((with_reducible apply only_mk) <;> first
        | with_reducible exact fun _ => rfl
        | exact fun hn => absurd (hq (by decide)) hn
        | skip)
    | exact List.Subset.trans (by decide) hq
    | refine pair_only (by assumption) ?_
    | assumption

theorem execCohDomReform_only {s0 : State} {ps : List Part} (tag : BitVec 16) (dom : BitVec 6) (s : State) (hs : s0.changesOnly s ps) (hq : [.pkg, .ports, .req, .coh, .ext, .tier, .xl, .cmp, .cpu, .clv, .atn, .comp, .sec, .log, .adk, .evq] ⊆ ps) : onlyNext s0 (execCohDomReform tag dom s) ps := by
  unfold execCohDomReform
  repeat' first
    | with_reducible assumption
    | with_reducible apply State.adkWr_only
    | with_reducible apply State.cohCmd_only
    | with_reducible apply ite_only
    | with_reducible apply ite_fst_only
    | with_reducible apply next_only
    | with_reducible intro _
    | split
    | dsimp only
    | ((with_reducible apply only_mk) <;> first
        | with_reducible exact fun _ => rfl
        | exact fun hn => absurd (hq (by decide)) hn
        | skip)
    | exact List.Subset.trans (by decide) hq
    | refine pair_only (by assumption) ?_
    | assumption

theorem execCohMemberWrite_only {s0 : State} {ps : List Part} (tag : BitVec 16) (dom : BitVec 6) (j : BitVec 6) (value : BitVec 64) (s : State) (hs : s0.changesOnly s ps) (hq : [.pkg, .ports, .coh, .sec, .log, .adk, .evq] ⊆ ps) : onlyNext s0 (execCohMemberWrite tag dom j value s) ps := by
  unfold execCohMemberWrite
  repeat' first
    | with_reducible assumption
    | with_reducible apply State.adkWr_only
    | with_reducible apply State.cohMembers_only
    | with_reducible apply ite_only
    | with_reducible apply ite_fst_only
    | with_reducible apply next_only
    | with_reducible intro _
    | split
    | dsimp only
    | ((with_reducible apply only_mk) <;> first
        | with_reducible exact fun _ => rfl
        | exact fun hn => absurd (hq (by decide)) hn
        | skip)
    | exact List.Subset.trans (by decide) hq
    | refine pair_only (by assumption) ?_
    | assumption

end Sys2Proof.Machine
end

