-- ==== Sys2Proof/Laws/OnlyCollect.lean ====
section
/-! SUPPORT. What every operation of Collect leaves alone. -/

set_option linter.unusedTactic false
set_option linter.unreachableTactic false
set_option linter.unusedVariables false

namespace Sys2Proof.Machine

theorem State.sendGrant_only {s0 : State} {ps : List Part} (s : State) (id : Nat) (p : Contributor) (e : Nat) (hs : s0.changesOnly s ps) (hq : [.pkg, .ports, .req, .xl, .cpu, .clv, .sec, .log, .adk, .evq] ⊆ ps) : s0.changesOnly (State.sendGrant s id p e) ps := by
  unfold State.sendGrant
  repeat' first
    | with_reducible assumption
    | with_reducible apply State.onColl_only
    | with_reducible apply State.localWrite_only
    | with_reducible apply State.toPart_only
    | with_reducible apply ite_only
    | with_reducible apply ite_fst_only
    | with_reducible intro _
    | split
    | dsimp only
    | ((with_reducible apply only_mk) <;> first
        | with_reducible exact fun _ => rfl
        | exact fun hn => absurd (hq (by decide)) hn
        | skip)
    | exact List.Subset.trans (by decide) hq
    | refine pair_only (by assumption) ?_
    | assumption

theorem State.advanceGrants_only {s0 : State} {ps : List Part} (s : State) (id : Nat) (hs : s0.changesOnly s ps) (hq : [.pkg, .ports, .req, .xl, .cpu, .clv, .sec, .log, .adk, .evq] ⊆ ps) : s0.changesOnly (State.advanceGrants s id) ps := by
  unfold State.advanceGrants
  repeat' first
    | with_reducible assumption
    | with_reducible apply State.sendGrant_only
    | with_reducible apply foldl_only
    | with_reducible apply foldl_fst_only
    | with_reducible apply ite_only
    | with_reducible apply ite_fst_only
    | with_reducible intro _
    | split
    | dsimp only
    | ((with_reducible apply only_mk) <;> first
        | with_reducible exact fun _ => rfl
        | exact fun hn => absurd (hq (by decide)) hn
        | skip)
    | exact List.Subset.trans (by decide) hq
    | refine pair_only (by assumption) ?_
    | assumption

theorem State.resultTo_only {s0 : State} {ps : List Part} (s : State) (id : Nat) (p : Contributor) (dst : Option (BitVec 16)) (off : Nat) (pl : List Byte) (who : Nat) (k : Nat) (hs : s0.changesOnly s ps) (hq : [.pkg, .ports, .req, .xl, .cpu, .sec, .log, .adk, .evq] ⊆ ps) : s0.changesOnly (State.resultTo s id p dst off pl who k) ps := by
  unfold State.resultTo
  repeat' first
    | with_reducible assumption
    | with_reducible apply State.localWrite_only
    | with_reducible apply State.toPart_only
    | with_reducible apply ite_only
    | with_reducible apply ite_fst_only
    | with_reducible intro _
    | split
    | dsimp only
    | ((with_reducible apply only_mk) <;> first
        | with_reducible exact fun _ => rfl
        | exact fun hn => absurd (hq (by decide)) hn
        | skip)
    | exact List.Subset.trans (by decide) hq
    | refine pair_only (by assumption) ?_
    | assumption

theorem State.sendResult_only {s0 : State} {ps : List Part} (s : State) (id : Nat) (ranks : List Nat) (multi : Bool) (off : Nat) (bs : List Byte) (who : Nat) (k : Nat) (hs : s0.changesOnly s ps) (hq : [.pkg, .ports, .req, .xl, .cpu, .sec, .log, .adk, .evq] ⊆ ps) : s0.changesOnly (State.sendResult s id ranks multi off bs who k) ps := by
  unfold State.sendResult
  repeat' first
    | with_reducible assumption
    | with_reducible apply State.resultTo_only
    | with_reducible apply foldl_only
    | with_reducible apply foldl_fst_only
    | with_reducible apply ite_only
    | with_reducible apply ite_fst_only
    | with_reducible intro _
    | split
    | dsimp only
    | ((with_reducible apply only_mk) <;> first
        | with_reducible exact fun _ => rfl
        | exact fun hn => absurd (hq (by decide)) hn
        | skip)
    | exact List.Subset.trans (by decide) hq
    | refine pair_only (by assumption) ?_
    | assumption

theorem State.scatterTo_only {s0 : State} {ps : List Part} (s : State) (id : Nat) (r : Nat) (k : Nat) (hs : s0.changesOnly s ps) (hq : [.pkg, .ports, .req, .xl, .cpu, .sec, .log, .adk, .evq] ⊆ ps) : s0.changesOnly (State.scatterTo s id r k) ps := by
  unfold State.scatterTo
  repeat' first
    | with_reducible assumption
    | with_reducible apply State.sendResult_only
    | with_reducible apply ite_only
    | with_reducible apply ite_fst_only
    | with_reducible intro _
    | split
    | dsimp only
    | ((with_reducible apply only_mk) <;> first
        | with_reducible exact fun _ => rfl
        | exact fun hn => absurd (hq (by decide)) hn
        | skip)
    | exact List.Subset.trans (by decide) hq
    | refine pair_only (by assumption) ?_
    | assumption

theorem State.memberChunk_only {s0 : State} {ps : List Part} (s : State) (id : Nat) (r : Nat) (k : Nat) (hs : s0.changesOnly s ps) (hq : [.pkg, .ports, .req, .xl, .cpu, .sec, .log, .adk, .evq] ⊆ ps) : s0.changesOnly (State.memberChunk s id r k) ps := by
  unfold State.memberChunk
  repeat' first
    | with_reducible assumption
    | with_reducible apply State.sendResult_only
    | with_reducible apply foldl_only
    | with_reducible apply foldl_fst_only
    | with_reducible apply ite_only
    | with_reducible apply ite_fst_only
    | with_reducible intro _
    | split
    | dsimp only
    | ((with_reducible apply only_mk) <;> first
        | with_reducible exact fun _ => rfl
        | exact fun hn => absurd (hq (by decide)) hn
        | skip)
    | exact List.Subset.trans (by decide) hq
    | refine pair_only (by assumption) ?_
    | assumption

theorem State.absorb_only {s0 : State} {ps : List Part} (s : State) (id : Nat) (who : Nat) (off : Nat) (bs : List Byte) (hs : s0.changesOnly s ps) (hq : [.clv] ⊆ ps) : s0.changesOnly (State.absorb s id who off bs) ps := by
  unfold State.absorb
  repeat' first
    | with_reducible assumption
    | with_reducible apply State.setColl_only
    | with_reducible apply State.onColl_only
    | with_reducible apply foldl_only
    | with_reducible apply foldl_fst_only
    | with_reducible apply ite_only
    | with_reducible apply ite_fst_only
    | with_reducible intro _
    | split
    | dsimp only
    | ((with_reducible apply only_mk) <;> first
        | with_reducible exact fun _ => rfl
        | exact fun hn => absurd (hq (by decide)) hn
        | skip)
    | exact List.Subset.trans (by decide) hq
    | refine pair_only (by assumption) ?_
    | assumption

end Sys2Proof.Machine
end

