-- ==== Sys2Proof/Laws/OnlyCollectives.lean ====
section
/-! SUPPORT. What every operation of Collectives leaves alone. -/

set_option linter.unusedTactic false
set_option linter.unreachableTactic false
set_option linter.unusedVariables false

namespace Sys2Proof.Machine

theorem State.routeRows_only {s0 : State} {ps : List Part} (s : State) (id : Nat) (hs : s0.changesOnly s ps) (hq : [.pkg, .ports, .req, .xl, .cpu, .clv, .sec, .log, .adk, .evq] ⊆ ps) : s0.changesOnly (State.routeRows s id) ps := by
  unfold State.routeRows
  repeat' first
    | with_reducible assumption
    | with_reducible apply State.countClv_only
    | with_reducible apply State.onColl_only
    | with_reducible apply State.collTrigger_only
    | with_reducible apply State.sendResult_only
    | with_reducible apply foldl_only
    | with_reducible apply foldl_fst_only
    | with_reducible apply ite_only
    | with_reducible apply ite_fst_only
    | with_reducible intro _
    | split
    | dsimp only
    | ((with_reducible apply only_mk) <;> first
        | with_reducible exact fun _ => rfl
        | exact fun hn => absurd (hq (by decide)) hn
        | skip)
    | exact List.Subset.trans (by decide) hq
    | refine pair_only (by assumption) ?_
    | assumption

theorem State.combineReady_only {s0 : State} {ps : List Part} (s : State) (id : Nat) (hs : s0.changesOnly s ps) (hq : [.pkg, .ports, .req, .xl, .cpu, .clv, .sec, .log, .adk, .evq] ⊆ ps) : s0.changesOnly (State.combineReady s id) ps := by
  unfold State.combineReady
  repeat' first
    | with_reducible assumption
    | with_reducible apply State.onColl_only
    | with_reducible apply State.sendResult_only
    | with_reducible apply foldl_only
    | with_reducible apply foldl_fst_only
    | with_reducible apply ite_only
    | with_reducible apply ite_fst_only
    | with_reducible intro _
    | split
    | dsimp only
    | ((with_reducible apply only_mk) <;> first
        | with_reducible exact fun _ => rfl
        | exact fun hn => absurd (hq (by decide)) hn
        | skip)
    | exact List.Subset.trans (by decide) hq
    | refine pair_only (by assumption) ?_
    | assumption

theorem State.filterChunk_only {s0 : State} {ps : List Part} (s : State) (id : Nat) (k : Nat) (hs : s0.changesOnly s ps) (hq : [.pkg, .ports, .req, .xl, .cpu, .clv, .sec, .log, .adk, .evq] ⊆ ps) : s0.changesOnly (State.filterChunk s id k) ps := by
  unfold State.filterChunk
  repeat' first
    | with_reducible assumption
    | with_reducible apply State.onColl_only
    | with_reducible apply State.sendResult_only
    | with_reducible apply ite_only
    | with_reducible apply ite_fst_only
    | with_reducible intro _
    | split
    | dsimp only
    | ((with_reducible apply only_mk) <;> first
        | with_reducible exact fun _ => rfl
        | exact fun hn => absurd (hq (by decide)) hn
        | skip)
    | exact List.Subset.trans (by decide) hq
    | refine pair_only (by assumption) ?_
    | assumption

theorem State.filterReady_only {s0 : State} {ps : List Part} (s : State) (id : Nat) (hs : s0.changesOnly s ps) (hq : [.pkg, .ports, .req, .xl, .cpu, .clv, .sec, .log, .adk, .evq] ⊆ ps) : s0.changesOnly (State.filterReady s id) ps := by
  unfold State.filterReady
  repeat' first
    | with_reducible assumption
    | with_reducible apply State.filterChunk_only
    | with_reducible apply foldl_only
    | with_reducible apply foldl_fst_only
    | with_reducible apply ite_only
    | with_reducible apply ite_fst_only
    | with_reducible intro _
    | split
    | dsimp only
    | ((with_reducible apply only_mk) <;> first
        | with_reducible exact fun _ => rfl
        | exact fun hn => absurd (hq (by decide)) hn
        | skip)
    | exact List.Subset.trans (by decide) hq
    | refine pair_only (by assumption) ?_
    | assumption

theorem State.topkReady_only {s0 : State} {ps : List Part} (s : State) (id : Nat) (hs : s0.changesOnly s ps) (hq : [.pkg, .ports, .req, .xl, .cpu, .clv, .sec, .log, .adk, .evq] ⊆ ps) : s0.changesOnly (State.topkReady s id) ps := by
  unfold State.topkReady
  repeat' first
    | with_reducible assumption
    | with_reducible apply State.onColl_only
    | with_reducible apply State.sendResult_only
    | with_reducible apply ite_only
    | with_reducible apply ite_fst_only
    | with_reducible intro _
    | split
    | dsimp only
    | ((with_reducible apply only_mk) <;> first
        | with_reducible exact fun _ => rfl
        | exact fun hn => absurd (hq (by decide)) hn
        | skip)
    | exact List.Subset.trans (by decide) hq
    | refine pair_only (by assumption) ?_
    | assumption

theorem State.closeChunk_only {s0 : State} {ps : List Part} (s : State) (id : Nat) (who : Nat) (k : Nat) (hs : s0.changesOnly s ps) (hq : [.pkg, .ports, .req, .xl, .cpu, .clv, .sec, .log, .adk, .evq] ⊆ ps) : s0.changesOnly (State.closeChunk s id who k) ps := by
  unfold State.closeChunk
  repeat' first
    | with_reducible assumption
    | with_reducible apply State.onColl_only
    | with_reducible apply State.sendResult_only
    | with_reducible apply State.scatterTo_only
    | with_reducible apply foldl_only
    | with_reducible apply foldl_fst_only
    | with_reducible apply ite_only
    | with_reducible apply ite_fst_only
    | with_reducible intro _
    | split
    | dsimp only
    | ((with_reducible apply only_mk) <;> first
        | with_reducible exact fun _ => rfl
        | exact fun hn => absurd (hq (by decide)) hn
        | skip)
    | exact List.Subset.trans (by decide) hq
    | refine pair_only (by assumption) ?_
    | assumption

theorem State.sendClosed_only {s0 : State} {ps : List Part} (s : State) (id : Nat) (hs : s0.changesOnly s ps) (hq : [.pkg, .ports, .req, .xl, .cpu, .clv, .sec, .log, .adk, .evq] ⊆ ps) : s0.changesOnly (State.sendClosed s id) ps := by
  unfold State.sendClosed
  repeat' first
    | with_reducible assumption
    | with_reducible apply State.onColl_only
    | with_reducible apply State.memberChunk_only
    | with_reducible apply foldl_only
    | with_reducible apply foldl_fst_only
    | with_reducible apply ite_only
    | with_reducible apply ite_fst_only
    | with_reducible intro _
    | split
    | dsimp only
    | ((with_reducible apply only_mk) <;> first
        | with_reducible exact fun _ => rfl
        | exact fun hn => absurd (hq (by decide)) hn
        | skip)
    | exact List.Subset.trans (by decide) hq
    | refine pair_only (by assumption) ?_
    | assumption

theorem State.poolWrites_only {s0 : State} {ps : List Part} (s : State) (id : Nat) (hs : s0.changesOnly s ps) (hq : [.pkg, .ports, .req, .coh, .ext, .tier, .xl, .cmp, .cpu, .clv, .atn, .comp, .sec, .log, .adk, .evq] ⊆ ps) : s0.changesOnly (State.poolWrites s id) ps := by
  unfold State.poolWrites
  repeat' first
    | with_reducible assumption
    | with_reducible apply State.onColl_only
    | with_reducible apply State.poolAnswer_only
    | with_reducible apply State.accept_only
    | with_reducible apply foldl_only
    | with_reducible apply foldl_fst_only
    | with_reducible apply ite_only
    | with_reducible apply ite_fst_only
    | with_reducible intro _
    | split
    | dsimp only
    | ((with_reducible apply only_mk) <;> first
        | with_reducible exact fun _ => rfl
        | exact fun hn => absurd (hq (by decide)) hn
        | skip)
    | exact List.Subset.trans (by decide) hq
    | refine pair_only (by assumption) ?_
    | assumption

theorem State.rootProgress_only {s0 : State} {ps : List Part} (s : State) (id : Nat) (hs : s0.changesOnly s ps) (hq : [.pkg, .ports, .req, .coh, .ext, .tier, .xl, .cmp, .cpu, .clv, .atn, .comp, .sec, .log, .adk, .evq] ⊆ ps) : s0.changesOnly (State.rootProgress s id) ps := by
  unfold State.rootProgress
  repeat' first
    | with_reducible assumption
    | with_reducible apply State.onColl_only
    | with_reducible apply State.advanceGrants_only
    | with_reducible apply State.routeRows_only
    | with_reducible apply State.combineReady_only
    | with_reducible apply State.filterReady_only
    | with_reducible apply State.topkReady_only
    | with_reducible apply State.closeChunk_only
    | with_reducible apply State.sendClosed_only
    | with_reducible apply State.poolWrites_only
    | with_reducible apply foldl_only
    | with_reducible apply foldl_fst_only
    | with_reducible apply ite_only
    | with_reducible apply ite_fst_only
    | with_reducible intro _
    | split
    | dsimp only
    | ((with_reducible apply only_mk) <;> first
        | with_reducible exact fun _ => rfl
        | exact fun hn => absurd (hq (by decide)) hn
        | skip)
    | exact List.Subset.trans (by decide) hq
    | refine pair_only (by assumption) ?_
    | assumption

theorem State.sendUp_only {s0 : State} {ps : List Part} (s : State) (id : Nat) (off : Nat) (bs : List Byte) (hs : s0.changesOnly s ps) (hq : [.pkg, .ports, .adk, .evq] ⊆ ps) : s0.changesOnly (State.sendUp s id off bs) ps := by
  unfold State.sendUp
  repeat' first
    | with_reducible assumption
    | with_reducible apply State.sendFrom_only
    | with_reducible apply ite_only
    | with_reducible apply ite_fst_only
    | with_reducible intro _
    | split
    | dsimp only
    | ((with_reducible apply only_mk) <;> first
        | with_reducible exact fun _ => rfl
        | exact fun hn => absurd (hq (by decide)) hn
        | skip)
    | exact List.Subset.trans (by decide) hq
    | refine pair_only (by assumption) ?_
    | assumption

theorem State.partialsUp_only {s0 : State} {ps : List Part} (s : State) (id : Nat) (hs : s0.changesOnly s ps) (hq : [.pkg, .ports, .clv, .adk, .evq] ⊆ ps) : s0.changesOnly (State.partialsUp s id) ps := by
  unfold State.partialsUp
  repeat' first
    | with_reducible assumption
    | with_reducible apply State.onColl_only
    | with_reducible apply State.sendUp_only
    | with_reducible apply foldl_only
    | with_reducible apply foldl_fst_only
    | with_reducible apply ite_only
    | with_reducible apply ite_fst_only
    | with_reducible intro _
    | split
    | dsimp only
    | ((with_reducible apply only_mk) <;> first
        | with_reducible exact fun _ => rfl
        | exact fun hn => absurd (hq (by decide)) hn
        | skip)
    | exact List.Subset.trans (by decide) hq
    | refine pair_only (by assumption) ?_
    | assumption

theorem State.forwardUp_only {s0 : State} {ps : List Part} (s : State) (id n : Nat) (hs : s0.changesOnly s ps) (hq : [.pkg, .ports, .clv, .adk, .evq] ⊆ ps) :
    s0.changesOnly (State.forwardUp s id n) ps := by
  induction n generalizing s with
  | zero => exact hs
  | succ n ih =>
    unfold State.forwardUp
    repeat' first
      | with_reducible assumption
      | exact List.Subset.trans (by decide) hq
      | with_reducible apply ih
      | with_reducible apply State.onColl_only
      | with_reducible apply State.sendUp_only
      | with_reducible apply ite_only
      | with_reducible intro _
      | split
      | dsimp only

theorem State.childProgress_only {s0 : State} {ps : List Part} (s : State) (id : Nat) (hs : s0.changesOnly s ps) (hq : [.pkg, .ports, .req, .xl, .cpu, .clv, .sec, .log, .adk, .evq] ⊆ ps) : s0.changesOnly (State.childProgress s id) ps := by
  unfold State.childProgress
  repeat' first
    | with_reducible assumption
    | with_reducible apply State.onColl_only
    | with_reducible apply State.advanceGrants_only
    | with_reducible apply State.partialsUp_only
    | with_reducible apply State.forwardUp_only
    | with_reducible apply ite_only
    | with_reducible apply ite_fst_only
    | with_reducible intro _
    | split
    | dsimp only
    | ((with_reducible apply only_mk) <;> first
        | with_reducible exact fun _ => rfl
        | exact fun hn => absurd (hq (by decide)) hn
        | skip)
    | exact List.Subset.trans (by decide) hq
    | refine pair_only (by assumption) ?_
    | assumption

theorem State.collProgress_only {s0 : State} {ps : List Part} (s : State) (id : Nat) (hs : s0.changesOnly s ps) (hq : [.pkg, .ports, .req, .coh, .ext, .tier, .xl, .cmp, .cpu, .clv, .atn, .comp, .sec, .log, .adk, .evq] ⊆ ps) : s0.changesOnly (State.collProgress s id) ps := by
  unfold State.collProgress
  repeat' first
    | with_reducible assumption
    | with_reducible apply State.rootProgress_only
    | with_reducible apply State.childProgress_only
    | with_reducible apply ite_only
    | with_reducible apply ite_fst_only
    | with_reducible intro _
    | split
    | dsimp only
    | ((with_reducible apply only_mk) <;> first
        | with_reducible exact fun _ => rfl
        | exact fun hn => absurd (hq (by decide)) hn
        | skip)
    | exact List.Subset.trans (by decide) hq
    | refine pair_only (by assumption) ?_
    | assumption

theorem State.collJoin_only {s0 : State} {ps : List Part} (s : State) (n : Nat) (id : Nat) (who : Nat) (o : Origin) (f : Frame) (hs : s0.changesOnly s ps) (hq : [.pkg, .ports, .req, .coh, .ext, .tier, .xl, .cmp, .cpu, .clv, .atn, .comp, .sec, .log, .adk, .evq] ⊆ ps) : s0.changesOnly (State.collJoin s n id who o f) ps := by
  unfold State.collJoin
  repeat' first
    | with_reducible assumption
    | with_reducible apply State.onColl_only
    | with_reducible apply State.collTrigger_only
    | with_reducible apply State.sendGrant_only
    | with_reducible apply State.collProgress_only
    | with_reducible apply ite_only
    | with_reducible apply ite_fst_only
    | with_reducible intro _
    | split
    | dsimp only
    | ((with_reducible apply only_mk) <;> first
        | with_reducible exact fun _ => rfl
        | exact fun hn => absurd (hq (by decide)) hn
        | skip)
    | exact List.Subset.trans (by decide) hq
    | refine pair_only (by assumption) ?_
    | assumption

theorem State.collStart_only {s0 : State} {ps : List Part} (s : State) (n : Nat) (id : Nat) (who : Nat) (o : Origin) (f : Frame) (hs : s0.changesOnly s ps) (hq : [.pkg, .ports, .req, .coh, .ext, .tier, .xl, .cmp, .cpu, .clv, .atn, .comp, .sec, .log, .adk, .evq] ⊆ ps) : s0.changesOnly (State.collStart s n id who o f) ps := by
  unfold State.collStart
  repeat' first
    | with_reducible assumption
    | with_reducible apply State.onLink_only
    | with_reducible apply State.serving_only
    | with_reducible apply State.onColl_only
    | with_reducible apply State.sendFrom_only
    | with_reducible apply State.collTrigger_only
    | with_reducible apply State.collJoin_only
    | with_reducible apply ite_only
    | with_reducible apply ite_fst_only
    | with_reducible intro _
    | split
    | dsimp only
    | ((with_reducible apply only_mk) <;> first
        | with_reducible exact fun _ => rfl
        | exact fun hn => absurd (hq (by decide)) hn
        | skip)
    | exact List.Subset.trans (by decide) hq
    | refine pair_only (by assumption) ?_
    | assumption

theorem State.collOpen_only {s0 : State} {ps : List Part} (s : State) (n : Nat) (o : Origin) (f : Frame) (hs : s0.changesOnly s ps) (hq : [.pkg, .ports, .req, .coh, .ext, .tier, .xl, .cmp, .cpu, .clv, .atn, .comp, .sec, .log, .adk, .evq] ⊆ ps) : s0.changesOnly (State.collOpen s n o f) ps := by
  unfold State.collOpen
  repeat' first
    | with_reducible assumption
    | with_reducible apply State.setColl_only
    | with_reducible apply State.toIssuer_only
    | with_reducible apply State.collTrigger_only
    | with_reducible apply State.collJoin_only
    | with_reducible apply State.collStart_only
    | with_reducible apply ite_only
    | with_reducible apply ite_fst_only
    | with_reducible intro _
    | split
    | dsimp only
    | ((with_reducible apply only_mk) <;> first
        | with_reducible exact fun _ => rfl
        | exact fun hn => absurd (hq (by decide)) hn
        | skip)
    | exact List.Subset.trans (by decide) hq
    | refine pair_only (by assumption) ?_
    | assumption

theorem State.collContrib_only {s0 : State} {ps : List Part} (s : State) (o : Origin) (f : Frame) (hs : s0.changesOnly s ps) (hq : [.pkg, .ports, .req, .coh, .ext, .tier, .xl, .cmp, .cpu, .clv, .atn, .comp, .sec, .log, .adk, .evq] ⊆ ps) : s0.changesOnly (State.collContrib s o f) ps := by
  unfold State.collContrib
  repeat' first
    | with_reducible assumption
    | with_reducible apply State.countClv_only
    | with_reducible apply State.collTrigger_only
    | with_reducible apply State.absorb_only
    | with_reducible apply State.collProgress_only
    | with_reducible apply ite_only
    | with_reducible apply ite_fst_only
    | with_reducible intro _
    | split
    | dsimp only
    | ((with_reducible apply only_mk) <;> first
        | with_reducible exact fun _ => rfl
        | exact fun hn => absurd (hq (by decide)) hn
        | skip)
    | exact List.Subset.trans (by decide) hq
    | refine pair_only (by assumption) ?_
    | assumption

theorem State.keepLink_only {s0 : State} {ps : List Part} (s : State) (id : Nat) (hs : s0.changesOnly s ps) (hq : [.clv] ⊆ ps) : s0.changesOnly (State.keepLink s id) ps := by
  unfold State.keepLink
  repeat' first
    | with_reducible assumption
    | with_reducible apply State.onColl_only
    | with_reducible apply ite_only
    | with_reducible apply ite_fst_only
    | with_reducible intro _
    | split
    | dsimp only
    | ((with_reducible apply only_mk) <;> first
        | with_reducible exact fun _ => rfl
        | exact fun hn => absurd (hq (by decide)) hn
        | skip)
    | exact List.Subset.trans (by decide) hq
    | refine pair_only (by assumption) ?_
    | assumption

theorem State.passResult_only {s0 : State} {ps : List Part} (s : State) (f : Frame) (hs : s0.changesOnly s ps) (hq : [.pkg, .ports, .req, .xl, .cpu, .clv, .sec, .log, .adk, .evq] ⊆ ps) : s0.changesOnly (State.passResult s f) ps := by
  unfold State.passResult
  repeat' first
    | with_reducible assumption
    | with_reducible apply State.onColl_only
    | with_reducible apply State.sendResult_only
    | with_reducible apply State.keepLink_only
    | with_reducible apply foldl_only
    | with_reducible apply foldl_fst_only
    | with_reducible apply ite_only
    | with_reducible apply ite_fst_only
    | with_reducible intro _
    | split
    | dsimp only
    | ((with_reducible apply only_mk) <;> first
        | with_reducible exact fun _ => rfl
        | exact fun hn => absurd (hq (by decide)) hn
        | skip)
    | exact List.Subset.trans (by decide) hq
    | refine pair_only (by assumption) ?_
    | assumption

theorem State.linkDone_only {s0 : State} {ps : List Part} (s : State) (id : Nat) (hs : s0.changesOnly s ps) (hq : [.clv] ⊆ ps) : s0.changesOnly (State.linkDone s id) ps := by
  unfold State.linkDone
  repeat' first
    | with_reducible assumption
    | with_reducible apply State.onColl_only
    | with_reducible apply ite_only
    | with_reducible apply ite_fst_only
    | with_reducible intro _
    | split
    | dsimp only
    | ((with_reducible apply only_mk) <;> first
        | with_reducible exact fun _ => rfl
        | exact fun hn => absurd (hq (by decide)) hn
        | skip)
    | exact List.Subset.trans (by decide) hq
    | refine pair_only (by assumption) ?_
    | assumption

theorem State.collCommit_only {s0 : State} {ps : List Part} (s : State) (id : Nat) (hs : s0.changesOnly s ps) (hq : [.pkg, .ports, .req, .xl, .cpu, .clv, .sec, .log, .adk, .evq] ⊆ ps) : s0.changesOnly (State.collCommit s id) ps := by
  unfold State.collCommit
  repeat' first
    | with_reducible assumption
    | with_reducible apply State.countClv_only
    | with_reducible apply State.onColl_only
    | with_reducible apply State.toPart_only
    | with_reducible apply State.linkDone_only
    | with_reducible apply foldl_only
    | with_reducible apply foldl_fst_only
    | with_reducible apply ite_only
    | with_reducible apply ite_fst_only
    | with_reducible intro _
    | split
    | dsimp only
    | ((with_reducible apply only_mk) <;> first
        | with_reducible exact fun _ => rfl
        | exact fun hn => absurd (hq (by decide)) hn
        | skip)
    | exact List.Subset.trans (by decide) hq
    | refine pair_only (by assumption) ?_
    | assumption

theorem execCollectiveCommit_only {s0 : State} {ps : List Part} (id : BitVec 12) (s : State) (hs : s0.changesOnly s ps) (hq : [.pkg, .ports, .req, .xl, .cpu, .clv, .sec, .log, .adk, .evq] ⊆ ps) : onlyNext s0 (execCollectiveCommit id s) ps := by
  unfold execCollectiveCommit
  repeat' first
    | with_reducible assumption
    | with_reducible apply State.onColl_only
    | with_reducible apply State.sendFrom_only
    | with_reducible apply State.collCommit_only
    | with_reducible apply ite_only
    | with_reducible apply ite_fst_only
    | with_reducible apply next_only
    | with_reducible intro _
    | split
    | dsimp only
    | ((with_reducible apply only_mk) <;> first
        | with_reducible exact fun _ => rfl
        | exact fun hn => absurd (hq (by decide)) hn
        | skip)
    | exact List.Subset.trans (by decide) hq
    | refine pair_only (by assumption) ?_
    | assumption

theorem State.collDoneFrom_only {s0 : State} {ps : List Part} (s : State) (p : Nat) (f : Frame) (hs : s0.changesOnly s ps) (hq : [.pkg, .ports, .req, .xl, .cpu, .clv, .sec, .log, .adk, .evq] ⊆ ps) : s0.changesOnly (State.collDoneFrom s p f) ps := by
  unfold State.collDoneFrom
  repeat' first
    | with_reducible assumption
    | with_reducible apply State.countClv_only
    | with_reducible apply State.onColl_only
    | with_reducible apply State.abortHere_only
    | with_reducible apply State.collTrigger_only
    | with_reducible apply State.collCommit_only
    | with_reducible apply ite_only
    | with_reducible apply ite_fst_only
    | with_reducible intro _
    | split
    | dsimp only
    | ((with_reducible apply only_mk) <;> first
        | with_reducible exact fun _ => rfl
        | exact fun hn => absurd (hq (by decide)) hn
        | skip)
    | exact List.Subset.trans (by decide) hq
    | refine pair_only (by assumption) ?_
    | assumption

theorem State.collAbortFrame_only {s0 : State} {ps : List Part} (s : State) (o : Origin) (f : Frame) (hs : s0.changesOnly s ps) (hq : [.pkg, .ports, .req, .xl, .cpu, .clv, .sec, .log, .adk, .evq] ⊆ ps) : s0.changesOnly (State.collAbortFrame s o f) ps := by
  unfold State.collAbortFrame
  repeat' first
    | with_reducible assumption
    | with_reducible apply State.abortHere_only
    | with_reducible apply State.collTrigger_only
    | with_reducible apply ite_only
    | with_reducible apply ite_fst_only
    | with_reducible intro _
    | split
    | dsimp only
    | ((with_reducible apply only_mk) <;> first
        | with_reducible exact fun _ => rfl
        | exact fun hn => absurd (hq (by decide)) hn
        | skip)
    | exact List.Subset.trans (by decide) hq
    | refine pair_only (by assumption) ?_
    | assumption

theorem State.collTriggers_only {s0 : State} {ps : List Part} (s : State) (cause : Nat) (p : Nat → Coll → Bool) (hs : s0.changesOnly s ps) (hq : [.pkg, .ports, .req, .xl, .cpu, .clv, .sec, .log, .adk, .evq] ⊆ ps) : s0.changesOnly (State.collTriggers s cause p) ps := by
  unfold State.collTriggers
  repeat' first
    | with_reducible assumption
    | with_reducible apply State.collTrigger_only
    | with_reducible apply foldl_only
    | with_reducible apply foldl_fst_only
    | with_reducible apply ite_only
    | with_reducible apply ite_fst_only
    | with_reducible intro _
    | split
    | dsimp only
    | ((with_reducible apply only_mk) <;> first
        | with_reducible exact fun _ => rfl
        | exact fun hn => absurd (hq (by decide)) hn
        | skip)
    | exact List.Subset.trans (by decide) hq
    | refine pair_only (by assumption) ?_
    | assumption

theorem State.memberDead_only {s0 : State} {ps : List Part} (s : State) (u : BitVec 16) (lease : Bool) (hs : s0.changesOnly s ps) (hq : [.pkg, .ports, .req, .xl, .cpu, .clv, .sec, .log, .adk, .evq] ⊆ ps) : s0.changesOnly (State.memberDead s u lease) ps := by
  unfold State.memberDead
  repeat' first
    | with_reducible assumption
    | with_reducible apply State.onGroup_only
    | with_reducible apply State.collTriggers_only
    | with_reducible apply foldl_only
    | with_reducible apply foldl_fst_only
    | with_reducible apply ite_only
    | with_reducible apply ite_fst_only
    | with_reducible intro _
    | split
    | dsimp only
    | ((with_reducible apply only_mk) <;> first
        | with_reducible exact fun _ => rfl
        | exact fun hn => absurd (hq (by decide)) hn
        | skip)
    | exact List.Subset.trans (by decide) hq
    | refine pair_only (by assumption) ?_
    | assumption

theorem State.memberBack_only {s0 : State} {ps : List Part} (s : State) (u : BitVec 16) (hs : s0.changesOnly s ps) (hq : [.clv] ⊆ ps) : s0.changesOnly (State.memberBack s u) ps := by
  unfold State.memberBack
  repeat' first
    | with_reducible assumption
    | with_reducible apply ite_only
    | with_reducible apply ite_fst_only
    | with_reducible intro _
    | split
    | dsimp only
    | ((with_reducible apply only_mk) <;> first
        | with_reducible exact fun _ => rfl
        | exact fun hn => absurd (hq (by decide)) hn
        | skip)
    | exact List.Subset.trans (by decide) hq
    | refine pair_only (by assumption) ?_
    | assumption

theorem State.treePortDead_only {s0 : State} {ps : List Part} (s : State) (p : Nat) (hs : s0.changesOnly s ps) (hq : [.free, .pkg, .ports, .req, .xl, .cpu, .clv, .sec, .log, .adk, .evq] ⊆ ps) : s0.changesOnly (State.treePortDead s p) ps := by
  unfold State.treePortDead
  repeat' first
    | with_reducible assumption
    | with_reducible apply State.draw_only
    | with_reducible apply State.abortHere_only
    | with_reducible apply State.collTriggers_only
    | with_reducible apply foldl_only
    | with_reducible apply foldl_fst_only
    | with_reducible apply ite_only
    | with_reducible apply ite_fst_only
    | with_reducible intro _
    | split
    | dsimp only
    | ((with_reducible apply only_mk) <;> first
        | with_reducible exact fun _ => rfl
        | exact fun hn => absurd (hq (by decide)) hn
        | skip)
    | exact List.Subset.trans (by decide) hq
    | refine pair_only (by assumption) ?_
    | assumption

theorem State.collLost_only {s0 : State} {ps : List Part} (s : State) (hs : s0.changesOnly s ps) (hq : [.pkg, .ports, .req, .xl, .cpu, .clv, .sec, .log, .adk, .evq] ⊆ ps) : s0.changesOnly (State.collLost s) ps := by
  unfold State.collLost
  repeat' first
    | with_reducible assumption
    | with_reducible apply State.collTriggers_only
    | with_reducible apply ite_only
    | with_reducible apply ite_fst_only
    | with_reducible intro _
    | split
    | dsimp only
    | ((with_reducible apply only_mk) <;> first
        | with_reducible exact fun _ => rfl
        | exact fun hn => absurd (hq (by decide)) hn
        | skip)
    | exact List.Subset.trans (by decide) hq
    | refine pair_only (by assumption) ?_
    | assumption

theorem State.collDeadline_only {s0 : State} {ps : List Part} (s : State) (id : Nat) (hs : s0.changesOnly s ps) (hq : [.pkg, .ports, .req, .xl, .cpu, .clv, .sec, .log, .adk, .evq] ⊆ ps) : s0.changesOnly (State.collDeadline s id) ps := by
  unfold State.collDeadline
  repeat' first
    | with_reducible assumption
    | with_reducible apply State.abortHere_only
    | with_reducible apply ite_only
    | with_reducible apply ite_fst_only
    | with_reducible intro _
    | split
    | dsimp only
    | ((with_reducible apply only_mk) <;> first
        | with_reducible exact fun _ => rfl
        | exact fun hn => absurd (hq (by decide)) hn
        | skip)
    | exact List.Subset.trans (by decide) hq
    | refine pair_only (by assumption) ?_
    | assumption

theorem execCollectiveAbortDeadline_only {s0 : State} {ps : List Part} (id : BitVec 12) (s : State) (hs : s0.changesOnly s ps) (hq : [.pkg, .ports, .req, .xl, .cpu, .clv, .sec, .log, .adk, .evq] ⊆ ps) : onlyNext s0 (execCollectiveAbortDeadline id s) ps := by
  unfold execCollectiveAbortDeadline
  repeat' first
    | with_reducible assumption
    | with_reducible apply State.collDeadline_only
    | with_reducible apply ite_only
    | with_reducible apply ite_fst_only
    | with_reducible apply next_only
    | with_reducible intro _
    | split
    | dsimp only
    | ((with_reducible apply only_mk) <;> first
        | with_reducible exact fun _ => rfl
        | exact fun hn => absurd (hq (by decide)) hn
        | skip)
    | exact List.Subset.trans (by decide) hq
    | refine pair_only (by assumption) ?_
    | assumption

theorem execAbortComplete_only {s0 : State} {ps : List Part} (id : BitVec 12) (s : State) (hs : s0.changesOnly s ps) (hq : [.clv] ⊆ ps) : onlyNext s0 (execAbortComplete id s) ps := by
  unfold execAbortComplete
  repeat' first
    | with_reducible assumption
    | with_reducible apply State.onColl_only
    | with_reducible apply State.linkDone_only
    | with_reducible apply ite_only
    | with_reducible apply ite_fst_only
    | with_reducible apply next_only
    | with_reducible intro _
    | split
    | dsimp only
    | ((with_reducible apply only_mk) <;> first
        | with_reducible exact fun _ => rfl
        | exact fun hn => absurd (hq (by decide)) hn
        | skip)
    | exact List.Subset.trans (by decide) hq
    | refine pair_only (by assumption) ?_
    | assumption

theorem execHeldOpenRetry_only {s0 : State} {ps : List Part} (n : Nat) (s : State) (hs : s0.changesOnly s ps) (hq : [.pkg, .ports, .req, .coh, .ext, .tier, .xl, .cmp, .cpu, .clv, .atn, .comp, .sec, .log, .adk, .evq] ⊆ ps) : onlyNext s0 (execHeldOpenRetry n s) ps := by
  unfold execHeldOpenRetry
  repeat' first
    | with_reducible assumption
    | with_reducible apply State.collOpen_only
    | with_reducible apply ite_only
    | with_reducible apply ite_fst_only
    | with_reducible apply next_only
    | with_reducible intro _
    | split
    | dsimp only
    | ((with_reducible apply only_mk) <;> first
        | with_reducible exact fun _ => rfl
        | exact fun hn => absurd (hq (by decide)) hn
        | skip)
    | exact List.Subset.trans (by decide) hq
    | refine pair_only (by assumption) ?_
    | assumption

theorem execChunkSlotsFreed_only {s0 : State} {ps : List Part} (id : BitVec 12) (who : Nat) (chunk : Nat) (s : State) (hs : s0.changesOnly s ps) (hq : [.pkg, .ports, .req, .coh, .ext, .tier, .xl, .cmp, .cpu, .clv, .atn, .comp, .sec, .log, .adk, .evq] ⊆ ps) : onlyNext s0 (execChunkSlotsFreed id who chunk s) ps := by
  unfold execChunkSlotsFreed
  repeat' first
    | with_reducible assumption
    | with_reducible apply State.onColl_only
    | with_reducible apply State.collProgress_only
    | with_reducible apply ite_only
    | with_reducible apply ite_fst_only
    | with_reducible apply next_only
    | with_reducible intro _
    | split
    | dsimp only
    | ((with_reducible apply only_mk) <;> first
        | with_reducible exact fun _ => rfl
        | exact fun hn => absurd (hq (by decide)) hn
        | skip)
    | exact List.Subset.trans (by decide) hq
    | refine pair_only (by assumption) ?_
    | assumption

theorem State.clvBind_only {s0 : State} {ps : List Part} (s : State) (v : BitVec 64) (hs : s0.changesOnly s ps) (hq : [.adm, .clv] ⊆ ps) : s0.changesOnly (State.clvBind s v).1 ps := by
  unfold State.clvBind
  repeat' first
    | with_reducible assumption
    | with_reducible apply State.setColl_only
    | with_reducible apply ite_only
    | with_reducible apply ite_fst_only
    | with_reducible intro _
    | split
    | dsimp only
    | ((with_reducible apply only_mk) <;> first
        | with_reducible exact fun _ => rfl
        | exact fun hn => absurd (hq (by decide)) hn
        | skip)
    | exact List.Subset.trans (by decide) hq
    | refine pair_only (by assumption) ?_
    | assumption

theorem State.clvCmd_only {s0 : State} {ps : List Part} (s : State) (v : BitVec 64) (hs : s0.changesOnly s ps) (hq : [.pkg, .ports, .req, .xl, .cpu, .clv, .sec, .log, .adk, .evq] ⊆ ps) : s0.changesOnly (State.clvCmd s v).1 ps := by
  unfold State.clvCmd
  repeat' first
    | with_reducible assumption
    | with_reducible apply State.collTrigger_only
    | with_reducible apply ite_only
    | with_reducible apply ite_fst_only
    | with_reducible intro _
    | split
    | dsimp only
    | ((with_reducible apply only_mk) <;> first
        | with_reducible exact fun _ => rfl
        | exact fun hn => absurd (hq (by decide)) hn
        | skip)
    | exact List.Subset.trans (by decide) hq
    | refine pair_only (by assumption) ?_
    | assumption

theorem State.clvMember_only {s0 : State} {ps : List Part} (s : State) (j : Nat) (v : BitVec 64) (hs : s0.changesOnly s ps) (hq : [.clv] ⊆ ps) : s0.changesOnly (State.clvMember s j v).1 ps := by
  unfold State.clvMember
  repeat' first
    | with_reducible assumption
    | with_reducible apply State.onGroup_only
    | with_reducible apply ite_only
    | with_reducible apply ite_fst_only
    | with_reducible intro _
    | split
    | dsimp only
    | ((with_reducible apply only_mk) <;> first
        | with_reducible exact fun _ => rfl
        | exact fun hn => absurd (hq (by decide)) hn
        | skip)
    | exact List.Subset.trans (by decide) hq
    | refine pair_only (by assumption) ?_
    | assumption

theorem State.clvGroup_only {s0 : State} {ps : List Part} (s : State) (v : BitVec 64) (hs : s0.changesOnly s ps) (hq : [.clv] ⊆ ps) : s0.changesOnly (State.clvGroup s v).1 ps := by
  unfold State.clvGroup
  repeat' first
    | with_reducible assumption
    | with_reducible apply State.onGroup_only
    | with_reducible apply ite_only
    | with_reducible apply ite_fst_only
    | with_reducible intro _
    | split
    | dsimp only
    | ((with_reducible apply only_mk) <;> first
        | with_reducible exact fun _ => rfl
        | exact fun hn => absurd (hq (by decide)) hn
        | skip)
    | exact List.Subset.trans (by decide) hq
    | refine pair_only (by assumption) ?_
    | assumption

theorem execClvBindEnable_only {s0 : State} {ps : List Part} (tag : BitVec 16) (value : BitVec 64) (s : State) (hs : s0.changesOnly s ps) (hq : [.adm, .clv, .sec, .log, .adk, .evq] ⊆ ps) : onlyNext s0 (execClvBindEnable tag value s) ps := by
  unfold execClvBindEnable
  repeat' first
    | with_reducible assumption
    | with_reducible apply State.adkWr_only
    | with_reducible apply State.clvBind_only
    | with_reducible apply ite_only
    | with_reducible apply ite_fst_only
    | with_reducible apply next_only
    | with_reducible intro _
    | split
    | dsimp only
    | ((with_reducible apply only_mk) <;> first
        | with_reducible exact fun _ => rfl
        | exact fun hn => absurd (hq (by decide)) hn
        | skip)
    | exact List.Subset.trans (by decide) hq
    | refine pair_only (by assumption) ?_
    | assumption

theorem execClvBindDisable_only {s0 : State} {ps : List Part} (tag : BitVec 16) (value : BitVec 64) (s : State) (hs : s0.changesOnly s ps) (hq : [.adm, .clv, .sec, .log, .adk, .evq] ⊆ ps) : onlyNext s0 (execClvBindDisable tag value s) ps := by
  unfold execClvBindDisable
  repeat' first
    | with_reducible assumption
    | with_reducible apply State.adkWr_only
    | with_reducible apply State.clvBind_only
    | with_reducible apply ite_only
    | with_reducible apply ite_fst_only
    | with_reducible apply next_only
    | with_reducible intro _
    | split
    | dsimp only
    | ((with_reducible apply only_mk) <;> first
        | with_reducible exact fun _ => rfl
        | exact fun hn => absurd (hq (by decide)) hn
        | skip)
    | exact List.Subset.trans (by decide) hq
    | refine pair_only (by assumption) ?_
    | assumption

theorem execClvCmdAbort_only {s0 : State} {ps : List Part} (tag : BitVec 16) (s : State) (hs : s0.changesOnly s ps) (hq : [.pkg, .ports, .req, .xl, .cpu, .clv, .sec, .log, .adk, .evq] ⊆ ps) : onlyNext s0 (execClvCmdAbort tag s) ps := by
  unfold execClvCmdAbort
  repeat' first
    | with_reducible assumption
    | with_reducible apply State.adkWr_only
    | with_reducible apply State.clvCmd_only
    | with_reducible apply ite_only
    | with_reducible apply ite_fst_only
    | with_reducible apply next_only
    | with_reducible intro _
    | split
    | dsimp only
    | ((with_reducible apply only_mk) <;> first
        | with_reducible exact fun _ => rfl
        | exact fun hn => absurd (hq (by decide)) hn
        | skip)
    | exact List.Subset.trans (by decide) hq
    | refine pair_only (by assumption) ?_
    | assumption

theorem execClvGrpMemberWrite_only {s0 : State} {ps : List Part} (tag : BitVec 16) (j : BitVec 7) (value : BitVec 64) (s : State) (hs : s0.changesOnly s ps) (hq : [.clv, .sec, .log, .adk, .evq] ⊆ ps) : onlyNext s0 (execClvGrpMemberWrite tag j value s) ps := by
  unfold execClvGrpMemberWrite
  repeat' first
    | with_reducible assumption
    | with_reducible apply State.adkWr_only
    | with_reducible apply State.clvMember_only
    | with_reducible apply ite_only
    | with_reducible apply ite_fst_only
    | with_reducible apply next_only
    | with_reducible intro _
    | split
    | dsimp only
    | ((with_reducible apply only_mk) <;> first
        | with_reducible exact fun _ => rfl
        | exact fun hn => absurd (hq (by decide)) hn
        | skip)
    | exact List.Subset.trans (by decide) hq
    | refine pair_only (by assumption) ?_
    | assumption

end Sys2Proof.Machine
end

