-- ==== Sys2Proof/Laws/OnlyAttention.lean ====
section
/-! SUPPORT. What every operation of Attention leaves alone. -/

set_option linter.unusedTactic false
set_option linter.unreachableTactic false
set_option linter.unusedVariables false

namespace Sys2Proof.Machine

theorem State.attnResult_only {s0 : State} {ps : List Part} (s : State) (n : Nat) (o : Origin) (f : Frame) (st : BitVec 6) (pl : List Byte) (hs : s0.changesOnly s ps) (hq : [.pkg, .ports, .req, .xl, .cpu, .sec, .log, .adk, .evq] ⊆ ps) : s0.changesOnly (State.attnResult s n o f st pl) ps := by
  unfold State.attnResult
  repeat' first
    | with_reducible assumption
    | with_reducible apply State.toIssuer_only
    | with_reducible apply ite_only
    | with_reducible apply ite_fst_only
    | with_reducible intro _
    | split
    | dsimp only
    | ((with_reducible apply only_mk) <;> first
        | with_reducible exact fun _ => rfl
        | exact fun hn => absurd (hq (by decide)) hn
        | skip)
    | exact List.Subset.trans (by decide) hq
    | refine pair_only (by assumption) ?_
    | assumption

theorem State.attnBind_only {s0 : State} {ps : List Part} (s : State) (n : Nat) (o : Origin) (f : Frame) (hs : s0.changesOnly s ps) (hq : [.pkg, .ports, .req, .xl, .cpu, .atn, .sec, .log, .adk, .evq] ⊆ ps) : s0.changesOnly (State.attnBind s n o f) ps := by
  unfold State.attnBind
  repeat' first
    | with_reducible assumption
    | with_reducible apply State.onHandle_only
    | with_reducible apply State.attnResult_only
    | with_reducible apply ite_only
    | with_reducible apply ite_fst_only
    | with_reducible intro _
    | split
    | dsimp only
    | ((with_reducible apply only_mk) <;> first
        | with_reducible exact fun _ => rfl
        | exact fun hn => absurd (hq (by decide)) hn
        | skip)
    | exact List.Subset.trans (by decide) hq
    | refine pair_only (by assumption) ?_
    | assumption

theorem State.attnRelease_only {s0 : State} {ps : List Part} (s : State) (n : Nat) (o : Origin) (f : Frame) (hs : s0.changesOnly s ps) (hq : [.pkg, .ports, .req, .xl, .cpu, .atn, .sec, .log, .adk, .evq] ⊆ ps) : s0.changesOnly (State.attnRelease s n o f) ps := by
  unfold State.attnRelease
  repeat' first
    | with_reducible assumption
    | with_reducible apply State.onHandle_only
    | with_reducible apply State.attnResult_only
    | with_reducible apply ite_only
    | with_reducible apply ite_fst_only
    | with_reducible intro _
    | split
    | dsimp only
    | ((with_reducible apply only_mk) <;> first
        | with_reducible exact fun _ => rfl
        | exact fun hn => absurd (hq (by decide)) hn
        | skip)
    | exact List.Subset.trans (by decide) hq
    | refine pair_only (by assumption) ?_
    | assumption

theorem State.attnIssue_only {s0 : State} {ps : List Part} (s : State) (x : Decode) (what : Nat) (f : Frame) (hs : s0.changesOnly s ps) (hq : [.pkg, .ports, .req, .coh, .ext, .tier, .xl, .cmp, .cpu, .clv, .atn, .comp, .sec, .log, .adk, .evq] ⊆ ps) : s0.changesOnly (State.attnIssue s x what f) ps := by
  unfold State.attnIssue
  repeat' first
    | with_reducible assumption
    | with_reducible apply State.accept_only
    | with_reducible apply ite_only
    | with_reducible apply ite_fst_only
    | with_reducible intro _
    | split
    | dsimp only
    | ((with_reducible apply only_mk) <;> first
        | with_reducible exact fun _ => rfl
        | exact fun hn => absurd (hq (by decide)) hn
        | skip)
    | exact List.Subset.trans (by decide) hq
    | refine pair_only (by assumption) ?_
    | assumption

theorem State.putDecode_only {s0 : State} {ps : List Part} (s : State) (x : Decode) (hs : s0.changesOnly s ps) (hq : [.atn] ⊆ ps) : s0.changesOnly (State.putDecode s x) ps := by
  unfold State.putDecode
  repeat' first
    | with_reducible assumption
    | with_reducible apply ite_only
    | with_reducible apply ite_fst_only
    | with_reducible intro _
    | split
    | dsimp only
    | ((with_reducible apply only_mk) <;> first
        | with_reducible exact fun _ => rfl
        | exact fun hn => absurd (hq (by decide)) hn
        | skip)
    | exact List.Subset.trans (by decide) hq
    | refine pair_only (by assumption) ?_
    | assumption

theorem State.attnStart_only {s0 : State} {ps : List Part} (s : State) (x : Decode) (hs : s0.changesOnly s ps) (hq : [.pkg, .ports, .req, .coh, .ext, .tier, .xl, .cmp, .cpu, .clv, .atn, .comp, .sec, .log, .adk, .evq] ⊆ ps) : s0.changesOnly (State.attnStart s x) ps := by
  unfold State.attnStart
  repeat' first
    | with_reducible assumption
    | with_reducible apply State.serving_only
    | with_reducible apply State.attnIssue_only
    | with_reducible apply foldl_only
    | with_reducible apply foldl_fst_only
    | with_reducible apply ite_only
    | with_reducible apply ite_fst_only
    | with_reducible intro _
    | split
    | dsimp only
    | ((with_reducible apply only_mk) <;> first
        | with_reducible exact fun _ => rfl
        | exact fun hn => absurd (hq (by decide)) hn
        | skip)
    | exact List.Subset.trans (by decide) hq
    | refine pair_only (by assumption) ?_
    | assumption

theorem State.sendSub_only {s0 : State} {ps : List Part} (s : State) (id : Nat) (u : BitVec 16) (y : List (Nat × Nat)) (hs : s0.changesOnly s ps) (hq : [.pkg, .ports, .atn, .adk, .evq] ⊆ ps) : s0.changesOnly (State.sendSub s id u y) ps := by
  unfold State.sendSub
  repeat' first
    | with_reducible assumption
    | with_reducible apply State.countAtn_only
    | with_reducible apply State.subFrame_only
    | with_reducible apply State.putDecode_only
    | with_reducible apply ite_only
    | with_reducible apply ite_fst_only
    | with_reducible intro _
    | split
    | dsimp only
    | ((with_reducible apply only_mk) <;> first
        | with_reducible exact fun _ => rfl
        | exact fun hn => absurd (hq (by decide)) hn
        | skip)
    | exact List.Subset.trans (by decide) hq
    | refine pair_only (by assumption) ?_
    | assumption

theorem State.attnDecode_only {s0 : State} {ps : List Part} (s : State) (n : Nat) (o : Origin) (f : Frame) (hs : s0.changesOnly s ps) (hq : [.pkg, .ports, .req, .coh, .ext, .tier, .xl, .cmp, .cpu, .clv, .atn, .comp, .sec, .log, .adk, .evq] ⊆ ps) : s0.changesOnly (State.attnDecode s n o f) ps := by
  unfold State.attnDecode
  repeat' first
    | with_reducible assumption
    | with_reducible apply State.onHandle_only
    | with_reducible apply State.attnResult_only
    | with_reducible apply State.attnStart_only
    | with_reducible apply State.sendSub_only
    | with_reducible apply foldl_only
    | with_reducible apply foldl_fst_only
    | with_reducible apply ite_only
    | with_reducible apply ite_fst_only
    | with_reducible intro _
    | split
    | dsimp only
    | ((with_reducible apply only_mk) <;> first
        | with_reducible exact fun _ => rfl
        | exact fun hn => absurd (hq (by decide)) hn
        | skip)
    | exact List.Subset.trans (by decide) hq
    | refine pair_only (by assumption) ?_
    | assumption

theorem State.attnRequest_only {s0 : State} {ps : List Part} (s : State) (n : Nat) (o : Origin) (f : Frame) (hs : s0.changesOnly s ps) (hq : [.pkg, .ports, .req, .coh, .ext, .tier, .xl, .cmp, .cpu, .clv, .atn, .comp, .sec, .log, .adk, .evq] ⊆ ps) : s0.changesOnly (State.attnRequest s n o f) ps := by
  unfold State.attnRequest
  repeat' first
    | with_reducible assumption
    | with_reducible apply State.attnResult_only
    | with_reducible apply State.attnBind_only
    | with_reducible apply State.attnRelease_only
    | with_reducible apply State.attnDecode_only
    | with_reducible apply ite_only
    | with_reducible apply ite_fst_only
    | with_reducible intro _
    | split
    | dsimp only
    | ((with_reducible apply only_mk) <;> first
        | with_reducible exact fun _ => rfl
        | exact fun hn => absurd (hq (by decide)) hn
        | skip)
    | exact List.Subset.trans (by decide) hq
    | refine pair_only (by assumption) ?_
    | assumption

theorem State.attnSub_only {s0 : State} {ps : List Part} (s : State) (n : Nat) (o : Origin) (f : Frame) (hs : s0.changesOnly s ps) (hq : [.pkg, .ports, .req, .coh, .ext, .tier, .xl, .cmp, .cpu, .clv, .atn, .comp, .sec, .log, .adk, .evq] ⊆ ps) : s0.changesOnly (State.attnSub s n o f) ps := by
  unfold State.attnSub
  repeat' first
    | with_reducible assumption
    | with_reducible apply State.attnResult_only
    | with_reducible apply State.attnStart_only
    | with_reducible apply ite_only
    | with_reducible apply ite_fst_only
    | with_reducible intro _
    | split
    | dsimp only
    | ((with_reducible apply only_mk) <;> first
        | with_reducible exact fun _ => rfl
        | exact fun hn => absurd (hq (by decide)) hn
        | skip)
    | exact List.Subset.trans (by decide) hq
    | refine pair_only (by assumption) ?_
    | assumption

theorem State.endDecode_only {s0 : State} {ps : List Part} (s : State) (x : Decode) (hs : s0.changesOnly s ps) (hq : [.atn] ⊆ ps) : s0.changesOnly (State.endDecode s x) ps := by
  unfold State.endDecode
  repeat' first
    | with_reducible assumption
    | with_reducible apply State.onHandle_only
    | with_reducible apply ite_only
    | with_reducible apply ite_fst_only
    | with_reducible intro _
    | split
    | dsimp only
    | ((with_reducible apply only_mk) <;> first
        | with_reducible exact fun _ => rfl
        | exact fun hn => absurd (hq (by decide)) hn
        | skip)
    | exact List.Subset.trans (by decide) hq
    | refine pair_only (by assumption) ?_
    | assumption

theorem State.sendPart_only {s0 : State} {ps : List Part} (s : State) (x : Decode) (st : BitVec 6) (hdr : List Byte) (body : List Byte) (hs : s0.changesOnly s ps) (hq : [.pkg, .ports, .req, .xl, .cpu, .sec, .log, .adk, .evq] ⊆ ps) : s0.changesOnly (State.sendPart s x st hdr body) ps := by
  unfold State.sendPart
  repeat' first
    | with_reducible assumption
    | with_reducible apply State.toIssuer_only
    | with_reducible apply foldl_only
    | with_reducible apply foldl_fst_only
    | with_reducible apply ite_only
    | with_reducible apply ite_fst_only
    | with_reducible intro _
    | split
    | dsimp only
    | ((with_reducible apply only_mk) <;> first
        | with_reducible exact fun _ => rfl
        | exact fun hn => absurd (hq (by decide)) hn
        | skip)
    | exact List.Subset.trans (by decide) hq
    | refine pair_only (by assumption) ?_
    | assumption

theorem State.finishDecode_only {s0 : State} {ps : List Part} (s : State) (x : Decode) (st : BitVec 6) (out : List Byte) (hs : s0.changesOnly s ps) (hq : [.pkg, .ports, .req, .xl, .cpu, .atn, .sec, .log, .adk, .evq] ⊆ ps) : s0.changesOnly (State.finishDecode s x st out) ps := by
  unfold State.finishDecode
  repeat' first
    | with_reducible assumption
    | with_reducible apply State.countAtn_only
    | with_reducible apply State.attnResult_only
    | with_reducible apply State.endDecode_only
    | with_reducible apply State.sendPart_only
    | with_reducible apply ite_only
    | with_reducible apply ite_fst_only
    | with_reducible intro _
    | split
    | dsimp only
    | ((with_reducible apply only_mk) <;> first
        | with_reducible exact fun _ => rfl
        | exact fun hn => absurd (hq (by decide)) hn
        | skip)
    | exact List.Subset.trans (by decide) hq
    | refine pair_only (by assumption) ?_
    | assumption

theorem execSplitComplete_only {s0 : State} {ps : List Part} (decode : Nat) (split : Nat) (s : State) (hs : s0.changesOnly s ps) (hq : [.atn] ⊆ ps) : onlyNext s0 (execSplitComplete decode split s) ps := by
  unfold execSplitComplete
  repeat' first
    | with_reducible assumption
    | with_reducible apply State.putDecode_only
    | with_reducible apply ite_only
    | with_reducible apply ite_fst_only
    | with_reducible apply next_only
    | with_reducible intro _
    | split
    | dsimp only
    | ((with_reducible apply only_mk) <;> first
        | with_reducible exact fun _ => rfl
        | exact fun hn => absurd (hq (by decide)) hn
        | skip)
    | exact List.Subset.trans (by decide) hq
    | refine pair_only (by assumption) ?_
    | assumption

theorem execDecodeComplete_only {s0 : State} {ps : List Part} (decode : Nat) (s : State) (hs : s0.changesOnly s ps) (hq : [.pkg, .ports, .req, .coh, .ext, .tier, .xl, .cmp, .cpu, .clv, .atn, .comp, .sec, .log, .adk, .evq] ⊆ ps) : onlyNext s0 (execDecodeComplete decode s) ps := by
  unfold execDecodeComplete
  repeat' first
    | with_reducible assumption
    | with_reducible apply State.settled_only
    | with_reducible apply State.attnIssue_only
    | with_reducible apply State.putDecode_only
    | with_reducible apply State.finishDecode_only
    | with_reducible apply foldl_only
    | with_reducible apply foldl_fst_only
    | with_reducible apply ite_only
    | with_reducible apply ite_fst_only
    | with_reducible apply next_only
    | with_reducible intro _
    | split
    | dsimp only
    | ((with_reducible apply only_mk) <;> first
        | with_reducible exact fun _ => rfl
        | exact fun hn => absurd (hq (by decide)) hn
        | skip)
    | exact List.Subset.trans (by decide) hq
    | refine pair_only (by assumption) ?_
    | assumption

theorem execKvProbeComplete_only {s0 : State} {ps : List Part} (walk : Nat) (s : State) (hs : s0.changesOnly s ps) (hq : [.pkg, .ports, .req, .coh, .ext, .tier, .xl, .cmp, .cpu, .clv, .atn, .comp, .sec, .log, .adk, .evq] ⊆ ps) : onlyNext s0 (execKvProbeComplete walk s) ps := by
  unfold execKvProbeComplete
  repeat' first
    | with_reducible assumption
    | with_reducible apply State.countTrn_only
    | with_reducible apply State.readEntry_only
    | with_reducible apply State.endWalk_only
    | with_reducible apply State.walkRead_only
    | with_reducible apply ite_only
    | with_reducible apply ite_fst_only
    | with_reducible apply next_only
    | with_reducible intro _
    | split
    | dsimp only
    | ((with_reducible apply only_mk) <;> first
        | with_reducible exact fun _ => rfl
        | exact fun hn => absurd (hq (by decide)) hn
        | skip)
    | exact List.Subset.trans (by decide) hq
    | refine pair_only (by assumption) ?_
    | assumption

theorem State.attnPart_only {s0 : State} {ps : List Part} (s : State) (x : Decode) (i : Nat) (f : Frame) (hs : s0.changesOnly s ps) (hq : [.pkg, .ports, .tier, .atn, .adk, .evq] ⊆ ps) : s0.changesOnly (State.attnPart s x i f) ps := by
  unfold State.attnPart
  repeat' first
    | with_reducible assumption
    | with_reducible apply State.tagFree_only
    | with_reducible apply State.putDecode_only
    | with_reducible apply ite_only
    | with_reducible apply ite_fst_only
    | with_reducible intro _
    | split
    | dsimp only
    | ((with_reducible apply only_mk) <;> first
        | with_reducible exact fun _ => rfl
        | exact fun hn => absurd (hq (by decide)) hn
        | skip)
    | exact List.Subset.trans (by decide) hq
    | refine pair_only (by assumption) ?_
    | assumption

theorem State.subDead_only {s0 : State} {ps : List Part} (s : State) (p : Nat → SubReq → Bool) (hs : s0.changesOnly s ps) (hq : [.atn] ⊆ ps) : s0.changesOnly (State.subDead s p) ps := by
  unfold State.subDead
  repeat' first
    | with_reducible assumption
    | with_reducible apply ite_only
    | with_reducible apply ite_fst_only
    | with_reducible intro _
    | split
    | dsimp only
    | ((with_reducible apply only_mk) <;> first
        | with_reducible exact fun _ => rfl
        | exact fun hn => absurd (hq (by decide)) hn
        | skip)
    | exact List.Subset.trans (by decide) hq
    | refine pair_only (by assumption) ?_
    | assumption

theorem State.endDecodes_only {s0 : State} {ps : List Part} (s : State) (st : BitVec 6) (p : Decode → Bool) (hs : s0.changesOnly s ps) (hq : [.pkg, .ports, .req, .xl, .cpu, .atn, .sec, .log, .adk, .evq] ⊆ ps) : s0.changesOnly (State.endDecodes s st p) ps := by
  unfold State.endDecodes
  repeat' first
    | with_reducible assumption
    | with_reducible apply State.putDecode_only
    | with_reducible apply State.finishDecode_only
    | with_reducible apply foldl_only
    | with_reducible apply foldl_fst_only
    | with_reducible apply ite_only
    | with_reducible apply ite_fst_only
    | with_reducible intro _
    | split
    | dsimp only
    | ((with_reducible apply only_mk) <;> first
        | with_reducible exact fun _ => rfl
        | exact fun hn => absurd (hq (by decide)) hn
        | skip)
    | exact List.Subset.trans (by decide) hq
    | refine pair_only (by assumption) ?_
    | assumption

theorem State.releaseHandles_only {s0 : State} {ps : List Part} (s : State) (p : Nat → Handle → Bool) (hs : s0.changesOnly s ps) (hq : [.atn] ⊆ ps) : s0.changesOnly (State.releaseHandles s p) ps := by
  unfold State.releaseHandles
  repeat' first
    | with_reducible assumption
    | with_reducible apply ite_only
    | with_reducible apply ite_fst_only
    | with_reducible intro _
    | split
    | dsimp only
    | ((with_reducible apply only_mk) <;> first
        | with_reducible exact fun _ => rfl
        | exact fun hn => absurd (hq (by decide)) hn
        | skip)
    | exact List.Subset.trans (by decide) hq
    | refine pair_only (by assumption) ?_
    | assumption

theorem State.attnLeave_only {s0 : State} {ps : List Part} (s : State) (hs : s0.changesOnly s ps) (hq : [.pkg, .ports, .req, .xl, .cpu, .atn, .sec, .log, .adk, .evq] ⊆ ps) : s0.changesOnly (State.attnLeave s) ps := by
  unfold State.attnLeave
  repeat' first
    | with_reducible assumption
    | with_reducible apply State.endDecodes_only
    | with_reducible apply State.releaseHandles_only
    | with_reducible apply ite_only
    | with_reducible apply ite_fst_only
    | with_reducible intro _
    | split
    | dsimp only
    | ((with_reducible apply only_mk) <;> first
        | with_reducible exact fun _ => rfl
        | exact fun hn => absurd (hq (by decide)) hn
        | skip)
    | exact List.Subset.trans (by decide) hq
    | refine pair_only (by assumption) ?_
    | assumption

theorem State.attnStopping_only {s0 : State} {ps : List Part} (s : State) (t : Nat) (hs : s0.changesOnly s ps) (hq : [.pkg, .ports, .req, .xl, .cpu, .atn, .sec, .log, .adk, .evq] ⊆ ps) : s0.changesOnly (State.attnStopping s t) ps := by
  unfold State.attnStopping
  repeat' first
    | with_reducible assumption
    | with_reducible apply State.endDecodes_only
    | with_reducible apply State.releaseHandles_only
    | with_reducible apply ite_only
    | with_reducible apply ite_fst_only
    | with_reducible intro _
    | split
    | dsimp only
    | ((with_reducible apply only_mk) <;> first
        | with_reducible exact fun _ => rfl
        | exact fun hn => absurd (hq (by decide)) hn
        | skip)
    | exact List.Subset.trans (by decide) hq
    | refine pair_only (by assumption) ?_
    | assumption

theorem execHandleFreed_only {s0 : State} {ps : List Part} (handle : BitVec 18) (s : State) (hs : s0.changesOnly s ps) (hq : [.atn] ⊆ ps) : onlyNext s0 (execHandleFreed handle s) ps := by
  unfold execHandleFreed
  repeat' first
    | with_reducible assumption
    | with_reducible apply State.onHandle_only
    | with_reducible apply ite_only
    | with_reducible apply ite_fst_only
    | with_reducible apply next_only
    | with_reducible intro _
    | split
    | dsimp only
    | ((with_reducible apply only_mk) <;> first
        | with_reducible exact fun _ => rfl
        | exact fun hn => absurd (hq (by decide)) hn
        | skip)
    | exact List.Subset.trans (by decide) hq
    | refine pair_only (by assumption) ?_
    | assumption

theorem State.atnCmd_only {s0 : State} {ps : List Part} (s : State) (v : BitVec 64) (hs : s0.changesOnly s ps) (hq : [.atn] ⊆ ps) : s0.changesOnly (State.atnCmd s v).1 ps := by
  unfold State.atnCmd
  repeat' first
    | with_reducible assumption
    | with_reducible apply State.onHandle_only
    | with_reducible apply ite_only
    | with_reducible apply ite_fst_only
    | with_reducible intro _
    | split
    | dsimp only
    | ((with_reducible apply only_mk) <;> first
        | with_reducible exact fun _ => rfl
        | exact fun hn => absurd (hq (by decide)) hn
        | skip)
    | exact List.Subset.trans (by decide) hq
    | refine pair_only (by assumption) ?_
    | assumption

theorem execAtnCmdRelease_only {s0 : State} {ps : List Part} (tag : BitVec 16) (handle : BitVec 18) (s : State) (hs : s0.changesOnly s ps) (hq : [.atn, .sec, .log, .adk, .evq] ⊆ ps) : onlyNext s0 (execAtnCmdRelease tag handle s) ps := by
  unfold execAtnCmdRelease
  repeat' first
    | with_reducible assumption
    | with_reducible apply State.adkWr_only
    | with_reducible apply State.atnCmd_only
    | with_reducible apply ite_only
    | with_reducible apply ite_fst_only
    | with_reducible apply next_only
    | with_reducible intro _
    | split
    | dsimp only
    | ((with_reducible apply only_mk) <;> first
        | with_reducible exact fun _ => rfl
        | exact fun hn => absurd (hq (by decide)) hn
        | skip)
    | exact List.Subset.trans (by decide) hq
    | refine pair_only (by assumption) ?_
    | assumption

theorem State.atnPvCfg_only {s0 : State} {ps : List Part} (s : State) (v : BitVec 64) (hs : s0.changesOnly s ps) (hq : [.atn] ⊆ ps) : s0.changesOnly (State.atnPvCfg s v).1 ps := by
  unfold State.atnPvCfg
  repeat' first
    | with_reducible assumption
    | with_reducible apply ite_only
    | with_reducible apply ite_fst_only
    | with_reducible intro _
    | split
    | dsimp only
    | ((with_reducible apply only_mk) <;> first
        | with_reducible exact fun _ => rfl
        | exact fun hn => absurd (hq (by decide)) hn
        | skip)
    | exact List.Subset.trans (by decide) hq
    | refine pair_only (by assumption) ?_
    | assumption

end Sys2Proof.Machine
end

