-- ==== Sys2Proof/Laws/OnlyPool.lean ====
section
/-! SUPPORT. What every operation of Pool leaves alone. -/

set_option linter.unusedTactic false
set_option linter.unreachableTactic false
set_option linter.unusedVariables false

namespace Sys2Proof.Machine

theorem State.freeExtent_only {s0 : State} {ps : List Part} (s : State) (e : Nat) (hs : s0.changesOnly s ps) (hq : [.ext, .comp] ⊆ ps) : s0.changesOnly (State.freeExtent s e) ps := by
  unfold State.freeExtent
  repeat' first
    | with_reducible assumption
    | with_reducible apply State.extTo_only
    | with_reducible apply ite_only
    | with_reducible apply ite_fst_only
    | with_reducible intro _
    | split
    | dsimp only
    | ((with_reducible apply only_mk) <;> first
        | with_reducible exact fun _ => rfl
        | exact fun hn => absurd (hq (by decide)) hn
        | skip)
    | exact List.Subset.trans (by decide) hq
    | refine pair_only (by assumption) ?_
    | assumption

theorem State.revoke_only {s0 : State} {ps : List Part} (s : State) (e : Nat) (trig : Nat) (hs : s0.changesOnly s ps) (hq : [.free, .pkg, .ports, .coh, .ext, .comp, .adk, .evq] ⊆ ps) : s0.changesOnly (State.revoke s e trig) ps := by
  unfold State.revoke
  repeat' first
    | with_reducible assumption
    | with_reducible apply State.onExtent_only
    | with_reducible apply State.draw_only
    | with_reducible apply State.backInvalidate_only
    | with_reducible apply State.extTo_only
    | with_reducible apply State.freeExtent_only
    | with_reducible apply foldl_only
    | with_reducible apply foldl_fst_only
    | with_reducible apply ite_only
    | with_reducible apply ite_fst_only
    | with_reducible intro _
    | split
    | dsimp only
    | ((with_reducible apply only_mk) <;> first
        | with_reducible exact fun _ => rfl
        | exact fun hn => absurd (hq (by decide)) hn
        | skip)
    | exact List.Subset.trans (by decide) hq
    | refine pair_only (by assumption) ?_
    | assumption

theorem State.revokeAll_only {s0 : State} {ps : List Part} (s : State) (trig : Nat) (p : Extent → Bool) (hs : s0.changesOnly s ps) (hq : [.free, .pkg, .ports, .coh, .ext, .comp, .adk, .evq] ⊆ ps) : s0.changesOnly (State.revokeAll s trig p) ps := by
  unfold State.revokeAll
  repeat' first
    | with_reducible assumption
    | with_reducible apply State.revoke_only
    | with_reducible apply foldl_only
    | with_reducible apply foldl_fst_only
    | with_reducible apply ite_only
    | with_reducible apply ite_fst_only
    | with_reducible intro _
    | split
    | dsimp only
    | ((with_reducible apply only_mk) <;> first
        | with_reducible exact fun _ => rfl
        | exact fun hn => absurd (hq (by decide)) hn
        | skip)
    | exact List.Subset.trans (by decide) hq
    | refine pair_only (by assumption) ?_
    | assumption

theorem State.drained_only {s0 : State} {ps : List Part} (s : State) (e : Nat) (strag : Nat) (hs : s0.changesOnly s ps) (hq : [.ext, .comp, .log, .adk, .evq] ⊆ ps) : s0.changesOnly (State.drained s e strag) ps := by
  unfold State.drained
  repeat' first
    | with_reducible assumption
    | with_reducible apply State.logWith_only
    | with_reducible apply State.extTo_only
    | with_reducible apply State.freeExtent_only
    | with_reducible apply ite_only
    | with_reducible apply ite_fst_only
    | with_reducible intro _
    | split
    | dsimp only
    | ((with_reducible apply only_mk) <;> first
        | with_reducible exact fun _ => rfl
        | exact fun hn => absurd (hq (by decide)) hn
        | skip)
    | exact List.Subset.trans (by decide) hq
    | refine pair_only (by assumption) ?_
    | assumption

theorem execExtentDrained_only {s0 : State} {ps : List Part} (index : BitVec 21) (s : State) (hs : s0.changesOnly s ps) (hq : [.ext, .comp, .log, .adk, .evq] ⊆ ps) : onlyNext s0 (execExtentDrained index s) ps := by
  unfold execExtentDrained
  repeat' first
    | with_reducible assumption
    | with_reducible apply State.drained_only
    | with_reducible apply ite_only
    | with_reducible apply ite_fst_only
    | with_reducible apply next_only
    | with_reducible intro _
    | split
    | dsimp only
    | ((with_reducible apply only_mk) <;> first
        | with_reducible exact fun _ => rfl
        | exact fun hn => absurd (hq (by decide)) hn
        | skip)
    | exact List.Subset.trans (by decide) hq
    | refine pair_only (by assumption) ?_
    | assumption

theorem execDrainLimitExpiry_only {s0 : State} {ps : List Part} (index : BitVec 21) (s : State) (hs : s0.changesOnly s ps) (hq : [.pkg, .ports, .req, .coh, .ext, .tier, .xl, .cmp, .cpu, .clv, .atn, .comp, .sec, .log, .adk, .evq] ⊆ ps) : onlyNext s0 (execDrainLimitExpiry index s) ps := by
  unfold execDrainLimitExpiry
  repeat' first
    | with_reducible assumption
    | with_reducible apply State.countExt_only
    | with_reducible apply State.poisonLine_only
    | with_reducible apply State.setDir_only
    | with_reducible apply State.finish_only
    | with_reducible apply State.cutTray_only
    | with_reducible apply State.wakeStaged_only
    | with_reducible apply State.drained_only
    | with_reducible apply foldl_only
    | with_reducible apply foldl_fst_only
    | with_reducible apply ite_only
    | with_reducible apply ite_fst_only
    | with_reducible apply next_only
    | with_reducible intro _
    | split
    | dsimp only
    | ((with_reducible apply only_mk) <;> first
        | with_reducible exact fun _ => rfl
        | exact fun hn => absurd (hq (by decide)) hn
        | skip)
    | exact List.Subset.trans (by decide) hq
    | refine pair_only (by assumption) ?_
    | assumption

theorem State.startScrub_only {s0 : State} {ps : List Part} (s : State) (e : Nat) (hs : s0.changesOnly s ps) (hq : [.free, .pkg, .ports, .ext, .tier, .comp, .adk, .evq] ⊆ ps) : s0.changesOnly (State.startScrub s e) ps := by
  unfold State.startScrub
  repeat' first
    | with_reducible assumption
    | with_reducible apply State.draw_only
    | with_reducible apply State.extTo_only
    | with_reducible apply State.scrubBlock_only
    | with_reducible apply State.abortMove_only
    | with_reducible apply State.dropPageSectors_only
    | with_reducible apply foldl_only
    | with_reducible apply foldl_fst_only
    | with_reducible apply ite_only
    | with_reducible apply ite_fst_only
    | with_reducible intro _
    | split
    | dsimp only
    | ((with_reducible apply only_mk) <;> first
        | with_reducible exact fun _ => rfl
        | exact fun hn => absurd (hq (by decide)) hn
        | skip)
    | exact List.Subset.trans (by decide) hq
    | refine pair_only (by assumption) ?_
    | assumption

theorem execExtentScrubComplete_only {s0 : State} {ps : List Part} (index : BitVec 21) (s : State) (hs : s0.changesOnly s ps) (hq : [.pkg, .ports, .ext, .tier, .comp, .adk, .evq] ⊆ ps) : onlyNext s0 (execExtentScrubComplete index s) ps := by
  unfold execExtentScrubComplete
  repeat' first
    | with_reducible assumption
    | with_reducible apply State.setPage_only
    | with_reducible apply State.releaseSlot_only
    | with_reducible apply State.extTo_only
    | with_reducible apply foldl_only
    | with_reducible apply foldl_fst_only
    | with_reducible apply ite_only
    | with_reducible apply ite_fst_only
    | with_reducible apply next_only
    | with_reducible intro _
    | split
    | dsimp only
    | ((with_reducible apply only_mk) <;> first
        | with_reducible exact fun _ => rfl
        | exact fun hn => absurd (hq (by decide)) hn
        | skip)
    | exact List.Subset.trans (by decide) hq
    | refine pair_only (by assumption) ?_
    | assumption

theorem State.extGive_only {s0 : State} {ps : List Part} (s : State) (e : Nat) (tier : Nat) (keeps : Bool) (hs : s0.changesOnly s ps) (hq : [.ext, .adm, .tier, .comp] ⊆ ps) : s0.changesOnly (State.extGive s e tier keeps) ps := by
  unfold State.extGive
  repeat' first
    | with_reducible assumption
    | with_reducible apply State.giveSlot_getD_only
    | refine State.giveSlot_only _ _ _ ?_ ?_ _ (by assumption)
    | with_reducible apply State.extTo_only
    | with_reducible apply foldl_only
    | with_reducible apply foldl_fst_only
    | with_reducible apply ite_only
    | with_reducible apply ite_fst_only
    | with_reducible intro _
    | split
    | dsimp only
    | ((with_reducible apply only_mk) <;> first
        | with_reducible exact fun _ => rfl
        | exact fun hn => absurd (hq (by decide)) hn
        | skip)
    | exact List.Subset.trans (by decide) hq
    | refine pair_only (by assumption) ?_
    | assumption

theorem State.extAssign_only {s0 : State} {ps : List Part} (s : State) (e : Nat) (again : Bool) (hs : s0.changesOnly s ps) (hq : [.pkg, .ports, .req, .coh, .ext, .adm, .tier, .xl, .cmp, .cpu, .clv, .atn, .comp, .sec, .log, .adk, .evq] ⊆ ps) : s0.changesOnly (State.extAssign s e again).1 ps := by
  unfold State.extAssign
  repeat' first
    | with_reducible assumption
    | with_reducible apply State.roomRun_only
    | with_reducible apply State.roomLog_only
    | with_reducible apply State.extGive_only
    | with_reducible apply ite_only
    | with_reducible apply ite_fst_only
    | with_reducible intro _
    | split
    | dsimp only
    | ((with_reducible apply only_mk) <;> first
        | with_reducible exact fun _ => rfl
        | exact fun hn => absurd (hq (by decide)) hn
        | skip)
    | exact List.Subset.trans (by decide) hq
    | refine pair_only (by assumption) ?_
    | assumption

theorem State.extSetattr_only {s0 : State} {ps : List Part} (s : State) (e : Nat) (hs : s0.changesOnly s ps) (hq : [.ext] ⊆ ps) : s0.changesOnly (State.extSetattr s e).1 ps := by
  unfold State.extSetattr
  repeat' first
    | with_reducible assumption
    | with_reducible apply State.onExtent_only
    | with_reducible apply ite_only
    | with_reducible apply ite_fst_only
    | with_reducible intro _
    | split
    | dsimp only
    | ((with_reducible apply only_mk) <;> first
        | with_reducible exact fun _ => rfl
        | exact fun hn => absurd (hq (by decide)) hn
        | skip)
    | exact List.Subset.trans (by decide) hq
    | refine pair_only (by assumption) ?_
    | assumption

theorem State.extRevoke_only {s0 : State} {ps : List Part} (s : State) (e : Nat) (hs : s0.changesOnly s ps) (hq : [.free, .pkg, .ports, .coh, .ext, .comp, .adk, .evq] ⊆ ps) : s0.changesOnly (State.extRevoke s e).1 ps := by
  unfold State.extRevoke
  repeat' first
    | with_reducible assumption
    | with_reducible apply State.revoke_only
    | with_reducible apply ite_only
    | with_reducible apply ite_fst_only
    | with_reducible intro _
    | split
    | dsimp only
    | ((with_reducible apply only_mk) <;> first
        | with_reducible exact fun _ => rfl
        | exact fun hn => absurd (hq (by decide)) hn
        | skip)
    | exact List.Subset.trans (by decide) hq
    | refine pair_only (by assumption) ?_
    | assumption

theorem State.extRelease_only {s0 : State} {ps : List Part} (s : State) (e : Nat) (hs : s0.changesOnly s ps) (hq : [.ext, .comp] ⊆ ps) : s0.changesOnly (State.extRelease s e).1 ps := by
  unfold State.extRelease
  repeat' first
    | with_reducible assumption
    | with_reducible apply State.freeExtent_only
    | with_reducible apply ite_only
    | with_reducible apply ite_fst_only
    | with_reducible intro _
    | split
    | dsimp only
    | ((with_reducible apply only_mk) <;> first
        | with_reducible exact fun _ => rfl
        | exact fun hn => absurd (hq (by decide)) hn
        | skip)
    | exact List.Subset.trans (by decide) hq
    | refine pair_only (by assumption) ?_
    | assumption

theorem State.extScrub_only {s0 : State} {ps : List Part} (s : State) (e : Nat) (hs : s0.changesOnly s ps) (hq : [.free, .pkg, .ports, .ext, .tier, .comp, .adk, .evq] ⊆ ps) : s0.changesOnly (State.extScrub s e).1 ps := by
  unfold State.extScrub
  repeat' first
    | with_reducible assumption
    | with_reducible apply State.startScrub_only
    | with_reducible apply ite_only
    | with_reducible apply ite_fst_only
    | with_reducible intro _
    | split
    | dsimp only
    | ((with_reducible apply only_mk) <;> first
        | with_reducible exact fun _ => rfl
        | exact fun hn => absurd (hq (by decide)) hn
        | skip)
    | exact List.Subset.trans (by decide) hq
    | refine pair_only (by assumption) ?_
    | assumption

theorem State.extResult_only {s0 : State} {ps : List Part} (s : State) (e : Nat) (st : BitVec 6) (hs : s0.changesOnly s ps) (hq : [.ext] ⊆ ps) : s0.changesOnly (State.extResult s e st) ps := by
  unfold State.extResult
  repeat' first
    | with_reducible assumption
    | with_reducible apply ite_only
    | with_reducible apply ite_fst_only
    | with_reducible intro _
    | split
    | dsimp only
    | ((with_reducible apply only_mk) <;> first
        | with_reducible exact fun _ => rfl
        | exact fun hn => absurd (hq (by decide)) hn
        | skip)
    | exact List.Subset.trans (by decide) hq
    | refine pair_only (by assumption) ?_
    | assumption

theorem State.extTry_only {s0 : State} {ps : List Part} (s : State) (v : BitVec 64) (hs : s0.changesOnly s ps) (hq : [.free, .pkg, .ports, .req, .coh, .ext, .adm, .tier, .xl, .cmp, .cpu, .clv, .atn, .comp, .sec, .log, .adk, .evq] ⊆ ps) : s0.changesOnly (State.extTry s v).1 ps := by
  unfold State.extTry
  repeat' first
    | with_reducible assumption
    | with_reducible apply State.extAssign_only
    | with_reducible apply State.extSetattr_only
    | with_reducible apply State.extRevoke_only
    | with_reducible apply State.extRelease_only
    | with_reducible apply State.extScrub_only
    | with_reducible apply State.extResult_only
    | with_reducible apply ite_only
    | with_reducible apply ite_fst_only
    | with_reducible intro _
    | split
    | dsimp only
    | ((with_reducible apply only_mk) <;> first
        | with_reducible exact fun _ => rfl
        | exact fun hn => absurd (hq (by decide)) hn
        | skip)
    | exact List.Subset.trans (by decide) hq
    | refine pair_only (by assumption) ?_
    | assumption

theorem State.extCmd_only {s0 : State} {ps : List Part} (s : State) (v : BitVec 64) (hs : s0.changesOnly s ps) (hq : [.free, .pkg, .ports, .req, .coh, .ext, .adm, .tier, .xl, .cmp, .cpu, .clv, .atn, .comp, .sec, .log, .adk, .evq] ⊆ ps) : s0.changesOnly (State.extCmd s v).1 ps := by
  unfold State.extCmd
  have h : s0.changesOnly (s.extTry v).1 ps := State.extTry_only _ _ hs (List.Subset.trans (by decide) hq)
  split
  · rename_i e
    rw [e] at h
    exact h
  · exact State.extResult_only _ _ _ hs (List.Subset.trans (by decide) hq)

theorem State.extBody_only {s0 : State} {ps : List Part} (q : AdkFrame) (v : BitVec 64) (s : State) (hs : s0.changesOnly s ps) (hq : [.free, .pkg, .ports, .req, .coh, .ext, .adm, .tier, .xl, .cmp, .cpu, .clv, .atn, .comp, .sec, .log, .adk, .evq] ⊆ ps) : s0.changesOnly (State.extBody q v s) ps := by
  unfold State.extBody
  have h : s0.changesOnly (s.extTry v).1 ps := State.extTry_only _ _ hs (List.Subset.trans (by decide) hq)
  have h2 : ∀ (s : State) (x : Adk), s0.changesOnly s ps → s0.changesOnly { s with adk := x } ps := by
    intro s x h p hp
    have := h p hp
    cases p <;> first
      | exact this
      | exact absurd (hq (by decide)) hp
  split
  · rename_i e
    rw [e] at h
    exact State.adkReply_only _ _ _ _ _ h (List.Subset.trans (by decide) hq)
  · rename_i e
    rw [e] at h
    exact h2 _ _ h

theorem State.extCmdWr_only {s0 : State} {ps : List Part} (s : State) (tag : BitVec 16) (index : BitVec 21) (op : Nat) (hs : s0.changesOnly s ps) (hq : [.free, .pkg, .ports, .req, .coh, .ext, .adm, .tier, .xl, .cmp, .cpu, .clv, .atn, .comp, .sec, .log, .adk, .evq] ⊆ ps) : s0.changesOnly (State.extCmdWr s tag index op) ps := by
  unfold State.extCmdWr
  repeat' first
    | with_reducible assumption
    | with_reducible apply State.adkRequest_only
    | with_reducible apply State.extBody_only
    | with_reducible apply ite_only
    | with_reducible apply ite_fst_only
    | with_reducible intro _
    | split
    | dsimp only
    | ((with_reducible apply only_mk) <;> first
        | with_reducible exact fun _ => rfl
        | exact fun hn => absurd (hq (by decide)) hn
        | skip)
    | exact List.Subset.trans (by decide) hq
    | refine pair_only (by assumption) ?_
    | assumption

theorem execExtAssign_only {s0 : State} {ps : List Part} (tag : BitVec 16) (index : BitVec 21) (s : State) (hs : s0.changesOnly s ps) (hq : [.free, .pkg, .ports, .req, .coh, .ext, .adm, .tier, .xl, .cmp, .cpu, .clv, .atn, .comp, .sec, .log, .adk, .evq] ⊆ ps) : onlyNext s0 (execExtAssign tag index s) ps := by
  unfold execExtAssign
  repeat' first
    | with_reducible assumption
    | with_reducible apply State.extCmdWr_only
    | with_reducible apply ite_only
    | with_reducible apply ite_fst_only
    | with_reducible apply next_only
    | with_reducible intro _
    | split
    | dsimp only
    | ((with_reducible apply only_mk) <;> first
        | with_reducible exact fun _ => rfl
        | exact fun hn => absurd (hq (by decide)) hn
        | skip)
    | exact List.Subset.trans (by decide) hq
    | refine pair_only (by assumption) ?_
    | assumption

theorem execExtSetattr_only {s0 : State} {ps : List Part} (tag : BitVec 16) (index : BitVec 21) (s : State) (hs : s0.changesOnly s ps) (hq : [.free, .pkg, .ports, .req, .coh, .ext, .adm, .tier, .xl, .cmp, .cpu, .clv, .atn, .comp, .sec, .log, .adk, .evq] ⊆ ps) : onlyNext s0 (execExtSetattr tag index s) ps := by
  unfold execExtSetattr
  repeat' first
    | with_reducible assumption
    | with_reducible apply State.extCmdWr_only
    | with_reducible apply ite_only
    | with_reducible apply ite_fst_only
    | with_reducible apply next_only
    | with_reducible intro _
    | split
    | dsimp only
    | ((with_reducible apply only_mk) <;> first
        | with_reducible exact fun _ => rfl
        | exact fun hn => absurd (hq (by decide)) hn
        | skip)
    | exact List.Subset.trans (by decide) hq
    | refine pair_only (by assumption) ?_
    | assumption

theorem execExtRevoke_only {s0 : State} {ps : List Part} (tag : BitVec 16) (index : BitVec 21) (s : State) (hs : s0.changesOnly s ps) (hq : [.free, .pkg, .ports, .req, .coh, .ext, .adm, .tier, .xl, .cmp, .cpu, .clv, .atn, .comp, .sec, .log, .adk, .evq] ⊆ ps) : onlyNext s0 (execExtRevoke tag index s) ps := by
  unfold execExtRevoke
  repeat' first
    | with_reducible assumption
    | with_reducible apply State.extCmdWr_only
    | with_reducible apply ite_only
    | with_reducible apply ite_fst_only
    | with_reducible apply next_only
    | with_reducible intro _
    | split
    | dsimp only
    | ((with_reducible apply only_mk) <;> first
        | with_reducible exact fun _ => rfl
        | exact fun hn => absurd (hq (by decide)) hn
        | skip)
    | exact List.Subset.trans (by decide) hq
    | refine pair_only (by assumption) ?_
    | assumption

theorem execExtRelease_only {s0 : State} {ps : List Part} (tag : BitVec 16) (index : BitVec 21) (s : State) (hs : s0.changesOnly s ps) (hq : [.free, .pkg, .ports, .req, .coh, .ext, .adm, .tier, .xl, .cmp, .cpu, .clv, .atn, .comp, .sec, .log, .adk, .evq] ⊆ ps) : onlyNext s0 (execExtRelease tag index s) ps := by
  unfold execExtRelease
  repeat' first
    | with_reducible assumption
    | with_reducible apply State.extCmdWr_only
    | with_reducible apply ite_only
    | with_reducible apply ite_fst_only
    | with_reducible apply next_only
    | with_reducible intro _
    | split
    | dsimp only
    | ((with_reducible apply only_mk) <;> first
        | with_reducible exact fun _ => rfl
        | exact fun hn => absurd (hq (by decide)) hn
        | skip)
    | exact List.Subset.trans (by decide) hq
    | refine pair_only (by assumption) ?_
    | assumption

theorem execExtScrub_only {s0 : State} {ps : List Part} (tag : BitVec 16) (index : BitVec 21) (s : State) (hs : s0.changesOnly s ps) (hq : [.free, .pkg, .ports, .req, .coh, .ext, .adm, .tier, .xl, .cmp, .cpu, .clv, .atn, .comp, .sec, .log, .adk, .evq] ⊆ ps) : onlyNext s0 (execExtScrub tag index s) ps := by
  unfold execExtScrub
  repeat' first
    | with_reducible assumption
    | with_reducible apply State.extCmdWr_only
    | with_reducible apply ite_only
    | with_reducible apply ite_fst_only
    | with_reducible apply next_only
    | with_reducible intro _
    | split
    | dsimp only
    | ((with_reducible apply only_mk) <;> first
        | with_reducible exact fun _ => rfl
        | exact fun hn => absurd (hq (by decide)) hn
        | skip)
    | exact List.Subset.trans (by decide) hq
    | refine pair_only (by assumption) ?_
    | assumption

theorem State.expireLease_only {s0 : State} {ps : List Part} (s : State) (i : Nat) (trig : Nat) (hs : s0.changesOnly s ps) (hq : [.free, .pkg, .ports, .req, .coh, .ext, .lse, .xl, .cpu, .clv, .comp, .sec, .log, .adk, .evq] ⊆ ps) : s0.changesOnly (State.expireLease s i trig) ps := by
  unfold State.expireLease
  repeat' first
    | with_reducible assumption
    | with_reducible apply State.logWith_only
    | with_reducible apply State.countLse_only
    | with_reducible apply State.onLease_only
    | with_reducible apply State.memberDead_only
    | with_reducible apply State.revokeAll_only
    | with_reducible apply ite_only
    | with_reducible apply ite_fst_only
    | with_reducible intro _
    | split
    | dsimp only
    | ((with_reducible apply only_mk) <;> first
        | with_reducible exact fun _ => rfl
        | exact fun hn => absurd (hq (by decide)) hn
        | skip)
    | exact List.Subset.trans (by decide) hq
    | refine pair_only (by assumption) ?_
    | assumption

theorem State.leaseEnds_only {s0 : State} {ps : List Part} (s : State) (i : Nat) (hs : s0.changesOnly s ps) (hq : [.free, .pkg, .ports, .req, .coh, .ext, .lse, .xl, .cpu, .clv, .comp, .sec, .log, .adk, .evq] ⊆ ps) : s0.changesOnly (State.leaseEnds s i) ps := by
  unfold State.leaseEnds
  repeat' first
    | with_reducible assumption
    | with_reducible apply State.expireLease_only
    | with_reducible apply ite_only
    | with_reducible apply ite_fst_only
    | with_reducible intro _
    | split
    | dsimp only
    | ((with_reducible apply only_mk) <;> first
        | with_reducible exact fun _ => rfl
        | exact fun hn => absurd (hq (by decide)) hn
        | skip)
    | exact List.Subset.trans (by decide) hq
    | refine pair_only (by assumption) ?_
    | assumption

theorem execLeaseExpiry_only {s0 : State} {ps : List Part} (index : BitVec 12) (s : State) (hs : s0.changesOnly s ps) (hq : [.free, .pkg, .ports, .req, .coh, .ext, .lse, .xl, .cpu, .clv, .comp, .sec, .log, .adk, .evq] ⊆ ps) : onlyNext s0 (execLeaseExpiry index s) ps := by
  unfold execLeaseExpiry
  repeat' first
    | with_reducible assumption
    | with_reducible apply State.leaseEnds_only
    | with_reducible apply ite_only
    | with_reducible apply ite_fst_only
    | with_reducible apply next_only
    | with_reducible intro _
    | split
    | dsimp only
    | ((with_reducible apply only_mk) <;> first
        | with_reducible exact fun _ => rfl
        | exact fun hn => absurd (hq (by decide)) hn
        | skip)
    | exact List.Subset.trans (by decide) hq
    | refine pair_only (by assumption) ?_
    | assumption

theorem State.armLeases_only {s0 : State} {ps : List Part} (s : State) (hs : s0.changesOnly s ps) (hq : [.lse] ⊆ ps) : s0.changesOnly (State.armLeases s) ps := by
  unfold State.armLeases
  repeat' first
    | with_reducible assumption
    | with_reducible apply ite_only
    | with_reducible apply ite_fst_only
    | with_reducible intro _
    | split
    | dsimp only
    | ((with_reducible apply only_mk) <;> first
        | with_reducible exact fun _ => rfl
        | exact fun hn => absurd (hq (by decide)) hn
        | skip)
    | exact List.Subset.trans (by decide) hq
    | refine pair_only (by assumption) ?_
    | assumption

theorem State.freezeLeases_only {s0 : State} {ps : List Part} (s : State) (hs : s0.changesOnly s ps) (hq : [.lse] ⊆ ps) : s0.changesOnly (State.freezeLeases s) ps := by
  unfold State.freezeLeases
  repeat' first
    | with_reducible assumption
    | with_reducible apply ite_only
    | with_reducible apply ite_fst_only
    | with_reducible intro _
    | split
    | dsimp only
    | ((with_reducible apply only_mk) <;> first
        | with_reducible exact fun _ => rfl
        | exact fun hn => absurd (hq (by decide)) hn
        | skip)
    | exact List.Subset.trans (by decide) hq
    | refine pair_only (by assumption) ?_
    | assumption

theorem State.thawLeases_only {s0 : State} {ps : List Part} (s : State) (hs : s0.changesOnly s ps) (hq : [.lse] ⊆ ps) : s0.changesOnly (State.thawLeases s) ps := by
  unfold State.thawLeases
  repeat' first
    | with_reducible assumption
    | with_reducible apply ite_only
    | with_reducible apply ite_fst_only
    | with_reducible intro _
    | split
    | dsimp only
    | ((with_reducible apply only_mk) <;> first
        | with_reducible exact fun _ => rfl
        | exact fun hn => absurd (hq (by decide)) hn
        | skip)
    | exact List.Subset.trans (by decide) hq
    | refine pair_only (by assumption) ?_
    | assumption

theorem State.lseCreate_only {s0 : State} {ps : List Part} (s : State) (hs : s0.changesOnly s ps) (hq : [.lse] ⊆ ps) : s0.changesOnly (State.lseCreate s).1 ps := by
  unfold State.lseCreate
  repeat' first
    | with_reducible assumption
    | with_reducible apply State.onLease_only
    | with_reducible apply ite_only
    | with_reducible apply ite_fst_only
    | with_reducible intro _
    | split
    | dsimp only
    | ((with_reducible apply only_mk) <;> first
        | with_reducible exact fun _ => rfl
        | exact fun hn => absurd (hq (by decide)) hn
        | skip)
    | exact List.Subset.trans (by decide) hq
    | refine pair_only (by assumption) ?_
    | assumption

theorem State.lseDelete_only {s0 : State} {ps : List Part} (s : State) (hs : s0.changesOnly s ps) (hq : [.lse] ⊆ ps) : s0.changesOnly (State.lseDelete s).1 ps := by
  unfold State.lseDelete
  repeat' first
    | with_reducible assumption
    | with_reducible apply State.onLease_only
    | with_reducible apply ite_only
    | with_reducible apply ite_fst_only
    | with_reducible intro _
    | split
    | dsimp only
    | ((with_reducible apply only_mk) <;> first
        | with_reducible exact fun _ => rfl
        | exact fun hn => absurd (hq (by decide)) hn
        | skip)
    | exact List.Subset.trans (by decide) hq
    | refine pair_only (by assumption) ?_
    | assumption

theorem State.lseHandoff_only {s0 : State} {ps : List Part} (s : State) (u : BitVec 16) (hs : s0.changesOnly s ps) (hq : [.lse] ⊆ ps) : s0.changesOnly (State.lseHandoff s u).1 ps := by
  unfold State.lseHandoff
  repeat' first
    | with_reducible assumption
    | with_reducible apply State.onLease_only
    | with_reducible apply ite_only
    | with_reducible apply ite_fst_only
    | with_reducible intro _
    | split
    | dsimp only
    | ((with_reducible apply only_mk) <;> first
        | with_reducible exact fun _ => rfl
        | exact fun hn => absurd (hq (by decide)) hn
        | skip)
    | exact List.Subset.trans (by decide) hq
    | refine pair_only (by assumption) ?_
    | assumption

theorem State.lseExpire_only {s0 : State} {ps : List Part} (s : State) (hs : s0.changesOnly s ps) (hq : [.free, .pkg, .ports, .req, .coh, .ext, .lse, .xl, .cpu, .clv, .comp, .sec, .log, .adk, .evq] ⊆ ps) : s0.changesOnly (State.lseExpire s).1 ps := by
  unfold State.lseExpire
  repeat' first
    | with_reducible assumption
    | with_reducible apply State.expireLease_only
    | with_reducible apply ite_only
    | with_reducible apply ite_fst_only
    | with_reducible intro _
    | split
    | dsimp only
    | ((with_reducible apply only_mk) <;> first
        | with_reducible exact fun _ => rfl
        | exact fun hn => absurd (hq (by decide)) hn
        | skip)
    | exact List.Subset.trans (by decide) hq
    | refine pair_only (by assumption) ?_
    | assumption

theorem State.lseCmd_only {s0 : State} {ps : List Part} (s : State) (v : BitVec 64) (hs : s0.changesOnly s ps) (hq : [.free, .pkg, .ports, .req, .coh, .ext, .lse, .xl, .cpu, .clv, .comp, .sec, .log, .adk, .evq] ⊆ ps) : s0.changesOnly (State.lseCmd s v).1 ps := by
  unfold State.lseCmd
  repeat' first
    | with_reducible assumption
    | with_reducible apply State.leaseEnds_only
    | with_reducible apply State.lseCreate_only
    | with_reducible apply State.lseDelete_only
    | with_reducible apply State.lseHandoff_only
    | with_reducible apply State.lseExpire_only
    | with_reducible apply ite_only
    | with_reducible apply ite_fst_only
    | with_reducible intro _
    | split
    | dsimp only
    | ((with_reducible apply only_mk) <;> first
        | with_reducible exact fun _ => rfl
        | exact fun hn => absurd (hq (by decide)) hn
        | skip)
    | exact List.Subset.trans (by decide) hq
    | refine pair_only (by assumption) ?_
    | assumption

theorem State.lseCmdWr_only {s0 : State} {ps : List Part} (s : State) (tag : BitVec 16) (n : Nat) (hs : s0.changesOnly s ps) (hq : [.free, .pkg, .ports, .req, .coh, .ext, .lse, .xl, .cpu, .clv, .comp, .sec, .log, .adk, .evq] ⊆ ps) : s0.changesOnly (State.lseCmdWr s tag n) ps := by
  unfold State.lseCmdWr
  repeat' first
    | with_reducible assumption
    | with_reducible apply State.adkWr_only
    | with_reducible apply State.lseCmd_only
    | with_reducible apply ite_only
    | with_reducible apply ite_fst_only
    | with_reducible intro _
    | split
    | dsimp only
    | ((with_reducible apply only_mk) <;> first
        | with_reducible exact fun _ => rfl
        | exact fun hn => absurd (hq (by decide)) hn
        | skip)
    | exact List.Subset.trans (by decide) hq
    | refine pair_only (by assumption) ?_
    | assumption

theorem execLseCreate_only {s0 : State} {ps : List Part} (tag : BitVec 16) (s : State) (hs : s0.changesOnly s ps) (hq : [.free, .pkg, .ports, .req, .coh, .ext, .lse, .xl, .cpu, .clv, .comp, .sec, .log, .adk, .evq] ⊆ ps) : onlyNext s0 (execLseCreate tag s) ps := by
  unfold execLseCreate
  repeat' first
    | with_reducible assumption
    | with_reducible apply State.lseCmdWr_only
    | with_reducible apply ite_only
    | with_reducible apply ite_fst_only
    | with_reducible apply next_only
    | with_reducible intro _
    | split
    | dsimp only
    | ((with_reducible apply only_mk) <;> first
        | with_reducible exact fun _ => rfl
        | exact fun hn => absurd (hq (by decide)) hn
        | skip)
    | exact List.Subset.trans (by decide) hq
    | refine pair_only (by assumption) ?_
    | assumption

theorem execLseDelete_only {s0 : State} {ps : List Part} (tag : BitVec 16) (s : State) (hs : s0.changesOnly s ps) (hq : [.free, .pkg, .ports, .req, .coh, .ext, .lse, .xl, .cpu, .clv, .comp, .sec, .log, .adk, .evq] ⊆ ps) : onlyNext s0 (execLseDelete tag s) ps := by
  unfold execLseDelete
  repeat' first
    | with_reducible assumption
    | with_reducible apply State.lseCmdWr_only
    | with_reducible apply ite_only
    | with_reducible apply ite_fst_only
    | with_reducible apply next_only
    | with_reducible intro _
    | split
    | dsimp only
    | ((with_reducible apply only_mk) <;> first
        | with_reducible exact fun _ => rfl
        | exact fun hn => absurd (hq (by decide)) hn
        | skip)
    | exact List.Subset.trans (by decide) hq
    | refine pair_only (by assumption) ?_
    | assumption

theorem execLseHandoff_only {s0 : State} {ps : List Part} (tag : BitVec 16) (unit : BitVec 16) (s : State) (hs : s0.changesOnly s ps) (hq : [.free, .pkg, .ports, .req, .coh, .ext, .lse, .xl, .cpu, .clv, .comp, .sec, .log, .adk, .evq] ⊆ ps) : onlyNext s0 (execLseHandoff tag unit s) ps := by
  unfold execLseHandoff
  repeat' first
    | with_reducible assumption
    | with_reducible apply State.lseCmdWr_only
    | with_reducible apply ite_only
    | with_reducible apply ite_fst_only
    | with_reducible apply next_only
    | with_reducible intro _
    | split
    | dsimp only
    | ((with_reducible apply only_mk) <;> first
        | with_reducible exact fun _ => rfl
        | exact fun hn => absurd (hq (by decide)) hn
        | skip)
    | exact List.Subset.trans (by decide) hq
    | refine pair_only (by assumption) ?_
    | assumption

theorem execLseExpire_only {s0 : State} {ps : List Part} (tag : BitVec 16) (s : State) (hs : s0.changesOnly s ps) (hq : [.free, .pkg, .ports, .req, .coh, .ext, .lse, .xl, .cpu, .clv, .comp, .sec, .log, .adk, .evq] ⊆ ps) : onlyNext s0 (execLseExpire tag s) ps := by
  unfold execLseExpire
  repeat' first
    | with_reducible assumption
    | with_reducible apply State.lseCmdWr_only
    | with_reducible apply ite_only
    | with_reducible apply ite_fst_only
    | with_reducible apply next_only
    | with_reducible intro _
    | split
    | dsimp only
    | ((with_reducible apply only_mk) <;> first
        | with_reducible exact fun _ => rfl
        | exact fun hn => absurd (hq (by decide)) hn
        | skip)
    | exact List.Subset.trans (by decide) hq
    | refine pair_only (by assumption) ?_
    | assumption

theorem State.lseEntry_only {s0 : State} {ps : List Part} (s : State) (v : BitVec 64) (hs : s0.changesOnly s ps) (hq : [.lse] ⊆ ps) : s0.changesOnly (State.lseEntry s v).1 ps := by
  unfold State.lseEntry
  repeat' first
    | with_reducible assumption
    | with_reducible apply State.onLease_only
    | with_reducible apply ite_only
    | with_reducible apply ite_fst_only
    | with_reducible intro _
    | split
    | dsimp only
    | ((with_reducible apply only_mk) <;> first
        | with_reducible exact fun _ => rfl
        | exact fun hn => absurd (hq (by decide)) hn
        | skip)
    | exact List.Subset.trans (by decide) hq
    | refine pair_only (by assumption) ?_
    | assumption

theorem State.lseBounds_only {s0 : State} {ps : List Part} (s : State) (v : BitVec 64) (hs : s0.changesOnly s ps) (hq : [.lse] ⊆ ps) : s0.changesOnly (State.lseBounds s v).1 ps := by
  unfold State.lseBounds
  repeat' first
    | with_reducible assumption
    | with_reducible apply ite_only
    | with_reducible apply ite_fst_only
    | with_reducible intro _
    | split
    | dsimp only
    | ((with_reducible apply only_mk) <;> first
        | with_reducible exact fun _ => rfl
        | exact fun hn => absurd (hq (by decide)) hn
        | skip)
    | exact List.Subset.trans (by decide) hq
    | refine pair_only (by assumption) ?_
    | assumption

theorem State.leaseRenew_only {s0 : State} {ps : List Part} (s : State) (p : Nat) (f : Frame) (hs : s0.changesOnly s ps) (hq : [.free, .pkg, .ports, .req, .coh, .ext, .lse, .xl, .cpu, .clv, .comp, .sec, .log, .adk, .evq] ⊆ ps) : s0.changesOnly (State.leaseRenew s p f) ps := by
  unfold State.leaseRenew
  repeat' first
    | with_reducible assumption
    | with_reducible apply State.countLse_only
    | with_reducible apply State.onLease_only
    | with_reducible apply State.sendFrom_only
    | with_reducible apply State.leaseEnds_only
    | with_reducible apply ite_only
    | with_reducible apply ite_fst_only
    | with_reducible intro _
    | split
    | dsimp only
    | ((with_reducible apply only_mk) <;> first
        | with_reducible exact fun _ => rfl
        | exact fun hn => absurd (hq (by decide)) hn
        | skip)
    | exact List.Subset.trans (by decide) hq
    | refine pair_only (by assumption) ?_
    | assumption

theorem State.unbindMeters_only {s0 : State} {ps : List Part} (s : State) (r : Nat) (hs : s0.changesOnly s ps) (hq : [.ports] ⊆ ps) : s0.changesOnly (State.unbindMeters s r) ps := by
  unfold State.unbindMeters
  repeat' first
    | with_reducible assumption
    | with_reducible apply ite_only
    | with_reducible apply ite_fst_only
    | with_reducible intro _
    | split
    | dsimp only
    | ((with_reducible apply only_mk) <;> first
        | with_reducible exact fun _ => rfl
        | exact fun hn => absurd (hq (by decide)) hn
        | skip)
    | exact List.Subset.trans (by decide) hq
    | refine pair_only (by assumption) ?_
    | assumption

theorem State.bindMeters_only {s0 : State} {ps : List Part} (s : State) (r : Nat) (hs : s0.changesOnly s ps) (hq : [.ports] ⊆ ps) : s0.changesOnly (State.bindMeters s r) ps := by
  unfold State.bindMeters
  repeat' first
    | with_reducible assumption
    | with_reducible apply State.onTc_only
    | with_reducible apply State.unbindMeters_only
    | with_reducible apply foldl_only
    | with_reducible apply foldl_fst_only
    | with_reducible apply ite_only
    | with_reducible apply ite_fst_only
    | with_reducible intro _
    | split
    | dsimp only
    | ((with_reducible apply only_mk) <;> first
        | with_reducible exact fun _ => rfl
        | exact fun hn => absurd (hq (by decide)) hn
        | skip)
    | exact List.Subset.trans (by decide) hq
    | refine pair_only (by assumption) ?_
    | assumption

theorem State.admCmd_only {s0 : State} {ps : List Part} (s : State) (v : BitVec 64) (hs : s0.changesOnly s ps) (hq : [.ports, .adm] ⊆ ps) : s0.changesOnly (State.admCmd s v).1 ps := by
  unfold State.admCmd
  repeat' first
    | with_reducible assumption
    | with_reducible apply State.onAdm_only
    | with_reducible apply State.unbindMeters_only
    | with_reducible apply State.bindMeters_only
    | with_reducible apply ite_only
    | with_reducible apply ite_fst_only
    | with_reducible intro _
    | split
    | dsimp only
    | ((with_reducible apply only_mk) <;> first
        | with_reducible exact fun _ => rfl
        | exact fun hn => absurd (hq (by decide)) hn
        | skip)
    | exact List.Subset.trans (by decide) hq
    | refine pair_only (by assumption) ?_
    | assumption

theorem State.admCmdWr_only {s0 : State} {ps : List Part} (s : State) (tag : BitVec 16) (op : Nat) (hs : s0.changesOnly s ps) (hq : [.ports, .adm, .sec, .log, .adk, .evq] ⊆ ps) : s0.changesOnly (State.admCmdWr s tag op) ps := by
  unfold State.admCmdWr
  repeat' first
    | with_reducible assumption
    | with_reducible apply State.adkWr_only
    | with_reducible apply State.admCmd_only
    | with_reducible apply ite_only
    | with_reducible apply ite_fst_only
    | with_reducible intro _
    | split
    | dsimp only
    | ((with_reducible apply only_mk) <;> first
        | with_reducible exact fun _ => rfl
        | exact fun hn => absurd (hq (by decide)) hn
        | skip)
    | exact List.Subset.trans (by decide) hq
    | refine pair_only (by assumption) ?_
    | assumption

theorem execAdmAdmit_only {s0 : State} {ps : List Part} (tag : BitVec 16) (s : State) (hs : s0.changesOnly s ps) (hq : [.ports, .adm, .sec, .log, .adk, .evq] ⊆ ps) : onlyNext s0 (execAdmAdmit tag s) ps := by
  unfold execAdmAdmit
  repeat' first
    | with_reducible assumption
    | with_reducible apply State.admCmdWr_only
    | with_reducible apply ite_only
    | with_reducible apply ite_fst_only
    | with_reducible apply next_only
    | with_reducible intro _
    | split
    | dsimp only
    | ((with_reducible apply only_mk) <;> first
        | with_reducible exact fun _ => rfl
        | exact fun hn => absurd (hq (by decide)) hn
        | skip)
    | exact List.Subset.trans (by decide) hq
    | refine pair_only (by assumption) ?_
    | assumption

theorem execAdmResize_only {s0 : State} {ps : List Part} (tag : BitVec 16) (s : State) (hs : s0.changesOnly s ps) (hq : [.ports, .adm, .sec, .log, .adk, .evq] ⊆ ps) : onlyNext s0 (execAdmResize tag s) ps := by
  unfold execAdmResize
  repeat' first
    | with_reducible assumption
    | with_reducible apply State.admCmdWr_only
    | with_reducible apply ite_only
    | with_reducible apply ite_fst_only
    | with_reducible apply next_only
    | with_reducible intro _
    | split
    | dsimp only
    | ((with_reducible apply only_mk) <;> first
        | with_reducible exact fun _ => rfl
        | exact fun hn => absurd (hq (by decide)) hn
        | skip)
    | exact List.Subset.trans (by decide) hq
    | refine pair_only (by assumption) ?_
    | assumption

theorem execAdmRelease_only {s0 : State} {ps : List Part} (tag : BitVec 16) (s : State) (hs : s0.changesOnly s ps) (hq : [.ports, .adm, .sec, .log, .adk, .evq] ⊆ ps) : onlyNext s0 (execAdmRelease tag s) ps := by
  unfold execAdmRelease
  repeat' first
    | with_reducible assumption
    | with_reducible apply State.admCmdWr_only
    | with_reducible apply ite_only
    | with_reducible apply ite_fst_only
    | with_reducible apply next_only
    | with_reducible intro _
    | split
    | dsimp only
    | ((with_reducible apply only_mk) <;> first
        | with_reducible exact fun _ => rfl
        | exact fun hn => absurd (hq (by decide)) hn
        | skip)
    | exact List.Subset.trans (by decide) hq
    | refine pair_only (by assumption) ?_
    | assumption

end Sys2Proof.Machine
end

