-- ==== Sys2Proof/Laws/OnlyTiers.lean ====
section
/-! SUPPORT. What every operation of Tiers leaves alone. -/

set_option linter.unusedTactic false
set_option linter.unreachableTactic false
set_option linter.unusedVariables false

namespace Sys2Proof.Machine

theorem State.trnResult_only {s0 : State} {ps : List Part} (s : State) (st : BitVec 6) (hs : s0.changesOnly s ps) (hq : [.xl] ⊆ ps) : s0.changesOnly (State.trnResult s st) ps := by
  unfold State.trnResult
  repeat' first
    | with_reducible assumption
    | with_reducible apply ite_only
    | with_reducible apply ite_fst_only
    | with_reducible intro _
    | split
    | dsimp only
    | ((with_reducible apply only_mk) <;> first
        | with_reducible exact fun _ => rfl
        | exact fun hn => absurd (hq (by decide)) hn
        | skip)
    | exact List.Subset.trans (by decide) hq
    | refine pair_only (by assumption) ?_
    | assumption

theorem State.trnDone_only {s0 : State} {ps : List Part} (s : State) (st : BitVec 6) (hs : s0.changesOnly s ps) (hq : [.xl] ⊆ ps) : s0.changesOnly (State.trnDone s st).1 ps := by
  unfold State.trnDone
  repeat' first
    | with_reducible assumption
    | with_reducible apply State.trnResult_only
    | with_reducible apply ite_only
    | with_reducible apply ite_fst_only
    | with_reducible intro _
    | split
    | dsimp only
    | ((with_reducible apply only_mk) <;> first
        | with_reducible exact fun _ => rfl
        | exact fun hn => absurd (hq (by decide)) hn
        | skip)
    | exact List.Subset.trans (by decide) hq
    | refine pair_only (by assumption) ?_
    | assumption

theorem State.dropQueued_only {s0 : State} {ps : List Part} (s : State) (hs : s0.changesOnly s ps) (hq : [.tier] ⊆ ps) : s0.changesOnly (State.dropQueued s) ps := by
  unfold State.dropQueued
  repeat' first
    | with_reducible assumption
    | with_reducible apply ite_only
    | with_reducible apply ite_fst_only
    | with_reducible intro _
    | split
    | dsimp only
    | ((with_reducible apply only_mk) <;> first
        | with_reducible exact fun _ => rfl
        | exact fun hn => absurd (hq (by decide)) hn
        | skip)
    | exact List.Subset.trans (by decide) hq
    | refine pair_only (by assumption) ?_
    | assumption

theorem State.halveHeat_only {s0 : State} {ps : List Part} (s : State) (hs : s0.changesOnly s ps) (hq : [.tier] ⊆ ps) : s0.changesOnly (State.halveHeat s) ps := by
  unfold State.halveHeat
  repeat' first
    | with_reducible assumption
    | with_reducible apply ite_only
    | with_reducible apply ite_fst_only
    | with_reducible intro _
    | split
    | dsimp only
    | ((with_reducible apply only_mk) <;> first
        | with_reducible exact fun _ => rfl
        | exact fun hn => absurd (hq (by decide)) hn
        | skip)
    | exact List.Subset.trans (by decide) hq
    | refine pair_only (by assumption) ?_
    | assumption

theorem execHeatDecay_only {s0 : State} {ps : List Part} (s : State) (hs : s0.changesOnly s ps) (hq : [.tim, .tier, .xl, .log, .adk, .evq] ⊆ ps) : onlyNext s0 (execHeatDecay s) ps := by
  unfold execHeatDecay
  repeat' first
    | with_reducible assumption
    | with_reducible apply State.paid_only
    | with_reducible apply State.decidePage_only
    | with_reducible apply State.dropQueued_only
    | with_reducible apply State.halveHeat_only
    | with_reducible apply foldl_only
    | with_reducible apply foldl_fst_only
    | with_reducible apply ite_only
    | with_reducible apply ite_fst_only
    | with_reducible apply next_only
    | with_reducible intro _
    | split
    | dsimp only
    | ((with_reducible apply only_mk) <;> first
        | with_reducible exact fun _ => rfl
        | exact fun hn => absurd (hq (by decide)) hn
        | skip)
    | exact List.Subset.trans (by decide) hq
    | refine pair_only (by assumption) ?_
    | assumption

theorem execMoveStart_only {s0 : State} {ps : List Part} (page : BitVec 30) (s : State) (hs : s0.changesOnly s ps) (hq : [.pkg, .ports, .tier, .adk, .evq] ⊆ ps) : onlyNext s0 (execMoveStart page s) ps := by
  unfold execMoveStart
  repeat' first
    | with_reducible assumption
    | with_reducible apply State.beginMove_only
    | with_reducible apply ite_only
    | with_reducible apply ite_fst_only
    | with_reducible apply next_only
    | with_reducible intro _
    | split
    | dsimp only
    | ((with_reducible apply only_mk) <;> first
        | with_reducible exact fun _ => rfl
        | exact fun hn => absurd (hq (by decide)) hn
        | skip)
    | exact List.Subset.trans (by decide) hq
    | refine pair_only (by assumption) ?_
    | assumption

theorem State.moveOn_only {s0 : State} {ps : List Part} (s : State) (page : Nat) (hs : s0.changesOnly s ps) (hq : [.tier] ⊆ ps) : s0.changesOnly (State.moveOn s page) ps := by
  unfold State.moveOn
  repeat' first
    | with_reducible assumption
    | with_reducible apply State.queueMove_only
    | with_reducible apply ite_only
    | with_reducible apply ite_fst_only
    | with_reducible intro _
    | split
    | dsimp only
    | ((with_reducible apply only_mk) <;> first
        | with_reducible exact fun _ => rfl
        | exact fun hn => absurd (hq (by decide)) hn
        | skip)
    | exact List.Subset.trans (by decide) hq
    | refine pair_only (by assumption) ?_
    | assumption

theorem execMoveComplete_only {s0 : State} {ps : List Part} (page : BitVec 30) (s : State) (hs : s0.changesOnly s ps) (hq : [.pkg, .ports, .req, .coh, .ext, .tier, .xl, .cmp, .cpu, .clv, .atn, .comp, .sec, .log, .adk, .evq] ⊆ ps) : onlyNext s0 (execMoveComplete page s) ps := by
  unfold execMoveComplete
  repeat' first
    | with_reducible assumption
    | with_reducible apply State.wake_only
    | with_reducible apply State.endMove_only
    | with_reducible apply State.moveOn_only
    | with_reducible apply ite_only
    | with_reducible apply ite_fst_only
    | with_reducible apply next_only
    | with_reducible intro _
    | split
    | dsimp only
    | ((with_reducible apply only_mk) <;> first
        | with_reducible exact fun _ => rfl
        | exact fun hn => absurd (hq (by decide)) hn
        | skip)
    | exact List.Subset.trans (by decide) hq
    | refine pair_only (by assumption) ?_
    | assumption

theorem execPavilionWarm_only {s0 : State} {ps : List Part} (pv : BitVec 6) (s : State) (hs : s0.changesOnly s ps) (hq : [.tier] ⊆ ps) : onlyNext s0 (execPavilionWarm pv s) ps := by
  unfold execPavilionWarm
  repeat' first
    | with_reducible assumption
    | with_reducible apply ite_only
    | with_reducible apply ite_fst_only
    | with_reducible apply next_only
    | with_reducible intro _
    | split
    | dsimp only
    | ((with_reducible apply only_mk) <;> first
        | with_reducible exact fun _ => rfl
        | exact fun hn => absurd (hq (by decide)) hn
        | skip)
    | exact List.Subset.trans (by decide) hq
    | refine pair_only (by assumption) ?_
    | assumption

theorem State.dropTierMoves_only {s0 : State} {ps : List Part} (s : State) (page : Nat) (hs : s0.changesOnly s ps) (hq : [.tier] ⊆ ps) : s0.changesOnly (State.dropTierMoves s page) ps := by
  unfold State.dropTierMoves
  repeat' first
    | with_reducible assumption
    | with_reducible apply ite_only
    | with_reducible apply ite_fst_only
    | with_reducible intro _
    | split
    | dsimp only
    | ((with_reducible apply only_mk) <;> first
        | with_reducible exact fun _ => rfl
        | exact fun hn => absurd (hq (by decide)) hn
        | skip)
    | exact List.Subset.trans (by decide) hq
    | refine pair_only (by assumption) ?_
    | assumption

theorem State.setPin_only {s0 : State} {ps : List Part} (s : State) (page : Nat) (pin : BitVec 2) (hs : s0.changesOnly s ps) (hq : [.tier, .xl] ⊆ ps) : s0.changesOnly (State.setPin s page pin).1 ps := by
  unfold State.setPin
  repeat' first
    | with_reducible assumption
    | with_reducible apply State.onPage_only
    | with_reducible apply State.queueMove_only
    | with_reducible apply State.trnDone_only
    | with_reducible apply State.dropTierMoves_only
    | with_reducible apply ite_only
    | with_reducible apply ite_fst_only
    | with_reducible intro _
    | split
    | dsimp only
    | ((with_reducible apply only_mk) <;> first
        | with_reducible exact fun _ => rfl
        | exact fun hn => absurd (hq (by decide)) hn
        | skip)
    | exact List.Subset.trans (by decide) hq
    | refine pair_only (by assumption) ?_
    | assumption

theorem State.relocate_only {s0 : State} {ps : List Part} (s : State) (page : Nat) (hs : s0.changesOnly s ps) (hq : [.pkg, .ports, .tier, .xl, .adk, .evq] ⊆ ps) : s0.changesOnly (State.relocate s page).1 ps := by
  unfold State.relocate
  repeat' first
    | with_reducible assumption
    | with_reducible apply State.onPage_only
    | refine State.allocSlot_only _ _ ?_ ?_ (_, _, _) (by assumption)
    | with_reducible apply State.relocBlock_only
    | with_reducible apply State.trnDone_only
    | with_reducible apply ite_only
    | with_reducible apply ite_fst_only
    | with_reducible intro _
    | split
    | dsimp only
    | ((with_reducible apply only_mk) <;> first
        | with_reducible exact fun _ => rfl
        | exact fun hn => absurd (hq (by decide)) hn
        | skip)
    | exact List.Subset.trans (by decide) hq
    | refine pair_only (by assumption) ?_
    | assumption

theorem State.tpCmd_only {s0 : State} {ps : List Part} (s : State) (v : BitVec 64) (hs : s0.changesOnly s ps) (hq : [.pkg, .ports, .tier, .xl, .adk, .evq] ⊆ ps) : s0.changesOnly (State.tpCmd s v).1 ps := by
  unfold State.tpCmd
  repeat' first
    | with_reducible assumption
    | with_reducible apply State.trnDone_only
    | with_reducible apply State.setPin_only
    | with_reducible apply State.relocate_only
    | with_reducible apply ite_only
    | with_reducible apply ite_fst_only
    | with_reducible intro _
    | split
    | dsimp only
    | ((with_reducible apply only_mk) <;> first
        | with_reducible exact fun _ => rfl
        | exact fun hn => absurd (hq (by decide)) hn
        | skip)
    | exact List.Subset.trans (by decide) hq
    | refine pair_only (by assumption) ?_
    | assumption

theorem execTpSetpin_only {s0 : State} {ps : List Part} (tag : BitVec 16) (pin : BitVec 2) (s : State) (hs : s0.changesOnly s ps) (hq : [.pkg, .ports, .tier, .xl, .sec, .log, .adk, .evq] ⊆ ps) : onlyNext s0 (execTpSetpin tag pin s) ps := by
  unfold execTpSetpin
  repeat' first
    | with_reducible assumption
    | with_reducible apply State.adkWr_only
    | with_reducible apply State.tpCmd_only
    | with_reducible apply ite_only
    | with_reducible apply ite_fst_only
    | with_reducible apply next_only
    | with_reducible intro _
    | split
    | dsimp only
    | ((with_reducible apply only_mk) <;> first
        | with_reducible exact fun _ => rfl
        | exact fun hn => absurd (hq (by decide)) hn
        | skip)
    | exact List.Subset.trans (by decide) hq
    | refine pair_only (by assumption) ?_
    | assumption

theorem execTpRelocate_only {s0 : State} {ps : List Part} (tag : BitVec 16) (s : State) (hs : s0.changesOnly s ps) (hq : [.pkg, .ports, .tier, .xl, .sec, .log, .adk, .evq] ⊆ ps) : onlyNext s0 (execTpRelocate tag s) ps := by
  unfold execTpRelocate
  repeat' first
    | with_reducible assumption
    | with_reducible apply State.adkWr_only
    | with_reducible apply State.tpCmd_only
    | with_reducible apply ite_only
    | with_reducible apply ite_fst_only
    | with_reducible apply next_only
    | with_reducible intro _
    | split
    | dsimp only
    | ((with_reducible apply only_mk) <;> first
        | with_reducible exact fun _ => rfl
        | exact fun hn => absurd (hq (by decide)) hn
        | skip)
    | exact List.Subset.trans (by decide) hq
    | refine pair_only (by assumption) ?_
    | assumption

theorem State.evacuate_only {s0 : State} {ps : List Part} (s : State) (t : Nat) (hs : s0.changesOnly s ps) (hq : [.tier, .xl] ⊆ ps) : s0.changesOnly (State.evacuate s t).1 ps := by
  unfold State.evacuate
  repeat' first
    | with_reducible assumption
    | with_reducible apply State.onTray_only
    | with_reducible apply State.queueMove_only
    | with_reducible apply State.trnDone_only
    | with_reducible apply foldl_only
    | with_reducible apply foldl_fst_only
    | with_reducible apply ite_only
    | with_reducible apply ite_fst_only
    | with_reducible intro _
    | split
    | dsimp only
    | ((with_reducible apply only_mk) <;> first
        | with_reducible exact fun _ => rfl
        | exact fun hn => absurd (hq (by decide)) hn
        | skip)
    | exact List.Subset.trans (by decide) hq
    | refine pair_only (by assumption) ?_
    | assumption

theorem State.retireTray_only {s0 : State} {ps : List Part} (s : State) (t : Nat) (hs : s0.changesOnly s ps) (hq : [.pkg, .ports, .req, .coh, .ext, .tier, .xl, .cmp, .cpu, .clv, .atn, .comp, .sec, .log, .adk, .evq] ⊆ ps) : s0.changesOnly (State.retireTray s t).1 ps := by
  unfold State.retireTray
  repeat' first
    | with_reducible assumption
    | with_reducible apply State.trayRetired_only
    | with_reducible apply State.trnDone_only
    | with_reducible apply ite_only
    | with_reducible apply ite_fst_only
    | with_reducible intro _
    | split
    | dsimp only
    | ((with_reducible apply only_mk) <;> first
        | with_reducible exact fun _ => rfl
        | exact fun hn => absurd (hq (by decide)) hn
        | skip)
    | exact List.Subset.trans (by decide) hq
    | refine pair_only (by assumption) ?_
    | assumption

theorem State.sanitizeTray_only {s0 : State} {ps : List Part} (s : State) (t : Nat) (hs : s0.changesOnly s ps) (hq : [.xl] ⊆ ps) : s0.changesOnly (State.sanitizeTray s t).1 ps := by
  unfold State.sanitizeTray
  repeat' first
    | with_reducible assumption
    | with_reducible apply State.trnDone_only
    | with_reducible apply ite_only
    | with_reducible apply ite_fst_only
    | with_reducible intro _
    | split
    | dsimp only
    | ((with_reducible apply only_mk) <;> first
        | with_reducible exact fun _ => rfl
        | exact fun hn => absurd (hq (by decide)) hn
        | skip)
    | exact List.Subset.trans (by decide) hq
    | refine pair_only (by assumption) ?_
    | assumption

theorem State.trayCmd_only {s0 : State} {ps : List Part} (s : State) (v : BitVec 64) (hs : s0.changesOnly s ps) (hq : [.pkg, .ports, .req, .coh, .ext, .tier, .xl, .cmp, .cpu, .clv, .atn, .comp, .sec, .log, .adk, .evq] ⊆ ps) : s0.changesOnly (State.trayCmd s v).1 ps := by
  unfold State.trayCmd
  repeat' first
    | with_reducible assumption
    | with_reducible apply State.trnDone_only
    | with_reducible apply State.evacuate_only
    | with_reducible apply State.retireTray_only
    | with_reducible apply State.sanitizeTray_only
    | with_reducible apply ite_only
    | with_reducible apply ite_fst_only
    | with_reducible intro _
    | split
    | dsimp only
    | ((with_reducible apply only_mk) <;> first
        | with_reducible exact fun _ => rfl
        | exact fun hn => absurd (hq (by decide)) hn
        | skip)
    | exact List.Subset.trans (by decide) hq
    | refine pair_only (by assumption) ?_
    | assumption

theorem State.trayCmdWr_only {s0 : State} {ps : List Part} (s : State) (tag : BitVec 16) (v : BitVec 64) (hs : s0.changesOnly s ps) (hq : [.pkg, .ports, .req, .coh, .ext, .tier, .xl, .cmp, .cpu, .clv, .atn, .comp, .sec, .log, .adk, .evq] ⊆ ps) : s0.changesOnly (State.trayCmdWr s tag v) ps := by
  unfold State.trayCmdWr
  repeat' first
    | with_reducible assumption
    | with_reducible apply State.adkWr_only
    | with_reducible apply State.trayCmd_only
    | with_reducible apply ite_only
    | with_reducible apply ite_fst_only
    | with_reducible intro _
    | split
    | dsimp only
    | ((with_reducible apply only_mk) <;> first
        | with_reducible exact fun _ => rfl
        | exact fun hn => absurd (hq (by decide)) hn
        | skip)
    | exact List.Subset.trans (by decide) hq
    | refine pair_only (by assumption) ?_
    | assumption

theorem execTrayRetire_only {s0 : State} {ps : List Part} (tag : BitVec 16) (s : State) (hs : s0.changesOnly s ps) (hq : [.pkg, .ports, .req, .coh, .ext, .tier, .xl, .cmp, .cpu, .clv, .atn, .comp, .sec, .log, .adk, .evq] ⊆ ps) : onlyNext s0 (execTrayRetire tag s) ps := by
  unfold execTrayRetire
  repeat' first
    | with_reducible assumption
    | with_reducible apply State.trayCmdWr_only
    | with_reducible apply ite_only
    | with_reducible apply ite_fst_only
    | with_reducible apply next_only
    | with_reducible intro _
    | split
    | dsimp only
    | ((with_reducible apply only_mk) <;> first
        | with_reducible exact fun _ => rfl
        | exact fun hn => absurd (hq (by decide)) hn
        | skip)
    | exact List.Subset.trans (by decide) hq
    | refine pair_only (by assumption) ?_
    | assumption

theorem execTrayEvacuate_only {s0 : State} {ps : List Part} (tag : BitVec 16) (s : State) (hs : s0.changesOnly s ps) (hq : [.pkg, .ports, .req, .coh, .ext, .tier, .xl, .cmp, .cpu, .clv, .atn, .comp, .sec, .log, .adk, .evq] ⊆ ps) : onlyNext s0 (execTrayEvacuate tag s) ps := by
  unfold execTrayEvacuate
  repeat' first
    | with_reducible assumption
    | with_reducible apply State.trayCmdWr_only
    | with_reducible apply ite_only
    | with_reducible apply ite_fst_only
    | with_reducible apply next_only
    | with_reducible intro _
    | split
    | dsimp only
    | ((with_reducible apply only_mk) <;> first
        | with_reducible exact fun _ => rfl
        | exact fun hn => absurd (hq (by decide)) hn
        | skip)
    | exact List.Subset.trans (by decide) hq
    | refine pair_only (by assumption) ?_
    | assumption

theorem execTraySanitize_only {s0 : State} {ps : List Part} (tag : BitVec 16) (s : State) (hs : s0.changesOnly s ps) (hq : [.pkg, .ports, .req, .coh, .ext, .tier, .xl, .cmp, .cpu, .clv, .atn, .comp, .sec, .log, .adk, .evq] ⊆ ps) : onlyNext s0 (execTraySanitize tag s) ps := by
  unfold execTraySanitize
  repeat' first
    | with_reducible assumption
    | with_reducible apply State.trayCmdWr_only
    | with_reducible apply ite_only
    | with_reducible apply ite_fst_only
    | with_reducible apply next_only
    | with_reducible intro _
    | split
    | dsimp only
    | ((with_reducible apply only_mk) <;> first
        | with_reducible exact fun _ => rfl
        | exact fun hn => absurd (hq (by decide)) hn
        | skip)
    | exact List.Subset.trans (by decide) hq
    | refine pair_only (by assumption) ?_
    | assumption

theorem execEvacuateComplete_only {s0 : State} {ps : List Part} (tray : BitVec 9) (s : State) (hs : s0.changesOnly s ps) (hq : [.pkg, .ports, .req, .coh, .ext, .tier, .xl, .cmp, .cpu, .clv, .atn, .comp, .sec, .log, .adk, .evq] ⊆ ps) : onlyNext s0 (execEvacuateComplete tray s) ps := by
  unfold execEvacuateComplete
  repeat' first
    | with_reducible assumption
    | with_reducible apply State.trayRetired_only
    | with_reducible apply ite_only
    | with_reducible apply ite_fst_only
    | with_reducible apply next_only
    | with_reducible intro _
    | split
    | dsimp only
    | ((with_reducible apply only_mk) <;> first
        | with_reducible exact fun _ => rfl
        | exact fun hn => absurd (hq (by decide)) hn
        | skip)
    | exact List.Subset.trans (by decide) hq
    | refine pair_only (by assumption) ?_
    | assumption

theorem execBitmapRetryTimer_only {s0 : State} {ps : List Part} (port : BitVec 8) (s : State) (hs : s0.changesOnly s ps) (hq : [.pkg, .ports, .tier, .adk, .evq] ⊆ ps) : onlyNext s0 (execBitmapRetryTimer port s) ps := by
  unfold execBitmapRetryTimer
  repeat' first
    | with_reducible assumption
    | with_reducible apply State.writeBitmap_only
    | with_reducible apply ite_only
    | with_reducible apply ite_fst_only
    | with_reducible apply next_only
    | with_reducible intro _
    | split
    | dsimp only
    | ((with_reducible apply only_mk) <;> first
        | with_reducible exact fun _ => rfl
        | exact fun hn => absurd (hq (by decide)) hn
        | skip)
    | exact List.Subset.trans (by decide) hq
    | refine pair_only (by assumption) ?_
    | assumption

theorem State.bridgeUp_only {s0 : State} {ps : List Part} (s : State) (b : Nat) (dev : CxlDevice) (hs : s0.changesOnly s ps) (hq : [.pkg, .ports, .req, .coh, .ext, .tier, .xl, .cmp, .cpu, .clv, .atn, .comp, .sec, .log, .adk, .evq] ⊆ ps) : s0.changesOnly (State.bridgeUp s b dev) ps := by
  unfold State.bridgeUp
  repeat' first
    | with_reducible assumption
    | with_reducible apply State.event_only
    | with_reducible apply State.onTray_only
    | with_reducible apply State.trayTo_only
    | with_reducible apply State.discovered_only
    | with_reducible apply State.trayBack_only
    | with_reducible apply State.trayRetired_only
    | with_reducible apply ite_only
    | with_reducible apply ite_fst_only
    | with_reducible intro _
    | split
    | dsimp only
    | ((with_reducible apply only_mk) <;> first
        | with_reducible exact fun _ => rfl
        | exact fun hn => absurd (hq (by decide)) hn
        | skip)
    | exact List.Subset.trans (by decide) hq
    | refine pair_only (by assumption) ?_
    | assumption

theorem execBridgeLinkActive_only {s0 : State} {ps : List Part} (b : BitVec 4) (dev : CxlDevice) (s : State) (hs : s0.changesOnly s ps) (hq : [.pkg, .ports, .req, .coh, .ext, .tier, .xl, .cmp, .cpu, .clv, .atn, .comp, .sec, .log, .adk, .evq] ⊆ ps) : onlyNext s0 (execBridgeLinkActive b dev s) ps := by
  unfold execBridgeLinkActive
  repeat' first
    | with_reducible assumption
    | with_reducible apply State.bridgeUp_only
    | with_reducible apply ite_only
    | with_reducible apply ite_fst_only
    | with_reducible apply next_only
    | with_reducible intro _
    | split
    | dsimp only
    | ((with_reducible apply only_mk) <;> first
        | with_reducible exact fun _ => rfl
        | exact fun hn => absurd (hq (by decide)) hn
        | skip)
    | exact List.Subset.trans (by decide) hq
    | refine pair_only (by assumption) ?_
    | assumption

theorem execBridgeLinkDown_only {s0 : State} {ps : List Part} (b : BitVec 4) (s : State) (hs : s0.changesOnly s ps) (hq : [.pkg, .ports, .tier, .log, .adk, .evq] ⊆ ps) : onlyNext s0 (execBridgeLinkDown b s) ps := by
  unfold execBridgeLinkDown
  repeat' first
    | with_reducible assumption
    | with_reducible apply State.onTray_only
    | with_reducible apply State.trayGone_only
    | with_reducible apply ite_only
    | with_reducible apply ite_fst_only
    | with_reducible apply next_only
    | with_reducible intro _
    | split
    | dsimp only
    | ((with_reducible apply only_mk) <;> first
        | with_reducible exact fun _ => rfl
        | exact fun hn => absurd (hq (by decide)) hn
        | skip)
    | exact List.Subset.trans (by decide) hq
    | refine pair_only (by assumption) ?_
    | assumption

theorem execCxlCompletion_only {s0 : State} {ps : List Part} (b : BitVec 4) (tag : BitVec 13) (data : List Byte) (poison : BitVec 32) (s : State) (hs : s0.changesOnly s ps) (hq : [.pkg, .ports, .req, .coh, .ext, .tier, .xl, .cmp, .cpu, .clv, .atn, .comp, .sec, .log, .adk, .evq] ⊆ ps) : onlyNext s0 (execCxlCompletion b tag data poison s) ps := by
  unfold execCxlCompletion
  repeat' first
    | with_reducible assumption
    | with_reducible apply State.trayAnswer_only
    | with_reducible apply ite_only
    | with_reducible apply ite_fst_only
    | with_reducible apply next_only
    | with_reducible intro _
    | split
    | dsimp only
    | ((with_reducible apply only_mk) <;> first
        | with_reducible exact fun _ => rfl
        | exact fun hn => absurd (hq (by decide)) hn
        | skip)
    | exact List.Subset.trans (by decide) hq
    | refine pair_only (by assumption) ?_
    | assumption

theorem execCxlCompletionTimeout_only {s0 : State} {ps : List Part} (b : BitVec 4) (tag : BitVec 13) (s : State) (hs : s0.changesOnly s ps) (hq : [.pkg, .ports, .tier, .log, .mod, .adk, .evq] ⊆ ps) : onlyNext s0 (execCxlCompletionTimeout b tag s) ps := by
  unfold execCxlCompletionTimeout
  repeat' first
    | with_reducible assumption
    | with_reducible apply State.logE_only
    | with_reducible apply State.onTray_only
    | with_reducible apply State.trayGone_only
    | with_reducible apply ite_only
    | with_reducible apply ite_fst_only
    | with_reducible apply next_only
    | with_reducible intro _
    | split
    | dsimp only
    | ((with_reducible apply only_mk) <;> first
        | with_reducible exact fun _ => rfl
        | exact fun hn => absurd (hq (by decide)) hn
        | skip)
    | exact List.Subset.trans (by decide) hq
    | refine pair_only (by assumption) ?_
    | assumption

theorem State.mediaLine_only {s0 : State} {ps : List Part} (s : State) (b : Nat) (line : Nat) (hs : s0.changesOnly s ps) (hq : [.req, .tier, .sec, .log, .adk, .evq] ⊆ ps) : s0.changesOnly (State.mediaLine s b line) ps := by
  unfold State.mediaLine
  repeat' first
    | with_reducible assumption
    | with_reducible apply State.logE_only
    | with_reducible apply State.poisonLine_only
    | with_reducible apply ite_only
    | with_reducible apply ite_fst_only
    | with_reducible intro _
    | split
    | dsimp only
    | ((with_reducible apply only_mk) <;> first
        | with_reducible exact fun _ => rfl
        | exact fun hn => absurd (hq (by decide)) hn
        | skip)
    | exact List.Subset.trans (by decide) hq
    | refine pair_only (by assumption) ?_
    | assumption

theorem execCxlMediaEvent_only {s0 : State} {ps : List Part} (b : BitVec 4) (lines : List (BitVec 46)) (s : State) (hs : s0.changesOnly s ps) (hq : [.req, .tier, .sec, .log, .adk, .evq] ⊆ ps) : onlyNext s0 (execCxlMediaEvent b lines s) ps := by
  unfold execCxlMediaEvent
  repeat' first
    | with_reducible assumption
    | with_reducible apply State.mediaLine_only
    | with_reducible apply foldl_only
    | with_reducible apply foldl_fst_only
    | with_reducible apply ite_only
    | with_reducible apply ite_fst_only
    | with_reducible apply next_only
    | with_reducible intro _
    | split
    | dsimp only
    | ((with_reducible apply only_mk) <;> first
        | with_reducible exact fun _ => rfl
        | exact fun hn => absurd (hq (by decide)) hn
        | skip)
    | exact List.Subset.trans (by decide) hq
    | refine pair_only (by assumption) ?_
    | assumption

theorem State.invGo_only {s0 : State} {ps : List Part} (s : State) (v : BitVec 64) (hs : s0.changesOnly s ps) (hq : [.pkg, .ports, .req, .coh, .ext, .tier, .xl, .cmp, .cpu, .clv, .atn, .comp, .sec, .log, .adk, .evq] ⊆ ps) : s0.changesOnly (State.invGo s v).1 ps := by
  unfold State.invGo
  repeat' first
    | with_reducible assumption
    | with_reducible apply State.purge_only
    | with_reducible apply ite_only
    | with_reducible apply ite_fst_only
    | with_reducible intro _
    | split
    | dsimp only
    | ((with_reducible apply only_mk) <;> first
        | with_reducible exact fun _ => rfl
        | exact fun hn => absurd (hq (by decide)) hn
        | skip)
    | exact List.Subset.trans (by decide) hq
    | refine pair_only (by assumption) ?_
    | assumption

theorem execTrnInvGo_only {s0 : State} {ps : List Part} (tag : BitVec 16) (s : State) (hs : s0.changesOnly s ps) (hq : [.pkg, .ports, .req, .coh, .ext, .tier, .xl, .cmp, .cpu, .clv, .atn, .comp, .sec, .log, .adk, .evq] ⊆ ps) : onlyNext s0 (execTrnInvGo tag s) ps := by
  unfold execTrnInvGo
  repeat' first
    | with_reducible assumption
    | with_reducible apply State.adkWr_only
    | with_reducible apply State.invGo_only
    | with_reducible apply ite_only
    | with_reducible apply ite_fst_only
    | with_reducible apply next_only
    | with_reducible intro _
    | split
    | dsimp only
    | ((with_reducible apply only_mk) <;> first
        | with_reducible exact fun _ => rfl
        | exact fun hn => absurd (hq (by decide)) hn
        | skip)
    | exact List.Subset.trans (by decide) hq
    | refine pair_only (by assumption) ?_
    | assumption

theorem execInvalidationComplete_only {s0 : State} {ps : List Part} (s : State) (hs : s0.changesOnly s ps) (hq : [.xl] ⊆ ps) : onlyNext s0 (execInvalidationComplete s) ps := by
  unfold execInvalidationComplete
  repeat' first
    | with_reducible assumption
    | with_reducible apply ite_only
    | with_reducible apply ite_fst_only
    | with_reducible apply next_only
    | with_reducible intro _
    | split
    | dsimp only
    | ((with_reducible apply only_mk) <;> first
        | with_reducible exact fun _ => rfl
        | exact fun hn => absurd (hq (by decide)) hn
        | skip)
    | exact List.Subset.trans (by decide) hq
    | refine pair_only (by assumption) ?_
    | assumption

theorem State.debugNote_only {s0 : State} {ps : List Part} (s : State) (sec : Bool) (a : Nat) (write : Bool) (hs : s0.changesOnly s ps) (hq : [.sec, .log, .adk, .evq] ⊆ ps) : s0.changesOnly (State.debugNote s sec a write) ps := by
  unfold State.debugNote
  repeat' first
    | with_reducible assumption
    | with_reducible apply State.logE_only
    | with_reducible apply State.countSec_only
    | with_reducible apply State.onTenant_only
    | with_reducible apply ite_only
    | with_reducible apply ite_fst_only
    | with_reducible intro _
    | split
    | dsimp only
    | ((with_reducible apply only_mk) <;> first
        | with_reducible exact fun _ => rfl
        | exact fun hn => absurd (hq (by decide)) hn
        | skip)
    | exact List.Subset.trans (by decide) hq
    | refine pair_only (by assumption) ?_
    | assumption

theorem State.homeAccess_only {s0 : State} {ps : List Part} (s : State) (o : Origin) (a : Nat) (write : Option Nat) (hs : s0.changesOnly s ps) (hq : [.pkg, .ports, .req, .coh, .ext, .tier, .xl, .cmp, .cpu, .clv, .atn, .comp, .sec, .log, .adk, .evq] ⊆ ps) : s0.changesOnly (State.homeAccess s o a write).1 ps := by
  unfold State.homeAccess
  repeat' first
    | with_reducible assumption
    | with_reducible apply State.addReq_only
    | with_reducible apply State.finish_only
    | with_reducible apply State.serve_only
    | with_reducible apply State.debugNote_only
    | with_reducible apply ite_only
    | with_reducible apply ite_fst_only
    | with_reducible intro _
    | split
    | dsimp only
    | ((with_reducible apply only_mk) <;> first
        | with_reducible exact fun _ => rfl
        | exact fun hn => absurd (hq (by decide)) hn
        | skip)
    | exact List.Subset.trans (by decide) hq
    | refine pair_only (by assumption) ?_
    | assumption

theorem State.ptwStart_only {s0 : State} {ps : List Part} (s : State) (q : AdkFrame) (write : Option (BitVec 64)) (hs : s0.changesOnly s ps) (hq : [.pkg, .ports, .req, .coh, .ext, .tier, .xl, .cmp, .cpu, .clv, .atn, .comp, .sec, .log, .adk, .evq] ⊆ ps) : s0.changesOnly (State.ptwStart s q write) ps := by
  unfold State.ptwStart
  repeat' first
    | with_reducible assumption
    | with_reducible apply State.adkFail_only
    | with_reducible apply State.trnResult_only
    | with_reducible apply State.homeAccess_only
    | with_reducible apply ite_only
    | with_reducible apply ite_fst_only
    | with_reducible intro _
    | split
    | dsimp only
    | ((with_reducible apply only_mk) <;> first
        | with_reducible exact fun _ => rfl
        | exact fun hn => absurd (hq (by decide)) hn
        | skip)
    | exact List.Subset.trans (by decide) hq
    | refine pair_only (by assumption) ?_
    | assumption

theorem execPtwRead_only {s0 : State} {ps : List Part} (tag : BitVec 16) (s : State) (hs : s0.changesOnly s ps) (hq : [.pkg, .ports, .req, .coh, .ext, .tier, .xl, .cmp, .cpu, .clv, .atn, .comp, .sec, .log, .adk, .evq] ⊆ ps) : onlyNext s0 (execPtwRead tag s) ps := by
  unfold execPtwRead
  repeat' first
    | with_reducible assumption
    | with_reducible apply State.adkRequest_only
    | with_reducible apply State.ptwStart_only
    | with_reducible apply ite_only
    | with_reducible apply ite_fst_only
    | with_reducible apply next_only
    | with_reducible intro _
    | split
    | dsimp only
    | ((with_reducible apply only_mk) <;> first
        | with_reducible exact fun _ => rfl
        | exact fun hn => absurd (hq (by decide)) hn
        | skip)
    | exact List.Subset.trans (by decide) hq
    | refine pair_only (by assumption) ?_
    | assumption

theorem execPtwWrite_only {s0 : State} {ps : List Part} (tag : BitVec 16) (value : BitVec 64) (s : State) (hs : s0.changesOnly s ps) (hq : [.pkg, .ports, .req, .coh, .ext, .tier, .xl, .cmp, .cpu, .clv, .atn, .comp, .sec, .log, .adk, .evq] ⊆ ps) : onlyNext s0 (execPtwWrite tag value s) ps := by
  unfold execPtwWrite
  repeat' first
    | with_reducible assumption
    | with_reducible apply State.adkRequest_only
    | with_reducible apply State.ptwStart_only
    | with_reducible apply ite_only
    | with_reducible apply ite_fst_only
    | with_reducible apply next_only
    | with_reducible intro _
    | split
    | dsimp only
    | ((with_reducible apply only_mk) <;> first
        | with_reducible exact fun _ => rfl
        | exact fun hn => absurd (hq (by decide)) hn
        | skip)
    | exact List.Subset.trans (by decide) hq
    | refine pair_only (by assumption) ?_
    | assumption

theorem State.trnRoot_only {s0 : State} {ps : List Part} (s : State) (v : BitVec 64) (hs : s0.changesOnly s ps) (hq : [.xl] ⊆ ps) : s0.changesOnly (State.trnRoot s v).1 ps := by
  unfold State.trnRoot
  repeat' first
    | with_reducible assumption
    | with_reducible apply ite_only
    | with_reducible apply ite_fst_only
    | with_reducible intro _
    | split
    | dsimp only
    | ((with_reducible apply only_mk) <;> first
        | with_reducible exact fun _ => rfl
        | exact fun hn => absurd (hq (by decide)) hn
        | skip)
    | exact List.Subset.trans (by decide) hq
    | refine pair_only (by assumption) ?_
    | assumption

theorem State.trnMigCfg_only {s0 : State} {ps : List Part} (s : State) (v : BitVec 64) (hs : s0.changesOnly s ps) (hq : [.tim, .tier] ⊆ ps) : s0.changesOnly (State.trnMigCfg s v).1 ps := by
  unfold State.trnMigCfg
  repeat' first
    | with_reducible assumption
    | with_reducible apply State.owing_only
    | with_reducible apply ite_only
    | with_reducible apply ite_fst_only
    | with_reducible intro _
    | split
    | dsimp only
    | ((with_reducible apply only_mk) <;> first
        | with_reducible exact fun _ => rfl
        | exact fun hn => absurd (hq (by decide)) hn
        | skip)
    | exact List.Subset.trans (by decide) hq
    | refine pair_only (by assumption) ?_
    | assumption

theorem State.trnMigWarm_only {s0 : State} {ps : List Part} (s : State) (v : BitVec 64) (hs : s0.changesOnly s ps) (hq : [.tier] ⊆ ps) : s0.changesOnly (State.trnMigWarm s v).1 ps := by
  unfold State.trnMigWarm
  repeat' first
    | with_reducible assumption
    | with_reducible apply ite_only
    | with_reducible apply ite_fst_only
    | with_reducible intro _
    | split
    | dsimp only
    | ((with_reducible apply only_mk) <;> first
        | with_reducible exact fun _ => rfl
        | exact fun hn => absurd (hq (by decide)) hn
        | skip)
    | exact List.Subset.trans (by decide) hq
    | refine pair_only (by assumption) ?_
    | assumption

theorem State.trnBrCfg_only {s0 : State} {ps : List Part} (s : State) (v : BitVec 64) (hs : s0.changesOnly s ps) (hq : [.tier] ⊆ ps) : s0.changesOnly (State.trnBrCfg s v).1 ps := by
  unfold State.trnBrCfg
  repeat' first
    | with_reducible assumption
    | with_reducible apply ite_only
    | with_reducible apply ite_fst_only
    | with_reducible intro _
    | split
    | dsimp only
    | ((with_reducible apply only_mk) <;> first
        | with_reducible exact fun _ => rfl
        | exact fun hn => absurd (hq (by decide)) hn
        | skip)
    | exact List.Subset.trans (by decide) hq
    | refine pair_only (by assumption) ?_
    | assumption

end Sys2Proof.Machine
end

