-- ==== Sys2Proof/Laws/OnlyThreads.lean ====
section
/-! SUPPORT. What every operation of Threads leaves alone. -/

set_option linter.unusedTactic false
set_option linter.unreachableTactic false
set_option linter.unusedVariables false

namespace Sys2Proof.Machine

theorem State.faultThread_only {s0 : State} {ps : List Part} (s : State) (k : Nat) (t : Nat) (cause : Nat) (pc : BitVec 64) (hs : s0.changesOnly s ps) (hq : [.cpu, .log, .adk, .evq] ⊆ ps) : s0.changesOnly (State.faultThread s k t cause pc) ps := by
  unfold State.faultThread
  repeat' first
    | with_reducible assumption
    | with_reducible apply State.logWith_only
    | with_reducible apply State.onCore_only
    | with_reducible apply State.onThread_only
    | with_reducible apply ite_only
    | with_reducible apply ite_fst_only
    | with_reducible intro _
    | split
    | dsimp only
    | ((with_reducible apply only_mk) <;> first
        | with_reducible exact fun _ => rfl
        | exact fun hn => absurd (hq (by decide)) hn
        | skip)
    | exact List.Subset.trans (by decide) hq
    | refine pair_only (by assumption) ?_
    | assumption

theorem State.issue_only {s0 : State} {ps : List Part} (s : State) (k : Nat) (t : Nat) (reads : List Nat) (need : Nat) (body : State → State) (hs : s0.changesOnly s ps) (hbody : ∀ (a0 : State), s0.changesOnly a0 ps → s0.changesOnly (body a0) ps) (hq : [.cpu, .log, .adk, .evq] ⊆ ps) : onlyNext s0 (State.issue s k t reads need body) ps := by
  unfold State.issue
  repeat' first
    | with_reducible assumption
    | with_reducible apply hbody
    | with_reducible apply State.onCore_only
    | with_reducible apply State.onThread_only
    | with_reducible apply State.faultThread_only
    | with_reducible apply ite_only
    | with_reducible apply ite_fst_only
    | with_reducible apply next_only
    | with_reducible intro _
    | split
    | dsimp only
    | ((with_reducible apply only_mk) <;> first
        | with_reducible exact fun _ => rfl
        | exact fun hn => absurd (hq (by decide)) hn
        | skip)
    | exact List.Subset.trans (by decide) hq
    | refine pair_only (by assumption) ?_
    | assumption

theorem State.putReg_only {s0 : State} {ps : List Part} (s : State) (k : Nat) (t : Nat) (r : Nat) (v : BitVec 64) (hs : s0.changesOnly s ps) (hq : [.cpu] ⊆ ps) : s0.changesOnly (State.putReg s k t r v) ps := by
  unfold State.putReg
  repeat' first
    | with_reducible assumption
    | with_reducible apply State.onThread_only
    | with_reducible apply ite_only
    | with_reducible apply ite_fst_only
    | with_reducible intro _
    | split
    | dsimp only
    | ((with_reducible apply only_mk) <;> first
        | with_reducible exact fun _ => rfl
        | exact fun hn => absurd (hq (by decide)) hn
        | skip)
    | exact List.Subset.trans (by decide) hq
    | refine pair_only (by assumption) ?_
    | assumption

theorem State.setStatus_only {s0 : State} {ps : List Part} (s : State) (k : Nat) (t : Nat) (st : BitVec 6) (tva : BitVec 56) (hs : s0.changesOnly s ps) (hq : [.cpu] ⊆ ps) : s0.changesOnly (State.setStatus s k t st tva) ps := by
  unfold State.setStatus
  repeat' first
    | with_reducible assumption
    | with_reducible apply State.onThread_only
    | with_reducible apply ite_only
    | with_reducible apply ite_fst_only
    | with_reducible intro _
    | split
    | dsimp only
    | ((with_reducible apply only_mk) <;> first
        | with_reducible exact fun _ => rfl
        | exact fun hn => absurd (hq (by decide)) hn
        | skip)
    | exact List.Subset.trans (by decide) hq
    | refine pair_only (by assumption) ?_
    | assumption

theorem State.park_only {s0 : State} {ps : List Part} (s : State) (k : Nat) (t : Nat) (g : ThreadState) (w : Wait) (hs : s0.changesOnly s ps) (hq : [.cpu] ⊆ ps) : s0.changesOnly (State.park s k t g w) ps := by
  unfold State.park
  repeat' first
    | with_reducible assumption
    | with_reducible apply State.onThread_only
    | with_reducible apply ite_only
    | with_reducible apply ite_fst_only
    | with_reducible intro _
    | split
    | dsimp only
    | ((with_reducible apply only_mk) <;> first
        | with_reducible exact fun _ => rfl
        | exact fun hn => absurd (hq (by decide)) hn
        | skip)
    | exact List.Subset.trans (by decide) hq
    | refine pair_only (by assumption) ?_
    | assumption

theorem State.faultHere_only {s0 : State} {ps : List Part} (s : State) (k : Nat) (t : Nat) (cause : Nat) (hs : s0.changesOnly s ps) (hq : [.cpu, .log, .adk, .evq] ⊆ ps) : s0.changesOnly (State.faultHere s k t cause) ps := by
  unfold State.faultHere
  repeat' first
    | with_reducible assumption
    | with_reducible apply State.faultThread_only
    | with_reducible apply ite_only
    | with_reducible apply ite_fst_only
    | with_reducible intro _
    | split
    | dsimp only
    | ((with_reducible apply only_mk) <;> first
        | with_reducible exact fun _ => rfl
        | exact fun hn => absurd (hq (by decide)) hn
        | skip)
    | exact List.Subset.trans (by decide) hq
    | refine pair_only (by assumption) ?_
    | assumption

theorem execNop_only {s0 : State} {ps : List Part} (core : BitVec 10) (tid : BitVec 6) (_ins : Ins) (s : State) (hs : s0.changesOnly s ps) (hq : [.cpu, .log, .adk, .evq] ⊆ ps) : onlyNext s0 (execNop core tid _ins s) ps := by
  exact State.issue_only _ _ _ _ _ _ hs (fun _ h => h) (List.Subset.trans (by decide) hq)

theorem execAlu_only {s0 : State} {ps : List Part} (core : BitVec 10) (tid : BitVec 6) (ins : Ins) (s : State) (hs : s0.changesOnly s ps) (hq : [.cpu, .log, .adk, .evq] ⊆ ps) : onlyNext s0 (execAlu core tid ins s) ps := by
  unfold execAlu
  repeat' first
    | with_reducible assumption
    | with_reducible apply State.issue_only
    | with_reducible apply State.putReg_only
    | with_reducible apply ite_only
    | with_reducible apply ite_fst_only
    | with_reducible apply next_only
    | with_reducible intro _
    | split
    | dsimp only
    | ((with_reducible apply only_mk) <;> first
        | with_reducible exact fun _ => rfl
        | exact fun hn => absurd (hq (by decide)) hn
        | skip)
    | exact List.Subset.trans (by decide) hq
    | refine pair_only (by assumption) ?_
    | assumption

theorem execAlui_only {s0 : State} {ps : List Part} (core : BitVec 10) (tid : BitVec 6) (ins : Ins) (s : State) (hs : s0.changesOnly s ps) (hq : [.cpu, .log, .adk, .evq] ⊆ ps) : onlyNext s0 (execAlui core tid ins s) ps := by
  unfold execAlui
  repeat' first
    | with_reducible assumption
    | with_reducible apply State.issue_only
    | with_reducible apply State.putReg_only
    | with_reducible apply ite_only
    | with_reducible apply ite_fst_only
    | with_reducible apply next_only
    | with_reducible intro _
    | split
    | dsimp only
    | ((with_reducible apply only_mk) <;> first
        | with_reducible exact fun _ => rfl
        | exact fun hn => absurd (hq (by decide)) hn
        | skip)
    | exact List.Subset.trans (by decide) hq
    | refine pair_only (by assumption) ?_
    | assumption

theorem execMovi_only {s0 : State} {ps : List Part} (core : BitVec 10) (tid : BitVec 6) (ins : Ins) (s : State) (hs : s0.changesOnly s ps) (hq : [.cpu, .log, .adk, .evq] ⊆ ps) : onlyNext s0 (execMovi core tid ins s) ps := by
  unfold execMovi
  repeat' first
    | with_reducible assumption
    | with_reducible apply State.issue_only
    | with_reducible apply State.putReg_only
    | with_reducible apply ite_only
    | with_reducible apply ite_fst_only
    | with_reducible apply next_only
    | with_reducible intro _
    | split
    | dsimp only
    | ((with_reducible apply only_mk) <;> first
        | with_reducible exact fun _ => rfl
        | exact fun hn => absurd (hq (by decide)) hn
        | skip)
    | exact List.Subset.trans (by decide) hq
    | refine pair_only (by assumption) ?_
    | assumption

theorem execMovhi_only {s0 : State} {ps : List Part} (core : BitVec 10) (tid : BitVec 6) (ins : Ins) (s : State) (hs : s0.changesOnly s ps) (hq : [.cpu, .log, .adk, .evq] ⊆ ps) : onlyNext s0 (execMovhi core tid ins s) ps := by
  unfold execMovhi
  repeat' first
    | with_reducible assumption
    | with_reducible apply State.issue_only
    | with_reducible apply State.putReg_only
    | with_reducible apply ite_only
    | with_reducible apply ite_fst_only
    | with_reducible apply next_only
    | with_reducible intro _
    | split
    | dsimp only
    | ((with_reducible apply only_mk) <;> first
        | with_reducible exact fun _ => rfl
        | exact fun hn => absurd (hq (by decide)) hn
        | skip)
    | exact List.Subset.trans (by decide) hq
    | refine pair_only (by assumption) ?_
    | assumption

theorem execBr_only {s0 : State} {ps : List Part} (core : BitVec 10) (tid : BitVec 6) (ins : Ins) (s : State) (hs : s0.changesOnly s ps) (hq : [.cpu, .log, .adk, .evq] ⊆ ps) : onlyNext s0 (execBr core tid ins s) ps := by
  unfold execBr
  repeat' first
    | with_reducible assumption
    | with_reducible apply State.onThread_only
    | with_reducible apply State.issue_only
    | with_reducible apply State.faultHere_only
    | with_reducible apply ite_only
    | with_reducible apply ite_fst_only
    | with_reducible apply next_only
    | with_reducible intro _
    | split
    | dsimp only
    | ((with_reducible apply only_mk) <;> first
        | with_reducible exact fun _ => rfl
        | exact fun hn => absurd (hq (by decide)) hn
        | skip)
    | exact List.Subset.trans (by decide) hq
    | refine pair_only (by assumption) ?_
    | assumption

theorem execJal_only {s0 : State} {ps : List Part} (core : BitVec 10) (tid : BitVec 6) (ins : Ins) (s : State) (hs : s0.changesOnly s ps) (hq : [.cpu, .log, .adk, .evq] ⊆ ps) : onlyNext s0 (execJal core tid ins s) ps := by
  unfold execJal
  repeat' first
    | with_reducible assumption
    | with_reducible apply State.onThread_only
    | with_reducible apply State.issue_only
    | with_reducible apply State.putReg_only
    | with_reducible apply ite_only
    | with_reducible apply ite_fst_only
    | with_reducible apply next_only
    | with_reducible intro _
    | split
    | dsimp only
    | ((with_reducible apply only_mk) <;> first
        | with_reducible exact fun _ => rfl
        | exact fun hn => absurd (hq (by decide)) hn
        | skip)
    | exact List.Subset.trans (by decide) hq
    | refine pair_only (by assumption) ?_
    | assumption

theorem execGets_only {s0 : State} {ps : List Part} (core : BitVec 10) (tid : BitVec 6) (ins : Ins) (s : State) (hs : s0.changesOnly s ps) (hq : [.cpu, .log, .adk, .evq] ⊆ ps) : onlyNext s0 (execGets core tid ins s) ps := by
  unfold execGets
  repeat' first
    | with_reducible assumption
    | with_reducible apply State.onThread_only
    | with_reducible apply State.issue_only
    | with_reducible apply State.putReg_only
    | with_reducible apply ite_only
    | with_reducible apply ite_fst_only
    | with_reducible apply next_only
    | with_reducible intro _
    | split
    | dsimp only
    | ((with_reducible apply only_mk) <;> first
        | with_reducible exact fun _ => rfl
        | exact fun hn => absurd (hq (by decide)) hn
        | skip)
    | exact List.Subset.trans (by decide) hq
    | refine pair_only (by assumption) ?_
    | assumption

theorem execIllegalInstruction_only {s0 : State} {ps : List Part} (core : BitVec 10) (tid : BitVec 6) (word : BitVec 64) (s : State) (hs : s0.changesOnly s ps) (hq : [.cpu, .log, .adk, .evq] ⊆ ps) : onlyNext s0 (execIllegalInstruction core tid word s) ps := by
  unfold execIllegalInstruction
  repeat' first
    | with_reducible assumption
    | with_reducible apply State.issue_only
    | with_reducible apply State.faultHere_only
    | with_reducible apply ite_only
    | with_reducible apply ite_fst_only
    | with_reducible apply next_only
    | with_reducible intro _
    | split
    | dsimp only
    | ((with_reducible apply only_mk) <;> first
        | with_reducible exact fun _ => rfl
        | exact fun hn => absurd (hq (by decide)) hn
        | skip)
    | exact List.Subset.trans (by decide) hq
    | refine pair_only (by assumption) ?_
    | assumption

theorem execLdl_only {s0 : State} {ps : List Part} (core : BitVec 10) (tid : BitVec 6) (ins : Ins) (s : State) (hs : s0.changesOnly s ps) (hq : [.cpu, .log, .adk, .evq] ⊆ ps) : onlyNext s0 (execLdl core tid ins s) ps := by
  unfold execLdl
  repeat' first
    | with_reducible assumption
    | with_reducible apply State.issue_only
    | with_reducible apply State.putReg_only
    | with_reducible apply State.faultHere_only
    | with_reducible apply ite_only
    | with_reducible apply ite_fst_only
    | with_reducible apply next_only
    | with_reducible intro _
    | split
    | dsimp only
    | ((with_reducible apply only_mk) <;> first
        | with_reducible exact fun _ => rfl
        | exact fun hn => absurd (hq (by decide)) hn
        | skip)
    | exact List.Subset.trans (by decide) hq
    | refine pair_only (by assumption) ?_
    | assumption

theorem execStl_only {s0 : State} {ps : List Part} (core : BitVec 10) (tid : BitVec 6) (ins : Ins) (s : State) (hs : s0.changesOnly s ps) (hq : [.cpu, .log, .adk, .evq] ⊆ ps) : onlyNext s0 (execStl core tid ins s) ps := by
  unfold execStl
  repeat' first
    | with_reducible assumption
    | with_reducible apply State.localWrite_only
    | with_reducible apply State.issue_only
    | with_reducible apply State.faultHere_only
    | with_reducible apply ite_only
    | with_reducible apply ite_fst_only
    | with_reducible apply next_only
    | with_reducible intro _
    | split
    | dsimp only
    | ((with_reducible apply only_mk) <;> first
        | with_reducible exact fun _ => rfl
        | exact fun hn => absurd (hq (by decide)) hn
        | skip)
    | exact List.Subset.trans (by decide) hq
    | refine pair_only (by assumption) ?_
    | assumption

theorem execAtl_only {s0 : State} {ps : List Part} (core : BitVec 10) (tid : BitVec 6) (ins : Ins) (s : State) (hs : s0.changesOnly s ps) (hq : [.cpu, .log, .adk, .evq] ⊆ ps) : onlyNext s0 (execAtl core tid ins s) ps := by
  unfold execAtl
  repeat' first
    | with_reducible assumption
    | with_reducible apply State.localWrite_only
    | with_reducible apply State.issue_only
    | with_reducible apply State.putReg_only
    | with_reducible apply State.faultHere_only
    | with_reducible apply ite_only
    | with_reducible apply ite_fst_only
    | with_reducible apply next_only
    | with_reducible intro _
    | split
    | dsimp only
    | ((with_reducible apply only_mk) <;> first
        | with_reducible exact fun _ => rfl
        | exact fun hn => absurd (hq (by decide)) hn
        | skip)
    | exact List.Subset.trans (by decide) hq
    | refine pair_only (by assumption) ?_
    | assumption

theorem execCopyl_only {s0 : State} {ps : List Part} (core : BitVec 10) (tid : BitVec 6) (ins : Ins) (s : State) (hs : s0.changesOnly s ps) (hq : [.cpu, .log, .adk, .evq] ⊆ ps) : onlyNext s0 (execCopyl core tid ins s) ps := by
  unfold execCopyl
  repeat' first
    | with_reducible assumption
    | with_reducible apply State.issue_only
    | with_reducible apply State.park_only
    | with_reducible apply State.faultHere_only
    | with_reducible apply ite_only
    | with_reducible apply ite_fst_only
    | with_reducible apply next_only
    | with_reducible intro _
    | split
    | dsimp only
    | ((with_reducible apply only_mk) <;> first
        | with_reducible exact fun _ => rfl
        | exact fun hn => absurd (hq (by decide)) hn
        | skip)
    | exact List.Subset.trans (by decide) hq
    | refine pair_only (by assumption) ?_
    | assumption

theorem execCopylComplete_only {s0 : State} {ps : List Part} (core : BitVec 10) (tid : BitVec 6) (s : State) (hs : s0.changesOnly s ps) (hq : [.cpu] ⊆ ps) : onlyNext s0 (execCopylComplete core tid s) ps := by
  unfold execCopylComplete
  repeat' first
    | with_reducible assumption
    | with_reducible apply State.localWrite_only
    | with_reducible apply State.park_only
    | with_reducible apply ite_only
    | with_reducible apply ite_fst_only
    | with_reducible apply next_only
    | with_reducible intro _
    | split
    | dsimp only
    | ((with_reducible apply only_mk) <;> first
        | with_reducible exact fun _ => rfl
        | exact fun hn => absurd (hq (by decide)) hn
        | skip)
    | exact List.Subset.trans (by decide) hq
    | refine pair_only (by assumption) ?_
    | assumption

theorem State.coreSend_only {s0 : State} {ps : List Part} (s : State) (k : Nat) (t : Nat) (sink : ThreadSink) (f : Frame) (hs : s0.changesOnly s ps) (hq : [.pkg, .ports, .req, .coh, .ext, .tier, .xl, .cmp, .cpu, .clv, .atn, .comp, .sec, .log, .adk, .evq] ⊆ ps) : s0.changesOnly (State.coreSend s k t sink f) ps := by
  unfold State.coreSend
  repeat' first
    | with_reducible assumption
    | with_reducible apply State.onCore_only
    | with_reducible apply State.onThread_only
    | with_reducible apply State.accept_only
    | with_reducible apply ite_only
    | with_reducible apply ite_fst_only
    | with_reducible intro _
    | split
    | dsimp only
    | ((with_reducible apply only_mk) <;> first
        | with_reducible exact fun _ => rfl
        | exact fun hn => absurd (hq (by decide)) hn
        | skip)
    | exact List.Subset.trans (by decide) hq
    | refine pair_only (by assumption) ?_
    | assumption

theorem execPldx_only {s0 : State} {ps : List Part} (core : BitVec 10) (tid : BitVec 6) (ins : Ins) (s : State) (hs : s0.changesOnly s ps) (hq : [.pkg, .ports, .req, .coh, .ext, .tier, .xl, .cmp, .cpu, .clv, .atn, .comp, .sec, .log, .adk, .evq] ⊆ ps) : onlyNext s0 (execPldx core tid ins s) ps := by
  unfold execPldx
  repeat' first
    | with_reducible assumption
    | with_reducible apply State.onThread_only
    | with_reducible apply State.issue_only
    | with_reducible apply State.putReg_only
    | with_reducible apply State.setStatus_only
    | with_reducible apply State.coreSend_only
    | with_reducible apply ite_only
    | with_reducible apply ite_fst_only
    | with_reducible apply next_only
    | with_reducible intro _
    | split
    | dsimp only
    | ((with_reducible apply only_mk) <;> first
        | with_reducible exact fun _ => rfl
        | exact fun hn => absurd (hq (by decide)) hn
        | skip)
    | exact List.Subset.trans (by decide) hq
    | refine pair_only (by assumption) ?_
    | assumption

theorem execPstx_only {s0 : State} {ps : List Part} (core : BitVec 10) (tid : BitVec 6) (ins : Ins) (s : State) (hs : s0.changesOnly s ps) (hq : [.pkg, .ports, .req, .coh, .ext, .tier, .xl, .cmp, .cpu, .clv, .atn, .comp, .sec, .log, .adk, .evq] ⊆ ps) : onlyNext s0 (execPstx core tid ins s) ps := by
  unfold execPstx
  repeat' first
    | with_reducible assumption
    | with_reducible apply State.issue_only
    | with_reducible apply State.setStatus_only
    | with_reducible apply State.coreSend_only
    | with_reducible apply ite_only
    | with_reducible apply ite_fst_only
    | with_reducible apply next_only
    | with_reducible intro _
    | split
    | dsimp only
    | ((with_reducible apply only_mk) <;> first
        | with_reducible exact fun _ => rfl
        | exact fun hn => absurd (hq (by decide)) hn
        | skip)
    | exact List.Subset.trans (by decide) hq
    | refine pair_only (by assumption) ?_
    | assumption

theorem execPld_only {s0 : State} {ps : List Part} (core : BitVec 10) (tid : BitVec 6) (ins : Ins) (s : State) (hs : s0.changesOnly s ps) (hq : [.pkg, .ports, .req, .coh, .ext, .tier, .xl, .cmp, .cpu, .clv, .atn, .comp, .sec, .log, .adk, .evq] ⊆ ps) : onlyNext s0 (execPld core tid ins s) ps := by
  unfold execPld
  repeat' first
    | with_reducible assumption
    | with_reducible apply State.issue_only
    | with_reducible apply State.setStatus_only
    | with_reducible apply State.faultHere_only
    | with_reducible apply State.coreSend_only
    | with_reducible apply foldl_only
    | with_reducible apply foldl_fst_only
    | with_reducible apply ite_only
    | with_reducible apply ite_fst_only
    | with_reducible apply next_only
    | with_reducible intro _
    | split
    | dsimp only
    | ((with_reducible apply only_mk) <;> first
        | with_reducible exact fun _ => rfl
        | exact fun hn => absurd (hq (by decide)) hn
        | skip)
    | exact List.Subset.trans (by decide) hq
    | refine pair_only (by assumption) ?_
    | assumption

theorem execPst_only {s0 : State} {ps : List Part} (core : BitVec 10) (tid : BitVec 6) (ins : Ins) (s : State) (hs : s0.changesOnly s ps) (hq : [.pkg, .ports, .req, .coh, .ext, .tier, .xl, .cmp, .cpu, .clv, .atn, .comp, .sec, .log, .adk, .evq] ⊆ ps) : onlyNext s0 (execPst core tid ins s) ps := by
  unfold execPst
  repeat' first
    | with_reducible assumption
    | with_reducible apply State.issue_only
    | with_reducible apply State.setStatus_only
    | with_reducible apply State.faultHere_only
    | with_reducible apply State.coreSend_only
    | with_reducible apply foldl_only
    | with_reducible apply foldl_fst_only
    | with_reducible apply ite_only
    | with_reducible apply ite_fst_only
    | with_reducible apply next_only
    | with_reducible intro _
    | split
    | dsimp only
    | ((with_reducible apply only_mk) <;> first
        | with_reducible exact fun _ => rfl
        | exact fun hn => absurd (hq (by decide)) hn
        | skip)
    | exact List.Subset.trans (by decide) hq
    | refine pair_only (by assumption) ?_
    | assumption

theorem execPatm_only {s0 : State} {ps : List Part} (core : BitVec 10) (tid : BitVec 6) (ins : Ins) (s : State) (hs : s0.changesOnly s ps) (hq : [.pkg, .ports, .req, .coh, .ext, .tier, .xl, .cmp, .cpu, .clv, .atn, .comp, .sec, .log, .adk, .evq] ⊆ ps) : onlyNext s0 (execPatm core tid ins s) ps := by
  unfold execPatm
  repeat' first
    | with_reducible assumption
    | with_reducible apply State.onThread_only
    | with_reducible apply State.issue_only
    | with_reducible apply State.faultHere_only
    | with_reducible apply State.coreSend_only
    | with_reducible apply ite_only
    | with_reducible apply ite_fst_only
    | with_reducible apply next_only
    | with_reducible intro _
    | split
    | dsimp only
    | ((with_reducible apply only_mk) <;> first
        | with_reducible exact fun _ => rfl
        | exact fun hn => absurd (hq (by decide)) hn
        | skip)
    | exact List.Subset.trans (by decide) hq
    | refine pair_only (by assumption) ?_
    | assumption

theorem State.settleThread_only {s0 : State} {ps : List Part} (s : State) (k : Nat) (t : Nat) (hs : s0.changesOnly s ps) (hq : [.cpu] ⊆ ps) : s0.changesOnly (State.settleThread s k t) ps := by
  unfold State.settleThread
  repeat' first
    | with_reducible assumption
    | with_reducible apply State.onThread_only
    | with_reducible apply State.park_only
    | with_reducible apply ite_only
    | with_reducible apply ite_fst_only
    | with_reducible intro _
    | split
    | dsimp only
    | ((with_reducible apply only_mk) <;> first
        | with_reducible exact fun _ => rfl
        | exact fun hn => absurd (hq (by decide)) hn
        | skip)
    | exact List.Subset.trans (by decide) hq
    | refine pair_only (by assumption) ?_
    | assumption

theorem execCoreFence_only {s0 : State} {ps : List Part} (core : BitVec 10) (tid : BitVec 6) (_ins : Ins) (s : State) (hs : s0.changesOnly s ps) (hq : [.cpu, .log, .adk, .evq] ⊆ ps) : onlyNext s0 (execCoreFence core tid _ins s) ps := by
  unfold execCoreFence
  repeat' first
    | with_reducible assumption
    | with_reducible apply State.issue_only
    | with_reducible apply State.park_only
    | with_reducible apply State.settleThread_only
    | with_reducible apply ite_only
    | with_reducible apply ite_fst_only
    | with_reducible apply next_only
    | with_reducible intro _
    | split
    | dsimp only
    | ((with_reducible apply only_mk) <;> first
        | with_reducible exact fun _ => rfl
        | exact fun hn => absurd (hq (by decide)) hn
        | skip)
    | exact List.Subset.trans (by decide) hq
    | refine pair_only (by assumption) ?_
    | assumption

theorem execAcquire_only {s0 : State} {ps : List Part} (core : BitVec 10) (tid : BitVec 6) (_ins : Ins) (s : State) (hs : s0.changesOnly s ps) (hq : [.cpu, .log, .adk, .evq] ⊆ ps) : onlyNext s0 (execAcquire core tid _ins s) ps := by
  unfold execAcquire
  repeat' first
    | with_reducible assumption
    | with_reducible apply State.onCore_only
    | with_reducible apply State.issue_only
    | with_reducible apply ite_only
    | with_reducible apply ite_fst_only
    | with_reducible apply next_only
    | with_reducible intro _
    | split
    | dsimp only
    | ((with_reducible apply only_mk) <;> first
        | with_reducible exact fun _ => rfl
        | exact fun hn => absurd (hq (by decide)) hn
        | skip)
    | exact List.Subset.trans (by decide) hq
    | refine pair_only (by assumption) ?_
    | assumption

theorem execWaite_only {s0 : State} {ps : List Part} (core : BitVec 10) (tid : BitVec 6) (ins : Ins) (s : State) (hs : s0.changesOnly s ps) (hq : [.cpu, .log, .adk, .evq] ⊆ ps) : onlyNext s0 (execWaite core tid ins s) ps := by
  unfold execWaite
  repeat' first
    | with_reducible assumption
    | with_reducible apply State.issue_only
    | with_reducible apply State.park_only
    | with_reducible apply State.settleThread_only
    | with_reducible apply ite_only
    | with_reducible apply ite_fst_only
    | with_reducible apply next_only
    | with_reducible intro _
    | split
    | dsimp only
    | ((with_reducible apply only_mk) <;> first
        | with_reducible exact fun _ => rfl
        | exact fun hn => absurd (hq (by decide)) hn
        | skip)
    | exact List.Subset.trans (by decide) hq
    | refine pair_only (by assumption) ?_
    | assumption

theorem execWaitm_only {s0 : State} {ps : List Part} (core : BitVec 10) (tid : BitVec 6) (ins : Ins) (s : State) (hs : s0.changesOnly s ps) (hq : [.cpu, .log, .adk, .evq] ⊆ ps) : onlyNext s0 (execWaitm core tid ins s) ps := by
  unfold execWaitm
  repeat' first
    | with_reducible assumption
    | with_reducible apply State.issue_only
    | with_reducible apply State.park_only
    | with_reducible apply State.settleThread_only
    | with_reducible apply ite_only
    | with_reducible apply ite_fst_only
    | with_reducible apply next_only
    | with_reducible intro _
    | split
    | dsimp only
    | ((with_reducible apply only_mk) <;> first
        | with_reducible exact fun _ => rfl
        | exact fun hn => absurd (hq (by decide)) hn
        | skip)
    | exact List.Subset.trans (by decide) hq
    | refine pair_only (by assumption) ?_
    | assumption

theorem execThreadHalt_only {s0 : State} {ps : List Part} (core : BitVec 10) (tid : BitVec 6) (_ins : Ins) (s : State) (hs : s0.changesOnly s ps) (hq : [.cpu, .log, .adk, .evq] ⊆ ps) : onlyNext s0 (execThreadHalt core tid _ins s) ps := by
  unfold execThreadHalt
  repeat' first
    | with_reducible assumption
    | with_reducible apply State.issue_only
    | with_reducible apply State.park_only
    | with_reducible apply State.settleThread_only
    | with_reducible apply ite_only
    | with_reducible apply ite_fst_only
    | with_reducible apply next_only
    | with_reducible intro _
    | split
    | dsimp only
    | ((with_reducible apply only_mk) <;> first
        | with_reducible exact fun _ => rfl
        | exact fun hn => absurd (hq (by decide)) hn
        | skip)
    | exact List.Subset.trans (by decide) hq
    | refine pair_only (by assumption) ?_
    | assumption

theorem execBar_only {s0 : State} {ps : List Part} (core : BitVec 10) (tid : BitVec 6) (ins : Ins) (s : State) (hs : s0.changesOnly s ps) (hq : [.cpu, .log, .adk, .evq] ⊆ ps) : onlyNext s0 (execBar core tid ins s) ps := by
  unfold execBar
  repeat' first
    | with_reducible assumption
    | with_reducible apply State.issue_only
    | with_reducible apply State.park_only
    | with_reducible apply foldl_only
    | with_reducible apply foldl_fst_only
    | with_reducible apply ite_only
    | with_reducible apply ite_fst_only
    | with_reducible apply next_only
    | with_reducible intro _
    | split
    | dsimp only
    | ((with_reducible apply only_mk) <;> first
        | with_reducible exact fun _ => rfl
        | exact fun hn => absurd (hq (by decide)) hn
        | skip)
    | exact List.Subset.trans (by decide) hq
    | refine pair_only (by assumption) ?_
    | assumption

theorem execWaitl_only {s0 : State} {ps : List Part} (core : BitVec 10) (tid : BitVec 6) (ins : Ins) (s : State) (hs : s0.changesOnly s ps) (hq : [.cpu, .log, .adk, .evq] ⊆ ps) : onlyNext s0 (execWaitl core tid ins s) ps := by
  unfold execWaitl
  repeat' first
    | with_reducible assumption
    | with_reducible apply State.issue_only
    | with_reducible apply State.putReg_only
    | with_reducible apply State.park_only
    | with_reducible apply State.faultHere_only
    | with_reducible apply ite_only
    | with_reducible apply ite_fst_only
    | with_reducible apply next_only
    | with_reducible intro _
    | split
    | dsimp only
    | ((with_reducible apply only_mk) <;> first
        | with_reducible exact fun _ => rfl
        | exact fun hn => absurd (hq (by decide)) hn
        | skip)
    | exact List.Subset.trans (by decide) hq
    | refine pair_only (by assumption) ?_
    | assumption

theorem execWaitlTimeout_only {s0 : State} {ps : List Part} (core : BitVec 10) (tid : BitVec 6) (s : State) (hs : s0.changesOnly s ps) (hq : [.cpu] ⊆ ps) : onlyNext s0 (execWaitlTimeout core tid s) ps := by
  unfold execWaitlTimeout
  repeat' first
    | with_reducible assumption
    | with_reducible apply State.putReg_only
    | with_reducible apply State.park_only
    | with_reducible apply ite_only
    | with_reducible apply ite_fst_only
    | with_reducible apply next_only
    | with_reducible intro _
    | split
    | dsimp only
    | ((with_reducible apply only_mk) <;> first
        | with_reducible exact fun _ => rfl
        | exact fun hn => absurd (hq (by decide)) hn
        | skip)
    | exact List.Subset.trans (by decide) hq
    | refine pair_only (by assumption) ?_
    | assumption

theorem execTpref_only {s0 : State} {ps : List Part} (core : BitVec 10) (tid : BitVec 6) (ins : Ins) (s : State) (hs : s0.changesOnly s ps) (hq : [.pkg, .ports, .req, .coh, .ext, .tier, .xl, .cmp, .cpu, .clv, .atn, .comp, .sec, .log, .adk, .evq] ⊆ ps) : onlyNext s0 (execTpref core tid ins s) ps := by
  unfold execTpref
  repeat' first
    | with_reducible assumption
    | with_reducible apply State.tlbPut_only
    | with_reducible apply State.startWalk_only
    | with_reducible apply State.issue_only
    | with_reducible apply ite_only
    | with_reducible apply ite_fst_only
    | with_reducible apply next_only
    | with_reducible intro _
    | split
    | dsimp only
    | ((with_reducible apply only_mk) <;> first
        | with_reducible exact fun _ => rfl
        | exact fun hn => absurd (hq (by decide)) hn
        | skip)
    | exact List.Subset.trans (by decide) hq
    | refine pair_only (by assumption) ?_
    | assumption

theorem execTinv_only {s0 : State} {ps : List Part} (core : BitVec 10) (tid : BitVec 6) (ins : Ins) (s : State) (hs : s0.changesOnly s ps) (hq : [.xl, .cpu, .log, .adk, .evq] ⊆ ps) : onlyNext s0 (execTinv core tid ins s) ps := by
  unfold execTinv
  repeat' first
    | with_reducible assumption
    | with_reducible apply State.issue_only
    | with_reducible apply ite_only
    | with_reducible apply ite_fst_only
    | with_reducible apply next_only
    | with_reducible intro _
    | split
    | dsimp only
    | ((with_reducible apply only_mk) <;> first
        | with_reducible exact fun _ => rfl
        | exact fun hn => absurd (hq (by decide)) hn
        | skip)
    | exact List.Subset.trans (by decide) hq
    | refine pair_only (by assumption) ?_
    | assumption

theorem State.bulkIn_only {s0 : State} {ps : List Part} (s : State) (k : Nat) (dst : Nat) (lines : Nat) (tags : Option Nat) (f : Frame) (hs : s0.changesOnly s ps) (hq : [.cpu] ⊆ ps) : s0.changesOnly (State.bulkIn s k dst lines tags f) ps := by
  unfold State.bulkIn
  repeat' first
    | with_reducible assumption
    | with_reducible apply State.localWrite_only
    | with_reducible apply foldl_only
    | with_reducible apply foldl_fst_only
    | with_reducible apply ite_only
    | with_reducible apply ite_fst_only
    | with_reducible intro _
    | split
    | dsimp only
    | ((with_reducible apply only_mk) <;> first
        | with_reducible exact fun _ => rfl
        | exact fun hn => absurd (hq (by decide)) hn
        | skip)
    | exact List.Subset.trans (by decide) hq
    | refine pair_only (by assumption) ?_
    | assumption

theorem State.deliver_only {s0 : State} {ps : List Part} (s : State) (k : Nat) (t : Nat) (c : ThreadComp) (hs : s0.changesOnly s ps) (hq : [.cpu] ⊆ ps) : s0.changesOnly (State.deliver s k t c) ps := by
  unfold State.deliver
  repeat' first
    | with_reducible assumption
    | with_reducible apply State.onCore_only
    | with_reducible apply State.localWrite_only
    | with_reducible apply State.putReg_only
    | with_reducible apply State.bulkIn_only
    | with_reducible apply ite_only
    | with_reducible apply ite_fst_only
    | with_reducible intro _
    | split
    | dsimp only
    | ((with_reducible apply only_mk) <;> first
        | with_reducible exact fun _ => rfl
        | exact fun hn => absurd (hq (by decide)) hn
        | skip)
    | exact List.Subset.trans (by decide) hq
    | refine pair_only (by assumption) ?_
    | assumption

theorem State.pumpRows_only {s0 : State} {ps : List Part} (s : State) (k n : Nat) (hs : s0.changesOnly s ps) (hq : [.pkg, .ports, .req, .coh, .ext, .tier, .xl, .cmp, .cpu, .clv, .atn, .comp, .sec, .log, .adk, .evq] ⊆ ps) :
    s0.changesOnly (State.pumpRows s k n) ps := by
  induction n generalizing s with
  | zero => exact hs
  | succ n ih =>
    unfold State.pumpRows
    repeat' first
      | with_reducible assumption
      | exact List.Subset.trans (by decide) hq
      | with_reducible apply ih
      | with_reducible apply State.coreSend_only
      | with_reducible apply State.onEngine_only
      | with_reducible apply ite_only
      | with_reducible intro _
      | split
      | dsimp only

theorem State.rowDone_only {s0 : State} {ps : List Part} (s : State) (k : Nat) (x : ThreadSink) (hs : s0.changesOnly s ps)
    (hq : [.cpu] ⊆ ps) : s0.changesOnly (State.rowDone s k x) ps := by
  unfold State.rowDone
  split
  · exact State.onEngine_only _ _ _ _ hs hq
  · exact State.onEngine_only _ _ _ _ hs hq
  · exact hs

theorem State.settleCore_only {s0 : State} {ps : List Part} (s : State) (k : Nat) (hs : s0.changesOnly s ps) (hq : [.cpu] ⊆ ps) : s0.changesOnly (State.settleCore s k) ps := by
  unfold State.settleCore
  repeat' first
    | with_reducible assumption
    | with_reducible apply State.settleThread_only
    | with_reducible apply foldl_only
    | with_reducible apply foldl_fst_only
    | with_reducible apply ite_only
    | with_reducible apply ite_fst_only
    | with_reducible intro _
    | split
    | dsimp only
    | ((with_reducible apply only_mk) <;> first
        | with_reducible exact fun _ => rfl
        | exact fun hn => absurd (hq (by decide)) hn
        | skip)
    | exact List.Subset.trans (by decide) hq
    | refine pair_only (by assumption) ?_
    | assumption

theorem execCorePoolCompletion_only {s0 : State} {ps : List Part} (core : BitVec 10) (tid : BitVec 6) (n : Nat) (s : State) (hs : s0.changesOnly s ps) (hq : [.pkg, .ports, .req, .coh, .ext, .tier, .xl, .cmp, .cpu, .clv, .atn, .comp, .sec, .log, .adk, .evq] ⊆ ps) : onlyNext s0 (execCorePoolCompletion core tid n s) ps := by
  unfold execCorePoolCompletion
  repeat' first
    | with_reducible assumption
    | with_reducible apply State.onCore_only
    | with_reducible apply State.onThread_only
    | with_reducible apply State.setStatus_only
    | with_reducible apply State.settleThread_only
    | with_reducible apply State.deliver_only
    | with_reducible apply State.settleCore_only
    | with_reducible apply State.pumpRows_only
    | with_reducible apply State.rowDone_only
    | with_reducible apply ite_only
    | with_reducible apply ite_fst_only
    | with_reducible apply next_only
    | with_reducible intro _
    | split
    | dsimp only
    | ((with_reducible apply only_mk) <;> first
        | with_reducible exact fun _ => rfl
        | exact fun hn => absurd (hq (by decide)) hn
        | skip)
    | exact List.Subset.trans (by decide) hq
    | refine pair_only (by assumption) ?_
    | assumption

end Sys2Proof.Machine
end

