-- ==== Sys2Proof/Laws/OnlyEngines.lean ====
section
/-! SUPPORT. What every operation of Engines leaves alone. -/

set_option linter.unusedTactic false
set_option linter.unreachableTactic false
set_option linter.unusedVariables false

namespace Sys2Proof.Machine

theorem State.suspectEngine_only {s0 : State} {ps : List Part} (s : State) (cls : Nat) (k : Nat) (e : Nat) (op : Nat) (outcome : Nat) (other : Nat) (hs : s0.changesOnly s ps) (hq : [.cpu, .log, .adk, .evq] ⊆ ps) : s0.changesOnly (State.suspectEngine s cls k e op outcome other) ps := by
  unfold State.suspectEngine
  repeat' first
    | with_reducible assumption
    | with_reducible apply State.logE_only
    | with_reducible apply State.onCore_only
    | with_reducible apply State.onEngine_only
    | with_reducible apply ite_only
    | with_reducible apply ite_fst_only
    | with_reducible intro _
    | split
    | dsimp only
    | ((with_reducible apply only_mk) <;> first
        | with_reducible exact fun _ => rfl
        | exact fun hn => absurd (hq (by decide)) hn
        | skip)
    | exact List.Subset.trans (by decide) hq
    | refine pair_only (by assumption) ?_
    | assumption

theorem State.engineIssue_only {s0 : State} {ps : List Part} (s : State) (k : Nat) (t : Nat) (e : Nat) (desc : Nat) (hs : s0.changesOnly s ps) (hq : [.cpu] ⊆ ps) : s0.changesOnly (State.engineIssue s k t e desc) ps := by
  unfold State.engineIssue
  repeat' first
    | with_reducible assumption
    | with_reducible apply State.onThread_only
    | with_reducible apply State.onEngine_only
    | with_reducible apply ite_only
    | with_reducible apply ite_fst_only
    | with_reducible intro _
    | split
    | dsimp only
    | ((with_reducible apply only_mk) <;> first
        | with_reducible exact fun _ => rfl
        | exact fun hn => absurd (hq (by decide)) hn
        | skip)
    | exact List.Subset.trans (by decide) hq
    | refine pair_only (by assumption) ?_
    | assumption

theorem execMxeIssue_only {s0 : State} {ps : List Part} (core : BitVec 10) (tid : BitVec 6) (ins : Ins) (s : State) (hs : s0.changesOnly s ps) (hq : [.cpu, .log, .adk, .evq] ⊆ ps) : onlyNext s0 (execMxeIssue core tid ins s) ps := by
  unfold execMxeIssue
  repeat' first
    | with_reducible assumption
    | with_reducible apply State.issue_only
    | with_reducible apply State.engineIssue_only
    | with_reducible apply ite_only
    | with_reducible apply ite_fst_only
    | with_reducible apply next_only
    | with_reducible intro _
    | split
    | dsimp only
    | ((with_reducible apply only_mk) <;> first
        | with_reducible exact fun _ => rfl
        | exact fun hn => absurd (hq (by decide)) hn
        | skip)
    | exact List.Subset.trans (by decide) hq
    | refine pair_only (by assumption) ?_
    | assumption

theorem execVeIssue_only {s0 : State} {ps : List Part} (core : BitVec 10) (tid : BitVec 6) (ins : Ins) (s : State) (hs : s0.changesOnly s ps) (hq : [.cpu, .log, .adk, .evq] ⊆ ps) : onlyNext s0 (execVeIssue core tid ins s) ps := by
  unfold execVeIssue
  repeat' first
    | with_reducible assumption
    | with_reducible apply State.issue_only
    | with_reducible apply State.faultHere_only
    | with_reducible apply State.engineIssue_only
    | with_reducible apply ite_only
    | with_reducible apply ite_fst_only
    | with_reducible apply next_only
    | with_reducible intro _
    | split
    | dsimp only
    | ((with_reducible apply only_mk) <;> first
        | with_reducible exact fun _ => rfl
        | exact fun hn => absurd (hq (by decide)) hn
        | skip)
    | exact List.Subset.trans (by decide) hq
    | refine pair_only (by assumption) ?_
    | assumption

theorem execGfeIssue_only {s0 : State} {ps : List Part} (core : BitVec 10) (tid : BitVec 6) (ins : Ins) (s : State) (hs : s0.changesOnly s ps) (hq : [.cpu, .log, .adk, .evq] ⊆ ps) : onlyNext s0 (execGfeIssue core tid ins s) ps := by
  unfold execGfeIssue
  repeat' first
    | with_reducible assumption
    | with_reducible apply State.issue_only
    | with_reducible apply State.engineIssue_only
    | with_reducible apply ite_only
    | with_reducible apply ite_fst_only
    | with_reducible apply next_only
    | with_reducible intro _
    | split
    | dsimp only
    | ((with_reducible apply only_mk) <;> first
        | with_reducible exact fun _ => rfl
        | exact fun hn => absurd (hq (by decide)) hn
        | skip)
    | exact List.Subset.trans (by decide) hq
    | refine pair_only (by assumption) ?_
    | assumption

theorem State.engineStart_only {s0 : State} {ps : List Part} (s : State) (k : Nat) (e : Nat) (op : Nat) (hs : s0.changesOnly s ps) (hq : [.pkg, .ports, .req, .coh, .ext, .tier, .xl, .cmp, .cpu, .clv, .atn, .comp, .sec, .log, .adk, .evq] ⊆ ps) : s0.changesOnly (State.engineStart s k e op) ps := by
  unfold State.engineStart
  repeat' first
    | with_reducible assumption
    | with_reducible apply State.onEngine_only
    | with_reducible apply State.settleThread_only
    | with_reducible apply State.pumpRows_only
    | with_reducible apply ite_only
    | with_reducible apply ite_fst_only
    | with_reducible intro _
    | split
    | dsimp only
    | ((with_reducible apply only_mk) <;> first
        | with_reducible exact fun _ => rfl
        | exact fun hn => absurd (hq (by decide)) hn
        | skip)
    | exact List.Subset.trans (by decide) hq
    | refine pair_only (by assumption) ?_
    | assumption

theorem State.startRow_only {s0 : State} {ps : List Part} (s : State) (core : BitVec 10) (e : Nat) (op : Nat) (hs : s0.changesOnly s ps) (hq : [.pkg, .ports, .req, .coh, .ext, .tier, .xl, .cmp, .cpu, .clv, .atn, .comp, .sec, .log, .adk, .evq] ⊆ ps) : onlyNext s0 (State.startRow s core e op) ps := by
  unfold State.startRow
  repeat' first
    | with_reducible assumption
    | with_reducible apply State.engineStart_only
    | with_reducible apply ite_only
    | with_reducible apply ite_fst_only
    | with_reducible apply next_only
    | with_reducible intro _
    | split
    | dsimp only
    | ((with_reducible apply only_mk) <;> first
        | with_reducible exact fun _ => rfl
        | exact fun hn => absurd (hq (by decide)) hn
        | skip)
    | exact List.Subset.trans (by decide) hq
    | refine pair_only (by assumption) ?_
    | assumption

theorem execMxeMma_only {s0 : State} {ps : List Part} (core : BitVec 10) (s : State) (hs : s0.changesOnly s ps) (hq : [.pkg, .ports, .req, .coh, .ext, .tier, .xl, .cmp, .cpu, .clv, .atn, .comp, .sec, .log, .adk, .evq] ⊆ ps) : onlyNext s0 (execMxeMma core s) ps := by
  unfold execMxeMma
  repeat' first
    | with_reducible assumption
    | with_reducible apply State.startRow_only
    | with_reducible apply ite_only
    | with_reducible apply ite_fst_only
    | with_reducible apply next_only
    | with_reducible intro _
    | split
    | dsimp only
    | ((with_reducible apply only_mk) <;> first
        | with_reducible exact fun _ => rfl
        | exact fun hn => absurd (hq (by decide)) hn
        | skip)
    | exact List.Subset.trans (by decide) hq
    | refine pair_only (by assumption) ?_
    | assumption

theorem execMxeZero_only {s0 : State} {ps : List Part} (core : BitVec 10) (s : State) (hs : s0.changesOnly s ps) (hq : [.pkg, .ports, .req, .coh, .ext, .tier, .xl, .cmp, .cpu, .clv, .atn, .comp, .sec, .log, .adk, .evq] ⊆ ps) : onlyNext s0 (execMxeZero core s) ps := by
  unfold execMxeZero
  repeat' first
    | with_reducible assumption
    | with_reducible apply State.startRow_only
    | with_reducible apply ite_only
    | with_reducible apply ite_fst_only
    | with_reducible apply next_only
    | with_reducible intro _
    | split
    | dsimp only
    | ((with_reducible apply only_mk) <;> first
        | with_reducible exact fun _ => rfl
        | exact fun hn => absurd (hq (by decide)) hn
        | skip)
    | exact List.Subset.trans (by decide) hq
    | refine pair_only (by assumption) ?_
    | assumption

theorem execMxeStore_only {s0 : State} {ps : List Part} (core : BitVec 10) (s : State) (hs : s0.changesOnly s ps) (hq : [.pkg, .ports, .req, .coh, .ext, .tier, .xl, .cmp, .cpu, .clv, .atn, .comp, .sec, .log, .adk, .evq] ⊆ ps) : onlyNext s0 (execMxeStore core s) ps := by
  unfold execMxeStore
  repeat' first
    | with_reducible assumption
    | with_reducible apply State.startRow_only
    | with_reducible apply ite_only
    | with_reducible apply ite_fst_only
    | with_reducible apply next_only
    | with_reducible intro _
    | split
    | dsimp only
    | ((with_reducible apply only_mk) <;> first
        | with_reducible exact fun _ => rfl
        | exact fun hn => absurd (hq (by decide)) hn
        | skip)
    | exact List.Subset.trans (by decide) hq
    | refine pair_only (by assumption) ?_
    | assumption

theorem execMxeLoad_only {s0 : State} {ps : List Part} (core : BitVec 10) (s : State) (hs : s0.changesOnly s ps) (hq : [.pkg, .ports, .req, .coh, .ext, .tier, .xl, .cmp, .cpu, .clv, .atn, .comp, .sec, .log, .adk, .evq] ⊆ ps) : onlyNext s0 (execMxeLoad core s) ps := by
  unfold execMxeLoad
  repeat' first
    | with_reducible assumption
    | with_reducible apply State.startRow_only
    | with_reducible apply ite_only
    | with_reducible apply ite_fst_only
    | with_reducible apply next_only
    | with_reducible intro _
    | split
    | dsimp only
    | ((with_reducible apply only_mk) <;> first
        | with_reducible exact fun _ => rfl
        | exact fun hn => absurd (hq (by decide)) hn
        | skip)
    | exact List.Subset.trans (by decide) hq
    | refine pair_only (by assumption) ?_
    | assumption

theorem execVeAdd_only {s0 : State} {ps : List Part} (core : BitVec 10) (ve : Bool) (s : State) (hs : s0.changesOnly s ps) (hq : [.pkg, .ports, .req, .coh, .ext, .tier, .xl, .cmp, .cpu, .clv, .atn, .comp, .sec, .log, .adk, .evq] ⊆ ps) : onlyNext s0 (execVeAdd core ve s) ps := by
  unfold execVeAdd
  repeat' first
    | with_reducible assumption
    | with_reducible apply State.startRow_only
    | with_reducible apply ite_only
    | with_reducible apply ite_fst_only
    | with_reducible apply next_only
    | with_reducible intro _
    | split
    | dsimp only
    | ((with_reducible apply only_mk) <;> first
        | with_reducible exact fun _ => rfl
        | exact fun hn => absurd (hq (by decide)) hn
        | skip)
    | exact List.Subset.trans (by decide) hq
    | refine pair_only (by assumption) ?_
    | assumption

theorem execVeSub_only {s0 : State} {ps : List Part} (core : BitVec 10) (ve : Bool) (s : State) (hs : s0.changesOnly s ps) (hq : [.pkg, .ports, .req, .coh, .ext, .tier, .xl, .cmp, .cpu, .clv, .atn, .comp, .sec, .log, .adk, .evq] ⊆ ps) : onlyNext s0 (execVeSub core ve s) ps := by
  unfold execVeSub
  repeat' first
    | with_reducible assumption
    | with_reducible apply State.startRow_only
    | with_reducible apply ite_only
    | with_reducible apply ite_fst_only
    | with_reducible apply next_only
    | with_reducible intro _
    | split
    | dsimp only
    | ((with_reducible apply only_mk) <;> first
        | with_reducible exact fun _ => rfl
        | exact fun hn => absurd (hq (by decide)) hn
        | skip)
    | exact List.Subset.trans (by decide) hq
    | refine pair_only (by assumption) ?_
    | assumption

theorem execVeMul_only {s0 : State} {ps : List Part} (core : BitVec 10) (ve : Bool) (s : State) (hs : s0.changesOnly s ps) (hq : [.pkg, .ports, .req, .coh, .ext, .tier, .xl, .cmp, .cpu, .clv, .atn, .comp, .sec, .log, .adk, .evq] ⊆ ps) : onlyNext s0 (execVeMul core ve s) ps := by
  unfold execVeMul
  repeat' first
    | with_reducible assumption
    | with_reducible apply State.startRow_only
    | with_reducible apply ite_only
    | with_reducible apply ite_fst_only
    | with_reducible apply next_only
    | with_reducible intro _
    | split
    | dsimp only
    | ((with_reducible apply only_mk) <;> first
        | with_reducible exact fun _ => rfl
        | exact fun hn => absurd (hq (by decide)) hn
        | skip)
    | exact List.Subset.trans (by decide) hq
    | refine pair_only (by assumption) ?_
    | assumption

theorem execVeFma_only {s0 : State} {ps : List Part} (core : BitVec 10) (ve : Bool) (s : State) (hs : s0.changesOnly s ps) (hq : [.pkg, .ports, .req, .coh, .ext, .tier, .xl, .cmp, .cpu, .clv, .atn, .comp, .sec, .log, .adk, .evq] ⊆ ps) : onlyNext s0 (execVeFma core ve s) ps := by
  unfold execVeFma
  repeat' first
    | with_reducible assumption
    | with_reducible apply State.startRow_only
    | with_reducible apply ite_only
    | with_reducible apply ite_fst_only
    | with_reducible apply next_only
    | with_reducible intro _
    | split
    | dsimp only
    | ((with_reducible apply only_mk) <;> first
        | with_reducible exact fun _ => rfl
        | exact fun hn => absurd (hq (by decide)) hn
        | skip)
    | exact List.Subset.trans (by decide) hq
    | refine pair_only (by assumption) ?_
    | assumption

theorem execVeMax_only {s0 : State} {ps : List Part} (core : BitVec 10) (ve : Bool) (s : State) (hs : s0.changesOnly s ps) (hq : [.pkg, .ports, .req, .coh, .ext, .tier, .xl, .cmp, .cpu, .clv, .atn, .comp, .sec, .log, .adk, .evq] ⊆ ps) : onlyNext s0 (execVeMax core ve s) ps := by
  unfold execVeMax
  repeat' first
    | with_reducible assumption
    | with_reducible apply State.startRow_only
    | with_reducible apply ite_only
    | with_reducible apply ite_fst_only
    | with_reducible apply next_only
    | with_reducible intro _
    | split
    | dsimp only
    | ((with_reducible apply only_mk) <;> first
        | with_reducible exact fun _ => rfl
        | exact fun hn => absurd (hq (by decide)) hn
        | skip)
    | exact List.Subset.trans (by decide) hq
    | refine pair_only (by assumption) ?_
    | assumption

theorem execVeMin_only {s0 : State} {ps : List Part} (core : BitVec 10) (ve : Bool) (s : State) (hs : s0.changesOnly s ps) (hq : [.pkg, .ports, .req, .coh, .ext, .tier, .xl, .cmp, .cpu, .clv, .atn, .comp, .sec, .log, .adk, .evq] ⊆ ps) : onlyNext s0 (execVeMin core ve s) ps := by
  unfold execVeMin
  repeat' first
    | with_reducible assumption
    | with_reducible apply State.startRow_only
    | with_reducible apply ite_only
    | with_reducible apply ite_fst_only
    | with_reducible apply next_only
    | with_reducible intro _
    | split
    | dsimp only
    | ((with_reducible apply only_mk) <;> first
        | with_reducible exact fun _ => rfl
        | exact fun hn => absurd (hq (by decide)) hn
        | skip)
    | exact List.Subset.trans (by decide) hq
    | refine pair_only (by assumption) ?_
    | assumption

theorem execVeCvt_only {s0 : State} {ps : List Part} (core : BitVec 10) (ve : Bool) (s : State) (hs : s0.changesOnly s ps) (hq : [.pkg, .ports, .req, .coh, .ext, .tier, .xl, .cmp, .cpu, .clv, .atn, .comp, .sec, .log, .adk, .evq] ⊆ ps) : onlyNext s0 (execVeCvt core ve s) ps := by
  unfold execVeCvt
  repeat' first
    | with_reducible assumption
    | with_reducible apply State.startRow_only
    | with_reducible apply ite_only
    | with_reducible apply ite_fst_only
    | with_reducible apply next_only
    | with_reducible intro _
    | split
    | dsimp only
    | ((with_reducible apply only_mk) <;> first
        | with_reducible exact fun _ => rfl
        | exact fun hn => absurd (hq (by decide)) hn
        | skip)
    | exact List.Subset.trans (by decide) hq
    | refine pair_only (by assumption) ?_
    | assumption

theorem execVeExp2_only {s0 : State} {ps : List Part} (core : BitVec 10) (ve : Bool) (s : State) (hs : s0.changesOnly s ps) (hq : [.pkg, .ports, .req, .coh, .ext, .tier, .xl, .cmp, .cpu, .clv, .atn, .comp, .sec, .log, .adk, .evq] ⊆ ps) : onlyNext s0 (execVeExp2 core ve s) ps := by
  unfold execVeExp2
  repeat' first
    | with_reducible assumption
    | with_reducible apply State.startRow_only
    | with_reducible apply ite_only
    | with_reducible apply ite_fst_only
    | with_reducible apply next_only
    | with_reducible intro _
    | split
    | dsimp only
    | ((with_reducible apply only_mk) <;> first
        | with_reducible exact fun _ => rfl
        | exact fun hn => absurd (hq (by decide)) hn
        | skip)
    | exact List.Subset.trans (by decide) hq
    | refine pair_only (by assumption) ?_
    | assumption

theorem execVeLog2_only {s0 : State} {ps : List Part} (core : BitVec 10) (ve : Bool) (s : State) (hs : s0.changesOnly s ps) (hq : [.pkg, .ports, .req, .coh, .ext, .tier, .xl, .cmp, .cpu, .clv, .atn, .comp, .sec, .log, .adk, .evq] ⊆ ps) : onlyNext s0 (execVeLog2 core ve s) ps := by
  unfold execVeLog2
  repeat' first
    | with_reducible assumption
    | with_reducible apply State.startRow_only
    | with_reducible apply ite_only
    | with_reducible apply ite_fst_only
    | with_reducible apply next_only
    | with_reducible intro _
    | split
    | dsimp only
    | ((with_reducible apply only_mk) <;> first
        | with_reducible exact fun _ => rfl
        | exact fun hn => absurd (hq (by decide)) hn
        | skip)
    | exact List.Subset.trans (by decide) hq
    | refine pair_only (by assumption) ?_
    | assumption

theorem execVeRcp_only {s0 : State} {ps : List Part} (core : BitVec 10) (ve : Bool) (s : State) (hs : s0.changesOnly s ps) (hq : [.pkg, .ports, .req, .coh, .ext, .tier, .xl, .cmp, .cpu, .clv, .atn, .comp, .sec, .log, .adk, .evq] ⊆ ps) : onlyNext s0 (execVeRcp core ve s) ps := by
  unfold execVeRcp
  repeat' first
    | with_reducible assumption
    | with_reducible apply State.startRow_only
    | with_reducible apply ite_only
    | with_reducible apply ite_fst_only
    | with_reducible apply next_only
    | with_reducible intro _
    | split
    | dsimp only
    | ((with_reducible apply only_mk) <;> first
        | with_reducible exact fun _ => rfl
        | exact fun hn => absurd (hq (by decide)) hn
        | skip)
    | exact List.Subset.trans (by decide) hq
    | refine pair_only (by assumption) ?_
    | assumption

theorem execVeRsqrt_only {s0 : State} {ps : List Part} (core : BitVec 10) (ve : Bool) (s : State) (hs : s0.changesOnly s ps) (hq : [.pkg, .ports, .req, .coh, .ext, .tier, .xl, .cmp, .cpu, .clv, .atn, .comp, .sec, .log, .adk, .evq] ⊆ ps) : onlyNext s0 (execVeRsqrt core ve s) ps := by
  unfold execVeRsqrt
  repeat' first
    | with_reducible assumption
    | with_reducible apply State.startRow_only
    | with_reducible apply ite_only
    | with_reducible apply ite_fst_only
    | with_reducible apply next_only
    | with_reducible intro _
    | split
    | dsimp only
    | ((with_reducible apply only_mk) <;> first
        | with_reducible exact fun _ => rfl
        | exact fun hn => absurd (hq (by decide)) hn
        | skip)
    | exact List.Subset.trans (by decide) hq
    | refine pair_only (by assumption) ?_
    | assumption

theorem execVeRsum_only {s0 : State} {ps : List Part} (core : BitVec 10) (ve : Bool) (s : State) (hs : s0.changesOnly s ps) (hq : [.pkg, .ports, .req, .coh, .ext, .tier, .xl, .cmp, .cpu, .clv, .atn, .comp, .sec, .log, .adk, .evq] ⊆ ps) : onlyNext s0 (execVeRsum core ve s) ps := by
  unfold execVeRsum
  repeat' first
    | with_reducible assumption
    | with_reducible apply State.startRow_only
    | with_reducible apply ite_only
    | with_reducible apply ite_fst_only
    | with_reducible apply next_only
    | with_reducible intro _
    | split
    | dsimp only
    | ((with_reducible apply only_mk) <;> first
        | with_reducible exact fun _ => rfl
        | exact fun hn => absurd (hq (by decide)) hn
        | skip)
    | exact List.Subset.trans (by decide) hq
    | refine pair_only (by assumption) ?_
    | assumption

theorem execVeRmax_only {s0 : State} {ps : List Part} (core : BitVec 10) (ve : Bool) (s : State) (hs : s0.changesOnly s ps) (hq : [.pkg, .ports, .req, .coh, .ext, .tier, .xl, .cmp, .cpu, .clv, .atn, .comp, .sec, .log, .adk, .evq] ⊆ ps) : onlyNext s0 (execVeRmax core ve s) ps := by
  unfold execVeRmax
  repeat' first
    | with_reducible assumption
    | with_reducible apply State.startRow_only
    | with_reducible apply ite_only
    | with_reducible apply ite_fst_only
    | with_reducible apply next_only
    | with_reducible intro _
    | split
    | dsimp only
    | ((with_reducible apply only_mk) <;> first
        | with_reducible exact fun _ => rfl
        | exact fun hn => absurd (hq (by decide)) hn
        | skip)
    | exact List.Subset.trans (by decide) hq
    | refine pair_only (by assumption) ?_
    | assumption

theorem execGfeGather_only {s0 : State} {ps : List Part} (core : BitVec 10) (s : State) (hs : s0.changesOnly s ps) (hq : [.pkg, .ports, .req, .coh, .ext, .tier, .xl, .cmp, .cpu, .clv, .atn, .comp, .sec, .log, .adk, .evq] ⊆ ps) : onlyNext s0 (execGfeGather core s) ps := by
  unfold execGfeGather
  repeat' first
    | with_reducible assumption
    | with_reducible apply State.startRow_only
    | with_reducible apply ite_only
    | with_reducible apply ite_fst_only
    | with_reducible apply next_only
    | with_reducible intro _
    | split
    | dsimp only
    | ((with_reducible apply only_mk) <;> first
        | with_reducible exact fun _ => rfl
        | exact fun hn => absurd (hq (by decide)) hn
        | skip)
    | exact List.Subset.trans (by decide) hq
    | refine pair_only (by assumption) ?_
    | assumption

theorem execGfeScatter_only {s0 : State} {ps : List Part} (core : BitVec 10) (s : State) (hs : s0.changesOnly s ps) (hq : [.pkg, .ports, .req, .coh, .ext, .tier, .xl, .cmp, .cpu, .clv, .atn, .comp, .sec, .log, .adk, .evq] ⊆ ps) : onlyNext s0 (execGfeScatter core s) ps := by
  unfold execGfeScatter
  repeat' first
    | with_reducible assumption
    | with_reducible apply State.startRow_only
    | with_reducible apply ite_only
    | with_reducible apply ite_fst_only
    | with_reducible apply next_only
    | with_reducible intro _
    | split
    | dsimp only
    | ((with_reducible apply only_mk) <;> first
        | with_reducible exact fun _ => rfl
        | exact fun hn => absurd (hq (by decide)) hn
        | skip)
    | exact List.Subset.trans (by decide) hq
    | refine pair_only (by assumption) ?_
    | assumption

theorem execGfeFilter_only {s0 : State} {ps : List Part} (core : BitVec 10) (s : State) (hs : s0.changesOnly s ps) (hq : [.pkg, .ports, .req, .coh, .ext, .tier, .xl, .cmp, .cpu, .clv, .atn, .comp, .sec, .log, .adk, .evq] ⊆ ps) : onlyNext s0 (execGfeFilter core s) ps := by
  unfold execGfeFilter
  repeat' first
    | with_reducible assumption
    | with_reducible apply State.startRow_only
    | with_reducible apply ite_only
    | with_reducible apply ite_fst_only
    | with_reducible apply next_only
    | with_reducible intro _
    | split
    | dsimp only
    | ((with_reducible apply only_mk) <;> first
        | with_reducible exact fun _ => rfl
        | exact fun hn => absurd (hq (by decide)) hn
        | skip)
    | exact List.Subset.trans (by decide) hq
    | refine pair_only (by assumption) ?_
    | assumption

theorem execGfeTopk_only {s0 : State} {ps : List Part} (core : BitVec 10) (s : State) (hs : s0.changesOnly s ps) (hq : [.pkg, .ports, .req, .coh, .ext, .tier, .xl, .cmp, .cpu, .clv, .atn, .comp, .sec, .log, .adk, .evq] ⊆ ps) : onlyNext s0 (execGfeTopk core s) ps := by
  unfold execGfeTopk
  repeat' first
    | with_reducible assumption
    | with_reducible apply State.startRow_only
    | with_reducible apply ite_only
    | with_reducible apply ite_fst_only
    | with_reducible apply next_only
    | with_reducible intro _
    | split
    | dsimp only
    | ((with_reducible apply only_mk) <;> first
        | with_reducible exact fun _ => rfl
        | exact fun hn => absurd (hq (by decide)) hn
        | skip)
    | exact List.Subset.trans (by decide) hq
    | refine pair_only (by assumption) ?_
    | assumption

theorem State.engineRetire_only {s0 : State} {ps : List Part} (s : State) (k : Nat) (e : Nat) (t : Nat) (hs : s0.changesOnly s ps) (hq : [.cpu] ⊆ ps) : s0.changesOnly (State.engineRetire s k e t) ps := by
  unfold State.engineRetire
  repeat' first
    | with_reducible assumption
    | with_reducible apply State.onThread_only
    | with_reducible apply State.onEngine_only
    | with_reducible apply State.settleThread_only
    | with_reducible apply ite_only
    | with_reducible apply ite_fst_only
    | with_reducible intro _
    | split
    | dsimp only
    | ((with_reducible apply only_mk) <;> first
        | with_reducible exact fun _ => rfl
        | exact fun hn => absurd (hq (by decide)) hn
        | skip)
    | exact List.Subset.trans (by decide) hq
    | refine pair_only (by assumption) ?_
    | assumption

theorem State.settleEngines_only {s0 : State} {ps : List Part} (s : State) (k : Nat) (hs : s0.changesOnly s ps) (hq : [.cpu] ⊆ ps) : s0.changesOnly (State.settleEngines s k) ps := by
  unfold State.settleEngines
  repeat' first
    | with_reducible assumption
    | with_reducible apply State.settleThread_only
    | with_reducible apply foldl_only
    | with_reducible apply foldl_fst_only
    | with_reducible apply ite_only
    | with_reducible apply ite_fst_only
    | with_reducible intro _
    | split
    | dsimp only
    | ((with_reducible apply only_mk) <;> first
        | with_reducible exact fun _ => rfl
        | exact fun hn => absurd (hq (by decide)) hn
        | skip)
    | exact List.Subset.trans (by decide) hq
    | refine pair_only (by assumption) ?_
    | assumption

theorem execEngineInvalidDescriptor_only {s0 : State} {ps : List Part} (core : BitVec 10) (engine : BitVec 2) (s : State) (hs : s0.changesOnly s ps) (hq : [.cpu, .log, .adk, .evq] ⊆ ps) : onlyNext s0 (execEngineInvalidDescriptor core engine s) ps := by
  unfold execEngineInvalidDescriptor
  repeat' first
    | with_reducible assumption
    | with_reducible apply State.faultThread_only
    | with_reducible apply State.engineRetire_only
    | with_reducible apply State.settleEngines_only
    | with_reducible apply ite_only
    | with_reducible apply ite_fst_only
    | with_reducible apply next_only
    | with_reducible intro _
    | split
    | dsimp only
    | ((with_reducible apply only_mk) <;> first
        | with_reducible exact fun _ => rfl
        | exact fun hn => absurd (hq (by decide)) hn
        | skip)
    | exact List.Subset.trans (by decide) hq
    | refine pair_only (by assumption) ?_
    | assumption

theorem State.applyOut_only {s0 : State} {ps : List Part} (s : State) (k : Nat) (o : EngOut) (hs : s0.changesOnly s ps) (hq : [.cpu] ⊆ ps) : s0.changesOnly (State.applyOut s k o) ps := by
  unfold State.applyOut
  repeat' first
    | with_reducible assumption
    | with_reducible apply State.onCore_only
    | with_reducible apply State.localWrite_only
    | with_reducible apply foldl_only
    | with_reducible apply foldl_fst_only
    | with_reducible apply ite_only
    | with_reducible apply ite_fst_only
    | with_reducible intro _
    | split
    | dsimp only
    | ((with_reducible apply only_mk) <;> first
        | with_reducible exact fun _ => rfl
        | exact fun hn => absurd (hq (by decide)) hn
        | skip)
    | exact List.Subset.trans (by decide) hq
    | refine pair_only (by assumption) ?_
    | assumption

theorem execEngineCommandComplete_only {s0 : State} {ps : List Part} (core : BitVec 10) (engine : BitVec 2) (s : State) (hs : s0.changesOnly s ps) (hq : [.cpu] ⊆ ps) : onlyNext s0 (execEngineCommandComplete core engine s) ps := by
  unfold execEngineCommandComplete
  repeat' first
    | with_reducible assumption
    | with_reducible apply State.engineRetire_only
    | with_reducible apply State.settleEngines_only
    | with_reducible apply State.applyOut_only
    | with_reducible apply ite_only
    | with_reducible apply ite_fst_only
    | with_reducible apply next_only
    | with_reducible intro _
    | split
    | dsimp only
    | ((with_reducible apply only_mk) <;> first
        | with_reducible exact fun _ => rfl
        | exact fun hn => absurd (hq (by decide)) hn
        | skip)
    | exact List.Subset.trans (by decide) hq
    | refine pair_only (by assumption) ?_
    | assumption

theorem State.headPhase_only {s0 : State} {ps : List Part} (s : State) (k : Nat) (e : Nat) (p : EngPhase) (hs : s0.changesOnly s ps) (hq : [.cpu] ⊆ ps) : s0.changesOnly (State.headPhase s k e p) ps := by
  unfold State.headPhase
  repeat' first
    | with_reducible assumption
    | with_reducible apply State.onEngine_only
    | with_reducible apply ite_only
    | with_reducible apply ite_fst_only
    | with_reducible intro _
    | split
    | dsimp only
    | ((with_reducible apply only_mk) <;> first
        | with_reducible exact fun _ => rfl
        | exact fun hn => absurd (hq (by decide)) hn
        | skip)
    | exact List.Subset.trans (by decide) hq
    | refine pair_only (by assumption) ?_
    | assumption

theorem State.noMajority_only {s0 : State} {ps : List Part} (s : State) (k : Nat) (e : Nat) (c : EngCmd) (hs : s0.changesOnly s ps) (hq : [.cpu, .log, .adk, .evq] ⊆ ps) : s0.changesOnly (State.noMajority s k e c) ps := by
  unfold State.noMajority
  repeat' first
    | with_reducible assumption
    | with_reducible apply State.faultThread_only
    | with_reducible apply State.engineRetire_only
    | with_reducible apply State.settleEngines_only
    | with_reducible apply ite_only
    | with_reducible apply ite_fst_only
    | with_reducible intro _
    | split
    | dsimp only
    | ((with_reducible apply only_mk) <;> first
        | with_reducible exact fun _ => rfl
        | exact fun hn => absurd (hq (by decide)) hn
        | skip)
    | exact List.Subset.trans (by decide) hq
    | refine pair_only (by assumption) ?_
    | assumption

theorem execShadowCompare_only {s0 : State} {ps : List Part} (core : BitVec 10) (engine : BitVec 2) (differ : Bool) (s : State) (hs : s0.changesOnly s ps) (hq : [.cpu, .log, .adk, .evq, .glb] ⊆ ps) : onlyNext s0 (execShadowCompare core engine differ s) ps := by
  unfold execShadowCompare
  repeat' first
    | with_reducible assumption
    | with_reducible apply State.countShadow_only
    | with_reducible apply State.suspectEngine_only
    | with_reducible apply State.headPhase_only
    | with_reducible apply State.noMajority_only
    | with_reducible apply foldl_only
    | with_reducible apply foldl_fst_only
    | with_reducible apply ite_only
    | with_reducible apply ite_fst_only
    | with_reducible apply next_only
    | with_reducible intro _
    | split
    | dsimp only
    | ((with_reducible apply only_mk) <;> first
        | with_reducible exact fun _ => rfl
        | exact fun hn => absurd (hq (by decide)) hn
        | skip)
    | exact List.Subset.trans (by decide) hq
    | refine pair_only (by assumption) ?_
    | assumption

theorem execMajorityVote_only {s0 : State} {ps : List Part} (core : BitVec 10) (engine : BitVec 2) (vote : BitVec 2) (s : State) (hs : s0.changesOnly s ps) (hq : [.cpu, .log, .adk, .evq] ⊆ ps) : onlyNext s0 (execMajorityVote core engine vote s) ps := by
  unfold execMajorityVote
  repeat' first
    | with_reducible assumption
    | with_reducible apply State.suspectEngine_only
    | with_reducible apply State.headPhase_only
    | with_reducible apply State.noMajority_only
    | with_reducible apply foldl_only
    | with_reducible apply foldl_fst_only
    | with_reducible apply ite_only
    | with_reducible apply ite_fst_only
    | with_reducible apply next_only
    | with_reducible intro _
    | split
    | dsimp only
    | ((with_reducible apply only_mk) <;> first
        | with_reducible exact fun _ => rfl
        | exact fun hn => absurd (hq (by decide)) hn
        | skip)
    | exact List.Subset.trans (by decide) hq
    | refine pair_only (by assumption) ?_
    | assumption

end Sys2Proof.Machine
end

