-- ==== Sys2Proof/Laws/OnlyLifecycle.lean ====
section
/-! SUPPORT. What every operation of Lifecycle leaves alone. -/

set_option linter.unusedTactic false
set_option linter.unreachableTactic false
set_option linter.unusedVariables false

namespace Sys2Proof.Machine

theorem State.adkAbandon_only {s0 : State} {ps : List Part} (s : State) (hs : s0.changesOnly s ps) (hq : [.ext, .adk] ⊆ ps) : s0.changesOnly (State.adkAbandon s) ps := by
  unfold State.adkAbandon
  repeat' first
    | with_reducible assumption
    | with_reducible apply State.adkFail_only
    | with_reducible apply State.adkMalformed_only
    | with_reducible apply foldl_only
    | with_reducible apply foldl_fst_only
    | with_reducible apply ite_only
    | with_reducible apply ite_fst_only
    | with_reducible intro _
    | split
    | dsimp only
    | ((with_reducible apply only_mk) <;> first
        | with_reducible exact fun _ => rfl
        | exact fun hn => absurd (hq (by decide)) hn
        | skip)
    | exact List.Subset.trans (by decide) hq
    | refine pair_only (by assumption) ?_
    | assumption

theorem State.dropWork_only {s0 : State} {ps : List Part} (s : State) (hs : s0.changesOnly s ps) (hq : [.req, .coh, .ext, .tier, .xl, .atn, .adk] ⊆ ps) : s0.changesOnly (State.dropWork s) ps := by
  unfold State.dropWork
  repeat' first
    | with_reducible assumption
    | with_reducible apply State.adkAbandon_only
    | with_reducible apply ite_only
    | with_reducible apply ite_fst_only
    | with_reducible intro _
    | split
    | dsimp only
    | ((with_reducible apply only_mk) <;> first
        | with_reducible exact fun _ => rfl
        | exact fun hn => absurd (hq (by decide)) hn
        | skip)
    | exact List.Subset.trans (by decide) hq
    | refine pair_only (by assumption) ?_
    | assumption

theorem State.stopCores_only {s0 : State} {ps : List Part} (s : State) (hs : s0.changesOnly s ps) (hq : [.cpu] ⊆ ps) : s0.changesOnly (State.stopCores s) ps := by
  unfold State.stopCores
  repeat' first
    | with_reducible assumption
    | with_reducible apply ite_only
    | with_reducible apply ite_fst_only
    | with_reducible intro _
    | split
    | dsimp only
    | ((with_reducible apply only_mk) <;> first
        | with_reducible exact fun _ => rfl
        | exact fun hn => absurd (hq (by decide)) hn
        | skip)
    | exact List.Subset.trans (by decide) hq
    | refine pair_only (by assumption) ?_
    | assumption

theorem State.portsOff_only {s0 : State} {ps : List Part} (s : State) (hs : s0.changesOnly s ps) (hq : [.ports, .tier] ⊆ ps) : s0.changesOnly (State.portsOff s) ps := by
  unfold State.portsOff
  repeat' first
    | with_reducible assumption
    | with_reducible apply ite_only
    | with_reducible apply ite_fst_only
    | with_reducible intro _
    | split
    | dsimp only
    | ((with_reducible apply only_mk) <;> first
        | with_reducible exact fun _ => rfl
        | exact fun hn => absurd (hq (by decide)) hn
        | skip)
    | exact List.Subset.trans (by decide) hq
    | refine pair_only (by assumption) ?_
    | assumption

theorem State.unarmLeases_only {s0 : State} {ps : List Part} (s : State) (hs : s0.changesOnly s ps) (hq : [.lse] ⊆ ps) : s0.changesOnly (State.unarmLeases s) ps := by
  unfold State.unarmLeases
  repeat' first
    | with_reducible assumption
    | with_reducible apply ite_only
    | with_reducible apply ite_fst_only
    | with_reducible intro _
    | split
    | dsimp only
    | ((with_reducible apply only_mk) <;> first
        | with_reducible exact fun _ => rfl
        | exact fun hn => absurd (hq (by decide)) hn
        | skip)
    | exact List.Subset.trans (by decide) hq
    | refine pair_only (by assumption) ?_
    | assumption

theorem State.stopThreads_only {s0 : State} {ps : List Part} (s : State) (p : Nat → Nat → Bool) (hs : s0.changesOnly s ps) (hq : [.cpu] ⊆ ps) : s0.changesOnly (State.stopThreads s p) ps := by
  unfold State.stopThreads
  repeat' first
    | with_reducible assumption
    | with_reducible apply ite_only
    | with_reducible apply ite_fst_only
    | with_reducible intro _
    | split
    | dsimp only
    | ((with_reducible apply only_mk) <;> first
        | with_reducible exact fun _ => rfl
        | exact fun hn => absurd (hq (by decide)) hn
        | skip)
    | exact List.Subset.trans (by decide) hq
    | refine pair_only (by assumption) ?_
    | assumption

theorem State.abandonDelta_only {s0 : State} {ps : List Part} (s : State) (hs : s0.changesOnly s ps) (hq : [.comp] ⊆ ps) : s0.changesOnly (State.abandonDelta s) ps := by
  unfold State.abandonDelta
  repeat' first
    | with_reducible assumption
    | with_reducible apply ite_only
    | with_reducible apply ite_fst_only
    | with_reducible intro _
    | split
    | dsimp only
    | ((with_reducible apply only_mk) <;> first
        | with_reducible exact fun _ => rfl
        | exact fun hn => absurd (hq (by decide)) hn
        | skip)
    | exact List.Subset.trans (by decide) hq
    | refine pair_only (by assumption) ?_
    | assumption

theorem State.leaveService_only {s0 : State} {ps : List Part} (s : State) (hs : s0.changesOnly s ps) (hq : [.pkg, .ports, .req, .lse, .xl, .cpu, .clv, .atn, .comp, .sec, .log, .adk, .evq] ⊆ ps) : s0.changesOnly (State.leaveService s) ps := by
  unfold State.leaveService
  repeat' first
    | with_reducible assumption
    | with_reducible apply State.collTriggers_only
    | with_reducible apply State.attnLeave_only
    | with_reducible apply State.unarmLeases_only
    | with_reducible apply State.stopThreads_only
    | with_reducible apply State.abandonDelta_only
    | with_reducible apply ite_only
    | with_reducible apply ite_fst_only
    | with_reducible intro _
    | split
    | dsimp only
    | ((with_reducible apply only_mk) <;> first
        | with_reducible exact fun _ => rfl
        | exact fun hn => absurd (hq (by decide)) hn
        | skip)
    | exact List.Subset.trans (by decide) hq
    | refine pair_only (by assumption) ?_
    | assumption

theorem State.enterHalt_only {s0 : State} {ps : List Part} (s : State) (cls : Nat) (hs : s0.changesOnly s ps) (hq : [.pkg, .ports, .req, .coh, .ext, .lse, .tier, .xl, .cpu, .clv, .atn, .comp, .sec, .log, .mod, .adk, .evq, .glb] ⊆ ps) : s0.changesOnly (State.enterHalt s cls) ps := by
  have sub : ∀ {l : List Part}, l ⊆ [.pkg, .ports, .req, .coh, .ext, .lse, .tier, .xl, .cpu, .clv, .atn, .comp, .sec, .log, .mod, .adk, .evq, .glb] → l ⊆ ps := fun h => List.Subset.trans h hq
  have hm : ∀ (t : State) (x : Module) (y : Log), s0.changesOnly t ps → s0.changesOnly { t with mod := x, log := y } ps := by
    intro t x y h p hp
    have := h p hp
    cases p <;> first
      | exact this
      | exact absurd (hq (by decide)) hp
  unfold State.enterHalt
  split
  · exact hs
  · have h1 := State.changeState_only s .halt 0x41 cls hs (sub (by decide))
    have h2 := ite_only (c := s.mod.state = .service) (fun _ => State.leaveService_only _ h1 (sub (by decide))) (fun _ => h1)
    have h3 := State.dropWork_only _ (State.stopCores_only _ (State.portsOff_only _ h2 (sub (by decide))) (sub (by decide))) (sub (by decide))
    exact hm _ _ _ h3

theorem State.recoveryStart_only {s0 : State} {ps : List Part} (s : State) (hs : s0.changesOnly s ps) (hq : [.log, .adk, .evq] ⊆ ps) : s0.changesOnly (State.recoveryStart s) ps := by
  unfold State.recoveryStart
  repeat' first
    | with_reducible assumption
    | with_reducible apply State.logE_only
    | with_reducible apply ite_only
    | with_reducible apply ite_fst_only
    | with_reducible intro _
    | split
    | dsimp only
    | ((with_reducible apply only_mk) <;> first
        | with_reducible exact fun _ => rfl
        | exact fun hn => absurd (hq (by decide)) hn
        | skip)
    | exact List.Subset.trans (by decide) hq
    | refine pair_only (by assumption) ?_
    | assumption

theorem State.enterRecovery_only {s0 : State} {ps : List Part} (s : State) (cause : Nat) (hs : s0.changesOnly s ps) (hq : [.pkg, .ports, .req, .lse, .xl, .cpu, .clv, .atn, .comp, .sec, .log, .mod, .adk, .evq, .glb] ⊆ ps) : s0.changesOnly (State.enterRecovery s cause) ps := by
  have sub : ∀ {l : List Part}, l ⊆ [.pkg, .ports, .req, .lse, .xl, .cpu, .clv, .atn, .comp, .sec, .log, .mod, .adk, .evq, .glb] → l ⊆ ps := fun h => List.Subset.trans h hq
  have hm : ∀ (t : State) (x : Module) (y : Log), s0.changesOnly t ps → s0.changesOnly { t with mod := x, log := y } ps := by
    intro t x y h p hp
    have := h p hp
    cases p <;> first
      | exact this
      | exact absurd (hq (by decide)) hp
  have h1 := State.changeState_only s .recovery (if cause = 0x40 then 0x40 else 0x41) (if cause = 0x40 then 0 else cause) hs
    (sub (by decide))
  have h2 := ite_only (c := s.mod.state = .service) (fun _ => State.leaveService_only _ h1 (sub (by decide))) (fun _ => h1)
  exact State.recoveryStart_only _ (hm _ _ _ h2) (sub (by decide))

theorem State.recoveryFault_only {s0 : State} {ps : List Part} (s : State) (cls : Nat) (hs : s0.changesOnly s ps) (hq : [.pkg, .ports, .req, .coh, .ext, .lse, .tier, .xl, .cpu, .clv, .atn, .comp, .sec, .log, .mod, .adk, .evq, .glb] ⊆ ps) : s0.changesOnly (State.recoveryFault s cls) ps := by
  unfold State.recoveryFault
  repeat' first
    | with_reducible assumption
    | with_reducible apply State.enterHalt_only
    | with_reducible apply State.recoveryStart_only
    | with_reducible apply State.enterRecovery_only
    | with_reducible apply ite_only
    | with_reducible apply ite_fst_only
    | with_reducible intro _
    | split
    | dsimp only
    | ((with_reducible apply only_mk) <;> first
        | with_reducible exact fun _ => rfl
        | exact fun hn => absurd (hq (by decide)) hn
        | skip)
    | exact List.Subset.trans (by decide) hq
    | refine pair_only (by assumption) ?_
    | assumption

theorem execHeartbeatSend_only {s0 : State} {ps : List Part} (s : State) (hs : s0.changesOnly s ps) (hq : [.hb] ⊆ ps) : onlyNext s0 (execHeartbeatSend s) ps := by
  unfold execHeartbeatSend
  repeat' first
    | with_reducible assumption
    | with_reducible apply ite_only
    | with_reducible apply ite_fst_only
    | with_reducible apply next_only
    | with_reducible intro _
    | split
    | dsimp only
    | ((with_reducible apply only_mk) <;> first
        | with_reducible exact fun _ => rfl
        | exact fun hn => absurd (hq (by decide)) hn
        | skip)
    | exact List.Subset.trans (by decide) hq
    | refine pair_only (by assumption) ?_
    | assumption

theorem execHeartbeatReceive_only {s0 : State} {ps : List Part} (s : State) (hs : s0.changesOnly s ps) (hq : [.hb] ⊆ ps) : onlyNext s0 (execHeartbeatReceive s) ps := by
  unfold execHeartbeatReceive
  repeat' first
    | with_reducible assumption
    | with_reducible apply ite_only
    | with_reducible apply ite_fst_only
    | with_reducible apply next_only
    | with_reducible intro _
    | split
    | dsimp only
    | ((with_reducible apply only_mk) <;> first
        | with_reducible exact fun _ => rfl
        | exact fun hn => absurd (hq (by decide)) hn
        | skip)
    | exact List.Subset.trans (by decide) hq
    | refine pair_only (by assumption) ?_
    | assumption

theorem execHeartbeatReplyReceive_only {s0 : State} {ps : List Part} (s : State) (hs : s0.changesOnly s ps) (hq : [.hb] ⊆ ps) : onlyNext s0 (execHeartbeatReplyReceive s) ps := by
  unfold execHeartbeatReplyReceive
  repeat' first
    | with_reducible assumption
    | with_reducible apply ite_only
    | with_reducible apply ite_fst_only
    | with_reducible apply next_only
    | with_reducible intro _
    | split
    | dsimp only
    | ((with_reducible apply only_mk) <;> first
        | with_reducible exact fun _ => rfl
        | exact fun hn => absurd (hq (by decide)) hn
        | skip)
    | exact List.Subset.trans (by decide) hq
    | refine pair_only (by assumption) ?_
    | assumption

theorem execHeartbeatTimeoutSd0_only {s0 : State} {ps : List Part} (s : State) (hs : s0.changesOnly s ps) (hq : [.pkg, .ports, .req, .coh, .ext, .lse, .tier, .xl, .cpu, .clv, .atn, .comp, .sec, .log, .mod, .adk, .evq, .glb] ⊆ ps) : onlyNext s0 (execHeartbeatTimeoutSd0 s) ps := by
  unfold execHeartbeatTimeoutSd0
  repeat' first
    | with_reducible assumption
    | with_reducible apply State.logE_only
    | with_reducible apply State.enterHalt_only
    | with_reducible apply ite_only
    | with_reducible apply ite_fst_only
    | with_reducible apply next_only
    | with_reducible intro _
    | split
    | dsimp only
    | ((with_reducible apply only_mk) <;> first
        | with_reducible exact fun _ => rfl
        | exact fun hn => absurd (hq (by decide)) hn
        | skip)
    | exact List.Subset.trans (by decide) hq
    | refine pair_only (by assumption) ?_
    | assumption

theorem execHeartbeatTimeoutSd1_only {s0 : State} {ps : List Part} (s : State) (hs : s0.changesOnly s ps) (hq : [.hb, .pkg, .ports, .req, .coh, .ext, .lse, .tier, .xl, .cpu, .clv, .atn, .comp, .sec, .log, .mod, .adk, .evq, .glb] ⊆ ps) : onlyNext s0 (execHeartbeatTimeoutSd1 s) ps := by
  unfold execHeartbeatTimeoutSd1
  repeat' first
    | with_reducible assumption
    | with_reducible apply State.enterHalt_only
    | with_reducible apply ite_only
    | with_reducible apply ite_fst_only
    | with_reducible apply next_only
    | with_reducible intro _
    | split
    | dsimp only
    | ((with_reducible apply only_mk) <;> first
        | with_reducible exact fun _ => rfl
        | exact fun hn => absurd (hq (by decide)) hn
        | skip)
    | exact List.Subset.trans (by decide) hq
    | refine pair_only (by assumption) ?_
    | assumption

theorem execTrellisHop_only {s0 : State} {ps : List Part} (site : BitVec 6) (yx : Bool) (vc : BitVec 3) (replays : BitVec 4) (s : State) (hs : s0.changesOnly s ps) (hq : [.pkg, .ports, .log, .adk, .evq] ⊆ ps) : onlyNext s0 (execTrellisHop site yx vc replays s) ps := by
  unfold execTrellisHop
  repeat' first
    | with_reducible assumption
    | with_reducible apply State.logE_only
    | with_reducible apply State.enqueue_only
    | with_reducible apply ite_only
    | with_reducible apply ite_fst_only
    | with_reducible apply next_only
    | with_reducible intro _
    | split
    | dsimp only
    | ((with_reducible apply only_mk) <;> first
        | with_reducible exact fun _ => rfl
        | exact fun hn => absurd (hq (by decide)) hn
        | skip)
    | exact List.Subset.trans (by decide) hq
    | refine pair_only (by assumption) ?_
    | assumption

theorem execTrellisRetrainTimeout_only {s0 : State} {ps : List Part} (edge : BitVec 8) (s : State) (hs : s0.changesOnly s ps) (hq : [.pkg, .ports, .req, .coh, .ext, .lse, .tier, .xl, .cpu, .clv, .atn, .comp, .sec, .log, .mod, .adk, .evq, .glb] ⊆ ps) : onlyNext s0 (execTrellisRetrainTimeout edge s) ps := by
  unfold execTrellisRetrainTimeout
  repeat' first
    | with_reducible assumption
    | with_reducible apply State.enterHalt_only
    | with_reducible apply ite_only
    | with_reducible apply ite_fst_only
    | with_reducible apply next_only
    | with_reducible intro _
    | split
    | dsimp only
    | ((with_reducible apply only_mk) <;> first
        | with_reducible exact fun _ => rfl
        | exact fun hn => absurd (hq (by decide)) hn
        | skip)
    | exact List.Subset.trans (by decide) hq
    | refine pair_only (by assumption) ?_
    | assumption

theorem execTrellisEdgeRetrainDone_only {s0 : State} {ps : List Part} (edge : BitVec 8) (s : State) (hs : s0.changesOnly s ps) (hq : [.pkg] ⊆ ps) : onlyNext s0 (execTrellisEdgeRetrainDone edge s) ps := by
  unfold execTrellisEdgeRetrainDone
  repeat' first
    | with_reducible assumption
    | with_reducible apply ite_only
    | with_reducible apply ite_fst_only
    | with_reducible apply next_only
    | with_reducible intro _
    | split
    | dsimp only
    | ((with_reducible apply only_mk) <;> first
        | with_reducible exact fun _ => rfl
        | exact fun hn => absurd (hq (by decide)) hn
        | skip)
    | exact List.Subset.trans (by decide) hq
    | refine pair_only (by assumption) ?_
    | assumption

end Sys2Proof.Machine
end

