-- ==== Sys2Proof/Laws/Lifecycle.lean ====
section
/-! SUPPORT. The state changes of the device, said once: what entering HALT does to the device state (R373, R381). -/

namespace Sys2Proof.Machine

/-- A state change sets the state. -/
theorem State.changeState_state (s : State) (n : ModState) (code trig : Nat) : (s.changeState n code trig).mod.state = n := by
  unfold State.changeState
  split
  · assumption
  · have w := fun (t : State) a b c d e f g =>
      State.logWith_only (s0 := t) (ps := [.log, .adk, .evq]) t a b c d e f g (only_refl t _) (by decide) .mod (by decide)
    simp only [State.agrees] at w
    simp only [w]

/-- Entering HALT sets the state and the cause. -/
theorem State.enterHalt_mod {s : State} (h : s.alive = true) (cls : Nat) :
    (s.enterHalt cls).mod.state = .halt ∧ (s.enterHalt cls).mod.cause = BitVec.ofNat 8 cls := by
  have h' : ¬ (s.mod.state = .off ∨ s.mod.state = .halt) := by
    simp only [State.alive, Bool.and_eq_true, bne_iff_ne] at h
    tauto
  unfold State.enterHalt
  rw [if_neg h']
  refine ⟨?_, rfl⟩
  show (State.dropWork _).mod.state = _
  have e1 := fun (t : State) => State.dropWork_only (s0 := t) t (only_refl t [.req, .coh, .ext, .tier, .xl, .atn, .adk]) (by decide) .mod (by decide)
  have e2 := fun (t : State) => State.stopCores_only (s0 := t) t (only_refl t [.cpu]) (by decide) .mod (by decide)
  have e3 := fun (t : State) => State.portsOff_only (s0 := t) t (only_refl t [.ports, .tier]) (by decide) .mod (by decide)
  have e4 := fun (t : State) => State.leaveService_only (s0 := t) t
    (only_refl t [.pkg, .ports, .req, .lse, .xl, .cpu, .clv, .atn, .comp, .sec, .log, .adk, .evq]) (by decide) .mod (by decide)
  simp only [State.agrees] at e1 e2 e3 e4
  rw [e1, e2, e3]
  split
  · rw [e4, State.changeState_state]
  · rw [State.changeState_state]

/-- Entering HALT leaves fabric time, the heartbeat and the fuses alone. -/
theorem State.enterHalt_frame (s : State) (cls : Nat) :
    (s.enterHalt cls).tim = s.tim ∧ (s.enterHalt cls).hb = s.hb := by
  have e := State.enterHalt_only s cls (only_refl s
    [.pkg, .ports, .req, .coh, .ext, .lse, .tier, .xl, .cpu, .clv, .atn, .comp, .sec, .log, .mod, .adk, .evq, .glb]) (by decide)
  exact ⟨e .tim (by decide), e .hb (by decide)⟩

end Sys2Proof.Machine
end

