-- ==== Sys2Proof/Laws/State.lean ====
section
/-! SUPPORT. What each update of the state leaves alone, one field at a time, and what it writes. -/

namespace Sys2Proof.Machine

/-! `State.setPort` -/

@[simp] theorem State.setPort_pending (s : State) (p : Nat) (v : Port) : (s.setPort p v).pending = s.pending := rfl
@[simp] theorem State.setPort_free (s : State) (p : Nat) (v : Port) : (s.setPort p v).free = s.free := rfl
@[simp] theorem State.setPort_hb (s : State) (p : Nat) (v : Port) : (s.setPort p v).hb = s.hb := rfl
@[simp] theorem State.setPort_pkg (s : State) (p : Nat) (v : Port) : (s.setPort p v).pkg = s.pkg := rfl
@[simp] theorem State.setPort_tim (s : State) (p : Nat) (v : Port) : (s.setPort p v).tim = s.tim := rfl
@[simp] theorem State.setPort_bridles (s : State) (p : Nat) (v : Port) : (s.setPort p v).bridles = s.bridles := rfl
@[simp] theorem State.setPort_req (s : State) (p : Nat) (v : Port) : (s.setPort p v).req = s.req := rfl
@[simp] theorem State.setPort_coh (s : State) (p : Nat) (v : Port) : (s.setPort p v).coh = s.coh := rfl
@[simp] theorem State.setPort_ext (s : State) (p : Nat) (v : Port) : (s.setPort p v).ext = s.ext := rfl
@[simp] theorem State.setPort_lse (s : State) (p : Nat) (v : Port) : (s.setPort p v).lse = s.lse := rfl
@[simp] theorem State.setPort_adm (s : State) (p : Nat) (v : Port) : (s.setPort p v).adm = s.adm := rfl
@[simp] theorem State.setPort_tier (s : State) (p : Nat) (v : Port) : (s.setPort p v).tier = s.tier := rfl
@[simp] theorem State.setPort_xl (s : State) (p : Nat) (v : Port) : (s.setPort p v).xl = s.xl := rfl
@[simp] theorem State.setPort_cmp (s : State) (p : Nat) (v : Port) : (s.setPort p v).cmp = s.cmp := rfl
@[simp] theorem State.setPort_cpu (s : State) (p : Nat) (v : Port) : (s.setPort p v).cpu = s.cpu := rfl
@[simp] theorem State.setPort_clv (s : State) (p : Nat) (v : Port) : (s.setPort p v).clv = s.clv := rfl
@[simp] theorem State.setPort_atn (s : State) (p : Nat) (v : Port) : (s.setPort p v).atn = s.atn := rfl
@[simp] theorem State.setPort_comp (s : State) (p : Nat) (v : Port) : (s.setPort p v).comp = s.comp := rfl
@[simp] theorem State.setPort_sec (s : State) (p : Nat) (v : Port) : (s.setPort p v).sec = s.sec := rfl
@[simp] theorem State.setPort_log (s : State) (p : Nat) (v : Port) : (s.setPort p v).log = s.log := rfl
@[simp] theorem State.setPort_mod (s : State) (p : Nat) (v : Port) : (s.setPort p v).mod = s.mod := rfl
@[simp] theorem State.setPort_adk (s : State) (p : Nat) (v : Port) : (s.setPort p v).adk = s.adk := rfl
@[simp] theorem State.setPort_evq (s : State) (p : Nat) (v : Port) : (s.setPort p v).evq = s.evq := rfl
@[simp] theorem State.setPort_glb (s : State) (p : Nat) (v : Port) : (s.setPort p v).glb = s.glb := rfl

/-! `State.onLink` -/

@[simp] theorem State.onLink_pending (s : State) (p : Nat) (f : Link → Link) : (s.onLink p f).pending = s.pending := rfl
@[simp] theorem State.onLink_free (s : State) (p : Nat) (f : Link → Link) : (s.onLink p f).free = s.free := rfl
@[simp] theorem State.onLink_hb (s : State) (p : Nat) (f : Link → Link) : (s.onLink p f).hb = s.hb := rfl
@[simp] theorem State.onLink_pkg (s : State) (p : Nat) (f : Link → Link) : (s.onLink p f).pkg = s.pkg := rfl
@[simp] theorem State.onLink_tim (s : State) (p : Nat) (f : Link → Link) : (s.onLink p f).tim = s.tim := rfl
@[simp] theorem State.onLink_bridles (s : State) (p : Nat) (f : Link → Link) : (s.onLink p f).bridles = s.bridles := rfl
@[simp] theorem State.onLink_req (s : State) (p : Nat) (f : Link → Link) : (s.onLink p f).req = s.req := rfl
@[simp] theorem State.onLink_coh (s : State) (p : Nat) (f : Link → Link) : (s.onLink p f).coh = s.coh := rfl
@[simp] theorem State.onLink_ext (s : State) (p : Nat) (f : Link → Link) : (s.onLink p f).ext = s.ext := rfl
@[simp] theorem State.onLink_lse (s : State) (p : Nat) (f : Link → Link) : (s.onLink p f).lse = s.lse := rfl
@[simp] theorem State.onLink_adm (s : State) (p : Nat) (f : Link → Link) : (s.onLink p f).adm = s.adm := rfl
@[simp] theorem State.onLink_tier (s : State) (p : Nat) (f : Link → Link) : (s.onLink p f).tier = s.tier := rfl
@[simp] theorem State.onLink_xl (s : State) (p : Nat) (f : Link → Link) : (s.onLink p f).xl = s.xl := rfl
@[simp] theorem State.onLink_cmp (s : State) (p : Nat) (f : Link → Link) : (s.onLink p f).cmp = s.cmp := rfl
@[simp] theorem State.onLink_cpu (s : State) (p : Nat) (f : Link → Link) : (s.onLink p f).cpu = s.cpu := rfl
@[simp] theorem State.onLink_clv (s : State) (p : Nat) (f : Link → Link) : (s.onLink p f).clv = s.clv := rfl
@[simp] theorem State.onLink_atn (s : State) (p : Nat) (f : Link → Link) : (s.onLink p f).atn = s.atn := rfl
@[simp] theorem State.onLink_comp (s : State) (p : Nat) (f : Link → Link) : (s.onLink p f).comp = s.comp := rfl
@[simp] theorem State.onLink_sec (s : State) (p : Nat) (f : Link → Link) : (s.onLink p f).sec = s.sec := rfl
@[simp] theorem State.onLink_log (s : State) (p : Nat) (f : Link → Link) : (s.onLink p f).log = s.log := rfl
@[simp] theorem State.onLink_mod (s : State) (p : Nat) (f : Link → Link) : (s.onLink p f).mod = s.mod := rfl
@[simp] theorem State.onLink_adk (s : State) (p : Nat) (f : Link → Link) : (s.onLink p f).adk = s.adk := rfl
@[simp] theorem State.onLink_evq (s : State) (p : Nat) (f : Link → Link) : (s.onLink p f).evq = s.evq := rfl
@[simp] theorem State.onLink_glb (s : State) (p : Nat) (f : Link → Link) : (s.onLink p f).glb = s.glb := rfl

/-! `State.onTc` -/

@[simp] theorem State.onTc_pending (s : State) (p : Nat) (f : Traffic → Traffic) : (s.onTc p f).pending = s.pending := rfl
@[simp] theorem State.onTc_free (s : State) (p : Nat) (f : Traffic → Traffic) : (s.onTc p f).free = s.free := rfl
@[simp] theorem State.onTc_hb (s : State) (p : Nat) (f : Traffic → Traffic) : (s.onTc p f).hb = s.hb := rfl
@[simp] theorem State.onTc_pkg (s : State) (p : Nat) (f : Traffic → Traffic) : (s.onTc p f).pkg = s.pkg := rfl
@[simp] theorem State.onTc_tim (s : State) (p : Nat) (f : Traffic → Traffic) : (s.onTc p f).tim = s.tim := rfl
@[simp] theorem State.onTc_bridles (s : State) (p : Nat) (f : Traffic → Traffic) : (s.onTc p f).bridles = s.bridles := rfl
@[simp] theorem State.onTc_req (s : State) (p : Nat) (f : Traffic → Traffic) : (s.onTc p f).req = s.req := rfl
@[simp] theorem State.onTc_coh (s : State) (p : Nat) (f : Traffic → Traffic) : (s.onTc p f).coh = s.coh := rfl
@[simp] theorem State.onTc_ext (s : State) (p : Nat) (f : Traffic → Traffic) : (s.onTc p f).ext = s.ext := rfl
@[simp] theorem State.onTc_lse (s : State) (p : Nat) (f : Traffic → Traffic) : (s.onTc p f).lse = s.lse := rfl
@[simp] theorem State.onTc_adm (s : State) (p : Nat) (f : Traffic → Traffic) : (s.onTc p f).adm = s.adm := rfl
@[simp] theorem State.onTc_tier (s : State) (p : Nat) (f : Traffic → Traffic) : (s.onTc p f).tier = s.tier := rfl
@[simp] theorem State.onTc_xl (s : State) (p : Nat) (f : Traffic → Traffic) : (s.onTc p f).xl = s.xl := rfl
@[simp] theorem State.onTc_cmp (s : State) (p : Nat) (f : Traffic → Traffic) : (s.onTc p f).cmp = s.cmp := rfl
@[simp] theorem State.onTc_cpu (s : State) (p : Nat) (f : Traffic → Traffic) : (s.onTc p f).cpu = s.cpu := rfl
@[simp] theorem State.onTc_clv (s : State) (p : Nat) (f : Traffic → Traffic) : (s.onTc p f).clv = s.clv := rfl
@[simp] theorem State.onTc_atn (s : State) (p : Nat) (f : Traffic → Traffic) : (s.onTc p f).atn = s.atn := rfl
@[simp] theorem State.onTc_comp (s : State) (p : Nat) (f : Traffic → Traffic) : (s.onTc p f).comp = s.comp := rfl
@[simp] theorem State.onTc_sec (s : State) (p : Nat) (f : Traffic → Traffic) : (s.onTc p f).sec = s.sec := rfl
@[simp] theorem State.onTc_log (s : State) (p : Nat) (f : Traffic → Traffic) : (s.onTc p f).log = s.log := rfl
@[simp] theorem State.onTc_mod (s : State) (p : Nat) (f : Traffic → Traffic) : (s.onTc p f).mod = s.mod := rfl
@[simp] theorem State.onTc_adk (s : State) (p : Nat) (f : Traffic → Traffic) : (s.onTc p f).adk = s.adk := rfl
@[simp] theorem State.onTc_evq (s : State) (p : Nat) (f : Traffic → Traffic) : (s.onTc p f).evq = s.evq := rfl
@[simp] theorem State.onTc_glb (s : State) (p : Nat) (f : Traffic → Traffic) : (s.onTc p f).glb = s.glb := rfl

/-! `State.onQueue` -/

@[simp] theorem State.onQueue_pending (s : State) (p q : Nat) (f : Queue → Queue) : (s.onQueue p q f).pending = s.pending := rfl
@[simp] theorem State.onQueue_free (s : State) (p q : Nat) (f : Queue → Queue) : (s.onQueue p q f).free = s.free := rfl
@[simp] theorem State.onQueue_hb (s : State) (p q : Nat) (f : Queue → Queue) : (s.onQueue p q f).hb = s.hb := rfl
@[simp] theorem State.onQueue_pkg (s : State) (p q : Nat) (f : Queue → Queue) : (s.onQueue p q f).pkg = s.pkg := rfl
@[simp] theorem State.onQueue_tim (s : State) (p q : Nat) (f : Queue → Queue) : (s.onQueue p q f).tim = s.tim := rfl
@[simp] theorem State.onQueue_bridles (s : State) (p q : Nat) (f : Queue → Queue) : (s.onQueue p q f).bridles = s.bridles := rfl
@[simp] theorem State.onQueue_req (s : State) (p q : Nat) (f : Queue → Queue) : (s.onQueue p q f).req = s.req := rfl
@[simp] theorem State.onQueue_coh (s : State) (p q : Nat) (f : Queue → Queue) : (s.onQueue p q f).coh = s.coh := rfl
@[simp] theorem State.onQueue_ext (s : State) (p q : Nat) (f : Queue → Queue) : (s.onQueue p q f).ext = s.ext := rfl
@[simp] theorem State.onQueue_lse (s : State) (p q : Nat) (f : Queue → Queue) : (s.onQueue p q f).lse = s.lse := rfl
@[simp] theorem State.onQueue_adm (s : State) (p q : Nat) (f : Queue → Queue) : (s.onQueue p q f).adm = s.adm := rfl
@[simp] theorem State.onQueue_tier (s : State) (p q : Nat) (f : Queue → Queue) : (s.onQueue p q f).tier = s.tier := rfl
@[simp] theorem State.onQueue_xl (s : State) (p q : Nat) (f : Queue → Queue) : (s.onQueue p q f).xl = s.xl := rfl
@[simp] theorem State.onQueue_cmp (s : State) (p q : Nat) (f : Queue → Queue) : (s.onQueue p q f).cmp = s.cmp := rfl
@[simp] theorem State.onQueue_cpu (s : State) (p q : Nat) (f : Queue → Queue) : (s.onQueue p q f).cpu = s.cpu := rfl
@[simp] theorem State.onQueue_clv (s : State) (p q : Nat) (f : Queue → Queue) : (s.onQueue p q f).clv = s.clv := rfl
@[simp] theorem State.onQueue_atn (s : State) (p q : Nat) (f : Queue → Queue) : (s.onQueue p q f).atn = s.atn := rfl
@[simp] theorem State.onQueue_comp (s : State) (p q : Nat) (f : Queue → Queue) : (s.onQueue p q f).comp = s.comp := rfl
@[simp] theorem State.onQueue_sec (s : State) (p q : Nat) (f : Queue → Queue) : (s.onQueue p q f).sec = s.sec := rfl
@[simp] theorem State.onQueue_log (s : State) (p q : Nat) (f : Queue → Queue) : (s.onQueue p q f).log = s.log := rfl
@[simp] theorem State.onQueue_mod (s : State) (p q : Nat) (f : Queue → Queue) : (s.onQueue p q f).mod = s.mod := rfl
@[simp] theorem State.onQueue_adk (s : State) (p q : Nat) (f : Queue → Queue) : (s.onQueue p q f).adk = s.adk := rfl
@[simp] theorem State.onQueue_evq (s : State) (p q : Nat) (f : Queue → Queue) : (s.onQueue p q f).evq = s.evq := rfl
@[simp] theorem State.onQueue_glb (s : State) (p q : Nat) (f : Queue → Queue) : (s.onQueue p q f).glb = s.glb := rfl

/-! `State.setCore` -/

@[simp] theorem State.setCore_pending (s : State) (k : Nat) (v : Core) : (s.setCore k v).pending = s.pending := rfl
@[simp] theorem State.setCore_free (s : State) (k : Nat) (v : Core) : (s.setCore k v).free = s.free := rfl
@[simp] theorem State.setCore_hb (s : State) (k : Nat) (v : Core) : (s.setCore k v).hb = s.hb := rfl
@[simp] theorem State.setCore_pkg (s : State) (k : Nat) (v : Core) : (s.setCore k v).pkg = s.pkg := rfl
@[simp] theorem State.setCore_tim (s : State) (k : Nat) (v : Core) : (s.setCore k v).tim = s.tim := rfl
@[simp] theorem State.setCore_ports (s : State) (k : Nat) (v : Core) : (s.setCore k v).ports = s.ports := rfl
@[simp] theorem State.setCore_bridles (s : State) (k : Nat) (v : Core) : (s.setCore k v).bridles = s.bridles := rfl
@[simp] theorem State.setCore_req (s : State) (k : Nat) (v : Core) : (s.setCore k v).req = s.req := rfl
@[simp] theorem State.setCore_coh (s : State) (k : Nat) (v : Core) : (s.setCore k v).coh = s.coh := rfl
@[simp] theorem State.setCore_ext (s : State) (k : Nat) (v : Core) : (s.setCore k v).ext = s.ext := rfl
@[simp] theorem State.setCore_lse (s : State) (k : Nat) (v : Core) : (s.setCore k v).lse = s.lse := rfl
@[simp] theorem State.setCore_adm (s : State) (k : Nat) (v : Core) : (s.setCore k v).adm = s.adm := rfl
@[simp] theorem State.setCore_tier (s : State) (k : Nat) (v : Core) : (s.setCore k v).tier = s.tier := rfl
@[simp] theorem State.setCore_xl (s : State) (k : Nat) (v : Core) : (s.setCore k v).xl = s.xl := rfl
@[simp] theorem State.setCore_cmp (s : State) (k : Nat) (v : Core) : (s.setCore k v).cmp = s.cmp := rfl
@[simp] theorem State.setCore_clv (s : State) (k : Nat) (v : Core) : (s.setCore k v).clv = s.clv := rfl
@[simp] theorem State.setCore_atn (s : State) (k : Nat) (v : Core) : (s.setCore k v).atn = s.atn := rfl
@[simp] theorem State.setCore_comp (s : State) (k : Nat) (v : Core) : (s.setCore k v).comp = s.comp := rfl
@[simp] theorem State.setCore_sec (s : State) (k : Nat) (v : Core) : (s.setCore k v).sec = s.sec := rfl
@[simp] theorem State.setCore_log (s : State) (k : Nat) (v : Core) : (s.setCore k v).log = s.log := rfl
@[simp] theorem State.setCore_mod (s : State) (k : Nat) (v : Core) : (s.setCore k v).mod = s.mod := rfl
@[simp] theorem State.setCore_adk (s : State) (k : Nat) (v : Core) : (s.setCore k v).adk = s.adk := rfl
@[simp] theorem State.setCore_evq (s : State) (k : Nat) (v : Core) : (s.setCore k v).evq = s.evq := rfl
@[simp] theorem State.setCore_glb (s : State) (k : Nat) (v : Core) : (s.setCore k v).glb = s.glb := rfl

/-! `State.onCore` -/

@[simp] theorem State.onCore_pending (s : State) (k : Nat) (f : Core → Core) : (s.onCore k f).pending = s.pending := rfl
@[simp] theorem State.onCore_free (s : State) (k : Nat) (f : Core → Core) : (s.onCore k f).free = s.free := rfl
@[simp] theorem State.onCore_hb (s : State) (k : Nat) (f : Core → Core) : (s.onCore k f).hb = s.hb := rfl
@[simp] theorem State.onCore_pkg (s : State) (k : Nat) (f : Core → Core) : (s.onCore k f).pkg = s.pkg := rfl
@[simp] theorem State.onCore_tim (s : State) (k : Nat) (f : Core → Core) : (s.onCore k f).tim = s.tim := rfl
@[simp] theorem State.onCore_ports (s : State) (k : Nat) (f : Core → Core) : (s.onCore k f).ports = s.ports := rfl
@[simp] theorem State.onCore_bridles (s : State) (k : Nat) (f : Core → Core) : (s.onCore k f).bridles = s.bridles := rfl
@[simp] theorem State.onCore_req (s : State) (k : Nat) (f : Core → Core) : (s.onCore k f).req = s.req := rfl
@[simp] theorem State.onCore_coh (s : State) (k : Nat) (f : Core → Core) : (s.onCore k f).coh = s.coh := rfl
@[simp] theorem State.onCore_ext (s : State) (k : Nat) (f : Core → Core) : (s.onCore k f).ext = s.ext := rfl
@[simp] theorem State.onCore_lse (s : State) (k : Nat) (f : Core → Core) : (s.onCore k f).lse = s.lse := rfl
@[simp] theorem State.onCore_adm (s : State) (k : Nat) (f : Core → Core) : (s.onCore k f).adm = s.adm := rfl
@[simp] theorem State.onCore_tier (s : State) (k : Nat) (f : Core → Core) : (s.onCore k f).tier = s.tier := rfl
@[simp] theorem State.onCore_xl (s : State) (k : Nat) (f : Core → Core) : (s.onCore k f).xl = s.xl := rfl
@[simp] theorem State.onCore_cmp (s : State) (k : Nat) (f : Core → Core) : (s.onCore k f).cmp = s.cmp := rfl
@[simp] theorem State.onCore_clv (s : State) (k : Nat) (f : Core → Core) : (s.onCore k f).clv = s.clv := rfl
@[simp] theorem State.onCore_atn (s : State) (k : Nat) (f : Core → Core) : (s.onCore k f).atn = s.atn := rfl
@[simp] theorem State.onCore_comp (s : State) (k : Nat) (f : Core → Core) : (s.onCore k f).comp = s.comp := rfl
@[simp] theorem State.onCore_sec (s : State) (k : Nat) (f : Core → Core) : (s.onCore k f).sec = s.sec := rfl
@[simp] theorem State.onCore_log (s : State) (k : Nat) (f : Core → Core) : (s.onCore k f).log = s.log := rfl
@[simp] theorem State.onCore_mod (s : State) (k : Nat) (f : Core → Core) : (s.onCore k f).mod = s.mod := rfl
@[simp] theorem State.onCore_adk (s : State) (k : Nat) (f : Core → Core) : (s.onCore k f).adk = s.adk := rfl
@[simp] theorem State.onCore_evq (s : State) (k : Nat) (f : Core → Core) : (s.onCore k f).evq = s.evq := rfl
@[simp] theorem State.onCore_glb (s : State) (k : Nat) (f : Core → Core) : (s.onCore k f).glb = s.glb := rfl

/-! `State.setThread` -/

@[simp] theorem State.setThread_pending (s : State) (k t : Nat) (v : Thread) : (s.setThread k t v).pending = s.pending := rfl
@[simp] theorem State.setThread_free (s : State) (k t : Nat) (v : Thread) : (s.setThread k t v).free = s.free := rfl
@[simp] theorem State.setThread_hb (s : State) (k t : Nat) (v : Thread) : (s.setThread k t v).hb = s.hb := rfl
@[simp] theorem State.setThread_pkg (s : State) (k t : Nat) (v : Thread) : (s.setThread k t v).pkg = s.pkg := rfl
@[simp] theorem State.setThread_tim (s : State) (k t : Nat) (v : Thread) : (s.setThread k t v).tim = s.tim := rfl
@[simp] theorem State.setThread_ports (s : State) (k t : Nat) (v : Thread) : (s.setThread k t v).ports = s.ports := rfl
@[simp] theorem State.setThread_bridles (s : State) (k t : Nat) (v : Thread) : (s.setThread k t v).bridles = s.bridles := rfl
@[simp] theorem State.setThread_req (s : State) (k t : Nat) (v : Thread) : (s.setThread k t v).req = s.req := rfl
@[simp] theorem State.setThread_coh (s : State) (k t : Nat) (v : Thread) : (s.setThread k t v).coh = s.coh := rfl
@[simp] theorem State.setThread_ext (s : State) (k t : Nat) (v : Thread) : (s.setThread k t v).ext = s.ext := rfl
@[simp] theorem State.setThread_lse (s : State) (k t : Nat) (v : Thread) : (s.setThread k t v).lse = s.lse := rfl
@[simp] theorem State.setThread_adm (s : State) (k t : Nat) (v : Thread) : (s.setThread k t v).adm = s.adm := rfl
@[simp] theorem State.setThread_tier (s : State) (k t : Nat) (v : Thread) : (s.setThread k t v).tier = s.tier := rfl
@[simp] theorem State.setThread_xl (s : State) (k t : Nat) (v : Thread) : (s.setThread k t v).xl = s.xl := rfl
@[simp] theorem State.setThread_cmp (s : State) (k t : Nat) (v : Thread) : (s.setThread k t v).cmp = s.cmp := rfl
@[simp] theorem State.setThread_clv (s : State) (k t : Nat) (v : Thread) : (s.setThread k t v).clv = s.clv := rfl
@[simp] theorem State.setThread_atn (s : State) (k t : Nat) (v : Thread) : (s.setThread k t v).atn = s.atn := rfl
@[simp] theorem State.setThread_comp (s : State) (k t : Nat) (v : Thread) : (s.setThread k t v).comp = s.comp := rfl
@[simp] theorem State.setThread_sec (s : State) (k t : Nat) (v : Thread) : (s.setThread k t v).sec = s.sec := rfl
@[simp] theorem State.setThread_log (s : State) (k t : Nat) (v : Thread) : (s.setThread k t v).log = s.log := rfl
@[simp] theorem State.setThread_mod (s : State) (k t : Nat) (v : Thread) : (s.setThread k t v).mod = s.mod := rfl
@[simp] theorem State.setThread_adk (s : State) (k t : Nat) (v : Thread) : (s.setThread k t v).adk = s.adk := rfl
@[simp] theorem State.setThread_evq (s : State) (k t : Nat) (v : Thread) : (s.setThread k t v).evq = s.evq := rfl
@[simp] theorem State.setThread_glb (s : State) (k t : Nat) (v : Thread) : (s.setThread k t v).glb = s.glb := rfl

/-! `State.onThread` -/

@[simp] theorem State.onThread_pending (s : State) (k t : Nat) (f : Thread → Thread) : (s.onThread k t f).pending = s.pending := rfl
@[simp] theorem State.onThread_free (s : State) (k t : Nat) (f : Thread → Thread) : (s.onThread k t f).free = s.free := rfl
@[simp] theorem State.onThread_hb (s : State) (k t : Nat) (f : Thread → Thread) : (s.onThread k t f).hb = s.hb := rfl
@[simp] theorem State.onThread_pkg (s : State) (k t : Nat) (f : Thread → Thread) : (s.onThread k t f).pkg = s.pkg := rfl
@[simp] theorem State.onThread_tim (s : State) (k t : Nat) (f : Thread → Thread) : (s.onThread k t f).tim = s.tim := rfl
@[simp] theorem State.onThread_ports (s : State) (k t : Nat) (f : Thread → Thread) : (s.onThread k t f).ports = s.ports := rfl
@[simp] theorem State.onThread_bridles (s : State) (k t : Nat) (f : Thread → Thread) : (s.onThread k t f).bridles = s.bridles := rfl
@[simp] theorem State.onThread_req (s : State) (k t : Nat) (f : Thread → Thread) : (s.onThread k t f).req = s.req := rfl
@[simp] theorem State.onThread_coh (s : State) (k t : Nat) (f : Thread → Thread) : (s.onThread k t f).coh = s.coh := rfl
@[simp] theorem State.onThread_ext (s : State) (k t : Nat) (f : Thread → Thread) : (s.onThread k t f).ext = s.ext := rfl
@[simp] theorem State.onThread_lse (s : State) (k t : Nat) (f : Thread → Thread) : (s.onThread k t f).lse = s.lse := rfl
@[simp] theorem State.onThread_adm (s : State) (k t : Nat) (f : Thread → Thread) : (s.onThread k t f).adm = s.adm := rfl
@[simp] theorem State.onThread_tier (s : State) (k t : Nat) (f : Thread → Thread) : (s.onThread k t f).tier = s.tier := rfl
@[simp] theorem State.onThread_xl (s : State) (k t : Nat) (f : Thread → Thread) : (s.onThread k t f).xl = s.xl := rfl
@[simp] theorem State.onThread_cmp (s : State) (k t : Nat) (f : Thread → Thread) : (s.onThread k t f).cmp = s.cmp := rfl
@[simp] theorem State.onThread_clv (s : State) (k t : Nat) (f : Thread → Thread) : (s.onThread k t f).clv = s.clv := rfl
@[simp] theorem State.onThread_atn (s : State) (k t : Nat) (f : Thread → Thread) : (s.onThread k t f).atn = s.atn := rfl
@[simp] theorem State.onThread_comp (s : State) (k t : Nat) (f : Thread → Thread) : (s.onThread k t f).comp = s.comp := rfl
@[simp] theorem State.onThread_sec (s : State) (k t : Nat) (f : Thread → Thread) : (s.onThread k t f).sec = s.sec := rfl
@[simp] theorem State.onThread_log (s : State) (k t : Nat) (f : Thread → Thread) : (s.onThread k t f).log = s.log := rfl
@[simp] theorem State.onThread_mod (s : State) (k t : Nat) (f : Thread → Thread) : (s.onThread k t f).mod = s.mod := rfl
@[simp] theorem State.onThread_adk (s : State) (k t : Nat) (f : Thread → Thread) : (s.onThread k t f).adk = s.adk := rfl
@[simp] theorem State.onThread_evq (s : State) (k t : Nat) (f : Thread → Thread) : (s.onThread k t f).evq = s.evq := rfl
@[simp] theorem State.onThread_glb (s : State) (k t : Nat) (f : Thread → Thread) : (s.onThread k t f).glb = s.glb := rfl

/-! `State.onEngine` -/

@[simp] theorem State.onEngine_pending (s : State) (k e : Nat) (f : Engine → Engine) : (s.onEngine k e f).pending = s.pending := rfl
@[simp] theorem State.onEngine_free (s : State) (k e : Nat) (f : Engine → Engine) : (s.onEngine k e f).free = s.free := rfl
@[simp] theorem State.onEngine_hb (s : State) (k e : Nat) (f : Engine → Engine) : (s.onEngine k e f).hb = s.hb := rfl
@[simp] theorem State.onEngine_pkg (s : State) (k e : Nat) (f : Engine → Engine) : (s.onEngine k e f).pkg = s.pkg := rfl
@[simp] theorem State.onEngine_tim (s : State) (k e : Nat) (f : Engine → Engine) : (s.onEngine k e f).tim = s.tim := rfl
@[simp] theorem State.onEngine_ports (s : State) (k e : Nat) (f : Engine → Engine) : (s.onEngine k e f).ports = s.ports := rfl
@[simp] theorem State.onEngine_bridles (s : State) (k e : Nat) (f : Engine → Engine) : (s.onEngine k e f).bridles = s.bridles := rfl
@[simp] theorem State.onEngine_req (s : State) (k e : Nat) (f : Engine → Engine) : (s.onEngine k e f).req = s.req := rfl
@[simp] theorem State.onEngine_coh (s : State) (k e : Nat) (f : Engine → Engine) : (s.onEngine k e f).coh = s.coh := rfl
@[simp] theorem State.onEngine_ext (s : State) (k e : Nat) (f : Engine → Engine) : (s.onEngine k e f).ext = s.ext := rfl
@[simp] theorem State.onEngine_lse (s : State) (k e : Nat) (f : Engine → Engine) : (s.onEngine k e f).lse = s.lse := rfl
@[simp] theorem State.onEngine_adm (s : State) (k e : Nat) (f : Engine → Engine) : (s.onEngine k e f).adm = s.adm := rfl
@[simp] theorem State.onEngine_tier (s : State) (k e : Nat) (f : Engine → Engine) : (s.onEngine k e f).tier = s.tier := rfl
@[simp] theorem State.onEngine_xl (s : State) (k e : Nat) (f : Engine → Engine) : (s.onEngine k e f).xl = s.xl := rfl
@[simp] theorem State.onEngine_cmp (s : State) (k e : Nat) (f : Engine → Engine) : (s.onEngine k e f).cmp = s.cmp := rfl
@[simp] theorem State.onEngine_clv (s : State) (k e : Nat) (f : Engine → Engine) : (s.onEngine k e f).clv = s.clv := rfl
@[simp] theorem State.onEngine_atn (s : State) (k e : Nat) (f : Engine → Engine) : (s.onEngine k e f).atn = s.atn := rfl
@[simp] theorem State.onEngine_comp (s : State) (k e : Nat) (f : Engine → Engine) : (s.onEngine k e f).comp = s.comp := rfl
@[simp] theorem State.onEngine_sec (s : State) (k e : Nat) (f : Engine → Engine) : (s.onEngine k e f).sec = s.sec := rfl
@[simp] theorem State.onEngine_log (s : State) (k e : Nat) (f : Engine → Engine) : (s.onEngine k e f).log = s.log := rfl
@[simp] theorem State.onEngine_mod (s : State) (k e : Nat) (f : Engine → Engine) : (s.onEngine k e f).mod = s.mod := rfl
@[simp] theorem State.onEngine_adk (s : State) (k e : Nat) (f : Engine → Engine) : (s.onEngine k e f).adk = s.adk := rfl
@[simp] theorem State.onEngine_evq (s : State) (k e : Nat) (f : Engine → Engine) : (s.onEngine k e f).evq = s.evq := rfl
@[simp] theorem State.onEngine_glb (s : State) (k e : Nat) (f : Engine → Engine) : (s.onEngine k e f).glb = s.glb := rfl

/-! `State.onDom` -/

@[simp] theorem State.onDom_pending (s : State) (d : Nat) (f : Domain → Domain) : (s.onDom d f).pending = s.pending := rfl
@[simp] theorem State.onDom_free (s : State) (d : Nat) (f : Domain → Domain) : (s.onDom d f).free = s.free := rfl
@[simp] theorem State.onDom_hb (s : State) (d : Nat) (f : Domain → Domain) : (s.onDom d f).hb = s.hb := rfl
@[simp] theorem State.onDom_pkg (s : State) (d : Nat) (f : Domain → Domain) : (s.onDom d f).pkg = s.pkg := rfl
@[simp] theorem State.onDom_tim (s : State) (d : Nat) (f : Domain → Domain) : (s.onDom d f).tim = s.tim := rfl
@[simp] theorem State.onDom_ports (s : State) (d : Nat) (f : Domain → Domain) : (s.onDom d f).ports = s.ports := rfl
@[simp] theorem State.onDom_bridles (s : State) (d : Nat) (f : Domain → Domain) : (s.onDom d f).bridles = s.bridles := rfl
@[simp] theorem State.onDom_req (s : State) (d : Nat) (f : Domain → Domain) : (s.onDom d f).req = s.req := rfl
@[simp] theorem State.onDom_ext (s : State) (d : Nat) (f : Domain → Domain) : (s.onDom d f).ext = s.ext := rfl
@[simp] theorem State.onDom_lse (s : State) (d : Nat) (f : Domain → Domain) : (s.onDom d f).lse = s.lse := rfl
@[simp] theorem State.onDom_adm (s : State) (d : Nat) (f : Domain → Domain) : (s.onDom d f).adm = s.adm := rfl
@[simp] theorem State.onDom_tier (s : State) (d : Nat) (f : Domain → Domain) : (s.onDom d f).tier = s.tier := rfl
@[simp] theorem State.onDom_xl (s : State) (d : Nat) (f : Domain → Domain) : (s.onDom d f).xl = s.xl := rfl
@[simp] theorem State.onDom_cmp (s : State) (d : Nat) (f : Domain → Domain) : (s.onDom d f).cmp = s.cmp := rfl
@[simp] theorem State.onDom_cpu (s : State) (d : Nat) (f : Domain → Domain) : (s.onDom d f).cpu = s.cpu := rfl
@[simp] theorem State.onDom_clv (s : State) (d : Nat) (f : Domain → Domain) : (s.onDom d f).clv = s.clv := rfl
@[simp] theorem State.onDom_atn (s : State) (d : Nat) (f : Domain → Domain) : (s.onDom d f).atn = s.atn := rfl
@[simp] theorem State.onDom_comp (s : State) (d : Nat) (f : Domain → Domain) : (s.onDom d f).comp = s.comp := rfl
@[simp] theorem State.onDom_sec (s : State) (d : Nat) (f : Domain → Domain) : (s.onDom d f).sec = s.sec := rfl
@[simp] theorem State.onDom_log (s : State) (d : Nat) (f : Domain → Domain) : (s.onDom d f).log = s.log := rfl
@[simp] theorem State.onDom_mod (s : State) (d : Nat) (f : Domain → Domain) : (s.onDom d f).mod = s.mod := rfl
@[simp] theorem State.onDom_adk (s : State) (d : Nat) (f : Domain → Domain) : (s.onDom d f).adk = s.adk := rfl
@[simp] theorem State.onDom_evq (s : State) (d : Nat) (f : Domain → Domain) : (s.onDom d f).evq = s.evq := rfl
@[simp] theorem State.onDom_glb (s : State) (d : Nat) (f : Domain → Domain) : (s.onDom d f).glb = s.glb := rfl

/-! `State.setExtent` -/

@[simp] theorem State.setExtent_pending (s : State) (e : Nat) (v : Extent) : (s.setExtent e v).pending = s.pending := rfl
@[simp] theorem State.setExtent_free (s : State) (e : Nat) (v : Extent) : (s.setExtent e v).free = s.free := rfl
@[simp] theorem State.setExtent_hb (s : State) (e : Nat) (v : Extent) : (s.setExtent e v).hb = s.hb := rfl
@[simp] theorem State.setExtent_pkg (s : State) (e : Nat) (v : Extent) : (s.setExtent e v).pkg = s.pkg := rfl
@[simp] theorem State.setExtent_tim (s : State) (e : Nat) (v : Extent) : (s.setExtent e v).tim = s.tim := rfl
@[simp] theorem State.setExtent_ports (s : State) (e : Nat) (v : Extent) : (s.setExtent e v).ports = s.ports := rfl
@[simp] theorem State.setExtent_bridles (s : State) (e : Nat) (v : Extent) : (s.setExtent e v).bridles = s.bridles := rfl
@[simp] theorem State.setExtent_req (s : State) (e : Nat) (v : Extent) : (s.setExtent e v).req = s.req := rfl
@[simp] theorem State.setExtent_coh (s : State) (e : Nat) (v : Extent) : (s.setExtent e v).coh = s.coh := rfl
@[simp] theorem State.setExtent_lse (s : State) (e : Nat) (v : Extent) : (s.setExtent e v).lse = s.lse := rfl
@[simp] theorem State.setExtent_adm (s : State) (e : Nat) (v : Extent) : (s.setExtent e v).adm = s.adm := rfl
@[simp] theorem State.setExtent_tier (s : State) (e : Nat) (v : Extent) : (s.setExtent e v).tier = s.tier := rfl
@[simp] theorem State.setExtent_xl (s : State) (e : Nat) (v : Extent) : (s.setExtent e v).xl = s.xl := rfl
@[simp] theorem State.setExtent_cmp (s : State) (e : Nat) (v : Extent) : (s.setExtent e v).cmp = s.cmp := rfl
@[simp] theorem State.setExtent_cpu (s : State) (e : Nat) (v : Extent) : (s.setExtent e v).cpu = s.cpu := rfl
@[simp] theorem State.setExtent_clv (s : State) (e : Nat) (v : Extent) : (s.setExtent e v).clv = s.clv := rfl
@[simp] theorem State.setExtent_atn (s : State) (e : Nat) (v : Extent) : (s.setExtent e v).atn = s.atn := rfl
@[simp] theorem State.setExtent_comp (s : State) (e : Nat) (v : Extent) : (s.setExtent e v).comp = s.comp := rfl
@[simp] theorem State.setExtent_sec (s : State) (e : Nat) (v : Extent) : (s.setExtent e v).sec = s.sec := rfl
@[simp] theorem State.setExtent_log (s : State) (e : Nat) (v : Extent) : (s.setExtent e v).log = s.log := rfl
@[simp] theorem State.setExtent_mod (s : State) (e : Nat) (v : Extent) : (s.setExtent e v).mod = s.mod := rfl
@[simp] theorem State.setExtent_adk (s : State) (e : Nat) (v : Extent) : (s.setExtent e v).adk = s.adk := rfl
@[simp] theorem State.setExtent_evq (s : State) (e : Nat) (v : Extent) : (s.setExtent e v).evq = s.evq := rfl
@[simp] theorem State.setExtent_glb (s : State) (e : Nat) (v : Extent) : (s.setExtent e v).glb = s.glb := rfl

/-! `State.onExtent` -/

@[simp] theorem State.onExtent_pending (s : State) (e : Nat) (f : Extent → Extent) : (s.onExtent e f).pending = s.pending := rfl
@[simp] theorem State.onExtent_free (s : State) (e : Nat) (f : Extent → Extent) : (s.onExtent e f).free = s.free := rfl
@[simp] theorem State.onExtent_hb (s : State) (e : Nat) (f : Extent → Extent) : (s.onExtent e f).hb = s.hb := rfl
@[simp] theorem State.onExtent_pkg (s : State) (e : Nat) (f : Extent → Extent) : (s.onExtent e f).pkg = s.pkg := rfl
@[simp] theorem State.onExtent_tim (s : State) (e : Nat) (f : Extent → Extent) : (s.onExtent e f).tim = s.tim := rfl
@[simp] theorem State.onExtent_ports (s : State) (e : Nat) (f : Extent → Extent) : (s.onExtent e f).ports = s.ports := rfl
@[simp] theorem State.onExtent_bridles (s : State) (e : Nat) (f : Extent → Extent) : (s.onExtent e f).bridles = s.bridles := rfl
@[simp] theorem State.onExtent_req (s : State) (e : Nat) (f : Extent → Extent) : (s.onExtent e f).req = s.req := rfl
@[simp] theorem State.onExtent_coh (s : State) (e : Nat) (f : Extent → Extent) : (s.onExtent e f).coh = s.coh := rfl
@[simp] theorem State.onExtent_lse (s : State) (e : Nat) (f : Extent → Extent) : (s.onExtent e f).lse = s.lse := rfl
@[simp] theorem State.onExtent_adm (s : State) (e : Nat) (f : Extent → Extent) : (s.onExtent e f).adm = s.adm := rfl
@[simp] theorem State.onExtent_tier (s : State) (e : Nat) (f : Extent → Extent) : (s.onExtent e f).tier = s.tier := rfl
@[simp] theorem State.onExtent_xl (s : State) (e : Nat) (f : Extent → Extent) : (s.onExtent e f).xl = s.xl := rfl
@[simp] theorem State.onExtent_cmp (s : State) (e : Nat) (f : Extent → Extent) : (s.onExtent e f).cmp = s.cmp := rfl
@[simp] theorem State.onExtent_cpu (s : State) (e : Nat) (f : Extent → Extent) : (s.onExtent e f).cpu = s.cpu := rfl
@[simp] theorem State.onExtent_clv (s : State) (e : Nat) (f : Extent → Extent) : (s.onExtent e f).clv = s.clv := rfl
@[simp] theorem State.onExtent_atn (s : State) (e : Nat) (f : Extent → Extent) : (s.onExtent e f).atn = s.atn := rfl
@[simp] theorem State.onExtent_comp (s : State) (e : Nat) (f : Extent → Extent) : (s.onExtent e f).comp = s.comp := rfl
@[simp] theorem State.onExtent_sec (s : State) (e : Nat) (f : Extent → Extent) : (s.onExtent e f).sec = s.sec := rfl
@[simp] theorem State.onExtent_log (s : State) (e : Nat) (f : Extent → Extent) : (s.onExtent e f).log = s.log := rfl
@[simp] theorem State.onExtent_mod (s : State) (e : Nat) (f : Extent → Extent) : (s.onExtent e f).mod = s.mod := rfl
@[simp] theorem State.onExtent_adk (s : State) (e : Nat) (f : Extent → Extent) : (s.onExtent e f).adk = s.adk := rfl
@[simp] theorem State.onExtent_evq (s : State) (e : Nat) (f : Extent → Extent) : (s.onExtent e f).evq = s.evq := rfl
@[simp] theorem State.onExtent_glb (s : State) (e : Nat) (f : Extent → Extent) : (s.onExtent e f).glb = s.glb := rfl

/-! `State.setPage` -/

@[simp] theorem State.setPage_pending (s : State) (p : Nat) (v : TierPage) : (s.setPage p v).pending = s.pending := rfl
@[simp] theorem State.setPage_free (s : State) (p : Nat) (v : TierPage) : (s.setPage p v).free = s.free := rfl
@[simp] theorem State.setPage_hb (s : State) (p : Nat) (v : TierPage) : (s.setPage p v).hb = s.hb := rfl
@[simp] theorem State.setPage_pkg (s : State) (p : Nat) (v : TierPage) : (s.setPage p v).pkg = s.pkg := rfl
@[simp] theorem State.setPage_tim (s : State) (p : Nat) (v : TierPage) : (s.setPage p v).tim = s.tim := rfl
@[simp] theorem State.setPage_ports (s : State) (p : Nat) (v : TierPage) : (s.setPage p v).ports = s.ports := rfl
@[simp] theorem State.setPage_bridles (s : State) (p : Nat) (v : TierPage) : (s.setPage p v).bridles = s.bridles := rfl
@[simp] theorem State.setPage_req (s : State) (p : Nat) (v : TierPage) : (s.setPage p v).req = s.req := rfl
@[simp] theorem State.setPage_coh (s : State) (p : Nat) (v : TierPage) : (s.setPage p v).coh = s.coh := rfl
@[simp] theorem State.setPage_ext (s : State) (p : Nat) (v : TierPage) : (s.setPage p v).ext = s.ext := rfl
@[simp] theorem State.setPage_lse (s : State) (p : Nat) (v : TierPage) : (s.setPage p v).lse = s.lse := rfl
@[simp] theorem State.setPage_adm (s : State) (p : Nat) (v : TierPage) : (s.setPage p v).adm = s.adm := rfl
@[simp] theorem State.setPage_xl (s : State) (p : Nat) (v : TierPage) : (s.setPage p v).xl = s.xl := rfl
@[simp] theorem State.setPage_cmp (s : State) (p : Nat) (v : TierPage) : (s.setPage p v).cmp = s.cmp := rfl
@[simp] theorem State.setPage_cpu (s : State) (p : Nat) (v : TierPage) : (s.setPage p v).cpu = s.cpu := rfl
@[simp] theorem State.setPage_clv (s : State) (p : Nat) (v : TierPage) : (s.setPage p v).clv = s.clv := rfl
@[simp] theorem State.setPage_atn (s : State) (p : Nat) (v : TierPage) : (s.setPage p v).atn = s.atn := rfl
@[simp] theorem State.setPage_comp (s : State) (p : Nat) (v : TierPage) : (s.setPage p v).comp = s.comp := rfl
@[simp] theorem State.setPage_sec (s : State) (p : Nat) (v : TierPage) : (s.setPage p v).sec = s.sec := rfl
@[simp] theorem State.setPage_log (s : State) (p : Nat) (v : TierPage) : (s.setPage p v).log = s.log := rfl
@[simp] theorem State.setPage_mod (s : State) (p : Nat) (v : TierPage) : (s.setPage p v).mod = s.mod := rfl
@[simp] theorem State.setPage_adk (s : State) (p : Nat) (v : TierPage) : (s.setPage p v).adk = s.adk := rfl
@[simp] theorem State.setPage_evq (s : State) (p : Nat) (v : TierPage) : (s.setPage p v).evq = s.evq := rfl
@[simp] theorem State.setPage_glb (s : State) (p : Nat) (v : TierPage) : (s.setPage p v).glb = s.glb := rfl

/-! `State.onPage` -/

@[simp] theorem State.onPage_pending (s : State) (p : Nat) (f : TierPage → TierPage) : (s.onPage p f).pending = s.pending := rfl
@[simp] theorem State.onPage_free (s : State) (p : Nat) (f : TierPage → TierPage) : (s.onPage p f).free = s.free := rfl
@[simp] theorem State.onPage_hb (s : State) (p : Nat) (f : TierPage → TierPage) : (s.onPage p f).hb = s.hb := rfl
@[simp] theorem State.onPage_pkg (s : State) (p : Nat) (f : TierPage → TierPage) : (s.onPage p f).pkg = s.pkg := rfl
@[simp] theorem State.onPage_tim (s : State) (p : Nat) (f : TierPage → TierPage) : (s.onPage p f).tim = s.tim := rfl
@[simp] theorem State.onPage_ports (s : State) (p : Nat) (f : TierPage → TierPage) : (s.onPage p f).ports = s.ports := rfl
@[simp] theorem State.onPage_bridles (s : State) (p : Nat) (f : TierPage → TierPage) : (s.onPage p f).bridles = s.bridles := rfl
@[simp] theorem State.onPage_req (s : State) (p : Nat) (f : TierPage → TierPage) : (s.onPage p f).req = s.req := rfl
@[simp] theorem State.onPage_coh (s : State) (p : Nat) (f : TierPage → TierPage) : (s.onPage p f).coh = s.coh := rfl
@[simp] theorem State.onPage_ext (s : State) (p : Nat) (f : TierPage → TierPage) : (s.onPage p f).ext = s.ext := rfl
@[simp] theorem State.onPage_lse (s : State) (p : Nat) (f : TierPage → TierPage) : (s.onPage p f).lse = s.lse := rfl
@[simp] theorem State.onPage_adm (s : State) (p : Nat) (f : TierPage → TierPage) : (s.onPage p f).adm = s.adm := rfl
@[simp] theorem State.onPage_xl (s : State) (p : Nat) (f : TierPage → TierPage) : (s.onPage p f).xl = s.xl := rfl
@[simp] theorem State.onPage_cmp (s : State) (p : Nat) (f : TierPage → TierPage) : (s.onPage p f).cmp = s.cmp := rfl
@[simp] theorem State.onPage_cpu (s : State) (p : Nat) (f : TierPage → TierPage) : (s.onPage p f).cpu = s.cpu := rfl
@[simp] theorem State.onPage_clv (s : State) (p : Nat) (f : TierPage → TierPage) : (s.onPage p f).clv = s.clv := rfl
@[simp] theorem State.onPage_atn (s : State) (p : Nat) (f : TierPage → TierPage) : (s.onPage p f).atn = s.atn := rfl
@[simp] theorem State.onPage_comp (s : State) (p : Nat) (f : TierPage → TierPage) : (s.onPage p f).comp = s.comp := rfl
@[simp] theorem State.onPage_sec (s : State) (p : Nat) (f : TierPage → TierPage) : (s.onPage p f).sec = s.sec := rfl
@[simp] theorem State.onPage_log (s : State) (p : Nat) (f : TierPage → TierPage) : (s.onPage p f).log = s.log := rfl
@[simp] theorem State.onPage_mod (s : State) (p : Nat) (f : TierPage → TierPage) : (s.onPage p f).mod = s.mod := rfl
@[simp] theorem State.onPage_adk (s : State) (p : Nat) (f : TierPage → TierPage) : (s.onPage p f).adk = s.adk := rfl
@[simp] theorem State.onPage_evq (s : State) (p : Nat) (f : TierPage → TierPage) : (s.onPage p f).evq = s.evq := rfl
@[simp] theorem State.onPage_glb (s : State) (p : Nat) (f : TierPage → TierPage) : (s.onPage p f).glb = s.glb := rfl

/-! `State.setTray` -/

@[simp] theorem State.setTray_pending (s : State) (t : Nat) (v : Tray) : (s.setTray t v).pending = s.pending := rfl
@[simp] theorem State.setTray_free (s : State) (t : Nat) (v : Tray) : (s.setTray t v).free = s.free := rfl
@[simp] theorem State.setTray_hb (s : State) (t : Nat) (v : Tray) : (s.setTray t v).hb = s.hb := rfl
@[simp] theorem State.setTray_pkg (s : State) (t : Nat) (v : Tray) : (s.setTray t v).pkg = s.pkg := rfl
@[simp] theorem State.setTray_tim (s : State) (t : Nat) (v : Tray) : (s.setTray t v).tim = s.tim := rfl
@[simp] theorem State.setTray_ports (s : State) (t : Nat) (v : Tray) : (s.setTray t v).ports = s.ports := rfl
@[simp] theorem State.setTray_bridles (s : State) (t : Nat) (v : Tray) : (s.setTray t v).bridles = s.bridles := rfl
@[simp] theorem State.setTray_req (s : State) (t : Nat) (v : Tray) : (s.setTray t v).req = s.req := rfl
@[simp] theorem State.setTray_coh (s : State) (t : Nat) (v : Tray) : (s.setTray t v).coh = s.coh := rfl
@[simp] theorem State.setTray_ext (s : State) (t : Nat) (v : Tray) : (s.setTray t v).ext = s.ext := rfl
@[simp] theorem State.setTray_lse (s : State) (t : Nat) (v : Tray) : (s.setTray t v).lse = s.lse := rfl
@[simp] theorem State.setTray_adm (s : State) (t : Nat) (v : Tray) : (s.setTray t v).adm = s.adm := rfl
@[simp] theorem State.setTray_xl (s : State) (t : Nat) (v : Tray) : (s.setTray t v).xl = s.xl := rfl
@[simp] theorem State.setTray_cmp (s : State) (t : Nat) (v : Tray) : (s.setTray t v).cmp = s.cmp := rfl
@[simp] theorem State.setTray_cpu (s : State) (t : Nat) (v : Tray) : (s.setTray t v).cpu = s.cpu := rfl
@[simp] theorem State.setTray_clv (s : State) (t : Nat) (v : Tray) : (s.setTray t v).clv = s.clv := rfl
@[simp] theorem State.setTray_atn (s : State) (t : Nat) (v : Tray) : (s.setTray t v).atn = s.atn := rfl
@[simp] theorem State.setTray_comp (s : State) (t : Nat) (v : Tray) : (s.setTray t v).comp = s.comp := rfl
@[simp] theorem State.setTray_sec (s : State) (t : Nat) (v : Tray) : (s.setTray t v).sec = s.sec := rfl
@[simp] theorem State.setTray_log (s : State) (t : Nat) (v : Tray) : (s.setTray t v).log = s.log := rfl
@[simp] theorem State.setTray_mod (s : State) (t : Nat) (v : Tray) : (s.setTray t v).mod = s.mod := rfl
@[simp] theorem State.setTray_adk (s : State) (t : Nat) (v : Tray) : (s.setTray t v).adk = s.adk := rfl
@[simp] theorem State.setTray_evq (s : State) (t : Nat) (v : Tray) : (s.setTray t v).evq = s.evq := rfl
@[simp] theorem State.setTray_glb (s : State) (t : Nat) (v : Tray) : (s.setTray t v).glb = s.glb := rfl

/-! `State.onTray` -/

@[simp] theorem State.onTray_pending (s : State) (t : Nat) (f : Tray → Tray) : (s.onTray t f).pending = s.pending := rfl
@[simp] theorem State.onTray_free (s : State) (t : Nat) (f : Tray → Tray) : (s.onTray t f).free = s.free := rfl
@[simp] theorem State.onTray_hb (s : State) (t : Nat) (f : Tray → Tray) : (s.onTray t f).hb = s.hb := rfl
@[simp] theorem State.onTray_pkg (s : State) (t : Nat) (f : Tray → Tray) : (s.onTray t f).pkg = s.pkg := rfl
@[simp] theorem State.onTray_tim (s : State) (t : Nat) (f : Tray → Tray) : (s.onTray t f).tim = s.tim := rfl
@[simp] theorem State.onTray_ports (s : State) (t : Nat) (f : Tray → Tray) : (s.onTray t f).ports = s.ports := rfl
@[simp] theorem State.onTray_bridles (s : State) (t : Nat) (f : Tray → Tray) : (s.onTray t f).bridles = s.bridles := rfl
@[simp] theorem State.onTray_req (s : State) (t : Nat) (f : Tray → Tray) : (s.onTray t f).req = s.req := rfl
@[simp] theorem State.onTray_coh (s : State) (t : Nat) (f : Tray → Tray) : (s.onTray t f).coh = s.coh := rfl
@[simp] theorem State.onTray_ext (s : State) (t : Nat) (f : Tray → Tray) : (s.onTray t f).ext = s.ext := rfl
@[simp] theorem State.onTray_lse (s : State) (t : Nat) (f : Tray → Tray) : (s.onTray t f).lse = s.lse := rfl
@[simp] theorem State.onTray_adm (s : State) (t : Nat) (f : Tray → Tray) : (s.onTray t f).adm = s.adm := rfl
@[simp] theorem State.onTray_xl (s : State) (t : Nat) (f : Tray → Tray) : (s.onTray t f).xl = s.xl := rfl
@[simp] theorem State.onTray_cmp (s : State) (t : Nat) (f : Tray → Tray) : (s.onTray t f).cmp = s.cmp := rfl
@[simp] theorem State.onTray_cpu (s : State) (t : Nat) (f : Tray → Tray) : (s.onTray t f).cpu = s.cpu := rfl
@[simp] theorem State.onTray_clv (s : State) (t : Nat) (f : Tray → Tray) : (s.onTray t f).clv = s.clv := rfl
@[simp] theorem State.onTray_atn (s : State) (t : Nat) (f : Tray → Tray) : (s.onTray t f).atn = s.atn := rfl
@[simp] theorem State.onTray_comp (s : State) (t : Nat) (f : Tray → Tray) : (s.onTray t f).comp = s.comp := rfl
@[simp] theorem State.onTray_sec (s : State) (t : Nat) (f : Tray → Tray) : (s.onTray t f).sec = s.sec := rfl
@[simp] theorem State.onTray_log (s : State) (t : Nat) (f : Tray → Tray) : (s.onTray t f).log = s.log := rfl
@[simp] theorem State.onTray_mod (s : State) (t : Nat) (f : Tray → Tray) : (s.onTray t f).mod = s.mod := rfl
@[simp] theorem State.onTray_adk (s : State) (t : Nat) (f : Tray → Tray) : (s.onTray t f).adk = s.adk := rfl
@[simp] theorem State.onTray_evq (s : State) (t : Nat) (f : Tray → Tray) : (s.onTray t f).evq = s.evq := rfl
@[simp] theorem State.onTray_glb (s : State) (t : Nat) (f : Tray → Tray) : (s.onTray t f).glb = s.glb := rfl

/-! `State.setSector` -/

@[simp] theorem State.setSector_pending (s : State) (b : Nat) (v : Sector) : (s.setSector b v).pending = s.pending := rfl
@[simp] theorem State.setSector_free (s : State) (b : Nat) (v : Sector) : (s.setSector b v).free = s.free := rfl
@[simp] theorem State.setSector_hb (s : State) (b : Nat) (v : Sector) : (s.setSector b v).hb = s.hb := rfl
@[simp] theorem State.setSector_pkg (s : State) (b : Nat) (v : Sector) : (s.setSector b v).pkg = s.pkg := rfl
@[simp] theorem State.setSector_tim (s : State) (b : Nat) (v : Sector) : (s.setSector b v).tim = s.tim := rfl
@[simp] theorem State.setSector_ports (s : State) (b : Nat) (v : Sector) : (s.setSector b v).ports = s.ports := rfl
@[simp] theorem State.setSector_bridles (s : State) (b : Nat) (v : Sector) : (s.setSector b v).bridles = s.bridles := rfl
@[simp] theorem State.setSector_req (s : State) (b : Nat) (v : Sector) : (s.setSector b v).req = s.req := rfl
@[simp] theorem State.setSector_coh (s : State) (b : Nat) (v : Sector) : (s.setSector b v).coh = s.coh := rfl
@[simp] theorem State.setSector_ext (s : State) (b : Nat) (v : Sector) : (s.setSector b v).ext = s.ext := rfl
@[simp] theorem State.setSector_lse (s : State) (b : Nat) (v : Sector) : (s.setSector b v).lse = s.lse := rfl
@[simp] theorem State.setSector_adm (s : State) (b : Nat) (v : Sector) : (s.setSector b v).adm = s.adm := rfl
@[simp] theorem State.setSector_xl (s : State) (b : Nat) (v : Sector) : (s.setSector b v).xl = s.xl := rfl
@[simp] theorem State.setSector_cmp (s : State) (b : Nat) (v : Sector) : (s.setSector b v).cmp = s.cmp := rfl
@[simp] theorem State.setSector_cpu (s : State) (b : Nat) (v : Sector) : (s.setSector b v).cpu = s.cpu := rfl
@[simp] theorem State.setSector_clv (s : State) (b : Nat) (v : Sector) : (s.setSector b v).clv = s.clv := rfl
@[simp] theorem State.setSector_atn (s : State) (b : Nat) (v : Sector) : (s.setSector b v).atn = s.atn := rfl
@[simp] theorem State.setSector_comp (s : State) (b : Nat) (v : Sector) : (s.setSector b v).comp = s.comp := rfl
@[simp] theorem State.setSector_sec (s : State) (b : Nat) (v : Sector) : (s.setSector b v).sec = s.sec := rfl
@[simp] theorem State.setSector_log (s : State) (b : Nat) (v : Sector) : (s.setSector b v).log = s.log := rfl
@[simp] theorem State.setSector_mod (s : State) (b : Nat) (v : Sector) : (s.setSector b v).mod = s.mod := rfl
@[simp] theorem State.setSector_adk (s : State) (b : Nat) (v : Sector) : (s.setSector b v).adk = s.adk := rfl
@[simp] theorem State.setSector_evq (s : State) (b : Nat) (v : Sector) : (s.setSector b v).evq = s.evq := rfl
@[simp] theorem State.setSector_glb (s : State) (b : Nat) (v : Sector) : (s.setSector b v).glb = s.glb := rfl

/-! `State.setColl` -/

@[simp] theorem State.setColl_pending (s : State) (i : Nat) (v : Coll) : (s.setColl i v).pending = s.pending := rfl
@[simp] theorem State.setColl_free (s : State) (i : Nat) (v : Coll) : (s.setColl i v).free = s.free := rfl
@[simp] theorem State.setColl_hb (s : State) (i : Nat) (v : Coll) : (s.setColl i v).hb = s.hb := rfl
@[simp] theorem State.setColl_pkg (s : State) (i : Nat) (v : Coll) : (s.setColl i v).pkg = s.pkg := rfl
@[simp] theorem State.setColl_tim (s : State) (i : Nat) (v : Coll) : (s.setColl i v).tim = s.tim := rfl
@[simp] theorem State.setColl_ports (s : State) (i : Nat) (v : Coll) : (s.setColl i v).ports = s.ports := rfl
@[simp] theorem State.setColl_bridles (s : State) (i : Nat) (v : Coll) : (s.setColl i v).bridles = s.bridles := rfl
@[simp] theorem State.setColl_req (s : State) (i : Nat) (v : Coll) : (s.setColl i v).req = s.req := rfl
@[simp] theorem State.setColl_coh (s : State) (i : Nat) (v : Coll) : (s.setColl i v).coh = s.coh := rfl
@[simp] theorem State.setColl_ext (s : State) (i : Nat) (v : Coll) : (s.setColl i v).ext = s.ext := rfl
@[simp] theorem State.setColl_lse (s : State) (i : Nat) (v : Coll) : (s.setColl i v).lse = s.lse := rfl
@[simp] theorem State.setColl_adm (s : State) (i : Nat) (v : Coll) : (s.setColl i v).adm = s.adm := rfl
@[simp] theorem State.setColl_tier (s : State) (i : Nat) (v : Coll) : (s.setColl i v).tier = s.tier := rfl
@[simp] theorem State.setColl_xl (s : State) (i : Nat) (v : Coll) : (s.setColl i v).xl = s.xl := rfl
@[simp] theorem State.setColl_cmp (s : State) (i : Nat) (v : Coll) : (s.setColl i v).cmp = s.cmp := rfl
@[simp] theorem State.setColl_cpu (s : State) (i : Nat) (v : Coll) : (s.setColl i v).cpu = s.cpu := rfl
@[simp] theorem State.setColl_atn (s : State) (i : Nat) (v : Coll) : (s.setColl i v).atn = s.atn := rfl
@[simp] theorem State.setColl_comp (s : State) (i : Nat) (v : Coll) : (s.setColl i v).comp = s.comp := rfl
@[simp] theorem State.setColl_sec (s : State) (i : Nat) (v : Coll) : (s.setColl i v).sec = s.sec := rfl
@[simp] theorem State.setColl_log (s : State) (i : Nat) (v : Coll) : (s.setColl i v).log = s.log := rfl
@[simp] theorem State.setColl_mod (s : State) (i : Nat) (v : Coll) : (s.setColl i v).mod = s.mod := rfl
@[simp] theorem State.setColl_adk (s : State) (i : Nat) (v : Coll) : (s.setColl i v).adk = s.adk := rfl
@[simp] theorem State.setColl_evq (s : State) (i : Nat) (v : Coll) : (s.setColl i v).evq = s.evq := rfl
@[simp] theorem State.setColl_glb (s : State) (i : Nat) (v : Coll) : (s.setColl i v).glb = s.glb := rfl

/-! `State.onColl` -/

@[simp] theorem State.onColl_pending (s : State) (i : Nat) (f : Coll → Coll) : (s.onColl i f).pending = s.pending := rfl
@[simp] theorem State.onColl_free (s : State) (i : Nat) (f : Coll → Coll) : (s.onColl i f).free = s.free := rfl
@[simp] theorem State.onColl_hb (s : State) (i : Nat) (f : Coll → Coll) : (s.onColl i f).hb = s.hb := rfl
@[simp] theorem State.onColl_pkg (s : State) (i : Nat) (f : Coll → Coll) : (s.onColl i f).pkg = s.pkg := rfl
@[simp] theorem State.onColl_tim (s : State) (i : Nat) (f : Coll → Coll) : (s.onColl i f).tim = s.tim := rfl
@[simp] theorem State.onColl_ports (s : State) (i : Nat) (f : Coll → Coll) : (s.onColl i f).ports = s.ports := rfl
@[simp] theorem State.onColl_bridles (s : State) (i : Nat) (f : Coll → Coll) : (s.onColl i f).bridles = s.bridles := rfl
@[simp] theorem State.onColl_req (s : State) (i : Nat) (f : Coll → Coll) : (s.onColl i f).req = s.req := rfl
@[simp] theorem State.onColl_coh (s : State) (i : Nat) (f : Coll → Coll) : (s.onColl i f).coh = s.coh := rfl
@[simp] theorem State.onColl_ext (s : State) (i : Nat) (f : Coll → Coll) : (s.onColl i f).ext = s.ext := rfl
@[simp] theorem State.onColl_lse (s : State) (i : Nat) (f : Coll → Coll) : (s.onColl i f).lse = s.lse := rfl
@[simp] theorem State.onColl_adm (s : State) (i : Nat) (f : Coll → Coll) : (s.onColl i f).adm = s.adm := rfl
@[simp] theorem State.onColl_tier (s : State) (i : Nat) (f : Coll → Coll) : (s.onColl i f).tier = s.tier := rfl
@[simp] theorem State.onColl_xl (s : State) (i : Nat) (f : Coll → Coll) : (s.onColl i f).xl = s.xl := rfl
@[simp] theorem State.onColl_cmp (s : State) (i : Nat) (f : Coll → Coll) : (s.onColl i f).cmp = s.cmp := rfl
@[simp] theorem State.onColl_cpu (s : State) (i : Nat) (f : Coll → Coll) : (s.onColl i f).cpu = s.cpu := rfl
@[simp] theorem State.onColl_atn (s : State) (i : Nat) (f : Coll → Coll) : (s.onColl i f).atn = s.atn := rfl
@[simp] theorem State.onColl_comp (s : State) (i : Nat) (f : Coll → Coll) : (s.onColl i f).comp = s.comp := rfl
@[simp] theorem State.onColl_sec (s : State) (i : Nat) (f : Coll → Coll) : (s.onColl i f).sec = s.sec := rfl
@[simp] theorem State.onColl_log (s : State) (i : Nat) (f : Coll → Coll) : (s.onColl i f).log = s.log := rfl
@[simp] theorem State.onColl_mod (s : State) (i : Nat) (f : Coll → Coll) : (s.onColl i f).mod = s.mod := rfl
@[simp] theorem State.onColl_adk (s : State) (i : Nat) (f : Coll → Coll) : (s.onColl i f).adk = s.adk := rfl
@[simp] theorem State.onColl_evq (s : State) (i : Nat) (f : Coll → Coll) : (s.onColl i f).evq = s.evq := rfl
@[simp] theorem State.onColl_glb (s : State) (i : Nat) (f : Coll → Coll) : (s.onColl i f).glb = s.glb := rfl

/-! `State.onGroup` -/

@[simp] theorem State.onGroup_pending (s : State) (g : Nat) (f : Group → Group) : (s.onGroup g f).pending = s.pending := rfl
@[simp] theorem State.onGroup_free (s : State) (g : Nat) (f : Group → Group) : (s.onGroup g f).free = s.free := rfl
@[simp] theorem State.onGroup_hb (s : State) (g : Nat) (f : Group → Group) : (s.onGroup g f).hb = s.hb := rfl
@[simp] theorem State.onGroup_pkg (s : State) (g : Nat) (f : Group → Group) : (s.onGroup g f).pkg = s.pkg := rfl
@[simp] theorem State.onGroup_tim (s : State) (g : Nat) (f : Group → Group) : (s.onGroup g f).tim = s.tim := rfl
@[simp] theorem State.onGroup_ports (s : State) (g : Nat) (f : Group → Group) : (s.onGroup g f).ports = s.ports := rfl
@[simp] theorem State.onGroup_bridles (s : State) (g : Nat) (f : Group → Group) : (s.onGroup g f).bridles = s.bridles := rfl
@[simp] theorem State.onGroup_req (s : State) (g : Nat) (f : Group → Group) : (s.onGroup g f).req = s.req := rfl
@[simp] theorem State.onGroup_coh (s : State) (g : Nat) (f : Group → Group) : (s.onGroup g f).coh = s.coh := rfl
@[simp] theorem State.onGroup_ext (s : State) (g : Nat) (f : Group → Group) : (s.onGroup g f).ext = s.ext := rfl
@[simp] theorem State.onGroup_lse (s : State) (g : Nat) (f : Group → Group) : (s.onGroup g f).lse = s.lse := rfl
@[simp] theorem State.onGroup_adm (s : State) (g : Nat) (f : Group → Group) : (s.onGroup g f).adm = s.adm := rfl
@[simp] theorem State.onGroup_tier (s : State) (g : Nat) (f : Group → Group) : (s.onGroup g f).tier = s.tier := rfl
@[simp] theorem State.onGroup_xl (s : State) (g : Nat) (f : Group → Group) : (s.onGroup g f).xl = s.xl := rfl
@[simp] theorem State.onGroup_cmp (s : State) (g : Nat) (f : Group → Group) : (s.onGroup g f).cmp = s.cmp := rfl
@[simp] theorem State.onGroup_cpu (s : State) (g : Nat) (f : Group → Group) : (s.onGroup g f).cpu = s.cpu := rfl
@[simp] theorem State.onGroup_atn (s : State) (g : Nat) (f : Group → Group) : (s.onGroup g f).atn = s.atn := rfl
@[simp] theorem State.onGroup_comp (s : State) (g : Nat) (f : Group → Group) : (s.onGroup g f).comp = s.comp := rfl
@[simp] theorem State.onGroup_sec (s : State) (g : Nat) (f : Group → Group) : (s.onGroup g f).sec = s.sec := rfl
@[simp] theorem State.onGroup_log (s : State) (g : Nat) (f : Group → Group) : (s.onGroup g f).log = s.log := rfl
@[simp] theorem State.onGroup_mod (s : State) (g : Nat) (f : Group → Group) : (s.onGroup g f).mod = s.mod := rfl
@[simp] theorem State.onGroup_adk (s : State) (g : Nat) (f : Group → Group) : (s.onGroup g f).adk = s.adk := rfl
@[simp] theorem State.onGroup_evq (s : State) (g : Nat) (f : Group → Group) : (s.onGroup g f).evq = s.evq := rfl
@[simp] theorem State.onGroup_glb (s : State) (g : Nat) (f : Group → Group) : (s.onGroup g f).glb = s.glb := rfl

/-! `State.onHandle` -/

@[simp] theorem State.onHandle_pending (s : State) (h : Nat) (f : Handle → Handle) : (s.onHandle h f).pending = s.pending := rfl
@[simp] theorem State.onHandle_free (s : State) (h : Nat) (f : Handle → Handle) : (s.onHandle h f).free = s.free := rfl
@[simp] theorem State.onHandle_hb (s : State) (h : Nat) (f : Handle → Handle) : (s.onHandle h f).hb = s.hb := rfl
@[simp] theorem State.onHandle_pkg (s : State) (h : Nat) (f : Handle → Handle) : (s.onHandle h f).pkg = s.pkg := rfl
@[simp] theorem State.onHandle_tim (s : State) (h : Nat) (f : Handle → Handle) : (s.onHandle h f).tim = s.tim := rfl
@[simp] theorem State.onHandle_ports (s : State) (h : Nat) (f : Handle → Handle) : (s.onHandle h f).ports = s.ports := rfl
@[simp] theorem State.onHandle_bridles (s : State) (h : Nat) (f : Handle → Handle) : (s.onHandle h f).bridles = s.bridles := rfl
@[simp] theorem State.onHandle_req (s : State) (h : Nat) (f : Handle → Handle) : (s.onHandle h f).req = s.req := rfl
@[simp] theorem State.onHandle_coh (s : State) (h : Nat) (f : Handle → Handle) : (s.onHandle h f).coh = s.coh := rfl
@[simp] theorem State.onHandle_ext (s : State) (h : Nat) (f : Handle → Handle) : (s.onHandle h f).ext = s.ext := rfl
@[simp] theorem State.onHandle_lse (s : State) (h : Nat) (f : Handle → Handle) : (s.onHandle h f).lse = s.lse := rfl
@[simp] theorem State.onHandle_adm (s : State) (h : Nat) (f : Handle → Handle) : (s.onHandle h f).adm = s.adm := rfl
@[simp] theorem State.onHandle_tier (s : State) (h : Nat) (f : Handle → Handle) : (s.onHandle h f).tier = s.tier := rfl
@[simp] theorem State.onHandle_xl (s : State) (h : Nat) (f : Handle → Handle) : (s.onHandle h f).xl = s.xl := rfl
@[simp] theorem State.onHandle_cmp (s : State) (h : Nat) (f : Handle → Handle) : (s.onHandle h f).cmp = s.cmp := rfl
@[simp] theorem State.onHandle_cpu (s : State) (h : Nat) (f : Handle → Handle) : (s.onHandle h f).cpu = s.cpu := rfl
@[simp] theorem State.onHandle_clv (s : State) (h : Nat) (f : Handle → Handle) : (s.onHandle h f).clv = s.clv := rfl
@[simp] theorem State.onHandle_comp (s : State) (h : Nat) (f : Handle → Handle) : (s.onHandle h f).comp = s.comp := rfl
@[simp] theorem State.onHandle_sec (s : State) (h : Nat) (f : Handle → Handle) : (s.onHandle h f).sec = s.sec := rfl
@[simp] theorem State.onHandle_log (s : State) (h : Nat) (f : Handle → Handle) : (s.onHandle h f).log = s.log := rfl
@[simp] theorem State.onHandle_mod (s : State) (h : Nat) (f : Handle → Handle) : (s.onHandle h f).mod = s.mod := rfl
@[simp] theorem State.onHandle_adk (s : State) (h : Nat) (f : Handle → Handle) : (s.onHandle h f).adk = s.adk := rfl
@[simp] theorem State.onHandle_evq (s : State) (h : Nat) (f : Handle → Handle) : (s.onHandle h f).evq = s.evq := rfl
@[simp] theorem State.onHandle_glb (s : State) (h : Nat) (f : Handle → Handle) : (s.onHandle h f).glb = s.glb := rfl

/-! `State.onTenant` -/

@[simp] theorem State.onTenant_pending (s : State) (t : Nat) (f : Tenant → Tenant) : (s.onTenant t f).pending = s.pending := rfl
@[simp] theorem State.onTenant_free (s : State) (t : Nat) (f : Tenant → Tenant) : (s.onTenant t f).free = s.free := rfl
@[simp] theorem State.onTenant_hb (s : State) (t : Nat) (f : Tenant → Tenant) : (s.onTenant t f).hb = s.hb := rfl
@[simp] theorem State.onTenant_pkg (s : State) (t : Nat) (f : Tenant → Tenant) : (s.onTenant t f).pkg = s.pkg := rfl
@[simp] theorem State.onTenant_tim (s : State) (t : Nat) (f : Tenant → Tenant) : (s.onTenant t f).tim = s.tim := rfl
@[simp] theorem State.onTenant_ports (s : State) (t : Nat) (f : Tenant → Tenant) : (s.onTenant t f).ports = s.ports := rfl
@[simp] theorem State.onTenant_bridles (s : State) (t : Nat) (f : Tenant → Tenant) : (s.onTenant t f).bridles = s.bridles := rfl
@[simp] theorem State.onTenant_req (s : State) (t : Nat) (f : Tenant → Tenant) : (s.onTenant t f).req = s.req := rfl
@[simp] theorem State.onTenant_coh (s : State) (t : Nat) (f : Tenant → Tenant) : (s.onTenant t f).coh = s.coh := rfl
@[simp] theorem State.onTenant_ext (s : State) (t : Nat) (f : Tenant → Tenant) : (s.onTenant t f).ext = s.ext := rfl
@[simp] theorem State.onTenant_lse (s : State) (t : Nat) (f : Tenant → Tenant) : (s.onTenant t f).lse = s.lse := rfl
@[simp] theorem State.onTenant_adm (s : State) (t : Nat) (f : Tenant → Tenant) : (s.onTenant t f).adm = s.adm := rfl
@[simp] theorem State.onTenant_tier (s : State) (t : Nat) (f : Tenant → Tenant) : (s.onTenant t f).tier = s.tier := rfl
@[simp] theorem State.onTenant_xl (s : State) (t : Nat) (f : Tenant → Tenant) : (s.onTenant t f).xl = s.xl := rfl
@[simp] theorem State.onTenant_cmp (s : State) (t : Nat) (f : Tenant → Tenant) : (s.onTenant t f).cmp = s.cmp := rfl
@[simp] theorem State.onTenant_cpu (s : State) (t : Nat) (f : Tenant → Tenant) : (s.onTenant t f).cpu = s.cpu := rfl
@[simp] theorem State.onTenant_clv (s : State) (t : Nat) (f : Tenant → Tenant) : (s.onTenant t f).clv = s.clv := rfl
@[simp] theorem State.onTenant_atn (s : State) (t : Nat) (f : Tenant → Tenant) : (s.onTenant t f).atn = s.atn := rfl
@[simp] theorem State.onTenant_comp (s : State) (t : Nat) (f : Tenant → Tenant) : (s.onTenant t f).comp = s.comp := rfl
@[simp] theorem State.onTenant_log (s : State) (t : Nat) (f : Tenant → Tenant) : (s.onTenant t f).log = s.log := rfl
@[simp] theorem State.onTenant_mod (s : State) (t : Nat) (f : Tenant → Tenant) : (s.onTenant t f).mod = s.mod := rfl
@[simp] theorem State.onTenant_adk (s : State) (t : Nat) (f : Tenant → Tenant) : (s.onTenant t f).adk = s.adk := rfl
@[simp] theorem State.onTenant_evq (s : State) (t : Nat) (f : Tenant → Tenant) : (s.onTenant t f).evq = s.evq := rfl
@[simp] theorem State.onTenant_glb (s : State) (t : Nat) (f : Tenant → Tenant) : (s.onTenant t f).glb = s.glb := rfl

/-! `State.onLease` -/

@[simp] theorem State.onLease_pending (s : State) (i : Nat) (f : Lease → Lease) : (s.onLease i f).pending = s.pending := rfl
@[simp] theorem State.onLease_free (s : State) (i : Nat) (f : Lease → Lease) : (s.onLease i f).free = s.free := rfl
@[simp] theorem State.onLease_hb (s : State) (i : Nat) (f : Lease → Lease) : (s.onLease i f).hb = s.hb := rfl
@[simp] theorem State.onLease_pkg (s : State) (i : Nat) (f : Lease → Lease) : (s.onLease i f).pkg = s.pkg := rfl
@[simp] theorem State.onLease_tim (s : State) (i : Nat) (f : Lease → Lease) : (s.onLease i f).tim = s.tim := rfl
@[simp] theorem State.onLease_ports (s : State) (i : Nat) (f : Lease → Lease) : (s.onLease i f).ports = s.ports := rfl
@[simp] theorem State.onLease_bridles (s : State) (i : Nat) (f : Lease → Lease) : (s.onLease i f).bridles = s.bridles := rfl
@[simp] theorem State.onLease_req (s : State) (i : Nat) (f : Lease → Lease) : (s.onLease i f).req = s.req := rfl
@[simp] theorem State.onLease_coh (s : State) (i : Nat) (f : Lease → Lease) : (s.onLease i f).coh = s.coh := rfl
@[simp] theorem State.onLease_ext (s : State) (i : Nat) (f : Lease → Lease) : (s.onLease i f).ext = s.ext := rfl
@[simp] theorem State.onLease_adm (s : State) (i : Nat) (f : Lease → Lease) : (s.onLease i f).adm = s.adm := rfl
@[simp] theorem State.onLease_tier (s : State) (i : Nat) (f : Lease → Lease) : (s.onLease i f).tier = s.tier := rfl
@[simp] theorem State.onLease_xl (s : State) (i : Nat) (f : Lease → Lease) : (s.onLease i f).xl = s.xl := rfl
@[simp] theorem State.onLease_cmp (s : State) (i : Nat) (f : Lease → Lease) : (s.onLease i f).cmp = s.cmp := rfl
@[simp] theorem State.onLease_cpu (s : State) (i : Nat) (f : Lease → Lease) : (s.onLease i f).cpu = s.cpu := rfl
@[simp] theorem State.onLease_clv (s : State) (i : Nat) (f : Lease → Lease) : (s.onLease i f).clv = s.clv := rfl
@[simp] theorem State.onLease_atn (s : State) (i : Nat) (f : Lease → Lease) : (s.onLease i f).atn = s.atn := rfl
@[simp] theorem State.onLease_comp (s : State) (i : Nat) (f : Lease → Lease) : (s.onLease i f).comp = s.comp := rfl
@[simp] theorem State.onLease_sec (s : State) (i : Nat) (f : Lease → Lease) : (s.onLease i f).sec = s.sec := rfl
@[simp] theorem State.onLease_log (s : State) (i : Nat) (f : Lease → Lease) : (s.onLease i f).log = s.log := rfl
@[simp] theorem State.onLease_mod (s : State) (i : Nat) (f : Lease → Lease) : (s.onLease i f).mod = s.mod := rfl
@[simp] theorem State.onLease_adk (s : State) (i : Nat) (f : Lease → Lease) : (s.onLease i f).adk = s.adk := rfl
@[simp] theorem State.onLease_evq (s : State) (i : Nat) (f : Lease → Lease) : (s.onLease i f).evq = s.evq := rfl
@[simp] theorem State.onLease_glb (s : State) (i : Nat) (f : Lease → Lease) : (s.onLease i f).glb = s.glb := rfl

/-! `State.onAdm` -/

@[simp] theorem State.onAdm_pending (s : State) (i : Nat) (f : AdmRecord → AdmRecord) : (s.onAdm i f).pending = s.pending := rfl
@[simp] theorem State.onAdm_free (s : State) (i : Nat) (f : AdmRecord → AdmRecord) : (s.onAdm i f).free = s.free := rfl
@[simp] theorem State.onAdm_hb (s : State) (i : Nat) (f : AdmRecord → AdmRecord) : (s.onAdm i f).hb = s.hb := rfl
@[simp] theorem State.onAdm_pkg (s : State) (i : Nat) (f : AdmRecord → AdmRecord) : (s.onAdm i f).pkg = s.pkg := rfl
@[simp] theorem State.onAdm_tim (s : State) (i : Nat) (f : AdmRecord → AdmRecord) : (s.onAdm i f).tim = s.tim := rfl
@[simp] theorem State.onAdm_ports (s : State) (i : Nat) (f : AdmRecord → AdmRecord) : (s.onAdm i f).ports = s.ports := rfl
@[simp] theorem State.onAdm_bridles (s : State) (i : Nat) (f : AdmRecord → AdmRecord) : (s.onAdm i f).bridles = s.bridles := rfl
@[simp] theorem State.onAdm_req (s : State) (i : Nat) (f : AdmRecord → AdmRecord) : (s.onAdm i f).req = s.req := rfl
@[simp] theorem State.onAdm_coh (s : State) (i : Nat) (f : AdmRecord → AdmRecord) : (s.onAdm i f).coh = s.coh := rfl
@[simp] theorem State.onAdm_ext (s : State) (i : Nat) (f : AdmRecord → AdmRecord) : (s.onAdm i f).ext = s.ext := rfl
@[simp] theorem State.onAdm_lse (s : State) (i : Nat) (f : AdmRecord → AdmRecord) : (s.onAdm i f).lse = s.lse := rfl
@[simp] theorem State.onAdm_tier (s : State) (i : Nat) (f : AdmRecord → AdmRecord) : (s.onAdm i f).tier = s.tier := rfl
@[simp] theorem State.onAdm_xl (s : State) (i : Nat) (f : AdmRecord → AdmRecord) : (s.onAdm i f).xl = s.xl := rfl
@[simp] theorem State.onAdm_cmp (s : State) (i : Nat) (f : AdmRecord → AdmRecord) : (s.onAdm i f).cmp = s.cmp := rfl
@[simp] theorem State.onAdm_cpu (s : State) (i : Nat) (f : AdmRecord → AdmRecord) : (s.onAdm i f).cpu = s.cpu := rfl
@[simp] theorem State.onAdm_clv (s : State) (i : Nat) (f : AdmRecord → AdmRecord) : (s.onAdm i f).clv = s.clv := rfl
@[simp] theorem State.onAdm_atn (s : State) (i : Nat) (f : AdmRecord → AdmRecord) : (s.onAdm i f).atn = s.atn := rfl
@[simp] theorem State.onAdm_comp (s : State) (i : Nat) (f : AdmRecord → AdmRecord) : (s.onAdm i f).comp = s.comp := rfl
@[simp] theorem State.onAdm_sec (s : State) (i : Nat) (f : AdmRecord → AdmRecord) : (s.onAdm i f).sec = s.sec := rfl
@[simp] theorem State.onAdm_log (s : State) (i : Nat) (f : AdmRecord → AdmRecord) : (s.onAdm i f).log = s.log := rfl
@[simp] theorem State.onAdm_mod (s : State) (i : Nat) (f : AdmRecord → AdmRecord) : (s.onAdm i f).mod = s.mod := rfl
@[simp] theorem State.onAdm_adk (s : State) (i : Nat) (f : AdmRecord → AdmRecord) : (s.onAdm i f).adk = s.adk := rfl
@[simp] theorem State.onAdm_evq (s : State) (i : Nat) (f : AdmRecord → AdmRecord) : (s.onAdm i f).evq = s.evq := rfl
@[simp] theorem State.onAdm_glb (s : State) (i : Nat) (f : AdmRecord → AdmRecord) : (s.onAdm i f).glb = s.glb := rfl

/-! `State.onDie` -/

@[simp] theorem State.onDie_pending (s : State) (x : Nat) (f : Die → Die) : (s.onDie x f).pending = s.pending := rfl
@[simp] theorem State.onDie_free (s : State) (x : Nat) (f : Die → Die) : (s.onDie x f).free = s.free := rfl
@[simp] theorem State.onDie_hb (s : State) (x : Nat) (f : Die → Die) : (s.onDie x f).hb = s.hb := rfl
@[simp] theorem State.onDie_pkg (s : State) (x : Nat) (f : Die → Die) : (s.onDie x f).pkg = s.pkg := rfl
@[simp] theorem State.onDie_tim (s : State) (x : Nat) (f : Die → Die) : (s.onDie x f).tim = s.tim := rfl
@[simp] theorem State.onDie_ports (s : State) (x : Nat) (f : Die → Die) : (s.onDie x f).ports = s.ports := rfl
@[simp] theorem State.onDie_bridles (s : State) (x : Nat) (f : Die → Die) : (s.onDie x f).bridles = s.bridles := rfl
@[simp] theorem State.onDie_req (s : State) (x : Nat) (f : Die → Die) : (s.onDie x f).req = s.req := rfl
@[simp] theorem State.onDie_coh (s : State) (x : Nat) (f : Die → Die) : (s.onDie x f).coh = s.coh := rfl
@[simp] theorem State.onDie_ext (s : State) (x : Nat) (f : Die → Die) : (s.onDie x f).ext = s.ext := rfl
@[simp] theorem State.onDie_lse (s : State) (x : Nat) (f : Die → Die) : (s.onDie x f).lse = s.lse := rfl
@[simp] theorem State.onDie_adm (s : State) (x : Nat) (f : Die → Die) : (s.onDie x f).adm = s.adm := rfl
@[simp] theorem State.onDie_tier (s : State) (x : Nat) (f : Die → Die) : (s.onDie x f).tier = s.tier := rfl
@[simp] theorem State.onDie_xl (s : State) (x : Nat) (f : Die → Die) : (s.onDie x f).xl = s.xl := rfl
@[simp] theorem State.onDie_cmp (s : State) (x : Nat) (f : Die → Die) : (s.onDie x f).cmp = s.cmp := rfl
@[simp] theorem State.onDie_cpu (s : State) (x : Nat) (f : Die → Die) : (s.onDie x f).cpu = s.cpu := rfl
@[simp] theorem State.onDie_clv (s : State) (x : Nat) (f : Die → Die) : (s.onDie x f).clv = s.clv := rfl
@[simp] theorem State.onDie_atn (s : State) (x : Nat) (f : Die → Die) : (s.onDie x f).atn = s.atn := rfl
@[simp] theorem State.onDie_comp (s : State) (x : Nat) (f : Die → Die) : (s.onDie x f).comp = s.comp := rfl
@[simp] theorem State.onDie_sec (s : State) (x : Nat) (f : Die → Die) : (s.onDie x f).sec = s.sec := rfl
@[simp] theorem State.onDie_mod (s : State) (x : Nat) (f : Die → Die) : (s.onDie x f).mod = s.mod := rfl
@[simp] theorem State.onDie_adk (s : State) (x : Nat) (f : Die → Die) : (s.onDie x f).adk = s.adk := rfl
@[simp] theorem State.onDie_evq (s : State) (x : Nat) (f : Die → Die) : (s.onDie x f).evq = s.evq := rfl
@[simp] theorem State.onDie_glb (s : State) (x : Nat) (f : Die → Die) : (s.onDie x f).glb = s.glb := rfl

/-! `State.onBridle` -/

@[simp] theorem State.onBridle_pending (s : State) (k : Nat) (f : Bridle → Bridle) : (s.onBridle k f).pending = s.pending := rfl
@[simp] theorem State.onBridle_free (s : State) (k : Nat) (f : Bridle → Bridle) : (s.onBridle k f).free = s.free := rfl
@[simp] theorem State.onBridle_hb (s : State) (k : Nat) (f : Bridle → Bridle) : (s.onBridle k f).hb = s.hb := rfl
@[simp] theorem State.onBridle_pkg (s : State) (k : Nat) (f : Bridle → Bridle) : (s.onBridle k f).pkg = s.pkg := rfl
@[simp] theorem State.onBridle_tim (s : State) (k : Nat) (f : Bridle → Bridle) : (s.onBridle k f).tim = s.tim := rfl
@[simp] theorem State.onBridle_ports (s : State) (k : Nat) (f : Bridle → Bridle) : (s.onBridle k f).ports = s.ports := rfl
@[simp] theorem State.onBridle_req (s : State) (k : Nat) (f : Bridle → Bridle) : (s.onBridle k f).req = s.req := rfl
@[simp] theorem State.onBridle_coh (s : State) (k : Nat) (f : Bridle → Bridle) : (s.onBridle k f).coh = s.coh := rfl
@[simp] theorem State.onBridle_ext (s : State) (k : Nat) (f : Bridle → Bridle) : (s.onBridle k f).ext = s.ext := rfl
@[simp] theorem State.onBridle_lse (s : State) (k : Nat) (f : Bridle → Bridle) : (s.onBridle k f).lse = s.lse := rfl
@[simp] theorem State.onBridle_adm (s : State) (k : Nat) (f : Bridle → Bridle) : (s.onBridle k f).adm = s.adm := rfl
@[simp] theorem State.onBridle_tier (s : State) (k : Nat) (f : Bridle → Bridle) : (s.onBridle k f).tier = s.tier := rfl
@[simp] theorem State.onBridle_xl (s : State) (k : Nat) (f : Bridle → Bridle) : (s.onBridle k f).xl = s.xl := rfl
@[simp] theorem State.onBridle_cmp (s : State) (k : Nat) (f : Bridle → Bridle) : (s.onBridle k f).cmp = s.cmp := rfl
@[simp] theorem State.onBridle_cpu (s : State) (k : Nat) (f : Bridle → Bridle) : (s.onBridle k f).cpu = s.cpu := rfl
@[simp] theorem State.onBridle_clv (s : State) (k : Nat) (f : Bridle → Bridle) : (s.onBridle k f).clv = s.clv := rfl
@[simp] theorem State.onBridle_atn (s : State) (k : Nat) (f : Bridle → Bridle) : (s.onBridle k f).atn = s.atn := rfl
@[simp] theorem State.onBridle_comp (s : State) (k : Nat) (f : Bridle → Bridle) : (s.onBridle k f).comp = s.comp := rfl
@[simp] theorem State.onBridle_sec (s : State) (k : Nat) (f : Bridle → Bridle) : (s.onBridle k f).sec = s.sec := rfl
@[simp] theorem State.onBridle_log (s : State) (k : Nat) (f : Bridle → Bridle) : (s.onBridle k f).log = s.log := rfl
@[simp] theorem State.onBridle_mod (s : State) (k : Nat) (f : Bridle → Bridle) : (s.onBridle k f).mod = s.mod := rfl
@[simp] theorem State.onBridle_adk (s : State) (k : Nat) (f : Bridle → Bridle) : (s.onBridle k f).adk = s.adk := rfl
@[simp] theorem State.onBridle_evq (s : State) (k : Nat) (f : Bridle → Bridle) : (s.onBridle k f).evq = s.evq := rfl
@[simp] theorem State.onBridle_glb (s : State) (k : Nat) (f : Bridle → Bridle) : (s.onBridle k f).glb = s.glb := rfl

/-! `State.adkFlush` -/

@[simp] theorem State.adkFlush_pending (s : State)  : (s.adkFlush ).pending = s.pending := rfl
@[simp] theorem State.adkFlush_free (s : State)  : (s.adkFlush ).free = s.free := rfl
@[simp] theorem State.adkFlush_hb (s : State)  : (s.adkFlush ).hb = s.hb := rfl
@[simp] theorem State.adkFlush_pkg (s : State)  : (s.adkFlush ).pkg = s.pkg := rfl
@[simp] theorem State.adkFlush_tim (s : State)  : (s.adkFlush ).tim = s.tim := rfl
@[simp] theorem State.adkFlush_ports (s : State)  : (s.adkFlush ).ports = s.ports := rfl
@[simp] theorem State.adkFlush_bridles (s : State)  : (s.adkFlush ).bridles = s.bridles := rfl
@[simp] theorem State.adkFlush_req (s : State)  : (s.adkFlush ).req = s.req := rfl
@[simp] theorem State.adkFlush_coh (s : State)  : (s.adkFlush ).coh = s.coh := rfl
@[simp] theorem State.adkFlush_ext (s : State)  : (s.adkFlush ).ext = s.ext := rfl
@[simp] theorem State.adkFlush_lse (s : State)  : (s.adkFlush ).lse = s.lse := rfl
@[simp] theorem State.adkFlush_adm (s : State)  : (s.adkFlush ).adm = s.adm := rfl
@[simp] theorem State.adkFlush_tier (s : State)  : (s.adkFlush ).tier = s.tier := rfl
@[simp] theorem State.adkFlush_xl (s : State)  : (s.adkFlush ).xl = s.xl := rfl
@[simp] theorem State.adkFlush_cmp (s : State)  : (s.adkFlush ).cmp = s.cmp := rfl
@[simp] theorem State.adkFlush_cpu (s : State)  : (s.adkFlush ).cpu = s.cpu := rfl
@[simp] theorem State.adkFlush_clv (s : State)  : (s.adkFlush ).clv = s.clv := rfl
@[simp] theorem State.adkFlush_atn (s : State)  : (s.adkFlush ).atn = s.atn := rfl
@[simp] theorem State.adkFlush_comp (s : State)  : (s.adkFlush ).comp = s.comp := rfl
@[simp] theorem State.adkFlush_sec (s : State)  : (s.adkFlush ).sec = s.sec := rfl
@[simp] theorem State.adkFlush_log (s : State)  : (s.adkFlush ).log = s.log := rfl
@[simp] theorem State.adkFlush_mod (s : State)  : (s.adkFlush ).mod = s.mod := rfl
@[simp] theorem State.adkFlush_evq (s : State)  : (s.adkFlush ).evq = s.evq := rfl
@[simp] theorem State.adkFlush_glb (s : State)  : (s.adkFlush ).glb = s.glb := rfl

/-! `State.adkSend` -/

@[simp] theorem State.adkSend_pending (s : State) (f : AdkFrame) : (s.adkSend f).pending = s.pending := rfl
@[simp] theorem State.adkSend_free (s : State) (f : AdkFrame) : (s.adkSend f).free = s.free := rfl
@[simp] theorem State.adkSend_hb (s : State) (f : AdkFrame) : (s.adkSend f).hb = s.hb := rfl
@[simp] theorem State.adkSend_pkg (s : State) (f : AdkFrame) : (s.adkSend f).pkg = s.pkg := rfl
@[simp] theorem State.adkSend_tim (s : State) (f : AdkFrame) : (s.adkSend f).tim = s.tim := rfl
@[simp] theorem State.adkSend_ports (s : State) (f : AdkFrame) : (s.adkSend f).ports = s.ports := rfl
@[simp] theorem State.adkSend_bridles (s : State) (f : AdkFrame) : (s.adkSend f).bridles = s.bridles := rfl
@[simp] theorem State.adkSend_req (s : State) (f : AdkFrame) : (s.adkSend f).req = s.req := rfl
@[simp] theorem State.adkSend_coh (s : State) (f : AdkFrame) : (s.adkSend f).coh = s.coh := rfl
@[simp] theorem State.adkSend_ext (s : State) (f : AdkFrame) : (s.adkSend f).ext = s.ext := rfl
@[simp] theorem State.adkSend_lse (s : State) (f : AdkFrame) : (s.adkSend f).lse = s.lse := rfl
@[simp] theorem State.adkSend_adm (s : State) (f : AdkFrame) : (s.adkSend f).adm = s.adm := rfl
@[simp] theorem State.adkSend_tier (s : State) (f : AdkFrame) : (s.adkSend f).tier = s.tier := rfl
@[simp] theorem State.adkSend_xl (s : State) (f : AdkFrame) : (s.adkSend f).xl = s.xl := rfl
@[simp] theorem State.adkSend_cmp (s : State) (f : AdkFrame) : (s.adkSend f).cmp = s.cmp := rfl
@[simp] theorem State.adkSend_cpu (s : State) (f : AdkFrame) : (s.adkSend f).cpu = s.cpu := rfl
@[simp] theorem State.adkSend_clv (s : State) (f : AdkFrame) : (s.adkSend f).clv = s.clv := rfl
@[simp] theorem State.adkSend_atn (s : State) (f : AdkFrame) : (s.adkSend f).atn = s.atn := rfl
@[simp] theorem State.adkSend_comp (s : State) (f : AdkFrame) : (s.adkSend f).comp = s.comp := rfl
@[simp] theorem State.adkSend_sec (s : State) (f : AdkFrame) : (s.adkSend f).sec = s.sec := rfl
@[simp] theorem State.adkSend_log (s : State) (f : AdkFrame) : (s.adkSend f).log = s.log := rfl
@[simp] theorem State.adkSend_mod (s : State) (f : AdkFrame) : (s.adkSend f).mod = s.mod := rfl
@[simp] theorem State.adkSend_evq (s : State) (f : AdkFrame) : (s.adkSend f).evq = s.evq := rfl
@[simp] theorem State.adkSend_glb (s : State) (f : AdkFrame) : (s.adkSend f).glb = s.glb := rfl

/-! `State.adkReply` -/

@[simp] theorem State.adkReply_pending (s : State) (q : AdkFrame) (st : BitVec 6) (a : BitVec 48) (w : List (BitVec 64)) : (s.adkReply q st a w).pending = s.pending := rfl
@[simp] theorem State.adkReply_free (s : State) (q : AdkFrame) (st : BitVec 6) (a : BitVec 48) (w : List (BitVec 64)) : (s.adkReply q st a w).free = s.free := rfl
@[simp] theorem State.adkReply_hb (s : State) (q : AdkFrame) (st : BitVec 6) (a : BitVec 48) (w : List (BitVec 64)) : (s.adkReply q st a w).hb = s.hb := rfl
@[simp] theorem State.adkReply_pkg (s : State) (q : AdkFrame) (st : BitVec 6) (a : BitVec 48) (w : List (BitVec 64)) : (s.adkReply q st a w).pkg = s.pkg := rfl
@[simp] theorem State.adkReply_tim (s : State) (q : AdkFrame) (st : BitVec 6) (a : BitVec 48) (w : List (BitVec 64)) : (s.adkReply q st a w).tim = s.tim := rfl
@[simp] theorem State.adkReply_ports (s : State) (q : AdkFrame) (st : BitVec 6) (a : BitVec 48) (w : List (BitVec 64)) : (s.adkReply q st a w).ports = s.ports := rfl
@[simp] theorem State.adkReply_bridles (s : State) (q : AdkFrame) (st : BitVec 6) (a : BitVec 48) (w : List (BitVec 64)) : (s.adkReply q st a w).bridles = s.bridles := rfl
@[simp] theorem State.adkReply_req (s : State) (q : AdkFrame) (st : BitVec 6) (a : BitVec 48) (w : List (BitVec 64)) : (s.adkReply q st a w).req = s.req := rfl
@[simp] theorem State.adkReply_coh (s : State) (q : AdkFrame) (st : BitVec 6) (a : BitVec 48) (w : List (BitVec 64)) : (s.adkReply q st a w).coh = s.coh := rfl
@[simp] theorem State.adkReply_ext (s : State) (q : AdkFrame) (st : BitVec 6) (a : BitVec 48) (w : List (BitVec 64)) : (s.adkReply q st a w).ext = s.ext := rfl
@[simp] theorem State.adkReply_lse (s : State) (q : AdkFrame) (st : BitVec 6) (a : BitVec 48) (w : List (BitVec 64)) : (s.adkReply q st a w).lse = s.lse := rfl
@[simp] theorem State.adkReply_adm (s : State) (q : AdkFrame) (st : BitVec 6) (a : BitVec 48) (w : List (BitVec 64)) : (s.adkReply q st a w).adm = s.adm := rfl
@[simp] theorem State.adkReply_tier (s : State) (q : AdkFrame) (st : BitVec 6) (a : BitVec 48) (w : List (BitVec 64)) : (s.adkReply q st a w).tier = s.tier := rfl
@[simp] theorem State.adkReply_xl (s : State) (q : AdkFrame) (st : BitVec 6) (a : BitVec 48) (w : List (BitVec 64)) : (s.adkReply q st a w).xl = s.xl := rfl
@[simp] theorem State.adkReply_cmp (s : State) (q : AdkFrame) (st : BitVec 6) (a : BitVec 48) (w : List (BitVec 64)) : (s.adkReply q st a w).cmp = s.cmp := rfl
@[simp] theorem State.adkReply_cpu (s : State) (q : AdkFrame) (st : BitVec 6) (a : BitVec 48) (w : List (BitVec 64)) : (s.adkReply q st a w).cpu = s.cpu := rfl
@[simp] theorem State.adkReply_clv (s : State) (q : AdkFrame) (st : BitVec 6) (a : BitVec 48) (w : List (BitVec 64)) : (s.adkReply q st a w).clv = s.clv := rfl
@[simp] theorem State.adkReply_atn (s : State) (q : AdkFrame) (st : BitVec 6) (a : BitVec 48) (w : List (BitVec 64)) : (s.adkReply q st a w).atn = s.atn := rfl
@[simp] theorem State.adkReply_comp (s : State) (q : AdkFrame) (st : BitVec 6) (a : BitVec 48) (w : List (BitVec 64)) : (s.adkReply q st a w).comp = s.comp := rfl
@[simp] theorem State.adkReply_sec (s : State) (q : AdkFrame) (st : BitVec 6) (a : BitVec 48) (w : List (BitVec 64)) : (s.adkReply q st a w).sec = s.sec := rfl
@[simp] theorem State.adkReply_log (s : State) (q : AdkFrame) (st : BitVec 6) (a : BitVec 48) (w : List (BitVec 64)) : (s.adkReply q st a w).log = s.log := rfl
@[simp] theorem State.adkReply_mod (s : State) (q : AdkFrame) (st : BitVec 6) (a : BitVec 48) (w : List (BitVec 64)) : (s.adkReply q st a w).mod = s.mod := rfl
@[simp] theorem State.adkReply_evq (s : State) (q : AdkFrame) (st : BitVec 6) (a : BitVec 48) (w : List (BitVec 64)) : (s.adkReply q st a w).evq = s.evq := rfl
@[simp] theorem State.adkReply_glb (s : State) (q : AdkFrame) (st : BitVec 6) (a : BitVec 48) (w : List (BitVec 64)) : (s.adkReply q st a w).glb = s.glb := rfl

/-! `State.adkFail` -/

@[simp] theorem State.adkFail_pending (s : State) (q : AdkFrame) (st : BitVec 6) : (s.adkFail q st).pending = s.pending := rfl
@[simp] theorem State.adkFail_free (s : State) (q : AdkFrame) (st : BitVec 6) : (s.adkFail q st).free = s.free := rfl
@[simp] theorem State.adkFail_hb (s : State) (q : AdkFrame) (st : BitVec 6) : (s.adkFail q st).hb = s.hb := rfl
@[simp] theorem State.adkFail_pkg (s : State) (q : AdkFrame) (st : BitVec 6) : (s.adkFail q st).pkg = s.pkg := rfl
@[simp] theorem State.adkFail_tim (s : State) (q : AdkFrame) (st : BitVec 6) : (s.adkFail q st).tim = s.tim := rfl
@[simp] theorem State.adkFail_ports (s : State) (q : AdkFrame) (st : BitVec 6) : (s.adkFail q st).ports = s.ports := rfl
@[simp] theorem State.adkFail_bridles (s : State) (q : AdkFrame) (st : BitVec 6) : (s.adkFail q st).bridles = s.bridles := rfl
@[simp] theorem State.adkFail_req (s : State) (q : AdkFrame) (st : BitVec 6) : (s.adkFail q st).req = s.req := rfl
@[simp] theorem State.adkFail_coh (s : State) (q : AdkFrame) (st : BitVec 6) : (s.adkFail q st).coh = s.coh := rfl
@[simp] theorem State.adkFail_ext (s : State) (q : AdkFrame) (st : BitVec 6) : (s.adkFail q st).ext = s.ext := rfl
@[simp] theorem State.adkFail_lse (s : State) (q : AdkFrame) (st : BitVec 6) : (s.adkFail q st).lse = s.lse := rfl
@[simp] theorem State.adkFail_adm (s : State) (q : AdkFrame) (st : BitVec 6) : (s.adkFail q st).adm = s.adm := rfl
@[simp] theorem State.adkFail_tier (s : State) (q : AdkFrame) (st : BitVec 6) : (s.adkFail q st).tier = s.tier := rfl
@[simp] theorem State.adkFail_xl (s : State) (q : AdkFrame) (st : BitVec 6) : (s.adkFail q st).xl = s.xl := rfl
@[simp] theorem State.adkFail_cmp (s : State) (q : AdkFrame) (st : BitVec 6) : (s.adkFail q st).cmp = s.cmp := rfl
@[simp] theorem State.adkFail_cpu (s : State) (q : AdkFrame) (st : BitVec 6) : (s.adkFail q st).cpu = s.cpu := rfl
@[simp] theorem State.adkFail_clv (s : State) (q : AdkFrame) (st : BitVec 6) : (s.adkFail q st).clv = s.clv := rfl
@[simp] theorem State.adkFail_atn (s : State) (q : AdkFrame) (st : BitVec 6) : (s.adkFail q st).atn = s.atn := rfl
@[simp] theorem State.adkFail_comp (s : State) (q : AdkFrame) (st : BitVec 6) : (s.adkFail q st).comp = s.comp := rfl
@[simp] theorem State.adkFail_sec (s : State) (q : AdkFrame) (st : BitVec 6) : (s.adkFail q st).sec = s.sec := rfl
@[simp] theorem State.adkFail_log (s : State) (q : AdkFrame) (st : BitVec 6) : (s.adkFail q st).log = s.log := rfl
@[simp] theorem State.adkFail_mod (s : State) (q : AdkFrame) (st : BitVec 6) : (s.adkFail q st).mod = s.mod := rfl
@[simp] theorem State.adkFail_evq (s : State) (q : AdkFrame) (st : BitVec 6) : (s.adkFail q st).evq = s.evq := rfl
@[simp] theorem State.adkFail_glb (s : State) (q : AdkFrame) (st : BitVec 6) : (s.adkFail q st).glb = s.glb := rfl

/-! `State.adkTake` -/

@[simp] theorem State.adkTake_pending (s : State)  : (s.adkTake ).pending = s.pending := rfl
@[simp] theorem State.adkTake_free (s : State)  : (s.adkTake ).free = s.free := rfl
@[simp] theorem State.adkTake_hb (s : State)  : (s.adkTake ).hb = s.hb := rfl
@[simp] theorem State.adkTake_pkg (s : State)  : (s.adkTake ).pkg = s.pkg := rfl
@[simp] theorem State.adkTake_tim (s : State)  : (s.adkTake ).tim = s.tim := rfl
@[simp] theorem State.adkTake_ports (s : State)  : (s.adkTake ).ports = s.ports := rfl
@[simp] theorem State.adkTake_bridles (s : State)  : (s.adkTake ).bridles = s.bridles := rfl
@[simp] theorem State.adkTake_req (s : State)  : (s.adkTake ).req = s.req := rfl
@[simp] theorem State.adkTake_coh (s : State)  : (s.adkTake ).coh = s.coh := rfl
@[simp] theorem State.adkTake_ext (s : State)  : (s.adkTake ).ext = s.ext := rfl
@[simp] theorem State.adkTake_lse (s : State)  : (s.adkTake ).lse = s.lse := rfl
@[simp] theorem State.adkTake_adm (s : State)  : (s.adkTake ).adm = s.adm := rfl
@[simp] theorem State.adkTake_tier (s : State)  : (s.adkTake ).tier = s.tier := rfl
@[simp] theorem State.adkTake_xl (s : State)  : (s.adkTake ).xl = s.xl := rfl
@[simp] theorem State.adkTake_cmp (s : State)  : (s.adkTake ).cmp = s.cmp := rfl
@[simp] theorem State.adkTake_cpu (s : State)  : (s.adkTake ).cpu = s.cpu := rfl
@[simp] theorem State.adkTake_clv (s : State)  : (s.adkTake ).clv = s.clv := rfl
@[simp] theorem State.adkTake_atn (s : State)  : (s.adkTake ).atn = s.atn := rfl
@[simp] theorem State.adkTake_comp (s : State)  : (s.adkTake ).comp = s.comp := rfl
@[simp] theorem State.adkTake_sec (s : State)  : (s.adkTake ).sec = s.sec := rfl
@[simp] theorem State.adkTake_log (s : State)  : (s.adkTake ).log = s.log := rfl
@[simp] theorem State.adkTake_mod (s : State)  : (s.adkTake ).mod = s.mod := rfl
@[simp] theorem State.adkTake_evq (s : State)  : (s.adkTake ).evq = s.evq := rfl
@[simp] theorem State.adkTake_glb (s : State)  : (s.adkTake ).glb = s.glb := rfl

/-! ### Reading after a write -/

@[simp] theorem State.port_setPort_same (s : State) (p : Nat) (v : Port) : (s.setPort p v).port p = v := Table.read_write_same _ _ _ _
theorem State.port_setPort_other (s : State) {p q : Nat} (v : Port) (h : q ≠ p) : (s.setPort p v).port q = s.port q :=
  Table.read_write_other _ _ _ h
@[simp] theorem State.link_onLink_same (s : State) (p : Nat) (f : Link → Link) : (s.onLink p f).link p = f (s.link p) := by
  simp [State.link, State.onLink]
theorem State.link_onLink_other (s : State) {p q : Nat} (f : Link → Link) (h : q ≠ p) : (s.onLink p f).link q = s.link q := by
  simp [State.link, State.onLink, State.port_setPort_other _ _ h]
@[simp] theorem State.tc_onLink (s : State) (p q : Nat) (f : Link → Link) : ((s.onLink p f).port q).tc = (s.port q).tc := by
  by_cases h : q = p
  · subst h
    simp [State.onLink]
  · simp [State.onLink, State.port_setPort_other _ _ h]
@[simp] theorem State.tc_onTc_same (s : State) (p : Nat) (f : Traffic → Traffic) : ((s.onTc p f).port p).tc = f (s.port p).tc := by
  simp [State.onTc]
theorem State.tc_onTc_other (s : State) {p q : Nat} (f : Traffic → Traffic) (h : q ≠ p) : ((s.onTc p f).port q).tc = (s.port q).tc := by
  simp [State.onTc, State.port_setPort_other _ _ h]
@[simp] theorem State.link_onTc (s : State) (p q : Nat) (f : Traffic → Traffic) : (s.onTc p f).link q = s.link q := by
  by_cases h : q = p
  · subst h
    simp [State.onTc, State.link]
  · simp [State.onTc, State.link, State.port_setPort_other _ _ h]
@[simp] theorem State.queue_onQueue_same (s : State) (p q : Nat) (f : Queue → Queue) : (s.onQueue p q f).queue p q = f (s.queue p q) := by
  simp [State.queue, State.onQueue]
@[simp] theorem State.link_onQueue (s : State) (p q r : Nat) (f : Queue → Queue) : (s.onQueue p q f).link r = s.link r := by
  simp [State.onQueue]

@[simp] theorem State.core_onCore_same (s : State) (i : Nat) (f : Core → Core) : (s.onCore i f).core i = f (s.core i) := Table.read_write_same _ _ _ _
theorem State.core_onCore_other (s : State) {i j : Nat} (f : Core → Core) (h : j ≠ i) : (s.onCore i f).core j = s.core j := Table.read_write_other _ _ _ h
@[simp] theorem State.dom_onDom_same (s : State) (i : Nat) (f : Domain → Domain) : (s.onDom i f).dom i = f (s.dom i) := Table.read_write_same _ _ _ _
theorem State.dom_onDom_other (s : State) {i j : Nat} (f : Domain → Domain) (h : j ≠ i) : (s.onDom i f).dom j = s.dom j := Table.read_write_other _ _ _ h
@[simp] theorem State.extent_onExtent_same (s : State) (i : Nat) (f : Extent → Extent) : (s.onExtent i f).extent i = f (s.extent i) := Table.read_write_same _ _ _ _
theorem State.extent_onExtent_other (s : State) {i j : Nat} (f : Extent → Extent) (h : j ≠ i) : (s.onExtent i f).extent j = s.extent j := Table.read_write_other _ _ _ h
@[simp] theorem State.page_onPage_same (s : State) (i : Nat) (f : TierPage → TierPage) : (s.onPage i f).page i = f (s.page i) := Table.read_write_same _ _ _ _
theorem State.page_onPage_other (s : State) {i j : Nat} (f : TierPage → TierPage) (h : j ≠ i) : (s.onPage i f).page j = s.page j := Table.read_write_other _ _ _ h
@[simp] theorem State.tray_onTray_same (s : State) (i : Nat) (f : Tray → Tray) : (s.onTray i f).tray i = f (s.tray i) := Table.read_write_same _ _ _ _
theorem State.tray_onTray_other (s : State) {i j : Nat} (f : Tray → Tray) (h : j ≠ i) : (s.onTray i f).tray j = s.tray j := Table.read_write_other _ _ _ h
@[simp] theorem State.coll_onColl_same (s : State) (i : Nat) (f : Coll → Coll) : (s.onColl i f).coll i = f (s.coll i) := Table.read_write_same _ _ _ _
theorem State.coll_onColl_other (s : State) {i j : Nat} (f : Coll → Coll) (h : j ≠ i) : (s.onColl i f).coll j = s.coll j := Table.read_write_other _ _ _ h
@[simp] theorem State.group_onGroup_same (s : State) (i : Nat) (f : Group → Group) : (s.onGroup i f).group i = f (s.group i) := Table.read_write_same _ _ _ _
theorem State.group_onGroup_other (s : State) {i j : Nat} (f : Group → Group) (h : j ≠ i) : (s.onGroup i f).group j = s.group j := Table.read_write_other _ _ _ h
@[simp] theorem State.handle_onHandle_same (s : State) (i : Nat) (f : Handle → Handle) : (s.onHandle i f).handle i = f (s.handle i) := Table.read_write_same _ _ _ _
theorem State.handle_onHandle_other (s : State) {i j : Nat} (f : Handle → Handle) (h : j ≠ i) : (s.onHandle i f).handle j = s.handle j := Table.read_write_other _ _ _ h
@[simp] theorem State.tenant_onTenant_same (s : State) (i : Nat) (f : Tenant → Tenant) : (s.onTenant i f).tenant i = f (s.tenant i) := Table.read_write_same _ _ _ _
theorem State.tenant_onTenant_other (s : State) {i j : Nat} (f : Tenant → Tenant) (h : j ≠ i) : (s.onTenant i f).tenant j = s.tenant j := Table.read_write_other _ _ _ h
@[simp] theorem State.lease_onLease_same (s : State) (i : Nat) (f : Lease → Lease) : (s.onLease i f).lease i = f (s.lease i) := Table.read_write_same _ _ _ _
theorem State.lease_onLease_other (s : State) {i j : Nat} (f : Lease → Lease) (h : j ≠ i) : (s.onLease i f).lease j = s.lease j := Table.read_write_other _ _ _ h
@[simp] theorem State.admRec_onAdm_same (s : State) (i : Nat) (f : AdmRecord → AdmRecord) : (s.onAdm i f).admRec i = f (s.admRec i) := Table.read_write_same _ _ _ _
theorem State.admRec_onAdm_other (s : State) {i j : Nat} (f : AdmRecord → AdmRecord) (h : j ≠ i) : (s.onAdm i f).admRec j = s.admRec j := Table.read_write_other _ _ _ h
@[simp] theorem State.die_onDie_same (s : State) (i : Nat) (f : Die → Die) : (s.onDie i f).die i = f (s.die i) := Table.read_write_same _ _ _ _
theorem State.die_onDie_other (s : State) {i j : Nat} (f : Die → Die) (h : j ≠ i) : (s.onDie i f).die j = s.die j := Table.read_write_other _ _ _ h
@[simp] theorem State.bridle_onBridle_same (s : State) (i : Nat) (f : Bridle → Bridle) : (s.onBridle i f).bridle i = f (s.bridle i) := Table.read_write_same _ _ _ _
theorem State.bridle_onBridle_other (s : State) {i j : Nat} (f : Bridle → Bridle) (h : j ≠ i) : (s.onBridle i f).bridle j = s.bridle j := Table.read_write_other _ _ _ h
@[simp] theorem State.sector_setSector_same (s : State) (b : Nat) (v : Sector) : (s.setSector b v).sector b = v := Table.read_write_same _ _ _ _
@[simp] theorem State.thread_onThread_same (s : State) (k t : Nat) (f : Thread → Thread) : (s.onThread k t f).thread k t = f (s.thread k t) := by
  simp [State.thread, State.onThread, State.setThread]
theorem State.thread_onThread_other (s : State) {k t j u : Nat} (f : Thread → Thread) (h : ¬(j = k ∧ u = t)) :
    (s.onThread k t f).thread j u = s.thread j u := by
  by_cases hj : j = k
  · subst hj
    have hu : u ≠ t := fun hu => h ⟨rfl, hu⟩
    simp [State.thread, State.onThread, State.setThread, Table.read_write_other _ _ _ hu]
  · simp [State.thread, State.onThread, State.setThread, State.core_onCore_other _ _ hj]
@[simp] theorem State.engine_onEngine_same (s : State) (k e : Nat) (f : Engine → Engine) : (s.onEngine k e f).engine k e = f (s.engine k e) := by
  simp [State.engine, State.onEngine]
@[simp] theorem State.thread_onEngine (s : State) (k e j t : Nat) (f : Engine → Engine) : (s.onEngine k e f).thread j t = s.thread j t := by
  by_cases h : j = k
  · subst h
    simp [State.thread, State.onEngine]
  · simp [State.thread, State.onEngine, State.core_onCore_other _ _ h]

end Sys2Proof.Machine
end

