-- ==== Sys2Proof/Laws/Mgmt.lean ====
section
/-! SUPPORT. Requests of the adapter: what performing one does, said once. -/

namespace Sys2Proof.Machine

/-- The state in which a request that is performed at once meets its effect: only the link's own bookkeeping has moved. -/
def State.adkTaken (s : State) (q : AdkFrame) : State :=
  let t := s.adkTake
  { t with adk := { t.adk with fresh := t.adk.fresh &&& ~~~((1 : BitVec 32) <<< q.tag.toNat) } }

/-- Taking a request changes the link and nothing else. -/
theorem State.adkTaken_link (s : State) (q : AdkFrame) : s.changesOnly (s.adkTaken q) [.adk] := by
  intro p hp
  cases p <;> first
    | rfl
    | simp at hp

@[simp] theorem State.adkTaken_kept (s : State) (q : AdkFrame) : (s.adkTaken q).adk.kept = s.adk.kept := rfl

/-- Answering a request changes the link and nothing else. -/
theorem State.adkReply_link (s : State) (q : AdkFrame) (st : BitVec 6) (a : BitVec 48) (w : List (BitVec 64)) :
    s.changesOnly (s.adkReply q st a w) [.adk] := by
  intro p hp
  cases p <;> first
    | rfl
    | simp at hp

/-- A request that is performed at once meets its effect in `adkTaken`. -/
theorem State.adkRequest_performs {s : State} {q : AdkFrame} (h : s.performs q) (body : State → State) :
    s.adkRequest q true body = body (s.adkTaken q) := by
  obtain ⟨hu, ht, ho, hs, hf⟩ := h
  have h1 : ¬ (32 ≤ q.tag.toNat) := by omega
  have h2 : s.adkTake.adk.outstanding = [] := ho
  have h3 : State.adkServes (s.adkTaken q) q = true := hs
  unfold State.adkRequest
  rw [if_neg (by simp [hu])]
  show (if (!s.adkTake.adk.outstanding.isEmpty) = true then _
    else if (!true || decide (32 ≤ q.tag.toNat)) = true then s.adkTake.adkMalformed q else s.adkTake.adkPerform q body) = _
  rw [if_neg (by simp [h2]), if_neg (by simp [h1])]
  unfold State.adkPerform
  have hk : ∀ k, s.adkTake.adk.kept.find? (fun (e : Nat × AdkFrame × AdkFrame) => e.1 == q.tag.toNat) = some k →
      s.adkTake.adk.fresh.getLsbD q.tag.toNat = false := by
    intro k hk
    rcases hf with hf | hf
    · exact hf
    · have h4 := List.find?_some hk
      have h5 := hf k (List.mem_of_find?_eq_some hk)
      simp at h4
      exact absurd h4 h5
  dsimp only
  split
  · rename_i k hk'
    rw [if_neg (by simp [hk k hk'])]
    exact if_pos h3
  · exact if_pos h3

/-- A write that is performed by a holder of its role has its effect and is answered with its code. -/
theorem State.adkWr_writes {s : State} {tag : BitVec 16} {addr : Nat} {value : BitVec 64} {r : Role}
    (h : s.writes tag addr value r) (f : State → State × BitVec 6) :
    s.adkWr tag addr value r f =
      (f (s.adkTaken (wrFrame tag addr value))).1.adkReply (wrFrame tag addr value)
        (f (s.adkTaken (wrFrame tag addr value))).2 (wrFrame tag addr value).addr [] := by
  unfold State.adkWr
  rw [State.adkRequest_performs h.1]
  have : (s.adkTaken (wrFrame tag addr value)).holdsRole r = true := by
    have := h.2
    cases r <;> exact this
  unfold State.wrBody
  rw [if_pos this]

/-- A write without its role is refused, logged and counted (R342). -/
theorem State.adkWr_denied {s : State} {tag : BitVec 16} {addr : Nat} {value : BitVec 64} {r : Role}
    (h : s.performs (wrFrame tag addr value)) (hr : s.holdsRole r = false) (f : State → State × BitVec 6) :
    s.adkWr tag addr value r f =
      ((s.adkTaken (wrFrame tag addr value)).denyRole r (wrFrame tag addr value).addr.toNat).adkReply (wrFrame tag addr value) stDenied
        (wrFrame tag addr value).addr [] := by
  unfold State.adkWr
  rw [State.adkRequest_performs h]
  have : (s.adkTaken (wrFrame tag addr value)).holdsRole r = false := by
    cases r <;> exact hr
  unfold State.wrBody
  rw [if_neg (by simp [this])]

/-- The answer to a request carries its code. -/
theorem State.adkReply_responded (s : State) (q : AdkFrame) (st : BitVec 6) (a : BitVec 48) (w : List (BitVec 64)) :
    (s.adkReply q st a w).responded q.tag st := by
  exact ⟨_, List.mem_append_right _ (List.mem_singleton.2 rfl), rfl, rfl, rfl⟩

/-- From one state to the next and on to a third, only what either step changes is changed. -/
theorem State.changesOnly.trans {a b c : State} {ps : List Part} (h1 : a.changesOnly b ps) (h2 : b.changesOnly c ps) :
    a.changesOnly c ps := by
  intro p hp
  have e1 := h1 p hp
  have e2 := h2 p hp
  cases p <;> exact e2.trans e1

theorem State.changesOnly.mono {a b : State} {ps qs : List Part} (h : a.changesOnly b ps) (hq : ps ⊆ qs) : a.changesOnly b qs :=
  fun p hp => h p (fun hm => hp (hq hm))

/-- A write performed by a holder of its role: the next state, its answer and its frame from what the effect does. -/
theorem State.adkWr_spec {s : State} {tag : BitVec 16} {addr : Nat} {value : BitVec 64} {r : Role}
    (h : s.writes tag addr value r) (f : State → State × BitVec 6) (st : BitVec 6) (ps : List Part) (P : State → Prop)
    (hst : (f (s.adkTaken (wrFrame tag addr value))).2 = st)
    (hps : (s.adkTaken (wrFrame tag addr value)).changesOnly (f (s.adkTaken (wrFrame tag addr value))).1 ps)
    (hadk : [Part.adk] ⊆ ps)
    (hP : ∀ (t : State) q c a w, t = (f (s.adkTaken (wrFrame tag addr value))).1 → P (t.adkReply q c a w)) :
    ∃ t, Host.Outcome.next (φ := Fault) (ρ := Refusal) (s.adkWr tag addr value r f) = .next t ∧ t.responded tag st
      ∧ s.changesOnly t ps ∧ P t := by
  rw [State.adkWr_writes h]
  refine ⟨_, rfl, ?_, ?_, hP _ _ _ _ _ rfl⟩
  · rw [← hst]
    exact State.adkReply_responded _ (wrFrame tag addr value) _ _ _
  · exact (((State.adkTaken_link _ _).mono hadk).trans hps).trans ((State.adkReply_link _ _ _ _ _).mono hadk)

end Sys2Proof.Machine
end

