-- ==== Sys2Proof/Laws/OnlyLinks.lean ====
section
/-! SUPPORT. What every operation of Links leaves alone. -/

set_option linter.unusedTactic false
set_option linter.unreachableTactic false
set_option linter.unusedVariables false

namespace Sys2Proof.Machine

theorem State.sendLcw_only {s0 : State} {ps : List Part} (s : State) (b : Nat) (typ : BitVec 4) (hs : s0.changesOnly s ps) (hq : [.ports] ⊆ ps) : s0.changesOnly (State.sendLcw s b typ) ps := by
  unfold State.sendLcw
  repeat' first
    | with_reducible assumption
    | with_reducible apply State.onLink_only
    | with_reducible apply ite_only
    | with_reducible apply ite_fst_only
    | with_reducible intro _
    | split
    | dsimp only
    | ((with_reducible apply only_mk) <;> first
        | with_reducible exact fun _ => rfl
        | exact fun hn => absurd (hq (by decide)) hn
        | skip)
    | exact List.Subset.trans (by decide) hq
    | refine pair_only (by assumption) ?_
    | assumption

theorem State.sendHello_only {s0 : State} {ps : List Part} (s : State) (b : Nat) (hs : s0.changesOnly s ps) (hq : [.ports] ⊆ ps) : s0.changesOnly (State.sendHello s b) ps := by
  unfold State.sendHello
  repeat' first
    | with_reducible assumption
    | with_reducible apply State.onLink_only
    | with_reducible apply State.onTc_only
    | with_reducible apply ite_only
    | with_reducible apply ite_fst_only
    | with_reducible intro _
    | split
    | dsimp only
    | ((with_reducible apply only_mk) <;> first
        | with_reducible exact fun _ => rfl
        | exact fun hn => absurd (hq (by decide)) hn
        | skip)
    | exact List.Subset.trans (by decide) hq
    | refine pair_only (by assumption) ?_
    | assumption

theorem State.targetDeath_only {s0 : State} {ps : List Part} (s : State) (b : Nat) (why : Nat) (target : BitVec 16) (stages : Nat) (rs : List Req) (hs : s0.changesOnly s ps) (hq : [.pkg, .ports, .req, .coh, .ext, .tier, .xl, .cmp, .cpu, .clv, .atn, .comp, .sec, .log, .adk, .evq] ⊆ ps) : s0.changesOnly (State.targetDeath s b why target stages rs) ps := by
  unfold State.targetDeath
  repeat' first
    | with_reducible assumption
    | with_reducible apply State.event_only
    | with_reducible apply State.notice_only
    | with_reducible apply State.tagFree_only
    | with_reducible apply State.finish_only
    | with_reducible apply State.cutTray_only
    | with_reducible apply State.wakeStaged_only
    | with_reducible apply foldl_only
    | with_reducible apply foldl_fst_only
    | with_reducible apply ite_only
    | with_reducible apply ite_fst_only
    | with_reducible intro _
    | split
    | dsimp only
    | ((with_reducible apply only_mk) <;> first
        | with_reducible exact fun _ => rfl
        | exact fun hn => absurd (hq (by decide)) hn
        | skip)
    | exact List.Subset.trans (by decide) hq
    | refine pair_only (by assumption) ?_
    | assumption

theorem State.deadTarget_only {s0 : State} {ps : List Part} (s : State) (b : Nat) (why : Nat) (hs : s0.changesOnly s ps) (hq : [.free, .pkg, .ports, .req, .coh, .ext, .tier, .xl, .cmp, .cpu, .clv, .atn, .comp, .sec, .log, .adk, .evq] ⊆ ps) : s0.changesOnly (State.deadTarget s b why) ps := by
  unfold State.deadTarget
  repeat' first
    | with_reducible assumption
    | with_reducible apply State.onLink_only
    | with_reducible apply State.trayGone_only
    | with_reducible apply State.unitDomains_only
    | with_reducible apply State.memberDead_only
    | with_reducible apply State.treePortDead_only
    | with_reducible apply State.subDead_only
    | with_reducible apply State.targetDeath_only
    | with_reducible apply foldl_only
    | with_reducible apply foldl_fst_only
    | with_reducible apply ite_only
    | with_reducible apply ite_fst_only
    | with_reducible intro _
    | split
    | dsimp only
    | ((with_reducible apply only_mk) <;> first
        | with_reducible exact fun _ => rfl
        | exact fun hn => absurd (hq (by decide)) hn
        | skip)
    | exact List.Subset.trans (by decide) hq
    | refine pair_only (by assumption) ?_
    | assumption

theorem State.portDown_only {s0 : State} {ps : List Part} (s : State) (b : Nat) (cause : BitVec 8) (hs : s0.changesOnly s ps) (hq : [.free, .pkg, .ports, .req, .coh, .ext, .tier, .xl, .cmp, .cpu, .clv, .atn, .comp, .sec, .log, .adk, .evq] ⊆ ps) : s0.changesOnly (State.portDown s b cause) ps := by
  unfold State.portDown
  repeat' first
    | with_reducible assumption
    | with_reducible apply State.logWith_only
    | with_reducible apply State.onLink_only
    | with_reducible apply State.onTc_only
    | with_reducible apply State.trayGone_only
    | with_reducible apply State.deadTarget_only
    | with_reducible apply foldl_only
    | with_reducible apply foldl_fst_only
    | with_reducible apply ite_only
    | with_reducible apply ite_fst_only
    | with_reducible intro _
    | split
    | dsimp only
    | ((with_reducible apply only_mk) <;> first
        | with_reducible exact fun _ => rfl
        | exact fun hn => absurd (hq (by decide)) hn
        | skip)
    | exact List.Subset.trans (by decide) hq
    | refine pair_only (by assumption) ?_
    | assumption

theorem State.train_only {s0 : State} {ps : List Part} (s : State) (p : Nat) (hs : s0.changesOnly s ps) (hq : [.ports] ⊆ ps) : s0.changesOnly (State.train s p) ps := by
  unfold State.train
  repeat' first
    | with_reducible assumption
    | with_reducible apply State.onLink_only
    | with_reducible apply ite_only
    | with_reducible apply ite_fst_only
    | with_reducible intro _
    | split
    | dsimp only
    | ((with_reducible apply only_mk) <;> first
        | with_reducible exact fun _ => rfl
        | exact fun hn => absurd (hq (by decide)) hn
        | skip)
    | exact List.Subset.trans (by decide) hq
    | refine pair_only (by assumption) ?_
    | assumption

theorem State.relink_only {s0 : State} {ps : List Part} (s : State) (b : Nat) (cause : BitVec 8) (hs : s0.changesOnly s ps) (hq : [.free, .pkg, .ports, .req, .coh, .ext, .tier, .xl, .cmp, .cpu, .clv, .atn, .comp, .sec, .log, .adk, .evq] ⊆ ps) : s0.changesOnly (State.relink s b cause) ps := by
  unfold State.relink
  repeat' first
    | with_reducible assumption
    | with_reducible apply State.portDown_only
    | with_reducible apply State.train_only
    | with_reducible apply foldl_only
    | with_reducible apply foldl_fst_only
    | with_reducible apply ite_only
    | with_reducible apply ite_fst_only
    | with_reducible intro _
    | split
    | dsimp only
    | ((with_reducible apply only_mk) <;> first
        | with_reducible exact fun _ => rfl
        | exact fun hn => absurd (hq (by decide)) hn
        | skip)
    | exact List.Subset.trans (by decide) hq
    | refine pair_only (by assumption) ?_
    | assumption

theorem State.memberRemove_only {s0 : State} {ps : List Part} (s : State) (p : Nat) (cause : BitVec 8) (hs : s0.changesOnly s ps) (hq : [.free, .pkg, .ports, .req, .coh, .ext, .tier, .xl, .cmp, .cpu, .clv, .atn, .comp, .sec, .log, .adk, .evq] ⊆ ps) : s0.changesOnly (State.memberRemove s p cause) ps := by
  unfold State.memberRemove
  repeat' first
    | with_reducible assumption
    | with_reducible apply State.logWith_only
    | with_reducible apply State.onLink_only
    | with_reducible apply State.portDown_only
    | with_reducible apply ite_only
    | with_reducible apply ite_fst_only
    | with_reducible intro _
    | split
    | dsimp only
    | ((with_reducible apply only_mk) <;> first
        | with_reducible exact fun _ => rfl
        | exact fun hn => absurd (hq (by decide)) hn
        | skip)
    | exact List.Subset.trans (by decide) hq
    | refine pair_only (by assumption) ?_
    | assumption

theorem State.classFence_only {s0 : State} {ps : List Part} (s : State) (b : Nat) (member : Nat) (bundle : Nat) (hs : s0.changesOnly s ps) (hq : [.free, .pkg, .ports, .req, .coh, .ext, .tier, .xl, .cmp, .cpu, .clv, .atn, .comp, .sec, .log, .adk, .evq] ⊆ ps) : s0.changesOnly (State.classFence s b member bundle) ps := by
  unfold State.classFence
  repeat' first
    | with_reducible assumption
    | with_reducible apply State.event_only
    | with_reducible apply State.onLink_only
    | with_reducible apply State.deadTarget_only
    | with_reducible apply ite_only
    | with_reducible apply ite_fst_only
    | with_reducible intro _
    | split
    | dsimp only
    | ((with_reducible apply only_mk) <;> first
        | with_reducible exact fun _ => rfl
        | exact fun hn => absurd (hq (by decide)) hn
        | skip)
    | exact List.Subset.trans (by decide) hq
    | refine pair_only (by assumption) ?_
    | assumption

theorem State.cutQueues_only {s0 : State} {ps : List Part} (s : State) (b : Nat) (hs : s0.changesOnly s ps) (hq : [.pkg, .ports] ⊆ ps) : s0.changesOnly (State.cutQueues s b) ps := by
  unfold State.cutQueues
  repeat' first
    | with_reducible assumption
    | with_reducible apply State.onTc_only
    | with_reducible apply ite_only
    | with_reducible apply ite_fst_only
    | with_reducible intro _
    | split
    | dsimp only
    | ((with_reducible apply only_mk) <;> first
        | with_reducible exact fun _ => rfl
        | exact fun hn => absurd (hq (by decide)) hn
        | skip)
    | exact List.Subset.trans (by decide) hq
    | refine pair_only (by assumption) ?_
    | assumption

theorem State.leasesLost_only {s0 : State} {ps : List Part} (s : State) (b : Nat) (hs : s0.changesOnly s ps) (hq : [.free, .pkg, .ports, .req, .coh, .ext, .lse, .xl, .cpu, .clv, .comp, .sec, .log, .adk, .evq] ⊆ ps) : s0.changesOnly (State.leasesLost s b) ps := by
  unfold State.leasesLost
  repeat' first
    | with_reducible assumption
    | with_reducible apply State.revokeAll_only
    | with_reducible apply State.expireLease_only
    | with_reducible apply foldl_only
    | with_reducible apply foldl_fst_only
    | with_reducible apply ite_only
    | with_reducible apply ite_fst_only
    | with_reducible intro _
    | split
    | dsimp only
    | ((with_reducible apply only_mk) <;> first
        | with_reducible exact fun _ => rfl
        | exact fun hn => absurd (hq (by decide)) hn
        | skip)
    | exact List.Subset.trans (by decide) hq
    | refine pair_only (by assumption) ?_
    | assumption

theorem State.peerChange_only {s0 : State} {ps : List Part} (s : State) (b : Nat) (hs : s0.changesOnly s ps) (hq : [.free, .pkg, .ports, .req, .coh, .ext, .lse, .tier, .xl, .cmp, .cpu, .clv, .atn, .comp, .sec, .log, .adk, .evq] ⊆ ps) : s0.changesOnly (State.peerChange s b) ps := by
  unfold State.peerChange
  repeat' first
    | with_reducible assumption
    | with_reducible apply State.event_only
    | with_reducible apply State.onLink_only
    | with_reducible apply State.trayRetired_only
    | with_reducible apply State.deadTarget_only
    | with_reducible apply State.cutQueues_only
    | with_reducible apply State.leasesLost_only
    | with_reducible apply ite_only
    | with_reducible apply ite_fst_only
    | with_reducible intro _
    | split
    | dsimp only
    | ((with_reducible apply only_mk) <;> first
        | with_reducible exact fun _ => rfl
        | exact fun hn => absurd (hq (by decide)) hn
        | skip)
    | exact List.Subset.trans (by decide) hq
    | refine pair_only (by assumption) ?_
    | assumption

theorem State.portOpen_only {s0 : State} {ps : List Part} (s : State) (b : Nat) (hs : s0.changesOnly s ps) (hq : [.pkg, .ports, .tier, .clv, .log, .adk, .evq] ⊆ ps) : s0.changesOnly (State.portOpen s b) ps := by
  unfold State.portOpen
  repeat' first
    | with_reducible assumption
    | with_reducible apply State.onLink_only
    | with_reducible apply State.countPrt_only
    | with_reducible apply State.trayPortOpen_only
    | with_reducible apply State.memberBack_only
    | with_reducible apply foldl_only
    | with_reducible apply foldl_fst_only
    | with_reducible apply ite_only
    | with_reducible apply ite_fst_only
    | with_reducible intro _
    | split
    | dsimp only
    | ((with_reducible apply only_mk) <;> first
        | with_reducible exact fun _ => rfl
        | exact fun hn => absurd (hq (by decide)) hn
        | skip)
    | exact List.Subset.trans (by decide) hq
    | refine pair_only (by assumption) ?_
    | assumption

theorem State.linkAccept_only {s0 : State} {ps : List Part} (s : State) (p : Nat) (vc : BitVec 3) (cost : Nat) (hs : s0.changesOnly s ps) (hq : [.free, .pkg, .ports, .req, .coh, .ext, .tier, .xl, .cmp, .cpu, .clv, .atn, .comp, .sec, .log, .adk, .evq] ⊆ ps) : s0.changesOnly (State.linkAccept s p vc cost).1 ps := by
  unfold State.linkAccept
  repeat' first
    | with_reducible assumption
    | with_reducible apply State.onLink_only
    | with_reducible apply State.relink_only
    | with_reducible apply ite_only
    | with_reducible apply ite_fst_only
    | with_reducible intro _
    | split
    | dsimp only
    | ((with_reducible apply only_mk) <;> first
        | with_reducible exact fun _ => rfl
        | exact fun hn => absurd (hq (by decide)) hn
        | skip)
    | exact List.Subset.trans (by decide) hq
    | refine pair_only (by assumption) ?_
    | assumption

theorem State.onHello_only {s0 : State} {ps : List Part} (s : State) (b : Nat) (f : Frame) (hs : s0.changesOnly s ps) (hq : [.free, .pkg, .ports, .req, .coh, .ext, .lse, .tier, .xl, .cmp, .cpu, .clv, .atn, .comp, .sec, .log, .adk, .evq] ⊆ ps) : s0.changesOnly (State.onHello s b f) ps := by
  unfold State.onHello
  repeat' first
    | with_reducible assumption
    | with_reducible apply State.onLink_only
    | with_reducible apply State.classFence_only
    | with_reducible apply State.peerChange_only
    | with_reducible apply State.portOpen_only
    | with_reducible apply ite_only
    | with_reducible apply ite_fst_only
    | with_reducible intro _
    | split
    | dsimp only
    | ((with_reducible apply only_mk) <;> first
        | with_reducible exact fun _ => rfl
        | exact fun hn => absurd (hq (by decide)) hn
        | skip)
    | exact List.Subset.trans (by decide) hq
    | refine pair_only (by assumption) ?_
    | assumption

theorem State.helloAlone_only {s0 : State} {ps : List Part} (s : State) (p : Nat) (f : Frame) (hs : s0.changesOnly s ps) (hq : [.ports, .adk, .evq] ⊆ ps) : s0.changesOnly (State.helloAlone s p f) ps := by
  unfold State.helloAlone
  repeat' first
    | with_reducible assumption
    | with_reducible apply State.event_only
    | with_reducible apply State.onLink_only
    | with_reducible apply ite_only
    | with_reducible apply ite_fst_only
    | with_reducible intro _
    | split
    | dsimp only
    | ((with_reducible apply only_mk) <;> first
        | with_reducible exact fun _ => rfl
        | exact fun hn => absurd (hq (by decide)) hn
        | skip)
    | exact List.Subset.trans (by decide) hq
    | refine pair_only (by assumption) ?_
    | assumption

theorem State.soloHello_only {s0 : State} {ps : List Part} (s : State) (p : Nat) (hs : s0.changesOnly s ps) (hq : [.ports] ⊆ ps) : s0.changesOnly (State.soloHello s p) ps := by
  unfold State.soloHello
  repeat' first
    | with_reducible assumption
    | with_reducible apply State.onLink_only
    | with_reducible apply ite_only
    | with_reducible apply ite_fst_only
    | with_reducible intro _
    | split
    | dsimp only
    | ((with_reducible apply only_mk) <;> first
        | with_reducible exact fun _ => rfl
        | exact fun hn => absurd (hq (by decide)) hn
        | skip)
    | exact List.Subset.trans (by decide) hq
    | refine pair_only (by assumption) ?_
    | assumption

theorem execHello_only {s0 : State} {ps : List Part} (port : BitVec 8) (frame : Frame) (s : State) (hs : s0.changesOnly s ps) (hq : [.free, .pkg, .ports, .req, .coh, .ext, .lse, .tier, .xl, .cmp, .cpu, .clv, .atn, .comp, .sec, .log, .adk, .evq] ⊆ ps) : onlyNext s0 (execHello port frame s) ps := by
  unfold execHello
  repeat' first
    | with_reducible assumption
    | with_reducible apply State.countPrt_only
    | with_reducible apply State.linkAccept_only
    | with_reducible apply State.onHello_only
    | with_reducible apply State.helloAlone_only
    | with_reducible apply ite_only
    | with_reducible apply ite_fst_only
    | with_reducible apply next_only
    | with_reducible intro _
    | split
    | dsimp only
    | ((with_reducible apply only_mk) <;> first
        | with_reducible exact fun _ => rfl
        | exact fun hn => absurd (hq (by decide)) hn
        | skip)
    | exact List.Subset.trans (by decide) hq
    | refine pair_only (by assumption) ?_
    | assumption

theorem execHelloPeriodTimer_only {s0 : State} {ps : List Part} (port : BitVec 8) (s : State) (hs : s0.changesOnly s ps) (hq : [.ports] ⊆ ps) : onlyNext s0 (execHelloPeriodTimer port s) ps := by
  unfold execHelloPeriodTimer
  repeat' first
    | with_reducible assumption
    | with_reducible apply State.sendHello_only
    | with_reducible apply State.soloHello_only
    | with_reducible apply ite_only
    | with_reducible apply ite_fst_only
    | with_reducible apply next_only
    | with_reducible intro _
    | split
    | dsimp only
    | ((with_reducible apply only_mk) <;> first
        | with_reducible exact fun _ => rfl
        | exact fun hn => absurd (hq (by decide)) hn
        | skip)
    | exact List.Subset.trans (by decide) hq
    | refine pair_only (by assumption) ?_
    | assumption

theorem execHelloSilenceTimeout_only {s0 : State} {ps : List Part} (port : BitVec 8) (s : State) (hs : s0.changesOnly s ps) (hq : [.free, .pkg, .ports, .req, .coh, .ext, .tier, .xl, .cmp, .cpu, .clv, .atn, .comp, .sec, .log, .adk, .evq] ⊆ ps) : onlyNext s0 (execHelloSilenceTimeout port s) ps := by
  unfold execHelloSilenceTimeout
  repeat' first
    | with_reducible assumption
    | with_reducible apply State.train_only
    | with_reducible apply State.relink_only
    | with_reducible apply State.memberRemove_only
    | with_reducible apply ite_only
    | with_reducible apply ite_fst_only
    | with_reducible apply next_only
    | with_reducible intro _
    | split
    | dsimp only
    | ((with_reducible apply only_mk) <;> first
        | with_reducible exact fun _ => rfl
        | exact fun hn => absurd (hq (by decide)) hn
        | skip)
    | exact List.Subset.trans (by decide) hq
    | refine pair_only (by assumption) ?_
    | assumption

theorem execSignalPresent_only {s0 : State} {ps : List Part} (port : BitVec 8) (s : State) (hs : s0.changesOnly s ps) (hq : [.ports] ⊆ ps) : onlyNext s0 (execSignalPresent port s) ps := by
  unfold execSignalPresent
  repeat' first
    | with_reducible assumption
    | with_reducible apply State.onLink_only
    | with_reducible apply State.train_only
    | with_reducible apply ite_only
    | with_reducible apply ite_fst_only
    | with_reducible apply next_only
    | with_reducible intro _
    | split
    | dsimp only
    | ((with_reducible apply only_mk) <;> first
        | with_reducible exact fun _ => rfl
        | exact fun hn => absurd (hq (by decide)) hn
        | skip)
    | exact List.Subset.trans (by decide) hq
    | refine pair_only (by assumption) ?_
    | assumption

theorem execLossOfSignal_only {s0 : State} {ps : List Part} (port : BitVec 8) (lock : Bool) (s : State) (hs : s0.changesOnly s ps) (hq : [.free, .pkg, .ports, .req, .coh, .ext, .tier, .xl, .cmp, .cpu, .clv, .atn, .comp, .sec, .log, .adk, .evq] ⊆ ps) : onlyNext s0 (execLossOfSignal port lock s) ps := by
  unfold execLossOfSignal
  repeat' first
    | with_reducible assumption
    | with_reducible apply State.onLink_only
    | with_reducible apply State.portDown_only
    | with_reducible apply State.train_only
    | with_reducible apply State.relink_only
    | with_reducible apply State.memberRemove_only
    | with_reducible apply ite_only
    | with_reducible apply ite_fst_only
    | with_reducible apply next_only
    | with_reducible intro _
    | split
    | dsimp only
    | ((with_reducible apply only_mk) <;> first
        | with_reducible exact fun _ => rfl
        | exact fun hn => absurd (hq (by decide)) hn
        | skip)
    | exact List.Subset.trans (by decide) hq
    | refine pair_only (by assumption) ?_
    | assumption

theorem State.enterInit_only {s0 : State} {ps : List Part} (s : State) (b : Nat) (hs : s0.changesOnly s ps) (hq : [.ports] ⊆ ps) : s0.changesOnly (State.enterInit s b) ps := by
  unfold State.enterInit
  repeat' first
    | with_reducible assumption
    | with_reducible apply State.onLink_only
    | with_reducible apply State.sendLcw_only
    | with_reducible apply ite_only
    | with_reducible apply ite_fst_only
    | with_reducible intro _
    | split
    | dsimp only
    | ((with_reducible apply only_mk) <;> first
        | with_reducible exact fun _ => rfl
        | exact fun hn => absurd (hq (by decide)) hn
        | skip)
    | exact List.Subset.trans (by decide) hq
    | refine pair_only (by assumption) ?_
    | assumption

theorem execTrainingComplete_only {s0 : State} {ps : List Part} (port : BitVec 8) (s : State) (hs : s0.changesOnly s ps) (hq : [.ports] ⊆ ps) : onlyNext s0 (execTrainingComplete port s) ps := by
  unfold execTrainingComplete
  repeat' first
    | with_reducible assumption
    | with_reducible apply State.onLink_only
    | with_reducible apply State.sendLcw_only
    | with_reducible apply State.enterInit_only
    | with_reducible apply ite_only
    | with_reducible apply ite_fst_only
    | with_reducible apply next_only
    | with_reducible intro _
    | split
    | dsimp only
    | ((with_reducible apply only_mk) <;> first
        | with_reducible exact fun _ => rfl
        | exact fun hn => absurd (hq (by decide)) hn
        | skip)
    | exact List.Subset.trans (by decide) hq
    | refine pair_only (by assumption) ?_
    | assumption

theorem execTrainingAttemptTimeout_only {s0 : State} {ps : List Part} (port : BitVec 8) (s : State) (hs : s0.changesOnly s ps) (hq : [.ports] ⊆ ps) : onlyNext s0 (execTrainingAttemptTimeout port s) ps := by
  unfold execTrainingAttemptTimeout
  repeat' first
    | with_reducible assumption
    | with_reducible apply State.onLink_only
    | with_reducible apply State.train_only
    | with_reducible apply ite_only
    | with_reducible apply ite_fst_only
    | with_reducible apply next_only
    | with_reducible intro _
    | split
    | dsimp only
    | ((with_reducible apply only_mk) <;> first
        | with_reducible exact fun _ => rfl
        | exact fun hn => absurd (hq (by decide)) hn
        | skip)
    | exact List.Subset.trans (by decide) hq
    | refine pair_only (by assumption) ?_
    | assumption

theorem execLcwInit_only {s0 : State} {ps : List Part} (port : BitVec 8) (word : Lcw) (s : State) (hs : s0.changesOnly s ps) (hq : [.ports, .adk, .evq] ⊆ ps) : onlyNext s0 (execLcwInit port word s) ps := by
  unfold execLcwInit
  repeat' first
    | with_reducible assumption
    | with_reducible apply State.event_only
    | with_reducible apply State.onLink_only
    | with_reducible apply State.sendHello_only
    | with_reducible apply State.soloHello_only
    | with_reducible apply ite_only
    | with_reducible apply ite_fst_only
    | with_reducible apply next_only
    | with_reducible intro _
    | split
    | dsimp only
    | ((with_reducible apply only_mk) <;> first
        | with_reducible exact fun _ => rfl
        | exact fun hn => absurd (hq (by decide)) hn
        | skip)
    | exact List.Subset.trans (by decide) hq
    | refine pair_only (by assumption) ?_
    | assumption

theorem State.onLcw_only {s0 : State} {ps : List Part} (s : State) (b : Nat) (w : Lcw) (hs : s0.changesOnly s ps) (hq : [.ports] ⊆ ps) : s0.changesOnly (State.onLcw s b w) ps := by
  unfold State.onLcw
  repeat' first
    | with_reducible assumption
    | with_reducible apply State.onLink_only
    | with_reducible apply ite_only
    | with_reducible apply ite_fst_only
    | with_reducible intro _
    | split
    | dsimp only
    | ((with_reducible apply only_mk) <;> first
        | with_reducible exact fun _ => rfl
        | exact fun hn => absurd (hq (by decide)) hn
        | skip)
    | exact List.Subset.trans (by decide) hq
    | refine pair_only (by assumption) ?_
    | assumption

theorem execLcwNormal_only {s0 : State} {ps : List Part} (port : BitVec 8) (word : Lcw) (s : State) (hs : s0.changesOnly s ps) (hq : [.ports] ⊆ ps) : onlyNext s0 (execLcwNormal port word s) ps := by
  unfold execLcwNormal
  repeat' first
    | with_reducible assumption
    | with_reducible apply State.onLcw_only
    | with_reducible apply ite_only
    | with_reducible apply ite_fst_only
    | with_reducible apply next_only
    | with_reducible intro _
    | split
    | dsimp only
    | ((with_reducible apply only_mk) <;> first
        | with_reducible exact fun _ => rfl
        | exact fun hn => absurd (hq (by decide)) hn
        | skip)
    | exact List.Subset.trans (by decide) hq
    | refine pair_only (by assumption) ?_
    | assumption

theorem State.replayFrames_only {s0 : State} {ps : List Part} (s : State) (b : Nat) (hs : s0.changesOnly s ps) (hq : [.free, .pkg, .ports, .req, .coh, .ext, .tier, .xl, .cmp, .cpu, .clv, .atn, .comp, .sec, .log, .adk, .evq] ⊆ ps) : s0.changesOnly (State.replayFrames s b) ps := by
  unfold State.replayFrames
  repeat' first
    | with_reducible assumption
    | with_reducible apply State.onLink_only
    | with_reducible apply State.countPrt_only
    | with_reducible apply State.relink_only
    | with_reducible apply ite_only
    | with_reducible apply ite_fst_only
    | with_reducible intro _
    | split
    | dsimp only
    | ((with_reducible apply only_mk) <;> first
        | with_reducible exact fun _ => rfl
        | exact fun hn => absurd (hq (by decide)) hn
        | skip)
    | exact List.Subset.trans (by decide) hq
    | refine pair_only (by assumption) ?_
    | assumption

theorem execLcwNak_only {s0 : State} {ps : List Part} (port : BitVec 8) (word : Lcw) (s : State) (hs : s0.changesOnly s ps) (hq : [.free, .pkg, .ports, .req, .coh, .ext, .tier, .xl, .cmp, .cpu, .clv, .atn, .comp, .sec, .log, .adk, .evq] ⊆ ps) : onlyNext s0 (execLcwNak port word s) ps := by
  unfold execLcwNak
  repeat' first
    | with_reducible assumption
    | with_reducible apply State.onLcw_only
    | with_reducible apply State.replayFrames_only
    | with_reducible apply ite_only
    | with_reducible apply ite_fst_only
    | with_reducible apply next_only
    | with_reducible intro _
    | split
    | dsimp only
    | ((with_reducible apply only_mk) <;> first
        | with_reducible exact fun _ => rfl
        | exact fun hn => absurd (hq (by decide)) hn
        | skip)
    | exact List.Subset.trans (by decide) hq
    | refine pair_only (by assumption) ?_
    | assumption

theorem execReplayTimeout_only {s0 : State} {ps : List Part} (port : BitVec 8) (s : State) (hs : s0.changesOnly s ps) (hq : [.free, .pkg, .ports, .req, .coh, .ext, .tier, .xl, .cmp, .cpu, .clv, .atn, .comp, .sec, .log, .adk, .evq] ⊆ ps) : onlyNext s0 (execReplayTimeout port s) ps := by
  unfold execReplayTimeout
  repeat' first
    | with_reducible assumption
    | with_reducible apply State.replayFrames_only
    | with_reducible apply ite_only
    | with_reducible apply ite_fst_only
    | with_reducible apply next_only
    | with_reducible intro _
    | split
    | dsimp only
    | ((with_reducible apply only_mk) <;> first
        | with_reducible exact fun _ => rfl
        | exact fun hn => absurd (hq (by decide)) hn
        | skip)
    | exact List.Subset.trans (by decide) hq
    | refine pair_only (by assumption) ?_
    | assumption

theorem execLcwSendTimer_only {s0 : State} {ps : List Part} (port : BitVec 8) (s : State) (hs : s0.changesOnly s ps) (hq : [.ports] ⊆ ps) : onlyNext s0 (execLcwSendTimer port s) ps := by
  unfold execLcwSendTimer
  repeat' first
    | with_reducible assumption
    | with_reducible apply State.sendLcw_only
    | with_reducible apply ite_only
    | with_reducible apply ite_fst_only
    | with_reducible apply next_only
    | with_reducible intro _
    | split
    | dsimp only
    | ((with_reducible apply only_mk) <;> first
        | with_reducible exact fun _ => rfl
        | exact fun hn => absurd (hq (by decide)) hn
        | skip)
    | exact List.Subset.trans (by decide) hq
    | refine pair_only (by assumption) ?_
    | assumption

theorem execFrameLinkReject_only {s0 : State} {ps : List Part} (port : BitVec 8) (frame : Frame) (lseq : BitVec 12) (crc : BitVec 32) (fec : Bool) (s : State) (hs : s0.changesOnly s ps) (hq : [.ports, .adk, .evq] ⊆ ps) : onlyNext s0 (execFrameLinkReject port frame lseq crc fec s) ps := by
  unfold execFrameLinkReject
  repeat' first
    | with_reducible assumption
    | with_reducible apply State.onLink_only
    | with_reducible apply State.countPrt_only
    | with_reducible apply State.sendLcw_only
    | with_reducible apply ite_only
    | with_reducible apply ite_fst_only
    | with_reducible apply next_only
    | with_reducible intro _
    | split
    | dsimp only
    | ((with_reducible apply only_mk) <;> first
        | with_reducible exact fun _ => rfl
        | exact fun hn => absurd (hq (by decide)) hn
        | skip)
    | exact List.Subset.trans (by decide) hq
    | refine pair_only (by assumption) ?_
    | assumption

theorem execHcrcDiscard_only {s0 : State} {ps : List Part} (port : BitVec 8) (frame : Frame) (hcrc : BitVec 16) (s : State) (hs : s0.changesOnly s ps) (hq : [.free, .pkg, .ports, .req, .coh, .ext, .tier, .xl, .cmp, .cpu, .clv, .atn, .comp, .sec, .log, .adk, .evq] ⊆ ps) : onlyNext s0 (execHcrcDiscard port frame hcrc s) ps := by
  unfold execHcrcDiscard
  repeat' first
    | with_reducible assumption
    | with_reducible apply State.logE_only
    | with_reducible apply State.onLink_only
    | with_reducible apply State.countPrt_only
    | with_reducible apply State.linkAccept_only
    | with_reducible apply ite_only
    | with_reducible apply ite_fst_only
    | with_reducible apply next_only
    | with_reducible intro _
    | split
    | dsimp only
    | ((with_reducible apply only_mk) <;> first
        | with_reducible exact fun _ => rfl
        | exact fun hn => absurd (hq (by decide)) hn
        | skip)
    | exact List.Subset.trans (by decide) hq
    | refine pair_only (by assumption) ?_
    | assumption

theorem execBundleSkewTimeout_only {s0 : State} {ps : List Part} (port : BitVec 8) (s : State) (hs : s0.changesOnly s ps) (hq : [.free, .pkg, .ports, .req, .coh, .ext, .tier, .xl, .cmp, .cpu, .clv, .atn, .comp, .sec, .log, .adk, .evq] ⊆ ps) : onlyNext s0 (execBundleSkewTimeout port s) ps := by
  unfold execBundleSkewTimeout
  repeat' first
    | with_reducible assumption
    | with_reducible apply State.train_only
    | with_reducible apply State.memberRemove_only
    | with_reducible apply ite_only
    | with_reducible apply ite_fst_only
    | with_reducible apply next_only
    | with_reducible intro _
    | split
    | dsimp only
    | ((with_reducible apply only_mk) <;> first
        | with_reducible exact fun _ => rfl
        | exact fun hn => absurd (hq (by decide)) hn
        | skip)
    | exact List.Subset.trans (by decide) hq
    | refine pair_only (by assumption) ?_
    | assumption

theorem State.prtPeer_only {s0 : State} {ps : List Part} (s : State) (p : Nat) (v : BitVec 64) (hs : s0.changesOnly s ps) (hq : [.free, .pkg, .ports, .req, .coh, .ext, .tier, .xl, .cmp, .cpu, .clv, .atn, .comp, .sec, .log, .adk, .evq] ⊆ ps) : s0.changesOnly (State.prtPeer s p v).1 ps := by
  unfold State.prtPeer
  repeat' first
    | with_reducible assumption
    | with_reducible apply State.onLink_only
    | with_reducible apply State.relink_only
    | with_reducible apply State.portOpen_only
    | with_reducible apply ite_only
    | with_reducible apply ite_fst_only
    | with_reducible intro _
    | split
    | dsimp only
    | ((with_reducible apply only_mk) <;> first
        | with_reducible exact fun _ => rfl
        | exact fun hn => absurd (hq (by decide)) hn
        | skip)
    | exact List.Subset.trans (by decide) hq
    | refine pair_only (by assumption) ?_
    | assumption

theorem State.prtCfg_only {s0 : State} {ps : List Part} (s : State) (p : Nat) (v : BitVec 64) (hs : s0.changesOnly s ps) (hq : [.ports] ⊆ ps) : s0.changesOnly (State.prtCfg s p v).1 ps := by
  unfold State.prtCfg
  repeat' first
    | with_reducible assumption
    | with_reducible apply State.onLink_only
    | with_reducible apply ite_only
    | with_reducible apply ite_fst_only
    | with_reducible intro _
    | split
    | dsimp only
    | ((with_reducible apply only_mk) <;> first
        | with_reducible exact fun _ => rfl
        | exact fun hn => absurd (hq (by decide)) hn
        | skip)
    | exact List.Subset.trans (by decide) hq
    | refine pair_only (by assumption) ?_
    | assumption

theorem execPrtPeerRetrain_only {s0 : State} {ps : List Part} (tag : BitVec 16) (port : BitVec 8) (s : State) (hs : s0.changesOnly s ps) (hq : [.free, .pkg, .ports, .req, .coh, .ext, .tier, .xl, .cmp, .cpu, .clv, .atn, .comp, .sec, .log, .adk, .evq] ⊆ ps) : onlyNext s0 (execPrtPeerRetrain tag port s) ps := by
  unfold execPrtPeerRetrain
  repeat' first
    | with_reducible assumption
    | with_reducible apply State.adkWr_only
    | with_reducible apply State.prtPeer_only
    | with_reducible apply ite_only
    | with_reducible apply ite_fst_only
    | with_reducible apply next_only
    | with_reducible intro _
    | split
    | dsimp only
    | ((with_reducible apply only_mk) <;> first
        | with_reducible exact fun _ => rfl
        | exact fun hn => absurd (hq (by decide)) hn
        | skip)
    | exact List.Subset.trans (by decide) hq
    | refine pair_only (by assumption) ?_
    | assumption

theorem execPrtPeerAck_only {s0 : State} {ps : List Part} (tag : BitVec 16) (port : BitVec 8) (s : State) (hs : s0.changesOnly s ps) (hq : [.free, .pkg, .ports, .req, .coh, .ext, .tier, .xl, .cmp, .cpu, .clv, .atn, .comp, .sec, .log, .adk, .evq] ⊆ ps) : onlyNext s0 (execPrtPeerAck tag port s) ps := by
  unfold execPrtPeerAck
  repeat' first
    | with_reducible assumption
    | with_reducible apply State.adkWr_only
    | with_reducible apply State.prtPeer_only
    | with_reducible apply ite_only
    | with_reducible apply ite_fst_only
    | with_reducible apply next_only
    | with_reducible intro _
    | split
    | dsimp only
    | ((with_reducible apply only_mk) <;> first
        | with_reducible exact fun _ => rfl
        | exact fun hn => absurd (hq (by decide)) hn
        | skip)
    | exact List.Subset.trans (by decide) hq
    | refine pair_only (by assumption) ?_
    | assumption

theorem execTargetLimitExpiry_only {s0 : State} {ps : List Part} (port : BitVec 8) (s : State) (hs : s0.changesOnly s ps) (hq : [.free, .pkg, .ports, .req, .coh, .ext, .tier, .xl, .cmp, .cpu, .clv, .atn, .comp, .sec, .log, .adk, .evq] ⊆ ps) : onlyNext s0 (execTargetLimitExpiry port s) ps := by
  unfold execTargetLimitExpiry
  repeat' first
    | with_reducible assumption
    | with_reducible apply State.deadTarget_only
    | with_reducible apply ite_only
    | with_reducible apply ite_fst_only
    | with_reducible apply next_only
    | with_reducible intro _
    | split
    | dsimp only
    | ((with_reducible apply only_mk) <;> first
        | with_reducible exact fun _ => rfl
        | exact fun hn => absurd (hq (by decide)) hn
        | skip)
    | exact List.Subset.trans (by decide) hq
    | refine pair_only (by assumption) ?_
    | assumption

theorem State.unanswered_only {s0 : State} {ps : List Part} (s : State) (r : Req) (hs : s0.changesOnly s ps) (hq : [.pkg, .ports, .req, .coh, .ext, .tier, .xl, .cmp, .cpu, .clv, .atn, .comp, .sec, .log, .adk, .evq] ⊆ ps) : s0.changesOnly (State.unanswered s r) ps := by
  unfold State.unanswered
  repeat' first
    | with_reducible assumption
    | with_reducible apply State.targetDeath_only
    | with_reducible apply ite_only
    | with_reducible apply ite_fst_only
    | with_reducible intro _
    | split
    | dsimp only
    | ((with_reducible apply only_mk) <;> first
        | with_reducible exact fun _ => rfl
        | exact fun hn => absurd (hq (by decide)) hn
        | skip)
    | exact List.Subset.trans (by decide) hq
    | refine pair_only (by assumption) ?_
    | assumption

theorem State.untimed_only {s0 : State} {ps : List Part} (s : State) (q : TrayReq) (hs : s0.changesOnly s ps) (hq : [.tier] ⊆ ps) : s0.changesOnly (State.untimed s q) ps := by
  unfold State.untimed
  repeat' first
    | with_reducible assumption
    | with_reducible apply ite_only
    | with_reducible apply ite_fst_only
    | with_reducible intro _
    | split
    | dsimp only
    | ((with_reducible apply only_mk) <;> first
        | with_reducible exact fun _ => rfl
        | exact fun hn => absurd (hq (by decide)) hn
        | skip)
    | exact List.Subset.trans (by decide) hq
    | refine pair_only (by assumption) ?_
    | assumption

theorem execRequestTimerExpiry_only {s0 : State} {ps : List Part} (n : Nat) (s : State) (hs : s0.changesOnly s ps) (hq : [.pkg, .ports, .req, .coh, .ext, .tier, .xl, .cmp, .cpu, .clv, .atn, .comp, .sec, .log, .adk, .evq] ⊆ ps) : onlyNext s0 (execRequestTimerExpiry n s) ps := by
  unfold execRequestTimerExpiry
  repeat' first
    | with_reducible assumption
    | with_reducible apply State.trayAnswer_only
    | with_reducible apply State.subDead_only
    | with_reducible apply State.targetDeath_only
    | with_reducible apply State.unanswered_only
    | with_reducible apply State.untimed_only
    | with_reducible apply ite_only
    | with_reducible apply ite_fst_only
    | with_reducible apply next_only
    | with_reducible intro _
    | split
    | dsimp only
    | ((with_reducible apply only_mk) <;> first
        | with_reducible exact fun _ => rfl
        | exact fun hn => absurd (hq (by decide)) hn
        | skip)
    | exact List.Subset.trans (by decide) hq
    | refine pair_only (by assumption) ?_
    | assumption

theorem execBackstopTimerExpiry_only {s0 : State} {ps : List Part} (n : Nat) (s : State) (hs : s0.changesOnly s ps) (hq : [.pkg, .ports, .req, .coh, .ext, .tier, .xl, .cmp, .cpu, .clv, .atn, .comp, .sec, .log, .adk, .evq] ⊆ ps) : onlyNext s0 (execBackstopTimerExpiry n s) ps := by
  unfold execBackstopTimerExpiry
  repeat' first
    | with_reducible assumption
    | with_reducible apply State.unanswered_only
    | with_reducible apply ite_only
    | with_reducible apply ite_fst_only
    | with_reducible apply next_only
    | with_reducible intro _
    | split
    | dsimp only
    | ((with_reducible apply only_mk) <;> first
        | with_reducible exact fun _ => rfl
        | exact fun hn => absurd (hq (by decide)) hn
        | skip)
    | exact List.Subset.trans (by decide) hq
    | refine pair_only (by assumption) ?_
    | assumption

theorem State.rateHeld_only {s0 : State} {ps : List Part} (s : State) (b : Nat) (hs : s0.changesOnly s ps) (hq : [.ports, .log, .adk, .evq] ⊆ ps) : s0.changesOnly (State.rateHeld s b) ps := by
  unfold State.rateHeld
  repeat' first
    | with_reducible assumption
    | with_reducible apply State.logE_only
    | with_reducible apply State.onTc_only
    | with_reducible apply ite_only
    | with_reducible apply ite_fst_only
    | with_reducible intro _
    | split
    | dsimp only
    | ((with_reducible apply only_mk) <;> first
        | with_reducible exact fun _ => rfl
        | exact fun hn => absurd (hq (by decide)) hn
        | skip)
    | exact List.Subset.trans (by decide) hq
    | refine pair_only (by assumption) ?_
    | assumption

theorem State.rateDecrease_only {s0 : State} {ps : List Part} (s : State) (b : Nat) (hs : s0.changesOnly s ps) (hq : [.ports, .log, .adk, .evq] ⊆ ps) : s0.changesOnly (State.rateDecrease s b) ps := by
  unfold State.rateDecrease
  repeat' first
    | with_reducible assumption
    | with_reducible apply State.onTc_only
    | with_reducible apply State.rateHeld_only
    | with_reducible apply ite_only
    | with_reducible apply ite_fst_only
    | with_reducible intro _
    | split
    | dsimp only
    | ((with_reducible apply only_mk) <;> first
        | with_reducible exact fun _ => rfl
        | exact fun hn => absurd (hq (by decide)) hn
        | skip)
    | exact List.Subset.trans (by decide) hq
    | refine pair_only (by assumption) ?_
    | assumption

theorem State.laneTake_only {s0 : State} {ps : List Part} (s : State) (p : Nat) (queue : Option Nat) (seq : BitVec 12) (f : Frame) (hs : s0.changesOnly s ps) (hq : [.ports] ⊆ ps) : s0.changesOnly (State.laneTake s p queue seq f) ps := by
  unfold State.laneTake
  repeat' first
    | with_reducible assumption
    | with_reducible apply State.onTc_only
    | with_reducible apply ite_only
    | with_reducible apply ite_fst_only
    | with_reducible intro _
    | split
    | dsimp only
    | ((with_reducible apply only_mk) <;> first
        | with_reducible exact fun _ => rfl
        | exact fun hn => absurd (hq (by decide)) hn
        | skip)
    | exact List.Subset.trans (by decide) hq
    | refine pair_only (by assumption) ?_
    | assumption

theorem State.transmit_only {s0 : State} {ps : List Part} (s : State) (p : Nat) (queue : Option Nat) (f : Frame) (hs : s0.changesOnly s ps) (hq : [.ports] ⊆ ps) : s0.changesOnly (State.transmit s p queue f) ps := by
  unfold State.transmit
  repeat' first
    | with_reducible assumption
    | with_reducible apply State.onLink_only
    | with_reducible apply State.laneTake_only
    | with_reducible apply ite_only
    | with_reducible apply ite_fst_only
    | with_reducible intro _
    | split
    | dsimp only
    | ((with_reducible apply only_mk) <;> first
        | with_reducible exact fun _ => rfl
        | exact fun hn => absurd (hq (by decide)) hn
        | skip)
    | exact List.Subset.trans (by decide) hq
    | refine pair_only (by assumption) ?_
    | assumption

theorem State.egressQueue_only {s0 : State} {ps : List Part} (s : State) (b : Nat) (p : Nat) (hs : s0.changesOnly s ps) (hq : [.ports, .cmp, .adk, .evq] ⊆ ps) : s0.changesOnly (State.egressQueue s b p) ps := by
  unfold State.egressQueue
  repeat' first
    | with_reducible assumption
    | with_reducible apply State.onTc_only
    | with_reducible apply State.onQueue_only
    | with_reducible apply State.countQue_only
    | with_reducible apply State.chargeMeter_only
    | with_reducible apply State.egressForm_only
    | with_reducible apply State.transmit_only
    | with_reducible apply ite_only
    | with_reducible apply ite_fst_only
    | with_reducible intro _
    | split
    | dsimp only
    | ((with_reducible apply only_mk) <;> first
        | with_reducible exact fun _ => rfl
        | exact fun hn => absurd (hq (by decide)) hn
        | skip)
    | exact List.Subset.trans (by decide) hq
    | refine pair_only (by assumption) ?_
    | assumption

theorem execEgressFrameStart_only {s0 : State} {ps : List Part} (port : BitVec 8) (s : State) (hs : s0.changesOnly s ps) (hq : [.ports, .cmp, .adk, .evq] ⊆ ps) : onlyNext s0 (execEgressFrameStart port s) ps := by
  unfold execEgressFrameStart
  repeat' first
    | with_reducible assumption
    | with_reducible apply State.onLink_only
    | with_reducible apply State.onTc_only
    | with_reducible apply State.laneTake_only
    | with_reducible apply State.transmit_only
    | with_reducible apply State.egressQueue_only
    | with_reducible apply ite_only
    | with_reducible apply ite_fst_only
    | with_reducible apply next_only
    | with_reducible intro _
    | split
    | dsimp only
    | ((with_reducible apply only_mk) <;> first
        | with_reducible exact fun _ => rfl
        | exact fun hn => absurd (hq (by decide)) hn
        | skip)
    | exact List.Subset.trans (by decide) hq
    | refine pair_only (by assumption) ?_
    | assumption

end Sys2Proof.Machine
end

