-- ==== Sys2Proof/Laws/OnlyErrors.lean ====
section
/-! SUPPORT. What every operation of Errors leaves alone. -/

set_option linter.unusedTactic false
set_option linter.unreachableTactic false
set_option linter.unusedVariables false

namespace Sys2Proof.Machine

theorem State.ceNote_only {s0 : State} {ps : List Part} (s : State) (k : Nat) (hs : s0.changesOnly s ps) (hq : [.log] ⊆ ps) : s0.changesOnly (State.ceNote s k) ps := by
  unfold State.ceNote
  repeat' first
    | with_reducible assumption
    | with_reducible apply ite_only
    | with_reducible apply ite_fst_only
    | with_reducible intro _
    | split
    | dsimp only
    | ((with_reducible apply only_mk) <;> first
        | with_reducible exact fun _ => rfl
        | exact fun hn => absurd (hq (by decide)) hn
        | skip)
    | exact List.Subset.trans (by decide) hq
    | refine pair_only (by assumption) ?_
    | assumption

theorem State.corrected_only {s0 : State} {ps : List Part} (s : State) (h : EccHit) (hs : s0.changesOnly s ps) (hq : [.log, .adk, .evq] ⊆ ps) : s0.changesOnly (State.corrected s h) ps := by
  unfold State.corrected
  repeat' first
    | with_reducible assumption
    | with_reducible apply State.countLog_only
    | with_reducible apply State.logE_only
    | with_reducible apply State.ceNote_only
    | with_reducible apply ite_only
    | with_reducible apply ite_fst_only
    | with_reducible intro _
    | split
    | dsimp only
    | ((with_reducible apply only_mk) <;> first
        | with_reducible exact fun _ => rfl
        | exact fun hn => absurd (hq (by decide)) hn
        | skip)
    | exact List.Subset.trans (by decide) hq
    | refine pair_only (by assumption) ?_
    | assumption

theorem State.tagsRebuilt_only {s0 : State} {ps : List Part} (s : State) (block : Nat) (lost : Bool) (hs : s0.changesOnly s ps) (hq : [.req, .tier, .cmp, .sec, .log, .adk, .evq] ⊆ ps) : s0.changesOnly (State.tagsRebuilt s block lost) ps := by
  unfold State.tagsRebuilt
  repeat' first
    | with_reducible assumption
    | with_reducible apply State.countCmp_only
    | with_reducible apply State.setSector_only
    | with_reducible apply State.poisonLine_only
    | with_reducible apply foldl_only
    | with_reducible apply foldl_fst_only
    | with_reducible apply ite_only
    | with_reducible apply ite_fst_only
    | with_reducible intro _
    | split
    | dsimp only
    | ((with_reducible apply only_mk) <;> first
        | with_reducible exact fun _ => rfl
        | exact fun hn => absurd (hq (by decide)) hn
        | skip)
    | exact List.Subset.trans (by decide) hq
    | refine pair_only (by assumption) ?_
    | assumption

theorem State.uncorrectable_only {s0 : State} {ps : List Part} (s : State) (h : EccHit) (hs : s0.changesOnly s ps) (hq : [.pkg, .ports, .req, .coh, .ext, .lse, .tier, .xl, .cmp, .cpu, .clv, .atn, .comp, .sec, .log, .mod, .adk, .evq, .glb] ⊆ ps) : s0.changesOnly (State.uncorrectable s h) ps := by
  unfold State.uncorrectable
  repeat' first
    | with_reducible assumption
    | with_reducible apply State.countLog_only
    | with_reducible apply State.logE_only
    | with_reducible apply State.onCore_only
    | with_reducible apply State.poisonLine_only
    | with_reducible apply State.losePage_only
    | with_reducible apply State.domTrigger_only
    | with_reducible apply State.recoveryFault_only
    | with_reducible apply State.tagsRebuilt_only
    | with_reducible apply ite_only
    | with_reducible apply ite_fst_only
    | with_reducible intro _
    | split
    | dsimp only
    | ((with_reducible apply only_mk) <;> first
        | with_reducible exact fun _ => rfl
        | exact fun hn => absurd (hq (by decide)) hn
        | skip)
    | exact List.Subset.trans (by decide) hq
    | refine pair_only (by assumption) ?_
    | assumption

theorem State.miscorrected_only {s0 : State} {ps : List Part} (s : State) (h : EccHit) (hs : s0.changesOnly s ps) (hq : [.free, .req, .tier, .sec, .log, .adk, .evq] ⊆ ps) : s0.changesOnly (State.miscorrected s h) ps := by
  unfold State.miscorrected
  repeat' first
    | with_reducible assumption
    | with_reducible apply State.forget_only
    | with_reducible apply State.placeLines_only
    | with_reducible apply State.corrected_only
    | with_reducible apply ite_only
    | with_reducible apply ite_fst_only
    | with_reducible intro _
    | split
    | dsimp only
    | ((with_reducible apply only_mk) <;> first
        | with_reducible exact fun _ => rfl
        | exact fun hn => absurd (hq (by decide)) hn
        | skip)
    | exact List.Subset.trans (by decide) hq
    | refine pair_only (by assumption) ?_
    | assumption

theorem State.applyHit_only {s0 : State} {ps : List Part} (s : State) (h : EccHit) (hs : s0.changesOnly s ps) (hq : [.free, .pkg, .ports, .req, .coh, .ext, .lse, .tier, .xl, .cmp, .cpu, .clv, .atn, .comp, .sec, .log, .mod, .adk, .evq, .glb] ⊆ ps) : s0.changesOnly (State.applyHit s h) ps := by
  unfold State.applyHit
  repeat' first
    | with_reducible assumption
    | with_reducible apply State.draw_only
    | with_reducible apply State.corrected_only
    | with_reducible apply State.uncorrectable_only
    | with_reducible apply State.miscorrected_only
    | with_reducible apply ite_only
    | with_reducible apply ite_fst_only
    | with_reducible intro _
    | split
    | dsimp only
    | ((with_reducible apply only_mk) <;> first
        | with_reducible exact fun _ => rfl
        | exact fun hn => absurd (hq (by decide)) hn
        | skip)
    | exact List.Subset.trans (by decide) hq
    | refine pair_only (by assumption) ?_
    | assumption

theorem State.applyHits_only {s0 : State} {ps : List Part} (s : State) (hs : List EccHit) (h0s : s0.changesOnly s ps) (hq : [.free, .pkg, .ports, .req, .coh, .ext, .lse, .tier, .xl, .cmp, .cpu, .clv, .atn, .comp, .sec, .log, .mod, .adk, .evq, .glb] ⊆ ps) : s0.changesOnly (State.applyHits s hs) ps := by
  unfold State.applyHits
  repeat' first
    | with_reducible assumption
    | with_reducible apply State.applyHit_only
    | with_reducible apply foldl_only
    | with_reducible apply foldl_fst_only
    | with_reducible apply ite_only
    | with_reducible apply ite_fst_only
    | with_reducible intro _
    | split
    | dsimp only
    | ((with_reducible apply only_mk) <;> first
        | with_reducible exact fun _ => rfl
        | exact fun hn => absurd (hq (by decide)) hn
        | skip)
    | exact List.Subset.trans (by decide) hq
    | refine pair_only (by assumption) ?_
    | assumption

end Sys2Proof.Machine
end

