-- ==== Sys2Proof/Laws/OnlyIngress.lean ====
section
/-! SUPPORT. What every operation of Ingress leaves alone. -/

set_option linter.unusedTactic false
set_option linter.unreachableTactic false
set_option linter.unusedVariables false

namespace Sys2Proof.Machine

theorem State.countBrd_only {s0 : State} {ps : List Part} (s : State) (k : Nat) (i : Nat) (hs : s0.changesOnly s ps) (hq : [.bridles, .adk, .evq] ⊆ ps) : s0.changesOnly (State.countBrd s k i) ps := by
  unfold State.countBrd
  repeat' first
    | with_reducible assumption
    | with_reducible apply State.satEvent_only
    | with_reducible apply State.onBridle_only
    | with_reducible apply ite_only
    | with_reducible apply ite_fst_only
    | with_reducible intro _
    | split
    | dsimp only
    | ((with_reducible apply only_mk) <;> first
        | with_reducible exact fun _ => rfl
        | exact fun hn => absurd (hq (by decide)) hn
        | skip)
    | exact List.Subset.trans (by decide) hq
    | refine pair_only (by assumption) ?_
    | assumption

theorem State.police_only {s0 : State} {ps : List Part} (s : State) (b : Nat) (f : Frame) (hs : s0.changesOnly s ps) (hq : [.bridles, .adk, .evq] ⊆ ps) : s0.changesOnly (State.police s b f).1 ps := by
  unfold State.police
  repeat' first
    | with_reducible assumption
    | with_reducible apply State.onBridle_only
    | with_reducible apply State.countBrd_only
    | with_reducible apply ite_only
    | with_reducible apply ite_fst_only
    | with_reducible intro _
    | split
    | dsimp only
    | ((with_reducible apply only_mk) <;> first
        | with_reducible exact fun _ => rfl
        | exact fun hn => absurd (hq (by decide)) hn
        | skip)
    | exact List.Subset.trans (by decide) hq
    | refine pair_only (by assumption) ?_
    | assumption

theorem State.cbfEntry_only {s0 : State} {ps : List Part} (s : State) (b : Nat) (f : Frame) (hs : s0.changesOnly s ps) (hq : [.ports, .cmp, .log, .adk, .evq] ⊆ ps) : s0.changesOnly (State.cbfEntry s b f).1 ps := by
  unfold State.cbfEntry
  repeat' first
    | with_reducible assumption
    | with_reducible apply State.countCmp_only
    | with_reducible apply State.lotFail_only
    | with_reducible apply ite_only
    | with_reducible apply ite_fst_only
    | with_reducible intro _
    | split
    | dsimp only
    | ((with_reducible apply only_mk) <;> first
        | with_reducible exact fun _ => rfl
        | exact fun hn => absurd (hq (by decide)) hn
        | skip)
    | exact List.Subset.trans (by decide) hq
    | refine pair_only (by assumption) ?_
    | assumption

theorem State.formEntry_only {s0 : State} {ps : List Part} (s : State) (b : Nat) (f : Frame) (hs : s0.changesOnly s ps) (hq : [.ports, .sec, .log, .adk, .evq] ⊆ ps) : s0.changesOnly (State.formEntry s b f).1 ps := by
  unfold State.formEntry
  repeat' first
    | with_reducible assumption
    | with_reducible apply State.countSec_only
    | with_reducible apply State.countPrt_only
    | with_reducible apply State.lotFail_only
    | with_reducible apply ite_only
    | with_reducible apply ite_fst_only
    | with_reducible intro _
    | split
    | dsimp only
    | ((with_reducible apply only_mk) <;> first
        | with_reducible exact fun _ => rfl
        | exact fun hn => absurd (hq (by decide)) hn
        | skip)
    | exact List.Subset.trans (by decide) hq
    | refine pair_only (by assumption) ?_
    | assumption

theorem State.headerEntry_only {s0 : State} {ps : List Part} (s : State) (b : Nat) (f : Frame) (hs : s0.changesOnly s ps) (hq : [.ports, .adk, .evq] ⊆ ps) : s0.changesOnly (State.headerEntry s b f).1 ps := by
  unfold State.headerEntry
  repeat' first
    | with_reducible assumption
    | with_reducible apply State.event_only
    | with_reducible apply State.countPrt_only
    | with_reducible apply ite_only
    | with_reducible apply ite_fst_only
    | with_reducible intro _
    | split
    | dsimp only
    | ((with_reducible apply only_mk) <;> first
        | with_reducible exact fun _ => rfl
        | exact fun hn => absurd (hq (by decide)) hn
        | skip)
    | exact List.Subset.trans (by decide) hq
    | refine pair_only (by assumption) ?_
    | assumption

theorem State.redEntry_only {s0 : State} {ps : List Part} (s : State) (b : Nat) (f : Frame) (hs : s0.changesOnly s ps) (hq : [.bridles, .adk, .evq] ⊆ ps) : s0.changesOnly (State.redEntry s b f).1 ps := by
  unfold State.redEntry
  repeat' first
    | with_reducible assumption
    | with_reducible apply State.countBrd_only
    | with_reducible apply ite_only
    | with_reducible apply ite_fst_only
    | with_reducible intro _
    | split
    | dsimp only
    | ((with_reducible apply only_mk) <;> first
        | with_reducible exact fun _ => rfl
        | exact fun hn => absurd (hq (by decide)) hn
        | skip)
    | exact List.Subset.trans (by decide) hq
    | refine pair_only (by assumption) ?_
    | assumption

theorem State.unitEntry_only {s0 : State} {ps : List Part} (s : State) (b : Nat) (f : Frame) (hs : s0.changesOnly s ps) (hq : [.ports, .adk, .evq] ⊆ ps) : s0.changesOnly (State.unitEntry s b f).1 ps := by
  unfold State.unitEntry
  repeat' first
    | with_reducible assumption
    | with_reducible apply State.countPrt_only
    | with_reducible apply ite_only
    | with_reducible apply ite_fst_only
    | with_reducible intro _
    | split
    | dsimp only
    | ((with_reducible apply only_mk) <;> first
        | with_reducible exact fun _ => rfl
        | exact fun hn => absurd (hq (by decide)) hn
        | skip)
    | exact List.Subset.trans (by decide) hq
    | refine pair_only (by assumption) ?_
    | assumption

theorem afterward_only {s0 : State} {ps : List Part} (x : State × Entry) (k : State → Frame → State × Entry)
    (hx : s0.changesOnly x.1 ps) (hk : ∀ (s : State) f, s0.changesOnly s ps → s0.changesOnly (k s f).1 ps)
    (hq : [] ⊆ ps) : s0.changesOnly (afterward x k).1 ps := by
  unfold afterward
  split
  · exact hk _ _ hx
  · exact hx

theorem State.linkEntry_only {s0 : State} {ps : List Part} (s : State) (b : Nat) (f : Frame) (hs : s0.changesOnly s ps) (hq : [.ports, .bridles, .lse, .adk, .evq] ⊆ ps) : s0.changesOnly (State.linkEntry s b f).1 ps := by
  unfold State.linkEntry
  repeat' first
    | with_reducible assumption
    | with_reducible apply State.event_only
    | with_reducible apply State.countLse_only
    | with_reducible apply State.countPrt_only
    | with_reducible apply State.police_only
    | with_reducible apply ite_only
    | with_reducible apply ite_fst_only
    | with_reducible intro _
    | split
    | dsimp only
    | ((with_reducible apply only_mk) <;> first
        | with_reducible exact fun _ => rfl
        | exact fun hn => absurd (hq (by decide)) hn
        | skip)
    | exact List.Subset.trans (by decide) hq
    | refine pair_only (by assumption) ?_
    | assumption

theorem State.inspect_only {s0 : State} {ps : List Part} (s : State) (b : Nat) (f : Frame) (hs : s0.changesOnly s ps) (hq : [.ports, .bridles, .lse, .cmp, .sec, .log, .adk, .evq] ⊆ ps) : s0.changesOnly (State.inspect s b f).1 ps := by
  unfold State.inspect
  repeat' first
    | with_reducible assumption
    | with_reducible apply State.cbfEntry_only
    | with_reducible apply State.formEntry_only
    | with_reducible apply State.headerEntry_only
    | with_reducible apply State.redEntry_only
    | with_reducible apply State.unitEntry_only
    | with_reducible apply State.linkEntry_only
    | with_reducible apply afterward_only
    | with_reducible apply ite_only
    | with_reducible apply ite_fst_only
    | with_reducible intro _
    | split
    | dsimp only
    | ((with_reducible apply only_mk) <;> first
        | with_reducible exact fun _ => rfl
        | exact fun hn => absurd (hq (by decide)) hn
        | skip)
    | exact List.Subset.trans (by decide) hq
    | refine pair_only (by assumption) ?_
    | assumption

theorem State.refuseAt_only {s0 : State} {ps : List Part} (s : State) (b : Nat) (f : Frame) (st : BitVec 6) (hs : s0.changesOnly s ps) (hq : [.pkg, .ports, .req, .xl, .cpu, .clv, .atn, .sec, .log, .adk, .evq] ⊆ ps) : s0.changesOnly (State.refuseAt s b f st) ps := by
  unfold State.refuseAt
  repeat' first
    | with_reducible assumption
    | with_reducible apply State.emit_only
    | with_reducible apply ite_only
    | with_reducible apply ite_fst_only
    | with_reducible intro _
    | split
    | dsimp only
    | ((with_reducible apply only_mk) <;> first
        | with_reducible exact fun _ => rfl
        | exact fun hn => absurd (hq (by decide)) hn
        | skip)
    | exact List.Subset.trans (by decide) hq
    | refine pair_only (by assumption) ?_
    | assumption

theorem State.arrive_only {s0 : State} {ps : List Part} (s : State) (p : Nat) (f : Frame) (k : State → Nat → Frame → State) (hs : s0.changesOnly s ps) (hk : ∀ (a0 : State) (a1 : Nat) (a2 : Frame), s0.changesOnly a0 ps → s0.changesOnly (k a0 a1 a2) ps) (hq : [.free, .pkg, .ports, .bridles, .req, .coh, .ext, .lse, .tier, .xl, .cmp, .cpu, .clv, .atn, .comp, .sec, .log, .adk, .evq] ⊆ ps) : s0.changesOnly (State.arrive s p f k) ps := by
  unfold State.arrive
  repeat' first
    | with_reducible assumption
    | with_reducible apply hk
    | with_reducible apply State.linkAccept_only
    | with_reducible apply State.inspect_only
    | with_reducible apply State.refuseAt_only
    | with_reducible apply ite_only
    | with_reducible apply ite_fst_only
    | with_reducible intro _
    | split
    | dsimp only
    | ((with_reducible apply only_mk) <;> first
        | with_reducible exact fun _ => rfl
        | exact fun hn => absurd (hq (by decide)) hn
        | skip)
    | exact List.Subset.trans (by decide) hq
    | refine pair_only (by assumption) ?_
    | assumption

theorem State.number_only {s0 : State} {ps : List Part} (s : State) (hs : s0.changesOnly s ps) (hq : [.req] ⊆ ps) : s0.changesOnly (State.number s).1 ps := by
  unfold State.number
  repeat' first
    | with_reducible assumption
    | with_reducible apply ite_only
    | with_reducible apply ite_fst_only
    | with_reducible intro _
    | split
    | dsimp only
    | ((with_reducible apply only_mk) <;> first
        | with_reducible exact fun _ => rfl
        | exact fun hn => absurd (hq (by decide)) hn
        | skip)
    | exact List.Subset.trans (by decide) hq
    | refine pair_only (by assumption) ?_
    | assumption

theorem State.passOn_only {s0 : State} {ps : List Part} (s : State) (b : Nat) (p : Nat) (f : Frame) (hs : s0.changesOnly s ps) (hq : [.pkg, .ports, .req, .xl, .cpu, .clv, .atn, .sec, .log, .adk, .evq] ⊆ ps) : s0.changesOnly (State.passOn s b p f) ps := by
  unfold State.passOn
  repeat' first
    | with_reducible assumption
    | with_reducible apply State.sendFrom_only
    | with_reducible apply State.refuseAt_only
    | with_reducible apply ite_only
    | with_reducible apply ite_fst_only
    | with_reducible intro _
    | split
    | dsimp only
    | ((with_reducible apply only_mk) <;> first
        | with_reducible exact fun _ => rfl
        | exact fun hn => absurd (hq (by decide)) hn
        | skip)
    | exact List.Subset.trans (by decide) hq
    | refine pair_only (by assumption) ?_
    | assumption

theorem State.requestIn_only {s0 : State} {ps : List Part} (s : State) (b : Nat) (f : Frame) (hs : s0.changesOnly s ps) (hq : [.pkg, .ports, .req, .coh, .ext, .tier, .xl, .cmp, .cpu, .clv, .atn, .comp, .sec, .log, .adk, .evq] ⊆ ps) : s0.changesOnly (State.requestIn s b f) ps := by
  unfold State.requestIn
  repeat' first
    | with_reducible assumption
    | with_reducible apply State.accept_only
    | with_reducible apply State.passOn_only
    | with_reducible apply ite_only
    | with_reducible apply ite_fst_only
    | with_reducible intro _
    | split
    | dsimp only
    | ((with_reducible apply only_mk) <;> first
        | with_reducible exact fun _ => rfl
        | exact fun hn => absurd (hq (by decide)) hn
        | skip)
    | exact List.Subset.trans (by decide) hq
    | refine pair_only (by assumption) ?_
    | assumption

theorem State.reqFrame_only {s0 : State} {ps : List Part} (s : State) (p : BitVec 8) (op : BitVec 8) (f : Frame) (hs : s0.changesOnly s ps) (hq : [.free, .pkg, .ports, .bridles, .req, .coh, .ext, .lse, .tier, .xl, .cmp, .cpu, .clv, .atn, .comp, .sec, .log, .adk, .evq] ⊆ ps) : s0.changesOnly (State.reqFrame s p op f) ps := by
  unfold State.reqFrame
  repeat' first
    | with_reducible assumption
    | with_reducible apply State.arrive_only
    | with_reducible apply State.requestIn_only
    | with_reducible apply ite_only
    | with_reducible apply ite_fst_only
    | with_reducible intro _
    | split
    | dsimp only
    | ((with_reducible apply only_mk) <;> first
        | with_reducible exact fun _ => rfl
        | exact fun hn => absurd (hq (by decide)) hn
        | skip)
    | exact List.Subset.trans (by decide) hq
    | refine pair_only (by assumption) ?_
    | assumption

theorem State.reqFrameHits_only {s0 : State} {ps : List Part} (s : State) (p : BitVec 8) (op : BitVec 8) (f : Frame) (hits : List EccHit) (hs : s0.changesOnly s ps) (hq : [.free, .pkg, .ports, .bridles, .req, .coh, .ext, .lse, .tier, .xl, .cmp, .cpu, .clv, .atn, .comp, .sec, .log, .mod, .adk, .evq, .glb] ⊆ ps) : s0.changesOnly (State.reqFrameHits s p op f hits) ps := by
  unfold State.reqFrameHits
  repeat' first
    | with_reducible assumption
    | with_reducible apply State.applyHits_only
    | with_reducible apply State.arrive_only
    | with_reducible apply State.requestIn_only
    | with_reducible apply ite_only
    | with_reducible apply ite_fst_only
    | with_reducible intro _
    | split
    | dsimp only
    | ((with_reducible apply only_mk) <;> first
        | with_reducible exact fun _ => rfl
        | exact fun hn => absurd (hq (by decide)) hn
        | skip)
    | exact List.Subset.trans (by decide) hq
    | refine pair_only (by assumption) ?_
    | assumption

theorem execLd_only {s0 : State} {ps : List Part} (port : BitVec 8) (frame : Frame) (hits : List EccHit) (s : State) (hs : s0.changesOnly s ps) (hq : [.free, .pkg, .ports, .bridles, .req, .coh, .ext, .lse, .tier, .xl, .cmp, .cpu, .clv, .atn, .comp, .sec, .log, .mod, .adk, .evq, .glb] ⊆ ps) : onlyNext s0 (execLd port frame hits s) ps := by
  unfold execLd
  repeat' first
    | with_reducible assumption
    | with_reducible apply State.reqFrameHits_only
    | with_reducible apply ite_only
    | with_reducible apply ite_fst_only
    | with_reducible apply next_only
    | with_reducible intro _
    | split
    | dsimp only
    | ((with_reducible apply only_mk) <;> first
        | with_reducible exact fun _ => rfl
        | exact fun hn => absurd (hq (by decide)) hn
        | skip)
    | exact List.Subset.trans (by decide) hq
    | refine pair_only (by assumption) ?_
    | assumption

theorem execLdPeek_only {s0 : State} {ps : List Part} (port : BitVec 8) (frame : Frame) (s : State) (hs : s0.changesOnly s ps) (hq : [.free, .pkg, .ports, .bridles, .req, .coh, .ext, .lse, .tier, .xl, .cmp, .cpu, .clv, .atn, .comp, .sec, .log, .adk, .evq] ⊆ ps) : onlyNext s0 (execLdPeek port frame s) ps := by
  unfold execLdPeek
  repeat' first
    | with_reducible assumption
    | with_reducible apply State.reqFrame_only
    | with_reducible apply ite_only
    | with_reducible apply ite_fst_only
    | with_reducible apply next_only
    | with_reducible intro _
    | split
    | dsimp only
    | ((with_reducible apply only_mk) <;> first
        | with_reducible exact fun _ => rfl
        | exact fun hn => absurd (hq (by decide)) hn
        | skip)
    | exact List.Subset.trans (by decide) hq
    | refine pair_only (by assumption) ?_
    | assumption

theorem execSt_only {s0 : State} {ps : List Part} (port : BitVec 8) (frame : Frame) (hits : List EccHit) (s : State) (hs : s0.changesOnly s ps) (hq : [.free, .pkg, .ports, .bridles, .req, .coh, .ext, .lse, .tier, .xl, .cmp, .cpu, .clv, .atn, .comp, .sec, .log, .mod, .adk, .evq, .glb] ⊆ ps) : onlyNext s0 (execSt port frame hits s) ps := by
  unfold execSt
  repeat' first
    | with_reducible assumption
    | with_reducible apply State.reqFrameHits_only
    | with_reducible apply ite_only
    | with_reducible apply ite_fst_only
    | with_reducible apply next_only
    | with_reducible intro _
    | split
    | dsimp only
    | ((with_reducible apply only_mk) <;> first
        | with_reducible exact fun _ => rfl
        | exact fun hn => absurd (hq (by decide)) hn
        | skip)
    | exact List.Subset.trans (by decide) hq
    | refine pair_only (by assumption) ?_
    | assumption

theorem execStPush_only {s0 : State} {ps : List Part} (port : BitVec 8) (frame : Frame) (s : State) (hs : s0.changesOnly s ps) (hq : [.free, .pkg, .ports, .bridles, .req, .coh, .ext, .lse, .tier, .xl, .cmp, .cpu, .clv, .atn, .comp, .sec, .log, .adk, .evq] ⊆ ps) : onlyNext s0 (execStPush port frame s) ps := by
  unfold execStPush
  repeat' first
    | with_reducible assumption
    | with_reducible apply State.reqFrame_only
    | with_reducible apply ite_only
    | with_reducible apply ite_fst_only
    | with_reducible apply next_only
    | with_reducible intro _
    | split
    | dsimp only
    | ((with_reducible apply only_mk) <;> first
        | with_reducible exact fun _ => rfl
        | exact fun hn => absurd (hq (by decide)) hn
        | skip)
    | exact List.Subset.trans (by decide) hq
    | refine pair_only (by assumption) ?_
    | assumption

theorem execStMask_only {s0 : State} {ps : List Part} (port : BitVec 8) (frame : Frame) (s : State) (hs : s0.changesOnly s ps) (hq : [.free, .pkg, .ports, .bridles, .req, .coh, .ext, .lse, .tier, .xl, .cmp, .cpu, .clv, .atn, .comp, .sec, .log, .adk, .evq] ⊆ ps) : onlyNext s0 (execStMask port frame s) ps := by
  unfold execStMask
  repeat' first
    | with_reducible assumption
    | with_reducible apply State.reqFrame_only
    | with_reducible apply ite_only
    | with_reducible apply ite_fst_only
    | with_reducible apply next_only
    | with_reducible intro _
    | split
    | dsimp only
    | ((with_reducible apply only_mk) <;> first
        | with_reducible exact fun _ => rfl
        | exact fun hn => absurd (hq (by decide)) hn
        | skip)
    | exact List.Subset.trans (by decide) hq
    | refine pair_only (by assumption) ?_
    | assumption

theorem execSbRd_only {s0 : State} {ps : List Part} (port : BitVec 8) (frame : Frame) (s : State) (hs : s0.changesOnly s ps) (hq : [.free, .pkg, .ports, .bridles, .req, .coh, .ext, .lse, .tier, .xl, .cmp, .cpu, .clv, .atn, .comp, .sec, .log, .adk, .evq] ⊆ ps) : onlyNext s0 (execSbRd port frame s) ps := by
  unfold execSbRd
  repeat' first
    | with_reducible assumption
    | with_reducible apply State.reqFrame_only
    | with_reducible apply ite_only
    | with_reducible apply ite_fst_only
    | with_reducible apply next_only
    | with_reducible intro _
    | split
    | dsimp only
    | ((with_reducible apply only_mk) <;> first
        | with_reducible exact fun _ => rfl
        | exact fun hn => absurd (hq (by decide)) hn
        | skip)
    | exact List.Subset.trans (by decide) hq
    | refine pair_only (by assumption) ?_
    | assumption

theorem execSbWr_only {s0 : State} {ps : List Part} (port : BitVec 8) (frame : Frame) (s : State) (hs : s0.changesOnly s ps) (hq : [.free, .pkg, .ports, .bridles, .req, .coh, .ext, .lse, .tier, .xl, .cmp, .cpu, .clv, .atn, .comp, .sec, .log, .adk, .evq] ⊆ ps) : onlyNext s0 (execSbWr port frame s) ps := by
  unfold execSbWr
  repeat' first
    | with_reducible assumption
    | with_reducible apply State.reqFrame_only
    | with_reducible apply ite_only
    | with_reducible apply ite_fst_only
    | with_reducible apply next_only
    | with_reducible intro _
    | split
    | dsimp only
    | ((with_reducible apply only_mk) <;> first
        | with_reducible exact fun _ => rfl
        | exact fun hn => absurd (hq (by decide)) hn
        | skip)
    | exact List.Subset.trans (by decide) hq
    | refine pair_only (by assumption) ?_
    | assumption

theorem execAtAdd_only {s0 : State} {ps : List Part} (port : BitVec 8) (frame : Frame) (s : State) (hs : s0.changesOnly s ps) (hq : [.free, .pkg, .ports, .bridles, .req, .coh, .ext, .lse, .tier, .xl, .cmp, .cpu, .clv, .atn, .comp, .sec, .log, .adk, .evq] ⊆ ps) : onlyNext s0 (execAtAdd port frame s) ps := by
  unfold execAtAdd
  repeat' first
    | with_reducible assumption
    | with_reducible apply State.reqFrame_only
    | with_reducible apply ite_only
    | with_reducible apply ite_fst_only
    | with_reducible apply next_only
    | with_reducible intro _
    | split
    | dsimp only
    | ((with_reducible apply only_mk) <;> first
        | with_reducible exact fun _ => rfl
        | exact fun hn => absurd (hq (by decide)) hn
        | skip)
    | exact List.Subset.trans (by decide) hq
    | refine pair_only (by assumption) ?_
    | assumption

theorem execAtMin_only {s0 : State} {ps : List Part} (port : BitVec 8) (frame : Frame) (s : State) (hs : s0.changesOnly s ps) (hq : [.free, .pkg, .ports, .bridles, .req, .coh, .ext, .lse, .tier, .xl, .cmp, .cpu, .clv, .atn, .comp, .sec, .log, .adk, .evq] ⊆ ps) : onlyNext s0 (execAtMin port frame s) ps := by
  unfold execAtMin
  repeat' first
    | with_reducible assumption
    | with_reducible apply State.reqFrame_only
    | with_reducible apply ite_only
    | with_reducible apply ite_fst_only
    | with_reducible apply next_only
    | with_reducible intro _
    | split
    | dsimp only
    | ((with_reducible apply only_mk) <;> first
        | with_reducible exact fun _ => rfl
        | exact fun hn => absurd (hq (by decide)) hn
        | skip)
    | exact List.Subset.trans (by decide) hq
    | refine pair_only (by assumption) ?_
    | assumption

theorem execAtMax_only {s0 : State} {ps : List Part} (port : BitVec 8) (frame : Frame) (s : State) (hs : s0.changesOnly s ps) (hq : [.free, .pkg, .ports, .bridles, .req, .coh, .ext, .lse, .tier, .xl, .cmp, .cpu, .clv, .atn, .comp, .sec, .log, .adk, .evq] ⊆ ps) : onlyNext s0 (execAtMax port frame s) ps := by
  unfold execAtMax
  repeat' first
    | with_reducible assumption
    | with_reducible apply State.reqFrame_only
    | with_reducible apply ite_only
    | with_reducible apply ite_fst_only
    | with_reducible apply next_only
    | with_reducible intro _
    | split
    | dsimp only
    | ((with_reducible apply only_mk) <;> first
        | with_reducible exact fun _ => rfl
        | exact fun hn => absurd (hq (by decide)) hn
        | skip)
    | exact List.Subset.trans (by decide) hq
    | refine pair_only (by assumption) ?_
    | assumption

theorem execAtCas_only {s0 : State} {ps : List Part} (port : BitVec 8) (frame : Frame) (s : State) (hs : s0.changesOnly s ps) (hq : [.free, .pkg, .ports, .bridles, .req, .coh, .ext, .lse, .tier, .xl, .cmp, .cpu, .clv, .atn, .comp, .sec, .log, .adk, .evq] ⊆ ps) : onlyNext s0 (execAtCas port frame s) ps := by
  unfold execAtCas
  repeat' first
    | with_reducible assumption
    | with_reducible apply State.reqFrame_only
    | with_reducible apply ite_only
    | with_reducible apply ite_fst_only
    | with_reducible apply next_only
    | with_reducible intro _
    | split
    | dsimp only
    | ((with_reducible apply only_mk) <;> first
        | with_reducible exact fun _ => rfl
        | exact fun hn => absurd (hq (by decide)) hn
        | skip)
    | exact List.Subset.trans (by decide) hq
    | refine pair_only (by assumption) ?_
    | assumption

theorem execApAdd_only {s0 : State} {ps : List Part} (port : BitVec 8) (frame : Frame) (s : State) (hs : s0.changesOnly s ps) (hq : [.free, .pkg, .ports, .bridles, .req, .coh, .ext, .lse, .tier, .xl, .cmp, .cpu, .clv, .atn, .comp, .sec, .log, .adk, .evq] ⊆ ps) : onlyNext s0 (execApAdd port frame s) ps := by
  unfold execApAdd
  repeat' first
    | with_reducible assumption
    | with_reducible apply State.reqFrame_only
    | with_reducible apply ite_only
    | with_reducible apply ite_fst_only
    | with_reducible apply next_only
    | with_reducible intro _
    | split
    | dsimp only
    | ((with_reducible apply only_mk) <;> first
        | with_reducible exact fun _ => rfl
        | exact fun hn => absurd (hq (by decide)) hn
        | skip)
    | exact List.Subset.trans (by decide) hq
    | refine pair_only (by assumption) ?_
    | assumption

theorem execApMin_only {s0 : State} {ps : List Part} (port : BitVec 8) (frame : Frame) (s : State) (hs : s0.changesOnly s ps) (hq : [.free, .pkg, .ports, .bridles, .req, .coh, .ext, .lse, .tier, .xl, .cmp, .cpu, .clv, .atn, .comp, .sec, .log, .adk, .evq] ⊆ ps) : onlyNext s0 (execApMin port frame s) ps := by
  unfold execApMin
  repeat' first
    | with_reducible assumption
    | with_reducible apply State.reqFrame_only
    | with_reducible apply ite_only
    | with_reducible apply ite_fst_only
    | with_reducible apply next_only
    | with_reducible intro _
    | split
    | dsimp only
    | ((with_reducible apply only_mk) <;> first
        | with_reducible exact fun _ => rfl
        | exact fun hn => absurd (hq (by decide)) hn
        | skip)
    | exact List.Subset.trans (by decide) hq
    | refine pair_only (by assumption) ?_
    | assumption

theorem execApMax_only {s0 : State} {ps : List Part} (port : BitVec 8) (frame : Frame) (s : State) (hs : s0.changesOnly s ps) (hq : [.free, .pkg, .ports, .bridles, .req, .coh, .ext, .lse, .tier, .xl, .cmp, .cpu, .clv, .atn, .comp, .sec, .log, .adk, .evq] ⊆ ps) : onlyNext s0 (execApMax port frame s) ps := by
  unfold execApMax
  repeat' first
    | with_reducible assumption
    | with_reducible apply State.reqFrame_only
    | with_reducible apply ite_only
    | with_reducible apply ite_fst_only
    | with_reducible apply next_only
    | with_reducible intro _
    | split
    | dsimp only
    | ((with_reducible apply only_mk) <;> first
        | with_reducible exact fun _ => rfl
        | exact fun hn => absurd (hq (by decide)) hn
        | skip)
    | exact List.Subset.trans (by decide) hq
    | refine pair_only (by assumption) ?_
    | assumption

theorem execApCas_only {s0 : State} {ps : List Part} (port : BitVec 8) (frame : Frame) (s : State) (hs : s0.changesOnly s ps) (hq : [.free, .pkg, .ports, .bridles, .req, .coh, .ext, .lse, .tier, .xl, .cmp, .cpu, .clv, .atn, .comp, .sec, .log, .adk, .evq] ⊆ ps) : onlyNext s0 (execApCas port frame s) ps := by
  unfold execApCas
  repeat' first
    | with_reducible assumption
    | with_reducible apply State.reqFrame_only
    | with_reducible apply ite_only
    | with_reducible apply ite_fst_only
    | with_reducible apply next_only
    | with_reducible intro _
    | split
    | dsimp only
    | ((with_reducible apply only_mk) <;> first
        | with_reducible exact fun _ => rfl
        | exact fun hn => absurd (hq (by decide)) hn
        | skip)
    | exact List.Subset.trans (by decide) hq
    | refine pair_only (by assumption) ?_
    | assumption

theorem execCRdS_only {s0 : State} {ps : List Part} (port : BitVec 8) (frame : Frame) (s : State) (hs : s0.changesOnly s ps) (hq : [.free, .pkg, .ports, .bridles, .req, .coh, .ext, .lse, .tier, .xl, .cmp, .cpu, .clv, .atn, .comp, .sec, .log, .adk, .evq] ⊆ ps) : onlyNext s0 (execCRdS port frame s) ps := by
  unfold execCRdS
  repeat' first
    | with_reducible assumption
    | with_reducible apply State.reqFrame_only
    | with_reducible apply ite_only
    | with_reducible apply ite_fst_only
    | with_reducible apply next_only
    | with_reducible intro _
    | split
    | dsimp only
    | ((with_reducible apply only_mk) <;> first
        | with_reducible exact fun _ => rfl
        | exact fun hn => absurd (hq (by decide)) hn
        | skip)
    | exact List.Subset.trans (by decide) hq
    | refine pair_only (by assumption) ?_
    | assumption

theorem execCRdO_only {s0 : State} {ps : List Part} (port : BitVec 8) (frame : Frame) (s : State) (hs : s0.changesOnly s ps) (hq : [.free, .pkg, .ports, .bridles, .req, .coh, .ext, .lse, .tier, .xl, .cmp, .cpu, .clv, .atn, .comp, .sec, .log, .adk, .evq] ⊆ ps) : onlyNext s0 (execCRdO port frame s) ps := by
  unfold execCRdO
  repeat' first
    | with_reducible assumption
    | with_reducible apply State.reqFrame_only
    | with_reducible apply ite_only
    | with_reducible apply ite_fst_only
    | with_reducible apply next_only
    | with_reducible intro _
    | split
    | dsimp only
    | ((with_reducible apply only_mk) <;> first
        | with_reducible exact fun _ => rfl
        | exact fun hn => absurd (hq (by decide)) hn
        | skip)
    | exact List.Subset.trans (by decide) hq
    | refine pair_only (by assumption) ?_
    | assumption

theorem execCUpg_only {s0 : State} {ps : List Part} (port : BitVec 8) (frame : Frame) (s : State) (hs : s0.changesOnly s ps) (hq : [.free, .pkg, .ports, .bridles, .req, .coh, .ext, .lse, .tier, .xl, .cmp, .cpu, .clv, .atn, .comp, .sec, .log, .adk, .evq] ⊆ ps) : onlyNext s0 (execCUpg port frame s) ps := by
  unfold execCUpg
  repeat' first
    | with_reducible assumption
    | with_reducible apply State.reqFrame_only
    | with_reducible apply ite_only
    | with_reducible apply ite_fst_only
    | with_reducible apply next_only
    | with_reducible intro _
    | split
    | dsimp only
    | ((with_reducible apply only_mk) <;> first
        | with_reducible exact fun _ => rfl
        | exact fun hn => absurd (hq (by decide)) hn
        | skip)
    | exact List.Subset.trans (by decide) hq
    | refine pair_only (by assumption) ?_
    | assumption

theorem execCWb_only {s0 : State} {ps : List Part} (port : BitVec 8) (frame : Frame) (s : State) (hs : s0.changesOnly s ps) (hq : [.free, .pkg, .ports, .bridles, .req, .coh, .ext, .lse, .tier, .xl, .cmp, .cpu, .clv, .atn, .comp, .sec, .log, .adk, .evq] ⊆ ps) : onlyNext s0 (execCWb port frame s) ps := by
  unfold execCWb
  repeat' first
    | with_reducible assumption
    | with_reducible apply State.reqFrame_only
    | with_reducible apply ite_only
    | with_reducible apply ite_fst_only
    | with_reducible apply next_only
    | with_reducible intro _
    | split
    | dsimp only
    | ((with_reducible apply only_mk) <;> first
        | with_reducible exact fun _ => rfl
        | exact fun hn => absurd (hq (by decide)) hn
        | skip)
    | exact List.Subset.trans (by decide) hq
    | refine pair_only (by assumption) ?_
    | assumption

theorem execCEvict_only {s0 : State} {ps : List Part} (port : BitVec 8) (frame : Frame) (s : State) (hs : s0.changesOnly s ps) (hq : [.free, .pkg, .ports, .bridles, .req, .coh, .ext, .lse, .tier, .xl, .cmp, .cpu, .clv, .atn, .comp, .sec, .log, .adk, .evq] ⊆ ps) : onlyNext s0 (execCEvict port frame s) ps := by
  unfold execCEvict
  repeat' first
    | with_reducible assumption
    | with_reducible apply State.reqFrame_only
    | with_reducible apply ite_only
    | with_reducible apply ite_fst_only
    | with_reducible apply next_only
    | with_reducible intro _
    | split
    | dsimp only
    | ((with_reducible apply only_mk) <;> first
        | with_reducible exact fun _ => rfl
        | exact fun hn => absurd (hq (by decide)) hn
        | skip)
    | exact List.Subset.trans (by decide) hq
    | refine pair_only (by assumption) ?_
    | assumption

theorem State.fenceIn_only {s0 : State} {ps : List Part} (s : State) (b : Nat) (f : Frame) (hs : s0.changesOnly s ps) (hq : [.req] ⊆ ps) : s0.changesOnly (State.fenceIn s b f) ps := by
  unfold State.fenceIn
  repeat' first
    | with_reducible assumption
    | with_reducible apply State.number_only
    | with_reducible apply ite_only
    | with_reducible apply ite_fst_only
    | with_reducible intro _
    | split
    | dsimp only
    | ((with_reducible apply only_mk) <;> first
        | with_reducible exact fun _ => rfl
        | exact fun hn => absurd (hq (by decide)) hn
        | skip)
    | exact List.Subset.trans (by decide) hq
    | refine pair_only (by assumption) ?_
    | assumption

theorem execFence_only {s0 : State} {ps : List Part} (port : BitVec 8) (frame : Frame) (s : State) (hs : s0.changesOnly s ps) (hq : [.free, .pkg, .ports, .bridles, .req, .coh, .ext, .lse, .tier, .xl, .cmp, .cpu, .clv, .atn, .comp, .sec, .log, .adk, .evq] ⊆ ps) : onlyNext s0 (execFence port frame s) ps := by
  unfold execFence
  repeat' first
    | with_reducible assumption
    | with_reducible apply State.arrive_only
    | with_reducible apply State.fenceIn_only
    | with_reducible apply ite_only
    | with_reducible apply ite_fst_only
    | with_reducible apply next_only
    | with_reducible intro _
    | split
    | dsimp only
    | ((with_reducible apply only_mk) <;> first
        | with_reducible exact fun _ => rfl
        | exact fun hn => absurd (hq (by decide)) hn
        | skip)
    | exact List.Subset.trans (by decide) hq
    | refine pair_only (by assumption) ?_
    | assumption

theorem execFenceComplete_only {s0 : State} {ps : List Part} (n : Nat) (s : State) (hs : s0.changesOnly s ps) (hq : [.pkg, .ports, .req, .xl, .cpu, .clv, .atn, .sec, .log, .adk, .evq] ⊆ ps) : onlyNext s0 (execFenceComplete n s) ps := by
  unfold execFenceComplete
  repeat' first
    | with_reducible assumption
    | with_reducible apply State.emit_only
    | with_reducible apply ite_only
    | with_reducible apply ite_fst_only
    | with_reducible apply next_only
    | with_reducible intro _
    | split
    | dsimp only
    | ((with_reducible apply only_mk) <;> first
        | with_reducible exact fun _ => rfl
        | exact fun hn => absurd (hq (by decide)) hn
        | skip)
    | exact List.Subset.trans (by decide) hq
    | refine pair_only (by assumption) ?_
    | assumption

theorem State.toCluster_only {s0 : State} {ps : List Part} (s : State) (n : Nat) (o : Origin) (f : Frame) (hs : s0.changesOnly s ps) (hq : [.pkg, .ports, .req, .coh, .ext, .tier, .xl, .cmp, .cpu, .clv, .atn, .comp, .sec, .log, .adk, .evq] ⊆ ps) : s0.changesOnly (State.toCluster s n o f) ps := by
  unfold State.toCluster
  repeat' first
    | with_reducible assumption
    | with_reducible apply State.accept_only
    | with_reducible apply State.collOpen_only
    | with_reducible apply State.attnRequest_only
    | with_reducible apply State.requestIn_only
    | with_reducible apply ite_only
    | with_reducible apply ite_fst_only
    | with_reducible intro _
    | split
    | dsimp only
    | ((with_reducible apply only_mk) <;> first
        | with_reducible exact fun _ => rfl
        | exact fun hn => absurd (hq (by decide)) hn
        | skip)
    | exact List.Subset.trans (by decide) hq
    | refine pair_only (by assumption) ?_
    | assumption

theorem State.fenced_only {s0 : State} {ps : List Part} (s : State) (n : Nat) (o : Origin) (f : Frame) (hs : s0.changesOnly s ps) (hq : [.pkg, .ports, .req, .coh, .ext, .tier, .xl, .cmp, .cpu, .clv, .atn, .comp, .sec, .log, .adk, .evq] ⊆ ps) : s0.changesOnly (State.fenced s n o f) ps := by
  unfold State.fenced
  repeat' first
    | with_reducible assumption
    | with_reducible apply State.toCluster_only
    | with_reducible apply ite_only
    | with_reducible apply ite_fst_only
    | with_reducible intro _
    | split
    | dsimp only
    | ((with_reducible apply only_mk) <;> first
        | with_reducible exact fun _ => rfl
        | exact fun hn => absurd (hq (by decide)) hn
        | skip)
    | exact List.Subset.trans (by decide) hq
    | refine pair_only (by assumption) ?_
    | assumption

theorem execImplicitFenceRelease_only {s0 : State} {ps : List Part} (n : Nat) (s : State) (hs : s0.changesOnly s ps) (hq : [.pkg, .ports, .req, .coh, .ext, .tier, .xl, .cmp, .cpu, .clv, .atn, .comp, .sec, .log, .adk, .evq] ⊆ ps) : onlyNext s0 (execImplicitFenceRelease n s) ps := by
  unfold execImplicitFenceRelease
  repeat' first
    | with_reducible assumption
    | with_reducible apply State.toCluster_only
    | with_reducible apply ite_only
    | with_reducible apply ite_fst_only
    | with_reducible apply next_only
    | with_reducible intro _
    | split
    | dsimp only
    | ((with_reducible apply only_mk) <;> first
        | with_reducible exact fun _ => rfl
        | exact fun hn => absurd (hq (by decide)) hn
        | skip)
    | exact List.Subset.trans (by decide) hq
    | refine pair_only (by assumption) ?_
    | assumption

theorem State.releaseStore_only {s0 : State} {ps : List Part} (s : State) (r : Req) (hs : s0.changesOnly s ps) (hq : [.pkg, .ports, .req, .coh, .ext, .tier, .xl, .cmp, .cpu, .clv, .atn, .comp, .sec, .log, .adk, .evq] ⊆ ps) : s0.changesOnly (State.releaseStore s r) ps := by
  unfold State.releaseStore
  repeat' first
    | with_reducible assumption
    | with_reducible apply State.tryStore_only
    | with_reducible apply State.serve_only
    | with_reducible apply State.sendOn_only
    | with_reducible apply State.route_only
    | with_reducible apply ite_only
    | with_reducible apply ite_fst_only
    | with_reducible intro _
    | split
    | dsimp only
    | ((with_reducible apply only_mk) <;> first
        | with_reducible exact fun _ => rfl
        | exact fun hn => absurd (hq (by decide)) hn
        | skip)
    | exact List.Subset.trans (by decide) hq
    | refine pair_only (by assumption) ?_
    | assumption

theorem execStoreRelease_only {s0 : State} {ps : List Part} (n : Nat) (s : State) (hs : s0.changesOnly s ps) (hq : [.pkg, .ports, .req, .coh, .ext, .tier, .xl, .cmp, .cpu, .clv, .atn, .comp, .sec, .log, .adk, .evq] ⊆ ps) : onlyNext s0 (execStoreRelease n s) ps := by
  unfold execStoreRelease
  repeat' first
    | with_reducible assumption
    | with_reducible apply State.wakeStaged_only
    | with_reducible apply State.releaseStore_only
    | with_reducible apply ite_only
    | with_reducible apply ite_fst_only
    | with_reducible apply next_only
    | with_reducible intro _
    | split
    | dsimp only
    | ((with_reducible apply only_mk) <;> first
        | with_reducible exact fun _ => rfl
        | exact fun hn => absurd (hq (by decide)) hn
        | skip)
    | exact List.Subset.trans (by decide) hq
    | refine pair_only (by assumption) ?_
    | assumption

theorem State.forward_only {s0 : State} {ps : List Part} (s : State) (b : Nat) (f : Frame) (hs : s0.changesOnly s ps) (hq : [.pkg, .ports, .adk, .evq] ⊆ ps) : s0.changesOnly (State.forward s b f) ps := by
  unfold State.forward
  repeat' first
    | with_reducible assumption
    | with_reducible apply State.countPrt_only
    | with_reducible apply State.sendFrom_only
    | with_reducible apply ite_only
    | with_reducible apply ite_fst_only
    | with_reducible intro _
    | split
    | dsimp only
    | ((with_reducible apply only_mk) <;> first
        | with_reducible exact fun _ => rfl
        | exact fun hn => absurd (hq (by decide)) hn
        | skip)
    | exact List.Subset.trans (by decide) hq
    | refine pair_only (by assumption) ?_
    | assumption

theorem State.answered_only {s0 : State} {ps : List Part} (s : State) (b : Nat) (r : Req) (f : Frame) (hs : s0.changesOnly s ps) (hq : [.pkg, .ports, .req, .coh, .ext, .tier, .xl, .cmp, .cpu, .clv, .atn, .comp, .sec, .log, .adk, .evq] ⊆ ps) : s0.changesOnly (State.answered s b r f) ps := by
  unfold State.answered
  repeat' first
    | with_reducible assumption
    | with_reducible apply State.countPrt_only
    | with_reducible apply State.tagFree_only
    | with_reducible apply State.putReq_only
    | with_reducible apply State.finish_only
    | with_reducible apply State.finishFrame_only
    | with_reducible apply State.wakeStaged_only
    | with_reducible apply State.rateDecrease_only
    | with_reducible apply ite_only
    | with_reducible apply ite_fst_only
    | with_reducible intro _
    | split
    | dsimp only
    | ((with_reducible apply only_mk) <;> first
        | with_reducible exact fun _ => rfl
        | exact fun hn => absurd (hq (by decide)) hn
        | skip)
    | exact List.Subset.trans (by decide) hq
    | refine pair_only (by assumption) ?_
    | assumption

theorem State.responseIn_only {s0 : State} {ps : List Part} (s : State) (b : Nat) (f : Frame) (hs : s0.changesOnly s ps) (hq : [.pkg, .ports, .req, .coh, .ext, .tier, .xl, .cmp, .cpu, .clv, .atn, .comp, .sec, .log, .adk, .evq] ⊆ ps) : s0.changesOnly (State.responseIn s b f) ps := by
  unfold State.responseIn
  repeat' first
    | with_reducible assumption
    | with_reducible apply State.countPrt_only
    | with_reducible apply State.trayAnswer_only
    | with_reducible apply State.rateDecrease_only
    | with_reducible apply State.forward_only
    | with_reducible apply State.answered_only
    | with_reducible apply ite_only
    | with_reducible apply ite_fst_only
    | with_reducible intro _
    | split
    | dsimp only
    | ((with_reducible apply only_mk) <;> first
        | with_reducible exact fun _ => rfl
        | exact fun hn => absurd (hq (by decide)) hn
        | skip)
    | exact List.Subset.trans (by decide) hq
    | refine pair_only (by assumption) ?_
    | assumption

theorem State.rspFrame_only {s0 : State} {ps : List Part} (s : State) (p : BitVec 8) (op : BitVec 8) (f : Frame) (hs : s0.changesOnly s ps) (hq : [.free, .pkg, .ports, .bridles, .req, .coh, .ext, .lse, .tier, .xl, .cmp, .cpu, .clv, .atn, .comp, .sec, .log, .adk, .evq] ⊆ ps) : s0.changesOnly (State.rspFrame s p op f) ps := by
  unfold State.rspFrame
  repeat' first
    | with_reducible assumption
    | with_reducible apply State.arrive_only
    | with_reducible apply State.responseIn_only
    | with_reducible apply ite_only
    | with_reducible apply ite_fst_only
    | with_reducible intro _
    | split
    | dsimp only
    | ((with_reducible apply only_mk) <;> first
        | with_reducible exact fun _ => rfl
        | exact fun hn => absurd (hq (by decide)) hn
        | skip)
    | exact List.Subset.trans (by decide) hq
    | refine pair_only (by assumption) ?_
    | assumption

theorem State.passFrame_only {s0 : State} {ps : List Part} (s : State) (p : BitVec 8) (op : BitVec 8) (f : Frame) (hs : s0.changesOnly s ps) (hq : [.free, .pkg, .ports, .bridles, .req, .coh, .ext, .lse, .tier, .xl, .cmp, .cpu, .clv, .atn, .comp, .sec, .log, .adk, .evq] ⊆ ps) : s0.changesOnly (State.passFrame s p op f) ps := by
  unfold State.passFrame
  repeat' first
    | with_reducible assumption
    | with_reducible apply State.arrive_only
    | with_reducible apply State.forward_only
    | with_reducible apply ite_only
    | with_reducible apply ite_fst_only
    | with_reducible intro _
    | split
    | dsimp only
    | ((with_reducible apply only_mk) <;> first
        | with_reducible exact fun _ => rfl
        | exact fun hn => absurd (hq (by decide)) hn
        | skip)
    | exact List.Subset.trans (by decide) hq
    | refine pair_only (by assumption) ?_
    | assumption

theorem execRspData_only {s0 : State} {ps : List Part} (port : BitVec 8) (frame : Frame) (s : State) (hs : s0.changesOnly s ps) (hq : [.free, .pkg, .ports, .bridles, .req, .coh, .ext, .lse, .tier, .xl, .cmp, .cpu, .clv, .atn, .comp, .sec, .log, .adk, .evq] ⊆ ps) : onlyNext s0 (execRspData port frame s) ps := by
  unfold execRspData
  repeat' first
    | with_reducible assumption
    | with_reducible apply State.rspFrame_only
    | with_reducible apply ite_only
    | with_reducible apply ite_fst_only
    | with_reducible apply next_only
    | with_reducible intro _
    | split
    | dsimp only
    | ((with_reducible apply only_mk) <;> first
        | with_reducible exact fun _ => rfl
        | exact fun hn => absurd (hq (by decide)) hn
        | skip)
    | exact List.Subset.trans (by decide) hq
    | refine pair_only (by assumption) ?_
    | assumption

theorem execRspCmp_only {s0 : State} {ps : List Part} (port : BitVec 8) (frame : Frame) (s : State) (hs : s0.changesOnly s ps) (hq : [.free, .pkg, .ports, .bridles, .req, .coh, .ext, .lse, .tier, .xl, .cmp, .cpu, .clv, .atn, .comp, .sec, .log, .adk, .evq] ⊆ ps) : onlyNext s0 (execRspCmp port frame s) ps := by
  unfold execRspCmp
  repeat' first
    | with_reducible assumption
    | with_reducible apply State.rspFrame_only
    | with_reducible apply ite_only
    | with_reducible apply ite_fst_only
    | with_reducible apply next_only
    | with_reducible intro _
    | split
    | dsimp only
    | ((with_reducible apply only_mk) <;> first
        | with_reducible exact fun _ => rfl
        | exact fun hn => absurd (hq (by decide)) hn
        | skip)
    | exact List.Subset.trans (by decide) hq
    | refine pair_only (by assumption) ?_
    | assumption

theorem execSbData_only {s0 : State} {ps : List Part} (port : BitVec 8) (frame : Frame) (s : State) (hs : s0.changesOnly s ps) (hq : [.free, .pkg, .ports, .bridles, .req, .coh, .ext, .lse, .tier, .xl, .cmp, .cpu, .clv, .atn, .comp, .sec, .log, .adk, .evq] ⊆ ps) : onlyNext s0 (execSbData port frame s) ps := by
  unfold execSbData
  repeat' first
    | with_reducible assumption
    | with_reducible apply State.rspFrame_only
    | with_reducible apply ite_only
    | with_reducible apply ite_fst_only
    | with_reducible apply next_only
    | with_reducible intro _
    | split
    | dsimp only
    | ((with_reducible apply only_mk) <;> first
        | with_reducible exact fun _ => rfl
        | exact fun hn => absurd (hq (by decide)) hn
        | skip)
    | exact List.Subset.trans (by decide) hq
    | refine pair_only (by assumption) ?_
    | assumption

theorem execCData_only {s0 : State} {ps : List Part} (port : BitVec 8) (frame : Frame) (s : State) (hs : s0.changesOnly s ps) (hq : [.free, .pkg, .ports, .bridles, .req, .coh, .ext, .lse, .tier, .xl, .cmp, .cpu, .clv, .atn, .comp, .sec, .log, .adk, .evq] ⊆ ps) : onlyNext s0 (execCData port frame s) ps := by
  unfold execCData
  repeat' first
    | with_reducible assumption
    | with_reducible apply State.rspFrame_only
    | with_reducible apply ite_only
    | with_reducible apply ite_fst_only
    | with_reducible apply next_only
    | with_reducible intro _
    | split
    | dsimp only
    | ((with_reducible apply only_mk) <;> first
        | with_reducible exact fun _ => rfl
        | exact fun hn => absurd (hq (by decide)) hn
        | skip)
    | exact List.Subset.trans (by decide) hq
    | refine pair_only (by assumption) ?_
    | assumption

theorem execCGnt_only {s0 : State} {ps : List Part} (port : BitVec 8) (frame : Frame) (s : State) (hs : s0.changesOnly s ps) (hq : [.free, .pkg, .ports, .bridles, .req, .coh, .ext, .lse, .tier, .xl, .cmp, .cpu, .clv, .atn, .comp, .sec, .log, .adk, .evq] ⊆ ps) : onlyNext s0 (execCGnt port frame s) ps := by
  unfold execCGnt
  repeat' first
    | with_reducible assumption
    | with_reducible apply State.rspFrame_only
    | with_reducible apply ite_only
    | with_reducible apply ite_fst_only
    | with_reducible apply next_only
    | with_reducible intro _
    | split
    | dsimp only
    | ((with_reducible apply only_mk) <;> first
        | with_reducible exact fun _ => rfl
        | exact fun hn => absurd (hq (by decide)) hn
        | skip)
    | exact List.Subset.trans (by decide) hq
    | refine pair_only (by assumption) ?_
    | assumption

theorem execSnpInv_only {s0 : State} {ps : List Part} (port : BitVec 8) (frame : Frame) (s : State) (hs : s0.changesOnly s ps) (hq : [.free, .pkg, .ports, .bridles, .req, .coh, .ext, .lse, .tier, .xl, .cmp, .cpu, .clv, .atn, .comp, .sec, .log, .adk, .evq] ⊆ ps) : onlyNext s0 (execSnpInv port frame s) ps := by
  unfold execSnpInv
  repeat' first
    | with_reducible assumption
    | with_reducible apply State.passFrame_only
    | with_reducible apply ite_only
    | with_reducible apply ite_fst_only
    | with_reducible apply next_only
    | with_reducible intro _
    | split
    | dsimp only
    | ((with_reducible apply only_mk) <;> first
        | with_reducible exact fun _ => rfl
        | exact fun hn => absurd (hq (by decide)) hn
        | skip)
    | exact List.Subset.trans (by decide) hq
    | refine pair_only (by assumption) ?_
    | assumption

theorem execSnpShr_only {s0 : State} {ps : List Part} (port : BitVec 8) (frame : Frame) (s : State) (hs : s0.changesOnly s ps) (hq : [.free, .pkg, .ports, .bridles, .req, .coh, .ext, .lse, .tier, .xl, .cmp, .cpu, .clv, .atn, .comp, .sec, .log, .adk, .evq] ⊆ ps) : onlyNext s0 (execSnpShr port frame s) ps := by
  unfold execSnpShr
  repeat' first
    | with_reducible assumption
    | with_reducible apply State.passFrame_only
    | with_reducible apply ite_only
    | with_reducible apply ite_fst_only
    | with_reducible apply next_only
    | with_reducible intro _
    | split
    | dsimp only
    | ((with_reducible apply only_mk) <;> first
        | with_reducible exact fun _ => rfl
        | exact fun hn => absurd (hq (by decide)) hn
        | skip)
    | exact List.Subset.trans (by decide) hq
    | refine pair_only (by assumption) ?_
    | assumption

theorem execSnpBinv_only {s0 : State} {ps : List Part} (port : BitVec 8) (frame : Frame) (s : State) (hs : s0.changesOnly s ps) (hq : [.free, .pkg, .ports, .bridles, .req, .coh, .ext, .lse, .tier, .xl, .cmp, .cpu, .clv, .atn, .comp, .sec, .log, .adk, .evq] ⊆ ps) : onlyNext s0 (execSnpBinv port frame s) ps := by
  unfold execSnpBinv
  repeat' first
    | with_reducible assumption
    | with_reducible apply State.passFrame_only
    | with_reducible apply ite_only
    | with_reducible apply ite_fst_only
    | with_reducible apply next_only
    | with_reducible intro _
    | split
    | dsimp only
    | ((with_reducible apply only_mk) <;> first
        | with_reducible exact fun _ => rfl
        | exact fun hn => absurd (hq (by decide)) hn
        | skip)
    | exact List.Subset.trans (by decide) hq
    | refine pair_only (by assumption) ?_
    | assumption

theorem execFaultRec_only {s0 : State} {ps : List Part} (port : BitVec 8) (frame : Frame) (s : State) (hs : s0.changesOnly s ps) (hq : [.free, .pkg, .ports, .bridles, .req, .coh, .ext, .lse, .tier, .xl, .cmp, .cpu, .clv, .atn, .comp, .sec, .log, .adk, .evq] ⊆ ps) : onlyNext s0 (execFaultRec port frame s) ps := by
  unfold execFaultRec
  repeat' first
    | with_reducible assumption
    | with_reducible apply State.passFrame_only
    | with_reducible apply ite_only
    | with_reducible apply ite_fst_only
    | with_reducible apply next_only
    | with_reducible intro _
    | split
    | dsimp only
    | ((with_reducible apply only_mk) <;> first
        | with_reducible exact fun _ => rfl
        | exact fun hn => absurd (hq (by decide)) hn
        | skip)
    | exact List.Subset.trans (by decide) hq
    | refine pair_only (by assumption) ?_
    | assumption

theorem execDomNote_only {s0 : State} {ps : List Part} (port : BitVec 8) (frame : Frame) (s : State) (hs : s0.changesOnly s ps) (hq : [.free, .pkg, .ports, .bridles, .req, .coh, .ext, .lse, .tier, .xl, .cmp, .cpu, .clv, .atn, .comp, .sec, .log, .adk, .evq] ⊆ ps) : onlyNext s0 (execDomNote port frame s) ps := by
  unfold execDomNote
  repeat' first
    | with_reducible assumption
    | with_reducible apply State.passFrame_only
    | with_reducible apply ite_only
    | with_reducible apply ite_fst_only
    | with_reducible apply next_only
    | with_reducible intro _
    | split
    | dsimp only
    | ((with_reducible apply only_mk) <;> first
        | with_reducible exact fun _ => rfl
        | exact fun hn => absurd (hq (by decide)) hn
        | skip)
    | exact List.Subset.trans (by decide) hq
    | refine pair_only (by assumption) ?_
    | assumption

theorem State.copyBack_only {s0 : State} {ps : List Part} (s : State) (x : Snoop) (data : Option (List Byte)) (hs : s0.changesOnly s ps) (hq : [.pkg, .ports, .req, .coh, .ext, .tier, .sec, .adk, .evq] ⊆ ps) : s0.changesOnly (State.copyBack s x data) ps := by
  unfold State.copyBack
  repeat' first
    | with_reducible assumption
    | with_reducible apply State.dropHolder_only
    | with_reducible apply State.homeWrite_only
    | with_reducible apply ite_only
    | with_reducible apply ite_fst_only
    | with_reducible intro _
    | split
    | dsimp only
    | ((with_reducible apply only_mk) <;> first
        | with_reducible exact fun _ => rfl
        | exact fun hn => absurd (hq (by decide)) hn
        | skip)
    | exact List.Subset.trans (by decide) hq
    | refine pair_only (by assumption) ?_
    | assumption

theorem State.snoopFor_only {s0 : State} {ps : List Part} (s : State) (x : Snoop) (r : Req) (data : Option (List Byte)) (hs : s0.changesOnly s ps) (hq : [.pkg, .ports, .req, .coh, .ext, .tier, .sec, .adk, .evq] ⊆ ps) : s0.changesOnly (State.snoopFor s x r data) ps := by
  unfold State.snoopFor
  repeat' first
    | with_reducible assumption
    | with_reducible apply State.dropHolder_only
    | with_reducible apply State.putReq_only
    | with_reducible apply State.copyBack_only
    | with_reducible apply ite_only
    | with_reducible apply ite_fst_only
    | with_reducible intro _
    | split
    | dsimp only
    | ((with_reducible apply only_mk) <;> first
        | with_reducible exact fun _ => rfl
        | exact fun hn => absurd (hq (by decide)) hn
        | skip)
    | exact List.Subset.trans (by decide) hq
    | refine pair_only (by assumption) ?_
    | assumption

theorem State.snoopAnswer_only {s0 : State} {ps : List Part} (s : State) (x : Snoop) (data : Option (List Byte)) (hs : s0.changesOnly s ps) (hq : [.pkg, .ports, .req, .coh, .ext, .tier, .xl, .cmp, .cpu, .clv, .atn, .comp, .sec, .log, .adk, .evq] ⊆ ps) : s0.changesOnly (State.snoopAnswer s x data) ps := by
  unfold State.snoopAnswer
  repeat' first
    | with_reducible assumption
    | with_reducible apply State.setDir_only
    | with_reducible apply State.settled_only
    | with_reducible apply State.copyBack_only
    | with_reducible apply State.snoopFor_only
    | with_reducible apply ite_only
    | with_reducible apply ite_fst_only
    | with_reducible intro _
    | split
    | dsimp only
    | ((with_reducible apply only_mk) <;> first
        | with_reducible exact fun _ => rfl
        | exact fun hn => absurd (hq (by decide)) hn
        | skip)
    | exact List.Subset.trans (by decide) hq
    | refine pair_only (by assumption) ?_
    | assumption

theorem State.snoopIn_only {s0 : State} {ps : List Part} (s : State) (b : Nat) (f : Frame) (data : Option (List Byte)) (hs : s0.changesOnly s ps) (hq : [.pkg, .ports, .req, .coh, .ext, .tier, .xl, .cmp, .cpu, .clv, .atn, .comp, .sec, .log, .adk, .evq] ⊆ ps) : s0.changesOnly (State.snoopIn s b f data) ps := by
  unfold State.snoopIn
  repeat' first
    | with_reducible assumption
    | with_reducible apply State.countPrt_only
    | with_reducible apply State.forward_only
    | with_reducible apply State.snoopAnswer_only
    | with_reducible apply ite_only
    | with_reducible apply ite_fst_only
    | with_reducible intro _
    | split
    | dsimp only
    | ((with_reducible apply only_mk) <;> first
        | with_reducible exact fun _ => rfl
        | exact fun hn => absurd (hq (by decide)) hn
        | skip)
    | exact List.Subset.trans (by decide) hq
    | refine pair_only (by assumption) ?_
    | assumption

theorem execSnpAck_only {s0 : State} {ps : List Part} (port : BitVec 8) (frame : Frame) (s : State) (hs : s0.changesOnly s ps) (hq : [.free, .pkg, .ports, .bridles, .req, .coh, .ext, .lse, .tier, .xl, .cmp, .cpu, .clv, .atn, .comp, .sec, .log, .adk, .evq] ⊆ ps) : onlyNext s0 (execSnpAck port frame s) ps := by
  unfold execSnpAck
  repeat' first
    | with_reducible assumption
    | with_reducible apply State.arrive_only
    | with_reducible apply State.snoopIn_only
    | with_reducible apply ite_only
    | with_reducible apply ite_fst_only
    | with_reducible apply next_only
    | with_reducible intro _
    | split
    | dsimp only
    | ((with_reducible apply only_mk) <;> first
        | with_reducible exact fun _ => rfl
        | exact fun hn => absurd (hq (by decide)) hn
        | skip)
    | exact List.Subset.trans (by decide) hq
    | refine pair_only (by assumption) ?_
    | assumption

theorem execSnpData_only {s0 : State} {ps : List Part} (port : BitVec 8) (frame : Frame) (s : State) (hs : s0.changesOnly s ps) (hq : [.free, .pkg, .ports, .bridles, .req, .coh, .ext, .lse, .tier, .xl, .cmp, .cpu, .clv, .atn, .comp, .sec, .log, .adk, .evq] ⊆ ps) : onlyNext s0 (execSnpData port frame s) ps := by
  unfold execSnpData
  repeat' first
    | with_reducible assumption
    | with_reducible apply State.arrive_only
    | with_reducible apply State.snoopIn_only
    | with_reducible apply ite_only
    | with_reducible apply ite_fst_only
    | with_reducible apply next_only
    | with_reducible intro _
    | split
    | dsimp only
    | ((with_reducible apply only_mk) <;> first
        | with_reducible exact fun _ => rfl
        | exact fun hn => absurd (hq (by decide)) hn
        | skip)
    | exact List.Subset.trans (by decide) hq
    | refine pair_only (by assumption) ?_
    | assumption

theorem execLeaseRenew_only {s0 : State} {ps : List Part} (port : BitVec 8) (frame : Frame) (s : State) (hs : s0.changesOnly s ps) (hq : [.free, .pkg, .ports, .bridles, .req, .coh, .ext, .lse, .tier, .xl, .cmp, .cpu, .clv, .atn, .comp, .sec, .log, .adk, .evq] ⊆ ps) : onlyNext s0 (execLeaseRenew port frame s) ps := by
  unfold execLeaseRenew
  repeat' first
    | with_reducible assumption
    | with_reducible apply State.countLse_only
    | with_reducible apply State.leaseRenew_only
    | with_reducible apply State.arrive_only
    | with_reducible apply ite_only
    | with_reducible apply ite_fst_only
    | with_reducible apply next_only
    | with_reducible intro _
    | split
    | dsimp only
    | ((with_reducible apply only_mk) <;> first
        | with_reducible exact fun _ => rfl
        | exact fun hn => absurd (hq (by decide)) hn
        | skip)
    | exact List.Subset.trans (by decide) hq
    | refine pair_only (by assumption) ?_
    | assumption

theorem State.clusterIn_only {s0 : State} {ps : List Part} (s : State) (b : Nat) (f : Frame) (hs : s0.changesOnly s ps) (hq : [.pkg, .ports, .req, .coh, .ext, .tier, .xl, .cmp, .cpu, .clv, .atn, .comp, .sec, .log, .adk, .evq] ⊆ ps) : s0.changesOnly (State.clusterIn s b f) ps := by
  unfold State.clusterIn
  repeat' first
    | with_reducible assumption
    | with_reducible apply State.number_only
    | with_reducible apply State.fenced_only
    | with_reducible apply ite_only
    | with_reducible apply ite_fst_only
    | with_reducible intro _
    | split
    | dsimp only
    | ((with_reducible apply only_mk) <;> first
        | with_reducible exact fun _ => rfl
        | exact fun hn => absurd (hq (by decide)) hn
        | skip)
    | exact List.Subset.trans (by decide) hq
    | refine pair_only (by assumption) ?_
    | assumption

theorem execCollOpen_only {s0 : State} {ps : List Part} (port : BitVec 8) (frame : Frame) (s : State) (hs : s0.changesOnly s ps) (hq : [.free, .pkg, .ports, .bridles, .req, .coh, .ext, .lse, .tier, .xl, .cmp, .cpu, .clv, .atn, .comp, .sec, .log, .adk, .evq] ⊆ ps) : onlyNext s0 (execCollOpen port frame s) ps := by
  unfold execCollOpen
  repeat' first
    | with_reducible assumption
    | with_reducible apply State.arrive_only
    | with_reducible apply State.clusterIn_only
    | with_reducible apply ite_only
    | with_reducible apply ite_fst_only
    | with_reducible apply next_only
    | with_reducible intro _
    | split
    | dsimp only
    | ((with_reducible apply only_mk) <;> first
        | with_reducible exact fun _ => rfl
        | exact fun hn => absurd (hq (by decide)) hn
        | skip)
    | exact List.Subset.trans (by decide) hq
    | refine pair_only (by assumption) ?_
    | assumption

theorem execCollContrib_only {s0 : State} {ps : List Part} (port : BitVec 8) (frame : Frame) (s : State) (hs : s0.changesOnly s ps) (hq : [.free, .pkg, .ports, .bridles, .req, .coh, .ext, .lse, .tier, .xl, .cmp, .cpu, .clv, .atn, .comp, .sec, .log, .adk, .evq] ⊆ ps) : onlyNext s0 (execCollContrib port frame s) ps := by
  unfold execCollContrib
  repeat' first
    | with_reducible assumption
    | with_reducible apply State.collContrib_only
    | with_reducible apply State.arrive_only
    | with_reducible apply State.forward_only
    | with_reducible apply ite_only
    | with_reducible apply ite_fst_only
    | with_reducible apply next_only
    | with_reducible intro _
    | split
    | dsimp only
    | ((with_reducible apply only_mk) <;> first
        | with_reducible exact fun _ => rfl
        | exact fun hn => absurd (hq (by decide)) hn
        | skip)
    | exact List.Subset.trans (by decide) hq
    | refine pair_only (by assumption) ?_
    | assumption

theorem State.strayColl_only {s0 : State} {ps : List Part} (s : State) (b : Nat) (f : Frame) (hs : s0.changesOnly s ps) (hq : [.pkg, .ports, .clv, .adk, .evq] ⊆ ps) : s0.changesOnly (State.strayColl s b f) ps := by
  unfold State.strayColl
  repeat' first
    | with_reducible assumption
    | with_reducible apply State.countClv_only
    | with_reducible apply State.forward_only
    | with_reducible apply ite_only
    | with_reducible apply ite_fst_only
    | with_reducible intro _
    | split
    | dsimp only
    | ((with_reducible apply only_mk) <;> first
        | with_reducible exact fun _ => rfl
        | exact fun hn => absurd (hq (by decide)) hn
        | skip)
    | exact List.Subset.trans (by decide) hq
    | refine pair_only (by assumption) ?_
    | assumption

theorem execCollResult_only {s0 : State} {ps : List Part} (port : BitVec 8) (frame : Frame) (s : State) (hs : s0.changesOnly s ps) (hq : [.free, .pkg, .ports, .bridles, .req, .coh, .ext, .lse, .tier, .xl, .cmp, .cpu, .clv, .atn, .comp, .sec, .log, .adk, .evq] ⊆ ps) : onlyNext s0 (execCollResult port frame s) ps := by
  unfold execCollResult
  repeat' first
    | with_reducible assumption
    | with_reducible apply State.passResult_only
    | with_reducible apply State.arrive_only
    | with_reducible apply State.strayColl_only
    | with_reducible apply ite_only
    | with_reducible apply ite_fst_only
    | with_reducible apply next_only
    | with_reducible intro _
    | split
    | dsimp only
    | ((with_reducible apply only_mk) <;> first
        | with_reducible exact fun _ => rfl
        | exact fun hn => absurd (hq (by decide)) hn
        | skip)
    | exact List.Subset.trans (by decide) hq
    | refine pair_only (by assumption) ?_
    | assumption

theorem execCollGrant_only {s0 : State} {ps : List Part} (port : BitVec 8) (frame : Frame) (s : State) (hs : s0.changesOnly s ps) (hq : [.free, .pkg, .ports, .bridles, .req, .coh, .ext, .lse, .tier, .xl, .cmp, .cpu, .clv, .atn, .comp, .sec, .log, .adk, .evq] ⊆ ps) : onlyNext s0 (execCollGrant port frame s) ps := by
  unfold execCollGrant
  repeat' first
    | with_reducible assumption
    | with_reducible apply State.onColl_only
    | with_reducible apply State.collProgress_only
    | with_reducible apply State.arrive_only
    | with_reducible apply State.strayColl_only
    | with_reducible apply ite_only
    | with_reducible apply ite_fst_only
    | with_reducible apply next_only
    | with_reducible intro _
    | split
    | dsimp only
    | ((with_reducible apply only_mk) <;> first
        | with_reducible exact fun _ => rfl
        | exact fun hn => absurd (hq (by decide)) hn
        | skip)
    | exact List.Subset.trans (by decide) hq
    | refine pair_only (by assumption) ?_
    | assumption

theorem execCollDone_only {s0 : State} {ps : List Part} (port : BitVec 8) (frame : Frame) (s : State) (hs : s0.changesOnly s ps) (hq : [.free, .pkg, .ports, .bridles, .req, .coh, .ext, .lse, .tier, .xl, .cmp, .cpu, .clv, .atn, .comp, .sec, .log, .adk, .evq] ⊆ ps) : onlyNext s0 (execCollDone port frame s) ps := by
  unfold execCollDone
  repeat' first
    | with_reducible assumption
    | with_reducible apply State.tagFree_only
    | with_reducible apply State.collDoneFrom_only
    | with_reducible apply State.arrive_only
    | with_reducible apply State.answered_only
    | with_reducible apply State.strayColl_only
    | with_reducible apply ite_only
    | with_reducible apply ite_fst_only
    | with_reducible apply next_only
    | with_reducible intro _
    | split
    | dsimp only
    | ((with_reducible apply only_mk) <;> first
        | with_reducible exact fun _ => rfl
        | exact fun hn => absurd (hq (by decide)) hn
        | skip)
    | exact List.Subset.trans (by decide) hq
    | refine pair_only (by assumption) ?_
    | assumption

theorem execAbort_only {s0 : State} {ps : List Part} (port : BitVec 8) (frame : Frame) (s : State) (hs : s0.changesOnly s ps) (hq : [.free, .pkg, .ports, .bridles, .req, .coh, .ext, .lse, .tier, .xl, .cmp, .cpu, .clv, .atn, .comp, .sec, .log, .adk, .evq] ⊆ ps) : onlyNext s0 (execAbort port frame s) ps := by
  unfold execAbort
  repeat' first
    | with_reducible assumption
    | with_reducible apply State.collAbortFrame_only
    | with_reducible apply State.arrive_only
    | with_reducible apply State.forward_only
    | with_reducible apply ite_only
    | with_reducible apply ite_fst_only
    | with_reducible apply next_only
    | with_reducible intro _
    | split
    | dsimp only
    | ((with_reducible apply only_mk) <;> first
        | with_reducible exact fun _ => rfl
        | exact fun hn => absurd (hq (by decide)) hn
        | skip)
    | exact List.Subset.trans (by decide) hq
    | refine pair_only (by assumption) ?_
    | assumption

theorem execAtnDecode_only {s0 : State} {ps : List Part} (port : BitVec 8) (frame : Frame) (s : State) (hs : s0.changesOnly s ps) (hq : [.free, .pkg, .ports, .bridles, .req, .coh, .ext, .lse, .tier, .xl, .cmp, .cpu, .clv, .atn, .comp, .sec, .log, .adk, .evq] ⊆ ps) : onlyNext s0 (execAtnDecode port frame s) ps := by
  unfold execAtnDecode
  repeat' first
    | with_reducible assumption
    | with_reducible apply State.arrive_only
    | with_reducible apply State.clusterIn_only
    | with_reducible apply ite_only
    | with_reducible apply ite_fst_only
    | with_reducible apply next_only
    | with_reducible intro _
    | split
    | dsimp only
    | ((with_reducible apply only_mk) <;> first
        | with_reducible exact fun _ => rfl
        | exact fun hn => absurd (hq (by decide)) hn
        | skip)
    | exact List.Subset.trans (by decide) hq
    | refine pair_only (by assumption) ?_
    | assumption

theorem execAtnBind_only {s0 : State} {ps : List Part} (port : BitVec 8) (frame : Frame) (s : State) (hs : s0.changesOnly s ps) (hq : [.free, .pkg, .ports, .bridles, .req, .coh, .ext, .lse, .tier, .xl, .cmp, .cpu, .clv, .atn, .comp, .sec, .log, .adk, .evq] ⊆ ps) : onlyNext s0 (execAtnBind port frame s) ps := by
  unfold execAtnBind
  repeat' first
    | with_reducible assumption
    | with_reducible apply State.arrive_only
    | with_reducible apply State.clusterIn_only
    | with_reducible apply ite_only
    | with_reducible apply ite_fst_only
    | with_reducible apply next_only
    | with_reducible intro _
    | split
    | dsimp only
    | ((with_reducible apply only_mk) <;> first
        | with_reducible exact fun _ => rfl
        | exact fun hn => absurd (hq (by decide)) hn
        | skip)
    | exact List.Subset.trans (by decide) hq
    | refine pair_only (by assumption) ?_
    | assumption

theorem execAtnRelease_only {s0 : State} {ps : List Part} (port : BitVec 8) (frame : Frame) (s : State) (hs : s0.changesOnly s ps) (hq : [.free, .pkg, .ports, .bridles, .req, .coh, .ext, .lse, .tier, .xl, .cmp, .cpu, .clv, .atn, .comp, .sec, .log, .adk, .evq] ⊆ ps) : onlyNext s0 (execAtnRelease port frame s) ps := by
  unfold execAtnRelease
  repeat' first
    | with_reducible assumption
    | with_reducible apply State.arrive_only
    | with_reducible apply State.clusterIn_only
    | with_reducible apply ite_only
    | with_reducible apply ite_fst_only
    | with_reducible apply next_only
    | with_reducible intro _
    | split
    | dsimp only
    | ((with_reducible apply only_mk) <;> first
        | with_reducible exact fun _ => rfl
        | exact fun hn => absurd (hq (by decide)) hn
        | skip)
    | exact List.Subset.trans (by decide) hq
    | refine pair_only (by assumption) ?_
    | assumption

theorem execAtnSub_only {s0 : State} {ps : List Part} (port : BitVec 8) (frame : Frame) (s : State) (hs : s0.changesOnly s ps) (hq : [.free, .pkg, .ports, .bridles, .req, .coh, .ext, .lse, .tier, .xl, .cmp, .cpu, .clv, .atn, .comp, .sec, .log, .adk, .evq] ⊆ ps) : onlyNext s0 (execAtnSub port frame s) ps := by
  unfold execAtnSub
  repeat' first
    | with_reducible assumption
    | with_reducible apply State.attnSub_only
    | with_reducible apply State.arrive_only
    | with_reducible apply State.number_only
    | with_reducible apply State.requestIn_only
    | with_reducible apply ite_only
    | with_reducible apply ite_fst_only
    | with_reducible apply next_only
    | with_reducible intro _
    | split
    | dsimp only
    | ((with_reducible apply only_mk) <;> first
        | with_reducible exact fun _ => rfl
        | exact fun hn => absurd (hq (by decide)) hn
        | skip)
    | exact List.Subset.trans (by decide) hq
    | refine pair_only (by assumption) ?_
    | assumption

theorem State.attnAnswerIn_only {s0 : State} {ps : List Part} (s : State) (b : Nat) (f : Frame) (hs : s0.changesOnly s ps) (hq : [.pkg, .ports, .req, .coh, .ext, .tier, .xl, .cmp, .cpu, .clv, .atn, .comp, .sec, .log, .adk, .evq] ⊆ ps) : s0.changesOnly (State.attnAnswerIn s b f) ps := by
  unfold State.attnAnswerIn
  repeat' first
    | with_reducible assumption
    | with_reducible apply State.countPrt_only
    | with_reducible apply State.emit_only
    | with_reducible apply State.forward_only
    | with_reducible apply State.answered_only
    | with_reducible apply ite_only
    | with_reducible apply ite_fst_only
    | with_reducible intro _
    | split
    | dsimp only
    | ((with_reducible apply only_mk) <;> first
        | with_reducible exact fun _ => rfl
        | exact fun hn => absurd (hq (by decide)) hn
        | skip)
    | exact List.Subset.trans (by decide) hq
    | refine pair_only (by assumption) ?_
    | assumption

theorem execAtnResult_only {s0 : State} {ps : List Part} (port : BitVec 8) (frame : Frame) (s : State) (hs : s0.changesOnly s ps) (hq : [.free, .pkg, .ports, .bridles, .req, .coh, .ext, .lse, .tier, .xl, .cmp, .cpu, .clv, .atn, .comp, .sec, .log, .adk, .evq] ⊆ ps) : onlyNext s0 (execAtnResult port frame s) ps := by
  unfold execAtnResult
  repeat' first
    | with_reducible assumption
    | with_reducible apply State.arrive_only
    | with_reducible apply State.attnAnswerIn_only
    | with_reducible apply ite_only
    | with_reducible apply ite_fst_only
    | with_reducible apply next_only
    | with_reducible intro _
    | split
    | dsimp only
    | ((with_reducible apply only_mk) <;> first
        | with_reducible exact fun _ => rfl
        | exact fun hn => absurd (hq (by decide)) hn
        | skip)
    | exact List.Subset.trans (by decide) hq
    | refine pair_only (by assumption) ?_
    | assumption

theorem execAtnPart_only {s0 : State} {ps : List Part} (port : BitVec 8) (frame : Frame) (s : State) (hs : s0.changesOnly s ps) (hq : [.free, .pkg, .ports, .bridles, .req, .coh, .ext, .lse, .tier, .xl, .cmp, .cpu, .clv, .atn, .comp, .sec, .log, .adk, .evq] ⊆ ps) : onlyNext s0 (execAtnPart port frame s) ps := by
  unfold execAtnPart
  repeat' first
    | with_reducible assumption
    | with_reducible apply State.attnPart_only
    | with_reducible apply State.rateDecrease_only
    | with_reducible apply State.arrive_only
    | with_reducible apply State.attnAnswerIn_only
    | with_reducible apply ite_only
    | with_reducible apply ite_fst_only
    | with_reducible apply next_only
    | with_reducible intro _
    | split
    | dsimp only
    | ((with_reducible apply only_mk) <;> first
        | with_reducible exact fun _ => rfl
        | exact fun hn => absurd (hq (by decide)) hn
        | skip)
    | exact List.Subset.trans (by decide) hq
    | refine pair_only (by assumption) ?_
    | assumption

end Sys2Proof.Machine
end

