-- ==== Sys2Proof/Laws/OnlySend.lean ====
section
/-! SUPPORT. What every operation of Send leaves alone. -/

set_option linter.unusedTactic false
set_option linter.unreachableTactic false
set_option linter.unusedVariables false

namespace Sys2Proof.Machine

theorem State.sendRequest_only {s0 : State} {ps : List Part} (s : State) (k : Nat) (t : Nat) (sink : ThreadSink) (f : Frame) (hs : s0.changesOnly s ps) (hq : [.pkg, .ports, .req, .coh, .ext, .tier, .xl, .cmp, .cpu, .clv, .atn, .comp, .sec, .log, .adk, .evq] ⊆ ps) : s0.changesOnly (State.sendRequest s k t sink f) ps := by
  unfold State.sendRequest
  repeat' first
    | with_reducible assumption
    | with_reducible apply State.onThread_only
    | with_reducible apply State.coreSend_only
    | with_reducible apply State.number_only
    | with_reducible apply State.fenced_only
    | with_reducible apply ite_only
    | with_reducible apply ite_fst_only
    | with_reducible intro _
    | split
    | dsimp only
    | ((with_reducible apply only_mk) <;> first
        | with_reducible exact fun _ => rfl
        | exact fun hn => absurd (hq (by decide)) hn
        | skip)
    | exact List.Subset.trans (by decide) hq
    | refine pair_only (by assumption) ?_
    | assumption

theorem State.sendPlain_only {s0 : State} {ps : List Part} (s : State) (k : Nat) (t : Nat) (f : Frame) (hs : s0.changesOnly s ps) (hq : [.pkg, .ports, .req, .coh, .ext, .tier, .xl, .cmp, .cpu, .clv, .atn, .comp, .sec, .log, .adk, .evq] ⊆ ps) : s0.changesOnly (State.sendPlain s k t f) ps := by
  unfold State.sendPlain
  repeat' first
    | with_reducible assumption
    | with_reducible apply State.onCore_only
    | with_reducible apply State.onThread_only
    | with_reducible apply State.sendFrom_only
    | with_reducible apply State.collContrib_only
    | with_reducible apply State.collAbortFrame_only
    | with_reducible apply State.number_only
    | with_reducible apply ite_only
    | with_reducible apply ite_fst_only
    | with_reducible intro _
    | split
    | dsimp only
    | ((with_reducible apply only_mk) <;> first
        | with_reducible exact fun _ => rfl
        | exact fun hn => absurd (hq (by decide)) hn
        | skip)
    | exact List.Subset.trans (by decide) hq
    | refine pair_only (by assumption) ?_
    | assumption

theorem execSend_only {s0 : State} {ps : List Part} (core : BitVec 10) (tid : BitVec 6) (ins : Ins) (s : State) (hs : s0.changesOnly s ps) (hq : [.pkg, .ports, .req, .coh, .ext, .tier, .xl, .cmp, .cpu, .clv, .atn, .comp, .sec, .log, .adk, .evq] ⊆ ps) : onlyNext s0 (execSend core tid ins s) ps := by
  unfold execSend
  repeat' first
    | with_reducible assumption
    | with_reducible apply State.localWrite_only
    | with_reducible apply State.issue_only
    | with_reducible apply State.faultHere_only
    | with_reducible apply State.sendRequest_only
    | with_reducible apply State.sendPlain_only
    | with_reducible apply ite_only
    | with_reducible apply ite_fst_only
    | with_reducible apply next_only
    | with_reducible intro _
    | split
    | dsimp only
    | ((with_reducible apply only_mk) <;> first
        | with_reducible exact fun _ => rfl
        | exact fun hn => absurd (hq (by decide)) hn
        | skip)
    | exact List.Subset.trans (by decide) hq
    | refine pair_only (by assumption) ?_
    | assumption

end Sys2Proof.Machine
end

