-- ==== Sys2Proof/Laws/OnlyStartup.lean ====
section
/-! SUPPORT. What every operation of Startup leaves alone. -/

set_option linter.unusedTactic false
set_option linter.unreachableTactic false
set_option linter.unusedVariables false

namespace Sys2Proof.Machine

theorem State.cold_only {s0 : State} {ps : List Part} (s : State) (hs : s0.changesOnly s ps) (hq : [.hb, .pkg, .tim, .ports, .bridles, .req, .coh, .ext, .lse, .adm, .tier, .xl, .cmp, .cpu, .clv, .atn, .comp, .sec, .log, .mod, .adk, .evq, .glb] ⊆ ps) : s0.changesOnly (State.cold s) ps := by
  unfold State.cold
  repeat' first
    | with_reducible assumption
    | with_reducible apply ite_only
    | with_reducible apply ite_fst_only
    | with_reducible intro _
    | split
    | dsimp only
    | ((with_reducible apply only_mk) <;> first
        | with_reducible exact fun _ => rfl
        | exact fun hn => absurd (hq (by decide)) hn
        | skip)
    | exact List.Subset.trans (by decide) hq
    | refine pair_only (by assumption) ?_
    | assumption

theorem State.powerOff_only {s0 : State} {ps : List Part} (s : State) (hs : s0.changesOnly s ps) (hq : [.hb, .pkg, .tim, .ports, .bridles, .req, .coh, .ext, .lse, .adm, .tier, .xl, .cmp, .cpu, .clv, .atn, .comp, .sec, .log, .mod, .adk, .evq, .glb] ⊆ ps) : s0.changesOnly (State.powerOff s) ps := by
  unfold State.powerOff
  repeat' first
    | with_reducible assumption
    | with_reducible apply State.cold_only
    | with_reducible apply ite_only
    | with_reducible apply ite_fst_only
    | with_reducible intro _
    | split
    | dsimp only
    | ((with_reducible apply only_mk) <;> first
        | with_reducible exact fun _ => rfl
        | exact fun hn => absurd (hq (by decide)) hn
        | skip)
    | exact List.Subset.trans (by decide) hq
    | refine pair_only (by assumption) ?_
    | assumption

theorem execPowerGood_only {s0 : State} {ps : List Part} (s : State) (hs : s0.changesOnly s ps) (hq : [.hb, .pkg, .tim, .ports, .bridles, .req, .coh, .ext, .lse, .adm, .tier, .xl, .cmp, .cpu, .clv, .atn, .comp, .sec, .log, .mod, .adk, .evq, .glb] ⊆ ps) : onlyNext s0 (execPowerGood s) ps := by
  unfold execPowerGood
  repeat' first
    | with_reducible assumption
    | with_reducible apply State.changeState_only
    | with_reducible apply State.cold_only
    | with_reducible apply ite_only
    | with_reducible apply ite_fst_only
    | with_reducible apply next_only
    | with_reducible intro _
    | split
    | dsimp only
    | ((with_reducible apply only_mk) <;> first
        | with_reducible exact fun _ => rfl
        | exact fun hn => absurd (hq (by decide)) hn
        | skip)
    | exact List.Subset.trans (by decide) hq
    | refine pair_only (by assumption) ?_
    | assumption

theorem execPowerRemoved_only {s0 : State} {ps : List Part} (s : State) (hs : s0.changesOnly s ps) (hq : [.hb, .pkg, .tim, .ports, .bridles, .req, .coh, .ext, .lse, .adm, .tier, .xl, .cmp, .cpu, .clv, .atn, .comp, .sec, .log, .mod, .adk, .evq, .glb] ⊆ ps) : onlyNext s0 (execPowerRemoved s) ps := by
  unfold execPowerRemoved
  repeat' first
    | with_reducible assumption
    | with_reducible apply State.powerOff_only
    | with_reducible apply ite_only
    | with_reducible apply ite_fst_only
    | with_reducible apply next_only
    | with_reducible intro _
    | split
    | dsimp only
    | ((with_reducible apply only_mk) <;> first
        | with_reducible exact fun _ => rfl
        | exact fun hn => absurd (hq (by decide)) hn
        | skip)
    | exact List.Subset.trans (by decide) hq
    | refine pair_only (by assumption) ?_
    | assumption

theorem execInputUndervoltage_only {s0 : State} {ps : List Part} (since : BitVec 64) (s : State) (hs : s0.changesOnly s ps) (hq : [.hb, .pkg, .tim, .ports, .bridles, .req, .coh, .ext, .lse, .adm, .tier, .xl, .cmp, .cpu, .clv, .atn, .comp, .sec, .log, .mod, .adk, .evq, .glb] ⊆ ps) : onlyNext s0 (execInputUndervoltage since s) ps := by
  unfold execInputUndervoltage
  repeat' first
    | with_reducible assumption
    | with_reducible apply State.powerOff_only
    | with_reducible apply ite_only
    | with_reducible apply ite_fst_only
    | with_reducible apply next_only
    | with_reducible intro _
    | split
    | dsimp only
    | ((with_reducible apply only_mk) <;> first
        | with_reducible exact fun _ => rfl
        | exact fun hn => absurd (hq (by decide)) hn
        | skip)
    | exact List.Subset.trans (by decide) hq
    | refine pair_only (by assumption) ?_
    | assumption

theorem execInputOvercurrent_only {s0 : State} {ps : List Part} (s : State) (hs : s0.changesOnly s ps) (hq : [.hb, .pkg, .tim, .ports, .bridles, .req, .coh, .ext, .lse, .adm, .tier, .xl, .cmp, .cpu, .clv, .atn, .comp, .sec, .log, .mod, .adk, .evq, .glb] ⊆ ps) : onlyNext s0 (execInputOvercurrent s) ps := by
  unfold execInputOvercurrent
  repeat' first
    | with_reducible assumption
    | with_reducible apply State.powerOff_only
    | with_reducible apply ite_only
    | with_reducible apply ite_fst_only
    | with_reducible apply next_only
    | with_reducible intro _
    | split
    | dsimp only
    | ((with_reducible apply only_mk) <;> first
        | with_reducible exact fun _ => rfl
        | exact fun hn => absurd (hq (by decide)) hn
        | skip)
    | exact List.Subset.trans (by decide) hq
    | refine pair_only (by assumption) ?_
    | assumption

theorem execPresentDeassert_only {s0 : State} {ps : List Part} (second : Bool) (s : State) (hs : s0.changesOnly s ps) (hq : [.hb, .pkg, .tim, .ports, .bridles, .req, .coh, .ext, .lse, .adm, .tier, .xl, .cmp, .cpu, .clv, .atn, .comp, .sec, .log, .mod, .adk, .evq, .glb] ⊆ ps) : onlyNext s0 (execPresentDeassert second s) ps := by
  unfold execPresentDeassert
  repeat' first
    | with_reducible assumption
    | with_reducible apply State.powerOff_only
    | with_reducible apply ite_only
    | with_reducible apply ite_fst_only
    | with_reducible apply next_only
    | with_reducible intro _
    | split
    | dsimp only
    | ((with_reducible apply only_mk) <;> first
        | with_reducible exact fun _ => rfl
        | exact fun hn => absurd (hq (by decide)) hn
        | skip)
    | exact List.Subset.trans (by decide) hq
    | refine pair_only (by assumption) ?_
    | assumption

theorem execPresent1Assert_only {s0 : State} {ps : List Part} (s : State) (hs : s0.changesOnly s ps) (hq : [.mod] ⊆ ps) : onlyNext s0 (execPresent1Assert s) ps := by
  unfold execPresent1Assert
  repeat' first
    | with_reducible assumption
    | with_reducible apply ite_only
    | with_reducible apply ite_fst_only
    | with_reducible apply next_only
    | with_reducible intro _
    | split
    | dsimp only
    | ((with_reducible apply only_mk) <;> first
        | with_reducible exact fun _ => rfl
        | exact fun hn => absurd (hq (by decide)) hn
        | skip)
    | exact List.Subset.trans (by decide) hq
    | refine pair_only (by assumption) ?_
    | assumption

theorem execPrechargeComplete_only {s0 : State} {ps : List Part} (s : State) (hs : s0.changesOnly s ps) (hq : [.mod] ⊆ ps) : onlyNext s0 (execPrechargeComplete s) ps := by
  unfold execPrechargeComplete
  repeat' first
    | with_reducible assumption
    | with_reducible apply ite_only
    | with_reducible apply ite_fst_only
    | with_reducible apply next_only
    | with_reducible intro _
    | split
    | dsimp only
    | ((with_reducible apply only_mk) <;> first
        | with_reducible exact fun _ => rfl
        | exact fun hn => absurd (hq (by decide)) hn
        | skip)
    | exact List.Subset.trans (by decide) hq
    | refine pair_only (by assumption) ?_
    | assumption

theorem execPresent2Stable_only {s0 : State} {ps : List Part} (s : State) (hs : s0.changesOnly s ps) (hq : [.mod] ⊆ ps) : onlyNext s0 (execPresent2Stable s) ps := by
  unfold execPresent2Stable
  repeat' first
    | with_reducible assumption
    | with_reducible apply ite_only
    | with_reducible apply ite_fst_only
    | with_reducible apply next_only
    | with_reducible intro _
    | split
    | dsimp only
    | ((with_reducible apply only_mk) <;> first
        | with_reducible exact fun _ => rfl
        | exact fun hn => absurd (hq (by decide)) hn
        | skip)
    | exact List.Subset.trans (by decide) hq
    | refine pair_only (by assumption) ?_
    | assumption

theorem execAttnBtnPress_only {s0 : State} {ps : List Part} (since : BitVec 64) (s : State) (hs : s0.changesOnly s ps) (hq : [.mod, .adk, .evq] ⊆ ps) : onlyNext s0 (execAttnBtnPress since s) ps := by
  unfold execAttnBtnPress
  repeat' first
    | with_reducible assumption
    | with_reducible apply State.event_only
    | with_reducible apply ite_only
    | with_reducible apply ite_fst_only
    | with_reducible apply next_only
    | with_reducible intro _
    | split
    | dsimp only
    | ((with_reducible apply only_mk) <;> first
        | with_reducible exact fun _ => rfl
        | exact fun hn => absurd (hq (by decide)) hn
        | skip)
    | exact List.Subset.trans (by decide) hq
    | refine pair_only (by assumption) ?_
    | assumption

theorem State.bootHalt_only {s0 : State} {ps : List Part} (s : State) (hs : s0.changesOnly s ps) (hq : [.pkg, .ports, .req, .coh, .ext, .lse, .tier, .xl, .cpu, .clv, .atn, .comp, .sec, .log, .mod, .adk, .evq, .glb] ⊆ ps) : s0.changesOnly (State.bootHalt s) ps := by
  unfold State.bootHalt
  repeat' first
    | with_reducible assumption
    | with_reducible apply State.logE_only
    | with_reducible apply State.enterHalt_only
    | with_reducible apply ite_only
    | with_reducible apply ite_fst_only
    | with_reducible intro _
    | split
    | dsimp only
    | ((with_reducible apply only_mk) <;> first
        | with_reducible exact fun _ => rfl
        | exact fun hn => absurd (hq (by decide)) hn
        | skip)
    | exact List.Subset.trans (by decide) hq
    | refine pair_only (by assumption) ?_
    | assumption

theorem State.bootFirmware_only {s0 : State} {ps : List Part} (s : State) (r : BootReport) (hs : s0.changesOnly s ps) (hq : [.pkg, .ports, .req, .coh, .ext, .lse, .tier, .xl, .cpu, .clv, .atn, .comp, .sec, .log, .mod, .adk, .evq, .glb] ⊆ ps) : s0.changesOnly (State.bootFirmware s r) ps := by
  unfold State.bootFirmware
  repeat' first
    | with_reducible assumption
    | with_reducible apply State.bootHalt_only
    | with_reducible apply ite_only
    | with_reducible apply ite_fst_only
    | with_reducible intro _
    | split
    | dsimp only
    | ((with_reducible apply only_mk) <;> first
        | with_reducible exact fun _ => rfl
        | exact fun hn => absurd (hq (by decide)) hn
        | skip)
    | exact List.Subset.trans (by decide) hq
    | refine pair_only (by assumption) ?_
    | assumption

theorem State.chooseSlot_only {s0 : State} {ps : List Part} (s : State) (n : Nat) (hs : s0.changesOnly s ps)
    (hq : [.log, .adk, .evq] ⊆ ps) : s0.changesOnly (State.chooseSlot s n).1 ps := by
  induction n generalizing s with
  | zero => exact hs
  | succ n ih =>
    unfold State.chooseSlot
    split
    · exact ih s hs
    · split
      · exact hs
      · exact ih _ (State.logE_only _ _ _ _ _ _ hs hq)

theorem State.sealOpened_only {s0 : State} {ps : List Part} (s : State) (hs : s0.changesOnly s ps) (hq : [.sec, .log, .adk, .evq] ⊆ ps) : s0.changesOnly (State.sealOpened s) ps := by
  unfold State.sealOpened
  repeat' first
    | with_reducible assumption
    | with_reducible apply State.logWith_only
    | with_reducible apply ite_only
    | with_reducible apply ite_fst_only
    | with_reducible intro _
    | split
    | dsimp only
    | ((with_reducible apply only_mk) <;> first
        | with_reducible exact fun _ => rfl
        | exact fun hn => absurd (hq (by decide)) hn
        | skip)
    | exact List.Subset.trans (by decide) hq
    | refine pair_only (by assumption) ?_
    | assumption

theorem State.bootFuses_only {s0 : State} {ps : List Part} (s : State) (r : BootReport) (hs : s0.changesOnly s ps) (hq : [.pkg, .ports, .req, .coh, .ext, .lse, .tier, .xl, .cpu, .clv, .atn, .comp, .sec, .log, .mod, .adk, .evq, .glb] ⊆ ps) : s0.changesOnly (State.bootFuses s r) ps := by
  have sub : ∀ {l : List Part}, l ⊆ [.pkg, .ports, .req, .coh, .ext, .lse, .tier, .xl, .cpu, .clv, .atn, .comp, .sec, .log, .mod, .adk, .evq, .glb] → l ⊆ ps := fun h => List.Subset.trans h hq
  have h1 := State.chooseSlot_only s 4 hs (sub (by decide))
  unfold State.bootFuses
  generalize s.chooseSlot 4 = x at *
  obtain ⟨t, c⟩ := x
  dsimp only at h1 ⊢
  have hm : ∀ a b c d, s0.changesOnly { t with pkg := a, glb := b, sec := c, mod := d } ps := by
    intro a b c d p hp
    have := h1 p hp
    cases p <;> first
      | exact this
      | exact absurd (hq (by decide)) hp
  split
  · exact State.bootHalt_only _ h1 (sub (by decide))
  · refine ite_only (fun _ => State.bootHalt_only _ h1 (sub (by decide))) (fun _ => ?_)
    exact ite_only (fun _ => State.sealOpened_only _ (hm _ _ _ _) (sub (by decide))) (fun _ => hm _ _ _ _)

theorem State.markAbsent_only {s0 : State} {ps : List Part} (s : State) (lc : Nat) (mask : Nat) (hs : s0.changesOnly s ps) (hq : [.pkg, .log, .adk, .evq] ⊆ ps) : s0.changesOnly (State.markAbsent s lc mask) ps := by
  unfold State.markAbsent
  repeat' first
    | with_reducible assumption
    | with_reducible apply State.logWith_only
    | with_reducible apply ite_only
    | with_reducible apply ite_fst_only
    | with_reducible intro _
    | split
    | dsimp only
    | ((with_reducible apply only_mk) <;> first
        | with_reducible exact fun _ => rfl
        | exact fun hn => absurd (hq (by decide)) hn
        | skip)
    | exact List.Subset.trans (by decide) hq
    | refine pair_only (by assumption) ?_
    | assumption

theorem State.bootTrellis_only {s0 : State} {ps : List Part} (s : State) (r : BootReport) (hs : s0.changesOnly s ps) (hq : [.hb, .pkg, .ports, .req, .coh, .ext, .lse, .tier, .xl, .cpu, .clv, .atn, .comp, .sec, .log, .mod, .adk, .evq, .glb] ⊆ ps) : s0.changesOnly (State.bootTrellis s r) ps := by
  unfold State.bootTrellis
  repeat' first
    | with_reducible assumption
    | with_reducible apply State.logE_only
    | with_reducible apply State.enterHalt_only
    | with_reducible apply State.markAbsent_only
    | with_reducible apply foldl_only
    | with_reducible apply foldl_fst_only
    | with_reducible apply ite_only
    | with_reducible apply ite_fst_only
    | with_reducible intro _
    | split
    | dsimp only
    | ((with_reducible apply only_mk) <;> first
        | with_reducible exact fun _ => rfl
        | exact fun hn => absurd (hq (by decide)) hn
        | skip)
    | exact List.Subset.trans (by decide) hq
    | refine pair_only (by assumption) ?_
    | assumption

theorem State.stepFails_only {s0 : State} {ps : List Part} (s : State) (hs : s0.changesOnly s ps) (hq : [.free, .pkg, .ports, .req, .coh, .ext, .lse, .tier, .xl, .cpu, .clv, .atn, .comp, .sec, .log, .mod, .adk, .evq, .glb] ⊆ ps) : s0.changesOnly (State.stepFails s) ps := by
  unfold State.stepFails
  repeat' first
    | with_reducible assumption
    | with_reducible apply State.draw_only
    | with_reducible apply State.enterHalt_only
    | with_reducible apply ite_only
    | with_reducible apply ite_fst_only
    | with_reducible intro _
    | split
    | dsimp only
    | ((with_reducible apply only_mk) <;> first
        | with_reducible exact fun _ => rfl
        | exact fun hn => absurd (hq (by decide)) hn
        | skip)
    | exact List.Subset.trans (by decide) hq
    | refine pair_only (by assumption) ?_
    | assumption

theorem State.bootStepDone_only {s0 : State} {ps : List Part} (s : State) (r : BootReport) (hs : s0.changesOnly s ps) (hq : [.free, .hb, .pkg, .ports, .req, .coh, .ext, .lse, .tier, .xl, .cpu, .clv, .atn, .comp, .sec, .log, .mod, .adk, .evq, .glb] ⊆ ps) : s0.changesOnly (State.bootStepDone s r) ps := by
  unfold State.bootStepDone
  repeat' first
    | with_reducible assumption
    | with_reducible apply State.event_only
    | with_reducible apply State.bootFirmware_only
    | with_reducible apply State.bootFuses_only
    | with_reducible apply State.bootTrellis_only
    | with_reducible apply State.stepFails_only
    | with_reducible apply ite_only
    | with_reducible apply ite_fst_only
    | with_reducible intro _
    | split
    | dsimp only
    | ((with_reducible apply only_mk) <;> first
        | with_reducible exact fun _ => rfl
        | exact fun hn => absurd (hq (by decide)) hn
        | skip)
    | exact List.Subset.trans (by decide) hq
    | refine pair_only (by assumption) ?_
    | assumption

theorem execBootStepComplete_only {s0 : State} {ps : List Part} (report : BootReport) (s : State) (hs : s0.changesOnly s ps) (hq : [.free, .hb, .pkg, .ports, .req, .coh, .ext, .lse, .tier, .xl, .cpu, .clv, .atn, .comp, .sec, .log, .mod, .adk, .evq, .glb] ⊆ ps) : onlyNext s0 (execBootStepComplete report s) ps := by
  unfold execBootStepComplete
  repeat' first
    | with_reducible assumption
    | with_reducible apply State.bootStepDone_only
    | with_reducible apply ite_only
    | with_reducible apply ite_fst_only
    | with_reducible apply next_only
    | with_reducible intro _
    | split
    | dsimp only
    | ((with_reducible apply only_mk) <;> first
        | with_reducible exact fun _ => rfl
        | exact fun hn => absurd (hq (by decide)) hn
        | skip)
    | exact List.Subset.trans (by decide) hq
    | refine pair_only (by assumption) ?_
    | assumption

theorem execTestStepComplete_only {s0 : State} {ps : List Part} (ok : Bool) (s : State) (hs : s0.changesOnly s ps) (hq : [.free, .pkg, .ports, .req, .coh, .ext, .lse, .tier, .xl, .cpu, .clv, .atn, .comp, .sec, .log, .mod, .adk, .evq, .glb] ⊆ ps) : onlyNext s0 (execTestStepComplete ok s) ps := by
  unfold execTestStepComplete
  repeat' first
    | with_reducible assumption
    | with_reducible apply State.event_only
    | with_reducible apply State.stepFails_only
    | with_reducible apply ite_only
    | with_reducible apply ite_fst_only
    | with_reducible apply next_only
    | with_reducible intro _
    | split
    | dsimp only
    | ((with_reducible apply only_mk) <;> first
        | with_reducible exact fun _ => rfl
        | exact fun hn => absurd (hq (by decide)) hn
        | skip)
    | exact List.Subset.trans (by decide) hq
    | refine pair_only (by assumption) ?_
    | assumption

theorem State.loadProgram_only {s0 : State} {ps : List Part} (s : State) (x : Section) (hs : s0.changesOnly s ps) (hq : [.cpu] ⊆ ps) : s0.changesOnly (State.loadProgram s x) ps := by
  unfold State.loadProgram
  repeat' first
    | with_reducible assumption
    | with_reducible apply State.localWrite_only
    | with_reducible apply foldl_only
    | with_reducible apply foldl_fst_only
    | with_reducible apply ite_only
    | with_reducible apply ite_fst_only
    | with_reducible intro _
    | split
    | dsimp only
    | ((with_reducible apply only_mk) <;> first
        | with_reducible exact fun _ => rfl
        | exact fun hn => absurd (hq (by decide)) hn
        | skip)
    | exact List.Subset.trans (by decide) hq
    | refine pair_only (by assumption) ?_
    | assumption

theorem State.startThreads_only {s0 : State} {ps : List Part} (s : State) (p : Nat → Bool) (x : Section) (hs : s0.changesOnly s ps) (hq : [.cpu] ⊆ ps) : s0.changesOnly (State.startThreads s p x) ps := by
  unfold State.startThreads
  repeat' first
    | with_reducible assumption
    | with_reducible apply State.setThread_only
    | with_reducible apply foldl_only
    | with_reducible apply foldl_fst_only
    | with_reducible apply ite_only
    | with_reducible apply ite_fst_only
    | with_reducible intro _
    | split
    | dsimp only
    | ((with_reducible apply only_mk) <;> first
        | with_reducible exact fun _ => rfl
        | exact fun hn => absurd (hq (by decide)) hn
        | skip)
    | exact List.Subset.trans (by decide) hq
    | refine pair_only (by assumption) ?_
    | assumption

theorem State.startProgram_only {s0 : State} {ps : List Part} (s : State) (x : Section) (hs : s0.changesOnly s ps) (hq : [.cpu] ⊆ ps) : s0.changesOnly (State.startProgram s x) ps := by
  unfold State.startProgram
  repeat' first
    | with_reducible assumption
    | with_reducible apply State.loadProgram_only
    | with_reducible apply State.startThreads_only
    | with_reducible apply ite_only
    | with_reducible apply ite_fst_only
    | with_reducible intro _
    | split
    | dsimp only
    | ((with_reducible apply only_mk) <;> first
        | with_reducible exact fun _ => rfl
        | exact fun hn => absurd (hq (by decide)) hn
        | skip)
    | exact List.Subset.trans (by decide) hq
    | refine pair_only (by assumption) ?_
    | assumption

theorem State.startPrograms_only {s0 : State} {ps : List Part} (s : State) (hs : s0.changesOnly s ps) (hq : [.cpu] ⊆ ps) : s0.changesOnly (State.startPrograms s) ps := by
  unfold State.startPrograms
  repeat' first
    | with_reducible assumption
    | with_reducible apply State.startProgram_only
    | with_reducible apply foldl_only
    | with_reducible apply foldl_fst_only
    | with_reducible apply ite_only
    | with_reducible apply ite_fst_only
    | with_reducible intro _
    | split
    | dsimp only
    | ((with_reducible apply only_mk) <;> first
        | with_reducible exact fun _ => rfl
        | exact fun hn => absurd (hq (by decide)) hn
        | skip)
    | exact List.Subset.trans (by decide) hq
    | refine pair_only (by assumption) ?_
    | assumption

theorem State.enterService_only {s0 : State} {ps : List Part} (s : State) (hs : s0.changesOnly s ps) (hq : [.ports, .lse, .cpu, .log, .mod, .adk, .evq, .glb] ⊆ ps) : s0.changesOnly (State.enterService s) ps := by
  unfold State.enterService
  repeat' first
    | with_reducible assumption
    | with_reducible apply State.changeState_only
    | with_reducible apply State.armLeases_only
    | with_reducible apply State.train_only
    | with_reducible apply State.startPrograms_only
    | with_reducible apply ite_only
    | with_reducible apply ite_fst_only
    | with_reducible intro _
    | split
    | dsimp only
    | ((with_reducible apply only_mk) <;> first
        | with_reducible exact fun _ => rfl
        | exact fun hn => absurd (hq (by decide)) hn
        | skip)
    | exact List.Subset.trans (by decide) hq
    | refine pair_only (by assumption) ?_
    | assumption

theorem State.warm_only {s0 : State} {ps : List Part} (s : State) (hs : s0.changesOnly s ps) (hq : [.hb, .pkg, .tim, .ports, .bridles, .req, .coh, .ext, .lse, .adm, .tier, .xl, .cmp, .cpu, .clv, .atn, .comp, .sec, .log, .mod, .adk, .evq, .glb] ⊆ ps) : s0.changesOnly (State.warm s) ps := by
  unfold State.warm
  repeat' first
    | with_reducible assumption
    | with_reducible apply State.changeState_only
    | with_reducible apply State.cold_only
    | with_reducible apply ite_only
    | with_reducible apply ite_fst_only
    | with_reducible intro _
    | split
    | dsimp only
    | ((with_reducible apply only_mk) <;> first
        | with_reducible exact fun _ => rfl
        | exact fun hn => absurd (hq (by decide)) hn
        | skip)
    | exact List.Subset.trans (by decide) hq
    | refine pair_only (by assumption) ?_
    | assumption

theorem State.drainSector_only {s0 : State} {ps : List Part} (s : State) (b : Nat) (hs : s0.changesOnly s ps) (hq : [.pkg, .ports, .tier, .mod, .adk, .evq] ⊆ ps) : s0.changesOnly (State.drainSector s b) ps := by
  unfold State.drainSector
  repeat' first
    | with_reducible assumption
    | with_reducible apply State.setSector_only
    | with_reducible apply State.writeBack_only
    | with_reducible apply State.startZero_only
    | with_reducible apply State.dropSector_only
    | with_reducible apply ite_only
    | with_reducible apply ite_fst_only
    | with_reducible intro _
    | split
    | dsimp only
    | ((with_reducible apply only_mk) <;> first
        | with_reducible exact fun _ => rfl
        | exact fun hn => absurd (hq (by decide)) hn
        | skip)
    | exact List.Subset.trans (by decide) hq
    | refine pair_only (by assumption) ?_
    | assumption

theorem State.drainSectors_only {s0 : State} {ps : List Part} (s : State) (hs : s0.changesOnly s ps) (hq : [.pkg, .ports, .tier, .mod, .adk, .evq] ⊆ ps) : s0.changesOnly (State.drainSectors s) ps := by
  unfold State.drainSectors
  repeat' first
    | with_reducible assumption
    | with_reducible apply State.drainSector_only
    | with_reducible apply foldl_only
    | with_reducible apply foldl_fst_only
    | with_reducible apply ite_only
    | with_reducible apply ite_fst_only
    | with_reducible intro _
    | split
    | dsimp only
    | ((with_reducible apply only_mk) <;> first
        | with_reducible exact fun _ => rfl
        | exact fun hn => absurd (hq (by decide)) hn
        | skip)
    | exact List.Subset.trans (by decide) hq
    | refine pair_only (by assumption) ?_
    | assumption

theorem State.enterDrain_only {s0 : State} {ps : List Part} (s : State) (hs : s0.changesOnly s ps) (hq : [.free, .pkg, .ports, .req, .coh, .ext, .lse, .xl, .cpu, .clv, .atn, .comp, .sec, .log, .mod, .adk, .evq, .glb] ⊆ ps) : s0.changesOnly (State.enterDrain s) ps := by
  have sub : ∀ {l : List Part}, l ⊆ [.free, .pkg, .ports, .req, .coh, .ext, .lse, .xl, .cpu, .clv, .atn, .comp, .sec, .log, .mod, .adk, .evq, .glb] → l ⊆ ps := fun h => List.Subset.trans h hq
  have hm : ∀ (t : State) (x : Module), s0.changesOnly t ps → s0.changesOnly { t with mod := x } ps := by
    intro t x h p hp
    have := h p hp
    cases p <;> first
      | exact this
      | exact absurd (hq (by decide)) hp
  exact hm _ _ (State.revokeAll_only _ _ _ (State.leaveService_only _ (State.changeState_only _ _ _ _ hs (sub (by decide)))
    (sub (by decide))) (sub (by decide)))

theorem State.drainEnds_only {s0 : State} {ps : List Part} (s : State) (hs : s0.changesOnly s ps) (hq : [.free, .pkg, .ports, .req, .coh, .ext, .tier, .xl, .cmp, .cpu, .clv, .atn, .comp, .sec, .log, .mod, .adk, .evq] ⊆ ps) : s0.changesOnly (State.drainEnds s) ps := by
  have sub : ∀ {l : List Part}, l ⊆ [.free, .pkg, .ports, .req, .coh, .ext, .tier, .xl, .cmp, .cpu, .clv, .atn, .comp, .sec, .log, .mod, .adk, .evq] → l ⊆ ps := fun h => List.Subset.trans h hq
  have hm : ∀ (t : State) (x : Module), s0.changesOnly t ps → s0.changesOnly { t with mod := x } ps := by
    intro t x h p hp
    have := h p hp
    cases p <;> first
      | exact this
      | exact absurd (hq (by decide)) hp
  refine hm _ _ (foldl_only _ _ _ (fun t b h => ?_) (foldl_only _ _ _ (fun t b h => ?_) ?_))
  · exact ite_only (fun _ => State.trayGone_only _ _ (State.onTray_only _ _ _ h (sub (by decide))) (sub (by decide))) (fun _ => h)
  · exact ite_only (fun _ => State.portDown_only _ _ _ h (sub (by decide))) (fun _ => h)
  · exact State.event_only _ _ _ _ _ _ (hm _ _ hs) (sub (by decide))

theorem execDrainStepComplete_only {s0 : State} {ps : List Part} (s : State) (hs : s0.changesOnly s ps) (hq : [.free, .pkg, .ports, .req, .coh, .ext, .tier, .xl, .cmp, .cpu, .clv, .atn, .comp, .sec, .log, .mod, .adk, .evq] ⊆ ps) : onlyNext s0 (execDrainStepComplete s) ps := by
  unfold execDrainStepComplete
  repeat' first
    | with_reducible assumption
    | with_reducible apply State.drainSectors_only
    | with_reducible apply State.drainEnds_only
    | with_reducible apply ite_only
    | with_reducible apply ite_fst_only
    | with_reducible apply next_only
    | with_reducible intro _
    | split
    | dsimp only
    | ((with_reducible apply only_mk) <;> first
        | with_reducible exact fun _ => rfl
        | exact fun hn => absurd (hq (by decide)) hn
        | skip)
    | exact List.Subset.trans (by decide) hq
    | refine pair_only (by assumption) ?_
    | assumption

theorem State.recoveryNext_only {s0 : State} {ps : List Part} (s : State) (n : Nat) (hs : s0.changesOnly s ps) (hq : [.log, .adk, .evq] ⊆ ps) : s0.changesOnly (State.recoveryNext s n) ps := by
  unfold State.recoveryNext
  repeat' first
    | with_reducible assumption
    | with_reducible apply State.logE_only
    | with_reducible apply ite_only
    | with_reducible apply ite_fst_only
    | with_reducible intro _
    | split
    | dsimp only
    | ((with_reducible apply only_mk) <;> first
        | with_reducible exact fun _ => rfl
        | exact fun hn => absurd (hq (by decide)) hn
        | skip)
    | exact List.Subset.trans (by decide) hq
    | refine pair_only (by assumption) ?_
    | assumption

theorem State.zeroLocal_only {s0 : State} {ps : List Part} (s : State) (x : Nat × Nat × Nat) (hs : s0.changesOnly s ps) (hq : [.cpu] ⊆ ps) : s0.changesOnly (State.zeroLocal s x) ps := by
  unfold State.zeroLocal
  repeat' first
    | with_reducible assumption
    | with_reducible apply State.onCore_only
    | with_reducible apply ite_only
    | with_reducible apply ite_fst_only
    | with_reducible intro _
    | split
    | dsimp only
    | ((with_reducible apply only_mk) <;> first
        | with_reducible exact fun _ => rfl
        | exact fun hn => absurd (hq (by decide)) hn
        | skip)
    | exact List.Subset.trans (by decide) hq
    | refine pair_only (by assumption) ?_
    | assumption

theorem State.recoveryRepair_only {s0 : State} {ps : List Part} (s : State) (hs : s0.changesOnly s ps) (hq : [.free, .pkg, .ports, .ext, .tier, .cpu, .comp, .log, .adk, .evq] ⊆ ps) : s0.changesOnly (State.recoveryRepair s) ps := by
  unfold State.recoveryRepair
  repeat' first
    | with_reducible assumption
    | with_reducible apply State.onExtent_only
    | with_reducible apply State.startScrub_only
    | with_reducible apply State.zeroLocal_only
    | with_reducible apply foldl_only
    | with_reducible apply foldl_fst_only
    | with_reducible apply ite_only
    | with_reducible apply ite_fst_only
    | with_reducible intro _
    | split
    | dsimp only
    | ((with_reducible apply only_mk) <;> first
        | with_reducible exact fun _ => rfl
        | exact fun hn => absurd (hq (by decide)) hn
        | skip)
    | exact List.Subset.trans (by decide) hq
    | refine pair_only (by assumption) ?_
    | assumption

theorem State.unfence_only {s0 : State} {ps : List Part} (s : State) (key : Nat) (hs : s0.changesOnly s ps) (hq : [.log, .adk, .evq] ⊆ ps) : s0.changesOnly (State.unfence s key) ps := by
  unfold State.unfence
  repeat' first
    | with_reducible assumption
    | with_reducible apply State.event_only
    | with_reducible apply ite_only
    | with_reducible apply ite_fst_only
    | with_reducible intro _
    | split
    | dsimp only
    | ((with_reducible apply only_mk) <;> first
        | with_reducible exact fun _ => rfl
        | exact fun hn => absurd (hq (by decide)) hn
        | skip)
    | exact List.Subset.trans (by decide) hq
    | refine pair_only (by assumption) ?_
    | assumption

theorem State.recoveryAudit_only {s0 : State} {ps : List Part} (s : State) (hs : s0.changesOnly s ps) (hq : [.log, .adk, .evq] ⊆ ps) : s0.changesOnly (State.recoveryAudit s) ps := by
  unfold State.recoveryAudit
  repeat' first
    | with_reducible assumption
    | with_reducible apply State.unfence_only
    | with_reducible apply foldl_only
    | with_reducible apply foldl_fst_only
    | with_reducible apply ite_only
    | with_reducible apply ite_fst_only
    | with_reducible intro _
    | split
    | dsimp only
    | ((with_reducible apply only_mk) <;> first
        | with_reducible exact fun _ => rfl
        | exact fun hn => absurd (hq (by decide)) hn
        | skip)
    | exact List.Subset.trans (by decide) hq
    | refine pair_only (by assumption) ?_
    | assumption

theorem execRecoveryStepDone_only {s0 : State} {ps : List Part} (s : State) (hs : s0.changesOnly s ps) (hq : [.free, .pkg, .ports, .ext, .tier, .cpu, .comp, .log, .adk, .evq] ⊆ ps) : onlyNext s0 (execRecoveryStepDone s) ps := by
  unfold execRecoveryStepDone
  repeat' first
    | with_reducible assumption
    | with_reducible apply State.recoveryNext_only
    | with_reducible apply State.recoveryRepair_only
    | with_reducible apply State.recoveryAudit_only
    | with_reducible apply ite_only
    | with_reducible apply ite_fst_only
    | with_reducible apply next_only
    | with_reducible intro _
    | split
    | dsimp only
    | ((with_reducible apply only_mk) <;> first
        | with_reducible exact fun _ => rfl
        | exact fun hn => absurd (hq (by decide)) hn
        | skip)
    | exact List.Subset.trans (by decide) hq
    | refine pair_only (by assumption) ?_
    | assumption

theorem State.modResult_only {s0 : State} {ps : List Part} (s : State) (st : BitVec 6) (hs : s0.changesOnly s ps) (hq : [.mod] ⊆ ps) : s0.changesOnly (State.modResult s st).1 ps := by
  unfold State.modResult
  repeat' first
    | with_reducible assumption
    | with_reducible apply ite_only
    | with_reducible apply ite_fst_only
    | with_reducible intro _
    | split
    | dsimp only
    | ((with_reducible apply only_mk) <;> first
        | with_reducible exact fun _ => rfl
        | exact fun hn => absurd (hq (by decide)) hn
        | skip)
    | exact List.Subset.trans (by decide) hq
    | refine pair_only (by assumption) ?_
    | assumption

theorem State.modCmd_only {s0 : State} {ps : List Part} (s : State) (v : BitVec 64) (hs : s0.changesOnly s ps) (hq : [.free, .pkg, .ports, .req, .coh, .ext, .lse, .xl, .cpu, .clv, .atn, .comp, .sec, .log, .mod, .adk, .evq, .glb] ⊆ ps) : s0.changesOnly (State.modCmd s v).1 ps := by
  unfold State.modCmd
  repeat' first
    | with_reducible assumption
    | with_reducible apply State.enterRecovery_only
    | with_reducible apply State.enterService_only
    | with_reducible apply State.enterDrain_only
    | with_reducible apply State.modResult_only
    | with_reducible apply ite_only
    | with_reducible apply ite_fst_only
    | with_reducible intro _
    | split
    | dsimp only
    | ((with_reducible apply only_mk) <;> first
        | with_reducible exact fun _ => rfl
        | exact fun hn => absurd (hq (by decide)) hn
        | skip)
    | exact List.Subset.trans (by decide) hq
    | refine pair_only (by assumption) ?_
    | assumption

theorem State.modBody_only {s0 : State} {ps : List Part} (q : AdkFrame) (v : BitVec 64) (s : State) (hs : s0.changesOnly s ps) (hq : [.free, .hb, .pkg, .tim, .ports, .bridles, .req, .coh, .ext, .lse, .adm, .tier, .xl, .cmp, .cpu, .clv, .atn, .comp, .sec, .log, .mod, .adk, .evq, .glb] ⊆ ps) : s0.changesOnly (State.modBody q v s) ps := by
  unfold State.modBody
  repeat' first
    | with_reducible assumption
    | with_reducible apply State.wrBody_only
    | with_reducible apply State.warm_only
    | with_reducible apply State.modCmd_only
    | with_reducible apply ite_only
    | with_reducible apply ite_fst_only
    | with_reducible intro _
    | split
    | dsimp only
    | ((with_reducible apply only_mk) <;> first
        | with_reducible exact fun _ => rfl
        | exact fun hn => absurd (hq (by decide)) hn
        | skip)
    | exact List.Subset.trans (by decide) hq
    | refine pair_only (by assumption) ?_
    | assumption

theorem State.modWr_only {s0 : State} {ps : List Part} (s : State) (tag : BitVec 16) (v : BitVec 64) (hs : s0.changesOnly s ps) (hq : [.free, .hb, .pkg, .tim, .ports, .bridles, .req, .coh, .ext, .lse, .adm, .tier, .xl, .cmp, .cpu, .clv, .atn, .comp, .sec, .log, .mod, .adk, .evq, .glb] ⊆ ps) : s0.changesOnly (State.modWr s tag v) ps := by
  unfold State.modWr
  repeat' first
    | with_reducible assumption
    | with_reducible apply State.adkRequest_only
    | with_reducible apply State.modBody_only
    | with_reducible apply ite_only
    | with_reducible apply ite_fst_only
    | with_reducible intro _
    | split
    | dsimp only
    | ((with_reducible apply only_mk) <;> first
        | with_reducible exact fun _ => rfl
        | exact fun hn => absurd (hq (by decide)) hn
        | skip)
    | exact List.Subset.trans (by decide) hq
    | refine pair_only (by assumption) ?_
    | assumption

theorem execModService_only {s0 : State} {ps : List Part} (tag : BitVec 16) (s : State) (hs : s0.changesOnly s ps) (hq : [.free, .hb, .pkg, .tim, .ports, .bridles, .req, .coh, .ext, .lse, .adm, .tier, .xl, .cmp, .cpu, .clv, .atn, .comp, .sec, .log, .mod, .adk, .evq, .glb] ⊆ ps) : onlyNext s0 (execModService tag s) ps := by
  unfold execModService
  repeat' first
    | with_reducible assumption
    | with_reducible apply State.modWr_only
    | with_reducible apply ite_only
    | with_reducible apply ite_fst_only
    | with_reducible apply next_only
    | with_reducible intro _
    | split
    | dsimp only
    | ((with_reducible apply only_mk) <;> first
        | with_reducible exact fun _ => rfl
        | exact fun hn => absurd (hq (by decide)) hn
        | skip)
    | exact List.Subset.trans (by decide) hq
    | refine pair_only (by assumption) ?_
    | assumption

theorem execModDrain_only {s0 : State} {ps : List Part} (tag : BitVec 16) (s : State) (hs : s0.changesOnly s ps) (hq : [.free, .hb, .pkg, .tim, .ports, .bridles, .req, .coh, .ext, .lse, .adm, .tier, .xl, .cmp, .cpu, .clv, .atn, .comp, .sec, .log, .mod, .adk, .evq, .glb] ⊆ ps) : onlyNext s0 (execModDrain tag s) ps := by
  unfold execModDrain
  repeat' first
    | with_reducible assumption
    | with_reducible apply State.modWr_only
    | with_reducible apply ite_only
    | with_reducible apply ite_fst_only
    | with_reducible apply next_only
    | with_reducible intro _
    | split
    | dsimp only
    | ((with_reducible apply only_mk) <;> first
        | with_reducible exact fun _ => rfl
        | exact fun hn => absurd (hq (by decide)) hn
        | skip)
    | exact List.Subset.trans (by decide) hq
    | refine pair_only (by assumption) ?_
    | assumption

theorem execModRecover_only {s0 : State} {ps : List Part} (tag : BitVec 16) (s : State) (hs : s0.changesOnly s ps) (hq : [.free, .hb, .pkg, .tim, .ports, .bridles, .req, .coh, .ext, .lse, .adm, .tier, .xl, .cmp, .cpu, .clv, .atn, .comp, .sec, .log, .mod, .adk, .evq, .glb] ⊆ ps) : onlyNext s0 (execModRecover tag s) ps := by
  unfold execModRecover
  repeat' first
    | with_reducible assumption
    | with_reducible apply State.modWr_only
    | with_reducible apply ite_only
    | with_reducible apply ite_fst_only
    | with_reducible apply next_only
    | with_reducible intro _
    | split
    | dsimp only
    | ((with_reducible apply only_mk) <;> first
        | with_reducible exact fun _ => rfl
        | exact fun hn => absurd (hq (by decide)) hn
        | skip)
    | exact List.Subset.trans (by decide) hq
    | refine pair_only (by assumption) ?_
    | assumption

theorem execModWarm_only {s0 : State} {ps : List Part} (tag : BitVec 16) (s : State) (hs : s0.changesOnly s ps) (hq : [.free, .hb, .pkg, .tim, .ports, .bridles, .req, .coh, .ext, .lse, .adm, .tier, .xl, .cmp, .cpu, .clv, .atn, .comp, .sec, .log, .mod, .adk, .evq, .glb] ⊆ ps) : onlyNext s0 (execModWarm tag s) ps := by
  unfold execModWarm
  repeat' first
    | with_reducible assumption
    | with_reducible apply State.modWr_only
    | with_reducible apply ite_only
    | with_reducible apply ite_fst_only
    | with_reducible apply next_only
    | with_reducible intro _
    | split
    | dsimp only
    | ((with_reducible apply only_mk) <;> first
        | with_reducible exact fun _ => rfl
        | exact fun hn => absurd (hq (by decide)) hn
        | skip)
    | exact List.Subset.trans (by decide) hq
    | refine pair_only (by assumption) ?_
    | assumption

end Sys2Proof.Machine
end

