-- ==== Sys2Proof/Laws/OnlyFabtime.lean ====
section
/-! SUPPORT. What every operation of Fabtime leaves alone. -/

set_option linter.unusedTactic false
set_option linter.unreachableTactic false
set_option linter.unusedVariables false

namespace Sys2Proof.Machine

theorem State.sequence_only {s0 : State} {ps : List Part} (s : State) (p : Nat) (hs : s0.changesOnly s ps) (hq : [.ports, .adk, .evq] ⊆ ps) : s0.changesOnly (State.sequence s p) ps := by
  unfold State.sequence
  repeat' first
    | with_reducible assumption
    | with_reducible apply State.onTc_only
    | with_reducible apply State.countQue_only
    | with_reducible apply foldl_only
    | with_reducible apply foldl_fst_only
    | with_reducible apply ite_only
    | with_reducible apply ite_fst_only
    | with_reducible intro _
    | split
    | dsimp only
    | ((with_reducible apply only_mk) <;> first
        | with_reducible exact fun _ => rfl
        | exact fun hn => absurd (hq (by decide)) hn
        | skip)
    | exact List.Subset.trans (by decide) hq
    | refine pair_only (by assumption) ?_
    | assumption

theorem State.ftLost_only {s0 : State} {ps : List Part} (s : State) (hs : s0.changesOnly s ps) (hq : [.pkg, .ports, .req, .lse, .xl, .cpu, .clv, .sec, .log, .adk, .evq] ⊆ ps) : s0.changesOnly (State.ftLost s) ps := by
  unfold State.ftLost
  repeat' first
    | with_reducible assumption
    | with_reducible apply State.onTc_only
    | with_reducible apply State.collLost_only
    | with_reducible apply State.freezeLeases_only
    | with_reducible apply foldl_only
    | with_reducible apply foldl_fst_only
    | with_reducible apply ite_only
    | with_reducible apply ite_fst_only
    | with_reducible intro _
    | split
    | dsimp only
    | ((with_reducible apply only_mk) <;> first
        | with_reducible exact fun _ => rfl
        | exact fun hn => absurd (hq (by decide)) hn
        | skip)
    | exact List.Subset.trans (by decide) hq
    | refine pair_only (by assumption) ?_
    | assumption

theorem State.ftFound_only {s0 : State} {ps : List Part} (s : State) (hs : s0.changesOnly s ps) (hq : [.ports, .lse] ⊆ ps) : s0.changesOnly (State.ftFound s) ps := by
  unfold State.ftFound
  repeat' first
    | with_reducible assumption
    | with_reducible apply State.thawLeases_only
    | with_reducible apply ite_only
    | with_reducible apply ite_fst_only
    | with_reducible intro _
    | split
    | dsimp only
    | ((with_reducible apply only_mk) <;> first
        | with_reducible exact fun _ => rfl
        | exact fun hn => absurd (hq (by decide)) hn
        | skip)
    | exact List.Subset.trans (by decide) hq
    | refine pair_only (by assumption) ?_
    | assumption

theorem State.ftTo_only {s0 : State} {ps : List Part} (s : State) (n : FtState) (hs : s0.changesOnly s ps) (hq : [.pkg, .tim, .ports, .req, .lse, .xl, .cpu, .clv, .sec, .log, .adk, .evq] ⊆ ps) : s0.changesOnly (State.ftTo s n) ps := by
  unfold State.ftTo
  repeat' first
    | with_reducible assumption
    | with_reducible apply State.logE_only
    | with_reducible apply State.ftLost_only
    | with_reducible apply State.ftFound_only
    | with_reducible apply ite_only
    | with_reducible apply ite_fst_only
    | with_reducible intro _
    | split
    | dsimp only
    | ((with_reducible apply only_mk) <;> first
        | with_reducible exact fun _ => rfl
        | exact fun hn => absurd (hq (by decide)) hn
        | skip)
    | exact List.Subset.trans (by decide) hq
    | refine pair_only (by assumption) ?_
    | assumption

theorem State.ftRecord_only {s0 : State} {ps : List Part} (s : State) (kind : Nat) (before : Nat) (after : Nat) (second : Nat) (amt : Int) (hs : s0.changesOnly s ps) (hq : [.tim, .log, .adk, .evq] ⊆ ps) : s0.changesOnly (State.ftRecord s kind before after second amt) ps := by
  unfold State.ftRecord
  repeat' first
    | with_reducible assumption
    | with_reducible apply State.logE_only
    | with_reducible apply ite_only
    | with_reducible apply ite_fst_only
    | with_reducible intro _
    | split
    | dsimp only
    | ((with_reducible apply only_mk) <;> first
        | with_reducible exact fun _ => rfl
        | exact fun hn => absurd (hq (by decide)) hn
        | skip)
    | exact List.Subset.trans (by decide) hq
    | refine pair_only (by assumption) ?_
    | assumption

theorem State.fireLate_only {s0 : State} {ps : List Part} (s : State) (l : List (FT × Nat × Nat)) (hs : s0.changesOnly s ps) (hq : [.free, .pkg, .ports, .req, .coh, .ext, .lse, .xl, .cpu, .clv, .comp, .sec, .log, .adk, .evq] ⊆ ps) : s0.changesOnly (State.fireLate s l) ps := by
  unfold State.fireLate
  repeat' first
    | with_reducible assumption
    | with_reducible apply State.collDeadline_only
    | with_reducible apply State.leaseEnds_only
    | with_reducible apply foldl_only
    | with_reducible apply foldl_fst_only
    | with_reducible apply ite_only
    | with_reducible apply ite_fst_only
    | with_reducible intro _
    | split
    | dsimp only
    | ((with_reducible apply only_mk) <;> first
        | with_reducible exact fun _ => rfl
        | exact fun hn => absurd (hq (by decide)) hn
        | skip)
    | exact List.Subset.trans (by decide) hq
    | refine pair_only (by assumption) ?_
    | assumption

theorem State.lanesShift_only {s0 : State} {ps : List Part} (s : State) (d : Int) (hs : s0.changesOnly s ps) (hq : [.ports] ⊆ ps) : s0.changesOnly (State.lanesShift s d) ps := by
  unfold State.lanesShift
  repeat' first
    | with_reducible assumption
    | with_reducible apply ite_only
    | with_reducible apply ite_fst_only
    | with_reducible intro _
    | split
    | dsimp only
    | ((with_reducible apply only_mk) <;> first
        | with_reducible exact fun _ => rfl
        | exact fun hn => absurd (hq (by decide)) hn
        | skip)
    | exact List.Subset.trans (by decide) hq
    | refine pair_only (by assumption) ?_
    | assumption

theorem State.ftJump_only {s0 : State} {ps : List Part} (s : State) (n : FT) (hs : s0.changesOnly s ps) (hq : [.tim, .ports, .adk, .evq] ⊆ ps) : s0.changesOnly (State.ftJump s n) ps := by
  unfold State.ftJump
  repeat' first
    | with_reducible assumption
    | with_reducible apply State.sequence_only
    | with_reducible apply State.lanesShift_only
    | with_reducible apply foldl_only
    | with_reducible apply foldl_fst_only
    | with_reducible apply ite_only
    | with_reducible apply ite_fst_only
    | with_reducible intro _
    | split
    | dsimp only
    | ((with_reducible apply only_mk) <;> first
        | with_reducible exact fun _ => rfl
        | exact fun hn => absurd (hq (by decide)) hn
        | skip)
    | exact List.Subset.trans (by decide) hq
    | refine pair_only (by assumption) ?_
    | assumption

theorem State.realign_only {s0 : State} {ps : List Part} (s : State) (hs : s0.changesOnly s ps) (hq : [.tim, .ports] ⊆ ps) : s0.changesOnly (State.realign s) ps := by
  unfold State.realign
  repeat' first
    | with_reducible assumption
    | with_reducible apply ite_only
    | with_reducible apply ite_fst_only
    | with_reducible intro _
    | split
    | dsimp only
    | ((with_reducible apply only_mk) <;> first
        | with_reducible exact fun _ => rfl
        | exact fun hn => absurd (hq (by decide)) hn
        | skip)
    | exact List.Subset.trans (by decide) hq
    | refine pair_only (by assumption) ?_
    | assumption

theorem State.ftCorrect_only {s0 : State} {ps : List Part} (s : State) (e : Int) (hs : s0.changesOnly s ps) (hq : [.free, .pkg, .tim, .ports, .req, .coh, .ext, .lse, .xl, .cpu, .clv, .comp, .sec, .log, .adk, .evq] ⊆ ps) : s0.changesOnly (State.ftCorrect s e) ps := by
  unfold State.ftCorrect
  repeat' first
    | with_reducible assumption
    | with_reducible apply State.ftTo_only
    | with_reducible apply State.ftRecord_only
    | with_reducible apply State.fireLate_only
    | with_reducible apply State.lanesShift_only
    | with_reducible apply State.ftJump_only
    | with_reducible apply State.realign_only
    | with_reducible apply ite_only
    | with_reducible apply ite_fst_only
    | with_reducible intro _
    | split
    | dsimp only
    | ((with_reducible apply only_mk) <;> first
        | with_reducible exact fun _ => rfl
        | exact fun hn => absurd (hq (by decide)) hn
        | skip)
    | exact List.Subset.trans (by decide) hq
    | refine pair_only (by assumption) ?_
    | assumption

theorem State.markMissing_only {s0 : State} {ps : List Part} (s : State) (hs : s0.changesOnly s ps) (hq : [.pkg, .tim, .ports, .req, .lse, .xl, .cpu, .clv, .sec, .log, .adk, .evq] ⊆ ps) : s0.changesOnly (State.markMissing s) ps := by
  unfold State.markMissing
  repeat' first
    | with_reducible assumption
    | with_reducible apply State.ftTo_only
    | with_reducible apply ite_only
    | with_reducible apply ite_fst_only
    | with_reducible intro _
    | split
    | dsimp only
    | ((with_reducible apply only_mk) <;> first
        | with_reducible exact fun _ => rfl
        | exact fun hn => absurd (hq (by decide)) hn
        | skip)
    | exact List.Subset.trans (by decide) hq
    | refine pair_only (by assumption) ?_
    | assumption

theorem State.markGood_only {s0 : State} {ps : List Part} (s : State) (e : Int) (hs : s0.changesOnly s ps) (hq : [.free, .pkg, .tim, .ports, .req, .coh, .ext, .lse, .xl, .cpu, .clv, .comp, .sec, .log, .adk, .evq] ⊆ ps) : s0.changesOnly (State.markGood s e) ps := by
  unfold State.markGood
  repeat' first
    | with_reducible assumption
    | with_reducible apply State.ftCorrect_only
    | with_reducible apply ite_only
    | with_reducible apply ite_fst_only
    | with_reducible intro _
    | split
    | dsimp only
    | ((with_reducible apply only_mk) <;> first
        | with_reducible exact fun _ => rfl
        | exact fun hn => absurd (hq (by decide)) hn
        | skip)
    | exact List.Subset.trans (by decide) hq
    | refine pair_only (by assumption) ?_
    | assumption

theorem State.markClose_only {s0 : State} {ps : List Part} (s : State) (hs : s0.changesOnly s ps) (hq : [.pkg, .tim, .ports, .req, .lse, .xl, .cpu, .clv, .sec, .log, .adk, .evq] ⊆ ps) : s0.changesOnly (State.markClose s) ps := by
  unfold State.markClose
  repeat' first
    | with_reducible assumption
    | with_reducible apply State.markMissing_only
    | with_reducible apply ite_only
    | with_reducible apply ite_fst_only
    | with_reducible intro _
    | split
    | dsimp only
    | ((with_reducible apply only_mk) <;> first
        | with_reducible exact fun _ => rfl
        | exact fun hn => absurd (hq (by decide)) hn
        | skip)
    | exact List.Subset.trans (by decide) hq
    | refine pair_only (by assumption) ?_
    | assumption

theorem execRtCodeFrame_only {s0 : State} {ps : List Part} (sync : BitVec 16) (markFt : BitVec 64) (flags : BitVec 8) (crc : BitVec 16) (s : State) (hs : s0.changesOnly s ps) (hq : [.pkg, .tim, .ports, .req, .lse, .xl, .cpu, .clv, .sec, .log, .adk, .evq] ⊆ ps) : onlyNext s0 (execRtCodeFrame sync markFt flags crc s) ps := by
  unfold execRtCodeFrame
  repeat' first
    | with_reducible assumption
    | with_reducible apply State.markMissing_only
    | with_reducible apply State.markClose_only
    | with_reducible apply ite_only
    | with_reducible apply ite_fst_only
    | with_reducible apply next_only
    | with_reducible intro _
    | split
    | dsimp only
    | ((with_reducible apply only_mk) <;> first
        | with_reducible exact fun _ => rfl
        | exact fun hn => absurd (hq (by decide)) hn
        | skip)
    | exact List.Subset.trans (by decide) hq
    | refine pair_only (by assumption) ?_
    | assumption

theorem execRtMarkEdge_only {s0 : State} {ps : List Part} (frac : BitVec 6) (s : State) (hs : s0.changesOnly s ps) (hq : [.free, .pkg, .tim, .ports, .req, .coh, .ext, .lse, .xl, .cpu, .clv, .comp, .sec, .log, .adk, .evq] ⊆ ps) : onlyNext s0 (execRtMarkEdge frac s) ps := by
  unfold execRtMarkEdge
  repeat' first
    | with_reducible assumption
    | with_reducible apply State.markMissing_only
    | with_reducible apply State.markGood_only
    | with_reducible apply ite_only
    | with_reducible apply ite_fst_only
    | with_reducible apply next_only
    | with_reducible intro _
    | split
    | dsimp only
    | ((with_reducible apply only_mk) <;> first
        | with_reducible exact fun _ => rfl
        | exact fun hn => absurd (hq (by decide)) hn
        | skip)
    | exact List.Subset.trans (by decide) hq
    | refine pair_only (by assumption) ?_
    | assumption

theorem execMarkWindowExpiry_only {s0 : State} {ps : List Part} (s : State) (hs : s0.changesOnly s ps) (hq : [.pkg, .tim, .ports, .req, .lse, .xl, .cpu, .clv, .sec, .log, .adk, .evq] ⊆ ps) : onlyNext s0 (execMarkWindowExpiry s) ps := by
  unfold execMarkWindowExpiry
  repeat' first
    | with_reducible assumption
    | with_reducible apply State.markClose_only
    | with_reducible apply ite_only
    | with_reducible apply ite_fst_only
    | with_reducible apply next_only
    | with_reducible intro _
    | split
    | dsimp only
    | ((with_reducible apply only_mk) <;> first
        | with_reducible exact fun _ => rfl
        | exact fun hn => absurd (hq (by decide)) hn
        | skip)
    | exact List.Subset.trans (by decide) hq
    | refine pair_only (by assumption) ?_
    | assumption

theorem execRtCodeAbsentTimeout_only {s0 : State} {ps : List Part} (s : State) (hs : s0.changesOnly s ps) (hq : [.pkg, .tim, .ports, .req, .lse, .xl, .cpu, .clv, .sec, .log, .adk, .evq] ⊆ ps) : onlyNext s0 (execRtCodeAbsentTimeout s) ps := by
  unfold execRtCodeAbsentTimeout
  repeat' first
    | with_reducible assumption
    | with_reducible apply State.markMissing_only
    | with_reducible apply ite_only
    | with_reducible apply ite_fst_only
    | with_reducible apply next_only
    | with_reducible intro _
    | split
    | dsimp only
    | ((with_reducible apply only_mk) <;> first
        | with_reducible exact fun _ => rfl
        | exact fun hn => absurd (hq (by decide)) hn
        | skip)
    | exact List.Subset.trans (by decide) hq
    | refine pair_only (by assumption) ?_
    | assumption

theorem execRtRefLoss_only {s0 : State} {ps : List Part} (since : BitVec 64) (s : State) (hs : s0.changesOnly s ps) (hq : [.pkg, .tim, .ports, .req, .lse, .xl, .cpu, .clv, .sec, .log, .adk, .evq] ⊆ ps) : onlyNext s0 (execRtRefLoss since s) ps := by
  unfold execRtRefLoss
  repeat' first
    | with_reducible assumption
    | with_reducible apply State.ftTo_only
    | with_reducible apply ite_only
    | with_reducible apply ite_fst_only
    | with_reducible apply next_only
    | with_reducible intro _
    | split
    | dsimp only
    | ((with_reducible apply only_mk) <;> first
        | with_reducible exact fun _ => rfl
        | exact fun hn => absurd (hq (by decide)) hn
        | skip)
    | exact List.Subset.trans (by decide) hq
    | refine pair_only (by assumption) ?_
    | assumption

theorem State.holdEnds_only {s0 : State} {ps : List Part} (s : State) (hs : s0.changesOnly s ps) (hq : [.pkg, .tim, .ports, .req, .lse, .xl, .cpu, .clv, .sec, .log, .adk, .evq] ⊆ ps) : s0.changesOnly (State.holdEnds s) ps := by
  unfold State.holdEnds
  repeat' first
    | with_reducible assumption
    | with_reducible apply State.ftTo_only
    | with_reducible apply ite_only
    | with_reducible apply ite_fst_only
    | with_reducible intro _
    | split
    | dsimp only
    | ((with_reducible apply only_mk) <;> first
        | with_reducible exact fun _ => rfl
        | exact fun hn => absurd (hq (by decide)) hn
        | skip)
    | exact List.Subset.trans (by decide) hq
    | refine pair_only (by assumption) ?_
    | assumption

theorem execHoldoverExpiry_only {s0 : State} {ps : List Part} (s : State) (hs : s0.changesOnly s ps) (hq : [.pkg, .tim, .ports, .req, .lse, .xl, .cpu, .clv, .sec, .log, .adk, .evq] ⊆ ps) : onlyNext s0 (execHoldoverExpiry s) ps := by
  unfold execHoldoverExpiry
  repeat' first
    | with_reducible assumption
    | with_reducible apply State.holdEnds_only
    | with_reducible apply ite_only
    | with_reducible apply ite_fst_only
    | with_reducible apply next_only
    | with_reducible intro _
    | split
    | dsimp only
    | ((with_reducible apply only_mk) <;> first
        | with_reducible exact fun _ => rfl
        | exact fun hn => absurd (hq (by decide)) hn
        | skip)
    | exact List.Subset.trans (by decide) hq
    | refine pair_only (by assumption) ?_
    | assumption

theorem execFtStallEnd_only {s0 : State} {ps : List Part} (s : State) (hs : s0.changesOnly s ps) (hq : [.pkg, .tim, .ports, .req, .lse, .xl, .cpu, .clv, .sec, .log, .adk, .evq] ⊆ ps) : onlyNext s0 (execFtStallEnd s) ps := by
  unfold execFtStallEnd
  repeat' first
    | with_reducible assumption
    | with_reducible apply State.ftTo_only
    | with_reducible apply State.ftRecord_only
    | with_reducible apply ite_only
    | with_reducible apply ite_fst_only
    | with_reducible apply next_only
    | with_reducible intro _
    | split
    | dsimp only
    | ((with_reducible apply only_mk) <;> first
        | with_reducible exact fun _ => rfl
        | exact fun hn => absurd (hq (by decide)) hn
        | skip)
    | exact List.Subset.trans (by decide) hq
    | refine pair_only (by assumption) ?_
    | assumption

theorem State.ftLoad_only {s0 : State} {ps : List Part} (s : State) (x : Nat) (hs : s0.changesOnly s ps) (hq : [.free, .tim] ⊆ ps) : s0.changesOnly (State.ftLoad s x) ps := by
  unfold State.ftLoad
  repeat' first
    | with_reducible assumption
    | with_reducible apply State.draw_only
    | with_reducible apply ite_only
    | with_reducible apply ite_fst_only
    | with_reducible intro _
    | split
    | dsimp only
    | ((with_reducible apply only_mk) <;> first
        | with_reducible exact fun _ => rfl
        | exact fun hn => absurd (hq (by decide)) hn
        | skip)
    | exact List.Subset.trans (by decide) hq
    | refine pair_only (by assumption) ?_
    | assumption

theorem execFtDistribute_only {s0 : State} {ps : List Part} (s : State) (hs : s0.changesOnly s ps) (hq : [.free, .tim] ⊆ ps) : onlyNext s0 (execFtDistribute s) ps := by
  unfold execFtDistribute
  repeat' first
    | with_reducible assumption
    | with_reducible apply State.ftLoad_only
    | with_reducible apply foldl_only
    | with_reducible apply foldl_fst_only
    | with_reducible apply ite_only
    | with_reducible apply ite_fst_only
    | with_reducible apply next_only
    | with_reducible intro _
    | split
    | dsimp only
    | ((with_reducible apply only_mk) <;> first
        | with_reducible exact fun _ => rfl
        | exact fun hn => absurd (hq (by decide)) hn
        | skip)
    | exact List.Subset.trans (by decide) hq
    | refine pair_only (by assumption) ?_
    | assumption

theorem State.timCtrl_only {s0 : State} {ps : List Part} (s : State) (v : BitVec 64) (hs : s0.changesOnly s ps) (hq : [.pkg, .tim, .ports, .req, .lse, .xl, .cpu, .clv, .sec, .log, .adk, .evq] ⊆ ps) : s0.changesOnly (State.timCtrl s v).1 ps := by
  unfold State.timCtrl
  repeat' first
    | with_reducible assumption
    | with_reducible apply State.holdEnds_only
    | with_reducible apply ite_only
    | with_reducible apply ite_fst_only
    | with_reducible intro _
    | split
    | dsimp only
    | ((with_reducible apply only_mk) <;> first
        | with_reducible exact fun _ => rfl
        | exact fun hn => absurd (hq (by decide)) hn
        | skip)
    | exact List.Subset.trans (by decide) hq
    | refine pair_only (by assumption) ?_
    | assumption

theorem execTimCtrlWrite_only {s0 : State} {ps : List Part} (tag : BitVec 16) (value : BitVec 64) (s : State) (hs : s0.changesOnly s ps) (hq : [.pkg, .tim, .ports, .req, .lse, .xl, .cpu, .clv, .sec, .log, .adk, .evq] ⊆ ps) : onlyNext s0 (execTimCtrlWrite tag value s) ps := by
  unfold execTimCtrlWrite
  repeat' first
    | with_reducible assumption
    | with_reducible apply State.adkWr_only
    | with_reducible apply State.timCtrl_only
    | with_reducible apply ite_only
    | with_reducible apply ite_fst_only
    | with_reducible apply next_only
    | with_reducible intro _
    | split
    | dsimp only
    | ((with_reducible apply only_mk) <;> first
        | with_reducible exact fun _ => rfl
        | exact fun hn => absurd (hq (by decide)) hn
        | skip)
    | exact List.Subset.trans (by decide) hq
    | refine pair_only (by assumption) ?_
    | assumption

end Sys2Proof.Machine
end

