-- ==== Sys2Proof/Laws/OnlyTenancy.lean ====
section
/-! SUPPORT. What every operation of Tenancy leaves alone. -/

set_option linter.unusedTactic false
set_option linter.unreachableTactic false
set_option linter.unusedVariables false

namespace Sys2Proof.Machine

theorem State.tenantTo_only {s0 : State} {ps : List Part} (s : State) (t : Nat) (n : TenantState) (f : Tenant → Tenant) (hs : s0.changesOnly s ps) (hq : [.sec, .adk, .evq] ⊆ ps) : s0.changesOnly (State.tenantTo s t n f) ps := by
  unfold State.tenantTo
  repeat' first
    | with_reducible assumption
    | with_reducible apply State.event_only
    | with_reducible apply State.onTenant_only
    | with_reducible apply ite_only
    | with_reducible apply ite_fst_only
    | with_reducible intro _
    | split
    | dsimp only
    | ((with_reducible apply only_mk) <;> first
        | with_reducible exact fun _ => rfl
        | exact fun hn => absurd (hq (by decide)) hn
        | skip)
    | exact List.Subset.trans (by decide) hq
    | refine pair_only (by assumption) ?_
    | assumption

theorem State.teardownStop_only {s0 : State} {ps : List Part} (s : State) (t : Nat) (hs : s0.changesOnly s ps) (hq : [.free, .pkg, .ports, .req, .coh, .ext, .tier, .xl, .cmp, .cpu, .clv, .atn, .comp, .sec, .log, .adk, .evq] ⊆ ps) : s0.changesOnly (State.teardownStop s t) ps := by
  unfold State.teardownStop
  repeat' first
    | with_reducible assumption
    | with_reducible apply State.domTrigger_only
    | with_reducible apply State.collTriggers_only
    | with_reducible apply State.attnStopping_only
    | with_reducible apply State.revokeAll_only
    | with_reducible apply State.stopThreads_only
    | with_reducible apply foldl_only
    | with_reducible apply foldl_fst_only
    | with_reducible apply ite_only
    | with_reducible apply ite_fst_only
    | with_reducible intro _
    | split
    | dsimp only
    | ((with_reducible apply only_mk) <;> first
        | with_reducible exact fun _ => rfl
        | exact fun hn => absurd (hq (by decide)) hn
        | skip)
    | exact List.Subset.trans (by decide) hq
    | refine pair_only (by assumption) ?_
    | assumption

theorem State.teardownBitmaps_only {s0 : State} {ps : List Part} (s : State) (hs : s0.changesOnly s ps) (hq : [.pkg, .ports, .tier, .adk, .evq] ⊆ ps) : s0.changesOnly (State.teardownBitmaps s) ps := by
  unfold State.teardownBitmaps
  repeat' first
    | with_reducible assumption
    | with_reducible apply State.writeBitmap_only
    | with_reducible apply foldl_only
    | with_reducible apply foldl_fst_only
    | with_reducible apply ite_only
    | with_reducible apply ite_fst_only
    | with_reducible intro _
    | split
    | dsimp only
    | ((with_reducible apply only_mk) <;> first
        | with_reducible exact fun _ => rfl
        | exact fun hn => absurd (hq (by decide)) hn
        | skip)
    | exact List.Subset.trans (by decide) hq
    | refine pair_only (by assumption) ?_
    | assumption

theorem State.teardownClean_only {s0 : State} {ps : List Part} (s : State) (t : Nat) (hs : s0.changesOnly s ps) (hq : [.pkg, .ports, .tier, .adk, .evq] ⊆ ps) : s0.changesOnly (State.teardownClean s t) ps := by
  unfold State.teardownClean
  repeat' first
    | with_reducible assumption
    | with_reducible apply State.abortMove_only
    | with_reducible apply foldl_only
    | with_reducible apply foldl_fst_only
    | with_reducible apply ite_only
    | with_reducible apply ite_fst_only
    | with_reducible intro _
    | split
    | dsimp only
    | ((with_reducible apply only_mk) <;> first
        | with_reducible exact fun _ => rfl
        | exact fun hn => absurd (hq (by decide)) hn
        | skip)
    | exact List.Subset.trans (by decide) hq
    | refine pair_only (by assumption) ?_
    | assumption

theorem State.retireTenant_only {s0 : State} {ps : List Part} (s : State) (t : Nat) (hs : s0.changesOnly s ps) (hq : [.free, .pkg, .ports, .req, .coh, .ext, .tier, .xl, .cmp, .cpu, .clv, .atn, .comp, .sec, .log, .adk, .evq] ⊆ ps) : s0.changesOnly (State.retireTenant s t) ps := by
  unfold State.retireTenant
  repeat' first
    | with_reducible assumption
    | with_reducible apply State.onTenant_only
    | with_reducible apply State.wakeStaged_only
    | with_reducible apply State.tenantTo_only
    | with_reducible apply State.teardownStop_only
    | with_reducible apply State.teardownBitmaps_only
    | with_reducible apply State.teardownClean_only
    | with_reducible apply ite_only
    | with_reducible apply ite_fst_only
    | with_reducible intro _
    | split
    | dsimp only
    | ((with_reducible apply only_mk) <;> first
        | with_reducible exact fun _ => rfl
        | exact fun hn => absurd (hq (by decide)) hn
        | skip)
    | exact List.Subset.trans (by decide) hq
    | refine pair_only (by assumption) ?_
    | assumption

theorem execTeardownScrubStart_only {s0 : State} {ps : List Part} (tc : BitVec 10) (s : State) (hs : s0.changesOnly s ps) (hq : [.sec] ⊆ ps) : onlyNext s0 (execTeardownScrubStart tc s) ps := by
  unfold execTeardownScrubStart
  repeat' first
    | with_reducible assumption
    | with_reducible apply State.onTenant_only
    | with_reducible apply ite_only
    | with_reducible apply ite_fst_only
    | with_reducible apply next_only
    | with_reducible intro _
    | split
    | dsimp only
    | ((with_reducible apply only_mk) <;> first
        | with_reducible exact fun _ => rfl
        | exact fun hn => absurd (hq (by decide)) hn
        | skip)
    | exact List.Subset.trans (by decide) hq
    | refine pair_only (by assumption) ?_
    | assumption

theorem State.scrubCore_only {s0 : State} {ps : List Part} (s : State) (k : Nat) (hs : s0.changesOnly s ps) (hq : [.xl, .cpu] ⊆ ps) : s0.changesOnly (State.scrubCore s k) ps := by
  unfold State.scrubCore
  repeat' first
    | with_reducible assumption
    | with_reducible apply State.onCore_only
    | with_reducible apply ite_only
    | with_reducible apply ite_fst_only
    | with_reducible intro _
    | split
    | dsimp only
    | ((with_reducible apply only_mk) <;> first
        | with_reducible exact fun _ => rfl
        | exact fun hn => absurd (hq (by decide)) hn
        | skip)
    | exact List.Subset.trans (by decide) hq
    | refine pair_only (by assumption) ?_
    | assumption

theorem State.scrubSectors_only {s0 : State} {ps : List Part} (s : State) (t : Nat) (hs : s0.changesOnly s ps) (hq : [.tier] ⊆ ps) : s0.changesOnly (State.scrubSectors s t) ps := by
  unfold State.scrubSectors
  repeat' first
    | with_reducible assumption
    | with_reducible apply State.dropSector_only
    | with_reducible apply foldl_only
    | with_reducible apply foldl_fst_only
    | with_reducible apply ite_only
    | with_reducible apply ite_fst_only
    | with_reducible intro _
    | split
    | dsimp only
    | ((with_reducible apply only_mk) <;> first
        | with_reducible exact fun _ => rfl
        | exact fun hn => absurd (hq (by decide)) hn
        | skip)
    | exact List.Subset.trans (by decide) hq
    | refine pair_only (by assumption) ?_
    | assumption

theorem State.teardownScrub_only {s0 : State} {ps : List Part} (s : State) (t : Nat) (hs : s0.changesOnly s ps) (hq : [.pkg, .ports, .req, .coh, .ext, .tier, .xl, .cmp, .cpu, .clv, .atn, .comp, .sec, .log, .adk, .evq] ⊆ ps) : s0.changesOnly (State.teardownScrub s t) ps := by
  have sub : ∀ {l : List Part}, l ⊆ [.pkg, .ports, .req, .coh, .ext, .tier, .xl, .cmp, .cpu, .clv, .atn, .comp, .sec, .log, .adk, .evq] → l ⊆ ps := fun h => List.Subset.trans h hq
  have hm : ∀ (t : State) a b c, s0.changesOnly t ps → s0.changesOnly { t with cpu := a, clv := b, atn := c } ps := by
    intro t a b c h p hp
    have := h p hp
    cases p <;> first
      | exact this
      | exact absurd (hq (by decide)) hp
  have hx : ∀ (t : State) a, s0.changesOnly t ps → s0.changesOnly { t with xl := a } ps := by
    intro t a h p hp
    have := h p hp
    cases p <;> first
      | exact this
      | exact absurd (hq (by decide)) hp
  have h1 : ∀ l : List Nat, s0.changesOnly (l.foldl State.scrubCore s) ps := fun l =>
    foldl_only State.scrubCore l s (fun _ _ h => State.scrubCore_only _ _ h (sub (by decide))) hs
  exact State.scrubSectors_only _ _ (hx _ _ (State.purge_only _ _ _ _ (hm _ _ _ _ (h1 _)) (sub (by decide)))) (sub (by decide))

theorem execTeardownComplete_only {s0 : State} {ps : List Part} (tc : BitVec 10) (s : State) (hs : s0.changesOnly s ps) (hq : [.pkg, .ports, .req, .coh, .ext, .tier, .xl, .cmp, .cpu, .clv, .atn, .comp, .sec, .log, .adk, .evq] ⊆ ps) : onlyNext s0 (execTeardownComplete tc s) ps := by
  unfold execTeardownComplete
  repeat' first
    | with_reducible assumption
    | with_reducible apply State.logWith_only
    | with_reducible apply State.onTenant_only
    | with_reducible apply State.teardownScrub_only
    | with_reducible apply ite_only
    | with_reducible apply ite_fst_only
    | with_reducible apply next_only
    | with_reducible intro _
    | split
    | dsimp only
    | ((with_reducible apply only_mk) <;> first
        | with_reducible exact fun _ => rfl
        | exact fun hn => absurd (hq (by decide)) hn
        | skip)
    | exact List.Subset.trans (by decide) hq
    | refine pair_only (by assumption) ?_
    | assumption

theorem State.releaseKept_only {s0 : State} {ps : List Part} (s : State) (e : Nat) (hs : s0.changesOnly s ps) (hq : [.pkg, .ports, .ext, .tier, .adk, .evq] ⊆ ps) : s0.changesOnly (State.releaseKept s e) ps := by
  unfold State.releaseKept
  repeat' first
    | with_reducible assumption
    | with_reducible apply State.onExtent_only
    | with_reducible apply State.setPage_only
    | with_reducible apply State.releaseSlot_only
    | with_reducible apply foldl_only
    | with_reducible apply foldl_fst_only
    | with_reducible apply ite_only
    | with_reducible apply ite_fst_only
    | with_reducible intro _
    | split
    | dsimp only
    | ((with_reducible apply only_mk) <;> first
        | with_reducible exact fun _ => rfl
        | exact fun hn => absurd (hq (by decide)) hn
        | skip)
    | exact List.Subset.trans (by decide) hq
    | refine pair_only (by assumption) ?_
    | assumption

theorem execTenantFree_only {s0 : State} {ps : List Part} (tc : BitVec 10) (s : State) (hs : s0.changesOnly s ps) (hq : [.pkg, .ports, .ext, .tier, .sec, .adk, .evq] ⊆ ps) : onlyNext s0 (execTenantFree tc s) ps := by
  unfold execTenantFree
  repeat' first
    | with_reducible assumption
    | with_reducible apply State.event_only
    | with_reducible apply State.onTenant_only
    | with_reducible apply State.teardownBitmaps_only
    | with_reducible apply State.releaseKept_only
    | with_reducible apply foldl_only
    | with_reducible apply foldl_fst_only
    | with_reducible apply ite_only
    | with_reducible apply ite_fst_only
    | with_reducible apply next_only
    | with_reducible intro _
    | split
    | dsimp only
    | ((with_reducible apply only_mk) <;> first
        | with_reducible exact fun _ => rfl
        | exact fun hn => absurd (hq (by decide)) hn
        | skip)
    | exact List.Subset.trans (by decide) hq
    | refine pair_only (by assumption) ?_
    | assumption

theorem State.tcResult_only {s0 : State} {ps : List Part} (s : State) (st : BitVec 6) (hs : s0.changesOnly s ps) (hq : [.sec] ⊆ ps) : s0.changesOnly (State.tcResult s st).1 ps := by
  unfold State.tcResult
  repeat' first
    | with_reducible assumption
    | with_reducible apply ite_only
    | with_reducible apply ite_fst_only
    | with_reducible intro _
    | split
    | dsimp only
    | ((with_reducible apply only_mk) <;> first
        | with_reducible exact fun _ => rfl
        | exact fun hn => absurd (hq (by decide)) hn
        | skip)
    | exact List.Subset.trans (by decide) hq
    | refine pair_only (by assumption) ?_
    | assumption

theorem State.tcCmd_only {s0 : State} {ps : List Part} (s : State) (v : BitVec 64) (hs : s0.changesOnly s ps) (hq : [.free, .pkg, .ports, .req, .coh, .ext, .tier, .xl, .cmp, .cpu, .clv, .atn, .comp, .sec, .log, .adk, .evq] ⊆ ps) : s0.changesOnly (State.tcCmd s v).1 ps := by
  unfold State.tcCmd
  repeat' first
    | with_reducible assumption
    | with_reducible apply State.onTenant_only
    | with_reducible apply State.tenantTo_only
    | with_reducible apply State.retireTenant_only
    | with_reducible apply State.tcResult_only
    | with_reducible apply ite_only
    | with_reducible apply ite_fst_only
    | with_reducible intro _
    | split
    | dsimp only
    | ((with_reducible apply only_mk) <;> first
        | with_reducible exact fun _ => rfl
        | exact fun hn => absurd (hq (by decide)) hn
        | skip)
    | exact List.Subset.trans (by decide) hq
    | refine pair_only (by assumption) ?_
    | assumption

theorem State.tcWr_only {s0 : State} {ps : List Part} (s : State) (tag : BitVec 16) (v : BitVec 64) (hs : s0.changesOnly s ps) (hq : [.free, .pkg, .ports, .req, .coh, .ext, .tier, .xl, .cmp, .cpu, .clv, .atn, .comp, .sec, .log, .adk, .evq] ⊆ ps) : s0.changesOnly (State.tcWr s tag v) ps := by
  unfold State.tcWr
  repeat' first
    | with_reducible assumption
    | with_reducible apply State.adkWr_only
    | with_reducible apply State.tcCmd_only
    | with_reducible apply ite_only
    | with_reducible apply ite_fst_only
    | with_reducible intro _
    | split
    | dsimp only
    | ((with_reducible apply only_mk) <;> first
        | with_reducible exact fun _ => rfl
        | exact fun hn => absurd (hq (by decide)) hn
        | skip)
    | exact List.Subset.trans (by decide) hq
    | refine pair_only (by assumption) ?_
    | assumption

theorem execTcActivate_only {s0 : State} {ps : List Part} (tag : BitVec 16) (s : State) (hs : s0.changesOnly s ps) (hq : [.free, .pkg, .ports, .req, .coh, .ext, .tier, .xl, .cmp, .cpu, .clv, .atn, .comp, .sec, .log, .adk, .evq] ⊆ ps) : onlyNext s0 (execTcActivate tag s) ps := by
  unfold execTcActivate
  repeat' first
    | with_reducible assumption
    | with_reducible apply State.tcWr_only
    | with_reducible apply ite_only
    | with_reducible apply ite_fst_only
    | with_reducible apply next_only
    | with_reducible intro _
    | split
    | dsimp only
    | ((with_reducible apply only_mk) <;> first
        | with_reducible exact fun _ => rfl
        | exact fun hn => absurd (hq (by decide)) hn
        | skip)
    | exact List.Subset.trans (by decide) hq
    | refine pair_only (by assumption) ?_
    | assumption

theorem execTcRetire_only {s0 : State} {ps : List Part} (tag : BitVec 16) (s : State) (hs : s0.changesOnly s ps) (hq : [.free, .pkg, .ports, .req, .coh, .ext, .tier, .xl, .cmp, .cpu, .clv, .atn, .comp, .sec, .log, .adk, .evq] ⊆ ps) : onlyNext s0 (execTcRetire tag s) ps := by
  unfold execTcRetire
  repeat' first
    | with_reducible assumption
    | with_reducible apply State.tcWr_only
    | with_reducible apply ite_only
    | with_reducible apply ite_fst_only
    | with_reducible apply next_only
    | with_reducible intro _
    | split
    | dsimp only
    | ((with_reducible apply only_mk) <;> first
        | with_reducible exact fun _ => rfl
        | exact fun hn => absurd (hq (by decide)) hn
        | skip)
    | exact List.Subset.trans (by decide) hq
    | refine pair_only (by assumption) ?_
    | assumption

theorem execTcSetkey_only {s0 : State} {ps : List Part} (tag : BitVec 16) (s : State) (hs : s0.changesOnly s ps) (hq : [.free, .pkg, .ports, .req, .coh, .ext, .tier, .xl, .cmp, .cpu, .clv, .atn, .comp, .sec, .log, .adk, .evq] ⊆ ps) : onlyNext s0 (execTcSetkey tag s) ps := by
  unfold execTcSetkey
  repeat' first
    | with_reducible assumption
    | with_reducible apply State.tcWr_only
    | with_reducible apply ite_only
    | with_reducible apply ite_fst_only
    | with_reducible apply next_only
    | with_reducible intro _
    | split
    | dsimp only
    | ((with_reducible apply only_mk) <;> first
        | with_reducible exact fun _ => rfl
        | exact fun hn => absurd (hq (by decide)) hn
        | skip)
    | exact List.Subset.trans (by decide) hq
    | refine pair_only (by assumption) ?_
    | assumption

theorem State.pkeyData_only {s0 : State} {ps : List Part} (s : State) (v : BitVec 64) (hs : s0.changesOnly s ps) (hq : [.sec] ⊆ ps) : s0.changesOnly (State.pkeyData s v).1 ps := by
  unfold State.pkeyData
  repeat' first
    | with_reducible assumption
    | with_reducible apply ite_only
    | with_reducible apply ite_fst_only
    | with_reducible intro _
    | split
    | dsimp only
    | ((with_reducible apply only_mk) <;> first
        | with_reducible exact fun _ => rfl
        | exact fun hn => absurd (hq (by decide)) hn
        | skip)
    | exact List.Subset.trans (by decide) hq
    | refine pair_only (by assumption) ?_
    | assumption

theorem execSecPkeyDataWrite_only {s0 : State} {ps : List Part} (tag : BitVec 16) (value : BitVec 64) (s : State) (hs : s0.changesOnly s ps) (hq : [.sec, .log, .adk, .evq] ⊆ ps) : onlyNext s0 (execSecPkeyDataWrite tag value s) ps := by
  unfold execSecPkeyDataWrite
  repeat' first
    | with_reducible assumption
    | with_reducible apply State.adkWr_only
    | with_reducible apply State.pkeyData_only
    | with_reducible apply ite_only
    | with_reducible apply ite_fst_only
    | with_reducible apply next_only
    | with_reducible intro _
    | split
    | dsimp only
    | ((with_reducible apply only_mk) <;> first
        | with_reducible exact fun _ => rfl
        | exact fun hn => absurd (hq (by decide)) hn
        | skip)
    | exact List.Subset.trans (by decide) hq
    | refine pair_only (by assumption) ?_
    | assumption

theorem State.roleCmd_only {s0 : State} {ps : List Part} (s : State) (v : BitVec 64) (hs : s0.changesOnly s ps) (hq : [.sec] ⊆ ps) : s0.changesOnly (State.roleCmd s v).1 ps := by
  unfold State.roleCmd
  repeat' first
    | with_reducible assumption
    | with_reducible apply ite_only
    | with_reducible apply ite_fst_only
    | with_reducible intro _
    | split
    | dsimp only
    | ((with_reducible apply only_mk) <;> first
        | with_reducible exact fun _ => rfl
        | exact fun hn => absurd (hq (by decide)) hn
        | skip)
    | exact List.Subset.trans (by decide) hq
    | refine pair_only (by assumption) ?_
    | assumption

theorem execInstReq_only {s0 : State} {ps : List Part} (tag : BitVec 16) (s : State) (hs : s0.changesOnly s ps) (hq : [.sec, .log, .adk, .evq] ⊆ ps) : onlyNext s0 (execInstReq tag s) ps := by
  unfold execInstReq
  repeat' first
    | with_reducible assumption
    | with_reducible apply State.adkWr_only
    | with_reducible apply State.roleCmd_only
    | with_reducible apply ite_only
    | with_reducible apply ite_fst_only
    | with_reducible apply next_only
    | with_reducible intro _
    | split
    | dsimp only
    | ((with_reducible apply only_mk) <;> first
        | with_reducible exact fun _ => rfl
        | exact fun hn => absurd (hq (by decide)) hn
        | skip)
    | exact List.Subset.trans (by decide) hq
    | refine pair_only (by assumption) ?_
    | assumption

theorem execInstEnd_only {s0 : State} {ps : List Part} (tag : BitVec 16) (s : State) (hs : s0.changesOnly s ps) (hq : [.sec, .log, .adk, .evq] ⊆ ps) : onlyNext s0 (execInstEnd tag s) ps := by
  unfold execInstEnd
  repeat' first
    | with_reducible assumption
    | with_reducible apply State.adkWr_only
    | with_reducible apply State.roleCmd_only
    | with_reducible apply ite_only
    | with_reducible apply ite_fst_only
    | with_reducible apply next_only
    | with_reducible intro _
    | split
    | dsimp only
    | ((with_reducible apply only_mk) <;> first
        | with_reducible exact fun _ => rfl
        | exact fun hn => absurd (hq (by decide)) hn
        | skip)
    | exact List.Subset.trans (by decide) hq
    | refine pair_only (by assumption) ?_
    | assumption

theorem execInstallerWindowExpiry_only {s0 : State} {ps : List Part} (s : State) (hs : s0.changesOnly s ps) (hq : [.sec] ⊆ ps) : onlyNext s0 (execInstallerWindowExpiry s) ps := by
  unfold execInstallerWindowExpiry
  repeat' first
    | with_reducible assumption
    | with_reducible apply ite_only
    | with_reducible apply ite_fst_only
    | with_reducible apply next_only
    | with_reducible intro _
    | split
    | dsimp only
    | ((with_reducible apply only_mk) <;> first
        | with_reducible exact fun _ => rfl
        | exact fun hn => absurd (hq (by decide)) hn
        | skip)
    | exact List.Subset.trans (by decide) hq
    | refine pair_only (by assumption) ?_
    | assumption

theorem execPresBtnAssert_only {s0 : State} {ps : List Part} (since : BitVec 64) (s : State) (hs : s0.changesOnly s ps) (hq : [.sec] ⊆ ps) : onlyNext s0 (execPresBtnAssert since s) ps := by
  unfold execPresBtnAssert
  repeat' first
    | with_reducible assumption
    | with_reducible apply ite_only
    | with_reducible apply ite_fst_only
    | with_reducible apply next_only
    | with_reducible intro _
    | split
    | dsimp only
    | ((with_reducible apply only_mk) <;> first
        | with_reducible exact fun _ => rfl
        | exact fun hn => absurd (hq (by decide)) hn
        | skip)
    | exact List.Subset.trans (by decide) hq
    | refine pair_only (by assumption) ?_
    | assumption

theorem execPresBtnRelease_only {s0 : State} {ps : List Part} (since : BitVec 64) (s : State) (hs : s0.changesOnly s ps) (hq : [.sec] ⊆ ps) : onlyNext s0 (execPresBtnRelease since s) ps := by
  unfold execPresBtnRelease
  repeat' first
    | with_reducible assumption
    | with_reducible apply ite_only
    | with_reducible apply ite_fst_only
    | with_reducible apply next_only
    | with_reducible intro _
    | split
    | dsimp only
    | ((with_reducible apply only_mk) <;> first
        | with_reducible exact fun _ => rfl
        | exact fun hn => absurd (hq (by decide)) hn
        | skip)
    | exact List.Subset.trans (by decide) hq
    | refine pair_only (by assumption) ?_
    | assumption

theorem execSealLoopOpen_only {s0 : State} {ps : List Part} (since : BitVec 64) (s : State) (hs : s0.changesOnly s ps) (hq : [.sec, .log, .adk, .evq] ⊆ ps) : onlyNext s0 (execSealLoopOpen since s) ps := by
  unfold execSealLoopOpen
  repeat' first
    | with_reducible assumption
    | with_reducible apply State.sealOpened_only
    | with_reducible apply ite_only
    | with_reducible apply ite_fst_only
    | with_reducible apply next_only
    | with_reducible intro _
    | split
    | dsimp only
    | ((with_reducible apply only_mk) <;> first
        | with_reducible exact fun _ => rfl
        | exact fun hn => absurd (hq (by decide)) hn
        | skip)
    | exact List.Subset.trans (by decide) hq
    | refine pair_only (by assumption) ?_
    | assumption

theorem execSealLoopClose_only {s0 : State} {ps : List Part} (since : BitVec 64) (s : State) (hs : s0.changesOnly s ps) (hq : [.sec] ⊆ ps) : onlyNext s0 (execSealLoopClose since s) ps := by
  unfold execSealLoopClose
  repeat' first
    | with_reducible assumption
    | with_reducible apply ite_only
    | with_reducible apply ite_fst_only
    | with_reducible apply next_only
    | with_reducible intro _
    | split
    | dsimp only
    | ((with_reducible apply only_mk) <;> first
        | with_reducible exact fun _ => rfl
        | exact fun hn => absurd (hq (by decide)) hn
        | skip)
    | exact List.Subset.trans (by decide) hq
    | refine pair_only (by assumption) ?_
    | assumption

theorem execMakerJmpChange_only {s0 : State} {ps : List Part} (fitted : Bool) (since : BitVec 64) (s : State) (hs : s0.changesOnly s ps) (hq : [.sec] ⊆ ps) : onlyNext s0 (execMakerJmpChange fitted since s) ps := by
  unfold execMakerJmpChange
  repeat' first
    | with_reducible assumption
    | with_reducible apply ite_only
    | with_reducible apply ite_fst_only
    | with_reducible apply next_only
    | with_reducible intro _
    | split
    | dsimp only
    | ((with_reducible apply only_mk) <;> first
        | with_reducible exact fun _ => rfl
        | exact fun hn => absurd (hq (by decide)) hn
        | skip)
    | exact List.Subset.trans (by decide) hq
    | refine pair_only (by assumption) ?_
    | assumption

theorem State.dbgResult_only {s0 : State} {ps : List Part} (s : State) (st : BitVec 6) (line : List Byte) (hs : s0.changesOnly s ps) (hq : [.sec] ⊆ ps) : s0.changesOnly (State.dbgResult s st line) ps := by
  unfold State.dbgResult
  repeat' first
    | with_reducible assumption
    | with_reducible apply ite_only
    | with_reducible apply ite_fst_only
    | with_reducible intro _
    | split
    | dsimp only
    | ((with_reducible apply only_mk) <;> first
        | with_reducible exact fun _ => rfl
        | exact fun hn => absurd (hq (by decide)) hn
        | skip)
    | exact List.Subset.trans (by decide) hq
    | refine pair_only (by assumption) ?_
    | assumption

theorem State.dbgStart_only {s0 : State} {ps : List Part} (s : State) (q : AdkFrame) (hs : s0.changesOnly s ps) (hq : [.pkg, .ports, .req, .coh, .ext, .tier, .xl, .cmp, .cpu, .clv, .atn, .comp, .sec, .log, .adk, .evq] ⊆ ps) : s0.changesOnly (State.dbgStart s q) ps := by
  unfold State.dbgStart
  repeat' first
    | with_reducible assumption
    | with_reducible apply State.adkFail_only
    | with_reducible apply State.homeAccess_only
    | with_reducible apply State.dbgResult_only
    | with_reducible apply ite_only
    | with_reducible apply ite_fst_only
    | with_reducible intro _
    | split
    | dsimp only
    | ((with_reducible apply only_mk) <;> first
        | with_reducible exact fun _ => rfl
        | exact fun hn => absurd (hq (by decide)) hn
        | skip)
    | exact List.Subset.trans (by decide) hq
    | refine pair_only (by assumption) ?_
    | assumption

theorem execDebugRead_only {s0 : State} {ps : List Part} (tag : BitVec 16) (s : State) (hs : s0.changesOnly s ps) (hq : [.pkg, .ports, .req, .coh, .ext, .tier, .xl, .cmp, .cpu, .clv, .atn, .comp, .sec, .log, .adk, .evq] ⊆ ps) : onlyNext s0 (execDebugRead tag s) ps := by
  unfold execDebugRead
  repeat' first
    | with_reducible assumption
    | with_reducible apply State.adkRequest_only
    | with_reducible apply State.dbgStart_only
    | with_reducible apply ite_only
    | with_reducible apply ite_fst_only
    | with_reducible apply next_only
    | with_reducible intro _
    | split
    | dsimp only
    | ((with_reducible apply only_mk) <;> first
        | with_reducible exact fun _ => rfl
        | exact fun hn => absurd (hq (by decide)) hn
        | skip)
    | exact List.Subset.trans (by decide) hq
    | refine pair_only (by assumption) ?_
    | assumption

theorem State.fwResult_only {s0 : State} {ps : List Part} (s : State) (st : BitVec 6) (hs : s0.changesOnly s ps) (hq : [.sec] ⊆ ps) : s0.changesOnly (State.fwResult s st).1 ps := by
  unfold State.fwResult
  repeat' first
    | with_reducible assumption
    | with_reducible apply ite_only
    | with_reducible apply ite_fst_only
    | with_reducible intro _
    | split
    | dsimp only
    | ((with_reducible apply only_mk) <;> first
        | with_reducible exact fun _ => rfl
        | exact fun hn => absurd (hq (by decide)) hn
        | skip)
    | exact List.Subset.trans (by decide) hq
    | refine pair_only (by assumption) ?_
    | assumption

theorem State.fwVerify_only {s0 : State} {ps : List Part} (s : State) (hs : s0.changesOnly s ps) (hq : [.sec] ⊆ ps) : s0.changesOnly (State.fwVerify s).1 ps := by
  unfold State.fwVerify
  repeat' first
    | with_reducible assumption
    | with_reducible apply State.fwResult_only
    | with_reducible apply ite_only
    | with_reducible apply ite_fst_only
    | with_reducible intro _
    | split
    | dsimp only
    | ((with_reducible apply only_mk) <;> first
        | with_reducible exact fun _ => rfl
        | exact fun hn => absurd (hq (by decide)) hn
        | skip)
    | exact List.Subset.trans (by decide) hq
    | refine pair_only (by assumption) ?_
    | assumption

theorem State.fwCommit_only {s0 : State} {ps : List Part} (s : State) (hs : s0.changesOnly s ps) (hq : [.sec] ⊆ ps) : s0.changesOnly (State.fwCommit s).1 ps := by
  unfold State.fwCommit
  repeat' first
    | with_reducible assumption
    | with_reducible apply State.fwResult_only
    | with_reducible apply ite_only
    | with_reducible apply ite_fst_only
    | with_reducible intro _
    | split
    | dsimp only
    | ((with_reducible apply only_mk) <;> first
        | with_reducible exact fun _ => rfl
        | exact fun hn => absurd (hq (by decide)) hn
        | skip)
    | exact List.Subset.trans (by decide) hq
    | refine pair_only (by assumption) ?_
    | assumption

theorem State.fwRaiseMin_only {s0 : State} {ps : List Part} (s : State) (hs : s0.changesOnly s ps) (hq : [.sec] ⊆ ps) : s0.changesOnly (State.fwRaiseMin s).1 ps := by
  unfold State.fwRaiseMin
  repeat' first
    | with_reducible assumption
    | with_reducible apply State.fwResult_only
    | with_reducible apply ite_only
    | with_reducible apply ite_fst_only
    | with_reducible intro _
    | split
    | dsimp only
    | ((with_reducible apply only_mk) <;> first
        | with_reducible exact fun _ => rfl
        | exact fun hn => absurd (hq (by decide)) hn
        | skip)
    | exact List.Subset.trans (by decide) hq
    | refine pair_only (by assumption) ?_
    | assumption

theorem State.fwCmd_only {s0 : State} {ps : List Part} (s : State) (v : BitVec 64) (hs : s0.changesOnly s ps) (hq : [.sec] ⊆ ps) : s0.changesOnly (State.fwCmd s v).1 ps := by
  unfold State.fwCmd
  repeat' first
    | with_reducible assumption
    | with_reducible apply State.fwResult_only
    | with_reducible apply State.fwVerify_only
    | with_reducible apply State.fwCommit_only
    | with_reducible apply State.fwRaiseMin_only
    | with_reducible apply ite_only
    | with_reducible apply ite_fst_only
    | with_reducible intro _
    | split
    | dsimp only
    | ((with_reducible apply only_mk) <;> first
        | with_reducible exact fun _ => rfl
        | exact fun hn => absurd (hq (by decide)) hn
        | skip)
    | exact List.Subset.trans (by decide) hq
    | refine pair_only (by assumption) ?_
    | assumption

theorem State.fwWr_only {s0 : State} {ps : List Part} (s : State) (tag : BitVec 16) (v : BitVec 64) (hs : s0.changesOnly s ps) (hq : [.sec, .log, .adk, .evq] ⊆ ps) : s0.changesOnly (State.fwWr s tag v) ps := by
  unfold State.fwWr
  repeat' first
    | with_reducible assumption
    | with_reducible apply State.adkWr_only
    | with_reducible apply State.fwCmd_only
    | with_reducible apply ite_only
    | with_reducible apply ite_fst_only
    | with_reducible intro _
    | split
    | dsimp only
    | ((with_reducible apply only_mk) <;> first
        | with_reducible exact fun _ => rfl
        | exact fun hn => absurd (hq (by decide)) hn
        | skip)
    | exact List.Subset.trans (by decide) hq
    | refine pair_only (by assumption) ?_
    | assumption

theorem execFwVerify_only {s0 : State} {ps : List Part} (tag : BitVec 16) (s : State) (hs : s0.changesOnly s ps) (hq : [.sec, .log, .adk, .evq] ⊆ ps) : onlyNext s0 (execFwVerify tag s) ps := by
  unfold execFwVerify
  repeat' first
    | with_reducible assumption
    | with_reducible apply State.fwWr_only
    | with_reducible apply ite_only
    | with_reducible apply ite_fst_only
    | with_reducible apply next_only
    | with_reducible intro _
    | split
    | dsimp only
    | ((with_reducible apply only_mk) <;> first
        | with_reducible exact fun _ => rfl
        | exact fun hn => absurd (hq (by decide)) hn
        | skip)
    | exact List.Subset.trans (by decide) hq
    | refine pair_only (by assumption) ?_
    | assumption

theorem execFwCommit_only {s0 : State} {ps : List Part} (tag : BitVec 16) (s : State) (hs : s0.changesOnly s ps) (hq : [.sec, .log, .adk, .evq] ⊆ ps) : onlyNext s0 (execFwCommit tag s) ps := by
  unfold execFwCommit
  repeat' first
    | with_reducible assumption
    | with_reducible apply State.fwWr_only
    | with_reducible apply ite_only
    | with_reducible apply ite_fst_only
    | with_reducible apply next_only
    | with_reducible intro _
    | split
    | dsimp only
    | ((with_reducible apply only_mk) <;> first
        | with_reducible exact fun _ => rfl
        | exact fun hn => absurd (hq (by decide)) hn
        | skip)
    | exact List.Subset.trans (by decide) hq
    | refine pair_only (by assumption) ?_
    | assumption

theorem execFwRaiseMin_only {s0 : State} {ps : List Part} (tag : BitVec 16) (s : State) (hs : s0.changesOnly s ps) (hq : [.sec, .log, .adk, .evq] ⊆ ps) : onlyNext s0 (execFwRaiseMin tag s) ps := by
  unfold execFwRaiseMin
  repeat' first
    | with_reducible assumption
    | with_reducible apply State.fwWr_only
    | with_reducible apply ite_only
    | with_reducible apply ite_fst_only
    | with_reducible apply next_only
    | with_reducible intro _
    | split
    | dsimp only
    | ((with_reducible apply only_mk) <;> first
        | with_reducible exact fun _ => rfl
        | exact fun hn => absurd (hq (by decide)) hn
        | skip)
    | exact List.Subset.trans (by decide) hq
    | refine pair_only (by assumption) ?_
    | assumption

theorem execFwVerifyDone_only {s0 : State} {ps : List Part} (s : State) (hs : s0.changesOnly s ps) (hq : [.sec] ⊆ ps) : onlyNext s0 (execFwVerifyDone s) ps := by
  unfold execFwVerifyDone
  repeat' first
    | with_reducible assumption
    | with_reducible apply ite_only
    | with_reducible apply ite_fst_only
    | with_reducible apply next_only
    | with_reducible intro _
    | split
    | dsimp only
    | ((with_reducible apply only_mk) <;> first
        | with_reducible exact fun _ => rfl
        | exact fun hn => absurd (hq (by decide)) hn
        | skip)
    | exact List.Subset.trans (by decide) hq
    | refine pair_only (by assumption) ?_
    | assumption

theorem execFwCommitDone_only {s0 : State} {ps : List Part} (ok : Bool) (s : State) (hs : s0.changesOnly s ps) (hq : [.free, .sec] ⊆ ps) : onlyNext s0 (execFwCommitDone ok s) ps := by
  unfold execFwCommitDone
  repeat' first
    | with_reducible assumption
    | with_reducible apply State.draw_only
    | with_reducible apply ite_only
    | with_reducible apply ite_fst_only
    | with_reducible apply next_only
    | with_reducible intro _
    | split
    | dsimp only
    | ((with_reducible apply only_mk) <;> first
        | with_reducible exact fun _ => rfl
        | exact fun hn => absurd (hq (by decide)) hn
        | skip)
    | exact List.Subset.trans (by decide) hq
    | refine pair_only (by assumption) ?_
    | assumption

theorem State.attPlace_only {s0 : State} {ps : List Part} (s : State) (bs : List Byte) (hs : s0.changesOnly s ps) (hq : [.sec] ⊆ ps) : s0.changesOnly (State.attPlace s bs).1 ps := by
  unfold State.attPlace
  repeat' first
    | with_reducible assumption
    | with_reducible apply ite_only
    | with_reducible apply ite_fst_only
    | with_reducible intro _
    | split
    | dsimp only
    | ((with_reducible apply only_mk) <;> first
        | with_reducible exact fun _ => rfl
        | exact fun hn => absurd (hq (by decide)) hn
        | skip)
    | exact List.Subset.trans (by decide) hq
    | refine pair_only (by assumption) ?_
    | assumption

theorem State.attCmd_only {s0 : State} {ps : List Part} (s : State) (v : BitVec 64) (hs : s0.changesOnly s ps) (hq : [.sec] ⊆ ps) : s0.changesOnly (State.attCmd s v).1 ps := by
  unfold State.attCmd
  repeat' first
    | with_reducible assumption
    | with_reducible apply State.attPlace_only
    | with_reducible apply ite_only
    | with_reducible apply ite_fst_only
    | with_reducible intro _
    | split
    | dsimp only
    | ((with_reducible apply only_mk) <;> first
        | with_reducible exact fun _ => rfl
        | exact fun hn => absurd (hq (by decide)) hn
        | skip)
    | exact List.Subset.trans (by decide) hq
    | refine pair_only (by assumption) ?_
    | assumption

theorem execAttReport_only {s0 : State} {ps : List Part} (tag : BitVec 16) (s : State) (hs : s0.changesOnly s ps) (hq : [.sec, .log, .adk, .evq] ⊆ ps) : onlyNext s0 (execAttReport tag s) ps := by
  unfold execAttReport
  repeat' first
    | with_reducible assumption
    | with_reducible apply State.adkWr_only
    | with_reducible apply State.attCmd_only
    | with_reducible apply ite_only
    | with_reducible apply ite_fst_only
    | with_reducible apply next_only
    | with_reducible intro _
    | split
    | dsimp only
    | ((with_reducible apply only_mk) <;> first
        | with_reducible exact fun _ => rfl
        | exact fun hn => absurd (hq (by decide)) hn
        | skip)
    | exact List.Subset.trans (by decide) hq
    | refine pair_only (by assumption) ?_
    | assumption

theorem execAttIdkey_only {s0 : State} {ps : List Part} (tag : BitVec 16) (s : State) (hs : s0.changesOnly s ps) (hq : [.sec, .log, .adk, .evq] ⊆ ps) : onlyNext s0 (execAttIdkey tag s) ps := by
  unfold execAttIdkey
  repeat' first
    | with_reducible assumption
    | with_reducible apply State.adkWr_only
    | with_reducible apply State.attCmd_only
    | with_reducible apply ite_only
    | with_reducible apply ite_fst_only
    | with_reducible apply next_only
    | with_reducible intro _
    | split
    | dsimp only
    | ((with_reducible apply only_mk) <;> first
        | with_reducible exact fun _ => rfl
        | exact fun hn => absurd (hq (by decide)) hn
        | skip)
    | exact List.Subset.trans (by decide) hq
    | refine pair_only (by assumption) ?_
    | assumption

end Sys2Proof.Machine
end

