-- ==== Sys2Proof/Laws/OnlyUpkeep.lean ====
section
/-! SUPPORT. What every operation of Upkeep leaves alone. -/

set_option linter.unusedTactic false
set_option linter.unreachableTactic false
set_option linter.unusedVariables false

namespace Sys2Proof.Machine

theorem execScrubWindow_only {s0 : State} {ps : List Part} (hits : List EccHit) (s : State) (hs : s0.changesOnly s ps) (hq : [.free, .pkg, .tim, .ports, .req, .coh, .ext, .lse, .tier, .xl, .cmp, .cpu, .clv, .atn, .comp, .sec, .log, .mod, .adk, .evq, .glb] ⊆ ps) : onlyNext s0 (execScrubWindow hits s) ps := by
  unfold execScrubWindow
  repeat' first
    | with_reducible assumption
    | with_reducible apply State.paid_only
    | with_reducible apply State.applyHits_only
    | with_reducible apply ite_only
    | with_reducible apply ite_fst_only
    | with_reducible apply next_only
    | with_reducible intro _
    | split
    | dsimp only
    | ((with_reducible apply only_mk) <;> first
        | with_reducible exact fun _ => rfl
        | exact fun hn => absurd (hq (by decide)) hn
        | skip)
    | exact List.Subset.trans (by decide) hq
    | refine pair_only (by assumption) ?_
    | assumption

theorem State.testNext_only {s0 : State} {ps : List Part} (s : State) (cl : Nat) (l : List Nat) (hs : s0.changesOnly s ps)
    (hq : [.cpu, .log] ⊆ ps) : s0.changesOnly (State.testNext s cl l) ps := by
  have h2 : ∀ (s : State) (x : Log), s0.changesOnly s ps → s0.changesOnly { s with log := x } ps := by
    intro s x h p hp
    have := h p hp
    cases p <;> first
      | exact this
      | exact absurd (hq (by decide)) hp
  induction l generalizing s with
  | nil => exact h2 _ _ hs
  | cons r l ih =>
    unfold State.testNext
    exact ite_only (fun _ => ih _ (h2 _ _ hs)) (fun _ => h2 _ _ (State.onEngine_only _ _ _ _ hs (List.Subset.trans (by decide) hq)))

theorem State.testSlot_only {s0 : State} {ps : List Part} (s : State) (cl : Nat) (n : Nat) (hs : s0.changesOnly s ps) (hq : [.cpu, .log] ⊆ ps) : s0.changesOnly (State.testSlot s cl n) ps := by
  unfold State.testSlot
  repeat' first
    | with_reducible assumption
    | with_reducible apply State.testNext_only
    | with_reducible apply ite_only
    | with_reducible apply ite_fst_only
    | with_reducible intro _
    | split
    | dsimp only
    | ((with_reducible apply only_mk) <;> first
        | with_reducible exact fun _ => rfl
        | exact fun hn => absurd (hq (by decide)) hn
        | skip)
    | exact List.Subset.trans (by decide) hq
    | refine pair_only (by assumption) ?_
    | assumption

theorem State.testEnd_only {s0 : State} {ps : List Part} (s : State) (cl : Nat) (r : Nat) (mismatch : Bool) (hs : s0.changesOnly s ps) (hq : [.cpu, .log, .adk, .evq] ⊆ ps) : s0.changesOnly (State.testEnd s cl r mismatch) ps := by
  unfold State.testEnd
  repeat' first
    | with_reducible assumption
    | with_reducible apply State.onEngine_only
    | with_reducible apply State.suspectEngine_only
    | with_reducible apply ite_only
    | with_reducible apply ite_fst_only
    | with_reducible intro _
    | split
    | dsimp only
    | ((with_reducible apply only_mk) <;> first
        | with_reducible exact fun _ => rfl
        | exact fun hn => absurd (hq (by decide)) hn
        | skip)
    | exact List.Subset.trans (by decide) hq
    | refine pair_only (by assumption) ?_
    | assumption

theorem execSelfTestSlot_only {s0 : State} {ps : List Part} (s : State) (hs : s0.changesOnly s ps) (hq : [.tim, .cpu, .log] ⊆ ps) : onlyNext s0 (execSelfTestSlot s) ps := by
  unfold execSelfTestSlot
  repeat' first
    | with_reducible assumption
    | with_reducible apply State.paid_only
    | with_reducible apply State.testSlot_only
    | with_reducible apply foldl_only
    | with_reducible apply foldl_fst_only
    | with_reducible apply ite_only
    | with_reducible apply ite_fst_only
    | with_reducible apply next_only
    | with_reducible intro _
    | split
    | dsimp only
    | ((with_reducible apply only_mk) <;> first
        | with_reducible exact fun _ => rfl
        | exact fun hn => absurd (hq (by decide)) hn
        | skip)
    | exact List.Subset.trans (by decide) hq
    | refine pair_only (by assumption) ?_
    | assumption

theorem execSelfTestComplete_only {s0 : State} {ps : List Part} (cluster : BitVec 7) (mismatch : Bool) (s : State) (hs : s0.changesOnly s ps) (hq : [.cpu, .log, .adk, .evq] ⊆ ps) : onlyNext s0 (execSelfTestComplete cluster mismatch s) ps := by
  unfold execSelfTestComplete
  repeat' first
    | with_reducible assumption
    | with_reducible apply State.testEnd_only
    | with_reducible apply State.testNext_only
    | with_reducible apply ite_only
    | with_reducible apply ite_fst_only
    | with_reducible apply next_only
    | with_reducible intro _
    | split
    | dsimp only
    | ((with_reducible apply only_mk) <;> first
        | with_reducible exact fun _ => rfl
        | exact fun hn => absurd (hq (by decide)) hn
        | skip)
    | exact List.Subset.trans (by decide) hq
    | refine pair_only (by assumption) ?_
    | assumption

theorem State.measure_only {s0 : State} {ps : List Part} (s : State) (m : Measure) (hs : s0.changesOnly s ps) (hq : [.log, .adk, .evq] ⊆ ps) : s0.changesOnly (State.measure s m) ps := by
  unfold State.measure
  repeat' first
    | with_reducible assumption
    | with_reducible apply State.logE_only
    | with_reducible apply ite_only
    | with_reducible apply ite_fst_only
    | with_reducible intro _
    | split
    | dsimp only
    | ((with_reducible apply only_mk) <;> first
        | with_reducible exact fun _ => rfl
        | exact fun hn => absurd (hq (by decide)) hn
        | skip)
    | exact List.Subset.trans (by decide) hq
    | refine pair_only (by assumption) ?_
    | assumption

theorem execMarginScan_only {s0 : State} {ps : List Part} (items : List Measure) (held : BitVec 32) (s : State) (hs : s0.changesOnly s ps) (hq : [.tim, .log, .mod, .adk, .evq] ⊆ ps) : onlyNext s0 (execMarginScan items held s) ps := by
  unfold execMarginScan
  repeat' first
    | with_reducible assumption
    | with_reducible apply State.paid_only
    | with_reducible apply State.measure_only
    | with_reducible apply foldl_only
    | with_reducible apply foldl_fst_only
    | with_reducible apply ite_only
    | with_reducible apply ite_fst_only
    | with_reducible apply next_only
    | with_reducible intro _
    | split
    | dsimp only
    | ((with_reducible apply only_mk) <;> first
        | with_reducible exact fun _ => rfl
        | exact fun hn => absurd (hq (by decide)) hn
        | skip)
    | exact List.Subset.trans (by decide) hq
    | refine pair_only (by assumption) ?_
    | assumption

theorem State.levelTo_only {s0 : State} {ps : List Part} (s : State) (x : Nat) (n : Nat) (f : Die → Die) (hs : s0.changesOnly s ps) (hq : [.log, .adk, .evq] ⊆ ps) : s0.changesOnly (State.levelTo s x n f) ps := by
  unfold State.levelTo
  repeat' first
    | with_reducible assumption
    | with_reducible apply State.logE_only
    | with_reducible apply State.onDie_only
    | with_reducible apply ite_only
    | with_reducible apply ite_fst_only
    | with_reducible intro _
    | split
    | dsimp only
    | ((with_reducible apply only_mk) <;> first
        | with_reducible exact fun _ => rfl
        | exact fun hn => absurd (hq (by decide)) hn
        | skip)
    | exact List.Subset.trans (by decide) hq
    | refine pair_only (by assumption) ?_
    | assumption

theorem State.warnDie_only {s0 : State} {ps : List Part} (s : State) (x : Nat) (t : Int) (hs : s0.changesOnly s ps) (hq : [.log, .adk, .evq] ⊆ ps) : s0.changesOnly (State.warnDie s x t) ps := by
  unfold State.warnDie
  repeat' first
    | with_reducible assumption
    | with_reducible apply State.event_only
    | with_reducible apply State.onDie_only
    | with_reducible apply ite_only
    | with_reducible apply ite_fst_only
    | with_reducible intro _
    | split
    | dsimp only
    | ((with_reducible apply only_mk) <;> first
        | with_reducible exact fun _ => rfl
        | exact fun hn => absurd (hq (by decide)) hn
        | skip)
    | exact List.Subset.trans (by decide) hq
    | refine pair_only (by assumption) ?_
    | assumption

theorem execThermalSample_only {s0 : State} {ps : List Part} (site : BitVec 6) (temp : BitVec 8) (vdd : BitVec 16) (s : State) (hs : s0.changesOnly s ps) (hq : [.pkg, .ports, .req, .coh, .ext, .lse, .tier, .xl, .cpu, .clv, .atn, .comp, .sec, .log, .mod, .adk, .evq, .glb] ⊆ ps) : onlyNext s0 (execThermalSample site temp vdd s) ps := by
  unfold execThermalSample
  repeat' first
    | with_reducible assumption
    | with_reducible apply State.onDie_only
    | with_reducible apply State.enterHalt_only
    | with_reducible apply State.levelTo_only
    | with_reducible apply State.warnDie_only
    | with_reducible apply ite_only
    | with_reducible apply ite_fst_only
    | with_reducible apply next_only
    | with_reducible intro _
    | split
    | dsimp only
    | ((with_reducible apply only_mk) <;> first
        | with_reducible exact fun _ => rfl
        | exact fun hn => absurd (hq (by decide)) hn
        | skip)
    | exact List.Subset.trans (by decide) hq
    | refine pair_only (by assumption) ?_
    | assumption

theorem execThermalEscalate_only {s0 : State} {ps : List Part} (site : BitVec 6) (s : State) (hs : s0.changesOnly s ps) (hq : [.log, .adk, .evq] ⊆ ps) : onlyNext s0 (execThermalEscalate site s) ps := by
  unfold execThermalEscalate
  repeat' first
    | with_reducible assumption
    | with_reducible apply State.levelTo_only
    | with_reducible apply ite_only
    | with_reducible apply ite_fst_only
    | with_reducible apply next_only
    | with_reducible intro _
    | split
    | dsimp only
    | ((with_reducible apply only_mk) <;> first
        | with_reducible exact fun _ => rfl
        | exact fun hn => absurd (hq (by decide)) hn
        | skip)
    | exact List.Subset.trans (by decide) hq
    | refine pair_only (by assumption) ?_
    | assumption

theorem execThermalLevelDecay_only {s0 : State} {ps : List Part} (site : BitVec 6) (s : State) (hs : s0.changesOnly s ps) (hq : [.log, .adk, .evq] ⊆ ps) : onlyNext s0 (execThermalLevelDecay site s) ps := by
  unfold execThermalLevelDecay
  repeat' first
    | with_reducible assumption
    | with_reducible apply State.levelTo_only
    | with_reducible apply ite_only
    | with_reducible apply ite_fst_only
    | with_reducible apply next_only
    | with_reducible intro _
    | split
    | dsimp only
    | ((with_reducible apply only_mk) <;> first
        | with_reducible exact fun _ => rfl
        | exact fun hn => absurd (hq (by decide)) hn
        | skip)
    | exact List.Subset.trans (by decide) hq
    | refine pair_only (by assumption) ?_
    | assumption

theorem State.disagrees_only {s0 : State} {ps : List Part} (s : State) (x : BitVec 4 × BitVec 24) (hs : s0.changesOnly s ps) (hq : [.free, .log, .adk, .evq] ⊆ ps) : s0.changesOnly (State.disagrees s x) ps := by
  unfold State.disagrees
  repeat' first
    | with_reducible assumption
    | with_reducible apply State.logE_only
    | with_reducible apply State.draw_only
    | with_reducible apply ite_only
    | with_reducible apply ite_fst_only
    | with_reducible intro _
    | split
    | dsimp only
    | ((with_reducible apply only_mk) <;> first
        | with_reducible exact fun _ => rfl
        | exact fun hn => absurd (hq (by decide)) hn
        | skip)
    | exact List.Subset.trans (by decide) hq
    | refine pair_only (by assumption) ?_
    | assumption

theorem execAuditSample_only {s0 : State} {ps : List Part} (disagree : List (BitVec 4 × BitVec 24)) (s : State) (hs : s0.changesOnly s ps) (hq : [.free, .log, .adk, .evq] ⊆ ps) : onlyNext s0 (execAuditSample disagree s) ps := by
  unfold execAuditSample
  repeat' first
    | with_reducible assumption
    | with_reducible apply State.disagrees_only
    | with_reducible apply foldl_only
    | with_reducible apply foldl_fst_only
    | with_reducible apply ite_only
    | with_reducible apply ite_fst_only
    | with_reducible apply next_only
    | with_reducible intro _
    | split
    | dsimp only
    | ((with_reducible apply only_mk) <;> first
        | with_reducible exact fun _ => rfl
        | exact fun hn => absurd (hq (by decide)) hn
        | skip)
    | exact List.Subset.trans (by decide) hq
    | refine pair_only (by assumption) ?_
    | assumption

theorem State.logFence_only {s0 : State} {ps : List Part} (s : State) (v : BitVec 64) (hs : s0.changesOnly s ps) (hq : [.log, .adk, .evq] ⊆ ps) : s0.changesOnly (State.logFence s v).1 ps := by
  unfold State.logFence
  repeat' first
    | with_reducible assumption
    | with_reducible apply State.unfence_only
    | with_reducible apply ite_only
    | with_reducible apply ite_fst_only
    | with_reducible intro _
    | split
    | dsimp only
    | ((with_reducible apply only_mk) <;> first
        | with_reducible exact fun _ => rfl
        | exact fun hn => absurd (hq (by decide)) hn
        | skip)
    | exact List.Subset.trans (by decide) hq
    | refine pair_only (by assumption) ?_
    | assumption

theorem execLogUnfence_only {s0 : State} {ps : List Part} (tag : BitVec 16) (s : State) (hs : s0.changesOnly s ps) (hq : [.sec, .log, .adk, .evq] ⊆ ps) : onlyNext s0 (execLogUnfence tag s) ps := by
  unfold execLogUnfence
  repeat' first
    | with_reducible assumption
    | with_reducible apply State.adkWr_only
    | with_reducible apply State.logFence_only
    | with_reducible apply ite_only
    | with_reducible apply ite_fst_only
    | with_reducible apply next_only
    | with_reducible intro _
    | split
    | dsimp only
    | ((with_reducible apply only_mk) <;> first
        | with_reducible exact fun _ => rfl
        | exact fun hn => absurd (hq (by decide)) hn
        | skip)
    | exact List.Subset.trans (by decide) hq
    | refine pair_only (by assumption) ?_
    | assumption

theorem State.logCmd_only {s0 : State} {ps : List Part} (s : State) (v : BitVec 64) (hs : s0.changesOnly s ps) (hq : [.log] ⊆ ps) : s0.changesOnly (State.logCmd s v).1 ps := by
  unfold State.logCmd
  repeat' first
    | with_reducible assumption
    | with_reducible apply ite_only
    | with_reducible apply ite_fst_only
    | with_reducible intro _
    | split
    | dsimp only
    | ((with_reducible apply only_mk) <;> first
        | with_reducible exact fun _ => rfl
        | exact fun hn => absurd (hq (by decide)) hn
        | skip)
    | exact List.Subset.trans (by decide) hq
    | refine pair_only (by assumption) ?_
    | assumption

theorem execLogClear_only {s0 : State} {ps : List Part} (tag : BitVec 16) (s : State) (hs : s0.changesOnly s ps) (hq : [.sec, .log, .adk, .evq] ⊆ ps) : onlyNext s0 (execLogClear tag s) ps := by
  unfold execLogClear
  repeat' first
    | with_reducible assumption
    | with_reducible apply State.adkWr_only
    | with_reducible apply State.logCmd_only
    | with_reducible apply ite_only
    | with_reducible apply ite_fst_only
    | with_reducible apply next_only
    | with_reducible intro _
    | split
    | dsimp only
    | ((with_reducible apply only_mk) <;> first
        | with_reducible exact fun _ => rfl
        | exact fun hn => absurd (hq (by decide)) hn
        | skip)
    | exact List.Subset.trans (by decide) hq
    | refine pair_only (by assumption) ?_
    | assumption

end Sys2Proof.Machine
end

