-- ==== Sys2Proof/Laws/OnlyTrafficRegs.lean ====
section
/-! SUPPORT. What every operation of TrafficRegs leaves alone. -/

set_option linter.unusedTactic false
set_option linter.unreachableTactic false
set_option linter.unusedVariables false

namespace Sys2Proof.Machine

theorem State.gateCtrl_only {s0 : State} {ps : List Part} (s : State) (p : Nat) (v : BitVec 64) (hs : s0.changesOnly s ps) (hq : [.ports] ⊆ ps) : s0.changesOnly (State.gateCtrl s p v).1 ps := by
  unfold State.gateCtrl
  repeat' first
    | with_reducible assumption
    | with_reducible apply State.onTc_only
    | with_reducible apply ite_only
    | with_reducible apply ite_fst_only
    | with_reducible intro _
    | split
    | dsimp only
    | ((with_reducible apply only_mk) <;> first
        | with_reducible exact fun _ => rfl
        | exact fun hn => absurd (hq (by decide)) hn
        | skip)
    | exact List.Subset.trans (by decide) hq
    | refine pair_only (by assumption) ?_
    | assumption

theorem State.gateBase_only {s0 : State} {ps : List Part} (s : State) (p : Nat) (v : BitVec 64) (hs : s0.changesOnly s ps) (hq : [.ports] ⊆ ps) : s0.changesOnly (State.gateBase s p v).1 ps := by
  unfold State.gateBase
  repeat' first
    | with_reducible assumption
    | with_reducible apply State.onTc_only
    | with_reducible apply ite_only
    | with_reducible apply ite_fst_only
    | with_reducible intro _
    | split
    | dsimp only
    | ((with_reducible apply only_mk) <;> first
        | with_reducible exact fun _ => rfl
        | exact fun hn => absurd (hq (by decide)) hn
        | skip)
    | exact List.Subset.trans (by decide) hq
    | refine pair_only (by assumption) ?_
    | assumption

theorem State.gateChange_only {s0 : State} {ps : List Part} (s : State) (p : Nat) (v : BitVec 64) (hs : s0.changesOnly s ps) (hq : [.ports] ⊆ ps) : s0.changesOnly (State.gateChange s p v).1 ps := by
  unfold State.gateChange
  repeat' first
    | with_reducible assumption
    | with_reducible apply State.onTc_only
    | with_reducible apply ite_only
    | with_reducible apply ite_fst_only
    | with_reducible intro _
    | split
    | dsimp only
    | ((with_reducible apply only_mk) <;> first
        | with_reducible exact fun _ => rfl
        | exact fun hn => absurd (hq (by decide)) hn
        | skip)
    | exact List.Subset.trans (by decide) hq
    | refine pair_only (by assumption) ?_
    | assumption

theorem State.gateEntry_only {s0 : State} {ps : List Part} (s : State) (p : Nat) (v : BitVec 64) (hs : s0.changesOnly s ps) (hq : [.ports] ⊆ ps) : s0.changesOnly (State.gateEntry s p v).1 ps := by
  unfold State.gateEntry
  repeat' first
    | with_reducible assumption
    | with_reducible apply State.onTc_only
    | with_reducible apply ite_only
    | with_reducible apply ite_fst_only
    | with_reducible intro _
    | split
    | dsimp only
    | ((with_reducible apply only_mk) <;> first
        | with_reducible exact fun _ => rfl
        | exact fun hn => absurd (hq (by decide)) hn
        | skip)
    | exact List.Subset.trans (by decide) hq
    | refine pair_only (by assumption) ?_
    | assumption

theorem execGateCommit_only {s0 : State} {ps : List Part} (tag : BitVec 16) (port : BitVec 8) (value : BitVec 64) (s : State) (hs : s0.changesOnly s ps) (hq : [.ports, .sec, .log, .adk, .evq] ⊆ ps) : onlyNext s0 (execGateCommit tag port value s) ps := by
  unfold execGateCommit
  repeat' first
    | with_reducible assumption
    | with_reducible apply State.adkWr_only
    | with_reducible apply State.gateCtrl_only
    | with_reducible apply ite_only
    | with_reducible apply ite_fst_only
    | with_reducible apply next_only
    | with_reducible intro _
    | split
    | dsimp only
    | ((with_reducible apply only_mk) <;> first
        | with_reducible exact fun _ => rfl
        | exact fun hn => absurd (hq (by decide)) hn
        | skip)
    | exact List.Subset.trans (by decide) hq
    | refine pair_only (by assumption) ?_
    | assumption

theorem execGateCycleStart_only {s0 : State} {ps : List Part} (port : BitVec 8) (s : State) (hs : s0.changesOnly s ps) (hq : [.ports, .adk, .evq] ⊆ ps) : onlyNext s0 (execGateCycleStart port s) ps := by
  unfold execGateCycleStart
  repeat' first
    | with_reducible assumption
    | with_reducible apply State.onTc_only
    | with_reducible apply State.sequence_only
    | with_reducible apply ite_only
    | with_reducible apply ite_fst_only
    | with_reducible apply next_only
    | with_reducible intro _
    | split
    | dsimp only
    | ((with_reducible apply only_mk) <;> first
        | with_reducible exact fun _ => rfl
        | exact fun hn => absurd (hq (by decide)) hn
        | skip)
    | exact List.Subset.trans (by decide) hq
    | refine pair_only (by assumption) ?_
    | assumption

theorem execGateEntryAdvance_only {s0 : State} {ps : List Part} (port : BitVec 8) (s : State) (hs : s0.changesOnly s ps) (hq : [.ports, .adk, .evq] ⊆ ps) : onlyNext s0 (execGateEntryAdvance port s) ps := by
  unfold execGateEntryAdvance
  repeat' first
    | with_reducible assumption
    | with_reducible apply State.sequence_only
    | with_reducible apply ite_only
    | with_reducible apply ite_fst_only
    | with_reducible apply next_only
    | with_reducible intro _
    | split
    | dsimp only
    | ((with_reducible apply only_mk) <;> first
        | with_reducible exact fun _ => rfl
        | exact fun hn => absurd (hq (by decide)) hn
        | skip)
    | exact List.Subset.trans (by decide) hq
    | refine pair_only (by assumption) ?_
    | assumption

theorem State.prtShape_only {s0 : State} {ps : List Part} (s : State) (p : Nat) (v : BitVec 64) (hs : s0.changesOnly s ps) (hq : [.ports] ⊆ ps) : s0.changesOnly (State.prtShape s p v).1 ps := by
  unfold State.prtShape
  repeat' first
    | with_reducible assumption
    | with_reducible apply State.onTc_only
    | with_reducible apply ite_only
    | with_reducible apply ite_fst_only
    | with_reducible intro _
    | split
    | dsimp only
    | ((with_reducible apply only_mk) <;> first
        | with_reducible exact fun _ => rfl
        | exact fun hn => absurd (hq (by decide)) hn
        | skip)
    | exact List.Subset.trans (by decide) hq
    | refine pair_only (by assumption) ?_
    | assumption

theorem execPrtPshapeWrite_only {s0 : State} {ps : List Part} (tag : BitVec 16) (port : BitVec 8) (value : BitVec 64) (s : State) (hs : s0.changesOnly s ps) (hq : [.ports, .sec, .log, .adk, .evq] ⊆ ps) : onlyNext s0 (execPrtPshapeWrite tag port value s) ps := by
  unfold execPrtPshapeWrite
  repeat' first
    | with_reducible assumption
    | with_reducible apply State.adkWr_only
    | with_reducible apply State.prtShape_only
    | with_reducible apply ite_only
    | with_reducible apply ite_fst_only
    | with_reducible apply next_only
    | with_reducible intro _
    | split
    | dsimp only
    | ((with_reducible apply only_mk) <;> first
        | with_reducible exact fun _ => rfl
        | exact fun hn => absurd (hq (by decide)) hn
        | skip)
    | exact List.Subset.trans (by decide) hq
    | refine pair_only (by assumption) ?_
    | assumption

theorem State.queShape_only {s0 : State} {ps : List Part} (s : State) (p : Nat) (q : Nat) (v : BitVec 64) (hs : s0.changesOnly s ps) (hq : [.ports] ⊆ ps) : s0.changesOnly (State.queShape s p q v).1 ps := by
  unfold State.queShape
  repeat' first
    | with_reducible assumption
    | with_reducible apply State.onQueue_only
    | with_reducible apply ite_only
    | with_reducible apply ite_fst_only
    | with_reducible intro _
    | split
    | dsimp only
    | ((with_reducible apply only_mk) <;> first
        | with_reducible exact fun _ => rfl
        | exact fun hn => absurd (hq (by decide)) hn
        | skip)
    | exact List.Subset.trans (by decide) hq
    | refine pair_only (by assumption) ?_
    | assumption

theorem execQueShapeWrite_only {s0 : State} {ps : List Part} (tag : BitVec 16) (port : BitVec 8) (queue : BitVec 4) (value : BitVec 64) (s : State) (hs : s0.changesOnly s ps) (hq : [.ports, .sec, .log, .adk, .evq] ⊆ ps) : onlyNext s0 (execQueShapeWrite tag port queue value s) ps := by
  unfold execQueShapeWrite
  repeat' first
    | with_reducible assumption
    | with_reducible apply State.adkWr_only
    | with_reducible apply State.queShape_only
    | with_reducible apply ite_only
    | with_reducible apply ite_fst_only
    | with_reducible apply next_only
    | with_reducible intro _
    | split
    | dsimp only
    | ((with_reducible apply only_mk) <;> first
        | with_reducible exact fun _ => rfl
        | exact fun hn => absurd (hq (by decide)) hn
        | skip)
    | exact List.Subset.trans (by decide) hq
    | refine pair_only (by assumption) ?_
    | assumption

theorem State.queCfg_only {s0 : State} {ps : List Part} (s : State) (p : Nat) (q : Nat) (v : BitVec 64) (hs : s0.changesOnly s ps) (hq : [.ports] ⊆ ps) : s0.changesOnly (State.queCfg s p q v).1 ps := by
  unfold State.queCfg
  repeat' first
    | with_reducible assumption
    | with_reducible apply State.onQueue_only
    | with_reducible apply ite_only
    | with_reducible apply ite_fst_only
    | with_reducible intro _
    | split
    | dsimp only
    | ((with_reducible apply only_mk) <;> first
        | with_reducible exact fun _ => rfl
        | exact fun hn => absurd (hq (by decide)) hn
        | skip)
    | exact List.Subset.trans (by decide) hq
    | refine pair_only (by assumption) ?_
    | assumption

theorem State.prtBridle_only {s0 : State} {ps : List Part} (s : State) (p : Nat) (v : BitVec 64) (hs : s0.changesOnly s ps) (hq : [.ports] ⊆ ps) : s0.changesOnly (State.prtBridle s p v).1 ps := by
  unfold State.prtBridle
  repeat' first
    | with_reducible assumption
    | with_reducible apply State.onTc_only
    | with_reducible apply ite_only
    | with_reducible apply ite_fst_only
    | with_reducible intro _
    | split
    | dsimp only
    | ((with_reducible apply only_mk) <;> first
        | with_reducible exact fun _ => rfl
        | exact fun hn => absurd (hq (by decide)) hn
        | skip)
    | exact List.Subset.trans (by decide) hq
    | refine pair_only (by assumption) ?_
    | assumption

theorem State.brdCfg_only {s0 : State} {ps : List Part} (s : State) (p : Nat) (v : BitVec 64) (hs : s0.changesOnly s ps) (hq : [.bridles] ⊆ ps) : s0.changesOnly (State.brdCfg s p v).1 ps := by
  unfold State.brdCfg
  repeat' first
    | with_reducible assumption
    | with_reducible apply State.onBridle_only
    | with_reducible apply ite_only
    | with_reducible apply ite_fst_only
    | with_reducible intro _
    | split
    | dsimp only
    | ((with_reducible apply only_mk) <;> first
        | with_reducible exact fun _ => rfl
        | exact fun hn => absurd (hq (by decide)) hn
        | skip)
    | exact List.Subset.trans (by decide) hq
    | refine pair_only (by assumption) ?_
    | assumption

theorem State.brdBurst_only {s0 : State} {ps : List Part} (s : State) (p : Nat) (v : BitVec 64) (hs : s0.changesOnly s ps) (hq : [.bridles] ⊆ ps) : s0.changesOnly (State.brdBurst s p v).1 ps := by
  unfold State.brdBurst
  repeat' first
    | with_reducible assumption
    | with_reducible apply State.onBridle_only
    | with_reducible apply ite_only
    | with_reducible apply ite_fst_only
    | with_reducible intro _
    | split
    | dsimp only
    | ((with_reducible apply only_mk) <;> first
        | with_reducible exact fun _ => rfl
        | exact fun hn => absurd (hq (by decide)) hn
        | skip)
    | exact List.Subset.trans (by decide) hq
    | refine pair_only (by assumption) ?_
    | assumption

theorem State.brdSelect_only {s0 : State} {ps : List Part} (s : State) (p : Nat) (v : BitVec 64) (hs : s0.changesOnly s ps) (hq : [.ports] ⊆ ps) : s0.changesOnly (State.brdSelect s p v).1 ps := by
  unfold State.brdSelect
  repeat' first
    | with_reducible assumption
    | with_reducible apply State.onTc_only
    | with_reducible apply ite_only
    | with_reducible apply ite_fst_only
    | with_reducible intro _
    | split
    | dsimp only
    | ((with_reducible apply only_mk) <;> first
        | with_reducible exact fun _ => rfl
        | exact fun hn => absurd (hq (by decide)) hn
        | skip)
    | exact List.Subset.trans (by decide) hq
    | refine pair_only (by assumption) ?_
    | assumption

theorem execPrtBrdWrite_only {s0 : State} {ps : List Part} (tag : BitVec 16) (port : BitVec 8) (burst : Bool) (value : BitVec 64) (s : State) (hs : s0.changesOnly s ps) (hq : [.bridles, .sec, .log, .adk, .evq] ⊆ ps) : onlyNext s0 (execPrtBrdWrite tag port burst value s) ps := by
  unfold execPrtBrdWrite
  repeat' first
    | with_reducible assumption
    | with_reducible apply State.adkWr_only
    | with_reducible apply State.brdCfg_only
    | with_reducible apply State.brdBurst_only
    | with_reducible apply ite_only
    | with_reducible apply ite_fst_only
    | with_reducible apply next_only
    | with_reducible intro _
    | split
    | dsimp only
    | ((with_reducible apply only_mk) <;> first
        | with_reducible exact fun _ => rfl
        | exact fun hn => absurd (hq (by decide)) hn
        | skip)
    | exact List.Subset.trans (by decide) hq
    | refine pair_only (by assumption) ?_
    | assumption

theorem execRateLoopIncrease_only {s0 : State} {ps : List Part} (port : BitVec 8) (s : State) (hs : s0.changesOnly s ps) (hq : [.ports, .log, .adk, .evq] ⊆ ps) : onlyNext s0 (execRateLoopIncrease port s) ps := by
  unfold execRateLoopIncrease
  repeat' first
    | with_reducible assumption
    | with_reducible apply State.onTc_only
    | with_reducible apply State.rateHeld_only
    | with_reducible apply ite_only
    | with_reducible apply ite_fst_only
    | with_reducible apply next_only
    | with_reducible intro _
    | split
    | dsimp only
    | ((with_reducible apply only_mk) <;> first
        | with_reducible exact fun _ => rfl
        | exact fun hn => absurd (hq (by decide)) hn
        | skip)
    | exact List.Subset.trans (by decide) hq
    | refine pair_only (by assumption) ?_
    | assumption

theorem State.prtRloop_only {s0 : State} {ps : List Part} (s : State) (p : Nat) (v : BitVec 64) (hs : s0.changesOnly s ps) (hq : [.ports] ⊆ ps) : s0.changesOnly (State.prtRloop s p v).1 ps := by
  unfold State.prtRloop
  repeat' first
    | with_reducible assumption
    | with_reducible apply State.onTc_only
    | with_reducible apply ite_only
    | with_reducible apply ite_fst_only
    | with_reducible intro _
    | split
    | dsimp only
    | ((with_reducible apply only_mk) <;> first
        | with_reducible exact fun _ => rfl
        | exact fun hn => absurd (hq (by decide)) hn
        | skip)
    | exact List.Subset.trans (by decide) hq
    | refine pair_only (by assumption) ?_
    | assumption

theorem execBelvedereSample_only {s0 : State} {ps : List Part} (port : BitVec 8) (queue : BitVec 4) (s : State) (hs : s0.changesOnly s ps) (hq : [.ports] ⊆ ps) : onlyNext s0 (execBelvedereSample port queue s) ps := by
  unfold execBelvedereSample
  repeat' first
    | with_reducible assumption
    | with_reducible apply State.onQueue_only
    | with_reducible apply ite_only
    | with_reducible apply ite_fst_only
    | with_reducible apply next_only
    | with_reducible intro _
    | split
    | dsimp only
    | ((with_reducible apply only_mk) <;> first
        | with_reducible exact fun _ => rfl
        | exact fun hn => absurd (hq (by decide)) hn
        | skip)
    | exact List.Subset.trans (by decide) hq
    | refine pair_only (by assumption) ?_
    | assumption

theorem State.belCfg_only {s0 : State} {ps : List Part} (s : State) (p : Nat) (q : Nat) (v : BitVec 64) (hs : s0.changesOnly s ps) (hq : [.ports] ⊆ ps) : s0.changesOnly (State.belCfg s p q v).1 ps := by
  unfold State.belCfg
  repeat' first
    | with_reducible assumption
    | with_reducible apply State.onQueue_only
    | with_reducible apply ite_only
    | with_reducible apply ite_fst_only
    | with_reducible intro _
    | split
    | dsimp only
    | ((with_reducible apply only_mk) <;> first
        | with_reducible exact fun _ => rfl
        | exact fun hn => absurd (hq (by decide)) hn
        | skip)
    | exact List.Subset.trans (by decide) hq
    | refine pair_only (by assumption) ?_
    | assumption

theorem execBelvedereClear_only {s0 : State} {ps : List Part} (tag : BitVec 16) (port : BitVec 8) (queue : BitVec 4) (value : BitVec 64) (s : State) (hs : s0.changesOnly s ps) (hq : [.ports, .sec, .log, .adk, .evq] ⊆ ps) : onlyNext s0 (execBelvedereClear tag port queue value s) ps := by
  unfold execBelvedereClear
  repeat' first
    | with_reducible assumption
    | with_reducible apply State.adkWr_only
    | with_reducible apply State.belCfg_only
    | with_reducible apply ite_only
    | with_reducible apply ite_fst_only
    | with_reducible apply next_only
    | with_reducible intro _
    | split
    | dsimp only
    | ((with_reducible apply only_mk) <;> first
        | with_reducible exact fun _ => rfl
        | exact fun hn => absurd (hq (by decide)) hn
        | skip)
    | exact List.Subset.trans (by decide) hq
    | refine pair_only (by assumption) ?_
    | assumption

theorem execBelvedereSnap_only {s0 : State} {ps : List Part} (tag : BitVec 16) (port : BitVec 8) (queue : BitVec 4) (value : BitVec 64) (s : State) (hs : s0.changesOnly s ps) (hq : [.ports, .sec, .log, .adk, .evq] ⊆ ps) : onlyNext s0 (execBelvedereSnap tag port queue value s) ps := by
  unfold execBelvedereSnap
  repeat' first
    | with_reducible assumption
    | with_reducible apply State.adkWr_only
    | with_reducible apply State.belCfg_only
    | with_reducible apply ite_only
    | with_reducible apply ite_fst_only
    | with_reducible apply next_only
    | with_reducible intro _
    | split
    | dsimp only
    | ((with_reducible apply only_mk) <;> first
        | with_reducible exact fun _ => rfl
        | exact fun hn => absurd (hq (by decide)) hn
        | skip)
    | exact List.Subset.trans (by decide) hq
    | refine pair_only (by assumption) ?_
    | assumption

end Sys2Proof.Machine
end

