-- ==== Sys2Proof/Laws/OnlyComposition.lean ====
section
/-! SUPPORT. What every operation of Composition leaves alone. -/

set_option linter.unusedTactic false
set_option linter.unreachableTactic false
set_option linter.unusedVariables false

namespace Sys2Proof.Machine

theorem State.imgErr_only {s0 : State} {ps : List Part} (s : State) (err : Nat) (sec : Nat) (hs : s0.changesOnly s ps) (hq : [.comp] ⊆ ps) : s0.changesOnly (State.imgErr s err sec) ps := by
  unfold State.imgErr
  repeat' first
    | with_reducible assumption
    | with_reducible apply ite_only
    | with_reducible apply ite_fst_only
    | with_reducible intro _
    | split
    | dsimp only
    | ((with_reducible apply only_mk) <;> first
        | with_reducible exact fun _ => rfl
        | exact fun hn => absurd (hq (by decide)) hn
        | skip)
    | exact List.Subset.trans (by decide) hq
    | refine pair_only (by assumption) ?_
    | assumption

theorem State.imgRefuse_only {s0 : State} {ps : List Part} (s : State) (hs : s0.changesOnly s ps) (hq : [.comp] ⊆ ps) : s0.changesOnly (State.imgRefuse s).1 ps := by
  unfold State.imgRefuse
  repeat' first
    | with_reducible assumption
    | with_reducible apply State.imgErr_only
    | with_reducible apply ite_only
    | with_reducible apply ite_fst_only
    | with_reducible intro _
    | split
    | dsimp only
    | ((with_reducible apply only_mk) <;> first
        | with_reducible exact fun _ => rfl
        | exact fun hn => absurd (hq (by decide)) hn
        | skip)
    | exact List.Subset.trans (by decide) hq
    | refine pair_only (by assumption) ?_
    | assumption

theorem State.imgEmpty_only {s0 : State} {ps : List Part} (s : State) (hs : s0.changesOnly s ps) (hq : [.comp] ⊆ ps) : s0.changesOnly (State.imgEmpty s) ps := by
  unfold State.imgEmpty
  repeat' first
    | with_reducible assumption
    | with_reducible apply State.imgErr_only
    | with_reducible apply ite_only
    | with_reducible apply ite_fst_only
    | with_reducible intro _
    | split
    | dsimp only
    | ((with_reducible apply only_mk) <;> first
        | with_reducible exact fun _ => rfl
        | exact fun hn => absurd (hq (by decide)) hn
        | skip)
    | exact List.Subset.trans (by decide) hq
    | refine pair_only (by assumption) ?_
    | assumption

theorem State.abortAgentMoves_only {s0 : State} {ps : List Part} (s : State) (a : List Section) (b : List Section) (hs : s0.changesOnly s ps) (hq : [.pkg, .ports, .tier, .adk, .evq] ⊆ ps) : s0.changesOnly (State.abortAgentMoves s a b) ps := by
  unfold State.abortAgentMoves
  repeat' first
    | with_reducible assumption
    | with_reducible apply State.abortMove_only
    | with_reducible apply foldl_only
    | with_reducible apply foldl_fst_only
    | with_reducible apply ite_only
    | with_reducible apply ite_fst_only
    | with_reducible intro _
    | split
    | dsimp only
    | ((with_reducible apply only_mk) <;> first
        | with_reducible exact fun _ => rfl
        | exact fun hn => absurd (hq (by decide)) hn
        | skip)
    | exact List.Subset.trans (by decide) hq
    | refine pair_only (by assumption) ?_
    | assumption

theorem State.endAttention_only {s0 : State} {ps : List Part} (s : State) (c : List Section) (hs : s0.changesOnly s ps) (hq : [.pkg, .ports, .req, .xl, .cpu, .atn, .sec, .log, .adk, .evq] ⊆ ps) : s0.changesOnly (State.endAttention s c) ps := by
  unfold State.endAttention
  repeat' first
    | with_reducible assumption
    | with_reducible apply State.event_only
    | with_reducible apply State.endDecodes_only
    | with_reducible apply State.releaseHandles_only
    | with_reducible apply foldl_only
    | with_reducible apply foldl_fst_only
    | with_reducible apply ite_only
    | with_reducible apply ite_fst_only
    | with_reducible intro _
    | split
    | dsimp only
    | ((with_reducible apply only_mk) <;> first
        | with_reducible exact fun _ => rfl
        | exact fun hn => absurd (hq (by decide)) hn
        | skip)
    | exact List.Subset.trans (by decide) hq
    | refine pair_only (by assumption) ?_
    | assumption

theorem State.endWork_only {s0 : State} {ps : List Part} (s : State) (c : List Section) (hs : s0.changesOnly s ps) (hq : [.pkg, .ports, .req, .tier, .xl, .cpu, .clv, .atn, .sec, .log, .adk, .evq] ⊆ ps) : s0.changesOnly (State.endWork s c) ps := by
  unfold State.endWork
  repeat' first
    | with_reducible assumption
    | with_reducible apply State.collTriggers_only
    | with_reducible apply State.stopThreads_only
    | with_reducible apply State.abortAgentMoves_only
    | with_reducible apply State.endAttention_only
    | with_reducible apply ite_only
    | with_reducible apply ite_fst_only
    | with_reducible intro _
    | split
    | dsimp only
    | ((with_reducible apply only_mk) <;> first
        | with_reducible exact fun _ => rfl
        | exact fun hn => absurd (hq (by decide)) hn
        | skip)
    | exact List.Subset.trans (by decide) hq
    | refine pair_only (by assumption) ?_
    | assumption

theorem State.cmpoCmd_only {s0 : State} {ps : List Part} (s : State) (v : BitVec 64) (hs : s0.changesOnly s ps) (hq : [.pkg, .ports, .req, .tier, .xl, .cpu, .clv, .atn, .comp, .sec, .log, .adk, .evq] ⊆ ps) : s0.changesOnly (State.cmpoCmd s v).1 ps := by
  unfold State.cmpoCmd
  repeat' first
    | with_reducible assumption
    | with_reducible apply State.imgErr_only
    | with_reducible apply State.imgRefuse_only
    | with_reducible apply State.imgEmpty_only
    | with_reducible apply State.endWork_only
    | with_reducible apply ite_only
    | with_reducible apply ite_fst_only
    | with_reducible intro _
    | split
    | dsimp only
    | ((with_reducible apply only_mk) <;> first
        | with_reducible exact fun _ => rfl
        | exact fun hn => absurd (hq (by decide)) hn
        | skip)
    | exact List.Subset.trans (by decide) hq
    | refine pair_only (by assumption) ?_
    | assumption

theorem State.cmpoWr_only {s0 : State} {ps : List Part} (s : State) (tag : BitVec 16) (v : BitVec 64) (hs : s0.changesOnly s ps) (hq : [.pkg, .ports, .req, .tier, .xl, .cpu, .clv, .atn, .comp, .sec, .log, .adk, .evq] ⊆ ps) : s0.changesOnly (State.cmpoWr s tag v) ps := by
  unfold State.cmpoWr
  repeat' first
    | with_reducible assumption
    | with_reducible apply State.adkWr_only
    | with_reducible apply State.cmpoCmd_only
    | with_reducible apply ite_only
    | with_reducible apply ite_fst_only
    | with_reducible intro _
    | split
    | dsimp only
    | ((with_reducible apply only_mk) <;> first
        | with_reducible exact fun _ => rfl
        | exact fun hn => absurd (hq (by decide)) hn
        | skip)
    | exact List.Subset.trans (by decide) hq
    | refine pair_only (by assumption) ?_
    | assumption

theorem execCmpoValidate_only {s0 : State} {ps : List Part} (tag : BitVec 16) (s : State) (hs : s0.changesOnly s ps) (hq : [.pkg, .ports, .req, .tier, .xl, .cpu, .clv, .atn, .comp, .sec, .log, .adk, .evq] ⊆ ps) : onlyNext s0 (execCmpoValidate tag s) ps := by
  unfold execCmpoValidate
  repeat' first
    | with_reducible assumption
    | with_reducible apply State.cmpoWr_only
    | with_reducible apply ite_only
    | with_reducible apply ite_fst_only
    | with_reducible apply next_only
    | with_reducible intro _
    | split
    | dsimp only
    | ((with_reducible apply only_mk) <;> first
        | with_reducible exact fun _ => rfl
        | exact fun hn => absurd (hq (by decide)) hn
        | skip)
    | exact List.Subset.trans (by decide) hq
    | refine pair_only (by assumption) ?_
    | assumption

theorem execCmpoLoad_only {s0 : State} {ps : List Part} (tag : BitVec 16) (s : State) (hs : s0.changesOnly s ps) (hq : [.pkg, .ports, .req, .tier, .xl, .cpu, .clv, .atn, .comp, .sec, .log, .adk, .evq] ⊆ ps) : onlyNext s0 (execCmpoLoad tag s) ps := by
  unfold execCmpoLoad
  repeat' first
    | with_reducible assumption
    | with_reducible apply State.cmpoWr_only
    | with_reducible apply ite_only
    | with_reducible apply ite_fst_only
    | with_reducible apply next_only
    | with_reducible intro _
    | split
    | dsimp only
    | ((with_reducible apply only_mk) <;> first
        | with_reducible exact fun _ => rfl
        | exact fun hn => absurd (hq (by decide)) hn
        | skip)
    | exact List.Subset.trans (by decide) hq
    | refine pair_only (by assumption) ?_
    | assumption

theorem execCmpoApply_only {s0 : State} {ps : List Part} (tag : BitVec 16) (s : State) (hs : s0.changesOnly s ps) (hq : [.pkg, .ports, .req, .tier, .xl, .cpu, .clv, .atn, .comp, .sec, .log, .adk, .evq] ⊆ ps) : onlyNext s0 (execCmpoApply tag s) ps := by
  unfold execCmpoApply
  repeat' first
    | with_reducible assumption
    | with_reducible apply State.cmpoWr_only
    | with_reducible apply ite_only
    | with_reducible apply ite_fst_only
    | with_reducible apply next_only
    | with_reducible intro _
    | split
    | dsimp only
    | ((with_reducible apply only_mk) <;> first
        | with_reducible exact fun _ => rfl
        | exact fun hn => absurd (hq (by decide)) hn
        | skip)
    | exact List.Subset.trans (by decide) hq
    | refine pair_only (by assumption) ?_
    | assumption

theorem execCmpoDiscard_only {s0 : State} {ps : List Part} (tag : BitVec 16) (s : State) (hs : s0.changesOnly s ps) (hq : [.pkg, .ports, .req, .tier, .xl, .cpu, .clv, .atn, .comp, .sec, .log, .adk, .evq] ⊆ ps) : onlyNext s0 (execCmpoDiscard tag s) ps := by
  unfold execCmpoDiscard
  repeat' first
    | with_reducible assumption
    | with_reducible apply State.cmpoWr_only
    | with_reducible apply ite_only
    | with_reducible apply ite_fst_only
    | with_reducible apply next_only
    | with_reducible intro _
    | split
    | dsimp only
    | ((with_reducible apply only_mk) <;> first
        | with_reducible exact fun _ => rfl
        | exact fun hn => absurd (hq (by decide)) hn
        | skip)
    | exact List.Subset.trans (by decide) hq
    | refine pair_only (by assumption) ?_
    | assumption

theorem State.showTables_only {s0 : State} {ps : List Part} (s : State) (hs : s0.changesOnly s ps) (hq : [.ports, .cpu] ⊆ ps) : s0.changesOnly (State.showTables s) ps := by
  unfold State.showTables
  repeat' first
    | with_reducible assumption
    | with_reducible apply State.onLink_only
    | with_reducible apply State.onTc_only
    | with_reducible apply State.onCore_only
    | with_reducible apply foldl_only
    | with_reducible apply foldl_fst_only
    | with_reducible apply ite_only
    | with_reducible apply ite_fst_only
    | with_reducible intro _
    | split
    | dsimp only
    | ((with_reducible apply only_mk) <;> first
        | with_reducible exact fun _ => rfl
        | exact fun hn => absurd (hq (by decide)) hn
        | skip)
    | exact List.Subset.trans (by decide) hq
    | refine pair_only (by assumption) ?_
    | assumption

theorem State.installGate_only {s0 : State} {ps : List Part} (s : State) (x : Section) (hs : s0.changesOnly s ps) (hq : [.ports] ⊆ ps) : s0.changesOnly (State.installGate s x) ps := by
  unfold State.installGate
  repeat' first
    | with_reducible assumption
    | with_reducible apply State.onTc_only
    | with_reducible apply foldl_only
    | with_reducible apply foldl_fst_only
    | with_reducible apply ite_only
    | with_reducible apply ite_fst_only
    | with_reducible intro _
    | split
    | dsimp only
    | ((with_reducible apply only_mk) <;> first
        | with_reducible exact fun _ => rfl
        | exact fun hn => absurd (hq (by decide)) hn
        | skip)
    | exact List.Subset.trans (by decide) hq
    | refine pair_only (by assumption) ?_
    | assumption

theorem State.rebindMeters_only {s0 : State} {ps : List Part} (s : State) (old : List Section) (hs : s0.changesOnly s ps) (hq : [.ports] ⊆ ps) : s0.changesOnly (State.rebindMeters s old) ps := by
  unfold State.rebindMeters
  repeat' first
    | with_reducible assumption
    | with_reducible apply State.unbindMeters_only
    | with_reducible apply State.bindMeters_only
    | with_reducible apply foldl_only
    | with_reducible apply foldl_fst_only
    | with_reducible apply ite_only
    | with_reducible apply ite_fst_only
    | with_reducible intro _
    | split
    | dsimp only
    | ((with_reducible apply only_mk) <;> first
        | with_reducible exact fun _ => rfl
        | exact fun hn => absurd (hq (by decide)) hn
        | skip)
    | exact List.Subset.trans (by decide) hq
    | refine pair_only (by assumption) ?_
    | assumption

theorem State.takeIdentity_only {s0 : State} {ps : List Part} (s : State) (hs : s0.changesOnly s ps) (hq : [.ports, .glb] ⊆ ps) : s0.changesOnly (State.takeIdentity s) ps := by
  unfold State.takeIdentity
  repeat' first
    | with_reducible assumption
    | with_reducible apply State.onLink_only
    | with_reducible apply foldl_only
    | with_reducible apply foldl_fst_only
    | with_reducible apply ite_only
    | with_reducible apply ite_fst_only
    | with_reducible intro _
    | split
    | dsimp only
    | ((with_reducible apply only_mk) <;> first
        | with_reducible exact fun _ => rfl
        | exact fun hn => absurd (hq (by decide)) hn
        | skip)
    | exact List.Subset.trans (by decide) hq
    | refine pair_only (by assumption) ?_
    | assumption

theorem State.chillNew_only {s0 : State} {ps : List Part} (s : State) (old : List Section) (hs : s0.changesOnly s ps) (hq : [.tier] ⊆ ps) : s0.changesOnly (State.chillNew s old) ps := by
  unfold State.chillNew
  repeat' first
    | with_reducible assumption
    | with_reducible apply foldl_only
    | with_reducible apply foldl_fst_only
    | with_reducible apply ite_only
    | with_reducible apply ite_fst_only
    | with_reducible intro _
    | split
    | dsimp only
    | ((with_reducible apply only_mk) <;> first
        | with_reducible exact fun _ => rfl
        | exact fun hn => absurd (hq (by decide)) hn
        | skip)
    | exact List.Subset.trans (by decide) hq
    | refine pair_only (by assumption) ?_
    | assumption

theorem State.discoverNew_only {s0 : State} {ps : List Part} (s : State) (old : List Section) (hs : s0.changesOnly s ps) (hq : [.pkg, .ports, .tier, .adk, .evq] ⊆ ps) : s0.changesOnly (State.discoverNew s old) ps := by
  unfold State.discoverNew
  repeat' first
    | with_reducible assumption
    | with_reducible apply State.trayPortOpen_only
    | with_reducible apply foldl_only
    | with_reducible apply foldl_fst_only
    | with_reducible apply ite_only
    | with_reducible apply ite_fst_only
    | with_reducible intro _
    | split
    | dsimp only
    | ((with_reducible apply only_mk) <;> first
        | with_reducible exact fun _ => rfl
        | exact fun hn => absurd (hq (by decide)) hn
        | skip)
    | exact List.Subset.trans (by decide) hq
    | refine pair_only (by assumption) ?_
    | assumption

theorem State.govern_only {s0 : State} {ps : List Part} (s : State) (c : List Section) (gates : List Section) (hs : s0.changesOnly s ps) (hq : [.free, .pkg, .ports, .req, .coh, .ext, .tier, .xl, .cmp, .cpu, .clv, .atn, .comp, .sec, .log, .adk, .evq, .glb] ⊆ ps) : s0.changesOnly (State.govern s c gates) ps := by
  unfold State.govern
  repeat' first
    | with_reducible assumption
    | with_reducible apply State.onLink_only
    | with_reducible apply State.portDown_only
    | with_reducible apply State.showTables_only
    | with_reducible apply State.installGate_only
    | with_reducible apply State.rebindMeters_only
    | with_reducible apply State.takeIdentity_only
    | with_reducible apply State.chillNew_only
    | with_reducible apply State.discoverNew_only
    | with_reducible apply foldl_only
    | with_reducible apply foldl_fst_only
    | with_reducible apply ite_only
    | with_reducible apply ite_fst_only
    | with_reducible intro _
    | split
    | dsimp only
    | ((with_reducible apply only_mk) <;> first
        | with_reducible exact fun _ => rfl
        | exact fun hn => absurd (hq (by decide)) hn
        | skip)
    | exact List.Subset.trans (by decide) hq
    | refine pair_only (by assumption) ?_
    | assumption

theorem State.trainAll_only {s0 : State} {ps : List Part} (s : State) (l : List Nat) (hs : s0.changesOnly s ps) (hq : [.ports] ⊆ ps) : s0.changesOnly (State.trainAll s l) ps := by
  unfold State.trainAll
  repeat' first
    | with_reducible assumption
    | with_reducible apply State.train_only
    | with_reducible apply foldl_only
    | with_reducible apply foldl_fst_only
    | with_reducible apply ite_only
    | with_reducible apply ite_fst_only
    | with_reducible intro _
    | split
    | dsimp only
    | ((with_reducible apply only_mk) <;> first
        | with_reducible exact fun _ => rfl
        | exact fun hn => absurd (hq (by decide)) hn
        | skip)
    | exact List.Subset.trans (by decide) hq
    | refine pair_only (by assumption) ?_
    | assumption

end Sys2Proof.Machine
end

