-- ==== Sys2Proof/Laws/OnlyPower.lean ====
section
/-! SUPPORT. What every operation of Power leaves alone. -/

set_option linter.unusedTactic false
set_option linter.unreachableTactic false
set_option linter.unusedVariables false

namespace Sys2Proof.Machine

theorem State.capTo_only {s0 : State} {ps : List Part} (s : State) (n : Nat) (hs : s0.changesOnly s ps) (hq : [.log, .adk, .evq, .glb] ⊆ ps) : s0.changesOnly (State.capTo s n) ps := by
  unfold State.capTo
  repeat' first
    | with_reducible assumption
    | with_reducible apply State.logE_only
    | with_reducible apply ite_only
    | with_reducible apply ite_fst_only
    | with_reducible intro _
    | split
    | dsimp only
    | ((with_reducible apply only_mk) <;> first
        | with_reducible exact fun _ => rfl
        | exact fun hn => absurd (hq (by decide)) hn
        | skip)
    | exact List.Subset.trans (by decide) hq
    | refine pair_only (by assumption) ?_
    | assumption

theorem execPowerCapCheck_only {s0 : State} {ps : List Part} (avgW : BitVec 16) (s : State) (hs : s0.changesOnly s ps) (hq : [.log, .adk, .evq, .glb] ⊆ ps) : onlyNext s0 (execPowerCapCheck avgW s) ps := by
  unfold execPowerCapCheck
  repeat' first
    | with_reducible assumption
    | with_reducible apply State.capTo_only
    | with_reducible apply ite_only
    | with_reducible apply ite_fst_only
    | with_reducible apply next_only
    | with_reducible intro _
    | split
    | dsimp only
    | ((with_reducible apply only_mk) <;> first
        | with_reducible exact fun _ => rfl
        | exact fun hn => absurd (hq (by decide)) hn
        | skip)
    | exact List.Subset.trans (by decide) hq
    | refine pair_only (by assumption) ?_
    | assumption

theorem execSensorSample_only {s0 : State} {ps : List Part} (reading : Reading) (s : State) (hs : s0.changesOnly s ps) (hq : [.log, .mod, .adk, .evq] ⊆ ps) : onlyNext s0 (execSensorSample reading s) ps := by
  unfold execSensorSample
  repeat' first
    | with_reducible assumption
    | with_reducible apply State.logE_only
    | with_reducible apply foldl_only
    | with_reducible apply foldl_fst_only
    | with_reducible apply ite_only
    | with_reducible apply ite_fst_only
    | with_reducible apply next_only
    | with_reducible intro _
    | split
    | dsimp only
    | ((with_reducible apply only_mk) <;> first
        | with_reducible exact fun _ => rfl
        | exact fun hn => absurd (hq (by decide)) hn
        | skip)
    | exact List.Subset.trans (by decide) hq
    | refine pair_only (by assumption) ?_
    | assumption

theorem State.spareCmd_only {s0 : State} {ps : List Part} (s : State) (v : BitVec 64) (hs : s0.changesOnly s ps) (hq : [.pkg, .glb] ⊆ ps) : s0.changesOnly (State.spareCmd s v).1 ps := by
  unfold State.spareCmd
  repeat' first
    | with_reducible assumption
    | with_reducible apply ite_only
    | with_reducible apply ite_fst_only
    | with_reducible intro _
    | split
    | dsimp only
    | ((with_reducible apply only_mk) <;> first
        | with_reducible exact fun _ => rfl
        | exact fun hn => absurd (hq (by decide)) hn
        | skip)
    | exact List.Subset.trans (by decide) hq
    | refine pair_only (by assumption) ?_
    | assumption

theorem execSpareProgram_only {s0 : State} {ps : List Part} (tag : BitVec 16) (s : State) (hs : s0.changesOnly s ps) (hq : [.pkg, .sec, .log, .adk, .evq, .glb] ⊆ ps) : onlyNext s0 (execSpareProgram tag s) ps := by
  unfold execSpareProgram
  repeat' first
    | with_reducible assumption
    | with_reducible apply State.adkWr_only
    | with_reducible apply State.spareCmd_only
    | with_reducible apply ite_only
    | with_reducible apply ite_fst_only
    | with_reducible apply next_only
    | with_reducible intro _
    | split
    | dsimp only
    | ((with_reducible apply only_mk) <;> first
        | with_reducible exact fun _ => rfl
        | exact fun hn => absurd (hq (by decide)) hn
        | skip)
    | exact List.Subset.trans (by decide) hq
    | refine pair_only (by assumption) ?_
    | assumption

theorem State.makerModeWr_only {s0 : State} {ps : List Part} (s : State) (v : BitVec 64) (hs : s0.changesOnly s ps) (hq : [.free, .pkg, .ports, .req, .coh, .ext, .tier, .xl, .cmp, .cpu, .clv, .atn, .comp, .sec, .log, .adk, .evq, .glb] ⊆ ps) : s0.changesOnly (State.makerModeWr s v).1 ps := by
  unfold State.makerModeWr
  repeat' first
    | with_reducible assumption
    | with_reducible apply State.portDown_only
    | with_reducible apply State.train_only
    | with_reducible apply State.memberRemove_only
    | with_reducible apply ite_only
    | with_reducible apply ite_fst_only
    | with_reducible intro _
    | split
    | dsimp only
    | ((with_reducible apply only_mk) <;> first
        | with_reducible exact fun _ => rfl
        | exact fun hn => absurd (hq (by decide)) hn
        | skip)
    | exact List.Subset.trans (by decide) hq
    | refine pair_only (by assumption) ?_
    | assumption

theorem State.makerDiag_only {s0 : State} {ps : List Part} (s : State) (hs : s0.changesOnly s ps) (hq : [.free, .glb] ⊆ ps) : s0.changesOnly (State.makerDiag s) ps := by
  unfold State.makerDiag
  repeat' first
    | with_reducible assumption
    | with_reducible apply State.draw_only
    | with_reducible apply ite_only
    | with_reducible apply ite_fst_only
    | with_reducible intro _
    | split
    | dsimp only
    | ((with_reducible apply only_mk) <;> first
        | with_reducible exact fun _ => rfl
        | exact fun hn => absurd (hq (by decide)) hn
        | skip)
    | exact List.Subset.trans (by decide) hq
    | refine pair_only (by assumption) ?_
    | assumption

theorem execMakerModeWrite_only {s0 : State} {ps : List Part} (tag : BitVec 16) (value : BitVec 64) (s : State) (hs : s0.changesOnly s ps) (hq : [.free, .pkg, .ports, .req, .coh, .ext, .tier, .xl, .cmp, .cpu, .clv, .atn, .comp, .sec, .log, .adk, .evq, .glb] ⊆ ps) : onlyNext s0 (execMakerModeWrite tag value s) ps := by
  unfold execMakerModeWrite
  repeat' first
    | with_reducible assumption
    | with_reducible apply State.adkWr_only
    | with_reducible apply State.makerModeWr_only
    | with_reducible apply ite_only
    | with_reducible apply ite_fst_only
    | with_reducible apply next_only
    | with_reducible intro _
    | split
    | dsimp only
    | ((with_reducible apply only_mk) <;> first
        | with_reducible exact fun _ => rfl
        | exact fun hn => absurd (hq (by decide)) hn
        | skip)
    | exact List.Subset.trans (by decide) hq
    | refine pair_only (by assumption) ?_
    | assumption

end Sys2Proof.Machine
end

