-- ==== Sys2Proof/Laws/OnlyRegWrite.lean ====
section
/-! SUPPORT. What every operation of RegWrite leaves alone. -/

set_option linter.unusedTactic false
set_option linter.unreachableTactic false
set_option linter.unusedVariables false

namespace Sys2Proof.Machine

theorem State.writeGlb_only {s0 : State} {ps : List Part} (s : State) (off : Nat) (v : BitVec 64) (hs : s0.changesOnly s ps) (hq : [.free, .pkg, .ports, .req, .coh, .ext, .tier, .xl, .cmp, .cpu, .clv, .atn, .comp, .sec, .log, .adk, .evq, .glb] ⊆ ps) : s0.changesOnly (State.writeGlb s off v).1 ps := by
  unfold State.writeGlb
  repeat' first
    | with_reducible assumption
    | with_reducible apply State.spareCmd_only
    | with_reducible apply State.makerModeWr_only
    | with_reducible apply foldl_only
    | with_reducible apply foldl_fst_only
    | with_reducible apply ite_only
    | with_reducible apply ite_fst_only
    | with_reducible intro _
    | split
    | dsimp only
    | ((with_reducible apply only_mk) <;> first
        | with_reducible exact fun _ => rfl
        | exact fun hn => absurd (hq (by decide)) hn
        | skip)
    | exact List.Subset.trans (by decide) hq
    | refine pair_only (by assumption) ?_
    | assumption

theorem State.admId_only {s0 : State} {ps : List Part} (s : State) (v : BitVec 64) (hs : s0.changesOnly s ps) (hq : [.adm] ⊆ ps) : s0.changesOnly (State.admId s v).1 ps := by
  unfold State.admId
  repeat' first
    | with_reducible assumption
    | with_reducible apply State.onAdm_only
    | with_reducible apply ite_only
    | with_reducible apply ite_fst_only
    | with_reducible intro _
    | split
    | dsimp only
    | ((with_reducible apply only_mk) <;> first
        | with_reducible exact fun _ => rfl
        | exact fun hn => absurd (hq (by decide)) hn
        | skip)
    | exact List.Subset.trans (by decide) hq
    | refine pair_only (by assumption) ?_
    | assumption

theorem State.writeExt_only {s0 : State} {ps : List Part} (s : State) (off : Nat) (v : BitVec 64) (hs : s0.changesOnly s ps) (hq : [.free, .pkg, .ports, .req, .coh, .ext, .adm, .tier, .xl, .cmp, .cpu, .clv, .atn, .comp, .sec, .log, .adk, .evq] ⊆ ps) : s0.changesOnly (State.writeExt s off v).1 ps := by
  unfold State.writeExt
  repeat' first
    | with_reducible assumption
    | with_reducible apply State.onAdm_only
    | with_reducible apply State.extCmd_only
    | with_reducible apply State.admCmd_only
    | with_reducible apply State.admId_only
    | with_reducible apply ite_only
    | with_reducible apply ite_fst_only
    | with_reducible intro _
    | split
    | dsimp only
    | ((with_reducible apply only_mk) <;> first
        | with_reducible exact fun _ => rfl
        | exact fun hn => absurd (hq (by decide)) hn
        | skip)
    | exact List.Subset.trans (by decide) hq
    | refine pair_only (by assumption) ?_
    | assumption

theorem State.ptwPolicy_only {s0 : State} {ps : List Part} (s : State) (v : BitVec 64) (hs : s0.changesOnly s ps) (hq : [.pkg, .ports, .req, .coh, .ext, .tier, .xl, .cmp, .cpu, .clv, .atn, .comp, .sec, .log, .adk, .evq] ⊆ ps) : s0.changesOnly (State.ptwPolicy s v).1 ps := by
  unfold State.ptwPolicy
  repeat' first
    | with_reducible assumption
    | with_reducible apply State.trnResult_only
    | with_reducible apply State.homeAccess_only
    | with_reducible apply ite_only
    | with_reducible apply ite_fst_only
    | with_reducible intro _
    | split
    | dsimp only
    | ((with_reducible apply only_mk) <;> first
        | with_reducible exact fun _ => rfl
        | exact fun hn => absurd (hq (by decide)) hn
        | skip)
    | exact List.Subset.trans (by decide) hq
    | refine pair_only (by assumption) ?_
    | assumption

theorem State.writeTrn_only {s0 : State} {ps : List Part} (s : State) (off : Nat) (v : BitVec 64) (hs : s0.changesOnly s ps) (hq : [.pkg, .tim, .ports, .req, .coh, .ext, .tier, .xl, .cmp, .cpu, .clv, .atn, .comp, .sec, .log, .adk, .evq] ⊆ ps) : s0.changesOnly (State.writeTrn s off v).1 ps := by
  unfold State.writeTrn
  repeat' first
    | with_reducible assumption
    | with_reducible apply State.tpCmd_only
    | with_reducible apply State.trayCmd_only
    | with_reducible apply State.invGo_only
    | with_reducible apply State.trnRoot_only
    | with_reducible apply State.trnMigCfg_only
    | with_reducible apply State.trnMigWarm_only
    | with_reducible apply State.trnBrCfg_only
    | with_reducible apply State.ptwPolicy_only
    | with_reducible apply ite_only
    | with_reducible apply ite_fst_only
    | with_reducible intro _
    | split
    | dsimp only
    | ((with_reducible apply only_mk) <;> first
        | with_reducible exact fun _ => rfl
        | exact fun hn => absurd (hq (by decide)) hn
        | skip)
    | exact List.Subset.trans (by decide) hq
    | refine pair_only (by assumption) ?_
    | assumption

theorem State.writeCmp_only {s0 : State} {ps : List Part} (s : State) (off : Nat) (v : BitVec 64) (hs : s0.changesOnly s ps) (hq : [.ports, .cmp] ⊆ ps) : s0.changesOnly (State.writeCmp s off v).1 ps := by
  unfold State.writeCmp
  repeat' first
    | with_reducible assumption
    | with_reducible apply ite_only
    | with_reducible apply ite_fst_only
    | with_reducible intro _
    | split
    | dsimp only
    | ((with_reducible apply only_mk) <;> first
        | with_reducible exact fun _ => rfl
        | exact fun hn => absurd (hq (by decide)) hn
        | skip)
    | exact List.Subset.trans (by decide) hq
    | refine pair_only (by assumption) ?_
    | assumption

theorem State.writeClv_only {s0 : State} {ps : List Part} (s : State) (off : Nat) (v : BitVec 64) (hs : s0.changesOnly s ps) (hq : [.pkg, .ports, .req, .adm, .xl, .cpu, .clv, .sec, .log, .adk, .evq] ⊆ ps) : s0.changesOnly (State.writeClv s off v).1 ps := by
  unfold State.writeClv
  repeat' first
    | with_reducible assumption
    | with_reducible apply State.onColl_only
    | with_reducible apply State.clvBind_only
    | with_reducible apply State.clvCmd_only
    | with_reducible apply State.clvMember_only
    | with_reducible apply State.clvGroup_only
    | with_reducible apply foldl_only
    | with_reducible apply foldl_fst_only
    | with_reducible apply ite_only
    | with_reducible apply ite_fst_only
    | with_reducible intro _
    | split
    | dsimp only
    | ((with_reducible apply only_mk) <;> first
        | with_reducible exact fun _ => rfl
        | exact fun hn => absurd (hq (by decide)) hn
        | skip)
    | exact List.Subset.trans (by decide) hq
    | refine pair_only (by assumption) ?_
    | assumption

theorem State.writeAtn_only {s0 : State} {ps : List Part} (s : State) (off : Nat) (v : BitVec 64) (hs : s0.changesOnly s ps) (hq : [.atn] ⊆ ps) : s0.changesOnly (State.writeAtn s off v).1 ps := by
  unfold State.writeAtn
  repeat' first
    | with_reducible assumption
    | with_reducible apply State.atnCmd_only
    | with_reducible apply State.atnPvCfg_only
    | with_reducible apply ite_only
    | with_reducible apply ite_fst_only
    | with_reducible intro _
    | split
    | dsimp only
    | ((with_reducible apply only_mk) <;> first
        | with_reducible exact fun _ => rfl
        | exact fun hn => absurd (hq (by decide)) hn
        | skip)
    | exact List.Subset.trans (by decide) hq
    | refine pair_only (by assumption) ?_
    | assumption

theorem State.writeCmpo_only {s0 : State} {ps : List Part} (s : State) (off : Nat) (v : BitVec 64) (hs : s0.changesOnly s ps) (hq : [.pkg, .ports, .req, .tier, .xl, .cpu, .clv, .atn, .comp, .sec, .log, .adk, .evq] ⊆ ps) : s0.changesOnly (State.writeCmpo s off v).1 ps := by
  unfold State.writeCmpo
  repeat' first
    | with_reducible assumption
    | with_reducible apply State.cmpoCmd_only
    | with_reducible apply ite_only
    | with_reducible apply ite_fst_only
    | with_reducible intro _
    | split
    | dsimp only
    | ((with_reducible apply only_mk) <;> first
        | with_reducible exact fun _ => rfl
        | exact fun hn => absurd (hq (by decide)) hn
        | skip)
    | exact List.Subset.trans (by decide) hq
    | refine pair_only (by assumption) ?_
    | assumption

theorem State.writeModule_only {s0 : State} {ps : List Part} (s : State) (page : Nat) (off : Nat) (v : BitVec 64) (hs : s0.changesOnly s ps) (hq : [.free, .pkg, .tim, .ports, .req, .coh, .ext, .adm, .tier, .xl, .cmp, .cpu, .clv, .atn, .comp, .sec, .log, .adk, .evq, .glb] ⊆ ps) : s0.changesOnly (State.writeModule s page off v).1 ps := by
  unfold State.writeModule
  repeat' first
    | with_reducible assumption
    | with_reducible apply State.writeGlb_only
    | with_reducible apply State.writeExt_only
    | with_reducible apply State.writeTrn_only
    | with_reducible apply State.writeCmp_only
    | with_reducible apply State.writeClv_only
    | with_reducible apply State.writeAtn_only
    | with_reducible apply State.writeCmpo_only
    | with_reducible apply ite_only
    | with_reducible apply ite_fst_only
    | with_reducible intro _
    | split
    | dsimp only
    | ((with_reducible apply only_mk) <;> first
        | with_reducible exact fun _ => rfl
        | exact fun hn => absurd (hq (by decide)) hn
        | skip)
    | exact List.Subset.trans (by decide) hq
    | refine pair_only (by assumption) ?_
    | assumption

theorem State.secLot_only {s0 : State} {ps : List Part} (s : State) (v : BitVec 64) (hs : s0.changesOnly s ps) (hq : [.sec] ⊆ ps) : s0.changesOnly (State.secLot s v).1 ps := by
  unfold State.secLot
  repeat' first
    | with_reducible assumption
    | with_reducible apply ite_only
    | with_reducible apply ite_fst_only
    | with_reducible intro _
    | split
    | dsimp only
    | ((with_reducible apply only_mk) <;> first
        | with_reducible exact fun _ => rfl
        | exact fun hn => absurd (hq (by decide)) hn
        | skip)
    | exact List.Subset.trans (by decide) hq
    | refine pair_only (by assumption) ?_
    | assumption

theorem State.dbgPolicy_only {s0 : State} {ps : List Part} (s : State) (hs : s0.changesOnly s ps) (hq : [.pkg, .ports, .req, .coh, .ext, .tier, .xl, .cmp, .cpu, .clv, .atn, .comp, .sec, .log, .adk, .evq] ⊆ ps) : s0.changesOnly (State.dbgPolicy s).1 ps := by
  unfold State.dbgPolicy
  repeat' first
    | with_reducible assumption
    | with_reducible apply State.homeAccess_only
    | with_reducible apply State.dbgResult_only
    | with_reducible apply ite_only
    | with_reducible apply ite_fst_only
    | with_reducible intro _
    | split
    | dsimp only
    | ((with_reducible apply only_mk) <;> first
        | with_reducible exact fun _ => rfl
        | exact fun hn => absurd (hq (by decide)) hn
        | skip)
    | exact List.Subset.trans (by decide) hq
    | refine pair_only (by assumption) ?_
    | assumption

theorem State.writeSec_only {s0 : State} {ps : List Part} (s : State) (off : Nat) (v : BitVec 64) (hs : s0.changesOnly s ps) (hq : [.free, .pkg, .ports, .req, .coh, .ext, .tier, .xl, .cmp, .cpu, .clv, .atn, .comp, .sec, .log, .adk, .evq] ⊆ ps) : s0.changesOnly (State.writeSec s off v).1 ps := by
  unfold State.writeSec
  repeat' first
    | with_reducible assumption
    | with_reducible apply State.tcCmd_only
    | with_reducible apply State.pkeyData_only
    | with_reducible apply State.roleCmd_only
    | with_reducible apply State.fwCmd_only
    | with_reducible apply State.attCmd_only
    | with_reducible apply State.secLot_only
    | with_reducible apply State.dbgPolicy_only
    | with_reducible apply ite_only
    | with_reducible apply ite_fst_only
    | with_reducible intro _
    | split
    | dsimp only
    | ((with_reducible apply only_mk) <;> first
        | with_reducible exact fun _ => rfl
        | exact fun hn => absurd (hq (by decide)) hn
        | skip)
    | exact List.Subset.trans (by decide) hq
    | refine pair_only (by assumption) ?_
    | assumption

theorem State.writeLog_only {s0 : State} {ps : List Part} (s : State) (off : Nat) (v : BitVec 64) (hs : s0.changesOnly s ps) (hq : [.tim, .log, .adk, .evq] ⊆ ps) : s0.changesOnly (State.writeLog s off v).1 ps := by
  unfold State.writeLog
  repeat' first
    | with_reducible assumption
    | with_reducible apply State.owing_only
    | with_reducible apply State.logFence_only
    | with_reducible apply State.logCmd_only
    | with_reducible apply ite_only
    | with_reducible apply ite_fst_only
    | with_reducible intro _
    | split
    | dsimp only
    | ((with_reducible apply only_mk) <;> first
        | with_reducible exact fun _ => rfl
        | exact fun hn => absurd (hq (by decide)) hn
        | skip)
    | exact List.Subset.trans (by decide) hq
    | refine pair_only (by assumption) ?_
    | assumption

theorem State.writeMod_only {s0 : State} {ps : List Part} (s : State) (off : Nat) (v : BitVec 64) (hs : s0.changesOnly s ps) (hq : [.free, .hb, .pkg, .tim, .ports, .bridles, .req, .coh, .ext, .lse, .adm, .tier, .xl, .cmp, .cpu, .clv, .atn, .comp, .sec, .log, .mod, .adk, .evq, .glb] ⊆ ps) : s0.changesOnly (State.writeMod s off v).1 ps := by
  unfold State.writeMod
  repeat' first
    | with_reducible assumption
    | with_reducible apply State.warm_only
    | with_reducible apply State.modCmd_only
    | with_reducible apply ite_only
    | with_reducible apply ite_fst_only
    | with_reducible intro _
    | split
    | dsimp only
    | ((with_reducible apply only_mk) <;> first
        | with_reducible exact fun _ => rfl
        | exact fun hn => absurd (hq (by decide)) hn
        | skip)
    | exact List.Subset.trans (by decide) hq
    | refine pair_only (by assumption) ?_
    | assumption

theorem State.writeSd1_only {s0 : State} {ps : List Part} (s : State) (page : Nat) (off : Nat) (v : BitVec 64) (hs : s0.changesOnly s ps) (hq : [.free, .pkg, .tim, .ports, .req, .coh, .ext, .lse, .xl, .cpu, .clv, .comp, .sec, .log, .adk, .evq] ⊆ ps) : s0.changesOnly (State.writeSd1 s page off v).1 ps := by
  unfold State.writeSd1
  repeat' first
    | with_reducible assumption
    | with_reducible apply State.lseCmd_only
    | with_reducible apply State.lseEntry_only
    | with_reducible apply State.lseBounds_only
    | with_reducible apply State.timCtrl_only
    | with_reducible apply ite_only
    | with_reducible apply ite_fst_only
    | with_reducible intro _
    | split
    | dsimp only
    | ((with_reducible apply only_mk) <;> first
        | with_reducible exact fun _ => rfl
        | exact fun hn => absurd (hq (by decide)) hn
        | skip)
    | exact List.Subset.trans (by decide) hq
    | refine pair_only (by assumption) ?_
    | assumption

theorem State.writePrt_only {s0 : State} {ps : List Part} (s : State) (p : Nat) (off : Nat) (v : BitVec 64) (hs : s0.changesOnly s ps) (hq : [.free, .pkg, .ports, .bridles, .req, .coh, .ext, .tier, .xl, .cmp, .cpu, .clv, .atn, .comp, .sec, .log, .adk, .evq] ⊆ ps) : s0.changesOnly (State.writePrt s p off v).1 ps := by
  unfold State.writePrt
  repeat' first
    | with_reducible assumption
    | with_reducible apply State.onLink_only
    | with_reducible apply State.onTc_only
    | with_reducible apply State.onBridle_only
    | with_reducible apply State.prtPeer_only
    | with_reducible apply State.prtCfg_only
    | with_reducible apply State.gateCtrl_only
    | with_reducible apply State.gateBase_only
    | with_reducible apply State.gateChange_only
    | with_reducible apply State.gateEntry_only
    | with_reducible apply State.prtShape_only
    | with_reducible apply State.prtBridle_only
    | with_reducible apply State.brdCfg_only
    | with_reducible apply State.brdBurst_only
    | with_reducible apply State.brdSelect_only
    | with_reducible apply State.prtRloop_only
    | with_reducible apply ite_only
    | with_reducible apply ite_fst_only
    | with_reducible intro _
    | split
    | dsimp only
    | ((with_reducible apply only_mk) <;> first
        | with_reducible exact fun _ => rfl
        | exact fun hn => absurd (hq (by decide)) hn
        | skip)
    | exact List.Subset.trans (by decide) hq
    | refine pair_only (by assumption) ?_
    | assumption

theorem State.writeQue_only {s0 : State} {ps : List Part} (s : State) (p : Nat) (q : Nat) (off : Nat) (v : BitVec 64) (hs : s0.changesOnly s ps) (hq : [.ports] ⊆ ps) : s0.changesOnly (State.writeQue s p q off v).1 ps := by
  unfold State.writeQue
  repeat' first
    | with_reducible assumption
    | with_reducible apply State.onQueue_only
    | with_reducible apply State.queShape_only
    | with_reducible apply State.queCfg_only
    | with_reducible apply State.belCfg_only
    | with_reducible apply ite_only
    | with_reducible apply ite_fst_only
    | with_reducible intro _
    | split
    | dsimp only
    | ((with_reducible apply only_mk) <;> first
        | with_reducible exact fun _ => rfl
        | exact fun hn => absurd (hq (by decide)) hn
        | skip)
    | exact List.Subset.trans (by decide) hq
    | refine pair_only (by assumption) ?_
    | assumption

theorem State.writeCoh_only {s0 : State} {ps : List Part} (s : State) (d : Nat) (off : Nat) (v : BitVec 64) (hs : s0.changesOnly s ps) (hq : [.pkg, .ports, .req, .coh, .ext, .tier, .xl, .cmp, .cpu, .clv, .atn, .comp, .sec, .log, .adk, .evq] ⊆ ps) : s0.changesOnly (State.writeCoh s d off v).1 ps := by
  unfold State.writeCoh
  repeat' first
    | with_reducible assumption
    | with_reducible apply State.onDom_only
    | with_reducible apply State.cohCfg_only
    | with_reducible apply State.cohCmd_only
    | with_reducible apply State.cohMembers_only
    | with_reducible apply ite_only
    | with_reducible apply ite_fst_only
    | with_reducible intro _
    | split
    | dsimp only
    | ((with_reducible apply only_mk) <;> first
        | with_reducible exact fun _ => rfl
        | exact fun hn => absurd (hq (by decide)) hn
        | skip)
    | exact List.Subset.trans (by decide) hq
    | refine pair_only (by assumption) ?_
    | assumption

theorem State.writeCommon_only {s0 : State} {ps : List Part} (s : State) (ty : Nat) (i : Nat) (off : Nat) (v : BitVec 64) (hs : s0.changesOnly s ps) (hq : [.log] ⊆ ps) : s0.changesOnly (State.writeCommon s ty i off v).1 ps := by
  unfold State.writeCommon
  repeat' first
    | with_reducible assumption
    | with_reducible apply ite_only
    | with_reducible apply ite_fst_only
    | with_reducible intro _
    | split
    | dsimp only
    | ((with_reducible apply only_mk) <;> first
        | with_reducible exact fun _ => rfl
        | exact fun hn => absurd (hq (by decide)) hn
        | skip)
    | exact List.Subset.trans (by decide) hq
    | refine pair_only (by assumption) ?_
    | assumption

theorem State.regWrite_only {s0 : State} {ps : List Part} (s : State) (a : Nat) (v : BitVec 64) (hs : s0.changesOnly s ps) (hq : [.free, .hb, .pkg, .tim, .ports, .bridles, .req, .coh, .ext, .lse, .adm, .tier, .xl, .cmp, .cpu, .clv, .atn, .comp, .sec, .log, .mod, .adk, .evq, .glb] ⊆ ps) : s0.changesOnly (State.regWrite s a v).1 ps := by
  unfold State.regWrite
  repeat' first
    | with_reducible assumption
    | with_reducible apply State.onCore_only
    | with_reducible apply State.writeModule_only
    | with_reducible apply State.writeSec_only
    | with_reducible apply State.writeLog_only
    | with_reducible apply State.writeMod_only
    | with_reducible apply State.writeSd1_only
    | with_reducible apply State.writePrt_only
    | with_reducible apply State.writeQue_only
    | with_reducible apply State.writeCoh_only
    | with_reducible apply State.writeCommon_only
    | with_reducible apply ite_only
    | with_reducible apply ite_fst_only
    | with_reducible intro _
    | split
    | dsimp only
    | ((with_reducible apply only_mk) <;> first
        | with_reducible exact fun _ => rfl
        | exact fun hn => absurd (hq (by decide)) hn
        | skip)
    | exact List.Subset.trans (by decide) hq
    | refine pair_only (by assumption) ?_
    | assumption

theorem State.policyApply_only {s0 : State} {ps : List Part} (rs : List (Nat × BitVec 64)) (s : State) (hs : s0.changesOnly s ps) (hq : [.free, .hb, .pkg, .tim, .ports, .bridles, .req, .coh, .ext, .lse, .adm, .tier, .xl, .cmp, .cpu, .clv, .atn, .comp, .sec, .log, .mod, .adk, .evq, .glb] ⊆ ps) : s0.changesOnly (State.policyApply rs s) ps := by
  unfold State.policyApply
  repeat' first
    | with_reducible assumption
    | with_reducible apply State.logE_only
    | with_reducible apply State.regWrite_only
    | with_reducible apply foldl_only
    | with_reducible apply foldl_fst_only
    | with_reducible apply ite_only
    | with_reducible apply ite_fst_only
    | with_reducible intro _
    | split
    | dsimp only
    | ((with_reducible apply only_mk) <;> first
        | with_reducible exact fun _ => rfl
        | exact fun hn => absurd (hq (by decide)) hn
        | skip)
    | exact List.Subset.trans (by decide) hq
    | refine pair_only (by assumption) ?_
    | assumption

end Sys2Proof.Machine
end

