-- ==== Sys2Proof/Laws/OnlyTransactions.lean ====
section
/-! SUPPORT. What every operation of Transactions leaves alone. -/

set_option linter.unusedTactic false
set_option linter.unreachableTactic false
set_option linter.unusedVariables false

namespace Sys2Proof.Machine

theorem State.wrAny_only {s0 : State} {ps : List Part} (q : AdkFrame) (s : State) (hs : s0.changesOnly s ps) (hq : [.free, .hb, .pkg, .tim, .ports, .bridles, .req, .coh, .ext, .lse, .adm, .tier, .xl, .cmp, .cpu, .clv, .atn, .comp, .sec, .log, .mod, .adk, .evq, .glb] ⊆ ps) : s0.changesOnly (State.wrAny q s) ps := by
  unfold State.wrAny
  repeat' first
    | with_reducible assumption
    | with_reducible apply State.adkReply_only
    | with_reducible apply State.wrBody_only
    | with_reducible apply State.extBody_only
    | with_reducible apply State.ptwStart_only
    | with_reducible apply State.modBody_only
    | with_reducible apply State.dbgStart_only
    | with_reducible apply State.regWrite_only
    | with_reducible apply ite_only
    | with_reducible apply ite_fst_only
    | with_reducible intro _
    | split
    | dsimp only
    | ((with_reducible apply only_mk) <;> first
        | with_reducible exact fun _ => rfl
        | exact fun hn => absurd (hq (by decide)) hn
        | skip)
    | exact List.Subset.trans (by decide) hq
    | refine pair_only (by assumption) ?_
    | assumption

theorem execRegisterWrite_only {s0 : State} {ps : List Part} (tag : BitVec 16) (addr : BitVec 48) (value : BitVec 64) (held : BitVec 64) (s : State) (hs : s0.changesOnly s ps) (hq : [.free, .hb, .pkg, .tim, .ports, .bridles, .req, .coh, .ext, .lse, .adm, .tier, .xl, .cmp, .cpu, .clv, .atn, .comp, .sec, .log, .mod, .adk, .evq, .glb] ⊆ ps) : onlyNext s0 (execRegisterWrite tag addr value held s) ps := by
  unfold execRegisterWrite
  repeat' first
    | with_reducible assumption
    | with_reducible apply State.adkRequest_only
    | with_reducible apply State.wrAny_only
    | with_reducible apply ite_only
    | with_reducible apply ite_fst_only
    | with_reducible apply next_only
    | with_reducible intro _
    | split
    | dsimp only
    | ((with_reducible apply only_mk) <;> first
        | with_reducible exact fun _ => rfl
        | exact fun hn => absurd (hq (by decide)) hn
        | skip)
    | exact List.Subset.trans (by decide) hq
    | refine pair_only (by assumption) ?_
    | assumption

theorem State.lateRead_only {s0 : State} {ps : List Part} (s : State) (incs : BitVec 32) (hs : s0.changesOnly s ps) (hq : [.tim] ⊆ ps) : s0.changesOnly (State.lateRead s incs) ps := by
  unfold State.lateRead
  repeat' first
    | with_reducible assumption
    | with_reducible apply ite_only
    | with_reducible apply ite_fst_only
    | with_reducible intro _
    | split
    | dsimp only
    | ((with_reducible apply only_mk) <;> first
        | with_reducible exact fun _ => rfl
        | exact fun hn => absurd (hq (by decide)) hn
        | skip)
    | exact List.Subset.trans (by decide) hq
    | refine pair_only (by assumption) ?_
    | assumption

theorem State.rdReply_only {s0 : State} {ps : List Part} (q : AdkFrame) (s : State) (hs : s0.changesOnly s ps) (hq : [.free, .tim, .adk, .glb] ⊆ ps) : s0.changesOnly (State.rdReply q s) ps := by
  unfold State.rdReply
  repeat' first
    | with_reducible assumption
    | with_reducible apply State.adkReply_only
    | with_reducible apply State.makerDiag_only
    | with_reducible apply State.lateRead_only
    | with_reducible apply ite_only
    | with_reducible apply ite_fst_only
    | with_reducible intro _
    | split
    | dsimp only
    | ((with_reducible apply only_mk) <;> first
        | with_reducible exact fun _ => rfl
        | exact fun hn => absurd (hq (by decide)) hn
        | skip)
    | exact List.Subset.trans (by decide) hq
    | refine pair_only (by assumption) ?_
    | assumption

theorem State.rdAny_only {s0 : State} {ps : List Part} (q : AdkFrame) (s : State) (hs : s0.changesOnly s ps) (hq : [.free, .pkg, .tim, .ports, .req, .coh, .ext, .tier, .xl, .cmp, .cpu, .clv, .atn, .comp, .sec, .log, .adk, .evq, .glb] ⊆ ps) : s0.changesOnly (State.rdAny q s) ps := by
  unfold State.rdAny
  repeat' first
    | with_reducible assumption
    | with_reducible apply State.adkFail_only
    | with_reducible apply State.ptwStart_only
    | with_reducible apply State.rdReply_only
    | with_reducible apply ite_only
    | with_reducible apply ite_fst_only
    | with_reducible intro _
    | split
    | dsimp only
    | ((with_reducible apply only_mk) <;> first
        | with_reducible exact fun _ => rfl
        | exact fun hn => absurd (hq (by decide)) hn
        | skip)
    | exact List.Subset.trans (by decide) hq
    | refine pair_only (by assumption) ?_
    | assumption

theorem execAdkRd_only {s0 : State} {ps : List Part} (tag : BitVec 16) (addr : BitVec 48) (len : BitVec 16) (s : State) (hs : s0.changesOnly s ps) (hq : [.free, .pkg, .tim, .ports, .req, .coh, .ext, .tier, .xl, .cmp, .cpu, .clv, .atn, .comp, .sec, .log, .adk, .evq, .glb] ⊆ ps) : onlyNext s0 (execAdkRd tag addr len s) ps := by
  unfold execAdkRd
  repeat' first
    | with_reducible assumption
    | with_reducible apply State.adkRequest_only
    | with_reducible apply State.rdAny_only
    | with_reducible apply ite_only
    | with_reducible apply ite_fst_only
    | with_reducible apply next_only
    | with_reducible intro _
    | split
    | dsimp only
    | ((with_reducible apply only_mk) <;> first
        | with_reducible exact fun _ => rfl
        | exact fun hn => absurd (hq (by decide)) hn
        | skip)
    | exact List.Subset.trans (by decide) hq
    | refine pair_only (by assumption) ?_
    | assumption

theorem execRcRead_only {s0 : State} {ps : List Part} (tag : BitVec 16) (incs : BitVec 32) (s : State) (hs : s0.changesOnly s ps) (hq : [.free, .pkg, .tim, .ports, .req, .coh, .ext, .tier, .xl, .cmp, .cpu, .clv, .atn, .comp, .sec, .log, .adk, .evq, .glb] ⊆ ps) : onlyNext s0 (execRcRead tag incs s) ps := by
  unfold execRcRead
  repeat' first
    | with_reducible assumption
    | with_reducible apply State.adkRequest_only
    | with_reducible apply State.rdAny_only
    | with_reducible apply ite_only
    | with_reducible apply ite_fst_only
    | with_reducible apply next_only
    | with_reducible intro _
    | split
    | dsimp only
    | ((with_reducible apply only_mk) <;> first
        | with_reducible exact fun _ => rfl
        | exact fun hn => absurd (hq (by decide)) hn
        | skip)
    | exact List.Subset.trans (by decide) hq
    | refine pair_only (by assumption) ?_
    | assumption

theorem State.logAny_only {s0 : State} {ps : List Part} (q : AdkFrame) (s : State) (hs : s0.changesOnly s ps) (hq : [.free, .adk] ⊆ ps) : s0.changesOnly (State.logAny q s) ps := by
  unfold State.logAny
  repeat' first
    | with_reducible assumption
    | with_reducible apply State.draw_only
    | with_reducible apply State.adkReply_only
    | with_reducible apply ite_only
    | with_reducible apply ite_fst_only
    | with_reducible intro _
    | split
    | dsimp only
    | ((with_reducible apply only_mk) <;> first
        | with_reducible exact fun _ => rfl
        | exact fun hn => absurd (hq (by decide)) hn
        | skip)
    | exact List.Subset.trans (by decide) hq
    | refine pair_only (by assumption) ?_
    | assumption

theorem execLogrd_only {s0 : State} {ps : List Part} (tag : BitVec 16) (addr : BitVec 48) (len : BitVec 16) (s : State) (hs : s0.changesOnly s ps) (hq : [.free, .adk] ⊆ ps) : onlyNext s0 (execLogrd tag addr len s) ps := by
  unfold execLogrd
  repeat' first
    | with_reducible assumption
    | with_reducible apply State.adkRequest_only
    | with_reducible apply State.logAny_only
    | with_reducible apply ite_only
    | with_reducible apply ite_fst_only
    | with_reducible apply next_only
    | with_reducible intro _
    | split
    | dsimp only
    | ((with_reducible apply only_mk) <;> first
        | with_reducible exact fun _ => rfl
        | exact fun hn => absurd (hq (by decide)) hn
        | skip)
    | exact List.Subset.trans (by decide) hq
    | refine pair_only (by assumption) ?_
    | assumption

theorem State.imgPut_only {s0 : State} {ps : List Part} (s : State) (off : Nat) (ws : List (BitVec 64)) (hs : s0.changesOnly s ps) (hq : [.comp] ⊆ ps) : s0.changesOnly (State.imgPut s off ws).1 ps := by
  unfold State.imgPut
  repeat' first
    | with_reducible assumption
    | with_reducible apply State.imgErr_only
    | with_reducible apply ite_only
    | with_reducible apply ite_fst_only
    | with_reducible intro _
    | split
    | dsimp only
    | ((with_reducible apply only_mk) <;> first
        | with_reducible exact fun _ => rfl
        | exact fun hn => absurd (hq (by decide)) hn
        | skip)
    | exact List.Subset.trans (by decide) hq
    | refine pair_only (by assumption) ?_
    | assumption

theorem State.fwPut_only {s0 : State} {ps : List Part} (s : State) (off : Nat) (ws : List (BitVec 64)) (hs : s0.changesOnly s ps) (hq : [.sec] ⊆ ps) : s0.changesOnly (State.fwPut s off ws).1 ps := by
  unfold State.fwPut
  repeat' first
    | with_reducible assumption
    | with_reducible apply ite_only
    | with_reducible apply ite_fst_only
    | with_reducible intro _
    | split
    | dsimp only
    | ((with_reducible apply only_mk) <;> first
        | with_reducible exact fun _ => rfl
        | exact fun hn => absurd (hq (by decide)) hn
        | skip)
    | exact List.Subset.trans (by decide) hq
    | refine pair_only (by assumption) ?_
    | assumption

theorem State.imgAny_only {s0 : State} {ps : List Part} (q : AdkFrame) (s : State) (hs : s0.changesOnly s ps) (hq : [.comp, .sec, .adk] ⊆ ps) : s0.changesOnly (State.imgAny q s) ps := by
  unfold State.imgAny
  repeat' first
    | with_reducible assumption
    | with_reducible apply State.adkReply_only
    | with_reducible apply State.imgPut_only
    | with_reducible apply State.fwPut_only
    | with_reducible apply ite_only
    | with_reducible apply ite_fst_only
    | with_reducible intro _
    | split
    | dsimp only
    | ((with_reducible apply only_mk) <;> first
        | with_reducible exact fun _ => rfl
        | exact fun hn => absurd (hq (by decide)) hn
        | skip)
    | exact List.Subset.trans (by decide) hq
    | refine pair_only (by assumption) ?_
    | assumption

theorem execImgwr_only {s0 : State} {ps : List Part} (tag : BitVec 16) (addr : BitVec 48) (words : List (BitVec 64)) (s : State) (hs : s0.changesOnly s ps) (hq : [.comp, .sec, .adk] ⊆ ps) : onlyNext s0 (execImgwr tag addr words s) ps := by
  unfold execImgwr
  repeat' first
    | with_reducible assumption
    | with_reducible apply State.adkRequest_only
    | with_reducible apply State.imgAny_only
    | with_reducible apply ite_only
    | with_reducible apply ite_fst_only
    | with_reducible apply next_only
    | with_reducible intro _
    | split
    | dsimp only
    | ((with_reducible apply only_mk) <;> first
        | with_reducible exact fun _ => rfl
        | exact fun hn => absurd (hq (by decide)) hn
        | skip)
    | exact List.Subset.trans (by decide) hq
    | refine pair_only (by assumption) ?_
    | assumption

theorem State.adkAny_only {s0 : State} {ps : List Part} (q : AdkFrame) (s : State) (hs : s0.changesOnly s ps) (hq : [.free, .hb, .pkg, .tim, .ports, .bridles, .req, .coh, .ext, .lse, .adm, .tier, .xl, .cmp, .cpu, .clv, .atn, .comp, .sec, .log, .mod, .adk, .evq, .glb] ⊆ ps) : s0.changesOnly (State.adkAny q s) ps := by
  unfold State.adkAny
  repeat' first
    | with_reducible assumption
    | with_reducible apply State.wrAny_only
    | with_reducible apply State.rdAny_only
    | with_reducible apply State.logAny_only
    | with_reducible apply State.imgAny_only
    | with_reducible apply ite_only
    | with_reducible apply ite_fst_only
    | with_reducible intro _
    | split
    | dsimp only
    | ((with_reducible apply only_mk) <;> first
        | with_reducible exact fun _ => rfl
        | exact fun hn => absurd (hq (by decide)) hn
        | skip)
    | exact List.Subset.trans (by decide) hq
    | refine pair_only (by assumption) ?_
    | assumption

theorem State.adkRun_only {s0 : State} {ps : List Part} (l : List AdkFrame) (s : State) (hs : s0.changesOnly s ps)
    (hq : [.free, .hb, .pkg, .tim, .ports, .bridles, .req, .coh, .ext, .lse, .adm, .tier, .xl, .cmp, .cpu, .clv, .atn, .comp, .sec, .log, .mod, .adk, .evq, .glb] ⊆ ps) : s0.changesOnly (State.adkRun l s) ps := by
  have h2 : ∀ (s : State) (x : Adk), s0.changesOnly s ps → s0.changesOnly { s with adk := x } ps := by
    intro s x h p hp
    have := h p hp
    cases p <;> first
      | exact this
      | exact absurd (hq (by decide)) hp
  induction l generalizing s with
  | nil => exact hs
  | cons q rest ih =>
    unfold State.adkRun
    dsimp only
    have hp : ∀ s : State, s0.changesOnly s ps → s0.changesOnly (s.adkPerform q (State.adkAny q)) ps := fun s hs =>
      State.adkPerform_only _ _ _ hs (fun a h => State.adkAny_only _ _ h (List.Subset.trans (by decide) hq))
        (List.Subset.trans (by decide) hq)
    have hm : ∀ s : State, s0.changesOnly s ps → s0.changesOnly (s.adkMalformed q) ps := fun s hs =>
      State.adkMalformed_only _ _ hs (List.Subset.trans (by decide) hq)
    repeat' first
      | with_reducible assumption
      | with_reducible intro _
      | with_reducible apply ite_only
      | with_reducible apply hp
      | with_reducible apply hm
      | with_reducible apply ih
      | with_reducible apply h2

theorem State.adkResume_only {s0 : State} {ps : List Part} (s : State) (hs : s0.changesOnly s ps) (hq : [.free, .hb, .pkg, .tim, .ports, .bridles, .req, .coh, .ext, .lse, .adm, .tier, .xl, .cmp, .cpu, .clv, .atn, .comp, .sec, .log, .mod, .adk, .evq, .glb] ⊆ ps) : s0.changesOnly (State.adkResume s) ps := by
  unfold State.adkResume
  repeat' first
    | with_reducible assumption
    | with_reducible apply State.adkRun_only
    | with_reducible apply ite_only
    | with_reducible apply ite_fst_only
    | with_reducible intro _
    | split
    | dsimp only
    | ((with_reducible apply only_mk) <;> first
        | with_reducible exact fun _ => rfl
        | exact fun hn => absurd (hq (by decide)) hn
        | skip)
    | exact List.Subset.trans (by decide) hq
    | refine pair_only (by assumption) ?_
    | assumption

theorem execPtwAccessComplete_only {s0 : State} {ps : List Part} (s : State) (hs : s0.changesOnly s ps) (hq : [.free, .hb, .pkg, .tim, .ports, .bridles, .req, .coh, .ext, .lse, .adm, .tier, .xl, .cmp, .cpu, .clv, .atn, .comp, .sec, .log, .mod, .adk, .evq, .glb] ⊆ ps) : onlyNext s0 (execPtwAccessComplete s) ps := by
  unfold execPtwAccessComplete
  repeat' first
    | with_reducible assumption
    | with_reducible apply State.adkReply_only
    | with_reducible apply State.adkFail_only
    | with_reducible apply State.trnResult_only
    | with_reducible apply State.rdReply_only
    | with_reducible apply State.adkResume_only
    | with_reducible apply ite_only
    | with_reducible apply ite_fst_only
    | with_reducible apply next_only
    | with_reducible intro _
    | split
    | dsimp only
    | ((with_reducible apply only_mk) <;> first
        | with_reducible exact fun _ => rfl
        | exact fun hn => absurd (hq (by decide)) hn
        | skip)
    | exact List.Subset.trans (by decide) hq
    | refine pair_only (by assumption) ?_
    | assumption

theorem execMakeRoom_only {s0 : State} {ps : List Part} (s : State) (hs : s0.changesOnly s ps) (hq : [.free, .hb, .pkg, .tim, .ports, .bridles, .req, .coh, .ext, .lse, .adm, .tier, .xl, .cmp, .cpu, .clv, .atn, .comp, .sec, .log, .mod, .adk, .evq, .glb] ⊆ ps) : onlyNext s0 (execMakeRoom s) ps := by
  unfold execMakeRoom
  repeat' first
    | with_reducible assumption
    | with_reducible apply State.adkReply_only
    | with_reducible apply State.makeRoomStep_only
    | with_reducible apply State.extAssign_only
    | with_reducible apply State.extResult_only
    | with_reducible apply State.adkResume_only
    | with_reducible apply ite_only
    | with_reducible apply ite_fst_only
    | with_reducible apply foldl_room_only
    | with_reducible apply ite_room_only
    | with_reducible apply next_only
    | with_reducible intro _
    | split
    | dsimp only
    | ((with_reducible apply only_mk) <;> first
        | with_reducible exact fun _ => rfl
        | exact fun hn => absurd (hq (by decide)) hn
        | skip)
    | exact List.Subset.trans (by decide) hq
    | refine pair_only (by assumption) ?_
    | assumption

theorem execDebugReadComplete_only {s0 : State} {ps : List Part} (s : State) (hs : s0.changesOnly s ps) (hq : [.free, .hb, .pkg, .tim, .ports, .bridles, .req, .coh, .ext, .lse, .adm, .tier, .xl, .cmp, .cpu, .clv, .atn, .comp, .sec, .log, .mod, .adk, .evq, .glb] ⊆ ps) : onlyNext s0 (execDebugReadComplete s) ps := by
  unfold execDebugReadComplete
  repeat' first
    | with_reducible assumption
    | with_reducible apply State.adkReply_only
    | with_reducible apply State.dbgResult_only
    | with_reducible apply State.adkResume_only
    | with_reducible apply ite_only
    | with_reducible apply ite_fst_only
    | with_reducible apply next_only
    | with_reducible intro _
    | split
    | dsimp only
    | ((with_reducible apply only_mk) <;> first
        | with_reducible exact fun _ => rfl
        | exact fun hn => absurd (hq (by decide)) hn
        | skip)
    | exact List.Subset.trans (by decide) hq
    | refine pair_only (by assumption) ?_
    | assumption

end Sys2Proof.Machine
end

