-- ==== Sys2Proof/Laws/OnlyRecompose.lean ====
section
/-! SUPPORT. What every operation of Recompose leaves alone. -/

set_option linter.unusedTactic false
set_option linter.unreachableTactic false
set_option linter.unusedVariables false

namespace Sys2Proof.Machine

theorem State.asCandidate_only {s0 : State} {ps : List Part} (s : State) (hs : s0.changesOnly s ps) (hq : [.comp] ⊆ ps) : s0.changesOnly (State.asCandidate s) ps := by
  unfold State.asCandidate
  repeat' first
    | with_reducible assumption
    | with_reducible apply ite_only
    | with_reducible apply ite_fst_only
    | with_reducible intro _
    | split
    | dsimp only
    | ((with_reducible apply only_mk) <;> first
        | with_reducible exact fun _ => rfl
        | exact fun hn => absurd (hq (by decide)) hn
        | skip)
    | exact List.Subset.trans (by decide) hq
    | refine pair_only (by assumption) ?_
    | assumption

theorem execImageValidationDone_only {s0 : State} {ps : List Part} (s : State) (hs : s0.changesOnly s ps) (hq : [.comp] ⊆ ps) : onlyNext s0 (execImageValidationDone s) ps := by
  unfold execImageValidationDone
  repeat' first
    | with_reducible assumption
    | with_reducible apply State.imgErr_only
    | with_reducible apply ite_only
    | with_reducible apply ite_fst_only
    | with_reducible apply next_only
    | with_reducible intro _
    | split
    | dsimp only
    | ((with_reducible apply only_mk) <;> first
        | with_reducible exact fun _ => rfl
        | exact fun hn => absurd (hq (by decide)) hn
        | skip)
    | exact List.Subset.trans (by decide) hq
    | refine pair_only (by assumption) ?_
    | assumption

theorem execLoadComplete_only {s0 : State} {ps : List Part} (s : State) (hs : s0.changesOnly s ps) (hq : [.free, .hb, .pkg, .tim, .ports, .bridles, .req, .coh, .ext, .lse, .adm, .tier, .xl, .cmp, .cpu, .clv, .atn, .comp, .sec, .log, .mod, .adk, .evq, .glb] ⊆ ps) : onlyNext s0 (execLoadComplete s) ps := by
  have sub : ∀ {l : List Part}, l ⊆ [.free, .hb, .pkg, .tim, .ports, .bridles, .req, .coh, .ext, .lse, .adm, .tier, .xl, .cmp, .cpu, .clv, .atn, .comp, .sec, .log, .mod, .adk, .evq, .glb] → l ⊆ ps := fun h => List.Subset.trans h hq
  have hc : ∀ (t : State) a, s0.changesOnly t ps → s0.changesOnly { t with comp := a } ps := by
    intro t a h p hp
    have := h p hp
    cases p <;> first
      | exact this
      | exact absurd (hq (by decide)) hp
  have hm : ∀ (t : State) a, s0.changesOnly t ps → s0.changesOnly { t with mod := a } ps := by
    intro t a h p hp
    have := h p hp
    cases p <;> first
      | exact this
      | exact absurd (hq (by decide)) hp
  unfold execLoadComplete
  refine next_only (ite_only (fun _ => hs) (fun _ => ite_only (fun _ => hc _ _ hs) (fun _ => ?_)))
  refine State.imgEmpty_only _ (State.trainAll_only _ _ (State.policyApply_only _ _ ?_ (sub (by decide))) (sub (by decide))) (sub (by decide))
  have h1 : ∀ (t : State), s0.changesOnly t ps → s0.changesOnly (t.govern s.candidate s.imgGates) ps :=
    fun t h => State.govern_only _ _ _ h (sub (by decide))
  have hr : s0.changesOnly (s.abortAgentMoves s.comp.run s.candidate) ps := State.abortAgentMoves_only _ _ _ hs (sub (by decide))
  generalize s.abortAgentMoves s.comp.run s.candidate = r at hr ⊢
  have h2 : ∀ e, s0.changesOnly (({ r with comp := r.loadedComp e } : State).countCmpo 0) ps :=
    fun e => State.countCmpo_only _ _ (hc _ _ hr) (sub (by decide))
  exact ite_only (fun _ => hm _ _ (State.changeState_only _ _ _ _ (h1 _ (h2 _)) (sub (by decide)))) (fun _ => h1 _ (h2 _))

theorem State.epochNotes_only {s0 : State} {ps : List Part} (s : State) (phase : BitVec 8) (but : Option Nat) (hs : s0.changesOnly s ps) (hq : [.pkg, .ports, .adk, .evq] ⊆ ps) : s0.changesOnly (State.epochNotes s phase but) ps := by
  unfold State.epochNotes
  repeat' first
    | with_reducible assumption
    | with_reducible apply State.sendFrom_only
    | with_reducible apply foldl_only
    | with_reducible apply foldl_fst_only
    | with_reducible apply ite_only
    | with_reducible apply ite_fst_only
    | with_reducible intro _
    | split
    | dsimp only
    | ((with_reducible apply only_mk) <;> first
        | with_reducible exact fun _ => rfl
        | exact fun hn => absurd (hq (by decide)) hn
        | skip)
    | exact List.Subset.trans (by decide) hq
    | refine pair_only (by assumption) ?_
    | assumption

theorem State.windowEvent_only {s0 : State} {ps : List Part} (s : State) (phase : Nat) (new : BitVec 4) (old : BitVec 4) (hs : s0.changesOnly s ps) (hq : [.adk, .evq] ⊆ ps) : s0.changesOnly (State.windowEvent s phase new old) ps := by
  unfold State.windowEvent
  repeat' first
    | with_reducible assumption
    | with_reducible apply State.event_only
    | with_reducible apply ite_only
    | with_reducible apply ite_fst_only
    | with_reducible intro _
    | split
    | dsimp only
    | ((with_reducible apply only_mk) <;> first
        | with_reducible exact fun _ => rfl
        | exact fun hn => absurd (hq (by decide)) hn
        | skip)
    | exact List.Subset.trans (by decide) hq
    | refine pair_only (by assumption) ?_
    | assumption

theorem State.epochNote_only {s0 : State} {ps : List Part} (s : State) (b : Nat) (f : Frame) (hs : s0.changesOnly s ps) (hq : [.pkg, .ports, .comp, .adk, .evq] ⊆ ps) : s0.changesOnly (State.epochNote s b f) ps := by
  unfold State.epochNote
  repeat' first
    | with_reducible assumption
    | with_reducible apply State.epochNotes_only
    | with_reducible apply State.windowEvent_only
    | with_reducible apply ite_only
    | with_reducible apply ite_fst_only
    | with_reducible intro _
    | split
    | dsimp only
    | ((with_reducible apply only_mk) <;> first
        | with_reducible exact fun _ => rfl
        | exact fun hn => absurd (hq (by decide)) hn
        | skip)
    | exact List.Subset.trans (by decide) hq
    | refine pair_only (by assumption) ?_
    | assumption

theorem execEpochNote_only {s0 : State} {ps : List Part} (port : BitVec 8) (frame : Frame) (s : State) (hs : s0.changesOnly s ps) (hq : [.free, .pkg, .ports, .bridles, .req, .coh, .ext, .lse, .tier, .xl, .cmp, .cpu, .clv, .atn, .comp, .sec, .log, .adk, .evq] ⊆ ps) : onlyNext s0 (execEpochNote port frame s) ps := by
  unfold execEpochNote
  repeat' first
    | with_reducible assumption
    | with_reducible apply State.arrive_only
    | with_reducible apply State.epochNote_only
    | with_reducible apply ite_only
    | with_reducible apply ite_fst_only
    | with_reducible apply next_only
    | with_reducible intro _
    | split
    | dsimp only
    | ((with_reducible apply only_mk) <;> first
        | with_reducible exact fun _ => rfl
        | exact fun hn => absurd (hq (by decide)) hn
        | skip)
    | exact List.Subset.trans (by decide) hq
    | refine pair_only (by assumption) ?_
    | assumption

theorem execApplyPrepared_only {s0 : State} {ps : List Part} (s : State) (hs : s0.changesOnly s ps) (hq : [.pkg, .ports, .req, .tier, .xl, .cpu, .clv, .atn, .comp, .sec, .log, .adk, .evq] ⊆ ps) : onlyNext s0 (execApplyPrepared s) ps := by
  unfold execApplyPrepared
  repeat' first
    | with_reducible assumption
    | with_reducible apply State.loadProgram_only
    | with_reducible apply State.endWork_only
    | with_reducible apply foldl_only
    | with_reducible apply foldl_fst_only
    | with_reducible apply ite_only
    | with_reducible apply ite_fst_only
    | with_reducible apply next_only
    | with_reducible intro _
    | split
    | dsimp only
    | ((with_reducible apply only_mk) <;> first
        | with_reducible exact fun _ => rfl
        | exact fun hn => absurd (hq (by decide)) hn
        | skip)
    | exact List.Subset.trans (by decide) hq
    | refine pair_only (by assumption) ?_
    | assumption

theorem State.hofRearm_only {s0 : State} {ps : List Part} (s : State) (a : List Section) (b : List Section) (hs : s0.changesOnly s ps) (hq : [.comp] ⊆ ps) : s0.changesOnly (State.hofRearm s a b) ps := by
  unfold State.hofRearm
  repeat' first
    | with_reducible assumption
    | with_reducible apply ite_only
    | with_reducible apply ite_fst_only
    | with_reducible intro _
    | split
    | dsimp only
    | ((with_reducible apply only_mk) <;> first
        | with_reducible exact fun _ => rfl
        | exact fun hn => absurd (hq (by decide)) hn
        | skip)
    | exact List.Subset.trans (by decide) hq
    | refine pair_only (by assumption) ?_
    | assumption

theorem execEpochFlip_only {s0 : State} {ps : List Part} (s : State) (hs : s0.changesOnly s ps) (hq : [.free, .hb, .pkg, .tim, .ports, .bridles, .req, .coh, .ext, .lse, .adm, .tier, .xl, .cmp, .cpu, .clv, .atn, .comp, .sec, .log, .mod, .adk, .evq, .glb] ⊆ ps) : onlyNext s0 (execEpochFlip s) ps := by
  unfold execEpochFlip
  repeat' first
    | with_reducible assumption
    | with_reducible apply State.countCmpo_only
    | with_reducible apply State.abortAgentMoves_only
    | with_reducible apply State.govern_only
    | with_reducible apply State.trainAll_only
    | with_reducible apply State.policyApply_only
    | with_reducible apply State.epochNotes_only
    | with_reducible apply State.windowEvent_only
    | with_reducible apply State.hofRearm_only
    | with_reducible apply ite_only
    | with_reducible apply ite_fst_only
    | with_reducible apply next_only
    | with_reducible intro _
    | split
    | dsimp only
    | ((with_reducible apply only_mk) <;> first
        | with_reducible exact fun _ => rfl
        | exact fun hn => absurd (hq (by decide)) hn
        | skip)
    | exact List.Subset.trans (by decide) hq
    | refine pair_only (by assumption) ?_
    | assumption

theorem execWindowClose_only {s0 : State} {ps : List Part} (s : State) (hs : s0.changesOnly s ps) (hq : [.pkg, .ports, .cpu, .comp, .adk, .evq] ⊆ ps) : onlyNext s0 (execWindowClose s) ps := by
  unfold execWindowClose
  repeat' first
    | with_reducible assumption
    | with_reducible apply State.startThreads_only
    | with_reducible apply State.imgEmpty_only
    | with_reducible apply State.epochNotes_only
    | with_reducible apply State.windowEvent_only
    | with_reducible apply foldl_only
    | with_reducible apply foldl_fst_only
    | with_reducible apply ite_only
    | with_reducible apply ite_fst_only
    | with_reducible apply next_only
    | with_reducible intro _
    | split
    | dsimp only
    | ((with_reducible apply only_mk) <;> first
        | with_reducible exact fun _ => rfl
        | exact fun hn => absurd (hq (by decide)) hn
        | skip)
    | exact List.Subset.trans (by decide) hq
    | refine pair_only (by assumption) ?_
    | assumption

theorem State.pullSector_only {s0 : State} {ps : List Part} (s : State) (b : Nat) (hs : s0.changesOnly s ps) (hq : [.pkg, .ports, .tier, .sec, .adk, .evq] ⊆ ps) : s0.changesOnly (State.pullSector s b).1 ps := by
  unfold State.pullSector
  repeat' first
    | with_reducible assumption
    | with_reducible apply State.setSector_only
    | with_reducible apply State.makeWay_only
    | with_reducible apply ite_only
    | with_reducible apply ite_fst_only
    | with_reducible intro _
    | split
    | dsimp only
    | ((with_reducible apply only_mk) <;> first
        | with_reducible exact fun _ => rfl
        | exact fun hn => absurd (hq (by decide)) hn
        | skip)
    | exact List.Subset.trans (by decide) hq
    | refine pair_only (by assumption) ?_
    | assumption

theorem State.evacuateSector_only {s0 : State} {ps : List Part} (s : State) (b : Nat) (hs : s0.changesOnly s ps) (hq : [.pkg, .ports, .tier, .adk, .evq] ⊆ ps) : s0.changesOnly (State.evacuateSector s b).1 ps := by
  unfold State.evacuateSector
  repeat' first
    | with_reducible assumption
    | with_reducible apply State.writeBack_only
    | with_reducible apply State.startZero_only
    | with_reducible apply State.dropSector_only
    | with_reducible apply ite_only
    | with_reducible apply ite_fst_only
    | with_reducible intro _
    | split
    | dsimp only
    | ((with_reducible apply only_mk) <;> first
        | with_reducible exact fun _ => rfl
        | exact fun hn => absurd (hq (by decide)) hn
        | skip)
    | exact List.Subset.trans (by decide) hq
    | refine pair_only (by assumption) ?_
    | assumption

theorem execSectorHandover_only {s0 : State} {ps : List Part} (block : BitVec 45) (s : State) (hs : s0.changesOnly s ps) (hq : [.pkg, .ports, .req, .coh, .ext, .tier, .xl, .cmp, .cpu, .clv, .atn, .comp, .sec, .log, .adk, .evq] ⊆ ps) : onlyNext s0 (execSectorHandover block s) ps := by
  have sub : ∀ {l : List Part}, l ⊆ [.pkg, .ports, .req, .coh, .ext, .tier, .xl, .cmp, .cpu, .clv, .atn, .comp, .sec, .log, .adk, .evq] → l ⊆ ps := fun h => List.Subset.trans h hq
  have hc : ∀ (t : State) a, s0.changesOnly t ps → s0.changesOnly { t with comp := a } ps := by
    intro t a h p hp
    have := h p hp
    cases p <;> first
      | exact this
      | exact absurd (hq (by decide)) hp
  have _hm : ∀ (t : State) a, s0.changesOnly t ps → s0.changesOnly { t with comp := a } ps := by
    intro t a h p hp
    have := h p hp
    cases p <;> first
      | exact this
      | exact absurd (hq (by decide)) hp
  refine next_only (ite_only (fun _ => hs) (fun _ => ite_only (fun _ => ?_) (fun _ => State.wakeBlock_only _ _ (hc _ _ ?_) (sub (by decide)))))
  all_goals
    exact ite_fst_only (fun _ => hs) (fun _ => ite_fst_only (fun _ => ite_fst_only
      (fun _ => State.pullSector_only _ _ hs (sub (by decide)))
      (fun _ => State.evacuateSector_only _ _ (State.pullSector_only _ _ hs (sub (by decide))) (sub (by decide))))
      (fun _ => State.evacuateSector_only _ _ hs (sub (by decide))))

theorem State.hofDisarm_only {s0 : State} {ps : List Part} (s : State) (i : Nat) (hs : s0.changesOnly s ps) (hq : [.comp] ⊆ ps) : s0.changesOnly (State.hofDisarm s i) ps := by
  unfold State.hofDisarm
  repeat' first
    | with_reducible assumption
    | with_reducible apply ite_only
    | with_reducible apply ite_fst_only
    | with_reducible intro _
    | split
    | dsimp only
    | ((with_reducible apply only_mk) <;> first
        | with_reducible exact fun _ => rfl
        | exact fun hn => absurd (hq (by decide)) hn
        | skip)
    | exact List.Subset.trans (by decide) hq
    | refine pair_only (by assumption) ?_
    | assumption

theorem State.rollBack_only {s0 : State} {ps : List Part} (s : State) (i : Nat) (line : Nat) (hs : s0.changesOnly s ps) (hq : [.pkg, .ports, .req, .coh, .ext, .tier, .xl, .cmp, .cpu, .clv, .atn, .comp, .sec, .log, .adk, .evq] ⊆ ps) : s0.changesOnly (State.rollBack s i line) ps := by
  unfold State.rollBack
  repeat' first
    | with_reducible assumption
    | with_reducible apply State.logWith_only
    | with_reducible apply State.countCmpo_only
    | with_reducible apply State.homeWrite_only
    | with_reducible apply State.wakeLine_only
    | with_reducible apply State.hofDisarm_only
    | with_reducible apply ite_only
    | with_reducible apply ite_fst_only
    | with_reducible intro _
    | split
    | dsimp only
    | ((with_reducible apply only_mk) <;> first
        | with_reducible exact fun _ => rfl
        | exact fun hn => absurd (hq (by decide)) hn
        | skip)
    | exact List.Subset.trans (by decide) hq
    | refine pair_only (by assumption) ?_
    | assumption

theorem execHandoffTimerExpiry_only {s0 : State} {ps : List Part} (index : BitVec 10) (s : State) (hs : s0.changesOnly s ps) (hq : [.pkg, .ports, .req, .coh, .ext, .tier, .xl, .cmp, .cpu, .clv, .atn, .comp, .sec, .log, .adk, .evq] ⊆ ps) : onlyNext s0 (execHandoffTimerExpiry index s) ps := by
  unfold execHandoffTimerExpiry
  repeat' first
    | with_reducible assumption
    | with_reducible apply State.seek_only
    | with_reducible apply State.snoop_only
    | with_reducible apply State.hofDisarm_only
    | with_reducible apply State.rollBack_only
    | with_reducible apply foldl_only
    | with_reducible apply foldl_fst_only
    | with_reducible apply ite_only
    | with_reducible apply ite_fst_only
    | with_reducible apply next_only
    | with_reducible intro _
    | split
    | dsimp only
    | ((with_reducible apply only_mk) <;> first
        | with_reducible exact fun _ => rfl
        | exact fun hn => absurd (hq (by decide)) hn
        | skip)
    | exact List.Subset.trans (by decide) hq
    | refine pair_only (by assumption) ?_
    | assumption

end Sys2Proof.Machine
end

