-- ==== Sys2Proof/Laws/OnlyTick.lean ====
section
/-! SUPPORT. What every operation of Tick leaves alone. -/

set_option linter.unusedTactic false
set_option linter.unreachableTactic false
set_option linter.unusedVariables false

namespace Sys2Proof.Machine

theorem State.tick_only {s0 : State} {ps : List Part} (s : State) (hs : s0.changesOnly s ps) (hq : [.tim] ⊆ ps) : s0.changesOnly (State.tick s) ps := by
  unfold State.tick
  repeat' first
    | with_reducible assumption
    | with_reducible apply ite_only
    | with_reducible apply ite_fst_only
    | with_reducible intro _
    | split
    | dsimp only
    | ((with_reducible apply only_mk) <;> first
        | with_reducible exact fun _ => rfl
        | exact fun hn => absurd (hq (by decide)) hn
        | skip)
    | exact List.Subset.trans (by decide) hq
    | refine pair_only (by assumption) ?_
    | assumption

end Sys2Proof.Machine
end

