-- ==== Sys2Proof/Laws/OnlyStep.lean ====
section
/-! SUPPORT. What every operation of Step leaves alone. -/

set_option linter.unusedTactic false
set_option linter.unreachableTactic false
set_option linter.unusedVariables false

namespace Sys2Proof.Machine

theorem State.popped_only {s0 : State} {ps : List Part} (s : State) (rest : List Instr) (hs : s0.changesOnly s ps) (hq : [.pending] ⊆ ps) : s0.changesOnly (State.popped s rest) ps := by
  unfold State.popped
  repeat' first
    | with_reducible assumption
    | with_reducible apply ite_only
    | with_reducible apply ite_fst_only
    | with_reducible intro _
    | split
    | dsimp only
    | ((with_reducible apply only_mk) <;> first
        | with_reducible exact fun _ => rfl
        | exact fun hn => absurd (hq (by decide)) hn
        | skip)
    | exact List.Subset.trans (by decide) hq
    | refine pair_only (by assumption) ?_
    | assumption

theorem State.withFetchWord_only {s0 : State} {ps : List Part} (s : State) (nbits : Nat) (w : Nat) (hs : s0.changesOnly s ps) (hq : [.pending] ⊆ ps) : s0.changesOnly (State.withFetchWord s nbits w) ps := by
  unfold State.withFetchWord
  repeat' first
    | with_reducible assumption
    | with_reducible apply ite_only
    | with_reducible apply ite_fst_only
    | with_reducible intro _
    | split
    | dsimp only
    | ((with_reducible apply only_mk) <;> first
        | with_reducible exact fun _ => rfl
        | exact fun hn => absurd (hq (by decide)) hn
        | skip)
    | exact List.Subset.trans (by decide) hq
    | refine pair_only (by assumption) ?_
    | assumption

end Sys2Proof.Machine
end

