-- ==== Sys2Proof/Laws/Ports.lean ====
section
/-! SUPPORT. A port of its own, and what operations leave at the other ports. -/

namespace Sys2Proof.Machine

@[simp] theorem State.otherPorts_refl (s : State) (b : Nat) : s.otherPorts s b := fun _ _ => rfl

theorem State.otherPorts.trans {s t u : State} {b : Nat} (h : s.otherPorts t b) (k : t.otherPorts u b) : s.otherPorts u b :=
  fun p hp => (k p hp).trans (h p hp)

theorem State.otherPorts_of_ports {s t u : State} {b : Nat} (h : s.otherPorts t b) (e : u.ports = t.ports) : s.otherPorts u b :=
  fun p hp => by rw [← h p hp]; simp only [State.port, e]

theorem State.otherPorts_onLink {s t : State} {b : Nat} (f : Link → Link) (h : s.otherPorts t b) : s.otherPorts (t.onLink b f) b :=
  h.trans (fun p hp => by simp [State.onLink, State.setPort, State.port, Table.read_write_other _ _ _ hp])

theorem State.otherPorts_onTc {s t : State} {b : Nat} (f : Traffic → Traffic) (h : s.otherPorts t b) : s.otherPorts (t.onTc b f) b :=
  h.trans (fun p hp => by simp [State.onTc, State.setPort, State.port, Table.read_write_other _ _ _ hp])

/-- Where only parts other than the ports change, every port stays as it is. -/
theorem State.ports_of_only {s t : State} {ps : List Part} (h : s.changesOnly t ps) (hp : Part.ports ∉ ps) : t.ports = s.ports :=
  h .ports hp

theorem State.event_ports (s : State) (c d : Nat) (r : BitVec 16) (p q : Nat) : (s.event c d r p q).ports = s.ports :=
  State.ports_of_only (State.event_only s c d r p q (only_refl s [.evq, .adk]) (by decide)) (by decide)

theorem State.logE_ports (s : State) (c d : Nat) (r : BitVec 16) (p : Nat) (m : Bool) : (s.logE c d r p m).ports = s.ports :=
  State.ports_of_only (State.logE_only s c d r p m (only_refl s [.log, .evq, .adk]) (by decide)) (by decide)

theorem State.logWith_ports (s : State) (c d : Nat) (r : BitVec 16) (p a b e : Nat) : (s.logWith c d r p a b e).ports = s.ports :=
  State.ports_of_only (State.logWith_only s c d r p a b e (only_refl s [.log, .evq, .adk]) (by decide)) (by decide)

@[simp] theorem State.event_link (s : State) (c d : Nat) (r : BitVec 16) (p q b : Nat) : (s.event c d r p q).link b = s.link b := by
  simp only [State.link, State.port, State.event_ports]

@[simp] theorem State.event_port (s : State) (c d : Nat) (r : BitVec 16) (p q b : Nat) : (s.event c d r p q).port b = s.port b := by
  simp only [State.port, State.event_ports]

@[simp] theorem State.logE_link (s : State) (c d : Nat) (r : BitVec 16) (p : Nat) (m : Bool) (b : Nat) :
    (s.logE c d r p m).link b = s.link b := by
  simp only [State.link, State.port, State.logE_ports]

@[simp] theorem State.logWith_link (s : State) (c d : Nat) (r : BitVec 16) (p a b e x : Nat) :
    (s.logWith c d r p a b e).link x = s.link x := by
  simp only [State.link, State.port, State.logWith_ports]

/-- What an event of a saturation leaves: every part but the event queue and the link. -/
theorem State.satEvent_ports (s : State) (j : Bool) (i : Nat) (r : BitVec 16) (a : Nat) : (s.satEvent j i r a).ports = s.ports := by
  unfold State.satEvent
  split
  · exact State.event_ports _ _ _ _ _ _
  · rfl

@[simp] theorem State.satEvent_link (s : State) (j : Bool) (i : Nat) (r : BitVec 16) (a b : Nat) :
    (s.satEvent j i r a).link b = s.link b := by
  simp only [State.link, State.port, State.satEvent_ports]

@[simp] theorem State.satEvent_port (s : State) (j : Bool) (i : Nat) (r : BitVec 16) (a b : Nat) :
    (s.satEvent j i r a).port b = s.port b := by
  simp only [State.port, State.satEvent_ports]

/-- The link of a port after a count at it. -/
def Link.counted (l : Link) (i n : Nat) : Link :=
  let b := bump (match i with
    | 0 => l.cntCrc | 1 => l.cntReplay | 2 => l.cntDiscard | 3 => l.cntLate | _ => l.cntTdead) n
  let l := { l with sat := satSet l.sat i b.2.1 }
  match i with
    | 0 => { l with cntCrc := b.1 } | 1 => { l with cntReplay := b.1 } | 2 => { l with cntDiscard := b.1 }
    | 3 => { l with cntLate := b.1 } | _ => { l with cntTdead := b.1 }

/-- Counting at a port changes that port's counter and its saturation bits, and maybe sends the event of a saturation. -/
@[simp] theorem State.countPrt_link (s : State) (p i n : Nat) : (s.countPrt p i n).link p = (s.link p).counted i n := by
  unfold State.countPrt
  rw [State.satEvent_link, State.link_onLink_same]
  rfl

theorem State.otherPorts_countPrt {s t : State} {b : Nat} (i n : Nat) (h : s.otherPorts t b) : s.otherPorts (t.countPrt b i n) b := by
  unfold State.countPrt
  exact State.otherPorts_of_ports (State.otherPorts_onLink _ h) (State.satEvent_ports _ _ _ _ _)

theorem State.plainPort.alive {s : State} {p : Nat} (h : s.plainPort p) : s.alive = true := h.1

theorem State.plainPort.base {s : State} {p : Nat} (h : s.plainPort p) : s.base p = p := by
  simp [State.base, h.2.1]

theorem State.plainPort.bundled {s : State} {p : Nat} (h : s.plainPort p) : s.bundled p = false := by
  simp [State.bundled, h.base, h.2.2]

theorem State.plainPort.isMember {s : State} {p : Nat} (h : s.plainPort p) : s.isMember p = true := by
  simp [State.isMember, h.bundled]

theorem State.plainPort.members {s : State} {p : Nat} (h : s.plainPort p) : s.members p = [p] := by
  simp [State.members, h.base, h.2.2]

end Sys2Proof.Machine
end

