-- ==== Sys2Proof/Tests/Slice0.lean ====
section
/-! SUPPORT. Tests: ill-formed commands that the check refuses, small facts whose values come from the worked examples of the
spec, and for each statement about hypotheses a state and operands that meet them, clause by clause. -/

/-! ### Commands that are not well formed -/

namespace Sys2Proof

set_option Elab.async false

theorem test_wf_payload : (Instr.ld 3 { payload := List.replicate 65 0 } []).wf = false
    ∧ (Instr.ld 3 { payload := List.replicate 64 0 } []).wf = true ∧ (Instr.st 3 { payload := List.replicate 4096 0 } []).wf = true
    ∧ (Instr.st 3 { payload := List.replicate 4160 0 } []).wf = false := by decide +kernel
theorem test_wf_lcw : (Instr.lcwInit 3 { typ := 3 }).wf = false ∧ (Instr.lcwInit 3 { typ := 2 }).wf = true
    ∧ (Instr.lcwNormal 3 { credits := List.replicate 9 0 }).wf = false
    ∧ (Instr.lcwNak 3 { typ := 1, credits := List.replicate 8 0 }).wf = true := by decide +kernel
theorem test_wf_hit : (Instr.scrubWindow [{ what := 0, index := 0, symbols := 0 }]).wf = false
    ∧ (Instr.scrubWindow [{ what := 0, index := 0, symbols := 1 }]).wf = true := by decide +kernel
theorem test_wf_edge : (Instr.trellisRetrainTimeout 14).wf = false ∧ (Instr.trellisRetrainTimeout 12).wf = true
    ∧ (Instr.trellisEdgeRetrainDone 113).wf = false ∧ (Instr.trellisEdgeRetrainDone 111).wf = true := by decide +kernel
theorem test_wf_lines : linesWf (List.replicate 63 0) = false ∧ linesWf (List.replicate 2112 0) = false
    ∧ linesWf (List.replicate 2048 0) = true := by decide +kernel
theorem test_wf_words : (Instr.imgwr 9 0 (List.replicate 65 0)).wf = false ∧ (Instr.imgwr 9 0 (List.replicate 64 0)).wf = true := by
  decide +kernel
theorem test_wf_ins : (Instr.alu 1 2 { fn := 16 }).wf = false ∧ (Instr.alu 1 2 { fn := 15 }).wf = true
    ∧ (Instr.pldx 1 2 { fn := 2 }).wf = false ∧ (Instr.waitl 1 2 { fn := 2047 }).wf = true := by decide +kernel
theorem test_wf_units : (Instr.hcrcDiscard 3 { payload := List.replicate 65 0 } 9).wf = false ∧ (Instr.hcrcDiscard 3 { payload := List.replicate 64 0 } 9).wf = true := by decide +kernel
theorem test_table_has_no_words : decodeTableWord 16 7 = none := by decide

end Sys2Proof

namespace Sys2Proof.Machine

set_option Elab.async false

/-! ### Values of the worked examples -/

/-- The FPA of chapter 06 after Table 06-1. -/
theorem test_fpa : fpaModule 0x0C0004C0200040 = 1 ∧ fpaExtent 0x0C0004C0200040 = 0x100013 ∧ fpaPage 0x0C0004C0200040 % 512 = 1
    ∧ 0x0C0004C0200040 % 2 ^ 21 = 0x40 := by decide +kernel
/-- The addresses of a queue and a core, chapter 17. -/
theorem test_addresses : queAddr 203 5 0 = 0x030000CB2500 ∧ addrType 0x050002351018 = 5 ∧ addrInst 0x050002351018 = 565
    ∧ addrPage 0x050002351018 = 1 ∧ addrOff 0x050002351018 = 0x18 := by decide +kernel
/-- The two reads of the walk of chapter 07. -/
theorem test_walk : 0x004000020000 + 8 * (0x7F2A004C3D5E80 / 2 ^ levelShift 1 % levelEntries 1) = 0x004000020308
    ∧ 0x004000030400 + 8 * (0x7F2A004C3D5E80 / 2 ^ levelShift 0 % levelEntries 0) = 0x0040000307A8 := by decide +kernel
/-- Wire sizes of chapter 12 and credits of R61. -/
theorem test_wire : wireSize { payload := List.replicate 4096 0 } = 4137 ∧ wireSize { payload := List.replicate 1024 0 } = 1065
    ∧ creditCost { payload := List.replicate 4096 0 } = 65 := by decide +kernel
/-- The effect of arrival order, chapter 10: 2^24 and two ones in either order. -/
theorem test_arrival_order : add32 (add32 0x4B800000 0x3F800000) 0x3F800000 = 0x4B800000
    ∧ add32 (add32 0x3F800000 0x3F800000) 0x4B800000 = 0x4B800001 := by decide +kernel
/-- The spare map at test, chapter 01: LC15 is CD16 and LC31 is CD33. -/
theorem test_fused_map : fusedMap.length = 32 ∧ fusedMap.getD 15 0 = 16 ∧ fusedMap.getD 31 0 = 33 := by decide +kernel
/-- The generator polynomial has the six roots that R349 names. -/
theorem test_codeword_roots : (List.range 6).map (rsSyndrome (1 :: rsGen 6)) = [0, 0, 0, 0, 0, 0] := by decide +kernel
/-- The patterns of NaN in the FP8 formats (Table 09-12). -/
theorem test_nan_bits_fp8 : e5m2.nanBits = 0x7E ∧ e4m3.nanBits = 0x7F := by decide +kernel
/-- The published check values of the two codes over the digits 1 to 9. -/
theorem test_crc : crc16 [0x31, 0x32, 0x33, 0x34, 0x35, 0x36, 0x37, 0x38, 0x39] = 0x29B1
    ∧ crc32c [0x31, 0x32, 0x33, 0x34, 0x35, 0x36, 0x37, 0x38, 0x39] = 0xE3069283 := by decide +kernel
/-- The first bytes of the published digest of the empty message. -/
theorem test_sha3 : (sha3 []).take 4 = [0xA7, 0xFF, 0xC6, 0xF8] := by decide +kernel

/-! ### States of the witnesses -/

/-- A running module. -/
def run : State := { State.reset with mod := { State.reset.mod with state := .service } }
def State.tickTo (s : State) (t : FT) : State := { s with tim := { s.tim with ft := t } }
/-- The adapter link is up and SD0 serves. -/
def State.up (s : State) : State := { s with adk := { s.adk with state := .up } }
def State.asRole (s : State) (r : Role) : State :=
  let s := s.up
  match r with
  | .operator => s
  | .installer => { s with sec := { s.sec with instEnd := some (s.now + 1000), pres := true } }
  | .maker => { s with sec := { s.sec with maker := true } }
def bundle : State := (run.onLink 3 (fun l => { l with cls := 2, bundleSize := 1, membersUp := 3, state := .hello, solo := .opened })).onLink 4
  (fun l => { l with cls := 2, bundleSize := 1, bundleOff := 1, signal := true, solo := .opened })
/-- Thread 3 of core 5 has a program at 0x01000000 and is READY there. -/
def progSection : Section := { ty := 11, inst := 0, len := 1024, cells := [(0, 1), (2, 1), (7, 1), (9, 1), (96, 5), (106, 3), (111, 1)] }
def prog (f : Thread → Thread) (x : Table (BitVec 64)) : State :=
  ({ run with comp := { run.comp with run := [progSection] } } : State).onThread 5 3 (fun t => f { t with state := .ready, pc := 0x01000000, x := x })
/-- Core 5 with a failed completion to come for thread 3, which has an earlier failure in STATUS. -/
def poolState : State := ((prog (fun t => { t with mcnt := 1, pend := 4 }) []).onCore 5 (fun x => { x with comps := [{ n := 9, tid := 3, sink := .posted, frame := { status := 3 } }] })).onThread 5 3 (fun x => { x with statusCode := 5 })
def State.withStore (s : State) (k t : Nat) : State :=
  { s with req := { s.req with nextN := 8, reqs := [{ n := 7, origin := .thread k t .posted, frame := { opcode := 0x12 }, stage := .staged }] } }
def State.needBar (s : State) (b n : Nat) (here : List Nat) : State :=
  { s with cpu := { s.cpu with barNeed := [(b, n)], barHere := Table.write [] s.cpu.barHere b here } }

/-- Unit 0x20 is pavilion 2, which has core 5 and port 3; units 0x30 and 0x31 lie behind ports 3 and 4. -/
def imgSections : List Section := [
  { ty := 4, inst := 0, len := 0x20000, cells := [(0x40, 2), (0x41, 0x40), (0x60, 3), (0x61, 0x80), (0x62, 4), (0x63, 0x80), (0x64, 5), (0x65, 0x80)] },
  { ty := 5, inst := 2, len := 2048, cells := [(0, 0x20), (2, 0xFF), (16, 8), (48, 0x20)] },
  { ty := 6, inst := 2, len := 2, cells := [] }, progSection]
/-- A module that serves one extent of tenant 7 in T0, at TVA 0x4000. -/
def img (x : Table (BitVec 64)) : State :=
  let s := prog (fun t => t) x
  let s := { s with comp := { s.comp with run := imgSections } }
  let s := s.onCore 5 (fun c => { c with pvUnit := 0x20, tenant := 7 })
  let s := s.setExtent 1 { state := .active, pv := 2, tenant := 7, share := 1 }
  let s := { s with xl := { s.xl with tlb := [(0, [{ tenant := 7, tva := 0x4000, size := 14, fpa := 2 ^ 30 + 0x8000, w := true }]), (69, [{ tenant := 7, tva := 0x4000, size := 14, fpa := 2 ^ 30 + 0x8000, w := true }])] } }
  let s := s.setSector (2 ^ 19 + 16) { valid := BitVec.allOnes 32 }
  let s := { s with tier := { s.tier with mem := s.tier.mem.write (2 ^ 30 + 0x8000) [1, 2, 3, 4, 5, 6, 7, 8] } }
  (s.onLink 3 (fun l => { l with cls := 2, state := .opened, peerKnown := true })).onLink 4 (fun l => { l with cls := 0, state := .opened, peerKnown := true, tenantSet := [7] })
def State.moveTlb (s : State) : State := { s with xl := { s.xl with tlb := [(16, [{ tenant := 7, tva := 0x4000, size := 14, fpa := 2 ^ 30 + 0x8000, w := true }])] } }
def sendS : State := (img [(1, 0x400), (2, 0x500), (3, 0x600)]).localWrite 5 0x400
  ((({ opcode := 0x70, dst := 0x30, vc := 4, length := 1, addr := 0x50000 } : Frame)).header)
/-- The same with the extent coherent in domain 2, whose agents 0 and 1 are units 0x31 and 0x30, and a directory entry. -/
def coh (d : DirEntry) : State :=
  let s := img []
  let s := s.setExtent 1 { s.extent 1 with coherent := true, dom := 2 }
  let s := s.onDom 2 (fun x => { x with tenant := 7, state := .up, enable := true, members := [(0, 0x31), (1, 0x30)] })
  s.setDir ((2 ^ 30 + 0x8000) / 64) d
/-- Port 3 is an A-port that admits tenant 7: what it carries is under no lot key. -/
def State.asA (s : State) : State := s.onLink 3 (fun l => { l with cls := 0, tenantSet := [7] })
def imgA : State := (img []).asA
def cohA (d : DirEntry) : State := (coh d).asA
def State.withReq (s : State) (r : Req) : State := { s with req := { s.req with reqs := [r] } }
def State.withSnoop (s : State) (x : Snoop) : State := { s with coh := { s.coh with snoops := [x] } }
def State.withTenant (s : State) : State := s.onTenant 7 (fun x => { x with state := .active })
/-- Pavilion 2 has the handles of cluster 20, whose cores are SERVICE cores; handle 40965 is as given. -/
def att (f : Handle → Handle) : State :=
  let s := img []
  let s := { s with comp := { s.comp with run := { ty := 10, inst := 0, len := 4096, cells := (List.range 8).map (fun j => (640 + 4 * j, 2)) } :: s.comp.run } }
  let s := { s with adm := { s.adm with recs := [(4, { pv := 2, tenant := 7, resv := { seq := 4, coll := 4 }, admitted := true })] } }
  let s := { s with atn := { s.atn with pvs := [(2, { enable := true, first := 20, n := 1, adm := 4 })] } }
  s.onHandle 40965 f
/-- A unit that lies behind a port, one stage on. -/
def State.awayTo (s : State) (u p : Nat) : State :=
  { s with comp := { s.comp with run := s.comp.run.map (fun x => if x.ty = 4 then { x with cells := (x.cells.write (2 * u) [BitVec.ofNat 8 p, 0xC1]) } else x) } }
/-- Identifier 5, of group 3 with units 0x30 and 0x31, at cluster 20. -/
def col (f : Coll → Coll) : State :=
  let s := att id
  let s := s.onGroup 3 (fun _ => { tenant := 7, size := 2, members := [(0, { unit := 0x30 }), (1, { unit := 0x31 })] })
  s.setColl 5 (f { enable := true, slots := 8, cluster := 20, adm := 4, group := 3, state := .idle })
def attA (f : Handle → Handle) : State := (att f).asA
def colA (f : Coll → Coll) : State := (col f).asA
def State.selColl (s : State) (i : Nat) : State := { s with clv := { s.clv with bindSel := BitVec.ofNat 12 i, grpSel := 3 } }
/-- A tray of 1,024 slots in tier 1, an admission record of 512 pages, and the arguments of an ASSIGN. -/
def State.withPool (s : State) : State :=
  let s := s.onTray 2 (fun _ => { tier := 1, state := .online, slots := 1024 })
  { s with adm := { s.adm with recs := [(4, { pv := 2, tenant := 7, resv := { t1 := 1 }, admitted := true })] }
           ext := { s.ext with argTenant := 7, argPv := 2, argShare := 1, argAdm := 4, argOwner := 0x31 } }
def State.selLease (s : State) (i : Nat) : State := { s with lse := { s.lse with sel := BitVec.ofNat 12 i } }
def State.noExt (s : State) : State := { s with ext := { s.ext with tab := [] } }
def State.ownExt (s : State) : State := s.setExtent 1 { s.extent 1 with owner := 0x30 }
def State.withPool2 (s : State) : State :=
  { s with adm := { s.adm with recs := [(0, { pv := 2, tenant := 7, resv := { t1 := 1, t2 := 1 }, admitted := true })] } }
def State.migOff (s : State) : State := { s with tier := { s.tier with migOn := false } }
def State.withPages (s : State) : State := { s with tier := { s.tier with pages := [(4, { heat := 9 }), (5, { heat := 1, res := 1 })] } }
def State.withTreq (s : State) (q : TrayReq) : State := { s with tier := { s.tier with reqs := [q] } }
def State.withPg (s : State) (p : Nat × TierPage) : State := { s with tier := { s.tier with pages := [p] } }
def State.withMove (s : State) (m : Move) : State := { s with tier := { s.tier with moves := [m] } }
def State.withWipe (s : State) (k : Nat) : State := { s with tier := { s.tier with wiping := [(k, 7)] } }
def State.extWaits (s : State) : State := { s with ext := { s.ext with waiting := true } }
def State.selTray (s : State) (n : BitVec 9) : State := { s with tier := { s.tier with traySel := n } }
def State.selPage (s : State) (n : BitVec 30) : State := { s with tier := { s.tier with tpSel := n } }
def State.perst0 (s : State) : State := { s with mod := { s.mod with perst := 0 } }
def State.withWalk (s : State) (w : Walk) : State := { s with xl := { s.xl with walks := [w] } }
def State.withInv (s : State) (f : Xlate → Xlate) : State := { s with xl := f s.xl }
def State.withRoom (s : State) (x : Nat × BitVec 2 × Nat × Bool) : State := { s with tier := { s.tier with makeRoom := [x] } }
def State.putLeaf (s : State) : State := { s with tier := { s.tier with mem := s.tier.mem.write (2 ^ 30 + 0x8008) (leBytes 8 (2 ^ 30 + 0x8007)) } }
def State.ptwAt (s : State) (a : Nat) : State := { s with xl := { s.xl with ptwAddr := BitVec.ofNat _ a } }
def State.dbgAt (s : State) (a : Nat) : State := { s with sec := { s.sec with dbgAddr := BitVec.ofNat _ a } }
def State.withOut (s : State) (q : AdkFrame) : State := { s with adk := { s.adk with outstanding := [q] } }
def State.ptwDone (s : State) (x : BitVec 16 × Bool × BitVec 6 × BitVec 64) : State := { s with xl := { s.xl with ptwDone := some x } }
def State.dbgDone (s : State) (x : BitVec 16 × BitVec 6 × List Byte) : State := { s with sec := { s.sec with dbgDone := some x } }
def State.locked (s : State) : State := { s with tim := { s.tim with state := .locked } }
def State.stopGates (s : State) : State := { s with tim := { s.tim with state := .lost } }
def State.onComp (s : State) (f : Composition → Composition) : State := { s with comp := f s.comp }
def State.inState (s : State) (m : ModState) : State := { s with mod := { s.mod with state := m } }
def State.bootDone (s : State) : State := { s with mod := { s.mod with bootStep := 6 } }
def State.hofLine (s : State) : State := { s with tier := { s.tier with mem := s.tier.mem.write (2 ^ 30 + 0x8000 + 4) [2] } }

/-- The outcome of a verdict that has one. -/
def okOf (x : Verdict) : EngOut := match x with | .ok o => o | .error _ => {}
def isOk (x : Verdict) : Bool := match x with | .ok _ => true | .error _ => false
theorem ok_okOf {x : Verdict} (h : isOk x = true) : x = .ok (okOf x) := by
  cases x with
  | ok _ => rfl
  | error _ => cases h

/-- A module without power on the contacts, its main path closed. -/
def offState : State := { run.powerOff with mod := { run.powerOff.mod with mainPath := true } }
/-- The threads of core 5 in `poolState`: only thread 3 is not as at reset. -/
theorem poolState_thread (i : Nat) : (poolState.thread 5 i).state ≠ .waitMem := by
  have e : (poolState.core 5).threads = [(3, poolState.thread 5 3)] := by decide +kernel
  have e2 : poolState.thread 5 i = Table.read {} [(3, poolState.thread 5 3)] i := by
    show Table.read {} (poolState.core 5).threads i = _
    rw [e]
  rw [e2]
  by_cases hi : i = 3
  · subst hi; decide +kernel
  · simp [Table.read, hi]
/-- What a payload becomes under a lot key comes back under the same. -/
theorem lotCrypt_twice (k : BitVec 4) (x : FT) (up : Bool) (n : Nat) (bs : List Byte) : lotCrypt k x up n (lotCrypt k x up n bs) = bs := by
  exact List.ext_getElem (by simp [lotCrypt]) (by intros; simp [lotCrypt, BitVec.xor_assoc])
/-- The checks of a port on a frame already in the plain. -/
def checks (s : State) (b : Nat) (f : Frame) : State × Entry :=
  let x := s.linkEntry b f
  let x := afterward x (fun s f => s.formEntry b f)
  let x := afterward x (fun s f => s.cbfEntry b f)
  let x := afterward x (fun s f => s.headerEntry b f)
  let x := afterward x (fun s f => s.redEntry b f)
  afterward x (fun s f => s.unitEntry b f)
/-- An S-port, and a sub-request in the plain and under its lot key. -/
def subState : State := (att id).onLink 3 (fun l => { l with cls := 2 })
def subPlain : Frame := ({ opcode := 0x82, vc := 5, dst := 0x20, src := 0x30, tenant := 7, length := 3, tag := 9, handle := 40965, payload := (leBytes 1 1 ++ leBytes 1 0 ++ leBytes 2 0x40 ++ leBytes 2 0 ++ leBytes 1 0 ++ leBytes 1 1 ++ leBytes 1 1 ++ leBytes 1 64 ++ leBytes 2 1 ++ leBytes 4 0x3F800000 ++ leBytes 8 (2 ^ 21) ++ leBytes 4 0 ++ leBytes 4 50 ++ fill 8 0 ++ leBytes 8 0 ++ leBytes 2 1 ++ leBytes 2 0x30 ++ fill 12 0 ++ fill 128 1) } : Frame)
def subLink : State := (subState.linkAccept 3 5 (creditCost subPlain)).1
def subFrame : Frame := subLink.lotFrame 3 false ((subLink.link 3).gotNum - 1) subPlain
theorem subFrame_plain : subLink.lotFrame 3 false ((subLink.link 3).gotNum - 1) subFrame = subPlain := by
  have h : ¬(subPlain.vc = 6 ∨ ((subLink.link 3).cls ≠ 1 ∧ (subLink.link 3).cls ≠ 2)) := by decide +kernel
  have e : subFrame = { subPlain with payload := lotCrypt (Table.read 0 subLink.sec.lotIdx 3) (subLink.linkNonce 3) (decide (subLink.glb.deviceId.toNat < (subLink.link 3).lastId.toNat)) ((subLink.link 3).gotNum - 1) subPlain.payload } := by
    unfold subFrame State.lotFrame
    rw [if_neg h]
    simp only [Bool.false_eq_true, if_false]
  have h' : ¬(subFrame.vc = 6 ∨ ((subLink.link 3).cls ≠ 1 ∧ (subLink.link 3).cls ≠ 2)) := by rw [e]; exact h
  unfold State.lotFrame
  rw [if_neg h', e]
  simp only [Bool.false_eq_true, if_false, lotCrypt_twice]
theorem subInspect : subLink.inspect 3 subFrame = checks subLink 3 subPlain := by
  have h (s : State) (f g : Frame) (e : s.lotFrame 3 false ((s.link 3).gotNum - 1) f = g) : s.inspect 3 f = checks s 3 g := by subst e; rfl
  exact h _ _ _ subFrame_plain
theorem subCost : subFrame.vc = 5 ∧ creditCost subFrame = creditCost subPlain := by decide +kernel
theorem subBase : subState.base 3 = 3 := by decide +kernel
theorem subTaken : subState.takenAs 3 subFrame = some subPlain := by
  unfold State.takenAs
  rw [subCost.1, subCost.2, subBase]
  rw [if_pos (by decide +kernel)]
  rw [show (subState.linkAccept 3 5 (creditCost subPlain)).1 = subLink from by unfold subLink; rfl, subInspect]
  decide +kernel
theorem subEntered : (checks subLink 3 subPlain).1 = subState.entered 3 subFrame := by
  unfold State.entered
  rw [subCost.1, subCost.2, subBase]
  exact congrArg (·.1) subInspect.symm
/-- A frame waits at site 9, and the router that it goes to next is full. -/
def crowd : Transit := { site := 10, yx := false, dest := 12, port := 0, queue := none, item := { frame := {} } }
def crowded : State := { run with pkg := { run.pkg with transit := { crowd with site := 9 } :: List.replicate trellisDepth crowd } }
theorem crowded_full : trellisDepth ≤ crowded.trellisUsed 10 false 0 := by
  have h : crowded.trellisUsed 10 false 0 = (({ crowd with site := 9 } :: List.replicate trellisDepth crowd).filter
      (fun t => t.site == 10 && t.yx == false && t.item.frame.vc == 0)).length := rfl
  rw [h, List.filter_cons_of_neg (by decide), List.filter_replicate_of_pos (by decide), List.length_replicate]
/-- Fabric time stalls. -/
def stalled : State := { run with tim := { run.tim with stall := 100 } }

/-! ### One witness for each statement with hypotheses, one part for each clause -/

theorem witness_IdleStepLetsTimePass :
    (∃ (s : State), s.pending = [] ∧ s.mod.state ≠ .off ∧ s.tim.stall ≤ 1 ∧ s.tim.slew = 0)
    ∧ (∃ (s : State), s.pending = [] ∧ s.mod.state = .off) :=
  ⟨⟨run, by decide +kernel⟩,
   ⟨run.powerOff, by decide +kernel⟩⟩

theorem witness_StepKeepsOrder : ∃ s t : State, s.orderly ∧ step s = .next t :=
  ⟨{ State.reset with pending := [.adkLinkLoss] }, _, show State.reset.orderly from by constructor <;> decide +kernel, rfl⟩

theorem witness_StewardHeartbeat :
    (∃ (s : State), s.beating = true ∧ s.hb.sentAt + usT ≤ s.now)
    ∧ (∃ (s : State), s.beating = true ∧ s.hb.inFlight.isSome = true)
    ∧ (∃ (s : State), s.beating = true ∧ s.hb.replying = true)
    ∧ (∃ (s : State), s.beating = true ∧ s.hb.sd0Heard + 20 * usT ≤ s.dieFt sd0Site)
    ∧ (∃ (s : State), s.beating = true ∧ s.hb.sd1Heard + 20 * usT ≤ s.now) :=
  ⟨⟨(let y := run; { y with hb := { y.hb with sentAt := 0 }, tim := { y.tim with ft := 10 ^ 9 } }), by decide +kernel⟩,
   ⟨(let y := run; { y with hb := { y.hb with inFlight := some 5 }, tim := { y.tim with ft := 10 ^ 9 } }), by decide +kernel⟩,
   ⟨(let y := run; { y with hb := { y.hb with replying := true }, tim := { y.tim with ft := 10 ^ 9 } }), by decide +kernel⟩,
   ⟨(let y := run; { y with hb := { y.hb with sd0Heard := 0 }, tim := { y.tim with ft := 10 ^ 9 } }), by decide +kernel⟩,
   ⟨(let y := run; { y with hb := { y.hb with sd1Heard := 0 }, tim := { y.tim with ft := 10 ^ 9 } }), by decide +kernel⟩⟩

theorem witness_TrellisHops :
    (∃ (s : State) (site : BitVec 6) (yx : Bool) (vc : BitVec 3) (replays : BitVec 4) (i : Nat) (x : Transit),
        s.mod.state ≠ .off ∧ s.trellisHead site.toNat yx vc = some i ∧ s.pkg.transit[i]? = some x ∧ replays.toNat < 8
        ∧ s.pkg.retraining = [] ∧ x.site ≠ x.dest ∧ s.trellisUsed (nextSite x.yx x.site x.dest) x.yx vc < trellisDepth)
    ∧ (∃ (s : State) (site : BitVec 6) (yx : Bool) (vc : BitVec 3) (replays : BitVec 4) (i : Nat) (x : Transit),
        s.mod.state ≠ .off ∧ s.trellisHead site.toNat yx vc = some i ∧ s.pkg.transit[i]? = some x ∧ replays.toNat < 8
        ∧ s.pkg.retraining = [] ∧ x.site ≠ x.dest ∧ trellisDepth ≤ s.trellisUsed (nextSite x.yx x.site x.dest) x.yx vc)
    ∧ (∃ (s : State) (site : BitVec 6) (yx : Bool) (vc : BitVec 3) (replays : BitVec 4) (i : Nat) (x : Transit),
        s.mod.state ≠ .off ∧ s.trellisHead site.toNat yx vc = some i ∧ s.pkg.transit[i]? = some x ∧ x.site = x.dest)
    ∧ (∃ (s : State) (site : BitVec 6) (yx : Bool) (vc : BitVec 3) (replays : BitVec 4) (i : Nat) (x : Transit),
        s.mod.state ≠ .off ∧ s.trellisHead site.toNat yx vc = some i ∧ s.pkg.transit[i]? = some x ∧ 8 ≤ replays.toNat
        ∧ s.pkg.retraining = [] ∧ x.site ≠ x.dest)
    ∧ (∃ (s : State) (edge : BitVec 8) (since : FT), s.alive = true ∧ s.pkg.retraining = [(edge.toNat, ⟨since⟩)]
        ∧ since + 10 * usT ≤ s.now) :=
  ⟨⟨(let y := run; { y with pkg := { y.pkg with transit := ({ site := 9, yx := false, dest := 12, port := 0, queue := none, item := { frame := {} } } :: List.replicate 1 { site := 9, yx := false, dest := 12, port := 0, queue := none, item := { frame := {} } }).drop 1 } }),
      9, false, 0, 0, 0, { site := 9, yx := false, dest := 12, port := 0, queue := none, item := { frame := {} } },
      by decide +kernel⟩,
   ⟨crowded, 9, false, 0, 0, 0, { site := 9, yx := false, dest := 12, port := 0, queue := none, item := { frame := {} } },
       by decide +kernel, by decide +kernel, by decide +kernel, by decide +kernel, by decide +kernel, by decide +kernel,
       crowded_full⟩,
   ⟨(let y := run; { y with pkg := { y.pkg with transit := ({ site := 9, yx := false, dest := 9, port := 0, queue := none, item := { frame := {} } } :: List.replicate 1 { site := 9, yx := false, dest := 9, port := 0, queue := none, item := { frame := {} } }).drop 1 } }),
       9, false, 0, 0, 0, { site := 9, yx := false, dest := 9, port := 0, queue := none, item := { frame := {} } },
       by decide +kernel⟩,
   ⟨(let y := run; { y with pkg := { y.pkg with transit := ({ site := 9, yx := false, dest := 12, port := 0, queue := none, item := { frame := {} } } :: List.replicate 1 { site := 9, yx := false, dest := 12, port := 0, queue := none, item := { frame := {} } }).drop 1 } }),
       9, false, 0, 8, 0, { site := 9, yx := false, dest := 12, port := 0, queue := none, item := { frame := {} } },
       by decide +kernel⟩,
   ⟨(let y := (run.tickTo (10 ^ 18)); { y with pkg := { y.pkg with retraining := [(5, ⟨7⟩)] } }), 5, 7, by decide +kernel⟩⟩

theorem witness_RackTimeMarks :
    (∃ (s : State) (m : BitVec 64) (fl : BitVec 8), s.mod.state ≠ .off ∧ s.tim.window = none ∧ m.toNat % msT = 0)
    ∧ (∃ (s : State) (sync : BitVec 16) (m : BitVec 64) (fl : BitVec 8) (crc : BitVec 16), sync ≠ 0xE5A3)
    ∧ (∃ (s : State) (m : BitVec 64) (fl : BitVec 8) (crc : BitVec 16), s.mod.state ≠ .off ∧ s.tim.window = none
        ∧ crc ≠ codeCrc m fl ∧ s.tim.missRun.toNat < 2)
    ∧ (∃ (s : State) (frac : BitVec 6) (m : FT) (last : FT), s.mod.state ≠ .off ∧ s.tim.state = .locked
        ∧ s.tim.window = some (m, last) ∧ last + 100 * usT ≤ s.now + frac.toNat
        ∧ ((s.now + frac.toNat : Nat) - (m : Int)).natAbs ≤ 20 * nsT ∧ 1 ≤ s.tim.markWin.toNat)
    ∧ (∃ (s : State) (m : FT) (last : FT), s.mod.state ≠ .off ∧ s.tim.state = .locked ∧ s.tim.window = some (m, last)
        ∧ m + s.tim.markWin.toNat * usT < s.now ∧ s.tim.missRun.toNat < 2)
    ∧ (∃ (s : State) (m : FT) (last : FT), s.mod.state ≠ .off ∧ s.tim.state = .locked ∧ s.tim.window = some (m, last)
        ∧ m + s.tim.markWin.toNat * usT < s.now ∧ s.tim.missRun.toNat = 2)
    ∧ (∃ (s : State), s.mod.state ≠ .off ∧ s.tim.lastFrame + 2 * msT + s.tim.absentRun * msT ≤ s.now ∧ s.tim.missRun.toNat < 2)
    ∧ (∃ (s : State) (since : BitVec 64), s.mod.state ≠ .off ∧ s.tim.state = .locked ∧ since.toNat + usT ≤ s.now)
    ∧ (∃ (s : State), s.mod.state ≠ .off ∧ s.tim.state = .holdover ∧ s.tim.holdFrom + s.tim.holdMaxS.toNat * secT ≤ s.now) :=
  ⟨⟨run, 0, 0, by decide +kernel⟩,
   ⟨run, 7, 0, 0, 0, by decide +kernel⟩,
   ⟨run, 0, 0, 1, by decide +kernel⟩,
   ⟨(let y := run; { y with tim := { y.tim with state := .locked, ft := 16 * 10 ^ 6 * 16, window := some (16 * 10 ^ 6 * 16 + 20, 7) } }),
       5, 16 * 10 ^ 6 * 16 + 20, 7, by decide +kernel⟩,
   ⟨(let y := run; { y with tim := { y.tim with state := .locked, ft := 10 ^ 12, window := some (0, 0) } }), 0, 0,
       by decide +kernel⟩,
   ⟨(let y := run; { y with tim := { y.tim with state := .locked, missRun := 2, ft := 10 ^ 12, window := some (0, 0) } }), 0, 0,
       by decide +kernel⟩,
   ⟨(let y := run; { y with tim := { y.tim with ft := 10 ^ 12 } }), by decide +kernel⟩,
   ⟨(let y := run; { y with tim := { y.tim with state := .locked, ft := 10 ^ 12 } }), 5, by decide +kernel⟩,
   ⟨(let y := run; { y with tim := { y.tim with state := .holdover, ft := 10 ^ 15 } }), by decide +kernel⟩⟩

theorem witness_FabricTimeKeeping :
    (∃ (s : State), s.mod.state ≠ .off ∧ s.tim.stall = 1)
    ∧ (∃ (s : State), s.mod.state ≠ .off ∧ s.tim.distAt + usT ≤ s.now)
    ∧ (∃ (s : State) (tag : BitVec 16) (v : BitVec 64), s.writes tag (timAddr 0x20) v .installer ∧ bits v.toNat 23 16 ≤ 0x10
        ∧ 1 ≤ bits v.toNat 15 8 ∧ bits v.toNat 15 8 ≤ 0x3C ∧ 1 ≤ bits v.toNat 7 4
        ∧ (s.tim.state ≠ .holdover ∨ s.now < s.tim.holdFrom + bits v.toNat 15 8 * secT))
    ∧ (∃ (s : State) (tag : BitVec 16) (v : BitVec 64), s.writes tag (timAddr 0x20) v .installer ∧ bits v.toNat 23 16 ≤ 0x10
        ∧ 1 ≤ bits v.toNat 15 8 ∧ bits v.toNat 15 8 ≤ 0x3C ∧ 1 ≤ bits v.toNat 7 4 ∧ s.tim.state = .holdover
        ∧ s.tim.holdFrom + bits v.toNat 15 8 * secT ≤ s.now)
    ∧ (∃ (s : State) (tag : BitVec 16) (v : BitVec 64), s.writes tag (timAddr 0x20) v .installer
        ∧ (0x10 < bits v.toNat 23 16 ∨ bits v.toNat 15 8 = 0 ∨ 0x3C < bits v.toNat 15 8 ∨ bits v.toNat 7 4 = 0)) :=
  ⟨⟨(let y := run; { y with tim := { y.tim with stall := 1, stallAt := 0 } }), by decide +kernel⟩,
   ⟨(run.tickTo (10 ^ 18)), by decide +kernel⟩,
   ⟨((run).asRole .installer), 9, 0x00051230, by decide +kernel⟩,
   ⟨(((let y := run; { y with tim := { y.tim with state := .holdover, ft := 10 ^ 12 } })).asRole .installer), 9, 0x00050130,
       by decide +kernel⟩,
   ⟨((run).asRole .installer), 9, 0x00FF1230, by decide +kernel⟩⟩

theorem witness_PowerCapAndSensors :
    (∃ (s : State) (w : BitVec 16), s.alive = true ∧ s.glb.capW.toNat < w.toNat ∧ s.glb.capped = 0)
    ∧ (∃ (s : State) (w : BitVec 16), s.alive = true ∧ s.glb.capW.toNat < w.toNat ∧ s.glb.capped = 1
        ∧ s.glb.capAt + 10 * msT ≤ s.now)
    ∧ (∃ (s : State) (r : Reading), s.mod.state ≠ .off ∧ gridDue msT s.log.lastSensor s.now = true)
    ∧ (∃ (s : State) (tag : BitVec 16), s.writes tag (glbAddr 0x120) 1 .maker ∧ mapValid s.spareEntries = true
        ∧ s.pkg.spareSlots.length < 4)
    ∧ (∃ (s : State) (tag : BitVec 16), s.writes tag (glbAddr 0x120) 1 .maker ∧ 4 ≤ s.pkg.spareSlots.length)
    ∧ (∃ (s : State) (tag : BitVec 16) (v : BitVec 64), s.writes tag (glbAddr 0x130) v .maker ∧ s.mod.state = .test
        ∧ (bits v.toNat 7 0 = 1 ∨ bits v.toNat 7 0 = 2) ∧ s.glb.makerMode = 0 ∧ s.plainPort (bits v.toNat 15 8)
        ∧ (s.link (bits v.toNat 15 8)).state = .training)
    ∧ (∃ (s : State) (tag : BitVec 16) (v : BitVec 64), s.writes tag (glbAddr 0x130) v .maker ∧ s.mod.state ≠ .test
        ∧ bits v.toNat 7 0 ≠ 0)
    ∧ (∃ (s : State) (tag : BitVec 16), s.writes tag (glbAddr 0x130) 0 .maker ∧ s.glb.makerMode = 0) :=
  ⟨⟨run, 0xFFFF, by decide +kernel⟩,
   ⟨(let y := (run.tickTo (10 ^ 18)); { y with glb := { y.glb with capped := 1 } }), 0xFFFF, by decide +kernel⟩,
   ⟨(run.tickTo (10 ^ 18)), { vin := 5000, iin := 3, tOut := 30, tIn := 25, flow := 100 }, by decide +kernel⟩,
   ⟨(let y := (run.asRole .maker); { y with glb := { y.glb with spareMap := (List.range 32).map (fun i => (i, BitVec.ofNat 6 i)) } }),
       9, by decide +kernel⟩,
   ⟨(let y := (let y := (run.asRole .maker); { y with glb := { y.glb with spareMap := (List.range 32).map (fun i => (i, BitVec.ofNat 6 i)) } }); { y with pkg := { y.pkg with spareSlots := List.replicate 4 ([], 0) } }),
       9, by decide +kernel⟩,
   ⟨((run.asRole .maker).inState .test |>.onLink 3 (fun l => { l with state := .training })), 9, 0x0301, by decide +kernel⟩,
   ⟨(run.asRole .maker), 9, 1, by decide +kernel⟩,
   ⟨(run.asRole .maker), 9, by decide +kernel⟩⟩

theorem witness_LinkTrains :
    (∃ (s : State) (port : BitVec 8), s.plainPort port.toNat ∧ s.enabledPort port.toNat = true
        ∧ (s.link port.toNat).state = .down)
    ∧ (∃ (s : State) (port : BitVec 8), s.plainPort port.toNat ∧ (s.link port.toNat).state = .training)
    ∧ (∃ (s : State) (port : BitVec 8), s.plainPort port.toNat ∧ s.enabledPort port.toNat = true
        ∧ (s.link port.toNat).state = .training ∧ (s.link port.toNat).signal = true
        ∧ (s.link port.toNat).trainAt + 100 * msT ≤ s.now)
    ∧ (∃ (s : State) (port : BitVec 8) (w : Lcw), s.plainPort port.toNat ∧ (s.link port.toNat).state = .init ∧ w.typ = 2
        ∧ w.good = true ∧ creditsEnough (s.link port.toNat).cls w = true)
    ∧ (∃ (s : State) (port : BitVec 8) (w : Lcw), s.plainPort port.toNat ∧ (s.link port.toNat).state = .init ∧ w.typ = 2
        ∧ w.good = true ∧ creditsEnough (s.link port.toNat).cls w = false ∧ s.evq.mask.getLsbD 0x48 = false ∧ s.evq.lost = 0
        ∧ s.evq.queue.length < 4096)
    ∧ (∃ (s : State) (port : BitVec 8) (w : Lcw), w.good = false)
    ∧ (∃ (s : State) (port : BitVec 8), s.plainPort port.toNat ∧ s.enabledPort port.toNat = true
        ∧ (s.link port.toNat).state = .hello ∧ (s.link port.toNat).signal = true)
    ∧ (∃ (s : State) (port : BitVec 8), s.plainPort port.toNat ∧ (s.link port.toNat).state = .hello) :=
  ⟨⟨run.onLink 3 (fun l => { l with cls := 2, state := .down, retrains := 4, again := true }), 3, by decide +kernel⟩,
   ⟨run.onLink 3 (fun l => { l with cls := 2, state := .training }), 3, by decide +kernel⟩,
   ⟨run.onLink 3 (fun l => { l with cls := 2, state := .training, signal := true, trainAt := 0 }) |>.tickTo (100 * msT + 5), 3,
       by decide +kernel⟩,
   ⟨run.onLink 3 (fun l => { l with cls := 2, state := .init }), 3,
       ({ typ := 2, credits := [512, 512, 1536, 1536, 1536, 256, 256, 2048] } : Lcw).sealed, by decide +kernel⟩,
   ⟨run.onLink 3 (fun l => { l with cls := 2, state := .init }), 3, ({ typ := 2, credits := [512] } : Lcw).sealed,
       by decide +kernel⟩,
   ⟨run.onLink 3 (fun l => { l with cls := 2, state := .init }), 3, { typ := 2, lcrc := 7 }, by decide +kernel⟩,
   ⟨run.onLink 3 (fun l => { l with cls := 2, state := .hello, signal := true, replay := [(7, { opcode := 0x10, vc := 2, length := 1, tag := 5 })] }),
       3, by decide +kernel⟩,
   ⟨run.onLink 3 (fun l => { l with cls := 2, state := .hello, replay := [(7, { opcode := 0x10, vc := 2, length := 1, tag := 5 })] }),
       3, by decide +kernel⟩⟩

theorem witness_LinkCreditsAndReplay :
    (∃ (s : State) (port : BitVec 8) (w : Lcw) (i : Nat), s.plainPort port.toNat ∧ (s.link port.toNat).state.flows = true
        ∧ w.typ = 0 ∧ w.good = true ∧ w.ackV = true ∧ (s.link port.toNat).replay.findIdx? (fun e => e.1 == w.ackSeq) = some i)
    ∧ (∃ (s : State) (port : BitVec 8) (w : Lcw), s.plainPort port.toNat ∧ (s.link port.toNat).state.flows = true ∧ w.typ = 1
        ∧ w.good = true ∧ w.ackV = false ∧ (s.link port.toNat).replay ≠ [] ∧ (s.link port.toNat).replays < 8)
    ∧ (∃ (s : State) (port : BitVec 8), s.plainPort port.toNat ∧ (s.link port.toNat).state.flows = true
        ∧ (s.link port.toNat).replay ≠ [] ∧ (s.link port.toNat).replays < 8 ∧ (s.link port.toNat).ackAt + 2 * usT ≤ s.now)
    ∧ (∃ (s : State) (port : BitVec 8), s.plainPort port.toNat ∧ (s.link port.toNat).state = .hello
        ∧ (s.link port.toNat).signal = true ∧ s.enabledPort port.toNat = true ∧ (s.link port.toNat).replay ≠ []
        ∧ 8 ≤ (s.link port.toNat).replays ∧ (s.link port.toNat).ackAt + 2 * usT ≤ s.now)
    ∧ (∃ (s : State) (port : BitVec 8) (since : FT), s.plainPort port.toNat ∧ (s.link port.toNat).state.flows = true
        ∧ (s.link port.toNat).owedAck = some since ∧ since + 200 * nsT ≤ s.now)
    ∧ (∃ (s : State) (port : BitVec 8) (w : Lcw), w.good = false)
    ∧ (∃ (s : State) (port : BitVec 8) (w : Lcw), w.good = false)
    ∧ (∃ (s : State) (port : BitVec 8) (frame : Frame) (lseq : BitVec 12) (crc : BitVec 32) (fec : Bool), s.plainPort port.toNat
        ∧ (s.link port.toNat).state.flows = true ∧ (s.link port.toNat).nakSent = false
        ∧ (fec = true ∨ crc ≠ frame.linkCrc lseq))
    ∧ (∃ (s : State) (port : BitVec 8) (frame : Frame) (lseq : BitVec 12) (crc : BitVec 32) (fec : Bool), s.plainPort port.toNat
        ∧ (s.link port.toNat).state.flows = true ∧ (s.link port.toNat).nakSent = false ∧ fec = false ∧ crc = frame.linkCrc lseq
        ∧ lseq ≠ (s.link port.toNat).rxSeq)
    ∧ (∃ (s : State) (port : BitVec 8) (frame : Frame) (lseq : BitVec 12) (crc : BitVec 32) (fec : Bool), s.plainPort port.toNat
        ∧ (s.link port.toNat).state.flows = true ∧ fec = false ∧ crc = frame.linkCrc lseq
        ∧ ((s.link port.toNat).nakSent = true ∨ lseq = (s.link port.toNat).rxSeq))
    ∧ (∃ (s : State) (port : BitVec 8) (frame : Frame) (hcrc : BitVec 16), s.plainPort port.toNat ∧ (s.link port.toNat).cls ≠ 3
        ∧ (s.link port.toNat).state.flows = true ∧ hcrc ≠ frame.hcrc
        ∧ (s.link port.toNat).outstanding frame.vc.toNat + creditCost frame ≤ s.advertises port.toNat frame.vc.toNat) :=
  ⟨⟨run.onLink 3 (fun l => { l with cls := 2, state := .opened, replay := [(6, { opcode := 0x10, vc := 2, length := 1, tag := 5 }), (7, { opcode := 0x10, vc := 2, length := 1, tag := 5 }), (8, { opcode := 0x10, vc := 2, length := 1, tag := 5 })], replays := 2 }),
      3, ({ ackV := true, ackSeq := 7, credits := [1,2,3,4,5,6,7,8] } : Lcw).sealed, 1, by decide +kernel⟩,
   ⟨run.onLink 3 (fun l => { l with cls := 2, state := .opened, replay := [(6, { opcode := 0x10, vc := 2, length := 1, tag := 5 })], replays := 7, cntReplay := 2^64-1 }),
       3, ({ typ := 1 } : Lcw).sealed, by decide +kernel⟩,
   ⟨run.onLink 3 (fun l => { l with cls := 2, state := .opened, replay := [(6, { opcode := 0x10, vc := 2, length := 1, tag := 5 })], replays := 7, ackAt := 3 }) |>.tickTo (2 * usT + 3),
       3, by decide +kernel⟩,
   ⟨run.onLink 3 (fun l => { l with cls := 2, state := .hello, signal := true, replay := [(6, { opcode := 0x10, vc := 2, length := 1, tag := 5 })], replays := 8, ackAt := 3 }) |>.tickTo (2 * usT + 3),
       3, by decide +kernel⟩,
   ⟨run.onLink 3 (fun l => { l with cls := 2, state := .opened, owedAck := some 4, rxSeq := 0, rxAny := true, credFreed := [(2, 7)] }) |>.tickTo (200 * nsT + 4),
       3, 4, by decide +kernel⟩,
   ⟨run, 3, { typ := 0, lcrc := 7 }, by decide +kernel⟩,
   ⟨run, 3, { typ := 1, lcrc := 7 }, by decide +kernel⟩,
   ⟨run.onLink 3 (fun l => { l with cls := 2, state := .opened, rxSeq := 9 }), 3,
       { opcode := 0x10, vc := 2, length := 1, tag := 5 }, 9, 0, false, by decide +kernel⟩,
   ⟨run.onLink 3 (fun l => { l with cls := 2, state := .opened, rxSeq := 9 }), 3,
       { opcode := 0x10, vc := 2, length := 1, tag := 5 }, 8,
       (({ opcode := 0x10, vc := 2, length := 1, tag := 5 } : Frame).linkCrc 8), false, by decide +kernel⟩,
   ⟨run.onLink 3 (fun l => { l with cls := 2, state := .opened, nakSent := true }), 3,
       { opcode := 0x10, vc := 2, length := 1, tag := 5 }, 8,
       (({ opcode := 0x10, vc := 2, length := 1, tag := 5 } : Frame).linkCrc 8), false, by decide +kernel⟩,
   ⟨run.onLink 3 (fun l => { l with cls := 2, state := .opened, rxSeq := 4095, credFreed := [(2, 7)], credUsed := [(2, 7)] }),
       3, { opcode := 0x10, vc := 2, length := 1, tag := 5 }, 1, by decide +kernel⟩⟩

theorem witness_PeersMeet :
    (∃ (s : State) (port : BitVec 8) (f : Frame), s.plainPort port.toNat ∧ (s.link port.toNat).cls = 2
        ∧ (s.link port.toNat).state = .hello ∧ (s.link port.toNat).helloSent = true ∧ (s.link port.toNat).peerKnown = false
        ∧ f.opcode = 0x60 ∧ f.vc = 6 ∧ wellShaped f = true ∧ field f.payload 2 1 = 0x40 ∧ field f.payload 6 1 = 1
        ∧ (s.link port.toNat).outstanding 6 + creditCost f ≤ s.advertises port.toNat 6)
    ∧ (∃ (s : State) (port : BitVec 8) (f : Frame), s.plainPort port.toNat ∧ (s.link port.toNat).cls = 2
        ∧ (s.link port.toNat).dead = true ∧ (s.link port.toNat).state = .hello ∧ (s.link port.toNat).peerKnown = true
        ∧ f.opcode = 0x60 ∧ f.vc = 6 ∧ wellShaped f = true ∧ field f.payload 2 1 = 0x40 ∧ field f.payload 6 1 = 1
        ∧ (s.link port.toNat).outstanding 6 + creditCost f ≤ s.advertises port.toNat 6
        ∧ field f.payload 8 8 ≠ (s.link port.toNat).peerId.toNat)
    ∧ (∃ (s : State) (port : BitVec 8), s.plainPort port.toNat ∧ (s.link port.toNat).state.flows = true
        ∧ (s.link port.toNat).helloTxAt + (s.link port.toNat).helloUs.toNat * usT ≤ s.now)
    ∧ (∃ (s : State) (port : BitVec 8) (us : BitVec 16), s.plainPort port.toNat ∧ (s.link port.toNat).state = .hello
        ∧ (s.link port.toNat).dead = true ∧ (s.link port.toNat).peerHelloUs = some us
        ∧ (s.link port.toNat).helloRxAt + 3 * us.toNat * usT ≤ s.now)
    ∧ (∃ (s : State) (tag : BitVec 16) (port : BitVec 8), s.writes tag (prtAddr port.toNat 0x18) (1 <<< 34) .operator
        ∧ s.plainPort port.toNat ∧ (s.link port.toNat).state = .hello)
    ∧ (∃ (s : State) (tag : BitVec 16) (port : BitVec 8), s.writes tag (prtAddr port.toNat 0x18) (1 <<< 33) .operator
        ∧ s.plainPort port.toNat ∧ (s.link port.toNat).cls = 2 ∧ (s.link port.toNat).state = .fenced
        ∧ (s.link port.toNat).downCause = 7)
    ∧ (∃ (s : State) (port : BitVec 8), s.plainPort port.toNat ∧ s.enabledPort port.toNat = true ∧ s.quiet
        ∧ (s.link port.toNat).cls = 2 ∧ (s.link port.toNat).state ≠ .opened ∧ (s.link port.toNat).dead = false
        ∧ (s.link port.toNat).outAt + s.targetLimit ≤ s.now ∧ s.evq.mask.getLsbD 0x49 = false ∧ s.evq.lost = 0
        ∧ s.evq.queue.length < 4096)
    ∧ (∃ (s : State) (port : BitVec 8), s.alive = true ∧ s.bundled port.toNat = true ∧ s.enabledPort port.toNat = true
        ∧ (s.link port.toNat).signal = true ∧ s.isMember port.toNat = true ∧ s.base port.toNat ≠ port.toNat
        ∧ (s.link (s.base port.toNat)).state = .hello
        ∧ (s.link (s.base port.toNat)).membersUp &&& ~~~((1 : BitVec 8) <<< (s.link port.toNat).bundleOff.toNat) ≠ 0) :=
  ⟨⟨run.onLink 3 (fun l => { l with cls := 2, state := .hello, helloSent := true }), 3,
      { opcode := 0x60, dst := 0xFFFF, vc := 6, length := 1, payload := leBytes 2 7 ++ [0x40, 2] ++ leBytes 2 0 ++ [1, 0] ++ leBytes 8 77 ++ fill 48 0 },
      by decide +kernel⟩,
   ⟨run.onLink 3 (fun l => { l with cls := 2, state := .hello, helloSent := true, peerKnown := true, peerId := 3, dead := true }),
       3, { opcode := 0x60, dst := 0xFFFF, vc := 6, length := 1, payload := leBytes 2 7 ++ [0x40, 2] ++ leBytes 2 0 ++ [1, 0] ++ leBytes 8 77 ++ fill 48 0 },
       by decide +kernel⟩,
   ⟨run.onLink 3 (fun l => { l with cls := 2, state := .opened, helloTxAt := 5 }) |>.tickTo (100 * usT + 5), 3,
       by decide +kernel⟩,
   ⟨run.onLink 3 (fun l => { l with cls := 2, state := .hello, dead := true, peerHelloUs := some 10, helloRxAt := 5 }) |>.tickTo (30 * usT + 5),
       3, 10, by decide +kernel⟩,
   ⟨run.onLink 3 (fun l => { l with cls := 2, state := .hello }) |>.asRole .operator, 7, 3, by decide +kernel⟩,
   ⟨run.onLink 3 (fun l => { l with cls := 2, state := .fenced, downCause := 7, peerKnown := true, peerId := 3, lastId := 8 }) |>.asRole .operator,
       7, 3, by decide +kernel⟩,
   ⟨run.onLink 3 (fun l => { l with cls := 2, state := .hello, peerUnit := 9 }) |>.tickTo (1000 * usT), 3, by decide +kernel⟩,
   ⟨bundle, 4, by decide +kernel⟩⟩

theorem witness_ScalarInstructions :
    (∃ (s : State) (core : BitVec 10) (tid : BitVec 6) (ins : Ins), s.issues core.toNat tid.toNat [])
    ∧ (∃ (s : State) (core : BitVec 10) (tid : BitVec 6) (ins : Ins),
        s.issues core.toNat tid.toNat [ins.xa.toNat, ins.xb.toNat])
    ∧ (∃ (s : State) (core : BitVec 10) (tid : BitVec 6) (ins : Ins), s.issues core.toNat tid.toNat [ins.xa.toNat])
    ∧ (∃ (s : State) (core : BitVec 10) (tid : BitVec 6) (ins : Ins), s.issues core.toNat tid.toNat [])
    ∧ (∃ (s : State) (core : BitVec 10) (tid : BitVec 6) (ins : Ins), s.issues core.toNat tid.toNat [ins.xd.toNat])
    ∧ (∃ (s : State) (core : BitVec 10) (tid : BitVec 6) (ins : Ins), s.issues core.toNat tid.toNat [ins.xa.toNat, ins.xb.toNat]
        ∧ bits ins.fn.toNat 2 0 ≠ 7)
    ∧ (∃ (s : State) (core : BitVec 10) (tid : BitVec 6) (ins : Ins), s.issues core.toNat tid.toNat [ins.xa.toNat])
    ∧ (∃ (s : State) (core : BitVec 10) (tid : BitVec 6) (ins : Ins), s.issues core.toNat tid.toNat []
        ∧ bits ins.imm.toNat 3 0 ≠ 6)
    ∧ (∃ (s : State) (core : BitVec 10) (tid : BitVec 6) (ins : Ins), s.issues core.toNat tid.toNat []
        ∧ bits ins.imm.toNat 3 0 = 6)
    ∧ (∃ (a : BitVec 64) (n : Nat), n < 64) :=
  ⟨⟨prog (fun t => t) [], 5, 3, {}, by decide +kernel⟩,
   ⟨prog (fun t => t) [(1, 5), (2, 7)], 5, 3, { xd := 1, xa := 1, xb := 2, fn := 1 }, by decide +kernel⟩,
   ⟨prog (fun t => t) [(1, 5)], 5, 3, { xd := 0, xa := 1, imm := -1, fn := 5 }, by decide +kernel⟩,
   ⟨prog (fun t => t) [], 5, 3, { xd := 31, imm := -2 }, by decide +kernel⟩,
   ⟨prog (fun t => t) [(4, 2^40+9)], 5, 3, { xd := 4, imm := -2 }, by decide +kernel⟩,
   ⟨prog (fun t => t) [(1, 5), (2, -7)], 5, 3, { xa := 2, xb := 1, fn := 2, imm := -1 }, by decide +kernel⟩,
   ⟨prog (fun t => t) [(4, 0x01000040)], 5, 3, { xd := 4, xa := 4, imm := -8 }, by decide +kernel⟩,
   ⟨prog (fun t => { t with mcnt := 3 }) [], 5, 3, { xd := 4, imm := 7 }, by decide +kernel⟩,
   ⟨prog (fun t => { t with statusCode := 9, statusTva := 77 }) [], 5, 3, { xd := 4, imm := 6 }, by decide +kernel⟩,
   ⟨-5, 63, by decide +kernel⟩⟩

theorem witness_LocalMemoryInstructions :
    (∃ (s : State) (core : BitVec 10) (tid : BitVec 6) (ins : Ins), s.issues core.toNat tid.toNat [ins.xa.toNat]
        ∧ localOk s.comp.run core.toNat (((s.thread core.toNat tid.toNat).get ins.xa.toNat) + (ins.imm.signExtend 64)).toNat (2 ^ bits ins.fn.toNat 1 0) false = true
        ∧ (((s.thread core.toNat tid.toNat).get ins.xa.toNat) + (ins.imm.signExtend 64)).toNat % 2 ^ bits ins.fn.toNat 1 0 = 0)
    ∧ (∃ (s : State) (core : BitVec 10) (tid : BitVec 6) (ins : Ins), s.issues core.toNat tid.toNat [ins.xa.toNat, ins.xb.toNat]
        ∧ localOk s.comp.run core.toNat (((s.thread core.toNat tid.toNat).get ins.xa.toNat) + (ins.imm.signExtend 64)).toNat (2 ^ bits ins.fn.toNat 1 0) true = true
        ∧ (((s.thread core.toNat tid.toNat).get ins.xa.toNat) + (ins.imm.signExtend 64)).toNat % 2 ^ bits ins.fn.toNat 1 0 = 0)
    ∧ (∃ (s : State) (core : BitVec 10) (tid : BitVec 6) (ins : Ins),
        s.issues core.toNat tid.toNat [ins.xa.toNat, ins.xb.toNat, ins.xd.toNat]
        ∧ localOk s.comp.run core.toNat (((s.thread core.toNat tid.toNat).get ins.xa.toNat) + (ins.imm.signExtend 64)).toNat (if ins.fn.getLsbD 3 then 4 else 8) true = true
        ∧ (((s.thread core.toNat tid.toNat).get ins.xa.toNat) + (ins.imm.signExtend 64)).toNat % (if ins.fn.getLsbD 3 then 4 else 8) = 0
        ∧ bits ins.fn.toNat 2 0 ≤ 4)
    ∧ (∃ (s : State) (core : BitVec 10) (tid : BitVec 6) (ins : Ins), s.issues core.toNat tid.toNat [ins.xa.toNat]
        ∧ localOk s.comp.run core.toNat (((s.thread core.toNat tid.toNat).get ins.xa.toNat) + (ins.imm.signExtend 64)).toNat (2 ^ bits ins.fn.toNat 1 0) false = false)
    ∧ (∃ (s : State) (core : BitVec 10) (tid : BitVec 6) (ins : Ins), s.issues core.toNat tid.toNat [ins.xa.toNat, ins.xb.toNat]
        ∧ localOk s.comp.run core.toNat (((s.thread core.toNat tid.toNat).get ins.xa.toNat) + (ins.imm.signExtend 64)).toNat (2 ^ bits ins.fn.toNat 1 0) true = true
        ∧ (((s.thread core.toNat tid.toNat).get ins.xa.toNat) + (ins.imm.signExtend 64)).toNat % 2 ^ bits ins.fn.toNat 1 0 ≠ 0)
    ∧ (∃ (s : State) (core : BitVec 10) (tid : BitVec 6) (ins : Ins),
        s.issues core.toNat tid.toNat [ins.xa.toNat, ins.xb.toNat, ins.xd.toNat]
        ∧ localOk s.comp.run core.toNat (((s.thread core.toNat tid.toNat).get ins.xa.toNat) + (ins.imm.signExtend 64)).toNat ((s.thread core.toNat tid.toNat).get ins.xb.toNat).toNat false = true
        ∧ localOk s.comp.run core.toNat ((s.thread core.toNat tid.toNat).get ins.xd.toNat).toNat ((s.thread core.toNat tid.toNat).get ins.xb.toNat).toNat true = true)
    ∧ (∃ (s : State) (core : BitVec 10) (tid : BitVec 6) (a : Nat) (d : Nat) (n : Nat), s.coreUp core.toNat = true
        ∧ (s.thread core.toNat tid.toNat).wait = .copy a d n ∧ (s.thread core.toNat tid.toNat).state = .waitMem) :=
  ⟨⟨prog (fun t => t) [(1, 0x100)], 5, 3, { xd := 1, xa := 1, imm := 8, fn := 1 }, by decide +kernel⟩,
   ⟨prog (fun t => t) [(1, 0x01000200), (2, 0x1122334455667788)], 5, 3, { xa := 1, xb := 2, imm := 8, fn := 3 },
       by decide +kernel⟩,
   ⟨prog (fun t => t) [(1, 0x100), (2, 7), (3, 0)], 5, 3, { xd := 3, xa := 1, xb := 2, imm := 8, fn := 4 }, by decide +kernel⟩,
   ⟨prog (fun t => t) [(1, 0x100000)], 5, 3, { xd := 1, xa := 1, imm := 8, fn := 1 }, by decide +kernel⟩,
   ⟨prog (fun t => t) [(1, 0x100)], 5, 3, { xa := 1, xb := 2, imm := 1, fn := 3 }, by decide +kernel⟩,
   ⟨prog (fun t => t) [(1, 0x100), (2, 7), (3, 0x200)], 5, 3, { xd := 3, xa := 1, xb := 2, imm := 8 }, by decide +kernel⟩,
   ⟨((prog (fun t => t) []).park 5 3 .waitMem (.copy 0x100 0x104 8)).localWrite 5 0x100 [1,2,3,4,5,6,7,8], 5, 3, 0x100, 0x104,
       8, by decide +kernel⟩⟩

theorem witness_ThreadWaits :
    (∃ (s : State) (core : BitVec 10) (tid : BitVec 6) (ins : Ins), s.issues core.toNat tid.toNat []
        ∧ s.storesOut core.toNat tid.toNat s.req.nextN = false)
    ∧ (∃ (s : State) (core : BitVec 10) (tid : BitVec 6) (ins : Ins), s.issues core.toNat tid.toNat []
        ∧ s.storesOut core.toNat tid.toNat s.req.nextN = true)
    ∧ (∃ (s : State) (core : BitVec 10) (tid : BitVec 6) (ins : Ins), s.issues core.toNat tid.toNat [])
    ∧ (∃ (s : State) (core : BitVec 10) (tid : BitVec 6) (ins : Ins), s.issues core.toNat tid.toNat []
        ∧ (s.thread core.toNat tid.toNat).ecnt ≤ bits ins.imm.toNat 4 0)
    ∧ (∃ (s : State) (core : BitVec 10) (tid : BitVec 6) (ins : Ins), s.issues core.toNat tid.toNat []
        ∧ bits ins.imm.toNat 4 0 < (s.thread core.toNat tid.toNat).ecnt)
    ∧ (∃ (s : State) (core : BitVec 10) (tid : BitVec 6) (ins : Ins), s.issues core.toNat tid.toNat []
        ∧ (s.thread core.toNat tid.toNat).mcnt ≤ bits ins.imm.toNat 6 0)
    ∧ (∃ (s : State) (core : BitVec 10) (tid : BitVec 6) (ins : Ins), s.issues core.toNat tid.toNat []
        ∧ bits ins.imm.toNat 6 0 < (s.thread core.toNat tid.toNat).mcnt)
    ∧ (∃ (s : State) (core : BitVec 10) (tid : BitVec 6) (ins : Ins), s.issues core.toNat tid.toNat []
        ∧ (s.thread core.toNat tid.toNat).mcnt = 0 ∧ (s.thread core.toNat tid.toNat).ecnt = 0)
    ∧ (∃ (s : State) (core : BitVec 10) (tid : BitVec 6) (ins : Ins), s.issues core.toNat tid.toNat []
        ∧ (Table.read [] s.cpu.barHere (clusterOf core.toNat * 16 + bits ins.imm.toNat 3 0)).length + 1 < Table.read 0 s.cpu.barNeed (clusterOf core.toNat * 16 + bits ins.imm.toNat 3 0))
    ∧ (∃ (s : State) (core : BitVec 10) (tid : BitVec 6) (ins : Ins) (other : BitVec 10) (who : BitVec 6),
        s.issues core.toNat tid.toNat []
        ∧ Table.read [] s.cpu.barHere (clusterOf core.toNat * 16 + bits ins.imm.toNat 3 0) = [64 * other.toNat + who.toNat]
        ∧ (s.thread other.toNat who.toNat).state ≠ .faulted
        ∧ Table.read 0 s.cpu.barNeed (clusterOf core.toNat * 16 + bits ins.imm.toNat 3 0) = 2)
    ∧ (∃ (s : State) (core : BitVec 10) (tid : BitVec 6) (ins : Ins), s.issues core.toNat tid.toNat [ins.xa.toNat, ins.xb.toNat]
        ∧ localOk s.comp.run core.toNat (((s.thread core.toNat tid.toNat).get ins.xa.toNat) + (ins.imm.signExtend 64)).toNat 8 false = true
        ∧ (((s.thread core.toNat tid.toNat).get ins.xa.toNat) + (ins.imm.signExtend 64)).toNat % 8 = 0
        ∧ BitVec.ofNat 64 (leNat (s.localBytes core.toNat (((s.thread core.toNat tid.toNat).get ins.xa.toNat) + (ins.imm.signExtend 64)).toNat 8)) ≠ ((s.thread core.toNat tid.toNat).get ins.xb.toNat))
    ∧ (∃ (s : State) (core : BitVec 10) (tid : BitVec 6) (ins : Ins), s.issues core.toNat tid.toNat [ins.xa.toNat, ins.xb.toNat]
        ∧ localOk s.comp.run core.toNat (((s.thread core.toNat tid.toNat).get ins.xa.toNat) + (ins.imm.signExtend 64)).toNat 8 false = true
        ∧ (((s.thread core.toNat tid.toNat).get ins.xa.toNat) + (ins.imm.signExtend 64)).toNat % 8 = 0
        ∧ BitVec.ofNat 64 (leNat (s.localBytes core.toNat (((s.thread core.toNat tid.toNat).get ins.xa.toNat) + (ins.imm.signExtend 64)).toNat 8)) = ((s.thread core.toNat tid.toNat).get ins.xb.toNat))
    ∧ (∃ (s : State) (core : BitVec 10) (tid : BitVec 6) (a : Nat) (xd : Nat) (old : BitVec 64) (limit : FT),
        s.coreUp core.toNat = true ∧ (s.thread core.toNat tid.toNat).wait = .word a old xd (some limit) ∧ limit ≤ s.now
        ∧ BitVec.ofNat 64 (leNat (s.localBytes core.toNat a 8)) = old)
    ∧ (∃ (s : State) (core : BitVec 10) (tid : BitVec 6) (ins : Ins) (who : BitVec 6) (old : BitVec 64) (xd : Nat) (limit : Option FT),
        s.issues core.toNat tid.toNat [ins.xa.toNat, ins.xb.toNat]
        ∧ localOk s.comp.run core.toNat (((s.thread core.toNat tid.toNat).get ins.xa.toNat) + (ins.imm.signExtend 64)).toNat (2 ^ bits ins.fn.toNat 1 0) true = true
        ∧ (((s.thread core.toNat tid.toNat).get ins.xa.toNat) + (ins.imm.signExtend 64)).toNat % 2 ^ bits ins.fn.toNat 1 0 = 0
        ∧ who ≠ tid ∧ (s.thread core.toNat who.toNat).state = .waitSync
        ∧ (s.thread core.toNat who.toNat).wait = .word (((s.thread core.toNat tid.toNat).get ins.xa.toNat) + (ins.imm.signExtend 64)).toNat old xd limit
        ∧ bits ins.fn.toNat 1 0 = 3 ∧ ((s.thread core.toNat tid.toNat).get ins.xb.toNat) ≠ old)
    ∧ (∃ (s : State) (core : BitVec 10) (tid : BitVec 6) (ins : Ins), s.issues core.toNat tid.toNat []
        ∧ bits ins.fn.toNat 2 0 = 7)
    ∧ (∃ (s : State) (core : BitVec 10) (tid : BitVec 6) (word : BitVec 64), s.issues core.toNat tid.toNat []
        ∧ illegalWord word = true) :=
  ⟨⟨prog (fun t => t) [], 5, 3, {}, by decide +kernel⟩,
   ⟨prog (fun t => { t with mcnt := 1 }) []|>.withStore 5 3, 5, 3, {}, by decide +kernel⟩,
   ⟨prog (fun t => t) [] |>.onCore 5 (fun c => { c with dcache := [(1, [])] }), 5, 3, {}, by decide +kernel⟩,
   ⟨prog (fun t => { t with ecnt := 2 }) [], 5, 3, { imm := 2 }, by decide +kernel⟩,
   ⟨prog (fun t => { t with ecnt := 2 }) [], 5, 3, { imm := 1 }, by decide +kernel⟩,
   ⟨prog (fun t => { t with mcnt := 2 }) [], 5, 3, { imm := 2 }, by decide +kernel⟩,
   ⟨prog (fun t => { t with mcnt := 2 }) [], 5, 3, { imm := 1 }, by decide +kernel⟩,
   ⟨prog (fun t => t) [], 5, 3, {}, by decide +kernel⟩,
   ⟨prog (fun t => t) [] |>.needBar 2 2 [], 5, 3, { imm := 2 }, by decide +kernel⟩,
   ⟨prog (fun t => t) [] |>.needBar 2 2 [64*6+1], 5, 3, { imm := 2 }, 6, 1, by decide +kernel⟩,
   ⟨prog (fun t => t) [(1, 0x100), (2, 7)], 5, 3, { xd := 3, xa := 1, xb := 2 }, by decide +kernel⟩,
   ⟨prog (fun t => t) [(1, 0x100)], 5, 3, { xd := 3, xa := 1, xb := 2, fn := 9 }, by decide +kernel⟩,
   ⟨prog (fun t => t) [] |>.park 5 3 .waitSync (.word 0x100 0 4 (some 0)), 5, 3, 0x100, 4, 0, 0, by decide +kernel⟩,
   ⟨prog (fun t => t) [(1, 0x100), (2, 7)] |>.park 5 4 .waitSync (.word 0x100 0 4 none), 5, 3, { xa := 1, xb := 2, fn := 3 }, 4,
       0, 4, none, by decide +kernel⟩,
   ⟨prog (fun t => t) [], 5, 3, { fn := 7 }, by decide +kernel⟩,
   ⟨prog (fun t => t) [], 5, 3, (BitVec.ofNat 64 (0x3F * 2 ^ 58)), by decide +kernel⟩⟩

theorem witness_EngineCommands :
    (∃ (s : State) (core : BitVec 10) (tid : BitVec 6) (ins : Ins), s.issues core.toNat tid.toNat [ins.xa.toNat]
        ∧ (s.engine core.toNat 0).queue.length < 32 ∧ (s.thread core.toNat tid.toNat).ecnt < 16)
    ∧ (∃ (s : State) (core : BitVec 10) (tid : BitVec 6) (ins : Ins), s.issues core.toNat tid.toNat [ins.xa.toNat]
        ∧ bits ins.fn.toNat 1 0 < 2 ∧ (s.engine core.toNat (bits ins.fn.toNat 1 0 + 1)).queue.length < 32
        ∧ (s.thread core.toNat tid.toNat).ecnt < 16)
    ∧ (∃ (s : State) (core : BitVec 10) (tid : BitVec 6) (ins : Ins), s.issues core.toNat tid.toNat [ins.xa.toNat]
        ∧ (s.engine core.toNat 3).queue.length < 32 ∧ (s.thread core.toNat tid.toNat).ecnt < 16)
    ∧ (∃ (s : State) (core : BitVec 10) (tid : BitVec 6) (ins : Ins), s.issues core.toNat tid.toNat [ins.xa.toNat]
        ∧ bits ins.fn.toNat 1 0 = 2 ∧ (s.engine core.toNat (s.anyVe core.toNat)).queue.length < 32
        ∧ (s.thread core.toNat tid.toNat).ecnt < 16)
    ∧ (∃ (s : State) (core : BitVec 10) (tid : BitVec 6) (ins : Ins), s.issues core.toNat tid.toNat [ins.xa.toNat]
        ∧ 32 ≤ (s.engine core.toNat 0).queue.length)
    ∧ (∃ (s : State) (core : BitVec 10) (engine : BitVec 2) (c : EngCmd) (cs : List EngCmd) (cause : Nat),
        s.coreUp core.toNat = true ∧ (s.engine core.toNat engine.toNat).queue = c :: cs ∧ c.phase = .queued
        ∧ (s.engine core.toNat engine.toNat).testing = false ∧ s.verdict core.toNat engine.toNat c.desc = .error cause
        ∧ cause < 256 ∧ c.tid < 64)
    ∧ (∃ (s : State) (core : BitVec 10) (engine : BitVec 2) (c : EngCmd) (cs : List EngCmd) (a : Nat) (bs : List Byte),
        s.coreUp core.toNat = true ∧ (s.engine core.toNat engine.toNat).queue = c :: cs ∧ c.phase = .running
        ∧ c.sampled = false ∧ c.rowsLeft = 0 ∧ c.rowsTodo = [] ∧ c.out = { writes := [(a, bs)] }
        ∧ localOk s.comp.run core.toNat a bs.length true = true)
    ∧ (∃ (s : State) (core : BitVec 10) (engine : BitVec 2) (c : EngCmd) (cs : List EngCmd) (i : Nat) (tl : Tile),
        s.coreUp core.toNat = true ∧ (s.engine core.toNat engine.toNat).queue = c :: cs ∧ c.phase = .compared ∧ c.rowsLeft = 0
        ∧ c.rowsTodo = [] ∧ c.out = { tile := some (i, tl) })
    ∧ (∃ (s : State) (core : BitVec 10) (engine : BitVec 2) (c : EngCmd) (cs : List EngCmd) (a : Nat) (xs : List Nat),
        s.coreUp core.toNat = true ∧ (s.engine core.toNat engine.toNat).queue = c :: cs ∧ c.phase = .running ∧ c.sampled = true
        ∧ s.shadowCores core.toNat engine.toNat = a :: xs ∧ s.runsOwn a engine.toNat = false)
    ∧ (∃ (s : State) (core : BitVec 10) (engine : BitVec 2) (c : EngCmd) (cs : List EngCmd) (a : Nat) (b : Nat) (xs : List Nat),
        s.coreUp core.toNat = true ∧ (s.engine core.toNat engine.toNat).queue = c :: cs ∧ c.phase = .running ∧ c.sampled = true
        ∧ s.shadowCores core.toNat engine.toNat = a :: b :: xs ∧ s.runsOwn a engine.toNat = false)
    ∧ (∃ (s : State) (core : BitVec 10) (engine : BitVec 2) (c : EngCmd) (cs : List EngCmd) (a : Nat) (b : Nat) (xs : List Nat),
        s.coreUp core.toNat = true ∧ (s.engine core.toNat engine.toNat).queue = c :: cs ∧ c.phase = .voting
        ∧ s.shadowCores core.toNat engine.toNat = a :: b :: xs ∧ a ≠ core.toNat)
    ∧ (∃ (s : State) (core : BitVec 10) (engine : BitVec 2) (c : EngCmd) (cs : List EngCmd) (a : Nat) (b : Nat) (xs : List Nat),
        s.coreUp core.toNat = true ∧ (s.engine core.toNat engine.toNat).queue = c :: cs ∧ c.phase = .voting
        ∧ s.shadowCores core.toNat engine.toNat = a :: b :: xs ∧ a ≠ core.toNat)
    ∧ (∃ (s : State) (core : BitVec 10) (engine : BitVec 2) (vote : BitVec 2) (c : EngCmd) (cs : List EngCmd) (a : Nat) (b : Nat) (xs : List Nat),
        s.coreUp core.toNat = true ∧ (s.engine core.toNat engine.toNat).queue = c :: cs ∧ c.phase = .voting
        ∧ s.shadowCores core.toNat engine.toNat = a :: b :: xs ∧ 2 ≤ vote.toNat ∧ c.tid < 64) :=
  ⟨⟨prog (fun t => t) [(1, 0x100)], 5, 3, { xa := 1 }, by decide +kernel⟩,
   ⟨prog (fun t => t) [(1, 0x100)], 5, 3, { xa := 1, fn := 1 }, by decide +kernel⟩,
   ⟨prog (fun t => t) [(1, 0x100)], 5, 3, { xa := 1 }, by decide +kernel⟩,
   ⟨prog (fun t => t) [(1, 0x100)], 5, 3, { xa := 1, fn := 2 }, by decide +kernel⟩,
   ⟨prog (fun t => t) [(1, 0x100)] |>.onEngine 5 0 (fun x => { x with queue := List.replicate 32 {tid := 1, desc := 0} }), 5, 3,
       { xa := 1 }, by decide +kernel⟩,
   ⟨prog (fun t => { t with ecnt := 1 }) [] |>.onEngine 5 1 (fun x => { x with queue := [{ tid := 3, desc := 0x100, pc := 0x01000000 }] }),
       5, 1, { tid := 3, desc := 0x100, pc := 0x01000000 }, [], 4, by decide +kernel⟩,
   ⟨prog (fun t => { t with ecnt := 1 }) [] |>.onEngine 5 1 (fun x => { x with queue := [{ tid := 3, desc := 0x100, pc := 0x01000000, phase := .running, out := { writes := [(0x200, [1,2])] } }] }),
       5, 1, { tid := 3, desc := 0x100, pc := 0x01000000, phase := .running, out := { writes := [(0x200, [1,2])] } }, [],
       0x200, [1,2], by decide +kernel⟩,
   ⟨prog (fun t => { t with ecnt := 1 }) [] |>.onEngine 5 0 (fun x => { x with queue := [{ tid := 3, desc := 0x100, pc := 0x01000000, phase := .compared, out := { tile := some (2, { int := true }) } }] }),
       5, 0, { tid := 3, desc := 0x100, pc := 0x01000000, phase := .compared, out := { tile := some (2, { int := true }) } },
       [], 2, { int := true }, by decide +kernel⟩,
   ⟨prog (fun t => { t with ecnt := 1 }) [] |>.onEngine 5 0 (fun x => { x with queue := [{ tid := 3, desc := 0x100, pc := 0x01000000, phase := .running, sampled := true }] }),
       5, 0, { tid := 3, desc := 0x100, pc := 0x01000000, phase := .running, sampled := true }, [], 13, [21, 29],
       by decide +kernel⟩,
   ⟨prog (fun t => { t with ecnt := 1 }) [] |>.onEngine 5 0 (fun x => { x with queue := [{ tid := 3, desc := 0x100, pc := 0x01000000, phase := .running, sampled := true }] }),
       5, 0, { tid := 3, desc := 0x100, pc := 0x01000000, phase := .running, sampled := true }, [], 13, 21, [29],
       by decide +kernel⟩,
   ⟨prog (fun t => { t with ecnt := 1 }) [] |>.onEngine 5 0 (fun x => { x with queue := [{ tid := 3, desc := 0x100, pc := 0x01000000, phase := .voting }] }),
       5, 0, { tid := 3, desc := 0x100, pc := 0x01000000, phase := .voting }, [], 13, 21, [29], by decide +kernel⟩,
   ⟨prog (fun t => { t with ecnt := 1 }) [] |>.onEngine 5 0 (fun x => { x with queue := [{ tid := 3, desc := 0x100, pc := 0x01000000, phase := .voting }] }),
       5, 0, { tid := 3, desc := 0x100, pc := 0x01000000, phase := .voting }, [], 13, 21, [29], by decide +kernel⟩,
   ⟨prog (fun t => { t with ecnt := 1 }) [] |>.onEngine 5 0 (fun x => { x with queue := [{ tid := 3, desc := 0x100, pc := 0x01000000, phase := .voting }] }),
       5, 0, 2, { tid := 3, desc := 0x100, pc := 0x01000000, phase := .voting }, [], 13, 21, [29], by decide +kernel⟩⟩

theorem witness_EnginesStart :
    (∃ (s : State) (core : BitVec 10) (c : EngCmd) (cs : List EngCmd) (o : EngOut), s.headWaits core.toNat 0 1 c cs
        ∧ s.verdict core.toNat 0 c.desc = .ok o)
    ∧ (∃ (s : State) (core : BitVec 10) (c : EngCmd) (cs : List EngCmd) (o : EngOut), s.headWaits core.toNat 0 2 c cs
        ∧ s.verdict core.toNat 0 c.desc = .ok o)
    ∧ (∃ (s : State) (core : BitVec 10) (c : EngCmd) (cs : List EngCmd) (o : EngOut), s.headWaits core.toNat 0 3 c cs
        ∧ s.verdict core.toNat 0 c.desc = .ok o)
    ∧ (∃ (s : State) (core : BitVec 10) (c : EngCmd) (cs : List EngCmd) (o : EngOut), s.headWaits core.toNat 0 4 c cs
        ∧ s.verdict core.toNat 0 c.desc = .ok o)
    ∧ (∃ (s : State) (core : BitVec 10) (ve : Bool) (c : EngCmd) (cs : List EngCmd) (o : EngOut),
        s.headWaits core.toNat (veNo ve) 1 c cs ∧ s.verdict core.toNat (veNo ve) c.desc = .ok o)
    ∧ (∃ (s : State) (core : BitVec 10) (ve : Bool) (c : EngCmd) (cs : List EngCmd) (o : EngOut),
        s.headWaits core.toNat (veNo ve) 2 c cs ∧ s.verdict core.toNat (veNo ve) c.desc = .ok o)
    ∧ (∃ (s : State) (core : BitVec 10) (ve : Bool) (c : EngCmd) (cs : List EngCmd) (o : EngOut),
        s.headWaits core.toNat (veNo ve) 3 c cs ∧ s.verdict core.toNat (veNo ve) c.desc = .ok o)
    ∧ (∃ (s : State) (core : BitVec 10) (ve : Bool) (c : EngCmd) (cs : List EngCmd) (o : EngOut),
        s.headWaits core.toNat (veNo ve) 4 c cs ∧ s.verdict core.toNat (veNo ve) c.desc = .ok o)
    ∧ (∃ (s : State) (core : BitVec 10) (ve : Bool) (c : EngCmd) (cs : List EngCmd) (o : EngOut),
        s.headWaits core.toNat (veNo ve) 5 c cs ∧ s.verdict core.toNat (veNo ve) c.desc = .ok o)
    ∧ (∃ (s : State) (core : BitVec 10) (ve : Bool) (c : EngCmd) (cs : List EngCmd) (o : EngOut),
        s.headWaits core.toNat (veNo ve) 6 c cs ∧ s.verdict core.toNat (veNo ve) c.desc = .ok o)
    ∧ (∃ (s : State) (core : BitVec 10) (ve : Bool) (c : EngCmd) (cs : List EngCmd) (o : EngOut),
        s.headWaits core.toNat (veNo ve) 7 c cs ∧ s.verdict core.toNat (veNo ve) c.desc = .ok o)
    ∧ (∃ (s : State) (core : BitVec 10) (ve : Bool) (c : EngCmd) (cs : List EngCmd) (o : EngOut),
        s.headWaits core.toNat (veNo ve) 8 c cs ∧ s.verdict core.toNat (veNo ve) c.desc = .ok o)
    ∧ (∃ (s : State) (core : BitVec 10) (ve : Bool) (c : EngCmd) (cs : List EngCmd) (o : EngOut),
        s.headWaits core.toNat (veNo ve) 9 c cs ∧ s.verdict core.toNat (veNo ve) c.desc = .ok o)
    ∧ (∃ (s : State) (core : BitVec 10) (ve : Bool) (c : EngCmd) (cs : List EngCmd) (o : EngOut),
        s.headWaits core.toNat (veNo ve) 10 c cs ∧ s.verdict core.toNat (veNo ve) c.desc = .ok o)
    ∧ (∃ (s : State) (core : BitVec 10) (ve : Bool) (c : EngCmd) (cs : List EngCmd) (o : EngOut),
        s.headWaits core.toNat (veNo ve) 11 c cs ∧ s.verdict core.toNat (veNo ve) c.desc = .ok o)
    ∧ (∃ (s : State) (core : BitVec 10) (ve : Bool) (c : EngCmd) (cs : List EngCmd) (o : EngOut),
        s.headWaits core.toNat (veNo ve) 12 c cs ∧ s.verdict core.toNat (veNo ve) c.desc = .ok o)
    ∧ (∃ (s : State) (core : BitVec 10) (ve : Bool) (c : EngCmd) (cs : List EngCmd) (o : EngOut),
        s.headWaits core.toNat (veNo ve) 13 c cs ∧ s.verdict core.toNat (veNo ve) c.desc = .ok o)
    ∧ (∃ (s : State) (core : BitVec 10) (c : EngCmd) (cs : List EngCmd) (o : EngOut), s.headWaits core.toNat 3 1 c cs
        ∧ gfePooled (s.descOf core.toNat c) = false ∧ s.verdict core.toNat 3 c.desc = .ok o)
    ∧ (∃ (s : State) (core : BitVec 10) (c : EngCmd) (cs : List EngCmd) (o : EngOut), s.headWaits core.toNat 3 2 c cs
        ∧ gfePooled (s.descOf core.toNat c) = false ∧ s.verdict core.toNat 3 c.desc = .ok o)
    ∧ (∃ (s : State) (core : BitVec 10) (c : EngCmd) (cs : List EngCmd) (o : EngOut), s.headWaits core.toNat 3 3 c cs
        ∧ gfePooled (s.descOf core.toNat c) = false ∧ s.verdict core.toNat 3 c.desc = .ok o)
    ∧ (∃ (s : State) (core : BitVec 10) (c : EngCmd) (cs : List EngCmd) (o : EngOut), s.headWaits core.toNat 3 4 c cs
        ∧ gfePooled (s.descOf core.toNat c) = false ∧ s.verdict core.toNat 3 c.desc = .ok o)
    ∧ (∃ (s : State) (core : BitVec 10) (c : EngCmd) (cs : List EngCmd) (rows : List (Frame × ThreadSink)),
        s.headWaits core.toNat 3 1 c cs ∧ gfePooled (s.descOf core.toNat c) = true ∧ gfeShape (s.descOf core.toNat c) = true
        ∧ (s.core core.toNat).quar.getLsbD 3 = false ∧ s.gfePool core.toNat (s.descOf core.toNat c) false = .ok rows
        ∧ 64 ≤ (s.thread core.toNat c.tid).mcnt)
    ∧ (∃ (s : State) (core : BitVec 10) (c : EngCmd) (cs : List EngCmd) (rows : List (Frame × ThreadSink)),
        s.headWaits core.toNat 3 2 c cs ∧ gfePooled (s.descOf core.toNat c) = true ∧ gfeShape (s.descOf core.toNat c) = true
        ∧ (s.core core.toNat).quar.getLsbD 3 = false ∧ s.gfePool core.toNat (s.descOf core.toNat c) true = .ok rows
        ∧ 64 ≤ (s.thread core.toNat c.tid).mcnt) :=
  ⟨by refine ⟨prog (fun t => { t with ecnt := 1 }) [] |>.onEngine 5 0 (fun x => { x with queue := [{ tid := 3, desc := 0x100, pc := 0x01000000 }] }) |>.localWrite 5 0x100 [1,
      2, 10, 10, 2, 0, 0, 0, 0, 2, 0, 0, 0, 3, 0, 0, 0, 0, 0, 0, 0, 0, 0, 0, 0, 0, 0, 0, 0, 0, 0, 0, 0, 4, 0, 0, 128, 0, 0, 0,
      0, 0, 0, 0, 0, 0, 0, 0, 0, 0, 0, 0, 0, 0, 0, 0, 0, 0, 0, 0, 0, 0, 0,
      0] |>.localWrite 5 0x200 [1,2,0,0,3,0,0,0,0,0,128,63,0,0,0,64] |>.onCore 5 (fun c => { c with tiles := [(2, { int := true, elems := [(33, 5)] })] }),
      5, { tid := 3, desc := 0x100, pc := 0x01000000 }, [], _, ?_, ok_okOf ?_⟩ <;> decide +kernel,
   by refine ⟨prog (fun t => { t with ecnt := 1 }) [] |>.onEngine 5 0 (fun x => { x with queue := [{ tid := 3, desc := 0x100, pc := 0x01000000 }] }) |>.localWrite 5 0x100 [2,
       2, 0, 0, 0, 0, 0, 0, 0, 2, 0, 0, 0, 3, 0, 0, 0, 0, 0, 0, 0, 0, 0, 0, 0, 0, 0, 0, 0, 0, 0, 0, 0, 4, 0, 0, 128, 0, 0, 0,
       0, 0, 0, 0, 0, 0, 0, 0, 0, 0, 0, 0, 0, 0, 0, 0, 0, 0, 0, 0, 0, 0, 0,
       0] |>.localWrite 5 0x200 [1,2,0,0,3,0,0,0,0,0,128,63,0,0,0,64], 5, { tid := 3, desc := 0x100, pc := 0x01000000 }, [], _,
       ?_, ok_okOf ?_⟩ <;> decide +kernel,
   by refine ⟨prog (fun t => { t with ecnt := 1 }) [] |>.onEngine 5 0 (fun x => { x with queue := [{ tid := 3, desc := 0x100, pc := 0x01000000 }] }) |>.localWrite 5 0x100 [3,
       2, 0, 0, 0, 0, 0, 0, 0, 2, 0, 0, 0, 3, 0, 0, 0, 0, 0, 0, 0, 0, 0, 0, 0, 0, 0, 0, 0, 0, 0, 0, 0, 4, 0, 0, 128, 0, 0, 0,
       0, 0, 0, 0, 0, 0, 0, 0, 0, 0, 0, 0, 0, 0, 0, 0, 0, 0, 0, 0, 0, 0, 0,
       0] |>.localWrite 5 0x200 [1,2,0,0,3,0,0,0,0,0,128,63,0,0,0,64], 5, { tid := 3, desc := 0x100, pc := 0x01000000 }, [], _,
       ?_, ok_okOf ?_⟩ <;> decide +kernel,
   by refine ⟨prog (fun t => { t with ecnt := 1 }) [] |>.onEngine 5 0 (fun x => { x with queue := [{ tid := 3, desc := 0x100, pc := 0x01000000 }] }) |>.localWrite 5 0x100 [4,
       2, 0, 0, 0, 0, 0, 0, 0, 2, 0, 0, 0, 3, 0, 0, 0, 0, 0, 0, 0, 0, 0, 0, 0, 0, 0, 0, 0, 0, 0, 0, 0, 4, 0, 0, 128, 0, 0, 0,
       0, 0, 0, 0, 0, 0, 0, 0, 0, 0, 0, 0, 0, 0, 0, 0, 0, 0, 0, 0, 0, 0, 0,
       0] |>.localWrite 5 0x200 [1,2,0,0,3,0,0,0,0,0,128,63,0,0,0,64], 5, { tid := 3, desc := 0x100, pc := 0x01000000 }, [], _,
       ?_, ok_okOf ?_⟩ <;> decide +kernel,
   by refine ⟨prog (fun t => { t with ecnt := 1 }) [] |>.onEngine 5 1 (fun x => { x with queue := [{ tid := 3, desc := 0x100, pc := 0x01000000 }] }) |>.localWrite 5 0x100 [1,
       0, 0, 0, 2, 0, 0, 0, 0, 2, 0, 0, 8, 2, 0, 0, 0, 3, 0, 0, 0, 0, 0, 0, 0, 0, 0, 0, 0, 0, 0, 0, 0, 0, 0, 0, 0, 0, 0, 0, 0,
       0, 0, 0, 0, 0, 0, 0, 0, 0, 0, 0, 0, 0, 0, 0, 0, 0, 0, 0, 0, 0, 0,
       0] |>.localWrite 5 0x200 [1,2,0,0,3,0,0,0,0,0,128,63,0,0,0,64], 5, false, { tid := 3, desc := 0x100, pc := 0x01000000 },
       [], _, ?_, ok_okOf ?_⟩ <;> decide +kernel,
   by refine ⟨prog (fun t => { t with ecnt := 1 }) [] |>.onEngine 5 1 (fun x => { x with queue := [{ tid := 3, desc := 0x100, pc := 0x01000000 }] }) |>.localWrite 5 0x100 [2,
       0, 0, 0, 2, 0, 0, 0, 0, 2, 0, 0, 8, 2, 0, 0, 0, 3, 0, 0, 0, 0, 0, 0, 0, 0, 0, 0, 0, 0, 0, 0, 0, 0, 0, 0, 0, 0, 0, 0, 0,
       0, 0, 0, 0, 0, 0, 0, 0, 0, 0, 0, 0, 0, 0, 0, 0, 0, 0, 0, 0, 0, 0,
       0] |>.localWrite 5 0x200 [1,2,0,0,3,0,0,0,0,0,128,63,0,0,0,64], 5, false, { tid := 3, desc := 0x100, pc := 0x01000000 },
       [], _, ?_, ok_okOf ?_⟩ <;> decide +kernel,
   by refine ⟨prog (fun t => { t with ecnt := 1 }) [] |>.onEngine 5 1 (fun x => { x with queue := [{ tid := 3, desc := 0x100, pc := 0x01000000 }] }) |>.localWrite 5 0x100 [3,
       0, 0, 0, 2, 0, 0, 0, 0, 2, 0, 0, 8, 2, 0, 0, 0, 3, 0, 0, 0, 0, 0, 0, 0, 0, 0, 0, 0, 0, 0, 0, 0, 0, 0, 0, 0, 0, 0, 0, 0,
       0, 0, 0, 0, 0, 0, 0, 0, 0, 0, 0, 0, 0, 0, 0, 0, 0, 0, 0, 0, 0, 0,
       0] |>.localWrite 5 0x200 [1,2,0,0,3,0,0,0,0,0,128,63,0,0,0,64], 5, false, { tid := 3, desc := 0x100, pc := 0x01000000 },
       [], _, ?_, ok_okOf ?_⟩ <;> decide +kernel,
   by refine ⟨prog (fun t => { t with ecnt := 1 }) [] |>.onEngine 5 1 (fun x => { x with queue := [{ tid := 3, desc := 0x100, pc := 0x01000000 }] }) |>.localWrite 5 0x100 [4,
       0, 0, 0, 2, 0, 0, 0, 0, 2, 0, 0, 8, 2, 0, 0, 0, 3, 0, 0, 0, 0, 0, 0, 0, 0, 0, 0, 0, 0, 0, 0, 0, 0, 0, 0, 0, 0, 0, 0, 0,
       0, 0, 0, 0, 0, 0, 0, 0, 0, 0, 0, 0, 0, 0, 0, 0, 0, 0, 0, 0, 0, 0,
       0] |>.localWrite 5 0x200 [1,2,0,0,3,0,0,0,0,0,128,63,0,0,0,64], 5, false, { tid := 3, desc := 0x100, pc := 0x01000000 },
       [], _, ?_, ok_okOf ?_⟩ <;> decide +kernel,
   by refine ⟨prog (fun t => { t with ecnt := 1 }) [] |>.onEngine 5 1 (fun x => { x with queue := [{ tid := 3, desc := 0x100, pc := 0x01000000 }] }) |>.localWrite 5 0x100 [5,
       0, 0, 0, 2, 0, 0, 0, 0, 2, 0, 0, 8, 2, 0, 0, 0, 3, 0, 0, 0, 0, 0, 0, 0, 0, 0, 0, 0, 0, 0, 0, 0, 0, 0, 0, 0, 0, 0, 0, 0,
       0, 0, 0, 0, 0, 0, 0, 0, 0, 0, 0, 0, 0, 0, 0, 0, 0, 0, 0, 0, 0, 0,
       0] |>.localWrite 5 0x200 [1,2,0,0,3,0,0,0,0,0,128,63,0,0,0,64], 5, false, { tid := 3, desc := 0x100, pc := 0x01000000 },
       [], _, ?_, ok_okOf ?_⟩ <;> decide +kernel,
   by refine ⟨prog (fun t => { t with ecnt := 1 }) [] |>.onEngine 5 1 (fun x => { x with queue := [{ tid := 3, desc := 0x100, pc := 0x01000000 }] }) |>.localWrite 5 0x100 [6,
       0, 0, 0, 2, 0, 0, 0, 0, 2, 0, 0, 8, 2, 0, 0, 0, 3, 0, 0, 0, 0, 0, 0, 0, 0, 0, 0, 0, 0, 0, 0, 0, 0, 0, 0, 0, 0, 0, 0, 0,
       0, 0, 0, 0, 0, 0, 0, 0, 0, 0, 0, 0, 0, 0, 0, 0, 0, 0, 0, 0, 0, 0,
       0] |>.localWrite 5 0x200 [1,2,0,0,3,0,0,0,0,0,128,63,0,0,0,64], 5, false, { tid := 3, desc := 0x100, pc := 0x01000000 },
       [], _, ?_, ok_okOf ?_⟩ <;> decide +kernel,
   by refine ⟨prog (fun t => { t with ecnt := 1 }) [] |>.onEngine 5 1 (fun x => { x with queue := [{ tid := 3, desc := 0x100, pc := 0x01000000 }] }) |>.localWrite 5 0x100 [7,
       0, 0, 0, 2, 0, 0, 0, 0, 2, 0, 0, 8, 2, 0, 0, 0, 3, 0, 0, 0, 0, 0, 0, 0, 0, 0, 0, 0, 0, 0, 0, 0, 0, 0, 0, 0, 0, 0, 0, 0,
       0, 0, 0, 0, 0, 0, 0, 0, 0, 0, 0, 0, 0, 0, 0, 0, 0, 0, 0, 0, 0, 0,
       0] |>.localWrite 5 0x200 [1,2,0,0,3,0,0,0,0,0,128,63,0,0,0,64], 5, false, { tid := 3, desc := 0x100, pc := 0x01000000 },
       [], _, ?_, ok_okOf ?_⟩ <;> decide +kernel,
   by refine ⟨prog (fun t => { t with ecnt := 1 }) [] |>.onEngine 5 1 (fun x => { x with queue := [{ tid := 3, desc := 0x100, pc := 0x01000000 }] }) |>.localWrite 5 0x100 [8,
       0, 0, 0, 2, 0, 0, 0, 0, 2, 0, 0, 8, 2, 0, 0, 0, 3, 0, 0, 0, 0, 0, 0, 0, 0, 0, 0, 0, 0, 0, 0, 0, 0, 0, 0, 0, 0, 0, 0, 0,
       0, 0, 0, 0, 0, 0, 0, 0, 0, 0, 0, 0, 0, 0, 0, 0, 0, 0, 0, 0, 0, 0,
       0] |>.localWrite 5 0x200 [1,2,0,0,3,0,0,0,0,0,128,63,0,0,0,64], 5, false, { tid := 3, desc := 0x100, pc := 0x01000000 },
       [], _, ?_, ok_okOf ?_⟩ <;> decide +kernel,
   by refine ⟨prog (fun t => { t with ecnt := 1 }) [] |>.onEngine 5 1 (fun x => { x with queue := [{ tid := 3, desc := 0x100, pc := 0x01000000 }] }) |>.localWrite 5 0x100 [9,
       0, 0, 0, 2, 0, 0, 0, 0, 2, 0, 0, 8, 2, 0, 0, 0, 3, 0, 0, 0, 0, 0, 0, 0, 0, 0, 0, 0, 0, 0, 0, 0, 0, 0, 0, 0, 0, 0, 0, 0,
       0, 0, 0, 0, 0, 0, 0, 0, 0, 0, 0, 0, 0, 0, 0, 0, 0, 0, 0, 0, 0, 0,
       0] |>.localWrite 5 0x200 [1,2,0,0,3,0,0,0,0,0,128,63,0,0,0,64], 5, false, { tid := 3, desc := 0x100, pc := 0x01000000 },
       [], _, ?_, ok_okOf ?_⟩ <;> decide +kernel,
   by refine ⟨prog (fun t => { t with ecnt := 1 }) [] |>.onEngine 5 1 (fun x => { x with queue := [{ tid := 3, desc := 0x100, pc := 0x01000000 }] }) |>.localWrite 5 0x100 [10,
       0, 0, 0, 2, 0, 0, 0, 0, 2, 0, 0, 8, 2, 0, 0, 0, 3, 0, 0, 0, 0, 0, 0, 0, 0, 0, 0, 0, 0, 0, 0, 0, 0, 0, 0, 0, 0, 0, 0, 0,
       0, 0, 0, 0, 0, 0, 0, 0, 0, 0, 0, 0, 0, 0, 0, 0, 0, 0, 0, 0, 0, 0,
       0] |>.localWrite 5 0x200 [1,2,0,0,3,0,0,0,0,0,128,63,0,0,0,64], 5, false, { tid := 3, desc := 0x100, pc := 0x01000000 },
       [], _, ?_, ok_okOf ?_⟩ <;> decide +kernel,
   by refine ⟨prog (fun t => { t with ecnt := 1 }) [] |>.onEngine 5 1 (fun x => { x with queue := [{ tid := 3, desc := 0x100, pc := 0x01000000 }] }) |>.localWrite 5 0x100 [11,
       0, 0, 0, 2, 0, 0, 0, 0, 2, 0, 0, 8, 2, 0, 0, 0, 3, 0, 0, 0, 0, 0, 0, 0, 0, 0, 0, 0, 0, 0, 0, 0, 0, 0, 0, 0, 0, 0, 0, 0,
       0, 0, 0, 0, 0, 0, 0, 0, 0, 0, 0, 0, 0, 0, 0, 0, 0, 0, 0, 0, 0, 0,
       0] |>.localWrite 5 0x200 [1,2,0,0,3,0,0,0,0,0,128,63,0,0,0,64], 5, false, { tid := 3, desc := 0x100, pc := 0x01000000 },
       [], _, ?_, ok_okOf ?_⟩ <;> decide +kernel,
   by refine ⟨prog (fun t => { t with ecnt := 1 }) [] |>.onEngine 5 1 (fun x => { x with queue := [{ tid := 3, desc := 0x100, pc := 0x01000000 }] }) |>.localWrite 5 0x100 [12,
       0, 0, 0, 2, 0, 0, 0, 0, 2, 0, 0, 8, 2, 0, 0, 0, 3, 0, 0, 0, 0, 0, 0, 0, 0, 0, 0, 0, 0, 0, 0, 0, 0, 0, 0, 0, 0, 0, 0, 0,
       0, 0, 0, 0, 0, 0, 0, 0, 0, 0, 0, 0, 0, 0, 0, 0, 0, 0, 0, 0, 0, 0,
       0] |>.localWrite 5 0x200 [1,2,0,0,3,0,0,0,0,0,128,63,0,0,0,64], 5, false, { tid := 3, desc := 0x100, pc := 0x01000000 },
       [], _, ?_, ok_okOf ?_⟩ <;> decide +kernel,
   by refine ⟨prog (fun t => { t with ecnt := 1 }) [] |>.onEngine 5 1 (fun x => { x with queue := [{ tid := 3, desc := 0x100, pc := 0x01000000 }] }) |>.localWrite 5 0x100 [13,
       0, 0, 0, 2, 0, 0, 0, 0, 2, 0, 0, 8, 2, 0, 0, 0, 3, 0, 0, 0, 0, 0, 0, 0, 0, 0, 0, 0, 0, 0, 0, 0, 0, 0, 0, 0, 0, 0, 0, 0,
       0, 0, 0, 0, 0, 0, 0, 0, 0, 0, 0, 0, 0, 0, 0, 0, 0, 0, 0, 0, 0, 0,
       0] |>.localWrite 5 0x200 [1,2,0,0,3,0,0,0,0,0,128,63,0,0,0,64], 5, false, { tid := 3, desc := 0x100, pc := 0x01000000 },
       [], _, ?_, ok_okOf ?_⟩ <;> decide +kernel,
   by refine ⟨prog (fun t => { t with ecnt := 1 }) [] |>.onEngine 5 3 (fun x => { x with queue := [{ tid := 3, desc := 0x100, pc := 0x01000000 }] }) |>.localWrite 5 0x100 [1,
       0, 0, 0, 2, 0, 0, 0, 128, 2, 0, 0, 0, 3, 0, 0, 0, 2, 0, 0, 0, 0, 0, 0, 4, 0, 0, 0, 2, 0, 0, 0, 0, 0, 0, 0, 0, 0, 0, 0,
       0, 0, 0, 0, 0, 0, 0, 0, 0, 0, 0, 0, 0, 0, 0, 0, 0, 0, 0, 0, 0, 0, 0,
       0] |>.localWrite 5 0x200 [1,2,0,0,3,0,0,0,0,0,128,63,0,0,0,64], 5, { tid := 3, desc := 0x100, pc := 0x01000000 }, [], _,
       ?_, ?_, ok_okOf ?_⟩ <;> decide +kernel,
   by refine ⟨prog (fun t => { t with ecnt := 1 }) [] |>.onEngine 5 3 (fun x => { x with queue := [{ tid := 3, desc := 0x100, pc := 0x01000000 }] }) |>.localWrite 5 0x100 [2,
       0, 0, 0, 2, 0, 0, 0, 128, 2, 0, 0, 0, 3, 0, 0, 0, 2, 0, 0, 0, 0, 0, 0, 4, 0, 0, 0, 2, 0, 0, 0, 0, 0, 0, 0, 0, 0, 0, 0,
       0, 0, 0, 0, 0, 0, 0, 0, 0, 0, 0, 0, 0, 0, 0, 0, 0, 0, 0, 0, 0, 0, 0,
       0] |>.localWrite 5 0x200 [1,2,0,0,3,0,0,0,0,0,128,63,0,0,0,64], 5, { tid := 3, desc := 0x100, pc := 0x01000000 }, [], _,
       ?_, ?_, ok_okOf ?_⟩ <;> decide +kernel,
   by refine ⟨prog (fun t => { t with ecnt := 1 }) [] |>.onEngine 5 3 (fun x => { x with queue := [{ tid := 3, desc := 0x100, pc := 0x01000000 }] }) |>.localWrite 5 0x100 [3,
       0, 2, 11, 2, 0, 0, 0, 0, 2, 0, 0, 0, 3, 0, 0, 0, 2, 0, 0, 0, 0, 0, 0, 4, 0, 0, 0, 2, 0, 0, 0, 0, 0, 0, 0, 0, 4, 0, 0, 0,
       0, 0, 0, 0, 0, 0, 0, 0, 0, 0, 0, 0, 0, 0, 0, 0, 0, 0, 0, 0, 0, 0,
       0] |>.localWrite 5 0x200 [1,2,0,0,3,0,0,0,0,0,128,63,0,0,0,64], 5, { tid := 3, desc := 0x100, pc := 0x01000000 }, [], _,
       ?_, ?_, ok_okOf ?_⟩ <;> decide +kernel,
   by refine ⟨prog (fun t => { t with ecnt := 1 }) [] |>.onEngine 5 3 (fun x => { x with queue := [{ tid := 3, desc := 0x100, pc := 0x01000000 }] }) |>.localWrite 5 0x100 [4,
       0, 2, 11, 2, 0, 0, 0, 0, 2, 0, 0, 0, 3, 0, 0, 0, 2, 0, 0, 0, 0, 0, 0, 2, 0, 0, 0, 2, 0, 0, 0, 0, 0, 0, 0, 0, 0, 0, 0, 0,
       0, 0, 0, 0, 0, 0, 0, 0, 0, 0, 0, 0, 0, 0, 0, 0, 0, 0, 0, 0, 0, 0,
       0] |>.localWrite 5 0x200 [1,2,0,0,3,0,0,0,0,0,128,63,0,0,0,64], 5, { tid := 3, desc := 0x100, pc := 0x01000000 }, [], _,
       ?_, ?_, ok_okOf ?_⟩ <;> decide +kernel,
   ⟨(prog (fun t => { t with ecnt := 1 }) [] |>.onEngine 5 3 (fun x => { x with queue := [{ tid := 3, desc := 0x100, pc := 0x01000000 }] }) |>.localWrite 5 0x100 [1,
       1, 0, 0, 2, 0, 0, 0, 128, 2, 0, 0, 0, 3, 0, 0, 0, 2, 0, 0, 0, 0, 0, 0, 64, 0, 0, 0, 2, 0, 0, 0, 0, 0, 0, 0, 0, 0, 0, 0,
       0, 0, 0, 0, 0, 0, 0, 0, 0, 0, 0, 0, 0, 0, 0, 0, 0, 0, 0, 0, 0, 0, 0,
       0] |>.localWrite 5 0x200 [1,2,0,0,3,0,0,0,0,0,128,63,0,0,0,64]).onThread 5 3 (fun x => { x with mcnt := 64 }), 5,
       { tid := 3, desc := 0x100, pc := 0x01000000 }, [],
       (match ((prog (fun t => { t with ecnt := 1 }) [] |>.onEngine 5 3 (fun x => { x with queue := [{ tid := 3, desc := 0x100, pc := 0x01000000 }] }) |>.localWrite 5 0x100 [1, 1, 0, 0, 2, 0, 0, 0, 128, 2, 0, 0, 0, 3, 0, 0, 0, 2, 0, 0, 0, 0, 0, 0, 64, 0, 0, 0, 2, 0, 0, 0, 0, 0, 0, 0, 0, 0, 0, 0, 0, 0, 0, 0, 0, 0, 0, 0, 0, 0, 0, 0, 0, 0, 0, 0, 0, 0, 0, 0, 0, 0, 0, 0] |>.localWrite 5 0x200 [1,2,0,0,3,0,0,0,0,0,128,63,0,0,0,64]).gfePool 5 [1, 1, 0, 0, 2, 0, 0, 0, 128, 2, 0, 0, 0, 3, 0, 0, 0, 2, 0, 0, 0, 0, 0, 0, 64, 0, 0, 0, 2, 0, 0, 0, 0, 0, 0, 0, 0, 0, 0, 0, 0, 0, 0, 0, 0, 0, 0, 0, 0, 0, 0, 0, 0, 0, 0, 0, 0, 0, 0, 0, 0, 0, 0, 0] false) with | .ok r => r | _ => []),
       by decide +kernel⟩,
   ⟨(prog (fun t => { t with ecnt := 1 }) [] |>.onEngine 5 3 (fun x => { x with queue := [{ tid := 3, desc := 0x100, pc := 0x01000000 }] }) |>.localWrite 5 0x100 [2,
       1, 0, 0, 2, 0, 0, 0, 128, 2, 0, 0, 0, 3, 0, 0, 0, 2, 0, 0, 0, 0, 0, 0, 64, 0, 0, 0, 2, 0, 0, 0, 0, 0, 0, 0, 0, 0, 0, 0,
       0, 0, 0, 0, 0, 0, 0, 0, 0, 0, 0, 0, 0, 0, 0, 0, 0, 0, 0, 0, 0, 0, 0,
       0] |>.localWrite 5 0x200 [1,2,0,0,3,0,0,0,0,0,128,63,0,0,0,64]).onThread 5 3 (fun x => { x with mcnt := 64 }), 5,
       { tid := 3, desc := 0x100, pc := 0x01000000 }, [],
       (match ((prog (fun t => { t with ecnt := 1 }) [] |>.onEngine 5 3 (fun x => { x with queue := [{ tid := 3, desc := 0x100, pc := 0x01000000 }] }) |>.localWrite 5 0x100 [2, 1, 0, 0, 2, 0, 0, 0, 128, 2, 0, 0, 0, 3, 0, 0, 0, 2, 0, 0, 0, 0, 0, 0, 64, 0, 0, 0, 2, 0, 0, 0, 0, 0, 0, 0, 0, 0, 0, 0, 0, 0, 0, 0, 0, 0, 0, 0, 0, 0, 0, 0, 0, 0, 0, 0, 0, 0, 0, 0, 0, 0, 0, 0] |>.localWrite 5 0x200 [1,2,0,0,3,0,0,0,0,0,128,63,0,0,0,64]).gfePool 5 [2, 1, 0, 0, 2, 0, 0, 0, 128, 2, 0, 0, 0, 3, 0, 0, 0, 2, 0, 0, 0, 0, 0, 0, 64, 0, 0, 0, 2, 0, 0, 0, 0, 0, 0, 0, 0, 0, 0, 0, 0, 0, 0, 0, 0, 0, 0, 0, 0, 0, 0, 0, 0, 0, 0, 0, 0, 0, 0, 0, 0, 0, 0, 0] true) with | .ok r => r | _ => []),
       by decide +kernel⟩⟩

theorem witness_VectorResults :
    (∃ (s : State) (k : Nat) (e : Nat) (n : Nat) (desc : Nat) (d : List Byte), e = 1 ∨ e = 2 ∧ s.vePlain k e 1 n d desc
        ∧ localOk s.comp.run k (field d 12 4) (4 * n) false = true ∧ localOk s.comp.run k (field d 16 4) (4 * n) true = true)
    ∧ (∃ (s : State) (k : Nat) (e : Nat) (n : Nat) (desc : Nat) (d : List Byte), e = 1 ∨ e = 2 ∧ s.vePlain k e 2 n d desc
        ∧ localOk s.comp.run k (field d 12 4) (4 * n) false = true ∧ localOk s.comp.run k (field d 16 4) (4 * n) true = true)
    ∧ (∃ (s : State) (k : Nat) (e : Nat) (n : Nat) (desc : Nat) (d : List Byte), e = 1 ∨ e = 2 ∧ s.vePlain k e 3 n d desc
        ∧ localOk s.comp.run k (field d 12 4) (4 * n) false = true ∧ localOk s.comp.run k (field d 16 4) (4 * n) true = true)
    ∧ (∃ (s : State) (k : Nat) (e : Nat) (n : Nat) (desc : Nat) (d : List Byte), e = 1 ∨ e = 2 ∧ s.vePlain k e 4 n d desc
        ∧ localOk s.comp.run k (field d 12 4) (4 * n) false = true ∧ localOk s.comp.run k (field d 16 4) (4 * n) false = true
        ∧ localOk s.comp.run k (field d 16 4) (4 * n) true = true)
    ∧ (∃ (s : State) (k : Nat) (e : Nat) (n : Nat) (desc : Nat) (d : List Byte), e = 1 ∨ e = 2 ∧ s.vePlain k e 5 n d desc
        ∧ localOk s.comp.run k (field d 12 4) (4 * n) false = true ∧ localOk s.comp.run k (field d 16 4) (4 * n) true = true)
    ∧ (∃ (s : State) (k : Nat) (e : Nat) (n : Nat) (desc : Nat) (d : List Byte), e = 1 ∨ e = 2 ∧ s.vePlain k e 6 n d desc
        ∧ localOk s.comp.run k (field d 12 4) (4 * n) false = true ∧ localOk s.comp.run k (field d 16 4) (4 * n) true = true)
    ∧ (∃ (s : State) (k : Nat) (e : Nat) (n : Nat) (desc : Nat) (d : List Byte), e = 1 ∨ e = 2 ∧ s.vePlain k e 7 n d desc
        ∧ localOk s.comp.run k (field d 16 4) (4 * n) true = true)
    ∧ (∃ (s : State) (k : Nat) (e : Nat) (n : Nat) (desc : Nat) (d : List Byte), e = 1 ∨ e = 2 ∧ s.vePlain k e 8 n d desc
        ∧ localOk s.comp.run k (field d 16 4) (4 * n) true = true)
    ∧ (∃ (s : State) (k : Nat) (e : Nat) (n : Nat) (desc : Nat) (d : List Byte), e = 1 ∨ e = 2 ∧ s.vePlain k e 9 n d desc
        ∧ localOk s.comp.run k (field d 16 4) (4 * n) true = true)
    ∧ (∃ (s : State) (k : Nat) (e : Nat) (n : Nat) (desc : Nat) (d : List Byte), e = 1 ∨ e = 2 ∧ s.vePlain k e 10 n d desc
        ∧ localOk s.comp.run k (field d 16 4) (4 * n) true = true)
    ∧ (∃ (s : State) (k : Nat) (e : Nat) (n : Nat) (desc : Nat) (d : List Byte), e = 1 ∨ e = 2 ∧ s.vePlain k e 11 n d desc
        ∧ localOk s.comp.run k (field d 16 4) (4 * n) true = true)
    ∧ (∃ (s : State) (k : Nat) (e : Nat) (n : Nat) (desc : Nat) (d : List Byte), e = 1 ∨ e = 2 ∧ s.vePlain k e 12 n d desc
        ∧ localOk s.comp.run k (field d 16 4) (4) true = true)
    ∧ (∃ (s : State) (k : Nat) (e : Nat) (n : Nat) (desc : Nat) (d : List Byte), e = 1 ∨ e = 2 ∧ s.vePlain k e 13 n d desc
        ∧ localOk s.comp.run k (field d 16 4) (4) true = true)
    ∧ (∃ (bs : List Byte) (n : Nat) (i : Nat), i < n)
    ∧ (∃ (xs : List Nat) (i : Nat), i < xs.length) :=
  ⟨⟨prog (fun t => { t with ecnt := 1 }) [] |>.onEngine 5 1 (fun x => { x with queue := [{ tid := 3, desc := 0x100, pc := 0x01000000 }] }) |>.localWrite 5 0x100 [1,
      0, 0, 0, 2, 0, 0, 0, 0, 2, 0, 0, 8, 2, 0, 0, 0, 3, 0, 0, 0, 0, 0, 0, 0, 0, 0, 0, 0, 0, 0, 0, 0, 0, 0, 0, 0, 0, 0, 0, 0,
      0, 0, 0, 0, 0, 0, 0, 0, 0, 0, 0, 0, 0, 0, 0, 0, 0, 0, 0, 0, 0, 0,
      0] |>.localWrite 5 0x200 [1,2,0,0,3,0,0,0,0,0,128,63,0,0,0,64], 5, 1, 2, 0x100,
      [1, 0, 0, 0, 2, 0, 0, 0, 0, 2, 0, 0, 8, 2, 0, 0, 0, 3, 0, 0, 0, 0, 0, 0, 0, 0, 0, 0, 0, 0, 0, 0, 0, 0, 0, 0, 0, 0, 0, 0,
      0, 0, 0, 0, 0, 0, 0, 0, 0, 0, 0, 0, 0, 0, 0, 0, 0, 0, 0, 0, 0, 0, 0, 0], by decide +kernel⟩,
   ⟨prog (fun t => { t with ecnt := 1 }) [] |>.onEngine 5 1 (fun x => { x with queue := [{ tid := 3, desc := 0x100, pc := 0x01000000 }] }) |>.localWrite 5 0x100 [2,
       0, 0, 0, 2, 0, 0, 0, 0, 2, 0, 0, 8, 2, 0, 0, 0, 3, 0, 0, 0, 0, 0, 0, 0, 0, 0, 0, 0, 0, 0, 0, 0, 0, 0, 0, 0, 0, 0, 0, 0,
       0, 0, 0, 0, 0, 0, 0, 0, 0, 0, 0, 0, 0, 0, 0, 0, 0, 0, 0, 0, 0, 0,
       0] |>.localWrite 5 0x200 [1,2,0,0,3,0,0,0,0,0,128,63,0,0,0,64], 5, 1, 2, 0x100,
       [2, 0, 0, 0, 2, 0, 0, 0, 0, 2, 0, 0, 8, 2, 0, 0, 0, 3, 0, 0, 0, 0, 0, 0, 0, 0, 0, 0, 0, 0, 0, 0, 0, 0, 0, 0, 0, 0, 0, 0,
       0, 0, 0, 0, 0, 0, 0, 0, 0, 0, 0, 0, 0, 0, 0, 0, 0, 0, 0, 0, 0, 0, 0, 0], by decide +kernel⟩,
   ⟨prog (fun t => { t with ecnt := 1 }) [] |>.onEngine 5 1 (fun x => { x with queue := [{ tid := 3, desc := 0x100, pc := 0x01000000 }] }) |>.localWrite 5 0x100 [3,
       0, 0, 0, 2, 0, 0, 0, 0, 2, 0, 0, 8, 2, 0, 0, 0, 3, 0, 0, 0, 0, 0, 0, 0, 0, 0, 0, 0, 0, 0, 0, 0, 0, 0, 0, 0, 0, 0, 0, 0,
       0, 0, 0, 0, 0, 0, 0, 0, 0, 0, 0, 0, 0, 0, 0, 0, 0, 0, 0, 0, 0, 0,
       0] |>.localWrite 5 0x200 [1,2,0,0,3,0,0,0,0,0,128,63,0,0,0,64], 5, 1, 2, 0x100,
       [3, 0, 0, 0, 2, 0, 0, 0, 0, 2, 0, 0, 8, 2, 0, 0, 0, 3, 0, 0, 0, 0, 0, 0, 0, 0, 0, 0, 0, 0, 0, 0, 0, 0, 0, 0, 0, 0, 0, 0,
       0, 0, 0, 0, 0, 0, 0, 0, 0, 0, 0, 0, 0, 0, 0, 0, 0, 0, 0, 0, 0, 0, 0, 0], by decide +kernel⟩,
   ⟨prog (fun t => { t with ecnt := 1 }) [] |>.onEngine 5 1 (fun x => { x with queue := [{ tid := 3, desc := 0x100, pc := 0x01000000 }] }) |>.localWrite 5 0x100 [4,
       0, 0, 0, 2, 0, 0, 0, 0, 2, 0, 0, 8, 2, 0, 0, 0, 3, 0, 0, 0, 0, 0, 0, 0, 0, 0, 0, 0, 0, 0, 0, 0, 0, 0, 0, 0, 0, 0, 0, 0,
       0, 0, 0, 0, 0, 0, 0, 0, 0, 0, 0, 0, 0, 0, 0, 0, 0, 0, 0, 0, 0, 0,
       0] |>.localWrite 5 0x200 [1,2,0,0,3,0,0,0,0,0,128,63,0,0,0,64], 5, 1, 2, 0x100,
       [4, 0, 0, 0, 2, 0, 0, 0, 0, 2, 0, 0, 8, 2, 0, 0, 0, 3, 0, 0, 0, 0, 0, 0, 0, 0, 0, 0, 0, 0, 0, 0, 0, 0, 0, 0, 0, 0, 0, 0,
       0, 0, 0, 0, 0, 0, 0, 0, 0, 0, 0, 0, 0, 0, 0, 0, 0, 0, 0, 0, 0, 0, 0, 0], by decide +kernel⟩,
   ⟨prog (fun t => { t with ecnt := 1 }) [] |>.onEngine 5 1 (fun x => { x with queue := [{ tid := 3, desc := 0x100, pc := 0x01000000 }] }) |>.localWrite 5 0x100 [5,
       0, 0, 0, 2, 0, 0, 0, 0, 2, 0, 0, 8, 2, 0, 0, 0, 3, 0, 0, 0, 0, 0, 0, 0, 0, 0, 0, 0, 0, 0, 0, 0, 0, 0, 0, 0, 0, 0, 0, 0,
       0, 0, 0, 0, 0, 0, 0, 0, 0, 0, 0, 0, 0, 0, 0, 0, 0, 0, 0, 0, 0, 0,
       0] |>.localWrite 5 0x200 [1,2,0,0,3,0,0,0,0,0,128,63,0,0,0,64], 5, 1, 2, 0x100,
       [5, 0, 0, 0, 2, 0, 0, 0, 0, 2, 0, 0, 8, 2, 0, 0, 0, 3, 0, 0, 0, 0, 0, 0, 0, 0, 0, 0, 0, 0, 0, 0, 0, 0, 0, 0, 0, 0, 0, 0,
       0, 0, 0, 0, 0, 0, 0, 0, 0, 0, 0, 0, 0, 0, 0, 0, 0, 0, 0, 0, 0, 0, 0, 0], by decide +kernel⟩,
   ⟨prog (fun t => { t with ecnt := 1 }) [] |>.onEngine 5 1 (fun x => { x with queue := [{ tid := 3, desc := 0x100, pc := 0x01000000 }] }) |>.localWrite 5 0x100 [6,
       0, 0, 0, 2, 0, 0, 0, 0, 2, 0, 0, 8, 2, 0, 0, 0, 3, 0, 0, 0, 0, 0, 0, 0, 0, 0, 0, 0, 0, 0, 0, 0, 0, 0, 0, 0, 0, 0, 0, 0,
       0, 0, 0, 0, 0, 0, 0, 0, 0, 0, 0, 0, 0, 0, 0, 0, 0, 0, 0, 0, 0, 0,
       0] |>.localWrite 5 0x200 [1,2,0,0,3,0,0,0,0,0,128,63,0,0,0,64], 5, 1, 2, 0x100,
       [6, 0, 0, 0, 2, 0, 0, 0, 0, 2, 0, 0, 8, 2, 0, 0, 0, 3, 0, 0, 0, 0, 0, 0, 0, 0, 0, 0, 0, 0, 0, 0, 0, 0, 0, 0, 0, 0, 0, 0,
       0, 0, 0, 0, 0, 0, 0, 0, 0, 0, 0, 0, 0, 0, 0, 0, 0, 0, 0, 0, 0, 0, 0, 0], by decide +kernel⟩,
   ⟨prog (fun t => { t with ecnt := 1 }) [] |>.onEngine 5 1 (fun x => { x with queue := [{ tid := 3, desc := 0x100, pc := 0x01000000 }] }) |>.localWrite 5 0x100 [7,
       0, 0, 0, 2, 0, 0, 0, 0, 2, 0, 0, 8, 2, 0, 0, 0, 3, 0, 0, 0, 0, 0, 0, 0, 0, 0, 0, 0, 0, 0, 0, 0, 0, 0, 0, 0, 0, 0, 0, 0,
       0, 0, 0, 0, 0, 0, 0, 0, 0, 0, 0, 0, 0, 0, 0, 0, 0, 0, 0, 0, 0, 0,
       0] |>.localWrite 5 0x200 [1,2,0,0,3,0,0,0,0,0,128,63,0,0,0,64], 5, 1, 2, 0x100,
       [7, 0, 0, 0, 2, 0, 0, 0, 0, 2, 0, 0, 8, 2, 0, 0, 0, 3, 0, 0, 0, 0, 0, 0, 0, 0, 0, 0, 0, 0, 0, 0, 0, 0, 0, 0, 0, 0, 0, 0,
       0, 0, 0, 0, 0, 0, 0, 0, 0, 0, 0, 0, 0, 0, 0, 0, 0, 0, 0, 0, 0, 0, 0, 0], by decide +kernel⟩,
   ⟨prog (fun t => { t with ecnt := 1 }) [] |>.onEngine 5 1 (fun x => { x with queue := [{ tid := 3, desc := 0x100, pc := 0x01000000 }] }) |>.localWrite 5 0x100 [8,
       0, 0, 0, 2, 0, 0, 0, 0, 2, 0, 0, 8, 2, 0, 0, 0, 3, 0, 0, 0, 0, 0, 0, 0, 0, 0, 0, 0, 0, 0, 0, 0, 0, 0, 0, 0, 0, 0, 0, 0,
       0, 0, 0, 0, 0, 0, 0, 0, 0, 0, 0, 0, 0, 0, 0, 0, 0, 0, 0, 0, 0, 0,
       0] |>.localWrite 5 0x200 [1,2,0,0,3,0,0,0,0,0,128,63,0,0,0,64], 5, 1, 2, 0x100,
       [8, 0, 0, 0, 2, 0, 0, 0, 0, 2, 0, 0, 8, 2, 0, 0, 0, 3, 0, 0, 0, 0, 0, 0, 0, 0, 0, 0, 0, 0, 0, 0, 0, 0, 0, 0, 0, 0, 0, 0,
       0, 0, 0, 0, 0, 0, 0, 0, 0, 0, 0, 0, 0, 0, 0, 0, 0, 0, 0, 0, 0, 0, 0, 0], by decide +kernel⟩,
   ⟨prog (fun t => { t with ecnt := 1 }) [] |>.onEngine 5 1 (fun x => { x with queue := [{ tid := 3, desc := 0x100, pc := 0x01000000 }] }) |>.localWrite 5 0x100 [9,
       0, 0, 0, 2, 0, 0, 0, 0, 2, 0, 0, 8, 2, 0, 0, 0, 3, 0, 0, 0, 0, 0, 0, 0, 0, 0, 0, 0, 0, 0, 0, 0, 0, 0, 0, 0, 0, 0, 0, 0,
       0, 0, 0, 0, 0, 0, 0, 0, 0, 0, 0, 0, 0, 0, 0, 0, 0, 0, 0, 0, 0, 0,
       0] |>.localWrite 5 0x200 [1,2,0,0,3,0,0,0,0,0,128,63,0,0,0,64], 5, 1, 2, 0x100,
       [9, 0, 0, 0, 2, 0, 0, 0, 0, 2, 0, 0, 8, 2, 0, 0, 0, 3, 0, 0, 0, 0, 0, 0, 0, 0, 0, 0, 0, 0, 0, 0, 0, 0, 0, 0, 0, 0, 0, 0,
       0, 0, 0, 0, 0, 0, 0, 0, 0, 0, 0, 0, 0, 0, 0, 0, 0, 0, 0, 0, 0, 0, 0, 0], by decide +kernel⟩,
   ⟨prog (fun t => { t with ecnt := 1 }) [] |>.onEngine 5 1 (fun x => { x with queue := [{ tid := 3, desc := 0x100, pc := 0x01000000 }] }) |>.localWrite 5 0x100 [10,
       0, 0, 0, 2, 0, 0, 0, 0, 2, 0, 0, 8, 2, 0, 0, 0, 3, 0, 0, 0, 0, 0, 0, 0, 0, 0, 0, 0, 0, 0, 0, 0, 0, 0, 0, 0, 0, 0, 0, 0,
       0, 0, 0, 0, 0, 0, 0, 0, 0, 0, 0, 0, 0, 0, 0, 0, 0, 0, 0, 0, 0, 0,
       0] |>.localWrite 5 0x200 [1,2,0,0,3,0,0,0,0,0,128,63,0,0,0,64], 5, 1, 2, 0x100,
       [10, 0, 0, 0, 2, 0, 0, 0, 0, 2, 0, 0, 8, 2, 0, 0, 0, 3, 0, 0, 0, 0, 0, 0, 0, 0, 0, 0, 0, 0, 0, 0, 0, 0, 0, 0, 0, 0, 0,
       0, 0, 0, 0, 0, 0, 0, 0, 0, 0, 0, 0, 0, 0, 0, 0, 0, 0, 0, 0, 0, 0, 0, 0, 0], by decide +kernel⟩,
   ⟨prog (fun t => { t with ecnt := 1 }) [] |>.onEngine 5 1 (fun x => { x with queue := [{ tid := 3, desc := 0x100, pc := 0x01000000 }] }) |>.localWrite 5 0x100 [11,
       0, 0, 0, 2, 0, 0, 0, 0, 2, 0, 0, 8, 2, 0, 0, 0, 3, 0, 0, 0, 0, 0, 0, 0, 0, 0, 0, 0, 0, 0, 0, 0, 0, 0, 0, 0, 0, 0, 0, 0,
       0, 0, 0, 0, 0, 0, 0, 0, 0, 0, 0, 0, 0, 0, 0, 0, 0, 0, 0, 0, 0, 0,
       0] |>.localWrite 5 0x200 [1,2,0,0,3,0,0,0,0,0,128,63,0,0,0,64], 5, 1, 2, 0x100,
       [11, 0, 0, 0, 2, 0, 0, 0, 0, 2, 0, 0, 8, 2, 0, 0, 0, 3, 0, 0, 0, 0, 0, 0, 0, 0, 0, 0, 0, 0, 0, 0, 0, 0, 0, 0, 0, 0, 0,
       0, 0, 0, 0, 0, 0, 0, 0, 0, 0, 0, 0, 0, 0, 0, 0, 0, 0, 0, 0, 0, 0, 0, 0, 0], by decide +kernel⟩,
   ⟨prog (fun t => { t with ecnt := 1 }) [] |>.onEngine 5 1 (fun x => { x with queue := [{ tid := 3, desc := 0x100, pc := 0x01000000 }] }) |>.localWrite 5 0x100 [12,
       0, 0, 0, 2, 0, 0, 0, 0, 2, 0, 0, 8, 2, 0, 0, 0, 3, 0, 0, 0, 0, 0, 0, 0, 0, 0, 0, 0, 0, 0, 0, 0, 0, 0, 0, 0, 0, 0, 0, 0,
       0, 0, 0, 0, 0, 0, 0, 0, 0, 0, 0, 0, 0, 0, 0, 0, 0, 0, 0, 0, 0, 0,
       0] |>.localWrite 5 0x200 [1,2,0,0,3,0,0,0,0,0,128,63,0,0,0,64], 5, 1, 2, 0x100,
       [12, 0, 0, 0, 2, 0, 0, 0, 0, 2, 0, 0, 8, 2, 0, 0, 0, 3, 0, 0, 0, 0, 0, 0, 0, 0, 0, 0, 0, 0, 0, 0, 0, 0, 0, 0, 0, 0, 0,
       0, 0, 0, 0, 0, 0, 0, 0, 0, 0, 0, 0, 0, 0, 0, 0, 0, 0, 0, 0, 0, 0, 0, 0, 0], by decide +kernel⟩,
   ⟨prog (fun t => { t with ecnt := 1 }) [] |>.onEngine 5 1 (fun x => { x with queue := [{ tid := 3, desc := 0x100, pc := 0x01000000 }] }) |>.localWrite 5 0x100 [13,
       0, 0, 0, 2, 0, 0, 0, 0, 2, 0, 0, 8, 2, 0, 0, 0, 3, 0, 0, 0, 0, 0, 0, 0, 0, 0, 0, 0, 0, 0, 0, 0, 0, 0, 0, 0, 0, 0, 0, 0,
       0, 0, 0, 0, 0, 0, 0, 0, 0, 0, 0, 0, 0, 0, 0, 0, 0, 0, 0, 0, 0, 0,
       0] |>.localWrite 5 0x200 [1,2,0,0,3,0,0,0,0,0,128,63,0,0,0,64], 5, 1, 2, 0x100,
       [13, 0, 0, 0, 2, 0, 0, 0, 0, 2, 0, 0, 8, 2, 0, 0, 0, 3, 0, 0, 0, 0, 0, 0, 0, 0, 0, 0, 0, 0, 0, 0, 0, 0, 0, 0, 0, 0, 0,
       0, 0, 0, 0, 0, 0, 0, 0, 0, 0, 0, 0, 0, 0, 0, 0, 0, 0, 0, 0, 0, 0, 0, 0, 0], by decide +kernel⟩,
   ⟨[1,2,3,4,5,6,7,8], 2, 1, by decide +kernel⟩,
   ⟨[5, 7, 2^33+1], 2, by decide +kernel⟩⟩

theorem witness_MatrixAndGatherResults :
    (∃ (s : State) (k : Nat) (desc : Nat) (d : List Byte), (s.core k).quar.getLsbD 0 = false
        ∧ localOk s.comp.run k desc 64 false = true ∧ d = s.localBytes k desc 64 ∧ field d 0 1 = 2 ∧ field d 1 1 < 8
        ∧ field d 6 1 = 0 ∧ field d 38 2 = 0 ∧ allZero (d.drop 44) = true ∧ field d 2 1 = 0)
    ∧ (∃ (s : State) (k : Nat) (desc : Nat) (d : List Byte), (s.core k).quar.getLsbD 0 = false
        ∧ localOk s.comp.run k desc 64 false = true ∧ d = s.localBytes k desc 64 ∧ field d 0 1 = 2 ∧ field d 1 1 < 8
        ∧ field d 6 1 = 0 ∧ field d 38 2 = 0 ∧ allZero (d.drop 44) = true ∧ field d 2 1 = 0xA ∨ field d 2 1 = 0xB)
    ∧ (∃ (s : State) (k : Nat) (desc : Nat) (d : List Byte), (s.core k).quar.getLsbD 0 = false
        ∧ localOk s.comp.run k desc 64 false = true ∧ d = s.localBytes k desc 64 ∧ field d 0 1 = 2 ∧ field d 1 1 < 8
        ∧ field d 6 1 = 0 ∧ field d 38 2 = 0 ∧ allZero (d.drop 44) = true ∧ field d 2 1 ≠ 0 ∧ field d 2 1 ≠ 0xA
        ∧ field d 2 1 ≠ 0xB)
    ∧ (∃ (s : State) (k : Nat) (desc : Nat) (d : List Byte), (s.core k).quar.getLsbD 0 = false
        ∧ localOk s.comp.run k desc 64 false = true ∧ d = s.localBytes k desc 64 ∧ field d 0 1 = 4 ∧ field d 1 1 < 8
        ∧ field d 6 1 = 0 ∧ field d 38 2 = 0 ∧ allZero (d.drop 44) = true ∧ field d 2 1 = 0 ∧ field d 36 2 % 64 = 0
        ∧ (∀ r, r < 16 → localOk s.comp.run k (field d 32 4 + r * field d 36 2) 128 false = true))
    ∧ (∃ (s : State) (k : Nat) (desc : Nat) (d : List Byte), (s.core k).quar.getLsbD 0 = false
        ∧ localOk s.comp.run k desc 64 false = true ∧ d = s.localBytes k desc 64 ∧ field d 0 1 = 3 ∧ field d 1 1 < 8
        ∧ field d 6 1 = 0 ∧ field d 38 2 = 0 ∧ allZero (d.drop 44) = true ∧ field d 7 1 = 0 ∧ field d 36 2 % 64 = 0
        ∧ (s.tile k (field d 1 1)).int = false
        ∧ (∀ r, r < 16 → localOk s.comp.run k (field d 32 4 + r * field d 36 2) 128 true = true))
    ∧ (∃ (s : State) (k : Nat) (desc : Nat) (d : List Byte), (s.core k).quar.getLsbD 0 = false
        ∧ localOk s.comp.run k desc 64 false = true ∧ d = s.localBytes k desc 64 ∧ field d 0 1 = 1 ∧ field d 1 1 < 8
        ∧ field d 6 1 = 0 ∧ field d 38 2 = 0 ∧ allZero (d.drop 44) = true ∧ field d 2 1 = 0xA ∧ field d 3 1 = 0xA
        ∧ (s.tile k (field d 1 1)).int = true ∧ 1 ≤ field d 4 2 ∧ field d 4 2 ≤ 0x8000 ∧ field d 4 2 % 2 = 0
        ∧ localOk s.comp.run k (field d 8 4) (16 * field d 4 2) false = true
        ∧ localOk s.comp.run k (field d 12 4) (32 * field d 4 2) false = true)
    ∧ (∃ (s : State) (k : Nat) (desc : Nat) (d : List Byte), (s.core k).quar.getLsbD 3 = false
        ∧ localOk s.comp.run k desc 64 false = true ∧ d = s.localBytes k desc 64 ∧ field d 0 1 = 1 ∧ gfeShape d = true
        ∧ gfePooled d = false ∧ localOk s.comp.run k (field d 8 4) (4 * field d 4 4) false = true
        ∧ (∀ i, i < field d 4 4 → localOk s.comp.run k (field d 16 8 + ((fun i => leNat (s.localBytes k (field d 8 4 + 4 * i) 4)) i) * field d 24 4) (field d 24 4) false = true
        ∧ localOk s.comp.run k (field d 12 4 + i * field d 24 4) (s.localBytes k (field d 16 8 + ((fun i => leNat (s.localBytes k (field d 8 4 + 4 * i) 4)) i) * field d 24 4) (field d 24 4)).length true = true))
    ∧ (∃ (s : State) (k : Nat) (desc : Nat) (d : List Byte), (s.core k).quar.getLsbD 3 = false
        ∧ localOk s.comp.run k desc 64 false = true ∧ d = s.localBytes k desc 64 ∧ field d 0 1 = 2 ∧ gfeShape d = true
        ∧ gfePooled d = false ∧ localOk s.comp.run k (field d 8 4) (4 * field d 4 4) false = true
        ∧ (∀ i, i < field d 4 4 → localOk s.comp.run k (field d 8 4 + i * field d 24 4) (field d 24 4) false = true
        ∧ localOk s.comp.run k (field d 16 8 + ((fun i => leNat (s.localBytes k (field d 8 4 + 4 * i) 4)) i) * field d 24 4) (s.localBytes k (field d 8 4 + i * field d 24 4) (field d 24 4)).length true = true))
    ∧ (∃ (s : State) (k : Nat) (desc : Nat) (d : List Byte), (s.core k).quar.getLsbD 3 = false
        ∧ localOk s.comp.run k desc 64 false = true ∧ d = s.localBytes k desc 64 ∧ field d 0 1 = 3 ∧ gfeShape d = true
        ∧ gfePooled d = false ∧ field d 3 1 = 0xB ∧ field d 2 1 = 2
        ∧ localOk s.comp.run k (field d 8 4) (4 * field d 4 4) false = true
        ∧ localOk s.comp.run k (field d 12 4) (4 * ((List.range (field d 4 4)).filter (fun i => decide (sint 32 ((fun i => leNat (s.localBytes k (field d 8 4 + 4 * i) 4)) i) < sint 32 (field d 28 4)))).length) true = true
        ∧ localOk s.comp.run k (field d 36 4) 4 true = true)
    ∧ (∃ (s : State) (k : Nat) (desc : Nat) (d : List Byte), (s.core k).quar.getLsbD 3 = false
        ∧ localOk s.comp.run k desc 64 false = true ∧ d = s.localBytes k desc 64 ∧ field d 0 1 = 4 ∧ gfeShape d = true
        ∧ gfePooled d = false ∧ field d 3 1 = 0xB ∧ 1 ≤ field d 24 4 ∧ field d 24 4 ≤ 1024
        ∧ localOk s.comp.run k (field d 8 4) (4 * field d 4 4) false = true
        ∧ localOk s.comp.run k (field d 12 4) (4 * min (field d 24 4) (field d 4 4)) true = true
        ∧ localOk s.comp.run k (field d 12 4 + 4 * field d 24 4) (4 * min (field d 24 4) (field d 4 4)) true = true) :=
  ⟨⟨prog (fun t => { t with ecnt := 1 }) [] |>.onEngine 5 0 (fun x => { x with queue := [{ tid := 3, desc := 0x100, pc := 0x01000000 }] }) |>.localWrite 5 0x100 [2,
      2, 0, 0, 0, 0, 0, 0, 0, 2, 0, 0, 0, 3, 0, 0, 0, 0, 0, 0, 0, 0, 0, 0, 0, 0, 0, 0, 0, 0, 0, 0, 0, 4, 0, 0, 128, 0, 0, 0, 0,
      0, 0, 0, 0, 0, 0, 0, 0, 0, 0, 0, 0, 0, 0, 0, 0, 0, 0, 0, 0, 0, 0,
      0] |>.localWrite 5 0x200 [1,2,0,0,3,0,0,0,0,0,128,63,0,0,0,64], 5, 0x100,
      [2, 2, 0, 0, 0, 0, 0, 0, 0, 2, 0, 0, 0, 3, 0, 0, 0, 0, 0, 0, 0, 0, 0, 0, 0, 0, 0, 0, 0, 0, 0, 0, 0, 4, 0, 0, 128, 0, 0,
      0, 0, 0, 0, 0, 0, 0, 0, 0, 0, 0, 0, 0, 0, 0, 0, 0, 0, 0, 0, 0, 0, 0, 0, 0], by decide +kernel⟩,
   ⟨prog (fun t => { t with ecnt := 1 }) [] |>.onEngine 5 0 (fun x => { x with queue := [{ tid := 3, desc := 0x100, pc := 0x01000000 }] }) |>.localWrite 5 0x100 [2,
       2, 11, 0, 0, 0, 0, 0, 0, 2, 0, 0, 0, 3, 0, 0, 0, 0, 0, 0, 0, 0, 0, 0, 0, 0, 0, 0, 0, 0, 0, 0, 0, 4, 0, 0, 128, 0, 0, 0,
       0, 0, 0, 0, 0, 0, 0, 0, 0, 0, 0, 0, 0, 0, 0, 0, 0, 0, 0, 0, 0, 0, 0,
       0] |>.localWrite 5 0x200 [1,2,0,0,3,0,0,0,0,0,128,63,0,0,0,64], 5, 0x100,
       [2, 2, 11, 0, 0, 0, 0, 0, 0, 2, 0, 0, 0, 3, 0, 0, 0, 0, 0, 0, 0, 0, 0, 0, 0, 0, 0, 0, 0, 0, 0, 0, 0, 4, 0, 0, 128, 0, 0,
       0, 0, 0, 0, 0, 0, 0, 0, 0, 0, 0, 0, 0, 0, 0, 0, 0, 0, 0, 0, 0, 0, 0, 0, 0], by decide +kernel⟩,
   ⟨prog (fun t => { t with ecnt := 1 }) [] |>.onEngine 5 0 (fun x => { x with queue := [{ tid := 3, desc := 0x100, pc := 0x01000000 }] }) |>.localWrite 5 0x100 [2,
       2, 3, 0, 0, 0, 0, 0, 0, 2, 0, 0, 0, 3, 0, 0, 0, 0, 0, 0, 0, 0, 0, 0, 0, 0, 0, 0, 0, 0, 0, 0, 0, 4, 0, 0, 128, 0, 0, 0,
       0, 0, 0, 0, 0, 0, 0, 0, 0, 0, 0, 0, 0, 0, 0, 0, 0, 0, 0, 0, 0, 0, 0,
       0] |>.localWrite 5 0x200 [1,2,0,0,3,0,0,0,0,0,128,63,0,0,0,64], 5, 0x100,
       [2, 2, 3, 0, 0, 0, 0, 0, 0, 2, 0, 0, 0, 3, 0, 0, 0, 0, 0, 0, 0, 0, 0, 0, 0, 0, 0, 0, 0, 0, 0, 0, 0, 4, 0, 0, 128, 0, 0,
       0, 0, 0, 0, 0, 0, 0, 0, 0, 0, 0, 0, 0, 0, 0, 0, 0, 0, 0, 0, 0, 0, 0, 0, 0], by decide +kernel⟩,
   ⟨prog (fun t => { t with ecnt := 1 }) [] |>.onEngine 5 0 (fun x => { x with queue := [{ tid := 3, desc := 0x100, pc := 0x01000000 }] }) |>.localWrite 5 0x100 [4,
       2, 0, 0, 0, 0, 0, 0, 0, 2, 0, 0, 0, 3, 0, 0, 0, 0, 0, 0, 0, 0, 0, 0, 0, 0, 0, 0, 0, 0, 0, 0, 0, 4, 0, 0, 128, 0, 0, 0,
       0, 0, 0, 0, 0, 0, 0, 0, 0, 0, 0, 0, 0, 0, 0, 0, 0, 0, 0, 0, 0, 0, 0,
       0] |>.localWrite 5 0x200 [1,2,0,0,3,0,0,0,0,0,128,63,0,0,0,64], 5, 0x100,
       [4, 2, 0, 0, 0, 0, 0, 0, 0, 2, 0, 0, 0, 3, 0, 0, 0, 0, 0, 0, 0, 0, 0, 0, 0, 0, 0, 0, 0, 0, 0, 0, 0, 4, 0, 0, 128, 0, 0,
       0, 0, 0, 0, 0, 0, 0, 0, 0, 0, 0, 0, 0, 0, 0, 0, 0, 0, 0, 0, 0, 0, 0, 0, 0], by decide +kernel⟩,
   ⟨prog (fun t => { t with ecnt := 1 }) [] |>.onEngine 5 0 (fun x => { x with queue := [{ tid := 3, desc := 0x100, pc := 0x01000000 }] }) |>.localWrite 5 0x100 [3,
       2, 0, 0, 0, 0, 0, 0, 0, 2, 0, 0, 0, 3, 0, 0, 0, 0, 0, 0, 0, 0, 0, 0, 0, 0, 0, 0, 0, 0, 0, 0, 0, 4, 0, 0, 128, 0, 0, 0,
       0, 0, 0, 0, 0, 0, 0, 0, 0, 0, 0, 0, 0, 0, 0, 0, 0, 0, 0, 0, 0, 0, 0,
       0] |>.localWrite 5 0x200 [1,2,0,0,3,0,0,0,0,0,128,63,0,0,0,64], 5, 0x100,
       [3, 2, 0, 0, 0, 0, 0, 0, 0, 2, 0, 0, 0, 3, 0, 0, 0, 0, 0, 0, 0, 0, 0, 0, 0, 0, 0, 0, 0, 0, 0, 0, 0, 4, 0, 0, 128, 0, 0,
       0, 0, 0, 0, 0, 0, 0, 0, 0, 0, 0, 0, 0, 0, 0, 0, 0, 0, 0, 0, 0, 0, 0, 0, 0], by decide +kernel⟩,
   ⟨prog (fun t => { t with ecnt := 1 }) [] |>.onEngine 5 0 (fun x => { x with queue := [{ tid := 3, desc := 0x100, pc := 0x01000000 }] }) |>.localWrite 5 0x100 [1,
       2, 10, 10, 2, 0, 0, 0, 0, 2, 0, 0, 0, 3, 0, 0, 0, 0, 0, 0, 0, 0, 0, 0, 0, 0, 0, 0, 0, 0, 0, 0, 0, 4, 0, 0, 128, 0, 0, 0,
       0, 0, 0, 0, 0, 0, 0, 0, 0, 0, 0, 0, 0, 0, 0, 0, 0, 0, 0, 0, 0, 0, 0,
       0] |>.localWrite 5 0x200 [1,2,0,0,3,0,0,0,0,0,128,63,0,0,0,64] |>.onCore 5 (fun c => { c with tiles := [(2, { int := true, elems := [(33, 5)] })] }),
       5, 0x100, [1, 2, 10, 10, 2, 0, 0, 0, 0, 2, 0, 0, 0, 3, 0, 0, 0, 0, 0, 0, 0, 0, 0, 0, 0, 0, 0, 0, 0, 0, 0, 0, 0, 4, 0, 0,
       128, 0, 0, 0, 0, 0, 0, 0, 0, 0, 0, 0, 0, 0, 0, 0, 0, 0, 0, 0, 0, 0, 0, 0, 0, 0, 0, 0], by decide +kernel⟩,
   ⟨prog (fun t => { t with ecnt := 1 }) [] |>.onEngine 5 3 (fun x => { x with queue := [{ tid := 3, desc := 0x100, pc := 0x01000000 }] }) |>.localWrite 5 0x100 [1,
       0, 0, 0, 2, 0, 0, 0, 128, 2, 0, 0, 0, 3, 0, 0, 0, 2, 0, 0, 0, 0, 0, 0, 4, 0, 0, 0, 2, 0, 0, 0, 0, 0, 0, 0, 0, 0, 0, 0,
       0, 0, 0, 0, 0, 0, 0, 0, 0, 0, 0, 0, 0, 0, 0, 0, 0, 0, 0, 0, 0, 0, 0,
       0] |>.localWrite 5 0x200 [1,2,0,0,3,0,0,0,0,0,128,63,0,0,0,64], 5, 0x100,
       [1, 0, 0, 0, 2, 0, 0, 0, 128, 2, 0, 0, 0, 3, 0, 0, 0, 2, 0, 0, 0, 0, 0, 0, 4, 0, 0, 0, 2, 0, 0, 0, 0, 0, 0, 0, 0, 0, 0,
       0, 0, 0, 0, 0, 0, 0, 0, 0, 0, 0, 0, 0, 0, 0, 0, 0, 0, 0, 0, 0, 0, 0, 0, 0], by decide +kernel⟩,
   ⟨prog (fun t => { t with ecnt := 1 }) [] |>.onEngine 5 3 (fun x => { x with queue := [{ tid := 3, desc := 0x100, pc := 0x01000000 }] }) |>.localWrite 5 0x100 [2,
       0, 0, 0, 2, 0, 0, 0, 128, 2, 0, 0, 0, 3, 0, 0, 0, 2, 0, 0, 0, 0, 0, 0, 4, 0, 0, 0, 2, 0, 0, 0, 0, 0, 0, 0, 0, 0, 0, 0,
       0, 0, 0, 0, 0, 0, 0, 0, 0, 0, 0, 0, 0, 0, 0, 0, 0, 0, 0, 0, 0, 0, 0,
       0] |>.localWrite 5 0x200 [1,2,0,0,3,0,0,0,0,0,128,63,0,0,0,64], 5, 0x100,
       [2, 0, 0, 0, 2, 0, 0, 0, 128, 2, 0, 0, 0, 3, 0, 0, 0, 2, 0, 0, 0, 0, 0, 0, 4, 0, 0, 0, 2, 0, 0, 0, 0, 0, 0, 0, 0, 0, 0,
       0, 0, 0, 0, 0, 0, 0, 0, 0, 0, 0, 0, 0, 0, 0, 0, 0, 0, 0, 0, 0, 0, 0, 0, 0], by decide +kernel⟩,
   ⟨prog (fun t => { t with ecnt := 1 }) [] |>.onEngine 5 3 (fun x => { x with queue := [{ tid := 3, desc := 0x100, pc := 0x01000000 }] }) |>.localWrite 5 0x100 [3,
       0, 2, 11, 2, 0, 0, 0, 0, 2, 0, 0, 0, 3, 0, 0, 0, 2, 0, 0, 0, 0, 0, 0, 4, 0, 0, 0, 2, 0, 0, 0, 0, 0, 0, 0, 0, 4, 0, 0, 0,
       0, 0, 0, 0, 0, 0, 0, 0, 0, 0, 0, 0, 0, 0, 0, 0, 0, 0, 0, 0, 0, 0,
       0] |>.localWrite 5 0x200 [1,2,0,0,3,0,0,0,0,0,128,63,0,0,0,64], 5, 0x100,
       [3, 0, 2, 11, 2, 0, 0, 0, 0, 2, 0, 0, 0, 3, 0, 0, 0, 2, 0, 0, 0, 0, 0, 0, 4, 0, 0, 0, 2, 0, 0, 0, 0, 0, 0, 0, 0, 4, 0,
       0, 0, 0, 0, 0, 0, 0, 0, 0, 0, 0, 0, 0, 0, 0, 0, 0, 0, 0, 0, 0, 0, 0, 0, 0], by decide +kernel⟩,
   ⟨prog (fun t => { t with ecnt := 1 }) [] |>.onEngine 5 3 (fun x => { x with queue := [{ tid := 3, desc := 0x100, pc := 0x01000000 }] }) |>.localWrite 5 0x100 [4,
       0, 2, 11, 2, 0, 0, 0, 0, 2, 0, 0, 0, 3, 0, 0, 0, 2, 0, 0, 0, 0, 0, 0, 2, 0, 0, 0, 2, 0, 0, 0, 0, 0, 0, 0, 0, 0, 0, 0, 0,
       0, 0, 0, 0, 0, 0, 0, 0, 0, 0, 0, 0, 0, 0, 0, 0, 0, 0, 0, 0, 0, 0,
       0] |>.localWrite 5 0x200 [1,2,0,0,3,0,0,0,0,0,128,63,0,0,0,64], 5, 0x100,
       [4, 0, 2, 11, 2, 0, 0, 0, 0, 2, 0, 0, 0, 3, 0, 0, 0, 2, 0, 0, 0, 0, 0, 0, 2, 0, 0, 0, 2, 0, 0, 0, 0, 0, 0, 0, 0, 0, 0,
       0, 0, 0, 0, 0, 0, 0, 0, 0, 0, 0, 0, 0, 0, 0, 0, 0, 0, 0, 0, 0, 0, 0, 0, 0], by decide +kernel⟩⟩

theorem witness_PoolInstructions :
    (∃ (s : State) (core : BitVec 10) (tid : BitVec 6) (ins : Ins) (a : Nat), s.issues core.toNat tid.toNat [ins.xa.toNat]
        ∧ s.roomFor core.toNat tid.toNat 1
        ∧ ((((s.thread core.toNat tid.toNat).get ins.xa.toNat) + (ins.imm.signExtend 64)).toNat % 2 ^ 56) % 64 ≤ 56
        ∧ ins.fn.getLsbD 0 = true ∨ s.cacheHit core.toNat ((((s.thread core.toNat tid.toNat).get ins.xa.toNat) + (ins.imm.signExtend 64)).toNat % 2 ^ 56) = none
        ∧ s.coreReaches core.toNat (s.coreFrame core.toNat (if ins.fn.getLsbD 0 then 0x11 else 0x10) (((((s.thread core.toNat tid.toNat).get ins.xa.toNat) + (ins.imm.signExtend 64)).toNat % 2 ^ 56) / 64 * 64) 1 [] 0) a
        ∧ s.inT0 a 1)
    ∧ (∃ (s : State) (core : BitVec 10) (tid : BitVec 6) (ins : Ins) (bs : List Byte),
        s.issues core.toNat tid.toNat [ins.xa.toNat]
        ∧ ((((s.thread core.toNat tid.toNat).get ins.xa.toNat) + (ins.imm.signExtend 64)).toNat % 2 ^ 56) % 64 ≤ 56
        ∧ ins.fn.getLsbD 0 = false ∧ s.cacheHit core.toNat ((((s.thread core.toNat tid.toNat).get ins.xa.toNat) + (ins.imm.signExtend 64)).toNat % 2 ^ 56) = some bs)
    ∧ (∃ (s : State) (core : BitVec 10) (tid : BitVec 6) (ins : Ins), s.issues core.toNat tid.toNat [ins.xa.toNat]
        ∧ 56 < ((((s.thread core.toNat tid.toNat).get ins.xa.toNat) + (ins.imm.signExtend 64)).toNat % 2 ^ 56) % 64
        ∧ (s.thread core.toNat tid.toNat).statusCode = 0)
    ∧ (∃ (s : State) (core : BitVec 10) (tid : BitVec 6) (ins : Ins) (a : Nat),
        s.issues core.toNat tid.toNat [ins.xa.toNat, ins.xb.toNat] ∧ (s.core core.toNat).comps = []
        ∧ s.roomFor core.toNat tid.toNat 1
        ∧ ((((s.thread core.toNat tid.toNat).get ins.xa.toNat) + (ins.imm.signExtend 64)).toNat % 2 ^ 56) % 64 ≤ 56
        ∧ s.coreReaches core.toNat (s.coreFrame core.toNat 0x14 (((((s.thread core.toNat tid.toNat).get ins.xa.toNat) + (ins.imm.signExtend 64)).toNat % 2 ^ 56) / 64 * 64) 2 (splice (fill 64 0) (((((s.thread core.toNat tid.toNat).get ins.xa.toNat) + (ins.imm.signExtend 64)).toNat % 2 ^ 56) % 64) (leBytes 8 ((s.thread core.toNat tid.toNat).get ins.xb.toNat).toNat) ++ leBytes 8 (255 * 2 ^ (((((s.thread core.toNat tid.toNat).get ins.xa.toNat) + (ins.imm.signExtend 64)).toNat % 2 ^ 56) % 64)) ++ fill 56 0) 0) a
        ∧ s.inT0 a 1 ∧ s.hofAt (fpaLine a) = none)
    ∧ (∃ (s : State) (core : BitVec 10) (tid : BitVec 6) (ins : Ins) (a : Nat),
        s.issues core.toNat tid.toNat [ins.xa.toNat, ins.xd.toNat] ∧ s.roomFor core.toNat tid.toNat 1
        ∧ ins.fn.getLsbD 7 = false ∧ ((((s.thread core.toNat tid.toNat).get ins.xa.toNat) + (ins.imm.signExtend 64)).toNat % 2 ^ 56) % 4096 = 0
        ∧ (bits ins.fn.toNat 6 0 + 1) ≤ 64
        ∧ localOk s.comp.run core.toNat ((s.thread core.toNat tid.toNat).get ins.xd.toNat).toNat (64 * (bits ins.fn.toNat 6 0 + 1)) true = true
        ∧ s.coreReaches core.toNat (s.coreFrame core.toNat 0x10 ((((s.thread core.toNat tid.toNat).get ins.xa.toNat) + (ins.imm.signExtend 64)).toNat % 2 ^ 56) (bits ins.fn.toNat 6 0 + 1) [] 0) a
        ∧ s.inT0 a (bits ins.fn.toNat 6 0 + 1))
    ∧ (∃ (s : State) (core : BitVec 10) (tid : BitVec 6) (ins : Ins) (a : Nat),
        s.issues core.toNat tid.toNat [ins.xa.toNat, ins.xd.toNat] ∧ (s.core core.toNat).comps = []
        ∧ s.roomFor core.toNat tid.toNat 1 ∧ ins.fn.getLsbD 9 = false ∧ bits ins.fn.toNat 8 7 < 2
        ∧ ((((s.thread core.toNat tid.toNat).get ins.xa.toNat) + (ins.imm.signExtend 64)).toNat % 2 ^ 56) % 4096 = 0
        ∧ (bits ins.fn.toNat 6 0 + 1) ≤ 64
        ∧ localOk s.comp.run core.toNat ((s.thread core.toNat tid.toNat).get ins.xd.toNat).toNat (64 * (bits ins.fn.toNat 6 0 + 1)) false = true
        ∧ s.coreReaches core.toNat (s.coreFrame core.toNat (pstOp (bits ins.fn.toNat 8 7)) ((((s.thread core.toNat tid.toNat).get ins.xa.toNat) + (ins.imm.signExtend 64)).toNat % 2 ^ 56) (bits ins.fn.toNat 6 0 + 1) (s.localBytes core.toNat ((s.thread core.toNat tid.toNat).get ins.xd.toNat).toNat (64 * (bits ins.fn.toNat 6 0 + 1))) 0) a
        ∧ s.inT0 a (bits ins.fn.toNat 6 0 + 1) ∧ (∀ i, i < (bits ins.fn.toNat 6 0 + 1) → s.hofAt (fpaLine a + i) = none))
    ∧ (∃ (s : State) (core : BitVec 10) (tid : BitVec 6) (ins : Ins) (a : Nat),
        s.issues core.toNat tid.toNat [ins.xa.toNat, ins.xb.toNat] ∧ (s.core core.toNat).comps = []
        ∧ s.roomFor core.toNat tid.toNat 1 ∧ ins.fn.toNat = 4
        ∧ ((((s.thread core.toNat tid.toNat).get ins.xa.toNat) + (ins.imm.signExtend 64)).toNat % 2 ^ 56) % 8 = 0
        ∧ s.coreReaches core.toNat { (s.coreFrame core.toNat (BitVec.ofNat 8 (0x20 + bits ins.fn.toNat 1 0)) ((((s.thread core.toNat tid.toNat).get ins.xa.toNat) + (ins.imm.signExtend 64)).toNat % 2 ^ 56) 1 (leBytes 8 ((s.thread core.toNat tid.toNat).get ins.xb.toNat).toNat ++ fill 24 0 ++ fill 32 0) 0) with flags := 1 } a
        ∧ s.inT0 a 1 ∧ s.hofAt (fpaLine a) = none)
    ∧ (∃ (s : State) (core : BitVec 10) (tid : BitVec 6) (ins : Ins) (f : Frame) (p : Nat),
        s.issues core.toNat tid.toNat [ins.xa.toNat, ins.xb.toNat, ins.xd.toNat] ∧ s.roomFor core.toNat tid.toNat 1
        ∧ localOk s.comp.run core.toNat (((s.thread core.toNat tid.toNat).get ins.xa.toNat) + (ins.imm.signExtend 64)).toNat 32 false = true
        ∧ f = s.sendFrame core.toNat tid.toNat (s.localBytes core.toNat (((s.thread core.toNat tid.toNat).get ins.xa.toNat) + (ins.imm.signExtend 64)).toNat 32) ((s.thread core.toNat tid.toNat).get ins.xb.toNat).toNat
        ∧ f.opcode = 0x70 ∧ f.flags = 0 ∧ wellShaped f = true
        ∧ localOk s.comp.run core.toNat ((s.thread core.toNat tid.toNat).get ins.xb.toNat).toNat f.payload.length false = true
        ∧ unitOf (s.tables f.epoch) f.dst = .port p)
    ∧ (∃ (s : State) (core : BitVec 10) (tid : BitVec 6) (ins : Ins) (e : TlbEntry),
        s.issues core.toNat tid.toNat [ins.xa.toNat]
        ∧ s.tlbFind (64 + core.toNat) (s.core core.toNat).tenant ((((s.thread core.toNat tid.toNat).get ins.xa.toNat) + (ins.imm.signExtend 64)).toNat % 2 ^ 56) = none
        ∧ s.tlbFind (16 + lcOf core.toNat) (s.core core.toNat).tenant ((((s.thread core.toNat tid.toNat).get ins.xa.toNat) + (ins.imm.signExtend 64)).toNat % 2 ^ 56) = some e)
    ∧ (∃ (s : State) (core : BitVec 10) (tid : BitVec 6) (ins : Ins), s.issues core.toNat tid.toNat [ins.xa.toNat]
        ∧ (∀ e ∈ Table.read [] s.xl.tlb (64 + core.toNat), e.tva % 2 ^ e.size = 0))
    ∧ (∃ (s : State) (core : BitVec 10) (tid : BitVec 6) (ins : Ins), s.issues core.toNat tid.toNat []
        ∧ ins.fn.getLsbD 0 = true) :=
  ⟨⟨img [(1, 0x4000)], 5, 3, { xa := 1, xd := 2 }, 1073774592, by decide +kernel⟩,
   ⟨img [(1, 0x4000)] |>.onCore 5 (fun c => { c with dcache := [((2^30+0x8000)/64, [9,8,7,6,5,4,3,2,1,0])] }), 5, 3,
       { xa := 1, xd := 2 }, [9,8,7,6,5,4,3,2,1,0], by decide +kernel⟩,
   ⟨img [(1, 0x4039)], 5, 3, { xa := 1, xd := 2 }, by decide +kernel⟩,
   ⟨img [(1, 0x4010), (2, 77)], 5, 3, { xa := 1, xb := 2 }, 1073774592, by decide +kernel⟩,
   ⟨img [(1, 0x4000), (2, 0x400)], 5, 3, { xa := 1, xd := 2, fn := 1 }, 1073774592, by decide +kernel⟩,
   ⟨img [(1, 0x4000), (2, 0x400)], 5, 3, { xa := 1, xd := 2, fn := 1 }, 1073774592, by decide +kernel⟩,
   ⟨img [(1, 0x4000), (2, 0x400)], 5, 3, { xa := 1, xd := 3, xb := 2, fn := 4 }, 1073774592, by decide +kernel⟩,
   ⟨sendS, 5, 3, { xa := 1, xb := 2, xd := 3 }, (sendS.sendFrame 5 3 (sendS.localBytes 5 0x400 32) 0x500), 3,
       by decide +kernel⟩,
   ⟨img [(1, 0x4000)] |>.moveTlb, 5, 3, { xa := 1 },
       { tenant := 7, tva := 0x4000, size := 14, fpa := 2 ^ 30 + 0x8000, w := true }, by decide +kernel⟩,
   ⟨img [(1, 0x4000)], 5, 3, { xa := 1 }, by decide +kernel⟩,
   ⟨img [], 5, 3, { fn := 1 }, by decide +kernel⟩⟩

theorem witness_PoolCompletions :
    (∃ (s : State) (core : BitVec 10) (tid : BitVec 6) (n : Nat) (c : ThreadComp) (xd : Nat) (off : Nat) (acq : Nat),
        s.coreUp core.toNat = true ∧ (s.core core.toNat).comps = [c] ∧ c.n = n ∧ c.tid = tid.toNat
        ∧ (s.thread core.toNat tid.toNat).discard = false ∧ (s.thread core.toNat tid.toNat).state = .ready
        ∧ (s.engine core.toNat 3).queue = [] ∧ c.sink = .reg xd off false acq ∧ c.frame.status = stOk ∧ c.line = none)
    ∧ (∃ (s : State) (core : BitVec 10) (tid : BitVec 6) (n : Nat) (c : ThreadComp) (xd : Nat) (off : Nat) (acq : Nat) (l : Nat),
        s.coreUp core.toNat = true ∧ (s.core core.toNat).comps = [c] ∧ c.n = n ∧ c.tid = tid.toNat
        ∧ (s.thread core.toNat tid.toNat).discard = false ∧ (s.thread core.toNat tid.toNat).state = .ready
        ∧ (s.engine core.toNat 3).queue = [] ∧ c.sink = .reg xd off true acq ∧ c.frame.status = stOk ∧ c.line = some l
        ∧ c.alloc = true ∧ acq = (s.core core.toNat).acquires)
    ∧ (∃ (s : State) (core : BitVec 10) (tid : BitVec 6) (n : Nat) (c : ThreadComp) (xd : Nat) (off : Nat) (acq : Nat) (al : Bool),
        s.coreUp core.toNat = true ∧ (s.core core.toNat).comps = [c] ∧ c.n = n ∧ c.tid = tid.toNat
        ∧ (s.thread core.toNat tid.toNat).discard = false ∧ (s.thread core.toNat tid.toNat).state = .ready
        ∧ (s.engine core.toNat 3).queue = [] ∧ c.sink = .reg xd off al acq ∧ c.frame.status ≠ stOk
        ∧ (s.thread core.toNat tid.toNat).statusCode = 0)
    ∧ (∃ (s : State) (core : BitVec 10) (tid : BitVec 6) (n : Nat) (c : ThreadComp) (d : Nat) (lines : Nat),
        s.coreUp core.toNat = true ∧ (s.core core.toNat).comps = [c] ∧ c.n = n ∧ c.tid = tid.toNat
        ∧ (s.thread core.toNat tid.toNat).discard = false ∧ (s.thread core.toNat tid.toNat).state = .ready
        ∧ (s.engine core.toNat 3).queue = [] ∧ c.sink = .bulk d lines none ∧ c.frame.status = stOk ∧ c.frame.has flCmpr = false
        ∧ c.frame.payload.length = 64 * lines)
    ∧ (∃ (s : State) (core : BitVec 10) (tid : BitVec 6) (n : Nat) (c : ThreadComp) (w : Nat) (off : Nat) (l : Nat) (bs : List Byte) (old : List Byte),
        s.coreUp core.toNat = true ∧ (s.core core.toNat).comps = [c] ∧ c.n = n ∧ c.tid = tid.toNat
        ∧ (s.thread core.toNat tid.toNat).discard = false ∧ (s.thread core.toNat tid.toNat).state = .ready
        ∧ (s.engine core.toNat 3).queue = [] ∧ c.sink = .word w off bs ∧ c.frame.status = stOk ∧ c.line = some l
        ∧ (s.core core.toNat).dcache = [(l, old)])
    ∧ (∃ (s : State) (core : BitVec 10) (tid : BitVec 6) (n : Nat) (c : ThreadComp), s.coreUp core.toNat = true
        ∧ (s.core core.toNat).comps = [c] ∧ c.n = n ∧ c.tid = tid.toNat ∧ (s.thread core.toNat tid.toNat).discard = false
        ∧ (s.thread core.toNat tid.toNat).state = .ready ∧ (s.engine core.toNat 3).queue = [] ∧ c.sink = .posted
        ∧ c.frame.status ≠ stOk ∧ (s.thread core.toNat tid.toNat).statusCode ≠ 0
        ∧ (∀ i, (s.thread core.toNat i).state = .waitMem → (s.thread core.toNat i).wait ≠ .none)) :=
  ⟨⟨(prog (fun t => { t with mcnt := 1, pend := 4 }) [] |>.onCore 5 (fun x => { x with comps := [{ n := 9, tid := 3, sink := .reg 2 1 false 0, frame := { payload := [1,2,3,4,5,6,7,8,9] } }] })),
      5, 3, 9, { n := 9, tid := 3, sink := .reg 2 1 false 0, frame := { payload := [1,2,3,4,5,6,7,8,9] } }, 2, 1, 0,
      by decide +kernel⟩,
   ⟨(prog (fun t => { t with mcnt := 1, pend := 4 }) [] |>.onCore 5 (fun x => { x with comps := [{ n := 9, tid := 3, sink := .reg 2 1 true 0, frame := { payload := [1,2,3,4,5,6,7,8,9] }, line := some 4, alloc := true }] })),
       5, 3, 9, { n := 9, tid := 3, sink := .reg 2 1 true 0, frame := { payload := [1,2,3,4,5,6,7,8,9] }, line := some 4, alloc := true },
       2, 1, 0, 4, by decide +kernel⟩,
   ⟨(prog (fun t => { t with mcnt := 1, pend := 4 }) [] |>.onCore 5 (fun x => { x with comps := [{ n := 9, tid := 3, sink := .reg 2 1 true 0, frame := { status := 4, addr := 88 } }] })),
       5, 3, 9, { n := 9, tid := 3, sink := .reg 2 1 true 0, frame := { status := 4, addr := 88 } }, 2, 1, 0, true,
       by decide +kernel⟩,
   ⟨(prog (fun t => { t with mcnt := 1, pend := 4 }) [] |>.onCore 5 (fun x => { x with comps := [{ n := 9, tid := 3, sink := .bulk 0x500 1 none, frame := { payload := fill 64 7 } }] })),
       5, 3, 9, { n := 9, tid := 3, sink := .bulk 0x500 1 none, frame := { payload := fill 64 7 } }, 0x500, 1,
       by decide +kernel⟩,
   ⟨(prog (fun t => { t with mcnt := 1, pend := 4 }) [] |>.onCore 5 (fun x => { x with comps := [{ n := 9, tid := 3, sink := .word 5 0 [1,2], frame := {}, line := some 4 }] })) |>.onCore 5 (fun x => { x with dcache := [(4, [7,7,7])] }),
       5, 3, 9, { n := 9, tid := 3, sink := .word 5 0 [1,2], frame := {}, line := some 4 }, 5, 0, 4, [1,2], [7,7,7],
       by decide +kernel⟩,
   ⟨poolState, 5, 3, 9, { n := 9, tid := 3, sink := .posted, frame := { status := 3 } }, by decide +kernel, by decide +kernel,
       by decide +kernel, by decide +kernel, by decide +kernel, by decide +kernel, by decide +kernel, by decide +kernel,
       by decide +kernel, by decide +kernel, fun i h => absurd h (poolState_thread i)⟩⟩

theorem witness_LoadsAnswer :
    (∃ (s : State) (e : State) (port : BitVec 8) (f : Frame) (hits : List EccHit) (g : Frame) (a : Nat), f.opcode = 0x10
        ∧ s.takenAs port.toNat f = some g ∧ e = (s.entered port.toNat f).applyHits hits ∧ e.reaches (s.base port.toNat) g a
        ∧ (e.extent (fpaExtent a)).coherent = false ∧ g.has flCmpr = false ∧ e.inT0 a g.length.toNat)
    ∧ (∃ (s : State) (e : State) (port : BitVec 8) (f : Frame) (g : Frame) (a : Nat), f.opcode = 0x11
        ∧ s.takenAs port.toNat f = some g ∧ e = s.entered port.toNat f ∧ e.reaches (s.base port.toNat) g a
        ∧ (e.extent (fpaExtent a)).coherent = false ∧ g.has flCmpr = false ∧ e.inT0 a g.length.toNat)
    ∧ (∃ (s : State) (e : State) (port : BitVec 8) (f : Frame) (g : Frame) (a : Nat), f.opcode = 0x16
        ∧ s.takenAs port.toNat f = some g ∧ e = s.entered port.toNat f ∧ e.reaches (s.base port.toNat) g a
        ∧ (e.extent (fpaExtent a)).coherent = false ∧ g.has flCmpr = false ∧ e.inT0 a g.length.toNat)
    ∧ (∃ (g : Frame) (data : List Byte), g.opcode = 0x10)
    ∧ (∃ (g : Frame) (data : List Byte), g.opcode = 0x16) :=
  ⟨⟨img [], ((img []).entered 3 ({ opcode := 0x10, vc := 2, dst := 0x20, src := 0x30, tenant := 7, addr := 0x4000, length := 2, tag := 9, payload := [] })).applyHits [],
      3, { opcode := 0x10, vc := 2, dst := 0x20, src := 0x30, tenant := 7, addr := 0x4000, length := 2, tag := 9, payload := [] },
      [], ((img []).takenAs 3 ({ opcode := 0x10, vc := 2, dst := 0x20, src := 0x30, tenant := 7, addr := 0x4000, length := 2, tag := 9, payload := [] })).getD {},
      1073774592, by decide +kernel⟩,
   ⟨img [], ((img []).entered 3 ({ opcode := 0x11, vc := 2, dst := 0x20, src := 0x30, tenant := 7, addr := 0x4000, length := 1, tag := 9, payload := [] })),
       3, { opcode := 0x11, vc := 2, dst := 0x20, src := 0x30, tenant := 7, addr := 0x4000, length := 1, tag := 9, payload := [] },
       ((img []).takenAs 3 ({ opcode := 0x11, vc := 2, dst := 0x20, src := 0x30, tenant := 7, addr := 0x4000, length := 1, tag := 9, payload := [] })).getD {},
       1073774592, by decide +kernel⟩,
   ⟨img [], ((img []).entered 3 ({ opcode := 0x16, vc := 2, dst := 0x20, src := 0x30, tenant := 7, addr := 0x4000, length := 1, tag := 9, payload := [] })),
       3, { opcode := 0x16, vc := 2, dst := 0x20, src := 0x30, tenant := 7, addr := 0x4000, length := 1, tag := 9, payload := [] },
       ((img []).takenAs 3 ({ opcode := 0x16, vc := 2, dst := 0x20, src := 0x30, tenant := 7, addr := 0x4000, length := 1, tag := 9, payload := [] })).getD {},
       1073774592, by decide +kernel⟩,
   ⟨{ opcode := 0x10, src := 5, tag := 3 }, [1], by decide +kernel⟩,
   ⟨{ opcode := 0x16 }, [1], by decide +kernel⟩⟩

theorem witness_StoresAreStagedAndReleased :
    (∃ (s : State) (e : State) (port : BitVec 8) (f : Frame) (hits : List EccHit) (g : Frame) (a : Nat), f.opcode = 0x12
        ∧ s.takenAs port.toNat f = some g ∧ e = (s.entered port.toNat f).applyHits hits ∧ e.reaches (s.base port.toNat) g a
        ∧ (e.extent (fpaExtent a)).coherent = false ∧ e.noFailed (s.base port.toNat) ∧ e.inT0 a g.length.toNat
        ∧ (∀ i, i < g.length.toNat → e.hofAt (fpaLine a + i) = none))
    ∧ (∃ (s : State) (e : State) (port : BitVec 8) (f : Frame) (g : Frame) (a : Nat), f.opcode = 0x13
        ∧ s.takenAs port.toNat f = some g ∧ e = s.entered port.toNat f ∧ e.reaches (s.base port.toNat) g a
        ∧ (e.extent (fpaExtent a)).coherent = false ∧ e.noFailed (s.base port.toNat) ∧ e.inT0 a g.length.toNat
        ∧ (∀ i, i < g.length.toNat → e.hofAt (fpaLine a + i) = none))
    ∧ (∃ (s : State) (e : State) (port : BitVec 8) (f : Frame) (g : Frame) (a : Nat), f.opcode = 0x14
        ∧ s.takenAs port.toNat f = some g ∧ e = s.entered port.toNat f ∧ e.reaches (s.base port.toNat) g a
        ∧ (e.extent (fpaExtent a)).coherent = false ∧ e.noFailed (s.base port.toNat) ∧ e.inT0 a 1 ∧ e.hofAt (fpaLine a) = none)
    ∧ (∃ (s : State) (e : State) (port : BitVec 8) (f : Frame) (g : Frame) (a : Nat), f.opcode = 0x90
        ∧ s.takenAs port.toNat f = some g ∧ e = s.entered port.toNat f ∧ e.reaches (s.base port.toNat) g a
        ∧ (e.extent (fpaExtent a)).coherent = false ∧ g.has flCmpr = false ∧ a % 64 = 0 ∧ 1 ≤ g.length.toNat
        ∧ e.inT0 a g.length.toNat ∧ (g.length.toNat < 32 ∨ (e.blockCmp (fpaBlock a)).enable = false)
        ∧ (∀ i, i < g.length.toNat → e.hofAt (fpaLine a + i) = none))
    ∧ (∃ (s : State) (n : Nat) (r : Req) (b : Nat) (a : Nat), s.alive = true ∧ s.req.reqs = [r] ∧ r.n = n ∧ r.stage = .staged
        ∧ r.origin = .port b ∧ s.base b = b ∧ s.comp.evac = [] ∧ r.fpa.toNat = a ∧ a % 64 = 0
        ∧ (s.extent (fpaExtent a)).coherent = false ∧ r.frame.has flCmpr = false ∧ r.done = 0 ∧ r.given = [] ∧ r.back = []
        ∧ r.poison = false ∧ r.frame.opcode = 0x12 ∨ r.frame.opcode = 0x13 ∧ 1 ≤ r.frame.length.toNat
        ∧ r.frame.payload.length = 64 * r.frame.length.toNat ∧ s.inT0 a r.frame.length.toNat
        ∧ (r.frame.length.toNat < 32 ∨ (s.blockCmp (fpaBlock a)).enable = false)
        ∧ (∀ i, i < r.frame.length.toNat → s.hofAt (fpaLine a + i) = none))
    ∧ (∃ (s : State) (n : Nat) (r : Req) (b : Nat) (a : Nat), s.alive = true ∧ s.req.reqs = [r] ∧ r.n = n ∧ r.stage = .staged
        ∧ r.origin = .port b ∧ s.base b = b ∧ s.comp.evac = [] ∧ r.fpa.toNat = a ∧ a % 64 = 0
        ∧ (s.extent (fpaExtent a)).coherent = false ∧ r.frame.has flCmpr = false ∧ r.done = 0 ∧ r.given = [] ∧ r.back = []
        ∧ r.poison = false ∧ r.frame.opcode = 0x14 ∧ 72 ≤ r.frame.payload.length ∧ s.inT0 a 1 ∧ s.hofAt (fpaLine a) = none) :=
  ⟨⟨imgA, ((imgA).entered 3 ({ opcode := 0x12, vc := 2, dst := 0x20, src := 0x30, tenant := 7, addr := 0x4000, length := 1, tag := 9, payload := fill 64 5 })).applyHits [],
      3, { opcode := 0x12, vc := 2, dst := 0x20, src := 0x30, tenant := 7, addr := 0x4000, length := 1, tag := 9, payload := fill 64 5 },
      [], ((imgA).takenAs 3 ({ opcode := 0x12, vc := 2, dst := 0x20, src := 0x30, tenant := 7, addr := 0x4000, length := 1, tag := 9, payload := fill 64 5 })).getD {},
      1073774592, by decide +kernel⟩,
   ⟨imgA, ((imgA).entered 3 ({ opcode := 0x13, vc := 2, dst := 0x20, src := 0x30, tenant := 7, addr := 0x4000, length := 1, tag := 9, payload := fill 64 5 })),
       3, { opcode := 0x13, vc := 2, dst := 0x20, src := 0x30, tenant := 7, addr := 0x4000, length := 1, tag := 9, payload := fill 64 5 },
       ((imgA).takenAs 3 ({ opcode := 0x13, vc := 2, dst := 0x20, src := 0x30, tenant := 7, addr := 0x4000, length := 1, tag := 9, payload := fill 64 5 })).getD {},
       1073774592, by decide +kernel⟩,
   ⟨imgA, ((imgA).entered 3 ({ opcode := 0x14, vc := 2, dst := 0x20, src := 0x30, tenant := 7, addr := 0x4000, length := 2, tag := 9, payload := fill 128 5 })),
       3, { opcode := 0x14, vc := 2, dst := 0x20, src := 0x30, tenant := 7, addr := 0x4000, length := 2, tag := 9, payload := fill 128 5 },
       ((imgA).takenAs 3 ({ opcode := 0x14, vc := 2, dst := 0x20, src := 0x30, tenant := 7, addr := 0x4000, length := 2, tag := 9, payload := fill 128 5 })).getD {},
       1073774592, by decide +kernel⟩,
   ⟨imgA, ((imgA).entered 3 ({ opcode := 0x90, vc := 7, dst := 0x20, src := 0x30, tenant := 7, addr := 0x4000, length := 2, tag := 9, payload := fill 128 5 })),
       3, { opcode := 0x90, vc := 7, dst := 0x20, src := 0x30, tenant := 7, addr := 0x4000, length := 2, tag := 9, payload := fill 128 5 },
       ((imgA).takenAs 3 ({ opcode := 0x90, vc := 7, dst := 0x20, src := 0x30, tenant := 7, addr := 0x4000, length := 2, tag := 9, payload := fill 128 5 })).getD {},
       1073774592, by decide +kernel⟩,
   ⟨(({ img [] with req := { (img []).req with reqs := [{ n := 4, origin := .port 3, frame := { opcode := 0x12, vc := 2, dst := 0x20, src := 0x30, tenant := 7, addr := 0x4000, length := 2, tag := 9, payload := fill 128 7 }, stage := .staged, fpa := 1073774592 }] } } : State)),
       4, { n := 4, origin := .port 3, frame := { opcode := 0x12, vc := 2, dst := 0x20, src := 0x30, tenant := 7, addr := 0x4000, length := 2, tag := 9, payload := fill 128 7 }, stage := .staged, fpa := 1073774592 },
       3, 1073774592, by decide +kernel⟩,
   ⟨(({ img [] with req := { (img []).req with reqs := [{ n := 4, origin := .port 3, frame := { opcode := 0x14, vc := 2, dst := 0x20, src := 0x30, tenant := 7, addr := 0x4000, length := 2, tag := 9, payload := fill 64 7 ++ [3, 0, 0, 0, 0, 0, 0, 0x80] ++ fill 56 0 }, stage := .staged, fpa := 1073774592 }] } } : State)),
       4, { n := 4, origin := .port 3, frame := { opcode := 0x14, vc := 2, dst := 0x20, src := 0x30, tenant := 7, addr := 0x4000, length := 2, tag := 9, payload := fill 64 7 ++ [3, 0, 0, 0, 0, 0, 0, 0x80] ++ fill 56 0 }, stage := .staged, fpa := 1073774592 },
       3, 1073774592, by decide +kernel⟩⟩

theorem witness_AtomicsActAtTheHome :
    (∃ (s : State) (e : State) (port : BitVec 8) (f : Frame) (g : Frame) (a : Nat), f.opcode = 0x20
        ∧ s.takenAs port.toNat f = some g ∧ e = s.entered port.toNat f ∧ e.reaches (s.base port.toNat) g a
        ∧ (e.extent (fpaExtent a)).coherent = false ∧ e.noFailed (s.base port.toNat) ∧ a % (atomicSize g.sub) = 0 ∧ e.inT0 a 1
        ∧ e.hofAt (fpaLine a) = none)
    ∧ (∃ (s : State) (e : State) (port : BitVec 8) (f : Frame) (g : Frame) (a : Nat), f.opcode = 0x21
        ∧ s.takenAs port.toNat f = some g ∧ e = s.entered port.toNat f ∧ e.reaches (s.base port.toNat) g a
        ∧ (e.extent (fpaExtent a)).coherent = false ∧ e.noFailed (s.base port.toNat) ∧ a % (atomicSize g.sub) = 0 ∧ e.inT0 a 1
        ∧ e.hofAt (fpaLine a) = none)
    ∧ (∃ (s : State) (e : State) (port : BitVec 8) (f : Frame) (g : Frame) (a : Nat), f.opcode = 0x22
        ∧ s.takenAs port.toNat f = some g ∧ e = s.entered port.toNat f ∧ e.reaches (s.base port.toNat) g a
        ∧ (e.extent (fpaExtent a)).coherent = false ∧ e.noFailed (s.base port.toNat) ∧ a % (atomicSize g.sub) = 0 ∧ e.inT0 a 1
        ∧ e.hofAt (fpaLine a) = none)
    ∧ (∃ (s : State) (e : State) (port : BitVec 8) (f : Frame) (g : Frame) (a : Nat), f.opcode = 0x23
        ∧ s.takenAs port.toNat f = some g ∧ e = s.entered port.toNat f ∧ e.reaches (s.base port.toNat) g a
        ∧ (e.extent (fpaExtent a)).coherent = false ∧ e.noFailed (s.base port.toNat) ∧ a % (atomicSize g.sub) = 0 ∧ e.inT0 a 1
        ∧ e.hofAt (fpaLine a) = none)
    ∧ (∃ (s : State) (e : State) (port : BitVec 8) (f : Frame) (g : Frame) (a : Nat), f.opcode = 0x28
        ∧ s.takenAs port.toNat f = some g ∧ e = s.entered port.toNat f ∧ e.reaches (s.base port.toNat) g a
        ∧ (e.extent (fpaExtent a)).coherent = false ∧ e.noFailed (s.base port.toNat) ∧ a % (atomicSize g.sub) = 0 ∧ e.inT0 a 1
        ∧ e.hofAt (fpaLine a) = none)
    ∧ (∃ (s : State) (e : State) (port : BitVec 8) (f : Frame) (g : Frame) (a : Nat), f.opcode = 0x29
        ∧ s.takenAs port.toNat f = some g ∧ e = s.entered port.toNat f ∧ e.reaches (s.base port.toNat) g a
        ∧ (e.extent (fpaExtent a)).coherent = false ∧ e.noFailed (s.base port.toNat) ∧ a % (atomicSize g.sub) = 0 ∧ e.inT0 a 1
        ∧ e.hofAt (fpaLine a) = none)
    ∧ (∃ (s : State) (e : State) (port : BitVec 8) (f : Frame) (g : Frame) (a : Nat), f.opcode = 0x2A
        ∧ s.takenAs port.toNat f = some g ∧ e = s.entered port.toNat f ∧ e.reaches (s.base port.toNat) g a
        ∧ (e.extent (fpaExtent a)).coherent = false ∧ e.noFailed (s.base port.toNat) ∧ a % (atomicSize g.sub) = 0 ∧ e.inT0 a 1
        ∧ e.hofAt (fpaLine a) = none)
    ∧ (∃ (s : State) (e : State) (port : BitVec 8) (f : Frame) (g : Frame) (a : Nat), f.opcode = 0x2B
        ∧ s.takenAs port.toNat f = some g ∧ e = s.entered port.toNat f ∧ e.reaches (s.base port.toNat) g a
        ∧ (e.extent (fpaExtent a)).coherent = false ∧ e.noFailed (s.base port.toNat) ∧ a % (atomicSize g.sub) = 0 ∧ e.inT0 a 1
        ∧ e.hofAt (fpaLine a) = none) :=
  ⟨⟨imgA, ((imgA).entered 3 ({ opcode := 0x20, vc := 2, dst := 0x20, src := 0x30, tenant := 7, addr := 0x4000, length := 1, tag := 9, payload := (leBytes 8 100 ++ fill 8 0 ++ leBytes 8 200 ++ fill 40 0), flags := 1 })),
      3, { opcode := 0x20, vc := 2, dst := 0x20, src := 0x30, tenant := 7, addr := 0x4000, length := 1, tag := 9, payload := (leBytes 8 100 ++ fill 8 0 ++ leBytes 8 200 ++ fill 40 0), flags := 1 },
      ((imgA).takenAs 3 ({ opcode := 0x20, vc := 2, dst := 0x20, src := 0x30, tenant := 7, addr := 0x4000, length := 1, tag := 9, payload := (leBytes 8 100 ++ fill 8 0 ++ leBytes 8 200 ++ fill 40 0), flags := 1 })).getD {},
      1073774592, by decide +kernel⟩,
   ⟨imgA, ((imgA).entered 3 ({ opcode := 0x21, vc := 2, dst := 0x20, src := 0x30, tenant := 7, addr := 0x4000, length := 1, tag := 9, payload := (leBytes 8 100 ++ fill 8 0 ++ leBytes 8 200 ++ fill 40 0), flags := 1 })),
       3, { opcode := 0x21, vc := 2, dst := 0x20, src := 0x30, tenant := 7, addr := 0x4000, length := 1, tag := 9, payload := (leBytes 8 100 ++ fill 8 0 ++ leBytes 8 200 ++ fill 40 0), flags := 1 },
       ((imgA).takenAs 3 ({ opcode := 0x21, vc := 2, dst := 0x20, src := 0x30, tenant := 7, addr := 0x4000, length := 1, tag := 9, payload := (leBytes 8 100 ++ fill 8 0 ++ leBytes 8 200 ++ fill 40 0), flags := 1 })).getD {},
       1073774592, by decide +kernel⟩,
   ⟨imgA, ((imgA).entered 3 ({ opcode := 0x22, vc := 2, dst := 0x20, src := 0x30, tenant := 7, addr := 0x4000, length := 1, tag := 9, payload := (leBytes 8 100 ++ fill 8 0 ++ leBytes 8 200 ++ fill 40 0), flags := 1 })),
       3, { opcode := 0x22, vc := 2, dst := 0x20, src := 0x30, tenant := 7, addr := 0x4000, length := 1, tag := 9, payload := (leBytes 8 100 ++ fill 8 0 ++ leBytes 8 200 ++ fill 40 0), flags := 1 },
       ((imgA).takenAs 3 ({ opcode := 0x22, vc := 2, dst := 0x20, src := 0x30, tenant := 7, addr := 0x4000, length := 1, tag := 9, payload := (leBytes 8 100 ++ fill 8 0 ++ leBytes 8 200 ++ fill 40 0), flags := 1 })).getD {},
       1073774592, by decide +kernel⟩,
   ⟨imgA, ((imgA).entered 3 ({ opcode := 0x23, vc := 2, dst := 0x20, src := 0x30, tenant := 7, addr := 0x4000, length := 1, tag := 9, payload := (leBytes 8 100 ++ fill 8 0 ++ leBytes 8 200 ++ fill 40 0), flags := 1 })),
       3, { opcode := 0x23, vc := 2, dst := 0x20, src := 0x30, tenant := 7, addr := 0x4000, length := 1, tag := 9, payload := (leBytes 8 100 ++ fill 8 0 ++ leBytes 8 200 ++ fill 40 0), flags := 1 },
       ((imgA).takenAs 3 ({ opcode := 0x23, vc := 2, dst := 0x20, src := 0x30, tenant := 7, addr := 0x4000, length := 1, tag := 9, payload := (leBytes 8 100 ++ fill 8 0 ++ leBytes 8 200 ++ fill 40 0), flags := 1 })).getD {},
       1073774592, by decide +kernel⟩,
   ⟨imgA, ((imgA).entered 3 ({ opcode := 0x28, vc := 2, dst := 0x20, src := 0x30, tenant := 7, addr := 0x4000, length := 1, tag := 9, payload := (leBytes 8 100 ++ fill 8 0 ++ leBytes 8 200 ++ fill 40 0), flags := 1 })),
       3, { opcode := 0x28, vc := 2, dst := 0x20, src := 0x30, tenant := 7, addr := 0x4000, length := 1, tag := 9, payload := (leBytes 8 100 ++ fill 8 0 ++ leBytes 8 200 ++ fill 40 0), flags := 1 },
       ((imgA).takenAs 3 ({ opcode := 0x28, vc := 2, dst := 0x20, src := 0x30, tenant := 7, addr := 0x4000, length := 1, tag := 9, payload := (leBytes 8 100 ++ fill 8 0 ++ leBytes 8 200 ++ fill 40 0), flags := 1 })).getD {},
       1073774592, by decide +kernel⟩,
   ⟨imgA, ((imgA).entered 3 ({ opcode := 0x29, vc := 2, dst := 0x20, src := 0x30, tenant := 7, addr := 0x4000, length := 1, tag := 9, payload := (leBytes 8 100 ++ fill 8 0 ++ leBytes 8 200 ++ fill 40 0), flags := 1 })),
       3, { opcode := 0x29, vc := 2, dst := 0x20, src := 0x30, tenant := 7, addr := 0x4000, length := 1, tag := 9, payload := (leBytes 8 100 ++ fill 8 0 ++ leBytes 8 200 ++ fill 40 0), flags := 1 },
       ((imgA).takenAs 3 ({ opcode := 0x29, vc := 2, dst := 0x20, src := 0x30, tenant := 7, addr := 0x4000, length := 1, tag := 9, payload := (leBytes 8 100 ++ fill 8 0 ++ leBytes 8 200 ++ fill 40 0), flags := 1 })).getD {},
       1073774592, by decide +kernel⟩,
   ⟨imgA, ((imgA).entered 3 ({ opcode := 0x2A, vc := 2, dst := 0x20, src := 0x30, tenant := 7, addr := 0x4000, length := 1, tag := 9, payload := (leBytes 8 100 ++ fill 8 0 ++ leBytes 8 200 ++ fill 40 0), flags := 1 })),
       3, { opcode := 0x2A, vc := 2, dst := 0x20, src := 0x30, tenant := 7, addr := 0x4000, length := 1, tag := 9, payload := (leBytes 8 100 ++ fill 8 0 ++ leBytes 8 200 ++ fill 40 0), flags := 1 },
       ((imgA).takenAs 3 ({ opcode := 0x2A, vc := 2, dst := 0x20, src := 0x30, tenant := 7, addr := 0x4000, length := 1, tag := 9, payload := (leBytes 8 100 ++ fill 8 0 ++ leBytes 8 200 ++ fill 40 0), flags := 1 })).getD {},
       1073774592, by decide +kernel⟩,
   ⟨imgA, ((imgA).entered 3 ({ opcode := 0x2B, vc := 2, dst := 0x20, src := 0x30, tenant := 7, addr := 0x4000, length := 1, tag := 9, payload := (leBytes 8 100 ++ fill 8 0 ++ leBytes 8 200 ++ fill 40 0), flags := 1 })),
       3, { opcode := 0x2B, vc := 2, dst := 0x20, src := 0x30, tenant := 7, addr := 0x4000, length := 1, tag := 9, payload := (leBytes 8 100 ++ fill 8 0 ++ leBytes 8 200 ++ fill 40 0), flags := 1 },
       ((imgA).takenAs 3 ({ opcode := 0x2B, vc := 2, dst := 0x20, src := 0x30, tenant := 7, addr := 0x4000, length := 1, tag := 9, payload := (leBytes 8 100 ++ fill 8 0 ++ leBytes 8 200 ++ fill 40 0), flags := 1 })).getD {},
       1073774592, by decide +kernel⟩⟩

theorem witness_CoherenceRequests :
    (∃ (s : State) (e : State) (port : BitVec 8) (f : Frame) (g : Frame) (a : Nat) (d : Nat) (me : Nat), f.opcode = 0x40
        ∧ s.takenAs port.toNat f = some g ∧ e = s.entered port.toNat f ∧ e.reachesLine (s.base port.toNat) g a d me
        ∧ (e.dirEntry (fpaLine a)).state = .i ∧ (e.dom d).eGrant = true
        ∧ sharePermits e.comp.run (e.extent (fpaExtent a)) (.unit g.src) true = true ∧ e.dirRoom (fpaLine a) = .ok
        ∧ e.inT0 a 1)
    ∧ (∃ (s : State) (e : State) (port : BitVec 8) (f : Frame) (g : Frame) (a : Nat) (d : Nat) (me : Nat), f.opcode = 0x40
        ∧ s.takenAs port.toNat f = some g ∧ e = s.entered port.toNat f ∧ e.reachesLine (s.base port.toNat) g a d me
        ∧ (e.dirEntry (fpaLine a)).state = .i ∧ (e.dom d).eGrant = false ∧ e.dirRoom (fpaLine a) = .ok ∧ e.inT0 a 1)
    ∧ (∃ (s : State) (e : State) (port : BitVec 8) (f : Frame) (g : Frame) (a : Nat) (d : Nat) (me : Nat), f.opcode = 0x40
        ∧ s.takenAs port.toNat f = some g ∧ e = s.entered port.toNat f ∧ e.reachesLine (s.base port.toNat) g a d me
        ∧ (e.dirEntry (fpaLine a)).state = .o ∧ (e.dirEntry (fpaLine a)).sharers.toNat % 256 ≠ me
        ∧ (e.dirEntry (fpaLine a)).dom.toNat = d)
    ∧ (∃ (s : State) (e : State) (port : BitVec 8) (f : Frame) (g : Frame) (a : Nat) (d : Nat) (me : Nat), f.opcode = 0x41
        ∧ s.takenAs port.toNat f = some g ∧ e = s.entered port.toNat f ∧ e.reachesLine (s.base port.toNat) g a d me
        ∧ (e.dirEntry (fpaLine a)).state = .i ∧ e.dirRoom (fpaLine a) = .ok ∧ e.inT0 a 1)
    ∧ (∃ (s : State) (e : State) (port : BitVec 8) (f : Frame) (g : Frame) (a : Nat) (d : Nat) (me : Nat), f.opcode = 0x42
        ∧ s.takenAs port.toNat f = some g ∧ e = s.entered port.toNat f ∧ e.reachesLine (s.base port.toNat) g a d me
        ∧ (e.dirEntry (fpaLine a)).state = .s ∧ (e.dirEntry (fpaLine a)).coarse = false
        ∧ e.holders (e.dirEntry (fpaLine a)) = [me] ∧ e.linePoison (fpaLine a) = false)
    ∧ (∃ (s : State) (e : State) (port : BitVec 8) (f : Frame) (g : Frame) (a : Nat) (d : Nat) (me : Nat), f.opcode = 0x43
        ∧ s.takenAs port.toNat f = some g ∧ e = s.entered port.toNat f ∧ e.reachesLine (s.base port.toNat) g a d me
        ∧ (e.dirEntry (fpaLine a)).state = .o ∧ (e.dirEntry (fpaLine a)).sharers.toNat % 256 = me
        ∧ e.lineValid (fpaLine a) = true ∧ g.payload.length = 64)
    ∧ (∃ (s : State) (e : State) (port : BitVec 8) (f : Frame) (g : Frame) (a : Nat) (d : Nat) (me : Nat), f.opcode = 0x44
        ∧ s.takenAs port.toNat f = some g ∧ e = s.entered port.toNat f ∧ e.reachesLine (s.base port.toNat) g a d me
        ∧ (e.dirEntry (fpaLine a)).state = .o ∧ (e.dirEntry (fpaLine a)).sharers.toNat % 256 = me) :=
  ⟨⟨coh ({}), ((coh ({})).entered 3 ({ opcode := 0x40, vc := 0, dst := 0x20, src := 0x30, tenant := 7, addr := 0x4000, length := 1, tag := 9, payload := [] })),
      3, { opcode := 0x40, vc := 0, dst := 0x20, src := 0x30, tenant := 7, addr := 0x4000, length := 1, tag := 9, payload := [] },
      ((coh ({})).takenAs 3 ({ opcode := 0x40, vc := 0, dst := 0x20, src := 0x30, tenant := 7, addr := 0x4000, length := 1, tag := 9, payload := [] })).getD {},
      1073774592, 2, 1, by decide +kernel⟩,
   ⟨coh ({}) |>.onDom 2 (fun x => { x with eGrant := false }),
       ((coh ({}) |>.onDom 2 (fun x => { x with eGrant := false })).entered 3 ({ opcode := 0x40, vc := 0, dst := 0x20, src := 0x30, tenant := 7, addr := 0x4000, length := 1, tag := 9, payload := [] })),
       3, { opcode := 0x40, vc := 0, dst := 0x20, src := 0x30, tenant := 7, addr := 0x4000, length := 1, tag := 9, payload := [] },
       ((coh ({}) |>.onDom 2 (fun x => { x with eGrant := false })).takenAs 3 ({ opcode := 0x40, vc := 0, dst := 0x20, src := 0x30, tenant := 7, addr := 0x4000, length := 1, tag := 9, payload := [] })).getD {},
       1073774592, 2, 1, by decide +kernel⟩,
   ⟨coh ({ state := .o, sharers := 0, tva := some 0x4000, dom := 2 }),
       ((coh ({ state := .o, sharers := 0, tva := some 0x4000, dom := 2 })).entered 3 ({ opcode := 0x40, vc := 0, dst := 0x20, src := 0x30, tenant := 7, addr := 0x4000, length := 1, tag := 9, payload := [] })),
       3, { opcode := 0x40, vc := 0, dst := 0x20, src := 0x30, tenant := 7, addr := 0x4000, length := 1, tag := 9, payload := [] },
       ((coh ({ state := .o, sharers := 0, tva := some 0x4000, dom := 2 })).takenAs 3 ({ opcode := 0x40, vc := 0, dst := 0x20, src := 0x30, tenant := 7, addr := 0x4000, length := 1, tag := 9, payload := [] })).getD {},
       1073774592, 2, 1, by decide +kernel⟩,
   ⟨coh ({}), ((coh ({})).entered 3 ({ opcode := 0x41, vc := 0, dst := 0x20, src := 0x30, tenant := 7, addr := 0x4000, length := 1, tag := 9, payload := [] })),
       3, { opcode := 0x41, vc := 0, dst := 0x20, src := 0x30, tenant := 7, addr := 0x4000, length := 1, tag := 9, payload := [] },
       ((coh ({})).takenAs 3 ({ opcode := 0x41, vc := 0, dst := 0x20, src := 0x30, tenant := 7, addr := 0x4000, length := 1, tag := 9, payload := [] })).getD {},
       1073774592, 2, 1, by decide +kernel⟩,
   ⟨coh ({ state := .s, sharers := 1, count := 1, tva := some 0x4000, dom := 2 }),
       ((coh ({ state := .s, sharers := 1, count := 1, tva := some 0x4000, dom := 2 })).entered 3 ({ opcode := 0x42, vc := 0, dst := 0x20, src := 0x30, tenant := 7, addr := 0x4000, length := 1, tag := 9, payload := [] })),
       3, { opcode := 0x42, vc := 0, dst := 0x20, src := 0x30, tenant := 7, addr := 0x4000, length := 1, tag := 9, payload := [] },
       ((coh ({ state := .s, sharers := 1, count := 1, tva := some 0x4000, dom := 2 })).takenAs 3 ({ opcode := 0x42, vc := 0, dst := 0x20, src := 0x30, tenant := 7, addr := 0x4000, length := 1, tag := 9, payload := [] })).getD {},
       1073774592, 2, 1, by decide +kernel⟩,
   ⟨cohA ({ state := .o, sharers := 1, tva := some 0x4000, dom := 2 }),
       ((cohA ({ state := .o, sharers := 1, tva := some 0x4000, dom := 2 })).entered 3 ({ opcode := 0x43, vc := 0, dst := 0x20, src := 0x30, tenant := 7, addr := 0x4000, length := 1, tag := 9, payload := fill 64 6 })),
       3, { opcode := 0x43, vc := 0, dst := 0x20, src := 0x30, tenant := 7, addr := 0x4000, length := 1, tag := 9, payload := fill 64 6 },
       ((cohA ({ state := .o, sharers := 1, tva := some 0x4000, dom := 2 })).takenAs 3 ({ opcode := 0x43, vc := 0, dst := 0x20, src := 0x30, tenant := 7, addr := 0x4000, length := 1, tag := 9, payload := fill 64 6 })).getD {},
       1073774592, 2, 1, by decide +kernel⟩,
   ⟨coh ({ state := .o, sharers := 1, tva := some 0x4000, dom := 2 }),
       ((coh ({ state := .o, sharers := 1, tva := some 0x4000, dom := 2 })).entered 3 ({ opcode := 0x44, vc := 0, dst := 0x20, src := 0x30, tenant := 7, addr := 0x4000, length := 1, tag := 9, payload := [] })),
       3, { opcode := 0x44, vc := 0, dst := 0x20, src := 0x30, tenant := 7, addr := 0x4000, length := 1, tag := 9, payload := [] },
       ((coh ({ state := .o, sharers := 1, tva := some 0x4000, dom := 2 })).takenAs 3 ({ opcode := 0x44, vc := 0, dst := 0x20, src := 0x30, tenant := 7, addr := 0x4000, length := 1, tag := 9, payload := [] })).getD {},
       1073774592, 2, 1, by decide +kernel⟩⟩

theorem witness_ResponsesAndSnoops :
    (∃ (s : State) (e : State) (port : BitVec 8) (f : Frame) (g : Frame) (r : Req) (q : Nat), f.opcode = 0x18
        ∧ s.takenAs port.toNat f = some g ∧ e = s.entered port.toNat f ∧ e.req.reqs = [r]
        ∧ r.stage = .remote (s.base port.toNat) ∧ r.origin = .port q ∧ r.frame.src = g.dst ∧ r.frame.tag = g.tag
        ∧ g.status = stOk ∧ g.has flCmpr = false ∧ r.leaf = none)
    ∧ (∃ (s : State) (e : State) (port : BitVec 8) (f : Frame) (g : Frame) (r : Req) (q : Nat), f.opcode = 0x19
        ∧ s.takenAs port.toNat f = some g ∧ e = s.entered port.toNat f ∧ e.req.reqs = [r]
        ∧ r.stage = .remote (s.base port.toNat) ∧ r.origin = .port q ∧ r.frame.src = g.dst ∧ r.frame.tag = g.tag
        ∧ g.status = stOk ∧ g.has flCmpr = false ∧ r.leaf = none)
    ∧ (∃ (s : State) (e : State) (port : BitVec 8) (f : Frame) (g : Frame) (r : Req) (q : Nat), f.opcode = 0x91
        ∧ s.takenAs port.toNat f = some g ∧ e = s.entered port.toNat f ∧ e.req.reqs = [r]
        ∧ r.stage = .remote (s.base port.toNat) ∧ r.origin = .port q ∧ r.frame.src = g.dst ∧ r.frame.tag = g.tag
        ∧ g.status = stOk ∧ g.has flCmpr = false ∧ r.leaf = none)
    ∧ (∃ (s : State) (e : State) (port : BitVec 8) (f : Frame) (g : Frame) (r : Req) (q : Nat), f.opcode = 0x58
        ∧ s.takenAs port.toNat f = some g ∧ e = s.entered port.toNat f ∧ e.req.reqs = [r]
        ∧ r.stage = .remote (s.base port.toNat) ∧ r.origin = .port q ∧ r.frame.src = g.dst ∧ r.frame.tag = g.tag
        ∧ g.status = stOk ∧ g.has flCmpr = false ∧ r.leaf = none)
    ∧ (∃ (s : State) (e : State) (port : BitVec 8) (f : Frame) (g : Frame) (r : Req) (q : Nat), f.opcode = 0x59
        ∧ s.takenAs port.toNat f = some g ∧ e = s.entered port.toNat f ∧ e.req.reqs = [r]
        ∧ r.stage = .remote (s.base port.toNat) ∧ r.origin = .port q ∧ r.frame.src = g.dst ∧ r.frame.tag = g.tag
        ∧ g.status = stOk ∧ g.has flCmpr = false ∧ r.leaf = none)
    ∧ (∃ (s : State) (e : State) (port : BitVec 8) (f : Frame) (g : Frame), f.opcode = 0x18 ∧ s.takenAs port.toNat f = some g
        ∧ e = s.entered port.toNat f ∧ e.req.reqs = [] ∧ (e.link (s.base port.toNat)).cls = 2
        ∧ e.transit (s.base port.toNat) g = none)
    ∧ (∃ (s : State) (e : State) (port : BitVec 8) (f : Frame) (g : Frame), f.opcode = 0x59 ∧ s.takenAs port.toNat f = some g
        ∧ e = s.entered port.toNat f ∧ e.req.reqs = [] ∧ (e.link (s.base port.toNat)).cls = 2
        ∧ e.transit (s.base port.toNat) g = none)
    ∧ (∃ (s : State) (e : State) (port : BitVec 8) (f : Frame) (g : Frame) (p : Nat), f.opcode = 0x50
        ∧ s.takenAs port.toNat f = some g ∧ e = s.entered port.toNat f ∧ unitOf (e.tables g.epoch) g.dst = .port p
        ∧ (g.clear flCe) = g)
    ∧ (∃ (s : State) (e : State) (port : BitVec 8) (f : Frame) (g : Frame) (p : Nat), f.opcode = 0x51
        ∧ s.takenAs port.toNat f = some g ∧ e = s.entered port.toNat f ∧ unitOf (e.tables g.epoch) g.dst = .port p
        ∧ (g.clear flCe) = g)
    ∧ (∃ (s : State) (e : State) (port : BitVec 8) (f : Frame) (g : Frame) (p : Nat), f.opcode = 0x52
        ∧ s.takenAs port.toNat f = some g ∧ e = s.entered port.toNat f ∧ unitOf (e.tables g.epoch) g.dst = .port p
        ∧ (g.clear flCe) = g)
    ∧ (∃ (s : State) (e : State) (port : BitVec 8) (f : Frame) (g : Frame) (p : Nat), f.opcode = 0x64
        ∧ s.takenAs port.toNat f = some g ∧ e = s.entered port.toNat f ∧ unitOf (e.tables g.epoch) g.dst = .port p
        ∧ (e.link (e.base p)).state = .opened)
    ∧ (∃ (s : State) (e : State) (port : BitVec 8) (f : Frame) (g : Frame) (p : Nat), f.opcode = 0x65
        ∧ s.takenAs port.toNat f = some g ∧ e = s.entered port.toNat f ∧ unitOf (e.tables g.epoch) g.dst = .port p
        ∧ (e.link (e.base p)).state = .opened)
    ∧ (∃ (s : State) (e : State) (port : BitVec 8) (f : Frame) (g : Frame) (x : Snoop) (ext : Nat), f.opcode = 0x5A
        ∧ s.takenAs port.toNat f = some g ∧ e = s.entered port.toNat f ∧ e.coh.snoops = [x] ∧ x.heldTo = none ∧ x.tag = g.tag
        ∧ g.dst = e.selfUnit ∧ e.agentUnit x.dom x.agent = g.src ∧ x.why = .revoke ext ∧ e.req.reqs = []
        ∧ (e.dirEntry x.line).state = .s ∧ (e.dirEntry x.line).coarse = false ∧ e.holders (e.dirEntry x.line) = [x.agent])
    ∧ (∃ (s : State) (e : State) (port : BitVec 8) (f : Frame) (g : Frame) (x : Snoop) (ext : Nat), f.opcode = 0x5B
        ∧ s.takenAs port.toNat f = some g ∧ e = s.entered port.toNat f ∧ e.coh.snoops = [x] ∧ x.heldTo = none ∧ x.tag = g.tag
        ∧ g.dst = e.selfUnit ∧ e.agentUnit x.dom x.agent = g.src ∧ x.why = .revoke ext ∧ e.req.reqs = []
        ∧ (e.dirEntry x.line).state = .o ∧ (e.dirEntry x.line).sharers.toNat % 256 = x.agent ∧ e.lineValid x.line = true
        ∧ g.payload.length = 64) :=
  ⟨⟨(({ imgA with req := { (imgA).req with reqs := [{ n := 4, origin := .port 4, frame := { src := 0x31, tag := 9 }, stage := .remote 3 }] } } : State)),
      (((({ imgA with req := { (imgA).req with reqs := [{ n := 4, origin := .port 4, frame := { src := 0x31, tag := 9 }, stage := .remote 3 }] } } : State))).entered 3 ({ opcode := 0x18, vc := 3, dst := 0x31, src := 0x30, tenant := 7, length := 1, tag := 9, payload := fill 64 1 })),
      3, { opcode := 0x18, vc := 3, dst := 0x31, src := 0x30, tenant := 7, length := 1, tag := 9, payload := fill 64 1 },
      (((({ imgA with req := { (imgA).req with reqs := [{ n := 4, origin := .port 4, frame := { src := 0x31, tag := 9 }, stage := .remote 3 }] } } : State))).takenAs 3 ({ opcode := 0x18, vc := 3, dst := 0x31, src := 0x30, tenant := 7, length := 1, tag := 9, payload := fill 64 1 })).getD {},
      { n := 4, origin := .port 4, frame := { src := 0x31, tag := 9 }, stage := .remote 3 }, 4, by decide +kernel⟩,
   ⟨(({ img [] with req := { (img []).req with reqs := [{ n := 4, origin := .port 4, frame := { src := 0x31, tag := 9 }, stage := .remote 3 }] } } : State)),
       (((({ img [] with req := { (img []).req with reqs := [{ n := 4, origin := .port 4, frame := { src := 0x31, tag := 9 }, stage := .remote 3 }] } } : State))).entered 3 ({ opcode := 0x19, vc := 3, dst := 0x31, src := 0x30, tenant := 7, length := 0, tag := 9, payload := [] })),
       3, { opcode := 0x19, vc := 3, dst := 0x31, src := 0x30, tenant := 7, length := 0, tag := 9, payload := [] },
       (((({ img [] with req := { (img []).req with reqs := [{ n := 4, origin := .port 4, frame := { src := 0x31, tag := 9 }, stage := .remote 3 }] } } : State))).takenAs 3 ({ opcode := 0x19, vc := 3, dst := 0x31, src := 0x30, tenant := 7, length := 0, tag := 9, payload := [] })).getD {},
       { n := 4, origin := .port 4, frame := { src := 0x31, tag := 9 }, stage := .remote 3 }, 4, by decide +kernel⟩,
   ⟨(({ imgA with req := { (imgA).req with reqs := [{ n := 4, origin := .port 4, frame := { src := 0x31, tag := 9 }, stage := .remote 3 }] } } : State)),
       (((({ imgA with req := { (imgA).req with reqs := [{ n := 4, origin := .port 4, frame := { src := 0x31, tag := 9 }, stage := .remote 3 }] } } : State))).entered 3 ({ opcode := 0x91, vc := 7, dst := 0x31, src := 0x30, tenant := 7, length := 1, tag := 9, payload := fill 64 1 })),
       3, { opcode := 0x91, vc := 7, dst := 0x31, src := 0x30, tenant := 7, length := 1, tag := 9, payload := fill 64 1 },
       (((({ imgA with req := { (imgA).req with reqs := [{ n := 4, origin := .port 4, frame := { src := 0x31, tag := 9 }, stage := .remote 3 }] } } : State))).takenAs 3 ({ opcode := 0x91, vc := 7, dst := 0x31, src := 0x30, tenant := 7, length := 1, tag := 9, payload := fill 64 1 })).getD {},
       { n := 4, origin := .port 4, frame := { src := 0x31, tag := 9 }, stage := .remote 3 }, 4, by decide +kernel⟩,
   ⟨(({ imgA with req := { (imgA).req with reqs := [{ n := 4, origin := .port 4, frame := { src := 0x31, tag := 9 }, stage := .remote 3 }] } } : State)),
       (((({ imgA with req := { (imgA).req with reqs := [{ n := 4, origin := .port 4, frame := { src := 0x31, tag := 9 }, stage := .remote 3 }] } } : State))).entered 3 ({ opcode := 0x58, vc := 1, dst := 0x31, src := 0x30, tenant := 7, length := 1, tag := 9, payload := fill 64 1 })),
       3, { opcode := 0x58, vc := 1, dst := 0x31, src := 0x30, tenant := 7, length := 1, tag := 9, payload := fill 64 1 },
       (((({ imgA with req := { (imgA).req with reqs := [{ n := 4, origin := .port 4, frame := { src := 0x31, tag := 9 }, stage := .remote 3 }] } } : State))).takenAs 3 ({ opcode := 0x58, vc := 1, dst := 0x31, src := 0x30, tenant := 7, length := 1, tag := 9, payload := fill 64 1 })).getD {},
       { n := 4, origin := .port 4, frame := { src := 0x31, tag := 9 }, stage := .remote 3 }, 4, by decide +kernel⟩,
   ⟨(({ img [] with req := { (img []).req with reqs := [{ n := 4, origin := .port 4, frame := { src := 0x31, tag := 9 }, stage := .remote 3 }] } } : State)),
       (((({ img [] with req := { (img []).req with reqs := [{ n := 4, origin := .port 4, frame := { src := 0x31, tag := 9 }, stage := .remote 3 }] } } : State))).entered 3 ({ opcode := 0x59, vc := 1, dst := 0x31, src := 0x30, tenant := 7, length := 0, tag := 9, payload := [] })),
       3, { opcode := 0x59, vc := 1, dst := 0x31, src := 0x30, tenant := 7, length := 0, tag := 9, payload := [] },
       (((({ img [] with req := { (img []).req with reqs := [{ n := 4, origin := .port 4, frame := { src := 0x31, tag := 9 }, stage := .remote 3 }] } } : State))).takenAs 3 ({ opcode := 0x59, vc := 1, dst := 0x31, src := 0x30, tenant := 7, length := 0, tag := 9, payload := [] })).getD {},
       { n := 4, origin := .port 4, frame := { src := 0x31, tag := 9 }, stage := .remote 3 }, 4, by decide +kernel⟩,
   ⟨img [], ((img []).entered 3 ({ opcode := 0x18, vc := 3, dst := 0x31, src := 0x30, tenant := 7, length := 1, tag := 9, payload := fill 64 1 })),
       3, { opcode := 0x18, vc := 3, dst := 0x31, src := 0x30, tenant := 7, length := 1, tag := 9, payload := fill 64 1 },
       ((img []).takenAs 3 ({ opcode := 0x18, vc := 3, dst := 0x31, src := 0x30, tenant := 7, length := 1, tag := 9, payload := fill 64 1 })).getD {},
       by decide +kernel, rfl, rfl, by decide +kernel, by decide +kernel, by decide +kernel⟩,
   ⟨img [], ((img []).entered 3 ({ opcode := 0x59, vc := 1, dst := 0x31, src := 0x30, tenant := 7, length := 0, tag := 9, payload := [] })),
       3, { opcode := 0x59, vc := 1, dst := 0x31, src := 0x30, tenant := 7, length := 0, tag := 9, payload := [] },
       ((img []).takenAs 3 ({ opcode := 0x59, vc := 1, dst := 0x31, src := 0x30, tenant := 7, length := 0, tag := 9, payload := [] })).getD {},
       by decide +kernel⟩,
   ⟨img [], ((img []).entered 3 ({ opcode := 0x50, vc := 1, dst := 0x31, src := 0x30, tenant := 7, length := 0, tag := 9, payload := [] })),
       3, { opcode := 0x50, vc := 1, dst := 0x31, src := 0x30, tenant := 7, length := 0, tag := 9, payload := [] },
       ((img []).takenAs 3 ({ opcode := 0x50, vc := 1, dst := 0x31, src := 0x30, tenant := 7, length := 0, tag := 9, payload := [] })).getD {},
       4, by decide +kernel⟩,
   ⟨img [], ((img []).entered 3 ({ opcode := 0x51, vc := 1, dst := 0x31, src := 0x30, tenant := 7, length := 0, tag := 9, payload := [] })),
       3, { opcode := 0x51, vc := 1, dst := 0x31, src := 0x30, tenant := 7, length := 0, tag := 9, payload := [] },
       ((img []).takenAs 3 ({ opcode := 0x51, vc := 1, dst := 0x31, src := 0x30, tenant := 7, length := 0, tag := 9, payload := [] })).getD {},
       4, by decide +kernel⟩,
   ⟨img [], ((img []).entered 3 ({ opcode := 0x52, vc := 1, dst := 0x31, src := 0x30, tenant := 7, length := 0, tag := 9, payload := [] })),
       3, { opcode := 0x52, vc := 1, dst := 0x31, src := 0x30, tenant := 7, length := 0, tag := 9, payload := [] },
       ((img []).takenAs 3 ({ opcode := 0x52, vc := 1, dst := 0x31, src := 0x30, tenant := 7, length := 0, tag := 9, payload := [] })).getD {},
       4, by decide +kernel⟩,
   ⟨img [], ((img []).entered 3 ({ opcode := 0x64, vc := 6, dst := 0x31, src := 0x30, tenant := 7, length := 1, tag := 9, payload := fill 64 2 })),
       3, { opcode := 0x64, vc := 6, dst := 0x31, src := 0x30, tenant := 7, length := 1, tag := 9, payload := fill 64 2 },
       ((img []).takenAs 3 ({ opcode := 0x64, vc := 6, dst := 0x31, src := 0x30, tenant := 7, length := 1, tag := 9, payload := fill 64 2 })).getD {},
       4, by decide +kernel⟩,
   ⟨img [], ((img []).entered 3 ({ opcode := 0x65, vc := 6, dst := 0x31, src := 0x30, tenant := 7, length := 1, tag := 9, payload := fill 64 2 })),
       3, { opcode := 0x65, vc := 6, dst := 0x31, src := 0x30, tenant := 7, length := 1, tag := 9, payload := fill 64 2 },
       ((img []).takenAs 3 ({ opcode := 0x65, vc := 6, dst := 0x31, src := 0x30, tenant := 7, length := 1, tag := 9, payload := fill 64 2 })).getD {},
       4, by decide +kernel⟩,
   ⟨({ coh ({ state := .s, sharers := 1, count := 1, tva := some 0x4000, dom := 2 }) with coh := { (coh ({ state := .s, sharers := 1, count := 1, tva := some 0x4000, dom := 2 })).coh with snoops := [{ line := 1073774592 / 64, dom := 2, agent := 1, op := 0x50, why := .revoke 1, tag := 9, heldTo := none, timer := 5 }] } } : State),
       ((({ coh ({ state := .s, sharers := 1, count := 1, tva := some 0x4000, dom := 2 }) with coh := { (coh ({ state := .s, sharers := 1, count := 1, tva := some 0x4000, dom := 2 })).coh with snoops := [{ line := 1073774592 / 64, dom := 2, agent := 1, op := 0x50, why := .revoke 1, tag := 9, heldTo := none, timer := 5 }] } } : State)).entered 3 ({ opcode := 0x5A, vc := 1, dst := 0xFFFF, src := 0x30, tenant := 7, length := 0, tag := 9, payload := [] })),
       3, { opcode := 0x5A, vc := 1, dst := 0xFFFF, src := 0x30, tenant := 7, length := 0, tag := 9, payload := [] },
       ((({ coh ({ state := .s, sharers := 1, count := 1, tva := some 0x4000, dom := 2 }) with coh := { (coh ({ state := .s, sharers := 1, count := 1, tva := some 0x4000, dom := 2 })).coh with snoops := [{ line := 1073774592 / 64, dom := 2, agent := 1, op := 0x50, why := .revoke 1, tag := 9, heldTo := none, timer := 5 }] } } : State)).takenAs 3 ({ opcode := 0x5A, vc := 1, dst := 0xFFFF, src := 0x30, tenant := 7, length := 0, tag := 9, payload := [] })).getD {},
       { line := 1073774592 / 64, dom := 2, agent := 1, op := 0x50, why := .revoke 1, tag := 9, heldTo := none, timer := 5 },
       1, by decide +kernel⟩,
   ⟨({ cohA ({ state := .o, sharers := 1, tva := some 0x4000, dom := 2 }) with coh := { (cohA ({ state := .o, sharers := 1, tva := some 0x4000, dom := 2 })).coh with snoops := [{ line := 1073774592 / 64, dom := 2, agent := 1, op := 0x50, why := .revoke 1, tag := 9, heldTo := none, timer := 5 }] } } : State),
       ((({ cohA ({ state := .o, sharers := 1, tva := some 0x4000, dom := 2 }) with coh := { (cohA ({ state := .o, sharers := 1, tva := some 0x4000, dom := 2 })).coh with snoops := [{ line := 1073774592 / 64, dom := 2, agent := 1, op := 0x50, why := .revoke 1, tag := 9, heldTo := none, timer := 5 }] } } : State)).entered 3 ({ opcode := 0x5B, vc := 1, dst := 0xFFFF, src := 0x30, tenant := 7, length := 1, tag := 9, payload := fill 64 9 })),
       3, { opcode := 0x5B, vc := 1, dst := 0xFFFF, src := 0x30, tenant := 7, length := 1, tag := 9, payload := fill 64 9 },
       ((({ cohA ({ state := .o, sharers := 1, tva := some 0x4000, dom := 2 }) with coh := { (cohA ({ state := .o, sharers := 1, tva := some 0x4000, dom := 2 })).coh with snoops := [{ line := 1073774592 / 64, dom := 2, agent := 1, op := 0x50, why := .revoke 1, tag := 9, heldTo := none, timer := 5 }] } } : State)).takenAs 3 ({ opcode := 0x5B, vc := 1, dst := 0xFFFF, src := 0x30, tenant := 7, length := 1, tag := 9, payload := fill 64 9 })).getD {},
       { line := 1073774592 / 64, dom := 2, agent := 1, op := 0x50, why := .revoke 1, tag := 9, heldTo := none, timer := 5 },
       1, by decide +kernel⟩⟩

theorem witness_FencesAndTimers :
    (∃ (s : State) (e : State) (port : BitVec 8) (f : Frame) (g : Frame), f.opcode = 0x15 ∧ s.takenAs port.toNat f = some g
        ∧ e = s.entered port.toNat f)
    ∧ (∃ (s : State) (n : Nat) (b : Nat) (f : Frame), s.alive = true
        ∧ s.req.fences = [{ n := n, origin := .port b, frame := f }] ∧ s.base b = b ∧ s.storesBefore n f.src.toNat = false
        ∧ f.opcode = 0x15)
    ∧ (∃ (s : State) (n : Nat) (b : Nat) (f : Frame), s.alive = true
        ∧ s.req.fences = [{ n := n, origin := .port b, frame := f }] ∧ s.storesBefore n f.src.toNat = true)
    ∧ (∃ (s : State) (n : Nat) (o : Origin) (f : Frame), s.alive = true ∧ s.req.held = [{ n := n, origin := o, frame := f }]
        ∧ s.fenceHolds n o f = true)
    ∧ (∃ (s : State) (n : Nat) (b : Nat) (f : Frame), s.alive = true ∧ s.req.held = [{ n := n, origin := .port b, frame := f }]
        ∧ s.fenceHolds n (.port b) f = false ∧ s.base b = b ∧ f.opcode = 0x80 ∧ f.length = 1 ∧ f.payload = 3 :: fill 63 0
        ∧ s.elsewhere f = false ∧ s.req.reqs = [] ∧ f.handle.toNat < 2 ^ 18 ∧ s.mod.state = .service
        ∧ s.handleUnder f f.handle.toNat = true ∧ s.tenantGone f.tenant = false ∧ (s.handle f.handle.toNat).state = .bound
        ∧ (s.handle f.handle.toNat).tenant = f.tenant)
    ∧ (∃ (s : State) (n : Nat) (b : Nat) (p : Nat) (r : Req), s.alive = true ∧ s.req.reqs = [r] ∧ r.n = n ∧ n < 2 ^ 40
        ∧ r.timed = true ∧ r.timer ≤ s.now ∧ r.origin = .port b ∧ s.base b = b ∧ r.stage = .remote p ∧ p < 256
        ∧ s.evq.mask.getLsbD 0x49 = false ∧ s.evq.queue.length < 4090 ∧ s.evq.lost = 0 ∧ storeClass r.frame.opcode = false
        ∧ isRequest r.frame.opcode = true ∧ r.frame.opcode ≠ 0x61)
    ∧ (∃ (s : State) (n : Nat) (b : Nat) (p : Nat) (r : Req), s.alive = true ∧ s.req.reqs = [r] ∧ r.n = n ∧ r.backstop ≤ s.now
        ∧ r.origin = .port b ∧ s.base b = b ∧ r.stage = .remote p ∧ p < 256 ∧ s.evq.mask.getLsbD 0x49 = false
        ∧ s.evq.queue.length < 4090 ∧ s.evq.lost = 0 ∧ storeClass r.frame.opcode = false ∧ isRequest r.frame.opcode = true
        ∧ r.frame.opcode ≠ 0x61) :=
  ⟨⟨img [], ((img []).entered 3 ({ opcode := 0x15, vc := 2, dst := 0xFFFF, src := 0x30, tenant := 7, length := 0, tag := 9, payload := [] })),
      3, { opcode := 0x15, vc := 2, dst := 0xFFFF, src := 0x30, tenant := 7, length := 0, tag := 9, payload := [] },
      ((img []).takenAs 3 ({ opcode := 0x15, vc := 2, dst := 0xFFFF, src := 0x30, tenant := 7, length := 0, tag := 9, payload := [] })).getD {},
      by decide +kernel⟩,
   ⟨(({ img [] with req := { (img []).req with fences := [{ n := 5, origin := .port 3, frame := { opcode := 0x15, vc := 2, src := 0x30, tenant := 7, tag := 9 } }] } } : State)),
       5, 3, { opcode := 0x15, vc := 2, src := 0x30, tenant := 7, tag := 9 }, by decide +kernel⟩,
   ⟨(({ img [] with req := { (img []).req with fences := [{ n := 5, origin := .port 3, frame := { opcode := 0x15, vc := 2, src := 0x30, tenant := 7, tag := 9 } }] } } : State)) |>.withReq ({ n := 2, origin := .port 3, frame := { opcode := 0x12, vc := 2, dst := 0x20, src := 0x30, tenant := 7, addr := 0x4000, length := 1, tag := 9, payload := [] }, stage := .staged, counted := some 1 }),
       5, 3, { opcode := 0x15, vc := 2, src := 0x30, tenant := 7, tag := 9 }, by decide +kernel⟩,
   ⟨(({ ((img []).withReq ({ n := 2, origin := .port 3, frame := { opcode := 0x12, vc := 2, dst := 0x20, src := 0x30, tenant := 7, addr := 0x4000, length := 1, tag := 9, payload := [] }, stage := .staged, counted := some 1 })) with req := { (((img []).withReq ({ n := 2, origin := .port 3, frame := { opcode := 0x12, vc := 2, dst := 0x20, src := 0x30, tenant := 7, addr := 0x4000, length := 1, tag := 9, payload := [] }, stage := .staged, counted := some 1 }))).req with held := [{ n := 5, origin := .port 3, frame := { opcode := 0x80, vc := 5, src := 0x30, dst := 0x20, tenant := 7, tag := 9, length := 1, payload := 1 :: fill 63 0 } }] } } : State)),
       5, .port 3, { opcode := 0x80, vc := 5, src := 0x30, dst := 0x20, tenant := 7, tag := 9, length := 1, payload := 1 :: fill 63 0 },
       by decide +kernel⟩,
   ⟨(({ (att (fun h => { h with state := .bound, tenant := 7 })) with req := { ((att (fun h => { h with state := .bound, tenant := 7 }))).req with held := [{ n := 5, origin := .port 3, frame := { opcode := 0x80, vc := 5, src := 0x30, dst := 0x20, tenant := 7, tag := 9, length := 1, handle := 40965, payload := 3 :: fill 63 0 } }] } } : State)),
       5, 3, { opcode := 0x80, vc := 5, src := 0x30, dst := 0x20, tenant := 7, tag := 9, length := 1, handle := 40965, payload := 3 :: fill 63 0 },
       by decide +kernel⟩,
   ⟨(({ img [] with req := { (img []).req with reqs := [{ n := 4, origin := .port 4, frame := { opcode := 0x10, vc := 2, dst := 0x30, src := 0x30, tenant := 7, addr := 0x4000, length := 1, tag := 9, payload := [] }, stage := .remote 3 }] } } : State)) |>.tickTo 9,
       4, 4, 3, { n := 4, origin := .port 4, frame := { opcode := 0x10, vc := 2, dst := 0x30, src := 0x30, tenant := 7, addr := 0x4000, length := 1, tag := 9, payload := [] }, stage := .remote 3 },
       by decide +kernel⟩,
   ⟨(({ img [] with req := { (img []).req with reqs := [{ n := 4, origin := .port 4, frame := { opcode := 0x10, vc := 2, dst := 0x30, src := 0x30, tenant := 7, addr := 0x4000, length := 1, tag := 9, payload := [] }, stage := .remote 3 }] } } : State)) |>.tickTo 9,
       4, 4, 3, { n := 4, origin := .port 4, frame := { opcode := 0x10, vc := 2, dst := 0x30, src := 0x30, tenant := 7, addr := 0x4000, length := 1, tag := 9, payload := [] }, stage := .remote 3 },
       by decide +kernel⟩⟩

theorem witness_CoherentDomains :
    (∃ (s : State) (tag : BitVec 16) (dom : BitVec 6) (value : BitVec 64),
        s.writes tag (cohAddr dom.toNat 0) (value ||| 1) .operator ∧ (s.dom dom.toNat).state = .off
        ∧ 1 ≤ bits (value ||| 1).toNat 31 24 ∧ bits (value ||| 1).toNat 31 24 ≤ 100 ∧ 1 ≤ bits (value ||| 1).toNat 22 16
        ∧ bits (value ||| 1).toNat 22 16 ≤ 64 ∧ (s.tenant (bits (value ||| 1).toNat 41 32)).state = .active)
    ∧ (∃ (s : State) (tag : BitVec 16) (dom : BitVec 6) (value : BitVec 64),
        s.writes tag (cohAddr dom.toNat 0) (value &&& ~~~1#64) .operator ∧ (s.dom dom.toNat).state = .down
        ∧ 1 ≤ bits (value &&& ~~~1#64).toNat 31 24 ∧ bits (value &&& ~~~1#64).toNat 31 24 ≤ 100
        ∧ 1 ≤ bits (value &&& ~~~1#64).toNat 22 16 ∧ bits (value &&& ~~~1#64).toNat 22 16 ≤ 64
        ∧ bits (value &&& ~~~1#64).toNat 41 32 = (s.dom dom.toNat).tenant.toNat)
    ∧ (∃ (s : State) (tag : BitVec 16) (dom : BitVec 6) (value : BitVec 64),
        s.writes tag (cohAddr dom.toNat 0) (value &&& ~~~1#64) .operator ∧ (s.dom dom.toNat).state = .up
        ∧ (s.dom dom.toNat).enable = true)
    ∧ (∃ (s : State) (tag : BitVec 16) (dom : BitVec 6), s.writes tag (cohAddr dom.toNat 0x10) 2 .operator
        ∧ (s.dom dom.toNat).state = .up ∧ s.req.reqs = [] ∧ s.coh.snoops = [])
    ∧ (∃ (s : State) (tag : BitVec 16) (dom : BitVec 6), s.writes tag (cohAddr dom.toNat 0x10) 1 .operator
        ∧ (s.dom dom.toNat).state = .down)
    ∧ (∃ (s : State) (tag : BitVec 16) (dom : BitVec 6) (j : BitVec 6) (value : BitVec 64),
        s.writes tag (cohAddr dom.toNat (0x100 + 8 * j.toNat)) value .operator ∧ (s.dom dom.toNat).state = .off
        ∧ (s.dom dom.toNat).members = [] ∧ ((List.range 4).map (fun k => BitVec.ofNat 16 (value.toNat / 2 ^ (16 * k)))).Nodup)
    ∧ (∃ (s : State) (line : BitVec 50) (agent : BitVec 8) (x : Snoop), s.mod.state = .service ∧ s.coh.snoops = [x]
        ∧ x.line = line.toNat ∧ x.agent = agent.toNat ∧ x.heldTo = none ∧ x.why ≠ .cancelled ∧ x.timer ≤ s.now
        ∧ (s.dom x.dom).state = .up ∧ s.req.reqs = [])
    ∧ (∃ (s : State) (line : BitVec 50) (agent : BitVec 8) (x : Snoop) (limit : FT) (p : Nat), s.alive = true
        ∧ s.coh.snoops = [x] ∧ x.line = line.toNat ∧ x.agent = agent.toNat ∧ x.heldTo = some limit ∧ limit ≤ s.now
        ∧ unitOf s.comp.run (s.agentUnit x.dom x.agent) = .port p)
    ∧ (∃ (s : State) (dom : BitVec 6), (s.dom dom.toNat).state = .flush ∧ s.alive = true ∧ (s.dom dom.toNat).windowEnd ≤ s.now
        ∧ s.req.reqs = []) :=
  ⟨⟨(coh {}).onDom 2 (fun x => { x with state := .off, enable := false }) |>.withTenant |>.asRole .operator, 9, 2,
      (0x0000000704040002#64 + (10 <<< 24) - (4 <<< 24)), by decide +kernel⟩,
   ⟨(coh {}).onDom 2 (fun x => { x with state := .down }) |>.withTenant |>.asRole .operator, 9, 2,
       (0x0000000704040002#64 + (10 <<< 24) - (4 <<< 24)), by decide +kernel⟩,
   ⟨(coh {}).onDom 2 (fun x => { x with state := .up }) |>.withTenant |>.asRole .operator, 9, 2,
       (0x0000000704040002#64 + (10 <<< 24) - (4 <<< 24)), by decide +kernel⟩,
   ⟨(coh {}).onDom 2 (fun x => { x with state := .up }) |>.withTenant |>.asRole .operator, 9, 2, by decide +kernel⟩,
   ⟨(coh {}).onDom 2 (fun x => { x with state := .down }) |>.withTenant |>.asRole .operator, 9, 2, by decide +kernel⟩,
   ⟨(coh {}).onDom 2 (fun x => { x with state := .off, members := [] }) |>.withTenant |>.asRole .operator, 9, 2, 3,
       0x0004000300020001, by decide +kernel⟩,
   ⟨((coh {}).onDom 2 (fun x => { x with flushMs := 6 }) |>.withSnoop ({ line := 1073774592 / 64, dom := 2, agent := 1, op := 0x50, why := .revoke 1, tag := 9, heldTo := none, timer := 5 }) |>.tickTo 9),
       1073774592 / 64, 1, { line := 1073774592 / 64, dom := 2, agent := 1, op := 0x50, why := .revoke 1, tag := 9, heldTo := none, timer := 5 },
       by decide +kernel⟩,
   ⟨((coh {}).onDom 2 (fun x => { x with flushMs := 6 }) |>.withSnoop ({ line := 1073774592 / 64, dom := 2, agent := 1, op := 0x50, why := .revoke 1, tag := 9, heldTo := some 8, timer := 5 }) |>.tickTo 9),
       1073774592 / 64, 1, { line := 1073774592 / 64, dom := 2, agent := 1, op := 0x50, why := .revoke 1, tag := 9, heldTo := some 8, timer := 5 },
       8, 3, by decide +kernel⟩,
   ⟨(coh { state := .o, sharers := 1, tva := some 0x4000, dom := 2 }).onDom 2 (fun x => { x with state := .flush }) |>.withSnoop ({ line := 1073774592 / 64, dom := 2, agent := 1, op := 0x50, why := .revoke 1, tag := 9, heldTo := none, timer := 5 }),
       2, by decide +kernel⟩⟩

theorem witness_AttentionHandles :
    (∃ (s : State) (e : State) (port : BitVec 8) (f : Frame) (g : Frame), f.opcode = 0x80 ∧ s.takenAs port.toNat f = some g
        ∧ e = s.entered port.toNat f ∧ requestByte f 2 = f ∧ (g.payload.headD 0).toNat = 2 ∧ e.elsewhere g = false
        ∧ e.req.reqs = [] ∧ g.handle.toNat < 2 ^ 18 ∧ g.length = 1 ∧ bindOk g.payload = true ∧ e.mod.state = .service
        ∧ e.handleUnder g g.handle.toNat = true ∧ e.tenantGone g.tenant = false ∧ (e.handle g.handle.toNat).state = .free
        ∧ e.seqUse (e.handleCfg g.handle.toNat).adm.toNat < (e.admRec (e.handleCfg g.handle.toNat).adm.toNat).resv.seq)
    ∧ (∃ (s : State) (e : State) (port : BitVec 8) (f : Frame) (g : Frame), f.opcode = 0x80 ∧ s.takenAs port.toNat f = some g
        ∧ e = s.entered port.toNat f ∧ requestByte f 3 = f ∧ (g.payload.headD 0).toNat = 3 ∧ e.elsewhere g = false
        ∧ e.req.reqs = [] ∧ g.handle.toNat < 2 ^ 18 ∧ g.length = 1 ∧ g.payload = 3 :: fill 63 0 ∧ e.mod.state = .service
        ∧ e.handleUnder g g.handle.toNat = true ∧ e.tenantGone g.tenant = false ∧ (e.handle g.handle.toNat).state = .bound
        ∧ (e.handle g.handle.toNat).tenant = g.tenant)
    ∧ (∃ (s : State) (tag : BitVec 16) (handle : BitVec 18),
        s.writes tag (atnAddr 0x010) (BitVec.ofNat 64 (2 ^ 18 + handle.toNat)) .operator
        ∧ (s.handle handle.toNat).state ≠ .free)
    ∧ (∃ (s : State) (tag : BitVec 16) (handle : BitVec 18),
        s.writes tag (atnAddr 0x010) (BitVec.ofNat 64 (2 ^ 18 + handle.toNat)) .operator
        ∧ (s.handle handle.toNat).state = .free)
    ∧ (∃ (s : State) (handle : BitVec 18), (s.handle handle.toNat).state = .releasing ∧ (s.handle handle.toNat).inflight = 0)
    ∧ (∃ (s : State) (handle : BitVec 18), (s.handle handle.toNat).state ≠ .releasing ∨ (s.handle handle.toNat).inflight ≠ 0) :=
  ⟨⟨attA id, ((attA id).entered 3 (({ opcode := 0x80, vc := 5, dst := 0x20, src := 0x30, tenant := 7, length := 1, tag := 9, handle := 40965, payload := (leBytes 1 2 ++ leBytes 1 1 ++ leBytes 2 0x40 ++ leBytes 2 1 ++ leBytes 2 1 ++ leBytes 4 1024 ++ fill 12 0 ++ leBytes 8 (2 ^ 21) ++ leBytes 4 0 ++ leBytes 2 0x20 ++ fill 2 0 ++ (List.replicate 3 [0, 0, 0, 0, 255, 255, 0, 0]).flatten) } : Frame))),
      3, ({ opcode := 0x80, vc := 5, dst := 0x20, src := 0x30, tenant := 7, length := 1, tag := 9, handle := 40965, payload := (leBytes 1 2 ++ leBytes 1 1 ++ leBytes 2 0x40 ++ leBytes 2 1 ++ leBytes 2 1 ++ leBytes 4 1024 ++ fill 12 0 ++ leBytes 8 (2 ^ 21) ++ leBytes 4 0 ++ leBytes 2 0x20 ++ fill 2 0 ++ (List.replicate 3 [0, 0, 0, 0, 255, 255, 0, 0]).flatten) } : Frame),
      ((attA id).takenAs 3 (({ opcode := 0x80, vc := 5, dst := 0x20, src := 0x30, tenant := 7, length := 1, tag := 9, handle := 40965, payload := (leBytes 1 2 ++ leBytes 1 1 ++ leBytes 2 0x40 ++ leBytes 2 1 ++ leBytes 2 1 ++ leBytes 4 1024 ++ fill 12 0 ++ leBytes 8 (2 ^ 21) ++ leBytes 4 0 ++ leBytes 2 0x20 ++ fill 2 0 ++ (List.replicate 3 [0, 0, 0, 0, 255, 255, 0, 0]).flatten) } : Frame))).getD {},
      by decide +kernel⟩,
   ⟨attA (fun h => { h with state := .bound, fmt := 1, d := 64, l := 1, h := 1, maxTok := 1024, tenant := 7, base := 2 ^ 21, adm := 4, segs := [(0, 0x20)] }),
       ((attA (fun h => { h with state := .bound, fmt := 1, d := 64, l := 1, h := 1, maxTok := 1024, tenant := 7, base := 2 ^ 21, adm := 4, segs := [(0, 0x20)] })).entered 3 (({ opcode := 0x80, vc := 5, dst := 0x20, src := 0x30, tenant := 7, length := 1, tag := 9, handle := 40965, payload := 3 :: fill 63 0 } : Frame))),
       3, ({ opcode := 0x80, vc := 5, dst := 0x20, src := 0x30, tenant := 7, length := 1, tag := 9, handle := 40965, payload := 3 :: fill 63 0 } : Frame),
       ((attA (fun h => { h with state := .bound, fmt := 1, d := 64, l := 1, h := 1, maxTok := 1024, tenant := 7, base := 2 ^ 21, adm := 4, segs := [(0, 0x20)] })).takenAs 3 (({ opcode := 0x80, vc := 5, dst := 0x20, src := 0x30, tenant := 7, length := 1, tag := 9, handle := 40965, payload := 3 :: fill 63 0 } : Frame))).getD {},
       by decide +kernel⟩,
   ⟨(att (fun h => { h with state := .bound })).asRole .operator, 9, 40965, by decide +kernel⟩,
   ⟨(att id).asRole .operator, 9, 40965, by decide +kernel⟩,
   ⟨att (fun h => { h with state := .releasing }), 40965, by decide +kernel⟩,
   ⟨att id, 40965, by decide +kernel⟩⟩

theorem witness_Decodes :
    (∃ (s : State) (e : State) (port : BitVec 8) (f : Frame) (g : Frame), f.opcode = 0x80 ∧ s.takenAs port.toNat f = some g
        ∧ e = s.entered port.toNat f ∧ (g.payload.headD 0).toNat = 1 ∧ e.elsewhere g = false ∧ e.req.reqs = []
        ∧ g.handle.toNat < 2 ^ 18 ∧ e.mod.state = .service ∧ e.handleUnder g g.handle.toNat = true
        ∧ e.tenantGone g.tenant = false ∧ (e.handle g.handle.toNat).state = .bound
        ∧ (e.handle g.handle.toNat).tenant = g.tenant ∧ decodeOk g (some (e.handle g.handle.toNat).d) = true
        ∧ field g.payload 2 2 < (e.handle g.handle.toNat).l
        ∧ field g.payload 4 1 + field g.payload 5 1 ≤ (e.handle g.handle.toNat).h
        ∧ field g.payload 8 4 ≤ (e.handle g.handle.toNat).maxTok ∧ e.handleEngines g.handle.toNat = true
        ∧ (∀ x ∈ segParts (attended (field g.payload 8 4) (e.handle g.handle.toNat).win (e.handle g.handle.toNat).sink) (e.handle g.handle.toNat).maxTok (e.handle g.handle.toNat).segs,
        x.2 = [] ∨ e.unitHere x.1 = true))
    ∧ (∃ (s : State) (e : State) (port : BitVec 8) (f : Frame) (g : Frame) (u : BitVec 16) (toks : List (Nat × Nat)) (p : Nat) (tg : BitVec 13),
        f.opcode = 0x80 ∧ s.takenAs port.toNat f = some g ∧ e = s.entered port.toNat f ∧ (g.payload.headD 0).toNat = 1
        ∧ e.elsewhere g = false ∧ e.req.reqs = [] ∧ g.handle.toNat < 2 ^ 18 ∧ e.mod.state = .service
        ∧ e.handleUnder g g.handle.toNat = true ∧ e.tenantGone g.tenant = false ∧ (e.handle g.handle.toNat).state = .bound
        ∧ (e.handle g.handle.toNat).tenant = g.tenant ∧ decodeOk g (some (e.handle g.handle.toNat).d) = true
        ∧ field g.payload 2 2 < (e.handle g.handle.toNat).l
        ∧ field g.payload 4 1 + field g.payload 5 1 ≤ (e.handle g.handle.toNat).h
        ∧ field g.payload 8 4 ≤ (e.handle g.handle.toNat).maxTok ∧ e.handleEngines g.handle.toNat = true
        ∧ bit (field g.payload 1 1) 2 = false
        ∧ segParts (attended (field g.payload 8 4) (e.handle g.handle.toNat).win (e.handle g.handle.toNat).sink) (e.handle g.handle.toNat).maxTok (e.handle g.handle.toNat).segs = [(u,
        toks)] ∧ e.unitHere u = false ∧ e.unitAway u = some p ∧ (e.link (e.base p)).dead = false ∧ toks ≠ []
        ∧ e.freeTag (e.base p) = some tg)
    ∧ (∃ (s : State) (e : State) (port : BitVec 8) (f : Frame) (g : Frame), f.opcode = 0x82 ∧ s.takenAs port.toNat f = some g
        ∧ e = s.entered port.toNat f ∧ e.elsewhere g = false ∧ g.handle.toNat < 2 ^ 18 ∧ e.mod.state = .service
        ∧ e.handleUnder g g.handle.toNat = true ∧ e.tenantGone g.tenant = false ∧ subOk g = true
        ∧ (e.handlePv g.handle.toNat).isSome = true ∧ serviceCluster e.comp.run (g.handle.toNat / 2048) = true
        ∧ e.handleEngines g.handle.toNat = true)
    ∧ (∃ (s : State) (e : State) (port : BitVec 8) (f : Frame) (g : Frame) (r : Req) (q : Nat), f.opcode = 0x81
        ∧ s.takenAs port.toNat f = some g ∧ e = s.entered port.toNat f ∧ e.req.reqs = [r]
        ∧ r.stage = .remote (s.base port.toNat) ∧ r.origin = .port q ∧ r.frame.src = g.dst ∧ r.frame.tag = g.tag
        ∧ g.status = stOk ∧ g.addr = 0 ∧ g.has flCmpr = false ∧ r.leaf = none)
    ∧ (∃ (s : State) (e : State) (port : BitVec 8) (f : Frame) (g : Frame) (x : Decode) (y : SubReq), f.opcode = 0x83
        ∧ s.takenAs port.toNat f = some g ∧ e = s.entered port.toNat f ∧ g.dst = e.selfUnit ∧ e.atn.decodes = [x]
        ∧ x.subs = [y] ∧ y.port = (s.base port.toNat) ∧ y.tag = g.tag ∧ y.finished = false ∧ y.held = none
        ∧ g.has flCeEcho = false ∧ g.addr ≠ 0)
    ∧ (∃ (s : State) (e : State) (port : BitVec 8) (f : Frame) (g : Frame) (x : Decode) (y : SubReq), f.opcode = 0x83
        ∧ s.takenAs port.toNat f = some g ∧ e = s.entered port.toNat f ∧ g.dst = e.selfUnit ∧ e.atn.decodes = [x]
        ∧ x.subs = [y] ∧ y.port = (s.base port.toNat) ∧ y.tag = g.tag ∧ y.finished = false ∧ y.held = none
        ∧ g.has flCeEcho = false ∧ g.addr = 0 ∧ g.status = stOk ∧ e.noneHeld = true)
    ∧ (∃ (s : State) (decode : Nat) (split : Nat) (x : Decode) (y : Split), s.alive = true ∧ s.atn.decodes = [x] ∧ x.id = decode
        ∧ x.splits[split]? = some y ∧ y.finished = false ∧ (∀ l, Table.read false x.asked l = false) ∧ x.probing = []
        ∧ x.final = stOk)
    ∧ (∃ (s : State) (decode : Nat) (b : Nat) (x : Decode), s.alive = true ∧ s.atn.decodes = [x] ∧ x.id = decode
        ∧ x.settled = true ∧ x.outLeft = 0 ∧ x.ended = none ∧ x.final = stOk ∧ x.isSub = false ∧ x.ask.outPool = false
        ∧ x.origin = .port b ∧ x.frame.opcode = 0x80 ∧ x.frame.has flCe = false) :=
  ⟨⟨attA (fun h => { h with state := .bound, fmt := 1, d := 64, l := 1, h := 1, maxTok := 1024, tenant := 7, base := 2 ^ 21, adm := 4, segs := [(0, 0x20)] }),
      ((attA (fun h => { h with state := .bound, fmt := 1, d := 64, l := 1, h := 1, maxTok := 1024, tenant := 7, base := 2 ^ 21, adm := 4, segs := [(0, 0x20)] })).entered 3 (({ opcode := 0x80, vc := 5, dst := 0x20, src := 0x30, tenant := 7, length := 3, tag := 9, handle := 40965, payload := (leBytes 1 1 ++ leBytes 1 0 ++ leBytes 2 0 ++ leBytes 1 0 ++ leBytes 1 1 ++ leBytes 1 1 ++ [0] ++ leBytes 4 100 ++ leBytes 4 0x3F800000 ++ fill 48 0 ++ fill 128 1) } : Frame))),
      3, ({ opcode := 0x80, vc := 5, dst := 0x20, src := 0x30, tenant := 7, length := 3, tag := 9, handle := 40965, payload := (leBytes 1 1 ++ leBytes 1 0 ++ leBytes 2 0 ++ leBytes 1 0 ++ leBytes 1 1 ++ leBytes 1 1 ++ [0] ++ leBytes 4 100 ++ leBytes 4 0x3F800000 ++ fill 48 0 ++ fill 128 1) } : Frame),
      ((attA (fun h => { h with state := .bound, fmt := 1, d := 64, l := 1, h := 1, maxTok := 1024, tenant := 7, base := 2 ^ 21, adm := 4, segs := [(0, 0x20)] })).takenAs 3 (({ opcode := 0x80, vc := 5, dst := 0x20, src := 0x30, tenant := 7, length := 3, tag := 9, handle := 40965, payload := (leBytes 1 1 ++ leBytes 1 0 ++ leBytes 2 0 ++ leBytes 1 0 ++ leBytes 1 1 ++ leBytes 1 1 ++ [0] ++ leBytes 4 100 ++ leBytes 4 0x3F800000 ++ fill 48 0 ++ fill 128 1) } : Frame))).getD {},
      by decide +kernel⟩,
   ⟨(attA (fun h => { h with state := .bound, fmt := 1, d := 64, l := 1, h := 1, maxTok := 1024, tenant := 7, base := 2 ^ 21, adm := 4, segs := [(0, 0x40)] })).awayTo 0x40 4,
       (((attA (fun h => { h with state := .bound, fmt := 1, d := 64, l := 1, h := 1, maxTok := 1024, tenant := 7, base := 2 ^ 21, adm := 4, segs := [(0, 0x40)] })).awayTo 0x40 4).entered 3 (({ opcode := 0x80, vc := 5, dst := 0x20, src := 0x30, tenant := 7, length := 3, tag := 9, handle := 40965, payload := (leBytes 1 1 ++ leBytes 1 0 ++ leBytes 2 0 ++ leBytes 1 0 ++ leBytes 1 1 ++ leBytes 1 1 ++ [0] ++ leBytes 4 100 ++ leBytes 4 0x3F800000 ++ fill 48 0 ++ fill 128 1) } : Frame))),
       3, ({ opcode := 0x80, vc := 5, dst := 0x20, src := 0x30, tenant := 7, length := 3, tag := 9, handle := 40965, payload := (leBytes 1 1 ++ leBytes 1 0 ++ leBytes 2 0 ++ leBytes 1 0 ++ leBytes 1 1 ++ leBytes 1 1 ++ [0] ++ leBytes 4 100 ++ leBytes 4 0x3F800000 ++ fill 48 0 ++ fill 128 1) } : Frame),
       (((attA (fun h => { h with state := .bound, fmt := 1, d := 64, l := 1, h := 1, maxTok := 1024, tenant := 7, base := 2 ^ 21, adm := 4, segs := [(0, 0x40)] })).awayTo 0x40 4).takenAs 3 (({ opcode := 0x80, vc := 5, dst := 0x20, src := 0x30, tenant := 7, length := 3, tag := 9, handle := 40965, payload := (leBytes 1 1 ++ leBytes 1 0 ++ leBytes 2 0 ++ leBytes 1 0 ++ leBytes 1 1 ++ leBytes 1 1 ++ [0] ++ leBytes 4 100 ++ leBytes 4 0x3F800000 ++ fill 48 0 ++ fill 128 1) } : Frame))).getD {},
       0x40, [(0, 100)], 4, 0, by decide +kernel⟩,
   ⟨subState, (checks subLink 3 subPlain).1, 3, subFrame, subPlain, by decide +kernel, subTaken, subEntered, by decide +kernel,
       by decide +kernel, by decide +kernel, by decide +kernel, by decide +kernel, by decide +kernel, by decide +kernel,
       by decide +kernel, by decide +kernel⟩,
   ⟨(({ imgA with req := { (imgA).req with reqs := [{ n := 4, origin := .port 4, frame := { src := 0x31, tag := 9 }, stage := .remote 3 }] } } : State)),
       (((({ imgA with req := { (imgA).req with reqs := [{ n := 4, origin := .port 4, frame := { src := 0x31, tag := 9 }, stage := .remote 3 }] } } : State))).entered 3 ({ opcode := 0x81, vc := 4, dst := 0x31, src := 0x30, tenant := 7, length := 1, tag := 9, payload := fill 64 1 })),
       3, { opcode := 0x81, vc := 4, dst := 0x31, src := 0x30, tenant := 7, length := 1, tag := 9, payload := fill 64 1 },
       (((({ imgA with req := { (imgA).req with reqs := [{ n := 4, origin := .port 4, frame := { src := 0x31, tag := 9 }, stage := .remote 3 }] } } : State))).takenAs 3 ({ opcode := 0x81, vc := 4, dst := 0x31, src := 0x30, tenant := 7, length := 1, tag := 9, payload := fill 64 1 })).getD {},
       { n := 4, origin := .port 4, frame := { src := 0x31, tag := 9 }, stage := .remote 3 }, 4, by decide +kernel⟩,
   ⟨(({ att (fun h => { h with state := .bound, inflight := 1 }) with atn := { (att (fun h => { h with state := .bound, inflight := 1 })).atn with decodes := [({ id := 6, origin := .port 3, frame := { opcode := 0x80, src := 0x30, dst := 0x20, tenant := 7, tag := 9, handle := 40965, length := 3, payload := (leBytes 1 1 ++ leBytes 1 0 ++ leBytes 2 0 ++ leBytes 1 0 ++ leBytes 1 1 ++ leBytes 1 1 ++ [0] ++ leBytes 4 100 ++ leBytes 4 0x3F800000 ++ fill 48 0 ++ fill 128 1) }, handle := 40965, isSub := false, fmt := 1, d := 64, h := 1, tp := 64, gb := 1, base := 2 ^ 21, toks := [(0, 2)], splits := [], subs := [({ unit := 0x40, port := 3, tag := 9, firstTok := 0, timer := 5 } : SubReq)] } : Decode)] } } : State)).onLink 3 (fun l => { l with cls := 2 }),
       (((({ att (fun h => { h with state := .bound, inflight := 1 }) with atn := { (att (fun h => { h with state := .bound, inflight := 1 })).atn with decodes := [({ id := 6, origin := .port 3, frame := { opcode := 0x80, src := 0x30, dst := 0x20, tenant := 7, tag := 9, handle := 40965, length := 3, payload := (leBytes 1 1 ++ leBytes 1 0 ++ leBytes 2 0 ++ leBytes 1 0 ++ leBytes 1 1 ++ leBytes 1 1 ++ [0] ++ leBytes 4 100 ++ leBytes 4 0x3F800000 ++ fill 48 0 ++ fill 128 1) }, handle := 40965, isSub := false, fmt := 1, d := 64, h := 1, tp := 64, gb := 1, base := 2 ^ 21, toks := [(0, 2)], splits := [], subs := [({ unit := 0x40, port := 3, tag := 9, firstTok := 0, timer := 5 } : SubReq)] } : Decode)] } } : State)).onLink 3 (fun l => { l with cls := 2 })).entered 3 (({ opcode := 0x83, vc := 4, dst := 0xFFFF, src := 0x30, tenant := 7, length := 1, tag := 9, handle := 40965, addr := 64, payload := fill 64 1 } : Frame))),
       3, ({ opcode := 0x83, vc := 4, dst := 0xFFFF, src := 0x30, tenant := 7, length := 1, tag := 9, handle := 40965, addr := 64, payload := fill 64 1 } : Frame),
       (((({ att (fun h => { h with state := .bound, inflight := 1 }) with atn := { (att (fun h => { h with state := .bound, inflight := 1 })).atn with decodes := [({ id := 6, origin := .port 3, frame := { opcode := 0x80, src := 0x30, dst := 0x20, tenant := 7, tag := 9, handle := 40965, length := 3, payload := (leBytes 1 1 ++ leBytes 1 0 ++ leBytes 2 0 ++ leBytes 1 0 ++ leBytes 1 1 ++ leBytes 1 1 ++ [0] ++ leBytes 4 100 ++ leBytes 4 0x3F800000 ++ fill 48 0 ++ fill 128 1) }, handle := 40965, isSub := false, fmt := 1, d := 64, h := 1, tp := 64, gb := 1, base := 2 ^ 21, toks := [(0, 2)], splits := [], subs := [({ unit := 0x40, port := 3, tag := 9, firstTok := 0, timer := 5 } : SubReq)] } : Decode)] } } : State)).onLink 3 (fun l => { l with cls := 2 })).takenAs 3 (({ opcode := 0x83, vc := 4, dst := 0xFFFF, src := 0x30, tenant := 7, length := 1, tag := 9, handle := 40965, addr := 64, payload := fill 64 1 } : Frame))).getD {},
       ({ id := 6, origin := .port 3, frame := { opcode := 0x80, src := 0x30, dst := 0x20, tenant := 7, tag := 9, handle := 40965, length := 3, payload := (leBytes 1 1 ++ leBytes 1 0 ++ leBytes 2 0 ++ leBytes 1 0 ++ leBytes 1 1 ++ leBytes 1 1 ++ [0] ++ leBytes 4 100 ++ leBytes 4 0x3F800000 ++ fill 48 0 ++ fill 128 1) }, handle := 40965, isSub := false, fmt := 1, d := 64, h := 1, tp := 64, gb := 1, base := 2 ^ 21, toks := [(0, 2)], splits := [], subs := [({ unit := 0x40, port := 3, tag := 9, firstTok := 0, timer := 5 } : SubReq)] } : Decode),
       ({ unit := 0x40, port := 3, tag := 9, firstTok := 0, timer := 5 } : SubReq), by decide +kernel, rfl, rfl,
       by decide +kernel, by decide +kernel, by decide +kernel, by decide +kernel, by decide +kernel, by decide +kernel,
       by decide +kernel, by decide +kernel, by decide +kernel⟩,
   ⟨(({ att (fun h => { h with state := .bound, inflight := 1 }) with atn := { (att (fun h => { h with state := .bound, inflight := 1 })).atn with decodes := [({ id := 6, origin := .port 3, frame := { opcode := 0x80, src := 0x30, dst := 0x20, tenant := 7, tag := 9, handle := 40965, length := 3, payload := (leBytes 1 1 ++ leBytes 1 0 ++ leBytes 2 0 ++ leBytes 1 0 ++ leBytes 1 1 ++ leBytes 1 1 ++ [0] ++ leBytes 4 100 ++ leBytes 4 0x3F800000 ++ fill 48 0 ++ fill 128 1) }, handle := 40965, isSub := false, fmt := 1, d := 64, h := 1, tp := 64, gb := 1, base := 2 ^ 21, toks := [(0, 2)], splits := [], subs := [({ unit := 0x40, port := 3, tag := 9, firstTok := 0, timer := 5 } : SubReq)] } : Decode)] } } : State)).onLink 3 (fun l => { l with cls := 2 }),
       (((({ att (fun h => { h with state := .bound, inflight := 1 }) with atn := { (att (fun h => { h with state := .bound, inflight := 1 })).atn with decodes := [({ id := 6, origin := .port 3, frame := { opcode := 0x80, src := 0x30, dst := 0x20, tenant := 7, tag := 9, handle := 40965, length := 3, payload := (leBytes 1 1 ++ leBytes 1 0 ++ leBytes 2 0 ++ leBytes 1 0 ++ leBytes 1 1 ++ leBytes 1 1 ++ [0] ++ leBytes 4 100 ++ leBytes 4 0x3F800000 ++ fill 48 0 ++ fill 128 1) }, handle := 40965, isSub := false, fmt := 1, d := 64, h := 1, tp := 64, gb := 1, base := 2 ^ 21, toks := [(0, 2)], splits := [], subs := [({ unit := 0x40, port := 3, tag := 9, firstTok := 0, timer := 5 } : SubReq)] } : Decode)] } } : State)).onLink 3 (fun l => { l with cls := 2 })).entered 3 (({ opcode := 0x83, vc := 4, dst := 0xFFFF, src := 0x30, tenant := 7, length := 1, tag := 9, handle := 40965, payload := fill 64 1 } : Frame))),
       3, ({ opcode := 0x83, vc := 4, dst := 0xFFFF, src := 0x30, tenant := 7, length := 1, tag := 9, handle := 40965, payload := fill 64 1 } : Frame),
       (((({ att (fun h => { h with state := .bound, inflight := 1 }) with atn := { (att (fun h => { h with state := .bound, inflight := 1 })).atn with decodes := [({ id := 6, origin := .port 3, frame := { opcode := 0x80, src := 0x30, dst := 0x20, tenant := 7, tag := 9, handle := 40965, length := 3, payload := (leBytes 1 1 ++ leBytes 1 0 ++ leBytes 2 0 ++ leBytes 1 0 ++ leBytes 1 1 ++ leBytes 1 1 ++ [0] ++ leBytes 4 100 ++ leBytes 4 0x3F800000 ++ fill 48 0 ++ fill 128 1) }, handle := 40965, isSub := false, fmt := 1, d := 64, h := 1, tp := 64, gb := 1, base := 2 ^ 21, toks := [(0, 2)], splits := [], subs := [({ unit := 0x40, port := 3, tag := 9, firstTok := 0, timer := 5 } : SubReq)] } : Decode)] } } : State)).onLink 3 (fun l => { l with cls := 2 })).takenAs 3 (({ opcode := 0x83, vc := 4, dst := 0xFFFF, src := 0x30, tenant := 7, length := 1, tag := 9, handle := 40965, payload := fill 64 1 } : Frame))).getD {},
       ({ id := 6, origin := .port 3, frame := { opcode := 0x80, src := 0x30, dst := 0x20, tenant := 7, tag := 9, handle := 40965, length := 3, payload := (leBytes 1 1 ++ leBytes 1 0 ++ leBytes 2 0 ++ leBytes 1 0 ++ leBytes 1 1 ++ leBytes 1 1 ++ [0] ++ leBytes 4 100 ++ leBytes 4 0x3F800000 ++ fill 48 0 ++ fill 128 1) }, handle := 40965, isSub := false, fmt := 1, d := 64, h := 1, tp := 64, gb := 1, base := 2 ^ 21, toks := [(0, 2)], splits := [], subs := [({ unit := 0x40, port := 3, tag := 9, firstTok := 0, timer := 5 } : SubReq)] } : Decode),
       ({ unit := 0x40, port := 3, tag := 9, firstTok := 0, timer := 5 } : SubReq), by decide +kernel, rfl, rfl,
       by decide +kernel, by decide +kernel, by decide +kernel, by decide +kernel, by decide +kernel, by decide +kernel,
       by decide +kernel, by decide +kernel, by decide +kernel, by decide +kernel, by decide +kernel⟩,
   ⟨(({ att (fun h => { h with state := .bound, inflight := 1 }) with atn := { (att (fun h => { h with state := .bound, inflight := 1 })).atn with decodes := [({ id := 6, origin := .port 3, frame := { opcode := 0x80, src := 0x30, dst := 0x20, tenant := 7, tag := 9, handle := 40965, length := 3, payload := (leBytes 1 1 ++ leBytes 1 0 ++ leBytes 2 0 ++ leBytes 1 0 ++ leBytes 1 1 ++ leBytes 1 1 ++ [0] ++ leBytes 4 100 ++ leBytes 4 0x3F800000 ++ fill 48 0 ++ fill 128 1) }, handle := 40965, isSub := false, fmt := 1, d := 64, h := 1, tp := 64, gb := 1, base := 2 ^ 21, toks := [(0, 2)], splits := [{ lo := 0, hi := 2 }], subs := [] } : Decode)] } } : State)),
       6, 0, ({ id := 6, origin := .port 3, frame := { opcode := 0x80, src := 0x30, dst := 0x20, tenant := 7, tag := 9, handle := 40965, length := 3, payload := (leBytes 1 1 ++ leBytes 1 0 ++ leBytes 2 0 ++ leBytes 1 0 ++ leBytes 1 1 ++ leBytes 1 1 ++ [0] ++ leBytes 4 100 ++ leBytes 4 0x3F800000 ++ fill 48 0 ++ fill 128 1) }, handle := 40965, isSub := false, fmt := 1, d := 64, h := 1, tp := 64, gb := 1, base := 2 ^ 21, toks := [(0, 2)], splits := [{ lo := 0, hi := 2 }], subs := [] } : Decode),
       { lo := 0, hi := 2 }, by decide +kernel, by decide +kernel, by decide +kernel, by decide +kernel, by decide +kernel,
       fun _ => rfl, by decide +kernel, by decide +kernel⟩,
   ⟨(({ att (fun h => { h with state := .bound, inflight := 1 }) with atn := { (att (fun h => { h with state := .bound, inflight := 1 })).atn with decodes := [({ id := 6, origin := .port 3, frame := { opcode := 0x80, src := 0x30, dst := 0x20, tenant := 7, tag := 9, handle := 40965, length := 3, payload := (leBytes 1 1 ++ leBytes 1 0 ++ leBytes 2 0 ++ leBytes 1 0 ++ leBytes 1 1 ++ leBytes 1 1 ++ [0] ++ leBytes 4 100 ++ leBytes 4 0x3F800000 ++ fill 48 0 ++ fill 128 1) }, handle := 40965, isSub := false, fmt := 1, d := 64, h := 1, tp := 64, gb := 1, base := 2 ^ 21, toks := [(0, 2)], splits := [{ lo := 0, hi := 2, finished := true }], subs := [] } : Decode)] } } : State)),
       6, 3, ({ id := 6, origin := .port 3, frame := { opcode := 0x80, src := 0x30, dst := 0x20, tenant := 7, tag := 9, handle := 40965, length := 3, payload := (leBytes 1 1 ++ leBytes 1 0 ++ leBytes 2 0 ++ leBytes 1 0 ++ leBytes 1 1 ++ leBytes 1 1 ++ [0] ++ leBytes 4 100 ++ leBytes 4 0x3F800000 ++ fill 48 0 ++ fill 128 1) }, handle := 40965, isSub := false, fmt := 1, d := 64, h := 1, tp := 64, gb := 1, base := 2 ^ 21, toks := [(0, 2)], splits := [{ lo := 0, hi := 2, finished := true }], subs := [] } : Decode),
       by decide +kernel⟩⟩

theorem witness_CollectivesAtTheirPorts :
    (∃ (s : State) (e : State) (port : BitVec 8) (f : Frame) (g : Frame) (who : Nat) (top : Nat), f.opcode = 0x78
        ∧ s.takenAs port.toNat f = some g ∧ e = s.entered port.toNat f ∧ e.elsewhere g = false ∧ e.req.reqs = []
        ∧ e.req.held = [] ∧ e.collWho g.collId (.port (s.base port.toNat)) g = some who
        ∧ ((e.coll g.collId).state = .idle ∨ (e.coll g.collId).state = .aborted) ∧ g.tenant = (e.collGroup g.collId).tenant
        ∧ e.mod.state = .service ∧ dstPavilion (e.tables g.epoch) g.dst = some top
        ∧ inSubtree e.comp.run top (e.admRec (e.coll g.collId).adm.toNat).pv.toNat = true
        ∧ descOk (e.collN g.collId) (e.linkRows g.collId who (Desc.of g.payload)) g.payload = true
        ∧ (Desc.of g.payload).timed = false ∧ (Desc.of g.payload).isGated = false ∧ (Desc.of g.payload).op ≠ 0x11
        ∧ e.collEngines g.collId (Desc.of g.payload) = true
        ∧ ((e.coll g.collId).hasParent = false ∨ (e.freeTag (e.base (e.coll g.collId).parentPort.toNat)).isSome = true)
        ∧ 1 ≤ (g.collGen + 4096 - (e.coll g.collId).gen.toNat) % 4096
        ∧ (g.collGen + 4096 - (e.coll g.collId).gen.toNat) % 4096 ≤ 2047
        ∧ e.collUse (e.coll g.collId).adm.toNat < (e.admRec (e.coll g.collId).adm.toNat).resv.coll
        ∧ 1 ≤ (({ e with req := { e.req with nextN := e.req.nextN + 1 } } : State).setColl g.collId ((e.coll g.collId).begun (BitVec.ofNat 12 g.collGen) g.payload)).window g.collId)
    ∧ (∃ (s : State) (e : State) (port : BitVec 8) (f : Frame) (g : Frame) (who : Nat) (top : Nat), f.opcode = 0x78
        ∧ s.takenAs port.toNat f = some g ∧ e = s.entered port.toNat f ∧ e.elsewhere g = false ∧ e.req.reqs = []
        ∧ e.req.held = [] ∧ e.collWho g.collId (.port (s.base port.toNat)) g = some who
        ∧ ((e.coll g.collId).state = .idle ∨ (e.coll g.collId).state = .aborted) ∧ g.tenant = (e.collGroup g.collId).tenant
        ∧ e.mod.state = .service ∧ dstPavilion (e.tables g.epoch) g.dst = some top
        ∧ inSubtree e.comp.run top (e.admRec (e.coll g.collId).adm.toNat).pv.toNat = true
        ∧ descOk (e.collN g.collId) (e.linkRows g.collId who (Desc.of g.payload)) g.payload = true
        ∧ (Desc.of g.payload).timed = false ∧ (Desc.of g.payload).isGated = false ∧ (Desc.of g.payload).op ≠ 0x11
        ∧ e.collEngines g.collId (Desc.of g.payload) = true
        ∧ ((e.coll g.collId).hasParent = false ∨ (e.freeTag (e.base (e.coll g.collId).parentPort.toNat)).isSome = true)
        ∧ 1 ≤ (g.collGen + 4096 - (e.coll g.collId).gen.toNat) % 4096
        ∧ (g.collGen + 4096 - (e.coll g.collId).gen.toNat) % 4096 ≤ 2047
        ∧ e.collUse (e.coll g.collId).adm.toNat < (e.admRec (e.coll g.collId).adm.toNat).resv.coll
        ∧ 1 ≤ (({ e with req := { e.req with nextN := e.req.nextN + 1 } } : State).setColl g.collId ((e.coll g.collId).begun (BitVec.ofNat 12 g.collGen) g.payload)).window g.collId
        ∧ (e.coll g.collId).hasParent = false ∧ (Desc.of g.payload).reducing = true
        ∧ (∀ r, r < e.collN g.collId → (e.memberOf g.collId r).dead = false) ∧ who < 256
        ∧ (∃ w ∈ ({ e with req := { e.req with nextN := e.req.nextN + 1 } } : State).contributors g.collId, w ≠ who))
    ∧ (∃ (s : State) (e : State) (port : BitVec 8) (f : Frame) (g : Frame) (who : Nat) (top : Nat), f.opcode = 0x78
        ∧ s.takenAs port.toNat f = some g ∧ e = s.entered port.toNat f ∧ e.elsewhere g = false ∧ e.req.reqs = []
        ∧ e.req.held = [] ∧ e.collWho g.collId (.port (s.base port.toNat)) g = some who ∧ (e.coll g.collId).state = .opened
        ∧ g.collGen = (e.coll g.collId).gen.toNat ∧ (e.coll g.collId).part who = none
        ∧ g.tenant = (e.collGroup g.collId).tenant ∧ e.mod.state = .service ∧ dstPavilion (e.tables g.epoch) g.dst = some top
        ∧ inSubtree e.comp.run top (e.admRec (e.coll g.collId).adm.toNat).pv.toNat = true
        ∧ descOk (e.collN g.collId) (e.linkRows g.collId who (Desc.of g.payload)) g.payload = true
        ∧ (Desc.of g.payload).timed = false ∧ (Desc.of g.payload).isGated = false ∧ (Desc.of g.payload).op ≠ 0x11
        ∧ e.collEngines g.collId (Desc.of g.payload) = true)
    ∧ (∃ (s : State) (e : State) (port : BitVec 8) (f : Frame) (g : Frame) (who : Nat) (p : Contributor), f.opcode = 0x70
        ∧ s.takenAs port.toNat f = some g ∧ e = s.entered port.toNat f ∧ e.elsewhere g = false
        ∧ e.collReached g.collId g = true ∧ (e.coll g.collId).state = .opened ∧ g.collGen = (e.coll g.collId).gen.toNat
        ∧ e.collWho g.collId (.port (s.base port.toNat)) g = some who ∧ (e.coll g.collId).part who = some p
        ∧ g.has flCmpr = false ∧ 1 ≤ g.payload.length ∧ g.addr.toNat % 64 = 0
        ∧ g.addr.toNat / 65536 = (g.addr.toNat + g.payload.length - 1) / 65536
        ∧ g.addr.toNat + g.payload.length ≤ min p.granted p.total ∧ who < 256
        ∧ (∀ u, u < g.payload.length / 64 → Table.read false (e.coll g.collId).got (who * 2 ^ 28 + g.addr.toNat / 64 + u) = false))
    ∧ (∃ (s : State) (e : State) (port : BitVec 8) (f : Frame) (g : Frame) (who : Nat) (p : Contributor), f.opcode = 0x70
        ∧ s.takenAs port.toNat f = some g ∧ e = s.entered port.toNat f ∧ e.elsewhere g = false
        ∧ e.collReached g.collId g = true ∧ (e.coll g.collId).state = .opened ∧ g.collGen = (e.coll g.collId).gen.toNat
        ∧ e.collWho g.collId (.port (s.base port.toNat)) g = some who ∧ (e.coll g.collId).part who = some p
        ∧ g.has flCmpr = false ∧ 1 ≤ g.payload.length ∧ g.addr.toNat % 64 = 0
        ∧ g.addr.toNat / 65536 = (g.addr.toNat + g.payload.length - 1) / 65536
        ∧ min p.granted p.total < g.addr.toNat + g.payload.length ∧ (e.coll g.collId).hasParent = false)
    ∧ (∃ (s : State) (e : State) (port : BitVec 8) (f : Frame) (g : Frame), f.opcode = 0x70 ∧ s.takenAs port.toNat f = some g
        ∧ e = s.entered port.toNat f ∧ e.elsewhere g = false ∧ g.collGen ≠ (e.coll g.collId).gen.toNat)
    ∧ (∃ (s : State) (id : Nat) (who : Nat) (off : Nat) (bs : List Byte) (i : Nat), (s.coll id).d.reducing = true ∧ who < 256
        ∧ (s.coll id).d.red = 0 ∧ isIntFmt (s.coll id).d.dtype = true ∧ i < bs.length / (s.coll id).d.e)
    ∧ (∃ (s : State) (e : State) (port : BitVec 8) (f : Frame) (g : Frame), f.opcode = 0x71 ∧ s.takenAs port.toNat f = some g
        ∧ e = s.entered port.toNat f ∧ (e.coll g.collId).state = .opened ∧ g.collGen = (e.coll g.collId).gen.toNat
        ∧ (e.coll g.collId).hasParent = true ∧ e.base (e.coll g.collId).parentPort.toNat = (s.base port.toNat))
    ∧ (∃ (s : State) (e : State) (port : BitVec 8) (f : Frame) (g : Frame), f.opcode = 0x79 ∧ s.takenAs port.toNat f = some g
        ∧ e = s.entered port.toNat f ∧ (e.coll g.collId).state = .opened ∧ g.collGen = (e.coll g.collId).gen.toNat
        ∧ (e.coll g.collId).hasParent = true ∧ e.base (e.coll g.collId).parentPort.toNat = (s.base port.toNat))
    ∧ (∃ (s : State) (e : State) (port : BitVec 8) (f : Frame) (g : Frame), f.opcode = 0x7A ∧ s.takenAs port.toNat f = some g
        ∧ e = s.entered port.toNat f ∧ e.req.reqs = [] ∧ (e.coll g.collId).state = .opened
        ∧ g.collGen = (e.coll g.collId).gen.toNat ∧ (e.coll g.collId).hasParent = true
        ∧ e.base (e.coll g.collId).parentPort.toNat = (s.base port.toNat) ∧ e.noneHeld = true ∧ g.status = stOk
        ∧ (e.coll g.collId).d.op ≠ 0x11)
    ∧ (∃ (s : State) (e : State) (port : BitVec 8) (f : Frame) (g : Frame) (i : Nat) (q : Nat), f.opcode = 0x7A
        ∧ s.takenAs port.toNat f = some g ∧ e = s.entered port.toNat f ∧ e.req.reqs = [] ∧ (e.coll g.collId).state = .opened
        ∧ g.collGen = (e.coll g.collId).gen.toNat ∧ e.noneHeld = true ∧ (e.coll g.collId).hasParent = false
        ∧ (e.coll g.collId).children = [(i, q)] ∧ e.base q = (s.base port.toNat) ∧ g.status = stOk)
    ∧ (∃ (s : State) (e : State) (port : BitVec 8) (f : Frame) (g : Frame), f.opcode = 0x7F ∧ s.takenAs port.toNat f = some g
        ∧ e = s.entered port.toNat f ∧ (e.coll g.collId).state = .opened ∧ g.collGen = (e.coll g.collId).gen.toNat
        ∧ (e.coll g.collId).hasParent = true ∧ e.base (e.coll g.collId).parentPort.toNat = (s.base port.toNat)
        ∧ e.collReached g.collId g = true)
    ∧ (∃ (s : State) (e : State) (port : BitVec 8) (f : Frame) (g : Frame) (who : Nat), f.opcode = 0x7F
        ∧ s.takenAs port.toNat f = some g ∧ e = s.entered port.toNat f ∧ (e.coll g.collId).state = .opened
        ∧ g.collGen = (e.coll g.collId).gen.toNat ∧ e.collReached g.collId g = true ∧ (e.coll g.collId).hasParent = false
        ∧ e.elsewhere g = false ∧ e.collWho g.collId (.port (s.base port.toNat)) g = some who ∧ who < 256) :=
  ⟨⟨colA id, ((colA id).entered 3 (({ opcode := 0x78, vc := 5, dst := 0x20, src := 0x30, tenant := 7, length := 1, tag := 9, addr := 0, handle := 4101, payload := ([1, 0, 11, 11] ++ fill 4 0 ++ leBytes 4 32 ++ fill 52 0) } : Frame))),
      3, ({ opcode := 0x78, vc := 5, dst := 0x20, src := 0x30, tenant := 7, length := 1, tag := 9, addr := 0, handle := 4101, payload := ([1, 0, 11, 11] ++ fill 4 0 ++ leBytes 4 32 ++ fill 52 0) } : Frame),
      ((colA id).takenAs 3 (({ opcode := 0x78, vc := 5, dst := 0x20, src := 0x30, tenant := 7, length := 1, tag := 9, addr := 0, handle := 4101, payload := ([1, 0, 11, 11] ++ fill 4 0 ++ leBytes 4 32 ++ fill 52 0) } : Frame))).getD {},
      0, 2, by decide +kernel⟩,
   ⟨colA id, ((colA id).entered 3 (({ opcode := 0x78, vc := 5, dst := 0x20, src := 0x30, tenant := 7, length := 1, tag := 9, addr := 0, handle := 4101, payload := ([1, 0, 11, 11] ++ fill 4 0 ++ leBytes 4 32 ++ fill 52 0) } : Frame))),
       3, ({ opcode := 0x78, vc := 5, dst := 0x20, src := 0x30, tenant := 7, length := 1, tag := 9, addr := 0, handle := 4101, payload := ([1, 0, 11, 11] ++ fill 4 0 ++ leBytes 4 32 ++ fill 52 0) } : Frame),
       ((colA id).takenAs 3 (({ opcode := 0x78, vc := 5, dst := 0x20, src := 0x30, tenant := 7, length := 1, tag := 9, addr := 0, handle := 4101, payload := ([1, 0, 11, 11] ++ fill 4 0 ++ leBytes 4 32 ++ fill 52 0) } : Frame))).getD {},
       0, 2, by decide +kernel⟩,
   ⟨colA (fun c => { c with state := .opened, gen := 1, desc := ([1, 0, 11, 11] ++ fill 4 0 ++ leBytes 4 32 ++ fill 52 0), parts := [] }),
       ((colA (fun c => { c with state := .opened, gen := 1, desc := ([1, 0, 11, 11] ++ fill 4 0 ++ leBytes 4 32 ++ fill 52 0), parts := [] })).entered 3 (({ opcode := 0x78, vc := 5, dst := 0x20, src := 0x30, tenant := 7, length := 1, tag := 9, addr := 0, handle := 4101, payload := ([1, 0, 11, 11] ++ fill 4 0 ++ leBytes 4 32 ++ fill 52 0) } : Frame))),
       3, ({ opcode := 0x78, vc := 5, dst := 0x20, src := 0x30, tenant := 7, length := 1, tag := 9, addr := 0, handle := 4101, payload := ([1, 0, 11, 11] ++ fill 4 0 ++ leBytes 4 32 ++ fill 52 0) } : Frame),
       ((colA (fun c => { c with state := .opened, gen := 1, desc := ([1, 0, 11, 11] ++ fill 4 0 ++ leBytes 4 32 ++ fill 52 0), parts := [] })).takenAs 3 (({ opcode := 0x78, vc := 5, dst := 0x20, src := 0x30, tenant := 7, length := 1, tag := 9, addr := 0, handle := 4101, payload := ([1, 0, 11, 11] ++ fill 4 0 ++ leBytes 4 32 ++ fill 52 0) } : Frame))).getD {},
       0, 2, by decide +kernel⟩,
   ⟨colA (fun c => { c with state := .opened, gen := 1, desc := ([1, 0, 11, 11] ++ fill 4 0 ++ leBytes 4 32 ++ fill 52 0), parts := [{ who := 0, origin := .port 3, n := 2, frame := { opcode := 0x78, src := 0x30, dst := 0x20, tenant := 7, tag := 8, handle := 5 + 4096 }, granted := 64, total := 128 }] }),
       ((colA (fun c => { c with state := .opened, gen := 1, desc := ([1, 0, 11, 11] ++ fill 4 0 ++ leBytes 4 32 ++ fill 52 0), parts := [{ who := 0, origin := .port 3, n := 2, frame := { opcode := 0x78, src := 0x30, dst := 0x20, tenant := 7, tag := 8, handle := 5 + 4096 }, granted := 64, total := 128 }] })).entered 3 (({ opcode := 0x70, vc := 4, dst := 0x20, src := 0x30, tenant := 7, length := 1, tag := 9, addr := 0, handle := 4101, payload := fill 64 3 } : Frame))),
       3, ({ opcode := 0x70, vc := 4, dst := 0x20, src := 0x30, tenant := 7, length := 1, tag := 9, addr := 0, handle := 4101, payload := fill 64 3 } : Frame),
       ((colA (fun c => { c with state := .opened, gen := 1, desc := ([1, 0, 11, 11] ++ fill 4 0 ++ leBytes 4 32 ++ fill 52 0), parts := [{ who := 0, origin := .port 3, n := 2, frame := { opcode := 0x78, src := 0x30, dst := 0x20, tenant := 7, tag := 8, handle := 5 + 4096 }, granted := 64, total := 128 }] })).takenAs 3 (({ opcode := 0x70, vc := 4, dst := 0x20, src := 0x30, tenant := 7, length := 1, tag := 9, addr := 0, handle := 4101, payload := fill 64 3 } : Frame))).getD {},
       0, { who := 0, origin := .port 3, n := 2, frame := { opcode := 0x78, src := 0x30, dst := 0x20, tenant := 7, tag := 8, handle := 5 + 4096 }, granted := 64, total := 128 },
       by decide +kernel⟩,
   ⟨colA (fun c => { c with state := .opened, gen := 1, desc := ([1, 0, 11, 11] ++ fill 4 0 ++ leBytes 4 32 ++ fill 52 0), parts := [{ who := 0, origin := .port 3, n := 2, frame := { opcode := 0x78, src := 0x30, dst := 0x20, tenant := 7, tag := 8, handle := 5 + 4096 }, granted := 64, total := 128 }] }),
       ((colA (fun c => { c with state := .opened, gen := 1, desc := ([1, 0, 11, 11] ++ fill 4 0 ++ leBytes 4 32 ++ fill 52 0), parts := [{ who := 0, origin := .port 3, n := 2, frame := { opcode := 0x78, src := 0x30, dst := 0x20, tenant := 7, tag := 8, handle := 5 + 4096 }, granted := 64, total := 128 }] })).entered 3 (({ opcode := 0x70, vc := 4, dst := 0x20, src := 0x30, tenant := 7, length := 1, tag := 9, addr := 64, handle := 4101, payload := fill 64 3 } : Frame))),
       3, ({ opcode := 0x70, vc := 4, dst := 0x20, src := 0x30, tenant := 7, length := 1, tag := 9, addr := 64, handle := 4101, payload := fill 64 3 } : Frame),
       ((colA (fun c => { c with state := .opened, gen := 1, desc := ([1, 0, 11, 11] ++ fill 4 0 ++ leBytes 4 32 ++ fill 52 0), parts := [{ who := 0, origin := .port 3, n := 2, frame := { opcode := 0x78, src := 0x30, dst := 0x20, tenant := 7, tag := 8, handle := 5 + 4096 }, granted := 64, total := 128 }] })).takenAs 3 (({ opcode := 0x70, vc := 4, dst := 0x20, src := 0x30, tenant := 7, length := 1, tag := 9, addr := 64, handle := 4101, payload := fill 64 3 } : Frame))).getD {},
       0, { who := 0, origin := .port 3, n := 2, frame := { opcode := 0x78, src := 0x30, dst := 0x20, tenant := 7, tag := 8, handle := 5 + 4096 }, granted := 64, total := 128 },
       by decide +kernel⟩,
   ⟨colA (fun c => { c with state := .opened, gen := 1, desc := ([1, 0, 11, 11] ++ fill 4 0 ++ leBytes 4 32 ++ fill 52 0), parts := [{ who := 0, origin := .port 3, n := 2, frame := { opcode := 0x78, src := 0x30, dst := 0x20, tenant := 7, tag := 8, handle := 5 + 4096 }, granted := 64, total := 128 }] }),
       ((colA (fun c => { c with state := .opened, gen := 1, desc := ([1, 0, 11, 11] ++ fill 4 0 ++ leBytes 4 32 ++ fill 52 0), parts := [{ who := 0, origin := .port 3, n := 2, frame := { opcode := 0x78, src := 0x30, dst := 0x20, tenant := 7, tag := 8, handle := 5 + 4096 }, granted := 64, total := 128 }] })).entered 3 (({ opcode := 0x70, vc := 4, dst := 0x20, src := 0x30, tenant := 7, length := 1, tag := 9, addr := 0, handle := 8197, payload := fill 64 3 } : Frame))),
       3, ({ opcode := 0x70, vc := 4, dst := 0x20, src := 0x30, tenant := 7, length := 1, tag := 9, addr := 0, handle := 8197, payload := fill 64 3 } : Frame),
       ((colA (fun c => { c with state := .opened, gen := 1, desc := ([1, 0, 11, 11] ++ fill 4 0 ++ leBytes 4 32 ++ fill 52 0), parts := [{ who := 0, origin := .port 3, n := 2, frame := { opcode := 0x78, src := 0x30, dst := 0x20, tenant := 7, tag := 8, handle := 5 + 4096 }, granted := 64, total := 128 }] })).takenAs 3 (({ opcode := 0x70, vc := 4, dst := 0x20, src := 0x30, tenant := 7, length := 1, tag := 9, addr := 0, handle := 8197, payload := fill 64 3 } : Frame))).getD {},
       by decide +kernel⟩,
   ⟨colA (fun c => { c with state := .opened, gen := 1, desc := ([1, 0, 11, 11] ++ fill 4 0 ++ leBytes 4 32 ++ fill 52 0), parts := [{ who := 0, origin := .port 3, n := 2, frame := { opcode := 0x78, src := 0x30, dst := 0x20, tenant := 7, tag := 8, handle := 5 + 4096 }, granted := 64, total := 128 }] }),
       5, 0, 0, fill 64 3, 4, by decide +kernel⟩,
   ⟨(colA (fun c => { c with state := .opened, gen := 1, desc := ([1, 0, 11, 11] ++ fill 4 0 ++ leBytes 4 32 ++ fill 52 0), parts := [{ who := 0, origin := .port 3, n := 2, frame := { opcode := 0x78, src := 0x30, dst := 0x20, tenant := 7, tag := 8, handle := 5 + 4096 }, granted := 64, total := 128 }], role := 2, parentPort := 3, childV := 1, childPort := [(0, 4)] })),
       (((colA (fun c => { c with state := .opened, gen := 1, desc := ([1, 0, 11, 11] ++ fill 4 0 ++ leBytes 4 32 ++ fill 52 0), parts := [{ who := 0, origin := .port 3, n := 2, frame := { opcode := 0x78, src := 0x30, dst := 0x20, tenant := 7, tag := 8, handle := 5 + 4096 }, granted := 64, total := 128 }], role := 2, parentPort := 3, childV := 1, childPort := [(0, 4)] }))).entered 3 (({ opcode := 0x71, vc := 4, dst := 0x20, src := 0x30, tenant := 7, length := 1, tag := 9, addr := 0, handle := 4101, payload := fill 64 3 } : Frame))),
       3, ({ opcode := 0x71, vc := 4, dst := 0x20, src := 0x30, tenant := 7, length := 1, tag := 9, addr := 0, handle := 4101, payload := fill 64 3 } : Frame),
       (((colA (fun c => { c with state := .opened, gen := 1, desc := ([1, 0, 11, 11] ++ fill 4 0 ++ leBytes 4 32 ++ fill 52 0), parts := [{ who := 0, origin := .port 3, n := 2, frame := { opcode := 0x78, src := 0x30, dst := 0x20, tenant := 7, tag := 8, handle := 5 + 4096 }, granted := 64, total := 128 }], role := 2, parentPort := 3, childV := 1, childPort := [(0, 4)] }))).takenAs 3 (({ opcode := 0x71, vc := 4, dst := 0x20, src := 0x30, tenant := 7, length := 1, tag := 9, addr := 0, handle := 4101, payload := fill 64 3 } : Frame))).getD {},
       by decide +kernel⟩,
   ⟨(colA (fun c => { c with state := .opened, gen := 1, desc := ([1, 0, 11, 11] ++ fill 4 0 ++ leBytes 4 32 ++ fill 52 0), parts := [{ who := 0, origin := .port 3, n := 2, frame := { opcode := 0x78, src := 0x30, dst := 0x20, tenant := 7, tag := 8, handle := 5 + 4096 }, granted := 64, total := 128 }], role := 2, parentPort := 3, childV := 1, childPort := [(0, 4)] })),
       (((colA (fun c => { c with state := .opened, gen := 1, desc := ([1, 0, 11, 11] ++ fill 4 0 ++ leBytes 4 32 ++ fill 52 0), parts := [{ who := 0, origin := .port 3, n := 2, frame := { opcode := 0x78, src := 0x30, dst := 0x20, tenant := 7, tag := 8, handle := 5 + 4096 }, granted := 64, total := 128 }], role := 2, parentPort := 3, childV := 1, childPort := [(0, 4)] }))).entered 3 (({ opcode := 0x79, vc := 5, dst := 0x20, src := 0x30, tenant := 7, length := 1, tag := 9, addr := 0, handle := 4101, payload := fill 64 3 } : Frame))),
       3, ({ opcode := 0x79, vc := 5, dst := 0x20, src := 0x30, tenant := 7, length := 1, tag := 9, addr := 0, handle := 4101, payload := fill 64 3 } : Frame),
       (((colA (fun c => { c with state := .opened, gen := 1, desc := ([1, 0, 11, 11] ++ fill 4 0 ++ leBytes 4 32 ++ fill 52 0), parts := [{ who := 0, origin := .port 3, n := 2, frame := { opcode := 0x78, src := 0x30, dst := 0x20, tenant := 7, tag := 8, handle := 5 + 4096 }, granted := 64, total := 128 }], role := 2, parentPort := 3, childV := 1, childPort := [(0, 4)] }))).takenAs 3 (({ opcode := 0x79, vc := 5, dst := 0x20, src := 0x30, tenant := 7, length := 1, tag := 9, addr := 0, handle := 4101, payload := fill 64 3 } : Frame))).getD {},
       by decide +kernel⟩,
   ⟨(col (fun c => { c with state := .opened, gen := 1, desc := ([1, 0, 11, 11] ++ fill 4 0 ++ leBytes 4 32 ++ fill 52 0), parts := [{ who := 0, origin := .port 3, n := 2, frame := { opcode := 0x78, src := 0x30, dst := 0x20, tenant := 7, tag := 8, handle := 5 + 4096 }, granted := 64, total := 128 }], role := 2, parentPort := 3, childV := 1, childPort := [(0, 4)] })).onLink 3 (fun l => { l with cls := 2 }),
       (((col (fun c => { c with state := .opened, gen := 1, desc := ([1, 0, 11, 11] ++ fill 4 0 ++ leBytes 4 32 ++ fill 52 0), parts := [{ who := 0, origin := .port 3, n := 2, frame := { opcode := 0x78, src := 0x30, dst := 0x20, tenant := 7, tag := 8, handle := 5 + 4096 }, granted := 64, total := 128 }], role := 2, parentPort := 3, childV := 1, childPort := [(0, 4)] })).onLink 3 (fun l => { l with cls := 2 })).entered 3 (({ opcode := 0x7A, vc := 5, dst := 0x20, src := 0x30, tenant := 7, length := 0, tag := 9, addr := 0, handle := 4101, payload := [] } : Frame))),
       3, ({ opcode := 0x7A, vc := 5, dst := 0x20, src := 0x30, tenant := 7, length := 0, tag := 9, addr := 0, handle := 4101, payload := [] } : Frame),
       (((col (fun c => { c with state := .opened, gen := 1, desc := ([1, 0, 11, 11] ++ fill 4 0 ++ leBytes 4 32 ++ fill 52 0), parts := [{ who := 0, origin := .port 3, n := 2, frame := { opcode := 0x78, src := 0x30, dst := 0x20, tenant := 7, tag := 8, handle := 5 + 4096 }, granted := 64, total := 128 }], role := 2, parentPort := 3, childV := 1, childPort := [(0, 4)] })).onLink 3 (fun l => { l with cls := 2 })).takenAs 3 (({ opcode := 0x7A, vc := 5, dst := 0x20, src := 0x30, tenant := 7, length := 0, tag := 9, addr := 0, handle := 4101, payload := [] } : Frame))).getD {},
       by decide +kernel⟩,
   ⟨(col (fun c => { c with state := .opened, gen := 1, desc := ([1, 0, 11, 11] ++ fill 4 0 ++ leBytes 4 32 ++ fill 52 0), parts := [{ who := 0, origin := .port 3, n := 2, frame := { opcode := 0x78, src := 0x30, dst := 0x20, tenant := 7, tag := 8, handle := 5 + 4096 }, granted := 64, total := 128 }, { who := 256, origin := .port 3, n := 2, frame := { opcode := 0x78, src := 0x30, dst := 0x20, tenant := 7, tag := 8, handle := 5 + 4096 }, granted := 64, total := 128 }], role := 1, childV := 1, childPort := [(0, 3)] })).onLink 3 (fun l => { l with cls := 2 }),
       (((col (fun c => { c with state := .opened, gen := 1, desc := ([1, 0, 11, 11] ++ fill 4 0 ++ leBytes 4 32 ++ fill 52 0), parts := [{ who := 0, origin := .port 3, n := 2, frame := { opcode := 0x78, src := 0x30, dst := 0x20, tenant := 7, tag := 8, handle := 5 + 4096 }, granted := 64, total := 128 }, { who := 256, origin := .port 3, n := 2, frame := { opcode := 0x78, src := 0x30, dst := 0x20, tenant := 7, tag := 8, handle := 5 + 4096 }, granted := 64, total := 128 }], role := 1, childV := 1, childPort := [(0, 3)] })).onLink 3 (fun l => { l with cls := 2 })).entered 3 (({ opcode := 0x7A, vc := 5, dst := 0x20, src := 0x30, tenant := 7, length := 0, tag := 9, addr := 0, handle := 4101, payload := [] } : Frame))),
       3, ({ opcode := 0x7A, vc := 5, dst := 0x20, src := 0x30, tenant := 7, length := 0, tag := 9, addr := 0, handle := 4101, payload := [] } : Frame),
       (((col (fun c => { c with state := .opened, gen := 1, desc := ([1, 0, 11, 11] ++ fill 4 0 ++ leBytes 4 32 ++ fill 52 0), parts := [{ who := 0, origin := .port 3, n := 2, frame := { opcode := 0x78, src := 0x30, dst := 0x20, tenant := 7, tag := 8, handle := 5 + 4096 }, granted := 64, total := 128 }, { who := 256, origin := .port 3, n := 2, frame := { opcode := 0x78, src := 0x30, dst := 0x20, tenant := 7, tag := 8, handle := 5 + 4096 }, granted := 64, total := 128 }], role := 1, childV := 1, childPort := [(0, 3)] })).onLink 3 (fun l => { l with cls := 2 })).takenAs 3 (({ opcode := 0x7A, vc := 5, dst := 0x20, src := 0x30, tenant := 7, length := 0, tag := 9, addr := 0, handle := 4101, payload := [] } : Frame))).getD {},
       0, 3, by decide +kernel⟩,
   ⟨(col (fun c => { c with state := .opened, gen := 1, desc := ([1, 0, 11, 11] ++ fill 4 0 ++ leBytes 4 32 ++ fill 52 0), parts := [{ who := 0, origin := .port 3, n := 2, frame := { opcode := 0x78, src := 0x30, dst := 0x20, tenant := 7, tag := 8, handle := 5 + 4096 }, granted := 64, total := 128 }], role := 2, parentPort := 3, childV := 1, childPort := [(0, 4)] })).onLink 3 (fun l => { l with cls := 2 }),
       (((col (fun c => { c with state := .opened, gen := 1, desc := ([1, 0, 11, 11] ++ fill 4 0 ++ leBytes 4 32 ++ fill 52 0), parts := [{ who := 0, origin := .port 3, n := 2, frame := { opcode := 0x78, src := 0x30, dst := 0x20, tenant := 7, tag := 8, handle := 5 + 4096 }, granted := 64, total := 128 }], role := 2, parentPort := 3, childV := 1, childPort := [(0, 4)] })).onLink 3 (fun l => { l with cls := 2 })).entered 3 (({ opcode := 0x7F, vc := 5, dst := 0x20, src := 0x30, tenant := 7, length := 0, tag := 9, addr := 11, handle := 4101, payload := [] } : Frame))),
       3, ({ opcode := 0x7F, vc := 5, dst := 0x20, src := 0x30, tenant := 7, length := 0, tag := 9, addr := 11, handle := 4101, payload := [] } : Frame),
       (((col (fun c => { c with state := .opened, gen := 1, desc := ([1, 0, 11, 11] ++ fill 4 0 ++ leBytes 4 32 ++ fill 52 0), parts := [{ who := 0, origin := .port 3, n := 2, frame := { opcode := 0x78, src := 0x30, dst := 0x20, tenant := 7, tag := 8, handle := 5 + 4096 }, granted := 64, total := 128 }], role := 2, parentPort := 3, childV := 1, childPort := [(0, 4)] })).onLink 3 (fun l => { l with cls := 2 })).takenAs 3 (({ opcode := 0x7F, vc := 5, dst := 0x20, src := 0x30, tenant := 7, length := 0, tag := 9, addr := 11, handle := 4101, payload := [] } : Frame))).getD {},
       by decide +kernel⟩,
   ⟨col (fun c => { c with state := .opened, gen := 1, desc := ([1, 0, 11, 11] ++ fill 4 0 ++ leBytes 4 32 ++ fill 52 0), parts := [{ who := 0, origin := .port 3, n := 2, frame := { opcode := 0x78, src := 0x30, dst := 0x20, tenant := 7, tag := 8, handle := 5 + 4096 }, granted := 64, total := 128 }] }),
       ((col (fun c => { c with state := .opened, gen := 1, desc := ([1, 0, 11, 11] ++ fill 4 0 ++ leBytes 4 32 ++ fill 52 0), parts := [{ who := 0, origin := .port 3, n := 2, frame := { opcode := 0x78, src := 0x30, dst := 0x20, tenant := 7, tag := 8, handle := 5 + 4096 }, granted := 64, total := 128 }] })).entered 3 (({ opcode := 0x7F, vc := 5, dst := 0x20, src := 0x30, tenant := 7, length := 0, tag := 9, addr := 0, handle := 4101, payload := [] } : Frame))),
       3, ({ opcode := 0x7F, vc := 5, dst := 0x20, src := 0x30, tenant := 7, length := 0, tag := 9, addr := 0, handle := 4101, payload := [] } : Frame),
       ((col (fun c => { c with state := .opened, gen := 1, desc := ([1, 0, 11, 11] ++ fill 4 0 ++ leBytes 4 32 ++ fill 52 0), parts := [{ who := 0, origin := .port 3, n := 2, frame := { opcode := 0x78, src := 0x30, dst := 0x20, tenant := 7, tag := 8, handle := 5 + 4096 }, granted := 64, total := 128 }] })).takenAs 3 (({ opcode := 0x7F, vc := 5, dst := 0x20, src := 0x30, tenant := 7, length := 0, tag := 9, addr := 0, handle := 4101, payload := [] } : Frame))).getD {},
       0, by decide +kernel⟩⟩

theorem witness_CollectivesBindCommitAndAbort :
    (∃ (s : State) (tag : BitVec 16) (value : BitVec 64), s.writes tag (clvAddr 0x018) (value ||| 1#64 <<< 63) .operator
        ∧ (s.coll s.clv.bindSel.toNat).state ≠ .opened ∧ (s.coll s.clv.bindSel.toNat).state ≠ .committing
        ∧ (s.coll s.clv.bindSel.toNat).state ≠ .aborting ∧ 1 ≤ bits (value ||| 1#64 <<< 63).toNat 40 30
        ∧ bits (value ||| 1#64 <<< 63).toNat 40 30 ≤ s.slotRegion (bit (value ||| 1#64 <<< 63).toNat 29) (bits (value ||| 1#64 <<< 63).toNat 28 22)
        ∧ serviceCluster s.comp.run (bits (value ||| 1#64 <<< 63).toNat 28 22) = true
        ∧ (s.group (bits (value ||| 1#64 <<< 63).toNat 9 0)).tenant = (s.admRec (bits (value ||| 1#64 <<< 63).toNat 19 10)).tenant
        ∧ (s.group (bits (value ||| 1#64 <<< 63).toNat 9 0)).size ≠ 0 ∧ bits (value ||| 1#64 <<< 63).toNat 62 61 = 0)
    ∧ (∃ (s : State) (tag : BitVec 16) (value : BitVec 64), s.writes tag (clvAddr 0x018) (value &&& ~~~(1#64 <<< 63)) .operator
        ∧ (s.coll s.clv.bindSel.toNat).state ≠ .opened ∧ (s.coll s.clv.bindSel.toNat).state ≠ .committing
        ∧ (s.coll s.clv.bindSel.toNat).state ≠ .aborting ∧ 1 ≤ bits (value &&& ~~~(1#64 <<< 63)).toNat 40 30
        ∧ bits (value &&& ~~~(1#64 <<< 63)).toNat 40 30 ≤ s.slotRegion (bit (value &&& ~~~(1#64 <<< 63)).toNat 29) (bits (value &&& ~~~(1#64 <<< 63)).toNat 28 22))
    ∧ (∃ (s : State) (tag : BitVec 16) (value : BitVec 64), s.writes tag (clvAddr 0x018) (value &&& ~~~(1#64 <<< 63)) .operator
        ∧ (s.coll s.clv.bindSel.toNat).state = .opened)
    ∧ (∃ (s : State) (tag : BitVec 16), s.writes tag (clvAddr 0x030) 1 .operator ∧ (s.coll s.clv.bindSel.toNat).live = true
        ∧ (s.coll s.clv.bindSel.toNat).hasParent = false)
    ∧ (∃ (s : State) (tag : BitVec 16) (j : BitVec 7) (value : BitVec 64),
        s.writes tag (clvAddr (0x100 + 8 * j.toNat)) value .operator ∧ s.groupLocked s.clv.grpSel.toNat = false
        ∧ (s.group s.clv.grpSel.toNat).members = [] ∧ memberWord value 0 ≠ memberWord value 1
        ∧ (memberWord value 0).coreV = false ∧ (memberWord value 1).coreV = false
        ∧ (memberWord value 0).unit ≠ (memberWord value 1).unit)
    ∧ (∃ (s : State) (tag : BitVec 16) (j : BitVec 7) (value : BitVec 64),
        s.writes tag (clvAddr (0x100 + 8 * j.toNat)) value .operator ∧ s.groupLocked s.clv.grpSel.toNat = true)
    ∧ (∃ (s : State) (tag : BitVec 16) (j : BitVec 7) (value : BitVec 64),
        s.writes tag (clvAddr (0x100 + 8 * j.toNat)) value .operator ∧ (memberWord value 0).coreV = false
        ∧ (memberWord value 1).coreV = false ∧ (memberWord value 0).unit = (memberWord value 1).unit
        ∧ (memberWord value 0).unit ≠ 0xFFFF)
    ∧ (∃ (s : State) (id : BitVec 12), s.alive = true ∧ s.collReady id.toNat = true ∧ (s.coll id.toNat).hasParent = false
        ∧ (s.coll id.toNat).d.op ≠ 0x11)
    ∧ (∃ (s : State) (id : BitVec 12), s.alive = true ∧ s.collReady id.toNat = true ∧ (s.coll id.toNat).hasParent = true
        ∧ (s.coll id.toNat).readyUp = false)
    ∧ (∃ (s : State) (id : BitVec 12) (d : FT), s.alive = true ∧ (s.coll id.toNat).live = true
        ∧ (s.coll id.toNat).deadline = some d ∧ d ≤ s.now ∧ s.inTurn 1 d = true)
    ∧ (∃ (s : State) (id : BitVec 12), s.alive = true ∧ (s.coll id.toNat).state = .aborting ∧ (s.coll id.toNat).poolLeft = 0)
    ∧ (∃ (s : State) (n : Nat) (o : Origin) (f : Frame), s.alive = true
        ∧ s.req.held = [{ n := n, origin := o, frame := f, forAbort := true }]
        ∧ ((s.coll f.collId).state = .idle ∨ (s.coll f.collId).state = .aborted))
    ∧ (∃ (s : State) (id : BitVec 12) (who : Nat) (chunk : Nat), s.alive = true ∧ (s.coll id.toNat).live = true
        ∧ (s.coll id.toNat).unfreed.contains (chunkKey who chunk) = true ∧ (s.coll id.toNat).d.op ≠ 0x11
        ∧ (s.coll id.toNat).d.op ≠ 0x20
        ∧ ((s.coll id.toNat).d.shared = true ∨ Table.read false (s.coll id.toNat).out (chunkKey who chunk) = true)
        ∧ s.chunkOut (id.toNat, (s.coll id.toNat).gen.toNat, who, chunk) = false) :=
  ⟨⟨((col (fun c => { c with state := .unbound })).selColl 5).asRole .operator, 9,
      BitVec.ofNat 64 (8 * 2 ^ 30 + 20 * 2 ^ 22 + 4 * 2 ^ 10 + 3), by decide +kernel⟩,
   ⟨((col (fun c => c)).selColl 5).asRole .operator, 9, BitVec.ofNat 64 (8 * 2 ^ 30 + 20 * 2 ^ 22 + 4 * 2 ^ 10 + 3),
       by decide +kernel⟩,
   ⟨((col (fun c => { c with state := .opened })).selColl 5).asRole .operator, 9,
       BitVec.ofNat 64 (8 * 2 ^ 30 + 20 * 2 ^ 22 + 4 * 2 ^ 10 + 3), by decide +kernel⟩,
   ⟨((col (fun c => { c with state := .opened, gen := 1, desc := ([1, 0, 11, 11] ++ fill 4 0 ++ leBytes 4 32 ++ fill 52 0), parts := [{ who := 0, origin := .port 3, n := 2, frame := { opcode := 0x78, src := 0x30, dst := 0x20, tenant := 7, tag := 8, handle := 5 + 4096 }, granted := 64, total := 128 }] })).selColl 5).asRole .operator,
       9, by decide +kernel⟩,
   ⟨((col id).onGroup 3 (fun g => { g with members := [] }) |>.selColl 5).asRole .operator, 9, 2, 0x0000003100000030,
       by decide +kernel⟩,
   ⟨((col (fun c => { c with state := .opened, gen := 1, desc := ([1, 0, 11, 11] ++ fill 4 0 ++ leBytes 4 32 ++ fill 52 0), parts := [{ who := 0, origin := .port 3, n := 2, frame := { opcode := 0x78, src := 0x30, dst := 0x20, tenant := 7, tag := 8, handle := 5 + 4096 }, granted := 64, total := 128 }] })).selColl 5).asRole .operator,
       9, 2, 0x0000003100000030, by decide +kernel⟩,
   ⟨((col id).onGroup 3 (fun g => { g with members := [] }) |>.selColl 5).asRole .operator, 9, 2, 0x0000003000000030,
       by decide +kernel⟩,
   ⟨col (fun c => { c with gen := 1, desc := ([1, 0, 11, 11] ++ fill 4 0 ++ leBytes 4 32 ++ fill 52 0), parts := [{ who := 0, origin := .port 3, n := 2, frame := { opcode := 0x78, src := 0x30, dst := 0x20, tenant := 7, tag := 8, handle := 5 + 4096 }, granted := 64, total := 128 }], state := .committing }),
       5, by decide +kernel⟩,
   ⟨col (fun c => { c with gen := 1, desc := ([1, 0, 11, 11] ++ fill 4 0 ++ leBytes 4 32 ++ fill 52 0), parts := [{ who := 0, origin := .port 3, n := 2, frame := { opcode := 0x78, src := 0x30, dst := 0x20, tenant := 7, tag := 8, handle := 5 + 4096 }, granted := 64, total := 128 }], state := .committing, role := 3, parentPort := 4, resGot := [(0, 128), (1, 128)] }),
       5, by decide +kernel⟩,
   ⟨(col (fun c => { c with state := .opened, gen := 1, desc := ([1, 0, 11, 11] ++ fill 4 0 ++ leBytes 4 32 ++ fill 52 0), parts := [{ who := 0, origin := .port 3, n := 2, frame := { opcode := 0x78, src := 0x30, dst := 0x20, tenant := 7, tag := 8, handle := 5 + 4096 }, granted := 64, total := 128 }], deadline := some 0 })),
       5, 0, by decide +kernel⟩,
   ⟨col (fun c => { c with state := .aborting, cause := 4 }), 5, by decide +kernel⟩,
   ⟨({ col id with req := { (col id).req with held := [{ n := 5, origin := .port 3, frame := { opcode := 0x78, handle := 5 + 4096, src := 0x30, dst := 0x20 }, forAbort := true }] } } : State),
       5, .port 3, { opcode := 0x78, handle := 5 + 4096, src := 0x30, dst := 0x20 }, by decide +kernel⟩,
   ⟨(col (fun c => { c with state := .opened, gen := 1, desc := ([1, 0, 11, 11] ++ fill 4 0 ++ leBytes 4 32 ++ fill 52 0), parts := [{ who := 0, origin := .port 3, n := 2, frame := { opcode := 0x78, src := 0x30, dst := 0x20, tenant := 7, tag := 8, handle := 5 + 4096 }, granted := 64, total := 128 }], unfreed := [chunkKey 0 0] })),
       5, 0, 0, by decide +kernel⟩⟩

theorem witness_ExtentsThroughTheirLife :
    (∃ (s : State) (tag : BitVec 16) (index : BitVec 21),
        s.writes tag (extAddr 0x008) (BitVec.ofNat 64 (16 * index.toNat + 1)) .operator ∧ s.extBusy = false
        ∧ (s.extent index.toNat).state = .free ∧ (s.extent index.toNat).lastValid = false ∧ s.extentPages index.toNat = []
        ∧ s.ext.argShare ≠ 3 ∧ s.ownerOk s.ext.argOwner = true ∧ (s.tenant s.ext.argTenant.toNat).state = .active
        ∧ (s.admRec s.ext.argAdm.toNat).admitted = true ∧ (s.admRec s.ext.argAdm.toNat).tenant = s.ext.argTenant
        ∧ (homingPv s.comp.run s.ext.argPv.toNat).isSome = true ∧ s.isFenced 2 index.toNat = false
        ∧ 512 ≤ s.tierFree (if s.ext.argTier then 2 else 1)
        ∧ s.shortOf s.ext.argAdm.toNat (if s.ext.argTier then 2 else 1) 512 = 0)
    ∧ (∃ (s : State) (tag : BitVec 16) (index : BitVec 21),
        s.writes tag (extAddr 0x008) (BitVec.ofNat 64 (16 * index.toNat + 1)) .operator ∧ s.extBusy = false
        ∧ (s.extent index.toNat).state = .drained ∧ (s.extent index.toNat).tenant = s.ext.argTenant ∧ s.ext.argShare ≠ 3
        ∧ s.ownerOk s.ext.argOwner = true ∧ (s.tenant s.ext.argTenant.toNat).state = .active
        ∧ (s.admRec s.ext.argAdm.toNat).admitted = true ∧ (s.admRec s.ext.argAdm.toNat).tenant = s.ext.argTenant
        ∧ (homingPv s.comp.run s.ext.argPv.toNat).isSome = true ∧ s.isFenced 2 index.toNat = false
        ∧ (∀ k, k < 2 → s.shortOf s.ext.argAdm.toNat (k + 1) ((s.extentPages index.toNat).filter (fun p => p.2.res.toNat == k + 1)).length = 0))
    ∧ (∃ (s : State) (tag : BitVec 16) (index : BitVec 21),
        s.writes tag (extAddr 0x008) (BitVec.ofNat 64 (16 * index.toNat + 1)) .operator ∧ s.extBusy = false
        ∧ (s.extent index.toNat).state = .active)
    ∧ (∃ (s : State) (tag : BitVec 16) (index : BitVec 21),
        s.writes tag (extAddr 0x008) (BitVec.ofNat 64 (16 * index.toNat + 1)) .operator ∧ s.extBusy = false
        ∧ (s.extent index.toNat).state = .free ∧ (s.extent index.toNat).lastValid = false ∧ s.ext.argKv = false
        ∧ s.shortOf s.ext.argAdm.toNat (if s.ext.argTier then 2 else 1) 512 ≠ 0)
    ∧ (∃ (s : State) (tag : BitVec 16) (index : BitVec 21),
        s.writes tag (extAddr 0x008) (BitVec.ofNat 64 (16 * index.toNat + 3)) .operator ∧ s.extBusy = true)
    ∧ (∃ (s : State) (tag : BitVec 16) (index : BitVec 21),
        s.writes tag (extAddr 0x008) (BitVec.ofNat 64 (16 * index.toNat + 2)) .operator ∧ s.extBusy = false
        ∧ (s.extent index.toNat).state = .active ∧ s.ext.argShare ≠ 3 ∧ s.ownerOk s.ext.argOwner = true
        ∧ s.isFenced 2 index.toNat = false)
    ∧ (∃ (s : State) (tag : BitVec 16) (index : BitVec 21),
        s.writes tag (extAddr 0x008) (BitVec.ofNat 64 (16 * index.toNat + 3)) .operator ∧ s.extBusy = false
        ∧ (s.extent index.toNat).state = .active ∧ (s.extent index.toNat).coherent = false)
    ∧ (∃ (s : State) (tag : BitVec 16) (index : BitVec 21),
        s.writes tag (extAddr 0x008) (BitVec.ofNat 64 (16 * index.toNat + 4)) .operator ∧ s.extBusy = false
        ∧ (s.extent index.toNat).state = .drained)
    ∧ (∃ (s : State) (tag : BitVec 16) (index : BitVec 21),
        s.writes tag (extAddr 0x008) (BitVec.ofNat 64 (16 * index.toNat + 4)) .operator ∧ s.extBusy = false
        ∧ (s.extent index.toNat).state = .active)
    ∧ (∃ (s : State) (tag : BitVec 16) (index : BitVec 21),
        s.writes tag (extAddr 0x008) (BitVec.ofNat 64 (16 * index.toNat + 5)) .operator ∧ s.extBusy = false
        ∧ (s.extent index.toNat).state = .drained ∧ s.extentPages index.toNat = [])
    ∧ (∃ (s : State) (index : BitVec 21), s.alive = true ∧ (s.extent index.toNat).state = .scrubbing
        ∧ ((s.extent index.toNat).scrubLeft.filter (fun p => (s.page p).res == 1 || (s.page p).res == 2)) = []
        ∧ s.extentPages index.toNat = [])
    ∧ (∃ (s : State) (index : BitVec 21), s.alive = true ∧ (s.extent index.toNat).state = .scrubbing
        ∧ ((s.extent index.toNat).scrubLeft.filter (fun p => (s.page p).res == 1 || (s.page p).res == 2)) ≠ [])
    ∧ (∃ (s : State) (index : BitVec 21), s.alive = true ∧ (s.extent index.toNat).state = .revoking
        ∧ (s.extent index.toNat).shownAt ≤ s.now ∧ s.inFlight index.toNat = 0 ∧ (s.extent index.toNat).reclaim = false)
    ∧ (∃ (s : State) (index : BitVec 21), s.alive = true ∧ (s.extent index.toNat).state = .revoking
        ∧ s.inFlight index.toNat ≠ 0 ∨ s.now < (s.extent index.toNat).shownAt)
    ∧ (∃ (s : State) (index : BitVec 21) (r : Req) (b : Nat), s.alive = true ∧ (s.extent index.toNat).state = .revoking
        ∧ (s.extent index.toNat).drainAt ≤ s.now ∧ (s.extent index.toNat).reclaim = false ∧ s.req.reqs = [r]
        ∧ r.counted = some index.toNat ∧ r.performed = false ∧ r.origin = .port b ∧ s.base b = b ∧ r.frame.opcode = 0x10
        ∧ s.extentDir index.toNat = [] ∧ s.coh.snoops = [] ∧ s.tier.reqs = [] ∧ s.req.held = []) :=
  ⟨⟨((img []).asRole .operator |>.withTenant |>.withPool).setExtent 1 { state := .free }, 9, 1, by decide +kernel⟩,
   ⟨((img []).asRole .operator |>.withTenant |>.withPool).setExtent 1 { state := .drained, tenant := 7, share := 1, pv := 2 },
       9, 1, by decide +kernel⟩,
   ⟨((img []).asRole .operator |>.withTenant |>.withPool).setExtent 1 { state := .active }, 9, 1, by decide +kernel⟩,
   ⟨({ ((img []).asRole .operator |>.withTenant |>.withPool).setExtent 1 { state := .free } with adm := { ((img []).asRole .operator |>.withTenant |>.withPool).adm with recs := [(4, { pv := 2, tenant := 7, admitted := true })] } } : State),
       9, 1, by decide +kernel⟩,
   ⟨({ ((img []).asRole .operator |>.withTenant |>.withPool).setExtent 1 { state := .revoking, shownAt := 50 } with ext := { (((img []).asRole .operator |>.withTenant |>.withPool).setExtent 1 { state := .revoking, shownAt := 50 }).ext with cmdExt := some 1 } } : State),
       9, 1, by decide +kernel⟩,
   ⟨((img []).asRole .operator |>.withTenant |>.withPool).setExtent 1 { state := .active, tenant := 7, pv := 2 }, 9, 1,
       by decide +kernel⟩,
   ⟨((img []).asRole .operator |>.withTenant |>.withPool).setExtent 1 { state := .active, tenant := 7 }, 9, 1,
       by decide +kernel⟩,
   ⟨((img []).asRole .operator |>.withTenant |>.withPool).setExtent 1 { state := .drained, tenant := 7, share := 1, pv := 2 },
       9, 1, by decide +kernel⟩,
   ⟨((img []).asRole .operator |>.withTenant |>.withPool).setExtent 1 { state := .active }, 9, 1, by decide +kernel⟩,
   ⟨((img []).asRole .operator |>.withTenant |>.withPool).setExtent 1 { state := .drained, tenant := 7, share := 1, pv := 2 },
       9, 1, by decide +kernel⟩,
   ⟨(img []).setExtent 1 { state := .scrubbing }, 1, by decide +kernel⟩,
   ⟨({ (img []).setExtent 1 { state := .scrubbing, scrubLeft := [512] } with tier := { (img []).tier with pages := [(512, { slot := 3, tray := 2, res := 1 })] } } : State),
       1, by decide +kernel⟩,
   ⟨(img []).setExtent 1 { state := .revoking, tenant := 7, trigger := 1 }, 1, by decide +kernel⟩,
   ⟨(img []).setExtent 1 { state := .revoking, tenant := 7, trigger := 1 } |>.withReq ({ n := 4, origin := .port 3, frame := { opcode := 0x10, vc := 2, dst := 0x20, src := 0x30, tenant := 7, addr := 0x4000, length := 1, tag := 9, payload := [] }, stage := .filling, fpa := 0x40000000, counted := some 1 }),
       1, by decide +kernel⟩,
   ⟨(img []).setExtent 1 { state := .revoking, tenant := 7, trigger := 1 } |>.withReq ({ n := 4, origin := .port 3, frame := { opcode := 0x10, vc := 2, dst := 0x20, src := 0x30, tenant := 7, addr := 0x4000, length := 1, tag := 9, payload := [] }, stage := .filling, fpa := 0x40000000, counted := some 1 }),
       1, { n := 4, origin := .port 3, frame := { opcode := 0x10, vc := 2, dst := 0x20, src := 0x30, tenant := 7, addr := 0x4000, length := 1, tag := 9, payload := [] }, stage := .filling, fpa := 0x40000000, counted := some 1 },
       3, by decide +kernel⟩⟩

theorem witness_LeasesThroughTheirLife :
    (∃ (s : State) (tag : BitVec 16), s.writes tag (lseAddr 0x020) (BitVec.ofNat 64 (1)) .operator
        ∧ (s.lease s.lse.sel.toNat).state = .empty ∧ (s.lease s.lse.sel.toNat).unit ≠ 0xFFFF
        ∧ s.lse.minMs.toNat ≤ (if (s.lease s.lse.sel.toNat).periodMs = 0 then s.lse.defaultMs else (s.lease s.lse.sel.toNat).periodMs).toNat
        ∧ (if (s.lease s.lse.sel.toNat).periodMs = 0 then s.lse.defaultMs else (s.lease s.lse.sel.toNat).periodMs).toNat ≤ s.lse.maxMs.toNat
        ∧ (∀ q, unitOf s.comp.run (s.lease s.lse.sel.toNat).unit = .port q → s.isFenced 1 q = false)
        ∧ s.isFenced 6 s.lse.sel.toNat = false)
    ∧ (∃ (s : State) (tag : BitVec 16), s.writes tag (lseAddr 0x020) (BitVec.ofNat 64 (1)) .operator
        ∧ (s.lease s.lse.sel.toNat).state = .armed ∧ s.now < (s.lease s.lse.sel.toNat).expiry)
    ∧ (∃ (s : State) (tag : BitVec 16), s.writes tag (lseAddr 0x020) (BitVec.ofNat 64 (2)) .operator
        ∧ (s.lease s.lse.sel.toNat).state = .expired ∨ (s.lease s.lse.sel.toNat).state = .handed ∧ s.ext.tab = [])
    ∧ (∃ (s : State) (tag : BitVec 16) (unit : BitVec 16),
        s.writes tag (lseAddr 0x020) (BitVec.ofNat 64 (unit.toNat * 2 ^ 16 + 3)) .operator
        ∧ (s.lease s.lse.sel.toNat).state = .armed ∨ (s.lease s.lse.sel.toNat).state = .frozen
        ∧ ((s.lease s.lse.sel.toNat).state = .armed → s.now < (s.lease s.lse.sel.toNat).expiry))
    ∧ (∃ (s : State) (tag : BitVec 16), s.writes tag (lseAddr 0x020) (BitVec.ofNat 64 (4)) .operator
        ∧ (s.lease s.lse.sel.toNat).state = .armed ∨ (s.lease s.lse.sel.toNat).state = .frozen
        ∧ ((s.lease s.lse.sel.toNat).state = .armed → s.now < (s.lease s.lse.sel.toNat).expiry))
    ∧ (∃ (s : State) (tag : BitVec 16), s.writes tag (lseAddr 0x020) (BitVec.ofNat 64 (4)) .operator
        ∧ (s.lease s.lse.sel.toNat).state = .handed)
    ∧ (∃ (s : State) (index : BitVec 12), s.alive = true ∧ (s.lease index.toNat).state = .armed
        ∧ (s.lease index.toNat).expiry ≤ s.now ∧ s.inTurn 2 (s.lease index.toNat).expiry = true
        ∧ slotOf (s.lease index.toNat).expiry ≠ slotOf s.now ∨ s.renewalWaits (s.lease index.toNat).unit = false
        ∧ (∀ x ∈ s.ext.tab, x.2.owner = (s.lease index.toNat).unit → x.2.coherent = false))
    ∧ (∃ (s : State) (index : BitVec 12), (s.lease index.toNat).state ≠ .armed ∨ s.now < (s.lease index.toNat).expiry)
    ∧ (∃ (s : State) (e : State) (port : BitVec 8) (f : Frame) (g : Frame) (i : Nat) (l : Lease), f.opcode = 0x61
        ∧ s.takenAs port.toNat f = some g ∧ e = s.entered port.toNat f
        ∧ e.leaseOf (BitVec.ofNat 16 (field g.payload 0 2)) = some (i, l) ∧ l.state = .armed ∧ e.lease i = l
        ∧ slotOf e.now ≤ slotOf l.expiry)
    ∧ (∃ (s : State) (e : State) (port : BitVec 8) (f : Frame) (g : Frame), f.opcode = 0x61 ∧ s.takenAs port.toNat f = some g
        ∧ e = s.entered port.toNat f ∧ e.leaseOf (BitVec.ofNat 16 (field g.payload 0 2)) = none) :=
  ⟨⟨(((img []).asRole .operator).onLease 6 (fun _ => { unit := 0x30 })).selLease 6, 9, by decide +kernel, by decide +kernel,
      by decide +kernel, by decide +kernel, by decide +kernel, fun q h => by
      have h0 : unitOf imgSections 48 = .port 3 := by decide +kernel
      cases h0.symm.trans h; decide +kernel, by decide +kernel⟩,
   ⟨(((img []).asRole .operator).onLease 6 (fun _ => { unit := 0x30, state := .armed, expiry := 999 })).selLease 6, 9,
       by decide +kernel⟩,
   ⟨((((img []).asRole .operator).onLease 6 (fun _ => { unit := 0x30, state := .expired })).selLease 6).noExt, 9,
       by decide +kernel⟩,
   ⟨(((img []).asRole .operator).onLease 6 (fun _ => { unit := 0x30, state := .armed, expiry := 999 })).selLease 6, 9, 0x31,
       by decide +kernel⟩,
   ⟨(((img []).asRole .operator).onLease 6 (fun _ => { unit := 0x30, state := .armed, expiry := 999 })).selLease 6, 9,
       by decide +kernel⟩,
   ⟨(((img []).asRole .operator).onLease 6 (fun _ => { unit := 0x30, state := .handed })).selLease 6, 9, by decide +kernel⟩,
   ⟨(img []).onLease 6 (fun _ => { unit := 0x30, state := .armed }) |>.ownExt, 6, by decide +kernel⟩,
   ⟨(img []).onLease 6 (fun _ => { unit := 0x30, state := .handed }), 6, by decide +kernel⟩,
   ⟨(img []).onLease 6 (fun _ => { unit := 0x31, state := .armed, periodMs := 20, expiry := 999 }),
       (((img []).onLease 6 (fun _ => { unit := 0x31, state := .armed, periodMs := 20, expiry := 999 })).entered 4 (({ opcode := 0x61, vc := 6, dst := 0xFFFF, src := 0x31, tenant := 7, length := 1, tag := 9, handle := 40965, payload := ([0x31, 0, 5, 0] ++ fill 60 0) } : Frame))),
       4, ({ opcode := 0x61, vc := 6, dst := 0xFFFF, src := 0x31, tenant := 7, length := 1, tag := 9, handle := 40965, payload := ([0x31, 0, 5, 0] ++ fill 60 0) } : Frame),
       (((img []).onLease 6 (fun _ => { unit := 0x31, state := .armed, periodMs := 20, expiry := 999 })).takenAs 4 (({ opcode := 0x61, vc := 6, dst := 0xFFFF, src := 0x31, tenant := 7, length := 1, tag := 9, handle := 40965, payload := ([0x31, 0, 5, 0] ++ fill 60 0) } : Frame))).getD {},
       6, { unit := 0x31, state := .armed, periodMs := 20, expiry := 999 }, by decide +kernel⟩,
   ⟨img [], ((img []).entered 4 (({ opcode := 0x61, vc := 6, dst := 0xFFFF, src := 0x31, tenant := 7, length := 1, tag := 9, handle := 40965, payload := ([0x31, 0, 5, 0] ++ fill 60 0) } : Frame))),
       4, ({ opcode := 0x61, vc := 6, dst := 0xFFFF, src := 0x31, tenant := 7, length := 1, tag := 9, handle := 40965, payload := ([0x31, 0, 5, 0] ++ fill 60 0) } : Frame),
       ((img []).takenAs 4 (({ opcode := 0x61, vc := 6, dst := 0xFFFF, src := 0x31, tenant := 7, length := 1, tag := 9, handle := 40965, payload := ([0x31, 0, 5, 0] ++ fill 60 0) } : Frame))).getD {},
       by decide +kernel⟩⟩

theorem witness_AdmissionIsAllOrNothing :
    (∃ (s : State) (tag : BitVec 16), s.writes tag (extAddr 0x110) 1 .operator ∧ (s.admRec s.adm.sel.toNat).admitted = false
        ∧ (s.tenant (s.admRec s.adm.sel.toNat).tenant.toNat).state = .active ∧ s.parentOk (s.admRec s.adm.sel.toNat) = true
        ∧ s.admFail s.adm.sel.toNat (s.admRec s.adm.sel.toNat) = 0)
    ∧ (∃ (s : State) (tag : BitVec 16), s.writes tag (extAddr 0x110) 1 .operator ∧ (s.admRec s.adm.sel.toNat).admitted = false
        ∧ (s.tenant (s.admRec s.adm.sel.toNat).tenant.toNat).state = .active ∧ s.parentOk (s.admRec s.adm.sel.toNat) = true
        ∧ s.admFail s.adm.sel.toNat (s.admRec s.adm.sel.toNat) ≠ 0)
    ∧ (∃ (s : State) (tag : BitVec 16), s.writes tag (extAddr 0x110) 2 .operator ∧ (s.admRec s.adm.sel.toNat).admitted = true
        ∧ s.parentOk (s.admRec s.adm.sel.toNat) = true ∧ s.admFail s.adm.sel.toNat (s.admRec s.adm.sel.toNat) = 0
        ∧ (s.admRec s.adm.sel.toNat).req.below (s.recUse s.adm.sel.toNat) = false)
    ∧ (∃ (s : State) (tag : BitVec 16), s.writes tag (extAddr 0x110) 2 .operator ∧ (s.admRec s.adm.sel.toNat).admitted = true
        ∧ s.parentOk (s.admRec s.adm.sel.toNat) = true ∧ s.admFail s.adm.sel.toNat (s.admRec s.adm.sel.toNat) = 0
        ∧ (s.admRec s.adm.sel.toNat).req.below (s.recUse s.adm.sel.toNat) = true)
    ∧ (∃ (s : State) (tag : BitVec 16), s.writes tag (extAddr 0x110) 3 .operator ∧ (s.admRec s.adm.sel.toNat).admitted = true
        ∧ s.recUse s.adm.sel.toNat = {} ∧ s.jobsOf s.adm.sel.toNat = [])
    ∧ (∃ (s : State) (tag : BitVec 16), s.writes tag (extAddr 0x110) 3 .operator ∧ (s.admRec s.adm.sel.toNat).admitted = true
        ∧ s.recUse s.adm.sel.toNat ≠ {}) :=
  ⟨⟨({ run.asRole .operator |>.withTenant with adm := { run.adm with recs := [(4, { pv := 2, tenant := 7, req := { seq := 4, coll := 4 } })], sel := 4 } } : State),
      9, by decide +kernel⟩,
   ⟨({ run.asRole .operator |>.withTenant with adm := { run.adm with recs := [(4, { pv := 2, tenant := 7, req := { seq := 4, coll := 5000 } })], sel := 4 } } : State),
       9, by decide +kernel⟩,
   ⟨({ run.asRole .operator |>.withTenant with adm := { run.adm with recs := [(4, { pv := 2, tenant := 7, req := { cores := 1, seq := 9 }, admitted := true, resv := { cores := 1, seq := 3 } })], sel := 4 } } : State),
       9, by decide +kernel⟩,
   ⟨({ (run.onHandle 5 (fun h => { h with state := .bound, adm := 4 })).asRole .operator |>.withTenant with adm := { (run.onHandle 5 (fun h => { h with state := .bound, adm := 4 })).adm with recs := [(4, { pv := 2, tenant := 7, req := { cores := 1, seq := 0 }, admitted := true, resv := { cores := 1, seq := 3 } })], sel := 4 } } : State),
       9, by decide +kernel⟩,
   ⟨({ run.asRole .operator |>.withTenant with adm := { run.adm with recs := [(4, { pv := 9, tenant := 7, admitted := true, resv := { seq := 3 } })], sel := 4 } } : State),
       9, by decide +kernel⟩,
   ⟨({ (run.onHandle 5 (fun h => { h with state := .bound, adm := 4 })).asRole .operator |>.withTenant with adm := { (run.onHandle 5 (fun h => { h with state := .bound, adm := 4 })).adm with recs := [(4, { pv := 2, tenant := 7, admitted := true, resv := { seq := 3 } })], sel := 4 } } : State),
       9, by decide +kernel⟩⟩

theorem witness_TraysAndBridges :
    (∃ (s : State) (b : BitVec 4) (dev : CxlDevice), s.alive = true ∧ s.mod.perst.getLsbD b.toNat = false ∧ dev.ok = true
        ∧ (s.tray (256 + b.toNat)).state = .absent)
    ∧ (∃ (s : State) (b : BitVec 4), (s.tray (256 + b.toNat)).state = .online ∧ s.tier.moves = [])
    ∧ (∃ (s : State) (b : BitVec 4) (tag : BitVec 13) (data : List Byte) (poison : BitVec 32) (q : TrayReq) (k : Nat) (tn : BitVec 10),
        s.alive = true ∧ s.tier.reqs = [q] ∧ q.tray = (256 + b.toNat) ∧ q.tag = tag ∧ q.held = none ∧ s.noneHeld = true
        ∧ q.op = .wipe k 1023 ∧ s.tier.wiping = [(k, tn)] ∧ k / 2 ^ 30 = (256 + b.toNat))
    ∧ (∃ (s : State) (b : BitVec 4) (tag : BitVec 13) (data : List Byte) (poison : BitVec 32) (q : TrayReq) (k : Nat),
        s.alive = true ∧ s.tier.reqs = [q] ∧ q.tray = (256 + b.toNat) ∧ q.tag = tag ∧ q.held = none ∧ q.op = .fill k)
    ∧ (∃ (s : State) (b : BitVec 4) (tag : BitVec 13) (q : TrayReq), s.alive = true ∧ s.tier.reqs = [q]
        ∧ q.tray = (256 + b.toNat) ∧ q.tag = tag ∧ q.held = none ∧ q.timer ≤ s.now ∧ (s.tray (256 + b.toNat)).state = .online
        ∧ s.tier.moves = [])
    ∧ (∃ (s : State) (b : BitVec 4) (line : BitVec 46) (p : Nat) (x : TierPage), s.alive = true
        ∧ (s.tray (256 + b.toNat)).linkUp = true ∧ s.tier.pages = [(p, x)] ∧ x.tray.toNat = (256 + b.toNat) ∧ x.res = 1
        ∧ x.slot.toNat = line.toNat / 32768 ∧ s.lineValid (32768 * p + line.toNat % 32768) = true)
    ∧ (∃ (s : State) (tag : BitVec 16), s.writes tag (trnAddr 0x080) 2 .operator ∧ (s.tray s.tier.traySel.toNat).state = .online
        ∧ s.req.reqs = [] ∧ s.tier.moves = [])
    ∧ (∃ (s : State) (tag : BitVec 16), s.writes tag (trnAddr 0x080) 2 .operator
        ∧ (s.tray s.tier.traySel.toNat).state = .absent)
    ∧ (∃ (s : State) (tag : BitVec 16), s.writes tag (trnAddr 0x080) 1 .operator ∧ (s.tray s.tier.traySel.toNat).state = .online
        ∧ s.tier.moves = [] ∧ (s.pagesOn s.tier.traySel.toNat).length ≤ (s.onTray s.tier.traySel.toNat (fun x => { x with evacuating := true })).tierFree (s.tray s.tier.traySel.toNat).tier.toNat)
    ∧ (∃ (s : State) (tray : BitVec 9), (s.tray tray.toNat).evacuating = true ∧ (s.tray tray.toNat).state = .online
        ∧ s.pagesOn tray.toNat = [] ∧ s.tier.moves = [] ∧ s.req.reqs = [])
    ∧ (∃ (s : State) (tag : BitVec 16), s.writes tag (trnAddr 0x080) 3 .operator ∧ 256 ≤ s.tier.traySel.toNat
        ∧ s.tier.traySel.toNat < 272 ∧ (s.tray s.tier.traySel.toNat).state = .retired
        ∧ (∀ e ∈ s.tier.pages, e.2.tray.toNat ≠ s.tier.traySel.toNat))
    ∧ (∃ (s : State) (tag : BitVec 16), s.writes tag (trnAddr 0x080) 3 .operator
        ∧ (s.tray s.tier.traySel.toNat).state = .online)
    ∧ (∃ (s : State) (port : BitVec 8) (at_ : FT), s.alive = true ∧ (s.tray port.toNat).retryAt = some at_ ∧ at_ ≤ s.now
        ∧ (s.link (s.base port.toNat)).state = .opened ∧ s.trayBusy (.bitmap port.toNat) = false) :=
  ⟨⟨(img []).perst0, 3, { serial := 77, capacity := 2 ^ 33 }, by decide +kernel⟩,
   ⟨(((img [])).onTray 259 (fun x => { x with state := .online, linkUp := true })), 3, by decide +kernel⟩,
   ⟨((((img [])).onTray 259 (fun x => { x with state := .online }))).withTreq { tray := 259, tag := 4, op := .wipe (259 * 2 ^ 30 + 7) 1023, timer := 5 } |>.withWipe (259 * 2 ^ 30 + 7),
       3, 4, [], 0, { tray := 259, tag := 4, op := .wipe (259 * 2 ^ 30 + 7) 1023, timer := 5 }, 259 * 2 ^ 30 + 7, 7,
       by decide +kernel⟩,
   ⟨((((img [])).onTray 259 (fun x => { x with state := .online }))).withTreq { tray := 259, tag := 4, op := .fill 9, timer := 5 },
       3, 4, [], 0xFFFFFFFF, { tray := 259, tag := 4, op := .fill 9, timer := 5 }, 9, by decide +kernel⟩,
   ⟨((((img [])).onTray 259 (fun x => { x with state := .online }))).withTreq { tray := 259, tag := 4, op := .fill 9, timer := 0 },
       3, 4, { tray := 259, tag := 4, op := .fill 9, timer := 0 }, by decide +kernel⟩,
   ⟨(((((img [])).onTray 259 (fun x => { x with state := .online, linkUp := true }))).withPg (512,
       { tray := 259, slot := 1, res := 1 })) |>.setSector (2 ^ 19 + 16) { valid := BitVec.allOnes 32 }, 3, 32768 + 512, 512,
       { tray := 259, slot := 1, res := 1 }, by decide +kernel⟩,
   ⟨(((((((img [])).onTray 259 (fun x => { x with state := .online, slots := 9 }))).withPg (2 ^ 9 + 3, { slot := 1, tray := 259, res := 1, heat := 9 }))).selTray 259).asRole .operator,
       9, by decide +kernel⟩,
   ⟨((img []).selTray 259).asRole .operator, 9, by decide +kernel⟩,
   ⟨(((((((img [])).onTray 259 (fun x => { x with state := .online, slots := 9, tier := 1 })).onTray 5 (fun x => { x with state := .online, tier := 1, slots := 9 })).withPg (2 ^ 9 + 3, { slot := 1, tray := 259, res := 1, heat := 9 }))).selTray 259).asRole .operator,
       9, by decide +kernel⟩,
   ⟨(((img [])).onTray 259 (fun x => { x with state := .online, evacuating := true, slots := 9 })), 259, by decide +kernel⟩,
   ⟨(((((img [])).onTray 259 (fun x => { x with state := .retired }))).selTray 259).asRole .operator, 9, by decide +kernel⟩,
   ⟨(((((img [])).onTray 259 (fun x => { x with state := .online }))).selTray 259).asRole .operator, 9, by decide +kernel⟩,
   ⟨(img []).onTray 3 (fun x => { x with state := .unreachable, retryAt := some 0 }), 3, 0, by decide +kernel⟩⟩

theorem witness_PagesMoveBetweenTiers :
    (∃ (s : State) (tag : BitVec 16) (pin : BitVec 2),
        s.writes tag (trnAddr 0x068) (BitVec.ofNat 64 (1 + 16 * pin.toNat)) .operator
        ∧ (s.pageExtent s.tier.tpSel.toNat).state ≠ .absent ∧ (s.page s.tier.tpSel.toNat).moving = false
        ∧ (pin = 0 ∨ pin = 3 ∨ (s.page s.tier.tpSel.toNat).res = pin ∨ (s.page s.tier.tpSel.toNat).res = 0 ∨ (s.page s.tier.tpSel.toNat).res = 3))
    ∧ (∃ (s : State) (tag : BitVec 16) (pin : BitVec 2),
        s.writes tag (trnAddr 0x068) (BitVec.ofNat 64 (1 + 16 * pin.toNat)) .operator
        ∧ (s.pageExtent s.tier.tpSel.toNat).state ≠ .absent ∧ (s.page s.tier.tpSel.toNat).moving = false
        ∧ (pin = 1 ∧ (s.page s.tier.tpSel.toNat).res = 2 ∨ pin = 2 ∧ (s.page s.tier.tpSel.toNat).res = 1)
        ∧ s.pinRefused s.tier.tpSel.toNat pin.toNat = false ∧ s.tier.moves = [])
    ∧ (∃ (s : State) (tag : BitVec 16) (pin : BitVec 2),
        s.writes tag (trnAddr 0x068) (BitVec.ofNat 64 (1 + 16 * pin.toNat)) .operator
        ∧ (s.pageExtent s.tier.tpSel.toNat).state ≠ .absent ∧ (s.page s.tier.tpSel.toNat).moving = false
        ∧ (pin = 1 ∧ (s.page s.tier.tpSel.toNat).res = 2 ∨ pin = 2 ∧ (s.page s.tier.tpSel.toNat).res = 1)
        ∧ (s.dropTierMoves s.tier.tpSel.toNat).pinRefused s.tier.tpSel.toNat pin.toNat = true)
    ∧ (∃ (s : State) (tag : BitVec 16) (pin : BitVec 2),
        s.writes tag (trnAddr 0x068) (BitVec.ofNat 64 (1 + 16 * pin.toNat)) .operator
        ∧ (s.pageExtent s.tier.tpSel.toNat).state ≠ .absent ∧ (s.page s.tier.tpSel.toNat).moving = true)
    ∧ (∃ (s : State) (tag : BitVec 16) (r : State × Nat × Nat), s.writes tag (trnAddr 0x068) 2 .operator
        ∧ (s.page s.tier.tpSel.toNat).res = 3 ∧ s.tier.moves = []
        ∧ s.allocSlot (s.page s.tier.tpSel.toNat).lostTier.toNat = some r)
    ∧ (∃ (s : State) (tag : BitVec 16), s.writes tag (trnAddr 0x068) 2 .operator ∧ (s.page s.tier.tpSel.toNat).res ≠ 3)
    ∧ (∃ (s : State) (page : BitVec 30) (m : Move) (r : State × Nat × Nat), s.alive = true ∧ s.tier.moves = [m]
        ∧ m.page = page.toNat ∧ s.movable m = true ∧ 1 ≤ s.tier.maxMoves.toNat ∧ (s.page m.page).res ≠ m.want
        ∧ s.allocSlot m.want.toNat = some r)
    ∧ (∃ (s : State) (page : BitVec 30) (m : Move), s.alive = true ∧ s.tier.moves = [m] ∧ m.page = page.toNat
        ∧ s.movable m = false)
    ∧ (∃ (s : State) (page : BitVec 30) (m : Move) (y : Nat) (sl : Nat), s.alive = true ∧ s.tier.moves = [m]
        ∧ m.page = page.toNat ∧ m.dst = some (y, sl) ∧ y < 512 ∧ sl < 2 ^ 30 ∧ 1024 ≤ m.copied ∧ s.pageQuiet m.page = true
        ∧ s.req.reqs = [] ∧ (s.page m.page).pin = 0 ∧ (s.page m.page).pinNext = none ∧ (s.tray y).evacuating = false)
    ∧ (∃ (s : State) (pv : BitVec 6),
        (2 ^ s.tier.warmLog2.toNat ≤ (Table.read {} s.tier.warm pv.toNat).count ∨ (Table.read {} s.tier.warm pv.toNat).since + s.tier.warmMs.toNat * msT ≤ s.now))
    ∧ (∃ (s : State), s.alive = true ∧ s.heatDue = true ∧ s.tier.migOn = false) :=
  ⟨⟨(((((((img [])).onTray 259 (fun x => { x with state := .online, slots := 9, tier := 1 })).onTray 5 (fun x => { x with state := .online, tier := 2, slots := 9 }) |>.withPool2).withPg (2 ^ 9 + 3, { slot := 1, tray := 259, heat := 9, res := 1 }))).selPage (2 ^ 9 + 3)).asRole .operator,
      9, 1, by decide +kernel⟩,
   ⟨(((((((img [])).onTray 259 (fun x => { x with state := .online, slots := 9, tier := 1 })).onTray 5 (fun x => { x with state := .online, tier := 2, slots := 9 }) |>.withPool2).withPg (2 ^ 9 + 3, { slot := 1, tray := 259, heat := 9, res := 1 }))).selPage (2 ^ 9 + 3)).asRole .operator,
       9, 2, by decide +kernel⟩,
   ⟨(((((((img [])).onTray 259 (fun x => { x with state := .online, slots := 9, tier := 1 }))).withPg (2 ^ 9 + 3, { slot := 1, tray := 259, res := 1, heat := 9 }))).selPage (2 ^ 9 + 3)).asRole .operator,
       9, 2, by decide +kernel⟩,
   ⟨(((((((img [])).onTray 259 (fun x => { x with state := .online, slots := 9, tier := 1 })).onTray 5 (fun x => { x with state := .online, tier := 2, slots := 9 }) |>.withPool2).withPg (2 ^ 9 + 3, { slot := 1, tray := 259, heat := 9, res := 1, moving := true }))).selPage (2 ^ 9 + 3)).asRole .operator,
       9, 2, by decide +kernel⟩,
   ⟨(((((((img [])).onTray 259 (fun x => { x with state := .online, slots := 9, tier := 1 })).onTray 5 (fun x => { x with state := .online, tier := 2, slots := 9 }) |>.withPool2).withPg (2 ^ 9 + 3, { slot := 1, tray := 259, heat := 9, res := 3, lostTier := 1 }))).selPage (2 ^ 9 + 3)).asRole .operator,
       9, (((((((((img [])).onTray 259 (fun x => { x with state := .online, slots := 9, tier := 1 })).onTray 5 (fun x => { x with state := .online, tier := 2, slots := 9 }) |>.withPool2).withPg (2 ^ 9 + 3, { slot := 1, tray := 259, heat := 9, res := 3, lostTier := 1 }))).selPage (2 ^ 9 + 3)).asRole .operator).allocSlot 1).getD (run,
       0, 0), by decide +kernel⟩,
   ⟨(((((((img [])).onTray 259 (fun x => { x with state := .online, slots := 9, tier := 1 })).onTray 5 (fun x => { x with state := .online, tier := 2, slots := 9 }) |>.withPool2).withPg (2 ^ 9 + 3, { slot := 1, tray := 259, heat := 9, res := 1 }))).selPage (2 ^ 9 + 3)).asRole .operator,
       9, by decide +kernel⟩,
   ⟨(((((((img [])).onTray 259 (fun x => { x with state := .online, slots := 9, tier := 1 })).onTray 5 (fun x => { x with state := .online, tier := 2, slots := 9 }) |>.withPool2).withPg (2 ^ 9 + 3, { slot := 1, tray := 259, heat := 9, res := 1 }))).withMove ({ page := 2 ^ 9 + 3, want := 2, directed := true } : Move)),
       2 ^ 9 + 3, ({ page := 2 ^ 9 + 3, want := 2, directed := true } : Move),
       (((((((((img [])).onTray 259 (fun x => { x with state := .online, slots := 9, tier := 1 })).onTray 5 (fun x => { x with state := .online, tier := 2, slots := 9 }) |>.withPool2).withPg (2 ^ 9 + 3, { slot := 1, tray := 259, heat := 9, res := 1 }))).withMove ({ page := 2 ^ 9 + 3, want := 2, directed := true } : Move))).allocSlot 2).getD (run,
       0, 0), by decide +kernel⟩,
   ⟨(((((((img [])).onTray 259 (fun x => { x with state := .online, slots := 9, tier := 1 })).onTray 5 (fun x => { x with state := .online, tier := 2, slots := 9 }) |>.withPool2).withPg (2 ^ 9 + 3, { slot := 1, tray := 259, heat := 9, res := 3 }))).withMove ({ page := 2 ^ 9 + 3, want := 2, directed := true } : Move)),
       2 ^ 9 + 3, ({ page := 2 ^ 9 + 3, want := 2, directed := true } : Move), by decide +kernel⟩,
   ⟨(((((((img [])).onTray 259 (fun x => { x with state := .online, slots := 9, tier := 1 })).onTray 5 (fun x => { x with state := .online, tier := 2, slots := 9 }) |>.withPool2).withPg (2 ^ 9 + 3, { slot := 1, tray := 259, heat := 9, res := 1, moving := true }))).withMove ({ page := 2 ^ 9 + 3, want := 2, directed := true, dst := some (5, 4), copied := 1024 } : Move)),
       2 ^ 9 + 3, ({ page := 2 ^ 9 + 3, want := 2, directed := true, dst := some (5, 4), copied := 1024 } : Move), 5, 4,
       by decide +kernel⟩,
   ⟨(img []).tickTo (10 ^ 12), 2, by decide +kernel⟩,
   ⟨(img []).tickTo (10 ^ 12) |>.migOff |>.withPages, by decide +kernel⟩⟩

theorem witness_WalksAndInvalidation :
    (∃ (s : State) (walk : Nat) (w : Walk) (bs : List Byte) (fpa : Nat) (size : Nat) (wr : Bool), s.alive = true
        ∧ s.xl.walks = [w] ∧ w.id = walk ∧ w.got = some (stOk, bs) ∧ w.core = none ∧ w.probe = none ∧ s.req.reqs = []
        ∧ (Table.read ({} : Root) s.xl.roots w.tenant.toNat).valid = true ∧ s.walkRuns w = true
        ∧ judgeEntry w (field bs (w.entryAddr % 64) 8) = .page fpa size wr)
    ∧ (∃ (s : State) (walk : Nat) (w : Walk) (bs : List Byte), s.alive = true ∧ s.xl.walks = [w] ∧ w.id = walk
        ∧ w.got = some (stOk, bs) ∧ w.core = none ∧ w.probe = none ∧ s.req.reqs = []
        ∧ (Table.read ({} : Root) s.xl.roots w.tenant.toNat).valid = true ∧ s.walkRuns w = true
        ∧ judgeEntry w (field bs (w.entryAddr % 64) 8) = .fault)
    ∧ (∃ (s : State) (walk : Nat) (w : Walk) (bs : List Byte) (level : Nat) (table : Nat), s.alive = true ∧ s.xl.walks = [w]
        ∧ w.id = walk ∧ w.got = some (stOk, bs) ∧ (Table.read ({} : Root) s.xl.roots w.tenant.toNat).valid = true
        ∧ s.walkRuns w = true ∧ judgeEntry w (field bs (w.entryAddr % 64) 8) = .next level table)
    ∧ (∃ (s : State) (walk : Nat) (w : Walk), s.xl.walks = [w] ∧ w.got = none)
    ∧ (∃ (s : State) (walk : Nat) (w : Walk) (d : Decode) (page : Nat), s.alive = true ∧ s.xl.walks = [w] ∧ w.id = walk
        ∧ w.got = none ∧ w.probe = some (d.id, page) ∧ s.req.reqs = [] ∧ s.atn.decodes = [d] ∧ s.walkRuns w = true
        ∧ (Table.read ({} : Root) s.xl.roots w.tenant.toNat).valid = false)
    ∧ (∃ (s : State) (walk : Nat) (w : Walk) (g : BitVec 6 × List Byte), s.alive = true ∧ s.xl.walks = [w] ∧ w.id = walk
        ∧ w.got = some g ∧ w.probe.isSome = true ∧ s.walkRuns w = true)
    ∧ (∃ (s : State) (tag : BitVec 16), s.writes tag (trnAddr 0x020) 1 .operator ∧ s.xl.invBusy = false ∧ s.xl.invAll = true
        ∧ s.xl.walks = [])
    ∧ (∃ (s : State) (tag : BitVec 16), s.writes tag (trnAddr 0x020) 1 .operator ∧ s.xl.invBusy = false ∧ s.xl.invAll = false
        ∧ s.xl.walks = [] ∧ s.xl.invPages ≠ 0)
    ∧ (∃ (s : State) (tag : BitVec 16), s.writes tag (trnAddr 0x020) 1 .operator ∧ s.xl.invBusy = true)
    ∧ (∃ (s : State), s.xl.invBusy = true ∧ (∀ n ∈ s.xl.invWaits, (s.findReq n).isNone = true)) :=
  ⟨⟨(((id (img [])).withInv (fun x => { x with roots := [(7, { root := 0, valid := true })] })).withWalk ({ id := 7, unit := 0, core := none, tenant := 7, tva := 0x4000, level := 0, table := 0x400, got := some (stOk, fill 8 0 ++ leBytes 8 (0x8000 + 2 + 4) ++ fill 48 0) } : Walk)),
      7, ({ id := 7, unit := 0, core := none, tenant := 7, tva := 0x4000, level := 0, table := 0x400, got := some (stOk, fill 8 0 ++ leBytes 8 (0x8000 + 2 + 4) ++ fill 48 0) } : Walk),
      (fill 8 0 ++ leBytes 8 (0x8000 + 2 + 4) ++ fill 48 0), 0x8000, 14, true, by decide +kernel⟩,
   ⟨(((id (img [])).withInv (fun x => { x with roots := [(7, { root := 0, valid := true })] })).withWalk ({ id := 7, unit := 0, core := none, tenant := 7, tva := 0x4000, level := 0, table := 0x400, got := some (stOk, fill 8 0 ++ leBytes 8 (0x8000 + 1) ++ fill 48 0) } : Walk)),
       7, ({ id := 7, unit := 0, core := none, tenant := 7, tva := 0x4000, level := 0, table := 0x400, got := some (stOk, fill 8 0 ++ leBytes 8 (0x8000 + 1) ++ fill 48 0) } : Walk),
       (fill 8 0 ++ leBytes 8 (0x8000 + 1) ++ fill 48 0), by decide +kernel⟩,
   ⟨(((id (img [])).withInv (fun x => { x with roots := [(7, { root := 0, valid := true })] })).withWalk ({ id := 7, unit := 0, core := none, tenant := 7, tva := 0x4000, level := 2, table := 0x10000, got := some (stOk, leBytes 8 (0x10000 + 1) ++ fill 56 0) } : Walk)),
       7, ({ id := 7, unit := 0, core := none, tenant := 7, tva := 0x4000, level := 2, table := 0x10000, got := some (stOk, leBytes 8 (0x10000 + 1) ++ fill 56 0) } : Walk),
       (leBytes 8 (0x10000 + 1) ++ fill 56 0), 1, 0x10000, by decide +kernel⟩,
   ⟨(((id (img [])).withInv (fun x => { x with roots := [(7, { root := 0, valid := true })] })).withWalk ({ id := 7, unit := 0, core := none, tenant := 7, tva := 0x4000, level := 3, table := 0, probe := some (6, 0x4000) } : Walk)),
       7, ({ id := 7, unit := 0, core := none, tenant := 7, tva := 0x4000, level := 3, table := 0, probe := some (6, 0x4000) } : Walk),
       by decide +kernel⟩,
   ⟨(((({ att (fun h => { h with state := .bound, inflight := 1 }) with atn := { (att (fun h => { h with state := .bound, inflight := 1 })).atn with decodes := [({ id := 6, origin := .port 3, frame := { opcode := 0x80, src := 0x30, dst := 0x20, tenant := 7, tag := 9, handle := 40965, length := 3, payload := (leBytes 1 1 ++ leBytes 1 0 ++ leBytes 2 0 ++ leBytes 1 0 ++ leBytes 1 1 ++ leBytes 1 1 ++ [0] ++ leBytes 4 100 ++ leBytes 4 0x3F800000 ++ fill 48 0 ++ fill 128 1) }, handle := 40965, isSub := false, fmt := 1, d := 64, h := 1, tp := 64, gb := 1, base := 2 ^ 21, toks := [(0, 2)], splits := [], subs := [] } : Decode)] } } : State))).withWalk ({ id := 7, unit := 0, core := none, tenant := 7, tva := 0x4000, level := 3, table := 0, probe := some (6, 0x4000) } : Walk)),
       7, ({ id := 7, unit := 0, core := none, tenant := 7, tva := 0x4000, level := 3, table := 0, probe := some (6, 0x4000) } : Walk),
       ({ id := 6, origin := .port 3, frame := { opcode := 0x80, src := 0x30, dst := 0x20, tenant := 7, tag := 9, handle := 40965, length := 3, payload := (leBytes 1 1 ++ leBytes 1 0 ++ leBytes 2 0 ++ leBytes 1 0 ++ leBytes 1 1 ++ leBytes 1 1 ++ [0] ++ leBytes 4 100 ++ leBytes 4 0x3F800000 ++ fill 48 0 ++ fill 128 1) }, handle := 40965, isSub := false, fmt := 1, d := 64, h := 1, tp := 64, gb := 1, base := 2 ^ 21, toks := [(0, 2)], splits := [], subs := [] } : Decode),
       0x4000, by decide +kernel⟩,
   ⟨(((({ att (fun h => { h with state := .bound, inflight := 1 }) with atn := { (att (fun h => { h with state := .bound, inflight := 1 })).atn with decodes := [({ id := 6, origin := .port 3, frame := { opcode := 0x80, src := 0x30, dst := 0x20, tenant := 7, tag := 9, handle := 40965, length := 3, payload := (leBytes 1 1 ++ leBytes 1 0 ++ leBytes 2 0 ++ leBytes 1 0 ++ leBytes 1 1 ++ leBytes 1 1 ++ [0] ++ leBytes 4 100 ++ leBytes 4 0x3F800000 ++ fill 48 0 ++ fill 128 1) }, handle := 40965, isSub := false, fmt := 1, d := 64, h := 1, tp := 64, gb := 1, base := 2 ^ 21, toks := [(0, 2)], splits := [], subs := [] } : Decode)] } } : State))).withWalk ({ id := 7, unit := 0, core := none, tenant := 7, tva := 0x4000, level := 3, table := 0, probe := some (6, 0x4000), got := some (stOk, fill 64 0) } : Walk)),
       7, ({ id := 7, unit := 0, core := none, tenant := 7, tva := 0x4000, level := 3, table := 0, probe := some (6, 0x4000), got := some (stOk, fill 64 0) } : Walk),
       (stOk, fill 64 0), by decide +kernel⟩,
   ⟨((img []).withInv (fun x => { x with invAll := true })).asRole .operator, 9, by decide +kernel⟩,
   ⟨((img []).withInv (fun x => { x with invTenant := 7, invBase := 1, invPages := 1 })).asRole .operator, 9,
       by decide +kernel⟩,
   ⟨((img []).withInv (fun x => { x with invBusy := true })).asRole .operator, 9, by decide +kernel⟩,
   ⟨((img []).withInv (fun x => { x with invBusy := true, invWaits := [3] })), by decide +kernel⟩⟩

theorem witness_RestoresAndRoom :
    (∃ (s : State) (n : Nat) (leaf : Nat) (v : Nat) (r : Req), s.alive = true ∧ s.req.reqs = [r] ∧ r.n = n ∧ r.leaf = some leaf
        ∧ r.stage = .restoring ∧ s.extCheck (s.tablesOf r) r.frame (r.origin.asker r.frame) r.fpa.toNat = stOk
        ∧ (s.page (fpaPage r.fpa.toNat)).res ≠ 0 ∧ fpaModule r.fpa.toNat = s.moduleNo ∧ r.cas = none ∧ r.origin ≠ .leaf r.n
        ∧ r.n ≠ s.req.nextN ∧ r.frame.opcode = 0x12 ∧ fpaModule leaf = s.moduleNo ∧ (s.extent (fpaExtent leaf)).state = .active
        ∧ (s.extent (fpaExtent leaf)).tenant = r.frame.tenant ∧ (s.extent (fpaExtent leaf)).coherent = false ∧ leaf < 2 ^ 56
        ∧ leaf % 8 = 0 ∧ s.inT0 leaf 1 ∧ s.hofAt (fpaLine leaf) = none ∧ s.comp.evac = [] ∧ v = field (s.homeBytes leaf 8) 0 8
        ∧ v = r.fpa.toNat / 2 ^ 14 * 2 ^ 14 + 7)
    ∧ (∃ (s : State) (n : Nat) (leaf : Nat) (v : Nat) (r : Req), s.alive = true ∧ s.req.reqs = [r] ∧ r.n = n
        ∧ r.leaf = some leaf ∧ r.stage = .restoring
        ∧ s.extCheck (s.tablesOf r) r.frame (r.origin.asker r.frame) r.fpa.toNat = stOk
        ∧ (s.page (fpaPage r.fpa.toNat)).res ≠ 0 ∧ fpaModule r.fpa.toNat = s.moduleNo ∧ r.cas = some (stOk, v)
        ∧ v = r.fpa.toNat / 2 ^ 14 * 2 ^ 14 + 7)
    ∧ (∃ (s : State) (n : Nat) (leaf : Nat) (v : Nat) (b : Nat) (r : Req), s.alive = true ∧ s.req.reqs = [r] ∧ r.n = n
        ∧ r.leaf = some leaf ∧ r.stage = .restoring ∧ r.origin = .port b ∧ s.base b = b ∧ r.frame.opcode = 0x12
        ∧ s.extCheck (s.tablesOf r) r.frame (r.origin.asker r.frame) r.fpa.toNat = stOk
        ∧ (s.page (fpaPage r.fpa.toNat)).res ≠ 0 ∧ fpaModule r.fpa.toNat = s.moduleNo ∧ r.cas = some (stNoTrans, v))
    ∧ (∃ (s : State) (n : Nat) (leaf : Nat) (r : Req), s.alive = true ∧ s.req.reqs = [r] ∧ r.n = n ∧ r.leaf = some leaf
        ∧ r.stage = .restoring ∧ s.extCheck (s.tablesOf r) r.frame (r.origin.asker r.frame) r.fpa.toNat = stOk
        ∧ (s.page (fpaPage r.fpa.toNat)).res = 0 ∧ fpaModule r.fpa.toNat = s.moduleNo ∧ s.tier.makeRoom = []
        ∧ s.restoreRoom (s.extent (fpaExtent r.fpa.toNat)).adm.toNat = false)
    ∧ (∃ (s : State) (n : Nat) (b : Nat) (r : Req), s.req.reqs = [r] ∧ r.n = n ∧ r.stage = .restoring
        ∧ r.at_ + s.targetLimit ≤ s.now ∧ r.origin = .port b ∧ s.base b = b ∧ r.frame.opcode = 0x12)
    ∧ (∃ (s : State) (n : Nat) (r : Req), s.req.reqs = [r] ∧ s.now < r.at_ + s.targetLimit)
    ∧ (∃ (s : State) (rec_ : Nat) (need : Nat) (tier : BitVec 2), s.alive = true ∧ s.tier.dropNext = []
        ∧ s.tier.makeRoom = [(rec_, tier, need, true)] ∧ (s.roomRun rec_ tier.toNat need true).missing = none
        ∧ need ≤ (s.roomRun rec_ tier.toNat need true).freed)
    ∧ (∃ (s : State) (rec_ : Nat) (need : Nat) (tier : BitVec 2) (demote : Bool), s.alive = true ∧ s.tier.dropNext = []
        ∧ s.tier.makeRoom = [(rec_, tier, need, demote)] ∧ s.atn.handles = [] ∧ s.req.reqs = []
        ∧ demote = true ∨ s.adk.outstanding = [])
    ∧ (∃ (s : State) (rec_ : Nat) (need : Nat) (tier : BitVec 2) (q : AdkFrame), s.alive = true ∧ s.tier.dropNext = []
        ∧ s.tier.makeRoom = [(rec_, tier, need, false)] ∧ s.atn.handles = [] ∧ 1 ≤ need ∧ s.adk.state = .up
        ∧ s.adk.outstanding = [q] ∧ s.ext.waiting = true) :=
  ⟨⟨(((img []).withPg (2 ^ 9, { res := 1 })).putLeaf).withReq ({ n := 4, origin := .port 3, frame := { opcode := 0x12, vc := 2, dst := 0x20, src := 0x30, tenant := 7, addr := 0x4000, length := 1, tag := 9, payload := fill 64 1 }, stage := .restoring, fpa := 1073774592, leaf := some (2 ^ 30 + 0x8008) } : Req),
      4, (2 ^ 30 + 0x8008), (1073774592 + 7),
      ({ n := 4, origin := .port 3, frame := { opcode := 0x12, vc := 2, dst := 0x20, src := 0x30, tenant := 7, addr := 0x4000, length := 1, tag := 9, payload := fill 64 1 }, stage := .restoring, fpa := 1073774592, leaf := some (2 ^ 30 + 0x8008) } : Req),
      by decide +kernel⟩,
   ⟨(((img []).withPg (2 ^ 9, { res := 1 })).putLeaf).withReq ({ n := 4, origin := .port 3, frame := { opcode := 0x12, vc := 2, dst := 0x20, src := 0x30, tenant := 7, addr := 0x4000, length := 1, tag := 9, payload := fill 64 1 }, stage := .restoring, fpa := 1073774592, leaf := some (2 ^ 30 + 0x8008), cas := some (stOk, (1073774592 + 7)) } : Req),
       4, (2 ^ 30 + 0x8008), (1073774592 + 7),
       ({ n := 4, origin := .port 3, frame := { opcode := 0x12, vc := 2, dst := 0x20, src := 0x30, tenant := 7, addr := 0x4000, length := 1, tag := 9, payload := fill 64 1 }, stage := .restoring, fpa := 1073774592, leaf := some (2 ^ 30 + 0x8008), cas := some (stOk, (1073774592 + 7)) } : Req),
       by decide +kernel⟩,
   ⟨(((img []).withPg (2 ^ 9, { res := 1 })).putLeaf).withReq ({ n := 4, origin := .port 3, frame := { opcode := 0x12, vc := 2, dst := 0x20, src := 0x30, tenant := 7, addr := 0x4000, length := 1, tag := 9, payload := fill 64 1 }, stage := .restoring, fpa := 1073774592, leaf := some (2 ^ 30 + 0x8008), cas := some (stNoTrans, (1073774592 + 7)) } : Req),
       4, (2 ^ 30 + 0x8008), (1073774592 + 7), 3,
       ({ n := 4, origin := .port 3, frame := { opcode := 0x12, vc := 2, dst := 0x20, src := 0x30, tenant := 7, addr := 0x4000, length := 1, tag := 9, payload := fill 64 1 }, stage := .restoring, fpa := 1073774592, leaf := some (2 ^ 30 + 0x8008), cas := some (stNoTrans, (1073774592 + 7)) } : Req),
       by decide +kernel⟩,
   ⟨(img []).withReq ({ n := 4, origin := .port 3, frame := { opcode := 0x12, vc := 2, dst := 0x20, src := 0x30, tenant := 7, addr := 0x4000, length := 1, tag := 9, payload := fill 64 1 }, stage := .restoring, fpa := 1073774592, leaf := some (2 ^ 30 + 0x8008) } : Req),
       4, (2 ^ 30 + 0x8008), ({ n := 4, origin := .port 3, frame := { opcode := 0x12, vc := 2, dst := 0x20, src := 0x30, tenant := 7, addr := 0x4000, length := 1, tag := 9, payload := fill 64 1 }, stage := .restoring, fpa := 1073774592, leaf := some (2 ^ 30 + 0x8008) } : Req),
       by decide +kernel⟩,
   ⟨((img []).tickTo (10 ^ 12)).withReq ({ n := 4, origin := .port 3, frame := { opcode := 0x12, vc := 2, dst := 0x20, src := 0x30, tenant := 7, addr := 0x4000, length := 1, tag := 9, payload := fill 64 1 }, stage := .restoring, fpa := 1073774592, leaf := some (2 ^ 30 + 0x8008) } : Req),
       4, 3, ({ n := 4, origin := .port 3, frame := { opcode := 0x12, vc := 2, dst := 0x20, src := 0x30, tenant := 7, addr := 0x4000, length := 1, tag := 9, payload := fill 64 1 }, stage := .restoring, fpa := 1073774592, leaf := some (2 ^ 30 + 0x8008) } : Req),
       by decide +kernel⟩,
   ⟨(img []).withReq ({ n := 4, origin := .port 3, frame := { opcode := 0x12, vc := 2, dst := 0x20, src := 0x30, tenant := 7, addr := 0x4000, length := 1, tag := 9, payload := fill 64 1 }, stage := .restoring, fpa := 1073774592, leaf := some (2 ^ 30 + 0x8008), at_ := 5 } : Req),
       4, ({ n := 4, origin := .port 3, frame := { opcode := 0x12, vc := 2, dst := 0x20, src := 0x30, tenant := 7, addr := 0x4000, length := 1, tag := 9, payload := fill 64 1 }, stage := .restoring, fpa := 1073774592, leaf := some (2 ^ 30 + 0x8008), at_ := 5 } : Req),
       by decide +kernel⟩,
   ⟨(img []).withRoom (4, 1, 0, true), 4, 0, 1, by decide +kernel⟩,
   ⟨(img []).withRoom (4, 1, 1, true), 4, 1, 1, true, by decide +kernel⟩,
   ⟨(((img []).withRoom (4, 1, 1, false)).up.withOut (wrFrame 9 (extAddr 0x008) 17)).extWaits, 4, 1, 1,
       wrFrame 9 (extAddr 0x008) 17, by decide +kernel⟩⟩

theorem witness_AccessesOfTheAdapter :
    (∃ (s : State) (tag : BitVec 16),
        s.performs { ty := 1, status := 0, tag := tag, addr := BitVec.ofNat 48 (trnAddr 0x038), len := 1, words := [] }
        ∧ s.req.reqs = [] ∧ fpaModule (8 * s.xl.ptwAddr.toNat) = s.moduleNo
        ∧ (s.extent (fpaExtent (8 * s.xl.ptwAddr.toNat))).state ≠ .absent
        ∧ (s.extent (fpaExtent (8 * s.xl.ptwAddr.toNat))).coherent = false
        ∧ s.lineValid (fpaLine (8 * s.xl.ptwAddr.toNat)) = true ∧ s.linePoison (fpaLine (8 * s.xl.ptwAddr.toNat)) = false
        ∧ s.hofAt (fpaLine (8 * s.xl.ptwAddr.toNat)) = none ∧ s.comp.evac = [])
    ∧ (∃ (s : State) (tag : BitVec 16) (value : BitVec 64), s.performs (wrFrame tag (trnAddr 0x038) value) ∧ s.req.reqs = []
        ∧ fpaModule (8 * s.xl.ptwAddr.toNat) = s.moduleNo ∧ (s.extent (fpaExtent (8 * s.xl.ptwAddr.toNat))).state ≠ .absent
        ∧ (s.extent (fpaExtent (8 * s.xl.ptwAddr.toNat))).coherent = false
        ∧ s.lineValid (fpaLine (8 * s.xl.ptwAddr.toNat)) = true ∧ s.linePoison (fpaLine (8 * s.xl.ptwAddr.toNat)) = false
        ∧ s.hofAt (fpaLine (8 * s.xl.ptwAddr.toNat)) = none ∧ s.comp.evac = [])
    ∧ (∃ (s : State) (n : Nat) (a : Nat) (off : Nat) (v : Nat) (tag : BitVec 16) (r : Req), s.alive = true ∧ s.req.reqs = [r]
        ∧ r.n = n ∧ r.stage = .staged ∧ r.origin = .ptw tag true ∧ tag ≠ policyTag ∧ s.comp.evac = [] ∧ r.fpa.toNat = a
        ∧ a % 64 = 0 ∧ (s.extent (fpaExtent a)).coherent = false ∧ r.frame.has flCmpr = false ∧ r.done = 0 ∧ r.given = []
        ∧ r.back = [] ∧ r.poison = false ∧ r.frame.opcode = 0x14 ∧ off + 8 ≤ 64 ∧ v < 2 ^ 64
        ∧ r.frame.payload = splice (fill 64 0) off (leBytes 8 v) ++ leBytes 8 (255 * 2 ^ off) ∧ s.inT0 a 1
        ∧ s.hofAt (fpaLine a) = none)
    ∧ (∃ (s : State) (tag : BitVec 16) (q : AdkFrame) (data : BitVec 64), s.adk.state = .up ∧ s.adk.outstanding = [q]
        ∧ q.tag = tag ∧ s.xl.ptwDone = some (tag, true, stOk, data))
    ∧ (∃ (s : State) (tag : BitVec 16) (q : AdkFrame) (data : BitVec 64), s.adk.state = .up ∧ s.adk.outstanding = [q]
        ∧ q.tag = tag ∧ q = { ty := 1, status := 0, tag := tag, addr := BitVec.ofNat 48 (trnAddr 0x038), len := 1, words := [] }
        ∧ s.xl.ptwDone = some (tag, false, stOk, data))
    ∧ (∃ (s : State) (tag : BitVec 16), s.performs (wrFrame tag (secAddr 0x188) 1) ∧ s.req.reqs = []
        ∧ fpaModule (64 * s.sec.dbgAddr.toNat) = s.moduleNo ∧ (s.extent (fpaExtent (64 * s.sec.dbgAddr.toNat))).state ≠ .absent
        ∧ (s.extent (fpaExtent (64 * s.sec.dbgAddr.toNat))).coherent = false
        ∧ s.lineValid (fpaLine (64 * s.sec.dbgAddr.toNat)) = true ∧ s.linePoison (fpaLine (64 * s.sec.dbgAddr.toNat)) = false
        ∧ s.hofAt (fpaLine (64 * s.sec.dbgAddr.toNat)) = none ∧ s.comp.evac = [])
    ∧ (∃ (s : State) (tag : BitVec 16), s.performs (wrFrame tag (secAddr 0x188) 1)
        ∧ fpaModule (64 * s.sec.dbgAddr.toNat) ≠ s.moduleNo)
    ∧ (∃ (s : State) (tag : BitVec 16) (q : AdkFrame) (line : List Byte), s.adk.state = .up ∧ s.adk.outstanding = [q]
        ∧ q.tag = tag ∧ s.sec.dbgDone = some (tag, stOk, line)) :=
  ⟨⟨((img []).ptwAt ((2 ^ 30 + 0x8000) / 8)).up, 9, by decide +kernel⟩,
   ⟨((img []).ptwAt ((2 ^ 30 + 0x8000) / 8)).up, 9, 0x1122334455667788, by decide +kernel⟩,
   ⟨(img []).withReq ({ n := 4, origin := .ptw 9 true, frame := { opcode := 0x14, dst := 0x20, length := 1, payload := splice (fill 64 0) 16 (leBytes 8 5) ++ leBytes 8 (255 * 2 ^ 16) }, stage := .staged, fpa := 1073774592 }),
       4, 1073774592, 16, 5, 9, { n := 4, origin := .ptw 9 true, frame := { opcode := 0x14, dst := 0x20, length := 1, payload := splice (fill 64 0) 16 (leBytes 8 5) ++ leBytes 8 (255 * 2 ^ 16) }, stage := .staged, fpa := 1073774592 },
       by decide +kernel⟩,
   ⟨((((img []).ptwAt ((2 ^ 30 + 0x8000) / 8)).up).withOut (wrFrame 9 (trnAddr 0x038) 5)).ptwDone (9, true, stOk, 3), 9,
       wrFrame 9 (trnAddr 0x038) 5, 3, by decide +kernel⟩,
   ⟨((((img []).ptwAt ((2 ^ 30 + 0x8000) / 8)).up).withOut { ty := 1, status := 0, tag := 9, addr := BitVec.ofNat 48 (trnAddr 0x038), len := 1, words := [] }).ptwDone (9,
       false, stOk, 3), 9, { ty := 1, status := 0, tag := 9, addr := BitVec.ofNat 48 (trnAddr 0x038), len := 1, words := [] },
       3, by decide +kernel⟩,
   ⟨(((img []).dbgAt ((2 ^ 30 + 0x8000) / 64)).up), 9, by decide +kernel⟩,
   ⟨(((img []).dbgAt (2 ^ 49)).up), 9, by decide +kernel⟩,
   ⟨((((img []).ptwAt ((2 ^ 30 + 0x8000) / 8)).up).withOut (wrFrame 9 (secAddr 0x188) 1)).dbgDone (9, stOk, fill 64 3), 9,
       wrFrame 9 (secAddr 0x188) 1, fill 64 3, by decide +kernel⟩⟩

theorem witness_FramesLeaveAndGatesRun :
    (∃ (s : State) (port : BitVec 8) (f : Frame) (rest : List Frame), s.plainPort port.toNat
        ∧ (s.link port.toNat).state.flows = true ∧ s.laneFree port.toNat = true ∧ (s.port port.toNat).tc.vc6 = f :: rest
        ∧ creditCost f ≤ (s.link port.toNat).creditsAt 6 ∧ (s.link port.toNat).replayRoom f = true ∧ f.vc = 6)
    ∧ (∃ (s : State) (port : BitVec 8) (x : QFrame), s.plainPort port.toNat ∧ (s.link port.toNat).state = .opened
        ∧ s.laneFree port.toNat = true ∧ (s.port port.toNat).tc.vc6 = [] ∧ s.offered port.toNat 0 = some x
        ∧ (s.port port.toNat).tc.shape.holds s.now (s.outSize port.toNat x) = true
        ∧ (s.link port.toNat).replayRoom { x.frame with payload := fill (64 * s.outUnits port.toNat x) 0 } = true
        ∧ x.frame.has flCmpr = false ∧ x.elem = none)
    ∧ (∃ (s : State) (port : BitVec 8), s.plainPort port.toNat ∧ (s.link port.toNat).state = .down)
    ∧ (∃ (s : State) (tag : BitVec 16) (port : BitVec 8) (value : BitVec 64),
        s.writes tag (prtAddr port.toNat 0x130) (value ||| 1) .operator ∧ (s.port port.toNat).tc.gate.pending = false
        ∧ (value ||| 1).getLsbD 5 = false
        ∧ s.gateListOk port.toNat (Gate.list { (s.port port.toNat).tc.gate with pendLast := BitVec.ofNat 8 (bits (value ||| 1).toNat 39 32), pendNone := (value ||| 1).getLsbD 5 } false) = true)
    ∧ (∃ (s : State) (tag : BitVec 16) (port : BitVec 8) (value : BitVec 64),
        s.writes tag (prtAddr port.toNat 0x130) (value ||| 1) .operator ∧ (s.port port.toNat).tc.gate.pending = true)
    ∧ (∃ (s : State) (port : BitVec 8), s.gatesRun = true ∧ (s.port port.toNat).tc.gate.activates s.now = false
        ∧ (s.port port.toNat).tc.gate.installed = true
        ∧ pointDue (s.port port.toNat).tc.gate.actBase (s.port port.toNat).tc.gate.cycle (s.port port.toNat).tc.gate.lastStart s.now = true)
    ∧ (∃ (s : State) (port : BitVec 8), s.gatesRun = true ∧ (s.port port.toNat).tc.gate.activates s.now = true
        ∧ (s.port port.toNat).tc.gate.pendNone = false)
    ∧ (∃ (s : State) (port : BitVec 8), s.gatesRun = true ∧ (s.port port.toNat).tc.gate.run = true
        ∧ (s.port port.toNat).tc.gate.curEnd ≤ s.dieFt (portSite port.toNat))
    ∧ (∃ (s : State) (port : BitVec 8), s.gatesRun = false) :=
  ⟨⟨(((((img [])).onTc 3 (fun y => { y with vc6 := [({ opcode := 0x60, vc := 6, length := 1, payload := fill 64 1 } : Frame)] }))).onLink 3 (fun y => { y with state := .hello, peerCred := [(6, 9)] })),
      3, ({ opcode := 0x60, vc := 6, length := 1, payload := fill 64 1 } : Frame), [], by decide +kernel⟩,
   ⟨(((img []).onQueue 3 0 (fun q => { q with fifos := [(3, [({ frame := { opcode := 0x18, vc := 3, dst := 0x30, length := 1, payload := fill 64 1 } } : QFrame)])] })).onLink 3 (fun y => { y with state := .opened, peerCred := [(3, 9)] })),
       3, ({ frame := { opcode := 0x18, vc := 3, dst := 0x30, length := 1, payload := fill 64 1 } } : QFrame),
       by decide +kernel⟩,
   ⟨((img []).onLink 3 (fun y => { y with state := .down })), 3, by decide +kernel⟩,
   ⟨((((img [])).onTc 3 (fun y => { y with gate := { entries := [(256, { gates := 0xFFFF, dur := 250 })] } }))).asRole .operator,
       9, 3, 0, by decide +kernel⟩,
   ⟨((((img [])).onTc 3 (fun y => { y with gate := { pending := true } }))).asRole .operator, 9, 3, 0, by decide +kernel⟩,
   ⟨((((img [])).onTc 3 (fun y => { y with gate := { entries := [(0, { gates := 0xFFFF, dur := 250 })], installed := true, actBase := 0, lastStart := 0 } })).tickTo (10 ^ 6)).locked,
       3, by decide +kernel⟩,
   ⟨((((img [])).onTc 3 (fun y => { y with gate := { entries := [(256, { gates := 0xFFFF, dur := 250 })], pending := true, base := 0, change := 0 } })).tickTo (10 ^ 6)).locked,
       3, by decide +kernel⟩,
   ⟨((((img [])).onTc 3 (fun y => { y with gate := { entries := [(0, { gates := 0xFFFF, dur := 250 })], installed := true, actBase := 0, lastStart := 0, run := true, curEnd := 5 } })).tickTo (10 ^ 6)).locked,
       3, by decide +kernel⟩,
   ⟨(img []).stopGates, 3, by decide +kernel⟩⟩

theorem witness_ShapersBridlesAndMeasures :
    (∃ (s : State) (tag : BitVec 16) (port : BitVec 8) (queue : BitVec 4) (value : BitVec 64) (x : Shaper),
        s.writes tag (queAddr port.toNat queue.toNat 0x08) value .operator ∧ shaperOf value = some x)
    ∧ (∃ (s : State) (tag : BitVec 16) (port : BitVec 8) (queue : BitVec 4) (value : BitVec 64),
        s.writes tag (queAddr port.toNat queue.toNat 0x08) value .operator ∧ shaperOf value = none)
    ∧ (∃ (s : State) (tag : BitVec 16) (port : BitVec 8) (value : BitVec 64) (x : Shaper),
        s.writes tag (prtAddr port.toNat 0x120) value .operator ∧ shaperOf value = some x)
    ∧ (∃ (s : State) (tag : BitVec 16) (port : BitVec 8) (value : BitVec 64),
        s.writes tag (prtAddr port.toNat 0x120) value .operator ∧ shaperOf value = none)
    ∧ (∃ (s : State) (tag : BitVec 16) (port : BitVec 8) (value : BitVec 64),
        s.writes tag (prtAddr port.toNat 0x180) value .operator ∧ port.toNat % 16 = 0 ∧ 1 ≤ bits value.toNat 63 44
        ∧ bits value.toNat 63 44 ≤ bits value.toNat 43 24 ∧ bits value.toNat 43 24 ≤ 0xCF850)
    ∧ (∃ (s : State) (tag : BitVec 16) (port : BitVec 8) (value : BitVec 64),
        s.writes tag (prtAddr port.toNat 0x188) value .operator ∧ port.toNat % 16 = 0 ∧ 0x1029 ≤ bits value.toNat 63 32
        ∧ bits value.toNat 63 32 ≤ 0x1000000 ∧ 0x1029 ≤ bits value.toNat 31 0 ∧ bits value.toNat 31 0 ≤ 0x1000000)
    ∧ (∃ (s : State) (tag : BitVec 16) (port : BitVec 8) (value : BitVec 64),
        s.writes tag (prtAddr port.toNat 0x180) value .operator ∧ port.toNat % 16 ≠ 0)
    ∧ (∃ (s : State) (port : BitVec 8), s.alive = true ∧ (s.link port.toNat).cls = 1 ∨ (s.link port.toNat).cls = 2
        ∧ (s.port port.toNat).tc.rlIncAt + (s.port port.toNat).tc.rlUs.toNat * usT ≤ s.now
        ∧ (s.port port.toNat).tc.rlRate.toNat + (s.port port.toNat).tc.rlAi.toNat < (s.port port.toNat).tc.rlMax.toNat)
    ∧ (∃ (s : State) (port : BitVec 8), s.alive = true ∧ (s.link port.toNat).cls = 1 ∨ (s.link port.toNat).cls = 2
        ∧ (s.port port.toNat).tc.rlIncAt + (s.port port.toNat).tc.rlUs.toNat * usT ≤ s.now
        ∧ (s.port port.toNat).tc.rlMax.toNat ≤ (s.port port.toNat).tc.rlRate.toNat + (s.port port.toNat).tc.rlAi.toNat
        ∧ (s.port port.toNat).tc.rlRate ≠ (s.port port.toNat).tc.rlMax)
    ∧ (∃ (s : State) (port : BitVec 8) (queue : BitVec 4), s.alive = true ∧ (s.queue port.toNat queue.toNat).belOwed = false
        ∧ gridDue ((s.queue port.toNat queue.toNat).belUs.toNat * usT) (s.queue port.toNat queue.toNat).belAt s.now = true
        ∧ s.inTurn 7 (s.now / ((s.queue port.toNat queue.toNat).belUs.toNat * usT) * ((s.queue port.toNat queue.toNat).belUs.toNat * usT)) = true)
    ∧ (∃ (s : State) (tag : BitVec 16) (port : BitVec 8) (queue : BitVec 4) (value : BitVec 64),
        s.writes tag (queAddr port.toNat queue.toNat 0x18) (value ||| (1#64 <<< 31)) .operator
        ∧ bits (value ||| (1#64 <<< 31)).toNat 19 0 ≤ 0xF4240)
    ∧ (∃ (s : State) (tag : BitVec 16) (port : BitVec 8) (queue : BitVec 4) (value : BitVec 64),
        s.writes tag (queAddr port.toNat queue.toNat 0x18) (value ||| (1#64 <<< 30)) .operator
        ∧ bits (value ||| (1#64 <<< 30)).toNat 19 0 ≤ 0xF4240 ∧ (value ||| (1#64 <<< 30)).getLsbD 31 = false) :=
  ⟨⟨(img []).asRole .operator, 9, 3, 4, (2 ^ 63 + 0x100 * 2 ^ 32 + 100), (shaperOf (2 ^ 63 + 0x100 * 2 ^ 32 + 100)).getD {},
      by decide +kernel⟩,
   ⟨(img []).asRole .operator, 9, 3, 4, 0, by decide +kernel⟩,
   ⟨(img []).asRole .operator, 9, 3, (2 ^ 63 + 0x100 * 2 ^ 32 + 100), (shaperOf (2 ^ 63 + 0x100 * 2 ^ 32 + 100)).getD {},
       by decide +kernel⟩,
   ⟨(img []).asRole .operator, 9, 3, 0, by decide +kernel⟩,
   ⟨(img []).asRole .operator, 9, 16, (100 * 2 ^ 44 + 200 * 2 ^ 24 + 3), by decide +kernel⟩,
   ⟨(img []).asRole .operator, 9, 16, (0x2000 * 2 ^ 32 + 0x3000), by decide +kernel⟩,
   ⟨(img []).asRole .operator, 9, 17, 0, by decide +kernel⟩,
   ⟨(((img [])).onTc 3 (fun y => { y with rlRate := 0x3000 })).tickTo (10 ^ 9), 3, by decide +kernel⟩,
   ⟨(((img [])).onTc 3 (fun y => { y with rlRate := 0xCF840 })).tickTo (10 ^ 9), 3, by decide +kernel⟩,
   ⟨((img []).onQueue 3 4 (fun q => { q with fifos := [(3, [({ frame := { opcode := 0x18, vc := 3, dst := 0x30, length := 1, payload := fill 64 1 } } : QFrame)])] })).tickTo (10 ^ 9),
       3, 4, by decide +kernel⟩,
   ⟨((img []).onQueue 3 4 (fun q => { q with bel := { samples := 3 } })).asRole .operator, 9, 3, 4, 100, by decide +kernel⟩,
   ⟨((img []).onQueue 3 4 (fun q => { q with bel := { samples := 3 } })).asRole .operator, 9, 3, 4, 100, by decide +kernel⟩⟩

theorem witness_ImagesAreStagedAndJudged :
    (∃ (s : State) (tag : BitVec 16) (addr : BitVec 48) (words : List (BitVec 64)),
        s.performs ({ ty := 3, status := 0, tag := tag, addr := addr, len := words.length, words := words } : AdkFrame)
        ∧ addr.toNat < 2 ^ 28 ∧ addr.toNat % 8 = 0 ∧ 1 ≤ words.length ∧ words.length ≤ 64
        ∧ s.comp.stage = .empty ∨ s.comp.stage = .loading ∧ s.imgBusy = false
        ∧ addr.toNat + 8 * words.length ≤ s.imgLen.getD (2 ^ 28))
    ∧ (∃ (s : State) (tag : BitVec 16) (addr : BitVec 48) (words : List (BitVec 64)),
        s.performs ({ ty := 3, status := 0, tag := tag, addr := addr, len := words.length, words := words } : AdkFrame)
        ∧ addr.toNat < 2 ^ 28 ∧ addr.toNat % 8 = 0 ∧ 1 ≤ words.length ∧ words.length ≤ 64
        ∧ s.comp.stage = .staged ∨ s.comp.stage = .valid ∨ s.imgBusy = true)
    ∧ (∃ (s : State) (tag : BitVec 16), s.writes tag (cmpoAddr 0x008) 1 .operator ∧ s.comp.stage = .staged)
    ∧ (∃ (s : State) (tag : BitVec 16), s.writes tag (cmpoAddr 0x008) 1 .operator ∧ s.comp.stage ≠ .staged)
    ∧ (∃ (s : State), s.sd0Runs = true ∧ s.comp.validating = true)
    ∧ (∃ (s : State), s.comp.validating = false)
    ∧ (∃ (s : State) (tag : BitVec 16), s.writes tag (cmpoAddr 0x008) 2 .operator ∧ s.comp.stage = .valid ∧ s.imgDelta = false
        ∧ (s.mod.state = .boot ∨ s.mod.state = .recovery) ∧ s.imgBusy = false ∧ s.extentsHomed s.candidate = true)
    ∧ (∃ (s : State) (tag : BitVec 16), s.writes tag (cmpoAddr 0x008) 2 .operator ∧ s.comp.stage = .valid
        ∧ s.mod.state = .service)
    ∧ (∃ (s : State), s.sd0Runs = true ∧ s.comp.loading = true ∧ s.mod.state = .boot ∧ s.imgPolicy = [] ∧ s.imgGates = []
        ∧ s.portsChanged s.candidate = [])
    ∧ (∃ (s : State), s.comp.loading = false)
    ∧ (∃ (s : State) (tag : BitVec 16), s.writes tag (cmpoAddr 0x008) 4 .operator ∧ s.imgBusy = false)
    ∧ (∃ (s : State) (tag : BitVec 16), s.writes tag (cmpoAddr 0x008) 4 .operator ∧ s.imgBusy = true) :=
  ⟨⟨(img []).up, 9, 64, [1, 2], by decide +kernel⟩,
   ⟨(((img [])).onComp (fun c => { c with stage := .staged })).up, 9, 64, [1, 2], by decide +kernel⟩,
   ⟨((((img [])).onComp (fun c => { c with stage := .staged }))).asRole .operator, 9, by decide +kernel⟩,
   ⟨(img []).asRole .operator, 9, by decide +kernel⟩,
   ⟨(((img [])).onComp (fun c => { c with validating := true, stage := .staged })), by decide +kernel⟩,
   ⟨img [], by decide +kernel⟩,
   ⟨(((((img []).setExtent 1 {}).inState .boot |>.bootDone).onComp (fun c => { c with stage := .valid }))).asRole .operator, 9,
       by decide +kernel⟩,
   ⟨((((img [])).onComp (fun c => { c with stage := .valid }))).asRole .operator, 9, by decide +kernel⟩,
   ⟨((State.reset).onComp (fun c => { c with loading := true, stage := .valid, run := [] })).inState .boot |>.bootDone,
       by decide +kernel⟩,
   ⟨(((img [])).onComp (fun c => { c with loading := false })), by decide +kernel⟩,
   ⟨((((img [])).onComp (fun c => { c with stage := .staged }))).asRole .operator, 9, by decide +kernel⟩,
   ⟨((((img [])).onComp (fun c => { c with loading := true }))).asRole .operator, 9, by decide +kernel⟩⟩

theorem witness_EpochsFlipAndWindowsClose :
    (∃ (s : State) (tag : BitVec 16), s.writes tag (cmpoAddr 0x008) 3 .operator ∧ s.comp.stage = .valid ∧ s.imgDelta = true
        ∧ s.mod.state = .service ∧ s.comp.state = .idle ∧ s.clv.ids = [] ∧ s.atn.decodes = [] ∧ s.tier.moves = [])
    ∧ (∃ (s : State) (tag : BitVec 16), s.writes tag (cmpoAddr 0x008) 3 .operator ∧ s.comp.stage = .valid ∧ s.mod.state = .boot)
    ∧ (∃ (s : State), s.sd0Runs = true ∧ s.mod.state = .service ∧ s.comp.state = .preparing ∧ s.comp.flipAt = none
        ∧ s.workEnded s.candidate = true)
    ∧ (∃ (s : State), s.sd0Runs = true ∧ s.mod.state = .service ∧ s.comp.state = .preparing ∧ s.comp.flipAt = none
        ∧ s.workEnded s.candidate = false)
    ∧ (∃ (s : State) (f : FT), s.alive = true ∧ s.comp.state = .preparing ∧ s.comp.flipAt = some f ∧ f ≤ s.now
        ∧ s.imgPolicy = [] ∧ s.imgGates = [] ∧ s.portsChanged s.comp.shadow = [])
    ∧ (∃ (s : State) (f : FT), s.comp.flipAt = some f ∧ s.now < f)
    ∧ (∃ (s : State) (block : BitVec 45), s.alive = true ∧ s.awayBlock block.toNat = true ∧ s.req.reqs = []
        ∧ s.trayBusy (.fill block.toNat) = false ∧ s.slotBusy block.toNat = false ∧ (s.sector block.toNat).valid = 0)
    ∧ (∃ (s : State) (block : BitVec 45), s.alive = true ∧ s.awayBlock block.toNat = true ∧ s.req.reqs = []
        ∧ s.trayBusy (.fill block.toNat) = false ∧ s.slotBusy block.toNat = false ∧ (s.sector block.toNat).dirty = 0
        ∧ (s.page (pageOfBlock block.toNat)).res = 1)
    ∧ (∃ (s : State), s.alive = true ∧ s.comp.state = .window ∧ s.comp.byNote = false ∧ s.comp.winEnd ≤ s.now)
    ∧ (∃ (s : State), s.now < s.comp.winEnd)
    ∧ (∃ (s : State) (e : State) (port : BitVec 8) (f : Frame) (g : Frame), f.opcode = 0x63 ∧ s.takenAs port.toNat f = some g
        ∧ e = s.entered port.toNat f ∧ (e.link (s.base port.toNat)).cls = 2 ∧ (e.link (s.base port.toNat)).state = .opened
        ∧ field g.payload 2 1 = 1 ∧ BitVec.ofNat 4 (field g.payload 0 1) = e.comp.epoch + 1 ∧ e.comp.state = .idle
        ∧ e.comp.byNote = false)
    ∧ (∃ (s : State) (e : State) (port : BitVec 8) (f : Frame) (g : Frame), f.opcode = 0x63 ∧ s.takenAs port.toNat f = some g
        ∧ e = s.entered port.toNat f ∧ BitVec.ofNat 4 (field g.payload 0 1) = e.comp.epoch)
    ∧ (∃ (s : State) (index : BitVec 10) (f : FT), s.alive = true
        ∧ (Table.read ({} : Hof) s.comp.hofs index.toNat).timer = some f ∧ f ≤ s.now
        ∧ (s.extent (fpaExtent (64 * (Table.read ({} : Hof) s.comp.hofs index.toNat).line.toNat))).state = .active
        ∧ s.awayBlock ((Table.read ({} : Hof) s.comp.hofs index.toNat).line.toNat / 32) = false
        ∧ s.lineBusy (Table.read ({} : Hof) s.comp.hofs index.toNat).line.toNat = false
        ∧ (s.dirEntry (Table.read ({} : Hof) s.comp.hofs index.toNat).line.toNat).state = .i
        ∧ s.lineValid (Table.read ({} : Hof) s.comp.hofs index.toNat).line.toNat = true
        ∧ s.linePoison (Table.read ({} : Hof) s.comp.hofs index.toNat).line.toNat = false
        ∧ field (s.lineBytes (Table.read ({} : Hof) s.comp.hofs index.toNat).line.toNat) 4 1 = 2 ∧ s.req.reqs = []) :=
  ⟨⟨((((img [])).onComp (fun c => { c with stage := .valid, staged := [(6, 2)] }))).asRole .operator, 9, by decide +kernel⟩,
   ⟨(((((img [])).onComp (fun c => { c with stage := .valid, staged := [(6, 2)] })).inState .boot).bootDone).asRole .operator,
       9, by decide +kernel⟩,
   ⟨(((img [])).onComp (fun c => { c with state := .preparing, staged := [(6, 2)] })), by decide +kernel⟩,
   ⟨(((img [])).onComp (fun c => { c with state := .preparing })), by decide +kernel⟩,
   ⟨((run).onComp (fun c => { c with state := .preparing, flipAt := some 5, shadow := imgSections })).tickTo 9, 5,
       by decide +kernel⟩,
   ⟨(((img [])).onComp (fun c => { c with flipAt := some 5 })), 5, by decide +kernel⟩,
   ⟨(((img [])).onComp (fun c => { c with evac := [2 ^ 19 + 17, 2 ^ 19 + 16], state := .window, old := imgSections, winEnd := 5 })),
       2 ^ 19 + 17, by decide +kernel⟩,
   ⟨((((img [])).onComp (fun c => { c with evac := [2 ^ 19 + 17, 2 ^ 19 + 16], state := .window, old := imgSections, winEnd := 5 }))).withPg (512,
       { res := 1 }), 2 ^ 19 + 16, by decide +kernel⟩,
   ⟨(((img [])).onComp (fun c => { c with state := .window, old := imgSections, winEnd := 5 })).tickTo (10 ^ 6),
       by decide +kernel⟩,
   ⟨(((img [])).onComp (fun c => { c with winEnd := 5 })), by decide +kernel⟩,
   ⟨img [], ((img []).entered 3 ({ opcode := 0x63, vc := 6, dst := 0xFFFF, src := 0x30, tenant := 7, length := 1, tag := 9, payload := ([1, 0, 1] ++ fill 61 0) })),
       3, { opcode := 0x63, vc := 6, dst := 0xFFFF, src := 0x30, tenant := 7, length := 1, tag := 9, payload := ([1, 0, 1] ++ fill 61 0) },
       ((img []).takenAs 3 ({ opcode := 0x63, vc := 6, dst := 0xFFFF, src := 0x30, tenant := 7, length := 1, tag := 9, payload := ([1, 0, 1] ++ fill 61 0) })).getD {},
       by decide +kernel⟩,
   ⟨img [], ((img []).entered 3 ({ opcode := 0x63, vc := 6, dst := 0xFFFF, src := 0x30, tenant := 7, length := 1, tag := 9, payload := ([0, 0, 1] ++ fill 61 0) })),
       3, { opcode := 0x63, vc := 6, dst := 0xFFFF, src := 0x30, tenant := 7, length := 1, tag := 9, payload := ([0, 0, 1] ++ fill 61 0) },
       ((img []).takenAs 3 ({ opcode := 0x63, vc := 6, dst := 0xFFFF, src := 0x30, tenant := 7, length := 1, tag := 9, payload := ([0, 0, 1] ++ fill 61 0) })).getD {},
       by decide +kernel⟩,
   ⟨(((img [])).onComp (fun c => { c with hofs := [(3, { timer := some 5, line := (2 ^ 30 + 0x8000) / 64 })] })).hofLine |>.tickTo 9,
       3, 5, by decide +kernel⟩⟩

theorem witness_TenantsThroughTheirLife :
    (∃ (s : State) (tag : BitVec 16), s.writes tag (secAddr 0x20) 1 .operator ∧ (s.tenant s.sec.tcSel.toNat).state = .free
        ∧ s.evq.mask.getLsbD 0x56 = false ∧ s.evq.lost = 0 ∧ s.evq.queue.length < 4096)
    ∧ (∃ (s : State) (tag : BitVec 16), s.writes tag (secAddr 0x20) 1 .operator ∧ (s.tenant s.sec.tcSel.toNat).state ≠ .free)
    ∧ (∃ (s : State) (tag : BitVec 16), s.writes tag (secAddr 0x20) 2 .operator ∧ (s.tenant s.sec.tcSel.toNat).state = .active
        ∧ s.quiet ∧ s.tier.moves = [] ∧ s.tier.trays = [])
    ∧ (∃ (s : State) (tag : BitVec 16), s.writes tag (secAddr 0x20) 2 .operator ∧ (s.tenant s.sec.tcSel.toNat).state = .free)
    ∧ (∃ (s : State) (tag : BitVec 16), s.writes tag (secAddr 0x20) 2 .operator
        ∧ ((s.tenant s.sec.tcSel.toNat).state = .stopping ∨ (s.tenant s.sec.tcSel.toNat).state = .retired))
    ∧ (∃ (s : State) (tc : BitVec 10), s.alive = true ∧ (s.tenant tc.toNat).state = .stopping ∧ (s.tenant tc.toNat).tdStep = 5
        ∧ s.teardownReady tc.toNat = true)
    ∧ (∃ (s : State) (tc : BitVec 10), (s.tenant tc.toNat).state = .stopping ∧ s.teardownReady tc.toNat = false)
    ∧ (∃ (s : State) (tc : BitVec 10), s.alive = true ∧ (s.tenant tc.toNat).state = .stopping ∧ (s.tenant tc.toNat).tdStep = 6
        ∧ s.handlesBusy tc.toNat = false)
    ∧ (∃ (s : State) (tc : BitVec 10), s.alive = true ∧ (s.tenant tc.toNat).state = .retired ∧ s.mayFree tc.toNat = true)
    ∧ (∃ (s : State) (tc : BitVec 10), (s.tenant tc.toNat).state = .retired ∧ s.mayFree tc.toNat = false)
    ∧ (∃ (s : State) (tag : BitVec 16), s.writes tag (secAddr 0x20) 3 .operator
        ∧ ((s.tenant s.sec.tcSel.toNat).state = .free ∨ (s.tenant s.sec.tcSel.toNat).state = .active)
        ∧ s.tenantRuns s.sec.tcSel.toNat = false)
    ∧ (∃ (s : State) (tag : BitVec 16), s.writes tag (secAddr 0x20) 3 .operator
        ∧ ((s.tenant s.sec.tcSel.toNat).state = .stopping ∨ (s.tenant s.sec.tcSel.toNat).state = .retired ∨ s.tenantRuns s.sec.tcSel.toNat = true))
    ∧ (∃ (s : State) (tag : BitVec 16) (value : BitVec 64), s.writes tag (secAddr 0x28) value .operator) :=
  ⟨⟨((let y := run; { y with sec := { y.sec with tcSel := 7 } })).asRole .operator, 9, by decide +kernel⟩,
   ⟨((let y := ((run).onTenant 7 (fun x => { x with state := .active })); { y with sec := { y.sec with tcSel := 7 } })).asRole .operator,
       9, by decide +kernel⟩,
   ⟨((let y := ((((img []).setExtent 3 { (img []).extent 1 with state := .active, tenant := 7 })).onTenant 7 (fun x => { x with state := .active })); { y with sec := { y.sec with tcSel := 7 } })).asRole .operator,
       9, by decide +kernel⟩,
   ⟨((let y := run; { y with sec := { y.sec with tcSel := 7 } })).asRole .operator, 9, by decide +kernel⟩,
   ⟨((let y := ((run).onTenant 7 (fun x => { x with state := .retired })); { y with sec := { y.sec with tcSel := 7 } })).asRole .operator,
       9, by decide +kernel⟩,
   ⟨((run).onTenant 7 (fun x => { x with state := .stopping, tdStep := 5 })), 7, by decide +kernel⟩,
   ⟨((((img []).setExtent 3 { (img []).extent 1 with state := .active, tenant := 7 })).onTenant 7 (fun x => { x with state := .stopping, tdStep := 5 })),
       7, by decide +kernel⟩,
   ⟨(((img [(1,5)])).onTenant 7 (fun x => { x with state := .stopping, tdStep := 6 })), 7, by decide +kernel⟩,
   ⟨((run).onTenant 7 (fun x => { x with state := .retired })), 7, by decide +kernel⟩,
   ⟨((((img []).setExtent 3 { (img []).extent 1 with state := .active, tenant := 7 })).onTenant 7 (fun x => { x with state := .retired })),
       7, by decide +kernel⟩,
   ⟨((let y := run; { y with sec := { y.sec with tcSel := 7 } })).asRole .operator, 9, by decide +kernel⟩,
   ⟨((let y := ((img []).onTenant 7 (fun x => { x with state := .retired })); { y with sec := { y.sec with tcSel := 7 } })).asRole .operator,
       9, by decide +kernel⟩,
   ⟨(run).asRole .operator, 9, 77, by decide +kernel⟩⟩

theorem witness_RolesOfTheInstallerAndTheMaker :
    (∃ (s : State) (tag : BitVec 16), s.writes tag (secAddr 8) 1 .operator)
    ∧ (∃ (s : State) (tag : BitVec 16), s.writes tag (secAddr 8) 2 .operator)
    ∧ (∃ (s : State) (e : FT), s.sec.instEnd = some e ∧ e ≤ s.now)
    ∧ (∃ (s : State) (e : FT), s.sec.instEnd = some e ∧ s.now < e)
    ∧ (∃ (s : State) (since : BitVec 64), s.sd0Runs = true ∧ s.stable since debounceT = true)
    ∧ (∃ (s : State) (since : BitVec 64), s.sd0Runs = true ∧ s.stable since debounceT = true)
    ∧ (∃ (s : State) (since : BitVec 64), s.sd0Runs = true ∧ s.stable since debounceT = true ∧ s.sec.sealOpen = false)
    ∧ (∃ (s : State) (since : BitVec 64), s.sd0Runs = true ∧ s.stable since debounceT = true)
    ∧ (∃ (s : State) (fitted : Bool) (since : BitVec 64), s.sd0Runs = true ∧ s.stable since debounceT = true)
    ∧ (∃ (s : State) (fitted : Bool) (since : BitVec 64), s.sd0Runs = false ∨ s.stable since debounceT = false)
    ∧ (∃ (s : State) (since : BitVec 64), s.sd0Runs = false ∨ s.stable since debounceT = false) :=
  ⟨⟨(run).asRole .operator, 9, by decide +kernel⟩,
   ⟨(run).asRole .operator, 9, by decide +kernel⟩,
   ⟨(run.asRole .installer).tickTo 2000, 1000, by decide +kernel⟩,
   ⟨(run.asRole .installer), 1000, by decide +kernel⟩,
   ⟨run.tickTo (10 ^ 9), 0, by decide +kernel⟩,
   ⟨run.tickTo (10 ^ 9), 0, by decide +kernel⟩,
   ⟨(let y := run.tickTo (10 ^ 9); { y with sec := { y.sec with jmp := true } }), 0, by decide +kernel⟩,
   ⟨(run.asRole .maker).tickTo (10 ^ 9), 0, by decide +kernel⟩,
   ⟨run.tickTo (10 ^ 9), true, 0, by decide +kernel⟩,
   ⟨State.reset.powerOff, true, 0, by decide +kernel⟩,
   ⟨run, 0, by decide +kernel⟩⟩

theorem witness_FirmwareAndAttestation :
    (∃ (s : State) (tag : BitVec 16), s.writes tag (secAddr 0x108) 1 .operator ∧ s.sec.fwStage = .staged
        ∧ s.sec.fwVerifying = false)
    ∧ (∃ (s : State) (tag : BitVec 16), s.writes tag (secAddr 0x108) 1 .operator
        ∧ (s.sec.fwStage ≠ .staged ∨ s.sec.fwVerifying = true))
    ∧ (∃ (s : State), s.sd0Runs = true ∧ s.sec.fwVerifying = true)
    ∧ (∃ (s : State), s.sec.fwVerifying = false)
    ∧ (∃ (s : State) (tag : BitVec 16), s.writes tag (secAddr 0x108) 2 .installer ∧ s.sec.fwStage = .verified
        ∧ s.sec.fwCommitting = false ∧ s.sec.svnMin.toNat ≤ s.fwSvn)
    ∧ (∃ (s : State) (tag : BitVec 16), s.writes tag (secAddr 0x108) 2 .installer
        ∧ (s.sec.fwStage ≠ .verified ∨ s.fwSvn < s.sec.svnMin.toNat))
    ∧ (∃ (s : State), s.sd0Runs = true ∧ s.sec.fwCommitting = true)
    ∧ (∃ (s : State), s.sd0Runs = true ∧ s.sec.fwCommitting = true)
    ∧ (∃ (s : State) (tag : BitVec 16), s.writes tag (secAddr 0x108) 3 .installer)
    ∧ (∃ (s : State) (tag : BitVec 16), s.writes tag (secAddr 0x160) 1 .operator)
    ∧ (∃ (s : State) (tag : BitVec 16), s.writes tag (secAddr 0x160) 2 .operator) :=
  ⟨⟨((let y := run; { y with sec := { y.sec with fwStage := .staged } })).asRole .operator, 9, by decide +kernel⟩,
   ⟨(run).asRole .operator, 9, by decide +kernel⟩,
   ⟨(let y := run; { y with sec := { y.sec with fwVerifying := true } }), by decide +kernel⟩,
   ⟨run, by decide +kernel⟩,
   ⟨(((let y := run; { y with sec := { y.sec with fwStage := .verified, fwBytes := [(4, 9)] } })).asRole .installer), 9,
       by decide +kernel⟩,
   ⟨((run).asRole .installer), 9, by decide +kernel⟩,
   ⟨(let y := run; { y with sec := { y.sec with fwCommitting := true } }), by decide +kernel⟩,
   ⟨(let y := run; { y with sec := { y.sec with fwCommitting := true } }), by decide +kernel⟩,
   ⟨((run).asRole .installer), 9, by decide +kernel⟩,
   ⟨(run).asRole .operator, 9, by decide +kernel⟩,
   ⟨(run).asRole .operator, 9, by decide +kernel⟩⟩

theorem witness_DiesAreWatched :
    (∃ (s : State) (site : BitVec 6) (temp : BitVec 8) (vdd : BitVec 16), s.mod.state ≠ .off ∧ s.mod.state ≠ .halt
        ∧ ((s.die site.toNat).sampledAt = 0 ∨ (s.die site.toNat).sampledAt + 100 * usT ≤ s.now) ∧ temp.toInt < 105
        ∧ ((s.die site.toNat).level ≠ 0 ∨ temp.toInt < s.log.throttleC.toInt))
    ∧ (∃ (s : State) (site : BitVec 6) (temp : BitVec 8) (vdd : BitVec 16), s.mod.state ≠ .off ∧ s.mod.state ≠ .halt
        ∧ ((s.die site.toNat).sampledAt = 0 ∨ (s.die site.toNat).sampledAt + 100 * usT ≤ s.now) ∧ temp.toInt < 105
        ∧ (s.die site.toNat).level = 0 ∧ s.log.throttleC.toInt ≤ temp.toInt)
    ∧ (∃ (s : State) (site : BitVec 6) (temp : BitVec 8) (vdd : BitVec 16), s.mod.state ≠ .off ∧ s.mod.state ≠ .halt
        ∧ ((s.die site.toNat).sampledAt = 0 ∨ (s.die site.toNat).sampledAt + 100 * usT ≤ s.now) ∧ 105 ≤ temp.toInt
        ∧ 1 ≤ (s.die site.toNat).hotRun)
    ∧ (∃ (s : State) (site : BitVec 6) (temp : BitVec 8) (vdd : BitVec 16), (s.die site.toNat).sampledAt ≠ 0
        ∧ s.now < (s.die site.toNat).sampledAt + 100 * usT)
    ∧ (∃ (s : State) (site : BitVec 6), s.mod.state ≠ .off ∧ (s.die site.toNat).level = 1
        ∧ s.log.throttleC.toInt ≤ (s.die site.toNat).temp.toInt ∧ (s.die site.toNat).levelAt + msT ≤ s.now)
    ∧ (∃ (s : State) (site : BitVec 6), (s.die site.toNat).temp.toInt < s.log.throttleC.toInt)
    ∧ (∃ (s : State) (site : BitVec 6), s.mod.state ≠ .off ∧ 0 < (s.die site.toNat).level.toNat
        ∧ (s.die site.toNat).hotAt + 10 * msT ≤ s.now)
    ∧ (∃ (s : State), s.alive = true ∧ s.periodDue 3 = true ∧ s.inTurn 3 (s.periodAt 3) = true)
    ∧ (∃ (s : State) (h : EccHit), s.alive = true ∧ s.periodDue 3 = true ∧ s.inTurn 3 (s.periodAt 3) = true
        ∧ 1 ≤ h.symbols.toNat ∧ h.symbols.toNat ≤ 2 ∧ s.log.cntCe.toNat + 2 < 2 ^ 64)
    ∧ (∃ (s : State) (h : EccHit), s.alive = true ∧ s.periodDue 3 = true ∧ s.inTurn 3 (s.periodAt 3) = true
        ∧ 3 ≤ h.symbols.toNat ∧ h.symbols.toNat ≤ 4 ∧ h.what = 0 ∧ s.log.cntUe.toNat + 2 < 2 ^ 64)
    ∧ (∃ (s : State) (cl : Nat), s.alive = true ∧ s.periodDue 5 = true ∧ s.inTurn 5 (s.periodAt 5) = true ∧ s.log.stestEn = true
        ∧ s.log.passLeft = [] ∧ cl < 128 ∧ s.clusterUp cl = true ∧ Table.read [] s.log.testing cl = []
        ∧ Table.read [] s.log.skipped cl = []
        ∧ (s.engine (rotationAt cl (Table.read 0 s.log.rotation cl % 32)).1 (rotationAt cl (Table.read 0 s.log.rotation cl % 32)).2).queue = [])
    ∧ (∃ (s : State) (cl : Nat), s.alive = true ∧ s.periodDue 5 = true ∧ s.inTurn 5 (s.periodAt 5) = true ∧ s.log.stestEn = true
        ∧ s.log.passLeft = [] ∧ cl < 128 ∧ s.clusterUp cl = true ∧ Table.read [] s.log.testing cl = []
        ∧ Table.read [] s.log.skipped cl = []
        ∧ (s.engine (rotationAt cl (Table.read 0 s.log.rotation cl % 32)).1 (rotationAt cl (Table.read 0 s.log.rotation cl % 32)).2).queue ≠ [])
    ∧ (∃ (s : State), s.periodDue 5 = false)
    ∧ (∃ (s : State) (cluster : BitVec 7) (r : Nat) (p : Nat), s.alive = true ∧ Table.read [] s.log.testing cluster.toNat = [r]
        ∧ r < 32 ∧ nextPattern s.log.patEn (Table.read 0 s.log.pattern cluster.toNat) (rotationAt cluster.toNat r).2 = some p)
    ∧ (∃ (s : State) (cluster : BitVec 7) (r : Nat) (p : Nat), s.alive = true ∧ Table.read [] s.log.testing cluster.toNat = [r]
        ∧ r < 32 ∧ nextPattern s.log.patEn (Table.read 0 s.log.pattern cluster.toNat) (rotationAt cluster.toNat r).2 = some p) :=
  ⟨⟨run, 5, 60, 700, by decide +kernel⟩,
   ⟨run, 5, 100, 700, by decide +kernel⟩,
   ⟨((run).onDie 5 (fun d => { d with hotRun := 1 })), 5, 110, 700, by decide +kernel⟩,
   ⟨((run).onDie 5 (fun d => { d with sampledAt := 1 })).tickTo 2, 5, 60, 700, by decide +kernel⟩,
   ⟨(((run.tickTo (10 ^ 18))).onDie 5 (fun d => { d with level := 1, temp := 100 })), 5, by decide +kernel⟩,
   ⟨run, 5, by decide +kernel⟩,
   ⟨(((run.tickTo (10 ^ 18))).onDie 5 (fun d => { d with level := 2, temp := 60 })), 5, by decide +kernel⟩,
   ⟨(run.tickTo (10 ^ 18)), by decide +kernel⟩,
   ⟨(run.tickTo (10 ^ 18)), { what := 0, index := 5, symbols := 1 }, by decide +kernel⟩,
   ⟨(run.tickTo (10 ^ 18)), { what := 0, index := 5, symbols := 4 }, by decide +kernel⟩,
   ⟨(let y := (let y := (run.tickTo (10 ^ 18)); { y with tim := { y.tim with lastHeat := 10 ^ 18, lastScrub := 10 ^ 18 } }); { y with log := { y.log with stestEn := true } }).onComp (fun c => { c with run := imgSections }),
       0, by decide +kernel⟩,
   ⟨((let y := (let y := (run.tickTo (10 ^ 18)); { y with tim := { y.tim with lastHeat := 10 ^ 18, lastScrub := 10 ^ 18 } }); { y with log := { y.log with stestEn := true } }).onComp (fun c => { c with run := imgSections })).onEngine 0 0 (fun x => { x with queue := [{ tid := 0, desc := 0 }] }),
       0, by decide +kernel⟩,
   ⟨run, by decide +kernel⟩,
   ⟨(let y := run; { y with log := { y.log with testing := [(0, [5])] } }), 0, 5, 3, by decide +kernel⟩,
   ⟨(let y := run; { y with log := { y.log with testing := [(0, [5])] } }), 0, 5, 3, by decide +kernel⟩⟩

theorem witness_AuditMarginsLogAndEvents :
    (∃ (s : State), s.alive = true ∧ s.log.lastAudit + s.log.auditUs.toNat * usT ≤ s.now)
    ∧ (∃ (s : State) (x : BitVec 4 × BitVec 24), s.alive = true ∧ s.log.lastAudit + s.log.auditUs.toNat * usT ≤ s.now
        ∧ 1 ≤ x.1.toNat ∧ x.1.toNat ≤ 6 ∧ Table.read 0 s.log.disagree (2 ^ 24 * x.1.toNat + x.2.toNat) < 3)
    ∧ (∃ (s : State) (x : BitVec 4 × BitVec 24), s.alive = true ∧ s.log.lastAudit + s.log.auditUs.toNat * usT ≤ s.now
        ∧ 1 ≤ x.1.toNat ∧ x.1.toNat ≤ 6 ∧ Table.read 0 s.log.disagree (2 ^ 24 * x.1.toNat + x.2.toNat) = 3
        ∧ s.isFenced x.1.toNat x.2.toNat = false)
    ∧ (∃ (s : State) (tag : BitVec 16), s.writes tag (logAddr 0xA0) 2 .operator ∧ s.log.fenceKind.toNat ≤ 6
        ∧ Table.read 0 s.log.disagree (2 ^ 24 * s.log.fenceKind.toNat + s.log.fenceIdx.toNat) = 0
        ∧ s.isFenced s.log.fenceKind.toNat s.log.fenceIdx.toNat = true ∧ s.evq.mask.getLsbD 0x5A = false ∧ s.evq.lost = 0
        ∧ s.evq.queue.length < 4096)
    ∧ (∃ (s : State) (tag : BitVec 16), s.writes tag (logAddr 0xA0) 2 .operator
        ∧ Table.read 0 s.log.disagree (2 ^ 24 * s.log.fenceKind.toNat + s.log.fenceIdx.toNat) ≠ 0)
    ∧ (∃ (s : State) (m : Measure) (v : BitVec 16) (held : BitVec 32), s.alive = true ∧ s.periodDue 6 = true
        ∧ s.inTurn 6 (s.periodAt 6) = true ∧ m.kind.toNat ≤ 4 ∧ m.value = some v ∧ v.toInt ≤ (s.marginTh m.kind.toNat).2.toInt)
    ∧ (∃ (s : State) (m : Measure) (v : BitVec 16) (held : BitVec 32), s.alive = true ∧ s.periodDue 6 = true
        ∧ s.inTurn 6 (s.periodAt 6) = true ∧ m.kind.toNat ≤ 4 ∧ m.value = some v ∧ (s.marginTh m.kind.toNat).2.toInt < v.toInt
        ∧ (s.marginTh m.kind.toNat).1.toInt < v.toInt
        ∧ marginBack (s.marginTh m.kind.toNat).1.toInt s.log.hystPct.toNat ≤ v.toInt)
    ∧ (∃ (s : State) (tag : BitVec 16), s.writes tag (logAddr 0x30) 1 .installer)
    ∧ (∃ (s : State) (tag : BitVec 16) (len : BitVec 16) (addr : BitVec 48) (e : Nat × LogEntry) (rest : List (Nat × LogEntry)),
        s.performs { ty := 4, status := 0, tag := tag, addr := addr, len := len.toNat, words := [] }
        ∧ logForm addr.toNat len.toNat = true ∧ s.log.entries = e :: rest)
    ∧ (∃ (s : State), s.adk.state = .up ∧ s.adk.outq = [] ∧ s.adk.unacked.length < 64
        ∧ 0 < (min (min 16 (s.adk.evInit + s.adk.evCredit - s.adk.evSent).toNat) (s.evq.queue.length - s.evq.sent)))
    ∧ (∃ (s : State), s.adk.state ≠ .up) :=
  ⟨⟨(run.tickTo (10 ^ 18)), by decide +kernel⟩,
   ⟨(run.tickTo (10 ^ 18)), (1, 3), by decide +kernel⟩,
   ⟨(let y := (run.tickTo (10 ^ 18)); { y with log := { y.log with disagree := [(2 ^ 24 + 3, 3)] } }), (1, 3),
       by decide +kernel⟩,
   ⟨((let y := run; { y with log := { y.log with fenced := [(2 ^ 24 + 3, true)], fenceKind := 1, fenceIdx := 3 } })).asRole .operator,
       9, by decide +kernel⟩,
   ⟨((let y := run; { y with log := { y.log with disagree := [(2 ^ 24 + 3, 3)], fenceKind := 1, fenceIdx := 3 } })).asRole .operator,
       9, by decide +kernel⟩,
   ⟨(let y := (run.tickTo (10 ^ 18)); { y with tim := { y.tim with lastHeat := 10 ^ 18, lastScrub := 10 ^ 18, lastSelf := 10 ^ 18 } }),
       { kind := 2, index := 5, value := some 3 }, 3, 1, by decide +kernel⟩,
   ⟨(let y := (run.tickTo (10 ^ 18)); { y with tim := { y.tim with lastHeat := 10 ^ 18, lastScrub := 10 ^ 18, lastSelf := 10 ^ 18 } }),
       { kind := 2, index := 5, value := some 3000 }, 3000, 0, by decide +kernel⟩,
   ⟨(((run.logE 0x0D 1 0 0 false)).asRole .installer), 9, by decide +kernel⟩,
   ⟨(run.logE 0x0D 1 0 0 false).up, 9, 8, 0, ((run.logE 0x0D 1 0 0 false).log.entries.headD (0, ⟨0, 0, 0, 0, 0, 0, 0, 0⟩)), [],
       by decide +kernel⟩,
   ⟨(let y := (run.event 0x44 0 5 0).up; { y with adk := { y.adk with evInit := 4 } }), by decide +kernel⟩,
   ⟨run, by decide +kernel⟩⟩

theorem witness_StatesOfTheModule :
    (∃ (s : State) (tag : BitVec 16), s.writes tag modCmdAddr 1 .operator ∧ s.serviceAllowed = true ∧ s.glb.makerMode = 0)
    ∧ (∃ (s : State) (tag : BitVec 16), s.writes tag modCmdAddr 1 .operator ∧ s.serviceAllowed = false)
    ∧ (∃ (s : State) (tag : BitVec 16), s.writes tag modCmdAddr 2 .operator ∧ s.mod.state = .service ∧ s.quiet
        ∧ s.tier.moves = [] ∧ s.tier.trays = [] ∧ s.tier.reqs = [] ∧ s.tier.makeRoom = [] ∧ s.req.fences = [] ∧ s.req.held = []
        ∧ s.xl.walks = [])
    ∧ (∃ (s : State) (tag : BitVec 16), s.writes tag modCmdAddr 2 .operator ∧ s.mod.state ≠ .service)
    ∧ (∃ (s : State) (tag : BitVec 16), s.writes tag modCmdAddr 3 .operator ∧ s.mod.state = .service ∧ s.quiet
        ∧ s.tier.moves = [] ∧ s.tier.trays = [] ∧ s.tier.reqs = [] ∧ s.tier.makeRoom = [] ∧ s.req.fences = [] ∧ s.req.held = []
        ∧ s.xl.walks = [])
    ∧ (∃ (s : State) (tag : BitVec 16), s.writes tag modCmdAddr 3 .operator ∧ s.mod.state ≠ .service
        ∧ (s.mod.state ≠ .drain ∨ s.mod.ready = true))
    ∧ (∃ (s : State) (tag : BitVec 16), s.writes tag modCmdAddr 4 .operator)
    ∧ (∃ (s : State) (report : BootReport), s.mod.state = .boot ∧ s.mod.bootStep = 0)
    ∧ (∃ (s : State) (report : BootReport), s.mod.state = .boot ∧ s.mod.bootStep = 1 ∧ report.ok = true ∧ report.bank0 = true
        ∧ report.bank1 = false ∧ s.sec.svnMin.toNat ≤ (Table.read ({} : FwBank) s.sec.banks 0).svn)
    ∧ (∃ (s : State) (report : BootReport), s.mod.state = .boot ∧ s.mod.bootStep = 1 ∧ report.bank0 = false
        ∧ report.bank1 = false)
    ∧ (∃ (s : State) (report : BootReport) (m : List (BitVec 6)), s.mod.state = .boot ∧ s.mod.bootStep = 2 ∧ report.ok = true
        ∧ report.sealOpen = false ∧ s.pkg.spareSlots = [(m, mapCrc m)] ∧ mapValid m = true)
    ∧ (∃ (s : State) (report : BootReport), s.mod.state = .boot ∧ s.mod.bootStep = 3 ∧ report.ok = true
        ∧ report.routerFailed = false ∧ report.clusters = 0)
    ∧ (∃ (s : State) (report : BootReport), s.mod.state = .boot ∧ s.mod.bootStep = 3 ∧ report.routerFailed = true)
    ∧ (∃ (s : State) (report : BootReport), s.mod.state = .boot ∧ s.mod.bootStep = 4 ∧ report.ok = true)
    ∧ (∃ (s : State) (report : BootReport), s.mod.state = .boot ∧ s.mod.bootStep = 4 ∧ report.ok = false
        ∧ s.mod.stepFailed = false)
    ∧ (∃ (s : State) (report : BootReport), s.mod.state = .boot ∧ s.mod.bootStep = 4 ∧ report.ok = false
        ∧ s.mod.stepFailed = true)
    ∧ (∃ (s : State) (report : BootReport), s.mod.state = .boot ∧ s.mod.bootStep = 5 ∧ report.ok = true
        ∧ s.evq.mask.getLsbD 0x42 = false ∧ s.evq.lost = 0 ∧ s.evq.queue.length < 4096)
    ∧ (∃ (s : State) (report : BootReport), s.mod.state ≠ .boot)
    ∧ (∃ (s : State), s.mod.state = .test ∧ s.mod.testDone = false ∧ s.mod.testWork = 0)
    ∧ (∃ (s : State), s.mod.state = .test ∧ s.mod.testDone = false ∧ s.mod.testWork = 1 ∧ s.evq.mask.getLsbD 0x43 = false
        ∧ s.evq.lost = 0 ∧ s.evq.queue.length < 4096)
    ∧ (∃ (s : State), s.mod.state = .test ∧ s.mod.testDone = false ∧ s.mod.stepFailed = false)
    ∧ (∃ (s : State), s.mod.state = .test ∧ s.mod.testDone = false ∧ s.mod.stepFailed = true)
    ∧ (∃ (s : State) (ok : Bool), s.mod.state ≠ .test) :=
  ⟨⟨((let x := run.locked; { x with mod := { x.mod with state := .test, testDone := true }, lse := { x.lse with tab := [(3, { state := .unarmed })] } })).asRole .operator,
      9, by decide +kernel⟩,
   ⟨(run).asRole .operator, 9, by decide +kernel⟩,
   ⟨(((let x := img []; { x with lse := { x.lse with tab := [(3, { state := .armed })] } }).setExtent 3 { (img []).extent 1 with state := .active, tenant := 7 })).asRole .operator,
       9, by decide +kernel⟩,
   ⟨(run.inState .test).asRole .operator, 9, by decide +kernel⟩,
   ⟨(((let x := img []; { x with lse := { x.lse with tab := [(3, { state := .armed })] } }).setExtent 3 { (img []).extent 1 with state := .active, tenant := 7 })).asRole .operator,
       9, by decide +kernel⟩,
   ⟨(run.inState .test).asRole .operator, 9, by decide +kernel⟩,
   ⟨(run).asRole .operator, 9, by decide +kernel⟩,
   ⟨(let y := run; { y with mod := { y.mod with state := .boot, bootStep := 0 } }), {}, by decide +kernel⟩,
   ⟨(let y := run; { y with mod := { y.mod with state := .boot, bootStep := 1 } }), { bank0 := true, bank1 := false },
       by decide +kernel⟩,
   ⟨(let y := run; { y with mod := { y.mod with state := .boot, bootStep := 1 } }), { bank0 := false, bank1 := false },
       by decide +kernel⟩,
   ⟨(let y := (let y := run; { y with mod := { y.mod with state := .boot, bootStep := 2 } }); { y with pkg := { y.pkg with spareSlots := [(((List.range 32).map (fun i => BitVec.ofNat 6 i)), mapCrc ((List.range 32).map (fun i => BitVec.ofNat 6 i)))] } }),
       {}, ((List.range 32).map (fun i => BitVec.ofNat 6 i)), by decide +kernel⟩,
   ⟨(let y := run; { y with mod := { y.mod with state := .boot, bootStep := 3 } }), {}, by decide +kernel⟩,
   ⟨(let y := run; { y with mod := { y.mod with state := .boot, bootStep := 3 } }), { routerFailed := true },
       by decide +kernel⟩,
   ⟨(let y := run; { y with mod := { y.mod with state := .boot, bootStep := 4 } }), {}, by decide +kernel⟩,
   ⟨(let y := run; { y with mod := { y.mod with state := .boot, bootStep := 4 } }), { ok := false }, by decide +kernel⟩,
   ⟨(let y := run; { y with mod := { y.mod with state := .boot, bootStep := 4, stepFailed := true } }), { ok := false },
       by decide +kernel⟩,
   ⟨(let y := run; { y with mod := { y.mod with state := .boot, bootStep := 5 } }), {}, by decide +kernel⟩,
   ⟨run, {}, by decide +kernel⟩,
   ⟨(let y := run; { y with mod := { y.mod with state := .test } }), by decide +kernel⟩,
   ⟨(let y := run; { y with mod := { y.mod with state := .test, testWork := 1 } }), by decide +kernel⟩,
   ⟨(let y := run; { y with mod := { y.mod with state := .test } }), by decide +kernel⟩,
   ⟨(let y := run; { y with mod := { y.mod with state := .test, stepFailed := true } }), by decide +kernel⟩,
   ⟨run, true, by decide +kernel⟩⟩

theorem witness_DrainAndRecoveryRun :
    (∃ (s : State) (e : Nat × Extent), s.mod.state = .drain ∧ s.mod.drainStep = 2 ∧ e ∈ s.ext.tab
        ∧ (e.2.state = .active ∨ e.2.state = .revoking))
    ∧ (∃ (s : State), s.mod.state = .drain ∧ s.mod.drainStep = 2 ∧ s.ext.tab = [] ∧ s.tier.sectors = [])
    ∧ (∃ (s : State), s.mod.state = .drain ∧ s.mod.drainStep = 3 ∧ s.tier.sectors = [])
    ∧ (∃ (s : State) (b : Nat) (x : Sector), s.mod.state = .drain ∧ s.mod.drainStep = 3 ∧ s.tier.sectors = [(b, x)]
        ∧ x.dirty ≠ 0 ∧ ((s.page (pageOfBlock b)).res = 3 ∨ (s.page (pageOfBlock b)).res = 0))
    ∧ (∃ (s : State) (b : Nat) (x : Sector), s.mod.state = .drain ∧ s.mod.drainStep = 3 ∧ s.tier.sectors = [(b, x)]
        ∧ x.dirty ≠ 0 ∧ (s.page (pageOfBlock b)).res ≠ 3 ∧ (s.page (pageOfBlock b)).res ≠ 0
        ∧ (s.page (pageOfBlock b)).moving = true)
    ∧ (∃ (s : State), s.mod.state = .drain ∧ s.mod.drainStep = 4 ∧ s.bridgeBusy = true)
    ∧ (∃ (s : State), s.mod.state = .drain ∧ s.mod.drainStep = 4 ∧ s.bridgeBusy = false ∧ s.quiet ∧ s.tier.moves = []
        ∧ s.tier.trays = [] ∧ s.tier.reqs = [] ∧ s.tier.makeRoom = [] ∧ s.req.fences = [] ∧ s.req.held = [] ∧ s.xl.walks = [])
    ∧ (∃ (s : State), s.mod.state ≠ .drain)
    ∧ (∃ (s : State), s.mod.state = .recovery ∧ s.log.rcvStep = 1)
    ∧ (∃ (s : State) (r : Req), s.mod.state = .recovery ∧ s.log.rcvStep = 2 ∧ r ∈ s.req.reqs ∧ r.origin.internal = true)
    ∧ (∃ (s : State) (a : Nat) (n : Nat), s.mod.state = .recovery ∧ s.log.rcvStep = 2 ∧ s.req.reqs = [] ∧ s.log.badExt = []
        ∧ s.log.badLocal = [(0, a, n)])
    ∧ (∃ (s : State) (e : Nat × Extent), s.mod.state = .recovery ∧ s.log.rcvStep = 3 ∧ e ∈ s.ext.tab ∧ e.2.state = .scrubbing
        ∧ e.2.lastValid = false)
    ∧ (∃ (s : State), s.mod.state = .recovery ∧ s.log.rcvStep = 3 ∧ s.ext.tab = [])
    ∧ (∃ (s : State), s.mod.state = .recovery ∧ s.log.rcvStep = 4 ∧ s.log.passLeft ≠ [])
    ∧ (∃ (s : State), s.mod.state = .recovery ∧ s.log.rcvStep = 4 ∧ s.log.passLeft = [])
    ∧ (∃ (s : State), s.mod.state = .recovery ∧ s.log.rcvStep = 5)
    ∧ (∃ (s : State), s.mod.state ≠ .recovery) :=
  ⟨⟨(let y := ((run).setExtent 3 { state := .active }); { y with mod := { y.mod with state := .drain, drainStep := 2 } }),
      (3, { state := .active }), by decide +kernel⟩,
   ⟨(let y := run; { y with mod := { y.mod with state := .drain, drainStep := 2 } }), by decide +kernel⟩,
   ⟨(let y := run; { y with mod := { y.mod with state := .drain, drainStep := 3 } }), by decide +kernel⟩,
   ⟨(let y := (let y := run; { y with mod := { y.mod with state := .drain, drainStep := 3 } }); { y with tier := { y.tier with sectors := [(4, { dirty := 3 })] } }),
       4, { dirty := 3 }, by decide +kernel⟩,
   ⟨(let y := (let y := run; { y with mod := { y.mod with state := .drain, drainStep := 3 } }); { y with tier := { y.tier with sectors := [(4, { dirty := 3 })], pages := [(0, { res := 1, moving := true })] } }),
       4, { dirty := 3 }, by decide +kernel⟩,
   ⟨(let y := (let y := run; { y with mod := { y.mod with state := .drain, drainStep := 4 } }); { y with tier := { y.tier with reqs := [{ tag := 1, tray := 257, op := .bitmap 0, timer := 0 }] } }),
       by decide +kernel⟩,
   ⟨(let y := ((run.onLink 3 (fun l => { l with state := .opened, cls := 2 })).onLink 40 (fun l => { l with state := .training })); { y with mod := { y.mod with state := .drain, drainStep := 4 } }),
       by decide +kernel⟩,
   ⟨run, by decide +kernel⟩,
   ⟨(let y := (let y := run; { y with mod := { y.mod with state := .recovery } }); { y with log := { y.log with rcvStep := 1 } }),
       by decide +kernel⟩,
   ⟨(let y := (let y := (run.withReq { n := 5, origin := .coll 3 5, frame := { opcode := 0x80, vc := 5, src := 0x30, dst := 0x20, tenant := 7, tag := 9, length := 1, payload := 1 :: fill 63 0 }, stage := .ordered }); { y with mod := { y.mod with state := .recovery } }); { y with log := { y.log with rcvStep := 2 } }),
       { n := 5, origin := .coll 3 5, frame := { opcode := 0x80, vc := 5, src := 0x30, dst := 0x20, tenant := 7, tag := 9, length := 1, payload := 1 :: fill 63 0 }, stage := .ordered },
       by decide +kernel⟩,
   ⟨(let y := (let y := run; { y with mod := { y.mod with state := .recovery } }); { y with log := { y.log with rcvStep := 2, badLocal := [(0, 0x500040, 64)] } }),
       0x500040, 64, by decide +kernel⟩,
   ⟨(let y := (let y := (run.setExtent 3 { state := .scrubbing }); { y with mod := { y.mod with state := .recovery } }); { y with log := { y.log with rcvStep := 3 } }),
       (3, { state := .scrubbing }), by decide +kernel⟩,
   ⟨(let y := (let y := run.noExt; { y with mod := { y.mod with state := .recovery } }); { y with log := { y.log with rcvStep := 3 } }),
       by decide +kernel⟩,
   ⟨(let y := (let y := run; { y with mod := { y.mod with state := .recovery } }); { y with log := { y.log with rcvStep := 4, passLeft := [(3, 4)] } }),
       by decide +kernel⟩,
   ⟨(let y := (let y := run; { y with mod := { y.mod with state := .recovery } }); { y with log := { y.log with rcvStep := 4, fenced := [(2 ^ 24 + 3, true), (2 ^ 25 + 4, true)], disagree := [(2 ^ 25 + 4, 2)] } }),
       by decide +kernel⟩,
   ⟨(let y := (let y := run; { y with mod := { y.mod with state := .recovery } }); { y with log := { y.log with rcvStep := 5 } }),
       by decide +kernel⟩,
   ⟨run, by decide +kernel⟩⟩

theorem witness_PowerAndInsertion :
    (∃ (s : State), s.mod.state = .off ∧ s.mod.mainPath = true)
    ∧ (∃ (s : State), (s.mod.state ≠ .off ∨ s.mod.mainPath = false))
    ∧ (∃ (s : State) (since : BitVec 64), s.mod.state ≠ .off ∧ s.stable since msT = true)
    ∧ (∃ (s : State) (since : BitVec 64), (s.mod.state = .off ∨ s.stable since msT = false))
    ∧ (∃ (s : State), s.mod.state ≠ .off)
    ∧ (∃ (s : State), s.mod.state ≠ .off)
    ∧ (∃ (s : State) (second : Bool), s.mod.state = .off)
    ∧ (∃ (s : State), s.mod.state = .off ∧ s.mod.mainPath = false)
    ∧ (∃ (s : State), s.mod.state = .off ∧ s.mod.pres1 = true)
    ∧ (∃ (s : State), s.mod.pres1 = false)
    ∧ (∃ (s : State), s.mod.state = .off ∧ s.mod.pres1 = true ∧ s.mod.precharged = true)
    ∧ (∃ (s : State), s.mod.precharged = false)
    ∧ (∃ (s : State) (since : BitVec 64), s.mod.state ≠ .off ∧ s.hb.sd0Dead = false ∧ s.stable since debounceT = true
        ∧ s.evq.mask.getLsbD 0x44 = false ∧ s.evq.lost = 0 ∧ s.evq.queue.length < 4096)
    ∧ (∃ (s : State) (since : BitVec 64), (s.mod.state = .off ∨ s.hb.sd0Dead = true ∨ s.stable since debounceT = false)) :=
  ⟨⟨(let y := (run.powerOff); { y with mod := { y.mod with mainPath := true } }), by decide +kernel⟩,
   ⟨run, by decide +kernel⟩,
   ⟨(run.tickTo (10 ^ 18)), 0, by decide +kernel⟩,
   ⟨(run.powerOff), 5, by decide +kernel⟩,
   ⟨img [], by decide +kernel⟩,
   ⟨run, by decide +kernel⟩,
   ⟨(run.powerOff), true, by decide +kernel⟩,
   ⟨(run.powerOff), by decide +kernel⟩,
   ⟨(let y := (run.powerOff); { y with mod := { y.mod with pres1 := true } }), by decide +kernel⟩,
   ⟨(let y := (run.powerOff); { y with mod := { y.mod with pres1 := false } }), by decide +kernel⟩,
   ⟨(let y := (run.powerOff); { y with mod := { y.mod with pres1 := true, precharged := true } }), by decide +kernel⟩,
   ⟨(let y := run; { y with mod := { y.mod with precharged := false } }), by decide +kernel⟩,
   ⟨(run.tickTo (10 ^ 18)), 0, by decide +kernel⟩,
   ⟨run, 0xFFFFFFFFFF, by decide +kernel⟩⟩

theorem witness_TheAdapterLink :
    (∃ (s : State) (words : List (BitVec 64)) (low : BitVec 32) (crc : BitVec 32), (s.adk.state = .up ∨ s.adk.state = .init)
        ∧ crc ≠ adkCrc words low ∧ s.adk.cntCrc.toNat + 2 < 2 ^ 64)
    ∧ (∃ (s : State) (btype : BitVec 8) (words : List (BitVec 64)) (low : BitVec 32) (crc : BitVec 32),
        (s.adk.state = .up ∨ s.adk.state = .init) ∧ btype ≠ 0x1E ∧ btype ≠ 0xA5 ∧ btype ≠ 0x5A ∧ btype ≠ 0xC3
        ∧ s.adk.cntCrc.toNat + 2 < 2 ^ 64)
    ∧ (∃ (s : State) (words : List (BitVec 64)) (low : BitVec 32) (crc : BitVec 32), crc = adkCrc words low)
    ∧ (∃ (s : State) (btype : BitVec 8) (words : List (BitVec 64)) (low : BitVec 32) (crc : BitVec 32), s.adk.state ≠ .up
        ∧ s.adk.state ≠ .init)
    ∧ (∃ (s : State) (word : LinkCtl) (f : AdkFrame) (rest : List (BitVec 12 × AdkFrame)), word.good = true ∧ s.adk.state = .up
        ∧ word.init = false ∧ word.nak = false ∧ word.ackV = true ∧ s.adk.unacked = (word.ackSeq, f) :: rest ∧ s.adk.outq = []
        ∧ s.evq.lost = 0)
    ∧ (∃ (s : State) (word : LinkCtl), word.good = true ∧ s.adk.state = .up ∧ word.init = false ∧ word.nak = true
        ∧ word.ackV = false ∧ s.adk.replays < 8 ∧ s.adk.cntReplay.toNat + 2 < 2 ^ 64)
    ∧ (∃ (s : State) (word : LinkCtl), word.good = true ∧ s.adk.state = .up ∧ word.init = false ∧ word.nak = true
        ∧ word.ackV = false ∧ 8 ≤ s.adk.replays)
    ∧ (∃ (s : State) (word : LinkCtl), word.good = true ∧ s.adk.state = .init ∧ word.init = true ∧ word.reset = true
        ∧ s.adk.outq = [])
    ∧ (∃ (s : State) (word : LinkCtl), word.good = true ∧ s.adk.state = .init ∧ word.init = true ∧ word.reset = false
        ∧ word.ackV = false ∧ s.adk.outq = [])
    ∧ (∃ (s : State) (word : LinkCtl), (word.good = false ∨ s.adk.state = .down ∨ s.adk.state = .training))
    ∧ (∃ (s : State), (s.adk.state = .init ∨ (s.adk.state = .up ∧ (s.adk.owedAck.isSome = true ∨ s.adk.nak = true))))
    ∧ (∃ (s : State), s.adk.state = .up ∧ s.adk.owedAck = none ∧ s.adk.nak = false)
    ∧ (∃ (s : State), s.adk.state = .up ∧ s.adk.unacked ≠ [] ∧ s.adk.ackAt + 10 * usT ≤ s.now ∧ s.adk.replays < 8
        ∧ s.adk.cntReplay.toNat + 2 < 2 ^ 64)
    ∧ (∃ (s : State), s.adk.state = .up ∧ s.adk.unacked ≠ [] ∧ s.adk.ackAt + 10 * usT ≤ s.now ∧ 8 ≤ s.adk.replays)
    ∧ (∃ (s : State), s.now < s.adk.ackAt + 10 * usT)
    ∧ (∃ (s : State), (s.adk.state = .down ∨ s.adk.state = .training) ∧ s.mod.state ≠ .off ∧ s.hb.sd0Dead = false
        ∧ (s.mod.state ≠ .boot ∨ 1 ≤ s.mod.bootStep.toNat))
    ∧ (∃ (s : State), s.mod.state = .off)
    ∧ (∃ (s : State), s.adk.state = .training ∧ s.adk.trainAt + 10 * msT ≤ s.now)
    ∧ (∃ (s : State), s.adk.state ≠ .training) :=
  ⟨⟨(let y := run; { y with adk := { y.adk with state := .up } }), [5], 7, 0, by decide +kernel⟩,
   ⟨(let y := run; { y with adk := { y.adk with state := .up } }), 0x77, [5], 7, 0, by decide +kernel⟩,
   ⟨(let y := run; { y with adk := { y.adk with state := .up } }), [5], 7, (adkCrc [5] 7), by decide +kernel⟩,
   ⟨run, 0xA5, [5], 7, 0, by decide +kernel⟩,
   ⟨(let y := (let y := (run.event 0x44 0 5 0); { y with adk := { y.adk with state := .up, unacked := [(7, { ty := 0x90, status := 0, tag := 0, addr := 0, len := 4, words := [1,2,3,4] })] } }); { y with evq := { y.evq with sent := 1 } }),
       (let w : LinkCtl := { evCredit := 5, reset := false, init := false, nak := false, ackV := true, ackSeq := 7, lcrc := 0 }; { w with lcrc := BitVec.ofNat 16 (ctlCrc w.low ) }),
       { ty := 0x90, status := 0, tag := 0, addr := 0, len := 4, words := [1,2,3,4] }, [], by decide +kernel⟩,
   ⟨(let y := run; { y with adk := { y.adk with state := .up } }),
       (let w : LinkCtl := { evCredit := 5, reset := false, init := false, nak := true, ackV := false, ackSeq := 7, lcrc := 0 }; { w with lcrc := BitVec.ofNat 16 (ctlCrc w.low ) }),
       by decide +kernel⟩,
   ⟨(let y := run; { y with adk := { y.adk with state := .up, replays := 8 } }),
       (let w : LinkCtl := { evCredit := 5, reset := false, init := false, nak := true, ackV := false, ackSeq := 7, lcrc := 0 }; { w with lcrc := BitVec.ofNat 16 (ctlCrc w.low ) }),
       by decide +kernel⟩,
   ⟨(let y := run; { y with adk := { y.adk with state := .init, txSeq := 5 } }),
       (let w : LinkCtl := { evCredit := 5, reset := true, init := true, nak := false, ackV := false, ackSeq := 7, lcrc := 0 }; { w with lcrc := BitVec.ofNat 16 (ctlCrc w.low ) }),
       by decide +kernel⟩,
   ⟨(let y := run; { y with adk := { y.adk with state := .init, txSeq := 5 } }),
       (let w : LinkCtl := { evCredit := 5, reset := false, init := true, nak := false, ackV := false, ackSeq := 7, lcrc := 0 }; { w with lcrc := BitVec.ofNat 16 (ctlCrc w.low ) }),
       by decide +kernel⟩,
   ⟨run, (let w : LinkCtl := { evCredit := 5, reset := false, init := false, nak := false, ackV := false, ackSeq := 7, lcrc := 0 }; { w with lcrc := BitVec.ofNat 16 (ctlCrc w.low ) }),
       by decide +kernel⟩,
   ⟨(let y := run; { y with adk := { y.adk with state := .up, nak := true } }), by decide +kernel⟩,
   ⟨(let y := run; { y with adk := { y.adk with state := .up } }), by decide +kernel⟩,
   ⟨(let y := (run.tickTo (10 ^ 18)); { y with adk := { y.adk with state := .up, unacked := [(7, { ty := 0x90, status := 0, tag := 0, addr := 0, len := 4, words := [1,2,3,4] })] } }),
       by decide +kernel⟩,
   ⟨(let y := (run.tickTo (10 ^ 18)); { y with adk := { y.adk with state := .up, replays := 8, unacked := [(7, { ty := 0x90, status := 0, tag := 0, addr := 0, len := 4, words := [1,2,3,4] })] } }),
       by decide +kernel⟩,
   ⟨run, by decide +kernel⟩,
   ⟨run, by decide +kernel⟩,
   ⟨(run.powerOff), by decide +kernel⟩,
   ⟨(let y := (run.tickTo (10 ^ 18)); { y with adk := { y.adk with state := .training } }), by decide +kernel⟩,
   ⟨run, by decide +kernel⟩⟩

theorem witness_RegistersAreReadAndWritten :
    (∃ (s : State) (tag : BitVec 16) (addr : BitVec 48) (len : BitVec 16), s.performs (rdFrame tag addr len.toNat)
        ∧ rdForm addr.toNat len.toNat = true ∧ pageListed addr.toNat = true
        ∧ AdkFrame.covers (rdFrame tag addr len.toNat) (trnAddr 0x038) = false
        ∧ AdkFrame.covers (rdFrame tag addr len.toNat) (glbAddr 0x138) = false
        ∧ AdkFrame.covers (rdFrame tag addr len.toNat) (timAddr 0x038) = false)
    ∧ (∃ (s : State) (tag : BitVec 16) (addr : BitVec 48) (len : BitVec 16), s.performs (rdFrame tag addr len.toNat)
        ∧ rdForm addr.toNat len.toNat = true ∧ pageListed addr.toNat = false)
    ∧ (∃ (s : State) (tag : BitVec 16) (incs : BitVec 32), s.performs (rdFrame tag (BitVec.ofNat 48 (timAddr 0x038)) 1))
    ∧ (∃ (s : State) (tag : BitVec 16) (addr : BitVec 48) (len : BitVec 16), s.performs (rdFrame tag addr len.toNat)
        ∧ rdForm addr.toNat len.toNat = true ∧ pageListed addr.toNat = true
        ∧ AdkFrame.covers (rdFrame tag addr len.toNat) (timAddr 0x038) = true
        ∧ AdkFrame.covers (rdFrame tag addr len.toNat) (trnAddr 0x038) = false
        ∧ AdkFrame.covers (rdFrame tag addr len.toNat) (glbAddr 0x138) = false)
    ∧ (∃ (s : State) (tag : BitVec 16) (value : BitVec 64) (held : BitVec 64), s.writes tag (secAddr 0x10) value .operator
        ∧ bits value.toNat 63 10 = 0)
    ∧ (∃ (s : State) (tag : BitVec 16) (value : BitVec 64) (held : BitVec 64), s.writes tag (glbAddr 0x18) value .installer
        ∧ 0x0BB8 ≤ bits value.toNat 15 0 ∧ bits value.toNat 15 0 ≤ 0x2648)
    ∧ (∃ (s : State) (tag : BitVec 16) (value : BitVec 64) (held : BitVec 64), s.writes tag (glbAddr 0x18) value .installer
        ∧ (bits value.toNat 15 0 < 0x0BB8 ∨ 0x2648 < bits value.toNat 15 0))
    ∧ (∃ (s : State) (tag : BitVec 16) (value : BitVec 64) (held : BitVec 64), s.writes tag (maddr 1 0 3 0) value .operator)
    ∧ (∃ (s : State) (tag : BitVec 16) (addr : BitVec 48) (value : BitVec 64) (held : BitVec 64),
        s.performs (wrFrame tag addr.toNat value) ∧ addr.toNat % 8 = 0 ∧ addr.toNat ≠ trnAddr 0x038
        ∧ addr.toNat ≠ secAddr 0x188 ∧ addr.toNat ≠ modCmdAddr ∧ addr.toNat ≠ extAddr 0x008)
    ∧ (∃ (s : State) (tag : BitVec 16) (addr : BitVec 48) (value : BitVec 64) (held : BitVec 64),
        s.performs (wrFrame tag addr.toNat value) ∧ addr.toNat % 8 = 0 ∧ pageListed addr.toNat = false)
    ∧ (∃ (s : State) (tag : BitVec 16) (addr : BitVec 48) (value : BitVec 64) (held : BitVec 64), s.adk.state = .up
        ∧ s.adk.outstanding = [] ∧ addr.toNat % 8 ≠ 0 ∧ s.adk.outq = [] ∧ s.adk.unacked.length < 64) :=
  ⟨⟨(run).asRole .operator, 9, (BitVec.ofNat 48 (secAddr 0x10)), 3, by decide +kernel⟩,
   ⟨(run).asRole .operator, 9, (BitVec.ofNat 48 (2 ^ 47)), 3, by decide +kernel⟩,
   ⟨(run).asRole .operator, 9, 4, by decide +kernel⟩,
   ⟨((let y := run; { y with tim := { y.tim with lateFired := 6 } })).asRole .operator, 9, (BitVec.ofNat 48 (timAddr 0x30)), 2,
       by decide +kernel⟩,
   ⟨(run).asRole .operator, 9, 77, 0, by decide +kernel⟩,
   ⟨((run).asRole .installer), 9, 0x1000, 0, by decide +kernel⟩,
   ⟨((run).asRole .installer), 9, 0x10000, 0, by decide +kernel⟩,
   ⟨((let y := run; { y with mod := { y.mod with attnReq := true } })).asRole .operator, 9, 0x100, 0x100, by decide +kernel⟩,
   ⟨(run).asRole .operator, 9, (BitVec.ofNat 48 (secAddr 0x10)), 3, 0, by decide +kernel⟩,
   ⟨(run).asRole .operator, 9, (BitVec.ofNat 48 (2 ^ 47)), 5, 0, by decide +kernel⟩,
   ⟨(run).asRole .operator, 9, 3, 5, 0, by decide +kernel⟩⟩

theorem witness_DeniedWithoutTheRole :
    (∃ (s : State) (tag : BitVec 16) (addr : BitVec 48) (value : BitVec 64) (held : BitVec 64),
        s.performs (wrFrame tag addr.toNat value) ∧ s.holdsRole (regRole addr.toNat value) = false ∧ addr.toNat % 8 = 0)
    ∧ (∃ (s : State) (tag : BitVec 16), s.performs (wrFrame tag (secAddr 0x108) 2) ∧ s.holdsRole .installer = false)
    ∧ (∃ (s : State) (tag : BitVec 16), s.performs (wrFrame tag (secAddr 0x108) 3) ∧ s.holdsRole .installer = false)
    ∧ (∃ (s : State) (tag : BitVec 16), s.performs (wrFrame tag (logAddr 0x30) 1) ∧ s.holdsRole .installer = false)
    ∧ (∃ (s : State) (tag : BitVec 16) (value : BitVec 64), s.performs (wrFrame tag (timAddr 0x20) value)
        ∧ s.holdsRole .installer = false)
    ∧ (∃ (s : State) (tag : BitVec 16), s.performs (wrFrame tag (glbAddr 0x120) 1) ∧ s.holdsRole .maker = false)
    ∧ (∃ (s : State) (tag : BitVec 16) (value : BitVec 64), s.performs (wrFrame tag (glbAddr 0x130) value)
        ∧ s.holdsRole .maker = false) :=
  ⟨⟨(run).asRole .operator, 9, (BitVec.ofNat 48 (glbAddr 0x18)), 0x1000, 0, by decide +kernel⟩,
   ⟨(run).asRole .operator, 9, by decide +kernel⟩,
   ⟨(run).asRole .operator, 9, by decide +kernel⟩,
   ⟨(run).asRole .operator, 9, by decide +kernel⟩,
   ⟨(run).asRole .operator, 9, 5, by decide +kernel⟩,
   ⟨(run).asRole .operator, 9, by decide +kernel⟩,
   ⟨(run).asRole .operator, 9, 5, by decide +kernel⟩⟩

theorem witness_OnlyPowerGoodLeavesOff :
    (∃ (c : Instr) (s t : State), s.mod.state = .off ∧ s.adk.state = .down ∧ exec c s = .next t)
    ∧ (∃ s t : State, (s.mod.state = .off → s.adk.state = .down) ∧ step s = .next t ∧ t.mod.state = .off)
    ∧ (∃ s : State, s.mod.state = .off ∧ s.mod.mainPath = true)
    ∧ (∃ s : State, s.mod.state ≠ .off) :=
  ⟨⟨.powerGood, offState, _, by decide +kernel, by decide +kernel, rfl⟩,
   ⟨{ offState with pending := [.presentDeassert false] }, _, fun _ => by decide +kernel, rfl, by decide +kernel⟩,
   ⟨offState, by decide +kernel, by decide +kernel⟩, ⟨run, by decide +kernel⟩⟩

theorem witness_TheLinkMayFailAlone :
    (∃ (s t : State) (c : Instr), (c = .adkLinkLoss ∨ c = .adkTrainingComplete ∨ c = .adkTrainingTimeout ∨ c = .adkReplayTimeout
        ∨ c = .adkLinkctlTimer ∨ (∃ btype words low crc, c = .adkFrameReject btype words low crc) ∨ (∃ word,
            c = .adkLinkctl word)) ∧ exec c s = .next t)
    ∧ (∃ (s : State) (code : Nat), s.adk.state ≠ .up ∧ s.evq.mask.getLsbD (code % 256) = false ∧ s.evq.lost = 0
        ∧ s.evq.queue.length < 4096) :=
  ⟨⟨run.up, _, .adkLinkLoss, .inl rfl, rfl⟩, ⟨run, 0x41, by decide +kernel⟩⟩

theorem witness_FabricTimeOnlySteppedBackByAMark :
    (∃ s t : State, step s = .next t ∧ t.now < s.now)
    ∧ (∃ s t : State, s.pending = [] ∧ 65 < s.tim.stall ∧ step s = .next t) :=
  ⟨⟨{ run.tickTo 5000 with pending := [.powerRemoved] }, _, rfl, by decide +kernel⟩,
   ⟨stalled, _, rfl, by decide +kernel, rfl⟩⟩

theorem witness_EveryCommandKeepsToItsParts : ∃ (c : Instr) (s t : State), exec c s = .next t :=
  ⟨.adkLinkLoss, run.up, _, rfl⟩

end Sys2Proof.Machine
end

section
/-! SUPPORT. The frame of a command of any kind: what `exec` leaves alone, from what each command's meaning leaves alone. -/

namespace Sys2Proof.Machine

/-- A command leaves every part alone that `mayChange` does not list for it. -/
theorem exec_only (c : Instr) (s : State) : onlyNext s (exec c s) (mayChange c) :=
  match c with
  | .registerWrite tag addr value held => execRegisterWrite_only tag addr value held s (only_refl s _) (List.Subset.refl _)
  | .rcRead tag incs => execRcRead_only tag incs s (only_refl s _) (List.Subset.refl _)
  | .heartbeatSend => execHeartbeatSend_only s (only_refl s _) (List.Subset.refl _)
  | .heartbeatReceive => execHeartbeatReceive_only s (only_refl s _) (List.Subset.refl _)
  | .heartbeatReplyReceive => execHeartbeatReplyReceive_only s (only_refl s _) (List.Subset.refl _)
  | .heartbeatTimeoutSd0 => execHeartbeatTimeoutSd0_only s (only_refl s _) (List.Subset.refl _)
  | .heartbeatTimeoutSd1 => execHeartbeatTimeoutSd1_only s (only_refl s _) (List.Subset.refl _)
  | .trellisHop site yx vc replays => execTrellisHop_only site yx vc replays s (only_refl s _) (List.Subset.refl _)
  | .trellisRetrainTimeout edge => execTrellisRetrainTimeout_only edge s (only_refl s _) (List.Subset.refl _)
  | .ftDistribute => execFtDistribute_only s (only_refl s _) (List.Subset.refl _)
  | .rtCodeFrame sync markFt flags crc => execRtCodeFrame_only sync markFt flags crc s (only_refl s _) (List.Subset.refl _)
  | .rtMarkEdge frac => execRtMarkEdge_only frac s (only_refl s _) (List.Subset.refl _)
  | .markWindowExpiry => execMarkWindowExpiry_only s (only_refl s _) (List.Subset.refl _)
  | .rtCodeAbsentTimeout => execRtCodeAbsentTimeout_only s (only_refl s _) (List.Subset.refl _)
  | .rtRefLoss since => execRtRefLoss_only since s (only_refl s _) (List.Subset.refl _)
  | .holdoverExpiry => execHoldoverExpiry_only s (only_refl s _) (List.Subset.refl _)
  | .ftStallEnd => execFtStallEnd_only s (only_refl s _) (List.Subset.refl _)
  | .timCtrlWrite tag value => execTimCtrlWrite_only tag value s (only_refl s _) (List.Subset.refl _)
  | .gateCycleStart port => execGateCycleStart_only port s (only_refl s _) (List.Subset.refl _)
  | .gateEntryAdvance port => execGateEntryAdvance_only port s (only_refl s _) (List.Subset.refl _)
  | .collectiveAbortDeadline id => execCollectiveAbortDeadline_only id s (only_refl s _) (List.Subset.refl _)
  | .leaseExpiry index => execLeaseExpiry_only index s (only_refl s _) (List.Subset.refl _)
  | .scrubWindow hits => execScrubWindow_only hits s (only_refl s _) (List.Subset.refl _)
  | .heatDecay => execHeatDecay_only s (only_refl s _) (List.Subset.refl _)
  | .selfTestSlot => execSelfTestSlot_only s (only_refl s _) (List.Subset.refl _)
  | .selfTestComplete cluster mismatch => execSelfTestComplete_only cluster mismatch s (only_refl s _) (List.Subset.refl _)
  | .marginScan items held => execMarginScan_only items held s (only_refl s _) (List.Subset.refl _)
  | .belvedereSample port queue => execBelvedereSample_only port queue s (only_refl s _) (List.Subset.refl _)
  | .signalPresent port => execSignalPresent_only port s (only_refl s _) (List.Subset.refl _)
  | .lossOfSignal port lock => execLossOfSignal_only port lock s (only_refl s _) (List.Subset.refl _)
  | .trainingComplete port => execTrainingComplete_only port s (only_refl s _) (List.Subset.refl _)
  | .trainingAttemptTimeout port => execTrainingAttemptTimeout_only port s (only_refl s _) (List.Subset.refl _)
  | .lcwNormal port word => execLcwNormal_only port word s (only_refl s _) (List.Subset.refl _)
  | .lcwNak port word => execLcwNak_only port word s (only_refl s _) (List.Subset.refl _)
  | .lcwInit port word => execLcwInit_only port word s (only_refl s _) (List.Subset.refl _)
  | .lcwSendTimer port => execLcwSendTimer_only port s (only_refl s _) (List.Subset.refl _)
  | .replayTimeout port => execReplayTimeout_only port s (only_refl s _) (List.Subset.refl _)
  | .frameLinkReject port frame lseq crc fec => execFrameLinkReject_only port frame lseq crc fec s (only_refl s _) (List.Subset.refl _)
  | .hcrcDiscard port frame hcrc => execHcrcDiscard_only port frame hcrc s (only_refl s _) (List.Subset.refl _)
  | .bundleSkewTimeout port => execBundleSkewTimeout_only port s (only_refl s _) (List.Subset.refl _)
  | .hello port frame => execHello_only port frame s (only_refl s _) (List.Subset.refl _)
  | .helloPeriodTimer port => execHelloPeriodTimer_only port s (only_refl s _) (List.Subset.refl _)
  | .helloSilenceTimeout port => execHelloSilenceTimeout_only port s (only_refl s _) (List.Subset.refl _)
  | .prtPeerRetrain tag port => execPrtPeerRetrain_only tag port s (only_refl s _) (List.Subset.refl _)
  | .prtPeerAck tag port => execPrtPeerAck_only tag port s (only_refl s _) (List.Subset.refl _)
  | .egressFrameStart port => execEgressFrameStart_only port s (only_refl s _) (List.Subset.refl _)
  | .ld port frame hits => execLd_only port frame hits s (only_refl s _) (List.Subset.refl _)
  | .ldPeek port frame => execLdPeek_only port frame s (only_refl s _) (List.Subset.refl _)
  | .st port frame hits => execSt_only port frame hits s (only_refl s _) (List.Subset.refl _)
  | .stPush port frame => execStPush_only port frame s (only_refl s _) (List.Subset.refl _)
  | .stMask port frame => execStMask_only port frame s (only_refl s _) (List.Subset.refl _)
  | .fence port frame => execFence_only port frame s (only_refl s _) (List.Subset.refl _)
  | .sbRd port frame => execSbRd_only port frame s (only_refl s _) (List.Subset.refl _)
  | .sbWr port frame => execSbWr_only port frame s (only_refl s _) (List.Subset.refl _)
  | .rspData port frame => execRspData_only port frame s (only_refl s _) (List.Subset.refl _)
  | .rspCmp port frame => execRspCmp_only port frame s (only_refl s _) (List.Subset.refl _)
  | .sbData port frame => execSbData_only port frame s (only_refl s _) (List.Subset.refl _)
  | .atAdd port frame => execAtAdd_only port frame s (only_refl s _) (List.Subset.refl _)
  | .atMin port frame => execAtMin_only port frame s (only_refl s _) (List.Subset.refl _)
  | .atMax port frame => execAtMax_only port frame s (only_refl s _) (List.Subset.refl _)
  | .atCas port frame => execAtCas_only port frame s (only_refl s _) (List.Subset.refl _)
  | .apAdd port frame => execApAdd_only port frame s (only_refl s _) (List.Subset.refl _)
  | .apMin port frame => execApMin_only port frame s (only_refl s _) (List.Subset.refl _)
  | .apMax port frame => execApMax_only port frame s (only_refl s _) (List.Subset.refl _)
  | .apCas port frame => execApCas_only port frame s (only_refl s _) (List.Subset.refl _)
  | .cRdS port frame => execCRdS_only port frame s (only_refl s _) (List.Subset.refl _)
  | .cRdO port frame => execCRdO_only port frame s (only_refl s _) (List.Subset.refl _)
  | .cUpg port frame => execCUpg_only port frame s (only_refl s _) (List.Subset.refl _)
  | .cWb port frame => execCWb_only port frame s (only_refl s _) (List.Subset.refl _)
  | .cEvict port frame => execCEvict_only port frame s (only_refl s _) (List.Subset.refl _)
  | .snpInv port frame => execSnpInv_only port frame s (only_refl s _) (List.Subset.refl _)
  | .snpShr port frame => execSnpShr_only port frame s (only_refl s _) (List.Subset.refl _)
  | .snpBinv port frame => execSnpBinv_only port frame s (only_refl s _) (List.Subset.refl _)
  | .cData port frame => execCData_only port frame s (only_refl s _) (List.Subset.refl _)
  | .cGnt port frame => execCGnt_only port frame s (only_refl s _) (List.Subset.refl _)
  | .snpAck port frame => execSnpAck_only port frame s (only_refl s _) (List.Subset.refl _)
  | .snpData port frame => execSnpData_only port frame s (only_refl s _) (List.Subset.refl _)
  | .leaseRenew port frame => execLeaseRenew_only port frame s (only_refl s _) (List.Subset.refl _)
  | .epochNote port frame => execEpochNote_only port frame s (only_refl s _) (List.Subset.refl _)
  | .faultRec port frame => execFaultRec_only port frame s (only_refl s _) (List.Subset.refl _)
  | .domNote port frame => execDomNote_only port frame s (only_refl s _) (List.Subset.refl _)
  | .collOpen port frame => execCollOpen_only port frame s (only_refl s _) (List.Subset.refl _)
  | .collContrib port frame => execCollContrib_only port frame s (only_refl s _) (List.Subset.refl _)
  | .collResult port frame => execCollResult_only port frame s (only_refl s _) (List.Subset.refl _)
  | .collGrant port frame => execCollGrant_only port frame s (only_refl s _) (List.Subset.refl _)
  | .collDone port frame => execCollDone_only port frame s (only_refl s _) (List.Subset.refl _)
  | .abort port frame => execAbort_only port frame s (only_refl s _) (List.Subset.refl _)
  | .atnDecode port frame => execAtnDecode_only port frame s (only_refl s _) (List.Subset.refl _)
  | .atnBind port frame => execAtnBind_only port frame s (only_refl s _) (List.Subset.refl _)
  | .atnRelease port frame => execAtnRelease_only port frame s (only_refl s _) (List.Subset.refl _)
  | .atnResult port frame => execAtnResult_only port frame s (only_refl s _) (List.Subset.refl _)
  | .atnSub port frame => execAtnSub_only port frame s (only_refl s _) (List.Subset.refl _)
  | .atnPart port frame => execAtnPart_only port frame s (only_refl s _) (List.Subset.refl _)
  | .storeRelease n => execStoreRelease_only n s (only_refl s _) (List.Subset.refl _)
  | .fenceComplete n => execFenceComplete_only n s (only_refl s _) (List.Subset.refl _)
  | .implicitFenceRelease n => execImplicitFenceRelease_only n s (only_refl s _) (List.Subset.refl _)
  | .targetLimitExpiry port => execTargetLimitExpiry_only port s (only_refl s _) (List.Subset.refl _)
  | .requestTimerExpiry n => execRequestTimerExpiry_only n s (only_refl s _) (List.Subset.refl _)
  | .backstopTimerExpiry n => execBackstopTimerExpiry_only n s (only_refl s _) (List.Subset.refl _)
  | .snoopTimerExpiry line agent => execSnoopTimerExpiry_only line agent s (only_refl s _) (List.Subset.refl _)
  | .cinchExpiry line agent => execCinchExpiry_only line agent s (only_refl s _) (List.Subset.refl _)
  | .flushWindowEnd dom => execFlushWindowEnd_only dom s (only_refl s _) (List.Subset.refl _)
  | .cohDomEnable tag dom value => execCohDomEnable_only tag dom value s (only_refl s _) (List.Subset.refl _)
  | .cohDomDisable tag dom value => execCohDomDisable_only tag dom value s (only_refl s _) (List.Subset.refl _)
  | .cohDomDown tag dom => execCohDomDown_only tag dom s (only_refl s _) (List.Subset.refl _)
  | .cohDomReform tag dom => execCohDomReform_only tag dom s (only_refl s _) (List.Subset.refl _)
  | .cohMemberWrite tag dom j value => execCohMemberWrite_only tag dom j value s (only_refl s _) (List.Subset.refl _)
  | .extAssign tag index => execExtAssign_only tag index s (only_refl s _) (List.Subset.refl _)
  | .extSetattr tag index => execExtSetattr_only tag index s (only_refl s _) (List.Subset.refl _)
  | .extRevoke tag index => execExtRevoke_only tag index s (only_refl s _) (List.Subset.refl _)
  | .extRelease tag index => execExtRelease_only tag index s (only_refl s _) (List.Subset.refl _)
  | .extScrub tag index => execExtScrub_only tag index s (only_refl s _) (List.Subset.refl _)
  | .extentScrubComplete index => execExtentScrubComplete_only index s (only_refl s _) (List.Subset.refl _)
  | .extentDrained index => execExtentDrained_only index s (only_refl s _) (List.Subset.refl _)
  | .drainLimitExpiry index => execDrainLimitExpiry_only index s (only_refl s _) (List.Subset.refl _)
  | .lseCreate tag => execLseCreate_only tag s (only_refl s _) (List.Subset.refl _)
  | .lseDelete tag => execLseDelete_only tag s (only_refl s _) (List.Subset.refl _)
  | .lseHandoff tag unit => execLseHandoff_only tag unit s (only_refl s _) (List.Subset.refl _)
  | .lseExpire tag => execLseExpire_only tag s (only_refl s _) (List.Subset.refl _)
  | .admAdmit tag => execAdmAdmit_only tag s (only_refl s _) (List.Subset.refl _)
  | .admResize tag => execAdmResize_only tag s (only_refl s _) (List.Subset.refl _)
  | .admRelease tag => execAdmRelease_only tag s (only_refl s _) (List.Subset.refl _)
  | .bitmapRetryTimer port => execBitmapRetryTimer_only port s (only_refl s _) (List.Subset.refl _)
  | .bridgeLinkActive b dev => execBridgeLinkActive_only b dev s (only_refl s _) (List.Subset.refl _)
  | .bridgeLinkDown b => execBridgeLinkDown_only b s (only_refl s _) (List.Subset.refl _)
  | .cxlCompletion b tag data poison => execCxlCompletion_only b tag data poison s (only_refl s _) (List.Subset.refl _)
  | .cxlCompletionTimeout b tag => execCxlCompletionTimeout_only b tag s (only_refl s _) (List.Subset.refl _)
  | .cxlMediaEvent b lines => execCxlMediaEvent_only b lines s (only_refl s _) (List.Subset.refl _)
  | .trayRetire tag => execTrayRetire_only tag s (only_refl s _) (List.Subset.refl _)
  | .trayEvacuate tag => execTrayEvacuate_only tag s (only_refl s _) (List.Subset.refl _)
  | .evacuateComplete tray => execEvacuateComplete_only tray s (only_refl s _) (List.Subset.refl _)
  | .traySanitize tag => execTraySanitize_only tag s (only_refl s _) (List.Subset.refl _)
  | .tpSetpin tag pin => execTpSetpin_only tag pin s (only_refl s _) (List.Subset.refl _)
  | .tpRelocate tag => execTpRelocate_only tag s (only_refl s _) (List.Subset.refl _)
  | .moveStart page => execMoveStart_only page s (only_refl s _) (List.Subset.refl _)
  | .moveComplete page => execMoveComplete_only page s (only_refl s _) (List.Subset.refl _)
  | .pavilionWarm pv => execPavilionWarm_only pv s (only_refl s _) (List.Subset.refl _)
  | .walkReadComplete walk => execWalkReadComplete_only walk s (only_refl s _) (List.Subset.refl _)
  | .kvRestore n => execKvRestore_only n s (only_refl s _) (List.Subset.refl _)
  | .restoreRoomTimeout n => execRestoreRoomTimeout_only n s (only_refl s _) (List.Subset.refl _)
  | .makeRoom => execMakeRoom_only s (only_refl s _) (List.Subset.refl _)
  | .trnInvGo tag => execTrnInvGo_only tag s (only_refl s _) (List.Subset.refl _)
  | .invalidationComplete => execInvalidationComplete_only s (only_refl s _) (List.Subset.refl _)
  | .ptwRead tag => execPtwRead_only tag s (only_refl s _) (List.Subset.refl _)
  | .ptwWrite tag value => execPtwWrite_only tag value s (only_refl s _) (List.Subset.refl _)
  | .ptwAccessComplete => execPtwAccessComplete_only s (only_refl s _) (List.Subset.refl _)
  | .nop core tid ins => execNop_only core tid ins s (only_refl s _) (List.Subset.refl _)
  | .alu core tid ins => execAlu_only core tid ins s (only_refl s _) (List.Subset.refl _)
  | .alui core tid ins => execAlui_only core tid ins s (only_refl s _) (List.Subset.refl _)
  | .movi core tid ins => execMovi_only core tid ins s (only_refl s _) (List.Subset.refl _)
  | .movhi core tid ins => execMovhi_only core tid ins s (only_refl s _) (List.Subset.refl _)
  | .br core tid ins => execBr_only core tid ins s (only_refl s _) (List.Subset.refl _)
  | .jal core tid ins => execJal_only core tid ins s (only_refl s _) (List.Subset.refl _)
  | .gets core tid ins => execGets_only core tid ins s (only_refl s _) (List.Subset.refl _)
  | .ldl core tid ins => execLdl_only core tid ins s (only_refl s _) (List.Subset.refl _)
  | .stl core tid ins => execStl_only core tid ins s (only_refl s _) (List.Subset.refl _)
  | .atl core tid ins => execAtl_only core tid ins s (only_refl s _) (List.Subset.refl _)
  | .copyl core tid ins => execCopyl_only core tid ins s (only_refl s _) (List.Subset.refl _)
  | .mxeIssue core tid ins => execMxeIssue_only core tid ins s (only_refl s _) (List.Subset.refl _)
  | .veIssue core tid ins => execVeIssue_only core tid ins s (only_refl s _) (List.Subset.refl _)
  | .gfeIssue core tid ins => execGfeIssue_only core tid ins s (only_refl s _) (List.Subset.refl _)
  | .pldx core tid ins => execPldx_only core tid ins s (only_refl s _) (List.Subset.refl _)
  | .pstx core tid ins => execPstx_only core tid ins s (only_refl s _) (List.Subset.refl _)
  | .pld core tid ins => execPld_only core tid ins s (only_refl s _) (List.Subset.refl _)
  | .pst core tid ins => execPst_only core tid ins s (only_refl s _) (List.Subset.refl _)
  | .patm core tid ins => execPatm_only core tid ins s (only_refl s _) (List.Subset.refl _)
  | .coreFence core tid ins => execCoreFence_only core tid ins s (only_refl s _) (List.Subset.refl _)
  | .acquire core tid ins => execAcquire_only core tid ins s (only_refl s _) (List.Subset.refl _)
  | .send core tid ins => execSend_only core tid ins s (only_refl s _) (List.Subset.refl _)
  | .bar core tid ins => execBar_only core tid ins s (only_refl s _) (List.Subset.refl _)
  | .waitl core tid ins => execWaitl_only core tid ins s (only_refl s _) (List.Subset.refl _)
  | .waitlTimeout core tid => execWaitlTimeout_only core tid s (only_refl s _) (List.Subset.refl _)
  | .waite core tid ins => execWaite_only core tid ins s (only_refl s _) (List.Subset.refl _)
  | .waitm core tid ins => execWaitm_only core tid ins s (only_refl s _) (List.Subset.refl _)
  | .threadHalt core tid ins => execThreadHalt_only core tid ins s (only_refl s _) (List.Subset.refl _)
  | .tpref core tid ins => execTpref_only core tid ins s (only_refl s _) (List.Subset.refl _)
  | .tinv core tid ins => execTinv_only core tid ins s (only_refl s _) (List.Subset.refl _)
  | .illegalInstruction core tid word => execIllegalInstruction_only core tid word s (only_refl s _) (List.Subset.refl _)
  | .corePoolCompletion core tid n => execCorePoolCompletion_only core tid n s (only_refl s _) (List.Subset.refl _)
  | .mxeMma core => execMxeMma_only core s (only_refl s _) (List.Subset.refl _)
  | .mxeZero core => execMxeZero_only core s (only_refl s _) (List.Subset.refl _)
  | .mxeStore core => execMxeStore_only core s (only_refl s _) (List.Subset.refl _)
  | .mxeLoad core => execMxeLoad_only core s (only_refl s _) (List.Subset.refl _)
  | .veAdd core ve => execVeAdd_only core ve s (only_refl s _) (List.Subset.refl _)
  | .veSub core ve => execVeSub_only core ve s (only_refl s _) (List.Subset.refl _)
  | .veMul core ve => execVeMul_only core ve s (only_refl s _) (List.Subset.refl _)
  | .veFma core ve => execVeFma_only core ve s (only_refl s _) (List.Subset.refl _)
  | .veMax core ve => execVeMax_only core ve s (only_refl s _) (List.Subset.refl _)
  | .veMin core ve => execVeMin_only core ve s (only_refl s _) (List.Subset.refl _)
  | .veCvt core ve => execVeCvt_only core ve s (only_refl s _) (List.Subset.refl _)
  | .veExp2 core ve => execVeExp2_only core ve s (only_refl s _) (List.Subset.refl _)
  | .veLog2 core ve => execVeLog2_only core ve s (only_refl s _) (List.Subset.refl _)
  | .veRcp core ve => execVeRcp_only core ve s (only_refl s _) (List.Subset.refl _)
  | .veRsqrt core ve => execVeRsqrt_only core ve s (only_refl s _) (List.Subset.refl _)
  | .veRsum core ve => execVeRsum_only core ve s (only_refl s _) (List.Subset.refl _)
  | .veRmax core ve => execVeRmax_only core ve s (only_refl s _) (List.Subset.refl _)
  | .gfeGather core => execGfeGather_only core s (only_refl s _) (List.Subset.refl _)
  | .gfeScatter core => execGfeScatter_only core s (only_refl s _) (List.Subset.refl _)
  | .gfeFilter core => execGfeFilter_only core s (only_refl s _) (List.Subset.refl _)
  | .gfeTopk core => execGfeTopk_only core s (only_refl s _) (List.Subset.refl _)
  | .engineInvalidDescriptor core engine => execEngineInvalidDescriptor_only core engine s (only_refl s _) (List.Subset.refl _)
  | .engineCommandComplete core engine => execEngineCommandComplete_only core engine s (only_refl s _) (List.Subset.refl _)
  | .shadowCompare core engine differ => execShadowCompare_only core engine differ s (only_refl s _) (List.Subset.refl _)
  | .majorityVote core engine vote => execMajorityVote_only core engine vote s (only_refl s _) (List.Subset.refl _)
  | .clvBindEnable tag value => execClvBindEnable_only tag value s (only_refl s _) (List.Subset.refl _)
  | .clvBindDisable tag value => execClvBindDisable_only tag value s (only_refl s _) (List.Subset.refl _)
  | .clvCmdAbort tag => execClvCmdAbort_only tag s (only_refl s _) (List.Subset.refl _)
  | .clvGrpMemberWrite tag j value => execClvGrpMemberWrite_only tag j value s (only_refl s _) (List.Subset.refl _)
  | .heldOpenRetry n => execHeldOpenRetry_only n s (only_refl s _) (List.Subset.refl _)
  | .chunkSlotsFreed id who chunk => execChunkSlotsFreed_only id who chunk s (only_refl s _) (List.Subset.refl _)
  | .collectiveCommit id => execCollectiveCommit_only id s (only_refl s _) (List.Subset.refl _)
  | .abortComplete id => execAbortComplete_only id s (only_refl s _) (List.Subset.refl _)
  | .atnCmdRelease tag handle => execAtnCmdRelease_only tag handle s (only_refl s _) (List.Subset.refl _)
  | .handleFreed handle => execHandleFreed_only handle s (only_refl s _) (List.Subset.refl _)
  | .splitComplete decode split => execSplitComplete_only decode split s (only_refl s _) (List.Subset.refl _)
  | .kvProbeComplete walk => execKvProbeComplete_only walk s (only_refl s _) (List.Subset.refl _)
  | .decodeComplete decode => execDecodeComplete_only decode s (only_refl s _) (List.Subset.refl _)
  | .gateCommit tag port value => execGateCommit_only tag port value s (only_refl s _) (List.Subset.refl _)
  | .queShapeWrite tag port queue value => execQueShapeWrite_only tag port queue value s (only_refl s _) (List.Subset.refl _)
  | .prtPshapeWrite tag port value => execPrtPshapeWrite_only tag port value s (only_refl s _) (List.Subset.refl _)
  | .prtBrdWrite tag port burst value => execPrtBrdWrite_only tag port burst value s (only_refl s _) (List.Subset.refl _)
  | .rateLoopIncrease port => execRateLoopIncrease_only port s (only_refl s _) (List.Subset.refl _)
  | .belvedereClear tag port queue value => execBelvedereClear_only tag port queue value s (only_refl s _) (List.Subset.refl _)
  | .belvedereSnap tag port queue value => execBelvedereSnap_only tag port queue value s (only_refl s _) (List.Subset.refl _)
  | .imgwr tag addr words => execImgwr_only tag addr words s (only_refl s _) (List.Subset.refl _)
  | .cmpoValidate tag => execCmpoValidate_only tag s (only_refl s _) (List.Subset.refl _)
  | .imageValidationDone => execImageValidationDone_only s (only_refl s _) (List.Subset.refl _)
  | .cmpoLoad tag => execCmpoLoad_only tag s (only_refl s _) (List.Subset.refl _)
  | .loadComplete => execLoadComplete_only s (only_refl s _) (List.Subset.refl _)
  | .cmpoApply tag => execCmpoApply_only tag s (only_refl s _) (List.Subset.refl _)
  | .applyPrepared => execApplyPrepared_only s (only_refl s _) (List.Subset.refl _)
  | .epochFlip => execEpochFlip_only s (only_refl s _) (List.Subset.refl _)
  | .sectorHandover block => execSectorHandover_only block s (only_refl s _) (List.Subset.refl _)
  | .windowClose => execWindowClose_only s (only_refl s _) (List.Subset.refl _)
  | .cmpoDiscard tag => execCmpoDiscard_only tag s (only_refl s _) (List.Subset.refl _)
  | .handoffTimerExpiry index => execHandoffTimerExpiry_only index s (only_refl s _) (List.Subset.refl _)
  | .tcActivate tag => execTcActivate_only tag s (only_refl s _) (List.Subset.refl _)
  | .tcRetire tag => execTcRetire_only tag s (only_refl s _) (List.Subset.refl _)
  | .teardownScrubStart tc => execTeardownScrubStart_only tc s (only_refl s _) (List.Subset.refl _)
  | .teardownComplete tc => execTeardownComplete_only tc s (only_refl s _) (List.Subset.refl _)
  | .tenantFree tc => execTenantFree_only tc s (only_refl s _) (List.Subset.refl _)
  | .tcSetkey tag => execTcSetkey_only tag s (only_refl s _) (List.Subset.refl _)
  | .secPkeyDataWrite tag value => execSecPkeyDataWrite_only tag value s (only_refl s _) (List.Subset.refl _)
  | .instReq tag => execInstReq_only tag s (only_refl s _) (List.Subset.refl _)
  | .instEnd tag => execInstEnd_only tag s (only_refl s _) (List.Subset.refl _)
  | .installerWindowExpiry => execInstallerWindowExpiry_only s (only_refl s _) (List.Subset.refl _)
  | .presBtnAssert since => execPresBtnAssert_only since s (only_refl s _) (List.Subset.refl _)
  | .presBtnRelease since => execPresBtnRelease_only since s (only_refl s _) (List.Subset.refl _)
  | .sealLoopOpen since => execSealLoopOpen_only since s (only_refl s _) (List.Subset.refl _)
  | .debugRead tag => execDebugRead_only tag s (only_refl s _) (List.Subset.refl _)
  | .debugReadComplete => execDebugReadComplete_only s (only_refl s _) (List.Subset.refl _)
  | .fwVerify tag => execFwVerify_only tag s (only_refl s _) (List.Subset.refl _)
  | .fwVerifyDone => execFwVerifyDone_only s (only_refl s _) (List.Subset.refl _)
  | .fwCommit tag => execFwCommit_only tag s (only_refl s _) (List.Subset.refl _)
  | .fwCommitDone ok => execFwCommitDone_only ok s (only_refl s _) (List.Subset.refl _)
  | .fwRaiseMin tag => execFwRaiseMin_only tag s (only_refl s _) (List.Subset.refl _)
  | .attReport tag => execAttReport_only tag s (only_refl s _) (List.Subset.refl _)
  | .attIdkey tag => execAttIdkey_only tag s (only_refl s _) (List.Subset.refl _)
  | .thermalSample site temp vdd => execThermalSample_only site temp vdd s (only_refl s _) (List.Subset.refl _)
  | .thermalEscalate site => execThermalEscalate_only site s (only_refl s _) (List.Subset.refl _)
  | .thermalLevelDecay site => execThermalLevelDecay_only site s (only_refl s _) (List.Subset.refl _)
  | .auditSample disagree => execAuditSample_only disagree s (only_refl s _) (List.Subset.refl _)
  | .logUnfence tag => execLogUnfence_only tag s (only_refl s _) (List.Subset.refl _)
  | .logClear tag => execLogClear_only tag s (only_refl s _) (List.Subset.refl _)
  | .recoveryStepDone => execRecoveryStepDone_only s (only_refl s _) (List.Subset.refl _)
  | .modService tag => execModService_only tag s (only_refl s _) (List.Subset.refl _)
  | .modDrain tag => execModDrain_only tag s (only_refl s _) (List.Subset.refl _)
  | .drainStepComplete => execDrainStepComplete_only s (only_refl s _) (List.Subset.refl _)
  | .modRecover tag => execModRecover_only tag s (only_refl s _) (List.Subset.refl _)
  | .modWarm tag => execModWarm_only tag s (only_refl s _) (List.Subset.refl _)
  | .bootStepComplete report => execBootStepComplete_only report s (only_refl s _) (List.Subset.refl _)
  | .testStepComplete ok => execTestStepComplete_only ok s (only_refl s _) (List.Subset.refl _)
  | .attnBtnPress since => execAttnBtnPress_only since s (only_refl s _) (List.Subset.refl _)
  | .present1Assert => execPresent1Assert_only s (only_refl s _) (List.Subset.refl _)
  | .prechargeComplete => execPrechargeComplete_only s (only_refl s _) (List.Subset.refl _)
  | .present2Stable => execPresent2Stable_only s (only_refl s _) (List.Subset.refl _)
  | .powerGood => execPowerGood_only s (only_refl s _) (List.Subset.refl _)
  | .presentDeassert second => execPresentDeassert_only second s (only_refl s _) (List.Subset.refl _)
  | .inputUndervoltage since => execInputUndervoltage_only since s (only_refl s _) (List.Subset.refl _)
  | .inputOvercurrent => execInputOvercurrent_only s (only_refl s _) (List.Subset.refl _)
  | .powerRemoved => execPowerRemoved_only s (only_refl s _) (List.Subset.refl _)
  | .adkRd tag addr len => execAdkRd_only tag addr len s (only_refl s _) (List.Subset.refl _)
  | .logrd tag addr len => execLogrd_only tag addr len s (only_refl s _) (List.Subset.refl _)
  | .adkFrameReject btype words low crc => execAdkFrameReject_only btype words low crc s (only_refl s _) (List.Subset.refl _)
  | .adkLinkctl word => execAdkLinkctl_only word s (only_refl s _) (List.Subset.refl _)
  | .adkLinkctlTimer => execAdkLinkctlTimer_only s (only_refl s _) (List.Subset.refl _)
  | .adkReplayTimeout => execAdkReplayTimeout_only s (only_refl s _) (List.Subset.refl _)
  | .adkTrainingComplete => execAdkTrainingComplete_only s (only_refl s _) (List.Subset.refl _)
  | .adkTrainingTimeout => execAdkTrainingTimeout_only s (only_refl s _) (List.Subset.refl _)
  | .eventSend => execEventSend_only s (only_refl s _) (List.Subset.refl _)
  | .spareProgram tag => execSpareProgram_only tag s (only_refl s _) (List.Subset.refl _)
  | .makerModeWrite tag value => execMakerModeWrite_only tag value s (only_refl s _) (List.Subset.refl _)
  | .powerCapCheck avgW => execPowerCapCheck_only avgW s (only_refl s _) (List.Subset.refl _)
  | .sensorSample reading => execSensorSample_only reading s (only_refl s _) (List.Subset.refl _)
  | .copylComplete core tid => execCopylComplete_only core tid s (only_refl s _) (List.Subset.refl _)
  | .trellisEdgeRetrainDone edge => execTrellisEdgeRetrainDone_only edge s (only_refl s _) (List.Subset.refl _)
  | .makerJmpChange fitted since => execMakerJmpChange_only fitted since s (only_refl s _) (List.Subset.refl _)
  | .sealLoopClose since => execSealLoopClose_only since s (only_refl s _) (List.Subset.refl _)
  | .adkLinkLoss => execAdkLinkLoss_only s (only_refl s _) (List.Subset.refl _)

end Sys2Proof.Machine
end

section
/-! SUPPORT. Fabric time: which operations leave it where it is, and what the one correction does that sets it back (R37, R44). -/

namespace Sys2Proof.Machine

/-! ### Operations that leave fabric time alone -/

/-- Where the time unit is not among the parts that change, fabric time stays. -/
theorem State.now_of_only {s t : State} {ps : List Part} (h : s.changesOnly t ps) (hp : Part.tim ∉ ps) :
    t.now = s.now :=
  congrArg Tim.ft (h .tim hp)

/-- An operation that changes the parts `l` leaves the time unit alone, where that is not one of them. -/
theorem State.tim_of_frame {s t : State} {l : List Part} (h : s.changesOnly s l → l ⊆ l → s.changesOnly t l)
    (hp : Part.tim ∉ l) : t.tim = s.tim :=
  h (only_refl s l) (List.Subset.refl l) .tim hp

theorem State.now_of_frame {s t : State} {l : List Part} (h : s.changesOnly s l → l ⊆ l → s.changesOnly t l)
    (hp : Part.tim ∉ l) : t.now = s.now :=
  congrArg Tim.ft (State.tim_of_frame h hp)

theorem foldl_now {α : Type} (f : State → α → State) (l : List α) (s : State) (hf : ∀ s a, (f s a).now = s.now) :
    (l.foldl f s).now = s.now := by
  induction l generalizing s with
  | nil => rfl
  | cons a l ih => exact (ih (f s a)).trans (hf s a)

/-- An outcome that is a next state has the fabric time of `s`. -/
def keepsNow (s : State) (o : Host.Outcome State Fault Refusal) : Prop := ∀ t, o = .next t → t.now = s.now

theorem next_keepsNow {s t : State} (h : t.now = s.now) : keepsNow s (.next t) :=
  fun _ e => Host.Outcome.next.inj e ▸ h

theorem onlyNext.keepsNow {s : State} {o : Host.Outcome State Fault Refusal} {ps : List Part} (h : onlyNext s o ps)
    (hp : Part.tim ∉ ps) : keepsNow s o :=
  fun t e => State.now_of_only (h t e) hp

@[simp] theorem State.paid_now (s : State) (k : Nat) : (s.paid k).now = s.now := rfl

@[simp] theorem State.owing_now (s : State) (k : Nat) : (s.owing k).now = s.now := by
  unfold State.owing
  dsimp only [State.now]
  split <;> split <;> rfl

@[simp] theorem State.logE_tim (s : State) (c d : Nat) (r : BitVec 16) (p : Nat) (m : Bool) : (s.logE c d r p m).tim = s.tim :=
  State.tim_of_frame (State.logE_only s c d r p m) (by decide)

@[simp] theorem State.changeState_now (s : State) (n : ModState) (code trig : Nat) : (s.changeState n code trig).now = s.now :=
  State.now_of_frame (State.changeState_only s n code trig) (by decide)

/-- A warm reset keeps the count of fabric time (R380). -/
@[simp] theorem State.warm_now (s : State) : s.warm.now = s.now :=
  State.changeState_now _ .boot 0x40 0

/-! ### Changes of the FT state -/

/-- The time unit after a change to the FT state `n`. -/
def Tim.enter (t : Tim) (n : FtState) : Tim :=
  { t with
    state := n
    markRun := if t.state = .locked then 0 else t.markRun
    errs := if n = .locked then [] else t.errs
    slew := if n = .locked then t.slew else 0
    slewSlot := if n = .locked then t.slewSlot else 0
    holdFrom := if n = .holdover then t.ft else t.holdFrom }

theorem State.ftLost_tim (s : State) : s.ftLost.tim = s.tim :=
  State.tim_of_frame (State.ftLost_only s) (by decide)

theorem State.ftFound_tim (s : State) : s.ftFound.tim = s.tim :=
  State.tim_of_frame (State.ftFound_only s) (by decide)

theorem State.ite_ftFound_tim (c : Prop) [Decidable c] (s : State) : (if c then s else s.ftFound).tim = s.tim := by
  split
  · rfl
  · exact State.ftFound_tim s

/-- The consumers of Table 02-3 leave the time unit as the change of state has left it. -/
theorem State.ftTo_tim {s : State} {n : FtState} (h : s.tim.state ≠ n) : (s.ftTo n).tim = s.tim.enter n := by
  unfold State.ftTo
  rw [if_neg h]
  cases n with
  | lost => exact (State.ftLost_tim _).trans (State.logE_tim _ _ _ _ _ _)
  | locked => exact (State.ite_ftFound_tim _ _).trans (State.logE_tim _ _ _ _ _ _)
  | unset => exact State.logE_tim _ _ _ _ _ _
  | holdover => exact State.logE_tim _ _ _ _ _ _

theorem State.ftTo_self {s : State} {n : FtState} (h : s.tim.state = n) : s.ftTo n = s := by
  unfold State.ftTo
  exact if_pos h

@[simp] theorem State.ftTo_now (s : State) (n : FtState) : (s.ftTo n).now = s.now := by
  by_cases h : s.tim.state = n
  · rw [State.ftTo_self h]
  · simp only [State.now, State.ftTo_tim h, Tim.enter]

/-! ### Marks, the end of a stall, distribution and TIM_CTRL -/

@[simp] theorem State.markMissing_now (s : State) : s.markMissing.now = s.now := by
  unfold State.markMissing
  dsimp only
  split
  · exact State.ftTo_now _ _
  · rfl

@[simp] theorem State.markClose_now (s : State) : s.markClose.now = s.now := by
  unfold State.markClose
  split
  · exact State.markMissing_now _
  · rfl

@[simp] theorem State.holdEnds_now (s : State) : s.holdEnds.now = s.now := by
  unfold State.holdEnds
  split
  · exact State.ftTo_now _ _
  · rfl

/-- A correction that is recorded leaves its mark in TIM_STATUS, and moves nothing itself. -/
theorem State.ftRecord_tim (s : State) (kind before after second : Nat) (amt : Int) :
    (s.ftRecord kind before after second amt).tim =
      { s.tim with stepAmt := BitVec.ofInt 64 amt, stepAt := BitVec.ofNat 64 after, stepped := true,
                   corrections := s.tim.corrections + 1 } :=
  State.logE_tim _ _ _ _ _ _

@[simp] theorem State.ftRecord_now (s : State) (kind before after second : Nat) (amt : Int) :
    (s.ftRecord kind before after second amt).now = s.now := by
  simp only [State.now, State.ftRecord_tim]

@[simp] theorem State.ftLoad_now (s : State) (x : Nat) : (s.ftLoad x).now = s.now := rfl

@[simp] theorem State.timCtrl_now (s : State) (v : BitVec 64) : (s.timCtrl v).1.now = s.now := by
  unfold State.timCtrl
  dsimp only
  split
  · rfl
  · exact State.holdEnds_now _

theorem execRtCodeFrame_keepsNow (sync : BitVec 16) (markFt : BitVec 64) (flags : BitVec 8) (crc : BitVec 16) (s : State) :
    keepsNow s (execRtCodeFrame sync markFt flags crc s) := by
  refine next_keepsNow ?_
  split
  · rfl
  · dsimp only
    split
    · exact State.markClose_now _
    · exact (State.markMissing_now _).trans (State.markClose_now _)

theorem execMarkWindowExpiry_keepsNow (s : State) : keepsNow s (execMarkWindowExpiry s) := by
  refine next_keepsNow ?_
  split
  · split
    · exact State.markClose_now _
    · rfl
  · rfl

theorem execRtCodeAbsentTimeout_keepsNow (s : State) : keepsNow s (execRtCodeAbsentTimeout s) := by
  refine next_keepsNow ?_
  split
  · exact State.markMissing_now _
  · rfl

theorem execRtRefLoss_keepsNow (since : BitVec 64) (s : State) : keepsNow s (execRtRefLoss since s) := by
  refine next_keepsNow ?_
  split
  · exact State.ftTo_now _ _
  · rfl

theorem execHoldoverExpiry_keepsNow (s : State) : keepsNow s (execHoldoverExpiry s) := by
  refine next_keepsNow ?_
  split
  · exact State.holdEnds_now _
  · rfl

theorem execFtStallEnd_keepsNow (s : State) : keepsNow s (execFtStallEnd s) := by
  refine next_keepsNow ?_
  split
  · exact (State.ftTo_now _ _).trans (State.ftRecord_now _ _ _ _ _ _)
  · rfl

theorem execFtDistribute_keepsNow (s : State) : keepsNow s (execFtDistribute s) := by
  refine next_keepsNow ?_
  split
  · exact foldl_now State.ftLoad _ _ State.ftLoad_now
  · rfl

/-! ### Periodic series -/

theorem execHeatDecay_keepsNow (s : State) : keepsNow s (execHeatDecay s) := by
  refine next_keepsNow ?_
  split
  · refine (State.now_of_frame (State.halveHeat_only _) (by decide)).trans ?_
    exact (foldl_now _ _ _ fun t p => State.now_of_frame (State.decidePage_only t p) (by decide)).trans (State.paid_now s 4)
  · rfl

theorem execScrubWindow_keepsNow (hits : List EccHit) (s : State) : keepsNow s (execScrubWindow hits s) := by
  refine next_keepsNow ?_
  split
  · exact (State.now_of_frame (State.applyHits_only _ hits) (by decide)).trans (State.paid_now s 3)
  · rfl

theorem execSelfTestSlot_keepsNow (s : State) : keepsNow s (execSelfTestSlot s) := by
  have hslot : ∀ (t : State) (cl n : Nat), (t.testSlot cl n).now = t.now := fun t cl n =>
    State.now_of_frame (State.testSlot_only t cl n) (by decide)
  refine next_keepsNow ?_
  dsimp only
  split
  · rfl
  · refine (foldl_now _ _ _ fun t cl => ?_).trans (State.paid_now s 5)
    split
    · rfl
    · split
      · exact hslot _ _ _
      · split
        · exact hslot _ _ _
        · rfl

theorem execMarginScan_keepsNow (items : List Measure) (held : BitVec 32) (s : State) :
    keepsNow s (execMarginScan items held s) := by
  refine next_keepsNow ?_
  dsimp only
  split
  · rfl
  · exact foldl_now _ _ _ fun t m => State.now_of_frame (State.measure_only t m) (by decide)

/-! ### Writes of registers -/

@[simp] theorem State.trnMigCfg_now (s : State) (v : BitVec 64) : (s.trnMigCfg v).1.now = s.now := by
  unfold State.trnMigCfg
  dsimp only
  split
  · rfl
  · split
    · rfl
    · exact State.owing_now s 4

@[simp] theorem State.writeTrn_now (s : State) (off : Nat) (v : BitVec 64) : (s.writeTrn off v).1.now = s.now := by
  unfold State.writeTrn
  dsimp only
  split
  case h_2 => exact State.now_of_frame (State.trnRoot_only s v) (by decide)
  case h_5 => exact State.now_of_frame (State.invGo_only s v) (by decide)
  case h_7 => exact State.now_of_frame (State.ptwPolicy_only s v) (by decide)
  case h_8 => exact State.trnMigCfg_now s v
  case h_9 => exact State.now_of_frame (State.trnMigWarm_only s v) (by decide)
  case h_11 => exact State.now_of_frame (State.tpCmd_only s v) (by decide)
  case h_13 => exact State.now_of_frame (State.trayCmd_only s v) (by decide)
  case h_14 => exact State.now_of_frame (State.trnBrCfg_only s v) (by decide)
  all_goals rfl

@[simp] theorem State.writeModule_now (s : State) (page off : Nat) (v : BitVec 64) : (s.writeModule page off v).1.now = s.now := by
  unfold State.writeModule
  split
  · exact State.now_of_frame (State.writeGlb_only s off v) (by decide)
  · exact State.now_of_frame (State.writeExt_only s off v) (by decide)
  · exact State.writeTrn_now s off v
  · exact State.now_of_frame (State.writeCmp_only s off v) (by decide)
  · exact State.now_of_frame (State.writeClv_only s off v) (by decide)
  · exact State.now_of_frame (State.writeAtn_only s off v) (by decide)
  · exact State.now_of_frame (State.writeCmpo_only s off v) (by decide)
  · rfl

/-- A write that changes a period moves the series of its class, not fabric time (R48). -/
theorem State.owing_ite_now (c : Prop) [Decidable c] (s : State) (k : Nat) : (if c then s else s.owing k).now = s.now := by
  split
  · rfl
  · exact State.owing_now s k

@[simp] theorem State.writeLog_now (s : State) (off : Nat) (v : BitVec 64) : (s.writeLog off v).1.now = s.now := by
  unfold State.writeLog
  dsimp only
  split
  case h_2 => exact State.now_of_frame (State.logCmd_only s v) (by decide)
  case h_3 => exact (State.owing_ite_now _ _ 6).trans (State.owing_ite_now _ s 3)
  case h_7 => exact State.owing_ite_now _ s 5
  case h_12 => exact State.now_of_frame (State.logFence_only s v) (by decide)
  all_goals rfl

@[simp] theorem State.modCmd_now (s : State) (v : BitVec 64) : (s.modCmd v).1.now = s.now :=
  State.now_of_frame (State.modCmd_only s v) (by decide)

@[simp] theorem State.writeMod_now (s : State) (off : Nat) (v : BitVec 64) : (s.writeMod off v).1.now = s.now := by
  unfold State.writeMod
  split
  · dsimp only
    split <;> rfl
  · split
    · exact State.warm_now s
    · exact State.modCmd_now s v
  · rfl

@[simp] theorem State.writeSd1_now (s : State) (page off : Nat) (v : BitVec 64) : (s.writeSd1 page off v).1.now = s.now := by
  unfold State.writeSd1
  split
  case h_2 => exact State.timCtrl_now s v
  case h_3 => exact State.now_of_frame (State.lseBounds_only s v) (by decide)
  case h_5 => exact State.now_of_frame (State.lseEntry_only s v) (by decide)
  case h_6 => exact State.now_of_frame (State.lseCmd_only s v) (by decide)
  all_goals rfl

/-- No write of a register moves fabric time: TIM_FT is read-only (R49). -/
@[simp] theorem State.regWrite_now (s : State) (a : Nat) (v : BitVec 64) : (s.regWrite a v).1.now = s.now := by
  unfold State.regWrite
  dsimp only
  split
  · rfl
  split
  · exact State.now_of_frame (State.writeCommon_only s _ _ _ v) (by decide)
  split
  · rfl
  split
  · exact State.writeModule_now s _ _ v
  · exact State.now_of_frame (State.writeSec_only s _ v) (by decide)
  · exact State.writeLog_now s _ v
  · exact State.writeMod_now s _ v
  · exact State.writeSd1_now s _ _ v
  · exact State.now_of_frame (State.writePrt_only s _ _ v) (by decide)
  · exact State.now_of_frame (State.writeQue_only s _ _ _ v) (by decide)
  · exact State.now_of_frame (State.writeCoh_only s _ _ v) (by decide)
  · dsimp only
    split <;> rfl
  · rfl

@[simp] theorem State.policyApply_now (rs : List (Nat × BitVec 64)) (s : State) : (State.policyApply rs s).now = s.now := by
  refine foldl_now _ _ _ fun t r => ?_
  dsimp only
  split
  · exact (congrArg Tim.ft (State.logE_tim _ _ _ _ _ _)).trans (State.regWrite_now t r.1 r.2)
  · exact State.regWrite_now t r.1 r.2

/-! ### Requests of the adapter -/

@[simp] theorem State.adkReply_now (s : State) (q : AdkFrame) (st : BitVec 6) (a : BitVec 48) (w : List (BitVec 64)) :
    (s.adkReply q st a w).now = s.now := congrArg Tim.ft (State.adkReply_tim s q st a w)

@[simp] theorem State.adkFail_now (s : State) (q : AdkFrame) (st : BitVec 6) : (s.adkFail q st).now = s.now :=
  congrArg Tim.ft (State.adkFail_tim s q st)

@[simp] theorem State.adkMalformed_now (s : State) (q : AdkFrame) : (s.adkMalformed q).now = s.now :=
  State.now_of_frame (State.adkMalformed_only s q) (by decide)

theorem State.adkPerform_now (s : State) (q : AdkFrame) (body : State → State) (hb : ∀ t, (body t).now = t.now) :
    (s.adkPerform q body).now = s.now := by
  have hserve : ∀ t : State, (if t.adkServes q then body t else t.adkFail q stDenied).now = t.now := fun t => by
    split
    · exact hb t
    · exact State.adkFail_now t q stDenied
  unfold State.adkPerform
  dsimp only
  split
  · split
    · exact congrArg Tim.ft (State.adkSend_tim (s.adkUse q) _)
    · exact hserve (s.adkUse q)
  · exact hserve (s.adkUse q)

theorem State.adkRequest_now (s : State) (q : AdkFrame) (ok : Bool) (body : State → State) (hb : ∀ t, (body t).now = t.now) :
    (s.adkRequest q ok body).now = s.now := by
  unfold State.adkRequest
  dsimp only
  split
  · rfl
  split
  · rfl
  split
  · exact State.adkMalformed_now s.adkTake q
  · exact State.adkPerform_now s.adkTake q body hb

theorem State.wrBody_now (q : AdkFrame) (r : Role) (f : State → State × BitVec 6) (s : State) (hf : ∀ t, (f t).1.now = t.now) :
    (State.wrBody q r f s).now = s.now := by
  unfold State.wrBody
  split
  · exact (State.adkReply_now _ _ _ _ _).trans (hf s)
  · exact (State.adkReply_now _ _ _ _ _).trans
      (State.now_of_frame (State.denyRole_only s r _) (by decide))

@[simp] theorem State.modBody_now (q : AdkFrame) (v : BitVec 64) (s : State) : (State.modBody q v s).now = s.now := by
  unfold State.modBody
  split
  · exact State.warm_now s
  · exact State.wrBody_now q .operator _ s fun t => State.modCmd_now t v

@[simp] theorem State.modWr_now (s : State) (tag : BitVec 16) (v : BitVec 64) : (s.modWr tag v).now = s.now :=
  State.adkRequest_now s _ true _ (State.modBody_now _ v)

theorem execTimCtrlWrite_keepsNow (tag : BitVec 16) (value : BitVec 64) (s : State) :
    keepsNow s (execTimCtrlWrite tag value s) :=
  next_keepsNow (State.adkRequest_now s _ true _ fun t => State.wrBody_now _ _ _ t fun u => State.timCtrl_now u value)

@[simp] theorem State.wrAny_now (q : AdkFrame) (s : State) : (State.wrAny q s).now = s.now := by
  unfold State.wrAny
  dsimp only
  split
  · exact State.adkReply_now _ _ _ _ _
  split
  · exact State.now_of_frame (State.ptwStart_only s q _) (by decide)
  split
  · exact State.now_of_frame (State.dbgStart_only s q) (by decide)
  split
  · exact State.modBody_now q _ s
  split
  · exact State.now_of_frame (State.extBody_only q _ s) (by decide)
  · exact State.wrBody_now q _ _ s fun t => State.regWrite_now t _ _

@[simp] theorem State.rdReply_now (q : AdkFrame) (s : State) : (State.rdReply q s).now = s.now := by
  have hdiag : (if q.covers (glbAddr 0x138) then s.makerDiag else s).now = s.now := by
    split
    · exact State.now_of_frame (State.makerDiag_only s) (by decide)
    · rfl
  unfold State.rdReply
  dsimp only
  refine (State.adkReply_now _ _ _ _ _).trans ?_
  split <;> exact hdiag

@[simp] theorem State.rdAny_now (q : AdkFrame) (s : State) : (State.rdAny q s).now = s.now := by
  unfold State.rdAny
  split
  · exact State.adkFail_now s q stDenied
  split
  · exact State.now_of_frame (State.ptwStart_only s q none) (by decide)
  · exact State.rdReply_now q s

@[simp] theorem State.adkAny_now (q : AdkFrame) (s : State) : (State.adkAny q s).now = s.now := by
  unfold State.adkAny
  split
  · exact State.rdAny_now q s
  split
  · exact State.wrAny_now q s
  split
  · exact State.now_of_frame (State.imgAny_only q s) (by decide)
  · exact State.now_of_frame (State.logAny_only q s) (by decide)

@[simp] theorem State.adkRun_now (l : List AdkFrame) (s : State) : (State.adkRun l s).now = s.now := by
  induction l generalizing s with
  | nil => rfl
  | cons q rest ih =>
    have hone : ∀ t : State, (if q.bad then t.adkMalformed q else t.adkPerform q (State.adkAny q)).now = t.now := fun t => by
      split
      · exact State.adkMalformed_now t q
      · exact State.adkPerform_now t q _ (State.adkAny_now q)
    have hrest : ∀ t : State, (if q.warms && t.adk.kept.isEmpty then t
        else if t.adk.outstanding.isEmpty then State.adkRun rest t
        else { t with adk := { t.adk with outstanding := t.adk.outstanding ++ rest } }).now = t.now := fun t => by
      split
      · rfl
      split
      · exact ih t
      · rfl
    unfold State.adkRun
    exact (hrest _).trans (hone _)

@[simp] theorem State.adkResume_now (s : State) : s.adkResume.now = s.now := State.adkRun_now _ _

theorem execRegisterWrite_keepsNow (tag : BitVec 16) (addr : BitVec 48) (value held : BitVec 64) (s : State) :
    keepsNow s (execRegisterWrite tag addr value held s) :=
  next_keepsNow (State.adkRequest_now s _ _ _ (State.wrAny_now _))

theorem execAdkRd_keepsNow (tag : BitVec 16) (addr : BitVec 48) (len : BitVec 16) (s : State) :
    keepsNow s (execAdkRd tag addr len s) :=
  next_keepsNow (State.adkRequest_now s _ _ _ (State.rdAny_now _))

theorem execRcRead_keepsNow (tag : BitVec 16) (incs : BitVec 32) (s : State) : keepsNow s (execRcRead tag incs s) :=
  next_keepsNow (State.adkRequest_now s _ _ _ (State.rdAny_now _))

theorem execPtwAccessComplete_keepsNow (s : State) : keepsNow s (execPtwAccessComplete s) := by
  refine next_keepsNow ?_
  split
  · split
    · rfl
    · refine (State.adkResume_now _).trans ?_
      dsimp only
      split
      · exact State.adkFail_now _ _ _
      split
      · exact State.adkReply_now _ _ _ _ _
      · exact State.rdReply_now _ _
  · rfl

theorem execMakeRoom_keepsNow (s : State) : keepsNow s (execMakeRoom s) := by
  have hroom : s.makeRoomStep.1.now = s.now := State.now_of_frame (State.makeRoomStep_only s) (by decide)
  have hassign : ∀ (t : State) (made : Bool) (e : Nat), (if made then t.extAssign e true else (t, none)).1.now = t.now :=
    fun t made e => by
      split
      · exact State.now_of_frame (State.extAssign_only t e true) (by decide)
      · rfl
  refine next_keepsNow ?_
  dsimp only
  split
  · rfl
  split
  · split
    · exact hroom
    · refine (State.adkResume_now _).trans ((State.adkReply_now _ _ _ _ _).trans ?_)
      refine (State.now_of_frame (State.extResult_only _ _ _) (by decide)).trans ?_
      exact (hassign _ _ _).trans hroom
  · exact hroom

@[simp] theorem State.dbgResult_now (s : State) (st : BitVec 6) (line : List Byte) : (s.dbgResult st line).now = s.now :=
  State.now_of_frame (State.dbgResult_only s st line) (by decide)

theorem execDebugReadComplete_keepsNow (s : State) : keepsNow s (execDebugReadComplete s) := by
  refine next_keepsNow ?_
  split
  · split
    · rfl
    · exact (State.adkResume_now _).trans ((State.adkReply_now _ _ _ _ _).trans (State.dbgResult_now _ _ _))
  · rfl

/-! ### A composition that comes into force -/

@[simp] theorem State.govern_now (s : State) (c g : List Section) : (s.govern c g).now = s.now :=
  State.now_of_frame (State.govern_only s c g) (by decide)

@[simp] theorem State.trainAll_now (s : State) (l : List Nat) : (s.trainAll l).now = s.now :=
  State.now_of_frame (State.trainAll_only s l) (by decide)

@[simp] theorem State.countCmpo_now (s : State) (i : Nat) : (s.countCmpo i).now = s.now :=
  State.now_of_frame (State.countCmpo_only s i) (by decide)

@[simp] theorem State.abortAgentMoves_now (s : State) (a b : List Section) : (s.abortAgentMoves a b).now = s.now :=
  State.now_of_frame (State.abortAgentMoves_only s a b) (by decide)

@[simp] theorem State.imgEmpty_now (s : State) : s.imgEmpty.now = s.now :=
  State.now_of_frame (State.imgEmpty_only s) (by decide)

theorem execLoadComplete_keepsNow (s : State) : keepsNow s (execLoadComplete s) := by
  have htest : ∀ (boot : Bool) (u : State), (if boot then
      let t := u.changeState .test 0x41 0
      { t with mod := { t.mod with testWork := 0, perst := 0 } }
    else u).now = u.now := fun boot u => by
    split
    · exact State.changeState_now u .test 0x41 0
    · rfl
  refine next_keepsNow ?_
  split
  · rfl
  split
  · rfl
  exact (State.imgEmpty_now _).trans ((State.trainAll_now _ _).trans ((State.policyApply_now _ _).trans ((htest _ _).trans
    ((State.govern_now _ _ _).trans ((State.countCmpo_now _ _).trans (State.abortAgentMoves_now s _ _))))))

theorem execEpochFlip_keepsNow (s : State) : keepsNow s (execEpochFlip s) := by
  refine next_keepsNow ?_
  split
  · rfl
  split
  · rfl
  refine (State.now_of_frame (State.windowEvent_only _ _ _ _) (by decide)).trans ?_
  refine (State.now_of_frame (State.epochNotes_only _ _ _) (by decide)).trans ?_
  refine (State.trainAll_now _ _).trans ((State.policyApply_now _ _).trans ((State.govern_now _ _ _).trans ?_))
  refine (State.countCmpo_now _ _).trans ?_
  refine (State.now_of_frame (State.hofRearm_only _ _ _) (by decide)).trans ?_
  exact State.abortAgentMoves_now s _ _

/-- Before power-good a presence pin opens the main path; PRESENT_1 of a running module is only noted (R384, R385). -/
theorem execPresentDeassert_first_keepsNow (s : State) : keepsNow s (execPresentDeassert false s) := by
  refine next_keepsNow ?_
  dsimp only
  split <;> rfl

/-! ### Every command but those of power and the mark edge -/

/-- The commands after which fabric time can be smaller: those that take the module through OFF, and the mark edge (R37). -/
def mayLowerFt (c : Instr) : Prop :=
  c = .powerGood ∨ c = .powerRemoved ∨ (∃ since, c = .inputUndervoltage since) ∨ c = .inputOvercurrent
    ∨ c = .presentDeassert true ∨ ∃ frac, c = .rtMarkEdge frac

/-- The commands that touch the time unit, and yet leave fabric time where it is. -/
theorem exec_keepsNow_of_tim (c : Instr) (s : State) (hc : ¬ mayLowerFt c) (hm : (mayChange c).contains .tim = true) :
    keepsNow s (exec c s) := by
  cases c
  case registerWrite tag addr value held => exact execRegisterWrite_keepsNow tag addr value held s
  case rcRead tag incs => exact execRcRead_keepsNow tag incs s
  case adkRd tag addr len => exact execAdkRd_keepsNow tag addr len s
  case ftDistribute => exact execFtDistribute_keepsNow s
  case rtCodeFrame sync markFt flags crc => exact execRtCodeFrame_keepsNow sync markFt flags crc s
  case markWindowExpiry => exact execMarkWindowExpiry_keepsNow s
  case rtCodeAbsentTimeout => exact execRtCodeAbsentTimeout_keepsNow s
  case rtRefLoss since => exact execRtRefLoss_keepsNow since s
  case holdoverExpiry => exact execHoldoverExpiry_keepsNow s
  case ftStallEnd => exact execFtStallEnd_keepsNow s
  case timCtrlWrite tag value => exact execTimCtrlWrite_keepsNow tag value s
  case scrubWindow hits => exact execScrubWindow_keepsNow hits s
  case heatDecay => exact execHeatDecay_keepsNow s
  case selfTestSlot => exact execSelfTestSlot_keepsNow s
  case marginScan items held => exact execMarginScan_keepsNow items held s
  case makeRoom => exact execMakeRoom_keepsNow s
  case ptwAccessComplete => exact execPtwAccessComplete_keepsNow s
  case debugReadComplete => exact execDebugReadComplete_keepsNow s
  case loadComplete => exact execLoadComplete_keepsNow s
  case epochFlip => exact execEpochFlip_keepsNow s
  case modService tag => exact next_keepsNow (State.modWr_now s tag 1)
  case modDrain tag => exact next_keepsNow (State.modWr_now s tag 2)
  case modRecover tag => exact next_keepsNow (State.modWr_now s tag 3)
  case modWarm tag => exact next_keepsNow (State.modWr_now s tag 4)
  case presentDeassert second =>
    cases second with
    | false => exact execPresentDeassert_first_keepsNow s
    | true => exact absurd (by simp [mayLowerFt]) hc
  case powerGood | powerRemoved | inputUndervoltage | inputOvercurrent | rtMarkEdge => exact absurd (by simp [mayLowerFt]) hc
  all_goals exact absurd hm Bool.false_ne_true

/-- Fabric time stays where it is in every command but the mark edge and those that take the module through OFF. -/
theorem exec_keepsNow (c : Instr) (s : State) (hc : ¬ mayLowerFt c) : keepsNow s (exec c s) := by
  cases hm : (mayChange c).contains .tim with
  | true => exact exec_keepsNow_of_tim c s hc hm
  | false => exact (exec_only c s).keepsNow (by simpa using hm)

/-! ### The backward step of the mark edge (R44) -/

/-- A stay outside LOCKED has ended with a recorded correction. -/
structure State.LocksByCorrection (s t : State) : Prop where
  before : s.tim.state ≠ .locked
  locked : t.tim.state = .locked
  stepped : t.tim.stepped = true
  corrections : t.tim.corrections = s.tim.corrections + 1

theorem State.lanesShift_tim (s : State) (d : Int) : (s.lanesShift d).tim = s.tim :=
  State.tim_of_frame (State.lanesShift_only s d) (by decide)

theorem State.ftJump_tim (s : State) (n : FT) : (s.ftJump n).tim = { s.tim with ft := n } := by
  unfold State.ftJump
  dsimp only
  refine (foldl_only State.sequence _ _
    (fun t p h => State.sequence_only t p h (List.Subset.refl _)) (only_refl _ _) .tim (by decide)).trans ?_
  exact congrArg (fun t : Tim => { t with ft := n }) (State.lanesShift_tim s _)

@[simp] theorem State.ftJump_now (s : State) (n : FT) : (s.ftJump n).now = n := by
  simp only [State.now, State.ftJump_tim]

@[simp] theorem State.fireLate_now (s : State) (l : List (FT × Nat × Nat)) : (s.fireLate l).now = s.now :=
  State.now_of_frame (State.fireLate_only s l) (by decide)

/-- A forward step adds to fabric time what the local counter lacks; the events that it skips fire without moving it
(R44, R45). -/
theorem State.ftCorrect_forward (s : State) {e : Int} (h : e ≤ 0) : (s.ftCorrect e).now = s.now + (-e).toNat := by
  have hlate : ∀ (t : State) (x : BitVec 32), ({ t with tim := { t.tim with lateFired := x } } : State).now = t.now :=
    fun _ _ => rfl
  unfold State.ftCorrect
  rw [if_pos h]
  exact (State.fireLate_now _ _).trans ((hlate _ _).trans ((State.ftTo_now _ .locked).trans
    ((State.ftRecord_now _ _ _ _ _ _).trans (State.ftJump_now s _))))

/-- A stall moves nothing when it begins (R44). -/
theorem State.ftCorrect_stall (s : State) {e : Int} (h : ¬ e ≤ 0) (hs : e.toNat ≤ s.tim.stepbackUs.toNat * usT) :
    (s.ftCorrect e).now = s.now := by
  unfold State.ftCorrect
  dsimp only
  rw [if_neg h, if_pos hs]
  simp only [State.now, State.lanesShift_tim]

theorem State.ftTo_locksByCorrection {s u : State} (hs : s.tim.state ≠ .locked) (hstate : u.tim.state = s.tim.state)
    (hstep : u.tim.stepped = true) (hcount : u.tim.corrections = s.tim.corrections + 1) :
    s.LocksByCorrection (u.ftTo .locked) := by
  have hu := State.ftTo_tim (hstate ▸ hs : u.tim.state ≠ .locked)
  exact ⟨hs, by rw [hu]; rfl, by rw [hu]; exact hstep, by rw [hu]; exact hcount⟩

/-- A forward step and a stall do not set fabric time back; a backward step is recorded and ends in LOCKED. -/
theorem State.ftCorrect_locks {s : State} {e : Int} (hs : s.tim.state ≠ .locked) (hlt : (s.ftCorrect e).now < s.now) :
    s.LocksByCorrection (s.ftCorrect e) := by
  by_cases hpos : e ≤ 0
  · have hle := hlt.trans_eq' (s.ftCorrect_forward hpos)
    exact absurd hle (Nat.not_lt_of_le (Nat.le_add_right _ _))
  by_cases hstall : e.toNat ≤ s.tim.stepbackUs.toNat * usT
  · exact absurd (hlt.trans_eq' (s.ftCorrect_stall hpos hstall)) (Nat.lt_irrefl _)
  · unfold State.ftCorrect
    rw [if_neg hpos, if_neg hstall]
    refine State.ftTo_locksByCorrection hs ?_ ?_ ?_
    · simp only [State.ftRecord_tim, State.realign, State.ftJump_tim]
    · simp only [State.ftRecord_tim]
    · simp only [State.ftRecord_tim, State.realign, State.ftJump_tim]

theorem State.LocksByCorrection.of_tim_eq {s u t : State} (h : u.LocksByCorrection t) (hstate : u.tim.state = s.tim.state)
    (hcount : u.tim.corrections = s.tim.corrections) : s.LocksByCorrection t :=
  ⟨hstate ▸ h.before, h.locked, h.stepped, hcount ▸ h.corrections⟩

/-- A good mark is counted; outside LOCKED the third that agrees corrects fabric time (Table 02-2). -/
theorem State.markGood_cases (s : State) (e : Int) : ∃ u : State, u.now = s.now ∧ u.tim.state = s.tim.state
    ∧ u.tim.corrections = s.tim.corrections ∧ (s.markGood e = u ∨ s.tim.state ≠ .locked ∧ s.markGood e = u.ftCorrect e) := by
  by_cases hs : s.tim.state = .locked
  · refine ⟨_, ?_, ?_, ?_, .inl (if_pos hs)⟩ <;> rfl
  by_cases hrun : 3 ≤ (agreeing (s.tim.errs ++ [e])).length ∧ s.tim.stall = 0
  · refine ⟨_, ?_, ?_, ?_, .inr ⟨hs, (if_neg hs).trans (if_pos hrun)⟩⟩ <;> rfl
  · refine ⟨_, ?_, ?_, ?_, .inl ((if_neg hs).trans (if_neg hrun))⟩ <;> rfl

theorem State.markGood_locks {s : State} {e : Int} (hlt : (s.markGood e).now < s.now) : s.LocksByCorrection (s.markGood e) := by
  obtain ⟨u, hnow, hstate, hcount, hu | ⟨hs, hu⟩⟩ := s.markGood_cases e
  · rw [hu, hnow] at hlt
    exact absurd hlt (Nat.lt_irrefl _)
  · rw [hu, ← hnow] at hlt
    rw [hu]
    exact (State.ftCorrect_locks (hstate ▸ hs) hlt).of_tim_eq hstate hcount

/-- A mark edge after which fabric time is smaller has ended a stay outside LOCKED with a recorded correction. -/
theorem execRtMarkEdge_locks {frac : BitVec 6} {s t : State} (h : execRtMarkEdge frac s = .next t) (hlt : t.now < s.now) :
    s.LocksByCorrection t := by
  obtain rfl := Host.Outcome.next.inj h
  have hmissing : ∀ u : State, u.now = s.now → ¬ u.markMissing.now < s.now := fun u hu => by
    rw [State.markMissing_now, hu]
    exact Nat.lt_irrefl _
  revert hlt
  split
  · exact fun hlt => absurd hlt (Nat.lt_irrefl _)
  split
  · exact fun hlt => absurd hlt (Nat.lt_irrefl _)
  dsimp only
  split
  · exact fun hlt => absurd hlt (Nat.lt_irrefl _)
  split
  · exact fun hlt => absurd hlt (hmissing _ rfl)
  split
  · exact fun hlt => absurd hlt (hmissing _ rfl)
  · exact fun hlt => (State.markGood_locks hlt).of_tim_eq rfl rfl

/-! ### One step -/

/-- A slot of fabric time never sets it back: the slew of a slot is cut off at zero (R41, R44). -/
theorem State.le_tick_now (s : State) : s.now ≤ s.tick.now := by
  unfold State.tick
  dsimp only
  split
  · exact Nat.le_refl _
  split
  · exact Nat.le_add_right _ _
  split
  · exact Nat.le_add_right _ _
  · exact Nat.le_refl _

/-- A stall that lasts beyond the slot holds fabric time (R37, R44). -/
theorem State.tick_now_of_stall {s : State} (h : 65 < s.tim.stall) : s.tick.now = s.now := by
  unfold State.tick
  dsimp only
  rw [if_neg (by omega : ¬ s.tim.stall ≤ 1), if_neg (by omega : ¬ s.tim.stall ≤ 65)]
  split <;> rfl

/-- Settles O59: a command outside `mayLowerFt` keeps fabric time, a slot never sets it back, and the mark edge does so only in
the third branch of R44. -/
theorem fabricTimeOnlySteppedBackByAMark : Obligations.FabricTimeOnlySteppedBackByAMark := by
  unfold Obligations.FabricTimeOnlySteppedBackByAMark
  refine ⟨fun s t h hlt => ?_, fun s t hp hstall h => ?_⟩
  · unfold step at h
    split at h
    · exact absurd (Host.Outcome.next.inj h ▸ hlt) (Nat.not_lt_of_le s.le_tick_now)
    · rename_i c rest hp
      refine ⟨c, rest, hp, ?_⟩
      by_cases hc : mayLowerFt c
      · refine hc.imp_right (Or.imp_right (Or.imp_right (Or.imp_right (Or.imp_right ?_))))
        rintro ⟨frac, rfl⟩
        obtain ⟨hbefore, hlocked, hstep, hcount⟩ := execRtMarkEdge_locks h hlt
        exact ⟨frac, rfl, hbefore, hlocked, hstep, hcount⟩
      · exact absurd (hlt.trans_eq' (exec_keepsNow c (s.popped rest) hc t h)) (Nat.lt_irrefl _)
  · unfold step at h
    rw [hp] at h
    exact Host.Outcome.next.inj h ▸ State.tick_now_of_stall hstall

end Sys2Proof.Machine
end

section
/-! SUPPORT. Writes and commands without their role: what a refusal leaves in the state, and which registers need a role that
can be missing (R339, R342, R364 to R367). -/

namespace Sys2Proof.Machine

/-! ### A trouble-log entry that is never merged (R364 to R366) -/

@[simp] theorem State.satEvent_sec (s : State) (just : Bool) (i : Nat) (sr : BitVec 16) (addr : Nat) :
    (s.satEvent just i sr addr).sec = s.sec :=
  State.satEvent_only s just i sr addr (only_refl s [.adk, .evq]) (List.Subset.refl _) .sec (by decide)

@[simp] theorem State.satEvent_log (s : State) (just : Bool) (i : Nat) (sr : BitVec 16) (addr : Nat) :
    (s.satEvent just i sr addr).log = s.log :=
  State.satEvent_only s just i sr addr (only_refl s [.adk, .evq]) (List.Subset.refl _) .log (by decide)

/-- Counting an overwritten entry moves its counter and saturation bit, not the log. -/
theorem State.countLog_overwr_log (s : State) :
    (s.countLog 3).log.entries = s.log.entries ∧ (s.countLog 3).log.wrSeq = s.log.wrSeq := by
  unfold State.countLog
  simp only [State.satEvent_log, and_self]

/-- The entry that a write to the trouble log appends (R364). -/
def State.logEntry (s : State) (cls detail : Nat) (sr : BitVec 16) (param : Nat) : LogEntry :=
  { ft := BitVec.ofNat 64 s.now, src := sr, cls := BitVec.ofNat 8 cls, detail := BitVec.ofNat 8 detail,
    flags := s.ftFlags, repeats := 0, temp := s.srcTemp sr, param := BitVec.ofNat 128 param }

/-- The log's entries once one more is held: 16,384 at most, the oldest given up. -/
def Log.entriesWith (l : Log) (e : LogEntry) : List (Nat × LogEntry) :=
  (if 16384 ≤ l.entries.length then l.entries.drop 1 else l.entries) ++ [(l.wrSeq.toNat, e)]

theorem State.appendLog_log (s : State) (cls detail : Nat) (sr : BitVec 16) (param : Nat) :
    (s.appendLog cls detail sr param).log.entries = s.log.entriesWith (s.logEntry cls detail sr param)
      ∧ (s.appendLog cls detail sr param).log.wrSeq = s.log.wrSeq + 1 := by
  unfold State.appendLog Log.entriesWith
  by_cases hfull : 16384 ≤ s.log.entries.length
  · simp only [hfull, decide_true, if_true, State.countLog_overwr_log, State.logEntry, and_self]
  · simp only [hfull, decide_false, if_false, Bool.false_eq_true, State.logEntry, and_self]

@[simp] theorem State.appendLog_sec (s : State) (cls detail : Nat) (sr : BitVec 16) (param : Nat) :
    (s.appendLog cls detail sr param).sec = s.sec :=
  State.appendLog_only s cls detail sr param (only_refl s [.log, .adk, .evq]) (List.Subset.refl _) .sec (by decide)

/-- An entry of a class that R366 never merges is appended. -/
theorem State.logE_of_neverMerged (s : State) {cls : Nat} (h : neverMerged cls = true) (detail : Nat) (sr : BitVec 16)
    (param : Nat) : s.logE cls detail sr param = s.appendLog cls detail sr param := by
  unfold State.logE State.mergeInto
  simp only [h, if_true, Bool.false_eq_true, if_false]

/-! ### What a refusal leaves (R342) -/

@[simp] theorem State.countSec_deny_sec (s : State) :
    (s.countSec 1).sec =
      { s.sec with cntDeny := (bump s.sec.cntDeny).1, sat := satSet s.sec.sat 1 (bump s.sec.cntDeny).2.1 } := by
  unfold State.countSec
  simp only [State.satEvent_sec]

@[simp] theorem State.countSec_log (s : State) (i : Nat) : (s.countSec i).log = s.log :=
  State.countSec_only s i (only_refl s [.sec, .adk, .evq]) (List.Subset.refl _) .log (by decide)

/-- DETAIL of the entry: the role required. -/
def Role.detail : Role → Nat
  | .maker => 2
  | _ => 1

/-- The reason in PARAM: 1 the installer window is closed, 2 it is open without presence, 3 no maker role. -/
def State.denyReason (s : State) : Role → Nat
  | .maker => 3
  | _ => if s.windowOpen then 2 else 1

theorem State.denyRole_eq_appendLog (s : State) (r : Role) (addr : Nat) :
    s.denyRole r addr = (s.countSec 1).appendLog 0x18 r.detail srcModule (addr + s.denyReason r * 2 ^ 48) := by
  have hclass : neverMerged 0x18 = true := by decide
  cases r <;> exact State.logE_of_neverMerged _ hclass _ _ _

theorem Role.detail_eq_ite (r : Role) : r.detail = if r = .maker then 2 else 1 := by cases r <;> rfl

theorem State.denyReason_eq_ite (s : State) (r : Role) :
    s.denyReason r = if r = .maker then 3 else if s.windowOpen then 2 else 1 := by cases r <;> rfl

/-- `t` is `s` after the adapter's request `tag` has been denied for a role: the answer, the count, the one entry, and no more. -/
def State.roleDenied (s t : State) (tag : BitVec 16) (detail param : Nat) : Prop :=
  t.responded tag stDenied ∧ t.sec.cntDeny = (bump s.sec.cntDeny).1
    ∧ t.sec = { s.sec with cntDeny := t.sec.cntDeny, sat := t.sec.sat }
    ∧ t.log.wrSeq = s.log.wrSeq + 1 ∧ s.deniedEntry t detail param ∧ s.changesOnly t [.sec, .log, .adk, .evq]

theorem State.denyReason_le (s : State) (r : Role) : s.denyReason r ≤ 3 := by
  rw [State.denyReason_eq_ite]
  split
  · omega
  split <;> omega

theorem Role.detail_lt (r : Role) : r.detail < 2 ^ 8 := by cases r <;> decide

@[simp] theorem State.adkTaken_holdsRole (s : State) (q : AdkFrame) (r : Role) : (s.adkTaken q).holdsRole r = s.holdsRole r := by
  cases r <;> rfl

/-- A refusal raises SEC_CNT_ROLE_DENY and, where that sticks, its saturation bit (R342, R367). -/
theorem State.denyRole_sec (s : State) (r : Role) (addr : Nat) : (s.denyRole r addr).sec =
    { s.sec with cntDeny := (bump s.sec.cntDeny).1, sat := satSet s.sec.sat 1 (bump s.sec.cntDeny).2.1 } := by
  rw [State.denyRole_eq_appendLog, State.appendLog_sec, State.countSec_deny_sec]

theorem State.denyRole_wrSeq (s : State) (r : Role) (addr : Nat) : (s.denyRole r addr).log.wrSeq = s.log.wrSeq + 1 := by
  rw [State.denyRole_eq_appendLog, (State.appendLog_log _ _ _ _ _).2, State.countSec_log]

/-- The address has 48 bits and the reason lies above them, so that PARAM holds both whole. -/
theorem State.denyRole_deniedEntry (s : State) (r : Role) {addr : Nat} (h : addr < 2 ^ 48) :
    s.deniedEntry (s.denyRole r addr) r.detail (addr + 2 ^ 48 * s.denyReason r) := by
  have hreason := s.denyReason_le r
  rw [State.denyRole_eq_appendLog]
  refine ⟨(s.countSec 1).logEntry 0x18 r.detail srcModule (addr + s.denyReason r * 2 ^ 48), ?_, rfl, rfl, ?_, ?_⟩
  · rw [(State.appendLog_log _ _ _ _ _).1, State.countSec_log, Log.entriesWith]
  · simp only [State.logEntry, BitVec.toNat_ofNat, Nat.mod_eq_of_lt r.detail_lt]
  · rw [State.logEntry, BitVec.toNat_ofNat, Nat.mod_eq_of_lt (by omega), Nat.mul_comm]

@[simp] theorem State.adkTaken_sec (s : State) (q : AdkFrame) : (s.adkTaken q).sec = s.sec := rfl

@[simp] theorem State.adkTaken_log (s : State) (q : AdkFrame) : (s.adkTaken q).log = s.log := rfl

@[simp] theorem State.adkTaken_denyReason (s : State) (q : AdkFrame) (r : Role) : (s.adkTaken q).denyReason r = s.denyReason r := rfl

/-- Whether the entry has been written shows in the two logs. -/
theorem State.deniedEntry.of_log {s t u v : State} {detail param : Nat} (h : u.deniedEntry v detail param)
    (hs : u.log = s.log) (ht : t.log = v.log) : s.deniedEntry t detail param := by
  unfold State.deniedEntry at h ⊢
  rwa [ht, ← hs]

/-- The refusal of a request that has been taken, at the address that the request carries. -/
theorem State.roleDenied_denyRole_reply (s : State) (q : AdkFrame) (r : Role) :
    s.roleDenied (((s.adkTaken q).denyRole r q.addr.toNat).adkReply q stDenied q.addr []) q.tag r.detail
      (q.addr.toNat + 2 ^ 48 * s.denyReason r) := by
  have hentry := (s.adkTaken q).denyRole_deniedEntry r q.addr.isLt
  rw [State.adkTaken_denyReason] at hentry
  refine ⟨State.adkReply_responded _ _ _ _ _, ?_, ?_, ?_, hentry.of_log (s.adkTaken_log q) (State.adkReply_log _ _ _ _ _), ?_⟩
  · rw [State.adkReply_sec, State.denyRole_sec, State.adkTaken_sec]
  · rw [State.adkReply_sec, State.denyRole_sec, State.adkTaken_sec]
  · rw [State.adkReply_log, State.denyRole_wrSeq, State.adkTaken_log]
  · exact (State.denyRole_only _ r _ ((State.adkTaken_link s q).mono (by decide)) (List.Subset.refl _)).trans
      ((State.adkReply_link _ q _ _ _).mono (by decide))

/-- A command of the adapter without its role is refused, whatever its effect would be. -/
theorem State.adkWr_roleDenied {s : State} {tag : BitVec 16} {addr : Nat} {value : BitVec 64} {r : Role}
    (h : s.performs (wrFrame tag addr value)) (hr : s.holdsRole r = false) (f : State → State × BitVec 6) :
    ∃ t, Host.Outcome.next (φ := Fault) (ρ := Refusal) (s.adkWr tag addr value r f) = .next t
      ∧ s.roleDenied t tag r.detail ((BitVec.ofNat 48 addr).toNat + 2 ^ 48 * s.denyReason r) :=
  ⟨_, rfl, State.adkWr_denied h hr f ▸ s.roleDenied_denyRole_reply (wrFrame tag addr value) r⟩

/-! ### The registers that need a role (R339) -/

/-- Registers whose write can need the installer or maker role (R49, R148, R345, R364, R408, R410). -/
def needsRole (a : Nat) : Prop :=
  a = glbAddr 0x010 ∨ a = glbAddr 0x018 ∨ a = timAddr 0x020 ∨ a = lseAddr 0x000 ∨ a = logAddr 0x030 ∨ a = secAddr 0x108
    ∨ (glbAddr 0x100 ≤ a ∧ a < glbAddr 0x128) ∨ a = glbAddr 0x130

/-- The operator role is never missing, so a role that is missing is that of one of these registers. -/
theorem needsRole_of_not_holdsRole {s : State} {a : Nat} {v : BitVec 64} (h : s.holdsRole (regRole a v) = false) :
    needsRole a := by
  unfold regRole at h
  unfold needsRole
  split at h
  · tauto
  split at h
  · tauto
  split at h
  · tauto
  · exact absurd h (by simp [State.holdsRole])

/-- Registers that need a role lie in pages that Table 17-8 lists. -/
theorem pageListed_of_needsRole {a : Nat} (h : needsRole a) : pageListed a = true := by
  rcases h with rfl | rfl | rfl | rfl | rfl | rfl | ⟨hlo, hhi⟩ | rfl
  case inr.inr.inr.inr.inr.inr.inl =>
    simp only [glbAddr, maddr] at hlo hhi
    have htype : addrType a = 0 := by simp only [addrType, bits]; omega
    have hinst : addrInst a = 0 := by simp only [addrInst, bits]; omega
    have hpage : addrPage a = 1 := by simp only [addrPage, bits]; omega
    simp only [pageListed, htype, hinst, hpage]
    decide
  all_goals decide

/-- No register that needs a role answers later or is a command of the module or of an extent (R395). -/
theorem needsRole_answers_at_once {a : Nat} (h : needsRole a) :
    a ≠ trnAddr 0x038 ∧ a ≠ secAddr 0x188 ∧ a ≠ modCmdAddr ∧ a ≠ extAddr 0x008 := by
  simp only [needsRole, glbAddr, timAddr, lseAddr, logAddr, secAddr, maddr] at h
  simp only [trnAddr, secAddr, modCmdAddr, extAddr, maddr]
  omega

/-- The role depends on the value at SEC_FW_CMD alone (R345), which has no RW1C bit: the bits that the CX64 sets in the cycle of
a write (R6) do not change the role. -/
theorem regRole_rw1c (a : Nat) (v c : BitVec 64) : regRole a (v &&& ~~~(c &&& rw1cBits a)) = regRole a v := by
  by_cases hfw : a = secAddr 0x108
  · have hbits : rw1cBits (secAddr 0x108) = 0#64 := by decide
    subst hfw
    rw [hbits, BitVec.and_zero, BitVec.not_zero, BitVec.and_allOnes]
  · simp only [regRole, hfw, if_false]

/-- A WR of any register without the role it needs is refused. -/
theorem State.wrAny_denied {s : State} {q : AdkFrame} (h : s.holdsRole (regRole q.addr.toNat (q.words.headD 0)) = false) :
    State.wrAny q s =
      (s.denyRole (regRole q.addr.toNat (q.words.headD 0)) q.addr.toNat).adkReply q stDenied q.addr [] := by
  have hneeds := needsRole_of_not_holdsRole h
  obtain ⟨hptw, hdbg, hmod, hext⟩ := needsRole_answers_at_once hneeds
  have hlisted := pageListed_of_needsRole hneeds
  unfold State.wrAny State.wrBody
  simp only [hlisted, hptw, hdbg, hmod, hext, regRole_rw1c, h, false_and, if_false, Bool.true_eq_false, Bool.false_eq_true]

/-- A request for such a WR, taken and refused. -/
theorem State.adkRequest_wrAny_roleDenied {s : State} {q : AdkFrame} (h : s.performs q)
    (hr : s.holdsRole (regRole q.addr.toNat (q.words.headD 0)) = false) :
    s.roleDenied (s.adkRequest q true (State.wrAny q)) q.tag (regRole q.addr.toNat (q.words.headD 0)).detail
      (q.addr.toNat + 2 ^ 48 * s.denyReason (regRole q.addr.toNat (q.words.headD 0))) := by
  rw [State.adkRequest_performs h, State.wrAny_denied ((s.adkTaken_holdsRole q _).trans hr)]
  exact s.roleDenied_denyRole_reply q _

theorem wrFrame_addr (tag : BitVec 16) (addr : BitVec 48) (value : BitVec 64) : (wrFrame tag addr.toNat value).addr = addr := by
  rw [wrFrame, BitVec.ofNat_toNat, BitVec.setWidth_eq]

/-- WR of any register at an aligned address, refused (R394); the RW1C bits set in its cycle make no difference. -/
theorem execRegisterWrite_roleDenied {s : State} {tag : BitVec 16} {addr : BitVec 48} {value : BitVec 64} (held : BitVec 64)
    (h : s.performs (wrFrame tag addr.toNat value)) (hr : s.holdsRole (regRole addr.toNat value) = false)
    (halign : addr.toNat % 8 = 0) :
    ∃ t, execRegisterWrite tag addr value held s = .next t
      ∧ s.roleDenied t tag (regRole addr.toNat value).detail (addr.toNat + 2 ^ 48 * s.denyReason (regRole addr.toNat value)) := by
  have hdenied := State.adkRequest_wrAny_roleDenied (q := { wrFrame tag addr.toNat value with cycle := held }) h
    (by rw [wrFrame_addr]; exact hr)
  rw [wrFrame_addr] at hdenied
  unfold execRegisterWrite
  rw [halign]
  exact ⟨_, rfl, hdenied⟩

/-- Settles O56: every form ends in `roleDenied`, through `wrAny` for a WR of any register and through `adkWr` for the commands. -/
theorem deniedWithoutTheRole : Obligations.DeniedWithoutTheRole := by
  unfold Obligations.DeniedWithoutTheRole
  refine ⟨fun s tag addr value held h hr halign => ?_, fun s tag h hr => State.adkWr_roleDenied h hr _,
    fun s tag h hr => State.adkWr_roleDenied h hr _, fun s tag h hr => State.adkWr_roleDenied h hr _,
    fun s tag value h hr => State.adkWr_roleDenied h hr _, fun s tag h hr => State.adkWr_roleDenied h hr _,
    fun s tag value h hr => State.adkWr_roleDenied h hr _⟩
  rw [← Role.detail_eq_ite, ← s.denyReason_eq_ite]
  exact execRegisterWrite_roleDenied held h hr halign

end Sys2Proof.Machine
end

section
/-! SUPPORT. A command beside POWER_GOOD that brings a module out of OFF with its adapter link down: requests of the adapter that
wait are performed when the access before them ends (R343, R395), whatever state the module and the link are in by then. -/

namespace Sys2Proof.Machine

/-- A debug access of the adapter, by a WR of SEC_DBG (R343). -/
def debugAccess : AdkFrame := wrFrame 0 (secAddr 0x188) 1

/-- A WR of MOD_CMD.WARM. -/
def warmRequest : AdkFrame := wrFrame 1 modCmdAddr 4

/-- A module that is OFF with its adapter link down, in which a debug access has ended unanswered and a WARM waits behind it.
A loss of power itself leaves no access waiting (R385). -/
def offWithWarmWaiting : State :=
  { State.reset.powerOff with
    sec := { State.reset.powerOff.sec with dbgDone := some (debugAccess.tag, stOk, []) }
    adk := { State.reset.powerOff.adk with outstanding := [debugAccess, warmRequest] } }

theorem offWithWarmWaiting_off_down : offWithWarmWaiting.mod.state = .off ∧ offWithWarmWaiting.adk.state = .down :=
  ⟨rfl, rfl⟩

/-- DEBUG_READ_COMPLETE answers the access and performs the WARM behind it, whose reset enters BOOT (R380). -/
theorem exec_debugReadComplete_offWithWarmWaiting :
    ∃ t, exec .debugReadComplete offWithWarmWaiting = .next t ∧ t.mod.state = .boot :=
  ⟨_, rfl, by decide⟩

/-- Refutes O57: its first clause assumes that the module is OFF and the link down, but not that no access of the adapter
waits. Where one does, DEBUG_READ_COMPLETE performs a MOD_CMD.WARM behind it, and the module is in BOOT without a power-good. -/
theorem not_onlyPowerGoodLeavesOff : ¬ Obligations.OnlyPowerGoodLeavesOff := by
  unfold Obligations.OnlyPowerGoodLeavesOff
  rintro ⟨hleaves, -⟩
  obtain ⟨hoff, hdown⟩ := offWithWarmWaiting_off_down
  obtain ⟨t, hexec, hboot⟩ := exec_debugReadComplete_offWithWarmWaiting
  obtain hcommand | ⟨hstays, -⟩ := hleaves .debugReadComplete _ t hoff hdown hexec
  · exact Instr.noConfusion hcommand
  · exact ModState.noConfusion (hboot.symm.trans hstays)

end Sys2Proof.Machine
end

section
/-! SUPPORT. The commands of the adapter link, an event that finds room in the queue, and a sending while the link is not up
(R393, R402, R403). -/

namespace Sys2Proof.Machine

/-- The commands of the link itself: its loss, its training, its replays, its control blocks and the frames it rejects
(R389 to R393). -/
def OfLinkAlone (c : Instr) : Prop :=
  c = .adkLinkLoss ∨ c = .adkTrainingComplete ∨ c = .adkTrainingTimeout ∨ c = .adkReplayTimeout ∨ c = .adkLinkctlTimer
    ∨ (∃ btype words low crc, c = .adkFrameReject btype words low crc) ∨ (∃ word, c = .adkLinkctl word)

/-- At most the link and the event queue are listed for a command of the link: an acknowledgement takes records from the queue. -/
theorem mayChange_subset_of_ofLinkAlone {c : Instr} (h : OfLinkAlone c) : mayChange c ⊆ [.adk, .evq] := by
  have hadk : [Part.adk] ⊆ [.adk, .evq] := List.cons_subset_cons _ (List.nil_subset _)
  obtain rfl | rfl | rfl | rfl | rfl | ⟨btype, words, low, crc, rfl⟩ | ⟨word, rfl⟩ := h
  · exact hadk
  · exact hadk
  · exact hadk
  · exact List.Subset.refl _
  · exact hadk
  · exact List.Subset.refl _
  · exact List.Subset.refl _

theorem exec_changesOnly_of_ofLinkAlone {c : Instr} {s t : State} (hc : OfLinkAlone c) (h : exec c s = .next t) :
    s.changesOnly t [.adk, .evq] :=
  (exec_only c s t h).mono (mayChange_subset_of_ofLinkAlone hc)

theorem State.noteLost_of_lost_eq_zero {s : State} (h : s.evq.lost = 0) : s.noteLost = s :=
  if_pos (.inl h)

/-- An event that is not masked, with no loss to report before it and with room in the queue, joins the queue at its end,
and nothing else changes but the next ESEQ. -/
theorem State.event_of_room {s : State} {code : Nat} (detail : Nat) (sr : BitVec 16) (param logSeq : Nat)
    (hmask : s.evq.mask.getLsbD (code % 256) = false) (hlost : s.evq.lost = 0) (hroom : s.evq.queue.length < 4096) :
    s.event code detail sr param logSeq =
      { s with evq := { s.evq with
          queue := s.evq.queue ++ [s.mkEvent code detail sr param logSeq], eseqNext := s.evq.eseqNext + 1 } } := by
  unfold State.event
  rw [hmask, State.noteLost_of_lost_eq_zero hlost]
  exact (if_neg Bool.false_ne_true).trans (if_neg (Nat.not_le_of_lt hroom))

/-- Event records leave only over a link that is up. -/
theorem exec_eventSend_of_not_up {s : State} (h : s.adk.state ≠ .up) : exec .eventSend s = .next s :=
  congrArg Host.Outcome.next (if_pos (.inl h))

/-- Settles O58: the frame of the link's commands is `exec_only`, for every one of them lists at most the link and the event
queue. An event and EVENT_SEND follow from the two cases above, and a loss of the link sets its state alone. -/
theorem theLinkMayFailAlone : Obligations.TheLinkMayFailAlone := by
  unfold Obligations.TheLinkMayFailAlone
  refine ⟨fun s t c hc h => exec_changesOnly_of_ofLinkAlone hc h, fun s code detail sr param logSeq _ hmask hlost hroom => ?_,
    fun s h => exec_eventSend_of_not_up h, fun s => ⟨_, rfl, rfl, rfl, rfl, rfl, rfl, rfl⟩⟩
  rw [State.event_of_room detail sr param logSeq hmask hlost hroom]
  exact ⟨rfl, rfl⟩

end Sys2Proof.Machine
end

section
/-! SUPPORT. What an update of one part of the state leaves alone, part by part. -/

namespace Sys2Proof.Machine

theorem State.changesOnly.pending {s t : State} {ps : List Part} (h : s.changesOnly t ps) (hm : Part.pending ∈ ps) (x) :
    s.changesOnly { t with pending := x } ps := fun q hq => by
  cases q
  case pending => exact absurd hm hq
  all_goals exact h _ hq

theorem State.changesOnly.free {s t : State} {ps : List Part} (h : s.changesOnly t ps) (hm : Part.free ∈ ps) (x) :
    s.changesOnly { t with free := x } ps := fun q hq => by
  cases q
  case free => exact absurd hm hq
  all_goals exact h _ hq

theorem State.changesOnly.hb {s t : State} {ps : List Part} (h : s.changesOnly t ps) (hm : Part.hb ∈ ps) (x) :
    s.changesOnly { t with hb := x } ps := fun q hq => by
  cases q
  case hb => exact absurd hm hq
  all_goals exact h _ hq

theorem State.changesOnly.pkg {s t : State} {ps : List Part} (h : s.changesOnly t ps) (hm : Part.pkg ∈ ps) (x) :
    s.changesOnly { t with pkg := x } ps := fun q hq => by
  cases q
  case pkg => exact absurd hm hq
  all_goals exact h _ hq

theorem State.changesOnly.tim {s t : State} {ps : List Part} (h : s.changesOnly t ps) (hm : Part.tim ∈ ps) (x) :
    s.changesOnly { t with tim := x } ps := fun q hq => by
  cases q
  case tim => exact absurd hm hq
  all_goals exact h _ hq

theorem State.changesOnly.ports {s t : State} {ps : List Part} (h : s.changesOnly t ps) (hm : Part.ports ∈ ps) (x) :
    s.changesOnly { t with ports := x } ps := fun q hq => by
  cases q
  case ports => exact absurd hm hq
  all_goals exact h _ hq

theorem State.changesOnly.bridles {s t : State} {ps : List Part} (h : s.changesOnly t ps) (hm : Part.bridles ∈ ps) (x) :
    s.changesOnly { t with bridles := x } ps := fun q hq => by
  cases q
  case bridles => exact absurd hm hq
  all_goals exact h _ hq

theorem State.changesOnly.req {s t : State} {ps : List Part} (h : s.changesOnly t ps) (hm : Part.req ∈ ps) (x) :
    s.changesOnly { t with req := x } ps := fun q hq => by
  cases q
  case req => exact absurd hm hq
  all_goals exact h _ hq

theorem State.changesOnly.coh {s t : State} {ps : List Part} (h : s.changesOnly t ps) (hm : Part.coh ∈ ps) (x) :
    s.changesOnly { t with coh := x } ps := fun q hq => by
  cases q
  case coh => exact absurd hm hq
  all_goals exact h _ hq

theorem State.changesOnly.ext {s t : State} {ps : List Part} (h : s.changesOnly t ps) (hm : Part.ext ∈ ps) (x) :
    s.changesOnly { t with ext := x } ps := fun q hq => by
  cases q
  case ext => exact absurd hm hq
  all_goals exact h _ hq

theorem State.changesOnly.lse {s t : State} {ps : List Part} (h : s.changesOnly t ps) (hm : Part.lse ∈ ps) (x) :
    s.changesOnly { t with lse := x } ps := fun q hq => by
  cases q
  case lse => exact absurd hm hq
  all_goals exact h _ hq

theorem State.changesOnly.adm {s t : State} {ps : List Part} (h : s.changesOnly t ps) (hm : Part.adm ∈ ps) (x) :
    s.changesOnly { t with adm := x } ps := fun q hq => by
  cases q
  case adm => exact absurd hm hq
  all_goals exact h _ hq

theorem State.changesOnly.tier {s t : State} {ps : List Part} (h : s.changesOnly t ps) (hm : Part.tier ∈ ps) (x) :
    s.changesOnly { t with tier := x } ps := fun q hq => by
  cases q
  case tier => exact absurd hm hq
  all_goals exact h _ hq

theorem State.changesOnly.xl {s t : State} {ps : List Part} (h : s.changesOnly t ps) (hm : Part.xl ∈ ps) (x) :
    s.changesOnly { t with xl := x } ps := fun q hq => by
  cases q
  case xl => exact absurd hm hq
  all_goals exact h _ hq

theorem State.changesOnly.cmp {s t : State} {ps : List Part} (h : s.changesOnly t ps) (hm : Part.cmp ∈ ps) (x) :
    s.changesOnly { t with cmp := x } ps := fun q hq => by
  cases q
  case cmp => exact absurd hm hq
  all_goals exact h _ hq

theorem State.changesOnly.cpu {s t : State} {ps : List Part} (h : s.changesOnly t ps) (hm : Part.cpu ∈ ps) (x) :
    s.changesOnly { t with cpu := x } ps := fun q hq => by
  cases q
  case cpu => exact absurd hm hq
  all_goals exact h _ hq

theorem State.changesOnly.clv {s t : State} {ps : List Part} (h : s.changesOnly t ps) (hm : Part.clv ∈ ps) (x) :
    s.changesOnly { t with clv := x } ps := fun q hq => by
  cases q
  case clv => exact absurd hm hq
  all_goals exact h _ hq

theorem State.changesOnly.atn {s t : State} {ps : List Part} (h : s.changesOnly t ps) (hm : Part.atn ∈ ps) (x) :
    s.changesOnly { t with atn := x } ps := fun q hq => by
  cases q
  case atn => exact absurd hm hq
  all_goals exact h _ hq

theorem State.changesOnly.comp {s t : State} {ps : List Part} (h : s.changesOnly t ps) (hm : Part.comp ∈ ps) (x) :
    s.changesOnly { t with comp := x } ps := fun q hq => by
  cases q
  case comp => exact absurd hm hq
  all_goals exact h _ hq

theorem State.changesOnly.sec {s t : State} {ps : List Part} (h : s.changesOnly t ps) (hm : Part.sec ∈ ps) (x) :
    s.changesOnly { t with sec := x } ps := fun q hq => by
  cases q
  case sec => exact absurd hm hq
  all_goals exact h _ hq

theorem State.changesOnly.log {s t : State} {ps : List Part} (h : s.changesOnly t ps) (hm : Part.log ∈ ps) (x) :
    s.changesOnly { t with log := x } ps := fun q hq => by
  cases q
  case log => exact absurd hm hq
  all_goals exact h _ hq

theorem State.changesOnly.mod {s t : State} {ps : List Part} (h : s.changesOnly t ps) (hm : Part.mod ∈ ps) (x) :
    s.changesOnly { t with mod := x } ps := fun q hq => by
  cases q
  case mod => exact absurd hm hq
  all_goals exact h _ hq

theorem State.changesOnly.adk {s t : State} {ps : List Part} (h : s.changesOnly t ps) (hm : Part.adk ∈ ps) (x) :
    s.changesOnly { t with adk := x } ps := fun q hq => by
  cases q
  case adk => exact absurd hm hq
  all_goals exact h _ hq

theorem State.changesOnly.evq {s t : State} {ps : List Part} (h : s.changesOnly t ps) (hm : Part.evq ∈ ps) (x) :
    s.changesOnly { t with evq := x } ps := fun q hq => by
  cases q
  case evq => exact absurd hm hq
  all_goals exact h _ hq

theorem State.changesOnly.glb {s t : State} {ps : List Part} (h : s.changesOnly t ps) (hm : Part.glb ∈ ps) (x) :
    s.changesOnly { t with glb := x } ps := fun q hq => by
  cases q
  case glb => exact absurd hm hq
  all_goals exact h _ hq

/-! ### Commands of the adapter -/

/-- A write performed by a holder of its role: the effect on the state that has taken the request, and the answer. -/
theorem State.adkWr_eq {s u : State} {tag : BitVec 16} {addr : Nat} {value : BitVec 64} {r : Role}
    {f : State → State × BitVec 6} {st : BitVec 6} (h : s.writes tag addr value r)
    (hf : f (s.adkTaken (wrFrame tag addr value)) = (u, st)) :
    Host.Outcome.next (φ := Fault) (ρ := Refusal) (s.adkWr tag addr value r f) =
      .next (u.adkReply (wrFrame tag addr value) st (wrFrame tag addr value).addr []) := by
  rw [State.adkWr_writes h, hf]

/-- What a command of the adapter changes: what its effect changes, and the link. -/
theorem State.adkReply_changesOnly {s u : State} {q : AdkFrame} {ps : List Part} (h : (s.adkTaken q).changesOnly u ps)
    (hm : [Part.adk] ⊆ ps) (st : BitVec 6) (a : BitVec 48) (w : List (BitVec 64)) :
    s.changesOnly (u.adkReply q st a w) ps :=
  (((s.adkTaken_link q).mono hm).trans h).trans ((u.adkReply_link q st a w).mono hm)

end Sys2Proof.Machine
end

section
/-! SUPPORT. Every command keeps the queues within their bounds and the memories in canonical form, and answers a next state. -/

namespace Sys2Proof.Machine

/-- A command leaves the queues and memories in order, from what each command's meaning keeps. -/
theorem exec_orderly (c : Instr) {s : State} (h : s.orderly) : inOrder (exec c s) :=
  match c with
  | .registerWrite tag addr value held => execRegisterWrite_orderly tag addr value held s h
  | .rcRead tag incs => execRcRead_orderly tag incs s h
  | .heartbeatSend => execHeartbeatSend_orderly s h
  | .heartbeatReceive => execHeartbeatReceive_orderly s h
  | .heartbeatReplyReceive => execHeartbeatReplyReceive_orderly s h
  | .heartbeatTimeoutSd0 => execHeartbeatTimeoutSd0_orderly s h
  | .heartbeatTimeoutSd1 => execHeartbeatTimeoutSd1_orderly s h
  | .trellisHop site yx vc replays => execTrellisHop_orderly site yx vc replays s h
  | .trellisRetrainTimeout edge => execTrellisRetrainTimeout_orderly edge s h
  | .ftDistribute => execFtDistribute_orderly s h
  | .rtCodeFrame sync markFt flags crc => execRtCodeFrame_orderly sync markFt flags crc s h
  | .rtMarkEdge frac => execRtMarkEdge_orderly frac s h
  | .markWindowExpiry => execMarkWindowExpiry_orderly s h
  | .rtCodeAbsentTimeout => execRtCodeAbsentTimeout_orderly s h
  | .rtRefLoss since => execRtRefLoss_orderly since s h
  | .holdoverExpiry => execHoldoverExpiry_orderly s h
  | .ftStallEnd => execFtStallEnd_orderly s h
  | .timCtrlWrite tag value => execTimCtrlWrite_orderly tag value s h
  | .gateCycleStart port => execGateCycleStart_orderly port s h
  | .gateEntryAdvance port => execGateEntryAdvance_orderly port s h
  | .collectiveAbortDeadline id => execCollectiveAbortDeadline_orderly id s h
  | .leaseExpiry index => execLeaseExpiry_orderly index s h
  | .scrubWindow hits => execScrubWindow_orderly hits s h
  | .heatDecay => execHeatDecay_orderly s h
  | .selfTestSlot => execSelfTestSlot_orderly s h
  | .selfTestComplete cluster mismatch => execSelfTestComplete_orderly cluster mismatch s h
  | .marginScan items held => execMarginScan_orderly items held s h
  | .belvedereSample port queue => execBelvedereSample_orderly port queue s h
  | .signalPresent port => execSignalPresent_orderly port s h
  | .lossOfSignal port lock => execLossOfSignal_orderly port lock s h
  | .trainingComplete port => execTrainingComplete_orderly port s h
  | .trainingAttemptTimeout port => execTrainingAttemptTimeout_orderly port s h
  | .lcwNormal port word => execLcwNormal_orderly port word s h
  | .lcwNak port word => execLcwNak_orderly port word s h
  | .lcwInit port word => execLcwInit_orderly port word s h
  | .lcwSendTimer port => execLcwSendTimer_orderly port s h
  | .replayTimeout port => execReplayTimeout_orderly port s h
  | .frameLinkReject port frame lseq crc fec => execFrameLinkReject_orderly port frame lseq crc fec s h
  | .hcrcDiscard port frame hcrc => execHcrcDiscard_orderly port frame hcrc s h
  | .bundleSkewTimeout port => execBundleSkewTimeout_orderly port s h
  | .hello port frame => execHello_orderly port frame s h
  | .helloPeriodTimer port => execHelloPeriodTimer_orderly port s h
  | .helloSilenceTimeout port => execHelloSilenceTimeout_orderly port s h
  | .prtPeerRetrain tag port => execPrtPeerRetrain_orderly tag port s h
  | .prtPeerAck tag port => execPrtPeerAck_orderly tag port s h
  | .egressFrameStart port => execEgressFrameStart_orderly port s h
  | .ld port frame hits => execLd_orderly port frame hits s h
  | .ldPeek port frame => execLdPeek_orderly port frame s h
  | .st port frame hits => execSt_orderly port frame hits s h
  | .stPush port frame => execStPush_orderly port frame s h
  | .stMask port frame => execStMask_orderly port frame s h
  | .fence port frame => execFence_orderly port frame s h
  | .sbRd port frame => execSbRd_orderly port frame s h
  | .sbWr port frame => execSbWr_orderly port frame s h
  | .rspData port frame => execRspData_orderly port frame s h
  | .rspCmp port frame => execRspCmp_orderly port frame s h
  | .sbData port frame => execSbData_orderly port frame s h
  | .atAdd port frame => execAtAdd_orderly port frame s h
  | .atMin port frame => execAtMin_orderly port frame s h
  | .atMax port frame => execAtMax_orderly port frame s h
  | .atCas port frame => execAtCas_orderly port frame s h
  | .apAdd port frame => execApAdd_orderly port frame s h
  | .apMin port frame => execApMin_orderly port frame s h
  | .apMax port frame => execApMax_orderly port frame s h
  | .apCas port frame => execApCas_orderly port frame s h
  | .cRdS port frame => execCRdS_orderly port frame s h
  | .cRdO port frame => execCRdO_orderly port frame s h
  | .cUpg port frame => execCUpg_orderly port frame s h
  | .cWb port frame => execCWb_orderly port frame s h
  | .cEvict port frame => execCEvict_orderly port frame s h
  | .snpInv port frame => execSnpInv_orderly port frame s h
  | .snpShr port frame => execSnpShr_orderly port frame s h
  | .snpBinv port frame => execSnpBinv_orderly port frame s h
  | .cData port frame => execCData_orderly port frame s h
  | .cGnt port frame => execCGnt_orderly port frame s h
  | .snpAck port frame => execSnpAck_orderly port frame s h
  | .snpData port frame => execSnpData_orderly port frame s h
  | .leaseRenew port frame => execLeaseRenew_orderly port frame s h
  | .epochNote port frame => execEpochNote_orderly port frame s h
  | .faultRec port frame => execFaultRec_orderly port frame s h
  | .domNote port frame => execDomNote_orderly port frame s h
  | .collOpen port frame => execCollOpen_orderly port frame s h
  | .collContrib port frame => execCollContrib_orderly port frame s h
  | .collResult port frame => execCollResult_orderly port frame s h
  | .collGrant port frame => execCollGrant_orderly port frame s h
  | .collDone port frame => execCollDone_orderly port frame s h
  | .abort port frame => execAbort_orderly port frame s h
  | .atnDecode port frame => execAtnDecode_orderly port frame s h
  | .atnBind port frame => execAtnBind_orderly port frame s h
  | .atnRelease port frame => execAtnRelease_orderly port frame s h
  | .atnResult port frame => execAtnResult_orderly port frame s h
  | .atnSub port frame => execAtnSub_orderly port frame s h
  | .atnPart port frame => execAtnPart_orderly port frame s h
  | .storeRelease n => execStoreRelease_orderly n s h
  | .fenceComplete n => execFenceComplete_orderly n s h
  | .implicitFenceRelease n => execImplicitFenceRelease_orderly n s h
  | .targetLimitExpiry port => execTargetLimitExpiry_orderly port s h
  | .requestTimerExpiry n => execRequestTimerExpiry_orderly n s h
  | .backstopTimerExpiry n => execBackstopTimerExpiry_orderly n s h
  | .snoopTimerExpiry line agent => execSnoopTimerExpiry_orderly line agent s h
  | .cinchExpiry line agent => execCinchExpiry_orderly line agent s h
  | .flushWindowEnd dom => execFlushWindowEnd_orderly dom s h
  | .cohDomEnable tag dom value => execCohDomEnable_orderly tag dom value s h
  | .cohDomDisable tag dom value => execCohDomDisable_orderly tag dom value s h
  | .cohDomDown tag dom => execCohDomDown_orderly tag dom s h
  | .cohDomReform tag dom => execCohDomReform_orderly tag dom s h
  | .cohMemberWrite tag dom j value => execCohMemberWrite_orderly tag dom j value s h
  | .extAssign tag index => execExtAssign_orderly tag index s h
  | .extSetattr tag index => execExtSetattr_orderly tag index s h
  | .extRevoke tag index => execExtRevoke_orderly tag index s h
  | .extRelease tag index => execExtRelease_orderly tag index s h
  | .extScrub tag index => execExtScrub_orderly tag index s h
  | .extentScrubComplete index => execExtentScrubComplete_orderly index s h
  | .extentDrained index => execExtentDrained_orderly index s h
  | .drainLimitExpiry index => execDrainLimitExpiry_orderly index s h
  | .lseCreate tag => execLseCreate_orderly tag s h
  | .lseDelete tag => execLseDelete_orderly tag s h
  | .lseHandoff tag unit => execLseHandoff_orderly tag unit s h
  | .lseExpire tag => execLseExpire_orderly tag s h
  | .admAdmit tag => execAdmAdmit_orderly tag s h
  | .admResize tag => execAdmResize_orderly tag s h
  | .admRelease tag => execAdmRelease_orderly tag s h
  | .bitmapRetryTimer port => execBitmapRetryTimer_orderly port s h
  | .bridgeLinkActive b dev => execBridgeLinkActive_orderly b dev s h
  | .bridgeLinkDown b => execBridgeLinkDown_orderly b s h
  | .cxlCompletion b tag data poison => execCxlCompletion_orderly b tag data poison s h
  | .cxlCompletionTimeout b tag => execCxlCompletionTimeout_orderly b tag s h
  | .cxlMediaEvent b lines => execCxlMediaEvent_orderly b lines s h
  | .trayRetire tag => execTrayRetire_orderly tag s h
  | .trayEvacuate tag => execTrayEvacuate_orderly tag s h
  | .evacuateComplete tray => execEvacuateComplete_orderly tray s h
  | .traySanitize tag => execTraySanitize_orderly tag s h
  | .tpSetpin tag pin => execTpSetpin_orderly tag pin s h
  | .tpRelocate tag => execTpRelocate_orderly tag s h
  | .moveStart page => execMoveStart_orderly page s h
  | .moveComplete page => execMoveComplete_orderly page s h
  | .pavilionWarm pv => execPavilionWarm_orderly pv s h
  | .walkReadComplete walk => execWalkReadComplete_orderly walk s h
  | .kvRestore n => execKvRestore_orderly n s h
  | .restoreRoomTimeout n => execRestoreRoomTimeout_orderly n s h
  | .makeRoom => execMakeRoom_orderly s h
  | .trnInvGo tag => execTrnInvGo_orderly tag s h
  | .invalidationComplete => execInvalidationComplete_orderly s h
  | .ptwRead tag => execPtwRead_orderly tag s h
  | .ptwWrite tag value => execPtwWrite_orderly tag value s h
  | .ptwAccessComplete => execPtwAccessComplete_orderly s h
  | .nop core tid ins => execNop_orderly core tid ins s h
  | .alu core tid ins => execAlu_orderly core tid ins s h
  | .alui core tid ins => execAlui_orderly core tid ins s h
  | .movi core tid ins => execMovi_orderly core tid ins s h
  | .movhi core tid ins => execMovhi_orderly core tid ins s h
  | .br core tid ins => execBr_orderly core tid ins s h
  | .jal core tid ins => execJal_orderly core tid ins s h
  | .gets core tid ins => execGets_orderly core tid ins s h
  | .ldl core tid ins => execLdl_orderly core tid ins s h
  | .stl core tid ins => execStl_orderly core tid ins s h
  | .atl core tid ins => execAtl_orderly core tid ins s h
  | .copyl core tid ins => execCopyl_orderly core tid ins s h
  | .mxeIssue core tid ins => execMxeIssue_orderly core tid ins s h
  | .veIssue core tid ins => execVeIssue_orderly core tid ins s h
  | .gfeIssue core tid ins => execGfeIssue_orderly core tid ins s h
  | .pldx core tid ins => execPldx_orderly core tid ins s h
  | .pstx core tid ins => execPstx_orderly core tid ins s h
  | .pld core tid ins => execPld_orderly core tid ins s h
  | .pst core tid ins => execPst_orderly core tid ins s h
  | .patm core tid ins => execPatm_orderly core tid ins s h
  | .coreFence core tid ins => execCoreFence_orderly core tid ins s h
  | .acquire core tid ins => execAcquire_orderly core tid ins s h
  | .send core tid ins => execSend_orderly core tid ins s h
  | .bar core tid ins => execBar_orderly core tid ins s h
  | .waitl core tid ins => execWaitl_orderly core tid ins s h
  | .waitlTimeout core tid => execWaitlTimeout_orderly core tid s h
  | .waite core tid ins => execWaite_orderly core tid ins s h
  | .waitm core tid ins => execWaitm_orderly core tid ins s h
  | .threadHalt core tid ins => execThreadHalt_orderly core tid ins s h
  | .tpref core tid ins => execTpref_orderly core tid ins s h
  | .tinv core tid ins => execTinv_orderly core tid ins s h
  | .illegalInstruction core tid word => execIllegalInstruction_orderly core tid word s h
  | .corePoolCompletion core tid n => execCorePoolCompletion_orderly core tid n s h
  | .mxeMma core => execMxeMma_orderly core s h
  | .mxeZero core => execMxeZero_orderly core s h
  | .mxeStore core => execMxeStore_orderly core s h
  | .mxeLoad core => execMxeLoad_orderly core s h
  | .veAdd core ve => execVeAdd_orderly core ve s h
  | .veSub core ve => execVeSub_orderly core ve s h
  | .veMul core ve => execVeMul_orderly core ve s h
  | .veFma core ve => execVeFma_orderly core ve s h
  | .veMax core ve => execVeMax_orderly core ve s h
  | .veMin core ve => execVeMin_orderly core ve s h
  | .veCvt core ve => execVeCvt_orderly core ve s h
  | .veExp2 core ve => execVeExp2_orderly core ve s h
  | .veLog2 core ve => execVeLog2_orderly core ve s h
  | .veRcp core ve => execVeRcp_orderly core ve s h
  | .veRsqrt core ve => execVeRsqrt_orderly core ve s h
  | .veRsum core ve => execVeRsum_orderly core ve s h
  | .veRmax core ve => execVeRmax_orderly core ve s h
  | .gfeGather core => execGfeGather_orderly core s h
  | .gfeScatter core => execGfeScatter_orderly core s h
  | .gfeFilter core => execGfeFilter_orderly core s h
  | .gfeTopk core => execGfeTopk_orderly core s h
  | .engineInvalidDescriptor core engine => execEngineInvalidDescriptor_orderly core engine s h
  | .engineCommandComplete core engine => execEngineCommandComplete_orderly core engine s h
  | .shadowCompare core engine differ => execShadowCompare_orderly core engine differ s h
  | .majorityVote core engine vote => execMajorityVote_orderly core engine vote s h
  | .clvBindEnable tag value => execClvBindEnable_orderly tag value s h
  | .clvBindDisable tag value => execClvBindDisable_orderly tag value s h
  | .clvCmdAbort tag => execClvCmdAbort_orderly tag s h
  | .clvGrpMemberWrite tag j value => execClvGrpMemberWrite_orderly tag j value s h
  | .heldOpenRetry n => execHeldOpenRetry_orderly n s h
  | .chunkSlotsFreed id who chunk => execChunkSlotsFreed_orderly id who chunk s h
  | .collectiveCommit id => execCollectiveCommit_orderly id s h
  | .abortComplete id => execAbortComplete_orderly id s h
  | .atnCmdRelease tag handle => execAtnCmdRelease_orderly tag handle s h
  | .handleFreed handle => execHandleFreed_orderly handle s h
  | .splitComplete decode split => execSplitComplete_orderly decode split s h
  | .kvProbeComplete walk => execKvProbeComplete_orderly walk s h
  | .decodeComplete decode => execDecodeComplete_orderly decode s h
  | .gateCommit tag port value => execGateCommit_orderly tag port value s h
  | .queShapeWrite tag port queue value => execQueShapeWrite_orderly tag port queue value s h
  | .prtPshapeWrite tag port value => execPrtPshapeWrite_orderly tag port value s h
  | .prtBrdWrite tag port burst value => execPrtBrdWrite_orderly tag port burst value s h
  | .rateLoopIncrease port => execRateLoopIncrease_orderly port s h
  | .belvedereClear tag port queue value => execBelvedereClear_orderly tag port queue value s h
  | .belvedereSnap tag port queue value => execBelvedereSnap_orderly tag port queue value s h
  | .imgwr tag addr words => execImgwr_orderly tag addr words s h
  | .cmpoValidate tag => execCmpoValidate_orderly tag s h
  | .imageValidationDone => execImageValidationDone_orderly s h
  | .cmpoLoad tag => execCmpoLoad_orderly tag s h
  | .loadComplete => execLoadComplete_orderly s h
  | .cmpoApply tag => execCmpoApply_orderly tag s h
  | .applyPrepared => execApplyPrepared_orderly s h
  | .epochFlip => execEpochFlip_orderly s h
  | .sectorHandover block => execSectorHandover_orderly block s h
  | .windowClose => execWindowClose_orderly s h
  | .cmpoDiscard tag => execCmpoDiscard_orderly tag s h
  | .handoffTimerExpiry index => execHandoffTimerExpiry_orderly index s h
  | .tcActivate tag => execTcActivate_orderly tag s h
  | .tcRetire tag => execTcRetire_orderly tag s h
  | .teardownScrubStart tc => execTeardownScrubStart_orderly tc s h
  | .teardownComplete tc => execTeardownComplete_orderly tc s h
  | .tenantFree tc => execTenantFree_orderly tc s h
  | .tcSetkey tag => execTcSetkey_orderly tag s h
  | .secPkeyDataWrite tag value => execSecPkeyDataWrite_orderly tag value s h
  | .instReq tag => execInstReq_orderly tag s h
  | .instEnd tag => execInstEnd_orderly tag s h
  | .installerWindowExpiry => execInstallerWindowExpiry_orderly s h
  | .presBtnAssert since => execPresBtnAssert_orderly since s h
  | .presBtnRelease since => execPresBtnRelease_orderly since s h
  | .sealLoopOpen since => execSealLoopOpen_orderly since s h
  | .debugRead tag => execDebugRead_orderly tag s h
  | .debugReadComplete => execDebugReadComplete_orderly s h
  | .fwVerify tag => execFwVerify_orderly tag s h
  | .fwVerifyDone => execFwVerifyDone_orderly s h
  | .fwCommit tag => execFwCommit_orderly tag s h
  | .fwCommitDone ok => execFwCommitDone_orderly ok s h
  | .fwRaiseMin tag => execFwRaiseMin_orderly tag s h
  | .attReport tag => execAttReport_orderly tag s h
  | .attIdkey tag => execAttIdkey_orderly tag s h
  | .thermalSample site temp vdd => execThermalSample_orderly site temp vdd s h
  | .thermalEscalate site => execThermalEscalate_orderly site s h
  | .thermalLevelDecay site => execThermalLevelDecay_orderly site s h
  | .auditSample disagree => execAuditSample_orderly disagree s h
  | .logUnfence tag => execLogUnfence_orderly tag s h
  | .logClear tag => execLogClear_orderly tag s h
  | .recoveryStepDone => execRecoveryStepDone_orderly s h
  | .modService tag => execModService_orderly tag s h
  | .modDrain tag => execModDrain_orderly tag s h
  | .drainStepComplete => execDrainStepComplete_orderly s h
  | .modRecover tag => execModRecover_orderly tag s h
  | .modWarm tag => execModWarm_orderly tag s h
  | .bootStepComplete report => execBootStepComplete_orderly report s h
  | .testStepComplete ok => execTestStepComplete_orderly ok s h
  | .attnBtnPress since => execAttnBtnPress_orderly since s h
  | .present1Assert => execPresent1Assert_orderly s h
  | .prechargeComplete => execPrechargeComplete_orderly s h
  | .present2Stable => execPresent2Stable_orderly s h
  | .powerGood => execPowerGood_orderly s h
  | .presentDeassert second => execPresentDeassert_orderly second s h
  | .inputUndervoltage since => execInputUndervoltage_orderly since s h
  | .inputOvercurrent => execInputOvercurrent_orderly s h
  | .powerRemoved => execPowerRemoved_orderly s h
  | .adkRd tag addr len => execAdkRd_orderly tag addr len s h
  | .logrd tag addr len => execLogrd_orderly tag addr len s h
  | .adkFrameReject btype words low crc => execAdkFrameReject_orderly btype words low crc s h
  | .adkLinkctl word => execAdkLinkctl_orderly word s h
  | .adkLinkctlTimer => execAdkLinkctlTimer_orderly s h
  | .adkReplayTimeout => execAdkReplayTimeout_orderly s h
  | .adkTrainingComplete => execAdkTrainingComplete_orderly s h
  | .adkTrainingTimeout => execAdkTrainingTimeout_orderly s h
  | .eventSend => execEventSend_orderly s h
  | .spareProgram tag => execSpareProgram_orderly tag s h
  | .makerModeWrite tag value => execMakerModeWrite_orderly tag value s h
  | .powerCapCheck avgW => execPowerCapCheck_orderly avgW s h
  | .sensorSample reading => execSensorSample_orderly reading s h
  | .copylComplete core tid => execCopylComplete_orderly core tid s h
  | .trellisEdgeRetrainDone edge => execTrellisEdgeRetrainDone_orderly edge s h
  | .makerJmpChange fitted since => execMakerJmpChange_orderly fitted since s h
  | .sealLoopClose since => execSealLoopClose_orderly since s h
  | .adkLinkLoss => execAdkLinkLoss_orderly s h

/-- Settles O5: `exec_orderly` for the command in front of the queue, `State.tick_orderly` for a slot of fabric time. -/
theorem stepKeepsOrder : Obligations.StepKeepsOrder := by
  unfold Obligations.StepKeepsOrder
  intro s t hs h
  unfold step at h
  split at h
  · exact Host.Outcome.next.inj h ▸ State.tick_orderly s hs
  · rename_i c rest _
    have ho := exec_orderly c (State.popped_orderly s rest hs)
    exact ho t h

/-- The queue of commands is a part that no command may change. -/
theorem pending_not_mem_mayChange (c : Instr) : Part.pending ∉ mayChange c := by
  have h : (mayChange c).contains .pending = false := by cases c <;> rfl
  simpa using h

/-- Settles O60: `exec_only` lists the parts of every command, and the queue is listed for none. -/
theorem everyCommandKeepsToItsParts : Obligations.EveryCommandKeepsToItsParts := by
  unfold Obligations.EveryCommandKeepsToItsParts
  exact ⟨exec_only, fun c s t h => exec_only c s t h .pending (pending_not_mem_mayChange c)⟩

/-- Settles O3: every command's meaning is written as a next state. -/
theorem everyCommandAnswers : Obligations.EveryCommandAnswers := by
  unfold Obligations.EveryCommandAnswers
  intro c s
  cases c <;> exact ⟨_, rfl⟩

/-- Settles O1. -/
theorem stepPerformsFront : Obligations.StepPerformsFront := by
  unfold Obligations.StepPerformsFront
  exact fun _ _ _ => rfl

/-- A slot of fabric time moves the time unit alone. -/
theorem State.tick_changesOnly (s : State) : s.changesOnly s.tick [.tim] :=
  State.tick_only s (only_refl s _) (List.Subset.refl _)

/-- Settles O2: without stall and slew the slot's share of a correction is nothing, so the slot adds its 64 sixteenths. -/
theorem idleStepLetsTimePass : Obligations.IdleStepLetsTimePass := by
  unfold Obligations.IdleStepLetsTimePass
  refine ⟨fun s hq hon hstall hslew => ⟨s.tick, ?_, ?_, s.tick_changesOnly⟩, fun s hq hoff => ?_⟩
  · simp only [step, hq]
  · have hshare : slewShare s.tim.slew s.tim.slewSlot = 0 := by simp [slewShare, hslew]
    simp only [State.now, State.tick, hon, hstall, if_true, if_false, Tim.slot, hshare]
    rfl
  · simp only [step, hq, State.tick, hoff, if_true]

end Sys2Proof.Machine
end

section
/-! SUPPORT. The reset state, the steward heartbeat and the trellis. -/

namespace Sys2Proof.Machine

/-- Settles O4: the tables of the reset state are empty, so every entry reads as its default, and its memories hold nothing. -/
theorem resetIsOrderly : Obligations.ResetIsOrderly := by
  unfold Obligations.ResetIsOrderly
  refine ⟨⟨?_, ?_, ?_, rfl, rfl, rfl, rfl, rfl, rfl⟩, rfl, rfl, rfl, rfl, fun _ => rfl, rfl, fun _ => rfl, fun _ => rfl,
    fun _ => rfl, rfl, rfl, rfl, rfl, rfl, rfl⟩
  all_goals exact Nat.zero_le _

/-! ### The steward heartbeat (R24) -/

theorem exec_heartbeatSend {s : State} (hb : s.beating = true) (hdue : s.hb.sentAt + usT ≤ s.now) :
    exec .heartbeatSend s = .next { s with hb := { s.hb with sentAt := s.now, inFlight := some s.now } } :=
  congrArg Host.Outcome.next (if_pos (by simp [hb, hdue]))

theorem exec_heartbeatReceive {s : State} (hb : s.beating = true) (hin : s.hb.inFlight.isSome = true) :
    exec .heartbeatReceive s =
      .next { s with hb := { s.hb with inFlight := none, replying := true, sd0Heard := s.dieFt sd0Site } } :=
  congrArg Host.Outcome.next (if_pos (by simp [hb, hin]))

theorem exec_heartbeatReplyReceive {s : State} (hb : s.beating = true) (hr : s.hb.replying = true) :
    exec .heartbeatReplyReceive s = .next { s with hb := { s.hb with replying := false, sd1Heard := s.now } } :=
  congrArg Host.Outcome.next (if_pos (by simp [hb, hr]))

theorem exec_heartbeatTimeoutSd0 {s : State} (hb : s.beating = true) (hdue : s.hb.sd0Heard + 20 * usT ≤ s.dieFt sd0Site) :
    exec .heartbeatTimeoutSd0 s = .next ((s.logE 0x12 0 (srcSD 1) 0 true).enterHalt 0x12) :=
  congrArg Host.Outcome.next (if_pos (by simp [hb, hdue]))

theorem exec_heartbeatTimeoutSd1 {s : State} (hb : s.beating = true) (hdue : s.hb.sd1Heard + 20 * usT ≤ s.now) :
    exec .heartbeatTimeoutSd1 s = .next { s.enterHalt 0x12 with
      log := s.log, evq := s.evq, adk := { s.adk with state := .down }, hb := { s.hb with sd0Dead := true } } :=
  congrArg Host.Outcome.next (if_pos (by simp [hb, hdue]))

/-- The heartbeat runs only where the datapaths work. -/
theorem State.alive_of_beating {s : State} (h : s.beating = true) : s.alive = true := by
  unfold State.beating at h
  exact (Bool.and_eq_true _ _ ▸ h).1

/-- What a trouble-log entry leaves alone: every part but the log, the event queue and the link. -/
theorem State.logE_changesOnly (s : State) (cls detail : Nat) (sr : BitVec 16) (param : Nat) (mirror : Bool) :
    s.changesOnly (s.logE cls detail sr param mirror) [.log, .adk, .evq] :=
  State.logE_only s cls detail sr param mirror (only_refl s _) (List.Subset.refl _)

@[simp] theorem State.logE_mod (s : State) (cls detail : Nat) (sr : BitVec 16) (param : Nat) (mirror : Bool) :
    (s.logE cls detail sr param mirror).mod = s.mod :=
  s.logE_changesOnly cls detail sr param mirror .mod (by decide)

@[simp] theorem State.logE_hb (s : State) (cls detail : Nat) (sr : BitVec 16) (param : Nat) (mirror : Bool) :
    (s.logE cls detail sr param mirror).hb = s.hb :=
  s.logE_changesOnly cls detail sr param mirror .hb (by decide)

@[simp] theorem State.logE_pkg (s : State) (cls detail : Nat) (sr : BitVec 16) (param : Nat) (mirror : Bool) :
    (s.logE cls detail sr param mirror).pkg = s.pkg :=
  s.logE_changesOnly cls detail sr param mirror .pkg (by decide)

@[simp] theorem State.logE_alive (s : State) (cls detail : Nat) (sr : BitVec 16) (param : Nat) (mirror : Bool) :
    (s.logE cls detail sr param mirror).alive = s.alive := by
  simp only [State.alive, State.logE_mod]

/-- Settles O6: each row of R24 in turn; the two losses end in HALT by `State.enterHalt_mod` and keep what `State.enterHalt_frame`
names. -/
theorem stewardHeartbeat : Obligations.StewardHeartbeat := by
  unfold Obligations.StewardHeartbeat
  refine ⟨fun s hb hdue => ?_, fun s hb hin => ?_, fun s hb hr => ?_, fun s hb hdue => ?_, fun s hb hdue => ?_⟩
  · exact ⟨_, exec_heartbeatSend hb hdue, rfl, rfl, (only_refl s _).hb (by decide) _⟩
  · exact ⟨_, exec_heartbeatReceive hb hin, rfl, rfl, rfl, (only_refl s _).hb (by decide) _⟩
  · exact ⟨_, exec_heartbeatReplyReceive hb hr, rfl, rfl, (only_refl s _).hb (by decide) _⟩
  · have halive := (s.logE_alive 0x12 0 (srcSD 1) 0 true).trans (State.alive_of_beating hb)
    obtain ⟨hstate, hcause⟩ := State.enterHalt_mod halive 0x12
    obtain ⟨htim, hhb⟩ := State.enterHalt_frame (s.logE 0x12 0 (srcSD 1) 0 true) 0x12
    exact ⟨_, exec_heartbeatTimeoutSd0 hb hdue, hstate, hcause, htim.trans (State.logE_tim _ _ _ _ _ _),
      hhb.trans (State.logE_hb _ _ _ _ _ _)⟩
  · exact ⟨_, exec_heartbeatTimeoutSd1 hb hdue, (State.enterHalt_mod (State.alive_of_beating hb) 0x12).1, rfl, rfl, rfl, rfl,
      (State.enterHalt_frame s 0x12).1⟩

/-! ### A frame joins a queue of its port (R279, R280, R293) -/

/-- A queue after a count at it. -/
def Queue.counted (l : Queue) (i n : Nat) : Queue :=
  let b := bump (match i with | 0 => l.cntTx | 1 => l.cntBytes | 2 => l.cntCe | _ => l.cntOver) n
  let l := { l with sat := satSet l.sat i b.2.1 }
  match i with
    | 0 => { l with cntTx := b.1 } | 1 => { l with cntBytes := b.1 } | 2 => { l with cntCe := b.1 }
    | _ => { l with cntOver := b.1 }

theorem State.countQue_ports (s : State) (p q i n : Nat) :
    (s.countQue p q i n).ports = (s.onQueue p q (fun l => l.counted i n)).ports :=
  State.satEvent_ports _ _ _ _ _

/-- Whether a frame that joins the queue is marked for congestion (R293). -/
def Queue.marks (q : Queue) (f : Frame) : Bool :=
  q.ceEn && q.threshold f.colour != 0
    && decide (1024 * q.threshold f.colour ≤ q.avgAfter (q.depth + wireSize f))

/-- The queue once a frame has joined it at `now` (R279, R293). -/
def Queue.joined (q : Queue) (x : QFrame) (now : FT) : Queue :=
  { q with
    avg := q.avgAfter (q.depth + wireSize x.frame)
    entered := q.entered + 1
    fifos := Table.write [] q.fifos x.frame.vc.toNat (q.fifo x.frame.vc.toNat ++
      [{ x with since := now, order := q.entered, frame := if q.marks x.frame then x.frame.set flCe else x.frame }]) }

/-- A frame of VC6 joins the control frames of its port. -/
theorem State.enqueue_vc6 (s : State) (p : Nat) (o : Option Nat) {x : QFrame} (h : x.frame.vc = 6) :
    s.enqueue p o x = s.onTc p (fun t => { t with vc6 := t.vc6 ++ [x.frame] }) := if_pos h

/-- Another frame joins the queue of its class, which counts the mark where it gets one. -/
theorem State.enqueue_of_not_vc6 (s : State) (p : Nat) (o : Option Nat) {x : QFrame} (h : x.frame.vc ≠ 6) :
    s.enqueue p o x =
      let t := s.onQueue p (s.queueOf p o x.frame) (fun q => q.joined x s.now)
      if (s.queue p (s.queueOf p o x.frame)).marks x.frame then t.countQue p (s.queueOf p o x.frame) 2 else t := by
  refine (if_neg h).trans ?_
  have hvc : ∀ m : Bool, (if m = true then x.frame.set flCe else x.frame).vc = x.frame.vc := by
    intro m
    cases m <;> rfl
  dsimp only
  rw [hvc]
  rfl

/-- The ports after a frame has joined a queue depend on the ports, the running composition and fabric time alone. -/
theorem State.enqueue_ports_pkg (s : State) (k : Package) (p : Nat) (o : Option Nat) (x : QFrame) :
    (({ s with pkg := k } : State).enqueue p o x).ports = (s.enqueue p o x).ports := by
  by_cases h : x.frame.vc = 6
  · rw [State.enqueue_vc6 _ p o h, State.enqueue_vc6 _ p o h]
    rfl
  · have hq : ({ s with pkg := k } : State).queue p (({ s with pkg := k } : State).queueOf p o x.frame)
        = s.queue p (s.queueOf p o x.frame) := rfl
    rw [State.enqueue_of_not_vc6 _ p o h, State.enqueue_of_not_vc6 _ p o h, hq]
    dsimp only
    split
    · rw [State.countQue_ports, State.countQue_ports]
      rfl
    · rfl

theorem State.enqueue_changesOnly (s : State) (p : Nat) (o : Option Nat) (x : QFrame) :
    s.changesOnly (s.enqueue p o x) [.ports, .adk, .evq] :=
  State.enqueue_only s p o x (only_refl s _) (List.Subset.refl _)

/-! ### The trellis (R18 to R20, R358) -/

/-- What a hop does with the oldest frame of its router, in a module outside OFF. -/
theorem exec_trellisHop {s : State} {site : BitVec 6} {yx : Bool} {vc : BitVec 3} {i : Nat} {x : Transit}
    (replays : BitVec 4) (hon : s.mod.state ≠ .off) (hi : s.trellisHead site.toNat yx vc = some i) (hx : s.pkg.transit[i]? = some x) :
    exec (.trellisHop site yx vc replays) s = .next (
      if x.site = x.dest then
        ({ s with pkg := { s.pkg with transit := s.pkg.transit.eraseIdx i } } : State).enqueue x.port x.queue x.item
      else if s.pkg.retraining.any (fun e => e.1 == edgeKey x.site (nextSite x.yx x.site x.dest)) then s
      else if 8 ≤ replays.toNat then
        let t := s.logE 0x07 0 (s.dieSrc x.site) (nextSite x.yx x.site x.dest) true
        { t with pkg := { t.pkg with
            retraining := t.pkg.retraining ++ [(edgeKey x.site (nextSite x.yx x.site x.dest), ⟨t.now⟩)] } }
      else if s.trellisUsed (nextSite x.yx x.site x.dest) x.yx vc < trellisDepth then
        { s with pkg := { s.pkg with
            transit := s.pkg.transit.eraseIdx i ++ [{ x with site := nextSite x.yx x.site x.dest }] } }
      else s) := by
  have hon' : (s.mod.state == ModState.off) = false := beq_false_of_ne hon
  show execTrellisHop site yx vc replays s = _
  simp only [execTrellisHop, hi, hx, hon', Bool.false_eq_true, if_false]

theorem exec_trellisRetrainTimeout {s : State} {edge : BitVec 8} {since : FT}
    (h : s.pkg.retraining = [(edge.toNat, ⟨since⟩)]) (hdue : since + 10 * usT ≤ s.now) :
    exec (.trellisRetrainTimeout edge) s = .next (s.enterHalt 0x07) := by
  show execTrellisRetrainTimeout edge s = _
  simp [execTrellisRetrainTimeout, h, hdue]

/-- Settles O7: the branches of a hop, by `exec_trellisHop`, and the two ends of a retraining. -/
theorem trellisHops : Obligations.TrellisHops := by
  unfold Obligations.TrellisHops
  refine ⟨?moves, ?waits, ?leaves, ?retrains, fun s edge => ⟨_, rfl, ?_, rfl, (only_refl s _).pkg (by decide) _⟩, ?timeout⟩
  case moves =>
    intro s site yx vc replays i x hon hi hx hrep hidle hne hroom
    refine ⟨_, exec_trellisHop replays hon hi hx, ?_⟩
    simp only [hne, hidle, List.any_nil, Bool.false_eq_true, if_false, Nat.not_le_of_lt hrep, hroom, if_true, true_and]
    exact (only_refl s _).pkg (by decide) _
  case waits =>
    intro s site yx vc replays i x hon hi hx hrep hidle hne hfull
    rw [exec_trellisHop replays hon hi hx]
    simp only [hne, hidle, List.any_nil, Bool.false_eq_true, if_false, Nat.not_le_of_lt hrep, Nat.not_lt_of_le hfull]
  case leaves =>
    intro s site yx vc replays i x hon hi hx heq
    refine ⟨_, exec_trellisHop replays hon hi hx, ?_⟩
    simp only [heq, if_true]
    refine ⟨?_, s.enqueue_ports_pkg _ _ _ _, ?_⟩
    · exact congrArg Package.transit (State.enqueue_changesOnly _ _ _ _ .pkg (by decide))
    · exact ((only_refl s _).pkg (by decide) _).trans ((State.enqueue_changesOnly _ _ _ _).mono (by decide))
  case retrains =>
    intro s site yx vc replays i x hon hi hx hrep hidle hne
    refine ⟨_, exec_trellisHop replays hon hi hx, ?_⟩
    simp only [hne, hidle, List.any_nil, Bool.false_eq_true, if_false, hrep, if_true, State.logE_pkg, List.nil_append]
    exact ⟨trivial, by rw [State.now, State.logE_tim]; rfl, ((s.logE_changesOnly _ _ _ _ _).mono (by decide)).pkg (by decide) _⟩
  case timeout =>
    intro s edge since halive h hdue
    obtain ⟨hstate, hcause⟩ := State.enterHalt_mod halive 0x07
    exact ⟨_, exec_trellisRetrainTimeout h hdue, hstate, hcause⟩
  · intro e he
    have := List.of_mem_filter he
    simpa using this

end Sys2Proof.Machine
end

section
/-! SUPPORT. Fabric time: marks that are missing and marks that are good, the ends of a stay in HOLDOVER and of a stall, the
distribution and TIM_CTRL (R36 to R49). -/

namespace Sys2Proof.Machine

/-! ### Changes of the FT state (R43, R44) -/

/-- Entering HOLDOVER is the change of state and its entry: no consumer of Table 02-3 acts. -/
theorem State.ftTo_holdover {s : State} (h : s.tim.state ≠ .holdover) :
    s.ftTo .holdover = ({ s with tim := s.tim.enter .holdover } : State).logE 0x16
      (FtState.code .holdover + 8 * s.tim.state.code) (srcSD 1) s.tim.markErr.toNat true := by
  unfold State.ftTo
  rw [if_neg h]
  rfl

theorem State.ftTo_holdover_changesOnly {s : State} (h : s.tim.state ≠ .holdover) :
    s.changesOnly (s.ftTo .holdover) [.tim, .log, .evq, .adk] := by
  rw [State.ftTo_holdover h]
  exact ((only_refl s _).tim (by decide) _).trans ((State.logE_changesOnly _ _ _ _ _ _).mono (by decide))

/-- HOLDOVER begins now, and neither the window nor the run of missing marks nor fabric time moves. -/
theorem State.ftTo_holdover_tim {s : State} (h : s.tim.state ≠ .holdover) :
    (s.ftTo .holdover).tim.window = s.tim.window ∧ (s.ftTo .holdover).tim.missRun = s.tim.missRun
      ∧ (s.ftTo .holdover).tim.state = .holdover ∧ (s.ftTo .holdover).tim.holdFrom = s.now
      ∧ (s.ftTo .holdover).now = s.now := by
  simp only [State.now, State.ftTo_tim h]
  exact ⟨rfl, rfl, rfl, rfl, rfl⟩

/-- A stay in HOLDOVER that has lasted HOLD_MAX_S ends. -/
theorem State.holdEnds_of_reached {s : State} (hst : s.tim.state = .holdover)
    (h : s.tim.holdFrom + s.tim.holdMaxS.toNat * secT ≤ s.now) : s.holdEnds = s.ftTo .lost := if_pos ⟨hst, h⟩

theorem State.holdEnds_of_not_reached {s : State}
    (h : s.tim.state ≠ .holdover ∨ s.now < s.tim.holdFrom + s.tim.holdMaxS.toNat * secT) : s.holdEnds = s :=
  if_neg (by rintro ⟨hst, hle⟩; exact h.elim (· hst) (Nat.not_lt_of_le hle))

/-- A stay in HOLDOVER that becomes LOST keeps fabric time and what TIM_CTRL holds. -/
theorem State.ftTo_lost_tim {s : State} (h : s.tim.state = .holdover) :
    (s.ftTo .lost).tim.state = .lost ∧ (s.ftTo .lost).now = s.now ∧ (s.ftTo .lost).tim.stepbackUs = s.tim.stepbackUs
      ∧ (s.ftTo .lost).tim.holdMaxS = s.tim.holdMaxS ∧ (s.ftTo .lost).tim.markWin = s.tim.markWin := by
  have hne : s.tim.state ≠ .lost := by rw [h]; decide
  simp only [State.now, State.ftTo_tim hne]
  exact ⟨rfl, rfl, rfl, rfl, rfl⟩

/-! ### Marks (R38 to R41) -/

/-- A missing mark that is not the third in a row is counted, and the run of good ones is forgotten. -/
theorem State.markMissing_of_lt {s : State} (h : s.tim.missRun.toNat < 2) :
    s.markMissing = { s with tim := { s.tim with missRun := s.tim.missRun + 1, markRun := 0, errs := [] } } := by
  have hrun : runUp s.tim.missRun = s.tim.missRun + 1 := if_neg (by bv_omega)
  have hlt : ¬ (s.tim.state = .locked ∧ 3 ≤ (s.tim.missRun + 1).toNat) := by
    rintro ⟨-, h3⟩
    bv_omega
  unfold State.markMissing
  simp only [hrun, hlt, if_false]

/-- The third missing mark in a row takes LOCKED to HOLDOVER. -/
theorem State.markMissing_third {s : State} (hst : s.tim.state = .locked) (h : s.tim.missRun.toNat = 2) :
    s.markMissing = ({ s with tim := { s.tim with missRun := 3, markRun := 0, errs := [] } } : State).ftTo .holdover := by
  have hrun : runUp s.tim.missRun = 3 := by
    have h2 : s.tim.missRun = 2 := by bv_omega
    rw [h2]
    decide
  unfold State.markMissing
  simp only [hrun, hst, true_and]
  exact if_pos (by decide)

theorem State.markClose_of_none {s : State} (h : s.tim.window = none) : s.markClose = s :=
  if_neg (by simp [h])

theorem State.markClose_of_some {s : State} {w : FT × FT} (h : s.tim.window = some w) :
    s.markClose = ({ s with tim := { s.tim with window := none } } : State).markMissing :=
  if_pos (by simp [h])

/-- A good frame that comes with no window open opens the window of its mark. -/
theorem exec_rtCodeFrame_good {s : State} {m : BitVec 64} {fl : BitVec 8} (hon : s.mod.state ≠ .off)
    (hw : s.tim.window = none) (hm : m.toNat % msT = 0) :
    exec (.rtCodeFrame 0xE5A3 m fl (codeCrc m fl)) s = .next
      { s with tim := { s.tim with lastFrame := s.now, absentRun := 0, window := some (m.toNat, s.now) } } := by
  have hclose := State.markClose_of_none (s := { s with tim := { s.tim with lastFrame := s.now, absentRun := 0 } }) hw
  refine congrArg Host.Outcome.next ((if_neg (by simp [hon])).trans ?_)
  dsimp only
  rw [hclose]
  exact if_pos ⟨rfl, hm⟩

/-- A frame whose CRC fails is one missing mark. -/
theorem exec_rtCodeFrame_badCrc {s : State} {m : BitVec 64} {fl : BitVec 8} {crc : BitVec 16} (hon : s.mod.state ≠ .off)
    (hw : s.tim.window = none) (hcrc : crc ≠ codeCrc m fl) :
    exec (.rtCodeFrame 0xE5A3 m fl crc) s = .next ({ s with tim := { s.tim with
      lastFrame := s.now, absentRun := 0, codeErr := true } } : State).markMissing := by
  have hclose := State.markClose_of_none (s := { s with tim := { s.tim with lastFrame := s.now, absentRun := 0 } }) hw
  refine congrArg Host.Outcome.next ((if_neg (by simp [hon])).trans ?_)
  dsimp only
  rw [hclose]
  exact if_neg (fun h => hcrc h.1)

theorem exec_rtCodeFrame_noSync {s : State} {sync : BitVec 16} (m : BitVec 64) (fl : BitVec 8) (crc : BitVec 16)
    (h : sync ≠ 0xE5A3) : exec (.rtCodeFrame sync m fl crc) s = .next s :=
  congrArg Host.Outcome.next (if_pos (.inr h))

/-- An edge that the window of its frame takes in LOCKED: the error is noted and will be removed over a millisecond. -/
theorem exec_rtMarkEdge_locked {s : State} {frac : BitVec 6} {m last : FT} (hon : s.mod.state ≠ .off)
    (hst : s.tim.state = .locked) (hw : s.tim.window = some (m, last)) (hlast : last + 100 * usT ≤ s.now + frac.toNat)
    (herr : ((s.now + frac.toNat : Nat) - (m : Int)).natAbs ≤ 20 * nsT) (hwin : 1 ≤ s.tim.markWin.toNat) :
    exec (.rtMarkEdge frac) s =
      .next (({ s with tim := { s.tim with window := none } } : State).markGood ((s.now + frac.toNat : Nat) - (m : Int))) := by
  have hin : ¬ s.tim.markWin.toNat * usT < ((s.now + frac.toNat : Nat) - (m : Int)).natAbs := by
    simp only [usT, nsT] at *
    omega
  have hin' : ¬ agreeT < ((s.now + frac.toNat : Nat) - (m : Int)).natAbs := Nat.not_lt_of_le herr
  refine congrArg Host.Outcome.next ((if_neg hon).trans ?_)
  rw [hw]
  simp only [hst, hin, hin', decide_false, Bool.and_false, Bool.false_eq_true, if_false, Nat.not_lt_of_le hlast]

theorem State.markGood_locked {s : State} (e : Int) (h : s.tim.state = .locked) :
    s.markGood e = { s with tim := { s.tim with
      missRun := 0, markErr := BitVec.ofInt 64 e, markRun := runUp s.tim.markRun, slew := -e, slewSlot := 0 } } := if_pos h

theorem exec_markWindowExpiry {s : State} {m last : FT} (hon : s.mod.state ≠ .off) (hst : s.tim.state = .locked)
    (hw : s.tim.window = some (m, last)) (hdue : m + s.tim.markWin.toNat * usT < s.now) :
    exec .markWindowExpiry s = .next ({ s with tim := { s.tim with window := none } } : State).markMissing := by
  show execMarkWindowExpiry s = _
  unfold execMarkWindowExpiry
  rw [hw]
  exact congrArg Host.Outcome.next ((if_pos ⟨hon, hst, hdue⟩).trans (State.markClose_of_some hw))

theorem exec_rtCodeAbsentTimeout {s : State} (hon : s.mod.state ≠ .off)
    (hdue : s.tim.lastFrame + 2 * msT + s.tim.absentRun * msT ≤ s.now) :
    exec .rtCodeAbsentTimeout s =
      .next ({ s with tim := { s.tim with absentRun := s.tim.absentRun + 1 } } : State).markMissing :=
  congrArg Host.Outcome.next (if_pos ⟨hon, hdue⟩)

theorem exec_rtRefLoss {s : State} {since : BitVec 64} (hon : s.mod.state ≠ .off) (hst : s.tim.state = .locked)
    (hdue : since.toNat + usT ≤ s.now) : exec (.rtRefLoss since) s = .next (s.ftTo .holdover) :=
  congrArg Host.Outcome.next (if_pos ⟨hon, hst, hdue⟩)

theorem exec_holdoverExpiry {s : State} (hon : s.mod.state ≠ .off) : exec .holdoverExpiry s = .next s.holdEnds :=
  congrArg Host.Outcome.next (if_pos hon)

/-- Settles O8: each row's equation, with what a missing mark and a change to HOLDOVER leave in the time unit. -/
theorem rackTimeMarks : Obligations.RackTimeMarks := by
  unfold Obligations.RackTimeMarks
  refine ⟨?frame, fun s sync m fl crc h => exec_rtCodeFrame_noSync m fl crc h, ?badCrc, ?edge, ?unpaired, ?third, ?absent,
    ?refLoss, ?holdover⟩
  case frame =>
    intro s m fl hon hw hm
    exact ⟨_, exec_rtCodeFrame_good hon hw hm, rfl, (only_refl s _).tim (by decide) _⟩
  case badCrc =>
    intro s m fl crc hon hw hcrc hrun
    exact ⟨_, (exec_rtCodeFrame_badCrc hon hw hcrc).trans (congrArg Host.Outcome.next (State.markMissing_of_lt hrun)),
      hw, rfl, rfl, rfl, rfl, (only_refl s _).tim (by decide) _⟩
  case edge =>
    intro s frac m last hon hst hw hlast herr hwin
    exact ⟨_, (exec_rtMarkEdge_locked hon hst hw hlast herr hwin).trans (congrArg Host.Outcome.next (State.markGood_locked _ hst)),
      rfl, rfl, rfl, rfl, hst, rfl, (only_refl s _).tim (by decide) _⟩
  case unpaired =>
    intro s m last hon hst hw hdue hrun
    exact ⟨_, (exec_markWindowExpiry hon hst hw hdue).trans (congrArg Host.Outcome.next (State.markMissing_of_lt hrun)),
      rfl, rfl, rfl, hst, rfl, (only_refl s _).tim (by decide) _⟩
  case third =>
    intro s m last hon hst hw hdue hrun
    have hne : s.tim.state ≠ .holdover := by rw [hst]; decide
    refine ⟨_, (exec_markWindowExpiry hon hst hw hdue).trans (congrArg Host.Outcome.next (State.markMissing_third hst hrun)), ?_⟩
    obtain ⟨hwin, hmiss, hstate, hfrom, hnow⟩ := State.ftTo_holdover_tim
      (s := { s with tim := { s.tim with window := none, missRun := 3, markRun := 0, errs := [] } }) hne
    exact ⟨hwin, hmiss, hstate, hfrom, hnow, ((only_refl s _).tim (by decide) _).trans (State.ftTo_holdover_changesOnly hne)⟩
  case absent =>
    intro s hon hdue hrun
    exact ⟨_, (exec_rtCodeAbsentTimeout hon hdue).trans (congrArg Host.Outcome.next (State.markMissing_of_lt hrun)),
      rfl, rfl, rfl, rfl, (only_refl s _).tim (by decide) _⟩
  case refLoss =>
    intro s since hon hst hdue
    have hne : s.tim.state ≠ .holdover := by rw [hst]; decide
    refine ⟨_, exec_rtRefLoss hon hst hdue, ?_⟩
    obtain ⟨-, -, hstate, hfrom, hnow⟩ := State.ftTo_holdover_tim hne
    exact ⟨hstate, hfrom, hnow, State.ftTo_holdover_changesOnly hne⟩
  case holdover =>
    intro s hon hst hdue
    refine ⟨_, exec_holdoverExpiry hon, ?_⟩
    rw [State.holdEnds_of_reached hst hdue]
    obtain ⟨hlost, hnow, -⟩ := State.ftTo_lost_tim hst
    exact ⟨hlost, hnow⟩

/-! ### The end of a stall, distribution and TIM_CTRL (R36, R44, R49) -/

theorem exec_ftStallEnd {s : State} (hon : s.mod.state ≠ .off) (hst : s.tim.stall = 1) :
    exec .ftStallEnd s = .next ((({ s with tim := { s.tim with stall := 0 } } : State).ftRecord 2 s.tim.stallAt s.tim.stallAt
      s.tim.stallAmt s.tim.stallAmt).ftTo .locked) :=
  congrArg Host.Outcome.next (if_pos ⟨hon, hst⟩)

/-- Entering a state, or staying in it, leaves what a correction has recorded. -/
theorem State.ftTo_recorded (s : State) (n : FtState) :
    (s.ftTo n).tim.state = n ∧ (s.ftTo n).tim.ft = s.tim.ft ∧ (s.ftTo n).tim.stall = s.tim.stall
      ∧ (s.ftTo n).tim.stepped = s.tim.stepped ∧ (s.ftTo n).tim.corrections = s.tim.corrections
      ∧ (s.ftTo n).tim.stepAt = s.tim.stepAt := by
  by_cases h : s.tim.state = n
  · rw [State.ftTo_self h]
    exact ⟨h, rfl, rfl, rfl, rfl, rfl⟩
  · rw [State.ftTo_tim h]
    exact ⟨rfl, rfl, rfl, rfl, rfl, rfl⟩

theorem exec_ftDistribute {s : State} (hon : s.mod.state ≠ .off) (hdue : s.tim.distAt + usT ≤ s.now) :
    exec .ftDistribute s =
      .next ((List.range 64).foldl State.ftLoad { s with tim := { s.tim with distAt := s.now } }) :=
  congrArg Host.Outcome.next (if_pos ⟨hon, hdue⟩)

theorem State.ftLoad_changesOnly (s : State) (x : Nat) : s.changesOnly (s.ftLoad x) [.tim, .free] :=
  State.ftLoad_only s x (only_refl s _) (by decide)

/-- A free offset lies within 16 sixteenths of zero. -/
theorem ofInt_offset_bound (n : Nat) : (BitVec.ofInt 8 (((n % 33 : Nat) : Int) - 16)).toInt.natAbs ≤ nsT := by
  have h : ∀ k : Nat, k < 33 → (BitVec.ofInt 8 ((k : Int) - 16)).toInt.natAbs ≤ nsT := by decide
  exact h _ (Nat.mod_lt n (by decide))

/-- The offset of a die once it has been loaded: SD1's is 0, any other is bounded. -/
theorem State.ftLoad_dieOff_same (s : State) (x : Nat) :
    (x = sd1Site → Table.read 0 (s.ftLoad x).tim.dieOff x = 0) ∧ (Table.read 0 (s.ftLoad x).tim.dieOff x).toInt.natAbs ≤ nsT := by
  unfold State.ftLoad
  simp only [Table.read_write_same]
  refine ⟨fun h => if_pos h, ?_⟩
  split
  · decide
  · exact ofInt_offset_bound _

theorem State.ftLoad_dieOff_other (s : State) {x y : Nat} (h : y ≠ x) :
    Table.read 0 (s.ftLoad x).tim.dieOff y = Table.read 0 s.tim.dieOff y :=
  Table.read_write_other _ _ _ h

/-- A fold of loads leaves every die that it visits with a bounded offset. -/
theorem State.foldl_ftLoad_dieOff (l : List Nat) (s : State) : ∀ x ∈ l,
    (x = sd1Site → Table.read 0 (l.foldl State.ftLoad s).tim.dieOff x = 0)
      ∧ (Table.read 0 (l.foldl State.ftLoad s).tim.dieOff x).toInt.natAbs ≤ nsT := by
  induction l using List.reverseRecOn with
  | nil => simp
  | append_singleton l y ih =>
    intro x hx
    rw [List.foldl_concat]
    by_cases hxy : x = y
    · subst hxy
      exact State.ftLoad_dieOff_same _ _
    · rw [State.ftLoad_dieOff_other _ hxy]
      exact ih x (by simpa [hxy] using hx)

theorem foldl_ftLoad_distAt (l : List Nat) (s : State) : (l.foldl State.ftLoad s).tim.distAt = s.tim.distAt := by
  induction l generalizing s with
  | nil => rfl
  | cons x l ih => exact ih _

/-- The fields of a value that TIM_CTRL takes, and the unit that holds them. -/
def Tim.withCtrl (t : Tim) (v : BitVec 64) : Tim :=
  { t with
    stepbackUs := BitVec.ofNat 8 (bits v.toNat 23 16)
    holdMaxS := BitVec.ofNat 8 (bits v.toNat 15 8)
    markWin := BitVec.ofNat 4 (bits v.toNat 7 4) }

theorem bits_lt (v hi lo : Nat) : bits v hi lo < 2 ^ (hi - lo + 1) := Nat.mod_lt _ (Nat.two_pow_pos (hi - lo + 1))

theorem Tim.withCtrl_fields (t : Tim) (v : BitVec 64) : (t.withCtrl v).stepbackUs.toNat = bits v.toNat 23 16
    ∧ (t.withCtrl v).holdMaxS.toNat = bits v.toNat 15 8 ∧ (t.withCtrl v).markWin.toNat = bits v.toNat 7 4 := by
  have h1 := bits_lt v.toNat 23 16
  have h2 := bits_lt v.toNat 15 8
  have h3 := bits_lt v.toNat 7 4
  simp only [Tim.withCtrl, BitVec.toNat_ofNat]
  exact ⟨Nat.mod_eq_of_lt h1, Nat.mod_eq_of_lt h2, Nat.mod_eq_of_lt h3⟩

/-- The four ranges of a value for TIM_CTRL (R49). -/
def ctrlInRange (v : BitVec 64) : Prop :=
  bits v.toNat 23 16 ≤ 0x10 ∧ 1 ≤ bits v.toNat 15 8 ∧ bits v.toNat 15 8 ≤ 0x3C ∧ 1 ≤ bits v.toNat 7 4

theorem State.timCtrl_in_range (s : State) {v : BitVec 64} (h : ctrlInRange v) :
    s.timCtrl v = (({ s with tim := s.tim.withCtrl v } : State).holdEnds, stOk) := by
  obtain ⟨hstep, hhold, hmax, hwin⟩ := h
  unfold State.timCtrl
  exact if_neg (by omega)

/-- A value in its ranges that does not end a stay in HOLDOVER sets the three fields. -/
theorem State.timCtrl_sets {s : State} {v : BitVec 64} (h : ctrlInRange v)
    (hstay : s.tim.state ≠ .holdover ∨ s.now < s.tim.holdFrom + bits v.toNat 15 8 * secT) :
    s.timCtrl v = ({ s with tim := s.tim.withCtrl v }, stOk) := by
  rw [s.timCtrl_in_range h, State.holdEnds_of_not_reached]
  rw [(Tim.withCtrl_fields s.tim v).2.1]
  exact hstay

/-- A value in its ranges whose HOLD_MAX_S the stay has reached sets the fields and ends the stay. -/
theorem State.timCtrl_loses {s : State} {v : BitVec 64} (h : ctrlInRange v) (hst : s.tim.state = .holdover)
    (hreach : s.tim.holdFrom + bits v.toNat 15 8 * secT ≤ s.now) :
    s.timCtrl v = (({ s with tim := s.tim.withCtrl v } : State).ftTo .lost, stOk) := by
  rw [s.timCtrl_in_range h, State.holdEnds_of_reached]
  · exact hst
  · rw [(Tim.withCtrl_fields s.tim v).2.1]
    exact hreach

theorem State.timCtrl_out_of_range {s : State} {v : BitVec 64}
    (h : 0x10 < bits v.toNat 23 16 ∨ bits v.toNat 15 8 = 0 ∨ 0x3C < bits v.toNat 15 8 ∨ bits v.toNat 7 4 = 0) :
    s.timCtrl v = (s, stDenied) := if_pos h

/-- Settles O9: the distribution by its fold over the dies, TIM_CTRL by the three outcomes of `State.timCtrl`. -/
theorem fabricTimeKeeping : Obligations.FabricTimeKeeping := by
  unfold Obligations.FabricTimeKeeping
  refine ⟨?stallEnd, ?distribute, ?ctrl, ?ctrlLost, ?ctrlDenied⟩
  case stallEnd =>
    intro s hon hst
    refine ⟨_, exec_ftStallEnd hon hst, ?_⟩
    obtain ⟨h1, h2, h3, h4, h5, h6⟩ := State.ftTo_recorded (({ s with tim := { s.tim with stall := 0 } } : State).ftRecord 2
      s.tim.stallAt s.tim.stallAt s.tim.stallAmt s.tim.stallAmt) .locked
    simp only [State.ftRecord_tim] at h2 h3 h4 h5 h6
    exact ⟨h1, h2, h3, h4, h5, h6⟩
  case distribute =>
    intro s hon hdue
    refine ⟨_, exec_ftDistribute hon hdue, foldl_ftLoad_distAt _ _, ?_, ?_, ?_, ?_⟩
    · exact (State.foldl_ftLoad_dieOff _ _ sd1Site (List.mem_range.2 (by decide))).1 rfl
    · exact fun x hx => (State.foldl_ftLoad_dieOff _ _ x (List.mem_range.2 hx)).2
    · exact foldl_now State.ftLoad _ _ State.ftLoad_now
    · exact foldl_only _ _ _ (fun t x h => h.trans (t.ftLoad_changesOnly x)) ((only_refl s _).tim (by decide) _)
  case ctrl =>
    intro s tag v hw h1 h2 h3 h4 hstay
    have hset := State.timCtrl_sets (s := s.adkTaken (wrFrame tag (timAddr 0x20) v)) ⟨h1, h2, h3, h4⟩ hstay
    obtain ⟨hs, hh, hm⟩ := Tim.withCtrl_fields s.tim v
    exact ⟨_, State.adkWr_eq hw hset, State.adkReply_responded _ _ _ _ _, hs, hh, hm, rfl,
      State.adkReply_changesOnly ((only_refl _ _).tim (by decide) _) (by decide) _ _ _⟩
  case ctrlLost =>
    intro s tag v hw h1 h2 h3 h4 hst hreach
    have hset := State.timCtrl_loses (s := s.adkTaken (wrFrame tag (timAddr 0x20) v)) ⟨h1, h2, h3, h4⟩ hst hreach
    obtain ⟨hs, hh, hm⟩ := Tim.withCtrl_fields s.tim v
    obtain ⟨hlost, hnow, hstep, hmax, hwin⟩ := State.ftTo_lost_tim
      (s := { s.adkTaken (wrFrame tag (timAddr 0x20) v) with tim := s.tim.withCtrl v }) hst
    exact ⟨_, State.adkWr_eq hw hset, State.adkReply_responded _ _ _ _ _, hlost, (congrArg BitVec.toNat hstep).trans hs,
      (congrArg BitVec.toNat hmax).trans hh, (congrArg BitVec.toNat hwin).trans hm, hnow⟩
  case ctrlDenied =>
    intro s tag v hw hout
    exact ⟨_, State.adkWr_eq hw (State.timCtrl_out_of_range hout), State.adkReply_responded _ _ _ _ _,
      State.adkReply_changesOnly (only_refl _ _) (by decide) _ _ _⟩

end Sys2Proof.Machine
end

section
/-! SUPPORT. One rim port that changes while every other stays: the link of the port, the other ports and the frame, carried
together through the operations of a row. -/

namespace Sys2Proof.Machine

/-- From `s` to `t` port `b` comes to hold the link `l`, no other port changes, and nothing outside `ps` does. -/
structure State.atPort (s t : State) (b : Nat) (l : Link) (ps : List Part) : Prop where
  link : t.link b = l
  others : s.otherPorts t b
  only : s.changesOnly t ps

theorem State.atPort.refl (s : State) (b : Nat) (ps : List Part) : s.atPort s b (s.link b) ps :=
  ⟨rfl, s.otherPorts_refl b, only_refl s ps⟩

theorem State.atPort.mono {s t : State} {b : Nat} {l : Link} {ps qs : List Part} (h : s.atPort t b l ps) (hq : ps ⊆ qs) :
    s.atPort t b l qs := ⟨h.link, h.others, h.only.mono hq⟩

/-- A step that leaves the ports alone leaves the port's link as it was. -/
theorem State.atPort.of_only {s t u : State} {b : Nat} {l : Link} {ps qs : List Part} (h : s.atPort t b l ps)
    (hu : t.changesOnly u qs) (hq : qs ⊆ ps) (hp : Part.ports ∉ qs) : s.atPort u b l ps := by
  have hports : u.ports = t.ports := hu .ports hp
  refine ⟨?_, State.otherPorts_of_ports h.others hports, h.only.trans (hu.mono hq)⟩
  rw [← h.link]
  simp only [State.link, State.port, hports]

theorem State.atPort.onLink {s t : State} {b : Nat} {l : Link} {ps : List Part} (h : s.atPort t b l ps) (hm : [Part.ports] ⊆ ps)
    (f : Link → Link) : s.atPort (t.onLink b f) b (f l) ps :=
  ⟨by rw [State.link_onLink_same, h.link], State.otherPorts_onLink f h.others, State.onLink_only t b f h.only hm⟩

theorem State.atPort.onTc {s t : State} {b : Nat} {l : Link} {ps : List Part} (h : s.atPort t b l ps) (hm : [Part.ports] ⊆ ps)
    (f : Traffic → Traffic) : s.atPort (t.onTc b f) b l ps :=
  ⟨by rw [State.link_onTc, h.link], State.otherPorts_onTc f h.others, State.onTc_only t b f h.only hm⟩

theorem State.atPort.event {s t : State} {b : Nat} {l : Link} {ps : List Part} (h : s.atPort t b l ps)
    (hm : [Part.adk, Part.evq] ⊆ ps) (code detail : Nat) (sr : BitVec 16) (param q : Nat) :
    s.atPort (t.event code detail sr param q) b l ps :=
  h.of_only (State.event_only t code detail sr param q (only_refl t _) (List.Subset.refl _)) hm (by decide)

theorem State.atPort.logE {s t : State} {b : Nat} {l : Link} {ps : List Part} (h : s.atPort t b l ps)
    (hm : [Part.log, Part.adk, Part.evq] ⊆ ps) (cls detail : Nat) (sr : BitVec 16) (param : Nat) (mirror : Bool) :
    s.atPort (t.logE cls detail sr param mirror) b l ps :=
  h.of_only (t.logE_changesOnly cls detail sr param mirror) hm (by decide)

theorem State.atPort.logWith {s t : State} {b : Nat} {l : Link} {ps : List Part} (h : s.atPort t b l ps)
    (hm : [Part.log, Part.adk, Part.evq] ⊆ ps) (cls detail : Nat) (sr : BitVec 16) (param code d p : Nat) :
    s.atPort (t.logWith cls detail sr param code d p) b l ps :=
  h.of_only (State.logWith_only t cls detail sr param code d p (only_refl t _) (List.Subset.refl _)) hm (by decide)

theorem State.countPrt_changesOnly (s : State) (p i n : Nat) : s.changesOnly (s.countPrt p i n) [.ports, .adk, .evq] :=
  State.countPrt_only s p i n (only_refl s _) (List.Subset.refl _)

theorem State.atPort.countPrt {s t : State} {b : Nat} {l : Link} {ps : List Part} (h : s.atPort t b l ps)
    (hm : [Part.ports, Part.adk, Part.evq] ⊆ ps) (i n : Nat) : s.atPort (t.countPrt b i n) b (l.counted i n) ps :=
  ⟨by rw [State.countPrt_link, h.link], State.otherPorts_countPrt i n h.others,
    h.only.trans ((t.countPrt_changesOnly b i n).mono hm)⟩

theorem State.atPort.now {s t : State} {b : Nat} {l : Link} {ps : List Part} (h : s.atPort t b l ps) (hm : Part.tim ∉ ps) :
    t.now = s.now := State.now_of_only h.only hm

/-- The module's state is part of whether it runs. -/
theorem State.alive_of_only {s t : State} {ps : List Part} (h : s.changesOnly t ps) (hm : Part.mod ∉ ps) : t.alive = s.alive := by
  have hmod : t.mod = s.mod := h .mod hm
  simp only [State.alive, hmod]

theorem State.port_of_only {s t : State} {ps : List Part} (h : s.changesOnly t ps) (hq : Part.ports ∉ ps) (p : Nat) :
    t.port p = s.port p := by
  have hports : t.ports = s.ports := h .ports hq
  simp only [State.port, hports]

theorem State.link_of_only {s t : State} {ps : List Part} (h : s.changesOnly t ps) (hq : Part.ports ∉ ps) (p : Nat) :
    t.link p = s.link p := congrArg Port.link (State.port_of_only h hq p)

theorem State.plainPort.of_only {s t : State} {ps : List Part} {b : Nat} (hp : s.plainPort b) (h : s.changesOnly t ps)
    (hm : Part.mod ∉ ps) (hq : Part.ports ∉ ps) : t.plainPort b := by
  obtain ⟨halive, hoff, hsize⟩ := hp
  have hlink := State.link_of_only h hq b
  exact ⟨(State.alive_of_only h hm).trans halive, hlink ▸ hoff, hlink ▸ hsize⟩

/-- A port of its own stays one while its link keeps its place outside every bundle. -/
theorem State.atPort.plain {s t : State} {b : Nat} {l : Link} {ps : List Part} (h : s.atPort t b l ps) (hp : s.plainPort b)
    (hm : Part.mod ∉ ps) (hoff : l.bundleOff = (s.link b).bundleOff) (hsize : l.bundleSize = (s.link b).bundleSize) :
    t.plainPort b := by
  obtain ⟨halive, hpo, hps⟩ := hp
  exact ⟨(State.alive_of_only h.only hm).trans halive, by rw [h.link, hoff, hpo], by rw [h.link, hsize, hps]⟩

theorem State.atPort.enabled {s t : State} {b : Nat} {l : Link} {ps : List Part} (h : s.atPort t b l ps) (hp : s.plainPort b)
    (ht : t.plainPort b) (hm : Part.mod ∉ ps) (hg : Part.glb ∉ ps) (hcls : l.cls = (s.link b).cls) :
    t.enabledPort b = s.enabledPort b := by
  have hmod : t.mod = s.mod := h.only .mod hm
  have hglb : t.glb = s.glb := h.only .glb hg
  simp only [State.enabledPort, State.portsRun, State.makerHolds, ht.base, hp.base, h.link, hcls, hmod, hglb]

/-! ### A port goes down and trains (R53, R56, R79) -/

/-- The link of a port of its own once it is down. -/
def Link.downed (l : Link) (cause : BitVec 8) (now : FT) : Link :=
  { l with
    state := .down, downCause := cause, membersUp := 0, helloSent := false, peerHelloUs := none, nakSent := false
    owedAck := none, outAt := if l.state = .opened then now else l.outAt, solo := .down, soloSent := false, soloOut := [] }

/-- The first part of `State.portDown`: the port, its members and what it was sending. -/
def State.portCut (s : State) (b : Nat) (cause : BitVec 8) : State :=
  let was := (s.link b).state
  let s := s.onLink b (fun l => { l with
    state := .down, downCause := cause, membersUp := 0, helloSent := false, peerHelloUs := none,
    nakSent := false, owedAck := none, outAt := if was = .opened then s.now else l.outAt })
  let s := (s.members b).foldl (fun (s : State) m => s.onLink m (fun l => { l with
    solo := .down, soloSent := false, soloOut := [], downCause := cause })) s
  s.onTc b (fun t => { t with vc6 := t.vc6.filter (fun f => f.opcode != 0x60), lanes := [] })

theorem State.portDown_eq {s : State} {b : Nat} (cause : BitVec 8) (h : (s.link b).state ≠ .down) :
    s.portDown b cause =
      let t := s.portCut b cause
      let t := if (s.link b).state = .training then t
        else t.logWith 0x08 cause.toNat (srcP b) 0xFF 0x46 cause.toNat 0xFF
      let t := if (t.link b).cls = 1 ∧ (s.link b).state = .opened then t.trayGone b else t
      if cause = 5 then t.deadTarget b 2 else t := if_neg h

theorem State.portDown_down {s : State} {b : Nat} (cause : BitVec 8) (h : (s.link b).state = .down) : s.portDown b cause = s :=
  if_pos h

theorem State.atPort.portCut {s t : State} {b : Nat} {l : Link} {ps : List Part} (h : s.atPort t b l ps) (ht : t.plainPort b)
    (hm : [Part.ports] ⊆ ps) (cause : BitVec 8) : s.atPort (t.portCut b cause) b (l.downed cause t.now) ps := by
  have hmem : ∀ f : Link → Link, (∀ x, (f x).bundleOff = x.bundleOff ∧ (f x).bundleSize = x.bundleSize) →
      (t.onLink b f).members b = [b] := fun f hf =>
    State.plainPort.members ⟨ht.alive, by rw [State.link_onLink_same, (hf _).1, ht.2.1],
      by rw [State.link_onLink_same, (hf _).2, ht.2.2]⟩
  unfold State.portCut
  dsimp only
  rw [hmem]
  swap
  · exact fun _ => ⟨rfl, rfl⟩
  have hcut := ((h.onLink hm (fun x => { x with
    state := .down, downCause := cause, membersUp := 0, helloSent := false, peerHelloUs := none,
    nakSent := false, owedAck := none, outAt := if (t.link b).state = .opened then t.now else x.outAt })).onLink hm
    (fun x => { x with solo := .down, soloSent := false, soloOut := [], downCause := cause })).onTc hm
    (fun t => { t with vc6 := t.vc6.filter (fun f => f.opcode != 0x60), lanes := [] })
  rw [h.link] at hcut
  rw [h.link]
  exact hcut

/-- A port of its own that was in training goes down without an entry. -/
theorem State.atPort.portDown_training {s t : State} {b : Nat} {l : Link} {ps : List Part} (h : s.atPort t b l ps)
    (ht : t.plainPort b) (hm : [Part.ports] ⊆ ps) {cause : BitVec 8} (hst : l.state = .training) (hc : cause ≠ 5) :
    s.atPort (t.portDown b cause) b (l.downed cause t.now) ps := by
  have hst' : (t.link b).state = .training := by rw [h.link, hst]
  have hcut := h.portCut ht hm cause
  rw [State.portDown_eq cause (by rw [hst']; decide)]
  have htray : ¬ ((t.portCut b cause).link b |>.cls) = 1 ∨ (t.link b).state ≠ .opened := .inr (by rw [hst']; decide)
  dsimp only
  rw [if_pos hst', if_neg (not_and_or.2 htray), if_neg hc]
  exact hcut

/-- A port of its own that was past training goes down with an entry and an event; its target is not asked for again where it is
dead, and no tray is lost with it. -/
theorem State.atPort.portDown {s t : State} {b : Nat} {l : Link} {ps : List Part} (h : s.atPort t b l ps) (ht : t.plainPort b)
    (hm : [Part.ports, Part.log, Part.adk, Part.evq] ⊆ ps) {cause : BitVec 8} (hst : l.state ≠ .down)
    (htray : ¬ (l.cls = 1 ∧ l.state = .opened)) (hdead : cause ≠ 5 ∨ l.dead = true) :
    s.atPort (t.portDown b cause) b (l.downed cause t.now) ps := by
  have hst' : (t.link b).state ≠ .down := by rw [h.link]; exact hst
  have hcut := h.portCut ht (List.Subset.trans (by decide) hm) cause
  have hlog : s.atPort (if (t.link b).state = .training then t.portCut b cause
      else (t.portCut b cause).logWith 0x08 cause.toNat (srcP b) 0xFF 0x46 cause.toNat 0xFF) b (l.downed cause t.now) ps := by
    split
    · exact hcut
    · exact hcut.logWith (List.Subset.trans (by decide) hm) _ _ _ _ _ _ _
  rw [State.portDown_eq cause hst']
  have htray' : ¬ ((l.downed cause t.now).cls = 1 ∧ (t.link b).state = .opened) := by
    rw [h.link]
    exact htray
  dsimp only
  rw [hlog.link, if_neg htray']
  split
  · rename_i h5
    have hd : (l.downed cause t.now).dead = true := hdead.resolve_left (fun hc => hc h5)
    unfold State.deadTarget
    rw [hlog.link, if_pos hd]
    exact hlog
  · exact hlog

/-- The link of a port of its own whose lanes have begun to train. -/
def Link.trained (l : Link) (now : FT) : Link :=
  { l with
    trainAt := now, retrains := if l.again then l.retrains + 1 else l.retrains, again := false, state := .training }

theorem State.atPort.train {s t : State} {b : Nat} {l : Link} {ps : List Part} (h : s.atPort t b l ps) (ht : t.plainPort b)
    (hm : [Part.ports] ⊆ ps) (hen : t.enabledPort b = true) (hsig : l.signal = true) (hst : l.state = .down) :
    s.atPort (t.train b) b (l.trained t.now) ps := by
  have hst' : (t.link b).state = .down := by rw [h.link, hst]
  have hsig' : (t.link b).signal = true := by rw [h.link, hsig]
  have ho := (h.onLink hm (fun l => { l with
    trainAt := t.now, retrains := if l.again then l.retrains + 1 else l.retrains, again := false,
    solo := if t.bundled b then .training else l.solo })).onLink hm (fun l => { l with state := .training })
  unfold State.train
  rw [ht.base, ht.bundled] at *
  simp only [hen, hsig', hst', Bool.not_true, Bool.false_or, Bool.false_eq_true, if_false, BEq.rfl,
    State.link_onLink_same, if_true] at ho ⊢
  exact ho

/-- A port that cannot train stays as it is. -/
theorem State.train_idle {s : State} {p : Nat} (hp : s.plainPort p)
    (h : s.enabledPort p = false ∨ (s.link p).signal = false ∨ (s.link p).state ≠ .down) : s.train p = s := by
  unfold State.train
  rw [hp.bundled]
  refine if_pos ?_
  rcases h with h | h | h <;> simp [h]

theorem State.relink_plain {s : State} {b : Nat} (cause : BitVec 8) (hp : s.plainPort b) :
    s.relink b cause = (s.portDown b cause).train b := by
  unfold State.relink
  rw [hp.members]
  rfl

/-- A port of its own that is past training goes down and trains at once where it is enabled and its signal is there. -/
theorem State.atPort.relink {s t : State} {b : Nat} {l : Link} {ps : List Part} (h : s.atPort t b l ps) (ht : t.plainPort b)
    (hm : [Part.ports, Part.log, Part.adk, Part.evq] ⊆ ps) {cause : BitVec 8} (hst : l.state ≠ .down)
    (htray : ¬ (l.cls = 1 ∧ l.state = .opened)) (hdead : cause ≠ 5 ∨ l.dead = true) :
    s.atPort (t.relink b cause) b
      (if t.enabledPort b = true ∧ l.signal = true then (l.downed cause t.now).trained t.now else l.downed cause t.now) ps := by
  have hl : t.link b = l := h.link
  have hdown := h.portDown ht hm hst htray hdead
  have hself : t.atPort (t.portDown b cause) b (l.downed cause t.now) [.ports, .log, .adk, .evq] := by
    have := (State.atPort.refl t b [.ports, .log, .adk, .evq]).portDown ht (List.Subset.refl _) (cause := cause)
    rw [hl] at this
    exact this hst htray hdead
  have hplain : (t.portDown b cause).plainPort b := hself.plain ht (by decide) (by rw [hl]; rfl) (by rw [hl]; rfl)
  have henabled : (t.portDown b cause).enabledPort b = t.enabledPort b :=
    hself.enabled ht hplain (by decide) (by decide) (by rw [hl]; rfl)
  rw [State.relink_plain cause ht]
  split
  · rename_i hgo
    have := hdown.train hplain (List.Subset.trans (by decide) hm) (henabled.trans hgo.1) hgo.2 rfl
    rwa [hself.now (by decide)] at this
  · rename_i hno
    rw [State.train_idle hplain]
    · exact hdown
    · rw [henabled, hself.link]
      by_cases he : t.enabledPort b = true
      · exact .inr (.inl (by simpa [he, Link.downed] using hno))
      · exact .inl (by simpa using he)

end Sys2Proof.Machine
end

section
/-! SUPPORT. The power cap, the module's sensors, the spare map and the maker's modes (R409, R410, R424). -/

namespace Sys2Proof.Machine

theorem exec_powerCapCheck_first {s : State} {w : BitVec 16} (halive : s.alive = true) (hw : s.glb.capW.toNat < w.toNat)
    (hc : s.glb.capped = 0) : exec (.powerCapCheck w) s =
      .next (({ s with glb := { s.glb with avgW := w, coolFrom := none } } : State).capTo 1) := by
  refine congrArg Host.Outcome.next ((if_neg (by simp [halive])).trans ?_)
  simp only [hc, hw]
  rfl

theorem exec_powerCapCheck_second {s : State} {w : BitVec 16} (halive : s.alive = true) (hw : s.glb.capW.toNat < w.toNat)
    (hc : s.glb.capped = 1) (hlong : s.glb.capAt + 10 * msT ≤ s.now) : ∃ c, exec (.powerCapCheck w) s =
      .next (({ s with glb := { s.glb with avgW := w, coolFrom := c } } : State).capTo 2) := by
  refine ⟨_, congrArg Host.Outcome.next ((if_neg (by simp [halive])).trans ((if_neg ?_).trans (if_pos ?_)))⟩
  · rw [hc]
    exact fun h => absurd h.2 (by decide)
  · rw [hc]
    exact ⟨hw, rfl, hlong⟩

/-- CAPPED has changed to `n`, at this FT, with its entry and no more. -/
theorem State.capTo_spec (s : State) (n : Nat) : (s.capTo n).glb.capped = BitVec.ofNat 2 n ∧ (s.capTo n).glb.avgW = s.glb.avgW
    ∧ (s.capTo n).glb.capAt = s.now ∧ s.changesOnly (s.capTo n) [.glb, .log, .evq, .adk] := by
  have hlog := State.logE_changesOnly { s with glb := { s.glb with capped := BitVec.ofNat 2 n, capAt := s.now, coolFrom := none } }
    0x14 0x11 srcModule n true
  have hglb : (s.capTo n).glb = _ := hlog .glb (by decide)
  rw [hglb]
  exact ⟨rfl, rfl, rfl, ((only_refl s _).glb (by decide) _).trans (hlog.mono (by decide))⟩

/-- The entries for limits that a reading passes leave everything but the log and the events. -/
theorem State.foldl_limits_changesOnly (s : State) (now was : BitVec 4) (l : List (Nat × Nat × Nat)) :
    s.changesOnly (l.foldl (fun (t : State) (x : Nat × Nat × Nat) =>
      if now.getLsbD x.1 && !was.getLsbD x.1 then t.logE 0x0D x.2.1 srcModule x.2.2 true else t) s) [.log, .adk, .evq] :=
  foldl_only _ _ _ (fun t x h => ite_only (fun _ => h.trans (t.logE_changesOnly _ _ _ _ _)) (fun _ => h)) (only_refl s _)

/-- The state that holds a reading of the sensors, before the entries for its limits. -/
def State.sensed (s : State) (r : Reading) : State :=
  { s with
    log := { s.log with lastSensor := s.now }
    mod := { s.mod with vin := r.vin, iin := r.iin, tOut := r.tOut, tIn := r.tIn, flow := r.flow, senseBits := Reading.limits r } }

theorem State.sensed_changesOnly (s : State) (r : Reading) : s.changesOnly (s.sensed r) [.mod, .log, .evq, .adk] :=
  State.changesOnly.mod (t := { s with log := { s.log with lastSensor := s.now } }) ((only_refl s _).log (by decide) _)
    (by decide) _

theorem exec_sensorSample {s : State} {r : Reading} (hon : s.mod.state ≠ .off) (hdue : gridDue msT s.log.lastSensor s.now = true) :
    ∃ t, exec (.sensorSample r) s = .next t ∧ (s.sensed r).changesOnly t [.log, .adk, .evq] :=
  ⟨_, congrArg Host.Outcome.next (if_neg (by simp [hon, hdue])), State.foldl_limits_changesOnly _ _ _ _⟩

theorem State.spareCmd_programs {s : State} (hmap : mapValid s.spareEntries = true) (hroom : s.pkg.spareSlots.length < 4) :
    s.spareCmd 1 = ({ s with
      pkg := { s.pkg with spareSlots := s.pkg.spareSlots ++ [(s.spareEntries, mapCrc s.spareEntries)] }
      glb := { s.glb with spareRes := stOk } }, stOk) := by
  unfold State.spareCmd
  simp [hmap, hroom]

theorem State.spareCmd_full {s : State} (hfull : 4 ≤ s.pkg.spareSlots.length) :
    s.spareCmd 1 = ({ s with glb := { s.glb with spareRes := stDenied } }, stDenied) := by
  unfold State.spareCmd
  simp [Nat.not_lt_of_le hfull]

theorem State.makerModeWr_denied {s : State} {v : BitVec 64} (hst : s.mod.state ≠ .test) (hmode : bits v.toNat 7 0 ≠ 0) :
    s.makerModeWr v = (s, stDenied) := if_pos (.inr ⟨.inr hmode, hst⟩)

theorem State.makerModeWr_none {s : State} (h : s.glb.makerMode = 0) :
    s.makerModeWr 0 = ({ s with glb := { s.glb with makerTgt := 0, makerMode := 0, makerErrs := 0, makerLock := false } }, stOk) := by
  unfold State.makerModeWr
  simp [bits, h]

/-- The registers of a maker mode that a write sets. -/
def Global.maker (g : Global) (v : BitVec 64) : Global :=
  { g with
    makerTgt := BitVec.ofNat 8 (bits v.toNat 15 8), makerMode := BitVec.ofNat 8 (bits v.toNat 7 0), makerErrs := 0
    makerLock := false }

/-- In TEST a mode takes hold of its port: the registers change, and the port goes down. -/
theorem State.makerModeWr_takes {s : State} {v : BitVec 64} (hst : s.mod.state = .test)
    (hmode : bits v.toNat 7 0 = 1 ∨ bits v.toNat 7 0 = 2) (hnone : s.glb.makerMode = 0) (hp : s.plainPort (bits v.toNat 15 8)) :
    ∃ u : State, s.makerModeWr v = (u.portDown (bits v.toNat 15 8) 4, stOk) ∧ u.glb = s.glb.maker v ∧ s.changesOnly u [.glb] := by
  have hp' : ({ s with glb := s.glb.maker v } : State).bundled (bits v.toNat 15 8) = false :=
    State.plainPort.bundled (s := { s with glb := s.glb.maker v }) hp
  have h0 : bits v.toNat 7 0 ≠ 0 := by omega
  refine ⟨{ s with glb := s.glb.maker v }, ?_, rfl, (only_refl s _).glb (by decide) _⟩
  unfold State.makerModeWr
  refine (if_neg (by simp only [hst]; simp; omega)).trans ?_
  dsimp only [Global.maker] at hp' ⊢
  rw [hnone, if_neg h0, hp']
  rfl

/-- Settles O10: the equations of the rows, and `State.atPort.portDown_training` for the port under test. -/
theorem powerCapAndSensors : Obligations.PowerCapAndSensors := by
  unfold Obligations.PowerCapAndSensors
  refine ⟨?first, ?second, ?sensor, ?spare, ?spareFull, ?maker, ?makerDenied, ?makerNone⟩
  case first =>
    intro s w halive hw hc
    obtain ⟨hcap, havg, hat, hps⟩ := State.capTo_spec { s with glb := { s.glb with avgW := w, coolFrom := none } } 1
    exact ⟨_, exec_powerCapCheck_first halive hw hc, hcap, havg, hat, ((only_refl s _).glb (by decide) _).trans hps⟩
  case second =>
    intro s w halive hw hc hlong
    obtain ⟨c, hexec⟩ := exec_powerCapCheck_second halive hw hc hlong
    obtain ⟨hcap, havg, hat, hps⟩ := State.capTo_spec { s with glb := { s.glb with avgW := w, coolFrom := c } } 2
    exact ⟨_, hexec, hcap, havg, hat, ((only_refl s _).glb (by decide) _).trans hps⟩
  case sensor =>
    intro s r hon hdue
    obtain ⟨t, ht, hps⟩ := exec_sensorSample (r := r) hon hdue
    have hmod : t.mod = (s.sensed r).mod := hps .mod (by decide)
    refine ⟨t, ht, ?_⟩
    rw [hmod]
    exact ⟨rfl, rfl, rfl, rfl, rfl, rfl,
      (s.sensed_changesOnly r).trans (hps.mono (by decide))⟩
  case spare =>
    intro s tag hw hmap hroom
    have hset := State.spareCmd_programs (s := s.adkTaken (wrFrame tag (glbAddr 0x120) 1)) hmap hroom
    have hps := State.spareCmd_only _ 1 (only_refl (s.adkTaken (wrFrame tag (glbAddr 0x120) 1)) [.pkg, .glb, .adk]) (by decide)
    rw [hset] at hps
    exact ⟨_, State.adkWr_eq hw hset, State.adkReply_responded _ _ _ _ _, rfl, rfl,
      State.adkReply_changesOnly hps (by decide) _ _ _⟩
  case spareFull =>
    intro s tag hw hfull
    exact ⟨_, State.adkWr_eq hw (State.spareCmd_full (s := s.adkTaken _) hfull), State.adkReply_responded _ _ _ _ _,
      rfl, rfl, State.adkReply_changesOnly ((only_refl _ _).glb (by decide) _) (by decide) _ _ _⟩
  case maker =>
    intro s tag v hw hst hmode hnone hp htrain
    obtain ⟨u, hset, hreg, hps⟩ :=
      State.makerModeWr_takes (s := s.adkTaken (wrFrame tag (glbAddr 0x130) v)) hst hmode hnone hp
    have hu : s.changesOnly u [.glb, .adk] := ((s.adkTaken_link _).mono (by decide)).trans (hps.mono (by decide))
    have htrain' : (u.link (bits v.toNat 15 8)).state = .training := by
      rw [((State.atPort.refl s (bits v.toNat 15 8) _).of_only hu (List.Subset.refl _) (by decide)).link, htrain]
    have hdown := (State.atPort.refl u (bits v.toNat 15 8) [.ports]).portDown_training
      (hp.of_only hu (by decide) (by decide)) (List.Subset.refl _) (cause := 4) htrain' (by decide)
    have hglb : (u.portDown (bits v.toNat 15 8) 4).glb = s.glb.maker v := (hdown.only .glb (by decide)).trans hreg
    have htgt : (s.glb.maker v).makerTgt.toNat = bits v.toNat 15 8 :=
      (BitVec.toNat_ofNat _ _).trans (Nat.mod_eq_of_lt (bits_lt v.toNat 15 8))
    have hmode' : (s.glb.maker v).makerMode.toNat = bits v.toNat 7 0 :=
      (BitVec.toNat_ofNat _ _).trans (Nat.mod_eq_of_lt (bits_lt v.toNat 7 0))
    have hreply := (hdown.mono (qs := [.glb, .ports, .adk]) (by decide)).of_only (State.adkReply_link _
      (wrFrame tag (glbAddr 0x130) v) stOk (wrFrame tag (glbAddr 0x130) v).addr []) (by decide) (by decide)
    refine ⟨_, State.adkWr_eq hw hset, State.adkReply_responded _ _ _ _ _, ?_, ?_, ?_, ?_, ?_, ?_⟩
    · rw [State.adkReply_glb, hglb, hmode']
    · rw [State.adkReply_glb, hglb, htgt]
    · rw [hreply.link]
      rfl
    · rw [hreply.link]
      rfl
    · exact ((State.atPort.refl s _ _).of_only hu (List.Subset.refl _) (by decide)).others.trans hreply.others
    · exact (hu.mono (by decide)).trans hreply.only
  case makerDenied =>
    intro s tag v hw hst hmode
    exact ⟨_, State.adkWr_eq hw (State.makerModeWr_denied (s := s.adkTaken _) hst hmode), State.adkReply_responded _ _ _ _ _,
      State.adkReply_changesOnly (only_refl _ _) (by decide) _ _ _⟩
  case makerNone =>
    intro s tag hw hnone
    exact ⟨_, State.adkWr_eq hw (State.makerModeWr_none (s := s.adkTaken _) hnone), State.adkReply_responded _ _ _ _ _,
      rfl, rfl, rfl, State.adkReply_changesOnly ((only_refl _ _).glb (by decide) _) (by decide) _ _ _⟩

end Sys2Proof.Machine
end

section
/-! SUPPORT. The link layer of a port of its own: training, INIT, link control words, replay and frames that the link discards
(R50 to R69). -/

namespace Sys2Proof.Machine

/-! ### Credits by virtual channel -/

/-- A table of credits holds the credits of each of the eight virtual channels. -/
theorem read_creditTable (f : Nat → Nat) {v : Nat} (hv : v < 8) : Table.read 0 (creditTable f) v = BitVec.ofNat 16 (f v) := by
  simp only [creditTable, List.range, List.range.loop, List.foldl_cons, List.foldl_nil, Table.read_write]
  interval_cases v <;> rfl

theorem read_lcwTable (w : Lcw) {v : Nat} (hv : v < 8) : Table.read 0 (lcwTable w) v = w.credits.getD v 0 := by
  rw [lcwTable, read_creditTable _ hv, BitVec.ofNat_toNat, BitVec.setWidth_eq]

theorem State.plainPort.advertises {s : State} {p : Nat} (hp : s.plainPort p) (v : Nat) :
    s.advertises p v = advertised (s.link p).cls v := by
  rw [State.advertises, hp.members, List.length_singleton, Nat.mul_one]

/-! ### Signal, training and INIT (R53 to R57) -/

theorem exec_signalPresent {s : State} {port : BitVec 8} (halive : s.alive = true) :
    exec (.signalPresent port) s =
      .next ((s.onLink port.toNat (fun l => { l with signal := true })).train port.toNat) :=
  congrArg Host.Outcome.next (if_pos halive)

theorem exec_trainingComplete {s : State} {port : BitVec 8} (hp : s.plainPort port.toNat)
    (hst : (s.link port.toNat).state = .training) : exec (.trainingComplete port) s = .next (s.enterInit port.toNat) := by
  refine congrArg Host.Outcome.next ((if_neg (by simp [hp.alive])).trans ?_)
  rw [hp.bundled]
  exact if_pos hst

/-- The link of a port that has entered INIT and sent its INIT word. -/
def Link.inited (l : Link) (w : Lcw) : Link :=
  { l with
    state := .init, again := true, credBack := [], credFreed := [], credUsed := [], credSpent := [], preSpent := []
    lcwOut := w, owedAck := none }

theorem State.atPort.sendLcw {s t : State} {b : Nat} {l : Link} {ps : List Part} (h : s.atPort t b l ps) (hm : [Part.ports] ⊆ ps)
    (typ : BitVec 4) : s.atPort (t.sendLcw b typ) b { l with lcwOut := t.lcwOf b typ, owedAck := none } ps :=
  h.onLink hm (fun l => { l with lcwOut := t.lcwOf b typ, owedAck := none })

/-- A port of its own that enters INIT sends the credits that its class advertises. -/
theorem State.enterInit_plain {s : State} {b : Nat} (hp : s.plainPort b) : ∃ w : Lcw, w.typ = 2
    ∧ (∀ v, v < 8 → w.credits[v]? = some (BitVec.ofNat 16 (advertised (s.link b).cls v)))
    ∧ s.atPort (s.enterInit b) b ((s.link b).inited w) [.ports] := by
  have h := (State.atPort.refl s b [.ports]).onLink (List.Subset.refl _) (fun l => { l with
    state := .init, again := true, credBack := [], credFreed := [], credUsed := [], credSpent := [], preSpent := [] })
  refine ⟨_, ?_, ?_, h.sendLcw (List.Subset.refl _) 2⟩
  · rfl
  · intro v hv
    simp [State.lcwOf, Lcw.sealed, hv, (h.plain hp (by decide) rfl rfl).advertises]

theorem exec_trainingAttemptTimeout {s : State} {port : BitVec 8} (hp : s.plainPort port.toNat)
    (hst : (s.link port.toNat).state = .training) (hdue : (s.link port.toNat).trainAt + 100 * msT ≤ s.now) :
    exec (.trainingAttemptTimeout port) s =
      .next ((s.onLink port.toNat (fun l => { l with state := .down })).train port.toNat) := by
  refine congrArg Host.Outcome.next ((if_pos ?_).trans ?_)
  · simp [hp.bundled, hp.alive, hst, hdue]
  · simp only [hp.bundled, hp.base, hst, Bool.false_eq_true, if_false, Bool.not_false, Bool.true_or, and_self, if_true]

/-- A HELLO names what the port is configured to be, the module, and the FT at which it is sent. -/
theorem State.atPort.helloFrame {s t : State} {b : Nat} {l : Link} (h : s.atPort t b l [.ports])
    (hcls : l.cls = (s.link b).cls) (hsize : l.bundleSize = (s.link b).bundleSize) (hus : l.helloUs = (s.link b).helloUs) :
    t.helloFrame b = s.helloFrame b := by
  have hglb : t.glb = s.glb := h.only .glb (by decide)
  have hcomp : t.comp = s.comp := h.only .comp (by decide)
  have hnow : t.now = s.now := h.now (by decide)
  simp only [State.helloFrame, h.link, hcls, hsize, hus, hglb, hcomp, hnow, State.selfUnit]

theorem State.atPort.sendHello {s t : State} {b : Nat} {l : Link} {ps : List Part} (h : s.atPort t b l ps)
    (hm : [Part.ports] ⊆ ps) : s.atPort (t.sendHello b) b
      { l with helloSent := true, helloTxAt := t.now, nonceTx := some (l.nonceTx.getD t.now) } ps :=
  (h.onTc hm _).onLink hm _

theorem State.sendHello_vc6 (s : State) (b : Nat) :
    ((s.sendHello b).port b).tc.vc6 = (s.port b).tc.vc6 ++ [s.helloFrame b] := by
  unfold State.sendHello
  rw [State.tc_onLink, State.tc_onTc_same]

/-- What the link holds of its peer's acknowledgement leaves the rest of it as it was. -/
theorem Link.acked_config (l : Link) (w : Lcw) (now : FT) : (l.acked w now).cls = l.cls ∧ (l.acked w now).bundleOff = l.bundleOff
    ∧ (l.acked w now).bundleSize = l.bundleSize ∧ (l.acked w now).helloUs = l.helloUs ∧ (l.acked w now).peerCred = l.peerCred
    ∧ (l.acked w now).state = l.state := by
  unfold Link.acked
  split
  · exact ⟨rfl, rfl, rfl, rfl, rfl, rfl⟩
  · split <;> exact ⟨rfl, rfl, rfl, rfl, rfl, rfl⟩

/-- A word whose LCRC fails does nothing. -/
theorem exec_lcwInit_bad {s : State} {port : BitVec 8} {w : Lcw} (h : w.good = false) : exec (.lcwInit port w) s = .next s :=
  congrArg Host.Outcome.next (if_pos (by simp [h]))

/-- The link of a port that has taken the INIT word of its peer and enters HELLO. -/
def Link.greeted (l : Link) (w : Lcw) (now : FT) : Link :=
  let l := l.acked w now
  { l with
    state := .hello, helloRxAt := now, helloSent := false, peerHelloUs := none, credSpent := creditTable l.replayCost
    preSpent := creditTable l.replayCost, nonceTx := none, nonceRx := none
    sentNum := (l.replay.filter (fun e => e.2.vc != 6)).length, gotNum := 0 }

theorem exec_lcwInit_enough {s : State} {port : BitVec 8} {w : Lcw} (hp : s.plainPort port.toNat)
    (hst : (s.link port.toNat).state = .init) (htyp : w.typ = 2) (hgood : w.good = true)
    (hcred : creditsEnough (s.link port.toNat).cls w = true) :
    exec (.lcwInit port w) s = .next
      (((s.onLink port.toNat (fun l => { l with peerCred := lcwTable w })).onLink port.toNat
        (fun l => l.greeted w s.now)).sendHello port.toNat) := by
  refine congrArg Host.Outcome.next ((if_neg (by simp [hp.alive, hgood, htyp])).trans ?_)
  rw [hp.bundled, hp.base]
  refine (if_neg (by simp)).trans ((if_neg (by simp [hst])).trans ?_)
  dsimp only
  rw [State.link_onLink_same]
  exact if_neg (by simp [hcred])

theorem exec_lcwInit_short {s : State} {port : BitVec 8} {w : Lcw} (hp : s.plainPort port.toNat)
    (hst : (s.link port.toNat).state = .init) (htyp : w.typ = 2) (hgood : w.good = true)
    (hcred : creditsEnough (s.link port.toNat).cls w = false) :
    exec (.lcwInit port w) s = .next
      ((s.onLink port.toNat (fun l => { l with peerCred := lcwTable w })).event 0x48 3 (srcP port.toNat) 0) := by
  refine congrArg Host.Outcome.next ((if_neg (by simp [hp.alive, hgood, htyp])).trans ?_)
  rw [hp.bundled, hp.base]
  refine (if_neg (by simp)).trans ((if_neg (by simp [hst])).trans ?_)
  dsimp only
  rw [State.link_onLink_same]
  exact if_pos (by simp [hcred])

theorem exec_lossOfSignal_lock {s : State} {port : BitVec 8} (hp : s.plainPort port.toNat)
    (hst : (s.link port.toNat).state ≠ .down) : exec (.lossOfSignal port true) s = .next (s.relink port.toNat 1) := by
  refine congrArg Host.Outcome.next ((if_neg (by simp [hp.alive])).trans ?_)
  rw [hp.bundled]
  exact if_neg hst

theorem exec_lossOfSignal_signal {s : State} {port : BitVec 8} (hp : s.plainPort port.toNat) :
    exec (.lossOfSignal port false) s =
      .next ((s.onLink port.toNat (fun l => { l with signal := false })).portDown port.toNat 1) := by
  have hb : (s.onLink port.toNat (fun l => { l with signal := false })).bundled port.toNat = false :=
    (((State.atPort.refl s port.toNat [.ports]).onLink (List.Subset.refl _) _).plain hp (by decide) rfl rfl).bundled
  refine congrArg Host.Outcome.next ((if_neg (by simp [hp.alive])).trans ?_)
  dsimp only
  rw [hb]
  rfl

/-- Settles O11: each row's equation, with the link of the port carried through it by `State.atPort`. -/
theorem linkTrains : Obligations.LinkTrains := by
  unfold Obligations.LinkTrains
  refine ⟨?signal, ?complete, ?again, ?enough, ?short, fun s port w h => exec_lcwInit_bad h, ?lock, ?lost⟩
  case signal =>
    intro s port hp hen hst
    have h := (State.atPort.refl s port.toNat [.ports]).onLink (List.Subset.refl _) (fun l => { l with signal := true })
    have hp' := h.plain hp (by decide) rfl rfl
    have ht := h.train hp' (List.Subset.refl _) ((h.enabled hp hp' (by decide) (by decide) rfl).trans hen) rfl hst
    refine ⟨_, exec_signalPresent hp.alive, ?_, ?_, ?_, ?_, ht.others, ht.only⟩ <;> rw [ht.link] <;> rfl
  case complete =>
    intro s port hp hst
    obtain ⟨w, htyp, hcred, hi⟩ := State.enterInit_plain hp
    refine ⟨_, exec_trainingComplete hp hst, ?_, ?_, ?_, ?_, hi.others, hi.only⟩ <;> rw [hi.link]
    · rfl
    · exact htyp
    · exact hcred
    · rfl
  case again =>
    intro s port hp hen hst hsig hdue
    have h := (State.atPort.refl s port.toNat [.ports]).onLink (List.Subset.refl _) (fun l => { l with state := .down })
    have hp' := h.plain hp (by decide) rfl rfl
    have ht := h.train hp' (List.Subset.refl _) ((h.enabled hp hp' (by decide) (by decide) rfl).trans hen) hsig rfl
    refine ⟨_, exec_trainingAttemptTimeout hp hst hdue, ?_, ?_, ht.others, ht.only⟩ <;> rw [ht.link] <;> rfl
  case enough =>
    intro s port w hp hst htyp hgood hcred
    have h := ((State.atPort.refl s port.toNat [.ports]).onLink (List.Subset.refl _)
      (fun l => { l with peerCred := lcwTable w })).onLink (List.Subset.refl _) (fun l => l.greeted w s.now)
    obtain ⟨hcls, -, hsize, hus, hpeer, -⟩ := Link.acked_config { s.link port.toNat with peerCred := lcwTable w } w s.now
    have hs := h.sendHello (List.Subset.refl _)
    refine ⟨_, exec_lcwInit_enough hp hst htyp hgood hcred, ?_, ?_, ?_, ?_, fun v hv => ?_, ?_, hs.others, hs.only⟩
    · rw [hs.link]; rfl
    · rw [hs.link]
    · rw [hs.link]; rfl
    · rw [hs.link]; rfl
    · rw [hs.link]
      exact (congrArg (Table.read 0 · v) hpeer).trans (read_lcwTable w hv)
    · rw [State.sendHello_vc6, h.helloFrame hcls hsize hus, State.tc_onLink, State.tc_onLink]
  case short =>
    intro s port w hp hst htyp hgood hcred hmask hlost hroom
    have h := (State.atPort.refl s port.toNat [.ports, .evq]).onLink (by decide) (fun l => { l with peerCred := lcwTable w })
    have hev := State.event_of_room (s := s.onLink port.toNat (fun l => { l with peerCred := lcwTable w })) (code := 0x48)
      3 (srcP port.toNat) 0 0xFFFFFFFF hmask hlost hroom
    have hexec := (exec_lcwInit_short hp hst htyp hgood hcred).trans (congrArg Host.Outcome.next hev)
    refine ⟨_, hexec, ?_, rfl, h.others, h.only.evq (by decide) _⟩
    exact (congrArg Link.state h.link).trans hst
  case lock =>
    intro s port hp hen hst hsig
    have h := (State.atPort.refl s port.toNat [.ports, .log, .evq, .adk]).relink hp (by decide) (cause := 1) (by rw [hst]; decide)
      (by rw [hst]; simp) (.inl (by decide))
    rw [if_pos ⟨hen, hsig⟩] at h
    refine ⟨_, exec_lossOfSignal_lock hp (by rw [hst]; decide), ?_, ?_, ?_, h.others, h.only⟩ <;> rw [h.link] <;> rfl
  case lost =>
    intro s port hp hst
    have h := (State.atPort.refl s port.toNat [.ports, .log, .evq, .adk]).onLink (by decide) (fun l => { l with signal := false })
    have hd := h.portDown (h.plain hp (by decide) rfl rfl) (by decide) (cause := 1) (by rw [hst]; decide)
      (by rw [hst]; simp) (.inl (by decide))
    refine ⟨_, exec_lossOfSignal_signal hp, ?_, ?_, ?_, ?_, hd.others, hd.only⟩ <;> rw [hd.link] <;> rfl

end Sys2Proof.Machine
end

section
/-! SUPPORT. Link control words, replay and discarded frames on a port of its own (R54 to R69). -/

namespace Sys2Proof.Machine

theorem Link.acked_of_found {l : Link} {w : Lcw} {now : FT} {i : Nat} (hv : w.ackV = true)
    (hi : l.replay.findIdx? (fun e => e.1 == w.ackSeq) = some i) :
    l.acked w now = { l with replay := l.replay.drop (i + 1), ackAt := now, replays := 0 } := by
  simp only [Link.acked, hv, hi, Bool.not_true, Bool.false_eq_true, if_false]

theorem Link.acked_of_not {l : Link} {w : Lcw} {now : FT} (hv : w.ackV = false) : l.acked w now = l :=
  if_pos (by simp [hv])

theorem State.onLcw_atPort (s : State) (b : Nat) (w : Lcw) {ps : List Part} (hm : [Part.ports] ⊆ ps) :
    s.atPort (s.onLcw b w) b { (s.link b).acked w s.now with credBack := lcwTable w } ps :=
  (State.atPort.refl s b ps).onLink hm (fun l => { l.acked w s.now with credBack := lcwTable w })

theorem exec_lcwNormal {s : State} {port : BitVec 8} {w : Lcw} (hp : s.plainPort port.toNat)
    (hfl : (s.link port.toNat).state.flows = true) (htyp : w.typ = 0) (hgood : w.good = true) :
    exec (.lcwNormal port w) s = .next (s.onLcw port.toNat w) := by
  refine congrArg Host.Outcome.next ((if_pos ?_).trans ?_)
  · simp [hp.base, hp.alive, hp.isMember, hfl, htyp, hgood]
  · rw [hp.base]

theorem exec_lcwNormal_bad {s : State} {port : BitVec 8} {w : Lcw} (h : w.good = false) : exec (.lcwNormal port w) s = .next s :=
  congrArg Host.Outcome.next (if_neg (by simp [h]))

theorem exec_lcwNak {s : State} {port : BitVec 8} {w : Lcw} (hp : s.plainPort port.toNat)
    (hfl : (s.link port.toNat).state.flows = true) (htyp : w.typ = 1) (hgood : w.good = true) :
    exec (.lcwNak port w) s = .next ((s.onLcw port.toNat w).replayFrames port.toNat) := by
  refine congrArg Host.Outcome.next ((if_pos ?_).trans ?_)
  · simp [hp.base, hp.alive, hp.isMember, hfl, htyp, hgood]
  · rw [hp.base]

theorem exec_lcwNak_bad {s : State} {port : BitVec 8} {w : Lcw} (h : w.good = false) : exec (.lcwNak port w) s = .next s :=
  congrArg Host.Outcome.next (if_neg (by simp [h]))

theorem exec_replayTimeout {s : State} {port : BitVec 8} (hp : s.plainPort port.toNat)
    (hfl : (s.link port.toNat).state.flows = true) (hre : (s.link port.toNat).replay ≠ [])
    (hdue : (s.link port.toNat).ackAt + 2 * usT ≤ s.now) :
    exec (.replayTimeout port) s = .next (s.replayFrames port.toNat) := by
  refine congrArg Host.Outcome.next ((if_pos ?_).trans ?_)
  · simp [hp.base, hp.alive, hfl, hre, hdue]
  · rw [hp.base]

/-- The link of a port that replays the frames it holds. -/
def Link.replayed (l : Link) (now : FT) : Link := { l.counted 1 1 with replays := l.replays + 1, ackAt := now }

/-- Frames that are not acknowledged are replayed, and the replay is counted. -/
theorem State.atPort.replayFrames {s t : State} {b : Nat} {l : Link} {ps : List Part} (h : s.atPort t b l ps)
    (hm : [Part.ports, Part.adk, Part.evq] ⊆ ps) (hre : l.replay ≠ []) (hn : l.replays < 8) :
    s.atPort (t.replayFrames b) b (l.replayed t.now) ps := by
  have hcount := (h.countPrt hm 1 1)
  have hnow : (t.countPrt b 1).now = t.now := State.now_of_only (t.countPrt_changesOnly b 1 1) (by decide)
  have hlink := hcount.onLink (List.Subset.trans (by decide) hm)
    (fun x => { x with replays := x.replays + 1, ackAt := (t.countPrt b 1).now })
  rw [hnow] at hlink
  unfold State.replayFrames
  rw [h.link]
  refine Eq.mpr (congrArg (fun u => s.atPort u b (l.replayed t.now) ps) ((if_neg (by simp [hre])).trans (if_neg (by omega)))) ?_
  exact hlink

/-- After eight replays without an acknowledgement the port trains again instead. -/
theorem State.replayFrames_eighth {s : State} {b : Nat} (hre : (s.link b).replay ≠ []) (hn : 8 ≤ (s.link b).replays) :
    s.replayFrames b = s.relink b 2 :=
  (if_neg (by simp [hre])).trans (if_pos hn)

theorem exec_lcwSendTimer {s : State} {port : BitVec 8} {since : FT} (hp : s.plainPort port.toNat)
    (hfl : (s.link port.toNat).state.flows = true) (howed : (s.link port.toNat).owedAck = some since)
    (hdue : since + 200 * nsT ≤ s.now) : exec (.lcwSendTimer port) s = .next (s.sendLcw port.toNat 0) := by
  show execLcwSendTimer port s = _
  unfold execLcwSendTimer
  simp only [hp.base, howed, hp.alive, hfl, hdue]
  rfl

/-! ### Frames that the link rejects or discards (R55, R61, R66, R69) -/

/-- The first frame rejected since the last good one asks for a replay. -/
theorem exec_frameLinkReject_nak {s : State} {port : BitVec 8} {frame : Frame} {lseq : BitVec 12} {crc : BitVec 32} {fec : Bool}
    (hp : s.plainPort port.toNat) (hfl : (s.link port.toNat).state.flows = true) (hnak : (s.link port.toNat).nakSent = false)
    (hbad : (fec || crc != frame.linkCrc lseq) = true ∨ lseq ≠ (s.link port.toNat).rxSeq) :
    exec (.frameLinkReject port frame lseq crc fec) s = .next
      (((if (fec || crc != frame.linkCrc lseq) = true then s.countPrt port.toNat 0 else s).onLink port.toNat
        (fun l => { l with nakSent := true })).sendLcw port.toNat 1) := by
  have hnak' : ((if (fec || crc != frame.linkCrc lseq) = true then s.countPrt port.toNat 0 else s).link port.toNat).nakSent
      = false := by
    split
    · rw [State.countPrt_link]
      exact hnak
    · exact hnak
  show execFrameLinkReject port frame lseq crc fec s = _
  unfold execFrameLinkReject
  have hout : ((!(fec || crc != frame.linkCrc lseq)) && lseq == (s.link port.toNat).rxSeq) = false := by
    rcases hbad with h | h
    · simp only [h, Bool.not_true, Bool.false_and]
    · simp only [beq_eq_false_iff_ne.2 h, Bool.and_false]
  dsimp only
  rw [hp.base]
  refine congrArg Host.Outcome.next ((if_neg ?_).trans (if_neg (by rw [hnak']; decide)))
  rw [hout, hp.alive, hfl, hp.isMember]
  decide

/-- A frame that is no reject, and one out of sequence after a NAK, change nothing. -/
theorem exec_frameLinkReject_none {s : State} {port : BitVec 8} {frame : Frame} {lseq : BitVec 12} {crc : BitVec 32}
    (hp : s.plainPort port.toNat) (hcrc : crc = frame.linkCrc lseq)
    (h : (s.link port.toNat).nakSent = true ∨ lseq = (s.link port.toNat).rxSeq) :
    exec (.frameLinkReject port frame lseq crc false) s = .next s := by
  show execFrameLinkReject port frame lseq crc false s = _
  unfold execFrameLinkReject
  simp only [hp.base, hcrc, bne_self_eq_false, Bool.or_false, Bool.false_eq_true, if_false, Bool.not_false, Bool.true_and]
  split
  · rfl
  · rename_i hno
    rcases h with h | h
    · rw [if_pos h]
    · exact absurd (by simp [h]) hno

/-- The link of a port that has accepted a frame of a virtual channel at a cost in credits (R61). -/
def Link.accepted (l : Link) (vc : BitVec 3) (cost : Nat) (now : FT) : Link :=
  let add := fun (t : Table (BitVec 16)) => Table.write 0 t vc.toNat (Table.read 0 t vc.toNat + BitVec.ofNat 16 cost)
  { l with
    rxSeq := l.rxSeq + 1, rxAny := true, nakSent := false, owedAck := some (l.owedAck.getD now)
    credUsed := add l.credUsed, credFreed := add l.credFreed, gotNum := if vc = 6 then l.gotNum else l.gotNum + 1 }

theorem State.lcwOf_typ (s : State) (b : Nat) (typ : BitVec 4) : (s.lcwOf b typ).typ = typ := rfl

theorem State.lcwOf_ackV (s : State) (b : Nat) (typ : BitVec 4) : (s.lcwOf b typ).ackV = (s.link b).rxAny := rfl

theorem State.lcwOf_ackSeq (s : State) (b : Nat) (typ : BitVec 4) : (s.lcwOf b typ).ackSeq = (s.link b).rxSeq - 1 := rfl

/-- A frame within the credits of a port of its own is accepted. -/
theorem State.linkAccept_plain {s : State} {p : Nat} {vc : BitVec 3} {cost : Nat} (hp : s.plainPort p)
    (hcls : (s.link p).cls ≠ 3) (hfl : (s.link p).state.flows = true)
    (hcred : (s.link p).outstanding vc.toNat + cost ≤ s.advertises p vc.toNat) :
    s.linkAccept p vc cost = (s.onLink p (fun l => l.accepted vc cost s.now), true) := by
  unfold State.linkAccept
  dsimp only
  rw [hp.base]
  refine (if_neg ?_).trans (if_neg (by omega))
  rw [hp.alive, hfl, hp.isMember, beq_eq_false_iff_ne.2 hcls]
  decide

/-- A frame in order whose HCRC fails is accepted by the link and counted; the entry is made once in a millisecond. -/
theorem exec_hcrcDiscard {s : State} {port : BitVec 8} {frame : Frame} {hcrc : BitVec 16} (hp : s.plainPort port.toNat)
    (hcls : (s.link port.toNat).cls ≠ 3) (hfl : (s.link port.toNat).state.flows = true) (hne : hcrc ≠ frame.hcrc)
    (hcred : (s.link port.toNat).outstanding frame.vc.toNat + creditCost frame ≤ s.advertises port.toNat frame.vc.toNat) :
    exec (.hcrcDiscard port frame hcrc) s = .next (
      let t := (s.onLink port.toNat (fun l => l.accepted frame.vc (creditCost frame) s.now)).countPrt port.toNat 2
      if (t.link port.toNat).hcrcMs = some (s.now / msT) then t
      else (t.onLink port.toNat (fun l => { l with hcrcMs := some (s.now / msT) })).logE 0x09 0 (srcP port.toNat) 0 true) := by
  have hnow : ∀ t : State, t = (s.onLink port.toNat (fun l => l.accepted frame.vc (creditCost frame) s.now)).countPrt port.toNat 2 →
      t.now = s.now := fun t ht => ht ▸ (((State.atPort.refl s port.toNat [.ports, .evq, .adk]).onLink (by decide) _).countPrt
    (by decide) 2 1).now (by decide)
  show execHcrcDiscard port frame hcrc s = _
  unfold execHcrcDiscard
  simp only [hp.base, if_neg hne, State.linkAccept_plain hp hcls hfl hcred, hnow _ rfl]
  rfl

/-- Settles O12: each row's equation, with the link of the port carried through it by `State.atPort`. -/
theorem linkCreditsAndReplay : Obligations.LinkCreditsAndReplay := by
  unfold Obligations.LinkCreditsAndReplay
  refine ⟨?normal, ?nak, ?timeout, ?eighth, ?ack, fun s port w h => exec_lcwNormal_bad h, fun s port w h => exec_lcwNak_bad h,
    ?coding, ?order, ?none, ?hcrc⟩
  case normal =>
    intro s port w i hp hfl htyp hgood hv hi
    have h := State.onLcw_atPort s port.toNat w (List.Subset.refl _)
    rw [Link.acked_of_found hv hi] at h
    refine ⟨_, exec_lcwNormal hp hfl htyp hgood, ?_, ?_, ?_, fun v hcv => ?_, ?_, h.others, h.only⟩ <;> rw [h.link]
    exact read_lcwTable w hcv
  case nak =>
    intro s port w hp hfl htyp hgood hv hre hn
    have h := State.onLcw_atPort s port.toNat w (ps := [.ports, .evq, .adk]) (by decide)
    rw [Link.acked_of_not hv] at h
    have hr := h.replayFrames (by decide) hre hn
    refine ⟨_, exec_lcwNak hp hfl htyp hgood, ?_, ?_, ?_, ?_, hr.others, hr.only⟩ <;> rw [hr.link] <;> rfl
  case timeout =>
    intro s port hp hfl hre hn hdue
    have hr := (State.atPort.refl s port.toNat [.ports, .evq, .adk]).replayFrames (by decide) hre hn
    refine ⟨_, exec_replayTimeout hp hfl hre hdue, ?_, ?_, ?_, ?_, hr.others, hr.only⟩ <;> rw [hr.link] <;> rfl
  case eighth =>
    intro s port hp hst hsig hen hre hn hdue
    have h := (State.atPort.refl s port.toNat [.ports, .log, .evq, .adk]).relink hp (by decide) (cause := 2) (by rw [hst]; decide)
      (by rw [hst]; simp) (.inl (by decide))
    rw [if_pos ⟨hen, hsig⟩] at h
    refine ⟨_, (exec_replayTimeout hp (by rw [hst]; rfl) hre hdue).trans
      (congrArg Host.Outcome.next (State.replayFrames_eighth hre hn)), ?_, ?_, ?_, h.others, h.only⟩ <;> rw [h.link] <;> rfl
  case ack =>
    intro s port since hp hfl howed hdue
    have h := (State.atPort.refl s port.toNat [.ports]).sendLcw (List.Subset.refl _) 0
    refine ⟨_, exec_lcwSendTimer hp hfl howed hdue, ?_, ?_, ?_, ?_, fun v hv => ?_, h.others, h.only⟩ <;> rw [h.link]
    · rfl
    · rfl
    · rfl
    · simp [State.lcwOf, Lcw.sealed, hv]
  case coding =>
    intro s port frame lseq crc fec hp hfl hnak hbad
    have hbad' : (fec || crc != frame.linkCrc lseq) = true := by
      rcases hbad with h | h <;> simp [h]
    have h := (((State.atPort.refl s port.toNat [.ports, .evq, .adk]).countPrt (by decide) 0 1).onLink (by decide)
      (fun l => { l with nakSent := true }))
    have hl := h.sendLcw (by decide) 1
    have hexec := exec_frameLinkReject_nak hp hfl hnak (.inl hbad')
    rw [if_pos hbad'] at hexec
    refine ⟨_, hexec, ?_, ?_, ?_, ?_, ?_, hl.others, hl.only⟩ <;> rw [hl.link]
    · exact State.lcwOf_typ ..
    · exact (State.lcwOf_ackSeq ..).trans (by rw [h.link]; rfl)
    · rfl
    · rfl
  case order =>
    intro s port frame lseq crc fec hp hfl hnak hfec hcrc hseq
    have hgood : (fec || crc != frame.linkCrc lseq) = false := by simp [hfec, hcrc]
    have h := ((State.atPort.refl s port.toNat [.ports]).onLink (by decide) (fun l => { l with nakSent := true }))
    have hl := h.sendLcw (by decide) 1
    have hexec := exec_frameLinkReject_nak (fec := fec) (crc := crc) (frame := frame) hp hfl hnak (.inr hseq)
    rw [if_neg (by simp [hgood])] at hexec
    refine ⟨_, hexec, ?_, ?_, ?_, ?_, ?_, hl.others, hl.only⟩ <;> rw [hl.link]
    · exact State.lcwOf_typ ..
    · exact (State.lcwOf_ackSeq ..).trans (by rw [h.link])
  case none =>
    intro s port frame lseq crc fec hp hfl hfec hcrc h
    rw [hfec]
    exact exec_frameLinkReject_none hp hcrc h
  case hcrc =>
    intro s port frame hcrc hp hcls hfl hne hcred
    have h := ((State.atPort.refl s port.toNat [.ports, .log, .evq, .adk]).onLink (by decide)
      (fun l => l.accepted frame.vc (creditCost frame) s.now)).countPrt (by decide) 2 1
    refine ⟨_, exec_hcrcDiscard hp hcls hfl hne hcred, ?_⟩
    dsimp only
    split
    · refine ⟨?_, ?_, ?_, h.others, h.only⟩ <;> rw [h.link]
      · rfl
      · rfl
      · exact Table.read_write_same (0 : BitVec 16) _ _ _
    · have hl := (h.onLink (by decide) (fun l => { l with hcrcMs := some (s.now / msT) })).logE (by decide) 0x09 0
        (srcP port.toNat) 0 true
      refine ⟨?_, ?_, ?_, hl.others, hl.only⟩ <;> rw [hl.link]
      · rfl
      · rfl
      · exact Table.read_write_same (0 : BitVec 16) _ _ _

end Sys2Proof.Machine
end

section
/-! SUPPORT. What peers do at a port (R81 to R86). -/

namespace Sys2Proof.Machine

set_option Elab.async false

/-- The state to which a command leads; the state itself where it leads to none. -/
def State.after (s : State) (c : Instr) : State :=
  match exec c s with
  | .next t => t
  | _ => s

theorem State.after_eq {s t : State} {c : Instr} (h : exec c s = .next t) : s.after c = t := by
  unfold State.after
  rw [h]

/-- A running module whose S port 3 has been out of OPEN for longer than the target limit, while a request to a tray still waits for
one of the port's tags. -/
def trayWaits : State :=
  let s := State.reset
  let s := ({ s with
    mod := { s.mod with state := .service }
    tim := { s.tim with ft := 10 ^ 12 }
    tier := { s.tier with reqs := [{ tray := 3, tag := 0, op := .descriptor, timer := 0, held := some { opcode := 0 } }] } } : State)
  s.onLink 3 (fun l => { l with cls := 2 })

/-- Once the target is dead the tag of the port is free, and the request takes it. -/
theorem trayWaits_takes_tag : (trayWaits.after (.targetLimitExpiry 3)).tier ≠ trayWaits.tier := by
  decide +kernel

/-- Refutes O13: the target of an S port dies at its limit while nothing of `State.quiet` is under way, yet a request to a tray waits
for a tag of that port; the tag becomes free, the request is sent, and the tier changes, which the statement excludes. -/
theorem not_peersMeet : ¬ Obligations.PeersMeet := by
  unfold Obligations.PeersMeet
  rintro ⟨-, -, -, -, -, -, hlimit, -⟩
  obtain ⟨t, hexec, -, -, -, honly⟩ := hlimit trayWaits 3 (by decide +kernel) (by decide +kernel) (by decide +kernel)
    (by decide +kernel) (by decide +kernel) (by decide +kernel) (by decide +kernel) (by decide +kernel) (by decide +kernel)
    (by decide +kernel)
  have htier : t.tier = trayWaits.tier := honly .tier (by decide)
  exact trayWaits_takes_tag ((congrArg State.tier (State.after_eq hexec)).trans htier)

end Sys2Proof.Machine
end

section
/-! SUPPORT. A thread that issues: what the instruction meets, and what stays as it is beside its thread (R198 to R200, R224). -/

namespace Sys2Proof.Machine

/-! ### One thread changes -/

theorem State.threadOnly.refl (s : State) (k j : Nat) : s.threadOnly s k j :=
  ⟨only_refl s _, rfl, rfl, fun _ _ => rfl, fun _ _ => rfl, rfl, rfl, rfl, rfl, rfl⟩

theorem State.threadOnly.trans {s t u : State} {k j : Nat} (h : s.threadOnly t k j) (h' : t.threadOnly u k j) : s.threadOnly u k j := by
  obtain ⟨ho, hs, hm, hc, ht, hd, hl, he, hp, hf⟩ := h
  obtain ⟨ho', hs', hm', hc', ht', hd', hl', he', hp', hf'⟩ := h'
  exact ⟨ho.trans ho', hs'.trans hs, hm'.trans hm, fun x hx => (hc' x hx).trans (hc x hx), fun i hi => (ht' i hi).trans (ht i hi),
    hd'.trans hd, hl'.trans hl, he'.trans he, hp'.trans hp, hf'.trans hf⟩

theorem State.threadOnly.only {s t : State} {k j : Nat} (h : s.threadOnly t k j) : s.changesOnly t [.cpu] := h.1

theorem State.core_onThread_other (s : State) {k x : Nat} (t : Nat) (f : Thread → Thread) (h : x ≠ k) :
    (s.onThread k t f).core x = s.core x := State.core_onCore_other s _ h

theorem State.core_onThread_same (s : State) (k t : Nat) (f : Thread → Thread) :
    (s.onThread k t f).core k = { s.core k with threads := Table.write {} (s.core k).threads t (f (s.thread k t)) } :=
  State.core_onCore_same s _ _

theorem State.onThread_threadOnly (s : State) (k j : Nat) (f : Thread → Thread) : s.threadOnly (s.onThread k j f) k j := by
  refine ⟨State.onThread_only s k j f (only_refl s _) (List.Subset.refl _), rfl, rfl, fun x hx => s.core_onThread_other j f hx,
    fun i hi => s.thread_onThread_other f (fun h => hi h.2), ?_, ?_, ?_, ?_, ?_⟩
  all_goals rw [State.core_onThread_same]

/-- A change of a core beside its threads, its data, its engines and its completions. -/
theorem State.onCore_threadOnly (s : State) (k j : Nat) (f : Core → Core) (ht : (f (s.core k)).threads = (s.core k).threads)
    (hd : (f (s.core k)).dcache = (s.core k).dcache) (hl : (f (s.core k)).tiles = (s.core k).tiles)
    (he : (f (s.core k)).engines = (s.core k).engines) (hc : (f (s.core k)).comps = (s.core k).comps)
    (hf : (f (s.core k)).faultV = (s.core k).faultV) : s.threadOnly (s.onCore k f) k j := by
  refine ⟨State.onCore_only s k f (only_refl s _) (List.Subset.refl _), rfl, rfl, fun x hx => s.core_onCore_other f hx,
    fun i _ => ?_, ?_, ?_, ?_, ?_, ?_⟩
  · simp only [State.thread, State.core_onCore_same, ht]
  all_goals rw [State.core_onCore_same]; assumption

theorem State.thread_onCore (s : State) (k x i : Nat) (f : Core → Core) (ht : (f (s.core k)).threads = (s.core k).threads) :
    (s.onCore k f).thread x i = s.thread x i := by
  by_cases hx : x = k
  · subst hx
    simp only [State.thread, State.core_onCore_same, ht]
  · simp only [State.thread, State.core_onCore_other _ _ hx]

/-- From `s` to `t` thread `j` of core `k` comes to be `x`, and nothing else changes. -/
structure State.atThread (s t : State) (k j : Nat) (x : Thread) : Prop where
  thread : t.thread k j = x
  only : s.threadOnly t k j

theorem State.atThread.refl (s : State) (k j : Nat) : s.atThread s k j (s.thread k j) := ⟨rfl, State.threadOnly.refl s k j⟩

theorem State.atThread.onThread {s t : State} {k j : Nat} {x : Thread} (h : s.atThread t k j x) (f : Thread → Thread) :
    s.atThread (t.onThread k j f) k j (f x) :=
  ⟨by rw [State.thread_onThread_same, h.thread], h.only.trans (t.onThread_threadOnly k j f)⟩

theorem State.atThread.putReg {s t : State} {k j : Nat} {x : Thread} (h : s.atThread t k j x) (r : Nat) (v : BitVec 64) :
    s.atThread (t.putReg k j r v) k j (x.put r v) := h.onThread _

theorem State.atThread.park {s t : State} {k j : Nat} {x : Thread} (h : s.atThread t k j x) (g : ThreadState) (w : Wait) :
    s.atThread (t.park k j g w) k j { x with state := g, wait := w } := h.onThread _

theorem State.atThread.now {s t : State} {k j : Nat} {x : Thread} (h : s.atThread t k j x) : t.now = s.now :=
  State.now_of_only h.only.only (by decide)

theorem State.atThread.localBytes {s t : State} {k j : Nat} {x : Thread} (h : s.atThread t k j x) (c a n : Nat) :
    t.localBytes c a n = s.localBytes c a n := by
  obtain ⟨-, hspad, hcmem, -⟩ := h.only
  simp only [State.localBytes, hspad, hcmem]

theorem State.atThread.run {s t : State} {k j : Nat} {x : Thread} (h : s.atThread t k j x) : t.comp = s.comp :=
  h.only.only .comp (by decide)

theorem State.threadOnly.req {s t : State} {k j : Nat} (h : s.threadOnly t k j) : t.req = s.req := h.only .req (by decide)

/-! ### Registers -/

@[simp] theorem Thread.put_pc (x : Thread) (r : Nat) (v : BitVec 64) : (x.put r v).pc = x.pc := by
  unfold Thread.put; split <;> rfl

@[simp] theorem Thread.put_state (x : Thread) (r : Nat) (v : BitVec 64) : (x.put r v).state = x.state := by
  unfold Thread.put; split <;> rfl

@[simp] theorem Thread.put_statusCode (x : Thread) (r : Nat) (v : BitVec 64) : (x.put r v).statusCode = x.statusCode := by
  unfold Thread.put; split <;> rfl

@[simp] theorem Thread.put_statusTva (x : Thread) (r : Nat) (v : BitVec 64) : (x.put r v).statusTva = x.statusTva := by
  unfold Thread.put; split <;> rfl

/-- X0 reads 0 whatever was written to it. -/
theorem Thread.get_put_same (x : Thread) (r : Nat) (v : BitVec 64) : (x.put r v).get r = if r = 0 then 0 else v := by
  by_cases h : r = 0
  · simp [Thread.get, h]
  · simp [Thread.get, Thread.put, h]

theorem Thread.get_put_other (x : Thread) {r i : Nat} (v : BitVec 64) (h : i ≠ r) : (x.put r v).get i = x.get i := by
  unfold Thread.put
  split
  · rfl
  · simp only [Thread.get, Table.read_write_other _ _ _ h]

/-! ### Issue (R199, R200) -/

/-- The state that the instruction of an issuing thread meets: its program counter is 8 on, and it is the last to have issued. -/
def State.issued (s : State) (k j : Nat) : State :=
  (s.onThread k j (fun x => { x with pc := x.pc + 8 })).onCore k (fun c => { c with lastTid := j })

theorem State.issued_atThread (s : State) (k j : Nat) : s.atThread (s.issued k j) k j (s.advanced k j) := by
  have h := (State.atThread.refl s k j).onThread (fun x => { x with pc := x.pc + 8 })
  refine ⟨?_, h.only.trans (State.onCore_threadOnly _ k j _ rfl rfl rfl rfl rfl rfl)⟩
  exact (State.thread_onCore _ k k j _ rfl).trans h.thread

/-- The registers of a thread that issues are those of before. -/
theorem State.issued_get (s : State) (k j r : Nat) : ((s.issued k j).thread k j).get r = (s.thread k j).get r := by
  rw [(s.issued_atThread k j).thread]
  rfl

/-- A thread that issues, with room for the pool requests it sends, performs its instruction. -/
theorem State.issue_of_issues {s : State} {k j : Nat} {reads all : List Nat} {need : Nat} (h : s.issues k j all)
    (hr : ∀ r ∈ reads, r ∈ all) (hneed : need = 0 ∨ s.roomFor k j need) (body : State → State) :
    s.issue k j reads need body = .next (body (s.issued k j)) := by
  obtain ⟨hup, hst, hdis, hsec, hpend⟩ := h
  have hany : reads.any (fun r => r != 0 && (s.thread k j).pend.getLsbD r) = false := by
    rw [List.any_eq_false]
    intro r hmem
    rcases hpend r (hr r hmem) with h0 | h0 <;> simp [h0]
  unfold State.issue
  refine congrArg Host.Outcome.next ((if_neg ?_).trans ((if_neg ?_).trans ((if_neg ?_).trans (if_neg ?_))))
  · simp [hup, hst, hdis]
  · simp [hsec]
  · simp [hany]
  · rintro ⟨hne, hfull⟩
    obtain ⟨hm, hc⟩ := hneed.resolve_left hne
    omega

theorem State.issue_plain {s : State} {k j : Nat} {reads : List Nat} (h : s.issues k j reads) (body : State → State) :
    s.issue k j reads 0 body = .next (body (s.issued k j)) := State.issue_of_issues h (fun _ h => h) (.inl rfl) body

/-! ### Faults (R224) -/

theorem State.faultThread_only' (s : State) (k j cause : Nat) (pc : BitVec 64) :
    s.changesOnly (s.faultThread k j cause pc) [.cpu, .log, .evq, .adk] := by
  unfold State.faultThread
  exact State.logWith_only _ _ _ _ _ _ _ _ (State.onCore_only _ _ _ (State.onThread_only s k j _ (only_refl s _) (by decide))
    (by decide)) (by decide)

/-- A fault stops the thread, and its core records it where it holds no earlier one. -/
theorem State.faultThread_faultedAt {s t : State} {k j cause : Nat} {pc : BitVec 64} (hcause : cause < 256) (hj : j < 64)
    (hv : (t.core k).faultV = (s.core k).faultV) (hpc : pc = (s.thread k j).pc) : s.faultedAt (t.faultThread k j cause pc) k j cause := by
  have hcore : ∀ u : State, (u.logWith 0x59 cause (srcK k) (k + j * 2 ^ 16 + (pc.toNat % 2 ^ 32) * 2 ^ 32) 0x59 cause
      (k + j * 2 ^ 16 + (pc.toNat % 2 ^ 32) * 2 ^ 32)).core k = u.core k := fun u => by
    have hcpu := State.logWith_only u 0x59 cause (srcK k) (k + j * 2 ^ 16 + (pc.toNat % 2 ^ 32) * 2 ^ 32) 0x59 cause
      (k + j * 2 ^ 16 + (pc.toNat % 2 ^ 32) * 2 ^ 32) (only_refl u [.log, .adk, .evq]) (List.Subset.refl _) .cpu (by decide)
    exact congrArg (fun c : Compute => Table.read {} c.cores k) hcpu
  unfold State.faultThread State.faultedAt
  simp only [State.thread, hcore, State.core_onCore_same, State.core_onThread_same]
  by_cases hf : (t.core k).faultV = true
  · simp [hf, ← hv]
  · have hf' : (t.core k).faultV = false := by simpa using hf
    refine ⟨?_, ?_, ?_, fun _ => ⟨?_, ?_, ?_⟩⟩
    · simp [hf']
    · simp [hf']
    · simp [hf']
    · simp [hf', Nat.mod_eq_of_lt hcause]
    · simp [hf', Nat.mod_eq_of_lt hj]
    · simp [hf', hpc, State.thread]

/-- An instruction faults its thread at its own place. -/
theorem State.faultHere_issued (s : State) (k : Nat) (j : BitVec 6) {cause : Nat} (hcause : cause < 256) :
    s.faultedAt ((s.issued k j.toNat).faultHere k j.toNat cause) k j.toNat cause
      ∧ s.changesOnly ((s.issued k j.toNat).faultHere k j.toNat cause) [.cpu, .log, .evq, .adk] := by
  have h := s.issued_atThread k j.toNat
  have hfault : ((s.issued k j.toNat).core k).faultV = (s.core k).faultV := by
    obtain ⟨-, -, -, -, -, -, -, -, -, hf⟩ := h.only
    exact hf
  refine ⟨State.faultThread_faultedAt hcause j.isLt hfault ?_, (h.only.only.mono (by decide)).trans (State.faultThread_only' _ _ _ _ _)⟩
  rw [h.thread]
  exact BitVec.add_sub_cancel _ _

end Sys2Proof.Machine
end

section
/-! SUPPORT. Scalar instructions (Table 09-14). -/

namespace Sys2Proof.Machine

/-- What a scalar instruction owes: the thread that it leaves, and that nothing else changes. -/
theorem State.atThread.scalar {s t : State} {c : Instr} {k j : Nat} {x : Thread} (h : s.atThread t k j x) (hexec : exec c s = .next t) :
    ∃ t, exec c s = .next t ∧ t.thread k j = x ∧ s.threadOnly t k j := ⟨t, hexec, h.thread, h.only⟩

theorem exec_nop {s : State} {core : BitVec 10} {tid : BitVec 6} {ins : Ins} (h : s.issues core.toNat tid.toNat []) :
    exec (.nop core tid ins) s = .next (s.issued core.toNat tid.toNat) := State.issue_plain h id

theorem exec_alu {s : State} {core : BitVec 10} {tid : BitVec 6} {ins : Ins}
    (h : s.issues core.toNat tid.toNat [ins.xa.toNat, ins.xb.toNat]) :
    exec (.alu core tid ins) s = .next ((s.issued core.toNat tid.toNat).putReg core.toNat tid.toNat ins.xd.toNat
      (aluOp (bits ins.fn.toNat 3 0) ((s.thread core.toNat tid.toNat).get ins.xa.toNat) ((s.thread core.toNat tid.toNat).get ins.xb.toNat))) := by
  show execAlu core tid ins s = _
  unfold execAlu
  refine (State.issue_plain h _).trans ?_
  simp only [State.issued_get]

theorem exec_alui {s : State} {core : BitVec 10} {tid : BitVec 6} {ins : Ins} (h : s.issues core.toNat tid.toNat [ins.xa.toNat]) :
    exec (.alui core tid ins) s = .next ((s.issued core.toNat tid.toNat).putReg core.toNat tid.toNat ins.xd.toNat
      (aluOp (bits ins.fn.toNat 3 0) ((s.thread core.toNat tid.toNat).get ins.xa.toNat) (immOf ins))) := by
  show execAlui core tid ins s = _
  unfold execAlui
  refine (State.issue_plain h _).trans ?_
  simp only [State.issued_get]

theorem exec_movi {s : State} {core : BitVec 10} {tid : BitVec 6} {ins : Ins} (h : s.issues core.toNat tid.toNat []) :
    exec (.movi core tid ins) s = .next ((s.issued core.toNat tid.toNat).putReg core.toNat tid.toNat ins.xd.toNat (immOf ins)) := by
  show execMovi core tid ins s = _
  unfold execMovi
  exact State.issue_plain h _

theorem exec_movhi {s : State} {core : BitVec 10} {tid : BitVec 6} {ins : Ins} (h : s.issues core.toNat tid.toNat [ins.xd.toNat]) :
    exec (.movhi core tid ins) s = .next ((s.issued core.toNat tid.toNat).putReg core.toNat tid.toNat ins.xd.toNat
      (ins.imm ++ ((s.thread core.toNat tid.toNat).get ins.xd.toNat).setWidth 32)) := by
  show execMovhi core tid ins s = _
  unfold execMovhi
  refine (State.issue_plain h _).trans ?_
  simp only [State.issued_get]

/-- A branch of a condition that Table 09-14 lists. -/
theorem exec_br {s : State} {core : BitVec 10} {tid : BitVec 6} {ins : Ins}
    (h : s.issues core.toNat tid.toNat [ins.xa.toNat, ins.xb.toNat]) (hc : bits ins.fn.toNat 2 0 ≠ 7) :
    exec (.br core tid ins) s = .next (if brTaken (bits ins.fn.toNat 2 0) ((s.thread core.toNat tid.toNat).get ins.xa.toNat)
        ((s.thread core.toNat tid.toNat).get ins.xb.toNat) then
      (s.issued core.toNat tid.toNat).onThread core.toNat tid.toNat (fun x => { x with pc := x.pc - 8 + 8 * immOf ins })
      else s.issued core.toNat tid.toNat) := by
  show execBr core tid ins s = _
  unfold execBr
  refine (State.issue_of_issues h (fun r hr => ?_) (.inl rfl) _).trans ?_
  · split at hr
    · exact hr
    · exact absurd hr List.not_mem_nil
  · simp only [State.issued_get, if_neg hc]

theorem exec_jal {s : State} {core : BitVec 10} {tid : BitVec 6} {ins : Ins} (h : s.issues core.toNat tid.toNat [ins.xa.toNat]) :
    exec (.jal core tid ins) s = .next (((s.issued core.toNat tid.toNat).putReg core.toNat tid.toNat ins.xd.toNat
      (s.advanced core.toNat tid.toNat).pc).onThread core.toNat tid.toNat
        (fun x => { x with pc := (s.thread core.toNat tid.toNat).get ins.xa.toNat + immOf ins })) := by
  show execJal core tid ins s = _
  unfold execJal
  refine (State.issue_plain h _).trans ?_
  simp only [State.issued_get]
  rw [(s.issued_atThread core.toNat tid.toNat).thread]

/-- The special values of GETS other than STATUS, at a thread and its core. -/
def systemValue (s : State) (core : BitVec 10) (tid : BitVec 6) (sel : Nat) : BitVec 64 :=
  match sel with
  | 0 => BitVec.ofNat 64 tid.toNat | 1 => BitVec.ofNat 64 core.toNat | 2 => BitVec.ofNat 64 (core.toNat / 32)
  | 3 => BitVec.ofNat 64 (s.now / 16) | 4 => (s.core core.toNat).tenant.setWidth 64 | 5 => (s.core core.toNat).pvUnit.setWidth 64
  | 7 => BitVec.ofNat 64 (s.thread core.toNat tid.toNat).mcnt | 8 => BitVec.ofNat 64 (s.thread core.toNat tid.toNat).ecnt | _ => 0

/-- An issue leaves what a core is set to. -/
theorem State.issued_core (s : State) (k j : Nat) : ((s.issued k j).core k).tenant = (s.core k).tenant
    ∧ ((s.issued k j).core k).pvUnit = (s.core k).pvUnit := by
  simp only [State.issued, State.core_onCore_same, State.core_onThread_same, and_self]

theorem exec_gets {s : State} {core : BitVec 10} {tid : BitVec 6} {ins : Ins} (h : s.issues core.toNat tid.toNat [])
    (hsel : bits ins.imm.toNat 3 0 ≠ 6) :
    exec (.gets core tid ins) s = .next ((s.issued core.toNat tid.toNat).putReg core.toNat tid.toNat ins.xd.toNat
      (systemValue s core tid (bits ins.imm.toNat 3 0))) := by
  obtain ⟨htenant, hunit⟩ := s.issued_core core.toNat tid.toNat
  have hthread := s.issued_atThread core.toNat tid.toNat
  show execGets core tid ins s = _
  unfold execGets
  refine (State.issue_plain h _).trans (congrArg Host.Outcome.next ?_)
  dsimp only
  rw [if_neg hsel]
  refine congrArg (State.putReg _ _ _ _) ?_
  rw [hthread.now, htenant, hunit, hthread.thread]
  generalize bits ins.imm.toNat 3 0 = sel at hsel
  match sel, hsel with
  | 0, _ | 1, _ | 2, _ | 3, _ | 7, _ | 8, _ | _ + 9, _ => rfl
  | 4, _ | 5, _ => exact BitVec.eq_of_toNat_eq (by simp [systemValue])
  | 6, h6 => exact absurd rfl h6

theorem exec_gets_status {s : State} {core : BitVec 10} {tid : BitVec 6} {ins : Ins} (h : s.issues core.toNat tid.toNat [])
    (hsel : bits ins.imm.toNat 3 0 = 6) :
    exec (.gets core tid ins) s = .next (((s.issued core.toNat tid.toNat).onThread core.toNat tid.toNat
      (fun x => { x with statusCode := 0, statusTva := 0 })).putReg core.toNat tid.toNat ins.xd.toNat
      (BitVec.ofNat 64 ((s.thread core.toNat tid.toNat).statusCode.toNat + (s.thread core.toNat tid.toNat).statusTva.toNat * 256))) := by
  show execGets core tid ins s = _
  unfold execGets
  refine (State.issue_plain h _).trans (congrArg Host.Outcome.next ?_)
  dsimp only
  rw [if_pos hsel, hsel, (s.issued_atThread core.toNat tid.toNat).thread]
  rfl

/-! ### Functions of the ALU -/

theorem aluOp_mulh (a b : BitVec 64) : aluOp 9 a b = (a.zeroExtend 128 * b.zeroExtend 128).extractLsb' 64 64 := by
  apply BitVec.eq_of_toNat_eq
  have ha := a.isLt
  have hb := b.isLt
  have hab : a.toNat * b.toNat < 2 ^ 128 := by
    calc a.toNat * b.toNat < 2 ^ 64 * 2 ^ 64 := Nat.mul_lt_mul'' ha hb
      _ = 2 ^ 128 := by norm_num
  simp only [aluOp, BitVec.toNat_ofNat, BitVec.extractLsb'_toNat, BitVec.toNat_mul, BitVec.truncate_eq_setWidth, BitVec.toNat_setWidth,
    Nat.shiftRight_eq_div_pow]
  rw [Nat.mod_eq_of_lt (show a.toNat < 2 ^ 128 by omega), Nat.mod_eq_of_lt (show b.toNat < 2 ^ 128 by omega), Nat.mod_eq_of_lt hab]

/-- A shift by less than 64 is the shift of the register. -/
theorem aluOp_shift (a : BitVec 64) {n : Nat} (h : n < 64) : aluOp 5 a (BitVec.ofNat 64 n) = a <<< n
    ∧ aluOp 6 a (BitVec.ofNat 64 n) = a >>> n ∧ aluOp 7 a (BitVec.ofNat 64 n) = a.sshiftRight n := by
  have hn : (BitVec.ofNat 64 n).toNat = n := by simp; omega
  simp only [aluOp, hn, h, if_true, and_self]

/-- Settles O14: each row's equation, with the thread carried through it by `State.atThread`. -/
theorem scalarInstructions : Obligations.ScalarInstructions := by
  unfold Obligations.ScalarInstructions
  refine ⟨?nop, ?alu, ?alui, ?movi, ?movhi, ?br, ?jal, ?gets, ?status, fun a b => ?functions, fun a n h => aluOp_shift a h⟩
  case nop =>
    intro s core tid ins h
    exact (s.issued_atThread _ _).scalar (exec_nop h)
  case alu =>
    intro s core tid ins h
    exact ((s.issued_atThread _ _).putReg _ _).scalar (exec_alu h)
  case alui =>
    intro s core tid ins h
    exact ((s.issued_atThread _ _).putReg _ _).scalar (exec_alui h)
  case movi =>
    intro s core tid ins h
    exact ((s.issued_atThread _ _).putReg _ _).scalar (exec_movi h)
  case movhi =>
    intro s core tid ins h
    exact ((s.issued_atThread _ _).putReg _ _).scalar (exec_movhi h)
  case br =>
    intro s core tid ins h hc
    have hbr := exec_br h hc
    split at hbr <;> rename_i htaken
    · refine (((s.issued_atThread _ _).onThread _).scalar hbr).imp (fun t ht => ⟨ht.1, ht.2.1.trans ?_, ht.2.2⟩)
      rw [if_pos htaken]
      simp only [State.advanced, BitVec.add_sub_cancel, immOf]
    · refine ((s.issued_atThread _ _).scalar hbr).imp (fun t ht => ⟨ht.1, ht.2.1.trans ?_, ht.2.2⟩)
      rw [if_neg htaken]
      rfl
  case jal =>
    intro s core tid ins h
    exact (((s.issued_atThread _ _).putReg _ _).onThread _).scalar (exec_jal h)
  case gets =>
    intro s core tid ins h hsel
    exact ((s.issued_atThread _ _).putReg _ _).scalar (exec_gets h hsel)
  case status =>
    intro s core tid ins h hsel
    have hat := ((s.issued_atThread core.toNat tid.toNat).onThread (fun x => { x with statusCode := 0, statusTva := 0 })).putReg
      ins.xd.toNat (BitVec.ofNat 64 ((s.thread core.toNat tid.toNat).statusCode.toNat
        + (s.thread core.toNat tid.toNat).statusTva.toNat * 256))
    refine ⟨_, exec_gets_status h hsel, ?_, ?_, ?_, ?_, hat.only⟩ <;> rw [hat.thread]
    · rw [Thread.get_put_same]
      simp only [← BitVec.toNat_inj]
      rfl
    · rw [Thread.put_statusCode]
    · rw [Thread.put_statusTva]
    · rw [Thread.put_pc]
      rfl
  case functions =>
    refine ⟨rfl, rfl, rfl, rfl, rfl, rfl, aluOp_mulh a b, ?_, ?_, ?_, ?_, ?_, ?_⟩
    · simp only [aluOp, BitVec.slt, decide_eq_true_eq]
      split <;> omega
    · simp only [aluOp, BitVec.slt, decide_eq_true_eq]
      split <;> omega
    · simp only [aluOp, BitVec.ult, decide_eq_true_eq]
      split <;> omega
    · simp only [aluOp, BitVec.ult, decide_eq_true_eq]
      split <;> omega
    · simp only [aluOp, BitVec.slt, decide_eq_true_eq]
    · simp only [aluOp, BitVec.ult, decide_eq_true_eq]

end Sys2Proof.Machine
end

section
/-! SUPPORT. The local memory of a core and the threads that wait for a word of it (R201, R202, R222). -/

namespace Sys2Proof.Machine

/-! ### Waiting threads look at their words again -/

/-- Only the local memory decides whether a thread that waits for a word goes on. -/
theorem State.wakeWord_congr {s t : State} (hspad : t.cpu.spad = s.cpu.spad) (hcmem : t.cpu.cmem = s.cpu.cmem) (k : Nat) (x : Thread) :
    t.wakeWord k x = s.wakeWord k x := by
  have hnat : ∀ a, t.localNat k a 8 = s.localNat k a 8 := fun a => by
    simp only [State.localNat, State.localBytes, hspad, hcmem]
  simp only [State.wakeWord, hnat]

/-- A thread that is not in WAIT_SYNC stays as it is. -/
theorem State.wakeWord_of_not_waitSync (s : State) (k : Nat) {x : Thread} (h : x.state ≠ .waitSync) : s.wakeWord k x = x := by
  unfold State.wakeWord
  split
  · rw [if_neg (by simp [h])]
  · rfl

theorem State.wakeWord_of_not_word (s : State) (k : Nat) {x : Thread} (h : ∀ a old xd l, x.wait ≠ .word a old xd l) :
    s.wakeWord k x = x := by
  unfold State.wakeWord
  split
  · rename_i he
    exact absurd he (h _ _ _ _)
  · rfl

/-- The threads of one core that wait for a word look at it again. -/
def State.wakeCore (s : State) (k : Nat) : State :=
  if (s.core k).threads.any (fun e => match e.2.wait with | .word _ _ _ _ => true | _ => false) then
    s.onCore k (fun (c : Core) => { c with threads := Table.mapAll {} (fun _ t => s.wakeWord k t) c.threads })
  else s

theorem State.wakeWords_eq (s : State) (cl : Nat) : s.wakeWords cl = (List.range 8).foldl (fun s j => s.wakeCore (8 * cl + j)) s := rfl

theorem State.wakeCore_mem (s : State) (k : Nat) : (s.wakeCore k).cpu.spad = s.cpu.spad ∧ (s.wakeCore k).cpu.cmem = s.cpu.cmem := by
  unfold State.wakeCore
  split <;> exact ⟨rfl, rfl⟩

/-- A table that lists no entry of a kind reads none of that kind, unless its default is one. -/
theorem Table.read_of_all {α : Type} {d : α} {t : Table α} {p : α → Prop} (hd : p d) (ht : ∀ e ∈ t, p e.2) (k : Nat) :
    p (Table.read d t k) := by
  induction t with
  | nil => exact hd
  | cons e t ih =>
    obtain ⟨j, v⟩ := e
    unfold Table.read
    split
    · exact ht _ (.head _)
    · exact ih (fun e he => ht e (.tail _ he))

/-- An entry that is not listed reads as the default. -/
theorem Table.read_of_not_listed {α : Type} {d : α} {t : Table α} {k : Nat} (h : t.any (fun e => e.1 == k) = false) :
    Table.read d t k = d := by
  induction t with
  | nil => rfl
  | cons e t ih =>
    obtain ⟨j, v⟩ := e
    simp only [List.any_cons, Bool.or_eq_false_iff, beq_eq_false_iff_ne] at h
    unfold Table.read
    rw [if_neg (fun he => h.1 (by simpa using he.symm))]
    exact ih h.2

theorem State.thread_wakeCore (s : State) (k x i : Nat) :
    (s.wakeCore k).thread x i = if x = k then s.wakeWord k (s.thread k i) else s.thread x i := by
  unfold State.wakeCore
  split
  · rename_i hany
    split
    · rename_i hx
      subst hx
      simp only [State.thread, State.core_onCore_same, Table.read_mapAll]
      split
      · rfl
      · rename_i hlisted
        rw [Table.read_of_not_listed (Bool.eq_false_iff.2 hlisted)]
        rfl
    · rename_i hx
      simp only [State.thread, State.core_onCore_other _ _ hx]
  · rename_i hany
    split
    · rename_i hx
      subst hx
      refine (State.wakeWord_of_not_word s x ?_).symm
      refine Table.read_of_all (p := fun t : Thread => ∀ a old xd l, t.wait ≠ .word a old xd l) (by simp) (fun e he => ?_) i
      intro a old xd l hw
      exact hany (List.any_eq_true.2 ⟨e, he, by rw [hw]⟩)
    · rfl

theorem State.thread_foldl_wakeCore (cores : List Nat) (hnd : cores.Nodup) (s : State) (x i : Nat) :
    (cores.foldl State.wakeCore s).thread x i = if x ∈ cores then s.wakeWord x (s.thread x i) else s.thread x i := by
  induction cores generalizing s with
  | nil => simp
  | cons k ks ih =>
    obtain ⟨hk, hks⟩ := List.nodup_cons.1 hnd
    rw [List.foldl_cons, ih hks]
    obtain ⟨hspad, hcmem⟩ := s.wakeCore_mem k
    by_cases hx : x = k
    · subst hx
      simp [hk, State.thread_wakeCore]
    · simp only [State.thread_wakeCore, if_false, List.mem_cons, hx, false_or, State.wakeWord_congr hspad hcmem]

theorem State.foldl_wakeCore_mem (cores : List Nat) (s : State) :
    (cores.foldl State.wakeCore s).cpu.spad = s.cpu.spad ∧ (cores.foldl State.wakeCore s).cpu.cmem = s.cpu.cmem := by
  induction cores generalizing s with
  | nil => exact ⟨rfl, rfl⟩
  | cons k ks ih => exact ⟨(ih _).1.trans (s.wakeCore_mem k).1, (ih _).2.trans (s.wakeCore_mem k).2⟩

theorem State.wakeWords_eq_foldl (s : State) (cl : Nat) :
    s.wakeWords cl = ((List.range 8).map (8 * cl + ·)).foldl State.wakeCore s := by
  rw [State.wakeWords_eq, List.foldl_map]

/-- After the waiting threads of a cluster have looked, each of its threads is as it was or goes on. -/
theorem State.thread_wakeWords (s : State) (cl x i : Nat) :
    (s.wakeWords cl).thread x i = if clusterOf x = cl then s.wakeWord x (s.thread x i) else s.thread x i := by
  rw [State.wakeWords_eq_foldl, State.thread_foldl_wakeCore _ (List.Nodup.map (fun a b h => by simpa using h) List.nodup_range)]
  refine if_congr ?_ rfl rfl
  simp only [List.mem_map, List.mem_range, clusterOf]
  constructor
  · rintro ⟨j, hj, rfl⟩
    omega
  · rintro rfl
    exact ⟨x % 8, Nat.mod_lt _ (by decide), Nat.div_add_mod x 8⟩

theorem State.wakeWords_mem (s : State) (cl : Nat) :
    (s.wakeWords cl).cpu.spad = s.cpu.spad ∧ (s.wakeWords cl).cpu.cmem = s.cpu.cmem := by
  rw [State.wakeWords_eq_foldl]
  exact State.foldl_wakeCore_mem _ _

/-! ### Local writes -/

/-- The local memory after a write, before any thread has looked at it. -/
def State.localPut (s : State) (k a : Nat) (bs : List Byte) : State :=
  match localAt k a with
  | some (true, i) => { s with cpu := { s.cpu with cmem := s.cpu.cmem.write i bs } }
  | some (false, i) => { s with cpu := { s.cpu with spad := s.cpu.spad.write i bs } }
  | none => s

theorem State.localPut_cores (s : State) (k a : Nat) (bs : List Byte) : (s.localPut k a bs).cpu.cores = s.cpu.cores := by
  unfold State.localPut
  split <;> rfl

theorem State.thread_localPut (s : State) (k a : Nat) (bs : List Byte) (x i : Nat) : (s.localPut k a bs).thread x i = s.thread x i := by
  simp only [State.thread, State.core, State.localPut_cores]

theorem State.localWrite_eq {s : State} {k a : Nat} {bs : List Byte} (h : (localAt k a).isSome) :
    s.localWrite k a bs = (s.localPut k a bs).wakeWords (clusterOf k) := by
  unfold State.localWrite State.localPut
  match hl : localAt k a with
  | some (true, i) | some (false, i) => rfl
  | none => simp [hl] at h

theorem State.localWrite_none {s : State} {k a : Nat} {bs : List Byte} (h : localAt k a = none) : s.localWrite k a bs = s := by
  unfold State.localWrite
  rw [h]

/-- A write stores its bytes in the local memory of its core and no other byte of any. -/
theorem State.localWrite_localStored (s : State) (k a : Nat) (bs : List Byte) : s.localStored (s.localWrite k a bs) k a bs := by
  unfold State.localStored
  match hl : localAt k a with
  | none => exact ⟨by rw [State.localWrite_none hl], by rw [State.localWrite_none hl]⟩
  | some (true, i) =>
    obtain ⟨hspad, hcmem⟩ := (s.localPut k a bs).wakeWords_mem (clusterOf k)
    rw [State.localWrite_eq (by simp [hl]), hspad, hcmem]
    unfold State.localPut
    rw [hl]
    exact ⟨rfl, Memory.bytes_write _ _ _, fun y hy => Memory.byte_write_outside _ _ _ _ hy⟩
  | some (false, i) =>
    obtain ⟨hspad, hcmem⟩ := (s.localPut k a bs).wakeWords_mem (clusterOf k)
    rw [State.localWrite_eq (by simp [hl]), hspad, hcmem]
    unfold State.localPut
    rw [hl]
    exact ⟨rfl, Memory.bytes_write _ _ _, fun y hy => Memory.byte_write_outside _ _ _ _ hy⟩

/-- What was stored is read back. -/
theorem State.localBytes_localPut {s : State} {k a : Nat} {bs : List Byte} (h : (localAt k a).isSome) :
    (s.localPut k a bs).localBytes k a bs.length = bs := by
  unfold State.localBytes State.localPut
  match hl : localAt k a with
  | none => simp [hl] at h
  | some (true, i) => exact Memory.bytes_write _ _ _
  | some (false, i) => exact Memory.bytes_write _ _ _

/-- A thread that does not wait for a word is the same after a local write. -/
theorem State.thread_localWrite {s : State} (k a : Nat) (bs : List Byte) {x i : Nat}
    (h : (s.thread x i).state ≠ .waitSync ∨ ∀ b old xd l, (s.thread x i).wait ≠ .word b old xd l) :
    (s.localWrite k a bs).thread x i = s.thread x i := by
  match hl : localAt k a with
  | none => rw [State.localWrite_none hl]
  | some y =>
    rw [State.localWrite_eq (by simp [hl]), State.thread_wakeWords, State.thread_localPut]
    split
    · exact h.elim (State.wakeWord_of_not_waitSync _ _) (State.wakeWord_of_not_word _ _)
    · rfl

/-- A local access of at least one byte that is open lies in the local memory. -/
theorem localAt_of_localOk {c : List Section} {k a n : Nat} {w : Bool} (hn : n ≠ 0) (h : localOk c k a n w = true) :
    (localAt k a).isSome := by
  unfold localOk at h
  match hl : localAt k a with
  | none => simp [hl, hn] at h
  | some _ => rfl

/-- What was stored stays stored while only the threads change. -/
theorem State.localStored.congr {s t u v : State} {k a : Nat} {bs : List Byte} (h : s.localStored t k a bs)
    (hs : u.cpu.spad = s.cpu.spad) (hc : u.cpu.cmem = s.cpu.cmem) (hs' : v.cpu.spad = t.cpu.spad) (hc' : v.cpu.cmem = t.cpu.cmem) :
    u.localStored v k a bs := by
  unfold State.localStored at h ⊢
  rw [hs, hc, hs', hc']
  exact h

end Sys2Proof.Machine
end

section
/-! SUPPORT. Instructions on local memory (R201, R202). -/

namespace Sys2Proof.Machine

theorem State.issued_eaOf (s : State) (k j : Nat) (ins : Ins) : (s.issued k j).eaOf k j ins = s.eaOf k j ins := by
  simp only [State.eaOf, State.issued_get]

theorem State.issued_localBytes (s : State) (k j a n : Nat) : (s.issued k j).localBytes k a n = s.localBytes k a n :=
  (s.issued_atThread k j).localBytes k a n

theorem State.issued_localFault (s : State) (k j a n : Nat) (w al : Bool) : (s.issued k j).localFault k a n w al = s.localFault k a n w al := by
  simp only [State.localFault, (s.issued_atThread k j).run]

theorem State.localFault_open {s : State} {k a n : Nat} {w : Bool} (hok : localOk s.comp.run k a n w = true) (hn : 1 ≤ n)
    (hal : a % n = 0) : s.localFault k a n w true = 0 := by
  simp [State.localFault, hok, max_eq_right hn, hal]

theorem State.localFault_closed {s : State} {k a n : Nat} {w al : Bool} (hok : localOk s.comp.run k a n w = false) :
    s.localFault k a n w al = 2 := by
  simp [State.localFault, hok]

theorem State.localFault_misaligned {s : State} {k a n : Nat} {w : Bool} (hok : localOk s.comp.run k a n w = true) (hn : 1 ≤ n)
    (hal : a % n ≠ 0) : s.localFault k a n w true = 3 := by
  simp [State.localFault, hok, max_eq_right hn, hal]

@[simp] theorem leBytes_length (n v : Nat) : (leBytes n v).length = n := by
  induction n generalizing v with
  | zero => rfl
  | succ n ih => simp [leBytes, ih]

theorem State.localBytes_length (s : State) (k a n : Nat) : (s.localBytes k a n).length = n := by
  unfold State.localBytes
  split <;> simp [Memory.bytes, fill]

section

variable {s : State} {core : BitVec 10} {tid : BitVec 6} {ins : Ins}

/-- Bytes of an access whose size is a power of two. -/
abbrev localSize (i : Ins) : Nat := 2 ^ bits i.fn.toNat 1 0

theorem exec_ldl (h : s.issues core.toNat tid.toNat [ins.xa.toNat])
    (hok : localOk s.comp.run core.toNat (s.eaOf core.toNat tid.toNat ins) (localSize ins) false = true)
    (hal : s.eaOf core.toNat tid.toNat ins % (localSize ins) = 0) :
    exec (.ldl core tid ins) s = .next ((s.issued core.toNat tid.toNat).putReg core.toNat tid.toNat ins.xd.toNat
      (BitVec.ofNat 64 (leNat (s.localBytes core.toNat (s.eaOf core.toNat tid.toNat ins) (localSize ins))))) := by
  show execLdl core tid ins s = _
  unfold execLdl
  refine (State.issue_plain h _).trans ?_
  simp only [State.issued_eaOf, State.issued_localFault, State.localNat, State.issued_localBytes,
    State.localFault_open hok Nat.one_le_two_pow hal, ne_eq, not_true_eq_false, if_false]

theorem exec_ldl_closed (h : s.issues core.toNat tid.toNat [ins.xa.toNat])
    (hok : localOk s.comp.run core.toNat (s.eaOf core.toNat tid.toNat ins) (localSize ins) false = false) :
    exec (.ldl core tid ins) s = .next ((s.issued core.toNat tid.toNat).faultHere core.toNat tid.toNat 2) := by
  show execLdl core tid ins s = _
  unfold execLdl
  refine (State.issue_plain h _).trans ?_
  simp only [State.issued_eaOf, State.issued_localFault, State.localFault_closed hok, ne_eq, OfNat.ofNat_ne_zero, not_false_eq_true, if_true]

theorem exec_stl (h : s.issues core.toNat tid.toNat [ins.xa.toNat, ins.xb.toNat])
    (hok : localOk s.comp.run core.toNat (s.eaOf core.toNat tid.toNat ins) (localSize ins) true = true)
    (hal : s.eaOf core.toNat tid.toNat ins % (localSize ins) = 0) :
    exec (.stl core tid ins) s = .next ((s.issued core.toNat tid.toNat).localWrite core.toNat (s.eaOf core.toNat tid.toNat ins)
      (leBytes (localSize ins) ((s.thread core.toNat tid.toNat).get ins.xb.toNat).toNat)) := by
  show execStl core tid ins s = _
  unfold execStl
  refine (State.issue_plain h _).trans ?_
  simp only [State.issued_eaOf, State.issued_localFault, State.issued_get,
    State.localFault_open hok Nat.one_le_two_pow hal, ne_eq, not_true_eq_false, if_false]

theorem exec_stl_misaligned (h : s.issues core.toNat tid.toNat [ins.xa.toNat, ins.xb.toNat])
    (hok : localOk s.comp.run core.toNat (s.eaOf core.toNat tid.toNat ins) (localSize ins) true = true)
    (hal : s.eaOf core.toNat tid.toNat ins % (localSize ins) ≠ 0) :
    exec (.stl core tid ins) s = .next ((s.issued core.toNat tid.toNat).faultHere core.toNat tid.toNat 3) := by
  show execStl core tid ins s = _
  unfold execStl
  refine (State.issue_plain h _).trans ?_
  simp only [State.issued_eaOf, State.issued_localFault,
    State.localFault_misaligned hok Nat.one_le_two_pow hal, ne_eq, OfNat.ofNat_ne_zero, not_false_eq_true, if_true]

/-- Bytes of a local atomic. -/
abbrev localAtomicSize (i : Ins) : Nat := if i.fn.getLsbD 3 then 4 else 8

theorem one_le_localAtomicSize (i : Ins) : 1 ≤ localAtomicSize i := by
  unfold localAtomicSize
  split <;> decide

theorem exec_atl (h : s.issues core.toNat tid.toNat [ins.xa.toNat, ins.xb.toNat, ins.xd.toNat])
    (hok : localOk s.comp.run core.toNat (s.eaOf core.toNat tid.toNat ins) (localAtomicSize ins) true = true)
    (hal : s.eaOf core.toNat tid.toNat ins % (localAtomicSize ins) = 0) (hop : bits ins.fn.toNat 2 0 ≤ 4) :
    exec (.atl core tid ins) s = .next (((s.issued core.toNat tid.toNat).localWrite core.toNat (s.eaOf core.toNat tid.toNat ins)
      (leBytes (localAtomicSize ins) (atlNew (bits ins.fn.toNat 2 0) (8 * (localAtomicSize ins))
        (leNat (s.localBytes core.toNat (s.eaOf core.toNat tid.toNat ins) (localAtomicSize ins)))
        ((s.thread core.toNat tid.toNat).get ins.xb.toNat).toNat ((s.thread core.toNat tid.toNat).get ins.xd.toNat).toNat))).putReg
      core.toNat tid.toNat ins.xd.toNat
        (BitVec.ofNat 64 (leNat (s.localBytes core.toNat (s.eaOf core.toNat tid.toNat ins) (localAtomicSize ins))))) := by
  show execAtl core tid ins s = _
  unfold execAtl
  refine (State.issue_of_issues h (fun r hr => ?_) (.inl rfl) _).trans ?_
  · simp only [List.cons_append, List.nil_append, List.mem_cons] at hr ⊢
    rcases hr with hr | hr | hr
    · exact .inl hr
    · exact .inr (.inl hr)
    · split at hr
      · exact .inr (.inr (List.mem_cons.1 hr))
      · exact absurd hr List.not_mem_nil
  · simp only [State.issued_eaOf, State.issued_localFault, State.issued_get, State.localNat, State.issued_localBytes,
      State.localFault_open hok (one_le_localAtomicSize ins) hal, if_neg (Nat.not_lt.2 hop), ne_eq, not_true_eq_false, if_false]

theorem exec_copyl (h : s.issues core.toNat tid.toNat [ins.xa.toNat, ins.xb.toNat, ins.xd.toNat])
    (hsrc : localOk s.comp.run core.toNat (s.eaOf core.toNat tid.toNat ins)
      ((s.thread core.toNat tid.toNat).get ins.xb.toNat).toNat false = true)
    (hdst : localOk s.comp.run core.toNat ((s.thread core.toNat tid.toNat).get ins.xd.toNat).toNat
      ((s.thread core.toNat tid.toNat).get ins.xb.toNat).toNat true = true) :
    exec (.copyl core tid ins) s = .next ((s.issued core.toNat tid.toNat).park core.toNat tid.toNat .waitMem
      (.copy (s.eaOf core.toNat tid.toNat ins) ((s.thread core.toNat tid.toNat).get ins.xd.toNat).toNat
        ((s.thread core.toNat tid.toNat).get ins.xb.toNat).toNat)) := by
  show execCopyl core tid ins s = _
  unfold execCopyl
  refine (State.issue_plain h _).trans ?_
  simp only [State.issued_eaOf, State.issued_get, (s.issued_atThread core.toNat tid.toNat).run, hsrc, hdst, Bool.not_true,
    Bool.or_self, Bool.false_eq_true, if_false]

theorem exec_copylComplete {a d n : Nat} (hup : s.coreUp core.toNat = true)
    (hw : (s.thread core.toNat tid.toNat).wait = .copy a d n) :
    exec (.copylComplete core tid) s = .next ((s.localWrite core.toNat d (s.localBytes core.toNat a n)).park core.toNat tid.toNat
      .ready .none) := by
  show execCopylComplete core tid s = _
  unfold execCopylComplete
  rw [hw]
  simp only [hup, if_true]

end

theorem State.localWrite_changesOnly (s : State) (k a : Nat) (bs : List Byte) : s.changesOnly (s.localWrite k a bs) [.cpu] :=
  State.localWrite_only s k a bs (only_refl s _) (List.Subset.refl _)

/-- What the instruction of an issuing thread stores, and the thread that it leaves. -/
theorem State.issued_localWrite {s : State} {k j : Nat} (hst : (s.thread k j).state = .ready) (a : Nat) (bs : List Byte) :
    ((s.issued k j).localWrite k a bs).thread k j = s.advanced k j ∧ s.localStored ((s.issued k j).localWrite k a bs) k a bs
      ∧ s.changesOnly ((s.issued k j).localWrite k a bs) [.cpu] := by
  have h := s.issued_atThread k j
  obtain ⟨honly, hspad, hcmem, -⟩ := h.only
  have hready : ((s.issued k j).thread k j).state ≠ .waitSync := by
    rw [h.thread]
    exact fun hw => ThreadState.noConfusion (hst.symm.trans hw)
  exact ⟨(State.thread_localWrite k a bs (.inl hready)).trans h.thread,
    ((s.issued k j).localWrite_localStored k a bs).congr hspad.symm hcmem.symm rfl rfl,
    honly.trans (State.localWrite_changesOnly _ _ _ _)⟩

/-- Settles O15: each row's equation, with the local memory after a write from `State.localWrite_localStored`. -/
theorem localMemoryInstructions : Obligations.LocalMemoryInstructions := by
  unfold Obligations.LocalMemoryInstructions
  refine ⟨?ldl, ?stl, ?atl, fun old x cmp => ⟨rfl, rfl, rfl⟩, ?closed, ?misaligned, ?copyl, ?done⟩
  case ldl =>
    intro s core tid ins h hok hal
    have hat := (s.issued_atThread core.toNat tid.toNat).putReg ins.xd.toNat
      (BitVec.ofNat 64 (leNat (s.localBytes core.toNat (s.eaOf core.toNat tid.toNat ins) (localSize ins))))
    exact ⟨_, exec_ldl h hok hal, hat.thread, hat.only⟩
  case stl =>
    intro s core tid ins h hok hal
    obtain ⟨-, hst, -⟩ := id h
    obtain ⟨hthread, hstored, honly⟩ := State.issued_localWrite hst (s.eaOf core.toNat tid.toNat ins)
      (leBytes (localSize ins) ((s.thread core.toNat tid.toNat).get ins.xb.toNat).toNat)
    refine ⟨_, exec_stl h hok hal, ?_, ?_, hstored, honly⟩ <;> rw [hthread] <;> rfl
  case atl =>
    intro s core tid ins h hok hal hop
    obtain ⟨-, hst, -⟩ := id h
    obtain ⟨hthread, hstored, honly⟩ := State.issued_localWrite hst (s.eaOf core.toNat tid.toNat ins)
      (leBytes (localAtomicSize ins) (atlNew (bits ins.fn.toNat 2 0) (8 * (localAtomicSize ins))
        (leNat (s.localBytes core.toNat (s.eaOf core.toNat tid.toNat ins) (localAtomicSize ins)))
        ((s.thread core.toNat tid.toNat).get ins.xb.toNat).toNat ((s.thread core.toNat tid.toNat).get ins.xd.toNat).toNat))
    refine ⟨_, exec_atl h hok hal hop, ?_, fun i hi => ?_, ?_, hstored.congr rfl rfl rfl rfl,
      State.putReg_only _ _ _ _ _ honly (List.Subset.refl _)⟩ <;> rw [State.putReg, State.thread_onThread_same, hthread]
    · rw [Thread.put_pc]
      rfl
    · exact Thread.get_put_other _ _ hi
    · rw [Thread.get_put_same]
      simp only [← BitVec.toNat_inj]
      rfl
  case closed =>
    intro s core tid ins h hok
    exact ⟨_, exec_ldl_closed h hok, s.faultHere_issued core.toNat tid (by decide)⟩
  case misaligned =>
    intro s core tid ins h hok hal
    exact ⟨_, exec_stl_misaligned h hok hal, s.faultHere_issued core.toNat tid (by decide)⟩
  case copyl =>
    intro s core tid ins h hsrc hdst
    have hat := (s.issued_atThread core.toNat tid.toNat).park .waitMem (.copy (s.eaOf core.toNat tid.toNat ins)
      ((s.thread core.toNat tid.toNat).get ins.xd.toNat).toNat ((s.thread core.toNat tid.toNat).get ins.xb.toNat).toNat)
    exact ⟨_, exec_copyl h hsrc hdst, hat.thread, hat.only⟩
  case done =>
    intro s core tid a d n hup hw hst
    refine ⟨_, exec_copylComplete hup hw, ?_, ?_, (s.localWrite_localStored core.toNat d (s.localBytes core.toNat a n)).congr rfl rfl rfl rfl,
      State.onThread_only _ _ _ _ (State.localWrite_changesOnly _ _ _ _) (List.Subset.refl _)⟩ <;>
      rw [State.park, State.thread_onThread_same]

end Sys2Proof.Machine
end

section
/-! SUPPORT. Fences, barriers and waits of a thread (R199, R219, R222). -/

namespace Sys2Proof.Machine

section

variable {s : State} {core : BitVec 10} {tid : BitVec 6} {ins : Ins}

/-- A thread parks and looks at once at what it waits for. -/
def State.waitsFor (s : State) (k j : Nat) (g : ThreadState) (w : Wait) : State := (s.park k j g w).settleThread k j

theorem exec_coreFence (h : s.issues core.toNat tid.toNat []) : exec (.coreFence core tid ins) s =
    .next ((s.issued core.toNat tid.toNat).waitsFor core.toNat tid.toNat .waitMem (.fence s.req.nextN)) := by
  show execCoreFence core tid ins s = _
  unfold execCoreFence
  refine (State.issue_plain h _).trans ?_
  rw [(s.issued_atThread core.toNat tid.toNat).only.req]
  rfl

theorem exec_waite (h : s.issues core.toNat tid.toNat []) : exec (.waite core tid ins) s =
    .next ((s.issued core.toNat tid.toNat).waitsFor core.toNat tid.toNat .waitEng (.ecnt (bits ins.imm.toNat 4 0))) := by
  show execWaite core tid ins s = _
  unfold execWaite
  exact State.issue_plain h _

theorem exec_waitm (h : s.issues core.toNat tid.toNat []) : exec (.waitm core tid ins) s =
    .next ((s.issued core.toNat tid.toNat).waitsFor core.toNat tid.toNat .waitMem (.mcnt (bits ins.imm.toNat 6 0))) := by
  show execWaitm core tid ins s = _
  unfold execWaitm
  exact State.issue_plain h _

theorem exec_threadHalt (h : s.issues core.toNat tid.toNat []) (hm : (s.thread core.toNat tid.toNat).mcnt = 0) :
    exec (.threadHalt core tid ins) s =
      .next ((s.issued core.toNat tid.toNat).waitsFor core.toNat tid.toNat .waitEng .halt) := by
  show execThreadHalt core tid ins s = _
  unfold execThreadHalt
  refine (State.issue_plain h _).trans ?_
  have hm' : ((s.issued core.toNat tid.toNat).thread core.toNat tid.toNat).mcnt = 0 := by
    rw [(s.issued_atThread core.toNat tid.toNat).thread]
    exact hm
  rw [if_pos hm']
  rfl

theorem exec_acquire (h : s.issues core.toNat tid.toNat []) : exec (.acquire core tid ins) s =
    .next ((s.issued core.toNat tid.toNat).onCore core.toNat (fun c => { c with dcache := [], acquires := c.acquires + 1 })) := by
  show execAcquire core tid ins s = _
  unfold execAcquire
  exact State.issue_plain h _

/-- The word that a WAITL waits for differs already. -/
theorem exec_waitl_differs (h : s.issues core.toNat tid.toNat [ins.xa.toNat, ins.xb.toNat])
    (hok : localOk s.comp.run core.toNat (s.eaOf core.toNat tid.toNat ins) 8 false = true)
    (hal : s.eaOf core.toNat tid.toNat ins % 8 = 0)
    (hne : BitVec.ofNat 64 (leNat (s.localBytes core.toNat (s.eaOf core.toNat tid.toNat ins) 8))
      ≠ (s.thread core.toNat tid.toNat).get ins.xb.toNat) :
    exec (.waitl core tid ins) s = .next ((s.issued core.toNat tid.toNat).putReg core.toNat tid.toNat ins.xd.toNat 1) := by
  show execWaitl core tid ins s = _
  unfold execWaitl
  refine (State.issue_plain h _).trans ?_
  simp only [State.issued_eaOf, State.issued_localFault, State.issued_get, State.localNat, State.issued_localBytes,
    State.localFault_open hok (by decide) hal, ne_eq, not_true_eq_false, if_false]
  rw [if_pos hne]

theorem exec_waitl_same (h : s.issues core.toNat tid.toNat [ins.xa.toNat, ins.xb.toNat])
    (hok : localOk s.comp.run core.toNat (s.eaOf core.toNat tid.toNat ins) 8 false = true)
    (hal : s.eaOf core.toNat tid.toNat ins % 8 = 0)
    (heq : BitVec.ofNat 64 (leNat (s.localBytes core.toNat (s.eaOf core.toNat tid.toNat ins) 8))
      = (s.thread core.toNat tid.toNat).get ins.xb.toNat) :
    exec (.waitl core tid ins) s = .next ((s.issued core.toNat tid.toNat).park core.toNat tid.toNat .waitSync
      (.word (s.eaOf core.toNat tid.toNat ins) ((s.thread core.toNat tid.toNat).get ins.xb.toNat) ins.xd.toNat
        (if ins.fn = 0 then none else some (s.now + ins.fn.toNat * usT)))) := by
  show execWaitl core tid ins s = _
  unfold execWaitl
  refine (State.issue_plain h _).trans ?_
  simp only [State.issued_eaOf, State.issued_localFault, State.issued_get, State.localNat, State.issued_localBytes,
    State.localFault_open hok (by decide) hal, ne_eq, not_true_eq_false, if_false, (s.issued_atThread core.toNat tid.toNat).now]
  rw [if_neg (not_not.2 heq)]

theorem exec_waitlTimeout {a xd : Nat} {old : BitVec 64} {limit : FT} (hup : s.coreUp core.toNat = true)
    (hw : (s.thread core.toNat tid.toNat).wait = .word a old xd (some limit)) (hdue : limit ≤ s.now)
    (heq : BitVec.ofNat 64 (leNat (s.localBytes core.toNat a 8)) = old) :
    exec (.waitlTimeout core tid) s = .next ((s.park core.toNat tid.toNat .ready .none).putReg core.toNat tid.toNat xd 0) := by
  show execWaitlTimeout core tid s = _
  unfold execWaitlTimeout
  rw [hw]
  refine congrArg Host.Outcome.next ((if_pos (by simp [hup, hdue])).trans ?_)
  exact congrArg (State.putReg _ _ _ _) (if_neg (not_not.2 heq))

/-- The barrier of a BAR. -/
abbrev barKey (core : BitVec 10) (ins : Ins) : Nat := clusterOf core.toNat * 16 + bits ins.imm.toNat 3 0

/-- A barrier holds other threads than before. -/
def State.setBar (s : State) (key : Nat) (here : List Nat) : State :=
  { s with cpu := { s.cpu with barHere := Table.write [] s.cpu.barHere key here } }

theorem State.setBar_atThread {s t : State} {k j : Nat} {x : Thread} (h : s.atThread t k j x) (key : Nat) (here : List Nat) :
    s.atThread (t.setBar key here) k j x := by
  obtain ⟨hx, honly, hrest⟩ := h
  exact ⟨hx, honly.cpu (by decide) _, hrest⟩

theorem State.setBar_barHere (s : State) (key : Nat) (here : List Nat) :
    (s.setBar key here).cpu.barHere = Table.write [] s.cpu.barHere key here := rfl

theorem State.thread_setBar (s : State) (key : Nat) (here : List Nat) (k j : Nat) : (s.setBar key here).thread k j = s.thread k j := rfl

theorem State.thread_issued_other (s : State) {k j x i : Nat} (h : ¬ (x = k ∧ i = j)) : (s.issued k j).thread x i = s.thread x i :=
  (State.thread_onCore _ _ _ _ _ rfl).trans (State.thread_onThread_other _ _ h)

theorem State.issued_cpu (s : State) (k j : Nat) : (s.issued k j).cpu.barHere = s.cpu.barHere ∧ (s.issued k j).cpu.barNeed = s.cpu.barNeed :=
  ⟨rfl, rfl⟩

theorem exec_bar_waits (h : s.issues core.toNat tid.toNat [])
    (hlt : (Table.read [] s.cpu.barHere (barKey core ins)).length + 1 < Table.read 0 s.cpu.barNeed (barKey core ins)) :
    exec (.bar core tid ins) s = .next (((s.issued core.toNat tid.toNat).setBar (barKey core ins)
      (Table.read [] s.cpu.barHere (barKey core ins) ++ [64 * core.toNat + tid.toNat])).park core.toNat tid.toNat .waitSync
        (.bar (bits ins.imm.toNat 3 0))) := by
  show execBar core tid ins s = _
  unfold execBar
  refine (State.issue_plain h _).trans (congrArg Host.Outcome.next (if_pos ?_))
  rw [List.length_append]
  exact hlt

/-- A thread leaves a barrier, unless it has faulted there. -/
def State.release (s : State) (k j : Nat) : State := if (s.thread k j).state = .faulted then s else s.park k j .ready .none

theorem exec_bar_second {other : BitVec 10} {who : BitVec 6} (h : s.issues core.toNat tid.toNat [])
    (hhere : Table.read [] s.cpu.barHere (barKey core ins) = [64 * other.toNat + who.toNat])
    (hneed : Table.read 0 s.cpu.barNeed (barKey core ins) = 2) :
    exec (.bar core tid ins) s = .next ((((s.issued core.toNat tid.toNat).setBar (barKey core ins) []).release other.toNat
      who.toNat).release core.toNat tid.toNat) := by
  have hplace : ∀ (c : BitVec 10) (w : BitVec 6), (64 * c.toNat + w.toNat) / 64 = c.toNat ∧ (64 * c.toNat + w.toNat) % 64 = w.toNat :=
    fun c w => by have := w.isLt; omega
  show execBar core tid ins s = _
  unfold execBar
  refine (State.issue_plain h _).trans (congrArg Host.Outcome.next ?_)
  dsimp only
  simp only [(s.issued_cpu _ _).1, (s.issued_cpu _ _).2, hhere, hneed]
  refine (if_neg (by simp)).trans ?_
  simp only [List.cons_append, List.nil_append, List.foldl_cons, List.foldl_nil, (hplace _ _).1, (hplace _ _).2]
  rfl

theorem exec_br_illegal (h : s.issues core.toNat tid.toNat []) (hc : bits ins.fn.toNat 2 0 = 7) :
    exec (.br core tid ins) s = .next ((s.issued core.toNat tid.toNat).faultHere core.toNat tid.toNat 1) := by
  show execBr core tid ins s = _
  unfold execBr
  refine (State.issue_of_issues h (fun r hr => ?_) (.inl rfl) _).trans (congrArg Host.Outcome.next (if_pos hc))
  rwa [if_neg (by omega)] at hr

theorem exec_illegalInstruction {word : BitVec 64} (h : s.issues core.toNat tid.toNat []) (hw : illegalWord word = true) :
    exec (.illegalInstruction core tid word) s = .next ((s.issued core.toNat tid.toNat).faultHere core.toNat tid.toNat 1) := by
  show execIllegalInstruction core tid word s = _
  unfold execIllegalInstruction
  exact (State.issue_plain h _).trans (congrArg Host.Outcome.next (if_pos hw))

end

/-! ### What a thread waits for has come about, or not yet -/

section

variable {s t : State} {k j : Nat} {x : Thread}

theorem State.atThread.settle_fence (h : s.atThread t k j x) (hdis : x.discard = false) {n : Nat} (hx : x.state = .waitMem)
    (hw : x.wait = .fence n) :
    t.settleThread k j = if t.storesOut k j n then t else t.park k j .ready .none := by
  unfold State.settleThread
  simp only [h.thread, hdis, hx, hw, Bool.false_eq_true, false_and, if_false]

theorem State.atThread.settle_ecnt (h : s.atThread t k j x) (hdis : x.discard = false) {n : Nat} (hx : x.state = .waitEng)
    (hw : x.wait = .ecnt n) : t.settleThread k j = if x.ecnt ≤ n then t.park k j .ready .none else t := by
  unfold State.settleThread
  simp only [h.thread, hdis, hx, hw, Bool.false_eq_true, false_and, if_false]

theorem State.atThread.settle_mcnt (h : s.atThread t k j x) (hdis : x.discard = false) {n : Nat} (hx : x.state = .waitMem)
    (hw : x.wait = .mcnt n) : t.settleThread k j = if x.mcnt ≤ n then t.park k j .ready .none else t := by
  unfold State.settleThread
  simp only [h.thread, hdis, hx, hw, Bool.false_eq_true, false_and, if_false]

theorem State.atThread.settle_halt (h : s.atThread t k j x) (hdis : x.discard = false) (hx : x.state = .waitEng)
    (hw : x.wait = .halt) (hm : x.mcnt = 0) (he : x.ecnt = 0) : t.settleThread k j = t.park k j .idle .none := by
  unfold State.settleThread
  simp only [h.thread, hdis, hx, hw, hm, he, Bool.false_eq_true, false_and, if_false, and_self, if_true]

/-- Which stores are outstanding depends on no thread. -/
theorem State.threadOnly.storesOut (h : s.threadOnly t k j) (n : Nat) : t.storesOut k j n = s.storesOut k j n := by
  obtain ⟨-, -, -, -, -, -, -, hengines, hcomps, -⟩ := id h
  simp only [State.storesOut, h.req, State.engine, hengines, hcomps]

end

/-- A thread leaves a barrier ready where it has not faulted there. -/
theorem State.thread_release_same {s : State} {k j : Nat} (h : (s.thread k j).state ≠ .faulted) :
    ((s.release k j).thread k j).state = .ready ∧ ((s.release k j).thread k j).wait = .none := by
  rw [State.release, if_neg h, State.park, State.thread_onThread_same]
  exact ⟨rfl, rfl⟩

theorem State.thread_release_other {s : State} {k j x i : Nat} (h : ¬ (x = k ∧ i = j)) : (s.release k j).thread x i = s.thread x i := by
  unfold State.release
  split
  · rfl
  · exact State.thread_onThread_other _ _ h

theorem State.release_changesOnly (s : State) (k j : Nat) : s.changesOnly (s.release k j) [.cpu] := by
  unfold State.release
  split
  · exact only_refl s _
  · exact State.onThread_only s k j _ (only_refl s _) (List.Subset.refl _)

/-- After the second thread of a barrier of two has come, both are ready. -/
theorem State.release_release {s : State} {k j o w : Nat} (hme : (s.thread k j).state = .ready) (hother : (s.thread o w).state ≠ .faulted) :
    (((s.release o w).release k j).thread k j).state = .ready ∧ (((s.release o w).release k j).thread o w).state = .ready
      ∧ (((s.release o w).release k j).thread o w).wait = .none := by
  by_cases hsame : k = o ∧ j = w
  · obtain ⟨rfl, rfl⟩ := hsame
    have h1 := State.thread_release_same hother
    have h2 := State.thread_release_same (s := s.release k j) (k := k) (j := j) (by rw [h1.1]; decide)
    exact ⟨h2.1, h2⟩
  · have hready : ((s.release o w).thread k j).state ≠ .faulted := by
      rw [State.thread_release_other hsame, hme]
      decide
    refine ⟨(State.thread_release_same hready).1, ?_⟩
    rw [State.thread_release_other (x := o) (i := w) (fun h => hsame ⟨h.1.symm, h.2.symm⟩)]
    exact State.thread_release_same hother

/-- A word of eight bytes that differs from what a thread waits for lets it go on with 1. -/
theorem State.wakeWord_of_differs {s : State} {k a xd : Nat} {old : BitVec 64} {l : Option FT} {x : Thread} (hst : x.state = .waitSync)
    (hw : x.wait = .word a old xd l) (hne : BitVec.ofNat 64 (s.localNat k a 8) ≠ old) :
    s.wakeWord k x = ({ x with state := .ready, wait := .none } : Thread).put xd 1 := by
  simp only [State.wakeWord, hw, hst, BEq.rfl, Bool.true_and, bne_iff_ne, ne_eq, hne, not_false_eq_true, if_true]

theorem leNat_leBytes (n v : Nat) : leNat (leBytes n v) = v % 256 ^ n := by
  induction n generalizing v with
  | zero => simp [leNat, leBytes, Nat.mod_one]
  | succ n ih =>
    have h := Nat.mod_mul (x := v) (a := 256) (b := 256 ^ n)
    rw [pow_succ', h, leBytes, leNat, ih, BitVec.toNat_ofNat]

/-- Settles O16: each row's equation, with the thread carried through it by `State.atThread`, and what it waits for met or not. -/
theorem threadWaits : Obligations.ThreadWaits := by
  unfold Obligations.ThreadWaits
  refine ⟨?fence, ?fenceWaits, ?acquire, ?waite, ?waiteWaits, ?waitm, ?waitmWaits, ?halt, ?bar, ?second, ?differs, ?same, ?limit, ?wakes,
    ?brIllegal, ?illegal⟩
  case fence =>
    intro s core tid ins h hno
    obtain ⟨-, hst, hdis, -⟩ := id h
    have hpark := (s.issued_atThread core.toNat tid.toNat).park .waitMem (.fence s.req.nextN)
    have hdone := hpark.park .ready .none
    have hexec := exec_coreFence (ins := ins) h
    rw [State.waitsFor, hpark.settle_fence hdis rfl rfl, hpark.only.storesOut, if_neg (by simp [hno])] at hexec
    refine ⟨_, hexec, hdone.thread.trans ?_, hdone.only⟩
    simp only [State.advanced, hst]
  case fenceWaits =>
    intro s core tid ins h hout
    obtain ⟨-, -, hdis, -⟩ := id h
    have hpark := (s.issued_atThread core.toNat tid.toNat).park .waitMem (.fence s.req.nextN)
    have hexec := exec_coreFence (ins := ins) h
    rw [State.waitsFor, hpark.settle_fence hdis rfl rfl, hpark.only.storesOut, if_pos hout] at hexec
    refine ⟨_, hexec, ?_, ?_, ?_, hpark.only⟩ <;> rw [hpark.thread]
    rfl
  case acquire =>
    intro s core tid ins h
    have hat := s.issued_atThread core.toNat tid.toNat
    obtain ⟨honly, hspad, hcmem, -, -, -⟩ := hat.only
    refine ⟨_, exec_acquire h, (State.thread_onCore _ _ _ _ _ rfl).trans hat.thread, ?_, ?_, hspad, hcmem,
      State.onCore_only _ _ _ honly (List.Subset.refl _)⟩
    · rw [State.core_onCore_same]
    · rw [State.core_onCore_same]
      simp only [State.issued, State.core_onCore_same, State.core_onThread_same]
  case waite =>
    intro s core tid ins h hle
    obtain ⟨-, hst, hdis, -⟩ := id h
    have hpark := (s.issued_atThread core.toNat tid.toNat).park .waitEng (.ecnt (bits ins.imm.toNat 4 0))
    have hdone := hpark.park .ready .none
    have hexec := (exec_waite h).trans (congrArg Host.Outcome.next ((hpark.settle_ecnt hdis rfl rfl).trans (if_pos hle)))
    refine ⟨_, hexec, hdone.thread.trans ?_, hdone.only⟩
    simp only [State.advanced, hst]
  case waiteWaits =>
    intro s core tid ins h hlt
    obtain ⟨-, -, hdis, -⟩ := id h
    have hpark := (s.issued_atThread core.toNat tid.toNat).park .waitEng (.ecnt (bits ins.imm.toNat 4 0))
    have hexec := (exec_waite h).trans (congrArg Host.Outcome.next ((hpark.settle_ecnt hdis rfl rfl).trans (if_neg (Nat.not_le.2 hlt))))
    refine ⟨_, hexec, ?_, ?_, hpark.only⟩ <;> rw [hpark.thread]
  case waitm =>
    intro s core tid ins h hle
    obtain ⟨-, hst, hdis, -⟩ := id h
    have hpark := (s.issued_atThread core.toNat tid.toNat).park .waitMem (.mcnt (bits ins.imm.toNat 6 0))
    have hdone := hpark.park .ready .none
    have hexec := (exec_waitm h).trans (congrArg Host.Outcome.next ((hpark.settle_mcnt hdis rfl rfl).trans (if_pos hle)))
    refine ⟨_, hexec, hdone.thread.trans ?_, hdone.only⟩
    simp only [State.advanced, hst]
  case waitmWaits =>
    intro s core tid ins h hlt
    obtain ⟨-, -, hdis, -⟩ := id h
    have hpark := (s.issued_atThread core.toNat tid.toNat).park .waitMem (.mcnt (bits ins.imm.toNat 6 0))
    have hexec := (exec_waitm h).trans (congrArg Host.Outcome.next ((hpark.settle_mcnt hdis rfl rfl).trans (if_neg (Nat.not_le.2 hlt))))
    refine ⟨_, hexec, ?_, ?_, hpark.only⟩ <;> rw [hpark.thread]
  case halt =>
    intro s core tid ins h hm he
    obtain ⟨-, -, hdis, -⟩ := id h
    have hpark := (s.issued_atThread core.toNat tid.toNat).park .waitEng .halt
    have hdone := hpark.park .idle .none
    have hexec := exec_threadHalt (ins := ins) h hm
    rw [State.waitsFor, hpark.settle_halt hdis rfl rfl hm he] at hexec
    exact ⟨_, hexec, hdone.thread, hdone.only⟩
  case bar =>
    intro s core tid ins h hlt
    have hat := (State.setBar_atThread (s.issued_atThread core.toNat tid.toNat) (barKey core ins)
      (Table.read [] s.cpu.barHere (barKey core ins) ++ [64 * core.toNat + tid.toNat])).park .waitSync (.bar (bits ins.imm.toNat 3 0))
    refine ⟨_, exec_bar_waits h hlt, ?_, ?_, Table.read_write_same _ _ _ _, hat.only⟩ <;> rw [hat.thread]
    rfl
  case second =>
    intro s core tid ins other who h hhere hst hneed
    obtain ⟨-, hready, -⟩ := id h
    have hat := State.setBar_atThread (s.issued_atThread core.toNat tid.toNat) (barKey core ins) []
    have hme : (((s.issued core.toNat tid.toNat).setBar (barKey core ins) []).thread core.toNat tid.toNat).state = .ready := by
      rw [hat.thread]
      exact hready
    have hother : (((s.issued core.toNat tid.toNat).setBar (barKey core ins) []).thread other.toNat who.toNat).state ≠ .faulted := by
      by_cases hsame : other.toNat = core.toNat ∧ who.toNat = tid.toNat
      · rw [hsame.1, hsame.2, hme]
        decide
      · rw [State.thread_setBar, State.thread_issued_other _ hsame]
        exact hst
    obtain ⟨h1, h2, h3⟩ := State.release_release hme hother
    refine ⟨_, exec_bar_second h hhere hneed, h1, h2, h3, ?_, (hat.only.only.trans (State.release_changesOnly _ _ _)).trans
      (State.release_changesOnly _ _ _)⟩
    have hbar : ∀ (u : State) (k j : Nat), (u.release k j).cpu.barHere = u.cpu.barHere := fun u k j => by
      unfold State.release
      split <;> rfl
    rw [hbar, hbar, State.setBar_barHere, Table.read_write_same]
  case differs =>
    intro s core tid ins h hok hal hne
    have hat := (s.issued_atThread core.toNat tid.toNat).putReg ins.xd.toNat 1
    exact ⟨_, exec_waitl_differs h hok hal hne, hat.thread, hat.only⟩
  case same =>
    intro s core tid ins h hok hal heq
    have hat := (s.issued_atThread core.toNat tid.toNat).park .waitSync (.word (s.eaOf core.toNat tid.toNat ins)
      ((s.thread core.toNat tid.toNat).get ins.xb.toNat) ins.xd.toNat (if ins.fn = 0 then none else some (s.now + ins.fn.toNat * usT)))
    refine ⟨_, exec_waitl_same h hok hal heq, ?_, ?_, hat.only⟩ <;> rw [hat.thread]
    rfl
  case limit =>
    intro s core tid a xd old limit hup hw hdue heq
    have hat := ((State.atThread.refl s core.toNat tid.toNat).park .ready .none).putReg xd 0
    exact ⟨_, exec_waitlTimeout hup hw hdue heq, hat.thread, hat.only⟩
  case wakes =>
    intro s core tid ins who old xd limit h hok hal hwho hst hw hsize hne
    have hthread : (s.issued core.toNat tid.toNat).thread core.toNat who.toNat = s.thread core.toNat who.toNat :=
      State.thread_issued_other _ (fun hs => hwho (BitVec.eq_of_toNat_eq hs.2))
    have hsize' : localSize ins = 8 := by rw [localSize, hsize]; rfl
    have hopen : (localAt core.toNat (s.eaOf core.toNat tid.toNat ins)).isSome := localAt_of_localOk (by simp) hok
    have hbytes := State.localBytes_localPut (s := s.issued core.toNat tid.toNat)
      (bs := leBytes (localSize ins) ((s.thread core.toNat tid.toNat).get ins.xb.toNat).toNat) hopen
    rw [leBytes_length, hsize'] at hbytes
    have hword : BitVec.ofNat 64 (((s.issued core.toNat tid.toNat).localPut core.toNat (s.eaOf core.toNat tid.toNat ins)
        (leBytes 8 ((s.thread core.toNat tid.toNat).get ins.xb.toNat).toNat)).localNat core.toNat (s.eaOf core.toNat tid.toNat ins) 8)
        ≠ old := by
      rw [State.localNat, hbytes, leNat_leBytes, Nat.mod_eq_of_lt (Nat.lt_of_lt_of_eq (BitVec.isLt _) (by norm_num)), BitVec.ofNat_toNat, BitVec.setWidth_eq]
      exact hne
    have hwake : ((s.issued core.toNat tid.toNat).localWrite core.toNat (s.eaOf core.toNat tid.toNat ins)
        (leBytes (localSize ins) ((s.thread core.toNat tid.toNat).get ins.xb.toNat).toNat)).thread core.toNat who.toNat
        = ({ s.thread core.toNat who.toNat with state := .ready, wait := .none } : Thread).put xd 1 := by
      rw [State.localWrite_eq hopen, State.thread_wakeWords, if_pos rfl, State.thread_localPut, hthread, hsize']
      exact State.wakeWord_of_differs hst hw hword
    refine ⟨_, exec_stl h hok hal, ?_, ?_⟩ <;> rw [hwake]
    · rw [Thread.put_state]
    · rw [Thread.get_put_same]
      by_cases hx : xd = 0
      · exact .inl hx
      · exact .inr (if_neg hx)
  case brIllegal =>
    intro s core tid ins h hc
    exact ⟨_, exec_br_illegal h hc, s.faultHere_issued core.toNat tid (by decide)⟩
  case illegal =>
    intro s core tid word h hw
    exact ⟨_, exec_illegalInstruction h hw, s.faultHere_issued core.toNat tid (by decide)⟩

end Sys2Proof.Machine
end

section
/-! SUPPORT. An engine starts the command at the head of its queue (R217, R225). -/

namespace Sys2Proof.Machine

set_option Elab.async false

/-- A descriptor of a GATHER from the pool: one row of 64 bytes, its index at 0x100 and its place at 0x200. -/
def pooledGather : List Byte := [1, 1, 0, 0] ++ leBytes 4 1 ++ leBytes 4 0x100 ++ leBytes 4 0x200 ++ leBytes 8 0 ++ leBytes 4 64 ++ fill 36 0

/-- A command that waits to start although it is marked as sampled. -/
def markedCommand : EngCmd := { tid := 0, desc := 0, sampled := true }

/-- A running module whose gather engine of core 0 holds that command, of a thread with no room for pool requests. -/
def markedQueue : State :=
  let s := State.reset
  let s := ({ s with mod := { s.mod with state := .service }, cpu := { s.cpu with spad := Memory.write [] 0 pooledGather } } : State)
  (s.onThread 0 0 (fun x => { x with mcnt := 64 })).onEngine 0 3 (fun x => { x with queue := [markedCommand] })

theorem markedQueue_rows : ∃ rows, markedQueue.gfePool 0 (markedQueue.descOf 0 markedCommand) false = .ok rows := by
  have hok : (markedQueue.gfePool 0 (markedQueue.descOf 0 markedCommand) false).isOk = true := by decide +kernel
  cases h : markedQueue.gfePool 0 (markedQueue.descOf 0 markedCommand) false with
  | ok rows => exact ⟨rows, rfl⟩
  | error c => rw [h] at hok; exact absurd hok Bool.false_ne_true

/-- A pooled command that starts is not sampled. -/
theorem markedQueue_starts : ((markedQueue.after (.gfeGather 0)).engine 0 3).queue.map (·.sampled) = [false] := by
  decide +kernel

/-- Refutes O18: a pooled GATHER that waits to start while it is marked as sampled starts with the mark gone, since no pooled command
is sampled, where the statement keeps every field of the command but its phase and its rows. -/
theorem not_enginesStart : ¬ Obligations.EnginesStart := by
  unfold Obligations.EnginesStart
  rintro ⟨-, -, -, -, -, -, -, -, -, -, -, -, -, -, -, -, -, -, -, -, -, hgather, -⟩
  obtain ⟨rows, hrows⟩ := markedQueue_rows
  obtain ⟨t, hexec, hqueue, -⟩ := hgather markedQueue 0 markedCommand [] rows (by decide +kernel) (by decide +kernel) (by decide +kernel)
    (by decide +kernel) hrows (by decide +kernel)
  have hstarts := markedQueue_starts
  rw [State.after_eq hexec, show (0 : Nat) = (0 : BitVec 10).toNat from rfl, hqueue] at hstarts
  exact absurd hstarts (by simp [markedCommand])

end Sys2Proof.Machine
end

section
/-! SUPPORT. What operations on a core leave of its engines, its tiles and its local memory (R217, R218, R225). -/

namespace Sys2Proof.Machine

/-- From `s` to `t` the threads of one core may change, and what those threads wait for; its engines, tiles and fault, the local
memories and every other part stay as they are. -/
structure State.threadsOnly (s t : State) (k : Nat) : Prop where
  only : s.changesOnly t [.cpu]
  spad : t.cpu.spad = s.cpu.spad
  cmem : t.cpu.cmem = s.cpu.cmem
  others : ∀ x, x ≠ k → t.core x = s.core x
  tiles : (t.core k).tiles = (s.core k).tiles
  engines : (t.core k).engines = (s.core k).engines
  comps : (t.core k).comps = (s.core k).comps
  quar : (t.core k).quar = (s.core k).quar
  faultV : (t.core k).faultV = (s.core k).faultV

theorem State.threadsOnly.refl (s : State) (k : Nat) : s.threadsOnly s k :=
  ⟨only_refl s _, rfl, rfl, fun _ _ => rfl, rfl, rfl, rfl, rfl, rfl⟩

theorem State.threadsOnly.trans {s t u : State} {k : Nat} (h : s.threadsOnly t k) (h' : t.threadsOnly u k) : s.threadsOnly u k where
  only := h.only.trans h'.only
  spad := h'.spad.trans h.spad
  cmem := h'.cmem.trans h.cmem
  others := fun x hx => (h'.others x hx).trans (h.others x hx)
  tiles := h'.tiles.trans h.tiles
  engines := h'.engines.trans h.engines
  comps := h'.comps.trans h.comps
  quar := h'.quar.trans h.quar
  faultV := h'.faultV.trans h.faultV

theorem State.onThread_threadsOnly (s : State) (k j : Nat) (f : Thread → Thread) : s.threadsOnly (s.onThread k j f) k := by
  refine ⟨State.onThread_only s k j f (only_refl s _) (List.Subset.refl _), rfl, rfl, fun x hx => s.core_onThread_other j f hx,
    ?_, ?_, ?_, ?_, ?_⟩
  all_goals rw [State.core_onThread_same]

theorem State.park_threadsOnly (s : State) (k j : Nat) (g : ThreadState) (w : Wait) : s.threadsOnly (s.park k j g w) k :=
  s.onThread_threadsOnly k j _

/-- What becomes of a thread that looks at what it waits for. -/
inductive Thread.Settled (x : Thread) : Thread → Prop
  | same : x.Settled x
  | stopped (hdis : x.discard = true) (hst : x.state ≠ .faulted) (hm : x.mcnt = 0) (he : x.ecnt = 0) : x.Settled x.stopped
  | goesOn (g : ThreadState) (hst : x.state ≠ .faulted) (hg : g ≠ .faulted) : x.Settled { x with state := g, wait := .none }

/-- A thread that looks at what it waits for stays, stops, or goes on; nothing else changes. -/
theorem State.settleThread_settled (s : State) (k j : Nat) :
    ∃ x, (s.thread k j).Settled x ∧ s.threadsOnly (s.settleThread k j) k ∧ (s.settleThread k j).thread k j = x
      ∧ ∀ i, i ≠ j → (s.settleThread k j).thread k i = s.thread k i := by
  have hkeep : ∃ x, (s.thread k j).Settled x ∧ s.threadsOnly s k ∧ s.thread k j = x ∧ ∀ i, i ≠ j → s.thread k i = s.thread k i :=
    ⟨_, .same, .refl s k, rfl, fun _ _ => rfl⟩
  have hpark : ∀ g, (s.thread k j).state ≠ .faulted → g ≠ .faulted → ∃ x, (s.thread k j).Settled x
      ∧ s.threadsOnly (s.park k j g .none) k ∧ (s.park k j g .none).thread k j = x
      ∧ ∀ i, i ≠ j → (s.park k j g .none).thread k i = s.thread k i := fun g hst hg =>
    ⟨_, .goesOn g hst hg, s.park_threadsOnly k j g .none, State.thread_onThread_same _ _ _ _,
      fun i hi => State.thread_onThread_other _ _ (fun h => hi h.2)⟩
  unfold State.settleThread
  dsimp only
  split
  · rename_i hgone
    split
    · rename_i hidle
      exact ⟨_, .stopped hgone.1 hgone.2 hidle.1 hidle.2, s.onThread_threadsOnly k j _, State.thread_onThread_same _ _ _ _,
        fun i hi => State.thread_onThread_other _ _ (fun h => hi h.2)⟩
    · exact hkeep
  · split
    case h_1 hst =>
      have hready := hpark .ready (by rw [hst]; decide) (by decide)
      split
      · split
        · exact hready
        · exact hkeep
      · exact hready
    case h_2 hst =>
      have hready := hpark .ready (by rw [hst]; decide) (by decide)
      have hidle := hpark .idle (by rw [hst]; decide) (by decide)
      split
      · exact hready
      · split
        · exact hkeep
        · exact hready
      · split
        · exact hready
        · exact hkeep
      · split
        · exact hready
        · exact hkeep
      · split
        · exact hidle
        · exact hkeep
      · exact hkeep
    case h_3 hst =>
      have hready := hpark .ready (by rw [hst]; decide) (by decide)
      have hidle := hpark .idle (by rw [hst]; decide) (by decide)
      split
      · exact hready
      · split
        · exact hkeep
        · exact hready
      · split
        · exact hready
        · exact hkeep
      · split
        · exact hready
        · exact hkeep
      · split
        · exact hidle
        · exact hkeep
      · exact hkeep
    case h_4 => exact hkeep

/-- Looking changes neither the registers nor the counts of a thread. -/
theorem Thread.Settled.keeps {x y : Thread} (h : x.Settled y) : y.x = x.x ∧ y.ecnt = x.ecnt ∧ y.mcnt = x.mcnt ∧ y.pc = x.pc := by
  cases h with
  | same => exact ⟨rfl, rfl, rfl, rfl⟩
  | stopped hdis hst hm he => exact ⟨rfl, he.symm, hm.symm, rfl⟩
  | goesOn g hst hg => exact ⟨rfl, rfl, rfl, rfl⟩

theorem State.settleThread_threadsOnly (s : State) (k j : Nat) : s.threadsOnly (s.settleThread k j) k := by
  obtain ⟨x, -, h, -⟩ := s.settleThread_settled k j
  exact h

/-- No count of a thread and no register changes while threads look. -/
theorem State.settleThread_keeps (s : State) (k j i : Nat) : ((s.settleThread k j).thread k i).ecnt = (s.thread k i).ecnt
    ∧ ((s.settleThread k j).thread k i).x = (s.thread k i).x := by
  obtain ⟨x, hx, -, hsame, hothers⟩ := s.settleThread_settled k j
  by_cases hi : i = j
  · subst hi
    obtain ⟨hregs, hecnt, -⟩ := hx.keeps
    rw [hsame]
    exact ⟨hecnt, hregs⟩
  · rw [hothers i hi]
    exact ⟨rfl, rfl⟩

theorem State.foldl_settleThread (l : List (Nat × Thread)) (s : State) (k : Nat) :
    s.threadsOnly (l.foldl (fun s e => s.settleThread k e.1) s) k
      ∧ ∀ i, ((l.foldl (fun s e => s.settleThread k e.1) s).thread k i).ecnt = (s.thread k i).ecnt
        ∧ ((l.foldl (fun s e => s.settleThread k e.1) s).thread k i).x = (s.thread k i).x := by
  induction l generalizing s with
  | nil => exact ⟨.refl s k, fun _ => ⟨rfl, rfl⟩⟩
  | cons e l ih =>
    obtain ⟨honly, hkeep⟩ := ih (s.settleThread k e.1)
    exact ⟨(s.settleThread_threadsOnly k e.1).trans honly,
      fun i => ⟨(hkeep i).1.trans (s.settleThread_keeps k e.1 i).1, (hkeep i).2.trans (s.settleThread_keeps k e.1 i).2⟩⟩

theorem State.settleEngines_threadsOnly (s : State) (k : Nat) : s.threadsOnly (s.settleEngines k) k := (s.foldl_settleThread _ k).1

theorem State.settleEngines_ecnt (s : State) (k i : Nat) : ((s.settleEngines k).thread k i).ecnt = (s.thread k i).ecnt :=
  ((s.foldl_settleThread _ k).2 i).1

theorem State.engine_of_engines {s t : State} {k e : Nat} (h : (t.core k).engines = (s.core k).engines) : t.engine k e = s.engine k e := by
  simp only [State.engine, h]

theorem State.threadsOnly.engine {s t : State} {k : Nat} (h : s.threadsOnly t k) (x e : Nat) : t.engine x e = s.engine x e := by
  by_cases hx : x = k
  · subst hx
    exact State.engine_of_engines h.engines
  · exact State.engine_of_engines (congrArg Core.engines (h.others x hx))

theorem State.threadsOnly.tile {s t : State} {k : Nat} (h : s.threadsOnly t k) (i : Nat) : t.tile k i = s.tile k i := by
  simp only [State.tile, h.tiles]

end Sys2Proof.Machine
end

section
/-! SUPPORT. Engine commands are queued, refused, completed, compared and voted on (R200, R217, R218, R225, R226). -/

namespace Sys2Proof.Machine

/-! ### A local write leaves every core but its threads -/

/-- The cores of two states differ at most in their threads. -/
def State.coresSame (s t : State) : Prop := ∀ x, { t.core x with threads := [] } = { s.core x with threads := [] }

theorem State.coresSame.engine {s t : State} (h : s.coresSame t) (k e : Nat) : t.engine k e = s.engine k e :=
  State.engine_of_engines (congrArg Core.engines (h k) :)

theorem State.coresSame.tiles {s t : State} (h : s.coresSame t) (k : Nat) : (t.core k).tiles = (s.core k).tiles :=
  (congrArg Core.tiles (h k) :)

theorem State.wakeCore_coresSame (s : State) (k : Nat) : s.coresSame (s.wakeCore k) := by
  intro x
  unfold State.wakeCore
  split
  · by_cases hx : x = k
    · subst hx
      rw [State.core_onCore_same]
    · rw [State.core_onCore_other _ _ hx]
  · rfl

theorem State.foldl_wakeCore_coresSame (cores : List Nat) (s : State) : s.coresSame (cores.foldl State.wakeCore s) := by
  induction cores generalizing s with
  | nil => exact fun _ => rfl
  | cons k ks ih => exact fun x => (ih _ x).trans (s.wakeCore_coresSame k x)

theorem State.localWrite_coresSame (s : State) (k a : Nat) (bs : List Byte) : s.coresSame (s.localWrite k a bs) := by
  match hl : localAt k a with
  | none =>
    rw [State.localWrite_none hl]
    exact fun _ => rfl
  | some y =>
    rw [State.localWrite_eq (by simp [hl]), State.wakeWords_eq_foldl]
    intro x
    rw [State.foldl_wakeCore_coresSame]
    simp only [State.core, State.localPut_cores]

/-- A local write changes what no thread counts. -/
theorem State.localWrite_counts (s : State) (k a : Nat) (bs : List Byte) (x i : Nat) :
    ((s.localWrite k a bs).thread x i).ecnt = (s.thread x i).ecnt := by
  match hl : localAt k a with
  | none => rw [State.localWrite_none hl]
  | some y =>
    rw [State.localWrite_eq (by simp [hl]), State.thread_wakeWords, State.thread_localPut]
    split
    · unfold State.wakeWord
      split
      · split
        · unfold Thread.put
          split <;> rfl
        · rfl
      · rfl
    · rfl

/-! ### Issue -/

/-- A command joins an engine's queue and is counted at its thread. -/
theorem State.engineIssue_room {s : State} {k j e desc : Nat} (hq : (s.engine k e).queue.length < 32) (hc : (s.thread k j).ecnt < 16) :
    s.engineIssue k j e desc = (s.onEngine k e (fun x => { x with
      queue := x.queue ++ [{ tid := j, desc := desc, pc := (s.thread k j).pc - 8 }] })).onThread k j (fun x => { x with ecnt := x.ecnt + 1 }) :=
  if_neg (by omega)

/-- A full queue stops the thread at its instruction. -/
theorem State.engineIssue_full {s : State} {k j e desc : Nat} (hq : 32 ≤ (s.engine k e).queue.length) :
    s.engineIssue k j e desc = s.onThread k j (fun x => { x with pc := x.pc - 8, state := .waitEng, wait := .none }) := if_pos (.inl hq)

theorem State.issued_engine (s : State) (k j x e : Nat) : (s.issued k j).engine x e = s.engine x e := by
  obtain ⟨-, -, -, hothers, -, -, -, hengines, -⟩ := (s.issued_atThread k j).only
  by_cases hx : x = k
  · subst hx
    exact State.engine_of_engines hengines
  · exact State.engine_of_engines (congrArg Core.engines (hothers x hx))

theorem State.tiles_onEngine (s : State) (k e : Nat) (f : Engine → Engine) : ((s.onEngine k e f).core k).tiles = (s.core k).tiles := by
  rw [State.onEngine, State.core_onCore_same]

theorem State.engine_onThread (s : State) (k j x e : Nat) (f : Thread → Thread) : (s.onThread k j f).engine x e = s.engine x e :=
  (s.onThread_threadsOnly k j f).engine x e

/-- What an engine instruction with room leaves. -/
theorem State.issued_engineIssue {s : State} {k j e desc : Nat} (hq : (s.engine k e).queue.length < 32) (hc : (s.thread k j).ecnt < 16) :
    ((s.issued k j).engineIssue k j e desc |>.engine k e).queue
        = (s.engine k e).queue ++ [{ tid := j, desc := desc, pc := (s.thread k j).pc }]
      ∧ ((s.issued k j).engineIssue k j e desc).thread k j = { s.advanced k j with ecnt := (s.thread k j).ecnt + 1 }
      ∧ (((s.issued k j).engineIssue k j e desc).core k).tiles = (s.core k).tiles
      ∧ ((s.issued k j).engineIssue k j e desc).cpu.spad = s.cpu.spad
      ∧ ((s.issued k j).engineIssue k j e desc).cpu.cmem = s.cpu.cmem
      ∧ s.changesOnly ((s.issued k j).engineIssue k j e desc) [.cpu] := by
  have h := s.issued_atThread k j
  obtain ⟨honly, hspad, hcmem, -, -, -, htiles, -⟩ := h.only
  rw [State.engineIssue_room (by rwa [State.issued_engine]) (by rw [h.thread]; exact hc)]
  refine ⟨?_, ?_, ?_, hspad, hcmem, State.onThread_only _ _ _ _ (State.onEngine_only _ _ _ _ honly (List.Subset.refl _))
    (List.Subset.refl _)⟩
  · rw [State.engine_onThread, State.engine_onEngine_same, State.issued_engine, h.thread]
    simp only [State.advanced, BitVec.add_sub_cancel]
  · rw [State.thread_onThread_same, State.thread_onEngine, h.thread]
    rfl
  · rw [State.core_onThread_same]
    exact (State.tiles_onEngine _ _ _ _).trans htiles

section

variable {s : State} {core : BitVec 10} {tid : BitVec 6} {ins : Ins}

theorem exec_mxeIssue (h : s.issues core.toNat tid.toNat [ins.xa.toNat]) : exec (.mxeIssue core tid ins) s =
    .next ((s.issued core.toNat tid.toNat).engineIssue core.toNat tid.toNat 0 (s.eaOf core.toNat tid.toNat ins)) := by
  show execMxeIssue core tid ins s = _
  unfold execMxeIssue
  refine (State.issue_plain h _).trans ?_
  rw [State.issued_eaOf]

theorem exec_gfeIssue (h : s.issues core.toNat tid.toNat [ins.xa.toNat]) : exec (.gfeIssue core tid ins) s =
    .next ((s.issued core.toNat tid.toNat).engineIssue core.toNat tid.toNat 3 (s.eaOf core.toNat tid.toNat ins)) := by
  show execGfeIssue core tid ins s = _
  unfold execGfeIssue
  refine (State.issue_plain h _).trans ?_
  rw [State.issued_eaOf]

theorem exec_veIssue_one (h : s.issues core.toNat tid.toNat [ins.xa.toNat]) (hf : bits ins.fn.toNat 1 0 < 2) :
    exec (.veIssue core tid ins) s = .next ((s.issued core.toNat tid.toNat).engineIssue core.toNat tid.toNat
      (bits ins.fn.toNat 1 0 + 1) (s.eaOf core.toNat tid.toNat ins)) := by
  show execVeIssue core tid ins s = _
  unfold execVeIssue
  refine (State.issue_plain h _).trans ?_
  rw [State.issued_eaOf, if_neg (by omega), if_neg (by omega)]

theorem State.issued_anyVe (s : State) (k j : Nat) : (s.issued k j).anyVe k = s.anyVe k := by
  have hquar : ((s.issued k j).core k).quar = (s.core k).quar := by
    simp only [State.issued, State.core_onCore_same, State.core_onThread_same]
  simp only [State.anyVe, State.issued_engine, hquar]

theorem exec_veIssue_any (h : s.issues core.toNat tid.toNat [ins.xa.toNat]) (hf : bits ins.fn.toNat 1 0 = 2) :
    exec (.veIssue core tid ins) s = .next ((s.issued core.toNat tid.toNat).engineIssue core.toNat tid.toNat
      (s.anyVe core.toNat) (s.eaOf core.toNat tid.toNat ins)) := by
  show execVeIssue core tid ins s = _
  unfold execVeIssue
  refine (State.issue_plain h _).trans ?_
  rw [State.issued_eaOf, State.issued_anyVe, if_neg (by omega), if_pos hf]

end

/-! ### The end of a command -/

/-- A command leaves its queue and its thread; what the thread counts, and that nothing but threads and the queue changes. -/
theorem State.engineRetire_spec (s : State) (k e j : Nat) :
    (s.onEngine k e (fun x => { x with queue := x.queue.tail })).threadsOnly (s.engineRetire k e j) k
      ∧ ((s.engineRetire k e j).thread k j).ecnt = (s.thread k j).ecnt - 1 := by
  refine ⟨(State.onThread_threadsOnly _ _ _ _).trans (State.settleThread_threadsOnly _ _ _), ?_⟩
  unfold State.engineRetire
  rw [(State.settleThread_keeps _ _ _ _).1, State.thread_onThread_same, State.thread_onEngine]

/-- The command leaves and the threads that wait for room look again. -/
def State.leaves (s : State) (k e j : Nat) : State := (s.engineRetire k e j).settleEngines k

theorem State.leaves_spec (s : State) (k e j : Nat) :
    (s.onEngine k e (fun x => { x with queue := x.queue.tail })).threadsOnly (s.leaves k e j) k
      ∧ ((s.leaves k e j).thread k j).ecnt = (s.thread k j).ecnt - 1 :=
  ⟨(s.engineRetire_spec k e j).1.trans (State.settleEngines_threadsOnly _ _),
    (State.settleEngines_ecnt _ _ _).trans (s.engineRetire_spec k e j).2⟩

theorem State.leaves_queue {s : State} {k e j : Nat} {c : EngCmd} {cs : List EngCmd} (h : (s.engine k e).queue = c :: cs) :
    ((s.leaves k e j).engine k e).queue = cs := by
  rw [(s.leaves_spec k e j).1.engine, State.engine_onEngine_same, h]
  rfl

theorem State.leaves_tiles (s : State) (k e j : Nat) : ((s.leaves k e j).core k).tiles = (s.core k).tiles :=
  (s.leaves_spec k e j).1.tiles.trans (State.tiles_onEngine _ _ _ _)

theorem State.leaves_changesOnly (s : State) (k e j : Nat) : s.changesOnly (s.leaves k e j) [.cpu] :=
  (State.onEngine_only s k e _ (only_refl s _) (List.Subset.refl _)).trans (s.leaves_spec k e j).1.only

theorem State.leaves_mem (s : State) (k e j : Nat) : (s.leaves k e j).cpu.spad = s.cpu.spad ∧ (s.leaves k e j).cpu.cmem = s.cpu.cmem :=
  ⟨(s.leaves_spec k e j).1.spad, (s.leaves_spec k e j).1.cmem⟩

theorem State.leaves_faultV (s : State) (k e j : Nat) : ((s.leaves k e j).core k).faultV = (s.core k).faultV := by
  rw [(s.leaves_spec k e j).1.faultV, State.onEngine, State.core_onCore_same]

section

variable {s : State} {core : BitVec 10} {engine : BitVec 2} {c : EngCmd} {cs : List EngCmd}

theorem exec_engineInvalidDescriptor {cause : Nat} (hup : s.coreUp core.toNat = true)
    (hq : (s.engine core.toNat engine.toNat).queue = c :: cs) (hph : c.phase = .queued)
    (htest : (s.engine core.toNat engine.toNat).testing = false) (hv : s.verdict core.toNat engine.toNat c.desc = .error cause) :
    exec (.engineInvalidDescriptor core engine) s =
      .next ((s.leaves core.toNat engine.toNat c.tid).faultThread core.toNat c.tid cause c.pc) := by
  show execEngineInvalidDescriptor core engine s = _
  unfold execEngineInvalidDescriptor
  dsimp only
  simp only [hq]
  refine congrArg Host.Outcome.next ((if_neg (by simp [hup, hph, htest])).trans ?_)
  rw [hv]
  rfl

theorem exec_engineCommandComplete (hup : s.coreUp core.toNat = true) (hq : (s.engine core.toNat engine.toNat).queue = c :: cs)
    (hdone : (c.phase = .running ∧ c.sampled = false) ∨ c.phase = .compared) (hl : c.rowsLeft = 0) (ht : c.rowsTodo = []) :
    exec (.engineCommandComplete core engine) s =
      .next ((s.applyOut core.toNat c.out).leaves core.toNat engine.toNat c.tid) := by
  show execEngineCommandComplete core engine s = _
  unfold execEngineCommandComplete
  dsimp only
  simp only [hq]
  refine congrArg Host.Outcome.next (if_pos ?_)
  rcases hdone with ⟨hp, hs⟩ | hp
  · simp [hup, hp, hs, hl, ht]
  · simp [hup, hp, hl, ht]

/-- A shadow that runs no command of its own is free for the copy. -/
theorem State.shadowFree {a : Nat} {l xs : List Nat} {e : Nat} (hl : l = a :: xs) (hown : s.runsOwn a e = false) :
    l.any (fun j => l.head? == some j && s.runsOwn j e) = false := by
  subst hl
  rw [List.any_eq_false]
  intro j _
  by_cases hj : a = j
  · simp [← hj, hown]
  · simp [hj]

theorem exec_shadowCompare_agrees {a : Nat} {xs : List Nat} (hup : s.coreUp core.toNat = true)
    (hq : (s.engine core.toNat engine.toNat).queue = c :: cs) (hph : c.phase = .running) (hs : c.sampled = true)
    (hsh : s.shadowCores core.toNat engine.toNat = a :: xs) (hown : s.runsOwn a engine.toNat = false) :
    exec (.shadowCompare core engine false) s = .next ((s.countShadow 0).headPhase core.toNat engine.toNat .compared) := by
  show execShadowCompare core engine false s = _
  unfold execShadowCompare
  dsimp only
  simp only [hq]
  refine congrArg Host.Outcome.next ((if_neg ?_).trans (if_pos rfl))
  rw [State.shadowFree hsh hown]
  simp [hup, hph, hs]

/-- How a comparison that disagrees counts. -/
def State.countMismatch (s : State) : State := (s.countShadow 0).countShadow 1

theorem State.countShadow_changesOnly (s : State) (i : Nat) : s.changesOnly (s.countShadow i) [.glb, .evq, .adk] :=
  State.countShadow_only s i (only_refl s _) (by decide)

theorem State.cpu_of_only {s t : State} {ps : List Part} (h : s.changesOnly t ps) (hm : Part.cpu ∉ ps) : t.cpu = s.cpu := h .cpu hm

theorem State.shadowCores_of_cpu {s t : State} (h : t.cpu = s.cpu) (k e : Nat) : t.shadowCores k e = s.shadowCores k e := by
  simp only [State.shadowCores, State.core, h]

theorem exec_shadowCompare_differs {a b : Nat} {xs : List Nat} (hup : s.coreUp core.toNat = true)
    (hq : (s.engine core.toNat engine.toNat).queue = c :: cs) (hph : c.phase = .running) (hs : c.sampled = true)
    (hsh : s.shadowCores core.toNat engine.toNat = a :: b :: xs) (hown : s.runsOwn a engine.toNat = false) :
    exec (.shadowCompare core engine true) s = .next (s.countMismatch.headPhase core.toNat engine.toNat .voting) := by
  have hcpu : ((s.countShadow 0).countShadow 1).cpu = s.cpu :=
    State.cpu_of_only ((s.countShadow_changesOnly 0).trans (State.countShadow_changesOnly _ 1)) (by decide)
  show execShadowCompare core engine true s = _
  unfold execShadowCompare
  dsimp only
  simp only [hq]
  refine congrArg Host.Outcome.next ((if_neg ?_).trans ?_)
  · rw [State.shadowFree hsh hown]
    simp [hup, hph, hs]
  · rw [if_neg (by decide), State.shadowCores_of_cpu hcpu, hsh]
    rfl

theorem exec_majorityVote {vote : BitVec 2} {a b : Nat} {xs : List Nat} (hup : s.coreUp core.toNat = true)
    (hq : (s.engine core.toNat engine.toNat).queue = c :: cs) (hph : c.phase = .voting)
    (hsh : s.shadowCores core.toNat engine.toNat = a :: b :: xs) :
    exec (.majorityVote core engine vote) s = .next (
      let op := s.opFmt core.toNat engine.toNat c
      if vote = 0 then (s.suspectEngine 0x0E a engine.toNat op 1 b).headPhase core.toNat engine.toNat .compared
      else if vote = 1 then (s.suspectEngine 0x0E core.toNat engine.toNat op 1 b).headPhase core.toNat engine.toNat .compared
      else ([core.toNat, a, b].foldl (fun s j => s.suspectEngine 0x0E j engine.toNat op 2 (if j = b then core.toNat else b)) s).noMajority
        core.toNat engine.toNat c) := by
  show execMajorityVote core engine vote s = _
  unfold execMajorityVote
  dsimp only
  simp only [hq, hsh]
  exact congrArg Host.Outcome.next (if_neg (by simp [hup, hph]))

end

/-! ### Phases, counts and suspects -/

theorem State.headPhase_queue {s : State} {k e : Nat} {c : EngCmd} {cs : List EngCmd} (p : EngPhase)
    (h : (s.engine k e).queue = c :: cs) : ((s.headPhase k e p).engine k e).queue = { c with phase := p } :: cs := by
  rw [State.headPhase, State.engine_onEngine_same]
  simp only [h]

/-- A change of an engine that keeps its suspect count keeps every engine's. -/
theorem State.suspect_onEngine (s : State) (k e : Nat) {f : Engine → Engine} (hf : ∀ y, (f y).suspect = y.suspect) (x i : Nat) :
    ((s.onEngine k e f).engine x i).suspect = (s.engine x i).suspect := by
  unfold State.onEngine State.engine
  by_cases hx : x = k
  · subst hx
    rw [State.core_onCore_same]
    dsimp only
    by_cases hi : i = e
    · subst hi
      rw [Table.read_write_same, hf]
    · rw [Table.read_write_other _ _ _ hi]
  · rw [State.core_onCore_other _ _ hx]

theorem State.headPhase_suspect (s : State) (k e : Nat) (p : EngPhase) (x i : Nat) :
    ((s.headPhase k e p).engine x i).suspect = (s.engine x i).suspect :=
  State.suspect_onEngine s k e (fun y => by split <;> rfl) x i

theorem State.headPhase_changesOnly (s : State) (k e : Nat) (p : EngPhase) : s.changesOnly (s.headPhase k e p) [.cpu] :=
  State.onEngine_only s k e _ (only_refl s _) (List.Subset.refl _)

theorem State.countShadow_glb (s : State) (i : Nat) : (s.countShadow i).glb.shadowCmp = (if i = 0 then (bump s.glb.shadowCmp).1 else s.glb.shadowCmp)
    ∧ (s.countShadow i).glb.shadowMis = (if i = 0 then s.glb.shadowMis else (bump s.glb.shadowMis).1) := by
  have hsat : ∀ (t : State) (j : Bool) (x : Nat) (r : BitVec 16) (a : Nat), (t.satEvent j x r a).glb = t.glb := fun t j x r a =>
    State.satEvent_only t j x r a (only_refl t [.evq, .adk]) (by decide) .glb (by decide)
  unfold State.countShadow
  rw [hsat]
  split <;> exact ⟨rfl, rfl⟩

/-- From `s` to `t` every engine keeps its queue, every core its threads, its tiles and its fault, and the local memories stay. -/
structure State.workKept (s t : State) (ps : List Part) : Prop where
  queue : ∀ x i, (t.engine x i).queue = (s.engine x i).queue
  threads : ∀ x, (t.core x).threads = (s.core x).threads
  tiles : ∀ x, (t.core x).tiles = (s.core x).tiles
  faultV : ∀ x, (t.core x).faultV = (s.core x).faultV
  spad : t.cpu.spad = s.cpu.spad
  cmem : t.cpu.cmem = s.cpu.cmem
  only : s.changesOnly t ps

theorem State.workKept.refl (s : State) (ps : List Part) : s.workKept s ps :=
  ⟨fun _ _ => rfl, fun _ => rfl, fun _ => rfl, fun _ => rfl, rfl, rfl, only_refl s ps⟩

theorem State.workKept.trans {s t u : State} {ps : List Part} (h : s.workKept t ps) (h' : t.workKept u ps) : s.workKept u ps :=
  ⟨fun x i => (h'.queue x i).trans (h.queue x i), fun x => (h'.threads x).trans (h.threads x), fun x => (h'.tiles x).trans (h.tiles x),
    fun x => (h'.faultV x).trans (h.faultV x), h'.spad.trans h.spad, h'.cmem.trans h.cmem, h.only.trans h'.only⟩

theorem State.workKept.of_cpu {s t : State} {ps : List Part} (hcpu : t.cpu = s.cpu) (h : s.changesOnly t ps) : s.workKept t ps := by
  have hcore : ∀ x, t.core x = s.core x := fun x => by simp only [State.core, hcpu]
  exact ⟨fun x i => by simp only [State.engine, hcore], fun x => by rw [hcore], fun x => by rw [hcore], fun x => by rw [hcore],
    by rw [hcpu], by rw [hcpu], h⟩

theorem State.workKept.onCore {s : State} {k : Nat} {f : Core → Core} {ps : List Part} (hps : [Part.cpu] ⊆ ps)
    (he : ∀ i, (Table.read {} (f (s.core k)).engines i).queue = (Table.read {} (s.core k).engines i).queue)
    (ht : (f (s.core k)).threads = (s.core k).threads) (hl : (f (s.core k)).tiles = (s.core k).tiles)
    (hf : (f (s.core k)).faultV = (s.core k).faultV) : s.workKept (s.onCore k f) ps := by
  have hcore : ∀ x, (x = k ∧ (s.onCore k f).core x = f (s.core k)) ∨ (s.onCore k f).core x = s.core x := fun x => by
    by_cases hx : x = k
    · subst hx
      exact .inl ⟨rfl, State.core_onCore_same _ _ _⟩
    · exact .inr (State.core_onCore_other _ _ hx)
  refine ⟨fun x i => ?_, fun x => ?_, fun x => ?_, fun x => ?_, rfl, rfl, State.onCore_only s k f (only_refl s _) hps⟩
  · unfold State.engine
    rcases hcore x with ⟨rfl, hx⟩ | hx <;> rw [hx]
    exact he i
  all_goals
    rcases hcore x with ⟨rfl, hx⟩ | hx <;> rw [hx]
    assumption

theorem State.suspectEngine_suspect (s : State) (cls k e op outcome other : Nat) :
    ((s.suspectEngine cls k e op outcome other).engine k e).suspect = min 15 ((s.engine k e).suspect + 1) := by
  have hlog : ∀ (t : State) (n d : Nat) (r : BitVec 16) (p : Nat) (m : Bool), (t.logE n d r p m).engine k e = t.engine k e :=
    fun t n d r p m => by
      simp only [State.engine, State.core, State.cpu_of_only (t.logE_changesOnly n d r p m) (by decide)]
  have hquar : ∀ (t : State) (q : BitVec 4), (t.onCore k (fun c => { c with quar := c.quar ||| q })).engine k e = t.engine k e :=
    fun t q => by rw [State.engine, State.core_onCore_same, State.engine]
  unfold State.suspectEngine
  dsimp only
  split
  · rw [hlog, hquar, hlog, State.engine_onEngine_same]
  · rw [hlog, State.engine_onEngine_same]

/-- An engine that is suspected keeps its queue, and no thread, tile or local memory changes. -/
theorem State.suspectEngine_workKept (s : State) (cls k e op outcome other : Nat) :
    s.workKept (s.suspectEngine cls k e op outcome other) [.cpu, .log, .evq, .adk] := by
  have hlog : ∀ (t : State) (n d : Nat) (r : BitVec 16) (p : Nat) (m : Bool), t.workKept (t.logE n d r p m) [.cpu, .log, .evq, .adk] :=
    fun t n d r p m => .of_cpu (State.cpu_of_only (t.logE_changesOnly n d r p m) (by decide))
      ((t.logE_changesOnly n d r p m).mono (by decide))
  have hmark : s.workKept (s.onEngine k e (fun y => { y with suspect := min 15 (y.suspect + 1) })) [.cpu, .log, .evq, .adk] := by
    refine State.workKept.onCore (by decide) (fun i => ?_) rfl rfl rfl
    dsimp only
    by_cases hi : i = e
    · subst hi
      rw [Table.read_write_same]
    · rw [Table.read_write_other _ _ _ hi]
  unfold State.suspectEngine
  dsimp only
  split
  · exact ((hmark.trans (hlog _ _ _ _ _ _)).trans (.onCore (by decide) (fun _ => rfl) rfl rfl rfl)).trans (hlog _ _ _ _ _ _)
  · exact hmark.trans (hlog _ _ _ _ _ _)

theorem State.foldl_workKept {ps : List Part} (f : State → Nat → State) (hf : ∀ (t : State) j, t.workKept (f t j) ps) (l : List Nat) (s : State) :
    s.workKept (l.foldl f s) ps := by
  induction l generalizing s with
  | nil => exact .refl s ps
  | cons j l ih => exact (hf s j).trans (ih _)

/-- A fault leaves the engines, the tiles and the local memories, stops its thread and is recorded where none is. -/
theorem State.faultThread_spec (s : State) {k j cause : Nat} (pc : BitVec 64) (hcause : cause < 256) :
    ((s.faultThread k j cause pc).thread k j).state = .faulted ∧ ((s.faultThread k j cause pc).thread k j).discard = true
      ∧ ((s.faultThread k j cause pc).core k).faultV = true
      ∧ ((s.core k).faultV = false → ((s.faultThread k j cause pc).core k).faultCause.toNat = cause
        ∧ ((s.faultThread k j cause pc).core k).faultPc = pc.setWidth 25)
      ∧ (∀ i, (s.faultThread k j cause pc).engine k i = s.engine k i) ∧ ((s.faultThread k j cause pc).core k).tiles = (s.core k).tiles
      ∧ (s.faultThread k j cause pc).cpu.spad = s.cpu.spad ∧ (s.faultThread k j cause pc).cpu.cmem = s.cpu.cmem := by
  have hcpu : ∀ (t : State) (c d : Nat) (r : BitVec 16) (p a b e : Nat), (t.logWith c d r p a b e).cpu = t.cpu := fun t c d r p a b e =>
    State.logWith_only t c d r p a b e (only_refl t [.log, .adk, .evq]) (List.Subset.refl _) .cpu (by decide)
  unfold State.faultThread
  simp only [State.thread, State.engine, State.core, hcpu]
  simp only [← State.core.eq_1, State.core_onCore_same, State.core_onThread_same]
  by_cases hf : (s.core k).faultV = true
  · simp [hf, State.onCore, State.setCore, State.onThread, State.setThread]
  · simp [hf, State.onCore, State.setCore, State.onThread, State.setThread, Nat.mod_eq_of_lt hcause]

/-- Without a majority the command leaves, its thread faults with cause 7, and nothing is written. -/
theorem State.workKept.noMajority {s u : State} (h : s.workKept u [.cpu, .log, .evq, .adk]) {k e : Nat} {c : EngCmd} {cs : List EngCmd}
    (hq : (s.engine k e).queue = c :: cs) :
    ((u.noMajority k e c).engine k e).queue = cs ∧ ((u.noMajority k e c).thread k c.tid).state = .faulted
      ∧ ((s.core k).faultV = false → ((u.noMajority k e c).core k).faultCause = 7)
      ∧ (u.noMajority k e c).cpu.spad = s.cpu.spad ∧ (u.noMajority k e c).cpu.cmem = s.cpu.cmem
      ∧ ((u.noMajority k e c).core k).tiles = (s.core k).tiles ∧ s.changesOnly (u.noMajority k e c) [.cpu, .log, .evq, .adk] := by
  obtain ⟨hst, -, -, hrec, heng, htiles, hspad, hcmem⟩ := (u.leaves k e c.tid).faultThread_spec (k := k) (j := c.tid) (cause := 7) c.pc (by decide)
  obtain ⟨hs, hm⟩ := u.leaves_mem k e c.tid
  refine ⟨(congrArg Engine.queue (heng e)).trans (State.leaves_queue ((h.queue k e).trans hq)), hst, fun hno => ?_,
    (hspad.trans hs).trans h.spad, (hcmem.trans hm).trans h.cmem, (htiles.trans (u.leaves_tiles _ _ _)).trans (h.tiles k),
    h.only.trans (((u.leaves_changesOnly _ _ _).mono (by decide)).trans (State.faultThread_only' _ _ _ _ _))⟩
  exact BitVec.eq_of_toNat_eq (hrec ((u.leaves_faultV _ _ _).trans ((h.faultV k).trans hno))).1

/-- Settles O17: the equation of each row, with what the retirement of a command, a suspicion and a fault keep. -/
theorem engineCommands : Obligations.EngineCommands := by
  unfold Obligations.EngineCommands
  refine ⟨?mxe, ?ve, ?gfe, ?any, ?full, ?invalid, ?complete, ?tile, ?agrees, ?differs, ?forPrimary, ?forShadow, ?noMajority⟩
  case mxe =>
    intro s core tid ins h hq hc
    exact ⟨_, exec_mxeIssue h, State.issued_engineIssue hq hc⟩
  case ve =>
    intro s core tid ins h hf hq hc
    exact ⟨_, exec_veIssue_one h hf, State.issued_engineIssue hq hc⟩
  case gfe =>
    intro s core tid ins h hq hc
    exact ⟨_, exec_gfeIssue h, State.issued_engineIssue hq hc⟩
  case any =>
    intro s core tid ins h hf hq hc
    exact ⟨_, exec_veIssue_any h hf, State.issued_engineIssue hq hc⟩
  case full =>
    intro s core tid ins h hq
    have hat := (s.issued_atThread core.toNat tid.toNat).onThread (fun x => { x with pc := x.pc - 8, state := .waitEng, wait := .none })
    refine ⟨_, (exec_mxeIssue h).trans (congrArg Host.Outcome.next (State.engineIssue_full (by rwa [State.issued_engine]))),
      hat.thread.trans ?_, hat.only⟩
    simp only [State.advanced, BitVec.add_sub_cancel]
  case invalid =>
    intro s core engine c cs cause hup hq hph htest hv hcause hj
    obtain ⟨hst, hdis, hfv, hrec, heng, -, hspad, hcmem⟩ :=
      (s.leaves core.toNat engine.toNat c.tid).faultThread_spec (k := core.toNat) (j := c.tid) c.pc hcause
    obtain ⟨hs, hm⟩ := s.leaves_mem core.toNat engine.toNat c.tid
    refine ⟨_, exec_engineInvalidDescriptor hup hq hph htest hv, (congrArg Engine.queue (heng _)).trans (State.leaves_queue hq), hst, hdis,
      hfv, fun hno => hrec ((s.leaves_faultV _ _ _).trans hno), hspad.trans hs, hcmem.trans hm,
      ((s.leaves_changesOnly _ _ _).mono (by decide)).trans (State.faultThread_only' _ _ _ _ _)⟩
  case complete =>
    intro s core engine c cs a bs hup hq hph hsam hl ht hout hok
    have happly : s.applyOut core.toNat c.out = s.localWrite core.toNat a bs := by rw [hout]; rfl
    have hexec := exec_engineCommandComplete hup hq (.inl ⟨hph, hsam⟩) hl ht
    rw [happly] at hexec
    have hq' : ((s.localWrite core.toNat a bs).engine core.toNat engine.toNat).queue = c :: cs := by
      rw [(s.localWrite_coresSame _ _ _).engine, hq]
    obtain ⟨hs, hm⟩ := (s.localWrite core.toNat a bs).leaves_mem core.toNat engine.toNat c.tid
    refine ⟨_, hexec, State.leaves_queue hq', ?_, (s.localWrite_localStored core.toNat a bs).congr rfl rfl hs hm,
      (State.localWrite_changesOnly _ _ _ _).trans (State.leaves_changesOnly _ _ _ _)⟩
    rw [(State.leaves_spec _ _ _ _).2, State.localWrite_counts]
    split
    · rename_i hone
      obtain ⟨-, -, -, hle⟩ := hone
      omega
    · rfl
  case tile =>
    intro s core engine c cs i tl hup hq hph hl ht hout
    have happly : s.applyOut core.toNat c.out = s.onCore core.toNat (fun x => { x with tiles := Table.write {} x.tiles i tl }) := by
      rw [hout]; rfl
    have hexec := exec_engineCommandComplete hup hq (.inr hph) hl ht
    rw [happly] at hexec
    have hq' : ((s.onCore core.toNat (fun x => { x with tiles := Table.write {} x.tiles i tl })).engine core.toNat engine.toNat).queue
        = c :: cs := by
      rw [State.engine, State.core_onCore_same]
      exact hq
    obtain ⟨hs, hm⟩ := (s.onCore core.toNat (fun x => { x with tiles := Table.write {} x.tiles i tl })).leaves_mem core.toNat engine.toNat c.tid
    refine ⟨_, hexec, State.leaves_queue hq', ?_, fun j hj => ?_, hs, hm,
      (State.onCore_only _ _ _ (only_refl s _) (List.Subset.refl _)).trans (State.leaves_changesOnly _ _ _ _)⟩ <;>
      rw [State.tile, State.leaves_tiles, State.core_onCore_same]
    · exact Table.read_write_same _ _ _ _
    · exact Table.read_write_other _ _ _ hj
  case agrees =>
    intro s core engine c cs a xs hup hq hph hsam hsh hown
    have hcpu := State.cpu_of_only (s.countShadow_changesOnly 0) (by decide)
    obtain ⟨hcmp, hmis⟩ := s.countShadow_glb 0
    refine ⟨_, exec_shadowCompare_agrees hup hq hph hsam hsh hown, State.headPhase_queue _ ?_, hcmp, hmis,
      ((s.countShadow_changesOnly 0).mono (by decide)).trans ((State.headPhase_changesOnly _ _ _ _).mono (by decide))⟩
    simp only [State.engine, State.core, hcpu]
    exact hq
  case differs =>
    intro s core engine c cs a b xs hup hq hph hsam hsh hown
    have honly := (s.countShadow_changesOnly 0).trans (State.countShadow_changesOnly _ 1)
    have hcpu : s.countMismatch.cpu = s.cpu := State.cpu_of_only honly (by decide)
    refine ⟨_, exec_shadowCompare_differs hup hq hph hsam hsh hown, State.headPhase_queue _ ?_, ?_,
      (honly.mono (by decide)).trans ((State.headPhase_changesOnly _ _ _ _).mono (by decide))⟩
    · simp only [State.engine, State.core, hcpu]
      exact hq
    · exact ((s.countShadow 0).countShadow_glb 1).2.trans (by rw [if_neg (by decide), (s.countShadow_glb 0).2, if_pos rfl])
  case forPrimary =>
    intro s core engine c cs a b xs hup hq hph hsh hne
    have hkept := s.suspectEngine_workKept 0x0E a engine.toNat (s.opFmt core.toNat engine.toNat c) 1 b
    refine ⟨_, (exec_majorityVote hup hq hph hsh).trans (congrArg Host.Outcome.next (if_pos rfl)),
      State.headPhase_queue _ ((hkept.queue _ _).trans hq), ?_, hkept.spad, hkept.cmem,
      hkept.only.trans ((State.headPhase_changesOnly _ _ _ _).mono (by decide))⟩
    rw [State.headPhase_suspect, State.suspectEngine_suspect]
  case forShadow =>
    intro s core engine c cs a b xs hup hq hph hsh hne
    have hkept := s.suspectEngine_workKept 0x0E core.toNat engine.toNat (s.opFmt core.toNat engine.toNat c) 1 b
    refine ⟨_, (exec_majorityVote hup hq hph hsh).trans (congrArg Host.Outcome.next ((if_neg (by decide)).trans (if_pos rfl))),
      State.headPhase_queue _ ((hkept.queue _ _).trans hq), ?_, hkept.spad, hkept.cmem,
      hkept.only.trans ((State.headPhase_changesOnly _ _ _ _).mono (by decide))⟩
    rw [State.headPhase_suspect, State.suspectEngine_suspect]
  case noMajority =>
    intro s core engine vote c cs a b xs hup hq hph hsh hvote hj
    have hkept := State.foldl_workKept (fun u j => u.suspectEngine 0x0E j engine.toNat (s.opFmt core.toNat engine.toNat c) 2
      (if j = b then core.toNat else b)) (fun t j => t.suspectEngine_workKept _ _ _ _ _ _) [core.toNat, a, b] s
    have hno : ∀ n : BitVec 2, n.toNat < 2 → vote ≠ n := fun n hn he => by rw [he] at hvote; omega
    have hexec := (exec_majorityVote (vote := vote) hup hq hph hsh).trans (congrArg Host.Outcome.next
      ((if_neg (hno 0 (by decide))).trans (if_neg (hno 1 (by decide)))))
    exact ⟨_, hexec, hkept.noMajority hq⟩

end Sys2Proof.Machine
end

section
/-! SUPPORT. What a vector engine computes on binary32 elements (R209, R212, R214). -/

namespace Sys2Proof.Machine

/-! ### Elements in bytes -/

theorem leNat_drop (bs : List Byte) (i : Nat) : leNat (bs.drop i) = leNat bs / 256 ^ i := by
  induction i generalizing bs with
  | zero => simp
  | succ i ih =>
    cases bs with
    | nil => simp [leNat]
    | cons b bs =>
      rw [List.drop_succ_cons, ih, leNat, pow_succ', ← Nat.div_div_eq_div_mul, Nat.add_mul_div_left _ _ (by decide),
        Nat.div_eq_of_lt b.isLt, Nat.zero_add]

theorem leNat_take (bs : List Byte) (n : Nat) : leNat (bs.take n) = leNat bs % 256 ^ n := by
  induction n generalizing bs with
  | zero => simp [leNat, Nat.mod_one]
  | succ n ih =>
    cases bs with
    | nil => simp [leNat]
    | cons b bs =>
      have h := Nat.mod_mul (x := b.toNat + 256 * leNat bs) (a := 256) (b := 256 ^ n)
      have hb : b.toNat < 256 := b.isLt
      rw [List.take_succ_cons, leNat, leNat, ih, pow_succ', h, Nat.add_mul_mod_self_left, Nat.mod_eq_of_lt hb,
        Nat.add_mul_div_left _ _ (by decide), Nat.div_eq_of_lt hb, Nat.zero_add]

/-- A field is digits of the value of its bytes. -/
theorem field_eq (bs : List Byte) (i n : Nat) : field bs i n = leNat bs / 256 ^ i % 256 ^ n := by
  rw [field, leNat_take, leNat_drop]

theorem pow32_eq (i : Nat) : 256 ^ (4 * i) = 2 ^ (32 * i) := by
  rw [show (256 : Nat) = 2 ^ 8 from rfl, ← pow_mul]
  congr 1
  omega

/-- Element `i` of an array of 32-bit elements is the field of its four bytes. -/
theorem unpackEls_get (bs : List Byte) {n i : Nat} (h : i < n) : (unpackEls 0 bs n)[i]? = some (field bs (4 * i) 4) := by
  simp only [unpackEls, List.getElem?_map, List.getElem?_range h, Option.map_some, field_eq, pow32_eq]
  rfl

@[simp] theorem unpackEls_length (c : Nat) (bs : List Byte) (n : Nat) : (unpackEls c bs n).length = n := by
  simp [unpackEls]

/-- The value of elements packed one above the other. -/
def packedValue (xs : List Nat) : Nat := xs.foldr (fun x acc => x % 2 ^ 32 + 2 ^ 32 * acc) 0

theorem packedValue_lt (xs : List Nat) : packedValue xs < 2 ^ (32 * xs.length) := by
  induction xs with
  | nil => exact Nat.one_pos
  | cons x xs ih =>
    have hx : x % 2 ^ 32 < 2 ^ 32 := Nat.mod_lt _ (by decide)
    have hpow : 2 ^ (32 * (xs.length + 1)) = 2 ^ 32 * 2 ^ (32 * xs.length) := by rw [← pow_add]; congr 1; omega
    show x % 2 ^ 32 + 2 ^ 32 * packedValue xs < _
    rw [List.length_cons, hpow]
    calc x % 2 ^ 32 + 2 ^ 32 * packedValue xs < 2 ^ 32 * (packedValue xs + 1) := by omega
      _ ≤ 2 ^ 32 * 2 ^ (32 * xs.length) := Nat.mul_le_mul_left _ ih

theorem packedValue_digit (xs : List Nat) {i : Nat} (h : i < xs.length) :
    packedValue xs / 2 ^ (32 * i) % 2 ^ 32 = xs.getD i 0 % 2 ^ 32 := by
  induction xs generalizing i with
  | nil => exact absurd h (by simp)
  | cons x xs ih =>
    show (x % 2 ^ 32 + 2 ^ 32 * packedValue xs) / 2 ^ (32 * i) % 2 ^ 32 = _
    cases i with
    | zero => simp
    | succ i =>
      have hpow : 2 ^ (32 * (i + 1)) = 2 ^ 32 * 2 ^ (32 * i) := by rw [← pow_add]; congr 1; omega
      rw [hpow, ← Nat.div_div_eq_div_mul, Nat.add_mul_div_left _ _ (by decide), Nat.div_eq_of_lt (Nat.mod_lt _ (by decide)), Nat.zero_add,
        ih (by simpa using h)]
      simp

theorem packedBytes_fp32 (n : Nat) : packedBytes 0 n = 4 * n := by
  have : elemBits 0 = 32 := rfl
  simp only [packedBytes, this]
  omega

theorem packEls_fp32 (xs : List Nat) : packEls 0 xs = leBytes (4 * xs.length) (packedValue xs) := by
  rw [packEls, packedBytes_fp32]
  rfl

theorem packEls_field (xs : List Nat) {i : Nat} (h : i < xs.length) : field (packEls 0 xs) (4 * i) 4 = xs.getD i 0 % 2 ^ 32 := by
  rw [packEls_fp32, field_eq, leNat_leBytes, pow32_eq, pow32_eq, Nat.mod_eq_of_lt (packedValue_lt xs),
    show (256 : Nat) ^ 4 = 2 ^ 32 from rfl, packedValue_digit xs h]

theorem packEls_length (xs : List Nat) : (packEls 0 xs).length = 4 * xs.length := by
  rw [packEls_fp32, leBytes_length]

/-! ### Operands and results -/

/-- The values of an array of binary32 elements in open local memory. -/
theorem State.values_fp32 {s : State} {k a n sc : Nat} (h : localOk s.comp.run k a (4 * n) false = true) :
    s.values k 0 a n sc none = .ok ((unpackEls 0 (s.localBytes k a (4 * n)) n).map f32) := by
  simp only [State.values, State.operand, packedBytes_fp32, h, if_true]
  rfl

/-- Results without scale, seed or saturation are encoded one by one. -/
theorem convertAll_fp32 (xs : List Num) : (convertAll 0 none false 0 xs).1 = packEls 0 (xs.map enc32) := by
  show packEls 0 (xs.zipIdx.map (fun x => encodeEl 0 none false (0 + x.2) x.1)) = _
  congr 1
  have henc : ∀ x : Num × Nat, encodeEl 0 none false (0 + x.2) x.1 = enc32 x.1 := fun _ => rfl
  calc xs.zipIdx.map (fun x => encodeEl 0 none false (0 + x.2) x.1) = (xs.zipIdx.map Prod.fst).map enc32 := by
        rw [List.map_map]
        exact List.map_congr_left (fun x _ => henc x)
    _ = xs.map enc32 := by rw [List.zipIdx_map_fst]

section

variable {s : State} {k e op n desc : Nat} {d : List Byte}

theorem State.vePlain.verdict (h : s.vePlain k e op n d desc) (he : e = 1 ∨ e = 2) : s.verdict k e desc = s.veVerdict k d := by
  obtain ⟨hquar, hdesc, rfl, -⟩ := h
  unfold State.verdict
  rw [hquar, if_neg (by decide), hdesc, if_neg (by decide)]
  rcases he with rfl | rfl <;> rfl

/-- The operands of a plain descriptor of an operation, as numbers. -/
def State.veOperand (s : State) (k a n : Nat) : List Num := (unpackEls 0 (s.localBytes k a (4 * n)) n).map f32

/-- What a plain descriptor gives: the operands that its operation takes, and its results in the order of its elements. -/
theorem State.vePlain.result (h : s.vePlain k e op n d desc) (hop : 1 ≤ op ∧ op ≤ 0xD) {bs ds : List Num}
    (hb : (if veTakesB op then s.values k 0 (field d 12 4) n (field d 32 4) none else .ok (List.replicate n (f32 (field d 20 4)))) = .ok bs)
    (hd : (if op = 4 then s.values k 0 (field d 16 4) n (field d 32 4) none else .ok (List.replicate n (.fin false 0 0))) = .ok ds) :
    s.veVerdict k d =
      if op = 0xC then s.checked k [(field d 16 4, leBytes 4 (rsum ((s.veOperand k (field d 8 4) n).map enc32)))]
      else if op = 0xD then s.checked k [(field d 16 4, leBytes 4 (rmax ((s.veOperand k (field d 8 4) n).map enc32)))]
      else s.checked k [(field d 16 4, packEls 0 ((((s.veOperand k (field d 8 4) n).map to32).zip ((bs.map to32).zip (ds.map to32))).map
        (fun x => enc32 (veElem op x.1 x.2.1 x.2.2))))] := by
  obtain ⟨-, -, -, hop', hfi, hfo, hfl, hn, hn1, hn2, hz, ha⟩ := h
  unfold State.veVerdict
  simp only [hop', hfi, hfo, hfl, hn, Nat.zero_testBit, Bool.false_eq_true, if_false, Bool.not_false, Bool.and_true]
  rw [if_neg, State.values_fp32 ha, hb, hd]
  · dsimp only
    have hmx : isMx 0 = false := rfl
    rw [convertAll_fp32, List.map_map, hmx]
    simp only [Bool.false_eq_true, if_false, List.append_nil, State.veOperand, List.map_map, Function.comp_def]
  · simp only [hz, elemKind, isMx]
    simp
    omega

theorem State.checked_ok {w : List (Nat × List Byte)} (h : s.writable k w = true) : s.checked k w = .ok { writes := w } := if_pos h

/-- Results of four bytes each in open memory are written. -/
theorem State.checked_fp32 {a : Nat} {xs : List Nat} (hn : xs.length = n) (h : localOk s.comp.run k a (4 * n) true = true) :
    s.checked k [(a, packEls 0 xs)] = .ok { writes := [(a, packEls 0 xs)] } :=
  State.checked_ok (by simp [State.writable, packEls_length, hn, h])

end

theorem State.veOperand_length (s : State) (k a n : Nat) : (s.veOperand k a n).length = n := by
  simp [State.veOperand]

theorem State.floats_eq (s : State) (k a n : Nat) : s.floats k a n = (s.veOperand k a n).map to32 := by
  simp only [State.floats, State.veOperand, List.map_map, Function.comp_def]

/-- Pairing with a constant list of the same length only adds the constant. -/
theorem zip_replicate {α β γ : Type} (xs : List α) (c : β) {n : Nat} (hn : xs.length = n) (g : α × β → γ) :
    (xs.zip (List.replicate n c)).map g = xs.map (fun x => g (x, c)) := by
  subst hn
  induction xs with
  | nil => rfl
  | cons x xs ih => simp only [List.length_cons, List.replicate_succ, List.zip_cons_cons, List.map_cons, ih]

theorem zip_zip_replicate {α β γ δ : Type} (xs : List α) (ys : List β) (c : γ) {n : Nat} (hn : ys.length = n) (g : α × β × γ → δ) :
    (xs.zip (ys.zip (List.replicate n c))).map g = (xs.zip ys).map (fun x => g (x.1, x.2, c)) := by
  subst hn
  induction ys generalizing xs with
  | nil => cases xs <;> rfl
  | cons y ys ih =>
    cases xs with
    | nil => rfl
    | cons x xs => simp only [List.length_cons, List.replicate_succ, List.zip_cons_cons, List.map_cons, ih]

section

variable {s : State} {k e op n desc : Nat} {d : List Byte}

/-- An operation on two arrays. -/
theorem State.vePlain.binary (h : s.vePlain k e op n d desc) (he : e = 1 ∨ e = 2) (hop : 1 ≤ op ∧ op ≤ 6 ∧ op ≠ 4)
    (hb : localOk s.comp.run k (field d 12 4) (4 * n) false = true) (hw : localOk s.comp.run k (field d 16 4) (4 * n) true = true)
    (g : Num → Num → Num) (hg : ∀ x y z, veElem op x y z = g x y) :
    s.verdict k e desc = .ok { writes := [(field d 16 4, packEls 0 (((s.floats k (field d 8 4) n).zip (s.floats k (field d 12 4) n)).map
      (fun x => enc32 (g x.1 x.2))))] } := by
  have htakes : veTakesB op = true := by simp [veTakesB, hop.1, hop.2.1]
  rw [h.verdict he, h.result ⟨hop.1, by omega⟩ (bs := s.veOperand k (field d 12 4) n) (ds := List.replicate n (.fin false 0 0))
    (by rw [if_pos htakes]; exact State.values_fp32 hb) (by rw [if_neg hop.2.2]), if_neg (by omega), if_neg (by omega),
    List.map_replicate, zip_zip_replicate _ _ _ (by simp [State.veOperand_length])]
  simp only [hg, State.floats_eq]
  exact State.checked_fp32 (by simp [State.veOperand_length]) hw

/-- An operation on one array. -/
theorem State.vePlain.unary (h : s.vePlain k e op n d desc) (he : e = 1 ∨ e = 2) (hop : 7 ≤ op ∧ op ≤ 11)
    (hw : localOk s.comp.run k (field d 16 4) (4 * n) true = true) (g : Num → Num) (hg : ∀ x y z, veElem op x y z = g x) :
    s.verdict k e desc = .ok { writes := [(field d 16 4, packEls 0 ((s.floats k (field d 8 4) n).map (fun x => enc32 (g x))))] } := by
  have htakes : veTakesB op = false := by
    simp only [veTakesB, Bool.and_eq_false_iff, decide_eq_false_iff_not]
    omega
  rw [h.verdict he, h.result ⟨by omega, by omega⟩ (bs := List.replicate n (f32 (field d 20 4))) (ds := List.replicate n (.fin false 0 0))
    (by rw [htakes]; rfl) (by rw [if_neg (by omega)]), if_neg (by omega), if_neg (by omega), List.map_replicate, List.map_replicate,
    zip_zip_replicate _ _ _ (by simp), zip_replicate _ _ (by simp [State.veOperand_length])]
  simp only [hg, State.floats_eq]
  exact State.checked_fp32 (by simp [State.veOperand_length]) hw

/-- A reduction of one array. -/
theorem State.vePlain.reduction (h : s.vePlain k e op n d desc) (he : e = 1 ∨ e = 2) (hop : op = 0xC ∨ op = 0xD)
    (hw : localOk s.comp.run k (field d 16 4) 4 true = true) :
    s.verdict k e desc = .ok { writes := [(field d 16 4, leBytes 4 ((if op = 0xC then rsum else rmax)
      ((unpackEls 0 (s.localBytes k (field d 8 4) (4 * n)) n).map (fun x => enc32 (f32 x)))))] } := by
  have htakes : veTakesB op = false := by
    simp only [veTakesB, Bool.and_eq_false_iff, decide_eq_false_iff_not]
    omega
  have hmap : (s.veOperand k (field d 8 4) n).map enc32
      = (unpackEls 0 (s.localBytes k (field d 8 4) (4 * n)) n).map (fun x => enc32 (f32 x)) := by
    simp only [State.veOperand, List.map_map, Function.comp_def]
  have hok : ∀ v, s.writable k [(field d 16 4, leBytes 4 v)] = true := fun v => by simp [State.writable, hw]
  rw [h.verdict he, h.result ⟨by omega, by omega⟩ (bs := List.replicate n (f32 (field d 20 4))) (ds := List.replicate n (.fin false 0 0))
    (by rw [htakes]; rfl) (by rw [if_neg (by omega)]), hmap]
  rcases hop with rfl | rfl
  · exact (if_pos rfl).trans (State.checked_ok (hok _))
  · exact (if_neg (by decide)).trans ((if_pos rfl).trans (State.checked_ok (hok _)))

/-- The fused multiply-add of three arrays, the third the old result. -/
theorem State.vePlain.fma (h : s.vePlain k e 4 n d desc) (he : e = 1 ∨ e = 2)
    (hb : localOk s.comp.run k (field d 12 4) (4 * n) false = true) (hd : localOk s.comp.run k (field d 16 4) (4 * n) false = true)
    (hw : localOk s.comp.run k (field d 16 4) (4 * n) true = true) :
    s.verdict k e desc = .ok { writes := [(field d 16 4, packEls 0 (((s.floats k (field d 8 4) n).zip ((s.floats k (field d 12 4) n).zip
      (s.floats k (field d 16 4) n))).map (fun x => enc32 (to32 (addNum (mulNum x.1 x.2.1) x.2.2)))))] } := by
  rw [h.verdict he, h.result ⟨by decide, by decide⟩ (bs := s.veOperand k (field d 12 4) n) (ds := s.veOperand k (field d 16 4) n)
    ((if_pos rfl).trans (State.values_fp32 hb)) ((if_pos rfl).trans (State.values_fp32 hd)), if_neg (by decide), if_neg (by decide)]
  simp only [State.floats_eq]
  exact State.checked_fp32 (by simp [State.veOperand_length]) hw

end

/-- Settles O19: a plain descriptor gives the operation on its operands element by element, in one of four shapes. -/
theorem vectorResults : Obligations.VectorResults := by
  unfold Obligations.VectorResults
  refine ⟨?add, ?sub, ?mul, ?fma, ?max, ?min, ?cvt, ?exp2, ?log2, ?rcp, ?rsqrt, ?rsum, ?rmax, fun bs n i h => unpackEls_get bs h,
    fun xs i h => packEls_field xs h⟩
  case add => exact fun s k e n desc d he h hb hw => h.binary he (by decide) hb hw (fun x y => to32 (addNum x y)) (fun _ _ _ => rfl)
  case sub => exact fun s k e n desc d he h hb hw => h.binary he (by decide) hb hw (fun x y => to32 (addNum x (negNum y))) (fun _ _ _ => rfl)
  case mul => exact fun s k e n desc d he h hb hw => h.binary he (by decide) hb hw (fun x y => to32 (mulNum x y)) (fun _ _ _ => rfl)
  case fma => exact fun s k e n desc d he h hb hd hw => h.fma he hb hd hw
  case max => exact fun s k e n desc d he h hb hw => h.binary he (by decide) hb hw (fun x y => to32 (maxNum x y)) (fun _ _ _ => rfl)
  case min => exact fun s k e n desc d he h hb hw => h.binary he (by decide) hb hw (fun x y => to32 (minNum x y)) (fun _ _ _ => rfl)
  case cvt => exact fun s k e n desc d he h hw => h.unary he (by decide) hw id (fun _ _ _ => rfl)
  case exp2 => exact fun s k e n desc d he h hw => h.unary he (by decide) hw (fun x => f32 (approx 8 (enc32 x))) (fun _ _ _ => rfl)
  case log2 => exact fun s k e n desc d he h hw => h.unary he (by decide) hw (fun x => f32 (approx 9 (enc32 x))) (fun _ _ _ => rfl)
  case rcp => exact fun s k e n desc d he h hw => h.unary he (by decide) hw (fun x => f32 (approx 10 (enc32 x))) (fun _ _ _ => rfl)
  case rsqrt => exact fun s k e n desc d he h hw => h.unary he (by decide) hw (fun x => f32 (approx 11 (enc32 x))) (fun _ _ _ => rfl)
  case rsum => exact fun s k e n desc d he h hw => h.reduction he (.inl rfl) hw
  case rmax => exact fun s k e n desc d he h hw => h.reduction he (.inr rfl) hw

end Sys2Proof.Machine
end

section
/-! SUPPORT. The order of exact values, and lists put in order by it (R73, R213). -/

namespace Sys2Proof.Machine

/-! ### The order of values -/

/-- The rational that a sign, a magnitude and an exponent of two stand for. -/
def finValue (neg : Bool) (m : Nat) (e : Int) : ℚ := (if neg then -(m : ℚ) else m) * 2 ^ e

theorem scaled_eq {e q : Int} (neg : Bool) (m : Nat) (h : q ≤ e) : (scaled neg m e q : ℚ) = finValue neg m e * 2 ^ (-q) := by
  obtain ⟨n, hn⟩ : ∃ n : Nat, e - q = n := ⟨(e - q).toNat, by omega⟩
  have hpow : (2 : ℚ) ^ e * 2 ^ (-q) = 2 ^ n := by
    rw [← zpow_add₀ (by norm_num), ← zpow_natCast, ← hn]
    congr 1
  unfold scaled finValue
  rw [hn, mul_assoc, hpow]
  cases neg <;> simp

/-- Two scaled integers compare as the values do. -/
theorem scaled_compare {na nb : Bool} {ma mb : Nat} {ea eb q : Int} (ha : q ≤ ea) (hb : q ≤ eb) :
    (scaled na ma ea q = scaled nb mb eb q ↔ finValue na ma ea = finValue nb mb eb)
      ∧ (scaled na ma ea q < scaled nb mb eb q ↔ finValue na ma ea < finValue nb mb eb)
      ∧ (scaled na ma ea q = 0 ↔ finValue na ma ea = 0) := by
  have hpos : (0 : ℚ) < 2 ^ (-q) := by positivity
  have h1 := scaled_eq na ma ha
  have h2 := scaled_eq nb mb hb
  refine ⟨?_, ?_, ?_⟩
  · rw [← Int.cast_inj (α := ℚ), h1, h2]
    exact mul_left_inj' hpos.ne'
  · rw [← Int.cast_lt (R := ℚ), h1, h2]
    exact mul_lt_mul_iff_of_pos_right hpos
  · rw [← Int.cast_inj (α := ℚ), h1, Int.cast_zero]
    exact mul_eq_zero_iff_right hpos.ne'

/-- Where a value that is no NaN stands: minus infinity, a rational, or plus infinity; and minus zero below plus zero. -/
def Num.rank : Num → ℤ ×ₗ ℚ ×ₗ ℕ
  | .nan => toLex (0, toLex (0, 0))
  | .inf neg => toLex (if neg then -1 else 1, toLex (0, 0))
  | .fin neg m e => toLex (0, toLex (finValue neg m e, if finValue neg m e = 0 ∧ neg = true then 0 else 1))

theorem ltNum_fin (na nb : Bool) (ma mb : Nat) (ea eb : Int) :
    ltNum (.fin na ma ea) (.fin nb mb eb) = true ↔ Num.rank (.fin na ma ea) < Num.rank (.fin nb mb eb) := by
  obtain ⟨heq, hlt, hzero⟩ := scaled_compare (na := na) (nb := nb) (ma := ma) (mb := mb) (min_le_left ea eb) (min_le_right ea eb)
  simp only [ltNum, Num.rank, Prod.Lex.toLex_lt_toLex, lt_self_iff_false, false_or, true_and]
  by_cases h : finValue na ma ea = finValue nb mb eb
  · rw [if_pos (heq.2 h)]
    simp only [h, lt_self_iff_false, false_or, true_and, Bool.and_eq_true, decide_eq_true_eq, Bool.not_eq_true', hzero]
    by_cases h0 : finValue nb mb eb = 0 <;> cases na <;> cases nb <;> simp [h0]
  · rw [if_neg (fun he => h (heq.1 he))]
    simp only [h, false_and, or_false, decide_eq_true_eq, hlt]

/-- Values that are no NaN are in strict order as they stand. -/
theorem ltNum_iff {a b : Num} (ha : a ≠ .nan) (hb : b ≠ .nan) : ltNum a b = true ↔ a.rank < b.rank := by
  match a, b, ha, hb with
  | .fin na ma ea, .fin nb mb eb, _, _ => exact ltNum_fin na nb ma mb ea eb
  | .inf n, .inf m, _, _ => cases n <;> cases m <;> simp [ltNum, Num.rank, Prod.Lex.toLex_lt_toLex]
  | .inf n, .fin m x e, _, _ => cases n <;> simp [ltNum, Num.rank, Prod.Lex.toLex_lt_toLex]
  | .fin m x e, .inf n, _, _ => cases n <;> simp [ltNum, Num.rank, Prod.Lex.toLex_lt_toLex]

/-- An integer as a value stands where the integer does. -/
theorem ltNum_intNum (a b : Int) : ltNum (intNum a) (intNum b) = decide (a < b) := by
  have hs : ∀ i : Int, scaled (decide (i < 0)) i.natAbs 0 0 = i := fun i => by
    unfold scaled
    by_cases hi : i < 0
    · simp [hi, abs_of_neg hi]
    · simp [hi, abs_of_nonneg (not_lt.1 hi)]
  simp only [ltNum, intNum, min_self, hs]
  split
  · rename_i h
    subst h
    by_cases h0 : a = 0
    · simp [h0]
    · simp [h0]
  · rfl

/-! ### Lists in order -/

section

variable {α : Type} {le : α → α → Bool}

theorem mem_insertBy {a x : α} {l : List α} : x ∈ insertBy le a l ↔ x = a ∨ x ∈ l := by
  induction l with
  | nil => simp [insertBy]
  | cons b l ih =>
    unfold insertBy
    split
    · simp
    · simp only [List.mem_cons, ih]
      tauto

theorem mem_sortBy {x : α} {l : List α} : x ∈ sortBy le l ↔ x ∈ l := by
  induction l with
  | nil => rfl
  | cons a l ih => simp only [sortBy, mem_insertBy, ih, List.mem_cons]

theorem insertBy_length (a : α) (l : List α) : (insertBy le a l).length = l.length + 1 := by
  induction l with
  | nil => rfl
  | cons b l ih =>
    unfold insertBy
    split <;> simp [ih]

theorem sortBy_length (l : List α) : (sortBy le l).length = l.length := by
  induction l with
  | nil => rfl
  | cons a l ih => simp [sortBy, insertBy_length, ih]

variable {P : α → Prop} (total : ∀ a b, P a → P b → le a b = true ∨ le b a = true)
  (trans : ∀ a b c, P a → P b → P c → le a b = true → le b c = true → le a c = true)

include total trans

theorem insertBy_pairwise {a : α} {l : List α} (ha : P a) (hl : ∀ x ∈ l, P x) (h : l.Pairwise (fun x y => le x y = true)) :
    (insertBy le a l).Pairwise (fun x y => le x y = true) := by
  induction l with
  | nil => simp [insertBy]
  | cons b l ih =>
    obtain ⟨hb, hrest⟩ := List.pairwise_cons.1 h
    have hPb := hl b (.head _)
    have hPl : ∀ x ∈ l, P x := fun x hx => hl x (.tail _ hx)
    unfold insertBy
    split
    · rename_i hab
      refine List.pairwise_cons.2 ⟨fun x hx => ?_, h⟩
      rcases List.mem_cons.1 hx with rfl | hx
      · exact hab
      · exact trans a b x ha hPb (hPl x hx) hab (hb x hx)
    · rename_i hab
      refine List.pairwise_cons.2 ⟨fun x hx => ?_, ih hPl hrest⟩
      rcases mem_insertBy.1 hx with rfl | hx
      · exact (total b x hPb ha).resolve_right hab
      · exact hb x hx

/-- A list is in order once it has been put in order. -/
theorem sortBy_pairwise {l : List α} (hl : ∀ x ∈ l, P x) : (sortBy le l).Pairwise (fun x y => le x y = true) := by
  induction l with
  | nil => exact List.Pairwise.nil
  | cons a l ih =>
    exact insertBy_pairwise total trans (hl a (.head _)) (fun x hx => hl x (.tail _ (mem_sortBy.1 hx))) (ih (fun x hx => hl x (.tail _ hx)))

end

/-! ### The greatest of a list (R213) -/

/-- The order of Top-K: greater values first, and of equal ones the lower key. -/
def topLe {α : Type} (a b : Num × Nat × α) : Bool := ltNum b.1 a.1 || (!ltNum a.1 b.1 && decide (a.2.1 ≤ b.2.1))

theorem topLe_iff {α : Type} {a b : Num × Nat × α} (ha : a.1 ≠ .nan) (hb : b.1 ≠ .nan) :
    topLe a b = true ↔ b.1.rank < a.1.rank ∨ (b.1.rank ≤ a.1.rank ∧ a.2.1 ≤ b.2.1) := by
  have hba := ltNum_iff hb ha
  have hab : ltNum a.1 b.1 = false ↔ b.1.rank ≤ a.1.rank := by
    rw [← not_lt, ← ltNum_iff ha hb, Bool.not_eq_true]
  simp only [topLe, Bool.or_eq_true, Bool.and_eq_true, Bool.not_eq_true', decide_eq_true_eq, hba, hab]

theorem topLe_total {α : Type} (a b : Num × Nat × α) (ha : a.1 ≠ .nan) (hb : b.1 ≠ .nan) : topLe a b = true ∨ topLe b a = true := by
  rw [topLe_iff ha hb, topLe_iff hb ha]
  rcases lt_trichotomy a.1.rank b.1.rank with h | h | h
  · exact .inr (.inl h)
  · rcases Nat.le_total a.2.1 b.2.1 with hk | hk
    · exact .inl (.inr ⟨h.ge, hk⟩)
    · exact .inr (.inr ⟨h.le, hk⟩)
  · exact .inl (.inl h)

theorem topLe_trans {α : Type} (a b c : Num × Nat × α) (ha : a.1 ≠ .nan) (hb : b.1 ≠ .nan) (hc : c.1 ≠ .nan) :
    topLe a b = true → topLe b c = true → topLe a c = true := by
  rw [topLe_iff ha hb, topLe_iff hb hc, topLe_iff ha hc]
  rintro (h | ⟨h, hk⟩) (h' | ⟨h', hk'⟩)
  · exact .inl (h'.trans h)
  · exact .inl (h'.trans_lt h)
  · exact .inl (h'.trans_le h)
  · exact .inr ⟨h'.trans h, hk.trans hk'⟩

theorem topK_eq {α : Type} (k : Nat) (xs : List (Num × Nat × α)) :
    topK k xs = (sortBy topLe (xs.filter (fun x => x.1 != .nan))).take k := rfl

/-- Top-K names at most `k` candidates that are no NaN, in order. -/
theorem topK_spec {α : Type} (k : Nat) (xs : List (Num × Nat × α)) : (topK k xs).length ≤ k
    ∧ (∀ x ∈ topK k xs, x ∈ xs ∧ x.1 ≠ .nan)
    ∧ (topK k xs).Pairwise (fun a b => ltNum b.1 a.1 = true ∨ (ltNum a.1 b.1 = false ∧ a.2.1 ≤ b.2.1)) := by
  have hmem : ∀ x ∈ xs.filter (fun x => x.1 != .nan), x ∈ xs ∧ x.1 ≠ .nan := fun x hx => by
    rw [List.mem_filter, bne_iff_ne] at hx
    exact hx
  rw [topK_eq]
  refine ⟨List.length_take_le _ _, fun x hx => hmem x (mem_sortBy.1 (List.mem_of_mem_take hx)), ?_⟩
  have hsorted := sortBy_pairwise (P := fun x : Num × Nat × α => x.1 ≠ .nan) topLe_total topLe_trans (fun x hx => (hmem x hx).2)
  refine (hsorted.sublist (List.take_sublist k _)).imp (fun {a b} h => ?_)
  simpa [topLe] using h

/-- Where no candidate is a NaN, Top-K names as many as there are, up to `k`. -/
theorem topK_length {α : Type} {k : Nat} {xs : List (Num × Nat × α)} (h : ∀ x ∈ xs, x.1 ≠ .nan) : (topK k xs).length = min k xs.length := by
  rw [topK_eq, List.length_take, sortBy_length, List.filter_eq_self.2 (fun x hx => by simpa using h x hx)]

end Sys2Proof.Machine
end

section
/-! SUPPORT. What the matrix and the gather engine compute (R207 to R213). -/

namespace Sys2Proof.Machine

/-! ### Bytes of an open array -/

theorem localAt_add {k a i n : Nat} {r : Bool × Nat} (h : localAt k a = some r) (hle : a + n ≤ localEnd a) (hi : i < n) :
    localAt k (a + i) = some (r.1, r.2 + i) := by
  unfold localAt at h ⊢
  unfold localEnd at hle
  split at h
  · rename_i ha
    rw [if_pos ha] at hle
    rw [if_pos (by omega)]
    obtain rfl := Option.some.inj h
    simp [Nat.add_assoc]
  · rename_i ha
    split at h
    · rename_i ha'
      rw [if_neg ha, if_pos ha'.2] at hle
      rw [if_neg (by omega), if_pos (by omega)]
      obtain rfl := Option.some.inj h
      simp only [Option.some.injEq, Prod.mk.injEq, true_and]
      omega
    · split at h
      · rename_i ha1 ha2
        rw [if_neg ha, if_neg (by omega)] at hle
        rw [if_neg (by omega), if_neg (by omega), if_pos (by omega)]
        obtain rfl := Option.some.inj h
        simp only [Option.some.injEq, Prod.mk.injEq, true_and]
        omega
      · exact absurd h (by simp)

theorem Memory.bytes_slice (m : Memory) (x n i w : Nat) (h : i + w ≤ n) : ((m.bytes x n).drop i).take w = m.bytes (x + i) w := by
  apply List.ext_getElem?
  intro j
  simp only [Memory.bytes, List.getElem?_take, List.getElem?_drop, List.getElem?_map]
  split
  · rename_i hj
    rw [List.getElem?_range (show i + j < n by omega), List.getElem?_range hj]
    simp [Nat.add_assoc]
  · rename_i hj
    rw [List.getElem?_eq_none (by simpa using hj)]
    rfl

/-- Bytes of an open array are a slice of the whole. -/
theorem State.localBytes_slice {s : State} {k a n i w : Nat} {wr : Bool} (hok : localOk s.comp.run k a n wr = true) (h : i + w ≤ n)
    (hw : w ≠ 0) : s.localBytes k (a + i) w = ((s.localBytes k a n).drop i).take w := by
  have hn : n ≠ 0 := by omega
  obtain ⟨r, hr⟩ := Option.isSome_iff_exists.1 (localAt_of_localOk hn hok)
  have hle : a + n ≤ localEnd a := by
    unfold localOk at hok
    rw [hr] at hok
    simp only [beq_eq_false_iff_ne.2 hn, Bool.false_or, Bool.and_eq_true, decide_eq_true_eq] at hok
    exact hok.1
  have hr' := localAt_add (i := i) hr hle (by omega)
  obtain ⟨cl, x⟩ := r
  unfold State.localBytes
  rw [hr, hr']
  cases cl <;> exact (Memory.bytes_slice _ _ _ _ _ h).symm

/-- A word of an open array is the field of its bytes. -/
theorem State.localWord_eq {s : State} {k a n i : Nat} {wr : Bool} (hok : localOk s.comp.run k a (4 * n) wr = true) (hi : i < n) :
    leNat (s.localBytes k (a + 4 * i) 4) = field (s.localBytes k a (4 * n)) (4 * i) 4 := by
  rw [State.localBytes_slice hok (by omega) (by decide)]
  rfl

/-! ### Descriptors -/

section

variable {s : State} {k desc : Nat} {d : List Byte}

/-- The command of an engine that is not quarantined is judged by its descriptor. -/
theorem State.verdict_mxe (hq : (s.core k).quar.getLsbD 0 = false) (hok : localOk s.comp.run k desc 64 false = true)
    (hd : d = s.localBytes k desc 64) : s.verdict k 0 desc = s.mxeVerdict k d := by
  unfold State.verdict
  rw [hq, if_neg (by decide), hok, if_neg (by decide), hd]
  rfl

theorem State.verdict_gfe (hq : (s.core k).quar.getLsbD 3 = false) (hok : localOk s.comp.run k desc 64 false = true)
    (hd : d = s.localBytes k desc 64) : s.verdict k 3 desc = s.gfeVerdict k d := by
  unfold State.verdict
  rw [hq, if_neg (by decide), hok, if_neg (by decide), hd]
  rfl

/-- A descriptor of the MXE without flags and reserved bits names its operation. -/
theorem State.mxeVerdict_plain (ht : field d 1 1 < 8) (hf : field d 6 1 = 0) (hr : field d 38 2 = 0) (hz : allZero (d.drop 44) = true) :
    s.mxeVerdict k d = match field d 0 1 with
      | 1 => s.mxeMma k d | 2 => mxeZero d | 3 => s.mxeStore k d | 4 => s.mxeLoad k d | _ => .error 4 := by
  unfold State.mxeVerdict
  refine if_neg ?_
  rw [hf, hr, hz]
  simp [ht]

theorem State.gfeVerdict_local (hs : gfeShape d = true) (hp : gfePooled d = false) :
    s.gfeVerdict k d = match field d 0 1 with
      | 1 => s.gfeLocal k d false | 2 => s.gfeLocal k d true | 3 => s.gfeFilter k d | 4 => s.gfeTopk k d | _ => .error 4 := by
  unfold State.gfeVerdict
  simp only [hs, hp, Bool.not_true, Bool.false_eq_true, if_false] <;> rfl

/-! ### MXE -/

theorem State.mxeLoad_fp32 (hf : field d 2 1 = 0) (hst : field d 36 2 % 64 = 0)
    (hok : ∀ r, r < 16 → localOk s.comp.run k (field d 32 4 + r * field d 36 2) 128 false = true) :
    s.mxeLoad k d = .ok { tile := some (field d 1 1, { elems := tileOf (fun r c =>
      BitVec.ofNat 32 (leNat (s.localBytes k (field d 32 4 + r * field d 36 2 + 4 * c) 4))) }) } := by
  unfold State.mxeLoad
  dsimp only
  rw [if_neg (by simp [hf, hst]), if_neg (by simpa using hok), hf]
  rfl

theorem encodeEl_fp32 (i : Nat) (x : Num) : encodeEl 0 none false i x = enc32 x := rfl

theorem State.mxeStore_fp32 (hf : field d 6 1 = 0) (ho : field d 7 1 = 0) (hst : field d 36 2 % 64 = 0)
    (hint : (s.tile k (field d 1 1)).int = false)
    (hok : ∀ r, r < 16 → localOk s.comp.run k (field d 32 4 + r * field d 36 2) 128 true = true) :
    s.mxeStore k d = .ok { writes := (List.range 16).map (fun r => (field d 32 4 + r * field d 36 2, packEls 0 ((List.range 32).map
      (fun c => enc32 (f32 (Table.read 0 (s.tile k (field d 1 1)).elems (32 * r + c)).toNat))))) } := by
  have hmx : isMx 0 = false := rfl
  have hrow : ∀ (i : Nat) (xs : List Num), (convertAll 0 none false i xs).1 = packEls 0 (xs.map enc32) := fun i xs => by
    show packEls 0 (xs.zipIdx.map (fun x => encodeEl 0 none false (i + x.2) x.1)) = _
    refine congrArg _ ?_
    calc xs.zipIdx.map (fun x => encodeEl 0 none false (i + x.2) x.1) = (xs.zipIdx.map Prod.fst).map enc32 := by
          rw [List.map_map]
          exact List.map_congr_left (fun x _ => encodeEl_fp32 _ _)
      _ = xs.map enc32 := by rw [List.zipIdx_map_fst]
  unfold State.mxeStore
  simp only [hf, ho, hint, Nat.zero_testBit, Bool.false_eq_true, if_false, hmx, List.append_nil, List.map_map, Function.comp_def, hrow]
  rw [if_neg (by simp [elemKind, hst])]
  refine State.checked_ok ?_
  simp only [State.writable, List.all_map, List.all_eq_true, List.mem_range, Function.comp_apply, packEls_length, List.length_map,
    List.length_range]
  exact hok

/-! ### GFE -/

theorem State.gfeLocal_gather (hidx : localOk s.comp.run k (field d 8 4) (4 * field d 4 4) false = true)
    (hok : ∀ i, i < field d 4 4 →
      localOk s.comp.run k (field d 16 8 + leNat (s.localBytes k (field d 8 4 + 4 * i) 4) * field d 24 4) (field d 24 4) false = true
      ∧ localOk s.comp.run k (field d 12 4 + i * field d 24 4)
        (s.localBytes k (field d 16 8 + leNat (s.localBytes k (field d 8 4 + 4 * i) 4) * field d 24 4) (field d 24 4)).length true = true) :
    s.gfeLocal k d false = .ok { writes := (List.range (field d 4 4)).map (fun i => (field d 12 4 + i * field d 24 4,
      s.localBytes k (field d 16 8 + leNat (s.localBytes k (field d 8 4 + 4 * i) 4) * field d 24 4) (field d 24 4))) } := by
  unfold State.gfeLocal
  simp only [hidx, Bool.not_true, Bool.false_eq_true, if_false, State.gfeRows, State.localNat, List.map_map, Function.comp_def,
    List.all_map]
  rw [if_neg]
  · refine State.checked_ok ?_
    simp only [State.writable, List.all_map, List.all_eq_true, List.mem_range, Function.comp_apply]
    exact fun i hi => (hok i hi).2
  · simp only [Bool.not_eq_true', Bool.not_eq_false, List.all_eq_true, List.mem_range]
    exact fun i hi => (hok i hi).1

theorem State.gfeLocal_scatter (hidx : localOk s.comp.run k (field d 8 4) (4 * field d 4 4) false = true)
    (hok : ∀ i, i < field d 4 4 → localOk s.comp.run k (field d 8 4 + i * field d 24 4) (field d 24 4) false = true
      ∧ localOk s.comp.run k (field d 16 8 + leNat (s.localBytes k (field d 8 4 + 4 * i) 4) * field d 24 4)
        (s.localBytes k (field d 8 4 + i * field d 24 4) (field d 24 4)).length true = true) :
    s.gfeLocal k d true = .ok { writes := (List.range (field d 4 4)).map (fun i =>
      (field d 16 8 + leNat (s.localBytes k (field d 8 4 + 4 * i) 4) * field d 24 4,
        s.localBytes k (field d 8 4 + i * field d 24 4) (field d 24 4))) } := by
  unfold State.gfeLocal
  simp only [hidx, Bool.not_true, Bool.false_eq_true, if_false, if_true, State.gfeRows, State.localNat, List.map_map, Function.comp_def,
    List.all_map]
  rw [if_neg]
  · refine State.checked_ok ?_
    simp only [State.writable, List.all_map, List.all_eq_true, List.mem_range, Function.comp_apply]
    exact fun i hi => (hok i hi).2
  · simp only [Bool.not_eq_true', Bool.not_eq_false, List.all_eq_true, List.mem_range]
    exact fun i hi => (hok i hi).1

theorem packedBytes_int32 (n : Nat) : packedBytes 0xB n = 4 * n := by
  have : elemBits 0xB = 32 := rfl
  simp only [packedBytes, this]
  omega

/-- The words of an open array of 32-bit integers. -/
theorem State.unpackEls_int32 {n a : Nat} (hok : localOk s.comp.run k a (4 * n) false = true) :
    unpackEls 0xB (s.localBytes k a (4 * n)) n = (List.range n).map (fun i => leNat (s.localBytes k (a + 4 * i) 4)) := by
  refine List.map_congr_left (fun i hi => ?_)
  rw [State.localWord_eq hok (List.mem_range.1 hi), field_eq, pow32_eq]
  rfl

theorem elemValue_int32 (x : Nat) : elemValue 0xB x = intNum (sint 32 x) := rfl

theorem cmpHolds_less (a b : Int) (hi : Num) : cmpHolds 2 (intNum a) (intNum b) hi = decide (a < b) := by
  have hne : ∀ i, intNum i ≠ .nan := fun i => by simp [intNum]
  unfold cmpHolds
  rw [if_neg (by simp [hne])]
  exact ltNum_intNum a b

theorem flatMap_leBytes_length {α : Type} (xs : List α) (g : α → Nat) : (xs.flatMap (fun x => leBytes 4 (g x))).length = 4 * xs.length := by
  induction xs with
  | nil => rfl
  | cons x xs ih =>
    rw [List.flatMap_cons, List.length_append, ih, leBytes_length, List.length_cons]
    omega

/-- Indices of a mapped list whose elements pass a test. -/
theorem filter_zipIdx_map {α : Type} (f : Nat → α) (p : α → Bool) (n : Nat) :
    (((List.range n).map f).zipIdx.filter (fun x => p x.1)).map (·.2) = (List.range n).filter (fun i => p (f i)) := by
  have hzip : ((List.range n).map f).zipIdx = (List.range n).map (fun i => (f i, i)) := by
    refine List.ext_getElem (by simp) (fun i h1 h2 => ?_)
    simp
  rw [hzip, List.filter_map, List.map_map]
  exact (List.map_congr_left (fun i _ => rfl)).trans (List.map_id _)

theorem State.gfeFilter_less (hf : field d 3 1 = 0xB) (hc : field d 2 1 = 2)
    (hsrc : localOk s.comp.run k (field d 8 4) (4 * field d 4 4) false = true) {keep : List Nat}
    (hkeep : keep = (List.range (field d 4 4)).filter (fun i =>
      decide (sint 32 (leNat (s.localBytes k (field d 8 4 + 4 * i) 4)) < sint 32 (field d 28 4))))
    (hdst : localOk s.comp.run k (field d 12 4) (4 * keep.length) true = true)
    (hcnt : localOk s.comp.run k (field d 36 4) 4 true = true) :
    s.gfeFilter k d = .ok { writes := [(field d 12 4, keep.flatMap (fun i => leBytes 4 i)), (field d 36 4, leBytes 4 keep.length)] } := by
  have hlo : field d 28 4 % 2 ^ elemBits 0xB = field d 28 4 := by
    rw [field_eq]
    exact Nat.mod_eq_of_lt (Nat.mod_lt _ (by decide))
  have hmx : isMx 0xB = false := rfl
  unfold State.gfeFilter
  simp only [hf, hc, State.operand, packedBytes_int32, hsrc, if_true, hlo, elemValues, hmx, Bool.false_eq_true, if_false,
    State.unpackEls_int32 hsrc, List.map_map]
  rw [if_neg (by decide), filter_zipIdx_map _ (fun v => cmpHolds 2 v (elemValue 0xB (field d 28 4))
    (elemValue 0xB (field d 32 4 % 2 ^ elemBits 0xB)))]
  simp only [Function.comp_apply, elemValue_int32, cmpHolds_less, ← hkeep]
  refine State.checked_ok ?_
  simp only [State.writable, List.all_cons, List.all_nil, flatMap_leBytes_length keep (fun i => i), hdst, leBytes_length, hcnt, Bool.and_self]

theorem State.gfeTopk_int32 (hf : field d 3 1 = 0xB) (hk1 : 1 ≤ field d 24 4) (hk2 : field d 24 4 ≤ 1024)
    (hsrc : localOk s.comp.run k (field d 8 4) (4 * field d 4 4) false = true) {best : List (Num × Nat × Nat)}
    (hbest : best = topK (field d 24 4) ((List.range (field d 4 4)).map (fun i =>
      (intNum (sint 32 (leNat (s.localBytes k (field d 8 4 + 4 * i) 4))), i, leNat (s.localBytes k (field d 8 4 + 4 * i) 4)))))
    (hdst : localOk s.comp.run k (field d 12 4) (4 * min (field d 24 4) (field d 4 4)) true = true)
    (hval : localOk s.comp.run k (field d 12 4 + 4 * field d 24 4) (4 * min (field d 24 4) (field d 4 4)) true = true) :
    s.gfeTopk k d = .ok { writes := [(field d 12 4, best.flatMap (fun y => leBytes 4 y.2.1)),
      (field d 12 4 + 4 * field d 24 4, packEls 0xB (best.map (fun y => y.2.2)))] } := by
  have hlen : best.length = min (field d 24 4) (field d 4 4) := by
    rw [hbest, topK_length, List.length_map, List.length_range]
    simp [intNum]
  have hzip : (((List.range (field d 4 4)).map (fun i => leNat (s.localBytes k (field d 8 4 + 4 * i) 4))).zipIdx.map
      (fun x => (elemValue 0xB x.1, x.2, x.1))) = (List.range (field d 4 4)).map (fun i =>
      (intNum (sint 32 (leNat (s.localBytes k (field d 8 4 + 4 * i) 4))), i, leNat (s.localBytes k (field d 8 4 + 4 * i) 4))) := by
    refine List.ext_getElem (by simp) (fun i h1 h2 => ?_)
    simp [elemValue_int32]
  have hpack : (packEls 0xB (best.map (fun y => y.2.2))).length = 4 * best.length := by
    rw [packEls, leBytes_length, packedBytes_int32, List.length_map]
  unfold State.gfeTopk
  simp only [hf, State.operand, packedBytes_int32, hsrc, if_true, State.unpackEls_int32 hsrc, hzip, ← hbest]
  rw [if_neg (by simp [gfeFmtOk]; omega)]
  refine State.checked_ok ?_
  simp only [State.writable, List.all_cons, List.all_nil, flatMap_leBytes_length best (fun y => y.2.1), hlen, hpack, hdst, hval,
    Bool.and_self]

end

end Sys2Proof.Machine
end

section
/-! SUPPORT. The matrix engine's multiply-accumulate on 8-bit integers (R207, R208). -/

namespace Sys2Proof.Machine

theorem filter_range_eq {w j : Nat} (hj : j < w) : (List.range w).filter (fun i => i == j) = [j] := by
  rw [List.filter_beq, List.count_eq_one_of_mem List.nodup_range (List.mem_range.2 hj)]
  rfl

/-- The places of one row of an array in k-major order. -/
theorem filter_range_mod {w j : Nat} (hj : j < w) (n : Nat) :
    (List.range (w * n)).filter (fun i => i % w == j) = (List.range n).map (fun t => w * t + j) := by
  induction n with
  | zero => simp
  | succ n ih =>
    have hrow : ((List.range w).map (fun i => w * n + i)).filter (fun i => i % w == j) = [w * n + j] := by
      have hcongr : ∀ i ∈ List.range w, ((fun i => i % w == j) ∘ fun i => w * n + i) i = (i == j) := fun i hi => by
        simp only [Function.comp_apply, Nat.mul_add_mod, Nat.mod_eq_of_lt (List.mem_range.1 hi)]
      rw [List.filter_map, List.filter_congr hcongr, filter_range_eq hj]
      rfl
    rw [Nat.mul_succ, List.range_add, List.filter_append, ih, List.range_succ, List.map_append]
    exact congrArg _ hrow

/-- One row of an array in k-major order. -/
theorem rowOf_eq {α : Type} (f : Nat → α) {w j : Nat} (hj : j < w) (n : Nat) :
    ((((List.range (w * n)).map f).zipIdx.filter (fun x => x.2 % w == j)).map (fun x => x.1)) = (List.range n).map (fun t => f (w * t + j)) := by
  have hzip : ((List.range (w * n)).map f).zipIdx = (List.range (w * n)).map (fun i => (f i, i)) := by
    refine List.ext_getElem (by simp) (fun i h1 h2 => ?_)
    simp
  have hfilter : ((fun x : α × Nat => x.2 % w == j) ∘ fun i => (f i, i)) = fun i => i % w == j := rfl
  rw [hzip, List.filter_map, List.map_map, hfilter, filter_range_mod hj, List.map_map]
  rfl

/-- An integer from the value that stands for it. -/
theorem sign_natAbs (i : Int) : (if decide (i < 0) = true then (-1 : Int) else 1) * ((i.natAbs : Int) * 2 ^ (0 : Int).toNat) = i := by
  by_cases h : i < 0
  · simp [h, abs_of_neg h]
  · simp [h, abs_of_nonneg (not_lt.1 h)]

theorem sint_toNat (b : BitVec 32) : sint 32 b.toNat = b.toInt := by
  rw [sint, BitVec.toInt_eq_toNat_cond]
  rfl

/-- Accumulation modulo 2^32. -/
theorem ofNat_wrap (b : BitVec 32) (i : Int) : BitVec.ofNat 32 (wrap 32 (sint 32 b.toNat + i)) = b + BitVec.ofInt 32 i := by
  have hwrap : ∀ j : Int, BitVec.ofNat 32 (wrap 32 j) = BitVec.ofInt 32 j := fun j => by
    apply BitVec.eq_of_toNat_eq
    simp only [wrap, BitVec.toNat_ofNat, BitVec.toNat_ofInt]
    have : (j % (2 : Int) ^ 32).toNat < 2 ^ 32 := by omega
    rw [Nat.mod_eq_of_lt this]
    rfl
  rw [hwrap, BitVec.ofInt_add, sint_toNat, BitVec.ofInt_toInt]

theorem packedBytes_int8 (n : Nat) : packedBytes 0xA n = n := by
  have : elemBits 0xA = 8 := rfl
  simp only [packedBytes, this]
  omega

/-- The elements of an array of 8-bit integers are its bytes. -/
theorem unpackEls_int8 (bs : List Byte) (n : Nat) : unpackEls 0xA bs n = (List.range n).map (fun i => field bs i 1) := by
  refine List.map_congr_left (fun i _ => ?_)
  have hpow : (256 : Nat) ^ i = 2 ^ (8 * i) := by rw [pow_mul]; rfl
  rw [field_eq, hpow]
  rfl

theorem elemValue_int8 (x : Nat) : elemValue 0xA x = intNum (sint 8 x) := rfl

section

variable {s : State} {k : Nat} {d : List Byte}

theorem State.mxeMma_int8 (hf : field d 6 1 = 0) (ha : field d 2 1 = 0xA) (hb : field d 3 1 = 0xA)
    (hint : (s.tile k (field d 1 1)).int = true) (hk1 : 1 ≤ field d 4 2) (hk2 : field d 4 2 ≤ 0x8000) (hk : field d 4 2 % 2 = 0)
    (hoa : localOk s.comp.run k (field d 8 4) (16 * field d 4 2) false = true)
    (hob : localOk s.comp.run k (field d 12 4) (32 * field d 4 2) false = true) :
    s.mxeMma k d = .ok { tile := some (field d 1 1, { int := true, elems := tileOf (fun r c =>
      Table.read 0 (s.tile k (field d 1 1)).elems (32 * r + c) + BitVec.ofInt 32 (((List.range (field d 4 2)).map (fun j =>
        sint 8 (field (s.localBytes k (field d 8 4) (16 * field d 4 2)) (16 * j + r) 1)
          * sint 8 (field (s.localBytes k (field d 12 4) (32 * field d 4 2)) (32 * j + c) 1))).sum)) }) } := by
  have hmx : isMx 0xA = false := rfl
  have hkd : kdOf 0xA = 2 := rfl
  have hrow : ∀ (w j : Nat) (bs : List Byte), j < w →
      ((((unpackEls 0xA bs (w * field d 4 2)).map (elemValue 0xA)).zipIdx.map (fun x => x.1)).zipIdx.filter (fun x => x.2 % w == j)).map
        (fun x => x.1) = (List.range (field d 4 2)).map (fun t => intNum (sint 8 (field bs (w * t + j) 1))) := fun w j bs hj => by
    rw [unpackEls_int8, List.map_map, List.zipIdx_map_fst, rowOf_eq _ hj]
    rfl
  unfold State.mxeMma
  simp only [hf, ha, hb, hint, hmx, hkd, State.operand, packedBytes_int8, hoa, hob, Nat.zero_testBit, Bool.false_eq_true, if_false, if_true]
  rw [if_neg (by simp; omega)]
  refine congrArg (fun e => (Except.ok { tile := some (field d 1 1, { int := true, elems := e }) } : Verdict)) ?_
  refine List.foldl_ext _ _ _ (fun m i hi => congrArg (Table.write 0 m i) ?_)
  have hr : i / 32 < 16 := by have := List.mem_range.1 hi; omega
  have hc : i % 32 < 32 := Nat.mod_lt _ (by decide)
  rw [ofNat_wrap]
  refine congrArg (fun z => _ + BitVec.ofInt 32 z) ?_
  simp only [List.getD_eq_getElem?_getD, List.getElem?_map, List.getElem?_range hr, List.getElem?_range hc, Option.map_some,
    Option.getD_some, hrow _ _ _ hr, hrow _ _ _ hc, List.zip_map', List.map_map, Function.comp_def]
  refine congrArg List.sum (List.map_congr_left (fun j _ => ?_))
  simp only [intNum, sign_natAbs]

end

/-- Settles O20: the verdict of each descriptor, from the results of its engine. -/
theorem matrixAndGatherResults : Obligations.MatrixAndGatherResults := by
  unfold Obligations.MatrixAndGatherResults
  refine ⟨?zero, ?zeroInt, ?zeroBad, ?load, ?store, ?mma, ?gather, ?scatter, ?filter, fun k xs => topK_spec k xs, ?topk⟩
  case zero =>
    intro s k desc d hq hok hd hop ht hf hr hz hfmt
    rw [State.verdict_mxe hq hok hd, State.mxeVerdict_plain ht hf hr hz, hop]
    simp only [mxeZero, hfmt]
  case zeroInt =>
    intro s k desc d hq hok hd hop ht hf hr hz hfmt
    rw [State.verdict_mxe hq hok hd, State.mxeVerdict_plain ht hf hr hz, hop]
    rcases hfmt with h | h <;> simp only [mxeZero, h]
  case zeroBad =>
    intro s k desc d hq hok hd hop ht hf hr hz h0 hA hB
    rw [State.verdict_mxe hq hok hd, State.mxeVerdict_plain ht hf hr hz, hop]
    simp only [mxeZero]
  case load =>
    intro s k desc d hq hok hd hop ht hf hr hz hfmt hst hrows
    rw [State.verdict_mxe hq hok hd, State.mxeVerdict_plain ht hf hr hz, hop]
    exact State.mxeLoad_fp32 hfmt hst hrows
  case store =>
    intro s k desc d hq hok hd hop ht hf hr hz ho hst hint hrows
    rw [State.verdict_mxe hq hok hd, State.mxeVerdict_plain ht hf hr hz, hop]
    exact State.mxeStore_fp32 hf ho hst hint hrows
  case mma =>
    intro s k desc d hq hok hd hop ht hf hr hz ha hb hint hk1 hk2 hk hoa hob
    rw [State.verdict_mxe hq hok hd, State.mxeVerdict_plain ht hf hr hz, hop]
    exact State.mxeMma_int8 hf ha hb hint hk1 hk2 hk hoa hob
  case gather =>
    intro s k desc d hq hok hd hop hs hp hidx hrows
    rw [State.verdict_gfe hq hok hd, State.gfeVerdict_local hs hp, hop]
    exact State.gfeLocal_gather hidx hrows
  case scatter =>
    intro s k desc d hq hok hd hop hs hp hidx hrows
    rw [State.verdict_gfe hq hok hd, State.gfeVerdict_local hs hp, hop]
    exact State.gfeLocal_scatter hidx hrows
  case filter =>
    intro s k desc d hq hok hd hop hs hp hfmt hcmp hsrc hdst hcnt
    rw [State.verdict_gfe hq hok hd, State.gfeVerdict_local hs hp, hop]
    exact State.gfeFilter_less hfmt hcmp hsrc rfl hdst hcnt
  case topk =>
    intro s k desc d hq hok hd hop hs hp hfmt hk1 hk2 hsrc hdst hval
    rw [State.verdict_gfe hq hok hd, State.gfeVerdict_local hs hp, hop]
    exact State.gfeTopk_int32 hfmt hk1 hk2 hsrc rfl hdst hval

end Sys2Proof.Machine
end

section
/-! SUPPORT. Pool completions (R200, R205). -/

namespace Sys2Proof.Machine

set_option Elab.async false

/-- A store that has failed, on its way to thread 0. -/
def failedStore : ThreadComp := { n := 0, tid := 0, sink := .posted, frame := { opcode := 0x55, status := 1 } }

/-- A running module whose core 0 lists thread 5 twice: the first entry, the one that is read, waits for its requests, and the second,
which is never read, waits for room. -/
def staleEntry : State :=
  let s := State.reset
  let s := ({ s with mod := { s.mod with state := .service } } : State)
  s.onCore 0 (fun c => { c with
    comps := [failedStore]
    threads := [(0, { state := .ready, statusCode := 1 }), (5, { state := .waitMem, wait := .mcnt 10 }), (5, { state := .waitMem })] })

theorem staleEntry_waits (i : Nat) (h : (staleEntry.thread 0 i).state = .waitMem) : (staleEntry.thread 0 i).wait ≠ .none := by
  have hcore : (staleEntry.core 0).threads
      = [(0, { state := .ready, statusCode := 1 }), (5, { state := .waitMem, wait := .mcnt 10 }), (5, { state := .waitMem })] := by
    rw [staleEntry, State.core_onCore_same]
  have hthread : staleEntry.thread 0 i
      = if i = 0 then { state := .ready, statusCode := 1 } else if i = 5 then { state := .waitMem, wait := .mcnt 10 } else {} := by
    rw [State.thread, hcore]
    simp only [Table.read]
    split
    · rfl
    · split <;> rfl
  rw [hthread] at h ⊢
  by_cases h0 : i = 0
  · exact absurd h (by simp [h0])
  · by_cases h5 : i = 5
    · simp [h5]
    · exact absurd h (by simp [h0, h5])

/-- The completion makes the module look at thread 5, whose requests are few enough, so it goes on. -/
theorem staleEntry_goes_on : ((staleEntry.after (.corePoolCompletion 0 0 0)).thread 0 5).state = .ready
    ∧ (staleEntry.thread 0 5).state = .waitMem := by decide +kernel

/-- Refutes O22: where the list of threads of a core holds a second entry of a thread, never read, that waits for room, the
completion of a failed store lets the thread itself look again; it waits for something else that has come about, and goes on, while
the statement has every other thread as it was. -/
theorem not_poolCompletions : ¬ Obligations.PoolCompletions := by
  unfold Obligations.PoolCompletions
  rintro ⟨-, -, -, -, -, hfailed⟩
  obtain ⟨t, hexec, -, -, -, honly⟩ := hfailed staleEntry 0 0 0 failedStore (by decide +kernel) (by decide +kernel) rfl rfl (by decide +kernel)
    (by decide +kernel) (by decide +kernel) rfl (by decide) (by decide +kernel) staleEntry_waits
  obtain ⟨-, -, -, -, hothers, -⟩ := honly
  obtain ⟨hready, hwaits⟩ := staleEntry_goes_on
  have hthread := hothers 5 (by decide)
  rw [State.after_eq hexec] at hready
  have hkeep : t.thread 0 5 = staleEntry.thread 0 5 := by
    refine Eq.trans ?_ hthread
    simp [State.thread, State.core]
  rw [hkeep, hwaits] at hready
  exact absurd hready (by decide)

end Sys2Proof.Machine
end

section
/-! SUPPORT. Requests at their homes, where the statements about them do not hold: a port whose base is no base, and a block whose
form reaches into the place of the next (chapters 03, 08 and 09). -/

namespace Sys2Proof.Machine

set_option Elab.async false

/-! ### A module that serves one extent -/

/-- Unit 0x20 is pavilion 2, and unit 0x30 lies behind port 2. -/
def servedUnits : Section :=
  { ty := 4, inst := 0, len := 0x20000, cells := [(0x40, 2), (0x41, 0x40), (0x60, 2), (0x61, 0x80)] }

/-- Pavilion 2, without a parent, has core 5. -/
def servedPavilion : Section := { ty := 5, inst := 2, len := 2048, cells := [(0, 0x20), (2, 0xFF), (16, 8), (48, 0x20)] }

/-- A program of core 5. -/
def servedProgram : Section :=
  { ty := 11, inst := 0, len := 1024, cells := [(0, 1), (2, 1), (7, 1), (9, 1), (96, 5), (106, 3), (111, 1)] }

/-- The address at which the block that is valid in T0 begins, at TVA 0x4800. -/
def servedAddr : Nat := 2 ^ 30 + 0x8800

/-- A running module with one extent, of tenant 7 and open to every unit; one block of it is valid in T0. -/
def served : State :=
  let s := State.reset
  let leaf : TlbEntry := { tenant := 7, tva := 0x4000, size := 14, fpa := 2 ^ 30 + 0x8000, w := true }
  let s := ({ s with
    mod := { s.mod with state := .service }
    comp := { s.comp with run := [servedUnits, servedPavilion, servedProgram] }
    xl := { s.xl with tlb := [(0, [leaf]), (69, [leaf])] } } : State)
  let s := s.setExtent 1 { state := .active, pv := 2, tenant := 7, share := 1 }
  let s := s.setSector (2 ^ 19 + 17) { valid := BitVec.allOnes 32 }
  s.onCore 5 (fun c => { c with pvUnit := 0x20, tenant := 7 })

/-- The extent in coherent domain 2, whose agent 0 is unit 0x30 and owns the first line of the block. -/
def State.owning (s : State) : State :=
  let s := s.setExtent 1 { s.extent 1 with coherent := true, dom := 2 }
  let s := s.onDom 2 (fun x => { x with tenant := 7, state := .up, enable := true, members := [(0, 0x30)] })
  s.setDir (fpaLine servedAddr) { state := .o, dom := 2, sharers := 0 }

/-- A request of unit 0x30 for the first line of the block. -/
def request (op : BitVec 8) (vc : BitVec 3) (payload : List Byte) : Frame :=
  { opcode := op, vc := vc, dst := 0x20, src := 0x30, tenant := 7, addr := 0x4800, length := 1, tag := 9, payload := payload }

/-! ### A port whose base is no base -/

/-- The same module with an A port, port 2, whose base is port 1, and port 1 set down as second in a bundle of base 0. -/
def State.cross (s : State) : State :=
  (s.onLink 1 (fun l => { l with cls := 0, state := .opened, tenantSet := [7], bundleOff := 1 })).onLink 2
    (fun l => { l with bundleOff := 1 })

/-- Nothing waits on port 1. -/
def State.silent (t : State) : Prop := ∀ e ∈ (t.port 1).tc.queues, e.2.all = []

theorem State.silent.not_queuedOn {t : State} (h : t.silent) (f : Frame) : ¬ t.queuedOn 1 f := by
  rintro ⟨e, he, x, hx, -⟩
  rw [h e he] at hx
  exact absurd hx List.not_mem_nil

theorem cross_base : served.cross.base 2 = 1 := by decide +kernel

theorem cross_load_silent : (served.cross.after (.ldPeek 2 (request 0x11 2 []))).silent := by
  unfold State.silent
  decide +kernel

theorem cross_blockWrite_silent : (served.cross.after (.sbWr 2 (request 0x90 7 (fill 64 5)))).silent := by
  unfold State.silent
  decide +kernel

theorem cross_atomic_silent : (served.cross.after (.apAdd 2 (request 0x28 2 (fill 64 0)))).silent := by
  unfold State.silent
  decide +kernel

theorem cross_evict_silent : (served.owning.cross.after (.cEvict 2 (request 0x44 0 []))).silent := by
  unfold State.silent
  decide +kernel

/-- Refutes O23: a load taken at the base of a port, where that base lies in a bundle itself, is answered out of the base of the base,
so that its answer is in no queue of the port. -/
theorem not_loadsAnswer : ¬ Obligations.LoadsAnswer := by
  unfold Obligations.LoadsAnswer
  rintro ⟨-, hpeek, -⟩
  obtain ⟨t, hexec, hqueued, -⟩ := hpeek served.cross _ 2 (request 0x11 2 []) (request 0x11 2 []) servedAddr (by decide +kernel)
    (by decide +kernel) rfl (by decide +kernel) (by decide +kernel) (by decide +kernel) (by decide +kernel)
  rw [← State.after_eq hexec] at hqueued
  exact cross_load_silent.not_queuedOn _ (cross_base ▸ hqueued)

/-- Refutes O24: a block write taken at the base of a port, where that base lies in a bundle itself, is answered out of the base of the
base, so that its answer is in no queue of the port. -/
theorem not_storesAreStagedAndReleased : ¬ Obligations.StoresAreStagedAndReleased := by
  unfold Obligations.StoresAreStagedAndReleased
  rintro ⟨-, -, -, hblock, -⟩
  obtain ⟨t, hexec, -, -, hqueued, -⟩ := hblock served.cross _ 2 (request 0x90 7 (fill 64 5)) (request 0x90 7 (fill 64 5)) servedAddr
    (by decide +kernel) (by decide +kernel) rfl (by decide +kernel) (by decide +kernel) (by decide +kernel) (by decide +kernel)
    (by decide +kernel) (by decide +kernel) (by decide +kernel) (by decide +kernel)
  rw [← State.after_eq hexec] at hqueued
  exact cross_blockWrite_silent.not_queuedOn _ (cross_base ▸ hqueued)

/-- Refutes O25: a posted atomic taken at the base of a port, where that base lies in a bundle itself, is answered out of the base of
the base, so that its answer is in no queue of the port. -/
theorem not_atomicsActAtTheHome : ¬ Obligations.AtomicsActAtTheHome := by
  unfold Obligations.AtomicsActAtTheHome
  rintro ⟨-, -, -, -, hadd, -⟩
  obtain ⟨t, hexec, -, hqueued, -⟩ := hadd served.cross _ 2 (request 0x28 2 (fill 64 0)) (request 0x28 2 (fill 64 0)) servedAddr
    (by decide +kernel) (by decide +kernel) rfl (by decide +kernel) (by decide +kernel) (by decide +kernel) (by decide +kernel)
    (by decide +kernel) (by decide +kernel)
  rw [← State.after_eq hexec] at hqueued
  exact cross_atomic_silent.not_queuedOn _ (cross_base ▸ hqueued)

/-- Refutes O26: an eviction taken at the base of a port, where that base lies in a bundle itself, is granted out of the base of the
base, so that the grant is in no queue of the port. -/
theorem not_coherenceRequests : ¬ Obligations.CoherenceRequests := by
  unfold Obligations.CoherenceRequests
  rintro ⟨-, -, -, -, -, -, hevict⟩
  obtain ⟨t, hexec, -, hqueued, -⟩ := hevict served.owning.cross _ 2 (request 0x44 0 []) (request 0x44 0 []) servedAddr 2 0
    (by decide +kernel) (by decide +kernel) rfl (by decide +kernel) (by decide +kernel) (by decide +kernel)
  rw [← State.after_eq hexec] at hqueued
  exact cross_evict_silent.not_queuedOn _ (cross_base ▸ hqueued)

/-! ### A block whose form reaches into the place of the next -/

/-- The start of a block in CBF form of 17 sectors: 2,048 bytes of value 0xFF. It takes 2,176 bytes, of which the last 128 lie in the
place of the next block. -/
def widePlace : List Byte := [2, 8, 0, 0, 0, 17, 0, 0, 1] ++ fill 31 0 ++ [1]

/-- The block before the one that is valid in T0 holds such a form. -/
def State.overlap (s : State) : State :=
  let s := s.setSector (2 ^ 19 + 16) { tag := 17 }
  { s with tier := { s.tier with mem := s.tier.mem.write (2 ^ 30 + 0x8000) widePlace } }

/-- The first byte of the block before. -/
def wideByte : Nat := 2 ^ 30 + 0x8000

theorem wideByte_before (n : Nat) : wideByte < servedAddr ∨ servedAddr + n ≤ wideByte := Or.inl (by decide)

/-- A store of a value to the first word of the block loses the wide form of the block before. -/
def State.losesWide (s t : State) : Prop := s.homeByte wideByte ≠ t.homeByte wideByte

theorem State.losesWide.not_memStored {s t : State} (h : s.losesWide t) (v : List Byte) : ¬ s.memStored t servedAddr v :=
  fun hstored => h (hstored.2 wideByte (wideByte_before _)).symm

/-- Thread 3 of core 5 is about to add 1 to the first word of the block. -/
def adding : State :=
  served.overlap.onThread 5 3 (fun t => { t with state := .ready, pc := 0x01000000, x := [(1, 0x4800), (2, 1)] })

/-- The instruction of that thread: a fetching add of 8 bytes. -/
def addingIns : Ins := { xa := 1, xb := 2, fn := 4 }

theorem adding_losesWide : adding.losesWide (adding.after (.patm 5 3 addingIns)) := by
  unfold State.losesWide
  decide +kernel

/-- Refutes O21: an atomic add of a thread that writes the first bytes of a block of T0, where the block before it is marked as held in
17 sectors (one more than its place has, which no hypothesis excludes), changes what that block before expands to, so that other bytes
of T0 than the eight change. -/
theorem not_poolInstructions : ¬ Obligations.PoolInstructions := by
  unfold Obligations.PoolInstructions
  rintro ⟨-, -, -, -, -, -, hatomic, -⟩
  obtain ⟨t, hexec, -, hstored, -⟩ := hatomic adding 5 3 addingIns servedAddr (by decide +kernel) (by decide +kernel)
    (by decide +kernel) (by decide +kernel) (by decide +kernel) (by decide +kernel) (by decide +kernel) (by decide +kernel)
  exact (State.after_eq hexec ▸ adding_losesWide).not_memStored _ hstored

/-- A snoop of the first line of the block, for the revocation of its extent. -/
def revoking : Snoop :=
  { dom := 2, line := fpaLine servedAddr, agent := 0, op := 0x50, tag := 9, why := .revoke 1, heldTo := none, timer := 0 }

/-- The snoop is under way to the owner, unit 0x30 behind A port 2. -/
def snooping : State :=
  let s := served.owning.overlap
  let s := s.onLink 2 (fun l => { l with cls := 0, state := .opened, tenantSet := [7] })
  { s with coh := { s.coh with snoops := [revoking] } }

/-- The answer with the line's data. -/
def snoopAnswer : Frame :=
  { opcode := 0x5B, vc := 1, dst := 0xFFFF, src := 0x30, tenant := 7, length := 1, tag := 9, payload := fill 64 5 }

theorem snooping_losesWide : (snooping.entered 2 snoopAnswer).losesWide (snooping.after (.snpData 2 snoopAnswer)) := by
  unfold State.losesWide
  decide +kernel

/-- Refutes O27: the data of an owner, stored in the first line of a block of T0, change what the block before it expands to where that
one is marked as held in 17 sectors, so that other bytes of T0 than the line's change. -/
theorem not_responsesAndSnoops : ¬ Obligations.ResponsesAndSnoops := by
  unfold Obligations.ResponsesAndSnoops
  rintro ⟨-, -, -, -, -, -, -, -, -, -, -, -, -, hdata⟩
  obtain ⟨t, hexec, -, -, hstored, -⟩ := hdata snooping _ 2 snoopAnswer snoopAnswer revoking 1 (by decide +kernel) (by decide +kernel) rfl
    (by decide +kernel) (by decide +kernel) (by decide +kernel) (by decide +kernel) (by decide +kernel) (by decide +kernel)
    (by decide +kernel) (by decide +kernel) (by decide +kernel) (by decide +kernel) (by decide +kernel)
  have hline : 64 * revoking.line = servedAddr := by decide
  exact (State.after_eq hexec ▸ snooping_losesWide).not_memStored _ (hline ▸ hstored)

/-- A write through the page-table window of the value 1 to the first word of the block. -/
def windowWrite : Req :=
  { n := 0, origin := .ptw 0 true, stage := .staged, fpa := BitVec.ofNat 56 servedAddr
    frame := { opcode := 0x14, payload := splice (fill 64 0) 0 (leBytes 8 1) ++ leBytes 8 (255 * 2 ^ 0) } }

/-- The write is staged at its home. -/
def windowStaged : State :=
  let s := served.overlap
  { s with req := { s.req with reqs := [windowWrite] } }

theorem windowStaged_losesWide : windowStaged.losesWide (windowStaged.after (.storeRelease 0)) := by
  unfold State.losesWide
  decide +kernel

/-- Refutes O41: a write through the page-table window to the first bytes of a block of T0 changes what the block before it expands to
where that one is marked as held in 17 sectors, so that other bytes of T0 than the eight change. -/
theorem not_accessesOfTheAdapter : ¬ Obligations.AccessesOfTheAdapter := by
  unfold Obligations.AccessesOfTheAdapter
  rintro ⟨-, -, hrelease, -⟩
  obtain ⟨t, hexec, hstored, -⟩ := hrelease windowStaged 0 servedAddr 0 1 0 windowWrite (by decide +kernel) (by decide +kernel)
    (by decide +kernel) (by decide +kernel) (by decide +kernel) (by decide +kernel) (by decide +kernel) (by decide +kernel)
    (by decide +kernel) (by decide +kernel) (by decide +kernel) (by decide +kernel) (by decide +kernel) (by decide +kernel)
    (by decide +kernel) (by decide +kernel) (by decide +kernel) (by decide +kernel) (by decide +kernel) (by decide +kernel)
    (by decide +kernel)
  exact (State.after_eq hexec ▸ windowStaged_losesWide).not_memStored _ hstored

end Sys2Proof.Machine
end

section
/-! SUPPORT. Attention requests, where the statements about them do not hold: a port whose base is no base (chapter 11). -/

namespace Sys2Proof.Machine

set_option Elab.async false

/-- The cores of cluster 20 are SERVICE cores. -/
def attendingKinds : Section :=
  { ty := 10, inst := 0, len := 4096, cells := (List.range 8).map (fun j => (640 + 4 * j, 2)) }

/-- The module whose pavilion 2 has the handles of cluster 20, one of them bound for tenant 7. -/
def attending : State :=
  let s := served
  let s := { s with
    comp := { s.comp with run := attendingKinds :: s.comp.run }
    adm := { s.adm with recs := [(4, { pv := 2, tenant := 7, resv := { seq := 4, coll := 4 }, admitted := true })] }
    atn := { s.atn with pvs := [(2, { enable := true, first := 20, n := 1, adm := 4 })] } }
  s.onHandle 40965 (fun h => { h with state := .bound, tenant := 7 })

/-- A RELEASE of that handle. -/
def releasing : Frame :=
  { opcode := 0x80, vc := 5, dst := 0x20, src := 0x30, tenant := 7, length := 1, tag := 9, handle := 40965, payload := 3 :: fill 63 0 }

/-- The answer is on the trellis for another port than port 1. -/
theorem releasing_answer (f : Frame) : ¬ (attending.cross.after (.atnRelease 2 releasing)).bound 1 f := by
  have hsilent : (attending.cross.after (.atnRelease 2 releasing)).silent := by
    unfold State.silent
    decide +kernel
  have htransit : ∀ x ∈ (attending.cross.after (.atnRelease 2 releasing)).pkg.transit, x.port ≠ 1 := by decide +kernel
  rintro (hqueued | ⟨x, hx, hport, -⟩)
  · exact hsilent.not_queuedOn f hqueued
  · exact htransit x hx hport

/-- Refutes O30: a RELEASE taken at the base of a port, where that base lies in a bundle itself, is answered out of the base of the base,
so that its answer is not on its way out of the port. -/
theorem not_attentionHandles : ¬ Obligations.AttentionHandles := by
  unfold Obligations.AttentionHandles
  rintro ⟨-, hrelease, -⟩
  obtain ⟨t, hexec, -, -, hbound, -⟩ := hrelease attending.cross _ 2 releasing releasing (by decide +kernel) (by decide +kernel) rfl
    (by decide +kernel) (by decide +kernel) (by decide +kernel) (by decide +kernel) (by decide +kernel) (by decide +kernel)
    (by decide +kernel) (by decide +kernel) (by decide +kernel) (by decide +kernel) (by decide +kernel) (by decide +kernel)
  have hbase : attending.cross.base 2 = 1 := by decide +kernel
  rw [← State.after_eq hexec] at hbound
  exact releasing_answer _ (hbase ▸ hbound)

/-- An ATN.SUB that was sent out of port 1. -/
def openSub : SubReq := { unit := 0x40, port := 1, tag := 9, firstTok := 0, timer := 5 }

/-- The decode that sent it. -/
def openDecode : Decode :=
  { id := 6, origin := .port 2, frame := {}, handle := 0, isSub := false, fmt := 1, d := 64, h := 1, tp := 64, gb := 1, base := 2 ^ 21,
    toks := [(0, 2)], splits := [], subs := [openSub] }

/-- The module waits for an answer at port 1, now an S port. -/
def partAwaited : State :=
  let s := served.cross.onLink 1 (fun l => { l with cls := 2 })
  { s with atn := { s.atn with decodes := [openDecode] } }

/-- The last frame of the answer, under the lot key of the port. -/
def partFrame : Frame :=
  { opcode := 0x83, vc := 4, dst := 0xFFFF, src := 0x30, tenant := 7, length := 1, tag := 9, handle := 40965, payload := fill 64 1 }

/-- The same frame, taken from under the lot key. -/
def partPlain : Frame := (partAwaited.takenAs 2 partFrame).getD {}

theorem partFrame_taken : partAwaited.takenAs 2 partFrame = some partPlain := by
  have hsome : (partAwaited.takenAs 2 partFrame).isSome = true := by decide +kernel
  obtain ⟨g, hg⟩ := Option.isSome_iff_exists.mp hsome
  rw [partPlain, hg]
  rfl

theorem partAwaited_unanswered :
    (partAwaited.after (.atnPart 2 partFrame)).atn.decodes.map (fun x => x.subs.map (·.finished)) = [[false]] := by
  decide +kernel

/-- Refutes O31: the last frame of an ATN.PART taken at the base of a port, where that base lies in a bundle itself, is looked for among
the sub-requests of the base of the base, so that the one that was sent out of the port does not end. -/
theorem not_decodes : ¬ Obligations.Decodes := by
  unfold Obligations.Decodes
  rintro ⟨-, -, -, -, -, hpart, -⟩
  obtain ⟨t, hexec, hdecodes, -⟩ := hpart partAwaited _ 2 partFrame partPlain openDecode openSub (by decide +kernel) partFrame_taken rfl
    (by decide +kernel) (by decide +kernel) (by decide +kernel) (by decide +kernel) (by decide +kernel) (by decide +kernel)
    (by decide +kernel) (by decide +kernel) (by decide +kernel) (by decide +kernel) (by decide +kernel)
  have hfinished := partAwaited_unanswered
  rw [State.after_eq hexec, hdecodes] at hfinished
  exact absurd hfinished (by decide)

end Sys2Proof.Machine
end

section
/-! SUPPORT. Collectives, where the statements about them do not hold: a port whose base is no base, and an answer on VC6
(chapter 10). -/

namespace Sys2Proof.Machine

set_option Elab.async false

/-! ### A port whose base is no base -/

/-- Collective 5 of the module is open, and its parent lies behind port 2. -/
def parented : State :=
  served.cross.setColl 5 { state := .opened, role := 2, parentPort := 2, gen := 0 }

/-- The ABORT of that generation. -/
def aborting : Frame := { opcode := 0x7F, vc := 5, dst := 0x30, src := 0x30, tenant := 7, length := 0, tag := 9, handle := 5 }

/-- It goes back out of the module. -/
theorem parented_runs : ((parented.after (.abort 2 aborting)).coll 5).state = .opened := by decide +kernel

/-- Refutes O32: an ABORT of the parent, taken at the base of its port where that base lies in a bundle itself, is not known as the
parent's, since the base of the base is looked for: the generation goes on. -/
theorem not_collectivesAtTheirPorts : ¬ Obligations.CollectivesAtTheirPorts := by
  unfold Obligations.CollectivesAtTheirPorts
  rintro ⟨-, -, -, -, -, -, -, -, -, -, -, habort, -⟩
  obtain ⟨t, hexec, hcoll, -⟩ := habort parented _ 2 aborting aborting (by decide +kernel) (by decide +kernel) rfl (by decide +kernel)
    (by decide +kernel) (by decide +kernel) (by decide +kernel) (by decide +kernel)
  have hruns := parented_runs
  rw [State.after_eq hexec, show (5 : Nat) = aborting.collId from by decide, hcoll] at hruns
  exact absurd hruns (by simp)

/-! ### An answer on VC6 -/

/-- A ready root whose owning cluster is placed on the site of port die 7, and whose one contributor, of port 112, joined with a frame
that is answered on VC6. -/
def oddRoot : State :=
  let s := State.reset
  let s := ({ s with mod := { s.mod with state := .service }, pkg := { s.pkg with lcMap := [35] } } : State)
  s.setColl 5 { state := .committing, gen := 0, parts := [{ who := 0, origin := .port 112, n := 0, frame := { opcode := 0x61 } }] }

theorem oddRoot_answer (f : Frame) : ¬ (oddRoot.after (.collectiveCommit 5)).bound 112 f := by
  have hqueues : ∀ e ∈ ((oddRoot.after (.collectiveCommit 5)).port 112).tc.queues, e.2.all = [] := by decide +kernel
  have htransit : (oddRoot.after (.collectiveCommit 5)).pkg.transit = [] := by decide +kernel
  rintro (⟨e, he, x, hx, -⟩ | ⟨x, hx, -⟩)
  · rw [hqueues e he] at hx
    exact absurd hx List.not_mem_nil
  · rw [htransit] at hx
    exact absurd hx List.not_mem_nil

/-- Refutes O33: where the frame with which a contributor joined is no COLL.OPEN, and is answered on VC6, and where the spare map places
the owning cluster on a port die, the answer of a commit joins the control frames of its port, which are no queue of it. -/
theorem not_collectivesBindCommitAndAbort : ¬ Obligations.CollectivesBindCommitAndAbort := by
  unfold Obligations.CollectivesBindCommitAndAbort
  rintro ⟨-, -, -, -, -, -, -, hcommit, -⟩
  obtain ⟨t, hexec, -, -, -, -, hbound, -⟩ := hcommit oddRoot 5 (by decide +kernel) (by decide +kernel) (by decide +kernel)
    (by decide +kernel)
  have hpart : { who := 0, origin := .port 112, n := 0, frame := { opcode := 0x61 } } ∈ (oddRoot.coll (5 : BitVec 12).toNat).parts := by
    decide +kernel
  have hbase : oddRoot.base 112 = 112 := by decide +kernel
  have hodd := hbound _ hpart 112 rfl
  rw [← State.after_eq hexec, hbase] at hodd
  exact oddRoot_answer _ hodd

end Sys2Proof.Machine
end

section
/-! SUPPORT. Renewals of leases, where the statement about them does not hold: a port whose base is no base (chapter 06). -/

namespace Sys2Proof.Machine

set_option Elab.async false

/-- A LEASE.RENEW of unit 0x30, which has no lease. -/
def renewing : Frame :=
  { opcode := 0x61, vc := 6, dst := 0x30, src := 0x30, tenant := 7, length := 1, tag := 9, payload := leBytes 2 0x30 ++ fill 62 0 }

theorem renewing_answer (f : Frame) : ¬ (served.cross.after (.leaseRenew 2 renewing)).boundVc6 1 f := by
  have hvc6 : ((served.cross.after (.leaseRenew 2 renewing)).port 1).tc.vc6 = [] := by decide +kernel
  have htransit : ∀ x ∈ (served.cross.after (.leaseRenew 2 renewing)).pkg.transit, x.port ≠ 1 := by decide +kernel
  rintro (hqueued | ⟨x, hx, hport, -⟩)
  · rw [hvc6] at hqueued
    exact absurd hqueued List.not_mem_nil
  · exact htransit x hx hport

/-- Refutes O35: a LEASE.RENEW taken at the base of a port, where that base lies in a bundle itself, is answered out of the base of the
base, so that the LEASE.ACK is not on its way out of the port. -/
theorem not_leasesThroughTheirLife : ¬ Obligations.LeasesThroughTheirLife := by
  unfold Obligations.LeasesThroughTheirLife
  rintro ⟨-, -, -, -, -, -, -, -, -, hrenew⟩
  obtain ⟨t, hexec, -, ⟨q, hbound, -⟩, -⟩ := hrenew served.cross _ 2 renewing renewing (by decide +kernel) (by decide +kernel) rfl
    (by decide +kernel)
  rw [← State.after_eq hexec] at hbound
  exact renewing_answer _ (cross_base ▸ hbound)

end Sys2Proof.Machine
end

section
/-! SUPPORT. Invalidation of every translation, where the statement about it does not hold: a cached leaf beyond the 56-bit range
(chapter 07). -/

namespace Sys2Proof.Machine

set_option Elab.async false

/-- A translation buffer holds a leaf above the largest virtual address, and the scope of the next invalidation is everything. -/
def outlying : State :=
  let s := State.reset
  { s with
    mod := { s.mod with state := .service }
    adk := { s.adk with state := .up }
    xl := { s.xl with invAll := true, tlb := [(0, [{ tenant := 7, tva := 2 ^ 56, size := 14, fpa := 0, w := false }])] } }

/-- The scope of an invalidation ends at 2 ^ 56, so the leaf above it stays. -/
theorem outlying_keeps_leaf : Table.read [] (outlying.after (.trnInvGo 0)).xl.tlb 0 ≠ [] := by decide +kernel

/-- Refutes O39: TRN_INV_GO with ALL removes what overlaps the addresses below 2 ^ 56, and leaves a cached leaf above them. -/
theorem not_walksAndInvalidation : ¬ Obligations.WalksAndInvalidation := by
  unfold Obligations.WalksAndInvalidation
  rintro ⟨-, -, -, -, -, -, hall, -⟩
  have hwrites : outlying.writes 0 (trnAddr 0x020) 1 .operator := by decide +kernel
  obtain ⟨t, hexec, -, hempty, -⟩ := hall outlying 0 hwrites rfl rfl rfl
  rw [← State.after_eq hexec] at hempty
  exact outlying_keeps_leaf (hempty 0).1

end Sys2Proof.Machine
end

section
/-! SUPPORT. Restores of dropped pages, where the statement about them does not hold: the leaf lies behind a block whose form reaches
into the place of its own (chapter 11). -/

namespace Sys2Proof.Machine

set_option Elab.async false

/-- The leaf at the start of the block, which marks the page of 16 KB before the block as dropped. -/
def droppedLeaf : Nat := 2 ^ 30 + 0x8007

/-- A store to the dropped page waits for its restore. -/
def restoring : Req :=
  { n := 0, origin := .port 2, stage := .restoring, fpa := BitVec.ofNat 56 (2 ^ 30 + 0x8000), leaf := some servedAddr
    frame := { opcode := 0x12, dst := 0x20, src := 0x30, tenant := 7, length := 1 } }

/-- The start of a block in CBF form of 17 sectors, each of its 2,048 elements in 8 bits: the last 40 of them lie in the place of the
next block. -/
def fullPlace : List Byte := [2, 8, 0, 0, 0, 17, 0, 0] ++ fill 32 8

/-- The last byte of the block before, which lies in the place of the next one. -/
def fullByte : Nat := 2 ^ 30 + 0x8000 + 2047

/-- The block before the one that is valid in T0 holds such a form, and its own begins with some bytes. -/
def State.filled (s : State) (first : List Byte) : State :=
  let s := s.setSector (2 ^ 19 + 16) { tag := 17 }
  { s with tier := { s.tier with mem := (s.tier.mem.write (2 ^ 30 + 0x8000) fullPlace).write servedAddr first } }

theorem fullByte_before (n : Nat) : fullByte < servedAddr ∨ servedAddr + n ≤ fullByte := Or.inl (by decide)

/-- The page has a slot by now, and the leaf lies in T0. -/
def restorable : State :=
  let s := (served.filled (leBytes 8 droppedLeaf)).setPage (fpaPage (2 ^ 30 + 0x8000)) { res := 1 }
  { s with
    req := { s.req with reqs := [restoring], nextN := 1 } }

theorem restorable_loses : (restorable.after (.kvRestore 0)).homeByte fullByte ≠ restorable.homeByte fullByte := by decide +kernel

/-- Refutes O40: the swap that sets a leaf in the first bytes of a block of T0 changes what the block before it expands to where that one
is marked as held in 17 sectors, so that other bytes of T0 than the leaf change. -/
theorem not_restoresAndRoom : ¬ Obligations.RestoresAndRoom := by
  unfold Obligations.RestoresAndRoom
  rintro ⟨hrestore, -⟩
  obtain ⟨t, hexec, hstored, -⟩ := hrestore restorable 0 servedAddr droppedLeaf restoring (by decide +kernel) (by decide +kernel)
    (by decide +kernel) (by decide +kernel) (by decide +kernel) (by decide +kernel) (by decide +kernel) (by decide +kernel)
    (by decide +kernel) (by decide +kernel) (by decide +kernel) (by decide +kernel) (by decide +kernel) (by decide +kernel)
    (by decide +kernel) (by decide +kernel) (by decide +kernel) (by decide +kernel) (by decide +kernel) (by decide +kernel)
    (by decide +kernel) (by decide +kernel) (by decide +kernel)
  rw [← State.after_eq hexec] at hstored
  exact restorable_loses (hstored.2 fullByte (fullByte_before _))

end Sys2Proof.Machine
end

section
/-! SUPPORT. A handoff record that is rolled back, where the statement about it does not hold: the block before the record's is held in
a form that reaches into the place of the record (chapter 13). -/

namespace Sys2Proof.Machine

set_option Elab.async false

/-- The first 16 bytes of a handoff record that is under way. -/
def handoffRecord : List Byte := [0, 0, 0, 0, 2] ++ fill 11 3

/-- A registration of the record, whose timer has run out. -/
def handedOff : State :=
  let s := served.filled handoffRecord
  { s with comp := { s.comp with hofs := [(0, { line := BitVec.ofNat 50 (fpaLine servedAddr), timer := some 0 })] } }

theorem handedOff_loses : (handedOff.after (.handoffTimerExpiry 0)).homeByte fullByte ≠ handedOff.homeByte fullByte := by
  decide +kernel

/-- Refutes O45: rolling back a handoff record at the start of a block of T0 changes what the block before it expands to where that one
is marked as held in 17 sectors, so that other bytes of T0 than the record's change. -/
theorem not_epochsFlipAndWindowsClose : ¬ Obligations.EpochsFlipAndWindowsClose := by
  unfold Obligations.EpochsFlipAndWindowsClose
  rintro ⟨-, -, -, -, -, -, -, -, -, -, -, -, hexpiry⟩
  obtain ⟨t, hexec, hstored, -⟩ := hexpiry handedOff 0 0 (by decide +kernel) (by decide +kernel) (by decide +kernel) (by decide +kernel)
    (by decide +kernel) (by decide +kernel) (by decide +kernel) (by decide +kernel) (by decide +kernel) (by decide +kernel)
    (by decide +kernel)
  have hline : 64 * (Table.read ({} : Hof) handedOff.comp.hofs (0 : BitVec 10).toNat).line.toNat = servedAddr := by decide +kernel
  rw [← State.after_eq hexec, hline] at hstored
  exact handedOff_loses (hstored.2 fullByte (fullByte_before _))

end Sys2Proof.Machine
end

section
/-! SUPPORT. The adapter link: rejected frames, acknowledgements, replays, training (chapter 17). -/

namespace Sys2Proof.Machine

/-- A state from which only the adapter link has been replaced. -/
theorem State.withAdk_only (s : State) (x) : s.changesOnly { s with adk := x } [.adk] := only_refl s _ |>.adk (by simp) x

theorem State.withAdkEvq_only (s : State) (x y) : s.changesOnly { s with adk := x, evq := y } [.adk, .evq] :=
  ((only_refl s [.adk, .evq]).adk (by simp) x).evq (by simp) y

/-! ### Counts -/

theorem bump_small {c : BitVec 64} (h : c.toNat + 2 < 2 ^ 64) : bump c = (c + 1, false, false) :=
  if_pos (by omega)

theorem State.countAdk_crc {s : State} (h : s.adk.cntCrc.toNat + 2 < 2 ^ 64) :
    s.countAdk 0 = { s with adk := { s.adk with cntCrc := s.adk.cntCrc + 1 } } := by
  simp [State.countAdk, bump_small h, satSet, State.satEvent]

theorem State.countAdk_replay {s : State} (h : s.adk.cntReplay.toNat + 2 < 2 ^ 64) :
    s.countAdk 1 = { s with adk := { s.adk with cntReplay := s.adk.cntReplay + 1 } } := by
  simp [State.countAdk, bump_small h, satSet, State.satEvent]

/-! ### Rejected frames -/

theorem execAdkFrameReject_counts {s : State} {btype : BitVec 8} {words : List (BitVec 64)} {low crc : BitVec 32}
    (hup : s.adk.state = .up ∨ s.adk.state = .init)
    (hbad : ((btype == 0xA5 && crc != adkCrc words low) || !([0x1E, 0xA5, 0x5A, 0xC3] : List (BitVec 8)).contains btype) = true)
    (hcnt : s.adk.cntCrc.toNat + 2 < 2 ^ 64) :
    execAdkFrameReject btype words low crc s = .next { s with adk := { s.adk with
      nak := s.adk.nak || (btype == 0xA5 && crc != adkCrc words low), cntCrc := s.adk.cntCrc + 1 } } := by
  refine congrArg Host.Outcome.next ((if_pos ⟨hup, hbad⟩).trans ?_)
  exact State.countAdk_crc hcnt

theorem execAdkFrameReject_idle {s : State} {btype : BitVec 8} {words : List (BitVec 64)} {low crc : BitVec 32}
    (h : ¬ ((s.adk.state = .up ∨ s.adk.state = .init) ∧
      ((btype == 0xA5 && crc != adkCrc words low) || !([0x1E, 0xA5, 0x5A, 0xC3] : List (BitVec 8)).contains btype) = true)) :
    execAdkFrameReject btype words low crc s = .next s :=
  congrArg Host.Outcome.next (if_neg h)

/-! ### Sending, acknowledging, replaying -/

/-- The adapter link after a flush that has nothing to send. -/
def Adk.flushed (l : Adk) (now : FT) : Adk := { l with ackAt := if l.unacked.isEmpty then now else l.ackAt }

theorem State.adkFlush_of_outq_nil {s : State} (h : s.adk.outq = []) :
    s.adkFlush = { s with adk := Adk.flushed s.adk s.now } := by
  simp [State.adkFlush, h, Adk.flushed]

theorem State.adkReplay_again {s : State} (hfew : s.adk.replays < 8) (hcnt : s.adk.cntReplay.toNat + 2 < 2 ^ 64) :
    s.adkReplay = { s with adk := { s.adk with replays := s.adk.replays + 1, ackAt := s.now, cntReplay := s.adk.cntReplay + 1 } } :=
  (if_neg (by omega)).trans (State.countAdk_replay (s := { s with adk := { s.adk with replays := s.adk.replays + 1, ackAt := s.now } }) hcnt)

theorem State.adkReplay_retrains {s : State} (hmany : 8 ≤ s.adk.replays) : s.adkReplay = s.adkRetrain := if_pos hmany

/-- The oldest frame is acknowledged, with nothing that waits to be sent. -/
theorem State.adkAck_first {s : State} {seq : BitVec 12} {f : AdkFrame} {rest : List (BitVec 12 × AdkFrame)}
    (hunacked : s.adk.unacked = (seq, f) :: rest) (hout : s.adk.outq = []) (hlost : s.evq.lost = 0) :
    s.adkAck seq = { s with
      adk := Adk.flushed { s.adk with unacked := rest, ackAt := s.now, replays := 0 } s.now
      evq := { s.evq with queue := s.evq.queue.drop f.records, sent := s.evq.sent - f.records } } := by
  have hfind : s.adk.unacked.findIdx? (fun e => e.1 == seq) = some 0 := by simp [hunacked, List.findIdx?_cons]
  have hacked : s.adkAck seq = (({ s with
      adk := { s.adk with unacked := rest, ackAt := s.now, replays := 0 }
      evq := { s.evq with queue := s.evq.queue.drop f.records, sent := s.evq.sent - f.records } } : State).noteLost).adkFlush := by
    unfold State.adkAck
    rw [hfind]
    simp [hunacked]
  rw [hacked, State.noteLost_of_lost_eq_zero, State.adkFlush_of_outq_nil]
  · rfl
  · exact hout
  · exact hlost

/-! ### LINKCTL -/

theorem execAdkLinkctl_idle {s : State} {word : LinkCtl} (h : word.good = false ∨ s.adk.state = .down ∨ s.adk.state = .training) :
    execAdkLinkctl word s = .next s := by
  refine congrArg Host.Outcome.next (if_pos ?_)
  rcases h with h | h | h <;> simp [h]

theorem execAdkLinkctl_up {s : State} {word : LinkCtl} (hgood : word.good = true) (hup : s.adk.state = .up) (hinit : word.init = false) :
    execAdkLinkctl word s = .next (
      let u : State := { s with adk := { s.adk with evCredit := word.evCredit } }
      let v := if word.ackV then u.adkAck word.ackSeq else u
      if word.nak then v.adkReplay else v) := by
  refine congrArg Host.Outcome.next ((if_neg ?_).trans ((if_neg ?_).trans (if_neg ?_))) <;> simp [hgood, hup, hinit]

theorem execAdkLinkctl_init {s : State} {word : LinkCtl} (hgood : word.good = true) (hstate : s.adk.state = .init)
    (hinit : word.init = true) : execAdkLinkctl word s = .next (s.adkInit word) := by
  refine congrArg Host.Outcome.next ((if_neg ?_).trans (if_pos ?_)) <;> simp [hgood, hstate, hinit]

/-- What the link takes from the word of the other side in INIT, once its sequences are settled. -/
def Adk.joined (l : Adk) (w : LinkCtl) (now : FT) : Adk :=
  Adk.flushed { l with
    state := .up, evInit := w.evCredit, evCredit := 0, nak := false, replays := 0, ackAt := now
    evSent := BitVec.ofNat 16 ((l.unacked.map (fun (e : BitVec 12 × AdkFrame) => e.2.records)).sum) } now

theorem State.adkInit_resets {s : State} {w : LinkCtl} (hreset : w.reset = true) (hout : s.adk.outq = []) :
    s.adkInit w = { s with
      adk := Adk.joined { s.adk with unacked := [], txSeq := 0, rxSeq := 0, rxAny := false, fresh := BitVec.allOnes 32, owedAck := none }
        w s.now
      evq := { s.evq with sent := 0 } } := by
  unfold State.adkInit
  rw [hreset, if_pos rfl, State.adkFlush_of_outq_nil]
  · rfl
  · exact hout

theorem State.adkInit_keeps {s : State} {w : LinkCtl} (hreset : w.reset = false) (hack : w.ackV = false) (hout : s.adk.outq = []) :
    s.adkInit w = { s with adk := Adk.joined s.adk w s.now } := by
  unfold State.adkInit
  rw [hreset, if_neg (by simp), hack, if_neg (by simp), State.adkFlush_of_outq_nil]
  · rfl
  · exact hout

/-! ### The statement -/

/-- Settles O54: each row is one branch of its definition, with what it puts in the place of the adapter link's state. -/
theorem theAdapterLink : Obligations.TheAdapterLink := by
  unfold Obligations.TheAdapterLink
  refine ⟨?badFrame, ?badBlock, ?goodFrame, ?noLink, ?acks, ?naks, ?naksLast, ?resets, ?keeps, ?noWord, ?sends, ?nothingOwed, ?replays,
    ?replaysLast, ?inTime, ?trained, ?off, ?trainsAgain, ?notTraining, ?lost⟩
  case badFrame =>
    intro s words low crc hup hcrc hcnt
    have hbad : (crc != adkCrc words low) = true := bne_iff_ne.2 hcrc
    refine ⟨_, execAdkFrameReject_counts hup (by simp [hcrc]) hcnt, ?_, s.withAdk_only _⟩
    simp [hcrc]
  case badBlock =>
    intro s btype words low crc hup h1 h2 h3 h4 hcnt
    have hother : ([0x1E, 0xA5, 0x5A, 0xC3] : List (BitVec 8)).contains btype = false := by
      simpa using And.intro h1 (And.intro h2 (And.intro h3 h4))
    have hframe : (btype == 0xA5) = false := beq_eq_false_iff_ne.2 h2
    refine ⟨_, execAdkFrameReject_counts hup (by rw [hother]; exact Bool.or_true _) hcnt, ?_, s.withAdk_only _⟩
    simp only [hframe, Bool.false_and, Bool.or_false]
  case goodFrame =>
    intro s words low crc hcrc
    exact execAdkFrameReject_idle (by simp [hcrc])
  case noLink =>
    intro s btype words low crc hup hinit
    exact execAdkFrameReject_idle (by simp [hup, hinit])
  case acks =>
    intro s word f rest hgood hup hinit hnak hack hunacked hout hlost
    have hacked := State.adkAck_first (s := { s with adk := { s.adk with evCredit := word.evCredit } }) hunacked hout hlost
    have hexec := execAdkLinkctl_up hgood hup hinit
    simp only [hack, hnak, if_true, Bool.false_eq_true, if_false, hacked] at hexec
    exact ⟨_, hexec, rfl, rfl, ite_self _, rfl, hup, rfl, rfl, s.withAdkEvq_only _ _⟩
  case naks =>
    intro s word hgood hup hinit hnak hack hfew hcnt
    have hexec := execAdkLinkctl_up hgood hup hinit
    simp only [hack, hnak, if_true, Bool.false_eq_true, if_false] at hexec
    have hagain := State.adkReplay_again (s := { s with adk := { s.adk with evCredit := word.evCredit } }) hfew hcnt
    exact ⟨_, hexec.trans (congrArg Host.Outcome.next hagain), rfl, s.withAdk_only _⟩
  case naksLast =>
    intro s word hgood hup hinit hnak hack hmany
    have hexec := execAdkLinkctl_up hgood hup hinit
    simp only [hack, hnak, if_true, Bool.false_eq_true, if_false] at hexec
    have hretrains := State.adkReplay_retrains (s := { s with adk := { s.adk with evCredit := word.evCredit } }) hmany
    exact ⟨_, hexec.trans (congrArg Host.Outcome.next hretrains), rfl, s.withAdk_only _⟩
  case resets =>
    intro s word hgood hstate hinit hreset hout
    refine ⟨_, (execAdkLinkctl_init hgood hstate hinit).trans (congrArg Host.Outcome.next (State.adkInit_resets hreset hout)), rfl, rfl, rfl, rfl,
      rfl, rfl, rfl, rfl, rfl, s.withAdkEvq_only _ _⟩
  case keeps =>
    intro s word hgood hstate hinit hreset hack hout
    exact ⟨_, (execAdkLinkctl_init hgood hstate hinit).trans (congrArg Host.Outcome.next (State.adkInit_keeps hreset hack hout)), rfl, rfl, rfl,
      rfl, rfl, rfl, s.withAdk_only _⟩
  case noWord => exact fun s word h => execAdkLinkctl_idle h
  case sends => exact fun s h => ⟨_, congrArg Host.Outcome.next (if_pos h), rfl, s.withAdk_only _⟩
  case nothingOwed =>
    intro s hup howed hnak
    exact congrArg Host.Outcome.next (if_neg (by rw [hup, howed, hnak]; decide))
  case replays =>
    intro s hup hunacked hlate hfew hcnt
    exact ⟨_, congrArg Host.Outcome.next ((if_pos ⟨hup, hunacked, hlate⟩).trans (State.adkReplay_again hfew hcnt)), rfl, s.withAdk_only _⟩
  case replaysLast =>
    intro s hup hunacked hlate hmany
    exact ⟨_, congrArg Host.Outcome.next ((if_pos ⟨hup, hunacked, hlate⟩).trans (State.adkReplay_retrains hmany)), rfl, s.withAdk_only _⟩
  case inTime => exact fun s hearly => congrArg Host.Outcome.next (if_neg (fun ⟨_, _, hlate⟩ => absurd hlate (Nat.not_le.2 hearly)))
  case trained =>
    exact fun s hdown hon hsd hboot => ⟨_, congrArg Host.Outcome.next (if_pos ⟨hdown, hon, hsd, hboot⟩), rfl, s.withAdk_only _⟩
  case off => exact fun s hoff => congrArg Host.Outcome.next (if_neg (fun h => h.2.1 hoff))
  case trainsAgain =>
    exact fun s htraining hlate => ⟨_, congrArg Host.Outcome.next (if_pos ⟨htraining, hlate⟩), rfl, s.withAdk_only _⟩
  case notTraining => exact fun s h => congrArg Host.Outcome.next (if_neg (fun hc => h hc.1))
  case lost => exact fun s => ⟨_, rfl, rfl, s.withAdk_only _⟩

end Sys2Proof.Machine
end

section
/-! SUPPORT. An entry written to the trouble log is held there, whether it is appended or merged (R364, R366). -/

namespace Sys2Proof.Machine

/-- The log holds an entry of a class, detail and source. -/
def State.logged (s : State) (cls detail : Nat) (sr : BitVec 16) : Prop :=
  ∃ x ∈ s.log.entries, x.2.cls = BitVec.ofNat 8 cls ∧ x.2.detail = BitVec.ofNat 8 detail ∧ x.2.src = sr

theorem State.logged.of_entries {s t : State} {cls detail : Nat} {sr : BitVec 16} (h : s.logged cls detail sr)
    (ht : t.log.entries = s.log.entries) : t.logged cls detail sr := by
  unfold State.logged
  rwa [ht]

theorem State.event_changesOnly (s : State) (code detail : Nat) (sr : BitVec 16) (param logSeq : Nat) :
    s.changesOnly (s.event code detail sr param logSeq) [.adk, .evq] :=
  State.event_only s code detail sr param logSeq (only_refl s _) (List.Subset.refl _)

@[simp] theorem State.event_log (s : State) (code detail : Nat) (sr : BitVec 16) (param logSeq : Nat) :
    (s.event code detail sr param logSeq).log = s.log :=
  s.event_changesOnly code detail sr param logSeq .log (by decide)

/-- What a new entry merges into has its source, class and detail. -/
theorem State.mergeInto_mem {s : State} {cls detail q : Nat} {sr : BitVec 16} (h : s.mergeInto cls detail sr = some q) :
    ∃ e ∈ s.log.entries, e.2.cls.toNat = cls ∧ e.2.detail.toNat = detail ∧ e.2.src = sr := by
  unfold State.mergeInto at h
  split at h
  · exact absurd h (by simp)
  · obtain ⟨e, hfind, -⟩ := Option.map_eq_some_iff.1 h
    have hmem := List.mem_reverse.1 (List.mem_of_find?_eq_some hfind)
    have hp := List.find?_some hfind
    simp only [Bool.and_eq_true, beq_iff_eq] at hp
    exact ⟨e, hmem, hp.1.1.1.2, hp.1.1.2, hp.1.1.1.1⟩

/-- Raising REPEAT keeps the class, detail and source of every entry. -/
theorem State.repeatLog_logged {s : State} {e : Nat × LogEntry} (h : e ∈ s.log.entries) (q : Nat) :
    ∃ x ∈ (s.repeatLog q).log.entries, x.2.cls = e.2.cls ∧ x.2.detail = e.2.detail ∧ x.2.src = e.2.src := by
  refine ⟨_, List.mem_map_of_mem h, ?_⟩
  split <;> exact ⟨rfl, rfl, rfl⟩

theorem State.appendLog_logged (s : State) (cls detail : Nat) (sr : BitVec 16) (param : Nat) :
    (s.appendLog cls detail sr param).logged cls detail sr := by
  unfold State.logged
  rw [(s.appendLog_log cls detail sr param).1]
  exact ⟨_, List.mem_append_right _ (List.mem_singleton_self _), rfl, rfl, rfl⟩

/-- An entry that has been written is in the log. -/
theorem State.logE_logged (s : State) (cls detail : Nat) (sr : BitVec 16) (param : Nat) (mirror : Bool) :
    (s.logE cls detail sr param mirror).logged cls detail sr := by
  unfold State.logE
  cases hm : s.mergeInto cls detail sr with
  | some q =>
    obtain ⟨e, he, hcls, hdetail, hsrc⟩ := State.mergeInto_mem hm
    obtain ⟨x, hx, hxcls, hxdetail, hxsrc⟩ := State.repeatLog_logged he q
    refine ⟨x, hx, ?_, ?_, hxsrc.trans hsrc⟩
    · rw [hxcls, ← hcls, BitVec.ofNat_toNat, BitVec.setWidth_eq]
    · rw [hxdetail, ← hdetail, BitVec.ofNat_toNat, BitVec.setWidth_eq]
  | none =>
    cases mirror
    · exact s.appendLog_logged cls detail sr param
    · exact (s.appendLog_logged cls detail sr param).of_entries (by simp)

theorem State.logWith_logged (s : State) (cls detail : Nat) (sr : BitVec 16) (param code edetail eparam : Nat) :
    (s.logWith cls detail sr param code edetail eparam).logged cls detail sr :=
  (s.logE_logged cls detail sr param false).of_entries (congrArg Log.entries (State.event_log _ _ _ _ _ _))

theorem State.logWith_changesOnly (s : State) (cls detail : Nat) (sr : BitVec 16) (param code edetail eparam : Nat) :
    s.changesOnly (s.logWith cls detail sr param code edetail eparam) [.log, .adk, .evq] :=
  State.logWith_only s cls detail sr param code edetail eparam (only_refl s _) (List.Subset.refl _)

end Sys2Proof.Machine
end

section
/-! SUPPORT. Roles of the installer and the maker (chapter 14), and a performed write by its effect. -/

namespace Sys2Proof.Machine

/-- A write performed by a holder of its role: the next state differs from the one after the effect by the answer alone. -/
theorem State.adkWr_effect {s u : State} {tag : BitVec 16} {addr : Nat} {value : BitVec 64} {r : Role}
    {f : State → State × BitVec 6} {st : BitVec 6} {ps : List Part} (hw : s.writes tag addr value r)
    (hf : f (s.adkTaken (wrFrame tag addr value)) = (u, st)) (hu : (s.adkTaken (wrFrame tag addr value)).changesOnly u ps)
    (hadk : [Part.adk] ⊆ ps) :
    ∃ t, Host.Outcome.next (φ := Fault) (ρ := Refusal) (s.adkWr tag addr value r f) = .next t ∧ t.responded tag st
      ∧ u.changesOnly t [.adk] ∧ s.changesOnly t ps :=
  ⟨_, State.adkWr_eq hw hf, State.adkReply_responded u (wrFrame tag addr value) _ _ _, State.adkReply_link _ _ _ _ _,
    State.adkReply_changesOnly hu hadk _ _ _⟩

theorem State.withSec_only (s : State) (x) : s.changesOnly { s with sec := x } [.sec] := (only_refl s [.sec]).sec (by simp) x

theorem execInstReq_opens {s : State} {tag : BitVec 16} (hw : s.writes tag (secAddr 8) 1 .operator) :
    ∃ t, execInstReq tag s = .next t ∧ t.responded tag stOk ∧ t.sec = { s.sec with instEnd := some (s.now + 10 * secT) }
      ∧ s.changesOnly t [.sec, .adk] := by
  obtain ⟨t, hexec, hresp, hreply, honly⟩ :=
    State.adkWr_effect (ps := [.sec, .adk]) (f := fun s => s.roleCmd 1) hw rfl ((State.withSec_only _ _).mono (by decide)) (by decide)
  exact ⟨t, hexec, hresp, hreply .sec (by decide), honly⟩

theorem execInstEnd_closes {s : State} {tag : BitVec 16} (hw : s.writes tag (secAddr 8) 2 .operator) :
    ∃ t, execInstEnd tag s = .next t ∧ t.responded tag stOk ∧ t.sec = { s.sec with instEnd := none }
      ∧ s.changesOnly t [.sec, .adk] := by
  obtain ⟨t, hexec, hresp, hreply, honly⟩ :=
    State.adkWr_effect (ps := [.sec, .adk]) (f := fun s => s.roleCmd 2) hw rfl ((State.withSec_only _ _).mono (by decide)) (by decide)
  exact ⟨t, hexec, hresp, hreply .sec (by decide), honly⟩

/-- SD0 runs, and a level has been stable for its debounce. -/
def State.counts (s : State) (since : BitVec 64) : Prop := s.sd0Runs = true ∧ s.stable since debounceT = true

theorem State.counts_iff {s : State} {since : BitVec 64} : s.counts since ↔ (s.sd0Runs && s.stable since debounceT) = true :=
  (Bool.and_eq_true_iff ..).symm

theorem State.not_counts {s : State} {since : BitVec 64} (h : s.sd0Runs = false ∨ s.stable since debounceT = false) :
    ¬ (s.sd0Runs && s.stable since debounceT) = true := by
  rcases h with h | h <;> simp [h]

/-- The opening of the seal loop: its effect in the part of security, and its entry. -/
theorem State.sealOpened_spec (s : State) :
    s.sealOpened.sec = { s.sec with sealOpen := true, sealFuse := true, maker := s.sec.jmp }
      ∧ s.sealOpened.logged 0x57 (b2n s.sec.jmp) (srcSD 0) ∧ s.changesOnly s.sealOpened [.sec, .log, .evq, .adk] := by
  have honly := State.logWith_changesOnly { s with sec := { s.sec with sealOpen := true, sealFuse := true, maker := s.sec.jmp } }
    0x57 (b2n s.sec.jmp) (srcSD 0) 0 0x57 (b2n s.sec.jmp) 0
  exact ⟨honly .sec (by decide), State.logWith_logged _ _ _ _ _ _ _ _,
    ((State.withSec_only _ _).mono (by decide)).trans (honly.mono (by decide))⟩

/-- Settles O47: each row sets the fields of the security part that it names, under its condition. -/
theorem rolesOfTheInstallerAndTheMaker : Obligations.RolesOfTheInstallerAndTheMaker := by
  unfold Obligations.RolesOfTheInstallerAndTheMaker
  refine ⟨?opens, ?closes, ?expires, ?early, ?pressed, ?released, ?sealOpened, ?sealClosed, ?jumper, ?jumperEarly, ?tooEarly⟩
  case opens =>
    intro s tag hw
    obtain ⟨t, hexec, hresp, hsec, honly⟩ := execInstReq_opens hw
    exact ⟨t, hexec, hresp, by rw [hsec], by rw [hsec], by rw [hsec], by rw [hsec], by rw [hsec], by rw [hsec], honly⟩
  case closes =>
    intro s tag hw
    obtain ⟨t, hexec, hresp, hsec, honly⟩ := execInstEnd_closes hw
    exact ⟨t, hexec, hresp, by rw [hsec], by rw [hsec], by rw [hsec], by rw [hsec], by rw [hsec], by rw [hsec], honly⟩
  case expires =>
    intro s e hend hdue
    exact ⟨_, congrArg Host.Outcome.next (by simp only [hend, hdue, if_true]), rfl, State.withSec_only _ _⟩
  case early =>
    intro s e hend hearly
    exact congrArg Host.Outcome.next (by simp only [hend, Nat.not_le.2 hearly, if_false])
  case pressed =>
    exact fun s since hsd hstable =>
      ⟨_, congrArg Host.Outcome.next (if_pos (State.counts_iff.1 ⟨hsd, hstable⟩)), rfl, State.withSec_only _ _⟩
  case released =>
    exact fun s since hsd hstable =>
      ⟨_, congrArg Host.Outcome.next (if_pos (State.counts_iff.1 ⟨hsd, hstable⟩)), rfl, Bool.and_false _, State.withSec_only _ _⟩
  case sealOpened =>
    intro s since hsd hstable hclosed
    obtain ⟨hsec, ⟨x, hx, hcls, hdetail, hsrc⟩, honly⟩ := s.sealOpened_spec
    refine ⟨_, congrArg Host.Outcome.next (if_pos (by rw [hsd, hstable, hclosed]; rfl)), by rw [hsec], by rw [hsec], by rw [hsec], by rw [hsec],
      by rw [hsec], by rw [hsec], by rw [hsec], ⟨x, hx, hcls, ?_, hsrc⟩, honly⟩
    rw [hdetail]
    cases s.sec.jmp <;> rfl
  case sealClosed =>
    exact fun s since hsd hstable =>
      ⟨_, congrArg Host.Outcome.next (if_pos (State.counts_iff.1 ⟨hsd, hstable⟩)), rfl, rfl, State.withSec_only _ _⟩
  case jumper =>
    exact fun s fitted since hsd hstable =>
      ⟨_, congrArg Host.Outcome.next (if_pos (State.counts_iff.1 ⟨hsd, hstable⟩)), rfl, State.withSec_only _ _⟩
  case jumperEarly => exact fun s fitted since h => congrArg Host.Outcome.next (if_neg (State.not_counts h))
  case tooEarly =>
    intro s since h
    refine ⟨congrArg Host.Outcome.next (if_neg (State.not_counts h)), congrArg Host.Outcome.next (if_neg (State.not_counts h)),
      congrArg Host.Outcome.next (if_neg ?_), congrArg Host.Outcome.next (if_neg (State.not_counts h))⟩
    exact fun hopen => State.not_counts h (Bool.and_eq_true_iff.1 hopen).1

end Sys2Proof.Machine
end

section
/-! SUPPORT. Firmware packages and attestation (chapter 14). -/

namespace Sys2Proof.Machine

/-! ### Commands of SEC_FW_CMD -/

/-- A command of SEC_FW_CMD: the part of security after it, and the answer, are those of its effect. -/
theorem State.fwWr_effect {s : State} {tag : BitVec 16} {v : BitVec 64} {sec : Security} {st : BitVec 6}
    (hw : s.writes tag (secAddr 0x108) v (fwRole v))
    (hcmd : (s.adkTaken (wrFrame tag (secAddr 0x108) v)).fwCmd v =
      ({ s.adkTaken (wrFrame tag (secAddr 0x108) v) with sec := sec }, st)) :
    ∃ t, Host.Outcome.next (φ := Fault) (ρ := Refusal) (s.fwWr tag v) = .next t ∧ t.responded tag st ∧ t.sec = sec
      ∧ s.changesOnly t [.sec, .adk] := by
  obtain ⟨t, hexec, hresp, hreply, honly⟩ := State.adkWr_effect (ps := [.sec, .adk]) (f := fun s => s.fwCmd v) hw hcmd
    ((State.withSec_only _ _).mono (by decide)) (by decide)
  exact ⟨t, hexec, hresp, hreply .sec (by decide), honly⟩

theorem State.fwVerify_starts {s : State} (hstage : s.sec.fwStage = .staged) (hidle : s.sec.fwVerifying = false) :
    s.fwVerify = ({ s with sec := { s.sec with fwVerifying := true, fwResult := stOk } }, stOk) :=
  if_pos ⟨hstage, hidle⟩

theorem State.fwVerify_denied {s : State} (h : s.sec.fwStage ≠ .staged ∨ s.sec.fwVerifying = true) :
    s.fwVerify = ({ s with sec := { s.sec with fwResult := stDenied } }, stDenied) := by
  refine if_neg (fun hboth => ?_)
  rcases h with h | h
  · exact h hboth.1
  · exact absurd (hboth.2.symm.trans h) (by decide)

theorem State.fwCommit_starts {s : State} (hstage : s.sec.fwStage = .verified) (hidle : s.sec.fwCommitting = false)
    (hsvn : s.sec.svnMin.toNat ≤ s.fwSvn) :
    s.fwCommit = ({ s with sec := { s.sec with fwCommitting := true, fwResult := stOk } }, stOk) :=
  if_pos ⟨hstage, hidle, hsvn⟩

theorem State.fwCommit_denied {s : State} (h : s.sec.fwStage ≠ .verified ∨ s.fwSvn < s.sec.svnMin.toNat) :
    s.fwCommit = ({ s with sec := { s.sec with fwResult := stDenied } }, stDenied) := by
  refine if_neg (fun hall => ?_)
  rcases h with h | h
  · exact h hall.1
  · exact absurd hall.2.2 (Nat.not_le.2 h)

/-! ### The ends of a check and of a write -/

/-- The part of security after a check that has found error `e`. -/
def Security.judged (x : Security) (e : Nat) : Security :=
  if e = 0 then { x with fwVerifying := false, fwErr := BitVec.ofNat 2 e, fwStage := .verified }
  else { x with fwVerifying := false, fwErr := BitVec.ofNat 2 e, fwStage := .empty, fwBytes := [], fwWritten := [] }

theorem Security.judged_spec (x : Security) (e : Nat) :
    (x.judged e).fwVerifying = false ∧ (x.judged e).fwErr = BitVec.ofNat 2 e ∧ (x.judged e).fwStage = (if e = 0 then .verified else .empty)
      ∧ (x.judged e).fwBytes = (if e = 0 then x.fwBytes else []) ∧ (x.judged e).banks = x.banks ∧ (x.judged e).svnMin = x.svnMin := by
  unfold Security.judged
  refine ⟨?_, ?_, ?_, ?_, ?_, ?_⟩ <;> split <;> rfl

theorem execFwVerifyDone_judges {s : State} (hsd : s.sd0Runs = true) (hcheck : s.sec.fwVerifying = true) :
    execFwVerifyDone s = .next { s with sec := s.sec.judged s.fwError } :=
  congrArg Host.Outcome.next (if_pos (by rw [hsd, hcheck]; rfl))

theorem execFwCommitDone_writes {s : State} (hsd : s.sd0Runs = true) (hwrite : s.sec.fwCommitting = true) :
    execFwCommitDone true s = .next { s with sec := { s.sec with
      fwCommitting := false, fwStage := .empty, fwBytes := [], fwWritten := [], fwResult := stOk
      banks := Table.write {} s.sec.banks (1 - b2n s.sec.bank) { svn := s.fwSvn, ok := true, digs := s.sec.fwBytes.bytes 16 96 } } } :=
  congrArg Host.Outcome.next (if_pos (by rw [hsd, hwrite]; rfl))

theorem execFwCommitDone_fails {s : State} (hsd : s.sd0Runs = true) (hwrite : s.sec.fwCommitting = true) :
    ∃ free result, execFwCommitDone false s = .next { s with free := free, sec := { s.sec with fwCommitting := false, fwResult := result } } :=
  ⟨_, _, congrArg Host.Outcome.next (if_pos (by rw [hsd, hwrite]; rfl))⟩

/-- The bank that does not run is another than the one that runs. -/
theorem otherBank_ne (b : Bool) : b2n b ≠ 1 - b2n b := by cases b <;> decide

/-! ### Attestation -/

theorem State.reportBody_length (s : State) : s.reportBody.length = 256 := by
  simp [State.reportBody, leBytes_length, List.length_flatMap, fill]

/-- What has been placed in an empty memory from address 0 on reads back in pieces. -/
theorem Memory.bytes_placed (a b : List Byte) :
    (Memory.write [] 0 (a ++ b)).bytes 0 a.length = a ∧ (Memory.write [] 0 (a ++ b)).bytes a.length b.length = b := by
  have hall := Memory.bytes_write [] 0 (a ++ b)
  rw [List.length_append] at hall
  constructor
  · rw [← Memory.bytes_slice _ 0 (a.length + b.length) 0 a.length (by omega), hall]
    simp
  · have hslice := Memory.bytes_slice (Memory.write [] 0 (a ++ b)) 0 (a.length + b.length) a.length b.length (by omega)
    rw [hall] at hslice
    simpa using hslice.symm

theorem State.reportBody_adkTaken (s : State) (q : AdkFrame) : (s.adkTaken q).reportBody = s.reportBody := rfl

/-- The report with its signature. -/
def State.signedReport (s : State) : List Byte := s.reportBody ++ (List.range 2420).map (Config.signByte (sha3 s.reportBody))

/-- The identity key. -/
def identityKey : List Byte := (List.range 1312).map Config.identityByte

theorem State.attCmd_report (s : State) : s.attCmd 1 = s.attPlace s.signedReport := by
  unfold State.attCmd State.signedReport
  rfl

theorem State.attCmd_idkey (s : State) : s.attCmd 2 = s.attPlace identityKey := by
  unfold State.attCmd identityKey
  rfl

theorem State.signedReport_adkTaken (s : State) (q : AdkFrame) : (s.adkTaken q).signedReport = s.signedReport := by
  unfold State.signedReport
  rw [State.reportBody_adkTaken]

theorem signature_length (body : List Byte) : ((List.range 2420).map (Config.signByte (sha3 body))).length = 2420 := by
  rw [List.length_map, List.length_range]

theorem State.signedReport_length (s : State) : s.signedReport.length = 2676 := by
  unfold State.signedReport
  rw [List.length_append, s.reportBody_length, signature_length]

theorem identityKey_length : identityKey.length = 1312 := by
  unfold identityKey
  rw [List.length_map, List.length_range]

/-- A command of SEC_ATT_CMD places bytes in the window. -/
theorem attCmd_places {s : State} {tag : BitVec 16} {v : BitVec 64} {bs : List Byte} (hw : s.writes tag (secAddr 0x160) v .operator)
    (hcmd : (s.adkTaken (wrFrame tag (secAddr 0x160) v)).attCmd v = (s.adkTaken (wrFrame tag (secAddr 0x160) v)).attPlace bs) :
    ∃ t, Host.Outcome.next (φ := Fault) (ρ := Refusal) (s.adkWr tag (secAddr 0x160) v .operator (fun s => s.attCmd v)) = .next t
      ∧ t.responded tag stOk ∧ t.sec.attWin = Memory.write [] 0 bs ∧ t.sec.attLen = BitVec.ofNat 12 bs.length ∧ t.sec.attReady = true
      ∧ t.sec.banks = s.sec.banks ∧ s.changesOnly t [.sec, .adk] := by
  obtain ⟨t, hexec, hresp, hreply, honly⟩ := State.adkWr_effect (ps := [.sec, .adk]) (f := fun s => s.attCmd v) hw hcmd
    ((State.withSec_only _ _).mono (by decide)) (by decide)
  have hsec : t.sec = { s.sec with attWin := Memory.write [] 0 bs, attLen := BitVec.ofNat 12 bs.length, attReady := true } :=
    hreply .sec (by decide)
  exact ⟨t, hexec, hresp, congrArg Security.attWin hsec, congrArg Security.attLen hsec, congrArg Security.attReady hsec,
    by rw [hsec], honly⟩

theorem execAttReport_places {s : State} {tag : BitVec 16} (hw : s.writes tag (secAddr 0x160) 1 .operator) :
    ∃ t, execAttReport tag s = .next t ∧ t.responded tag stOk ∧ t.sec.attReady = true ∧ t.sec.attLen.toNat = 2676
      ∧ t.sec.attWin.bytes 0 256 = s.reportBody
      ∧ t.sec.attWin.bytes 256 2420 = (List.range 2420).map (Config.signByte (sha3 s.reportBody))
      ∧ t.sec.banks = s.sec.banks ∧ s.changesOnly t [.sec, .adk] := by
  have hcmd := State.attCmd_report (s.adkTaken (wrFrame tag (secAddr 0x160) 1))
  rw [State.signedReport_adkTaken] at hcmd
  obtain ⟨t, hexec, hresp, hwin, hattLen, hready, hbanks, honly⟩ := attCmd_places hw hcmd
  obtain ⟨hbody, hsign⟩ := Memory.bytes_placed s.reportBody ((List.range 2420).map (Config.signByte (sha3 s.reportBody)))
  rw [s.reportBody_length] at hbody hsign
  rw [signature_length] at hsign
  have hlen : t.sec.attLen.toNat = 2676 := by
    rw [hattLen, s.signedReport_length]
    rfl
  rw [← State.signedReport, ← hwin] at hbody hsign
  exact ⟨t, hexec, hresp, hready, hlen, hbody, hsign, hbanks, honly⟩

theorem execAttIdkey_places {s : State} {tag : BitVec 16} (hw : s.writes tag (secAddr 0x160) 2 .operator) :
    ∃ t, execAttIdkey tag s = .next t ∧ t.responded tag stOk ∧ t.sec.attReady = true ∧ t.sec.attLen.toNat = 1312
      ∧ t.sec.attWin.bytes 0 1312 = (List.range 1312).map Config.identityByte ∧ t.sec.banks = s.sec.banks ∧ s.changesOnly t [.sec, .adk] := by
  obtain ⟨t, hexec, hresp, hwin, hattLen, hready, hbanks, honly⟩ := attCmd_places hw (State.attCmd_idkey _)
  have hplaced := Memory.bytes_write [] 0 identityKey
  have hlen : t.sec.attLen.toNat = 1312 := by
    rw [hattLen, identityKey_length]
    rfl
  rw [identityKey_length, ← hwin, identityKey] at hplaced
  exact ⟨t, hexec, hresp, hready, hlen, hplaced, hbanks, honly⟩

/-- Settles O48: each row sets the fields of the security part that it names, and the window holds what REPORT and IDKEY place. -/
theorem firmwareAndAttestation : Obligations.FirmwareAndAttestation := by
  unfold Obligations.FirmwareAndAttestation
  refine ⟨?verifies, ?verifyDenied, ?judged, ?noCheck, ?commits, ?commitDenied, ?written, ?failed, ?raises, ?reports, ?idkey⟩
  case verifies =>
    intro s tag hw hstage hidle
    obtain ⟨t, hexec, hresp, hsec, honly⟩ := State.fwWr_effect hw (State.fwVerify_starts (s := s.adkTaken _) hstage hidle)
    exact ⟨t, hexec, hresp, by rw [hsec], by rw [hsec]; exact hstage, by rw [hsec]; rfl, by rw [hsec], by rw [hsec]; rfl, by rw [hsec]; rfl, honly⟩
  case verifyDenied =>
    intro s tag hw h
    obtain ⟨t, hexec, hresp, hsec, honly⟩ := State.fwWr_effect hw (State.fwVerify_denied (s := s.adkTaken _) h)
    exact ⟨t, hexec, hresp, by rw [hsec]; rfl, by rw [hsec]; rfl, by rw [hsec], by rw [hsec]; rfl, by rw [hsec]; rfl, honly⟩
  case judged =>
    intro s hsd hcheck
    obtain ⟨hverifying, herr, hstage, hbytes, hbanks, hmin⟩ := Security.judged_spec s.sec s.fwError
    exact ⟨_, execFwVerifyDone_judges hsd hcheck, hverifying, herr, hstage, hbytes, hbanks, hmin, State.withSec_only _ _⟩
  case noCheck => exact fun s hidle => congrArg Host.Outcome.next (if_neg (by simp [hidle]))
  case commits =>
    intro s tag hw hstage hidle hsvn
    obtain ⟨t, hexec, hresp, hsec, honly⟩ := State.fwWr_effect hw (State.fwCommit_starts (s := s.adkTaken _) hstage hidle hsvn)
    exact ⟨t, hexec, hresp, by rw [hsec], by rw [hsec]; exact hstage, by rw [hsec]; rfl, by rw [hsec], by rw [hsec]; rfl, by rw [hsec]; rfl, honly⟩
  case commitDenied =>
    intro s tag hw h
    obtain ⟨t, hexec, hresp, hsec, honly⟩ := State.fwWr_effect hw (State.fwCommit_denied (s := s.adkTaken _) h)
    exact ⟨t, hexec, hresp, by rw [hsec]; rfl, by rw [hsec]; rfl, by rw [hsec], by rw [hsec]; rfl, by rw [hsec]; rfl, honly⟩
  case written =>
    intro s hsd hwrite
    exact ⟨_, execFwCommitDone_writes hsd hwrite, rfl, rfl, rfl, rfl, Table.read_write_same _ _ _ _,
      Table.read_write_other _ _ _ (otherBank_ne _), State.withSec_only _ _⟩
  case failed =>
    intro s hsd hwrite
    obtain ⟨free, result, hexec⟩ := execFwCommitDone_fails hsd hwrite
    exact ⟨_, hexec, rfl, rfl, rfl, rfl, ((only_refl s [.sec, .free]).free (by simp) free).sec (by simp) _⟩
  case raises =>
    intro s tag hw
    obtain ⟨t, hexec, hresp, hsec, honly⟩ := State.fwWr_effect hw rfl
    exact ⟨t, hexec, hresp, by rw [hsec]; rfl, by rw [hsec]; rfl, by rw [hsec], by rw [hsec]; rfl, by rw [hsec]; rfl, honly⟩
  case reports => exact fun s tag hw => execAttReport_places hw
  case idkey => exact fun s tag hw => execAttIdkey_places hw

end Sys2Proof.Machine
end

section
/-! SUPPORT. Audits and fences, margins, reads of the trouble log and of the events (chapters 15 and 17). -/

namespace Sys2Proof.Machine

theorem State.withLog_only (s : State) (x) : s.changesOnly { s with log := x } [.log] := (only_refl s [.log]).log (by simp) x

/-- A table keeps the entries of the keys that a filter lets through. -/
theorem Table.read_filter_of_pass {α : Type} (d : α) (p : Nat → Bool) {k : Nat} (hk : p k = true) (t : Table α) :
    Table.read d (t.filter (fun e => p e.1)) k = Table.read d t k := by
  induction t with
  | nil => rfl
  | cons e t ih =>
    obtain ⟨j, v⟩ := e
    by_cases hj : k = j
    · subst hj
      simp [hk, Table.read]
    · by_cases hp : p j = true
      · simp only [List.filter_cons, hp, if_true, Table.read, if_neg hj, ih]
      · simp only [List.filter_cons, hp, if_false, Bool.false_eq_true, Table.read, if_neg hj, ih]

/-! ### Audits -/

/-- Key of a unit in the tables of disagreement and of fences. -/
def unitKey (x : BitVec 4 × BitVec 24) : Nat := 2 ^ 24 * x.1.toNat + x.2.toNat

/-- The state in which an audit that is due judges the units in disagreement. -/
def State.audited (s : State) (l : List (BitVec 4 × BitVec 24)) : State :=
  { s with log := { s.log with
    lastAudit := s.now
    disagree := s.log.disagree.filter (fun (e : Nat × Nat) => (l.map unitKey).contains e.1) } }

theorem execAuditSample_due {s : State} {l : List (BitVec 4 × BitVec 24)} (halive : s.alive = true)
    (hdue : s.log.lastAudit + s.log.auditUs.toNat * usT ≤ s.now) :
    execAuditSample l s = .next (l.eraseDups.foldl State.disagrees (s.audited l)) :=
  congrArg Host.Outcome.next (if_neg (by simp [halive, hdue]))

theorem State.audited_disagree (s : State) (x : BitVec 4 × BitVec 24) :
    Table.read 0 (s.audited [x]).log.disagree (unitKey x) = Table.read 0 s.log.disagree (unitKey x) :=
  Table.read_filter_of_pass 0 (fun k => ([x].map unitKey).contains k) (by simp) _

/-- A unit in disagreement for less than the fourth time running only gains one. -/
theorem State.disagrees_counts {s : State} {x : BitVec 4 × BitVec 24} (hlo : 1 ≤ x.1.toNat) (hhi : x.1.toNat ≤ 6)
    (hfew : Table.read 0 s.log.disagree (unitKey x) < 3) :
    s.disagrees x = { s with log := { s.log with
      disagree := Table.write 0 s.log.disagree (unitKey x) (Table.read 0 s.log.disagree (unitKey x) + 1) } } := by
  unfold State.disagrees
  refine (if_neg (by omega)).trans (if_pos (Or.inl ?_))
  exact Nat.succ_lt_succ hfew

/-- The state in which a unit is fenced, before its entry. -/
def State.fencing (s : State) (x : BitVec 4 × BitVec 24) : State :=
  { s with
    free := s.free + 1
    log := { s.log with
      disagree := Table.write 0 s.log.disagree (unitKey x) (Table.read 0 s.log.disagree (unitKey x) + 1)
      fenced := Table.write false s.log.fenced (unitKey x) true } }

theorem State.fencing_only (s : State) (x : BitVec 4 × BitVec 24) : s.changesOnly (s.fencing x) [.log, .evq, .adk, .free] :=
  ((only_refl s [.log, .evq, .adk, .free]).free (by simp) (s.free + 1)).log (by simp) (s.fencing x).log

/-- At the fourth time running it is fenced, with an entry. -/
theorem State.disagrees_fences {s : State} {x : BitVec 4 × BitVec 24} (hlo : 1 ≤ x.1.toNat) (hhi : x.1.toNat ≤ 6)
    (hthree : Table.read 0 s.log.disagree (unitKey x) = 3) (hfree : s.isFenced x.1.toNat x.2.toNat = false) :
    ∃ param, s.disagrees x = (s.fencing x).logE 0x11 x.1.toNat (fenceSrc x.1.toNat x.2.toNat) param true := by
  refine ⟨_, (if_neg (by omega)).trans (if_neg ?_)⟩
  rintro (hfew | hfenced)
  · have hfour : Table.read 0 s.log.disagree (unitKey x) + 1 < 4 := hfew
    omega
  · exact absurd (hfree.symm.trans hfenced) (by decide)

theorem State.countLog_overwr_aside (s : State) :
    (s.countLog 3).log.fenced = s.log.fenced ∧ (s.countLog 3).log.margins = s.log.margins := by
  unfold State.countLog
  simp only [State.satEvent_log, and_self]

theorem State.appendLog_aside (s : State) (cls detail : Nat) (sr : BitVec 16) (param : Nat) :
    (s.appendLog cls detail sr param).log.fenced = s.log.fenced ∧ (s.appendLog cls detail sr param).log.margins = s.log.margins := by
  unfold State.appendLog
  by_cases hfull : 16384 ≤ s.log.entries.length
  · simp only [hfull, decide_true, if_true, State.countLog_overwr_aside, and_self]
  · simp only [hfull, decide_false, if_false, Bool.false_eq_true, and_self]

/-- What an entry leaves of the log beside the entries. -/
theorem State.logE_aside (s : State) (cls detail : Nat) (sr : BitVec 16) (param : Nat) (mirror : Bool) :
    (s.logE cls detail sr param mirror).log.fenced = s.log.fenced
      ∧ (s.logE cls detail sr param mirror).log.margins = s.log.margins := by
  unfold State.logE
  cases s.mergeInto cls detail sr with
  | some q => exact ⟨rfl, rfl⟩
  | none =>
    cases mirror
    · exact s.appendLog_aside cls detail sr param
    · simp only [if_true, State.event_log]
      exact s.appendLog_aside cls detail sr param

/-! ### The end of a fence -/

theorem State.logFence_lifts {s : State} (hkind : s.log.fenceKind.toNat ≤ 6)
    (hagree : Table.read 0 s.log.disagree (2 ^ 24 * s.log.fenceKind.toNat + s.log.fenceIdx.toNat) = 0)
    (hfenced : s.isFenced s.log.fenceKind.toNat s.log.fenceIdx.toNat = true) :
    s.logFence 2 = (s.unfence (2 ^ 24 * s.log.fenceKind.toNat + s.log.fenceIdx.toNat), stOk) :=
  (if_neg (not_or.2 ⟨Nat.not_lt.2 hkind, not_not_intro hagree⟩)).trans (if_pos hfenced)

theorem State.logFence_denied {s : State}
    (h : Table.read 0 s.log.disagree (2 ^ 24 * s.log.fenceKind.toNat + s.log.fenceIdx.toNat) ≠ 0) : s.logFence 2 = (s, stDenied) :=
  if_pos (Or.inr h)

/-- A fence of a unit is lifted, with the event of that unit. -/
theorem State.unfence_unit (s : State) (kind : Nat) (idx : BitVec 24) :
    s.unfence (2 ^ 24 * kind + idx.toNat) =
      ({ s with log := { s.log with fenced := Table.write false s.log.fenced (2 ^ 24 * kind + idx.toNat) false } } : State).event 0x5A kind
        (fenceSrc kind idx.toNat) idx.toNat := by
  have hidx : idx.toNat < 2 ^ 24 := idx.isLt
  have hdiv : (2 ^ 24 * kind + idx.toNat) / 2 ^ 24 = kind := by omega
  have hmod : (2 ^ 24 * kind + idx.toNat) % 2 ^ 24 = idx.toNat := by omega
  unfold State.unfence
  simp only [hdiv, hmod]

/-- Its fence and its event, where the queue has room. -/
theorem State.unfence_of_room {s : State} (kind : Nat) (idx : BitVec 24) (hmask : s.evq.mask.getLsbD 0x5A = false) (hlost : s.evq.lost = 0)
    (hroom : s.evq.queue.length < 4096) :
    s.unfence (2 ^ 24 * kind + idx.toNat) = { s with
      log := { s.log with fenced := Table.write false s.log.fenced (2 ^ 24 * kind + idx.toNat) false }
      evq := { s.evq with
        queue := s.evq.queue ++ [s.mkEvent 0x5A kind (fenceSrc kind idx.toNat) idx.toNat 0xFFFFFFFF], eseqNext := s.evq.eseqNext + 1 } } :=
  (s.unfence_unit kind idx).trans (State.event_of_room (code := 0x5A) _ _ _ _ hmask hlost hroom)

theorem State.unfenced_only (s : State) (x y) : s.changesOnly { s with log := x, evq := y } [.log, .adk, .evq] :=
  ((only_refl s [.log, .adk, .evq]).log (by simp) x).evq (by simp) y

/-! ### Margins -/

/-- The state in which a scan that is due judges its items. -/
def State.scanned (s : State) (held : BitVec 32) : State :=
  { (s.paid 6) with
    tim := { (s.paid 6).tim with lastMargin := s.now }
    mod := { s.mod with optPulse := if held = 0 then s.mod.optPulse else s.now + msT } }

theorem State.scanned_only (s : State) (held : BitVec 32) : s.changesOnly (s.scanned held) [.tim, .log, .mod, .adk, .evq] :=
  ((only_refl s [.tim, .log, .mod, .adk, .evq]).tim (by simp) (s.scanned held).tim).mod (by simp) (s.scanned held).mod

theorem execMarginScan_due {s : State} {l : List Measure} {held : BitVec 32} (halive : s.alive = true) (hdue : s.periodDue 6 = true)
    (hturn : s.inTurn 6 (s.periodAt 6) = true) : execMarginScan l held s = .next (l.foldl State.measure (s.scanned held)) :=
  congrArg Host.Outcome.next (if_neg (by simp [halive, hdue, hturn]))

/-- Key of an item in the table of margins. -/
def marginKey (m : Measure) : Nat := 65536 * m.kind.toNat + m.index.toNat

/-- A measurement stores the item's value and its judged state, and no other item's. -/
theorem State.measure_margins {s : State} {m : Measure} {v : BitVec 16} {n : Nat} (hkind : m.kind.toNat ≤ 4) (hvalue : m.value = some v)
    (hjudge : ∀ was, marginJudge (s.marginTh m.kind.toNat).1.toInt (s.marginTh m.kind.toNat).2.toInt v.toInt s.log.hystPct.toNat was = n) :
    ∃ y : Margin, (s.measure m).log.margins = Table.write {} s.log.margins (marginKey m) y ∧ y.last = v ∧ y.state = BitVec.ofNat 2 n ∧ y.seen = true := by
  unfold State.measure
  rw [if_neg (Nat.not_lt.2 hkind), hvalue]
  simp only [Option.getD_some, hjudge]
  refine ⟨{ last := v, worst := if (Table.read ({} : Margin) s.log.margins (marginKey m)).seen = true
      ∧ (Table.read ({} : Margin) s.log.margins (marginKey m)).worst.toInt ≤ v.toInt then
      (Table.read ({} : Margin) s.log.margins (marginKey m)).worst else v, state := BitVec.ofNat 2 n, seen := true }, ?_, rfl, rfl, rfl⟩
  split
  · rfl
  · split
    · exact (State.logE_aside _ _ _ _ _ _).2
    · exact (State.logE_aside _ _ _ _ _ _).2

theorem marginJudge_fail {warn fail v : Int} (pct : Nat) (h : v ≤ fail) (was : Nat) : marginJudge warn fail v pct was = 2 := if_pos h

theorem marginJudge_normal {warn fail v : Int} {pct : Nat} (hfail : fail < v) (hwarn : warn < v) (hback : marginBack warn pct ≤ v) (was : Nat) :
    marginJudge warn fail v pct was = 0 :=
  (if_neg (Int.not_le.2 hfail)).trans ((if_neg (Int.not_le.2 hwarn)).trans (if_pos hback))

/-! ### Reads of the log and of the events -/

theorem State.logAny_of_entries {s : State} {e : Nat × LogEntry} {rest : List (Nat × LogEntry)} (h : s.log.entries = e :: rest)
    (q : AdkFrame) : s.logAny q = s.adkReply q stOk (BitVec.ofNat 48 e.1) (s.logWords (q.addr.toNat % 2 ^ 32) (q.len / 4)) := by
  unfold State.logAny
  split
  · next e' rest' heq =>
    rw [h] at heq
    cases heq
    rfl
  · next heq => exact absurd (h.symm.trans heq) (by simp)

/-- The frame of a LOGRD. -/
def logrdFrame (tag : BitVec 16) (addr : BitVec 48) (len : BitVec 16) : AdkFrame :=
  { ty := 4, status := 0, tag := tag, addr := addr, len := len.toNat, words := [] }

theorem execLogrd_answers {s : State} {tag len : BitVec 16} {addr : BitVec 48} {e : Nat × LogEntry} {rest : List (Nat × LogEntry)}
    (hperforms : s.performs (logrdFrame tag addr len)) (hform : logForm addr.toNat len.toNat = true)
    (hentries : s.log.entries = e :: rest) :
    execLogrd tag addr len s = .next ((s.adkTaken (logrdFrame tag addr len)).adkReply (logrdFrame tag addr len) stOk (BitVec.ofNat 48 e.1)
      (s.logWords (addr.toNat % 2 ^ 32) (len.toNat / 4))) := by
  refine congrArg Host.Outcome.next ?_
  show s.adkRequest (logrdFrame tag addr len) (logForm addr.toNat len.toNat) (State.logAny (logrdFrame tag addr len)) = _
  rw [hform, State.adkRequest_performs hperforms]
  exact State.logAny_of_entries (s := s.adkTaken (logrdFrame tag addr len)) hentries _

/-- What an answer keeps under the tag of its request. -/
theorem State.adkReply_kept (s : State) (q : AdkFrame) (st : BitVec 6) (a : BitVec 48) (w : List (BitVec 64)) :
    ∃ x ∈ (s.adkReply q st a w).adk.kept, x.1 = q.tag.toNat ∧ x.2.2.words = w ∧ x.2.2.addr = a :=
  ⟨_, List.mem_append_right _ (List.mem_singleton.2 rfl), rfl, rfl, rfl⟩

theorem State.adkFlush_one {s : State} {f : AdkFrame} (hout : s.adk.outq = [f]) (hroom : s.adk.unacked.length < 64) :
    s.adkFlush = { s with adk := { s.adk with
      unacked := s.adk.unacked ++ [(s.adk.txSeq, f)], outq := [], txSeq := s.adk.txSeq + 1
      ackAt := if s.adk.unacked.isEmpty then s.now else s.adk.ackAt } } := by
  have hone : min 1 (64 - s.adk.unacked.length) = 1 := by omega
  simp [State.adkFlush, hout, hone]

theorem State.adkSend_goes {s : State} (hout : s.adk.outq = []) (hroom : s.adk.unacked.length < 64) (f : AdkFrame) :
    s.adkSend f = { s with adk := { s.adk with
      unacked := s.adk.unacked ++ [(s.adk.txSeq, f)], outq := [], txSeq := s.adk.txSeq + 1
      ackAt := if s.adk.unacked.isEmpty then s.now else s.adk.ackAt } } :=
  State.adkFlush_one (s := { s with adk := { s.adk with outq := s.adk.outq ++ [f] } }) (congrArg (· ++ [f]) hout) hroom

/-- Event records that the next EVT frame takes. -/
def State.eventsNow (s : State) : Nat :=
  min (min 16 (s.adk.evInit + s.adk.evCredit - s.adk.evSent).toNat) (s.evq.queue.length - s.evq.sent)

theorem execEventSend_goes {s : State} (hup : s.adk.state = .up) (hout : s.adk.outq = []) (hroom : s.adk.unacked.length < 64)
    (hsome : 0 < s.eventsNow) :
    execEventSend s = .next { s with
      evq := { s.evq with sent := s.evq.sent + s.eventsNow }
      adk := { s.adk with
        evSent := s.adk.evSent + BitVec.ofNat 16 s.eventsNow, outq := [], txSeq := s.adk.txSeq + 1
        unacked := s.adk.unacked ++ [(s.adk.txSeq, { ty := 0x90, status := 0, tag := 0, addr := 0, len := 4 * s.eventsNow
                                                     words := ((s.evq.queue.drop s.evq.sent).take s.eventsNow).flatMap Event.words })]
        ackAt := if s.adk.unacked.isEmpty then s.now else s.adk.ackAt } } := by
  refine congrArg Host.Outcome.next ((if_neg ?_).trans ?_)
  · rintro (h | h | h | h)
    · exact h hup
    · exact absurd h (Nat.pos_iff_ne_zero.1 hsome)
    · exact h hout
    · exact absurd h (Nat.not_le.2 hroom)
  · exact State.adkSend_goes (s := { s with
      adk := { s.adk with evSent := s.adk.evSent + BitVec.ofNat 16 s.eventsNow }
      evq := { s.evq with sent := s.evq.sent + s.eventsNow } }) hout hroom _

/-! ### The statement -/

/-- Settles O50: each row is one branch of its definition; an entry stays in the log by `State.logE_logged`. -/
theorem auditMarginsLogAndEvents : Obligations.AuditMarginsLogAndEvents := by
  unfold Obligations.AuditMarginsLogAndEvents
  refine ⟨?clean, ?counted, ?fenced, ?lifted, ?liftDenied, ?marginFails, ?marginNormal, ?cleared, ?logRead, ?eventsGo, ?noLink⟩
  case clean =>
    intro s halive hdue
    refine ⟨_, execAuditSample_due halive hdue, ?_, State.withLog_only _ _⟩
    have hnone : s.log.disagree.filter (fun (e : Nat × Nat) => (([] : List (BitVec 4 × BitVec 24)).map unitKey).contains e.1) = [] := by simp
    show (s.audited []).log = _
    rw [State.audited, hnone]
  case counted =>
    intro s x halive hdue hlo hhi hfew
    have hread := s.audited_disagree x
    have hcounts := State.disagrees_counts (s := s.audited [x]) hlo hhi (by rw [hread]; exact hfew)
    refine ⟨_, (execAuditSample_due halive hdue).trans (congrArg Host.Outcome.next hcounts), ?_, rfl, rfl,
      (State.withLog_only s (s.audited [x]).log).trans (State.withLog_only (s.audited [x]) _)⟩
    exact (Table.read_write_same 0 (s.audited [x]).log.disagree (unitKey x)
      (Table.read 0 (s.audited [x]).log.disagree (unitKey x) + 1)).trans (congrArg (· + 1) hread)
  case fenced =>
    intro s x halive hdue hlo hhi hthree hfree
    have hread := s.audited_disagree x
    obtain ⟨param, hfences⟩ := State.disagrees_fences (s := s.audited [x]) hlo hhi (by rw [hread]; exact hthree) hfree
    obtain ⟨e, he, hcls, hdetail, hsrc⟩ := ((s.audited [x]).fencing x).logE_logged 0x11 x.1.toNat (fenceSrc x.1.toNat x.2.toNat) param true
    have honly : s.changesOnly ((s.audited [x]).fencing x) [.log, .evq, .adk, .free] :=
      ((State.withLog_only s (s.audited [x]).log).mono (by decide)).trans (State.fencing_only _ _)
    refine ⟨_, (execAuditSample_due halive hdue).trans (congrArg Host.Outcome.next hfences), ?_, ⟨e, he, hcls, ?_, hsrc⟩,
      honly.trans ((State.logE_changesOnly _ _ _ _ _ _).mono (by decide))⟩
    · unfold State.isFenced
      rw [(State.logE_aside _ _ _ _ _ _).1]
      exact Table.read_write_same false s.log.fenced (unitKey x) true
    · rw [hdetail, BitVec.toNat_ofNat]
      omega
  case lifted =>
    intro s tag hw hkind hagree hfenced hmask hlost hroom
    have heffect := State.logFence_lifts (s := s.adkTaken (wrFrame tag (logAddr 0xA0) 2)) hkind hagree hfenced
    have hlifts := State.unfence_of_room (s := s.adkTaken (wrFrame tag (logAddr 0xA0) 2)) s.log.fenceKind.toNat s.log.fenceIdx hmask hlost hroom
    obtain ⟨t, hexec, hresp, hreply, honly⟩ := State.adkWr_effect (ps := [.log, .adk, .evq]) (f := fun s => s.logFence 2) hw
      (heffect.trans (congrArg (·, stOk) hlifts)) (State.unfenced_only _ _ _) (by decide)
    have hlog : t.log = { s.log with
        fenced := Table.write false s.log.fenced (2 ^ 24 * s.log.fenceKind.toNat + s.log.fenceIdx.toNat) false } := hreply .log (by decide)
    have hlifted : t.log.fenced = Table.write false s.log.fenced (2 ^ 24 * s.log.fenceKind.toNat + s.log.fenceIdx.toNat) false := by
      rw [hlog]
    have hevq := hreply .evq (by decide)
    refine ⟨t, hexec, hresp, ?_, ?_, by rw [hlog], (congrArg Events.queue hevq).trans rfl, honly⟩
    · rw [State.isFenced, hlifted]
      exact Table.read_write_same false s.log.fenced _ _
    · intro k hk
      rw [hlifted]
      exact Table.read_write_other false s.log.fenced false hk
  case liftDenied =>
    intro s tag hw h
    obtain ⟨t, hexec, hresp, hreply, honly⟩ := State.adkWr_effect (ps := [.adk]) (f := fun s => s.logFence 2) hw
      (State.logFence_denied (s := s.adkTaken _) h) (only_refl _ _) (by decide)
    exact ⟨t, hexec, hresp, honly .log (by decide), honly⟩
  case marginFails =>
    intro s m v held halive hdue hturn hkind hvalue hfail
    obtain ⟨y, hmargins, hlast, hstate, hseen⟩ := State.measure_margins (s := s.scanned held) hkind hvalue (marginJudge_fail _ hfail)
    have hmeasure := State.measure_only (s.scanned held) m (only_refl (s.scanned held) [.log, .adk, .evq]) (List.Subset.refl _)
    have hmod : ((s.scanned held).measure m).mod = (s.scanned held).mod := hmeasure .mod (by decide)
    have htim : ((s.scanned held).measure m).tim = (s.scanned held).tim := hmeasure .tim (by decide)
    have hitem : Table.read ({} : Margin) ((s.scanned held).measure m).log.margins (marginKey m) = y := by
      rw [hmargins]
      exact Table.read_write_same _ _ _ _
    refine ⟨_, execMarginScan_due halive hdue hturn, (congrArg Margin.last hitem).trans hlast, (congrArg Margin.state hitem).trans hstate,
      (congrArg Margin.seen hitem).trans hseen, (congrArg Tim.lastMargin htim).trans rfl, ?_,
      (congrArg Module.optPulse hmod).trans rfl, (congrArg Module.state hmod).trans rfl,
      (s.scanned_only held).trans (hmeasure.mono (by decide))⟩
    intro k hk
    show Table.read ({} : Margin) ((s.scanned held).measure m).log.margins k = _
    rw [hmargins]
    exact Table.read_write_other _ _ _ hk
  case marginNormal =>
    intro s m v held halive hdue hturn hkind hvalue hfail hwarn hback
    obtain ⟨y, hmargins, hlast, hstate, hseen⟩ := State.measure_margins (s := s.scanned held) hkind hvalue
      (marginJudge_normal hfail hwarn hback)
    have hmeasure := State.measure_only (s.scanned held) m (only_refl (s.scanned held) [.log, .adk, .evq]) (List.Subset.refl _)
    have hmod : ((s.scanned held).measure m).mod = (s.scanned held).mod := hmeasure .mod (by decide)
    have hitem : Table.read ({} : Margin) ((s.scanned held).measure m).log.margins (marginKey m) = y := by
      rw [hmargins]
      exact Table.read_write_same _ _ _ _
    exact ⟨_, execMarginScan_due halive hdue hturn, (congrArg Margin.last hitem).trans hlast, (congrArg Margin.state hitem).trans hstate,
      (congrArg Module.state hmod).trans rfl, (s.scanned_only held).trans (hmeasure.mono (by decide))⟩
  case cleared =>
    intro s tag hw
    obtain ⟨t, hexec, hresp, hreply, honly⟩ := State.adkWr_effect (ps := [.log, .adk]) (f := fun s => s.logCmd 1) hw rfl
      ((State.withLog_only _ _).mono (by decide)) (by decide)
    exact ⟨t, hexec, hresp, hreply .log (by decide), honly⟩
  case logRead =>
    intro s tag len addr e rest hperforms hform hentries
    exact ⟨_, execLogrd_answers hperforms hform hentries, State.adkReply_responded _ (logrdFrame tag addr len) _ _ _,
      State.adkReply_kept _ (logrdFrame tag addr len) _ _ _, State.adkReply_changesOnly (only_refl _ _) (List.Subset.refl _) _ _ _⟩
  case eventsGo =>
    intro s hup hout hroom hsome
    exact ⟨_, execEventSend_goes hup hout hroom hsome, rfl, rfl, rfl, rfl, rfl, s.withAdkEvq_only _ _⟩
  case noLink => exact fun s hdown => congrArg Host.Outcome.next (if_pos (Or.inl hdown))

end Sys2Proof.Machine
end

section
/-! SUPPORT. Shapers, bridles, the rate loop and the belvederes (chapter 12). -/

namespace Sys2Proof.Machine

/-! ### One port, one queue -/

/-- From `s` to `t` only the traffic part of port `p` has changed, to `x`, and what `ps` names. -/
structure State.tcOnly (s t : State) (p : Nat) (x : Traffic) (ps : List Part) : Prop where
  tc : (t.port p).tc = x
  others : s.otherPorts t p
  only : s.changesOnly t ps

theorem State.onTc_tcOnly (s : State) (p : Nat) (f : Traffic → Traffic) : s.tcOnly (s.onTc p f) p (f (s.port p).tc) [.ports] :=
  ⟨s.tc_onTc_same p f, State.otherPorts_onTc f (s.otherPorts_refl p), State.onTc_only s p f (only_refl s _) (List.Subset.refl _)⟩

theorem State.tcOnly.of_only {s t u : State} {p : Nat} {x : Traffic} {ps qs : List Part} (h : s.tcOnly t p x ps)
    (hu : t.changesOnly u qs) (hports : Part.ports ∉ qs) (hp : ps ⊆ ps ++ qs := List.subset_append_left _ _) :
    s.tcOnly u p x (ps ++ qs) := by
  have hsame : u.ports = t.ports := hu .ports hports
  exact ⟨by rw [State.port, hsame]; exact h.tc, State.otherPorts_of_ports h.others hsame,
    (h.only.mono hp).trans (hu.mono (List.subset_append_right _ _))⟩

/-- From `s` to `t` only queue `q` of port `p` has changed, to `x`. -/
structure State.queueOnly (s t : State) (p q : Nat) (x : Queue) : Prop where
  queue : t.queue p q = x
  otherQueues : ∀ i, i ≠ q → t.queue p i = s.queue p i
  others : s.otherPorts t p
  only : s.changesOnly t [.ports]

theorem State.queueOnly.refl (s : State) (p q : Nat) : s.queueOnly s p q (s.queue p q) :=
  ⟨rfl, fun _ _ => rfl, s.otherPorts_refl p, only_refl s _⟩

theorem State.queueOnly.onQueue {s t : State} {p q : Nat} {x : Queue} (h : s.queueOnly t p q x) (f : Queue → Queue) :
    s.queueOnly (t.onQueue p q f) p q (f x) := by
  refine ⟨by rw [State.queue_onQueue_same, h.queue], fun i hi => ?_, State.otherPorts_onTc _ h.others,
    State.onQueue_only t p q f h.only (List.Subset.refl _)⟩
  rw [← h.otherQueues i hi]
  show Table.read {} ((t.onQueue p q f).port p).tc.queues i = _
  rw [State.onQueue, State.tc_onTc_same]
  exact Table.read_write_other _ _ _ hi

/-- A write of a queue's register that changes the queue alone. -/
theorem State.queueOnly.write {s u : State} {tag : BitVec 16} {addr : Nat} {v : BitVec 64} {f : State → State × BitVec 6} {p q : Nat}
    {x : Queue} {st : BitVec 6} (hw : s.writes tag addr v .operator) (hf : f (s.adkTaken (wrFrame tag addr v)) = (u, st))
    (h : (s.adkTaken (wrFrame tag addr v)).queueOnly u p q x) :
    ∃ t, Host.Outcome.next (φ := Fault) (ρ := Refusal) (s.adkWr tag addr v .operator f) = .next t ∧ t.responded tag st
      ∧ t.queue p q = x ∧ (∀ i, i ≠ q → t.queue p i = s.queue p i) ∧ s.otherPorts t p ∧ s.changesOnly t [.ports, .sec, .log, .adk, .evq] := by
  obtain ⟨t, hexec, hresp, hreply, honly⟩ := State.adkWr_effect (ps := [.ports, .sec, .log, .adk, .evq]) hw hf (h.only.mono (by decide)) (by decide)
  have hports : t.ports = u.ports := hreply .ports (by decide)
  have hqueue : ∀ i, t.queue p i = u.queue p i := fun i => by rw [State.queue, State.port, hports]; rfl
  exact ⟨t, hexec, hresp, (hqueue q).trans h.queue, fun i hi => (hqueue i).trans (h.otherQueues i hi),
    State.otherPorts_of_ports h.others hports, honly⟩

/-! ### Shapers -/

theorem State.queShape_sets {s : State} {v : BitVec 64} {x : Shaper} (h : shaperOf v = some x) (p q : Nat) :
    s.queShape p q v = (s.onQueue p q (fun y => { y with shape := x.fresh s.now }), stOk) := by
  unfold State.queShape
  rw [h]

theorem State.queShape_denied {s : State} {v : BitVec 64} (h : shaperOf v = none) (p q : Nat) : s.queShape p q v = (s, stDenied) := by
  unfold State.queShape
  rw [h]

theorem State.prtShape_sets {s : State} {v : BitVec 64} {x : Shaper} (h : shaperOf v = some x) (p : Nat) :
    s.prtShape p v = (s.onTc p (fun t => { t with shape := x.fresh s.now }), stOk) := by
  unfold State.prtShape
  rw [h]

theorem State.prtShape_denied {s : State} {v : BitVec 64} (h : shaperOf v = none) (p : Nat) : s.prtShape p v = (s, stDenied) := by
  unfold State.prtShape
  rw [h]

/-! ### Bridles -/

theorem State.brdCfg_sets {s : State} {p : Nat} {v : BitVec 64} (hp : p % 16 = 0) (hcir : 1 ≤ bits v.toNat 63 44)
    (hle : bits v.toNat 63 44 ≤ bits v.toNat 43 24) (hpir : bits v.toNat 43 24 ≤ 0xCF850) :
    s.brdCfg p v = (s.onBridle (s.brdIndex p) (fun x => ({ x with
      cir := BitVec.ofNat 20 (bits v.toNat 63 44), pir := BitVec.ofNat 20 (bits v.toNat 43 24), redDrop := v.getLsbD 1
      aware := v.getLsbD 0 }).full s.now), stOk) :=
  if_neg (by omega)

theorem State.brdCfg_denied {s : State} {p : Nat} (hp : p % 16 ≠ 0) (v : BitVec 64) : s.brdCfg p v = (s, stDenied) := if_pos (Or.inl hp)

theorem State.brdBurst_sets {s : State} {p : Nat} {v : BitVec 64} (hp : p % 16 = 0) (h1 : 0x1029 ≤ bits v.toNat 63 32)
    (h2 : bits v.toNat 63 32 ≤ 0x1000000) (h3 : 0x1029 ≤ bits v.toNat 31 0) (h4 : bits v.toNat 31 0 ≤ 0x1000000) :
    s.brdBurst p v = (s.onBridle (s.brdIndex p) (fun x => ({ x with
      pbs := BitVec.ofNat 32 (bits v.toNat 63 32), cbs := BitVec.ofNat 32 (bits v.toNat 31 0) }).full s.now), stOk) :=
  if_neg (by omega)

theorem toNat_ofNat_bits (w v hi lo : Nat) (h : hi - lo + 1 = w) : (BitVec.ofNat w (bits v hi lo)).toNat = bits v hi lo := by
  subst h
  rw [BitVec.toNat_ofNat, Nat.mod_eq_of_lt (bits_lt v hi lo)]

/-- A write that changes one bridle alone. -/
theorem bridle_write {s u : State} {tag : BitVec 16} {addr : Nat} {v : BitVec 64} {f : State → State × BitVec 6} {k : Nat}
    {g : Bridle → Bridle} {st : BitVec 6} (hw : s.writes tag addr v .operator) (hf : f (s.adkTaken (wrFrame tag addr v)) = (u, st))
    (hu : u = (s.adkTaken (wrFrame tag addr v)).onBridle k g) :
    ∃ t, Host.Outcome.next (φ := Fault) (ρ := Refusal) (s.adkWr tag addr v .operator f) = .next t ∧ t.responded tag st
      ∧ t.bridle k = g (s.bridle k) ∧ (∀ i, i ≠ k → t.bridle i = s.bridle i) ∧ s.changesOnly t [.bridles, .sec, .log, .adk, .evq] := by
  subst hu
  obtain ⟨t, hexec, hresp, hreply, honly⟩ := State.adkWr_effect (ps := [.bridles, .sec, .log, .adk, .evq]) hw hf
    (State.onBridle_only _ _ _ (only_refl _ _) (by decide)) (by decide)
  have hbridles : t.bridles = ((s.adkTaken (wrFrame tag addr v)).onBridle k g).bridles := hreply .bridles (by decide)
  refine ⟨t, hexec, hresp, ?_, fun i hi => ?_, honly⟩
  · rw [State.bridle, hbridles]
    exact State.bridle_onBridle_same _ _ _
  · rw [State.bridle, hbridles]
    exact State.bridle_onBridle_other _ _ hi

/-! ### The rate loop -/

/-- The traffic part of a port whose rate rises to `r`. -/
def Traffic.raised (t : Traffic) (now : FT) (r : Nat) : Traffic :=
  { t with rlTokens := t.rateTokens now, rlSince := now, rlIncAt := now, rlRate := BitVec.ofNat 20 r }

theorem execRateLoopIncrease_due {s : State} {port : BitVec 8} (halive : s.alive = true)
    (hcls : (s.link port.toNat).cls = 1 ∨ (s.link port.toNat).cls = 2)
    (hdue : (s.port port.toNat).tc.rlIncAt + (s.port port.toNat).tc.rlUs.toNat * usT ≤ s.now) {r : Nat}
    (hr : min ((s.port port.toNat).tc.rlRate.toNat + (s.port port.toNat).tc.rlAi.toNat) (s.port port.toNat).tc.rlMax.toNat = r) :
    execRateLoopIncrease port s = .next (
      if r = (s.port port.toNat).tc.rlMax.toNat ∧ (s.port port.toNat).tc.rlRate ≠ (s.port port.toNat).tc.rlMax then
        (s.onTc port.toNat (fun t => t.raised s.now r)).rateHeld port.toNat
      else s.onTc port.toNat (fun t => t.raised s.now r)) := by
  subst hr
  refine congrArg Host.Outcome.next (if_neg ?_)
  rcases hcls with h | h <;> simp [halive, h, Nat.not_lt.2 hdue]

/-- A rate that arrives at its bound is held; the rate stays what it is. -/
theorem State.rateHeld_sets (s : State) {t : State} (p : Nat) {x : Traffic} {ps : List Part} (h : s.tcOnly t p x ps) :
    ((t.rateHeld p).port p).tc.rlRate = x.rlRate ∧ ((t.rateHeld p).port p).tc.rlHeld = true ∧ s.otherPorts (t.rateHeld p) p := by
  have hports : (t.rateHeld p).ports = (t.onTc p (fun y => { y with rlHeld := true })).ports :=
    State.logE_changesOnly _ 0x14 0x10 (srcP p) 0 true .ports (by decide)
  have htc : ((t.rateHeld p).port p).tc = { x with rlHeld := true } := by
    rw [State.port, hports, ← h.tc]
    exact t.tc_onTc_same p _
  exact ⟨by rw [htc], by rw [htc], State.otherPorts_of_ports (State.otherPorts_onTc _ h.others) hports⟩

/-! ### Belvederes -/

/-- A queue after a write of its belvedere's period. -/
def Queue.retimed (y : Queue) (us : Nat) (now : FT) : Queue :=
  if y.belUs.toNat = us then y
  else { y with belUs := BitVec.ofNat 20 us, belAt := now, belOwed := y.belOwed || gridDue (y.belUs.toNat * usT) y.belAt now }

theorem Queue.retimed_spec (y : Queue) {us : Nat} (hus : us ≤ 0xF4240) (now : FT) :
    (y.retimed us now).belUs.toNat = us ∧ (y.retimed us now).bel = y.bel := by
  unfold Queue.retimed
  split
  · next h => exact ⟨h, rfl⟩
  · exact ⟨by rw [BitVec.toNat_ofNat]; omega, rfl⟩

theorem State.belCfg_eq {s : State} {v : BitVec 64} (hus : bits v.toNat 19 0 ≤ 0xF4240) (p q : Nat) :
    s.belCfg p q v = (
      let s1 := s.onQueue p q (fun y => y.retimed (bits v.toNat 19 0) s.now)
      let s2 := if v.getLsbD 31 then s1.onQueue p q (fun y => { y with bel := {}, belCopy := {} }) else s1
      (if v.getLsbD 30 then s2.onQueue p q (fun y => { y with belCopy := y.bel }) else s2, stOk)) :=
  if_neg (Nat.not_lt.2 hus)

/-- CLEAR returns the statistics and their copy to the reset values. -/
theorem State.belCfg_clears {s : State} {v : BitVec 64} (hus : bits v.toNat 19 0 ≤ 0xF4240) (hclear : v.getLsbD 31 = true) (p q : Nat) :
    ∃ u x, s.belCfg p q v = (u, stOk) ∧ s.queueOnly u p q x ∧ x.bel = {} ∧ x.belCopy = {} ∧ x.belUs.toNat = bits v.toNat 19 0 := by
  obtain ⟨htime, -⟩ := (s.queue p q).retimed_spec hus s.now
  have h1 := (State.queueOnly.refl s p q).onQueue (fun y => y.retimed (bits v.toNat 19 0) s.now)
  have h2 := h1.onQueue (fun y => { y with bel := {}, belCopy := {} })
  rw [State.belCfg_eq hus]
  simp only [hclear, if_true]
  by_cases hsnap : v.getLsbD 30 = true
  · rw [if_pos hsnap]
    exact ⟨_, _, rfl, h2.onQueue _, rfl, rfl, htime⟩
  · rw [if_neg hsnap]
    exact ⟨_, _, rfl, h2, rfl, rfl, htime⟩

/-- SNAP copies the statistics. -/
theorem State.belCfg_snaps {s : State} {v : BitVec 64} (hus : bits v.toNat 19 0 ≤ 0xF4240) (hclear : v.getLsbD 31 = false)
    (hsnap : v.getLsbD 30 = true) (p q : Nat) :
    ∃ u x, s.belCfg p q v = (u, stOk) ∧ s.queueOnly u p q x ∧ x.belCopy = (s.queue p q).bel ∧ x.bel = (s.queue p q).bel
      ∧ x.belUs.toNat = bits v.toNat 19 0 := by
  obtain ⟨htime, hbel⟩ := (s.queue p q).retimed_spec hus s.now
  have h1 := (State.queueOnly.refl s p q).onQueue (fun y => y.retimed (bits v.toNat 19 0) s.now)
  rw [State.belCfg_eq hus]
  simp only [hclear, hsnap, if_true, Bool.false_eq_true, if_false]
  exact ⟨_, _, rfl, h1.onQueue (fun y => { y with belCopy := y.bel }), hbel, hbel, htime⟩

/-- A sample of a queue at an instant of its grid. -/
theorem execBelvedereSample_due {s : State} {port : BitVec 8} {queue : BitVec 4} (halive : s.alive = true)
    (howed : (s.queue port.toNat queue.toNat).belOwed = false)
    (hdue : gridDue ((s.queue port.toNat queue.toNat).belUs.toNat * usT) (s.queue port.toNat queue.toNat).belAt s.now = true)
    (hturn : s.inTurn 7 (s.now / ((s.queue port.toNat queue.toNat).belUs.toNat * usT) * ((s.queue port.toNat queue.toNat).belUs.toNat * usT)) = true) :
    ∃ flags, execBelvedereSample port queue s = .next (s.onQueue port.toNat queue.toNat (fun y => { y with
      bel := y.bel.sample y.depth (y.sojourn s.now) flags, belAt := s.now, belOwed := false, belSeen := s.tim.corrections })) := by
  refine ⟨_, congrArg Host.Outcome.next (if_neg ?_)⟩
  simp [halive, howed, hdue, hturn]

/-! ### The statement -/

/-- Settles O43: each write by its effect on one port, queue or bridle; the rate loop and the samples by their one branch. -/
theorem shapersBridlesAndMeasures : Obligations.ShapersBridlesAndMeasures := by
  unfold Obligations.ShapersBridlesAndMeasures
  refine ⟨?queueShape, ?queueShapeBad, ?portShape, ?portShapeBad, ?bridleRates, ?bridleBursts, ?bridleBad, ?raised, ?held, ?sampled, ?cleared,
    ?snapped⟩
  case queueShape =>
    intro s tag port queue value x hw hgood
    obtain ⟨t, hexec, hresp, hqueue, hrest⟩ := State.queueOnly.write (f := fun s => s.queShape port.toNat queue.toNat value) hw
      (State.queShape_sets (s := s.adkTaken _) hgood port.toNat queue.toNat) ((State.queueOnly.refl _ _ _).onQueue _)
    exact ⟨t, hexec, hresp, by rw [hqueue]; rfl, by rw [hqueue]; rfl, hrest⟩
  case queueShapeBad =>
    intro s tag port queue value hw hbad
    obtain ⟨t, hexec, hresp, hreply, honly⟩ := State.adkWr_effect (ps := [.ports, .sec, .log, .adk, .evq])
      (f := fun s => s.queShape port.toNat queue.toNat value) hw (State.queShape_denied (s := s.adkTaken _) hbad port.toNat queue.toNat) (only_refl _ _) (by decide)
    exact ⟨t, hexec, hresp, hreply .ports (by decide), honly⟩
  case portShape =>
    intro s tag port value x hw hgood
    have hset := State.prtShape_sets (s := s.adkTaken (wrFrame tag (prtAddr port.toNat 0x120) value)) hgood port.toNat
    have htc := (s.adkTaken (wrFrame tag (prtAddr port.toNat 0x120) value)).onTc_tcOnly port.toNat
      (fun t => { t with shape := x.fresh (s.adkTaken (wrFrame tag (prtAddr port.toNat 0x120) value)).now })
    obtain ⟨t, hexec, hresp, hreply, honly⟩ := State.adkWr_effect (ps := [.ports, .sec, .log, .adk, .evq])
      (f := fun s => s.prtShape port.toNat value) hw hset (htc.only.mono (by decide)) (by decide)
    obtain ⟨hset, hothers, -⟩ := htc.of_only hreply (by decide)
    exact ⟨t, hexec, hresp, by rw [hset]; rfl, by rw [hset]; rfl, hothers, honly⟩
  case portShapeBad =>
    intro s tag port value hw hbad
    obtain ⟨t, hexec, hresp, hreply, honly⟩ := State.adkWr_effect (ps := [.ports, .sec, .log, .adk, .evq])
      (f := fun s => s.prtShape port.toNat value) hw (State.prtShape_denied (s := s.adkTaken _) hbad port.toNat) (only_refl _ _) (by decide)
    exact ⟨t, hexec, hresp, hreply .ports (by decide), honly⟩
  case bridleRates =>
    intro s tag port value hw hp hcir hle hpir
    obtain ⟨t, hexec, hresp, hset, hothers, honly⟩ := bridle_write (f := fun s => if false then s.brdBurst port.toNat value else s.brdCfg port.toNat value)
      hw (State.brdCfg_sets (s := s.adkTaken _) hp hcir hle hpir) rfl
    have hset' : t.bridle (s.brdIndex port.toNat) = _ := hset
    refine ⟨t, hexec, hresp, ?_, ?_, ?_, ?_, ?_, ?_, hothers, honly⟩ <;> rw [hset']
    · exact toNat_ofNat_bits 20 _ 63 44 rfl
    · exact toNat_ofNat_bits 20 _ 43 24 rfl
    all_goals rfl
  case bridleBursts =>
    intro s tag port value hw hp h1 h2 h3 h4
    obtain ⟨t, hexec, hresp, hset, hothers, honly⟩ := bridle_write (f := fun s => if true then s.brdBurst port.toNat value else s.brdCfg port.toNat value)
      hw (State.brdBurst_sets (s := s.adkTaken _) hp h1 h2 h3 h4) rfl
    have hset' : t.bridle (s.brdIndex port.toNat) = _ := hset
    refine ⟨t, hexec, hresp, ?_, ?_, ?_, hothers, honly⟩ <;> rw [hset']
    · exact toNat_ofNat_bits 32 _ 63 32 rfl
    · exact toNat_ofNat_bits 32 _ 31 0 rfl
    · rfl
  case bridleBad =>
    intro s tag port value hw hp
    obtain ⟨t, hexec, hresp, hreply, honly⟩ := State.adkWr_effect (ps := [.bridles, .sec, .log, .adk, .evq])
      (f := fun s => if false then s.brdBurst port.toNat value else s.brdCfg port.toNat value) hw
      (State.brdCfg_denied (s := s.adkTaken _) hp value) (only_refl _ _) (by decide)
    exact ⟨t, hexec, hresp, hreply .bridles (by decide), honly⟩
  case raised =>
    intro s port halive hcls hdue hlt
    have hexec := execRateLoopIncrease_due halive hcls hdue (Nat.min_eq_left (Nat.le_of_lt hlt))
    rw [if_neg (fun h => absurd h.1 (Nat.ne_of_lt hlt))] at hexec
    obtain ⟨hset, hothers, honly⟩ := s.onTc_tcOnly port.toNat
      (fun t => t.raised s.now ((s.port port.toNat).tc.rlRate.toNat + (s.port port.toNat).tc.rlAi.toNat))
    refine ⟨_, hexec, ?_, by rw [hset]; rfl, by rw [hset]; rfl, hothers, honly⟩
    rw [hset]
    exact BitVec.toNat_ofNat _ _ |>.trans (Nat.mod_eq_of_lt (Nat.lt_trans hlt (BitVec.isLt _)))
  case held =>
    intro s port halive hcls hdue hle hne
    have hexec := execRateLoopIncrease_due halive hcls hdue (Nat.min_eq_right hle)
    rw [if_pos ⟨rfl, hne⟩] at hexec
    obtain ⟨hrate, hheld, hothers⟩ := State.rateHeld_sets s port.toNat (s.onTc_tcOnly port.toNat (fun t => t.raised s.now (s.port port.toNat).tc.rlMax.toNat))
    exact ⟨_, hexec, hrate.trans (by simp [Traffic.raised]), hheld, State.logE_logged _ _ _ _ _ _, hothers⟩
  case sampled =>
    intro s port queue halive howed hdue hturn
    obtain ⟨flags, hexec⟩ := execBelvedereSample_due halive howed hdue hturn
    obtain ⟨hqueue, hqueues, hothers, honly⟩ := (State.queueOnly.refl s port.toNat queue.toNat).onQueue (fun y => { y with
      bel := y.bel.sample y.depth (y.sojourn s.now) flags, belAt := s.now, belOwed := false, belSeen := s.tim.corrections })
    refine ⟨_, hexec, by rw [hqueue]; rfl, by rw [hqueue]; rfl, by rw [hqueue]; rfl, ?_, by rw [hqueue], by rw [hqueue], hqueues, hothers, honly⟩
    rw [hqueue]
    exact Table.read_write_same _ _ _ _
  case cleared =>
    intro s tag port queue value hw hus
    obtain ⟨u, x, hset, hqueue, hbel, hcopy, htime⟩ := State.belCfg_clears (s := s.adkTaken (wrFrame tag (queAddr port.toNat queue.toNat 0x18)
      (value ||| (1#64 <<< 31)))) hus (by simp) port.toNat queue.toNat
    obtain ⟨t, hexec, hresp, hread, hrest⟩ := hqueue.write (f := fun s => s.belCfg port.toNat queue.toNat (value ||| (1#64 <<< 31))) hw hset
    exact ⟨t, hexec, hresp, by rw [hread, hbel], by rw [hread, hcopy], by rw [hread, htime], hrest⟩
  case snapped =>
    intro s tag port queue value hw hus hclear
    obtain ⟨u, x, hset, hqueue, hcopy, hbel, htime⟩ := State.belCfg_snaps (s := s.adkTaken (wrFrame tag (queAddr port.toNat queue.toNat 0x18)
      (value ||| (1#64 <<< 30)))) hus hclear (by simp) port.toNat queue.toNat
    obtain ⟨t, hexec, hresp, hread, hrest⟩ := hqueue.write (f := fun s => s.belCfg port.toNat queue.toNat (value ||| (1#64 <<< 30))) hw hset
    exact ⟨t, hexec, hresp, by rw [hread, hcopy]; rfl, by rw [hread, hbel]; rfl, by rw [hread, htime], hrest⟩

end Sys2Proof.Machine
end

section
/-! SUPPORT. Pages are pinned, moved and cooled (R161 to R167). -/

namespace Sys2Proof.Machine

/-! ### Requests to trays -/

/-- From `s` to `t` the tiers have changed by requests to trays, slots being wiped and pages being zeroed alone. -/
def State.asksTrays (s t : State) : Prop :=
  ∃ reqs wiping zeroing, t.tier = { s.tier with reqs := reqs, wiping := wiping, zeroing := zeroing }

theorem State.asksTrays.refl (s : State) : s.asksTrays s := ⟨s.tier.reqs, s.tier.wiping, s.tier.zeroing, rfl⟩

theorem State.asksTrays.trans {s t u : State} (hst : s.asksTrays t) (htu : t.asksTrays u) : s.asksTrays u := by
  obtain ⟨_, _, _, h1⟩ := hst
  obtain ⟨_, _, _, h2⟩ := htu
  exact ⟨_, _, _, by rw [h2, h1]⟩

theorem State.asksTrays.of_only {s t : State} {ps : List Part} (h : s.changesOnly t ps) (hp : Part.tier ∉ ps) : s.asksTrays t :=
  ⟨s.tier.reqs, s.tier.wiping, s.tier.zeroing, h .tier hp⟩

theorem State.asksTrays.moves {s t : State} (h : s.asksTrays t) : t.tier.moves = s.tier.moves := by
  obtain ⟨_, _, _, h⟩ := h
  rw [h]

theorem State.asksTrays.mem {s t : State} (h : s.asksTrays t) : t.tier.mem = s.tier.mem := by
  obtain ⟨_, _, _, h⟩ := h
  rw [h]

theorem State.asksTrays.page {s t : State} (h : s.asksTrays t) (p : Nat) : t.page p = s.page p := by
  obtain ⟨_, _, _, h⟩ := h
  rw [State.page, h]
  rfl

theorem State.asksTrays.tray {s t : State} (h : s.asksTrays t) (y : Nat) : t.tray y = s.tray y := by
  obtain ⟨_, _, _, h⟩ := h
  rw [State.tray, h]
  rfl

theorem State.sendTray_asks (s : State) (t b : Nat) (op : TrayOp) (tenant : BitVec 10) (opcode : BitVec 8) (addr len : Nat)
    (st : BitVec 6) (pl : List Byte) : s.asksTrays (s.sendTray t b op tenant opcode addr len st pl) := by
  have hput : ∀ q : TrayReq, s.asksTrays { s with tier := { s.tier with reqs := s.tier.reqs ++ [q] } } := fun q => ⟨_, _, _, rfl⟩
  unfold State.sendTray
  dsimp only
  split
  · split
    · exact (hput _).trans (State.asksTrays.of_only (State.trayFrame_only _ _ _ _ _ (only_refl _ [.pkg, .ports, .adk, .evq]) (by decide)) (by decide))
    · exact hput _
  · exact hput _

theorem State.wipeBlock_asks (s : State) (tenant : BitVec 10) (t slot i : Nat) : s.asksTrays (s.wipeBlock tenant t slot i) :=
  s.sendTray_asks _ _ _ _ _ _ _ _ _

theorem State.copyBlock_asks (s : State) (page i : Nat) : s.asksTrays (s.copyBlock page i) := s.sendTray_asks _ _ _ _ _ _ _ _ _

theorem foldl_asksTrays {α : Type} {f : State → α → State} (hf : ∀ (s : State) a, s.asksTrays (f s a)) (l : List α) (s : State) :
    s.asksTrays (l.foldl f s) := by
  induction l generalizing s with
  | nil => exact State.asksTrays.refl s
  | cons a l ih => exact (hf s a).trans (ih _)

theorem State.relocBlock_asks (s : State) (page i : Nat) : s.asksTrays (s.relocBlock page i) := by
  unfold State.relocBlock
  split
  · exact State.asksTrays.refl s
  · dsimp only
    split
    · exact foldl_asksTrays (fun s j => s.sendTray_asks _ _ _ _ _ _ _ _ _) _ _
    · exact s.sendTray_asks _ _ _ _ _ _ _ _ _

/-! ### Pages -/

@[simp] theorem State.page_setPage_same (s : State) (p : Nat) (v : TierPage) : (s.setPage p v).page p = v :=
  Table.read_write_same _ _ _ _

theorem State.page_setPage_other (s : State) {p i : Nat} (h : i ≠ p) (v : TierPage) : (s.setPage p v).page i = s.page i :=
  Table.read_write_other _ _ _ h

theorem State.dropTierMoves_of_nil {s : State} (h : s.tier.moves = []) (p : Nat) : s.dropTierMoves p = s := by
  have hmoves : s.tier.moves.filter (fun (m : Move) => !(m.page == p && m.dst.isNone && m.forRoom.isNone && m.want != (s.page p).res))
      = s.tier.moves := by rw [h]; rfl
  unfold State.dropTierMoves
  rw [hmoves]

theorem State.queueMove_of_nil {s : State} (h : s.tier.moves = []) (m : Move) :
    s.queueMove m = { s with tier := { s.tier with moves := [m] } } := by
  unfold State.queueMove
  rw [h]
  rfl

/-! ### SETPIN and RELOCATE -/

/-- A TRN_ command of the operator that ends with a code: the code is answered and is the result, and the tiers are those it left. -/
theorem State.trn_write {s u : State} {tag : BitVec 16} {addr : Nat} {v : BitVec 64} {f : State → State × BitVec 6} {st : BitVec 6}
    (hw : s.writes tag addr v .operator) (hf : f (s.adkTaken (wrFrame tag addr v)) = u.trnDone st)
    (hu : (s.adkTaken (wrFrame tag addr v)).changesOnly u [.pkg, .ports, .tier, .xl, .sec, .log, .adk, .evq]) :
    ∃ t, Host.Outcome.next (φ := Fault) (ρ := Refusal) (s.adkWr tag addr v .operator f) = .next t ∧ t.responded tag st ∧ t.tier = u.tier
      ∧ t.xl.cmdResult = st ∧ s.changesOnly t [.pkg, .ports, .tier, .xl, .sec, .log, .adk, .evq] := by
  obtain ⟨t, hexec, hresp, hreply, honly⟩ := State.adkWr_effect (ps := [.pkg, .ports, .tier, .xl, .sec, .log, .adk, .evq]) hw hf
    (State.trnResult_only u st hu (by decide)) (by decide)
  have hxl : t.xl = (u.trnResult st).xl := hreply .xl (by decide)
  exact ⟨t, hexec, hresp, hreply .tier (by decide), by rw [hxl]; rfl, honly⟩

theorem State.tpCmd_setPin (s : State) (pin : BitVec 2) :
    s.tpCmd (BitVec.ofNat 64 (1 + 16 * pin.toNat)) = s.setPin s.tier.tpSel.toNat pin := by
  have hcmd : ∀ p : BitVec 2, bits (BitVec.ofNat 64 (1 + 16 * p.toNat)).toNat 3 0 = 1 ∧ BitVec.ofNat 2 (bits (BitVec.ofNat 64 (1 + 16 * p.toNat)).toNat 5 4) = p := by
    decide
  obtain ⟨hop, hpin⟩ := hcmd pin
  unfold State.tpCmd
  rw [hop, hpin]
  rfl

theorem State.tpCmd_relocate (s : State) : s.tpCmd 2 = s.relocate s.tier.tpSel.toNat := rfl

theorem State.setPin_moving {s : State} {page : Nat} (hext : (s.pageExtent page).state ≠ .absent) (hmoving : (s.page page).moving = true)
    (pin : BitVec 2) : s.setPin page pin = (s.onPage page (fun p => { p with pinNext := some pin })).trnDone stOk :=
  (if_neg hext).trans (if_pos hmoving)

theorem State.setPin_here {s : State} {page : Nat} {pin : BitVec 2} (hext : (s.pageExtent page).state ≠ .absent)
    (hmoving : (s.page page).moving = false)
    (hhere : pin = 0 ∨ pin = 3 ∨ (s.page page).res = pin ∨ (s.page page).res = 0 ∨ (s.page page).res = 3) :
    s.setPin page pin = ((s.dropTierMoves page).onPage page (fun p => { p with pin := pin })).trnDone stOk := by
  refine (if_neg hext).trans ((if_neg (by rw [hmoving]; decide)).trans (if_neg ?_))
  rintro ⟨hpin, hres, hne⟩
  rcases hhere with h | h | h | h | h
  · subst h; revert hpin; decide
  · subst h; revert hpin; decide
  · exact hne h
  · rw [h] at hres; revert hres; decide
  · rw [h] at hres; revert hres; decide

/-- The pin names the other tier. -/
theorem pin_elsewhere {pin res : BitVec 2} (h : pin = 1 ∧ res = 2 ∨ pin = 2 ∧ res = 1) : (pin = 1 ∨ pin = 2) ∧ (res = 1 ∨ res = 2) ∧ res ≠ pin := by
  rcases h with ⟨rfl, rfl⟩ | ⟨rfl, rfl⟩ <;> decide

theorem State.setPin_refused {s : State} {page : Nat} {pin : BitVec 2} (hext : (s.pageExtent page).state ≠ .absent)
    (hmoving : (s.page page).moving = false) (hother : pin = 1 ∧ (s.page page).res = 2 ∨ pin = 2 ∧ (s.page page).res = 1)
    (hfull : (s.dropTierMoves page).pinRefused page pin.toNat = true) : s.setPin page pin = s.trnDone stDenied :=
  (if_neg hext).trans ((if_neg (by rw [hmoving]; decide)).trans ((if_pos (pin_elsewhere hother)).trans (if_pos hfull)))

theorem State.setPin_queues {s : State} {page : Nat} {pin : BitVec 2} (hext : (s.pageExtent page).state ≠ .absent)
    (hmoving : (s.page page).moving = false) (hother : pin = 1 ∧ (s.page page).res = 2 ∨ pin = 2 ∧ (s.page page).res = 1)
    (hroom : s.pinRefused page pin.toNat = false) (hnone : s.tier.moves = []) :
    s.setPin page pin = State.trnDone { s.onPage page (fun p => { p with pin := pin }) with
      tier := { (s.onPage page (fun p => { p with pin := pin })).tier with moves := [{ page := page, want := pin, directed := true }] } } stOk := by
  have hnil : ∀ f : Move → Bool, s.tier.moves.filter f = s.tier.moves := fun f => by rw [hnone]; rfl
  unfold State.setPin
  simp only [State.dropTierMoves_of_nil hnone, hext, hmoving, pin_elsewhere hother, hroom, hnil, if_false, if_true, Bool.false_eq_true,
    ne_eq, not_false_eq_true, and_self]
  rw [State.queueMove_of_nil (by exact hnone)]

theorem State.relocate_refused {s : State} {page : Nat} (h : (s.page page).res ≠ 3) : s.relocate page = s.trnDone stDenied :=
  if_pos (Or.inl h)

/-- RELOCATE of a lost page: its move has the slot taken for it. -/
theorem State.relocate_takes {s : State} {page : Nat} {trays : Table Tray} {d : Nat × Nat} (hlost : (s.page page).res = 3)
    (hnone : s.tier.moves = []) (hslot : s.allocSlot (s.page page).lostTier.toNat = some ({ s with tier := { s.tier with trays := trays } }, d)) :
    ∃ u, s.relocate page = u.trnDone stOk
      ∧ u.tier.moves = [{ page := page, want := (s.page page).lostTier, directed := true, dst := some d }]
      ∧ u.page page = { s.page page with heat := 0 } ∧ s.changesOnly u [.pkg, .ports, .tier, .adk, .evq] := by
  let v : State := { s with tier := { s.tier with trays := trays, moves := s.tier.moves ++
    [{ page := page, want := (s.page page).lostTier, directed := true, dst := some d }] } }
  have hasks := State.relocBlock_asks (v.onPage page (fun x => { x with heat := 0 })) page 0
  have hv : s.changesOnly v [.pkg, .ports, .tier, .adk, .evq] := (only_refl s _).tier (by decide) _
  refine ⟨(v.onPage page (fun x => { x with heat := 0 })).relocBlock page 0, ?_, hasks.moves.trans (congrArg (· ++ _) hnone),
    (hasks.page _).trans (State.page_onPage_same _ _ _), State.relocBlock_only _ _ _ (State.onPage_only _ _ _ hv (by decide)) (by decide)⟩
  refine (if_neg (by simp [hlost, hnone])).trans ?_
  rw [hslot]

/-- A slot is taken from a tray; the pages and the moves stay. -/
theorem State.allocSlot_takes {s : State} {tier : Nat} {r : State × Nat × Nat} (h : s.allocSlot tier = some r) :
    ∃ trays, r.1 = { s with tier := { s.tier with trays := trays } } := by
  unfold State.allocSlot at h
  split at h
  · cases h
  · next t _ =>
    cases h
    show ∃ trays, (s.takeSlot t).1 = _
    unfold State.takeSlot
    dsimp only
    split <;> exact ⟨_, rfl⟩

theorem State.bestTray_same {s u : State} (htier : u.tier = s.tier) (hlog : u.log = s.log) (tier : Nat) :
    u.bestTray tier = s.bestTray tier := by
  simp only [State.bestTray, State.isFenced, htier, hlog]

/-- The slot taken is the same in a state whose tiers and whose choice of the tray are the same. -/
theorem State.allocSlot_same {s u : State} {tier : Nat} {r : State × Nat × Nat} (htier : u.tier = s.tier)
    (hbest : u.bestTray tier = s.bestTray tier) (h : s.allocSlot tier = some r) :
    ∃ trays, u.allocSlot tier = some ({ u with tier := { u.tier with trays := trays } }, r.2) := by
  unfold State.allocSlot at h ⊢
  rw [hbest]
  cases hb : s.bestTray tier with
  | none => rw [hb] at h; cases h
  | some t =>
    rw [hb] at h
    cases h
    have htray : u.tray t = s.tray t := by rw [State.tray, htier]; rfl
    unfold State.takeSlot
    dsimp only
    rw [htray]
    split <;> exact ⟨_, rfl⟩

/-! ### Moves start and end -/

theorem List.find?_single {α : Type} {p : α → Bool} {a : α} (h : p a = true) : [a].find? p = some a := by simp [h]

theorem execMoveStart_idle {s : State} {page : BitVec 30} {m : Move} (hmoves : s.tier.moves = [m]) (hpage : m.page = page.toNat)
    (hstuck : s.movable m = false) : execMoveStart page s = .next s := by
  unfold execMoveStart
  rw [hmoves, List.find?_single (by simp [hpage])]
  simp [hstuck]

theorem State.moveBefore_self (s : State) (m : Move) : s.moveBefore m m = false := by
  unfold State.moveBefore
  simp

theorem execMoveStart_starts {s : State} {page : BitVec 30} {m : Move} (halive : s.alive = true) (hmoves : s.tier.moves = [m])
    (hpage : m.page = page.toNat) (hmovable : s.movable m = true) (hroom : 1 ≤ s.tier.maxMoves.toNat) :
    execMoveStart page s = .next (s.beginMove m) := by
  have hdst : m.dst.isNone = true := by
    unfold State.movable at hmovable
    simp only [Bool.and_eq_true] at hmovable
    exact hmovable.1.1.1.1.1.1
  have hrunning : s.movesRunning = 0 := by
    unfold State.movesRunning
    rw [hmoves]
    cases hm : m.dst with
    | none => simp [hm]
    | some _ => rw [hm] at hdst; cases hdst
  unfold execMoveStart
  rw [hmoves, List.find?_single (by simp [hpage])]
  have hlt : s.movesRunning < s.tier.maxMoves.toNat := by omega
  simp [halive, hmovable, hlt, s.moveBefore_self]

/-- The page of a move that starts is marked and the move has its slot, before the copy begins. -/
def State.markMove (s : State) (m : Move) (trays : Table Tray) (t sl : Nat) : State :=
  State.onPage { s with tier := { s.tier with trays := trays, moves := s.tier.moves.map (fun (x : Move) =>
    if x.page = m.page then { x with dst := some (t, sl), copied := if (s.page m.page).fresh then 1024 else 0 } else x) } } m.page
    (fun x => { x with moving := true, heat := 0 })

theorem State.beginMove_asks {s : State} {m : Move} {trays : Table Tray} {t sl : Nat} (hother : (s.page m.page).res ≠ m.want)
    (hslot : s.allocSlot m.want.toNat = some ({ s with tier := { s.tier with trays := trays } }, t, sl)) :
    (s.markMove m trays t sl).asksTrays (s.beginMove m) := by
  have hstop : (s.markMove m trays t sl).asksTrays ((s.markMove m trays t sl).stopZero m.page) := ⟨_, _, _, rfl⟩
  have hbegin : s.beginMove m = if (s.page m.page).fresh then (s.markMove m trays t sl).stopZero m.page
      else ((s.markMove m trays t sl).stopZero m.page).copyBlock m.page 0 := by
    unfold State.beginMove
    dsimp only
    rw [if_neg hother, hslot]
    dsimp only
    rw [if_neg hother]
    rfl
  rw [hbegin]
  split
  · exact hstop
  · exact hstop.trans (State.copyBlock_asks _ _ _)

/-- The move of a page to the other tier has a slot, and its page is marked. -/
theorem State.beginMove_marks {s : State} {m : Move} {r : State × Nat × Nat} (hmoves : s.tier.moves = [m])
    (hother : (s.page m.page).res ≠ m.want) (hslot : s.allocSlot m.want.toNat = some r) :
    (s.beginMove m).tier.moves = [{ m with dst := some r.2, copied := if (s.page m.page).fresh then 1024 else 0 }]
      ∧ (s.beginMove m).page m.page = { s.page m.page with moving := true, heat := 0 } ∧ (s.beginMove m).tier.mem = s.tier.mem
      ∧ ∀ i, i ≠ m.page → (s.beginMove m).page i = s.page i := by
  obtain ⟨trays, htaken⟩ := State.allocSlot_takes hslot
  obtain ⟨u, t, sl⟩ := r
  dsimp only at htaken
  subst htaken
  have hasks := State.beginMove_asks (m := m) hother hslot
  have hlisted : (s.tier.moves.map (fun (x : Move) =>
      if x.page = m.page then { x with dst := some (t, sl), copied := if (s.page m.page).fresh then 1024 else 0 } else x))
      = [{ m with dst := some (t, sl), copied := if (s.page m.page).fresh then 1024 else 0 }] := by
    rw [hmoves]
    simp
  exact ⟨hasks.moves.trans hlisted, (hasks.page _).trans (State.page_onPage_same _ _ _), hasks.mem.trans rfl,
    fun i hi => (hasks.page i).trans (State.page_onPage_other _ _ hi)⟩

theorem State.releaseSlot_asks (s : State) (page t slot : Nat) : s.asksTrays (s.releaseSlot page t slot false) := by
  have hfree : s.asksTrays { s.stopZero page with tier := { (s.stopZero page).tier with
      wiping := (s.stopZero page).tier.wiping ++ [(slotKey t slot, ((s.stopZero page).extent (page / 512)).tenant)] } } := ⟨_, _, _, rfl⟩
  unfold State.releaseSlot
  simp only [Bool.false_eq_true, if_false]
  split
  · exact hfree.trans (State.wipeBlock_asks _ _ _ _ _)
  · exact hfree

theorem execMoveComplete_ends {s : State} {page : BitVec 30} {m : Move} {y sl : Nat} (halive : s.alive = true) (hmoves : s.tier.moves = [m])
    (hpage : m.page = page.toNat) (hdst : m.dst = some (y, sl)) (hcopied : 1024 ≤ m.copied) (hquiet : s.pageQuiet m.page = true) :
    execMoveComplete page s = .next (((s.endMove m y sl).moveOn m.page).wake (fun r => r.stage.waiting && fpaPage r.fpa.toNat == m.page)) := by
  unfold execMoveComplete
  rw [hmoves, List.find?_single (by simp [hpage])]
  simp [hdst, halive, hcopied, hquiet]

/-- Where a page stands after its move. -/
def TierPage.moved (p : TierPage) (m : Move) (y sl : Nat) : TierPage :=
  { p with res := m.want, tray := BitVec.ofNat 9 y, slot := BitVec.ofNat 30 sl, moving := false, heldWhy := 0, pinNext := none }

/-- The page of a move that ends has its new place, before its old slot is released. -/
def State.placeMove (s : State) (m : Move) (y sl : Nat) : State :=
  let u : State := { s with tier := { s.tier with moves := s.tier.moves.filter (fun x => x.page != m.page) } }
  let v := if (s.page m.page).res = 2 ∧ m.want = 1 then u.countTrn 2 else if (s.page m.page).res = 1 ∧ m.want = 2 then u.countTrn 3 else u
  v.setPage m.page ((s.page m.page).moved m y sl)

theorem State.placeMove_tier (s : State) (m : Move) (y sl : Nat) :
    (s.placeMove m y sl).tier = { s.tier with moves := s.tier.moves.filter (fun x => x.page != m.page)
                                              pages := Table.write {} s.tier.pages m.page ((s.page m.page).moved m y sl) } := by
  have hcount : ∀ (u : State) i, (u.countTrn i).tier = u.tier := fun u i =>
    State.countTrn_only u i (only_refl u [.xl, .adk, .evq]) (by decide) .tier (by decide)
  unfold State.placeMove State.setPage
  dsimp only
  split
  · rw [hcount]
  · split
    · rw [hcount]
    · rfl

theorem State.placeMove_reqs (s : State) (m : Move) (y sl : Nat) : (s.placeMove m y sl).req = s.req := by
  have hcount : ∀ (u : State) i, (u.countTrn i).req = u.req := fun u i =>
    State.countTrn_only u i (only_refl u [.xl, .adk, .evq]) (by decide) .req (by decide)
  unfold State.placeMove State.setPage
  dsimp only
  split
  · rw [hcount]
  · split
    · rw [hcount]
    · rfl

theorem State.pinMove_of_pin_zero {s : State} {p : Nat} (h : (s.page p).pin = 0) : s.pinMove p = s :=
  if_neg (by rw [h]; simp)

theorem State.endMove_eq {s : State} {m : Move} {y sl : Nat} (hpin : (s.page m.page).pin = 0) (hnext : (s.page m.page).pinNext = none) :
    s.endMove m y sl = (if (s.page m.page).res = 3 then s.placeMove m y sl
      else (s.placeMove m y sl).releaseSlot m.page (s.page m.page).tray.toNat (s.page m.page).slot.toNat false).pinMove m.page := by
  unfold State.endMove State.placeMove TierPage.moved
  simp only [hnext, Option.getD_none]

/-- A page of no pin takes its new place, and its move is done; only its old slot goes on being wiped. -/
theorem State.endMove_asks {s : State} {m : Move} {y sl : Nat} (hpin : (s.page m.page).pin = 0) (hnext : (s.page m.page).pinNext = none) :
    (s.placeMove m y sl).asksTrays (s.endMove m y sl) ∧ (s.endMove m y sl).req = s.req := by
  have hplaced : ((s.placeMove m y sl).page m.page).pin = 0 := by
    rw [State.page, State.placeMove_tier, Table.read_write_same]
    exact hpin
  rw [State.endMove_eq hpin hnext]
  split
  · rw [State.pinMove_of_pin_zero hplaced]
    exact ⟨State.asksTrays.refl _, s.placeMove_reqs m y sl⟩
  · have hasks := (s.placeMove m y sl).releaseSlot_asks m.page (s.page m.page).tray.toNat (s.page m.page).slot.toNat
    rw [State.pinMove_of_pin_zero ((congrArg TierPage.pin (hasks.page _)).trans hplaced)]
    exact ⟨hasks, (State.releaseSlot_only _ _ _ _ _ (only_refl _ [.pkg, .ports, .tier, .adk, .evq]) (by decide) .req (by decide)).trans
      (s.placeMove_reqs m y sl)⟩

/-! ### Warm pavilions and the decay of heat -/

theorem execPavilionWarm_warms {s : State} {pv : BitVec 6}
    (h : 2 ^ s.tier.warmLog2.toNat ≤ (Table.read {} s.tier.warm pv.toNat).count
      ∨ (Table.read {} s.tier.warm pv.toNat).since + s.tier.warmMs.toNat * msT ≤ s.now) :
    execPavilionWarm pv s = .next { s with tier := { s.tier with
      warm := Table.write {} s.tier.warm pv.toNat { Table.read {} s.tier.warm pv.toNat with warm := true } } } :=
  congrArg Host.Outcome.next (if_pos (by simpa using h))

theorem State.decidePage_off {s : State} (hoff : s.tier.migOn = false) (page : Nat) : s.decidePage page = s := by
  unfold State.decidePage
  simp [hoff]

theorem foldl_decidePage_off {s : State} (hoff : s.tier.migOn = false) (ps : List Nat) :
    ps.foldl (fun s p => s.decidePage p) s = s := by
  induction ps with
  | nil => rfl
  | cons p ps ih => rw [List.foldl_cons, State.decidePage_off hoff, ih]

theorem State.page_halveHeat (s : State) (p : Nat) : s.halveHeat.page p = { s.page p with heat := (s.page p).heat >>> 1 } := by
  refine (Table.read_mapAll {} (fun _ (p : TierPage) => { p with heat := p.heat >>> 1 }) s.tier.pages p).trans ?_
  split
  · rfl
  · next h =>
    rw [State.page, Table.read_of_not_listed (Bool.eq_false_of_not_eq_true h)]
    rfl

/-- A decay with migration off: the queued heat-driven moves go and every heat is halved. -/
def State.decayed (s : State) : State :=
  State.halveHeat (State.dropQueued { s.paid 4 with tim := { (s.paid 4).tim with lastHeat := s.now } })

theorem execHeatDecay_decays {s : State} (halive : s.alive = true) (hdue : s.heatDue = true) (hoff : s.tier.migOn = false) :
    execHeatDecay s = .next s.decayed := by
  have hdecide := foldl_decidePage_off (s := State.dropQueued { s.paid 4 with tim := { (s.paid 4).tim with lastHeat := s.now } }) hoff
    ((State.dropQueued { s.paid 4 with tim := { (s.paid 4).tim with lastHeat := s.now } }).tier.pages.map (·.1))
  unfold execHeatDecay
  rw [halive, hdue]
  exact congrArg (fun u => Host.Outcome.next (State.halveHeat u)) hdecide

theorem State.wake_of_no_reqs {s : State} (h : s.req.reqs = []) (p : Req → Bool) : s.wake p = s := by
  unfold State.wake
  rw [h]
  rfl

/-! ### The statement -/

/-- Settles O38: SETPIN and RELOCATE by their branch, a move by what it marks and where it ends, the decay of heat page by page. -/
theorem pagesMoveBetweenTiers : Obligations.PagesMoveBetweenTiers := by
  unfold Obligations.PagesMoveBetweenTiers
  refine ⟨?pinned, ?queued, ?pinRefused, ?pinKept, ?relocated, ?relocateRefused, ?starts, ?stuck, ?completes, ?warm, ?decay⟩
  case pinned =>
    intro s tag pin hw hext hmoving hhere
    obtain ⟨t, hexec, hresp, htier, hresult, honly⟩ := State.trn_write (f := fun s => s.tpCmd (BitVec.ofNat 64 (1 + 16 * pin.toNat))) hw
      ((State.tpCmd_setPin _ pin).trans (State.setPin_here (s := s.adkTaken _) hext hmoving hhere))
      (State.onPage_only _ _ _ (State.dropTierMoves_only _ _ (only_refl _ _) (by decide)) (by decide))
    refine ⟨t, hexec, hresp, ?_, by rw [htier]; rfl, fun i hi => ?_, hresult, honly⟩
    · rw [State.page, htier]
      exact State.page_onPage_same _ _ _
    · rw [State.page, htier]
      exact State.page_onPage_other _ _ hi
  case queued =>
    intro s tag pin hw hext hmoving hother hroom hnone
    obtain ⟨t, hexec, hresp, htier, hresult, honly⟩ := State.trn_write (f := fun s => s.tpCmd (BitVec.ofNat 64 (1 + 16 * pin.toNat))) hw
      ((State.tpCmd_setPin _ pin).trans (State.setPin_queues (s := s.adkTaken _) hext hmoving hother hroom hnone))
      ((State.onPage_only _ _ _ (only_refl _ _) (by decide)).tier (by decide) _)
    refine ⟨t, hexec, hresp, ?_, by rw [htier]; rfl, hresult, honly⟩
    rw [State.page, htier]
    exact Table.read_write_same _ _ _ _
  case pinRefused =>
    intro s tag pin hw hext hmoving hother hfull
    obtain ⟨t, hexec, hresp, htier, hresult, honly⟩ := State.trn_write (f := fun s => s.tpCmd (BitVec.ofNat 64 (1 + 16 * pin.toNat))) hw
      ((State.tpCmd_setPin _ pin).trans (State.setPin_refused (s := s.adkTaken _) hext hmoving hother hfull)) (only_refl _ _)
    exact ⟨t, hexec, hresp, htier, hresult, honly⟩
  case pinKept =>
    intro s tag pin hw hext hmoving
    obtain ⟨t, hexec, hresp, htier, hresult, honly⟩ := State.trn_write (f := fun s => s.tpCmd (BitVec.ofNat 64 (1 + 16 * pin.toNat))) hw
      ((State.tpCmd_setPin _ pin).trans (State.setPin_moving (s := s.adkTaken _) hext hmoving pin))
      (State.onPage_only _ _ _ (only_refl _ _) (by decide))
    refine ⟨t, hexec, hresp, ?_, by rw [htier]; rfl, hresult, honly⟩
    rw [State.page, htier]
    exact State.page_onPage_same _ _ _
  case relocated =>
    intro s tag r hw hlost hnone hslot
    obtain ⟨trays, hslot'⟩ := State.allocSlot_same (s := s) (u := s.adkTaken (wrFrame tag (trnAddr 0x068) 2)) rfl
      (State.bestTray_same rfl rfl _) hslot
    obtain ⟨u, hset, hmoves, hpage, hu⟩ := State.relocate_takes (s := s.adkTaken _) hlost hnone hslot'
    obtain ⟨t, hexec, hresp, htier, hresult, honly⟩ := State.trn_write (f := fun s => s.tpCmd 2) hw ((State.tpCmd_relocate _).trans hset)
      (hu.mono (by decide))
    exact ⟨t, hexec, hresp, by rw [htier]; exact hmoves, by rw [State.page, htier]; exact hpage, hresult, honly⟩
  case relocateRefused =>
    intro s tag hw hres
    obtain ⟨t, hexec, hresp, htier, hresult, honly⟩ := State.trn_write (f := fun s => s.tpCmd 2) hw
      ((State.tpCmd_relocate _).trans (State.relocate_refused (s := s.adkTaken _) hres)) (only_refl _ _)
    exact ⟨t, hexec, hresp, htier, hresult, honly⟩
  case starts =>
    intro s page m r halive hmoves hpage hmovable hroom hother hslot
    exact ⟨_, execMoveStart_starts halive hmoves hpage hmovable hroom, State.beginMove_marks hmoves hother hslot⟩
  case stuck =>
    intro s page m _ hmoves hpage hstuck
    exact execMoveStart_idle hmoves hpage hstuck
  case completes =>
    intro s page m y sl halive hmoves hpage hdst hy hsl hcopied hquiet hreqs hpin hnext hstays
    obtain ⟨hasks, hreq⟩ := State.endMove_asks (y := y) (sl := sl) hpin hnext
    have htier := s.placeMove_tier m y sl
    have hpage' : (s.endMove m y sl).page m.page = (s.page m.page).moved m y sl := by
      rw [hasks.page, State.page, htier, Table.read_write_same]
    have hy' : ((s.page m.page).moved m y sl).tray.toNat = y := by simp [TierPage.moved, Nat.mod_eq_of_lt hy]
    have htray : (s.endMove m y sl).tray y = s.tray y := by rw [hasks.tray, State.tray, htier]; rfl
    have hstay : (s.endMove m y sl).moveOn m.page = s.endMove m y sl := if_neg (by rw [hpage', hy', htray, hstays]; decide)
    have hexec := execMoveComplete_ends halive hmoves hpage hdst hcopied hquiet
    rw [hstay, State.wake_of_no_reqs (by rw [hreq]; exact hreqs)] at hexec
    refine ⟨_, hexec, ?_, by rw [hpage']; rfl, by rw [hpage']; exact hy', ?_, by rw [hpage']; rfl, fun i hi => ?_, ?_⟩
    · rw [hasks.moves, htier, hmoves]
      simp
    · rw [hpage']
      exact Nat.mod_eq_of_lt hsl
    · rw [hasks.page, State.page, htier, Table.read_write_other _ _ _ hi]
      rfl
    · rw [hasks.mem, htier]
  case warm =>
    intro s pv hdue
    refine ⟨_, execPavilionWarm_warms hdue, ?_, fun i hi => ?_, rfl, (only_refl s [.tier]).tier (by decide) _⟩
    · simp [State.coldPv]
    · simp [State.coldPv, Table.read_write_other _ _ _ hi]
  case decay =>
    intro s halive hdue hoff
    refine ⟨_, execHeatDecay_decays halive hdue hoff, fun p => State.page_halveHeat _ p, rfl, rfl, rfl, ?_⟩
    exact ((only_refl s [.tim, .tier]).tim (by decide) _).tier (by decide) _

end Sys2Proof.Machine
end

section
/-! SUPPORT. Admission records (R145 to R148). -/

namespace Sys2Proof.Machine

/-- What an admission command leaves: the record `r` is `x`, the result and the FAIL code are set, no other record changes. -/
structure State.admLeft (s t : State) (r : Nat) (x : AdmRecord) (st : BitVec 6) (fail : Nat) : Prop where
  record : t.admRec r = x
  fail : t.adm.fail = BitVec.ofNat 4 fail
  result : t.adm.result = st
  others : ∀ i, i ≠ r → t.admRec i = s.admRec i

/-- The state with the result of an admission command. -/
def State.admEnded (s : State) (st : BitVec 6) (fail : Nat) : State := { s with adm := { s.adm with result := st, fail := BitVec.ofNat 4 fail } }

theorem State.admLeft.of_adm {s t u : State} {r : Nat} {x : AdmRecord} {st : BitVec 6} {fail : Nat} (h : s.admLeft t r x st fail)
    (hu : u.adm = t.adm) : s.admLeft u r x st fail := by
  obtain ⟨hrec, hfail, hresult, hothers⟩ := h
  exact ⟨by rw [State.admRec, hu]; exact hrec, by rw [hu]; exact hfail, by rw [hu]; exact hresult,
    fun i hi => by rw [State.admRec, hu]; exact hothers i hi⟩

theorem State.admEnded_left (s : State) (r : Nat) (st : BitVec 6) (fail : Nat) :
    s.admLeft (s.admEnded st fail) r (s.admRec r) st fail := ⟨rfl, rfl, rfl, fun _ _ => rfl⟩

theorem State.admEnded_onAdm_left (s : State) (r : Nat) (f : AdmRecord → AdmRecord) (st : BitVec 6) (fail : Nat) :
    s.admLeft ((s.admEnded st fail).onAdm r f) r (f (s.admRec r)) st fail :=
  ⟨State.admRec_onAdm_same _ _ _, rfl, rfl, fun _ hi => State.admRec_onAdm_other _ _ hi⟩

theorem State.admEnded_only (s : State) (st : BitVec 6) (fail : Nat) : s.changesOnly (s.admEnded st fail) [.ports, .adm, .sec, .log, .adk, .evq] :=
  (only_refl s _).adm (by decide) _

/-- The operations of EXT_ADM_CMD, by the code the command ends with. -/
theorem State.admCmd_fails {s : State} {v : BitVec 64} {fail : Nat} (hop : bits v.toNat 1 0 ≠ 0)
    (hcode : s.admCode (bits v.toNat 1 0) s.adm.sel.toNat = fail) (hfail : fail ≠ 0) : s.admCmd v = (s.admEnded stDenied fail, stDenied) := by
  unfold State.admCmd State.admEnded
  simp [hop, hcode, hfail]

theorem State.admCmd_reserves {s : State} {v : BitVec 64} (hop : bits v.toNat 1 0 ≠ 0) (hop3 : bits v.toNat 1 0 ≠ 3)
    (hcode : s.admCode (bits v.toNat 1 0) s.adm.sel.toNat = 0) :
    s.admCmd v = (((s.admEnded stOk 0).onAdm s.adm.sel.toNat (fun x => { x with admitted := true, resv := x.req })).bindMeters s.adm.sel.toNat, stOk) := by
  unfold State.admCmd State.admEnded
  simp [hop, hop3, hcode]

theorem State.admCmd_releases {s : State} {v : BitVec 64} (hop : bits v.toNat 1 0 = 3) (hcode : s.admCode 3 s.adm.sel.toNat = 0) :
    s.admCmd v = (((s.admEnded stOk 0).onAdm s.adm.sel.toNat (fun x => { x with admitted := false, resv := {} })).unbindMeters s.adm.sel.toNat, stOk) := by
  unfold State.admCmd State.admEnded
  simp [hop, hcode]

/-- A command of the operator on the admission records: what it left is what stands after the answer. -/
theorem State.adm_write {s u : State} {tag : BitVec 16} {op : Nat} {r : Nat} {x : AdmRecord} {st : BitVec 6} {fail : Nat}
    (hw : s.writes tag (extAddr 0x110) (BitVec.ofNat 64 op) .operator)
    (hcmd : (s.adkTaken (wrFrame tag (extAddr 0x110) (BitVec.ofNat 64 op))).admCmd (BitVec.ofNat 64 op) = (u, st))
    (hleft : (s.adkTaken (wrFrame tag (extAddr 0x110) (BitVec.ofNat 64 op))).admLeft u r x st fail)
    (honly : (s.adkTaken (wrFrame tag (extAddr 0x110) (BitVec.ofNat 64 op))).changesOnly u [.ports, .adm, .sec, .log, .adk, .evq]) :
    ∃ t, Host.Outcome.next (φ := Fault) (ρ := Refusal) (s.admCmdWr tag op) = .next t ∧ t.responded tag st ∧ t.admRec r = x
      ∧ t.adm.fail = BitVec.ofNat 4 fail ∧ t.adm.result = st ∧ (∀ i, i ≠ r → t.admRec i = s.admRec i)
      ∧ s.changesOnly t [.ports, .adm, .sec, .log, .adk, .evq] := by
  obtain ⟨t, hexec, hresp, hreply, honly⟩ := State.adkWr_effect (ps := [.ports, .adm, .sec, .log, .adk, .evq])
    (f := fun s => s.admCmd (BitVec.ofNat 64 op)) hw hcmd honly (by decide)
  obtain ⟨hrec, hfail, hresult, hothers⟩ := hleft.of_adm (hreply .adm (by decide))
  exact ⟨t, hexec, hresp, hrec, hfail, hresult, hothers, honly⟩

theorem State.adm_write_fails {s : State} {tag : BitVec 16} {op fail : Nat} (hop : bits (BitVec.ofNat 64 op).toNat 1 0 = op) (hne : op ≠ 0)
    (hw : s.writes tag (extAddr 0x110) (BitVec.ofNat 64 op) .operator) (hcode : s.admCode op s.adm.sel.toNat = fail) (hfail : fail ≠ 0) :
    ∃ t, Host.Outcome.next (φ := Fault) (ρ := Refusal) (s.admCmdWr tag op) = .next t ∧ t.responded tag stDenied
      ∧ t.admRec s.adm.sel.toNat = s.admRec s.adm.sel.toNat ∧ t.adm.fail = BitVec.ofNat 4 fail ∧ t.adm.result = stDenied
      ∧ (∀ i, i ≠ s.adm.sel.toNat → t.admRec i = s.admRec i) ∧ s.changesOnly t [.ports, .adm, .sec, .log, .adk, .evq] :=
  State.adm_write hw (State.admCmd_fails (s := s.adkTaken _) (by rw [hop]; exact hne) (by rw [hop]; exact hcode) hfail)
    (State.admEnded_left _ _ _ _) (State.admEnded_only _ _ _)

theorem State.adm_write_reserves {s : State} {tag : BitVec 16} {op : Nat} (hop : bits (BitVec.ofNat 64 op).toNat 1 0 = op) (hne : op ≠ 0) (hne3 : op ≠ 3)
    (hw : s.writes tag (extAddr 0x110) (BitVec.ofNat 64 op) .operator) (hcode : s.admCode op s.adm.sel.toNat = 0) :
    ∃ t, Host.Outcome.next (φ := Fault) (ρ := Refusal) (s.admCmdWr tag op) = .next t ∧ t.responded tag stOk
      ∧ t.admRec s.adm.sel.toNat = { s.admRec s.adm.sel.toNat with admitted := true, resv := (s.admRec s.adm.sel.toNat).req }
      ∧ t.adm.fail = BitVec.ofNat 4 0 ∧ t.adm.result = stOk
      ∧ (∀ i, i ≠ s.adm.sel.toNat → t.admRec i = s.admRec i) ∧ s.changesOnly t [.ports, .adm, .sec, .log, .adk, .evq] :=
  State.adm_write hw (State.admCmd_reserves (s := s.adkTaken _) (by rw [hop]; exact hne) (by rw [hop]; exact hne3) (by rw [hop]; exact hcode))
    ((State.admEnded_onAdm_left _ s.adm.sel.toNat (fun x => { x with admitted := true, resv := x.req }) stOk 0).of_adm
      (State.bindMeters_only _ _ (only_refl _ [.ports]) (by decide) .adm (by decide)))
    (State.bindMeters_only _ _ (State.onAdm_only _ _ _ (State.admEnded_only _ _ _) (by decide)) (by decide))

theorem State.adm_write_releases {s : State} {tag : BitVec 16}
    (hw : s.writes tag (extAddr 0x110) (BitVec.ofNat 64 3) .operator) (hcode : s.admCode 3 s.adm.sel.toNat = 0) :
    ∃ t, Host.Outcome.next (φ := Fault) (ρ := Refusal) (s.admCmdWr tag 3) = .next t ∧ t.responded tag stOk
      ∧ t.admRec s.adm.sel.toNat = { s.admRec s.adm.sel.toNat with admitted := false, resv := {} }
      ∧ t.adm.fail = BitVec.ofNat 4 0 ∧ t.adm.result = stOk
      ∧ (∀ i, i ≠ s.adm.sel.toNat → t.admRec i = s.admRec i) ∧ s.changesOnly t [.ports, .adm, .sec, .log, .adk, .evq] :=
  State.adm_write hw (State.admCmd_releases (s := s.adkTaken _) (by decide) hcode)
    ((State.admEnded_onAdm_left _ s.adm.sel.toNat (fun x => { x with admitted := false, resv := {} }) stOk 0).of_adm
      (State.unbindMeters_only _ _ (only_refl _ [.ports]) (by decide) .adm (by decide)))
    (State.unbindMeters_only _ _ (State.onAdm_only _ _ _ (State.admEnded_only _ _ _) (by decide)) (by decide))

/-! ### The code of each operation (Table 06-19) -/

theorem State.admCode_admit {s : State} {r : Nat} (hnew : (s.admRec r).admitted = false)
    (hactive : (s.tenant (s.admRec r).tenant.toNat).state = .active) (hparent : s.parentOk (s.admRec r) = true) :
    s.admCode 1 r = s.admFail r (s.admRec r) := by
  unfold State.admCode
  simp [hnew, hactive, hparent]

theorem State.admCode_resize {s : State} {r : Nat} (hadm : (s.admRec r).admitted = true) (hparent : s.parentOk (s.admRec r) = true)
    (hfits : s.admFail r (s.admRec r) = 0) : s.admCode 2 r = if (s.admRec r).req.below (s.recUse r) then 9 else 0 := by
  unfold State.admCode
  simp [hadm, hparent, hfits]

theorem State.admCode_release {s : State} {r : Nat} (hadm : (s.admRec r).admitted = true) (huse : s.recUse r = {}) (hjobs : s.jobsOf r = []) :
    s.admCode 3 r = 0 := by
  unfold State.admCode
  simp [hadm, huse, hjobs]

theorem State.admCode_release_used {s : State} {r : Nat} (hadm : (s.admRec r).admitted = true) (huse : s.recUse r ≠ {}) : s.admCode 3 r = 9 := by
  unfold State.admCode
  simp [hadm, huse]

/-- Settles O36: each command by the code it ends with. -/
theorem admissionIsAllOrNothing : Obligations.AdmissionIsAllOrNothing := by
  unfold Obligations.AdmissionIsAllOrNothing
  refine ⟨?admits, ?admitFails, ?resizes, ?resizeFails, ?releases, ?releaseFails⟩
  case admits =>
    intro s tag hw hnew hactive hparent hfits
    exact State.adm_write_reserves (by decide) (by decide) (by decide) hw ((State.admCode_admit hnew hactive hparent).trans hfits)
  case admitFails =>
    intro s tag hw hnew hactive hparent hfail
    exact State.adm_write_fails (by decide) (by decide) hw (State.admCode_admit hnew hactive hparent) hfail
  case resizes =>
    intro s tag hw hadm hparent hfits hbelow
    obtain ⟨t, hexec, hresp, hrec, hrest⟩ := State.adm_write_reserves (by decide) (by decide) (by decide) hw
      ((State.admCode_resize hadm hparent hfits).trans (by rw [hbelow]; rfl))
    exact ⟨t, hexec, hresp, by rw [hrec, ← hadm], hrest⟩
  case resizeFails =>
    intro s tag hw hadm hparent hfits hbelow
    exact State.adm_write_fails (by decide) (by decide) hw ((State.admCode_resize hadm hparent hfits).trans (by rw [hbelow]; rfl)) (by decide)
  case releases =>
    intro s tag hw hadm huse hjobs
    exact State.adm_write_releases hw (State.admCode_release hadm huse hjobs)
  case releaseFails =>
    intro s tag hw hadm huse
    exact State.adm_write_fails (by decide) (by decide) hw (State.admCode_release_used hadm huse) (by decide)

end Sys2Proof.Machine
end

section
/-! SUPPORT. Frames leave a port, and its gate list runs (R278 to R287). -/

namespace Sys2Proof.Machine

/-! ### One rim port -/

/-- From `s` to `t` port `p` has become `x`, and nothing else has changed but what `ps` names. -/
structure State.holdsPort (s t : State) (p : Nat) (x : Port) (ps : List Part) : Prop where
  port : t.port p = x
  others : s.otherPorts t p
  only : s.changesOnly t ps

theorem State.holdsPort.refl (s : State) (p : Nat) (ps : List Part) : s.holdsPort s p (s.port p) ps :=
  ⟨rfl, s.otherPorts_refl p, only_refl s ps⟩

theorem State.holdsPort.mono {s t : State} {p : Nat} {x : Port} {ps qs : List Part} (h : s.holdsPort t p x ps) (hq : ps ⊆ qs) :
    s.holdsPort t p x qs := ⟨h.port, h.others, h.only.mono hq⟩

theorem State.holdsPort.onTc {s t : State} {p : Nat} {x : Port} {ps : List Part} (h : s.holdsPort t p x ps) (f : Traffic → Traffic)
    (hm : [Part.ports] ⊆ ps := by decide) : s.holdsPort (t.onTc p f) p { x with tc := f x.tc } ps := by
  refine ⟨?_, State.otherPorts_onTc f h.others, State.onTc_only t p f h.only hm⟩
  rw [← h.port]
  exact Table.read_write_same _ _ _ _

theorem State.holdsPort.onLink {s t : State} {p : Nat} {x : Port} {ps : List Part} (h : s.holdsPort t p x ps) (f : Link → Link)
    (hm : [Part.ports] ⊆ ps := by decide) : s.holdsPort (t.onLink p f) p { x with link := f x.link } ps := by
  refine ⟨?_, State.otherPorts_onLink f h.others, State.onLink_only t p f h.only hm⟩
  rw [← h.port]
  exact Table.read_write_same _ _ _ _

/-- The traffic part of a port one of whose queues changes. -/
def Traffic.onQueue (t : Traffic) (q : Nat) (f : Queue → Queue) : Traffic :=
  { t with queues := Table.write {} t.queues q (f (Table.read {} t.queues q)) }

theorem State.holdsPort.onQueue {s t : State} {p : Nat} {x : Port} {ps : List Part} (h : s.holdsPort t p x ps) (q : Nat) (f : Queue → Queue)
    (hm : [Part.ports] ⊆ ps := by decide) : s.holdsPort (t.onQueue p q f) p { x with tc := x.tc.onQueue q f } ps := h.onTc _ hm

theorem State.holdsPort.countQue {s t : State} {p : Nat} {x : Port} {ps : List Part} (h : s.holdsPort t p x ps) (q i n : Nat)
    (hm : [Part.ports, Part.adk, Part.evq] ⊆ ps := by decide) :
    s.holdsPort (t.countQue p q i n) p { x with tc := x.tc.onQueue q (fun l => l.counted i n) } ps := by
  have hqueue := h.onQueue q (fun l => l.counted i n) (fun y hy => hm (by simp at hy; simp [hy]))
  refine ⟨?_, State.otherPorts_of_ports hqueue.others (t.countQue_ports p q i n), State.countQue_only t p q i n h.only hm⟩
  rw [State.port, t.countQue_ports]
  exact hqueue.port

theorem Queue.counted_fifos (l : Queue) (i n : Nat) : (l.counted i n).fifos = l.fifos := by
  unfold Queue.counted
  dsimp only
  split <;> rfl

theorem State.dieFt_of_only {s t : State} {ps : List Part} (h : s.changesOnly t ps) (hp : Part.tim ∉ ps) (x : Nat) : t.dieFt x = s.dieFt x := by
  have htim : t.tim = s.tim := h .tim hp
  simp only [State.dieFt, htim]

/-! ### A frame goes onto the lanes -/

/-- A frame as a port sends it: an S port counts its stage. -/
def Link.hopped (l : Link) (f : Frame) : Frame :=
  if l.cls = 2 then { f with hops := if f.hops = 15 then 15 else f.hops + 1 } else f

/-- The link of a port that has sent a frame. -/
def Link.sending (l : Link) (now : FT) (f : Frame) : Link :=
  { l with
    txSeq := l.txSeq + 1, replay := l.replay ++ [(l.txSeq, f)], ackAt := if l.replay.isEmpty then now else l.ackAt,
    sentNum := if f.vc = 6 then l.sentNum else l.sentNum + 1
    credSpent := Table.write 0 l.credSpent f.vc.toNat (Table.read 0 l.credSpent f.vc.toNat + BitVec.ofNat 16 (creditCost f)) }

theorem Link.hopped_payload (l : Link) (f : Frame) : (l.hopped f).payload = f.payload := by
  unfold Link.hopped
  split <;> rfl

theorem Link.hopped_vc (l : Link) (f : Frame) : (l.hopped f).vc = f.vc := by
  unfold Link.hopped
  split <;> rfl

theorem Link.hopped_names (l : Link) (f : Frame) : (l.hopped f).opcode = f.opcode ∧ (l.hopped f).dst = f.dst ∧ (l.hopped f).src = f.src
    ∧ (l.hopped f).tag = f.tag := by
  unfold Link.hopped
  split <;> exact ⟨rfl, rfl, rfl, rfl⟩

theorem Link.sending_credSpent (l : Link) (now : FT) (f : Frame) : (l.sending now f).credSpent
    = Table.write 0 l.credSpent f.vc.toNat (Table.read 0 l.credSpent f.vc.toNat + BitVec.ofNat 16 (creditCost f)) := rfl

theorem Link.creditCost_hopped (l : Link) (f : Frame) : creditCost (l.hopped f) = creditCost f := by
  rw [creditCost, Link.hopped_payload]
  rfl

/-- A payload under a lot key has the length it had. -/
theorem State.wireSize_lotFrame (s : State) (b : Nat) (out : Bool) (num : Nat) (f : Frame) : wireSize (s.lotFrame b out num f) = wireSize f := by
  unfold State.lotFrame wireSize
  dsimp only
  split
  · rfl
  · simp [lotCrypt]

/-- What the lanes of a port carry from the moment it sends a frame. -/
def State.laneOf (s : State) (p : Nat) (queue : Option Nat) (f : Frame) : Lane :=
  let now := s.dieFt (portSite p)
  { queue := queue, wire := some ((s.link p).txSeq, s.lotFrame p true (s.link p).sentNum ((s.link p).hopped f))
    ends := now + wireT (wireSize f), free := now + wireT (wireSize f) * thermalT (s.die (portSite p)).level.toNat }

theorem State.holdsPort.transmit {s t : State} {p : Nat} {x : Port} {ps : List Part} (h : s.holdsPort t p x ps) (hoff : x.link.bundleOff = 0)
    (queue : Option Nat) (f : Frame) (hm : [Part.ports] ⊆ ps := by decide) :
    s.holdsPort (t.transmit p queue f) p { link := x.link.sending t.now (x.link.hopped f)
                                           tc := { x.tc with lanes := Table.write {} x.tc.lanes 0 (t.laneOf p queue f) } } ps := by
  have hlink : t.link p = x.link := congrArg Port.link h.port
  have hbase : t.base p = p := by simp [State.base, hlink, hoff]
  have hsize : wireSize (t.lotFrame p true (t.link p).sentNum ((t.link p).hopped f)) = wireSize f := by
    rw [State.wireSize_lotFrame, wireSize, Link.hopped_payload]
    rfl
  have hsent : t.transmit p queue f = (t.onTc p (fun y => { y with lanes := Table.write {} y.lanes 0 (t.laneOf p queue f) })).onLink p
      (fun l => { l with
        txSeq := l.txSeq + 1, replay := l.replay ++ [(l.txSeq, (t.link p).hopped f)], ackAt := if l.replay.isEmpty then t.now else l.ackAt,
        sentNum := if ((t.link p).hopped f).vc = 6 then l.sentNum else l.sentNum + 1
        credSpent := Table.write 0 l.credSpent ((t.link p).hopped f).vc.toNat
          (Table.read 0 l.credSpent ((t.link p).hopped f).vc.toNat + BitVec.ofNat 16 (creditCost ((t.link p).hopped f))) }) := by
    unfold State.transmit State.laneTake
    rw [hbase]
    have hzero : (t.link p).bundleOff.toNat = 0 := by rw [hlink, hoff]; rfl
    rw [hzero]
    show State.onLink (State.onTc t p _) p _ = _
    rw [← Link.hopped, hsize]
    rfl
  rw [hsent, hlink]
  exact (h.onTc _ hm).onLink _ hm

theorem State.plainPort.aloneFlows {s : State} {p : Nat} (hp : s.plainPort p) : s.aloneFlows p = false := by
  simp [State.aloneFlows, hp.bundled]

/-- The choice of a port that can start a frame (R280). -/
theorem execEgressFrameStart_plain {s : State} {port : BitVec 8} (hp : s.plainPort port.toNat)
    (hflows : (s.link port.toNat).state.flows = true) (hfree : s.laneFree port.toNat = true) :
    execEgressFrameStart port s = .next (
      let queues := if (s.link port.toNat).state = .opened then s.egressQueue port.toNat port.toNat else s
      match (s.port port.toNat).tc.vc6 with
      | f :: rest =>
        if creditCost f ≤ (s.link port.toNat).creditsAt 6 ∧ (s.link port.toNat).replayRoom f then
          (s.onTc port.toNat (fun t => { t with vc6 := rest })).transmit port.toNat none f
        else queues
      | [] => queues) := by
  unfold execEgressFrameStart
  simp only [hp.base, hp.alive, hfree, hp.aloneFlows, hflows, hp.isMember, Bool.not_true, Bool.or_self, Bool.false_eq_true,
    if_false] <;> rfl

theorem execEgressFrameStart_down {s : State} {port : BitVec 8} (hp : s.plainPort port.toNat) (hdown : (s.link port.toNat).state = .down) :
    execEgressFrameStart port s = .next s := by
  unfold execEgressFrameStart
  simp only [hp.base, hp.aloneFlows, hdown, LinkState.flows, Bool.not_false, Bool.true_or, Bool.false_eq_true, if_false, if_true]
  split <;> rfl

/-! ### The head of queue 0 -/

/-- A queue whose head on a virtual channel has left. -/
def Queue.sent (q : Queue) (now : FT) (vc size : Nat) : Queue :=
  { q with fifos := Table.write [] q.fifos vc ((q.fifo vc).drop 1), shape := q.shape.charge now size }

theorem State.selectQueue_front {s : State} {p : Nat} {x : QFrame} (h : s.offered p 0 = some x) : s.selectQueue p = some (0, (s.port p).tc) := by
  unfold State.selectQueue
  simp [h]

theorem State.egressForm_plain {s : State} {p : Nat} {x : QFrame} (hplain : x.frame.has flCmpr = false) (helem : x.elem = none) :
    s.egressForm p x = (s, x.frame) := by
  unfold State.egressForm
  simp [hplain, helem]

theorem State.outSize_plain {s : State} {p : Nat} {x : QFrame} (hplain : x.frame.has flCmpr = false) : s.outSize p x = wireSize x.frame := by
  unfold State.outSize State.outUnits
  simp [hplain, wireSize, wireBytes]

/-- The traffic part of a port whose queue 0 sends its head: shapers, the rate loop and the meter are charged. -/
theorem State.holdsPort.chargeMeter {s t : State} {p : Nat} {x : Port} {ps : List Part} (h : s.holdsPort t p x ps) (tenant : BitVec 10)
    (size : Nat) (hm : [Part.ports] ⊆ ps := by decide) :
    ∃ meters, s.holdsPort (t.chargeMeter p tenant size) p { x with tc := { x.tc with meters := meters } } ps := by
  unfold State.chargeMeter
  split
  · exact ⟨x.tc.meters, h⟩
  · exact ⟨_, h.onTc _ hm⟩

/-- Before the head of queue 0 goes onto the lanes, it has left its FIFO and the port has been charged. -/
theorem State.egressQueue_front {s : State} {p : Nat} {x : QFrame} (hoffered : s.offered p 0 = some x)
    (hholds : (s.port p).tc.shape.holds s.now (s.outSize p x) = true)
    (hroom : (s.link p).replayRoom { x.frame with payload := fill (64 * s.outUnits p x) 0 } = true)
    (hplain : x.frame.has flCmpr = false) (helem : x.elem = none) :
    ∃ u y, s.egressQueue p p = (((u.transmit p (some 0) x.frame).countQue p 0 0).countQue p 0 1 (wireSize x.frame))
      ∧ s.holdsPort u p { link := s.link p, tc := y } [.ports, .adk, .evq]
      ∧ Table.read {} y.queues 0 = (s.queue p 0).sent s.now x.frame.vc.toNat (wireSize x.frame) := by
  have hport := State.holdsPort.refl s p [.ports, .adk, .evq]
  obtain ⟨meters, hcharged⟩ := ((hport.onTc (fun _ => { (s.port p).tc with
      shape := (s.port p).tc.shape.charge s.now (s.outSize p x)
      rlTokens := if s.ownRequest p x.frame then (s.port p).tc.rateTokens s.now - s.outSize p x * 65536 else (s.port p).tc.rlTokens
      rlSince := if s.ownRequest p x.frame then s.now else (s.port p).tc.rlSince })).onQueue 0
    (fun q => q.sent s.now x.frame.vc.toNat (s.outSize p x))).chargeMeter x.frame.tenant (s.outSize p x)
  refine ⟨_, _, ?_, hcharged, ?_⟩
  · unfold State.egressQueue
    rw [State.selectQueue_front hoffered]
    dsimp only
    rw [hoffered]
    dsimp only
    rw [if_neg (by rw [hholds, hroom]; decide), State.egressForm_plain hplain helem]
    rfl
  · rw [← State.outSize_plain (s := s) (p := p) hplain]
    exact Table.read_write_same _ _ _ _

/-- A frame from queue `q` on the lanes: its lane and its count; the FIFOs are as they were. -/
theorem State.holdsPort.sendsFrom {s v : State} {p : Nat} {l : Link} {y : Traffic} {ps : List Part}
    (h : s.holdsPort v p { link := l, tc := y } ps) (hoff : l.bundleOff = 0) (q size : Nat) (f : Frame)
    (hm : [Part.ports, Part.adk, Part.evq] ⊆ ps := by decide) :
    ∃ z, s.holdsPort (((v.transmit p (some q) f).countQue p q 0).countQue p q 1 size) p
        { link := l.sending v.now (l.hopped f), tc := z } ps
      ∧ Table.read {} z.lanes 0 = v.laneOf p (some q) f ∧ (Table.read {} z.queues q).fifos = (Table.read {} y.queues q).fifos := by
  refine ⟨_, ((h.transmit hoff (some q) f (fun x hx => hm (by simp at hx; simp [hx]))).countQue q 0 1 hm).countQue q 1 size hm, ?_, ?_⟩
  · simp only [Traffic.onQueue, Table.read_write_same]
  · simp only [Traffic.onQueue, Table.read_write_same, Queue.counted_fifos]

/-! ### Gate lists -/

theorem State.gateListOk_same {s u : State} (hports : u.ports = s.ports) (hclv : u.clv = s.clv) (p : Nat) (l : List GateEntry) :
    u.gateListOk p l = s.gateListOk p l := by
  have hguard : ∀ q, u.guardOf p q = s.guardOf p q := fun q => by simp only [State.guardOf, State.port, hports, hclv] <;> rfl
  simp only [State.gateListOk, hguard]

theorem State.gateCtrl_refused {s : State} {p : Nat} {v : BitVec 64} (hpending : (s.port p).tc.gate.pending = true) :
    s.gateCtrl p v = (s, stDenied) := if_pos hpending

theorem State.gateCtrl_commits {s : State} {p : Nat} {v : BitVec 64} (hpending : (s.port p).tc.gate.pending = false)
    (hcommit : v.getLsbD 0 = true)
    (hok : s.gateListOk p (Gate.list { (s.port p).tc.gate with pendLast := BitVec.ofNat 8 (bits v.toNat 39 32), pendNone := v.getLsbD 5 } false) = true) :
    s.gateCtrl p v = (s.onTc p (fun t => { t with gate := { (s.port p).tc.gate with
      pendLast := BitVec.ofNat 8 (bits v.toNat 39 32), pendNone := v.getLsbD 5, pending := true, commitAt := s.now } }), stOk) := by
  refine (if_neg (by rw [hpending]; decide)).trans ((if_pos hcommit).trans (if_pos ?_))
  rw [Bool.or_eq_true]
  exact Or.inr hok

/-- The sequencer takes up the entry in effect; the queues it catches are counted. -/
theorem State.holdsPort.sequence {s t : State} {p : Nat} {x : Port} (h : s.holdsPort t p x [.ports, .adk, .evq]) :
    ∃ y, s.holdsPort (t.sequence p) p y [.ports, .adk, .evq] ∧ y.tc.gate = x.tc.gate.takeUp (t.dieFt (portSite p)) := by
  have hcounts : ∀ (es : List (Nat × Nat)) (was : List (Nat × Nat)) (u : State) (y : Port), s.holdsPort u p y [.ports, .adk, .evq] →
      ∃ z, s.holdsPort (es.foldl (fun s e => if was.contains e then s else s.countQue p e.2 3) u) p z [.ports, .adk, .evq]
        ∧ z.tc.gate = y.tc.gate := by
    intro es was
    induction es with
    | nil => exact fun u y hu => ⟨y, hu, rfl⟩
    | cons e es ih =>
      intro u y hu
      rw [List.foldl_cons]
      split
      · exact ih u y hu
      · obtain ⟨z, hz, hgate⟩ := ih _ _ (hu.countQue e.2 3 1)
        exact ⟨z, hz, hgate⟩
  obtain ⟨z, hz, hgate⟩ := hcounts _ ((t.port p).tc.overruns (t.dieFt (portSite p))) _ _
    (h.onTc (fun y => { y with gate := y.gate.takeUp (t.dieFt (portSite p)) }))
  exact ⟨z, hz, hgate⟩

theorem execGateCycleStart_cycles {s : State} {port : BitVec 8} (hrun : s.gatesRun = true) (hact : (s.port port.toNat).tc.gate.activates s.now = false)
    (hinst : (s.port port.toNat).tc.gate.installed = true)
    (hdue : pointDue (s.port port.toNat).tc.gate.actBase (s.port port.toNat).tc.gate.cycle (s.port port.toNat).tc.gate.lastStart s.now = true) :
    execGateCycleStart port s = .next ((s.onTc port.toNat (fun t => { t with gate := { t.gate with run := true, lastStart := s.now } })).sequence port.toNat) := by
  unfold execGateCycleStart
  simp [hrun, hact, hinst, hdue]

theorem execGateCycleStart_activates {s : State} {port : BitVec 8} (hrun : s.gatesRun = true) (hact : (s.port port.toNat).tc.gate.activates s.now = true) :
    execGateCycleStart port s = .next ((s.onTc port.toNat (fun t => { t with gate := t.gate.activate s.now })).sequence port.toNat) := by
  unfold execGateCycleStart
  simp [hrun, hact]

theorem execGateEntryAdvance_advances {s : State} {port : BitVec 8} (hrun : s.gatesRun = true) (hgate : (s.port port.toNat).tc.gate.run = true)
    (hends : (s.port port.toNat).tc.gate.curEnd ≤ s.dieFt (portSite port.toNat)) : execGateEntryAdvance port s = .next (s.sequence port.toNat) := by
  unfold execGateEntryAdvance
  simp [hrun, hgate, hends]

theorem execGateEntryAdvance_stopped {s : State} {port : BitVec 8} (hstop : s.gatesRun = false) : execGateEntryAdvance port s = .next s := by
  unfold execGateEntryAdvance
  simp [hstop]

/-! ### The statement -/

/-- Settles O42: what each row leaves in the one port that it is about. -/
theorem framesLeaveAndGatesRun : Obligations.FramesLeaveAndGatesRun := by
  unfold Obligations.FramesLeaveAndGatesRun
  refine ⟨?control, ?queued, ?down, ?committed, ?refused, ?cycles, ?activated, ?advances, ?stopped⟩
  case control =>
    intro s port f rest hp hflows hfree hvc6 hcredit hroom hvc
    have hexec := execEgressFrameStart_plain hp hflows hfree
    rw [hvc6] at hexec
    dsimp only at hexec
    rw [if_pos ⟨hcredit, hroom⟩] at hexec
    obtain ⟨u, hexec, hport, hothers, honly⟩ : ∃ u, exec (.egressFrameStart port) s = .next u
        ∧ s.holdsPort u port.toNat { link := (s.link port.toNat).sending s.now ((s.link port.toNat).hopped f), tc := _ } [.ports] :=
      ⟨_, hexec, ((State.holdsPort.refl s port.toNat [.ports]).onTc (fun t => { t with vc6 := rest })).transmit hp.2.1 none f⟩
    have hlink : u.link port.toNat = (s.link port.toNat).sending s.now ((s.link port.toNat).hopped f) := congrArg Port.link hport
    refine ⟨u, hexec, by rw [hport], by rw [hlink]; rfl, by rw [hlink]; rfl, ?_, by rw [hport], hothers, honly⟩
    rw [hlink, Link.sending_credSpent, Link.hopped_vc, Link.creditCost_hopped, hvc]
    exact Table.read_write_same _ _ _ _
  case queued =>
    intro s port x hp hopened hfree hvc6 hoffered hholds hroom hplain helem
    have hexec := execEgressFrameStart_plain hp (by rw [hopened]; rfl) hfree
    obtain ⟨v, y, hqueue, hv, hfront⟩ := State.egressQueue_front hoffered hholds hroom hplain helem
    rw [hvc6] at hexec
    dsimp only at hexec
    rw [if_pos hopened, hqueue] at hexec
    obtain ⟨z, hsent, hz, hfifos⟩ := hv.sendsFrom hp.2.1 0 (wireSize x.frame) x.frame
    obtain ⟨u, hexec, hport, hothers, honly⟩ : ∃ u, exec (.egressFrameStart port) s = .next u
        ∧ s.holdsPort u port.toNat { link := (s.link port.toNat).sending v.now ((s.link port.toNat).hopped x.frame), tc := z } [.ports, .adk, .evq] :=
      ⟨_, hexec, hsent⟩
    have hlink : u.link port.toNat = (s.link port.toNat).sending v.now ((s.link port.toNat).hopped x.frame) := congrArg Port.link hport
    have hlane : u.lane port.toNat = v.laneOf port.toNat (some 0) x.frame := by
      have hplace : (u.link port.toNat).bundleOff.toNat = 0 := by rw [hlink]; exact congrArg BitVec.toNat hp.2.1
      rw [State.lane, State.base, hplace, Nat.sub_zero, hport]
      exact hz
    obtain ⟨hop, hdst, hsrc, htag⟩ := (s.link port.toNat).hopped_names x.frame
    refine ⟨u, hexec, by rw [hlink]; rfl, ?_, ⟨(s.link port.toNat).hopped x.frame, by rw [hlink]; rfl, hop, hdst, hsrc, htag, Link.hopped_payload _ _⟩,
      by rw [hlane]; rfl, ?_, hothers, honly .tier (by decide), honly .req (by decide)⟩
    · rw [State.queue, hport, Queue.fifo, hfifos, hfront]
      exact Table.read_write_same _ _ _ _
    · rw [hlane, State.outSize_plain hplain, ← State.dieFt_of_only hv.only (by decide)]
      rfl
  case down =>
    intro s port hp hdown
    exact execEgressFrameStart_down hp hdown
  case committed =>
    intro s tag port value hw hpending _ hok
    have hset := State.gateCtrl_commits (s := s.adkTaken (wrFrame tag (prtAddr port.toNat 0x130) (value ||| 1))) hpending (by simp)
      ((State.gateListOk_same (s := s) rfl rfl _ _).trans hok)
    have htc := (State.holdsPort.refl (s.adkTaken (wrFrame tag (prtAddr port.toNat 0x130) (value ||| 1))) port.toNat [.ports]).onTc
      (fun t => { t with gate := { (s.port port.toNat).tc.gate with
        pendLast := BitVec.ofNat 8 (bits (value ||| 1).toNat 39 32), pendNone := (value ||| 1).getLsbD 5, pending := true, commitAt := s.now } })
    obtain ⟨t, hexec, hresp, hreply, honly⟩ := State.adkWr_effect (ps := [.ports, .sec, .log, .adk, .evq])
      (f := fun s => s.gateCtrl port.toNat (value ||| 1)) hw hset (htc.only.mono (by decide)) (by decide)
    have hports := hreply .ports (by decide)
    refine ⟨t, hexec, hresp, ?_, State.otherPorts_of_ports htc.others hports, honly⟩
    exact (congrArg (fun x => x.tc.gate) (State.port_of_only hreply (by decide) port.toNat)).trans (congrArg (fun x => x.tc.gate) htc.port)
  case refused =>
    intro s tag port value hw hpending
    obtain ⟨t, hexec, hresp, hreply, honly⟩ := State.adkWr_effect (ps := [.ports, .sec, .log, .adk, .evq])
      (f := fun s => s.gateCtrl port.toNat (value ||| 1)) hw (State.gateCtrl_refused (s := s.adkTaken _) hpending) (only_refl _ _) (by decide)
    exact ⟨t, hexec, hresp, hreply .ports (by decide), honly⟩
  case cycles =>
    intro s port hrun hact hinst hdue
    obtain ⟨y, hy, hgate⟩ := ((State.holdsPort.refl s port.toNat _).onTc (fun t => { t with gate := { t.gate with run := true, lastStart := s.now } })).sequence
    exact ⟨_, execGateCycleStart_cycles hrun hact hinst hdue, by rw [hy.port]; exact hgate, hy.others, hy.only⟩
  case activated =>
    intro s port hrun hact hnone
    obtain ⟨y, hy, hgate⟩ := ((State.holdsPort.refl s port.toNat _).onTc (fun t => { t with gate := t.gate.activate s.now })).sequence
    refine ⟨_, execGateCycleStart_activates hrun hact, ?_, hy.others, hy.only⟩
    rw [hy.port, hgate, Gate.activate, if_neg (by rw [hnone]; decide)]
    rfl
  case advances =>
    intro s port hrun hgate hends
    obtain ⟨y, hy, hup⟩ := (State.holdsPort.refl s port.toNat _).sequence
    exact ⟨_, execGateEntryAdvance_advances hrun hgate hends, by rw [hy.port]; exact hup, hy.others, hy.only⟩
  case stopped =>
    intro s port hstop
    exact execGateEntryAdvance_stopped hstop

end Sys2Proof.Machine
end

section
/-! SUPPORT. A completion timeout of a bridge while the log is full. -/

namespace Sys2Proof.Machine
set_option Elab.async false

/-- Entries of the log as a merge leaves them: the first entry, number 0, is repeated. -/
theorem State.repeatLog_first {s : State} {e : LogEntry} {rest : List (Nat × LogEntry)} (h : s.log.entries = (0, e) :: rest)
    (hrest : ∀ x ∈ rest, x.1 ≠ 0) : ∃ e', e'.cls = e.cls ∧ (s.repeatLog 0).log.entries = (0, e') :: rest := by
  have hsame : rest.map (fun e => if e.1 = 0 then (e.1, { e.2 with repeats := if e.2.repeats = 0xFF then 0xFF else e.2.repeats + 1 }) else e) = rest := by
    refine (List.map_congr_left fun x hx => ?_).trans (List.map_id rest)
    exact if_neg (hrest x hx)
  unfold State.repeatLog
  rw [h, List.map_cons, hsame]
  refine ⟨_, ?_, rfl⟩
  rfl

/-- An entry finds the first of the log to merge into where no later one has its class. -/
theorem State.logE_merges_first {s : State} {cls detail : Nat} {sr : BitVec 16} {e : LogEntry} {rest : List (Nat × LogEntry)} (param : Nat)
    (mirror : Bool) (h : s.log.entries = (0, e) :: rest) (hrest : ∀ x ∈ rest, x.2.cls.toNat ≠ cls) (hkind : neverMerged cls = false)
    (he : (e.src == sr && e.cls.toNat == cls && e.detail.toNat == detail && decide (s.now ≤ e.ft.toNat + msT) && decide (e.ft.toNat ≤ s.now)) = true) :
    s.logE cls detail sr param mirror = s.repeatLog 0 := by
  have hnone : rest.reverse.find? (fun e => e.2.src == sr && e.2.cls.toNat == cls && e.2.detail.toNat == detail
      && decide (s.now ≤ e.2.ft.toNat + msT) && decide (e.2.ft.toNat ≤ s.now)) = none := by
    refine List.find?_eq_none.2 fun x hx => ?_
    simp [hrest x (List.mem_reverse.1 hx)]
  have hinto : s.mergeInto cls detail sr = some 0 := by
    unfold State.mergeInto
    rw [hkind, h, List.reverse_cons, List.find?_append, hnone]
    simp [he]
  unfold State.logE
  rw [hinto]

/-- An entry of a class that a full log does not hold takes the place of the oldest. -/
theorem State.logE_drops_first {s : State} {cls detail : Nat} {sr : BitVec 16} {param : Nat} {mirror : Bool} {e : Nat × LogEntry}
    {rest : List (Nat × LogEntry)} (h : s.log.entries = e :: rest) (hfull : 16383 ≤ rest.length)
    (hnew : ∀ x ∈ s.log.entries, x.2.cls.toNat ≠ cls) :
    (s.logE cls detail sr param mirror).log.entries = rest ++ [(s.log.wrSeq.toNat, s.logEntry cls detail sr param)] := by
  have hinto : s.mergeInto cls detail sr = none := by
    cases hm : s.mergeInto cls detail sr with
    | none => rfl
    | some q =>
      obtain ⟨x, hx, hcls, -⟩ := State.mergeInto_mem hm
      exact absurd hcls (hnew x hx)
  have hentries : (s.appendLog cls detail sr param).log.entries = rest ++ [(s.log.wrSeq.toNat, s.logEntry cls detail sr param)] := by
    rw [(s.appendLog_log cls detail sr param).1, Log.entriesWith, h, if_pos (by simpa using hfull)]
    rfl
  unfold State.logE
  rw [hinto]
  cases mirror
  · exact hentries
  · exact (congrArg Log.entries (State.event_log _ _ _ _ _ _)).trans hentries

/-! ### The state -/

/-- A write-back of the first line of block 0 on its way to bridge 0. -/
def lateWrite : TrayReq := { tray := 256, tag := 0, op := .writeBack 0 1, timer := 0 }

/-- The entry of an earlier timeout of bridge 0, a moment ago. -/
def earlierTimeout : LogEntry := { ft := 0, src := srcB 0, cls := 8, detail := 0, flags := 0, repeats := 0, temp := 0, param := 0 }

/-- An entry of another class. -/
def otherEntry : Nat × LogEntry := (1, { ft := 0, src := 0, cls := 1, detail := 0, flags := 0, repeats := 0, temp := 0, param := 0 })

/-- A full log whose oldest entry is that of an earlier timeout of bridge 0. -/
def fullLogTimeout : State :=
  { ({} : State) with
    log := { ({} : State).log with entries := (0, earlierTimeout) :: List.replicate 16383 otherEntry }
    tier := { ({} : State).tier with reqs := [lateWrite], trays := [(256, { state := .online, linkUp := true })] } }

theorem State.countLog_entries (s : State) (i : Nat) : (s.countLog i).log.entries = s.log.entries := by
  unfold State.countLog
  simp only [State.satEvent_log]
  split <;> rfl

/-- A line in no sector and not poisoned that is lost on its way is logged. -/
theorem State.lostLines_first {s : State} (hsec : s.tier.sectors = []) (hpoison : s.tier.poison = []) :
    (s.lostLines 0 1).log.entries = (s.logE 0x02 0 (srcHS (s.sliceOf 0)) 0 true).log.entries := by
  have hlines : (List.range 32).filter (fun i => (1 : BitVec 32).getLsbD i && !s.lineValid (32 * 0 + i) && !s.linePoison (32 * 0 + i)) = [0] := by
    simp only [State.lineValid, State.sector, State.linePoison, hsec, hpoison]
    decide
  unfold State.lostLines
  rw [hlines]
  exact State.countLog_entries _ 2

theorem State.lostWrites_late {s : State} (hreqs : s.tier.reqs = [lateWrite]) : s.lostWrites 256 = s.lostLines 0 1 := by
  unfold State.lostWrites
  rw [hreqs]
  rfl

/-- A bridge tray without moves that goes: the log has the entries that the loss of its write-back leaves. -/
theorem State.trayGone_log {s : State} (honline : (s.tray 256).state = .online) (hmoves : s.tier.moves = []) (hreqs : s.tier.reqs = [lateWrite])
    (hsec : s.tier.sectors = []) (hpoison : s.tier.poison = []) {e : Nat × LogEntry} {rest : List (Nat × LogEntry)}
    (h : s.log.entries = e :: rest) (hfull : 16383 ≤ rest.length) (hnew : ∀ x ∈ s.log.entries, x.2.cls.toNat ≠ 2) :
    ∃ y : Nat × LogEntry, y.2.cls = 2 ∧ (s.trayGone 256).log.entries = rest ++ [y] := by
  have hto : s.changesOnly (s.trayTo 256 .unreachable) [.tier, .adk, .evq] := State.trayTo_only _ _ _ (only_refl _ _) (by decide)
  have htier : (s.trayTo 256 .unreachable).tier = (s.onTray 256 (fun x => { x with state := .unreachable })).tier := by
    unfold State.trayTo
    rw [if_neg (by rw [honline]; decide)]
    exact State.event_changesOnly _ _ _ _ _ _ .tier (by decide)
  have hstay : (s.trayTo 256 .unreachable).trayLeaves 256 = s.trayTo 256 .unreachable := by
    unfold State.trayLeaves
    rw [htier]
    show List.foldl _ _ (List.filter _ s.tier.moves) = _
    rw [hmoves]
    rfl
  have hlog : (s.trayTo 256 .unreachable).log = s.log := hto .log (by decide)
  have hgone : (s.trayGone 256).log.entries = ((s.trayTo 256 .unreachable).lostWrites 256).log.entries := by
    unfold State.trayGone
    rw [if_pos honline, hstay]
    rfl
  rw [hgone, State.lostWrites_late (by rw [htier]; exact hreqs), State.lostLines_first (by rw [htier]; exact hsec) (by rw [htier]; exact hpoison)]
  exact ⟨_, rfl, State.logE_drops_first (by rw [hlog]; exact h) hfull (by rw [hlog]; exact hnew)⟩

theorem execCxlCompletionTimeout_resets {s : State} {b : BitVec 4} {tag : BitVec 13} {q : TrayReq} (hq : s.trayReqOf (256 + b.toNat) tag = some q)
    (halive : s.alive = true) (hdue : q.timer ≤ s.now) :
    ∃ v, (s.logE 0x08 0 (srcB b.toNat) q.tag.toNat true).changesOnly v [.mod]
      ∧ execCxlCompletionTimeout b tag s = .next ((v.onTray (256 + b.toNat) (fun x => { x with linkUp := false })).trayGone (256 + b.toNat)) := by
  let u := s.logE 0x08 0 (srcB b.toNat) q.tag.toNat true
  refine ⟨{ u with mod := { u.mod with
    perst := u.mod.perst ||| ((1 : BitVec 16) <<< b.toNat), perstTo := Table.write 0 u.mod.perstTo b.toNat (u.now + 100 * msT) } },
    (only_refl u [.mod]).mod (by decide) _, ?_⟩
  unfold execCxlCompletionTimeout
  rw [hq]
  exact congrArg Host.Outcome.next (if_pos (by simp [halive, hdue]))

/-- The log after the timeout: the merged entry has been overwritten by that of the lost write-back. -/
theorem fullLogTimeout_log :
    ∃ t, exec (.cxlCompletionTimeout 0 0) fullLogTimeout = .next t
      ∧ ∃ y : Nat × LogEntry, y.2.cls = 2 ∧ t.log.entries = List.replicate 16383 otherEntry ++ [y] := by
  obtain ⟨v, hmod, hexec⟩ := execCxlCompletionTimeout_resets (s := fullLogTimeout) (b := 0) (tag := 0) (q := lateWrite) rfl rfl (Nat.le_refl _)
  have hmerge : fullLogTimeout.logE 0x08 0 (srcB 0) 0 true = fullLogTimeout.repeatLog 0 :=
    State.logE_merges_first 0 true rfl (fun x hx => by rw [List.eq_of_mem_replicate hx]; decide) rfl rfl
  have hmod' : (fullLogTimeout.repeatLog 0).changesOnly v [.mod] := hmerge ▸ hmod
  obtain ⟨e, hcls, hentries⟩ := State.repeatLog_first (s := fullLogTimeout) rfl (fun x hx => by rw [List.eq_of_mem_replicate hx]; decide)
  have htier : v.tier = fullLogTimeout.tier := hmod' .tier (by decide)
  have htray : (v.onTray 256 (fun x => { x with linkUp := false })).tier = (fullLogTimeout.onTray 256 (fun x => { x with linkUp := false })).tier := by
    simp only [State.onTray, State.setTray, State.tray, htier]
  have hlog : (v.onTray 256 (fun x => { x with linkUp := false })).log.entries = (0, e) :: List.replicate 16383 otherEntry := by
    rw [← hentries]
    exact congrArg Log.entries (hmod' .log (by decide))
  have hnew : ∀ x ∈ (0, e) :: List.replicate 16383 otherEntry, x.2.cls.toNat ≠ 2 := by
    intro x hx
    rcases List.mem_cons.1 hx with rfl | hx
    · rw [hcls]
      decide
    · rw [List.eq_of_mem_replicate hx]
      decide
  obtain ⟨y, hy, hleft⟩ := State.trayGone_log (s := v.onTray 256 (fun x => { x with linkUp := false })) (by rw [State.tray, htray]; rfl)
    (by rw [htray]; rfl) (by rw [htray]; rfl) (by rw [htray]; rfl) (by rw [htray]; rfl) hlog (by rw [List.length_replicate]) (by rw [hlog]; exact hnew)
  exact ⟨_, hexec, y, hy, hleft⟩

/-- Refutes O37: when the timeout's entry merges into the oldest of a full log, the entry of the lost write-back overwrites it. -/
theorem not_traysAndBridges : ¬ Obligations.TraysAndBridges := by
  unfold Obligations.TraysAndBridges
  rintro ⟨-, -, -, -, h, -⟩
  obtain ⟨t, hexec, -, -, -, -, -, x, hx, hcls, -⟩ := h fullLogTimeout 0 0 lateWrite rfl rfl rfl rfl rfl (Nat.le_refl _) rfl rfl
  obtain ⟨u, hexec', y, hy, hentries⟩ := fullLogTimeout_log
  cases hexec.symm.trans hexec'
  rw [hentries, List.mem_append, List.mem_singleton] at hx
  rcases hx with hx | rfl
  · rw [List.eq_of_mem_replicate hx] at hcls
    exact absurd hcls (by decide)
  · rw [hy] at hcls
    exact absurd hcls (by decide)

end Sys2Proof.Machine
end

section
/-! SUPPORT. Images: staging, validation, loading (R299 to R311). -/

namespace Sys2Proof.Machine

/-! ### What a port is does not change while a move is aborted -/

/-- Class and bundle of a port. -/
def State.role (s : State) (p : Nat) : BitVec 2 × BitVec 2 × BitVec 3 := ((s.link p).cls, (s.link p).bundleSize, (s.link p).bundleOff)

/-- Every port has the class and the bundle it had. -/
def State.sameRoles (s t : State) : Prop := ∀ p, t.role p = s.role p

theorem State.sameRoles.refl (s : State) : s.sameRoles s := fun _ => rfl

theorem State.sameRoles.trans {s t u : State} (h : s.sameRoles t) (h' : t.sameRoles u) : s.sameRoles u := fun p => (h' p).trans (h p)

theorem State.sameRoles.of_only {s t : State} {ps : List Part} (h : s.changesOnly t ps) (hp : Part.ports ∉ ps) : s.sameRoles t :=
  fun p => by simp only [State.role, State.link_of_only h hp]

theorem State.sameRoles.of_ports {s t : State} (h : t.ports = s.ports) : s.sameRoles t := fun p => by
  simp only [State.role, State.link, State.port, h]

theorem State.onTc_sameRoles (s : State) (p : Nat) (f : Traffic → Traffic) : s.sameRoles (s.onTc p f) := fun i => by
  simp only [State.role, State.link_onTc]

theorem State.onLink_sameRoles (s : State) (p : Nat) {f : Link → Link}
    (hf : ∀ l, (f l).cls = l.cls ∧ (f l).bundleSize = l.bundleSize ∧ (f l).bundleOff = l.bundleOff) : s.sameRoles (s.onLink p f) := by
  intro i
  obtain ⟨hcls, hsize, hoff⟩ := hf (s.link p)
  by_cases hi : i = p
  · subst hi
    simp only [State.role, State.link_onLink_same, hcls, hsize, hoff]
  · simp only [State.role, State.link_onLink_other _ _ hi]

theorem State.countQue_sameRoles (s : State) (p q i n : Nat) : s.sameRoles (s.countQue p q i n) :=
  (s.onTc_sameRoles p _).trans (State.sameRoles.of_ports (s.countQue_ports p q i n))

theorem State.enqueue_sameRoles (s : State) (p : Nat) (o : Option Nat) (x : QFrame) : s.sameRoles (s.enqueue p o x) := by
  unfold State.enqueue
  split
  · exact s.onTc_sameRoles p _
  · dsimp only
    split
    · exact (s.onTc_sameRoles p _).trans (State.countQue_sameRoles _ _ _ _ _)
    · exact s.onTc_sameRoles p _

theorem State.sendFrom_sameRoles (s : State) (site p : Nat) (o : Option Nat) (x : QFrame) : s.sameRoles (s.sendFrom site p o x) := by
  unfold State.sendFrom
  dsimp only
  split
  · exact s.enqueue_sameRoles _ _ _
  · exact fun _ => rfl

theorem State.sendTray_sameRoles (s : State) (t b : Nat) (op : TrayOp) (tenant : BitVec 10) (opcode : BitVec 8) (addr len : Nat)
    (st : BitVec 6) (pl : List Byte) : s.sameRoles (s.sendTray t b op tenant opcode addr len st pl) := by
  have hframe : ∀ (u : State) tag f, u.sameRoles (u.trayFrame t b tag f) := fun u tag f =>
    (u.onLink_sameRoles (u.base t) (f := fun l => { l with nextTag := tag + 1 }) (fun _ => ⟨rfl, rfl, rfl⟩)).trans (State.sendFrom_sameRoles _ _ _ _ _)
  have hput : ∀ q : TrayReq, s.sameRoles { s with tier := { s.tier with reqs := s.tier.reqs ++ [q] } } := fun _ _ => rfl
  unfold State.sendTray
  dsimp only
  split
  · split
    · exact (hput _).trans (hframe _ _ _)
    · exact hput _
  · exact hput _

theorem State.releaseSlot_sameRoles (s : State) (page t slot : Nat) : s.sameRoles (s.releaseSlot page t slot false) := by
  have hfree : s.sameRoles { s.stopZero page with tier := { (s.stopZero page).tier with
      wiping := (s.stopZero page).tier.wiping ++ [(slotKey t slot, ((s.stopZero page).extent (page / 512)).tenant)] } } := fun _ => rfl
  unfold State.releaseSlot
  simp only [Bool.false_eq_true, if_false]
  split
  · exact hfree.trans (State.sendTray_sameRoles _ _ _ _ _ _ _ _ _ _)
  · exact hfree

/-- The page of a move that ends without effect, and its slot. -/
theorem State.sameRoles.endMove {s u : State} (h : s.sameRoles u) (page t sl : Nat) (f : TierPage → TierPage) :
    s.sameRoles (((u.onPage page f).releaseSlot page t sl false).pinMove page) :=
  ((h.trans (State.sameRoles.of_only (State.onPage_only u page f (only_refl u [.tier]) (by decide)) (by decide))).trans
    (State.releaseSlot_sameRoles _ _ _ _)).trans
    (State.sameRoles.of_only (State.pinMove_only _ _ (only_refl _ [.tier]) (by decide)) (by decide))

theorem State.abortMove_sameRoles (s : State) (page : Nat) : s.sameRoles (s.abortMove page) := by
  have htier : ∀ x, s.sameRoles { s with tier := x } := fun _ _ => rfl
  unfold State.abortMove
  split
  · exact State.sameRoles.refl s
  · next m _ =>
    cases m.dst with
    | none => cases m.forRoom <;> exact htier _
    | some d => cases m.forRoom <;> exact (htier _).endMove _ _ _ _

theorem State.abortAgentMoves_sameRoles (s : State) (a b : List Section) : s.sameRoles (s.abortAgentMoves a b) := by
  have hfold : ∀ (pages : List Nat) (u : State),
      u.sameRoles (pages.foldl (fun (s : State) pg => if s.agentMoves a b pg then s.abortMove pg else s) u) := by
    intro pages
    induction pages with
    | nil => exact fun u => State.sameRoles.refl u
    | cons pg pages ih =>
      intro u
      rw [List.foldl_cons]
      split
      · exact (u.abortMove_sameRoles pg).trans (ih _)
      · exact ih u
  exact hfold _ s

theorem State.sameRoles.portsChanged {s t : State} (h : s.sameRoles t) (c : List Section) : t.portsChanged c = s.portsChanged c := by
  have hrole : ∀ p, ((t.link p).cls, (t.link p).bundleSize, (t.link p).bundleOff) = ((s.link p).cls, (s.link p).bundleSize, (s.link p).bundleOff) := h
  simp only [State.portsChanged, hrole]

/-! ### Writes of the staging area -/

theorem State.imgBusy_false {s : State} (h : s.imgBusy ≠ true) : s.imgBusy = false := Bool.eq_false_of_not_eq_true h

theorem State.imgPut_refused {s : State} {off : Nat} {ws : List (BitVec 64)}
    (h : s.comp.stage = .staged ∨ s.comp.stage = .valid ∨ s.imgBusy = true) : s.imgPut off ws = (s, stDenied) :=
  if_pos (by rcases h with h | h | h <;> simp [h])

/-- The composition once words are staged. -/
structure Composition.staging (c d : Composition) (off : Nat) (bs : List Byte) : Prop where
  staged : d.staged = c.staged.write off bs
  stage : d.stage = .loading ∨ d.stage = .staged
  err : c.stage = .empty → d.err = 0
  run : d.run = c.run

theorem State.imgPut_stages {s : State} {off : Nat} {ws : List (BitVec 64)} (hstage : s.comp.stage = .empty ∨ s.comp.stage = .loading)
    (hbusy : s.imgBusy = false) (hroom : off + 8 * ws.length ≤ s.imgLen.getD (2 ^ 28)) :
    ∃ d, s.imgPut off ws = ({ s with comp := d }, stOk) ∧ s.comp.staging d off (wordBytes ws) := by
  have hput : ¬ (s.comp.stage = .staged ∨ s.comp.stage = .valid ∨ s.imgBusy = true ∨ s.imgLen.getD (2 ^ 28) < off + 8 * ws.length) := by
    rintro (h | h | h | h)
    · rcases hstage with hs | hs <;> rw [hs] at h <;> cases h
    · rcases hstage with hs | hs <;> rw [hs] at h <;> cases h
    · rw [hbusy] at h
      cases h
    · exact absurd hroom (Nat.not_le.2 h)
  unfold State.imgPut
  dsimp only
  rw [if_neg hput]
  rcases hstage with h | h
  · rw [if_pos h]
    split
    · split
      · exact ⟨_, rfl, rfl, Or.inr rfl, fun _ => rfl, rfl⟩
      · exact ⟨_, rfl, rfl, Or.inl rfl, fun _ => rfl, rfl⟩
    · exact ⟨_, rfl, rfl, Or.inl rfl, fun _ => rfl, rfl⟩
  · have hne : s.comp.stage = .empty → False := fun he => by rw [h] at he; cases he
    rw [if_neg hne]
    split
    · split
      · exact ⟨_, rfl, rfl, Or.inr rfl, fun he => (hne he).elim, rfl⟩
      · exact ⟨_, rfl, rfl, Or.inl rfl, fun he => (hne he).elim, rfl⟩
    · exact ⟨_, rfl, rfl, Or.inl rfl, fun he => (hne he).elim, rfl⟩

theorem wordBytes_length (ws : List (BitVec 64)) : (wordBytes ws).length = 8 * ws.length := by
  induction ws with
  | nil => rfl
  | cons w ws ih =>
    rw [wordBytes, List.flatMap_cons, List.length_append, leBytes_length, List.length_cons]
    show 8 + (wordBytes ws).length = _
    omega

/-- The frame of an IMGWR. -/
def imgFrame (tag : BitVec 16) (addr : BitVec 48) (words : List (BitVec 64)) : AdkFrame :=
  { ty := 3, status := 0, tag := tag, addr := addr, len := words.length, words := words }

theorem State.imgAny_image {s : State} {q : AdkFrame} {off : Nat} (hbit : q.addr.getLsbD 47 = false) (hoff : q.addr.toNat % 2 ^ 28 = off) :
    State.imgAny q s = (s.imgPut off q.words).1.adkReply q (s.imgPut off q.words).2 q.addr [] := by
  unfold State.imgAny
  rw [hbit, hoff]
  rfl

theorem execImgwr_performs {s u : State} {tag : BitVec 16} {addr : BitVec 48} {words : List (BitVec 64)} {st : BitVec 6}
    (hperf : s.performs (imgFrame tag addr words)) (haddr : addr.toNat < 2 ^ 28) (halign : addr.toNat % 8 = 0) (h1 : 1 ≤ words.length)
    (h64 : words.length ≤ 64) (hput : (s.adkTaken (imgFrame tag addr words)).imgPut addr.toNat words = (u, st)) :
    execImgwr tag addr words s = .next (u.adkReply (imgFrame tag addr words) st addr []) := by
  have hform : imgForm addr.toNat words.length = true := by
    have hlow : addr.toNat % 2 ^ 47 < 2 ^ 28 := by omega
    simp only [imgForm, within, h1, h64, halign, hlow, decide_true, beq_self_eq_true, Bool.and_self]
  have hbit : addr.getLsbD 47 = false := by
    rw [BitVec.getLsbD, Nat.testBit_lt_two_pow (by omega)]
  have hoff : addr.toNat % 2 ^ 28 = addr.toNat := Nat.mod_eq_of_lt haddr
  refine congrArg Host.Outcome.next ?_
  show s.adkRequest (imgFrame tag addr words) (imgForm addr.toNat words.length) (State.imgAny (imgFrame tag addr words)) = _
  rw [hform, State.adkRequest_performs hperf, State.imgAny_image (q := imgFrame tag addr words) hbit hoff]
  show (State.imgPut _ addr.toNat words).1.adkReply _ (State.imgPut _ addr.toNat words).2 _ _ = _
  rw [hput]
  rfl

/-! ### CMPO_CMD -/

theorem State.cmpoCmd_validate {s : State} (h : s.comp.stage = .staged) :
    s.cmpoCmd 1 = ({ s with comp := { s.comp with validating := true } }, stOk) := if_pos h

theorem State.cmpoCmd_validate_refused {s : State} (h : s.comp.stage ≠ .staged) : s.cmpoCmd 1 = s.imgRefuse := if_neg h

theorem State.cmpoCmd_load {s : State} (hstage : s.comp.stage = .valid) (hfull : s.imgDelta = false)
    (hboot : s.mod.state = .boot ∨ s.mod.state = .recovery) (hbusy : s.imgBusy = false) (hhomed : s.extentsHomed s.candidate = true) :
    s.cmpoCmd 2 = ({ s with comp := { s.comp with loading := true } }, stOk) := by
  refine (if_neg ?_).trans (if_pos hhomed)
  rcases hboot with h | h <;> simp [hstage, hfull, hbusy, h]

theorem State.cmpoCmd_load_refused {s : State} (hservice : s.mod.state = .service) : s.cmpoCmd 2 = s.imgRefuse :=
  if_pos (by simp [hservice])

theorem State.cmpoCmd_discard {s : State} (hbusy : s.imgBusy = false) : s.cmpoCmd 4 = (s.imgEmpty, stOk) :=
  if_neg (by rw [hbusy]; decide)

theorem State.cmpoCmd_discard_refused {s : State} (hbusy : s.imgBusy = true) : s.cmpoCmd 4 = s.imgRefuse := if_pos hbusy

/-- A command on the images that changes the composition alone. -/
theorem State.cmpo_write {s : State} {tag : BitVec 16} {v : BitVec 64} {d : Composition} {st : BitVec 6}
    (hw : s.writes tag (cmpoAddr 0x008) v .operator)
    (hcmd : (s.adkTaken (wrFrame tag (cmpoAddr 0x008) v)).cmpoCmd v = ({ s.adkTaken (wrFrame tag (cmpoAddr 0x008) v) with comp := d }, st)) :
    ∃ t, Host.Outcome.next (φ := Fault) (ρ := Refusal) (s.cmpoWr tag v) = .next t ∧ t.responded tag st ∧ t.comp = d
      ∧ s.changesOnly t [.pkg, .ports, .req, .tier, .xl, .cpu, .clv, .atn, .comp, .sec, .log, .adk, .evq] := by
  obtain ⟨t, hexec, hresp, hreply, honly⟩ := State.adkWr_effect
    (ps := [.pkg, .ports, .req, .tier, .xl, .cpu, .clv, .atn, .comp, .sec, .log, .adk, .evq]) (f := fun s => s.cmpoCmd v) hw hcmd
    ((only_refl _ _).comp (by decide) _) (by decide)
  exact ⟨t, hexec, hresp, hreply .comp (by decide), honly⟩

/-! ### The end of a validation and of a load -/

theorem execImageValidationDone_idle {s : State} (h : s.comp.validating = false) : execImageValidationDone s = .next s := by
  unfold execImageValidationDone
  simp [h]

theorem execImageValidationDone_judges {s : State} (hruns : s.sd0Runs = true) (h : s.comp.validating = true) :
    execImageValidationDone s = .next { s with comp := match s.imgError s.imgPolicyOk with
      | none => { s.comp with validating := false, stage := .valid, err := 0, errSect := 0 }
      | some e => { s.comp with validating := false, err := BitVec.ofNat 5 e.1, errSect := BitVec.ofNat 14 e.2 } } := by
  unfold execImageValidationDone
  simp only [hruns, h, Bool.not_true, Bool.or_self, Bool.false_eq_true, if_false]
  cases s.imgError s.imgPolicyOk <;> rfl

theorem execLoadComplete_idle {s : State} (h : s.comp.loading = false) : execLoadComplete s = .next s := by
  unfold execLoadComplete
  simp [h]

/-- A composition governs where no port changes and no gate list is installed: it runs, and the rest of CMPO stays. -/
theorem State.govern_comp {s : State} {c : List Section} (h : s.portsChanged c = []) :
    (s.govern c []).comp = { s.comp with run := c } ∧ (s.govern c []).mod = s.mod := by
  have hshow : ∀ u : State, u.changesOnly ((((u.showTables).takeIdentity.rebindMeters s.comp.run).chillNew s.comp.run).discoverNew s.comp.run)
      [.pkg, .ports, .cpu, .glb, .tier, .adk, .evq] := fun u =>
    State.discoverNew_only _ _ (State.chillNew_only _ _ (State.rebindMeters_only _ _ (State.takeIdentity_only _
      (State.showTables_only _ (only_refl u _) (by decide)) (by decide)) (by decide)) (by decide)) (by decide)
  have hgovern : s.govern c [] = (((((({ s with comp := { s.comp with run := c } } : State).showTables).takeIdentity).rebindMeters s.comp.run).chillNew
      s.comp.run).discoverNew s.comp.run) := by
    unfold State.govern
    dsimp only
    rw [h]
    simp only [List.foldl_nil]
  rw [hgovern]
  exact ⟨hshow _ .comp (by decide), hshow _ .mod (by decide)⟩

theorem State.countCmpo_apply (s : State) : ∃ sat, (s.countCmpo 0).comp = { s.comp with sat := sat, cntApply := (bump s.comp.cntApply).1 } := by
  refine ⟨satSet s.comp.sat 0 (bump s.comp.cntApply).2.1, ?_⟩
  unfold State.countCmpo
  exact State.satEvent_only _ _ _ _ _ (only_refl _ [.adk, .evq]) (by decide) .comp (by decide)

/-- The state in which the loaded composition governs. -/
def State.bootLoaded (s : State) : State :=
  let u := s.abortAgentMoves s.comp.run s.candidate
  (({ u with comp := u.loadedComp 0 } : State).countCmpo 0).govern s.candidate []

/-- The module moves on to TEST. -/
def State.intoTest (s : State) : State :=
  let t := s.changeState .test 0x41 0
  { t with mod := { t.mod with testWork := 0, perst := 0 } }

theorem execLoadComplete_boots {s : State} (hruns : s.sd0Runs = true) (hloading : s.comp.loading = true) (hboot : s.mod.state = .boot)
    (hpolicy : s.imgPolicy = []) (hgates : s.imgGates = []) :
    ∃ l, execLoadComplete s = .next ((s.bootLoaded.intoTest.trainAll l).imgEmpty) := by
  refine ⟨List.range 256, ?_⟩
  unfold execLoadComplete
  generalize List.range 256 = l
  simp only [hruns, hloading, hpolicy, hgates, hboot, Bool.not_true, Bool.or_self, Bool.false_eq_true, if_false, ne_eq, not_true_eq_false,
    false_and, beq_self_eq_true, if_true, State.policyApply, List.foldl_nil]
  unfold State.bootLoaded State.intoTest
  with_reducible rfl

theorem State.bootLoaded_comp {s : State} (h : s.portsChanged s.candidate = []) :
    s.bootLoaded.comp.run = s.candidate ∧ s.bootLoaded.comp.loading = false ∧ s.bootLoaded.comp.epoch = 0
      ∧ s.bootLoaded.comp.digest = s.imgDigest ∧ s.bootLoaded.comp.cntApply = (bump s.comp.cntApply).1 ∧ s.bootLoaded.mod = s.mod := by
  have habort : s.changesOnly (s.abortAgentMoves s.comp.run s.candidate) [.pkg, .ports, .tier, .adk, .evq] :=
    State.abortAgentMoves_only _ _ _ (only_refl s _) (by decide)
  have hroles := s.abortAgentMoves_sameRoles s.comp.run s.candidate
  unfold State.bootLoaded
  generalize s.abortAgentMoves s.comp.run s.candidate = u at habort hroles
  have hcomp : u.comp = s.comp := habort .comp (by decide)
  have hdigest : u.imgDigest = s.imgDigest := by simp only [State.imgDigest, State.img, hcomp]
  have hcount : ({ u with comp := u.loadedComp 0 } : State).changesOnly (({ u with comp := u.loadedComp 0 } : State).countCmpo 0) [.comp, .adk, .evq] :=
    State.countCmpo_only _ _ (only_refl _ _) (by decide)
  obtain ⟨sat, hcounted⟩ := ({ u with comp := u.loadedComp 0 } : State).countCmpo_apply
  have hquiet : (({ u with comp := u.loadedComp 0 } : State).countCmpo 0).portsChanged s.candidate = [] :=
    ((State.sameRoles.of_only hcount (by decide)).portsChanged _).trans ((hroles.portsChanged _).trans h)
  obtain ⟨hrun, hmod⟩ := State.govern_comp hquiet
  rw [hcounted] at hrun
  dsimp only
  rw [hrun, hmod]
  refine ⟨rfl, rfl, rfl, hdigest, ?_, (hcount .mod (by decide)).trans (habort .mod (by decide))⟩
  show (bump u.comp.cntApply).1 = _
  rw [hcomp]

theorem State.intoTest_state {s : State} (h : s.mod.state ≠ .test) : s.intoTest.mod.state = .test ∧ s.intoTest.comp = s.comp := by
  refine ⟨?_, State.changeState_only s .test 0x41 0 (only_refl s [.log, .mod, .adk, .evq, .glb]) (by decide) .comp (by decide)⟩
  exact s.changeState_state .test 0x41 0

/-- Settles O44: the staging area by the bytes it holds, a command by the composition it leaves, the end of a load by its steps. -/
theorem imagesAreStagedAndJudged : Obligations.ImagesAreStagedAndJudged := by
  unfold Obligations.ImagesAreStagedAndJudged
  refine ⟨?staged, ?stagingRefused, ?validates, ?validateRefused, ?judged, ?judgedIdle, ?loads, ?loadRefused, ?loaded, ?loadedIdle, ?discards,
    ?discardRefused⟩
  case staged =>
    intro s tag addr words hperf haddr halign h1 h64 hstage hbusy hroom
    obtain ⟨d, hput, hstaged, hstate, herr, hrun⟩ := State.imgPut_stages (s := s.adkTaken (imgFrame tag addr words)) hstage hbusy hroom
    have hreply := State.adkReply_link { s.adkTaken (imgFrame tag addr words) with comp := d } (imgFrame tag addr words) stOk addr []
    have hcomp := hreply .comp (by decide)
    refine ⟨_, execImgwr_performs hperf haddr halign h1 h64 hput, State.adkReply_responded _ _ _ _ _, ?_, fun y hy => ?_, ?_, fun he => ?_, ?_, ?_⟩
    · rw [← wordBytes_length, hcomp]
      exact (congrArg (fun m => Memory.bytes m addr.toNat (wordBytes words).length) hstaged).trans (Memory.bytes_write _ _ _)
    · rw [hcomp]
      exact (congrArg (fun m => Memory.byte m y) hstaged).trans (Memory.byte_write_outside _ _ _ _ (by rw [wordBytes_length]; exact hy))
    · rw [hcomp]
      exact hstate
    · rw [hcomp]
      exact herr he
    · rw [hcomp]
      exact hrun
    · exact State.adkReply_changesOnly ((only_refl _ _).comp (by decide) _) (by decide) _ _ _
  case stagingRefused =>
    intro s tag addr words hperf haddr halign h1 h64 hheld
    exact ⟨_, execImgwr_performs hperf haddr halign h1 h64 (State.imgPut_refused (s := s.adkTaken (imgFrame tag addr words)) hheld),
      State.adkReply_responded _ _ _ _ _, State.adkReply_changesOnly (only_refl _ _) (by decide) _ _ _⟩
  case validates =>
    intro s tag hw hstage
    exact State.cmpo_write hw (State.cmpoCmd_validate (s := s.adkTaken _) hstage)
  case validateRefused =>
    intro s tag hw hstage
    exact State.cmpo_write hw (State.cmpoCmd_validate_refused (s := s.adkTaken _) hstage)
  case judged =>
    intro s hruns hval
    exact ⟨_, execImageValidationDone_judges hruns hval, rfl, (only_refl s [.comp]).comp (by decide) _⟩
  case judgedIdle =>
    intro s hval
    exact execImageValidationDone_idle hval
  case loads =>
    intro s tag hw hstage hfull hboot hbusy hhomed
    exact State.cmpo_write hw (State.cmpoCmd_load (s := s.adkTaken _) hstage hfull hboot hbusy hhomed)
  case loadRefused =>
    intro s tag hw _ hservice
    exact State.cmpo_write hw (State.cmpoCmd_load_refused (s := s.adkTaken _) hservice)
  case loaded =>
    intro s hruns hloading hboot hpolicy hgates hports
    obtain ⟨hrun, hload, hepoch, hdigest, hcount, hmod⟩ := State.bootLoaded_comp hports
    obtain ⟨htest, hcomp⟩ := State.intoTest_state (s := s.bootLoaded) (by rw [hmod, hboot]; decide)
    obtain ⟨l, hexec⟩ := execLoadComplete_boots hruns hloading hboot hpolicy hgates
    have htrain := State.trainAll_only s.bootLoaded.intoTest l (only_refl _ [.ports]) (by decide)
    have hkept : (s.bootLoaded.intoTest.trainAll l).comp = s.bootLoaded.comp := (htrain .comp (by decide)).trans hcomp
    refine ⟨_, hexec, ?_, ?_, ?_, ?_, rfl, rfl, ?_, ?_⟩
    · exact (congrArg Composition.run hkept).trans hrun
    · exact (congrArg Composition.loading hkept).trans hload
    · exact (congrArg Composition.epoch hkept).trans hepoch
    · exact (congrArg Composition.digest hkept).trans hdigest
    · exact (congrArg Composition.cntApply hkept).trans hcount
    · exact (congrArg Module.state (htrain .mod (by decide))).trans htest
  case loadedIdle =>
    intro s hloading
    exact execLoadComplete_idle hloading
  case discards =>
    intro s tag hw hbusy
    exact State.cmpo_write hw (State.cmpoCmd_discard (s := s.adkTaken _) hbusy)
  case discardRefused =>
    intro s tag hw hbusy
    exact State.cmpo_write hw (State.cmpoCmd_discard_refused (s := s.adkTaken _) hbusy)

end Sys2Proof.Machine
end

section
/-! SUPPORT. Reads and writes of registers over the adapter link (R4 to R6, R395, R406). -/

namespace Sys2Proof.Machine

/-! ### Reads -/

/-- What the link itself counts for a request is in no register. -/
theorem State.readReg_adkTaken (s : State) (q : AdkFrame) (a : Nat) : (s.adkTaken q).readReg a = s.readReg a := rfl

theorem State.readRegs_adkTaken (s : State) (q : AdkFrame) (a n : Nat) : (s.adkTaken q).readRegs a n = s.readRegs a n := rfl

theorem State.rdAny_unlisted {s : State} {tag : BitVec 16} {addr : BitVec 48} {len : Nat} (h : pageListed addr.toNat = false) :
    State.rdAny (rdFrame tag addr len) s = s.adkReply (rdFrame tag addr len) stDenied addr (List.replicate len (BitVec.allOnes 64)) := by
  have hwords : failWords (rdFrame tag addr len) = List.replicate len (BitVec.allOnes 64) := if_pos rfl
  refine (if_pos h).trans ?_
  rw [State.adkFail, hwords]
  rfl

theorem State.rdAny_plain {s : State} {q : AdkFrame} (hlisted : pageListed q.addr.toNat = true) (hptw : q.covers (trnAddr 0x038) = false)
    (hdiag : q.covers (glbAddr 0x138) = false) (hlate : q.covers (timAddr 0x038) = false) :
    State.rdAny q s = s.adkReply q stOk q.addr (s.readRegs q.addr.toNat q.len) := by
  unfold State.rdAny State.rdReply
  simp [hlisted, hptw, hdiag, hlate]

theorem State.rdAny_late {s : State} {q : AdkFrame} {incs : BitVec 32} (hcycle : q.cycle.setWidth 32 = incs) (hlisted : pageListed q.addr.toNat = true) (hptw : q.covers (trnAddr 0x038) = false)
    (hdiag : q.covers (glbAddr 0x138) = false) (hlate : q.covers (timAddr 0x038) = true) :
    State.rdAny q s = (s.lateRead incs).adkReply q stOk q.addr (s.readRegs q.addr.toNat q.len) := by
  unfold State.rdAny State.rdReply
  simp [hlisted, hptw, hdiag, hlate, hcycle]

/-- What a read that covers TIM_LATE leaves: the count starts again. -/
theorem State.lateRead_reply (s : State) (q : AdkFrame) (incs : BitVec 32) (w : List (BitVec 64)) :
    ((s.lateRead incs).adkReply q stOk q.addr w).tim = { s.tim with lateFired := incs }
      ∧ s.changesOnly ((s.lateRead incs).adkReply q stOk q.addr w) [.tim, .adk] :=
  ⟨State.adkReply_link _ _ _ _ _ .tim (by decide),
    ((only_refl s _).tim (by decide) _).trans ((State.adkReply_link _ _ _ _ _).mono (by decide))⟩

/-- The word of TIM_LATE is listed, and no other register that answers specially lies in it. -/
theorem timLate_alone : pageListed (BitVec.ofNat 48 (timAddr 0x038)).toNat = true
    ∧ (decide ((BitVec.ofNat 48 (timAddr 0x038)).toNat ≤ trnAddr 0x038) && decide (trnAddr 0x038 < (BitVec.ofNat 48 (timAddr 0x038)).toNat + 8 * 1)) = false
    ∧ (decide ((BitVec.ofNat 48 (timAddr 0x038)).toNat ≤ glbAddr 0x138) && decide (glbAddr 0x138 < (BitVec.ofNat 48 (timAddr 0x038)).toNat + 8 * 1)) = false
    ∧ (decide ((BitVec.ofNat 48 (timAddr 0x038)).toNat ≤ timAddr 0x038) && decide (timAddr 0x038 < (BitVec.ofNat 48 (timAddr 0x038)).toNat + 8 * 1)) = true := by
  decide

theorem execRcRead_performs {s : State} {tag : BitVec 16} {incs : BitVec 32} (hperf : s.performs (rdFrame tag (BitVec.ofNat 48 (timAddr 0x038)) 1)) :
    execRcRead tag incs s = .next (State.rdAny { rdFrame tag (BitVec.ofNat 48 (timAddr 0x038)) 1 with cycle := incs.setWidth 64 }
      (s.adkTaken (rdFrame tag (BitVec.ofNat 48 (timAddr 0x038)) 1))) :=
  congrArg Host.Outcome.next
    (State.adkRequest_performs (q := { rdFrame tag (BitVec.ofNat 48 (timAddr 0x038)) 1 with cycle := incs.setWidth 64 }) hperf _)

theorem execAdkRd_performs {s : State} {tag : BitVec 16} {addr : BitVec 48} {len : BitVec 16} (hperf : s.performs (rdFrame tag addr len.toNat))
    (hform : rdForm addr.toNat len.toNat = true) :
    execAdkRd tag addr len s = .next (State.rdAny (rdFrame tag addr len.toNat) (s.adkTaken (rdFrame tag addr len.toNat))) := by
  unfold execAdkRd
  rw [hform]
  exact congrArg Host.Outcome.next (State.adkRequest_performs hperf _)

/-! ### Writes -/

/-- The frame of a register write, with the bits that the hardware sets in its cycle. -/
def heldFrame (tag : BitVec 16) (addr : BitVec 48) (value held : BitVec 64) : AdkFrame := { wrFrame tag addr.toNat value with cycle := held }

theorem heldFrame_addr (tag : BitVec 16) (addr : BitVec 48) (value held : BitVec 64) : (heldFrame tag addr value held).addr = addr := by
  simp [heldFrame, wrFrame]

theorem execRegisterWrite_performs {s : State} {tag : BitVec 16} {addr : BitVec 48} {value held : BitVec 64}
    (hperf : s.performs (wrFrame tag addr.toNat value)) (halign : addr.toNat % 8 = 0) :
    execRegisterWrite tag addr value held s
      = .next (State.wrAny (heldFrame tag addr value held) (s.adkTaken (heldFrame tag addr value held))) := by
  unfold execRegisterWrite
  rw [halign]
  exact congrArg Host.Outcome.next (State.adkRequest_performs (q := heldFrame tag addr value held) hperf _)

/-- The value that a write brings, without the bits that stay set. -/
def heldValue (a : Nat) (value held : BitVec 64) : BitVec 64 := value &&& ~~~(held &&& rw1cBits a)

theorem State.wrAny_unlisted {s : State} {tag : BitVec 16} {addr : BitVec 48} {value held : BitVec 64} (h : pageListed addr.toNat = false) :
    State.wrAny (heldFrame tag addr value held) s = s.adkReply (heldFrame tag addr value held) stDenied addr [] := by
  unfold State.wrAny
  simp only [heldFrame_addr, h, if_true]

/-- A write of a register that is no command of its own: its role, its effect and its answer. -/
theorem State.wrAny_plain {s : State} {tag : BitVec 16} {addr : BitVec 48} {value held : BitVec 64} (hlisted : pageListed addr.toNat = true)
    (hptw : addr.toNat ≠ trnAddr 0x038) (hdbg : addr.toNat ≠ secAddr 0x188) (hmod : addr.toNat ≠ modCmdAddr) (hext : addr.toNat ≠ extAddr 0x008) :
    State.wrAny (heldFrame tag addr value held) s = State.wrBody (heldFrame tag addr value held) (regRole addr.toNat (heldValue addr.toNat value held))
      (fun s => s.regWrite addr.toNat (heldValue addr.toNat value held)) s := by
  unfold State.wrAny
  simp only [heldFrame_addr, hlisted, hptw, hdbg, hmod, hext, Bool.true_eq_false, if_false, false_and]
  rfl

theorem State.wrBody_responded (q : AdkFrame) (role : Role) (f : State → State × BitVec 6) (s : State) :
    ∃ st, (State.wrBody q role f s).responded q.tag st := by
  unfold State.wrBody
  split <;> exact ⟨_, State.adkReply_responded _ _ _ _ _⟩

/-- A write of a register by a holder of its role: the effect, then the answer. -/
theorem execRegisterWrite_effect {s u : State} {tag : BitVec 16} {a : Nat} {value held : BitVec 64} {role : Role} {st : BitVec 6} {ps : List Part}
    (hw : s.writes tag a value role) (haddr : (BitVec.ofNat 48 a).toNat = a) (halign : a % 8 = 0) (hlisted : pageListed a = true)
    (hptw : a ≠ trnAddr 0x038) (hdbg : a ≠ secAddr 0x188) (hmod : a ≠ modCmdAddr) (hext : a ≠ extAddr 0x008)
    (hrole : regRole a (heldValue a value held) = role)
    (hset : (s.adkTaken (heldFrame tag (BitVec.ofNat 48 a) value held)).regWrite a (heldValue a value held) = (u, st))
    (hu : (s.adkTaken (heldFrame tag (BitVec.ofNat 48 a) value held)).changesOnly u ps) (hadk : [Part.adk] ⊆ ps) :
    ∃ t, execRegisterWrite tag (BitVec.ofNat 48 a) value held s = .next t ∧ t.responded tag st ∧ u.changesOnly t [.adk] ∧ s.changesOnly t ps := by
  have hholds : (s.adkTaken (heldFrame tag (BitVec.ofNat 48 a) value held)).holdsRole role = true := hw.2
  have hexec := execRegisterWrite_performs (s := s) (addr := BitVec.ofNat 48 a) (held := held) (by rw [haddr]; exact hw.1) (by rw [haddr]; exact halign)
  rw [State.wrAny_plain (by rw [haddr]; exact hlisted) (by rw [haddr]; exact hptw) (by rw [haddr]; exact hdbg) (by rw [haddr]; exact hmod)
    (by rw [haddr]; exact hext), haddr, hrole, State.wrBody, hholds] at hexec
  refine ⟨_, hexec, ?_⟩
  simp only [if_true, hset]
  exact ⟨State.adkReply_responded _ _ _ _ _, State.adkReply_link _ _ _ _ _, State.adkReply_changesOnly hu hadk _ _ _⟩

theorem State.regWrite_tcSel (s : State) (v : BitVec 64) :
    s.regWrite (secAddr 0x10) v = ({ s with sec := { s.sec with tcSel := BitVec.ofNat 10 v.toNat } }, stOk) := rfl

theorem State.regWrite_attnReq (s : State) (v : BitVec 64) :
    s.regWrite (maddr 1 0 3 0) v = (if v.getLsbD 8 then { s with mod := { s.mod with attnReq := false } } else s, stOk) := rfl

theorem State.regWrite_capW {s : State} {v : BitVec 64} (h : within 0x0BB8 0x2648 (bits v.toNat 15 0) = true) :
    s.regWrite (glbAddr 0x18) v = ({ s with glb := { s.glb with capW := BitVec.ofNat 16 v.toNat } }, stOk) := by
  have hrange : s.regRange (glbAddr 0x18) v = true := h
  exact if_neg (by rw [hrange]; decide)

theorem State.regWrite_capW_bad {s : State} {v : BitVec 64} (h : within 0x0BB8 0x2648 (bits v.toNat 15 0) = false) :
    s.regWrite (glbAddr 0x18) v = (s, stDenied) := if_pos h

/-- Bits that no RW1C field covers are written as they come. -/
theorem heldValue_of_no_rw1c {a : Nat} (h : rw1cBits a = 0) (value held : BitVec 64) : heldValue a value held = value := by
  unfold heldValue
  rw [h]
  show value &&& ~~~(held &&& 0#64) = value
  rw [BitVec.and_zero, BitVec.not_zero, BitVec.and_allOnes]

theorem heldValue_attn (value held : BitVec 64) :
    (heldValue (maddr 1 0 3 0) value held).getLsbD 8 = (value.getLsbD 8 && !held.getLsbD 8) := by
  have hbits : rw1cBits (maddr 1 0 3 0) = 0x100#64 := rfl
  unfold heldValue
  rw [hbits]
  simp

theorem execRegisterWrite_misaligned {s : State} {tag : BitVec 16} {addr : BitVec 48} {value held : BitVec 64} (hup : s.adk.state = .up)
    (hfree : s.adk.outstanding = []) (halign : addr.toNat % 8 ≠ 0) :
    execRegisterWrite tag addr value held s = .next (s.adkTake.adkMalformed (heldFrame tag addr value held)) := by
  have hfree' : s.adkTake.adk.outstanding = [] := hfree
  unfold execRegisterWrite State.adkRequest
  simp [hup, hfree', halign, heldFrame]

/-- The answer to a request that breaks a form is sent. -/
theorem State.adkMalformed_sends {s : State} {q : AdkFrame} (hout : s.adk.outq = []) (hroom : s.adk.unacked.length < 64) :
    ∃ f, f = { ty := 0x82, status := stMalformed, tag := q.tag, addr := q.addr, eseqLo := s.evq.eseqNext.setWidth 16, words := [] }
      ∧ (s.adkMalformed q).adk.kept = s.adk.kept ∧ (s.adkMalformed q).adk.unacked = s.adk.unacked ++ [(s.adk.txSeq, f)]
      ∧ s.changesOnly (s.adkMalformed q) [.adk] := by
  refine ⟨_, rfl, ?_, ?_, State.adkMalformed_only s q (only_refl s _) (by decide)⟩ <;>
    rw [State.adkMalformed, State.adkSend_goes (s := s.adkUse q) hout hroom] <;> rfl

/-- Settles O55: a read answers what the registers hold, a write is its effect and its answer. -/
theorem registersAreReadAndWritten : Obligations.RegistersAreReadAndWritten := by
  unfold Obligations.RegistersAreReadAndWritten
  refine ⟨?read, ?readUnlisted, ?late, ?readLate, ?tcSel, ?capW, ?capWBad, ?attn, ?answered, ?unlisted, ?misaligned⟩
  case read =>
    intro s tag addr len hperf hform hlisted hptw hdiag hlate
    have hexec := execAdkRd_performs hperf hform
    rw [State.rdAny_plain (q := rdFrame tag addr len.toNat) hlisted hptw hdiag hlate, State.readRegs_adkTaken] at hexec
    obtain ⟨x, hx, htag, hwords, haddr⟩ := State.adkReply_kept (s.adkTaken (rdFrame tag addr len.toNat)) (rdFrame tag addr len.toNat) stOk
      (rdFrame tag addr len.toNat).addr (s.readRegs (rdFrame tag addr len.toNat).addr.toNat (rdFrame tag addr len.toNat).len)
    exact ⟨_, hexec, State.adkReply_responded _ (rdFrame tag addr len.toNat) _ _ _, ⟨x, hx, htag, haddr, hwords⟩, State.adkReply_changesOnly (only_refl _ _) (by decide) _ _ _⟩
  case readUnlisted =>
    intro s tag addr len hperf hform hlisted
    have hexec := execAdkRd_performs hperf hform
    rw [State.rdAny_unlisted hlisted] at hexec
    obtain ⟨x, hx, htag, hwords, -⟩ := State.adkReply_kept (s.adkTaken (rdFrame tag addr len.toNat)) (rdFrame tag addr len.toNat) stDenied addr
      (List.replicate len.toNat (BitVec.allOnes 64))
    exact ⟨_, hexec, State.adkReply_responded _ (rdFrame tag addr len.toNat) _ _ _, ⟨x, hx, htag, hwords⟩, State.adkReply_changesOnly (only_refl _ _) (by decide) _ _ _⟩
  case late =>
    intro s tag incs hperf
    have hexec := execRcRead_performs (incs := incs) hperf
    have hlate := State.rdAny_late (s := s.adkTaken (rdFrame tag (BitVec.ofNat 48 (timAddr 0x038)) 1))
      (q := { rdFrame tag (BitVec.ofNat 48 (timAddr 0x038)) 1 with cycle := incs.setWidth 64 }) (incs := incs) (by simp)
      timLate_alone.1 timLate_alone.2.1 timLate_alone.2.2.1 timLate_alone.2.2.2
    have hwords : (s.adkTaken (rdFrame tag (BitVec.ofNat 48 (timAddr 0x038)) 1)).readRegs (BitVec.ofNat 48 (timAddr 0x038)).toNat 1
        = [s.readReg (timAddr 0x038)] := by
      rw [State.readRegs_adkTaken, show (BitVec.ofNat 48 (timAddr 0x038)).toNat = timAddr 0x038 by decide]
      rfl
    rw [hlate.trans (congrArg _ hwords)] at hexec
    obtain ⟨htim, honly⟩ := State.lateRead_reply (s.adkTaken (rdFrame tag (BitVec.ofNat 48 (timAddr 0x038)) 1))
      { rdFrame tag (BitVec.ofNat 48 (timAddr 0x038)) 1 with cycle := incs.setWidth 64 } incs [s.readReg (timAddr 0x038)]
    obtain ⟨x, hx, htag, hkept, -⟩ := State.adkReply_kept ((s.adkTaken (rdFrame tag (BitVec.ofNat 48 (timAddr 0x038)) 1)).lateRead incs)
      { rdFrame tag (BitVec.ofNat 48 (timAddr 0x038)) 1 with cycle := incs.setWidth 64 } stOk (BitVec.ofNat 48 (timAddr 0x038)) [s.readReg (timAddr 0x038)]
    exact ⟨_, hexec, State.adkReply_responded _ { rdFrame tag (BitVec.ofNat 48 (timAddr 0x038)) 1 with cycle := incs.setWidth 64 } _ _ _, htim, ⟨x, hx, htag, hkept⟩,
      ((State.adkTaken_link s (rdFrame tag (BitVec.ofNat 48 (timAddr 0x038)) 1)).mono (by decide)).trans honly⟩
  case readLate =>
    intro s tag addr len hperf hform hlisted hlate hptw hdiag
    have hexec := execAdkRd_performs hperf hform
    rw [State.rdAny_late (q := rdFrame tag addr len.toNat) (incs := 0) (by simp [rdFrame]) hlisted hptw hdiag hlate, State.readRegs_adkTaken] at hexec
    obtain ⟨htim, honly⟩ := State.lateRead_reply (s.adkTaken (rdFrame tag addr len.toNat)) (rdFrame tag addr len.toNat) 0
      (s.readRegs (rdFrame tag addr len.toNat).addr.toNat (rdFrame tag addr len.toNat).len)
    obtain ⟨x, hx, htag, hwords, haddr⟩ := State.adkReply_kept ((s.adkTaken (rdFrame tag addr len.toNat)).lateRead 0) (rdFrame tag addr len.toNat) stOk
      (rdFrame tag addr len.toNat).addr (s.readRegs (rdFrame tag addr len.toNat).addr.toNat (rdFrame tag addr len.toNat).len)
    exact ⟨_, hexec, State.adkReply_responded _ (rdFrame tag addr len.toNat) _ _ _, htim, ⟨x, hx, htag, haddr, hwords⟩,
      ((State.adkTaken_link s _).mono (by decide)).trans honly⟩
  case tcSel =>
    intro s tag value held hw _
    obtain ⟨t, hexec, hresp, hreply, honly⟩ := execRegisterWrite_effect (held := held) (ps := [.sec, .adk]) hw (by decide) (by decide) (by decide) (by decide)
      (by decide) (by decide) (by decide) rfl (State.regWrite_tcSel _ _) ((only_refl _ _).sec (by decide) _) (by decide)
    rw [heldValue_of_no_rw1c rfl] at hreply
    exact ⟨t, hexec, hresp, hreply .sec (by decide), honly⟩
  case capW =>
    intro s tag value held hw hlo hhi
    have hrange : within 0x0BB8 0x2648 (bits (heldValue (glbAddr 0x18) value held).toNat 15 0) = true := by
      rw [heldValue_of_no_rw1c rfl]
      simp [within, hlo, hhi]
    obtain ⟨t, hexec, hresp, hreply, honly⟩ := execRegisterWrite_effect (held := held) (ps := [.glb, .adk]) hw (by decide) (by decide) (by decide) (by decide)
      (by decide) (by decide) (by decide) rfl (State.regWrite_capW hrange) ((only_refl _ _).glb (by decide) _) (by decide)
    rw [heldValue_of_no_rw1c rfl] at hreply
    exact ⟨t, hexec, hresp, hreply .glb (by decide), honly⟩
  case capWBad =>
    intro s tag value held hw hbad
    have hrange : within 0x0BB8 0x2648 (bits (heldValue (glbAddr 0x18) value held).toNat 15 0) = false := by
      rw [heldValue_of_no_rw1c rfl]
      simp only [within, Bool.and_eq_false_iff, decide_eq_false_iff_not]
      omega
    obtain ⟨t, hexec, hresp, -, honly⟩ := execRegisterWrite_effect (held := held) (ps := [.adk]) hw (by decide) (by decide) (by decide) (by decide)
      (by decide) (by decide) (by decide) rfl (State.regWrite_capW_bad hrange) (only_refl _ _) (by decide)
    exact ⟨t, hexec, hresp, honly⟩
  case attn =>
    intro s tag value held hw
    obtain ⟨t, hexec, hresp, hreply, honly⟩ := execRegisterWrite_effect (held := held) (ps := [.mod, .adk]) hw (by decide) (by decide) (by decide) (by decide)
      (by decide) (by decide) (by decide) rfl (State.regWrite_attnReq _ _) (ite_only (fun _ => (only_refl _ _).mod (by decide) _) (fun _ => only_refl _ _)) (by decide)
    refine ⟨t, hexec, hresp, (hreply .mod (by decide)).trans ?_, honly⟩
    have hflag : (!value.getLsbD 8 || held.getLsbD 8) = !(value.getLsbD 8 && !held.getLsbD 8) := by
      cases value.getLsbD 8 <;> cases held.getLsbD 8 <;> rfl
    rw [heldValue_attn, hflag]
    cases value.getLsbD 8 && !held.getLsbD 8
    · show s.mod = { s.mod with attnReq := s.mod.attnReq && true }
      rw [Bool.and_true]
    · show ({ s.mod with attnReq := false } : Module) = { s.mod with attnReq := s.mod.attnReq && false }
      rw [Bool.and_false]
  case answered =>
    intro s tag addr value held hperf halign hptw hdbg hmod hext
    have hexec := execRegisterWrite_performs (held := held) hperf halign
    cases hlisted : pageListed addr.toNat with
    | false =>
      rw [State.wrAny_unlisted hlisted] at hexec
      exact ⟨_, hexec, _, State.adkReply_responded _ _ _ _ _⟩
    | true =>
      rw [State.wrAny_plain hlisted hptw hdbg hmod hext] at hexec
      exact ⟨_, hexec, State.wrBody_responded _ _ _ _⟩
  case unlisted =>
    intro s tag addr value held hperf halign hlisted
    have hexec := execRegisterWrite_performs (held := held) hperf halign
    rw [State.wrAny_unlisted hlisted] at hexec
    exact ⟨_, hexec, State.adkReply_responded _ _ _ _ _, State.adkReply_changesOnly (only_refl _ _) (by decide) _ _ _⟩
  case misaligned =>
    intro s tag addr value held hup hfree halign hout hroom
    have hexec := execRegisterWrite_misaligned (tag := tag) (value := value) (held := held) hup hfree halign
    obtain ⟨f, hf, hkept, hunacked, honly⟩ := State.adkMalformed_sends (s := s.adkTake) (q := heldFrame tag addr value held) hout hroom
    refine ⟨_, hexec, hkept, ⟨(s.adk.txSeq, f), ?_, rfl, ?_, ?_, ?_⟩, ((only_refl s [.adk]).adk (by decide) _).trans honly⟩
    · rw [hunacked]
      exact List.mem_append_right _ (List.mem_singleton_self _)
    all_goals rw [hf]
    · rfl
    · exact heldFrame_addr tag addr value held

end Sys2Proof.Machine
end

section
/-! SUPPORT. Coherent domains: what their configuration, failures and timers change (chapter 05). -/

namespace Sys2Proof.Machine

theorem State.dom_of_coh {s t : State} (h : t.coh = s.coh) (d : Nat) : t.dom d = s.dom d := by
  unfold State.dom
  rw [h]

theorem State.withCoh_only (s : State) (x) : s.changesOnly { s with coh := x } [.coh] := (only_refl s [.coh]).coh (by simp) x

theorem State.onDom_changesOnly (s : State) (d : Nat) (f : Domain → Domain) : s.changesOnly (s.onDom d f) [.coh] :=
  State.onDom_only s d f (only_refl s [.coh]) (by decide)

theorem State.domNotes_changesOnly (s : State) (d phase cause w : Nat) (keep : Nat → Bool) :
    s.changesOnly (s.domNotes d phase cause w keep) [.pkg, .ports, .adk, .evq] :=
  State.domNotes_only s d phase cause w keep (only_refl s [.pkg, .ports, .adk, .evq]) (by decide)

theorem State.domEvent_changesOnly (s : State) (d : Nat) : s.changesOnly (s.domEvent d) [.adk, .evq] :=
  State.domEvent_only s d (only_refl s [.adk, .evq]) (by decide)

/-! ### Configuration, reforming and members -/

/-- A domain that comes UP (R109). -/
def Domain.raised (x : Domain) : Domain := { x with state := .up, enable := true, gen := x.gen + 1 }

/-- A domain that takes the fields of COH_DOM_CFG (R126). -/
def Domain.configured (x : Domain) (v : BitVec 64) : Domain :=
  { x with tenant := BitVec.ofNat 10 (bits v.toNat 41 32), flushMs := BitVec.ofNat 8 (bits v.toNat 31 24),
           cinch := BitVec.ofNat 7 (bits v.toNat 22 16), eGrant := bit v.toNat 1 }

/-- The fields FLUSH_MS and CINCH of a write are within their ranges (R126). -/
def domCfgGood (v : BitVec 64) : Prop :=
  1 ≤ bits v.toNat 31 24 ∧ bits v.toNat 31 24 ≤ 100 ∧ 1 ≤ bits v.toNat 22 16 ∧ bits v.toNat 22 16 ≤ 64

theorem domCfgGood.not_bad {v : BitVec 64} (h : domCfgGood v) :
    ¬(bits v.toNat 31 24 = 0 ∨ 100 < bits v.toNat 31 24 ∨ bits v.toNat 22 16 = 0 ∨ 64 < bits v.toNat 22 16) := by
  unfold domCfgGood at h
  omega

theorem State.dom_onDom (s : State) (d : Nat) (f : Domain → Domain) (e : Nat) :
    (s.onDom d f).dom e = if e = d then f (s.dom d) else s.dom e := Table.read_write ..

theorem State.domainUp_coh (s : State) (d : Nat) : (s.domainUp d).coh = (s.onDom d Domain.raised).coh :=
  (State.domNotes_changesOnly _ d 3 0 0 _ .coh (by decide)).trans (State.domEvent_changesOnly _ d .coh (by decide))

theorem State.domainUp_changesOnly (s : State) (d : Nat) : s.changesOnly (s.domainUp d) [.pkg, .ports, .coh, .evq, .adk] :=
  ((s.onDom_changesOnly d Domain.raised).mono (by decide)).trans
    (((State.domEvent_changesOnly _ d).mono (by decide)).trans ((State.domNotes_changesOnly _ d 3 0 0 _).mono (by decide)))

theorem State.cohCfg_enables {s : State} {d : Nat} {v : BitVec 64} (hgood : domCfgGood v) (hoff : (s.dom d).state = .off)
    (htenant : (s.tenant (bits v.toNat 41 32)).state = .active) (hen : bit v.toNat 0 = true) :
    s.cohCfg d v = ((s.onDom d (fun x => x.configured v)).domainUp d, stOk) := by
  have hid : (BitVec.ofNat 10 (bits v.toNat 41 32)).toNat = bits v.toNat 41 32 :=
    toNat_ofNat_bits 10 v.toNat 41 32 rfl
  unfold State.cohCfg
  dsimp only
  rw [if_neg hgood.not_bad, if_neg (fun h => h.1 hoff), if_neg (fun h => h.2 (by rw [hid]; exact htenant)),
    if_neg (fun h => Bool.noConfusion (hen.symm.trans h.1)), if_pos ⟨hoff, hen⟩]
  rfl

theorem State.cohCfg_disables {s : State} {d : Nat} {v : BitVec 64} (hgood : domCfgGood v) (hdown : (s.dom d).state = .down)
    (htenant : bits v.toNat 41 32 = (s.dom d).tenant.toNat) (hen : bit v.toNat 0 = false) :
    s.cohCfg d v
      = (((s.onDom d (fun x => x.configured v)).onDom d (fun x => { x with state := .off, enable := false })).domEvent d, stOk) := by
  have hid : BitVec.ofNat 10 (bits v.toNat 41 32) = (s.dom d).tenant := by
    rw [htenant, BitVec.ofNat_toNat, BitVec.setWidth_eq]
  unfold State.cohCfg
  dsimp only
  rw [if_neg hgood.not_bad, if_neg (fun h => h.2 hid), if_neg (fun h => h.1 hid), if_neg (fun h => h.2.2 hdown),
    if_neg (fun h => DomState.noConfusion (hdown.symm.trans h.1)), if_pos ⟨hdown, hen⟩]
  rfl

/-- While a domain is UP and enabled, no write without ENABLE is accepted. -/
theorem State.cohCfg_refuses {s : State} {d : Nat} {v : BitVec 64} (hup : (s.dom d).state = .up) (henable : (s.dom d).enable = true)
    (hen : bit v.toNat 0 = false) : s.cohCfg d v = (s, stDenied) := by
  unfold State.cohCfg
  dsimp only
  refine ite_eq_left_iff.2 fun _ => ite_eq_left_iff.2 fun _ => ite_eq_left_iff.2 fun _ => ?_
  exact if_pos ⟨hen, henable, fun h => DomState.noConfusion (hup.symm.trans h)⟩

/-- The members of a domain once entries 4j to 4j + 3 have been written (R109). -/
def memberTable (t : Table (BitVec 16)) (j : Nat) (v : BitVec 64) : Table (BitVec 16) :=
  (List.range 4).foldl (fun t k => Table.write 0xFFFF t (4 * j + k) (BitVec.ofNat 16 (v.toNat / 2 ^ (16 * k)))) t

theorem memberTable_read (j : Nat) (v : BitVec 64) {k : Nat} (hk : k < 4) :
    Table.read 0xFFFF (memberTable [] j v) (4 * j + k) = BitVec.ofNat 16 (v.toNat / 2 ^ (16 * k)) := by
  have h4 : List.range 4 = [0, 1, 2, 3] := rfl
  unfold memberTable
  rw [h4]
  simp only [List.foldl_cons, List.foldl_nil, Table.read_write, Nat.add_left_cancel_iff]
  interval_cases k <;> simp

/-- A write behind every entry of a table appends to it. -/
theorem Table.write_behind {α : Type} [DecidableEq α] (d : α) {t : Table α} {k : Nat} (h : ∀ e ∈ t, e.1 < k) (v : α) :
    Table.write d t k v = t ++ (if v = d then [] else [(k, v)]) := by
  unfold Table.write
  split
  · rw [List.append_nil]
    exact List.filter_eq_self.2 fun e he => bne_iff_ne.2 (Nat.ne_of_lt (h e he))
  · induction t with
    | nil => rfl
    | cons e t ih =>
      have he := h e (List.mem_cons_self ..)
      unfold Table.put
      rw [if_neg (by omega), if_neg (by omega), ih (fun e' he' => h e' (List.mem_cons_of_mem _ he'))]
      rfl

/-- Values written in turn behind one another stand in the table in their order, but for the default. -/
theorem foldl_write_sublist {α : Type} [DecidableEq α] (d : α) (i : Nat) (f : Nat → α) (n : Nat) :
    (∀ e ∈ (List.range n).foldl (fun t k => Table.write d t (i + k) (f k)) [], e.1 < i + n)
      ∧ (((List.range n).foldl (fun t k => Table.write d t (i + k) (f k)) []).map (·.2)).Sublist ((List.range n).map f) := by
  induction n with
  | zero => exact ⟨fun e he => absurd he List.not_mem_nil, List.Sublist.refl _⟩
  | succ n ih =>
    obtain ⟨hkeys, hsub⟩ := ih
    rw [List.range_succ, List.foldl_append, List.foldl_cons, List.foldl_nil, Table.write_behind d hkeys, List.map_append, List.map_append]
    constructor
    · intro e he
      rcases List.mem_append.1 he with he | he
      · exact Nat.lt_succ_of_lt (hkeys e he)
      · split at he
        · exact absurd he List.not_mem_nil
        · rw [List.mem_singleton.1 he]
          exact Nat.lt_succ_self _
    · refine hsub.append ?_
      split
      · exact List.nil_sublist _
      · exact List.Sublist.refl _

theorem memberTable_new_nodup (j : Nat) (v : BitVec 64)
    (h : ((List.range 4).map (fun k => BitVec.ofNat 16 (v.toNat / 2 ^ (16 * k)))).Nodup) :
    ((memberTable [] j v).map (·.2)).Nodup := by
  exact (foldl_write_sublist _ (4 * j) _ 4).2.nodup h

theorem State.cohMembers_new {s : State} {d j : Nat} {v : BitVec 64} (hoff : (s.dom d).state = .off) (hnone : (s.dom d).members = [])
    (hdiff : ((List.range 4).map (fun k => BitVec.ofNat 16 (v.toNat / 2 ^ (16 * k)))).Nodup) :
    s.cohMembers d j v = (s.onDom d (fun x => { x with members := memberTable [] j v }), stOk) := by
  unfold State.cohMembers
  dsimp only
  rw [hnone, hoff]
  rw [if_neg ?_, if_neg DomState.noConfusion]
  · rfl
  · rw [Bool.or_eq_true, not_or]
    refine ⟨by simp, ?_⟩
    rw [Bool.not_eq_true', decide_eq_false_iff_not, not_not]
    exact memberTable_new_nodup j v hdiff

/-! ### What a failure of an agent or a domain damages -/

/-- A domain but for its counters. -/
def Domain.uncounted (x : Domain) : Domain := { x with cntSnoop := 0, cntCinch := 0, cntBinv := 0, cntPoison := 0, sat := 0 }

theorem Domain.eq_of_uncounted {x y : Domain} (h : x.uncounted = y.uncounted) :
    x.state = y.state ∧ x.cause = y.cause ∧ x.deadAgent = y.deadAgent ∧ x.told = y.told ∧ x.windowEnd = y.windowEnd :=
  have hfield : ∀ {α : Type} (f : Domain → α), f x.uncounted = f y.uncounted := fun f => congrArg f h
  ⟨hfield Domain.state, hfield Domain.cause, hfield Domain.deadAgent, hfield Domain.told, hfield Domain.windowEnd⟩

/-- From `s` to `t` lines are poisoned, agents leave the directory and domains count: no request, no snoop and no domain is
otherwise touched, and no poison is taken back. -/
def State.damaged (s t : State) : Prop :=
  (s.req.reqs = [] → t.req.reqs = []) ∧ t.coh.snoops = s.coh.snoops ∧ (∀ d, (t.dom d).uncounted = (s.dom d).uncounted)
    ∧ (∀ l, s.linePoison l = true → t.linePoison l = true) ∧ s.changesOnly t [.req, .coh, .tier, .sec, .log, .adk, .evq]

theorem State.damaged.refl (s : State) : s.damaged s := ⟨id, rfl, fun _ => rfl, fun _ => id, only_refl s _⟩

theorem State.damaged.trans {s t u : State} (h : s.damaged t) (g : t.damaged u) : s.damaged u := by
  obtain ⟨hreqs, hsnoops, hdom, hpoison, honly⟩ := h
  obtain ⟨greqs, gsnoops, gdom, gpoison, gonly⟩ := g
  exact ⟨greqs ∘ hreqs, gsnoops.trans hsnoops, fun d => (gdom d).trans (hdom d), fun l => gpoison l ∘ hpoison l, honly.trans gonly⟩

theorem State.damaged.foldl {α : Type} {f : State → α → State} (hf : ∀ (s : State) a, s.damaged (f s a)) (l : List α) (s : State) :
    s.damaged (l.foldl f s) := by
  induction l generalizing s with
  | nil => exact State.damaged.refl s
  | cons a l ih => exact (hf s a).trans (ih _)

theorem State.countCoh_coh (s : State) (d i : Nat) : (s.countCoh d i).coh.snoops = s.coh.snoops ∧ (s.countCoh d i).coh.dir = s.coh.dir := by
  unfold State.countCoh
  dsimp only
  rw [State.satEvent_only _ _ _ _ _ (only_refl _ [.adk, .evq]) (by decide) .coh (by decide)]
  exact ⟨rfl, rfl⟩

theorem State.countCoh_dom (s : State) (d i e : Nat) : ((s.countCoh d i).dom e).uncounted = (s.dom e).uncounted := by
  unfold State.countCoh
  dsimp only
  rw [State.dom_of_coh (State.satEvent_only _ _ _ _ _ (only_refl _ [.adk, .evq]) (by decide) .coh (by decide))]
  by_cases he : e = d
  · subst he
    rw [State.dom_onDom_same]
    split <;> rfl
  · rw [State.dom_onDom_other _ _ he]

theorem State.countCoh_damaged (s : State) (d i : Nat) : s.damaged (s.countCoh d i) := by
  have honly := State.countCoh_only s d i (only_refl s [.coh, .adk, .evq]) (by decide)
  refine ⟨fun h => (congrArg _ (honly .req (by decide))).trans h, (s.countCoh_coh d i).1, s.countCoh_dom d i, fun l h => ?_,
    honly.mono (by decide)⟩
  unfold State.linePoison
  rw [honly .tier (by decide)]
  exact h

theorem State.removeAgent_damaged (s : State) (line a : Nat) : s.damaged (s.removeAgent line a) := by
  have honly := State.removeAgent_only s line a (only_refl s [.coh]) (by decide)
  have hcoh : (s.removeAgent line a).coh.snoops = s.coh.snoops ∧ (s.removeAgent line a).coh.doms = s.coh.doms := by
    unfold State.removeAgent State.dropHolder
    dsimp only
    split
    · exact ⟨rfl, rfl⟩
    · repeat' split
      all_goals exact ⟨rfl, rfl⟩
  refine ⟨fun h => (congrArg _ (honly .req (by decide))).trans h, hcoh.1, fun d => ?_, fun l h => ?_, honly.mono (by decide)⟩
  · unfold State.dom
    rw [hcoh.2]
  · unfold State.linePoison
    rw [honly .tier (by decide)]
    exact h

/-- A line is placed poisoned, whatever its block's form was. -/
theorem State.placeLines_poisoned (s : State) (b i : Nat) (x : List Byte) :
    ((s.setForm b 0x10 []).placeLines b [(i, x, true)] true true).tier.poison = Table.write false s.tier.poison (32 * b + i) true := by
  have hform : (s.setForm b 0x10 []).tier.poison = s.tier.poison := by
    unfold State.setForm
    rw [if_pos rfl]
    split <;> rfl
  unfold State.placeLines
  simp only [Bool.true_or, List.filter_cons, List.filter_nil, if_true, List.foldl_cons, List.foldl_nil, State.setSector, hform]

/-- The line is poisoned, and no other line's poison changes. -/
theorem State.poisonLine_tier_poison (s : State) (line : Nat) :
    (s.poisonLine line).tier.poison = Table.write false s.tier.poison line true := by
  have hnoted : (s.notePoison line 0).tier = s.tier :=
    State.notePoison_only s line 0 (only_refl s [.log, .adk, .evq]) (by decide) .tier (by decide)
  have hkept : ((s.notePoison line 0).forget line).tier.poison = s.tier.poison := by
    unfold State.forget
    dsimp only
    rw [hnoted]
  unfold State.poisonLine
  dsimp only
  split
  · rw [State.placeLines_poisoned, hkept, Nat.div_add_mod]
  · rw [← hkept]

theorem State.poisonLine_linePoison (s : State) (line l : Nat) :
    (s.poisonLine line).linePoison l = if l = line then true else s.linePoison l := by
  unfold State.linePoison
  rw [State.poisonLine_tier_poison]
  exact Table.read_write ..

theorem State.poisonLine_reqs (s : State) (line : Nat) (h : s.req.reqs = []) : (s.poisonLine line).req.reqs = [] := by
  have hforget : ((s.notePoison line 0).forget line).req.reqs = [] := by
    unfold State.forget
    dsimp only
    rw [State.notePoison_only s line 0 (only_refl s [.log, .adk, .evq]) (by decide) .req (by decide), h]
    rfl
  unfold State.poisonLine
  dsimp only
  split
  · rw [State.placeLines_only _ _ _ _ _ (only_refl _ [.tier, .sec]) (by decide) .req (by decide),
      State.setForm_only _ _ _ _ (only_refl _ [.tier]) (by decide) .req (by decide)]
    exact hforget
  · exact hforget

theorem State.poisonLine_damaged (s : State) (line : Nat) : s.damaged (s.poisonLine line) := by
  have honly := State.poisonLine_only s line (only_refl s [.req, .tier, .sec, .log, .adk, .evq]) (by decide)
  have hcoh := honly .coh (by decide)
  refine ⟨s.poisonLine_reqs line, congrArg _ hcoh, fun d => by rw [State.dom_of_coh hcoh], fun l h => ?_, honly.mono (by decide)⟩
  rw [State.poisonLine_linePoison, h, ite_self]

/-- An owned line is poisoned, and counted at its domain (R123). -/
def State.spoil (d : Nat) (s : State) (e : Nat × DirEntry) : State := (s.poisonLine e.1).countCoh d 3

theorem State.spoil_damaged (d : Nat) (s : State) (e : Nat × DirEntry) : s.damaged (State.spoil d s e) :=
  (s.poisonLine_damaged e.1).trans (State.countCoh_damaged _ d 3)

theorem State.spoil_linePoison (d : Nat) (s : State) (e : Nat × DirEntry) : (State.spoil d s e).linePoison e.1 = true :=
  (State.countCoh_damaged _ d 3).2.2.2.1 e.1 (by rw [State.poisonLine_linePoison, if_pos rfl])

theorem State.killAgent_damaged (s : State) (d a : Nat) : s.damaged (s.killAgent d a) := by
  unfold State.killAgent
  dsimp only
  refine State.damaged.trans (State.damaged.foldl (State.spoil_damaged d) _ s) (State.damaged.foldl (fun t e => ?_) _ _)
  exact t.removeAgent_damaged e.1 a

/-! ### A frame on its way out -/

theorem Table.mem_of_read_ne {α : Type} {d : α} {t : Table α} {k : Nat} (h : t.read d k ≠ d) : (k, t.read d k) ∈ t := by
  induction t with
  | nil => exact absurd rfl h
  | cons e t ih =>
    obtain ⟨j, v⟩ := e
    unfold Table.read at h ⊢
    by_cases hk : k = j
    · rw [if_pos hk, hk]
      exact List.mem_cons_self ..
    · rw [if_neg hk] at h ⊢
      exact List.mem_cons_of_mem _ (ih h)

/-- Frames that a FIFO of a queue of the port holds stand in one of its queues. -/
theorem State.queuedOn_of_fifo {t : State} {b q vc : Nat} {f : Frame} {x : QFrame} (hx : x ∈ (t.queue b q).fifo vc)
    (hf : x.frame.clear flCe = f) : t.queuedOn b f := by
  have hfifo : (vc, (t.queue b q).fifo vc) ∈ (t.queue b q).fifos :=
    Table.mem_of_read_ne (fun h => absurd (h ▸ hx : x ∈ ([] : List QFrame)) List.not_mem_nil)
  refine ⟨(q, t.queue b q), Table.mem_of_read_ne fun h => ?_, x, List.mem_flatMap.2 ⟨_, hfifo, hx⟩, hf⟩
  have hq : t.queue b q = {} := h
  rw [hq] at hx
  exact absurd hx List.not_mem_nil

theorem Frame.clear_of_no_flags {f : Frame} (h : f.flags = 0) : f.clear flCe = f := by
  have hflags : f.flags &&& ~~~flCe = f.flags := by
    rw [h]
    exact BitVec.zero_and
  unfold Frame.clear
  rw [hflags]

theorem Frame.clear_set (f : Frame) (h : f.clear flCe = f) : (f.set flCe).clear flCe = f := by
  have hflags : f.flags &&& ~~~flCe = f.flags := congrArg Frame.flags h
  have hset : (f.flags ||| flCe) &&& ~~~flCe = f.flags := by
    refine Eq.trans ?_ hflags
    refine BitVec.eq_of_getLsbD_eq fun i hi => ?_
    rw [BitVec.getLsbD_and, BitVec.getLsbD_or, BitVec.getLsbD_and, BitVec.getLsbD_not]
    cases f.flags.getLsbD i <;> cases flCe.getLsbD i <;> simp
  unfold Frame.set Frame.clear
  dsimp only
  rw [hset]

theorem Queue.joined_fifo (q : Queue) (x : QFrame) (now : FT) :
    ∃ y ∈ (q.joined x now).fifo x.frame.vc.toNat, y.frame = if q.marks x.frame then x.frame.set flCe else x.frame := by
  refine ⟨{ x with since := now, order := q.entered, frame := if q.marks x.frame then x.frame.set flCe else x.frame }, ?_, rfl⟩
  unfold Queue.joined Queue.fifo
  dsimp only
  rw [Table.read_write_same]
  exact List.mem_append_right _ (List.mem_singleton_self _)

/-- A frame stands in a queue of port `b`, where it can be read, marked for congestion or not. -/
def State.inFifo (s : State) (b : Nat) (f : Frame) : Prop := ∃ q vc, ∃ x ∈ (s.queue b q).fifo vc, x.frame.clear flCe = f

theorem State.inFifo.queuedOn {s : State} {b : Nat} {f : Frame} (h : s.inFifo b f) : s.queuedOn b f := by
  obtain ⟨q, vc, x, hx, hf⟩ := h
  exact State.queuedOn_of_fifo hx hf

/-- A frame that is no control frame and bears no mark joins a queue of its port. -/
theorem State.enqueue_inFifo (s : State) (p : Nat) (o : Option Nat) {x : QFrame} (hvc : x.frame.vc ≠ 6)
    (hce : x.frame.clear flCe = x.frame) : (s.enqueue p o x).inFifo p x.frame := by
  rw [State.enqueue_of_not_vc6 s p o hvc]
  generalize s.queueOf p o x.frame = q
  obtain ⟨y, hy, hframe⟩ := (s.queue p q).joined_fifo x s.now
  have hclear : y.frame.clear flCe = x.frame := by
    rw [hframe]
    split
    · exact Frame.clear_set x.frame hce
    · exact hce
  have hport := (State.holdsPort.refl s p [.ports, .adk, .evq]).onQueue q (fun l => l.joined x s.now)
  dsimp only
  split
  case isTrue =>
    refine ⟨q, x.frame.vc.toNat, y, ?_, hclear⟩
    unfold State.queue
    rw [(hport.countQue q 2 1).port]
    simp only [Traffic.onQueue, Table.read_write_same, Queue.fifo, Queue.counted_fifos]
    exact hy
  case isFalse =>
    refine ⟨q, x.frame.vc.toNat, y, ?_, hclear⟩
    unfold State.queue
    rw [hport.port]
    simp only [Traffic.onQueue, Table.read_write_same]
    exact hy

/-- A frame sent towards a port is on its way out of it. -/
theorem State.sendFrom_bound (s : State) (site p : Nat) (o : Option Nat) {x : QFrame} (hvc : x.frame.vc ≠ 6)
    (hce : x.frame.clear flCe = x.frame) : (s.sendFrom site p o x).bound (s.base p) x.frame := by
  unfold State.sendFrom
  dsimp only
  split
  · exact Or.inl (s.enqueue_inFifo (s.base p) o hvc hce).queuedOn
  · exact Or.inr ⟨_, List.mem_append_right _ (List.mem_singleton_self _), rfl, rfl⟩

/-- The frame of a snoop (R107, R111). -/
def State.snoopFrame (s : State) (x : Snoop) : Frame :=
  { opcode := x.op, dst := s.agentUnit x.dom x.agent, src := s.selfUnit, vc := 1, tenant := (s.dom x.dom).tenant,
    epoch := s.comp.epoch, addr := s.lineTva x.line, tag := x.tag }

/-- A snoop goes out through the port that leads to its agent, and is counted; the directory and the snoops stay (R121). -/
theorem State.fireSnoop_port {s : State} {x : Snoop} {p : Nat} (hp : unitOf s.comp.run (s.agentUnit x.dom x.agent) = .port p) :
    (s.fireSnoop x).bound (s.base p) (s.snoopFrame x) ∧ (s.fireSnoop x).coh.snoops = s.coh.snoops ∧ (s.fireSnoop x).coh.dir = s.coh.dir := by
  have hcount := State.countCoh_only s x.dom 0 (only_refl s [.coh, .adk, .evq]) (by decide)
  have hcomp : (s.countCoh x.dom 0).comp = s.comp := hcount .comp (by decide)
  have hbase : (s.countCoh x.dom 0).base p = s.base p := by
    unfold State.base
    rw [State.link_of_only hcount (by decide)]
  have hfire : s.fireSnoop x = (s.countCoh x.dom 0).sendFrom ((s.countCoh x.dom 0).hubSite (x.line / 32)) p none { frame := s.snoopFrame x } := by
    unfold State.fireSnoop
    dsimp only
    rw [hcomp, hp]
    rfl
  have hsent := State.sendFrom_only (s.countCoh x.dom 0) ((s.countCoh x.dom 0).hubSite (x.line / 32)) p none { frame := s.snoopFrame x }
    (only_refl _ [.pkg, .ports, .adk, .evq]) (by decide)
  have hcoh := hsent .coh (by decide)
  obtain ⟨hsnoops, hdir⟩ := s.countCoh_coh x.dom 0
  rw [hfire]
  refine ⟨?_, (congrArg Coherence.snoops hcoh).trans hsnoops, (congrArg Coherence.dir hcoh).trans hdir⟩
  rw [← hbase]
  have hvc : (s.snoopFrame x).vc ≠ 6 := show (1 : BitVec 3) ≠ 6 by decide
  exact State.sendFrom_bound _ _ p none (x := { frame := s.snoopFrame x }) hvc (Frame.clear_of_no_flags rfl)

/-! ### A domain goes down -/

/-- A domain that goes down at `now` by a cause, its window ending at `wEnd`, and by a dead agent where there is one (R123). -/
def Domain.fallen (x : Domain) (now wEnd : FT) (cause : Nat) (agent : Option Nat) : Domain :=
  { x with state := .flush, cause := BitVec.ofNat 4 cause, downFt := now, windowEnd := wEnd,
           deadAgent := (match agent with | some a => BitVec.ofNat 8 a | none => x.deadAgent),
           told := x.members.foldl (fun (m : BitVec 256) e => if agent = some e.1 then m else m ||| (1 <<< e.1)) 0 }

/-- The snoops of a domain that goes down: the held ones are dropped, those sent are answered to nobody. -/
def fallenSnoops (l : List Snoop) (d : Nat) : List Snoop :=
  (l.filter (fun (y : Snoop) => y.dom != d || y.heldTo.isNone)).map (fun (y : Snoop) => if y.dom = d then { y with why := .cancelled } else y)

/-- The end of the flush window of a domain that goes down now (R123). -/
def State.windowOf (s : State) (d : Nat) : FT := s.now + (s.dom d).flushMs.toNat * msT

/-- The domain's own part of going down. -/
def State.fell (s : State) (d cause : Nat) (agent : Option Nat) : State :=
  let s := (s.onDom d (fun x => x.fallen s.now (s.windowOf d) cause agent)).domEvent d
  { s with coh := { s.coh with snoops := fallenSnoops s.coh.snoops d } }

theorem State.fell_coh (s : State) (d cause : Nat) (agent : Option Nat) :
    (s.fell d cause agent).coh
      = { (s.onDom d (fun x => x.fallen s.now (s.windowOf d) cause agent)).coh with snoops := fallenSnoops s.coh.snoops d } := by
  unfold State.fell
  dsimp only
  rw [State.domEvent_changesOnly _ d .coh (by decide)]
  rfl

theorem State.fell_changesOnly (s : State) (d cause : Nat) (agent : Option Nat) :
    s.changesOnly (s.fell d cause agent) [.coh, .adk, .evq] :=
  ((s.onDom_changesOnly d _).mono (by decide)).trans
    (((State.domEvent_changesOnly _ d).mono (by decide)).trans ((State.withCoh_only _ _).mono (by decide)))

/-- The agent that a failure makes dead, where it names one, loses what it holds. -/
def State.killNamed (s : State) (d : Nat) (agent : Option Nat) : State :=
  match agent with | some a => s.killAgent d a | none => s

theorem State.killNamed_damaged (s : State) (d : Nat) (agent : Option Nat) : s.damaged (s.killNamed d agent) := by
  cases agent with
  | none => exact State.damaged.refl s
  | some a => exact s.killAgent_damaged d a

/-- With no request under way a domain goes down without serving any. -/
theorem State.domainDown_of_no_reqs {s : State} (hreqs : s.req.reqs = []) (d cause : Nat) (agent : Option Nat) :
    s.domainDown d cause agent
      = ((s.fell d cause agent).killNamed d agent).domNotes d 1 cause (s.windowOf d) (fun a => agent != some a) := by
  have hfell : (s.fell d cause agent).req.reqs = [] :=
    (congrArg Traffic4.reqs (s.fell_changesOnly d cause agent .req (by decide))).trans hreqs
  have hkilled := (State.killNamed_damaged (s.fell d cause agent) d agent).1 hfell
  have hwaiters : (s.fell d cause agent).domWaiters d = [] := by
    unfold State.domWaiters
    rw [hfell]
    rfl
  have hdown : s.domainDown d cause agent
      = (((((s.fell d cause agent).domWaiters d).foldl
              (fun s r => match s.findReq r.n with | some r => s.finish r stDomDown | none => s) (s.fell d cause agent)).killNamed d agent
          |>.domReturns d).domNotes d 1 cause (s.windowOf d) (fun a => agent != some a)).wakeStaged := by
    unfold State.domainDown State.killNamed State.fell fallenSnoops Domain.fallen
    rfl
  rw [hdown, hwaiters, List.foldl_nil]
  unfold State.domReturns State.wakeStaged
  rw [State.wake_of_no_reqs hkilled, State.wake_of_no_reqs]
  exact (congrArg Traffic4.reqs (State.domNotes_changesOnly _ _ _ _ _ _ .req (by decide))).trans hkilled

/-- A domain that went down, to all but its counters; the snoops, and the parts that it leaves alone. -/
theorem State.domainDown_spec {s : State} (hreqs : s.req.reqs = []) (d cause : Nat) (agent : Option Nat) :
    (∀ e, ((s.domainDown d cause agent).dom e).uncounted
        = if e = d then ((s.dom d).fallen s.now (s.windowOf d) cause agent).uncounted else (s.dom e).uncounted)
      ∧ (s.domainDown d cause agent).coh.snoops = fallenSnoops s.coh.snoops d
      ∧ (agent = none → (s.domainDown d cause agent).coh.dir = s.coh.dir
          ∧ ∀ e, (s.domainDown d cause agent).dom e = if e = d then (s.dom d).fallen s.now (s.windowOf d) cause agent else s.dom e)
      ∧ (agent = none → s.changesOnly (s.domainDown d cause agent) [.pkg, .ports, .coh, .evq, .adk]) := by
  rw [State.domainDown_of_no_reqs hreqs]
  have hnotes := State.domNotes_changesOnly ((s.fell d cause agent).killNamed d agent) d 1 cause
    (s.windowOf d) (fun a => agent != some a)
  have hcoh := hnotes .coh (by decide)
  obtain ⟨-, hsnoops, hdom, -, -⟩ := State.killNamed_damaged (s.fell d cause agent) d agent
  have hfell : ∀ e, (s.fell d cause agent).dom e
      = if e = d then (s.dom d).fallen s.now (s.windowOf d) cause agent else s.dom e := by
    intro e
    have hdom : (s.fell d cause agent).dom e = (s.onDom d (fun x => x.fallen s.now (s.windowOf d) cause agent)).dom e := by
      unfold State.dom
      rw [s.fell_coh]
    rw [hdom, State.dom_onDom]
  refine ⟨fun e => ?_, (congrArg Coherence.snoops hcoh).trans (hsnoops.trans ?_), fun h => ⟨?_, fun e => ?_⟩, fun h => ?_⟩
  · rw [State.dom_of_coh hcoh, hdom, hfell]
    split <;> rfl
  · rw [s.fell_coh]
  · subst h
    have hdir := congrArg Coherence.dir (s.fell_coh d cause none)
    exact (congrArg Coherence.dir hcoh).trans hdir
  · subst h
    exact (State.dom_of_coh hcoh e).trans (hfell e)
  · subst h
    exact ((s.fell_changesOnly d cause none).mono (by decide)).trans (hnotes.mono (by decide))

/-! ### The flush window ends -/

/-- Every line of a list is poisoned, and counted at the domain. -/
theorem State.foldl_spoil_linePoison (d : Nat) (l : List (Nat × DirEntry)) (s : State) :
    ∀ e ∈ l, (l.foldl (State.spoil d) s).linePoison e.1 = true := by
  induction l generalizing s with
  | nil => exact fun e he => absurd he List.not_mem_nil
  | cons e l ih =>
    intro e' he'
    rcases List.mem_cons.1 he' with rfl | he'
    · exact (State.damaged.foldl (State.spoil_damaged d) l _).2.2.2.1 e'.1 (State.spoil_linePoison d s e')
    · exact ih _ e' he'

/-- Every entry of the domain is I and none of its snoops is left. -/
def State.cleared (s : State) (d : Nat) : State :=
  { s with coh := { s.coh with
      dir := s.coh.dir.filter (fun (e : Nat × DirEntry) => e.2.dom.toNat != d)
      snoops := s.coh.snoops.filter (fun (y : Snoop) => y.dom != d) } }

/-- The lines of the domain that agents own. -/
def State.ownedLines (s : State) (d : Nat) : List (Nat × DirEntry) :=
  s.coh.dir.filter (fun e => e.2.dom.toNat == d && e.2.state == .o)

/-- A domain's window has ended: its owned lines are poisoned, its entries cleared, and it is DOWN. -/
def State.flushed (s : State) (d : Nat) : State :=
  (((s.ownedLines d).foldl (State.spoil d) s).cleared d).onDom d (fun x => { x with state := .down })

/-- The window's end, with no request under way. -/
theorem execFlushWindowEnd_ends {s : State} {dom : BitVec 6} (hstate : (s.dom dom.toNat).state = .flush) (halive : s.alive = true)
    (hdue : (s.dom dom.toNat).windowEnd ≤ s.now) (hreqs : s.req.reqs = []) :
    ∃ t, execFlushWindowEnd dom s = .next t ∧ (s.flushed dom.toNat).changesOnly t [.pkg, .ports, .adk, .evq] := by
  have hflushed : (s.flushed dom.toNat).req.reqs = [] :=
    (State.damaged.foldl (State.spoil_damaged dom.toNat) (s.ownedLines dom.toNat) s).1 hreqs
  have honly := ((State.domNotes_changesOnly (s.flushed dom.toNat) dom.toNat 2 (s.dom dom.toNat).cause.toNat 0
    (fun a => (s.dom dom.toNat).told.getLsbD a)).trans ((State.domEvent_changesOnly _ dom.toNat).mono (by decide)))
  refine ⟨_, congrArg Host.Outcome.next ((if_neg ?_).trans (State.wake_of_no_reqs ?_ _)), honly⟩
  · rw [hstate, halive]
    rintro (h | h | h)
    · exact h rfl
    · exact Bool.noConfusion h
    · exact absurd hdue (Nat.not_le.2 h)
  · exact (congrArg Traffic4.reqs (honly .req (by decide))).trans hflushed

/-! ### The commands -/

/-- From `s` to `t` domain `d` has become `x`, and every other domain is as it was. -/
def State.domIs (s t : State) (d : Nat) (x : Domain) : Prop := t.dom d = x ∧ ∀ e, e ≠ d → t.dom e = s.dom e

theorem State.domIs_of_ite {s t : State} {d : Nat} {x : Domain} (h : ∀ e, t.dom e = if e = d then x else s.dom e) : s.domIs t d x :=
  ⟨(h d).trans (if_pos rfl), fun e he => (h e).trans (if_neg he)⟩

theorem execCohDomEnable_enables {s : State} {tag : BitVec 16} {dom : BitVec 6} {value : BitVec 64}
    (hw : s.writes tag (cohAddr dom.toNat 0) (value ||| 1) .operator) (hoff : (s.dom dom.toNat).state = .off)
    (hgood : domCfgGood (value ||| 1)) (htenant : (s.tenant (bits (value ||| 1).toNat 41 32)).state = .active) :
    ∃ t, execCohDomEnable tag dom value s = .next t ∧ t.responded tag stOk
      ∧ s.domIs t dom.toNat ((s.dom dom.toNat).configured (value ||| 1)).raised
      ∧ s.changesOnly t [.pkg, .ports, .coh, .evq, .adk] := by
  have hen : bit (value ||| 1).toNat 0 = true := by
    have h : (value ||| 1).getLsbD 0 = true := by simp
    exact h
  obtain ⟨t, hexec, hresp, hreply, honly⟩ := State.adkWr_effect (ps := [.pkg, .ports, .coh, .evq, .adk])
    (f := fun s => s.cohCfg dom.toNat (value ||| 1)) hw
    (State.cohCfg_enables (s := s.adkTaken _) hgood hoff htenant hen)
    (((State.onDom_changesOnly _ _ _).mono (by decide)).trans (State.domainUp_changesOnly _ _)) (by decide)
  refine ⟨t, hexec, hresp, State.domIs_of_ite fun e => ?_, honly⟩
  rw [State.dom_of_coh (hreply .coh (by decide)), State.dom_of_coh (State.domainUp_coh _ _), State.dom_onDom, State.dom_onDom, State.dom_onDom]
  split
  · rw [if_pos rfl]
    rfl
  · rfl

theorem bit_clear_zero (value : BitVec 64) : bit (value &&& ~~~1#64).toNat 0 = false := by
  have h : (value &&& ~~~1#64).getLsbD 0 = false := by simp
  exact h

theorem execCohDomDisable_disables {s : State} {tag : BitVec 16} {dom : BitVec 6} {value : BitVec 64}
    (hw : s.writes tag (cohAddr dom.toNat 0) (value &&& ~~~1#64) .operator) (hdown : (s.dom dom.toNat).state = .down)
    (hgood : domCfgGood (value &&& ~~~1#64)) (htenant : bits (value &&& ~~~1#64).toNat 41 32 = (s.dom dom.toNat).tenant.toNat) :
    ∃ t, execCohDomDisable tag dom value s = .next t ∧ t.responded tag stOk
      ∧ s.domIs t dom.toNat { (s.dom dom.toNat).configured (value &&& ~~~1#64) with state := .off, enable := false }
      ∧ s.changesOnly t [.coh, .evq, .adk] := by
  obtain ⟨t, hexec, hresp, hreply, honly⟩ := State.adkWr_effect (ps := [.coh, .evq, .adk])
    (f := fun s => s.cohCfg dom.toNat (value &&& ~~~1#64)) hw
    (State.cohCfg_disables (s := s.adkTaken _) hgood hdown htenant (bit_clear_zero value))
    (((State.onDom_changesOnly _ _ _).mono (by decide)).trans
      (((State.onDom_changesOnly _ _ _).mono (by decide)).trans ((State.domEvent_changesOnly _ _).mono (by decide)))) (by decide)
  refine ⟨t, hexec, hresp, State.domIs_of_ite fun e => ?_, honly⟩
  rw [State.dom_of_coh (hreply .coh (by decide)), State.dom_of_coh (State.domEvent_changesOnly _ _ .coh (by decide)), State.dom_onDom,
    State.dom_onDom, State.dom_onDom]
  split
  · rw [if_pos rfl]
    rfl
  · rfl

theorem execCohDomDisable_refuses {s : State} {tag : BitVec 16} {dom : BitVec 6} {value : BitVec 64}
    (hw : s.writes tag (cohAddr dom.toNat 0) (value &&& ~~~1#64) .operator) (hup : (s.dom dom.toNat).state = .up)
    (henable : (s.dom dom.toNat).enable = true) :
    ∃ t, execCohDomDisable tag dom value s = .next t ∧ t.responded tag stDenied ∧ t.coh = s.coh ∧ s.changesOnly t [.adk] := by
  obtain ⟨t, hexec, hresp, hreply, honly⟩ := State.adkWr_effect (ps := [.adk]) (f := fun s => s.cohCfg dom.toNat (value &&& ~~~1#64)) hw
    (State.cohCfg_refuses (s := s.adkTaken _) hup henable (bit_clear_zero value)) (only_refl _ _) (by decide)
  exact ⟨t, hexec, hresp, honly .coh (by decide), honly⟩

/-- COH_DOM_CMD.DOWN takes an UP domain down by cause 4 in every state of the module. -/
theorem State.cohCmd_down {s : State} {d : Nat} (hup : (s.dom d).state = .up) (hreqs : s.req.reqs = []) :
    s.cohCmd d 2 = (s.domainDown d 4 none, stOk) := by
  have htrigger : s.domTrigger d 4 none = s.domainDown d 4 none := by
    unfold State.domTrigger
    rw [hup]
    exact if_pos (Or.inr (Or.inr rfl))
  have hdown : (2 : BitVec 64).getLsbD 1 = true := by decide
  have hreform : (2 : BitVec 64).getLsbD 0 = false := by decide
  unfold State.cohCmd
  simp only [hdown, hreform, if_true, Bool.false_and, Bool.false_eq_true, if_false, htrigger]

theorem State.cohCmd_reform {s : State} {d : Nat} (hdown : (s.dom d).state = .down) : s.cohCmd d 1 = (s.domainUp d, stOk) := by
  have hkept : (1 : BitVec 64).getLsbD 1 = false := by decide
  have hreform : (1 : BitVec 64).getLsbD 0 = true := by decide
  unfold State.cohCmd
  simp only [hkept, hreform, Bool.false_eq_true, if_false, hdown, Bool.true_and, beq_self_eq_true, if_true]

theorem execCohDomDown_falls {s : State} {tag : BitVec 16} {dom : BitVec 6} (hw : s.writes tag (cohAddr dom.toNat 0x10) 2 .operator)
    (hup : (s.dom dom.toNat).state = .up) (hreqs : s.req.reqs = []) :
    ∃ t, execCohDomDown tag dom s = .next t ∧ t.responded tag stOk
      ∧ s.domIs t dom.toNat ((s.dom dom.toNat).fallen s.now (s.windowOf dom.toNat) 4 none) ∧ t.coh.dir = s.coh.dir
      ∧ s.changesOnly t [.pkg, .ports, .coh, .evq, .adk] := by
  obtain ⟨-, -, hquiet, hdown⟩ := State.domainDown_spec (s := s.adkTaken (wrFrame tag (cohAddr dom.toNat 0x10) 2)) hreqs dom.toNat 4 none
  obtain ⟨t, hexec, hresp, hreply, honly⟩ := State.adkWr_effect (ps := [.pkg, .ports, .coh, .evq, .adk])
    (f := fun s => s.cohCmd dom.toNat 2) hw (State.cohCmd_down (s := s.adkTaken _) hup hreqs) (hdown rfl) (by decide)
  obtain ⟨hdir, hdom⟩ := hquiet rfl
  have hcoh := hreply .coh (by decide)
  exact ⟨t, hexec, hresp, State.domIs_of_ite fun e => (State.dom_of_coh hcoh e).trans (hdom e), (congrArg Coherence.dir hcoh).trans hdir, honly⟩

theorem execCohDomReform_reforms {s : State} {tag : BitVec 16} {dom : BitVec 6} (hw : s.writes tag (cohAddr dom.toNat 0x10) 1 .operator)
    (hdown : (s.dom dom.toNat).state = .down) :
    ∃ t, execCohDomReform tag dom s = .next t ∧ t.responded tag stOk ∧ s.domIs t dom.toNat (s.dom dom.toNat).raised
      ∧ s.changesOnly t [.pkg, .ports, .coh, .evq, .adk] := by
  obtain ⟨t, hexec, hresp, hreply, honly⟩ := State.adkWr_effect (ps := [.pkg, .ports, .coh, .evq, .adk])
    (f := fun s => s.cohCmd dom.toNat 1) hw (State.cohCmd_reform (s := s.adkTaken _) hdown) (State.domainUp_changesOnly _ _) (by decide)
  refine ⟨t, hexec, hresp, State.domIs_of_ite fun e => ?_, honly⟩
  rw [State.dom_of_coh (hreply .coh (by decide)), State.dom_of_coh (State.domainUp_coh _ _), State.dom_onDom]
  rfl

theorem execCohMemberWrite_assigns {s : State} {tag : BitVec 16} {dom j : BitVec 6} {value : BitVec 64}
    (hw : s.writes tag (cohAddr dom.toNat (0x100 + 8 * j.toNat)) value .operator) (hoff : (s.dom dom.toNat).state = .off)
    (hnone : (s.dom dom.toNat).members = [])
    (hdiff : ((List.range 4).map (fun k => BitVec.ofNat 16 (value.toNat / 2 ^ (16 * k)))).Nodup) :
    ∃ t, execCohMemberWrite tag dom j value s = .next t ∧ t.responded tag stOk
      ∧ s.domIs t dom.toNat { s.dom dom.toNat with members := memberTable [] j.toNat value } ∧ s.changesOnly t [.coh, .adk] := by
  obtain ⟨t, hexec, hresp, hreply, honly⟩ := State.adkWr_effect (ps := [.coh, .adk])
    (f := fun s => s.cohMembers dom.toNat j.toNat value) hw (State.cohMembers_new (s := s.adkTaken _) hoff hnone hdiff)
    ((State.onDom_changesOnly _ _ _).mono (by decide)) (by decide)
  refine ⟨t, hexec, hresp, State.domIs_of_ite fun e => ?_, honly⟩
  rw [State.dom_of_coh (hreply .coh (by decide)), State.dom_onDom]
  rfl

/-! ### The timers -/

/-- A member that a failure names dead is not told of it. -/
theorem told_named (members : Table (BitVec 16)) (a : BitVec 8) (m : BitVec 256) (hm : m.getLsbD a.toNat = false) :
    (members.foldl (fun (m : BitVec 256) e => if some a.toNat = some e.1 then m else m ||| (1 <<< e.1)) m).getLsbD a.toNat = false := by
  induction members generalizing m with
  | nil => exact hm
  | cons e members ih =>
    refine ih _ ?_
    dsimp only
    split
    case isTrue => exact hm
    case isFalse he =>
      have hne : e.1 ≠ a.toNat := fun h => he (congrArg some h.symm)
      have hbit : (BitVec.ofNat 256 (1 <<< e.1)).getLsbD a.toNat = false := by
        rw [BitVec.getLsbD_ofNat, Nat.one_shiftLeft, Nat.testBit_two_pow_of_ne hne, Bool.and_false]
      rw [BitVec.getLsbD_or, hm]
      exact hbit

theorem execSnoopTimerExpiry_falls {s : State} {line : BitVec 50} {agent : BitVec 8} {x : Snoop} (hservice : s.mod.state = .service)
    (hsnoops : s.coh.snoops = [x]) (hline : x.line = line.toNat) (hagent : x.agent = agent.toNat) (hsent : x.heldTo = none)
    (hwhy : x.why ≠ .cancelled) (hdue : x.timer ≤ s.now) (hup : (s.dom x.dom).state = .up) :
    execSnoopTimerExpiry line agent s = .next (s.domainDown x.dom 2 (some agent.toNat)) := by
  have hfind : s.coh.snoops.find? (fun x => x.line == line.toNat && x.agent == agent.toNat && x.heldTo.isNone && x.why != .cancelled)
      = some x := by
    rw [hsnoops]
    exact List.find?_cons_of_pos (by rw [hline, hagent, hsent]; simp [hwhy])
  have halive : s.alive = true := by
    unfold State.alive
    rw [hservice]
    rfl
  unfold execSnoopTimerExpiry State.domTrigger
  rw [hfind]
  dsimp only
  rw [if_pos ⟨halive, hdue⟩, hup, hagent]
  dsimp only
  rw [if_pos (Or.inl hservice)]

/-- The time limit of a snoop that is sent now (R121). -/
def State.snoopLimit (s : State) (x : Snoop) : FT := s.now + s.targetLimit + 11200 * stagesTo s.comp.run (s.agentUnit x.dom x.agent)

/-- One snoop alone is under way. -/
def State.released (s : State) (y : Snoop) : State := { s with coh := { s.coh with snoops := [y] } }

theorem execCinchExpiry_sends {s : State} {line : BitVec 50} {agent : BitVec 8} {x : Snoop} {limit : FT} (halive : s.alive = true)
    (hsnoops : s.coh.snoops = [x]) (hline : x.line = line.toNat) (hagent : x.agent = agent.toNat) (hheld : x.heldTo = some limit)
    (hdue : limit ≤ s.now) :
    execCinchExpiry line agent s = .next ((s.released { x with heldTo := none, timer := s.snoopLimit x }).fireSnoop
      { x with heldTo := none, timer := s.snoopLimit x }) := by
  have hfind : s.coh.snoops.find? (fun x => x.line == line.toNat && x.agent == agent.toNat && x.heldTo.isSome) = some x := by
    rw [hsnoops]
    exact List.find?_cons_of_pos (by rw [hline, hagent, hheld]; simp)
  unfold execCinchExpiry
  rw [hfind]
  dsimp only
  rw [if_neg, hsnoops, List.map_cons, List.map_nil, if_pos rfl]
  · rfl
  rw [halive, hheld]
  rintro (h | h)
  · exact Bool.noConfusion h
  · exact absurd hdue (Nat.not_le.2 h)

/-- Settles O29: each command sets the domain it names, and each timer its own part; what a failure damages is never a request. -/
theorem coherentDomains : Obligations.CoherentDomains := by
  unfold Obligations.CoherentDomains
  refine ⟨?enable, ?disable, ?refused, ?down, ?reform, ?members, ?timer, ?cinch, ?window⟩
  case enable =>
    intro s tag dom value hw hoff h1 h2 h3 h4 htenant
    obtain ⟨t, hexec, hresp, ⟨hdom, hothers⟩, honly⟩ := execCohDomEnable_enables hw hoff ⟨h1, h2, h3, h4⟩ htenant
    refine ⟨t, hexec, hresp, ?_, ?_, ?_, ?_, ?_, ?_, ?_, ?_, hothers, honly⟩ <;> rw [hdom]
    case refine_4 => exact toNat_ofNat_bits 10 _ 41 32 rfl
    case refine_5 => exact toNat_ofNat_bits 8 _ 31 24 rfl
    case refine_6 => exact toNat_ofNat_bits 7 _ 22 16 rfl
    all_goals rfl
  case disable =>
    intro s tag dom value hw hdown h1 h2 h3 h4 htenant
    obtain ⟨t, hexec, hresp, ⟨hdom, hothers⟩, honly⟩ := execCohDomDisable_disables hw hdown ⟨h1, h2, h3, h4⟩ htenant
    refine ⟨t, hexec, hresp, ?_, ?_, ?_, hothers, honly⟩ <;> rw [hdom]
    rfl
  case refused => exact fun s tag dom value hw hup henable => execCohDomDisable_refuses hw hup henable
  case down =>
    intro s tag dom hw hup hreqs hsnoops
    obtain ⟨t, hexec, hresp, ⟨hdom, hothers⟩, hdir, honly⟩ := execCohDomDown_falls hw hup hreqs
    refine ⟨t, hexec, hresp, ?_, ?_, ?_, ?_, ?_, ?_, hdir, hothers, honly⟩ <;> rw [hdom]
    all_goals rfl
  case reform =>
    intro s tag dom hw hdown
    obtain ⟨t, hexec, hresp, ⟨hdom, hothers⟩, honly⟩ := execCohDomReform_reforms hw hdown
    refine ⟨t, hexec, hresp, ?_, ?_, ?_, hothers, honly⟩ <;> rw [hdom]
    all_goals rfl
  case members =>
    intro s tag dom j value hw hoff hnone hdiff
    obtain ⟨t, hexec, hresp, ⟨hdom, hothers⟩, honly⟩ := execCohMemberWrite_assigns hw hoff hnone hdiff
    refine ⟨t, hexec, hresp, fun k hk => ?_, ?_, hothers, honly⟩ <;> rw [hdom]
    · exact memberTable_read j.toNat value hk
    · exact hoff
  case timer =>
    intro s line agent x hservice hsnoops hline hagent hsent hwhy hdue hup hreqs
    obtain ⟨hdom, hleft, -, -⟩ := State.domainDown_spec hreqs x.dom 2 (some agent.toNat)
    obtain ⟨hstate, hcause, hdead, htold, hwindow⟩ := Domain.eq_of_uncounted ((hdom x.dom).trans (if_pos rfl))
    refine ⟨_, execSnoopTimerExpiry_falls hservice hsnoops hline hagent hsent hwhy hdue hup, hstate, hcause, ?_, ?_, hwindow, ?_⟩
    · exact hdead.trans ((BitVec.ofNat_toNat 8 agent).trans (BitVec.setWidth_eq agent))
    · rw [htold]
      exact told_named _ agent 0 BitVec.getLsbD_zero
    · intro y hy
      rw [hleft, hsnoops] at hy
      unfold fallenSnoops at hy
      obtain ⟨z, hz, rfl⟩ := List.mem_map.1 hy
      rw [List.mem_singleton.1 (List.mem_of_mem_filter hz), if_pos rfl]
  case cinch =>
    intro s line agent x limit p halive hsnoops hline hagent hheld hdue hp
    have hfire := State.fireSnoop_port (s := s.released { x with heldTo := none, timer := s.snoopLimit x }) hp
    obtain ⟨hbound, hleft, hdir⟩ := hfire
    refine ⟨_, execCinchExpiry_sends halive hsnoops hline hagent hheld hdue, hleft, hbound, hdir, ?_⟩
    exact ((State.withCoh_only s _).mono (by decide)).trans
      (State.fireSnoop_only _ _ (only_refl _ [.pkg, .ports, .coh, .evq, .adk]) (by decide))
  case window =>
    intro s dom hstate halive hdue hreqs
    obtain ⟨t, hexec, honly⟩ := execFlushWindowEnd_ends hstate halive hdue hreqs
    obtain ⟨-, -, hdom, -, hspoiled⟩ := State.damaged.foldl (State.spoil_damaged dom.toNat) (s.ownedLines dom.toNat) s
    have hcoh : t.coh = (s.flushed dom.toNat).coh := honly .coh (by decide)
    have htier : t.tier = (s.flushed dom.toNat).tier := honly .tier (by decide)
    have hext : t.ext = (s.flushed dom.toNat).ext := honly .ext (by decide)
    have hfell := (State.dom_of_coh hcoh dom.toNat).trans (State.dom_onDom_same ..)
    have hdir : t.coh.dir = ((s.ownedLines dom.toNat).foldl (State.spoil dom.toNat) s).coh.dir.filter (fun e => e.2.dom.toNat != dom.toNat) :=
      congrArg Coherence.dir hcoh
    have hleft : t.coh.snoops
        = ((s.ownedLines dom.toNat).foldl (State.spoil dom.toNat) s).coh.snoops.filter (fun y => y.dom != dom.toNat) :=
      congrArg Coherence.snoops hcoh
    refine ⟨t, hexec, by rw [hfell], ?_, fun y hy => ?_, fun y hy => ?_, fun y hy hmine howned => ?_, ?_⟩
    · rw [hfell]
      exact (Domain.eq_of_uncounted (hdom dom.toNat)).2.1
    · rw [hleft] at hy
      exact bne_iff_ne.1 (List.mem_filter.1 hy).2
    · rw [hdir] at hy
      exact fun h => bne_iff_ne.1 (List.mem_filter.1 hy).2 (congrArg BitVec.toNat h)
    · have hlisted : y ∈ s.ownedLines dom.toNat := List.mem_filter.2 ⟨hy, by rw [hmine, howned]; simp⟩
      have hpoison := State.foldl_spoil_linePoison dom.toNat (s.ownedLines dom.toNat) s y hlisted
      unfold State.linePoison at hpoison ⊢
      rw [htier]
      exact hpoison
    · exact hext.trans (hspoiled .ext (by decide))

end Sys2Proof.Machine
end

section
/-! SUPPORT. What the restart of walks leaves at rest: scratchpads, cluster memories, threads, handles, roots, tenants and the readings of
the dies (chapters 07, 09, 14, 15). -/

set_option linter.unusedTactic false
set_option linter.unreachableTactic false

namespace Sys2Proof.Machine

/-- From `s` to `t` no scratchpad, cluster memory, thread, handle, page-table root, tenant or reading of a die has changed. -/
structure State.rests (s t : State) : Prop where
  spad : t.cpu.spad = s.cpu.spad
  cmem : t.cpu.cmem = s.cpu.cmem
  threads : ∀ k, (t.core k).threads = (s.core k).threads
  handles : t.atn.handles = s.atn.handles
  roots : t.xl.roots = s.xl.roots
  tenants : t.sec.tenants = s.sec.tenants
  dies : t.log.dies = s.log.dies

theorem State.rests.refl (s : State) : s.rests s := ⟨rfl, rfl, fun _ => rfl, rfl, rfl, rfl, rfl⟩

theorem State.rests.trans {s t u : State} (h : s.rests t) (g : t.rests u) : s.rests u :=
  ⟨g.spad.trans h.spad, g.cmem.trans h.cmem, fun k => (g.threads k).trans (h.threads k), g.handles.trans h.handles,
    g.roots.trans h.roots, g.tenants.trans h.tenants, g.dies.trans h.dies⟩

/-- What changes none of the parts that hold them leaves them at rest. -/
theorem State.rests.of_only {s0 s t : State} {ps : List Part} (h : s0.rests s) (ho : s.changesOnly t ps)
    (hd : ps.all (fun p => !([Part.cpu, .atn, .xl, .sec, .log].contains p)) = true) : s0.rests t := by
  have hpart : ∀ p, [Part.cpu, .atn, .xl, .sec, .log].contains p = true → s.agrees t p := fun p hp =>
    ho p fun hm => by
      have h := List.all_eq_true.1 hd p hm
      rw [hp] at h
      exact Bool.noConfusion h
  have hcpu : t.cpu = s.cpu := hpart .cpu rfl
  have hatn : t.atn = s.atn := hpart .atn rfl
  have hxl : t.xl = s.xl := hpart .xl rfl
  have hsec : t.sec = s.sec := hpart .sec rfl
  have hlog : t.log = s.log := hpart .log rfl
  refine h.trans ⟨by rw [hcpu], by rw [hcpu], fun k => ?_, by rw [hatn], by rw [hxl], by rw [hsec], by rw [hlog]⟩
  unfold State.core
  rw [hcpu]

/-- A state put together from the parts of another. -/
theorem rests_mk {s0 s : State} {x0} {x1} {x2} {x3} {x4} {x5} {x6} {x7} {x8} {x9} {x10} {x11} {x12} {x13} {x14} {x15} {x16} {x17} {x18}
    {x19} {x20} {x21} {x22} {x23} {x24} (h0 : x0 = s.pending) (hcores : x15.cores = s.cpu.cores) (hspad : x15.spad = s.cpu.spad) (hcmem : x15.cmem = s.cpu.cmem)
    (hatn : x17.handles = s.atn.handles) (hxl : x13.roots = s.xl.roots) (hsec : x19.tenants = s.sec.tenants)
    (hlog : x20.dies = s.log.dies) (h : s0.rests s) :
    s0.rests (State.mk x0 x1 x2 x3 x4 x5 x6 x7 x8 x9 x10 x11 x12 x13 x14 x15 x16 x17 x18 x19 x20 x21 x22 x23 x24) :=
  h.trans ⟨hspad, hcmem, fun k => congrArg (fun l => (Table.read {} l k).threads) hcores, hatn, hxl, hsec, hlog⟩

theorem foldl_rests {α : Type} {s0 : State} (f : State → α → State) (l : List α) (s : State)
    (hf : ∀ (s : State) a, s0.rests s → s0.rests (f s a)) (h : s0.rests s) : s0.rests (l.foldl f s) := by
  induction l generalizing s with
  | nil => exact h
  | cons a l ih => exact ih _ (hf s a h)

theorem foldl_fst_rests {α β : Type} {s0 : State} (f : State × β → α → State × β) (l : List α) (s : State × β)
    (hf : ∀ (s : State × β) a, s0.rests s.1 → s0.rests (f s a).1) (h : s0.rests s.1) : s0.rests (l.foldl f s).1 := by
  induction l generalizing s with
  | nil => exact h
  | cons a l ih => exact ih _ (hf s a h)

theorem ite_rests {c : Prop} [Decidable c] {s0 a b : State} (ha : c → s0.rests a) (hb : ¬c → s0.rests b) : s0.rests (if c then a else b) := by
  split
  · exact ha ‹_›
  · exact hb ‹_›

theorem ite_fst_rests {β : Type} {c : Prop} [Decidable c] {s0 : State} {a b : State × β} (ha : c → s0.rests a.1) (hb : ¬c → s0.rests b.1) :
    s0.rests (if c then a else b).1 := by
  split
  · exact ha ‹_›
  · exact hb ‹_›

theorem pair_rests {β : Type} {s0 s : State} {x : State × β} {b : β} (e : x = (s, b)) (h : s0.rests x.1) : s0.rests s := by
  subst e
  exact h

theorem State.countLog_rests {s0 : State} (s : State) (i : Nat) (hs : s0.rests s) : s0.rests (State.countLog s i) := by
  unfold State.countLog
  repeat' first
    | with_reducible assumption
    | with_reducible refine State.rests.of_only (t := State.satEvent _ _ _ _ _) ?_ (State.satEvent_only _ _ _ _ _ (only_refl _ [.adk, .evq]) (List.Subset.refl _)) (by decide)
    | split
    | ((with_reducible apply rests_mk) <;> first
        | with_reducible exact rfl
        | exact rfl
        | skip)

theorem State.appendLog_rests {s0 : State} (s : State) (cls : Nat) (detail : Nat) (sr : BitVec 16) (param : Nat) (hs : s0.rests s) : s0.rests (State.appendLog s cls detail sr param) := by
  unfold State.appendLog
  repeat' first
    | with_reducible assumption
    | with_reducible apply State.countLog_rests
    | with_reducible apply ite_rests
    | with_reducible intro _
    | ((with_reducible apply rests_mk) <;> first
        | with_reducible exact rfl
        | exact rfl
        | skip)

theorem State.repeatLog_rests {s0 : State} (s : State) (seq : Nat) (hs : s0.rests s) : s0.rests (State.repeatLog s seq) := by
  unfold State.repeatLog
  repeat' first
    | with_reducible assumption
    | ((with_reducible apply rests_mk) <;> first
        | with_reducible exact rfl
        | exact rfl
        | skip)

theorem State.logE_rests {s0 : State} (s : State) (cls : Nat) (detail : Nat) (sr : BitVec 16) (param : Nat) (mirror : Bool) (hs : s0.rests s) : s0.rests (State.logE s cls detail sr param mirror) := by
  unfold State.logE
  repeat' first
    | with_reducible assumption
    | with_reducible refine State.rests.of_only (t := State.event _ _ _ _ _ _) ?_ (State.event_only _ _ _ _ _ _ (only_refl _ [.adk, .evq]) (List.Subset.refl _)) (by decide)
    | with_reducible apply State.appendLog_rests
    | with_reducible apply State.repeatLog_rests
    | with_reducible intro _
    | split

theorem State.logWith_rests {s0 : State} (s : State) (cls : Nat) (detail : Nat) (sr : BitVec 16) (param : Nat) (code : Nat) (edetail : Nat) (eparam : Nat) (hs : s0.rests s) : s0.rests (State.logWith s cls detail sr param code edetail eparam) := by
  unfold State.logWith
  repeat' first
    | with_reducible assumption
    | with_reducible refine State.rests.of_only (t := State.event _ _ _ _ _ _) ?_ (State.event_only _ _ _ _ _ _ (only_refl _ [.adk, .evq]) (List.Subset.refl _)) (by decide)
    | with_reducible apply State.logE_rests

theorem State.countTrn_rests {s0 : State} (s : State) (i : Nat) (hs : s0.rests s) : s0.rests (State.countTrn s i) := by
  unfold State.countTrn
  repeat' first
    | with_reducible assumption
    | with_reducible refine State.rests.of_only (t := State.satEvent _ _ _ _ _) ?_ (State.satEvent_only _ _ _ _ _ (only_refl _ [.adk, .evq]) (List.Subset.refl _)) (by decide)
    | split
    | ((with_reducible apply rests_mk) <;> first
        | with_reducible exact rfl
        | exact rfl
        | skip)

theorem State.lotFail_rests {s0 : State} (s : State) (p : Nat) (hs : s0.rests s) : s0.rests (State.lotFail s p) := by
  unfold State.lotFail
  repeat' first
    | with_reducible assumption
    | with_reducible apply State.logE_rests
    | with_reducible refine State.rests.of_only (t := State.onLink _ _ _) ?_ (State.onLink_only _ _ _ (only_refl _ [.ports]) (List.Subset.refl _)) (by decide)
    | with_reducible apply ite_rests
    | with_reducible intro _
    | ((with_reducible apply rests_mk) <;> first
        | with_reducible exact rfl
        | exact rfl
        | skip)

theorem State.lotStatus_rests {s0 : State} (s : State) (p : Nat) (st : BitVec 6) (hs : s0.rests s) : s0.rests (State.lotStatus s p st) := by
  unfold State.lotStatus
  repeat' first
    | with_reducible assumption
    | with_reducible apply State.lotFail_rests
    | with_reducible apply ite_rests
    | with_reducible intro _

/-- A core whose threads stay. -/
theorem State.onCore_rests {s0 : State} (s : State) (k : Nat) (f : Core → Core) (hf : (f (s.core k)).threads = (s.core k).threads)
    (hs : s0.rests s) : s0.rests (s.onCore k f) := by
  refine hs.trans ⟨rfl, rfl, fun j => ?_, rfl, rfl, rfl, rfl⟩
  by_cases hj : j = k
  · rw [hj, State.core_onCore_same, hf]
  · rw [State.core_onCore_other _ _ hj]

theorem State.emitOut_rests {s0 : State} (s : State) (n : Nat) (o : Origin) (x : QFrame) (hs : s0.rests s) : s0.rests (State.emitOut s n o x) := by
  have hport : ∀ (t : State) p, s0.rests t → s0.rests (t.enqueue p none x) := fun t p ht =>
    ht.of_only (State.enqueue_only t p none x (only_refl t [.ports, .adk, .evq]) (List.Subset.refl _)) (by decide)
  unfold State.emitOut
  split
  case h_1 p =>
    refine hport _ _ (State.lotStatus_rests _ p _ (hs.of_only (State.countDead_only s p x.frame.status (only_refl s _) (List.Subset.refl _)) (by decide)))
  case h_2 => exact State.onCore_rests s _ _ rfl hs
  case h_3 => split <;> exact hs.trans ⟨rfl, rfl, fun _ => rfl, rfl, rfl, rfl, rfl⟩
  case h_4 => exact hs.trans ⟨rfl, rfl, fun _ => rfl, rfl, rfl, rfl, rfl⟩
  case h_5 => split <;> exact hs.trans ⟨rfl, rfl, fun _ => rfl, rfl, rfl, rfl, rfl⟩
  case h_6 => exact hs.trans ⟨rfl, rfl, fun _ => rfl, rfl, rfl, rfl, rfl⟩
  case h_7 => exact hs

theorem State.toIssuer_rests {s0 : State} (s : State) (site : Nat) (n : Nat) (o : Origin) (q : Option Nat) (x : QFrame) (hs : s0.rests s) : s0.rests (State.toIssuer s site n o q x) := by
  unfold State.toIssuer
  repeat' first
    | with_reducible assumption
    | with_reducible refine State.rests.of_only (t := State.sendFrom _ _ _ _ _) ?_ (State.sendFrom_only _ _ _ _ _ (only_refl _ [.pkg, .ports, .adk, .evq]) (List.Subset.refl _)) (by decide)
    | with_reducible apply State.lotStatus_rests
    | with_reducible apply State.emitOut_rests
    | split

theorem State.toPart_rests {s0 : State} (s : State) (id : Nat) (c : Contributor) (q : Option Nat) (x : QFrame) (hs : s0.rests s) : s0.rests (State.toPart s id c q x) := by
  unfold State.toPart
  repeat' first
    | with_reducible assumption
    | with_reducible apply State.toIssuer_rests

theorem State.abortHere_rests {s0 : State} (s : State) (id : Nat) (cause : Nat) (hs : s0.rests s) : s0.rests (State.abortHere s id cause) := by
  have hset : ∀ f, s0.rests (s.onColl id f) := fun f =>
    hs.of_only (State.onColl_only s id f (only_refl s [.clv]) (List.Subset.refl _)) (by decide)
  unfold State.abortHere
  refine ite_rests (fun _ => hs) fun _ => State.logWith_rests _ _ _ _ _ _ _ _ ?_
  refine State.rests.of_only ?_ (State.countClv_only _ _ (only_refl _ [.clv, .adk, .evq]) (List.Subset.refl _)) (by decide)
  refine foldl_rests _ _ _ (fun t p ht => State.toPart_rests _ _ _ _ _ ht) (foldl_rests _ _ _ (fun t x ht => ?_) ?_)
  · exact ht.of_only (State.sendFrom_only _ _ _ _ _ (only_refl _ [.pkg, .ports, .adk, .evq]) (List.Subset.refl _)) (by decide)
  · exact (hset _).of_only (State.dropResults_only _ _ (only_refl _ [.pkg, .ports]) (List.Subset.refl _)) (by decide)

theorem State.collTrigger_rests {s0 : State} (s : State) (id : Nat) (cause : Nat) (hs : s0.rests s) : s0.rests (State.collTrigger s id cause) := by
  unfold State.collTrigger
  repeat' first
    | with_reducible assumption
    | with_reducible refine State.rests.of_only (t := State.sendFrom _ _ _ _ _) ?_ (State.sendFrom_only _ _ _ _ _ (only_refl _ [.pkg, .ports, .adk, .evq]) (List.Subset.refl _)) (by decide)
    | with_reducible apply State.abortHere_rests
    | with_reducible apply ite_rests
    | with_reducible intro _

theorem State.poolAnswer_rests {s0 : State} (s : State) (id : Nat) (st : BitVec 6) (hs : s0.rests s) : s0.rests (State.poolAnswer s id st) := by
  unfold State.poolAnswer
  repeat' first
    | with_reducible assumption
    | with_reducible refine State.rests.of_only (t := State.onColl _ _ _) ?_ (State.onColl_only _ _ _ (only_refl _ [.clv]) (List.Subset.refl _)) (by decide)
    | with_reducible apply State.collTrigger_rests
    | with_reducible apply ite_rests
    | with_reducible intro _

theorem State.attnAnswer_rests {s0 : State} (s : State) (id : Nat) (what : Nat) (st : BitVec 6) (data : List Byte) (hs : s0.rests s) : s0.rests (State.attnAnswer s id what st data) := by
  unfold State.attnAnswer
  repeat' first
    | with_reducible assumption
    | with_reducible intro _
    | split
    | ((with_reducible apply rests_mk) <;> first
        | with_reducible exact rfl
        | exact rfl
        | skip)

theorem State.emit_rests {s0 : State} (s : State) (n : Nat) (o : Origin) (x : QFrame) (hs : s0.rests s) : s0.rests (State.emit s n o x) := by
  unfold State.emit
  repeat' first
    | with_reducible assumption
    | with_reducible apply State.emitOut_rests
    | with_reducible apply State.poolAnswer_rests
    | with_reducible apply State.attnAnswer_rests
    | split

theorem State.placeLines_rests {s0 : State} (s : State) (b : Nat) (ls : List (Nat × List Byte × Bool)) (ow dirty : Bool) (hs : s0.rests s) :
    s0.rests (State.placeLines s b ls ow dirty) := by
  unfold State.placeLines
  refine foldl_rests _ _ _ (fun t l ht => ht.trans ⟨rfl, rfl, fun _ => rfl, rfl, rfl, rfl, rfl⟩) ?_
  exact hs.trans ⟨rfl, rfl, fun _ => rfl, rfl, rfl, rfl, rfl⟩

theorem State.fillBlock_rests {s0 : State} (s : State) (b : Nat) (ls : List (List Byte × Bool)) (heat : Bool) (hs : s0.rests s) : s0.rests (State.fillBlock s b ls heat).1 := by
  unfold State.fillBlock
  repeat' first
    | with_reducible assumption
    | with_reducible refine State.rests.of_only (t := State.onPage _ _ _) ?_ (State.onPage_only _ _ _ (only_refl _ [.tier]) (List.Subset.refl _)) (by decide)
    | with_reducible refine State.rests.of_only (t := State.setSector _ _ _) ?_ (State.setSector_only _ _ _ (only_refl _ [.tier]) (List.Subset.refl _)) (by decide)
    | with_reducible refine State.rests.of_only (t := (State.makeWay _ _).1) ?_ (State.makeWay_only _ _ (only_refl _ [.pkg, .ports, .tier, .adk, .evq]) (List.Subset.refl _)) (by decide)
    | with_reducible refine State.rests.of_only (t := (State.formBlock _ _ _ _).1) ?_ (State.formBlock_only _ _ _ _ (only_refl _ [.cmp, .adk, .evq]) (List.Subset.refl _)) (by decide)
    | with_reducible refine State.rests.of_only (t := State.touch _ _) ?_ (State.touch_only _ _ (only_refl _ [.tier]) (List.Subset.refl _)) (by decide)
    | with_reducible apply State.placeLines_rests
    | with_reducible refine State.rests.of_only (t := State.setForm _ _ _ _) ?_ (State.setForm_only _ _ _ _ (only_refl _ [.tier]) (List.Subset.refl _)) (by decide)
    | with_reducible apply ite_rests
    | with_reducible apply ite_fst_rests
    | with_reducible intro _

theorem State.seek_rests {s0 : State} (s : State) (n : Nat) (line : Nat) (hs : s0.rests s) : s0.rests (State.seek s n line).1 := by
  unfold State.seek
  repeat' first
    | with_reducible assumption
    | with_reducible refine State.rests.of_only (t := State.startFill _ _) ?_ (State.startFill_only _ _ (only_refl _ [.pkg, .ports, .tier, .adk, .evq]) (List.Subset.refl _)) (by decide)
    | with_reducible refine State.rests.of_only (t := State.readSlotLine _ _ _) ?_ (State.readSlotLine_only _ _ _ (only_refl _ [.pkg, .ports, .tier, .adk, .evq]) (List.Subset.refl _)) (by decide)
    | with_reducible refine State.rests.of_only (t := State.touch _ _) ?_ (State.touch_only _ _ (only_refl _ [.tier]) (List.Subset.refl _)) (by decide)
    | with_reducible apply State.fillBlock_rests
    | with_reducible apply ite_fst_rests
    | with_reducible intro _
    | split

theorem State.homeWrite_rests {s0 : State} (s : State) (line : Nat) (bs : List Byte) (hs : s0.rests s) : s0.rests (State.homeWrite s line bs) := by
  unfold State.homeWrite
  repeat' first
    | with_reducible assumption
    | with_reducible refine State.rests.of_only (t := State.onExtent _ _ _) ?_ (State.onExtent_only _ _ _ (only_refl _ [.ext]) (List.Subset.refl _)) (by decide)
    | with_reducible refine State.rests.of_only (t := State.forget _ _) ?_ (State.forget_only _ _ (only_refl _ [.req, .tier]) (List.Subset.refl _)) (by decide)
    | with_reducible refine State.rests.of_only (t := State.writeThrough _ _ _ _) ?_ (State.writeThrough_only _ _ _ _ (only_refl _ [.pkg, .ports, .req, .tier, .adk, .evq]) (List.Subset.refl _)) (by decide)
    | with_reducible refine State.rests.of_only (t := State.holdLine _ _ _ _) ?_ (State.holdLine_only _ _ _ _ (only_refl _ [.req, .tier]) (List.Subset.refl _)) (by decide)
    | with_reducible refine State.rests.of_only (t := State.startZero _ _) ?_ (State.startZero_only _ _ (only_refl _ [.pkg, .ports, .tier, .adk, .evq]) (List.Subset.refl _)) (by decide)
    | with_reducible refine State.rests.of_only (t := (State.makeWay _ _).1) ?_ (State.makeWay_only _ _ (only_refl _ [.pkg, .ports, .tier, .adk, .evq]) (List.Subset.refl _)) (by decide)
    | with_reducible refine State.rests.of_only (t := State.touch _ _) ?_ (State.touch_only _ _ (only_refl _ [.tier]) (List.Subset.refl _)) (by decide)
    | with_reducible apply State.placeLines_rests
    | with_reducible refine State.rests.of_only (t := State.expanded _ _) ?_ (State.expanded_only _ _ (only_refl _ [.ext, .tier]) (List.Subset.refl _)) (by decide)
    | with_reducible apply ite_rests
    | with_reducible intro _
    | split

theorem State.finishWith_rests {s0 : State} (s : State) (r : Req) (x : QFrame) (hs : s0.rests s) : s0.rests (State.finishWith s r x) := by
  unfold State.finishWith
  repeat' first
    | with_reducible assumption
    | with_reducible apply State.onCore_rests
    | with_reducible apply State.emit_rests
    | with_reducible refine State.rests.of_only (t := State.dropReq _ _) ?_ (State.dropReq_only _ _ (only_refl _ [.req]) (List.Subset.refl _)) (by decide)
    | split
    | dsimp only

theorem State.finishOne_rests {s0 : State} (s : State) (r : Req) (st : BitVec 6) (data : List Byte) (hs : s0.rests s) : s0.rests (State.finishOne s r st data) := by
  unfold State.finishOne
  repeat' first
    | with_reducible assumption
    | with_reducible apply State.finishWith_rests

theorem State.finish_rests {s0 : State} (s : State) (r : Req) (st : BitVec 6) (data : List Byte) (hs : s0.rests s) : s0.rests (State.finish s r st data) := by
  unfold State.finish
  repeat' first
    | with_reducible assumption
    | with_reducible apply State.finishOne_rests
    | with_reducible apply foldl_rests
    | with_reducible intro _

theorem State.seekAll_rests {s0 : State} (s : State) (r : Req) (lines : List Nat) (hs : s0.rests s) : s0.rests (State.seekAll s r lines).1 := by
  unfold State.seekAll
  repeat' first
    | with_reducible assumption
    | with_reducible apply State.seek_rests
    | with_reducible apply foldl_fst_rests
    | with_reducible intro _
    | split

theorem State.serveLoad_rests {s0 : State} (s : State) (r : Req) (hs : s0.rests s) : s0.rests (State.serveLoad s r) := by
  unfold State.serveLoad
  repeat' first
    | with_reducible assumption
    | with_reducible refine State.rests.of_only (t := State.stageReq _ _ _) ?_ (State.stageReq_only _ _ _ (only_refl _ [.req]) (List.Subset.refl _)) (by decide)
    | with_reducible apply State.finishWith_rests
    | with_reducible refine State.rests.of_only (t := State.countWarm _ _) ?_ (State.countWarm_only _ _ (only_refl _ [.tier]) (List.Subset.refl _)) (by decide)
    | with_reducible apply State.seekAll_rests
    | with_reducible refine State.rests.of_only (t := (State.loadFrame _ _).1) ?_ (State.loadFrame_only _ _ (only_refl _ [.cmp, .adk, .evq]) (List.Subset.refl _)) (by decide)
    | with_reducible refine State.rests.of_only (t := (State.snoopLines _ _ _).1) ?_ (State.snoopLines_only _ _ _ (only_refl _ [.pkg, .ports, .coh, .adk, .evq]) (List.Subset.refl _)) (by decide)
    | with_reducible apply ite_rests
    | with_reducible intro _

theorem State.spot_rests {s0 : State} (s : State) (r : Req) (line : Nat) (hs : s0.rests s) : s0.rests (State.spot s r line).1 := by
  unfold State.spot
  repeat' first
    | with_reducible assumption
    | with_reducible refine State.rests.of_only (t := State.readSlotLine _ _ _) ?_ (State.readSlotLine_only _ _ _ (only_refl _ [.pkg, .ports, .tier, .adk, .evq]) (List.Subset.refl _)) (by decide)
    | with_reducible refine State.rests.of_only (t := State.startZero _ _) ?_ (State.startZero_only _ _ (only_refl _ [.pkg, .ports, .tier, .adk, .evq]) (List.Subset.refl _)) (by decide)
    | with_reducible refine State.rests.of_only (t := (State.makeWay _ _).1) ?_ (State.makeWay_only _ _ (only_refl _ [.pkg, .ports, .tier, .adk, .evq]) (List.Subset.refl _)) (by decide)
    | with_reducible apply State.seek_rests
    | with_reducible apply ite_fst_rests
    | with_reducible intro _

theorem State.spots_rests {s0 : State} (s : State) (r : Req) (hs : s0.rests s) : s0.rests (State.spots s r).1 := by
  unfold State.spots
  repeat' first
    | with_reducible assumption
    | with_reducible apply State.spot_rests
    | with_reducible apply foldl_fst_rests
    | with_reducible apply ite_fst_rests
    | with_reducible intro _

theorem State.storeLine_rests {s0 : State} (s : State) (r : Req) (plain : List Byte) (x : StoreRun) (line : Nat) (hs : s0.rests s) : s0.rests (State.storeLine s r plain x line).1 := by
  unfold State.storeLine
  repeat' first
    | with_reducible assumption
    | with_reducible refine State.rests.of_only (t := State.onExtent _ _ _) ?_ (State.onExtent_only _ _ _ (only_refl _ [.ext]) (List.Subset.refl _)) (by decide)
    | with_reducible refine State.rests.of_only (t := State.forget _ _) ?_ (State.forget_only _ _ (only_refl _ [.req, .tier]) (List.Subset.refl _)) (by decide)
    | with_reducible refine State.rests.of_only (t := State.writeThrough _ _ _ _) ?_ (State.writeThrough_only _ _ _ _ (only_refl _ [.pkg, .ports, .req, .tier, .adk, .evq]) (List.Subset.refl _)) (by decide)
    | with_reducible refine State.rests.of_only (t := State.touch _ _) ?_ (State.touch_only _ _ (only_refl _ [.tier]) (List.Subset.refl _)) (by decide)
    | with_reducible apply State.placeLines_rests
    | with_reducible refine State.rests.of_only (t := State.expanded _ _) ?_ (State.expanded_only _ _ (only_refl _ [.ext, .tier]) (List.Subset.refl _)) (by decide)
    | with_reducible refine State.rests.of_only (t := State.hofWritten _ _ _ _) ?_ (State.hofWritten_only _ _ _ _ (only_refl _ [.comp]) (List.Subset.refl _)) (by decide)
    | with_reducible apply State.spot_rests
    | with_reducible refine State.rests.of_only (t := State.wholeForm _ _ _) ?_ (State.wholeForm_only _ _ _ (only_refl _ [.tier, .cmp, .adk, .evq]) (List.Subset.refl _)) (by decide)
    | with_reducible apply ite_fst_rests
    | with_reducible intro _
    | split
    | dsimp only

theorem State.doStore_rests {s0 : State} (s : State) (r : Req) (hold : Stage) (hs : s0.rests s) : s0.rests (State.doStore s r hold) := by
  unfold State.doStore
  repeat' first
    | with_reducible assumption
    | with_reducible refine State.rests.of_only (t := State.putReq _ _) ?_ (State.putReq_only _ _ (only_refl _ [.req]) (List.Subset.refl _)) (by decide)
    | with_reducible apply State.finish_rests
    | with_reducible refine State.rests.of_only (t := State.countWarm _ _) ?_ (State.countWarm_only _ _ (only_refl _ [.tier]) (List.Subset.refl _)) (by decide)
    | with_reducible apply State.storeLine_rests
    | with_reducible apply foldl_fst_rests
    | with_reducible intro _
    | split
    | dsimp only

theorem State.tryStore_rests {s0 : State} (s : State) (r : Req) (hold : Stage) (hs : s0.rests s) : s0.rests (State.tryStore s r hold) := by
  unfold State.tryStore
  repeat' first
    | with_reducible assumption
    | with_reducible refine State.rests.of_only (t := State.stageReq _ _ _) ?_ (State.stageReq_only _ _ _ (only_refl _ [.req]) (List.Subset.refl _)) (by decide)
    | with_reducible apply State.finish_rests
    | with_reducible refine State.rests.of_only (t := (State.snoopLines _ _ _).1) ?_ (State.snoopLines_only _ _ _ (only_refl _ [.pkg, .ports, .coh, .adk, .evq]) (List.Subset.refl _)) (by decide)
    | with_reducible apply State.spots_rests
    | with_reducible apply State.doStore_rests
    | with_reducible apply ite_rests
    | with_reducible intro _

theorem State.grantLine_rests {s0 : State} (s : State) (r : Req) (sub : Nat) (e : DirEntry) (val : List Byte × Bool) (hs : s0.rests s) : s0.rests (State.grantLine s r sub e val) := by
  unfold State.grantLine
  repeat' first
    | with_reducible assumption
    | with_reducible refine State.rests.of_only (t := State.setDir _ _ _) ?_ (State.setDir_only _ _ _ (only_refl _ [.coh]) (List.Subset.refl _)) (by decide)
    | with_reducible apply State.finishWith_rests
    | with_reducible refine State.rests.of_only (t := State.countWarm _ _) ?_ (State.countWarm_only _ _ (only_refl _ [.tier]) (List.Subset.refl _)) (by decide)
    | with_reducible apply ite_rests
    | with_reducible intro _

theorem State.serveCoh_rests {s0 : State} (s : State) (r : Req) (hs : s0.rests s) : s0.rests (State.serveCoh s r) := by
  unfold State.serveCoh
  repeat' first
    | with_reducible assumption
    | with_reducible refine State.rests.of_only (t := State.setDir _ _ _) ?_ (State.setDir_only _ _ _ (only_refl _ [.coh]) (List.Subset.refl _)) (by decide)
    | with_reducible refine State.rests.of_only (t := State.dropHolder _ _ _) ?_ (State.dropHolder_only _ _ _ (only_refl _ [.coh]) (List.Subset.refl _)) (by decide)
    | with_reducible refine State.rests.of_only (t := State.snoop _ _ _ _ _) ?_ (State.snoop_only _ _ _ _ _ (only_refl _ [.pkg, .ports, .coh, .adk, .evq]) (List.Subset.refl _)) (by decide)
    | with_reducible apply State.homeWrite_rests
    | with_reducible refine State.rests.of_only (t := State.stageReq _ _ _) ?_ (State.stageReq_only _ _ _ (only_refl _ [.req]) (List.Subset.refl _)) (by decide)
    | with_reducible apply State.finishWith_rests
    | with_reducible refine State.rests.of_only (t := State.countWarm _ _) ?_ (State.countWarm_only _ _ (only_refl _ [.tier]) (List.Subset.refl _)) (by decide)
    | with_reducible apply State.seekAll_rests
    | with_reducible apply State.grantLine_rests
    | with_reducible refine State.rests.of_only (t := (State.takeRoom _ _ _).1) ?_ (State.takeRoom_only _ _ _ (only_refl _ [.pkg, .ports, .coh, .adk, .evq]) (List.Subset.refl _)) (by decide)
    | with_reducible apply foldl_rests
    | with_reducible apply ite_rests
    | with_reducible intro _

theorem State.serve_rests {s0 : State} (s : State) (n : Nat) (hs : s0.rests s) : s0.rests (State.serve s n) := by
  unfold State.serve
  repeat' first
    | with_reducible assumption
    | with_reducible refine State.rests.of_only (t := State.stageReq _ _ _) ?_ (State.stageReq_only _ _ _ (only_refl _ [.req]) (List.Subset.refl _)) (by decide)
    | with_reducible refine State.rests.of_only (t := (State.snoopLines _ _ _).1) ?_ (State.snoopLines_only _ _ _ (only_refl _ [.pkg, .ports, .coh, .adk, .evq]) (List.Subset.refl _)) (by decide)
    | with_reducible apply State.serveLoad_rests
    | with_reducible apply State.spots_rests
    | with_reducible apply State.tryStore_rests
    | with_reducible apply State.serveCoh_rests
    | with_reducible intro _
    | split

theorem State.wake_rests {s0 : State} (s : State) (p : Req → Bool) (hs : s0.rests s) : s0.rests (State.wake s p) := by
  unfold State.wake
  repeat' first
    | with_reducible assumption
    | with_reducible apply State.serve_rests
    | with_reducible apply foldl_rests
    | with_reducible intro _

theorem State.wakeStaged_rests {s0 : State} (s : State) (hs : s0.rests s) : s0.rests (State.wakeStaged s) := by
  unfold State.wakeStaged
  repeat' first
    | with_reducible assumption
    | with_reducible apply State.wake_rests

theorem State.tlbPut_rests {s0 : State} (s : State) (key : Nat) (e : TlbEntry) (hs : s0.rests s) : s0.rests (State.tlbPut s key e) := by
  unfold State.tlbPut
  repeat' first
    | with_reducible assumption
    | ((with_reducible apply rests_mk) <;> first
        | with_reducible exact rfl
        | exact rfl
        | skip)

theorem State.walkFault_rests {s0 : State} (s : State) (tenant : BitVec 10) (tva : Nat) (hs : s0.rests s) : s0.rests (State.walkFault s tenant tva) := by
  unfold State.walkFault
  repeat' first
    | with_reducible assumption
    | with_reducible apply State.logE_rests
    | with_reducible apply State.countTrn_rests
    | with_reducible apply ite_rests
    | with_reducible intro _
    | ((with_reducible apply rests_mk) <;> first
        | with_reducible exact rfl
        | exact rfl
        | skip)

theorem State.sendOn_rests {s0 : State} (s : State) (r : Req) (p : Nat) (phys : Bool) (hs : s0.rests s) : s0.rests (State.sendOn s r p phys) := by
  unfold State.sendOn
  repeat' first
    | with_reducible assumption
    | with_reducible refine State.rests.of_only (t := State.onLink _ _ _) ?_ (State.onLink_only _ _ _ (only_refl _ [.ports]) (List.Subset.refl _)) (by decide)
    | with_reducible refine State.rests.of_only (t := State.sendFrom _ _ _ _ _) ?_ (State.sendFrom_only _ _ _ _ _ (only_refl _ [.pkg, .ports, .adk, .evq]) (List.Subset.refl _)) (by decide)
    | with_reducible refine State.rests.of_only (t := State.putReq _ _) ?_ (State.putReq_only _ _ (only_refl _ [.req]) (List.Subset.refl _)) (by decide)
    | with_reducible apply State.finish_rests
    | with_reducible apply ite_rests
    | with_reducible intro _
    | split

theorem State.turnBack_rests {s0 : State} (s : State) (r : Req) (st : BitVec 6) (hs : s0.rests s) : s0.rests (State.turnBack s r st) := by
  unfold State.turnBack
  repeat' first
    | with_reducible assumption
    | with_reducible refine State.rests.of_only (t := State.countCmpo _ _) ?_ (State.countCmpo_only _ _ (only_refl _ [.comp, .adk, .evq]) (List.Subset.refl _)) (by decide)
    | with_reducible apply State.finish_rests
    | with_reducible apply ite_rests
    | with_reducible intro _

theorem State.route_rests {s0 : State} (s : State) (n : Nat) (hs : s0.rests s) : s0.rests (State.route s n) := by
  unfold State.route
  repeat' first
    | with_reducible assumption
    | with_reducible refine State.rests.of_only (t := State.countExt _ _ _) ?_ (State.countExt_only _ _ _ (only_refl _ [.ext, .adk, .evq]) (List.Subset.refl _)) (by decide)
    | with_reducible refine State.rests.of_only (t := State.countCmpo _ _) ?_ (State.countCmpo_only _ _ (only_refl _ [.comp, .adk, .evq]) (List.Subset.refl _)) (by decide)
    | with_reducible refine State.rests.of_only (t := State.putReq _ _) ?_ (State.putReq_only _ _ (only_refl _ [.req]) (List.Subset.refl _)) (by decide)
    | with_reducible apply State.finish_rests
    | with_reducible apply State.serve_rests
    | with_reducible apply State.sendOn_rests
    | with_reducible apply State.turnBack_rests
    | with_reducible intro _
    | split
    | ((with_reducible apply rests_mk) <;> first
        | with_reducible exact rfl
        | exact rfl
        | skip)

theorem State.proceed_rests {s0 : State} (s : State) (n : Nat) (x : WalkEnd) (hs : s0.rests s) : s0.rests (State.proceed s n x) := by
  unfold State.proceed
  repeat' first
    | with_reducible assumption
    | with_reducible refine State.rests.of_only (t := State.putReq _ _) ?_ (State.putReq_only _ _ (only_refl _ [.req]) (List.Subset.refl _)) (by decide)
    | with_reducible apply State.finish_rests
    | with_reducible apply State.turnBack_rests
    | with_reducible apply State.route_rests
    | with_reducible apply ite_rests
    | with_reducible intro _
    | split

theorem State.readEntry_rests {s0 : State} (s : State) (w : Walk) (hs : s0.rests s) : s0.rests (State.readEntry s w) := by
  unfold State.readEntry
  repeat' first
    | with_reducible assumption
    | with_reducible refine State.rests.of_only (t := State.addReq _ _) ?_ (State.addReq_only _ _ (only_refl _ [.req]) (List.Subset.refl _)) (by decide)
    | with_reducible apply State.serve_rests
    | with_reducible apply State.route_rests
    | with_reducible apply ite_rests
    | with_reducible intro _
    | ((with_reducible apply rests_mk) <;> first
        | with_reducible exact rfl
        | exact rfl
        | skip)

theorem State.beginWalks_rests {s0 : State} (s : State) (unit : Nat) (hs : s0.rests s) : s0.rests (State.beginWalks s unit) := by
  unfold State.beginWalks
  repeat' first
    | with_reducible assumption
    | with_reducible apply State.readEntry_rests
    | with_reducible apply foldl_rests
    | with_reducible intro _
    | split
    | ((with_reducible apply rests_mk) <;> first
        | with_reducible exact rfl
        | exact rfl
        | skip)

theorem State.endWalk_rests {s0 : State} (s : State) (w : Walk) (x : WalkEnd) (hs : s0.rests s) : s0.rests (State.endWalk s w x) := by
  unfold State.endWalk
  repeat' first
    | with_reducible assumption
    | with_reducible apply State.wakeStaged_rests
    | with_reducible apply State.tlbPut_rests
    | with_reducible apply State.walkFault_rests
    | with_reducible apply State.proceed_rests
    | with_reducible apply State.beginWalks_rests
    | with_reducible apply foldl_rests
    | with_reducible intro _
    | split
    | ((with_reducible apply rests_mk) <;> first
        | with_reducible exact rfl
        | exact rfl
        | skip)

theorem State.restartWalk_rests {s0 : State} (s : State) (w : Walk) (hs : s0.rests s) : s0.rests (State.restartWalk s w) := by
  unfold State.restartWalk
  repeat' first
    | with_reducible assumption
    | with_reducible apply State.readEntry_rests
    | with_reducible apply State.endWalk_rests
    | with_reducible apply ite_rests
    | with_reducible intro _
    | ((with_reducible apply rests_mk) <;> first
        | with_reducible exact rfl
        | exact rfl
        | skip)

theorem State.purge_rests {s0 : State} (s : State) (t : Option (BitVec 10)) (lo : Nat) (hi : Nat) (hs : s0.rests s) : s0.rests (State.purge s t lo hi) := by
  unfold State.purge
  repeat' first
    | with_reducible assumption
    | with_reducible apply State.restartWalk_rests
    | with_reducible apply foldl_rests
    | ((with_reducible apply rests_mk) <;> first
        | with_reducible exact rfl
        | exact rfl
        | skip)

end Sys2Proof.Machine
end

section
/-! SUPPORT. Tenant contexts: their commands, their teardown and their release (chapter 14, R333 to R338). -/

namespace Sys2Proof.Machine

theorem State.tenant_of_sec {s t : State} (h : t.sec.tenants = s.sec.tenants) (i : Nat) : t.tenant i = s.tenant i := by
  unfold State.tenant
  rw [h]

/-- From `s` to `t` tenant `i` has become `x`, and every other tenant is as it was. -/
def State.tenantIs (s t : State) (i : Nat) (x : Tenant) : Prop := t.tenant i = x ∧ ∀ j, j ≠ i → t.tenant j = s.tenant j

theorem State.onTenant_tenantIs (s : State) (i : Nat) (f : Tenant → Tenant) : s.tenantIs (s.onTenant i f) i (f (s.tenant i)) :=
  ⟨s.tenant_onTenant_same i f, fun _ hj => s.tenant_onTenant_other f hj⟩

theorem State.tenantIs.of_sec {s t u : State} {i : Nat} {x : Tenant} (h : s.tenantIs t i x) (hu : u.sec.tenants = t.sec.tenants) :
    s.tenantIs u i x :=
  ⟨(State.tenant_of_sec hu i).trans h.1, fun j hj => (State.tenant_of_sec hu j).trans (h.2 j hj)⟩

/-- A change of the same tenant follows. -/
theorem State.tenantIs.onTenant {s t : State} {i : Nat} {x : Tenant} (h : s.tenantIs t i x) (f : Tenant → Tenant) :
    s.tenantIs (t.onTenant i f) i (f x) :=
  ⟨(t.tenant_onTenant_same i f).trans (congrArg f h.1), fun j hj => (t.tenant_onTenant_other f hj).trans (h.2 j hj)⟩

theorem State.onTenant_changesOnly (s : State) (i : Nat) (f : Tenant → Tenant) : s.changesOnly (s.onTenant i f) [.sec] :=
  State.onTenant_only s i f (only_refl s [.sec]) (by decide)

theorem State.tenantTo_sec (s : State) (i : Nat) (n : TenantState) (f : Tenant → Tenant) :
    (s.tenantTo i n f).sec = (s.onTenant i (fun x => f { x with state := n })).sec :=
  State.event_changesOnly _ _ _ _ _ _ .sec (by decide)

theorem State.tenantTo_tenantIs (s : State) (i : Nat) (n : TenantState) (f : Tenant → Tenant) :
    s.tenantIs (s.tenantTo i n f) i (f { s.tenant i with state := n }) :=
  (s.onTenant_tenantIs i _).of_sec (congrArg Security.tenants (s.tenantTo_sec i n f))

theorem State.tenantTo_queue {s : State} (i : Nat) (n : TenantState) (f : Tenant → Tenant) (hmask : s.evq.mask.getLsbD 0x56 = false)
    (hlost : s.evq.lost = 0) (hroom : s.evq.queue.length < 4096) :
    (s.tenantTo i n f).evq.queue = s.evq.queue ++ [s.mkEvent 0x56 n.code (srcTC i) (s.tenantDirty i) 0xFFFFFFFF] :=
  congrArg (fun t : State => t.evq.queue) (State.event_of_room (s := s.onTenant i (fun x => f { x with state := n })) (code := 0x56) _ _ _ _ hmask hlost hroom)

/-! ### Commands -/

/-- The result of a command stands in its register, and no tenant changes. -/
theorem State.tcResult_changesOnly (s : State) (st : BitVec 6) : s.changesOnly (s.tcResult st).1 [.sec] := State.withSec_only s _

theorem State.tcCmd_activates {s : State} (h : (s.tenant s.sec.tcSel.toNat).state = .free) :
    s.tcCmd 1 = (s.tenantTo s.sec.tcSel.toNat .active (fun x => { x with tdStep := 0 })).tcResult stOk := if_pos h

theorem State.tcCmd_activate_refused {s : State} (h : (s.tenant s.sec.tcSel.toNat).state ≠ .free) : s.tcCmd 1 = s.tcResult stDenied := if_neg h

theorem State.tcCmd_retires {s : State} (h : (s.tenant s.sec.tcSel.toNat).state = .active) :
    s.tcCmd 2 = (s.retireTenant s.sec.tcSel.toNat).tcResult stOk := by
  unfold State.tcCmd
  dsimp only
  rw [h]
  rfl

theorem State.tcCmd_retire_refused {s : State} (h : (s.tenant s.sec.tcSel.toNat).state = .free) : s.tcCmd 2 = s.tcResult stDenied := by
  unfold State.tcCmd
  dsimp only
  rw [h]
  rfl

theorem State.tcCmd_retired_before {s : State}
    (h : (s.tenant s.sec.tcSel.toNat).state = .stopping ∨ (s.tenant s.sec.tcSel.toNat).state = .retired) :
    s.tcCmd 2 = s.tcResult stOk := by
  unfold State.tcCmd
  dsimp only
  rcases h with h | h <;> rw [h] <;> rfl

theorem State.tcCmd_keys {s : State} (h : (s.tenant s.sec.tcSel.toNat).state = .free ∨ (s.tenant s.sec.tcSel.toNat).state = .active)
    (hruns : s.tenantRuns s.sec.tcSel.toNat = false) :
    s.tcCmd 3 = (s.onTenant s.sec.tcSel.toNat (fun x => { x with pkey := some s.keyBytes })).tcResult stOk := if_pos ⟨h, hruns⟩

theorem State.tcCmd_key_refused {s : State}
    (h : (s.tenant s.sec.tcSel.toNat).state = .stopping ∨ (s.tenant s.sec.tcSel.toNat).state = .retired
      ∨ s.tenantRuns s.sec.tcSel.toNat = true) : s.tcCmd 3 = s.tcResult stDenied := by
  refine if_neg fun ⟨hstate, hruns⟩ => ?_
  rcases h with h | h | h
  · rcases hstate with g | g <;> exact TenantState.noConfusion (g.symm.trans h)
  · rcases hstate with g | g <;> exact TenantState.noConfusion (g.symm.trans h)
  · exact Bool.noConfusion (hruns.symm.trans h)

/-- A command that answers with a result alone. -/
theorem tcWr_answers {s : State} {tag : BitVec 16} {v : BitVec 64} {st : BitVec 6} (hw : s.writes tag (secAddr 0x20) v .operator)
    (hcmd : (s.adkTaken (wrFrame tag (secAddr 0x20) v)).tcCmd v = (s.adkTaken (wrFrame tag (secAddr 0x20) v)).tcResult st) :
    ∃ t, Host.Outcome.next (φ := Fault) (ρ := Refusal) (s.tcWr tag v) = .next t ∧ t.responded tag st ∧ t.sec.tenants = s.sec.tenants
      ∧ t.sec.tcResult = st ∧ t.sec.tcSel = s.sec.tcSel ∧ s.changesOnly t [.sec, .adk] := by
  obtain ⟨t, hexec, hresp, hreply, honly⟩ := State.adkWr_effect (ps := [.sec, .adk]) (f := fun s => s.tcCmd v) hw hcmd
    ((State.tcResult_changesOnly _ _).mono (by decide)) (by decide)
  have hsec : t.sec = { s.sec with tcResult := st } := hreply .sec (by decide)
  exact ⟨t, hexec, hresp, by rw [hsec], by rw [hsec], by rw [hsec], honly⟩

/-- A command that changes the tenant selected, by an effect that keeps the selection. -/
theorem tcWr_changes {s u : State} {tag : BitVec 16} {v : BitVec 64} {x : Tenant} {ps : List Part}
    (hw : s.writes tag (secAddr 0x20) v .operator) (hcmd : (s.adkTaken (wrFrame tag (secAddr 0x20) v)).tcCmd v = u.tcResult stOk)
    (htenant : s.tenantIs u s.sec.tcSel.toNat x) (hsel : u.sec.tcSel = s.sec.tcSel)
    (hu : (s.adkTaken (wrFrame tag (secAddr 0x20) v)).changesOnly u ps) (hps : [Part.sec] ⊆ ps) (hadk : [Part.adk] ⊆ ps) :
    ∃ t, Host.Outcome.next (φ := Fault) (ρ := Refusal) (s.tcWr tag v) = .next t ∧ t.responded tag stOk ∧ s.tenantIs t s.sec.tcSel.toNat x
      ∧ t.sec.tcResult = stOk ∧ t.sec.tcSel = s.sec.tcSel ∧ u.changesOnly t [.sec, .adk] ∧ s.changesOnly t ps := by
  obtain ⟨t, hexec, hresp, hreply, honly⟩ := State.adkWr_effect (f := fun s => s.tcCmd v) hw hcmd
    (hu.trans ((State.tcResult_changesOnly u stOk).mono hps)) hadk
  have hsec : t.sec = { u.sec with tcResult := stOk } := hreply .sec (by decide)
  exact ⟨t, hexec, hresp, htenant.of_sec (by rw [hsec]), by rw [hsec],
    by rw [hsec, ← hsel], ((State.tcResult_changesOnly u stOk).mono (by decide)).trans (hreply.mono (by decide)), honly⟩

/-! ### The teardown begins -/

/-- A trigger of a retired tenant meets an extent: an ACTIVE one becomes REVOKING, any other stays. -/
theorem State.revoke_extent_state (s : State) (e i : Nat) :
    ((s.revoke e 4).extent i).state = if i = e ∧ (s.extent e).state = .active then .revoking else (s.extent i).state := by
  cases hstate : (s.extent e).state with
  | active =>
    have hput : ∀ f : Extent → Extent, (∀ x, (f x).state = x.state) →
        ((s.draw.1.extTo e .revoking f).extent i).state = if i = e then .revoking else (s.extent i).state := by
      intro f hf
      unfold State.extTo
      dsimp only
      by_cases hi : i = e
      · rw [hi, State.extent_onExtent_same, hf, if_pos rfl]
      · rw [State.extent_onExtent_other _ _ hi, if_neg hi]
        rfl
    have hsnoops : ∀ (l : List (Nat × DirEntry)) (u : State), (l.foldl (fun s y => s.backInvalidate y.1 (.revoke e)) u).ext = u.ext :=
      fun l u => foldl_only _ l u (ps := [.pkg, .ports, .coh, .adk, .evq])
        (fun t y ht => State.backInvalidate_only t y.1 _ ht (by decide)) (only_refl u _) .ext (by decide)
    unfold State.revoke
    dsimp only
    rw [hstate]
    dsimp only
    split
    · rw [State.extent, hsnoops]
      change (State.extent _ i).state = _
      rw [hput]
      · simp
      · exact fun x => rfl
    · rw [hput]
      · simp
      · exact fun x => rfl
  | _ =>
    have hkept : s.revoke e 4 = s := by
      unfold State.revoke
      dsimp only
      rw [hstate] <;> rfl
    rw [hkept, if_neg (fun h => ExtState.noConfusion h.2)]

theorem State.foldl_revoke_keeps (l : List Nat) (s : State) {i : Nat} (h : (s.extent i).state = .revoking) :
    ((l.foldl (fun s e => s.revoke e 4) s).extent i).state = .revoking := by
  induction l generalizing s with
  | nil => exact h
  | cons e l ih => exact ih _ (by rw [State.revoke_extent_state, h]; split <;> rfl)

theorem State.foldl_revoke_revokes (l : List Nat) (s : State) {i : Nat} (hi : i ∈ l) (h : (s.extent i).state = .active) :
    ((l.foldl (fun s e => s.revoke e 4) s).extent i).state = .revoking := by
  induction l generalizing s with
  | nil => exact absurd hi List.not_mem_nil
  | cons e l ih =>
    by_cases he : i = e
    · exact State.foldl_revoke_keeps l _ (by rw [State.revoke_extent_state, if_pos ⟨he, he ▸ h⟩])
    · refine ih _ (List.mem_of_ne_of_mem he hi) ?_
      rw [State.revoke_extent_state, if_neg (fun hc => he hc.1), h]

/-- The extents of a tenant that stops are revoked. -/
theorem State.revokeAll_revokes (s : State) (tc : Nat) {e : Nat} (hactive : (s.extent e).state = .active) (htenant : (s.extent e).tenant.toNat = tc) :
    ((s.revokeAll 4 (fun x => x.state == .active && x.tenant.toNat == tc)).extent e).state = .revoking := by
  have hlisted : (e, s.extent e) ∈ s.ext.tab := Table.mem_of_read_ne (d := ({} : Extent)) fun h => by
    have hx : s.extent e = {} := h
    rw [hx] at hactive
    exact ExtState.noConfusion hactive
  refine State.foldl_revoke_revokes _ s (List.mem_map.2 ⟨_, List.mem_filter.2 ⟨hlisted, ?_⟩, rfl⟩) hactive
  dsimp only
  rw [hactive, htenant]
  simp

/-- No coherent domain is UP. -/
def State.noneUp (s : State) : Prop := ∀ e ∈ s.coh.doms, e.2.state ≠ .up

theorem State.noneUp.of_coh {s t : State} (h : s.noneUp) (ht : t.coh.doms = s.coh.doms) : t.noneUp := by
  unfold State.noneUp
  rwa [ht]

theorem Table.mem_write {α : Type} [DecidableEq α] {d : α} {t : Table α} {k : Nat} {v : α} {e : Nat × α} (h : e ∈ Table.write d t k v) :
    e = (k, v) ∨ e ∈ t := by
  unfold Table.write at h
  split at h
  · exact Or.inr (List.mem_of_mem_filter h)
  · exact Table.mem_put h

theorem State.noneUp.countCoh {s : State} (h : s.noneUp) (d i : Nat) : (s.countCoh d i).noneUp := by
  have hstate : (s.dom d).state ≠ .up := Table.read_of_all (p := fun x : Domain => x.state ≠ .up) (by decide) h d
  have hput : ∀ x : Domain, x.state = (s.dom d).state → (s.onDom d (fun _ => x)).noneUp := fun x hx e he => by
    rcases Table.mem_write he with rfl | he
    · exact hx ▸ hstate
    · exact h e he
  unfold State.countCoh
  dsimp only
  refine State.noneUp.of_coh (hput _ ?_) (congrArg Coherence.doms (State.satEvent_only _ _ _ _ _ (only_refl _ [.adk, .evq]) (by decide) .coh (by decide)))
  split <;> rfl

theorem State.noneUp.fireSnoop {s : State} (h : s.noneUp) (x : Snoop) : (s.fireSnoop x).noneUp := by
  have hsent : ∀ (t : State) site p q, t.noneUp → (t.sendFrom site p none q).noneUp := fun t site p q ht =>
    ht.of_coh (congrArg Coherence.doms (State.sendFrom_only t site p none q (only_refl t [.pkg, .ports, .adk, .evq]) (by decide) .coh (by decide)))
  unfold State.fireSnoop
  dsimp only
  split
  · exact hsent _ _ _ _ (h.countCoh x.dom 0)
  · exact hsent _ _ _ _ (h.countCoh x.dom 0)
  · exact h.countCoh x.dom 0

theorem State.noneUp.snoop {s : State} (h : s.noneUp) (line a e : Nat) : (s.snoop line a 0x52 (.revoke e)).noneUp := by
  have hnoted : ∀ x t, ({ s with coh := { s.coh with snoops := x, nextTag := t } } : State).noneUp := fun _ _ => h
  unfold State.snoop
  dsimp only
  split
  · exact State.noneUp.countCoh (hnoted _ _) _ _
  · exact State.noneUp.fireSnoop (hnoted _ _) _

theorem State.noneUp.backInvalidate {s : State} (h : s.noneUp) (line e : Nat) : (s.backInvalidate line (.revoke e)).noneUp := by
  have hsnoop : ∀ (l : List Nat) (t : State), t.noneUp → (l.foldl (fun s a => s.snoop line a 0x52 (.revoke e)) t).noneUp := by
    intro l
    induction l with
    | nil => exact fun t ht => ht
    | cons a l ih =>
      exact fun t ht => ih _ (ht.snoop line a e)
  unfold State.backInvalidate
  dsimp only
  split
  · exact h.of_coh rfl
  · exact hsnoop _ _ h

theorem State.noneUp.revoke {s : State} (h : s.noneUp) (e : Nat) : (s.revoke e 4).noneUp := by
  have hcopies : ∀ (l : List (Nat × DirEntry)) (t : State), t.noneUp → (l.foldl (fun s y => s.backInvalidate y.1 (.revoke e)) t).noneUp := by
    intro l
    induction l with
    | nil => exact fun t ht => ht
    | cons y l ih => exact fun t ht => ih _ (ht.backInvalidate y.1 e)
  unfold State.revoke
  dsimp only
  split
  · split
    · exact hcopies _ _ (h.of_coh rfl)
    · exact h.of_coh rfl
  all_goals exact h

theorem State.noneUp.revokeAll {s : State} (h : s.noneUp) (p : Extent → Bool) : (s.revokeAll 4 p).noneUp := by
  unfold State.revokeAll
  generalize (s.ext.tab.filter (fun e => p e.2)).map (·.1) = l
  induction l generalizing s with
  | nil => exact h
  | cons e l ih => exact ih (h.revoke e)

/-- What a tenant that stops has running, with no decode, no collective and no request under way. -/
def State.stops (s : State) (tc : Nat) : State :=
  ((s.stopThreads (fun k _ => (s.tenantCores tc).contains k)).revokeAll 4 (fun x => x.state == .active && x.tenant.toNat == tc)).releaseHandles
    (fun _ x => x.tenant.toNat == tc)

theorem State.stops_changesOnly (s : State) (tc : Nat) :
    s.changesOnly (s.stops tc) [.free, .pkg, .ports, .coh, .ext, .comp, .cpu, .atn, .adk, .evq] :=
  State.releaseHandles_only _ _ (State.revokeAll_only _ _ _ (State.stopThreads_only s _ (only_refl s _) (by decide)) (by decide)) (by decide)

theorem State.teardownStop_quiet {s : State} (hdoms : s.coh.doms = []) (hids : s.clv.ids = []) (hdecodes : s.atn.decodes = []) (tc : Nat) :
    s.teardownStop tc = s.stops tc := by
  have hstopped := State.stopThreads_only s (fun k _ => (s.tenantCores tc).contains k) (only_refl s [.cpu]) (by decide)
  have hrevoked := State.revokeAll_only (s.stopThreads (fun k _ => (s.tenantCores tc).contains k)) 4
    (fun x => x.state == .active && x.tenant.toNat == tc) (only_refl _ [.free, .pkg, .ports, .coh, .ext, .comp, .adk, .evq]) (by decide)
  have hup : (s.stops tc).noneUp := by
    have hnone : (s.stopThreads (fun k _ => (s.tenantCores tc).contains k)).noneUp := fun e he =>
      absurd (hdoms ▸ he : e ∈ ([] : Table Domain)) List.not_mem_nil
    exact (hnone.revokeAll _).of_coh rfl
  have hcolls : ∀ (t : State) c p, t.clv.ids = [] → t.collTriggers c p = t := fun t c p ht => by
    unfold State.collTriggers
    rw [ht]
    rfl
  have hends : ∀ (t : State) st p, t.atn.decodes = [] → t.endDecodes st p = t := fun t st p ht => by
    unfold State.endDecodes
    rw [ht]
    rfl
  unfold State.teardownStop State.attnStopping
  dsimp only
  rw [hcolls, hends]
  · have hlist : (s.stops tc).coh.doms.filter (fun e => e.2.tenant.toNat == tc && e.2.state == .up) = [] :=
      List.filter_eq_nil_iff.2 fun e he => by simp [hup e he]
    exact congrArg (List.foldl (fun (s : State) e => s.domTrigger e.1 4 none) (s.stops tc)) hlist
  · exact (congrArg Attention.decodes (hrevoked .atn (by decide))).trans hdecodes
  · exact (congrArg Collectives.ids (hrevoked .clv (by decide))).trans hids

theorem Table.any_of_read_ne {α : Type} {d : α} {t : Table α} {k : Nat} (h : t.read d k ≠ d) : t.any (fun e => e.1 == k) = true :=
  List.any_eq_true.2 ⟨_, Table.mem_of_read_ne h, beq_self_eq_true k⟩

/-- A READY thread with nothing issued stops at once. -/
theorem State.stopThreads_idle {s : State} {p : Nat → Nat → Bool} {k i : Nat} (hp : p k i = true) (hready : (s.thread k i).state = .ready)
    (hm : (s.thread k i).mcnt = 0) (he : (s.thread k i).ecnt = 0) : ((s.stopThreads p).thread k i).state = .idle := by
  have hthread : (s.core k).threads.any (fun e => e.1 == i) = true := Table.any_of_read_ne (d := ({} : Thread)) fun h => by
    have hx : s.thread k i = {} := h
    rw [hx] at hready
    exact ThreadState.noConfusion hready
  have hcore : s.cpu.cores.any (fun e => e.1 == k) = true := Table.any_of_read_ne (d := ({} : Core)) fun h => by
    have hx : s.core k = {} := h
    rw [hx] at hthread
    exact Bool.noConfusion hthread
  have hstop : (s.stopThreads p).thread k i = (s.thread k i).stopped := by
    unfold State.thread State.core State.stopThreads
    dsimp only
    rw [Table.read_mapAll, if_pos hcore]
    dsimp only
    rw [Table.read_mapAll]
    refine (if_pos hthread).trans ((if_neg ?_).trans (if_pos ⟨hm, he⟩))
    have hstate : (Table.read {} (Table.read {} s.cpu.cores k).threads i).state = .ready := hready
    rw [hstate, hp]
    simp
  rw [hstop]
  rfl

/-- The dirty sectors of a tenant that stops are clean. -/
def State.cleaned (s : State) (tc : Nat) : State :=
  { s with tier := { s.tier with sectors := Table.mapAll {} (fun b (x : Sector) =>
      if s.tenantPage tc (pageOfBlock b) then { x with dirty := 0 } else x) s.tier.sectors } }

/-- The teardown of a tenant begins while nothing is under way. -/
theorem State.retireTenant_quiet {s : State} (hquiet : s.quiet) (hmoves : s.tier.moves = []) (htrays : s.tier.trays = []) (tc : Nat) :
    s.retireTenant tc = (((s.tenantTo tc .stopping (fun x => { x with tdStep := 1 })).stops tc).cleaned tc).onTenant tc
      (fun x => { x with tdStep := 5 }) := by
  obtain ⟨hreqs, hdoms, hids, -, hdecodes⟩ := hquiet
  have hnamed := State.tenantTo_only s tc .stopping (fun x => { x with tdStep := 1 }) (only_refl s [.sec, .adk, .evq]) (by decide)
  generalize hu : s.tenantTo tc .stopping (fun x => { x with tdStep := 1 }) = u at hnamed
  have hstops := u.stops_changesOnly tc
  have hstop : u.teardownStop tc = u.stops tc := State.teardownStop_quiet ((congrArg Coherence.doms (hnamed .coh (by decide))).trans hdoms)
    ((congrArg Collectives.ids (hnamed .clv (by decide))).trans hids) ((congrArg Attention.decodes (hnamed .atn (by decide))).trans hdecodes) tc
  have htier : (u.stops tc).tier = s.tier := (hstops .tier (by decide)).trans (hnamed .tier (by decide))
  have hreq : (u.stops tc).req = s.req := (hstops .req (by decide)).trans (hnamed .req (by decide))
  have hbitmaps : (u.stops tc).teardownBitmaps = u.stops tc := by
    unfold State.teardownBitmaps
    rw [htier, htrays]
    rfl
  have hclean : (u.stops tc).teardownClean tc = (u.stops tc).cleaned tc := by
    have hnone : (u.stops tc).tier.moves = [] := (congrArg Tiers.moves htier).trans hmoves
    unfold State.teardownClean
    rw [hnone]
    rfl
  unfold State.retireTenant
  rw [hu]
  dsimp only
  rw [hstop, hbitmaps, hclean]
  refine State.wake_of_no_reqs ?_ _
  exact (congrArg Traffic4.reqs hreq).trans hreqs

/-- A tenant that stops: its context, its extents and its threads. -/
theorem State.retireTenant_spec {s : State} (hquiet : s.quiet) (hmoves : s.tier.moves = []) (htrays : s.tier.trays = []) (tc : Nat) :
    s.tenantIs (s.retireTenant tc) tc { s.tenant tc with state := .stopping, tdStep := 5 }
      ∧ (∀ e, (s.extent e).state = .active → (s.extent e).tenant.toNat = tc → ((s.retireTenant tc).extent e).state = .revoking)
      ∧ (∀ k i, k ∈ s.tenantCores tc → (s.thread k i).state = .ready → (s.thread k i).mcnt = 0 → (s.thread k i).ecnt = 0 →
          ((s.retireTenant tc).thread k i).state = .idle)
      ∧ (s.retireTenant tc).sec.tcSel = s.sec.tcSel := by
  rw [State.retireTenant_quiet hquiet hmoves htrays]
  have htenant := s.tenantTo_tenantIs tc .stopping (fun x => { x with tdStep := 1 })
  have hnamed := State.tenantTo_only s tc .stopping (fun x => { x with tdStep := 1 }) (only_refl s [.sec, .adk, .evq]) (by decide)
  have hsel : (s.tenantTo tc .stopping (fun x => { x with tdStep := 1 })).sec.tcSel = s.sec.tcSel :=
    by rw [State.tenantTo_sec]; rfl
  generalize hu : s.tenantTo tc .stopping (fun x => { x with tdStep := 1 }) = u at htenant hnamed hsel
  have hsec : (u.stops tc).sec = u.sec := u.stops_changesOnly tc .sec (by decide)
  have hrest := State.revokeAll_only (u.stopThreads (fun k _ => (u.tenantCores tc).contains k)) 4
    (fun x => x.state == .active && x.tenant.toNat == tc) (only_refl _ [.free, .pkg, .ports, .coh, .ext, .comp, .adk, .evq]) (by decide)
  refine ⟨?_, fun e hactive he => ?_, fun k i hk hready hm he => ?_, ?_⟩
  · exact (htenant.of_sec (u := (u.stops tc).cleaned tc) (congrArg Security.tenants hsec)).onTenant (fun x => { x with tdStep := 5 })
  · have hext : u.ext = s.ext := hnamed .ext (by decide)
    have hsame : u.extent e = s.extent e := by
      unfold State.extent
      rw [hext]
    exact State.revokeAll_revokes (u.stopThreads _) tc (hsame ▸ hactive) (hsame ▸ he)
  · have hcpu : u.cpu = s.cpu := hnamed .cpu (by decide)
    have hcores : u.tenantCores tc = s.tenantCores tc := by
      unfold State.tenantCores
      rw [hnamed .comp (by decide)]
    have hsame : u.thread k i = s.thread k i := by
      unfold State.thread State.core
      rw [hcpu]
    have hidle := State.stopThreads_idle (s := u) (p := fun k _ => (u.tenantCores tc).contains k) (k := k) (i := i)
      (by rw [hcores]; exact List.contains_iff_mem.2 hk) (hsame ▸ hready) (hsame ▸ hm) (hsame ▸ he)
    unfold State.thread State.core at hidle ⊢
    rw [← hrest .cpu (by decide)] at hidle
    exact hidle
  · exact (congrArg Security.tcSel hsec).trans hsel

/-! ### The scrub -/

theorem Table.read_filter_key {α : Type} (d : α) (p : Nat → Bool) (t : Table α) (k : Nat) :
    Table.read d (t.filter (fun e => p e.1)) k = if p k then t.read d k else d := by
  induction t with
  | nil => simp [Table.read]
  | cons e t ih =>
    obtain ⟨j, v⟩ := e
    cases hj : p j with
    | true =>
      rw [List.filter_cons_of_pos (p := fun e : Nat × α => p e.1) hj]
      unfold Table.read
      by_cases hk : k = j
      · rw [if_pos hk, if_pos hk, hk, hj, if_pos rfl]
      · rw [if_neg hk, if_neg hk, ih]
    | false =>
      rw [List.filter_cons_of_neg (p := fun e : Nat × α => p e.1) (by simp [hj]), ih]
      by_cases hk : k = j
      · rw [hk, hj]
        rfl
      · rw [Table.read, if_neg hk]

/-- Core `k` is scrubbed: its scratchpad reads 0 and it has no threads. -/
def State.coreBlank (s : State) (k : Nat) : Prop := (∀ a, a / 2 ^ 20 = k → s.cpu.spad.byte a = 0) ∧ (s.core k).threads = []

theorem State.scrubCore_spad (s : State) (k a : Nat) : (s.scrubCore k).cpu.spad.byte a = if a / 2 ^ 20 = k then 0 else s.cpu.spad.byte a := by
  have h := Table.read_filter_key (0 : Byte) (fun a => a / 2 ^ 20 != k) s.cpu.spad a
  refine Eq.trans h ?_
  simp only [bne_iff_ne, ne_eq, ite_not, Memory.byte]

/-- A core once it is scrubbed. -/
def Core.scrubbed (c : Core) : Core :=
  { c with threads := [], dcache := [], tiles := [], ran := [], comps := if c.kind = 2 then c.comps else [],
           engines := if c.kind = 2 then c.engines else Table.mapAll {} (fun _ e => e.stopped) c.engines }

theorem State.scrubCore_threads (s : State) (k j : Nat) : ((s.scrubCore k).core j).threads = if j = k then [] else (s.core j).threads := by
  have hcore : (s.scrubCore k).core j = (s.onCore k Core.scrubbed).core j := rfl
  have hread : (s.onCore k Core.scrubbed).core j = if j = k then (s.core k).scrubbed else s.core j := Table.read_write ..
  rw [hcore, hread]
  split <;> rfl

theorem State.coreBlank.scrubCore {s : State} {k : Nat} (h : s.coreBlank k) (j : Nat) : (s.scrubCore j).coreBlank k := by
  refine ⟨fun a ha => ?_, ?_⟩
  · rw [State.scrubCore_spad, h.1 a ha, ite_self]
  · rw [State.scrubCore_threads, h.2, ite_self]

theorem State.scrubCore_coreBlank (s : State) (k : Nat) : (s.scrubCore k).coreBlank k :=
  ⟨fun a ha => by rw [State.scrubCore_spad, if_pos ha], by rw [State.scrubCore_threads, if_pos rfl]⟩

theorem State.foldl_scrubCore_coreBlank (l : List Nat) (s : State) :
    (∀ k, k ∈ l ∨ s.coreBlank k → (l.foldl State.scrubCore s).coreBlank k) ∧ s.changesOnly (l.foldl State.scrubCore s) [.cpu, .xl]
      ∧ (l.foldl State.scrubCore s).xl.roots = s.xl.roots := by
  induction l generalizing s with
  | nil => exact ⟨fun k hk => hk.resolve_left List.not_mem_nil, only_refl s _, rfl⟩
  | cons j l ih =>
    obtain ⟨hblank, honly, hroots⟩ := ih (s.scrubCore j)
    have hfirst := State.scrubCore_only s j (only_refl s [.cpu, .xl]) (by decide)
    refine ⟨fun k hk => hblank k ?_, hfirst.trans honly, hroots⟩
    rcases hk with hk | hk
    · rcases List.mem_cons.1 hk with rfl | hk
      · exact Or.inr (s.scrubCore_coreBlank k)
      · exact Or.inl hk
    · exact Or.inr (hk.scrubCore j)

/-- The cores of a tenant, and then those that have served it. -/
def State.scrubList (s : State) (tc : Nat) : List Nat :=
  s.tenantCores tc ++ (s.servedBy tc).filter (fun k => !(s.tenantCores tc).contains k)

/-- The scrub of cluster memories, collectives and handles of a tenant, once its cores are scrubbed. -/
def State.wipe (s : State) (tc : Nat) (cls : List Nat) : State :=
  { s with
    cpu := { s.cpu with cmem := s.cpu.cmem.filter (fun e => firmwareByte e.1 || !cls.contains (e.1 / 2 ^ 24)) }
    clv := { s.clv with ids := Table.mapAll {} (fun id (c : Coll) => if (s.collGroup id).tenant.toNat = tc then c.scrubbed else c) s.clv.ids }
    atn := { s.atn with handles := Table.mapAll {} (fun _ (h : Handle) =>
      if h.state != HandleState.free && h.tenant.toNat == tc then {} else h) s.atn.handles } }

theorem State.wipe_cmem (s : State) (tc : Nat) {cls : List Nat} {a : Nat} (ha : a / 2 ^ 24 ∈ cls) (hfw : firmwareByte a = false) :
    (s.wipe tc cls).cpu.cmem.byte a = 0 := by
  refine (Table.read_filter_key (0 : Byte) (fun a => firmwareByte a || !cls.contains (a / 2 ^ 24)) s.cpu.cmem a).trans (if_neg ?_)
  rw [hfw, List.contains_iff_mem.2 ha]
  exact Bool.false_ne_true

theorem State.wipe_handle (s : State) {tc h : Nat} (cls : List Nat) (hstate : (s.handle h).state ≠ .free) (htenant : (s.handle h).tenant.toNat = tc) :
    ((s.wipe tc cls).handle h).state = .free := by
  have hlisted : s.atn.handles.any (fun e => e.1 == h) = true := Table.any_of_read_ne (d := ({} : Handle)) fun hd => by
    have hx : s.handle h = {} := hd
    rw [hx] at hstate
    exact hstate rfl
  have hmine : ((s.handle h).state != HandleState.free && (s.handle h).tenant.toNat == tc) = true := by
    rw [htenant]
    simp [hstate]
  have hread : (s.wipe tc cls).handle h = if (s.handle h).state != HandleState.free && (s.handle h).tenant.toNat == tc then {} else s.handle h := by
    unfold State.handle State.wipe
    dsimp only
    rw [Table.read_mapAll, if_pos hlisted]
  rw [hread, if_pos hmine]

/-- The scrub of cores, cluster memories, collectives and handles of a tenant. -/
def State.wiped (s : State) (tc : Nat) : State := ((s.scrubList tc).foldl State.scrubCore s).wipe tc ((s.tenantCores tc).map clusterOf)

/-- The page-table root of a tenant is not valid. -/
def State.unrooted (s : State) (tc : Nat) : State :=
  { s with xl := { s.xl with roots := Table.write {} s.xl.roots tc { Table.read ({} : Root) s.xl.roots tc with valid := false } } }

theorem State.teardownScrub_eq (s : State) (tc : Nat) :
    s.teardownScrub tc = (((s.wiped tc).purge (some (BitVec.ofNat 10 tc)) 0 (2 ^ 56)).unrooted tc).scrubSectors tc := by
  unfold State.teardownScrub State.wiped State.wipe State.scrubList
  dsimp only
  rfl

/-- What a scrub wipes, and what stays at rest for the restart of walks. -/
theorem State.wiped_spec (s : State) (tc : Nat) :
    (∀ k, k ∈ s.tenantCores tc → (s.wiped tc).coreBlank k)
      ∧ (∀ k a, k ∈ s.tenantCores tc → a / 2 ^ 24 = clusterOf k → firmwareByte a = false → (s.wiped tc).cpu.cmem.byte a = 0)
      ∧ (∀ h, (s.handle h).state ≠ .free → (s.handle h).tenant.toNat = tc → ((s.wiped tc).handle h).state = .free)
      ∧ (s.wiped tc).sec = s.sec := by
  obtain ⟨hblank, honly, -⟩ := State.foldl_scrubCore_coreBlank (s.scrubList tc) s
  have hlist : ∀ k ∈ s.tenantCores tc, k ∈ s.scrubList tc := fun k hk => List.mem_append_left _ hk
  unfold State.wiped
  generalize (s.scrubList tc).foldl State.scrubCore s = u at hblank honly
  have hatn : ∀ h, u.handle h = s.handle h := fun h => by
    unfold State.handle
    rw [honly .atn (by decide)]
  refine ⟨fun k hk => hblank k (Or.inl (hlist k hk)), fun k a hk ha hfw => ?_, fun h hstate htenant => ?_, honly .sec (by decide)⟩
  · exact u.wipe_cmem tc (ha ▸ List.mem_map_of_mem hk) hfw
  · exact u.wipe_handle _ (hatn h ▸ hstate) (hatn h ▸ htenant)

/-- The state when the scrub of a tenant is complete: what the walks that start again have left at rest is wiped. -/
theorem State.teardownScrub_spec (s : State) (tc : Nat) :
    (∀ k, k ∈ s.tenantCores tc → (s.teardownScrub tc).coreBlank k)
      ∧ (∀ k a, k ∈ s.tenantCores tc → a / 2 ^ 24 = clusterOf k → firmwareByte a = false → (s.teardownScrub tc).cpu.cmem.byte a = 0)
      ∧ (∀ h, (s.handle h).state ≠ .free → (s.handle h).tenant.toNat = tc → ((s.teardownScrub tc).handle h).state = .free)
      ∧ (Table.read ({} : Root) (s.teardownScrub tc).xl.roots tc).valid = false
      ∧ (s.teardownScrub tc).sec.tenants = s.sec.tenants := by
  obtain ⟨hblank, hcmem, hhandles, hsec⟩ := s.wiped_spec tc
  rw [State.teardownScrub_eq]
  have hrest := State.purge_rests (s.wiped tc) (some (BitVec.ofNat 10 tc)) 0 (2 ^ 56) (State.rests.refl _)
  generalize (s.wiped tc).purge (some (BitVec.ofNat 10 tc)) 0 (2 ^ 56) = u at hrest
  have htail := State.scrubSectors_only (u.unrooted tc) tc (only_refl _ [.tier]) (by decide)
  have hcpu : ((u.unrooted tc).scrubSectors tc).cpu = u.cpu := htail .cpu (by decide)
  have hatn : ((u.unrooted tc).scrubSectors tc).atn = u.atn := htail .atn (by decide)
  have hxl : ((u.unrooted tc).scrubSectors tc).xl = (u.unrooted tc).xl := htail .xl (by decide)
  have htenants : ((u.unrooted tc).scrubSectors tc).sec = u.sec := htail .sec (by decide)
  refine ⟨fun k hk => ⟨fun a ha => ?_, ?_⟩, fun k a hk ha hfw => ?_, fun h hstate htenant => ?_, ?_, ?_⟩
  · rw [hcpu, hrest.spad]
    exact (hblank k hk).1 a ha
  · have hcore : ((u.unrooted tc).scrubSectors tc).core k = u.core k := by
      unfold State.core
      rw [hcpu]
    rw [hcore, hrest.threads]
    exact (hblank k hk).2
  · rw [hcpu, hrest.cmem]
    exact hcmem k a hk ha hfw
  · have hhandle : ((u.unrooted tc).scrubSectors tc).handle h = (s.wiped tc).handle h := by
      unfold State.handle
      rw [hatn, hrest.handles]
    rw [hhandle]
    exact hhandles h hstate htenant
  · rw [hxl]
    unfold State.unrooted
    dsimp only
    rw [Table.read_write_same]
  · rw [htenants, hrest.tenants, hsec]

theorem execTeardownComplete_scrubs {s : State} {tc : BitVec 10} (halive : s.alive = true) (hstate : (s.tenant tc.toNat).state = .stopping)
    (hstep : (s.tenant tc.toNat).tdStep = 6) (hidle : s.handlesBusy tc.toNat = false) :
    ∃ x, execTeardownComplete tc s = .next ((((s.teardownScrub tc.toNat).onTenant tc.toNat (fun x => { x with state := .retired, tdStep := 8 }))).logWith
      0x56 3 (srcTC tc.toNat) x 0x56 3 x) := by
  refine ⟨_, congrArg Host.Outcome.next (if_pos ?_)⟩
  rw [halive, hstate, hstep, hidle]
  rfl

/-! ### A retired tenant is freed -/

/-- The slots of an extent are released, and its last tenant is forgotten. -/
theorem State.releaseKept_extent (s : State) (e i : Nat) :
    ((s.releaseKept e).extent i).lastValid = if i = e then false else (s.extent i).lastValid := by
  have hslots : ∀ l : List (Nat × TierPage), s.changesOnly (l.foldl (fun (s : State) p =>
      let s := s.setPage p.1 { p.2 with res := 0, moving := false, fresh := false }
      if p.2.res = 1 ∨ p.2.res = 2 then s.releaseSlot p.1 p.2.tray.toNat p.2.slot.toNat false else s) s) [.pkg, .ports, .tier, .adk, .evq] :=
    fun l => foldl_only _ l s (fun t p ht => by
      have hpage := State.setPage_only t p.1 { p.2 with res := 0, moving := false, fresh := false } ht (by decide)
      exact ite_only (fun _ => State.releaseSlot_only _ _ _ _ _ hpage (by decide)) (fun _ => hpage)) (only_refl s _)
  unfold State.releaseKept
  dsimp only
  have hext := hslots (s.extentPages e) .ext (by decide)
  generalize (s.extentPages e).foldl _ s = u at hext ⊢
  by_cases hi : i = e
  · rw [hi, State.extent_onExtent_same, if_pos rfl]
  · rw [State.extent_onExtent_other _ _ hi, if_neg hi]
    unfold State.extent
    rw [hext]

theorem State.foldl_releaseKept_lastValid (l : List Nat) (s : State) {i : Nat} (h : i ∈ l ∨ (s.extent i).lastValid = false) :
    ((l.foldl State.releaseKept s).extent i).lastValid = false := by
  induction l generalizing s with
  | nil => exact h.resolve_left List.not_mem_nil
  | cons e l ih =>
    refine ih _ ?_
    rw [State.releaseKept_extent]
    rcases h with h | h
    · rcases List.mem_cons.1 h with rfl | h
      · exact Or.inr (if_pos rfl)
      · exact Or.inl h
    · rw [h, ite_self]
      exact Or.inr rfl

/-- The extents that a retired tenant has kept. -/
def State.keptExtents (s : State) (tc : Nat) : List Nat :=
  (s.ext.tab.filter (fun e => e.2.state == .free && e.2.lastValid && e.2.lastTenant.toNat == tc)).map (·.1)

theorem execTenantFree_frees {s : State} {tc : BitVec 10} (halive : s.alive = true) (hstate : (s.tenant tc.toNat).state = .retired)
    (hfree : s.mayFree tc.toNat = true) :
    execTenantFree tc s = .next (((((s.keptExtents tc.toNat).foldl State.releaseKept s).onTenant tc.toNat
      (fun x => { x with state := .free, pkey := none })).teardownBitmaps).event 0x56 0 (srcTC tc.toNat) 0) := by
  refine congrArg Host.Outcome.next (if_pos ?_)
  rw [halive, hstate, hfree]
  rfl

/-- Settles O46: each command and each step of the teardown changes the context that it names; what the walks that start again do
after the scrub leaves what was wiped at rest. -/
theorem tenantsThroughTheirLife : Obligations.TenantsThroughTheirLife := by
  unfold Obligations.TenantsThroughTheirLife
  refine ⟨?activate, ?activateRefused, ?retire, ?retireRefused, ?retiredBefore, ?scrubStart, ?scrubEarly, ?complete, ?free, ?freeEarly, ?key,
    ?keyRefused, ?keyData⟩
  case activate =>
    intro s tag hw hfree hmask hlost hroom
    have hcmd := State.tcCmd_activates (s := s.adkTaken (wrFrame tag (secAddr 0x20) 1)) hfree
    obtain ⟨t, hexec, hresp, ⟨htenant, hothers⟩, hresult, hsel, hreply, honly⟩ := tcWr_changes (ps := [.sec, .adk, .evq]) hw hcmd
      (State.tenantTo_tenantIs (s.adkTaken (wrFrame tag (secAddr 0x20) 1)) s.sec.tcSel.toNat .active (fun x => { x with tdStep := 0 }))
      (by rw [State.tenantTo_sec]; rfl) (State.tenantTo_only _ _ _ _ (only_refl _ _) (by decide)) (by decide) (by decide)
    refine ⟨t, hexec, hresp, htenant, hothers, ?_, hresult, hsel, honly⟩
    have hevq := hreply .evq (by decide)
    exact (congrArg Events.queue hevq).trans (State.tenantTo_queue _ _ _ hmask hlost hroom)
  case activateRefused => exact fun s tag hw h => tcWr_answers hw (State.tcCmd_activate_refused h)
  case retire =>
    intro s tag hw hactive hquiet hmoves htrays
    have hcmd := State.tcCmd_retires (s := s.adkTaken (wrFrame tag (secAddr 0x20) 2)) hactive
    obtain ⟨htenant, hext, hidle, hsel⟩ := State.retireTenant_spec (s := s.adkTaken (wrFrame tag (secAddr 0x20) 2)) hquiet hmoves htrays
      (s.adkTaken (wrFrame tag (secAddr 0x20) 2)).sec.tcSel.toNat
    obtain ⟨t, hexec, hresp, ⟨htenant, hothers⟩, hresult, hsel, hreply, honly⟩ := tcWr_changes hw hcmd htenant hsel
      (State.retireTenant_only _ _ (only_refl _ [.free, .pkg, .ports, .req, .coh, .ext, .tier, .xl, .cmp, .cpu, .clv, .atn, .comp, .sec, .log, .adk, .evq])
        (by decide)) (by decide) (by decide)
    refine ⟨t, hexec, hresp, by rw [htenant], by rw [htenant], by rw [htenant]; rfl, hothers, fun e he hmine => ?_,
      fun k i hk hr hm he => ?_, hresult, hsel, honly⟩
    · unfold State.extent
      rw [hreply .ext (by decide)]
      exact hext e he hmine
    · unfold State.thread State.core
      rw [hreply .cpu (by decide)]
      exact hidle k i hk hr hm he
  case retireRefused => exact fun s tag hw h => tcWr_answers hw (State.tcCmd_retire_refused h)
  case retiredBefore => exact fun s tag hw h => tcWr_answers hw (State.tcCmd_retired_before h)
  case scrubStart =>
    intro s tc halive hstate hstep hready
    obtain ⟨htenant, hothers⟩ := s.onTenant_tenantIs tc.toNat (fun x => { x with tdStep := 6 })
    refine ⟨_, congrArg Host.Outcome.next (if_pos ?_), htenant, hothers, s.onTenant_changesOnly _ _⟩
    rw [halive, hstate, hstep, hready]
    rfl
  case scrubEarly =>
    intro s tc hstate hready
    refine congrArg Host.Outcome.next (if_neg ?_)
    rw [hready, Bool.and_false]
    exact Bool.false_ne_true
  case complete =>
    intro s tc halive hstate hstep hidle
    obtain ⟨x, hexec⟩ := execTeardownComplete_scrubs halive hstate hstep hidle
    have honly := execTeardownComplete_only tc s (only_refl s _) (List.Subset.refl _) _ hexec
    obtain ⟨hblank, hcmem, hhandles, hroot, htenants⟩ := s.teardownScrub_spec tc.toNat
    generalize s.teardownScrub tc.toNat = u at hexec honly hblank hcmem hhandles hroot htenants
    have hlogged := (u.onTenant tc.toNat (fun x => { x with state := .retired, tdStep := 8 })).logWith_logged 0x56 3 (srcTC tc.toNat) x 0x56 3 x
    have hlog := (u.onTenant tc.toNat (fun x => { x with state := .retired, tdStep := 8 })).logWith_changesOnly 0x56 3 (srcTC tc.toNat) x 0x56 3 x
    obtain ⟨htenant, hothers⟩ := (u.onTenant_tenantIs tc.toNat (fun x => { x with state := .retired, tdStep := 8 })).of_sec
      (congrArg Security.tenants (hlog .sec (by decide)))
    have hbefore : ∀ i, u.tenant i = s.tenant i := State.tenant_of_sec htenants
    refine ⟨_, hexec, htenant.trans (by rw [hbefore]), fun i hi => (hothers i hi).trans (hbefore i), fun k a hk ha => ?_,
      fun k a hk ha hfw => ?_, fun k i hk => ?_, ?_, fun h hh hmine => ?_, hlogged, honly⟩
    · rw [hlog .cpu (by decide)]
      exact (hblank k hk).1 a ha
    · rw [hlog .cpu (by decide)]
      exact hcmem k a hk ha hfw
    · unfold State.thread State.core
      rw [hlog .cpu (by decide)]
      have hnone := (hblank k hk).2
      unfold State.core at hnone
      exact congrArg (fun l => (Table.read ({} : Thread) l i).state) hnone
    · rw [hlog .xl (by decide)]
      exact hroot
    · unfold State.handle
      rw [hlog .atn (by decide)]
      exact hhandles h hh hmine
  case free =>
    intro s tc halive hstate hfree
    have hexec := execTenantFree_frees halive hstate hfree
    have honly := execTenantFree_only tc s (only_refl s _) (List.Subset.refl _) _ hexec
    have hkept : s.changesOnly ((s.keptExtents tc.toNat).foldl State.releaseKept s) [.pkg, .ports, .ext, .tier, .adk, .evq] :=
      foldl_only _ _ s (fun t e ht => State.releaseKept_only t e ht (by decide)) (only_refl s _)
    have hforgotten : ∀ e, (s.extent e).lastTenant.toNat = tc.toNat → (s.extent e).state = .free →
        (((s.keptExtents tc.toNat).foldl State.releaseKept s).extent e).lastValid = false := by
      intro e hlast hst
      refine State.foldl_releaseKept_lastValid _ s ?_
      cases hvalid : (s.extent e).lastValid with
      | false => exact Or.inr rfl
      | true =>
        have hlisted : (e, s.extent e) ∈ s.ext.tab := Table.mem_of_read_ne (d := ({} : Extent)) fun h => by
          have hx : s.extent e = {} := h
          rw [hx] at hvalid
          exact Bool.noConfusion hvalid
        refine Or.inl (List.mem_map.2 ⟨_, List.mem_filter.2 ⟨hlisted, ?_⟩, rfl⟩)
        dsimp only
        rw [hst, hvalid, hlast]
        simp
    generalize (s.keptExtents tc.toNat).foldl State.releaseKept s = u at hexec honly hkept hforgotten
    have htail := State.event_only _ 0x56 0 (srcTC tc.toNat) 0 0xFFFFFFFF (State.teardownBitmaps_only
      (u.onTenant tc.toNat (fun x => { x with state := .free, pkey := none })) (only_refl _ [.pkg, .ports, .tier, .adk, .evq]) (by decide)) (by decide)
    obtain ⟨htenant, hothers⟩ := (u.onTenant_tenantIs tc.toNat (fun x => { x with state := .free, pkey := none })).of_sec
      (congrArg Security.tenants (htail .sec (by decide)))
    have hbefore : ∀ i, u.tenant i = s.tenant i := State.tenant_of_sec (congrArg Security.tenants (hkept .sec (by decide)))
    refine ⟨_, hexec, htenant.trans (by rw [hbefore]), fun i hi => (hothers i hi).trans (hbefore i), fun e hlast hst => ?_, honly⟩
    unfold State.extent
    rw [htail .ext (by decide)]
    exact hforgotten e hlast hst
  case freeEarly =>
    intro s tc hstate hfree
    refine congrArg Host.Outcome.next (if_neg ?_)
    rw [hfree, Bool.and_false]
    exact Bool.false_ne_true
  case key =>
    intro s tag hw hstate hruns
    have hcmd := State.tcCmd_keys (s := s.adkTaken (wrFrame tag (secAddr 0x20) 3)) hstate hruns
    obtain ⟨t, hexec, hresp, ⟨htenant, hothers⟩, hresult, hsel, -, honly⟩ := tcWr_changes (ps := [.sec, .adk]) hw hcmd
      (State.onTenant_tenantIs (s.adkTaken (wrFrame tag (secAddr 0x20) 3)) s.sec.tcSel.toNat (fun x => { x with pkey := some s.keyBytes })) rfl
      ((State.onTenant_changesOnly _ _ _).mono (by decide)) (by decide) (by decide)
    exact ⟨t, hexec, hresp, htenant, hothers, hresult, hsel, honly⟩
  case keyRefused => exact fun s tag hw h => tcWr_answers hw (State.tcCmd_key_refused h)
  case keyData =>
    intro s tag value hw
    obtain ⟨t, hexec, hresp, hreply, honly⟩ := State.adkWr_effect (ps := [.sec, .adk]) (f := fun s => s.pkeyData value) hw rfl
      ((State.withSec_only _ _).mono (by decide)) (by decide)
    have hsec : t.sec = { s.sec with
        pkeyBuf := Table.write 0 s.sec.pkeyBuf s.sec.pkeyPtr.toNat value
        pkeyPtr := if 0xA3 ≤ s.sec.pkeyPtr.toNat then 0 else s.sec.pkeyPtr + 1 } := hreply .sec (by decide)
    refine ⟨t, hexec, hresp, ?_, fun i hi => ?_, by rw [hsec], by rw [hsec], honly⟩ <;> rw [hsec]
    · exact Table.read_write_same ..
    · exact Table.read_write_other _ _ _ hi

end Sys2Proof.Machine
end

section
/-! SUPPORT. Temperatures, scrub hits and engine self-tests: what a sample, a window and a slot change (chapter 15). -/

namespace Sys2Proof.Machine

/-! ### The readings of the dies -/

theorem State.die_of_dies {s t : State} (h : t.log.dies = s.log.dies) (i : Nat) : t.die i = s.die i := by
  unfold State.die
  rw [h]

/-- From `s` to `t` die `i` has become `x`, and every other die is as it was. -/
def State.dieIs (s t : State) (i : Nat) (x : Die) : Prop := t.die i = x ∧ ∀ j, j ≠ i → t.die j = s.die j

theorem State.onDie_dieIs (s : State) (i : Nat) (f : Die → Die) : s.dieIs (s.onDie i f) i (f (s.die i)) :=
  ⟨Table.read_write_same _ _ _ _, fun _ hj => Table.read_write_other _ _ _ hj⟩

theorem State.dieIs.of_dies {s t u : State} {i : Nat} {x : Die} (h : s.dieIs t i x) (hu : u.log.dies = t.log.dies) : s.dieIs u i x :=
  ⟨(State.die_of_dies hu i).trans h.1, fun j hj => (State.die_of_dies hu j).trans (h.2 j hj)⟩

theorem State.dieIs.onDie {s t : State} {i : Nat} {x : Die} (h : s.dieIs t i x) (f : Die → Die) : s.dieIs (t.onDie i f) i (f x) := by
  obtain ⟨hsame, hothers⟩ := t.onDie_dieIs i f
  exact ⟨hsame.trans (congrArg f h.1), fun j hj => (hothers j hj).trans (h.2 j hj)⟩

theorem State.onDie_changesOnly (s : State) (i : Nat) (f : Die → Die) : s.changesOnly (s.onDie i f) [.log] := State.withLog_only s _

theorem State.dieSrc_of_only {s t : State} {ps : List Part} (h : s.changesOnly t ps) (hp : Part.pkg ∉ ps) (x : Nat) : t.dieSrc x = s.dieSrc x := by
  have hpkg : t.pkg = s.pkg := h .pkg hp
  unfold State.dieSrc State.siteLc State.lcSite State.lcPhys
  rw [hpkg]

/-- A die changes its level: with its entry, and no other die. -/
theorem State.levelTo_spec (s : State) (x n : Nat) (f : Die → Die) :
    s.dieIs (s.levelTo x n f) x (f { s.die x with level := BitVec.ofNat 2 n }) ∧ (s.levelTo x n f).logged 0x0D n (s.dieSrc x)
      ∧ s.changesOnly (s.levelTo x n f) [.log, .evq, .adk] := by
  have hput := s.onDie_changesOnly x (fun d => f { d with level := BitVec.ofNat 2 n })
  have hsrc := State.dieSrc_of_only hput (by decide) x
  refine ⟨(s.onDie_dieIs x _).of_dies (State.logE_rests _ _ _ _ _ _ (State.rests.refl _)).dies, ?_,
    (hput.mono (by decide)).trans (State.logE_only _ _ _ _ _ _ (only_refl _ _) (by decide))⟩
  rw [← hsrc]
  exact State.logE_logged _ _ _ _ _ _

/-- A warning touches the mark of its die alone, and may raise an event. -/
theorem State.warnDie_spec (s : State) (x : Nat) (t : Int) :
    ∃ w, s.dieIs (s.warnDie x t) x { s.die x with warned := w } ∧ s.changesOnly (s.warnDie x t) [.log, .evq, .adk] := by
  have hput := s.onDie_changesOnly x (fun d => { d with warned := decide (s.log.warnC.toInt ≤ t) })
  have hset := s.onDie_dieIs x (fun d => { d with warned := decide (s.log.warnC.toInt ≤ t) })
  refine ⟨decide (s.log.warnC.toInt ≤ t), ?_, ?_⟩
  · unfold State.warnDie
    dsimp only
    split
    · exact hset.of_dies (congrArg Log.dies (State.event_log _ _ _ _ _ _))
    · exact hset
  · unfold State.warnDie
    dsimp only
    exact ite_only (fun _ => State.event_only _ _ _ _ _ _ (hput.mono (by decide)) (by decide)) (fun _ => hput.mono (by decide))

/-! ### HALT keeps the readings -/

theorem State.toIssuer_dies (s : State) (site n : Nat) (o : Origin) (q : Option Nat) (x : QFrame) :
    (s.toIssuer site n o q x).log.dies = s.log.dies := (State.toIssuer_rests s site n o q x (State.rests.refl s)).dies

theorem State.sendPart_dies (s : State) (x : Decode) (st : BitVec 6) (hdr body : List Byte) :
    (s.sendPart x st hdr body).log.dies = s.log.dies :=
  (State.toIssuer_rests _ _ _ _ _ _ (foldl_rests _ _ s (fun t y ht => State.toIssuer_rests t _ _ _ _ _ ht) (State.rests.refl s))).dies

theorem State.endDecode_dies (s : State) (x : Decode) : (s.endDecode x).log.dies = s.log.dies :=
  congrArg Log.dies (State.endDecode_only s x (only_refl s [.atn]) (by decide) .log (by decide))

theorem State.countAtn_dies (s : State) (i : Nat) : (s.countAtn i).log.dies = s.log.dies :=
  congrArg Log.dies (State.countAtn_only s i _ (only_refl s [.atn, .adk, .evq]) (by decide) .log (by decide))

theorem State.finishDecode_dies (s : State) (x : Decode) (st : BitVec 6) (out : List Byte) : (s.finishDecode x st out).log.dies = s.log.dies := by
  unfold State.finishDecode State.attnResult
  dsimp only
  cases x.isSub
  · simp only [Bool.false_eq_true, if_false]
    refine (State.toIssuer_dies _ _ _ _ _ _).trans ((State.endDecode_dies _ _).trans ?_)
    split
    · exact (State.countAtn_dies _ _).trans (State.countAtn_dies _ _)
    · exact State.countAtn_dies _ _
  · simp only [if_true]
    exact (State.sendPart_dies _ _ _ _ _).trans (State.endDecode_dies _ _)

theorem State.endDecodes_dies (s : State) (st : BitVec 6) (p : Decode → Bool) : (s.endDecodes st p).log.dies = s.log.dies := by
  unfold State.endDecodes
  generalize s.atn.decodes.filter _ = l
  induction l generalizing s with
  | nil => rfl
  | cons x l ih =>
    refine (ih _).trans ?_
    dsimp only
    split
    · exact s.finishDecode_dies x st []
    · rfl

theorem State.collTriggers_dies (s : State) (code : Nat) (p : Nat → Coll → Bool) : (s.collTriggers code p).log.dies = s.log.dies :=
  (foldl_rests _ _ s (fun u _ hu => State.collTrigger_rests u _ _ hu) (State.rests.refl s)).dies

theorem State.attnLeave_dies (s : State) : s.attnLeave.log.dies = s.log.dies := s.endDecodes_dies stAborted (fun _ => true)

theorem State.leaveService_dies (s : State) : s.leaveService.log.dies = s.log.dies := by
  have htail (t : State) (p : Nat → Nat → Bool) : ((t.stopThreads p).abandonDelta).log.dies = t.log.dies :=
    congrArg Log.dies (State.abandonDelta_only _ (State.stopThreads_only t p (only_refl t [.cpu, .comp]) (by decide)) (by decide) .log (by decide))
  exact (htail _ _).trans ((State.attnLeave_dies _).trans (State.collTriggers_dies s.unarmLeases 0xD (fun _ _ => true)))

theorem State.changeState_dies (s : State) (n : ModState) (code trig : Nat) : (s.changeState n code trig).log.dies = s.log.dies := by
  unfold State.changeState
  split
  · rfl
  · exact (State.logWith_rests _ _ _ _ _ _ _ _ (State.rests.refl _)).dies

theorem State.changeState_capW (s : State) (n : ModState) (code trig : Nat) : (s.changeState n code trig).glb.capW = s.glb.capW := by
  have hlogged (t : State) (a b c d e f : Nat) (r : BitVec 16) : (t.logWith a b r c d e f).glb = t.glb :=
    State.logWith_changesOnly t a b r c d e f .glb (by decide)
  unfold State.changeState
  dsimp only
  split
  · rfl
  · rw [hlogged]

/-- HALT leaves the readings of the dies and the power cap as they are. -/
theorem State.enterHalt_keeps (s : State) (cls : Nat) :
    (s.enterHalt cls).log.dies = s.log.dies ∧ (s.enterHalt cls).glb.capW = s.glb.capW := by
  have htail : ∀ t : State, t.changesOnly ((t.portsOff).stopCores).dropWork [.ports, .req, .coh, .ext, .tier, .xl, .cpu, .atn, .adk] := fun t =>
    State.dropWork_only _ (State.stopCores_only _ (State.portsOff_only t (only_refl t _) (by decide)) (by decide)) (by decide)
  have hleft : ∀ (t : State) (c : Prop) [Decidable c], (if c then t.leaveService else t).log.dies = t.log.dies
      ∧ (if c then t.leaveService else t).glb = t.glb := by
    intro t c _
    split
    · exact ⟨t.leaveService_dies, State.leaveService_only t (only_refl t _) (List.Subset.refl _) .glb (by decide)⟩
    · exact ⟨rfl, rfl⟩
  unfold State.enterHalt
  split
  · exact ⟨rfl, rfl⟩
  · obtain ⟨hdies, hglb⟩ := hleft (s.changeState .halt 0x41 cls) (s.mod.state = .service)
    refine ⟨(congrArg Log.dies (htail _ .log (by decide))).trans (hdies.trans (s.changeState_dies _ _ _)), ?_⟩
    exact (congrArg Global.capW ((htail _ .glb (by decide)).trans hglb)).trans (s.changeState_capW _ _ _)

/-! ### A sample -/

/-- The readings of a die after a sample (R381). -/
def State.sampled (s : State) (x : Nat) (temp : BitVec 8) (vdd : BitVec 16) : Die :=
  let d := s.die x
  { d with
    temp := temp, vdd := vdd, sampledAt := s.now
    maxTemp := if d.sampledAt ≠ 0 ∧ temp.toInt ≤ d.maxTemp.toInt then d.maxTemp else temp
    hotAt := if s.log.throttleC.toInt - 5 ≤ temp.toInt then s.now else d.hotAt
    hotRun := if 105 ≤ temp.toInt then min 2 (d.hotRun + 1) else 0 }

theorem execThermalSample_takes {s : State} {site : BitVec 6} {temp : BitVec 8} {vdd : BitVec 16} (hon : s.mod.state ≠ .off)
    (hdue : (s.die site.toNat).sampledAt = 0 ∨ (s.die site.toNat).sampledAt + 100 * usT ≤ s.now) :
    execThermalSample site temp vdd s = .next (
      let u := s.onDie site.toNat (fun _ => s.sampled site.toNat temp vdd)
      if 2 ≤ (s.sampled site.toNat temp vdd).hotRun then u.enterHalt 0x0D
      else
        let u := u.warnDie site.toNat temp.toInt
        if (s.die site.toNat).level = 0 ∧ s.log.throttleC.toInt ≤ temp.toInt then u.levelTo site.toNat 1 (fun d => { d with levelAt := u.now }) else u) := by
  refine congrArg Host.Outcome.next ((if_neg ?_).trans rfl)
  rintro (h | ⟨h, hearly⟩)
  · exact hon h
  · exact (hdue.resolve_left h).not_gt hearly

theorem State.sampled_cool (s : State) (x : Nat) {temp : BitVec 8} (vdd : BitVec 16) (h : temp.toInt < 105) : (s.sampled x temp vdd).hotRun = 0 :=
  if_neg (not_le.2 h)

/-! ### Scrub hits -/

theorem State.countLog_small {s : State} (h : s.log.cntCe.toNat + 2 < 2 ^ 64) :
    s.countLog 0 = { s with log := { s.log with cntCe := s.log.cntCe + 1 } } := by
  have hcount : s.countLog 0 = ({ s with log := { s.log with sat := satSet s.log.sat 0 (bump s.log.cntCe).2.1, cntCe := (bump s.log.cntCe).1 } }).satEvent
      (bump s.log.cntCe).2.2 0 (srcSD 0) (maddr 1 0 2 0x0E0) := rfl
  rw [hcount, bump_small h]
  rfl

theorem State.countLog_uncorrected {s : State} (h : s.log.cntUe.toNat + 2 < 2 ^ 64) :
    s.countLog 1 = { s with log := { s.log with cntUe := s.log.cntUe + 1 } } := by
  have hcount : s.countLog 1 = ({ s with log := { s.log with sat := satSet s.log.sat 1 (bump s.log.cntUe).2.1, cntUe := (bump s.log.cntUe).1 } }).satEvent
      (bump s.log.cntUe).2.2 1 (srcSD 0) (maddr 1 0 2 0x0E0) := rfl
  rw [hcount, bump_small h]
  rfl

/-- A poison and an overwritten entry count in registers of their own. -/
theorem State.countLog_poison (s : State) : (s.countLog 2).log.cntCe = s.log.cntCe ∧ (s.countLog 2).log.cntUe = s.log.cntUe := by
  unfold State.countLog
  dsimp only
  rw [State.satEvent_log]
  exact ⟨rfl, rfl⟩

theorem State.countLog_overwritten (s : State) : (s.countLog 3).log.cntCe = s.log.cntCe ∧ (s.countLog 3).log.cntUe = s.log.cntUe := by
  unfold State.countLog
  dsimp only
  rw [State.satEvent_log]
  exact ⟨rfl, rfl⟩

theorem State.logE_counts (s : State) (cls detail : Nat) (sr : BitVec 16) (param : Nat) (mirror : Bool) :
    (s.logE cls detail sr param mirror).log.cntCe = s.log.cntCe ∧ (s.logE cls detail sr param mirror).log.cntUe = s.log.cntUe := by
  have happend : (s.appendLog cls detail sr param).log.cntCe = s.log.cntCe ∧ (s.appendLog cls detail sr param).log.cntUe = s.log.cntUe := by
    unfold State.appendLog
    dsimp only
    split
    · exact State.countLog_overwritten _
    · exact ⟨rfl, rfl⟩
  unfold State.logE
  cases s.mergeInto cls detail sr with
  | some q => exact ⟨rfl, rfl⟩
  | none =>
    cases mirror
    · exact happend
    · simp only [if_true, State.event_log]
      exact happend

/-- A poisoned line counts in its own register. -/
theorem State.poisonLine_counts (s : State) (line : Nat) :
    (s.poisonLine line).log.cntCe = s.log.cntCe ∧ (s.poisonLine line).log.cntUe = s.log.cntUe := by
  have hnoted : ((s.notePoison line 0).forget line).log.cntCe = s.log.cntCe ∧ ((s.notePoison line 0).forget line).log.cntUe = s.log.cntUe := by
    obtain ⟨hce, hue⟩ := State.countLog_poison (s.logE 0x02 0 (srcHS (s.sliceOf (line / 32))) (64 * line) true)
    obtain ⟨hce', hue'⟩ := s.logE_counts 0x02 0 (srcHS (s.sliceOf (line / 32))) (64 * line) true
    exact ⟨hce.trans hce', hue.trans hue'⟩
  have hplaced (t : State) (b : Nat) (x : Byte) (c : List Byte) (ls : List (Nat × List Byte × Bool)) (o y : Bool) :
      ((t.setForm b x c).placeLines b ls o y).log = t.log :=
    State.placeLines_only _ b ls o y (State.setForm_only t b x c (only_refl t [.tier, .sec]) (by decide)) (by decide) .log (by decide)
  unfold State.poisonLine
  dsimp only
  split
  · rw [hplaced]
    exact hnoted
  · exact hnoted

theorem State.corrected_cntCe {s : State} (h : EccHit) (hsmall : s.log.cntCe.toNat + 2 < 2 ^ 64) : (s.corrected h).log.cntCe = s.log.cntCe + 1 := by
  unfold State.corrected
  rw [State.countLog_small hsmall]
  dsimp only
  split
  · rfl
  · split
    · exact (State.logE_counts _ _ _ _ _ _).1
    · rfl

theorem State.uncorrectable_line {s : State} {h : EccHit} (hwhat : h.what = 0) (hsmall : s.log.cntUe.toNat + 2 < 2 ^ 64) :
    s.uncorrectable h = ({ s with log := { s.log with cntUe := s.log.cntUe + 1 } }).poisonLine h.index := by
  unfold State.uncorrectable
  rw [State.countLog_uncorrected hsmall, hwhat]
  rfl

/-! ### A slot of self-tests -/

/-- From `s` to `t` engines have been taken for a test at most, and only those without commands. -/
def State.tested (s t : State) : Prop :=
  ∀ k e, t.engine k e = s.engine k e ∨ (s.engine k e).queue = [] ∧ t.engine k e = { s.engine k e with testing := true }

theorem State.tested.refl (s : State) : s.tested s := fun _ _ => .inl rfl

theorem State.tested.trans {s t u : State} (h : s.tested t) (h' : t.tested u) : s.tested u := by
  intro k e
  rcases h' k e with hsame | ⟨hempty, htaken⟩
  · rw [hsame]
    exact h k e
  · rcases h k e with hs | ⟨hs, ht⟩
    · rw [hs] at hempty htaken
      exact .inr ⟨hempty, htaken⟩
    · exact .inr ⟨hs, by rw [htaken, ht]⟩

/-- An engine with commands is as it was. -/
theorem State.tested.busy {s t : State} (h : s.tested t) {k e : Nat} (hq : (s.engine k e).queue ≠ []) : t.engine k e = s.engine k e :=
  (h k e).resolve_right fun hx => hq hx.1

/-- An engine under test stays so. -/
theorem State.tested.testing {s t : State} (h : s.tested t) {k e : Nat} (ht : (s.engine k e).testing = true) : (t.engine k e).testing = true := by
  rcases h k e with hsame | ⟨-, htaken⟩
  · rw [hsame]
    exact ht
  · rw [htaken]

theorem State.tested.queue {s t : State} (h : s.tested t) (k e : Nat) : (t.engine k e).queue = (s.engine k e).queue := by
  rcases h k e with hsame | ⟨-, htaken⟩
  · rw [hsame]
  · rw [htaken]

theorem State.engine_onEngine_other (s : State) {k e j x : Nat} (f : Engine → Engine) (h : ¬ (j = k ∧ x = e)) :
    (s.onEngine k e f).engine j x = s.engine j x := by
  unfold State.engine State.onEngine
  by_cases hj : j = k
  · subst hj
    rw [State.core_onCore_same]
    exact Table.read_write_other _ _ _ fun hx => h ⟨rfl, hx⟩
  · rw [State.core_onCore_other _ _ hj]

/-- An engine without commands is taken for its test. -/
theorem State.onEngine_tested {s : State} {k e : Nat} (h : (s.engine k e).queue = []) :
    s.tested (s.onEngine k e (fun x => { x with testing := true })) := by
  intro j x
  by_cases hjx : j = k ∧ x = e
  · obtain ⟨rfl, rfl⟩ := hjx
    exact .inr ⟨h, State.engine_onEngine_same _ _ _ _⟩
  · exact .inl (State.engine_onEngine_other _ _ hjx)

/-- What the log keeps of the self-tests of a cluster is the same in `s` and `t`. -/
def State.sameTests (s t : State) (cl : Nat) : Prop :=
  Table.read [] t.log.testing cl = Table.read [] s.log.testing cl ∧ Table.read [] t.log.skipped cl = Table.read [] s.log.skipped cl
    ∧ Table.read 0 t.log.rotation cl = Table.read 0 s.log.rotation cl

theorem State.sameTests.trans {s t u : State} {cl : Nat} (h : s.sameTests t cl) (h' : t.sameTests u cl) : s.sameTests u cl := by
  obtain ⟨htesting, hskipped, hrotation⟩ := h
  obtain ⟨htesting', hskipped', hrotation'⟩ := h'
  exact ⟨htesting'.trans htesting, hskipped'.trans hskipped, hrotation'.trans hrotation⟩

theorem State.testNext_tested (s : State) (cl : Nat) (l : List Nat) : s.tested (s.testNext cl l) := by
  induction l generalizing s with
  | nil => exact State.tested.refl s
  | cons r l ih =>
    unfold State.testNext
    dsimp only
    split
    · exact ih _
    · next hq => exact State.onEngine_tested (by simpa using hq)

theorem State.testNext_sameTests (s : State) {cl c : Nat} (h : c ≠ cl) (l : List Nat) : s.sameTests (s.testNext cl l) c := by
  have hother (t : Table (List Nat)) (v : List Nat) : Table.read [] (Table.write [] t cl v) c = Table.read [] t c := Table.read_write_other [] t v h
  induction l generalizing s with
  | nil => exact ⟨hother s.log.testing [], rfl, rfl⟩
  | cons r l ih =>
    unfold State.testNext
    dsimp only
    split
    · have hskip : s.sameTests { s with log := { s.log with
          skipped := Table.write [] s.log.skipped cl (Table.read [] s.log.skipped cl ++ [r]) } } c := ⟨rfl, hother s.log.skipped _, rfl⟩
      exact hskip.trans (ih _)
    · exact ⟨hother s.log.testing (r :: l), rfl, rfl⟩

theorem State.testSlot_tested (s : State) (cl n : Nat) : s.tested (s.testSlot cl n) := State.testNext_tested { s with log := _ } cl _

theorem State.testSlot_sameTests (s : State) {cl c : Nat} (h : c ≠ cl) (n : Nat) : s.sameTests (s.testSlot cl n) c := by
  have hset : ∀ (x : List Nat) (r : Nat), s.sameTests { s with log := { s.log with
      skipped := Table.write [] s.log.skipped cl x, rotation := Table.write 0 s.log.rotation cl r } } c := fun x r =>
    ⟨rfl, Table.read_write_other [] s.log.skipped x h, Table.read_write_other 0 s.log.rotation r h⟩
  exact (hset _ _).trans (State.testNext_sameTests _ h _)

/-- One cluster's part of a slot: `s` is the state at the slot. -/
def State.slotOf (s u : State) (cl : Nat) : State :=
  if !s.clusterUp cl || !(Table.read [] s.log.testing cl).isEmpty then u
  else if 0 < s.passOf cl then u.testSlot cl 8
  else if s.log.stestEn then u.testSlot cl 1 else u

theorem State.slotOf_tested (s u : State) (cl : Nat) : u.tested (s.slotOf u cl) := by
  unfold State.slotOf
  split
  · exact State.tested.refl u
  · split
    · exact u.testSlot_tested cl 8
    · split
      · exact u.testSlot_tested cl 1
      · exact State.tested.refl u

theorem State.slotOf_sameTests (s u : State) {cl c : Nat} (h : c ≠ cl) : u.sameTests (s.slotOf u cl) c := by
  unfold State.slotOf
  split
  · exact ⟨rfl, rfl, rfl⟩
  · split
    · exact u.testSlot_sameTests h 8
    · split
      · exact u.testSlot_sameTests h 1
      · exact ⟨rfl, rfl, rfl⟩

theorem State.slotOf_only (s u : State) (cl : Nat) : u.changesOnly (s.slotOf u cl) [.cpu, .log] :=
  ite_only (fun _ => only_refl u _) fun _ => ite_only (fun _ => State.testSlot_only u cl 8 (only_refl u _) (List.Subset.refl _)) fun _ =>
    ite_only (fun _ => State.testSlot_only u cl 1 (only_refl u _) (List.Subset.refl _)) (fun _ => only_refl u _)

theorem State.foldl_slotOf_only (s u : State) (l : List Nat) : u.changesOnly (l.foldl s.slotOf u) [.cpu, .log] :=
  foldl_only _ l u (fun t c ht => ht.trans (s.slotOf_only t c)) (only_refl u _)

theorem State.foldl_slotOf_tested (s u : State) (l : List Nat) : u.tested (l.foldl s.slotOf u) := by
  induction l generalizing u with
  | nil => exact State.tested.refl u
  | cons c l ih => exact (s.slotOf_tested u c).trans (ih _)

theorem State.foldl_slotOf_sameTests (s u : State) {l : List Nat} {cl : Nat} (h : cl ∉ l) : u.sameTests (l.foldl s.slotOf u) cl := by
  induction l generalizing u with
  | nil => exact ⟨rfl, rfl, rfl⟩
  | cons c l ih =>
    exact (s.slotOf_sameTests u (fun hc => h (List.mem_cons.2 (.inl hc)))).trans (ih _ fun hm => h (List.mem_cons_of_mem _ hm))

/-- The state in which a slot takes its clusters up. -/
def State.slotBegun (s : State) : State := { (s.paid 5) with tim := { (s.paid 5).tim with lastSelf := s.now } }

/-- The state after the clusters of a slot: one pass less is left to run. -/
def State.slotEnded (t : State) : State := { t with log := { t.log with passLeft := Table.mapAll 0 (fun _ n => n - 1) t.log.passLeft } }

theorem execSelfTestSlot_due {s : State} (halive : s.alive = true) (hdue : s.periodDue 5 = true) (hturn : s.inTurn 5 (s.periodAt 5) = true) :
    exec .selfTestSlot s = .next ((List.range 128).foldl s.slotOf s.slotBegun).slotEnded := by
  refine congrArg Host.Outcome.next ((if_neg ?_).trans rfl)
  rw [halive, hdue, hturn]
  decide

/-- The turn of a cluster has moved on by one place, and nothing is skipped. -/
def State.turned (s : State) (cl : Nat) : State := { s with log := { s.log with
  skipped := Table.write [] s.log.skipped cl [], rotation := Table.write 0 s.log.rotation cl ((Table.read 0 s.log.rotation cl + 1) % 32) } }

/-- The one engine that a slot gives a cluster with nothing skipped. -/
theorem State.slotOf_one {s u : State} {cl : Nat} (hen : s.log.stestEn = true) (hpass : s.log.passLeft = []) (hup : s.clusterUp cl = true)
    (htesting : Table.read [] s.log.testing cl = []) (hskipped : Table.read [] u.log.skipped cl = []) :
    s.slotOf u cl = (u.turned cl).testNext cl [Table.read 0 u.log.rotation cl % 32] := by
  have hno : s.passOf cl = 0 := by
    unfold State.passOf
    rw [hpass]
    rfl
  unfold State.slotOf
  rw [hup, htesting, hno, hen]
  refine (if_neg (by decide)).trans ((if_neg (by decide)).trans ((if_pos rfl).trans ?_))
  unfold State.testSlot
  rw [hskipped]
  rfl

/-- A due slot at a cluster: the clusters before it, the cluster itself, and those behind it. -/
theorem range_split {cl : Nat} (h : cl < 128) : ∃ before behind, List.range 128 = before ++ cl :: behind ∧ cl ∉ before ∧ cl ∉ behind := by
  obtain ⟨before, behind, hsplit⟩ := List.append_of_mem (List.mem_range.2 h)
  have hnodup := hsplit ▸ List.nodup_range (n := 128)
  rw [List.nodup_append] at hnodup
  obtain ⟨-, hbehind, hdisjoint⟩ := hnodup
  exact ⟨before, behind, hsplit, fun hm => hdisjoint cl hm cl List.mem_cons_self rfl, (List.nodup_cons.1 hbehind).1⟩

/-- What a due slot makes of a cluster whose turn is at place `r` of its rotation: the engine's state before the slot decides. -/
theorem execSelfTestSlot_at {s : State} {cl : Nat} (halive : s.alive = true) (hdue : s.periodDue 5 = true)
    (hturn : s.inTurn 5 (s.periodAt 5) = true) (hcl : cl < 128) (hen : s.log.stestEn = true) (hpass : s.log.passLeft = [])
    (hup : s.clusterUp cl = true) (htesting : Table.read [] s.log.testing cl = []) (hskipped : Table.read [] s.log.skipped cl = []) :
    ∃ u v, exec .selfTestSlot s = .next v.slotEnded ∧ v.tim = s.slotBegun.tim
      ∧ s.tested u ∧ Table.read 0 u.log.rotation cl = Table.read 0 s.log.rotation cl
      ∧ ((u.turned cl).testNext cl [Table.read 0 u.log.rotation cl % 32]).tested v
      ∧ ((u.turned cl).testNext cl [Table.read 0 u.log.rotation cl % 32]).sameTests v cl := by
  obtain ⟨before, behind, hsplit, hbefore, hbehind⟩ := range_split hcl
  obtain ⟨-, hskip, hrot⟩ := s.foldl_slotOf_sameTests s.slotBegun hbefore
  have hone := State.slotOf_one (u := before.foldl s.slotOf s.slotBegun) hen hpass hup htesting (hskip.trans hskipped)
  have htim := s.foldl_slotOf_only s.slotBegun (List.range 128) .tim (by decide)
  refine ⟨before.foldl s.slotOf s.slotBegun, (List.range 128).foldl s.slotOf s.slotBegun, execSelfTestSlot_due halive hdue hturn, htim,
    s.foldl_slotOf_tested s.slotBegun before, hrot, ?_, ?_⟩
  · rw [hsplit, List.foldl_append, List.foldl_cons, ← hone]
    exact s.foldl_slotOf_tested _ behind
  · rw [hsplit, List.foldl_append, List.foldl_cons, ← hone]
    exact s.foldl_slotOf_sameTests _ hbehind

theorem State.slotEnded_engine (t : State) (k e : Nat) : t.slotEnded.engine k e = t.engine k e := rfl

/-! ### The end of a self-test -/

theorem State.logE_pattern (s : State) (cls detail : Nat) (sr : BitVec 16) (param : Nat) (mirror : Bool) :
    (s.logE cls detail sr param mirror).log.pattern = s.log.pattern := by
  have hcount : ∀ t : State, (t.countLog 3).log.pattern = t.log.pattern := by
    intro t
    unfold State.countLog
    dsimp only
    rw [State.satEvent_log]
    rfl
  have happend : (s.appendLog cls detail sr param).log.pattern = s.log.pattern := by
    unfold State.appendLog
    dsimp only
    split
    · exact hcount _
    · rfl
  unfold State.logE
  cases s.mergeInto cls detail sr with
  | some q => rfl
  | none =>
    cases mirror
    · exact happend
    · simp only [if_true, State.event_log]
      exact happend

theorem State.logE_entries_of_neverMerged (s : State) {cls : Nat} (h : neverMerged cls = true) (detail : Nat) (sr : BitVec 16) (param : Nat)
    (mirror : Bool) : (s.logE cls detail sr param mirror).log.entries = (s.appendLog cls detail sr param).log.entries := by
  unfold State.logE State.mergeInto
  simp only [h, if_true]
  split
  · exact congrArg Log.entries (State.event_log _ _ _ _ _ _)
  · rfl

/-- The newest entry stays when another one is appended. -/
theorem State.appendLog_keeps {s : State} {l : List (Nat × LogEntry)} {e : Nat × LogEntry} (h : s.log.entries = l ++ [e]) (cls detail : Nat)
    (sr : BitVec 16) (param : Nat) : e ∈ (s.appendLog cls detail sr param).log.entries := by
  rw [(s.appendLog_log cls detail sr param).1]
  refine List.mem_append_left _ ?_
  rw [h]
  split
  · cases l with
    | nil => simp_all
    | cons x l => simp
  · simp

/-- An entry that never merges stays when another such entry is written right behind it. -/
theorem State.logE_behind_logged {s u : State} {cls detail param : Nat} {sr : BitVec 16} {mirror : Bool}
    (hu : u.log.entries = (s.logE cls detail sr param mirror).log.entries) (hcls : neverMerged cls = true) {cls' : Nat}
    (hcls' : neverMerged cls' = true) (detail' : Nat) (sr' : BitVec 16) (param' : Nat) (mirror' : Bool) :
    (u.logE cls' detail' sr' param' mirror').logged cls detail sr := by
  have hlast : u.log.entries = s.log.entriesWith (s.logEntry cls detail sr param) :=
    hu.trans ((s.logE_entries_of_neverMerged hcls detail sr param mirror).trans (s.appendLog_log cls detail sr param).1)
  have hkept := State.appendLog_keeps hlast cls' detail' sr' param'
  rw [← u.logE_entries_of_neverMerged hcls' detail' sr' param' mirror'] at hkept
  exact ⟨_, hkept, rfl, rfl, rfl⟩

/-- A suspected engine counts once more, and the entry of its class stays though a quarantine may write another. -/
theorem State.suspectEngine_spec (s : State) {cls : Nat} (hcls : neverMerged cls = true) (k e op outcome other : Nat) :
    (s.suspectEngine cls k e op outcome other).engine k e = { s.engine k e with suspect := min 15 ((s.engine k e).suspect + 1) }
      ∧ (s.suspectEngine cls k e op outcome other).logged cls 0 (srcK k)
      ∧ (s.suspectEngine cls k e op outcome other).log.pattern = s.log.pattern := by
  have hlogged : ∀ (t : State) (c d : Nat) (r : BitVec 16) (p : Nat) (m : Bool), (t.logE c d r p m).engine k e = t.engine k e := by
    intro t c d r p m
    have hcpu : (t.logE c d r p m).cpu = t.cpu := State.logE_changesOnly t c d r p m .cpu (by decide)
    unfold State.engine State.core
    rw [hcpu]
  have hraised : ∀ p, ((s.onEngine k e (fun x => { x with suspect := min 15 (x.suspect + 1) })).logE cls 0 (srcK k) p).engine k e
      = { s.engine k e with suspect := min 15 ((s.engine k e).suspect + 1) } := fun p =>
    (hlogged _ _ _ _ _ _).trans (State.engine_onEngine_same _ _ _ _)
  unfold State.suspectEngine
  dsimp only
  split
  · refine ⟨?_, ?_, (State.logE_pattern _ _ _ _ _ _).trans (State.logE_pattern _ _ _ _ _ _)⟩
    · rw [hlogged, ← hraised]
      refine State.engine_of_engines ?_
      rw [State.core_onCore_same]
    · have hquar : neverMerged 0x10 = true := by decide
      have hkept (t : State) (f : Core → Core) : (t.onCore k f).log.entries = t.log.entries := rfl
      exact State.logE_behind_logged (hkept _ _) hcls hquar _ _ _ _
  · exact ⟨hraised _, State.logE_logged _ _ _ _ _ _, State.logE_pattern _ _ _ _ _ _⟩

theorem execSelfTestComplete_one {s : State} {cluster : BitVec 7} {r : Nat} (mismatch : Bool) (halive : s.alive = true)
    (h : Table.read [] s.log.testing cluster.toNat = [r]) :
    exec (.selfTestComplete cluster mismatch) s = .next ((s.testEnd cluster.toNat r mismatch).testNext cluster.toNat []) := by
  refine congrArg Host.Outcome.next ((if_neg (by rw [halive]; decide)).trans ?_)
  rw [h]

/-- The state in which a window of the patrol applies what it has found. -/
def State.scrubBegun (s : State) : State := { (s.paid 3) with tim := { (s.paid 3).tim with lastScrub := s.now } }

theorem State.scrubBegun_only (s : State) : s.changesOnly s.scrubBegun [.tim] := (only_refl s [.tim]).tim (by decide) _

theorem execScrubWindow_due {s : State} (halive : s.alive = true) (hdue : s.periodDue 3 = true) (hturn : s.inTurn 3 (s.periodAt 3) = true)
    (hits : List EccHit) : exec (.scrubWindow hits) s = .next (s.scrubBegun.applyHits hits) := by
  refine congrArg Host.Outcome.next (if_pos ?_)
  unfold State.patrolDue
  rw [halive, hdue, hturn]
  rfl

theorem State.applyHits_corrected (s : State) {h : EccHit} (hsome : 1 ≤ h.symbols.toNat) (hfew : h.symbols.toNat ≤ 2) :
    s.applyHits [h] = s.corrected h := by
  have hne : h.symbols ≠ 0 := fun hz => by simp [hz] at hsome
  exact (if_neg hne).trans (if_pos hfew)

theorem State.applyHits_uncorrectable (s : State) {h : EccHit} (hsome : 3 ≤ h.symbols.toNat) (hfew : h.symbols.toNat ≤ 4) :
    s.applyHits [h] = s.uncorrectable h := by
  have hne : h.symbols ≠ 0 := fun hz => by simp [hz] at hsome
  exact (if_neg hne).trans ((if_neg (by omega)).trans (if_pos hfew))

/-- The engines that a cluster has under test, and those still to come. -/
def State.listed (s : State) (cl : Nat) (l : List Nat) : State := { s with log := { s.log with testing := Table.write [] s.log.testing cl l } }

theorem State.listed_testing (s : State) (cl : Nat) (l : List Nat) : Table.read [] (s.listed cl l).log.testing cl = l :=
  Table.read_write_same _ _ _ _

theorem State.listed_engine (s : State) (cl : Nat) (l : List Nat) (k e : Nat) : (s.listed cl l).engine k e = s.engine k e := rfl

theorem State.turned_engine (s : State) (cl k e : Nat) : (s.turned cl).engine k e = s.engine k e := rfl

theorem State.turned_skipped (s : State) (cl : Nat) : Table.read [] (s.turned cl).log.skipped cl = [] :=
  Table.read_write_same [] s.log.skipped cl []

theorem State.turned_rotation (s : State) (cl : Nat) :
    Table.read 0 (s.turned cl).log.rotation cl = (Table.read 0 s.log.rotation cl + 1) % 32 := Table.read_write_same _ _ _ _

/-- With no engine left to test, only the list of the engines under test changes. -/
theorem State.testNext_nil (s : State) (cl : Nat) : s.testNext cl [] = s.listed cl [] := rfl

theorem State.testNext_free {s : State} {cl r : Nat} (h : (s.engine (rotationAt cl r).1 (rotationAt cl r).2).queue = []) :
    s.testNext cl [r] = (s.onEngine (rotationAt cl r).1 (rotationAt cl r).2 (fun x => { x with testing := true })).listed cl [r] := by
  unfold State.testNext
  dsimp only
  rw [h]
  rfl

/-- An engine is left out of this slot. -/
def State.passedOver (s : State) (cl r : Nat) : State :=
  { s with log := { s.log with skipped := Table.write [] s.log.skipped cl (Table.read [] s.log.skipped cl ++ [r]) } }

theorem State.passedOver_engine (s : State) (cl r k e : Nat) : (s.passedOver cl r).engine k e = s.engine k e := rfl

theorem State.testNext_busy {s : State} {cl r : Nat} (h : (s.engine (rotationAt cl r).1 (rotationAt cl r).2).queue ≠ []) :
    s.testNext cl [r] = (s.passedOver cl r).listed cl [] := by
  unfold State.testNext
  dsimp only
  rw [if_pos (by simpa using h)]
  rfl

/-- The last pattern that a cluster has run. -/
def State.patterned (s : State) (cl p : Nat) : State := { s with log := { s.log with pattern := Table.write 0 s.log.pattern cl p } }

/-- A test of the engine at place `r` of a cluster's rotation has ended, with pattern `p`. -/
def State.patternDone (s : State) (cl r p : Nat) : State :=
  (s.onEngine (rotationAt cl r).1 (rotationAt cl r).2 (fun x => { x with testing := false })).patterned cl p

theorem State.patternDone_engine (s : State) (cl r p : Nat) : (s.patternDone cl r p).engine (rotationAt cl r).1 (rotationAt cl r).2
    = { s.engine (rotationAt cl r).1 (rotationAt cl r).2 with testing := false } :=
  s.engine_onEngine_same (rotationAt cl r).1 (rotationAt cl r).2 (fun x => { x with testing := false })

theorem State.testEnd_next {s : State} {cl r p : Nat} (hp : nextPattern s.log.patEn (Table.read 0 s.log.pattern cl) (rotationAt cl r).2 = some p)
    (mismatch : Bool) : s.testEnd cl r mismatch =
      if mismatch then (s.patternDone cl r p).suspectEngine 0x0F (rotationAt cl r).1 (rotationAt cl r).2 p 3 0xFFFF else s.patternDone cl r p := by
  have hnext : nextPattern (s.onEngine (rotationAt cl r).1 (rotationAt cl r).2 (fun x => { x with testing := false })).log.patEn
      (Table.read 0 (s.onEngine (rotationAt cl r).1 (rotationAt cl r).2 (fun x => { x with testing := false })).log.pattern cl)
      (rotationAt cl r).2 = some p := hp
  unfold State.testEnd
  dsimp only
  rw [hnext]
  rfl

/-! ### O49 -/

/-- Settles O49: a sample, a window or a slot changes the records it names, and what it logs stays in the log. -/
theorem diesAreWatched : Obligations.DiesAreWatched := by
  unfold Obligations.DiesAreWatched
  refine ⟨?cool, ?throttle, ?hot, ?early, ?escalate, ?calm, ?decay, ?quiet, ?corrected, ?poisoned, ?slot, ?skip, ?undue, ?agree, ?mismatch⟩
  case cool =>
    intro s site temp vdd hon _ hdue hcool hlevel
    obtain ⟨w, hdie, honly⟩ := (s.onDie site.toNat (fun _ => s.sampled site.toNat temp vdd)).warnDie_spec site.toNat temp.toInt
    have hset := s.onDie_dieIs site.toNat (fun _ => s.sampled site.toNat temp vdd)
    have hput := s.onDie_changesOnly site.toNat (fun _ => s.sampled site.toNat temp vdd)
    have hall := (hput.mono (by decide)).trans honly
    rw [hset.1] at hdie
    have hexec := execThermalSample_takes (vdd := vdd) (temp := temp) hon hdue
    rw [State.sampled_cool s site.toNat vdd hcool] at hexec
    refine ⟨_, hexec.trans (congrArg Host.Outcome.next ((if_neg (by decide)).trans (if_neg ?_))), ?_, ?_, ?_, ?_, ?_, ?_, ?_, hall⟩
    · rintro ⟨hzero, hwarm⟩
      exact hlevel.elim (fun h => h hzero) (fun h => absurd hwarm (not_le.2 h))
    · rw [hdie.1]
      rfl
    · rw [hdie.1]
      rfl
    · rw [hdie.1]
      rfl
    · rw [hdie.1]
      exact State.sampled_cool s site.toNat vdd hcool
    · rw [hdie.1]
      rfl
    · exact fun i hi => (hdie.2 i hi).trans (hset.2 i hi)
    · exact hall .mod (by decide)
  case throttle =>
    intro s site temp vdd hon _ hdue hcool hzero hwarm
    obtain ⟨w, hdie, honly⟩ := (s.onDie site.toNat (fun _ => s.sampled site.toNat temp vdd)).warnDie_spec site.toNat temp.toInt
    have hset := s.onDie_dieIs site.toNat (fun _ => s.sampled site.toNat temp vdd)
    have hput := (s.onDie_changesOnly site.toNat (fun _ => s.sampled site.toNat temp vdd)).mono (qs := [.log, .evq, .adk]) (by decide)
    have hwarned := hput.trans honly
    rw [hset.1] at hdie
    have hnow : (((s.onDie site.toNat (fun _ => s.sampled site.toNat temp vdd)).warnDie site.toNat temp.toInt)).now = s.now :=
      congrArg Tim.ft (hwarned .tim (by decide))
    obtain ⟨hlevel, hlogged, hlast⟩ := ((s.onDie site.toNat (fun _ => s.sampled site.toNat temp vdd)).warnDie site.toNat temp.toInt).levelTo_spec
      site.toNat 1 (fun d => { d with levelAt := ((s.onDie site.toNat (fun _ => s.sampled site.toNat temp vdd)).warnDie site.toNat temp.toInt).now })
    have hall := hwarned.trans hlast
    rw [hdie.1, hnow] at hlevel
    have hexec := execThermalSample_takes (vdd := vdd) (temp := temp) hon hdue
    rw [State.sampled_cool s site.toNat vdd hcool] at hexec
    refine ⟨_, hexec.trans (congrArg Host.Outcome.next ((if_neg (by decide)).trans (if_pos ⟨hzero, hwarm⟩))), ?_, ?_, ?_, ?_, ?_, ?_, hall⟩
    · rw [hnow, hlevel.1]
      rfl
    · rw [hnow, hlevel.1]
      rfl
    · rw [hnow, hlevel.1]
    · rw [hnow]
      exact fun i hi => (hlevel.2 i hi).trans ((hdie.2 i hi).trans (hset.2 i hi))
    · exact hall .mod (by decide)
    · obtain ⟨x, hx, hcls, hdetail, hsrc⟩ := hlogged
      exact ⟨x, hx, hcls, hdetail, hsrc.trans (State.dieSrc_of_only hwarned (by decide) _)⟩
  case hot =>
    intro s site temp vdd hon hhalt hdue hhot hrun
    have hset := s.onDie_dieIs site.toNat (fun _ => s.sampled site.toNat temp vdd)
    have hput := s.onDie_changesOnly site.toNat (fun _ => s.sampled site.toNat temp vdd)
    have halive : (s.onDie site.toNat (fun _ => s.sampled site.toNat temp vdd)).alive = true := by
      rw [State.alive_of_only hput (by decide), State.alive, Bool.and_eq_true, bne_iff_ne, bne_iff_ne]
      exact ⟨hon, hhalt⟩
    have htwice : 2 ≤ (s.sampled site.toNat temp vdd).hotRun := by
      have : (s.sampled site.toNat temp vdd).hotRun = min 2 ((s.die site.toNat).hotRun + 1) := if_pos hhot
      omega
    obtain ⟨hstate, hcause⟩ := State.enterHalt_mod halive 0x0D
    obtain ⟨hdies, hcap⟩ := (s.onDie site.toNat (fun _ => s.sampled site.toNat temp vdd)).enterHalt_keeps 0x0D
    obtain ⟨htim, -⟩ := (s.onDie site.toNat (fun _ => s.sampled site.toNat temp vdd)).enterHalt_frame 0x0D
    refine ⟨_, (execThermalSample_takes hon hdue).trans (congrArg Host.Outcome.next (if_pos htwice)), hstate, hcause, ?_,
      htim.trans (hput .tim (by decide)), hcap⟩
    rw [(hset.of_dies hdies).1]
    rfl
  case early =>
    intro s site temp vdd hset hearly
    exact congrArg Host.Outcome.next (if_pos (.inr ⟨hset, hearly⟩))
  case escalate =>
    intro s site hon hlevel hhot hlong
    obtain ⟨hdie, hlogged, honly⟩ := s.levelTo_spec site.toNat 2 id
    refine ⟨_, congrArg Host.Outcome.next (if_pos ⟨hon, hlevel, hhot, hlong⟩), hdie.1, hdie.2, hlogged, honly⟩
  case calm =>
    intro s site hcalm
    exact congrArg Host.Outcome.next (if_neg fun h => absurd h.2.2.1 (not_le.2 hcalm))
  case decay =>
    intro s site hon hlevel hlong
    obtain ⟨hdie, hlogged, honly⟩ := s.levelTo_spec site.toNat ((s.die site.toNat).level.toNat - 1) (fun d => { d with hotAt := s.now, levelAt := s.now })
    refine ⟨_, congrArg Host.Outcome.next (if_pos ⟨hon, hlevel, hlong⟩), ?_, ?_, hdie.2, hlogged, honly⟩
    · rw [hdie.1]
      have := (s.die site.toNat).level.isLt
      exact Nat.mod_eq_of_lt (by omega)
    · rw [hdie.1]
  case quiet =>
    intro s halive hdue hturn
    exact ⟨_, execScrubWindow_due halive hdue hturn [], rfl, State.scrubBegun_only s⟩
  case corrected =>
    intro s h halive hdue hturn hsome hfew hsmall
    have hexec := execScrubWindow_due halive hdue hturn [h]
    rw [State.applyHits_corrected _ hsome hfew] at hexec
    have hcorrected : s.scrubBegun.changesOnly (s.scrubBegun.corrected h) [.log, .adk, .evq] :=
      State.corrected_only _ h (only_refl _ _) (List.Subset.refl _)
    have hall : s.changesOnly (s.scrubBegun.corrected h) [.tim, .log, .evq, .adk] :=
      (s.scrubBegun_only.mono (by decide)).trans (hcorrected.mono (by decide))
    exact ⟨_, hexec, State.corrected_cntCe h hsmall, hall .tier (by decide), hall .ext (by decide), hall .cpu (by decide),
      hall .mod (by decide), hall⟩
  case poisoned =>
    intro s h halive hdue hturn hsome hfew hwhat hsmall
    have hexec := execScrubWindow_due halive hdue hturn [h]
    rw [State.applyHits_uncorrectable _ hsome hfew, State.uncorrectable_line (s := s.scrubBegun) hwhat hsmall] at hexec
    have hpoisoned : s.changesOnly (({ s.scrubBegun with log := { s.scrubBegun.log with cntUe := s.scrubBegun.log.cntUe + 1 } }).poisonLine h.index)
        [.tim, .req, .tier, .sec, .log, .adk, .evq] :=
      (s.scrubBegun_only.mono (by decide)).trans
        (State.poisonLine_only _ h.index ((only_refl s.scrubBegun _).log (by decide) _) (by decide))
    refine ⟨_, hexec, (State.poisonLine_counts _ _).2, ?_, hpoisoned .mod (by decide), hpoisoned .cpu (by decide)⟩
    rw [State.poisonLine_linePoison, if_pos rfl]
  case slot =>
    intro s cl halive hdue hturn hen hpass hcl hup htesting hskipped hempty
    obtain ⟨u, v, hexec, htim, htested, hrot, hafter, hlisted, -, hturned⟩ :=
      execSelfTestSlot_at halive hdue hturn hcl hen hpass hup htesting hskipped
    rw [hrot, State.testNext_free (s := u.turned cl) ((htested.queue _ _).trans hempty)] at hafter hlisted hturned
    have hlist : Table.read [] v.log.testing cl = [Table.read 0 s.log.rotation cl % 32] :=
      hlisted.trans (State.listed_testing _ _ _)
    refine ⟨_, hexec, hlist, hafter.testing ?_, ?_, htim, exec_only .selfTestSlot s _ hexec⟩
    · rw [State.listed_engine, State.engine_onEngine_same]
    · exact hturned.trans ((u.turned_rotation cl).trans (by rw [hrot]))
  case skip =>
    intro s cl halive hdue hturn hen hpass hcl hup htesting hskipped hbusy
    obtain ⟨u, v, hexec, htim, htested, hrot, hafter, hlisted, hkept, hturned⟩ :=
      execSelfTestSlot_at halive hdue hturn hcl hen hpass hup htesting hskipped
    have hsame := htested.busy hbusy
    rw [hrot, State.testNext_busy (s := u.turned cl) (by rw [State.turned_engine, hsame]; exact hbusy)] at hafter hlisted hkept hturned
    have hlist : Table.read [] v.log.testing cl = [] := hlisted.trans (State.listed_testing _ _ _)
    refine ⟨_, hexec, hlist, hkept.trans ?_, ?_, ?_, htim, exec_only .selfTestSlot s _ hexec⟩
    · refine (Table.read_write_same [] (u.turned cl).log.skipped cl _).trans ?_
      rw [State.turned_skipped]
      rfl
    · refine (hafter.busy ?_).trans ?_
      · rw [State.listed_engine, State.passedOver_engine, State.turned_engine, hsame]
        exact hbusy
      · rw [State.listed_engine, State.passedOver_engine, State.turned_engine, hsame]
    · exact hturned.trans ((u.turned_rotation cl).trans (by rw [hrot]))
  case undue =>
    intro s h
    refine congrArg Host.Outcome.next (if_pos ?_)
    rw [h, Bool.false_and, Bool.not_false, Bool.or_true]
  case agree =>
    intro s cluster r p halive htesting _ hp
    have hexec := execSelfTestComplete_one false halive htesting
    have hengine := s.patternDone_engine cluster.toNat r p
    have honly : s.changesOnly ((s.patternDone cluster.toNat r p).testNext cluster.toNat []) [.cpu, .log] :=
      ((State.onEngine_only s _ _ _ (only_refl s _) (by decide)).log (by decide) _).log (by decide) _
    rw [State.testEnd_next hp, if_neg (by decide), State.testNext_nil] at hexec
    refine ⟨_, hexec, State.listed_testing _ _ _, Table.read_write_same 0 s.log.pattern cluster.toNat p, ?_, ?_, ?_, rfl, rfl, honly⟩
    · rw [State.listed_engine, hengine]
    · rw [State.listed_engine, hengine]
    · rw [State.listed_engine, hengine]
  case mismatch =>
    intro s cluster r p halive htesting _ hp
    have hexec := execSelfTestComplete_one true halive htesting
    have hengine := s.patternDone_engine cluster.toNat r p
    obtain ⟨hsuspect, ⟨x, hx, hcls, -, hsrc⟩, hpattern⟩ := (s.patternDone cluster.toNat r p).suspectEngine_spec (cls := 0x0F) (by decide)
      (rotationAt cluster.toNat r).1 (rotationAt cluster.toNat r).2 p 3 0xFFFF
    rw [hengine] at hsuspect
    rw [State.testEnd_next hp, if_pos rfl, State.testNext_nil] at hexec
    have honly : s.changesOnly (((s.patternDone cluster.toNat r p).suspectEngine 0x0F (rotationAt cluster.toNat r).1
        (rotationAt cluster.toNat r).2 p 3 0xFFFF).testNext cluster.toNat []) [.cpu, .log, .evq, .adk] :=
      (State.suspectEngine_only _ _ _ _ _ _ _ ((State.onEngine_only s _ _ _ (only_refl s _) (by decide)).log (by decide) _) (by decide)).log (by decide) _
    refine ⟨_, hexec, State.listed_testing _ _ _, ?_, ?_, ?_, ⟨x, hx, hcls, hsrc⟩, honly⟩
    · exact (congrArg (fun t => Table.read 0 t cluster.toNat) hpattern).trans (Table.read_write_same 0 s.log.pattern cluster.toNat p)
    · rw [State.listed_engine, hsuspect]
    · rw [State.listed_engine, hsuspect]

end Sys2Proof.Machine
end

section
/-! SUPPORT. Fences, held requests and the timers of requests (R88, R96, R100): what waits, what is answered, and that an answer on
its way and an event that is recorded stay while other frames are sent. -/

namespace Sys2Proof.Machine

/-! ### Queues and events only grow while frames are sent -/

/-- From `s` to `t` the queues of the ports and the event queue have kept what they hold, in order, and no port has changed its bundle. -/
structure State.grown (s t : State) : Prop where
  fifos : ∀ p q vc, ∃ l, (t.queue p q).fifo vc = (s.queue p q).fifo vc ++ l
  events : ∃ l, t.evq.queue = s.evq.queue ++ l
  base : ∀ p, t.base p = s.base p

theorem State.grown.refl (s : State) : s.grown s := ⟨fun _ _ _ => ⟨[], (List.append_nil _).symm⟩, ⟨[], (List.append_nil _).symm⟩, fun _ => rfl⟩

theorem State.grown.trans {s t u : State} (h : s.grown t) (h' : t.grown u) : s.grown u := by
  refine ⟨fun p q vc => ?_, ?_, fun p => (h'.base p).trans (h.base p)⟩
  · obtain ⟨l, hl⟩ := h.fifos p q vc
    obtain ⟨m, hm⟩ := h'.fifos p q vc
    exact ⟨l ++ m, by rw [hm, hl, List.append_assoc]⟩
  · obtain ⟨l, hl⟩ := h.events
    obtain ⟨m, hm⟩ := h'.events
    exact ⟨l ++ m, by rw [hm, hl, List.append_assoc]⟩

theorem State.grown_of_ports {s t : State} (hports : t.ports = s.ports) (hevents : ∃ l, t.evq.queue = s.evq.queue ++ l) : s.grown t := by
  refine ⟨fun p q vc => ⟨[], ?_⟩, hevents, fun p => ?_⟩
  · rw [List.append_nil, State.queue, State.port, hports]
    rfl
  · rw [State.base, State.link, State.port, hports]
    rfl

/-- Steps that leave the ports and the events alone. -/
theorem State.grown_of_only {s t : State} {ps : List Part} (h : s.changesOnly t ps) (hports : Part.ports ∉ ps) (hevq : Part.evq ∉ ps) : s.grown t := by
  have hq : t.evq = s.evq := h .evq hevq
  exact State.grown_of_ports (h .ports hports) ⟨[], by rw [hq, List.append_nil]⟩

theorem State.noteLost_events (s : State) : ∃ l, s.noteLost.evq.queue = s.evq.queue ++ l := by
  unfold State.noteLost
  split
  · exact ⟨[], (List.append_nil _).symm⟩
  · exact ⟨_, rfl⟩

theorem State.event_grown (s : State) (code detail : Nat) (sr : BitVec 16) (param logSeq : Nat) : s.grown (s.event code detail sr param logSeq) := by
  refine State.grown_of_ports (State.event_ports _ _ _ _ _ _) ?_
  obtain ⟨l, hl⟩ := s.noteLost_events
  unfold State.event
  split
  · exact ⟨[], (List.append_nil _).symm⟩
  · dsimp only
    split
    · exact ⟨l, hl⟩
    · exact ⟨l ++ [_], by rw [hl, List.append_assoc]⟩

theorem State.satEvent_grown (s : State) (just : Bool) (i : Nat) (sr : BitVec 16) (addr : Nat) : s.grown (s.satEvent just i sr addr) := by
  unfold State.satEvent
  split
  · exact s.event_grown _ _ _ _ _
  · exact State.grown.refl s

/-- The traffic part of a port changes, and its queues hold at least what they held. -/
theorem State.onTc_grown (s : State) (p : Nat) (f : Traffic → Traffic)
    (h : ∀ q vc, ∃ l, (Table.read {} (f (s.port p).tc).queues q).fifo vc = (s.queue p q).fifo vc ++ l) : s.grown (s.onTc p f) := by
  refine ⟨fun p' q vc => ?_, ⟨[], (List.append_nil _).symm⟩, fun p' => ?_⟩
  · by_cases hp : p' = p
    · subst hp
      have hport : (s.onTc p' f).port p' = { s.port p' with tc := f (s.port p').tc } := Table.read_write_same _ _ _ _
      rw [State.queue, hport]
      exact h q vc
    · have hport : (s.onTc p f).port p' = s.port p' := Table.read_write_other _ _ _ hp
      rw [State.queue, hport]
      exact ⟨[], (List.append_nil _).symm⟩
  · have hlink : (s.onTc p f).link p' = s.link p' := by
      by_cases hp : p' = p
      · subst hp
        have hport : (s.onTc p' f).port p' = { s.port p' with tc := f (s.port p').tc } := Table.read_write_same _ _ _ _
        rw [State.link, hport]
        rfl
      · exact congrArg Port.link (Table.read_write_other _ _ _ hp)
    rw [State.base, hlink]
    rfl

theorem State.onQueue_grown (s : State) (p q : Nat) (f : Queue → Queue) (h : ∀ vc, ∃ l, (f (s.queue p q)).fifo vc = (s.queue p q).fifo vc ++ l) :
    s.grown (s.onQueue p q f) := by
  refine s.onTc_grown p _ fun q' vc => ?_
  dsimp only
  rw [Table.read_write]
  split
  case isTrue hq =>
    subst hq
    exact h vc
  case isFalse => exact ⟨[], (List.append_nil _).symm⟩

theorem State.countQue_grown (s : State) (p q i n : Nat) : s.grown (s.countQue p q i n) := by
  have hcounted : s.grown (s.onQueue p q (fun l => l.counted i n)) := s.onQueue_grown p q _ fun vc =>
    ⟨[], by rw [List.append_nil, Queue.fifo, Queue.counted_fifos]; rfl⟩
  exact hcounted.trans (State.satEvent_grown _ _ _ _ _)

theorem State.onLink_grown (s : State) (p : Nat) (f : Link → Link) (h : (f (s.link p)).bundleOff = (s.link p).bundleOff) : s.grown (s.onLink p f) := by
  have hport : ∀ p', (s.onLink p f).port p' = if p' = p then { s.port p with link := f (s.link p) } else s.port p' := fun p' =>
    Table.read_write _ _ _ _ _
  refine ⟨fun p' q vc => ⟨[], ?_⟩, ⟨[], (List.append_nil _).symm⟩, fun p' => ?_⟩
  · rw [List.append_nil, State.queue, hport]
    split
    case isTrue hp => rw [hp]; rfl
    case isFalse => rfl
  · rw [State.base, State.link, hport]
    split
    case isTrue hp => rw [hp]; exact congrArg (fun x : BitVec _ => p - x.toNat) h
    case isFalse => rfl

theorem State.enqueue_grown (s : State) (p : Nat) (o : Option Nat) (x : QFrame) : s.grown (s.enqueue p o x) := by
  by_cases hvc : x.frame.vc = 6
  · rw [State.enqueue_vc6 s p o hvc]
    exact s.onTc_grown p _ fun q vc => ⟨[], (List.append_nil _).symm⟩
  · rw [State.enqueue_of_not_vc6 s p o hvc]
    have hjoined : s.grown (s.onQueue p (s.queueOf p o x.frame) (fun q => q.joined x s.now)) := by
      refine s.onQueue_grown p _ _ fun vc => ?_
      unfold Queue.joined Queue.fifo
      dsimp only
      rw [Table.read_write]
      split
      case isTrue h =>
        subst h
        exact ⟨_, rfl⟩
      case isFalse => exact ⟨[], (List.append_nil _).symm⟩
    dsimp only
    split
    · exact hjoined.trans (State.countQue_grown _ _ _ _ _)
    · exact hjoined

theorem State.sendFrom_grown (s : State) (site p : Nat) (o : Option Nat) (x : QFrame) : s.grown (s.sendFrom site p o x) := by
  unfold State.sendFrom
  dsimp only
  split
  · exact s.enqueue_grown _ _ _
  · exact State.grown_of_ports rfl ⟨[], (List.append_nil _).symm⟩

theorem State.inFifo.grown {s t : State} {b : Nat} {f : Frame} (h : s.inFifo b f) (hg : s.grown t) : t.inFifo b f := by
  obtain ⟨q, vc, x, hx, hf⟩ := h
  obtain ⟨l, hl⟩ := hg.fifos b q vc
  exact ⟨q, vc, x, by rw [hl]; exact List.mem_append_left _ hx, hf⟩

/-! ### A target is dead (R87, R88) -/

theorem State.countDead_grown (s : State) (p : Nat) (st : BitVec 6) : s.grown (s.countDead p st) := by
  unfold State.countDead
  split
  · exact (s.onLink_grown (s.base p) _ rfl).trans (State.satEvent_grown _ _ _ _ _)
  · exact State.grown.refl s

theorem State.emitOut_port_grown (s : State) (n p : Nat) {x : QFrame} (hst : x.frame.status ≠ stMalformed) : s.grown (s.emitOut n (.port p) x) := by
  have hlot : (s.countDead p x.frame.status).lotStatus p x.frame.status = s.countDead p x.frame.status := if_neg hst
  unfold State.emitOut
  dsimp only
  rw [hlot]
  exact (s.countDead_grown p _).trans (State.enqueue_grown _ _ _ _)

theorem State.emitOut_port_inFifo (s : State) (n p : Nat) {x : QFrame} (hvc : x.frame.vc ≠ 6) (hce : x.frame.clear flCe = x.frame) :
    (s.emitOut n (.port p) x).inFifo (s.base p) x.frame := State.enqueue_inFifo _ _ _ hvc hce

theorem State.emitOut_port_only (s : State) (n p : Nat) {x : QFrame} (hst : x.frame.status ≠ stMalformed) :
    s.changesOnly (s.emitOut n (.port p) x) [.ports, .adk, .evq] := by
  have hlot : (s.countDead p x.frame.status).lotStatus p x.frame.status = s.countDead p x.frame.status := if_neg hst
  unfold State.emitOut
  dsimp only
  rw [hlot]
  exact State.enqueue_only _ _ _ _ (State.countDead_only s p _ (only_refl s _) (List.Subset.refl _)) (by decide)

/-- A notice of VC6 raises no event. -/
theorem State.notice_events (s : State) (u : BitVec 16) {f : Frame} (hvc : f.vc = 6) : (s.notice u f).evq = s.evq := by
  have hsent : ∀ site p, (s.sendFrom site p none { frame := f }).evq = s.evq := by
    intro site p
    unfold State.sendFrom
    dsimp only
    split
    · rw [State.enqueue_vc6 s _ none hvc]
      rfl
    · rfl
  unfold State.notice
  split
  · split
    · exact hsent _ _
    · rfl
  · split
    · exact hsent _ _
    · rfl
  · rfl

theorem State.notice_grown (s : State) (u : BitVec 16) (f : Frame) : s.grown (s.notice u f) := by
  unfold State.notice
  split
  · split
    · exact s.sendFrom_grown _ _ _ _
    · exact State.grown.refl s
  · split
    · exact s.sendFrom_grown _ _ _ _
    · exact State.grown.refl s
  · exact State.grown.refl s

theorem State.trayHeld_grown (s : State) (p : Nat) : s.grown (s.trayHeld p) := by
  unfold State.trayHeld
  split
  · split
    · refine State.grown.trans ?_ ((State.onLink_grown _ _ _ ?_).trans (State.sendFrom_grown _ _ _ _ _))
      · exact State.grown_of_ports rfl ⟨[], (List.append_nil _).symm⟩
      · rfl
    · exact State.grown.refl s
  · exact State.grown.refl s

theorem State.subHeld_grown (s : State) (p : Nat) : s.grown (s.subHeld p) := by
  unfold State.subHeld
  split
  · split
    · split
      · refine State.grown.trans ?_ ((State.onLink_grown _ _ _ ?_).trans (State.sendFrom_grown _ _ _ _ _))
        · exact State.grown_of_ports rfl ⟨[], (List.append_nil _).symm⟩
        · rfl
      · exact State.grown.refl s
    · exact State.grown.refl s
  · exact State.grown.refl s

/-- Sending what waited for a tag changes no tray operation's page but its own record. -/
theorem State.trayHeld_tier (s : State) (p : Nat) : (s.trayHeld p).tier = { s.tier with reqs := (s.trayHeld p).tier.reqs } := by
  have hframe : ∀ (t : State) (a b : Nat) (g : BitVec 13) (f : Frame), (t.trayFrame a b g f).tier = t.tier := fun t a b g f =>
    State.trayFrame_only t a b g f (only_refl t [.ports, .pkg, .adk, .evq]) (by decide) .tier (by decide)
  unfold State.trayHeld
  split
  · split
    · rw [hframe]
    · rfl
  · rfl

/-- The death of the target of one request of a port that is no store: a notice, the event, the answer, and what waited for its tag. -/
theorem State.targetDeath_one {s : State} {p b : Nat} {r : Req} (hp : p < 256) (horigin : r.origin = .port b) (hreqs : s.req.reqs = [r])
    (hstore : storeClass r.frame.opcode = false) (target : BitVec 16) (stages : Nat) : ∃ f par, f.vc = 6 ∧
      s.targetDeath p 4 target stages [r]
        = (((((s.notice r.frame.src f).event 0x49 4 (srcP p) par).finishOne r stDead).cutTray [r]).tagFree p).wakeStaged := by
  refine ⟨s.faultRec r.frame.src r.frame.tag 4 target.toNat (s.stagesOf p r) r.tva.toNat, target.toNat + stages * 2 ^ 16, rfl, ?_⟩
  have hfound : ∀ par, (((s.notice r.frame.src (s.faultRec r.frame.src r.frame.tag 4 target.toNat (s.stagesOf p r) r.tva.toNat)).event
      0x49 4 (srcP p) par).findReq r.n).isSome = true := by
    intro par
    have hreq : ((s.notice r.frame.src (s.faultRec r.frame.src r.frame.tag 4 target.toNat (s.stagesOf p r) r.tva.toNat)).event
        0x49 4 (srcP p) par).req = s.req :=
      State.event_only _ _ _ _ _ _ (State.notice_only s _ _ (only_refl s [.pkg, .ports, .adk, .evq]) (by decide)) (by decide) .req (by decide)
    unfold State.findReq
    rw [hreq, hreqs]
    simp
  have hunits : [r.frame.src].dedup = [r.frame.src] := (List.nodup_singleton _).dedup
  unfold State.targetDeath
  dsimp only
  simp only [List.filter_cons, List.filter_nil, horigin, if_true, List.map_cons, List.map_nil, hunits, List.foldl_cons, List.foldl_nil, List.find?_cons, beq_self_eq_true, if_pos hp]
  rw [hfound, if_pos rfl]
  unfold State.finish
  rw [hstore]
  rfl

/-- An answer to `f` with a status, on another virtual channel than VC6. -/
def answersWith (f : Frame) (st : BitVec 6) (g : Frame) : Prop := ∃ op vc pl hd, vc ≠ 6 ∧ g = { answer f op vc st pl with handle := hd }

theorem answersWith_answer (f : Frame) (st : BitVec 6) (op : BitVec 8) {vc : BitVec 3} (h : vc ≠ 6) (pl : List Byte) :
    answersWith f st (answer f op vc st pl) := ⟨op, vc, pl, _, h, rfl⟩

theorem answersWith_handle (f : Frame) (st : BitVec 6) (op : BitVec 8) {vc : BitVec 3} (h : vc ≠ 6) (pl : List Byte) (hd : BitVec 24) :
    answersWith f st { answer f op vc st pl with handle := hd } := ⟨op, vc, pl, hd, h, rfl⟩

theorem answersWith_ite {f g g' : Frame} {st : BitVec 6} {c : Prop} [Decidable c] (h : answersWith f st g) (h' : ¬ c → answersWith f st g') :
    answersWith f st (if c then g else g') := by
  split
  case isTrue => exact h
  case isFalse hc => exact h' hc

/-- A completion is an answer; only that to a JOIN goes on VC6. -/
theorem completion_eq {f : Frame} (h : f.opcode ≠ 0x61) (st : BitVec 6) (data : List Byte) : answersWith f st (completion f st data) := by
  have hop : f.opcode.toNat ≠ 0x61 := fun e => h (BitVec.eq_of_toNat_eq e)
  unfold completion
  dsimp only
  refine answersWith_ite (answersWith_answer _ _ _ (by decide) _) fun _ => ?_
  refine answersWith_ite (answersWith_answer _ _ _ (by decide) _) fun _ => ?_
  refine answersWith_ite (answersWith_answer _ _ _ (by decide) _) fun _ => ?_
  refine answersWith_ite (answersWith_answer _ _ _ (by decide) _) fun _ => ?_
  refine answersWith_ite (answersWith_answer _ _ _ (by decide) _) fun _ => ?_
  refine answersWith_ite (answersWith_handle _ _ _ (by decide) _ _) fun _ => ?_
  refine answersWith_ite (answersWith_handle _ _ _ (by decide) _ _) fun _ => ?_
  refine answersWith_ite (answersWith_handle _ _ _ (by decide) _ _) fun _ => ?_
  rw [if_neg hop]
  exact answersWith_answer _ _ _ (by decide) _

theorem completion_status {f : Frame} (h : f.opcode ≠ 0x61) (st : BitVec 6) (data : List Byte) : (completion f st data).status = st := by
  obtain ⟨_, _, _, _, -, heq⟩ := completion_eq h st data
  rw [heq]
  rfl

theorem completion_vc {f : Frame} (h : f.opcode ≠ 0x61) (st : BitVec 6) (data : List Byte) : (completion f st data).vc ≠ 6 := by
  obtain ⟨_, _, _, _, hvc, heq⟩ := completion_eq h st data
  rw [heq]
  exact hvc

/-- A completion echoes a mark, and bears none. -/
theorem completion_unmarked {f : Frame} (h : f.opcode ≠ 0x61) (st : BitVec 6) (data : List Byte) :
    (completion f st data).clear flCe = completion f st data := by
  obtain ⟨op, vc, pl, hd, -, heq⟩ := completion_eq h st data
  have hecho : ∀ b : Bool, (if b then flCeEcho else 0) &&& ~~~flCe = if b then flCeEcho else 0 := by decide
  have hflags : (answer f op vc st pl).flags &&& ~~~flCe = (answer f op vc st pl).flags := hecho (f.has flCe)
  rw [heq]
  unfold Frame.clear
  dsimp only
  rw [hflags]

/-- A request of a port completes: its record is gone, and its answer goes out. -/
theorem State.finishOne_port (s : State) {r : Req} {b : Nat} (horigin : r.origin = .port b) (st : BitVec 6) (data : List Byte) :
    ∃ x : QFrame, x.frame = completion r.frame st data ∧ s.finishOne r st data = (s.dropReq r.n).emitOut r.n (.port b) x := by
  refine ⟨{ frame := completion r.frame st data, elem := if st = stOk then (s.reqElem r) else none,
            cbfAsked := isLoad r.frame.opcode && r.frame.has flCmpr, stores := storeClass r.frame.opcode }, rfl, ?_⟩
  unfold State.finishOne State.finishWith
  rw [horigin]
  rfl

/-- The one request of a port completes: the answer stands in a queue of the port. -/
theorem State.finishOne_answered {s : State} {r : Req} {b : Nat} {st : BitVec 6} (hreqs : s.req.reqs = [r]) (horigin : r.origin = .port b)
    (hbase : s.base b = b) (hop : r.frame.opcode ≠ 0x61) (hst : st ≠ stMalformed) :
    (s.finishOne r st).inFifo b (completion r.frame st []) ∧ (s.finishOne r st).req.reqs = [] ∧ s.grown (s.finishOne r st)
      ∧ s.changesOnly (s.finishOne r st) [.req, .ports, .adk, .evq] := by
  obtain ⟨x, hx, hfinish⟩ := s.finishOne_port horigin st []
  have hxst : x.frame.status ≠ stMalformed := by
    rw [hx, completion_status hop]
    exact hst
  have hout := (s.dropReq r.n).emitOut_port_only r.n b hxst
  have hqueued := (s.dropReq r.n).emitOut_port_inFifo r.n b (x := x) (by rw [hx]; exact completion_vc hop _ _)
    (by rw [hx]; exact completion_unmarked hop _ _)
  have hdropped : (s.dropReq r.n).req.reqs = [] := by
    unfold State.dropReq
    rw [hreqs]
    simp
  have hreq : ((s.dropReq r.n).emitOut r.n (.port b) x).req = (s.dropReq r.n).req := hout .req (by decide)
  have hkept : s.grown (s.dropReq r.n) := State.grown_of_ports rfl ⟨[], (List.append_nil _).symm⟩
  have hdrop : s.changesOnly (s.dropReq r.n) [.req, .ports, .adk, .evq] := State.dropReq_only s r.n (only_refl s _) (by decide)
  have hbase' : (s.dropReq r.n).base b = b := hbase
  rw [hbase', hx] at hqueued
  rw [hfinish]
  exact ⟨hqueued, (congrArg Traffic4.reqs hreq).trans hdropped, hkept.trans ((s.dropReq r.n).emitOut_port_grown r.n b hxst),
    hdrop.trans (hout.mono (by decide))⟩

/-- What waits for a tag is sent: queues and events grow, and of the tiers only the records of the trays' requests change. -/
theorem State.tagFree_keeps (s : State) (p : Nat) : s.grown (s.tagFree p) ∧ (s.tagFree p).req = s.req
    ∧ (s.tagFree p).tier = { s.tier with reqs := (s.tagFree p).tier.reqs } ∧ s.changesOnly (s.tagFree p) [.pkg, .ports, .tier, .atn, .adk, .evq] := by
  have honly := State.tagFree_only s p (only_refl s _) (List.Subset.refl _)
  have hsub : (s.tagFree p).tier = (s.trayHeld p).tier :=
    State.subHeld_only (s.trayHeld p) p (only_refl _ [.pkg, .ports, .atn, .adk, .evq]) (by decide) .tier (by decide)
  refine ⟨(s.trayHeld_grown p).trans ((s.trayHeld p).subHeld_grown p), honly .req (by decide), ?_, honly⟩
  rw [hsub]
  exact s.trayHeld_tier p

/-- A request that came from a port, is no store and was sent out of port `p` is not answered: TARGET_DEAD goes back, with the event. -/
theorem State.unanswered_port {s : State} {r : Req} {p b : Nat} (hreqs : s.req.reqs = [r]) (horigin : r.origin = .port b) (hbase : s.base b = b)
    (hstage : r.stage = .remote p) (hp : p < 256) (hmask : s.evq.mask.getLsbD 0x49 = false) (hroom : s.evq.queue.length < 4090)
    (hlost : s.evq.lost = 0) (hstore : storeClass r.frame.opcode = false) (hop : r.frame.opcode ≠ 0x61) :
    (s.unanswered r).req.reqs = [] ∧ (s.unanswered r).queuedOn b (completion r.frame stDead [])
      ∧ (∃ x ∈ (s.unanswered r).evq.queue, x.code = 0x49 ∧ x.detail = 4 ∧ x.src = srcP p)
      ∧ (s.unanswered r).tier = { s.tier with reqs := (s.unanswered r).tier.reqs } ∧ (s.unanswered r).cpu = s.cpu ∧ (s.unanswered r).coh = s.coh := by
  have hport : s.targetPort r = p := by
    unfold State.targetPort
    rw [hstage]
  have hsame : s.sameTarget r = [r] := by
    unfold State.sameTarget
    rw [hstage, hreqs]
    simp [hstage]
  obtain ⟨f, par, hvc, hdead⟩ := State.targetDeath_one hp horigin hreqs hstore (if s.needsTray r p then (trayUnitId s.comp.run p).getD 0xFFFF else r.frame.dst)
    (s.stagesOf p r)
  have hunanswered : s.unanswered r
      = (((((s.notice r.frame.src f).event 0x49 4 (srcP p) par).finishOne r stDead).cutTray [r]).tagFree p).wakeStaged := by
    unfold State.unanswered
    dsimp only
    rw [hport, hsame]
    exact hdead
  have hdied : s.changesOnly ((s.notice r.frame.src f).event 0x49 4 (srcP p) par) [.pkg, .ports, .adk, .evq] :=
    State.event_only _ _ _ _ _ _ (State.notice_only s _ _ (only_refl s _) (by decide)) (by decide)
  have hgrown := (s.notice_grown r.frame.src f).trans ((s.notice r.frame.src f).event_grown 0x49 4 (srcP p) par 0xFFFFFFFF)
  have hevent : ∃ x ∈ ((s.notice r.frame.src f).event 0x49 4 (srcP p) par).evq.queue, x.code = 0x49 ∧ x.detail = 4 ∧ x.src = srcP p := by
    have hevq := s.notice_events r.frame.src hvc
    rw [State.event_of_room 4 (srcP p) par 0xFFFFFFFF (by rw [hevq]; exact hmask) (by rw [hevq]; exact hlost) (by rw [hevq]; omega)]
    exact ⟨_, List.mem_append_right _ (List.mem_singleton_self _), rfl, rfl, rfl⟩
  generalize (s.notice r.frame.src f).event 0x49 4 (srcP p) par = u at hdied hgrown hevent hunanswered
  have hureqs : u.req.reqs = [r] := (congrArg Traffic4.reqs (hdied .req (by decide) : u.req = s.req)).trans hreqs
  obtain ⟨hqueued, hdropped, hansweredGrown, hansweredOnly⟩ :=
    State.finishOne_answered hureqs horigin ((hgrown.base b).trans hbase) hop (st := stDead) (by decide)
  have hcut : (u.finishOne r stDead).changesOnly ((u.finishOne r stDead).cutTray [r]) [.tier] :=
    State.cutTray_only _ _ (only_refl _ _) (List.Subset.refl _)
  have hcutTier : ((u.finishOne r stDead).cutTray [r]).tier = { (u.finishOne r stDead).tier with reqs := ((u.finishOne r stDead).cutTray [r]).tier.reqs } := rfl
  have hcutGrown := State.grown_of_only hcut (by decide) (by decide)
  generalize (u.finishOne r stDead).cutTray [r] = v at hcut hcutTier hcutGrown hunanswered
  obtain ⟨htailGrown, htailReq, htailTier, htailOnly⟩ := v.tagFree_keeps p
  have hreqsLast : (v.tagFree p).req.reqs = [] := by
    rw [htailReq, hcut .req (by decide)]
    exact hdropped
  have hwoken : (v.tagFree p).wakeStaged = v.tagFree p := State.wake_of_no_reqs hreqsLast _
  have htier : (u.finishOne r stDead).tier = s.tier := (hansweredOnly .tier (by decide)).trans (hdied .tier (by decide))
  have hcpu : (v.tagFree p).cpu = s.cpu :=
    (htailOnly .cpu (by decide)).trans ((hcut .cpu (by decide)).trans ((hansweredOnly .cpu (by decide)).trans (hdied .cpu (by decide))))
  have hcoh : (v.tagFree p).coh = s.coh :=
    (htailOnly .coh (by decide)).trans ((hcut .coh (by decide)).trans ((hansweredOnly .coh (by decide)).trans (hdied .coh (by decide))))
  rw [hunanswered, hwoken]
  refine ⟨hreqsLast, ((hqueued.grown hcutGrown).grown htailGrown).queuedOn, ?_, ?_, hcpu, hcoh⟩
  · obtain ⟨y, hy, hrecord⟩ := hevent
    obtain ⟨l, hl⟩ := (hansweredGrown.trans (hcutGrown.trans htailGrown)).events
    exact ⟨y, by rw [hl]; exact List.mem_append_left _ hy, hrecord⟩
  · rw [htailTier, hcutTier, htier]

/-! ### A release that was held -/

theorem State.attnRelease_bound {s : State} {n : Nat} {o : Origin} {f : Frame} (hlen : f.length = 1) (hpl : f.payload = 3 :: fill 63 0)
    (hsmall : f.handle.toNat < 2 ^ 18) (hservice : s.mod.state = .service) (hunder : s.handleUnder f f.handle.toNat = true)
    (htenant : s.tenantGone f.tenant = false) (hbound : (s.handle f.handle.toNat).state = .bound) (hown : (s.handle f.handle.toNat).tenant = f.tenant) :
    s.attnRequest n o f = (s.onHandle f.handle.toNat (fun x => { x with state := .releasing })).attnResult n o f stOk (attnHeader 3 0 0 false 0 0 0) := by
  have hrequest : s.attnRequest n o f = s.attnRelease n o f := by
    unfold State.attnRequest
    rw [hpl]
    rfl
  rw [hrequest]
  unfold State.attnRelease
  dsimp only
  rw [if_neg, if_neg, htenant]
  · rfl
  · rw [hbound]
    simp [hservice, hunder, hown]
  · simp only [not_or, not_le, ne_eq, not_not]
    exact ⟨hsmall, hlen, hpl⟩

/-- A handle goes to RELEASING, and the answer goes out of the port that asked. -/
theorem State.releasing_answered (s : State) {n b h : Nat} {f : Frame} {pl : List Byte} (hop : f.opcode ≠ 0x61) (hbase : s.base b = b) :
    let t := (s.onHandle h (fun x => { x with state := .releasing })).attnResult n (.port b) f stOk pl
    t.req.held = s.req.held ∧ t.handle h = { s.handle h with state := .releasing } ∧ (∀ i, i ≠ h → t.handle i = s.handle i)
      ∧ t.bound b (completion f stOk pl) ∧ t.tier = s.tier ∧ t.cpu = s.cpu := by
  have hlot : ∀ (t : State), t.lotStatus b (completion f stOk pl).status = t := by
    intro t
    rw [completion_status hop]
    exact if_neg (by decide)
  have hsent : (s.onHandle h (fun x => { x with state := .releasing })).attnResult n (.port b) f stOk pl
      = (s.onHandle h (fun x => { x with state := .releasing })).sendFrom
          ((s.onHandle h (fun x => { x with state := .releasing })).handleSite f.handle.toNat) b none { frame := completion f stOk pl } := by
    unfold State.attnResult State.toIssuer
    dsimp only
    rw [hlot]
  dsimp only
  rw [hsent]
  have honly := State.sendFrom_only (s.onHandle h (fun x => { x with state := .releasing }))
    ((s.onHandle h (fun x => { x with state := .releasing })).handleSite f.handle.toNat) b none { frame := completion f stOk pl }
    (only_refl _ [.pkg, .ports, .adk, .evq]) (List.Subset.refl _)
  have hbound := (s.onHandle h (fun x => { x with state := .releasing })).sendFrom_bound
    ((s.onHandle h (fun x => { x with state := .releasing })).handleSite f.handle.toNat) b none (x := { frame := completion f stOk pl })
    (completion_vc hop _ _) (completion_unmarked hop _ _)
  generalize (s.onHandle h (fun x => { x with state := .releasing })).sendFrom _ b none { frame := completion f stOk pl } = t at honly hbound
  have hreq : t.req = s.req := honly .req (by decide)
  have hhandles : ∀ i, t.handle i = (s.onHandle h (fun x => { x with state := .releasing })).handle i := by
    intro i
    have hatn : t.atn = (s.onHandle h (fun x => { x with state := .releasing })).atn := honly .atn (by decide)
    unfold State.handle
    rw [hatn]
  have hport : State.bound t (s.base b) (completion f stOk pl) := hbound
  rw [hbase] at hport
  exact ⟨congrArg Traffic4.held hreq, (hhandles h).trans (State.handle_onHandle_same _ _ _),
    fun i hi => (hhandles i).trans (State.handle_onHandle_other _ _ hi), hport, honly .tier (by decide), honly .cpu (by decide)⟩

/-- A frame that the link and the header checks of its port let pass goes on. -/
theorem State.arrive_of_takenAs {s : State} {p : Nat} {f g : Frame} (h : s.takenAs p f = some g) (k : State → Nat → Frame → State) :
    s.arrive p f k = k (s.entered p f) (s.base p) g := by
  unfold State.takenAs at h
  unfold State.arrive State.entered
  split at h
  case isFalse => exact absurd h (by simp)
  case isTrue hlink =>
    split at h
    case h_2 => exact absurd h (by simp)
    case h_1 x hpass =>
      obtain rfl := Option.some.inj h
      dsimp only
      rw [hlink, hpass]
      rfl

/-! ### O28 -/

/-- Settles O28: a fence and a held request wait for the stores before them, and are answered by the frame that joins a queue; a request that
was sent on and is not answered ends with TARGET_DEAD. -/
theorem fencesAndTimers : Obligations.FencesAndTimers := by
  unfold Obligations.FencesAndTimers
  refine ⟨?taken, ?complete, ?waits, ?held, ?release, ?timer, ?backstop⟩
  case taken =>
    intro s e port f g hop htaken he
    have hrow : rowFrame 0x15 f = f := by
      unfold rowFrame
      rw [← hop]
      exact ite_self _
    have hexec : exec (.fence port f) s = .next (e.fenceIn (s.base port.toNat) g) := by
      show Host.Outcome.next (s.arrive port.toNat (rowFrame 0x15 f) fun s b f => s.fenceIn b f) = _
      rw [hrow, State.arrive_of_takenAs htaken, ← he]
    exact ⟨_, hexec, rfl, rfl, rfl, rfl, rfl, rfl⟩
  case complete =>
    intro s n b f halive hfences hbase hstores hop
    have hne : f.opcode ≠ 0x61 := by
      rw [hop]
      decide
    have hexec : exec (.fenceComplete n) s
        = .next (({ s with req := { s.req with fences := [] } }).emitOut n (.port b) { frame := completion f stOk [] }) := by
      show execFenceComplete n s = _
      unfold execFenceComplete
      rw [hfences]
      simp only [List.find?_cons, beq_self_eq_true]
      refine congrArg Host.Outcome.next ((if_neg ?_).trans ?_)
      · rw [halive]
        exact Bool.eq_false_iff.1 hstores
      · simp only [List.filter_cons, List.filter_nil, bne_self_eq_false, Bool.false_eq_true, if_false]
        rfl
    have hst : (completion f stOk []).status ≠ stMalformed := by
      rw [completion_status hne]
      decide
    have honly := State.emitOut_port_only ({ s with req := { s.req with fences := [] } }) n b (x := { frame := completion f stOk [] }) hst
    have hreq : (({ s with req := { s.req with fences := [] } }).emitOut n (.port b) { frame := completion f stOk [] }).req
        = { s.req with fences := [] } := honly .req (by decide)
    have hqueued := State.emitOut_port_inFifo ({ s with req := { s.req with fences := [] } }) n b (x := { frame := completion f stOk [] })
      (completion_vc hne _ _) (completion_unmarked hne _ _)
    refine ⟨_, hexec, by rw [hreq], ?_, by rw [hreq], honly .tier (by decide), honly .cpu (by decide)⟩
    have hfifo : State.inFifo _ (s.base b) _ := hqueued
    rw [hbase] at hfifo
    exact hfifo.queuedOn
  case waits =>
    intro s n b f halive hfences hstores
    show execFenceComplete n s = _
    unfold execFenceComplete
    rw [hfences]
    simp only [List.find?_cons, beq_self_eq_true]
    exact congrArg Host.Outcome.next (if_pos (by rw [halive]; exact hstores))
  case held =>
    intro s n o f halive hheld hholds
    show execImplicitFenceRelease n s = _
    unfold execImplicitFenceRelease
    rw [hheld]
    simp only [List.find?_cons, beq_self_eq_true, Bool.not_false, Bool.and_self]
    exact congrArg Host.Outcome.next (if_pos (by rw [halive, hholds]; rfl))
  case release =>
    intro s n b f halive hheld hholds hbase hop hlen hpl helse _ hsmall hservice hunder htenant hbound hown
    have hne : f.opcode ≠ 0x61 := by
      rw [hop]
      decide
    have hcluster := State.attnRelease_bound (s := { s with req := { s.req with held := [] } }) (n := n) (o := .port b) hlen hpl hsmall hservice hunder
      htenant hbound hown
    have hexec : exec (.implicitFenceRelease n) s = .next ((({ s with req := { s.req with held := [] } }).onHandle f.handle.toNat
        (fun x => { x with state := .releasing })).attnResult n (.port b) f stOk (attnHeader 3 0 0 false 0 0 0)) := by
      show execImplicitFenceRelease n s = _
      unfold execImplicitFenceRelease
      rw [hheld]
      simp only [List.find?_cons, beq_self_eq_true, Bool.not_false, Bool.and_self]
      refine congrArg Host.Outcome.next ((if_neg (by rw [halive, hholds]; decide)).trans ?_)
      simp only [List.filter_cons, List.filter_nil, bne_self_eq_false, Bool.false_eq_true, if_false]
      unfold State.toCluster
      refine (if_neg ?_).trans ((if_neg ?_).trans hcluster)
      · exact Bool.eq_false_iff.1 helse
      · rw [hop]
        decide
    exact ⟨_, hexec, State.releasing_answered _ hne hbase⟩
  case timer =>
    intro s n b p r halive hreqs hn hsmall htimed hdue horigin hbase hstage hp hmask hroom hlost hstore _ hop
    have hexec : exec (.requestTimerExpiry n) s = .next (s.unanswered r) := by
      have hfind : s.findReq n = some r := by
        unfold State.findReq
        rw [hreqs]
        simp [hn]
      refine congrArg Host.Outcome.next ((if_neg (by rw [halive]; decide)).trans ((if_pos hsmall).trans ?_))
      rw [hfind]
      exact if_pos (by rw [htimed, decide_eq_true hdue]; rfl)
    exact ⟨_, hexec, State.unanswered_port hreqs horigin hbase hstage hp hmask hroom hlost hstore hop⟩
  case backstop =>
    intro s n b p r halive hreqs hn hdue horigin hbase hstage hp hmask hroom hlost hstore _ hop
    have hexec : exec (.backstopTimerExpiry n) s = .next (s.unanswered r) := by
      have hfind : s.findReq n = some r := by
        unfold State.findReq
        rw [hreqs]
        simp [hn]
      show execBackstopTimerExpiry n s = _
      unfold execBackstopTimerExpiry
      rw [hfind]
      refine congrArg Host.Outcome.next (if_pos ?_)
      rw [halive, hstage, decide_eq_true hdue]
      rfl
    exact ⟨_, hexec, State.unanswered_port hreqs horigin hbase hstage hp hmask hroom hlost hstore hop⟩

end Sys2Proof.Machine
end

section
/-! SUPPORT. The commands of EXT_CMD, and what becomes of an extent (chapter 06). -/

namespace Sys2Proof.Machine

/-! ### One extent changes -/

/-- From `s` to `t` extent `e` has become `x`, and every other one is as it was; no command of EXT_CMD has been counted. -/
structure State.extentIs (s t : State) (e : Nat) (x : Extent) : Prop where
  extent : t.extent e = x
  others : ∀ i, i ≠ e → t.extent i = s.extent i
  cmdSeq : t.ext.cmdSeq = s.ext.cmdSeq

theorem State.extentIs.refl (s : State) (e : Nat) : s.extentIs s e (s.extent e) := ⟨rfl, fun _ _ => rfl, rfl⟩

theorem State.extent_of_ext {s t : State} (h : t.ext.tab = s.ext.tab) (e : Nat) : t.extent e = s.extent e := by
  unfold State.extent
  rw [h]

/-- Whatever leaves the extents' records alone comes behind. -/
theorem State.extentIs.of_ext {s t u : State} {e : Nat} {x : Extent} (h : s.extentIs t e x) (hu : u.ext = t.ext) : s.extentIs u e x :=
  ⟨(State.extent_of_ext (congrArg Extents.tab hu) e).trans h.extent,
    fun i hi => (State.extent_of_ext (congrArg Extents.tab hu) i).trans (h.others i hi), (congrArg Extents.cmdSeq hu).trans h.cmdSeq⟩

/-- Whatever leaves the extents' records alone comes before. -/
theorem State.extentIs.behind {s t u : State} {e : Nat} {x : Extent} (hu : t.ext = s.ext) (h : t.extentIs u e x) : s.extentIs u e x :=
  ⟨h.extent, fun i hi => (h.others i hi).trans (State.extent_of_ext (congrArg Extents.tab hu) i), h.cmdSeq.trans (congrArg Extents.cmdSeq hu)⟩

theorem State.extentIs.onExtent {s t : State} {e : Nat} {x : Extent} (h : s.extentIs t e x) (f : Extent → Extent) :
    s.extentIs (t.onExtent e f) e (f x) := by
  refine ⟨?_, fun i hi => ?_, h.cmdSeq⟩
  · rw [← h.extent]
    exact Table.read_write_same _ _ _ _
  · exact (Table.read_write_other _ _ _ hi).trans (h.others i hi)

/-- The record of an extent in another state, with the time of the change (R130). -/
def Extent.inState (x : Extent) (n : ExtState) (now : FT) : Extent := { x with state := n, changeNs := BitVec.ofNat 48 (now / 16) }

/-- An extent changes its state, with the time of the change (R130). -/
theorem State.extTo_extentIs (s : State) (e : Nat) (n : ExtState) (f : Extent → Extent) :
    s.extentIs (s.extTo e n f) e (f ((s.extent e).inState n s.now)) := by
  have hput : ∀ t : State, t.ext = s.ext → t.now = s.now →
      s.extentIs (t.onExtent e (fun x => f { x with state := n, changeNs := BitVec.ofNat 48 (t.now / 16) })) e
        (f ((s.extent e).inState n s.now)) := by
    intro t ht hnow
    rw [hnow]
    exact ((State.extentIs.refl s e).of_ext ht).onExtent (fun x => f (x.inState n s.now))
  unfold State.extTo
  dsimp only
  split
  · exact hput s rfl rfl
  · exact hput (s.hofStop e) rfl rfl

theorem State.extTo_changesOnly (s : State) (e : Nat) (n : ExtState) (f : Extent → Extent) : s.changesOnly (s.extTo e n f) [.ext, .comp] :=
  State.extTo_only s e n f (only_refl s _) (List.Subset.refl _)

/-! ### EXT_CMD (R134, R148) -/

/-- The value of EXT_CMD for an operation on an extent. -/
def extValue (index : BitVec 21) (op : Nat) : BitVec 64 := BitVec.ofNat 64 (16 * index.toNat + op)

theorem extValue_toNat (index : BitVec 21) {op : Nat} (h : op < 16) : (extValue index op).toNat = 16 * index.toNat + op := by
  have hlt := index.isLt
  have hsmall : 16 * index.toNat + op < 2 ^ 64 := by omega
  exact (BitVec.toNat_ofNat _ _).trans (Nat.mod_eq_of_lt hsmall)

theorem extValue_index (index : BitVec 21) {op : Nat} (h : op < 16) : bits (extValue index op).toNat 24 4 = index.toNat := by
  have hlt := index.isLt
  rw [extValue_toNat index h]
  show (16 * index.toNat + op) / 16 % 2097152 = index.toNat
  omega

theorem extValue_op (index : BitVec 21) {op : Nat} (h : op < 16) : bits (extValue index op).toNat 3 0 = op := by
  rw [extValue_toNat index h]
  show (16 * index.toNat + op) / 1 % 16 = op
  omega

/-- EXT_CMD_STATUS names the extent whose spreading it shows. -/
def State.marked (a w : State) (e : Nat) : State :=
  if (w.extent e).shownAt = (a.extent e).shownAt then w else { w with ext := { w.ext with cmdExt := some (BitVec.ofNat 21 e) } }

theorem State.marked_extentIs {s a w : State} {e : Nat} {x : Extent} (h : s.extentIs w e x) : s.extentIs (a.marked w e) e x := by
  unfold State.marked
  split
  · exact h
  · exact ⟨h.extent, h.others, h.cmdSeq⟩

theorem State.marked_only (a w : State) (e : Nat) : w.changesOnly (a.marked w e) [.ext] :=
  ite_only (fun _ => only_refl w _) (fun _ => (only_refl w [.ext]).ext (by decide) _)

theorem State.extTry_busy {a : State} (h : a.extBusy = true) (v : BitVec 64) : a.extTry v = (a, some stDenied) := if_pos h

/-- An ASSIGN that does not wait for room. -/
theorem State.extTry_assign {a w : State} {index : BitVec 21} {st : BitVec 6} (h : a.extBusy = false)
    (hassign : a.extAssign index.toNat false = (w, some st)) : a.extTry (extValue index 1) = (w.extResult index.toNat st, some st) := by
  unfold State.extTry
  dsimp only
  rw [if_neg (Bool.eq_false_iff.1 h), extValue_index index (by decide), extValue_op index (by decide)]
  rw [hassign]
  rfl

theorem State.extTry_setattr {a w : State} {index : BitVec 21} {st : BitVec 6} (h : a.extBusy = false)
    (hset : a.extSetattr index.toNat = (w, st)) : a.extTry (extValue index 2) = ((a.marked w index.toNat).extResult index.toNat st, some st) := by
  unfold State.extTry
  dsimp only
  rw [if_neg (Bool.eq_false_iff.1 h), extValue_index index (by decide), extValue_op index (by decide)]
  rw [hset]
  rfl

theorem State.extTry_revoke {a w : State} {index : BitVec 21} {st : BitVec 6} (h : a.extBusy = false)
    (hrevoke : a.extRevoke index.toNat = (w, st)) : a.extTry (extValue index 3) = ((a.marked w index.toNat).extResult index.toNat st, some st) := by
  unfold State.extTry
  dsimp only
  rw [if_neg (Bool.eq_false_iff.1 h), extValue_index index (by decide), extValue_op index (by decide)]
  rw [hrevoke]
  rfl

theorem State.extTry_release {a w : State} {index : BitVec 21} {st : BitVec 6} (h : a.extBusy = false)
    (hrelease : a.extRelease index.toNat = (w, st)) : a.extTry (extValue index 4) = ((a.marked w index.toNat).extResult index.toNat st, some st) := by
  unfold State.extTry
  dsimp only
  rw [if_neg (Bool.eq_false_iff.1 h), extValue_index index (by decide), extValue_op index (by decide)]
  rw [hrelease]
  rfl

theorem State.extTry_scrub {a w : State} {index : BitVec 21} {st : BitVec 6} (h : a.extBusy = false)
    (hscrub : a.extScrub index.toNat = (w, st)) : a.extTry (extValue index 5) = ((a.marked w index.toNat).extResult index.toNat st, some st) := by
  unfold State.extTry
  dsimp only
  rw [if_neg (Bool.eq_false_iff.1 h), extValue_index index (by decide), extValue_op index (by decide)]
  rw [hscrub]
  rfl

/-- What every command of EXT_CMD may change. -/
def extCmdParts : List Part :=
  [.free, .pkg, .ports, .req, .coh, .ext, .adm, .tier, .xl, .cmp, .cpu, .clv, .atn, .comp, .sec, .log, .adk, .evq]

/-- The last command of EXT_CMD has ended: extent `e` is `x`, and the status register shows the result (R148). -/
structure State.extDone (s t : State) (tag : BitVec 16) (e : Nat) (st : BitVec 6) (x : Extent) : Prop where
  responded : t.responded tag st
  extent : t.extent e = x
  cmdSeq : t.ext.cmdSeq = s.ext.cmdSeq + 1
  result : t.ext.result = st
  cmdState : t.ext.cmdState = (t.extent e).state
  others : ∀ i, i ≠ e → t.extent i = s.extent i
  only : s.changesOnly t extCmdParts

/-- A command that is performed at once and ends with `w` before its result is shown. -/
theorem State.extCmdWr_done {s w : State} {tag : BitVec 16} {index : BitVec 21} {op : Nat} {st : BitVec 6} {x : Extent}
    (hw : s.writes tag (extAddr 0x008) (extValue index op) .operator)
    (htry : (s.adkTaken (wrFrame tag (extAddr 0x008) (extValue index op))).extTry (extValue index op) = (w.extResult index.toNat st, some st))
    (hkept : (s.adkTaken (wrFrame tag (extAddr 0x008) (extValue index op))).extentIs w index.toNat x) :
    ∃ t, Host.Outcome.next (φ := Fault) (ρ := Refusal) (s.extCmdWr tag index op) = .next t ∧ s.extDone t tag index.toNat st x
      ∧ w.changesOnly t [.ext, .adk] := by
  have hexec : s.extCmdWr tag index op = (w.extResult index.toNat st).adkReply (wrFrame tag (extAddr 0x008) (extValue index op)) st
      (wrFrame tag (extAddr 0x008) (extValue index op)).addr [] := by
    refine (State.adkRequest_performs hw.1 _).trans ?_
    show State.extBody _ (extValue index op) _ = _
    unfold State.extBody
    rw [htry]
    rfl
  have honly := State.extTry_only (s.adkTaken (wrFrame tag (extAddr 0x008) (extValue index op))) (extValue index op) (only_refl _ extCmdParts) (by decide)
  rw [htry] at honly
  have hreply := State.adkReply_link (w.extResult index.toNat st) (wrFrame tag (extAddr 0x008) (extValue index op)) st
    (wrFrame tag (extAddr 0x008) (extValue index op)).addr []
  have hext : ((w.extResult index.toNat st).adkReply (wrFrame tag (extAddr 0x008) (extValue index op)) st
      (wrFrame tag (extAddr 0x008) (extValue index op)).addr []).ext = (w.extResult index.toNat st).ext := hreply .ext (by decide)
  have hextents : ∀ i, ((w.extResult index.toNat st).adkReply (wrFrame tag (extAddr 0x008) (extValue index op)) st
      (wrFrame tag (extAddr 0x008) (extValue index op)).addr []).extent i = w.extent i := fun i => State.extent_of_ext (congrArg Extents.tab hext) i
  refine ⟨_, congrArg Host.Outcome.next hexec, ⟨State.adkReply_responded _ _ _ _ _, (hextents _).trans hkept.extent, ?_, ?_, ?_, fun i hi => ?_,
    State.adkReply_changesOnly honly (by decide) _ _ _⟩, ?_⟩
  · rw [hext]
    exact congrArg (· + 1) hkept.cmdSeq
  · rw [hext]
    rfl
  · rw [hext, hextents]
    rfl
  · exact (hextents i).trans (hkept.others i hi)
  · exact (State.extResult_only w _ _ (only_refl w [.ext, .adk]) (by decide)).trans (hreply.mono (by decide))

/-! ### What ASSIGN asks for (R130, R131, R146) -/

/-- What every ASSIGN asks of its arguments (R131). -/
structure State.assignable (a : State) (e : Nat) : Prop where
  share : a.ext.argShare ≠ 3
  owner : a.ownerOk a.ext.argOwner = true
  tenant : (a.tenant a.ext.argTenant.toNat).state = .active
  admitted : (a.admRec a.ext.argAdm.toNat).admitted = true
  record : (a.admRec a.ext.argAdm.toNat).tenant = a.ext.argTenant
  homing : (homingPv a.comp.run a.ext.argPv.toNat).isSome = true
  unfenced : a.isFenced 2 e = false

/-- Tier that an ASSIGN names. -/
def State.argTierNo (a : State) : Nat := if a.ext.argTier then 2 else 1

theorem State.shortOf_zero (a : State) (rec tier : Nat) : a.shortOf rec tier 0 = 0 := if_pos rfl

/-- What ASSIGN judges of an extent and its pages: the state, the free slots and the reservation of the other tier. -/
theorem State.assignable.judged {a : State} {e : Nat} (h : a.assignable e) (x y z : Bool) :
    (!x || a.ext.argShare == 3 || !a.ownerOk a.ext.argOwner || (a.tenant a.ext.argTenant.toNat).state != .active
      || !(a.admRec a.ext.argAdm.toNat).admitted || (a.admRec a.ext.argAdm.toNat).tenant != a.ext.argTenant
      || (homingPv a.comp.run a.ext.argPv.toNat).isNone || a.isFenced 2 e || y || z) = (!x || y || z) := by
  have hshare : (a.ext.argShare == 3) = false := beq_false_of_ne h.share
  have htenant : ((a.tenant a.ext.argTenant.toNat).state != .active) = false := by rw [h.tenant]; rfl
  have hrecord : ((a.admRec a.ext.argAdm.toNat).tenant != a.ext.argTenant) = false := by rw [h.record]; exact bne_self_eq_false _
  have hhoming : (homingPv a.comp.run a.ext.argPv.toNat).isNone = false := by
    rw [← Option.not_isSome, h.homing]
    rfl
  rw [hshare, h.owner, htenant, h.admitted, hrecord, hhoming, h.unfenced]
  simp only [Bool.not_true, Bool.or_false]

/-- A free extent without data, with room for all its pages. -/
theorem State.extAssign_free {a : State} {e : Nat} (h : a.assignable e) (hfree : (a.extent e).state = .free) (hdata : (a.extent e).lastValid = false)
    (hslots : 512 ≤ a.tierFree a.argTierNo) (hshort : a.shortOf a.ext.argAdm.toNat a.argTierNo 512 = 0) :
    a.extAssign e false = (a.extGive e a.argTierNo false, some stOk) := by
  have hother : 3 - a.argTierNo ≠ a.argTierNo := by
    unfold State.argTierNo
    split <;> decide
  have hroom : decide (a.tierFree a.argTierNo < 512) = false := decide_eq_false (not_lt.2 hslots)
  unfold State.argTierNo at hother hroom hshort ⊢
  unfold State.extAssign
  dsimp only
  rw [h.judged, hfree, hdata, hroom]
  have hkeeps : (ExtState.free == ExtState.drained || false) = false := rfl
  simp only [hkeeps, Bool.false_eq_true, if_false, if_neg hother, State.shortOf_zero, if_true, hshort]
  rfl

/-- A drained extent of the same tenant, within the reservation of its record. -/
theorem State.extAssign_drained {a : State} {e : Nat} (h : a.assignable e) (hdrained : (a.extent e).state = .drained)
    (hown : (a.extent e).tenant = a.ext.argTenant)
    (hshort : ∀ k, k < 2 → a.shortOf a.ext.argAdm.toNat (k + 1) ((a.extentPages e).filter (fun p => p.2.res.toNat == k + 1)).length = 0) :
    a.extAssign e false = (a.extGive e a.argTierNo true, some stOk) := by
  unfold State.argTierNo
  unfold State.extAssign
  dsimp only
  rw [h.judged, hdrained, hown]
  have hkeeps : (ExtState.drained == ExtState.drained || (a.extent e).lastValid) = true := rfl
  have hfirst := hshort 0 (by decide)
  have hsecond := hshort 1 (by decide)
  simp only [hkeeps, if_true]
  cases a.ext.argTier
  · simp only [Bool.false_eq_true, if_false]
    rw [hfirst, hsecond]
    simp
  · simp only [if_true]
    rw [hsecond, hfirst]
    simp

/-- An extent that is neither free nor drained is not assigned. -/
theorem State.extAssign_active {a : State} {e : Nat} (h : (a.extent e).state = .active) : a.extAssign e false = (a, some stDenied) := by
  unfold State.extAssign
  dsimp only
  rw [h]
  rfl

/-- A free extent of no KV attribute is not assigned beyond the reservation. -/
theorem State.extAssign_short {a : State} {e : Nat} (hfree : (a.extent e).state = .free) (hdata : (a.extent e).lastValid = false)
    (hkv : a.ext.argKv = false) (hshort : a.shortOf a.ext.argAdm.toNat a.argTierNo 512 ≠ 0) : a.extAssign e false = (a, some stDenied) := by
  unfold State.argTierNo at hshort
  unfold State.extAssign
  dsimp only
  rw [hfree, hdata, hkv]
  have hkeeps : (ExtState.free == ExtState.drained || false) = false := rfl
  simp only [hkeeps, Bool.false_eq_true, if_false, if_true]
  exact ite_eq_left_iff.2 fun _ => (if_neg hshort).trans (if_pos rfl)

/-! ### The pages of an ASSIGN -/

/-- Taking a slot depends on the tiers and the fences alone, and changes the tiers alone. -/
theorem State.allocSlot_map {s u : State} (htier : u.tier = s.tier) (hlog : u.log = s.log) (tier : Nat) :
    u.allocSlot tier = (s.allocSlot tier).map (fun r => ({ u with tier := r.1.tier }, r.2)) := by
  unfold State.allocSlot
  rw [State.bestTray_same htier hlog]
  cases s.bestTray tier with
  | none => rfl
  | some t =>
    have htray : u.tray t = s.tray t := by
      unfold State.tray
      rw [htier]
    unfold State.takeSlot State.setTray
    dsimp only [Option.map]
    rw [htray, htier]
    split <;> rfl

theorem State.giveSlot_same {s u : State} (htier : u.tier = s.tier) (hlog : u.log = s.log) (page tier : Nat) :
    ((u.giveSlot page tier).getD u).tier = ((s.giveSlot page tier).getD s).tier ∧ ((u.giveSlot page tier).getD u).log = ((s.giveSlot page tier).getD s).log := by
  have hkept : ((s.giveSlot page tier).getD s).log = s.log :=
    State.giveSlot_getD_only s page tier (only_refl s [.tier]) (List.Subset.refl _) .log (by decide)
  have hkept' : ((u.giveSlot page tier).getD u).log = u.log :=
    State.giveSlot_getD_only u page tier (only_refl u [.tier]) (List.Subset.refl _) .log (by decide)
  refine ⟨?_, hkept'.trans (hlog.trans hkept.symm)⟩
  unfold State.giveSlot
  rw [State.allocSlot_map htier hlog]
  cases s.allocSlot tier with
  | none => exact htier
  | some r => rfl

/-- The slots given depend on the tiers and the fences alone. -/
theorem State.foldl_giveSlot_same {s u : State} (htier : u.tier = s.tier) (hlog : u.log = s.log) (e tier : Nat) (l : List Nat) :
    (l.foldl (fun x i => (x.giveSlot (512 * e + i) tier).getD x) u).tier = (l.foldl (fun x i => (x.giveSlot (512 * e + i) tier).getD x) s).tier := by
  induction l generalizing s u with
  | nil => exact htier
  | cons i l ih =>
    obtain ⟨h, h'⟩ := State.giveSlot_same htier hlog (512 * e + i) tier
    exact ih h h'

theorem State.foldl_giveSlot_only (s : State) (e tier : Nat) (l : List Nat) :
    s.changesOnly (l.foldl (fun x i => (x.giveSlot (512 * e + i) tier).getD x) s) [.tier] :=
  foldl_only _ l s (fun t i ht => State.giveSlot_getD_only t _ _ ht (List.Subset.refl _)) (only_refl s _)

/-- What ASSIGN writes into the record of an extent (R131, R134). -/
def State.takesArgs (a : State) (x : Extent) : Extent :=
  { x with
    tenant := a.ext.argTenant, pv := a.ext.argPv, dom := a.ext.argDom, coherent := a.ext.argAttr, share := a.ext.argShare, kv := a.ext.argKv,
    kvT2 := a.ext.argKvT2, lastTenant := a.ext.argTenant, adm := a.ext.argAdm, owner := a.ext.argOwner, reclaim := false }

/-- The record of an extent that ASSIGN has made ACTIVE. -/
def State.assigned (a : State) (e : Nat) : Extent := a.takesArgs ((a.extent e).inState .active a.now)

theorem State.extGive_keeping (a : State) (e tier : Nat) :
    a.extentIs (a.extGive e tier true) e (a.assigned e) ∧ (a.extGive e tier true).tier = a.tier :=
  ⟨a.extTo_extentIs e .active a.takesArgs, a.extTo_changesOnly e .active a.takesArgs .tier (by decide)⟩

theorem State.extGive_fresh (a : State) (e tier : Nat) :
    a.extentIs (a.extGive e tier false) e (a.assigned e)
      ∧ (a.extGive e tier false).tier = ((List.range 512).foldl (fun x i => (x.giveSlot (512 * e + i) tier).getD x) a).tier := by
  have hgiven := a.foldl_giveSlot_only e tier (List.range 512)
  unfold State.extGive
  dsimp only
  simp only [Bool.false_eq_true, if_false]
  generalize (List.range 512).foldl (fun x i => (x.giveSlot (512 * e + i) tier).getD x) a = g at hgiven
  have hext : g.ext = a.ext := hgiven .ext (by decide)
  have hnow : g.now = a.now := State.now_of_only hgiven (by decide)
  have hrecord := (g.extTo_extentIs e .active a.takesArgs).behind hext
  rw [State.extent_of_ext (congrArg Extents.tab hext) e, hnow] at hrecord
  exact ⟨hrecord, g.extTo_changesOnly e .active a.takesArgs .tier (by decide)⟩

/-! ### REVOKE, RELEASE and SCRUB -/

/-- What REVOKE writes into the record of an ACTIVE extent: `n` draws the time until every copy shows it (R137). -/
def State.revokeMarks (a : State) (n : Nat) (x : Extent) : Extent :=
  { x with trigger := 1, drainAt := a.now + a.targetLimit, reclaim := false, shownAt := a.now + spreadTime n }

/-- REVOKE of an ACTIVE extent of no domain (R135, R137). -/
theorem State.extRevoke_active {a : State} {e : Nat} (hactive : (a.extent e).state = .active) (hplain : (a.extent e).coherent = false) :
    ∃ w n, a.extRevoke e = (w, stOk) ∧ a.changesOnly w [.free, .ext, .comp]
      ∧ a.extentIs w e (a.revokeMarks n ((a.extent e).inState .revoking a.now)) := by
  have hrevoke : a.extRevoke e = (a.draw.1.extTo e .revoking (a.revokeMarks a.draw.2), stOk) := by
    unfold State.extRevoke State.revoke
    rw [hactive]
    dsimp only
    rw [hactive]
    dsimp only
    rw [hplain]
    rfl
  have hdraw : a.changesOnly a.draw.1 [.free] := (only_refl a [.free]).free (by decide) _
  refine ⟨_, a.draw.2, hrevoke, (hdraw.mono (by decide)).trans ((State.extTo_changesOnly _ _ _ _).mono (by decide)), ?_⟩
  exact State.extentIs.behind (t := a.draw.1) rfl (a.draw.1.extTo_extentIs e .revoking (a.revokeMarks a.draw.2))

theorem spreadTime_le (n : Nat) : spreadTime n ≤ 4 * usT :=
  Nat.le_of_lt_succ (Nat.mod_lt (Config.freeWord n).toNat (show 0 < 4 * usT + 1 by decide))

/-- RELEASE of a DRAINED extent (R134). -/
theorem State.extRelease_drained {a : State} {e : Nat} (h : (a.extent e).state = .drained) : a.extRelease e = (a.freeExtent e, stOk) := if_pos h

theorem State.extRelease_active {a : State} {e : Nat} (h : (a.extent e).state = .active) : a.extRelease e = (a, stDenied) :=
  if_neg (by rw [h]; decide)

/-- What an extent that becomes FREE keeps of its tenant (Table 06-5). -/
def Extent.released (x : Extent) : Extent := { x with owner := 0xFFFF, lastTenant := x.tenant, lastValid := true, reclaim := false }

theorem State.freeExtent_extentIs (s : State) (e : Nat) : s.extentIs (s.freeExtent e) e ((s.extent e).inState .free s.now).released :=
  s.extTo_extentIs e .free Extent.released

/-- What SCRUB writes into the record of an extent of no page (R337). -/
def State.scrubMarks (a : State) (n : Nat) (x : Extent) : Extent := { x with scrubLeft := [], shownAt := a.now + spreadTime n }

/-- A SCRUB of an extent of no page has nothing to overwrite (R337). -/
theorem State.extScrub_pageless {a : State} {e : Nat} (hdrained : (a.extent e).state = .drained) (hpages : a.extentPages e = []) :
    ∃ w n, a.extScrub e = (w, stOk) ∧ w.tier = a.tier
      ∧ a.extentIs w e (a.scrubMarks n ((a.extent e).inState .scrubbing a.now)) := by
  have hscrub : a.extScrub e = (a.draw.1.extTo e .scrubbing (a.scrubMarks a.draw.2), stOk) := by
    unfold State.extScrub State.startScrub
    dsimp only
    rw [if_neg (by rw [hdrained]; decide), if_pos (.inl hdrained), hpages]
    simp only [List.map_nil, List.foldl_nil]
    rw [hpages]
    rfl
  refine ⟨_, a.draw.2, hscrub, State.extTo_changesOnly _ _ _ _ .tier (by decide), ?_⟩
  exact State.extentIs.behind (t := a.draw.1) rfl (a.draw.1.extTo_extentIs e .scrubbing (a.scrubMarks a.draw.2))

theorem State.extSetattr_active {a : State} {e : Nat} (hactive : (a.extent e).state = .active) (hshare : a.ext.argShare ≠ 3)
    (howner : a.ownerOk a.ext.argOwner = true) (hunfenced : a.isFenced 2 e = false) :
    a.extSetattr e = (a.onExtent e (fun x => { x with owner := a.ext.argOwner, share := a.ext.argShare, kv := a.ext.argKv, kvT2 := a.ext.argKvT2 }),
      stOk) := by
  refine if_neg ?_
  rw [hactive, howner, hunfenced, beq_false_of_ne hshare]
  decide

/-! ### Taking a request leaves the extents and what is judged of them -/

theorem State.extent_adkTaken (s : State) (q : AdkFrame) (e : Nat) : (s.adkTaken q).extent e = s.extent e := rfl

theorem State.extBusy_adkTaken (s : State) (q : AdkFrame) : (s.adkTaken q).extBusy = s.extBusy := by
  unfold State.extBusy
  rfl

theorem State.extentPages_adkTaken (s : State) (q : AdkFrame) (e : Nat) : (s.adkTaken q).extentPages e = s.extentPages e := rfl

theorem State.ownerOk_adkTaken (s : State) (q : AdkFrame) (u : BitVec 16) : (s.adkTaken q).ownerOk u = s.ownerOk u := by
  unfold State.ownerOk
  rfl

theorem State.tierFree_adkTaken (s : State) (q : AdkFrame) (k : Nat) : (s.adkTaken q).tierFree k = s.tierFree k := by
  unfold State.tierFree
  rfl

theorem State.shortOf_adkTaken (s : State) (q : AdkFrame) (r k n : Nat) : (s.adkTaken q).shortOf r k n = s.shortOf r k n := by
  unfold State.shortOf
  rfl

theorem State.assignable.taken {s : State} {e : Nat} (h : s.assignable e) (q : AdkFrame) : (s.adkTaken q).assignable e :=
  ⟨h.share, (s.ownerOk_adkTaken q _).trans h.owner, h.tenant, h.admitted, h.record, h.homing, h.unfenced⟩

theorem State.argTierNo_adkTaken (s : State) (q : AdkFrame) : (s.adkTaken q).argTierNo = s.argTierNo := rfl

/-! ### DRAINED (R137, R139) -/

/-- What no lease has reclaimed is DRAINED, with its entry and event. -/
theorem State.drained_extentIs {s : State} {e : Nat} (h : (s.extent e).reclaim = false) (strag : Nat) :
    s.extentIs (s.drained e strag) e ((s.extent e).inState .drained s.now) ∧ s.changesOnly (s.drained e strag) [.ext, .comp, .log, .adk, .evq]
      ∧ (s.drained e strag).ext.cntStrag = s.ext.cntStrag := by
  have honly := State.drained_only s e strag (only_refl s _) (List.Subset.refl _)
  have hdrained : s.drained e strag = (s.extTo e .drained).logWith 0x4C (s.extent e).trigger.toNat srcModule (e + strag * 2 ^ 32) 0x4C
      (s.extent e).trigger.toNat (e + strag * 2 ^ 32) := by
    unfold State.drained
    dsimp only
    rw [h]
    rfl
  have hext : (s.drained e strag).ext = (s.extTo e .drained).ext := by
    rw [hdrained]
    exact State.logWith_changesOnly _ _ _ _ _ _ _ _ .ext (by decide)
  refine ⟨(s.extTo_extentIs e .drained id).of_ext hext, honly, ?_⟩
  rw [hext]
  rfl

theorem State.logE_grown (s : State) (cls detail : Nat) (sr : BitVec 16) (param : Nat) (mirror : Bool) : s.grown (s.logE cls detail sr param mirror) := by
  have hlog (t : State) (l : Log) : t.grown { t with log := l } := State.grown_of_ports rfl ⟨[], (List.append_nil _).symm⟩
  have hcount (t : State) : t.grown (t.countLog 3) := (hlog t _).trans (State.satEvent_grown _ _ _ _ _)
  have happend : s.grown (s.appendLog cls detail sr param) := by
    unfold State.appendLog
    dsimp only
    split
    · exact (hlog s _).trans (hcount _)
    · exact hlog s _
  unfold State.logE
  cases s.mergeInto cls detail sr with
  | some q => exact hlog s _
  | none =>
    cases mirror
    · exact happend
    · exact happend.trans (State.event_grown _ _ _ _ _ _)

theorem State.drained_grown {s : State} {e : Nat} (h : (s.extent e).reclaim = false) (strag : Nat) : s.grown (s.drained e strag) := by
  have hto : s.grown (s.extTo e .drained) := State.grown_of_only (s.extTo_changesOnly e .drained id) (by decide) (by decide)
  unfold State.drained
  dsimp only
  rw [h]
  exact hto.trans ((State.logE_grown _ _ _ _ _ _).trans (State.event_grown _ _ _ _ _ _))

/-- The snoops for the lines of an extent are dropped. -/
def State.unsnooped (s : State) (e : Nat) : State :=
  { s with coh := { s.coh with snoops := s.coh.snoops.filter (fun (y : Snoop) => !(fpaExtent (64 * y.line) == e && fpaModule (64 * y.line) == s.moduleNo)) } }

theorem State.extentDir_of_only {s t : State} {ps : List Part} (h : s.changesOnly t ps) (hcoh : Part.coh ∉ ps) (hcomp : Part.comp ∉ ps) (e : Nat) :
    t.extentDir e = s.extentDir e := by
  have hdir : t.coh = s.coh := h .coh hcoh
  have hmodule : t.comp = s.comp := h .comp hcomp
  unfold State.extentDir State.moduleNo
  rw [hdir, hmodule]

/-- The drain limit with one straggler that is no store, and no line of the extent in the directory (R139). -/
theorem execDrainLimitExpiry_one {s : State} {index : BitVec 21} {r : Req} (halive : s.alive = true)
    (hstate : (s.extent index.toNat).state = .revoking) (hdue : (s.extent index.toNat).drainAt ≤ s.now) (hreqs : s.req.reqs = [r])
    (hcounted : r.counted = some index.toNat) (hperformed : r.performed = false) (hstore : storeClass r.frame.opcode = false)
    (hdir : (((s.finishOne r stRevoked).countExt 1).cutTray [r]).extentDir index.toNat = []) :
    exec (.drainLimitExpiry index) s
      = .next ((((((s.finishOne r stRevoked).countExt 1).cutTray [r]).unsnooped index.toNat).drained index.toNat 1).wakeStaged) := by
  have hfind : s.findReq r.n = some r := by
    unfold State.findReq
    rw [hreqs]
    simp
  have hfinish : s.finish r stRevoked = s.finishOne r stRevoked := by
    unfold State.finish
    rw [hstore]
    rfl
  have hgate : ¬ (!s.alive || (s.extent index.toNat).state != .revoking || decide (s.now < (s.extent index.toNat).drainAt)) = true := by
    rw [halive, hstate, decide_eq_false (not_lt.2 hdue)]
    decide
  have hrs : s.req.reqs.filter (fun r => r.counted == some index.toNat) = [r] := by
    rw [hreqs]
    simp [hcounted]
  show execDrainLimitExpiry index s = _
  unfold execDrainLimitExpiry
  dsimp only
  rw [if_neg hgate, hrs]
  simp only [List.foldl_cons, List.foldl_nil, hfind, hperformed, Bool.false_eq_true, if_false, hfinish, hdir, List.filter_nil, List.length_singleton]
  rfl

theorem State.countExt_stragglers (s : State) : s.grown (s.countExt 1) ∧ s.changesOnly (s.countExt 1) [.ext, .adk, .evq]
    ∧ (∀ e, (s.countExt 1).extent e = s.extent e) ∧ (s.countExt 1).ext.cntStrag = (bump s.ext.cntStrag).1 := by
  have honly := State.countExt_only s 1 1 (only_refl s _) (List.Subset.refl _)
  have hcounted : s.countExt 1 = ({ s with ext := { s.ext with sat := satSet s.ext.sat 1 (bump s.ext.cntStrag).2.1, cntStrag := (bump s.ext.cntStrag).1 } }).satEvent
      (bump s.ext.cntStrag).2.2 1 srcModule (maddr 0 0 2 0x050) := rfl
  have hext : (s.countExt 1).ext = { s.ext with sat := satSet s.ext.sat 1 (bump s.ext.cntStrag).2.1, cntStrag := (bump s.ext.cntStrag).1 } := by
    rw [hcounted]
    exact State.satEvent_only _ _ _ _ _ (only_refl _ [.adk, .evq]) (by decide) .ext (by decide)
  have htab : (s.countExt 1).ext.tab = s.ext.tab := by rw [hext]
  refine ⟨?_, honly, State.extent_of_ext htab, by rw [hext]⟩
  have hset : s.grown { s with ext := { s.ext with sat := satSet s.ext.sat 1 (bump s.ext.cntStrag).2.1, cntStrag := (bump s.ext.cntStrag).1 } } :=
    State.grown_of_ports rfl ⟨[], (List.append_nil _).symm⟩
  rw [hcounted]
  exact hset.trans (State.satEvent_grown _ _ _ _ _)

/-- What the end of a scrub writes into the record of an extent (R160, R337). -/
def Extent.blank (x : Extent) : Extent := { x with owner := 0xFFFF, lastValid := false, written := false, scrubLeft := [] }

/-! ### O34 -/

/-- Settles O34: each command changes one record by the rule of its row; a drained extent and the limit end what it had in flight. -/
theorem extentsThroughTheirLife : Obligations.ExtentsThroughTheirLife := by
  unfold Obligations.ExtentsThroughTheirLife
  refine ⟨?assignFree, ?assignDrained, ?assignActive, ?assignShort, ?busy, ?setattr, ?revoke, ?release, ?releaseActive, ?scrub, ?scrubbed,
    ?scrubbing, ?drained, ?inFlight, ?limit⟩
  case assignFree =>
    intro s tag index hw hbusy hfree hdata _ hshare howner htenant hadmitted hrecord hhoming hunfenced hslots hshort
    have hargs : s.assignable index.toNat := ⟨hshare, howner, htenant, hadmitted, hrecord, hhoming, hunfenced⟩
    obtain ⟨hkept, hgiven⟩ := (s.adkTaken (wrFrame tag (extAddr 0x008) (extValue index 1))).extGive_fresh index.toNat s.argTierNo
    obtain ⟨t, hexec, hdone, hlast⟩ := State.extCmdWr_done (op := 1) hw (State.extTry_assign ((s.extBusy_adkTaken _).trans hbusy)
      (State.extAssign_free (hargs.taken (wrFrame tag (extAddr 0x008) (extValue index 1))) hfree hdata
        (by rw [State.tierFree_adkTaken, State.argTierNo_adkTaken]; exact hslots)
        ((s.shortOf_adkTaken _ _ _ _).trans hshort))) hkept
    have htier := (hlast .tier (by decide)).trans (hgiven.trans (State.foldl_giveSlot_same (s := s) (u := s.adkTaken (wrFrame tag (extAddr 0x008) (extValue index 1))) rfl rfl
      index.toNat s.argTierNo (List.range 512)))
    refine ⟨t, hexec, hdone.responded, ?_, ?_, ?_, ?_, ?_, ?_, ?_, ?_, ?_, htier, hdone.cmdSeq, hdone.result, hdone.cmdState, hdone.others, hdone.only⟩
    all_goals
      rw [hdone.extent]
      rfl
  case assignDrained =>
    intro s tag index hw hbusy hdrained hown hshare howner htenant hadmitted hrecord hhoming hunfenced hshort
    have hargs : s.assignable index.toNat := ⟨hshare, howner, htenant, hadmitted, hrecord, hhoming, hunfenced⟩
    obtain ⟨hkept, hgiven⟩ := (s.adkTaken (wrFrame tag (extAddr 0x008) (extValue index 1))).extGive_keeping index.toNat s.argTierNo
    obtain ⟨t, hexec, hdone, hlast⟩ := State.extCmdWr_done (op := 1) hw (State.extTry_assign ((s.extBusy_adkTaken _).trans hbusy)
      (State.extAssign_drained (hargs.taken (wrFrame tag (extAddr 0x008) (extValue index 1))) hdrained hown
        (fun k hk => (s.shortOf_adkTaken _ _ _ _).trans (hshort k hk)))) hkept
    refine ⟨t, hexec, hdone.responded, ?_, ?_, ?_, ?_, ?_, ?_, ?_, ?_, ?_, (hlast .tier (by decide)).trans hgiven, hdone.cmdSeq, hdone.result,
      hdone.cmdState, hdone.others, hdone.only⟩
    all_goals
      rw [hdone.extent]
      rfl
  case assignActive =>
    intro s tag index hw hbusy hactive
    obtain ⟨t, hexec, hdone, hlast⟩ := State.extCmdWr_done (op := 1) hw (State.extTry_assign ((s.extBusy_adkTaken _).trans hbusy)
      (State.extAssign_active (a := s.adkTaken (wrFrame tag (extAddr 0x008) (extValue index 1))) hactive)) (State.extentIs.refl _ _)
    exact ⟨t, hexec, hdone.responded, hdone.extent, hlast .tier (by decide), hdone.cmdSeq, hdone.result, hdone.cmdState, hdone.others, hdone.only⟩
  case assignShort =>
    intro s tag index hw hbusy hfree hdata hkv hshort
    obtain ⟨t, hexec, hdone, hlast⟩ := State.extCmdWr_done (op := 1) hw (State.extTry_assign ((s.extBusy_adkTaken _).trans hbusy)
      (State.extAssign_short (a := s.adkTaken (wrFrame tag (extAddr 0x008) (extValue index 1))) hfree hdata hkv
        (by rw [State.shortOf_adkTaken]; exact hshort))) (State.extentIs.refl _ _)
    exact ⟨t, hexec, hdone.responded, hdone.extent, hlast .tier (by decide), hdone.cmdSeq, hdone.result, hdone.cmdState, hdone.others, hdone.only⟩
  case busy =>
    intro s tag index hw hbusy
    have hexec : s.extCmdWr tag index 3 = (s.adkTaken (wrFrame tag (extAddr 0x008) (extValue index 3))).adkReply
        (wrFrame tag (extAddr 0x008) (extValue index 3)) stDenied (wrFrame tag (extAddr 0x008) (extValue index 3)).addr [] := by
      refine (State.adkRequest_performs hw.1 _).trans ?_
      show State.extBody _ (extValue index 3) _ = _
      unfold State.extBody
      rw [State.extTry_busy ((s.extBusy_adkTaken _).trans hbusy)]
      rfl
    have honly := State.adkReply_changesOnly (only_refl (s.adkTaken (wrFrame tag (extAddr 0x008) (extValue index 3))) [.adk]) (by decide) stDenied
      (wrFrame tag (extAddr 0x008) (extValue index 3)).addr []
    exact ⟨_, congrArg Host.Outcome.next hexec, State.adkReply_responded _ _ _ _ _, honly .ext (by decide), honly⟩
  case setattr =>
    intro s tag index hw hbusy hactive hshare howner hunfenced
    obtain ⟨t, hexec, hdone, -⟩ := State.extCmdWr_done (op := 2) hw
      (State.extTry_setattr ((s.extBusy_adkTaken _).trans hbusy)
        (State.extSetattr_active (a := s.adkTaken (wrFrame tag (extAddr 0x008) (extValue index 2))) hactive hshare
          ((s.ownerOk_adkTaken _ _).trans howner) hunfenced))
      (State.marked_extentIs ((State.extentIs.refl _ _).onExtent _))
    refine ⟨t, hexec, hdone.responded, ?_, hdone.cmdSeq, hdone.result, hdone.cmdState, hdone.others, hdone.only⟩
    rw [hdone.extent]
    rfl
  case revoke =>
    intro s tag index hw hbusy hactive hplain
    obtain ⟨w, n, hrevoke, honly, hkept⟩ := State.extRevoke_active (a := s.adkTaken (wrFrame tag (extAddr 0x008) (extValue index 3)))
      (e := index.toNat) hactive hplain
    obtain ⟨t, hexec, hdone, hlast⟩ := State.extCmdWr_done (op := 3) hw (State.extTry_revoke ((s.extBusy_adkTaken _).trans hbusy) hrevoke)
      (State.marked_extentIs hkept)
    have hall := ((s.adkTaken_link _).mono (qs := [.free, .ext, .comp, .adk]) (by decide)).trans
      ((honly.mono (by decide)).trans (((State.marked_only _ _ _).mono (by decide)).trans (hlast.mono (by decide))))
    refine ⟨t, hexec, hdone.responded, ?_, ?_, hall .req (by decide), hall .tier (by decide), hdone.cmdSeq, hdone.result, hdone.cmdState,
      hdone.others, hdone.only⟩
    · rw [hdone.extent]
      rfl
    · rw [hdone.extent]
      exact Nat.add_le_add_left (spreadTime_le n) _
  case release =>
    intro s tag index hw hbusy hdrained
    obtain ⟨t, hexec, hdone, hlast⟩ := State.extCmdWr_done (op := 4) hw
      (State.extTry_release ((s.extBusy_adkTaken _).trans hbusy)
        (State.extRelease_drained (a := s.adkTaken (wrFrame tag (extAddr 0x008) (extValue index 4))) hdrained))
      (State.marked_extentIs (State.freeExtent_extentIs _ _))
    have htier : t.tier = s.tier := (hlast .tier (by decide)).trans ((State.marked_only _ _ _ .tier (by decide)).trans
      (State.freeExtent_only _ _ (only_refl _ [.ext, .comp]) (by decide) .tier (by decide)))
    refine ⟨t, hexec, hdone.responded, ?_, ?_, ?_, ?_, htier, hdone.cmdSeq, hdone.result, hdone.cmdState, hdone.others, hdone.only⟩
    all_goals
      rw [hdone.extent]
      rfl
  case releaseActive =>
    intro s tag index hw hbusy hactive
    obtain ⟨t, hexec, hdone, -⟩ := State.extCmdWr_done (op := 4) hw
      (State.extTry_release ((s.extBusy_adkTaken _).trans hbusy)
        (State.extRelease_active (a := s.adkTaken (wrFrame tag (extAddr 0x008) (extValue index 4))) hactive))
      (State.marked_extentIs (State.extentIs.refl _ _))
    exact ⟨t, hexec, hdone.responded, hdone.extent, hdone.cmdSeq, hdone.result, hdone.cmdState, hdone.others, hdone.only⟩
  case scrub =>
    intro s tag index hw hbusy hdrained hpages
    obtain ⟨w, n, hscrub, hwtier, hkept⟩ := State.extScrub_pageless (a := s.adkTaken (wrFrame tag (extAddr 0x008) (extValue index 5)))
      (e := index.toNat) hdrained hpages
    obtain ⟨t, hexec, hdone, hlast⟩ := State.extCmdWr_done (op := 5) hw (State.extTry_scrub ((s.extBusy_adkTaken _).trans hbusy) hscrub)
      (State.marked_extentIs hkept)
    have htier : t.tier = s.tier := (hlast .tier (by decide)).trans ((State.marked_only _ _ _ .tier (by decide)).trans hwtier)
    refine ⟨t, hexec, hdone.responded, ?_, ?_, htier, hdone.cmdSeq, hdone.result, hdone.cmdState, hdone.others, hdone.only⟩
    all_goals
      rw [hdone.extent]
      rfl
  case scrubbed =>
    intro s index halive hstate hleft hpages
    have hkept := s.extTo_extentIs index.toNat .free Extent.blank
    have hexec : exec (.extentScrubComplete index) s = .next (s.extTo index.toNat .free Extent.blank) := by
      show execExtentScrubComplete index s = _
      unfold execExtentScrubComplete
      dsimp only
      rw [halive, hstate, hleft, hpages]
      rfl
    refine ⟨_, hexec, ?_, ?_, ?_, ?_, hkept.others, s.extTo_changesOnly _ _ _ .tier (by decide)⟩
    all_goals
      rw [hkept.extent]
      rfl
  case scrubbing =>
    intro s index halive hstate hleft
    refine congrArg Host.Outcome.next (if_pos ?_)
    rw [halive, hstate, Bool.or_eq_true]
    exact .inr (by simpa using hleft)
  case drained =>
    intro s index halive hstate hshown hflight hreclaim
    obtain ⟨hkept, honly, -⟩ := State.drained_extentIs hreclaim 0
    refine ⟨_, congrArg Host.Outcome.next (if_pos ?_), hkept.extent, hkept.others, honly⟩
    rw [halive, hstate, hflight, decide_eq_true hshown]
    rfl
  case inFlight =>
    intro s index halive hstate hwaits
    refine congrArg Host.Outcome.next (if_neg ?_)
    rw [Bool.and_eq_true, Bool.and_eq_true]
    rintro ⟨⟨-, hshown⟩, hnone⟩
    exact hwaits.elim (fun h => h (by simpa using hnone)) (fun h => absurd (of_decide_eq_true hshown) (not_le.2 h))
  case limit =>
    intro s index r b halive hstate hdue hreclaim hreqs hcounted hperformed horigin hbase hop hdir _ _ _
    have hne : r.frame.opcode ≠ 0x61 := by
      rw [hop]
      decide
    have hstore : storeClass r.frame.opcode = false := by
      rw [hop]
      decide
    obtain ⟨hqueued, hnone, -, hanswered⟩ := State.finishOne_answered hreqs horigin hbase hne (st := stRevoked) (by decide)
    obtain ⟨hcountGrown, hcountOnly, hcountExtent, hcountStrag⟩ := (s.finishOne r stRevoked).countExt_stragglers
    have hcut : ((s.finishOne r stRevoked).countExt 1).changesOnly (((s.finishOne r stRevoked).countExt 1).cutTray [r]) [.tier] :=
      State.cutTray_only _ _ (only_refl _ _) (List.Subset.refl _)
    have hcutMem : (((s.finishOne r stRevoked).countExt 1).cutTray [r]).tier.mem = ((s.finishOne r stRevoked).countExt 1).tier.mem := rfl
    have hall : s.changesOnly (((s.finishOne r stRevoked).countExt 1).cutTray [r]) [.req, .ports, .adk, .evq, .ext, .tier] :=
      (hanswered.mono (by decide)).trans ((hcountOnly.mono (by decide)).trans (hcut.mono (by decide)))
    have hcutDir := (State.extentDir_of_only hall (by decide) (by decide) index.toNat).trans hdir
    have hexec := execDrainLimitExpiry_one halive hstate hdue hreqs hcounted hperformed hstore hcutDir
    have hcutGrown := State.grown_of_only hcut (by decide) (by decide)
    have hcutExt : (((s.finishOne r stRevoked).countExt 1).cutTray [r]).ext = ((s.finishOne r stRevoked).countExt 1).ext := hcut .ext (by decide)
    have hmem : (((s.finishOne r stRevoked).countExt 1).cutTray [r]).tier.mem = s.tier.mem := by
      rw [hcutMem, hcountOnly .tier (by decide), hanswered .tier (by decide)]
    have hreqsCut : (((s.finishOne r stRevoked).countExt 1).cutTray [r]).req.reqs = [] := by
      rw [hcut .req (by decide), hcountOnly .req (by decide)]
      exact hnone
    have hfifo := (hqueued.grown hcountGrown).grown hcutGrown
    have hextent : (((s.finishOne r stRevoked).countExt 1).cutTray [r]).extent index.toNat = s.extent index.toNat :=
      (State.extent_of_ext (congrArg Extents.tab hcutExt) _).trans ((hcountExtent _).trans
        (State.extent_of_ext (congrArg Extents.tab (hanswered .ext (by decide) : (s.finishOne r stRevoked).ext = s.ext)) _))
    have hstrag : (((s.finishOne r stRevoked).countExt 1).cutTray [r]).ext.cntStrag = (bump s.ext.cntStrag).1 := by
      rw [hcutExt, hcountStrag, hanswered .ext (by decide)]
    generalize ((s.finishOne r stRevoked).countExt 1).cutTray [r] = w at hexec hmem hreqsCut hfifo hextent hstrag
    have hreclaimed : ((w.unsnooped index.toNat).extent index.toNat).reclaim = false := (congrArg Extent.reclaim hextent).trans hreclaim
    obtain ⟨hkept, honly, hcount⟩ := State.drained_extentIs hreclaimed 1
    have hlast : ((w.unsnooped index.toNat).drained index.toNat 1).req.reqs = [] :=
      (congrArg Traffic4.reqs (honly .req (by decide) : _ = (w.unsnooped index.toNat).req)).trans hreqsCut
    have hunsnooped : w.grown (w.unsnooped index.toNat) := State.grown_of_ports rfl ⟨[], (List.append_nil _).symm⟩
    rw [State.wakeStaged, State.wake_of_no_reqs hlast] at hexec
    refine ⟨_, hexec, congrArg Extent.state hkept.extent, hlast, .inl ?_, hcount.trans hstrag, ?_⟩
    · exact ((hfifo.grown hunsnooped).grown (State.drained_grown hreclaimed 1)).queuedOn
    · exact (congrArg Tiers.mem (honly .tier (by decide) : _ = (w.unsnooped index.toNat).tier)).trans hmem

end Sys2Proof.Machine
end
